-- ==== Sys2Proof/Word.lean ====
section
/-! DEFINITION. The word types and the plainest arithmetic on them: the helpers of R8 (sext, zext, bits)
over exact integers, and little-endian byte strings (R3). -/

namespace Sys2Proof

/-- A 32-bit register value (R20). -/
abbrev Word := BitVec 32

/-- A 64-bit value: a d pair, an address, an instruction word (R20, R25). -/
abbrev DWord := BitVec 64

/-- One byte of memory. -/
abbrev Byte := BitVec 8

/-- A mask of the 32 lanes of a warp. -/
abbrev Mask := BitVec 32

/-- A register number as a register field of a word holds it (R26). -/
abbrev Reg := BitVec 8

/-- `bits(x, n−1, 0)` of R8 for an exact integer, as a bit vector. -/
abbrev wrap (n : Nat) (x : Int) : BitVec n := BitVec.ofInt n x

end Sys2Proof
end

