-- ==== Sys2Proof/Machine/Sparse.lean ====
section
/-! DEFINITION. Sparse maps and sets: lists of (key, value) pairs with rising keys, and rising lists of keys. The lemmas
stand in Laws/Sparse.lean. -/

namespace Sys2Proof.Machine

/-- The value at a key, if one is listed. -/
def sget? {α : Type} : List (Nat × α) → Nat → Option α
  | [], _ => none
  | (a, v) :: r, k => if a = k then some v else sget? r k

/-- Lists (or replaces) the value at a key, keeping the keys rising. -/
def sput {α : Type} : List (Nat × α) → Nat → α → List (Nat × α)
  | [], k, v => [(k, v)]
  | (a, w) :: r, k, v => if a = k then (k, v) :: r else if k < a then (k, v) :: (a, w) :: r else (a, w) :: sput r k v

/-- Removes every entry at a key. -/
def sdel {α : Type} : List (Nat × α) → Nat → List (Nat × α)
  | [], _ => []
  | (a, w) :: r, k => if a = k then sdel r k else (a, w) :: sdel r k

/-- Adds a key to a rising set. -/
def sins : List Nat → Nat → List Nat
  | [], k => [k]
  | a :: r, k => if a = k then a :: r else if k < a then k :: a :: r else a :: sins r k

/-- Adds a value to a list that does not hold it yet. -/
def addNew {α : Type} [BEq α] (l : List α) (v : α) : List α := if l.contains v then l else v :: l

/-- Adds every key of a list. -/
def sinsAll (m : List Nat) (ks : List Nat) : List Nat := ks.foldl sins m

/-- The keys rise strictly. -/
def risingKeys {α : Type} : List (Nat × α) → Bool
  | [] => true
  | [_] => true
  | (a, _) :: (b, w) :: r => decide (a < b) && risingKeys ((b, w) :: r)

/-- Replaces element i of a list. -/
def setAt {α : Type} : List α → Nat → α → List α
  | [], _, _ => []
  | _ :: r, 0, v => v :: r
  | a :: r, n + 1, v => a :: setAt r n v

/-- Changes element i of a list. -/
def modAt {α : Type} : List α → Nat → (α → α) → List α
  | [], _, _ => []
  | a :: r, 0, f => f a :: r
  | a :: r, n + 1, f => a :: modAt r n f

/-- Removes element i of a list. -/
def dropAt {α : Type} : List α → Nat → List α
  | [], _ => []
  | _ :: r, 0 => r
  | a :: r, n + 1 => a :: dropAt r n

/-- The index of the first element that satisfies p. -/
def indexWhere {α : Type} (p : α → Bool) : List α → Option Nat
  | [] => none
  | a :: r => if p a then some 0 else (indexWhere p r).map (· + 1)

/-- Inserts an element before the first one of a higher key. -/
def insertOn {α : Type} (key : α → Nat) (x : α) : List α → List α
  | [] => [x]
  | y :: r => if key x ≤ key y then x :: y :: r else y :: insertOn key x r

/-- Sorts by a key, equal keys in their order. -/
def sortOn {α : Type} (key : α → Nat) (l : List α) : List α := l.foldr (insertOn key) []

/-- Little-endian bytes to a number (R3). -/
def leNat : List Byte → Nat
  | [] => 0
  | b :: r => b.toNat + 256 * leNat r

/-- The n little-endian bytes of a number (R3). -/
def leBytes : Nat → Nat → List Byte
  | 0, _ => []
  | n + 1, x => BitVec.ofNat 8 x :: leBytes n (x / 256)

/-- n bytes at offset o of a byte string, as a number. -/
def field (bs : List Byte) (o n : Nat) : Nat := leNat ((bs.drop o).take n)

/-- Bit i of a mask. -/
def bit (m : Mask) (i : Nat) : Bool := m.getLsbD i

/-- The mask of the lanes that satisfy p. -/
def maskOf (p : Nat → Bool) : Mask :=
  BitVec.ofNat 32 ((List.range 32).foldl (fun a l => if p l then a + 2 ^ l else a) 0)

/-- The lanes of a mask, rising. -/
def lanesOf (m : Mask) : List Nat := (List.range 32).filter (bit m)

/-- The lowest lane of a mask. -/
def leader (m : Mask) : Option Nat := (lanesOf m).head?

end Sys2Proof.Machine
end

