-- ==== Sys2Proof/Machine/Digest.lean ====
section
/-! DEFINITION. SHA-256, of which R410 names the digests that the management controller reports. The function is that of
FIPS 180-4 (PRESUMED: the spec names it and does not define it; log entry 13). -/

namespace Sys2Proof.Machine

/-- The 64 round constants. -/
def shaRounds : List Word :=
  [0x428A2F98, 0x71374491, 0xB5C0FBCF, 0xE9B5DBA5, 0x3956C25B, 0x59F111F1, 0x923F82A4, 0xAB1C5ED5] ++
  [0xD807AA98, 0x12835B01, 0x243185BE, 0x550C7DC3, 0x72BE5D74, 0x80DEB1FE, 0x9BDC06A7, 0xC19BF174] ++
  [0xE49B69C1, 0xEFBE4786, 0x0FC19DC6, 0x240CA1CC, 0x2DE92C6F, 0x4A7484AA, 0x5CB0A9DC, 0x76F988DA] ++
  [0x983E5152, 0xA831C66D, 0xB00327C8, 0xBF597FC7, 0xC6E00BF3, 0xD5A79147, 0x06CA6351, 0x14292967] ++
  [0x27B70A85, 0x2E1B2138, 0x4D2C6DFC, 0x53380D13, 0x650A7354, 0x766A0ABB, 0x81C2C92E, 0x92722C85] ++
  [0xA2BFE8A1, 0xA81A664B, 0xC24B8B70, 0xC76C51A3, 0xD192E819, 0xD6990624, 0xF40E3585, 0x106AA070] ++
  [0x19A4C116, 0x1E376C08, 0x2748774C, 0x34B0BCB5, 0x391C0CB3, 0x4ED8AA4A, 0x5B9CCA4F, 0x682E6FF3] ++
  [0x748F82EE, 0x78A5636F, 0x84C87814, 0x8CC70208, 0x90BEFFFA, 0xA4506CEB, 0xBEF9A3F7, 0xC67178F2]

/-- The eight words of a digest under way. -/
structure Sha where
  a : Word
  b : Word
  c : Word
  d : Word
  e : Word
  f : Word
  g : Word
  h : Word
  deriving DecidableEq, Repr

def shaStart : Sha :=
  { a := 0x6A09E667, b := 0xBB67AE85, c := 0x3C6EF372, d := 0xA54FF53A, e := 0x510E527F, f := 0x9B05688C, g := 0x1F83D9AB, h := 0x5BE0CD19 }

/-- One round with its constant and its word of the schedule. -/
def shaRound (x : Sha) (p : Word × Word) : Sha :=
  let t1 := x.h + (x.e.rotateRight 6 ^^^ x.e.rotateRight 11 ^^^ x.e.rotateRight 25) + ((x.e &&& x.f) ^^^ (~~~x.e &&& x.g)) + p.1 + p.2
  let t2 := (x.a.rotateRight 2 ^^^ x.a.rotateRight 13 ^^^ x.a.rotateRight 22) + ((x.a &&& x.b) ^^^ (x.a &&& x.c) ^^^ (x.b &&& x.c))
  { a := t1 + t2, b := x.a, c := x.b, d := x.c, e := x.d + t1, f := x.e, g := x.f, h := x.g }

/-- The next word of the schedule, of the words before it, newest first. -/
def shaNext (w : List Word) : Word :=
  let at_ (i : Nat) : Word := w[i]?.getD 0
  let s0 (x : Word) : Word := x.rotateRight 7 ^^^ x.rotateRight 18 ^^^ x >>> 3
  let s1 (x : Word) : Word := x.rotateRight 17 ^^^ x.rotateRight 19 ^^^ x >>> 10
  s1 (at_ 1) + at_ 6 + s0 (at_ 14) + at_ 15

/-- The 64 words of the schedule of a block of 16. -/
def shaSchedule (block : List Word) : List Word := ((List.range 48).foldl (fun w _ => shaNext w :: w) block.reverse).reverse

def shaBlock (x : Sha) (block : List Word) : Sha :=
  let y := (shaRounds.zip (shaSchedule block)).foldl shaRound x
  { a := x.a + y.a, b := x.b + y.b, c := x.c + y.c, d := x.d + y.d, e := x.e + y.e, f := x.f + y.f, g := x.g + y.g, h := x.h + y.h }

/-- A message of bytes, padded to blocks of 64. -/
def shaPad (m : List Byte) : List Byte :=
  m ++ [0x80] ++ List.replicate ((119 - m.length % 64) % 64) 0 ++ (leBytes 8 (8 * m.length)).reverse

/-- Block number i of a padded message: its bytes make words with the first byte highest. -/
def shaWords (m : List Byte) (i : Nat) : List Word :=
  (List.range 16).map fun j => BitVec.ofNat 32 (leNat ((m.drop (64 * i + 4 * j)).take 4).reverse)

/-- The SHA-256 digest of a byte string, as the number whose first byte is the highest. -/
def sha256 (m : List Byte) : Nat :=
  let p := shaPad m
  let x := (List.range (p.length / 64)).foldl (fun y i => shaBlock y (shaWords p i)) shaStart
  [x.a, x.b, x.c, x.d, x.e, x.f, x.g, x.h].foldl (fun n w => 2 ^ 32 * n + w.toNat) 0

end Sys2Proof.Machine
end

