-- ==== Sys2Proof/Syntax.lean ====
section
/-! DEFINITION. The syntax of everything the device does in one indivisible step: the 142 instruction words of
R46 and R36, and the happenings of spec/opcode_table.json that are no words. -/

namespace Sys2Proof

/-! ## Operands and modifiers -/

/-- A guard `?vn` or `?!vn` (R28). -/
structure Guard where
  neg : Bool
  reg : Reg
  deriving DecidableEq, Repr

/-- What every guardable full-format word carries beside its operands: the switch marker and the guard (R26, R28). -/
structure Hdr where
  mark  : Bool
  guard : Option Guard
  deriving DecidableEq, Repr

/-- Source B of a family with an I20 form (R30). -/
inductive Src where
  | reg (r : Reg)
  | imm (i : BitVec 20)
  deriving DecidableEq, Repr

/-- A shift or select count: a register or an immediate field (R62, R118). -/
inductive Count where
  | reg (r : Reg)
  | imm (n : BitVec 8)
  deriving DecidableEq, Repr

/-- The second operand of a compare (R59). -/
inductive Cmp2 where
  | reg (r : Reg)
  | imm (n : BitVec 8)
  deriving DecidableEq, Repr

/-- The field selector of BFX and BFI (R63). -/
inductive Field where
  | reg (r : Reg)
  | imm (pos len : BitVec 6)
  deriving DecidableEq, Repr

/-- The address operand of matrix, engine, atomic and wait words: a d pair in memory, or a scratchpad offset. -/
inductive Place where
  | mem (d : Reg)
  | spm (v : Reg)
  deriving DecidableEq, Repr

inductive AddOp where
  | add | sub | satS | subSatS | satZ | subSatZ | co | subBo | ci | cico | subBi | subBibo
  deriving DecidableEq, Repr

inductive MulOp where
  | lo | hiS | hiZ | wideS | wideZ
  deriving DecidableEq, Repr

inductive MadOp where
  | lo | wideS | wideZ
  deriving DecidableEq, Repr

inductive DivOp where
  | quoS | quoZ | remS | remZ
  deriving DecidableEq, Repr

inductive MnxOp where
  | minS | maxS | minZ | maxZ
  deriving DecidableEq, Repr

inductive AbsOp where
  | abs | absSat | neg | negSat
  deriving DecidableEq, Repr

inductive Rel where
  | eq | ne | lt | le | gt | ge
  deriving DecidableEq, Repr

inductive ShfOp where
  | l | r | a | rotl | fl | fr
  deriving DecidableEq, Repr

inductive ShwOp where
  | l | r | a
  deriving DecidableEq, Repr

inductive BitOp where
  | popc | clz | ctz | brev
  deriving DecidableEq, Repr

inductive AdwOp where
  | add | sub | z32 | s32
  deriving DecidableEq, Repr

inductive MovW where
  | w32 | w64 | w128
  deriving DecidableEq, Repr

inductive CvtI where
  | s32s8 | z32z8 | s32s16 | z32z16 | s8s32 | z8s32 | s16s32 | z16s32 | z8z32 | z16z32
  | s64s32 | z64z32 | s32s64 | z32s64 | z32z64 | s32z32 | z32s32
  deriving DecidableEq, Repr

inductive SysVal where
  | lane | warp | group | gang | inst | node | iter | slot | core | cluster | die | clock | version
  deriving DecidableEq, Repr

/-- Rounding modes of R73. -/
inductive Rnd where
  | rn | rz | ru | rd
  deriving DecidableEq, Repr

inductive FRel where
  | eq | ne | lt | le | gt | ge | un
  deriving DecidableEq, Repr

/-- The three IEEE formats of R71. -/
inductive Fmt where
  | f32 | f16 | bf16
  deriving DecidableEq, Repr

inductive SfuOp where
  | rcp | rsq | sqrt | ex2 | lg2 | sin | cos | tanh
  deriving DecidableEq, Repr

inductive CvtF where
  | f16f32 | bf16f32 | f32f16 | f32bf16 | bf16f16 | f16bf16 | st8f32 | st6f32 | f32st8 | f32st6
  deriving DecidableEq, Repr

inductive IntTy where
  | s32 | z32 | s64 | z64
  deriving DecidableEq, Repr

/-- The narrow code formats of R95. -/
inductive QFmt where
  | hs8 | hs4 | st8 | st6
  deriving DecidableEq, Repr

inductive VoteOp where
  | every | some | same | mask | count
  deriving DecidableEq, Repr

inductive ShflOp where
  | lane | below | above | xor
  deriving DecidableEq, Repr

inductive RedOp where
  | add | minS | maxS | minZ | maxZ | and | or | xor | fadd | fmin | fmax
  deriving DecidableEq, Repr

inductive MatchOp where
  | peers | lead | uniform
  deriving DecidableEq, Repr

/-- The ORD subfield of R33. -/
inductive MOrd where
  | plain | acq | rel | seq
  deriving DecidableEq, Repr

/-- The SCOPE subfield of R33. -/
inductive Scope where
  | thr | wrp | grp | clu | die | dev | sys
  deriving DecidableEq, Repr

/-- The SIZE subfield of R33. -/
inductive MSize where
  | b8 | b16 | b32 | b64 | b128
  deriving DecidableEq, Repr

/-- The modifiers of LD, ST, LDS and STS (R33). -/
structure MemMod where
  ord   : MOrd
  scope : Scope
  pol   : BitVec 3
  size  : MSize
  sx    : Bool
  deriving DecidableEq, Repr

inductive FlushOp where
  | wb | inv | disc
  deriving DecidableEq, Repr

/-- The modifiers the atomics share (R209); `wide` is SIZE = 3. -/
structure AtMod where
  ord   : MOrd
  scope : Scope
  wide  : Bool
  deriving DecidableEq, Repr

inductive AaddOp where
  | int | f32 | f16x2 | bf16x2
  deriving DecidableEq, Repr

inductive LogOp where
  | and | or | xor
  deriving DecidableEq, Repr

inductive WaitCond where
  | eq | ne | leS | geZ
  deriving DecidableEq, Repr

/-- TYPE of the range loads (R257). -/
inductive OrTy where
  | f32 | s32 | s64
  deriving DecidableEq, Repr

/-- The ORD of FENCE (R218). -/
inductive FenceOrd where
  | acq | rel | seq
  deriving DecidableEq, Repr

/-- Control registers by number (R367). -/
inductive CtlReg where
  | feature | trapvec | trapframe | ctxid | split | fixed | clockdiv | version | vpin | tidbase | ordesc | preempt | dbg
  | perf (n : BitVec 3)
  deriving DecidableEq, Repr

/-- Half operations of a paired word in register form: d := d op a, or a move or conversion of a (R39). -/
inductive RegHalf where
  | iadd | isub | imul | minS | maxS | minZ | maxZ | cmpEq | cmpNe | ltS | leS | ltZ | leZ
  | and | or | xor | andn | mov | fadd | fmul | fmin | fmax | fcmpEq | fcmpLt | fcmpLe | fcmpNe
  | paddh | pmulh | f16f32 | bf16f32 | f32f16 | f32bf16
  deriving DecidableEq, Repr

/-- Half operations in immediate form: d := a op sext(i, 8); movi8 reads nothing (R39). -/
inductive ImmHalf where
  | iadd | imul | minS | maxS | cmpEq | cmpNe | ltS | gtS | and | or | xor | andn | shl | shr | sar | rotl | movi8
  deriving DecidableEq, Repr

/-- One half of a paired word (R36, R39). -/
inductive Half where
  | reg (op : RegHalf) (d a : Reg)
  | imm (op : ImmHalf) (d a : Reg) (i : BitVec 8)
  deriving DecidableEq, Repr

/-! ## Words of the full format -/

/-- The fields of a full-format word (R26), as they stand in it. -/
structure Full where
  mark : Bool
  op   : BitVec 8
  d    : Reg
  a    : Reg
  b    : Reg
  c    : Reg
  g    : Reg
  gn   : Bool
  ge   : Bool
  m    : BitVec 12
  deriving DecidableEq, Repr

/-- What the decoder answers for a word it refuses (R47, R48); an ILLEGAL word decodes to `illegal`. -/
inductive Reject where
  /-- an unassigned opcode, an unlisted modifier, a stray unused field, a guard where none may stand -/
  | rsvd
  /-- SCOPE = 7 -/
  | scope
  /-- a paired word that breaks R38 -/
  | illpair
  /-- a pair or quadruple operand misaligned (R27) -/
  | notAlignedPair
  deriving DecidableEq, Repr

/-! ## Host commands -/

/-- A submission entry as the device has read it (R391): where it came from and its fields. -/
structure Cmd where
  fn    : Nat
  queue : Nat
  slot  : Nat
  op    : Nat
  ordered : Bool
  ctx   : Nat
  id    : Nat
  args  : List Byte
  deriving DecidableEq, Repr

/-! ## The instructions -/

/-- Everything the device does in one step: first the words of the instruction set, in the order of R46, then the
happenings of the device, the host, the peers and the management controller. -/
inductive Instr where
  -- basic (R40, R41, R37)
  | illegal (raw : BitVec 54) (mark : Bool)
  | nop (h : Hdr)
  | pairedWord (mark : Bool) (x y : Half)
  -- integer class (R55 to R70)
  | iadd (h : Hdr) (op : AddOp) (d a : Reg) (b : Src) (c : Reg)
  | imul (h : Hdr) (op : MulOp) (d a : Reg) (b : Src)
  | imad (h : Hdr) (op : MadOp) (d a b c : Reg)
  | idiv (h : Hdr) (op : DivOp) (d a b : Reg)
  | imnx (h : Hdr) (op : MnxOp) (d a : Reg) (b : Src)
  | iabs (h : Hdr) (op : AbsOp) (d a : Reg)
  | icmp (h : Hdr) (rel : Rel) (uns : Bool) (d a : Reg) (b : Cmp2)
  | sel (h : Hdr) (wide : Bool) (d a b c : Reg)
  | ltab (h : Hdr) (tt : BitVec 8) (d a b c : Reg)
  | shf (h : Hdr) (op : ShfOp) (clamp : Bool) (d a : Reg) (n : Count) (c : Reg)
  | bfx (h : Hdr) (sx : Bool) (d a : Reg) (f : Field)
  | bfi (h : Hdr) (d a : Reg) (f : Field) (c : Reg)
  | bitc (h : Hdr) (op : BitOp) (d a : Reg)
  | bperm (h : Hdr) (d a b c : Reg)
  | iaddw (h : Hdr) (op : AdwOp) (d a : Reg) (b : Src)
  | shfw (h : Hdr) (op : ShwOp) (clamp : Bool) (d a : Reg) (n : Count)
  | icmpw (h : Hdr) (rel : Rel) (uns : Bool) (d a : Reg) (b : Cmp2)
  | lea (h : Hdr) (sx : Bool) (sh : BitVec 3) (d a b : Reg)
  | mov (h : Hdr) (w : MovW) (d a : Reg)
  | movi (mark : Bool) (d : Reg) (imm : Word)
  | idot (h : Hdr) (half sa sb sat : Bool) (d a b c : Reg)
  | cvti (h : Hdr) (op : CvtI) (d a : Reg)
  | sread (h : Hdr) (v : SysVal) (d : Reg)
  -- floating-point class (R83 to R99)
  | fadd (h : Hdr) (sub : Bool) (r : Rnd) (ftz : Bool) (d a b : Reg)
  | fmul (h : Hdr) (r : Rnd) (ftz : Bool) (d a b : Reg)
  | ffma (h : Hdr) (np nc : Bool) (r : Rnd) (ftz : Bool) (d a b c : Reg)
  | fmnx (h : Hdr) (max : Bool) (d a b : Reg)
  | fcmp (h : Hdr) (rel : FRel) (ftz : Bool) (d a b : Reg)
  | fclass (h : Hdr) (f : Fmt) (d a : Reg)
  | fsfu (h : Hdr) (op : SfuOp) (ftz : Bool) (d a : Reg)
  | fdiv (h : Hdr) (r : Rnd) (ftz : Bool) (d a b : Reg)
  | frint (h : Hdr) (r : Rnd) (ftz : Bool) (d a : Reg)
  | fscale (h : Hdr) (r : Rnd) (ftz : Bool) (d a b : Reg)
  | cvtf (h : Hdr) (op : CvtF) (r : Rnd) (ftz : Bool) (d a : Reg)
  | cvtfi (h : Hdr) (ty : IntTy) (f : Fmt) (r : Rnd) (ftz : Bool) (d a : Reg)
  | cvtif (h : Hdr) (ty : IntTy) (f : Fmt) (r : Rnd) (d a : Reg)
  | paddh (h : Hdr) (bf : Bool) (r : Rnd) (ftz : Bool) (d a b : Reg)
  | pmulh (h : Hdr) (bf : Bool) (r : Rnd) (ftz : Bool) (d a b : Reg)
  | pfmah (h : Hdr) (bf : Bool) (r : Rnd) (ftz : Bool) (d a b c : Reg)
  | pmnxh (h : Hdr) (bf max : Bool) (d a b : Reg)
  | fdot2 (h : Hdr) (bf : Bool) (r : Rnd) (ftz : Bool) (d a b c : Reg)
  | fquant (h : Hdr) (f : QFmt) (k : BitVec 3) (nf : Bool) (d a b c : Reg)
  | fdeq (h : Hdr) (f : QFmt) (k : BitVec 3) (r : Rnd) (ftz : Bool) (d a b : Reg)
  | fexpd (h : Hdr) (ftz : Bool) (d a b : Reg)
  | flse (h : Hdr) (d a b : Reg)
  | ftwosum (h : Hdr) (d a b : Reg)
  -- control class (R111 to R125)
  | bra (h : Hdr) (off : BitVec 24)
  | brx (h : Hdr) (a : Reg)
  | call (h : Hdr) (d : Reg) (off : BitVec 24)
  | callx (h : Hdr) (d a : Reg)
  | ret (h : Hdr) (a : Reg)
  | exit (h : Hdr)
  | vote (h : Hdr) (op : VoteOp) (d a : Reg) (m : Option Reg)
  | shfl (h : Hdr) (op : ShflOp) (wrap wide : Bool) (d a : Reg) (n : Count) (m : Option Reg)
  | wred (h : Hdr) (op : RedOp) (d a : Reg) (m : Option Reg)
  | wscan (h : Hdr) (op : RedOp) (excl : Bool) (d a : Reg) (m : Option Reg)
  | matchw (h : Hdr) (op : MatchOp) (wide : Bool) (d a : Reg) (m : Option Reg)
  | elect (h : Hdr) (d : Reg) (m : Option Reg)
  | wsync (h : Hdr) (m : Option Reg)
  | yieldl (mark : Bool)
  | brkpt (h : Hdr) (k : BitVec 8)
  -- work class (R146 to R153)
  | freeze (mark : Bool) (a : Reg)
  | tnest (mark : Bool)
  | tsignal (mark : Bool) (a : Reg)
  | rgrow (mark : Bool) (n : BitVec 6)
  | rshrink (mark : Bool) (n : BitVec 6)
  | gbar (mark : Bool) (b : BitVec 3)
  | gangbar (mark : Bool)
  | garrive (mark : Bool) (d : Reg) (b : BitVec 3)
  | gwait (h : Hdr) (a : Reg) (b : BitVec 3)
  | launch (h : Hdr) (d a : Reg)
  | yield (mark : Bool)
  | sleep (h : Hdr) (a : Reg)
  -- scheduler words (R179 to R182)
  | qpush (h : Hdr) (w : MovW) (q : BitVec 8) (a : Reg)
  | qpop (h : Hdr) (w : MovW) (q : BitVec 8) (d c : Reg)
  | qclose (h : Hdr) (q : BitVec 8)
  | nodesig (h : Hdr) (e : BitVec 3)
  -- memory class (R201 to R206)
  | ld (h : Hdr) (m : MemMod) (d a : Reg) (off : BitVec 8)
  | st (h : Hdr) (m : MemMod) (d a : Reg) (off : BitVec 8)
  | lds (h : Hdr) (m : MemMod) (d a : Reg) (off : BitVec 8)
  | sts (h : Hdr) (m : MemMod) (d a : Reg) (off : BitVec 8)
  | pref (h : Hdr) (pol : BitVec 3) (l2 : Bool) (a : Reg) (off : BitVec 8)
  | zfill (h : Hdr) (rel : Bool) (scope : Scope) (a : Reg) (off : BitVec 8)
  | cflush (h : Hdr) (op : FlushOp) (mem : Bool) (a : Reg) (off : BitVec 8)
  | taddr (h : Hdr) (chk : Bool) (d a b : Reg)
  | mapq (h : Hdr) (fill : Bool) (d a : Reg)
  -- atomics, fences and waiting (R210 to R226)
  | aadd (h : Hdr) (m : AtMod) (op : AaddOp) (p : Place) (off : BitVec 8) (b : Reg) (d : Option Reg)
  | amnx (h : Hdr) (m : AtMod) (op : MnxOp) (p : Place) (off : BitVec 8) (b : Reg) (d : Option Reg)
  | alog (h : Hdr) (m : AtMod) (op : LogOp) (p : Place) (off : BitVec 8) (b : Reg) (d : Option Reg)
  | axch (h : Hdr) (m : AtMod) (p : Place) (off : BitVec 8) (b : Reg) (d : Option Reg)
  | acas (h : Hdr) (m : AtMod) (p : Place) (off : BitVec 8) (b : Reg) (d : Option Reg)
  | ainc (h : Hdr) (m : AtMod) (dec : Bool) (p : Place) (off : BitVec 8) (b : Reg) (d : Option Reg)
  | fence (h : Hdr) (ord : FenceOrd) (scope : Scope)
  | waita (h : Hdr) (acq : Bool) (scope : Scope) (cond : WaitCond) (wide : Bool) (p : Place) (d b : Reg) (tmo : Option Reg)
  | wakea (h : Hdr) (rel : Bool) (scope : Scope) (wide : Bool) (p : Place) (b : Reg)
  | bcinit (h : Hdr) (rel : Bool) (scope : Scope) (wide : Bool) (a b : Reg) (off : BitVec 8)
  | bcadd (h : Hdr) (rel : Bool) (scope : Scope) (wide : Bool) (a b : Reg) (off : BitVec 8)
  -- Orrery (R259 to R267)
  | ordecl (h : Hdr) (a : Reg)
  | ordrop (h : Hdr) (a : Reg)
  | ldrs (h : Hdr) (ty : OrTy) (d a b : Reg)
  | ldrm (h : Hdr) (ty : OrTy) (idx : Bool) (d a b : Reg)
  | ldpfx (h : Hdr) (ty : OrTy) (d a b c : Reg)
  | ldpick (h : Hdr) (ty : OrTy) (d a b c : Reg)
  | tfence (h : Hdr) (a : Option Reg)
  | orbuild (h : Hdr) (a : Reg)
  -- matrix (R292 to R301)
  | tidset (h : Hdr) (p : Place) (b : Reg)
  | tidinv (h : Hdr) (b : Option Reg)
  | mbload (h : Hdr) (p : Place)
  | mmul (h : Hdr) (d : Reg) (p : Place)
  | maccrd (h : Hdr) (w8 pair : Bool) (d : Reg) (slot : BitVec 3) (col : BitVec 6)
  | maccwr (h : Hdr) (w8 pair : Bool) (a : Reg) (slot : BitVec 3) (col : BitVec 6)
  | maccz (h : Hdr) (free : Bool) (slots : BitVec 8)
  | mtrans (h : Hdr) (p : Place)
  | mperm (h : Hdr) (p : Place)
  | mrsum (h : Hdr) (p : Place)
  | mepi (h : Hdr) (p : Place)
  -- engines (R318 to R321)
  | bcopy (h : Hdr) (d : Reg) (p : Place)
  | gather (h : Hdr) (d : Reg) (p : Place)
  | scatter (h : Hdr) (d : Reg) (p : Place)
  | xcopy (h : Hdr) (d : Reg) (p : Place)
  | htest (h : Hdr) (d a : Reg)
  | hwait (h : Hdr) (d a : Reg)
  | hcancel (h : Hdr) (a : Reg)
  -- generation (R338 to R343)
  | vpub (h : Hdr) (d a : Reg)
  | vpin (h : Hdr) (a b : Reg)
  | vret (h : Hdr) (a : Reg)
  | tokrec (h : Hdr) (a b c : Reg)
  | smask (h : Hdr) (d a b c : Reg)
  | ulcall (h : Hdr) (d a b : Reg)
  | slotrd (h : Hdr) (act : Bool) (d a : Reg) (n : BitVec 3)
  | slotset (h : Hdr) (a b : Reg)
  -- system (R371 to R376)
  | trap (h : Hdr) (k : BitVec 8)
  | tret (mark next : Bool)
  | cread (h : Hdr) (d : Reg) (r : CtlReg)
  | cwrite (h : Hdr) (a : Reg) (r : CtlReg)
  | tsave (mark : Bool) (d a : Reg)
  | tload (mark : Bool) (a : Reg)
  | tlbinv (h : Hdr) (a : Option Reg)
  | idle (mark : Bool)
  -- happenings of a core and its warps; `core` is 192 × die + core, `group` a group number and `warp` a warp index within it, `hold` indexes the warp's held lane groups
  | warpIssueChoice (core : Nat)
  | longLatencyReturn (group warp idx : Nat)
  | trapEntry (group warp : Nat)
  | barrierPhaseComplete (group bar : Nat)
  | gangBarrierComplete (gang : Nat)
  | templateCapture (group : Nat)
  | registerPoolGrant (core : Nat)
  | registerDeadlockSave (core : Nat)
  | warpEnd (group warp : Nat)
  | groupEnd (group : Nat)
  | launchBlockRead (core : Nat)
  -- happenings of the scheduler
  | nodeStart
  | nodeCompletion (graph node : Nat)
  | hostWaitWatch (graph node : Nat)
  | priorityAgeing (grid : Nat)
  | freeCountReport (die : Nat)
  | lodestarBatch
  | groupPlacement (die : Nat)
  | gangReservation (die : Nat)
  | splitConversion (die : Nat)
  | splitForce (core : Nat)
  | splitReassign (core : Nat)
  | stageReevaluation (graph node : Nat)
  | queuePushReserve (group warp hold : Nat)
  | queuePopReserve (group warp hold : Nat)
  | stageCompletion (graph node stage : Nat)
  | loopBoundary (graph node : Nat)
  | preemptionRequest (partition : Nat)
  | framePoolSave (group : Nat)
  | groupRestore (group core : Nat)
  | quantumSliceEnd (partition : Nat)
  -- writes from outside, Orrery units, fences
  | hostWrite (addr : Nat) (data : List Byte)
  | peerWrite (port : Nat) (ctx : Nat) (va : DWord) (data : List Byte)
  | updateRecordApply (region : Nat)
  | rangeLoadAnswer (group warp idx : Nat)
  | regionBuildComplete (group warp hold : Nat)
  | tfenceRelease (group warp hold : Nat)
  | fenceRelease (group warp hold : Nat)
  -- engines and the matrix unit
  | chunkIssue (op : Nat)
  | chunkLanding (op chunk : Nat)
  | chunkCredit (op chunk : Nat)
  | cancelArrival (op : Nat)
  | matrixOpTurn (op : Nat)
  | matrixOpComplete (op : Nat)
  | macroSelfCheck (core unit : Nat)
  -- waiting
  | waitaReread (group warp hold : Nat)
  | waitaPoll (group warp hold : Nat)
  | waitaTimeout (group warp hold : Nat)
  | sleepExpiry (group warp hold : Nat)
  | yieldReturn (group warp : Nat)
  | ulcallBudgetExpiry (group : Nat)
  -- host queues and commands
  | tailReread (fn queue : Nat)
  | tailPoll (fn queue : Nat)
  | completionPost (fn queue : Nat)
  | createContext (c : Cmd)
  | destroyContext (c : Cmd)
  | createQueue (c : Cmd)
  | submitGraph (c : Cmd)
  | cancelGraph (c : Cmd)
  | addSlot (c : Cmd)
  | removeSlot (c : Cmd)
  | createRange (c : Cmd)
  | mapRange (c : Cmd)
  | bindPeer (c : Cmd)
  | peerBindingMatch (port ctx : Nat)
  | setQuantum (c : Cmd)
  | repartition (c : Cmd)
  | assignFunction (c : Cmd)
  | resume (c : Cmd)
  | pageReady (c : Cmd)
  | functionEnable (fn : Nat)
  | functionDisable (fn : Nat)
  | functionRegisterWrite (fn off : Nat) (data : List Byte)
  -- reset, links and management
  | functionLevelReset (fn : Nat)
  | hotReset
  | hostLinkLoss
  | hostLinkReturn (mode : Nat)
  | peerPortDown (port : Nat)
  | peerPortTraining (port version : Nat)
  | dieLinkDown (a b : Nat)
  | pldmMonitoring
  | powerLimitSet (watts : Nat)
  | reducedPrecisionSet (fn : Nat) (on : Bool)
  | firmwareUpdate (image : List Byte) (valid : Bool)
  | spdmAttestation
  | freezeRequest (wrote : Bool)
  | freezeRelease
  | coreHalt (core : Nat)
  | coreResume (core : Nat)
  | powerCapStep (watts : Nat)
  | thermalCap (die : Nat)
  | criticalTemperature (die : Nat)
  | writePerformed (idx : Nat)
  | heldEventPost (fn : Nat)
  | powerUp
  deriving DecidableEq, Repr

end Sys2Proof
end

