-- ==== Sys2Proof/Machine/State.lean ====
section
/-! DEFINITION. The state of the device as plain data: everything the spec names, one home for each. INVENTORY.md
lists every field with its rule and its reset value. Sparse maps are lists of (key, value) pairs with rising keys. -/

namespace Sys2Proof.Machine

/-- Why the machine stops. -/
inductive Fault where
  /-- An access leads to a device address past the 768 GiB of memory that the device has (R12), or its translation to a page table
  there (R188), where the spec gives nothing to read; raised by every translation. Safe: the hardware's behaviour is not claimed. -/
  | noSuchMemory
  deriving DecidableEq, Repr

/-- Why an instruction has no meaning. -/
inductive Refusal where
  /-- The arm of `exec` for an instruction without a meaning answers this; no arm does. Safe. -/
  | notModelled (mnemonic : String)
  deriving DecidableEq, Repr

/-! ## Faults of the device -/

/-- Fault codes (R349). -/
inductive Code where
  | illegal | rsvd | illpair | hazard | align | page | prot | priv | notAlignedPair | scope | bardiv | wmask | orreg
  | orneg | orrange | tidbad | template | mfmt | mshape | staleb | futbad | copybad | ndet | eccu | version | depth
  | growx | linklost | qclosed | budget | swtrap
  deriving DecidableEq, Repr

/-- A fault record (R355). -/
structure FaultRec where
  code     : Code
  handler  : Bool
  deferred : Bool
  lanes    : Mask
  live     : Mask
  atPc     : Mask
  pc       : DWord
  word     : DWord
  d0       : DWord
  d1       : DWord
  clock    : DWord
  warp     : Nat
  deriving DecidableEq, Repr

/-- The writes that happen-before what a die does next, or before a release (R232, R233): of each agent every write up to a
number, and of single bytes every write up to one. Agents are the dies 0 to 3, the device itself 4, the host 5, the peers
from 6 and engine operation n as 16 + n; agent 15 stands for every write to host memory (R237). -/
structure View where
  clock : List (Nat × Nat)
  seen  : List (Nat × Nat)
  deriving DecidableEq, Repr

def View.empty : View := { clock := [], seen := [] }

/-! ## Warps -/

/-- What one lane owns beside its registers: program counter (R100), exit (R115), yield count (R102), age (R103). -/
structure Lane where
  pc     : DWord
  exited : Bool
  yields : Nat
  age    : Nat
  deriving DecidableEq, Repr

/-- One lane's location and comparand in a WAITA (R221): 2^58 × space + address for memory, an offset for scratchpad. -/
structure Watch where
  lane : Nat
  addr : Nat
  cmp  : DWord
  done : Bool
  met  : Bool
  deriving DecidableEq, Repr

/-- Why a lane group is held (R100, R362). -/
inductive Hold where
  | future                                          -- a future read (R45)
  | barrier (b phase : Nat)                         -- GBAR or GWAIT: until the count of b exceeds phase (R150)
  | rearrive (b phase : Nat)                        -- a second arrival (R140)
  | gang (phase : Nat)                              -- GANGBAR (R141)
  | freeze (count : Nat)                            -- FREEZE (R146)
  | tnest                                           -- TNEST (R147)
  | tsave (addr : DWord) (d : Nat)                  -- TSAVE (R374)
  | tload (addr : DWord)                            -- TLOAD (R374)
  | rgrow (n : Nat)                                 -- RGROW (R149)
  | copyWait (reg : Nat)                            -- a register copy (R132)
  | slotWait                                        -- an accumulator slot claim (R272)
  | accept                                          -- acceptance of an engine or matrix word (R285, R304)
  | waita (sp wide : Bool) (cond : WaitCond) (d : Nat) (timed watched : Bool) (seq : Nat) (locs : List Watch)
  | sleep                                           -- SLEEP (R153)
  | fence (ord : FenceOrd) (scope : Scope)          -- FENCE and words that wait as one (R219, R259, R337)
  | tfence (region : Option Nat)                    -- TFENCE (R267)
  | region (num : Nat) (op : Nat)                   -- 0 ORDECL, 1 ORBUILD, 2 ORDROP under way (R259)
  | wsync (members : Mask)                          -- WSYNC (R123)
  | qpush | qpop                                    -- R179, R180
  | hwait                                           -- HWAIT (R320)
  | idle                                            -- IDLE (R376)
  | ret                                             -- until the group's long-latency results have returned (R372, R374)
  | ulcall (d : Nat) (subs : List (Nat × Nat))      -- ULCALL: per lane, its sub-group (R342)
  | brkpt                                           -- halted at a BRKPT (R125)
  | entry                                           -- TADDR: until the tensor entry arrives (R205)
  deriving DecidableEq, Repr

/-- A held lane group: the lanes that wait, those of them that were live for the word (R44), and the word they wait at. -/
structure HoldRec where
  lanes : Mask
  live  : Mask
  pc    : DWord
  word  : DWord
  instr : Option Instr
  kind  : Hold
  deriving DecidableEq, Repr

/-- A range-load query on its way to a unit (R253). -/
structure Query where
  region : Nat
  op     : Nat          -- 0 LDRS, 1 LDRM, 2 LDRM.IDX, 3 LDPFX, 4 LDPICK
  ty     : OrTy
  lo     : Nat
  hi     : Nat
  x      : DWord
  time   : Nat          -- the step of its word
  deriving DecidableEq, Repr

/-- A long-latency result not yet returned (R42). -/
inductive Outst where
  | value (lane reg : Nat) (v : Word)
  | query (lane reg : Nat) (q : Query)
  | matrix (op : Nat)
  | entry (tid : Nat)                -- a tensor entry on its way to the core's cache (R205)
  deriving DecidableEq, Repr

/-- Handler mode (R352): the frame's address, and the record's word address for TRET.NEXT. -/
structure Handler where
  frame : DWord
  temps : List Nat
  cause : FaultRec
  tagged : List (Nat × Word)   -- tags of v240 to v255 recorded at entry, with their handle words, not yet resolved (R356)
  deriving DecidableEq, Repr

/-- A warp. Register, pending and tag keys are 32 × register + lane. -/
structure Warp where
  index     : Nat
  slot      : Nat
  lanes     : List Lane
  regs      : List (Nat × Word)
  priv      : List Nat              -- an instance's private registers (R132)
  pending   : List Nat              -- pending bits that are 1 (R42)
  tags      : List Nat              -- future tags (R45)
  outs      : List Outst
  parked    : Option Mask           -- R44: the lanes live for the marked word
  holds     : List HoldRec
  fault     : Option FaultRec       -- taken, the handler not yet entered (R353)
  deferred  : List (Nat × FaultRec) -- deferred faults with where they fall due: 0 any word, 1 an engine word, 2 a matrix word (R286, R314, R407)
  handler   : Option Handler
  predictor : List DWord            -- return predictor, newest first (R114)
  yielding  : Option (List (Nat × Nat))   -- the set a YIELD recorded (R152)
  wage      : Nat                   -- cycles eligible and not chosen (R104)
  regBad    : List Nat              -- registers that hold an uncorrectable error, as 32 × register + lane (R414)
  past      : List Word             -- values its registers have been given (R6)
  affine    : List Nat              -- registers held compressed (R53)
  recent    : List Nat              -- the register cache, most recent first (R54)
  fenced    : List (Nat × View)     -- by lane: what its last release fence of device scope covers (R232)
  heard     : List (Nat × Bool × View) -- by lane: what the releases it has read cover, those of the host apart (R232)
  line      : Option DWord          -- the second word that stays first in line (R101)
  trapHalt  : Bool                  -- its core has been halted before its handler's first word (R359)
  ended     : Bool
  deriving DecidableEq, Repr

/-! ## Groups -/

/-- A group barrier: phase count and the warps that have arrived (R140). -/
structure Barrier where
  phase   : Nat
  arrived : List Nat
  deriving DecidableEq, Repr

/-- An entry of the future table (R307): generation, whether an operation holds it, resolved, status, kind, landed count. -/
structure Future where
  gen    : Nat
  live   : Bool
  res    : Bool
  stat   : Nat
  kind   : Nat
  landed : Nat
  op     : Nat                      -- the operation that last held it
  deriving DecidableEq, Repr

/-- A tensor-identifier entry as read from the table (R274). -/
structure Tensor where
  base    : Nat
  format  : Nat
  dims    : Nat
  flags   : Nat
  block   : Nat
  tiles   : List Nat
  sizes   : List Nat
  strides : List Nat
  rsv     : Nat
  scale   : Nat
  posns   : Nat
  deriving DecidableEq, Repr

/-- A macro tag (R271); `gen` is the range and generation of a version-sensitive tile. -/
structure Tag where
  ctx   : Nat
  tid   : Nat
  count : Nat
  k0    : Nat
  n0    : Nat
  i2    : Nat
  i3    : Nat
  gen   : Option (Nat × Nat)
  deriving DecidableEq, Repr

/-- A tag a group has recorded, with the entry copy of its MBLOAD and the pinned translation of its pages (R272, R284). -/
structure TagRec where
  tag   : Tag
  entry : Tensor
  deriving DecidableEq, Repr

/-- A physical accumulator slot (R270): the pairs that differ from (+0, +0), keyed 64 × row + column. -/
structure AccSlot where
  used  : Bool
  pairs : List (Nat × (Word × Word))
  deriving DecidableEq, Repr

/-- What a group is (R129, R138, R342). -/
inductive GroupKind where
  | plain
  | prologue
  | instance_ (tmpl : Nat)
  | nested (tmpl : Nat)        -- an instance that has become a nested prologue
  | subgroup (owner warp lane : Nat)
  deriving DecidableEq, Repr

/-- Where a group is in its life (R127, R363). -/
inductive GroupLife where
  | queued | resident | saved | halted | ended
  deriving DecidableEq, Repr

/-- Causes of a save (R364, offset 52). -/
inductive Cause where
  | preempt | page | deadlock | split | slice | tsave
  deriving DecidableEq, Repr

structure Group where
  id       : Nat
  ctx      : Nat
  grid     : Nat                -- launch sequence number (R139)
  index    : Nat                -- group index within its grid
  kind     : GroupKind
  depth    : Nat
  life     : GroupLife
  core     : Nat
  gang     : Nat                -- gang index within the grid
  warpsN   : Nat
  granted  : Nat
  spmSize  : Nat
  split    : BitVec 16
  code     : DWord
  args     : DWord
  seed     : Option Nat         -- stale registers: none in fixed-star mode (R22)
  left     : List (Nat × List Word) -- what the rows of registers from a number on may hold where nothing is written, newest first (R6)
  leftSpm  : List Byte          -- the same of the scratchpad
  pastSpm  : List Byte          -- values its scratchpad bytes have been given (R6)
  view     : View               -- of a saved group: what its threads must see (R186, R233)
  credits  : List (Nat × View)  -- by byte-count barrier: what its credits cover (R224, R236)
  warps    : List Warp
  spm      : List (Nat × Byte)
  spmPriv  : List Nat           -- private scratchpad granules of an instance (R132)
  spmBad   : List Nat           -- 4-byte check granules of its scratchpad in error (R414, R430)
  heap     : List (Nat × Nat)   -- private heap lines: line address, physical line (R134)
  heapPage : Option (Nat × Nat) -- backing page in use and lines taken of it
  bars     : List Barrier
  gangIn   : Bool               -- has arrived at the gang barrier (R141)
  gangWarps : List Nat
  phases   : Nat                -- barrier phases completed: %clock of fixed-star mode (R175)
  futures  : List (Nat × Future)
  tagRecs  : List (Nat × TagRec)
  slots    : List (Nat × Nat)   -- logical to physical accumulator slots (R272)
  savedSlots : List (Nat × AccSlot)  -- logical slots of a saved group, as its frame holds them (R289)
  tsignal  : Option DWord       -- R148
  children : Nat                -- instances and sub-instances not yet ended
  cause    : Option Cause
  waitVa   : Option (DWord × Nat × Bool)  -- PAGE: the address, the access kind, and whether the pool was empty (R395)
  frame    : Option (Nat × Nat) -- save frame: virtual address and size (R363)
  short    : Bool               -- the shortage of its frame pool has been reported (R363)
  logits   : Option (Nat × Nat × Nat × Nat)  -- a ULCALL sub-group: budget, status, slot, words issued (R342)
  deriving DecidableEq, Repr

/-- A gang: its groups and the phase of its barrier (R141). -/
structure Gang where
  id     : Nat
  grid   : Nat
  groups : List Nat
  phase  : Nat
  deriving DecidableEq, Repr

/-- A frozen template (R129, R130). -/
structure Template where
  id      : Nat
  grid    : Nat
  area    : Nat
  warps   : List (Nat × List (DWord × Bool))   -- warp index, lane program counters and exits
  regs    : List (Nat × List (Nat × Word))
  seed    : Option Nat
  left    : List (Nat × List Word)              -- as of the prologue (R6)
  leftSpm : List Byte
  granted : Nat
  spmSize : Nat
  spm     : List (Nat × Byte)
  depth   : Nat
  count   : Nat
  bytes   : Nat
  owner   : Option Nat                          -- the nesting instance
  ctx     : Nat
  pages   : List Nat                            -- the physical pages of a nested template's image (R130)
  areaVa  : Nat × Nat                           -- the template area: virtual address and size (R136)
  heapVa  : Nat × Nat                           -- the template heap: virtual address and size (R134)
  word    : Option DWord                        -- completion word of TSIGNAL (R138)
  deriving DecidableEq, Repr

/-! ## Cores, engines and the matrix unit -/

/-- A B tile: rows of codes or aligned integers by column, with the quantum of each block (R279, R294). -/
structure Tile where
  fmt   : Nat
  kt    : Nat
  cols  : List (List (Option Int))             -- half-step codes or aligned integers; none where outside or not kept
  exps  : List (List (Option (Int × Int)))     -- per column and block: exponent of the quantum and scale as (mantissa, exponent); none invalid
  deriving DecidableEq, Repr

/-- A macro of a core (R270, R271); `unit` is the working macro behind it (R416). -/
structure Macro where
  tag  : Option Tag
  tile : Option Tile
  deriving DecidableEq, Repr

structure Core where
  split    : BitVec 16
  convert  : Option (BitVec 16)     -- picked for conversion (R166)
  halted   : Bool                   -- halted for the debugger (R360)
  perf     : List (Nat × DWord)     -- K_PERF0 to K_PERF7 with the context that wrote each last (R367, R368)
  macros   : List Macro
  retired  : List Nat               -- retired macros (R416)
  slots    : List AccSlot
  domain   : Nat                    -- the protection domain the core holds (R164)
  images   : List Nat               -- template images loaded (R133)
  active   : List (Nat × Nat)       -- active set, in order of residence (R104)
  rotation : Nat × Nat              -- the slot last chosen for each pipe (R104)
  one      : Option (Nat × Nat)     -- the warp a core in fixed-star mode issues from (R174)
  launches : List (Nat × Nat × DWord × Option DWord)   -- launch blocks not yet read: group, warp, address, page waited for (R151)
  walkers  : List (Nat × Nat × DWord)   -- acceptances that wait for walk-ahead entries, in order: group, warp, word; kept by the even core (R305)
  ceLast   : Nat                    -- the core whose chunk its cluster's copy engine issued last; kept by the even core (R317)
  deriving DecidableEq, Repr

/-- An engine copy in flight (R309 to R313). -/
structure Copy where
  id      : Nat
  core    : Nat
  group   : Nat
  warp    : Nat
  handle  : Word
  kind    : Nat                      -- 0 BCOPY, 1 GATHER, 2 SCATTER, 3 XCOPY
  block   : List Byte
  src     : Option Tensor
  dst     : Option Tensor
  idx     : List Nat
  elems   : List (Option (Nat × Nat) × Option (Nat × Nat) × Nat)  -- source and destination (space, address), and size in bits
  chunks  : List (List Nat × Nat)    -- element indices and bytes of each chunk
  next    : Nat                      -- first unissued chunk
  flying  : List Nat                 -- issued, not landed
  landing : List Nat                 -- landed, not credited
  cancel  : Nat                      -- 0 no, 1 requested, 2 arrived (R321)
  lost    : Bool                     -- its peer link went down: later chunks stay unwritten (R314)
  status  : Nat
  err     : Option (Code × DWord × DWord)   -- the deferred fault of its status (R314)
  barrier : Option Nat
  part    : List Nat                 -- elements of flying chunks that have been written (R236, R313)
  skip    : List Nat                 -- chunks refused at a resume: never issued (R322)
  entries : List Nat                 -- walk-ahead entries it pins, by tag and page (R305)
  pins    : List Nat                 -- page-table lines of its pinned translations (R305)
  reserve : List (Nat × Nat)         -- backing lines reserved for heap lines that it will copy: line, physical line (R132, R135)
  parked  : Bool                     -- saved with its group (R322)
  deriving DecidableEq, Repr

/-- A matrix operation's kind with what acceptance read (R293 to R300). -/
inductive MatKind where
  | load (macroNo : Nat) (skip : Bool) (tag : Tag) (entry : Tensor)
  | mul (a : Tensor) (rows m0 i2 i3 : Nat) (pairs : List (Nat × Nat × Nat)) (handle : Word) (planes : Nat)   -- pairs: macro number, slot, first K of A
  | stream (op : Nat) (macroNo slot rows first kstart : Nat) (sel : List Nat)   -- 0 MTRANS, 1 MPERM, 2 MRSUM
  | read (slot : Nat) (d : Nat) (col w : Nat) (pair : Bool) (lanes : Mask)
  | write (slot : Nat) (col : Nat) (vals : List (Nat × List (Word × Word)))
  | clear (slots : List Nat) (free : List Nat)
  | epi (d : Tensor) (slot rows cols row0 col0 i2 i3 : Nat) (rs cs bias stats : Nat) (act : Nat) (smerge clear nostore : Bool)
  deriving DecidableEq, Repr

structure MatOp where
  id      : Nat
  core    : Nat
  group   : Nat
  warp    : Nat
  kind    : MatKind
  barrier : Option Nat
  block   : List Byte
  started : Bool
  done    : Nat                      -- rows done (R289)
  stop    : Bool                     -- HCANCEL (R288)
  bytes   : Nat                      -- bytes to credit
  stat    : Nat                      -- STAT of its future (R306)
  err     : Option (Code × DWord)    -- its error (R286, R289)
  tags    : List (Nat × TagRec)      -- the tags its macro numbers had at acceptance (R284)
  refused : Option (Code × DWord)    -- a translation refused at re-issue (R289)
  entries : List Nat                 -- walk-ahead entries it pins, by tag and page (R305)
  pages   : List (Nat × (Nat × Nat)) -- its pinned translations: virtual page, space and physical page (R285)
  pins    : List Nat                 -- page-table lines of its pinned translations (R285)
  parked  : Bool
  deriving DecidableEq, Repr

/-! ## Orrery -/

/-- The value of a tree node or leaf: integer or F32 bits, and the leaf index of max with index. -/
structure NodeVal where
  v : Int
  i : Nat
  deriving DecidableEq, Repr

/-- An exact accumulator of R216. -/
structure ExactAcc where
  leaf  : Nat
  fix   : Int
  pinf  : Bool
  ninf  : Bool
  nan   : Bool
  count : Nat
  deriving DecidableEq, Repr

/-- An update record (R250): element, old and new value, the aligned group of four leaves, and the warp that wrote. -/
structure URec where
  elem : Nat
  old  : Int
  new  : Int
  four : List Int
  src  : Option (Nat × Nat)
  deriving DecidableEq, Repr

structure Region where
  ctx     : Nat
  num     : Nat
  die     : Nat
  unit    : Nat
  base    : Nat
  n       : Nat
  ty      : Nat
  agg     : Nat
  delta   : Bool
  nonneg  : Bool
  backing : Nat
  bsize   : Nat
  leafPa  : List (Nat × Nat)          -- physical pages of the leaves: virtual page, physical page
  backPa  : List (Nat × Nat)
  applied : Nat                       -- N (R252)
  leaves  : List NodeVal              -- as of N
  levels  : List (List NodeVal)       -- level 1 upward
  recs    : List URec                 -- arrived, not applied
  accs    : List ExactAcc
  building : Bool
  began   : Nat                       -- the step in which its rebuild began (R259)
  bound   : Bool
  deriving DecidableEq, Repr

/-! ## Memory -/

/-- A write that has been performed (R230): its number in the order of performance, its agent, its address as a pending
write has it, the bytes it replaced, and the view of the releases that a reader of it synchronises with (R232). -/
structure Ver where
  stamp : Nat
  agent : Nat
  addr  : Nat
  old   : List Byte
  rel   : Option View
  deriving DecidableEq, Repr

/-- What a view travels along beside memory (R233 edges 6 and 7): the end of a node's groups, the start of a grid's groups, the
sequential fences. -/
inductive Edge where
  | node (graph node : Nat) | grid (id : Nat) | fences
  deriving DecidableEq, Repr

/-- A plain load whose value may still be that of a later write (R233, R237): its registers and what it reads. -/
structure Late where
  die   : Nat
  group : Nat
  warp  : Nat
  lane  : Nat
  reg   : Nat
  regs  : Nat
  sx    : Bool
  size  : Nat
  space : Nat
  addr  : Nat
  deriving DecidableEq, Repr

/-- A write not yet performed at its home (R123, R219): physical address, bytes, who wrote, and whether the L1 has it. -/
structure PendWrite where
  die   : Nat
  group : Nat
  warp  : Nat
  lane  : Nat                         -- 32 where no lane of a warp wrote it
  addr  : Nat
  data  : List Byte
  atL1  : Bool
  uncached : Bool
  level : Nat                         -- the nearest cache that holds it as written: 2 the L1, 1 the L2, 0 none (R194)
  store : Nat                         -- the step of its word
  half  : Nat                         -- 1 and 2 the lower and upper half of a 16-byte host access (R185)
  release : Bool                      -- a release (R237)
  rel   : Option View                 -- what a reader synchronises with (R232)
  deriving DecidableEq, Repr

/-- A line that a cache holds (R192 to R195), as a tag: the bytes written to it are those of `l2` and the pending writes.
`zero` is 0 for a line with storage, 1 for a zero line, 2 for one that ZFILL made and nothing has written back. -/
structure CLine where
  line  : Nat
  secs  : Nat                         -- its 64-byte sectors, bit by bit
  count : Nat                         -- reads left of a counted fill; 0 none
  zero  : Nat
  low   : Bool                        -- lowest retention
  own   : Bool                        -- held for writing
  deriving DecidableEq, Repr

/-- A TLB entry (R190): context, page and size code of R189, version slot, page-table lines. -/
structure Tlb where
  ctx   : Nat
  page  : Nat
  size  : Nat
  slot  : Option (Nat × Nat)
  lines : List Nat
  deriving DecidableEq, Repr

/-- An uncorrectable error in an array that R414 checks, outside registers, scratchpads and the memory of `bad`: of 4 bytes of a
line in an L1 (granule number), of a TLB entry, of a node in a unit's node store, of half of a pair of an accumulator slot (64 × row
+ column, twice, plus the half), of a macro's columns (R415). -/
inductive Err where
  | line (cluster granule : Nat)
  | tlb (core : Nat) (entry : Tlb)
  | node (ctx region level index : Nat)
  | pair (core slot half : Nat)
  | column (core unit : Nat)
  deriving DecidableEq, Repr

/-- A load of host or peer memory whose result has not returned (R398, R407): the lane, its n registers from reg on, the
space it reads and its virtual address. -/
structure Away where
  group : Nat
  warp  : Nat
  lane  : Nat
  reg   : Nat
  n     : Nat
  space : Nat
  addr  : DWord
  deriving DecidableEq, Repr

/-- Where a translation leads (R189, R332, R397). Spaces: 0 device memory, 1 host memory, 2 scratchpad (engines only),
3 + p the peer at port p, 11 device memory past the caches (an uncached page, R194). -/
structure Leaf where
  space : Nat
  addr  : Nat
  r     : Bool
  w     : Bool
  x     : Bool
  size  : Nat                           -- 0 64 KiB, 1 2 MiB, 2 1 GiB
  cache : Nat
  sys   : Bool
  vs    : Option (Nat × Nat)            -- versioned range and slot
  lines : List Nat                      -- page-table lines read
  deriving DecidableEq, Repr

/-- What an access is: the access kind of R349, and what it needs of the leaf: 0 nothing, 1 R, 2 R and W, 3 X. -/
structure Access where
  kind : Nat
  need : Nat
  deriving DecidableEq, Repr

/-- A table walk (R187, R189). -/
inductive Walk where
  | leaf (entry level : Nat) (lines : List Nat)
  | missing
  | malformed
  | hole
  deriving DecidableEq, Repr

/-- A translation: a leaf, a fault with its two details, or an address without memory behind it. -/
inductive Xlat where
  | ok (l : Leaf)
  | bad (c : Code) (d0 d1 : DWord)
  | hole
  deriving DecidableEq, Repr

/-- A device access of R431: done, waiting for a page, refused, or without memory behind it. -/
inductive DevRes (α : Type) where
  | ok (a : α)
  | wait (va : DWord)
  | bad (c : Code) (va : DWord)
  | hole
  deriving DecidableEq, Repr

/-! ## Contexts, ranges, graphs -/

structure Ctx where
  id        : Nat
  fn        : Nat
  root      : Nat
  trapvec   : DWord
  trapframe : DWord
  fixed     : Bool
  clockdiv  : BitVec 4
  tidbase   : DWord
  ordesc    : DWord
  preempt   : DWord
  dbg       : BitVec 3
  pins      : List (Nat × Nat)          -- range, generation (R339)
  maps      : List (Nat × Nat × Nat)    -- range, main window, staging window (R392)
  tidCount  : List (Nat × Nat)          -- set counts (R278)
  frames    : List (Nat × Nat × Nat)    -- pool units in use: offset, size, group (R363)
  left      : List Word                 -- register values of its groups that have left their cores (R6)
  leftSpm   : List Byte                 -- scratchpad values of them
  deriving DecidableEq, Repr

inductive VState where
  | free | staging | live | newest
  deriving DecidableEq, Repr

/-- A versioned range (R332, R392). -/
structure VRange where
  num   : Nat
  fn    : Nat                           -- the function that created it
  size  : Nat
  bases : List Nat
  slots : List (VState × Nat)
  last  : Option Nat                    -- the newest generation's number (R338)
  deriving DecidableEq, Repr

inductive NodeLife where
  | waiting | ready | running | ending | done | failed | stopped
  deriving DecidableEq, Repr

/-- A node record as read at submission (R155, R156) and its life. -/
structure Node where
  kind    : Nat
  prio    : Nat
  warps   : Nat
  gangN   : Nat
  count   : Nat
  code    : DWord
  args    : DWord
  split   : BitVec 16
  regs    : Nat
  feat    : Nat
  spm     : Nat
  deps    : Nat
  k40     : DWord
  k48     : DWord
  k52     : Nat
  k56     : DWord
  k64     : DWord
  succ    : List Nat
  word    : DWord
  life    : NodeLife
  sat     : List Nat                    -- edges satisfied, as 8 × source node + slot (R158)
  sent    : List Nat                    -- successor slots signalled (R182)
  gens    : List (Nat × Nat)            -- generation in effect of each range when it started (R333)
  iter    : Nat
  adopted : Option Nat
  active  : List Nat                    -- active list of slots (R328)
  looping : Bool
  grid    : Option Nat
  deriving DecidableEq, Repr

/-- A stage of a running stage set (R167, R168). -/
structure Stage where
  code : DWord
  args : DWord
  min  : Nat
  max  : Nat
  split : BitVec 16
  regs : Nat
  warps : Nat
  spm  : Nat
  qin  : Nat
  qout : Nat
  feat : Nat
  grid : Option Nat
  done : Bool
  deriving DecidableEq, Repr

/-- A bounded queue (R167, R168). -/
structure Queue where
  ring   : Nat
  cap    : Nat
  head   : Nat
  tail   : Nat
  closed : Bool
  deriving DecidableEq, Repr

/-- A slot command waiting for a boundary (R392). -/
structure SlotCmd where
  cmd    : Cmd
  node   : Nat
  slot   : Nat
  add    : Bool
  applied : Bool
  deriving DecidableEq, Repr

structure Graph where
  id     : Nat
  cmd    : Cmd
  ctx    : Nat
  fixed  : Bool
  nodes  : List Node
  queues : List Queue
  stages : List (Nat × List Stage)      -- by stage-set node
  slotCmds : List SlotCmd
  recorded : List (Nat × Nat)           -- slots that hold a record of this iteration, by loop node (R340)
  failed : Option (Nat × Nat)           -- first node to fail and its reason (R160)
  cancelled : Bool                      -- the host has cancelled it (R392)
  ended  : Bool
  deriving DecidableEq, Repr

/-- A launch: the groups of a node, a stage, a child grid or a nest of sub-instances (R151, R158). `id` is its launch
sequence number. -/
structure Grid where
  id      : Nat
  graph   : Nat
  node    : Nat
  ctx     : Nat
  stage   : Option Nat
  parent  : Option Nat                  -- the launching grid of a child (R151)
  tmpl    : Option Nat
  templated : Bool
  area    : Nat
  areaSize : Nat
  heapSize : Nat
  heapBase : Nat
  pool    : Nat
  code    : DWord
  args    : DWord
  count   : Nat
  next    : Nat                         -- first group not dispatched
  ended   : Nat
  gangN   : Nat
  warps   : Nat
  prio    : Nat
  boost   : Nat                         -- priority levels gained by age (R161)
  split   : BitVec 16
  regs    : Nat
  spm     : Nat
  word    : DWord
  die     : Option Nat
  stopped : Bool
  done    : Bool
  deriving DecidableEq, Repr

/-- What a die dispatcher holds (R162, R163, R166). -/
structure Die where
  queue    : List Nat                   -- queued groups, in order of arrival
  free     : Nat                        -- free count last reported
  reserved : Option Nat                 -- the group whose gang has reserved the die
  linkDown : List Nat                   -- dies whose link is down (R414)
  clock    : Nat                        -- arithmetic clock, MHz (R417)
  off      : Bool                       -- powered off (R417)
  deriving DecidableEq, Repr

/-! ## Host, peers, management -/

/-- A queue pair (R389). -/
structure QPair where
  num   : Nat
  sub   : Nat
  comp  : Nat
  tail  : Nat
  subLog : Nat
  compLog : Nat
  read  : Nat                           -- entries read
  posted : Nat                          -- completions written
  cmds  : List Cmd                      -- read, not started: ORDERED commands that wait (R391)
  busy  : List Nat                      -- commands started and not completed, by their place among the entries read
  held  : List (List Byte)              -- completions not yet written
  deriving DecidableEq, Repr

/-- A function's registers and queues (R387, R388, R394). -/
structure Fn where
  id       : Nat
  offered  : List Nat
  chosen   : List Nat
  admSub   : Nat
  admComp  : Nat
  evRing   : Nat
  admTail  : Nat
  sizes    : BitVec 32
  poll     : BitVec 32
  enable   : Bool
  ready    : Bool
  refused  : List Nat
  overflow : Bool
  queues   : List QPair
  events   : List (List Byte)           -- held events
  evPosted : Nat
  part     : Nat
  nextPart : Option Nat
  reduced  : Bool
  waitSlots : List Cmd                  -- slot commands whose submission is not read (R392)
  going   : List Cmd                    -- a REPARTITION that waits for the saves of its second step (R401)
  deriving DecidableEq, Repr

/-- A partition (R399, R403). -/
structure Part where
  halves  : BitVec 8
  ports   : BitVec 8
  priv    : Bool
  quanta  : List (Nat × Nat × Nat)      -- LEN, Q, FN
  current : Nat
  stopped : Bool                        -- nothing is dispatched to it while a REPARTITION runs (R401)
  deriving DecidableEq, Repr

/-- A peer port (R396, R398). -/
structure Port where
  up       : Bool
  bindings : List (Nat × Nat × Bool)    -- local context, remote context, matched
  sent     : List (Nat × Nat × List Byte)  -- stores sent out: remote context, address, bytes
  deriving DecidableEq, Repr

/-- The management controller and the board (R405 to R417). -/
structure Mgmt where
  bankActive : List Byte
  bankOther  : List Byte
  switch     : Bool                     -- a valid image waits for the next reset (R410)
  limit      : Nat                      -- board power limit, W
  frozen     : Option Bool              -- frozen, and whether state was written (R412)
  posted     : List (List Nat)          -- messages of the management port
  versions   : List Nat                 -- versions of the messages that wait there, oldest first (R2)
  corrected  : List Nat
  uncorrected : List Nat
  linkUp     : Bool
  linkMode   : Nat
  needReset  : Bool
  deriving DecidableEq, Repr

/-- A lane group about to issue: group, warp, program counter, and the lanes it had when it was chosen. -/
structure LaneGroup where
  group : Nat
  warp  : Nat
  pc    : DWord
  lanes : Mask
  deriving DecidableEq, Repr

/-- A word in issue: its lane group, where it stands, and its live lanes (R28). -/
structure Env where
  g     : Nat
  w     : Nat
  pc    : DWord
  word  : DWord
  mark  : Bool
  atPc  : Mask
  live  : Mask
  gr    : Group
  wp    : Warp
  die   : Nat
  fixed : Bool
  deriving DecidableEq, Repr

/-- The registers a word names: reads (in field order, the guard apart) and writes with their widths (R27, R43). -/
structure Uses where
  guard  : Option Nat
  reads  : List (Nat × Nat)
  writes : List (Nat × Nat)
  deriving DecidableEq, Repr

/-- The device. -/
structure State where
  -- what the model itself needs: the lane groups chosen and not yet issued, the one in execution, and what happens next
  issue    : List LaneGroup
  cur      : Option LaneGroup
  curWord  : DWord
  agenda   : List Instr
  tick     : Nat                        -- the free-value counter
  draw     : Nat                        -- the step's free number: whatever a step may choose freely it reads off it
  seqs     : Nat                        -- next number for groups, grids, graphs, operations
  -- time
  timebase : Nat                        -- R175
  -- work
  groups   : List (Nat × Group)
  gangs    : List Gang
  tmpls    : List Template
  grids    : List Grid
  graphs   : List Graph
  dies     : List Die
  lode     : List (Nat × Nat)           -- by partition and priority level (4 p + level): the context Lodestar serves and the batches it has had in a row (R161)
  cores    : List (Nat × Core)          -- cores that differ from Core.reset
  -- contexts
  ctxs     : List (Nat × Ctx)
  ranges   : List VRange
  regions  : List Region
  -- engines
  copies   : List Copy
  matops   : List MatOp
  -- memory
  mem      : List Host.Cell             -- LPDDR-6
  l2       : List (Nat × Byte)          -- written bytes the caches hold
  pend     : List PendWrite             -- writes not yet performed at their homes
  hostMem  : List Host.Cell
  bad      : List Nat                   -- check granules in error (R430)
  errs     : List Err                   -- errors in other arrays (R414)
  codeOld  : List (Nat × Nat × List Byte) -- what writes have replaced, newest first: next number at the write, address, bytes (R229)
  waits    : List (Instr × Nat × DWord) -- device steps that wait for a page: context and address (R431)
  away     : List Away                  -- loads over a link that have not returned (R398, R407)
  hist     : List Ver                   -- writes performed, newest first (R230)
  views    : List View                  -- what each die must see (R231, R233)
  edges    : List (Edge × View)         -- views on their way to a group's start or a fence
  late     : List Late                  -- plain loads not returned that may still read a later write
  caches   : List (Nat × List CLine)    -- lines held, last used first: the L1 of cluster c at c, slice i of die d's L2 at 384 + 24 d + i
  predictor : List (Nat × Nat)          -- by 64 × cluster + index: the cluster that last supplied a line (R196)
  tlbs     : List (Nat × List Tlb)      -- last used first: of core c at c, of cluster c at 768 + c (R190)
  snoops   : List (Nat × List (Nat × List Nat))  -- by 131,072 × home die + set: lines, last used first, with the state on each die: 0 I, 1 S, 2 E, 3 O, 4 M (R239)
  entries  : List (Nat × List Byte)     -- tensor entries that cores hold, by 2^20 × core + 256 × context + identifier (R205, R278)
  -- outside
  fns      : List Fn
  parts    : List Part
  ports    : List Port
  mgmt     : Mgmt
  variantC : Bool                       -- SJ-B7400-C (R1)
  deriving DecidableEq, Repr

/-- What a word's body answers: it is done (every lane of the lane group goes on at its successor), it faults, it holds
its lane group, or it reaches an address without memory behind it. -/
inductive WordRes where
  | done (s : State)
  | jump (s : State)                                -- done, the body has set the program counters
  | trap (s : State) (c : Code) (lanes : Mask) (d0 d1 : DWord)
  | hold (s : State) (k : Hold) (lanes : Mask)
  | stop (f : Fault)
  deriving DecidableEq, Repr

/-! ## Reset -/

/-- A macro without a tile (R271). -/
def Macro.empty : Macro := { tag := none, tile := none }

def AccSlot.clear : AccSlot := { used := false, pairs := [] }

/-- A core after power-up: no groups, empty macros, cleared slots; split 4/0/12 (log entry 3). -/
def Core.reset : Core :=
  { split := 0x3004, convert := none, halted := false, perf := List.replicate 8 (0, 0)
    macros := List.replicate 8 Macro.empty, retired := [], slots := List.replicate 8 AccSlot.clear
    domain := 0, images := [], active := [], rotation := (63, 63), one := none, launches := [], walkers := [], ceLast := 1 }

def Die.reset : Die := { queue := [], free := 192 * 16, reserved := none, linkDown := [], clock := 1300, off := false }

/-- Function registers at power-up (R388): each record offers what is implemented. -/
def Fn.reset (i : Nat) : Fn :=
  { id := i, offered := [0x00010002, 0x00010001, 0x00010000], chosen := [0, 0, 0], admSub := 0, admComp := 0
    evRing := 0, admTail := 0, sizes := 0, poll := 0, enable := false, ready := false, refused := [], overflow := false
    queues := [], events := [], evPosted := 0, part := 0, nextPart := none, reduced := false, waitSlots := [], going := [] }

/-- Partition 0 holds every half and port, shared mode (R399); the others do not exist. -/
def Part.reset (i : Nat) : Part :=
  { halves := if i = 0 then 0xFF else 0, ports := if i = 0 then 0xFF else 0, priv := false, quanta := [], current := 0, stopped := false }

def Port.reset : Port := { up := false, bindings := [], sent := [] }

/-- The device right after power-up (R388, R399, R405): no context, no group, nothing in memory. -/
def State.reset : State :=
  { issue := [], cur := none, curWord := 0, agenda := [], tick := 0, draw := 0, seqs := 1, timebase := 0
    groups := [], gangs := [], tmpls := [], grids := [], graphs := []
    dies := List.replicate 4 Die.reset, lode := List.replicate 32 (0, 0), cores := [], ctxs := [], ranges := [], regions := [], copies := [], matops := []
    mem := [], l2 := [], pend := [], hostMem := [], bad := [], errs := [], codeOld := [], waits := [], away := []
    hist := [], views := List.replicate 4 View.empty, edges := [], late := [], caches := [], predictor := [], tlbs := [], snoops := [], entries := []
    fns := (List.range 33).map Fn.reset, parts := (List.range 8).map Part.reset, ports := List.replicate 8 Port.reset
    mgmt := { bankActive := [], bankOther := [], switch := false, limit := 1000, frozen := none, posted := [], versions := [],
              corrected := List.replicate 4 0, uncorrected := List.replicate 4 0, linkUp := false, linkMode := 0, needReset := false }
    variantC := false }

end Sys2Proof.Machine
end

