-- ==== Sys2Proof/Machine/Operands.lean ====
section
/-! DEFINITION. The operand forms: which registers each word reads and writes (R27, R43), with the number of registers of
each operand; its switch marker; and whether it reads a tagged register without waiting (R45). Reads stand in the
order of the fields A, B, C and then D. -/

namespace Sys2Proof.Machine

def Hdr.use (h : Hdr) (reads writes : List (Nat × Nat)) : Uses :=
  { guard := h.guard.map fun g => g.reg.toNat, reads := reads, writes := writes }

def bare (reads writes : List (Nat × Nat)) : Uses := { guard := none, reads := reads, writes := writes }

def v1 (r : Reg) : Nat × Nat := (r.toNat, 1)
def d2 (r : Reg) : Nat × Nat := (r.toNat, 2)
def q4 (r : Reg) : Nat × Nat := (r.toNat, 4)

def Src.use : Src → Nat → List (Nat × Nat)
  | .reg r, n => [(r.toNat, n)]
  | .imm _, _ => []

def Count.use : Count → List (Nat × Nat)
  | .reg r => [v1 r]
  | .imm _ => []

def Cmp2.use : Cmp2 → Nat → List (Nat × Nat)
  | .reg r, n => [(r.toNat, n)]
  | .imm _, _ => []

def Field.use : Field → List (Nat × Nat)
  | .reg r => [v1 r]
  | .imm _ _ => []

def Place.use : Place → List (Nat × Nat)
  | .mem d => [d2 d]
  | .spm v => [v1 v]

def optUse (n : Nat) : Option Reg → List (Nat × Nat)
  | some r => [(r.toNat, n)]
  | none => []

def MovW.regs : MovW → Nat
  | .w32 => 1 | .w64 => 2 | .w128 => 4

def MSize.bytes : MSize → Nat
  | .b8 => 1 | .b16 => 2 | .b32 => 4 | .b64 => 8 | .b128 => 16

def MSize.regs : MSize → Nat
  | .b8 => 1 | .b16 => 1 | .b32 => 1 | .b64 => 2 | .b128 => 4

def AtMod.regs (m : AtMod) : Nat := if m.wide then 2 else 1

def wide (b : Bool) : Nat := if b then 2 else 1

def IntTy.regs : IntTy → Nat
  | .s32 | .z32 => 1
  | .s64 | .z64 => 2

def OrTy.regs : OrTy → Nat
  | .s64 => 2
  | _ => 1

/-- The registers of a CVTI source and destination (R69). -/
def CvtI.src : CvtI → Nat
  | .s32s64 | .z32s64 | .z32z64 => 2
  | _ => 1
def CvtI.dst : CvtI → Nat
  | .s64s32 | .z64z32 => 2
  | _ => 1

/-- Registers of an accumulator fragment (R298). -/
def fragRegs (w8 pair : Bool) : Nat := (if w8 then 8 else 4) * (if pair then 2 else 1)

/-- What a half reads (R37, R39): the register form both registers, moves and conversions the source alone. -/
def Half.reads : Half → List (Nat × Nat)
  | .reg op d a => match op with
    | .mov | .f16f32 | .bf16f32 | .f32f16 | .f32bf16 => [v1 a]
    | _ => [v1 a, v1 d]
  | .imm op _ a _ => match op with
    | .movi8 => []
    | _ => [v1 a]

def Half.dst : Half → Reg
  | .reg _ d _ => d
  | .imm _ d _ _ => d

/-- The registers of every word; a happening names none. -/
def uses : Instr → Uses
  | .illegal _ _ => bare [] []
  | .nop h => Hdr.use h [] []
  | .pairedWord _ x y => bare (Half.reads x ++ Half.reads y) [v1 (Half.dst x), v1 (Half.dst y)]
  | .iadd h op d a b c => Hdr.use h ([v1 a] ++ Src.use b 1 ++ (match op with | .ci | .cico | .subBi | .subBibo => [v1 c] | _ => [])) [v1 d]
  | .imul h op d a b => Hdr.use h ([v1 a] ++ Src.use b 1) [match op with | .wideS | .wideZ => d2 d | _ => v1 d]
  | .imad h op d a b c => match op with
    | .lo => Hdr.use h [v1 a, v1 b, v1 c] [v1 d]
    | _ => Hdr.use h [v1 a, v1 b, d2 c] [d2 d]
  | .idiv h _ d a b => Hdr.use h [v1 a, v1 b] [v1 d]
  | .imnx h _ d a b => Hdr.use h ([v1 a] ++ Src.use b 1) [v1 d]
  | .iabs h _ d a => Hdr.use h [v1 a] [v1 d]
  | .icmp h _ _ d a b => Hdr.use h ([v1 a] ++ Cmp2.use b 1) [v1 d]
  | .sel h w d a b c => Hdr.use h [(a.toNat, wide w), (b.toNat, wide w), v1 c] [(d.toNat, wide w)]
  | .ltab h _ d a b c => Hdr.use h [v1 a, v1 b, v1 c] [v1 d]
  | .shf h op _ d a n c => Hdr.use h ([v1 a] ++ Count.use n ++ (match op with | .fl | .fr => [v1 c] | _ => [])) [v1 d]
  | .bfx h _ d a f => Hdr.use h ([v1 a] ++ Field.use f) [v1 d]
  | .bfi h d a f c => Hdr.use h ([v1 a] ++ Field.use f ++ [v1 c]) [v1 d]
  | .bitc h _ d a => Hdr.use h [v1 a] [v1 d]
  | .bperm h d a b c => Hdr.use h [v1 a, v1 b, v1 c] [v1 d]
  | .iaddw h op d a b => Hdr.use h ([d2 a] ++ Src.use b (match op with | .z32 | .s32 => 1 | _ => 2)) [d2 d]
  | .shfw h _ _ d a n => Hdr.use h ([d2 a] ++ Count.use n) [d2 d]
  | .icmpw h _ _ d a b => Hdr.use h ([d2 a] ++ Cmp2.use b 2) [v1 d]
  | .lea h _ _ d a b => Hdr.use h [d2 a, v1 b] [d2 d]
  | .mov h w d a => Hdr.use h [(a.toNat, MovW.regs w)] [(d.toNat, MovW.regs w)]
  | .movi _ d _ => bare [] [v1 d]
  | .idot h _ _ _ _ d a b c => Hdr.use h [v1 a, v1 b, v1 c] [v1 d]
  | .cvti h op d a => Hdr.use h [(a.toNat, CvtI.src op)] [(d.toNat, CvtI.dst op)]
  | .sread h v d => Hdr.use h [] [match v with | .clock => d2 d | _ => v1 d]
  | .fadd h _ _ _ d a b => Hdr.use h [v1 a, v1 b] [v1 d]
  | .fmul h _ _ d a b => Hdr.use h [v1 a, v1 b] [v1 d]
  | .ffma h _ _ _ _ d a b c => Hdr.use h [v1 a, v1 b, v1 c] [v1 d]
  | .fmnx h _ d a b => Hdr.use h [v1 a, v1 b] [v1 d]
  | .fcmp h _ _ d a b => Hdr.use h [v1 a, v1 b] [v1 d]
  | .fclass h _ d a => Hdr.use h [v1 a] [v1 d]
  | .fsfu h _ _ d a => Hdr.use h [v1 a] [v1 d]
  | .fdiv h _ _ d a b => Hdr.use h [v1 a, v1 b] [v1 d]
  | .frint h _ _ d a => Hdr.use h [v1 a] [v1 d]
  | .fscale h _ _ d a b => Hdr.use h [v1 a, v1 b] [v1 d]
  | .cvtf h _ _ _ d a => Hdr.use h [v1 a] [v1 d]
  | .cvtfi h ty _ _ _ d a => Hdr.use h [v1 a] [(d.toNat, IntTy.regs ty)]
  | .cvtif h ty _ _ d a => Hdr.use h [(a.toNat, IntTy.regs ty)] [v1 d]
  | .paddh h _ _ _ d a b => Hdr.use h [v1 a, v1 b] [v1 d]
  | .pmulh h _ _ _ d a b => Hdr.use h [v1 a, v1 b] [v1 d]
  | .pfmah h _ _ _ d a b c => Hdr.use h [v1 a, v1 b, v1 c] [v1 d]
  | .pmnxh h _ _ d a b => Hdr.use h [v1 a, v1 b] [v1 d]
  | .fdot2 h _ _ _ d a b c => Hdr.use h [v1 a, v1 b, v1 c] [v1 d]
  | .fquant h _ _ _ d a b c => Hdr.use h [v1 a, v1 b, v1 c] [v1 d]
  | .fdeq h _ _ _ _ d a b => Hdr.use h [v1 a, v1 b] [v1 d]
  | .fexpd h _ d a b => Hdr.use h [v1 a, v1 b] [v1 d]
  | .flse h d a b => Hdr.use h [d2 a, d2 b] [d2 d]
  | .ftwosum h d a b => Hdr.use h [v1 a, v1 b] [d2 d]
  | .bra h _ => Hdr.use h [] []
  | .brx h a => Hdr.use h [d2 a] []
  | .call h d _ => Hdr.use h [] [d2 d]
  | .callx h d a => Hdr.use h [d2 a] [d2 d]
  | .ret h a => Hdr.use h [d2 a] []
  | .exit h => Hdr.use h [] []
  | .vote h _ d a m => Hdr.use h ([v1 a] ++ optUse 1 m) [v1 d]
  | .shfl h _ _ w d a n m => Hdr.use h ([(a.toNat, wide w)] ++ Count.use n ++ optUse 1 m) [(d.toNat, wide w)]
  | .wred h _ d a m => Hdr.use h ([v1 a] ++ optUse 1 m) [v1 d]
  | .wscan h _ _ d a m => Hdr.use h ([v1 a] ++ optUse 1 m) [v1 d]
  | .matchw h _ w d a m => Hdr.use h ([(a.toNat, wide w)] ++ optUse 1 m) [v1 d]
  | .elect h d m => Hdr.use h (optUse 1 m) [v1 d]
  | .wsync h m => Hdr.use h (optUse 1 m) []
  | .yieldl _ => bare [] []
  | .brkpt h _ => Hdr.use h [] []
  | .freeze _ a => bare [v1 a] []
  | .tnest _ => bare [] []
  | .tsignal _ a => bare [d2 a] []
  | .rgrow _ _ => bare [] []
  | .rshrink _ _ => bare [] []
  | .gbar _ _ => bare [] []
  | .gangbar _ => bare [] []
  | .garrive _ d _ => bare [] [v1 d]
  | .gwait h a _ => Hdr.use h [v1 a] []
  | .launch h d a => Hdr.use h [d2 a] [v1 d]
  | .yield _ => bare [] []
  | .sleep h a => Hdr.use h [v1 a] []
  | .qpush h w _ a => Hdr.use h [(a.toNat, MovW.regs w)] []
  | .qpop h w _ d c => Hdr.use h [] [(d.toNat, MovW.regs w), v1 c]
  | .qclose h _ => Hdr.use h [] []
  | .nodesig h _ => Hdr.use h [] []
  | .ld h m d a _ => Hdr.use h [d2 a] [(d.toNat, MSize.regs m.size)]
  | .st h m d a _ => Hdr.use h [d2 a, (d.toNat, MSize.regs m.size)] []
  | .lds h m d a _ => Hdr.use h [v1 a] [(d.toNat, MSize.regs m.size)]
  | .sts h m d a _ => Hdr.use h [v1 a, (d.toNat, MSize.regs m.size)] []
  | .pref h _ _ a _ => Hdr.use h [d2 a] []
  | .zfill h _ _ a _ => Hdr.use h [d2 a] []
  | .cflush h _ _ a _ => Hdr.use h [d2 a] []
  | .taddr h _ d a b => Hdr.use h [v1 a, q4 b] [d2 d]
  | .mapq h _ d a => Hdr.use h [d2 a] [q4 d]
  | .aadd h m _ p _ b d => Hdr.use h (Place.use p ++ [(b.toNat, AtMod.regs m)]) (optUse (AtMod.regs m) d)
  | .amnx h m _ p _ b d => Hdr.use h (Place.use p ++ [(b.toNat, AtMod.regs m)]) (optUse (AtMod.regs m) d)
  | .alog h m _ p _ b d => Hdr.use h (Place.use p ++ [(b.toNat, AtMod.regs m)]) (optUse (AtMod.regs m) d)
  | .axch h m p _ b d => Hdr.use h (Place.use p ++ [(b.toNat, AtMod.regs m)]) (optUse (AtMod.regs m) d)
  | .acas h m p _ b d => Hdr.use h (Place.use p ++ [(b.toNat, 2 * AtMod.regs m)]) (optUse (AtMod.regs m) d)
  | .ainc h m _ p _ b d => Hdr.use h (Place.use p ++ [(b.toNat, AtMod.regs m)]) (optUse (AtMod.regs m) d)
  | .fence h _ _ => Hdr.use h [] []
  | .waita h _ _ _ w p d b t => Hdr.use h (Place.use p ++ [(b.toNat, wide w)] ++ optUse 1 t) [v1 d]
  | .wakea h _ _ _ p b => Hdr.use h (Place.use p ++ [v1 b]) []
  | .bcinit h _ _ w a b _ => Hdr.use h [v1 a, (b.toNat, wide w)] []
  | .bcadd h _ _ w a b _ => Hdr.use h [v1 a, (b.toNat, wide w)] []
  | .ordecl h a => Hdr.use h [v1 a] []
  | .ordrop h a => Hdr.use h [v1 a] []
  | .ldrs h ty d a b => Hdr.use h [v1 a, d2 b] [(d.toNat, match ty with | .f32 => 1 | _ => 2)]
  | .ldrm h ty idx d a b => Hdr.use h [v1 a, d2 b] [(d.toNat, OrTy.regs ty * wide idx)]
  | .ldpfx h ty d a b c => Hdr.use h [v1 a, d2 b, (c.toNat, OrTy.regs ty)] [v1 d]
  | .ldpick h _ d a b c => Hdr.use h [v1 a, d2 b, v1 c] [v1 d]
  | .tfence h a => Hdr.use h (optUse 1 a) []
  | .orbuild h a => Hdr.use h [v1 a] []
  | .tidset h p b => Hdr.use h (Place.use p ++ [v1 b]) []
  | .tidinv h b => Hdr.use h (optUse 1 b) []
  | .mbload h p => Hdr.use h (Place.use p) []
  | .mmul h d p => Hdr.use h (Place.use p) [v1 d]
  | .maccrd h w8 pr d _ _ => Hdr.use h [] [(d.toNat, fragRegs w8 pr)]
  | .maccwr h w8 pr a _ _ => Hdr.use h [(a.toNat, fragRegs w8 pr)] []
  | .maccz h _ _ => Hdr.use h [] []
  | .mtrans h p => Hdr.use h (Place.use p) []
  | .mperm h p => Hdr.use h (Place.use p) []
  | .mrsum h p => Hdr.use h (Place.use p) []
  | .mepi h p => Hdr.use h (Place.use p) []
  | .bcopy h d p => Hdr.use h (Place.use p) [v1 d]
  | .gather h d p => Hdr.use h (Place.use p) [v1 d]
  | .scatter h d p => Hdr.use h (Place.use p) [v1 d]
  | .xcopy h d p => Hdr.use h (Place.use p) [v1 d]
  | .htest h d a => Hdr.use h [v1 a] [d2 d]
  | .hwait h d a => Hdr.use h [v1 a] [v1 d]
  | .hcancel h a => Hdr.use h [v1 a] []
  | .vpub h d a => Hdr.use h [v1 a] [v1 d]
  | .vpin h a b => Hdr.use h [v1 a, v1 b] []
  | .vret h a => Hdr.use h [v1 a] []
  | .tokrec h a b c => Hdr.use h [v1 a, v1 b, v1 c] []
  | .smask h d a b c => Hdr.use h [v1 a, v1 b, v1 c] [v1 d]
  | .ulcall h d a b => Hdr.use h [v1 a, d2 b] [v1 d]
  | .slotrd h _ d a _ => Hdr.use h [v1 a] [q4 d]
  | .slotset h a b => Hdr.use h [v1 a, v1 b] []
  | .trap h _ => Hdr.use h [] []
  | .tret _ _ => bare [] []
  | .cread h d _ => Hdr.use h [] [d2 d]
  | .cwrite h a _ => Hdr.use h [d2 a] []
  | .tsave _ d a => bare [d2 a] [v1 d]
  | .tload _ a => bare [d2 a] []
  | .tlbinv h a => Hdr.use h (optUse 2 a) []
  | .idle _ => bare [] []
  | _ => bare [] []

/-- The guard of a word (R28). -/
def Hdr.guardOf (h : Hdr) : Option Guard := h.guard

/-- The header of a guardable word. -/
def hdr? : Instr → Option Hdr
  | .nop h | .iadd h .. | .imul h .. | .imad h .. | .idiv h .. | .imnx h .. | .iabs h .. | .icmp h .. | .sel h ..
  | .ltab h .. | .shf h .. | .bfx h .. | .bfi h .. | .bitc h .. | .bperm h .. | .iaddw h .. | .shfw h .. | .icmpw h ..
  | .lea h .. | .mov h .. | .idot h .. | .cvti h .. | .sread h .. | .fadd h .. | .fmul h .. | .ffma h .. | .fmnx h ..
  | .fcmp h .. | .fclass h .. | .fsfu h .. | .fdiv h .. | .frint h .. | .fscale h .. | .cvtf h .. | .cvtfi h ..
  | .cvtif h .. | .paddh h .. | .pmulh h .. | .pfmah h .. | .pmnxh h .. | .fdot2 h .. | .fquant h .. | .fdeq h ..
  | .fexpd h .. | .flse h .. | .ftwosum h .. | .bra h .. | .brx h .. | .call h .. | .callx h .. | .ret h .. | .exit h
  | .vote h .. | .shfl h .. | .wred h .. | .wscan h .. | .matchw h .. | .elect h .. | .wsync h .. | .brkpt h ..
  | .gwait h .. | .launch h .. | .sleep h .. | .qpush h .. | .qpop h .. | .qclose h .. | .nodesig h .. | .ld h ..
  | .st h .. | .lds h .. | .sts h .. | .pref h .. | .zfill h .. | .cflush h .. | .taddr h .. | .mapq h .. | .aadd h ..
  | .amnx h .. | .alog h .. | .axch h .. | .acas h .. | .ainc h .. | .fence h .. | .waita h .. | .wakea h ..
  | .bcinit h .. | .bcadd h .. | .ordecl h .. | .ordrop h .. | .ldrs h .. | .ldrm h .. | .ldpfx h .. | .ldpick h ..
  | .tfence h .. | .orbuild h .. | .tidset h .. | .tidinv h .. | .mbload h .. | .mmul h .. | .maccrd h .. | .maccwr h ..
  | .maccz h .. | .mtrans h .. | .mperm h .. | .mrsum h .. | .mepi h .. | .bcopy h .. | .gather h .. | .scatter h ..
  | .xcopy h .. | .htest h .. | .hwait h .. | .hcancel h .. | .vpub h .. | .vpin h .. | .vret h .. | .tokrec h ..
  | .smask h .. | .ulcall h .. | .slotrd h .. | .slotset h .. | .trap h .. | .cread h .. | .cwrite h .. | .tlbinv h .. => some h
  | _ => none

/-- The switch marker of a word (R26). -/
def marked (i : Instr) : Bool :=
  match hdr? i with
  | some h => h.mark
  | none => match i with
    | .pairedWord m .. | .movi m .. | .yieldl m | .freeze m .. | .tnest m | .tsignal m .. | .rgrow m .. | .rshrink m ..
    | .gbar m .. | .gangbar m | .garrive m .. | .yield m | .tret m .. | .tsave m .. | .tload m .. | .idle m => m
    | _ => false

/-- The guard of a word, if it has one. -/
def guardOf (i : Instr) : Option Guard := (hdr? i).bind (·.guard)

/-- HTEST, HWAIT and HCANCEL read a tagged register without the general hold (R45). -/
def readsTags : Instr → Bool
  | .htest .. | .hwait .. | .hcancel .. => true
  | _ => false

end Sys2Proof.Machine
end

