-- ==== Sys2Proof/WellFormed.lean ====
section
/-! DEFINITION. Which instructions a word can hold: `aligned` is R27, `pairLegal` is R38, `encodable` what the
modifier and operand fields of each word can say, and `wellFormed` all three. A happening is well formed when the
numbers it names lie in their ranges. -/

namespace Sys2Proof

open Machine (uses)

/-- The alignment of every operand: a pair starts at an even register, a quadruple or a longer run of registers at
a multiple of 4 (R27, R298). -/
def aligned (i : Instr) : Bool :=
  ((uses i).reads ++ (uses i).writes).all fun p => p.1 % (if p.2 < 4 then p.2 else 4) == 0

/-- Whether a shift half's count lies within 5 bits (R38). -/
def shiftOk : Half → Bool
  | .imm .shl _ _ i | .imm .shr _ _ i | .imm .sar _ _ i | .imm .rotl _ _ i => i.toNat < 32
  | _ => true

/-- No two distinct registers read lie in one bank (R38). -/
def banksOk (l : List (Nat × Nat)) : Bool := l.all fun p => l.all fun q => p.1 == q.1 || p.1 % 4 != q.1 % 4

/-- The rules of R38 that two halves can break. -/
def pairLegal (x y : Half) : Bool :=
  shiftOk x && shiftOk y && Machine.Half.dst x != Machine.Half.dst y
    && banksOk (Machine.Half.reads x ++ Machine.Half.reads y)

/-! ## What the fields of each word can say -/

/-- Source B of a family with an I20 form: register 255 marks the immediate, whose operation is fixed (R30). -/
def srcOk (immOp : Bool) : Src → Bool
  | .reg r => r != 0xFF
  | .imm _ => immOp

/-- A relation without a type: EQ and NE carry no sign selection (R59). -/
def relOk (rel : Rel) (uns : Bool) : Bool := !(uns && (rel == .eq || rel == .ne))

/-- A count of a shift of width w: an immediate lies below w and takes no clamp (R62). -/
def countOk (w : Nat) (clamp : Bool) : Count → Bool
  | .reg _ => true
  | .imm n => n.toNat < w && !clamp

/-- A field selector: position below 32, length at most 32 (R63). -/
def fieldOk : Field → Bool
  | .reg _ => true
  | .imm pos len => pos.toNat < 32 && len.toNat ≤ 32

/-- The fields of a load, of a store and of their scratchpad forms (R33, R201). -/
def ldMod (m : MemMod) : Bool := m.ord != .rel && (!m.sx || m.size == .b8 || m.size == .b16)
def stMod (m : MemMod) : Bool := m.ord != .acq && !m.sx

/-- The operand fields of every word, and the ranges of the happenings. -/
def encodable : Instr → Bool
  | .illegal _ _ => true
  | .nop _ => true
  | .pairedWord _ x y => halfOk x && halfOk y
  | .iadd _ op _ _ b c => srcOk (op == .add) b && (carryIn op || c == 0)
  | .imul _ op _ _ b => srcOk (op == .lo) b
  | .imad .. => true
  | .idiv .. => true
  | .imnx _ op _ _ b => srcOk (op == .minS) b
  | .iabs .. => true
  | .icmp _ rel u _ _ _ => relOk rel u
  | .sel .. => true
  | .ltab .. => true
  | .shf _ op clamp _ _ n c => countOk 32 clamp n && !(clamp && op == .rotl) && (op == .fl || op == .fr || c == 0)
  | .bfx _ _ _ _ f => fieldOk f
  | .bfi _ _ _ f _ => fieldOk f
  | .bitc .. => true
  | .bperm .. => true
  | .iaddw _ op _ _ b => srcOk (op == .add) b
  | .shfw _ _ clamp _ _ n => countOk 64 clamp n
  | .icmpw _ rel u _ _ _ => relOk rel u
  | .lea .. => true
  | .mov .. => true
  | .movi .. => true
  | .idot .. => true
  | .cvti .. => true
  | .sread .. => true
  | .fadd .. => true
  | .fmul .. => true
  | .ffma .. => true
  | .fmnx .. => true
  | .fcmp .. => true
  | .fclass .. => true
  | .fsfu .. => true
  | .fdiv .. => true
  | .frint .. => true
  | .fscale .. => true
  | .cvtf _ op r z _ _ => (cvtRounds op || r == .rn) && (cvtFlushes op || !z)
  | .cvtfi .. => true
  | .cvtif .. => true
  | .paddh .. => true
  | .pmulh .. => true
  | .pfmah .. => true
  | .pmnxh .. => true
  | .fdot2 .. => true
  | .fquant _ t k _ _ _ _ _ => t == .hs4 || k.toNat < 4
  | .fdeq _ t k _ _ _ _ _ => t == .hs4 || k.toNat < 4
  | .fexpd .. => true
  | .flse .. => true
  | .ftwosum .. => true
  | .bra .. => true
  | .brx .. => true
  | .call .. => true
  | .callx .. => true
  | .ret .. => true
  | .exit _ => true
  | .vote .. => true
  | .shfl _ op w _ _ _ n _ => countOk 32 false n && !(w && (op == .lane || op == .xor))
  | .wred .. => true
  | .wscan .. => true
  | .matchw .. => true
  | .elect .. => true
  | .wsync .. => true
  | .yieldl _ => true
  | .brkpt .. => true
  | .freeze .. => true
  | .tnest _ => true
  | .tsignal .. => true
  | .rgrow _ n => 1 ≤ n.toNat && n.toNat ≤ 32
  | .rshrink _ n => 1 ≤ n.toNat && n.toNat ≤ 32
  | .gbar .. => true
  | .gangbar _ => true
  | .garrive .. => true
  | .gwait .. => true
  | .launch .. => true
  | .yield _ => true
  | .sleep .. => true
  | .qpush .. => true
  | .qpop _ w _ d c => !(d.toNat ≤ c.toNat && c.toNat < d.toNat + Machine.MovW.regs w)
  | .qclose .. => true
  | .nodesig .. => true
  | .ld _ m _ _ _ => ldMod m
  | .st _ m _ _ _ => stMod m && m.pol.toNat < 4
  | .lds _ m _ _ _ => ldMod m && m.pol == 0
  | .sts _ m _ _ _ => stMod m && m.pol == 0
  | .pref _ pol _ _ _ => pol != 1 && pol != 2
  | .zfill .. => true
  | .cflush .. => true
  | .taddr .. => true
  | .mapq .. => true
  | .aadd _ m op _ _ _ _ => op == .int || !m.wide
  | .amnx .. => true
  | .alog .. => true
  | .axch .. => true
  | .acas .. => true
  | .ainc .. => true
  | .fence .. => true
  | .waita .. => true
  | .wakea .. => true
  | .bcinit .. => true
  | .bcadd .. => true
  | .ordecl .. => true
  | .ordrop .. => true
  | .ldrs .. => true
  | .ldrm .. => true
  | .ldpfx .. => true
  | .ldpick .. => true
  | .tfence .. => true
  | .orbuild .. => true
  | .tidset .. => true
  | .tidinv .. => true
  | .mbload .. => true
  | .mmul .. => true
  | .maccrd _ w _ _ _ col => col.toNat % (if w then 8 else 4) == 0
  | .maccwr _ w _ _ _ col => col.toNat % (if w then 8 else 4) == 0
  | .maccz .. => true
  | .mtrans .. => true
  | .mperm .. => true
  | .mrsum .. => true
  | .mepi .. => true
  | .bcopy .. => true
  | .gather .. => true
  | .scatter .. => true
  | .xcopy .. => true
  | .htest .. => true
  | .hwait .. => true
  | .hcancel .. => true
  | .vpub .. => true
  | .vpin .. => true
  | .vret .. => true
  | .tokrec .. => true
  | .smask .. => true
  | .ulcall .. => true
  | .slotrd _ _ _ _ n => n.toNat ≤ 4
  | .slotset .. => true
  | .trap .. => true
  | .tret .. => true
  | .cread .. => true
  | .cwrite .. => true
  | .tsave .. => true
  | .tload .. => true
  | .tlbinv .. => true
  | .idle _ => true
  | .warpIssueChoice c => c < 768
  | .longLatencyReturn _ w _ => w < 32
  | .trapEntry _ w => w < 32
  | .barrierPhaseComplete _ b => b < 8
  | .gangBarrierComplete _ => true
  | .templateCapture _ => true
  | .registerPoolGrant c => c < 768
  | .registerDeadlockSave c => c < 768
  | .warpEnd _ w => w < 32
  | .groupEnd _ => true
  | .launchBlockRead c => c < 768
  | .nodeStart => true
  | .nodeCompletion .. => true
  | .hostWaitWatch .. => true
  | .priorityAgeing _ => true
  | .freeCountReport d => d < 4
  | .lodestarBatch => true
  | .groupPlacement d => d < 4
  | .gangReservation d => d < 4
  | .splitConversion d => d < 4
  | .splitForce c => c < 768
  | .splitReassign c => c < 768
  | .stageReevaluation .. => true
  | .queuePushReserve _ w _ => w < 32
  | .queuePopReserve _ w _ => w < 32
  | .stageCompletion .. => true
  | .loopBoundary .. => true
  | .preemptionRequest _ => true
  | .framePoolSave _ => true
  | .groupRestore _ c => c < 768
  | .quantumSliceEnd _ => true
  | .hostWrite a d => a + d.length ≤ 2 ^ 64
  | .peerWrite _ _ va d => va.toNat + d.length ≤ 2 ^ 64
  | .updateRecordApply _ => true
  | .rangeLoadAnswer _ w _ => w < 32
  | .regionBuildComplete _ w _ => w < 32
  | .tfenceRelease _ w _ => w < 32
  | .fenceRelease _ w _ => w < 32
  | .chunkIssue _ => true
  | .chunkLanding .. => true
  | .chunkCredit .. => true
  | .cancelArrival _ => true
  | .matrixOpTurn _ => true
  | .matrixOpComplete _ => true
  | .macroSelfCheck c _ => c < 768
  | .waitaReread _ w _ => w < 32
  | .waitaPoll _ w _ => w < 32
  | .waitaTimeout _ w _ => w < 32
  | .sleepExpiry _ w _ => w < 32
  | .yieldReturn _ w => w < 32
  | .ulcallBudgetExpiry _ => true
  | .tailReread .. => true
  | .tailPoll .. => true
  | .completionPost .. => true
  | .createContext _ => true
  | .destroyContext _ => true
  | .createQueue _ => true
  | .submitGraph _ => true
  | .cancelGraph _ => true
  | .addSlot _ => true
  | .removeSlot _ => true
  | .createRange _ => true
  | .mapRange _ => true
  | .bindPeer _ => true
  | .peerBindingMatch .. => true
  | .setQuantum _ => true
  | .repartition _ => true
  | .assignFunction _ => true
  | .resume _ => true
  | .pageReady _ => true
  | .functionEnable _ => true
  | .functionDisable _ => true
  | .functionRegisterWrite .. => true
  | .functionLevelReset _ => true
  | .hotReset => true
  | .hostLinkLoss => true
  | .hostLinkReturn _ => true
  | .peerPortDown _ => true
  | .peerPortTraining .. => true
  | .dieLinkDown a b => a < 4 && b < 4
  | .pldmMonitoring => true
  | .powerLimitSet _ => true
  | .reducedPrecisionSet .. => true
  | .firmwareUpdate .. => true
  | .spdmAttestation => true
  | .freezeRequest _ => true
  | .freezeRelease => true
  | .coreHalt c => c < 768
  | .coreResume c => c < 768
  | .powerCapStep _ => true
  | .thermalCap d => d < 4
  | .criticalTemperature d => d < 4
  | .writePerformed _ => true
  | .heldEventPost _ => true
  | .powerUp => true
where
  /-- The forms of IADD that read the carry from C (R55). -/
  carryIn : AddOp → Bool
    | .ci | .cico | .subBi | .subBibo => true
    | _ => false
  /-- The conversions that take a rounding mode, and those that take .FTZ (R91). -/
  cvtRounds : CvtF → Bool
    | .f16f32 | .bf16f32 | .bf16f16 | .f16bf16 => true
    | _ => false
  cvtFlushes : CvtF → Bool
    | .f16f32 | .bf16f32 | .bf16f16 | .f16bf16 | .f32f16 | .f32bf16 => true
    | _ => false
  /-- MOVI8 has no source (R38). -/
  halfOk : Half → Bool
    | .imm .movi8 _ a _ => a == 0
    | _ => true

/-- A well-formed instruction: one that some word holds, or a happening whose numbers lie in range. -/
def wellFormed (i : Instr) : Bool :=
  encodable i && aligned i && (match i with | .pairedWord _ x y => pairLegal x y | _ => true)

/-- Whether an instruction is a word, as against a happening. -/
def isWord (i : Instr) : Bool :=
  match i with
  | .illegal .. | .pairedWord .. => true
  | _ => (Machine.hdr? i).isSome || isBare i
where
  /-- The unguardable words. -/
  isBare : Instr → Bool
    | .movi .. | .yieldl _ | .freeze .. | .tnest _ | .tsignal .. | .rgrow .. | .rshrink .. | .gbar .. | .gangbar _
    | .garrive .. | .yield _ | .tret .. | .tsave .. | .tload .. | .idle _ => true
    | _ => false

end Sys2Proof
end

