-- ==== Sys2Proof/Decode.lean ====
section
/-! DEFINITION. The decoder: from the 64 bits of a word to an instruction or a named refusal (R25 to R48 and the
encoding tables of chapters 03 to 18), and after it an encoder written from the same tables. A word that is refused
faults with the code of `Reject`; the register, hazard and future checks of R27, R43 and R308 need the machine and
stand with it. -/

namespace Sys2Proof

open Machine (uses)

/-! ## Fields of M -/

/-- Bits [lo+n−1:lo] of M. -/
def fld (f : Full) (lo n : Nat) : Nat := f.m.toNat / 2 ^ lo % 2 ^ n

/-- Bit k of M. -/
def flg (f : Full) (k : Nat) : Bool := fld f k 1 == 1

/-- `x` where `c` holds, a refusal elsewhere. -/
def need (c : Bool) (x : Option Instr) : Option Instr := if c then x else none

/-- An unused register field (R27). -/
def zero (r : Reg) : Bool := r == 0

/-! ## The guard -/

/-- The header of a guardable word (R28). -/
def hdrOf (f : Full) : Option Hdr :=
  if f.ge then some { mark := f.mark, guard := some { neg := f.gn, reg := f.g } }
  else if f.g == 0 && !f.gn then some { mark := f.mark, guard := none }
  else none

/-- Whether the guard fields of an unguardable word are zero (R28). -/
def noGuard (f : Full) : Bool := f.g == 0 && !f.gn && !f.ge

/-! ## Codes of the modifiers -/

def addOpOf (n : Nat) : Option AddOp :=
  [.add, .sub, .satS, .subSatS, .satZ, .subSatZ, .co, .subBo, .ci, .cico, .subBi, .subBibo][n]?
def mulOpOf (n : Nat) : Option MulOp := [.lo, .hiS, .hiZ, .wideS, .wideZ][n]?
def madOpOf (n : Nat) : Option MadOp := [.lo, .wideS, .wideZ][n]?
def divOpOf (n : Nat) : Option DivOp := [.quoS, .quoZ, .remS, .remZ][n]?
def mnxOpOf (n : Nat) : Option MnxOp := [.minS, .maxS, .minZ, .maxZ][n]?
def absOpOf (n : Nat) : Option AbsOp := [.abs, .absSat, .neg, .negSat][n]?
def relOf (n : Nat) : Option Rel := [.eq, .ne, .lt, .le, .gt, .ge][n]?
def shfOpOf (n : Nat) : Option ShfOp := [.l, .r, .a, .rotl, .fl, .fr][n]?
def shwOpOf (n : Nat) : Option ShwOp := [.l, .r, .a][n]?
def bitOpOf (n : Nat) : Option BitOp := [.popc, .clz, .ctz, .brev][n]?
def adwOpOf (n : Nat) : Option AdwOp := [.add, .sub, .z32, .s32][n]?
def movWOf (n : Nat) : Option MovW := [.w32, .w64, .w128][n]?
def cvtIOf (n : Nat) : Option CvtI :=
  [.s32s8, .z32z8, .s32s16, .z32z16, .s8s32, .z8s32, .s16s32, .z16s32, .z8z32, .z16z32, .s64s32, .z64z32, .s32s64,
   .z32s64, .z32z64, .s32z32, .z32s32][n]?
def sysValOf (n : Nat) : Option SysVal :=
  [.lane, .warp, .group, .gang, .inst, .node, .iter, .slot, .core, .cluster, .die, .clock, .version][n]?
def rndOf (n : Nat) : Option Rnd := [.rn, .rz, .ru, .rd][n]?
def fRelOf (n : Nat) : Option FRel := [.eq, .ne, .lt, .le, .gt, .ge, .un][n]?
def fmtOf (n : Nat) : Option Fmt := [.f32, .f16, .bf16][n]?
def sfuOpOf (n : Nat) : Option SfuOp := [.rcp, .rsq, .sqrt, .ex2, .lg2, .sin, .cos, .tanh][n]?
def cvtFOf (n : Nat) : Option CvtF :=
  [.f16f32, .bf16f32, .f32f16, .f32bf16, .bf16f16, .f16bf16, .st8f32, .st6f32, .f32st8, .f32st6][n]?
def intTyOf (n : Nat) : Option IntTy := [.s32, .z32, .s64, .z64][n]?
def qFmtOf (n : Nat) : Option QFmt := [.hs8, .hs4, .st8, .st6][n]?
def voteOf (n : Nat) : Option VoteOp := [.every, .some, .same, .mask, .count][n]?
def shflOf (n : Nat) : Option ShflOp := [.lane, .below, .above, .xor][n]?
def redOf (n : Nat) : Option RedOp :=
  [.add, .minS, .maxS, .minZ, .maxZ, .and, .or, .xor, .fadd, .fmin, .fmax][n]?
def ordOf (n : Nat) : Option MOrd := [.plain, .acq, .rel, .seq][n]?
/-- Code 7 stands here as `sys`: `decodeFull` refuses it by name after every RSVD check (R48). -/
def scopeOf (n : Nat) : Option Scope := [.thr, .wrp, .grp, .clu, .die, .dev, .sys, .sys][n]?
def sizeOf' (n : Nat) : Option MSize := [.b8, .b16, .b32, .b64, .b128][n]?
def flushOf (n : Nat) : Option FlushOp := [.wb, .inv, .disc][n]?
def aaddOf (n : Nat) : Option AaddOp := [.int, .f32, .f16x2, .bf16x2][n]?
def logOf (n : Nat) : Option LogOp := [.and, .or, .xor][n]?
def condOf (n : Nat) : Option WaitCond := [.eq, .ne, .leS, .geZ][n]?
def orTyOf (n : Nat) : Option OrTy := [.f32, .s32, .s64][n]?
def fenceOf (n : Nat) : Option FenceOrd := [none, some .acq, some .rel, some .seq][n]?.join
/-- SIZE of an atomic, wait or byte-count word: 2 or 3 (R209, R220). -/
def wideOf (n : Nat) : Option Bool := [none, none, some false, some true][n]?.join
/-- A control-register number (R367). -/
def ctlOf (n : Nat) : Option CtlReg :=
  if 16 ≤ n ∧ n < 24 then some (.perf (BitVec.ofNat 3 (n - 16)))
  else [.feature, .trapvec, .trapframe, .ctxid, .split, .fixed, .clockdiv, .version, .vpin, .tidbase, .ordesc,
    .preempt, .dbg][n]?

/-! ## Operand layouts -/

/-- Source B of a family with an I20 form, whose other modifier is `op` (R30): B = 0xFF marks the immediate, and M
then holds its low bits, so that the operation is the one of M = 0. -/
def isImm (f : Full) : Bool := f.b == 0xFF

def imm20 (f : Full) : BitVec 20 := BitVec.ofNat 20 (f.c.toNat * 4096 + f.m.toNat)

/-- The mask operand of a lane word: MK in M[11] (R108). `none` refuses. -/
def maskOf (f : Full) : Option (Option Reg) :=
  if flg f 11 then some (some f.c) else if zero f.c then some none else none

/-- The address operand with SPM in M[6]. -/
def placeOf (f : Full) : Place := if flg f 6 then .spm f.a else .mem f.a

/-- The destination of an atomic: RET in M[0] (R209). -/
def retOf (f : Full) : Option (Option Reg) :=
  if flg f 0 then some (some f.d) else if zero f.d then some none else none

/-! ## Families -/

section
variable (f : Full)

def decNop : Option Instr := do
  let h ← hdrOf f
  need (zero f.d && zero f.a && zero f.b && zero f.c && f.m == 0) (some (.nop h))

def decIadd : Option Instr := do
  let h ← hdrOf f
  if isImm f then some (.iadd h .add f.d f.a (.imm (imm20 f)) 0)
  else do
    let op ← addOpOf f.m.toNat
    need (8 ≤ f.m.toNat || zero f.c) (some (.iadd h op f.d f.a (.reg f.b) f.c))

def decImul : Option Instr := do
  let h ← hdrOf f
  if isImm f then some (.imul h .lo f.d f.a (.imm (imm20 f)))
  else do
    let op ← mulOpOf f.m.toNat
    need (zero f.c) (some (.imul h op f.d f.a (.reg f.b)))

def decImad : Option Instr := do
  let h ← hdrOf f
  let op ← madOpOf f.m.toNat
  some (.imad h op f.d f.a f.b f.c)

def decIdiv : Option Instr := do
  let h ← hdrOf f
  let op ← divOpOf f.m.toNat
  need (zero f.c) (some (.idiv h op f.d f.a f.b))

def decImnx : Option Instr := do
  let h ← hdrOf f
  if isImm f then some (.imnx h .minS f.d f.a (.imm (imm20 f)))
  else do
    let op ← mnxOpOf f.m.toNat
    need (zero f.c) (some (.imnx h op f.d f.a (.reg f.b)))

def decIabs : Option Instr := do
  let h ← hdrOf f
  let op ← absOpOf f.m.toNat
  need (zero f.b && zero f.c) (some (.iabs h op f.d f.a))

/-- The second operand of a compare: M[4] selects the immediate in C, and the other field is zero (R59). -/
def cmp2Of : Option Cmp2 :=
  if flg f 4 then (if zero f.b then some (.imm f.c) else none) else if zero f.c then some (.reg f.b) else none

/-- The relation and signedness of a compare (R59). -/
def cmpOk (rel : Rel) : Bool := fld f 5 7 == 0 && !(flg f 3 && (rel == .eq || rel == .ne))

def decIcmp : Option Instr := do
  let h ← hdrOf f
  let rel ← relOf (fld f 0 3)
  let b ← cmp2Of f
  need (cmpOk f rel) (some (.icmp h rel (flg f 3) f.d f.a b))

def decIcmpw : Option Instr := do
  let h ← hdrOf f
  let rel ← relOf (fld f 0 3)
  let b ← cmp2Of f
  need (cmpOk f rel) (some (.icmpw h rel (flg f 3) f.d f.a b))

def decSel : Option Instr := do
  let h ← hdrOf f
  need (fld f 1 11 == 0) (some (.sel h (flg f 0) f.d f.a f.b f.c))

def decLtab : Option Instr := do
  let h ← hdrOf f
  need (fld f 8 4 == 0) (some (.ltab h (BitVec.ofNat 8 (fld f 0 8)) f.d f.a f.b f.c))

/-- The funnel shifts, which read C (R62). -/
def funnel : ShfOp → Bool
  | .fl | .fr => true
  | _ => false

def decShf : Option Instr := do
  let h ← hdrOf f
  let op ← shfOpOf (fld f 0 3)
  need (fld f 5 7 == 0)
    (if flg f 4 then
      (if funnel op then need (!flg f 3 && f.b.toNat < 32) (some (.shf h op false f.d f.a (.imm f.b) f.c))
       else need (!flg f 3 && zero f.b && f.c.toNat < 32) (some (.shf h op false f.d f.a (.imm f.c) 0)))
     else need (!(flg f 3 && op == .rotl) && (funnel op || zero f.c)) (some (.shf h op (flg f 3) f.d f.a (.reg f.b) f.c)))

def decShfw : Option Instr := do
  let h ← hdrOf f
  let op ← shwOpOf (fld f 0 3)
  need (fld f 5 7 == 0)
    (if flg f 4 then need (!flg f 3 && zero f.b && f.c.toNat < 64) (some (.shfw h op false f.d f.a (.imm f.c)))
     else need (zero f.c) (some (.shfw h op (flg f 3) f.d f.a (.reg f.b))))

/-- The field selector of BFX and BFI (R63). -/
def fieldOf : Option Field :=
  if flg f 1 then
    (if f.b.toNat < 32 ∧ fld f 6 6 ≤ 32 ∧ fld f 2 4 = 0 then
      some (.imm (BitVec.ofNat 6 f.b.toNat) (BitVec.ofNat 6 (fld f 6 6))) else none)
  else if fld f 2 10 = 0 then some (.reg f.b) else none

def decBfx : Option Instr := do
  let h ← hdrOf f
  let x ← fieldOf f
  need (zero f.c) (some (.bfx h (flg f 0) f.d f.a x))

def decBfi : Option Instr := do
  let h ← hdrOf f
  let x ← fieldOf f
  need (!flg f 0) (some (.bfi h f.d f.a x f.c))

def decBitc : Option Instr := do
  let h ← hdrOf f
  let op ← bitOpOf f.m.toNat
  need (zero f.b && zero f.c) (some (.bitc h op f.d f.a))

def decBperm : Option Instr := do
  let h ← hdrOf f
  need (f.m == 0) (some (.bperm h f.d f.a f.b f.c))

def decIaddw : Option Instr := do
  let h ← hdrOf f
  if isImm f then some (.iaddw h .add f.d f.a (.imm (imm20 f)))
  else do
    let op ← adwOpOf f.m.toNat
    need (zero f.c) (some (.iaddw h op f.d f.a (.reg f.b)))

def decLea : Option Instr := do
  let h ← hdrOf f
  need (fld f 4 8 == 0 && zero f.c) (some (.lea h (flg f 3) (BitVec.ofNat 3 (fld f 0 3)) f.d f.a f.b))

def decMov : Option Instr := do
  let h ← hdrOf f
  let w ← movWOf f.m.toNat
  need (zero f.b && zero f.c) (some (.mov h w f.d f.a))

/-- MOVI: the immediate stands in bits [45:14], the fields A, B, C and G, and bits [13:0] are zero (R31). -/
def decMovi : Option Instr :=
  need (!f.gn && !f.ge && f.m == 0) (some (.movi f.mark f.d (f.a ++ f.b ++ f.c ++ f.g)))

def decIdot : Option Instr := do
  let h ← hdrOf f
  need (fld f 1 1 == 0 && fld f 5 7 == 0) (some (.idot h (flg f 0) (flg f 2) (flg f 3) (flg f 4) f.d f.a f.b f.c))

def decCvti : Option Instr := do
  let h ← hdrOf f
  let op ← cvtIOf f.m.toNat
  need (zero f.b && zero f.c) (some (.cvti h op f.d f.a))

def decSread : Option Instr := do
  let h ← hdrOf f
  let v ← sysValOf f.m.toNat
  need (zero f.a && zero f.b && zero f.c) (some (.sread h v f.d))

/-! Floating point: RND in M[1:0], FTZ in M[2] (R73), where R81 allows them. -/

def decFadd : Option Instr := do
  let h ← hdrOf f
  let r ← rndOf (fld f 0 2)
  need (fld f 4 8 == 0 && zero f.c) (some (.fadd h (flg f 3) r (flg f 2) f.d f.a f.b))

def decFmul : Option Instr := do
  let h ← hdrOf f
  let r ← rndOf (fld f 0 2)
  need (fld f 3 9 == 0 && zero f.c) (some (.fmul h r (flg f 2) f.d f.a f.b))

def decFfma : Option Instr := do
  let h ← hdrOf f
  let r ← rndOf (fld f 0 2)
  need (fld f 5 7 == 0) (some (.ffma h (flg f 3) (flg f 4) r (flg f 2) f.d f.a f.b f.c))

def decFmnx : Option Instr := do
  let h ← hdrOf f
  need (fld f 0 3 == 0 && fld f 4 8 == 0 && zero f.c) (some (.fmnx h (flg f 3) f.d f.a f.b))

def decFcmp : Option Instr := do
  let h ← hdrOf f
  let rel ← fRelOf (fld f 3 3)
  need (fld f 0 2 == 0 && fld f 6 6 == 0 && zero f.c) (some (.fcmp h rel (flg f 2) f.d f.a f.b))

def decFclass : Option Instr := do
  let h ← hdrOf f
  let t ← fmtOf (fld f 3 2)
  need (fld f 0 3 == 0 && fld f 5 7 == 0 && zero f.b && zero f.c) (some (.fclass h t f.d f.a))

def decFsfu : Option Instr := do
  let h ← hdrOf f
  let op ← sfuOpOf (fld f 3 3)
  need (fld f 0 2 == 0 && fld f 6 6 == 0 && zero f.b && zero f.c) (some (.fsfu h op (flg f 2) f.d f.a))

def decFdiv : Option Instr := do
  let h ← hdrOf f
  let r ← rndOf (fld f 0 2)
  need (fld f 3 9 == 0 && zero f.c) (some (.fdiv h r (flg f 2) f.d f.a f.b))

def decFrint : Option Instr := do
  let h ← hdrOf f
  let r ← rndOf (fld f 0 2)
  need (fld f 3 9 == 0 && zero f.b && zero f.c) (some (.frint h r (flg f 2) f.d f.a))

def decFscale : Option Instr := do
  let h ← hdrOf f
  let r ← rndOf (fld f 0 2)
  need (fld f 3 9 == 0 && zero f.c) (some (.fscale h r (flg f 2) f.d f.a f.b))

/-- Which of RND and FTZ a conversion form takes (R91). -/
def cvtFRnd : CvtF → Bool
  | .f16f32 | .bf16f32 | .bf16f16 | .f16bf16 => true
  | _ => false
def cvtFFtz : CvtF → Bool
  | .f16f32 | .bf16f32 | .bf16f16 | .f16bf16 | .f32f16 | .f32bf16 => true
  | _ => false

def decCvtf : Option Instr := do
  let h ← hdrOf f
  let op ← cvtFOf (fld f 4 4)
  let r ← rndOf (fld f 0 2)
  need (fld f 3 1 == 0 && fld f 8 4 == 0 && (cvtFRnd op || fld f 0 2 == 0) && (cvtFFtz op || !flg f 2) && zero f.b && zero f.c)
    (some (.cvtf h op r (flg f 2) f.d f.a))

def decCvtfi : Option Instr := do
  let h ← hdrOf f
  let ty ← intTyOf (fld f 4 2)
  let t ← fmtOf (fld f 6 2)
  let r ← rndOf (fld f 0 2)
  need (fld f 3 1 == 0 && fld f 8 4 == 0 && zero f.b && zero f.c) (some (.cvtfi h ty t r (flg f 2) f.d f.a))

def decCvtif : Option Instr := do
  let h ← hdrOf f
  let ty ← intTyOf (fld f 4 2)
  let t ← fmtOf (fld f 6 2)
  let r ← rndOf (fld f 0 2)
  need (fld f 2 2 == 0 && fld f 8 4 == 0 && zero f.b && zero f.c) (some (.cvtif h ty t r f.d f.a))

def decPaddh : Option Instr := do
  let h ← hdrOf f
  let r ← rndOf (fld f 0 2)
  need (fld f 4 8 == 0 && zero f.c) (some (.paddh h (flg f 3) r (flg f 2) f.d f.a f.b))

def decPmulh : Option Instr := do
  let h ← hdrOf f
  let r ← rndOf (fld f 0 2)
  need (fld f 4 8 == 0 && zero f.c) (some (.pmulh h (flg f 3) r (flg f 2) f.d f.a f.b))

def decPfmah : Option Instr := do
  let h ← hdrOf f
  let r ← rndOf (fld f 0 2)
  need (fld f 4 8 == 0) (some (.pfmah h (flg f 3) r (flg f 2) f.d f.a f.b f.c))

def decPmnxh : Option Instr := do
  let h ← hdrOf f
  need (fld f 0 3 == 0 && fld f 5 7 == 0 && zero f.c) (some (.pmnxh h (flg f 3) (flg f 4) f.d f.a f.b))

def decFdot2 : Option Instr := do
  let h ← hdrOf f
  let r ← rndOf (fld f 0 2)
  need (fld f 4 8 == 0) (some (.fdot2 h (flg f 3) r (flg f 2) f.d f.a f.b f.c))

/-- The field index of a quantised code: 0 to 3, or 0 to 7 for HS4 (R95). -/
def kOk (t : QFmt) (k : BitVec 3) : Bool := t == .hs4 || k.toNat < 4

def decFquant : Option Instr := do
  let h ← hdrOf f
  let t ← qFmtOf (fld f 4 2)
  let k := BitVec.ofNat 3 (fld f 6 3)
  need (fld f 0 4 == 0 && fld f 10 2 == 0 && kOk t k) (some (.fquant h t k (flg f 9) f.d f.a f.b f.c))

def decFdeq : Option Instr := do
  let h ← hdrOf f
  let t ← qFmtOf (fld f 4 2)
  let r ← rndOf (fld f 0 2)
  let k := BitVec.ofNat 3 (fld f 6 3)
  need (fld f 3 1 == 0 && fld f 9 3 == 0 && kOk t k && zero f.c) (some (.fdeq h t k r (flg f 2) f.d f.a f.b))

def decFexpd : Option Instr := do
  let h ← hdrOf f
  need (fld f 0 2 == 0 && fld f 3 9 == 0 && zero f.c) (some (.fexpd h (flg f 2) f.d f.a f.b))

def decFlse : Option Instr := do
  let h ← hdrOf f
  need (f.m == 0 && zero f.c) (some (.flse h f.d f.a f.b))

def decFtwosum : Option Instr := do
  let h ← hdrOf f
  need (f.m == 0 && zero f.c) (some (.ftwosum h f.d f.a f.b))

/-! Control: relative words hold their offset in A, B and C (R107). -/

def decBra : Option Instr := do
  let h ← hdrOf f
  need (f.m == 0 && zero f.d) (some (.bra h (f.a ++ f.b ++ f.c)))

def decBrx : Option Instr := do
  let h ← hdrOf f
  need (f.m == 0 && zero f.d && zero f.b && zero f.c) (some (.brx h f.a))

def decCall : Option Instr := do
  let h ← hdrOf f
  need (f.m == 0) (some (.call h f.d (f.a ++ f.b ++ f.c)))

def decCallx : Option Instr := do
  let h ← hdrOf f
  need (f.m == 0 && zero f.b && zero f.c) (some (.callx h f.d f.a))

def decRet : Option Instr := do
  let h ← hdrOf f
  need (f.m == 0 && zero f.d && zero f.b && zero f.c) (some (.ret h f.a))

def decExit : Option Instr := do
  let h ← hdrOf f
  need (f.m == 0 && zero f.d && zero f.a && zero f.b && zero f.c) (some (.exit h))

def decVote : Option Instr := do
  let h ← hdrOf f
  let op ← voteOf (fld f 0 3)
  let m ← maskOf f
  need (fld f 3 8 == 0 && zero f.b) (some (.vote h op f.d f.a m))

def decShfl : Option Instr := do
  let h ← hdrOf f
  let op ← shflOf (fld f 0 2)
  let m ← maskOf f
  need (fld f 5 6 == 0 && !(flg f 4 && (op == .lane || op == .xor)) && !(flg f 2 && 32 ≤ f.b.toNat))
    (some (.shfl h op (flg f 4) (flg f 3) f.d f.a (if flg f 2 then .imm f.b else .reg f.b) m))

def decWred : Option Instr := do
  let h ← hdrOf f
  let op ← redOf (fld f 0 4)
  let m ← maskOf f
  need (fld f 4 7 == 0 && zero f.b) (some (.wred h op f.d f.a m))

def decWscan : Option Instr := do
  let h ← hdrOf f
  let op ← redOf (fld f 0 4)
  let m ← maskOf f
  need (fld f 5 6 == 0 && zero f.b) (some (.wscan h op (flg f 4) f.d f.a m))

def decMatch : Option Instr := do
  let h ← hdrOf f
  let m ← maskOf f
  let op := if flg f 1 then MatchOp.uniform else if flg f 2 then .lead else .peers
  need (fld f 3 8 == 0 && !(flg f 1 && flg f 2) && zero f.b) (some (.matchw h op (flg f 0) f.d f.a m))

def decElect : Option Instr := do
  let h ← hdrOf f
  let m ← maskOf f
  need (fld f 0 11 == 0 && zero f.a && zero f.b) (some (.elect h f.d m))

def decWsync : Option Instr := do
  let h ← hdrOf f
  let m ← maskOf f
  need (fld f 0 11 == 0 && zero f.d && zero f.a && zero f.b) (some (.wsync h m))

/-- An unguardable word with no operand. -/
def decPlain (i : Instr) : Option Instr :=
  need (noGuard f && f.m == 0 && zero f.d && zero f.a && zero f.b && zero f.c) (some i)

def decBrkpt : Option Instr := do
  let h ← hdrOf f
  need (fld f 8 4 == 0 && zero f.d && zero f.a && zero f.b && zero f.c) (some (.brkpt h (BitVec.ofNat 8 (fld f 0 8))))

/-! Work (R145 to R153). -/

def decFreeze : Option Instr :=
  need (noGuard f && f.m == 0 && zero f.d && zero f.b && zero f.c) (some (.freeze f.mark f.a))

def decTsignal : Option Instr :=
  need (noGuard f && f.m == 0 && zero f.d && zero f.b && zero f.c) (some (.tsignal f.mark f.a))

def decRgrow : Option Instr :=
  need (noGuard f && f.m == 0 && zero f.d && zero f.a && zero f.c && 1 ≤ f.b.toNat && f.b.toNat ≤ 32)
    (some (.rgrow f.mark (BitVec.ofNat 6 f.b.toNat)))

def decRshrink : Option Instr :=
  need (noGuard f && f.m == 0 && zero f.d && zero f.a && zero f.c && 1 ≤ f.b.toNat && f.b.toNat ≤ 32)
    (some (.rshrink f.mark (BitVec.ofNat 6 f.b.toNat)))

def decGbar : Option Instr :=
  need (noGuard f && f.m == 0 && zero f.d && zero f.a && zero f.c && f.b.toNat < 8) (some (.gbar f.mark (BitVec.ofNat 3 f.b.toNat)))

def decGarrive : Option Instr :=
  need (noGuard f && f.m == 0 && zero f.a && zero f.c && f.b.toNat < 8)
    (some (.garrive f.mark f.d (BitVec.ofNat 3 f.b.toNat)))

def decGwait : Option Instr := do
  let h ← hdrOf f
  need (f.m == 0 && zero f.d && zero f.c && f.b.toNat < 8) (some (.gwait h f.a (BitVec.ofNat 3 f.b.toNat)))

def decLaunch : Option Instr := do
  let h ← hdrOf f
  need (f.m == 0 && zero f.b && zero f.c) (some (.launch h f.d f.a))

def decSleep : Option Instr := do
  let h ← hdrOf f
  need (f.m == 0 && zero f.d && zero f.b && zero f.c) (some (.sleep h f.a))

/-! Scheduler words (R177 to R182). -/

def decQpush : Option Instr := do
  let h ← hdrOf f
  let w ← movWOf f.m.toNat
  need (zero f.d && zero f.c) (some (.qpush h w f.b f.a))

/-- Whether the status register lies within the data registers (R179). -/
def popClash (w : MovW) (d c : Reg) : Bool := d.toNat ≤ c.toNat && c.toNat < d.toNat + Machine.MovW.regs w

def decQpop : Option Instr := do
  let h ← hdrOf f
  let w ← movWOf f.m.toNat
  need (zero f.a && !popClash w f.d f.c) (some (.qpop h w f.b f.d f.c))

def decQclose : Option Instr := do
  let h ← hdrOf f
  need (f.m == 0 && zero f.d && zero f.a && zero f.c) (some (.qclose h f.b))

def decNodesig : Option Instr := do
  let h ← hdrOf f
  need (f.m == 0 && zero f.d && zero f.a && zero f.c && f.b.toNat < 8) (some (.nodesig h (BitVec.ofNat 3 f.b.toNat)))

/-! Memory (R33, R34, R201 to R206). -/

/-- The common modifiers; the checks that differ between the words stand in `memOk`. -/
def memModOf : Option MemMod := do
  let o ← ordOf (fld f 10 2)
  let s ← scopeOf (fld f 7 3)
  let z ← sizeOf' (fld f 1 3)
  some { ord := o, scope := s, pol := BitVec.ofNat 3 (fld f 4 3), size := z, sx := flg f 0 }

end

/-- What R33 and R201 let the four words say: ORD, POL and SX. -/
def loadOk (m : MemMod) : Bool := m.ord != .rel && (!m.sx || m.size == .b8 || m.size == .b16)
def storeOk (m : MemMod) : Bool := m.ord != .acq && !m.sx
def polSt (m : MemMod) : Bool := m.pol.toNat < 4
def polSpm (m : MemMod) : Bool := m.pol == 0

section
variable (f : Full)

def decLd : Option Instr := do
  let h ← hdrOf f
  let m ← memModOf f
  need (loadOk m && zero f.b) (some (.ld h m f.d f.a f.c))

def decSt : Option Instr := do
  let h ← hdrOf f
  let m ← memModOf f
  need (storeOk m && polSt m && zero f.b) (some (.st h m f.d f.a f.c))

def decLds : Option Instr := do
  let h ← hdrOf f
  let m ← memModOf f
  need (loadOk m && polSpm m && zero f.b) (some (.lds h m f.d f.a f.c))

def decSts : Option Instr := do
  let h ← hdrOf f
  let m ← memModOf f
  need (storeOk m && polSpm m && zero f.b) (some (.sts h m f.d f.a f.c))

/-- The policies PREF may name (R202). -/
def polPref (n : BitVec 3) : Bool := n != 1 && n != 2

def decPref : Option Instr := do
  let h ← hdrOf f
  let p := BitVec.ofNat 3 (fld f 4 3)
  need (fld f 1 3 == 0 && fld f 7 5 == 0 && polPref p && zero f.d && zero f.b) (some (.pref h p (flg f 0) f.a f.c))

/-- ORD of a word that is plain or a release: 0 or 2. -/
def relOrd (n : Nat) : Option Bool := [some false, none, some true][n]?.join
/-- ORD of a word that is plain or an acquire: 0 or 1. -/
def acqOrd (n : Nat) : Option Bool := [false, true][n]?

def decZfill : Option Instr := do
  let h ← hdrOf f
  let r ← relOrd (fld f 10 2)
  let s ← scopeOf (fld f 7 3)
  need (fld f 0 7 == 0 && zero f.d && zero f.b) (some (.zfill h r s f.a f.c))

def decCflush : Option Instr := do
  let h ← hdrOf f
  let op ← flushOf (fld f 0 2)
  need (fld f 3 9 == 0 && zero f.d && zero f.b) (some (.cflush h op (flg f 2) f.a f.c))

def decTaddr : Option Instr := do
  let h ← hdrOf f
  need (fld f 1 11 == 0 && zero f.c) (some (.taddr h (flg f 0) f.d f.a f.b))

def decMapq : Option Instr := do
  let h ← hdrOf f
  need (fld f 1 11 == 0 && zero f.b && zero f.c) (some (.mapq h (flg f 0) f.d f.a))

/-! Atomics, fences and waiting (R209, R218 to R226). -/

def atModOf : Option AtMod := do
  let o ← ordOf (fld f 10 2)
  let s ← scopeOf (fld f 7 3)
  let w ← wideOf (fld f 1 3)
  some { ord := o, scope := s, wide := w }

def decAadd : Option Instr := do
  let h ← hdrOf f
  let m ← atModOf f
  let op ← aaddOf (fld f 4 2)
  let d ← retOf f
  need (op == .int || !m.wide) (some (.aadd h m op (placeOf f) f.c f.b d))

def decAmnx : Option Instr := do
  let h ← hdrOf f
  let m ← atModOf f
  let op ← mnxOpOf (fld f 4 2)
  let d ← retOf f
  some (.amnx h m op (placeOf f) f.c f.b d)

def decAlog : Option Instr := do
  let h ← hdrOf f
  let m ← atModOf f
  let op ← logOf (fld f 4 2)
  let d ← retOf f
  some (.alog h m op (placeOf f) f.c f.b d)

def decAxch : Option Instr := do
  let h ← hdrOf f
  let m ← atModOf f
  let d ← retOf f
  need (fld f 4 2 == 0) (some (.axch h m (placeOf f) f.c f.b d))

def decAcas : Option Instr := do
  let h ← hdrOf f
  let m ← atModOf f
  let d ← retOf f
  need (fld f 4 2 == 0) (some (.acas h m (placeOf f) f.c f.b d))

def decAinc : Option Instr := do
  let h ← hdrOf f
  let m ← atModOf f
  let d ← retOf f
  need (fld f 5 1 == 0) (some (.ainc h m (flg f 4) (placeOf f) f.c f.b d))

def decFence : Option Instr := do
  let h ← hdrOf f
  let o ← fenceOf (fld f 10 2)
  let s ← scopeOf (fld f 7 3)
  need (fld f 0 7 == 0 && zero f.d && zero f.a && zero f.b && zero f.c) (some (.fence h o s))

/-- The timeout register of WAITA: TO in M[0] (R220). -/
def tmoOf : Option (Option Reg) :=
  if flg f 0 then some (some f.c) else if zero f.c then some none else none

def decWaita : Option Instr := do
  let h ← hdrOf f
  let q ← acqOrd (fld f 10 2)
  let s ← scopeOf (fld f 7 3)
  let c ← condOf (fld f 4 2)
  let w ← wideOf (fld f 1 3)
  let t ← tmoOf f
  some (.waita h q s c w (placeOf f) f.d f.b t)

def decWakea : Option Instr := do
  let h ← hdrOf f
  let r ← relOrd (fld f 10 2)
  let s ← scopeOf (fld f 7 3)
  let w ← wideOf (fld f 1 3)
  need (fld f 4 2 == 0 && !flg f 0 && zero f.d && zero f.c) (some (.wakea h r s w (placeOf f) f.b))

def decBcinit : Option Instr := do
  let h ← hdrOf f
  let r ← relOrd (fld f 10 2)
  let s ← scopeOf (fld f 7 3)
  let w ← wideOf (fld f 1 3)
  need (fld f 4 3 == 0 && !flg f 0 && zero f.d) (some (.bcinit h r s w f.a f.b f.c))

def decBcadd : Option Instr := do
  let h ← hdrOf f
  let r ← relOrd (fld f 10 2)
  let s ← scopeOf (fld f 7 3)
  let w ← wideOf (fld f 1 3)
  need (fld f 4 3 == 0 && !flg f 0 && zero f.d) (some (.bcadd h r s w f.a f.b f.c))

/-! Orrery (R257). -/

def decOrdecl : Option Instr := do
  let h ← hdrOf f
  need (f.m == 0 && zero f.d && zero f.b && zero f.c) (some (.ordecl h f.a))

def decOrdrop : Option Instr := do
  let h ← hdrOf f
  need (f.m == 0 && zero f.d && zero f.b && zero f.c) (some (.ordrop h f.a))

def decOrbuild : Option Instr := do
  let h ← hdrOf f
  need (f.m == 0 && zero f.d && zero f.b && zero f.c) (some (.orbuild h f.a))

def decLdrs : Option Instr := do
  let h ← hdrOf f
  let ty ← orTyOf (fld f 0 2)
  need (fld f 2 10 == 0 && zero f.c) (some (.ldrs h ty f.d f.a f.b))

def decLdrm : Option Instr := do
  let h ← hdrOf f
  let ty ← orTyOf (fld f 0 2)
  need (fld f 3 9 == 0 && zero f.c) (some (.ldrm h ty (flg f 2) f.d f.a f.b))

def decLdpfx : Option Instr := do
  let h ← hdrOf f
  let ty ← orTyOf (fld f 0 2)
  need (fld f 2 10 == 0) (some (.ldpfx h ty f.d f.a f.b f.c))

def decLdpick : Option Instr := do
  let h ← hdrOf f
  let ty ← orTyOf (fld f 0 2)
  need (fld f 2 10 == 0) (some (.ldpick h ty f.d f.a f.b f.c))

def decTfence : Option Instr := do
  let h ← hdrOf f
  need (fld f 1 11 == 0 && zero f.d && zero f.b && zero f.c && !(flg f 0 && !zero f.a))
    (some (.tfence h (if flg f 0 then none else some f.a)))

/-! Matrix (R291). -/

/-- A matrix or engine word whose M holds SPM alone. -/
def spmOnly : Bool := fld f 0 6 == 0 && fld f 7 5 == 0

def decTidset : Option Instr := do
  let h ← hdrOf f
  need (spmOnly f && zero f.d && zero f.c) (some (.tidset h (placeOf f) f.b))

def decTidinv : Option Instr := do
  let h ← hdrOf f
  need (fld f 1 11 == 0 && zero f.d && zero f.a && zero f.c && !(flg f 0 && !zero f.b))
    (some (.tidinv h (if flg f 0 then none else some f.b)))

/-- A word of one block address and nothing else. -/
def decBlock (k : Hdr → Place → Instr) : Option Instr := do
  let h ← hdrOf f
  need (spmOnly f && zero f.d && zero f.b && zero f.c) (some (k h (placeOf f)))

/-- A word of one block address that writes a future to D. -/
def decFuture (k : Hdr → Reg → Place → Instr) : Option Instr := do
  let h ← hdrOf f
  need (spmOnly f && zero f.b && zero f.c) (some (k h f.d (placeOf f)))

/-- First column and slot of an accumulator fragment (R298). -/
def fragOk (w8 : Bool) (b c : Reg) : Bool := b.toNat < 8 && c.toNat < 64 && c.toNat % (if w8 then 8 else 4) == 0

def decMaccrd : Option Instr := do
  let h ← hdrOf f
  need (fld f 2 10 == 0 && zero f.a && fragOk (flg f 0) f.b f.c)
    (some (.maccrd h (flg f 0) (flg f 1) f.d (BitVec.ofNat 3 f.b.toNat) (BitVec.ofNat 6 f.c.toNat)))

def decMaccwr : Option Instr := do
  let h ← hdrOf f
  need (fld f 2 10 == 0 && zero f.d && fragOk (flg f 0) f.b f.c)
    (some (.maccwr h (flg f 0) (flg f 1) f.a (BitVec.ofNat 3 f.b.toNat) (BitVec.ofNat 6 f.c.toNat)))

def decMaccz : Option Instr := do
  let h ← hdrOf f
  need (fld f 1 11 == 0 && zero f.d && zero f.a && zero f.c) (some (.maccz h (flg f 0) f.b))

/-! Engines, generation, system (R316, R336, R366). -/

def decHtest : Option Instr := do
  let h ← hdrOf f
  need (f.m == 0 && zero f.b && zero f.c) (some (.htest h f.d f.a))

def decHwait : Option Instr := do
  let h ← hdrOf f
  need (f.m == 0 && zero f.b && zero f.c) (some (.hwait h f.d f.a))

def decHcancel : Option Instr := do
  let h ← hdrOf f
  need (f.m == 0 && zero f.d && zero f.b && zero f.c) (some (.hcancel h f.a))

def decVpub : Option Instr := do
  let h ← hdrOf f
  need (f.m == 0 && zero f.b && zero f.c) (some (.vpub h f.d f.a))

def decVpin : Option Instr := do
  let h ← hdrOf f
  need (f.m == 0 && zero f.d && zero f.c) (some (.vpin h f.a f.b))

def decVret : Option Instr := do
  let h ← hdrOf f
  need (f.m == 0 && zero f.d && zero f.b && zero f.c) (some (.vret h f.a))

def decTokrec : Option Instr := do
  let h ← hdrOf f
  need (f.m == 0 && zero f.d) (some (.tokrec h f.a f.b f.c))

def decSmask : Option Instr := do
  let h ← hdrOf f
  need (f.m == 0) (some (.smask h f.d f.a f.b f.c))

def decUlcall : Option Instr := do
  let h ← hdrOf f
  need (f.m == 0 && zero f.c) (some (.ulcall h f.d f.a f.b))

def decSlotrd : Option Instr := do
  let h ← hdrOf f
  need (fld f 1 11 == 0 && zero f.c && f.b.toNat ≤ 4) (some (.slotrd h (flg f 0) f.d f.a (BitVec.ofNat 3 f.b.toNat)))

def decSlotset : Option Instr := do
  let h ← hdrOf f
  need (f.m == 0 && zero f.d && zero f.c) (some (.slotset h f.a f.b))

def decTrap : Option Instr := do
  let h ← hdrOf f
  need (fld f 8 4 == 0 && zero f.d && zero f.a && zero f.b && zero f.c) (some (.trap h (BitVec.ofNat 8 (fld f 0 8))))

def decTret : Option Instr :=
  need (noGuard f && fld f 1 11 == 0 && zero f.d && zero f.a && zero f.b && zero f.c) (some (.tret f.mark (flg f 0)))

def decCread : Option Instr := do
  let h ← hdrOf f
  let r ← ctlOf (fld f 0 5)
  need (fld f 5 7 == 0 && zero f.a && zero f.b && zero f.c) (some (.cread h f.d r))

def decCwrite : Option Instr := do
  let h ← hdrOf f
  let r ← ctlOf (fld f 0 5)
  need (fld f 5 7 == 0 && zero f.d && zero f.b && zero f.c) (some (.cwrite h f.a r))

def decTsave : Option Instr :=
  need (noGuard f && f.m == 0 && zero f.b && zero f.c) (some (.tsave f.mark f.d f.a))

def decTload : Option Instr :=
  need (noGuard f && f.m == 0 && zero f.d && zero f.b && zero f.c) (some (.tload f.mark f.a))

def decTlbinv : Option Instr := do
  let h ← hdrOf f
  need (fld f 1 11 == 0 && zero f.d && zero f.b && zero f.c && !(flg f 0 && !zero f.a))
    (some (.tlbinv h (if flg f 0 then none else some f.a)))

/-! ## The grid of R46, row by row -/

def row0 : Option Instr :=
  match f.op.toNat with
  | 0x01 => decNop f | 0x02 => decIadd f | 0x03 => decImul f | 0x04 => decImad f | 0x05 => decIdiv f
  | 0x06 => decImnx f | 0x07 => decIabs f | 0x08 => decIcmp f | 0x09 => decSel f | 0x0A => decLtab f
  | 0x0B => decShf f | 0x0C => decBfx f | 0x0D => decBfi f | 0x0E => decBitc f | 0x0F => decBperm f
  | _ => none

def row1 : Option Instr :=
  match f.op.toNat with
  | 0x10 => decIaddw f | 0x11 => decShfw f | 0x12 => decIcmpw f | 0x13 => decLea f | 0x14 => decMov f
  | 0x15 => decMovi f | 0x16 => decIdot f | 0x17 => decCvti f | 0x18 => decSread f
  | _ => none

def row2 : Option Instr :=
  match f.op.toNat with
  | 0x20 => decFadd f | 0x21 => decFmul f | 0x22 => decFfma f | 0x23 => decFmnx f | 0x24 => decFcmp f
  | 0x25 => decFclass f | 0x26 => decFsfu f | 0x27 => decFdiv f | 0x28 => decFrint f | 0x29 => decFscale f
  | 0x2A => decCvtf f | 0x2B => decCvtfi f | 0x2C => decCvtif f | 0x2D => decPaddh f | 0x2E => decPmulh f
  | 0x2F => decPfmah f
  | _ => none

def row3 : Option Instr :=
  match f.op.toNat with
  | 0x30 => decPmnxh f | 0x31 => decFdot2 f | 0x32 => decFquant f | 0x33 => decFdeq f | 0x34 => decFexpd f
  | 0x35 => decFlse f | 0x36 => decFtwosum f
  | _ => none

def row4 : Option Instr :=
  match f.op.toNat with
  | 0x40 => decBra f | 0x41 => decBrx f | 0x42 => decCall f | 0x43 => decCallx f | 0x44 => decRet f
  | 0x45 => decExit f | 0x46 => decVote f | 0x47 => decShfl f | 0x48 => decWred f | 0x49 => decWscan f
  | 0x4A => decMatch f | 0x4B => decElect f | 0x4C => decWsync f | 0x4D => decPlain f (.yieldl f.mark)
  | 0x4E => decBrkpt f
  | _ => none

def row5 : Option Instr :=
  match f.op.toNat with
  | 0x50 => decFreeze f | 0x51 => decPlain f (.tnest f.mark) | 0x52 => decTsignal f | 0x53 => decRgrow f
  | 0x54 => decRshrink f | 0x55 => decGbar f | 0x56 => decPlain f (.gangbar f.mark) | 0x57 => decGarrive f
  | 0x58 => decGwait f | 0x59 => decLaunch f | 0x5A => decPlain f (.yield f.mark) | 0x5B => decSleep f
  | _ => none

def row6 : Option Instr :=
  match f.op.toNat with
  | 0x60 => decQpush f | 0x61 => decQpop f | 0x62 => decQclose f | 0x63 => decNodesig f | 0x68 => decLd f
  | 0x69 => decSt f | 0x6A => decLds f | 0x6B => decSts f | 0x6C => decPref f | 0x6D => decZfill f
  | 0x6E => decCflush f | 0x6F => decTaddr f
  | _ => none

def row7 : Option Instr :=
  match f.op.toNat with
  | 0x70 => decMapq f | 0x78 => decAadd f | 0x79 => decAmnx f | 0x7A => decAlog f | 0x7B => decAxch f
  | 0x7C => decAcas f | 0x7D => decAinc f | 0x7E => decFence f | 0x7F => decWaita f
  | _ => none

def row8 : Option Instr :=
  match f.op.toNat with
  | 0x80 => decWakea f | 0x81 => decBcinit f | 0x82 => decBcadd f | 0x88 => decOrdecl f | 0x89 => decOrdrop f
  | 0x8A => decLdrs f | 0x8B => decLdrm f | 0x8C => decLdpfx f | 0x8D => decLdpick f | 0x8E => decTfence f
  | 0x8F => decOrbuild f
  | _ => none

def row9 : Option Instr :=
  match f.op.toNat with
  | 0x90 => decTidset f | 0x91 => decTidinv f | 0x92 => decBlock f .mbload | 0x93 => decFuture f .mmul
  | 0x94 => decMaccrd f | 0x95 => decMaccwr f | 0x96 => decMaccz f | 0x97 => decBlock f .mtrans
  | 0x98 => decBlock f .mperm | 0x99 => decBlock f .mrsum | 0x9A => decBlock f .mepi
  | _ => none

def rowA : Option Instr :=
  match f.op.toNat with
  | 0xA0 => decFuture f .bcopy | 0xA1 => decFuture f .gather | 0xA2 => decFuture f .scatter
  | 0xA3 => decFuture f .xcopy | 0xA4 => decHtest f | 0xA5 => decHwait f | 0xA6 => decHcancel f
  | 0xA8 => decVpub f | 0xA9 => decVpin f | 0xAA => decVret f | 0xAB => decTokrec f | 0xAC => decSmask f
  | 0xAD => decUlcall f | 0xAE => decSlotrd f | 0xAF => decSlotset f
  | _ => none

def rowB : Option Instr :=
  match f.op.toNat with
  | 0xB0 => decTrap f | 0xB1 => decTret f | 0xB2 => decCread f | 0xB3 => decCwrite f | 0xB4 => decTsave f
  | 0xB5 => decTload f | 0xB6 => decTlbinv f | 0xB7 => decPlain f (.idle f.mark)
  | _ => none

/-- The full format without the checks that R48 places after RSVD. -/
def decodeShape : Option Instr :=
  match f.op.toNat / 16 with
  | 0 => row0 f | 1 => row1 f | 2 => row2 f | 3 => row3 f | 4 => row4 f | 5 => row5 f
  | 6 => row6 f | 7 => row7 f | 8 => row8 f | 9 => row9 f | 10 => rowA f | 11 => rowB f
  | _ => none

/-- Whether the word has a SCOPE field in M[9:7] (R33, R209, R218, R220, R224). -/
def hasScope : Bool :=
  let o := f.op.toNat
  (0x68 ≤ o && o ≤ 0x6B) || o == 0x6D || (0x78 ≤ o && o ≤ 0x82)

/-- A full-format word with OP ≠ 0, its faults in the order of R48. -/
def decodeFull : Except Reject Instr :=
  match decodeShape f with
  | none => .error .rsvd
  | some i => if hasScope f && fld f 7 3 == 7 then .error .scope else if aligned i then .ok i else .error .notAlignedPair

end

/-! ## The paired format (R36 to R39) -/

def regHalfOf (n : Nat) : Option RegHalf :=
  [.iadd, .isub, .imul, .minS, .maxS, .minZ, .maxZ, .cmpEq, .cmpNe, .ltS, .leS, .ltZ, .leZ, .and, .or, .xor, .andn,
   .mov, .fadd, .fmul, .fmin, .fmax, .fcmpEq, .fcmpLt, .fcmpLe, .fcmpNe, .paddh, .pmulh, .f16f32, .bf16f32, .f32f16,
   .f32bf16][n]?

def immHalfOf (n : Nat) : Option ImmHalf :=
  [.iadd, .imul, .minS, .maxS, .cmpEq, .cmpNe, .ltS, .gtS, .and, .or, .xor, .andn, .shl, .shr, .sar, .rotl, .movi8][n]?

/-- A half from its code and fields. Code 0 is refused by `pairOf` before; a code outside R39 is refused here. -/
def halfOf (op : Nat) (d a i : BitVec 8) : Option Half :=
  if op < 0x40 then (regHalfOf (op - 1)).map fun o => .reg o d a
  else (immHalfOf (op - 0x40)).map fun o => .imm o d a i

/-- Whether the field a half does not use is zero: i of the register form, a of MOVI8 (R38). -/
def strayOk (op : Nat) (a i : BitVec 8) : Bool :=
  if op < 0x40 then i == 0 else !(op == 0x50 && a != 0)

/-- A paired word from the fields of its halves: an unassigned code is RSVD, which comes before ILLPAIR (R48). -/
def pairOf (mark : Bool) (xo : Nat) (xd xa xi : BitVec 8) (yo : Nat) (yd ya yi : BitVec 8) : Except Reject Instr :=
  let x := if xo = 0 then some (Half.imm .movi8 xd 0 0) else halfOf xo xd xa xi
  let y := if yo = 0 then some (Half.imm .movi8 yd 0 0) else halfOf yo yd ya yi
  match x, y with
  | some x, some y =>
    if xo == 0 || yo == 0 || !strayOk xo xa xi || !strayOk yo ya yi || !pairLegal x y then .error .illpair
    else .ok (.pairedWord mark x y)
  | _, _ => .error .rsvd

/-! ## From the 64 bits -/

/-- Bits [lo+n−1:lo] of a word as a number. -/
def wbits (w : DWord) (lo n : Nat) : Nat := w.toNat / 2 ^ lo % 2 ^ n

/-- The byte at bits [lo+7:lo]. -/
def wbyte (w : DWord) (lo : Nat) : BitVec 8 := BitVec.ofNat 8 (wbits w lo 8)

/-- The fields of a full-format word (R26). -/
def unpack (w : DWord) : Full where
  mark := wbits w 63 1 == 1
  op := wbyte w 54
  d := wbyte w 46
  a := wbyte w 38
  b := wbyte w 30
  c := wbyte w 22
  g := wbyte w 14
  gn := wbits w 13 1 == 1
  ge := wbits w 12 1 == 1
  m := BitVec.ofNat 12 (wbits w 0 12)

/-- The decoder (R25 to R48): total on every 64-bit word. -/
def decode (w : DWord) : Except Reject Instr :=
  if wbits w 62 1 = 1 then
    pairOf (wbits w 63 1 == 1) (wbits w 55 7) (wbyte w 47) (wbyte w 39) (wbyte w 31)
      (wbits w 24 7) (wbyte w 16) (wbyte w 8) (wbyte w 0)
  else if wbits w 54 8 = 0 then .ok (.illegal (BitVec.ofNat 54 (wbits w 0 54)) (wbits w 63 1 == 1))
  else decodeFull (unpack w)

/-- The instruction of an opcode-table word of `nbits` bits: the word is one 64-bit word, little-endian in memory, and
every bit above `nbits` is 0. -/
def decodeTableWord (nbits w : Nat) : Option Instr :=
  match decode (BitVec.ofNat 64 (w % 2 ^ nbits)) with
  | .ok i => some i
  | .error _ => none

/-! ## The encoder

Written from the same tables of the spec; `encode` of a happening is the all-zeros word and means nothing. -/

def bit (b : Bool) (k : Nat) : Nat := if b then 2 ^ k else 0

def AddOp.code : AddOp → Nat
  | .add => 0 | .sub => 1 | .satS => 2 | .subSatS => 3 | .satZ => 4 | .subSatZ => 5 | .co => 6 | .subBo => 7
  | .ci => 8 | .cico => 9 | .subBi => 10 | .subBibo => 11
def MulOp.code : MulOp → Nat
  | .lo => 0 | .hiS => 1 | .hiZ => 2 | .wideS => 3 | .wideZ => 4
def MadOp.code : MadOp → Nat
  | .lo => 0 | .wideS => 1 | .wideZ => 2
def DivOp.code : DivOp → Nat
  | .quoS => 0 | .quoZ => 1 | .remS => 2 | .remZ => 3
def MnxOp.code : MnxOp → Nat
  | .minS => 0 | .maxS => 1 | .minZ => 2 | .maxZ => 3
def AbsOp.code : AbsOp → Nat
  | .abs => 0 | .absSat => 1 | .neg => 2 | .negSat => 3
def Rel.code : Rel → Nat
  | .eq => 0 | .ne => 1 | .lt => 2 | .le => 3 | .gt => 4 | .ge => 5
def ShfOp.code : ShfOp → Nat
  | .l => 0 | .r => 1 | .a => 2 | .rotl => 3 | .fl => 4 | .fr => 5
def ShwOp.code : ShwOp → Nat
  | .l => 0 | .r => 1 | .a => 2
def BitOp.code : BitOp → Nat
  | .popc => 0 | .clz => 1 | .ctz => 2 | .brev => 3
def AdwOp.code : AdwOp → Nat
  | .add => 0 | .sub => 1 | .z32 => 2 | .s32 => 3
def MovW.code : MovW → Nat
  | .w32 => 0 | .w64 => 1 | .w128 => 2
def CvtI.code : CvtI → Nat
  | .s32s8 => 0 | .z32z8 => 1 | .s32s16 => 2 | .z32z16 => 3 | .s8s32 => 4 | .z8s32 => 5 | .s16s32 => 6 | .z16s32 => 7
  | .z8z32 => 8 | .z16z32 => 9 | .s64s32 => 10 | .z64z32 => 11 | .s32s64 => 12 | .z32s64 => 13 | .z32z64 => 14
  | .s32z32 => 15 | .z32s32 => 16
def SysVal.code : SysVal → Nat
  | .lane => 0 | .warp => 1 | .group => 2 | .gang => 3 | .inst => 4 | .node => 5 | .iter => 6 | .slot => 7 | .core => 8
  | .cluster => 9 | .die => 10 | .clock => 11 | .version => 12
def Rnd.code : Rnd → Nat
  | .rn => 0 | .rz => 1 | .ru => 2 | .rd => 3
def FRel.code : FRel → Nat
  | .eq => 0 | .ne => 1 | .lt => 2 | .le => 3 | .gt => 4 | .ge => 5 | .un => 6
def Fmt.code : Fmt → Nat
  | .f32 => 0 | .f16 => 1 | .bf16 => 2
def SfuOp.code : SfuOp → Nat
  | .rcp => 0 | .rsq => 1 | .sqrt => 2 | .ex2 => 3 | .lg2 => 4 | .sin => 5 | .cos => 6 | .tanh => 7
def CvtF.code : CvtF → Nat
  | .f16f32 => 0 | .bf16f32 => 1 | .f32f16 => 2 | .f32bf16 => 3 | .bf16f16 => 4 | .f16bf16 => 5 | .st8f32 => 6
  | .st6f32 => 7 | .f32st8 => 8 | .f32st6 => 9
def IntTy.code : IntTy → Nat
  | .s32 => 0 | .z32 => 1 | .s64 => 2 | .z64 => 3
def QFmt.code : QFmt → Nat
  | .hs8 => 0 | .hs4 => 1 | .st8 => 2 | .st6 => 3
def VoteOp.code : VoteOp → Nat
  | .every => 0 | .some => 1 | .same => 2 | .mask => 3 | .count => 4
def ShflOp.code : ShflOp → Nat
  | .lane => 0 | .below => 1 | .above => 2 | .xor => 3
def RedOp.code : RedOp → Nat
  | .add => 0 | .minS => 1 | .maxS => 2 | .minZ => 3 | .maxZ => 4 | .and => 5 | .or => 6 | .xor => 7 | .fadd => 8
  | .fmin => 9 | .fmax => 10
def MatchOp.code : MatchOp → Nat
  | .peers => 0 | .uniform => 2 | .lead => 4
def MOrd.code : MOrd → Nat
  | .plain => 0 | .acq => 1 | .rel => 2 | .seq => 3
def Scope.code : Scope → Nat
  | .thr => 0 | .wrp => 1 | .grp => 2 | .clu => 3 | .die => 4 | .dev => 5 | .sys => 6
def MSize.code : MSize → Nat
  | .b8 => 0 | .b16 => 1 | .b32 => 2 | .b64 => 3 | .b128 => 4
def FlushOp.code : FlushOp → Nat
  | .wb => 0 | .inv => 1 | .disc => 2
def AaddOp.code : AaddOp → Nat
  | .int => 0 | .f32 => 1 | .f16x2 => 2 | .bf16x2 => 3
def LogOp.code : LogOp → Nat
  | .and => 0 | .or => 1 | .xor => 2
def WaitCond.code : WaitCond → Nat
  | .eq => 0 | .ne => 1 | .leS => 2 | .geZ => 3
def OrTy.code : OrTy → Nat
  | .f32 => 0 | .s32 => 1 | .s64 => 2
def FenceOrd.code : FenceOrd → Nat
  | .acq => 1 | .rel => 2 | .seq => 3
def CtlReg.code : CtlReg → Nat
  | .feature => 0 | .trapvec => 1 | .trapframe => 2 | .ctxid => 3 | .split => 4 | .fixed => 5 | .clockdiv => 6
  | .version => 7 | .vpin => 8 | .tidbase => 9 | .ordesc => 10 | .preempt => 11 | .dbg => 12
  | .perf n => 16 + n.toNat
def RegHalf.code : RegHalf → Nat
  | .iadd => 0x01 | .isub => 0x02 | .imul => 0x03 | .minS => 0x04 | .maxS => 0x05 | .minZ => 0x06 | .maxZ => 0x07
  | .cmpEq => 0x08 | .cmpNe => 0x09 | .ltS => 0x0A | .leS => 0x0B | .ltZ => 0x0C | .leZ => 0x0D | .and => 0x0E
  | .or => 0x0F | .xor => 0x10 | .andn => 0x11 | .mov => 0x12 | .fadd => 0x13 | .fmul => 0x14 | .fmin => 0x15
  | .fmax => 0x16 | .fcmpEq => 0x17 | .fcmpLt => 0x18 | .fcmpLe => 0x19 | .fcmpNe => 0x1A | .paddh => 0x1B
  | .pmulh => 0x1C | .f16f32 => 0x1D | .bf16f32 => 0x1E | .f32f16 => 0x1F | .f32bf16 => 0x20
def ImmHalf.code : ImmHalf → Nat
  | .iadd => 0x40 | .imul => 0x41 | .minS => 0x42 | .maxS => 0x43 | .cmpEq => 0x44 | .cmpNe => 0x45 | .ltS => 0x46
  | .gtS => 0x47 | .and => 0x48 | .or => 0x49 | .xor => 0x4A | .andn => 0x4B | .shl => 0x4C | .shr => 0x4D
  | .sar => 0x4E | .rotl => 0x4F | .movi8 => 0x50

/-- SIZE of an atomic, wait or byte-count word. -/
def wideCode (w : Bool) : Nat := if w then 3 else 2

/-- The fields of a word with header h: its opcode, operand fields and M. -/
def fullOf (h : Hdr) (op : Nat) (d a b c : Reg) (m : Nat) : Full where
  mark := h.mark
  op := BitVec.ofNat 8 op
  d := d
  a := a
  b := b
  c := c
  g := match h.guard with | some g => g.reg | none => 0
  gn := match h.guard with | some g => g.neg | none => false
  ge := h.guard.isSome
  m := BitVec.ofNat 12 m

/-- The fields of an unguardable word. -/
def bareOf (mark : Bool) (op : Nat) (d a b c : Reg) (m : Nat) : Full :=
  fullOf { mark := mark, guard := none } op d a b c m

/-- A number as the contents of a register field. -/
def fieldNat (n : Nat) : Reg := BitVec.ofNat 8 n

/-- A word of a family with an I20 form (R30). -/
def srcOf (h : Hdr) (op : Nat) (d a : Reg) (b : Src) (c : Reg) (m : Nat) : Full :=
  match b with
  | .reg r => fullOf h op d a r c m
  | .imm i => fullOf h op d a 0xFF (fieldNat (i.toNat / 4096)) (i.toNat % 4096)

/-- A compare (R59). -/
def cmpOf (h : Hdr) (op : Nat) (rel : Rel) (u : Bool) (d a : Reg) (b : Cmp2) : Full :=
  match b with
  | .reg r => fullOf h op d a r 0 (rel.code + bit u 3)
  | .imm i => fullOf h op d a 0 i (rel.code + bit u 3 + 16)

/-- A bit-field word (R63); `sx` is 1 for the sign-extending form. -/
def bitFieldOf (h : Hdr) (op : Nat) (d a : Reg) (f : Field) (c : Reg) (sx : Nat) : Full :=
  match f with
  | .reg r => fullOf h op d a r c sx
  | .imm pos len => fullOf h op d a (fieldNat pos.toNat) c (sx + 2 + len.toNat * 64)

/-- RND and FTZ (R73). -/
def fp (r : Rnd) (z : Bool) : Nat := r.code + bit z 2

/-- The mask operand in C with MK in M[11] (R108). -/
def laneOf (h : Hdr) (op : Nat) (d a b : Reg) (mask : Option Reg) (m : Nat) : Full :=
  match mask with
  | some c => fullOf h op d a b c (m + 2048)
  | none => fullOf h op d a b 0 m

/-- M of LD, ST, LDS and STS (R33). -/
def MemMod.code (m : MemMod) : Nat :=
  bit m.sx 0 + m.size.code * 2 + m.pol.toNat * 16 + m.scope.code * 128 + m.ord.code * 1024

/-- The register and the SPM bit of a place. -/
def Place.field : Place → Reg
  | .mem d => d
  | .spm v => v
def Place.bit : Place → Nat
  | .mem _ => 0
  | .spm _ => 64

/-- An optional register: its field and its presence bit. -/
def optField : Option Reg → Reg
  | some r => r
  | none => 0
def optBit (r : Option Reg) : Nat := if r.isSome then 1 else 0

/-- An atomic (R209). -/
def atomicOf (h : Hdr) (op : Nat) (m : AtMod) (sel : Nat) (p : Place) (off : BitVec 8) (b : Reg) (d : Option Reg) : Full :=
  fullOf h op (optField d) p.field b off
    (optBit d + wideCode m.wide * 2 + sel * 16 + p.bit + m.scope.code * 128 + m.ord.code * 1024)

/-- ORD of a word that is plain or a release, and of one that is plain or an acquire. -/
def relCode (b : Bool) : Nat := bit b 11
def acqCode (b : Bool) : Nat := bit b 10

/-- A 24-bit offset in A, B and C (R32). -/
def relativeOf (h : Hdr) (op : Nat) (d : Reg) (off : BitVec 24) : Full :=
  fullOf h op d (off.extractLsb' 16 8) (off.extractLsb' 8 8) (off.extractLsb' 0 8) 0

/-- The fields of every word of the full format but ILLEGAL. -/
def encodeFull : Instr → Full
  | .nop h => fullOf h 0x01 0 0 0 0 0
  | .iadd h op d a b c => srcOf h 0x02 d a b c op.code
  | .imul h op d a b => srcOf h 0x03 d a b 0 op.code
  | .imad h op d a b c => fullOf h 0x04 d a b c op.code
  | .idiv h op d a b => fullOf h 0x05 d a b 0 op.code
  | .imnx h op d a b => srcOf h 0x06 d a b 0 op.code
  | .iabs h op d a => fullOf h 0x07 d a 0 0 op.code
  | .icmp h rel u d a b => cmpOf h 0x08 rel u d a b
  | .sel h w d a b c => fullOf h 0x09 d a b c (bit w 0)
  | .ltab h tt d a b c => fullOf h 0x0A d a b c tt.toNat
  | .shf h op cl d a n c => match n with
    | .reg r => fullOf h 0x0B d a r c (op.code + bit cl 3)
    | .imm n => match op with
      | .fl | .fr => fullOf h 0x0B d a n c (op.code + 16)
      | _ => fullOf h 0x0B d a 0 n (op.code + 16)
  | .bfx h sx d a f => bitFieldOf h 0x0C d a f 0 (bit sx 0)
  | .bfi h d a f c => bitFieldOf h 0x0D d a f c 0
  | .bitc h op d a => fullOf h 0x0E d a 0 0 op.code
  | .bperm h d a b c => fullOf h 0x0F d a b c 0
  | .iaddw h op d a b => srcOf h 0x10 d a b 0 op.code
  | .shfw h op cl d a n => match n with
    | .reg r => fullOf h 0x11 d a r 0 (op.code + bit cl 3)
    | .imm n => fullOf h 0x11 d a 0 n (op.code + 16)
  | .icmpw h rel u d a b => cmpOf h 0x12 rel u d a b
  | .lea h sx sh d a b => fullOf h 0x13 d a b 0 (sh.toNat + bit sx 3)
  | .mov h w d a => fullOf h 0x14 d a 0 0 w.code
  | .movi mark d imm =>
    { bareOf mark 0x15 d (imm.extractLsb' 24 8) (imm.extractLsb' 16 8) (imm.extractLsb' 8 8) 0 with
      g := imm.extractLsb' 0 8 }
  | .idot h half sa sb sat d a b c => fullOf h 0x16 d a b c (bit half 0 + bit sa 2 + bit sb 3 + bit sat 4)
  | .cvti h op d a => fullOf h 0x17 d a 0 0 op.code
  | .sread h v d => fullOf h 0x18 d 0 0 0 v.code
  | .fadd h s r z d a b => fullOf h 0x20 d a b 0 (fp r z + bit s 3)
  | .fmul h r z d a b => fullOf h 0x21 d a b 0 (fp r z)
  | .ffma h np nc r z d a b c => fullOf h 0x22 d a b c (fp r z + bit np 3 + bit nc 4)
  | .fmnx h mx d a b => fullOf h 0x23 d a b 0 (bit mx 3)
  | .fcmp h rel z d a b => fullOf h 0x24 d a b 0 (bit z 2 + rel.code * 8)
  | .fclass h t d a => fullOf h 0x25 d a 0 0 (t.code * 8)
  | .fsfu h op z d a => fullOf h 0x26 d a 0 0 (bit z 2 + op.code * 8)
  | .fdiv h r z d a b => fullOf h 0x27 d a b 0 (fp r z)
  | .frint h r z d a => fullOf h 0x28 d a 0 0 (fp r z)
  | .fscale h r z d a b => fullOf h 0x29 d a b 0 (fp r z)
  | .cvtf h op r z d a => fullOf h 0x2A d a 0 0 (fp r z + op.code * 16)
  | .cvtfi h ty t r z d a => fullOf h 0x2B d a 0 0 (fp r z + ty.code * 16 + t.code * 64)
  | .cvtif h ty t r d a => fullOf h 0x2C d a 0 0 (r.code + ty.code * 16 + t.code * 64)
  | .paddh h bf r z d a b => fullOf h 0x2D d a b 0 (fp r z + bit bf 3)
  | .pmulh h bf r z d a b => fullOf h 0x2E d a b 0 (fp r z + bit bf 3)
  | .pfmah h bf r z d a b c => fullOf h 0x2F d a b c (fp r z + bit bf 3)
  | .pmnxh h bf mx d a b => fullOf h 0x30 d a b 0 (bit bf 3 + bit mx 4)
  | .fdot2 h bf r z d a b c => fullOf h 0x31 d a b c (fp r z + bit bf 3)
  | .fquant h t k nf d a b c => fullOf h 0x32 d a b c (t.code * 16 + k.toNat * 64 + bit nf 9)
  | .fdeq h t k r z d a b => fullOf h 0x33 d a b 0 (fp r z + t.code * 16 + k.toNat * 64)
  | .fexpd h z d a b => fullOf h 0x34 d a b 0 (bit z 2)
  | .flse h d a b => fullOf h 0x35 d a b 0 0
  | .ftwosum h d a b => fullOf h 0x36 d a b 0 0
  | .bra h off => relativeOf h 0x40 0 off
  | .brx h a => fullOf h 0x41 0 a 0 0 0
  | .call h d off => relativeOf h 0x42 d off
  | .callx h d a => fullOf h 0x43 d a 0 0 0
  | .ret h a => fullOf h 0x44 0 a 0 0 0
  | .exit h => fullOf h 0x45 0 0 0 0 0
  | .vote h op d a m => laneOf h 0x46 d a 0 m op.code
  | .shfl h op wr w d a n m =>
    match n with
    | .reg r => laneOf h 0x47 d a r m (op.code + bit w 3 + bit wr 4)
    | .imm n => laneOf h 0x47 d a n m (op.code + 4 + bit w 3 + bit wr 4)
  | .wred h op d a m => laneOf h 0x48 d a 0 m op.code
  | .wscan h op ex d a m => laneOf h 0x49 d a 0 m (op.code + bit ex 4)
  | .matchw h op w d a m => laneOf h 0x4A d a 0 m (op.code + bit w 0)
  | .elect h d m => laneOf h 0x4B d 0 0 m 0
  | .wsync h m => laneOf h 0x4C 0 0 0 m 0
  | .yieldl mark => bareOf mark 0x4D 0 0 0 0 0
  | .brkpt h k => fullOf h 0x4E 0 0 0 0 k.toNat
  | .freeze mark a => bareOf mark 0x50 0 a 0 0 0
  | .tnest mark => bareOf mark 0x51 0 0 0 0 0
  | .tsignal mark a => bareOf mark 0x52 0 a 0 0 0
  | .rgrow mark n => bareOf mark 0x53 0 0 (fieldNat n.toNat) 0 0
  | .rshrink mark n => bareOf mark 0x54 0 0 (fieldNat n.toNat) 0 0
  | .gbar mark b => bareOf mark 0x55 0 0 (fieldNat b.toNat) 0 0
  | .gangbar mark => bareOf mark 0x56 0 0 0 0 0
  | .garrive mark d b => bareOf mark 0x57 d 0 (fieldNat b.toNat) 0 0
  | .gwait h a b => fullOf h 0x58 0 a (fieldNat b.toNat) 0 0
  | .launch h d a => fullOf h 0x59 d a 0 0 0
  | .yield mark => bareOf mark 0x5A 0 0 0 0 0
  | .sleep h a => fullOf h 0x5B 0 a 0 0 0
  | .qpush h w q a => fullOf h 0x60 0 a q 0 w.code
  | .qpop h w q d c => fullOf h 0x61 d 0 q c w.code
  | .qclose h q => fullOf h 0x62 0 0 q 0 0
  | .nodesig h e => fullOf h 0x63 0 0 (fieldNat e.toNat) 0 0
  | .ld h m d a off => fullOf h 0x68 d a 0 off m.code
  | .st h m d a off => fullOf h 0x69 d a 0 off m.code
  | .lds h m d a off => fullOf h 0x6A d a 0 off m.code
  | .sts h m d a off => fullOf h 0x6B d a 0 off m.code
  | .pref h pol l2 a off => fullOf h 0x6C 0 a 0 off (bit l2 0 + pol.toNat * 16)
  | .zfill h rel s a off => fullOf h 0x6D 0 a 0 off (s.code * 128 + relCode rel)
  | .cflush h op mem a off => fullOf h 0x6E 0 a 0 off (op.code + bit mem 2)
  | .taddr h chk d a b => fullOf h 0x6F d a b 0 (bit chk 0)
  | .mapq h fill d a => fullOf h 0x70 d a 0 0 (bit fill 0)
  | .aadd h m op p off b d => atomicOf h 0x78 m op.code p off b d
  | .amnx h m op p off b d => atomicOf h 0x79 m op.code p off b d
  | .alog h m op p off b d => atomicOf h 0x7A m op.code p off b d
  | .axch h m p off b d => atomicOf h 0x7B m 0 p off b d
  | .acas h m p off b d => atomicOf h 0x7C m 0 p off b d
  | .ainc h m dec p off b d => atomicOf h 0x7D m (bit dec 0) p off b d
  | .fence h o s => fullOf h 0x7E 0 0 0 0 (s.code * 128 + o.code * 1024)
  | .waita h q s c w p d b t =>
    fullOf h 0x7F d p.field b (optField t) (optBit t + wideCode w * 2 + c.code * 16 + p.bit + s.code * 128 + acqCode q)
  | .wakea h r s w p b => fullOf h 0x80 0 p.field b 0 (wideCode w * 2 + p.bit + s.code * 128 + relCode r)
  | .bcinit h r s w a b off => fullOf h 0x81 0 a b off (wideCode w * 2 + s.code * 128 + relCode r)
  | .bcadd h r s w a b off => fullOf h 0x82 0 a b off (wideCode w * 2 + s.code * 128 + relCode r)
  | .ordecl h a => fullOf h 0x88 0 a 0 0 0
  | .ordrop h a => fullOf h 0x89 0 a 0 0 0
  | .ldrs h ty d a b => fullOf h 0x8A d a b 0 ty.code
  | .ldrm h ty x d a b => fullOf h 0x8B d a b 0 (ty.code + bit x 2)
  | .ldpfx h ty d a b c => fullOf h 0x8C d a b c ty.code
  | .ldpick h ty d a b c => fullOf h 0x8D d a b c ty.code
  | .tfence h a => fullOf h 0x8E 0 (optField a) 0 0 (1 - optBit a)
  | .orbuild h a => fullOf h 0x8F 0 a 0 0 0
  | .tidset h p b => fullOf h 0x90 0 p.field b 0 p.bit
  | .tidinv h b => fullOf h 0x91 0 0 (optField b) 0 (1 - optBit b)
  | .mbload h p => fullOf h 0x92 0 p.field 0 0 p.bit
  | .mmul h d p => fullOf h 0x93 d p.field 0 0 p.bit
  | .maccrd h w pr d sl col => fullOf h 0x94 d 0 (fieldNat sl.toNat) (fieldNat col.toNat) (bit w 0 + bit pr 1)
  | .maccwr h w pr a sl col => fullOf h 0x95 0 a (fieldNat sl.toNat) (fieldNat col.toNat) (bit w 0 + bit pr 1)
  | .maccz h fr sl => fullOf h 0x96 0 0 sl 0 (bit fr 0)
  | .mtrans h p => fullOf h 0x97 0 p.field 0 0 p.bit
  | .mperm h p => fullOf h 0x98 0 p.field 0 0 p.bit
  | .mrsum h p => fullOf h 0x99 0 p.field 0 0 p.bit
  | .mepi h p => fullOf h 0x9A 0 p.field 0 0 p.bit
  | .bcopy h d p => fullOf h 0xA0 d p.field 0 0 p.bit
  | .gather h d p => fullOf h 0xA1 d p.field 0 0 p.bit
  | .scatter h d p => fullOf h 0xA2 d p.field 0 0 p.bit
  | .xcopy h d p => fullOf h 0xA3 d p.field 0 0 p.bit
  | .htest h d a => fullOf h 0xA4 d a 0 0 0
  | .hwait h d a => fullOf h 0xA5 d a 0 0 0
  | .hcancel h a => fullOf h 0xA6 0 a 0 0 0
  | .vpub h d a => fullOf h 0xA8 d a 0 0 0
  | .vpin h a b => fullOf h 0xA9 0 a b 0 0
  | .vret h a => fullOf h 0xAA 0 a 0 0 0
  | .tokrec h a b c => fullOf h 0xAB 0 a b c 0
  | .smask h d a b c => fullOf h 0xAC d a b c 0
  | .ulcall h d a b => fullOf h 0xAD d a b 0 0
  | .slotrd h act d a n => fullOf h 0xAE d a (fieldNat n.toNat) 0 (bit act 0)
  | .slotset h a b => fullOf h 0xAF 0 a b 0 0
  | .trap h k => fullOf h 0xB0 0 0 0 0 k.toNat
  | .tret mark next => bareOf mark 0xB1 0 0 0 0 (bit next 0)
  | .cread h d r => fullOf h 0xB2 d 0 0 0 r.code
  | .cwrite h a r => fullOf h 0xB3 0 a 0 0 r.code
  | .tsave mark d a => bareOf mark 0xB4 d a 0 0 0
  | .tload mark a => bareOf mark 0xB5 0 a 0 0 0
  | .tlbinv h a => fullOf h 0xB6 0 (optField a) 0 0 (1 - optBit a)
  | .idle mark => bareOf mark 0xB7 0 0 0 0 0
  | _ => bareOf false 0 0 0 0 0 0

/-- A bit as a number. -/
def b2n (b : Bool) : Nat := if b then 1 else 0

/-- The word of a full format's fields (R26). -/
def pack (f : Full) : DWord :=
  BitVec.ofNat 64 (b2n f.mark * 2 ^ 63 + f.op.toNat * 2 ^ 54 + f.d.toNat * 2 ^ 46 + f.a.toNat * 2 ^ 38
    + f.b.toNat * 2 ^ 30 + f.c.toNat * 2 ^ 22 + f.g.toNat * 2 ^ 14 + b2n f.gn * 2 ^ 13 + b2n f.ge * 2 ^ 12 + f.m.toNat)

/-- The 31 bits of a half (R36). -/
def halfBits : Half → Nat
  | .reg op d a => op.code * 2 ^ 24 + d.toNat * 2 ^ 16 + a.toNat * 2 ^ 8
  | .imm op d a i => op.code * 2 ^ 24 + d.toNat * 2 ^ 16 + a.toNat * 2 ^ 8 + i.toNat

/-- The word of a well-formed instruction. -/
def encode (i : Instr) : DWord :=
  match i with
  | .illegal raw mark => BitVec.ofNat 64 (b2n mark * 2 ^ 63 + raw.toNat)
  | .pairedWord mark x y => BitVec.ofNat 64 (b2n mark * 2 ^ 63 + 2 ^ 62 + halfBits x * 2 ^ 31 + halfBits y)
  | i => pack (encodeFull i)

end Sys2Proof
end

