-- ==== Sys2Proof/Machine/Float.lean ====
section
/-! DEFINITION. The IEEE formats F32, F16 and BF16 (R71 to R73): decoding to exact values, one rounding of an exact
rational, and the arithmetic of R83 to R94 built on them. -/

namespace Sys2Proof.Machine

/-- Fraction bits of a format (R71). -/
def Fmt.frac : Fmt → Nat
  | .f32 => 23 | .f16 => 10 | .bf16 => 7

/-- Exponent bits of a format (R71). -/
def Fmt.expo : Fmt → Nat
  | .f32 => 8 | .f16 => 5 | .bf16 => 8

/-- Width of a format. -/
def Fmt.width (f : Fmt) : Nat := 1 + Fmt.expo f + Fmt.frac f

def Fmt.bias (f : Fmt) : Nat := 2 ^ (Fmt.expo f - 1) - 1

/-- The exponent of the quantum of subnormals. -/
def Fmt.qmin (f : Fmt) : Int := 1 - (Fmt.bias f : Int) - Fmt.frac f

/-- The magnitude bits of infinity. -/
def Fmt.infBits (f : Fmt) : Nat := (2 ^ Fmt.expo f - 1) * 2 ^ Fmt.frac f

def Fmt.signBit (f : Fmt) : Nat := 2 ^ (Fmt.width f - 1)

/-- The canonical NaN (R71). -/
def Fmt.nan (f : Fmt) : Nat := Fmt.infBits f + 2 ^ (Fmt.frac f - 1)

/-- An exact value: (−1)^neg × m × 2^e, an infinity, or a NaN. -/
inductive FVal where
  | nan
  | inf (neg : Bool)
  | fin (neg : Bool) (m : Nat) (e : Int)
  deriving DecidableEq, Repr

/-- Decodes an encoding (R71). -/
def fdecode (f : Fmt) (x : Nat) : FVal :=
  let neg := decide (x / Fmt.signBit f % 2 = 1)
  let mag := x % Fmt.signBit f
  let ex := mag / 2 ^ Fmt.frac f
  let fr := mag % 2 ^ Fmt.frac f
  if mag > Fmt.infBits f then .nan
  else if mag = Fmt.infBits f then .inf neg
  else if ex = 0 then .fin neg fr (Fmt.qmin f)
  else .fin neg (2 ^ Fmt.frac f + fr) (Fmt.qmin f + (ex : Int) - 1)

def isNan (f : Fmt) (x : Nat) : Bool := decide (x % Fmt.signBit f > Fmt.infBits f)

def isSub (f : Fmt) (x : Nat) : Bool :=
  decide (0 < x % Fmt.signBit f) && decide (x % Fmt.signBit f < 2 ^ Fmt.frac f)

/-- Reads or writes a subnormal as zero of its own sign (R73). -/
def flush (f : Fmt) (ftz : Bool) (x : Nat) : Nat :=
  if ftz && isSub f x then x / Fmt.signBit f % 2 * Fmt.signBit f else x

def signed (f : Fmt) (neg : Bool) (mag : Nat) : Nat := if neg then Fmt.signBit f + mag else mag

/-- 2^e as a fraction. -/
def pow2Num (e : Int) : Nat := 2 ^ e.toNat
def pow2Den (e : Int) : Nat := 2 ^ (-e).toNat

/-- floor(log2(num / den)) of a positive fraction. -/
def ilog2 (num den : Nat) : Int :=
  let l : Int := (Nat.log2 num : Int) - Nat.log2 den
  if num * pow2Den l < den * pow2Num l then l - 1 else l

/-- Rounds n + rem/d (0 ≤ rem < d) to an integer in the mode, for a value of the given sign. -/
def roundInt (r : Rnd) (neg : Bool) (n rem d : Nat) : Nat :=
  match r with
  | .rn => if 2 * rem > d ∨ (2 * rem = d ∧ n % 2 = 1) then n + 1 else n
  | .rz => n
  | .ru => if rem > 0 ∧ neg = false then n + 1 else n
  | .rd => if rem > 0 ∧ neg = true then n + 1 else n

/-- Rounds (−1)^neg × num / den into the format, with the overflow of R72. A zero keeps its sign. -/
def fround (f : Fmt) (r : Rnd) (neg : Bool) (num den : Nat) : Nat :=
  if num = 0 then signed f neg 0
  else
    let q := max (ilog2 num den - Fmt.frac f) (Fmt.qmin f)
    let a := num * pow2Den q
    let b := den * pow2Num q
    let n := roundInt r neg (a / b) (a % b) b
    let mag := (q - Fmt.qmin f).toNat * 2 ^ Fmt.frac f + n
    if mag ≥ Fmt.infBits f then
      let toInf := match r with
        | .rn => true
        | .rz => false
        | .ru => !neg
        | .rd => neg
      signed f neg (if toInf then Fmt.infBits f else Fmt.infBits f - 1)
    else signed f neg mag

/-- Rounds an exact dyadic x × 2^e; an exact zero takes the given sign (R72). -/
def froundDy (f : Fmt) (r : Rnd) (x e : Int) (zeroNeg : Bool) : Nat :=
  if x = 0 then signed f zeroNeg 0
  else fround f r (decide (x < 0)) (x.natAbs * pow2Num e) (pow2Den e)

/-- Rounds an exact value into a format: a conversion. -/
def froundVal (f : Fmt) (r : Rnd) : FVal → Nat
  | .nan => Fmt.nan f
  | .inf n => signed f n (Fmt.infBits f)
  | .fin n m e => fround f r n (m * pow2Num e) (pow2Den e)

def sgnInt (neg : Bool) (m : Nat) : Int := if neg then -(m : Int) else m

/-- The exact sum of two dyadics: (x, e). -/
def dyAdd (x : Int) (ex : Int) (y : Int) (ey : Int) : Int × Int :=
  let e := min ex ey
  (x * 2 ^ (ex - e).toNat + y * 2 ^ (ey - e).toNat, e)

/-- The sign of an exact zero sum (R72). -/
def zeroSign (r : Rnd) (n1 n2 : Bool) : Bool :=
  if n1 = n2 then n1 else match r with
    | .rd => true
    | _ => false

def fneg : FVal → FVal
  | .nan => .nan
  | .inf n => .inf (!n)
  | .fin n m e => .fin (!n) m e

/-- RN(a + b) in the mode (R83). -/
def addVal (f : Fmt) (r : Rnd) : FVal → FVal → Nat
  | .nan, _ => Fmt.nan f
  | _, .nan => Fmt.nan f
  | .inf n, .inf m => if n = m then signed f n (Fmt.infBits f) else Fmt.nan f
  | .inf n, .fin _ _ _ => signed f n (Fmt.infBits f)
  | .fin _ _ _, .inf n => signed f n (Fmt.infBits f)
  | .fin n1 m1 e1, .fin n2 m2 e2 =>
    let s := dyAdd (sgnInt n1 m1) e1 (sgnInt n2 m2) e2
    let zs := if m1 = 0 ∧ m2 = 0 then zeroSign r n1 n2 else zeroSign r false true
    froundDy f r s.1 s.2 zs

/-- The exact product. -/
def mulExact : FVal → FVal → FVal
  | .nan, _ => .nan
  | _, .nan => .nan
  | .inf n, .inf m => .inf (n != m)
  | .inf n, .fin m x _ => if x = 0 then .nan else .inf (n != m)
  | .fin m x _, .inf n => if x = 0 then .nan else .inf (n != m)
  | .fin n1 m1 e1, .fin n2 m2 e2 => .fin (n1 != n2) (m1 * m2) (e1 + e2)

def divVal (f : Fmt) (r : Rnd) : FVal → FVal → Nat
  | .nan, _ => Fmt.nan f
  | _, .nan => Fmt.nan f
  | .inf _, .inf _ => Fmt.nan f
  | .inf n, .fin m _ _ => signed f (n != m) (Fmt.infBits f)
  | .fin n _ _, .inf m => signed f (n != m) 0
  | .fin n1 m1 e1, .fin n2 m2 e2 =>
    if m2 = 0 then (if m1 = 0 then Fmt.nan f else signed f (n1 != n2) (Fmt.infBits f))
    else fround f r (n1 != n2) (m1 * pow2Num (e1 - e2)) (m2 * pow2Den (e1 - e2))

/-- a + b. -/
def fadd (f : Fmt) (r : Rnd) (ftz : Bool) (a b : Nat) : Nat :=
  flush f ftz (addVal f r (fdecode f (flush f ftz a)) (fdecode f (flush f ftz b)))

/-- a − b. -/
def fsub (f : Fmt) (r : Rnd) (ftz : Bool) (a b : Nat) : Nat :=
  flush f ftz (addVal f r (fdecode f (flush f ftz a)) (fneg (fdecode f (flush f ftz b))))

/-- a × b. -/
def fmul (f : Fmt) (r : Rnd) (ftz : Bool) (a b : Nat) : Nat :=
  flush f ftz (froundVal f r (mulExact (fdecode f (flush f ftz a)) (fdecode f (flush f ftz b))))

/-- ±(a × b) ± c with one rounding. -/
def ffma (f : Fmt) (r : Rnd) (ftz np nc : Bool) (a b c : Nat) : Nat :=
  let p := mulExact (fdecode f (flush f ftz a)) (fdecode f (flush f ftz b))
  let z := fdecode f (flush f ftz c)
  flush f ftz (addVal f r (if np then fneg p else p) (if nc then fneg z else z))

def fdiv (f : Fmt) (r : Rnd) (ftz : Bool) (a b : Nat) : Nat :=
  flush f ftz (divVal f r (fdecode f (flush f ftz a)) (fdecode f (flush f ftz b)))

/-- A key by which non-NaN encodings order as their values, −0 below +0 (R84). -/
def fkey (f : Fmt) (x : Nat) : Int :=
  if x / Fmt.signBit f % 2 = 1 then -((x % Fmt.signBit f : Nat) : Int) - 1 else ((x % Fmt.signBit f : Nat) : Int)

/-- Minimum or maximum (R84): one of the input patterns, or the canonical NaN. -/
def fmnx (f : Fmt) (mx : Bool) (a b : Nat) : Nat :=
  if isNan f a && isNan f b then Fmt.nan f
  else if isNan f a then b
  else if isNan f b then a
  else if mx then (if fkey f a < fkey f b then b else a)
  else (if fkey f b < fkey f a then b else a)

/-- The key with −0 and +0 equal, for compares (R85). -/
def fcmpKey (f : Fmt) (x : Nat) : Int := if x % Fmt.signBit f = 0 then 0 else
  if x / Fmt.signBit f % 2 = 1 then -((x % Fmt.signBit f : Nat) : Int) else ((x % Fmt.signBit f : Nat) : Int)

/-- The seven relations of R85. -/
def fcmp (f : Fmt) (rel : FRel) (a b : Nat) : Bool :=
  if isNan f a || isNan f b then (match rel with
    | .ne => true
    | .un => true
    | _ => false)
  else
    let x := fcmpKey f a
    let y := fcmpKey f b
    match rel with
    | .eq => decide (x = y)
    | .ne => decide (x ≠ y)
    | .lt => decide (x < y)
    | .le => decide (x ≤ y)
    | .gt => decide (x > y)
    | .ge => decide (x ≥ y)
    | .un => false

/-- The class word of R86. -/
def fclass (f : Fmt) (x : Nat) : Nat :=
  let neg := decide (x / Fmt.signBit f % 2 = 1)
  let mag := x % Fmt.signBit f
  if mag > Fmt.infBits f then (if mag % 2 ^ Fmt.frac f / 2 ^ (Fmt.frac f - 1) = 0 then 2 ^ 8 else 2 ^ 9)
  else if mag = Fmt.infBits f then (if neg then 2 ^ 0 else 2 ^ 7)
  else if mag ≥ 2 ^ Fmt.frac f then (if neg then 2 ^ 1 else 2 ^ 6)
  else if mag > 0 then (if neg then 2 ^ 2 else 2 ^ 5)
  else if neg then 2 ^ 3 else 2 ^ 4

/-- The integer nearest a finite value in the mode, as (magnitude); used by FRINT and CVTFI. -/
def toIntegral (r : Rnd) (neg : Bool) (m : Nat) (e : Int) : Nat :=
  let a := m * pow2Num e
  let b := pow2Den e
  roundInt r neg (a / b) (a % b) b

/-- FRINT (R89). -/
def frint (f : Fmt) (r : Rnd) (ftz : Bool) (a : Nat) : Nat :=
  match fdecode f (flush f ftz a) with
  | .nan => Fmt.nan f
  | .inf n => signed f n (Fmt.infBits f)
  | .fin n m e => fround f r n (toIntegral r n m e) 1

/-- FSCALE (R89): a × 2^n, n clamped where the result no longer changes. -/
def fscale (f : Fmt) (r : Rnd) (ftz : Bool) (a : Nat) (n : Int) : Nat :=
  let k := max (min n 1000) (-1000)
  match fdecode f (flush f ftz a) with
  | .nan => Fmt.nan f
  | .inf s => signed f s (Fmt.infBits f)
  | .fin s m e => flush f ftz (fround f r s (m * pow2Num (e + k)) (pow2Den (e + k)))

/-- A conversion between formats (R90). -/
def fconv (src dst : Fmt) (r : Rnd) (ftz : Bool) (a : Nat) : Nat :=
  flush dst ftz (froundVal dst r (fdecode src (flush src ftz a)))

def clampInt (lo hi x : Int) : Int := max lo (min hi x)

def IntTy.lo : IntTy → Int
  | .s32 => -(2 ^ 31) | .z32 => 0 | .s64 => -(2 ^ 63) | .z64 => 0

def IntTy.hi : IntTy → Int
  | .s32 => 2 ^ 31 - 1 | .z32 => 2 ^ 32 - 1 | .s64 => 2 ^ 63 - 1 | .z64 => 2 ^ 64 - 1

/-- CVTFI (R91): rounded in the mode, then saturated; NaN gives 0. -/
def fToInt (f : Fmt) (ty : IntTy) (r : Rnd) (ftz : Bool) (a : Nat) : Int :=
  match fdecode f (flush f ftz a) with
  | .nan => 0
  | .inf n => if n then IntTy.lo ty else IntTy.hi ty
  | .fin n m e => clampInt (IntTy.lo ty) (IntTy.hi ty) (sgnInt n (toIntegral r n m e))

/-- CVTIF (R92). -/
def intToF (f : Fmt) (r : Rnd) (x : Int) : Nat := fround f r (decide (x < 0)) x.natAbs 1

/-- FDOT2 (R94): the exact sum of two 16-bit products and an F32 addend, rounded once. -/
def fdot2 (h : Fmt) (r : Rnd) (ftz : Bool) (a0 b0 a1 b1 c : Nat) : Nat :=
  let p := mulExact (fdecode h (flush h ftz a0)) (fdecode h (flush h ftz b0))
  let q := mulExact (fdecode h (flush h ftz a1)) (fdecode h (flush h ftz b1))
  let z := fdecode .f32 (flush .f32 ftz c)
  flush .f32 ftz (match p, q, z with
    | .fin n1 m1 e1, .fin n2 m2 e2, .fin n3 m3 e3 =>
      let s := dyAdd (sgnInt n1 m1) e1 (sgnInt n2 m2) e2
      let t := dyAdd s.1 s.2 (sgnInt n3 m3) e3
      let zs := if m1 = 0 ∧ m2 = 0 ∧ m3 = 0 then (if n1 = n2 ∧ n2 = n3 then n1 else zeroSign r false true)
        else zeroSign r false true
      froundDy .f32 r t.1 t.2 zs
    | .nan, _, _ => Fmt.nan .f32
    | _, .nan, _ => Fmt.nan .f32
    | _, _, .nan => Fmt.nan .f32
    | x, y, w =>
      let pos := [x, y, w].contains (.inf false)
      let neg := [x, y, w].contains (.inf true)
      if pos && neg then Fmt.nan .f32 else signed .f32 neg (Fmt.infBits .f32))

/-- FTWOSUM (R99): the rounded sum and its exact error. -/
def ftwosum (a b : Nat) : Nat × Nat :=
  let s := fadd .f32 .rn false a b
  match fdecode .f32 s, fdecode .f32 a, fdecode .f32 b with
  | .nan, _, _ => (s, Fmt.nan .f32)
  | .inf _, _, _ => (s, 0)
  | .fin ns ms es, .fin na ma ea, .fin nb mb eb =>
    let t := dyAdd (sgnInt na ma) ea (sgnInt nb mb) eb
    let e := dyAdd t.1 t.2 (-(sgnInt ns ms)) es
    (s, froundDy .f32 .rn e.1 e.2 false)
  | _, _, _ => (s, 0)

/-- Applies a 16-bit operation to both halves of a register (R93). -/
def packed (g : Nat → Nat → Nat) (a b : Word) : Word :=
  BitVec.ofNat 32 (g (a.toNat % 65536) (b.toNat % 65536) % 65536 + g (a.toNat / 65536) (b.toNat / 65536) % 65536 * 65536)

def packed3 (g : Nat → Nat → Nat → Nat) (a b c : Word) : Word :=
  BitVec.ofNat 32 (g (a.toNat % 65536) (b.toNat % 65536) (c.toNat % 65536) % 65536
    + g (a.toNat / 65536) (b.toNat / 65536) (c.toNat / 65536) % 65536 * 65536)

/-- The 16-bit format a .BF suffix selects (R93). -/
def halfFmt (bf : Bool) : Fmt := if bf then .bf16 else .f16

end Sys2Proof.Machine
end

