-- ==== Sys2Proof/Machine/Narrow.lean ====
section
/-! DEFINITION. The tapered floats ST8 and ST6 (R74, R75), the half-step integers HS8 and HS4 (R76, R77), block scales (R78). -/

namespace Sys2Proof.Machine

/-- The length of the run of bits equal to b from bit i downward. -/
def runLen (m : Nat) (b : Nat) : Nat → Nat
  | 0 => if m % 2 = b then 1 else 0
  | i + 1 => if m / 2 ^ (i + 1) % 2 = b then 1 + runLen m b i else 0

/-- The value of a magnitude code of n bits, as (mantissa, exponent): mantissa × 2^exponent (R74). -/
def stMag (m n : Nat) : Nat × Int :=
  if m = 0 then (0, 0) else
  let b := m / 2 ^ (n - 2) % 2
  let k := runLen m b (n - 2)
  let r : Int := if b = 1 then (k : Int) - 1 else -(k : Int)
  let p : Int := (n : Int) - 2 - k - 1
  let e : Int := if p ≥ 0 then ((m / 2 ^ p.toNat % 2 : Nat) : Int) else 0
  let w := p.toNat
  let f := if w > 0 then m % 2 ^ w else 0
  (2 ^ w + f, 2 * r + e - w)

/-- decodeST (R74); none is NaR. -/
def decodeST (c n : Nat) : Option (Int × Int) :=
  if c = 0 then some (0, 0)
  else if c = 2 ^ (n - 1) then none
  else if c / 2 ^ (n - 1) % 2 = 1 then
    let v := stMag (2 ^ n - c) n
    some (-(v.1 : Int), v.2)
  else
    let v := stMag c n
    some ((v.1 : Int), v.2)

/-- Compares the fraction num/den with a magnitude code's value: num/den − value has the sign of the result. -/
def stCmp (num den : Nat) (v : Nat × Int) : Int := (num * pow2Den v.2 : Nat) - (v.1 * pow2Num v.2 * den : Nat)

/-- The largest magnitude code whose value is at most num/den, searched from c downward. -/
def stBelow (num den n : Nat) : Nat → Nat
  | 0 => 0
  | c + 1 => if stCmp num den (stMag (c + 1) n) ≥ 0 then c + 1 else stBelow num den n c

/-- encodeST of (−1)^neg × num/den, num > 0 (R75). -/
def encodeSTMag (num den n : Nat) : Nat :=
  let top := 2 ^ (n - 1) - 1
  if stCmp num den (stMag top n) ≥ 0 then top
  else if stCmp num den (stMag 1 n) ≤ 0 then 1
  else
    let c := stBelow num den n top
    let lo := stMag c n
    let hi := stMag (c + 1) n
    -- 2 × num/den against lo + hi, scaled by 2^40
    let mid := lo.1 * pow2Num (lo.2 + 40) + hi.1 * pow2Num (hi.2 + 40)
    let two := 2 * num * 2 ^ 40
    if two < mid * den then c
    else if two > mid * den then c + 1
    else if c % 2 = 0 then c else c + 1

/-- encodeST of a signed fraction (R75). -/
def encodeST (neg : Bool) (num den n : Nat) : Nat :=
  if num = 0 then 0
  else
    let m := encodeSTMag num den n
    if neg then 2 ^ n - m else m

/-- encodeST of an exact value. -/
def encodeSTVal (x : FVal) (n : Nat) : Nat :=
  match x with
  | .nan => 2 ^ (n - 1)
  | .inf s => if s then 2 ^ (n - 1) + 1 else 2 ^ (n - 1) - 1
  | .fin s m e => encodeST s (m * pow2Num e) (pow2Den e) n

/-- quantHS of a signed fraction (R77). -/
def quantHS (neg : Bool) (num den w : Nat) : Nat :=
  let q : Int := if neg then -(num : Int) else num
  let fl := q / (den : Int)
  let n := if q % (den : Int) = 0 then (if fl % 2 = 0 then fl else fl - 1) else fl
  ((clampInt (-(2 ^ (w - 1))) (2 ^ (w - 1) - 1) n) % 2 ^ w).toNat

/-- A code read as two's complement. -/
def codeInt (c w : Nat) : Int := if c ≥ 2 ^ (w - 1) then (c : Int) - 2 ^ w else c

/-- A quotient x / sc of exact values, sc positive and finite: sign, numerator, denominator; none when x is infinite. -/
def quotient (x : FVal) (sm : Nat) (se : Int) : Option (Bool × Nat × Nat) :=
  match x with
  | .fin s m e => some (s, m * pow2Num (e - se), sm * pow2Den (e - se))
  | _ => none

def QFmt.width : QFmt → Nat
  | .hs8 => 8 | .hs4 => 4 | .st8 => 8 | .st6 => 6

/-- The distance of fields of a packed register (R95). -/
def QFmt.step : QFmt → Nat
  | .hs8 => 8 | .hs4 => 4 | .st8 => 8 | .st6 => 8

def QFmt.half : QFmt → Bool
  | .hs8 => true | .hs4 => true | .st8 => false | .st6 => false

/-- Whether an F32 scale is valid (R95): positive and finite. -/
def scaleOk (x : FVal) : Bool :=
  match x with
  | .fin s m _ => !s && decide (m ≠ 0)
  | _ => false

/-- Quantises x at a valid scale into a code (R77, R75); a NaN gives the most negative code or NaR. -/
def quantCode (f : QFmt) (x : FVal) (sm : Nat) (se : Int) : Nat :=
  let w := QFmt.width f
  match x with
  | .nan => 2 ^ (w - 1)
  | .inf s => if QFmt.half f then (if s then 2 ^ (w - 1) else 2 ^ (w - 1) - 1) else encodeSTVal (.inf s) w
  | .fin s m e =>
    let num := m * pow2Num (e - se)
    let den := sm * pow2Den (e - se)
    if QFmt.half f then quantHS s num den w else encodeST s num den w

/-- FQUANT (R95): the code and whether the MFMT condition holds. -/
def fquant (f : QFmt) (x sc : Nat) : Nat × Bool :=
  let v := fdecode .f32 x
  let s := fdecode .f32 sc
  if v = .nan ∨ scaleOk s = false then (2 ^ (QFmt.width f - 1), true)
  else match s with
    | .fin _ sm se => (quantCode f v sm se, false)
    | _ => (0, false)

/-- Puts a code into field k of a register (R95). -/
def putField (f : QFmt) (k : Nat) (c : Nat) (r : Word) : Word :=
  let sh := QFmt.step f * k
  let mask : Word := BitVec.ofNat 32 ((2 ^ QFmt.step f - 1) * 2 ^ sh)
  (r &&& ~~~mask) ||| BitVec.ofNat 32 (c * 2 ^ sh)

def getField (f : QFmt) (k : Nat) (r : Word) : Nat := r.toNat / 2 ^ (QFmt.step f * k) % 2 ^ QFmt.width f

/-- The exact value of a code without a scale (R74, R76), as a dyadic; none is NaR. -/
def codeVal (f : QFmt) (c : Nat) : Option (Int × Int) :=
  if QFmt.half f then some (2 * codeInt c (QFmt.width f) + 1, -1) else decodeST c (QFmt.width f)

def dyVal (x e : Int) : FVal := .fin (decide (x < 0)) x.natAbs e

/-- FDEQ (R96). -/
def fdeq (f : QFmt) (r : Rnd) (ftz : Bool) (c sc : Nat) : Nat :=
  match codeVal f c with
  | none => Fmt.nan .f32
  | some v => flush .f32 ftz (froundVal .f32 r (mulExact (dyVal v.1 v.2) (fdecode .f32 (flush .f32 ftz sc))))

/-- A block scale (R78): format 0 none, 1 E8, 2 F16; none is invalid. -/
def blockScale (fmt code : Nat) : Option (Int × Int) :=
  if fmt = 0 then some (1, 0)
  else if fmt = 1 then (if code = 255 then none else some (1, (code : Int) - 127))
  else match fdecode .f16 code with
    | .fin s m e => if s ∨ m = 0 then none else some ((m : Int), e)
    | _ => none

end Sys2Proof.Machine
end

