-- ==== Sys2Proof/Machine/Special.lean ====
section
/-! DEFINITION. The correctly rounded functions of R87 and R302. Each is evaluated in fixed point with a known error, at
rising precision, until both ends of the error interval round to one F32 value; that value is then the correct rounding.
(An interval that no precision below 2,000 bits resolves gives the rounding of its lower end: log entry 12.) -/

namespace Sys2Proof.Machine

/-- Integer square root, by fuel: the result bits from the top. -/
def isqrtGo (n : Nat) : Nat → Nat → Nat
  | 0, s => s
  | k + 1, s =>
    let t := s + 2 ^ k
    isqrtGo n k (if t * t ≤ n then t else s)

def isqrt (n : Nat) : Nat := isqrtGo n (Nat.log2 n / 2 + 1) 0

/-- Σ y^k / k! for a fixed-point y (unit 2^p), until the fuel ends. -/
def expSeries (p : Nat) (y : Int) : Nat → Int → Int → Int → Int
  | 0, _, _, acc => acc
  | f + 1, k, t, acc =>
    let t' := t * y / 2 ^ p / k
    expSeries p y f (k + 1) t' (acc + t')

/-- exp(y) for |y| ≤ 1. -/
def expSmall (p : Nat) (y : Int) : Int := expSeries p y (p / 4 + 20) 1 (2 ^ p) (2 ^ p)

/-- 2 × Σ z^(2k+1) / (2k+1) = ln((1 + z) / (1 − z)). -/
def atanhSeries (p : Nat) (z2 : Int) : Nat → Int → Int → Int → Int
  | 0, _, _, acc => 2 * acc
  | f + 1, k, t, acc => atanhSeries p z2 f (k + 2) (t * z2 / 2 ^ p) (acc + t / k)

/-- ln 2. -/
def ln2 (p : Nat) : Int :=
  let z : Int := 2 ^ p / 3
  atanhSeries p (z * z / 2 ^ p) (p / 3 + 10) 1 z 0

/-- ln(m / 2^s) for 1 ≤ m / 2^s < 2. -/
def lnUnit (p m s : Nat) : Int :=
  let z : Int := (((m : Int) - 2 ^ s) * 2 ^ p) / ((m : Int) + 2 ^ s)
  atanhSeries p (z * z / 2 ^ p) (p / 3 + 10) 1 z 0

/-- atan(1/n) by its series. -/
def atanInv (n2 : Int) : Nat → Int → Int → Int → Int
  | 0, _, _, acc => acc
  | f + 1, k, t, acc => atanInv n2 f (k + 2) (-(t / n2)) (acc + t / k)

/-- π (Machin's formula). -/
def piFix (p : Nat) : Int :=
  16 * atanInv 25 (p / 4 + 10) 1 (2 ^ p / 5) 0 - 4 * atanInv 57121 (p / 15 + 10) 1 (2 ^ p / 239) 0

/-- Σ over every second term of the exponential series with alternating signs: sine from t = y, k = 1; cosine from t = 1, k = 0. -/
def sincos (p : Nat) (y2 : Int) : Nat → Int → Int → Int → Int
  | 0, _, _, acc => acc
  | f + 1, k, t, acc =>
    let t' := -(t * y2 / 2 ^ p / ((k + 1) * (k + 2)))
    sincos p y2 f (k + 2) t' (acc + t')

/-- A dyadic m × 2^e in fixed point with unit 2^p. -/
def toFix (p : Nat) (x e : Int) : Int := if e + p ≥ 0 then x * 2 ^ (e + p).toNat else x / 2 ^ (-(e + p)).toNat

/-- exp(y) for a fixed-point y of any size up to about 2^12: exp(y) = 2^k exp(y − k ln 2). -/
def expFix (p : Nat) (y : Int) : Int × Int :=
  let l := ln2 p
  let k := y / l
  (expSmall p (y - k * l), k)

/-- v × 2^k in the same unit, v unscaled. -/
def shiftFix (v k : Int) : Int := if k ≥ 0 then v * 2 ^ k.toNat else v / 2 ^ (-k).toNat

/-- Rounds an interval [v − err, v + err] / 2^p × 2^k if both ends round alike. -/
def roundIval (p : Nat) (v k err : Int) : Option Nat :=
  let a := froundDy .f32 .rn (v - err) (k - p) false
  let b := froundDy .f32 .rn (v + err) (k - p) false
  if a = b then some a else none

/-- Tries the precisions in turn. -/
def ziv (g : Nat → Option Nat) (last : Nat → Nat) : List Nat → Nat
  | [] => last 2000
  | p :: r => match g p with
    | some v => v
    | none => ziv g last r

def precisions : List Nat := [256, 480, 960, 2000]

/-- Correct rounding of the value that `g p` gives as (v, k) with |v − exact| ≤ 2^30 units. -/
def correct (g : Nat → Int × Int) : Nat :=
  ziv (fun p => roundIval p (g p).1 (g p).2 (2 ^ 30)) (fun p => froundDy .f32 .rn ((g p).1 - 2 ^ 30) ((g p).2 - p) false) precisions

/-- 2^x (R87): exact for integers. -/
def ex2Val : FVal → Nat
  | .nan => Fmt.nan .f32
  | .inf n => if n then 0 else Fmt.infBits .f32
  | .fin n m e =>
    let x := sgnInt n m
    if x = 0 then 0x3F800000
    else if e + Nat.log2 m ≥ 9 then (if n then 0 else Fmt.infBits .f32)
    else if x % pow2Den e = 0 then froundDy .f32 .rn 1 (x * pow2Num e / pow2Den e) false
    else
      let fl := x * pow2Num e / pow2Den e
      correct (fun p => (expSmall p ((toFix p x e - fl * 2 ^ p) * ln2 p / 2 ^ p), fl))

/-- log2 x (R87). -/
def lg2Val : FVal → Nat
  | .nan => Fmt.nan .f32
  | .inf n => if n then Fmt.nan .f32 else Fmt.infBits .f32
  | .fin n m e =>
    if m = 0 then signed .f32 true (Fmt.infBits .f32)
    else if n then Fmt.nan .f32
    else
      let s := Nat.log2 m
      let k : Int := e + s
      if m = 2 ^ s then froundDy .f32 .rn k 0 false
      else correct (fun p => (k * 2 ^ p + lnUnit p m s * 2 ^ p / ln2 p, 0))

/-- A value v / 2^k between s and s + 1 half units: rounds with a sticky bit. -/
def sticky (s : Nat) (exact : Bool) (k : Int) : Nat :=
  fround .f32 .rn false ((2 * s + (if exact then 0 else 1)) * pow2Num (k - 1)) (pow2Den (k - 1))

/-- √x (R87). -/
def sqrtVal : FVal → Nat
  | .nan => Fmt.nan .f32
  | .inf n => if n then Fmt.nan .f32 else Fmt.infBits .f32
  | .fin n m e =>
    if m = 0 then signed .f32 n 0
    else if n then Fmt.nan .f32
    else
      let m2 := if e % 2 = 0 then m else 2 * m
      let e2 := if e % 2 = 0 then e else e - 1
      let s := isqrt (m2 * 2 ^ 80)
      sticky s (s * s = m2 * 2 ^ 80) (e2 / 2 - 40)

/-- 1/√x (R87). -/
def rsqVal : FVal → Nat
  | .nan => Fmt.nan .f32
  | .inf n => if n then Fmt.nan .f32 else 0
  | .fin n m e =>
    if m = 0 then signed .f32 n (Fmt.infBits .f32)
    else if n then Fmt.nan .f32
    else
      let m2 := if e % 2 = 0 then m else 2 * m
      let e2 := if e % 2 = 0 then e else e - 1
      let s := isqrt (2 ^ 160 / m2)
      sticky s (s * s * m2 = 2 ^ 160) (-(e2 / 2) - 80)

def rcpVal (x : FVal) : Nat := divVal .f32 .rn (.fin false 1 0) x

/-- sin x or cos x with exact argument reduction (R87). -/
def trigVal (cosine : Bool) : FVal → Nat
  | .nan => Fmt.nan .f32
  | .inf _ => Fmt.nan .f32
  | .fin n m e =>
    if m = 0 then (if cosine then 0x3F800000 else signed .f32 n 0)
    else
      correct (fun p =>
        let w := p + 160
        let h := piFix w / 2
        let x := toFix w (sgnInt n m) e
        let q := x / h
        let r := x - q * h
        let y := r / 2 ^ 160
        let y2 := y * y / 2 ^ p
        let s := sincos p y2 (p / 8 + 20) 1 y y
        let c := sincos p y2 (p / 8 + 20) 0 (2 ^ p) (2 ^ p)
        let i := (q + (if cosine then 1 else 0)) % 4
        (if i = 0 then s else if i = 1 then c else if i = 2 then -s else -c, 0))

/-- tanh x (R87). -/
def tanhVal : FVal → Nat
  | .nan => Fmt.nan .f32
  | .inf n => signed .f32 n 0x3F800000
  | .fin n m e =>
    if m = 0 then signed .f32 n 0
    else if e + Nat.log2 m ≥ 4 then signed .f32 n 0x3F800000
    else
      correct (fun p =>
        let y := toFix p (2 * sgnInt n m) e
        let g := expFix (p + 40) (y * 2 ^ 40)
        let v := shiftFix g.1 g.2 / 2 ^ 40
        ((v - 2 ^ p) * 2 ^ p / (v + 2 ^ p), 0))

/-- x / (1 + e^(−x)) (R302). -/
def siluVal : FVal → Nat
  | .nan => Fmt.nan .f32
  | .inf n => if n then Fmt.signBit .f32 else Fmt.infBits .f32
  | .fin n m e =>
    if m = 0 then signed .f32 n 0
    else if e + Nat.log2 m ≥ 7 then (if n then Fmt.signBit .f32 else froundVal .f32 .rn (.fin n m e))
    else
      correct (fun p =>
        let w := p + 240
        let x := toFix w (sgnInt n m) e
        let g := expFix w x
        let v := shiftFix g.1 g.2
        (x * v / (v + 2 ^ w) / 2 ^ 240, 0))

/-- Σ x^(2k+1) / (1·3·5…(2k+1)). -/
def phiSeries (p : Nat) (x2 : Int) : Nat → Int → Int → Int → Int
  | 0, _, _, acc => acc
  | f + 1, k, t, acc =>
    let t' := t * x2 / 2 ^ p / (k + 2)
    phiSeries p x2 f (k + 2) t' (acc + t')

/-- x Φ(x) (R302). -/
def geluVal : FVal → Nat
  | .nan => Fmt.nan .f32
  | .inf n => if n then Fmt.signBit .f32 else Fmt.infBits .f32
  | .fin n m e =>
    if m = 0 then signed .f32 n 0
    else if e + Nat.log2 m ≥ 4 then (if n then Fmt.signBit .f32 else froundVal .f32 .rn (.fin n m e))
    else
      correct (fun p =>
        let w := p + 480
        let x := toFix w (sgnInt n m) e
        let x2 := x * x / 2 ^ w
        let g := expFix w (-(x2 / 2))
        let d := isqrt ((2 * piFix w).toNat * 2 ^ w)
        let ph := shiftFix g.1 g.2 * 2 ^ w / d
        let s := phiSeries w x2 (w * 2) 1 x x
        let big := 2 ^ w / 2 + ph * s / 2 ^ w
        (x * big / 2 ^ w / 2 ^ 480, 0))

/-- FSFU (R87): flush, correct rounding, flush. -/
def fsfu (op : SfuOp) (ftz : Bool) (a : Nat) : Nat :=
  let x := fdecode .f32 (flush .f32 ftz a)
  flush .f32 ftz (match op with
    | .rcp => rcpVal x
    | .rsq => rsqVal x
    | .sqrt => sqrtVal x
    | .ex2 => ex2Val x
    | .lg2 => lg2Val x
    | .sin => trigVal false x
    | .cos => trigVal true x
    | .tanh => tanhVal x)

/-- EX2 of an F32 encoding, as FSFU.EX2. -/
def ex2 (a : Nat) : Nat := fsfu .ex2 false a

/-- FEXPD (R97). -/
def fexpd (ftz : Bool) (a b : Nat) : Nat :=
  let t := fsub .f32 .rn ftz a b
  if isNan .f32 t then Fmt.nan .f32 else flush .f32 ftz (ex2 t)

/-- FLSE (R98): merges two (maximum, sum) pairs. -/
def flse (m1 s1 m2 s2 : Nat) : Nat × Nat :=
  if isNan .f32 m1 || isNan .f32 m2 then (Fmt.nan .f32, Fmt.nan .f32)
  else
    let m := fmnx .f32 true m1 m2
    if m = 0xFF800000 then (m, fadd .f32 .rn false s1 s2)
    else
      let f1 := if fcmp .f32 .eq m1 m then 0x3F800000 else ex2 (fsub .f32 .rn false m1 m)
      let f2 := if fcmp .f32 .eq m2 m then 0x3F800000 else ex2 (fsub .f32 .rn false m2 m)
      (m, fadd .f32 .rn false (fmul .f32 .rn false s1 f1) (fmul .f32 .rn false s2 f2))

end Sys2Proof.Machine
end

