-- ==== Sys2Proof/Machine/Flags.lean ====
section
/-! DEFINITION. Every value the machine computes as a flag or a relation: carries and borrows (R55), relations (R59),
the order of IMNX (R58), clamps. The device has no flag register; these values are written to registers. -/

namespace Sys2Proof.Machine

def clampS (x : Int) : Int := clampInt (-(2 ^ 31)) (2 ^ 31 - 1) x
def clampZ (x : Int) : Int := clampInt 0 (2 ^ 32 - 1) x

def oneIf (b : Bool) : Nat := if b then 1 else 0

/-- A relation between integers (R59). -/
def Rel.holds (r : Rel) (a b : Int) : Bool :=
  match r with
  | .eq => decide (a = b)
  | .ne => decide (a ≠ b)
  | .lt => decide (a < b)
  | .le => decide (a ≤ b)
  | .gt => decide (a > b)
  | .ge => decide (a ≥ b)

/-- A relation between bit vectors, signed or unsigned (R59). -/
def relBits {n : Nat} (r : Rel) (uns : Bool) (a b : BitVec n) : Bool :=
  if uns then Rel.holds r a.toNat b.toNat else Rel.holds r a.toInt b.toInt

/-- IADD: sums, saturated sums, carries and borrows (R55). -/
def AddOp.eval (op : AddOp) (a b c : Word) : Word :=
  let ci : Int := oneIf (c.getLsbD 0)
  let x : Int := a.toNat
  let y : Int := b.toNat
  match op with
  | .add => wrap 32 (x + y)
  | .sub => wrap 32 (x - y)
  | .satS => wrap 32 (clampS (a.toInt + b.toInt))
  | .subSatS => wrap 32 (clampS (a.toInt - b.toInt))
  | .satZ => wrap 32 (clampZ (x + y))
  | .subSatZ => wrap 32 (clampZ (x - y))
  | .co => wrap 32 (oneIf (decide (x + y ≥ 2 ^ 32)))
  | .subBo => wrap 32 (oneIf (decide (x < y)))
  | .ci => wrap 32 (x + y + ci)
  | .cico => wrap 32 (oneIf (decide (x + y + ci ≥ 2 ^ 32)))
  | .subBi => wrap 32 (x - y - ci)
  | .subBibo => wrap 32 (oneIf (decide (x - y - ci < 0)))

/-- IMNX, and AMNX at either width (R58, R210). -/
def MnxOp.eval {n : Nat} (op : MnxOp) (a b : BitVec n) : BitVec n :=
  match op with
  | .minS => if a.toInt ≤ b.toInt then a else b
  | .maxS => if a.toInt ≤ b.toInt then b else a
  | .minZ => if a.toNat ≤ b.toNat then a else b
  | .maxZ => if a.toNat ≤ b.toNat then b else a

def AbsOp.eval (op : AbsOp) (a : Word) : Word :=
  match op with
  | .abs => wrap 32 a.toInt.natAbs
  | .absSat => wrap 32 (clampS a.toInt.natAbs)
  | .neg => wrap 32 (-a.toInt)
  | .negSat => wrap 32 (clampS (-a.toInt))

/-- The ALOG operations (R210). -/
def LogOp.eval {n : Nat} (op : LogOp) (a b : BitVec n) : BitVec n :=
  match op with
  | .and => a &&& b
  | .or => a ||| b
  | .xor => a ^^^ b

end Sys2Proof.Machine
end

