-- ==== Sys2Proof/Config.lean ====
section
/-! DEFINITION. What an implementation fixes, and the free values: constants without a body, of which nothing can be
proved, so that a claim holds whatever they are. -/

namespace Sys2Proof.Config

/-- Which of a protection domain's earlier values a stale register or scratchpad byte holds (R6, R22): free, by the group's
seed and the register and lane. -/
opaque stale : Nat → Nat → Nat

/-- The free number of the step that follows (R100, R110, R190, R230, R313): free, by the step counter. -/
opaque draw : Nat → Nat

/-- How far the device timebase advances in one step (R175): free, by the step counter. -/
opaque ticks : Nat → Nat

/-- Which of the device's own enabled happenings comes next: free, by the step counter. -/
opaque pick : Nat → Nat

/-- The home die of a line (R197): the hash is not given. Numbers are taken mod 4. -/
opaque homeDie : Nat → Nat

/-- The home slice of a line on its home die (R197): the second hash is not given. Numbers are taken mod the slices there are. -/
opaque homeSlice : Nat → Nat

/-- The entry of the peer predictor for bits [23:12] of a physical address (R196): the hash is not given. Taken mod 64. -/
opaque peerHash : Nat → Nat

/-- The cluster that an entry of the peer predictor of a cluster names before any has supplied a line (R196): not given. -/
opaque firstPeer : Nat → Nat → Nat

/-- Whether an access to an address sees a table write of its own die that is not yet performed (R190): free, by the step
counter and the address. -/
opaque walkOld : Nat → Nat → Bool

/-- The choices of a step, each by its own number, out of the step's free number (R230, R313). -/
opaque choose : Nat → Nat → Nat

/-- Whether written bytes of a line leave the caches at a step (R192, R204): free, by the step counter and the byte's address. -/
opaque evicted : Nat → Nat → Bool

/-- Whether the error of a check granule is in a cache's copy of it, so that writing the line back meets it (R414): free. -/
opaque errorAbove : Nat → Bool

/-- What a load of a peer page returns (R397): the remote device's memory, free. -/
opaque peerByte : Nat → Nat → Byte

/-- Whether the remote device refuses a chunk of an XCOPY (R314, R397): free, by the step counter and the address. -/
opaque peerRefuses : Nat → Nat → Bool

/-- Temperature and power readings of the board (R411): free. -/
opaque sensor : Nat → Nat → Nat

/-- The fuse configuration (R410): free. -/
opaque fuses : List Byte

/-- Whether a macro passes its self-check (R415): free. -/
opaque selfCheck : Nat → Nat → Bool

/-- What a performance counter of an implementation's own event has counted (R368): cycles, misses; free. -/
opaque perfCount : Nat → Nat → Nat

/-- Whether the host has consumed a slot of a ring that is about to be written again (R393, R394): free, by the step
counter and the count of entries written. -/
opaque hostTook : Nat → Nat → Bool

/-- Silicon revision (R387). -/
opaque revision : Nat

/-- The ISA feature level (R2). -/
def featureLevel : Nat := 1

end Sys2Proof.Config
end

