-- ==== Sys2Proof/Machine/Base.lean ====
section
/-! DEFINITION. Accessors of State: one way to reach and to change each part of it. -/

namespace Sys2Proof.Machine

/-- The end of device memory: the packages of R12 hold 768 GiB, which stand from address 0 on (log entry 28). -/
def physTop : Nat := 768 * 2 ^ 30

def group? (s : State) (g : Nat) : Option Group := sget? s.groups g

def putGroup (s : State) (g : Group) : State := { s with groups := sput s.groups g.id g }

/-- Changes a group, if it exists. -/
def modGroup (s : State) (g : Nat) (f : Group → Group) : State :=
  match group? s g with
  | some x => { s with groups := sput s.groups g (f x) }
  | none => s

def warp? (s : State) (g w : Nat) : Option Warp := (group? s g).bind fun x => x.warps[w]?

/-- Changes a warp, if it exists. -/
def modWarp (s : State) (g w : Nat) (f : Warp → Warp) : State :=
  modGroup s g fun x => { x with warps := modAt x.warps w f }

def core (s : State) (c : Nat) : Core := (sget? s.cores c).getD Core.reset

def modCore (s : State) (c : Nat) (f : Core → Core) : State := { s with cores := sput s.cores c (f (core s c)) }

def ctx? (s : State) (c : Nat) : Option Ctx := sget? s.ctxs c

def modCtx (s : State) (c : Nat) (f : Ctx → Ctx) : State :=
  match ctx? s c with
  | some x => { s with ctxs := sput s.ctxs c (f x) }
  | none => s

def dieOf (c : Nat) : Nat := c / 192

def die (s : State) (d : Nat) : Die := s.dies[d]?.getD Die.reset

def modDie (s : State) (d : Nat) (f : Die → Die) : State := { s with dies := modAt s.dies d f }

def grid? (s : State) (g : Nat) : Option Grid := s.grids.find? (·.id == g)

def modGrid (s : State) (g : Nat) (f : Grid → Grid) : State :=
  { s with grids := s.grids.map fun x => if x.id = g then f x else x }

def graph? (s : State) (g : Nat) : Option Graph := s.graphs.find? (·.id == g)

def modGraph (s : State) (g : Nat) (f : Graph → Graph) : State :=
  { s with graphs := s.graphs.map fun x => if x.id = g then f x else x }

def modNode (s : State) (g n : Nat) (f : Node → Node) : State :=
  modGraph s g fun x => { x with nodes := modAt x.nodes n f }

def node? (s : State) (g n : Nat) : Option Node := (graph? s g).bind fun x => x.nodes[n]?

def tmpl? (s : State) (t : Nat) : Option Template := s.tmpls.find? (·.id == t)

def modTmpl (s : State) (t : Nat) (f : Template → Template) : State :=
  { s with tmpls := s.tmpls.map fun x => if x.id = t then f x else x }

def gang? (s : State) (g : Nat) : Option Gang := s.gangs.find? (·.groups.contains g)

def fn (s : State) (i : Nat) : Fn := s.fns[i]?.getD (Fn.reset i)

def modFn (s : State) (i : Nat) (f : Fn → Fn) : State := { s with fns := modAt s.fns i f }

def modPart (s : State) (i : Nat) (f : Part → Part) : State := { s with parts := modAt s.parts i f }

def region? (s : State) (c n : Nat) : Option Region := s.regions.find? fun r => r.ctx == c && r.num == n

def modRegion (s : State) (c n : Nat) (f : Region → Region) : State :=
  { s with regions := s.regions.map fun r => if r.ctx = c ∧ r.num = n then f r else r }

def range? (s : State) (n : Nat) : Option VRange := s.ranges.find? (·.num == n)

def modRange (s : State) (n : Nat) (f : VRange → VRange) : State :=
  { s with ranges := s.ranges.map fun r => if r.num = n then f r else r }

def modCopy (s : State) (i : Nat) (f : Copy → Copy) : State :=
  { s with copies := s.copies.map fun c => if c.id = i then f c else c }

def modMat (s : State) (i : Nat) (f : MatOp → MatOp) : State :=
  { s with matops := s.matops.map fun c => if c.id = i then f c else c }

/-- A fresh number for a group, grid, graph or operation. -/
def fresh (s : State) : Nat × State := (s.seqs, { s with seqs := s.seqs + 1 })

/-- The fixed-star mode of the graph a grid belongs to (R173). -/
def fixedOf (s : State) (grid : Nat) : Bool :=
  match grid? s grid with
  | some g => match graph? s g.graph with
    | some x => x.fixed
    | none => false
  | none => false

def GroupKind.tmpl? : GroupKind → Option Nat
  | .instance_ t => some t
  | .nested t => some t
  | _ => none

/-- The body length of a loop node. -/
def Node.span (n : Node) : Nat := n.k48.toNat / 65536 % 65536 - n.k48.toNat % 65536

/-- Inserts a node index before the first one with a longer body. -/
def insertLoop (g : Graph) (a : Nat) : List Nat → List Nat
  | [] => [a]
  | b :: r => match g.nodes[a]?, g.nodes[b]? with
    | some x, some y => if Node.span x ≤ Node.span y then a :: b :: r else b :: insertLoop g a r
    | _, _ => a :: b :: r

/-- The chain of loop nodes around a node, innermost first (R170): an inner body is contained in an outer one, so it is
shorter. -/
def loopsAround (g : Graph) (n : Nat) : List Nat :=
  ((List.range g.nodes.length).filter fun i => match g.nodes[i]? with
    | some x => x.kind == 3 && decide (x.k48.toNat % 65536 ≤ n) && decide (n ≤ x.k48.toNat / 65536 % 65536)
    | none => false).foldr (insertLoop g) []

/-- The subscription of a loop node, if any. -/
def Node.subscription (n : Node) : Option Nat := if n.k52 = 0xFFFF then none else some n.k52

/-- The innermost enclosing loop node subscribed to a range, for a group's node (R70, R333). -/
def subscribedLoop (s : State) (gr : Group) : Option Node :=
  match grid? s gr.grid with
  | none => none
  | some g => match graph? s g.graph with
    | none => none
    | some x => ((loopsAround x g.node).filterMap fun i => x.nodes[i]?).find? fun (n : Node) => n.subscription.isSome

/-- The version slot that holds a generation of a range (R332). -/
def slotOf (r : VRange) (gen : Nat) : Option Nat :=
  indexWhere (fun (x : VState × Nat) => (x.1 == .live || x.1 == .newest) && x.2 == gen) r.slots

def newestOf (r : VRange) : Option Nat := (r.slots.find? fun (x : VState × Nat) => x.1 == .newest).map (·.2)

/-- The generation an access on behalf of a node uses (R333, R431): of the innermost subscribed loop that it is or lies in. -/
def nodeGen (s : State) (g n rng : Nat) : Option Nat :=
  match graph? s g, node? s g n with
  | some x, some y =>
    match ((n :: loopsAround x n).filterMap fun i => x.nodes[i]?).find? fun z => z.kind == 3 && z.subscription == some rng with
    | some z => z.adopted
    | none => (y.gens.find? (·.1 == rng)).map (·.2)
  | _, _ => none

/-- The generation in effect for a group's access to a range (R333). -/
def genFor (s : State) (gr : Group) (rng : Nat) : Option Nat :=
  (grid? s gr.grid).bind fun g => nodeGen s g.graph g.node rng

/-- The generation an access made for a context alone uses (R431). -/
def genOfCtx (s : State) (c : Nat) (rng : Nat) : Option Nat :=
  match (ctx? s c).bind fun x => x.pins.find? (·.1 == rng) with
  | some p => some p.2
  | none => (range? s rng).bind newestOf

/-- Errors in the arrays of R414 that are gone: what held them has been written whole, or holds nothing any more (R430). -/
def mend (s : State) (p : Err → Bool) : State := { s with errs := s.errs.filter fun x => !p x }

end Sys2Proof.Machine
end

