-- ==== Sys2Proof/Machine/Events.lean ====
section
/-! DEFINITION. Fault records and events as the host reads them (R349, R355, R394), the posting of an event, and what
the management port is told (R411 to R416). -/

namespace Sys2Proof.Machine

def Code.num : Code → Nat
  | .illegal => 1 | .rsvd => 2 | .illpair => 3 | .hazard => 4 | .align => 5 | .page => 6 | .prot => 7 | .priv => 8
  | .notAlignedPair => 9 | .scope => 10 | .bardiv => 11 | .wmask => 12 | .orreg => 13 | .orneg => 14 | .orrange => 15
  | .tidbad => 16 | .template => 17 | .mfmt => 18 | .mshape => 19 | .staleb => 20 | .futbad => 21 | .copybad => 22
  | .ndet => 23 | .eccu => 24 | .version => 25 | .depth => 26 | .growx => 27 | .linklost => 28 | .qclosed => 29
  | .budget => 30 | .swtrap => 31

def zeros (n : Nat) : List Byte := List.replicate n 0

/-- A fault record of 64 bytes (R355). -/
def faultBytes (r : FaultRec) : List Byte :=
  leBytes 1 (Code.num r.code) ++ leBytes 1 ((if r.handler then 1 else 0) + (if r.deferred then 2 else 0)) ++ zeros 2 ++
  leBytes 4 r.lanes.toNat ++ leBytes 4 r.live.toNat ++ leBytes 4 r.atPc.toNat ++ leBytes 8 r.pc.toNat ++
  leBytes 8 r.word.toNat ++ leBytes 8 r.d0.toNat ++ leBytes 8 r.d1.toNat ++ leBytes 8 r.clock.toNat ++
  leBytes 1 r.warp ++ zeros 7

/-- An event entry (R394, R395): kind, context, address, access kind and pool byte, fault record. The phase bit is set
when the entry is written to its ring. -/
def eventEntry (kind ctx addr b16 b17 : Nat) (r : Option FaultRec) : List Byte :=
  leBytes 1 kind ++ zeros 1 ++ leBytes 2 ctx ++ zeros 4 ++ leBytes 8 addr ++ leBytes 1 b16 ++ leBytes 1 b17 ++ zeros 46 ++
  (match r with | some x => faultBytes x | none => zeros 64)

/-- Posts an event to a function: up to 256 are held, a further one is dropped and sets OVERFLOW (R394). -/
def postEvent (s : State) (f : Nat) (e : List Byte) : State :=
  modFn s f fun x => if x.events.length < 256 then { x with events := x.events ++ [e] } else { x with overflow := true }

/-- The function that created a context (R402). -/
def fnOfCtx (s : State) (c : Nat) : Nat := ((ctx? s c).map (·.fn)).getD 0

def postCtx (s : State) (c kind addr b16 b17 : Nat) (r : Option FaultRec) : State :=
  postEvent s (fnOfCtx s c) (eventEntry kind c addr b16 b17 r)

/-! ## Partitions, and what the management port is told -/

/-- The half a core lies in: bit 2d + h (R399). -/
def halfOf (c : Nat) : Nat := 2 * dieOf c + c % 192 / 96

def partAt (s : State) (p : Nat) : Part := s.parts[p]?.getD (Part.reset 8)

def partOfCtx (s : State) (c : Nat) : Nat := (fn s (fnOfCtx s c)).part

/-- A message posted on the management port: its kind and contents. Kinds: 1 host link lost, 2 macro failed its self-check,
3 critical temperature, 4 sensors, 5 measurements, 6 die-to-die link down, 7 a cache line not written back, 8 a request of another
version, answered with the error that its protocol defines for it. -/
def postMgmt (s : State) (m : List Nat) : State := { s with mgmt := { s.mgmt with posted := s.mgmt.posted ++ [m] } }

/-- A graph in fixed-star mode loses the promise of R176 (R401, R416): event kind 1 with fault code 0. -/
def postLoss (s : State) (c : Nat) : State := postCtx s c 1 0 0 0 none

/-- The graphs of fixed-star mode on a core's partition lose their promise when the core is lost (R416). -/
def lossOfCore (s : State) (core : Nat) : State :=
  (s.graphs.filter fun g => g.fixed && !g.ended && (partAt s (partOfCtx s g.ctx)).halves.getLsbD (halfOf core)).foldl (fun t g => postLoss t g.ctx) s

/-- A macro is retired, which is posted (R415, R416). -/
def retireMacro (s : State) (core unit : Nat) : State :=
  let s1 := modCore s core fun k => { k with retired := sins k.retired unit, macros := setAt k.macros unit Macro.empty }
  let s2 := postMgmt (mend s1 fun x => x == .column core unit) [2, core, unit]
  if (Machine.core s core).retired.length = 7 then lossOfCore s2 core else s2

end Sys2Proof.Machine
end

