-- ==== Sys2Proof/Machine/Mem.lean ====
section
/-! DEFINITION. Memory: bytes as a die and as the home slice sees them, translation, writes and their update records. -/

namespace Sys2Proof.Machine

/-! ## Bytes -/

/-- What device or host memory that nothing has written reads as: 0 (log entry 2). -/
def memByte (m : List Host.Cell) (a : Nat) : Byte := (sget? m a).getD 0

/-- Writes one byte and keeps the canonical form: no entry equal to what an unlisted address reads as. -/
def memPut (m : List Host.Cell) (a : Nat) (b : Byte) : List Host.Cell := if b = 0 then sdel m a else sput m a b

/-- The canonical form: addresses strictly rising, no zero listed. -/
def Memory.wf (m : List Host.Cell) : Bool := risingKeys m && m.all fun c => c.2 != 0

/-- A space and an address in it as one number, so that pending writes are compared: device addresses are themselves. -/
def memKey (sp a : Nat) : Nat := if sp = 0 ∨ sp = 11 then a else 2 ^ 58 * sp + a

/-- A byte of device memory as the slice of its line holds it, written bytes of the caches before those of memory (R192). -/
def sliceByte (s : State) (a : Nat) : Byte := (sget? s.l2 a).getD (memByte s.mem a)

def bitsOf (x hi lo : Nat) : Nat := x / 2 ^ lo % 2 ^ (hi + 1 - lo)

/-- A page table leads to a physical page through a leaf that lets caches hold it (R187, R189, R194). -/
def cachedBy (s : State) (pa : Nat) : List (Nat × Nat × Nat) → Nat → Bool
  | [], _ => false
  | (level, hi, lo) :: rest, table =>
    (List.range (2 ^ (hi + 1 - lo))).any fun i =>
      let e := leNat ((List.range 8).map fun k => sliceByte s (table + 8 * i + k))
      let span := if level = 3 then 30 else if level = 4 then 21 else 16
      if decide (table + 8 * i + 8 > physTop) || bitsOf e 0 0 == 0 then false
      else if bitsOf e 1 1 = 1 then cachedBy s pa rest (2 ^ 12 * bitsOf e 56 12)
      else if bitsOf e 6 5 = 0 ∨ bitsOf e 7 7 = 1 then false
      else if bitsOf e 8 8 = 1 then (range? s (bitsOf e 62 57)).any fun r => r.bases.any fun b => decide (b ≤ pa) && decide (pa < b + r.size)
      else pa / 2 ^ span == 2 ^ 12 * bitsOf e 56 12 / 2 ^ span

/-- The five levels of R187: number and index bits. -/
def levels : List (Nat × Nat × Nat) := [(1, 56, 48), (2, 47, 39), (3, 38, 30), (4, 29, 21), (5, 20, 16)]

/-- Some context maps the page of a physical address for the caches: an uncached alias then reads what the caches hold (R186);
where none does, written bytes are left from an earlier mapping and are not read (R194). -/
def cachedAlias (s : State) (pa : Nat) : Bool := s.ctxs.any fun c => cachedBy s pa levels c.2.root

/-- A byte as the home of its line holds it (R192, R194, R239); of a peer, whatever the peer answers (R397). -/
def homeByte (s : State) (sp a : Nat) : Byte :=
  if sp = 0 then sliceByte s a
  else if sp = 11 then (match sget? s.l2 a with
    | some b => if cachedAlias s a then b else memByte s.mem a
    | none => memByte s.mem a)
  else if sp = 1 then memByte s.hostMem a
  else Config.peerByte s.tick (memKey sp a)

/-- The byte a pending write holds for an address, if it covers it. -/
def PendWrite.byte? (p : PendWrite) (k : Nat) : Option Byte :=
  if p.addr ≤ k ∧ k < p.addr + p.data.length then p.data[k - p.addr]? else none

/-- A byte as the threads of a die see it: the latest write of the die not yet performed, else the home (R186, R231). -/
def viewByte (s : State) (d sp a : Nat) : Byte :=
  (s.pend.foldl (fun v p => if p.die = d then (match p.byte? (memKey sp a) with | some b => some b | none => v) else v) none).getD
    (homeByte s sp a)

def homeBytes (s : State) (sp a n : Nat) : List Byte := (List.range n).map fun i => homeByte s sp (a + i)

def viewBytes (s : State) (d sp a n : Nat) : List Byte := (List.range n).map fun i => viewByte s d sp (a + i)

/-! ## Which write a load reads (R228 to R235)

Writes are performed one at a time, in the order of `hist`, which is the coherence order of every byte. A load of a die may
read a write older than the newest, as long as the die need not yet see the newer ones: `View` says which it must. -/

/-- The agent that stands for every write to host memory in a view (R237). -/
def hostAgent : Nat := 15

/-- The number of the write last performed. -/
def lastStamp (s : State) : Nat := (s.hist.head?.map (·.stamp)).getD 0

/-- The larger of two entries at a key. -/
def raise (m : List (Nat × Nat)) (k v : Nat) : List (Nat × Nat) := if v ≤ (sget? m k).getD 0 then m else sput m k v

/-- What both views cover together. -/
def View.join (a b : View) : View :=
  { clock := b.clock.foldl (fun m p => raise m p.1 p.2) a.clock, seen := b.seen.foldl (fun m p => raise m p.1 p.2) a.seen }

def viewOf (s : State) (d : Nat) : View := s.views[d]?.getD View.empty

/-- A die sees at least what a view covers from here on. -/
def learn (s : State) (d : Nat) (v : View) : State := { s with views := modAt s.views d (View.join · v) }

/-- What a release of a die covers once its writes are performed: all of them, and what the die has seen (R233). -/
def relView (s : State) (d : Nat) : View :=
  let v := viewOf s d
  { v with clock := raise v.clock d (lastStamp s) }

/-- A die must see a write (R231, R234): its own, or one that its view covers. -/
def mustSee (v : View) (d : Nat) (x : Ver) : Bool :=
  x.agent == d || decide (x.stamp ≤ (sget? v.clock x.agent).getD 0) ||
  (decide (2 ^ 58 ≤ x.addr) && decide (x.stamp ≤ (sget? v.clock hostAgent).getD 0)) ||
  (List.range x.old.length).any fun i => decide (x.stamp ≤ (sget? v.seen (x.addr + i)).getD 0)

/-- Two byte ranges have a common byte. -/
def overlaps (a n b m : Nat) : Bool := decide (a < b + m) && decide (b < a + n)

/-- The performed writes to the bytes of an access that a die need not see, newest first, down to the first that it must. -/
def unseen (s : State) (d k n : Nat) : List Ver :=
  (s.hist.filter fun x => overlaps x.addr x.old.length k n).takeWhile fun x => !mustSee (viewOf s d) d x

/-- Puts bytes b at address x over the bytes v at address a. -/
def overlay (a x : Nat) (b : List Byte) (v : List Byte) : List Byte :=
  v.mapIdx fun i y => if x ≤ a + i ∧ a + i < x + b.length then b[a + i - x]?.getD y else y

/-- The writes that an access does not read: none, or by the step's free number some of those that its die need not see. -/
def skipped (s : State) (d k n i : Nat) : List Ver :=
  if s.draw = 0 then [] else
  let u := unseen s d k n
  u.take (Config.choose s.draw i % (u.length + 1))

/-- The bytes of an access as a die reads them with some writes not read: a pending write of the die is the latest. -/
def readBytes (s : State) (d sp a n : Nat) (skip : List Ver) : List Byte :=
  if skip.isEmpty then viewBytes s d sp a n else
  let h := skip.foldl (fun v x => overlay (memKey sp a) x.addr x.old v) (homeBytes s sp a n)
  s.pend.foldl (fun v p => if p.die = d then overlay (memKey sp a) p.addr p.data v else v) h

/-- The performed writes that an access reads: of each byte the newest that is not skipped. -/
def sources (s : State) (k n : Nat) (skip : List Ver) : List Ver :=
  (List.range n).foldl (fun l i =>
    match s.hist.find? fun x => decide (x.addr ≤ k + i) && decide (k + i < x.addr + x.old.length) && !skip.contains x with
    | some x => if l.contains x then l else l ++ [x]
    | none => l) []

/-- What a die has seen by reading writes: their bytes of the access (R231). -/
def sawView (d k n : Nat) (xs : List Ver) : View :=
  { clock := [], seen := xs.foldl (fun m x => if x.agent = d then m else
      (List.range n).foldl (fun m i => if x.addr ≤ k + i ∧ k + i < x.addr + x.old.length then raise m (k + i) x.stamp else m) m) [] }

/-- What a reader that synchronises with the writes it reads learns (R232, R238): the device's releases, and with system scope
the host's and the peers' writes; of host memory everything up to them (R237). -/
def heardView (sys : Bool) (xs : List Ver) : View :=
  xs.foldl (fun v x =>
    if 5 ≤ x.agent ∧ x.agent < hostAgent then
      (if sys then v.join { clock := [(x.agent, x.stamp)], seen := [] } else v)
    else match x.rel with | some r => v.join r | none => v) View.empty

/-- The view that travels along an edge. -/
def edgeView (s : State) (e : Edge) : View := ((s.edges.find? (·.1 == e)).map (·.2)).getD View.empty

/-- A view is sent along an edge. -/
def sendAlong (e : Edge) (v : View) (s : State) : State :=
  { s with edges := (e, (edgeView s e).join v) :: s.edges.filter (·.1 != e) }

/-- Loads of a die that may still read a later write are bound for good where a later access of the die has a byte of theirs
(R231). -/
def bindOver (s : State) (d k n : Nat) : State :=
  { s with late := s.late.filter fun x => !(x.die == d && overlaps (memKey x.space x.addr) x.size k n) }

/-- Every such load of a die is bound for good: something that it happens-before may be observed. -/
def bindDie (s : State) (d : Nat) : State := { s with late := s.late.filter fun x => x.die != d }

/-- An access of a die has read writes: the die has seen them. -/
def sawBytes (s : State) (d k n : Nat) (skip : List Ver) : State :=
  learn (bindOver s d k n) d (sawView d k n (sources s k n skip))

/-! ## Errors -/

/-- An uncorrectable error in a check granule that an access of the die reads (R414, R430). -/
def eccHit (s : State) (d sp a n : Nat) : Bool :=
  (sp == 0 || sp == 11) && s.bad.any fun g => decide (8 * g < a + n) && decide (a < 8 * g + 8) &&
    !(s.pend.any fun p => p.die == d && decide (p.addr ≤ 8 * g) && decide (8 * g + 8 ≤ p.addr + p.data.length))

/-! ## Translation -/

/-- A byte of a page table as the walk of a die for an address sees it: a table write of the die that is not yet performed may
or may not be seen (R190). -/
def walkByte (s : State) (d va a : Nat) : Byte :=
  if viewByte s d 0 a = homeByte s 0 a then homeByte s 0 a
  else if Config.walkOld s.tick va then homeByte s 0 a else viewByte s d 0 a

/-- A table entry as the walk for an address reads it. -/
def pte (s : State) (d va a : Nat) : Nat := leNat ((List.range 8).map fun i => walkByte s d va (a + i))

/-- An entry that breaks a rule of R189 at its level, apart from V. -/
def pteMalformed (s : State) (e level : Nat) : Bool :=
  let t := bitsOf e 1 1 == 1
  let vs := bitsOf e 8 8 == 1
  let addr := bitsOf e 56 12
  let peer := bitsOf e 7 7 == 1 && bitsOf e 56 56 == 1 && !vs && !t
  (bitsOf e 63 63 == 1) || (bitsOf e 11 9 != 0) || (bitsOf e 62 57 != 0 && !vs) ||
  (vs && (t || addr != 0 || (range? s (bitsOf e 62 57)).isNone)) || (t && level == 5) || (!t && decide (level ≤ 2)) ||
  (!t && !vs && ((level == 3 && bitsOf e 29 12 != 0) || (level == 4 && bitsOf e 20 12 != 0) || (level == 5 && bitsOf e 15 12 != 0))) ||
  (peer && level != 5)

/-- The walk of R187: each level is indexed by its own address bits. -/
def walk (s : State) (d va : Nat) : List (Nat × Nat × Nat) → Nat → List Nat → Walk
  | [], _, _ => .malformed
  | (level, hi, lo) :: rest, table, lines =>
    let a := table + 8 * bitsOf va hi lo
    if a + 8 > physTop then .hole else
    let e := pte s d va a
    if bitsOf e 0 0 = 0 then .missing
    else if pteMalformed s e level then .malformed
    else if bitsOf e 1 1 = 1 then walk s d va rest (2 ^ 12 * bitsOf e 56 12) (lines ++ [a / 64])
    else .leaf e level (lines ++ [a / 64])

/-- The versioned slot an address of a VS leaf reaches (R332, R392): slot and offset, or the fault. -/
def vsSlot (s : State) (c : Nat) (gen : Nat → Option Nat) (rng va : Nat) (write : Bool) : Except (Code × Nat × Nat) (Nat × Nat) :=
  match range? s rng, (ctx? s c).bind fun x => (x.maps.find? (·.1 == rng)) with
  | some r, some (_, main, staging) =>
    if main ≤ va ∧ va < main + r.size then
      match gen rng with
      | some n => match slotOf r n with
        | some i => if write then .error (.prot, va, 0) else .ok (i, va - main)
        | none => .error (.version, rng, n)
      | none => .error (.version, rng, 0xFFFF)
    else if staging ≤ va ∧ va < staging + r.size then
      match indexWhere (fun (x : VState × Nat) => x.1 == .staging) r.slots with
      | some i => .ok (i, va - staging)
      | none => .error (.version, rng, 0xFFFF)
    else .error (.prot, va, 0)
  | _, _ => .error (.prot, va, 0)

/-- CXL.cache on the host link (R385, R386). -/
def cxl (s : State) : Bool := s.mgmt.linkMode == 4

/-- Translates a virtual address for a context (R184, R187 to R189, R332, R397). The missing-page fault carries the
access kind. -/
def translate (s : State) (d c : Nat) (gen : Nat → Option Nat) (va : DWord) (acc : Access) : Xlat :=
  let v := va.toNat
  if v ≥ 2 ^ 57 then .bad .prot va 0 else
  match walk s d v levels (((ctx? s c).map (·.root)).getD 0) [] with
  | .missing => .bad .page va (BitVec.ofNat 64 acc.kind)
  | .malformed => .bad .prot va 0
  | .hole => .hole
  | .leaf e level lines =>
    let r := bitsOf e 2 2 == 1
    let w := bitsOf e 3 3 == 1
    let x := bitsOf e 4 4 == 1
    let size := 5 - level
    let span := if level = 3 then 30 else if level = 4 then 21 else 16
    let sys := bitsOf e 7 7 == 1
    let cache := if sys && !cxl s then 0 else bitsOf e 6 5
    let ok := acc.need == 0 || (acc.need == 1 && r) || (acc.need == 2 && r && w) || (acc.need == 3 && x)
    let home := if cache = 0 then 11 else 0
    if bitsOf e 8 8 = 1 then
      match vsSlot s c gen (bitsOf e 62 57) v (acc.need == 2) with
      | .error (cd, d0, d1) => .bad cd (BitVec.ofNat 64 d0) (BitVec.ofNat 64 d1)
      | .ok (slot, off) =>
        if !ok then .bad .prot va 0 else
        let pa := (((range? s (bitsOf e 62 57)).bind fun q => q.bases[slot]?).getD 0) + off
        if pa ≥ physTop then .hole else
        .ok { space := home, addr := pa, r := r, w := w, x := x, size := size, cache := cache, sys := false
              vs := some (bitsOf e 62 57, slot), lines := lines }
    else
      let pa := 2 ^ 12 * bitsOf e 56 12 + v % 2 ^ span
      if !ok then .bad .prot va 0
      else if sys && bitsOf e 56 56 == 1 then
        .ok { space := 3 + bitsOf e 55 53, addr := 2 ^ 16 * bitsOf e 52 16 + v % 2 ^ 16, r := r, w := w, x := x
              size := size, cache := 0, sys := true, vs := none, lines := lines }
      else if sys then
        .ok { space := 1, addr := pa, r := r, w := w, x := x, size := size, cache := cache, sys := true, vs := none, lines := lines }
      else if pa ≥ physTop then .hole
      else .ok { space := home, addr := pa, r := r, w := w, x := x, size := size, cache := cache, sys := false, vs := none, lines := lines }

/-- The binding of a local context at a peer port that carries accesses (R396). -/
def boundTo (s : State) (port c : Nat) : Option Nat :=
  match s.ports[port]? with
  | some p => if p.up then (p.bindings.find? fun b => b.1 == c && b.2.2).map (·.2.1) else none
  | none => none

/-- The 64-byte page-table lines that accepted operations pin (R285, R305). -/
def pinnedLines (s : State) : List Nat := (s.copies.flatMap (·.pins)) ++ (s.matops.flatMap (·.pins))

/-! ## Templates in memory -/

/-- The 64 KiB pages of a virtual range as physical segments, where they translate now. -/
def rangeSegs (s : State) (c base size : Nat) : List (Nat × Nat) :=
  if size = 0 then [] else
  (List.range ((base + size - 1) / 65536 + 1 - base / 65536)).filterMap fun i =>
    let a := max base (65536 * (base / 65536 + i))
    let e := min (base + size) (65536 * (base / 65536 + i + 1))
    match translate s 4 c (genOfCtx s c) (BitVec.ofNat 64 a) { kind := 5, need := 0 } with
    | .ok l => if l.space = 0 ∨ l.space = 11 then some (l.addr, e - a) else none
    | _ => none

/-- Where a template's image lies (R130, R136): in the node's template area, or in pages of a backing pool. -/
def areaSegs (s : State) (t : Template) : List (Nat × Nat) :=
  (t.pages.map fun p => (p, 65536)) ++ rangeSegs s t.ctx t.areaVa.1 t.areaVa.2

/-- Where a template's heap lies (R134). -/
def heapSegs (s : State) (t : Template) : List (Nat × Nat) := rangeSegs s t.ctx t.heapVa.1 t.heapVa.2

/-- Some segment has a byte of an access. -/
def inSegs (xs : List (Nat × Nat)) (a n : Nat) : Bool := xs.any fun x => decide (x.1 < a + n) && decide (a < x.1 + x.2)

/-- A template's image holds a byte of an access (R136). -/
def areaHit (s : State) (a n : Nat) : Bool := s.tmpls.any fun t => inSegs (areaSegs s t) a n

/-- The template whose heap holds a byte of an access (R134, R136). -/
def heapHit (s : State) (a n : Nat) : Option Template := s.tmpls.find? fun t => inSegs (heapSegs s t) a n

/-- The private heap line of an instance, its nesting instances' included (R134, R138). -/
def heapLine (s : State) (gr : Group) (line : Nat) : Option Nat :=
  match sget? gr.heap line with
  | some p => some p
  | none => match gr.kind.tmpl?.bind (tmpl? s) with
    | none => none
    | some t => match t.owner.bind (group? s) with
      | none => none
      | some o => match sget? o.heap line with
        | some p => some p
        | none => match o.kind.tmpl?.bind (tmpl? s) with
          | none => none
          | some t2 => (t2.owner.bind (group? s)).bind fun o2 => sget? o2.heap line

/-- Where a group's own view puts a physical address (R134): its private line, or the address itself. -/
def viewAddr (s : State) (gr : Group) (a : Nat) : Nat :=
  match heapLine s gr (a / 256) with
  | some p => 256 * p + a % 256
  | none => a

/-- A template a group is an instance of, its nesting templates included, has the heap (R134). -/
def ownHeap (s : State) (gr : Group) (t : Template) : Bool :=
  match gr.kind.tmpl? with
  | none => false
  | some i => i == t.id || (match (tmpl? s i).bind fun x => (x.owner.bind (group? s)).bind fun o => o.kind.tmpl? with
    | none => false
    | some j => j == t.id || ((tmpl? s j).bind fun x => (x.owner.bind (group? s)).bind fun o => o.kind.tmpl?) == some t.id)

/-! ## Orrery leaves -/

/-- The leaf size in bytes of a region's element type (R244). -/
def Region.leaf (r : Region) : Nat := if r.ty = 2 then 8 else 4

/-- The physical address of leaf j on the pages recorded at declaration (R249). -/
def leafPa (r : Region) (j : Nat) : Nat :=
  let va := r.base + j * Region.leaf r
  65536 * (sget? r.leafPa (va / 65536)).getD 0 + va % 65536

/-- The leaf a physical address lies in. -/
def leafAt (r : Region) (a : Nat) : Option Nat :=
  match r.leafPa.find? fun x => x.2 == a / 65536 with
  | none => none
  | some (vp, _) =>
    let va := 65536 * vp + a % 65536
    let j := (va - r.base) / Region.leaf r
    if r.base ≤ va ∧ j < r.n then some j else none

/-- The leaves an access covers, rising, each once (R250). -/
def leavesIn (r : Region) (a n : Nat) : List Nat := ((List.range n).filterMap fun i => leafAt r (a + i)).foldl sins []

/-- The region of any context whose leaves an access touches. -/
def regionOf (s : State) (a n : Nat) : Option Region := s.regions.find? fun r => !(leavesIn r a n).isEmpty

/-- A physical address lies in a region's backing. -/
def inBacking (r : Region) (a : Nat) : Bool :=
  match r.backPa.find? fun x => x.2 == a / 65536 with
  | some (vp, _) => decide (r.backing ≤ 65536 * vp + a % 65536) && decide (65536 * vp + a % 65536 < r.backing + r.bsize)
  | none => false

/-- The region whose backing holds the lowest byte of an access that lies in any (R250). -/
def backingOf (s : State) (a n : Nat) : Option Region :=
  if s.regions.isEmpty then none else (List.range n).findSome? fun i => s.regions.find? fun r => inBacking r (a + i)

/-- Leaf bits as the region's numbers: F32 bits unsigned, S32 and S64 signed (R244). -/
def leafInt (r : Region) (x : Nat) : Int :=
  if r.ty = 0 then x else if r.ty = 1 then (BitVec.ofNat 32 x).toInt else (BitVec.ofNat 64 x).toInt

def leafVal (s : State) (r : Region) (j : Nat) : Int := leafInt r (leNat (homeBytes s 0 (leafPa r j) (Region.leaf r)))

/-- A leaf value that reads as negative (R251). -/
def negLeaf (r : Region) (v : Int) : Bool :=
  if r.ty = 0 then (decide (v ≥ 2 ^ 31) && v != 2 ^ 31) || decide (v % 2 ^ 31 > 0x7F800000) else decide (v < 0)

/-! ## Writes -/

/-- One byte at its home: past the caches for an uncached page (R192, R194). -/
def putHomeByte (s : State) (sp a : Nat) (b : Byte) : State :=
  if sp = 0 then { s with l2 := sput s.l2 a b }
  else if sp = 11 then { s with mem := memPut s.mem a b, l2 := sdel s.l2 a }
  else if sp = 1 then { s with hostMem := memPut s.hostMem a b }
  else s

def putHomeBytes (s : State) (sp : Nat) : Nat → List Byte → State
  | _, [] => s
  | a, b :: r => putHomeBytes (putHomeByte s sp a b) sp (a + 1) r

/-- Check granules an access covers whole lose their error (R430). -/
def clearEcc (s : State) (a n : Nat) : State :=
  { s with bad := s.bad.filter fun g => !(decide (a ≤ 8 * g) && decide (8 * g + 8 ≤ a + n)) }

/-- The update records of a write that turned state s0 into s1 (R250): one for each leaf covered, in increasing index,
each with its aligned four as they stand just after that element's write. -/
def recordsOf (s0 s1 : State) (r : Region) (a n : Nat) (src : Option (Nat × Nat)) : List URec :=
  (leavesIn r a n).map fun e =>
    { elem := e, old := leafVal s0 r e, new := leafVal s1 r e, src := src
      four := ((List.range 4).map fun i => 4 * (e / 4) + i).filterMap fun j =>
        if j < r.n then some (if j ≤ e then leafVal s1 r j else leafVal s0 r j) else none }

/-- A fresh exact accumulator, seeded with a leaf's F32 value (R216). -/
def seedAcc (leaf : Nat) (x : Nat) : ExactAcc :=
  let z : ExactAcc := { leaf := leaf, fix := 0, pinf := false, ninf := false, nan := false, count := 0 }
  match fdecode .f32 x with
  | .fin neg m e => { z with fix := sgnInt neg m * 2 ^ (e + 149).toNat }
  | .inf neg => { z with pinf := !neg, ninf := neg }
  | .nan => { z with nan := true }

/-- A write other than an exact AADD replaces the accumulators of the leaves it writes (R216). -/
def reseed (r : Region) (recs : List URec) : List ExactAcc :=
  r.accs.map fun x => match recs.find? (·.elem == (if r.ty = 2 then x.leaf / 2 else x.leaf)) with
    | some q => seedAcc x.leaf ((q.new % 2 ^ 64).toNat / 2 ^ (if r.ty = 2 then 32 * (x.leaf % 2) else 0) % 2 ^ 32)
    | none => x

/-- The performance counters of a core with an event, for the context that wrote them last (R368). -/
def countEvent (s : State) (core0 ctx event by_ : Nat) : State :=
  if (core s core0).perf.any fun p => p.2.toNat == ctx && p.1 / 2 ^ 56 == event then
    modCore s core0 fun c => { c with perf := c.perf.map fun p =>
      if p.2.toNat = ctx ∧ p.1 / 2 ^ 56 = event then (event * 2 ^ 56 + (p.1 % 2 ^ 48 + by_) % 2 ^ 48, p.2) else p }
  else s

/-- The core and context of a write's source, for the counter of records sent. -/
def countRecords (s : State) (src : Option (Nat × Nat)) (n : Nat) : State :=
  match src with
  | some (g, _) => match group? s g with
    | some x => if n = 0 then s else countEvent s x.core x.ctx 9 n
    | none => s
  | none => s

/-- What a write replaces is kept while some node runs, for fetches that may still read it (R229). -/
def keepOld (s t : State) (a n : Nat) : State :=
  if s.graphs.any fun g => g.nodes.any fun x => x.life == .running then { t with codeOld := (s.seqs, a, homeBytes s 0 a n) :: t.codeOld } else t

/-- A write takes its place in the coherence order of its bytes (R230). -/
def addVer (s : State) (agent : Nat) (rel : Option View) (sp a n : Nat) (t : State) : State :=
  { t with hist := { stamp := lastStamp s + 1, agent := agent, addr := memKey sp a, old := homeBytes s sp a n, rel := rel } :: t.hist }

/-- The update records of a write that turned state s0 into s1 (R250): of every region whose leaves it covers. -/
def sendRecords (s0 s1 : State) (a n : Nat) (src : Option (Nat × Nat)) (keep : Bool) (s : State) : State :=
  (s0.regions.filter fun r => !(leavesIn r a n).isEmpty).foldl (fun t r =>
    let recs := recordsOf s0 s1 r a n src
    modRegion (countRecords t src recs.length) r.ctx r.num fun q =>
      { q with recs := q.recs ++ recs, accs := if keep then q.accs else reseed q recs }) s

/-- A write to a page-table line drops the TLB entries that hold a translation read from it, and only those (R190): their `lines`
are what the sharer directory of each die records. -/
def dropTlbs (s : State) (a n : Nat) (t : State) : State :=
  { t with tlbs := s.tlbs.map fun x => (x.1, x.2.filter fun y => !(y.lines.any fun l => overlaps a n (64 * l) 64)) }

/-- The caches of a set of numbers hold the lines of an access no longer. -/
def dropCopies (q : Nat → Bool) (k n : Nat) (t : State) : State :=
  { t with caches := t.caches.map fun x => if q x.1 then (x.1, x.2.filter fun y => !overlaps (256 * y.line) 256 k n) else x }

/-- A write that no thread made leaves no copy in an L1 (R236), and one from outside the dies none in any cache (R238). -/
def dropOnWrite (agent sp a n : Nat) (t : State) : State :=
  if agent < 5 then t else dropCopies (fun k => decide (k < 384) || decide (agent < 16)) (memKey sp a) n t

/-- A write performed at its home (R192, R230, R239, R250, R430): the bytes, its place among the writes, the update records of
every leaf covered, and the error state of granules covered whole. Exact accumulators are replaced unless `keep`. -/
def homeWrite (s : State) (agent : Nat) (rel : Option View) (sp a : Nat) (data : List Byte) (src : Option (Nat × Nat)) (keep : Bool) : State :=
  let s1 := dropOnWrite agent sp a data.length (addVer s agent rel sp a data.length (putHomeBytes s sp a data))
  if sp = 0 ∨ sp = 11 then
    dropTlbs s a data.length <| sendRecords s s1 a data.length src keep (keepOld s (clearEcc s1 a data.length) a data.length)
  else s1

/-- The leaves that a write from outside would leave negative in a non-negative region (R251), with the bytes it keeps off. -/
def keptLeaves (s : State) (a : Nat) (data : List Byte) : List (Region × Nat) :=
  (s.regions.filter (·.nonneg)).flatMap fun r =>
    ((leavesIn r a data.length).filter fun j =>
      let b := (List.range (Region.leaf r)).map fun i =>
        let x := leafPa r j + i
        if a ≤ x ∧ x < a + data.length then data[x - a]?.getD 0 else homeByte s 0 x
      negLeaf r (leafInt r (leNat b))).map fun j => (r, j)

/-- The bytes of a write with those of the kept leaves as they stand. -/
def keepLeaves (s : State) (a : Nat) (data : List Byte) (ks : List (Region × Nat)) : List Byte :=
  data.mapIdx fun i b => if ks.any fun k => decide (leafPa k.1 k.2 ≤ a + i) && decide (a + i < leafPa k.1 k.2 + Region.leaf k.1) then homeByte s 0 (a + i) else b

/-- The address of the leaf entry that maps a page of a context, where the tables have one (R187). -/
def entryAddr (s : State) (c va : Nat) : Option Nat :=
  match walk s 4 va levels (((ctx? s c).map (·.root)).getD 0) [] with
  | .leaf _ level lines => (lines.getLast?).map fun l => 64 * l + 8 * (va / 2 ^ (if level = 3 then 30 else if level = 4 then 21 else 16) % 8)
  | _ => none

/-- The region with a page whose table entry a write changes (R249). -/
def entryOfRegion (s : State) (a n : Nat) : Option Region :=
  s.regions.find? fun r => (r.leafPa ++ r.backPa).any fun p => match entryAddr s r.ctx (65536 * p.1) with
    | some x => overlaps x 8 a n
    | none => false

/-- A write to device memory from outside, performed at its home: without effect on template pages (R136) and region
backings (R250), and on leaves that it would leave negative (R251); each is reported as event kind 5. No copy of the bytes
is left in a cache (R238), so that cached and uncached accesses alike read them (log entry 29). -/
def outsideWrite (s : State) (agent a : Nat) (data : List Byte) : State :=
  let n := data.length
  let own : Option Nat := match s.tmpls.find? fun t => inSegs (areaSegs s t ++ heapSegs s t) a n with
    | some t => some t.ctx
    | none => (backingOf s a n).map (·.ctx)
  match own with
  | some c => postCtx s c 5 a 0 0 none
  | none =>
    let ks := keptLeaves s a data
    let s0 := homeWrite s agent none 11 a (keepLeaves s a data ks) none false
    let s1 := match entryOfRegion s a n with
      | some r => postCtx s0 r.ctx 5 a 0 0 none
      | none => s0
    match ks with
    | [] => s1
    | k :: _ => postCtx s1 k.1.ctx 5 a 0 0 none

/-! ## Homes -/

/-- The halves over which a context's lines are homed (R197, R399): its partition's in private mode, every half in shared mode. -/
def homeHalves (s : State) (c : Nat) : List Nat :=
  match s.parts[(fn s (fnOfCtx s c)).part]? with
  | some p => if p.priv then (List.range 8).filter p.halves.getLsbD else List.range 8
  | none => List.range 8

/-- The home die of a line of a context (R197). -/
def homeDieOf (s : State) (c line : Nat) : Nat :=
  let ds := (homeHalves s c).foldl (fun l h => sins l (h / 2)) []
  ds[Config.homeDie line % max 1 ds.length]?.getD 0

/-- The number of the home slice of a line among the caches (R197). -/
def homeSliceOf (s : State) (c line : Nat) : Nat :=
  let d := homeDieOf s c line
  let xs := ((homeHalves s c).filter fun h => h / 2 == d).flatMap fun h => (List.range 12).map (12 * (h % 2) + ·)
  384 + 24 * d + xs[Config.homeSlice line % max 1 xs.length]?.getD 0

/-- The prior values that a slice holds for records not yet applied (R253). -/
def priorsAt (s : State) (slice : Nat) : Nat :=
  (s.regions.map fun r => (r.recs.filter fun q => homeSliceOf s r.ctx (leafPa r q.elem / 256) == slice).length).sum

/-- A slice keeps the prior value of each leaf write until its record is applied: of its 512 places too few are free (R253). -/
def slicesFull (s : State) (r : Region) (a n : Nat) : Bool :=
  decide (512 < (s.regions.map fun q => q.recs.length).sum + n) &&
    decide (512 < priorsAt s (homeSliceOf s r.ctx (a / 256)) + (leavesIn r a n).length)

/-- A leaf write is held at its slice: its region is under build (R259), or the slice has no room for what it replaces (R253). -/
def heldAtSlice (s : State) (sp a n : Nat) : Bool :=
  (sp == 0 || sp == 11) && (match regionOf s a n with | some r => r.building || slicesFull s r a n | none => false)

/-- A store that a peer page takes, sent to the remote context; refused, it is dropped (R397). -/
def sendPeer (s : State) (port c a : Nat) (data : List Byte) : State :=
  match boundTo s port c with
  | some remote => { s with ports := modAt s.ports port fun p => { p with sent := p.sent ++ [(remote, a, data)] } }
  | none => s

def keySpace (uncached : Bool) (k : Nat) : Nat := if k < 2 ^ 58 then (if uncached then 11 else 0) else k / 2 ^ 58

/-- The lines of a cache. -/
def linesIn (s : State) (k : Nat) : List CLine := (sget? s.caches k).getD []

/-- A line as a cache has it. -/
def lineIn (s : State) (k line : Nat) : Option CLine := (linesIn s k).find? (·.line == line)

/-- The cluster of a pending write's group. -/
def clusterOf (s : State) (p : PendWrite) : Option Nat := if p.die < 4 then (group? s p.group).map (·.core / 2) else none

/-- A write that its cluster's L1 holds as written, in a line with an error in a granule that has written bytes: the write-back of the
line meets the error (R414, R430). -/
def l1Spoiled (s : State) (p : PendWrite) : Bool :=
  p.level == 2 && s.errs.any fun x => match x with
    | .line c g => clusterOf s p == some c && 4 * g / 256 == p.addr / 256 &&
        s.pend.any fun q => q.level == 2 && clusterOf s q == some c && overlaps q.addr q.data.length (4 * g) 4
    | _ => false

/-- A write of the bytes from k on replaces whole granules of its cluster's L1, and their errors (R430). -/
def mendL1 (s : State) (p : PendWrite) : State :=
  if s.errs.isEmpty || p.level != 2 then s else mend s fun x => match x with
    | .line c g => clusterOf s p == some c && decide (p.addr ≤ 4 * g) && decide (4 * g + 4 ≤ p.addr + p.data.length)
    | _ => false

/-- Pending write p reaches its home. Writers 5 and up are the host and the peers. -/
def performWrite (s0 : State) (p : PendWrite) : State :=
  let s := mendL1 s0 p
  if 5 ≤ p.die then outsideWrite s p.die p.addr p.data else
  let sp := keySpace p.uncached p.addr
  let a := p.addr % 2 ^ 58
  if sp ≥ 3 ∧ sp ≤ 10 then
    sendPeer s (sp - 3) (((group? s p.group).map (·.ctx)).getD 0) a p.data
  else homeWrite s p.die p.rel sp a p.data (if p.die < 4 then some (p.group, p.warp) else none) false

/-- Pending write p, where it is the older, is performed before q. Writes of one die: to a common byte (R230), the lanes of one
store in increasing order on a region's leaves (R250), and to host memory those of one warp over PCIe, those before a
release of it, and the lower half of a 16-byte access before the upper (R185, R237). Writes from outside: to a common line
in the order in which they arrive, over PCIe all of the host, and those of one peer (R238). -/
def precedes (s : State) (p q : PendWrite) : Bool :=
  let host (x : PendWrite) : Bool := keySpace false x.addr == 1
  if 5 ≤ p.die then
    decide (5 ≤ q.die) && ((p.die == q.die && (!cxl s || decide (6 ≤ p.die))) ||
      overlaps (p.addr / 256) ((p.addr % 256 + p.data.length + 255) / 256) (q.addr / 256) ((q.addr % 256 + q.data.length + 255) / 256))
  else p.die == q.die && (overlaps p.addr p.data.length q.addr q.data.length ||
    (p.group == q.group && p.warp == q.warp &&
      ((host p && host q && (!cxl s || q.release || (p.lane == q.lane && p.half == 1 && q.half == 2 && q.addr == p.addr + 8))) ||
       (p.store == q.store && (regionOf s (p.addr % 2 ^ 58) p.data.length).isSome && decide (p.addr < 2 ^ 58)))))

/-- Splits pending writes: those that `hit` selects, with those of `last`, and every older one that precedes one of them;
and the rest. -/
def chain (s : State) (l : List PendWrite) (hit : PendWrite → Bool) (last : List PendWrite) : List PendWrite × List PendWrite :=
  l.foldr (fun p acc => if hit p || acc.1.any (precedes s p) then (p :: acc.1, acc.2) else (acc.1, p :: acc.2)) (last, [])

/-- Performs the pending writes that satisfy q, oldest first; the others stay, and with them each that has to follow one. -/
def drainIf (s : State) (q : PendWrite → Bool) : State :=
  let x := s.pend.foldl (fun (acc : State × List PendWrite) p =>
    if q p && !(acc.2.any fun r => precedes s r p) then (performWrite acc.1 p, acc.2) else (acc.1, acc.2 ++ [p])) (s, [])
  { x.1 with pend := x.2 }

/-- Every pending write of a die is performed and its loads are bound (R232, R233 edges 1, 2 and 4). Writes to the leaves of a
region under build stay at their slices, and those of a line that cannot be written back in their L1. -/
def drainDie (s : State) (d : Nat) : State :=
  drainIf (bindDie s d) fun p => p.die == d && !l1Spoiled s p && !heldAtSlice s (keySpace p.uncached p.addr) (p.addr % 2 ^ 58) p.data.length

/-- The pending writes of a die that cover a byte of an access, with every older write that precedes one of them. -/
def chainAt (s : State) (d k n : Nat) : List PendWrite × List PendWrite :=
  chain s s.pend (fun p => p.die == d && overlaps p.addr p.data.length k n) []

/-- Those writes are performed. -/
def drainAt (s : State) (d k n : Nat) : State :=
  let c := chainAt s d k n
  c.1.foldl performWrite { s with pend := c.2 }

/-- What a store carries beside its bytes (R123, R185, R194, R232, R237). -/
structure StoreTag where
  lane    : Nat
  level   : Nat
  half    : Nat
  release : Bool
  rel     : Option View

/-- The pending write of a store. -/
def pendOf (s : State) (d g w : Nat) (t : StoreTag) (sp a : Nat) (data : List Byte) : PendWrite :=
  { die := d, group := g, warp := w, lane := t.lane, addr := memKey sp a, data := data, atL1 := false, uncached := sp == 11, level := t.level
    store := s.tick, half := t.half, release := t.release, rel := t.rel }

/-- A store of a die: it joins the writes not yet performed, and the die sees it at once (R231, R239). -/
def storeView (s : State) (d g w : Nat) (t : StoreTag) (sp a : Nat) (data : List Byte) : State :=
  let s1 := bindOver s d (memKey sp a) data.length
  { s1 with pend := s1.pend ++ [pendOf s d g w t sp a data] }

/-- A store that is performed at its home within the step: sequential stores and device accesses (R235, R431). -/
def storeHome (s : State) (d g w : Nat) (t : StoreTag) (sp a : Nat) (data : List Byte) : State :=
  performWrite (drainAt (bindOver s d (memKey sp a) data.length) d (memKey sp a) data.length) (pendOf s d g w t sp a data)

/-- A device access is no lane's, and a release (R431). -/
def devTag : StoreTag := { lane := 32, level := 0, half := 0, release := true, rel := none }

/-! ## Device accesses -/

/-- A device access on behalf of a node or a context (R431): translated as the access needs, of aligned address. The
device sees memory as the homes hold it. -/
def devXlat (s : State) (c : Nat) (gen : Nat → Option Nat) (va : DWord) (align need : Nat) : DevRes Leaf :=
  if va.toNat ≥ 2 ^ 57 then .bad .prot va
  else if va.toNat % align ≠ 0 then .bad .align va
  else match translate s 4 c gen va { kind := 5, need := need } with
    | .ok l => .ok l
    | .bad .page _ _ => .wait va
    | .bad cd _ _ => .bad (if cd = .version then .version else .prot) va
    | .hole => .hole

/-- Reads n bytes, page by page: a 64 KiB page is crossed at its end. -/
def devReadGo (s : State) (c : Nat) (gen : Nat → Option Nat) : Nat → DWord → Nat → Nat → DevRes (List Byte)
  | 0, _, _, _ => .ok []
  | fuel + 1, va, align, n =>
    if n = 0 then .ok [] else
    let k := min n (65536 - va.toNat % 65536)
    match devXlat s c gen va align 1 with
    | .ok l => match devReadGo s c gen fuel (va + BitVec.ofNat 64 k) 1 (n - k) with
      | .ok r => .ok (homeBytes s l.space l.addr k ++ r)
      | .wait x => .wait x
      | .bad cd x => .bad cd x
      | .hole => .hole
    | .wait x => .wait x
    | .bad cd x => .bad cd x
    | .hole => .hole

def devRead (s : State) (c : Nat) (gen : Nat → Option Nat) (va : DWord) (align n : Nat) : DevRes (List Byte) :=
  devReadGo s c gen (n / 65536 + 2) va align n

/-- The physical pieces of n bytes at a virtual address: space, address, length. -/
def devPieces (s : State) (c : Nat) (gen : Nat → Option Nat) (need : Nat) : Nat → DWord → Nat → Nat → DevRes (List (Nat × Nat × Nat))
  | 0, _, _, _ => .ok []
  | fuel + 1, va, align, n =>
    if n = 0 then .ok [] else
    let k := min n (65536 - va.toNat % 65536)
    match devXlat s c gen va align need with
    | .ok l => match devPieces s c gen need fuel (va + BitVec.ofNat 64 k) 1 (n - k) with
      | .ok r => .ok ((l.space, l.addr, k) :: r)
      | .wait x => .wait x
      | .bad cd x => .bad cd x
      | .hole => .hole
    | .wait x => .wait x
    | .bad cd x => .bad cd x
    | .hole => .hole

/-- A piece of a device write: performed at its home, or waiting there with the leaf writes of a region under build (R259). -/
def putPiece (s : State) (rel : Option View) (sp a : Nat) (data : List Byte) : State :=
  if heldAtSlice s sp a data.length then storeView s 4 0 0 { devTag with rel := rel } sp a data
  else storeHome s 4 0 0 { devTag with rel := rel } sp a data

/-- Writes a byte string over pieces that cover it. -/
def putPieces (s : State) : List (Nat × Nat × Nat) → List Byte → State
  | [], _ => s
  | (sp, a, k) :: r, data => putPieces (putPiece s none sp a (data.take k)) r (data.drop k)

/-- A device write would touch a template (R136). -/
def piecesHit (s : State) (ps : List (Nat × Nat × Nat)) : Bool :=
  ps.any fun p => (p.1 == 0 || p.1 == 11) && (areaHit s p.2.1 p.2.2 || (heapHit s p.2.1 p.2.2).isSome)

def devWrite (s : State) (c : Nat) (gen : Nat → Option Nat) (va : DWord) (align : Nat) (data : List Byte) : DevRes State :=
  match devPieces s c gen 2 (data.length / 65536 + 2) va align data.length with
  | .ok ps => if piecesHit s ps then .bad .template va else .ok (putPieces s ps data)
  | .wait x => .wait x
  | .bad cd x => .bad cd x
  | .hole => .hole

/-- Adds 1 to a 32-bit word as a read-modify-write with device-scope release (R148, R151, R155, R213): `rel` is what the release
covers. Like an atomic it takes no peer page, and no host page without CXL.cache (R211, R397). -/
def devIncrement (s : State) (rel : View) (c : Nat) (gen : Nat → Option Nat) (va : DWord) : DevRes State :=
  match devXlat s c gen va 4 2 with
  | .ok l =>
    if (l.space == 1 && !cxl s) || (decide (3 ≤ l.space) && decide (l.space ≤ 10)) then .bad .prot va
    else if piecesHit s [(l.space, l.addr, 4)] then .bad .template va
    else
      let old := (sources s (memKey l.space l.addr) 4 []).foldl (fun v x => match x.rel with | some r => v.join r | none => v) rel
      .ok (putPiece s (some old) l.space l.addr (leBytes 4 ((leNat (viewBytes s 4 l.space l.addr 4) + 1) % 2 ^ 32)))
  | .wait x => .wait x
  | .bad cd x => .bad cd x
  | .hole => .hole

end Sys2Proof.Machine
end

