-- ==== Sys2Proof/Machine/Regs.lean ====
section
/-! DEFINITION. Registers, scratchpad and the core's pools: the one way to read and to write each. -/

namespace Sys2Proof.Machine

/-! ## Registers -/

/-- A value out of a list, or zero, by a number (R6). -/
def pickFrom {n : Nat} (l : List (BitVec n)) (k : Nat) : BitVec n :=
  match l with
  | [] => 0
  | _ => (0 :: l)[k % (l.length + 1)]?.getD 0

/-- The values that rows of register r may hold where nothing is written (R6). -/
def leftAt (left : List (Nat × List Word)) (r : Nat) : List Word := ((left.find? fun p => decide (p.1 ≤ r)).map (·.2)).getD []

/-- A stale register value (R6, R22): one of the protection domain's earlier values or zero, which of them is free by the
group's seed; zero in fixed-star mode. -/
def staleReg (seed : Option Nat) (left : List (Nat × List Word)) (w key : Nat) : Word :=
  match seed with
  | some n => pickFrom (leftAt left (key / 32)) (Config.stale n (8192 * w + key))
  | none => 0

/-- A register of a template's image (R130, R131). -/
def tmplReg (t : Template) (w key : Nat) : Word :=
  match (t.regs.find? (·.1 == w)).bind fun x => sget? x.2 key with
  | some v => v
  | none => staleReg t.seed t.left w key

/-- A warp holds a row of its own for a register: its group is no instance, the row is private (R132), or it is a
temporary row of the handler (R353). -/
def ownsRow (gr : Group) (wp : Warp) (r : Nat) : Bool :=
  gr.kind.tmpl?.isNone || wp.priv.contains r || (match wp.handler with | some h => h.temps.contains r | none => false)

/-- Register r in lane l (R20, R131). -/
def regRead (s : State) (gr : Group) (wp : Warp) (r l : Nat) : Word :=
  let own := (sget? wp.regs (32 * r + l)).getD (staleReg gr.seed gr.left wp.index (32 * r + l))
  if ownsRow gr wp r then own
  else match gr.kind.tmpl?.bind (tmpl? s) with
    | some t => tmplReg t wp.index (32 * r + l)
    | none => own

/-- A pair in lane l, low half first (R20). -/
def pairRead (s : State) (gr : Group) (wp : Warp) (r l : Nat) : DWord :=
  BitVec.ofNat 64 ((regRead s gr wp r l).toNat + 2 ^ 32 * (regRead s gr wp (r + 1) l).toNat)

/-- n registers in lane l as one number, low register first. -/
def wideRead (s : State) (gr : Group) (wp : Warp) (r l : Nat) : Nat → Nat
  | 0 => 0
  | n + 1 => (regRead s gr wp r l).toNat + 2 ^ 32 * wideRead s gr wp (r + 1) l n

/-- The copy of a row from T that an instance's first write makes (R132). -/
def copyRow (s : State) (gr : Group) (wp : Warp) (r : Nat) : Warp :=
  if ownsRow gr wp r then wp
  else { wp with
    regs := (List.range 32).foldl (fun m l => sput m (32 * r + l) (regRead s gr wp r l)) wp.regs
    priv := sins wp.priv r }

/-- Writes register r in lane l of a warp whose row it owns; a future tag on it clears (R45), and an error in it is gone (R430). The value is one that the
protection domain has written (R6). -/
def setReg (wp : Warp) (r l : Nat) (v : Word) : Warp :=
  { wp with regs := sput wp.regs (32 * r + l) v, tags := wp.tags.filter (· != 32 * r + l)
            regBad := wp.regBad.filter (· != 32 * r + l), past := addNew wp.past v }

/-- The warp has a row of its own for register r from here on; an instance's copy is counted (R132, R368). -/
def ownRow (s : State) (g w r : Nat) : State :=
  match group? s g with
  | none => s
  | some gr => match gr.warps[w]? with
    | none => s
    | some wp =>
      if ownsRow gr wp r then s else modWarp (countEvent s gr.core gr.ctx 3 1) g w fun _ => copyRow s gr wp r

/-- Writes register r in lane l of group g, warp w, with the row copy of an instance (R132). -/
def writeReg (s : State) (g w r l : Nat) (v : Word) : State := modWarp (ownRow s g w r) g w fun x => setReg x r l v

/-- Writes n registers from r on in lane l, low register first. -/
def writeWide (s : State) (g w r l : Nat) : Nat → Nat → State
  | 0, _ => s
  | n + 1, v => writeWide (writeReg s g w r l (BitVec.ofNat 32 v)) g w (r + 1) l n (v / 2 ^ 32)

/-! ## Scratchpad -/

/-- A stale scratchpad byte (R6, R22). -/
def staleSpm (seed : Option Nat) (left : List Byte) (off : Nat) : Byte :=
  match seed with
  | some n => pickFrom left (Config.stale n (2 ^ 20 + off))
  | none => 0

/-- A scratchpad byte as its group sees it: its own granule, or T's (R131, R132). -/
def spmByte (s : State) (gr : Group) (off : Nat) : Byte :=
  let own := (sget? gr.spm off).getD (staleSpm gr.seed gr.leftSpm off)
  match gr.kind.tmpl?.bind (tmpl? s) with
  | some t => if gr.spmPriv.contains (off / 256) then own else (sget? t.spm off).getD (staleSpm t.seed t.leftSpm off)
  | none => own

def spmBytes (s : State) (gr : Group) (off n : Nat) : List Byte := (List.range n).map fun i => spmByte s gr (off + i)

/-- An instance's first write in a granule copies it from T (R132). -/
def copyGranule (s : State) (gr : Group) (q : Nat) : Group :=
  if gr.kind.tmpl?.isNone || gr.spmPriv.contains q then gr
  else { gr with
    spm := (List.range 256).foldl (fun m i => sput m (256 * q + i) (spmByte s gr (256 * q + i))) gr.spm
    spmPriv := sins gr.spmPriv q }

def putSpm (m : List (Nat × Byte)) : Nat → List Byte → List (Nat × Byte)
  | _, [] => m
  | a, b :: r => putSpm (sput m a b) (a + 1) r

/-- The lowest byte of an access to a scratchpad that meets an uncorrectable error (R414). -/
def spmError (gr : Group) (off n : Nat) : Option Nat := (gr.spmBad.find? fun q => overlaps (4 * q) 4 off n).map fun _ => off

/-- Writes scratchpad bytes of a group (an access never leaves its granule, R185); a check granule written whole loses its error
(R430). -/
def writeSpm (s : State) (g off : Nat) (data : List Byte) : State :=
  match group? s g with
  | none => s
  | some gr =>
    let c := copyGranule s gr (off / 256)
    modGroup s g fun _ => { c with
      spm := putSpm c.spm off data, spmBad := c.spmBad.filter fun q => !(decide (off ≤ 4 * q) && decide (4 * q + 4 ≤ off + data.length)), pastSpm := data.foldl addNew c.pastSpm }

/-! ## What a protection domain has written -/

/-- The register values that a context's groups have been given, those of departed groups among them (R6). -/
def domainPast (s : State) (c : Nat) : List Word :=
  (s.groups.filter fun g => g.2.ctx == c).foldl (fun a g => (g.2.warps.flatMap (·.past)).foldl addNew a) (((ctx? s c).map (·.left)).getD [])

/-- The same of scratchpad bytes. -/
def domainSpm (s : State) (c : Nat) : List Byte :=
  (s.groups.filter fun g => g.2.ctx == c).foldl (fun a g => g.2.pastSpm.foldl addNew a) (((ctx? s c).map (·.leftSpm)).getD [])

/-- A group as its registers and scratchpad are given to it (R6, R22): what it does not write holds values of its domain. -/
def withLeft (s : State) (gr : Group) : Group :=
  { gr with left := [(0, domainPast s gr.ctx)], leftSpm := domainSpm s gr.ctx }

/-- A group's values stay with its context as it leaves its core for good (R6). -/
def leaveValues (s : State) (gr : Group) : State :=
  modCtx s gr.ctx fun c => { c with left := (gr.warps.flatMap (·.past)).foldl addNew c.left, leftSpm := gr.pastSpm.foldl addNew c.leftSpm }

/-! ## The pools of a core -/

def residentOn (s : State) (c : Nat) : List Group :=
  (s.groups.map (·.2)).filter fun g => g.core == c && (g.life == .resident || g.life == .halted)

/-- The register rows a group holds (R127, R132, R353). -/
def rowsOf (gr : Group) : Nat :=
  let temps := (gr.warps.map fun w => match w.handler with | some h => h.temps.length | none => 0).sum
  match gr.kind.tmpl? with
  | some _ => (gr.warps.map fun w => w.priv.length).sum + temps
  | none => gr.warpsN * gr.granted + temps

/-- The rows of the template images a core has loaded (R133). -/
def imageRows (s : State) (c : Nat) : Nat :=
  ((core s c).images.map fun t => match tmpl? s t with | some x => x.warps.length * x.granted | none => 0).sum

def imageSpm (s : State) (c : Nat) : Nat :=
  ((core s c).images.map fun t => match tmpl? s t with | some x => x.spmSize | none => 0).sum

/-- Register rows of a split (R127). -/
def splitRows (sp : BitVec 16) : Nat := 512 * (sp.toNat % 32)
/-- Scratchpad bytes of a split. -/
def splitSpm (sp : BitVec 16) : Nat := 65536 * (sp.toNat / 32 % 32)

/-- Free rows of a core's pool (R139). -/
def freeRows (s : State) (c : Nat) : Nat :=
  splitRows (core s c).split - ((residentOn s c).map rowsOf).sum - imageRows s c

def freeSpm (s : State) (c : Nat) : Nat :=
  splitSpm (core s c).split - ((residentOn s c).map (·.spmSize)).sum - imageSpm s c

def freeWarps (s : State) (c : Nat) : Nat := 64 - ((residentOn s c).map fun g => (g.warps.filter fun w => !w.ended).length).sum

/-! ## Lanes -/

/-- Lanes that some hold has (R100). -/
def heldLanes (wp : Warp) : Mask := wp.holds.foldl (fun m h => m ||| h.lanes) 0

/-- Lanes that have not exited. -/
def aliveLanes (wp : Warp) : Mask := maskOf fun l => match wp.lanes[l]? with | some x => !x.exited | none => false

/-- The lane group at a program counter (R100): every lane there that has not exited. -/
def standing (wp : Warp) (pc : DWord) : Mask :=
  maskOf fun l => match wp.lanes[l]? with | some x => !x.exited && x.pc == pc | none => false

/-- The lane group at a program counter as far as it may issue: none of it while a lane of it is held (R100). -/
def lanesAt (wp : Warp) (pc : DWord) : Mask :=
  let m := standing wp pc
  if m &&& heldLanes wp = 0 then m else 0

/-- The lanes of a chosen lane group that are still there: those that the first word of the selection has brought to its
program counter are no part of it (R100, R101). -/
def chosenLanes (wp : Warp) (lg : LaneGroup) : Mask := lg.lanes &&& standing wp lg.pc &&& ~~~(heldLanes wp)

/-- Sets the program counter of the lanes of a mask. -/
def setPcs (wp : Warp) (m : Mask) (f : Nat → DWord) : Warp :=
  { wp with lanes := wp.lanes.mapIdx fun l x => if bit m l then { x with pc := f l } else x }

/-- Moves the lanes of a mask past their word (R25). -/
def advance (wp : Warp) (m : Mask) : Warp :=
  { wp with lanes := wp.lanes.mapIdx fun l x => if bit m l then { x with pc := x.pc + 8 } else x }

/-- The lowest program counter among the lanes that have not exited (R142). -/
def lowestPc (wp : Warp) : Option Nat :=
  (wp.lanes.filter fun x => !x.exited).foldl (fun m x => match m with
    | some v => some (min v x.pc.toNat)
    | none => some x.pc.toNat) none

/-! ## Words that wait to be accepted -/

/-- Drops every hold of a warp that satisfies q. -/
def dropHolds? (wp : Warp) (q : HoldRec → Bool) : Warp := { wp with holds := wp.holds.filter fun h => !q h }

/-- Every result of a warp has returned: a word of it that waits for results issues again (R372, R374). -/
def afterReturns (gr : Group) : Group :=
  { gr with warps := gr.warps.map fun w => if w.outs.isEmpty then dropHolds? w fun h => h.kind == .ret else w }

/-- The lane groups of a group that wait for acceptance or a slot issue again. -/
def retryGroup (g : Group) : Group :=
  { g with warps := g.warps.map fun w => dropHolds? w fun h => h.kind == .accept || h.kind == .slotWait }

/-- Lane groups that wait to be accepted issue again: what they waited for has changed. -/
def retryAccept (s : State) : State := { s with groups := s.groups.map fun p => (p.1, retryGroup p.2) }

/-! ## Pending results -/

/-- Every long-latency result has returned: the marked lanes' pending bits clear and the warp leaves its park (R44). -/
def unpark (wp : Warp) : Warp :=
  match wp.parked with
  | some m => if wp.outs.isEmpty then { wp with pending := wp.pending.filter fun k => !bit m (k % 32), parked := none } else wp
  | none => wp

/-- A marked word parks its warp for its live lanes (R44), beside those of the other word of its selection. -/
def park (live : Mask) (x : Warp) : Warp := unpark { x with parked := some (x.parked.getD 0 ||| live) }

/-- A result that is one of a load over a link (R398, R407). -/
def Away.owns (x : Away) : Outst → Bool
  | .value l r _ => l == x.lane && decide (x.reg ≤ r) && decide (r < x.reg + x.n)
  | _ => false

/-- Loads whose value has reached its register are bound for good: those of one register and lane, or of the whole warp. -/
def bindReg (s : State) (g w r l : Nat) : State :=
  { s with late := s.late.filter fun x => !(x.group == g && x.warp == w && x.lane == l && decide (x.reg ≤ r) && decide (r < x.reg + x.regs)) }
def bindWarp (s : State) (g w : Nat) : State := { s with late := s.late.filter fun x => !(x.group == g && x.warp == w) }

/-- The loads over a link of warp w of group g that still have a result to return. -/
def stillAway (s : State) (g w : Nat) : State :=
  { s with away := s.away.filter fun x => !(x.group == g && x.warp == w) ||
      ((warp? s g w).map fun wp => wp.outs.any (Away.owns x)).getD false }

end Sys2Proof.Machine
end

