-- ==== Sys2Proof/Machine/Life.lean ====
section
/-! DEFINITION. Completions, and how groups, grids, nodes, graphs, versions and contexts end. -/

namespace Sys2Proof.Machine

/-! ## Completions -/

/-- A completion entry (R393); phase and read position are filled in when it is written. -/
def completionEntry (id status result : Nat) : List Byte := leBytes 4 id ++ leBytes 1 status ++ zeros 3 ++ leBytes 8 result

def modQueue (s : State) (f q : Nat) (g : QPair → QPair) : State :=
  modFn s f fun x => { x with queues := x.queues.map fun p => if p.num = q then g p else p }

/-- A command completes: its entry waits for its ring (R393). -/
def complete (s : State) (c : Cmd) (status result : Nat) : State :=
  modQueue s c.fn c.queue fun p => { p with held := p.held ++ [completionEntry c.id status result], busy := p.busy.erase c.slot }

/-! ## Removing groups -/

/-- Frees the physical slots of a group on its core: each is cleared (R271, R272). -/
def freeSlots (s : State) (gr : Group) : State :=
  if gr.life = .queued ∨ gr.life = .saved then s else
  modCore s gr.core fun c => { c with slots := c.slots.mapIdx fun i x =>
    if (gr.slots.any fun p => p.2 == i) then AccSlot.clear else x }

/-- A group has left a core: images whose last instance there has ended or been saved are freed (R133), and a halt does not
outlast the last group (R360). -/
def freeImages (s : State) (c : Nat) : State :=
  modCore s c fun k => { k with
    images := k.images.filter fun t => (residentOn s c).any fun g => g.kind.tmpl? == some t
    halted := k.halted && !(residentOn s c).isEmpty }

/-- A group leaves the device with everything that was its own. -/
def removeGroup (s : State) (g : Nat) : State :=
  match group? s g with
  | none => s
  | some gr =>
    let s1 := leaveValues (freeSlots s gr) gr
    let s2 := { s1 with
      groups := sdel s1.groups g
      dies := s1.dies.map fun d => { d with queue := d.queue.filter (· != g) }
      copies := s1.copies.filter (·.group != g)
      matops := s1.matops.filter (·.group != g)
      issue := s1.issue.filter (·.group != g)
      away := s1.away.filter (·.group != g)
      late := s1.late.filter (·.group != g)
      gangs := (s1.gangs.map fun x => { x with groups := x.groups.filter (· != g) }).filter fun x => !x.groups.isEmpty }
    let s3 := modCore s2 gr.core fun c => { c with active := c.active.filter (·.1 != g), launches := c.launches.filter (·.1 != g) }
    let s4 := modCtx s3 gr.ctx fun c => { c with frames := c.frames.filter fun f => f.2.2 != g }
    retryAccept (freeImages s4 gr.core)

/-! ## Nodes and graphs -/

/-- The grids of a node. -/
def gridsOf (s : State) (g n : Nat) : List Grid := s.grids.filter fun x => x.graph == g && x.node == n

/-- No group of the node is left. -/
def nodeIdle (s : State) (g n : Nat) : Bool :=
  let ids := (gridsOf s g n).map (·.id)
  !(s.groups.any fun x => ids.contains x.2.grid)

/-! ## Versions -/

/-- A node has its generations in effect while it runs, and a failed one while its groups do (R160, R334). -/
def nodeHolds (s : State) (g n : Nat) (x : Node) : Bool :=
  x.life == .running || x.life == .ending || (x.life == .failed && !nodeIdle s g n)

/-- A generation of a range is in effect for a running node or iteration, or pinned (R334). -/
def genHeld (s : State) (rng gen : Nat) : Bool :=
  (s.ctxs.any fun c => c.2.pins.contains (rng, gen)) ||
  (s.graphs.any fun g => !g.ended && (List.range g.nodes.length).any fun i => match g.nodes[i]? with
    | some n => nodeHolds s g.id i n && nodeGen s g.id i rng == some gen
    | none => false)

/-- Live slots that nothing holds become free, and the lowest free slot becomes staging when there is none (R334). -/
def settleRange (s : State) (r : VRange) : VRange :=
  let slots := r.slots.map fun x => if x.1 == .live && !genHeld s r.num x.2 then (.free, x.2) else x
  let slots := if slots.any (·.1 == .staging) then slots else
    match indexWhere (fun (x : VState × Nat) => x.1 == .free) slots with
    | some i => modAt slots i fun x => (.staging, x.2)
    | none => slots
  { r with slots := slots }

def settleRanges (s : State) : State := { s with ranges := s.ranges.map (settleRange s) }

/-- A detected uncorrectable error is counted by the kind of its array (R411, R430): 0 the arrays checked per 32 bits, 1 the L2, 2
LPDDR-6, 3 the links. -/
def countEcc (s : State) (kind : Nat) : State := { s with mgmt := { s.mgmt with uncorrected := modAt s.mgmt.uncorrected kind (· + 1) } }

/-- The kind of array of an error found in the line of an address (log entry 41). -/
def eccKind (s : State) (a : Nat) : Nat :=
  match s.bad.find? fun g => 8 * g / 256 == a / 256 with
  | some g => if Config.errorAbove g then 1 else 2
  | none => 0

/-! ## The end of nodes and graphs -/

/-- Stops a node's grids: no further group starts, and queued groups are discarded (R160). -/
def stopGrids (s : State) (g n : Nat) : State :=
  let ids := (gridsOf s g n).map (·.id)
  let queued := (s.groups.filter fun x => ids.contains x.2.grid && x.2.life == .queued && x.2.logits.isNone).map (·.1)
  queued.foldl removeGroup { s with grids := s.grids.map fun x => if ids.contains x.id then { x with stopped := true } else x }

/-- The slot commands still open for a graph complete: all with one status, or as the slots stand (R160, R392). -/
def closeSlotCmds (s : State) (g : Graph) (status : Nat) (res : SlotCmd → Nat) : State :=
  g.slotCmds.foldl (fun s c => complete s c.cmd status (res c))
    (modGraph s g.id fun x => { x with slotCmds := [] })

/-- The views on their way in a graph, that of its submission among them, go with it. -/
def dropEdges (s : State) (g : Nat) : State :=
  { s with edges := s.edges.filter fun p => match p.1 with
      | .node x _ => x != g
      | .grid x => s.grids.any fun y => y.id == x && y.graph != g
      | .fences => true }

/-- A failed graph ends once every node that was running has ended (R160): a stage set with the last of its groups. -/
def graphEndCheck (s : State) (g : Nat) : State :=
  match graph? s g with
  | none => s
  | some x => match x.failed with
    | none => s
    | some (n, reason) =>
      let busy := (List.range x.nodes.length).any fun i => match x.nodes[i]? with
        | some y => (y.life == .running && y.kind != 3 && (y.kind != 2 || !nodeIdle s g i)) || y.life == .ending || (y.life == .failed && !nodeIdle s g i)
        | none => false
      if x.ended || busy then s else
      let s1 := closeSlotCmds s x 4 fun _ => 0
      let s2 := modGraph s1 g fun y => { y with ended := true, nodes := y.nodes.map fun z => if z.life = .running then { z with life := .stopped } else z }
      complete { dropEdges s2 g with grids := s2.grids.filter (·.graph != g), tmpls := s2.tmpls.filter fun t => !((s2.grids.filter (·.graph == g)).any (·.id == t.grid)) }
        x.cmd 4 (n + 65536 * reason)

/-- A node fails (R160): its queued and undispatched groups are discarded; stage sets stop, host-wait nodes end. -/
def failNode (s : State) (g n reason : Nat) : State :=
  match graph? s g with
  | none => s
  | some x => if x.ended then s else
    let s1 := modGraph s g fun y => { y with
      failed := match y.failed with | some f => some f | none => some (n, reason)
      nodes := y.nodes.mapIdx fun i z =>
        if i = n then (if z.life == .done then z else { z with life := .failed })
        else if z.kind == 4 && z.life == .running then { z with life := .stopped } else z }
    let sets := (List.range x.nodes.length).filter fun i => match x.nodes[i]? with
      | some y => i == n || (y.kind == 2 && y.life == .running)
      | none => false
    settleRanges (graphEndCheck (sets.foldl (fun s i => stopGrids s g i) s1) g)

/-- The node of a group's grid, as graph and node. -/
def nodeOf (s : State) (gr : Group) : Option (Nat × Nat) := (grid? s gr.grid).map fun g => (g.graph, g.node)

def failGroupNode (s : State) (gr : Group) (reason : Nat) : State :=
  match nodeOf s gr with
  | some (g, n) => failNode s g n reason
  | none => s

/-- %clock for a group (R175). -/
def clockOf (s : State) (gr : Group) : DWord :=
  if fixedOf s gr.grid then BitVec.ofNat 64 gr.phases
  else BitVec.ofNat 64 (s.timebase / 2 ^ (((ctx? s gr.ctx).map fun c => c.clockdiv.toNat).getD 0))

/-- A fault record of the device itself (R431): word address 0, the address in detail 0. -/
def deviceFault (s : State) (c : Code) (va : DWord) : FaultRec :=
  { code := c, handler := false, deferred := false, lanes := 0, live := 0, atPc := 0, pc := 0, word := 0, d0 := va, d1 := 0
    clock := BitVec.ofNat 64 s.timebase, warp := 0 }

/-- A deferred fault waits in its warp (R286, R314). -/
def deferTo (s : State) (g w cls : Nat) (c : Code) (d0 d1 : DWord) : State :=
  modWarp (if c = .eccu then countEcc s (eccKind s d0.toNat) else s) g w fun x => { x with deferred := x.deferred ++ [(cls, { (deviceFault s c d0) with deferred := true, d1 := d1, warp := x.index })] }

/-- A device access on a node's behalf was refused (R431). -/
def devRefused (s : State) (c g n : Nat) (code : Code) (va : DWord) : State :=
  failNode (postCtx s c 1 va.toNat 0 0 (some (deviceFault s code va))) g n 5

/-- A device step waits for a page (R431, R395): it is tried again once a PAGE_READY has named the page. -/
def devWait (s : State) (i : Instr) (c : Nat) (va : DWord) : State :=
  postCtx { s with waits := s.waits ++ [(i, c, va)] } c 9 va.toNat 5 0 none

/-- A device step is waiting for a page. -/
def waiting (s : State) (i : Instr) : Bool := s.waits.any fun w => w.1 == i

/-! ## Contexts -/

/-- A whole graph fails (R160, R358, R392): its running nodes in increasing index, or its first node not done when none
runs. -/
def failGraph (s : State) (g : Graph) (reason : Nat) : State :=
  let those (p : Node → Bool) : List Nat := (List.range g.nodes.length).filter fun i => match g.nodes[i]? with | some n => p n | none => false
  let running := those fun n => n.life == .running || n.life == .ending
  let chosen := if running.isEmpty then (those fun n => n.life != .done).take 1 else running
  chosen.foldl (fun t i => failNode t g.id i reason) s

/-- The domain of a core whose context is gone: no K_CTXID has this number, so the next context finds the core cleared
(R366). -/
def goneDomain : Nat := 4096

/-- A context leaves the device: its groups are discarded, its regions dropped, its graphs fail (R358, R392). A submission
that waited for one of its pages is looked at again and finds no context. -/
def discardCtx (s : State) (c reason : Nat) : State :=
  let s1 := ((s.groups.filter fun x => x.2.ctx == c).map (·.1)).foldl removeGroup s
  let s2 := { s1 with regions := s1.regions.filter (·.ctx != c) }
  let s3 := (s2.graphs.filter fun g => g.ctx == c && !g.ended).foldl (fun t g => failGraph t g reason) s2
  let commands := (s3.waits.filter fun w => w.2.1 == c && (match w.1 with | .submitGraph _ => true | _ => false)).map (·.1)
  settleRanges { s3 with
    ctxs := sdel s3.ctxs c, waits := s3.waits.filter fun w => w.2.1 != c
    agenda := s3.agenda ++ commands
    tlbs := s3.tlbs.map fun p => (p.1, p.2.filter fun t => t.ctx != c)
    entries := s3.entries.filter fun p => p.1 % 2 ^ 20 / 256 != c
    cores := s3.cores.map fun k => if k.2.domain = c then (k.1, { k.2 with domain := goneDomain }) else k
    ports := s3.ports.map fun p => { p with bindings := p.bindings.filter fun b => b.1 != c } }

/-- Ends a context (R358); the events are posted: the record being handled as kind 1, the cause as kind 2. -/
def contextEnd (s : State) (c : Nat) (handled : Option FaultRec) (cause : FaultRec) : State :=
  let f := fnOfCtx s c
  let s1 := discardCtx s c 5
  let s2 := match handled with
    | some r => postEvent s1 f (eventEntry 1 c r.pc.toNat 0 0 (some r))
    | none => s1
  postEvent s2 f (eventEntry 2 c cause.pc.toNat 0 0 (some cause))

/-! ## Errors met by a write-back -/

/-- The page tables of context c lead to a physical address (R187 to R189, R332). -/
def mapsPage (s : State) (c pa : Nat) : List (Nat × Nat × Nat) → Nat → Bool
  | [], _ => false
  | (level, hi, lo) :: rest, table =>
    (List.range (2 ^ (hi + 1 - lo))).any fun i =>
      let e := leNat (homeBytes s 0 (table + 8 * i) 8)
      let span := if level = 3 then 30 else if level = 4 then 21 else 16
      if decide (table + 8 * i + 8 > physTop) || bitsOf e 0 0 == 0 || pteMalformed s e level then false
      else if bitsOf e 1 1 = 1 then mapsPage s c pa rest (2 ^ 12 * bitsOf e 56 12)
      else if bitsOf e 8 8 = 1 then
        (((ctx? s c).map fun x => x.maps.any (·.1 == bitsOf e 62 57)).getD false) &&
          ((range? s (bitsOf e 62 57)).map fun r => r.bases.any fun b => decide (b ≤ pa) && decide (pa < b + r.size)).getD false
      else bitsOf e 7 7 == 0 && pa / 2 ^ span == 2 ^ 12 * bitsOf e 56 12 / 2 ^ span

/-- The contexts that own the page of a line (R414): those whose tables lead to it, or whose instances have it as a private
heap line (log entry 41). -/
def ownersOf (s : State) (pa : Nat) : List Nat :=
  (s.ctxs.filter fun c => mapsPage s c.1 pa levels c.2.root || s.groups.any fun g => g.2.ctx == c.1 && g.2.heap.any fun h => h.2 == pa / 256).map (·.1)

/-- A granule in error in a cache's copy, with written bytes in it. -/
def dirtyBad (s : State) (g : Nat) : Bool := Config.errorAbove g && (List.range 8).any fun i => (sget? s.l2 (8 * g + i)).isSome

/-- Writing back a line meets an error. -/
def lineFails (s : State) (a : Nat) : Bool := s.bad.any fun g => 8 * g / 256 == a / 256 && dirtyBad s g

/-- WRITE_BACK_ECC_ERROR (R414): the error is posted on the management port, and the contexts that own the page end with an ECCU
record. -/
def writeBackError (s : State) (line kind : Nat) : State :=
  (ownersOf s line).foldl (fun t c => contextEnd t c none (deviceFault t .eccu (BitVec.ofNat 64 line))) (countEcc (postMgmt s [7, line]) kind)

/-- A line of the L2 that meets an error is not written, and memory keeps its bytes (R414). -/
def failLine (s : State) (a : Nat) : State :=
  let line := 256 * (a / 256)
  writeBackError { s with
    l2 := s.l2.filter fun p => decide (p.1 < line) || decide (line + 256 ≤ p.1)
    bad := s.bad.filter fun g => !(8 * g / 256 == a / 256 && Config.errorAbove g) } line 1

/-- A line of an L1 that meets an error is not written: what the cluster has written in it is lost (R414). -/
def failL1 (s : State) (p : PendWrite) : State :=
  let line := p.addr / 256
  let mine (q : PendWrite) : Bool := q.level == 2 && clusterOf s q == clusterOf s p && q.addr / 256 == line
  let s1 := mend s fun x => match x with
    | .line c g => clusterOf s p == some c && 4 * g / 256 == line
    | _ => false
  retryAccept (writeBackError (dropCopies (fun k => clusterOf s p == some k) (256 * line) 256 { s1 with pend := s1.pend.filter fun q => !mine q }) (256 * line) 0)

/-- Lines with an error that a cache writes back of itself (R192, R414): which, and when, is free. -/
def evictErrors (s : State) : State :=
  match s.bad.find? fun g => dirtyBad s g && Config.evicted s.tick (8 * g) with
  | some g => failLine s (8 * g)
  | none => s

end Sys2Proof.Machine
end

