-- ==== Sys2Proof/Machine/Save.lean ====
section
/-! DEFINITION. Save frames: their bytes (R364, R379) and the save of a group (R361 to R363, R191). -/

namespace Sys2Proof.Machine

/-- The loop around a group's node that has a batching table, innermost first (R325, R337). -/
def tableLoop (s : State) (gr : Group) : Option (Nat × Nat × Node) :=
  match grid? s gr.grid with
  | none => none
  | some g => match graph? s g.graph with
    | none => none
    | some x => ((loopsAround x g.node).filterMap fun i => (x.nodes[i]?).map fun n => (g.graph, i, n)).find?
        fun (p : Nat × Nat × Node) => p.2.2.k56 != 0

/-- %slot (R328): a body group or instance whose index is below the active count; every prologue, a nested one too (R138), has none. -/
def boundSlot (s : State) (gr : Group) : Option Nat :=
  match gr.kind with
  | .prologue => none
  | .nested _ => none
  | _ => (tableLoop s gr).bind fun p => p.2.2.active[gr.index]?

/-- A tensor-identifier entry's 64 bytes (R274). -/
def tensorBytes (t : Tensor) : List Byte :=
  leBytes 8 t.base ++ leBytes 1 t.format ++ leBytes 1 t.dims ++ leBytes 1 t.flags ++ leBytes 1 t.block ++
  (t.tiles.flatMap (leBytes 2)) ++ (t.sizes.flatMap (leBytes 4)) ++ (t.strides.flatMap (leBytes 4)) ++
  leBytes 4 t.rsv ++ leBytes 8 t.scale ++ leBytes 8 t.posns

/-- Reads an entry's 64 bytes (R274). -/
def tensorOf (b : List Byte) : Tensor :=
  { base := field b 0 8, format := field b 8 1, dims := field b 9 1, flags := field b 10 1, block := field b 11 1
    tiles := [field b 12 2, field b 14 2], sizes := (List.range 4).map fun i => field b (16 + 4 * i) 4
    strides := (List.range 3).map fun i => field b (32 + 4 * i) 4, rsv := field b 44 4, scale := field b 48 8, posns := field b 56 8 }

/-- A macro tag's 32 bytes; R364 gives the size only (log entry 21). -/
def tagBytes (t : Tag) : List Byte :=
  leBytes 2 t.ctx ++ leBytes 1 t.tid ++ leBytes 1 (match t.gen with | some _ => 3 | none => 1) ++ leBytes 4 t.count ++
  leBytes 4 t.k0 ++ leBytes 4 t.n0 ++ leBytes 4 t.i2 ++ leBytes 4 t.i3 ++
  (match t.gen with | some (r, g) => leBytes 4 r ++ leBytes 4 g | none => zeros 8)

def tagOf (b : List Byte) : Option Tag :=
  if field b 3 1 = 0 then none else
  some { ctx := field b 0 2, tid := field b 2 1, count := field b 4 4, k0 := field b 8 4, n0 := field b 12 4, i2 := field b 16 4
         i3 := field b 20 4, gen := if field b 3 1 = 3 then some (field b 24 4, field b 28 4) else none }

/-- A future entry's 8 bytes (R379). -/
def futureBytes (f : Future) : List Byte :=
  leBytes 2 f.gen ++ leBytes 1 ((if f.live then 1 else 0) + (if f.res then 2 else 0) + 4 * f.stat) ++ leBytes 1 f.kind ++ leBytes 4 f.landed

def futureOf (b : List Byte) : Future :=
  { gen := field b 0 2, live := field b 2 1 % 2 == 1, res := field b 2 1 / 2 % 2 == 1, stat := field b 2 1 / 4 % 8
    kind := field b 3 1 % 16, landed := field b 4 4, op := 0 }

/-- A section: kind, length, body (R364). -/
def section_ (kind : Nat) (body : List Byte) : List Byte := leBytes 2 kind ++ zeros 2 ++ leBytes 4 body.length ++ body

/-- The registers a warp's section holds: every one below the granted count, an instance's private ones only, and
temporary rows (R364). -/
def savedRegs (gr : Group) (wp : Warp) : List Nat :=
  let temps := match wp.handler with | some h => h.temps | none => []
  ((match gr.kind.tmpl? with | some _ => wp.priv | none => List.range gr.granted) ++ temps).foldl sins []

/-- The lanes whose key is in a rising list of 32 × register + lane keys. -/
def keyMask (ks : List Nat) (r : Nat) : Nat := (maskOf fun l => ks.contains (32 * r + l)).toNat

/-- The fault a warp section records: one taken and not entered, or a deferred one due (R353). -/
def pendingFault (wp : Warp) : Option FaultRec := match wp.fault with | some f => some f | none => wp.deferred.head?.map (·.2)

def warpSection (s : State) (gr : Group) (wp : Warp) : List Byte :=
  let rs := savedRegs gr wp
  section_ 1 (leBytes 4 wp.index ++ leBytes 4 (~~~(aliveLanes wp)).toNat ++
    leBytes 4 ((if wp.handler.isSome then 1 else 0) + (if (pendingFault wp).isSome then 2 else 0)) ++ zeros 4 ++
    (wp.lanes.flatMap fun l => leBytes 8 l.pc.toNat) ++
    leBytes 32 (rs.foldl (fun a r => a + 2 ^ r) 0) ++
    (rs.flatMap fun r => ((List.range 32).flatMap fun l => leBytes 4 (regRead s gr wp r l).toNat) ++
      leBytes 4 (keyMask wp.pending r) ++ leBytes 4 (keyMask wp.tags r)) ++
    (match pendingFault wp with | some f => faultBytes f | none => []))

def spmSection (s : State) (gr : Group) : List Byte :=
  if gr.spmSize = 0 then [] else
  match gr.kind.tmpl? with
  | some _ => section_ 2 (leBytes 480 (gr.spmPriv.foldl (fun a q => a + 2 ^ q) 0) ++ gr.spmPriv.flatMap fun q => spmBytes s gr (256 * q) 256)
  | none => section_ 2 (spmBytes s gr 0 gr.spmSize)

/-- The phase of the gang's barrier. -/
def gangPhase (s : State) (gr : Group) : Nat := ((gang? s gr.id).map (·.phase)).getD 0

def barSection (s : State) (gr : Group) : List Byte :=
  section_ 3 ((gr.bars.flatMap fun b => leBytes 4 b.phase) ++ (gr.bars.flatMap fun b => leBytes 4 (maskOf b.arrived.contains).toNat) ++
    leBytes 4 (gangPhase s gr) ++ leBytes 4 (if gr.gangIn then 1 else 0))

/-- INDEX of a handle word (R306). -/
def handleIndex (h : Word) : Nat := h.toNat % 128
def handleGen (h : Word) : Nat := h.toNat / 128 % 2 ^ 16

def copyRecord (c : Copy) : List Byte :=
  leBytes 4 c.handle.toNat ++ leBytes 4 c.next ++ c.block ++ (match c.src with | some t => tensorBytes t | none => zeros 64) ++
  (match c.dst with | some t => tensorBytes t | none => zeros 64) ++ c.idx.flatMap (leBytes 4)

/-- The unfinished copies of a group in increasing INDEX (R379). -/
def copiesOf (s : State) (g : Nat) : List Copy :=
  let cs := s.copies.filter (·.group == g)
  (List.range 128).flatMap fun i => cs.filter fun c => handleIndex c.handle == i

def futSection (s : State) (gr : Group) : List Byte :=
  if (gr.futures.any fun f => f.2.live) || s.copies.any (·.group == gr.id) then
    section_ 4 (((List.range 128).flatMap fun i => match sget? gr.futures i with | some f => futureBytes f | none => zeros 8) ++
      (copiesOf s gr.id).flatMap copyRecord)
  else []

/-- The contents of a group's logical slots, on its core or in its frame. -/
def slotContents (s : State) (gr : Group) : List (Nat × AccSlot) :=
  if gr.life = .saved then gr.savedSlots
  else gr.slots.filterMap fun p => ((core s gr.core).slots[p.2]?).map fun a => (p.1, a)

def slotBytes (a : AccSlot) : List Byte :=
  (List.range 2048).flatMap fun k => match sget? a.pairs k with
    | some (x, e) => leBytes 4 x.toNat ++ leBytes 4 e.toNat
    | none => zeros 8

def matSection (s : State) (gr : Group) : List Byte :=
  if gr.tagRecs.isEmpty && gr.slots.isEmpty then [] else
  section_ 5 (((List.range 8).flatMap fun m => match sget? gr.tagRecs m with
      | some t => tagBytes t.tag ++ tensorBytes t.entry
      | none => zeros 96) ++
    ((List.range 8).flatMap fun i => leBytes 1 (if (sget? gr.slots i).isSome then 1 else 0)) ++
    ((slotContents s gr).flatMap fun p => slotBytes p.2) ++
    ((s.matops.filter (·.group == gr.id)).flatMap fun m => leBytes 4 m.done ++
      leBytes 4 (match m.kind with | .mul _ _ _ _ _ _ h _ => h.toNat | _ => 0) ++ m.block))

/-- The trap frame of R353 and its slot. -/
def trapFrameVa (s : State) (gr : Group) (wp : Warp) : DWord :=
  (((ctx? s gr.ctx).map (·.trapframe)).getD 0) + BitVec.ofNat 64 (8192 * (12288 * dieOf gr.core + 64 * (gr.core % 192) + wp.slot))

/-- The generations in effect for a group's accesses. -/
def gens (s : State) (gr : Group) : Nat → Option Nat := genFor s gr

def trapSections (s : State) (gr : Group) : List (List Byte) :=
  gr.warps.filterMap fun wp => match wp.handler with
    | some h => match devRead s gr.ctx (gens s gr) h.frame 1 8192 with
      | .ok b => some (section_ 6 b)
      | _ => some (section_ 6 (zeros 8192))
    | none => none

def Cause.num : Cause → Nat
  | .preempt => 0 | .page => 1 | .deadlock => 2 | .split => 3 | .slice => 4 | .tsave => 5

def kindFlags (gr : Group) : Nat :=
  match gr.kind with
  | .instance_ _ => 1
  | .prologue => 2
  | .nested _ => 3
  | _ => 0

/-- A save frame (R364, R379): header and sections, rounded up to 256 bytes. -/
def frameBytes (s : State) (gr : Group) (cause : Cause) : List Byte :=
  let secs := gr.warps.map (warpSection s gr) ++ [spmSection s gr, barSection s gr, futSection s gr, matSection s gr] ++
    trapSections s gr ++ [if cause = .page then section_ 7 (match gr.waitVa with
      | some (va, kind, _) => leBytes 8 va.toNat ++ leBytes 1 kind ++ zeros 7 | none => zeros 16) else []]
  let body := secs.flatten
  let n := (64 + body.length + 255) / 256 * 256
  let node := match nodeOf s gr with | some (_, n) => n | none => 0
  leBytes 4 0x10000 ++ leBytes 4 n ++ leBytes 4 gr.ctx ++ leBytes 1 gr.warpsN ++ leBytes 1 (gr.granted / 8) ++
  leBytes 1 (kindFlags gr + (if gr.warps.any (·.handler.isSome) then 4 else 0) + (if ((grid? s gr.grid).map fun x => decide (1 < x.gangN)).getD false then 8 else 0)) ++
  leBytes 1 gr.depth ++ leBytes 8 (gr.grid % 2 ^ 40 + 2 ^ 40 * (gr.index % 2 ^ 24)) ++
  leBytes 8 (match gr.kind.tmpl?.bind (tmpl? s) with | some t => t.area | none => 0) ++
  leBytes 8 (match gr.heapPage with | some (p, _) => p | none => 0) ++ leBytes 4 gr.spmSize ++
  leBytes 2 (secs.filter fun x => !x.isEmpty).length ++ leBytes 2 gr.split.toNat ++ leBytes 2 node ++
  leBytes 2 ((boundSlot s gr).getD 0xFFFF) ++ leBytes 1 (Cause.num cause) ++ zeros 11 ++ body ++ zeros (n - 64 - body.length)

/-! ## Saving -/

/-- Every value on its way returns to its register; a result for an exited lane is discarded (R115, R361). -/
def returnOuts (s : State) (g w : Nat) : State :=
  match warp? s g w with
  | none => s
  | some wp =>
    let s1 := modWarp (bindWarp s g w) g w fun x => { x with outs := x.outs.filter fun o => match o with | .value _ _ _ => false | .entry _ => false | _ => true }
    let s2 := wp.outs.foldl (fun s o => match o with
      | .value l r v => if bit (aliveLanes wp) l then writeReg s g w r l v else s
      | _ => s) s1
    stillAway (modWarp s2 g w unpark) g w

/-- The user logit kernels that a group waits for (R342). -/
def subsOf (s : State) (g : Nat) : List Group :=
  (s.groups.map (·.2)).filter fun x => match x.kind with | .subgroup o _ _ => o == g | _ => false

/-- At a pre-emption the units first apply every record that has arrived for the regions of the group's partition (R266). -/
def recordsWait (s : State) (gr : Group) : Bool :=
  (gr.cause == some .preempt || gr.cause == some .slice) && s.regions.any fun r =>
    r.bound && !r.building && !r.recs.isEmpty && (fn s (fnOfCtx s r.ctx)).part == (fn s (fnOfCtx s gr.ctx)).part

/-- A frame lies in device memory (R363). -/
def frameHome (s : State) (c va n : Nat) : Bool :=
  (List.range ((n + 65535) / 65536)).all fun i => match devXlat s c (genOfCtx s c) (BitVec.ofNat 64 (va + 65536 * i)) 1 2 with
    | .ok l => l.space == 0 || l.space == 11
    | _ => true

/-- A group can be written to its frame: no query, read of an accumulator or chunk is on its way (R361, R289, R322). -/
def quiesced (s : State) (gr : Group) : Bool :=
  (((gr :: subsOf s gr.id).flatMap (·.warps)).all fun w => w.outs.all fun o => match o with | .value _ _ _ => true | .entry _ => true | _ => false) &&
  (s.copies.all fun c => c.group != gr.id || (c.flying.isEmpty && c.landing.isEmpty && c.cancel != 1)) &&
  (s.matops.all fun m => m.group != gr.id || !m.started || (match m.kind with | .mul .. => true | .epi .. => true | .stream .. => true | _ => false))

/-- A hold that stays in a saved group; the others end, and their word issues again (R362). -/
def Hold.stays : Hold → Bool
  | .barrier _ _ | .rearrive _ _ | .gang _ | .freeze _ | .tnest | .region _ _ | .ulcall _ _ => true
  | _ => false

/-- A held word completes in place: its lanes go on, and a marked one parks the warp (R44). -/
def endHold (h : HoldRec) (wp : Warp) : Warp :=
  let x := { advance wp h.lanes with holds := wp.holds.erase h }
  match h.instr with
  | some i => if marked i then park h.live x else x
  | none => x

/-- A warp at a save: a sleep is over, and its lanes go on (R153, R362); the other holds end but for those that stay; a word
that faulted PAGE issues again (R191); trap entry starts again (R353); what only the core held is gone (R54, R105, R114). -/
def dropHolds (wp : Warp) : Warp :=
  let x := (wp.holds.filter fun h => h.kind == .sleep).foldl (fun x h => endHold h x) wp
  { x with
    holds := x.holds.filter fun h => h.kind.stays
    fault := x.fault.filter fun r => r.code != .page
    predictor := [], yielding := none, wage := 0, affine := [], recent := [], line := none, trapHalt := false
    lanes := x.lanes.map fun l => { l with yields := 0, age := 0 } }

/-- The frame pool of a context (R363): base and size. -/
def framePool (s : State) (c : Nat) : DevRes (Nat × Nat) :=
  match ctx? s c with
  | none => .bad .prot 0
  | some x =>
    let va := BitVec.ofNat 64 (x.preempt.toNat % 2 ^ 57 / 64 * 64)
    match devRead s c (genOfCtx s c) va 64 64 with
    | .ok b =>
      if field b 0 8 % 65536 = 0 ∧ field b 8 8 % 65536 = 0 ∧ field b 0 8 < 2 ^ 57 ∧ (b.drop 16).all (· == 0) then .ok (field b 0 8, field b 8 8)
      else .bad .prot va
    | .wait v => .wait v
    | .bad cd v => .bad cd v
    | .hole => .hole

/-- The lowest run of free 64 KiB units of a pool. -/
def poolFit (frames : List (Nat × Nat × Nat)) (size need : Nat) : Option Nat :=
  ((List.range (size / 65536 + 1)).map (· * 65536)).find? fun o =>
    decide (o + need ≤ size) && frames.all fun f => decide (f.1 + f.2.1 ≤ o) || decide (o + need ≤ f.1)

/-- The group after its save: off its core, its slots in its frame (R289), its copies and matrix operations parked. -/
def takeOff (s : State) (gr : Group) (frame : Nat × Nat) : State :=
  let s1 := freeSlots s gr
  let s2 := modGroup s1 gr.id fun x => { x with
    life := .saved, frame := some frame, savedSlots := slotContents s gr, view := relView s (dieOf gr.core)
    warps := x.warps.map dropHolds }
  let s3 := { s2 with
    copies := s2.copies.map fun c => if c.group = gr.id then { c with parked := true, pins := [] } else c
    matops := s2.matops.map fun m => if m.group = gr.id then { m with parked := true, pins := [] } else m
    issue := s2.issue.filter (·.group != gr.id)
    groups := s2.groups.map fun p => match p.2.kind with
      | .subgroup o _ _ => if o = gr.id then (p.1, { p.2 with life := .saved, warps := p.2.warps.map dropHolds }) else p
      | _ => p }
  let gone := gr.id :: (subsOf s gr.id).map (·.id)
  retryAccept <| freeImages (modCore s3 gr.core fun c => { c with active := c.active.filter fun p => !gone.contains p.1 }) gr.core

/-- The save of a halted group (R361 to R364): its results return, its writes are performed, and its frame goes to the
context's pool. With no free run of units it stays halted; a malformed or unmapped pool ends the context. -/
def saveGroup (s : State) (g : Nat) : State :=
  match group? s g with
  | none => s
  | some gr0 => match gr0.life, gr0.cause with
    | .halted, some cause =>
      if quiesced s gr0 then
        let s1 := (gr0 :: subsOf s g).foldl (fun t x => (List.range x.warps.length).foldl (fun u w => returnOuts u x.id w) t)
          (drainDie s (dieOf gr0.core))
        match group? s1 g with
        | none => s1
        | some gr => if recordsWait s1 gr then s1 else
          match framePool s1 gr.ctx with
          | .ok (base, size) =>
            let f := frameBytes s1 gr cause
            let need := (f.length + 65535) / 65536 * 65536
            match poolFit (((ctx? s1 gr.ctx).map (·.frames)).getD []) size need with
            | some o => if !frameHome s1 gr.ctx (base + o) f.length then contextEnd s1 gr.ctx none (deviceFault s1 .prot (BitVec.ofNat 64 (base + o))) else
              match devWrite s1 gr.ctx (genOfCtx s1 gr.ctx) (BitVec.ofNat 64 (base + o)) 1 f with
              | .ok s2 =>
                let s3 := takeOff (modCtx s2 gr.ctx fun c => { c with frames := c.frames ++ [(o, need, g)] }) gr (base + o, f.length)
                match gr.waitVa with
                | some (va, kind, pool) => postCtx s3 gr.ctx 9 va.toNat kind (if pool then 1 else 0) none
                | none => s3
              | .wait va => contextEnd s1 gr.ctx none (deviceFault s1 .page va)
              | .bad cd va => contextEnd s1 gr.ctx none (deviceFault s1 cd va)
              | .hole => contextEnd s1 gr.ctx none (deviceFault s1 .prot 0)
            | none => if gr.short then s1 else postCtx (modGroup s1 g fun x => { x with short := true }) gr.ctx 3 base 0 0 none
          | .wait va => contextEnd s1 gr.ctx none (deviceFault s1 .page va)
          | .bad cd va => contextEnd s1 gr.ctx none (deviceFault s1 cd va)
          | .hole => contextEnd s1 gr.ctx none (deviceFault s1 .prot 0)
      else s
    | _, _ => s

/-- Stops a resident group and saves it, at once where it has quiesced (R361). -/
def haltAndSave (s : State) (g : Nat) (cause : Cause) : State :=
  match group? s g with
  | none => s
  | some gr => if gr.life = .resident then
      let subs := ((subsOf s g).filter fun x => x.life == .resident).map (·.id)
      let s1 := modGroup s g fun x => { x with life := .halted, cause := some cause }
      saveGroup (subs.foldl (fun t i => modGroup t i fun x => { x with life := .halted }) s1) g
    else s

end Sys2Proof.Machine
end

