-- ==== Sys2Proof/Machine/Ops.lean ====
section
/-! DEFINITION. The issue of a word, from its decode checks to its retirement, taking a fault and returning from one. -/

namespace Sys2Proof.Machine

/-! ## Taking a fault -/

/-- Every warp of a group stops for good (R357, R342). -/
def stopWarps (gr : Group) : Group :=
  { gr with warps := gr.warps.map fun w => { w with
      lanes := w.lanes.map fun l => { l with exited := true }
      holds := [], outs := [], parked := none, fault := none, ended := true } }

/-- A fault without a handler ends its group (R357): its warps stop, the record is posted, the node fails with FAULT. -/
def endFaultedGroup (s : State) (gr : Group) (r : FaultRec) : State :=
  failGroupNode (postCtx (modGroup s gr.id stopWarps) gr.ctx 1 r.pc.toNat 0 0 (some r)) gr 5

/-- The group that a PAGE of a group's word saves (R191): a user logit kernel is saved with its issuing group (R362). -/
def pagedGroup (gr : Group) : Nat := match gr.kind with | .subgroup owner _ _ => owner | _ => gr.id

/-- A PAGE of a group's word saves its group (R191, R395). -/
def savePaged (s : State) (gr : Group) (r : FaultRec) : State :=
  haltAndSave (modGroup s (pagedGroup gr) fun x => if x.life ≠ .resident then x else
    { x with waitVa := some (r.d0, r.d1.toNat % 256, r.d1.toNat / 256 == 1) }) (pagedGroup gr) .page

/-- The other word of a warp's selection has still to issue (R101). -/
def otherWord (s : State) (g w : Nat) : Bool := s.issue.any fun x => x.group == g && x.warp == w

/-- TAKING A FAULT (R349 to R351): a PAGE saves the group (R191, R395), after the other word of the selection; in a user
logit kernel any other fault ends the sub-group with its code (R342); elsewhere it is recorded in the warp, which stops
until trap entry. Of two faults of one selection the first is recorded and the second word counts as not executed. -/
def takeFault (s0 : State) (g w : Nat) (r : FaultRec) : State :=
  let s := if r.code = .eccu ∧ r.deferred = false then countEcc s0 (eccKind s0 r.d0.toNat) else s0
  match group? s g with
  | none => s
  | some gr =>
    if ((gr.warps[w]?).bind (·.fault)).isSome then s
    else if r.code = .page then
      if otherWord s g w then modWarp s g w fun x => { x with fault := some r } else savePaged s gr r
    else match gr.kind, gr.logits with
      | .subgroup _ _ _, some (b, _, slot, n) =>
        modGroup s g fun x => { stopWarps x with logits := some (b, Code.num r.code, slot, n) }
      | _, _ => modWarp s g w fun x => { x with fault := some r }

/-- The fault record of a word (R355). -/
def recordOf (s : State) (e : Env) (c : Code) (lanes : Mask) (d0 d1 : DWord) : FaultRec :=
  { code := c, handler := e.wp.handler.isSome, deferred := false, lanes := lanes, live := e.live, atPc := e.atPc, pc := e.pc
    word := e.word, d0 := d0, d1 := d1, clock := clockOf s e.gr, warp := e.wp.index }

/-! ## Trap entry -/

/-- The registers above the granted count that trap entry supplies as temporary rows (R353). -/
def tempRegs (granted : Nat) : List Nat := (List.range 16).map (240 + ·) |>.filter (granted ≤ ·)

/-- The bytes 0 to 6,143 of a trap frame (R354): the hardware never writes the rest. -/
def trapFrame (s : State) (gr : Group) (wp : Warp) (r : FaultRec) (temps : List Nat) : List Byte :=
  faultBytes r ++ leBytes 4 (~~~(aliveLanes wp)).toNat ++ zeros 4 ++ leBytes 1 (gr.granted / 8) ++ zeros 55 ++
  (wp.lanes.flatMap fun l => leBytes 8 l.pc.toNat) ++ zeros 128 ++
  ((List.range 256).flatMap fun k => leBytes 4 (keyMask wp.pending k)) ++
  ((List.range 256).flatMap fun k => leBytes 4 (keyMask wp.tags k)) ++ zeros 1536 ++
  ((List.range 16).flatMap fun j => (List.range 32).flatMap fun l =>
    leBytes 4 (if temps.contains (240 + j) then 0 else (regRead s gr wp (240 + j) l).toNat))

/-- A warp that holds a word which cannot be interrupted: a region operation or a user logit kernel. -/
def busyHold (wp : Warp) : Bool := wp.holds.any fun h => match h.kind with | .region _ _ => true | .ulcall _ _ => true | _ => false

/-- Steps 5 and 6 of R353 in the warp. -/
def enterWarp (ctxVec frame : DWord) (temps : List Nat) (r : FaultRec) (tagged : List (Nat × Word)) (wp : Warp) : Warp :=
  let w1 := temps.foldl (fun w k => { w with regs := (List.range 32).foldl (fun m l => sput m (32 * k + l) 0) w.regs }) wp
  { w1 with
    lanes := w1.lanes.map fun l => { l with pc := if l.exited then l.pc else ctxVec, yields := 0, age := 0 }
    pending := [], tags := w1.tags.filter fun k => k / 32 < 240
    predictor := [], holds := [], fault := none, yielding := none, trapHalt := false
    affine := w1.affine.filter fun r => decide (r < 240)
    handler := some { frame := frame, temps := temps, cause := r, tagged := tagged } }

/-- TRAP ENTRY (R353): the warp has stopped and its results have returned. A nested fault ends the context (R358);
without a handler the group ends (R357); while temporary rows are lacking, or a result is on its way, nothing changes
yet. Then the frame is written, under HALTTRAP the core halts first (R359), the registers v240 to v255 are the handler's,
and every lane takes K_TRAPVEC. -/
def enterHandler (s : State) (g w : Nat) : State :=
  match group? s g with
  | none => s
  | some gr => match gr.warps[w]? with
    | none => s
    | some wp => match wp.fault with
      | none => s
      | some r =>
        if gr.life ≠ .resident then s
        else if r.code = .page then savePaged (modWarp s g w fun x => { x with fault := none }) gr r
        else if wp.outs ≠ [] ∨ busyHold wp ∨ (wp.trapHalt ∧ (core s gr.core).halted) then s
        else match wp.handler with
          | some h => contextEnd s gr.ctx (some h.cause) { r with handler := true }
          | none =>
            let cx := (ctx? s gr.ctx).map fun c => (c.trapvec, c.trapframe, c.dbg)
            match cx with
            | none => endFaultedGroup s gr r
            | some (vec, base, dbg) =>
              if vec = 0 ∨ base = 0 then endFaultedGroup s gr r else
              let temps := tempRegs gr.granted
              if freeRows s gr.core < temps.length then s else
              let va := trapFrameVa s gr wp
              let s1 := drainDie (if (core s (2 * (gr.core / 2))).walkers.isEmpty then s else retryAccept s) (dieOf gr.core)
              match devWrite s1 gr.ctx (gens s gr) va 1 (trapFrame s gr wp r temps) with
              | .wait x => haltAndSave (modGroup s g fun q => { q with waitVa := some (x, 1, false) }) g .page
              | .bad c x => contextEnd s gr.ctx (some r) { (deviceFault s c x) with handler := true, clock := r.clock, warp := r.warp }
              | .hole => contextEnd s gr.ctx (some r) { (deviceFault s .prot va) with handler := true }
              | .ok s2 =>
                if dbg.getLsbD 1 && !wp.trapHalt then
                  modWarp (modCore s2 gr.core fun c => { c with halted := true }) g w fun x => { x with trapHalt := true }
                else
                let tagged := (wp.tags.filter fun k => 7680 ≤ k).map fun k => (k, regRead s gr wp (k / 32) (k % 32))
                let s3 := modWarp s2 g w (enterWarp vec va temps r tagged)
                (List.range 32).foldl (fun t l => writeWide t g w 240 l 2 va.toNat) s3

/-! ## Return from the handler -/

/-- The warp after TRET has read its frame (R372). -/
def leaveWarp (frame : List Byte) (next : Bool) (wp : Warp) : Warp :=
  match wp.handler with
  | none => wp
  | some h =>
    let addr := BitVec.ofNat 64 (field frame 16 8)
    let pcs (l : Nat) : DWord := BitVec.ofNat 64 (field frame (128 + 8 * l) 8)
    let lanes := wp.lanes.mapIdx fun l x =>
      { x with pc := (if next && pcs l == addr then pcs l + 8 else pcs l), yields := 0, age := 0 }
    let pending := (List.range 256).flatMap fun r => (lanesOf (BitVec.ofNat 32 (field frame (512 + 4 * r) 4))).map (32 * r + ·)
    let tags := (wp.tags.filter fun k => decide (k / 32 < 240)) ++ ((h.tagged.map fun (x : Nat × Word) => x.1).filter fun k =>
      bit (BitVec.ofNat 32 (field frame (1536 + 4 * (k / 32)) 4)) (k % 32))
    let w1 : Warp := { wp with lanes := lanes, pending := sinsAll [] pending, tags := tags, predictor := [], handler := none
                               affine := wp.affine.filter fun r => decide (r < 240) }
    -- v240 to v255 from the frame; temporary rows are given back
    let w2 := ((List.range 16).filter fun j => !h.temps.contains (240 + j)).foldl (fun w j =>
      (List.range 32).foldl (fun w l =>
        let v := BitVec.ofNat 32 (field frame (4096 + 128 * j + 4 * l) 4)
        { w with regs := sput w.regs (32 * (240 + j) + l) v, past := addNew w.past v }) w) w1
    { w2 with regs := w2.regs.filter fun p => !h.temps.contains (p.1 / 32) }

/-- RETURN FROM THE HANDLER (R372): the frame at the warp's frame address, as it stands after the warp's stores. Reserved bytes
of the frame are not looked at: R5 makes non-zero ones malformed, but the spec names no fault of TRET for them (the model's
choice, log entry 67). -/
def returnFromHandler (s : State) (e : Env) (next : Bool) : WordRes :=
  match e.wp.handler with
  | none => .trap s .priv e.live 0xFF 0
  | some h =>
    let s1 := drainDie s e.die
    match devRead s1 e.gr.ctx (gens s e.gr) h.frame 1 6144 with
    | .wait va => .trap s .page e.atPc va 0
    | .bad c va => .trap s c e.atPc va 0
    | .hole => .stop .noSuchMemory
    | .ok frame =>
      let entry := BitVec.ofNat 32 (field frame 64 4)
      let out := ~~~(aliveLanes e.wp) &&& ~~~entry
      match devWrite s1 e.gr.ctx (gens s e.gr) (h.frame + 68) 1 (leBytes 4 out.toNat) with
      | .ok s2 =>
        let own := (List.range 16).filter fun j => !h.temps.contains (240 + j)
        let s3 := own.foldl (fun t j => ownRow t e.g e.w (240 + j)) s2
        .jump (modWarp s3 e.g e.w (leaveWarp frame next))
      | .wait va => .trap s .page e.atPc va 1
      | .bad c va => .trap s c e.atPc va 0
      | .hole => .stop .noSuchMemory

/-! ## The issue of a word -/

/-- The word in issue: its lane group at the program counter, and the live lanes by its guard (R28, R100). -/
def env? (i : Instr) (s : State) : Option Env :=
  match s.cur with
  | none => none
  | some lg => match group? s lg.group with
    | none => none
    | some gr => match gr.warps[lg.warp]? with
      | none => none
      | some wp =>
        let at_ := chosenLanes wp lg
        if at_ = 0 then none else
        let live := match guardOf i with
          | none => at_
          | some g => at_ &&& maskOf fun l => (regRead s gr wp g.reg.toNat l).getLsbD 0 != g.neg
        some { g := lg.group, w := lg.warp, pc := lg.pc, word := s.curWord, mark := marked i, atPc := at_, live := live, gr := gr
               wp := wp, die := dieOf gr.core, fixed := fixedOf s gr.grid }

/-- Every register of an operand list. -/
def spread (l : List (Nat × Nat)) : List Nat := l.flatMap fun p => (List.range p.2).map (p.1 + ·)

/-- A register that a word may name (R27, R352). -/
def allowed (e : Env) (r : Nat) : Bool :=
  decide (r < e.gr.granted) || (e.wp.handler.isSome && decide (240 ≤ r) && decide (r < 256))

/-- Lanes of a mask in which a register's key is listed. -/
def keyLanes (ks : List Nat) (r : Nat) (m : Mask) : Mask := m &&& maskOf fun l => ks.contains (32 * r + l)

/-- The handle register of HTEST, HWAIT and HCANCEL. -/
def handleReg : Instr → Option Reg
  | .htest _ _ a | .hwait _ _ a | .hcancel _ a => some a
  | _ => none

/-- A handle word that no operation writes (R308). -/
def badHandle (w : Word) : Bool :=
  w.getLsbD 23 || decide (bitsOf w.toNat 27 24 > 4) || (!w.getLsbD 31 && bitsOf w.toNat 30 28 != 0)

/-- FUTBAD at decode (R308): the live lanes with such a word, and the word of the lowest. -/
def badFuture (s : State) (e : Env) (i : Instr) : Option (Code × Mask × Nat) :=
  match handleReg i with
  | none => none
  | some a =>
    let w (l : Nat) : Word := regRead s e.gr e.wp a.toNat l
    (((lanesOf e.live).filter fun l => badHandle (w l)).head?).map fun l =>
      (.futbad, e.live &&& maskOf fun x => badHandle (w x), (w l).toNat)

/-- The word has an unassigned opcode. -/
def isIllegal : Instr → Bool
  | .illegal _ _ => true
  | _ => false

/-- The decode faults that need the state or come before deferred ones, in the order of R48: ILLEGAL, PROT for a register
not granted (R27), HAZARD (R43), FUTBAD (R308). -/
def decodeFault (s : State) (e : Env) (i : Instr) : Option (Code × Mask × Nat) :=
  let u := uses i
  let g := match u.guard with | some r => [r] | none => []
  let rs := spread u.reads ++ spread u.writes
  if isIllegal i then some (.illegal, e.atPc, 0) else
  match (g ++ rs).find? fun r => !allowed e r with
  | some r => some (.prot, e.atPc, r)
  | none =>
    match g.find? fun r => keyLanes e.wp.pending r e.atPc != 0 with
    | some r => some (.hazard, keyLanes e.wp.pending r e.atPc, r)
    | none => match rs.find? fun r => keyLanes e.wp.pending r e.live != 0 with
      | some r => some (.hazard, keyLanes e.wp.pending r e.live, r)
      | none => badFuture s e i

/-- A word that reads a tagged register waits for its future (R45). -/
def futureHold (e : Env) (i : Instr) : Bool :=
  let u := uses i
  !readsTags i &&
  ((match u.guard with | some r => keyLanes e.wp.tags r e.atPc != 0 | none => false) ||
   (spread u.reads).any fun r => keyLanes e.wp.tags r e.live != 0)

/-- The engine class (R316). -/
def engineWord : Instr → Bool
  | .bcopy .. | .gather .. | .scatter .. | .xcopy .. | .htest .. | .hwait .. | .hcancel .. => true
  | _ => false

/-- The matrix class (R291). -/
def matrixWord : Instr → Bool
  | .tidset .. | .tidinv .. | .mbload .. | .mmul .. | .maccrd .. | .maccwr .. | .maccz .. | .mtrans .. | .mperm .. | .mrsum ..
  | .mepi .. => true
  | _ => false

/-- Where a deferred fault falls due: a lost access at the next word (R407, R398), an operation's at its issuer's next
word of the class (R286, R314). -/
def dueAt (r : Nat × FaultRec) (i : Instr) : Bool := r.1 == 0 || (r.1 == 1 && engineWord i) || (r.1 == 2 && matrixWord i)

/-- Rows an instance's word still has to copy (R132). -/
def rowsToCopy (e : Env) (i : Instr) : List Nat :=
  if e.live = 0 then [] else ((spread (uses i).writes).filter fun r => !ownsRow e.gr e.wp r).foldl sins []

/-- The program counters of the lane groups that are not held, each once, rising (R100): a lane group is held where a lane
of it is. -/
def groupPcs (wp : Warp) : List Nat :=
  ((List.range 32).foldl (fun a l => match wp.lanes[l]? with
    | some x => if x.exited then a else sins a x.pc.toNat
    | none => a) []).filter fun pc => standing wp (BitVec.ofNat 64 pc) &&& heldLanes wp == 0

/-- A hold that a warp in fixed-star mode leaves its turn for (R174). The words that wait for other warps of the group or
core are among them (log entry 25). -/
def leavesTurn (h : HoldRec) : Bool :=
  match h.kind with
  | .barrier _ _ | .rearrive _ _ | .gang _ | .freeze _ | .tnest | .waita .. | .qpush | .qpop | .rgrow _ | .copyWait _ | .future
  | .ulcall _ _ | .tsave _ _ | .tload _ | .slotWait => true
  | _ => false

/-- A warp in fixed-star mode leaves its turn: it has no ready lane group, and one is held where the core leaves it (R174). -/
def leaves (wp : Warp) : Bool := (groupPcs wp).isEmpty && wp.holds.any leavesTurn

/-- In fixed-star mode the core leaves the warp as its word leaves it without a ready lane group (R174). -/
def leaveTurn (e : Env) (s : State) : State :=
  if e.fixed && ((warp? s e.g e.w).map leaves).getD false then
    modCore s e.gr.core fun c => if c.one = some (e.g, e.w) then { c with one := none } else c
  else s

/-! ### What the counters of a core see of a word (R368) -/

/-- A source of an affine-eligible word is held compressed (R53). -/
def flatSrc (e : Env) : Src → Bool
  | .reg r => e.wp.affine.contains r.toNat
  | .imm _ => true

/-- A compressed register has stride 0: two of its lanes are equal. -/
def stride0 (s : State) (e : Env) (r : Reg) : Bool := regRead s e.gr e.wp r.toNat 0 == regRead s e.gr e.wp r.toNat 1

/-- A word of the affine unit, which leaves its destination compressed (R53): every lane of its warp is live at it. The words
that R53 lets compress a register without a source, MOVI and SREAD, are among them, as the run of R54 shows (log entry 66). -/
def affineWord (s : State) (e : Env) (i : Instr) : Bool :=
  let held (r : Reg) : Bool := e.wp.affine.contains r.toNat
  e.live == 0xFFFFFFFF && (match i with
    | .movi .. => true
    | .sread _ v _ => v != .clock
    | .iadd _ op _ a b _ => (op == .add || op == .sub) && held a && flatSrc e b
    | .imul _ op _ a b => op == .lo && held a && flatSrc e b && (stride0 s e a || (match b with | .reg r => stride0 s e r | .imm _ => true))
    | .shf _ op _ _ a n _ => op == .l && held a && (match n with | .reg r => held r && stride0 s e r | .imm _ => true)
    | .mov _ w _ a => w == .w32 && held a
    | _ => false)

/-- A register moves to the front of the six-entry register cache (R54). -/
def touchReg (l : List Nat) (r : Nat) : List Nat := (r :: l.filter (· != r)).take 6

/-- The sources of a word that its warp finds neither compressed nor in its register cache (R54). -/
def bankReads (e : Env) (i : Instr) : Nat :=
  if e.live = 0 then 0
  else (((spread (uses i).reads).foldl sins []).filter fun r => !(e.wp.affine.contains r || e.wp.recent.contains r)).length

/-- What a word leaves compressed and cached in its warp (R53, R54): only a member of the active set has a register cache. -/
def noteRegs (s : State) (e : Env) (i : Instr) (x : Warp) : Warp :=
  if e.live = 0 then x else
  let ws := spread (uses i).writes
  { x with
    affine := if affineWord s e i then ws.foldl sins x.affine else x.affine.filter fun r => !ws.contains r
    recent := if (core s e.gr.core).active.contains (e.g, e.w) then (spread (uses i).reads ++ ws).foldl touchReg x.recent else [] }

/-- A word issued is counted (R368), one of a user logit kernel in fixed-star mode against its budget (R342). -/
def countWord (s0 : State) (e : Env) (i : Instr) (s : State) : State :=
  let count (n k : Nat) (t : State) : State := if k = 0 then t else countEvent t e.gr.core e.gr.ctx n k
  let s1 := count 8 (bankReads e i) (count 7 (if affineWord s0 e i then 1 else 0) (count 2 1 s))
  match e.gr.logits with
  | some (b, st, slot, n) => if e.fixed then modGroup s1 e.g fun x => { x with logits := some (b, st, slot, n + 1) } else s1
  | none => s1

/-- What every word that takes effect leaves behind it beside its effect; `s0` is the state at its issue. -/
def noteWord (s0 : State) (e : Env) (i : Instr) (s : State) : State :=
  modWarp (countWord s0 e i s) e.g e.w (noteRegs s0 e i)

/-- A hold whose word has taken effect and completes in place; the other held words, and those that wait as a FENCE does, issue
again from the start. -/
def Hold.inPlace (k : Hold) (i : Instr) : Bool :=
  match k with
  | .future | .copyWait _ | .accept | .slotWait | .rearrive _ _ | .tload _ | .ret | .brkpt | .entry => false
  | .fence _ _ => (match i with | .fence .. => true | _ => false)
  | _ => true

/-- Lanes of a warp become held at their word (R100). -/
def addHold (s : State) (e : Env) (i : Instr) (k : Hold) (lanes : Mask) : State :=
  let past := e.live &&& ~~~lanes
  leaveTurn e (modWarp (if k.inPlace i then noteWord s e i s else s) e.g e.w fun x =>
    { (if e.mark && k.inPlace i && past != 0 then park past else id) (advance x (e.atPc &&& ~~~lanes)) with holds := x.holds ++ [{ lanes := lanes, live := lanes &&& e.live, pc := e.pc, word := e.word, instr := some i, kind := k }] })

/-- What every word does as it retires: it is counted, and a marked word parks its warp (R44). -/
def retire (s0 : State) (e : Env) (i : Instr) (s : State) : State :=
  let s1 := noteWord s0 e i s
  leaveTurn e (if e.mark then modWarp s1 e.g e.w (park e.live) else s1)

/-- What a body's answer makes of the state. -/
def finish (e : Env) (i : Instr) (r : WordRes) (s : State) : Host.Outcome State Fault Refusal :=
  let need := rowsToCopy e i
  let short := decide (freeRows s e.gr.core < need.length)
  let wait : State := addHold s e i (.copyWait (need.head?.getD 0)) e.atPc
  match r with
  | .done t => if short then .next wait else .next (retire s e i (modWarp t e.g e.w fun x => advance x e.atPc))
  | .jump t => if short then .next wait else .next (retire s e i t)
  | .hold t k lanes => if short then .next wait else .next (addHold t e i k lanes)
  | .trap t c lanes d0 d1 => .next (takeFault t e.g e.w (recordOf s e c lanes d0 d1))
  | .stop f => .fault f

/-- A register that the word reads holds an uncorrectable error (R414): the register, and the lanes in which it does: the guard in
every lane at the word, the operands in the live lanes. -/
def regError (e : Env) (i : Instr) : Option (Mask × Nat) :=
  if e.wp.regBad.isEmpty then none else
  let u := uses i
  let hit (m : Mask) (r : Nat) : Option (Mask × Nat) := if keyLanes e.wp.regBad r m = 0 then none else some (keyLanes e.wp.regBad r m, r)
  match (match u.guard with | some r => hit e.atPc r | none => none) with
  | some x => some x
  | none => (spread u.reads).findSome? (hit e.live)

/-- THE ISSUE OF A WORD: decode checks (R48), the wait for a future (R45), deferred faults, the errors of its registers (R414), and
then its own effect. -/
def runWord (i : Instr) (s : State) (body : Env → State → WordRes) : Host.Outcome State Fault Refusal :=
  match env? i s with
  | none => .next s
  | some e =>
    match decodeFault s e i with
    | some (c, lanes, r) => .next (takeFault s e.g e.w (recordOf s e c lanes (BitVec.ofNat 64 r) 0))
    | none =>
      if futureHold e i then .next (addHold s e i .future e.atPc)
      else match e.wp.deferred.find? fun r => dueAt r i with
        | some r => .next (takeFault (modWarp s e.g e.w fun x => { x with deferred := x.deferred.erase r }) e.g e.w
            { recordOf s e r.2.code e.live r.2.d0 r.2.d1 with deferred := true })
        | none => match regError e i with
          | some (lanes, r) => .next (takeFault s e.g e.w (recordOf s e .eccu lanes (BitVec.ofNat 64 r) 0))
          | none => finish e i (body e s) s

/-! ## The end of a hold -/

/-- A held word issues again from the start: its lanes are ready at it (R362). -/
def dropHold (s : State) (g w : Nat) (h : HoldRec) : State := modWarp s g w fun x => { x with holds := x.holds.erase h }

/-- Completes every hold of a warp that satisfies q. -/
def endHolds (wp : Warp) (q : HoldRec → Bool) : Warp := (wp.holds.filter q).foldl (fun x h => endHold h x) wp

/-- A held word as it stood at its issue, with its live lanes by the guard as it reads now. -/
def heldEnv (s : State) (g w : Nat) (h : HoldRec) : Option Env :=
  match group? s g, h.instr with
  | some gr, some i => (gr.warps[w]?).map fun wp =>
    { g := g, w := w, pc := h.pc, word := h.word, mark := marked i, atPc := h.lanes
      live := match guardOf i with
        | none => h.lanes
        | some q => h.lanes &&& maskOf fun l => (regRead s gr wp q.reg.toNat l).getLsbD 0 != q.neg
      gr := gr, wp := wp, die := dieOf gr.core, fixed := fixedOf s gr.grid }
  | _, _ => none

/-- Hold number i of a warp. -/
def hold? (s : State) (g w i : Nat) : Option HoldRec := (warp? s g w).bind fun x => x.holds[i]?

/-! ## Readiness -/

/-- A warp has a ready lane group (R100): it is not parked, has taken no fault, is not held whole in IDLE (R376), and some
lane is free to issue. -/
def warpReady (wp : Warp) : Bool :=
  wp.parked.isNone && wp.fault.isNone && !wp.ended && !(wp.holds.any (·.kind == .idle)) && !(groupPcs wp).isEmpty

/-- The word of the lane group at a program counter has been fetched, and the lane group is in no redirect (R100, R110): free
by the step's number, one bit for the lowest lane of each lane group. Fixed-star mode waits for the fetch (R174). -/
def fetched (s : State) (gr : Group) (wp : Warp) (pc : Nat) : Bool :=
  s.draw == 0 || fixedOf s gr.grid ||
  !(s.draw.testBit (32 * (64 * gr.core + wp.slot) + (leader (standing wp (BitVec.ofNat 64 pc))).getD 0))

/-- The ready lane groups of a warp that is not parked (R100). -/
def readyPcs (s : State) (gr : Group) (wp : Warp) : List Nat := (groupPcs wp).filter (fetched s gr wp)

/-- A warp that the core may choose (R104). -/
def eligible (s : State) (gr : Group) (wp : Warp) : Bool :=
  gr.life == .resident && !(core s gr.core).halted && warpReady wp && !(readyPcs s gr wp).isEmpty && wp.yielding.isNone

/-! ## Results -/

/-- Writes n registers from d on in each live lane, every source read in the state before the word (R7). -/
def writeLanes (e : Env) (s : State) (d n : Nat) (f : Nat → Nat) : State :=
  (lanesOf e.live).foldl (fun t l => writeWide t e.g e.w d l n (f l)) s

/-- The words of a wide value. -/
def splitWords : Nat → Nat → List Word
  | 0, _ => []
  | n + 1, v => BitVec.ofNat 32 v :: splitWords n (v / 2 ^ 32)

/-- A long-latency result (R42): its rows are copied at issue, the registers become pending in the live lanes, tags on
them clear, and the results go on their way. -/
def laterLanes (e : Env) (s : State) (d n : Nat) (outs : Nat → List Outst) : State :=
  let keys := (lanesOf e.live).flatMap fun l => (List.range n).map fun k => 32 * (d + k) + l
  let s1 := (List.range n).foldl (fun t k => if e.live = 0 then t else ownRow t e.g e.w (d + k)) s
  modWarp s1 e.g e.w fun x =>
    { x with pending := sinsAll x.pending keys, tags := x.tags.filter fun k => !keys.contains k
             outs := x.outs ++ (lanesOf e.live).flatMap outs }

/-- A long-latency value of n registers. -/
def laterValue (e : Env) (s : State) (d n : Nat) (f : Nat → Nat) : State :=
  laterLanes e s d n fun l => (splitWords n (f l)).mapIdx fun k v => .value l (d + k) v

/-- Source register r in lane l. -/
def Env.v (e : Env) (s : State) (r : Reg) (l : Nat) : Word := regRead s e.gr e.wp r.toNat l
/-- Source pair. -/
def Env.d (e : Env) (s : State) (r : Reg) (l : Nat) : DWord := pairRead s e.gr e.wp r.toNat l

/-- A word that computes one result of n registers in each live lane, fixed-latency. -/
def aluWord (i : Instr) (s : State) (d : Reg) (n : Nat) (f : Env → Nat → Nat) : Host.Outcome State Fault Refusal :=
  runWord i s fun e t => .done (writeLanes e t d.toNat n (f e))

/-- The same, long-latency. -/
def slowWord (i : Instr) (s : State) (d : Reg) (n : Nat) (f : Env → Nat → Nat) : Host.Outcome State Fault Refusal :=
  runWord i s fun e t => .done (laterValue e t d.toNat n (f e))

end Sys2Proof.Machine
end

