-- ==== Sys2Proof/Machine/Integer.lean ====
section
/-! DEFINITION. The basic words (R36 to R41) and the integer, logical and address class (R49 to R70). -/

namespace Sys2Proof.Machine

/-- Source B: a register or the I20 immediate (R30). -/
def Src.word (b : Src) (e : Env) (s : State) (l : Nat) : Word :=
  match b with
  | .reg r => e.v s r l
  | .imm i => i.signExtend 32

def Src.dword (b : Src) (e : Env) (s : State) (l : Nat) : DWord :=
  match b with
  | .reg r => e.d s r l
  | .imm i => i.signExtend 64

/-- The second operand of a compare (R59). -/
def Cmp2.word (b : Cmp2) (e : Env) (s : State) (l : Nat) : Word :=
  match b with
  | .reg r => e.v s r l
  | .imm i => i.signExtend 32

def Cmp2.dword (b : Cmp2) (e : Env) (s : State) (l : Nat) : DWord :=
  match b with
  | .reg r => e.d s r l
  | .imm i => i.signExtend 64

/-- A shift count (R62). -/
def Count.val (c : Count) (e : Env) (s : State) (clamp : Bool) (w l : Nat) : Nat :=
  match c with
  | .imm n => n.toNat
  | .reg r => let n0 := (e.v s r l).toNat
    if clamp then min n0 w else n0 % w

/-- SHF (R62), for a count from 0 to 32. -/
def ShfOp.eval (op : ShfOp) (a c : Word) (n : Nat) : Nat :=
  match op with
  | .l => a.toNat * 2 ^ n % 2 ^ 32
  | .r => a.toNat / 2 ^ n
  | .a => (wrap 32 (a.toInt / 2 ^ n)).toNat
  | .rotl => (a.toNat * 2 ^ n + a.toNat / 2 ^ (32 - n)) % 2 ^ 32
  | .fl => (a.toNat * 2 ^ 32 + c.toNat) * 2 ^ n / 2 ^ 32 % 2 ^ 32
  | .fr => (a.toNat * 2 ^ 32 + c.toNat) / 2 ^ n % 2 ^ 32

/-- SHFW (R62). -/
def ShwOp.eval (op : ShwOp) (x : DWord) (n : Nat) : Nat :=
  match op with
  | .l => x.toNat * 2 ^ n % 2 ^ 64
  | .r => x.toNat / 2 ^ n
  | .a => (wrap 64 (x.toInt / 2 ^ n)).toNat

/-- The product forms of IMUL (R56). -/
def MulOp.eval (op : MulOp) (a b : Word) : Nat :=
  match op with
  | .lo => a.toNat * b.toNat % 2 ^ 32
  | .hiS => (wrap 64 (a.toInt * b.toInt)).toNat / 2 ^ 32
  | .hiZ => a.toNat * b.toNat / 2 ^ 32
  | .wideS => (wrap 64 (a.toInt * b.toInt)).toNat
  | .wideZ => a.toNat * b.toNat

def MulOp.regs : MulOp → Nat
  | .wideS | .wideZ => 2
  | _ => 1

/-- IDIV (R57). -/
def DivOp.eval (op : DivOp) (a b : Word) : Word :=
  match op with
  | .quoS => if b = 0 then 0xFFFFFFFF else wrap 32 (a.toInt.tdiv b.toInt)
  | .quoZ => if b = 0 then 0xFFFFFFFF else BitVec.ofNat 32 (a.toNat / b.toNat)
  | .remS => if b = 0 then a else wrap 32 (a.toInt - a.toInt.tdiv b.toInt * b.toInt)
  | .remZ => if b = 0 then a else BitVec.ofNat 32 (a.toNat % b.toNat)

/-- LTAB (R61): each bit of the result from the table's bit for its three inputs. -/
def ltabBits (tt : BitVec 8) (a b c : Word) : Word :=
  maskOf fun k => tt.getLsbD (oneIf (a.getLsbD k) + 2 * oneIf (b.getLsbD k) + 4 * oneIf (c.getLsbD k))

/-- The position and length of a bit field (R63). -/
def Field.val (f : Field) (e : Env) (s : State) (l : Nat) : Nat × Nat :=
  match f with
  | .imm p n => (p.toNat, n.toNat)
  | .reg r => ((e.v s r l).toNat % 256, (e.v s r l).toNat / 256 % 256)

/-- The effective width of a field: it shrinks where it leaves the register (R63). -/
def fieldWidth (pos len : Nat) : Nat := if pos ≥ 32 then 0 else min len (min 32 (32 - pos))

def bfxBits (sx : Bool) (a : Word) (pos len : Nat) : Word :=
  let w := fieldWidth pos len
  let f := a.toNat / 2 ^ pos % 2 ^ w
  if sx && decide (w > 0) && decide (f ≥ 2 ^ (w - 1)) then wrap 32 ((f : Int) - 2 ^ w) else BitVec.ofNat 32 f

def bfiBits (a c : Word) (pos len : Nat) : Word :=
  let w := fieldWidth pos len
  if w = 0 then c else
  let mask : Word := BitVec.ofNat 32 ((2 ^ w - 1) * 2 ^ pos)
  (c &&& ~~~mask) ||| BitVec.ofNat 32 (a.toNat % 2 ^ w * 2 ^ pos)

/-- BITC (R64). -/
def BitOp.eval (op : BitOp) (a : Word) : Nat :=
  match op with
  | .popc => (lanesOf a).length
  | .clz => match (lanesOf a).getLast? with | some k => 31 - k | none => 32
  | .ctz => match (lanesOf a).head? with | some k => k | none => 32
  | .brev => (maskOf fun k => a.getLsbD (31 - k)).toNat

/-- BPERM (R64). -/
def bpermBits (a b c : Word) : Nat :=
  let x := a.toNat + b.toNat * 2 ^ 32
  leNat ((List.range 4).map fun k =>
    let sel := c.toNat / 2 ^ (4 * k) % 16
    let byte := x / 2 ^ (8 * (sel % 8)) % 256
    if sel ≥ 8 then (if byte ≥ 128 then 0xFF else 0) else BitVec.ofNat 8 byte)

def AdwOp.eval (op : AdwOp) (a : DWord) (y : DWord) (w : Word) : DWord :=
  match op with
  | .add => a + y
  | .sub => a - y
  | .z32 => a + w.setWidth 64
  | .s32 => a + w.signExtend 64

/-- IDOT (R68). -/
def idotBits (half sa sb sat : Bool) (a b c : Word) : Word :=
  let w := if half then 16 else 8
  let part (sg : Bool) (x : Word) (k : Nat) : Int :=
    let v := x.toNat / 2 ^ (w * k) % 2 ^ w
    if sg && decide (v ≥ 2 ^ (w - 1)) then (v : Int) - 2 ^ w else v
  let sum := (List.range (32 / w)).foldl (fun t k => t + part sa a k * part sb b k) c.toInt
  wrap 32 (if sat then clampS sum else sum)

/-- CVTI (R69): x is the source register or pair. -/
def CvtI.eval (op : CvtI) (x : DWord) : Nat :=
  let a : Word := x.setWidth 32
  match op with
  | .s32s8 => ((a.setWidth 8).signExtend 32).toNat
  | .z32z8 => a.toNat % 256
  | .s32s16 => ((a.setWidth 16).signExtend 32).toNat
  | .z32z16 => a.toNat % 65536
  | .s8s32 => (wrap 32 (clampInt (-128) 127 a.toInt)).toNat
  | .z8s32 => (wrap 32 (clampInt 0 255 a.toInt)).toNat
  | .s16s32 => (wrap 32 (clampInt (-32768) 32767 a.toInt)).toNat
  | .z16s32 => (wrap 32 (clampInt 0 65535 a.toInt)).toNat
  | .z8z32 => min a.toNat 255
  | .z16z32 => min a.toNat 65535
  | .s64s32 => (a.signExtend 64).toNat
  | .z64z32 => a.toNat
  | .s32s64 => (wrap 32 (clampS x.toInt)).toNat
  | .z32s64 => (wrap 32 (clampZ x.toInt)).toNat
  | .z32z64 => min x.toNat (2 ^ 32 - 1)
  | .s32z32 => min a.toNat (2 ^ 31 - 1)
  | .z32s32 => (max a.toInt 0).toNat

/-- A system value (R70) in a lane. That %version reads all ones in a subscribed loop whose range had no published generation at
step 2 is the model's choice (log entry 67). -/
def SysVal.eval (v : SysVal) (e : Env) (s : State) (l : Nat) : Nat :=
  match v with
  | .lane => l
  | .warp => e.wp.index
  | .group => e.gr.index
  | .gang => e.gr.gang
  | .inst => match e.gr.kind with
    | .instance_ _ => e.gr.index
    | _ => 0xFFFFFFFF
  | .node => match nodeOf s e.gr with | some (_, n) => n | none => 0
  | .iter => match (nodeOf s e.gr).bind fun p => (graph? s p.1).bind fun g => ((loopsAround g p.2).head?).bind fun i => g.nodes[i]? with
    | some n => n.iter
    | none => 0
  | .slot => (boundSlot s e.gr).getD 0xFFFFFFFF
  | .core => e.gr.core % 192
  | .cluster => e.gr.core % 192 / 2
  | .die => dieOf e.gr.core
  | .clock => (clockOf s e.gr).toNat
  | .version => match subscribedLoop s e.gr with
    | none => 0xFFFFFFFF
    | some n => match n.adopted, (Node.subscription n).bind (range? s) with
      | some g, some r => g + 65536 * (slotOf r g).getD 0
      | _, _ => 0xFFFFFFFF

/-! ## Halves of a paired word (R39) -/

def RegHalf.eval (op : RegHalf) (d a : Word) : Word :=
  let n (x : Nat) : Word := BitVec.ofNat 32 x
  match op with
  | .iadd => d + a
  | .isub => d - a
  | .imul => n (MulOp.eval .lo d a)
  | .minS => MnxOp.eval .minS d a
  | .maxS => MnxOp.eval .maxS d a
  | .minZ => MnxOp.eval .minZ d a
  | .maxZ => MnxOp.eval .maxZ d a
  | .cmpEq => n (oneIf (relBits .eq false d a))
  | .cmpNe => n (oneIf (relBits .ne false d a))
  | .ltS => n (oneIf (relBits .lt false d a))
  | .leS => n (oneIf (relBits .le false d a))
  | .ltZ => n (oneIf (relBits .lt true d a))
  | .leZ => n (oneIf (relBits .le true d a))
  | .and => d &&& a
  | .or => d ||| a
  | .xor => d ^^^ a
  | .andn => d &&& ~~~a
  | .mov => a
  | .fadd => n (fadd .f32 .rn false d.toNat a.toNat)
  | .fmul => n (fmul .f32 .rn false d.toNat a.toNat)
  | .fmin => n (fmnx .f32 false d.toNat a.toNat)
  | .fmax => n (fmnx .f32 true d.toNat a.toNat)
  | .fcmpEq => n (oneIf (fcmp .f32 .eq d.toNat a.toNat))
  | .fcmpLt => n (oneIf (fcmp .f32 .lt d.toNat a.toNat))
  | .fcmpLe => n (oneIf (fcmp .f32 .le d.toNat a.toNat))
  | .fcmpNe => n (oneIf (fcmp .f32 .ne d.toNat a.toNat))
  | .paddh => packed (fadd .f16 .rn false) d a
  | .pmulh => packed (fmul .f16 .rn false) d a
  | .f16f32 => n (fconv .f32 .f16 .rn false a.toNat)
  | .bf16f32 => n (fconv .f32 .bf16 .rn false a.toNat)
  | .f32f16 => n (fconv .f16 .f32 .rn false (a.toNat % 65536))
  | .f32bf16 => n (fconv .bf16 .f32 .rn false (a.toNat % 65536))

def ImmHalf.eval (op : ImmHalf) (a : Word) (i : BitVec 8) : Word :=
  let x : Word := i.signExtend 32
  let k := i.toNat % 32
  let n (x : Nat) : Word := BitVec.ofNat 32 x
  match op with
  | .iadd => a + x
  | .imul => n (MulOp.eval .lo a x)
  | .minS => MnxOp.eval .minS a x
  | .maxS => MnxOp.eval .maxS a x
  | .cmpEq => n (oneIf (relBits .eq false a x))
  | .cmpNe => n (oneIf (relBits .ne false a x))
  | .ltS => n (oneIf (relBits .lt false a x))
  | .gtS => n (oneIf (relBits .gt false a x))
  | .and => a &&& x
  | .or => a ||| x
  | .xor => a ^^^ x
  | .andn => a &&& ~~~x
  | .shl => n (ShfOp.eval .l a 0 k)
  | .shr => n (ShfOp.eval .r a 0 k)
  | .sar => n (ShfOp.eval .a a 0 k)
  | .rotl => n (ShfOp.eval .rotl a 0 k)
  | .movi8 => x

def Half.eval (h : Half) (e : Env) (s : State) (l : Nat) : Word :=
  match h with
  | .reg op d a => RegHalf.eval op (e.v s d l) (e.v s a l)
  | .imm op _ a i => ImmHalf.eval op (e.v s a l) i

/-! ## Meanings -/

/-- ILLEGAL faults in every lane of its lane group (R40). -/
def execIllegal (raw : BitVec 54) (mark : Bool) (s : State) : Host.Outcome State Fault Refusal :=
  runWord (.illegal raw mark) s fun e t => .trap t .illegal e.atPc 0 0

/-- NOP (R41). -/
def execNop (h : Hdr) (s : State) : Host.Outcome State Fault Refusal :=
  runWord (.nop h) s fun _ t => .done t

/-- A paired word: every source of both halves is read before either destination is written (R37). -/
def execPairedWord (mark : Bool) (x y : Half) (s : State) : Host.Outcome State Fault Refusal :=
  runWord (.pairedWord mark x y) s fun e t =>
    .done ((lanesOf e.live).foldl (fun u l =>
      writeReg (writeReg u e.g e.w (Half.dst x).toNat l (Half.eval x e t l)) e.g e.w (Half.dst y).toNat l (Half.eval y e t l)) t)

def execIadd (h : Hdr) (op : AddOp) (d a : Reg) (b : Src) (c : Reg) (s : State) : Host.Outcome State Fault Refusal :=
  aluWord (.iadd h op d a b c) s d 1 fun e l => (AddOp.eval op (e.v s a l) (Src.word b e s l) (e.v s c l)).toNat

def execImul (h : Hdr) (op : MulOp) (d a : Reg) (b : Src) (s : State) : Host.Outcome State Fault Refusal :=
  aluWord (.imul h op d a b) s d (MulOp.regs op) fun e l => MulOp.eval op (e.v s a l) (Src.word b e s l)

def execImad (h : Hdr) (op : MadOp) (d a b c : Reg) (s : State) : Host.Outcome State Fault Refusal :=
  aluWord (.imad h op d a b c) s d (match op with | .lo => 1 | _ => 2) fun e l =>
    match op with
    | .lo => ((e.v s a l).toNat * (e.v s b l).toNat + (e.v s c l).toNat) % 2 ^ 32
    | .wideS => (wrap 64 ((e.v s a l).toInt * (e.v s b l).toInt + (e.d s c l).toInt)).toNat
    | .wideZ => ((e.v s a l).toNat * (e.v s b l).toNat + (e.d s c l).toNat) % 2 ^ 64

def execIdiv (h : Hdr) (op : DivOp) (d a b : Reg) (s : State) : Host.Outcome State Fault Refusal :=
  slowWord (.idiv h op d a b) s d 1 fun e l => (DivOp.eval op (e.v s a l) (e.v s b l)).toNat

def execImnx (h : Hdr) (op : MnxOp) (d a : Reg) (b : Src) (s : State) : Host.Outcome State Fault Refusal :=
  aluWord (.imnx h op d a b) s d 1 fun e l => (MnxOp.eval op (e.v s a l) (Src.word b e s l)).toNat

def execIabs (h : Hdr) (op : AbsOp) (d a : Reg) (s : State) : Host.Outcome State Fault Refusal :=
  aluWord (.iabs h op d a) s d 1 fun e l => (AbsOp.eval op (e.v s a l)).toNat

def execIcmp (h : Hdr) (rel : Rel) (uns : Bool) (d a : Reg) (b : Cmp2) (s : State) : Host.Outcome State Fault Refusal :=
  aluWord (.icmp h rel uns d a b) s d 1 fun e l => oneIf (relBits rel uns (e.v s a l) (Cmp2.word b e s l))

def execSel (h : Hdr) (w : Bool) (d a b c : Reg) (s : State) : Host.Outcome State Fault Refusal :=
  aluWord (.sel h w d a b c) s d (wide w) fun e l =>
    let r := if (e.v s c l).getLsbD 0 then a else b
    wideRead s e.gr e.wp r.toNat l (wide w)

def execLtab (h : Hdr) (tt : BitVec 8) (d a b c : Reg) (s : State) : Host.Outcome State Fault Refusal :=
  aluWord (.ltab h tt d a b c) s d 1 fun e l => (ltabBits tt (e.v s a l) (e.v s b l) (e.v s c l)).toNat

def execShf (h : Hdr) (op : ShfOp) (clamp : Bool) (d a : Reg) (n : Count) (c : Reg) (s : State) : Host.Outcome State Fault Refusal :=
  aluWord (.shf h op clamp d a n c) s d 1 fun e l => ShfOp.eval op (e.v s a l) (e.v s c l) (Count.val n e s clamp 32 l)

def execBfx (h : Hdr) (sx : Bool) (d a : Reg) (f : Field) (s : State) : Host.Outcome State Fault Refusal :=
  aluWord (.bfx h sx d a f) s d 1 fun e l => (bfxBits sx (e.v s a l) (Field.val f e s l).1 (Field.val f e s l).2).toNat

def execBfi (h : Hdr) (d a : Reg) (f : Field) (c : Reg) (s : State) : Host.Outcome State Fault Refusal :=
  aluWord (.bfi h d a f c) s d 1 fun e l => (bfiBits (e.v s a l) (e.v s c l) (Field.val f e s l).1 (Field.val f e s l).2).toNat

def execBitc (h : Hdr) (op : BitOp) (d a : Reg) (s : State) : Host.Outcome State Fault Refusal :=
  aluWord (.bitc h op d a) s d 1 fun e l => BitOp.eval op (e.v s a l)

def execBperm (h : Hdr) (d a b c : Reg) (s : State) : Host.Outcome State Fault Refusal :=
  aluWord (.bperm h d a b c) s d 1 fun e l => bpermBits (e.v s a l) (e.v s b l) (e.v s c l)

def execIaddw (h : Hdr) (op : AdwOp) (d a : Reg) (b : Src) (s : State) : Host.Outcome State Fault Refusal :=
  aluWord (.iaddw h op d a b) s d 2 fun e l => (AdwOp.eval op (e.d s a l) (Src.dword b e s l) (Src.word b e s l)).toNat

def execShfw (h : Hdr) (op : ShwOp) (clamp : Bool) (d a : Reg) (n : Count) (s : State) : Host.Outcome State Fault Refusal :=
  aluWord (.shfw h op clamp d a n) s d 2 fun e l => ShwOp.eval op (e.d s a l) (Count.val n e s clamp 64 l)

def execIcmpw (h : Hdr) (rel : Rel) (uns : Bool) (d a : Reg) (b : Cmp2) (s : State) : Host.Outcome State Fault Refusal :=
  aluWord (.icmpw h rel uns d a b) s d 1 fun e l => oneIf (relBits rel uns (e.d s a l) (Cmp2.dword b e s l))

def execLea (h : Hdr) (sx : Bool) (sh : BitVec 3) (d a b : Reg) (s : State) : Host.Outcome State Fault Refusal :=
  aluWord (.lea h sx sh d a b) s d 2 fun e l =>
    (e.d s a l + (if sx then (e.v s b l).signExtend 64 else (e.v s b l).setWidth 64) <<< sh.toNat).toNat

def execMov (h : Hdr) (w : MovW) (d a : Reg) (s : State) : Host.Outcome State Fault Refusal :=
  aluWord (.mov h w d a) s d (MovW.regs w) fun e l => wideRead s e.gr e.wp a.toNat l (MovW.regs w)

def execMovi (mark : Bool) (d : Reg) (imm : Word) (s : State) : Host.Outcome State Fault Refusal :=
  aluWord (.movi mark d imm) s d 1 fun _ _ => imm.toNat

def execIdot (h : Hdr) (half sa sb sat : Bool) (d a b c : Reg) (s : State) : Host.Outcome State Fault Refusal :=
  aluWord (.idot h half sa sb sat d a b c) s d 1 fun e l => (idotBits half sa sb sat (e.v s a l) (e.v s b l) (e.v s c l)).toNat

def execCvti (h : Hdr) (op : CvtI) (d a : Reg) (s : State) : Host.Outcome State Fault Refusal :=
  aluWord (.cvti h op d a) s d (CvtI.dst op) fun e l => CvtI.eval op (BitVec.ofNat 64 (wideRead s e.gr e.wp a.toNat l (CvtI.src op)))

/-- SREAD: %clock is long-latency, every other value fixed-latency (R42, R70). -/
def execSread (h : Hdr) (v : SysVal) (d : Reg) (s : State) : Host.Outcome State Fault Refusal :=
  match v with
  | .clock => slowWord (.sread h v d) s d 2 fun e l => SysVal.eval .clock e s l
  | _ => aluWord (.sread h v d) s d 1 fun e l => SysVal.eval v e s l

end Sys2Proof.Machine
end

