-- ==== Sys2Proof/Machine/FloatOps.lean ====
section
/-! DEFINITION. The floating-point class (R71 to R99). -/

namespace Sys2Proof.Machine

def execFadd (h : Hdr) (sub : Bool) (r : Rnd) (ftz : Bool) (d a b : Reg) (s : State) : Host.Outcome State Fault Refusal :=
  aluWord (.fadd h sub r ftz d a b) s d 1 fun e l =>
    if sub then fsub .f32 r ftz (e.v s a l).toNat (e.v s b l).toNat else fadd .f32 r ftz (e.v s a l).toNat (e.v s b l).toNat

def execFmul (h : Hdr) (r : Rnd) (ftz : Bool) (d a b : Reg) (s : State) : Host.Outcome State Fault Refusal :=
  aluWord (.fmul h r ftz d a b) s d 1 fun e l => fmul .f32 r ftz (e.v s a l).toNat (e.v s b l).toNat

def execFfma (h : Hdr) (np nc : Bool) (r : Rnd) (ftz : Bool) (d a b c : Reg) (s : State) : Host.Outcome State Fault Refusal :=
  aluWord (.ffma h np nc r ftz d a b c) s d 1 fun e l =>
    ffma .f32 r ftz np nc (e.v s a l).toNat (e.v s b l).toNat (e.v s c l).toNat

def execFmnx (h : Hdr) (mx : Bool) (d a b : Reg) (s : State) : Host.Outcome State Fault Refusal :=
  aluWord (.fmnx h mx d a b) s d 1 fun e l => fmnx .f32 mx (e.v s a l).toNat (e.v s b l).toNat

def execFcmp (h : Hdr) (rel : FRel) (ftz : Bool) (d a b : Reg) (s : State) : Host.Outcome State Fault Refusal :=
  aluWord (.fcmp h rel ftz d a b) s d 1 fun e l =>
    oneIf (fcmp .f32 rel (flush .f32 ftz (e.v s a l).toNat) (flush .f32 ftz (e.v s b l).toNat))

def execFclass (h : Hdr) (f : Fmt) (d a : Reg) (s : State) : Host.Outcome State Fault Refusal :=
  aluWord (.fclass h f d a) s d 1 fun e l => fclass f ((e.v s a l).toNat % 2 ^ Fmt.width f)

def execFsfu (h : Hdr) (op : SfuOp) (ftz : Bool) (d a : Reg) (s : State) : Host.Outcome State Fault Refusal :=
  slowWord (.fsfu h op ftz d a) s d 1 fun e l => fsfu op ftz (e.v s a l).toNat

def execFdiv (h : Hdr) (r : Rnd) (ftz : Bool) (d a b : Reg) (s : State) : Host.Outcome State Fault Refusal :=
  slowWord (.fdiv h r ftz d a b) s d 1 fun e l => fdiv .f32 r ftz (e.v s a l).toNat (e.v s b l).toNat

def execFrint (h : Hdr) (r : Rnd) (ftz : Bool) (d a : Reg) (s : State) : Host.Outcome State Fault Refusal :=
  aluWord (.frint h r ftz d a) s d 1 fun e l => frint .f32 r ftz (e.v s a l).toNat

def execFscale (h : Hdr) (r : Rnd) (ftz : Bool) (d a b : Reg) (s : State) : Host.Outcome State Fault Refusal :=
  aluWord (.fscale h r ftz d a b) s d 1 fun e l => fscale .f32 r ftz (e.v s a l).toNat (e.v s b l).toInt

/-- CVTF (R90): the low bits of the source, the result with the other bits cleared. -/
def CvtF.eval (op : CvtF) (r : Rnd) (ftz : Bool) (x : Nat) : Nat :=
  match op with
  | .f16f32 => fconv .f32 .f16 r ftz x
  | .bf16f32 => fconv .f32 .bf16 r ftz x
  | .f32f16 => fconv .f16 .f32 .rn ftz (x % 65536)
  | .f32bf16 => fconv .bf16 .f32 .rn ftz (x % 65536)
  | .bf16f16 => fconv .f16 .bf16 r ftz (x % 65536)
  | .f16bf16 => fconv .bf16 .f16 r ftz (x % 65536)
  | .st8f32 => encodeSTVal (fdecode .f32 x) 8
  | .st6f32 => encodeSTVal (fdecode .f32 x) 6
  | .f32st8 => match decodeST (x % 256) 8 with | some v => froundVal .f32 .rn (dyVal v.1 v.2) | none => Fmt.nan .f32
  | .f32st6 => match decodeST (x % 64) 6 with | some v => froundVal .f32 .rn (dyVal v.1 v.2) | none => Fmt.nan .f32

def execCvtf (h : Hdr) (op : CvtF) (r : Rnd) (ftz : Bool) (d a : Reg) (s : State) : Host.Outcome State Fault Refusal :=
  aluWord (.cvtf h op r ftz d a) s d 1 fun e l => CvtF.eval op r ftz (e.v s a l).toNat

def execCvtfi (h : Hdr) (ty : IntTy) (f : Fmt) (r : Rnd) (ftz : Bool) (d a : Reg) (s : State) : Host.Outcome State Fault Refusal :=
  aluWord (.cvtfi h ty f r ftz d a) s d (IntTy.regs ty) fun e l =>
    (wrap 64 (fToInt f ty r ftz ((e.v s a l).toNat % 2 ^ Fmt.width f))).toNat

/-- The integer a CVTIF source holds (R92). -/
def IntTy.val (ty : IntTy) (x : DWord) : Int :=
  match ty with
  | .s32 => (x.setWidth 32).toInt
  | .z32 => (x.setWidth 32).toNat
  | .s64 => x.toInt
  | .z64 => x.toNat

def execCvtif (h : Hdr) (ty : IntTy) (f : Fmt) (r : Rnd) (d a : Reg) (s : State) : Host.Outcome State Fault Refusal :=
  aluWord (.cvtif h ty f r d a) s d 1 fun e l =>
    intToF f r (IntTy.val ty (BitVec.ofNat 64 (wideRead s e.gr e.wp a.toNat l (IntTy.regs ty))))

def execPaddh (h : Hdr) (bf : Bool) (r : Rnd) (ftz : Bool) (d a b : Reg) (s : State) : Host.Outcome State Fault Refusal :=
  aluWord (.paddh h bf r ftz d a b) s d 1 fun e l => (packed (fadd (halfFmt bf) r ftz) (e.v s a l) (e.v s b l)).toNat

def execPmulh (h : Hdr) (bf : Bool) (r : Rnd) (ftz : Bool) (d a b : Reg) (s : State) : Host.Outcome State Fault Refusal :=
  aluWord (.pmulh h bf r ftz d a b) s d 1 fun e l => (packed (fmul (halfFmt bf) r ftz) (e.v s a l) (e.v s b l)).toNat

def execPfmah (h : Hdr) (bf : Bool) (r : Rnd) (ftz : Bool) (d a b c : Reg) (s : State) : Host.Outcome State Fault Refusal :=
  aluWord (.pfmah h bf r ftz d a b c) s d 1 fun e l =>
    (packed3 (ffma (halfFmt bf) r ftz false false) (e.v s a l) (e.v s b l) (e.v s c l)).toNat

def execPmnxh (h : Hdr) (bf mx : Bool) (d a b : Reg) (s : State) : Host.Outcome State Fault Refusal :=
  aluWord (.pmnxh h bf mx d a b) s d 1 fun e l => (packed (fmnx (halfFmt bf) mx) (e.v s a l) (e.v s b l)).toNat

def execFdot2 (h : Hdr) (bf : Bool) (r : Rnd) (ftz : Bool) (d a b c : Reg) (s : State) : Host.Outcome State Fault Refusal :=
  aluWord (.fdot2 h bf r ftz d a b c) s d 1 fun e l =>
    let x := (e.v s a l).toNat
    let y := (e.v s b l).toNat
    fdot2 (halfFmt bf) r ftz (x % 65536) (y % 65536) (x / 65536) (y / 65536) (e.v s c l).toNat

/-- FQUANT: with NF, a lane with a NaN or an invalid scale faults MFMT (R95). -/
def execFquant (h : Hdr) (f : QFmt) (k : BitVec 3) (nf : Bool) (d a b c : Reg) (s : State) : Host.Outcome State Fault Refusal :=
  runWord (.fquant h f k nf d a b c) s fun e t =>
    let bad := e.live &&& maskOf fun l => (fquant f (e.v t a l).toNat (e.v t b l).toNat).2
    if nf && bad != 0 then .trap t .mfmt bad 0xFF 0
    else .done (writeLanes e t d.toNat 1 fun l =>
      (putField f k.toNat (fquant f (e.v t a l).toNat (e.v t b l).toNat).1 (e.v t c l)).toNat)

def execFdeq (h : Hdr) (f : QFmt) (k : BitVec 3) (r : Rnd) (ftz : Bool) (d a b : Reg) (s : State) : Host.Outcome State Fault Refusal :=
  aluWord (.fdeq h f k r ftz d a b) s d 1 fun e l => fdeq f r ftz (getField f k.toNat (e.v s a l)) (e.v s b l).toNat

def execFexpd (h : Hdr) (ftz : Bool) (d a b : Reg) (s : State) : Host.Outcome State Fault Refusal :=
  aluWord (.fexpd h ftz d a b) s d 1 fun e l => fexpd ftz (e.v s a l).toNat (e.v s b l).toNat

def execFlse (h : Hdr) (d a b : Reg) (s : State) : Host.Outcome State Fault Refusal :=
  aluWord (.flse h d a b) s d 2 fun e l =>
    let x := (e.d s a l).toNat
    let y := (e.d s b l).toNat
    let r := flse (x % 2 ^ 32) (x / 2 ^ 32) (y % 2 ^ 32) (y / 2 ^ 32)
    r.1 + 2 ^ 32 * r.2

def execFtwosum (h : Hdr) (d a b : Reg) (s : State) : Host.Outcome State Fault Refusal :=
  aluWord (.ftwosum h d a b) s d 2 fun e l =>
    let r := ftwosum (e.v s a l).toNat (e.v s b l).toNat
    r.1 + 2 ^ 32 * r.2

end Sys2Proof.Machine
end

