-- ==== Sys2Proof/Machine/Control.lean ====
section
/-! DEFINITION. Control flow, divergence and lane exchange (R100 to R126). -/

namespace Sys2Proof.Machine

/-- A transfer: live lanes go to their targets, the others to the next word (R111). -/
def transfer (e : Env) (s : State) (target : Nat → DWord) : State :=
  modWarp s e.g e.w fun x => setPcs (advance x (e.atPc &&& ~~~e.live)) e.live target

/-- The target of a relative transfer (R32). -/
def relTarget (pc : DWord) (off : BitVec 24) : DWord := pc + off.signExtend 64 <<< 3

/-- The link of a call: bits [63:57] are zero (R112). -/
def linkOf (pc : DWord) : DWord := (pc + 8) &&& 0x1FFFFFFFFFFFFFF

/-- The return predictor takes the link, the oldest of eight goes (R114). That a CALL or RET without a live lane leaves it as
it is, is the model's choice (log entry 67). -/
def pushLink (e : Env) (s : State) : State :=
  if e.live = 0 then s else modWarp s e.g e.w fun x => { x with predictor := (linkOf e.pc :: x.predictor).take 8 }

/-- A RET takes the newest link; one without a live lane takes none, the model's choice (R114, log entry 67). -/
def popLink (e : Env) (s : State) : State :=
  if e.live = 0 then s else modWarp s e.g e.w fun x => { x with predictor := x.predictor.drop 1 }

def execBra (h : Hdr) (off : BitVec 24) (s : State) : Host.Outcome State Fault Refusal :=
  runWord (.bra h off) s fun e t => .jump (transfer e t fun _ => relTarget e.pc off)

def execBrx (h : Hdr) (a : Reg) (s : State) : Host.Outcome State Fault Refusal :=
  runWord (.brx h a) s fun e t => .jump (transfer e t fun l => e.d t a l)

def execCall (h : Hdr) (d : Reg) (off : BitVec 24) (s : State) : Host.Outcome State Fault Refusal :=
  runWord (.call h d off) s fun e t =>
    .jump (pushLink e (transfer e (writeLanes e t d.toNat 2 fun _ => (linkOf e.pc).toNat) fun _ => relTarget e.pc off))

/-- CALLX reads the target before it writes the link (R112). -/
def execCallx (h : Hdr) (d a : Reg) (s : State) : Host.Outcome State Fault Refusal :=
  runWord (.callx h d a) s fun e t =>
    .jump (pushLink e (transfer e (writeLanes e t d.toNat 2 fun _ => (linkOf e.pc).toNat) fun l => e.d t a l))

def execRet (h : Hdr) (a : Reg) (s : State) : Host.Outcome State Fault Refusal :=
  runWord (.ret h a) s fun e t => .jump (popLink e (transfer e t fun l => e.d t a l))

/-- EXIT: live lanes exit, the others go on (R115). -/
def execExit (h : Hdr) (s : State) : Host.Outcome State Fault Refusal :=
  runWord (.exit h) s fun e t => .done (modWarp t e.g e.w fun x =>
    { x with lanes := x.lanes.mapIdx fun l y => if bit e.live l then { y with exited := true } else y })

/-! ## Member masks -/

/-- The members of a lane-exchange word, or its WMASK fault (R116): the mask is read in the leader, and names no lane that is
not in the word's lane group, exited or at another program counter as the selection chose it. -/
def members (e : Env) (s : State) (m : Option Reg) : Except (DWord × DWord) Mask :=
  match m with
  | none => .ok e.live
  | some r => match leader e.live with
    | none => .ok 0
    | some k =>
      let mask := e.v s r k
      if mask &&& ~~~e.atPc ≠ 0 ∨ !bit mask k then .error (mask.setWidth 64, e.live.setWidth 64) else .ok (e.live &&& mask)

/-- A lane-exchange word with a long-latency result of n registers: members by `f`, non-members their own value. -/
def exchange (i : Instr) (s : State) (d : Reg) (n : Nat) (m : Option Reg) (own : Env → Nat → Nat) (f : Env → Mask → Nat → Nat) :
    Host.Outcome State Fault Refusal :=
  runWord i s fun e t => match members e t m with
    | .error (d0, d1) => .trap t .wmask e.live d0 d1
    | .ok mem => .done (laterValue e t d.toNat n fun l => if bit mem l then f e mem l else own e l)

def VoteOp.eval (op : VoteOp) (mem ones : Mask) : Nat :=
  match op with
  | .every => oneIf (ones == mem)
  | .some => oneIf (ones != 0)
  | .same => oneIf (ones == mem || ones == 0)
  | .mask => ones.toNat
  | .count => (lanesOf ones).length

def execVote (h : Hdr) (op : VoteOp) (d a : Reg) (m : Option Reg) (s : State) : Host.Outcome State Fault Refusal :=
  exchange (.vote h op d a m) s d 1 m (fun e l => (e.v s a l).toNat) fun e mem _ =>
    VoteOp.eval op mem (mem &&& maskOf fun k => (e.v s a k).getLsbD 0)

/-- The lane a SHFL takes its value from (R118). -/
def ShflOp.source (op : ShflOp) (wrap : Bool) (n l : Nat) : Option Nat :=
  match op with
  | .lane => some (n % 32)
  | .below => if n ≤ l then some (l - n) else if wrap then some ((l + 32 - n % 32) % 32) else none
  | .above => if l + n ≤ 31 then some (l + n) else if wrap then some ((l + n) % 32) else none
  | .xor => some (l ^^^ (n % 32))

def execShfl (h : Hdr) (op : ShflOp) (wr w : Bool) (d a : Reg) (n : Count) (m : Option Reg) (s : State) :
    Host.Outcome State Fault Refusal :=
  exchange (.shfl h op wr w d a n m) s d (wide w) m (fun e l => wideRead s e.gr e.wp a.toNat l (wide w)) fun e mem l =>
    let k := match n with
      | .imm i => i.toNat
      | .reg r => (e.v s r l).toNat
    let j := match ShflOp.source op wr k l with
      | some j => if bit mem j then j else l
      | none => l
    wideRead s e.gr e.wp a.toNat j (wide w)

/-- The combination of a reduction (R119). -/
def RedOp.eval (op : RedOp) (x y : Word) : Word :=
  match op with
  | .add => x + y
  | .minS => MnxOp.eval .minS x y
  | .maxS => MnxOp.eval .maxS x y
  | .minZ => MnxOp.eval .minZ x y
  | .maxZ => MnxOp.eval .maxZ x y
  | .and => x &&& y
  | .or => x ||| y
  | .xor => x ^^^ y
  | .fadd => BitVec.ofNat 32 (fadd .f32 .rn false x.toNat y.toNat)
  | .fmin => BitVec.ofNat 32 (fmnx .f32 false x.toNat y.toNat)
  | .fmax => BitVec.ofNat 32 (fmnx .f32 true x.toNat y.toNat)

def RedOp.identity : RedOp → Word
  | .add => 0 | .minS => 0x7FFFFFFF | .maxS => 0x80000000 | .minZ => 0xFFFFFFFF | .maxZ => 0 | .and => 0xFFFFFFFF
  | .or => 0 | .xor => 0 | .fadd => 0x80000000 | .fmin => 0x7F800000 | .fmax => 0xFF800000

/-- Absent operands give way to present ones (R119). -/
def RedOp.join (op : RedOp) : Option Word → Option Word → Option Word
  | none, y => y
  | x, none => x
  | some x, some y => some (RedOp.eval op x y)

/-- One level of the pairing tree: neighbours are combined. -/
def pairUp (op : RedOp) : List (Option Word) → List (Option Word)
  | x :: y :: r => RedOp.join op x y :: pairUp op r
  | l => l

/-- The fixed pairing tree over 32 lanes (R119). -/
def reduceTree (op : RedOp) (vals : List (Option Word)) : Option Word :=
  ((pairUp op (pairUp op (pairUp op (pairUp op (pairUp op vals))))).head?).getD none

def memberVals (e : Env) (s : State) (mem : Mask) (a : Reg) : List (Option Word) :=
  (List.range 32).map fun l => if bit mem l then some (e.v s a l) else none

def execWred (h : Hdr) (op : RedOp) (d a : Reg) (m : Option Reg) (s : State) : Host.Outcome State Fault Refusal :=
  exchange (.wred h op d a m) s d 1 m (fun e l => (e.v s a l).toNat) fun e mem _ =>
    ((reduceTree op (memberVals e s mem a)).getD 0).toNat

/-- The fold of the members up to a lane, in lane order (R119). -/
def scanTo (op : RedOp) (vals : List (Option Word)) : Option Word := vals.foldl (RedOp.join op) none

def execWscan (h : Hdr) (op : RedOp) (excl : Bool) (d a : Reg) (m : Option Reg) (s : State) : Host.Outcome State Fault Refusal :=
  exchange (.wscan h op excl d a m) s d 1 m (fun e l => (e.v s a l).toNat) fun e mem l =>
    let vals := memberVals e s mem a
    ((scanTo op (vals.take (if excl then l else l + 1))).getD (RedOp.identity op)).toNat

def execMatchw (h : Hdr) (op : MatchOp) (w : Bool) (d a : Reg) (m : Option Reg) (s : State) : Host.Outcome State Fault Refusal :=
  exchange (.matchw h op w d a m) s d 1 m (fun e l => (e.v s a l).toNat) fun e mem l =>
    let val (k : Nat) : Nat := wideRead s e.gr e.wp a.toNat k (wide w)
    let peers := mem &&& maskOf fun k => val k == val l
    match op with
    | .peers => peers.toNat
    | .lead => (leader peers).getD 0
    | .uniform => if peers = mem then mem.toNat else 0

/-- ELECT: the leader writes 1, every other live lane 0 (R121). -/
def execElect (h : Hdr) (d : Reg) (m : Option Reg) (s : State) : Host.Outcome State Fault Refusal :=
  runWord (.elect h d m) s fun e t => match members e t m with
    | .error (d0, d1) => .trap t .wmask e.live d0 d1
    | .ok _ => .done (writeLanes e t d.toNat 1 fun l => oneIf (leader e.live == some l))

/-- A write that a lane of the mask has made has not reached its L1 (R123). -/
def l1Pending (s : State) (g w : Nat) (mem : Mask) : Bool := s.pend.any fun p => p.group == g && p.warp == w && bit mem p.lane && !p.atL1

/-- WSYNC holds until the writes of its members are at the L1 (R123); scratchpad writes are performed as they issue. -/
def execWsync (h : Hdr) (m : Option Reg) (s : State) : Host.Outcome State Fault Refusal :=
  runWord (.wsync h m) s fun e t => match members e t m with
    | .error (d0, d1) => .trap t .wmask e.live d0 d1
    | .ok mem => if l1Pending t e.g e.w mem then .hold t (.wsync mem) e.atPc else .done t

/-- YIELDL (R102, R124). -/
def execYieldl (mark : Bool) (s : State) : Host.Outcome State Fault Refusal :=
  runWord (.yieldl mark) s fun e t => .done (modWarp t e.g e.w fun x =>
    { x with lanes := x.lanes.mapIdx fun l y => if bit e.atPc l then { y with yields := 64 } else y })

/-- BRKPT (R125): with BRK set the live lanes stop and the core halts; clear, the word faults SWTRAP. -/
def execBrkpt (h : Hdr) (k : BitVec 8) (s : State) : Host.Outcome State Fault Refusal :=
  runWord (.brkpt h k) s fun e t =>
    if e.live = 0 then .done t
    else if ((ctx? t e.gr.ctx).map (·.dbg.getLsbD 0)).getD false then
      .hold (modCore t e.gr.core fun c => { c with halted := true }) .brkpt e.live
    else .trap t .swtrap e.live (k.setWidth 64) 0

end Sys2Proof.Machine
end

