-- ==== Sys2Proof/Machine/Access.lean ====
section
/-! DEFINITION. The accesses of words: addresses and their checks lane by lane (R9, R184, R185, R201), reads and
writes of memory and of scratchpad, private heap lines (R132, R134), and what releases wait for (R219). -/

namespace Sys2Proof.Machine

/-- What a lane's check ends in: a fault with its details, or an address without memory behind it. -/
abbrev LaneFault := Option (Code × DWord × DWord)

def bad {α : Type} (c : Code) (d0 d1 : DWord) : Except LaneFault α := .error (some (c, d0, d1))

/-- Lane by lane, in increasing order: the lanes that fault, and what the others leave and give. -/
def eachLane {α : Type} (f : State → Nat → Except LaneFault (State × α)) :
    List Nat → State → List (Nat × LaneFault) × State × List (Nat × α)
  | [], s => ([], s, [])
  | l :: r, s => match f s l with
    | .ok (t, a) => let x := eachLane f r t; (x.1, x.2.1, (l, a) :: x.2.2)
    | .error y => let x := eachLane f r s; ((l, y) :: x.1, x.2)

/-- The answer of a word whose lanes have faulted (R9): the lowest lane's code, with every lane that reached it, and no
effect. -/
def laneFault (s : State) (fs : List (Nat × LaneFault)) : Option WordRes :=
  match fs with
  | [] => none
  | (_, none) :: _ => some (.stop .noSuchMemory)
  | (_, some (c, d0, d1)) :: _ =>
    some (.trap s c (maskOf fun l => fs.any fun x => x.1 == l && (match x.2 with | some y => y.1 == c | none => false)) d0 d1)

/-- Checks every live lane before any has an effect (R9). -/
def lanesThen {α : Type} (e : Env) (s : State) (f : State → Nat → Except LaneFault (State × α))
    (k : State → List (Nat × α) → WordRes) : WordRes :=
  let x := eachLane f (lanesOf e.live) s
  match laneFault s x.1 with
  | some r => r
  | none => k x.2.1 x.2.2

def pureLane {α : Type} (s : State) : Except LaneFault α → Except LaneFault (State × α)
  | .ok a => .ok (s, a)
  | .error x => .error x

/-! ## Addresses -/

/-- The address of a global access: d[A] plus an offset in units of n bytes (R201). -/
def memVa (e : Env) (s : State) (a : Reg) (off : BitVec 8) (n l : Nat) : DWord := e.d s a l + wrap 64 (off.toInt * n)

/-- The scratchpad offset of an access, checked (R184, R185, R201). -/
def spmAddr (e : Env) (s : State) (a : Reg) (off : BitVec 8) (n l : Nat) : Except LaneFault Nat :=
  let o : Int := (e.v s a l).toNat + off.toInt * n
  if o < 0 ∨ o + n > e.gr.spmSize then bad .prot (wrap 64 o) 0
  else if o % n ≠ 0 then bad .align (wrap 64 o) 0
  else .ok o.toNat

/-- The scratchpad offset of an access that reads: a check granule in error faults ECCU (R212, R221, R414), with the offset as
detail 0 (log entry 67). -/
def spmRead (e : Env) (s : State) (a : Reg) (off : BitVec 8) (n l : Nat) : Except LaneFault Nat := do
  let o ← spmAddr e s a off n l
  match spmError e.gr o n with
  | some x => bad .eccu (BitVec.ofNat 64 x) 0
  | none => pure o

/-- The link behind a leaf is down (R398, R407). -/
def linkLost (s : State) (l : Leaf) : Bool :=
  (l.space == 1 && !s.mgmt.linkUp) || (decide (3 ≤ l.space) && decide (l.space ≤ 10) &&
    !((s.ports[l.space - 3]?.map (·.up)).getD false))

/-- The page of a translation by its size (R189). -/
def pageOf (va : DWord) (size : Nat) : Nat := va.toNat / 2 ^ (if size = 2 then 30 else if size = 1 then 21 else 16)

/-- The TLB entry of a translation (R190). -/
def tlbOf (c : Nat) (va : DWord) (lf : Leaf) : Tlb := { ctx := c, page := pageOf va lf.size, size := lf.size, slot := lf.vs, lines := lf.lines }

/-- A TLB holds an entry. -/
def inTlb (s : State) (k : Nat) (x : Tlb) : Bool := ((sget? s.tlbs k).getD []).contains x

/-- The TLB entry that translates an access holds an uncorrectable error (R414): the core's, or where the core has none the cluster's. -/
def tlbError (s : State) (e : Env) (va : DWord) (l : Leaf) : Bool :=
  let x := tlbOf e.gr.ctx va l
  let k := if inTlb s e.gr.core x then e.gr.core else 768 + e.gr.core / 2
  inTlb s k x && s.errs.contains (.tlb k x)

/-- The checks of a global access in their order: bounds, alignment, translation, link (R201, R349); a translation in error faults
ECCU (R414). -/
def memLeaf (s : State) (e : Env) (va : DWord) (n kind need : Nat) : Except LaneFault Leaf :=
  if va.toNat ≥ 2 ^ 57 then bad .prot va 0
  else if va.toNat % n ≠ 0 then bad .align va 0
  else match translate s e.die e.gr.ctx (gens s e.gr) va { kind := kind, need := need } with
    | .ok l => if linkLost s l then bad .linklost va 0 else if tlbError s e va l then bad .eccu (BitVec.ofNat 64 l.addr) 0 else .ok l
    | .bad c d0 d1 => bad c d0 d1
    | .hole => .error none

/-- The group of a word as the state now has it. -/
def Env.now (e : Env) (s : State) : Group := (group? s e.g).getD e.gr

/-- Where an access to a leaf lands for its group: a private heap line where there is one (R134). -/
def seenAt (s : State) (e : Env) (l : Leaf) : Nat :=
  if l.space = 0 ∨ l.space = 11 then viewAddr s (e.now s) l.addr else l.addr

/-- Device scope or wider. -/
def devScope (sc : Scope) : Bool := sc == .dev || sc == .sys

def MOrd.rel (o : MOrd) : Bool := o == .rel || o == .seq
def MOrd.isAcq (o : MOrd) : Bool := o == .acq || o == .seq

/-- Sequential at device scope or wider: the access is performed at its home within the word (R235). -/
def seqHome (o : MOrd) (sc : Scope) : Bool := o == .seq && devScope sc

/-- A cluster has an L1 (R192): a split of its two cores has an L1 granule. -/
def hasL1 (s : State) (c : Nat) : Bool :=
  decide (0 < (core s (2 * (c / 2))).split.toNat / 1024) || decide (0 < (core s (2 * (c / 2) + 1)).split.toNat / 1024)

/-- An error in what the cluster's L1 holds of a line that an access reads there (R414, R430). -/
def l1Error (s : State) (e : Env) (lf : Leaf) (k n : Nat) : Bool :=
  decide (2 ≤ lf.cache) && (s.errs.any fun x => match x with
    | .line c g => c == e.gr.core / 2 && overlaps (4 * g) 4 k n
    | _ => false) && hasL1 s e.gr.core && (lineIn s (e.gr.core / 2) (k / 256)).isSome

/-- The bytes a load reads (R186, R201, R230): refused by a peer, zeros (R397); in error, ECCU (R414). Lane l may skip writes
that its die need not see yet. -/
def readMem (s : State) (e : Env) (lf : Leaf) (n : Nat) (home : Bool) (l : Nat) : Except LaneFault (List Byte) :=
  let a := seenAt s e lf
  if eccHit s e.die lf.space a n || (!home && l1Error s e lf (memKey lf.space a) n) then bad .eccu (BitVec.ofNat 64 a) 0
  else if 3 ≤ lf.space ∧ lf.space ≤ 10 ∧ boundTo s (lf.space - 3) e.gr.ctx = none then .ok (zeros n)
  else .ok (readBytes s e.die lf.space a n (if home then [] else skipped s e.die (memKey lf.space a) n l))

/-! ## What reads and writes tell (R230 to R238) -/

/-- What a lane of a warp has heard from the releases it has read, those of the host apart. -/
def heardAt (wp : Warp) (l : Nat) (sys : Bool) : View := ((wp.heard.find? fun x => x.1 == l && x.2.1 == sys).map (·.2.2)).getD View.empty

/-- A lane has heard a view. -/
def hear (l : Nat) (sys : Bool) (v : View) (wp : Warp) : Warp :=
  if v = View.empty then wp else
  { wp with heard := (l, sys, (heardAt wp l sys).join v) :: wp.heard.filter fun x => !(x.1 == l && x.2.1 == sys) }

/-- A read of lane l has read writes (R230 to R232): its die has seen them, the lane has heard their releases, and an acquire
synchronises with those of its scope; an acquire of host memory keeps what follows after it (R237). -/
def afterRead (s : State) (e : Env) (acq : Bool) (sc : Scope) (sp a n : Nat) (skip : List Ver) (l : Nat) : State :=
  let k := memKey sp a
  let xs := sources s k n skip
  let s1 := sawBytes s e.die k n skip
  if xs.isEmpty then s1 else
  let s2 := modWarp s1 e.g e.w fun x => hear l true (heardView true xs) (hear l false (heardView false xs) x)
  let host : View := { clock := [(hostAgent, xs.foldl (fun m x => max m x.stamp) 0)], seen := [] }
  let s3 := if acq && sp == 1 then learn s2 e.die host else s2
  if acq && devScope sc then learn s3 e.die (heardView (sc == .sys) xs) else s3

/-- A read of scratchpad by lane l of a byte-count barrier: it hears what the barrier's credits cover, and an acquire joins it
(R224, R232, R236). -/
def readCredit (e : Env) (acq : Bool) (s : State) (l a : Nat) : State :=
  match sget? e.gr.credits (a / 8 * 8) with
  | none => s
  | some v =>
    let s1 := modWarp s e.g e.w (hear l false v)
    if acq then learn s1 e.die v else s1

/-- What a reader of a write of lane l synchronises with (R232): the release that the write is, or a fence before it. -/
def relOf (s : State) (e : Env) (rel : Bool) (sc : Scope) (l : Nat) : Option View :=
  let fence := ((warp? s e.g e.w).bind fun x => x.fenced.find? (·.1 == l)).map (·.2)
  if rel && devScope sc then some ((relView s e.die).join (fence.getD View.empty)) else fence

/-- The nearest cache that an access uses by its page and its policy (R194): 2 the L1, 1 the L2, 0 none. -/
def levelOf (s : State) (e : Env) (lf : Leaf) (pol : BitVec 3) : Nat :=
  if lf.cache = 0 then 0 else if lf.cache = 1 ∨ pol = 1 ∨ pol = 2 ∨ !hasL1 s e.gr.core then 1 else 2

/-! ## Writes -/

/-- The next line for a private copy (R134, R135): of the backing page in use, or of a page taken from the pool. An
empty pool faults PAGE, with 256 added to the access kind to say so. -/
def backingLine (s : State) (gr : Group) (va : DWord) (kind : Nat) : Except LaneFault (State × Nat) :=
  let fresh : Except LaneFault (State × Nat) :=
    match (grid? s gr.grid).map (·.pool) with
    | none => bad .prot va 0
    | some 0 => bad .prot va 0
    | some pool =>
      match devRead s gr.ctx (gens s gr) (BitVec.ofNat 64 pool) 64 64 with
      | .wait x => bad .page x 5
      | .bad _ _ => bad .prot va 0
      | .hole => .error none
      | .ok b =>
        let count := field b 8 4
        let next := field b 12 4
        if field b 0 8 % 8 ≠ 0 ∨ !((b.drop 16).all (· == 0)) ∨ next > count then bad .prot va 0
        else if next = count then bad .page va (BitVec.ofNat 64 (kind + 256))
        else match devRead s gr.ctx (gens s gr) (BitVec.ofNat 64 (field b 0 8 + 8 * next)) 8 8 with
          | .wait x => bad .page x 5
          | .bad _ _ => bad .prot va 0
          | .hole => .error none
          | .ok q =>
            let page := leNat q
            if page % 65536 ≠ 0 ∨ page ≥ physTop then bad .prot va 0
            else match devWrite s gr.ctx (gens s gr) (BitVec.ofNat 64 (pool + 12)) 4 (leBytes 4 (next + 1)) with
              | .ok t => .ok (modGroup t gr.id fun x => { x with heapPage := some (page, 1) }, page / 256)
              | .wait x => bad .page x 5
              | .bad _ _ => bad .prot va 0
              | .hole => .error none
  match gr.heapPage with
  | some (page, used) =>
    if used < 256 then .ok (modGroup s gr.id fun x => { x with heapPage := some (page, used + 1) }, page / 256 + used) else fresh
  | none => fresh

/-- The address of a template store (R132): the instance's own line, copied from what it saw at its first write. An
uncorrectable error in the line copied faults ECCU (R414). -/
def privateLine (s : State) (e : Env) (va : DWord) (sp a kind : Nat) : Except LaneFault (State × Nat) :=
  let src := viewAddr s (e.now s) (256 * (a / 256))
  match sget? (e.now s).heap (a / 256) with
  | some p => .ok (s, 256 * p + a % 256)
  | none => if eccHit s e.die sp src 256 then bad .eccu (BitVec.ofNat 64 src) 0 else match backingLine s (e.now s) va kind with
    | .error x => .error x
    | .ok (t, p) =>
      let bytes := viewBytes s e.die sp src 256
      .ok (modGroup (putHomeBytes t sp (256 * p) bytes) e.g fun x => { x with heap := sput x.heap (a / 256) p }, 256 * p + a % 256)

/-- Region number for a record: 0x100 for a region of another context (R250). -/
def regionDetail (e : Env) (r : Region) : DWord := BitVec.ofNat 64 (if r.ctx = e.gr.ctx then r.num else 0x100)

/-- Where a write lands, or its fault: TEMPLATE (R136), a template store (R132), ORREG for a backing (R250). The checks are those of
the state b before its word (R9); u has what the lanes before it have done. -/
def writeTarget (b u : State) (e : Env) (va : DWord) (l : Leaf) (n kind : Nat) : Except LaneFault (State × Nat) :=
  if l.space ≠ 0 ∧ l.space ≠ 11 then .ok (u, l.addr)
  else if areaHit b l.addr n then bad .template va 0
  else match heapHit b l.addr n with
    | some t => if ownHeap b (e.now b) t then privateLine u e va l.space l.addr kind else bad .template va 0
    | none => match backingOf b l.addr n with
      | some r => bad .orreg (regionDetail e r) 0
      | none => .ok (u, l.addr)

/-- The first leaf that a write would leave negative in a non-negative region (R251), with its address. -/
def negWrite (s : State) (d sp a : Nat) (data : List Byte) : Option DWord :=
  if sp ≠ 0 ∧ sp ≠ 11 then none else
  (s.regions.filter (·.nonneg)).findSome? fun r =>
    ((leavesIn r a data.length).find? fun j =>
      let b := (List.range (Region.leaf r)).map fun i =>
        let x := leafPa r j + i
        if a ≤ x ∧ x < a + data.length then data[x - a]?.getD 0 else viewByte s d sp x
      negLeaf r (leafInt r (leNat b))).map fun j => BitVec.ofNat 64 (r.base + j * Region.leaf r)

/-- What a plain store of lane l carries. -/
def plainTag (s : State) (e : Env) (lf : Leaf) (l : Nat) : StoreTag :=
  { lane := l, level := levelOf s e lf 0, half := 0, release := false, rel := relOf s e false .die l }

/-- One lane's store: 16 bytes of host memory are two halves, the lower first (R185). -/
def putStore (s : State) (e : Env) (t : StoreTag) (sp a : Nat) (data : List Byte) (seq : Bool) : State :=
  let one (h : Nat) (u : State) (x : Nat) (b : List Byte) : State :=
    if seq then storeHome u e.die e.g e.w { t with half := h } sp x b else storeView u e.die e.g e.w { t with half := h } sp x b
  if sp = 1 ∧ data.length = 16 then one 2 (one 1 s a (data.take 8)) (a + 8) (data.drop 8) else one 0 s a data

/-- A lane's store through a leaf: where it lands, and that it leaves no non-negative leaf negative (R251). -/
def storeThrough (b u : State) (e : Env) (va : DWord) (lf : Leaf) (data : List Byte) (tag : State → StoreTag) (seq : Bool) :
    Except LaneFault (State × (Nat × Nat)) := do
  let (u1, pa) ← writeTarget b u e va lf data.length 1
  match negWrite u1 e.die lf.space pa data with
  | some x => bad .orneg x 0
  | none => pure (putStore u1 e (tag u1) lf.space pa data seq, (lf.space, pa))

/-- A page-table write whose line an accepted operation pins (R190, R305). -/
def pinnedWrite (s : State) (p : PendWrite) : Bool :=
  decide (p.addr < 2 ^ 58) && (pinnedLines s).any fun x => overlaps p.addr p.data.length (64 * x) 64

/-- A write of the host or a peer to a line of an affected partition, while a REPARTITION runs (R401): a page that a context of the
partition maps. -/
def heldByTable (s : State) (p : PendWrite) : Bool :=
  decide (5 ≤ p.die) && s.ctxs.any fun c => (partAt s (partOfCtx s c.1)).stopped && mapsPage s c.1 p.addr levels c.2.root

/-- Write p cannot be performed yet: pinned translations, a REPARTITION (R401), a region under build (R259), or an error in the line
that holds it (R414). -/
def stuckWrite (s : State) (p : PendWrite) : Bool :=
  pinnedWrite s p || heldByTable s p || l1Spoiled s p || heldAtSlice s (keySpace p.uncached p.addr) (p.addr % 2 ^ 58) p.data.length

/-- The write of an access has to wait at its home: a leaf of a region under build, a pinned page-table line, or an older
write that it follows and that waits itself. -/
def homeStuck (s : State) (d sp a n : Nat) : Bool :=
  heldAtSlice s sp a n || ((sp == 0 || sp == 11) && (pinnedLines s).any fun x => overlaps a n (64 * x) 64) ||
  (chainAt s d (memKey sp a) n).1.any (stuckWrite s)

/-- Some write of a die cannot be performed yet. -/
def stuck (s : State) (d : Nat) : Bool := s.pend.any fun p => p.die == d && stuckWrite s p

/-- The part of a word that a release of its scope precedes (R232, R233): at device scope or wider, every earlier write
of the die is performed first; while one cannot be, the word waits. -/
def afterRelease (e : Env) (s : State) (rel : Bool) (sc : Scope) (k : State → WordRes) : WordRes :=
  if rel && devScope sc && e.live != 0 then
    if stuck s e.die then .hold s .accept e.atPc else k (drainDie s e.die)
  else k s

/-! ## Scratchpad banks -/

/-- The largest number of distinct words that some bank serves (R198), at least 1. -/
def phaseCost (ws : List Nat) : Nat :=
  (List.range 32).foldl (fun m b => max m ((ws.foldl sins []).filter fun w => w % 32 == b).length) 1

/-- The bank-conflict cycles of a scratchpad word (R198): every phase's cost above 1. -/
def bankConflicts (n : Nat) (at_ : List (Nat × Nat)) : Nat :=
  let phases := if n = 16 then 4 else if n = 8 then 2 else 1
  ((List.range phases).map fun p =>
    phaseCost ((at_.filter fun x => x.1 / (32 / phases) == p).flatMap fun x => (List.range ((n + 3) / 4)).map (x.2 / 4 + ·)) - 1).sum

/-- Counts a scratchpad word's conflicts (R198, R368). -/
def countBanks (e : Env) (s : State) (n : Nat) (at_ : List (Nat × Nat)) : State :=
  countEvent s e.gr.core e.gr.ctx 4 (bankConflicts n at_)

end Sys2Proof.Machine
end

