-- ==== Sys2Proof/Machine/Caches.lean ====
section
/-! DEFINITION. What the caches, the TLBs and the snoop filter hold (R190 to R197, R202, R239), as tags: which lines and
translations, not their bytes. A word notes here what it brings in and drops; the counters of R368 read it. No value that a
word computes depends on it. How an index is formed of an address, and which line of a full set leaves, the spec does not
say: the lines of a set are those equal modulo the number of sets, and the victim is the least recently used line of lowest
retention, or where there is none one that the step's free number names (log entry 68). -/

namespace Sys2Proof.Machine

/-! ## Lines -/

/-- The sets of a cache (R192): 16 ways of 256-byte lines; an L1 has its cores' granules, a slice 2 MiB. -/
def cacheSets (s : State) (k : Nat) : Nat :=
  if k < 384 then 16 * ((core s (2 * k)).split.toNat / 1024 + (core s (2 * k + 1)).split.toNat / 1024) else 512

/-- A line is no longer in a cache. -/
def dropLine (s : State) (k line : Nat) : State := { s with caches := sput s.caches k ((linesIn s k).filter (·.line != line)) }

/-- A line in a cache is changed. -/
def modLine (s : State) (k line : Nat) (f : CLine → CLine) : State :=
  { s with caches := sput s.caches k ((linesIn s k).map fun x => if x.line = line then f x else x) }

/-- Some byte of a device line is written in the caches (R192). -/
def lineDirty (s : State) (line : Nat) : Bool :=
  (s.l2.any fun p => p.1 / 256 == line) || s.pend.any fun p => overlaps (256 * line) 256 p.addr p.data.length

/-- The line that leaves a full set for another (R192, R194): the oldest of lowest retention, else a free choice. -/
def victim (s : State) (set : List CLine) : Option CLine :=
  match (set.filter (·.low)).getLast? with
  | some x => some x
  | none => set[(if s.draw = 0 then 15 else Config.choose s.draw 4096 % 16)]?

/-- A line is used in a cache, last of all (R192): a line that needs storage and finds none takes that of another of its set. -/
def putLine (s : State) (k : Nat) (x : CLine) : State :=
  let old := (linesIn s k).filter (·.line != x.line)
  let set := old.filter fun y => y.line % max 1 (cacheSets s k) == x.line % max 1 (cacheSets s k) && y.zero == 0
  let gone := if x.zero = 0 ∧ 16 ≤ set.length then (victim s set).map (·.line) else none
  { s with caches := sput s.caches k (x :: old.filter fun y => some y.line != gone) }

/-- The 64-byte sectors that n bytes from an address on have in its line. -/
def sectorsOf (a n : Nat) : Nat := ((List.range 4).filter fun i => overlaps (64 * i) 64 (a % 256) n).foldl (fun m i => m + 2 ^ i) 0

/-- Memory holds zeros in a whole line (R193). -/
def zeroLine (s : State) (line : Nat) : Bool := !lineDirty s line && (List.range 256).all fun i => memByte s.mem (256 * line + i) == 0

/-- The line as a cache has it after a fill of some sectors from memory or another cache (R192 to R194). -/
def filled (s : State) (k line secs pol : Nat) : CLine :=
  match lineIn s k line with
  | some x => { x with secs := x.secs ||| secs, low := x.low && pol == 3 }
  | none => { line := line, secs := secs, count := 0, zero := if zeroLine s line then 1 else 0, low := pol == 3, own := false }

/-- The reads of a counted fill (R194), none for another policy. -/
def countOf (pol : Nat) : Nat := if 4 ≤ pol then 2 ^ (pol - 4) else 0

/-- A load word has hit a line: its count falls, and at zero a line without written bytes is invalidated (R195). -/
def countHit (s : State) (k line : Nat) : State :=
  match lineIn s k line with
  | some x =>
    if x.count = 0 then s
    else if x.count = 1 ∧ !lineDirty s line then dropLine s k line
    else modLine s k line fun y => { y with count := y.count - 1 }
  | none => s

/-- The count that a load of a counted-fill policy gives a line without one (R195). -/
def countSet (s : State) (k line pol : Nat) : State :=
  if pol < 4 then s else modLine s k line fun y => if y.count = 0 then { y with count := countOf pol } else y

/-- A read of a line at a cache that allocates it there: whether it hit. A hit on a line with a count lowers it, any other sets the
count of the word's policy (R195). -/
def readLine (s : State) (k line secs pol : Nat) : State × Bool :=
  match lineIn s k line with
  | some x =>
    let hit := x.zero != 0 || x.secs &&& secs == secs
    let s1 := putLine s k (filled s k line secs pol)
    if x.count = 0 then (countSet s1 k line pol, hit) else (countHit s1 k line, hit)
  | none => (countSet (putLine s k (filled s k line secs pol)) k line pol, false)

/-! ## Peers and homes -/

/-- The predictor's entry of a cluster for a line (R196). -/
def peerIndex (cluster line : Nat) : Nat := 64 * cluster + Config.peerHash (line / 16 % 4096) % 64

/-- The peer that a cluster probes: of its own die (R196). -/
def peerOf (s : State) (cluster line : Nat) : Nat :=
  (sget? s.predictor (peerIndex cluster line)).getD (96 * (cluster / 96) + Config.firstPeer cluster (Config.peerHash (line / 16 % 4096) % 64) % 96)

/-- A peer's L1 supplies a line: whole sectors, not held for writing, no counted line (R195, R196). -/
def peerHit (s : State) (cluster line secs : Nat) : Bool :=
  let p := peerOf s cluster line
  p != cluster && p / 96 == cluster / 96 && (match lineIn s p line with
    | some x => (x.zero != 0 || x.secs &&& secs == secs) && !x.own && x.count == 0
    | none => false)

/-- The set of a line in its home's snoop filter (R239). -/
def snoopSet (line : Nat) : Nat := line % 131072

/-- A line leaves every cache of a die. -/
def dropFromDie (d line : Nat) (s : State) : State :=
  dropCopies (fun k => (decide (k < 384) && k / 96 == d)) (256 * line) 256 s

/-- The home records a request of die d for a line (R239): a read takes a copy, an owner that supplies it stays owner; a write
takes ownership, and every other copy goes. A full set makes room by back-invalidating its line that was used longest ago. -/
def homeRequest (s : State) (c d line : Nat) (write : Bool) : State :=
  let h := homeDieOf s c line
  let key := 131072 * h + snoopSet line
  let set := (sget? s.snoops key).getD []
  let old : List Nat := ((set.find? (·.1 == line)).map (·.2)).getD [0, 0, 0, 0]
  let new : List Nat := (List.range 4).map fun i =>
    let x : Nat := old[i]?.getD 0
    if i = h then 0
    else if write then (if i = d then 4 else 0)
    else if i = d then (if x = 0 then (if old.all (fun (y : Nat) => y == 0) then 2 else 1) else x)
    else if x = 4 then 3 else if x = 2 then 1 else x
  let rest := set.filter (·.1 != line)
  let s1 := if write then (List.range 4).foldl (fun t i => if i = d then t else dropFromDie i line t) s else s
  if new.all (· == 0) then { s1 with snoops := sput s1.snoops key rest } else
  let s2 := match (if 16 ≤ rest.length then rest.getLast? else none) with
    | some x => (List.range 4).foldl (fun t i => if x.2[i]?.getD 0 = 0 then t else dropFromDie i x.1 t) s1
    | none => s1
  { s2 with snoops := sput s2.snoops key ((line, new) :: rest.take 15) }

/-! ## What a word brings in and drops -/

/-- One line of a word's accesses: line, sectors, leaf, effective policy. -/
abbrev LineUse := Nat × Nat × Leaf × Nat

/-- The policy of R194 by number. -/
def polNum (pol : BitVec 3) : Nat := pol.toNat

/-- A cluster's read of one line (R192 to R196, R239): whether it missed the L1. -/
def useLoad (c cluster : Nat) (l1 : Bool) (s : State) (x : LineUse) : State × Bool :=
  let (line, secs, lf, pol) := x
  if lf.cache = 0 then (s, false) else
  let sl := homeSliceOf s c line
  let fromHome (t : State) : State :=
    let t1 := if pol = 2 ∧ (lineIn t sl line).isNone then t else (readLine t sl line secs (if lf.cache = 1 then pol else if 4 ≤ pol then 0 else pol)).1
    homeRequest t1 c (cluster / 96) line false
  if lf.cache = 1 ∨ !l1 then (fromHome s, false)
  else if pol = 1 ∨ pol = 2 then
    match lineIn s cluster line with
    | some y => if y.zero != 0 || y.secs &&& secs == secs then ((readLine s cluster line secs 0).1, false) else (fromHome s, true)
    | none => (fromHome s, true)
  else
    match (match lineIn s cluster line with | some y => y.zero != 0 || y.secs &&& secs == secs | none => false) with
    | true => ((readLine s cluster line secs pol).1, false)
    | false =>
      let probe := lf.cache == 3 && (pol == 0 || pol == 3)
      let s1 := if probe && peerHit s cluster line secs then
          { s with predictor := sput s.predictor (peerIndex cluster line) (peerOf s cluster line) }
        else fromHome s
      ((readLine s1 cluster line secs pol).1, true)

/-- A cluster's write of one line (R192 to R195, R239): the nearest cache that its page and policy name holds it as written, a line
present in the L1 is used, and no other cluster keeps a copy. -/
def useStore (c cluster : Nat) (l1 : Bool) (zero : Bool) (s : State) (x : LineUse) : State :=
  let (line, secs, lf, pol) := x
  if lf.cache = 0 then s else
  let s1 := dropCopies (fun k => decide (k < 384) && k != cluster) (256 * line) 256 s
  let mark (k : Nat) (t : State) : State :=
    let y := filled t k line secs pol
    putLine t k { y with secs := if zero then 15 else y.secs, count := 0, zero := if zero then 2 else 0, own := k == cluster }
  let held := (lineIn s1 cluster line).isSome
  let atL1 := l1 && decide (2 ≤ lf.cache) && (held || !(pol == 1 || pol == 2))
  let s2 := if atL1 then mark cluster s1 else s1
  let sl := homeSliceOf s c line
  let s3 := if (pol = 1 ∨ pol = 2 ∨ lf.cache = 1 ∨ !l1) ∧ !(pol == 2 && (lineIn s2 sl line).isNone) then mark sl s2 else s2
  homeRequest s3 c (cluster / 96) line true

/-- A read-modify-write is performed at its home slice (R213): no L1 keeps the line. -/
def useAtomic (c cluster : Nat) (s : State) (x : LineUse) : State :=
  let (line, secs, lf, _) := x
  if lf.cache = 0 then s else
  let s1 := dropCopies (fun k => decide (k < 384)) (256 * line) 256 s
  let sl := homeSliceOf s c line
  homeRequest (putLine s1 sl { filled s1 sl line secs 0 with count := 0, zero := 0 }) c (cluster / 96) line true

/-! ## Translations -/

/-- A TLB uses an entry: last of all, within its size. -/
def putTlb (s : State) (k cap : Nat) (x : Tlb) : State :=
  { s with tlbs := sput s.tlbs k ((x :: ((sget? s.tlbs k).getD []).filter (· != x)).take cap) }

/-- A per-lane access looks its page up in the core's TLB, then in the cluster's (R190): whether the first missed. -/
def useTlb (core cluster : Nat) (s : State) (x : Tlb) : State × Bool :=
  (putTlb (putTlb s core 512 x) (768 + cluster) 4096 x, !inTlb s core x)

/-! ## The note of a word -/

/-- The translation of an access of a lane, where it has one that leads to memory that caches may hold. -/
def useLeaf (s : State) (e : Env) (va : DWord) : Option Leaf :=
  match translate s e.die e.gr.ctx (gens s e.gr) va { kind := 0, need := 0 } with
  | .ok l => some l
  | _ => none

/-- The distinct pages of accesses. -/
def pagesUsed (s : State) (e : Env) (vas : List DWord) : List Tlb :=
  (vas.filterMap fun va => (useLeaf s e va).map (tlbOf e.gr.ctx va)).foldl (fun l x => if l.contains x then l else l ++ [x]) []

/-- The distinct lines of accesses of n bytes, with the sectors that they touch (R199). -/
def linesUsed (s : State) (e : Env) (vas : List DWord) (n pol : Nat) : List LineUse :=
  (vas.filterMap fun va => (useLeaf s e va).map fun l => (memKey l.space (seenAt s e l), l)).foldl (fun (xs : List LineUse) p =>
    let line := p.1 / 256
    if xs.any fun x => x.1 == line then xs.map fun x => if x.1 = line then (line, x.2.1 ||| sectorsOf p.1 n, x.2.2) else x
    else xs ++ [(line, sectorsOf p.1 n, p.2, pol)]) []

/-- What an access is to the caches. -/
inductive Using where
  | load | store | zero | atomic
  deriving DecidableEq, Repr

/-- State s with the tags that t holds, and nothing else of t. -/
def withTags (s t : State) : State := { s with caches := t.caches, predictor := t.predictor, tlbs := t.tlbs, snoops := t.snoops }

/-- A word's accesses, as the state b before it translates them, are noted in state u (R190, R192, R368): misses of the L1 and of the
core's TLB are counted. -/
def noteAccess (b : State) (e : Env) (k : Using) (pol : Nat) (vas : List DWord) (n : Nat) (u : State) : State :=
  if vas.isEmpty then u else
  let cluster := e.gr.core / 2
  let l1 := hasL1 b e.gr.core
  let t := (pagesUsed b e vas).foldl (fun (x : State × Nat) p => let y := useTlb e.gr.core cluster x.1 p; (y.1, x.2 + oneIf y.2)) (u, 0)
  let r := (linesUsed b e vas n pol).foldl (fun (x : State × Nat) p => match k with
    | .load => let y := useLoad e.gr.ctx cluster l1 x.1 p; (y.1, x.2 + oneIf y.2)
    | .store => (useStore e.gr.ctx cluster l1 false x.1 p, x.2)
    | .zero => (useStore e.gr.ctx cluster l1 true x.1 p, x.2)
    | .atomic => (useAtomic e.gr.ctx cluster x.1 p, x.2)) (t.1, 0)
  countEvent (countEvent (withTags u r.1) e.gr.core e.gr.ctx 6 t.2) e.gr.core e.gr.ctx 5 r.2

/-- PREF brings one line in (R202), unless its translation is missing, forbids reads or would need a walk. -/
def prefLine (e : Env) (pol : Nat) (onlyL2 : Bool) (s : State) (va : DWord) : State := withTags s <|
  match memLeaf s e (256 * (va / 256)) 1 0 1 with
  | .error _ => s
  | .ok lf =>
    let x := tlbOf e.gr.ctx va lf
    if !(inTlb s e.gr.core x || inTlb s (768 + e.gr.core / 2) x) then s else
    let lf1 := if onlyL2 && decide (2 ≤ lf.cache) then { lf with cache := 1 } else lf
    (linesUsed s e [256 * (va / 256)] 256 pol).foldl (fun t p =>
      (useLoad e.gr.ctx (e.gr.core / 2) (hasL1 s e.gr.core) t (p.1, p.2.1, lf1, p.2.2.2)).1) (useTlb e.gr.core (e.gr.core / 2) s x).1

/-- CFLUSH of a line (R204): .WB leaves it clean in the caches within reach, .INV and .DISC invalidate it. -/
def flushTag (s : State) (cluster : Nat) (mem wb : Bool) (line : Nat) : State :=
  let reach (k : Nat) : Bool := k == cluster || mem
  { s with caches := s.caches.map fun x => if !reach x.1 then x else
      (x.1, if wb then x.2.map fun y => if y.line = line then { y with zero := min y.zero 1, own := false } else y else x.2.filter (·.line != line)) }

/-- TLBINV (R375): the entries of a context that translate the pages of some addresses, or all of them, leave every TLB. -/
def dropTlbOf (s : State) (c : Nat) (vas : Option (List DWord)) : State :=
  { s with tlbs := s.tlbs.map fun x => (x.1, x.2.filter fun y => y.ctx != c || (match vas with
      | some l => !(l.any fun va => pageOf va y.size == y.page)
      | none => false)) }

end Sys2Proof.Machine
end

