-- ==== Sys2Proof/Machine/Work.lean ====
section
/-! DEFINITION. The work class (R127 to R153): templates, register growth, barriers, child launches, giving way. -/

namespace Sys2Proof.Machine

/-- Every lane of the warp that has not exited stands at the word (R142). -/
def converged (e : Env) : Bool := e.atPc == aliveLanes e.wp

def atPcDetail (e : Env) : DWord := e.atPc.setWidth 64

/-- The count a warp held at FREEZE has read. -/
def freezeCount (wp : Warp) : Option Nat :=
  (wp.holds.filterMap fun h => match h.kind with | .freeze c => some c | _ => none).head?

/-- FREEZE (R129, R146): an arrival; the last warp's arrival checks that the counts agree. -/
def execFreeze (mark : Bool) (a : Reg) (s : State) : Host.Outcome State Fault Refusal :=
  runWord (.freeze mark a) s fun e t =>
    let n := match leader e.live with | some l => (e.v t a l).toNat | none => 0
    let pro := match e.gr.kind with | .prologue => true | .nested _ => true | _ => false
    let others := e.gr.warps.filter fun w => w.index != e.wp.index && !w.ended
    if !converged e || !pro || decide (n > 16777215) ||
        (others.all (fun w => (freezeCount w).isSome) && others.any (fun w => freezeCount w != some n)) then
      .trap t .template e.live 0 0
    else .hold (drainDie t e.die) (.freeze n) e.atPc

/-- The backing pool of a group's node (R130, R156). -/
def poolOf (s : State) (gr : Group) : Nat := ((grid? s gr.grid).map (·.pool)).getD 0

/-- TNEST (R147; R130: a node without a backing pool): once every warp has executed it, the instance is a nested prologue. -/
def execTnest (mark : Bool) (s : State) : Host.Outcome State Fault Refusal :=
  runWord (.tnest mark) s fun e t =>
    match e.gr.kind with
    | .instance_ tm =>
      if !converged e then .trap t .template e.live 0 0
      else if e.gr.depth ≥ 3 then .trap t .depth e.live 0 0
      else if poolOf t e.gr = 0 then .trap t .template e.live 0 0
      else
        let others := e.gr.warps.filter fun w => w.index != e.wp.index && !w.ended
        if others.all fun w => w.holds.any fun h => h.kind == .tnest then
          .done (modGroup t e.g fun x => { x with kind := .nested tm, warps := x.warps.map fun w => endHolds w fun h => h.kind == .tnest })
        else .hold t .tnest e.atPc
    | _ => .trap t .template e.live 0 0

/-- TSIGNAL (R148). -/
def execTsignal (mark : Bool) (a : Reg) (s : State) : Host.Outcome State Fault Refusal :=
  runWord (.tsignal mark a) s fun e t =>
    let va := match leader e.live with | some l => e.d t a l | none => 0
    if va.toNat % 4 ≠ 0 then .trap t .align e.live va 0
    else match e.gr.kind with
      | .nested _ => .done (modGroup t e.g fun x => { x with tsignal := some va })
      | _ => .trap t .template e.live 0 0

/-- Registers from old to new become stale private rows of every warp (R149); `past` is what they may hold (R6). -/
def growRegs (past : List Word) (gr : Group) (n : Nat) : Group :=
  let inst := gr.kind.tmpl?.isSome
  { gr with
    granted := n
    left := (gr.granted, past) :: gr.left.filter fun p => decide (p.1 < gr.granted)
    warps := gr.warps.map fun w =>
      let temps := match w.handler with | some h => h.temps | none => []
      { w with
        regs := w.regs.filter fun p => decide (p.1 / 32 < gr.granted) || decide (n ≤ p.1 / 32) || temps.contains (p.1 / 32)
        affine := w.affine.filter fun r => decide (r < gr.granted)
        priv := if inst then sinsAll w.priv ((List.range n).filter (gr.granted ≤ ·)) else w.priv } }

/-- Another lane group of the core, or a user logit kernel not yet started, waits for register rows (R139, R342). -/
def rowWaiter (s : State) (c : Nat) : Bool :=
  ((residentOn s c).any fun g => g.warps.any fun w => w.holds.any fun h => match h.kind with
    | .rgrow _ => true | .copyWait _ => true | _ => false) ||
  s.groups.any fun g => g.2.core == c && g.2.life == .queued && g.2.logits.isSome

/-- The rows an RGROW to n needs (R149). -/
def growNeed (gr : Group) (n : Nat) : Nat := (n - gr.granted) * gr.warpsN

/-- RGROW (R149): granted at once while the pool has the rows and no one waits; held otherwise. -/
def execRgrow (mark : Bool) (n : BitVec 6) (s : State) : Host.Outcome State Fault Refusal :=
  runWord (.rgrow mark n) s fun e t =>
    let k := 8 * n.toNat
    if k ≤ e.gr.granted then .done t
    else if growNeed e.gr k ≤ freeRows t e.gr.core ∧ rowWaiter t e.gr.core = false then .done (modGroup t e.g fun x => growRegs (domainPast t e.gr.ctx) x k)
    else .hold t (.rgrow k) e.atPc

/-- RSHRINK (R149). -/
def execRshrink (mark : Bool) (n : BitVec 6) (s : State) : Host.Outcome State Fault Refusal :=
  runWord (.rshrink mark n) s fun e t =>
    let k := 8 * n.toNat
    if k ≥ e.gr.granted then .done t
    else match (e.gr.warps.flatMap fun w => w.pending.filter fun p => k ≤ p / 32).head? with
      | some p => .trap t .hazard e.live (BitVec.ofNat 64 (p / 32)) 0
      | none => .done (modGroup t e.g fun x => { x with
          granted := k
          warps := x.warps.map fun w =>
            let temps := match w.handler with | some h => h.temps | none => []
            let keep (r : Nat) : Bool := decide (r < k) || temps.contains r
            { w with regs := w.regs.filter fun p => keep (p.1 / 32), priv := w.priv.filter keep, tags := w.tags.filter fun p => keep (p / 32) } })

def bar (gr : Group) (b : Nat) : Barrier := gr.bars[b]?.getD { phase := 0, arrived := [] }

/-- A warp arrives at barrier b (R140). -/
def arrive (s : State) (e : Env) (b : Nat) : State :=
  modGroup s e.g fun x => { x with bars := modAt x.bars b fun y => { y with arrived := sins y.arrived e.wp.index } }

/-- GBAR (R140, R142, R150). -/
def execGbar (mark : Bool) (b : BitVec 3) (s : State) : Host.Outcome State Fault Refusal :=
  runWord (.gbar mark b) s fun e t =>
    let x := bar e.gr b.toNat
    if !converged e then .trap t .bardiv e.live (atPcDetail e) 0
    else if x.arrived.contains e.wp.index then .hold t (.rearrive b.toNat x.phase) e.atPc
    else .hold (arrive t e b.toNat) (.barrier b.toNat x.phase) e.atPc

/-- GANGBAR (R141, R150): the group arrives with the last of its warps. -/
def execGangbar (mark : Bool) (s : State) : Host.Outcome State Fault Refusal :=
  runWord (.gangbar mark) s fun e t =>
    if !converged e then .trap t .bardiv e.live (atPcDetail e) 0
    else
      let ws := sins e.gr.gangWarps e.wp.index
      let all := e.gr.warps.all fun w => w.ended || ws.contains w.index
      .hold (modGroup t e.g fun x => { x with gangWarps := ws, gangIn := x.gangIn || all }) (.gang (gangPhase t e.gr)) e.atPc

/-- GARRIVE: the phase arrived at, in every live lane (R150). -/
def execGarrive (mark : Bool) (d : Reg) (b : BitVec 3) (s : State) : Host.Outcome State Fault Refusal :=
  runWord (.garrive mark d b) s fun e t =>
    let x := bar e.gr b.toNat
    if !converged e then .trap t .bardiv e.live (atPcDetail e) 0
    else if x.arrived.contains e.wp.index then .hold t (.rearrive b.toNat x.phase) e.atPc
    else .done (writeLanes e (arrive t e b.toNat) d.toNat 1 fun _ => x.phase)

/-- The phase count exceeds a token, as a signed difference modulo 2^32 (R150). -/
def phasePast (phase : Nat) (token : Word) : Bool := decide (0 < (BitVec.ofNat 32 phase - token).toInt)

/-- GWAIT (R150): held while a live lane's token is not past. -/
def execGwait (h : Hdr) (a : Reg) (b : BitVec 3) (s : State) : Host.Outcome State Fault Refusal :=
  runWord (.gwait h a b) s fun e t =>
    let x := bar e.gr b.toNat
    if (lanesOf e.live).all fun l => phasePast x.phase (e.v t a l) then .done t
    else .hold t (.rearrive b.toNat x.phase) e.live

/-- LAUNCH (R151): each live lane takes a launch credit, of which a core has four, or its launch has no effect. A launch
that takes one is a device-scope release. -/
def execLaunch (h : Hdr) (d a : Reg) (s : State) : Host.Outcome State Fault Refusal :=
  runWord (.launch h d a) s fun e t =>
    let off := e.live &&& maskOf fun l => (e.d t a l).toNat % 64 != 0
    match leader off with
    | some l => .trap t .align off (e.d t a l) 0
    | none =>
      let n := 4 - (core t e.gr.core).launches.length
      let taken := (lanesOf e.live).take n
      afterRelease e t (!taken.isEmpty) .dev fun t1 =>
        let t2 := modCore t1 e.gr.core fun c => { c with launches := c.launches ++ taken.map fun l => (e.g, e.w, e.d t a l, none) }
        .done (writeLanes e t2 d.toNat 1 fun l => oneIf (taken.contains l))

/-- The warps of the core's active set, other than one, that are eligible now (R152). -/
def yieldSet (s : State) (e : Env) : List (Nat × Nat) :=
  (core s e.gr.core).active.filter fun p => p != (e.g, e.w) && match group? s p.1 with
    | some gr => match gr.warps[p.2]? with | some wp => eligible s gr wp | none => false
    | none => false

/-- The warp gives way (R152): out of the choice while its set lasts, in the next cycle again where it is empty; in fixed-star
mode the core leaves it (R174). -/
def giveWay (e : Env) (t : State) : State :=
  let set := yieldSet t e
  let t1 := modWarp t e.g e.w fun x => { x with yielding := if set.isEmpty then none else some set }
  if e.fixed then modCore t1 e.gr.core fun c => { c with one := c.one.filter (· != (e.g, e.w)) } else t1

/-- YIELD (R152). -/
def execYield (mark : Bool) (s : State) : Host.Outcome State Fault Refusal := runWord (.yield mark) s fun e t => .done (giveWay e t)

/-- SLEEP (R153): holds its live lanes; in fixed-star mode it has the effect of YIELD. -/
def execSleep (h : Hdr) (a : Reg) (s : State) : Host.Outcome State Fault Refusal :=
  runWord (.sleep h a) s fun e t =>
    if e.live = 0 then .done t
    else if e.fixed then .done (giveWay e t)
    else .hold t .sleep e.live

end Sys2Proof.Machine
end

