-- ==== Sys2Proof/Machine/MemWords.lean ====
section
/-! DEFINITION. The memory class without TADDR (R200 to R204, R206). -/

namespace Sys2Proof.Machine

/-- A lane's value in a list of results. -/
def laneNat (as : List (Nat × Nat)) (l : Nat) : Nat := ((as.find? (·.1 == l)).map (·.2)).getD 0

/-- The bytes a load writes to its registers (R201): 8 and 16 bits are extended to 32. -/
def loadValue (sx : Bool) (n : Nat) (b : List Byte) : Nat :=
  if sx && n == 1 then ((BitVec.ofNat 8 (leNat b)).signExtend 32).toNat
  else if sx && n == 2 then ((BitVec.ofNat 16 (leNat b)).signExtend 32).toNat
  else leNat b

/-- A plain load on its way may still read a later write (R233, R237): it is the last access of its die to its bytes. -/
def mayBindLate (s : State) (e : Env) (m : MemMod) (d : Reg) (sp a l : Nat) : State :=
  if s.draw = 0 ∨ MOrd.isAcq m.ord ∨ (3 ≤ sp ∧ sp ≤ 10) then s else
  { s with late := s.late ++ [{ die := e.die, group := e.g, warp := e.w, lane := l, reg := d.toNat, regs := MSize.regs m.size
                                sx := m.sx, size := MSize.bytes m.size, space := sp, addr := a }] }

/-- What one lane of a load reads (R201), with what the read tells (R230 to R238). -/
def loadLane (e : Env) (b : State) (m : MemMod) (d a : Reg) (off : BitVec 8) (s : State) (l : Nat) : Except LaneFault (State × Nat) := do
  let n := MSize.bytes m.size
  let lf ← memLeaf b e (memVa e b a off n l) n 0 1
  let v ← readMem s e lf n (seqHome m.ord m.scope) l
  let pa := seenAt s e lf
  let skip := if seqHome m.ord m.scope then [] else skipped s e.die (memKey lf.space pa) n l
  pure (mayBindLate (afterRead s e (MOrd.isAcq m.ord) m.scope lf.space pa n skip l) e m d lf.space pa l, loadValue m.sx n v)

/-- The loads of a word that go over the host or a peer link, lane by lane (R397, R407). -/
def awayLoads (e : Env) (s : State) (m : MemMod) (d a : Reg) (off : BitVec 8) : List Away :=
  (lanesOf e.live).filterMap fun l =>
    let va := memVa e s a off (MSize.bytes m.size) l
    match memLeaf s e va (MSize.bytes m.size) 0 1 with
    | .ok lf => if lf.space = 1 ∨ (3 ≤ lf.space ∧ lf.space ≤ 10) then
        some { group := e.g, warp := e.w, lane := l, reg := d.toNat, n := MSize.regs m.size, space := lf.space, addr := va } else none
    | .error _ => none

/-- LD (R201): every lane is checked before any loads (R9). A plain load reads a write that its die may read; a sequential one
of device scope reads the last (R235). -/
def execLd (h : Hdr) (m : MemMod) (d a : Reg) (off : BitVec 8) (s : State) : Host.Outcome State Fault Refusal :=
  runWord (.ld h m d a off) s fun e t =>
    lanesThen e t (loadLane e t m d a off)
      fun u vals => .done (laterValue e (noteAccess t e .load (polNum m.pol) ((lanesOf e.live).map fun l => memVa e t a off (MSize.bytes m.size) l)
        (MSize.bytes m.size) { u with away := u.away ++ awayLoads e t m d a off }) d.toNat (MSize.regs m.size) (laneNat vals))

/-- One lane's store, with where it lands (R201, R136, R250, R251): its address and data as the state b before the word gives
them. -/
def storeLane (e : Env) (b : State) (m : MemMod) (d a : Reg) (off : BitVec 8) (u : State) (l : Nat) :
    Except LaneFault (State × (Nat × Nat)) := do
  let n := MSize.bytes m.size
  let va := memVa e b a off n l
  let lf ← memLeaf b e va n 1 2
  storeThrough b u e va lf (leBytes n (wideRead b e.gr e.wp d.toNat l (MSize.regs m.size)))
    (fun u1 => { lane := l, level := levelOf u1 e lf m.pol, half := 0, release := MOrd.rel m.ord, rel := relOf u1 e (MOrd.rel m.ord) m.scope l })
    (seqHome m.ord m.scope)

/-- ST: the lanes store in increasing order, or none does; a sequential store waits where its home makes it wait. -/
def execSt (h : Hdr) (m : MemMod) (d a : Reg) (off : BitVec 8) (s : State) : Host.Outcome State Fault Refusal :=
  runWord (.st h m d a off) s fun e t0 => afterRelease e t0 (MOrd.rel m.ord) m.scope fun t =>
    lanesThen e t (storeLane e t m d a off)
      fun u at_ =>
        if seqHome m.ord m.scope && at_.any (fun x => homeStuck t e.die x.2.1 x.2.2 (MSize.bytes m.size)) then .hold t .accept e.atPc
        else .done (noteAccess t e .store (polNum m.pol) ((lanesOf e.live).map fun l => memVa e t a off (MSize.bytes m.size) l) (MSize.bytes m.size) u)

/-- LDS (R201). -/
def execLds (h : Hdr) (m : MemMod) (d a : Reg) (off : BitVec 8) (s : State) : Host.Outcome State Fault Refusal :=
  runWord (.lds h m d a off) s fun e t =>
    let n := MSize.bytes m.size
    lanesThen e t (fun u l => pureLane u (spmRead e t a off n l))
      fun u at_ => .done (laterValue e (at_.foldl (fun x p => readCredit e false x p.1 p.2) (countBanks e u n at_)) d.toNat
        (MSize.regs m.size) fun l => loadValue m.sx n (spmBytes u e.gr (laneNat at_ l) n))

/-- STS (R201, R132). -/
def execSts (h : Hdr) (m : MemMod) (d a : Reg) (off : BitVec 8) (s : State) : Host.Outcome State Fault Refusal :=
  runWord (.sts h m d a off) s fun e t =>
    let n := MSize.bytes m.size
    lanesThen e t (fun u l => pureLane u (spmAddr e t a off n l))
      fun u at_ => .done (countBanks e (at_.foldl (fun x p =>
        writeSpm x e.g p.2 (leBytes n (wideRead t e.gr e.wp d.toNat p.1 (MSize.regs m.size)))) u) n at_)

/-- PREF (R202): it brings lines into caches, faults nothing, and changes no value. -/
def execPref (h : Hdr) (pol : BitVec 3) (l2 : Bool) (a : Reg) (off : BitVec 8) (s : State) : Host.Outcome State Fault Refusal :=
  runWord (.pref h pol l2 a off) s fun e t =>
    .done ((lanesOf e.live).foldl (fun u l => prefLine e (polNum pol) l2 u (memVa e t a off 256 l)) t)

/-- Keeps the first of each line that several lanes name. -/
def firstLines {α : Type} [BEq α] (at_ : List (Nat × α)) : List α :=
  at_.foldl (fun a x => if a.contains x.2 then a else a ++ [x.2]) []

/-- One lane of a ZFILL, with the line it names. -/
def zfillLane (e : Env) (b : State) (a : Reg) (off : BitVec 8) (u : State) (l : Nat) : Except LaneFault (State × (Nat × Nat × Nat)) := do
  let va := memVa e b a off 256 l
  let lf ← memLeaf b e va 256 1 2
  let (u1, pa) ← writeTarget b u e va lf 256 1
  pure (u1, (lf.space, pa, levelOf u1 e lf 0))

/-- ZFILL of one line, by the lowest lane that names it. -/
def zfillLine (e : Env) (rel : Bool) (scope : Scope) (at_ : List (Nat × (Nat × Nat × Nat))) (s : State) (p : Nat × Nat × Nat) : State :=
  let l := ((at_.find? (·.2 == p)).map (·.1)).getD 32
  storeView s e.die e.g e.w { lane := l, level := p.2.2, half := 0, release := rel, rel := relOf s e rel scope l } p.1 p.2.1 (zeros 256)

/-- ZFILL (R203): each line named is written with 256 zeros, once. -/
def execZfill (h : Hdr) (rel : Bool) (scope : Scope) (a : Reg) (off : BitVec 8) (s : State) : Host.Outcome State Fault Refusal :=
  runWord (.zfill h rel scope a off) s fun e t0 => afterRelease e t0 rel scope fun t =>
    lanesThen e t (zfillLane e t a off)
      fun u at_ => .done (noteAccess t e .zero 0 ((lanesOf e.live).map fun l => memVa e t a off 256 l) 256
        ((firstLines at_).foldl (zfillLine e rel scope at_) u))

/-! ## CFLUSH -/

/-- Written bytes of a line at its slice go to memory (R204 .WB and .INV with reach .MEM), unless the write-back meets an
error (R414). -/
def lineToMem (s : State) (a : Nat) : State :=
  if lineFails s a then failLine s a else
  (List.range 256).foldl (fun x i => match sget? x.l2 (a + i) with
    | some b => { x with mem := memPut x.mem (a + i) b, l2 := sdel x.l2 (a + i) }
    | none => x) s

/-- Drops the written bytes of a pending write that a cache holds: a byte that had left the cache is performed (R192,
R204). -/
def dropWrite (s : State) (p : PendWrite) : State :=
  let sp := keySpace p.uncached p.addr
  (List.range p.data.length).foldl (fun x i =>
    if Config.evicted s.tick (p.addr + i) then putHomeByte x sp (p.addr % 2 ^ 58 + i) (p.data[i]?.getD 0) else x) s

/-- .DISC of a line (R204): with .L1 the written bytes that the cluster's L1 holds of threads of its own are dropped; with .MEM
those of every cache. What no cache holds as written stays (R194): writes of uncached pages, and of a host or peer that
wait. -/
def discLine (s : State) (cluster : Nat) (mem : Bool) (sp a : Nat) : State :=
  let hit (p : PendWrite) : Bool := decide (p.die < 5) && decide (1 ≤ p.level) && overlaps p.addr p.data.length (memKey sp a) 256 &&
    (mem || (p.level == 2 && match group? s p.group with | some x => x.core / 2 == cluster | none => false))
  let s1 := (s.pend.filter hit).foldl dropWrite { s with pend := s.pend.filter fun p => !hit p }
  if mem && (sp == 0 || sp == 11) then
    (List.range 256).foldl (fun x i => match sget? x.l2 (a + i) with
      | some b => { x with mem := if Config.evicted s.tick (a + i) then memPut x.mem (a + i) b else x.mem, l2 := sdel x.l2 (a + i) }
      | none => x) s1
  else s1

/-- .WB and .INV of a line (R204): the writes that caches within reach hold are performed, and with .MEM the line is
written to memory. -/
def cleanLine (s : State) (die : Nat) (mem : Bool) (sp a : Nat) : State :=
  let s1 := drainIf s fun p => (p.die == die || mem) && overlaps p.addr p.data.length (memKey sp a) 256 && !stuckWrite s p
  if mem && (sp == 0 || sp == 11) then lineToMem s1 a else s1

/-- CFLUSH (R204): .DISC needs write permission, and .WB and .INV read permission (the model's choice, log entry 67);
.DISC faults on leaves and backings of regions (R250) and on a template area
(R136), and in a template heap drops only the private line of the instance. -/
def execCflush (h : Hdr) (op : FlushOp) (mem : Bool) (a : Reg) (off : BitVec 8) (s : State) : Host.Outcome State Fault Refusal :=
  runWord (.cflush h op mem a off) s fun e t =>
    let disc := op == .disc
    lanesThen e t (fun u l => pureLane u (do
      let va := memVa e t a off 256 l
      let lf ← memLeaf u e va 1 1 (if disc then 2 else 1)
      let line := 256 * (lf.addr / 256)
      let dev := lf.space == 0 || lf.space == 11
      if disc && dev && areaHit u line 256 then bad .template va 0
      else match (if disc && dev then (match regionOf u line 256 with | some r => some r | none => backingOf u line 256) else none) with
        | some r => bad .orreg (regionDetail e r) 0
        | none => pure (lf.space, line)))
      fun u at_ => .done ((firstLines at_).foldl (fun x p => flushTag (
        let heap := (p.1 == 0 || p.1 == 11) && (heapHit x p.2 256).isSome
        if disc then
          if heap then modGroup x e.g fun q => { q with heap := sdel q.heap (p.2 / 256) }
          else discLine x (e.gr.core / 2) mem p.1 p.2
        else cleanLine x e.die mem p.1 (if heap then 256 * (viewAddr x (e.now x) p.2 / 256) else p.2)) (e.gr.core / 2) mem (op == .wb) (memKey p.1 p.2 / 256)) u)

/-! ## MAPQ -/

/-- The four registers of a translation query (R206), as one number. -/
def mapqValue (s : State) (e : Env) (l : Leaf) : Nat :=
  let dev := l.space == 0 || l.space == 11
  let heap := dev && (match heapHit s l.addr 1 with | some t => ownHeap s e.gr t | none => false)
  let priv := heap && (sget? e.gr.heap (l.addr / 256)).isSome
  let leaf := dev && s.regions.any fun r => r.ctx == e.gr.ctx && (leafAt r l.addr).isSome
  let v0 := 1 + 2 * oneIf l.r + 4 * oneIf l.w + 8 * oneIf l.x + 16 * l.size + 64 * l.cache + 256 * oneIf l.sys +
    512 * oneIf l.vs.isSome + 1024 * oneIf heap + 2048 * oneIf priv + 4096 * oneIf leaf
  let v1 := match l.vs with | some (r, i) => r + 64 * i | none => 0
  v0 + 2 ^ 32 * v1 + (if e.wp.handler.isSome then 2 ^ 64 * l.addr else 0)

/-- MAPQ (R206): a missing or malformed entry reads as zeros, unless .FILL asks for the page. -/
def execMapq (h : Hdr) (fill : Bool) (d a : Reg) (s : State) : Host.Outcome State Fault Refusal :=
  runWord (.mapq h fill d a) s fun e t =>
    lanesThen e t (fun u l =>
      let va := e.d t a l
      pureLane u (if va.toNat ≥ 2 ^ 57 then .ok 0 else
        match walk u e.die va.toNat levels (((ctx? u e.gr.ctx).map (·.root)).getD 0) [] with
        | .missing => if fill then bad .page va 0 else .ok 0
        | .malformed => .ok 0
        | .hole => .error none
        | .leaf _ _ _ => match translate u e.die e.gr.ctx (gens u e.gr) va { kind := 0, need := 1 } with
          | .ok lf => .ok (mapqValue u e lf)
          | .bad c d0 d1 => bad c d0 d1
          | .hole => .error none))
      fun u vals => .done (laterValue e u d.toNat 4 (laneNat vals))

end Sys2Proof.Machine
end

