-- ==== Sys2Proof/Machine/SchedWords.lean ====
section
/-! DEFINITION. The scheduler words QPUSH, QPOP, QCLOSE and NODESIG (R158, R159, R169, R178 to R182). -/

namespace Sys2Proof.Machine

/-- The group's graph, and its queue q when the group belongs to the stage set that holds it (R178). -/
def queue? (s : State) (gr : Group) (q : Nat) : Option (Nat × Queue) :=
  match grid? s gr.grid with
  | none => none
  | some g => match graph? s g.graph with
    | none => none
    | some x => match x.queues[q]? with
      | none => none
      | some u => if x.stages.any fun p => p.1 == g.node && p.2.any fun y => y.qin == q || y.qout == q then some (x.id, u) else none

def modQueueOf (s : State) (graph q : Nat) (f : Queue → Queue) : State :=
  modGraph s graph fun x => { x with queues := modAt x.queues q f }

/-- Entries a queue holds. -/
def Queue.held (q : Queue) : Nat := q.tail - q.head

/-- The position of a lane among the live lanes. -/
def rankIn (m : Mask) (l : Nat) : Nat := ((lanesOf m).filter (· < l)).length

/-- The address of slot i of a queue (R167). -/
def slotVa (q : Queue) (i : Nat) : DWord := BitVec.ofNat 64 (q.ring + 16 * (i % q.cap))

/-- One lane's store into its slot (R179): its registers, low first, and zeros up to 16 bytes. -/
def pushLane (e : Env) (b : State) (q : Queue) (w : MovW) (a : Reg) (u : State) (l : Nat) : Except LaneFault (State × (Nat × Nat)) := do
  let va := slotVa q (q.tail + rankIn e.live l)
  let lf ← memLeaf b e va 16 1 2
  let n := MovW.regs w
  storeThrough b u e va lf ((leBytes (4 * n) (wideRead b e.gr e.wp a.toNat l n) ++ zeros 16).take 16) (fun u1 => plainTag u1 e lf l) false

/-- QPUSH with room for its lanes (R179): the slots are reserved together and written in increasing lane order. -/
def pushLanes (e : Env) (t : State) (graph : Nat) (q : Nat) (u : Queue) (w : MovW) (a : Reg) (k : State → WordRes) : WordRes :=
  lanesThen e t (pushLane e t u w a)
    fun x _ => k (modQueueOf x graph q fun y => { y with tail := y.tail + (lanesOf e.live).length })

/-- What one lane of a QPOP reads (R180): the bytes of its entry, or nothing of an empty closed queue. -/
def popLane (e : Env) (b : State) (q : Queue) (w : MovW) (l : Nat) : Except LaneFault Nat :=
  if rankIn e.live l < Queue.held q then do
    let lf ← memLeaf b e (slotVa q (q.head + rankIn e.live l)) 16 0 1
    let x ← readMem b e lf 16 false l
    pure (field x 0 (4 * MovW.regs w))
  else .ok 0

/-- QPOP with an entry for every live lane, or of a closed queue (R180). -/
def popLanes (e : Env) (t : State) (graph : Nat) (q : Nat) (u : Queue) (w : MovW) (d c : Reg) (k : State → WordRes) : WordRes :=
  lanesThen e t (fun x l => pureLane x (popLane e t u w l))
    fun x vals =>
      let x1 := writeLanes e x d.toNat (MovW.regs w) (laneNat vals)
      let x2 := writeLanes e x1 c.toNat 1 fun l => oneIf (rankIn e.live l < Queue.held u)
      k (modQueueOf x2 graph q fun y => { y with head := y.head + min (Queue.held u) (lanesOf e.live).length })

/-- A queue word of a wrong queue number or group (R178); detail 0 of the record is the model's choice, 0 (log entry 67). -/
def noQueue (e : Env) (t : State) : WordRes := .trap t .prot e.live 0 0

/-- QPUSH (R179). -/
def execQpush (h : Hdr) (w : MovW) (q : BitVec 8) (a : Reg) (s : State) : Host.Outcome State Fault Refusal :=
  runWord (.qpush h w q a) s fun e t =>
    if e.live = 0 then .done t else
    match queue? t e.gr q.toNat with
    | none => noQueue e t
    | some (g, u) =>
      if u.closed then .trap t .qclosed e.live (q.setWidth 64) 0
      else if Queue.held u + (lanesOf e.live).length ≤ u.cap then pushLanes e t g q.toNat u w a fun x => .done x
      else .hold t .qpush e.atPc

/-- QPOP (R180). -/
def execQpop (h : Hdr) (w : MovW) (q : BitVec 8) (d c : Reg) (s : State) : Host.Outcome State Fault Refusal :=
  runWord (.qpop h w q d c) s fun e t =>
    if e.live = 0 then .done t else
    match queue? t e.gr q.toNat with
    | none => noQueue e t
    | some (g, u) =>
      if u.closed ∨ (lanesOf e.live).length ≤ Queue.held u then popLanes e t g q.toNat u w d c fun x => .done x
      else .hold t .qpop e.atPc

/-- QCLOSE (R169, R181). -/
def execQclose (h : Hdr) (q : BitVec 8) (s : State) : Host.Outcome State Fault Refusal :=
  runWord (.qclose h q) s fun e t =>
    if e.live = 0 then .done t else
    match queue? t e.gr q.toNat with
    | none => noQueue e t
    | some (g, _) => .done (modQueueOf t g q.toNat fun y => { y with closed := true })

/-- Satisfies the edge in successor slot k of a node (R158): the node it leads to is ready when it was the last. -/
def satisfyEdge (s : State) (g n k : Nat) : State :=
  match (node? s g n).bind fun x => x.succ[k]? with
  | none => s
  | some e => if e = 0xFFFF then s else
    modNode s g (e % 4096) fun x =>
      let sat := sins x.sat (8 * n + k)
      { x with sat := sat, life := if x.life == .waiting && x.deps ≤ sat.length then .ready else x.life }

/-- NODESIG (R182): a signal edge is satisfied once, with the release of R159. -/
def execNodesig (h : Hdr) (k : BitVec 3) (s : State) : Host.Outcome State Fault Refusal :=
  runWord (.nodesig h k) s fun e t0 => afterRelease e t0 true .dev fun t =>
    match nodeOf t e.gr with
    | none => .done t
    | some (g, n) => match node? t g n with
      | none => .done t
      | some x => match x.succ[k.toNat]? with
        | none => .done t
        | some v =>
          if e.live = 0 ∨ v = 0xFFFF ∨ v / 32768 = 0 ∨ x.sent.contains k.toNat then .done t
          else .done (satisfyEdge (modNode t g n fun y => { y with sent := sins y.sent k.toNat }) g n k.toNat)

end Sys2Proof.Machine
end

