-- ==== Sys2Proof/Machine/Atomics.lean ====
section
/-! DEFINITION. Atomics, fences, waiting on addresses and byte-count barriers (R208 to R226). -/

namespace Sys2Proof.Machine

/-! ## Read-modify-writes -/

/-- The width of an atomic in bytes. -/
def AtMod.bytes (m : AtMod) : Nat := if m.wide then 8 else 4

/-- The place of a lane's read-modify-write: scratchpad, or a space and address with its virtual address (R211). -/
def rmwPlace (s : State) (e : Env) (p : Place) (off : BitVec 8) (n l : Nat) : Except LaneFault (State × (Nat × Nat × DWord)) :=
  match p with
  | .spm v => match spmRead e s v off n l with
    | .ok o => .ok (s, (2, o, 0))
    | .error x => .error x
  | .mem a => do
    let va := memVa e s a off n l
    let lf ← memLeaf s e va n 2 2
    if (3 ≤ lf.space ∧ lf.space ≤ 10) ∨ (lf.space = 1 ∧ cxl s = false) then bad .prot va 0
    else do
      let (t, pa) ← writeTarget s s e va lf n 2
      if eccHit t e.die lf.space pa n then bad .eccu (BitVec.ofNat 64 pa) 0 else pure (t, (lf.space, pa, va))

/-- The old value of a read-modify-write. -/
def rmwOld (s : State) (e : Env) (sp a n : Nat) : Nat :=
  if sp = 2 then leNat (spmBytes s (e.now s) a n) else leNat (viewBytes s e.die sp a n)

/-- A region a leaf lies in, with the leaf (R214, R216). -/
def leafHit (s : State) (sp a : Nat) : Option (Region × Nat) :=
  if sp = 0 ∨ sp = 11 then s.regions.findSome? fun r => (leafAt r a).map fun j => (r, j) else none

/-- The region whose exact accumulators a float AADD uses in fixed-star mode, in recompute mode, with the accumulator's number
(R216): its leaf, or for a leaf of 8 bytes the half of it. -/
def exactHit (s : State) (sp a : Nat) : Option (Region × Nat) :=
  (leafHit s sp a).bind fun x => if x.1.delta then none else some (x.1, if x.1.ty = 2 then 2 * x.2 + a / 4 % 2 else x.2)

/-- The accumulator of a leaf, or a fresh one seeded with the leaf's value (R216). -/
def accOf (r : Region) (j : Nat) (leaf : Nat) : ExactAcc := (r.accs.find? (·.leaf == j)).getD (seedAcc j leaf)

/-- Adds an operand exactly (R216). -/
def accAdd (x : ExactAcc) (b : Nat) : ExactAcc :=
  let y := { x with count := x.count + 1 }
  match fdecode .f32 b with
  | .fin neg m e => { y with fix := y.fix + sgnInt neg m * 2 ^ (e + 149).toNat }
  | .inf neg => if neg then { y with ninf := true } else { y with pinf := true }
  | .nan => { y with nan := true }

/-- The leaf value of an accumulator (R216). -/
def accValue (x : ExactAcc) : Nat :=
  if x.nan || (x.pinf && x.ninf) then Fmt.nan .f32
  else if x.pinf then Fmt.infBits .f32
  else if x.ninf then signed .f32 true (Fmt.infBits .f32)
  else froundDy .f32 .rn x.fix (-149) false

def putAcc (r : Region) (x : ExactAcc) : Region := { r with accs := r.accs.filter (·.leaf != x.leaf) ++ [x] }

/-- The die's own writes to the bytes of a read-modify-write come first. -/
def rmwFirst (s : State) (e : Env) (sp a n : Nat) : State :=
  if sp = 2 then s else drainAt (bindOver s e.die (memKey sp a) n) e.die (memKey sp a) n

/-- One lane's read-modify-write, performed at its home or at the scratchpad (R212, R213), in a state of `rmwFirst`; `acc` is the
accumulator form. Its write goes on with the release sequence that it reads (R213). -/
def rmwPut (s : State) (e : Env) (m : AtMod) (l sp a n new : Nat) (acc : Option (Region × ExactAcc)) : State :=
  if sp = 2 then writeSpm (readCredit e (MOrd.isAcq m.ord) s l a) e.g a (leBytes n new)
  else
    let s0 := afterRead s e (MOrd.isAcq m.ord) m.scope sp a n [] l
    let rels := (sources s (memKey sp a) n []).filterMap (·.rel) ++ (relOf s e (MOrd.rel m.ord) m.scope l).toList
    let rel := match rels with | [] => none | v :: r => some (r.foldl View.join v)
    let s1 := homeWrite s0 e.die rel sp a (leBytes n new) (some (e.g, e.w)) acc.isSome
    match acc with
    | some (r, x) => modRegion s1 r.ctx r.num fun q => putAcc q x
    | none => s1

/-- The lanes of a word perform in increasing order; a lane that would leave a non-negative leaf negative stops the word
after the lanes before it (R212). Answers the state, the old values, and the lane that stopped. -/
def rmwRun (e : Env) (m : AtMod) (n : Nat) (exact : Bool) (operand : Nat → Nat) (f : Nat → Nat → Nat) :
    List (Nat × (Nat × Nat × DWord)) → State → State × List (Nat × Nat) × Option (Nat × DWord)
  | [], s => (s, [], none)
  | (l, sp, a, _) :: r, s0 =>
    let s := rmwFirst s0 e sp a n
    let old := rmwOld s e sp a n
    let acc : Option (Region × ExactAcc) := if exact && sp != 2 then
        (exactHit s sp a).map fun x => (x.1, accAdd (accOf x.1 x.2 old) (operand l))
      else none
    let new := match acc with | some x => accValue x.2 | none => f old (operand l)
    match (if sp = 2 then none else negWrite s e.die sp a (leBytes n new)) with
    | some leaf => (s0, [], some (l, leaf))
    | none =>
      let x := rmwRun e m n exact operand f r (rmwPut s e m l sp a n new acc)
      (x.1, (l, old) :: x.2.1, x.2.2)

/-- Units hold 2,048 accumulators; a word that needs one more, or that would perform the 2^56-th addition, faults
NDET (R216). The lanes are counted as they would perform. -/
def accLimit (s : State) (at_ : List (Nat × (Nat × Nat × DWord))) : Bool :=
  let hits := at_.filterMap fun x => exactHit s x.2.1 x.2.2.1
  hits.any fun h =>
    let unitAccs := ((s.regions.filter fun r => r.die == h.1.die && r.unit == h.1.unit).map fun r => r.accs.length).sum
    let needed := (hits.filter fun y => y.1.die == h.1.die && y.1.unit == h.1.unit && !(y.1.accs.any (·.leaf == y.2))).foldl
      (fun (a : List (Nat × Nat × Nat)) y => if a.contains (y.1.ctx, y.1.num, y.2) then a else a ++ [(y.1.ctx, y.1.num, y.2)]) []
    let adds := (hits.filter fun y => y.1.ctx == h.1.ctx && y.1.num == h.1.num && y.2 == h.2).length
    let had := match h.1.accs.find? (·.leaf == h.2) with | some x => x.count | none => 0
    decide (unitAccs + needed.length > 2048) || decide (had + adds ≥ 2 ^ 56)

/-- A word of the family (R208 to R217): `b` has the operand's n registers, `f` computes the new value. -/
def rmwWord (i : Instr) (s : State) (m : AtMod) (p : Place) (off : BitVec 8) (b : Reg) (bRegs : Nat) (d : Option Reg)
    (fl : AaddOp) (f : Nat → Nat → Nat) : Host.Outcome State Fault Refusal :=
  runWord i s fun e t0 => afterRelease e t0 (MOrd.rel m.ord && (match p with | .mem _ => true | .spm _ => false)) m.scope fun t =>
    let n := AtMod.bytes m
    let global := match p with | .mem _ => true | .spm _ => false
    let exact := e.fixed && global && fl != .int
    if exact && fl != .f32 && e.live != 0 then .trap t .ndet e.live 0 0
    else lanesThen e t (fun u l => do
        let x ← rmwPlace u e p off n l
        if exact && (exactHit t x.2.1 x.2.2.1).isNone then bad .ndet 0 0 else pure x) fun u at_ =>
      if exact && accLimit t at_ then .trap t .ndet e.live 0 0
      else if at_.any fun x => x.2.1 != 2 && homeStuck t e.die x.2.1 x.2.2.1 n then .hold t .accept e.atPc
      else
        let r := rmwRun e m n exact (fun l => wideRead t e.gr e.wp b.toNat l bRegs) f at_ u
        let done (v : State) : State := match d with
          | some dr =>
            let mask := maskOf fun l => r.2.1.any fun x => x.1 == l
            laterValue { e with live := mask } v dr.toNat (AtMod.regs m) (laneNat r.2.1)
          | none => v
        let cnt := if global then noteAccess t e .atomic 0 (at_.map fun x => x.2.2.2) n r.1 else countBanks e r.1 n (at_.map fun x => (x.1, x.2.2.1))
        match r.2.2 with
        | none => .done (done cnt)
        | some (l, leaf) =>
          .trap (done cnt) .orneg (maskOf (· == l)) leaf (BitVec.ofNat 64 (maskOf fun k => r.2.1.any fun x => x.1 == k).toNat)

/-- AADD (R210). -/
def AaddOp.eval (op : AaddOp) (w old b : Nat) : Nat :=
  match op with
  | .int => (old + b) % 2 ^ w
  | .f32 => fadd .f32 .rn false old b
  | .f16x2 => (packed (fadd .f16 .rn false) (BitVec.ofNat 32 old) (BitVec.ofNat 32 b)).toNat
  | .bf16x2 => (packed (fadd .bf16 .rn false) (BitVec.ofNat 32 old) (BitVec.ofNat 32 b)).toNat

def execAadd (h : Hdr) (m : AtMod) (op : AaddOp) (p : Place) (off : BitVec 8) (b : Reg) (d : Option Reg) (s : State) :
    Host.Outcome State Fault Refusal :=
  rmwWord (.aadd h m op p off b d) s m p off b (AtMod.regs m) d op (AaddOp.eval op (8 * AtMod.bytes m))

def execAmnx (h : Hdr) (m : AtMod) (op : MnxOp) (p : Place) (off : BitVec 8) (b : Reg) (d : Option Reg) (s : State) :
    Host.Outcome State Fault Refusal :=
  rmwWord (.amnx h m op p off b d) s m p off b (AtMod.regs m) d .int fun old x =>
    (MnxOp.eval op (BitVec.ofNat (8 * AtMod.bytes m) old) (BitVec.ofNat (8 * AtMod.bytes m) x)).toNat

def execAlog (h : Hdr) (m : AtMod) (op : LogOp) (p : Place) (off : BitVec 8) (b : Reg) (d : Option Reg) (s : State) :
    Host.Outcome State Fault Refusal :=
  rmwWord (.alog h m op p off b d) s m p off b (AtMod.regs m) d .int fun old x =>
    (LogOp.eval op (BitVec.ofNat (8 * AtMod.bytes m) old) (BitVec.ofNat (8 * AtMod.bytes m) x)).toNat

def execAxch (h : Hdr) (m : AtMod) (p : Place) (off : BitVec 8) (b : Reg) (d : Option Reg) (s : State) :
    Host.Outcome State Fault Refusal :=
  rmwWord (.axch h m p off b d) s m p off b (AtMod.regs m) d .int fun _ x => x

/-- ACAS: the comparand is the low half of the operand, the new value the high half (R210). -/
def execAcas (h : Hdr) (m : AtMod) (p : Place) (off : BitVec 8) (b : Reg) (d : Option Reg) (s : State) :
    Host.Outcome State Fault Refusal :=
  rmwWord (.acas h m p off b d) s m p off b (2 * AtMod.regs m) d .int fun old x =>
    if old = x % 2 ^ (8 * AtMod.bytes m) then x / 2 ^ (8 * AtMod.bytes m) else old

def execAinc (h : Hdr) (m : AtMod) (dec : Bool) (p : Place) (off : BitVec 8) (b : Reg) (d : Option Reg) (s : State) :
    Host.Outcome State Fault Refusal :=
  rmwWord (.ainc h m dec p off b d) s m p off b (AtMod.regs m) d .int fun old x =>
    if dec then (if old = 0 ∨ old > x then x else old - 1) else if old ≥ x then 0 else old + 1

/-! ## Fences -/

/-- A write of the warp to a region's leaves is not performed, or its record not applied (R267). -/
def recordsDue (s : State) (g w : Nat) (r : Region) : Bool :=
  (r.recs.any fun x => x.src == some (g, w)) ||
  (s.pend.any fun p => p.group == g && p.warp == w && decide (p.addr < 2 ^ 58) && !(leavesIn r p.addr p.data.length).isEmpty)

/-- What FENCE waits for (R219): acknowledgements at the point of its scope, loads that have returned, and from die scope
up every update record of the warp. At device scope and wider every write of the die is performed: those that the warp has
observed happen-before what follows (R233 edges 2 and 4). -/
def fenceReady (s : State) (die g w : Nat) (ord : FenceOrd) (sc : Scope) : Bool :=
  let acked := if devScope sc then !(s.pend.any fun p => p.die == die) else !l1Pending s g w 0xFFFFFFFF
  let loaded := match warp? s g w with
    | some x => x.outs.all fun o => match o with | .matrix _ => true | _ => false
    | none => true
  let records := (match sc with | .die => false | .dev => false | .sys => false | _ => true) || !(s.regions.any (recordsDue s g w))
  (ord == .acq || acked) && (ord == .rel || loaded) && records

/-- The writes a fence of device scope or wider waits for are performed: with them every write of the die that they
follow (R233). -/
def fenceDrain (s : State) (die : Nat) (ord : FenceOrd) (sc : Scope) : State :=
  if ord != .acq && devScope sc then drainIf (bindDie s die) fun p => p.die == die && !stuckWrite s p else s

/-- What a completed fence of device scope or wider orders for its lanes (R232, R233 edge 7, R235): an acquire joins what the
lanes have heard; a sequential one takes its place in S; a release covers what the die has seen and written so far. -/
def fenceEdges (s : State) (die g w : Nat) (live : Mask) (ord : FenceOrd) (sc : Scope) : State :=
  if !devScope sc then s else
  let s1 := if ord == .rel then s else match warp? s g w with
    | none => s
    | some wp => (lanesOf live).foldl (fun t l =>
        let t1 := learn t die (heardAt wp l false)
        if sc == .sys then learn t1 die (heardAt wp l true) else t1) s
  let s2 := if ord == .seq then learn (sendAlong .fences (relView s1 die) s1) die (edgeView s1 .fences) else s1
  if ord == .acq then s2 else
  let v := relView s2 die
  modWarp s2 g w fun x => { x with fenced := (lanesOf live).map (fun l => (l, v)) ++ x.fenced.filter fun p => !bit live p.1 }

/-- Waits as a FENCE does; with nothing outstanding the word goes on at once. -/
def fenceThen (e : Env) (t : State) (ord : FenceOrd) (sc : Scope) (k : State → WordRes) : WordRes :=
  if e.live = 0 then .done t else
  let u := fenceDrain t e.die ord sc
  if fenceReady u e.die e.g e.w ord sc then k (fenceEdges u e.die e.g e.w e.live ord sc) else .hold u (.fence ord sc) e.atPc

/-- FENCE (R218, R219). -/
def execFence (h : Hdr) (ord : FenceOrd) (sc : Scope) (s : State) : Host.Outcome State Fault Refusal :=
  runWord (.fence h ord sc) s fun e t => fenceThen e t ord sc fun u => .done u

/-! ## Waiting on an address -/

/-- The condition of a WAITA (R221). -/
def WaitCond.holds (c : WaitCond) (wide : Bool) (x y : DWord) : Bool :=
  let sx (v : DWord) : Int := if wide then v.toInt else (BitVec.ofNat 32 v.toNat).toInt
  match c with
  | .eq => x == y
  | .ne => x != y
  | .leS => decide (sx x ≤ sx y)
  | .geZ => decide (y.toNat ≤ x.toNat)

/-- Where a group sees a watched address of a space: in its own line of a template heap, if it has one (R134). -/
def watchAddr (s : State) (gr : Group) (key : Nat) : Nat :=
  if key / 2 ^ 58 = 0 ∨ key / 2 ^ 58 = 11 then viewAddr s gr (key % 2 ^ 58) else key % 2 ^ 58

/-- A location as WAKEA compares it (R223): a scratchpad offset, or a space and physical address. -/
def watchKey (s : State) (gr : Group) (spm : Bool) (key : Nat) : Nat := if spm then key else memKey (key / 2 ^ 58) (watchAddr s gr key)

/-- The value that lane l reads at a watched location, or where it meets an uncorrectable error (R221). -/
def watchRead (s : State) (gr : Group) (spm wide : Bool) (key l : Nat) : Except DWord DWord :=
  let n := if wide then 8 else 4
  if spm then match spmError gr key n with
    | some x => .error (BitVec.ofNat 64 x)
    | none => .ok (BitVec.ofNat 64 (leNat (spmBytes s gr key n)))
  else
    let d := dieOf gr.core
    let sp := key / 2 ^ 58
    let a := watchAddr s gr key
    if eccHit s d sp a n then .error (BitVec.ofNat 64 a)
    else if 3 ≤ sp ∧ sp ≤ 10 ∧ boundTo s (sp - 3) gr.ctx = none then .ok 0
    else .ok (BitVec.ofNat 64 (leNat (readBytes s d sp a n (skipped s d (memKey sp a) n l))))

/-- Re-reads the locations of waiting lanes that satisfy q: a reached lane is done whatever it reads. -/
def rewatch (s : State) (gr : Group) (spm wide : Bool) (c : WaitCond) (reached : Bool) (q : Watch → Bool) :
    List Watch → Except (Nat × DWord) (List Watch)
  | [] => .ok []
  | x :: r => match rewatch s gr spm wide c reached q r with
    | .error y => if x.done || !q x then .error y else match watchRead s gr spm wide x.addr x.lane with
      | .error a => .error (x.lane, a)
      | .ok _ => .error y
    | .ok r1 => if x.done || !q x then .ok (x :: r1) else match watchRead s gr spm wide x.addr x.lane with
      | .error a => .error (x.lane, a)
      | .ok v =>
        let met := WaitCond.holds c wide v x.cmp
        .ok ({ x with met := met, done := met || reached } :: r1)

/-- What a WAITA acquires (R220, R232): whether it does, and its scope. -/
def waitOrder : Option Instr → Bool × Scope
  | some (.waita _ acq sc _ _ _ _ _ _) => (acq, sc)
  | _ => (false, .thr)

/-- What the lanes learn whose condition a read of state b has met (R230 to R232); an acquire of a byte-count barrier, what its
credits cover (R224, R236). -/
def watchLearn (b : State) (e : Env) (acq : Bool) (sc : Scope) (spm wide : Bool) (ls : List Watch) (s : State) : State :=
  let n := if wide then 8 else 4
  ls.foldl (fun t x =>
    if spm then readCredit e acq t x.lane x.addr
    else
      let sp := x.addr / 2 ^ 58
      let a := watchAddr b e.gr x.addr
      afterRead t e acq sc sp a n (skipped b e.die (memKey sp a) n x.lane) x.lane) s

/-- The lanes of a list that meet their condition and did not in an earlier one. -/
def newlyMet (old new : List Watch) : List Watch := new.filter fun x => x.met && !(old.any fun y => y.lane == x.lane && y.met)

/-- The statuses of a released WAITA (R221). -/
def writeStatus (s : State) (g w d : Nat) (locs : List Watch) : State :=
  locs.foldl (fun t x => writeReg t g w d x.lane (if x.met then 1 else 0)) s

/-- A waiting lane group after a re-read: released when every lane is done, faulted ECCU on an error, else waiting on
(R221). -/
def settleWait (s0 : State) (g w : Nat) (h : HoldRec) (locs : Except (Nat × DWord) (List Watch)) (stop : Bool) : State :=
  match h.kind with
  | .waita spm wide c d timed watched seq old => match locs with
    | .error (lane, a) => match heldEnv s0 g w h with
      | some e => takeFault (dropHold s0 g w h) g w (recordOf s0 e .eccu (maskOf (· == lane)) a 0)
      | none => s0
    | .ok ls =>
      let s := match heldEnv s0 g w h with
        | some e => watchLearn s0 e (waitOrder h.instr).1 (waitOrder h.instr).2 spm wide (newlyMet old ls) s0
        | none => s0
      if stop || ls.all (·.done) then modWarp (writeStatus s g w d ls) g w (endHold h)
      else modWarp s g w fun x => { x with holds := x.holds.map fun y => if y == h then { y with kind := .waita spm wide c d timed watched seq ls } else y }
  | _ => s0

/-- The watch entries in use on a core. -/
def watchesOn (s : State) (c : Nat) : Nat :=
  ((residentOn s c).flatMap fun g => g.warps.flatMap fun w => w.holds.map fun h => match h.kind with
    | .waita _ _ _ _ _ true _ locs => locs.length
    | _ => 0).sum

/-- The location of a lane (R220): a space and address in memory, before the group's own view of it, or a scratchpad
offset. -/
def watchPlace (s : State) (e : Env) (p : Place) (n kind need l : Nat) : Except LaneFault Nat :=
  match p with
  | .spm v => spmAddr e s v 0 n l
  | .mem a => do
    let lf ← memLeaf s e (e.d s a l) n kind need
    pure (2 ^ 58 * lf.space + lf.addr)

/-- The same for a word that reads it: an uncorrectable error faults ECCU (R221, R414), among the lane's other checks (R9). -/
def watchChecked (s : State) (e : Env) (p : Place) (wide : Bool) (l : Nat) : Except LaneFault Nat := do
  let k ← watchPlace s e p (if wide then 8 else 4) 0 1 l
  match watchRead s (e.now s) (match p with | .spm _ => true | .mem _ => false) wide k l with
  | .error a => bad .eccu a 0
  | .ok _ => pure k

/-- WAITA (R220 to R222). -/
def execWaita (h : Hdr) (acq : Bool) (scope : Scope) (cond : WaitCond) (w : Bool) (p : Place) (d b : Reg) (tmo : Option Reg)
    (s : State) : Host.Outcome State Fault Refusal :=
  runWord (.waita h acq scope cond w p d b tmo) s fun e t =>
    if e.live = 0 then .done t
    else if e.fixed && tmo.isSome then .trap t .ndet e.live 0 0
    else
      let n := if w then 8 else 4
      let spm := match p with | .spm _ => true | .mem _ => false
      lanesThen e t (fun u l => pureLane u (watchChecked u e p w l)) fun u0 at_ =>
        let locs := at_.map fun x => ({ lane := x.1, addr := x.2, cmp := BitVec.ofNat 64 (wideRead t e.gr e.wp b.toNat x.1 (wide w)), done := false, met := false } : Watch)
        match rewatch u0 e.gr spm w cond false (fun _ => true) locs with
        | .error (lane, a) => .trap t .eccu (maskOf (· == lane)) a 0
        | .ok ls =>
          let u := watchLearn u0 e acq scope spm w (newlyMet [] ls)
            (if spm then u0 else noteAccess t e .load 0 ((lanesOf e.live).map fun l => match p with | .mem r => e.d t r l | .spm _ => 0) n u0)
          if ls.all (·.done) then .done (writeLanes e u d.toNat 1 fun _ => 1)
          else
            let room := decide (watchesOn u e.gr.core + ls.length ≤ 64) && !(ls.any fun x => !spm && ((decide (3 ≤ x.addr / 2 ^ 58) && decide (x.addr / 2 ^ 58 ≤ 10)) || (x.addr / 2 ^ 58 == 1 && !cxl u)))
            .hold { u with seqs := u.seqs + 1 } (.waita spm w cond d.toNat tmo.isSome room u.seqs ls) e.atPc

/-- The lane groups waiting where a WAKEA reaches: of the context in memory, of the group in scratchpad; in the order
in which they began (R223). -/
def waiters (s : State) (e : Env) (spm : Bool) (key n : Nat) : List (Nat × Nat × HoldRec) :=
  let all := (s.groups.map (·.2)).flatMap fun g =>
    if g.ctx == e.gr.ctx && (!spm || g.id == e.g) && g.life != .saved then
      (List.range g.warps.length).flatMap fun w => match g.warps[w]? with
        | some x => (x.holds.filter fun h => match h.kind with
            | .waita sp wide _ _ _ _ _ ls => sp == spm && ls.any fun y => !y.done && overlaps (watchKey s g spm y.addr) (if wide then 8 else 4) key n
            | _ => false).map fun h => (g.id, w, h)
        | none => []
    else []
  let seq (x : Nat × Nat × HoldRec) : Nat := match x.2.2.kind with | .waita _ _ _ _ _ _ q _ => q | _ => 0
  all.foldl (fun (a : List (Nat × Nat × HoldRec)) x => a.takeWhile (fun y => seq y < seq x) ++ [x] ++ a.dropWhile (fun y => seq y < seq x)) []

/-- WAKEA reaches one lane group. -/
def wakeOne (s : State) (key n : Nat) (x : Nat × Nat × HoldRec) : State :=
  match group? s x.1, x.2.2.kind with
  | some gr, .waita spm wide c _ _ _ _ ls =>
    settleWait s x.1 x.2.1 x.2.2 (rewatch s gr spm wide c true (fun y => overlaps (watchKey s gr spm y.addr) (if wide then 8 else 4) key n) ls) false
  | _, _ => s

/-- WAKEA (R220, R223): each live lane in increasing order reaches up to v[B] lane groups, 0 meaning all. -/
def execWakea (h : Hdr) (rel : Bool) (scope : Scope) (w : Bool) (p : Place) (b : Reg) (s : State) : Host.Outcome State Fault Refusal :=
  runWord (.wakea h rel scope w p b) s fun e t0 =>
    if e.live != 0 && e.fixed then .trap t0 .ndet e.live 0 0 else
    afterRelease e t0 rel scope fun t =>
      let n := if w then 8 else 4
      let spm := match p with | .spm _ => true | .mem _ => false
      lanesThen e t (fun u l => pureLane u (watchPlace u e p n 0 0 l)) fun u at_ =>
        .done (at_.foldl (fun x y =>
          let key := watchKey t e.gr spm y.2
          let ws := waiters x e spm key n
          let k := (e.v t b y.1).toNat
          (if k = 0 then ws else ws.take k).foldl (fun z q => wakeOne z key n q) x) u)

/-! ## Byte-count barriers -/

/-- The count operand (R225): a pair at 64 bits; at 32 bits zero-extended for BCINIT, sign-extended for BCADD. -/
def bcCount (e : Env) (s : State) (w add : Bool) (b : Reg) (l : Nat) : DWord :=
  if w then e.d s b l else if add then (e.v s b l).signExtend 64 else (e.v s b l).setWidth 64

def bcWord (i : Instr) (s : State) (w add : Bool) (a b : Reg) (off : BitVec 8) : Host.Outcome State Fault Refusal :=
  runWord i s fun e t =>
    lanesThen e t (fun u l => pureLane u (if add then spmRead e t a off 8 l else spmAddr e t a off 8 l)) fun u at_ =>
      .done (countBanks e (at_.foldl (fun x p =>
        let old := leNat (spmBytes x (e.now x) p.2 8)
        let c := (bcCount e t w add b p.1).toNat
        writeSpm x e.g p.2 (leBytes 8 (if add then old + c else c))) u) 8 at_)

/-- BCINIT (R226). -/
def execBcinit (h : Hdr) (rel : Bool) (scope : Scope) (w : Bool) (a b : Reg) (off : BitVec 8) (s : State) : Host.Outcome State Fault Refusal :=
  bcWord (.bcinit h rel scope w a b off) s w false a b off

/-- BCADD (R226). -/
def execBcadd (h : Hdr) (rel : Bool) (scope : Scope) (w : Bool) (a b : Reg) (off : BitVec 8) (s : State) : Host.Outcome State Fault Refusal :=
  bcWord (.bcadd h rel scope w a b off) s w true a b off

end Sys2Proof.Machine
end

