-- ==== Sys2Proof/Machine/Orrery.lean ====
section
/-! DEFINITION. Orrery regions (R244 to R267): the tree of partial aggregates, declaration, rebuild and drop, the range
loads and their answers, and the application of update records. -/

namespace Sys2Proof.Machine

/-! ## The tree -/

/-- The node counts of levels 1 to L (R245). -/
def levelCounts : Nat → Nat → List Nat
  | 0, _ => []
  | f + 1, n => if n ≤ 1 then [] else (n + 3) / 4 :: levelCounts f ((n + 3) / 4)

def Region.counts (r : Region) : List Nat := levelCounts 14 r.n

/-- The top level L. -/
def Region.top (r : Region) : Nat := (Region.counts r).length

/-- Node width in bytes (R245). -/
def nodeWidth (ty agg : Nat) : Nat :=
  if agg = 0 then (if ty = 0 then 4 else if ty = 1 then 8 else 16)
  else if agg = 3 then (if ty = 2 then 16 else 8)
  else if ty = 2 then 8 else 4

def roundUp256 (x : Nat) : Nat := (x + 255) / 256 * 256

/-- The backing bytes of levels 1 to L (R246). -/
def backingSize (n ty agg : Nat) : Nat := ((levelCounts 14 n).map fun c => roundUp256 (c * nodeWidth ty agg)).sum

/-- The offset of level k in the backing (R246). -/
def levelOffset (r : Region) (k : Nat) : Nat := (((Region.counts r).take (k - 1)).map fun c => roundUp256 (c * nodeWidth r.ty r.agg)).sum

/-- The lowest level held in the unit's slot: whole levels from the top, within 24 KiB (R247). -/
def slotBase (r : Region) : Nat :=
  let x := (Region.counts r).reverse.foldl (fun (a : Nat × Nat × Bool) c =>
    let b := a.1 + c * nodeWidth r.ty r.agg
    if a.2.2 && b ≤ 24576 then (b, a.2.1 - 1, true) else (a.1, a.2.1, false)) (0, Region.top r + 1, true)
  x.2.1

/-- The better of two indexed values: the greater, among equals the lower index; a NaN never wins (R252). -/
def betterIdx (f32 : Bool) (a b : NodeVal) : NodeVal :=
  if f32 then
    if isNan .f32 a.v.toNat then (if isNan .f32 b.v.toNat then (if a.i ≤ b.i then { a with v := Fmt.nan .f32 } else { b with v := Fmt.nan .f32 }) else b)
    else if isNan .f32 b.v.toNat then a
    else if fkey .f32 b.v.toNat > fkey .f32 a.v.toNat then b
    else if fkey .f32 b.v.toNat = fkey .f32 a.v.toNat ∧ b.i < a.i then b else a
  else if b.v > a.v then b else if b.v = a.v ∧ b.i < a.i then b else a

/-- comb of two present children, as the folds of R252 use it. -/
def comb2 (r : Region) (a b : NodeVal) : NodeVal :=
  if r.agg = 3 then betterIdx (r.ty == 0) a b
  else if r.ty = 0 then { v := fmnx .f32 (r.agg == 1) a.v.toNat b.v.toNat, i := 0 }
  else { v := if r.agg = 1 then max a.v b.v else min a.v b.v, i := 0 }

/-- comb over the present children (R252). -/
def comb (r : Region) (cs : List NodeVal) : NodeVal :=
  if r.agg = 0 then
    if r.ty = 0 then
      let c (k : Nat) : Nat := ((cs[k]?).map fun x => x.v.toNat).getD 0
      let add (x y : Nat) : Nat := fadd .f32 .rn false x y
      { v := add (add (c 0) (c 1)) (add (c 2) (c 3)), i := 0 }
    else { v := (cs.map (·.v)).sum, i := 0 }
  else match cs with
    | [] => { v := 0, i := 0 }
    | [x] => if r.agg = 3 then betterIdx (r.ty == 0) x x else x
    | x :: rest => rest.foldl (comb2 r) x

/-- One level from the level below it. -/
def levelUp (r : Region) : List NodeVal → List NodeVal
  | a :: b :: c :: d :: rest => comb r [a, b, c, d] :: levelUp r rest
  | [] => []
  | l => [comb r l]

/-- Levels 1 to L from the leaves (R259). -/
def buildLevels (r : Region) : Nat → List NodeVal → List (List NodeVal)
  | 0, _ => []
  | f + 1, xs => if xs.length ≤ 1 then [] else levelUp r xs :: buildLevels r f (levelUp r xs)

/-- The value of node j of level k (R259, R252). -/
def nodeAt (r : Region) (k j : Nat) : NodeVal :=
  ((if k = 0 then r.leaves else (r.levels[k - 1]?).getD [])[j]?).getD { v := 0, i := j }

/-- The children of node j of level k that exist. -/
def childVals (r : Region) (k j : Nat) : List NodeVal :=
  let below := if k ≤ 1 then r.leaves else (r.levels[k - 2]?).getD []
  (List.range 4).filterMap fun c => below[4 * j + c]?

/-- Bytes of a node in the backing (R245). -/
def nodeBytes (r : Region) (x : NodeVal) : List Byte :=
  if r.agg = 0 then leBytes (nodeWidth r.ty r.agg) (wrap 128 x.v).toNat
  else if r.agg = 3 then leBytes (Region.leaf r) (wrap 64 x.v).toNat ++ leBytes 4 x.i ++ (if r.ty = 2 then zeros 4 else [])
  else leBytes (Region.leaf r) (wrap 64 x.v).toNat

/-- Writes node j of level k to the backing (R246, R247). -/
def putNode (s : State) (r : Region) (k j : Nat) : State :=
  let va := r.backing + levelOffset r k + j * nodeWidth r.ty r.agg
  putHomeBytes s 0 (65536 * (sget? r.backPa (va / 65536)).getD 0 + va % 65536) (nodeBytes r (nodeAt r k j))

/-- Writes whole levels to the backing. -/
def putLevels (s : State) (r : Region) (ks : List Nat) : State :=
  ks.foldl (fun t k => (List.range ((Region.counts r)[k - 1]?.getD 0)).foldl (fun u j => putNode u r k j) t) s

/-- The levels below the slot, which live in the backing alone (R247). -/
def backingLevels (r : Region) : List Nat := (List.range (slotBase r)).filter (1 ≤ ·)
def slotLevels (r : Region) : List Nat := (List.range (Region.top r + 1)).filter fun k => decide (1 ≤ k) && decide (slotBase r ≤ k)

/-! ## Update records -/

/-- Recomputes the nodes of the path above level k (R252). -/
def recomputeUp (r : Region) (e : Nat) : Nat → Nat → Region
  | 0, _ => r
  | f + 1, k => if k > Region.top r then r else
    let j := e / 4 ^ k
    recomputeUp { r with levels := modAt r.levels (k - 1) fun l => setAt l j (comb r (childVals r k j)) } e f (k + 1)

/-- Adds a delta to the nodes of the path (R252). -/
def deltaUp (r : Region) (e : Nat) (dv : Int) : Region :=
  { r with levels := r.levels.mapIdx fun i l => modAt l (e / 4 ^ (i + 1)) fun x =>
      { x with v := if r.ty = 0 then (fadd .f32 .rn false x.v.toNat dv.toNat : Nat) else x.v + dv } }

/-- apply(rec) of R252. -/
def applyRec (r : Region) (q : URec) : Region :=
  let r1 := { r with leaves := setAt r.leaves q.elem { v := q.new, i := q.elem }, applied := r.applied + 1 }
  if r.agg = 0 ∧ r.delta then
    deltaUp r1 q.elem (if r.ty = 0 then (fsub .f32 .rn false q.new.toNat q.old.toNat : Nat) else q.new - q.old)
  else if Region.top r = 0 then r1
  else
    let parent := comb r (q.four.mapIdx fun i v => { v := v, i := 4 * (q.elem / 4) + i })
    recomputeUp { r1 with levels := modAt r1.levels 0 fun l => setAt l (q.elem / 4) parent } q.elem 14 2

/-- A range load of a warp to a region has not been answered: one that arrives while the region is rebuilt is answered
afterwards, and no record waits for it (R259). -/
def queryDue (s : State) (g w : Nat) (r : Region) : Bool :=
  match warp? s g w, group? s g with
  | some x, some gr => gr.ctx == r.ctx && x.outs.any fun o => match o with
      | .query _ _ q => q.region == r.num && (!r.building || decide (q.time < r.began))
      | _ => false
  | _, _ => false

/-- A record may be applied: no range load that its writer issued before the write is still on its way (R254). -/
def recReady (s : State) (r : Region) (q : URec) : Bool := match q.src with | some (g, w) => !queryDue s g w r | none => true

/-- The records that may be the next to arrive (R252): of each slice the first. -/
def frontRecs (s : State) (r : Region) : List Nat :=
  (List.range r.recs.length).filter fun i => match r.recs[i]? with
    | some q => recReady s r q && !((r.recs.take i).any fun p =>
        homeSliceOf s r.ctx (leafPa r p.elem / 256) == homeSliceOf s r.ctx (leafPa r q.elem / 256))
    | none => false

/-- Which record the unit applies next (R252): the records of one slice in order, those of several in any. -/
def nextRec (s : State) (r : Region) : Option Nat :=
  if s.draw = 0 then (match r.recs with | q :: _ => if recReady s r q then some 0 else none | [] => none)
  else (frontRecs s r)[Config.choose s.draw 0 % max 1 (frontRecs s r).length]?

/-- A record of a region may be applied: the region has its unit, and no build is under way (R252, R259). -/
def recordReady (s : State) (r : Region) : Bool := r.bound && !(r.building && r.leaves.isEmpty) && (nextRec s r).isSome

/-- The unit applies record i of a region (R252): backing levels of the path are written; the place of its prior value is free
(R253). -/
def applyAt (s : State) (r : Region) (i : Nat) : State :=
  match r.recs[i]? with
  | none => s
  | some q =>
    let r1 := { applyRec r q with recs := r.recs.eraseIdx i }
    let s1 := modRegion (if r.agg = 0 ∧ r.delta then s else mend s fun y => match y with
      | .node c m k j => c == r.ctx && m == r.num && j == q.elem / 4 ^ k
      | _ => false) r.ctx r.num fun _ => r1
    retryAccept ((backingLevels r).foldl (fun t k => putNode t r1 k (q.elem / 4 ^ k)) s1)

/-- UPDATE_RECORD_APPLY (R252): the unit applies its next record. -/
def execUpdateRecordApply (region : Nat) (s : State) : Host.Outcome State Fault Refusal :=
  match s.regions[region]? with
  | some r => .next (match (if recordReady s r then nextRec s r else none) with
    | some i => applyAt s r i
    | none => s)
  | none => .next s

/-! ## Range loads -/

/-- The largest level, at most k, whose node at i lies within the range. -/
def coverLevel (n hi i : Nat) : Nat → Nat
  | 0 => 0
  | k + 1 => if i % 4 ^ (k + 1) = 0 ∧ min (i + 4 ^ (k + 1)) n ≤ hi then k + 1 else coverLevel n hi i k

/-- cover(lo, hi): level and index of each node. -/
def coverGo (n top hi : Nat) : Nat → Nat → List (Nat × Nat)
  | 0, _ => []
  | f + 1, i => if i < hi then
      let k := coverLevel n hi i top
      (k, i / 4 ^ k) :: coverGo n top hi f (min (i + 4 ^ k) n)
    else []

def cover (r : Region) (lo hi : Nat) : List (Nat × Nat) := coverGo r.n (Region.top r) hi 128 lo

/-- A running sum plus a value: RN in F32, exact in integers. -/
def sumAdd (r : Region) (a b : Int) : Int := if r.ty = 0 then (fadd .f32 .rn false a.toNat b.toNat : Nat) else a + b

/-- A strict comparison; with a NaN it is false (R262). -/
def sumGt (r : Region) (a x : Int) : Bool := if r.ty = 0 then fcmp .f32 .gt a.toNat x.toNat else decide (a > x)

/-- LDRS before the clamp (R260). -/
def rangeSum (r : Region) (lo hi : Nat) : Int :=
  match cover r lo hi with
  | [] => 0
  | p :: rest => rest.foldl (fun a q => sumAdd r a (nodeAt r q.1 q.2).v) (nodeAt r p.1 p.2).v

def clamp64 (x : Int) : Int := clampInt (-(2 ^ 63)) (2 ^ 63 - 1) x

/-- A node's value is not zero. -/
def nonZero (r : Region) (x : NodeVal) : Bool := if r.ty = 0 then decide (x.v.toNat % 2 ^ 31 ≠ 0) else decide (x.v ≠ 0)

/-- lastnz (R262). -/
def lastNz (r : Region) : Nat → Nat → Option Nat
  | 0, j => some j
  | k + 1, j =>
    (((List.range 4).reverse.map (4 * j + ·)).find? fun c =>
      decide (c < (if k = 0 then r.n else (Region.counts r)[k - 1]?.getD 0)) && nonZero r (nodeAt r k c)).bind (lastNz r k)

/-- The first child that takes the running sum above x, with the sum before it. -/
def firstOver (r : Region) (k : Nat) (x : Int) : List Nat → Int → Option (Nat × Int)
  | [], _ => none
  | c :: rest, a => if sumGt r (sumAdd r a (nodeAt r k c).v) x then some (c, a) else firstOver r k x rest (sumAdd r a (nodeAt r k c).v)

/-- into(nd, r, x) (R262). -/
def intoNode (r : Region) (x : Int) : Nat → Nat → Int → Option Nat
  | 0, j, _ => some j
  | k + 1, j, a =>
    let cs := ((List.range 4).map (4 * j + ·)).filter fun c => decide (c < (if k = 0 then r.n else (Region.counts r)[k - 1]?.getD 0))
    match firstOver r k x cs a with
    | some (c, b) => intoNode r x k c b
    | none => lastNz r (k + 1) j

/-- descend over a cover (R262). -/
def descendGo (r : Region) (x : Int) : List (Nat × Nat) → Int → Option Nat
  | [], _ => none
  | p :: rest, a =>
    let b := sumAdd r a (nodeAt r p.1 p.2).v
    if sumGt r b x then intoNode r x p.1 p.2 a else descendGo r x rest b

def descend (r : Region) (lo hi : Nat) (x : Int) : Option Nat := descendGo r x (cover r lo hi) 0

/-- The threshold of LDPICK (R264): u × T rounded, or the floor of the exact product. -/
def pickAt (r : Region) (u : Nat) (total : Int) : Int :=
  if r.ty = 0 then (fmul .f32 .rn false u total.toNat : Nat)
  else match fdecode .f32 u with
    | .fin _ m e => (m * pow2Num e : Int) * total / (pow2Den e : Int)
    | _ => 0

/-- LDPICK (R264). -/
def pick (r : Region) (lo hi u : Nat) : Nat :=
  let sum := rangeSum r lo hi
  let total := if r.ty = 2 then clamp64 sum else sum
  let inf := Fmt.infBits .f32
  let le0 := if r.ty = 0 then fcmp .f32 .le total.toNat 0 else decide (total ≤ 0)
  if le0 then 0xFFFFFFFF
  else
    let isInf := r.ty == 0 && total == inf
    match (if isInf then ((List.range (hi - lo)).map (lo + ·)).find? fun j => (nodeAt r 0 j).v == inf else none) with
    | some j => j
    | none =>
      let t : Int := if isInf then 0x7F7FFFFF else pickAt r u total
      match descend r lo hi t with
      | some i => i
      | none => (((cover r lo hi).reverse.find? fun p => nonZero r (nodeAt r p.1 p.2)).bind fun p => lastNz r p.1 p.2).getD 0xFFFFFFFF

/-- The value of an empty LDRM range (R261). -/
def emptyExtreme (r : Region) : Int :=
  if r.ty = 0 then (if r.agg = 2 then 0x7F800000 else 0xFF800000)
  else if r.ty = 1 then (if r.agg = 2 then 2 ^ 31 - 1 else -(2 ^ 31))
  else (if r.agg = 2 then 2 ^ 63 - 1 else -(2 ^ 63))

/-- LDRM (R261): value and index. -/
def extreme (r : Region) (lo hi : Nat) : NodeVal :=
  match cover r lo hi with
  | [] => { v := emptyExtreme r, i := 0xFFFFFFFF }
  | p :: rest => rest.foldl (fun a q => comb2 r a (nodeAt r q.1 q.2)) (comb r [nodeAt r p.1 p.2])

/-- The registers of an answer, low first (R260 to R264). -/
def answer (r : Region) (q : Query) : List Word :=
  match q.op with
  | 0 => let x := rangeSum r q.lo q.hi
    if r.ty = 0 then [wrap 32 x] else splitWords 2 (wrap 64 (if r.ty = 2 then clamp64 x else x)).toNat
  | 1 => let x := extreme r q.lo q.hi
    if r.ty = 2 then splitWords 2 (wrap 64 x.v).toNat else [wrap 32 x.v]
  | 2 => let x := extreme r q.lo q.hi
    if r.ty = 2 then splitWords 2 (wrap 64 x.v).toNat ++ [BitVec.ofNat 32 x.i, 0] else [wrap 32 x.v, BitVec.ofNat 32 x.i]
  | 3 => let x : Int := if r.ty = 0 then q.x.toNat else q.x.toInt
    [BitVec.ofNat 32 ((descend r q.lo q.hi x).getD q.hi)]
  | _ => [BitVec.ofNat 32 (pick r q.lo q.hi q.x.toNat)]

/-- A region of the context that is declared: its first build is over. -/
def declared? (s : State) (c n : Nat) : Option Region := (region? s c n).filter fun r => !r.leaves.isEmpty

/-- The checks of a range load in one lane (R258): ORREG, then ORRANGE. -/
def queryCheck (s : State) (e : Env) (op : Nat) (ty : OrTy) (num lo hi : Nat) : Except LaneFault Region :=
  let t := match ty with | .f32 => 0 | .s32 => 1 | .s64 => 2
  match declared? s e.gr.ctx num with
  | none => bad .orreg (BitVec.ofNat 64 num) 0
  | some r =>
    let fits := match op with
      | 0 => r.agg == 0
      | 1 => r.agg != 0
      | 2 => r.agg == 3
      | _ => r.agg == 0 && r.nonneg
    if r.ty ≠ t ∨ !fits then bad .orreg (BitVec.ofNat 64 num) 0
    else if lo > hi ∨ hi > r.n then bad .orrange (BitVec.ofNat 64 lo) (BitVec.ofNat 64 hi)
    else .ok r

/-- The draw u of LDPICK is refused (R264): a NaN, below −0, or at or above 1.0. -/
def badDraw (u : Nat) : Bool := isNan .f32 u || (decide (u ≥ 2 ^ 31) && u != 2 ^ 31) || (decide (u < 2 ^ 31) && decide (u ≥ 0x3F800000))

/-- A range load (R253, R258): every lane is checked, then its queries go to their units. -/
def rangeWord (i : Instr) (s : State) (op : Nat) (ty : OrTy) (d a b : Reg) (n : Nat) (x : Env → State → Nat → DWord) :
    Host.Outcome State Fault Refusal :=
  runWord i s fun e t =>
    lanesThen e t (fun u l => pureLane u (do
      let num := (e.v t a l).toNat % 256
      let lo := (e.d t b l).toNat % 2 ^ 32
      let hi := (e.d t b l).toNat / 2 ^ 32
      let _ ← queryCheck u e op ty num lo hi
      if op = 4 ∧ badDraw (x e t l).toNat then bad .orrange (BitVec.ofNat 64 lo) (BitVec.ofNat 64 hi) else
        pure ({ region := num, op := op, ty := ty, lo := lo, hi := hi, x := x e t l, time := t.tick } : Query)))
      fun u qs => .done (laterLanes e u d.toNat n fun l => (qs.filter (·.1 == l)).map fun q => .query l d.toNat q.2)

def execLdrs (h : Hdr) (ty : OrTy) (d a b : Reg) (s : State) : Host.Outcome State Fault Refusal :=
  rangeWord (.ldrs h ty d a b) s 0 ty d a b (match ty with | .f32 => 1 | _ => 2) fun _ _ _ => 0

def execLdrm (h : Hdr) (ty : OrTy) (idx : Bool) (d a b : Reg) (s : State) : Host.Outcome State Fault Refusal :=
  rangeWord (.ldrm h ty idx d a b) s (if idx then 2 else 1) ty d a b (OrTy.regs ty * wide idx) fun _ _ _ => 0

/-- LDPFX takes x from v[C] or d[C] (R263). -/
def execLdpfx (h : Hdr) (ty : OrTy) (d a b c : Reg) (s : State) : Host.Outcome State Fault Refusal :=
  rangeWord (.ldpfx h ty d a b c) s 3 ty d a b 1 fun e t l => match ty with
    | .f32 => (e.v t c l).setWidth 64
    | .s32 => (e.v t c l).signExtend 64
    | .s64 => e.d t c l

def execLdpick (h : Hdr) (ty : OrTy) (d a b c : Reg) (s : State) : Host.Outcome State Fault Refusal :=
  rangeWord (.ldpick h ty d a b c) s 4 ty d a b 1 fun e t l => (e.v t c l).setWidth 64

/-- The nodes whose values an answer reads (R260 to R264): those of its cover and, where it descends, the children on the way to the
leaf that it answers. -/
def nodesRead (r : Region) (q : Query) : List (Nat × Nat) :=
  let c := cover r q.lo q.hi
  if q.op ≤ 2 then c else
  let i := ((answer r q).head?.getD 0).toNat
  c ++ c.flatMap fun p => if p.2 * 4 ^ p.1 ≤ i ∧ i < (p.2 + 1) * 4 ^ p.1 then
      (List.range p.1).flatMap fun k => (List.range 4).map fun j => (k, 4 * (i / 4 ^ (k + 1)) + j)
    else []

/-- Where node p of a region lies: its leaf, or its place in the backing. -/
def nodePlace (r : Region) (p : Nat × Nat) : Nat :=
  if p.1 = 0 then leafPa r p.2 else
  let va := r.backing + levelOffset r p.1 + p.2 * nodeWidth r.ty r.agg
  65536 * (sget? r.backPa (va / 65536)).getD 0 + va % 65536

/-- A node that an answer reads holds an uncorrectable error (R414): in memory below the slot, in the unit's node store above. -/
def nodeError (s : State) (r : Region) (p : Nat × Nat) : Bool :=
  if p.1 < slotBase r then eccHit s r.die 0 (nodePlace r p) (if p.1 = 0 then Region.leaf r else nodeWidth r.ty r.agg)
  else s.errs.contains (.node r.ctx r.num p.1 p.2)

/-- The place of the first error that an answer meets. -/
def answerError (s : State) (r : Region) (q : Query) : Option Nat :=
  if s.errs.isEmpty && s.bad.isEmpty then none else ((nodesRead r q).find? (nodeError s r)).map (nodePlace r)

/-- The same range load: registers and region. -/
def sameLoad (reg num : Nat) : Outst → Bool
  | .query _ k y => k == reg && y.region == num
  | _ => false

/-- RANGE_LOAD_ANSWER (R253): every query of the warp to the same registers and region is answered as of one N; a region
under rebuild answers those that arrive meanwhile afterwards (R259). One that reads an uncorrectable error returns nothing, and its
warp takes ECCU at its next word (R414). -/
def execRangeLoadAnswer (group warp idx : Nat) (s : State) : Host.Outcome State Fault Refusal :=
  .next (match group? s group, (warp? s group warp).bind fun x => x.outs[idx]? with
    | some gr, some (.query _ reg q) => match declared? s gr.ctx q.region with
      | none => s
      | some r => if (r.building && decide (r.began ≤ q.time)) || !r.bound then s else
        match (((warp? s group warp).map (·.outs)).getD []).findSome? fun o => match o with
            | .query _ _ y => if sameLoad reg q.region o then answerError s r y else none
            | _ => none with
        | some a => deferTo (modGroup (modWarp s group warp fun x => unpark { x with outs := x.outs.filter fun o => !sameLoad reg q.region o })
            group afterReturns) group warp 0 .eccu (BitVec.ofNat 64 a) 0
        | none => modWarp s group warp fun x => { x with outs := x.outs.flatMap fun o => match o with
          | .query l k y => if k = reg ∧ y.region = q.region then (answer r y).mapIdx fun j v => .value l (k + j) v else [o]
          | _ => [o] }
    | _, _ => s)

/-! ## Declaration, rebuild and drop -/

/-- The physical pages of a range: virtual page and physical page, when all are device memory with R and W (R248). -/
def regionPages (s : State) (e : Env) (base size : Nat) : Option (List (Nat × Nat)) :=
  if size = 0 then some [] else
  ((List.range ((base + size - 1) / 65536 + 1 - base / 65536)).map (base / 65536 + ·)).foldr (fun p a => match a with
    | none => none
    | some l => if p ≥ 2 ^ 41 then none else match translate s e.die e.gr.ctx (gens s e.gr) (BitVec.ofNat 64 (65536 * p)) { kind := 0, need := 2 } with
      | .ok lf => if (lf.space = 0 ∨ lf.space = 11) ∧ lf.vs = none then some ((p, lf.addr / 65536) :: l) else none
      | _ => none) (some [])

/-- The physical segments of a range on its pages. -/
def segsOf (base size : Nat) (pages : List (Nat × Nat)) : List (Nat × Nat) :=
  pages.map fun p =>
    let lo := max base (65536 * p.1)
    (65536 * p.2 + lo % 65536, min (base + size) (65536 * (p.1 + 1)) - lo)

def segsMeet (a b : List (Nat × Nat)) : Bool := a.any fun x => b.any fun y => overlaps x.1 x.2 y.1 y.2

/-- Free region slots of a unit: 16 less those of bound regions (R247). -/
def unitFree (s : State) (d u : Nat) : Nat := 16 - (s.regions.filter fun r => r.bound && r.die == d && r.unit == u).length

/-- The unit of a die with the most free slots, the lowest among equals (R249). -/
def chooseUnit (s : State) (d : Nat) : Option Nat :=
  ((List.range 8).foldl (fun (a : Option (Nat × Nat)) u =>
    let f := unitFree s d u
    match a with
    | some (_, m) => if f > m then some (u, f) else a
    | none => if f > 0 then some (u, f) else none) none).map (·.1)

/-- A descriptor's fields break R244, apart from its memory. -/
def descBad (b : List Byte) : Bool :=
  let n := field b 8 4
  let ty := field b 12 1
  let agg := field b 13 1
  let flags := field b 14 1
  field b 0 8 % 256 != 0 || n == 0 || decide (n > 2 ^ 26) || decide (ty > 2) || decide (agg > 3) || decide (flags > 3) ||
  field b 15 1 != 0 || field b 16 8 % 256 != 0 || (backingSize n ty agg == 0 && field b 16 8 != 0) ||
  decide (field b 24 4 < backingSize n ty agg) || !((b.drop 28).all (· == 0)) || (flags % 2 == 1 && agg != 0)

/-- The region a descriptor declares, not yet built, when R248 admits it. -/
def newRegion (s : State) (e : Env) (num : Nat) (b : List Byte) : Option Region :=
  if descBad b || (region? s e.gr.ctx num).isSome then none else
  let n := field b 8 4
  let ty := field b 12 1
  let leafBytes := n * (if ty = 2 then 8 else 4)
  match regionPages s e (field b 0 8) leafBytes, regionPages s e (field b 16 8) (field b 24 4) with
  | some lp, some bp =>
    let ls := segsOf (field b 0 8) leafBytes lp
    let bs := segsOf (field b 16 8) (field b 24 4) bp
    let inTemplate := (ls ++ bs).any fun x => areaHit s x.1 x.2 || (heapHit s x.1 x.2).isSome
    let meets := segsMeet ls bs || s.regions.any fun r =>
      let o := segsOf r.base (r.n * Region.leaf r) r.leafPa ++ segsOf r.backing r.bsize r.backPa
      segsMeet (ls ++ bs) o
    if inTemplate || meets then none else
    let d := homeDieOf s e.gr.ctx ((ls.head?.map (·.1)).getD 0 / 256)
    (chooseUnit s d).map fun u =>
      { ctx := e.gr.ctx, num := num, die := d, unit := u, base := field b 0 8, n := n, ty := ty, agg := field b 13 1
        delta := field b 14 1 % 2 == 1, nonneg := field b 14 1 / 2 == 1, backing := field b 16 8, bsize := field b 24 4
        leafPa := lp, backPa := bp, applied := 0, leaves := [], levels := [], recs := [], accs := [], building := true, began := s.tick, bound := true }
  | _, _ => none

/-- The region number a region word names: v[A] in the leader (R259). -/
def leaderRegion (e : Env) (t : State) (a : Reg) : Nat := match leader e.live with | some l => (e.v t a l).toNat % 256 | none => 0

/-- ORDECL (R248, R259): after the wait of FENCE.SEQ.DEV, the region is bound and its build begins. -/
def execOrdecl (h : Hdr) (a : Reg) (s : State) : Host.Outcome State Fault Refusal :=
  runWord (.ordecl h a) s fun e t0 => fenceThen e t0 .seq .dev fun t =>
    let num := leaderRegion e t a
    let va := (((ctx? t e.gr.ctx).map (·.ordesc)).getD 0) + BitVec.ofNat 64 (64 * num)
    match memLeaf t e va 64 0 1 with
    | .error none => .stop .noSuchMemory
    | .error (some (c, d0, d1)) => .trap t c e.live d0 d1
    | .ok lf => match readMem t e lf 64 false 32 with
      | .error none => .stop .noSuchMemory
      | .error (some (c, d0, d1)) => .trap t c e.live d0 d1
      | .ok b => match newRegion t e num b with
        | none => .trap t .orreg e.live (BitVec.ofNat 64 num) 0
        | some r => if e.fixed && r.delta then .trap t .ndet e.live 0 0
          else .hold { t with regions := t.regions ++ [r] } (.region num 0) e.atPc

/-- ORBUILD (R259). -/
def execOrbuild (h : Hdr) (a : Reg) (s : State) : Host.Outcome State Fault Refusal :=
  runWord (.orbuild h a) s fun e t0 => fenceThen e t0 .seq .dev fun t =>
    let num := leaderRegion e t a
    match declared? t e.gr.ctx num with
    | none => .trap t .orreg e.live (BitVec.ofNat 64 num) 0
    | some r => if r.building then .hold t .accept e.atPc
      else .hold (modRegion t e.gr.ctx num fun x => { x with building := true, began := t.tick }) (.region num 1) e.atPc

/-- ORDROP (R259). -/
def execOrdrop (h : Hdr) (a : Reg) (s : State) : Host.Outcome State Fault Refusal :=
  runWord (.ordrop h a) s fun e t0 => fenceThen e t0 .seq .dev fun t =>
    let num := leaderRegion e t a
    match declared? t e.gr.ctx num with
    | none => .trap t .orreg e.live (BitVec.ofNat 64 num) 0
    | some r => if r.building then .trap t .orreg e.live (BitVec.ofNat 64 num) 0 else .hold t (.region num 2) e.atPc

/-- The leaves of a region as memory now holds them. -/
def readLeaves (s : State) (r : Region) : List NodeVal := (List.range r.n).map fun j => { v := leafVal s r j, i := j }

/-- A range load to the region is on its way (R259). -/
def anyQuery (s : State) (r : Region) : Bool :=
  s.groups.any fun p => (List.range p.2.warps.length).any fun w => queryDue s p.1 w r

/-- The region operation of a hold may end (R259): a rebuild or a drop after every record that has arrived, a drop after
every range load. -/
def regionOpReady (s : State) (c num op : Nat) : Bool :=
  match region? s c num with
  | none => true
  | some r => op == 0 || (r.bound && r.recs.isEmpty && (op == 1 || !anyQuery s r))

/-- The end of ORDECL or ORBUILD in the region: every node from the leaves (R259); held writes go on. -/
def rebuild (s : State) (r : Region) (first : Bool) : State :=
  let leaves := readLeaves s r
  let r1 := { r with leaves := leaves, building := false, applied := if first then 0 else r.applied + 1 }
  let r2 := { r1 with levels := buildLevels r1 14 leaves }
  putLevels (modRegion s r.ctx r.num fun _ => r2) r2 (backingLevels r2)

/-- REGION_BUILD_COMPLETE (R259): the end of a region operation. ORDECL of a non-negative region with a negative leaf
faults ORNEG and declares nothing (R248). -/
def execRegionBuildComplete (group warp hold : Nat) (s : State) : Host.Outcome State Fault Refusal :=
  .next (match group? s group, hold? s group warp hold with
    | some gr, some h => match h.kind with
      | .region num op => if !regionOpReady s gr.ctx num op then s else
        match region? s gr.ctx num with
        | none => modWarp s group warp (endHold h)
        | some r =>
          if op = 2 then
            let s1 := putLevels s r (slotLevels r)
            modWarp { s1 with regions := s1.regions.filter fun x => !(x.ctx == r.ctx && x.num == r.num) } group warp (endHold h)
          else match (if op = 0 ∧ r.nonneg then (readLeaves s r).find? (fun x => negLeaf r x.v) else none), heldEnv s group warp h with
            | some x, some e =>
              let s1 := dropHold { s with regions := s.regions.filter fun y => !(y.ctx == r.ctx && y.num == r.num) } group warp h
              takeFault (retryAccept s1) group warp (recordOf s e .orneg e.live (BitVec.ofNat 64 (r.base + x.i * Region.leaf r)) 0)
            | _, _ => modWarp (retryAccept (rebuild s r (op == 0))) group warp (endHold h)
      | _ => s
    | _, _ => s)

/-! ## TFENCE -/

/-- What TFENCE waits for (R267). -/
def tfenceReady (s : State) (g w c : Nat) (region : Option Nat) : Bool :=
  !(s.regions.any fun r => (match region with | some n => r.ctx == c && r.num == n | none => true) && recordsDue s g w r)

/-- TFENCE (R267). -/
def execTfence (h : Hdr) (a : Option Reg) (s : State) : Host.Outcome State Fault Refusal :=
  runWord (.tfence h a) s fun e t =>
    if e.live = 0 then .done t else
    let num := a.map (leaderRegion e t)
    match num with
    | some n => if (declared? t e.gr.ctx n).isNone then .trap t .orreg e.live (BitVec.ofNat 64 n) 0
      else if tfenceReady t e.g e.w e.gr.ctx num then .done t else .hold t (.tfence num) e.atPc
    | none => if tfenceReady t e.g e.w e.gr.ctx none then .done t else .hold t (.tfence none) e.atPc

/-- TFENCE_RELEASE (R267). -/
def execTfenceRelease (group warp hold : Nat) (s : State) : Host.Outcome State Fault Refusal :=
  .next (match group? s group, hold? s group warp hold with
    | some gr, some h => match h.kind with
      | .tfence r => if tfenceReady s group warp gr.ctx r then modWarp s group warp (endHold h) else s
      | _ => s
    | _, _ => s)

/-- FENCE_RELEASE (R219, R123): the fence completes in place, and so does a WSYNC whose members' writes are at the L1; a word that
waits as a fence issues again for its own effect. -/
def execFenceRelease (group warp hold : Nat) (s : State) : Host.Outcome State Fault Refusal :=
  .next (match group? s group, hold? s group warp hold with
    | some gr, some h => match h.kind with
      | .fence ord sc => if fenceReady s (dieOf gr.core) group warp ord sc then
          (match h.instr with
            | some (.fence ..) => modWarp (fenceEdges s (dieOf gr.core) group warp h.live ord sc) group warp (endHold h)
            | _ => dropHold s group warp h)
        else s
      | .wsync mem => if l1Pending s group warp mem then s else modWarp s group warp (endHold h)
      | _ => s
    | _, _ => s)

end Sys2Proof.Machine
end

