-- ==== Sys2Proof/Machine/Tensor.lean ====
section
/-! DEFINITION. Tensor identifiers (R274 to R278), TADDR (R205), the futures of a group (R306, R307), and what engine
and matrix words share at acceptance (R285, R304, R305). -/

namespace Sys2Proof.Machine

/-! ## Tensor entries -/

def Tensor.valid (t : Tensor) : Bool := t.flags / 128 == 1
def Tensor.versioned (t : Tensor) : Bool := t.flags / 64 % 2 == 1
/-- Scale format: 0 none, 1 E8, 2 F16. -/
def Tensor.scaleFmt (t : Tensor) : Nat := t.flags / 16 % 4
/-- Sparsity: 0 dense, 1 4-of-8, 2 2-of-8. -/
def Tensor.sparse (t : Tensor) : Nat := t.flags / 4 % 4

/-- Bits of an element in memory (R275). -/
def fmtBits (f : Nat) : Nat := if f = 0 then 32 else if f ≤ 2 then 16 else if f = 6 then 4 else 8

/-- K of one macro tile (R275). -/
def fmtK (f : Nat) : Nat := if f ≤ 2 then 96 else if f = 4 then 256 else if f = 6 then 384 else 192

/-- Planes streamed per A row (R275). -/
def fmtPlanes (f : Nat) : Nat := if f ≤ 2 then 16 else if f = 3 then 10 else if f = 6 then 4 else 8

def Tensor.size (t : Tensor) (j : Nat) : Nat := t.sizes[j]?.getD 0
/-- The byte stride of dimension j (R277). -/
def Tensor.stride (t : Tensor) (j : Nat) : Nat := 16 * t.strides[j - 1]?.getD 0

/-- A malformed entry (R276). -/
def Tensor.malformed (t : Tensor) : Bool :=
  let sf := Tensor.scaleFmt t
  let sp := Tensor.sparse t
  !Tensor.valid t || decide (t.format > 6) || decide (t.dims < 1) || decide (t.dims > 4) ||
  ((List.range 4).any fun j => if j < t.dims then decide (Tensor.size t j = 0) || decide (Tensor.size t j ≥ 2 ^ 31) else Tensor.size t j != 0) ||
  ((List.range 3).any fun j => decide (t.dims ≤ j + 1) && t.strides[j]?.getD 0 != 0) ||
  sf == 3 || (sf != 0 && decide (t.format ≤ 2)) || (sf == 0 && decide (5 ≤ t.format)) ||
  t.block != (if sf = 0 then 0 else 32) ||
  sp == 3 || (sp != 0 && decide (t.format < 5)) || (sp != 0 && t.posns == 0) ||
  t.base % 16 != 0 || (sf == 2 && t.scale % 2 != 0) || t.flags % 4 != 0 || t.rsv != 0

/-- An element lies inside the tensor (R277). -/
def Tensor.inside (t : Tensor) (at_ : List Nat) : Bool :=
  (List.range 4).all fun j =>
    let x := at_[j]?.getD 0
    if j < t.dims then decide (x < Tensor.size t j) else x == 0

/-- The offset of an element in bits from the base (R205, R277). -/
def Tensor.bitOff (t : Tensor) (at_ : List Nat) : Nat :=
  at_[0]?.getD 0 * fmtBits t.format + 8 * ((List.range 3).map fun j => at_[j + 1]?.getD 0 * Tensor.stride t (j + 1)).sum

/-- The address of the byte that holds an element. -/
def Tensor.va (t : Tensor) (at_ : List Nat) : DWord := BitVec.ofNat 64 (t.base + Tensor.bitOff t at_ / 8)

/-- The place of an entry in the cache of a core (R205). -/
def entryKey (core ctx tid : Nat) : Nat := 2 ^ 20 * core + 256 * ctx + tid

/-- The address of an identifier's entry (R278). -/
def entryVa (s : State) (c tid : Nat) : DWord := (((ctx? s c).map (·.tidbase)).getD 0) + BitVec.ofNat 64 (64 * tid)

/-- The 64 bytes of an identifier's entry as memory holds them: PROT or PAGE of the table (R278). -/
def tableEntry (s : State) (e : Env) (tid kind : Nat) : Except LaneFault (List Byte) := do
  let lf ← memLeaf s e (entryVa s e.gr.ctx tid) 64 kind 1
  readMem s e lf 64 false 32

/-- An entry that ordinary stores have changed may be read with each byte old or new (R278): a byte that the core's cache holds, or
the byte of the table, by the step's free number. -/
def mixBytes (s : State) (old new : List Byte) : List Byte :=
  if s.draw = 0 then new else new.mapIdx fun i b => if Config.choose s.draw (8192 + i) % 2 = 0 then b else old[i]?.getD b

/-- An identifier's entry as an engine or matrix word reads it (R278). -/
def rawEntry (s : State) (e : Env) (tid kind : Nat) : Except LaneFault Tensor := do
  let b ← tableEntry s e tid kind
  pure (tensorOf (match sget? s.entries (entryKey e.gr.core e.gr.ctx tid) with
    | some old => mixBytes s old b
    | none => b))

/-- The same, TIDBAD where the entry is malformed (R276). -/
def tensorEntry (s : State) (e : Env) (tid kind : Nat) : Except LaneFault Tensor := do
  let t ← rawEntry s e tid kind
  if Tensor.malformed t then bad .tidbad (BitVec.ofNat 64 tid) 0 else pure t

/-- TIDSET and TIDINV drop every cached copy of an entry in the device (R278). -/
def dropEntries (s : State) (ctx tid : Nat) : State :=
  { s with entries := s.entries.filter fun p => p.1 % 2 ^ 20 != 256 * ctx + tid }

/-- The entry that a lane of TADDR reads in its core's cache, or none on a miss (R205): a miss reads the table, and may fault. -/
def cachedEntry (s : State) (e : Env) (tid : Nat) : Except LaneFault (Option Tensor) :=
  match sget? s.entries (entryKey e.gr.core e.gr.ctx tid) with
  | some b =>
    let x := tensorOf (if s.draw = 0 then b else match tableEntry s e tid 0 with
      | .ok new => mixBytes s b new
      | .error _ => b)
    if Tensor.malformed x then bad .tidbad (BitVec.ofNat 64 tid) 0 else pure (some x)
  | none => do
    let _ ← tensorEntry s e tid 0
    pure none

/-- The address of an element (R205): zero where .CHK finds an index outside. -/
def elemAddr (t : State) (e : Env) (chk : Bool) (b : Reg) (l : Nat) (x : Tensor) : Nat :=
  let i (j : Nat) : Nat := (regRead t e.gr e.wp (b.toNat + j) l).toNat
  let off := i 0 * fmtBits x.format / 8 + ((List.range (x.dims - 1)).map fun j => i (j + 1) * Tensor.stride x (j + 1)).sum
  if chk && (List.range x.dims).any (fun j => decide (Tensor.size x j ≤ i j)) then 0 else (BitVec.ofNat 64 (x.base + off)).toNat

/-- TADDR (R205): with every entry in the core's cache its result is there at once; on a miss the lane group is held until the
entries have arrived. -/
def execTaddr (h : Hdr) (chk : Bool) (d a b : Reg) (s : State) : Host.Outcome State Fault Refusal :=
  runWord (.taddr h chk d a b) s fun e t =>
    lanesThen e t (fun u l => pureLane u (cachedEntry u e ((e.v t a l).toNat % 256))) fun u xs =>
      let missing := ((xs.filter fun x => x.2.isNone).map fun x => (e.v t a x.1).toNat % 256).foldl sins []
      if missing.isEmpty then .done (writeLanes e u d.toNat 2 fun l => match (xs.find? (·.1 == l)).bind (·.2) with
        | some x => elemAddr t e chk b l x
        | none => 0)
      else .hold (modWarp u e.g e.w fun x => { x with outs := x.outs ++ (missing.filter fun k => !x.outs.contains (.entry k)).map .entry }) .entry e.atPc

/-- A tensor entry arrives at a core (R205): the lane groups of the warp that wait for entries issue again. An entry that the table
no longer yields is not kept: its word finds the fault as it issues again. -/
def entryArrives (s : State) (gr : Group) (w idx tid : Nat) : State :=
  let s1 := modWarp s gr.id w fun x => dropHolds? { x with outs := dropAt x.outs idx } fun h => h.kind == .entry
  let va := entryVa s gr.ctx tid
  match translate s (dieOf gr.core) gr.ctx (gens s gr) va { kind := 0, need := 1 } with
  | .ok l =>
    let a := if l.space = 0 ∨ l.space = 11 then viewAddr s gr l.addr else l.addr
    if eccHit s (dieOf gr.core) l.space a 64 then s1
    else { s1 with entries := sput s1.entries (entryKey gr.core gr.ctx tid) (viewBytes s (dieOf gr.core) l.space a 64) }
  | _ => s1

/-! ## Futures -/

/-- The entry a handle word matches (R307). -/
def futureOf? (gr : Group) (w : Word) : Option Future :=
  match sget? gr.futures (handleIndex w) with
  | some f => if f.gen = handleGen w then some f else none
  | none => none

/-- A handle word with RES and STAT (R306). -/
def statusWord (w : Word) (res : Bool) (stat : Nat) : Word :=
  BitVec.ofNat 32 (w.toNat % 2 ^ 28 + 2 ^ 28 * stat + if res then 2 ^ 31 else 0)

/-- What HTEST reads of a handle word: the word and the landed count (R319). -/
def queryFuture (gr : Group) (w : Word) : Word × Word :=
  match futureOf? gr w with
  | some f => (statusWord w f.res f.stat, BitVec.ofNat 32 f.landed)
  | none => (if w.getLsbD 31 then w else statusWord w true 7, 0xFFFFFFFF)

/-- The lowest free entries of a group's table, as many as asked for (R307). -/
def freeFutures (gr : Group) : List Nat :=
  (List.range 128).filter fun i => match sget? gr.futures i with | some f => !f.live | none => true

/-- Allocates an entry: its generation rises by one (R307). -/
def allocFuture (s : State) (g idx kind op : Nat) : State × Word :=
  let gen := match (group? s g).bind fun x => sget? x.futures idx with | some f => (f.gen + 1) % 2 ^ 16 | none => 1
  (modGroup s g fun x => { x with futures := sput x.futures idx { gen := gen, live := true, res := false, stat := 0, kind := kind, landed := 0, op := op } },
   BitVec.ofNat 32 (kind * 2 ^ 24 + gen * 2 ^ 7 + idx))

/-- The lanes in which a word held for a future reads a register tagged with a handle (R45). -/
def handleReaders (s : State) (gr : Group) (wp : Warp) (w : Word) (h : HoldRec) : Mask :=
  if h.kind ≠ .future then 0 else match heldEnv s gr.id wp.index h, h.instr with
  | some e, some i => maskOf fun l => bit h.lanes l &&
      (((uses i).guard.toList ++ if bit e.live l then spread (uses i).reads else []).any fun r =>
        wp.tags.contains (32 * r + l) && regRead s gr wp r l == w)
  | _, _ => 0

/-- Writes the resolved word into the registers of a warp that hold the future's tag, and clears the tags (R307). -/
def resolveTags (s : State) (gr : Group) (w : Word) (v : Word) (wp : Warp) : Warp :=
  let keys := wp.tags.filter fun k => regRead s gr wp (k / 32) (k % 32) == w
  keys.foldl (fun x k => setReg x (k / 32) (k % 32) v) wp

/-- A future recorded in a trap frame for v240 to v255: its word goes into the frame, whose tag bit clears (R356). -/
def resolveFrame (s : State) (gr : Group) (w v : Word) (i : Nat) (wp : Warp) : State :=
  match wp.handler with
  | none => s
  | some h =>
    let hit := h.tagged.filter fun p => p.2 == w
    hit.foldl (fun t p =>
      let r := p.1 / 32
      let l := p.1 % 32
      let put (u : State) (off : Nat) (data : List Byte) : State :=
        match devWrite u gr.ctx (gens u gr) (h.frame + BitVec.ofNat 64 off) 4 data with | .ok x => x | _ => u
      let t1 := put t (4096 + 128 * (r - 240) + 4 * l) (leBytes 4 v.toNat)
      let t2 := match devRead t1 gr.ctx (gens t1 gr) (h.frame + BitVec.ofNat 64 (1536 + 4 * r)) 4 4 with
        | .ok b => put t1 (1536 + 4 * r) (leBytes 4 ((BitVec.ofNat 32 (leNat b)) &&& ~~~(1#32 <<< l)).toNat)
        | _ => t1
      modWarp t2 gr.id i fun x => { x with handler := x.handler.map fun q => { q with tagged := q.tagged.filter (· != p) } }) s

/-- Every write of an operation so far, as those that join it must see them (R236). -/
def opView (s : State) (op : Nat) : View := { clock := [(16 + op, lastStamp s)], seen := [] }

/-- The live lanes in which HWAIT goes on (R320): the word is resolved or retired. -/
def hwaitDone (s : State) (e : Env) (a : Reg) : Mask :=
  e.live &&& maskOf fun l => (e.v s a l).getLsbD 31 || (queryFuture (e.now s) (e.v s a l)).1.getLsbD 31

/-- A word that has seen lanes' futures resolved happens-after their operations (R236). -/
def joinOps (s : State) (e : Env) (a : Reg) (lanes : Mask) : State :=
  (lanesOf lanes).foldl (fun t l => match futureOf? (e.now s) (e.v s a l) with
    | some f => if f.res then learn t e.die (opView t f.op) else t
    | none => t) s

/-- Lanes of HWAIT go on with what HTEST would read (R320). -/
def hwaitLanes (s : State) (e : Env) (d a : Reg) (lanes : Mask) : State :=
  writeLanes { e with live := lanes } (joinOps s e a lanes) d.toNat 1 fun l => (queryFuture (e.now s) (e.v s a l)).1.toNat

/-- Lanes of a held HWAIT whose futures have resolved go on; the others stay held (R320). -/
def settleHwait (s : State) (g i : Nat) (h : HoldRec) : State :=
  match heldEnv s g i h, h.instr with
  | some e, some (.hwait _ d a) =>
    let done := hwaitDone s e a
    let rest := h.lanes &&& ~~~done
    if done = 0 then s
    else if rest = 0 then modWarp (hwaitLanes s e d a done) g i (endHold h)
    else modWarp (hwaitLanes s e d a done) g i fun x =>
      { (if e.mark then park done else id) (advance x done) with holds := x.holds.map fun y => if y == h then { h with lanes := rest } else y }
  | _, _ => s

/-- Every HWAIT of a group is looked at again. -/
def settleHwaits (s : State) (g : Nat) : State :=
  match group? s g with
  | none => s
  | some gr => (List.range gr.warps.length).foldl (fun t i => match gr.warps[i]? with
    | some wp => (wp.holds.filter (·.kind == .hwait)).foldl (fun u h => settleHwait u g i h) t
    | none => t) s

/-- A FUTURE RESOLVES (R307, R286, R314): its entry frees, its registers take the resolved word, lane groups held on it
issue again, and an error is raised in the issuing warp where it waits on the future, or deferred. -/
def resolveFuture (s : State) (g w : Nat) (handle : Word) (stat cls : Nat) (err : Option (Code × DWord × DWord)) : State :=
  match group? s g with
  | none => s
  | some gr =>
    let v := statusWord handle true stat
    let waiting := ((gr.warps[w]?).map fun wp => wp.holds.filter fun h => handleReaders s gr wp handle h != 0).getD []
    let s1 := modGroup s g fun x => { x with
      futures := match sget? x.futures (handleIndex handle) with
        | some f => if f.gen = handleGen handle then sput x.futures (handleIndex handle) { f with live := false, res := true, stat := stat } else x.futures
        | none => x.futures
      warps := (x.warps.map (resolveTags s gr handle v)).map fun y => dropHolds? y fun h => h.kind == .future }
    let s2 := (List.range gr.warps.length).foldl (fun t i => match gr.warps[i]? with
      | some wp => resolveFrame t gr handle v i wp
      | none => t) s1
    let joined := gr.warps.any fun wp => wp.holds.any fun h => handleReaders s gr wp handle h != 0
    let op := (futureOf? gr handle).map (·.op)
    let s3 := settleHwaits (match op with | some o => if joined then learn s2 (dieOf gr.core) (opView s2 o) else s2 | none => s2) g
    match err with
    | none => s3
    | some (c, d0, d1) => match waiting.head? with
      | some h => match heldEnv s g w h, gr.warps[w]? with
        | some e, some wp => takeFault s3 g w { recordOf s e c (handleReaders s gr wp handle h) d0 d1 with deferred := true }
        | _, _ => s3
      | none => deferTo s3 g w cls c d0 d1

/-! ## Acceptance -/

/-- The parameter or copy block of a lane (R285, R311): its address and its 64 bytes. -/
def blockOf (s : State) (e : Env) (p : Place) (l : Nat) : Except LaneFault (DWord × List Byte) :=
  match p with
  | .spm v =>
    let o := (e.v s v l).toNat
    if o % 64 ≠ 0 then bad .align (BitVec.ofNat 64 o) 0
    else if o + 64 > e.gr.spmSize then bad .prot (BitVec.ofNat 64 o) 0
    else match spmError e.gr o 64 with
      | some x => bad .eccu (BitVec.ofNat 64 x) 0
      | none => .ok (BitVec.ofNat 64 o, spmBytes s e.gr o 64)
  | .mem d => do
    let va := e.d s d l
    if va.toNat % 64 ≠ 0 then bad .align va 0 else do
      let lf ← memLeaf s e va 64 4 1
      let b ← readMem s e lf 64 false l
      pure (va, b)

/-- Pinned translations: virtual page to space and physical page, and the page-table lines read. -/
abbrev Pages := List (Nat × (Nat × Nat)) × List Nat

/-- One page at acceptance (R285, R311): a refused permission or a host page faults PROT, a page against the entry's VS
rule TIDBAD (R276), a missing page PAGE. -/
def accPage (s : State) (e : Env) (tid : Option (Nat × Bool)) (need : Nat) (ps : Pages) (va : Nat) : Except LaneFault Pages :=
  let v := BitVec.ofNat 64 va
  if va ≥ 2 ^ 57 then bad .prot v 0 else
  match translate s e.die e.gr.ctx (gens s e.gr) v { kind := 4, need := need } with
  | .bad c d0 d1 => bad c d0 d1
  | .hole => .error none
  | .ok l =>
    if l.sys then bad .prot v 0
    else match (match tid with | some (n, vs) => if l.vs.isSome != vs then some n else none | none => none) with
      | some n => bad .tidbad (BitVec.ofNat 64 n) 0
      | none => .ok (sput ps.1 (va / 65536) (l.space, l.addr / 65536), sinsAll ps.2 l.lines)

/-- The pages of a byte range, in increasing order. -/
def accRange (s : State) (e : Env) (tid : Option (Nat × Bool)) (need : Nat) (ps : Pages) (va len : Nat) : Except LaneFault Pages :=
  if len = 0 then .ok ps else
  ((List.range ((va + len - 1) / 65536 + 1 - va / 65536)).map fun i => max va (65536 * (va / 65536 + i))).foldlM (accPage s e tid need) ps

def accRanges (s : State) (e : Env) (tid : Option (Nat × Bool)) (need : Nat) (ps : Pages) (rs : List (Nat × Nat)) : Except LaneFault Pages :=
  rs.foldlM (fun p r => accRange s e tid need p r.1 r.2) ps

/-- Bytes through pinned translations, in an instance's own view (R134); the physical address of an uncorrectable error. -/
def pinnedRead (s : State) (gr : Group) (pages : List (Nat × (Nat × Nat))) (va n : Nat) : Except DWord (List Byte) :=
  match sget? pages (va / 65536) with
  | none => .ok (zeros n)
  | some (sp, page) =>
    let a := viewAddr s gr (65536 * page + va % 65536)
    if eccHit s (dieOf gr.core) sp a n then .error (BitVec.ofNat 64 a) else .ok (viewBytes s (dieOf gr.core) sp a n)

/-- Where a virtual address lies by pinned translations. -/
def pinnedAt (pages : List (Nat × (Nat × Nat))) (va : Nat) : Nat × Nat :=
  match sget? pages (va / 65536) with
  | some (sp, page) => (sp, 65536 * page + va % 65536)
  | none => (0, physTop)

/-- An engine write performed at its home (R229, R236): the elements of a non-negative region that would read as negative
stay unwritten (R251); answers whether it was written. -/
def engineWrite (s : State) (op die sp a : Nat) (data : List Byte) : State × Bool :=
  match negWrite s die sp a data with
  | some _ => (s, false)
  | none => (homeWrite (drainAt s die (memKey sp a) data.length) (16 + op) none sp a data none false, true)

/-- The walk-ahead entries in use in a cluster (R305): an entry that several operations pin is one. -/
def pinsIn (s : State) (cluster : Nat) : Nat :=
  (sinsAll (((s.copies.filter fun c => c.core / 2 == cluster && !c.parked).flatMap (·.entries)).foldl sins [])
    ((s.matops.filter fun m => m.core / 2 == cluster && !m.parked).flatMap (·.entries))).length

/-- The walk-ahead entries of some 64 KiB pages, by page and size, context and version slot (R305). -/
def pinKeys (u : State) (e : Env) (vps : List Nat) : List Nat :=
  (vps.map fun vp => match translate u e.die e.gr.ctx (gens u e.gr) (BitVec.ofNat 64 (65536 * vp)) { kind := 4, need := 0 } with
    | .ok l => (if l.size = 0 then 4 * vp else if l.size = 1 then 4 * (vp / 32) + 1 else 4 * (vp / 16384) + 2) +
        2 ^ 44 * (e.gr.ctx + 4096 * (match l.vs with | some (r, i) => 1 + 4 * r + i | none => 0))
    | _ => 4 * vp + 2 ^ 44 * e.gr.ctx).foldl sins []

/-- A lane group that waits for walk-ahead entries still stands at its word. -/
def walkerLive (s : State) (x : Nat × Nat × DWord) : Bool :=
  match group? s x.1, warp? s x.1 x.2.1 with
  | some g, some w => g.life == .resident && w.fault.isNone && standing w x.2.2 != 0
  | _, _ => false

/-- The core that keeps what a cluster's tensor walker and copy engine hold. -/
def evenCore (c : Nat) : Nat := 2 * (c / 2)

/-- No acceptance that reached the walker earlier still waits (R305). -/
def walkTurn (s : State) (e : Env) : Bool :=
  !(((core s (evenCore e.gr.core)).walkers.takeWhile fun x => x != (e.g, e.w, e.pc)).any (walkerLive s))

/-- An acceptance waits in the walker's order (R305). -/
def joinWalkers (s : State) (e : Env) : State :=
  modCore s (evenCore e.gr.core) fun c => if c.walkers.contains (e.g, e.w, e.pc) then c else { c with walkers := c.walkers ++ [(e.g, e.w, e.pc)] }

/-- An acceptance has been served: those behind it are tried again. -/
def leaveWalkers (s : State) (e : Env) : State :=
  if (core s (evenCore e.gr.core)).walkers.isEmpty then s else
  retryAccept (modCore s (evenCore e.gr.core) fun c => { c with walkers := c.walkers.filter (· != (e.g, e.w, e.pc)) })

/-- Acceptance reserves all its walk-ahead entries in state u, or waits in the state t before it (R305). -/
def reserveThen (e : Env) (t u : State) (lanes : Mask) : WordRes :=
  if !walkTurn t e || decide (pinsIn u (e.gr.core / 2) > 1024) then .hold (joinWalkers t e) .accept lanes else .done (leaveWalkers u e)

/-- Subtracts from a byte-count barrier (R224): a release that covers what the operation has written. -/
def creditBarrier (s : State) (op g off n : Nat) : State :=
  match group? s g with
  | none => s
  | some gr => modGroup (writeSpm s g off (leBytes 8 ((leNat (spmBytes s gr off 8) + 2 ^ 64 - n % 2 ^ 64) % 2 ^ 64))) g fun x =>
      { x with credits := sput x.credits off (((sget? x.credits off).getD View.empty).join (opView s op)) }

/-- The barrier field of a block: none, or a checked scratchpad offset. -/
def barrierField (b : List Byte) (o : Nat) : Option Nat := if field b o 4 = 0xFFFFFFFF then none else some (field b o 4)

end Sys2Proof.Machine
end

