-- ==== Sys2Proof/Machine/Matrix.lean ====
section
/-! DEFINITION. The matrix unit (R270 to R302): tiles, exact products, folds, the words of the class and the turns of
accepted operations. -/

namespace Sys2Proof.Machine

/-! ## Blocks of 32 elements -/

/-- Aligns a block to its largest exponent (R279): integers and the exponent of the quantum; none is invalid. -/
def alignBlock (xs : List (Option (Int × Int))) (planes : Nat) : Option (List Int × Int) :=
  if xs.any (·.isNone) then none else
  let vs := xs.filterMap id
  let nz := vs.filter fun v => v.1 != 0
  match nz with
  | [] => some (vs.map fun _ => 0, 0)
  | v :: r =>
    let ex (x : Int × Int) : Int := (Nat.log2 x.1.natAbs : Int) + x.2
    let q := r.foldl (fun m x => max m (ex x)) (ex v) + 2 - (planes : Int)
    some (vs.map fun x => let m := (toIntegral .rn (decide (x.1 < 0)) x.1.natAbs (x.2 - q) : Int); if x.1 < 0 then -m else m, q)

/-- The exact value of an element's code in a format without half steps; none for a NaN, NaR or infinity (R279). -/
def operandVal (fmt code : Nat) : Option (Int × Int) :=
  if fmt = 3 then decodeST code 8
  else if fmt = 4 then decodeST (code % 64) 6
  else match fdecode (if fmt = 1 then .f16 else .bf16) code with
    | .fin neg m e => some (sgnInt neg m, e)
    | _ => none

/-- Columns in the order of the scale array (R277). -/
def colIndex (t : Tensor) (i1 i2 i3 : Nat) : Nat := i1 + Tensor.size t 1 * (i2 + Tensor.size t 2 * i3)

def scaleBytes (t : Tensor) : Nat := if Tensor.scaleFmt t = 2 then 2 else 1

/-- The address of a block's scale (R277). -/
def scaleVa (t : Tensor) (blk i1 i2 i3 : Nat) : Nat :=
  t.scale + scaleBytes t * (blk + (Tensor.size t 0 + 31) / 32 * colIndex t i1 i2 i3)

/-- Kept elements of 8 positions, and the bytes of their metadata (R277). -/
def keptOf (t : Tensor) : Nat := if Tensor.sparse t = 1 then 4 else 2
def metaBytes (t : Tensor) : Nat := if Tensor.sparse t = 1 then 2 else 1
def metaVa (t : Tensor) (grp i1 i2 i3 : Nat) : Nat :=
  t.posns + metaBytes t * (grp + (Tensor.size t 0 + 7) / 8 * colIndex t i1 i2 i3)

/-- The kept positions of a group (R277). -/
def positions (t : Tensor) (m : Nat) : List Nat := (List.range (keptOf t)).map fun i => m / 8 ^ i % 8

/-- Metadata that breaks R277. -/
def metaBad (t : Tensor) (m : Nat) : Bool :=
  let p := positions t m
  m / 8 ^ keptOf t != 0 || (List.range (keptOf t - 1)).any fun i => decide (p[i + 1]?.getD 0 ≤ p[i]?.getD 0)

/-- Logical K of a tile (R275). -/
def tileK (t : Tensor) : Nat := if Tensor.sparse t = 0 then fmtK t.format else fmtK t.format * 8 / keptOf t

/-- The code of a stored element. -/
def readCode (s : State) (gr : Group) (pages : List (Nat × (Nat × Nat))) (t : Tensor) (i0 i1 i2 i3 : Nat) : Except DWord Nat := do
  let n := (fmtBits t.format + 7) / 8
  let b ← pinnedRead s gr pages (Tensor.va t [i0, i1, i2, i3]).toNat n
  pure (if t.format = 6 then leNat b / 16 ^ (i0 % 2) % 16 else leNat b)

/-- A 32-element block from logical position k on (R277, R279, R280): integers, none at a position that does not count,
and the factor of the block; none is an invalid block. -/
def readBlock (s : State) (gr : Group) (pages : List (Nat × (Nat × Nat))) (t : Tensor) (planes k i1 i2 i3 : Nat) :
    Except DWord (List (Option Int) × Option (Int × Int)) := do
  let codes ← (List.range 32).mapM fun j =>
    if !Tensor.inside t [k + j, i1, i2, i3] then (pure none : Except DWord (Option Nat))
    else if Tensor.sparse t = 0 then do pure (some (← readCode s gr pages t (k + j) i1 i2 i3))
    else do
      let m ← pinnedRead s gr pages (metaVa t ((k + j) / 8) i1 i2 i3) (metaBytes t)
      match indexWhere (· == (k + j) % 8) (positions t (leNat m)) with
      | some i => pure (some (← readCode s gr pages t ((k + j) / 8 * keptOf t + i) i1 i2 i3))
      | none => pure none
  if codes.all (·.isNone) then pure (codes.map fun _ => none, some (1, 0)) else do
    let sc ← if Tensor.scaleFmt t = 0 then (pure (some (1, 0)) : Except DWord (Option (Int × Int))) else do
      pure (blockScale (Tensor.scaleFmt t) (leNat (← pinnedRead s gr pages (scaleVa t (k / 32) i1 i2 i3) (scaleBytes t))))
    match sc with
    | none => pure (codes.map fun _ => none, none)
    | some (sm, se) =>
      if 5 ≤ t.format then
        let w := if t.format = 5 then 8 else 4
        pure (codes.map fun c => c.map fun x => 2 * codeInt x w + 1, some (sm, se - 1))
      else match alignBlock (codes.map fun c => match c with | some x => operandVal t.format x | none => some (0, 0)) planes with
        | none => pure (codes.map fun _ => none, none)
        | some (ms, q) => pure (ms.map some, some (sm, se + q))

/-- The tile of R294 from its tag and entry. -/
def readTile (s : State) (gr : Group) (pages : List (Nat × (Nat × Nat))) (tag : Tag) (t : Tensor) : Except DWord Tile := do
  let cols ← (List.range 64).mapM fun c => (List.range (tileK t / 32)).mapM fun j =>
    readBlock s gr pages t (fmtPlanes t.format) (tag.k0 + 32 * j) (tag.n0 + c) tag.i2 tag.i3
  pure { fmt := t.format, kt := tileK t, cols := cols.map fun bs => bs.flatMap (·.1), exps := cols.map fun bs => bs.map (·.2) }

/-! ## Products and folds -/

/-- The exact sum of a block pair (R280). -/
def dotInts : List (Option Int) → List (Option Int) → Int
  | some a :: r, some b :: q => a * b + dotInts r q
  | _ :: r, _ :: q => dotInts r q
  | _, _ => 0

/-- The product of R281: the exact sum of the block values, rounded once; NaN where a block is invalid. -/
def rowProduct (as bs : List (List (Option Int) × Option (Int × Int))) : Nat :=
  let ps := as.zip bs
  if ps.any fun p => p.1.2.isNone || p.2.2.isNone then Fmt.nan .f32 else
  let v := ps.foldl (fun (acc : Int × Int) p => match p.1.2, p.2.2 with
    | some (ma, ea), some (mb, eb) => dyAdd acc.1 acc.2 (dotInts p.1.1 p.2.1 * ma * mb) (ea + eb)
    | _, _ => acc) ((0, 0) : Int × Int)
  froundDy .f32 .rn v.1 v.2 false

/-- fold(s, e, p) (R282). -/
def foldPair (x : Word × Word) (p : Nat) : Word × Word :=
  let r := ftwosum x.1.toNat p
  (BitVec.ofNat 32 r.1, BitVec.ofNat 32 (fadd .f32 .rn false x.2.toNat r.2))

/-- The read-out of a pair (R282). -/
def readOut (x : Word × Word) : Word := BitVec.ofNat 32 (fadd .f32 .rn false x.1.toNat x.2.toNat)

def pairAt (a : AccSlot) (r c : Nat) : Word × Word := (sget? a.pairs (64 * r + c)).getD (0, 0)

def putPair (a : AccSlot) (r c : Nat) (x : Word × Word) : AccSlot :=
  { a with pairs := if x = (0, 0) then sdel a.pairs (64 * r + c) else sput a.pairs (64 * r + c) x }

def slotAt (s : State) (c p : Nat) : AccSlot := (core s c).slots[p]?.getD AccSlot.clear

def modSlot (s : State) (c p : Nat) (f : AccSlot → AccSlot) : State := modCore s c fun k => { k with slots := modAt k.slots p f }

/-! ## Macros, slots and the queue -/

/-- The working macro behind a macro number (R416). -/
def unitOf (c : Core) (m : Nat) : Nat :=
  let ws := (List.range 8).filter fun i => !c.retired.contains i
  ws[m % max 1 ws.length]?.getD m

def macroAt (s : State) (c m : Nat) : Macro := (core s c).macros[unitOf (core s c) m]?.getD Macro.empty

def setMacro (s : State) (c m : Nat) (x : Macro) : State :=
  modCore (mend s fun y => y == .column c (unitOf (core s c) m)) c fun k => { k with macros := setAt k.macros (unitOf k m) x }

/-- The macro numbers and slots an operation uses. -/
def MatKind.macros : MatKind → List Nat
  | .load m _ _ _ => [m]
  | .mul _ _ _ _ _ ps _ _ => ps.map (·.1)
  | .stream _ m _ _ _ _ _ => [m]
  | _ => []

def MatKind.slots : MatKind → List Nat
  | .load _ _ _ _ => []
  | .mul _ _ _ _ _ ps _ _ => ps.map (·.2.1)
  | .stream _ _ p _ _ _ _ => [p]
  | .read p _ _ _ _ _ => [p]
  | .write p _ _ => [p]
  | .clear ps _ => ps
  | .epi _ p _ _ _ _ _ _ _ _ _ _ _ _ _ _ => [p]

/-- The turns an operation takes: its rows, or one. -/
def MatKind.turns : MatKind → Nat
  | .mul _ rows _ _ _ _ _ _ => rows
  | .stream _ _ _ rows _ _ _ => rows
  | .epi _ _ rows _ _ _ _ _ _ _ _ _ _ _ _ _ => rows
  | _ => 1

/-- Two operations of a core use a macro or slot in common. -/
def conflict (c : Core) (a b : MatKind) : Bool :=
  ((MatKind.macros a).any fun m => (MatKind.macros b).any fun n => unitOf c m == unitOf c n) ||
  ((MatKind.slots a).any fun p => (MatKind.slots b).contains p)

def matOver (m : MatOp) : Bool := m.stop || decide (MatKind.turns m.kind ≤ m.done)

/-- An operation has its turn (R273): every earlier operation with a macro or slot in common is over. -/
def matReady (s : State) (m : MatOp) : Bool :=
  !m.parked && !matOver m &&
  (s.matops.takeWhile fun x => x.id != m.id).all fun x => x.core != m.core || x.parked || !conflict (core s m.core) x.kind m.kind

/-- Entries of a core's matrix queue in use. -/
def queueUsed (s : State) (c : Nat) : Nat := (s.matops.filter fun m => m.core == c && !m.parked).length

/-- Claims the logical slots a group does not hold; none when no physical slot is free (R272). -/
def claimSlots (s : State) (e : Env) : List Nat → Option State
  | [] => some s
  | l :: r =>
    if (sget? (e.now s).slots l).isSome then claimSlots s e r
    else match indexWhere (fun (a : AccSlot) => !a.used) (core s e.gr.core).slots with
      | none => none
      | some p => claimSlots (modGroup (modSlot s e.gr.core p fun _ => { used := true, pairs := [] }) e.g fun x =>
          { x with slots := sput x.slots l p }) e r

def physSlot (s : State) (e : Env) (l : Nat) : Nat := (sget? (e.now s).slots l).getD 0

/-- Adds an accepted operation to the queue; answers its number. -/
def addMat (s : State) (e : Env) (k : MatKind) (block : List Byte) (barrier : Option Nat) (tags : List (Nat × TagRec)) (ps : Pages) :
    State × Nat :=
  let id := s.seqs
  ({ s with seqs := id + 1, matops := s.matops ++ [{
      id := id, core := e.gr.core, group := e.g, warp := e.w, kind := k, barrier := barrier,
      block := block, started := false, done := 0, stop := false, bytes := 0, stat := 0, err := none, tags := tags, refused := none,
      entries := pinKeys s e (ps.1.map (·.1)), pages := ps.1, pins := ps.2, parked := false }] }, id)

/-- Acceptance of a matrix word (R273, R285): room in the queue first, then every lane or none. A lane answers whether
it lacks a physical slot, or another resource. -/
def matWord (i : Instr) (s : State) (f : Env → State → Nat → Except LaneFault (State × Option Hold)) : Host.Outcome State Fault Refusal :=
  runWord i s fun e t =>
    if e.live = 0 then .done t
    else if queueUsed t e.gr.core + (lanesOf e.live).length > 16 then .hold t .accept e.live
    else lanesThen e t (f e) fun u as => match as.findSome? (·.2) with
      | some k => .hold t k e.live
      | none => reserveThen e t u e.live

/-- A block field breaks its rule (R285). -/
def shape (va : DWord) {α : Type} : Except LaneFault α := bad .mshape va 0

def guardE (c : Bool) (x : LaneFault) : Except LaneFault Unit := if c then .error x else .ok ()

/-- A barrier field: 8-aligned, within the scratchpad (R224, R293). -/
def checkBarrier (e : Env) (va : DWord) (b : List Byte) (o : Nat) : Except LaneFault (Option Nat) :=
  match barrierField b o with
  | none => .ok none
  | some x => if x % 8 ≠ 0 then shape va else if x + 8 > e.gr.spmSize then bad .prot (BitVec.ofNat 64 x) 0 else .ok (some x)

/-- The byte ranges of a run of K positions of one row or column: elements, scales and metadata (R277, R285). -/
def runRanges (t : Tensor) (k len i1 i2 i3 : Nat) : List (Nat × Nat) :=
  let hi := min (k + len) (Tensor.size t 0)
  if k < hi ∧ Tensor.inside t [k, i1, i2, i3] then
    let a := if Tensor.sparse t = 0 then k else k / 8 * keptOf t
    let b := if Tensor.sparse t = 0 then hi else (hi + 7) / 8 * keptOf t
    let va := (Tensor.va t [a, i1, i2, i3]).toNat
    [(va, ((b - a) * fmtBits t.format + 7) / 8)] ++
    (if Tensor.scaleFmt t = 0 then [] else [(scaleVa t (k / 32) i1 i2 i3, scaleBytes t * ((hi + 31) / 32 - k / 32))]) ++
    (if Tensor.sparse t = 0 then [] else [(metaVa t (k / 8) i1 i2 i3, metaBytes t * ((hi + 7) / 8 - k / 8))])
  else []

def tileRanges (t : Tensor) (g : Tag) : List (Nat × Nat) :=
  (List.range 64).flatMap fun c => runRanges t g.k0 (tileK t) (g.n0 + c) g.i2 g.i3

/-- The bytes a load of a tile reads: elements, scales and metadata inside the sizes (R288, R294; log entry 24). -/
def tileBytes (t : Tensor) (g : Tag) : Nat := ((tileRanges t g).map (·.2)).sum

/-- Scales and metadata of a run are checked at acceptance: a breach faults MFMT (R78, R277, R285). -/
def checkRun (s : State) (e : Env) (ps : Pages) (tid : Nat) (t : Tensor) (k len i1 i2 i3 : Nat) : Except LaneFault Unit :=
  let hi := min (k + len) (Tensor.size t 0)
  if ¬(k < hi ∧ Tensor.inside t [k, i1, i2, i3]) then .ok () else
  let rd (va n : Nat) : Except LaneFault Nat := match pinnedRead s (e.now s) ps.1 va n with
    | .ok b => .ok (leNat b)
    | .error a => bad .eccu a 0
  do
    if Tensor.scaleFmt t ≠ 0 then
      (List.range ((hi + 31) / 32 - k / 32)).forM fun j => do
        let v ← rd (scaleVa t (k / 32 + j) i1 i2 i3) (scaleBytes t)
        guardE (blockScale (Tensor.scaleFmt t) v).isNone (some (.mfmt, BitVec.ofNat 64 tid, 0))
    if Tensor.sparse t ≠ 0 then
      (List.range ((hi + 7) / 8 - k / 8)).forM fun j => do
        let v ← rd (metaVa t (k / 8 + j) i1 i2 i3) (metaBytes t)
        guardE (metaBad t v) (some (.mfmt, BitVec.ofNat 64 tid, 0))

/-- The set count of an entry (R278). -/
def setCount (s : State) (c tid : Nat) : Nat := ((ctx? s c).bind fun x => sget? x.tidCount tid).getD 0

/-- The range and generation of a version-sensitive operand (R271, R284). -/
def tileGen (s : State) (e : Env) (t : Tensor) (va : Nat) : Option (Nat × Nat) :=
  if !Tensor.versioned t then none else
  match translate s e.die e.gr.ctx (gens s e.gr) (BitVec.ofNat 64 va) { kind := 4, need := 1 } with
  | .ok l => l.vs.map fun v => (v.1, (gens s e.gr v.1).getD 0xFFFF)
  | _ => none

/-! ## TIDSET, TIDINV -/

/-- A thread's store to the table, performed as a store of its warp; every cached copy of the entry goes (R292). State b is that
before the word. -/
def storeEntry (b u : State) (e : Env) (l tid off : Nat) (data : List Byte) : Except LaneFault State := do
  let va := entryVa b e.gr.ctx tid
  let lf ← memLeaf b e va 64 1 2
  let (t, _) ← storeThrough b u e (va + BitVec.ofNat 64 off) { lf with addr := lf.addr + off } data (fun u1 => plainTag u1 e lf l) false
  pure (dropEntries (modCtx t e.gr.ctx fun c => { c with tidCount := sput c.tidCount tid (setCount t e.gr.ctx tid + 1) }) e.gr.ctx tid)

/-- The image of a TIDSET (R292). -/
def imageOf (s : State) (e : Env) (p : Place) (l : Nat) : Except LaneFault (List Byte) :=
  match p with
  | .spm v =>
    let o := (e.v s v l).toNat
    if o + 64 > e.gr.spmSize then bad .prot (BitVec.ofNat 64 o) 0
    else if o % 64 ≠ 0 then bad .align (BitVec.ofNat 64 o) 0
    else match spmError e.gr o 64 with
      | some x => bad .eccu (BitVec.ofNat 64 x) 0
      | none => .ok (spmBytes s e.gr o 64)
  | .mem d => do
    let lf ← memLeaf s e (e.d s d l) 64 0 1
    readMem s e lf 64 false l

/-- TIDSET in one lane (R276, R292): the identifier it names in state b. -/
def tidsetLane (e : Env) (b : State) (p : Place) (r : Reg) (u : State) (l : Nat) : Except LaneFault (State × Unit) := do
  let tid := (e.v b r l).toNat % 256
  let img ← imageOf b e p l
  if Tensor.malformed (tensorOf img) then bad .tidbad (BitVec.ofNat 64 tid) 0
  else pure (← storeEntry b u e l tid 0 img, ())

/-- TIDSET (R292). -/
def execTidset (h : Hdr) (p : Place) (b : Reg) (s : State) : Host.Outcome State Fault Refusal :=
  runWord (.tidset h p b) s fun e t => lanesThen e t (tidsetLane e t p b) fun u _ => .done u

/-- Clears V of one entry (R292). -/
def clearEntry (b u : State) (e : Env) (l tid : Nat) : Except LaneFault State := do
  let lf ← memLeaf b e (entryVa b e.gr.ctx tid) 64 1 2
  let x ← readMem b e lf 64 false l
  storeEntry b u e l tid 10 (leBytes 1 (field x 10 1 % 128))

/-- TIDINV in one lane (R292): its entry, or in the leader all 256. -/
def tidinvLane (e : Env) (s : State) (b : Option Reg) (u : State) (l : Nat) : Except LaneFault (State × Unit) :=
  match b with
  | some r => do pure (← clearEntry s u e l ((e.v s r l).toNat % 256), ())
  | none => if leader e.live == some l then do pure (← (List.range 256).foldlM (fun x k => clearEntry s x e l k) u, ()) else .ok (u, ())

/-- TIDINV (R292): the entry of each live lane, or all 256 once. -/
def execTidinv (h : Hdr) (b : Option Reg) (s : State) : Host.Outcome State Fault Refusal :=
  runWord (.tidinv h b) s fun e t => lanesThen e t (tidinvLane e t b) fun u _ => .done u

/-! ## MBLOAD -/

/-- MBLOAD in one lane (R285, R293, R294). -/
def acceptLoad (e : Env) (p : Place) (u : State) (l : Nat) : Except LaneFault (State × Option Hold) := do
  let (va, b) ← blockOf u e p l
  let m := field b 1 1
  guardE (decide (m > 7) || decide (field b 2 1 > 1) || field b 3 1 != 0 || field b 4 4 % 32 != 0 || !((b.drop 24).all (· == 0))) (some (.mshape, va, 0))
  let bar ← checkBarrier e va b 20
  let tid := field b 0 1
  let t ← tensorEntry u e tid 4
  guardE ((decide (t.dims < 3) && field b 12 4 != 0) || (decide (t.dims < 4) && field b 16 4 != 0)) (some (.mshape, va, 0))
  guardE (t.format == 0) (some (.mfmt, BitVec.ofNat 64 tid, 0))
  let tag0 : Tag := { ctx := e.gr.ctx, tid := tid, count := setCount u e.gr.ctx tid, k0 := field b 4 4, n0 := field b 8 4, i2 := field b 12 4, i3 := field b 16 4, gen := none }
  let ps ← accRanges u e (some (tid, Tensor.versioned t)) 1 ([], []) (tileRanges t tag0)
  (List.range 64).forM fun c => checkRun u e ps tid t tag0.k0 (tileK t) (tag0.n0 + c) tag0.i2 tag0.i3
  let tag := { tag0 with gen := ((tileRanges t tag0).head?).bind fun r => tileGen u e t r.1 }
  let u1 := modGroup u e.g fun x => { x with tagRecs := sput x.tagRecs m { tag := tag, entry := t } }
  pure ((addMat u1 e (.load m (field b 2 1 == 1) tag t) b bar [] ps).1, none)

def execMbload (h : Hdr) (p : Place) (s : State) : Host.Outcome State Fault Refusal :=
  matWord (.mbload h p) s fun e u l => acceptLoad e p u l

/-! ## MMUL -/

/-- The record of a macro number, with the version check of R284. -/
def recordedTag (u : State) (e : Env) (va : DWord) (m : Nat) : Except LaneFault TagRec :=
  match sget? (e.now u).tagRecs m with
  | none => shape va
  | some t => match t.tag.gen with
    | some (r, g) => if gens u e.gr r = some g then .ok t else bad .staleb (BitVec.ofNat 64 m) (BitVec.ofNat 64 g)
    | none => .ok t

/-- Planes of an A operand (R275, R283). -/
def planesOf (u : State) (e : Env) (fmt : Nat) : Nat :=
  if fmt = 3 && !e.fixed && (fn u (fnOfCtx u e.gr.ctx)).reduced then 8 else fmtPlanes fmt

/-- Formats that may be multiplied (R275). -/
def mayMultiply (a b : Nat) : Bool := a == b || (decide (1 ≤ a) && decide (a ≤ 2) && decide (1 ≤ b) && decide (b ≤ 2))

/-- The tag a macro number has among an operation's tags. -/
def tagIn (tags : List (Nat × TagRec)) (m : Nat) : Option TagRec := sget? tags m

/-- MMUL in one lane (R285, R295, R296). -/
def acceptMul (e : Env) (d : Reg) (p : Place) (u : State) (l : Nat) : Except LaneFault (State × Option Hold) := do
  let (va, b) ← blockOf u e p l
  let n := field b 1 1
  let rows := field b 2 1
  let es := (List.range n).map fun i => field b (16 + i) 1
  guardE (n == 0 || decide (n > 8) || rows == 0 || decide (rows > 32) || field b 3 1 != 0 || es.any (fun x => decide (x ≥ 64)) ||
    !(((b.drop (16 + n)).take (8 - n)).all (· == 0)) || !((b.drop 28).all (· == 0))) (some (.mshape, va, 0))
  let tid := field b 0 1
  let a ← tensorEntry u e tid 4
  guardE (a.format == 0 || Tensor.sparse a != 0) (some (.mfmt, BitVec.ofNat 64 tid, 0))
  let tags ← es.foldlM (fun (m : List (Nat × TagRec)) x => do pure (sput m (x % 8) (← recordedTag u e va (x % 8)))) []
  let kd := (BitVec.ofNat 32 (field b 24 4)).toInt
  let k0 (x : Nat) : Nat := ((tagIn tags (x % 8)).map fun t => t.tag.k0).getD 0
  guardE (es.any fun x => match tagIn tags (x % 8) with | some t => !mayMultiply a.format t.entry.format | none => false) (some (.mfmt, BitVec.ofNat 64 tid, 0))
  guardE ((List.range n).any fun i => (List.range i).any fun j => es[i]?.getD 0 / 8 == es[j]?.getD 0 / 8 && k0 (es[i]?.getD 0) == k0 (es[j]?.getD 0)) (some (.mshape, va, 0))
  guardE (es.any fun x => decide ((k0 x : Int) + kd < 0) || decide (((k0 x : Int) + kd) % 32 ≠ 0)) (some (.mshape, va, 0))
  let kt (x : Nat) : Nat := ((tagIn tags (x % 8)).map fun t => tileK t.entry).getD 0
  let rowsIn := List.range rows |>.map (field b 4 4 + ·)
  let ps ← accRanges u e (some (tid, Tensor.versioned a)) 1 ([], []) (es.flatMap fun x => rowsIn.flatMap fun r => runRanges a ((k0 x : Int) + kd).toNat (kt x) r (field b 8 4) (field b 12 4))
  let ps ← tags.foldlM (fun q t => accRanges u e (some (t.2.tag.tid, Tensor.versioned t.2.entry)) 1 q (tileRanges t.2.entry t.2.tag)) ps
  es.forM fun x => rowsIn.forM fun r => checkRun u e ps tid a ((k0 x : Int) + kd).toNat (kt x) r (field b 8 4) (field b 12 4)
  match (freeFutures (e.now u)).head?, claimSlots u e (es.map (· / 8)) with
  | none, _ => pure (u, some .accept)
  | _, none => pure (u, some .slotWait)
  | some idx, some u1 =>
    let f := allocFuture u1 e.g idx 4 u1.seqs
    let pairs := es.map fun x => (x % 8, physSlot u1 e (x / 8), ((k0 x : Int) + kd).toNat)
    let u2 := (addMat f.1 e (.mul a rows (field b 4 4) (field b 8 4) (field b 12 4) pairs f.2 (planesOf u e a.format)) b none tags ps).1
    let u3 := writeReg u2 e.g e.w d.toNat l f.2
    pure (modWarp u3 e.g e.w fun x => { x with tags := sins x.tags (32 * d.toNat + l) }, none)

def execMmul (h : Hdr) (d : Reg) (p : Place) (s : State) : Host.Outcome State Fault Refusal :=
  matWord (.mmul h d p) s fun e u l => acceptMul e d p u l

/-! ## MTRANS, MPERM, MRSUM -/

/-- The three constant streams in one lane (R297): 0 MTRANS, 1 MPERM, 2 MRSUM. -/
def acceptStream (e : Env) (op : Nat) (p : Place) (u : State) (l : Nat) : Except LaneFault (State × Option Hold) := do
  let (va, b) ← blockOf u e p l
  let rows := field b 2 1
  let sel := field b 8 8
  guardE (decide (field b 0 1 > 7) || decide (field b 1 1 > 7) || rows == 0 || decide (rows > 32) || (op == 2 && rows != 1) ||
    decide (field b 3 1 + rows > 32) || (op != 0 && field b 4 4 != 0) || (op != 1 && sel != 0) || (op == 1 && sel % 2 != 0) ||
    !((b.drop 16).all (· == 0))) (some (.mshape, va, 0))
  let t ← recordedTag u e va (field b 0 1)
  let kt := tileK t.entry
  guardE (op == 0 && decide (field b 4 4 + rows > kt)) (some (.mshape, va, 0))
  let ps ← accRanges u e (some (t.tag.tid, Tensor.versioned t.entry)) 1 ([], []) (tileRanges t.entry t.tag)
  let sps ← if op = 1 then accRange u e none 1 ([], []) sel (2 * rows) else (pure ([], []) : Except LaneFault Pages)
  let ks ← (List.range (if op ≠ 1 then 0 else rows)).mapM fun i =>
    match pinnedRead u (e.now u) sps.1 (sel + 2 * i) 2 with | .ok x => .ok (leNat x) | .error a => bad .eccu a 0
  guardE (ks.any fun k => decide (k ≥ kt)) (some (.mshape, va, 0))
  match claimSlots u e [field b 1 1] with
  | none => pure (u, some .slotWait)
  | some u1 => pure ((addMat u1 e (.stream op (field b 0 1) (physSlot u1 e (field b 1 1)) rows (field b 3 1) (field b 4 4) ks) b none [(field b 0 1, t)] ps).1, none)

def execMtrans (h : Hdr) (p : Place) (s : State) : Host.Outcome State Fault Refusal :=
  matWord (.mtrans h p) s fun e u l => acceptStream e 0 p u l

def execMperm (h : Hdr) (p : Place) (s : State) : Host.Outcome State Fault Refusal :=
  matWord (.mperm h p) s fun e u l => acceptStream e 1 p u l

def execMrsum (h : Hdr) (p : Place) (s : State) : Host.Outcome State Fault Refusal :=
  matWord (.mrsum h p) s fun e u l => acceptStream e 2 p u l

/-! ## MACCRD, MACCWR, MACCZ -/

/-- A word that joins the queue as one operation on one slot (R273, R298). -/
def slotWord (i : Instr) (s : State) (slot : BitVec 3) (f : Env → State → Nat → State) : Host.Outcome State Fault Refusal :=
  runWord i s fun e t =>
    if e.live = 0 then .done t
    else if queueUsed t e.gr.core + 1 > 16 then .hold t .accept e.live
    else match claimSlots t e [slot.toNat] with
      | none => .hold t .slotWait e.live
      | some u => .done (f e u (physSlot u e slot.toNat))

/-- MACCRD (R298): the registers are pending until the read has its turn. -/
def execMaccrd (h : Hdr) (w8 pair : Bool) (d : Reg) (slot : BitVec 3) (col : BitVec 6) (s : State) : Host.Outcome State Fault Refusal :=
  slotWord (.maccrd h w8 pair d slot col) s slot fun e u p =>
    let x := addMat u e (.read p d.toNat col.toNat (if w8 then 8 else 4) pair e.live) [] none [] ([], [])
    modWarp (laterLanes e x.1 d.toNat (fragRegs w8 pair) fun _ => []) e.g e.w fun y => { y with outs := y.outs ++ [.matrix x.2] }

/-- MACCWR (R298): the registers are read at issue. -/
def execMaccwr (h : Hdr) (w8 pair : Bool) (a : Reg) (slot : BitVec 3) (col : BitVec 6) (s : State) : Host.Outcome State Fault Refusal :=
  slotWord (.maccwr h w8 pair a slot col) s slot fun e u p =>
    let w := if w8 then 8 else 4
    let vals := (lanesOf e.live).map fun l => (l, (List.range w).map fun i =>
      (regRead s e.gr e.wp (a.toNat + i) l, if pair then regRead s e.gr e.wp (a.toNat + w + i) l else (0 : Word)))
    (addMat u e (.write p col.toNat vals) [] none [] ([], [])).1

/-- The numbers under which a group keeps slots that it has freed and whose MACCZ has not had its turn: 8 and up (R272, R289). -/
def freedKeys (slots : List (Nat × Nat)) (mask : BitVec 8) : List (Nat × Nat) :=
  let keep := slots.filter fun p => !mask.getLsbD p.1
  ((slots.filter fun p => mask.getLsbD p.1).zip ((List.range 8).map (8 + ·) |>.filter fun k => (sget? slots k).isNone)).foldl
    (fun l x => sput l x.2 x.1.2) keep

/-- MACCZ (R299): the named slots the group holds are cleared in turn; FREE ends their claims now (R272). -/
def execMaccz (h : Hdr) (free : Bool) (slots : BitVec 8) (s : State) : Host.Outcome State Fault Refusal :=
  runWord (.maccz h free slots) s fun e t =>
    if e.live = 0 then .done t
    else if queueUsed t e.gr.core + 1 > 16 then .hold t .accept e.live
    else
      let held := e.gr.slots.filter fun p => slots.getLsbD p.1
      let u := (addMat t e (.clear (held.map (·.2)) (if free then held.map (·.2) else [])) [] none [] ([], [])).1
      .done (if free then modGroup u e.g fun x => { x with slots := freedKeys x.slots slots } else u)

/-! ## MEPI -/

/-- Checks the lines of a range that an operation will write, and makes an instance's private copies (R132, R136, R250). -/
def accWrites (e : Env) (ps : Pages) (u : State) (va len : Nat) : Except LaneFault State :=
  if len = 0 then .ok u else
  ((List.range ((va + len - 1) / 256 + 1 - va / 256)).map fun i => max va (256 * (va / 256 + i))).foldlM (fun t a =>
    let at_ := pinnedAt ps.1 a
    let n := min (va + len) (256 * (a / 256 + 1)) - a
    if at_.1 ≠ 0 ∧ at_.1 ≠ 11 then .ok t
    else if areaHit t at_.2 n then bad .template (BitVec.ofNat 64 a) 0
    else match heapHit t at_.2 n with
      | some x => if ownHeap t (e.now t) x then (privateLine t e (BitVec.ofNat 64 a) at_.1 at_.2 4).map (·.1) else bad .template (BitVec.ofNat 64 a) 0
      | none => match backingOf t at_.2 n with
        | some r => bad .orreg (regionDetail e r) 0
        | none => .ok t) u

/-- The destination ranges of an epilogue: per row its in-bounds columns and their scales (R301). -/
def epiRanges (t : Tensor) (rows cols row0 col0 i2 i3 : Nat) : List (Nat × Nat) × List (Nat × Nat) :=
  let rs := (List.range rows).map fun r => runRanges t col0 cols (row0 + r) i2 i3
  (rs.filterMap (·.head?), rs.flatMap fun x => x.drop 1)

/-- MEPI in one lane (R285, R300). -/
def acceptEpi (e : Env) (p : Place) (u : State) (l : Nat) : Except LaneFault (State × Option Hold) := do
  let (va, b) ← blockOf u e p l
  let rows := field b 2 1
  let cols := field b 3 1
  let flags := field b 49 1
  let rs := field b 16 8
  let cs := field b 24 8
  let bias := field b 32 8
  let stats := field b 40 8
  guardE (decide (field b 1 1 > 7) || rows == 0 || decide (rows > 32) || cols == 0 || decide (cols > 64) || decide (field b 48 1 > 2) ||
    decide (flags > 7) || field b 50 2 != 0 || !((b.drop 56).all (· == 0))) (some (.mshape, va, 0))
  let bar ← checkBarrier e va b 52
  guardE (rs % 4 != 0) (some (.align, BitVec.ofNat 64 rs, 0))
  guardE (cs % 4 != 0) (some (.align, BitVec.ofNat 64 cs, 0))
  guardE (bias % 4 != 0) (some (.align, BitVec.ofNat 64 bias, 0))
  guardE (stats % 8 != 0) (some (.align, BitVec.ofNat 64 stats, 0))
  let tid := field b 0 1
  let t ← tensorEntry u e tid 4
  guardE (Tensor.sparse t != 0) (some (.mfmt, BitVec.ofNat 64 tid, 0))
  guardE (t.format == 6 && (field b 8 4 % 2 != 0 || cols % 2 != 0)) (some (.mshape, va, 0))
  guardE (e.fixed && flags % 2 == 1) (some (.ndet, 0, 0))
  let row0 := field b 4 4
  let col0 := field b 8 4
  let i2 := field b 12 2
  let i3 := field b 14 2
  let nostore := flags / 4 == 1
  let rg := if nostore then ([], []) else epiRanges t rows cols row0 col0 i2 i3
  let ps ← accRanges u e (some (tid, Tensor.versioned t)) 2 ([], []) rg.1
  let ps ← accRanges u e (some (tid, Tensor.versioned t)) 1 ps rg.2
  let ps ← accRange u e none 1 ps rs (if rs = 0 then 0 else 4 * rows)
  let ps ← accRange u e none 1 ps cs (if cs = 0 then 0 else 4 * cols)
  let ps ← accRange u e none 1 ps bias (if bias = 0 then 0 else 4 * cols)
  let ps ← accRange u e none 2 ps stats (if stats = 0 then 0 else 8 * rows)
  if nostore then pure () else (List.range rows).forM fun r => checkRun u e ps tid t col0 cols (row0 + r) i2 i3
  let u1 ← rg.1.foldlM (fun x r => accWrites e ps x r.1 r.2) u
  let u2 ← accWrites e ps u1 stats (if stats = 0 then 0 else 8 * rows)
  match claimSlots u2 e [field b 1 1] with
  | none => pure (u, some .slotWait)
  | some u3 => pure ((addMat u3 e (.epi t (physSlot u3 e (field b 1 1)) rows cols row0 col0 i2 i3 rs cs bias stats (field b 48 1)
      (flags % 2 == 1) (flags / 2 % 2 == 1) nostore) b bar [] ps).1, none)

def execMepi (h : Hdr) (p : Place) (s : State) : Host.Outcome State Fault Refusal :=
  matWord (.mepi h p) s fun e u l => acceptEpi e p u l

/-! ## Turns -/

/-- The tile of a macro number as an operation sees it, reloaded where the core's tag is another (R284). -/
def ensureTile (s : State) (gr : Group) (m : MatOp) (no : Nat) : Except DWord (State × Tile) :=
  match tagIn m.tags no with
  | none => .ok (s, { fmt := 0, kt := 0, cols := [], exps := [] })
  | some t =>
    let x := macroAt s m.core no
    match (if x.tag = some t.tag then x.tile else none) with
    | some tile => .ok (s, tile)
    | none => do
      let tile ← readTile s gr m.pages t.tag t.entry
      pure (setMacro s m.core no { tag := some t.tag, tile := some tile }, tile)

/-- Column c of a tile as blocks. -/
def tileCol (t : Tile) (c : Nat) : List (List (Option Int) × Option (Int × Int)) :=
  ((t.exps[c]?).getD []).mapIdx fun j x => ((((t.cols[c]?).getD []).drop (32 * j)).take 32, x)

/-- Row r of an MMUL lies outside its A operand (R296): it does nothing. -/
def rowOutside (a : Tensor) (r : Nat) : Bool := !Tensor.inside a [0, r, 0, 0] && (decide (a.dims < 2) || decide (r ≥ Tensor.size a 1))

/-- One row of an MMUL (R296): every entry in increasing k0, every column. -/
def mulRow (s : State) (gr : Group) (m : MatOp) (a : Tensor) (planes r m0 i2 i3 : Nat) (pairs : List (Nat × Nat × Nat)) : Except DWord State :=
  if rowOutside a (m0 + r) then .ok s else
  pairs.foldlM (fun t p => do
    let (t1, tile) ← ensureTile t gr m p.1
    let row ← (List.range (tile.kt / 32)).mapM fun j => readBlock t1 gr m.pages a planes (p.2.2 + 32 * j) (m0 + r) i2 i3
    pure (modSlot t1 m.core p.2.1 fun sl => (List.range 64).foldl (fun x c =>
      putPair x r c (foldPair (pairAt x r c) (rowProduct row (tileCol tile c)))) sl)) s

/-- The tile's value at a position: exact, +0 where sparse B keeps nothing, the canonical NaN in an invalid block (R297). -/
def tileValue (t : Tile) (k c : Nat) : Nat :=
  match (((t.exps[c]?).getD [])[k / 32]?).getD none with
  | none => Fmt.nan .f32
  | some (m, e) => match (((t.cols[c]?).getD [])[k]?).getD none with
    | some v => froundDy .f32 .rn (v * m) e false
    | none => 0

/-- The sum of a block of a column (R297). -/
def blockSum (t : Tile) (j c : Nat) : Nat :=
  match (((t.exps[c]?).getD [])[j]?).getD none with
  | none => Fmt.nan .f32
  | some (m, e) => froundDy .f32 .rn ((((((t.cols[c]?).getD []).drop (32 * j)).take 32).map fun v => v.getD 0).sum * m) e false

/-- One row of a constant stream (R297). -/
def streamRow (s : State) (gr : Group) (m : MatOp) (op no slot first kstart : Nat) (sel : List Nat) (i : Nat) : Except DWord State := do
  let (t, tile) ← ensureTile s gr m no
  pure (modSlot t m.core slot fun sl => (List.range 64).foldl (fun x c =>
    let ps := if op = 2 then (List.range (tile.kt / 32)).map fun j => blockSum tile j c
      else [tileValue tile (if op = 0 then kstart + i else sel[i]?.getD 0) c]
    putPair x (first + i) c (ps.foldl foldPair (pairAt x (first + i) c))) sl)

/-- Activations (R302). -/
def activate (act x : Nat) : Nat := if act = 1 then siluVal (fdecode .f32 x) else if act = 2 then geluVal (fdecode .f32 x) else x

/-- The stored code of a value (R301). -/
def epiCode (fmt x : Nat) (sc : Int × Int) : Nat :=
  if fmt = 0 then x
  else if fmt ≤ 2 then froundVal (if fmt = 1 then .f16 else .bf16) .rn (fdecode .f32 x)
  else quantCode (if fmt = 3 then .st8 else if fmt = 4 then .st6 else if fmt = 5 then .hs8 else .hs4) (fdecode .f32 x) sc.1.toNat sc.2

/-- A number at an optional array, or a default. -/
def arrayAt (s : State) (gr : Group) (m : MatOp) (base i dflt : Nat) : Except DWord Nat :=
  if base = 0 then .ok dflt else do pure (leNat (← pinnedRead s gr m.pages (base + 4 * i) 4))

/-- The x values of one epilogue row (R301). -/
def epiRow (s : State) (gr : Group) (m : MatOp) (slot r cols rs cs bias act : Nat) : Except DWord (List Nat) := do
  let rsv ← arrayAt s gr m rs r 0x3F800000
  (List.range cols).mapM fun c => do
    let csv ← arrayAt s gr m cs c 0x3F800000
    let bv ← arrayAt s gr m bias c 0
    let x := (readOut (pairAt (slotAt s m.core slot) r c)).toNat
    let y := fmul .f32 .rn false (fmul .f32 .rn false x rsv) csv
    pure (activate act (fadd .f32 .rn false y bv))

/-- A write of an operation to a pinned address, in an instance's view. -/
def opWrite (s : State) (gr : Group) (m : MatOp) (va : Nat) (data : List Byte) : State :=
  let at_ := pinnedAt m.pages va
  (engineWrite s m.id (dieOf gr.core) at_.1 (viewAddr s gr at_.2) data).1

/-- The stores of one epilogue row and their bytes (R301). -/
def epiStores (s : State) (gr : Group) (m : MatOp) (t : Tensor) (xs : List Nat) (row col0 i2 i3 : Nat) : Except DWord (State × Nat) := do
  let code (u : State) (c : Nat) : Except DWord Nat := do
    let sc ← if Tensor.scaleFmt t = 0 then (pure (1, 0) : Except DWord (Int × Int)) else do
      pure ((blockScale (Tensor.scaleFmt t) (leNat (← pinnedRead u gr m.pages (scaleVa t ((col0 + c) / 32) row i2 i3) (scaleBytes t)))).getD (1, 0))
    pure (epiCode t.format (xs[c]?.getD 0) sc)
  (List.range xs.length).foldlM (fun (a : State × Nat) c =>
    if !Tensor.inside t [col0 + c, row, i2, i3] || (t.format == 6 && c % 2 == 1) then pure a
    else do
      let x ← code a.1 c
      let y ← if t.format = 6 then code a.1 (c + 1) else pure 0
      let n := (fmtBits t.format + 7) / 8
      pure (opWrite a.1 gr m (Tensor.va t [col0 + c, row, i2, i3]).toNat (leBytes n (if t.format = 6 then x + 16 * y else x)), a.2 + n)) (s, 0)

/-- The statistics pair of a row (R302). -/
def epiStats (t : Tensor) (xs : List Nat) (row col0 i2 i3 : Nat) : Nat × Nat :=
  let ins := ((List.range xs.length).filter fun c => Tensor.inside t [col0 + c, row, i2, i3]).map fun c => xs[c]?.getD 0
  match ins with
  | [] => (0xFF800000, 0)
  | x :: r =>
    let mx := r.foldl (fun a b => fmnx .f32 true a b) x
    (mx, ins.foldl (fun z v => fadd .f32 .rn false z (ex2 (fsub .f32 .rn false v mx))) 0)

/-- One row of an epilogue (R301, R302): its state and the bytes written. -/
def epiTurn (s : State) (gr : Group) (m : MatOp) (t : Tensor) (slot r cols row0 col0 i2 i3 rs cs bias stats act : Nat) (smerge clear nostore : Bool) :
    Except DWord (State × Nat) := do
  let xs ← epiRow s gr m slot r cols rs cs bias act
  let (s1, n) ← if nostore then pure (s, 0) else epiStores s gr m t xs (row0 + r) col0 i2 i3
  let rowIn := if t.dims < 2 then row0 + r == 0 else decide (row0 + r < Tensor.size t 1)
  let (s2, k) ← if stats = 0 ∨ rowIn = false then (pure (s1, 0) : Except DWord (State × Nat)) else do
    let z := epiStats t xs (row0 + r) col0 i2 i3
    let z ← if smerge then do
        let old ← pinnedRead s1 gr m.pages (stats + 8 * r) 8
        pure (flse (field old 0 4) (field old 4 4) z.1 z.2)
      else pure z
    pure (opWrite s1 gr m (stats + 8 * r) (leBytes 4 z.1 ++ leBytes 4 z.2), 8)
  let s3 := if clear then modSlot s2 m.core slot fun sl => (List.range cols).foldl (fun x c => putPair x r c (0, 0)) sl else s2
  pure (s3, n + k)

/-- The values a MACCRD returns (R298). -/
def readValues (sl : AccSlot) (d col w : Nat) (pair : Bool) (lanes : Mask) : List Outst :=
  (lanesOf lanes).flatMap fun l => (List.range w).flatMap fun i =>
    let x := pairAt sl l (col + i)
    if pair then [.value l (d + i) x.1, .value l (d + w + i) x.2] else [.value l (d + i) (readOut x)]

/-- An operation's turn: what it does, or the physical address of an uncorrectable error (R286). -/
def turnOf (s : State) (gr : Group) (m : MatOp) : Except DWord (State × Nat) :=
  match m.kind with
  | .load no skip tag t =>
    if skip && (macroAt s m.core no).tag == some tag then .ok (s, 0)
    else match readTile s gr m.pages tag t with
      | .ok tile => .ok (setMacro s m.core no { tag := some tag, tile := some tile }, tileBytes t tag)
      | .error a => .error a
  | .mul a _ m0 i2 i3 pairs _ planes =>
    let k0 (p : Nat × Nat × Nat) : Nat := p.2.2
    let sorted := pairs.foldl (fun (l : List (Nat × Nat × Nat)) p => l.takeWhile (fun q => k0 q ≤ k0 p) ++ [p] ++ l.dropWhile (fun q => k0 q ≤ k0 p)) []
    (mulRow s gr m a planes m.done m0 i2 i3 sorted).map fun t => (t, 0)
  | .stream op no slot _ first kstart sel => (streamRow s gr m op no slot first kstart sel m.done).map fun t => (t, 0)
  | .read slot d col w pair lanes =>
    let vals := readValues (slotAt s m.core slot) d col w pair lanes
    .ok (modWarp s m.group m.warp fun x => { x with outs := x.outs.flatMap fun o => if o = .matrix m.id then vals else [o] }, 0)
  | .write slot col vals =>
    .ok (modSlot s m.core slot fun sl => vals.foldl (fun x v => (v.2.mapIdx fun i y => (i, y)).foldl (fun z q => putPair z v.1 (col + q.1) q.2) x) sl, 0)
  | .clear slots free =>
    .ok (modGroup (slots.foldl (fun t p => modSlot t m.core p fun sl => { sl with pairs := [], used := sl.used && !free.contains p }) s) m.group
      fun x => { x with slots := x.slots.filter fun p => !(decide (8 ≤ p.1) && free.contains p.2) }, 0)
  | .epi t slot _ cols row0 col0 i2 i3 rs cs bias stats act smerge clear nostore =>
    epiTurn s gr m t slot m.done cols row0 col0 i2 i3 rs cs bias stats act smerge clear nostore

/-! ### Errors in the accumulator store and in macros -/

/-- The pairs that an operation's next turn reads (R282, R297, R298, R301): slot, row, first column, columns. -/
def pairsRead (m : MatOp) : List (Nat × Nat × Nat × Nat) :=
  match m.kind with
  | .mul a _ m0 _ _ ps _ _ => if rowOutside a (m0 + m.done) then [] else ps.map fun p => (p.2.1, m.done, 0, 64)
  | .stream _ _ slot _ first _ _ => [(slot, first + m.done, 0, 64)]
  | .read slot _ col w _ lanes => (lanesOf lanes).map fun l => (slot, l, col, w)
  | .epi _ slot _ cols _ _ _ _ _ _ _ _ _ _ _ _ => [(slot, m.done, 0, cols)]
  | _ => []

/-- The pairs that it writes without reading them (R298, R299). -/
def pairsWritten (m : MatOp) : List (Nat × Nat × Nat × Nat) :=
  match m.kind with
  | .write slot col vals => vals.map fun v => (slot, v.1, col, v.2.length)
  | .clear slots _ => slots.flatMap fun p => (List.range 32).map fun r => (p, r, 0, 64)
  | _ => []

/-- Half h of slot p lies in a run of pairs. -/
def inPairs (x : Nat × Nat × Nat × Nat) (p h : Nat) : Bool :=
  p == x.1 && decide (128 * x.2.1 + 2 * x.2.2.1 ≤ h) && decide (h < 128 * x.2.1 + 2 * (x.2.2.1 + x.2.2.2))

/-- An error in a pair that the next turn reads (R286, R414), as its byte in the core's accumulator store. -/
def pairError (s : State) (m : MatOp) : Option DWord :=
  s.errs.findSome? fun y => match y with
    | .pair c p h => if c == m.core && (pairsRead m).any fun x => inPairs x p h then some (BitVec.ofNat 64 (16384 * p + 4 * h)) else none
    | _ => none

/-- A macro that fails its column parity as the next turn streams against its tile (R415). -/
def parityAt (s : State) (m : MatOp) : Option Nat :=
  match m.kind with
  | .load .. => none
  | k => (MatKind.macros k).findSome? fun no =>
    let u := unitOf (core s m.core) no
    if s.errs.contains (.column m.core u) && (macroAt s m.core no).tag == (tagIn m.tags no).map (·.tag) then some u else none

/-- The errors of pairs that an operation has written whole are gone (R430). -/
def mendPairs (s : State) (m : MatOp) : State := mend s fun y => match y with
  | .pair c p h => c == m.core && (pairsWritten m).any fun x => inPairs x p h
  | _ => false

/-- A turn that has no effect but the error it raises (R286). -/
def failTurn (s : State) (op stat : Nat) (c : Code) (a : DWord) : State :=
  modMat s op fun x => { x with started := true, done := x.done + 1, stat := max x.stat stat, err := some (c, a) }

/-- MATRIX_OP_TURN (R273, R284, R286): an operation whose turn it is does one row, or all it has; a row that meets an
error, or a translation refused after a save, has no effect; a macro that fails its parity is retired (R415). -/
def execMatrixOpTurn (op : Nat) (s : State) : Host.Outcome State Fault Refusal :=
  .next (match s.matops.find? (·.id == op) with
    | none => s
    | some m => if !matReady s m then s else
      match group? s m.group with
      | none => s
      | some gr => match m.refused with
        | some (c, a) => failTurn s op 6 c a
        | none => match pairError s m, parityAt s m with
          | some a, _ => failTurn s op 3 .eccu a
          | none, some u => failTurn (retireMacro s m.core u) op 3 .eccu 0
          | none, none => match turnOf s gr m with
            | .ok (t, n) => retryAccept (modMat (mendPairs t m) op fun x => { x with started := true, done := x.done + 1, bytes := x.bytes + n })
            | .error a => failTurn s op 3 .eccu a)

/-- The bytes that the next credit of an operation takes off its barrier: those of an MBLOAD follow its reads by chunks of 256
bytes, as many as the step's free number says (R294, R224). -/
def nextCredit (s : State) (m : MatOp) : Nat :=
  match m.kind with
  | .load .. => if s.draw = 0 then m.bytes else min m.bytes (256 * (1 + Config.choose s.draw 9000 % 4096))
  | _ => m.bytes

/-- MATRIX_OP_COMPLETE (R286, R288, R307): the operation credits its barrier, leaves the queue and resolves its future;
an error is raised in the issuing warp. -/
def execMatrixOpComplete (op : Nat) (s : State) : Host.Outcome State Fault Refusal :=
  .next (match s.matops.find? (·.id == op) with
    | none => s
    | some m => if m.parked || !matOver m then s
      else if m.barrier.isSome && decide (nextCredit s m < m.bytes) then
        modMat (creditBarrier s op m.group (m.barrier.getD 0) (nextCredit s m)) op fun x => { x with bytes := x.bytes - nextCredit s m }
      else
      let s1 := retryAccept { s with matops := s.matops.filter (·.id != op) }
      let s2 := match m.barrier with | some b => creditBarrier s1 op m.group b m.bytes | none => s1
      match m.kind with
      | .mul _ _ _ _ _ _ handle _ =>
        let stat := max m.stat (if m.stop && decide (m.done < MatKind.turns m.kind) then 1 else 0)
        resolveFuture s2 m.group m.warp handle stat 2 (m.err.map fun x => (x.1, x.2, handle.setWidth 64))
      | _ => match m.err with
        | some x => deferTo s2 m.group m.warp 2 x.1 x.2 0
        | none => s2)

end Sys2Proof.Machine
end

