-- ==== Sys2Proof/Machine/Engines.lean ====
section
/-! DEFINITION. The engine class (R304 to R323): acceptance of a copy, its chunks, their landing and credit, and the words
that read, wait for and cancel a future. -/

namespace Sys2Proof.Machine

/-! ## The elements of an operation -/

/-- The side of a tensor (R312): whether element (c, r) is inside, and its address in bytes, or in nibbles for HS4. -/
def tensorSide (t : Tensor) (c0 i2 i3 : Nat) (row : Nat → Nat) (c r : Nat) : Bool × Nat :=
  let at_ := [c0 + c, row r, i2, i3]
  (Tensor.inside t at_, if fmtBits t.format = 4 then 2 * t.base + Tensor.bitOff t at_ / 4 else t.base + Tensor.bitOff t at_ / 8)

/-- A scratchpad or remote side (R309, R310, R312): always inside. -/
def linearSide (off pitch bits c r : Nat) : Bool × Nat :=
  (true, if bits = 4 then 2 * (off + r * pitch) + c else off + r * pitch + c * (bits / 8))

/-- Element bits of an operation (R309, R310). -/
def copyBits (src dst : Option Tensor) : Nat :=
  match src, dst with
  | some t, _ => fmtBits t.format
  | none, some t => fmtBits t.format
  | none, none => 8

/-- One side of an operation as its space (0 virtual addresses of the context, 2 scratchpad, 3 + p the peer at port p)
and the mapping of R312. `o` is where the block has the side's first coordinate. -/
def blockSide (b : List Byte) (o bits : Nat) (t : Option Tensor) (row : Nat → Nat) : Nat × (Nat → Nat → Bool × Nat) :=
  match t with
  | some x => (0, tensorSide x (field b o 4) (field b (o + 8) 2) (field b (o + 10) 2) row)
  | none => (2, linearSide (field b o 4) (field b (o + 4) 4) bits)

/-- The source and destination sides (R309, R310). -/
def copySides (kind : Nat) (b : List Byte) (src dst : Option Tensor) (idx : List Nat) :
    (Nat × (Nat → Nat → Bool × Nat)) × (Nat × (Nat → Nat → Bool × Nat)) :=
  let bits := copyBits src dst
  let listed (r : Nat) : Nat := idx[r]?.getD 0
  if kind = 3 then
    let get := field b 1 1 % 2 == 1
    let here := blockSide b 16 bits (if get then dst else src) (fun r => field b 20 4 + r)
    let there := (3 + field b 2 1, linearSide (field b 32 8) (field b 28 4) bits)
    if get then (there, here) else (here, there)
  else
    (blockSide b 16 bits src (if kind = 1 then listed else fun r => field b 20 4 + r),
     blockSide b 28 bits dst (if kind = 2 then listed else fun r => field b 32 4 + r))

/-- The elements in the order of R312: source and destination, each with its space, whether it is inside, and its address. -/
def copyElems (kind : Nat) (b : List Byte) (src dst : Option Tensor) (idx : List Nat) : List ((Nat × Bool × Nat) × (Nat × Bool × Nat)) :=
  let q := copySides kind b src dst idx
  (List.range (field b 8 4)).flatMap fun r => (List.range (field b 4 4)).map fun c =>
    ((q.1.1, q.1.2 c r), (q.2.1, q.2.2 c r))

/-- The chunks (R313): runs of consecutive elements whose computed destination addresses fall in one aligned 256-byte
block, each with its size in bytes. -/
def copyChunks (bits : Nat) (ds : List Nat) : List (List Nat × Nat) :=
  let block (a : Nat) : Nat := if bits = 4 then a / 512 else a / 256
  let runs := (ds.mapIdx fun i a => (i, block a)).foldl (fun (acc : List (Nat × List Nat)) (x : Nat × Nat) =>
    match acc with
    | (k, is) :: r => if k = x.2 then (k, is ++ [x.1]) :: r else (x.2, [x.1]) :: acc
    | [] => [(x.2, [x.1])]) []
  runs.reverse.map fun x => (x.2, x.2.length * bits / 8)

/-- The byte address of an element's address. -/
def elemByte (bits a : Nat) : Nat := if bits = 4 then a / 2 else a

/-- Bytes an element takes. -/
def elemLen (bits : Nat) : Nat := (bits + 7) / 8

/-- An inside element through the pinned translations. -/
def placeElem (pages : List (Nat × (Nat × Nat))) (bits : Nat) (x : Nat × Bool × Nat) : Option (Nat × Nat) :=
  if !x.2.1 then none
  else if x.1 ≠ 0 then some (x.1, x.2.2)
  else
    let p := pinnedAt pages (elemByte bits x.2.2)
    some (p.1, if bits = 4 then 2 * p.2 + x.2.2 % 2 else p.2)

/-! ## Acceptance -/

def copyBad {α : Type} (va : DWord) : Except LaneFault α := bad .copybad va 0

/-- Fields of a block (R309, R310, step 2 of R311), the pitches apart. -/
def copyFieldsOk (kind : Nat) (b : List Byte) : Bool :=
  let fl := field b (if kind = 3 then 1 else 2) 1
  let e0 := field b 4 4
  let e1 := field b 8 4
  let bar := field b 12 4
  decide (fl < 4) && field b 3 1 == 0 && decide (1 ≤ e0) && decide (e0 ≤ 2 ^ 24) && decide (1 ≤ e1) && decide (e1 ≤ 2 ^ 24) &&
  (bar == 0xFFFFFFFF || bar % 8 == 0) &&
  (if kind = 3 then decide (field b 2 1 < 8) && (b.drop 40).all (· == 0)
   else fl != 3 && (b.drop 44).all (· == 0) && field b 40 4 % 4 == 0 &&
     (kind != 0 || field b 40 4 == 0) && (kind != 1 || (fl % 2 == 0 && field b 20 4 == 0)) && (kind != 2 || (decide (fl < 2) && field b 32 4 == 0)))

/-- Whether the scratchpad pitch at an offset of the block, or the remote pitch, is at least the row bytes (R309, R310). -/
def pitchesOk (kind : Nat) (b : List Byte) (bits : Nat) : Bool :=
  let row := field b 4 4 * bits / 8
  let fl := field b (if kind = 3 then 1 else 2) 1
  if kind = 3 then (fl < 2 || decide (row ≤ field b 20 4)) && (field b 8 4 == 1 || decide (row ≤ field b 28 4))
  else (fl % 2 == 0 || decide (row ≤ field b 20 4)) && (fl < 2 || decide (row ≤ field b 32 4))

/-- The tensor of a side (steps 2 and 3 of R311): its pitch rule, then its entry. -/
def sideEntry (u : State) (e : Env) (kind : Nat) (va : DWord) (b : List Byte) (spm : Bool) (tid : Nat) : Except LaneFault (Option Tensor) :=
  if spm then pure none else do
    let t ← rawEntry u e tid 4
    guardE (!pitchesOk kind b (fmtBits t.format)) (some (.copybad, va, 0))
    if Tensor.malformed t then bad .tidbad (BitVec.ofNat 64 tid) 0 else pure (some t)

/-- Offsets, pitches and the remote address that are not multiples of the element size, and odd HS4 sides (step 6). -/
def copyAlign (kind : Nat) (b : List Byte) (src dst : Option Tensor) : Option Nat :=
  let bits := copyBits src dst
  let fl := field b (if kind = 3 then 1 else 2) 1
  let spmAt (on : Bool) (o : Nat) : List Nat := if on then [field b o 4, field b (o + 4) 4] else []
  let whole := if kind = 3 then spmAt (decide (2 ≤ fl)) 16 ++ [field b 32 8] ++ (if field b 8 4 = 1 then [] else [field b 28 4])
    else spmAt (fl % 2 == 1) 16 ++ spmAt (decide (2 ≤ fl)) 28
  let hs4 (o : Nat) (t : Option Tensor) : List Nat := match t with
    | some _ => [field b o 4, field b 4 4]
    | none => []
  if bits = 4 then
    ((if kind = 3 then hs4 16 src ++ hs4 16 dst else hs4 16 src ++ hs4 28 dst).find? fun x => x % 2 == 1)
  else whole.find? fun x => x % (bits / 8) != 0

/-- The scratchpad ranges an operation names (step 7): boxes, index list and barrier. -/
def copySpm (kind : Nat) (b : List Byte) (bits : Nat) : List (Nat × Nat) :=
  let fl := field b (if kind = 3 then 1 else 2) 1
  let box (on : Bool) (o : Nat) : List (Nat × Nat) :=
    if on then [(field b o 4, (field b 8 4 - 1) * field b (o + 4) 4 + field b 4 4 * bits / 8)] else []
  (if kind = 3 then box (decide (2 ≤ fl)) 16 else box (fl % 2 == 1) 16 ++ box (decide (2 ≤ fl)) 28) ++
  (if kind = 1 ∨ kind = 2 then [(field b 40 4, 4 * field b 8 4)] else []) ++
  (match barrierField b 12 with | some x => [(x, 8)] | none => [])

/-- A repeated index below the destination's size1 (R311). -/
def repeats (size : Nat) : List Nat → Bool
  | [] => false
  | x :: r => (decide (x < size) && r.contains x) || repeats size r

/-- One operation at acceptance (R311), all its checks in their order; the state changes only by the backing lines
reserved for private copies that an instance's destinations will need (R132, R135; log entry 19). Answers the operation, without handle. -/
def acceptPlan (e : Env) (kind : Nat) (p : Place) (u : State) (l : Nat) : Except LaneFault (State × Copy) := do
  let (va, b) ← blockOf u e p l
  guardE (!copyFieldsOk kind b) (some (.copybad, va, 0))
  let fl := field b (if kind = 3 then 1 else 2) 1
  let get := kind == 3 && fl % 2 == 1
  let first ← sideEntry u e kind va b (if kind = 3 then decide (2 ≤ fl) else fl % 2 == 1) (field b 0 1)
  let second ← if kind = 3 then (pure none : Except LaneFault (Option Tensor)) else sideEntry u e kind va b (decide (2 ≤ fl)) (field b 1 1)
  guardE (first.isNone && second.isNone && !pitchesOk kind b 8) (some (.copybad, va, 0))
  let src := if get then none else first
  let dst := if get then first else second
  guardE (match first, second with | some x, some y => fmtBits x.format != fmtBits y.format | _, _ => false) (some (.copybad, va, 0))
  guardE (kind == 3 && !((u.ports[field b 2 1]?.map (·.up)).getD false)) (some (.linklost, va, 0))
  match copyAlign kind b src dst with
  | some x => bad .align (BitVec.ofNat 64 x) 0
  | none => pure ()
  let bits := copyBits src dst
  match (copySpm kind b bits).find? fun r => decide (r.1 + r.2 > e.gr.spmSize) with
  | some r => bad .prot (BitVec.ofNat 64 r.1) 0
  | none => pure ()
  let idx := if kind = 1 ∨ kind = 2 then (List.range (field b 8 4)).map fun r => leNat (spmBytes u e.gr (field b 40 4 + 4 * r) 4) else []
  let els := copyElems kind b src dst idx
  let tidOf (t : Option Tensor) (n : Nat) : Option (Nat × Bool) := t.map fun x => (n, Tensor.versioned x)
  let stid := tidOf src (field b 0 1)
  let dtid := tidOf dst (field b (if kind = 3 then 0 else 1) 1)
  let page (tid : Option (Nat × Bool)) (need : Nat) (ps : Pages) (x : Nat × Bool × Nat) : Except LaneFault Pages :=
    if x.1 = 0 ∧ x.2.1 then accPage u e tid need ps (elemByte bits x.2.2) else .ok ps
  let ps ← els.foldlM (fun (ps : Pages) x => do page dtid 2 (← page stid 1 ps x.1) x.2) ([], [])
  let elems := els.map fun x => (placeElem ps.1 bits x.1, placeElem ps.1 bits x.2, bits)
  let dests := els.filterMap fun x => match placeElem ps.1 bits x.2 with
    | some (sp, a) => if sp = 0 ∨ sp = 11 then some (elemByte bits x.2.2.2, sp, elemByte bits a) else none
    | none => none
  match dests.find? fun d => areaHit u d.2.2 (elemLen bits) || (match heapHit u d.2.2 (elemLen bits) with | some t => !ownHeap u (e.now u) t | none => false) with
  | some d => bad .template (BitVec.ofNat 64 d.1) 0
  | none => pure ()
  match (dests.filter fun d => (backingOf u d.2.2 (elemLen bits)).isSome).foldl (fun (m : Option (Nat × Nat × Nat)) d => match m with
      | some x => if d.1 < x.1 then some d else m
      | none => some d) none |>.bind fun d => backingOf u d.2.2 (elemLen bits) with
  | some r => bad .orreg (regionDetail e r) 0
  | none => pure ()
  let entries := pinKeys u e (ps.1.map (·.1))
  guardE (decide (field b 4 4 * bits / 8 * field b 8 4 > 2 ^ 24) || decide (entries.length > 1024)) (some (.copybad, va, 0))
  guardE (e.fixed && kind == 2 && repeats ((dst.map fun t => if t.dims < 2 then 1 else Tensor.size t 1).getD 0) idx) (some (.ndet, 0, 0))
  let u1 ← dests.foldlM (fun (t : State × List (Nat × Nat)) d =>
    let line := d.2.2 / 256
    if (heapHit u d.2.2 (elemLen bits)).isSome && (sget? (e.now u).heap line).isNone && (sget? t.2 line).isNone then do
      let x ← backingLine t.1 (e.now t.1) (BitVec.ofNat 64 d.1) 4
      pure (x.1, sput t.2 line x.2)
    else pure t) (u, [])
  pure (u1.1, {
    id := 0, core := e.gr.core, group := e.g, warp := e.w, handle := 0, kind := kind, block := b, src := src, dst := dst
    idx := idx, elems := elems, chunks := copyChunks bits (els.map fun x => x.2.2.2), next := 0, flying := [], landing := []
    cancel := 0, lost := false, status := 0, err := none, barrier := barrierField b 12, part := [], skip := []
    entries := entries, pins := ps.2, reserve := u1.2, parked := false })

/-- Copies of a core in flight (R304). -/
def inFlight (s : State) (c : Nat) : Nat := (s.copies.filter fun x => x.core == c && !x.parked).length

/-- The lane's operation is accepted: the lowest free entry, the operation in flight, its handle tagged in v[D] (R307,
R318). -/
def startCopy (e : Env) (d : Reg) (u : State) (l : Nat) (c : Copy) : State :=
  match (freeFutures (e.now u)).head? with
  | none => u
  | some i =>
    let n := fresh u
    let f := allocFuture n.2 e.g i c.kind n.1
    let u1 := { f.1 with copies := f.1.copies ++ [{ c with id := n.1, handle := f.2 }] }
    modWarp (writeReg u1 e.g e.w d.toNat l f.2) e.g e.w fun x => { x with tags := sins x.tags (32 * d.toNat + l) }

/-- BCOPY, GATHER, SCATTER and XCOPY (R318): held until the limits of R304 and R305 leave room for every live lane, and
accepted whole. -/
def copyWord (i : Instr) (kind : Nat) (d : Reg) (p : Place) (s : State) : Host.Outcome State Fault Refusal :=
  runWord i s fun e t =>
    let n := (lanesOf e.live).length
    if e.live = 0 then .done t
    else if inFlight t e.gr.core + n > 96 ∨ (freeFutures (e.now t)).length < n then .hold t .accept e.live
    else lanesThen e t (acceptPlan e kind p) fun u cs =>
      reserveThen e t (cs.foldl (fun x c => startCopy e d x c.1 c.2) u) e.live

def execBcopy (h : Hdr) (d : Reg) (p : Place) (s : State) : Host.Outcome State Fault Refusal := copyWord (.bcopy h d p) 0 d p s
def execGather (h : Hdr) (d : Reg) (p : Place) (s : State) : Host.Outcome State Fault Refusal := copyWord (.gather h d p) 1 d p s
def execScatter (h : Hdr) (d : Reg) (p : Place) (s : State) : Host.Outcome State Fault Refusal := copyWord (.scatter h d p) 2 d p s
def execXcopy (h : Hdr) (d : Reg) (p : Place) (s : State) : Host.Outcome State Fault Refusal := copyWord (.xcopy h d p) 3 d p s

/-! ## Chunks -/

def copy? (s : State) (op : Nat) : Option Copy := s.copies.find? (·.id == op)

/-- A group's operations issue no chunk while it is halted or saved (R322). -/
def groupRuns (s : State) (g : Nat) : Bool :=
  match group? s g with
  | some x => x.life == .resident
  | none => false

/-- The first chunk from one on that is not to be passed over. -/
def skipOver (skip : List Nat) (n k : Nat) : Nat := (((List.range n).filter fun i => decide (k ≤ i) && !skip.contains i).head?).getD n

/-- A copy has a chunk to issue. -/
def hasChunk (s : State) (c : Copy) : Bool := !c.parked && groupRuns s c.group && c.cancel != 2 && decide (c.next < c.chunks.length)

/-- It is an operation's turn to issue a chunk (R317): the oldest of its core, and of the cluster's cores the one that did not issue
last, where both have one. -/
def issueTurn (s : State) (c : Copy) : Bool :=
  !(s.copies.any fun x => x.core == c.core && decide (x.id < c.id) && hasChunk s x) &&
  ((core s (evenCore c.core)).ceLast != c.core % 2 || !(s.copies.any fun x => x.core / 2 == c.core / 2 && x.core != c.core && hasChunk s x))

/-- CHUNK_ISSUE (R313, R317, R322): the next chunk of an operation; one that a resume refused is passed over. -/
def execChunkIssue (op : Nat) (s : State) : Host.Outcome State Fault Refusal :=
  .next (match copy? s op with
    | none => s
    | some c => if hasChunk s c && issueTurn s c then
        modCore (modCopy s op fun x => { x with next := skipOver c.skip c.chunks.length (c.next + 1), flying := x.flying ++ [c.next] })
          (evenCore c.core) fun k => { k with ceLast := c.core % 2 }
      else s)

/-- The bits of an element's source, zero outside (R312), or the address of an uncorrectable error. -/
def sourceBits (s : State) (gr : Group) (x : Option (Nat × Nat) × Option (Nat × Nat) × Nat) : Except DWord (List Byte) :=
  let n := elemLen x.2.2
  match x.1 with
  | none => .ok (zeros n)
  | some (sp, a0) =>
    let a1 := elemByte x.2.2 a0
    let a := if sp = 0 ∨ sp = 11 then viewAddr s gr a1 else a1
    let b := if sp = 2 then spmBytes s gr a n else viewBytes s (dieOf gr.core) sp a n
    if sp = 2 ∧ (spmError gr a n).isSome then .error (BitVec.ofNat 64 a)
    else if sp != 2 && eccHit s (dieOf gr.core) sp a n then .error (BitVec.ofNat 64 a)
    else if x.2.2 = 4 then .ok (leBytes 1 (leNat b / 16 ^ (a0 % 2) % 16)) else .ok b

/-- An instance's heap line that a landing writes first is copied into its reserved backing line (R132, R318). -/
def copyHeapLine (s : State) (c : Copy) (gr : Group) (sp a : Nat) : State :=
  match (if sp = 0 ∨ sp = 11 then sget? c.reserve (a / 256) else none) with
  | some p =>
    if (sget? gr.heap (a / 256)).isSome then s else
    modGroup (putHomeBytes s sp (256 * p) (viewBytes s (dieOf gr.core) sp (viewAddr s gr (256 * (a / 256))) 256)) gr.id fun x =>
      { x with heap := sput x.heap (a / 256) p }
  | none => s

/-- One element is written (R312); `low` is the element before it, the low nibble of an HS4 byte that goes to a peer, sent with its
high nibble. Answers whether a non-negative region rejected it (R251). -/
def putElem (s0 : State) (c : Copy) (x : Option (Nat × Nat) × Option (Nat × Nat) × Nat) (low v : List Byte) : State × Bool :=
  match x.2.1, group? s0 c.group with
  | some (sp, a0), some gr0 =>
    let a1 := elemByte x.2.2 a0
    let s := copyHeapLine s0 c gr0 sp a1
    let gr := (group? s c.group).getD gr0
    let a := if sp = 0 ∨ sp = 11 then viewAddr s gr a1 else a1
    let merge (old : List Byte) : List Byte :=
      if x.2.2 ≠ 4 then v
      else leBytes 1 (if a0 % 2 = 0 then leNat old / 16 * 16 + leNat v else leNat old % 16 + 16 * leNat v)
    if sp = 2 then (writeSpm s c.group a (merge (spmBytes s gr a 1)), false)
    else if 3 ≤ sp ∧ sp ≤ 10 then
      if x.2.2 = 4 ∧ a0 % 2 = 0 then (s, false)
      else (sendPeer (drainAt s (dieOf gr.core) (memKey sp a) v.length) (sp - 3) gr.ctx a (if x.2.2 = 4 then leBytes 1 (leNat low % 16 + 16 * leNat v) else v), false)
    else
      let w := engineWrite s c.id (dieOf gr.core) sp a (merge (viewBytes s (dieOf gr.core) sp a 1))
      (w.1, !w.2)
  | _, _ => (s0, false)

/-- Elements are written, in increasing order: whether some was rejected. -/
def putElems (s : State) (c : Copy) (es : List (Option (Nat × Nat) × Option (Nat × Nat) × Nat)) : State × Bool :=
  let y := es.foldl (fun (y : State × Bool × List Byte) x => match (group? y.1 c.group).map fun gr => sourceBits y.1 gr x with
    | some (.ok v) => let z := putElem y.1 c x y.2.2 v; (z.1, y.2.1 || z.2, v)
    | _ => y) (s, false, [])
  (y.1, y.2.1)

/-- The device bytes that a chunk writes. -/
def chunkDests (s : State) (gr : Group) (es : List (Option (Nat × Nat) × Option (Nat × Nat) × Nat)) : List (Nat × Nat × Nat) :=
  es.filterMap fun x => match x.2.1 with
    | some (sp, a) => if sp = 0 ∨ sp = 11 then some (sp, viewAddr s gr (elemByte x.2.2 a), elemLen x.2.2) else none
    | none => none

/-- A destination granule in error that the chunk does not cover whole (R314, R430). -/
def destError (s : State) (ds : List (Nat × Nat × Nat)) : Option Nat :=
  (s.bad.find? fun g => (ds.any fun d => decide (d.2.1 < 8 * g + 8) && decide (8 * g < d.2.1 + d.2.2)) &&
    !((List.range 8).all fun i => ds.any fun d => decide (d.2.1 ≤ 8 * g + i) && decide (8 * g + i < d.2.1 + d.2.2))).map (8 * ·)

/-- What befalls a chunk (R314): nothing, or its status with its deferred fault. -/
def chunkTrouble (s : State) (c : Copy) (gr : Group) (is : List Nat) (es : List (Option (Nat × Nat) × Option (Nat × Nat) × Nat)) :
    Option (Nat × Code × DWord) :=
  let port := field c.block 2 1
  if is.any c.part.contains then none
  else if c.kind == 3 && (boundTo s port gr.ctx == none || Config.peerRefuses s.tick c.id) && !c.lost && ((s.ports[port]?.map (·.up)).getD false) then
      some (5, .copybad, c.handle.setWidth 64)
  else if c.kind == 3 && (c.lost || !((s.ports[port]?.map (·.up)).getD false)) then some (4, .linklost, c.handle.setWidth 64)
  else match es.findSome? fun x => match sourceBits s gr x with | .error a => some a | .ok _ => none with
    | some a => some (3, .eccu, a)
    | none => (destError s (chunkDests s gr es)).map fun a => (3, .eccu, BitVec.ofNat 64 a)

/-- The details of a deferred fault of a copy: the handle is in detail 0, or in detail 1 beside an address or identifier. -/
def copyDetails (handle : Word) (cd : Code) (d : DWord) : Code × DWord × DWord :=
  if cd = .linklost ∨ cd = .copybad then (cd, d, 0) else (cd, d, handle.setWidth 64)

/-- The status of an operation rises to that of a happening; the fault is that of the status reported (R314). -/
def raiseCopy (c : Copy) (st : Nat) (err : Option (Code × DWord × DWord)) : Copy :=
  if c.status < st then { c with status := st, err := err } else c

/-- The operation has nothing left (R313, R321). -/
def copyOver (c : Copy) : Bool :=
  c.flying.isEmpty && c.landing.isEmpty && (decide (c.chunks.length ≤ c.next) || c.cancel == 2)

/-- The end of an operation (R307, R313): its pins are released and its future resolves. -/
def endCopy (s : State) (op : Nat) : State :=
  match copy? s op with
  | none => s
  | some c => if c.parked || !copyOver c then s else
    let st := max c.status (if c.cancel == 2 && decide (c.next < c.chunks.length) then 1 else 0)
    retryAccept (resolveFuture { s with copies := s.copies.filter (·.id != op) } c.group c.warp c.handle st 1 (if st ≤ 2 then none else c.err))

/-- The destination lines of a chunk: of device memory, of a peer, or 256-byte blocks of the group's scratchpad (R323). -/
def chunkLines (s : State) (gr : Group) (es : List (Option (Nat × Nat) × Option (Nat × Nat) × Nat)) : List (Nat × Nat) :=
  (chunkDests s gr es).map (fun d => (0, d.2.1 / 256)) ++ es.filterMap fun x => match x.2.1 with
    | some (sp, a) => if sp = 2 then some (16 + gr.id, elemByte x.2.2 a / 256) else if 3 ≤ sp ∧ sp ≤ 10 then some (sp, elemByte x.2.2 a / 256) else none
    | none => none

/-- In fixed-star mode, chunks that write a common line are performed in acceptance order on a cluster (R323). -/
def earlierChunk (s : State) (c : Copy) (ls : List (Nat × Nat)) : Bool :=
  s.copies.any fun x => x.core / 2 == c.core / 2 && decide (x.id < c.id) && !x.parked &&
    ((List.range x.chunks.length).any fun k => (decide (x.next ≤ k) || x.flying.contains k) &&
      match x.chunks[k]?, group? s x.group with
      | some ch, some gr => (chunkLines s gr (ch.1.filterMap fun i => x.elems[i]?)).any ls.contains
      | _, _ => false)

/-- Adds a landed chunk's bytes to the count of its future's entry (R307, R313). -/
def countLanded (s : State) (g : Nat) (handle : Word) (n : Nat) : State :=
  modGroup s g fun x => { x with futures := match sget? x.futures (handleIndex handle) with
    | some f => if f.gen = handleGen handle then sput x.futures (handleIndex handle) { f with landed := (f.landed + n) % 2 ^ 32 } else x.futures
    | none => x.futures }

/-- The elements of a chunk that are written now (R236): its writes are unordered among themselves, so some may be seen before the
others; a chunk that goes to a peer, or is in fixed-star mode, is written whole. -/
def landingNow (s : State) (c : Copy) (gr : Group) (is : List Nat) : List Nat :=
  let rest := is.filter fun i => !c.part.contains i
  if s.draw = 0 ∨ c.kind = 3 ∨ fixedOf s gr.grid then rest else rest.filter fun i => Config.choose s.draw i % 2 == 0

/-- CHUNK_LANDING (R312 to R314): the elements of a chunk in flight are written, or none; once all are, it has landed and the landed
count rises. A chunk whose leaf writes are held at their slices waits (R253, R259). -/
def execChunkLanding (op chunk : Nat) (s : State) : Host.Outcome State Fault Refusal :=
  .next (match copy? s op with
    | none => s
    | some c => match group? s c.group, c.chunks[chunk]? with
      | some gr, some (is, size) =>
        if c.parked || !c.flying.contains chunk then s else
        let es := is.filterMap fun i => c.elems[i]?
        if ((chunkDests s gr es).any fun d => heldAtSlice s d.1 d.2.1 d.2.2) || (fixedOf s gr.grid && earlierChunk s c (chunkLines s gr es)) then s else
        let now := landingNow s c gr is
        let x : State × Copy := match chunkTrouble s c gr is es with
          | some (st, cd, d) => (s, { (raiseCopy c st (some (copyDetails c.handle cd d))) with part := c.part ++ is })
          | none =>
            let y := putElems s c (now.filterMap fun i => c.elems[i]?)
            (y.1, { (if y.2 then raiseCopy c 2 none else c) with part := c.part ++ now })
        let whole := is.all x.2.part.contains
        let t := modCopy x.1 op fun k => { x.2 with
          flying := if whole then k.flying.filter (· != chunk) else k.flying
          landing := if whole && k.barrier.isSome then k.landing ++ [chunk] else k.landing
          part := if whole then x.2.part.filter fun i => !is.contains i else x.2.part
          lost := k.lost || x.2.status == 4 }
        if whole then endCopy (countLanded t c.group c.handle size) op else t
      | _, _ => s)

/-- CHUNK_CREDIT (R224, R313): a landed chunk's bytes are subtracted from the barrier; the last one ends the operation. -/
def execChunkCredit (op chunk : Nat) (s : State) : Host.Outcome State Fault Refusal :=
  .next (match copy? s op with
    | none => s
    | some c => match c.barrier, c.chunks[chunk]? with
      | some b, some (_, size) =>
        if c.parked || !c.landing.contains chunk then s else
        endCopy (modCopy (creditBarrier s op c.group b size) op fun k => { k with landing := k.landing.filter (· != chunk) }) op
      | _, _ => s)

/-- CANCEL_ARRIVAL (R321): no further chunk is issued. -/
def execCancelArrival (op : Nat) (s : State) : Host.Outcome State Fault Refusal :=
  .next (match copy? s op with
    | none => s
    | some c => if c.parked || c.cancel != 1 then s else endCopy (modCopy s op fun k => { k with cancel := 2 }) op)

/-! ## Reading, waiting for and cancelling a future -/

/-- HTEST (R319); one that finds a future resolved joins its operation (R236). -/
def execHtest (h : Hdr) (d a : Reg) (s : State) : Host.Outcome State Fault Refusal :=
  runWord (.htest h d a) s fun e t => .done (writeLanes e (joinOps t e a e.live) d.toNat 2 fun l =>
    let q := queryFuture e.gr (e.v t a l)
    q.1.toNat + 2 ^ 32 * q.2.toNat)

/-- HWAIT (R320): each live lane is held until the future it names has resolved; the others go on. -/
def execHwait (h : Hdr) (d a : Reg) (s : State) : Host.Outcome State Fault Refusal :=
  runWord (.hwait h d a) s fun e t =>
    let done := hwaitDone t e a
    let u := hwaitLanes t e d a done
    if done = e.live then .done u else .hold u .hwait (e.live &&& ~~~done)

/-- The request to stop the operation of a handle word (R321). -/
def cancelOne (s : State) (e : Env) (w : Word) : State :=
  match futureOf? (e.now s) w with
  | some f => if f.res || w.getLsbD 31 then s else
    let mine (g : Nat) (h : Word) : Bool := g == e.g && handleIndex h == handleIndex w && handleGen h == handleGen w
    { s with
      copies := s.copies.map fun c => if mine c.group c.handle && c.cancel == 0 then { c with cancel := 1 } else c
      matops := s.matops.map fun m => match m.kind with
        | .mul _ _ _ _ _ _ h _ => if mine m.group h then { m with stop := true } else m
        | _ => m }
  | none => s

/-- HCANCEL (R321); NDET in fixed-star mode (R323). -/
def execHcancel (h : Hdr) (a : Reg) (s : State) : Host.Outcome State Fault Refusal :=
  runWord (.hcancel h a) s fun e t =>
    if e.live = 0 then .done t
    else if e.fixed then .trap t .ndet e.live 0 0
    else .done ((lanesOf e.live).foldl (fun u l => cancelOne u e (e.v t a l)) t)

end Sys2Proof.Machine
end

