-- ==== Sys2Proof/Machine/Generation.lean ====
section
/-! DEFINITION. The generation class (R325 to R343): policy versions, the batching table, token records, the grammar mask
and user logit kernels. -/

namespace Sys2Proof.Machine

/-! ## Policy versions -/

/-- The range a once-acting word names: bits [5:0] of v[A] in the leader (R336). -/
def leaderRange (e : Env) (t : State) (a : Reg) : Nat := match leader e.live with | some l => (e.v t a l).toNat % 64 | none => 0

/-- The range, if it is created and bound to the context (R337). -/
def boundRange (s : State) (c n : Nat) : Option VRange :=
  if ((ctx? s c).map fun x => x.maps.any (·.1 == n)).getD false then range? s n else none

/-- VERSION with the range and a generation (R349). -/
def versionTrap (e : Env) (t : State) (rng gen : Nat) : WordRes := .trap t .version e.live (BitVec.ofNat 64 rng) (BitVec.ofNat 64 gen)

/-- The generation number after another: 0xFFFF means none and is skipped (R338). -/
def nextGen : Option Nat → Nat
  | none => 1
  | some g => if g = 0xFFFE then 0 else g + 1

/-- A number is held by a live or newest slot, or pinned by some context (R338). -/
def genTaken (s : State) (r : VRange) (gen : Nat) : Bool :=
  (slotOf r gen).isSome || s.ctxs.any fun c => c.2.pins.contains (r.num, gen)

/-- The staging slot becomes the newest, the previous newest is live (R338). -/
def publish (r : VRange) (gen : Nat) : VRange :=
  { r with
    last := some gen
    slots := r.slots.map fun x => if x.1 == .newest then (.live, x.2) else if x.1 == .staging then (.newest, gen) else x }

/-- VPUB (R338): once, with the wait of FENCE.REL.DEV; the staging slot is then refilled under R334. -/
def execVpub (h : Hdr) (d a : Reg) (s : State) : Host.Outcome State Fault Refusal :=
  runWord (.vpub h d a) s fun e t =>
    if e.live = 0 then .done t else
    let n := leaderRange e t a
    match boundRange t e.gr.ctx n with
    | none => versionTrap e t n 0xFFFF
    | some _ => fenceThen e t .rel .dev fun u =>
      match range? u n with
      | none => versionTrap e u n 0xFFFF
      | some r =>
        let gen := nextGen r.last
        if !(r.slots.any fun x => x.1 == .staging) || genTaken u r gen then versionTrap e u n gen
        else .done (writeLanes e (settleRanges (modRange u n fun x => publish x gen)) d.toNat 1 fun _ => gen)

/-- VPIN (R339). -/
def execVpin (h : Hdr) (a b : Reg) (s : State) : Host.Outcome State Fault Refusal :=
  runWord (.vpin h a b) s fun e t =>
    match leader e.live with
    | none => .done t
    | some l =>
      let n := leaderRange e t a
      let gen := (e.v t b l).toNat % 65536
      match boundRange t e.gr.ctx n with
      | none => versionTrap e t n gen
      | some r => if (slotOf r gen).isNone then versionTrap e t n gen
        else .done (settleRanges (modCtx t e.gr.ctx fun c => { c with pins := sput c.pins n gen }))

/-- VRET (R339). -/
def execVret (h : Hdr) (a : Reg) (s : State) : Host.Outcome State Fault Refusal :=
  runWord (.vret h a) s fun e t =>
    if e.live = 0 then .done t else
    let n := leaderRange e t a
    match boundRange t e.gr.ctx n with
    | none => versionTrap e t n 0xFFFF
    | some _ => .done (settleRanges (modCtx t e.gr.ctx fun c => { c with pins := sdel c.pins n }))

/-! ## The batching table -/

/-- Bytes of the table, read by the hardware for a word (R326); `kind` below is the access kind of R349. -/
def tabRead (s : State) (e : Env) (va : DWord) (n : Nat) : Except LaneFault (List Byte) :=
  match devRead s e.gr.ctx (gens s e.gr) va 1 n with
  | .ok b => .ok b
  | .wait x => bad .page x 0
  | .bad c x => bad c x 0
  | .hole => .error none

def tabWrite (s : State) (e : Env) (va : DWord) (kind : DWord) (data : List Byte) : Except LaneFault State :=
  match devWrite s e.gr.ctx (gens s e.gr) va 1 data with
  | .ok t => .ok t
  | .wait x => bad .page x kind
  | .bad c x => bad c x 0
  | .hole => .error none

/-- The address of slot n's record (R325). -/
def recordVa (table : DWord) (n : Nat) : DWord := table + BitVec.ofNat 64 (64 + 64 * n)

/-- The table of a word's group (R337): graph, loop node and address, or PROT. -/
def tableFor (s : State) (e : Env) : Except LaneFault (Nat × Nat × Node) :=
  match tableLoop s e.gr with
  | some x => .ok x
  | none => bad .prot 0 0

/-- A slot number of a word: PROT at or above the slot count (R337). -/
def slotFor (s : State) (e : Env) (table : DWord) (v : Word) : Except LaneFault Nat := do
  let n := v.toNat % 8192
  let hd ← tabRead s e table 2
  if leNat hd ≤ n then bad .prot (BitVec.ofNat 64 n) 0 else pure n

/-- The order of request targets: draining above paused above decode (R329). -/
def requestRank (st : Nat) : Nat := if st = 4 then 2 else if st = 3 then 1 else 0

/-- The request word after another request (R329). -/
def requestWord (old st reason : Nat) : Nat :=
  if old / 128 % 2 = 1 ∧ requestRank st < requestRank (old % 8) then old else 128 + st + 256 * reason

/-- A request on a slot: a read-modify-write of its request word (R329). -/
def putRequest (s : State) (e : Env) (table : DWord) (n st reason : Nat) : Except LaneFault State := do
  let va := recordVa table n + 2
  let old ← tabRead s e va 2
  tabWrite s e va 2 (leBytes 2 (requestWord (leNat old) st reason))

/-- Reasons of R326. -/
def reasonEmpty : Nat := 0x40
def reasonEos : Nat := 0x41
def reasonFull : Nat := 0x42
def reasonHost : Nat := 0x43
def reasonRequest : Nat := 0x44

/-! ## TOKREC -/

/-- The checks of TOKREC in a lane (R340): its slot. -/
def tokCheck (e : Env) (a : Reg) (u : State) (l : Nat) : Except LaneFault Nat := do
  let (g, i, n) ← tableFor u e
  let sl ← slotFor u e n.k56 (e.v u a l)
  let st ← tabRead u e (recordVa n.k56 sl) 1
  let twice := (lanesOf e.live).any fun k => k != l && (e.v u a k).toNat % 8192 == sl
  let held := ((graph? u g).map fun x => x.recorded.contains (i, sl)).getD false
  if (leNat st != 1 && leNat st != 2) || twice || held then bad .prot (BitVec.ofNat 64 sl) 0 else pure sl

/-- The 16 bytes of a token record (R340). -/
def tokenRecord (tok version flags logp iter : Nat) : List Byte :=
  leBytes 4 tok ++ leBytes 2 version ++ leBytes 2 flags ++ leBytes 4 logp ++ leBytes 4 iter

/-- TOKREC in a lane (R340). -/
def tokAct (e : Env) (a b c : Reg) (u : State) (l : Nat) : Except LaneFault (State × Unit) := do
  let (g, i, n) ← tableFor u e
  let sl := (e.v u a l).toNat % 8192
  let tok := (e.v u b l).toNat
  if tok = 0xFFFFFFFF then pure (← putRequest u e n.k56 sl 3 reasonEmpty, ())
  else do
    let r ← tabRead u e (recordVa n.k56 sl) 64
    let count := field r 60 4
    let full := count + 1 == field r 56 2
    let eos := tok == field r 44 4
    let ver := SysVal.eval .version e u l
    let va := BitVec.ofNat 64 (field r 48 8 + 16 * count)
    let lf ← memLeaf u e va 16 1 2
    let (u2, _) ← storeThrough u u e va lf (tokenRecord tok (ver % 65536) ((if eos then 1 else 0) + (if count = 0 then 2 else 0) + (if full then 4 else 0))
      (e.v u c l).toNat (SysVal.eval .iter e u l)) (fun u1 => plainTag u1 e lf l) false
    let u3 ← tabWrite u2 e (recordVa n.k56 sl + 60) 1 (leBytes 4 (count + 1))
    let u4 := modGraph u3 g fun x => { x with recorded := (i, sl) :: x.recorded }
    if eos then pure (← putRequest u4 e n.k56 sl 4 reasonEos, ())
    else if full then pure (← putRequest u4 e n.k56 sl 4 reasonFull, ())
    else pure (u4, ())

/-- TOKREC (R340): every lane is checked, then the lanes act in increasing order. -/
def execTokrec (h : Hdr) (a b c : Reg) (s : State) : Host.Outcome State Fault Refusal :=
  runWord (.tokrec h a b c) s fun e t =>
    lanesThen e t (fun u l => pureLane u (tokCheck e a u l)) fun u _ =>
      lanesThen e u (tokAct e a b c) fun x _ => .done x

/-! ## SMASK -/

/-- The logit of a lane under its slot's grammar mask (R341). -/
def maskedLogit (e : Env) (a b c : Reg) (u : State) (l : Nat) : Except LaneFault Nat := do
  let (_, _, n) ← tableFor u e
  let sl ← slotFor u e n.k56 (e.v u c l)
  let r ← tabRead u e (recordVa n.k56 sl) 64
  let i := (e.v u b l).toNat
  if field r 16 8 = 0 then pure (e.v u a l).toNat
  else if field r 24 4 ≤ i then pure 0xFF800000
  else do
    let lf ← memLeaf u e (BitVec.ofNat 64 (field r 16 8 + i / 8)) 1 0 1
    let m ← readMem u e lf 1 false l
    pure (if leNat m / 2 ^ (i % 8) % 2 = 1 then (e.v u a l).toNat else 0xFF800000)

/-- SMASK (R341). -/
def execSmask (h : Hdr) (d a b c : Reg) (s : State) : Host.Outcome State Fault Refusal :=
  runWord (.smask h d a b c) s fun e t =>
    lanesThen e t (fun u l => pureLane u (maskedLogit e a b c u l)) fun u vals => .done (writeLanes e u d.toNat 1 (laneNat vals))

/-! ## ULCALL -/

/-- A warp at its start (R23, R101): every lane at the code address, its registers stale but for those listed. -/
def newWarp (index slot : Nat) (code : DWord) (regs : List (Nat × Word)) : Warp :=
  { index := index, slot := slot, lanes := List.replicate 32 { pc := code, exited := false, yields := 0, age := 0 }
    regs := regs.foldl (fun m p => sput m p.1 p.2) [], priv := [], pending := [], tags := [], outs := [], parked := none, holds := []
    fault := none, deferred := [], handler := none, predictor := [], yielding := none, wage := 0, regBad := []
    past := (regs.map (·.2)).foldl addNew [], affine := [], recent := [], fenced := [], heard := [], line := none, trapHalt := false, ended := false }

/-- A warp of a group that is no instance: its start registers are held compressed (R21, R53). -/
def startWarp (index : Nat) (code : DWord) (regs : List (Nat × Word)) : Warp :=
  { newWarp index 0 code regs with affine := List.range 5 }

/-- A group that is not yet resident. -/
def newGroup (id ctx grid index : Nat) (kind : GroupKind) (depth core gang warpsN granted spm : Nat) (split : BitVec 16)
    (code args : DWord) (fixed : Bool) (warps : List Warp) : Group :=
  { id := id, ctx := ctx, grid := grid, index := index, kind := kind, depth := depth, life := .queued, core := core, gang := gang
    warpsN := warpsN, granted := granted, spmSize := spm, split := split, code := code, args := args
    seed := if fixed then none else some id, left := [], leftSpm := [], pastSpm := [], view := View.empty, credits := [], warps := warps, spm := [], spmPriv := [], spmBad := [], heap := [], heapPage := none
    bars := List.replicate 8 { phase := 0, arrived := [] }, gangIn := false, gangWarps := [], phases := 0, futures := [], tagRecs := []
    slots := [], savedSlots := [], tsignal := none, children := 0, cause := none, waitVa := none, frame := none, short := false, logits := none }

/-- The registers of a warp's start in lane l of warp w (R23): v0 the thread index, v1 and v2 as given, v3 and v4 the
argument address. -/
def startRegs (w v1 v2 : Nat) (args : DWord) : List (Nat × Word) :=
  (List.range 32).flatMap fun l =>
    [(l, BitVec.ofNat 32 (32 * w + l)), (32 + l, BitVec.ofNat 32 v1), (64 + l, BitVec.ofNat 32 v2),
     (96 + l, args.setWidth 32), (128 + l, (args >>> 32).setWidth 32)]

/-- One lane's user logit kernel (R342): its sub-group, waiting for a warp slot and rows on the core. That the
sub-group has its issuer's group and gang numbers, and so its slot, is the model's choice (R70, log entry 67). -/
def startLogits (e : Env) (a b : Reg) (u : State) (l : Nat) : Except LaneFault (State × Option Nat) := do
  let (_, _, n) ← tableFor u e
  let sl ← slotFor u e n.k56 (e.v u a l)
  let r ← tabRead u e (recordVa n.k56 sl) 64
  if field r 32 8 = 0 then pure (u, none)
  else
    let code := BitVec.ofNat 64 (field r 32 8)
    let args := e.d u b l
    let f := fresh u
    let gr := newGroup f.1 e.gr.ctx e.gr.grid e.gr.index (.subgroup e.g e.w l) e.gr.depth e.gr.core e.gr.gang 1 32 0 e.gr.split code args
      e.fixed [startWarp 0 code (startRegs 0 sl 0 args)]
    pure (putGroup f.2 { gr with logits := some (field r 40 4, 0, sl, 0) }, some f.1)

/-- ULCALL (R342): a lane whose slot has no kernel gets 0 at once; the word is held until every sub-group has ended. -/
def execUlcall (h : Hdr) (d a b : Reg) (s : State) : Host.Outcome State Fault Refusal :=
  runWord (.ulcall h d a b) s fun e t =>
    lanesThen e t (startLogits e a b) fun u subs =>
      let started := subs.filterMap fun x => x.2.map fun g => (x.1, g)
      if started.isEmpty then .done (writeLanes e u d.toNat 1 fun _ => 0)
      else .hold (writeLanes { e with live := maskOf fun l => bit e.live l && !(started.any (·.1 == l)) } u d.toNat 1 fun _ => 0) (.ulcall d.toNat started) e.live

/-! ## SLOTRD, SLOTSET -/

/-- The 16 bytes a lane reads (R343). -/
def slotQuarter (e : Env) (act : Bool) (a : Reg) (n : BitVec 3) (u : State) (l : Nat) : Except LaneFault Nat := do
  let (_, _, nd) ← tableFor u e
  let i := (e.v u a l).toNat
  let sl ← if act then pure (nd.active[i]?) else (slotFor u e nd.k56 (e.v u a l)).map some
  match sl with
  | none => pure 0
  | some x => do
    let b ← tabRead u e (if n = 4 then nd.k56 else recordVa nd.k56 x + BitVec.ofNat 64 (16 * n.toNat)) 16
    pure (leNat b)

/-- SLOTRD (R343): long-latency. -/
def execSlotrd (h : Hdr) (act : Bool) (d a : Reg) (n : BitVec 3) (s : State) : Host.Outcome State Fault Refusal :=
  runWord (.slotrd h act d a n) s fun e t =>
    lanesThen e t (fun u l => pureLane u (slotQuarter e act a n u l)) fun u vals => .done (laterValue e u d.toNat 4 (laneNat vals))

/-- SLOTSET in one lane (R343). -/
def slotsetLane (e : Env) (s : State) (a b : Reg) (u : State) (l : Nat) : Except LaneFault (State × Unit) := do
  let (_, _, n) ← tableFor u e
  let sl ← slotFor u e n.k56 (e.v s a l)
  let q := (e.v s b l).toNat
  if q % 8 < 2 ∨ 4 < q % 8 then bad .prot (BitVec.ofNat 64 sl) 0
  else pure (← putRequest u e n.k56 sl (q % 8) (q / 256 % 256), ())

/-- SLOTSET (R343). -/
def execSlotset (h : Hdr) (a b : Reg) (s : State) : Host.Outcome State Fault Refusal :=
  runWord (.slotset h a b) s fun e t => lanesThen e t (slotsetLane e t a b) fun u _ => .done u

end Sys2Proof.Machine
end

