-- ==== Sys2Proof/Machine/System.lean ====
section
/-! DEFINITION. The system class (R367 to R376): traps, control registers, saving and restoring the calling group,
translations, IDLE. -/

namespace Sys2Proof.Machine

/-! ## TRAP, TRET -/

/-- TRAP (R371). -/
def execTrap (h : Hdr) (k : BitVec 8) (s : State) : Host.Outcome State Fault Refusal :=
  runWord (.trap h k) s fun e t => if e.live = 0 then .done t else .trap t .swtrap e.live (k.setWidth 64) 0

/-- TRET (R372): outside handler mode PRIV; with a lane elsewhere BARDIV; then it waits for the warp's results. -/
def execTret (mark next : Bool) (s : State) : Host.Outcome State Fault Refusal :=
  runWord (.tret mark next) s fun e t =>
    if e.wp.handler.isNone then .trap t .priv e.live 0xFF 0
    else if !converged e then .trap t .bardiv e.live (atPcDetail e) 0
    else if !e.wp.outs.isEmpty then .hold t .ret e.atPc
    else returnFromHandler t e next

/-! ## Control registers -/

/-- The number of a control register (R367). -/
def CtlReg.num : CtlReg → Nat
  | .feature => 0 | .trapvec => 1 | .trapframe => 2 | .ctxid => 3 | .split => 4 | .fixed => 5 | .clockdiv => 6 | .version => 7
  | .vpin => 8 | .tidbase => 9 | .ordesc => 10 | .preempt => 11 | .dbg => 12 | .perf n => 16 + n.toNat

/-- A performance counter as it reads (R368): of cycles, which the model has none of, it has counted a free number. -/
def perfRead (s : State) (c n : Nat) : Nat :=
  let p := ((core s c).perf[n]?).getD (0, 0)
  let ev := p.1 / 2 ^ 56
  if ev = 1 then ev * 2 ^ 56 + (p.1 + Config.perfCount s.tick n) % 2 ^ 48 else p.1

/-- The value of a control register (R367). -/
def ctlRead (s : State) (e : Env) (r : CtlReg) : Nat :=
  let cx (f : Ctx → Nat) : Nat := ((ctx? s e.gr.ctx).map f).getD 0
  match r with
  | .feature => Config.featureLevel
  | .trapvec => cx (·.trapvec.toNat)
  | .trapframe => cx (·.trapframe.toNat)
  | .ctxid => e.gr.ctx % 65536
  | .split => (core s e.gr.core).split.toNat
  | .fixed => cx fun c => if c.fixed then 1 else 0
  | .clockdiv => cx (·.clockdiv.toNat)
  | .version => SysVal.eval .version e s 0
  | .vpin => match (subscribedLoop s e.gr).bind Node.subscription with
    | some r => cx fun c => (sget? c.pins r).getD 0xFFFF
    | none => 0xFFFF
  | .tidbase => cx (·.tidbase.toNat)
  | .ordesc => cx (·.ordesc.toNat)
  | .preempt => cx (·.preempt.toNat)
  | .dbg => cx (·.dbg.toNat)
  | .perf n => perfRead s e.gr.core n.toNat

/-- CREAD (R373). -/
def execCread (h : Hdr) (d : Reg) (r : CtlReg) (s : State) : Host.Outcome State Fault Refusal :=
  runWord (.cread h d r) s fun e t => .done (writeLanes e t d.toNat 2 fun _ => ctlRead t e r)

/-- Whether a control register may be written (R367). -/
def ctlWritable (handler : Bool) : CtlReg → Bool
  | .feature | .ctxid | .split | .version | .vpin => false
  | .trapvec | .tidbase | .ordesc | .perf _ => true
  | .trapframe | .fixed | .clockdiv | .preempt | .dbg => handler

/-- The write of a control register; reserved bits are ignored (R367, R373). -/
def ctlWrite (s : State) (e : Env) (r : CtlReg) (v : DWord) : State :=
  let cx (f : Ctx → Ctx) : State := modCtx s e.gr.ctx f
  match r with
  | .trapvec => cx fun c => { c with trapvec := v &&& 0xFFFFFFFFFFFFFFF8 }
  | .trapframe => cx fun c => { c with trapframe := v &&& 0xFFFFFFFFFFFF0000 }
  | .fixed => cx fun c => { c with fixed := v.getLsbD 0 }
  | .clockdiv => cx fun c => { c with clockdiv := v.setWidth 4 }
  | .tidbase => cx fun c => { c with tidbase := v }
  | .ordesc => cx fun c => { c with ordesc := v }
  | .preempt => cx fun c => { c with preempt := v &&& 0x01FFFFFFFFFFFFC1 }
  | .dbg => cx fun c => { c with dbg := v.setWidth 3 }
  | .perf n =>
    let ev := if v.toNat / 2 ^ 56 ≤ 9 then v.toNat / 2 ^ 56 else 0
    modCore s e.gr.core fun c => { c with perf := setAt c.perf n.toNat (ev * 2 ^ 56 + v.toNat % 2 ^ 48, BitVec.ofNat 64 e.gr.ctx) }
  | .feature | .ctxid | .split | .version | .vpin => s

/-- CWRITE (R373): the leader's value, once; PRIV where R367 does not permit it. -/
def execCwrite (h : Hdr) (a : Reg) (r : CtlReg) (s : State) : Host.Outcome State Fault Refusal :=
  runWord (.cwrite h a r) s fun e t =>
    match leader e.live with
    | none => .done t
    | some l => if ctlWritable e.wp.handler.isSome r then .done (ctlWrite t e r (e.d t a l))
      else .trap t .priv e.live (BitVec.ofNat 64 (CtlReg.num r)) 0

/-! ## TSAVE and TLOAD -/

/-- Every engine and matrix operation of a group has ended (R374). -/
def groupIdle (s : State) (g : Nat) : Bool := !(s.copies.any (·.group == g)) && !(s.matops.any (·.group == g))

/-- A warp-wide word of the whole group (R374): where its lanes stand, the address of warp 0, and its waits. The last
warp to execute it acts. -/
def wholeGroup (e : Env) (t : State) (a : Reg) (mine : Hold → Bool) (addr : Hold → DWord) (k : Hold → WordRes) (own : DWord → Hold)
    (act : DWord → State → WordRes) : WordRes :=
  let va := match leader e.live with | some l => e.d t a l | none => 0
  let pro := match e.gr.kind with | .prologue => true | .nested _ => true | _ => false
  let others := e.gr.warps.filter fun w => w.index != e.wp.index && !w.ended
  let first := others.all fun w => decide (e.wp.index < w.index)
  let held := others.filterMap fun w => (w.holds.filter fun h => mine h.kind).head?
  let base := if first then va else (held.head?.map fun h => addr h.kind).getD va
  if !converged e then .trap t (if pro then .template else .bardiv) e.live (if pro then 0 else atPcDetail e) 0
  else if first && va.toNat % 256 != 0 then .trap t .align e.live va 0
  else if held.length < others.length then k (own va)
  else if e.gr.warps.any fun w => !w.outs.isEmpty then k .ret
  else if !groupIdle t e.g then k .accept
  else afterRelease e t true .dev (act base)

/-- A warp as TSAVE's frame holds it: after the word, with v[D] := 0 in every lane. -/
def savedWarp (s : State) (gr : Group) (d : Nat) (lanes : Mask) (wp : Warp) : Warp :=
  (List.range 32).foldl (fun w l => setReg w d l 0) (advance (copyRow s gr wp d) lanes)

/-- The group as TSAVE's frame holds it. -/
def savedGroup (s : State) (e : Env) (d : Nat) : Group :=
  let gr := e.now s
  { gr with warps := gr.warps.map fun w =>
      if w.index = e.wp.index then savedWarp s gr d e.atPc w
      else match w.holds.head? with
        | some h => match h.kind with | .tsave _ k => savedWarp s gr k h.lanes w | _ => w
        | none => w }

/-- The frame's pages (R374): refused, missing, a template's, or a region's backing. -/
def framePieces (s : State) (e : Env) (va : DWord) (n : Nat) : Except LaneFault (List (Nat × Nat × Nat)) :=
  match devPieces s e.gr.ctx (gens s e.gr) 2 (n / 65536 + 2) va 1 n with
  | .wait x => bad .page x 1
  | .bad c x => bad c x 0
  | .hole => .error none
  | .ok ps =>
    let dev := ps.filter fun p => p.1 == 0 || p.1 == 11
    if dev.any fun p => areaHit s p.2.1 p.2.2 || (heapHit s p.2.1 p.2.2).isSome then bad .template va 0
    else match dev.findSome? fun p => backingOf s p.2.1 p.2.2 with
      | some r => bad .orreg (regionDetail e r) 0
      | none => .ok ps

/-- The other warps of the group go on after TSAVE with v[D] := 1 in their live lanes. -/
def resumeSaved (s : State) (g w : Nat) (wp : Warp) : State :=
  (wp.holds.filter fun h => match h.kind with | .tsave _ _ => true | _ => false).foldl (fun t h => match h.kind with
    | .tsave _ d => modWarp ((lanesOf h.lanes).foldl (fun u l => writeReg u g w d l 1) t) g w (endHold h)
    | _ => t) s

/-- TSAVE (R374). -/
def execTsave (mark : Bool) (d a : Reg) (s : State) : Host.Outcome State Fault Refusal :=
  runWord (.tsave mark d a) s fun e t0 =>
    wholeGroup e t0 a (fun k => match k with | .tsave _ _ => true | _ => false) (fun k => match k with | .tsave x _ => x | _ => 0)
      (fun k => .hold t0 k e.atPc) (fun va => .tsave va d.toNat) fun base t =>
        let f := frameBytes t (savedGroup t e d.toNat) .tsave
        match framePieces t e base f.length with
        | .error none => .stop .noSuchMemory
        | .error (some (c, d0, d1)) => .trap t c e.live d0 d1
        | .ok ps =>
          let t1 := putPieces t ps f
          let t2 := (List.range e.gr.warps.length).foldl (fun u w => match e.gr.warps[w]? with
            | some wp => if w = e.w then u else resumeSaved u e.g w wp
            | none => u) t1
          .done (writeLanes e t2 d.toNat 1 fun _ => 1)

/-! ### Reading a frame -/

/-- The sections of a frame, n of them; what follows is zero. -/
def sectionsOf : Nat → List Byte → Option (List (Nat × List Byte))
  | 0, rest => if rest.all (· == 0) then some [] else none
  | n + 1, b =>
    let len := field b 4 4
    if b.length < 8 + len ∨ field b 2 2 ≠ 0 then none
    else (sectionsOf n (b.drop (8 + len))).map fun r => (field b 0 2, (b.drop 8).take len) :: r

def bodiesOf (secs : List (Nat × List Byte)) (kind : Nat) : List (List Byte) := (secs.filter fun x => x.1 == kind).map (·.2)

/-- The registers a warp section holds. -/
def sectionRegs (b : List Byte) : List Nat := (List.range 256).filter fun r => field b (272 + r / 8) 1 / 2 ^ (r % 8) % 2 == 1

def sectionHandler (b : List Byte) : Bool := field b 8 4 % 2 == 1

/-- Reserved bytes are zero (R5). -/
def zerosAt (b : List Byte) (o n : Nat) : Bool := ((b.drop o).take n).all (· == 0)

/-- A fault record keeps R355. -/
def recordBytesOk (b : List Byte) : Bool := decide (field b 1 1 < 4) && zerosAt b 2 2 && zerosAt b 57 7

/-- A trap frame keeps R354. -/
def trapBytesOk (b : List Byte) : Bool := recordBytesOk (b.take 64) && zerosAt b 73 55 && zerosAt b 384 128 && zerosAt b 2560 1536

/-- The future table of a frame keeps R379. -/
def futureBytesOk (b : List Byte) : Bool := (List.range 128).all fun i => decide (field b (8 * i + 2) 1 < 32) && decide (field b (8 * i + 3) 1 < 16)

/-- A warp section keeps the layout of R364. -/
def warpSectionOk (granted : Nat) (b : List Byte) : Bool :=
  decide (304 ≤ b.length) && decide (field b 8 4 < 4) && field b 12 4 == 0 &&
  b.length == 304 + 136 * (sectionRegs b).length + (if field b 8 4 / 2 % 2 = 1 then 64 else 0) &&
  (field b 8 4 / 2 % 2 == 0 || recordBytesOk ((b.drop (304 + 136 * (sectionRegs b).length)).take 64)) &&
  (sectionRegs b).all fun r => decide (r < granted) || (sectionHandler b && decide (240 ≤ r))

/-- The sections of a frame keep the layout of R364 for the caller's sizes, with their reserved bytes zero (R5), and hold no
unfinished operation. -/
def sectionsOk (gr : Group) (tmpl : Bool) (secs : List (Nat × List Byte)) : Bool :=
  let ws := bodiesOf secs 1
  let sp := bodiesOf secs 2
  let spOk := if gr.spmSize = 0 then sp.isEmpty else match sp with
    | [b] => if tmpl then decide (480 ≤ b.length) && b.length == 480 + 256 * ((List.range 3840).filter fun q => field b (q / 8) 1 / 2 ^ (q % 8) % 2 == 1).length
      else b.length == gr.spmSize
    | _ => false
  let mats := bodiesOf secs 5
  (secs.all fun x => decide (1 ≤ x.1) && decide (x.1 ≤ 6)) &&
  ws.map (fun b => field b 0 4) == List.range gr.warpsN && ws.all (warpSectionOk gr.granted) && spOk &&
  (bodiesOf secs 3).map List.length == [72] &&
  ((bodiesOf secs 4).map List.length == [] || (bodiesOf secs 4).map List.length == [1024]) &&
  (mats.isEmpty || mats.map List.length == [776 + 16384 * (mats.map fun b => ((List.range 8).filter fun i => field b (768 + i) 1 == 1).length).sum]) &&
  (bodiesOf secs 4).all futureBytesOk && (bodiesOf secs 6).all trapBytesOk &&
  (bodiesOf secs 6).map List.length == List.replicate (ws.filter sectionHandler).length 8192

/-- The header of a frame that TLOAD accepts for a group (R374). -/
def headerOk (gr : Group) (b : List Byte) : Bool :=
  field b 0 4 == 0x10000 && field b 4 4 % 256 == 0 && decide (256 ≤ field b 4 4) && field b 8 4 == gr.ctx && field b 12 1 == gr.warpsN &&
  field b 13 1 == gr.granted / 8 && decide (field b 14 1 < 16) && field b 40 4 == gr.spmSize && field b 46 2 == gr.split.toNat &&
  field b 52 1 == 5 && ((b.drop 53).take 11).all (· == 0)

/-- A code by its number (R349). -/
def codeOf (n : Nat) : Code :=
  (([.rsvd, .illpair, .hazard, .align, .page, .prot, .priv, .notAlignedPair, .scope, .bardiv, .wmask, .orreg, .orneg, .orrange, .tidbad,
    .template, .mfmt, .mshape, .staleb, .futbad, .copybad, .ndet, .eccu, .version, .depth, .growx, .linklost, .qclosed, .budget,
    .swtrap] : List Code).find? fun c => Code.num c == n).getD .illegal

/-- A fault record's 64 bytes (R355). -/
def faultOf (b : List Byte) : FaultRec :=
  let m (o : Nat) : Mask := BitVec.ofNat 32 (field b o 4)
  let q (o : Nat) : DWord := BitVec.ofNat 64 (field b o 8)
  { code := codeOf (field b 0 1), handler := field b 1 1 % 2 == 1, deferred := field b 1 1 / 2 % 2 == 1, lanes := m 4, live := m 8, atPc := m 12
    pc := q 16, word := q 24, d0 := q 32, d1 := q 40, clock := q 48, warp := field b 56 1 }

/-- Keys 32 × register + lane of a lane mask. -/
def maskKeys (r m : Nat) : List Nat := (lanesOf (BitVec.ofNat 32 m)).map (32 * r + ·)

/-- The handler record of a warp from its trap frame (R365). -/
def handlerOf (granted : Nat) (va : DWord) (f : List Byte) : Handler :=
  { frame := va, temps := tempRegs granted, cause := faultOf (f.take 64)
    tagged := (List.range 16).flatMap fun j => (maskKeys (240 + j) (field f (1536 + 4 * (240 + j)) 4)).map fun k =>
      (k, BitVec.ofNat 32 (field f (4096 + 128 * j + 4 * (k % 32)) 4)) }

/-- A warp as the frame has it (R374): registers, lanes, pending bits and tags. -/
def loadWarp (gr : Group) (inst : Bool) (b : List Byte) (handler : Option Handler) (wp : Warp) : Warp :=
  let rs := (sectionRegs b).mapIdx fun i r => (r, 304 + 136 * i)
  let regs := rs.foldl (fun m p => (List.range 32).foldl (fun m l => sput m (32 * p.1 + l) (BitVec.ofNat 32 (field b (p.2 + 4 * l) 4))) m) []
  let regs := match handler with
    | some h => (List.range 32).foldl (fun m l => sput (sput m (32 * 240 + l) (h.frame.setWidth 32)) (32 * 241 + l) ((h.frame >>> 32).setWidth 32)) regs
    | none => regs
  let out := BitVec.ofNat 32 (field b 4 4)
  { wp with
    lanes := (List.range 32).map fun l => { pc := BitVec.ofNat 64 (field b (16 + 8 * l) 8), exited := bit out l, yields := 0, age := 0 }
    regs := regs
    past := (regs.map (·.2)).foldl addNew wp.past
    affine := []
    recent := []
    priv := if inst then (sectionRegs b).filter fun r => decide (r < gr.granted) else []
    pending := sinsAll [] (rs.flatMap fun p => maskKeys p.1 (field b (p.2 + 128) 4))
    tags := sinsAll [] (rs.flatMap fun p => maskKeys p.1 (field b (p.2 + 132) 4))
    outs := [], parked := none, holds := [], predictor := [], yielding := none, handler := handler, ended := wp.ended && out == 0xFFFFFFFF }

/-- The scratchpad of the frame. -/
def loadSpm (gr : Group) (tmpl : Bool) (b : List Byte) : Group :=
  if tmpl then
    let qs := (List.range 3840).filter fun q => field b (q / 8) 1 / 2 ^ (q % 8) % 2 == 1
    { gr with
      spmPriv := qs
      spmBad := []
      pastSpm := (b.drop 480).foldl addNew gr.pastSpm
      spm := (qs.mapIdx fun i q => (i, q)).foldl (fun m p => putSpm m (256 * p.2) ((b.drop (480 + 256 * p.1)).take 256)) [] }
  else { gr with spm := putSpm [] 0 b, spmBad := [], pastSpm := b.foldl addNew gr.pastSpm, spmPriv := if gr.kind.tmpl?.isSome then List.range (gr.spmSize / 256) else [] }

/-- The future table of a frame: an entry of zeros has never been allocated. -/
def futuresOf (b : List Byte) : List (Nat × Future) :=
  ((List.range 128).filter fun i => field b (8 * i) 8 != 0).map fun i => (i, futureOf ((b.drop (8 * i)).take 8))

/-- The group as the frame has it, its accumulator slots apart. -/
def loadGroup (gr : Group) (tmpl : Bool) (secs : List (Nat × List Byte)) (handlers : List (Option Handler)) : Group :=
  let ws := bodiesOf secs 1
  let g1 := { gr with
    warps := gr.warps.mapIdx fun i w => match ws[i]? with
      | some b => loadWarp gr gr.kind.tmpl?.isSome b (handlers[i]?.getD none) w
      | none => w }
  let g2 := match bodiesOf secs 2 with | b :: _ => loadSpm g1 tmpl b | [] => g1
  let g3 := match bodiesOf secs 3 with
    | b :: _ => { g2 with bars := (List.range 8).map fun k => { phase := field b (4 * k) 4, arrived := lanesOf (BitVec.ofNat 32 (field b (32 + 4 * k) 4)) } }
    | [] => g2
  let g4 := match bodiesOf secs 4 with
    | b :: _ => { g3 with futures := futuresOf b }
    | [] => { g3 with futures := [] }
  match bodiesOf secs 5 with
  | b :: _ => { g4 with tagRecs := (List.range 8).filterMap fun m =>
      (tagOf ((b.drop (96 * m)).take 32)).map fun t => (m, { tag := t, entry := tensorOf ((b.drop (96 * m + 32)).take 64) }) }
  | [] => { g4 with tagRecs := [] }

/-- The pairs of a slot in a frame from byte o. -/
def slotPairs (b : List Byte) (o : Nat) : List (Nat × (Word × Word)) :=
  ((List.range 2048).filter fun j => field b (o + 8 * j) 8 != 0).map fun j =>
    (j, (BitVec.ofNat 32 (field b (o + 8 * j) 4), BitVec.ofNat 32 (field b (o + 8 * j + 4) 4)))

/-- The logical slots of the frame with their pairs. -/
def loadSlots (secs : List (Nat × List Byte)) : List (Nat × AccSlot) :=
  match bodiesOf secs 5 with
  | b :: _ => ((List.range 8).filter fun i => field b (768 + i) 1 == 1).mapIdx fun k i =>
      (i, { used := true, pairs := slotPairs b (776 + 16384 * k) })
  | [] => []

/-- Puts accumulator slots into the lowest free physical ones (R271, R272), if there are enough. -/
def placeSlots (s : State) (g c : Nat) (ls : List (Nat × AccSlot)) : Option State :=
  let cr := core s c
  let free := (List.range 8).filter fun p => !((cr.slots[p]?.map (·.used)).getD true)
  if free.length < ls.length then none else
  let ps := ls.zip free
  some (modGroup (modCore s c fun k => { k with slots := ps.foldl (fun m p => setAt m p.2 p.1.2) k.slots }) g fun x =>
    { x with slots := ps.foldl (fun m p => sput m p.1.1 p.2) [] })

/-- Writes the trap frames of the frame's handler warps to the frames of their slots (R365): their addresses by warp. -/
def putTraps (e : Env) (gr : Group) : List (Nat × List Byte) → State → Except LaneFault (State × List (Nat × DWord))
  | [], s => .ok (s, [])
  | (w, f) :: r, s => match gr.warps[w]? with
    | none => putTraps e gr r s
    | some wp =>
      let va := trapFrameVa s gr wp
      match devWrite s gr.ctx (gens s gr) va 1 f with
      | .wait x => bad .page x 1
      | .bad c x => bad c x 0
      | .hole => .error none
      | .ok t => match putTraps e gr r t with
        | .ok (u, vs) => .ok (u, (w, va) :: vs)
        | .error x => .error x

/-- TLOAD's effect (R374) with the frame read and checked. -/
def loadFrame (e : Env) (t : State) (tmpl : Bool) (secs : List (Nat × List Byte)) : WordRes :=
  let gr := e.now t
  let hw := (bodiesOf secs 1).filter sectionHandler
  match putTraps e gr ((hw.map fun b => field b 0 4).zip (bodiesOf secs 6)) t with
  | .error none => .stop .noSuchMemory
  | .error (some (c, d0, d1)) => .trap t c e.live d0 d1
  | .ok (t1, vas) =>
    let frameOf (w : Nat) : Option Handler := match vas.find? (·.1 == w), (hw.zip (bodiesOf secs 6)).find? fun x => field x.1 0 4 == w with
      | some v, some f => some (handlerOf gr.granted v.2 f.2)
      | _, _ => none
    let t2 := modGroup (freeSlots t1 gr) e.g fun x => loadGroup { x with slots := [] } tmpl secs ((List.range gr.warpsN).map frameOf)
    match placeSlots t2 e.g gr.core (loadSlots secs) with
    | some t3 => .jump t3
    | none => .hold t .slotWait e.atPc

/-- TLOAD (R374). -/
def execTload (mark : Bool) (a : Reg) (s : State) : Host.Outcome State Fault Refusal :=
  runWord (.tload mark a) s fun e t0 =>
    wholeGroup e t0 a (fun k => match k with | .tload _ => true | _ => false) (fun k => match k with | .tload x => x | _ => 0)
      (fun k => .hold t0 k e.atPc) (fun va => .tload va) fun base t =>
        let read (n : Nat) : Except LaneFault (List Byte) := match devRead t e.gr.ctx (gens t e.gr) base 1 n with
          | .ok b => .ok b
          | .wait x => bad .page x 0
          | .bad c x => bad c x 0
          | .hole => .error none
        let got : Except LaneFault (List Byte × List Byte) := do
          let hd ← read 64
          if !headerOk e.gr hd then bad .prot base 0 else pure (hd, ← read (field hd 4 4))
        match got with
        | .error none => .stop .noSuchMemory
        | .error (some (c, d0, d1)) => .trap t c e.live d0 d1
        | .ok (hd, b) =>
          let area := field hd 24 8
          match sectionsOf (field hd 44 2) (b.drop 64) with
          | none => .trap t .prot e.live base 0
          | some secs =>
            if !sectionsOk e.gr (area != 0) secs then .trap t .prot e.live base 0
            else if area != 0 && ((e.gr.kind.tmpl?.bind (tmpl? t)).map (·.area)) != some area then .trap t .template e.live 0 0
            else loadFrame e t (area != 0) secs

/-! ## TLBINV, IDLE -/

/-- An accepted operation of the context pins the translation of a page, or any (R305, R375). -/
def pinsPage (s : State) (e : Env) (va : Option DWord) : Bool :=
  let pins := (s.copies.filter fun c => ((group? s c.group).map (·.ctx)) == some e.gr.ctx).flatMap (·.pins) ++
    (s.matops.filter fun m => ((group? s m.group).map (·.ctx)) == some e.gr.ctx).flatMap (·.pins)
  match va with
  | none => !pins.isEmpty
  | some v => match translate s e.die e.gr.ctx (gens s e.gr) v { kind := 0, need := 0 } with
    | .ok l => match l.lines.getLast? with | some x => pins.contains x | none => false
    | _ => false

/-- TLBINV (R375): a device-scope release that waits for the operations that pin the translations it drops; then those of the
context that its live lanes name, or all of them, leave every TLB. Every access walks its translation afresh (log entry 6). -/
def execTlbinv (h : Hdr) (a : Option Reg) (s : State) : Host.Outcome State Fault Refusal :=
  runWord (.tlbinv h a) s fun e t0 => afterRelease e t0 true .dev fun t =>
    let waits := match a with
      | none => e.live != 0 && pinsPage t e none
      | some r => (lanesOf e.live).any fun l => pinsPage t e (some (e.d t r l))
    if waits then .hold t .accept e.atPc
    else .done (match a with
      | none => if e.live = 0 then t else dropTlbOf t e.gr.ctx none
      | some r => dropTlbOf t e.gr.ctx (some ((lanesOf e.live).map fun l => e.d t r l)))

/-- IDLE (R376): event kind 4 with the frame address and the fault record; the whole warp is held until it is resumed. -/
def execIdle (mark : Bool) (s : State) : Host.Outcome State Fault Refusal :=
  runWord (.idle mark) s fun e t =>
    match e.wp.handler with
    | none => .trap t .priv e.live 0xFF 0
    | some q => .hold (postCtx t e.gr.ctx 4 q.frame.toNat 0 0 (some q.cause)) .idle e.atPc

end Sys2Proof.Machine
end

