-- ==== Sys2Proof/Machine/Fetch.lean ====
section
/-! DEFINITION. Fetching a word (R25, R109, R189, R229) and the choice of the lane groups of a warp that issue (R101 to
R103, R142). -/

namespace Sys2Proof.Machine

/-! ## Fetch -/

/-- What writes performed since a grid was launched have replaced at an 8-byte word, newest first. -/
def replaced (s : State) (grid a : Nat) : List (Nat × List Byte) :=
  (s.codeOld.filter fun x => decide (grid < x.1) && overlaps x.2.1 x.2.2.length a 8).map (·.2)

/-- The word at a physical address as a group fetches it (R229): a word that is stored while its node runs is fetched as
one of the values it has held since. -/
def codeWord (s : State) (gr : Group) (sp a : Nat) : DWord :=
  let d := dieOf gr.core
  let now := viewBytes s d sp a 8
  let old := replaced s gr.grid a
  let unseen := s.pend.any fun p => p.die == d && overlaps p.addr p.data.length (memKey sp a) 8
  BitVec.ofNat 64 (leNat (
    if old.isEmpty && !unseen then now
    else match Config.pick s.tick % (old.length + 2) with
      | 0 => now
      | k + 1 => (old.take k).foldl (fun v x => overlay a x.1 x.2 v) (homeBytes s sp a 8)))

/-- Fetches the word at a program counter for a group (R25, R109, R189, R414): the fault's code and first detail is the
address; an uncorrectable error faults ECCU. -/
def fetchWord (s : State) (gr : Group) (pc : DWord) : Except LaneFault DWord :=
  if pc.toNat % 8 ≠ 0 then bad .align pc 0
  else if pc.toNat ≥ 2 ^ 57 then bad .prot pc 0
  else match translate s (dieOf gr.core) gr.ctx (gens s gr) pc { kind := 3, need := 3 } with
    | .bad c d0 d1 => bad c d0 d1
    | .hole => .error none
    | .ok l =>
      if linkLost s l then bad .linklost pc 0 else
      let a := if l.space = 0 ∨ l.space = 11 then viewAddr s gr l.addr else l.addr
      if eccHit s (dieOf gr.core) l.space a 8 then bad .eccu (BitVec.ofNat 64 a) 0
      else .ok (codeWord s gr l.space a)

/-- The instruction a lane group stands at, where it can be fetched and decoded. -/
def instrAt (s : State) (gr : Group) (pc : DWord) : Option Instr :=
  match fetchWord s gr pc with
  | .ok w => match decode w with | .ok i => some i | .error _ => none
  | .error _ => none

/-! ## What a selection chooses -/

/-- The warp-wide words, which wait for the lanes behind them (R142, R146, R147, R372, R374). -/
def warpWide : Instr → Bool
  | .gbar .. | .garrive .. | .gangbar _ | .freeze .. | .tnest _ | .tsave .. | .tload .. | .tret .. => true
  | _ => false

/-- The unit of a word other than the vector pipe (R101, R52, R82, R110, R199); 7 is the issue logic. -/
def portOf : Instr → Option Nat
  | .idiv .. | .fsfu .. | .fdiv .. => some 1
  | .vote .. | .matchw .. | .shfl .. | .wred .. | .wscan .. => some 2
  | .ld .. | .st .. | .lds .. | .sts .. | .pref .. | .zfill .. | .cflush .. | .mapq .. | .aadd .. | .amnx .. | .alog .. | .axch ..
  | .acas .. | .ainc .. | .fence .. | .waita .. | .wakea .. | .bcinit .. | .bcadd .. | .wsync .. | .qpush .. | .qpop ..
  | .ldrs .. | .ldrm .. | .ldpfx .. | .ldpick .. => some 3
  | .sread _ .clock _ => some 4
  | .mbload .. | .mmul .. | .maccrd .. | .maccwr .. | .maccz .. | .mtrans .. | .mperm .. | .mrsum .. | .mepi .. => some 5
  | .bcopy .. | .gather .. | .scatter .. | .xcopy .. => some 6
  | .exit _ | .yieldl _ | .brkpt .. => some 7
  | _ => none

/-- Whether some lane of a mask satisfies p. -/
def anyLane (wp : Warp) (m : Mask) (p : Lane → Bool) : Bool :=
  (lanesOf m).any fun l => match wp.lanes[l]? with | some x => p x | none => false

/-- The lane group at a program counter, of those that a fresh selection may take. -/
def groupAt (wp : Warp) (pc : Nat) : Mask := lanesAt wp (BitVec.ofNat 64 pc)

/-- Passed over (R102): every lane of the lane group has a yield count. -/
def passedOver (wp : Warp) (pc : Nat) : Bool := !anyLane wp (groupAt wp pc) fun x => x.yields == 0

/-- Promoted (R103). -/
def promoted (wp : Warp) (pc : Nat) : Bool := anyLane wp (groupAt wp pc) fun x => decide (256 ≤ x.age)

/-- A warp-wide word may issue only at the lowest program counter of the lanes that have not exited (R142). -/
def behindOk (s : State) (gr : Group) (wp : Warp) (pc : Nat) : Bool :=
  match instrAt s gr (BitVec.ofNat 64 pc) with
  | some i => !warpWide i || lowestPc wp == some pc
  | none => true

/-- The lane groups of a warp in the order of R101 and R103: the promoted, then the one that stood first in line, then the
others. That the word in line goes behind promoted lane groups is the model's choice (log entry 67): R101 has it first,
R103 puts a promoted lane group ahead of every unpromoted one. -/
def inOrder (s : State) (gr : Group) (wp : Warp) : List Nat :=
  let ready := (readyPcs s gr wp).filter fun pc => !passedOver wp pc && behindOk s gr wp pc
  let rest := ready.filter fun pc => !promoted wp pc
  ready.filter (promoted wp) ++ (rest.filter fun pc => wp.line == some (BitVec.ofNat 64 pc)) ++
    rest.filter fun pc => wp.line != some (BitVec.ofNat 64 pc)

/-- Both words need one unit other than the vector pipe (R101). -/
def unitClash (s : State) (gr : Group) (a b : Nat) : Bool :=
  match (instrAt s gr (BitVec.ofNat 64 a)).bind portOf, (instrAt s gr (BitVec.ofNat 64 b)).bind portOf with
  | some x, some y => x == y
  | _, _ => false

/-- The lane groups that issue in a selection, and the one that stays first in line (R101). -/
def selection (s : State) (gr : Group) (wp : Warp) : List Nat × Option DWord :=
  match inOrder s gr wp with
  | [] => ([], none)
  | [a] => ([a], none)
  | a :: b :: _ => if unitClash s gr a b then ([a], some (BitVec.ofNat 64 b)) else ([a, b], none)

/-- Yield counts and ages after a selection (R102, R103). -/
def tally (s : State) (gr : Group) (wp : Warp) (issued : List Nat) : Warp :=
  let ready := (readyPcs s gr wp).filter fun pc => !passedOver wp pc
  { wp with lanes := wp.lanes.mapIdx fun l x =>
      if x.exited then x
      else if bit (heldLanes wp) l then { x with yields := x.yields - 1 }
      else if issued.contains x.pc.toNat then { x with yields := 0, age := 0 }
      else { x with yields := x.yields - 1, age := if ready.contains x.pc.toNat then x.age + 1 else x.age } }

/-- A fault at fetch (R109, R355): every lane of the lane group, the target as program counter, word 0. -/
def fetchFault (s : State) (gr : Group) (wp : Warp) (at_ : Mask) (pc : DWord) (c : Code) (d0 d1 : DWord) : FaultRec :=
  { code := c, handler := wp.handler.isSome, deferred := false, lanes := at_, live := at_, atPc := at_, pc := pc, word := 0
    d0 := d0, d1 := d1, clock := clockOf s gr, warp := wp.index }

/-- The code of a word the decoder refuses (R47). -/
def Reject.code : Reject → Code
  | .rsvd => .rsvd
  | .scope => .scope
  | .illpair => .illpair
  | .notAlignedPair => .notAlignedPair

/-- The record of a word that the decoder refuses (R48, R355). -/
def decodeRecord (s : State) (gr : Group) (wp : Warp) (at_ : Mask) (pc word : DWord) (c : Code) : FaultRec :=
  { (fetchFault s gr wp at_ pc c 0 0) with word := word }

end Sys2Proof.Machine
end

