-- ==== Sys2Proof/Machine/CoreEvents.lean ====
section
/-! DEFINITION. What a core does of itself: the choice of warps (R104, R152, R174), results that return (R42, R44), trap
entry (R353), barriers (R140, R141), capture (R129), the register pool (R139, R149), ends (R115, R128) and launch blocks
(R151). -/

namespace Sys2Proof.Machine

/-! ## The choice of warps -/

/-- A group's place in logical order (R139). -/
def logicalKey (g : Group) : Nat := g.grid * 2 ^ 32 + g.index

/-- The resident groups of a core in logical order. -/
def inLogical (s : State) (c : Nat) : List Group := sortOn logicalKey (residentOn s c)

/-- Every resident warp of a core that has not ended, as (slot, group, warp). -/
def warpsOn (s : State) (c : Nat) : List (Nat × Nat × Nat) :=
  (residentOn s c).flatMap fun g => (g.warps.mapIdx fun i w => (i, w)).filterMap fun p =>
    if p.2.ended then none else some (p.2.slot, g.id, p.1)

/-- A ULCALL sub-group that has used up its budget of words issues nothing further (R342). -/
def spent (s : State) (gr : Group) : Bool :=
  match gr.logits with
  | some (b, _, _, n) => fixedOf s gr.grid && decide (b ≤ n)
  | none => false

/-- A warp that the core may choose now (R104). -/
def mayChoose (s : State) (g w : Nat) : Bool :=
  match group? s g with
  | some gr => !spent s gr && (match gr.warps[w]? with | some wp => eligible s gr wp | none => false)
  | none => false

/-- The warps of a core outside its active set that satisfy p, in order of warp slot. -/
def outsiders (s : State) (c : Nat) (p : Nat × Nat → Bool) : List (Nat × Nat) :=
  ((sortOn (·.1) (warpsOn s c)).map (·.2)).filter fun x => !(core s c).active.contains x && p x

/-- Warps join the active set while it holds fewer than 16 (R104). -/
def joinSet (c : Nat) (out : List (Nat × Nat)) (s : State) : State :=
  out.foldl (fun t x => modCore t c fun k => if k.active.length < 16 then { k with active := k.active ++ [x] } else k) s

/-- Warps outside the set that hold a ready lane group join it (R104). -/
def joinActive (s : State) (c : Nat) : State := joinSet c (outsiders s c fun x => mayChoose s x.1 x.2) s

/-- The warps of a group join the set as it is admitted or restored (R104). -/
def joinAdmitted (s : State) (c g : Nat) : State := joinSet c (outsiders s c fun x => x.1 == g) s

/-- A warp takes the place of the member with the longest residence, whose register cache is written back (R54, R104). -/
def displaceOne (c : Nat) (s : State) (x : Nat × Nat) : State :=
  let s1 := match (core s c).active.head? with
    | some y => modWarp s y.1 y.2 fun wp => { wp with recent := [] }
    | none => s
  modCore s1 c fun k => { k with active := k.active.tail ++ [x] }

/-- Warps outside a full set whose age has reached 256 enter it (R104). -/
def displace (s : State) (c : Nat) : State :=
  (outsiders s c fun x => mayChoose s x.1 x.2 && (match warp? s x.1 x.2 with | some wp => decide (256 ≤ wp.wage) | none => false)).foldl
    (displaceOne c) s

/-- The slot and age of a warp. -/
def slotAge (s : State) (p : Nat × Nat) : Nat × Nat :=
  match warp? s p.1 p.2 with | some wp => (wp.slot, wp.wage) | none => (0, 0)

/-- One pipe's choice among the eligible members of the active set (R104): those that have waited 256 cycles in slot
order, else in rotation after the slot last chosen for the pipe. -/
def chooseWarp (s : State) (last : Nat) (cands : List (Nat × Nat)) : Option (Nat × Nat) :=
  let slot (p : Nat × Nat) : Nat := (slotAge s p).1
  match sortOn slot (cands.filter fun p => decide (256 ≤ (slotAge s p).2)) with
  | p :: _ => some p
  | [] => (sortOn (fun p => (slot p + 64 - (last + 1) % 64) % 64) cands).head?

/-- The turn of a warp in fixed-star mode has ended (R174): it has ended or given way, or it has no ready lane group and
one of its lane groups is held where the core leaves it. -/
def turnOver (s : State) (p : Nat × Nat) : Bool :=
  match group? s p.1 with
  | none => true
  | some gr => match gr.warps[p.2]? with
    | none => true
    | some wp => gr.life != .resident || wp.ended || wp.yielding.isSome || spent s gr || leaves wp

/-- The warps that issue in this cycle, with the core's new turn: two in rotation, one in fixed-star mode. -/
def chosenWarps (s : State) (c : Nat) : List (Nat × Nat) × Option (Nat × Nat) :=
  let k := core s c
  if (residentOn s c).any fun g => fixedOf s g.grid then
    match k.one.filter fun p => !turnOver s p with
    | some p => (if mayChoose s p.1 p.2 then [p] else [], some p)
    | none =>
      let order := (inLogical s c).flatMap fun g => (List.range g.warps.length).map fun w => (g.id, w)
      match order.find? fun p => mayChoose s p.1 p.2 with
      | some p => ([p], some p)
      | none => ([], none)
  else
    let cands := k.active.filter fun p => mayChoose s p.1 p.2
    match chooseWarp s k.rotation.1 cands with
    | none => ([], none)
    | some a => match chooseWarp s k.rotation.2 (cands.filter (· != a)) with
      | none => ([a], none)
      | some b => ([a, b], none)

/-- The issue selection of one warp (R101 to R103). -/
def selectWarp (s : State) (p : Nat × Nat) : State :=
  match group? s p.1 with
  | none => s
  | some gr => match gr.warps[p.2]? with
    | none => s
    | some wp =>
      let sel := selection s gr wp
      let s1 := modWarp s p.1 p.2 fun x => { tally s gr x sel.1 with wage := 0, line := sel.2 }
      { s1 with issue := s1.issue ++ sel.1.map fun pc => { group := p.1, warp := p.2, pc := BitVec.ofNat 64 pc, lanes := groupAt wp pc } }

/-- After a cycle's choice: warps eligible and not chosen age, and the sets that YIELDs recorded shrink (R104, R152). -/
def afterChoice (s0 s : State) (c : Nat) (chosen : List (Nat × Nat)) : State :=
  (warpsOn s c).foldl (fun t x =>
    let p := (x.2.1, x.2.2)
    modWarp t p.1 p.2 fun wp => { wp with
      wage := if chosen.contains p then 0 else if mayChoose s0 p.1 p.2 then wp.wage + 1 else 0
      yielding := match wp.yielding with
        | some l => let r := l.filter fun q => !chosen.contains q && (core s0 c).active.contains q && mayChoose s0 q.1 q.2
                    if r.isEmpty then none else some r
        | none => none }) s

/-- WARP_ISSUE_CHOICE (R104, R174): the words chosen are issued in the steps that follow, before anything else happens. -/
def execWarpIssueChoice (c : Nat) (s : State) : Host.Outcome State Fault Refusal :=
  .next (if (core s c).halted || !s.issue.isEmpty then s else
    let s1 := displace (joinActive s c) c
    let ch := chosenWarps s1 c
    let s2 := ch.1.foldl selectWarp s1
    let slot (i old : Nat) : Nat := match ch.1[i]? with | some p => (slotAge s1 p).1 | none => old
    let s3 := modCore s2 c fun k => { k with one := ch.2, rotation := (slot 0 k.rotation.1, slot 1 k.rotation.2) }
    afterChoice s1 s3 c ch.1)

/-! ## Results -/

/-- LONG_LATENCY_RETURN (R42, R44, R115, R205): a result reaches its register, or is discarded for an exited lane; a tensor entry
reaches its core. -/
def execLongLatencyReturn (group warp idx : Nat) (s : State) : Host.Outcome State Fault Refusal :=
  .next (match group? s group, warp? s group warp with
    | some gr, some wp => match wp.outs[idx]? with
      | some (.value l r v) =>
        if gr.life ≠ .resident then s else
        let s1 := modWarp (bindReg s group warp r l) group warp fun x => { x with outs := dropAt x.outs idx }
        let s2 := if bit (aliveLanes wp) l then writeReg s1 group warp r l v else s1
        stillAway (modGroup (modWarp s2 group warp unpark) group afterReturns) group warp
      | some (.entry tid) => if gr.life ≠ .resident then s else
        modGroup (modWarp (entryArrives s gr warp idx tid) group warp unpark) group afterReturns
      | _ => s
    | _, _ => s)

/-- TRAP_ENTRY (R353). -/
def execTrapEntry (group warp : Nat) (s : State) : Host.Outcome State Fault Refusal := .next (enterHandler s group warp)

/-! ## Barriers -/

/-- A phase of barrier b is complete: some warp has arrived, and every warp that has not ended (R140). -/
def barDone (gr : Group) (b : Nat) : Bool :=
  !(bar gr b).arrived.isEmpty && gr.warps.all fun w => w.ended || (bar gr b).arrived.contains w.index

/-- BARRIER_PHASE_COMPLETE (R140, R150): the count rises; GBARs return, and words held for the phase issue again. -/
def execBarrierPhaseComplete (group b : Nat) (s : State) : Host.Outcome State Fault Refusal :=
  .next (match group? s group with
    | none => s
    | some gr => if gr.life ≠ .resident ∨ barDone gr b = false then s else
      let p := (bar gr b).phase
      modGroup s group fun x => { x with
        bars := modAt x.bars b fun y => { phase := (y.phase + 1) % 2 ^ 32, arrived := [] }
        phases := x.phases + 1
        warps := x.warps.map fun w => dropHolds? (endHolds w fun h => h.kind == .barrier b p) fun h => match h.kind with
          | .rearrive c _ => c == b
          | _ => false })

/-- A group has arrived at its gang's barrier: every warp that has not ended has (R141). -/
def gangHere (gr : Group) : Bool := gr.warps.all fun w => w.ended || gr.gangWarps.contains w.index

/-- GANG_BARRIER_COMPLETE (R141). -/
def execGangBarrierComplete (gang : Nat) (s : State) : Host.Outcome State Fault Refusal :=
  .next (match s.gangs.find? (·.id == gang) with
    | none => s
    | some x =>
      let ms := x.groups.filterMap (group? s)
      if !(ms.any fun g => !g.gangWarps.isEmpty) || !ms.all gangHere then s else
      let s1 := { s with gangs := s.gangs.map fun y => if y.id = gang then { y with phase := (y.phase + 1) % 2 ^ 32 } else y }
      x.groups.foldl (fun t g => modGroup t g fun y => { y with
        gangIn := false, gangWarps := [], phases := y.phases + 1
        warps := y.warps.map fun w => endHolds w fun h => match h.kind with | .gang _ => true | _ => false }) s1)

/-! ## Capture -/

/-- A prologue whose warps have all frozen or ended, with nothing of it outstanding (R129, R146). -/
def captureReady (s : State) (gr : Group) : Option Nat :=
  let live := gr.warps.filter fun w => !w.ended
  match gr.kind, live with
  | .prologue, w :: _ | .nested _, w :: _ =>
    if gr.life == .resident && (live.all fun x => (freezeCount x).isSome && freezeCount x == freezeCount w) &&
      (gr.warps.all fun x => x.outs.isEmpty && x.fault.isNone && x.deferred.isEmpty) && (gr.futures.all fun f => !f.2.live) &&
      (s.copies.all fun c => c.group != gr.id) && (s.matops.all fun m => m.group != gr.id) && (s.pend.all fun p => p.group != gr.id)
    then freezeCount w else none
  | _, _ => none

/-- The warps that executed FREEZE. -/
def frozenWarps (gr : Group) : List Warp := gr.warps.filter fun w => !w.ended

/-- The program counters and exits of a template's warp (R129): the address of FREEZE plus 8. -/
def frozenLanes (wp : Warp) : List (DWord × Bool) := wp.lanes.map fun l => if l.exited then (l.pc, true) else (l.pc + 8, false)

/-- The registers of a frozen warp below the granted count, every lane (R129). -/
def frozenRegs (s : State) (gr : Group) (wp : Warp) : List (Nat × Word) :=
  (List.range (32 * gr.granted)).map fun k => (k, regRead s gr wp (k / 32) (k % 32))

/-- The length of an image (R130). -/
def imageBytes (w n sp : Nat) : Nat := 256 + w * (512 + 128 * n) + sp

/-- The image of T (R130). -/
def templateImage (s : State) (gr : Group) (depth count : Nat) : List Byte :=
  let ws := frozenWarps gr
  leBytes 4 0x10000 ++ leBytes 1 ws.length ++ leBytes 1 (gr.granted / 8) ++ leBytes 1 depth ++ zeros 1 ++ leBytes 4 gr.spmSize ++
  leBytes 4 count ++ zeros 240 ++
  (ws.flatMap fun w => ((frozenLanes w).flatMap fun l => leBytes 8 l.1.toNat) ++ leBytes 4 (~~~(aliveLanes w)).toNat ++ zeros 252 ++
    (List.range (32 * gr.granted)).flatMap fun k => leBytes 4 (regRead s gr w (k / 32) (k % 32)).toNat) ++
  spmBytes s gr 0 gr.spmSize

/-- The template that a capture makes. -/
def newTemplate (s : State) (gr : Group) (id grid depth count area : Nat) (owner : Option Nat) (pages : List Nat)
    (areaVa heapVa : Nat × Nat) : Template :=
  { id := id, grid := grid, area := area, warps := (frozenWarps gr).map fun w => (w.index, frozenLanes w)
    regs := (frozenWarps gr).map fun w => (w.index, frozenRegs s gr w), seed := gr.seed, left := gr.left, leftSpm := gr.leftSpm, granted := gr.granted, spmSize := gr.spmSize
    spm := (List.range gr.spmSize).map fun o => (o, spmByte s gr o), depth := depth, count := count
    bytes := imageBytes (frozenWarps gr).length gr.granted gr.spmSize, owner := owner, ctx := gr.ctx, pages := pages, areaVa := areaVa, heapVa := heapVa
    word := gr.tsignal }

/-- A group, with the image of a template beside it, fits one empty core of its split (R128, R133). -/
def fitsCore (split : BitVec 16) (warps rows spm : Nat) : Bool :=
  decide (warps ≤ 64) && decide (rows ≤ splitRows split) && decide (spm ≤ splitSpm split)

/-- A group leaves its core and stays in the device: its slots, its place in the active set and unused images. -/
def leaveCore (s : State) (gr : Group) : State :=
  let s1 := leaveValues (freeSlots s gr) gr
  let s2 := modCore s1 gr.core fun c => { c with active := c.active.filter (·.1 != gr.id) }
  let s3 := modGroup { s2 with issue := s2.issue.filter (·.group != gr.id) } gr.id fun x => { x with life := .ended, slots := [], warps := [] }
  freeImages s3 gr.core

/-- Every group of a grid has ended (R128). -/
def gridOver (g : Grid) : Bool := g.ended == g.count && g.next == g.count

/-- The templates of a grid that has completed are freed (R134). -/
def dropTemplates (s : State) (grid : Nat) : State :=
  match grid? s grid with
  | some g => if gridOver g then { s with tmpls := s.tmpls.filter fun t => t.grid != grid } else s
  | none => s

/-- The captured prologue of a node's grid ends, and its instances become the grid's groups (R129). -/
def stampGrid (s : State) (gr : Group) (t : Template) : State :=
  modGrid (removeGroup (sendAlong (.grid gr.grid) (relView s (dieOf gr.core)) { s with tmpls := s.tmpls ++ [t] }) gr.id) gr.grid fun g =>
    { g with tmpl := some t.id, count := t.count, next := 0, ended := 0, regs := t.granted, warps := t.warps.length, spm := t.spmSize }

/-- A nested capture: sub-instances on the die of the nesting instance, which ends (R138). -/
def stampNest (s : State) (gr : Group) (g : Grid) (t : Template) (grid : Nat) : State :=
  let sub : Grid := { g with
    id := grid, stage := none, parent := some g.id, tmpl := some t.id, templated := false, area := t.area, count := t.count, next := 0, ended := 0
    gangN := 1, warps := t.warps.length, boost := 0, regs := t.granted, spm := t.spmSize, word := 0, die := some (dieOf gr.core), done := false }
  let s1 := leaveCore (sendAlong (.grid grid) (relView s (dieOf gr.core)) { s with tmpls := s.tmpls ++ [t], grids := s.grids ++ [sub] }) gr
  modGroup s1 gr.id fun x => { x with children := t.count }

/-- Pages of a backing pool for the image of a nested template (R130, R135). -/
def takePages (s : State) (c : Nat) (gen : Nat → Option Nat) (pool : Nat) : Nat → List Nat → DevRes (State × List Nat)
  | 0, ps => .ok (s, ps)
  | n + 1, ps => match devRead s c gen (BitVec.ofNat 64 pool) 64 64 with
    | .ok b =>
      let next := field b 12 4
      if pool = 0 ∨ field b 0 8 % 8 ≠ 0 ∨ !((b.drop 16).all (· == 0)) ∨ next > field b 8 4 then .bad .prot (BitVec.ofNat 64 pool)
      else if next = field b 8 4 then .wait (BitVec.ofNat 64 pool)
      else match devRead s c gen (BitVec.ofNat 64 (field b 0 8 + 8 * next)) 8 8 with
        | .ok q => if leNat q % 65536 ≠ 0 ∨ leNat q ≥ physTop then .bad .prot (BitVec.ofNat 64 pool)
          else match devWrite s c gen (BitVec.ofNat 64 (pool + 12)) 4 (leBytes 4 (next + 1)) with
            | .ok t => takePages t c gen pool n (ps ++ [leNat q])
            | .wait x => .wait x
            | .bad cd x => .bad cd x
            | .hole => .hole
        | .wait x => .wait x
        | .bad cd x => .bad cd x
        | .hole => .hole
    | .wait x => .wait x
    | .bad cd x => .bad cd x
    | .hole => .hole

/-- Writes an image over whole pages. -/
def putPages (s : State) : List Nat → List Byte → State
  | [], _ => s
  | p :: r, data => putPages (putHomeBytes s 0 p (data.take 65536)) r (data.drop 65536)

/-- The nesting instance of a sub-instance, and the completion word (R138, R148). -/
def nestOf (s : State) (gr : Group) : Option (Group × Option DWord) :=
  match gr.kind.tmpl?.bind (tmpl? s) with
  | some t => match t.owner.bind (group? s) with
    | some o => some (o, t.word)
    | none => none
  | none => none

/-- The completion word of the nesting instance counts a group that is a sub-instance and ends (R138, R148). -/
def countWordOf (s : State) (gr : Group) (next : State → State) (wait : DWord → State) : State :=
  match (nestOf s gr).bind (·.2) with
  | none => next s
  | some va => match devIncrement s (relView s (dieOf gr.core)) gr.ctx (gens s gr) va with
    | .ok t => next t
    | .wait x => wait x
    | .bad c x => match grid? s gr.grid with
      | some g => next (devRefused s gr.ctx g.graph g.node c x)
      | none => next s
    | .hole => next s

/-- A nested capture (R130, R138): the image goes to pages of the backing pool, and the nesting instance ends, a sub-instance
of an outer nest among its siblings' completion count. -/
def captureNested (s : State) (gr : Group) (g : Grid) (count bytes : Nat) : State :=
  let again (va : DWord) : State := devWait s (.templateCapture gr.id) gr.ctx va
  match takePages s gr.ctx (gens s gr) g.pool ((bytes + 65535) / 65536) [] with
  | .ok (s1, pages) =>
    countWordOf s1 gr (fun s2 =>
      let f1 := fresh s2
      let f2 := fresh f1.2
      stampNest (putPages f2.2 pages (templateImage s gr (gr.depth + 1) count)) gr g
        (newTemplate s gr f1.1 f2.1 (gr.depth + 1) count (pages.head?.getD 0) (some gr.id) pages (0, 0) (0, 0)) f2.1) again
  | .wait va => again va
  | .bad c va => devRefused (removeGroup s gr.id) gr.ctx g.graph g.node c va
  | .hole => devRefused (removeGroup s gr.id) gr.ctx g.graph g.node .prot 0

/-- The capture of a node's template (R129, R130). -/
def captureTop (s : State) (gr : Group) (g : Grid) (count : Nat) : State :=
  let again (va : DWord) : State := devWait s (.templateCapture gr.id) gr.ctx va
  match devWrite s gr.ctx (gens s gr) (BitVec.ofNat 64 g.area) 256 (templateImage s gr 1 count) with
  | .ok s1 =>
    let f := fresh s1
    let s2 := stampGrid f.2 gr (newTemplate s gr f.1 gr.grid 1 count g.area none [] (g.area, g.areaSize) (g.heapBase, g.heapSize))
    if count = 0 ∧ g.word ≠ 0 then
      match devIncrement s2 (relView s2 (dieOf gr.core)) gr.ctx (gens s gr) g.word with
      | .ok s3 => dropTemplates s3 g.id
      | .wait va => again va
      | .bad c va => devRefused s2 gr.ctx g.graph g.node c va
      | .hole => s2
    else dropTemplates s2 g.id
  | .wait va => again va
  | .bad c va => devRefused (removeGroup s gr.id) gr.ctx g.graph g.node c va
  | .hole => devRefused (removeGroup s gr.id) gr.ctx g.graph g.node .prot 0

/-- TEMPLATE_CAPTURE (R129, R130, R133, R138, R160). The capture is a release of device scope that the start of every instance
acquires (R131). -/
def execTemplateCapture (group : Nat) (s : State) : Host.Outcome State Fault Refusal :=
  .next (if waiting s (.templateCapture group) then s else match group? s group with
    | none => s
    | some gr => match captureReady s gr, grid? s gr.grid with
      | some count, some g =>
        let ws := (frozenWarps gr).length
        let bytes := imageBytes ws gr.granted gr.spmSize
        let fits := fitsCore gr.split ws (ws * gr.granted + ws) (2 * gr.spmSize)
        match gr.kind with
        | .nested _ => if !fits then failNode (removeGroup s group) g.graph g.node 3 else captureNested s gr g count bytes
        | _ =>
          if g.areaSize < bytes then failNode (removeGroup s group) g.graph g.node 4
          else if !fits then failNode (removeGroup s group) g.graph g.node 3
          else captureTop s gr g count
      | _, _ => s)

/-! ## The register pool -/

/-- A request for register rows on a core (R139): of a held lane group, or of a ULCALL sub-group that waits for its start;
the rows it needs and, for GROWX, the granted count or register it asks for (R349). -/
structure RowReq where
  group : Nat
  warp  : Nat
  hold  : HoldRec
  sub   : Option Nat
  need  : Nat
  asked : Nat

/-- The requests of one lane group: an RGROW, a register copy, or the sub-groups of a ULCALL that are not started (R342). -/
def holdRequests (s : State) (gr : Group) (w : Nat) (h : HoldRec) : List RowReq :=
  match h.kind with
  | .rgrow n => [{ group := gr.id, warp := w, hold := h, sub := none, need := growNeed gr n, asked := n }]
  | .copyWait r => [{ group := gr.id, warp := w, hold := h, sub := none, need := 1, asked := r }]
  | .ulcall _ subs => subs.filterMap fun x => match group? s x.2 with
    | some y => if y.life = .queued then some { group := gr.id, warp := w, hold := h, sub := some y.id, need := y.granted, asked := y.granted } else none
    | none => none
  | _ => []

/-- The requests of a group for register rows. -/
def rowRequests (s : State) (gr : Group) : List RowReq :=
  (gr.warps.mapIdx fun i w => w.holds.flatMap (holdRequests s gr i)).flatten

/-- The free warp slots of a core. -/
def freeSlotsOf (s : State) (c : Nat) : List Nat := (List.range 64).filter fun i => !((warpsOn s c).any fun x => x.1 == i)

/-- The pool of a core can meet a request: rows, and a warp slot for a sub-group. -/
def canServe (s : State) (c : Nat) (r : RowReq) : Bool :=
  decide (r.need ≤ freeRows s c) && (r.sub.isNone || !(freeSlotsOf s c).isEmpty)

/-- The request that the pool serves next (R139, R149): the first in logical order, if the pool can meet it. -/
def firstRequest (s : State) (c : Nat) : Option RowReq :=
  match (inLogical s c).flatMap (rowRequests s) with
  | r :: _ => if canServe s c r then some r else none
  | [] => none

/-- A ULCALL sub-group starts in a warp slot of its core (R342). That it is not held against the 16 groups of R14, though it
is one of them for the admission of others, is the model's choice (log entry 67). -/
def startSub (s : State) (c : Nat) (g : Group) : State :=
  match freeSlotsOf s c with
  | slot :: _ => joinAdmitted (modGroup s g.id fun x => { withLeft s x with life := .resident, warps := x.warps.map fun w => { w with slot := slot } }) c g.id
  | [] => s

/-- Serves one request: RGROW is granted, a register is copied and its word issues again, a sub-group starts. -/
def serveRows (s : State) (c : Nat) (r : RowReq) : State :=
  match r.sub.bind (group? s), r.hold.kind with
  | some g, _ => startSub s c g
  | none, .rgrow n => match group? s r.group with
    | some gr => modWarp (if gr.granted < n then modGroup s r.group fun x => growRegs (domainPast s gr.ctx) x n else s) r.group r.warp (endHold r.hold)
    | none => s
  | none, .copyWait reg => dropHold (ownRow s r.group r.warp reg) r.group r.warp r.hold
  | none, _ => s

/-- REGISTER_POOL_GRANT (R139, R149, R342). A sub-group of a ULCALL needs a warp slot and rows; that it is admitted whatever the
number of resident groups, and counts among the 16 afterwards, is the model's choice (R14, log entry 67). -/
def execRegisterPoolGrant (c : Nat) (s : State) : Host.Outcome State Fault Refusal :=
  .next (match firstRequest s c with
    | some r => serveRows s c r
    | none => s)

/-- A warp whose trap entry waits for temporary rows (R353). -/
def trapWaits (s : State) (gr : Group) : Bool :=
  gr.warps.any fun w => w.fault.isSome && w.outs.isEmpty && w.handler.isNone && decide (freeRows s gr.core < (tempRegs gr.granted).length)

/-- A lane group waits for an accumulator slot, which counts as a hold in RGROW (R272). -/
def slotWaits (gr : Group) : Bool := gr.warps.any fun w => w.holds.any fun h => h.kind == .slotWait

/-- Blocked for registers (R139, R272, R342): some lane group waits for rows, and none is ready. -/
def blocked (s : State) (gr : Group) : Bool :=
  (!(rowRequests s gr).isEmpty || slotWaits gr || trapWaits s gr) && !gr.warps.any warpReady

/-- The request of the lowest group cannot be met (R139, R353, R358): GROWX at the word that waits, with the lanes it was live
in, or the end of the context where the temporary rows of a trap entry are lacking. Sub-groups that a ULCALL has not started
go with it. -/
def growFault (s : State) (gr : Group) : State :=
  match rowRequests s gr with
  | r :: rest => match heldEnv s gr.id r.warp r.hold with
    | some e =>
      let subs := (r :: rest).filterMap fun x => if x.warp = r.warp ∧ x.hold = r.hold then x.sub else none
      let s1 := subs.foldl removeGroup s
      takeFault (dropHold s1 gr.id r.warp r.hold) gr.id r.warp
        (recordOf s e .growx e.live (BitVec.ofNat 64 r.need) (BitVec.ofNat 64 r.asked))
    | none => s
  | [] => match gr.warps.findSome? (·.fault) with
    | some r =>
      let temps := tempRegs gr.granted
      contextEnd s gr.ctx (some r) { r with code := .growx, handler := true, d0 := BitVec.ofNat 64 temps.length, d1 := BitVec.ofNat 64 (temps.head?.getD 0) }
    | none => s

/-- After a save under R139 the lane groups that wait for an accumulator slot try again (R272), and the waiting request of the
group with the lowest logical index is served. -/
def serveAfter (s : State) (g : Nat) : State :=
  match group? s g with
  | some gr => if gr.life == .saved && gr.cause == some .deadlock then
      let t := retryAccept s
      (match firstRequest t gr.core with
        | some r => serveRows t gr.core r
        | none => t)
    else s
  | none => s

/-- REGISTER_DEADLOCK_SAVE (R139). -/
def execRegisterDeadlockSave (c : Nat) (s : State) : Host.Outcome State Fault Refusal :=
  .next (
    let gs := inLogical s c
    if gs.isEmpty || !gs.all (blocked s) || (firstRequest s c).isSome then s else
    let mateResident (g : Group) : Bool := match gang? s g.id with
      | some x => x.groups.any fun h => h != g.id && (match group? s h with | some y => y.life == .resident | none => false)
      | none => false
    match (gs.reverse.filter fun g => !mateResident g && g.logits.isNone), gs with
    | v :: _, _ :: _ :: _ => serveAfter (haltAndSave s v.id .deadlock) v.id
    | _, low :: _ => growFault s low
    | _, [] => s)

/-! ## Ends -/

/-- The warps of a group that wait for the others (R147, R374): the lowest issues again when a warp has ended.
Which warp faults where the last one that is not at FREEZE ends and the held counts differ is the model's choice: the lowest
(R146, log entry 67). -/
def retryWhole (gr : Group) : Group :=
  let live := gr.warps.filter fun w => !w.ended
  let waits (w : Warp) : Bool := w.holds.any fun h => match h.kind with | .tnest | .tsave _ _ | .tload _ => true | _ => false
  let uneven := live.all (fun w => (freezeCount w).isSome) && live.any fun w => freezeCount w != (live.head?.bind freezeCount)
  if !live.isEmpty && (live.all waits || uneven) then
    match live.head? with
    | some x => { gr with warps := gr.warps.map fun w => if w.index = x.index then dropHolds? w fun h => match h.kind with
        | .tnest | .tsave _ _ | .tload _ => true
        | .freeze _ => uneven
        | _ => false else w }
    | none => gr
  else gr

/-- WARP_END (R115). -/
def execWarpEnd (group warp : Nat) (s : State) : Host.Outcome State Fault Refusal :=
  .next (match group? s group, warp? s group warp with
    | some gr, some wp =>
      if wp.ended || !(wp.lanes.all (·.exited)) || !wp.outs.isEmpty || gr.life != .resident then s else
      let s1 := modWarp s group warp fun x => { x with ended := true, handler := none, parked := none, holds := [], predictor := [], yielding := none }
      modGroup (modCore s1 gr.core fun c => { c with active := c.active.filter (· != (group, warp)) }) group retryWhole
    | _, _ => s)

/-- The sub-instances of an ended nesting instance have all ended, or no further one starts (R138, R160). -/
def nestOver (s : State) (gr : Group) : Bool :=
  gr.children == 0 || (((grid? s gr.grid).map (·.stopped)).getD true && !(s.groups.any fun x => (nestOf s x.2).map (fun o => o.1.id) == some gr.id))

/-- The group has nothing left, and no write of it waits at its home (R128, R148, R151, R159). -/
def groupOver (s : State) (gr : Group) : Bool :=
  (gr.life == .resident && gr.warps.all (·.ended) && (s.pend.all fun p => p.group != gr.id || !stuckWrite s p) && (s.copies.all fun c => c.group != gr.id) && (s.matops.all fun m => m.group != gr.id) &&
    ((core s gr.core).launches.all fun l => l.1 != gr.id)) || (gr.life == .ended && nestOver s gr)

/-- The result of a finished sub-group in its caller's word (R342): v[D] of its lane, and the request of its slot. -/
def settleSub (s : State) (gr : Group) : State :=
  match gr.kind, gr.logits with
  | .subgroup o w l, some (_, st, slot, _) => match group? s o, (warp? s o w).bind fun wp => wp.holds.find? fun h => match h.kind with
      | .ulcall _ subs => subs.any (·.2 == gr.id)
      | _ => false with
    | some og, some h => match h.kind, heldEnv s o w h with
      | .ulcall d subs, some e =>
        let rest := subs.filter (·.2 != gr.id)
        let s1 := if st = 0 then s else match tableLoop s og with
          | some x => match putRequest s e x.2.2.k56 slot 4 st with | .ok t => t | .error _ => s
          | none => s
        let s2 := writeReg s1 o w d l (BitVec.ofNat 32 st)
        let h2 : HoldRec := { h with kind := .ulcall d rest }
        let s3 := modWarp s2 o w fun x => { x with holds := x.holds.map fun y => if y == h then h2 else y }
        if rest.isEmpty then modWarp s3 o w (endHold h2) else s3
      | _, _ => s
    | _, _ => s
  | _, _ => s

/-- The deferred faults of a group that ends are reported (R286, R314): event kind 1, and the node fails. -/
def reportDeferred (s : State) (gr : Group) : State :=
  match gr.warps.flatMap fun w => w.deferred.map (·.2) with
  | [] => s
  | rs => failGroupNode (rs.foldl (fun t r => postCtx t gr.ctx 1 r.pc.toNat 0 0 (some r)) s) gr 5

/-- The free count of a die (R162): 16 for each core, less the groups that are resident and those queued, in all. -/
def freeCount (s : State) (d : Nat) : Nat :=
  192 * 16 - ((List.range 192).map fun i => (residentOn s (192 * d + i)).length).sum - (die s d).queue.length

/-- The completion word that the end of a group increments: of its nested prologue, or of the child grid whose last group
it is (R148, R151). A sub-instance that has nested ended at its FREEZE (R138). -/
def endWord (s : State) (gr : Group) : Option DWord :=
  match nestOf s gr with
  | some (_, some va) => if gr.life = .ended then none else some va
  | _ => match grid? s gr.grid with
    | some g => if g.word ≠ 0 ∧ (gr.kind = .prologue ∨ (g.ended + 1 = g.count ∧ g.next = g.count)) then some g.word else none
    | none => none

/-- A group counts complete to its grid and leaves the device (R128, R138); what its threads did happens-before the end of its node
(R159); the free count is reported (R162). A failed graph ends with the last group of its failed nodes (R160). -/
def countGroup (s : State) (gr : Group) : State :=
  let s0 := match nodeOf s gr with | some (g, n) => sendAlong (.node g n) (relView s (dieOf gr.core)) s | none => s
  let s1 := match gr.kind with
    | .prologue => modGrid s0 gr.grid fun g => { g with count := 0, next := 0 }
    | _ => modGrid s0 gr.grid fun g => { g with ended := g.ended + 1 }
  let s2 := match nestOf s gr with
    | some (o, _) => modGroup s1 o.id fun x => { x with children := x.children - 1 }
    | none => s1
  let s3 := { s2 with tmpls := s2.tmpls.filter fun t => t.owner != some gr.id }
  let d := dieOf gr.core
  let s4 := dropTemplates (removeGroup s3 gr.id) gr.grid
  let s5 := modDie s4 d fun x => { x with free := freeCount s4 d }
  match nodeOf s gr with
  | some (g, _) => settleRanges (graphEndCheck s5 g)
  | none => s5

/-- The host has cancelled the graph of a group that still runs (R160, R240, R268, R378; log entry 52). -/
def cancelledRun (s : State) (gr : Group) : Bool :=
  (gr.life == .resident || gr.life == .saved) && gr.logits.isNone &&
  match (grid? s gr.grid).bind fun g => graph? s g.graph with
  | some x => x.cancelled && !x.ended
  | none => false

/-- A group that spins in a cancelled graph ends where it stands; its user logit kernels end with it. -/
def endCancelled (s : State) (gr : Group) : State :=
  countGroup (((subsOf s gr.id).map (·.id)).foldl removeGroup (drainDie s (dieOf gr.core))) gr

/-- What the release of a completion word covers as a group ends (R148, R151, R159): what its die has performed and seen, and for
the word of a child grid the groups of its node that have ended. -/
def endView (s : State) (gr : Group) : View :=
  match nodeOf s gr with
  | some (g, n) => if (nestOf s gr).isSome then relView s (dieOf gr.core) else (edgeView s (.node g n)).join (relView s (dieOf gr.core))
  | none => relView s (dieOf gr.core)

/-- GROUP_END (R115, R128, R138, R148, R342). -/
def execGroupEnd (group : Nat) (s : State) : Host.Outcome State Fault Refusal :=
  .next (if waiting s (.groupEnd group) then s else match group? s group with
    | none => s
    | some gr => if !groupOver s gr then (if cancelledRun s gr then endCancelled s gr else s) else
      match gr.kind with
      | .subgroup _ _ _ => removeGroup (settleSub s gr) group
      | _ =>
        let s1 := reportDeferred (drainDie s (dieOf gr.core)) gr
        match endWord s1 gr with
        | some va => match devIncrement s1 (endView s1 gr) gr.ctx (gens s1 gr) va with
          | .ok s2 => countGroup s2 gr
          | .wait x => devWait s1 (.groupEnd group) gr.ctx x
          | .bad c x => match grid? s1 gr.grid with
            | some g => countGroup (devRefused s1 gr.ctx g.graph g.node c x) gr
            | none => countGroup s1 gr
          | .hole => countGroup s1 gr
        | none => countGroup s1 gr)

/-! ## Child grids -/

/-- A split field keeps R155. -/
def splitOk (sp : Nat) : Bool :=
  decide (1 ≤ sp % 32) && decide (sp % 32 ≤ 16) && decide (sp < 32768) && sp % 32 + sp / 32 % 32 + sp / 1024 == 16

/-- A kernel's resources keep R155: split, registers, scratchpad and warps. -/
def kernelOk (split regs spm warps : Nat) : Bool :=
  splitOk split && decide (1 ≤ regs) && decide (regs ≤ 32) && decide (spm ≤ 65536 * (split / 32 % 32)) && decide (1 ≤ warps) && decide (warps ≤ 32)

/-- A launch block keeps R151. -/
def blockOk (b : List Byte) : Bool :=
  let templated := field b 23 1 == 1
  decide (field b 23 1 ≤ 1) && decide (1 ≤ field b 16 4) && decide (field b 16 4 < 2 ^ 24) && decide (1 ≤ field b 21 1) &&
  decide (field b 21 1 ≤ 16) && decide (field b 22 1 ≤ 3) && kernelOk (field b 32 2) (field b 34 1) (field b 36 4) (field b 20 1) &&
  (b.drop 48).all (· == 0) && (if templated then field b 16 4 == 1 && field b 40 8 % 8 == 0 else field b 40 8 == 0)

/-- A template record keeps R151 and R156. -/
def recordOk (b : List Byte) : Bool :=
  field b 0 8 % 256 == 0 && field b 8 4 % 256 == 0 && decide (field b 12 4 ≤ 2 ^ 20) && field b 12 4 % 256 == 0 &&
  field b 16 8 % 65536 == 0 && (field b 12 4 != 0 || field b 16 8 == 0) && field b 24 8 % 64 == 0

/-- Scratchpad bytes rounded up to whole granules (R127). -/
def roundSpm (n : Nat) : Nat := (n + 255) / 256 * 256

/-- Whether a gang of n such groups fits the cores of an empty die, and one group an empty core (R128, R160). -/
def fitsDie (split : BitVec 16) (warps rows spm gangN : Nat) : Bool :=
  let per := min 16 (min (64 / max 1 warps) (min (splitRows split / max 1 rows) (if spm = 0 then 16 else splitSpm split / spm)))
  fitsCore split warps rows spm && decide (gangN ≤ 192 * per)

/-- The grid of a launch block. -/
def childGrid (p : Grid) (id : Nat) (b r : List Byte) : Grid :=
  { p with
    id := id, stage := none, parent := some p.id, tmpl := none, templated := field b 23 1 == 1, area := field r 0 8, areaSize := field r 8 4
    heapSize := field r 12 4, heapBase := field r 16 8, pool := field r 24 8, code := BitVec.ofNat 64 (field b 0 8), args := BitVec.ofNat 64 (field b 8 8)
    count := field b 16 4, next := 0, ended := 0, gangN := field b 21 1, warps := field b 20 1, prio := field b 22 1, boost := 0
    split := BitVec.ofNat 16 (field b 32 2), regs := 8 * field b 34 1, spm := roundSpm (field b 36 4), word := BitVec.ofNat 64 (field b 24 8)
    die := none, stopped := false, done := false }

/-- What becomes of a block that has been read with its record (R151, R160). The area of a templated child is held against
its image at capture (R130). The launch is a release by die d that the child's group start acquires. -/
def submitChild (s : State) (d ctx : Nat) (g : Grid) (va : DWord) (b r : List Byte) : State :=
  let templated := field b 23 1 == 1
  let w := field b 20 1
  let n := 8 * field b 34 1
  let sp := roundSpm (field b 36 4)
  let rows := if templated then w * n + w else w * n
  let split := BitVec.ofNat 16 (field b 32 2)
  let f := fresh s
  if !blockOk b || (templated && !recordOk r) then postCtx s ctx 1 va.toNat 0 0 (some (deviceFault s .prot va))
  else if field b 35 1 > Config.featureLevel then failNode s g.graph g.node 2
  else if !fitsDie split w (max rows (w * n)) (if templated then 2 * sp else sp) (field b 21 1) then failNode s g.graph g.node 3
  else if g.stopped then s
  else sendAlong (.grid f.1) (relView s d) { f.2 with grids := f.2.grids ++ [childGrid g f.1 b r] }

/-- A launch block waits for a page that no PAGE_READY has named yet (R431). -/
def blockWaits (s : State) (c : Nat) (x : Nat × Nat × DWord × Option DWord) : Bool :=
  match x.2.2.2 with
  | some va => s.waits.any fun w => w.1 == .launchBlockRead c && w.2.2 == va
  | none => false

/-- LAUNCH_BLOCK_READ (R151): the first block that waits for no page is read, its credit returns, and the child grid joins the
launching node. Only that block waits for a page it lacks (R431). -/
def execLaunchBlockRead (c : Nat) (s : State) : Host.Outcome State Fault Refusal :=
  .next (match indexWhere (fun x => !blockWaits s c x) (core s c).launches with
    | none => s
    | some k => match (core s c).launches[k]? with
      | none => s
      | some (g, w, va, _) =>
        let pop (t : State) : State := modCore t c fun q => { q with launches := dropAt q.launches k }
        let await (gr : Group) (x : DWord) : State :=
          devWait (modCore s c fun q => { q with launches := setAt q.launches k (g, w, va, some x) }) (.launchBlockRead c) gr.ctx x
        match group? s g with
        | none => pop s
        | some gr => match grid? s gr.grid with
          | none => pop s
          | some gd => match devRead s gr.ctx (gens s gr) va 64 64 with
            | .wait x => await gr x
            | .bad cd x => devRefused (pop s) gr.ctx gd.graph gd.node cd x
            | .hole => pop s
            | .ok b =>
              if field b 23 1 = 1 ∧ field b 40 8 % 8 = 0 then
                match devRead s gr.ctx (gens s gr) (BitVec.ofNat 64 (field b 40 8)) 8 32 with
                | .wait x => await gr x
                | .bad cd x => devRefused (pop s) gr.ctx gd.graph gd.node cd x
                | .hole => pop s
                | .ok r => submitChild (pop s) (dieOf c) gr.ctx gd va b r
              else submitChild (pop s) (dieOf c) gr.ctx gd va b (zeros 32))

end Sys2Proof.Machine
end

