-- ==== Sys2Proof/Machine/Outside.lean ====
section
/-! DEFINITION. Writes that reach their home: those of warps (R123, R219, R237), of host agents (R238, R136, R250, R251) and
of peer devices (R397); and the ends of waits: WAITA (R221, R222), SLEEP, YIELD, budgets and queue words. -/

namespace Sys2Proof.Machine

/-! ## Writes of warps -/

/-- The oldest pending write that has to be performed before write number i of the list; that write itself if none. -/
def firstWrite (s : State) (i : Nat) (p : PendWrite) : Option PendWrite := (chain s (s.pend.take i) (fun _ => false) [p]).1.head?

/-- WRITE_PERFORMED (R123, R219): a write of a warp is performed at the core's L1 first, and then at its home; one whose
line cannot be written back is lost with it (R414). -/
def execWritePerformed (idx : Nat) (s : State) : Host.Outcome State Fault Refusal :=
  .next (match s.pend[idx]? with
    | none => s
    | some p =>
      if !p.atL1 then { s with pend := modAt s.pend idx fun q => { q with atL1 := true } }
      else match firstWrite s idx p with
        | some q => if l1Spoiled s q then failL1 s q else if stuckWrite s q then s else performWrite { s with pend := s.pend.erase q } q
        | none => s)

/-! ## Writes of host agents and peers -/

/-- A write of a host agent joins those not yet performed where it must wait: for a pinned page-table line (R305), a region
under build (R259), or an earlier write: to a common line, or any over PCIe (R238). -/
def hostWaits (s : State) (p : PendWrite) : Bool := stuckWrite s p || s.pend.any fun q => precedes s q p

/-- A write of an agent outside the cores that waits at its home. -/
def pendOutside (s : State) (agent addr : Nat) (data : List Byte) : PendWrite :=
  { die := agent, group := 0, warp := 0, lane := 32, addr := addr, data := data, atL1 := true, uncached := true, level := 0, store := s.tick
    half := 0, release := false, rel := none }

/-- A write from outside is performed, or waits. -/
def arriveOutside (s : State) (agent addr : Nat) (data : List Byte) : State :=
  let p := pendOutside s agent addr data
  if hostWaits s p then { s with pend := s.pend ++ [p] } else outsideWrite s agent addr data

/-- HOST_WRITE (R238): to device memory, or to host memory at 2^58 plus its address (log entry 26). With
the link down nothing arrives. -/
def execHostWrite (addr : Nat) (data : List Byte) (s : State) : Host.Outcome State Fault Refusal :=
  .next (
    if 2 ^ 58 ≤ addr then homeWrite s 5 none 1 (addr - 2 ^ 58) data none false
    else if !s.mgmt.linkUp then s
    else if addr + data.length > physTop then s
    else arriveOutside s 5 addr data)

/-- PEER_WRITE (R397): an access that arrives on a port is translated for the bound context; a refusal is reported to the
context's function as event kind 8. -/
def execPeerWrite (port ctx : Nat) (va : DWord) (data : List Byte) (s : State) : Host.Outcome State Fault Refusal :=
  .next (
    let refuse : State := postCtx s ctx 8 va.toNat 0 0 none
    match s.ports[port]? with
    | none => s
    | some q => if !q.up then s
      else if !(q.bindings.any fun b => b.1 == ctx && b.2.2) then refuse
      else match translate s 4 ctx (genOfCtx s ctx) va { kind := 1, need := 2 } with
        | .ok l =>
          if l.sys || decide (va.toNat % 65536 + data.length > 65536) then refuse else arriveOutside s (6 + port) l.addr data
        | _ => refuse)

/-! ## The ends of waits -/

/-- WAITA reads its locations again (R221); with `stop` its timeout has passed (R222). -/
def againWait (group warp hold : Nat) (stop : Bool) (s : State) : State :=
  match group? s group, hold? s group warp hold with
  | some gr, some h => match h.kind with
    | .waita spm wide c _ timed _ _ ls =>
      if gr.life ≠ .resident ∨ (stop = true ∧ timed = false) then s
      else settleWait s group warp h (rewatch s gr spm wide c false (fun _ => true) ls) stop
    | _ => s
  | _, _ => s

/-- WAITA_REREAD (R221): a write on a watched sector. -/
def execWaitaReread (group warp hold : Nat) (s : State) : Host.Outcome State Fault Refusal := .next (againWait group warp hold false s)

/-- WAITA_POLL (R221): every 256 cycles, or every microsecond on a host page, without a watch entry. -/
def execWaitaPoll (group warp hold : Nat) (s : State) : Host.Outcome State Fault Refusal := .next (againWait group warp hold false s)

/-- WAITA_TIMEOUT (R222). -/
def execWaitaTimeout (group warp hold : Nat) (s : State) : Host.Outcome State Fault Refusal := .next (againWait group warp hold true s)

/-- SLEEP_EXPIRY (R153). -/
def execSleepExpiry (group warp hold : Nat) (s : State) : Host.Outcome State Fault Refusal :=
  .next (match hold? s group warp hold with
    | some h => if h.kind = .sleep then modWarp s group warp (endHold h) else s
    | none => s)

/-- YIELD_RETURN (R152): the warp returns to the choice; in fixed-star mode only once its set is empty. -/
def execYieldReturn (group warp : Nat) (s : State) : Host.Outcome State Fault Refusal :=
  .next (match group? s group, warp? s group warp with
    | some gr, some wp => match wp.yielding with
      | some l => if fixedOf s gr.grid && !l.isEmpty then s else modWarp s group warp fun x => { x with yielding := none }
      | none => s
    | _, _ => s)

/-- ULCALL_BUDGET_EXPIRY (R342): the sub-group ends with BUDGET; in fixed-star mode once it has issued its words. -/
def execUlcallBudgetExpiry (group : Nat) (s : State) : Host.Outcome State Fault Refusal :=
  .next (match group? s group with
    | some gr => match gr.logits with
      | some (b, 0, slot, n) =>
        if gr.life ≠ .resident ∨ (fixedOf s gr.grid ∧ spent s gr = false) then s
        else modGroup s group fun x => { stopWarps x with logits := some (b, Code.num .budget, slot, n) }
      | _ => s
    | none => s)

/-! ## Queue words -/

/-- A held queue word's own answer completes it in place; a fault is taken by the word as it issues again. -/
def finishHeld (s : State) (g w : Nat) (h : HoldRec) (r : WordRes) : State :=
  match r with
  | .done t => modWarp t g w (endHold h)
  | .jump t => modWarp t g w (endHold h)
  | _ => dropHold s g w h

/-- QUEUE_PUSH_RESERVE (R179): room for every live lane; a closed queue lets the word fault. -/
def execQueuePushReserve (group warp hold : Nat) (s : State) : Host.Outcome State Fault Refusal :=
  .next (match hold? s group warp hold with
    | some h => match h.kind, h.instr, heldEnv s group warp h with
      | .qpush, some (.qpush _ w q a), some e => match queue? s e.gr q.toNat with
        | some (g, u) =>
          if u.closed then dropHold s group warp h
          else if Queue.held u + (lanesOf e.live).length ≤ u.cap then finishHeld s group warp h (pushLanes e s g q.toNat u w a fun x => .done x)
          else s
        | none => dropHold s group warp h
      | _, _, _ => s
    | none => s)

/-- QUEUE_POP_RESERVE (R180): an entry for every live lane, or a closed queue. -/
def execQueuePopReserve (group warp hold : Nat) (s : State) : Host.Outcome State Fault Refusal :=
  .next (match hold? s group warp hold with
    | some h => match h.kind, h.instr, heldEnv s group warp h with
      | .qpop, some (.qpop _ w q d c), some e => match queue? s e.gr q.toNat with
        | some (g, u) =>
          if u.closed ∨ (lanesOf e.live).length ≤ Queue.held u then finishHeld s group warp h (popLanes e s g q.toNat u w d c fun x => .done x)
          else s
        | none => dropHold s group warp h
      | _, _, _ => s
    | none => s)

end Sys2Proof.Machine
end

