-- ==== Sys2Proof/Machine/Scheduler.lean ====
section
/-! DEFINITION. Lodestar, the die dispatchers, split transitions, stage sets and node life (R154 to R173), and loop nodes
with their batching tables (R171, R325 to R329). -/

namespace Sys2Proof.Machine

/-! ## Partitions and slices -/

/-- The cores of a partition, in order of (die, core) (R173, R399). -/
def partCores (s : State) (p : Nat) : List Nat := (List.range 768).filter fun c => (partAt s p).halves.getLsbD (halfOf c)

/-- The dies that hold a half of a partition. -/
def partDies (s : State) (p : Nat) : List Nat :=
  (List.range 4).filter fun d => (partAt s p).halves.getLsbD (2 * d) || (partAt s p).halves.getLsbD (2 * d + 1)

/-- The entries a partition runs cyclically: its table, or one for each function assigned to it (R403). -/
def sliceEntries (s : State) (p : Nat) : List (Nat × Nat × Nat) :=
  if (partAt s p).quanta.isEmpty then (s.fns.filter (·.part == p)).map fun f => (2000, 4, f.id) else (partAt s p).quanta

/-- The function whose slice it is (R403). -/
def sliceFn (s : State) (p : Nat) : Option Nat :=
  ((sliceEntries s p)[(partAt s p).current % max 1 (sliceEntries s p).length]?).map fun x => x.2.2

/-- A context's groups may become resident now (R401, R403). -/
def hasSlice (s : State) (c : Nat) : Bool :=
  sliceFn s (partOfCtx s c) == some (fnOfCtx s c) && !(partAt s (partOfCtx s c)).stopped

/-- The batch quantum of a context (R161, R403): 4 when unset. -/
def batchQuantum (s : State) (c : Nat) : Nat :=
  match (partAt s (partOfCtx s c)).quanta.find? fun x => x.2.2 == fnOfCtx s c with
  | some x => if x.2.1 = 0 then 4 else x.2.1
  | none => 4

/-! ## The order of R161 -/

/-- Something Lodestar orders: level, context, sequence, and what it is. -/
abbrev Served := Nat × Nat × Nat × Nat

/-- The context served among those of a partition with items at a level (R161); that the rotation goes to
the next context number is the model's choice (log entry 67). -/
def servedCtx (s : State) (level : Nat) (cs : List Nat) : Option Nat :=
  let r := s.lode[4 * partOfCtx s (cs.head?.getD 0) + level]?.getD (0, 0)
  if cs.contains r.1 && decide (r.2 < batchQuantum s r.1) then some r.1
  else match cs.find? fun c => decide (r.1 < c) with
    | some c => some c
    | none => cs.head?

/-- The first in the order of R161. -/
def firstServed (s : State) (l : List Served) : Option Served :=
  let top := (l.map (·.1)).foldl max 0
  let at_ := l.filter (·.1 == top)
  match servedCtx s top ((at_.map (·.2.1)).foldl sins []) with
  | some c => (sortOn (·.2.2.1) (at_.filter fun x => x.2.1 == c)).head?
  | none => none

/-- A context has been handed a batch at a level. -/
def handBatch (s : State) (level c : Nat) : State :=
  { s with lode := modAt s.lode (4 * partOfCtx s c + level) fun r => if r.1 = c then (c, r.2 + 1) else (c, 1) }

def effPrio (g : Grid) : Nat := min 3 (g.prio + g.boost)

/-! ## Starting a node -/

/-- The generations in effect for the groups of a node that starts now (R333). -/
def gensAtStart (s : State) (c : Nat) : List (Nat × Nat) :=
  (((ctx? s c).map (·.maps)).getD []).filterMap fun m => (genOfCtx s c m.1).map fun g => (m.1, g)

/-- The ready nodes as Lodestar orders them. Two points are the model's choices (log entry 67): no node starts after a failure of
its graph, not even one that was ready before (R160), and ready nodes stand in the order of graph number and node index (R161). -/
def readyNodes (s : State) : List Served :=
  s.graphs.flatMap fun g => if g.ended || g.failed.isSome then [] else
    (List.range g.nodes.length).filterMap fun i => match g.nodes[i]? with
      | some n => if n.life = .ready then some (n.prio, g.ctx, 4096 * g.id + i, i) else none
      | none => none

/-- The grid of a grid node. -/
def nodeGrid (g : Graph) (i : Nat) (n : Node) (id : Nat) : Grid :=
  let templ := n.kind == 1
  { id := id, graph := g.id, node := i, ctx := g.ctx, stage := none, parent := none, tmpl := none, templated := templ
    area := if templ then n.k40.toNat else 0
    areaSize := if templ then n.k48.toNat % 2 ^ 32 else 0
    heapSize := if templ then n.k48.toNat / 2 ^ 32 else 0
    heapBase := if templ then n.k56.toNat else 0
    pool := if templ then n.k64.toNat else 0
    code := n.code, args := n.args, count := n.count, next := 0, ended := 0, gangN := n.gangN, warps := n.warps, prio := n.prio, boost := 0
    split := n.split, regs := 8 * n.regs, spm := roundSpm n.spm, word := 0, die := none, stopped := false, done := false }

/-- The die that a stage-set node names (R156). -/
def stageDie (n : Node) : Option Nat := if n.k48.toNat / 256 % 256 = 0xFF then none else some (n.k48.toNat / 256 % 256)

/-- The grid of a stage: it starts with the minimum groups (R168). -/
def stageGrid (g : Graph) (i : Nat) (n : Node) (k : Nat) (x : Stage) (id : Nat) : Grid :=
  { nodeGrid g i { n with kind := 0 } id with
    stage := some k, code := x.code, args := x.args, count := x.min, gangN := 1, warps := x.warps, split := x.split, regs := 8 * x.regs
    spm := roundSpm x.spm, die := stageDie n }

/-- The stages of a stage-set node. -/
def stagesOf (g : Graph) (i : Nat) : List Stage := ((g.stages.find? (·.1 == i)).map (·.2)).getD []

def modStage (s : State) (g i k : Nat) (f : Stage → Stage) : State :=
  modGraph s g fun x => { x with stages := x.stages.map fun p => if p.1 = i then (i, modAt p.2 k f) else p }

/-- Why a node cannot start: FEATURE, GANGFIT (R160). -/
def startTrouble (g : Graph) (i : Nat) (n : Node) : Option Nat :=
  match n.kind with
  | 0 => if n.feat > Config.featureLevel then some 2
    else if fitsDie n.split n.warps (n.warps * (8 * n.regs)) (roundSpm n.spm) n.gangN then none else some 3
  | 1 => if n.feat > Config.featureLevel then some 2
    else if fitsDie n.split n.warps (n.warps * (8 * n.regs)) (roundSpm n.spm) 1 then none else some 3
  | 2 => if (stagesOf g i).any fun x => decide (x.feat > Config.featureLevel) then some 2
    else if (stagesOf g i).all fun x => fitsDie x.split x.warps (x.warps * (8 * x.regs)) (roundSpm x.spm) 1 then none else some 3
  | _ => none

/-- Starts a node's grids. -/
def startGrids (s : State) (g : Graph) (i : Nat) (n : Node) : State :=
  match n.kind with
  | 0 | 1 =>
    let f := fresh s
    modNode (sendAlong (.grid f.1) (edgeView s (.node g.id i)) { f.2 with grids := f.2.grids ++ [nodeGrid g i n f.1] }) g.id i fun x =>
      { x with grid := some f.1 }
  | 2 => (List.range (stagesOf g i).length).foldl (fun t k => match (stagesOf g i)[k]? with
      | some x =>
        let f := fresh t
        modStage (sendAlong (.grid f.1) (edgeView s (.node g.id i)) { f.2 with grids := f.2.grids ++ [stageGrid g i n k x f.1] }) g.id i k fun y =>
          { y with grid := some f.1, done := false }
      | none => t) (modGraph s g.id fun x => { x with queues := x.queues.mapIdx fun q u =>
          if ((stagesOf g i).any fun y => y.qin == q || y.qout == q) then { u with head := 0, tail := 0, closed := false } else u })
  | _ => s

/-- What happens-before the start of a node (R159): the ends of its predecessors and of the iteration before, and the submission,
whose number among a graph's edges is 65,536. -/
def startView (s : State) (g : Graph) (i : Nat) (n : Node) : View :=
  (65536 :: (n.sat.map (· / 8) ++ loopsAround g i)).foldl (fun v j => v.join (edgeView s (.node g.id j))) View.empty

/-- Old instruction bytes are kept only while some node runs (R229). -/
def forgetOld (s : State) : State :=
  if (s.graphs.any fun g => g.nodes.any fun x => x.life == .running) then s else { s with codeOld := [] }

/-- NODE_START (R158, R160, R161): the first ready node starts; its start is an acquire (R159). -/
def execNodeStart (s : State) : Host.Outcome State Fault Refusal :=
  .next (match firstServed s (readyNodes s) with
    | none => s
    | some (_, _, key, i) => match graph? s (key / 4096), node? s (key / 4096) i with
      | some g, some n =>
        let s1 := modNode (forgetOld s) g.id i fun x => { x with life := .running, gens := gensAtStart s g.ctx, looping := false, iter := 0, adopted := none, active := [] }
        match startTrouble g i n with
        | some r => failNode s1 g.id i r
        | none => startGrids (sendAlong (.node g.id i) (startView s g i n) s1) g i n
      | _, _ => s)

/-! ## The completion of nodes and graphs -/

/-- What a node's own work has come to (R158, R169). A stage set waits for the child grids of its groups too (R151); that of
a failed graph ends without completing (R160). -/
def nodeOver (s : State) (g : Graph) (i : Nat) (n : Node) : Bool :=
  match n.kind with
  | 0 | 1 => n.life == .running && (gridsOf s g.id i).all gridOver && nodeIdle s g.id i
  | 2 => n.life == .running && g.failed.isNone && ((stagesOf g i).getLast?.map (·.done)).getD false &&
    (gridsOf s g.id i).all fun x => x.parent.isNone || (gridOver x && !(s.groups.any fun y => y.2.grid == x.id))
  | _ => n.life == .ending

/-- Every edge that leads from a node is satisfied (R158). -/
def satisfyAll (s : State) (g i : Nat) : State := (List.range 8).foldl (fun t k => satisfyEdge t g i k) s

/-- The nodes of a graph that lie in no loop body. -/
def topNodes (g : Graph) : List Nat := (List.range g.nodes.length).filter fun i => (loopsAround g i).isEmpty

def nodeDone (g : Graph) (i : Nat) : Bool := match g.nodes[i]? with | some n => n.life == .done | none => false

/-- What an open slot command completes with as its graph ends done (R392): the slot as it stands; a removal, all ones
(the spec gives it none). -/
def slotResults (s : State) (g : Graph) : DevRes (List (SlotCmd × Nat)) :=
  g.slotCmds.foldl (fun acc c => match acc with
    | .ok l => if !c.add then .ok (l ++ [(c, 2 ^ 64 - 1)]) else
      match g.nodes[c.node]? with
      | some n => match devRead s g.ctx (nodeGen s g.id c.node) (recordVa n.k56 c.slot) 64 64 with
        | .ok b => .ok (l ++ [(c, c.slot + 65536 * field b 1 1 + 2 ^ 32 * field b 60 4)])
        | .wait x => .wait x
        | .bad cd x => .bad cd x
        | .hole => .hole
      | none => .ok (l ++ [(c, 0)])
    | x => x) (.ok [])

/-- A graph whose last top node has completed ends (R158, R392). -/
def graphDone (s : State) (g : Graph) (res : List (SlotCmd × Nat)) : State :=
  let s1 := closeSlotCmds s g 0 fun c => ((res.find? fun x => x.1 == c).map (·.2)).getD 0
  let live := s1.groups.map fun x => x.2.grid
  let s2 := modGraph s1 g.id fun y => { y with ended := true }
  complete { dropEdges s2 g.id with grids := s2.grids.filter fun x => x.graph != g.id || live.contains x.id } g.cmd 0 0

/-- The node is done: its templates are freed, its edges satisfied, generations settled; a failed graph may have ended
(R134, R158, R160, R334). -/
def finishNode (s : State) (g : Graph) (i : Nat) (res : List (SlotCmd × Nat)) : State :=
  let ids := (gridsOf s g.id i).map (·.id)
  let s1 := modNode { s with tmpls := s.tmpls.filter fun t => !ids.contains t.grid } g.id i fun x => { x with life := .done }
  if g.failed.isSome then settleRanges (graphEndCheck s1 g.id) else
  let s2 := settleRanges (satisfyAll s1 g.id i)
  match graph? s2 g.id with
  | some x => if (topNodes x).all (nodeDone x) then graphDone s2 x res else s2
  | none => s2

/-- NODE_COMPLETION (R155, R158, R159, R431). -/
def execNodeCompletion (graph node : Nat) (s : State) : Host.Outcome State Fault Refusal :=
  .next (if waiting s (.nodeCompletion graph node) then s else match graph? s graph, node? s graph node with
    | some g, some n =>
      if g.ended || !nodeOver s g node n then s else
      let s1 := (List.range 4).foldl drainDie s
      let last := (topNodes g).all fun i => i == node || nodeDone g i
      match (if last then slotResults s1 g else .ok []) with
      | .wait x => devWait s (.nodeCompletion graph node) g.ctx x
      | .bad cd x => devRefused s1 g.ctx graph node cd x
      | .hole => devRefused s1 g.ctx graph node .prot 0
      | .ok res =>
        if n.word = 0 then finishNode s1 g node res
        else match devIncrement s1 (edgeView s1 (.node graph node)) g.ctx (nodeGen s1 graph node) n.word with
          | .ok s2 => finishNode s2 g node res
          | .wait x => devWait s (.nodeCompletion graph node) g.ctx x
          | .bad cd x => devRefused s1 g.ctx graph node cd x
          | .hole => devRefused s1 g.ctx graph node .prot n.word
    | _, _ => s)

/-- A word of host memory is out of reach while the link is down (R407). -/
def devLinkDown (s : State) (c : Nat) (gen : Nat → Option Nat) (va : DWord) : Bool :=
  match devXlat s c gen va 1 1 with
  | .ok l => l.space == 1 && !s.mgmt.linkUp
  | _ => false

/-- What the system-scope acquire of a wait word learns (R158, R232). -/
def watchView (s : State) (c : Nat) (gen : Nat → Option Nat) (va : DWord) : View :=
  match devXlat s c gen va 8 1 with
  | .ok l => heardView true (sources s (memKey l.space l.addr) 8 [])
  | _ => View.empty

/-- HOST_WAIT_WATCH (R158): the wait word is read with system-scope acquire. -/
def execHostWaitWatch (graph node : Nat) (s : State) : Host.Outcome State Fault Refusal :=
  .next (if waiting s (.hostWaitWatch graph node) then s else match graph? s graph, node? s graph node with
    | some g, some n =>
      if n.kind ≠ 4 ∨ n.life ≠ .running ∨ g.ended ∨ devLinkDown s g.ctx (nodeGen s graph node) n.k40 then s else
      match devRead s g.ctx (nodeGen s graph node) n.k40 8 8 with
      | .ok b => if n.k48.toNat ≤ leNat b then
          modNode (sendAlong (.node graph node) (watchView s g.ctx (nodeGen s graph node) n.k40) s) graph node fun x => { x with life := .ending }
        else s
      | .wait x => devWait s (.hostWaitWatch graph node) g.ctx x
      | .bad cd x => devRefused s g.ctx graph node cd x
      | .hole => devRefused s g.ctx graph node .prot n.k40
    | _, _ => s)

/-! ## Batches -/

/-- A stage after the first whose input queue is closed and empty starts no further group (R169). -/
def stageShut (s : State) (g : Grid) : Bool :=
  match g.stage, graph? s g.graph with
  | some k, some x => match (stagesOf x g.node)[k]? with
    | some y => y.done || (y.qin != 0xFFFF && (match x.queues[y.qin]? with | some q => q.closed && Queue.held q == 0 | none => false))
    | none => false
  | _, _ => false

/-- A grid has groups not yet dispatched (R161). -/
def gridWaits (s : State) (g : Grid) : Bool :=
  decide (g.next < g.count) && !g.stopped && !stageShut s g &&
  (match node? s g.graph g.node with | some n => n.life == .running | none => false)

/-- A grid has groups that Lodestar may dispatch: its context has its slice (R403). -/
def gridOpen (s : State) (g : Grid) : Bool := gridWaits s g && hasSlice s g.ctx

/-- The grids of a partition's contexts with undispatched groups, as Lodestar orders them. -/
def openGrids (s : State) (p : Nat) : List Served :=
  (s.grids.filter fun g => partOfCtx s g.ctx == p && gridOpen s g).map fun g => (effPrio g, g.ctx, g.id, g.id)

/-- Where fixed-star mode puts group i of a grid (R173, R399): a core number, of all 768. -/
def fixedCore (s : State) (g : Grid) (i : Nat) : Nat :=
  let p := partOfCtx s g.ctx
  let cores := partCores s p
  if g.gangN ≤ 1 ∨ g.templated ∨ g.tmpl.isSome then (cores[i % max 1 cores.length]?).getD 0
  else
    let dies := partDies s p
    let k := i / g.gangN
    let mine := cores.filter fun c => dieOf c == (dies[k % max 1 dies.length]?).getD 0
    (mine[(k / max 1 dies.length * g.gangN + i % g.gangN) % max 1 mine.length]?).getD 0

/-- The die the next batch of a grid goes to (R162, R173). -/
def batchDie (s : State) (g : Grid) : Option Nat :=
  if fixedOf s g.id then some (dieOf (fixedCore s g g.next)) else
  match g.die with
  | some d => some d
  | none => ((partDies s (partOfCtx s g.ctx)).foldl (fun best d => match best with
      | some b => if (die s b).free < (die s d).free then some d else best
      | none => some d) none)

/-- The groups of the next batch (R162): whole gangs, as many as the die can take; in fixed-star mode those in a row that
go to one die. -/
def batchSize (s : State) (g : Grid) (d : Nat) : Nat :=
  let left := g.count - g.next
  let room := min (min 64 left) (min (die s d).free (128 - (die s d).queue.length))
  let n := if fixedOf s g.id then min room ((List.range room).takeWhile fun j => dieOf (fixedCore s g (g.next + j)) == d).length else room
  if n = left then n else n / max 1 g.gangN * max 1 g.gangN

/-- The v2 of an instance (R23): as captured, with bit 31 set. -/
def instanceV2 (t : Template) (w : Nat) : List (Nat × Word) :=
  (List.range 32).map fun l => (64 + l, tmplReg t w (64 + l) ||| 0x80000000)

/-- The warps an instance starts with (R131). -/
def instanceWarps (t : Template) : List Warp :=
  t.warps.map fun x =>
    { newWarp x.1 0 0 (instanceV2 t x.1) with
      priv := [2], lanes := x.2.map fun l => { pc := l.1, exited := l.2, yields := 0, age := 0 } }

/-- Group i of a grid as it is dispatched (R21, R23, R131). -/
def makeGroup (s : State) (g : Grid) (id i core : Nat) : Group :=
  let fixed := fixedOf s g.id
  match g.tmpl.bind (tmpl? s) with
  | some t => newGroup id g.ctx g.id i (.instance_ t.id) t.depth core (i / max 1 g.gangN) t.warps.length t.granted t.spmSize g.split g.code g.args
      fixed (instanceWarps t)
  | none => newGroup id g.ctx g.id i (if g.templated then .prologue else .plain) 0 core (i / max 1 g.gangN) g.warps g.regs g.spm g.split g.code g.args
      fixed ((List.range g.warps).map fun w => startWarp w g.code (startRegs w i (i % max 1 g.gangN) g.args))

/-- Adds a group to its gang, a new one with the first (R141). -/
def joinGang (s : State) (g : Grid) (i id : Nat) : State :=
  match (if i % max 1 g.gangN = 0 then none else s.gangs.find? fun x => x.grid == g.id && x.groups.any fun h =>
      ((group? s h).map fun y => y.index / max 1 g.gangN == i / max 1 g.gangN).getD false) with
  | some x => { s with gangs := s.gangs.map fun y => if y.id = x.id then { y with groups := y.groups ++ [id] } else y }
  | none =>
    let f := fresh s
    { f.2 with gangs := f.2.gangs ++ [{ id := f.1, grid := g.id, groups := [id], phase := 0 }] }

/-- Sends one group to a die. -/
def sendGroup (g : Grid) (d : Nat) (s : State) (i : Nat) : State :=
  let f := fresh s
  let c := if fixedOf s g.id then fixedCore s g i else 192 * d
  let s1 := joinGang (putGroup f.2 (makeGroup s g f.1 i c)) g i f.1
  modDie s1 d fun x => { x with queue := x.queue ++ [f.1], free := x.free - 1 }

/-- Sends a batch of n groups. -/
def sendBatch (s : State) (g : Grid) (d n : Nat) : State :=
  let s1 := ((List.range n).map (g.next + ·)).foldl (sendGroup g d) s
  let whole := (s1.grids.filter fun x => x.graph == g.graph && x.node == g.node).map (·.id)
  let s2 := { s1 with grids := s1.grids.map fun x =>
    if x.id = g.id then { x with next := x.next + n, boost := 0, die := if g.stage.isSome then some d else x.die }
    else if g.stage.isSome ∧ whole.contains x.id ∧ x.die.isNone then { x with die := some d } else x }
  handBatch s2 (effPrio g) g.ctx

/-- The batch of a grid that stands first in its partition, if its die can take one. -/
def serveGrid (s : State) (x : Served) : Option State :=
  match grid? s x.2.2.2 with
  | some g => match batchDie s g with
    | some d => if batchSize s g d = 0 then none else some (sendBatch s g d (batchSize s g d))
    | none => none
  | none => none

/-- LODESTAR_BATCH (R161, R162, R173): the first grid of a partition is served; while it cannot be, no other of its
partition is. The partitions follow one another by the level of their first grids. -/
def execLodestarBatch (s : State) : Host.Outcome State Fault Refusal :=
  .next (((sortOn (fun x => 3 - x.1) ((List.range 8).filterMap fun p => firstServed s (openGrids s p))).findSome? (serveGrid s)).getD s)

/-- PRIORITY_AGEING (R161): 10 ms without a dispatched group raise the grid one level, in its slice or out of it. -/
def execPriorityAgeing (grid : Nat) (s : State) : Host.Outcome State Fault Refusal :=
  .next (match grid? s grid with
    | some g => if gridWaits s g && decide (effPrio g < 3) then modGrid s grid fun x => { x with boost := x.boost + 1 } else s
    | none => s)

/-- FREE_COUNT_REPORT (R162). -/
def execFreeCountReport (die : Nat) (s : State) : Host.Outcome State Fault Refusal :=
  .next (modDie s die fun x => { x with free := freeCount s die })

/-! ## Placement -/

/-- What a group needs of a core for its template's image: rows and scratchpad, none where it is loaded (R133). -/
def imageNeed (s : State) (c : Nat) (gr : Group) : Nat × Nat :=
  match gr.kind.tmpl?.bind (tmpl? s) with
  | some t => if (core s c).images.contains t.id then (0, 0) else (t.warps.length * t.granted, t.spmSize)
  | none => (0, 0)

/-- The warps of a group that have not ended. -/
def liveWarps (gr : Group) : Nat := (gr.warps.filter fun w => !w.ended).length

/-- Free physical accumulator slots of a core (R272). -/
def freeAcc (s : State) (c : Nat) : Nat := ((core s c).slots.filter fun x => !x.used).length

/-- No group of another domain that has its slice was queued for a core before a group (R164): those of fixed-star mode, whose core
R173 names (log entry 69). -/
def queuedFirst (s : State) (c : Nat) (gr : Group) : Bool :=
  ((die s (dieOf c)).queue.takeWhile fun g => g != gr.id).all fun g => match group? s g with
    | some x => x.ctx == gr.ctx || x.core != c || !fixedOf s x.grid || !hasSlice s x.ctx || !((die s (dieOf c)).queue.contains gr.id)
    | none => true

/-- A core can take a group now (R127, R133, R164, R289, R403): one without a working macro only until its context leaves it
(R416). -/
def canAdmit (s : State) (c : Nat) (gr : Group) : Bool :=
  let k := core s c
  let img := imageNeed s c gr
  k.split == gr.split && k.convert.isNone && (decide (k.retired.length < 8) || !(residentOn s c).isEmpty) &&
  (partAt s (partOfCtx s gr.ctx)).halves.getLsbD (halfOf c) && hasSlice s gr.ctx && !(die s (dieOf c)).off &&
  (residentOn s c).all (fun g => g.ctx == gr.ctx) && queuedFirst s c gr && decide ((residentOn s c).length < 16) && decide (liveWarps gr ≤ freeWarps s c) &&
  decide (rowsOf gr + img.1 ≤ freeRows s c) && decide (gr.spmSize + img.2 ≤ freeSpm s c) && decide (gr.savedSlots.length ≤ freeAcc s c)

/-- A core passes to a context's domain (R366): registers and scratchpad are cleared, macros emptied, slots and counters
cleared. -/
def passDomain (s : State) (c ctx : Nat) : State :=
  if (core s c).domain = ctx then s else modCore s c fun k => { k with
    domain := ctx, macros := List.replicate 8 Macro.empty, slots := List.replicate 8 AccSlot.clear, perf := List.replicate 8 (0, 0)
    images := [], active := [], rotation := (63, 63), one := none }

/-- A group takes its place on a core: warp slots, the image of its template, the domain. What a new group does not write holds
values of its domain (R6, R22); its start acquires what happens-before its grid, a restored one goes on from its save (R159, R186). -/
def takeIn (s : State) (c : Nat) (gr : Group) : State :=
  let s1 := learn (passDomain s c gr.ctx) (dieOf c) (if gr.life = .queued then edgeView s (.grid gr.grid) else gr.view)
  let slots := (sortOn (fun x => x) (freeSlotsOf s1 c)).take (liveWarps gr)
  let ws := (gr.warps.foldl (fun (a : List Warp × List Nat) w => if w.ended then (a.1 ++ [w], a.2) else
    (a.1 ++ [{ w with slot := a.2.head?.getD 0 }], a.2.tail)) ([], slots)).1
  let s2 := modGroup s1 gr.id fun x => { (if gr.life = .queued then withLeft s x else x) with life := .resident, core := c, warps := ws }
  let s3 := modCore s2 c fun k => { k with images := match gr.kind.tmpl? with | some t => sins k.images t | none => k.images }
  joinAdmitted s3 c gr.id

/-- The core a group is placed on (R163, R173): of those that may take it in, the one with most free rows, lowest number. -/
def bestCore (s : State) (d : Nat) (gr : Group) : Option Nat :=
  if fixedOf s gr.grid then (if canAdmit s gr.core gr then some gr.core else none)
  else ((List.range 192).map (192 * d + ·)).foldl (fun best c =>
    if !canAdmit s c gr then best else match best with
      | some b => if freeRows s b < freeRows s c then some c else best
      | none => some c) none

/-- Places every group of a gang, or none (R128, R163). -/
def placeGang (d : Nat) : List Nat → State → Option State
  | [], s => some s
  | g :: rest, s => match group? s g with
    | none => placeGang d rest s
    | some gr => match bestCore s d gr with
      | some c => placeGang d rest (takeIn (modDie s d fun x => { x with queue := x.queue.filter (· != g) }) c gr)
      | none => none

/-- The queued members of a group's gang. -/
def unitOfGroup (s : State) (d g : Nat) : List Nat :=
  match gang? s g with
  | some x => x.groups.filter fun h => (die s d).queue.contains h
  | none => [g]

/-- A group's level. -/
def groupPrio (s : State) (g : Nat) : Nat := (((group? s g).bind fun x => grid? s x.grid).map effPrio).getD 0

/-- The heads of a die's queue: no earlier queued group is of the same grid (R163). -/
def queueHeads (s : State) (d : Nat) : List Nat :=
  (((die s d).queue.foldl (fun (a : List Nat × List Nat) g => match group? s g with
    | some gr => if a.2.contains gr.grid then a else (a.1 ++ [g], gr.grid :: a.2)
    | none => a) ([], [])).1)

/-- Saved groups that are restored before groups of their priority start (R139, R166): on some core of the die. -/
def restoreFirst (s : State) (d prio : Nat) : Bool :=
  s.groups.any fun x => x.2.life == .saved && x.2.logits.isNone && (x.2.cause == some .deadlock || x.2.cause == some .split) &&
    decide (prio ≤ groupPrio s x.1) && (x.2.cause == some .split || dieOf x.2.core == d) &&
    (List.range 192).any fun i => canAdmit s (192 * d + i) x.2

/-- A die's reservation keeps a group back (R163). -/
def keptBack (s : State) (d g : Nat) : Bool :=
  match (die s d).reserved with
  | some r => (die s d).queue.contains r && !(unitOfGroup s d r).contains g && decide (groupPrio s g ≤ groupPrio s r)
  | none => false

/-- GROUP_PLACEMENT (R163, R164, R173): the first queued group or gang that fits, with none of its own grid before it. -/
def execGroupPlacement (die : Nat) (s : State) : Host.Outcome State Fault Refusal :=
  .next (((queueHeads s die).findSome? fun g =>
    if keptBack s die g || restoreFirst s die (groupPrio s g) then none
    else (placeGang die (unitOfGroup s die g) s).map fun t =>
      modDie t die fun x => { x with reserved := match x.reserved with | some r => if x.queue.contains r then some r else none | none => none }).getD s)

/-- A queued group or gang that does not fit now. -/
def stuckHead (s : State) (d g : Nat) : Bool := (placeGang d (unitOfGroup s d g) s).isNone

/-- The head of a level: the first queued group of that level. -/
def levelHead (s : State) (d level : Nat) : Option Nat := (die s d).queue.find? fun g => groupPrio s g == level

/-- GANG_RESERVATION (R163): the head of its level has not been placeable for 200 microseconds. -/
def execGangReservation (die : Nat) (s : State) : Host.Outcome State Fault Refusal :=
  .next (match [3, 2, 1, 0].findSome? fun l => (levelHead s die l).filter (stuckHead s die) with
    | some g => modDie s die fun x => { x with reserved := some g }
    | none => s)

/-! ## Split transitions -/

/-- The cores of a die that convert (R166). -/
def converting (s : State) (d : Nat) : List Nat := ((List.range 192).map (192 * d + ·)).filter fun c => (core s c).convert.isSome

/-- The core that a conversion to a group's split takes: fewest resident groups, lowest number; in fixed-star mode the
core R173 names. -/
def convertCore (s : State) (d : Nat) (gr : Group) : Option Nat :=
  let ok (c : Nat) : Bool := (core s c).convert.isNone && (core s c).split != gr.split && (partAt s (partOfCtx s gr.ctx)).halves.getLsbD (halfOf c)
  if fixedOf s gr.grid then (if ok gr.core then some gr.core else none)
  else ((List.range 192).map (192 * d + ·)).foldl (fun best c =>
    if !ok c then best else match best with
      | some b => if (residentOn s c).length < (residentOn s b).length then some c else best
      | none => some c) none

/-- The head of a die's queue, of the contexts that may run. -/
def splitHead (s : State) (d : Nat) : Option Group := (die s d).queue.findSome? fun g => (group? s g).filter fun x => hasSlice s x.ctx

/-- The first member of a gang that no core admits beside those before it (R165, R166). -/
def unplaced (d : Nat) : List Nat → State → Option Group
  | [], _ => none
  | g :: rest, s => match group? s g with
    | none => unplaced d rest s
    | some gr => match bestCore s d gr with
      | some c => unplaced d rest (takeIn (modDie s d fun x => { x with queue := x.queue.filter (· != g) }) c gr)
      | none => some gr

/-- The group of the head's gang that needs a split that no core can give it, and no core converts for it yet: the core to convert. -/
def wantsSplit (s : State) (d : Nat) : Option Nat :=
  match (splitHead s d).bind fun x => unplaced d (unitOfGroup s d x.id) s with
  | some gr =>
    if decide ((converting s d).length < 8) &&
      !((converting s d).any fun c => (core s c).convert == some gr.split && (!fixedOf s gr.grid || c == gr.core)) then convertCore s d gr else none
  | none => none

/-- SPLIT_CONVERSION (R166). -/
def execSplitConversion (die : Nat) (s : State) : Host.Outcome State Fault Refusal :=
  .next (match wantsSplit s die, splitHead s die with
    | some c, some gr => modCore s c fun k => { k with convert := some gr.split }
    | _, _ => s)

/-- The members of a gang that are resident, or the group alone. -/
def gangOf (s : State) (g : Nat) : List Nat := match gang? s g with | some x => x.groups | none => [g]

/-- A converting core still holds groups of the old split, none of them in fixed-star mode (R166). -/
def mayForce (s : State) (c : Nat) : Bool :=
  (core s c).convert.isSome && (residentOn s c).any (fun g => g.life == .resident && g.logits.isNone) &&
  (residentOn s c).all fun g => !fixedOf s g.grid

/-- SPLIT_FORCE (R166): 200 microseconds after the core was picked, its groups are saved, gangs whole. -/
def execSplitForce (core : Nat) (s : State) : Host.Outcome State Fault Refusal :=
  .next (if mayForce s core then
      (((residentOn s core).filter (·.logits.isNone)).flatMap fun g => gangOf s g.id).foldl (fun t g => haltAndSave t g .split) s
    else s)

/-- SPLIT_REASSIGN (R166): the core holds no group and takes the new split. -/
def execSplitReassign (core : Nat) (s : State) : Host.Outcome State Fault Refusal :=
  .next (match (Machine.core s core).convert with
    | some x => if (residentOn s core).isEmpty then modCore s core fun k => { k with split := x, convert := none } else s
    | none => s)

/-! ## Stage sets -/

/-- The groups of a grid dispatched and not ended. -/
def gridLive (g : Grid) : Nat := g.next - g.ended

/-- Some group of a grid is held in QPUSH. -/
def pushHeld (s : State) (grid : Nat) : Bool :=
  s.groups.any fun x => x.2.grid == grid && x.2.warps.any fun w => w.holds.any fun h => h.kind == .qpush

/-- A stage takes one more group (R168). Whether a group held in QPUSH now has been held for the whole interval is free. -/
def wantsGroup (s : State) (g : Graph) (x : Stage) : Option Nat :=
  match x.grid.bind (grid? s), g.queues[x.qin]? with
  | some y, some q =>
    if !g.fixed && !x.done && y.next == y.count && !y.stopped && decide (gridLive y < x.max) && decide (q.cap ≤ 2 * Queue.held q) &&
      !(q.closed && Queue.held q == 0) && !(pushHeld s y.id && Config.pick s.tick % 2 == 1) then some y.id else none
  | _, _ => none

/-- STAGE_REEVALUATION (R168): every stage after the first. -/
def execStageReevaluation (graph node : Nat) (s : State) : Host.Outcome State Fault Refusal :=
  .next (match graph? s graph, node? s graph node with
    | some g, some n => if n.life ≠ .running then s else
      ((stagesOf g node).drop 1).foldl (fun t x => match wantsGroup s g x with
        | some y => modGrid t y fun z => { z with count := z.count + 1 }
        | none => t) s
    | _, _ => s)

/-- A stage is complete (R169): its groups have ended, and its input queue, if any, is closed and empty. A stopped stage
dispatches no further group and is over with the last it has (R160). -/
def stageOver (s : State) (g : Graph) (x : Stage) : Bool :=
  !x.done && (match x.grid.bind (grid? s) with
    | some y =>
      (y.stopped || (if x.qin = 0xFFFF then gridOver y else
        gridLive y == 0 && (match g.queues[x.qin]? with | some q => q.closed && Queue.held q == 0 | none => false))) &&
      !(s.groups.any fun z => z.2.grid == y.id)
    | none => false)

/-- STAGE_COMPLETION (R169): the stage is done and its output queue closes. -/
def execStageCompletion (graph node stage : Nat) (s : State) : Host.Outcome State Fault Refusal :=
  .next (match graph? s graph, node? s graph node with
    | some g, some n => match (stagesOf g node)[stage]? with
      | some x => if (n.life ≠ .running ∧ n.life ≠ .failed) ∨ stageOver s g x = false then s else
        let s1 := modStage s graph node stage fun y => { y with done := true }
        let s2 := match x.grid with | some y => modGrid s1 y fun z => { z with count := z.next, done := true } | none => s1
        if x.qout = 0xFFFF then s2 else modQueueOf s2 graph x.qout fun q => { q with closed := true }
      | none => s
    | _, _ => s)

/-! ## The iteration boundary -/

/-- The nodes of a loop's body. -/
def bodyNodes (n : Node) : List Nat :=
  (List.range (n.k48.toNat / 65536 % 65536 + 1)).filter fun i => decide (n.k48.toNat % 65536 ≤ i)

/-- The body nodes that lie in no inner loop. -/
def ownBody (g : Graph) (i : Nat) (n : Node) : List Nat := (bodyNodes n).filter fun j => (loopsAround g j).head? == some i

/-- The boundary of a running loop is due (R171): at its start, or when every body node has completed. -/
def boundaryDue (g : Graph) (i : Nat) (n : Node) : Bool :=
  n.kind == 3 && n.life == .running && !g.ended && g.failed.isNone && (!n.looping || (ownBody g i n).all (nodeDone g))

/-- A device access after another. -/
def devThen {α β : Type} (r : DevRes α) (k : α → DevRes β) : DevRes β :=
  match r with
  | .ok a => k a
  | .wait x => .wait x
  | .bad c x => .bad c x
  | .hole => .hole

/-- The transition of a slot by the first row of R327 that matches, as its new state and reason, for its record, the host's
command that stands, and whether a record was written in the iteration. -/
def slotRow (st req reason : Nat) (cmd : Option SlotCmd) (recorded : Bool) : Option (Nat × Nat) :=
  let pending := req / 128 % 2 == 1
  let add := match cmd with | some c => c.add | none => false
  let rm := match cmd with | some c => !c.add | none => false
  let busy := st == 1 || st == 2 || st == 3
  if st == 0 && add then some (1, 0)
  else if busy && rm then some (4, reasonHost)
  else if busy && pending && req % 8 == 4 then some (4, req / 256)
  else if (st == 1 || st == 2) && pending && req % 8 == 3 then some (3, req / 256)
  else if st == 3 && pending && req % 8 == 2 then some (2, 0)
  else if st == 1 && recorded then some (2, 0)
  else if st == 4 then some (0, reason)
  else none

/-- What a slot's host commands come to at a boundary (R392): the completions to post, and the commands still open. -/
def slotCommands (slot st reason count : Nat) (mine : List SlotCmd) : List (Cmd × Nat × Nat) × List SlotCmd :=
  let open_ := mine.filter (·.applied)
  let fresh := mine.filter fun c => !c.applied
  let replaced := fresh.dropLast.map fun c => (c.cmd, 0, 2 ^ 64 - 1)
  let freed := if st = 4 then open_.map fun c => (c.cmd, 0, slot + 65536 * reason + 2 ^ 32 * count) else []
  let kept := if st = 4 then [] else open_
  match fresh.getLast? with
  | none => (replaced ++ freed, kept)
  | some c =>
    if c.add then (if st = 0 then (replaced ++ freed, kept ++ [{ c with applied := true }]) else (replaced ++ freed ++ [(c.cmd, 3, 0)], kept))
    else if st = 1 ∨ st = 2 ∨ st = 3 then (replaced ++ freed ++ [(c.cmd, 0, 0)], kept)
    else (replaced ++ freed ++ [(c.cmd, 0, 2 ^ 64 - 1)], kept)

/-- The command of a slot that stands at a boundary: the last not yet applied (R392). -/
def standingCmd (cs : List SlotCmd) (node slot : Nat) : Option SlotCmd :=
  (cs.filter fun c => c.node == node && c.slot == slot && !c.applied).getLast?

/-- Step 1 for one slot (R327): its record and the host's commands. -/
def slotTransition (g i : Nat) (c : Nat) (gen : Nat → Option Nat) (table : DWord) (slot : Nat) (acc : State × List (Cmd × Nat × Nat)) :
    DevRes (State × List (Cmd × Nat × Nat)) :=
  let va := recordVa table slot
  let s := acc.1
  devThen (devRead s c gen va 64 64) fun r =>
    let st := field r 0 1
    let x := (graph? s g).map fun x => (x.slotCmds, x.recorded.contains (i, slot))
    let cs := (x.map (·.1)).getD []
    let mine := cs.filter fun k => k.node == i && k.slot == slot
    let out := slotCommands slot st (field r 1 1) (field r 60 4) mine
    let s1 := modGraph s g fun y => { y with slotCmds := (y.slotCmds.filter fun k => !(k.node == i && k.slot == slot)) ++ out.2 }
    match slotRow st (field r 2 2) (field r 1 1) (standingCmd cs i slot) ((x.map (·.2)).getD false) with
    | some (n, reason) =>
      devThen (devWrite s1 c gen va 1 (leBytes 1 n ++ leBytes 1 reason ++ zeros 2)) fun s2 =>
        if st = 0 then devThen (devWrite s2 c gen (va + 60) 4 (zeros 4)) fun s3 => .ok (s3, acc.2 ++ out.1)
        else .ok (s2, acc.2 ++ out.1)
    | none =>
      if field r 2 2 / 128 % 2 = 1 then devThen (devWrite s1 c gen (va + 2) 2 (zeros 2)) fun s2 => .ok (s2, acc.2 ++ out.1)
      else .ok (s1, acc.2 ++ out.1)

/-- Step 1 for the slots of a list. -/
def stepOne (g i c : Nat) (gen : Nat → Option Nat) (table : DWord) : List Nat → State × List (Cmd × Nat × Nat) → DevRes (State × List (Cmd × Nat × Nat))
  | [], acc => .ok acc
  | k :: r, acc => devThen (slotTransition g i c gen table k acc) fun x => stepOne g i c gen table r x

/-- Step 2 for the slots of a list (R328): the slots of another version pause; the active list. -/
def stepTwo (c : Nat) (gen : Nat → Option Nat) (table : DWord) (adopted : Option Nat) (subscribed : Bool) :
    List Nat → State × List Nat → DevRes (State × List Nat)
  | [], acc => .ok acc
  | k :: r, (s, active) =>
    let va := recordVa table k
    devThen (devRead s c gen va 64 64) fun b =>
      let st := field b 0 1
      if st ≠ 1 ∧ st ≠ 2 then stepTwo c gen table adopted subscribed r (s, active)
      else if subscribed && field b 58 2 != 0xFFFF && some (field b 58 2) != adopted then
        devThen (devWrite s c gen va 1 (leBytes 1 3 ++ leBytes 1 (Code.num .version))) fun t => stepTwo c gen table adopted subscribed r (t, active)
      else stepTwo c gen table adopted subscribed r (s, active ++ [k])

/-- Steps 1 to 3 with a batching table (R327, R328): the state, what completes, the active list. -/
def tableSteps (s : State) (g i c : Nat) (n : Node) (gen gen2 : Nat → Option Nat) (adopted : Option Nat) (iter : Nat) :
    DevRes (State × List (Cmd × Nat × Nat) × List Nat) :=
  devThen (devRead s c gen n.k56 64 2) fun hd =>
    let slots := List.range (min 8192 (leNat hd))
    devThen (stepOne g i c gen n.k56 slots (s, [])) fun a =>
      devThen (stepTwo c gen2 n.k56 adopted n.subscription.isSome slots (a.1, [])) fun b =>
        devThen (devWrite b.1 c gen2 (n.k56 + 8) 4 (leBytes 4 b.2.length ++ leBytes 4 iter ++ leBytes 2 (adopted.getD 0xFFFF))) fun t =>
          .ok (t, a.2, b.2)

/-- The body returns to waiting, and the nodes of the body that no edge leads into are ready (R170, R171). -/
def resetBody (s : State) (g i : Nat) (n : Node) : State :=
  match graph? s g with
  | none => s
  | some x =>
    let body := bodyNodes n
    let own := ownBody x i n
    let s1 := modGraph s g fun y => { y with
      nodes := y.nodes.mapIdx fun j z => if body.contains j then
          { z with life := if own.contains j ∧ z.deps = 0 then .ready else .waiting, sat := [], sent := [], looping := false, active := [], adopted := none
                   grid := none }
        else z
      recorded := y.recorded.filter fun p => p.1 != i && !body.contains p.1 }
    { s1 with grids := s1.grids.filter fun q => !(q.graph == g && body.contains q.node && (q.done || !(s1.groups.any fun z => z.2.grid == q.id))) }

/-- What a loop adopts at step 2 (R171): the newest generation of its range. -/
def adoption (s : State) (n : Node) : Option Nat := (n.subscription.bind (range? s)).bind newestOf

/-- What the nodes of a loop's body have come to (R159). -/
def bodyView (s : State) (g : Nat) (n : Node) : View := (bodyNodes n).foldl (fun v j => v.join (edgeView s (.node g j))) View.empty

/-- LOOP_BOUNDARY (R171, R172, R327, R328): the whole sequence, its first run at the loop's start included. -/
def execLoopBoundary (graph node : Nat) (s : State) : Host.Outcome State Fault Refusal :=
  .next (if waiting s (.loopBoundary graph node) then s else match graph? s graph, node? s graph node with
    | some g, some n =>
      if !boundaryDue g node n then s else
      let adopted := adoption s n
      let iter := if n.looping then n.iter + 1 else 0
      let gen (r : Nat) : Option Nat := nodeGen s graph node r
      let gen2 (r : Nat) : Option Nat := if n.subscription = some r then adopted else nodeGen s graph node r
      let s0 := (List.range 4).foldl drainDie s
      let run := devThen (if n.k56 = 0 then .ok (s0, [], []) else tableSteps s0 graph node g.ctx n gen gen2 adopted iter) fun a =>
        devThen (devRead a.1 g.ctx gen2 n.k40 4 4) fun w => .ok (a, leNat w)
      match run with
      | .wait x => devWait s (.loopBoundary graph node) g.ctx x
      | .bad cd x => devRefused s g.ctx graph node cd x
      | .hole => devRefused s g.ctx graph node .prot 0
      | .ok (a, w) =>
        let s1 := a.2.1.foldl (fun t p => complete t p.1 p.2.1 p.2.2) a.1
        let s2 := modNode (sendAlong (.node graph node) (bodyView s1 graph n) s1) graph node fun x => { x with adopted := adopted, iter := iter, active := a.2.2, looping := true }
        let s3 := if w = 0 then modNode (modGraph s2 graph fun x => { x with recorded := x.recorded.filter fun p => p.1 != node }) graph node
            fun x => { x with life := .ending }
          else resetBody s2 graph node n
        settleRanges s3
    | _, _ => s)

end Sys2Proof.Machine
end

