-- ==== Sys2Proof/Machine/Preempt.lean ====
section
/-! DEFINITION. Pre-emption, the restore of saved groups and the slices of a partition (R266, R289, R322, R359, R361 to
R366, R402, R403). -/

namespace Sys2Proof.Machine

/-! ## Regions at a save -/

/-- The unit applies the next record that is ready of a region. -/
def applyOne (s : State) (r : Region) : State :=
  match region? s r.ctx r.num with
  | some x => match (if recordReady s x then nextRec s x else none) with
    | some i => applyAt s x i
    | none => s
  | none => s

/-- Each unit applies every record that has arrived for the regions of a partition's contexts (R266); those that come later, before
the save completes. -/
def applyArrived (s : State) (p : Nat) : State :=
  (s.regions.filter fun r => partOfCtx s r.ctx == p).foldl (fun t r => (List.range r.recs.length).foldl (fun u _ => applyOne u r) t) s

/-- A context has a group on some core. -/
def ctxOnCore (s : State) (c : Nat) : Bool := s.groups.any fun g => g.2.ctx == c && (g.2.life == .resident || g.2.life == .halted)

/-- Regions of contexts outside their slice lose their slots once no group of the context is on a core: records applied,
slot levels written to the backing (R266). -/
def unbindIdle (s : State) : State :=
  (s.regions.filter fun r => r.bound && !r.building && !hasSlice s r.ctx && !ctxOnCore s r.ctx).foldl (fun t r =>
    let t1 := (List.range r.recs.length).foldl (fun u _ => match region? u r.ctx r.num with | some x => applyAt u x 0 | none => u) t
    match region? t1 r.ctx r.num with
    | some x => modRegion (putLevels t1 x (slotLevels x)) r.ctx r.num fun y => { y with bound := false }
    | none => t1) s

/-- Regions of contexts in their slice are bound again where a unit of their die has a slot (R249, R266). -/
def bindRegions (s : State) : State :=
  (s.regions.filter fun r => !r.bound && hasSlice s r.ctx).foldl (fun t r => match chooseUnit t r.die with
    | some u => modRegion t r.ctx r.num fun x => { x with unit := u, bound := true }
    | none => t) s

def settleRegions (s : State) : State := bindRegions (unbindIdle s)

/-! ## Pre-emption -/

/-- The groups of a partition's cores that a pre-emption names. -/
def groupsOfPart (s : State) (p : Nat) : List Nat :=
  (s.groups.filter fun g => g.2.life == .resident && g.2.logits.isNone && (partAt s p).halves.getLsbD (halfOf g.2.core)).map (·.1)

/-- PREEMPTION_REQUEST (R361): the management processor or the host pre-empts a partition. -/
def execPreemptionRequest (partition : Nat) (s : State) : Host.Outcome State Fault Refusal :=
  .next ((groupsOfPart s partition).foldl (fun t g => haltAndSave t g .preempt) (applyArrived s partition))

/-- FRAME_POOL_SAVE (R361, R363): a halted group is saved once it has quiesced and its pool has room. -/
def execFramePoolSave (group : Nat) (s : State) : Host.Outcome State Fault Refusal := .next (settleRegions (serveAfter (saveGroup s group) group))

/-! ## Restore -/

/-- The word that stands for a group's operations as their pages are translated again on a core (R289, R322). -/
def restoreEnv (s : State) (gr : Group) (c w : Nat) : Env :=
  let g := { gr with core := c }
  { g := gr.id, w := w, pc := 0, word := 0, mark := false, atPc := 0, live := 0, gr := g
    wp := (gr.warps[w]?).getD (newWarp w 0 0 []), die := dieOf c, fixed := fixedOf s gr.grid }

/-- What translating an operation's pages again comes to: its pages with what was refused, or the page that is missing. -/
abbrev Again (α : Type) := Except (DWord × Nat) α

/-- A refusal is kept; a missing page stops the restore; an address without memory is refused. -/
def againOf {α : Type} (r : Except LaneFault α) (ok : α → Again (Pages × List (Nat × (Code × DWord)))) (no : Code × DWord → Again (Pages × List (Nat × (Code × DWord)))) :
    Again (Pages × List (Nat × (Code × DWord))) :=
  match r with
  | .ok a => ok a
  | .error (some (.page, va, _)) => .error (va, 4)
  | .error (some (c, d0, _)) => no (c, d0)
  | .error none => no (.prot, 0)

/-- The elements of the chunks that a copy has not issued. -/
def restElems (c : Copy) : List Nat := ((c.chunks.drop c.next).map (·.1)).flatten

/-- The translations of a parked copy's remaining elements (R322): element by element, destination after source. -/
def againCopy (s : State) (e : Env) (c : Copy) : Again (Pages × List (Nat × (Code × DWord))) :=
  let bits := copyBits c.src c.dst
  let els := copyElems c.kind c.block c.src c.dst c.idx
  let side (t : Option Tensor) (o : Nat) : Option (Nat × Bool) := t.map fun x => (field c.block o 1, Tensor.versioned x)
  let page (tid : Option (Nat × Bool)) (need : Nat) (ps : Pages) (x : Nat × Bool × Nat) : Except LaneFault Pages :=
    if x.1 = 0 ∧ x.2.1 then accPage s e tid need ps (elemByte bits x.2.2) else .ok ps
  (restElems c).foldlM (fun (acc : Pages × List (Nat × (Code × DWord))) i => match els[i]? with
    | some x =>
      let both : Except LaneFault Pages := do page (side c.dst (if c.kind = 3 then 0 else 1)) 2 (← page (side c.src 0) 1 acc.1 x.1) x.2
      againOf both (fun ps => .ok (ps, acc.2)) fun r => .ok (acc.1, acc.2 ++ [(i, r)])
    | none => .ok acc) (([], []), [])

/-- The chunks that a resumed copy does not issue, since they need a page now refused, with the first refusal of each (R322). -/
def refusedChunks (refused : List (Nat × (Code × DWord))) (x : Copy) : List (Nat × Code × DWord) :=
  ((List.range x.chunks.length).filter fun k => decide (x.next ≤ k) && !x.skip.contains k).filterMap fun k =>
    (x.chunks[k]?).bind fun ch => (refused.find? fun r => ch.1.contains r.1).map fun r => (k, r.2)

/-- The copy as it goes on, on its new core: a refused chunk counts as landed unwritten, to be credited, and raises status 6. -/
def resumeCopy (c : Nat) (ps : Pages) (entries : List Nat) (refused : List (Nat × (Code × DWord))) (x0 : Copy) : Copy :=
  let bad := refusedChunks refused x0
  let x := bad.foldl (fun y b => raiseCopy y 6 (some (copyDetails y.handle b.2.1 b.2.2))) x0
  let bits := copyBits x.src x.dst
  let els := copyElems x.kind x.block x.src x.dst x.idx
  let rest := restElems x
  let skip := x.skip ++ bad.map (·.1)
  { x with
    core := c, parked := false, pins := ps.2, entries := entries, skip := skip, next := skipOver skip x.chunks.length x.next
    landing := if x.barrier.isSome then x.landing ++ bad.map (·.1) else x.landing
    elems := x.elems.mapIdx fun i y => if rest.contains i then
        (match els[i]? with | some z => (placeElem ps.1 bits z.1, placeElem ps.1 bits z.2, bits) | none => y)
      else y }

/-- The ranges that the rest of a matrix operation touches: identifier with its VS flag, permission, ranges (R285). -/
def restRanges (m : MatOp) : List (Option (Nat × Bool) × Nat × List (Nat × Nat)) :=
  let tile (t : TagRec) : Option (Nat × Bool) × Nat × List (Nat × Nat) := (some (t.tag.tid, Tensor.versioned t.entry), 1, tileRanges t.entry t.tag)
  match m.kind with
  | .load _ _ tag t => if m.done = 0 then [(some (tag.tid, Tensor.versioned t), 1, tileRanges t tag)] else []
  | .mul a rows m0 i2 i3 pairs _ _ =>
    let kt (p : Nat) : Nat := ((tagIn m.tags p).map fun t => tileK t.entry).getD 0
    [(some (field m.block 0 1, Tensor.versioned a), 1, pairs.flatMap fun p => ((List.range rows).drop m.done).flatMap fun r =>
      runRanges a p.2.2 (kt p.1) (m0 + r) i2 i3)] ++ m.tags.map fun t => tile t.2
  | .epi t _ rows cols row0 col0 i2 i3 rs cs bias stats _ _ _ nostore =>
    let left := rows - m.done
    let rg := if nostore then ([], []) else epiRanges t left cols (row0 + m.done) col0 i2 i3
    let vs := some (field m.block 0 1, Tensor.versioned t)
    [(vs, 2, rg.1), (vs, 1, rg.2), (none, 1, if rs = 0 then [] else [(rs, 4 * rows)]), (none, 1, if cs = 0 then [] else [(cs, 4 * cols)]),
     (none, 1, if bias = 0 then [] else [(bias, 4 * cols)]), (none, 2, if stats = 0 then [] else [(stats, 8 * rows)])]
  | .stream .. => m.tags.map fun t => tile t.2
  | _ => []

/-- The translations of the rest of a parked matrix operation (R289): the first refusal takes the whole rest. -/
def againMat (s : State) (e : Env) (m : MatOp) : Again (Pages × List (Nat × (Code × DWord))) :=
  againOf ((restRanges m).foldlM (fun ps r => accRanges s e r.1 r.2.1 ps r.2.2) (([], []) : Pages)) (fun ps => .ok (ps, []))
    fun r => .ok (([], []), [(0, r)])

/-- The new place of an old physical slot (R289): by its logical number. -/
def newSlot (old new : List (Nat × Nat)) (p : Nat) : Nat :=
  match old.find? fun x => x.2 == p with
  | some (l, _) => (sget? new l).getD p
  | none => p

/-- An operation's slots on the new core. -/
def moveSlots (f : Nat → Nat) : MatKind → MatKind
  | .mul a rows m0 i2 i3 pairs h planes => .mul a rows m0 i2 i3 (pairs.map fun p => (p.1, f p.2.1, p.2.2)) h planes
  | .stream op no slot rows first k sel => .stream op no (f slot) rows first k sel
  | .read slot d col w pair lanes => .read (f slot) d col w pair lanes
  | .write slot col vals => .write (f slot) col vals
  | .clear slots free => .clear (slots.map f) (free.map f)
  | .epi t slot rows cols row0 col0 i2 i3 rs cs bias stats act sm cl ns => .epi t (f slot) rows cols row0 col0 i2 i3 rs cs bias stats act sm cl ns
  | .load no skip tag t => .load no skip tag t

/-- The group is saved again for a page that its operations miss (R289, R322): its frame is written anew with the page. -/
def resavePage (s : State) (gr : Group) (va : DWord) (kind : Nat) : State :=
  let g2 := { gr with cause := some .page, waitVa := some (va, kind, false) }
  let s1 := modGroup s gr.id fun _ => g2
  let f := frameBytes s1 g2 .page
  let units := (((ctx? s gr.ctx).map (·.frames)).getD []).find? fun x => x.2.2 == gr.id
  let s2 := match gr.frame, units with
    | some (b, _), some u => if f.length ≤ u.2.1 then
        (match devWrite s1 gr.ctx (genOfCtx s1 gr.ctx) (BitVec.ofNat 64 b) 1 f with
          | .ok t => modGroup t gr.id fun x => { x with frame := some (b, f.length) }
          | _ => s1)
      else s1
    | _, _ => s1
  postCtx s2 gr.ctx 9 va.toNat kind 0 none

/-- The trap frames of a saved group as its save frame holds them (R364, R365), by warp. -/
def savedTraps (s : State) (gr : Group) : DevRes (List (Nat × List Byte)) :=
  let ws := ((gr.warps.mapIdx fun i w => (i, w)).filter fun p => p.2.handler.isSome).map (·.1)
  if ws.isEmpty then .ok [] else
  match gr.frame with
  | none => .ok []
  | some (b, n) => devThen (devRead s gr.ctx (genOfCtx s gr.ctx) (BitVec.ofNat 64 b) 1 n) fun f =>
    .ok (ws.zip (match sectionsOf (field f 44 2) (f.drop 64) with | some secs => bodiesOf secs 6 | none => ws.map fun _ => zeros 8192))

/-- Writes the trap frames to the frames of the new warp slots (R365), and points d240 at them. -/
def moveTraps (g : Nat) : List (Nat × List Byte) → State → DevRes State
  | [], s => .ok s
  | (w, f) :: rest, s => match group? s g, warp? s g w with
    | some gr, some wp =>
      let va := trapFrameVa s gr wp
      devThen (devWrite s gr.ctx (gens s gr) va 1 f) fun t =>
        let t1 := modWarp t g w fun x => { x with handler := x.handler.map fun h => { h with frame := va } }
        moveTraps g rest ((List.range 32).foldl (fun u l => writeWide u g w 240 l 2 va.toNat) t1)
    | _, _ => moveTraps g rest s

/-- Translates the pages of the group's parked operations again, in order. -/
def againAll (s : State) (gr : Group) (c : Nat) : Again (List (Nat × Pages × List (Nat × (Code × DWord))) × List (Nat × Pages × List (Nat × (Code × DWord)))) := do
  let cs ← ((copiesOf s gr.id).mapM fun x => do pure (x.id, ← againCopy s (restoreEnv s gr c x.warp) x))
  let ms ← ((s.matops.filter (·.group == gr.id)).mapM fun x => do pure (x.id, ← againMat s (restoreEnv s gr c x.warp) x))
  pure (cs, ms)

/-- The operations stand on the new core and in its slots (R289, R322). -/
def moveOps (s : State) (gr : Group) (c : Nat) (cs ms : List (Nat × Pages × List (Nat × (Code × DWord)))) : State :=
  let new := ((group? s gr.id).map (·.slots)).getD []
  let keys (w : Nat) (ps : Pages) : List Nat := pinKeys s (restoreEnv s gr c w) (ps.1.map (·.1))
  { s with
    copies := s.copies.map fun x => match cs.find? (·.1 == x.id) with
      | some r => resumeCopy c r.2.1 (keys x.warp r.2.1) r.2.2 x
      | none => x
    matops := s.matops.map fun x => match ms.find? (·.1 == x.id) with
      | some r => { x with core := c, parked := false, entries := keys x.warp r.2.1, pages := r.2.1.1, pins := r.2.1.2
                           refused := (r.2.2.head?).map (·.2), kind := moveSlots (newSlot gr.slots new) x.kind }
      | none => x }

/-- The operations go on: the landed counts take in the chunks that were refused, and a copy with nothing left ends (R322). -/
def resumeOps (s : State) (gr : Group) (c : Nat) (cs ms : List (Nat × Pages × List (Nat × (Code × DWord)))) : State :=
  cs.foldl (fun t r => match s.copies.find? (·.id == r.1) with
    | some x => endCopy ((refusedChunks r.2.2 x).foldl (fun u b => countLanded u gr.id x.handle ((x.chunks[b.1]?.map (·.2)).getD 0)) t) r.1
    | none => t) (moveOps s gr c cs ms)

/-- A core and its cluster have room for the parked operations of a group (R273, R304). -/
def opsFit (s : State) (gr : Group) (c : Nat) : Bool :=
  decide (inFlight s c + (s.copies.filter (·.group == gr.id)).length ≤ 96) &&
  decide (queueUsed s c + (s.matops.filter (·.group == gr.id)).length ≤ 16)

/-- Where a saved group may be restored now (R139, R191, R273, R304, R365, R395); after a REPARTITION that has taken its die away, on
any die of its partition (R401). -/
def canRestore (s : State) (gr : Group) (c : Nat) : Bool :=
  gr.life == .saved && gr.logits.isNone && !(gr.cause == some .page && gr.waitVa.isSome) &&
  (!(gr.cause == some .page || gr.cause == some .deadlock) || dieOf c == dieOf gr.core || !((partDies s (partOfCtx s gr.ctx)).contains (dieOf gr.core))) && canAdmit s c gr && opsFit s gr c

/-- The restored group on its core: its frame's units are free, its user logit kernels wait for slots there (R342, R363),
and under HALTPRE the core halts (R359). -/
def settleRestored (s : State) (gr : Group) (c : Nat) : State :=
  let s1 := modCtx s gr.ctx fun x => { x with frames := x.frames.filter fun f => f.2.2 != gr.id }
  let s2 := modGroup s1 gr.id fun x => { x with cause := none, waitVa := none, frame := none, short := false, savedSlots := [] }
  let s3 := { s2 with groups := s2.groups.map fun p => match p.2.kind with
    | .subgroup o _ _ => if o = gr.id then (p.1, { p.2 with life := .queued, core := c }) else p
    | _ => p }
  if ((ctx? s3 gr.ctx).map fun x => x.dbg.getLsbD 2).getD false then modCore s3 c fun k => { k with halted := true } else s3

/-- GROUP_RESTORE (R365, R133, R137). -/
def execGroupRestore (group core : Nat) (s : State) : Host.Outcome State Fault Refusal :=
  .next (match group? s group with
    | none => s
    | some gr => if !canRestore s gr core then s else
      match againAll s gr core with
      | .error (va, kind) => resavePage s gr va kind
      | .ok (cs, ms) => match savedTraps s gr with
        | .wait va => contextEnd s gr.ctx none (deviceFault s .page va)
        | .bad c va => contextEnd s gr.ctx none (deviceFault s c va)
        | .hole => contextEnd s gr.ctx none (deviceFault s .prot 0)
        | .ok traps =>
          let s1 := takeIn s core gr
          match placeSlots s1 group core gr.savedSlots with
          | none => s
          | some s2 => match moveTraps group traps s2 with
            | .wait va => resavePage s gr va 1
            | .bad c va => contextEnd s gr.ctx none { (deviceFault s c va) with handler := true }
            | .hole => contextEnd s gr.ctx none { (deviceFault s .prot 0) with handler := true }
            | .ok s3 => if pinsIn (moveOps s3 gr core cs ms) (core / 2) > 1024 then s else settleRestored (resumeOps s3 gr core cs ms) gr core)

/-! ## Slices -/

/-- A function has ready work (R403): a group that may run, a grid with groups to dispatch, or a ready node. -/
def fnReady (s : State) (p f : Nat) : Bool :=
  let mine (c : Nat) : Bool := fnOfCtx s c == f && partOfCtx s c == p
  (s.groups.any fun g => mine g.2.ctx && (g.2.life == .queued || g.2.life == .resident || g.2.life == .halted ||
    (g.2.life == .saved && !(g.2.cause == some .page && g.2.waitVa.isSome)))) ||
  (s.grids.any fun g => mine g.ctx && decide (g.next < g.count) && !g.stopped) ||
  (s.graphs.any fun g => mine g.ctx && !g.ended && g.failed.isNone && g.nodes.any fun n => n.life == .ready)

/-- The next entry, after the one in use, whose function has ready work (R403). -/
def nextEntry (s : State) (p : Nat) : Option Nat :=
  let es := sliceEntries s p
  let cur := (partAt s p).current % max 1 es.length
  ((List.range es.length).map fun k => (cur + 1 + k) % es.length).find? fun i => match es[i]? with
    | some x => fnReady s p x.2.2
    | none => false

/-- The groups of a function on a partition's cores. -/
def groupsOfFn (s : State) (p : Nat) (f : Option Nat) : List Nat :=
  (groupsOfPart s p).filter fun g => ((group? s g).map fun x => some (fnOfCtx s x.ctx) == f).getD false

/-- Functions whose move from the partition waits for a slice end are moved (R402). -/
def moveFns (s : State) (p : Nat) : State :=
  { s with fns := s.fns.map fun f => if f.part = p then (match f.nextPart with | some q => { f with part := q, nextPart := none } | none => f) else f }

/-- A slice may end (R402, R403): another function of the table has ready work, or a move waits. -/
def sliceMayEnd (s : State) (p : Nat) : Bool :=
  (match nextEntry s p with
    | some i => decide (((sliceEntries s p)[i]?).map (fun x => x.2.2) ≠ sliceFn s p)
    | none => false) || s.fns.any fun f => f.part == p && f.nextPart.isSome

/-- QUANTUM_SLICE_END (R402, R403, R266): the outgoing function's groups are saved, the next entry's slice begins. -/
def execQuantumSliceEnd (partition : Nat) (s : State) : Host.Outcome State Fault Refusal :=
  .next (if !sliceMayEnd s partition then s else
    let out := sliceFn s partition
    let next := match nextEntry s partition with | some i => i | none => (partAt s partition).current
    let stays := decide (((sliceEntries s partition)[next]?).map (fun x => x.2.2) = out) && !(s.fns.any fun f => some f.id == out && f.nextPart.isSome)
    let s1 := applyArrived s partition
    let s2 := if stays then s1 else (groupsOfFn s1 partition out).foldl (fun t g => haltAndSave t g .slice) s1
    settleRegions (moveFns (modPart s2 partition fun x => { x with current := next }) partition))

end Sys2Proof.Machine
end

