-- ==== Sys2Proof/Machine/Submit.lean ====
section
/-! DEFINITION. The check of a graph descriptor at its submission (R154 to R157, R167, R170, R325, R431). -/

namespace Sys2Proof.Machine

/-! ## Reading the descriptor -/

/-- A device read whose refusal makes what it reads malformed (R157, R431). -/
def tryRead (s : State) (c : Nat) (va : DWord) (align n : Nat) : DevRes (Option (List Byte)) :=
  match devRead s c (genOfCtx s c) va align n with
  | .ok b => .ok (some b)
  | .wait x => .wait x
  | _ => .ok none

/-- Reads n records of a size from a table. -/
def readTable (s : State) (c base align size : Nat) : Nat → DevRes (List (Option (List Byte)))
  | 0 => .ok []
  | n + 1 => devThen (readTable s c base align size n) fun l =>
    devThen (tryRead s c (BitVec.ofNat 64 (base + size * n)) (if n = 0 then align else 1) size) fun r => .ok (l ++ [r])

def allZero (b : List Byte) (o n : Nat) : Bool := ((b.drop o).take n).all (· == 0)

/-- A graph header keeps R154 for a chosen descriptor version (R388). -/
def headerRule (b : List Byte) (chosen : Nat) : Bool :=
  (field b 0 4 == 0x10000 || field b 0 4 == 0x10001) && decide (field b 0 4 ≤ chosen) && decide (1 ≤ field b 4 4) && decide (field b 4 4 ≤ 4096) &&
  field b 8 8 % 128 == 0 && field b 16 8 % 32 == 0 && decide (field b 24 4 ≤ 256) && (field b 24 4 != 0 || field b 16 8 == 0) && allZero b 28 36

/-- A node record as read (R155, R156). -/
def nodeOfRecord (b : List Byte) : Node :=
  let q (o : Nat) : DWord := BitVec.ofNat 64 (field b o 8)
  { kind := field b 0 1, prio := field b 1 1, warps := field b 2 1, gangN := field b 3 1, count := field b 4 4, code := q 8, args := q 16
    split := BitVec.ofNat 16 (field b 24 2), regs := field b 26 1, feat := field b 27 1, spm := field b 28 4, deps := field b 32 2
    k40 := q 40, k48 := q 48, k52 := field b 52 2, k56 := q 56, k64 := q 64, succ := (List.range 8).map fun i => field b (96 + 2 * i) 2
    word := q 112, life := .waiting, sat := [], sent := [], gens := [], iter := 0, adopted := none, active := [], looping := false, grid := none }

/-- A successor slot keeps R155 for a node count and version. -/
def succRule (count ver x : Nat) : Bool :=
  x == 0xFFFF || (x / 4096 % 8 == 0 && decide (x % 4096 < count) && (x / 32768 == 0 || ver == 0x10001))

/-- The fields of every kind (R155). -/
def commonRule (b : List Byte) (count ver : Nat) : Bool :=
  decide (field b 0 1 ≤ 4) && decide (field b 1 1 ≤ 3) && allZero b 34 6 && allZero b 120 8 && field b 112 8 % 4 == 0 &&
  (List.range 8).all fun i => succRule count ver (field b (96 + 2 * i) 2)

/-- The fields of a grid or templated grid (R155). -/
def gridRule (b : List Byte) : Bool :=
  kernelOk (field b 24 2) (field b 26 1) (field b 28 4) (field b 2 1) && decide (1 ≤ field b 3 1) && decide (field b 3 1 ≤ 16)

/-- A node record keeps R155 and R156. -/
def nodeRule (b : List Byte) (count ver : Nat) : Bool :=
  commonRule b count ver && (match field b 0 1 with
    | 0 => gridRule b && decide (1 ≤ field b 4 4) && decide (field b 4 4 < 2 ^ 24) && allZero b 40 56
    | 1 => gridRule b && field b 4 4 == 1 && field b 40 8 % 256 == 0 && field b 48 4 % 256 == 0 && decide (field b 52 4 ≤ 2 ^ 20) &&
        field b 52 4 % 256 == 0 && field b 56 8 % 65536 == 0 && (field b 52 4 != 0 || field b 56 8 == 0) && allZero b 72 24
    | 2 => allZero b 2 30 && field b 40 8 % 64 == 0 && decide (2 ≤ field b 48 1) && decide (field b 48 1 ≤ 8) &&
        (decide (field b 49 1 ≤ 3) || field b 49 1 == 0xFF) && allZero b 50 46
    | 3 => allZero b 2 30 && field b 40 8 % 4 == 0 && decide (field b 48 2 ≤ field b 50 2) && decide (field b 50 2 < count) &&
        (decide (field b 52 2 ≤ 63) || field b 52 2 == 0xFFFF) && allZero b 54 2 && field b 56 8 % 64 == 0 && allZero b 64 32
    | _ => allZero b 2 30 && field b 40 8 % 8 == 0 && allZero b 56 40)

/-- A stage record as read (R167). -/
def stageOfRecord (b : List Byte) : Stage :=
  { code := BitVec.ofNat 64 (field b 0 8), args := BitVec.ofNat 64 (field b 8 8), min := field b 16 4, max := field b 20 4
    split := BitVec.ofNat 16 (field b 24 2), regs := field b 26 1, warps := field b 27 1, spm := field b 28 4, qin := field b 32 2
    qout := field b 34 2, feat := field b 36 1, grid := none, done := false }

/-- Stage record k of n keeps R167 for a queue count. -/
def stageRule (b : List Byte) (k n queues : Nat) : Bool :=
  kernelOk (field b 24 2) (field b 26 1) (field b 28 4) (field b 27 1) && decide (1 ≤ field b 16 4) && decide (field b 16 4 < 2 ^ 24) &&
  (k == 0 || (decide (field b 16 4 ≤ field b 20 4) && decide (field b 20 4 < 2 ^ 24))) && allZero b 37 27 &&
  (if k = 0 then field b 32 2 == 0xFFFF else decide (field b 32 2 < queues)) &&
  (if k + 1 = n then field b 34 2 == 0xFFFF else decide (field b 34 2 < queues))

/-- A queue table entry keeps R167. -/
def queueRule (b : List Byte) : Bool :=
  field b 0 8 % 256 == 0 && ((List.range 16).any fun k => field b 8 8 == 2 ^ (k + 5)) && allZero b 16 16

/-- A batching table's header keeps R325. -/
def tableRule (b : List Byte) : Bool :=
  decide (1 ≤ field b 0 2) && decide (field b 0 2 ≤ 8192) && allZero b 2 2 && decide (1 ≤ field b 4 4) && decide (field b 4 4 ≤ 2 ^ 24) &&
  allZero b 18 46

/-! ## Edges, cycles, loops -/

/-- The successors of a node. -/
def succsOf (n : Node) (count : Nat) : List Nat := n.succ.filterMap fun x => if x = 0xFFFF ∨ count ≤ x % 4096 then none else some (x % 4096)

/-- The nodes reached from a set along edges, in so many steps. -/
def reachSet (edges : List (List Nat)) : Nat → List Nat → List Nat
  | 0, l => l
  | k + 1, l => reachSet edges k (sinsAll l (l.flatMap fun i => (edges[i]?).getD []))

/-- The nodes that take part in a breach of edges, counts or cycles (R157); beside a record that cannot be read, only a count that
is exceeded is a breach, since edges may be missing. -/
def edgeBreaches (ns : List Node) (whole : Bool) : List Nat :=
  let edges := ns.map fun n => succsOf n ns.length
  let into (i : Nat) : Nat := (edges.map fun l => (l.filter (· == i)).length).sum
  (List.range ns.length).filter fun i => match ns[i]? with
    | some n => (if whole then n.deps != into i else decide (n.deps < into i)) || (reachSet edges ns.length ((edges[i]?).getD [])).contains i
    | none => false

def loopFirst (n : Node) : Nat := n.k48.toNat % 65536
def loopLast (n : Node) : Nat := n.k48.toNat / 65536 % 65536

/-- The loop nodes of a list with their bodies. -/
def loopsOf (ns : List Node) : List (Nat × Nat × Nat) :=
  (List.range ns.length).filterMap fun i => match ns[i]? with
    | some n => if n.kind = 3 then some (i, loopFirst n, loopLast n) else none
    | none => none

/-- A loop with its whole body lies in another's body (R170). -/
def loopInside (a b : Nat × Nat × Nat) : Bool :=
  decide (b.2.1 ≤ a.1) && decide (a.1 ≤ b.2.2) && decide (b.2.1 ≤ a.2.1) && decide (a.2.2 ≤ b.2.2)

/-- The nodes that take part in a breach of R170. -/
def loopBreaches (ns : List Node) : List Nat :=
  let ls := loopsOf ns
  let inBody (l : Nat × Nat × Nat) (j : Nat) : Bool := decide (l.2.1 ≤ j) && decide (j ≤ l.2.2)
  let own := (ls.filter fun l => inBody l l.1).map (·.1)
  let meet := ls.flatMap fun a => (ls.filter fun b => a.1 != b.1 && decide (a.2.1 ≤ b.2.2) && decide (b.2.1 ≤ a.2.2) && !loopInside a b && !loopInside b a).flatMap fun b => [a.1, b.1]
  let out := ls.flatMap fun a => (ls.filter fun b => a.1 != b.1 && inBody b a.1 && !loopInside a b).flatMap fun b => [a.1, b.1]
  let cross := ls.flatMap fun l => (List.range ns.length).flatMap fun i => match ns[i]? with
    | some n => ((succsOf n ns.length).filter fun j => inBody l i != inBody l j).flatMap fun j => [l.1, i, j]
    | none => []
  let deep := (List.range ns.length).flatMap fun j =>
    let c := ls.filter fun l => inBody l j
    if 4 < c.length then j :: c.map (·.1) else []
  own ++ meet ++ out ++ cross ++ deep

/-- The nodes whose stages use a queue that is not the output of exactly one stage and the input of exactly one later one
(R167); a queue that no stage uses is the header's breach. -/
def queueBreaches (stages : List (Nat × List Stage)) (queues : List (Option (List Byte))) : List Nat :=
  (List.range queues.length).flatMap fun q =>
    let outs := stages.flatMap fun p => ((List.range p.2.length).filter fun k => ((p.2[k]?).map fun x => x.qout == q).getD false).map fun k => (p.1, k)
    let ins := stages.flatMap fun p => ((List.range p.2.length).filter fun k => ((p.2[k]?).map fun x => x.qin == q).getD false).map fun k => (p.1, k)
    let good := match outs, ins with
      | [a], [b] => a.1 == b.1 && decide (a.2 < b.2) && (match queues[q]? with | some (some r) => queueRule r | _ => false)
      | _, _ => false
    if good then [] else match (outs ++ ins).map (·.1) with
      | [] => [0xFFFF]
      | l => l

/-! ## The check -/

/-- What a submission comes to: a graph's nodes, queues and stages, or the lowest node in a breach. -/
abbrev Checked := Except Nat (List Node × List Queue × List (Nat × List Stage))

/-- The stage tables of the stage-set nodes, with the nodes whose tables break a rule. -/
def readStages (s : State) (c queues : Nat) (ns : List Node) : DevRes (List (Nat × List Stage) × List Nat) :=
  (List.range ns.length).foldl (fun acc i => match ns[i]? with
    | some n => if n.kind ≠ 2 then acc else
      let k := n.k48.toNat % 256
      devThen acc fun a => devThen (readTable s c n.k40.toNat 64 64 (min k 8)) fun rs =>
        let good := rs.length == k && (rs.mapIdx fun j r => (j, r)).all fun p => match p.2 with | some b => stageRule b p.1 k queues | none => false
        .ok (a.1 ++ [(i, rs.map fun r => stageOfRecord (r.getD (zeros 64)))], if good then a.2 else a.2 ++ [i])
    | none => acc) (.ok ([], []))

/-- The loop nodes whose batching table's header breaks R325. -/
def readTables (s : State) (c : Nat) (ns : List Node) : DevRes (List Nat) :=
  (List.range ns.length).foldl (fun acc i => match ns[i]? with
    | some n => if n.kind ≠ 3 ∨ n.k56 = 0 then acc else
      devThen acc fun a => devThen (tryRead s c n.k56 64 64) fun b =>
        .ok (if (match b with | some x => tableRule x | none => false) then a else a ++ [i])
    | none => acc) (.ok [])

/-- GRAPH_CHECK (R157): the descriptor is read once; a missing page makes the check wait. -/
def checkGraph (s : State) (c chosen : Nat) (header : DWord) : DevRes Checked :=
  devThen (tryRead s c header 64 64) fun h => match h with
  | none => .ok (.error 0xFFFF)
  | some hd =>
    if !headerRule hd chosen then .ok (.error 0xFFFF) else
    let count := field hd 4 4
    devThen (readTable s c (field hd 8 8) 128 128 count) fun rs =>
    devThen (readTable s c (field hd 16 8) 32 32 (field hd 24 4)) fun qs =>
      let ns := rs.map fun r => match r with | some b => nodeOfRecord b | none => { nodeOfRecord (zeros 128) with succ := List.replicate 8 0xFFFF }
      let bad := (List.range count).filter fun i => match rs[i]? with | some (some b) => !nodeRule b count (field hd 0 4) | _ => true
      let ok := ns.mapIdx fun i n => if bad.contains i then { n with kind := 5 } else n
      devThen (readStages s c qs.length ok) fun st =>
      devThen (readTables s c ok) fun tb =>
        let all := bad ++ st.2 ++ tb ++ edgeBreaches ns (rs.all (·.isSome)) ++ loopBreaches ok ++ (if st.2.isEmpty then queueBreaches st.1 qs else [])
        match all with
        | [] => .ok (.ok (ns, qs.map fun q => { ring := field (q.getD []) 0 8, cap := field (q.getD []) 8 8, head := 0, tail := 0, closed := false }, st.1))
        | a :: r => .ok (.error (r.foldl min a))

/-- A submitted graph: the nodes in no loop body that no edge leads into are ready (R158). -/
def newGraph (id : Nat) (cmd : Cmd) (c : Nat) (fixed : Bool) (x : List Node × List Queue × List (Nat × List Stage)) : Graph :=
  let g : Graph := { id := id, cmd := cmd, ctx := c, fixed := fixed, nodes := x.1, queues := x.2.1, stages := x.2.2, slotCmds := [], recorded := []
                     failed := none, cancelled := false, ended := false }
  { g with nodes := g.nodes.mapIdx fun i n => if n.deps = 0 ∧ (loopsAround g i).isEmpty then { n with life := .ready } else n }

end Sys2Proof.Machine
end

