-- ==== Sys2Proof/Machine/Host.lean ====
section
/-! DEFINITION. Function registers, queues and the commands of the host (R387 to R403). Host memory is reached through the
host link; while it is down the rings are neither read nor written. -/

namespace Sys2Proof.Machine

/-! ## Function registers -/

/-- The lane rate the status register shows: 5, 6, 7 for PCIe 5.0 to 7.0, 8 for CXL (R385, R387); 0 before training. -/
def laneRate (s : State) : Nat := if s.mgmt.linkMode = 0 then 0 else s.mgmt.linkMode + 4

/-- Implemented and oldest accepted versions of the three records: queue format, graph descriptor, frames (R2, R388). -/
def recordVersions : List (Nat × Nat) := [(0x00010002, 0x00010000), (0x00010001, 0x00010000), (0x00010000, 0x00010000)]

def versionRecord (f : Fn) (i : Nat) : List Byte :=
  let v := recordVersions[i]?.getD (0, 0)
  leBytes 4 v.1 ++ leBytes 4 v.2 ++ leBytes 4 (f.offered[i]?.getD 0) ++ leBytes 4 (f.chosen[i]?.getD 0)

/-- The status register (R387). -/
def fnStatus (s : State) (f : Fn) : Nat :=
  let b (x : Bool) (k : Nat) : Nat := if x then 2 ^ k else 0
  b f.ready 0 + b (!f.refused.isEmpty) 1 + b (cxl s) 2 + b f.overflow 3 +
  b (f.refused.contains 0) 4 + b (f.refused.contains 1) 5 + b (f.refused.contains 2) 6 + 256 * laneRate s

/-- The register page as the host reads it (R387), up to its last defined byte; every later byte reads as zero. -/
def fnPage (s : State) (i : Nat) : List Byte :=
  let f := fn s i
  leBytes 8 (0x7400 + 2 ^ 16 * (Config.revision % 256) + 2 ^ 24 * (if s.variantC then 0x43 else 0x4D)) ++ zeros 8 ++
  versionRecord f 0 ++ versionRecord f 1 ++ versionRecord f 2 ++
  leBytes 8 f.admSub ++ leBytes 8 f.admComp ++ leBytes 8 f.evRing ++ leBytes 8 f.admTail ++
  leBytes 4 f.sizes.toNat ++ leBytes 4 f.poll.toNat ++ leBytes 4 (if f.enable then 1 else 0) ++ leBytes 4 (fnStatus s f)

/-- The bytes that the host may write (R387, R388): the offered words and 0x040 to 0x06B. -/
def hostWritable (o : Nat) : Bool :=
  (decide (0x18 ≤ o) && decide (o < 0x1C)) || (decide (0x28 ≤ o) && decide (o < 0x2C)) || (decide (0x38 ≤ o) && decide (o < 0x3C)) ||
  (decide (0x40 ≤ o) && decide (o < 0x6C))

/-- What the device answers to an offer (R388): none when it refuses. -/
def chooseVersion (i offered : Nat) : Option Nat :=
  let v := recordVersions[i]?.getD (0, 0)
  if offered < v.2 then none else some (min offered v.1)

/-- The admin pair that the registers describe (R389). -/
def adminPair (f : Fn) : QPair :=
  { num := 0, sub := f.admSub, comp := f.admComp, tail := f.admTail, subLog := (f.sizes.extractLsb' 0 4).toNat
    compLog := (f.sizes.extractLsb' 4 4).toNat, read := 0, posted := 0, cmds := [], busy := [], held := [] }

/-- The queues of a function that becomes ready: an admin pair of the same addresses and sizes goes on where it stood
(R408); another one starts afresh. -/
def readyQueues (f : Fn) : List QPair :=
  let a := adminPair f
  match f.queues.find? (·.num == 0) with
  | some q => if q.sub = a.sub ∧ q.comp = a.comp ∧ q.tail = a.tail ∧ q.subLog = a.subLog ∧ q.compLog = a.compLog then f.queues
      else f.queues.map fun x => if x.num = 0 then a else x
  | none => a :: f.queues

/-- ENABLE is set (R388). -/
def enableFn (f : Fn) : Fn :=
  let answers := f.offered.mapIdx chooseVersion
  let refused := (List.range answers.length).filter fun i => answers[i]? == some none
  let f1 := { f with enable := true, refused := refused, chosen := answers.map fun (a : Option Nat) => a.getD 0 }
  if refused.isEmpty then { f1 with ready := true, queues := readyQueues f } else { f1 with ready := false }

/-- A function whose ENABLE is clear stops once its commands in progress have completed (R388). -/
def settleReady (f : Fn) : Fn :=
  if !f.enable && f.queues.all fun q => q.cmds.isEmpty && q.busy.isEmpty && q.held.isEmpty then { f with ready := false } else f

/-- ENABLE is cleared (R388, R394): OVERFLOW goes with it. -/
def disableFn (f : Fn) : Fn := settleReady { f with enable := false, overflow := false }

/-- ENABLE is written (R388, R408): set, it readies a function that is not ready; clear, it stops one that was set. -/
def writeEnable (on : Bool) (f : Fn) : Fn :=
  if on then (if f.enable && f.ready then f else enableFn f) else if f.enable then disableFn f else f

/-- FUNCTION_ENABLE (R388). -/
def execFunctionEnable (fn : Nat) (s : State) : Host.Outcome State Fault Refusal :=
  .next (if s.mgmt.linkUp then modFn s fn (writeEnable true) else s)

/-- FUNCTION_DISABLE (R388). -/
def execFunctionDisable (fn : Nat) (s : State) : Host.Outcome State Fault Refusal :=
  .next (if s.mgmt.linkUp then modFn s fn (writeEnable false) else s)

/-- The registers after a write of bytes: the event ring starts afresh where its address or size changes. -/
def putRegisters (b : List Byte) (f : Fn) : Fn :=
  let f1 := { f with
    offered := [field b 0x18 4, field b 0x28 4, field b 0x38 4]
    admSub := field b 0x40 8, admComp := field b 0x48 8, evRing := field b 0x50 8, admTail := field b 0x58 8
    sizes := BitVec.ofNat 32 (field b 0x60 4 % 2 ^ 12), poll := BitVec.ofNat 32 (field b 0x64 4 % 2 ^ 4) }
  let same := decide (f1.evRing = f.evRing) && f1.sizes.extractLsb' 8 4 == f.sizes.extractLsb' 8 4
  if same then f1 else { f1 with evPosted := 0 }

/-- FUNCTION_REGISTER_WRITE (R387): fields that are reserved or read-only ignore writes; ENABLE acts where the write covers
it. -/
def execFunctionRegisterWrite (fn off : Nat) (data : List Byte) (s : State) : Host.Outcome State Fault Refusal :=
  .next (if !s.mgmt.linkUp then s else
    let b := (fnPage s fn).mapIdx fun o x => if decide (off ≤ o) && hostWritable o then data[o - off]?.getD x else x
    modFn s fn fun f =>
      if off ≤ 0x68 ∧ 0x68 < off + data.length then writeEnable (field b 0x68 1 % 2 == 1) (putRegisters b f) else putRegisters b f)

/-! ## Reading the submission rings -/

/-- Where a command is accepted, and from which version (R392): queue 0 any, 1 admin, 2 the physical function's admin. -/
def opcodeRow (op : Nat) : Option (Nat × Nat) :=
  match op with
  | 1 | 2 | 3 | 8 | 9 | 14 => some (1, 0x00010000)
  | 4 | 5 | 15 => some (0, 0x00010000)
  | 6 | 7 => some (0, 0x00010001)
  | 10 => some (1, 0x00010002)
  | 11 | 12 | 13 => some (2, 0x00010000)
  | _ => none

/-- The command of an entry (R391, R392). -/
def cmdInstr (c : Cmd) : Option Instr :=
  match c.op with
  | 1 => some (.createContext c) | 2 => some (.destroyContext c) | 3 => some (.createQueue c) | 4 => some (.submitGraph c)
  | 5 => some (.cancelGraph c) | 6 => some (.addSlot c) | 7 => some (.removeSlot c) | 8 => some (.createRange c)
  | 9 => some (.mapRange c) | 10 => some (.bindPeer c) | 11 => some (.setQuantum c) | 12 => some (.repartition c)
  | 13 => some (.assignFunction c) | 14 => some (.resume c) | 15 => some (.pageReady c)
  | _ => none

/-- The command in a submission entry of 64 bytes (R391). -/
def cmdOf (f q slot : Nat) (b : List Byte) : Cmd :=
  { fn := f, queue := q, slot := slot, op := field b 0 1, ordered := field b 1 1 % 2 == 1, ctx := field b 2 2, id := field b 4 4, args := b.drop 8 }

/-- The device has read an entry (R391 to R393): an ORDERED command waits for every earlier one of its queue, any other
starts. -/
def takeEntry (f q : Nat) (s : State) : State :=
  match (fn s f).queues.find? (·.num == q) with
  | none => s
  | some p =>
    let b := homeBytes s 1 (p.sub + 64 * (p.read % 2 ^ p.subLog)) 64
    let c := cmdOf f q p.read b
    let s1 := modQueue s f q fun x => { x with read := x.read + 1, busy := x.busy ++ [c.slot] }
    if field b 1 1 ≥ 2 then complete s1 c 1 0
    else match cmdInstr c with
      | none => complete s1 c 2 0
      | some i =>
        if c.ordered && !(p.busy.isEmpty && p.cmds.isEmpty) then
          modQueue s f q fun x => { x with read := x.read + 1, cmds := x.cmds ++ [c] }
        else { s1 with agenda := s1.agenda ++ [i] }

/-- The new entries up to the tail word, in ring order (R390). -/
def readTail (f q : Nat) (s : State) : State :=
  let x := fn s f
  if !(s.mgmt.linkUp && x.enable && x.ready) then s else
  match x.queues.find? (·.num == q) with
  | none => s
  | some p =>
    let tail := field (homeBytes s 1 p.tail 8) 0 4
    (List.range ((tail + 2 ^ 32 - p.read % 2 ^ 32) % 2 ^ 32)).foldl (fun t _ => takeEntry f q t) s

/-- TAIL_REREAD (R390): the host has invalidated the tail line. -/
def execTailReread (fn queue : Nat) (s : State) : Host.Outcome State Fault Refusal :=
  .next (if cxl s then readTail fn queue s else s)

/-- TAIL_POLL (R390): without CXL the tail words are polled. -/
def execTailPoll (fn queue : Nat) (s : State) : Host.Outcome State Fault Refusal :=
  .next (if cxl s then s else readTail fn queue s)

/-- An ORDERED command may start (R391): every earlier command of its queue has completed. -/
def mayStart (q : QPair) (c : Cmd) : Bool := (q.busy.all fun k => decide (c.slot ≤ k)) && (q.cmds.head?.map fun x => x.slot) == some c.slot

/-! ## Writing completions and events -/

/-- Every write of the device's dies is performed: a system-scope release (R393). -/
def releaseAll (s : State) : State := (List.range 4).foldl drainDie s

/-- COMPLETION_POST (R393): the oldest held completion is written, with the phase and the read position, into a slot that
the host has consumed. Effects that are not yet visible hold it back. -/
def execCompletionPost (fn queue : Nat) (s : State) : Host.Outcome State Fault Refusal :=
  .next (
    let f := Machine.fn s fn
    if !(s.mgmt.linkUp && f.ready) then s else
    match f.queues.find? (·.num == queue) with
    | none => s
    | some q => match q.held with
      | [] => s
      | e :: rest =>
        let size := 2 ^ q.compLog
        let free := decide (q.posted < size) || Config.hostTook s.tick q.posted
        if !free || (List.range 4).any fun d => stuck s d then s else
        let phase := if q.posted / size % 2 = 0 then 1 else 0
        let entry := e.take 5 ++ leBytes 1 phase ++ leBytes 2 (q.read % 2 ^ q.subLog) ++ e.drop 8
        let s1 := homeWrite (releaseAll s) 4 none 1 (q.comp + 16 * (q.posted % size)) entry none false
        modFn (modQueue s1 fn queue fun x => { x with held := rest, posted := x.posted + 1 }) fn settleReady)

/-- HELD_EVENT_POST (R394): the oldest held event is written once its slot of the ring is free. -/
def execHeldEventPost (fn : Nat) (s : State) : Host.Outcome State Fault Refusal :=
  .next (
    let f := Machine.fn s fn
    if !(s.mgmt.linkUp && f.ready) then s else
    match f.events with
    | [] => s
    | e :: rest =>
      let size := 2 ^ (f.sizes.extractLsb' 8 4).toNat
      if !(decide (f.evPosted < size) || Config.hostTook s.tick f.evPosted) then s else
      let phase := if f.evPosted / size % 2 = 0 then 128 else 0
      let entry := e.take 1 ++ leBytes 1 phase ++ e.drop 2
      modFn (homeWrite s 4 none 1 (f.evRing + 128 * (f.evPosted % size)) entry none false) fn fun x => { x with events := rest, evPosted := x.evPosted + 1 })

/-! ## Commands -/

/-- An operand of n bytes at offset o of the entry (R391). -/
def cmdArg (c : Cmd) (o n : Nat) : Nat := field c.args (o - 8) n

/-- Every operand byte outside the given ranges is zero (R391). -/
def onlyBytes (c : Cmd) (used : List (Nat × Nat)) : Bool :=
  (List.range 56).all fun i => (used.any fun u => decide (u.1 ≤ i + 8) && decide (i + 8 < u.1 + u.2)) || c.args[i]?.getD 0 == 0

/-- A command starts: it counts as in progress. -/
def takeCmd (s : State) (c : Cmd) : State :=
  modQueue s c.fn c.queue fun q => { q with
    cmds := q.cmds.filter fun x => x.slot != c.slot
    busy := if q.busy.contains c.slot then q.busy else q.busy ++ [c.slot] }

/-- The status a command gets before it is looked at (R392, R393, R402): its opcode is not in the chosen format, it is not
permitted to the function, it stands in the wrong queue, or it uses bytes it does not have. -/
def cmdTrouble (s : State) (c : Cmd) (used : List (Nat × Nat)) : Option Nat :=
  match opcodeRow c.op with
  | none => some 2
  | some (q, v) =>
    if (fn s c.fn).chosen[0]?.getD 0 < v then some 2
    else if q = 2 ∧ c.fn ≠ 0 then some 6
    else if q ≠ 0 ∧ c.queue ≠ 0 then some 1
    else if onlyBytes c used then none else some 1

/-- A command that is well formed so far runs its body; any other completes with its status. -/
def command (s : State) (c : Cmd) (used : List (Nat × Nat)) (body : State → State) : Host.Outcome State Fault Refusal :=
  let t := takeCmd s c
  .next (match cmdTrouble s c used with
    | some st => complete t c st 0
    | none => body t)

/-- The context that a command names, where it belongs to the command's function (R391, R402). -/
def ownCtx (s : State) (c : Cmd) : Option Ctx := (ctx? s c.ctx).filter fun x => x.fn == c.fn

/-- A command on a context of its function; any other context is malformed. -/
def withCtx (s : State) (c : Cmd) (k : Ctx → State) : State :=
  match ownCtx s c with
  | some x => k x
  | none => complete s c 1 0

/-- A command that names no context has a zero there (R391). -/
def withoutCtx (s : State) (c : Cmd) (k : State) : State := if c.ctx = 0 then k else complete s c 1 0

/-! ### Contexts and queues -/

/-- The context that an image gives (R392); reserved bits are ignored as in a CWRITE (R367). -/
def imageCtx (id fn root : Nat) (b : List Byte) : Ctx :=
  let k (i : Nat) : DWord := BitVec.ofNat 64 (field b (8 * i) 8)
  { id := id, fn := fn, root := root, trapvec := k 0 &&& 0xFFFFFFFFFFFFFFF8, trapframe := k 1 &&& 0xFFFFFFFFFFFF0000
    fixed := (k 2).getLsbD 0, clockdiv := (k 3).setWidth 4, tidbase := k 4, ordesc := k 5, preempt := k 6 &&& 0x01FFFFFFFFFFFFC1
    dbg := (k 7).setWidth 3, pins := [], maps := [], tidCount := [], frames := [], left := [], leftSpm := [] }

/-- The lowest K_CTXID not in use (R402). -/
def freeCtx (s : State) : Option Nat := ((List.range 4095).map (· + 1)).find? fun i => (ctx? s i).isNone

/-- CREATE_CONTEXT (R392, R402). -/
def execCreateContext (c : Cmd) (s : State) : Host.Outcome State Fault Refusal :=
  command s c [(8, 8), (16, 8)] fun t => withoutCtx t c (
    if cmdArg c 8 8 % 4096 ≠ 0 ∨ cmdArg c 16 8 % 64 ≠ 0 then complete t c 1 0
    else if !t.mgmt.linkUp then complete t c 5 0
    else match freeCtx t with
      | none => complete t c 3 0
      | some id => complete { t with ctxs := sput t.ctxs id (imageCtx id c.fn (cmdArg c 8 8) (homeBytes t 1 (cmdArg c 16 8) 64)) } c 0 id)

/-- DESTROY_CONTEXT (R392, R395): graphs fail CANCEL, groups are discarded, regions dropped. -/
def execDestroyContext (c : Cmd) (s : State) : Host.Outcome State Fault Refusal :=
  command s c [] fun t => withCtx t c fun _ => complete (discardCtx t c.ctx 6) c 0 0

/-- The lowest number of a further queue pair (R389). -/
def freeQueue (f : Fn) : Option Nat := ((List.range 63).map (· + 1)).find? fun i => !(f.queues.any (·.num == i))

/-- CREATE_QUEUE (R389, R392). -/
def execCreateQueue (c : Cmd) (s : State) : Host.Outcome State Fault Refusal :=
  command s c [(8, 8), (16, 8), (24, 8), (32, 1)] fun t => withoutCtx t c (
    let sub := cmdArg c 32 1 % 16
    let comp := cmdArg c 32 1 / 16
    if cmdArg c 8 8 % 64 ≠ 0 ∨ cmdArg c 16 8 % 16 ≠ 0 ∨ cmdArg c 24 8 % 64 ≠ 0 ∨ sub < 4 ∨ comp < 4 then complete t c 1 0
    else match freeQueue (fn t c.fn) with
      | none => complete t c 3 0
      | some n => complete (modFn t c.fn fun f => { f with queues := f.queues ++
          [{ num := n, sub := cmdArg c 8 8, comp := cmdArg c 16 8, tail := cmdArg c 24 8, subLog := sub, compLog := comp, read := 0
             posted := 0, cmds := [], busy := [], held := [] }] }) c 0 n)

/-! ### Graphs and slots -/

/-- The slot commands held for a submission are read now (R392). -/
def releaseSlots (s : State) (f id : Nat) : State :=
  let mine := (fn s f).waitSlots.filter fun x => cmdArg x 8 4 == id
  { (modFn s f fun x => { x with waitSlots := x.waitSlots.filter fun y => cmdArg y 8 4 != id }) with
    agenda := s.agenda ++ mine.filterMap cmdInstr }

/-- A malformed submission: a graph without nodes that has ended, so that later commands find it (R157, R160, R392). -/
def refuseGraph (s : State) (c : Cmd) (node : Nat) : State :=
  let (id, s1) := fresh s
  let g := { newGraph id c c.ctx false ([], [], []) with ended := true, failed := some (node, 1) }
  releaseSlots (complete { s1 with graphs := s1.graphs ++ [g] } c 4 (node + 65536)) c.fn c.id

/-- SUBMIT_GRAPH (R157, R158, R392): it completes when the graph does. What the host has written happens-before its first nodes
(R159). -/
def execSubmitGraph (c : Cmd) (s : State) : Host.Outcome State Fault Refusal :=
  command s c [(8, 8)] fun t => withCtx t c fun x =>
    match checkGraph t c.ctx ((fn t c.fn).chosen[1]?.getD 0) (BitVec.ofNat 64 (cmdArg c 8 8)) with
    | .wait va => if waiting t (.submitGraph c) then t else devWait t (.submitGraph c) c.ctx va
    | .ok (.ok g) =>
      let (id, t1) := fresh t
      releaseSlots (sendAlong (.node id 65536) { clock := [(5, lastStamp t1)], seen := [] } { t1 with graphs := t1.graphs ++ [newGraph id c c.ctx x.fixed g] })
        c.fn c.id
    | .ok (.error n) => refuseGraph t c n
    | .bad .. => refuseGraph t c 0xFFFF
    | .hole => refuseGraph t c 0xFFFF

/-- The running graph of a function that a command id names: the one submitted last. -/
def liveGraph (s : State) (f id : Nat) : Option Graph :=
  (s.graphs.filter fun g => g.cmd.fn == f && g.cmd.id == id && !g.ended).getLast?

/-- CANCEL_GRAPH (R160, R392): the groups that run may run to their end, and a group that never would is ended (R240, R268, R378; log
entry 52). -/
def execCancelGraph (c : Cmd) (s : State) : Host.Outcome State Fault Refusal :=
  command s c [(8, 4)] fun t => withoutCtx t c (
    match liveGraph t c.fn (cmdArg c 8 4) with
    | some g => complete (failGraph (modGraph t g.id fun x => { x with cancelled := true }) g 6) c 0 0
    | none => complete t c 0 0)

/-- The slot count in a batching table's header (R325), read once. -/
def slotCount (s : State) (g : Graph) (node : Nat) (table : DWord) : DevRes Nat :=
  devThen (devRead s g.ctx (nodeGen s g.id node) table 64 64) fun b => .ok (field b 0 2)

/-- ADD_SLOT and REMOVE_SLOT (R392): applied at the next boundary of the loop node they name. -/
def slotCommand (add : Bool) (i : Instr) (c : Cmd) (s : State) : Host.Outcome State Fault Refusal :=
  command s c [(8, 4), (12, 2), (14, 2)] fun t => withoutCtx t c (
    match liveGraph t c.fn (cmdArg c 8 4) with
    | none =>
      if t.graphs.any fun g => g.cmd.fn == c.fn && g.cmd.id == cmdArg c 8 4 then complete t c 1 0
      else if (fn t c.fn).waitSlots.length ≥ 256 then complete t c 3 0
      else modFn t c.fn fun f => { f with waitSlots := f.waitSlots ++ [c] }
    | some g => match g.nodes[cmdArg c 12 2]? with
      | none => complete t c 1 0
      | some n => if n.kind ≠ 3 ∨ n.k56 = 0 then complete t c 1 0 else
        match slotCount t g (cmdArg c 12 2) n.k56 with
        | .ok k => if cmdArg c 14 2 ≥ k then complete t c 1 0 else
            modGraph t g.id fun x => { x with slotCmds := x.slotCmds ++ [{ cmd := c, node := cmdArg c 12 2, slot := cmdArg c 14 2, add := add, applied := false }] }
        | .wait va => if waiting t i then t else devWait t i g.ctx va
        | _ => complete t c 1 0)

/-- ADD_SLOT (R392). -/
def execAddSlot (c : Cmd) (s : State) : Host.Outcome State Fault Refusal := slotCommand true (.addSlot c) c s

/-- REMOVE_SLOT (R392). -/
def execRemoveSlot (c : Cmd) (s : State) : Host.Outcome State Fault Refusal := slotCommand false (.removeSlot c) c s

/-! ### Ranges -/

/-- CREATE_RANGE (R332, R392): version slot 0 staging, the others free. -/
def execCreateRange (c : Cmd) (s : State) : Host.Outcome State Fault Refusal :=
  command s c [(8, 1), (12, 4), (16, 32)] fun t => withoutCtx t c (
    let n := cmdArg c 8 1
    let size := cmdArg c 12 4
    let bases := (List.range 4).map fun k => cmdArg c (16 + 8 * k) 8
    if n > 63 ∨ (range? t n).isSome ∨ size = 0 ∨ size % 65536 ≠ 0 ∨ (bases.any fun b => decide (b % 65536 ≠ 0) || decide (b + size > physTop)) = true
    then complete t c 1 0
    else complete { t with ranges := t.ranges ++ [{ num := n, fn := c.fn, size := size, bases := bases
                                                    slots := (.staging, 0) :: List.replicate 3 (.free, 0), last := none }] } c 0 0)

/-- MAP_RANGE (R392). -/
def execMapRange (c : Cmd) (s : State) : Host.Outcome State Fault Refusal :=
  command s c [(8, 1), (16, 8), (24, 8)] fun t => withCtx t c fun _ =>
    let n := cmdArg c 8 1
    match range? t n with
    | none => complete t c 1 0
    | some r =>
      if r.fn ≠ c.fn then complete t c 6 0
      else if cmdArg c 16 8 % 65536 ≠ 0 ∨ cmdArg c 24 8 % 65536 ≠ 0 then complete t c 1 0
      else complete (modCtx t c.ctx fun x => { x with maps := (x.maps.filter fun m => m.1 != n) ++ [(n, cmdArg c 16 8, cmdArg c 24 8)] }) c 0 0

/-! ### Peers -/

/-- BIND_PEER (R396, R399): a port holds up to 16 bindings; one of a context replaces that context's earlier one. -/
def execBindPeer (c : Cmd) (s : State) : Host.Outcome State Fault Refusal :=
  command s c [(8, 1), (12, 2)] fun t => withCtx t c fun _ =>
    let p := cmdArg c 8 1
    let remote := cmdArg c 12 2
    match t.ports[p]? with
    | none => complete t c 1 0
    | some q =>
      let others := q.bindings.filter fun b => b.1 != c.ctx
      if remote = 0 ∨ remote > 4095 then complete t c 1 0
      else if !((partAt t (partOfCtx t c.ctx)).ports.getLsbD p) then complete t c 6 0
      else if others.length ≥ 16 then complete t c 3 0
      else complete { t with ports := modAt t.ports p fun x => { x with bindings := others ++ [(c.ctx, remote, false)] } } c 0 0

/-- PEER_BINDING_MATCH (R396): the remote device has bound the matching pair. -/
def execPeerBindingMatch (port ctx : Nat) (s : State) : Host.Outcome State Fault Refusal :=
  .next { s with ports := modAt s.ports port fun q => if q.up then
      { q with bindings := q.bindings.map fun b => if b.1 = ctx then (b.1, b.2.1, true) else b }
    else q }

/-! ### Partitions and slices -/

/-- A quantum table entry as (LEN, Q, FN), where it keeps R403. -/
def quantumEntry (x : Nat) : Option (Nat × Nat × Nat) :=
  let len := bitsOf x 39 16
  if bitsOf x 63 40 ≠ 0 ∨ bitsOf x 7 6 ≠ 0 ∨ len < 10 ∨ bitsOf x 5 0 > 32 then none else some (len, bitsOf x 15 8, bitsOf x 5 0)

/-- The quantum table is replaced: the running function keeps its slice where the new table has it, and is saved where
it has not. -/
def newTable (s : State) (p : Nat) (es : List (Nat × Nat × Nat)) : State :=
  let out := sliceFn s p
  let s1 := modPart s p fun x => { x with quanta := es, current := 0 }
  match indexWhere (fun (e : Nat × Nat × Nat) => some e.2.2 == out) (sliceEntries s1 p) with
  | some i => modPart s1 p fun x => { x with current := i }
  | none => settleRegions ((groupsOfFn (applyArrived s1 p) p out).foldl (fun t g => haltAndSave t g .slice) (applyArrived s1 p))

/-- SET_QUANTUM (R403): the table is read from host memory. -/
def execSetQuantum (c : Cmd) (s : State) : Host.Outcome State Fault Refusal :=
  command s c [(8, 1), (9, 1), (16, 8)] fun t => withoutCtx t c (
    let n := cmdArg c 9 1
    let es := (List.range n).map fun i => quantumEntry (field (homeBytes t 1 (cmdArg c 16 8 + 8 * i) 8) 0 8)
    if cmdArg c 8 1 > 7 ∨ n > 32 then complete t c 1 0
    else if !t.mgmt.linkUp then complete t c 5 0
    else if es.any (·.isNone) then complete t c 1 0
    else complete (newTable t (cmdArg c 8 1) (es.filterMap id)) c 0 0)

/-- A partition as its table entry gives it: halves, ports, private mode; none where a reserved field is not zero (R399). -/
def partEntry (x : Nat) : Option (Nat × Nat × Bool) :=
  if bitsOf x 63 24 ≠ 0 ∨ bitsOf x 15 9 ≠ 0 then none else some (bitsOf x 7 0, bitsOf x 23 16, bitsOf x 8 8 == 1)

/-- The table keeps R399. -/
def partTable (s : State) (es : List (Option (Nat × Nat × Bool))) : Option (List (Nat × Nat × Bool)) :=
  let ps := es.filterMap id
  let share (f : Nat × Nat × Bool → Nat) : Bool := (List.range 8).any fun b => decide (1 < (ps.filter fun x => (f x).testBit b).length)
  if es.any (·.isNone) || share (·.1) || share (·.2.1) || (ps.any fun x => !x.2.2 && x.1 != 0 && x.1 != 0xFF) ||
    ((List.range 8).any fun i => ((ps[i]?).map fun x => x.1 == 0).getD true && s.fns.any fun f => f.part == i || f.nextPart == some i)
  then none else some ps

/-- The partitions whose entries change (R401). -/
def affectedParts (s : State) (ps : List (Nat × Nat × Bool)) : List Nat :=
  (List.range 8).filter fun i => match ps[i]? with
    | some x => decide ((partAt s i).halves.toNat ≠ x.1) || decide ((partAt s i).ports.toNat ≠ x.2.1) || (partAt s i).priv != x.2.2
    | none => false

/-- A partition of n halves. -/
def halvesIn (x : Nat) : Nat := ((List.range 8).filter fun b => x.testBit b).length

/-- The half in which a cache lies, by its number: a cluster's L1, or a slice. -/
def halfOfCache (k : Nat) : Nat := if k < 384 then halfOf (2 * k) else 2 * ((k - 384) / 24) + (k - 384) % 24 / 12

/-- Dirty bytes of the caches go to memory, but those of lines whose write-back meets an error (R414); every line of the caches of some
halves is invalidated, and the directory and snoop-filter entries of lines that no cache holds any more are cleared (R401). -/
def flushCaches (halves : List Nat) (s : State) : State :=
  let t := s.bad.foldl (fun t g => if t.bad.contains g && dirtyBad t g then failLine t (8 * g) else t) s
  let left := t.caches.filter fun x => !halves.contains (halfOfCache x.1)
  { t with
    l2 := [], mem := t.l2.foldl (fun m p => memPut m p.1 p.2) t.mem, caches := left
    snoops := t.snoops.map fun x => (x.1, x.2.filter fun y => left.any fun c => c.2.any (·.line == y.1)) }

/-- Queued groups whose die their partition no longer has go to its first die, and regions to units there (R401). -/
def rehome (s : State) (p : Nat) : State :=
  match (partDies s p).head? with
  | none => s
  | some d0 =>
    let mine (g : Nat) : Bool := ((group? s g).map fun x => partOfCtx s x.ctx == p).getD false
    let away := (List.range 4).filter fun d => !((partDies s p).contains d)
    let moved := away.flatMap fun d => (die s d).queue.filter mine
    let s1 := { s with dies := s.dies.mapIdx fun i x => if away.contains i then { x with queue := x.queue.filter fun g => !(mine g) } else x }
    let s2 := modDie s1 d0 fun x => { x with queue := x.queue ++ moved }
    { s2 with
      groups := s2.groups.map fun g => if moved.contains g.1 then (g.1, { g.2 with core := 192 * d0 + g.2.core % 192 }) else g
      regions := s2.regions.map fun r => if partOfCtx s r.ctx = p ∧ away.contains r.die = true then { r with die := d0 } else r
      ports := s2.ports.mapIdx fun i q => if (partAt s p).ports.getLsbD i then q else { q with bindings := q.bindings.filter fun b => partOfCtx s b.1 != p } }

/-- Steps 3 to 5 of a REPARTITION (R401). -/
def applyParts (s : State) (ps : List (Nat × Nat × Bool)) : State :=
  let ch := affectedParts s ps
  let sized := ch.filter fun i => match ps[i]? with | some x => decide (halvesIn x.1 ≠ halvesIn (partAt s i).halves.toNat) | none => false
  let halves := (List.range 8).filter fun b => ch.any fun i => (partAt s i).halves.getLsbD b || (match ps[i]? with | some x => x.1.testBit b | none => false)
  let s1 := flushCaches halves (unbindIdle (releaseAll s))
  let s2 := { s1 with parts := s1.parts.mapIdx fun i x => match ps[i]? with
    | some y => if ch.contains i then { x with halves := BitVec.ofNat 8 y.1, ports := BitVec.ofNat 8 y.2.1, priv := y.2.2, stopped := false } else x
    | none => x }
  let s3 := bindRegions (ch.foldl rehome s2)
  (s3.graphs.filter fun g => g.fixed && !g.ended && sized.contains (partOfCtx s3 g.ctx)).foldl (fun t g => postLoss t g.ctx) s3

/-- No group is left on the cores of some partitions. -/
def coresEmpty (s : State) (ch : List Nat) : Bool :=
  !(s.groups.any fun g => (g.2.life == .resident || g.2.life == .halted) && ch.any fun p => (partAt s p).halves.getLsbD (halfOf g.2.core))

/-- The REPARTITION at hand goes as far as it can (R399, R401): stop, save, and once every save is done the rest. -/
def runRepartition (s : State) (c : Cmd) : State :=
  let ends (t : State) (st : Nat) : State := complete (modFn t c.fn fun f => { f with going := f.going.filter fun x => x.slot != c.slot }) c st 0
  match partTable s ((List.range 8).map fun i => partEntry (field c.args (56 + 8 * i) 8)) with
  | none => ends s 1
  | some ps =>
    let ch := affectedParts s ps
    let s1 := ch.foldl (fun t p => modPart (applyArrived t p) p fun x => { x with stopped := true }) s
    let s2 := (ch.flatMap (groupsOfPart s1)).foldl (fun t g => haltAndSave t g .preempt) s1
    if coresEmpty s2 ch && !((List.range 4).any fun d => stuck s2 d) then ends (applyParts s2 ps) 0 else s2

/-- REPARTITION (R399, R401). While saves are awaited the command stands in the function's list with the table it has
read after its operands, and is looked at again. -/
def execRepartition (c : Cmd) (s : State) : Host.Outcome State Fault Refusal :=
  if 56 < c.args.length then .next (if (fn s c.fn).going.head? = some c then runRepartition s c else s) else
  command s c [(16, 8)] fun t => withoutCtx t c (
    if !t.mgmt.linkUp then complete t c 5 0 else
    let d := { c with args := c.args ++ homeBytes t 1 (cmdArg c 16 8) 64 }
    let t1 := modFn t c.fn fun f => { f with going := f.going ++ [d] }
    if (fn t c.fn).going.isEmpty then runRepartition t1 d else t1)

/-- ASSIGN_FUNCTION (R399, R402): it takes effect at the next slice end of the function's partition. -/
def execAssignFunction (c : Cmd) (s : State) : Host.Outcome State Fault Refusal :=
  command s c [(8, 1), (9, 1)] fun t => withoutCtx t c (
    let f := cmdArg c 8 1
    let p := cmdArg c 9 1
    if f = 0 ∨ f > 32 ∨ p > 7 ∨ (partAt t p).halves = 0 then complete t c 1 0
    else complete (modFn t f fun x => { x with nextPart := if x.part = p then none else some p }) c 0 0)

/-! ### Handlers and pages -/

/-- A warp held in IDLE whose trap frame lies at an address goes on (R376). -/
def resumeWarp (va : Nat) (wp : Warp) : Warp :=
  match wp.handler with
  | some h => if h.frame.toNat = va then endHolds wp fun k => k.kind = .idle else wp
  | none => wp

/-- The warps that a resumption names go on. -/
def resumeNamed (t : State) (c : Cmd) : State :=
  match ownCtx t c with
  | none => t
  | some x => { t with groups := t.groups.map fun g => if g.2.ctx = x.id then (g.1, { g.2 with warps := g.2.warps.map (resumeWarp (cmdArg c 8 8)) }) else g }

/-- RESUME (R376, R392): a command of the host, or from queue 64, which no function has, the management processor's own. -/
def execResume (c : Cmd) (s : State) : Host.Outcome State Fault Refusal :=
  if c.queue = 64 then .next (resumeNamed s c) else
  command s c [(8, 8)] fun t => complete (resumeNamed t c) c 0 0

/-- A saved group that a PAGE_READY names need wait no longer (R395). -/
def pageMatch (ctx va : Nat) (pool : Bool) (gr : Group) : Bool :=
  gr.ctx == ctx && gr.life == .saved && gr.cause == some .page &&
  match gr.waitVa with
  | some (w, _, p) => if pool then p else !p && w.toNat / 65536 == va / 65536
  | none => false

/-- A device step that a PAGE_READY names (R395, R431). -/
def stepMatch (ctx va : Nat) (pool : Bool) (w : Instr × Nat × DWord) : Bool :=
  w.2.1 == ctx && if pool then (match w.1 with | .templateCapture _ => true | _ => false) else w.2.2.toNat / 65536 == va / 65536

/-- A waiting step that is tried again at once: a command. Every other one is among the device's happenings again. -/
def isCommand : Instr → Bool
  | .submitGraph _ => true
  | .addSlot _ => true
  | .removeSlot _ => true
  | _ => false

/-- PAGE_READY (R395): the groups and device steps that waited for the page, or for the pool, may go on. -/
def execPageReady (c : Cmd) (s : State) : Host.Outcome State Fault Refusal :=
  command s c [(8, 8), (16, 8)] fun t =>
    if cmdArg c 16 8 > 1 then complete t c 1 0 else
    let pool := cmdArg c 16 8 == 1
    match ownCtx t c with
    | none => complete t c 0 0
    | some x =>
      let again := t.waits.filter (stepMatch x.id (cmdArg c 8 8) pool)
      complete { t with
        groups := t.groups.map fun g => if pageMatch x.id (cmdArg c 8 8) pool g.2 then (g.1, { g.2 with waitVa := none }) else g
        waits := t.waits.filter fun w => !stepMatch x.id (cmdArg c 8 8) pool w
        agenda := t.agenda ++ (again.map (·.1)).filter isCommand } c 0 0

end Sys2Proof.Machine
end

