-- ==== Sys2Proof/Machine/Board.lean ====
section
/-! DEFINITION. Reset, links, the management controller, the debugger and the power limits (R359, R360, R396, R398, R405 to
R417). -/

namespace Sys2Proof.Machine

/-! ## The management port -/

/-- The arithmetic clock of the variant, MHz (R1, R417). -/
def nominalClock (s : State) : Nat := if s.variantC then 950 else 1300

/-- Board power limit of the variant, W (R1, R417). -/
def boardLimit (c : Bool) : Nat := if c then 600 else 1000

/-- The version of the oldest message that waits at the management port; one that says nothing is of version 1.0. -/
def portVersion (s : State) : Nat := s.mgmt.versions.headD 0x00010000

/-- A request on the management port takes the message's version from the port: messages are version 1.0, and one of any other
version is answered with an error (R2). -/
def manage (s : State) (effect : State → State) : Host.Outcome State Fault Refusal :=
  let t := { s with mgmt := { s.mgmt with versions := s.mgmt.versions.tail } }
  .next (if portVersion s = 0x00010000 then effect t else postMgmt t [8, portVersion s])

/-- PLDM_MONITORING (R411): temperatures, power, clocks, error counts, retired macros of each core that has any, links. -/
def execPldmMonitoring (s : State) : Host.Outcome State Fault Refusal :=
  manage s (fun s => postMgmt s ([4] ++ (List.range 5).map (Config.sensor s.tick) ++ s.dies.map (·.clock) ++ s.mgmt.corrected ++ s.mgmt.uncorrected ++
    (s.cores.filter fun c => !c.2.retired.isEmpty).flatMap (fun c => c.1 :: c.2.retired.length :: c.2.retired) ++
    [if s.mgmt.linkUp then 1 else 0] ++ s.ports.map fun p => if p.up then 1 else 0))

/-- POWER_LIMIT_SET (R411, R417): a limit above the variant's has no effect beyond it. -/
def execPowerLimitSet (watts : Nat) (s : State) : Host.Outcome State Fault Refusal :=
  manage s fun s => { s with mgmt := { s.mgmt with limit := min watts (boardLimit s.variantC) } }

/-- REDUCED_PRECISION_SET (R411, R417). -/
def execReducedPrecisionSet (fn : Nat) (on : Bool) (s : State) : Host.Outcome State Fault Refusal :=
  manage s (fun s => modFn s fn fun f => { f with reduced := on })

/-- FIRMWARE_UPDATE (R410): the inactive bank takes the image; a valid one waits for the next reset. -/
def execFirmwareUpdate (image : List Byte) (valid : Bool) (s : State) : Host.Outcome State Fault Refusal :=
  manage s fun s => { s with mgmt := { s.mgmt with bankOther := image, switch := valid } }

/-- The partition table in force, in the form that REPARTITION takes (R399). -/
def tableInForce (s : State) : List Byte :=
  s.parts.flatMap fun p => leBytes 8 (p.halves.toNat + (if p.priv then 2 ^ 8 else 0) + 2 ^ 16 * p.ports.toNat)

/-- SPDM_ATTESTATION (R410): digests of the active and inactive firmware, the fuses and the partition table. -/
def execSpdmAttestation (s : State) : Host.Outcome State Fault Refusal :=
  manage s (fun s => postMgmt s [5, sha256 s.mgmt.bankActive, sha256 s.mgmt.bankOther, sha256 Config.fuses, sha256 (tableInForce s)])

/-- FREEZE_REQUEST (R412): the clocks stop; a second request may add that state was written. -/
def execFreezeRequest (wrote : Bool) (s : State) : Host.Outcome State Fault Refusal :=
  .next { s with mgmt := { s.mgmt with frozen := some (wrote || s.mgmt.frozen == some true) } }

/-- FREEZE_RELEASE (R412): a freeze that wrote nothing ends. -/
def execFreezeRelease (s : State) : Host.Outcome State Fault Refusal :=
  .next { s with mgmt := { s.mgmt with frozen := if s.mgmt.frozen = some false then none else s.mgmt.frozen } }

/-! ## The debugger -/

/-- CORE_HALT (R359, R360): the core stops issuing. -/
def execCoreHalt (core : Nat) (s : State) : Host.Outcome State Fault Refusal :=
  .next (modCore s core fun c => { c with halted := true })

/-- CORE_RESUME (R125, R359, R360): lanes stopped at a BRKPT issue it again. -/
def execCoreResume (core : Nat) (s : State) : Host.Outcome State Fault Refusal :=
  .next (
    let s1 := modCore s core fun c => { c with halted := false }
    { s1 with groups := s1.groups.map fun g => if g.2.core = core ∧ g.2.life = .resident then
        (g.1, { g.2 with warps := g.2.warps.map fun w => dropHolds? w fun h => h.kind == .brkpt }) else g })

/-! ## Power -/

/-- POWER_CAP_STEP (R417): every die's clock goes down by 25 MHz to 500 MHz while power exceeds the limit, and up again
below it. -/
def execPowerCapStep (watts : Nat) (s : State) : Host.Outcome State Fault Refusal :=
  .next { s with dies := s.dies.map fun d =>
    if watts > s.mgmt.limit then { d with clock := max 500 (d.clock - 25) }
    else if watts < s.mgmt.limit then { d with clock := min (nominalClock s) (d.clock + 25) } else d }

/-- THERMAL_CAP (R417). -/
def execThermalCap (die : Nat) (s : State) : Host.Outcome State Fault Refusal :=
  .next (modDie s die fun d => { d with clock := max 500 (d.clock - 25) })

/-- CRITICAL_TEMPERATURE (R417): every compute domain is powered off until a reset of the physical function. -/
def execCriticalTemperature (die : Nat) (s : State) : Host.Outcome State Fault Refusal :=
  .next (postMgmt { s with dies := s.dies.map fun d => { d with off := true }, mgmt := { s.mgmt with needReset := true } } [3, die])

/-! ## Macros -/

/-- MACRO_SELF_CHECK (R415, R416): an idle macro that fails is retired, and the failure is posted. -/
def execMacroSelfCheck (core unit : Nat) (s : State) : Host.Outcome State Fault Refusal :=
  .next (
    let c := Machine.core s core
    if unit > 7 ∨ c.retired.contains unit = true ∨ (s.matops.any fun m => m.core == core && !m.parked) = true then s
    else if !s.errs.contains (.column core unit) && Config.selfCheck s.tick (8 * core + unit) then s
    else retireMacro s core unit)

/-! ## Links -/

/-- A warp that a lost link concerns: LINKLOST is deferred in it, and a release that waits never completes (R398, R407). -/
def loseTo (s : State) (g w : Nat) (addr : DWord) : State :=
  modWarp (deferTo s g w 0 .linklost addr 0) g w fun x => dropHolds? x fun h => match h.kind with | .fence .. => true | _ => false

/-- A load over a lost link returns nothing to its register (R398, R407): its warp takes LINKLOST at its next word. -/
def loseLoad (s : State) (x : Away) : State :=
  match warp? s x.group x.warp with
  | some wp => if wp.outs.any (Away.owns x) then
      let s1 := modWarp s x.group x.warp fun w => unpark { w with outs := w.outs.filter fun o => !(Away.owns x o) }
      stillAway (modGroup (loseTo s1 x.group x.warp x.addr) x.group afterReturns) x.group x.warp
    else s
  | none => s

/-- The loads of one space are lost with its link. -/
def loseLoads (s : State) (space : Nat) : State := (s.away.filter (·.space == space)).foldl loseLoad s

/-- HOST_LINK_LOSS (R407): writes to host memory and loads of it that are outstanding are lost; over CXL every resident warp
of the writes' contexts takes LINKLOST. Contexts with LLHALT are saved. -/
def execHostLinkLoss (s : State) : Host.Outcome State Fault Refusal :=
  .next (if !s.mgmt.linkUp then s else
    let lost := s.pend.filter fun p => decide (p.die < 4) && keySpace p.uncached p.addr == 1
    let s1 := { s with pend := s.pend.filter fun p => !(decide (p.die < 4) && keySpace p.uncached p.addr == 1), mgmt := { s.mgmt with linkUp := false } }
    let s2 := lost.foldl (fun t p => match group? s p.group with
      | none => t
      | some gr =>
        let at_ := BitVec.ofNat 64 (p.addr % 2 ^ 58)
        if !cxl s then loseTo t p.group p.warp at_ else
        let line := BitVec.ofNat 64 (p.addr % 2 ^ 58 / 64 * 64)
        (s.groups.filter fun g => g.2.ctx == gr.ctx && g.2.life == .resident).foldl (fun u g =>
          (g.2.warps.filter fun w => !w.ended).foldl (fun v w => loseTo v g.1 w.index line) u) t) (loseLoads s1 1)
    let halt := (s2.groups.filter fun g => g.2.life == .resident && g.2.logits.isNone &&
      ((ctx? s2 g.2.ctx).map fun c => c.preempt.getLsbD 0).getD false).map (·.1)
    postMgmt (halt.foldl (fun t g => haltAndSave t g .preempt) s2) [1])

/-- HOST_LINK_RETURN (R385, R408): the port trains to a mode (1 to 3 PCIe 5.0 to 7.0, 4 CXL); every READY clears, and what
is held is kept until the host sets ENABLE again. -/
def execHostLinkReturn (mode : Nat) (s : State) : Host.Outcome State Fault Refusal :=
  .next (if s.mgmt.linkUp ∨ mode = 0 ∨ mode > 4 then s else
    { s with mgmt := { s.mgmt with linkUp := true, linkMode := mode }, fns := s.fns.map fun f => { f with ready := false } })

/-- The functions to which a change of a port is reported: the physical function and those with a context bound there. -/
def portFns (s : State) (port : Nat) : List Nat :=
  (((s.ports[port]?.map (·.bindings)).getD []).map fun b => fnOfCtx s b.1).foldl sins [0]

def postPort (s : State) (port kind : Nat) : State := (portFns s port).foldl (fun t f => postEvent t f (eventEntry kind 0 port 0 0 none)) s

/-- PEER_PORT_DOWN (R314, R398): writes and loads through it that are outstanding are lost, copies through it stay unwritten, and
bindings must be matched anew. -/
def execPeerPortDown (port : Nat) (s : State) : Host.Outcome State Fault Refusal :=
  .next (match s.ports[port]? with
    | none => s
    | some q => if !q.up then s else
      let hit (p : PendWrite) : Bool := decide (p.die < 4) && keySpace p.uncached p.addr == 3 + port
      let s1 := { s with
        pend := s.pend.filter fun p => !(hit p)
        copies := s.copies.map fun c => if c.kind = 3 ∧ field c.block 2 1 = port then { c with lost := true } else c
        ports := modAt s.ports port fun x => { x with up := false, bindings := x.bindings.map fun b => (b.1, b.2.1, false) } }
      postPort ((s.pend.filter hit).foldl (fun t p => loseTo t p.group p.warp (BitVec.ofNat 64 (p.addr % 2 ^ 58))) (loseLoads s1 (3 + port))) port 6)

/-- PEER_PORT_TRAINING (R396): the peer link protocol is version 1.0; a partner that offers less is refused and the port
stays down. -/
def execPeerPortTraining (port version : Nat) (s : State) : Host.Outcome State Fault Refusal :=
  .next (match s.ports[port]? with
    | none => s
    | some q => if q.up then s
      else if version < 0x00010000 then postPort s port 6
      else postPort { s with ports := modAt s.ports port fun x => { x with up := true } } port 7)

/-- DIE_LINK_DOWN (R414): every context ends, and the device needs a reset of the physical function. -/
def execDieLinkDown (a b : Nat) (s : State) : Host.Outcome State Fault Refusal :=
  .next (if a = b ∨ a > 3 ∨ b > 3 then s else
    let s1 := modDie (modDie s a fun d => { d with linkDown := sins d.linkDown b }) b fun d => { d with linkDown := sins d.linkDown a }
    let s2 := (s1.ctxs.map (·.1)).foldl (fun t c => contextEnd t c none (deviceFault t .linklost 0)) s1
    postMgmt (countEcc { s2 with mgmt := { s2.mgmt with needReset := true } } 3) [6, a, b])

/-! ## Reset -/

/-- The command of an instruction that is one (R392). -/
def instrCmd : Instr → Option Cmd
  | .createContext c => some c | .destroyContext c => some c | .createQueue c => some c | .submitGraph c => some c
  | .cancelGraph c => some c | .addSlot c => some c | .removeSlot c => some c | .createRange c => some c
  | .mapRange c => some c | .bindPeer c => some c | .setQuantum c => some c | .repartition c => some c
  | .assignFunction c => some c | .resume c => some c | .pageReady c => some c
  | _ => none

/-- A function's registers and queues as at power-up (R406); its partition and its permission are not the host's. -/
def resetFn (f : Fn) : Fn := { Fn.reset f.id with part := f.part, nextPart := f.nextPart, reduced := f.reduced }

/-- The drain of a reset (R406): accepted writes of the host, and with the link up writes to host memory, are performed.
Every other write not yet performed in reach is lost. -/
def drainForReset (s : State) (reach : PendWrite → Bool) : State :=
  drainIf { s with pend := s.pend.filter fun p => !(reach p) || drains p } drains
where
  drains (p : PendWrite) : Bool := p.die == 5 || (keySpace p.uncached p.addr == 1 && s.mgmt.linkUp)

/-- Contexts, queues, regions, ranges, bindings and frames of a virtual function are discarded; its graphs end without a
completion (R406). -/
def clearFn (s : State) (f : Nat) : State :=
  let cs := (s.ctxs.filter fun c => c.2.fn == f).map (·.1)
  let gs := (s.graphs.filter fun g => cs.contains g.ctx || g.cmd.fn == f).map (·.id)
  let ids := (s.grids.filter fun g => gs.contains g.graph).map (·.id)
  let s1 := { s with
    graphs := s.graphs.filter fun g => !(gs.contains g.id)
    grids := s.grids.filter fun g => !(gs.contains g.graph)
    tmpls := s.tmpls.filter fun t => !(ids.contains t.grid) }
  let s2 := cs.foldl (fun t c => discardCtx t c 6) s1
  let mine (i : Instr) : Bool := ((instrCmd i).map (·.fn)) == some f
  settleRanges (modFn { s2 with
    ranges := s2.ranges.filter fun r => r.fn != f
    agenda := s2.agenda.filter fun i => !(mine i)
    waits := s2.waits.filter fun w => !(mine w.1) } f resetFn)

/-- A reset of a virtual function (R405, R406). -/
def resetVirtual (s : State) (f : Nat) : State :=
  let mine (p : PendWrite) : Bool := decide (p.die < 4) && ((group? s p.group).map fun g => fnOfCtx s g.ctx) == some f
  clearFn (drainForReset s mine) f

/-- Device memory as a reset leaves it: dirty bytes of the caches are lost unless they had been written back before. -/
def memoryAfterReset (s : State) : List Host.Cell :=
  s.l2.foldl (fun m p => if Config.evicted s.tick p.1 then memPut m p.1 p.2 else m) s.mem

/-- Accepted writes of the host lie in memory after the drain (R406). -/
def hostWritesHome (s : State) (ps : List PendWrite) : State :=
  ps.foldl (fun t p => (List.range p.data.length).foldl (fun u i =>
    { u with mem := memPut u.mem (p.addr + i) (p.data[i]?.getD 0), l2 := sdel u.l2 (p.addr + i) }) (clearEcc t p.addr p.data.length)) s

/-- The management controller through a reset: a firmware image that waits becomes active (R410). -/
def resetMgmt (m : Mgmt) : Mgmt :=
  { m with needReset := false, frozen := none, switch := false
           bankActive := if m.switch then m.bankOther else m.bankActive, bankOther := if m.switch then m.bankActive else m.bankOther }

/-- A reset of the physical function: the whole device but the management controller, the host port and the peer ports
(R405, R406). Cores that have run a context are cleared. -/
def resetPhysical (s : State) : State :=
  let s1 := drainForReset { s with pend := s.pend.filter fun p => p.die != 5 } fun _ => true
  let s2 := hostWritesHome s1 (s.pend.filter fun p => p.die == 5)
  { State.reset with
    tick := s.tick, seqs := s.seqs, timebase := s.timebase
    mem := memoryAfterReset s2, hostMem := s2.hostMem, bad := s2.bad
    cores := s.cores.map fun c => (c.1, { Core.reset with domain := goneDomain })
    fns := s.fns.map fun f => { Fn.reset f.id with reduced := f.reduced }
    ports := s2.ports.map fun p => { p with bindings := [] }
    dies := s.dies.map fun d => { Die.reset with clock := if d.off then nominalClock s else d.clock }
    mgmt := resetMgmt s.mgmt, variantC := s.variantC }

/-- FUNCTION_LEVEL_RESET (R405, R406). -/
def execFunctionLevelReset (fn : Nat) (s : State) : Host.Outcome State Fault Refusal :=
  .next (if fn = 0 then resetPhysical s else if fn ≤ 32 then resetVirtual s fn else s)

/-- HOT_RESET (R405, R408): after a loss of the link it is also the link's return. -/
def execHotReset (s : State) : Host.Outcome State Fault Refusal :=
  .next (
    let t := resetPhysical s
    { t with mgmt := { t.mgmt with linkUp := decide (t.mgmt.linkMode ≠ 0) } })

/-- POWER_UP (R388, R399, R405): everything as at power-up, but host memory and the firmware banks. -/
def execPowerUp (s : State) : Host.Outcome State Fault Refusal :=
  .next { State.reset with
    tick := s.tick, hostMem := s.hostMem, variantC := s.variantC
    dies := List.replicate 4 { Die.reset with clock := nominalClock s }
    mgmt := { State.reset.mgmt with
      bankActive := (resetMgmt s.mgmt).bankActive, bankOther := (resetMgmt s.mgmt).bankOther, limit := boardLimit s.variantC } }

end Sys2Proof.Machine
end

