-- ==== Sys2Proof/Machine/Dispatch.lean ====
section
/-! DEFINITION. The dispatch: one arm for each instruction, a direct call of its meaning. -/

namespace Sys2Proof.Machine

/-- The meaning of every instruction (spec/opcode_table.json). -/
def exec (i : Instr) (s : State) : Host.Outcome State Fault Refusal :=
  match i with
  | .illegal raw mark => Sys2Proof.Machine.execIllegal raw mark s
  | .nop h => Sys2Proof.Machine.execNop h s
  | .pairedWord mark x y => Sys2Proof.Machine.execPairedWord mark x y s
  | .iadd h op d a b c => Sys2Proof.Machine.execIadd h op d a b c s
  | .imul h op d a b => Sys2Proof.Machine.execImul h op d a b s
  | .imad h op d a b c => Sys2Proof.Machine.execImad h op d a b c s
  | .idiv h op d a b => Sys2Proof.Machine.execIdiv h op d a b s
  | .imnx h op d a b => Sys2Proof.Machine.execImnx h op d a b s
  | .iabs h op d a => Sys2Proof.Machine.execIabs h op d a s
  | .icmp h rel uns d a b => Sys2Proof.Machine.execIcmp h rel uns d a b s
  | .sel h wide d a b c => Sys2Proof.Machine.execSel h wide d a b c s
  | .ltab h tt d a b c => Sys2Proof.Machine.execLtab h tt d a b c s
  | .shf h op clamp d a n c => Sys2Proof.Machine.execShf h op clamp d a n c s
  | .bfx h sx d a f => Sys2Proof.Machine.execBfx h sx d a f s
  | .bfi h d a f c => Sys2Proof.Machine.execBfi h d a f c s
  | .bitc h op d a => Sys2Proof.Machine.execBitc h op d a s
  | .bperm h d a b c => Sys2Proof.Machine.execBperm h d a b c s
  | .iaddw h op d a b => Sys2Proof.Machine.execIaddw h op d a b s
  | .shfw h op clamp d a n => Sys2Proof.Machine.execShfw h op clamp d a n s
  | .icmpw h rel uns d a b => Sys2Proof.Machine.execIcmpw h rel uns d a b s
  | .lea h sx sh d a b => Sys2Proof.Machine.execLea h sx sh d a b s
  | .mov h w d a => Sys2Proof.Machine.execMov h w d a s
  | .movi mark d imm => Sys2Proof.Machine.execMovi mark d imm s
  | .idot h half sa sb sat d a b c => Sys2Proof.Machine.execIdot h half sa sb sat d a b c s
  | .cvti h op d a => Sys2Proof.Machine.execCvti h op d a s
  | .sread h v d => Sys2Proof.Machine.execSread h v d s
  | .fadd h sub r ftz d a b => Sys2Proof.Machine.execFadd h sub r ftz d a b s
  | .fmul h r ftz d a b => Sys2Proof.Machine.execFmul h r ftz d a b s
  | .ffma h np nc r ftz d a b c => Sys2Proof.Machine.execFfma h np nc r ftz d a b c s
  | .fmnx h max d a b => Sys2Proof.Machine.execFmnx h max d a b s
  | .fcmp h rel ftz d a b => Sys2Proof.Machine.execFcmp h rel ftz d a b s
  | .fclass h f d a => Sys2Proof.Machine.execFclass h f d a s
  | .fsfu h op ftz d a => Sys2Proof.Machine.execFsfu h op ftz d a s
  | .fdiv h r ftz d a b => Sys2Proof.Machine.execFdiv h r ftz d a b s
  | .frint h r ftz d a => Sys2Proof.Machine.execFrint h r ftz d a s
  | .fscale h r ftz d a b => Sys2Proof.Machine.execFscale h r ftz d a b s
  | .cvtf h op r ftz d a => Sys2Proof.Machine.execCvtf h op r ftz d a s
  | .cvtfi h ty f r ftz d a => Sys2Proof.Machine.execCvtfi h ty f r ftz d a s
  | .cvtif h ty f r d a => Sys2Proof.Machine.execCvtif h ty f r d a s
  | .paddh h bf r ftz d a b => Sys2Proof.Machine.execPaddh h bf r ftz d a b s
  | .pmulh h bf r ftz d a b => Sys2Proof.Machine.execPmulh h bf r ftz d a b s
  | .pfmah h bf r ftz d a b c => Sys2Proof.Machine.execPfmah h bf r ftz d a b c s
  | .pmnxh h bf max d a b => Sys2Proof.Machine.execPmnxh h bf max d a b s
  | .fdot2 h bf r ftz d a b c => Sys2Proof.Machine.execFdot2 h bf r ftz d a b c s
  | .fquant h f k nf d a b c => Sys2Proof.Machine.execFquant h f k nf d a b c s
  | .fdeq h f k r ftz d a b => Sys2Proof.Machine.execFdeq h f k r ftz d a b s
  | .fexpd h ftz d a b => Sys2Proof.Machine.execFexpd h ftz d a b s
  | .flse h d a b => Sys2Proof.Machine.execFlse h d a b s
  | .ftwosum h d a b => Sys2Proof.Machine.execFtwosum h d a b s
  | .bra h off => Sys2Proof.Machine.execBra h off s
  | .brx h a => Sys2Proof.Machine.execBrx h a s
  | .call h d off => Sys2Proof.Machine.execCall h d off s
  | .callx h d a => Sys2Proof.Machine.execCallx h d a s
  | .ret h a => Sys2Proof.Machine.execRet h a s
  | .exit h => Sys2Proof.Machine.execExit h s
  | .vote h op d a m => Sys2Proof.Machine.execVote h op d a m s
  | .shfl h op wrap wide d a n m => Sys2Proof.Machine.execShfl h op wrap wide d a n m s
  | .wred h op d a m => Sys2Proof.Machine.execWred h op d a m s
  | .wscan h op excl d a m => Sys2Proof.Machine.execWscan h op excl d a m s
  | .matchw h op wide d a m => Sys2Proof.Machine.execMatchw h op wide d a m s
  | .elect h d m => Sys2Proof.Machine.execElect h d m s
  | .wsync h m => Sys2Proof.Machine.execWsync h m s
  | .yieldl mark => Sys2Proof.Machine.execYieldl mark s
  | .brkpt h k => Sys2Proof.Machine.execBrkpt h k s
  | .freeze mark a => Sys2Proof.Machine.execFreeze mark a s
  | .tnest mark => Sys2Proof.Machine.execTnest mark s
  | .tsignal mark a => Sys2Proof.Machine.execTsignal mark a s
  | .rgrow mark n => Sys2Proof.Machine.execRgrow mark n s
  | .rshrink mark n => Sys2Proof.Machine.execRshrink mark n s
  | .gbar mark b => Sys2Proof.Machine.execGbar mark b s
  | .gangbar mark => Sys2Proof.Machine.execGangbar mark s
  | .garrive mark d b => Sys2Proof.Machine.execGarrive mark d b s
  | .gwait h a b => Sys2Proof.Machine.execGwait h a b s
  | .launch h d a => Sys2Proof.Machine.execLaunch h d a s
  | .yield mark => Sys2Proof.Machine.execYield mark s
  | .sleep h a => Sys2Proof.Machine.execSleep h a s
  | .qpush h w q a => Sys2Proof.Machine.execQpush h w q a s
  | .qpop h w q d c => Sys2Proof.Machine.execQpop h w q d c s
  | .qclose h q => Sys2Proof.Machine.execQclose h q s
  | .nodesig h e => Sys2Proof.Machine.execNodesig h e s
  | .ld h m d a off => Sys2Proof.Machine.execLd h m d a off s
  | .st h m d a off => Sys2Proof.Machine.execSt h m d a off s
  | .lds h m d a off => Sys2Proof.Machine.execLds h m d a off s
  | .sts h m d a off => Sys2Proof.Machine.execSts h m d a off s
  | .pref h pol l2 a off => Sys2Proof.Machine.execPref h pol l2 a off s
  | .zfill h rel scope a off => Sys2Proof.Machine.execZfill h rel scope a off s
  | .cflush h op mem a off => Sys2Proof.Machine.execCflush h op mem a off s
  | .taddr h chk d a b => Sys2Proof.Machine.execTaddr h chk d a b s
  | .mapq h fill d a => Sys2Proof.Machine.execMapq h fill d a s
  | .aadd h m op p off b d => Sys2Proof.Machine.execAadd h m op p off b d s
  | .amnx h m op p off b d => Sys2Proof.Machine.execAmnx h m op p off b d s
  | .alog h m op p off b d => Sys2Proof.Machine.execAlog h m op p off b d s
  | .axch h m p off b d => Sys2Proof.Machine.execAxch h m p off b d s
  | .acas h m p off b d => Sys2Proof.Machine.execAcas h m p off b d s
  | .ainc h m dec p off b d => Sys2Proof.Machine.execAinc h m dec p off b d s
  | .fence h ord scope => Sys2Proof.Machine.execFence h ord scope s
  | .waita h acq scope cond wide p d b tmo => Sys2Proof.Machine.execWaita h acq scope cond wide p d b tmo s
  | .wakea h rel scope wide p b => Sys2Proof.Machine.execWakea h rel scope wide p b s
  | .bcinit h rel scope wide a b off => Sys2Proof.Machine.execBcinit h rel scope wide a b off s
  | .bcadd h rel scope wide a b off => Sys2Proof.Machine.execBcadd h rel scope wide a b off s
  | .ordecl h a => Sys2Proof.Machine.execOrdecl h a s
  | .ordrop h a => Sys2Proof.Machine.execOrdrop h a s
  | .ldrs h ty d a b => Sys2Proof.Machine.execLdrs h ty d a b s
  | .ldrm h ty idx d a b => Sys2Proof.Machine.execLdrm h ty idx d a b s
  | .ldpfx h ty d a b c => Sys2Proof.Machine.execLdpfx h ty d a b c s
  | .ldpick h ty d a b c => Sys2Proof.Machine.execLdpick h ty d a b c s
  | .tfence h a => Sys2Proof.Machine.execTfence h a s
  | .orbuild h a => Sys2Proof.Machine.execOrbuild h a s
  | .tidset h p b => Sys2Proof.Machine.execTidset h p b s
  | .tidinv h b => Sys2Proof.Machine.execTidinv h b s
  | .mbload h p => Sys2Proof.Machine.execMbload h p s
  | .mmul h d p => Sys2Proof.Machine.execMmul h d p s
  | .maccrd h w8 pair d slot col => Sys2Proof.Machine.execMaccrd h w8 pair d slot col s
  | .maccwr h w8 pair a slot col => Sys2Proof.Machine.execMaccwr h w8 pair a slot col s
  | .maccz h free slots => Sys2Proof.Machine.execMaccz h free slots s
  | .mtrans h p => Sys2Proof.Machine.execMtrans h p s
  | .mperm h p => Sys2Proof.Machine.execMperm h p s
  | .mrsum h p => Sys2Proof.Machine.execMrsum h p s
  | .mepi h p => Sys2Proof.Machine.execMepi h p s
  | .bcopy h d p => Sys2Proof.Machine.execBcopy h d p s
  | .gather h d p => Sys2Proof.Machine.execGather h d p s
  | .scatter h d p => Sys2Proof.Machine.execScatter h d p s
  | .xcopy h d p => Sys2Proof.Machine.execXcopy h d p s
  | .htest h d a => Sys2Proof.Machine.execHtest h d a s
  | .hwait h d a => Sys2Proof.Machine.execHwait h d a s
  | .hcancel h a => Sys2Proof.Machine.execHcancel h a s
  | .vpub h d a => Sys2Proof.Machine.execVpub h d a s
  | .vpin h a b => Sys2Proof.Machine.execVpin h a b s
  | .vret h a => Sys2Proof.Machine.execVret h a s
  | .tokrec h a b c => Sys2Proof.Machine.execTokrec h a b c s
  | .smask h d a b c => Sys2Proof.Machine.execSmask h d a b c s
  | .ulcall h d a b => Sys2Proof.Machine.execUlcall h d a b s
  | .slotrd h act d a n => Sys2Proof.Machine.execSlotrd h act d a n s
  | .slotset h a b => Sys2Proof.Machine.execSlotset h a b s
  | .trap h k => Sys2Proof.Machine.execTrap h k s
  | .tret mark next => Sys2Proof.Machine.execTret mark next s
  | .cread h d r => Sys2Proof.Machine.execCread h d r s
  | .cwrite h a r => Sys2Proof.Machine.execCwrite h a r s
  | .tsave mark d a => Sys2Proof.Machine.execTsave mark d a s
  | .tload mark a => Sys2Proof.Machine.execTload mark a s
  | .tlbinv h a => Sys2Proof.Machine.execTlbinv h a s
  | .idle mark => Sys2Proof.Machine.execIdle mark s
  | .warpIssueChoice core => Sys2Proof.Machine.execWarpIssueChoice core s
  | .longLatencyReturn group warp idx => Sys2Proof.Machine.execLongLatencyReturn group warp idx s
  | .trapEntry group warp => Sys2Proof.Machine.execTrapEntry group warp s
  | .barrierPhaseComplete group bar => Sys2Proof.Machine.execBarrierPhaseComplete group bar s
  | .gangBarrierComplete gang => Sys2Proof.Machine.execGangBarrierComplete gang s
  | .templateCapture group => Sys2Proof.Machine.execTemplateCapture group s
  | .registerPoolGrant core => Sys2Proof.Machine.execRegisterPoolGrant core s
  | .registerDeadlockSave core => Sys2Proof.Machine.execRegisterDeadlockSave core s
  | .warpEnd group warp => Sys2Proof.Machine.execWarpEnd group warp s
  | .groupEnd group => Sys2Proof.Machine.execGroupEnd group s
  | .launchBlockRead core => Sys2Proof.Machine.execLaunchBlockRead core s
  | .nodeStart => Sys2Proof.Machine.execNodeStart s
  | .nodeCompletion graph node => Sys2Proof.Machine.execNodeCompletion graph node s
  | .hostWaitWatch graph node => Sys2Proof.Machine.execHostWaitWatch graph node s
  | .priorityAgeing grid => Sys2Proof.Machine.execPriorityAgeing grid s
  | .freeCountReport die => Sys2Proof.Machine.execFreeCountReport die s
  | .lodestarBatch => Sys2Proof.Machine.execLodestarBatch s
  | .groupPlacement die => Sys2Proof.Machine.execGroupPlacement die s
  | .gangReservation die => Sys2Proof.Machine.execGangReservation die s
  | .splitConversion die => Sys2Proof.Machine.execSplitConversion die s
  | .splitForce core => Sys2Proof.Machine.execSplitForce core s
  | .splitReassign core => Sys2Proof.Machine.execSplitReassign core s
  | .stageReevaluation graph node => Sys2Proof.Machine.execStageReevaluation graph node s
  | .queuePushReserve group warp hold => Sys2Proof.Machine.execQueuePushReserve group warp hold s
  | .queuePopReserve group warp hold => Sys2Proof.Machine.execQueuePopReserve group warp hold s
  | .stageCompletion graph node stage => Sys2Proof.Machine.execStageCompletion graph node stage s
  | .loopBoundary graph node => Sys2Proof.Machine.execLoopBoundary graph node s
  | .preemptionRequest partition => Sys2Proof.Machine.execPreemptionRequest partition s
  | .framePoolSave group => Sys2Proof.Machine.execFramePoolSave group s
  | .groupRestore group core => Sys2Proof.Machine.execGroupRestore group core s
  | .quantumSliceEnd partition => Sys2Proof.Machine.execQuantumSliceEnd partition s
  | .hostWrite addr data => Sys2Proof.Machine.execHostWrite addr data s
  | .peerWrite port ctx va data => Sys2Proof.Machine.execPeerWrite port ctx va data s
  | .updateRecordApply region => Sys2Proof.Machine.execUpdateRecordApply region s
  | .rangeLoadAnswer group warp idx => Sys2Proof.Machine.execRangeLoadAnswer group warp idx s
  | .regionBuildComplete group warp hold => Sys2Proof.Machine.execRegionBuildComplete group warp hold s
  | .tfenceRelease group warp hold => Sys2Proof.Machine.execTfenceRelease group warp hold s
  | .fenceRelease group warp hold => Sys2Proof.Machine.execFenceRelease group warp hold s
  | .chunkIssue op => Sys2Proof.Machine.execChunkIssue op s
  | .chunkLanding op chunk => Sys2Proof.Machine.execChunkLanding op chunk s
  | .chunkCredit op chunk => Sys2Proof.Machine.execChunkCredit op chunk s
  | .cancelArrival op => Sys2Proof.Machine.execCancelArrival op s
  | .matrixOpTurn op => Sys2Proof.Machine.execMatrixOpTurn op s
  | .matrixOpComplete op => Sys2Proof.Machine.execMatrixOpComplete op s
  | .macroSelfCheck core unit => Sys2Proof.Machine.execMacroSelfCheck core unit s
  | .waitaReread group warp hold => Sys2Proof.Machine.execWaitaReread group warp hold s
  | .waitaPoll group warp hold => Sys2Proof.Machine.execWaitaPoll group warp hold s
  | .waitaTimeout group warp hold => Sys2Proof.Machine.execWaitaTimeout group warp hold s
  | .sleepExpiry group warp hold => Sys2Proof.Machine.execSleepExpiry group warp hold s
  | .yieldReturn group warp => Sys2Proof.Machine.execYieldReturn group warp s
  | .ulcallBudgetExpiry group => Sys2Proof.Machine.execUlcallBudgetExpiry group s
  | .tailReread f queue => Sys2Proof.Machine.execTailReread f queue s
  | .tailPoll f queue => Sys2Proof.Machine.execTailPoll f queue s
  | .completionPost f queue => Sys2Proof.Machine.execCompletionPost f queue s
  | .createContext c => Sys2Proof.Machine.execCreateContext c s
  | .destroyContext c => Sys2Proof.Machine.execDestroyContext c s
  | .createQueue c => Sys2Proof.Machine.execCreateQueue c s
  | .submitGraph c => Sys2Proof.Machine.execSubmitGraph c s
  | .cancelGraph c => Sys2Proof.Machine.execCancelGraph c s
  | .addSlot c => Sys2Proof.Machine.execAddSlot c s
  | .removeSlot c => Sys2Proof.Machine.execRemoveSlot c s
  | .createRange c => Sys2Proof.Machine.execCreateRange c s
  | .mapRange c => Sys2Proof.Machine.execMapRange c s
  | .bindPeer c => Sys2Proof.Machine.execBindPeer c s
  | .peerBindingMatch port ctx => Sys2Proof.Machine.execPeerBindingMatch port ctx s
  | .setQuantum c => Sys2Proof.Machine.execSetQuantum c s
  | .repartition c => Sys2Proof.Machine.execRepartition c s
  | .assignFunction c => Sys2Proof.Machine.execAssignFunction c s
  | .resume c => Sys2Proof.Machine.execResume c s
  | .pageReady c => Sys2Proof.Machine.execPageReady c s
  | .functionEnable f => Sys2Proof.Machine.execFunctionEnable f s
  | .functionDisable f => Sys2Proof.Machine.execFunctionDisable f s
  | .functionRegisterWrite f off data => Sys2Proof.Machine.execFunctionRegisterWrite f off data s
  | .functionLevelReset f => Sys2Proof.Machine.execFunctionLevelReset f s
  | .hotReset => Sys2Proof.Machine.execHotReset s
  | .hostLinkLoss => Sys2Proof.Machine.execHostLinkLoss s
  | .hostLinkReturn mode => Sys2Proof.Machine.execHostLinkReturn mode s
  | .peerPortDown port => Sys2Proof.Machine.execPeerPortDown port s
  | .peerPortTraining port version => Sys2Proof.Machine.execPeerPortTraining port version s
  | .dieLinkDown a b => Sys2Proof.Machine.execDieLinkDown a b s
  | .pldmMonitoring => Sys2Proof.Machine.execPldmMonitoring s
  | .powerLimitSet watts => Sys2Proof.Machine.execPowerLimitSet watts s
  | .reducedPrecisionSet f on => Sys2Proof.Machine.execReducedPrecisionSet f on s
  | .firmwareUpdate image valid => Sys2Proof.Machine.execFirmwareUpdate image valid s
  | .spdmAttestation => Sys2Proof.Machine.execSpdmAttestation s
  | .freezeRequest wrote => Sys2Proof.Machine.execFreezeRequest wrote s
  | .freezeRelease => Sys2Proof.Machine.execFreezeRelease s
  | .coreHalt core => Sys2Proof.Machine.execCoreHalt core s
  | .coreResume core => Sys2Proof.Machine.execCoreResume core s
  | .powerCapStep watts => Sys2Proof.Machine.execPowerCapStep watts s
  | .thermalCap die => Sys2Proof.Machine.execThermalCap die s
  | .criticalTemperature die => Sys2Proof.Machine.execCriticalTemperature die s
  | .writePerformed idx => Sys2Proof.Machine.execWritePerformed idx s
  | .heldEventPost f => Sys2Proof.Machine.execHeldEventPost f s
  | .powerUp => Sys2Proof.Machine.execPowerUp s

end Sys2Proof.Machine
end

