-- ==== Sys2Proof/Machine/Happenings.lean ====
section
/-! DEFINITION. What a step runs: the word of a lane group that was chosen to issue, an input from outside, or one of the
happenings of the device itself. -/

namespace Sys2Proof.Machine

/-! ## The device's own happenings

A happening that is not due leaves the state as it is, so every one that could be due stands in these lists. -/

/-- Those of a held lane group. -/
def holdHappenings (g w i : Nat) (h : HoldRec) : List Instr :=
  match h.kind with
  | .waita .. => [.waitaReread g w i, .waitaPoll g w i, .waitaTimeout g w i]
  | .sleep => [.sleepExpiry g w i]
  | .fence .. => [.fenceRelease g w i]
  | .wsync _ => [.fenceRelease g w i]
  | .tfence _ => [.tfenceRelease g w i]
  | .region .. => [.regionBuildComplete g w i]
  | .qpush => [.queuePushReserve g w i]
  | .qpop => [.queuePopReserve g w i]
  | _ => []

/-- The management processor resumes a warp held in IDLE (R376): a RESUME of its own, from no queue of the function (queue 64). -/
def managementResume (s : State) (ctx : Nat) (wp : Warp) : List Instr :=
  match wp.handler with
  | some h => if wp.holds.any (·.kind == .idle) then
      [.resume { fn := fnOfCtx s ctx, queue := 64, slot := 0, op := 14, ordered := false, ctx := ctx, id := 0, args := leBytes 8 h.frame.toNat ++ zeros 48 }] else []
  | none => []

/-- Those of a warp. -/
def warpHappenings (s : State) (ctx g w : Nat) (wp : Warp) : List Instr :=
  [.trapEntry g w, .warpEnd g w, .yieldReturn g w] ++ managementResume s ctx wp ++
  ((List.range wp.outs.length).flatMap fun k => [.longLatencyReturn g w k, .rangeLoadAnswer g w k]) ++
  (wp.holds.mapIdx fun i h => holdHappenings g w i h).flatten

/-- Those of a group. A saved group may be restored on any core of its partition. -/
def groupHappenings (s : State) (g : Nat) (gr : Group) : List Instr :=
  match gr.life with
  | .resident => [.templateCapture g, .groupEnd g, .ulcallBudgetExpiry g] ++ (List.range 8).map (fun b => .barrierPhaseComplete g b) ++
      (gr.warps.mapIdx fun w wp => warpHappenings s gr.ctx g w wp).flatten
  | .halted => .framePoolSave g :: (gr.warps.mapIdx fun w wp => warpHappenings s gr.ctx g w wp).flatten
  | .saved => (if cancelledRun s gr then [.groupEnd g] else []) ++ (partCores s (partOfCtx s gr.ctx)).map fun c => .groupRestore g c
  | .queued => []
  | .ended => [.groupEnd g]

/-- Those of a core. -/
def coreHappenings (c : Nat) : List Instr :=
  [.warpIssueChoice c, .registerPoolGrant c, .registerDeadlockSave c, .launchBlockRead c, .splitForce c, .splitReassign c] ++
  (List.range 8).map fun m => .macroSelfCheck c m

/-- Those of a die's dispatcher. -/
def dieHappenings (d : Nat) : List Instr := [.groupPlacement d, .freeCountReport d, .gangReservation d, .splitConversion d]

/-- Those of a graph's nodes. -/
def graphHappenings (g : Graph) : List Instr :=
  (List.range g.nodes.length).flatMap fun i =>
    [.nodeCompletion g.id i, .hostWaitWatch g.id i, .stageReevaluation g.id i, .loopBoundary g.id i] ++
    (List.range (stagesOf g i).length).map fun k => .stageCompletion g.id i k

/-- Those of copies and matrix operations. -/
def engineHappenings (s : State) : List Instr :=
  (s.copies.flatMap fun c => [.chunkIssue c.id, .cancelArrival c.id] ++ c.flying.map (.chunkLanding c.id) ++ c.landing.map (.chunkCredit c.id)) ++
  s.matops.flatMap fun m => [.matrixOpTurn m.id, .matrixOpComplete m.id]

/-- Everything of the compute part that could be due. -/
def computeHappenings (s : State) : List Instr :=
  (s.groups.flatMap fun g => groupHappenings s g.1 g.2) ++ (List.range 768).flatMap coreHappenings ++ (List.range 4).flatMap dieHappenings ++
  (s.gangs.map fun x => .gangBarrierComplete x.id) ++ (s.grids.map fun x => .priorityAgeing x.id) ++ [.nodeStart, .lodestarBatch] ++
  s.graphs.flatMap graphHappenings ++ engineHappenings s ++ (List.range s.pend.length).map .writePerformed ++
  (List.range s.regions.length).map .updateRecordApply ++ (List.range 8).map .quantumSliceEnd

/-- Those of the host port: tails, completions, held events, ORDERED commands, a REPARTITION that waits for saves. -/
def hostHappenings (s : State) : List Instr :=
  s.fns.flatMap fun f =>
    (f.queues.flatMap fun q => [.tailReread f.id q.num, .tailPoll f.id q.num, .completionPost f.id q.num] ++
      ((q.cmds.filter (mayStart q)).filterMap cmdInstr)) ++ [.heldEventPost f.id] ++ (f.going.head?.map .repartition).toList

/-- The happenings a step may choose from: with the compute domains stopped (R414, R417) those of the host port only. A
device step that waits for a page is not tried, but the other launch blocks of a core (R431). -/
def happenings (s : State) : List Instr :=
  ((if s.mgmt.needReset then [] else computeHappenings s) ++ hostHappenings s).filter fun i =>
    !waiting s i || (match i with | .launchBlockRead _ => true | _ => false)

/-! ## The word of a lane group -/

/-- The lane group at the head of the issue list is fetched and decoded (R25, R47, R109): the instruction and the state it
runs in, or the fault of the fetch or of the decoder. A lane group that is no longer there does not issue. -/
def issueWord (s : State) (lg : LaneGroup) : Host.Outcome (State × Option Instr) Fault Refusal :=
  match group? s lg.group with
  | none => .next (s, none)
  | some gr => match gr.warps[lg.warp]? with
    | none => .next (s, none)
    | some wp =>
      if gr.life ≠ .resident ∨ chosenLanes wp lg = 0 then .next (s, none) else
      match fetchWord s gr lg.pc with
      | .error none => .fault .noSuchMemory
      | .error (some (c, d0, d1)) => .next (takeFault s lg.group lg.warp (fetchFault s gr wp (chosenLanes wp lg) lg.pc c d0 d1), none)
      | .ok w => match decode w with
        | .error r => .next (takeFault s lg.group lg.warp (decodeRecord s gr wp (chosenLanes wp lg) lg.pc w (Reject.code r)), none)
        | .ok i => .next ({ s with cur := some lg, curWord := w }, some i)

/-! ## What is next -/

/-- What the management port and a reset can do while the clocks are stopped (R409, R412). -/
def runsFrozen : Instr → Bool
  | .freezeRequest _ | .freezeRelease | .functionLevelReset _ | .hotReset | .powerUp | .pldmMonitoring | .powerLimitSet ..
  | .reducedPrecisionSet .. | .firmwareUpdate .. | .spdmAttestation => true
  | _ => false

/-- The next instruction with the state it runs in; none where the step is over already. Words chosen come first, then
inputs, then the device's own happenings. A frozen device runs only what may run then (R412). -/
def nextInstr (s : State) : Host.Outcome (State × Option Instr) Fault Refusal :=
  if s.mgmt.frozen.isSome then
    match indexWhere runsFrozen s.agenda with
    | some k => .next ({ s with agenda := s.agenda.eraseIdx k }, s.agenda[k]?)
    | none => .next (s, none)
  else match s.issue with
    | lg :: rest => if s.mgmt.needReset then .next ({ s with issue := [] }, none) else issueWord { s with issue := rest } lg
    | [] => match s.agenda with
      | i :: rest => .next ({ s with agenda := rest }, some i)
      | [] => .next (s, (happenings s)[Config.pick s.tick % ((happenings s).length + 1)]?)

/-- A cache may write a line back of itself (R192): which, and when, is free. -/
def evictSome (s : State) : State :=
  if s.draw = 0 then s else
  match s.l2[Config.choose s.draw 9200 % (s.l2.length + 1)]? with
  | some p => lineToMem s (256 * (p.1 / 256))
  | none => s

/-- A plain load that has not returned may read a write that has been performed since (R233, R237): which load, and which write, is
free. -/
def rebindSome (s : State) : State :=
  if s.draw = 0 then s else
  match s.late[Config.choose s.draw 9100 % (s.late.length + 1)]? with
  | none => s
  | some x =>
    let k := memKey x.space x.addr
    let skip := skipped s x.die k x.size 9101
    let v := loadValue x.sx x.size (readBytes s x.die x.space x.addr x.size skip)
    modWarp (sawBytes s x.die k x.size skip) x.group x.warp fun w => { w with outs := w.outs.map fun o => match o with
      | .value l r y => if l = x.lane ∧ x.reg ≤ r ∧ r < x.reg + x.regs then .value l r (BitVec.ofNat 32 (v / 2 ^ (32 * (r - x.reg)))) else .value l r y
      | y => y }

/-- Errors whose array holds nothing there any more, or new data, are gone (R430). -/
def settleErrs (s : State) : State :=
  if s.errs.isEmpty then s else mend s fun x => match x with
    | .line c g => (lineIn s c (4 * g / 256)).isNone ||
        s.pend.any fun p => p.level == 2 && clusterOf s p == some c && decide (p.addr ≤ 4 * g) && decide (4 * g + 4 ≤ p.addr + p.data.length)
    | .tlb k y => !inTlb s k y
    | .node c m _ _ => (region? s c m).isNone
    | .pair c p _ => (((core s c).slots[p]?.map (·.used)).getD false) == false
    | .column .. => false

/-- What caches and loads under way may do at the end of a step, of themselves. -/
def settleMemory (s : State) : State := settleErrs (evictErrors (evictSome (rebindSome s)))

/-- The end of a step: caches and loads under way may have gone on (R192, R233, R414); the free-value counter advances with the
free number of the next step, and the device timebase unless the clocks are stopped (R175, R412). -/
def endStep (s0 : State) : State :=
  let s := if s0.mgmt.frozen.isSome then s0 else settleMemory s0
  { s with draw := Config.draw s.tick, cur := none, curWord := 0, tick := s.tick + 1, timebase := if s.mgmt.frozen.isSome then s.timebase else s.timebase + Config.ticks s.tick }

/-! ## A word placed for a step -/

/-- The lane group of a placed word. -/
def placedGroup : LaneGroup := { group := 0, warp := 0, pc := 0x10000, lanes := 0xFFFFFFFF }

/-- Page tables that map the first 1 GiB of the address space onto itself (R187, R188), and a word at 0x10000. -/
def placedBytes (w : Nat) : List (Nat × List Byte) :=
  [(0x1000, leBytes 8 0x2003), (0x2000, leBytes 8 0x3003), (0x3000, leBytes 8 0x3D), (0x10000, leBytes 8 w)]

def putPlaced (s : State) (a : Nat) : List Byte → State
  | [] => s
  | b :: r => putPlaced { s with mem := memPut s.mem a b, l2 := sdel s.l2 a } (a + 1) r

/-- The context of a placed word: those page tables, control registers zero. -/
def placedCtx : Ctx := imageCtx 1 0 0x1000 []

/-- The group of a placed word: one warp on core 0 whose registers are zero. -/
def placedGr : Group :=
  { newGroup 0 1 0 0 .plain 0 0 0 1 256 0 0x3004 0x10000 0 true [newWarp 0 0 0x10000 []] with life := .resident }

/-- The state with a word placed where the next step fetches. -/
def placeWord (s : State) (w : Nat) : State :=
  let t := (placedBytes w).foldl (fun t p => putPlaced t p.1 p.2) s
  { t with
    issue := [placedGroup], groups := sput t.groups 0 placedGr, ctxs := sput t.ctxs 1 placedCtx
    pend := t.pend.filter fun p => p.die != 0, codeOld := [], bad := [], late := t.late.filter (·.group != 0), mgmt := { t.mgmt with frozen := none, needReset := false } }

end Sys2Proof.Machine
end

