-- ==== Sys2Proof/Machine/Step.lean ====
section
/-! DEFINITION. The step: one instruction, chosen by `nextInstr`, run by `exec`. -/

namespace Sys2Proof.Machine

/-- One step of the device. -/
def step (s : State) : Host.Outcome State Fault Refusal :=
  match nextInstr s with
  | .next (t, some i) => match exec i t with
    | .next u => .next (endStep u)
    | .fault f => .fault f
    | .refused r => .refused r
  | .next (t, none) => .next (endStep t)
  | .fault f => .fault f
  | .refused r => .refused r

/-- The state with an instruction word of nbits bits stored where the next step fetches, and all that this takes: page
tables, a context and a resident group (log entry 27). -/
def State.withFetchWord (s : State) (nbits w : Nat) : State := placeWord s (w % 2 ^ nbits)

end Sys2Proof.Machine
end

