-- ==== Sys2Proof/Safety.lean ====
section
/-! DEFINITION. What it means that a word issues, completes and leaves the rest alone: the terms in which the statements
about the machine are made. Nothing here is part of the machine. -/

namespace Sys2Proof.Machine

/-! ## The conditions under which a word has its own effect -/

/-- Word i is in issue in s as e says, with no decode fault of R48 that depends on the machine, no future to wait for (R45),
no deferred fault due (R286, R314), register rows enough for what an instance copies (R132), and no error in a register that it
reads (R414). -/
def Issues (i : Instr) (s : State) (e : Env) : Prop :=
  env? i s = some e ∧ decodeFault s e i = none ∧ futureHold e i = false ∧ (e.wp.deferred.find? fun r => dueAt r i) = none ∧
  (rowsToCopy e i).length ≤ freeRows s e.gr.core ∧ regError e i = none

/-- The same as a check. -/
def issuesNow (i : Instr) (s : State) : Bool :=
  match env? i s with
  | none => false
  | some e => (decodeFault s e i).isNone && !futureHold e i && (e.wp.deferred.find? fun r => dueAt r i).isNone &&
      decide ((rowsToCopy e i).length ≤ freeRows s e.gr.core) && (regError e i).isNone

/-! ## Readings -/

/-- Register r of lane l of a warp, by number. -/
def regAt (s : State) (g w r l : Nat) : Word :=
  match group? s g with
  | some gr => match gr.warps[w]? with
    | some wp => regRead s gr wp r l
    | none => 0
  | none => 0

/-- The lane group's group and warp as the state has them. -/
def groupOf (e : Env) (t : State) : Group := (group? t e.g).getD e.gr
def warpOf (e : Env) (t : State) : Warp := (warp? t e.g e.w).getD e.wp

/-- A byte of a group's scratchpad by number. -/
def spmAt (s : State) (g a : Nat) : Byte :=
  match group? s g with
  | some gr => spmByte s gr a
  | none => 0

/-! ## Frames -/

/-- Memory of every kind, with the writes not yet performed, is as it was: every byte reads as before, as every die sees
it and as its home holds it. -/
def SameMemory (s t : State) : Prop :=
  (∀ sp a, homeByte t sp a = homeByte s sp a) ∧ ∀ d sp a, viewByte t d sp a = viewByte s d sp a

/-- Nothing outside warp e.w of group e.g has changed, apart from the performance counters and the turn of a core in
fixed-star mode (R174, R368), and the count of words of a user logit kernel (R342). -/
def OnlyWarp (e : Env) (s t : State) : Prop :=
  t = { s with groups := t.groups, cores := t.cores } ∧
  (∀ g, g ≠ e.g → group? t g = group? s g) ∧
  (∀ c, { core t c with perf := (core s c).perf, one := (core s c).one } = core s c) ∧
  ∃ gr, group? t e.g = some gr ∧ { gr with warps := e.gr.warps, logits := e.gr.logits } = e.gr ∧
    gr.warps.length = e.gr.warps.length ∧ ∀ w, w ≠ e.w → gr.warps[w]? = e.gr.warps[w]?

/-- Every register of the warp reads as before, apart from those `res` gives a new value. -/
def RegsAre (e : Env) (s t : State) (res : Nat → Nat → Option Word) : Prop :=
  ∀ r l, l < 32 → regAt t e.g e.w r l = (res r l).getD (regAt s e.g e.w r l)

/-- n registers from d on, in the live lanes, take the words of f's value, low register first. -/
def resultIn (e : Env) (d : Reg) (n : Nat) (f : Nat → Nat) : Nat → Nat → Option Word := fun r l =>
  if bit e.live l = true ∧ d.toNat ≤ r ∧ r < d.toNat + n then some (BitVec.ofNat 32 (f l / 2 ^ (32 * (r - d.toNat)))) else none

/-- No register changes. -/
def noResult : Nat → Nat → Option Word := fun _ _ => none

/-- The lanes of the warp are as `lane` makes them. -/
def LanesAre (e : Env) (t : State) (lane : Nat → Lane → Lane) : Prop := ∀ l, (warpOf e t).lanes[l]? = (e.wp.lanes[l]?).map (lane l)

/-- The lanes of the lane group go on at the next word, the others stay where they are (R25). -/
def onward (e : Env) : Nat → Lane → Lane := fun l x => if bit e.atPc l then { x with pc := x.pc + 8 } else x

/-- What a warp holds beside its registers, lanes, tags and parking is as `upd` makes it. What the model keeps of a warp for
stale rows and for the register cache (R6, R53, R54) is no part of it. -/
def WarpIs (e : Env) (t : State) (upd : Warp → Warp) : Prop :=
  { warpOf e t with lanes := e.wp.lanes, regs := e.wp.regs, priv := e.wp.priv, pending := e.wp.pending, tags := e.wp.tags,
                    outs := e.wp.outs, parked := e.wp.parked, past := e.wp.past, regBad := e.wp.regBad, affine := e.wp.affine, recent := e.wp.recent } = upd e.wp

/-- The lanes for which a marked word of the lanes m parks its warp: those of the other word of its selection too (R44, R101). -/
def marksOf (e : Env) (m : Mask) : Mask := e.wp.parked.getD 0 ||| m

/-- A word that marks (`marks`) parks its warp for the lanes m while results are on their way (R44); any other leaves the
parking. -/
def ParkedFor (e : Env) (t : State) (marks : Prop) (m : Mask) : Prop :=
  (¬ marks → (warpOf e t).parked = e.wp.parked) ∧
  (marks → (warpOf e t).parked = if (warpOf e t).outs = [] then none else some (marksOf e m))

/-- A word that marks and finds no result on its way clears the pending bits of the marked lanes (R44): k is one of them. -/
def Clears (e : Env) (t : State) (marks : Prop) (m : Mask) (k : Nat) : Prop :=
  marks ∧ (warpOf e t).outs = [] ∧ bit (marksOf e m) (k % 32) = true

/-- What a word that has completed at once leaves: its registers hold the values of `res`, its lanes and its warp are as
`lane` and `upd` make them, no tag has cleared but those of written registers, no result is on its way because of it, and
everything else is as it was; a marked word that finds no result on its way clears the pending bits of its lanes (R44). -/
def Became (e : Env) (s t : State) (res : Nat → Nat → Option Word) (lane : Nat → Lane → Lane) (upd : Warp → Warp) : Prop :=
  RegsAre e s t res ∧ OnlyWarp e s t ∧ SameMemory s t ∧ LanesAre e t lane ∧ WarpIs e t upd ∧ ParkedFor e t (e.mark = true) e.live ∧
  (warpOf e t).outs = e.wp.outs ∧
  (∀ k, k ∈ (warpOf e t).pending ↔ k ∈ e.wp.pending ∧ ¬ Clears e t (e.mark = true) e.live k) ∧
  ∀ k, k ∈ (warpOf e t).tags ↔ k ∈ e.wp.tags ∧ res (k / 32) (k % 32) = none

/-- A word has completed at once with register results alone. -/
def Settled (e : Env) (s t : State) (res : Nat → Nat → Option Word) : Prop := Became e s t res (onward e) id

/-- The same word as another state holds its group and warp. -/
def Env.on (e : Env) (u : State) : Env := { e with gr := groupOf e u, wp := warpOf e u }

/-- Word i holds lanes of its lane group: they stand at the word, the other lanes of the lane group go on, and nothing else
changes (R100). A marked word that has taken effect parks its warp for the live lanes that go on (R44). -/
def Held (i : Instr) (e : Env) (s t : State) (k : Hold) (lanes : Mask) : Prop :=
  RegsAre e s t noResult ∧ OnlyWarp e s t ∧ SameMemory s t ∧
  LanesAre e t (fun l x => if bit e.atPc l && !bit lanes l then { x with pc := x.pc + 8 } else x) ∧
  (let marks : Prop := e.mark = true ∧ k.inPlace i = true ∧ e.live &&& ~~~lanes ≠ 0
   ParkedFor e t marks (e.live &&& ~~~lanes) ∧
   ∀ q, q ∈ (warpOf e t).pending ↔ q ∈ e.wp.pending ∧ ¬ Clears e t marks (e.live &&& ~~~lanes) q) ∧
  warpOf e t = { e.wp with
    lanes := (warpOf e t).lanes, parked := (warpOf e t).parked, pending := (warpOf e t).pending
    affine := (warpOf e t).affine, recent := (warpOf e t).recent
    holds := e.wp.holds ++ [{ lanes := lanes, live := lanes &&& e.live, pc := e.pc, word := e.word, instr := some i, kind := k }] }

/-- Every lane of the warp that has not exited stands in the lane group (R142). -/
def Together (e : Env) : Prop := ∀ l x, l < 32 → e.wp.lanes[l]? = some x → x.exited = false → bit e.atPc l = true

/-- Word i takes a fault of the code in the lanes (R349). -/
def Faults (i : Instr) (s : State) (e : Env) (c : Code) (lanes : Mask) (d0 d1 : DWord) : Prop :=
  exec i s = .next (takeFault s e.g e.w (recordOf s e c lanes d0 d1))

/-- Lanes after a control transfer: the live ones stand at their targets, the others go on (R111). -/
def atTargets (e : Env) (target : Nat → DWord) : Nat → Lane → Lane := fun l x =>
  if bit e.live l then { x with pc := target l } else if bit e.atPc l then { x with pc := x.pc + 8 } else x

/-- The members of a lane-exchange word (R116): the live lanes, or those of them that the mask read in the leader names. -/
def MembersOf (e : Env) (s : State) (m : Option Reg) (mem : Mask) : Prop :=
  match m with
  | none => mem = e.live
  | some r => match leader e.live with
    | none => mem = 0
    | some k => mem = e.live &&& e.v s r k

/-- The mask is right (R116): it names the leader, and no lane outside the word's lane group as its selection chose it: none
that has exited, and none that stands at another program counter. -/
def MaskOk (e : Env) (s : State) (r : Reg) : Prop :=
  ∃ k, leader e.live = some k ∧ bit (e.v s r k) k = true ∧ ∀ l, bit (e.v s r k) l = true → bit e.atPc l = true

/-- Word i answers a next state in which it has completed at once with these results. -/
def Completes (i : Instr) (s : State) (e : Env) (res : Nat → Nat → Option Word) : Prop :=
  ∃ t, exec i s = .next t ∧ Settled e s t res

/-- What a word with long-latency results (R42) leaves: n registers from d on are pending in the live lanes, their values
of f on the way behind the others, their tags cleared, and everything else is as it was. -/
def SentOff (e : Env) (s t : State) (d : Reg) (n : Nat) (f : Nat → Nat) : Prop :=
  RegsAre e s t noResult ∧ OnlyWarp e s t ∧ SameMemory s t ∧ LanesAre e t (onward e) ∧ WarpIs e t id ∧ ParkedFor e t (e.mark = true) e.live ∧
  (warpOf e t).outs = e.wp.outs ++ (lanesOf e.live).flatMap (fun l =>
    (List.range n).map fun k => .value l (d.toNat + k) (BitVec.ofNat 32 (f l / 2 ^ (32 * k)))) ∧
  (∀ k, k ∈ (warpOf e t).pending ↔ (k ∈ e.wp.pending ∨ (resultIn e d n f (k / 32) (k % 32)).isSome = true) ∧
    ¬ Clears e t (e.mark = true) e.live k) ∧
  ∀ k, k ∈ (warpOf e t).tags ↔ k ∈ e.wp.tags ∧ resultIn e d n f (k / 32) (k % 32) = none

/-- Word i answers a next state in which its results are on their way. -/
def CompletesLater (i : Instr) (s : State) (e : Env) (d : Reg) (n : Nat) (f : Nat → Nat) : Prop :=
  ∃ t, exec i s = .next t ∧ SentOff e s t d n f

/-! ## Words that change more than their warp -/

/-- Word i answers a next state in which it has brought about u and has then completed at once with these results. -/
def CompletesOn (i : Instr) (s : State) (e : Env) (u : State) (res : Nat → Nat → Option Word) : Prop :=
  ∃ t, exec i s = .next t ∧ Settled (e.on u) u t res

/-- The same with results on their way. -/
def CompletesLaterOn (i : Instr) (s : State) (e : Env) (u : State) (d : Reg) (n : Nat) (f : Nat → Nat) : Prop :=
  ∃ t, exec i s = .next t ∧ SentOff (e.on u) u t d n f

/-- Word i answers a next state in which it has brought about u and holds its lanes. -/
def HoldsOn (i : Instr) (s : State) (e : Env) (u : State) (k : Hold) (lanes : Mask) : Prop :=
  ∃ t, exec i s = .next t ∧ Held i (e.on u) u t k lanes

/-- Every live lane has taken its step, in increasing order (R9): u is what they leave, and `as` what they give. -/
def LanesGive {α : Type} (e : Env) (f : State → Nat → Except LaneFault (State × α)) (b u : State) (as : List (Nat × α)) : Prop :=
  eachLane f (lanesOf e.live) b = ([], u, as)

/-- The lowest live lane faults and so does the word (R9), in that lane and the others that reach the same code. -/
def FaultsFirst (i : Instr) (s : State) (e : Env) (b : State) (c : Code) (d0 d1 : DWord) : Prop :=
  ∃ l lanes, leader e.live = some l ∧ bit lanes l = true ∧ lanes &&& e.live = lanes ∧
    exec i s = .next (takeFault b e.g e.w (recordOf s e c lanes d0 d1))

/-- b is what a release of the scope leaves before its word has any other effect (R232, R233): at device scope or wider
every earlier write of the die has been performed. -/
def Released (e : Env) (s : State) (rel : Bool) (sc : Scope) (b : State) : Prop :=
  if rel = true ∧ devScope sc = true ∧ e.live ≠ 0 then stuck s e.die = false ∧ b = drainDie s e.die else b = s

/-- Why an access of n bytes at a virtual address goes wrong (R201, R349, R414): bounds, alignment, translation, link, an error in
the TLB, in this order. -/
def AccessFault (s : State) (e : Env) (va : DWord) (n kind need : Nat) (c : Code) (d0 d1 : DWord) : Prop :=
  (2 ^ 57 ≤ va.toNat ∧ c = .prot ∧ d0 = va ∧ d1 = 0) ∨
  (va.toNat < 2 ^ 57 ∧ va.toNat % n ≠ 0 ∧ c = .align ∧ d0 = va ∧ d1 = 0) ∨
  (va.toNat < 2 ^ 57 ∧ va.toNat % n = 0 ∧ translate s e.die e.gr.ctx (gens s e.gr) va { kind := kind, need := need } = .bad c d0 d1) ∨
  (va.toNat < 2 ^ 57 ∧ va.toNat % n = 0 ∧ ∃ l, translate s e.die e.gr.ctx (gens s e.gr) va { kind := kind, need := need } = .ok l ∧
    (linkLost s l = true ∧ c = .linklost ∧ d0 = va ∧ d1 = 0 ∨
     linkLost s l = false ∧ tlbError s e va l = true ∧ c = .eccu ∧ d0 = BitVec.ofNat 64 l.addr ∧ d1 = 0))

/-- No template heap is laid over memory, so that stores go where their addresses say (R132). -/
def NoHeaps (s : State) : Prop := ∀ t ∈ s.tmpls, t.heapVa.2 = 0

/-- Bytes lie where their address says (R132, R136, R250): not in a template's image or heap, and not in a region's backing. -/
def Plain (s : State) (sp a n : Nat) : Prop :=
  sp = 0 ∨ sp = 11 → areaHit s a n = false ∧ heapHit s a n = none ∧ backingOf s a n = none

/-- A write of n bytes through a leaf lands where its address says. -/
def Writable (s : State) (x : Leaf) (n : Nat) : Prop := Plain s x.space x.addr n

/-- So does a write of any part of a line of a range whose translations are pinned. -/
def PlainRange (s : State) (ps : Pages) (va len : Nat) : Prop :=
  ∀ a n, va ≤ a → a + n ≤ va + len → 0 < n → a / 256 = (a + n - 1) / 256 → Plain s (pinnedAt ps.1 a).1 (pinnedAt ps.1 a).2 n

/-- No region is declared non-negative (R251). -/
def NoFloors (s : State) : Prop := ∀ r ∈ s.regions, r.nonneg = false

/-- A device write of n bytes finds its pages with R and W and touches no template (R136, R431): ps are its physical pieces. -/
def DevWritable (s : State) (e : Env) (va : DWord) (n : Nat) (ps : List (Nat × Nat × Nat)) : Prop :=
  devPieces s e.gr.ctx (gens s e.gr) 2 (n / 65536 + 2) va 1 n = .ok ps ∧ piecesHit s ps = false

/-- Where lane l of a read-modify-write of n bytes goes: x, its space, offset or address, and virtual address. Its checks find
nothing wrong, and its home lets it be performed (R211, R212, R252, R259). -/
def PlaceOk (s : State) (e : Env) (p : Place) (off : BitVec 8) (n l : Nat) (x : Nat × Nat × DWord) : Prop :=
  match p with
  | .spm v =>
    let o : Int := (e.v s v l).toNat + off.toInt * n
    0 ≤ o ∧ o + n ≤ e.gr.spmSize ∧ o % n = 0 ∧ spmError e.gr o.toNat n = none ∧ x = (2, o.toNat, 0)
  | .mem a =>
    let va : DWord := e.d s a l + BitVec.ofInt 64 (off.toInt * n)
    ∃ lf, memLeaf s e va n 2 2 = .ok lf ∧ (lf.space < 3 ∨ 10 < lf.space) ∧ (lf.space = 1 → cxl s = true) ∧ Writable s lf n ∧
      eccHit s e.die lf.space lf.addr n = false ∧ homeStuck s e.die lf.space lf.addr n = false ∧ x = (lf.space, lf.addr, va)

/-- What caches and TLBs hold, and the counters of it, may differ, and nothing else (R190, R192, R368). -/
def Tagged (u v : State) : Prop :=
  v = { u with caches := v.caches, predictor := v.predictor, tlbs := v.tlbs, snoops := v.snoops, cores := v.cores } ∧
  ∀ c, { core v c with perf := (core u c).perf } = core u c

/-- A read has told its lanes and their die what it has met and the caches what it uses, and has changed nothing else (R190, R192, R230
to R232, R368). -/
def ReadNoted (e : Env) (s v : State) : Prop :=
  Tagged { s with groups := v.groups, views := v.views, late := v.late } v ∧ (∀ g, g ≠ e.g → group? v g = group? s g) ∧
  ∃ gr, group? v e.g = some gr ∧ { gr with warps := e.gr.warps } = e.gr ∧ gr.warps.length = e.gr.warps.length ∧
    (∀ w, w ≠ e.w → gr.warps[w]? = e.gr.warps[w]?) ∧ { warpOf e v with heard := e.wp.heard } = e.wp

/-- A place of memory lies in n bytes from another on. -/
def within (p : Nat × Nat) (n sp a : Nat) : Prop := memKey p.1 p.2 ≤ memKey sp a ∧ memKey sp a < memKey p.1 p.2 + n

/-- Lanes have stored n bytes each at their places, not yet performed at the homes: the die sees the data of the highest
lane that covers a byte, and every other byte reads as before, as every die sees it and as its home holds it (R201, R231). -/
def Stored (e : Env) (b u : State) (at_ : List (Nat × (Nat × Nat))) (n : Nat) (data : Nat → List Byte) : Prop :=
  u = { b with pend := u.pend, late := u.late } ∧ (∀ x ∈ u.late, x ∈ b.late) ∧ (∀ sp a, homeByte u sp a = homeByte b sp a) ∧
  (∀ d, d ≠ e.die → ∀ sp a, viewByte u d sp a = viewByte b d sp a) ∧
  (∀ sp a, (∀ p ∈ at_, ¬ within p.2 n sp a) → viewByte u e.die sp a = viewByte b e.die sp a) ∧
  ∀ l place before after, at_ = before ++ (l, place) :: after → ∀ sp a, within place n sp a → (∀ p ∈ after, ¬ within p.2 n sp a) →
    viewByte u e.die sp a = (data l)[memKey sp a - memKey place.1 place.2]?.getD 0

/-- Lanes have written n bytes each of the group's scratchpad at their offsets: the highest lane that covers a byte
prevails, every other byte reads as before, and nothing else has changed but the performance counters. -/
def ScratchWritten (e : Env) (s u : State) (at_ : List (Nat × Nat)) (n : Nat) (data : Nat → List Byte) : Prop :=
  u = { s with groups := u.groups, cores := u.cores } ∧ (∀ g, g ≠ e.g → group? u g = group? s g) ∧
  (∀ c, { core u c with perf := (core s c).perf } = core s c) ∧
  (∃ gr, group? u e.g = some gr ∧ { gr with spm := e.gr.spm, spmPriv := e.gr.spmPriv, pastSpm := e.gr.pastSpm, spmBad := gr.spmBad } =
    { e.gr with spmBad := gr.spmBad } ∧ ∀ q ∈ gr.spmBad, q ∈ e.gr.spmBad) ∧
  (∀ k, (∀ p ∈ at_, k < p.2 ∨ p.2 + n ≤ k) → spmAt u e.g k = spmAt s e.g k) ∧
  ∀ l o before after, at_ = before ++ (l, o) :: after → ∀ k, o ≤ k → k < o + n → (∀ p ∈ after, k < p.2 ∨ p.2 + n ≤ k) →
    spmAt u e.g k = (data l)[k - o]?.getD 0

/-! ## Blocks of the matrix words -/

/-- The core has accumulator slots for the logical slots that a group does not hold yet (R272). -/
def SlotRoom (s : State) (e : Env) (ls : List Nat) : Prop :=
  ((ls.foldl sins []).filter fun l => (sget? e.gr.slots l).isNone).length ≤ ((core s e.gr.core).slots.filter fun a => !a.used).length

/-- The block of lane l of an MBLOAD is right, with the pages that it reads (R285, R293, R294). -/
def LoadOk (s : State) (e : Env) (p : Place) (l : Nat) (ps : Pages) (ls : List Nat) : Prop :=
  ∃ va b bar t, blockOf s e p l = .ok (va, b) ∧ field b 1 1 ≤ 7 ∧ field b 2 1 ≤ 1 ∧ field b 3 1 = 0 ∧ field b 4 4 % 32 = 0 ∧
    (b.drop 24).all (· == 0) = true ∧ checkBarrier e va b 20 = .ok bar ∧ tensorEntry s e (field b 0 1) 4 = .ok t ∧
    (t.dims < 3 → field b 12 4 = 0) ∧ (t.dims < 4 → field b 16 4 = 0) ∧ t.format ≠ 0 ∧
    (let tag : Tag := { ctx := e.gr.ctx, tid := field b 0 1, count := setCount s e.gr.ctx (field b 0 1), k0 := field b 4 4
                        n0 := field b 8 4, i2 := field b 12 4, i3 := field b 16 4, gen := none }
     accRanges s e (some (field b 0 1, Tensor.versioned t)) 1 ([], []) (tileRanges t tag) = .ok ps ∧
     ∀ c, c < 64 → checkRun s e ps (field b 0 1) t (field b 4 4) (tileK t) (field b 8 4 + c) (field b 12 4) (field b 16 4) = .ok ()) ∧
    ls = []

/-- The block of lane l of an MMUL is right, with its pages and the slots it names (R285, R295, R296). -/
def MulOk (s : State) (e : Env) (p : Place) (l : Nat) (ps : Pages) (ls : List Nat) : Prop :=
  ∃ va b a tags ps1, blockOf s e p l = .ok (va, b) ∧
    (let n := field b 1 1
     let rows := field b 2 1
     let es := (List.range n).map fun i => field b (16 + i) 1
     let tid := field b 0 1
     let kd := (BitVec.ofNat 32 (field b 24 4)).toInt
     let tag (x : Nat) : Option TagRec := sget? tags (x % 8)
     let k0 (x : Nat) : Nat := ((tag x).map fun t => t.tag.k0).getD 0
     let kt (x : Nat) : Nat := ((tag x).map fun t => tileK t.entry).getD 0
     let rowsIn := (List.range rows).map (field b 4 4 + ·)
     0 < n ∧ n ≤ 8 ∧ 0 < rows ∧ rows ≤ 32 ∧ field b 3 1 = 0 ∧ (∀ x ∈ es, x < 64) ∧
     ((b.drop (16 + n)).take (8 - n)).all (· == 0) = true ∧ (b.drop 28).all (· == 0) = true ∧
     tensorEntry s e tid 4 = .ok a ∧ a.format ≠ 0 ∧ Tensor.sparse a = 0 ∧
     es.foldlM (fun (m : List (Nat × TagRec)) x => do pure (sput m (x % 8) (← recordedTag s e va (x % 8)))) [] = .ok tags ∧
     (∀ x ∈ es, ∀ t, tag x = some t → mayMultiply a.format t.entry.format = true) ∧
     (∀ i j, i < n → j < i → es[i]?.getD 0 / 8 = es[j]?.getD 0 / 8 → k0 (es[i]?.getD 0) ≠ k0 (es[j]?.getD 0)) ∧
     (∀ x ∈ es, 0 ≤ (k0 x : Int) + kd ∧ ((k0 x : Int) + kd) % 32 = 0) ∧
     accRanges s e (some (tid, Tensor.versioned a)) 1 ([], []) (es.flatMap fun x => rowsIn.flatMap fun r =>
       runRanges a ((k0 x : Int) + kd).toNat (kt x) r (field b 8 4) (field b 12 4)) = .ok ps1 ∧
     tags.foldlM (fun q t => accRanges s e (some (t.2.tag.tid, Tensor.versioned t.2.entry)) 1 q (tileRanges t.2.entry t.2.tag)) ps1 = .ok ps ∧
     (∀ x ∈ es, ∀ r ∈ rowsIn, checkRun s e ps tid a ((k0 x : Int) + kd).toNat (kt x) r (field b 8 4) (field b 12 4) = .ok ()) ∧
     ls = es.map (· / 8))

/-- The block of lane l of a constant stream is right, with its pages and its slot (R285, R297). -/
def StreamOk (s : State) (e : Env) (op : Nat) (p : Place) (l : Nat) (ps : Pages) (ls : List Nat) : Prop :=
  ∃ va b t sps, blockOf s e p l = .ok (va, b) ∧
    (let rows := field b 2 1
     let sel := field b 8 8
     field b 0 1 ≤ 7 ∧ field b 1 1 ≤ 7 ∧ 0 < rows ∧ rows ≤ 32 ∧ (op = 2 → rows = 1) ∧ field b 3 1 + rows ≤ 32 ∧
     (op ≠ 0 → field b 4 4 = 0) ∧ (op ≠ 1 → sel = 0) ∧ (op = 1 → sel % 2 = 0) ∧ (b.drop 16).all (· == 0) = true ∧
     recordedTag s e va (field b 0 1) = .ok t ∧ (op = 0 → field b 4 4 + rows ≤ tileK t.entry) ∧
     accRanges s e (some (t.tag.tid, Tensor.versioned t.entry)) 1 ([], []) (tileRanges t.entry t.tag) = .ok ps ∧
     (op = 1 → accRange s e none 1 ([], []) sel (2 * rows) = .ok sps ∧ ∀ i, i < rows → ∃ x, pinnedRead s e.gr sps.1 (sel + 2 * i) 2 = .ok x ∧
       leNat x < tileK t.entry) ∧
     ls = [field b 1 1])

/-- The block of lane l of an MEPI is right, with its pages and its slot, and its destinations lie where their addresses say (R285, R300). -/
def EpiOk (s : State) (e : Env) (p : Place) (l : Nat) (ps : Pages) (ls : List Nat) : Prop :=
  ∃ va b bar t, blockOf s e p l = .ok (va, b) ∧
    (let rows := field b 2 1
     let cols := field b 3 1
     let flags := field b 49 1
     let rs := field b 16 8
     let cs := field b 24 8
     let bias := field b 32 8
     let stats := field b 40 8
     let tid := field b 0 1
     let rg := if flags / 4 = 1 then ([], []) else epiRanges t rows cols (field b 4 4) (field b 8 4) (field b 12 2) (field b 14 2)
     field b 1 1 ≤ 7 ∧ 0 < rows ∧ rows ≤ 32 ∧ 0 < cols ∧ cols ≤ 64 ∧ field b 48 1 ≤ 2 ∧ flags ≤ 7 ∧ field b 50 2 = 0 ∧
     (b.drop 56).all (· == 0) = true ∧ checkBarrier e va b 52 = .ok bar ∧ rs % 4 = 0 ∧ cs % 4 = 0 ∧ bias % 4 = 0 ∧ stats % 8 = 0 ∧
     tensorEntry s e tid 4 = .ok t ∧ Tensor.sparse t = 0 ∧ (t.format = 6 → field b 8 4 % 2 = 0 ∧ cols % 2 = 0) ∧
     (e.fixed = true → flags % 2 = 0) ∧
     (do
       let q ← accRanges s e (some (tid, Tensor.versioned t)) 2 ([], []) rg.1
       let q ← accRanges s e (some (tid, Tensor.versioned t)) 1 q rg.2
       let q ← accRange s e none 1 q rs (if rs = 0 then 0 else 4 * rows)
       let q ← accRange s e none 1 q cs (if cs = 0 then 0 else 4 * cols)
       let q ← accRange s e none 1 q bias (if bias = 0 then 0 else 4 * cols)
       accRange s e none 2 q stats (if stats = 0 then 0 else 8 * rows)) = .ok ps ∧
     (flags / 4 ≠ 1 → ∀ r, r < rows → checkRun s e ps tid t (field b 8 4) cols (field b 4 4 + r) (field b 12 2) (field b 14 2) = .ok ()) ∧
     (∀ x ∈ rg.1, PlainRange s ps x.1 x.2) ∧ (stats ≠ 0 → PlainRange s ps stats (8 * rows)) ∧
     ls = [field b 1 1])

/-! ## Blocks of the copies -/

/-- The block of lane l of a copy word is right, and its destinations lie where their addresses say (R311): `keys` are the walk-ahead
entries that it takes (R305). -/
def CopyOk (s : State) (e : Env) (kind : Nat) (p : Place) (l : Nat) (keys : List Nat) : Prop :=
  ∃ va b first second ps, blockOf s e p l = .ok (va, b) ∧ copyFieldsOk kind b = true ∧
    (let fl := field b (if kind = 3 then 1 else 2) 1
     let get := kind == 3 && fl % 2 == 1
     let src := if get then none else first
     let dst := if get then first else second
     let bits := copyBits src dst
     let idx := if kind = 1 ∨ kind = 2 then (List.range (field b 8 4)).map fun r => leNat (spmBytes s e.gr (field b 40 4 + 4 * r) 4) else []
     let els := copyElems kind b src dst idx
     let page (t : Option Tensor) (n need : Nat) (ps : Pages) (x : Nat × Bool × Nat) : Except LaneFault Pages :=
       if x.1 = 0 ∧ x.2.1 then accPage s e (t.map fun y => (n, Tensor.versioned y)) need ps (elemByte bits x.2.2) else .ok ps
     sideEntry s e kind va b (if kind = 3 then decide (2 ≤ fl) else fl % 2 == 1) (field b 0 1) = .ok first ∧
     (if kind = 3 then second = none else sideEntry s e kind va b (decide (2 ≤ fl)) (field b 1 1) = .ok second) ∧
     (first = none → second = none → pitchesOk kind b 8 = true) ∧
     (∀ x y, first = some x → second = some y → fmtBits x.format = fmtBits y.format) ∧
     (kind = 3 → ∃ q, s.ports[field b 2 1]? = some q ∧ q.up = true) ∧
     copyAlign kind b src dst = none ∧ (∀ r ∈ copySpm kind b bits, r.1 + r.2 ≤ e.gr.spmSize) ∧
     els.foldlM (fun (q : Pages) x => do page dst (field b (if kind = 3 then 0 else 1) 1) 2 (← page src (field b 0 1) 1 q x.1) x.2) ([], []) = .ok ps ∧
     (∀ x ∈ els, ∀ sp a, placeElem ps.1 bits x.2 = some (sp, a) → Plain s sp (elemByte bits a) (elemLen bits)) ∧
     field b 4 4 * bits / 8 * field b 8 4 ≤ 2 ^ 24 ∧ keys = pinKeys s e (ps.1.map (·.1)) ∧ keys.length ≤ 1024 ∧
     (e.fixed = true → kind = 2 → repeats ((dst.map fun t => if t.dims < 2 then 1 else Tensor.size t 1).getD 0) idx = false))

/-! ## What every step keeps -/

/-- Device and host memory are in their canonical form, and the reserved bits of the control registers of every context read as
zero (R367). -/
def Inv (s : State) : Prop :=
  Memory.wf s.mem = true ∧ Memory.wf s.hostMem = true ∧
  ∀ x ∈ s.ctxs, x.2.trapvec &&& 7 = 0 ∧ x.2.trapframe &&& 0xFFFF = 0 ∧ x.2.preempt &&& 0xFE0000000000003E = 0

/-! ## Numbers -/

/-- The magnitudes of a format in rising order (R71): number k is the value of the encoding k of sign 0, and the row goes on
without end past the largest finite value. -/
def magValue (f : Fmt) (k : Nat) : ℚ :=
  if k < 2 ^ Fmt.frac f then k * 2 ^ (1 - (Fmt.bias f : ℤ) - Fmt.frac f)
  else (2 ^ Fmt.frac f + k % 2 ^ Fmt.frac f : ℕ) * 2 ^ ((k / 2 ^ Fmt.frac f : ℕ) - (Fmt.bias f : ℤ) - Fmt.frac f)

/-- Number k of the magnitudes is the rounding of x ≥ 0 in the mode, for a value of the given sign (R73). -/
def Nearest (f : Fmt) (r : Rnd) (neg : Bool) (x : ℚ) (k : Nat) : Prop :=
  let below : Prop := magValue f k ≤ x ∧ x < magValue f (k + 1)
  let above : Prop := x ≤ magValue f k ∧ ∀ j < k, magValue f j < x
  match r with
  | .rn => ∀ j, j ≠ k → |magValue f k - x| < |magValue f j - x| ∨ (|magValue f k - x| = |magValue f j - x| ∧ k % 2 = 0)
  | .rz => below
  | .ru => if neg then below else above
  | .rd => if neg then above else below

/-- n encodes x ≥ 0 with a sign, rounded once in the mode, with the overflow of R72. -/
def RoundsTo (f : Fmt) (r : Rnd) (neg : Bool) (x : ℚ) (n : Nat) : Prop :=
  ∃ k, Nearest f r neg x k ∧ n = signed f neg (
    if k < Fmt.infBits f then k
    else if (match r with | .rn => true | .rz => false | .ru => !neg | .rd => neg) then Fmt.infBits f else Fmt.infBits f - 1)

/-- A number as an encoding holds it: a zero keeps its sign. -/
inductive FNum where
  | nan
  | inf (neg : Bool)
  | fin (neg : Bool) (x : ℚ)
  deriving DecidableEq

/-- The number an encoding stands for (R71). -/
def numOf (f : Fmt) (x : Nat) : FNum :=
  let neg := decide (x / Fmt.signBit f % 2 = 1)
  let mag := x % Fmt.signBit f
  if Fmt.infBits f < mag then .nan
  else if mag = Fmt.infBits f then .inf neg
  else .fin neg (if neg then -magValue f mag else magValue f mag)

/-- The same under .FTZ (R73). -/
def numIn (f : Fmt) (ftz : Bool) (x : Nat) : FNum := numOf f (flush f ftz x)

def FNum.neg : FNum → FNum
  | .nan => .nan
  | .inf s => .inf !s
  | .fin s x => .fin (!s) (-x)

/-- The exact product; 0 × ∞ is no number (R72). -/
def FNum.mul : FNum → FNum → FNum
  | .nan, _ => .nan
  | _, .nan => .nan
  | .inf s, .inf t => .inf (s != t)
  | .inf s, .fin t y => if y = 0 then .nan else .inf (s != t)
  | .fin s x, .inf t => if x = 0 then .nan else .inf (s != t)
  | .fin s x, .fin t y => .fin (s != t) (x * y)

/-- n is the exact x rounded once, a zero of sign z, and flushed under .FTZ. -/
def Rounded (f : Fmt) (r : Rnd) (ftz z : Bool) (x : ℚ) (n : Nat) : Prop :=
  ∃ m, n = flush f ftz m ∧ (x = 0 → m = signed f z 0) ∧ (x ≠ 0 → RoundsTo f r (decide (x < 0)) |x| m)

/-- n is the conversion of a number. -/
def FNum.To (f : Fmt) (r : Rnd) (ftz : Bool) : FNum → Nat → Prop
  | .nan, n => n = Fmt.nan f
  | .inf s, n => n = signed f s (Fmt.infBits f)
  | .fin s x, n => Rounded f r ftz s x n

/-- n is the sum of two numbers (R72, R83): an exact zero sum of unlike signs is +0, and −0 under .RD. -/
def FNum.AddTo (f : Fmt) (r : Rnd) (ftz : Bool) : FNum → FNum → Nat → Prop
  | .nan, _, n => n = Fmt.nan f
  | _, .nan, n => n = Fmt.nan f
  | .inf s, .inf t, n => n = if s = t then signed f s (Fmt.infBits f) else Fmt.nan f
  | .inf s, .fin _ _, n => n = signed f s (Fmt.infBits f)
  | .fin _ _, .inf t, n => n = signed f t (Fmt.infBits f)
  | .fin s x, .fin t y, n => Rounded f r ftz (if s = t then s else r == .rd) (x + y) n

/-- n is the quotient of two numbers (R72, R88). -/
def FNum.DivTo (f : Fmt) (r : Rnd) (ftz : Bool) : FNum → FNum → Nat → Prop
  | .nan, _, n => n = Fmt.nan f
  | _, .nan, n => n = Fmt.nan f
  | .inf _, .inf _, n => n = Fmt.nan f
  | .inf s, .fin t _, n => n = signed f (s != t) (Fmt.infBits f)
  | .fin s _, .inf t, n => n = signed f (s != t) 0
  | .fin s x, .fin t y, n => if y = 0 then (if x = 0 then n = Fmt.nan f else n = signed f (s != t) (Fmt.infBits f))
      else Rounded f r ftz (s != t) (x / y) n

/-- n is the sum of three numbers, rounded once (R94). -/
def FNum.Add3To (f : Fmt) (r : Rnd) (ftz : Bool) (a b c : FNum) (n : Nat) : Prop :=
  match a, b, c with
  | .fin s x, .fin t y, .fin u z => Rounded f r ftz (if s = t ∧ t = u then s else r == .rd) (x + y + z) n
  | _, _, _ =>
    if a = .nan ∨ b = .nan ∨ c = .nan then n = Fmt.nan f
    else
      let has (s : Bool) : Prop := a = .inf s ∨ b = .inf s ∨ c = .inf s
      (has true ∧ has false → n = Fmt.nan f) ∧ (has true ∧ ¬ has false → n = signed f true (Fmt.infBits f)) ∧
      (has false ∧ ¬ has true → n = Fmt.infBits f)

/-- The order of R84: −0 lies below +0. -/
def FNum.below : FNum → FNum → Prop
  | .nan, _ => False
  | _, .nan => False
  | .inf s, .inf t => s = true ∧ t = false
  | .inf s, .fin _ _ => s = true
  | .fin _ _, .inf t => t = false
  | .fin s x, .fin t y => x < y ∨ (x = y ∧ s = true ∧ t = false)

/-- n is the minimum or maximum of two encodings (R84). -/
def MinMaxTo (f : Fmt) (mx : Bool) (a b n : Nat) : Prop :=
  if numOf f a = .nan then (if numOf f b = .nan then n = Fmt.nan f else n = b)
  else if numOf f b = .nan then n = a
  else
    ((numOf f a).below (numOf f b) → n = if mx then b else a) ∧ ((numOf f b).below (numOf f a) → n = if mx then a else b) ∧
    (n = a ∨ n = b)

/-- A relation of R85: −0 and +0 are equal, and only NE and UN hold of what is no number. -/
def FNum.Rel (rel : FRel) (a b : FNum) : Prop :=
  let lt : FNum → FNum → Prop
    | .inf s, .inf t => s = true ∧ t = false
    | .inf s, .fin _ _ => s = true
    | .fin _ _, .inf t => t = false
    | .fin _ x, .fin _ y => x < y
    | _, _ => False
  let eq : FNum → FNum → Prop
    | .inf s, .inf t => s = t
    | .fin _ x, .fin _ y => x = y
    | _, _ => False
  match rel with
  | .eq => eq a b
  | .ne => ¬ eq a b
  | .lt => lt a b
  | .le => lt a b ∨ eq a b
  | .gt => lt b a
  | .ge => lt b a ∨ eq a b
  | .un => a = .nan ∨ b = .nan

/-- k is x ≥ 0 rounded to an integer in the mode, for a value of the given sign (R89, R91). -/
def IntNear (r : Rnd) (neg : Bool) (x : ℚ) (k : ℕ) : Prop :=
  let below : Prop := (k : ℚ) ≤ x ∧ x < k + 1
  let above : Prop := x ≤ k ∧ (k : ℚ) < x + 1
  match r with
  | .rn => |(k : ℚ) - x| ≤ 1 / 2 ∧ (|(k : ℚ) - x| = 1 / 2 → k % 2 = 0)
  | .rz => below
  | .ru => if neg then below else above
  | .rd => if neg then above else below

/-- The value of a tapered code (R74). -/
def stValue (c n : Nat) : ℚ := match decodeST c n with | some (x, e) => (x : ℚ) * 2 ^ e | none => 0

/-- m is the magnitude code of x > 0 (R75): the nearest code, ties to the even one, never 0 and never past the last. -/
def StTo (n : Nat) (x : ℚ) (m : Nat) : Prop :=
  0 < m ∧ m < 2 ^ (n - 1) ∧
  (stValue (2 ^ (n - 1) - 1) n ≤ x → m = 2 ^ (n - 1) - 1) ∧ (x ≤ stValue 1 n → m = 1) ∧
  (stValue 1 n < x → x < stValue (2 ^ (n - 1) - 1) n → ∀ j, 0 < j → j < 2 ^ (n - 1) → j ≠ m →
    |stValue m n - x| < |stValue j n - x| ∨ (|stValue m n - x| = |stValue j n - x| ∧ m % 2 = 0))

/-- c is the tapered code of a number (R75). -/
def FNum.StCode (n : Nat) : FNum → Nat → Prop
  | .nan, c => c = 2 ^ (n - 1)
  | .inf s, c => c = if s then 2 ^ (n - 1) + 1 else 2 ^ (n - 1) - 1
  | .fin _ x, c => (x = 0 → c = 0) ∧ (x ≠ 0 → ∃ m, StTo n |x| m ∧ c = if x < 0 then 2 ^ n - m else m)

/-- c is the half-step code of a number of w bits at a scale (R77). -/
def FNum.HsCode (w : Nat) (scale : ℚ) : FNum → Nat → Prop
  | .nan, c => c = 2 ^ (w - 1)
  | .inf s, c => c = if s then 2 ^ (w - 1) else 2 ^ (w - 1) - 1
  | .fin _ x, c => ∃ k : ℤ, (c : ℤ) = max (-(2 ^ (w - 1))) (min (2 ^ (w - 1) - 1) k) % 2 ^ w ∧
      ((k : ℚ) < x / scale ∧ x / scale < k + 1 ∨ x / scale = k ∧ k % 2 = 0 ∨ x / scale = k + 1 ∧ k % 2 = 0)

end Sys2Proof.Machine
end

