-- ==== Sys2Proof/Certificates/Slice0/Obligations.lean ====
section
/-! DEFINITION. The statements for the provers. Each docstring names the rules it rests on; one that rests on a choice of the
model names the log entry. -/

open Sys2Proof Sys2Proof.Machine

/-! ## The machine as a whole -/

/-- Reset: R388, R399, R405, R387, R1 and R417 give the function registers, the partition table and the clocks; K_SPLIT, the
variant, the board's limit and memory's contents are the model's choices (log entries 2, 3 and 7). -/
def Obligations.ResetState : Prop :=
  Inv State.reset ∧ State.reset.groups = [] ∧ State.reset.ctxs = [] ∧ State.reset.pend = [] ∧ State.reset.timebase = 0 ∧
  (∀ i, i < 33 → (fn State.reset i).id = i ∧ (fn State.reset i).enable = false ∧ (fn State.reset i).ready = false ∧
    (fn State.reset i).offered = recordVersions.map (·.1) ∧ (fn State.reset i).part = 0 ∧ (fn State.reset i).queues = []) ∧
  (∀ p, p < 8 → (partAt State.reset p).halves = (if p = 0 then 0xFF else 0) ∧ (partAt State.reset p).ports = (if p = 0 then 0xFF else 0) ∧
    (partAt State.reset p).priv = false) ∧
  (∀ c, core State.reset c = Core.reset) ∧ (∀ d, d < 4 → (die State.reset d).queue = [] ∧ (die State.reset d).clock = nominalClock State.reset) ∧
  ∀ sp a, sp ≤ 1 ∨ sp = 11 → homeByte State.reset sp a = 0

/-- R367 and the canonical form of memory: every step keeps both. -/
def Obligations.StepKeepsInvariant : Prop := ∀ (s t : State), Inv s → step s = .next t → Inv t

/-- R25, R100, R109, R189, R229: where a lane group stands first in the issue list, the step fetches the eight bytes at its
program counter and runs the instruction they decode to in that lane group; then the step counter and the timebase go on, and
what the caches and the loads under way may do of themselves changes no byte at its home (R192, R233). A program counter that
is no code address faults, and so does a word that does not decode. The order of a step's choices is the model's (log entry
1). -/
def Obligations.StepRunsDecodedWord : Prop :=
  ∀ (s : State) (x : LaneGroup) (rest : List LaneGroup) (gr : Group) (wp : Warp),
    s.mgmt.frozen = none → s.mgmt.needReset = false → s.issue = x :: rest → group? s x.group = some gr → gr.warps[x.warp]? = some wp →
    gr.life = .resident → chosenLanes wp x ≠ 0 →
    let u : State := { s with issue := rest }
    let here (c : Code) (d0 d1 : DWord) : Prop :=
      step s = .next (endStep (takeFault u x.group x.warp (fetchFault u gr wp (chosenLanes wp x) x.pc c d0 d1)))
    (∀ w i, fetchWord u gr x.pc = .ok w → decode w = .ok i →
      step s = (match exec i { u with cur := some x, curWord := w } with
        | .next t => .next (endStep t) | .fault f => .fault f | .refused r => .refused r) ∧
      ∀ e, env? i { u with cur := some x, curWord := w } = some e → e.g = x.group ∧ e.w = x.warp ∧ e.pc = x.pc ∧ e.word = w ∧
        e.atPc = chosenLanes wp x ∧ e.gr = gr ∧ e.wp = wp) ∧
    (∀ w r, fetchWord u gr x.pc = .ok w → decode w = .error r →
      step s = .next (endStep (takeFault u x.group x.warp { fetchFault u gr wp (chosenLanes wp x) x.pc (Reject.code r) 0 0 with word := w }))) ∧
    (x.pc.toNat % 8 ≠ 0 → here .align x.pc 0) ∧
    (x.pc.toNat % 8 = 0 → 2 ^ 57 ≤ x.pc.toNat → here .prot x.pc 0) ∧
    (x.pc.toNat % 8 = 0 → x.pc.toNat < 2 ^ 57 → ∀ l, translate u (dieOf gr.core) gr.ctx (gens u gr) x.pc { kind := 3, need := 3 } = .ok l →
      linkLost u l = false → NoHeaps s → gr.heap = [] → gr.kind = .plain → s.bad = [] → s.codeOld = [] → s.pend = [] →
      fetchWord u gr x.pc = .ok (BitVec.ofNat 64 (leNat (homeBytes s l.space l.addr 8)))) ∧
    (∀ c d0 d1, x.pc.toNat % 8 = 0 → x.pc.toNat < 2 ^ 57 →
      translate u (dieOf gr.core) gr.ctx (gens u gr) x.pc { kind := 3, need := 3 } = .bad c d0 d1 → here c d0 d1) ∧
    ∀ t, (endStep t).tick = t.tick + 1 ∧ (endStep t).draw = Config.draw t.tick ∧ (endStep t).cur = none ∧
      (t.mgmt.frozen = none → (endStep t).timebase = t.timebase + Config.ticks t.tick) ∧ (t.mgmt.frozen ≠ none → (endStep t).timebase = t.timebase) ∧
      (t.bad = [] → ∀ a, homeByte (endStep t) 0 a = homeByte t 0 a ∧ homeByte (endStep t) 1 a = homeByte t 1 a) ∧
      (t.mgmt.frozen ≠ none ∨ (t.draw = 0 ∧ t.bad = []) → endStep t = { t with
        tick := t.tick + 1, draw := Config.draw t.tick, cur := none, curWord := 0, timebase := (endStep t).timebase })

/-- R26 to R40 and the encodings of every word: the decoder reads back every word that the encoder writes. -/
def Obligations.DecodeReadsEncode : Prop := ∀ i : Instr, isWord i = true → wellFormed i = true → decode (encode i) = .ok i

/-- R10, R26 to R40, R47: whatever the decoder accepts is well-formed, and the encoder writes that very word: no reserved bit is
passed over and no two instructions share a word. -/
def Obligations.EncodeWritesDecoded : Prop := ∀ (w : DWord) (i : Instr), decode w = .ok i → isWord i = true ∧ wellFormed i = true ∧ encode i = w

/-- Words that the spec works out itself, a few of every class of the opcode table: R25 to R41, R55, R65, R86, R114, R116, R144,
R179, R180, R201, R209, R218, R220, R256, R300, R315, R335, R370, R371. A set bit that has no meaning is refused (R47). -/
def Obligations.DecodesWords : Prop :=
  let u : Hdr := { guard := none, mark := false }
  let k : Hdr := { guard := none, mark := true }
  let g (n : Reg) : Hdr := { guard := some { neg := false, reg := n }, mark := false }
  let ng (n : Reg) : Hdr := { guard := some { neg := true, reg := n }, mark := false }
  decode 0x0040000000000000 = .ok (.nop u) ∧
  decode 0x9A01020001000284 = .ok (.ld k ⟨.plain, .dev, 0, .b32, false⟩ 4 8 4) ∧
  decode 0x6000808214060700 = .ok (.pairedWord false (.imm .iadd 1 1 4) (.reg .fmul 6 7)) ∧
  decode 0x00814181C0000002 = .ok (.iadd u .satS 5 6 (.reg 7) 0) ∧
  decode 0x0402823FFFC00FF0 = .ok (.iaddw u .add 10 8 (.imm 0xFFFF0)) ∧
  decode 0x08814181C2000001 = .ok (.ffma u false false .rz false 5 6 7 8) ∧
  decode 0x10003FFFFF400000 = .ok (.bra u 0xFFFFFD) ∧
  decode 0x1181418002400803 = .ok (.vote u .mask 5 6 (some 9)) ∧
  decode 0x1400028000000000 = .ok (.freeze false 10) ∧
  decode 0x1540000040000000 = .ok (.gbar false 1) ∧
  decode 0x18000280C0000000 = .ok (.qpush u .w32 3 10) ∧
  decode 0x18430000C3400000 = .ok (.qpop u .w32 3 12 13) ∧
  decode 0x1A45C50000000284 = .ok (.st u ⟨.plain, .dev, 0, .b32, false⟩ 23 20 0) ∧
  decode 0x1F41420180000285 = .ok (.ainc u ⟨.plain, .dev, false⟩ false (.mem 8) 0 6 (some 5)) ∧
  decode 0x1F80000000000A80 = .ok (.fence u .rel .dev) ∧
  decode 0x1000000004467000 = .ok (.bra (ng 25) 17) ∧
  decode 0x9A08490000000684 = .ok (.ld k ⟨.acq, .dev, 0, .b32, false⟩ 33 36 0) ∧
  decode 0x0887880847800008 = .ok (.ffma u true false .rn false 30 32 33 30) ∧
  decode 0x2345028303800000 = .ok (.ldpick u .f32 20 10 12 14) ∧
  decode 0x2380028000000000 = .ok (.tfence u (some 10)) ∧
  decode 0x220002800001B000 = .ok (.ordecl (ng 6) 10) ∧
  decode 0x1A43C48000000A84 = .ok (.st u ⟨.rel, .dev, 0, .b32, false⟩ 15 18 0) ∧
  decode 0xA286028300000000 = .ok (.ldrs k .f32 24 10 12) ∧
  decode 0x24C3020000000000 = .ok (.mmul u 12 (.mem 8)) ∧
  decode 0xA504000082000001 = .ok (.maccrd k true false 16 2 8) ∧
  decode 0x2580000140000000 = .ok (.maccz u false 5) ∧
  decode 0x2803020000000000 = .ok (.bcopy u 12 (.mem 8)) ∧
  decode 0x2803050000000040 = .ok (.bcopy u 12 (.spm 20)) ∧
  decode 0x2903830000000000 = .ok (.htest u 14 12) ∧
  decode 0x2980030000000000 = .ok (.hcancel u 12) ∧
  decode 0x2AC0014181C00000 = .ok (.tokrec u 5 6 7) ∧
  decode 0x1E000A86C0000284 = .ok (.aadd u ⟨.plain, .dev, false⟩ .int (.mem 42) 0 27 none) ∧
  decode 0xA30A034B86800001 = .ok (.ldpfx k .s32 40 13 46 26) ∧
  decode 0x9F4C458E00069285 = .ok (.ainc ⟨true, some ⟨false, 26⟩⟩ ⟨.plain, .dev, false⟩ false (.mem 22) 0 56 (some 49)) ∧
  decode 0x2C0000000003D005 = .ok (.trap (g 15) 5) ∧
  decode 0x2C40000000000001 = .ok (.tret false true) ∧
  decode 0x2C85000000000001 = .ok (.cread u 20 .trapvec) ∧
  decode 0x20400401C0045284 = .ok (.bcinit (g 17) false .dev false 16 7 0) ∧
  decode 0x2805850000019000 = .ok (.bcopy (g 6) 22 (.mem 20)) ∧
  decode 0x1FC5C40480000566 = .ok (.waita u true .grp .leS true (.spm 16) 23 18 none) ∧
  decode 0x1400078000000000 = .ok (.freeze false 30) ∧
  decode 0x2A0A83C000089000 = .ok (.vpub (g 34) 42 15) ∧
  decode 0x2B06868405000000 = .ok (.smask u 26 26 16 20) ∧
  decode 0x2AC0050A4B0B9000 = .ok (.tokrec (g 46) 20 41 44) ∧
  decode 0x0040000000000001 = .error .rsvd ∧
  decode 0x1F80000000000080 = .error .rsvd ∧
  decode 0x9A010200010003C4 = .error .rsvd ∧
  decode 0x9A01020001000384 = .error .scope

/-- R12, R48, R188, R189: no instruction is refused; the one fault is an access to device memory past its 768 GiB, or to a page
table there, for which the spec names no fault, and a happening of the device never stops. -/
def Obligations.EveryInstructionRuns : Prop :=
  ∀ (i : Instr) (s : State), ((∃ t, exec i s = .next t) ∨ exec i s = .fault .noSuchMemory) ∧ (isWord i = false → ∃ t, exec i s = .next t)

/-- R27, R40, R43, R45, R48, R286, R308, R314: the checks of a word at issue, in this order: an unassigned opcode faults ILLEGAL;
a register above the granted count faults PROT; a register with a result on its way faults HAZARD, the guard's in every lane
and another's in the live ones; a handle that no operation writes faults FUTBAD; a source tagged with a future holds the
word; a deferred fault that is due is taken. -/
def Obligations.IssueChecks : Prop :=
  ∀ (i : Instr) (s : State) (e : Env), isWord i = true → env? i s = some e →
    let g : List Nat := match (uses i).guard with | some r => [r] | none => []
    let rs := spread (uses i).reads ++ spread (uses i).writes
    let ok (r : Nat) : Prop := r < e.gr.granted ∨ (e.wp.handler ≠ none ∧ 240 ≤ r ∧ r < 256)
    let late (r : Nat) (m : Mask) : Prop := ∃ l, l < 32 ∧ Machine.bit m l = true ∧ 32 * r + l ∈ e.wp.pending
    let pre : Prop := (∀ r ∈ g ++ rs, ok r) ∧ (∀ r ∈ g, ¬ late r e.atPc) ∧ ∀ r ∈ rs, ¬ late r e.live
    (∀ raw m, i = .illegal raw m → Faults i s e .illegal e.atPc 0 0) ∧
    ((∃ r ∈ g ++ rs, ¬ ok r) → ∃ r ∈ g ++ rs, ¬ ok r ∧ Faults i s e .prot e.atPc (BitVec.ofNat 64 r) 0) ∧
    ((∀ r ∈ g ++ rs, ok r) → (∃ r ∈ g, late r e.atPc) → ∃ r ∈ g, late r e.atPc ∧ Faults i s e .hazard (keyLanes e.wp.pending r e.atPc) (BitVec.ofNat 64 r) 0) ∧
    ((∀ r ∈ g ++ rs, ok r) → (∀ r ∈ g, ¬ late r e.atPc) → (∃ r ∈ rs, late r e.live) →
      ∃ r ∈ rs, late r e.live ∧ Faults i s e .hazard (keyLanes e.wp.pending r e.live) (BitVec.ofNat 64 r) 0) ∧
    (pre → (∀ raw m, i ≠ .illegal raw m) → ∀ a l, handleReg i = some a → Machine.bit e.live l = true → badHandle (e.v s a l) = true → (∀ k, k < l → Machine.bit e.live k = true → badHandle (e.v s a k) = false) →
      ∃ lanes : Mask, Machine.bit lanes l = true ∧ Faults i s e .futbad lanes ((e.v s a l).setWidth 64) 0) ∧
    (decodeFault s e i = none → futureHold e i = true → ∃ t, exec i s = .next t ∧ RegsAre e s t noResult ∧ SameMemory s t ∧
      (warpOf e t).lanes = e.wp.lanes ∧
      (warpOf e t).holds = e.wp.holds ++ [{ lanes := e.atPc, live := e.atPc &&& e.live, pc := e.pc, word := e.word, instr := some i, kind := .future }]) ∧
    (∀ r, decodeFault s e i = none → futureHold e i = false → (e.wp.deferred.find? fun x => dueAt x i) = some r → ∃ u,
      exec i s = .next (takeFault u e.g e.w { recordOf s e r.2.code e.live r.2.d0 r.2.d1 with deferred := true }) ∧
      u = modWarp s e.g e.w fun x => { x with deferred := x.deferred.erase r }) ∧
    let spoiled (r : Nat) (m : Mask) : Prop := ∃ l, l < 32 ∧ Machine.bit m l = true ∧ 32 * r + l ∈ e.wp.regBad
    (decodeFault s e i = none → futureHold e i = false → (e.wp.deferred.find? fun x => dueAt x i) = none →
      ((∃ r ∈ g, spoiled r e.atPc) → ∃ r ∈ g, Faults i s e .eccu (keyLanes e.wp.regBad r e.atPc) (BitVec.ofNat 64 r) 0) ∧
      ((∀ r ∈ g, ¬ spoiled r e.atPc) → (∃ r ∈ spread (uses i).reads, spoiled r e.live) →
        ∃ r ∈ spread (uses i).reads, spoiled r e.live ∧ Faults i s e .eccu (keyLanes e.wp.regBad r e.live) (BitVec.ofNat 64 r) 0))

/-- R191, R349 to R351, R353, R354, R357 to R359: a fault is recorded in its warp, the first of two; a PAGE fault stops the group
to be saved, once the other word of the selection has issued, that of a user logit kernel its issuing group. Trap entry waits
for the results of the warp; then the frame is written, the pending bits clear, every lane not exited takes K_TRAPVEC with
d240 the frame's address and v242 to v255 as they were, or zero in temporary rows; without a handler the group ends, and a
second fault in a handler ends the context. Under HALTTRAP the core halts before the handler is entered. -/
def Obligations.FaultsAreTaken : Prop :=
  ∀ (s : State) (g w : Nat) (gr : Group) (wp : Warp) (r : FaultRec), group? s g = some gr → gr.id = g → gr.warps[w]? = some wp →
    ((r.code = .eccu → r.deferred = true) → wp.fault ≠ none → takeFault s g w r = s) ∧
    (r.code ≠ .page → gr.logits = none → (r.code = .eccu → r.deferred = true) → wp.fault = none →
      takeFault s g w r = modWarp s g w fun x => { x with fault := some r }) ∧
    (r.code = .page → wp.fault = none → (∃ x ∈ s.issue, x.group = g ∧ x.warp = w) →
      takeFault s g w r = modWarp s g w fun x => { x with fault := some r }) ∧
    (r.code = .page → wp.fault = none → (∀ x ∈ s.issue, ¬ (x.group = g ∧ x.warp = w)) → ∀ o x, ((∀ p q l, gr.kind ≠ .subgroup p q l) ∧ o = g ∨ ∃ q l, gr.kind = .subgroup o q l) → group? s o = some x → x.life = .resident →
      takeFault s g w r = haltAndSave (modGroup s o fun y =>
        { y with waitVa := some (r.d0, r.d1.toNat % 256, decide (r.d1.toNat / 256 = 1)) }) o .page) ∧
    (wp.fault = none ∨ (wp.outs ≠ [] ∧ ∀ x, wp.fault = some x → x.code ≠ .page) → exec (.trapEntry g w) s = .next s) ∧
    (gr.life = .resident → wp.fault = some r → r.code ≠ .page → wp.outs = [] → busyHold wp = false →
      (wp.trapHalt = false ∨ (core s gr.core).halted = false) →
      (∀ h, wp.handler = some h → exec (.trapEntry g w) s = .next (contextEnd s gr.ctx (some h.cause) { r with handler := true })) ∧
      ∀ c, wp.handler = none → ctx? s gr.ctx = some c →
        (c.trapvec = 0 ∨ c.trapframe = 0 → exec (.trapEntry g w) s = .next (endFaultedGroup s gr r)) ∧
        let temps := tempRegs gr.granted
        let va := c.trapframe + BitVec.ofNat 64 (8192 * (12288 * dieOf gr.core + 64 * (gr.core % 192) + wp.slot))
        let d := drainDie (if (core s (2 * (gr.core / 2))).walkers.isEmpty = true then s else retryAccept s) (dieOf gr.core)
        (c.trapvec ≠ 0 → c.trapframe ≠ 0 → freeRows s gr.core < temps.length → exec (.trapEntry g w) s = .next s) ∧
        (c.trapvec ≠ 0 → c.trapframe ≠ 0 → temps.length ≤ freeRows s gr.core → ∀ u, devWrite d gr.ctx (gens s gr) va 1 (trapFrame s gr wp r temps) = .ok u →
          (c.dbg.getLsbD 1 = true → wp.trapHalt = false → exec (.trapEntry g w) s =
            .next (modWarp (modCore u gr.core fun k => { k with halted := true }) g w fun x => { x with trapHalt := true })) ∧
          (c.dbg.getLsbD 1 = false ∨ wp.trapHalt = true →
          ∃ t x, exec (.trapEntry g w) s = .next t ∧ SameMemory u t ∧ warp? t g w = some x ∧ x.pending = [] ∧ x.fault = none ∧ x.holds = [] ∧ x.predictor = [] ∧
            (∀ k ∈ x.tags, k / 32 < 240) ∧
            (∀ (l : Nat) (y z : Lane), wp.lanes[l]? = some y → x.lanes[l]? = some z → z.pc = (if y.exited then y.pc else c.trapvec) ∧ z.yields = 0 ∧ z.age = 0) ∧
            (∃ h, x.handler = some h ∧ h.frame = va ∧ h.cause = r) ∧
            ∀ q l, l < 32 → regAt t g w q l = if q = 240 then va.setWidth 32 else if q = 241 then (va >>> 32).setWidth 32
              else if q ∈ temps then 0 else regAt s g w q l))) ∧
    let f := trapFrame s gr wp r (tempRegs gr.granted)
    wp.lanes.length = 32 → f.length = 6144 ∧ f.take 64 = faultBytes r ∧ field f 0 1 = Code.num r.code ∧ field f 4 4 = r.lanes.toNat ∧
      field f 16 8 = r.pc.toNat ∧ field f 24 8 = r.word.toNat ∧ field f 32 8 = r.d0.toNat ∧ field f 40 8 = r.d1.toNat ∧
      field f 64 4 = (~~~(aliveLanes wp)).toNat ∧ field f 72 1 = gr.granted / 8 % 256 ∧
      (∀ (l : Nat) (y : Lane), wp.lanes[l]? = some y → field f (128 + 8 * l) 8 = y.pc.toNat) ∧
      (∀ q l, q < 256 → l < 32 → ((BitVec.ofNat 32 (field f (512 + 4 * q) 4)).getLsbD l = true ↔ 32 * q + l ∈ wp.pending) ∧
        ((BitVec.ofNat 32 (field f (1536 + 4 * q) 4)).getLsbD l = true ↔ 32 * q + l ∈ wp.tags)) ∧
      ∀ j l, j < 16 → l < 32 → field f (4096 + 128 * j + 4 * l) 4 = if 240 + j ∈ tempRegs gr.granted then 0 else (regAt s g w (240 + j) l).toNat

/-! ## The integer class -/

/-- R55, R56, R58, R66, R31: sums, products, minima, absolute values, scaled addresses and immediates. The exact results over the
integers, reduced modulo the width of the destination. -/
def Obligations.ArithmeticWordsComplete : Prop :=
  ∀ (s : State) (e : Env) (h : Hdr) (d a c : Reg) (b : Src),
    let x (l : Nat) : Int := (e.v s a l).toNat
    let y (l : Nat) : Int := (Src.word b e s l).toNat
    let sx (l : Nat) : Int := (e.v s a l).toInt
    let sy (l : Nat) : Int := (Src.word b e s l).toInt
    let ci (l : Nat) : Int := (e.v s c l).toNat % 2
    let cut (v : Int) : Int := max (-(2 ^ 31)) (min (2 ^ 31 - 1) v)
    (∀ op, Issues (.iadd h op d a b c) s e → Completes (.iadd h op d a b c) s e (resultIn e d 1 fun l => Int.toNat (match op with
      | .add => (x l + y l) % 2 ^ 32
      | .sub => (x l - y l) % 2 ^ 32
      | .satS => cut (sx l + sy l) % 2 ^ 32
      | .subSatS => cut (sx l - sy l) % 2 ^ 32
      | .satZ => min (x l + y l) (2 ^ 32 - 1)
      | .subSatZ => max (x l - y l) 0
      | .co => if x l + y l ≥ 2 ^ 32 then 1 else 0
      | .subBo => if x l < y l then 1 else 0
      | .ci => (x l + y l + ci l) % 2 ^ 32
      | .cico => if x l + y l + ci l ≥ 2 ^ 32 then 1 else 0
      | .subBi => (x l - y l - ci l) % 2 ^ 32
      | .subBibo => if x l - y l - ci l < 0 then 1 else 0))) ∧
    (∀ op, Issues (.imul h op d a b) s e → Completes (.imul h op d a b) s e (match op with
      | .lo => resultIn e d 1 fun l => Int.toNat (x l * y l % 2 ^ 32)
      | .hiS => resultIn e d 1 fun l => Int.toNat (sx l * sy l / 2 ^ 32 % 2 ^ 32)
      | .hiZ => resultIn e d 1 fun l => Int.toNat (x l * y l / 2 ^ 32)
      | .wideS => resultIn e d 2 fun l => Int.toNat (sx l * sy l % 2 ^ 64)
      | .wideZ => resultIn e d 2 fun l => Int.toNat (x l * y l))) ∧
    (∀ op r, Issues (.imad h op d a r c) s e → Completes (.imad h op d a r c) s e (match op with
      | .lo => resultIn e d 1 fun l => ((e.v s a l).toNat * (e.v s r l).toNat + (e.v s c l).toNat) % 2 ^ 32
      | .wideS => resultIn e d 2 fun l => Int.toNat (((e.v s a l).toInt * (e.v s r l).toInt + (e.d s c l).toInt) % 2 ^ 64)
      | .wideZ => resultIn e d 2 fun l => ((e.v s a l).toNat * (e.v s r l).toNat + (e.d s c l).toNat) % 2 ^ 64)) ∧
    (∀ op, Issues (.imnx h op d a b) s e → Completes (.imnx h op d a b) s e (resultIn e d 1 fun l => Int.toNat (match op with
      | .minS => min (sx l) (sy l) % 2 ^ 32
      | .maxS => max (sx l) (sy l) % 2 ^ 32
      | .minZ => min (x l) (y l)
      | .maxZ => max (x l) (y l)))) ∧
    (∀ op, Issues (.iabs h op d a) s e → Completes (.iabs h op d a) s e (resultIn e d 1 fun l => Int.toNat (match op with
      | .abs => |sx l|
      | .absSat => min |sx l| (2 ^ 31 - 1)
      | .neg => -sx l % 2 ^ 32
      | .negSat => min (-sx l) (2 ^ 31 - 1) % 2 ^ 32))) ∧
    (∀ sg sh r, Issues (.lea h sg sh d a r) s e → Completes (.lea h sg sh d a r) s e (resultIn e d 2 fun l =>
      Int.toNat (((e.d s a l).toNat + (if sg then (e.v s r l).toInt else (e.v s r l).toNat) * 2 ^ sh.toNat) % 2 ^ 64))) ∧
    (∀ m i, Issues (.movi m d i) s e → Completes (.movi m d i) s e (resultIn e d 1 fun _ => i.toNat))

/-- R59, R60, R67: compares write 1 or 0; a select takes source A where bit 0 of source C is 1; a move copies 1, 2 or 4
registers, every source read before a destination is written. R65, R68, R69: 64-bit sums, packed dot products and width
conversions. -/
def Obligations.CompareSelectAndWideWordsComplete : Prop :=
  (∀ (s : State) (e : Env) (h : Hdr) (d a : Reg),
      let holds (rel : Rel) (x y : Int) : Prop := match rel with
        | .eq => x = y | .ne => x ≠ y | .lt => x < y | .le => x ≤ y | .gt => y < x | .ge => y ≤ x
      (∀ rel uns b, Issues (.icmp h rel uns d a b) s e → ∃ f : Nat → Nat,
        (∀ l, (f l = 1 ∨ f l = 0) ∧ (f l = 1 ↔
          if uns then holds rel (e.v s a l).toNat (Cmp2.word b e s l).toNat else holds rel (e.v s a l).toInt (Cmp2.word b e s l).toInt)) ∧
        Completes (.icmp h rel uns d a b) s e (resultIn e d 1 f)) ∧
      (∀ rel uns b, Issues (.icmpw h rel uns d a b) s e → ∃ f : Nat → Nat,
        (∀ l, (f l = 1 ∨ f l = 0) ∧ (f l = 1 ↔
          if uns then holds rel (e.d s a l).toNat (Cmp2.dword b e s l).toNat else holds rel (e.d s a l).toInt (Cmp2.dword b e s l).toInt)) ∧
        Completes (.icmpw h rel uns d a b) s e (resultIn e d 1 f)) ∧
      (∀ w b c, (encode (.sel h w d a b c)).toNat % 2 ^ 12 = if w then 1 else 0) ∧
      (∀ w b c, Issues (.sel h w d a b c) s e → Completes (.sel h w d a b c) s e fun r l =>
        if bit e.live l = true ∧ d.toNat ≤ r ∧ r < d.toNat + (if w then 2 else 1) then
          some (regAt s e.g e.w ((if (e.v s c l).getLsbD 0 then a else b).toNat + (r - d.toNat)) l) else none) ∧
      (∀ w, Issues (.mov h w d a) s e → Completes (.mov h w d a) s e fun r l =>
        if bit e.live l = true ∧ d.toNat ≤ r ∧ r < d.toNat + (match w with | .w32 => 1 | .w64 => 2 | .w128 => 4) then
          some (regAt s e.g e.w (a.toNat + (r - d.toNat)) l) else none)) ∧
  (∀ (s : State) (e : Env) (h : Hdr) (d a : Reg),
      (∀ op b, Issues (.iaddw h op d a b) s e → Completes (.iaddw h op d a b) s e (resultIn e d 2 fun l =>
        let x : Int := (e.d s a l).toNat
        Int.toNat ((match op with
          | .add => x + (Src.dword b e s l).toNat
          | .sub => x - (Src.dword b e s l).toNat
          | .z32 => x + (Src.word b e s l).toNat
          | .s32 => x + (Src.word b e s l).toInt) % 2 ^ 64))) ∧
      (∀ half sa sb sat b c, Issues (.idot h half sa sb sat d a b c) s e → Completes (.idot h half sa sb sat d a b c) s e
        (resultIn e d 1 fun l =>
          let w := if half then 16 else 8
          let part (sg : Bool) (r : Reg) (k : Nat) : Int :=
            let p := (e.v s r l).toNat / 2 ^ (w * k) % 2 ^ w
            if sg = true ∧ 2 ^ (w - 1) ≤ p then p - 2 ^ w else p
          let sum : Int := (e.v s c l).toInt + ((List.range (32 / w)).map fun k => part sa a k * part sb b k).sum
          Int.toNat ((if sat then max (-(2 ^ 31)) (min (2 ^ 31 - 1) sum) else sum) % 2 ^ 32))) ∧
      (∀ op, Issues (.cvti h op d a) s e → Completes (.cvti h op d a) s e
        (resultIn e d (match op with | .s64s32 | .z64z32 => 2 | _ => 1) fun l =>
          let x := e.v s a l
          let cut (lo hi v : Int) : Int := max lo (min hi v)
          match op with
          | .s32s8 => ((x.setWidth 8).signExtend 32).toNat
          | .z32z8 => x.toNat % 2 ^ 8
          | .s32s16 => ((x.setWidth 16).signExtend 32).toNat
          | .z32z16 => x.toNat % 2 ^ 16
          | .s8s32 => Int.toNat (cut (-128) 127 x.toInt % 2 ^ 32)
          | .z8s32 => Int.toNat (cut 0 255 x.toInt)
          | .s16s32 => Int.toNat (cut (-32768) 32767 x.toInt % 2 ^ 32)
          | .z16s32 => Int.toNat (cut 0 65535 x.toInt)
          | .z8z32 => min x.toNat 255
          | .z16z32 => min x.toNat 65535
          | .s64s32 => Int.toNat (x.toInt % 2 ^ 64)
          | .z64z32 => x.toNat
          | .s32s64 => Int.toNat (cut (-(2 ^ 31)) (2 ^ 31 - 1) (e.d s a l).toInt % 2 ^ 32)
          | .z32s64 => Int.toNat (cut 0 (2 ^ 32 - 1) (e.d s a l).toInt)
          | .z32z64 => min (e.d s a l).toNat (2 ^ 32 - 1)
          | .s32z32 => min x.toNat (2 ^ 31 - 1)
          | .z32s32 => Int.toNat (max x.toInt 0))))

/-- R61 to R64: the logic table bit by bit, shifts of either width, bit fields that shrink where they leave the register, bit
counts and byte permutations. -/
def Obligations.BitWordsComplete : Prop :=
  ∀ (s : State) (e : Env) (h : Hdr) (d a c : Reg),
    (∀ tt b, Issues (.ltab h tt d a b c) s e → ∃ f : Nat → Word,
      (∀ l k, k < 32 → (f l).getLsbD k =
        tt.getLsbD (((e.v s a l).getLsbD k).toNat + 2 * ((e.v s b l).getLsbD k).toNat + 4 * ((e.v s c l).getLsbD k).toNat)) ∧
      Completes (.ltab h tt d a b c) s e (resultIn e d 1 fun l => (f l).toNat)) ∧
    (∀ op cl n, Issues (.shf h op cl d a n c) s e → Completes (.shf h op cl d a n c) s e (resultIn e d 1 fun l =>
      let k : Nat := match n with
        | .imm i => i.toNat
        | .reg r => if cl then min (e.v s r l).toNat 32 else (e.v s r l).toNat % 32
      let x := (e.v s a l).toNat
      let both := x * 2 ^ 32 + (e.v s c l).toNat
      match op with
      | .l => x * 2 ^ k % 2 ^ 32
      | .r => x / 2 ^ k
      | .a => Int.toNat ((e.v s a l).toInt / 2 ^ k % 2 ^ 32)
      | .rotl => (x * 2 ^ k + x / 2 ^ (32 - k)) % 2 ^ 32
      | .fl => both * 2 ^ k / 2 ^ 32 % 2 ^ 32
      | .fr => both / 2 ^ k % 2 ^ 32)) ∧
    (∀ op cl n, Issues (.shfw h op cl d a n) s e → Completes (.shfw h op cl d a n) s e (resultIn e d 2 fun l =>
      let k : Nat := match n with
        | .imm i => i.toNat
        | .reg r => if cl then min (e.v s r l).toNat 64 else (e.v s r l).toNat % 64
      match op with
      | .l => (e.d s a l).toNat * 2 ^ k % 2 ^ 64
      | .r => (e.d s a l).toNat / 2 ^ k
      | .a => Int.toNat ((e.d s a l).toInt / 2 ^ k % 2 ^ 64))) ∧
    (∀ sx p, Issues (.bfx h sx d a p) s e → Completes (.bfx h sx d a p) s e (resultIn e d 1 fun l =>
      let pos := (Field.val p e s l).1
      let wd := if 32 ≤ pos then 0 else min (Field.val p e s l).2 (min 32 (32 - pos))
      let f := (e.v s a l).toNat / 2 ^ pos % 2 ^ wd
      if sx = true ∧ 0 < wd ∧ 2 ^ (wd - 1) ≤ f then Int.toNat (((f : Int) - 2 ^ wd) % 2 ^ 32) else f)) ∧
    (∀ p, Issues (.bfi h d a p c) s e → ∃ f : Nat → Word,
      (∀ l k, k < 32 →
        let pos := (Field.val p e s l).1
        let wd := if 32 ≤ pos then 0 else min (Field.val p e s l).2 (min 32 (32 - pos))
        (f l).getLsbD k = if pos ≤ k ∧ k < pos + wd then (e.v s a l).getLsbD (k - pos) else (e.v s c l).getLsbD k) ∧
      Completes (.bfi h d a p c) s e (resultIn e d 1 fun l => (f l).toNat)) ∧
    (∀ op, Issues (.bitc h op d a) s e → ∃ f : Nat → Nat,
      (∀ l, let x := e.v s a l
        match op with
        | .popc => f l = ((List.range 32).filter fun k => x.getLsbD k).length
        | .clz => f l ≤ 32 ∧ (∀ k, 32 - f l ≤ k → x.getLsbD k = false) ∧ (f l < 32 → x.getLsbD (31 - f l) = true)
        | .ctz => f l ≤ 32 ∧ (∀ k, k < f l → x.getLsbD k = false) ∧ (f l < 32 → x.getLsbD (f l) = true)
        | .brev => ∀ k, k < 32 → (BitVec.ofNat 32 (f l)).getLsbD (31 - k) = x.getLsbD k) ∧
      Completes (.bitc h op d a) s e (resultIn e d 1 f)) ∧
    (∀ b, Issues (.bperm h d a b c) s e → ∃ f : Nat → Nat,
      (∀ l k, k < 4 →
        let sel := (e.v s c l).toNat / 2 ^ (4 * k)
        let byte := ((e.v s a l).toNat + (e.v s b l).toNat * 2 ^ 32) / 2 ^ (8 * (sel % 8)) % 256
        f l / 2 ^ (8 * k) % 256 = if sel / 8 % 2 = 1 then (if byte / 128 = 1 then 255 else 0) else byte) ∧
      Completes (.bperm h d a b c) s e (resultIn e d 1 f))

/-- R57: the quotient truncated toward zero or the remainder of the dividend's sign; a division by zero gives all ones or the
dividend and no fault. -/
def Obligations.DivideSendsQuotientOrRemainder : Prop :=
  ∀ (s : State) (e : Env) (h : Hdr) (op : DivOp) (d a b : Reg), Issues (.idiv h op d a b) s e →
    CompletesLater (.idiv h op d a b) s e d 1 fun l =>
      let x := e.v s a l
      let y := e.v s b l
      if y = 0 then (match op with | .quoS | .quoZ => 0xFFFFFFFF | .remS | .remZ => x.toNat)
      else match op with
        | .quoS => Int.toNat (x.toInt.tdiv y.toInt % 2 ^ 32)
        | .remS => Int.toNat ((x.toInt - x.toInt.tdiv y.toInt * y.toInt) % 2 ^ 32)
        | .quoZ => x.toNat / y.toNat
        | .remZ => x.toNat - x.toNat / y.toNat * y.toNat

/-- R70: the system values. %clock is sent off as a long-latency pair; every other value is there at once. R41, R36, R37: NOP
changes nothing; a paired word reads every source of both halves before either writes. -/
def Obligations.SystemValuesNopAndPairsComplete : Prop :=
  (∀ (s : State) (e : Env) (h : Hdr) (d : Reg),
      (Issues (.sread h .clock d) s e → CompletesLater (.sread h .clock d) s e d 2 fun _ => (clockOf s e.gr).toNat) ∧
      ∀ v, v ≠ .clock → Issues (.sread h v d) s e → ∃ f : Nat → Nat,
        (∀ l, match v with
          | .lane => f l = l
          | .warp => f l = e.wp.index
          | .group => f l = e.gr.index
          | .gang => f l = e.gr.gang
          | .inst => (∀ t, e.gr.kind = .instance_ t → f l = e.gr.index) ∧
              ((e.gr.kind = .plain ∨ e.gr.kind = .prologue) → f l = 0xFFFFFFFF)
          | .node => ∀ g n, nodeOf s e.gr = some (g, n) → f l = n
          | .iter => (∀ g n x i y, nodeOf s e.gr = some (g, n) → graph? s g = some x → (loopsAround x n).head? = some i →
              x.nodes[i]? = some y → f l = y.iter) ∧
              (∀ g n x, nodeOf s e.gr = some (g, n) → graph? s g = some x → loopsAround x n = [] → f l = 0)
          | .slot => (∀ k, boundSlot s e.gr = some k → f l = k) ∧ (boundSlot s e.gr = none → f l = 0xFFFFFFFF)
          | .core => f l = e.gr.core % 192
          | .cluster => f l = e.gr.core % 192 / 2
          | .die => f l = e.gr.core / 192
          | .version => (subscribedLoop s e.gr = none → f l = 0xFFFFFFFF) ∧
              ∀ n g q r i, subscribedLoop s e.gr = some n → n.adopted = some g → n.subscription = some q → range? s q = some r →
                slotOf r g = some i → f l = g + 65536 * i
          | .clock => True) ∧
        Completes (.sread h v d) s e (resultIn e d 1 f)) ∧
  (∀ (s : State) (e : Env),
      (∀ h, Issues (.nop h) s e → Completes (.nop h) s e noResult) ∧
      ∀ m x y, Issues (.pairedWord m x y) s e → (Half.dst x).toNat ≠ (Half.dst y).toNat →
        Completes (.pairedWord m x y) s e fun r l =>
          if bit e.live l = false then none
          else if r = (Half.dst x).toNat then some (Half.eval x e s l)
          else if r = (Half.dst y).toNat then some (Half.eval y e s l) else none)

/-! ## The floating-point class -/

/-- R71 to R73, R83, R88: sums, products, fused products and quotients are the exact result rounded once in the mode, with the
signs of zeros, infinities and NaNs of R72, and flushed under .FTZ. FDIV is long-latency. -/
def Obligations.FloatArithmeticComplete : Prop :=
  ∀ (s : State) (e : Env) (h : Hdr) (r : Rnd) (ftz : Bool) (d a b c : Reg),
    let x (q : Reg) (l : Nat) : FNum := numIn .f32 ftz (e.v s q l).toNat
    (∀ sub, Issues (.fadd h sub r ftz d a b) s e → ∃ f : Nat → Nat,
      (∀ l, FNum.AddTo .f32 r ftz (x a l) (if sub then (x b l).neg else x b l) (f l)) ∧
      Completes (.fadd h sub r ftz d a b) s e (resultIn e d 1 f)) ∧
    (Issues (.fmul h r ftz d a b) s e → ∃ f : Nat → Nat,
      (∀ l, FNum.To .f32 r ftz ((x a l).mul (x b l)) (f l)) ∧ Completes (.fmul h r ftz d a b) s e (resultIn e d 1 f)) ∧
    (∀ np nc, Issues (.ffma h np nc r ftz d a b c) s e → ∃ f : Nat → Nat,
      (∀ l, FNum.AddTo .f32 r ftz (if np then ((x a l).mul (x b l)).neg else (x a l).mul (x b l))
        (if nc then (x c l).neg else x c l) (f l)) ∧
      Completes (.ffma h np nc r ftz d a b c) s e (resultIn e d 1 f)) ∧
    (Issues (.fdiv h r ftz d a b) s e → ∃ f : Nat → Nat,
      (∀ l, FNum.DivTo .f32 r ftz (x a l) (x b l) (f l)) ∧ CompletesLater (.fdiv h r ftz d a b) s e d 1 f)

/-- R84 to R86: minima and maxima, compares, classes. R95, R96: a quantised code takes its field and keeps the rest of source C;
with NF, a lane without a number or a valid scale faults MFMT; a code times its scale is rounded once. -/
def Obligations.FloatComparesAndCodesComplete : Prop :=
  (∀ (s : State) (e : Env) (h : Hdr) (d a b : Reg),
      (∀ mx, Issues (.fmnx h mx d a b) s e → ∃ f : Nat → Nat, (∀ l, MinMaxTo .f32 mx (e.v s a l).toNat (e.v s b l).toNat (f l)) ∧
        Completes (.fmnx h mx d a b) s e (resultIn e d 1 f)) ∧
      (∀ rel ftz, Issues (.fcmp h rel ftz d a b) s e → ∃ f : Nat → Nat,
        (∀ l, (f l = 1 ∨ f l = 0) ∧ (f l = 1 ↔ FNum.Rel rel (numIn .f32 ftz (e.v s a l).toNat) (numIn .f32 ftz (e.v s b l).toNat))) ∧
        Completes (.fcmp h rel ftz d a b) s e (resultIn e d 1 f)) ∧
      (∀ fm, Issues (.fclass h fm d a) s e → ∃ f : Nat → Nat,
        (∀ l,
          let x := (e.v s a l).toNat % 2 ^ Fmt.width fm
          let minus := x / 2 ^ (Fmt.width fm - 1) = 1
          let ex := x / 2 ^ Fmt.frac fm % 2 ^ Fmt.expo fm
          let fr := x % 2 ^ Fmt.frac fm
          f l = if ex = 2 ^ Fmt.expo fm - 1 then
              (if fr = 0 then (if minus then 2 ^ 0 else 2 ^ 7) else if fr / 2 ^ (Fmt.frac fm - 1) = 0 then 2 ^ 8 else 2 ^ 9)
            else if ex = 0 then (if fr = 0 then (if minus then 2 ^ 3 else 2 ^ 4) else if minus then 2 ^ 2 else 2 ^ 5)
            else if minus then 2 ^ 1 else 2 ^ 6) ∧
        Completes (.fclass h fm d a) s e (resultIn e d 1 f))) ∧
  (∀ (s : State) (e : Env) (h : Hdr) (q : QFmt) (k : BitVec 3) (d a b c : Reg),
      let w := match q with | .hs8 | .st8 => 8 | .hs4 => 4 | .st6 => 6
      let half := q = .hs8 ∨ q = .hs4
      let at_ := (if q = .hs4 then 4 else 8) * k.toNat
      let span := if q = .hs4 then 4 else 8
      let x (l : Nat) : FNum := numOf .f32 (e.v s a l).toNat
      let valid (l : Nat) (sc : ℚ) : Prop := ∃ n, numOf .f32 (e.v s b l).toNat = .fin n sc ∧ 0 < sc
      (Issues (.fquant h q k true d a b c) s e → (∃ l, Machine.bit e.live l = true ∧ (x l = .nan ∨ ∀ sc, ¬ valid l sc)) →
        ∃ lanes : Mask, (∀ l, Machine.bit lanes l = true ↔ Machine.bit e.live l = true ∧ (x l = .nan ∨ ∀ sc, ¬ valid l sc)) ∧
          exec (.fquant h q k true d a b c) s = .next (takeFault s e.g e.w (recordOf s e .mfmt lanes 0xFF 0))) ∧
      (∀ nf, Issues (.fquant h q k nf d a b c) s e → (nf = true → ∀ l, Machine.bit e.live l = true → x l ≠ .nan ∧ ∃ sc, valid l sc) →
        ∃ (code : Nat → Nat) (f : Nat → Word),
          (∀ l, code l < 2 ^ w ∧
            (∀ sc, valid l sc → (half → FNum.HsCode w sc (x l) (code l)) ∧ (¬ half → FNum.StCode w ((x l).mul (.fin false (1 / sc))) (code l))) ∧
            ((∀ sc, ¬ valid l sc) → code l = 2 ^ (w - 1)) ∧
            ∀ i, i < 32 → (f l).getLsbD i = if at_ ≤ i ∧ i < at_ + span then (code l).testBit (i - at_) else (e.v s c l).getLsbD i) ∧
          Completes (.fquant h q k nf d a b c) s e (resultIn e d 1 fun l => (f l).toNat)) ∧
      (∀ r ftz, Issues (.fdeq h q k r ftz d a b) s e → ∃ f : Nat → Nat,
        (∀ l,
          let cd := (e.v s a l).toNat / 2 ^ at_ % 2 ^ w
          let sc := numIn .f32 ftz (e.v s b l).toNat
          let times (y : ℚ) : Prop := FNum.To .f32 r ftz ((FNum.fin (decide (y < 0)) y).mul sc) (f l)
          if half then times ((if 2 ^ (w - 1) ≤ cd then (cd : ℚ) - 2 ^ w else cd) + 1 / 2)
          else if cd = 2 ^ (w - 1) then f l = Fmt.nan .f32 else times (stValue cd w)) ∧
        Completes (.fdeq h q k r ftz d a b) s e (resultIn e d 1 f)))

/-- R89 to R92: rounding to an integer, scaling by a power of two, and conversions among the formats and to and from integers. -/
def Obligations.FloatConversionsComplete : Prop :=
  ∀ (s : State) (e : Env) (h : Hdr) (r : Rnd) (ftz : Bool) (d a b : Reg),
    (Issues (.frint h r ftz d a) s e → ∃ f : Nat → Nat,
      (∀ l, match numIn .f32 ftz (e.v s a l).toNat with
        | .nan => f l = Fmt.nan .f32
        | .inf n => f l = signed .f32 n (Fmt.infBits .f32)
        | .fin n x => ∃ k : ℕ, IntNear r n |x| k ∧ numOf .f32 (f l) = .fin n (if n then -(k : ℚ) else k)) ∧
      Completes (.frint h r ftz d a) s e (resultIn e d 1 f)) ∧
    (Issues (.fscale h r ftz d a b) s e → ∃ f : Nat → Nat,
      (∀ l, match numIn .f32 ftz (e.v s a l).toNat with
        | .nan => f l = Fmt.nan .f32
        | .inf n => f l = signed .f32 n (Fmt.infBits .f32)
        | .fin n x => Rounded .f32 r ftz n (x * 2 ^ (e.v s b l).toInt) (f l)) ∧
      Completes (.fscale h r ftz d a b) s e (resultIn e d 1 f)) ∧
    (∀ op, Issues (.cvtf h op r ftz d a) s e → ∃ f : Nat → Nat,
      (∀ l,
        let x := (e.v s a l).toNat
        match op with
        | .f16f32 => FNum.To .f16 r ftz (numIn .f32 ftz x) (f l)
        | .bf16f32 => FNum.To .bf16 r ftz (numIn .f32 ftz x) (f l)
        | .f32f16 => FNum.To .f32 .rn ftz (numIn .f16 ftz (x % 2 ^ 16)) (f l)
        | .f32bf16 => FNum.To .f32 .rn ftz (numIn .bf16 ftz (x % 2 ^ 16)) (f l)
        | .bf16f16 => FNum.To .bf16 r ftz (numIn .f16 ftz (x % 2 ^ 16)) (f l)
        | .f16bf16 => FNum.To .f16 r ftz (numIn .bf16 ftz (x % 2 ^ 16)) (f l)
        | .st8f32 => FNum.StCode 8 (numOf .f32 x) (f l)
        | .st6f32 => FNum.StCode 6 (numOf .f32 x) (f l)
        | .f32st8 => if x % 2 ^ 8 = 0x80 then f l = Fmt.nan .f32 else ∃ n, numOf .f32 (f l) = .fin n (stValue (x % 2 ^ 8) 8)
        | .f32st6 => if x % 2 ^ 6 = 0x20 then f l = Fmt.nan .f32 else ∃ n, numOf .f32 (f l) = .fin n (stValue (x % 2 ^ 6) 6)) ∧
      Completes (.cvtf h op r ftz d a) s e (resultIn e d 1 f)) ∧
    (∀ ty fm, Issues (.cvtfi h ty fm r ftz d a) s e → ∃ f : Nat → ℤ,
      (∀ l, match numIn fm ftz ((e.v s a l).toNat % 2 ^ Fmt.width fm) with
        | .nan => f l = 0
        | .inf n => f l = if n then IntTy.lo ty else IntTy.hi ty
        | .fin n x => ∃ k : ℕ, IntNear r n |x| k ∧ f l = max (IntTy.lo ty) (min (IntTy.hi ty) (if n then -(k : ℤ) else k))) ∧
      Completes (.cvtfi h ty fm r ftz d a) s e
        (resultIn e d (match ty with | .s32 | .z32 => 1 | .s64 | .z64 => 2) fun l => Int.toNat (f l % 2 ^ 64))) ∧
    (∀ ty fm, Issues (.cvtif h ty fm r d a) s e → ∃ f : Nat → Nat,
      (∀ l, let x : ℤ := match ty with
          | .s32 => (e.v s a l).toInt
          | .z32 => (e.v s a l).toNat
          | .s64 => (e.d s a l).toInt
          | .z64 => (e.d s a l).toNat
        Rounded fm r false false (x : ℚ) (f l)) ∧
      Completes (.cvtif h ty fm r d a) s e (resultIn e d 1 f))

/-- R93, R94: the packed words apply the rule of the single-value word to both halves; FDOT2 rounds the exact sum of two products
and an addend once. -/
def Obligations.PackedFloatComplete : Prop :=
  ∀ (s : State) (e : Env) (h : Hdr) (bf : Bool) (r : Rnd) (ftz : Bool) (d a b c : Reg),
    let fm : Fmt := if bf then .bf16 else .f16
    let lo (q : Reg) (l : Nat) : Nat := (e.v s q l).toNat % 2 ^ 16
    let hi (q : Reg) (l : Nat) : Nat := (e.v s q l).toNat / 2 ^ 16
    (Issues (.paddh h bf r ftz d a b) s e → ∃ f g : Nat → Nat,
      (∀ l, FNum.AddTo fm r ftz (numIn fm ftz (lo a l)) (numIn fm ftz (lo b l)) (f l) ∧
        FNum.AddTo fm r ftz (numIn fm ftz (hi a l)) (numIn fm ftz (hi b l)) (g l)) ∧
      Completes (.paddh h bf r ftz d a b) s e (resultIn e d 1 fun l => f l + 2 ^ 16 * g l)) ∧
    (Issues (.pmulh h bf r ftz d a b) s e → ∃ f g : Nat → Nat,
      (∀ l, FNum.To fm r ftz ((numIn fm ftz (lo a l)).mul (numIn fm ftz (lo b l))) (f l) ∧
        FNum.To fm r ftz ((numIn fm ftz (hi a l)).mul (numIn fm ftz (hi b l))) (g l)) ∧
      Completes (.pmulh h bf r ftz d a b) s e (resultIn e d 1 fun l => f l + 2 ^ 16 * g l)) ∧
    (Issues (.pfmah h bf r ftz d a b c) s e → ∃ f g : Nat → Nat,
      (∀ l, FNum.AddTo fm r ftz ((numIn fm ftz (lo a l)).mul (numIn fm ftz (lo b l))) (numIn fm ftz (lo c l)) (f l) ∧
        FNum.AddTo fm r ftz ((numIn fm ftz (hi a l)).mul (numIn fm ftz (hi b l))) (numIn fm ftz (hi c l)) (g l)) ∧
      Completes (.pfmah h bf r ftz d a b c) s e (resultIn e d 1 fun l => f l + 2 ^ 16 * g l)) ∧
    (∀ mx, Issues (.pmnxh h bf mx d a b) s e → ∃ f g : Nat → Nat,
      (∀ l, MinMaxTo fm mx (lo a l) (lo b l) (f l) ∧ MinMaxTo fm mx (hi a l) (hi b l) (g l)) ∧
      Completes (.pmnxh h bf mx d a b) s e (resultIn e d 1 fun l => f l + 2 ^ 16 * g l)) ∧
    (Issues (.fdot2 h bf r ftz d a b c) s e → ∃ f : Nat → Nat,
      (∀ l, FNum.Add3To .f32 r ftz ((numIn fm ftz (lo a l)).mul (numIn fm ftz (lo b l)))
        ((numIn fm ftz (hi a l)).mul (numIn fm ftz (hi b l))) (numIn .f32 ftz (e.v s c l).toNat) (f l)) ∧
      Completes (.fdot2 h bf r ftz d a b c) s e (resultIn e d 1 f))

/-- R87: the special cases of the functions, and the exact results: the reciprocal is correctly rounded, integer powers of two
are exact. FSFU is long-latency. The functions' own digits are in no other clause. R97 to R99: the power of two of a rounded
difference, as FSFU.EX2 gives it; the merge of two statistics, the same whichever pair comes first; the rounded sum and the
rounding of its error. -/
def Obligations.SpecialFunctionsAndHelpersComplete : Prop :=
  (∀ (s : State) (e : Env) (h : Hdr) (op : SfuOp) (ftz : Bool) (d a : Reg), Issues (.fsfu h op ftz d a) s e → ∃ f : Nat → Nat,
      (∀ l,
        let inf (n : Bool) := signed .f32 n (Fmt.infBits .f32)
        let zero (n : Bool) := signed .f32 n 0
        let nan := Fmt.nan .f32
        match numIn .f32 ftz (e.v s a l).toNat with
        | .nan => f l = nan
        | .inf n => f l = (match op with
          | .rcp => zero n
          | .rsq => if n then nan else zero false
          | .sqrt => if n then nan else inf false
          | .ex2 => if n then zero false else inf false
          | .lg2 => if n then nan else inf false
          | .sin | .cos => nan
          | .tanh => signed .f32 n 0x3F800000)
        | .fin n x =>
          (x = 0 → f l = (match op with
            | .rcp | .rsq => inf n
            | .sqrt | .sin | .tanh => zero n
            | .ex2 | .cos => 0x3F800000
            | .lg2 => inf true)) ∧
          (x < 0 → op = .rsq ∨ op = .sqrt ∨ op = .lg2 → f l = nan) ∧
          (op = .rcp → x ≠ 0 → Rounded .f32 .rn ftz n (1 / x) (f l)) ∧
          (op = .ex2 → ∀ k : ℤ, -149 ≤ k → k ≤ 127 → x = k → Rounded .f32 .rn ftz false (2 ^ k) (f l))) ∧
      CompletesLater (.fsfu h op ftz d a) s e d 1 f) ∧
  (∀ (s : State) (e : Env) (h : Hdr) (d a b : Reg),
      (∀ ftz, Issues (.fexpd h ftz d a b) s e → ∃ t f : Nat → Nat,
        (∀ l, FNum.AddTo .f32 .rn ftz (numIn .f32 ftz (e.v s a l).toNat) (numIn .f32 ftz (e.v s b l).toNat).neg (t l) ∧
          (numOf .f32 (t l) = .nan → f l = Fmt.nan .f32) ∧
          (numOf .f32 (t l) ≠ .nan → f l = flush .f32 ftz (fsfu .ex2 false (t l)))) ∧
        Completes (.fexpd h ftz d a b) s e (resultIn e d 1 f)) ∧
      (Issues (.flse h d a b) s e → ∃ merge : Nat → Nat → Nat → Nat → Nat × Nat,
        (∀ m1 s1 m2 s2, m1 < 2 ^ 32 → m2 < 2 ^ 32 → merge m1 s1 m2 s2 = merge m2 s2 m1 s1) ∧
        (∀ m1 s1 m2 s2, numOf .f32 m1 = .nan ∨ numOf .f32 m2 = .nan → merge m1 s1 m2 s2 = (Fmt.nan .f32, Fmt.nan .f32)) ∧
        (∀ m1 s1 m2 s2, numOf .f32 m1 ≠ .nan → numOf .f32 m2 ≠ .nan → MinMaxTo .f32 true m1 m2 (merge m1 s1 m2 s2).1) ∧
        Completes (.flse h d a b) s e (resultIn e d 2 fun l =>
          let r := merge ((e.d s a l).toNat % 2 ^ 32) ((e.d s a l).toNat / 2 ^ 32) ((e.d s b l).toNat % 2 ^ 32) ((e.d s b l).toNat / 2 ^ 32)
          r.1 + 2 ^ 32 * r.2)) ∧
      (Issues (.ftwosum h d a b) s e → ∃ u v : Nat → Nat,
        (∀ l, FNum.AddTo .f32 .rn false (numOf .f32 (e.v s a l).toNat) (numOf .f32 (e.v s b l).toNat) (u l) ∧
          (match numOf .f32 (e.v s a l).toNat, numOf .f32 (e.v s b l).toNat, numOf .f32 (u l) with
            | _, _, .nan => v l = Fmt.nan .f32
            | .fin _ x, .fin _ y, .fin _ z => Rounded .f32 .rn false false (x + y - z) (v l)
            | _, _, _ => v l = 0)) ∧
        Completes (.ftwosum h d a b) s e (resultIn e d 2 fun l => u l + 2 ^ 32 * v l)))

/-! ## The control class -/

/-- R111 to R115, R124: each live lane of a transfer stands at its target and the others go on at the next word; a call writes
its link, the address of the next word with bits [63:57] zero, after it has read its target, and the return predictor takes
it; EXIT ends the live lanes; YIELDL sets the yield counts to 64. -/
def Obligations.ControlTransfersComplete : Prop :=
  ∀ (s : State) (e : Env) (h : Hdr) (d a : Reg) (off : BitVec 24),
    let near : Nat → DWord := fun _ => e.pc + BitVec.ofInt 64 (8 * off.toInt)
    let far : Nat → DWord := fun l => e.d s a l
    let link : Nat := (e.pc.toNat + 8) % 2 ^ 57
    let push : Warp → Warp := fun x =>
      if e.live = 0 then x else { x with predictor := (BitVec.ofNat 64 link :: x.predictor).take 8 }
    let pop : Warp → Warp := fun x => if e.live = 0 then x else { x with predictor := x.predictor.drop 1 }
    (Issues (.bra h off) s e → ∃ t, exec (.bra h off) s = .next t ∧ Became e s t noResult (atTargets e near) id) ∧
    (Issues (.brx h a) s e → ∃ t, exec (.brx h a) s = .next t ∧ Became e s t noResult (atTargets e far) id) ∧
    (Issues (.call h d off) s e → ∃ t, exec (.call h d off) s = .next t ∧
      Became e s t (resultIn e d 2 fun _ => link) (atTargets e near) push) ∧
    (Issues (.callx h d a) s e → ∃ t, exec (.callx h d a) s = .next t ∧
      Became e s t (resultIn e d 2 fun _ => link) (atTargets e far) push) ∧
    (Issues (.ret h a) s e → ∃ t, exec (.ret h a) s = .next t ∧ Became e s t noResult (atTargets e far) pop) ∧
    (Issues (.exit h) s e → ∃ t, exec (.exit h) s = .next t ∧ Became e s t noResult
      (fun l x => if bit e.live l then { x with exited := true, pc := x.pc + 8 } else onward e l x) id) ∧
    ∀ m, Issues (.yieldl m) s e → ∃ t, exec (.yieldl m) s = .next t ∧ Became e s t noResult
      (fun l x => if bit e.atPc l then { x with yields := 64, pc := x.pc + 8 } else x) id

/-- R116 to R120: with members that are all present, the cross-lane words send off their results: a member's from the members'
values, a non-member's its own source value. R116, R121 to R123: ELECT writes 1 in the leader and 0 in every other live lane;
WSYNC goes on once the writes of its members have reached the L1, and waits until then; a wrong member mask faults WMASK,
with the mask and the live lanes in the record. -/
def Obligations.LaneWordsComplete : Prop :=
  (∀ (s : State) (e : Env) (h : Hdr) (d a : Reg) (m : Option Reg) (mem : Mask),
      MembersOf e s m mem → (∀ r, m = some r → e.live = 0 ∨ MaskOk e s r) →
      let v (l : Nat) : Word := e.v s a l
      let wideOf (l : Nat) : Nat := (e.d s a l).toNat
      let ones : List Nat := (List.range 32).filter fun l => bit mem l && (v l).getLsbD 0
      let all : List Nat := (List.range 32).filter fun l => bit mem l
      (∀ op, Issues (.vote h op d a m) s e → CompletesLater (.vote h op d a m) s e d 1 fun l =>
        if bit mem l = false then (v l).toNat else match op with
          | .every => if ones = all then 1 else 0
          | .some => if ones = [] then 0 else 1
          | .same => if ones = all ∨ ones = [] then 1 else 0
          | .mask => (maskOf fun k => bit mem k && (v k).getLsbD 0).toNat
          | .count => ones.length) ∧
      (∀ op wr w n, Issues (.shfl h op wr w d a n m) s e → CompletesLater (.shfl h op wr w d a n m) s e d (if w then 2 else 1) fun l =>
        let own (k : Nat) : Nat := if w then wideOf k else (v k).toNat
        let q : Nat := match n with | .imm i => i.toNat | .reg r => (e.v s r l).toNat
        let from_ : Option Nat := match op with
          | .lane => some (q % 32)
          | .below => if q ≤ l then some (l - q) else if wr then some (Int.toNat (((l : Int) - q) % 32)) else none
          | .above => if l + q ≤ 31 then some (l + q) else if wr then some ((l + q) % 32) else none
          | .xor => some (l ^^^ (q % 32))
        match from_ with
        | some j => if bit mem l = true ∧ bit mem j = true then own j else own l
        | none => own l) ∧
      (∀ op, Issues (.wred h op d a m) s e → CompletesLater (.wred h op d a m) s e d 1 fun l =>
        let start : Nat → Option Word := fun k => if bit mem k then some (v k) else none
        let tree : Nat → Option Word := [1, 2, 4, 8, 16].foldl (fun x w i => RedOp.join op (x i) (x (i + w))) start
        if bit mem l then ((tree 0).getD 0).toNat else (v l).toNat) ∧
      (∀ op excl, Issues (.wscan h op excl d a m) s e → CompletesLater (.wscan h op excl d a m) s e d 1 fun l =>
        let upTo : List Word := (all.filter fun k => k < l ∨ (excl = false ∧ k = l)).map v
        if bit mem l = false then (v l).toNat
        else match upTo with
          | [] => (RedOp.identity op).toNat
          | x :: r => (r.foldl (RedOp.eval op) x).toNat) ∧
      (∀ op w, Issues (.matchw h op w d a m) s e → CompletesLater (.matchw h op w d a m) s e d 1 fun l =>
        let val (k : Nat) : Nat := if w then wideOf k else (v k).toNat
        let peers : List Nat := all.filter fun k => val k = val l
        if bit mem l = false then (v l).toNat else match op with
          | .peers => (maskOf fun k => bit mem k && val k == val l).toNat
          | .lead => peers.headD 0
          | .uniform => if peers = all then mem.toNat else 0)) ∧
  (∀ (s : State) (e : Env) (h : Hdr) (d : Reg) (m : Option Reg),
      ((∀ r, m = some r → e.live = 0 ∨ MaskOk e s r) →
        (Issues (.elect h d m) s e → Completes (.elect h d m) s e (resultIn e d 1 fun l => if leader e.live = some l then 1 else 0)) ∧
        ∀ mem, MembersOf e s m mem → Issues (.wsync h m) s e →
          let waits : Prop := ∃ p ∈ s.pend, p.group = e.g ∧ p.warp = e.w ∧ bit mem p.lane = true ∧ p.atL1 = false
          (¬ waits → Completes (.wsync h m) s e noResult) ∧
          (waits → ∃ t, exec (.wsync h m) s = .next t ∧ Held (.wsync h m) e s t (.wsync mem) e.atPc)) ∧
      ∀ r k, m = some r → leader e.live = some k → ¬ MaskOk e s r →
        (Issues (.elect h d m) s e → exec (.elect h d m) s =
          .next (takeFault s e.g e.w (recordOf s e .wmask e.live ((e.v s r k).setWidth 64) (e.live.setWidth 64)))) ∧
        (Issues (.wsync h m) s e → exec (.wsync h m) s =
          .next (takeFault s e.g e.w (recordOf s e .wmask e.live ((e.v s r k).setWidth 64) (e.live.setWidth 64)))) ∧
        ∀ op a, Issues (.vote h op d a m) s e → exec (.vote h op d a m) s =
          .next (takeFault s e.g e.w (recordOf s e .wmask e.live ((e.v s r k).setWidth 64) (e.live.setWidth 64))))

/-! ## The work class -/

/-- R129, R130, R142, R146 to R148: FREEZE holds its warp with the count read in the leader, as a device-scope release; TNEST
holds its warp and makes the instance a nested prologue with the last warp, and its node needs a backing pool; TSIGNAL
records the completion word; each faults where the rules say so. R149: RGROW at or below the granted count, and RSHRINK at or
above it, have no effect; RGROW takes its rows while the pool has them and nobody waits, and the new registers hold values
that groups of the context were given, or zero (R6, R22); RSHRINK gives back the registers from n on, and faults HAZARD while
one of them is pending. Registers below both counts read as before. -/
def Obligations.TemplateAndGrowthWordsComplete : Prop :=
  (∀ (s : State) (e : Env) (m : Bool) (a : Reg),
      let others (p : Warp → Prop) : Prop := ∀ w ∈ e.gr.warps, w.index ≠ e.wp.index → w.ended = false → p w
      (∀ l, Issues (.freeze m a) s e → leader e.live = some l →
        let n := (e.v s a l).toNat
        let ok := Together e ∧ (e.gr.kind = .prologue ∨ ∃ t, e.gr.kind = .nested t) ∧ n ≤ 16777215 ∧
          (others (fun w => (freezeCount w).isSome = true) → others fun w => freezeCount w = some n)
        (ok → ∃ t, exec (.freeze m a) s = .next t ∧
          Held (.freeze m a) (e.on (drainDie s e.die)) (drainDie s e.die) t (.freeze n) e.atPc) ∧
        (¬ ok → Faults (.freeze m a) s e .template e.live 0 0)) ∧
      (Issues (.tnest m) s e →
        let all := others fun w => ∃ h ∈ w.holds, h.kind = .tnest
        (∀ tm, e.gr.kind = .instance_ tm → Together e → e.gr.depth < 3 → poolOf s e.gr ≠ 0 →
          (¬ all → ∃ t, exec (.tnest m) s = .next t ∧ Held (.tnest m) e s t .tnest e.atPc) ∧
          (all → ∃ t, exec (.tnest m) s = .next t ∧ (groupOf e t).kind = .nested tm ∧
            (∀ wp ∈ (groupOf e t).warps, ∀ h ∈ wp.holds, h.kind ≠ .tnest) ∧
            (∀ l x, (warpOf e t).lanes[l]? = some x → bit e.atPc l = true → x.pc = e.pc + 8))) ∧
        (∀ tm, e.gr.kind = .instance_ tm → Together e → 3 ≤ e.gr.depth → Faults (.tnest m) s e .depth e.live 0 0) ∧
        ((∀ tm, e.gr.kind ≠ .instance_ tm) ∨ ¬ Together e ∨ (e.gr.depth < 3 ∧ poolOf s e.gr = 0) → Faults (.tnest m) s e .template e.live 0 0)) ∧
      ∀ l, Issues (.tsignal m a) s e → leader e.live = some l →
        let va := e.d s a l
        (∀ tm, va.toNat % 4 = 0 → e.gr.kind = .nested tm → ∃ t u, u = modGroup s e.g (fun x => { x with tsignal := some va }) ∧
          exec (.tsignal m a) s = .next t ∧ Settled (e.on u) u t noResult) ∧
        (va.toNat % 4 = 0 → (∀ tm, e.gr.kind ≠ .nested tm) → Faults (.tsignal m a) s e .template e.live 0 0) ∧
        (va.toNat % 4 ≠ 0 → Faults (.tsignal m a) s e .align e.live va 0)) ∧
  (∀ (s : State) (e : Env) (m : Bool) (q : BitVec 6),
      let n := 8 * q.toNat
      let temp (w r : Nat) : Prop := ∃ wp h, e.gr.warps[w]? = some wp ∧ wp.handler = some h ∧ r ∈ h.temps
      (Issues (.rgrow m q) s e →
        (n ≤ e.gr.granted → Completes (.rgrow m q) s e noResult) ∧
        (e.gr.granted < n → (n - e.gr.granted) * e.gr.warpsN ≤ freeRows s e.gr.core → rowWaiter s e.gr.core = false →
          ∃ t u, exec (.rgrow m q) s = .next t ∧ Settled (e.on u) u t noResult ∧ groupOf e u = { e.gr with granted := n, left := (groupOf e u).left, warps := (groupOf e u).warps } ∧
            ∀ w wp r l, e.gr.warps[w]? = some wp → l < 32 →
              (r < e.gr.granted ∨ (temp w r ∧ (sget? wp.regs (32 * r + l)).isSome = true) → regAt u e.g w r l = regAt s e.g w r l) ∧
              (e.gr.granted ≤ r → r < n → ¬ temp w r → (regAt u e.g w r l = 0 ∨ regAt u e.g w r l ∈ domainPast s e.gr.ctx) ∧
                (e.gr.seed = none → regAt u e.g w r l = 0))) ∧
        (e.gr.granted < n → (freeRows s e.gr.core < (n - e.gr.granted) * e.gr.warpsN ∨ rowWaiter s e.gr.core = true) →
          ∃ t, exec (.rgrow m q) s = .next t ∧ Held (.rgrow m q) e s t (.rgrow n) e.atPc)) ∧
      (Issues (.rshrink m q) s e →
        (e.gr.granted ≤ n → Completes (.rshrink m q) s e noResult) ∧
        (n < e.gr.granted → (∀ w ∈ e.gr.warps, ∀ k ∈ w.pending, k / 32 < n) →
          ∃ t u, exec (.rshrink m q) s = .next t ∧ Settled (e.on u) u t noResult ∧ groupOf e u = { e.gr with granted := n, warps := (groupOf e u).warps } ∧
            ∀ w wp, e.gr.warps[w]? = some wp → (∀ r l, l < 32 → r < n ∨ temp w r → regAt u e.g w r l = regAt s e.g w r l) ∧
              ∀ up, (groupOf e u).warps[w]? = some up → ∀ k ∈ up.tags, k / 32 < n ∨ temp w (k / 32)) ∧
        (n < e.gr.granted → (∃ w ∈ e.gr.warps, ∃ k ∈ w.pending, n ≤ k / 32) → ∃ r, n ≤ r ∧
          Faults (.rshrink m q) s e .hazard e.live (BitVec.ofNat 64 r) 0)))

/-- R140 to R142, R150: GBAR and GANGBAR arrive and hold their lane group; GARRIVE arrives and writes the phase; a second arrival
at a phase waits; GWAIT goes on once the phase count is past the token in every live lane; a warp whose lanes stand apart
faults BARDIV. -/
def Obligations.BarrierWordsComplete : Prop :=
  ∀ (s : State) (e : Env) (m : Bool) (h : Hdr) (d a : Reg) (b : BitVec 3),
    let phase := (bar e.gr b.toNat).phase
    let here := e.wp.index ∈ (bar e.gr b.toNat).arrived
    let u := modGroup s e.g fun x => { x with bars := modAt x.bars b.toNat fun y => { y with arrived := sins y.arrived e.wp.index } }
    let past (l : Nat) : Prop := 0 < (BitVec.ofNat 32 phase - e.v s a l).toInt
    let apart (i : Instr) : Prop := ¬ Together e → Faults i s e .bardiv e.live (e.atPc.setWidth 64) 0
    (Issues (.gbar m b) s e → apart (.gbar m b) ∧
      (Together e → ¬ here → ∃ t, exec (.gbar m b) s = .next t ∧ Held (.gbar m b) (e.on u) u t (.barrier b.toNat phase) e.atPc) ∧
      (Together e → here → ∃ t, exec (.gbar m b) s = .next t ∧ Held (.gbar m b) e s t (.rearrive b.toNat phase) e.atPc)) ∧
    (Issues (.garrive m d b) s e → apart (.garrive m d b) ∧
      (Together e → ¬ here → ∃ t, exec (.garrive m d b) s = .next t ∧ Settled (e.on u) u t (resultIn e d 1 fun _ => phase)) ∧
      (Together e → here → ∃ t, exec (.garrive m d b) s = .next t ∧ Held (.garrive m d b) e s t (.rearrive b.toNat phase) e.atPc)) ∧
    (Issues (.gangbar m) s e → apart (.gangbar m) ∧
      (Together e →
        let ws := sins e.gr.gangWarps e.wp.index
        let last := ∀ w ∈ e.gr.warps, w.ended = true ∨ w.index ∈ ws
        ∃ t v, group? v e.g = some { e.gr with gangWarps := ws, gangIn := decide (e.gr.gangIn = true ∨ last) } ∧
          v = { s with groups := v.groups } ∧ exec (.gangbar m) s = .next t ∧
          Held (.gangbar m) (e.on v) v t (.gang (gangPhase s e.gr)) e.atPc)) ∧
    (Issues (.gwait h a b) s e →
      ((∀ l, bit e.live l = true → past l) → Completes (.gwait h a b) s e noResult) ∧
      ((∃ l, bit e.live l = true ∧ ¬ past l) → ∃ t, exec (.gwait h a b) s = .next t ∧
        Held (.gwait h a b) e s t (.rearrive b.toNat phase) e.live))

/-- R151 to R153: a LAUNCH of aligned blocks is a device-scope release, gives the first live lanes the core's free credits of its
four, and writes 1 or 0; a block that is not aligned faults ALIGN. YIELD records the other eligible warps of the active set,
and none where there is no other. SLEEP holds its live lanes; in fixed-star mode it is a YIELD. -/
def Obligations.LaunchYieldSleepComplete : Prop :=
  ∀ (s : State) (e : Env) (m : Bool) (h : Hdr) (d a : Reg),
    let taken := (lanesOf e.live).take (4 - (core s e.gr.core).launches.length)
    let others := (core s e.gr.core).active.filter fun p =>
      p != (e.g, e.w) && (match group? s p.1, warp? s p.1 p.2 with
        | some gr, some wp => eligible s gr wp
        | _, _ => false)
    let yields : Warp → Warp := fun x => { x with yielding := if others = [] then none else some others }
    (Issues (.launch h d a) s e →
      ((∀ l, bit e.live l = true → (e.d s a l).toNat % 64 = 0) → ∀ b, Released e s (!taken.isEmpty) .dev b → ∃ t u,
        u = modCore b e.gr.core
          (fun c => { c with launches := c.launches ++ taken.map fun l => (e.g, e.w, e.d s a l, none) }) ∧
        exec (.launch h d a) s = .next t ∧ Settled (e.on u) u t (resultIn e d 1 fun l => if l ∈ taken then 1 else 0)) ∧
      ∀ l (off : Mask), (∀ k, bit off k = true ↔ bit e.live k = true ∧ (e.d s a k).toNat % 64 ≠ 0) → leader off = some l →
        Faults (.launch h d a) s e .align off (e.d s a l) 0) ∧
    (Issues (.yield m) s e → ∃ t, exec (.yield m) s = .next t ∧ Became e s t noResult (onward e) yields) ∧
    (Issues (.sleep h a) s e →
      (e.live = 0 → Completes (.sleep h a) s e noResult) ∧
      (e.live ≠ 0 → e.fixed = true → ∃ t, exec (.sleep h a) s = .next t ∧ Became e s t noResult (onward e) yields) ∧
      (e.live ≠ 0 → e.fixed = false → ∃ t, exec (.sleep h a) s = .next t ∧ Held (.sleep h a) e s t .sleep e.live))

/-! ## Software traps and the scheduler words -/

/-- R125, R371, R49: for each live lane TRAP faults SWTRAP with its number, and in handler mode the trap entry that follows ends
the context; BRKPT does while BRK is clear, and with BRK set it stops its live lanes and halts the core; with no live lane
both only go on. The word of the reserved class faults ILLEGAL. -/
def Obligations.SoftwareTrapsComplete : Prop :=
  ∀ (s : State) (e : Env) (h : Hdr) (k : BitVec 8),
    let brk : Prop := ∃ c, ctx? s e.gr.ctx = some c ∧ c.dbg.getLsbD 0 = true
    (Issues (.trap h k) s e → (e.live = 0 → Completes (.trap h k) s e noResult) ∧
      (e.live ≠ 0 → Faults (.trap h k) s e .swtrap e.live (k.setWidth 64) 0 ∧
        ∀ x, e.wp.handler = some x → e.gr.life = .resident → e.gr.logits = none → e.wp.fault = none → e.wp.outs = [] → busyHold e.wp = false →
          (e.wp.trapHalt = true → (core s e.gr.core).halted = false) →
          ∃ t, exec (.trap h k) s = .next t ∧
            exec (.trapEntry e.g e.w) t = .next (contextEnd t e.gr.ctx (some x.cause) (recordOf s e .swtrap e.live (k.setWidth 64) 0)))) ∧
    (Issues (.brkpt h k) s e → (e.live = 0 → Completes (.brkpt h k) s e noResult) ∧
      (e.live ≠ 0 → ¬ brk → Faults (.brkpt h k) s e .swtrap e.live (k.setWidth 64) 0) ∧
      (e.live ≠ 0 → brk → HoldsOn (.brkpt h k) s e (modCore s e.gr.core fun c => { c with halted := true }) .brkpt e.live)) ∧
    ∀ raw m, env? (.illegal raw m) s = some e → Faults (.illegal raw m) s e .illegal e.atPc 0 0

/-- R169, R178 to R181: QPUSH reserves a slot for each live lane in order and stores each lane's registers and zeros; it waits
while there is no room and faults QCLOSED on a closed queue; QPOP writes each lane's entry and 1, or zeros and 0 past the end
of a closed queue, and waits while an open queue holds too few; QCLOSE closes; a wrong queue faults PROT. R158, R182: NODESIG
satisfies the signal edge of a successor slot once, after a device-scope release, and makes the node ready whose last edge
that was; an ordinary or empty slot, a second time, or no live lane has no further effect. -/
def Obligations.SchedulerWordsComplete : Prop :=
  (∀ (s : State) (e : Env) (h : Hdr) (w : MovW) (q : BitVec 8) (a d c : Reg),
      let n := (lanesOf e.live).length
      let idle (i : Instr) : Prop := Issues i s e →
        (e.live = 0 → Completes i s e noResult) ∧ (e.live ≠ 0 → queue? s e.gr q.toNat = none → Faults i s e .prot e.live 0 0)
      idle (.qpush h w q a) ∧ idle (.qpop h w q d c) ∧ idle (.qclose h q) ∧
      ∀ g u, e.live ≠ 0 → queue? s e.gr q.toNat = some (g, u) →
        (Issues (.qpush h w q a) s e →
          (u.closed = true → Faults (.qpush h w q a) s e .qclosed e.live (q.setWidth 64) 0) ∧
          (u.closed = false → u.cap < u.tail - u.head + n → HoldsOn (.qpush h w q a) s e s .qpush e.atPc) ∧
          (u.closed = false → u.tail - u.head + n ≤ u.cap → ∀ x at_, LanesGive e (pushLane e s u w a) s x at_ →
            CompletesOn (.qpush h w q a) s e (modQueueOf x g q.toNat fun y => { y with tail := y.tail + n }) noResult ∧
            (NoHeaps s → Stored e s x at_ 16 fun l =>
              (leBytes (4 * MovW.regs w) (wideRead s e.gr e.wp a.toNat l (MovW.regs w)) ++ zeros 16).take 16)) ∧
          (u.closed = false → u.tail - u.head + n ≤ u.cap → NoFloors s → ∀ lf : Nat → Leaf,
            (∀ l, bit e.live l = true → Writable s (lf l) 16 ∧
              memLeaf s e (BitVec.ofNat 64 (u.ring + 16 * ((u.tail + rankIn e.live l) % u.cap))) 16 1 2 = .ok (lf l)) →
            ∃ x at_, LanesGive e (pushLane e s u w a) s x at_ ∧ at_.map (·.2) = (lanesOf e.live).map (fun l => ((lf l).space, (lf l).addr)) ∧
              CompletesOn (.qpush h w q a) s e (modQueueOf x g q.toNat fun y => { y with tail := y.tail + n }) noResult)) ∧
        (Issues (.qpop h w q d c) s e →
          (u.closed = false → u.tail - u.head < n → HoldsOn (.qpop h w q d c) s e s .qpop e.atPc) ∧
          ((u.closed = true ∨ n ≤ u.tail - u.head) → c.toNat < d.toNat ∨ d.toNat + MovW.regs w ≤ c.toNat → ∀ f : Nat → Nat,
            (∀ l, bit e.live l = true → popLane e s u w l = .ok (f l)) →
            (∀ l, u.tail - u.head ≤ rankIn e.live l → bit e.live l = true → f l = 0) ∧
            CompletesOn (.qpop h w q d c) s e (modQueueOf s g q.toNat fun y => { y with head := y.head + min (u.tail - u.head) n }) fun r l =>
              (resultIn e d (MovW.regs w) f r l).orElse fun _ => resultIn e c 1 (fun k => if rankIn e.live k < u.tail - u.head then 1 else 0) r l) ∧
          ((u.closed = true ∨ n ≤ u.tail - u.head) → c.toNat < d.toNat ∨ d.toNat + MovW.regs w ≤ c.toNat → ∀ (lf : Nat → Leaf) (b : Nat → List Byte),
            let some_ (l : Nat) : Prop := rankIn e.live l < u.tail - u.head
            (∀ l, bit e.live l = true → some_ l → readMem s e (lf l) 16 false l = .ok (b l) ∧
              memLeaf s e (BitVec.ofNat 64 (u.ring + 16 * ((u.head + rankIn e.live l) % u.cap))) 16 0 1 = .ok (lf l)) →
            CompletesOn (.qpop h w q d c) s e (modQueueOf s g q.toNat fun y => { y with head := y.head + min (u.tail - u.head) n }) fun r l =>
              (resultIn e d (MovW.regs w) (fun k => if rankIn e.live k < u.tail - u.head then field (b k) 0 (4 * MovW.regs w) else 0) r l).orElse fun _ =>
                resultIn e c 1 (fun k => if rankIn e.live k < u.tail - u.head then 1 else 0) r l)) ∧
        (Issues (.qclose h q) s e → CompletesOn (.qclose h q) s e (modQueueOf s g q.toNat fun y => { y with closed := true }) noResult)) ∧
  (∀ (s : State) (e : Env) (h : Hdr) (k : BitVec 3) (b : State), Issues (.nodesig h k) s e → Released e s true .dev b →
      let slot : Option Nat := (nodeOf b e.gr).bind fun x => (node? b x.1 x.2).bind fun y => y.succ[k.toNat]?
      (∀ g n x v, e.live ≠ 0 → nodeOf b e.gr = some (g, n) → node? b g n = some x → slot = some v → v ≠ 0xFFFF → 32768 ≤ v → v < 65536 →
        k.toNat ∉ x.sent → ∃ u, CompletesOn (.nodesig h k) s e u noResult ∧ u = { b with graphs := u.graphs } ∧
          (v % 4096 ≠ n → ∀ y, node? b g (v % 4096) = some y → node? u g (v % 4096) = some { y with
            sat := sins y.sat (8 * n + k.toNat)
            life := if y.life = .waiting ∧ y.deps ≤ (sins y.sat (8 * n + k.toNat)).length then .ready else y.life }) ∧
          (v % 4096 ≠ n → node? u g n = some { x with sent := sins x.sent k.toNat })) ∧
      ((e.live = 0 ∨ slot = none ∨ slot = some 0xFFFF ∨ (∃ v, slot = some v ∧ v < 32768) ∨
          ∃ g n x, nodeOf b e.gr = some (g, n) ∧ node? b g n = some x ∧ k.toNat ∈ x.sent) →
        CompletesOn (.nodesig h k) s e b noResult))

/-! ## The memory class -/

/-- R201, R42, R190, R224, R230 to R232, R235, R397, R414: LD reads each live lane's aligned bytes as its die and group may see
them (the newest write, or of a plain load one that the die need not yet have seen past), low byte first, extends 8 and 16
bits to 32, and sends the registers off, noting the loads that go over a link; LDS does the same in the scratchpad; the
lowest lane's faulty access, or uncorrectable error, faults the word. -/
def Obligations.LoadsComplete : Prop :=
  ∀ (s : State) (e : Env) (h : Hdr) (m : MemMod) (d a : Reg) (off : BitVec 8),
    let n := MSize.bytes m.size
    let ext (x : Nat) : Nat :=
      if m.sx = true ∧ n = 1 then ((BitVec.ofNat 8 x).signExtend 32).toNat
      else if m.sx = true ∧ n = 2 then ((BitVec.ofNat 16 x).signExtend 32).toNat else x
    let va (l : Nat) : DWord := e.d s a l + BitVec.ofInt 64 (off.toInt * n)
    let at_ (l : Nat) : Int := (e.v s a l).toNat + off.toInt * n
    (Issues (.ld h m d a off) s e →
      (∀ x : Nat → Leaf, (∀ l, bit e.live l = true → memLeaf s e (va l) n 0 1 = .ok (x l) ∧
          eccHit s e.die (x l).space (seenAt s e (x l)) n = false ∧ l1Error s e (x l) (memKey (x l).space (seenAt s e (x l))) n = false) →
        ∃ (v : State) (skip : Nat → List Ver), ReadNoted e s { v with away := s.away } ∧
          CompletesLaterOn (.ld h m d a off) s e v d (MSize.regs m.size) (fun l =>
            if 3 ≤ (x l).space ∧ (x l).space ≤ 10 ∧ boundTo s ((x l).space - 3) e.gr.ctx = none then 0
            else ext (leNat (readBytes s e.die (x l).space (seenAt s e (x l)) n (skip l)))) ∧
          (∀ l, (s.draw = 0 ∨ seqHome m.ord m.scope = true → skip l = []) ∧
            ∀ y ∈ skip l, y ∈ s.hist ∧ mustSee (viewOf s e.die) e.die y = false) ∧
          ∀ y, y ∈ v.away ↔ y ∈ s.away ∨ ∃ l, bit e.live l = true ∧ (x l).space ≠ 0 ∧ (x l).space ≠ 2 ∧ (x l).space ≤ 10 ∧
            y = { group := e.g, warp := e.w, lane := l, reg := d.toNat, n := MSize.regs m.size, space := (x l).space, addr := va l }) ∧
      (∀ l c d0 d1, leader e.live = some l → AccessFault s e (va l) n 0 1 c d0 d1 → FaultsFirst (.ld h m d a off) s e s c d0 d1) ∧
      ∀ l x, leader e.live = some l → memLeaf s e (va l) n 0 1 = .ok x → eccHit s e.die x.space (seenAt s e x) n = true ∨
          (seqHome m.ord m.scope = false ∧ l1Error s e x (memKey x.space (seenAt s e x)) n = true) →
        FaultsFirst (.ld h m d a off) s e s .eccu (BitVec.ofNat 64 (seenAt s e x)) 0) ∧
    (Issues (.lds h m d a off) s e →
      ((∀ l, bit e.live l = true → 0 ≤ at_ l ∧ at_ l + n ≤ e.gr.spmSize ∧ at_ l % n = 0 ∧ spmError e.gr (at_ l).toNat n = none) →
        ∃ v, ReadNoted e s v ∧ CompletesLaterOn (.lds h m d a off) s e v d (MSize.regs m.size) fun l =>
          ext (leNat ((List.range n).map fun k => spmAt s e.g ((at_ l).toNat + k)))) ∧
      ∀ l, leader e.live = some l →
        (at_ l < 0 ∨ (e.gr.spmSize : Int) < at_ l + n → FaultsFirst (.lds h m d a off) s e s .prot (BitVec.ofInt 64 (at_ l)) 0) ∧
        (0 ≤ at_ l → at_ l + n ≤ e.gr.spmSize → at_ l % n ≠ 0 →
          FaultsFirst (.lds h m d a off) s e s .align (BitVec.ofInt 64 (at_ l)) 0) ∧
        (0 ≤ at_ l → at_ l + n ≤ e.gr.spmSize → at_ l % n = 0 → (spmError e.gr (at_ l).toNat n).isSome = true →
          FaultsFirst (.lds h m d a off) s e s .eccu (BitVec.ofInt 64 (at_ l)) 0))

/-- R201, R9, R132, R136, R232, R250, R251: ST stores each live lane's registers, low byte first, in increasing order of lanes,
after a device-scope release where it has one; every other byte of memory reads as before; the lowest lane's faulty access
faults the word. Where it is sequential at device scope or wider the bytes are at their homes at once (R235), and it waits
while its home makes it wait. What the caches hold of its lines is noted beside (R192, R194). R201, R132, R184: STS writes
each live lane's registers into the scratchpad, the highest lane prevailing, and nothing else. -/
def Obligations.StoreWordsComplete : Prop :=
  (∀ (s : State) (e : Env) (h : Hdr) (m : MemMod) (d a : Reg) (off : BitVec 8) (b : State),
      let n := MSize.bytes m.size
      let va (l : Nat) : DWord := e.d b a l + BitVec.ofInt 64 (off.toInt * n)
      let data (l : Nat) : List Byte := leBytes n (wideRead b e.gr e.wp d.toNat l (MSize.regs m.size))
      let noted (u : State) : State := noteAccess b e .store (polNum m.pol) ((lanesOf e.live).map va) n u
      Issues (.st h m d a off) s e → Released e s (MOrd.rel m.ord) m.scope b →
        (∀ u, Tagged u (noted u)) ∧
        (∀ x : Nat → Leaf, (∀ l, bit e.live l = true → memLeaf b e (va l) n 1 2 = .ok (x l) ∧ Writable b (x l) n) → NoFloors b →
          (seqHome m.ord m.scope = true → ∀ l, bit e.live l = true → homeStuck b e.die (x l).space (x l).addr n = false) →
          ∃ u, LanesGive e (storeLane e b m d a off) b u ((lanesOf e.live).map fun l => (l, ((x l).space, (x l).addr))) ∧
            CompletesOn (.st h m d a off) s e (noted u) noResult) ∧
        (∀ u at_, LanesGive e (storeLane e b m d a off) b u at_ →
          ((∀ p ∈ at_, seqHome m.ord m.scope = true → homeStuck b e.die p.2.1 p.2.2 n = false) →
            CompletesOn (.st h m d a off) s e (noted u) noResult) ∧
          ((∃ p ∈ at_, seqHome m.ord m.scope = true ∧ homeStuck b e.die p.2.1 p.2.2 n = true) →
            HoldsOn (.st h m d a off) s e b .accept e.atPc) ∧
          (seqHome m.ord m.scope = false → NoHeaps b → Stored e b u at_ n data) ∧
          (seqHome m.ord m.scope = true → NoHeaps b → (∀ p ∈ b.pend, p.die ≠ e.die) → b.regions = [] →
            (∀ sp k, sp ≤ 1 → k < 2 ^ 58 → (∀ p ∈ at_, ¬ within p.2 n sp k) → homeByte u sp k = homeByte b sp k) ∧
            ∀ l place before after, at_ = before ++ (l, place) :: after → ∀ sp k, sp ≤ 1 → k < 2 ^ 58 → within place n sp k →
              (∀ p ∈ after, ¬ within p.2 n sp k) → homeByte u sp k = (data l)[memKey sp k - memKey place.1 place.2]?.getD 0)) ∧
        ∀ l c d0 d1, leader e.live = some l → AccessFault b e (va l) n 1 2 c d0 d1 → FaultsFirst (.st h m d a off) s e b c d0 d1) ∧
  (∀ (s : State) (e : Env) (h : Hdr) (m : MemMod) (d a : Reg) (off : BitVec 8), Issues (.sts h m d a off) s e →
      let n := MSize.bytes m.size
      let at_ (l : Nat) : Int := (e.v s a l).toNat + off.toInt * n
      ((∀ l, bit e.live l = true → 0 ≤ at_ l ∧ at_ l + n ≤ e.gr.spmSize ∧ at_ l % n = 0) →
        ∃ u, CompletesOn (.sts h m d a off) s e u noResult ∧
          ScratchWritten e s u ((lanesOf e.live).map fun l => (l, (at_ l).toNat)) n fun l =>
            leBytes n (wideRead s e.gr e.wp d.toNat l (MSize.regs m.size))) ∧
      ∀ l, leader e.live = some l →
        (at_ l < 0 ∨ (e.gr.spmSize : Int) < at_ l + n → FaultsFirst (.sts h m d a off) s e s .prot (BitVec.ofInt 64 (at_ l)) 0) ∧
        (0 ≤ at_ l → at_ l + n ≤ e.gr.spmSize → at_ l % n ≠ 0 → FaultsFirst (.sts h m d a off) s e s .align (BitVec.ofInt 64 (at_ l)) 0))

/-- R192, R202 to R204: PREF changes no value, and only what the caches hold; ZFILL writes each line named with 256 zeros; CFLUSH
cleans, or with .DISC drops, the line of each live lane, and faults TEMPLATE on a template area and ORREG on leaves and
backings where it drops. That .WB and .INV need read permission is the model's choice (log entry 67). R192, R194 to R196,
R204, R414: .WB and .INV with reach .MEM leave every byte of a device line in memory as its home holds it and no byte of it
listed as held by a cache, and change no other byte's home value; .DISC with reach .MEM keeps none listed either, and drops
the pending writes that a cache holds, those of uncached pages apart. A write-back that meets an error writes nothing: the
bytes of the line are gone, the error is posted, and the owning contexts end. A counted fill gives a line its count, each
word's read takes one off, and at zero a line without written bytes is invalidated; a peer supplies no counted line. R205,
R206: TADDR gives the address of an element of a valid identifier whose entry its core holds, or 0 under .CHK past a size,
and waits for the entries that the core does not hold; MAPQ gives the permissions, size, cache policy and flags of a
translation, zeros of a missing one, and with .FILL a PAGE fault. -/
def Obligations.LinesAndAddressesComplete : Prop :=
  (∀ (s : State) (e : Env) (h : Hdr) (a : Reg) (off : BitVec 8),
      let va (b : State) (l : Nat) : DWord := e.d b a l + BitVec.ofInt 64 (off.toInt * 256)
      (∀ pol l2, Issues (.pref h pol l2 a off) s e → ∃ v, Tagged s v ∧ v.cores = s.cores ∧ CompletesOn (.pref h pol l2 a off) s e v noResult) ∧
      (∀ rel sc b, Issues (.zfill h rel sc a off) s e → Released e s rel sc b →
        let noted (u : State) : State := noteAccess b e .zero 0 ((lanesOf e.live).map (va b)) 256 u
        (∀ u, Tagged u (noted u)) ∧
        (∀ x : Nat → Leaf, (∀ l, bit e.live l = true → memLeaf b e (va b l) 256 1 2 = .ok (x l) ∧ Writable b (x l) 256) →
          LanesGive e (zfillLane e b a off) b b ((lanesOf e.live).map fun l => (l, ((x l).space, (x l).addr, levelOf b e (x l) 0))) ∧
          ∃ u, CompletesOn (.zfill h rel sc a off) s e (noted u) noResult) ∧
        (∀ u at_, LanesGive e (zfillLane e b a off) b u at_ →
          let y := (firstLines at_).foldl (zfillLine e rel sc at_) u
          CompletesOn (.zfill h rel sc a off) s e (noted y) noResult ∧
          (NoHeaps b → Stored e b y (at_.map fun p => (p.1, (p.2.1, p.2.2.1))) 256 fun _ => zeros 256)) ∧
        ∀ l c d0 d1, leader e.live = some l → AccessFault b e (va b l) 256 1 2 c d0 d1 → FaultsFirst (.zfill h rel sc a off) s e b c d0 d1) ∧
      ∀ op mem, Issues (.cflush h op mem a off) s e →
        let dev (x : Leaf) : Prop := x.space = 0 ∨ x.space = 11
        (∀ line : Nat → Nat × Nat, NoHeaps s → s.bad = [] → (∀ l, bit e.live l = true → ∃ x,
            memLeaf s e (va s l) 1 1 (if op = .disc then 2 else 1) = .ok x ∧ line l = (x.space, 256 * (x.addr / 256)) ∧
            (op = .disc → dev x → areaHit s (line l).2 256 = false ∧ regionOf s (line l).2 256 = none ∧ backingOf s (line l).2 256 = none)) →
          CompletesOn (.cflush h op mem a off) s e ((firstLines ((lanesOf e.live).map fun l => (l, line l))).foldl (fun t p =>
            flushTag (if op = .disc then discLine t (e.gr.core / 2) mem p.1 p.2 else cleanLine t e.die mem p.1 p.2) (e.gr.core / 2) mem (op == .wb)
              (memKey p.1 p.2 / 256)) s) noResult) ∧
        ∀ l x, leader e.live = some l → op = .disc → memLeaf s e (va s l) 1 1 2 = .ok x → dev x →
          (areaHit s (256 * (x.addr / 256)) 256 = true → FaultsFirst (.cflush h op mem a off) s e s .template (va s l) 0) ∧
          (areaHit s (256 * (x.addr / 256)) 256 = false → regionOf s (256 * (x.addr / 256)) 256 = none →
            ∀ r, backingOf s (256 * (x.addr / 256)) 256 = some r → r.ctx = e.gr.ctx →
              FaultsFirst (.cflush h op mem a off) s e s .orreg (BitVec.ofNat 64 r.num) 0)) ∧
  (∀ (s : State) (die a : Nat),
      (s.bad = [] → ∀ k, k < 256 → sget? (cleanLine s die true 0 a).l2 (a + k) = none ∧
        homeByte (cleanLine s die true 0 a) 11 (a + k) = homeByte (cleanLine s die true 0 a) 0 (a + k)) ∧
      (s.bad = [] → s.pend = [] → ∀ k, homeByte (cleanLine s die true 0 a) 0 k = homeByte s 0 k) ∧
      (∀ g ∈ s.bad, 8 * g / 256 = a / 256 → dirtyBad s g = true → (lineToMem s a).mem = s.mem ∧
        (lineToMem s a).mgmt.posted = s.mgmt.posted ++ [[7, 256 * (a / 256)]] ∧ (∀ c ∈ ownersOf s (256 * (a / 256)), ctx? (lineToMem s a) c = none) ∧
        ∀ p ∈ (lineToMem s a).l2, p ∈ s.l2 ∧ p.1 / 256 ≠ a / 256) ∧
      (∀ c k, k < 256 → sget? (discLine s c true 0 a).l2 (a + k) = none) ∧
      (∀ (k line secs pol : Nat),
        (∀ x, lineIn s k line = some x →
          (x.count = 1 → lineDirty s line = false → lineIn (readLine s k line secs pol).1 k line = none) ∧
          (2 ≤ x.count ∨ (x.count = 1 ∧ lineDirty s line = true) → ∃ y, lineIn (readLine s k line secs pol).1 k line = some y ∧ y.count = x.count - 1)) ∧
        ((∀ x, lineIn s k line = some x → x.count = 0) → ∃ y, lineIn (readLine s k line secs pol).1 k line = some y ∧
          y.count = if pol < 4 then 0 else 2 ^ (pol - 4)) ∧
        ∀ c, peerHit s c line secs = true → ∃ x, lineIn s (peerOf s c line) line = some x ∧ x.count = 0 ∧ x.own = false) ∧
      ∀ c mem, (∀ p ∈ (discLine s c true 0 a).pend, 5 ≤ p.die ∨ p.level = 0 ∨ overlaps p.addr p.data.length a 256 = false) ∧
        ∀ p ∈ s.pend, p.level = 0 ∨ (p.level = 1 ∧ mem = false) → p ∈ (discLine s c mem 0 a).pend) ∧
  (∀ (s : State) (e : Env) (h : Hdr) (d a b : Reg),
      (∀ chk, Issues (.taddr h chk d a b) s e →
        let tid (l : Nat) : Nat := (e.v s a l).toNat % 256
        (∀ x : Nat → Tensor, (∀ l, bit e.live l = true → cachedEntry s e (tid l) = .ok (some (x l))) →
          Completes (.taddr h chk d a b) s e (resultIn e d 2 fun l =>
            let i (j : Nat) : Nat := (regRead s e.gr e.wp (b.toNat + j) l).toNat
            if chk = true ∧ ∃ j, j < (x l).dims ∧ Tensor.size (x l) j ≤ i j then 0
            else ((x l).base + i 0 * fmtBits (x l).format / 8 +
              ((List.range ((x l).dims - 1)).map fun j => i (j + 1) * (16 * (x l).strides[j]?.getD 0)).sum) % 2 ^ 64)) ∧
        (∀ x : Nat → Option Tensor, (∀ l, bit e.live l = true → cachedEntry s e (tid l) = .ok (x l)) → (∃ l, bit e.live l = true ∧ x l = none) →
          ∃ ks : List Nat, HoldsOn (.taddr h chk d a b) s e (modWarp s e.g e.w fun y => { y with outs := y.outs ++ ks.map Outst.entry }) .entry e.atPc ∧
            ∀ k, k ∈ ks ↔ Outst.entry k ∉ e.wp.outs ∧ ∃ l, bit e.live l = true ∧ x l = none ∧ k = tid l) ∧
        (∀ k bytes, s.draw = 0 → sget? s.entries (entryKey e.gr.core e.gr.ctx k) = some bytes → Tensor.malformed (tensorOf bytes) = false →
          cachedEntry s e k = .ok (some (tensorOf bytes))) ∧
        (∀ k t, sget? s.entries (entryKey e.gr.core e.gr.ctx k) = none → tensorEntry s e k 0 = .ok t → cachedEntry s e k = .ok none) ∧
        ∀ l c d0 d1, leader e.live = some l → cachedEntry s e (tid l) = .error (some (c, d0, d1)) →
          FaultsFirst (.taddr h chk d a b) s e s c d0 d1) ∧
      ∀ fill, Issues (.mapq h fill d a) s e →
        let entry (l : Nat) : Walk := if (e.d s a l).toNat < 2 ^ 57 then
          walk s e.die (e.d s a l).toNat levels (((ctx? s e.gr.ctx).map (·.root)).getD 0) [] else .malformed
        (∀ x : Nat → Option Leaf, (∀ l, bit e.live l = true →
            (entry l = .malformed ∧ x l = none) ∨ (entry l = .missing ∧ fill = false ∧ x l = none) ∨
            ∃ v n ls y, entry l = .leaf v n ls ∧ translate s e.die e.gr.ctx (gens s e.gr) (e.d s a l) { kind := 0, need := 1 } = .ok y ∧ x l = some y) →
          CompletesLater (.mapq h fill d a) s e d 4 fun l => match x l with | some y => mapqValue s e y | none => 0) ∧
        ∀ l, leader e.live = some l → entry l = .missing → fill = true → FaultsFirst (.mapq h fill d a) s e s .page (e.d s a l) 0)

/-! ## Atomics, fences, waiting on addresses, byte-count barriers -/

/-- R208 to R213, R216, R217, R251: a read-modify-write runs its live lanes in increasing order, each reading the old value and
putting the new one at its home or in the scratchpad, and sends the old values off where it has a destination; the new values
of each operation; the float forms on the encodings. Where each lane's place is right and no region is non-negative none
stops it. In fixed-star mode a float AADD to memory adds exactly into accumulators, or faults NDET. -/
def Obligations.AtomicsComplete : Prop :=
  ∀ (s : State) (e : Env) (h : Hdr) (m : AtMod) (p : Place) (off : BitVec 8) (b : Reg) (d : Option Reg) (z : State),
    let n := AtMod.bytes m
    let w := 8 * n
    let global := match p with | .mem _ => true | .spm _ => false
    let sx (x : Nat) : Int := (BitVec.ofNat w x).toInt
    let runs (i : Instr) (k : Nat) (exact : Bool) (f : Nat → Nat → Nat) : Prop := Issues i s e →
      Released e s (MOrd.rel m.ord && global) m.scope z →
        let run := rmwRun e m n exact fun l => wideRead z e.gr e.wp b.toNat l k
        let free (at_ : List (Nat × (Nat × Nat × DWord))) : Prop :=
          exact = true → (∀ x ∈ at_, (exactHit z x.2.1 x.2.2.1).isSome = true) ∧ accLimit z at_ = false
        let answers (at_ : List (Nat × (Nat × Nat × DWord))) (v : State) (olds : List (Nat × Nat)) : Prop :=
          let y := if global then noteAccess z e .atomic 0 (at_.map (·.2.2.2)) n v else countBanks e v n (at_.map fun x => (x.1, x.2.2.1))
          (d = none → CompletesOn i s e y noResult) ∧ ∀ r, d = some r → CompletesLaterOn i s e y r (AtMod.regs m) (laneNat olds)
        (∀ x : Nat → Nat × Nat × DWord, (∀ l, bit e.live l = true → PlaceOk z e p off n l (x l)) → NoFloors z →
          let at_ := (lanesOf e.live).map fun l => (l, x l)
          free at_ → ∃ v olds, run f at_ z = (v, olds, none) ∧ answers at_ v olds) ∧
        ∀ u at_, LanesGive e (fun t l => rmwPlace t e p off n l) z u at_ → free at_ →
          (∀ x ∈ at_, x.2.1 ≠ 2 → homeStuck z e.die x.2.1 x.2.2.1 n = false) →
          ∀ v olds, run f at_ u = (v, olds, none) → answers at_ v olds
    let fixed := e.fixed && global
    (∀ op, fixed = false ∨ op = .int ∨ op = .f32 → runs (.aadd h m op p off b d) (AtMod.regs m) (fixed && op == .f32) fun old x => match op with
      | .int => (old + x) % 2 ^ w
      | .f32 => fadd .f32 .rn false old x
      | .f16x2 => fadd .f16 .rn false (old % 2 ^ 16) (x % 2 ^ 16) % 2 ^ 16 + 2 ^ 16 * (fadd .f16 .rn false (old / 2 ^ 16 % 2 ^ 16) (x / 2 ^ 16 % 2 ^ 16) % 2 ^ 16)
      | .bf16x2 => fadd .bf16 .rn false (old % 2 ^ 16) (x % 2 ^ 16) % 2 ^ 16 + 2 ^ 16 * (fadd .bf16 .rn false (old / 2 ^ 16 % 2 ^ 16) (x / 2 ^ 16 % 2 ^ 16) % 2 ^ 16)) ∧
    (∀ op, fixed = true → op = .f16x2 ∨ op = .bf16x2 → Issues (.aadd h m op p off b d) s e → Released e s (MOrd.rel m.ord) m.scope z →
      e.live ≠ 0 → exec (.aadd h m op p off b d) s = .next (takeFault z e.g e.w (recordOf s e .ndet e.live 0 0))) ∧
    (∀ op, runs (.amnx h m op p off b d) (AtMod.regs m) false fun old x => match op with
      | .minS => if sx old ≤ sx x then old % 2 ^ w else x % 2 ^ w
      | .maxS => if sx x ≤ sx old then old % 2 ^ w else x % 2 ^ w
      | .minZ => min (old % 2 ^ w) (x % 2 ^ w)
      | .maxZ => max (old % 2 ^ w) (x % 2 ^ w)) ∧
    (∀ op, runs (.alog h m op p off b d) (AtMod.regs m) false fun old x => match op with
      | .and => (old % 2 ^ w) &&& (x % 2 ^ w)
      | .or => (old % 2 ^ w) ||| (x % 2 ^ w)
      | .xor => (old % 2 ^ w) ^^^ (x % 2 ^ w)) ∧
    runs (.axch h m p off b d) (AtMod.regs m) false (fun _ x => x) ∧
    runs (.acas h m p off b d) (2 * AtMod.regs m) false (fun old x => if old = x % 2 ^ w then x / 2 ^ w else old) ∧
    (∀ dec, runs (.ainc h m dec p off b d) (AtMod.regs m) false fun old x =>
      if dec then (if old = 0 ∨ x < old then x else old - 1) else (if x ≤ old then 0 else old + 1))

/-- R212, R213, R216: one lane's read-modify-write performs its die's own writes to the bytes first, answers the value its die
sees and leaves the new value at the home of its bytes, every other byte as it was; in the scratchpad the same; it stops
before it would leave a leaf of a non-negative region negative. A float AADD of fixed-star mode adds exactly: the leaf takes
the rounded value of an accumulator of the exact sum. -/
def Obligations.ReadModifyWriteActs : Prop :=
  ∀ (s : State) (e : Env) (m : AtMod) (n l sp a : Nat) (va : DWord) (operand : Nat → Nat) (f : Nat → Nat → Nat),
    group? s e.g = some e.gr → (n = 4 ∨ n = 8) → a % n = 0 →
    let z := rmwFirst s e sp a n
    let seenIn (x : State) : Nat := leNat ((List.range n).map fun k => if sp = 2 then spmAt x e.g (a + k) else viewByte x e.die sp (a + k))
    let seen := seenIn z
    ((sp = 2 ∨ ∀ p ∈ s.pend, p.die ≠ e.die) → seen = seenIn s) ∧
    (∀ t olds, rmwRun e m n false operand f [(l, sp, a, va)] s = (t, olds, none) →
      olds = [(l, seen)] ∧
      (sp = 2 → ∀ k, spmAt t e.g k = if a ≤ k ∧ k < a + n then (leBytes n (f seen (operand l)))[k - a]?.getD 0 else spmAt s e.g k) ∧
      (sp ≤ 1 → (∀ p ∈ s.pend, p.die ≠ e.die) → a < 2 ^ 58 → ∀ k,
        homeByte t sp k = if a ≤ k ∧ k < a + n then (leBytes n (f seen (operand l)))[k - a]?.getD 0 else homeByte s sp k)) ∧
    (∀ leaf, sp ≠ 2 → negWrite z e.die sp a (leBytes n (f seen (operand l))) = some leaf →
      rmwRun e m n false operand f [(l, sp, a, va)] s = (s, [], some (l, leaf))) ∧
    ∀ r j acc, exactHit z sp a = some (r, j) → (r.accs.find? fun x => x.leaf == j) = some acc →
      acc.nan = false → acc.pinf = false → acc.ninf = false →
      ∀ neg mant ex, fdecode .f32 (operand l) = .fin neg mant ex →
        let sum : Int := acc.fix + (if neg then -1 else 1) * mant * 2 ^ (ex + 149).toNat
        let new := froundDy .f32 .rn sum (-149) false
        sp ≠ 2 → n = 4 → negWrite z e.die sp a (leBytes 4 new) = none → ∃ t, rmwRun e m n true operand f [(l, sp, a, va)] s = (t, [(l, seen)], none) ∧
          ((∀ p ∈ s.pend, p.die ≠ e.die) → a < 2 ^ 57 → ∀ k, k < 4 → homeByte t sp (a + k) = (leBytes 4 new)[k]?.getD 0)

/-- R218, R219, R232, R233, R235: FENCE goes on at once where everything it waits for has happened: every write of the die is
performed (at device scope or wider), or the warp's are at the L1, its loads have returned, and from die scope on its update
records are applied; otherwise it waits. At device scope it then orders what its lanes have read and written. R220 to R223:
WAITA goes on at once with 1 where every live lane's location meets its condition, and otherwise waits with the locations it
has read; an uncorrectable error faults it (R414), and NDET in fixed-star mode where it has a limit. WAKEA reaches, lane by
lane, the first v[B] lane groups that wait there, all where v[B] is 0. -/
def Obligations.FencesAndWaitsComplete : Prop :=
  (∀ (s : State) (e : Env) (h : Hdr) (ord : FenceOrd) (sc : Scope), Issues (.fence h ord sc) s e →
      let u := fenceDrain s e.die ord sc
      let mine (p : PendWrite) : Prop := p.group = e.g ∧ p.warp = e.w ∧ p.lane < 32
      let acked : Prop := if devScope sc = true then ∀ p ∈ u.pend, p.die ≠ e.die else ∀ p ∈ u.pend, mine p → p.atL1 = true
      let loaded : Prop := ∀ o ∈ (warpOf e u).outs, ∃ n, o = .matrix n
      let applied : Prop := ∀ r ∈ u.regions, recordsDue u e.g e.w r = false
      let done : Prop := (ord ≠ .acq → acked) ∧ (ord ≠ .rel → loaded) ∧ (sc = .die ∨ sc = .dev ∨ sc = .sys → applied)
      (e.live = 0 → Completes (.fence h ord sc) s e noResult) ∧
      (e.live ≠ 0 → done → CompletesOn (.fence h ord sc) s e (fenceEdges u e.die e.g e.w e.live ord sc) noResult) ∧
      (e.live ≠ 0 → ¬ done → HoldsOn (.fence h ord sc) s e u (.fence ord sc) e.atPc)) ∧
  (∀ (s : State) (e : Env) (h : Hdr) (w : Bool) (p : Place) (b d : Reg),
      let n := if w then 8 else 4
      let spm : Bool := match p with | .spm _ => true | .mem _ => false
      (∀ acq sc cond tmo, Issues (.waita h acq sc cond w p d b tmo) s e →
        let i : Instr := .waita h acq sc cond w p d b tmo
        (e.live = 0 → Completes i s e noResult) ∧
        (e.live ≠ 0 → e.fixed = true → tmo.isSome = true → Faults i s e .ndet e.live 0 0) ∧
        (e.live ≠ 0 → (e.fixed = false ∨ tmo = none) → ∀ key val : Nat → Nat,
          (∀ l, bit e.live l = true → watchPlace s e p n 0 1 l = .ok (key l) ∧ watchRead s e.gr spm w (key l) l = .ok (BitVec.ofNat 64 (val l))) →
          let met (l : Nat) : Prop :=
            let y := wideRead s e.gr e.wp b.toNat l (wide w)
            match cond with
            | .eq => val l = y
            | .ne => val l ≠ y
            | .leS => (BitVec.ofNat (8 * n) (val l)).toInt ≤ (BitVec.ofNat (8 * n) y).toInt
            | .geZ => y ≤ val l
          (∀ l, bit e.live l = true → val l < 2 ^ (8 * n)) →
          ((∀ l, bit e.live l = true → met l) → ∃ v, ReadNoted e s v ∧ CompletesOn i s e v (resultIn e d 1 fun _ => 1)) ∧
          ((∃ l, bit e.live l = true ∧ ¬ met l) → ∃ v room locs, ReadNoted e s v ∧ HoldsOn i s e { v with seqs := s.seqs + 1 }
              (.waita spm w cond d.toNat tmo.isSome room s.seqs locs) e.atPc ∧ locs.map (·.lane) = lanesOf e.live ∧
            ∀ x ∈ locs, x.addr = key x.lane ∧ (x.met = true ↔ met x.lane) ∧ x.done = x.met)) ∧
        ∀ l k x, leader e.live = some l → (e.fixed = false ∨ tmo = none) → watchPlace s e p n 0 1 l = .ok k → watchRead s e.gr spm w k l = .error x →
          FaultsFirst i s e s .eccu x 0) ∧
      ∀ rel sc z, Issues (.wakea h rel sc w p b) s e → Released e s rel sc z →
        (e.live ≠ 0 → e.fixed = true → Faults (.wakea h rel sc w p b) s e .ndet e.live 0 0) ∧
        ((e.fixed = false ∨ e.live = 0) → ∀ key : Nat → Nat, (∀ l, bit e.live l = true → watchPlace z e p n 0 0 l = .ok (key l)) →
          ∃ t, exec (.wakea h rel sc w p b) s = .next t ∧ t = retire s e (.wakea h rel sc w p b) (modWarp ((lanesOf e.live).foldl (fun x l =>
            let at_ := watchKey z e.gr spm (key l)
            let ws := waiters x e spm at_ n
            (if e.v z b l = 0 then ws else ws.take (e.v z b l).toNat).foldl (fun q y => wakeOne q at_ n y) x) z) e.g e.w
              fun x => advance x e.atPc)))

/-- R225, R226, R414: BCINIT puts each live lane's count into its 8-byte barrier of the scratchpad and BCADD adds it, modulo
2^64, in increasing order of lanes; a 32-bit count is zero-extended by BCINIT and sign-extended by BCADD; nothing else
changes. An uncorrectable error faults BCADD, which reads its barrier. -/
def Obligations.ByteCountWordsComplete : Prop :=
  ∀ (s : State) (e : Env) (h : Hdr) (rel : Bool) (sc : Scope) (w : Bool) (a b : Reg) (off : BitVec 8),
    let at_ (l : Nat) : Int := (e.v s a l).toNat + off.toInt * 8
    let ok : Prop := ∀ l, bit e.live l = true → 0 ≤ at_ l ∧ at_ l + 8 ≤ e.gr.spmSize ∧ at_ l % 8 = 0
    let sound : Prop := ∀ l, bit e.live l = true → spmError e.gr (at_ l).toNat 8 = none
    let apart : Prop := ∀ l k, bit e.live l = true → bit e.live k = true → at_ l = at_ k → l = k
    let places := (lanesOf e.live).map fun l => (l, (at_ l).toNat)
    (Issues (.bcinit h rel sc w a b off) s e → ok → ∃ u, CompletesOn (.bcinit h rel sc w a b off) s e u noResult ∧
      ScratchWritten e s u places 8 fun l => leBytes 8 (if w then (e.d s b l).toNat else (e.v s b l).toNat)) ∧
    (Issues (.bcadd h rel sc w a b off) s e → ok → sound → ∃ u, CompletesOn (.bcadd h rel sc w a b off) s e u noResult ∧
      (apart → ScratchWritten e s u places 8 fun l => leBytes 8 (leNat ((List.range 8).map fun k => spmAt s e.g ((at_ l).toNat + k)) +
        (if w then e.d s b l else (e.v s b l).signExtend 64).toNat))) ∧
    ∀ l, leader e.live = some l → 0 ≤ at_ l → at_ l + 8 ≤ e.gr.spmSize →
      (Issues (.bcinit h rel sc w a b off) s e → at_ l % 8 ≠ 0 → FaultsFirst (.bcinit h rel sc w a b off) s e s .align (BitVec.ofInt 64 (at_ l)) 0) ∧
      (Issues (.bcadd h rel sc w a b off) s e → at_ l % 8 ≠ 0 → FaultsFirst (.bcadd h rel sc w a b off) s e s .align (BitVec.ofInt 64 (at_ l)) 0) ∧
      (Issues (.bcadd h rel sc w a b off) s e → at_ l % 8 = 0 → (spmError e.gr (at_ l).toNat 8).isSome = true →
        FaultsFirst (.bcadd h rel sc w a b off) s e s .eccu (BitVec.ofInt 64 (at_ l)) 0)

/-! ## The Orrery class -/

/-- R253, R258, R260 to R264: a range load whose regions and ranges are right sends its queries off, pending in the destination
registers; an undeclared region, or one of another type or aggregate, faults ORREG, and a wrong range or draw ORRANGE. -/
def Obligations.RangeLoadsComplete : Prop :=
  ∀ (s : State) (e : Env) (h : Hdr) (ty : OrTy) (d a b c : Reg),
    let num (l : Nat) : Nat := (e.v s a l).toNat % 256
    let lo (l : Nat) : Nat := (e.d s b l).toNat % 2 ^ 32
    let hi (l : Nat) : Nat := (e.d s b l).toNat / 2 ^ 32
    let t : Nat := match ty with | .f32 => 0 | .s32 => 1 | .s64 => 2
    let fits (op : Nat) (r : Region) : Prop := r.ty = t ∧
      (match op with | 0 => r.agg = 0 | 1 => r.agg ≠ 0 | 2 => r.agg = 3 | _ => r.agg = 0 ∧ r.nonneg = true)
    let draw (x : DWord) : Prop := isNan .f32 x.toNat = false ∧ (x.toNat < 0x3F800000 ∨ x.toNat = 0x80000000)
    let asks (i : Instr) (op n : Nat) (x : Nat → DWord) : Prop := Issues i s e →
      ((∀ l, bit e.live l = true → ∃ r, declared? s e.gr.ctx (num l) = some r ∧ fits op r ∧ lo l ≤ hi l ∧ hi l ≤ r.n ∧
          (op = 4 → draw (x l))) →
        ∃ u, exec i s = .next u ∧ RegsAre e s u noResult ∧ OnlyWarp e s u ∧ SameMemory s u ∧ LanesAre e u (onward e) ∧
          (warpOf e u).outs = e.wp.outs ++ (lanesOf e.live).map (fun l =>
            .query l d.toNat { region := num l, op := op, ty := ty, lo := lo l, hi := hi l, x := x l, time := s.tick }) ∧
          ∀ l k, bit e.live l = true → k < n → 32 * (d.toNat + k) + l ∈ (warpOf e u).pending) ∧
      (∀ l, leader e.live = some l → (∀ r, declared? s e.gr.ctx (num l) = some r → ¬ fits op r) →
        FaultsFirst i s e s .orreg (BitVec.ofNat 64 (num l)) 0) ∧
      ∀ l r, leader e.live = some l → declared? s e.gr.ctx (num l) = some r → fits op r →
        (hi l < lo l ∨ r.n < hi l ∨ (op = 4 ∧ ¬ draw (x l))) →
        FaultsFirst i s e s .orrange (BitVec.ofNat 64 (lo l)) (BitVec.ofNat 64 (hi l))
    asks (.ldrs h ty d a b) 0 (match ty with | .f32 => 1 | _ => 2) (fun _ => 0) ∧
    asks (.ldrm h ty false d a b) 1 (match ty with | .s64 => 2 | _ => 1) (fun _ => 0) ∧
    asks (.ldrm h ty true d a b) 2 (match ty with | .s64 => 4 | _ => 2) (fun _ => 0) ∧
    asks (.ldpfx h ty d a b c) 3 1 (fun l => match ty with
      | .f32 => (e.v s c l).setWidth 64
      | .s32 => (e.v s c l).signExtend 64
      | .s64 => e.d s c l) ∧
    asks (.ldpick h ty d a b c) 4 1 (fun l => (e.v s c l).setWidth 64)

/-- R244 to R249, R252, R259 to R261, R263: a tree built from integer leaves holds at every node the sum, minimum or maximum of
the leaves below it; a range sum is the sum of the leaves of the range; LDPFX answers the least index at which the running
sum exceeds its bound, or the end of the range. R252: one record applied to a non-delta tree of integer leaves leaves the
tree of the leaves with the record's element replaced, where the record's aligned four are the leaves' own; a delta tree adds
the difference along the path. -/
def Obligations.TreesAggregateAndAreKept : Prop :=
  (∀ (r : Region), 0 < r.n → r.n ≤ 2 ^ 26 → r.ty ≠ 0 → r.leaves.length = r.n → r.levels = buildLevels r 14 r.leaves →
      let leaf (j : Nat) : Int := ((r.leaves[j]?).map (·.v)).getD 0
      let sum (lo hi : Nat) : Int := ((List.range (hi - lo)).map fun i => leaf (lo + i)).sum
      (r.agg = 0 → ∀ k j, k ≤ Region.top r → j * 4 ^ k < r.n → (nodeAt r k j).v = sum (j * 4 ^ k) (min ((j + 1) * 4 ^ k) r.n)) ∧
      (r.agg = 1 → ∀ k j, 1 ≤ k → k ≤ Region.top r → j * 4 ^ k < r.n →
        (∀ i, j * 4 ^ k ≤ i → i < min ((j + 1) * 4 ^ k) r.n → leaf i ≤ (nodeAt r k j).v) ∧
        ∃ i, j * 4 ^ k ≤ i ∧ i < min ((j + 1) * 4 ^ k) r.n ∧ leaf i = (nodeAt r k j).v) ∧
      (r.agg = 0 → ∀ lo hi, lo ≤ hi → hi ≤ r.n → rangeSum r lo hi = sum lo hi) ∧
      (r.agg = 0 → (∀ j, 0 ≤ leaf j) → ∀ lo hi x, lo ≤ hi → hi ≤ r.n → 0 ≤ x →
        ∀ q, (descend r lo hi x).getD hi = q → (x < sum lo hi → lo ≤ q ∧ q < hi ∧ sum lo q ≤ x ∧ x < sum lo (q + 1)) ∧
          (sum lo hi ≤ x → q = hi))) ∧
  (∀ (r : Region) (q : URec), 0 < r.n → r.n ≤ 2 ^ 26 → r.ty ≠ 0 → r.agg ≠ 3 → r.leaves.length = r.n → q.elem < r.n →
      r.levels = buildLevels r 14 r.leaves →
      (r.leaves[q.elem]?).map (·.v) = some q.old →
      let after := setAt r.leaves q.elem { v := q.new, i := q.elem }
      (∀ i, q.four[i]? = (after[4 * (q.elem / 4) + i]?).map (fun x => x.v) ∨ 4 ≤ i) → q.four.length ≤ 4 →
      (applyRec r q).leaves = after ∧ (applyRec r q).applied = r.applied + 1 ∧
      ((applyRec r q).levels.map fun l => l.map (·.v)) = (buildLevels r 14 after).map fun l => l.map (·.v))

/-- R248, R249, R259: ORDECL binds a region and begins its build, ORBUILD begins a rebuild, ORDROP waits to drop, each after the
wait of FENCE.SEQ.DEV; the words of an undeclared region fault ORREG, and a descriptor that R248 does not admit does too;
ORBUILD waits for a build that goes on. R267: TFENCE goes on once no record of its warp for the region it names, or for any,
is on its way; otherwise it waits. -/
def Obligations.RegionAndTfenceWordsComplete : Prop :=
  (∀ (s : State) (e : Env) (h : Hdr) (a : Reg),
      let drained := fenceDrain s e.die .seq .dev
      let u := fenceEdges drained e.die e.g e.w e.live .seq .dev
      let clear : Prop := e.live ≠ 0 ∧ fenceReady drained e.die e.g e.w .seq .dev = true
      let waits (i : Instr) : Prop := Issues i s e → (e.live = 0 → Completes i s e noResult) ∧
        (e.live ≠ 0 → fenceReady drained e.die e.g e.w .seq .dev = false → HoldsOn i s e drained (.fence .seq .dev) e.atPc)
      let faults (i : Instr) (c : Code) (d0 d1 : DWord) : Prop := exec i s = .next (takeFault u e.g e.w (recordOf s e c e.live d0 d1))
      let num : Nat := match leader e.live with | some l => (e.v u a l).toNat % 256 | none => 0
      let desc : DWord := (((ctx? u e.gr.ctx).map (·.ordesc)).getD 0) + BitVec.ofNat 64 (64 * num)
      waits (.ordecl h a) ∧ waits (.orbuild h a) ∧ waits (.ordrop h a) ∧
      (Issues (.ordecl h a) s e → clear →
        (∀ c d0 d1, memLeaf u e desc 64 0 1 = .error (some (c, d0, d1)) → faults (.ordecl h a) c d0 d1) ∧
        ∀ lf b, memLeaf u e desc 64 0 1 = .ok lf → readMem u e lf 64 false 32 = .ok b →
          (newRegion u e num b = none → faults (.ordecl h a) .orreg (BitVec.ofNat 64 num) 0) ∧
          ∀ r, newRegion u e num b = some r →
            (r.ctx = e.gr.ctx ∧ r.num = num ∧ r.building = true ∧ r.bound = true ∧ r.unit < 8 ∧ r.n = field b 8 4 ∧ r.base = field b 0 8) ∧
            (e.fixed = true → r.delta = true → faults (.ordecl h a) .ndet 0 0) ∧
            ((e.fixed = false ∨ r.delta = false) → HoldsOn (.ordecl h a) s e { u with regions := u.regions ++ [r] } (.region num 0) e.atPc)) ∧
      (clear → declared? u e.gr.ctx num = none →
        (Issues (.orbuild h a) s e → faults (.orbuild h a) .orreg (BitVec.ofNat 64 num) 0) ∧
        (Issues (.ordrop h a) s e → faults (.ordrop h a) .orreg (BitVec.ofNat 64 num) 0)) ∧
      ∀ r, clear → declared? u e.gr.ctx num = some r →
        (r.building = true → Issues (.orbuild h a) s e → HoldsOn (.orbuild h a) s e u .accept e.atPc) ∧
        (r.building = false →
          (Issues (.orbuild h a) s e →
            HoldsOn (.orbuild h a) s e (modRegion u e.gr.ctx num fun x => { x with building := true, began := s.tick }) (.region num 1) e.atPc) ∧
          (Issues (.ordrop h a) s e → HoldsOn (.ordrop h a) s e u (.region num 2) e.atPc))) ∧
  (∀ (s : State) (e : Env) (h : Hdr) (a : Option Reg), Issues (.tfence h a) s e →
      let num : Option Nat := a.map fun r => match leader e.live with | some l => (e.v s r l).toNat % 256 | none => 0
      let clear : Prop := ∀ r ∈ s.regions, (∀ n, num = some n → r.ctx = e.gr.ctx ∧ r.num = n) → recordsDue s e.g e.w r = false
      (e.live = 0 → Completes (.tfence h a) s e noResult) ∧
      (e.live ≠ 0 → ∀ n, num = some n → declared? s e.gr.ctx n = none → Faults (.tfence h a) s e .orreg e.live (BitVec.ofNat 64 n) 0) ∧
      (e.live ≠ 0 → (∀ n, num = some n → (declared? s e.gr.ctx n).isSome = true) →
        (clear → Completes (.tfence h a) s e noResult) ∧ (¬ clear → HoldsOn (.tfence h a) s e s (.tfence num) e.atPc)))

/-! ## The matrix class -/

/-- R276, R278, R292: TIDSET stores the 64 bytes of a well-formed image at the entry of each live lane's identifier, as a store
of its warp, counts the entry's set, and leaves no core a copy of the entry; TIDINV clears V of each live lane's entry, or of
all 256 once; a malformed image faults TIDBAD. -/
def Obligations.TensorTableWordsComplete : Prop :=
  ∀ (s : State) (e : Env) (h : Hdr) (p : Place) (b : Reg),
    let entry (k : Nat) : DWord := (((ctx? s e.gr.ctx).map (·.tidbase)).getD 0) + BitVec.ofNat 64 (64 * k)
    let id (x : Reg) (l : Nat) : Nat := (e.v s x l).toNat % 256
    let dev (lf : Leaf) : Prop := lf.space = 0 ∨ lf.space = 11
    (Issues (.tidset h p b) s e →
      (∀ (img : Nat → List Byte) (lf : Nat → Leaf), NoFloors s →
        (∀ l, bit e.live l = true → imageOf s e p l = .ok (img l) ∧ Tensor.malformed (tensorOf (img l)) = false ∧
          memLeaf s e (entry (id b l)) 64 1 2 = .ok (lf l) ∧ Writable s (lf l) 64) →
        ∃ u as, LanesGive e (tidsetLane e s p b) s u as ∧ CompletesOn (.tidset h p b) s e u noResult) ∧
      (∀ u as, LanesGive e (tidsetLane e s p b) s u as → CompletesOn (.tidset h p b) s e u noResult ∧
        ∀ l img lf, e.live = 1#32 <<< l → l < 32 → NoHeaps s → imageOf s e p l = .ok img → (ctx? s e.gr.ctx).isSome = true →
          memLeaf s e (entry (id b l)) 64 1 2 = .ok lf → dev lf →
          Stored e { s with ctxs := u.ctxs, entries := u.entries } u [(l, (lf.space, lf.addr))] 64 (fun _ => img) ∧
          (∀ k, setCount u e.gr.ctx k = setCount s e.gr.ctx k + if k = id b l then 1 else 0) ∧
          (e.gr.ctx < 4096 → ∀ c, sget? u.entries (entryKey c e.gr.ctx (id b l)) = none)) ∧
      ∀ l img, leader e.live = some l → imageOf s e p l = .ok img → Tensor.malformed (tensorOf img) = true →
        FaultsFirst (.tidset h p b) s e s .tidbad (BitVec.ofNat 64 (id b l)) 0) ∧
    ∀ r, Issues (.tidinv h r) s e →
      (∀ x (lf : Nat → Leaf) (old : Nat → List Byte), r = some x → NoFloors s →
        (∀ l, bit e.live l = true → memLeaf s e (entry (id x l)) 64 1 2 = .ok (lf l) ∧ readMem s e (lf l) 64 false l = .ok (old l) ∧
          Writable s { lf l with addr := (lf l).addr + 10 } 1) →
        ∃ u as, LanesGive e (tidinvLane e s r) s u as ∧ CompletesOn (.tidinv h r) s e u noResult) ∧
      (∀ (lf : Nat → Leaf) (old : Nat → List Byte), r = none → NoFloors s →
        (∀ l k, leader e.live = some l → k < 256 → memLeaf s e (entry k) 64 1 2 = .ok (lf k) ∧ readMem s e (lf k) 64 false l = .ok (old k) ∧
          Writable s { lf k with addr := (lf k).addr + 10 } 1) →
        ∃ u as, LanesGive e (tidinvLane e s r) s u as ∧ CompletesOn (.tidinv h r) s e u noResult) ∧
      ∀ u as, LanesGive e (tidinvLane e s r) s u as → CompletesOn (.tidinv h r) s e u noResult ∧
        ∀ x l lf old, r = some x → e.live = 1#32 <<< l → l < 32 → NoHeaps s →
          memLeaf s e (entry (id x l)) 64 1 2 = .ok lf → dev lf → readMem s e lf 64 false l = .ok old →
          Stored e { s with ctxs := u.ctxs, entries := u.entries } u [(l, (lf.space, lf.addr + 10))] 1
            (fun _ => [BitVec.ofNat 8 (field old 10 1 % 128)])

/-- R272, R273, R285, R293, R295, R297, R300, R305: a matrix word with a block joins the queue with an operation for each live
lane where each lane's block is right, the queue, the accumulator slots, the future table and the pinned translations have
room for all of them, and no earlier acceptance of the cluster waits; it waits, with no effect, while room is lacking; the
lowest lane's faulty block faults it. R272, R273, R298, R299: MACCRD joins the queue, its registers pending until its turn;
MACCWR joins with the values its registers have now; MACCZ joins to clear the named slots that the group holds, and with FREE
the group holds them no longer; each waits while the queue or the slots lack room. -/
def Obligations.MatrixQueueWordsComplete : Prop :=
  (∀ (s : State) (e : Env) (h : Hdr) (d : Reg) (p : Place),
      let n := (lanesOf e.live).length
      let cluster := e.gr.core / 2
      let runs (i : Instr) (f : State → Nat → Except LaneFault (State × Option Hold)) (ok : Nat → Pages → List Nat → Prop) (room : Prop) : Prop :=
        Issues i s e →
        (e.live = 0 → Completes i s e noResult) ∧
        (e.live ≠ 0 → 16 < queueUsed s e.gr.core + n → HoldsOn i s e s .accept e.live) ∧
        (∀ (ps : Nat → Pages) (ls : Nat → List Nat), e.live ≠ 0 → queueUsed s e.gr.core + n ≤ 16 → (∀ l, bit e.live l = true → ok l (ps l) (ls l)) →
          SlotRoom s e ((lanesOf e.live).flatMap ls) → room → walkTurn s e = true →
          pinsIn s cluster + ((lanesOf e.live).map fun l => (ps l).1.length).sum ≤ 1024 →
          ∃ u, u.matops.length = s.matops.length + n ∧ CompletesOn i s e u noResult) ∧
        (e.live ≠ 0 → queueUsed s e.gr.core + n ≤ 16 → ∀ u as, LanesGive e f s u as →
          ((∀ x ∈ as, x.2 = none) → walkTurn s e = true → pinsIn u cluster ≤ 1024 → CompletesOn i s e (leaveWalkers u e) noResult) ∧
          ((∀ x ∈ as, x.2 = none) → walkTurn s e = false ∨ 1024 < pinsIn u cluster → HoldsOn i s e (joinWalkers s e) .accept e.live) ∧
          ∀ k, as.findSome? (·.2) = some k → HoldsOn i s e s k e.live) ∧
        ∀ l c d0 d1, leader e.live = some l → queueUsed s e.gr.core + n ≤ 16 → f s l = .error (some (c, d0, d1)) → FaultsFirst i s e s c d0 d1
      runs (.mbload h p) (acceptLoad e p) (LoadOk s e p) True ∧ runs (.mmul h d p) (acceptMul e d p) (MulOk s e p) (n ≤ (freeFutures e.gr).length) ∧
      runs (.mtrans h p) (acceptStream e 0 p) (StreamOk s e 0 p) True ∧ runs (.mperm h p) (acceptStream e 1 p) (StreamOk s e 1 p) True ∧
      runs (.mrsum h p) (acceptStream e 2 p) (StreamOk s e 2 p) True ∧ runs (.mepi h p) (acceptEpi e p) (EpiOk s e p) True) ∧
  (∀ (s : State) (e : Env) (h : Hdr) (w8 pair : Bool) (d : Reg) (slot : BitVec 3) (col : BitVec 6),
      let w := if w8 then 8 else 4
      let full : Prop := 16 < queueUsed s e.gr.core + 1
      let joins (i : Instr) (yes : State → Nat → Prop) : Prop := Issues i s e →
        (e.live = 0 → Completes i s e noResult) ∧ (e.live ≠ 0 → full → HoldsOn i s e s .accept e.live) ∧
        (e.live ≠ 0 → ¬ full → (claimSlots s e [slot.toNat] = none → HoldsOn i s e s .slotWait e.live) ∧
          ∀ u p, claimSlots s e [slot.toNat] = some u → sget? (groupOf e u).slots slot.toNat = some p → yes u p)
      joins (.maccrd h w8 pair d slot col) (fun u p =>
        let y := addMat u e (.read p d.toNat col.toNat w pair e.live) [] none [] ([], [])
        ∃ t, exec (.maccrd h w8 pair d slot col) s = .next t ∧ RegsAre (e.on y.1) y.1 t noResult ∧ OnlyWarp (e.on y.1) y.1 t ∧
          SameMemory y.1 t ∧ LanesAre (e.on y.1) t (onward e) ∧ (warpOf e t).outs = e.wp.outs ++ [.matrix y.2] ∧
          ∀ k, k ∈ (warpOf e t).pending ↔ k ∈ e.wp.pending ∨ (bit e.live (k % 32) = true ∧ d.toNat ≤ k / 32 ∧ k / 32 < d.toNat + fragRegs w8 pair)) ∧
      joins (.maccwr h w8 pair d slot col) (fun u p =>
        CompletesOn (.maccwr h w8 pair d slot col) s e (addMat u e (.write p col.toNat ((lanesOf e.live).map fun l => (l, (List.range w).map fun i =>
          (regAt s e.g e.w (d.toNat + i) l, if pair then regAt s e.g e.w (d.toNat + w + i) l else 0)))) [] none [] ([], [])).1 noResult) ∧
      ∀ free slots, Issues (.maccz h free slots) s e →
        (e.live = 0 → Completes (.maccz h free slots) s e noResult) ∧ (e.live ≠ 0 → full → HoldsOn (.maccz h free slots) s e s .accept e.live) ∧
        (e.live ≠ 0 → ¬ full → ∃ u op, CompletesOn (.maccz h free slots) s e u noResult ∧ u.matops = s.matops ++ [op] ∧
          op.kind = .clear ((e.gr.slots.filter fun p => slots.getLsbD p.1).map (·.2))
            (if free then (e.gr.slots.filter fun p => slots.getLsbD p.1).map (·.2) else []) ∧
          u = { s with groups := u.groups, matops := u.matops, seqs := s.seqs + 1 } ∧
          groupOf e u = { e.gr with slots := (groupOf e u).slots } ∧ (free = false → (groupOf e u).slots = e.gr.slots) ∧
          (free = true → ∀ k, k < 8 → sget? (groupOf e u).slots k = if slots.getLsbD k then none else sget? e.gr.slots k)))

/-- R271, R285, R293 to R297, R300, R306, R318: what the fields of an accepted block mean: the operation's macro, tag, rows,
slots and arrays, the tag its group records, the future and handle of an MMUL; the memory is as it was but for the private
lines of an instance; a block that breaks its layout faults MSHAPE. -/
def Obligations.MatrixBlocksMean : Prop :=
  ∀ (s u : State) (e : Env) (p : Place) (l : Nat) (va : DWord) (b : List Byte), blockOf s e p l = .ok (va, b) →
    group? s e.g = some e.gr → warp? s e.g e.w = some e.wp → l < 32 →
    let adds (k : MatKind) (bar : Option Nat) : Prop := ∃ op, u.matops = s.matops ++ [op] ∧ op.kind = k ∧ op.barrier = bar ∧
      op.core = e.gr.core ∧ op.group = e.g ∧ op.warp = e.w ∧ op.started = false ∧ op.done = 0 ∧ op.bytes = 0 ∧ op.stat = 0
    let bar (o : Nat) : Option Nat := if field b o 4 = 0xFFFFFFFF then none else some (field b o 4)
    (acceptLoad e p s l = .ok (u, none) → ∃ t tag, tensorEntry s e (field b 0 1) 4 = .ok t ∧
      tag.ctx = e.gr.ctx ∧ tag.tid = field b 0 1 ∧ tag.count = setCount s e.gr.ctx (field b 0 1) ∧ tag.k0 = field b 4 4 ∧
      tag.n0 = field b 8 4 ∧ tag.i2 = field b 12 4 ∧ tag.i3 = field b 16 4 ∧
      adds (.load (field b 1 1) (field b 2 1 == 1) tag t) (bar 20) ∧
      (groupOf e u).tagRecs = sput e.gr.tagRecs (field b 1 1) { tag := tag, entry := t } ∧ SameMemory s u) ∧
    (7 < field b 1 1 ∨ 1 < field b 2 1 ∨ field b 3 1 ≠ 0 ∨ field b 4 4 % 32 ≠ 0 → acceptLoad e p s l = .error (some (.mshape, va, 0))) ∧
    (∀ d : Reg, acceptMul e d p s l = .ok (u, none) → ∃ a pairs w planes idx, tensorEntry s e (field b 0 1) 4 = .ok a ∧
      adds (.mul a (field b 2 1) (field b 4 4) (field b 8 4) (field b 12 4) pairs w planes) none ∧
      pairs.map (·.1) = (List.range (field b 1 1)).map (fun i => field b (16 + i) 1 % 8) ∧
      (freeFutures e.gr).head? = some idx ∧ w.toNat % 2 ^ 7 = idx ∧ w.toNat / 2 ^ 24 = 4 ∧
      regAt u e.g e.w d.toNat l = w ∧ 32 * d.toNat + l ∈ (warpOf e u).tags ∧ SameMemory s u) ∧
    (∀ d : Reg, field b 1 1 = 0 ∨ 8 < field b 1 1 ∨ field b 2 1 = 0 ∨ 32 < field b 2 1 ∨ field b 3 1 ≠ 0 →
      acceptMul e d p s l = .error (some (.mshape, va, 0))) ∧
    (∀ op, op ≤ 2 → acceptStream e op p s l = .ok (u, none) → ∃ slot sel, sget? (groupOf e u).slots (field b 1 1) = some slot ∧
      adds (.stream op (field b 0 1) slot (field b 2 1) (field b 3 1) (field b 4 4) sel) none ∧ SameMemory s u) ∧
    (∀ op, op ≤ 2 → field b 2 1 = 0 ∨ 32 < field b 2 1 ∨ 32 < field b 3 1 + field b 2 1 →
      acceptStream e op p s l = .error (some (.mshape, va, 0))) ∧
    (acceptEpi e p s l = .ok (u, none) → ∃ t slot, tensorEntry s e (field b 0 1) 4 = .ok t ∧ sget? (groupOf e u).slots (field b 1 1) = some slot ∧
      adds (.epi t slot (field b 2 1) (field b 3 1) (field b 4 4) (field b 8 4) (field b 12 2) (field b 14 2) (field b 16 8) (field b 24 8)
        (field b 32 8) (field b 40 8) (field b 48 1) (field b 49 1 % 2 == 1) (field b 49 1 / 2 % 2 == 1) (field b 49 1 / 4 == 1)) (bar 52)) ∧
    (field b 2 1 = 0 ∨ 32 < field b 2 1 ∨ field b 3 1 = 0 ∨ 64 < field b 3 1 ∨ 2 < field b 48 1 ∨ 7 < field b 49 1 →
      acceptEpi e p s l = .error (some (.mshape, va, 0)))

/-- R279 to R282: a fold adds the rounded sum and its error; the read-out is their rounded sum; a row's product is the exact sum
of its blocks' values, rounded once, and NaN with an invalid block; the aligned block of 32 values is each value over the
quantum, rounded to nearest even. -/
def Obligations.ExactProducts : Prop :=
  (∀ (x : Word × Word) (p : Nat), p < 2 ^ 32 →
    let t := (foldPair x p).1
    t.toNat = fadd .f32 .rn false x.1.toNat p ∧ readOut x = BitVec.ofNat 32 (fadd .f32 .rn false x.1.toNat x.2.toNat)) ∧
  (∀ (ps : List ((List (Option Int) × Option (Int × Int)) × List (Option Int) × Option (Int × Int))),
    (∃ q ∈ ps, q.1.2 = none ∨ q.2.2 = none) → rowProduct (ps.map (·.1)) (ps.map (·.2)) = Fmt.nan .f32) ∧
  (∀ (ps : List ((List Int × Int × Int) × List Int × Int × Int)), (∀ q ∈ ps, q.1.1.length = q.2.1.length) →
    let value : ℚ := (ps.map fun q => (((List.zipWith (fun x y => x * y) q.1.1 q.2.1).sum * q.1.2.1 * q.2.2.1 : ℤ) : ℚ) * 2 ^ (q.1.2.2 + q.2.2.2)).sum
    Rounded .f32 .rn false false value
      (rowProduct (ps.map fun q => (q.1.1.map some, some q.1.2)) (ps.map fun q => (q.2.1.map some, some q.2.2)))) ∧
  ∀ (xs : List (Int × Int)) (planes : Nat) (ms : List Int) (q : Int), alignBlock (xs.map some) planes = some (ms, q) →
    ms.length = xs.length ∧ ((∃ x ∈ xs, x.1 ≠ 0) → ∃ x ∈ xs, x.1 ≠ 0 ∧ q = Nat.log2 x.1.natAbs + x.2 + 2 - planes ∧
      ∀ y ∈ xs, y.1 ≠ 0 → (Nat.log2 y.1.natAbs : Int) + y.2 ≤ Nat.log2 x.1.natAbs + x.2) ∧
    ∀ (i : Nat) (x : Int × Int) (m : Int), xs[i]? = some x → ms[i]? = some m →
      (x.1 ≤ 0 → m ≤ 0) ∧ (0 ≤ x.1 → 0 ≤ m) ∧ IntNear .rn (decide (x.1 < 0)) |(x.1 : ℚ) * 2 ^ (x.2 - q)| m.natAbs

/-! ## The engine class -/

/-- R304, R305, R307, R311, R318: an engine copy word with room for an operation of each live lane, whose blocks are all right,
puts an operation in flight for each, with the lowest free future, and tags its handle in the destination; with no room, or
behind an earlier acceptance of its cluster, it waits with no effect; the lowest lane's faulty block faults it, COPYBAD where
it breaks its layout. R304, R307, R312, R313: what an accepted copy is: its elements in order, each with a place for its
source and destination, its chunks by destination lines; the lowest free future of its group becomes its own, unresolved, of
its kind; the handle stands in the destination register, tagged. -/
def Obligations.EngineWordsCompleteAndMean : Prop :=
  (∀ (s : State) (e : Env) (h : Hdr) (d : Reg) (p : Place),
      let n := (lanesOf e.live).length
      let cluster := e.gr.core / 2
      let room : Prop := inFlight s e.gr.core + n ≤ 96 ∧ n ≤ (freeFutures e.gr).length
      let runs (i : Instr) (kind : Nat) : Prop := Issues i s e →
        (e.live = 0 → Completes i s e noResult) ∧
        (e.live ≠ 0 → ¬ room → HoldsOn i s e s .accept e.live) ∧
        (∀ keys : Nat → List Nat, e.live ≠ 0 → room → walkTurn s e = true → (∀ l, bit e.live l = true → CopyOk s e kind p l (keys l)) →
          pinsIn s cluster + ((lanesOf e.live).map fun l => (keys l).length).sum ≤ 1024 →
          ∃ u, u.copies.length = s.copies.length + n ∧ CompletesOn i s e u noResult) ∧
        (e.live ≠ 0 → room → ∀ u cs, LanesGive e (acceptPlan e kind p) s u cs →
          let y := cs.foldl (fun x c => startCopy e d x c.1 c.2) u
          (walkTurn s e = true → pinsIn y cluster ≤ 1024 → CompletesOn i s e (leaveWalkers y e) noResult) ∧
          (walkTurn s e = false ∨ 1024 < pinsIn y cluster → HoldsOn i s e (joinWalkers s e) .accept e.live)) ∧
        (∀ l c d0 d1, leader e.live = some l → room → acceptPlan e kind p s l = .error (some (c, d0, d1)) → FaultsFirst i s e s c d0 d1) ∧
        ∀ l va b, leader e.live = some l → room → blockOf s e p l = .ok (va, b) → copyFieldsOk kind b = false →
          FaultsFirst i s e s .copybad va 0
      runs (.bcopy h d p) 0 ∧ runs (.gather h d p) 1 ∧ runs (.scatter h d p) 2 ∧ runs (.xcopy h d p) 3) ∧
  (∀ (s u : State) (e : Env) (kind l : Nat) (p : Place) (c : Copy) (va : DWord) (b : List Byte), kind ≤ 3 → l < 32 →
      group? s e.g = some e.gr → warp? s e.g e.w = some e.wp → blockOf s e p l = .ok (va, b) →
      acceptPlan e kind p s l = .ok (u, c) →
      c.kind = kind ∧ c.block = b ∧ c.core = e.gr.core ∧ c.group = e.g ∧ c.warp = e.w ∧ c.next = 0 ∧ c.status = 0 ∧ c.cancel = 0 ∧
      (c.barrier = if field b 12 4 = 0xFFFFFFFF then none else some (field b 12 4)) ∧
      c.elems.length = field b 4 4 * field b 8 4 ∧ (NoHeaps s → u = s) ∧
      (c.chunks.flatMap (·.1) = List.range c.elems.length) ∧
      (∀ d : Reg, ∀ i, (freeFutures (groupOf e u)).head? = some i → ∃ w op, (startCopy e d u l c).copies = u.copies ++ [op] ∧
        op = { c with id := op.id, handle := w } ∧ w.toNat % 2 ^ 7 = i ∧ w.toNat / 2 ^ 24 = kind ∧
        regAt (startCopy e d u l c) e.g e.w d.toNat l = w ∧ 32 * d.toNat + l ∈ (warpOf e (startCopy e d u l c)).tags ∧
        ∃ f, sget? (groupOf e (startCopy e d u l c)).futures i = some f ∧ f.live = true ∧ f.res = false ∧ f.kind = kind ∧ f.landed = 0 ∧
          f.gen = w.toNat / 2 ^ 7 % 2 ^ 16))

/-- R236, R306, R308, R319 to R321, R323: HTEST reads the word and landed count of a future, 7 and all ones of one that is not in
the table; HWAIT goes on, with the resolved words, in the lanes whose word or future is resolved, and holds the others;
HCANCEL asks for the end of the operation of each live lane's unresolved handle, and faults NDET in fixed-star mode. -/
def Obligations.FutureWordsComplete : Prop :=
  ∀ (s : State) (e : Env) (h : Hdr) (d a : Reg),
    let w (l : Nat) : Word := e.v s a l
    let entry (l : Nat) : Option Future := (sget? e.gr.futures ((w l).toNat % 2 ^ 7)).filter fun f => f.gen == (w l).toNat / 2 ^ 7 % 2 ^ 16
    let word (l : Nat) : Nat := match entry l with
      | some f => (w l).toNat % 2 ^ 28 + 2 ^ 28 * f.stat + (if f.res then 2 ^ 31 else 0)
      | none => if (w l).getLsbD 31 then (w l).toNat else (w l).toNat % 2 ^ 28 + 7 * 2 ^ 28 + 2 ^ 31
    let landed (l : Nat) : Nat := match entry l with | some f => f.landed | none => 0xFFFFFFFF
    (∀ l f, entry l = some f → f.stat < 8 ∧ f.landed < 2 ^ 32) →
    (Issues (.htest h d a) s e →
      ∃ vs, CompletesOn (.htest h d a) s e { s with views := vs } (resultIn e d 2 fun l => word l + 2 ^ 32 * landed l)) ∧
    (Issues (.hwait h d a) s e → ∀ done : Mask,
      (∀ l, bit done l = true ↔ bit e.live l = true ∧ ((w l).getLsbD 31 = true ∨ 2 ^ 31 ≤ word l)) →
      (done = e.live → ∃ vs, CompletesOn (.hwait h d a) s e { s with views := vs } (resultIn e d 1 word)) ∧
      (done ≠ e.live → ∃ u, HoldsOn (.hwait h d a) s e u .hwait (e.live &&& ~~~done) ∧
        RegsAre e s u (resultIn { e with live := done } d 1 word) ∧ OnlyWarp e { s with views := u.views } u ∧ SameMemory s u)) ∧
    (Issues (.hcancel h a) s e →
      (e.live = 0 → Completes (.hcancel h a) s e noResult) ∧
      (e.live ≠ 0 → e.fixed = true → Faults (.hcancel h a) s e .ndet e.live 0 0) ∧
      (e.live ≠ 0 → e.fixed = false → ∃ u, CompletesOn (.hcancel h a) s e u noResult ∧ u = { s with copies := u.copies, matops := u.matops } ∧
        u.copies.length = s.copies.length ∧ ∀ (i : Nat) (c : Copy), s.copies[i]? = some c →
          let asked : Prop := c.cancel = 0 ∧ c.group = e.g ∧ ∃ l f, bit e.live l = true ∧ entry l = some f ∧ f.res = false ∧
            (w l).getLsbD 31 = false ∧ c.handle.toNat % 2 ^ 23 = (w l).toNat % 2 ^ 23
          (asked → u.copies[i]? = some { c with cancel := 1 }) ∧ (¬ asked → u.copies[i]? = some c)))

/-! ## The generation class -/

/-- R334, R336 to R339: VPUB publishes the staging slot as the newest generation, after a device-scope release, and writes its
number; VPIN and VRET set and clear the context's pin of a range; a range not created or not bound, no staging slot, a taken
number or a generation that no slot has faults VERSION; live slots that nothing holds become free. -/
def Obligations.VersionWordsComplete : Prop :=
  ∀ (s : State) (e : Env) (h : Hdr) (d a b : Reg),
    let n : Nat := match leader e.live with | some l => (e.v s a l).toNat % 64 | none => 0
    let boundTo : Prop := (∃ c, ctx? s e.gr.ctx = some c ∧ ∃ x ∈ c.maps, x.1 = n) ∧ (range? s n).isSome = true
    let drained := fenceDrain s e.die .rel .dev
    let u := fenceEdges drained e.die e.g e.w e.live .rel .dev
    let next (r : VRange) : Nat := match r.last with | none => 1 | some g => if g = 0xFFFE then 0 else g + 1
    let version (i : Instr) (t : State) (gen : Nat) : Prop :=
      exec i s = .next (takeFault t e.g e.w (recordOf s e .version e.live (BitVec.ofNat 64 n) (BitVec.ofNat 64 gen)))
    let off (i : Instr) (gen : Nat) : Prop := Issues i s e → (e.live = 0 → Completes i s e noResult) ∧
      (e.live ≠ 0 → ¬ boundTo → version i s gen)
    (off (.vpub h d a) 0xFFFF ∧ off (.vret h a) 0xFFFF ∧ ∀ l, leader e.live = some l → off (.vpin h a b) ((e.v s b l).toNat % 65536)) ∧
    (Issues (.vpub h d a) s e → e.live ≠ 0 → boundTo →
      (fenceReady drained e.die e.g e.w .rel .dev = false → HoldsOn (.vpub h d a) s e drained (.fence .rel .dev) e.atPc) ∧
      ∀ r, fenceReady drained e.die e.g e.w .rel .dev = true → range? u n = some r →
        let ok : Prop := (∃ x ∈ r.slots, x.1 = .staging) ∧ genTaken u r (next r) = false
        (¬ ok → version (.vpub h d a) u (next r)) ∧
        (ok → CompletesOn (.vpub h d a) s e (settleRanges (modRange u n fun x => { x with
          last := some (next r)
          slots := x.slots.map fun y => if y.1 = .newest then (.live, y.2) else if y.1 = .staging then (.newest, next r) else y }))
          (resultIn e d 1 fun _ => next r))) ∧
    (∀ l r, leader e.live = some l → boundTo → range? s n = some r → Issues (.vpin h a b) s e →
      let gen := (e.v s b l).toNat % 65536
      (slotOf r gen = none → version (.vpin h a b) s gen) ∧
      ((slotOf r gen).isSome = true → CompletesOn (.vpin h a b) s e (settleRanges (modCtx s e.gr.ctx fun c => { c with pins := sput c.pins n gen })) noResult)) ∧
    (Issues (.vret h a) s e → e.live ≠ 0 → boundTo →
      CompletesOn (.vret h a) s e (settleRanges (modCtx s e.gr.ctx fun c => { c with pins := sdel c.pins n })) noResult)

/-- R329, R337, R340, R341, R343: TOKREC checks every live lane's slot and then appends its record, or asks for a pause where
there is no token; SMASK gives the logit or −∞ by the slot's mask; SLOTRD reads 16 bytes of a slot's record, of the header or
of the active list's slot; SLOTSET puts a request; a group without a batching table faults PROT. R342: ULCALL starts a sub-
group of one warp for each live lane whose slot has a user logit kernel, gives 0 in the others, and is held until the sub-
groups end; where no live lane's slot has a kernel it completes. -/
def Obligations.BatchAndLogitWordsComplete : Prop :=
  (∀ (s : State) (e : Env) (h : Hdr) (d a b c : Reg),
      let none_ (i : Instr) : Prop := Issues i s e → e.live ≠ 0 → tableLoop s e.gr = none → FaultsFirst i s e s .prot 0 0
      let slot (x : Reg) (l : Nat) : Nat := (e.v s x l).toNat % 8192
      none_ (.tokrec h a b c) ∧ none_ (.smask h d a b c) ∧ (∀ act n, none_ (.slotrd h act d a n)) ∧ none_ (.slotset h a b) ∧
      (∀ g i (n : Node) hd, tableLoop s e.gr = some (g, i, n) → tabRead s e n.k56 2 = .ok hd →
        (Issues (.tokrec h a b c) s e → ∀ l st, e.live = 1#32 <<< l → l < 32 → slot a l < leNat hd →
          tabRead s e (recordVa n.k56 (slot a l)) 1 = .ok st → leNat st = 1 ∨ leNat st = 2 →
          (∀ x, graph? s g = some x → (i, slot a l) ∉ x.recorded) →
          (∀ old ps, e.v s b l = 0xFFFFFFFF → tabRead s e (recordVa n.k56 (slot a l) + 2) 2 = .ok old →
            DevWritable s e (recordVa n.k56 (slot a l) + 2) 2 ps →
            CompletesOn (.tokrec h a b c) s e (putPieces s ps (leBytes 2 (requestWord (leNat old) 3 0x40))) noResult) ∧
          (∀ r lf ps, e.v s b l ≠ 0xFFFFFFFF → tabRead s e (recordVa n.k56 (slot a l)) 64 = .ok r → (e.v s b l).toNat ≠ field r 44 4 →
            field r 60 4 + 1 ≠ field r 56 2 → memLeaf s e (BitVec.ofNat 64 (field r 48 8 + 16 * field r 60 4)) 16 1 2 = .ok lf → Writable s lf 16 →
            NoFloors s → e.die < 4 → DevWritable s e (recordVa n.k56 (slot a l) + 60) 4 ps →
            ∃ u as, LanesGive e (tokAct e a b c) s u as ∧ CompletesOn (.tokrec h a b c) s e u noResult)) ∧
        (Issues (.smask h d a b c) s e → ∀ (r m : Nat → List Byte) (lf : Nat → Leaf),
          let at_ (l : Nat) : Nat := (e.v s b l).toNat
          (∀ l, bit e.live l = true → slot c l < leNat hd ∧ tabRead s e (recordVa n.k56 (slot c l)) 64 = .ok (r l) ∧
            (field (r l) 16 8 ≠ 0 → at_ l < field (r l) 24 4 →
              memLeaf s e (BitVec.ofNat 64 (field (r l) 16 8 + at_ l / 8)) 1 0 1 = .ok (lf l) ∧ readMem s e (lf l) 1 false l = .ok (m l))) →
          Completes (.smask h d a b c) s e (resultIn e d 1 fun l =>
            if field (r l) 16 8 = 0 ∨ (at_ l < field (r l) 24 4 ∧ leNat (m l) / 2 ^ (at_ l % 8) % 2 = 1) then (e.v s a l).toNat else 0xFF800000)) ∧
        (∀ act k, Issues (.slotrd h act d a k) s e → ∀ x : Nat → List Byte,
          let from_ (sl : Nat) : DWord := if k = 4 then n.k56 else recordVa n.k56 sl + BitVec.ofNat 64 (16 * k.toNat)
          let named (l : Nat) : Option Nat := if act then n.active[(e.v s a l).toNat]? else some (slot a l)
          (∀ l, bit e.live l = true → (act = false → slot a l < leNat hd) ∧ ∀ sl, named l = some sl → tabRead s e (from_ sl) 16 = .ok (x l)) →
          CompletesLater (.slotrd h act d a k) s e d 4 fun l => if named l = none then 0 else leNat (x l)) ∧
        (Issues (.slotset h a b) s e → ∀ l old ps, e.live = 1#32 <<< l → l < 32 → slot a l < leNat hd →
          let q := (e.v s b l).toNat
          2 ≤ q % 8 → q % 8 ≤ 4 → tabRead s e (recordVa n.k56 (slot a l) + 2) 2 = .ok old → DevWritable s e (recordVa n.k56 (slot a l) + 2) 2 ps →
          CompletesOn (.slotset h a b) s e (putPieces s ps (leBytes 2 (requestWord (leNat old) (q % 8) (q / 256 % 256)))) noResult)) ∧
      (Issues (.tokrec h a b c) s e → (∀ l, bit e.live l = true → ∃ x, tokCheck e a s l = .ok x) → ∀ u as,
        LanesGive e (tokAct e a b c) s u as → CompletesOn (.tokrec h a b c) s e u noResult) ∧
      (Issues (.smask h d a b c) s e → ∀ f : Nat → Nat, (∀ l, bit e.live l = true → maskedLogit e a b c s l = .ok (f l)) →
        Completes (.smask h d a b c) s e (resultIn e d 1 f) ∧ ∀ l, bit e.live l = true → f l = (e.v s a l).toNat ∨ f l = 0xFF800000) ∧
      (∀ act n, Issues (.slotrd h act d a n) s e → ∀ f : Nat → Nat, (∀ l, bit e.live l = true → slotQuarter e act a n s l = .ok (f l)) →
        CompletesLater (.slotrd h act d a n) s e d 4 f) ∧
      (Issues (.slotset h a b) s e → ∀ u as, LanesGive e (slotsetLane e s a b) s u as → CompletesOn (.slotset h a b) s e u noResult) ∧
      ∀ old st reason, old < 2 ^ 16 → 2 ≤ st → st ≤ 4 → reason < 256 →
        requestWord old st reason = if old / 128 % 2 = 1 ∧ ((old % 8 = 4 ∧ st ≠ 4) ∨ (old % 8 = 3 ∧ st = 2)) then old
          else 128 + st + 256 * reason) ∧
  (∀ (s : State) (e : Env) (h : Hdr) (d a b : Reg), Issues (.ulcall h d a b) s e →
      (∀ g i (n : Node) hd (r : Nat → List Byte), tableLoop s e.gr = some (g, i, n) → tabRead s e n.k56 2 = .ok hd →
        (∀ l, bit e.live l = true → (e.v s a l).toNat % 8192 < leNat hd ∧
          tabRead s e (recordVa n.k56 ((e.v s a l).toNat % 8192)) 64 = .ok (r l)) →
        (∃ u subs, LanesGive e (startLogits e a b) s u subs ∧ ∀ x ∈ subs, x.2 = none ↔ field (r x.1) 32 8 = 0) ∧
        ((∀ l, bit e.live l = true → field (r l) 32 8 = 0) → Completes (.ulcall h d a b) s e (resultIn e d 1 fun _ => 0))) ∧
      ∀ u subs, LanesGive e (startLogits e a b) s u subs →
        ((∀ x ∈ subs, x.2 = none) → CompletesOn (.ulcall h d a b) s e u (resultIn e d 1 fun _ => 0)) ∧
        ((∃ x ∈ subs, x.2 ≠ none) → (∀ q ∈ s.groups, q.1 < s.seqs) → ∃ y, HoldsOn (.ulcall h d a b) s e y
          (.ulcall d.toNat (subs.filterMap fun x => x.2.map fun g => (x.1, g))) e.live ∧
          RegsAre e u y fun r l => if r = d.toNat ∧ (l, none) ∈ subs then some 0 else none) ∧
        ∀ l g, (l, some g) ∈ subs → s.seqs ≤ g → (∀ q ∈ s.groups, q.1 < s.seqs) → ∃ gr wp, group? u g = some gr ∧ gr.kind = .subgroup e.g e.w l ∧
          gr.ctx = e.gr.ctx ∧ gr.core = e.gr.core ∧ gr.warpsN = 1 ∧ gr.granted = 32 ∧ gr.warps = [wp] ∧
          (∀ x ∈ wp.lanes, x.pc = gr.code ∧ x.exited = false) ∧
          ∀ k, k < 32 → (sget? wp.regs k = some (BitVec.ofNat 32 k)) ∧ sget? wp.regs (96 + k) = some ((e.d s b l).setWidth 32))

/-! ## The system class -/

/-- R352, R372: TRET outside handler mode faults PRIV, with a lane elsewhere BARDIV; it waits for the warp's results; then the
lanes take their program counters from the frame as it stands after the warp's stores, the interrupted word's lanes go past
it under .NEXT, v240 to v255 and the pending bits are the frame's, and the warp has left the handler; every lower register is
as it was. R190, R375, R376: TLBINV is a device-scope release, waits for the operations that pin a translation it drops, and
leaves no TLB an entry of its context for a page that its live lanes name, or for any; IDLE posts an idle event with the
frame and the fault record and holds the warp, and faults PRIV outside handler mode. -/
def Obligations.HandlerWordsComplete : Prop :=
  (∀ (s : State) (e : Env) (m next : Bool), Issues (.tret m next) s e →
      let s1 := drainDie s e.die
      (e.wp.handler = none → Faults (.tret m next) s e .priv e.live 0xFF 0) ∧
      ∀ q, e.wp.handler = some q → (∀ k ∈ q.temps, 240 ≤ k) →
        (¬ Together e → Faults (.tret m next) s e .bardiv e.live (e.atPc.setWidth 64) 0) ∧
        (Together e → e.wp.outs ≠ [] → HoldsOn (.tret m next) s e s .ret e.atPc) ∧
        ∀ frame s2, Together e → e.wp.outs = [] → devRead s1 e.gr.ctx (gens s e.gr) q.frame 1 6144 = .ok frame →
          devWrite s1 e.gr.ctx (gens s e.gr) (q.frame + 68) 1
            (leBytes 4 (~~~(aliveLanes e.wp) &&& ~~~(BitVec.ofNat 32 (field frame 64 4))).toNat) = .ok s2 →
          ∃ t wp, exec (.tret m next) s = .next t ∧ warp? t e.g e.w = some wp ∧ wp.handler = none ∧
            (∀ (l : Nat) (x : Lane), e.wp.lanes[l]? = some x → wp.lanes[l]? = some { x with
              pc := BitVec.ofNat 64 (field frame (128 + 8 * l) 8) +
                (if next = true ∧ BitVec.ofNat 64 (field frame (128 + 8 * l) 8) = BitVec.ofNat 64 (field frame 16 8) then 8 else 0)
              yields := 0, age := 0 }) ∧
            (m = false → ∀ r l, r < 256 → l < 32 → (32 * r + l ∈ wp.pending ↔ bit (BitVec.ofNat 32 (field frame (512 + 4 * r) 4)) l = true)) ∧
            (∀ r l, r < 240 → l < 32 → regAt t e.g e.w r l = regAt s e.g e.w r l) ∧
            (∀ j l, j < 16 → l < 32 → 240 + j ∉ q.temps → regAt t e.g e.w (240 + j) l = BitVec.ofNat 32 (field frame (4096 + 128 * j + 4 * l) 4))) ∧
  (∀ (s : State) (e : Env) (h : Hdr) (r : Option Reg) (m : Bool),
      (∀ b, Issues (.tlbinv h r) s e → Released e s true .dev b →
        let waits : Prop := match r with
          | none => e.live ≠ 0 ∧ pinsPage b e none = true
          | some x => ∃ l, bit e.live l = true ∧ pinsPage b e (some (e.d b x l)) = true
        (¬ waits → ∃ ts, CompletesOn (.tlbinv h r) s e { b with tlbs := ts } noResult ∧ ∀ k x, x ∈ (sget? ts k).getD [] ↔
          x ∈ (sget? b.tlbs k).getD [] ∧ ¬ (e.live ≠ 0 ∧ x.ctx = e.gr.ctx ∧ ∀ q, r = some q → ∃ l, bit e.live l = true ∧ pageOf (e.d b q l) x.size = x.page)) ∧ (waits → HoldsOn (.tlbinv h r) s e b .accept e.atPc)) ∧
      (Issues (.idle m) s e → (e.wp.handler = none → Faults (.idle m) s e .priv e.live 0xFF 0) ∧
        ∀ q, e.wp.handler = some q →
          HoldsOn (.idle m) s e (postCtx s e.gr.ctx 4 q.frame.toNat 0 0 (some q.cause)) .idle e.atPc))

/-- R367, R369, R373: CREAD writes a control register's value in every live lane; CWRITE writes the leader's value once, its
reserved bits ignored; a register that may not be written, or not outside handler mode, faults PRIV with its number. -/
def Obligations.ControlRegistersReadAndWrite : Prop :=
  ∀ (s : State) (e : Env) (h : Hdr) (a d : Reg) (r : CtlReg) (c : Ctx), ctx? s e.gr.ctx = some c →
    (Issues (.cread h d r) s e → ∃ v : Nat, Completes (.cread h d r) s e (resultIn e d 2 fun _ => v) ∧ match r with
      | .feature => v = 1
      | .trapvec => v = c.trapvec.toNat
      | .trapframe => v = c.trapframe.toNat
      | .ctxid => v = e.gr.ctx % 65536
      | .split => v = (core s e.gr.core).split.toNat
      | .fixed => v = if c.fixed then 1 else 0
      | .clockdiv => v = c.clockdiv.toNat
      | .version => subscribedLoop s e.gr = none → v = 0xFFFFFFFF
      | .vpin => (∀ n g, subscribedLoop s e.gr = some n → n.subscription = some g → v = (sget? c.pins g).getD 0xFFFF) ∧
          (subscribedLoop s e.gr = none → v = 0xFFFF)
      | .tidbase => v = c.tidbase.toNat
      | .ordesc => v = c.ordesc.toNat
      | .preempt => v = c.preempt.toNat
      | .dbg => v = c.dbg.toNat
      | .perf n => ∀ p, (core s e.gr.core).perf[n.toNat]? = some p → v / 2 ^ 56 = p.1 / 2 ^ 56 ∧
          (p.1 / 2 ^ 56 ≠ 1 → v = p.1)) ∧
    (Issues (.cwrite h a r) s e → e.live = 0 → Completes (.cwrite h a r) s e noResult) ∧
    ∀ l, Issues (.cwrite h a r) s e → leader e.live = some l →
      let v := e.d s a l
      let always : Prop := r = .trapvec ∨ r = .tidbase ∨ r = .ordesc ∨ ∃ n, r = .perf n
      let handler : Prop := r = .trapframe ∨ r = .fixed ∨ r = .clockdiv ∨ r = .preempt ∨ r = .dbg
      let allowed_ : Prop := always ∨ (handler ∧ e.wp.handler.isSome = true)
      (¬ allowed_ → Faults (.cwrite h a r) s e .priv e.live (BitVec.ofNat 64 (CtlReg.num r)) 0) ∧
      (allowed_ → (∀ n, r ≠ .perf n) → ∃ u c2, CompletesOn (.cwrite h a r) s e u noResult ∧ u = { s with ctxs := u.ctxs } ∧
        (∀ k, k ≠ e.gr.ctx → ctx? u k = ctx? s k) ∧ ctx? u e.gr.ctx = some c2 ∧
        c2 = { c with
          trapvec := if r = .trapvec then v &&& ~~~7 else c.trapvec
          trapframe := if r = .trapframe then v &&& ~~~0xFFFF else c.trapframe
          fixed := if r = .fixed then v.getLsbD 0 else c.fixed
          clockdiv := if r = .clockdiv then v.setWidth 4 else c.clockdiv
          tidbase := if r = .tidbase then v else c.tidbase
          ordesc := if r = .ordesc then v else c.ordesc
          preempt := if r = .preempt then v &&& 0x01FFFFFFFFFFFFC1 else c.preempt
          dbg := if r = .dbg then v.setWidth 3 else c.dbg }) ∧
      ∀ n, r = .perf n → ∃ ev, ev = (if v.toNat / 2 ^ 56 ≤ 9 then v.toNat / 2 ^ 56 else 0) ∧
        CompletesOn (.cwrite h a r) s e (modCore s e.gr.core fun k => { k with
          perf := setAt k.perf n.toNat (ev * 2 ^ 56 + v.toNat % 2 ^ 48, BitVec.ofNat 64 e.gr.ctx) }) noResult

/-- R142, R364, R374, R379: TSAVE and TLOAD act with the last warp of the group: a warp elsewhere faults BARDIV or TEMPLATE, a
misaligned address ALIGN; each other warp is held. TSAVE, with every result returned and every operation ended, writes the
save frame of the group with v[D] zero in it and 1 after it. TLOAD of a frame that keeps the layout and the caller's sizes
replaces the group's lanes, registers, barriers and scratchpad by the frame's; a frame that does not faults PROT. -/
def Obligations.GroupSavesAndLoads : Prop :=
  ∀ (s : State) (e : Env) (m : Bool) (d a : Reg),
    let pro : Prop := e.gr.kind = .prologue ∨ ∃ t, e.gr.kind = .nested t
    let other (w : Warp) : Prop := w ∈ e.gr.warps ∧ w.index ≠ e.wp.index ∧ w.ended = false
    let idle : Prop := (∀ c ∈ s.copies, c.group ≠ e.g) ∧ ∀ o ∈ s.matops, o.group ≠ e.g
    let quiet : Prop := ∀ w ∈ e.gr.warps, w.outs = []
    let common (i : Instr) (kind : DWord → Hold) : Prop := Issues i s e →
      (¬ Together e → pro → Faults i s e .template e.live 0 0) ∧
      (¬ Together e → ¬ pro → Faults i s e .bardiv e.live (e.atPc.setWidth 64) 0) ∧
      ∀ l, Together e → leader e.live = some l →
        ((∀ w, other w → e.wp.index < w.index) → (e.d s a l).toNat % 256 ≠ 0 → Faults i s e .align e.live (e.d s a l) 0) ∧
        ((∃ w, other w ∧ ∀ h ∈ w.holds, ∀ v, h.kind ≠ kind v ∧ ∀ k, h.kind ≠ .tsave v k) → (e.d s a l).toNat % 256 = 0 →
          HoldsOn i s e s (kind (e.d s a l)) e.atPc) ∧
        ((∀ w, ¬ other w) → (e.d s a l).toNat % 256 = 0 →
          (¬ quiet → HoldsOn i s e s .ret e.atPc) ∧ (quiet → ¬ idle → HoldsOn i s e s .accept e.atPc))
    common (.tsave m d a) (fun v => .tsave v d.toNat) ∧ common (.tload m a) .tload ∧
    ∀ l b, Together e → leader e.live = some l → (∀ w, ¬ other w) → (e.d s a l).toNat % 256 = 0 → quiet → idle →
      Released e s true .dev b →
      (Issues (.tsave m d a) s e → (∀ (i : Nat) (w : Warp), e.gr.warps[i]? = some w → i ≠ e.w → w.holds = []) → ∀ ps, framePieces b e (e.d s a l) (frameBytes b (savedGroup b e d.toNat) .tsave).length = .ok ps →
        CompletesOn (.tsave m d a) s e (putPieces b ps (frameBytes b (savedGroup b e d.toNat) .tsave)) (resultIn e d 1 fun _ => 1)) ∧
      (Issues (.tload m a) s e → ∀ hd, devRead b e.gr.ctx (gens b e.gr) (e.d s a l) 1 64 = .ok hd →
        (headerOk e.gr hd = false → exec (.tload m a) s = .next (takeFault b e.g e.w (recordOf s e .prot e.live (e.d s a l) 0))) ∧
        ∀ f secs ls, headerOk e.gr hd = true → devRead b e.gr.ctx (gens b e.gr) (e.d s a l) 1 (field hd 4 4) = .ok f →
          field hd 24 8 = 0 → sectionsOf (field hd 44 2) (f.drop 64) = some secs → sectionsOk e.gr false secs = true →
          (∀ x ∈ bodiesOf secs 1, sectionHandler x = false) → loadSlots secs = ls → ls = [] →
          ∃ t, exec (.tload m a) s = .next t ∧
            (∀ i x, (bodiesOf secs 1)[i]? = some x → i < e.gr.warps.length → ∃ wp, warp? t e.g i = some wp ∧ wp.holds = [] ∧
              ∀ k, k < 32 → ∃ y, wp.lanes[k]? = some y ∧ y.pc = BitVec.ofNat 64 (field x (16 + 8 * k) 8) ∧
                y.exited = bit (BitVec.ofNat 32 (field x 4 4)) k) ∧
            (∀ x, bodiesOf secs 3 = [x] → ∀ k, k < 8 → ((groupOf e t).bars[k]?).map (·.phase) = some (field x (4 * k) 4)) ∧
            (e.gr.kind = .plain → ∀ x, bodiesOf secs 2 = [x] → ∀ k, k < e.gr.spmSize → spmAt t e.g k = x[k]?.getD 0))

/-! ## What the device does of itself: cores -/

/-- R42, R44, R100 to R104, R115, R152, R153: a core that is not halted chooses at most two warps of those that may issue, one in
fixed-star mode, and hands on lane groups whose lanes stand at their address; with a member of its active set that may issue
it chooses one; a result reaches its register and, the last of a parked warp, clears the marked lanes' pending bits; a warp
whose lanes have exited ends; YIELD and SLEEP end. A held word that ends moves its lanes on. -/
def Obligations.CoreHappeningsAct : Prop :=
  ∀ (s : State) (g w : Nat) (gr : Group) (wp : Warp), group? s g = some gr → gr.warps[w]? = some wp →
    (∀ c, (core s c).halted = false → s.issue = [] → ∃ t ps, exec (.warpIssueChoice c) s = .next t ∧ SameMemory s t ∧
      t = { s with groups := t.groups, cores := t.cores, issue := t.issue } ∧ ps.length ≤ 2 ∧
      (∀ p ∈ ps, mayChoose s p.1 p.2 = true ∧ ∃ x, warp? t p.1 p.2 = some x ∧ x.wage = 0) ∧
      (∀ x ∈ t.issue, (x.group, x.warp) ∈ ps ∧ ∀ l y, bit x.lanes l = true → warp? s x.group x.warp = some y →
        bit (heldLanes y) l = false ∧ ∃ z, y.lanes[l]? = some z ∧ z.pc = x.pc ∧ z.exited = false) ∧
      ((∃ x ∈ residentOn s c, fixedOf s x.grid = true) → ps.length ≤ 1) ∧
      ((∀ x ∈ residentOn s c, fixedOf s x.grid = false) → (∃ p ∈ (core s c).active, mayChoose s p.1 p.2 = true) → ps ≠ [])) ∧
    (∀ i l r v, gr.life = .resident → wp.outs[i]? = some (.value l r v) → l < 32 → ∃ t x, exec (.longLatencyReturn g w i) s = .next t ∧
      SameMemory s t ∧ warp? t g w = some x ∧ x.outs = wp.outs.eraseIdx i ∧ x.lanes = wp.lanes ∧
      (∀ q k, k < 32 → regAt t g w q k = if q = r ∧ k = l ∧ bit (aliveLanes wp) l = true then v else regAt s g w q k) ∧
      (∀ m, wp.parked = some m → x.outs = [] → x.parked = none ∧ ∀ k, k ∈ x.pending ↔ k ∈ wp.pending ∧ bit m (k % 32) = false) ∧
      (wp.parked = none ∨ x.outs ≠ [] → x.parked = wp.parked ∧ x.pending = wp.pending)) ∧
    (gr.life = .resident → wp.ended = false → (∀ x ∈ wp.lanes, x.exited = true) → wp.outs = [] → ∃ t x, exec (.warpEnd g w) s = .next t ∧
      SameMemory s t ∧ warp? t g w = some x ∧ x.ended = true ∧ x.holds = [] ∧ x.regs = wp.regs ∧
      (g, w) ∉ (core t gr.core).active) ∧
    (∀ l, wp.yielding = some l → (fixedOf s gr.grid = false ∨ l = []) →
      exec (.yieldReturn g w) s = .next (modWarp s g w fun x => { x with yielding := none })) ∧
    (∀ i (h : HoldRec), wp.holds[i]? = some h → h.kind = .sleep → exec (.sleepExpiry g w i) s = .next (modWarp s g w (endHold h))) ∧
    ∀ h : HoldRec, (endHold h wp).holds = wp.holds.erase h ∧ (endHold h wp).regs = wp.regs ∧ (endHold h wp).outs = wp.outs ∧
      ∀ l : Nat, (endHold h wp).lanes[l]? = (wp.lanes[l]?).map fun (x : Lane) => if bit h.lanes l then { x with pc := x.pc + 8 } else x

/-- R128, R129, R140, R141, R150, R160: a barrier phase that every warp not ended has reached ends: its count rises, and its
warps go on; so does a gang's; a prologue whose warps have all frozen with one count becomes a template of its registers,
scratchpad and program counters, or fails its node with TEMPLATEFIT or GANGFIT; a group whose warps have ended leaves the
device. -/
def Obligations.GroupHappeningsAct : Prop :=
  ∀ (s : State) (g : Nat) (gr : Group), group? s g = some gr → gr.id = g → gr.life = .resident →
    (∀ b, (bar gr b).arrived ≠ [] → (∀ x ∈ gr.warps, x.ended = true ∨ x.index ∈ (bar gr b).arrived) → b < gr.bars.length →
      ∃ t up, exec (.barrierPhaseComplete g b) s = .next t ∧ SameMemory s t ∧ group? t g = some up ∧
        bar up b = { phase := ((bar gr b).phase + 1) % 2 ^ 32, arrived := [] } ∧ (∀ c, c ≠ b → bar up c = bar gr c) ∧
        (∀ (w : Nat) (x : Warp), up.warps[w]? = some x → ∀ h ∈ x.holds, h.kind ≠ .barrier b (bar gr b).phase ∧ ∀ p, h.kind ≠ .rearrive b p) ∧
        ∀ (w : Nat) (x : Warp) (h : HoldRec), gr.warps[w]? = some x → x.holds = [h] → h.kind = .barrier b (bar gr b).phase →
          up.warps[w]? = some (endHold h x)) ∧
    (∀ x : Gang, s.gangs.find? (·.id == x.id) = some x → (∃ m y, m ∈ x.groups ∧ group? s m = some y ∧ y.gangWarps ≠ []) →
      (∀ m y, m ∈ x.groups → group? s m = some y → ∀ z ∈ y.warps, z.ended = true ∨ z.index ∈ y.gangWarps) →
      ∃ t, exec (.gangBarrierComplete x.id) s = .next t ∧ SameMemory s t ∧
        t.gangs.find? (·.id == x.id) = some { x with phase := (x.phase + 1) % 2 ^ 32 } ∧
        ∀ m y, m ∈ x.groups → group? t m = some y → y.gangWarps = [] ∧ y.gangIn = false ∧
          ∀ z ∈ y.warps, ∀ h ∈ z.holds, ∀ p, h.kind ≠ .gang p) ∧
    (∀ n gd, gr.kind = .prologue → captureReady s gr = some n → grid? s gr.grid = some gd → waiting s (.templateCapture g) = false →
      let ws := (frozenWarps gr).length
      let fits := fitsCore gr.split ws (ws * gr.granted + ws) (2 * gr.spmSize)
      (gd.areaSize < imageBytes ws gr.granted gr.spmSize →
        exec (.templateCapture g) s = .next (failNode (removeGroup s g) gd.graph gd.node 4)) ∧
      (imageBytes ws gr.granted gr.spmSize ≤ gd.areaSize → fits = false →
        exec (.templateCapture g) s = .next (failNode (removeGroup s g) gd.graph gd.node 3)) ∧
      ∀ u, imageBytes ws gr.granted gr.spmSize ≤ gd.areaSize → fits = true → 0 < n → (gr.warps.map (·.index)).Nodup →
        devWrite s gr.ctx (gens s gr) (BitVec.ofNat 64 gd.area) 256 (templateImage s gr 1 n) = .ok u →
        ∃ t m, exec (.templateCapture g) s = .next t ∧ SameMemory u t ∧ group? t g = none ∧ m ∈ t.tmpls ∧ m.count = n ∧ m.depth = 1 ∧
          m.granted = gr.granted ∧ m.area = gd.area ∧ m.spm = (List.range gr.spmSize).map (fun o => (o, spmByte s gr o)) ∧
          (∀ x ∈ frozenWarps gr, (x.index, frozenLanes x) ∈ m.warps ∧ ∀ r l, r < gr.granted → l < 32 →
            tmplReg m x.index (32 * r + l) = regRead s gr x r l) ∧
          grid? t gr.grid = some { gd with tmpl := some m.id, count := n, next := 0, ended := 0, regs := m.granted, warps := ws, spm := m.spmSize }) ∧
    (groupOver s gr = true → waiting s (.groupEnd g) = false → (∀ x ∈ gr.warps, x.deferred = []) → (gr.kind = .plain ∨ gr.kind = .prologue) →
      let u := drainDie s (dieOf gr.core)
      (endWord u gr = none → ∃ t, exec (.groupEnd g) s = .next t ∧ SameMemory u t ∧ group? t g = none ∧
        ∀ gd x, gr.kind = .plain → grid? s gr.grid = some gd → graph? s gd.graph = some x → x.failed = none →
          grid? t gr.grid = some { gd with ended := gd.ended + 1 }) ∧
      ∀ va v, endWord u gr = some va → devIncrement u (endView u gr) gr.ctx (gens u gr) va = .ok v → exec (.groupEnd g) s = .next (countGroup v gr))

/-- R139, R149, R272, R342: the register pool serves the first request of a core in logical order, once the pool can meet it: an
RGROW is granted and goes on, a copying word gets its row and issues again, a user logit kernel takes a warp slot. Where
every group of a core is blocked, the last of several is saved for it; a lone one faults GROWX, which in a trap entry ends
the context. -/
def Obligations.RegisterPoolServes : Prop :=
  ∀ (s : State) (c : Nat),
    (∀ r, firstRequest s c = some r → (∃ rest, (inLogical s c).flatMap (rowRequests s) = r :: rest) ∧ r.need ≤ freeRows s c ∧
      (r.sub = none ∨ freeSlotsOf s c ≠ [])) ∧
    (∀ r g, firstRequest s c = some r → r.sub = none → group? s r.group = some g →
      (∀ n, r.hold.kind = .rgrow n → ∃ t up, exec (.registerPoolGrant c) s = .next t ∧ SameMemory s t ∧ group? t r.group = some up ∧
        up.granted = max g.granted n ∧ ∀ x, up.warps[r.warp]? = some x → ∀ y, g.warps[r.warp]? = some y → x.holds = y.holds.erase r.hold) ∧
      (∀ reg, r.hold.kind = .copyWait reg → ∃ t up, exec (.registerPoolGrant c) s = .next t ∧ SameMemory s t ∧ group? t r.group = some up ∧
        ∀ x, up.warps[r.warp]? = some x → ∀ y, g.warps[r.warp]? = some y → x.holds = y.holds.erase r.hold ∧ ownsRow up x reg = true ∧
          ∀ k l, k < 512 → l < 32 → regAt t r.group r.warp k l = regAt s r.group r.warp k l)) ∧
    (∀ r x g slot rest, firstRequest s c = some r → r.sub = some x → group? s x = some g → g.id = x → freeSlotsOf s c = slot :: rest →
      ∃ t up, exec (.registerPoolGrant c) s = .next t ∧ SameMemory s t ∧ group? t x = some up ∧ up.life = .resident ∧ ∀ y ∈ up.warps, y.slot = slot) ∧
    ((∀ x ∈ residentOn s c, blocked s x = true) → firstRequest s c = none →
      (∀ a rest v, inLogical s c = a :: rest → rest.getLast? = some v → v.logits = none →
        (∀ x, gang? s v.id = some x → ∀ m ∈ x.groups, m ≠ v.id → ∀ y, group? s m = some y → y.life ≠ .resident) →
        exec (.registerDeadlockSave c) s = .next (serveAfter (haltAndSave s v.id .deadlock) v.id)) ∧
      (∀ a r e rest, inLogical s c = [a] → rowRequests s a = r :: rest →
        (∀ q ∈ r :: rest, q.sub = none) → heldEnv s a.id r.warp r.hold = some e →
        exec (.registerDeadlockSave c) s = .next (takeFault (dropHold s a.id r.warp r.hold) a.id r.warp
          (recordOf s e .growx e.live (BitVec.ofNat 64 r.need) (BitVec.ofNat 64 r.asked)))) ∧
      ∀ a x, inLogical s c = [a] → rowRequests s a = [] → a.warps.findSome? (·.fault) = some x →
        exec (.registerDeadlockSave c) s = .next (contextEnd s a.ctx (some x) { x with
          code := .growx, handler := true, d0 := BitVec.ofNat 64 (tempRegs a.granted).length
          d1 := BitVec.ofNat 64 ((tempRegs a.granted).head?.getD 0) }))

/-- R151, R160, R169, R179, R180, R342: the first launch block of a core is read and its credit returns: a right block of a node
that still starts groups adds a child grid, a malformed one is reported as event kind 1; QPUSH and QPOP words that wait go on
once there is room or entries, and issue again to fault on a queue that has closed; a user logit kernel out of budget ends
with BUDGET. -/
def Obligations.LaunchesAndQueuesProceed : Prop :=
  ∀ (s : State) (g w : Nat) (gr : Group), group? s g = some gr →
    (∀ c va gd b rest, (core s c).launches = (g, w, va, none) :: rest → grid? s gr.grid = some gd →
      devRead s gr.ctx (gens s gr) va 64 64 = .ok b → field b 23 1 = 0 →
      let u := modCore s c fun k => { k with launches := rest }
      (blockOk b = false → exec (.launchBlockRead c) s = .next (postCtx u gr.ctx 1 va.toNat 0 0 (some (deviceFault u .prot va)))) ∧
      (blockOk b = true → Config.featureLevel < field b 35 1 → exec (.launchBlockRead c) s = .next (failNode u gd.graph gd.node 2)) ∧
      (blockOk b = true → field b 35 1 ≤ Config.featureLevel → gd.stopped = false →
        fitsDie (BitVec.ofNat 16 (field b 32 2)) (field b 20 1) (field b 20 1 * (8 * field b 34 1)) (roundSpm (field b 36 4)) (field b 21 1) = true →
        ∃ t x, exec (.launchBlockRead c) s = .next t ∧ SameMemory s t ∧ (core t c).launches = rest ∧ t.grids = s.grids ++ [x] ∧
          x.id = s.seqs ∧ x.parent = some gd.id ∧ x.graph = gd.graph ∧ x.node = gd.node ∧ x.ctx = gd.ctx ∧ x.count = field b 16 4 ∧ x.next = 0 ∧
          x.warps = field b 20 1 ∧ x.gangN = field b 21 1 ∧ x.prio = field b 22 1 ∧ x.regs = 8 * field b 34 1 ∧
          x.code.toNat = field b 0 8 ∧ x.args.toNat = field b 8 8 ∧ x.word.toNat = field b 24 8)) ∧
    (∀ i h e q n, hold? s g w i = some h → heldEnv s g w h = some e → queue? s e.gr q = some n →
      let live := (lanesOf e.live).length
      (∀ hd m (k : BitVec 8) a, h.kind = .qpush → h.instr = some (.qpush hd m k a) → k.toNat = q →
        (n.2.closed = true → exec (.queuePushReserve g w i) s = .next (dropHold s g w h)) ∧
        (n.2.closed = false → n.2.tail - n.2.head + live ≤ n.2.cap → ∀ x at_, LanesGive e (pushLane e s n.2 m a) s x at_ →
          exec (.queuePushReserve g w i) s =
            .next (modWarp (modQueueOf x n.1 q fun y => { y with tail := y.tail + live }) g w (endHold h)))) ∧
      ∀ hd m (k : BitVec 8) d c, h.kind = .qpop → h.instr = some (.qpop hd m k d c) → k.toNat = q →
        (n.2.closed = true ∨ live ≤ n.2.tail - n.2.head) → ∀ f : Nat → Nat, (∀ l, bit e.live l = true → popLane e s n.2 m l = .ok (f l)) →
        exec (.queuePopReserve g w i) s = .next (modWarp (modQueueOf
          (writeLanes e (writeLanes e s d.toNat (MovW.regs m) f) c.toNat 1 fun l => if rankIn e.live l < n.2.tail - n.2.head then 1 else 0) n.1 q
          fun y => { y with head := y.head + min (n.2.tail - n.2.head) live }) g w (endHold h))) ∧
    ∀ b slot n, gr.life = .resident → gr.logits = some (b, 0, slot, n) → (fixedOf s gr.grid = true → b ≤ n) →
      ∃ t up, exec (.ulcallBudgetExpiry g) s = .next t ∧ SameMemory s t ∧ group? t g = some up ∧ up.logits = some (b, 30, slot, n) ∧
        ∀ x ∈ up.warps, x.ended = true ∧ x.holds = [] ∧ ∀ l ∈ x.lanes, l.exited = true

/-- R42, R123, R219, R251 to R254, R259, R267: a unit applies a record that is the first of its slice, unless a range load its
writer issued before is due; the range loads of a warp to the same registers and region are answered together, or, where one
reads an uncorrectable error, return nothing and leave ECCU for the warp's next word (R414); a declaration or rebuild ends
with the tree of the leaves as memory holds them, a drop with the region gone; FENCE, WSYNC and TFENCE go on once what they
wait for has happened. -/
def Obligations.UnitsAndFencesProceed : Prop :=
  ∀ (s : State) (g w i : Nat) (gr : Group) (wp : Warp) (h : HoldRec), group? s g = some gr → gr.warps[w]? = some wp →
    (∀ k (r : Region) j q, s.regions[k]? = some r → r.bound = true → (r.building = true → r.leaves ≠ []) → region? s r.ctx r.num = some r →
      nextRec s r = some j → r.recs[j]? = some q →
      (∀ src, q.src = some src → queryDue s src.1 src.2 r = false) ∧
      (∀ m p, m < j → r.recs[m]? = some p → homeSliceOf s r.ctx (leafPa r p.elem / 256) ≠ homeSliceOf s r.ctx (leafPa r q.elem / 256)) ∧
      ∃ t, exec (.updateRecordApply k) s = .next t ∧ region? t r.ctx r.num = some { applyRec r q with recs := r.recs.eraseIdx j } ∧ t.pend = s.pend) ∧
    (∀ (r : Region) q rest, s.draw = 0 → r.recs = q :: rest → (∀ src, q.src = some src → queryDue s src.1 src.2 r = false) → nextRec s r = some 0) ∧
    (∀ k l reg q r, wp.outs[k]? = some (.query l reg q) → declared? s gr.ctx q.region = some r → (r.building = true → q.time < r.began) → r.bound = true →
      ((∀ m y, .query m reg y ∈ wp.outs → y.region = q.region → answerError s r y = none) →
        ∃ t x, exec (.rangeLoadAnswer g w k) s = .next t ∧ SameMemory s t ∧ warp? t g w = some x ∧ x.regs = wp.regs ∧ x.pending = wp.pending ∧
          (∀ o ∈ x.outs, ∀ m y, o = .query m reg y → y.region ≠ q.region) ∧
          (∀ j v, (answer r q)[j]? = some v → .value l (reg + j) v ∈ x.outs) ∧
          ∀ o ∈ wp.outs, (∀ m y, o = .query m reg y → y.region ≠ q.region) → o ∈ x.outs) ∧
      ((∃ m y a, .query m reg y ∈ wp.outs ∧ y.region = q.region ∧ answerError s r y = some a) →
        ∃ t x, exec (.rangeLoadAnswer g w k) s = .next t ∧ SameMemory s t ∧ warp? t g w = some x ∧ x.regs = wp.regs ∧
          (∀ o ∈ x.outs, ∀ m y, o = .query m reg y → y.region ≠ q.region) ∧ (∀ m v, .value m reg v ∈ x.outs → .value m reg v ∈ wp.outs) ∧
          ∃ d ∈ x.deferred, d.1 = 0 ∧ d.2.code = .eccu)) ∧
    (wp.holds[i]? = some h →
      (∀ num op r, h.kind = .region num op → op ≤ 2 → region? s gr.ctx num = some r → (op ≠ 0 → r.bound = true ∧ r.recs = []) →
        (op = 2 → anyQuery s r = false → ∃ t, exec (.regionBuildComplete g w i) s = .next t ∧ region? t gr.ctx num = none) ∧
        (op = 2 → anyQuery s r = true → exec (.regionBuildComplete g w i) s = .next s) ∧
        (op < 2 → (op = 1 ∨ r.nonneg = false ∨ ∀ j, j < r.n → negLeaf r (leafVal s r j) = false) →
          ∃ t x, exec (.regionBuildComplete g w i) s = .next t ∧ region? t gr.ctx num = some x ∧ x.building = false ∧ x.recs = r.recs ∧
            (∀ j, j < r.n → x.leaves[j]? = some { v := leafVal s r j, i := j }) ∧ x.levels = buildLevels x 14 x.leaves ∧
            x.applied = if op = 0 then 0 else r.applied + 1) ∧
        ∀ e j, op = 0 → r.nonneg = true → heldEnv s g w h = some e → j < r.n → negLeaf r (leafVal s r j) = true →
          (∀ k, k < j → negLeaf r (leafVal s r k) = false) → ∃ u, exec (.regionBuildComplete g w i) s = .next (takeFault u g w
            (recordOf s e .orneg e.live (BitVec.ofNat 64 (r.base + j * Region.leaf r)) 0)) ∧ region? u gr.ctx num = none) ∧
      (∀ r, h.kind = .tfence r → (∀ x ∈ s.regions, (∀ n, r = some n → x.ctx = gr.ctx ∧ x.num = n) → recordsDue s g w x = false) →
        exec (.tfenceRelease g w i) s = .next (modWarp s g w (endHold h))) ∧
      (∀ m, h.kind = .wsync m → l1Pending s g w m = false → exec (.fenceRelease g w i) s = .next (modWarp s g w (endHold h))) ∧
      (∀ ord sc, h.kind = .fence ord sc → fenceReady s (dieOf gr.core) g w ord sc = true →
        (∀ hd o c, h.instr = some (.fence hd o c) →
          exec (.fenceRelease g w i) s = .next (modWarp (fenceEdges s (dieOf gr.core) g w h.live ord sc) g w (endHold h))) ∧
        ((∀ hd o c, h.instr ≠ some (.fence hd o c)) → exec (.fenceRelease g w i) s = .next (dropHold s g w h))))

/-- R224, R236, R273, R284, R286, R288, R289, R294, R307, R312 to R314, R317, R321, R322, R415, R416: the oldest operation of a
core with a chunk left issues it, alternating with the other core of its cluster; a chunk lands as its elements are written,
or with the status of what befell it, and then its bytes count; a landed chunk is credited to its barrier; a cancelled
operation issues no more; a matrix operation whose turn it is does its next row, or fails it on an uncorrectable error or on
a macro's parity, credits what it has read and leaves the queue; a macro that fails its parity, or idle its check, is
retired. -/
def Obligations.OperationsProceed : Prop :=
  ∀ (s : State) (op k : Nat),
    (∀ c : Copy, copy? s op = some c → c.parked = false → (∃ gr, group? s c.group = some gr ∧ gr.life = .resident) →
      (c.cancel ≠ 2 → c.next < c.chunks.length → (∀ x ∈ s.copies, x.core = c.core → x.id < c.id → hasChunk s x = false) →
        ((core s (2 * (c.core / 2))).ceLast ≠ c.core % 2 ∨ ∀ x ∈ s.copies, x.core / 2 = c.core / 2 → x.core ≠ c.core → hasChunk s x = false) →
        ∃ n, c.next < n ∧ n ≤ c.chunks.length ∧ (∀ j, c.next < j → j < n → j ∈ c.skip) ∧ (n < c.chunks.length → n ∉ c.skip) ∧
          exec (.chunkIssue op) s = .next (modCore (modCopy s op fun x => { x with next := n, flying := x.flying ++ [x.next] })
            (2 * (c.core / 2)) fun y => { y with ceLast := c.core % 2 }))) ∧
    (∀ c : Copy, copy? s op = some c → c.parked = false → (∃ gr, group? s c.group = some gr) →
      (c.cancel = 1 → exec (.cancelArrival op) s = .next (endCopy (modCopy s op fun x => { x with cancel := 2 }) op)) ∧
      (∀ b is size, c.barrier = some b → c.chunks[k]? = some (is, size) → b % 8 = 0 → k ∈ c.landing → (c.landing.filter (· != k) ≠ [] ∨ c.flying ≠ []) →
        ∃ t x, exec (.chunkCredit op k) s = .next t ∧ copy? t op = some x ∧ x = { c with landing := c.landing.filter (· != k) } ∧
          SameMemory s t ∧ leNat ((List.range 8).map fun j => spmAt t c.group (b + j)) =
            (leNat ((List.range 8).map fun j => spmAt s c.group (b + j)) + 2 ^ 64 - size % 2 ^ 64) % 2 ^ 64) ∧
      (∀ gr is size, group? s c.group = some gr → c.chunks[k]? = some (is, size) → k ∈ c.flying → c.flying.filter (· != k) ≠ [] →
        let es := is.filterMap fun i => c.elems[i]?
        let now := landingNow s c gr is
        let whole : Prop := ∀ i ∈ is, i ∈ c.part ∨ i ∈ now
        (∀ d ∈ chunkDests s gr es, heldAtSlice s d.1 d.2.1 d.2.2 = false) → fixedOf s gr.grid = false →
        (s.draw = 0 ∨ c.kind = 3 → whole) ∧ (∀ i ∈ now, i ∈ is ∧ i ∉ c.part) ∧
        (∀ st cd d, chunkTrouble s c gr is es = some (st, cd, d) → ∃ t x, exec (.chunkLanding op k) s = .next t ∧ copy? t op = some x ∧
          x.status = max c.status st ∧ x.flying = c.flying.filter (· != k) ∧ SameMemory s t ∧ ∀ a, spmAt t c.group a = spmAt s c.group a) ∧
        (chunkTrouble s c gr is es = none → ∃ t x, exec (.chunkLanding op k) s = .next t ∧ copy? t op = some x ∧
          (x.status = c.status ∨ x.status = max c.status 2) ∧
          (¬ whole → x.flying = c.flying ∧ x.part = c.part ++ now) ∧
          (whole → x.flying = c.flying.filter (· != k) ∧
            ∀ f y, sget? gr.futures (handleIndex c.handle) = some f → f.gen = handleGen c.handle → group? t c.group = some y →
              sget? y.futures (handleIndex c.handle) = some { f with landed := (f.landed + size) % 2 ^ 32 })))) ∧
    (∀ m gr, s.matops.find? (·.id == op) = some m → group? s m.group = some gr → matReady s m = true →
      (∀ c a, m.refused = some (c, a) → exec (.matrixOpTurn op) s =
        .next (modMat s op fun x => { x with started := true, done := x.done + 1, stat := max x.stat 6, err := some (c, a) })) ∧
      (m.refused = none →
        let fails (u : State) (a : DWord) : State := modMat u op fun x =>
          { x with started := true, done := x.done + 1, stat := max x.stat 3, err := some (.eccu, a) }
        (∀ a, pairError s m = some a → exec (.matrixOpTurn op) s = .next (fails s a)) ∧
        (∀ c, pairError s m = none → parityAt s m = some c → ∃ t, exec (.matrixOpTurn op) s = .next (fails t 0) ∧ c ∈ (core t m.core).retired ∧
          t.mgmt.posted = s.mgmt.posted ++ [[2, m.core, c]] ∧ SameMemory s t) ∧
        (pairError s m = none → parityAt s m = none →
          (∀ a, turnOf s gr m = .error a → exec (.matrixOpTurn op) s = .next (fails s a)) ∧
          ∀ u n, turnOf s gr m = .ok (u, n) → exec (.matrixOpTurn op) s =
            .next (retryAccept (modMat (mendPairs u m) op fun x => { x with started := true, done := x.done + 1, bytes := x.bytes + n }))))) ∧
    (∀ m gr, s.matops.find? (·.id == op) = some m → group? s m.group = some gr → m.parked = false → (m.stop = true ∨ MatKind.turns m.kind ≤ m.done) →
      (∀ b, m.barrier = some b → nextCredit s m < m.bytes → exec (.matrixOpComplete op) s =
        .next (modMat (creditBarrier s op m.group b (nextCredit s m)) op fun x => { x with bytes := x.bytes - nextCredit s m })) ∧
      (s.draw = 0 → nextCredit s m = m.bytes) ∧
      ((∀ b, m.barrier = some b → m.bytes ≤ nextCredit s m) → (∀ x, m.err = some x → x.1 ≠ .page) →
        ∃ t, exec (.matrixOpComplete op) s = .next t ∧ (∀ x ∈ t.matops, x.id ≠ op) ∧ (∀ x ∈ s.matops, x.id ≠ op → x ∈ t.matops) ∧
        ∀ a rows m0 i2 i3 ps hd planes f y, m.kind = .mul a rows m0 i2 i3 ps hd planes → m.err = none →
          sget? gr.futures (handleIndex hd) = some f → f.gen = handleGen hd → group? t m.group = some y →
          sget? y.futures (handleIndex hd) = some { f with live := false, res := true, stat := max m.stat (if m.stop = true ∧ m.done < rows then 1 else 0) })) ∧
    ∀ c, k ≤ 7 → (∀ m ∈ s.matops, m.core = c → m.parked = true) → k ∉ (core s c).retired →
      (Config.selfCheck s.tick (8 * c + k) = true → .column c k ∉ s.errs → exec (.macroSelfCheck c k) s = .next s) ∧
      (Config.selfCheck s.tick (8 * c + k) = false ∨ .column c k ∈ s.errs → c < s.cores.length → ∃ t, exec (.macroSelfCheck c k) s = .next t ∧ k ∈ (core t c).retired ∧
        t.mgmt.posted = s.mgmt.posted ++ [[2, c, k]] ∧ SameMemory s t)

/-- R123, R136, R219, R221, R222, R231, R238, R250, R251, R397: a pending write of a warp is performed at the L1 first and then
at its home, after those it follows; a write of the host or of a matched peer reaches device memory, none of it the pages of
a template or the backing of a region, which is reported as event kind 5, and a refused peer access as kind 8. A WAITA that
reads its locations again goes on once every one has met its condition, and at its limit in any case. -/
def Obligations.WritesArriveAndWaitsEnd : Prop :=
  ∀ (s : State) (g w i : Nat),
    (∀ p, s.pend[i]? = some p →
      (p.atL1 = false → ∃ t, exec (.writePerformed i) s = .next t ∧ SameMemory s t ∧ t = { s with pend := t.pend } ∧
        t.pend[i]? = some { p with atL1 := true }) ∧
      (p.atL1 = true → stuckWrite s p = false → (∀ q ∈ s.pend.take i, precedes s q p = false) → p ∉ s.pend.take i →
        exec (.writePerformed i) s = .next (performWrite { s with pend := s.pend.eraseIdx i } p) ∧
        (p.die < 5 → keySpace p.uncached p.addr ≤ 1 ∨ keySpace p.uncached p.addr = 11 → p.addr < 2 ^ 59 → ∀ k, k < p.data.length →
          homeByte (performWrite { s with pend := s.pend.eraseIdx i } p) (keySpace p.uncached p.addr) (p.addr % 2 ^ 58 + k) =
            p.data[k]?.getD 0))) ∧
    (∀ (a : Nat) (data : List Byte), a < 768 * 2 ^ 30 → a + data.length ≤ 768 * 2 ^ 30 → s.mgmt.linkUp = true → s.pend = [] → s.tmpls = [] →
      pinnedLines s = [] →
      (s.regions = [] → ∃ t, exec (.hostWrite a data) s = .next t ∧ ∀ k, homeByte t 0 k =
        if a ≤ k ∧ k < a + data.length then data[k - a]?.getD 0 else homeByte s 0 k) ∧
      (∀ r, backingOf s a data.length = some r → heldAtSlice s 0 a data.length = false →
        exec (.hostWrite a data) s = .next (postCtx s r.ctx 5 a 0 0 none))) ∧
    (∀ (a : Nat) (data : List Byte), 2 ^ 58 ≤ a → ∃ t, exec (.hostWrite a data) s = .next t ∧ ∀ k, homeByte t 1 k =
        if a - 2 ^ 58 ≤ k ∧ k < a - 2 ^ 58 + data.length then data[k - (a - 2 ^ 58)]?.getD 0 else homeByte s 1 k) ∧
    (∀ (port c : Nat) (va : DWord) (data : List Byte) (q : Port), s.ports[port]? = some q → q.up = true →
      ((∀ b ∈ q.bindings, b.1 = c → b.2.2 = false) → exec (.peerWrite port c va data) s = .next (postCtx s c 8 va.toNat 0 0 none)) ∧
      (∀ x f d0 d1, translate s 4 c (genOfCtx s c) va { kind := 1, need := 2 } = x → x = .bad f d0 d1 ∨ x = .hole →
        exec (.peerWrite port c va data) s = .next (postCtx s c 8 va.toNat 0 0 none)) ∧
      ∀ l, (∃ b ∈ q.bindings, b.1 = c ∧ b.2.2 = true) → translate s 4 c (genOfCtx s c) va { kind := 1, need := 2 } = .ok l → l.sys = false →
        va.toNat % 65536 + data.length ≤ 65536 → s.pend = [] → s.tmpls = [] → s.regions = [] → pinnedLines s = [] → l.addr + data.length ≤ 2 ^ 57 →
        ∃ t, exec (.peerWrite port c va data) s = .next t ∧ ∀ k, homeByte t 0 k =
          if l.addr ≤ k ∧ k < l.addr + data.length then data[k - l.addr]?.getD 0 else homeByte s 0 k) ∧
    ∀ (gr : Group) (h : HoldRec) (spm wide : Bool) (c : WaitCond) (d n : Nat) (timed watched : Bool) (ls : List Watch) (val : Nat → Nat → DWord) (e : Env),
      group? s g = some gr → gr.life = .resident → hold? s g w i = some h → h.kind = .waita spm wide c d timed watched n ls → heldEnv s g w h = some e →
      (∀ x ∈ ls, watchRead s gr spm wide x.addr x.lane = .ok (val x.lane x.addr)) →
      let now (x : Watch) : Watch := if x.done then x else { x with met := WaitCond.holds c wide (val x.lane x.addr) x.cmp, done := WaitCond.holds c wide (val x.lane x.addr) x.cmp }
      ∃ v, ReadNoted e s v ∧
      let on : State := modWarp (writeStatus v g w d (ls.map now)) g w (endHold h)
      ((∀ x ∈ ls, (now x).done = true) → exec (.waitaReread g w i) s = .next on ∧ exec (.waitaPoll g w i) s = .next on) ∧
      (timed = true → exec (.waitaTimeout g w i) s = .next on) ∧
      ((∃ x ∈ ls, (now x).done = false) → ∃ t, exec (.waitaReread g w i) s = .next t ∧ exec (.waitaPoll g w i) s = .next t ∧ SameMemory s t ∧
        ∃ x, warp? t g w = some x ∧ { h with kind := .waita spm wide c d timed watched n (ls.map now) } ∈ x.holds)

/-- R155, R158 to R163, R166, R168, R169, R171, R172: the first ready node in Lodestar's order starts its grids; a node whose
work is over completes and satisfies its edges; a host-wait node ends once its word has reached its value; a grid without a
dispatched group rises one level, to 3; a batch goes to a die as whole gangs; a die reports its free count and reserves
itself for the head it cannot place; a core converts its split with no group left; a stage closes its output queue; a loop
ends where its word is 0. -/
def Obligations.WorkProceeds : Prop :=
  ∀ (s : State),
    (∀ l c k i g n, firstServed s (readyNodes s) = some (l, c, k, i) → graph? s (k / 4096) = some g → node? s (k / 4096) i = some n → g.ended = false →
      (∀ r, startTrouble g i n = some r → ∃ u, exec .nodeStart s = .next (failNode u g.id i r) ∧ u = { s with graphs := u.graphs, codeOld := u.codeOld }) ∧
      (startTrouble g i n = none → n.kind ≤ 1 → ∃ t x y, exec .nodeStart s = .next t ∧ SameMemory s t ∧ t.grids = s.grids ++ [x] ∧
        x = nodeGrid g i n s.seqs ∧ node? t g.id i = some y ∧ y.life = .running ∧ y.grid = some s.seqs ∧ y.gens = gensAtStart s g.ctx) ∧
      (startTrouble g i n = none → n.kind = 2 → ∃ t xs, exec .nodeStart s = .next t ∧ SameMemory s t ∧ t.grids = s.grids ++ xs ∧
        xs.map (·.stage) = (List.range (stagesOf g i).length).map some ∧ xs.map (·.count) = (stagesOf g i).map (·.min) ∧
        ∀ x ∈ xs, x.graph = g.id ∧ x.node = i ∧ x.gangN = 1 ∧ x.next = 0) ∧
      (startTrouble g i n = none → 3 ≤ n.kind → ∃ t y, exec .nodeStart s = .next t ∧ SameMemory s t ∧ t.grids = s.grids ∧
        node? t g.id i = some y ∧ y.life = .running ∧ y.looping = false)) ∧
    (∀ g i (x : Graph) (n : Node), graph? s g = some x → node? s g i = some n → x.ended = false → x.failed = none →
      waiting s (.nodeCompletion g i) = false → waiting s (.hostWaitWatch g i) = false → waiting s (.loopBoundary g i) = false →
      let u := (List.range 4).foldl drainDie s
      (nodeOver s x i n = true → n.word = 0 → (∃ j ∈ topNodes x, j ≠ i ∧ nodeDone x j = false) → ∃ t y, exec (.nodeCompletion g i) s = .next t ∧
        SameMemory u t ∧ node? t g i = some y ∧ y.life = .done ∧
        ∀ (k v : Nat) (z : Node), n.succ[k]? = some v → v ≠ 0xFFFF → v % 4096 ≠ i → k < 8 → node? t g (v % 4096) = some z → 8 * i + k ∈ z.sat) ∧
      (n.kind = 4 → n.life = .running → devLinkDown s x.ctx (nodeGen s g i) n.k40 = false → ∀ b,
        devRead s x.ctx (nodeGen s g i) n.k40 8 8 = .ok b →
        (leNat b < n.k48.toNat → exec (.hostWaitWatch g i) s = .next s) ∧
        (n.k48.toNat ≤ leNat b → ∃ v, exec (.hostWaitWatch g i) s = .next (modNode { s with edges := v } g i fun y => { y with life := .ending }))) ∧
      (boundaryDue x i n = true → n.k56 = 0 → i ∉ bodyNodes n → ∀ b, devRead u x.ctx (fun r => if n.subscription = some r then adoption s n else nodeGen s g i r) n.k40 4 4 = .ok b →
        ∃ t y, exec (.loopBoundary g i) s = .next t ∧ SameMemory u t ∧ node? t g i = some y ∧ y.looping = true ∧ y.adopted = adoption s n ∧
          y.iter = (if n.looping = true then n.iter + 1 else 0) ∧ (leNat b = 0 → y.life = .ending) ∧
          (leNat b ≠ 0 → y.life = .running ∧ ∀ (j : Nat) (z : Node), j ∈ ownBody x i n → node? t g j = some z →
            z.sat = [] ∧ z.life = if z.deps = 0 then .ready else .waiting)) ∧
      (n.life = .running → exec (.stageReevaluation g i) s = .next (((stagesOf x i).drop 1).foldl (fun t y => match wantsGroup s x y with
        | some z => modGrid t z fun q => { q with count := q.count + 1 }
        | none => t) s)) ∧
      ∀ k y, n.life = .running → (stagesOf x i)[k]? = some y → stageOver s x y = true → ∃ t z, exec (.stageCompletion g i k) s = .next t ∧
        SameMemory s t ∧ graph? t g = some z ∧ (∀ q, (stagesOf z i)[k]? = some q → q.done = true) ∧
        (y.qout ≠ 0xFFFF → ∀ q, z.queues[y.qout]? = some q → q.closed = true)) ∧
    (∀ gd, grid? s gd.id = some gd → gridWaits s gd = true →
      (effPrio gd < 3 → exec (.priorityAgeing gd.id) s = .next (modGrid s gd.id fun x => { x with boost := x.boost + 1 })) ∧
      (3 ≤ effPrio gd → exec (.priorityAgeing gd.id) s = .next s)) ∧
    (∀ p x gd d, p < 8 → firstServed s (openGrids s p) = some x →
      (∀ q y, q < 8 → q ≠ p → firstServed s (openGrids s q) = some y → y.1 < x.1 ∨ (y.1 = x.1 ∧ p < q)) → grid? s x.2.2.2 = some gd →
      batchDie s gd = some d → 0 < batchSize s gd d → d < s.dies.length → 1 ≤ gd.gangN →
      ∃ t y, exec .lodestarBatch s = .next t ∧ SameMemory s t ∧ grid? t gd.id = some y ∧ y.next = gd.next + batchSize s gd d ∧ y.next ≤ gd.count ∧
        y.boost = 0 ∧ (die t d).queue.length = (die s d).queue.length + batchSize s gd d ∧
        (batchSize s gd d ≠ gd.count - gd.next → batchSize s gd d % gd.gangN = 0)) ∧
    (∀ d, exec (.freeCountReport d) s = .next (modDie s d fun x => { x with free := freeCount s d })) ∧
    (∀ d g, (queueHeads s d).find? (fun h => !(keptBack s d h || restoreFirst s d (groupPrio s h)) && (placeGang d (unitOfGroup s d h) s).isSome) = some g →
      ∃ t u, exec (.groupPlacement d) s = .next t ∧ placeGang d (unitOfGroup s d g) s = some u ∧ SameMemory s t ∧ t = { u with dies := t.dies } ∧
        (die t d).queue = (die u d).queue) ∧
    (∀ d g l, (l = 3 ∨ l = 2 ∨ l = 1 ∨ l = 0) → levelHead s d l = some g → stuckHead s d g = true →
      (∀ m h, l < m → m ≤ 3 → levelHead s d m = some h → stuckHead s d h = false) →
      exec (.gangReservation d) s = .next (modDie s d fun x => { x with reserved := some g })) ∧
    (∀ d c gr, wantsSplit s d = some c → splitHead s d = some gr →
      exec (.splitConversion d) s = .next (modCore s c fun k => { k with convert := some gr.split })) ∧
    ∀ c, (mayForce s c = true → exec (.splitForce c) s = .next ((((residentOn s c).filter (·.logits.isNone)).flatMap fun g => gangOf s g.id).foldl
        (fun t g => haltAndSave t g .split) s)) ∧
      ∀ sp, (core s c).convert = some sp → residentOn s c = [] → exec (.splitReassign c) s = .next (modCore s c fun k => { k with split := sp, convert := none })

/-- R322, R361 to R366, R402, R403: a pre-emption stops and saves the groups of a partition; a halted group that has quiesced
goes to its context's pool with its registers, and its holds end but for barriers, freezes and the like; a saved group takes
its place on a core of its split with its registers, program counters and holds as saved; a slice that ends saves the
outgoing function's groups, moves the functions assigned elsewhere, and begins the next entry whose function has ready work.
-/
def Obligations.SavesRestoresAndSlices : Prop :=
  ∀ (s : State),
    (∀ p, exec (.preemptionRequest p) s = .next ((groupsOfPart s p).foldl (fun t g => haltAndSave t g .preempt) (applyArrived s p))) ∧
    (∀ g gr, group? s g = some gr → gr.life = .halted → (quiesced s gr = false → gr.cause = some .preempt →
      exec (.framePoolSave g) s = .next (settleRegions s)) ∧
      ∀ cause base size o gr1, gr.cause = some cause → cause ≠ .deadlock → quiesced s gr = true →
        let u := (gr :: subsOf s g).foldl (fun t x => (List.range x.warps.length).foldl (fun v w => returnOuts v x.id w) t) (drainDie s (dieOf gr.core))
        group? u g = some gr1 → gr1.id = g → recordsWait u gr1 = false → framePool u gr1.ctx = .ok (base, size) →
        let f := frameBytes u gr1 cause
        poolFit (((ctx? u gr1.ctx).map (·.frames)).getD []) size ((f.length + 65535) / 65536 * 65536) = some o → frameHome u gr1.ctx (base + o) f.length = true →
        ∀ v, devWrite u gr1.ctx (genOfCtx u gr1.ctx) (BitVec.ofNat 64 (base + o)) 1 f = .ok v →
        ∃ t x, exec (.framePoolSave g) s = .next t ∧ group? t g = some x ∧ x.life = .saved ∧ x.frame = some (base + o, f.length) ∧
          (∀ (w : Nat) (y : Warp), gr1.warps[w]? = some y → ∃ z, x.warps[w]? = some z ∧ z.regs = y.regs ∧ z.tags = y.tags ∧
            ((∀ h ∈ y.holds, h.kind ≠ .sleep) → z.pending = y.pending ∧ z.parked = y.parked) ∧ ∀ h ∈ z.holds, h.kind.stays = true) ∧
          (v.regions = [] → SameMemory v t)) ∧
    (∀ g c gr, group? s g = some gr → gr.id = g → (∀ o w l, gr.kind ≠ .subgroup o w l) → canRestore s gr c = true →
      (∀ x ∈ s.copies, x.group ≠ g) → (∀ x ∈ s.matops, x.group ≠ g) → gr.savedSlots = [] → (∀ x ∈ gr.warps, x.handler = none) → pinsIn s (c / 2) ≤ 1024 →
      ∃ t x, exec (.groupRestore g c) s = .next t ∧ SameMemory s t ∧ group? t g = some x ∧ x.life = .resident ∧ x.core = c ∧ x.cause = none ∧
        x.frame = none ∧ ∀ (w : Nat) (y : Warp), gr.warps[w]? = some y → ∃ z, x.warps[w]? = some z ∧ z.regs = y.regs ∧ z.lanes = y.lanes ∧
          z.pending = y.pending ∧ z.holds = y.holds) ∧
    ∀ p, (sliceMayEnd s p = false → exec (.quantumSliceEnd p) s = .next s) ∧
      ∀ i, p < s.parts.length → nextEntry s p = some i → ((sliceEntries s p)[i]?).map (fun x => x.2.2) ≠ sliceFn s p → s.regions = [] →
        exec (.quantumSliceEnd p) s = .next (settleRegions (moveFns (modPart
          ((groupsOfFn s p (sliceFn s p)).foldl (fun t g => haltAndSave t g .slice) s) p fun x => { x with current := i }) p)) ∧
        (groupsOfFn s p (sliceFn s p) = [] → ∃ t, exec (.quantumSliceEnd p) s = .next t ∧ SameMemory s t ∧ (partAt t p).current = i ∧
          ∀ (k : Nat) (f : Fn), s.fns[k]? = some f → ∃ y, t.fns[k]? = some y ∧ y.part = if f.part = p then f.nextPart.getD p else f.part)

/-- R387 to R394: ENABLE settles each version as the lower of the offer and what is implemented, refuses an offer below the
oldest, and readies the function; clearing it stops a function without commands in progress; the tail word names the new
entries, read in ring order; an entry of an unknown opcode completes with status 2; a completion and an event take the next
free slot of their rings in host memory, with the phase of the pass. -/
def Obligations.RingsAndRegistersAct : Prop :=
  ∀ (s : State) (i q : Nat) (f : Fn), i < s.fns.length → fn s i = f →
    (s.mgmt.linkUp = true →
      (f.enable = false ∨ f.ready = false → f.offered.length = 3 → ∃ t, exec (.functionEnable i) s = .next t ∧ SameMemory s t ∧ t = { s with fns := t.fns } ∧
        (fn t i).enable = true ∧ (∀ (k o : Nat) (v : Nat × Nat), f.offered[k]? = some o → recordVersions[k]? = some v →
          (fn t i).chosen[k]? = some (if o < v.2 then 0 else min o v.1)) ∧
        ((fn t i).ready = true ↔ ∀ (k o : Nat) (v : Nat × Nat), f.offered[k]? = some o → recordVersions[k]? = some v → v.2 ≤ o)) ∧
      (f.enable = true → ∃ t, exec (.functionDisable i) s = .next t ∧ SameMemory s t ∧ t = { s with fns := t.fns } ∧ (fn t i).enable = false ∧
        (fn t i).overflow = false ∧ ((∀ x ∈ f.queues, x.cmds = [] ∧ x.busy = [] ∧ x.held = []) → (fn t i).ready = false)) ∧
      (∀ a, exec (.functionRegisterWrite i 0x50 (leBytes 8 a)) s = .next (modFn s i fun x => putRegisters ((fnPage s i).mapIdx fun o b =>
          if 0x50 ≤ o ∧ o < 0x58 then (leBytes 8 a)[o - 0x50]?.getD 0 else b) x)) ∧
      ∀ o data, (∀ k, k < data.length → hostWritable (o + k) = false) →
        exec (.functionRegisterWrite i o data) s = .next (modFn s i fun x => putRegisters (fnPage s i) x)) ∧
    (s.mgmt.linkUp = true → f.enable = true → f.ready = true → ∀ p, f.queues.find? (·.num == q) = some p →
      let tail := field (homeBytes s 1 p.tail 8) 0 4
      let n := (tail + 2 ^ 32 - p.read % 2 ^ 32) % 2 ^ 32
      let all := (List.range n).foldl (fun t _ => takeEntry i q t) s
      (cxl s = true → exec (.tailReread i q) s = .next all ∧ exec (.tailPoll i q) s = .next s) ∧
      (cxl s = false → exec (.tailPoll i q) s = .next all ∧ exec (.tailReread i q) s = .next s) ∧
      let b := homeBytes s 1 (p.sub + 64 * (p.read % 2 ^ p.subLog)) 64
      let c := cmdOf i q p.read b
      (field b 1 1 < 2 → cmdInstr c = none → takeEntry i q s =
        complete (modQueue s i q fun x => { x with read := x.read + 1, busy := x.busy ++ [p.read] }) c 2 0) ∧
      ∀ j, field b 1 1 < 2 → cmdInstr c = some j →
        (c.ordered = false ∨ (p.busy = [] ∧ p.cmds = []) → ∃ t, takeEntry i q s = t ∧ t.agenda = s.agenda ++ [j]) ∧
        (c.ordered = true → p.busy ≠ [] → (takeEntry i q s).agenda = s.agenda ∧ SameMemory s (takeEntry i q s))) ∧
    (s.mgmt.linkUp = true → f.ready = true → (∀ p x rest, f.queues.find? (·.num == q) = some p → p.held = x :: rest → x.length = 16 →
        (p.posted < 2 ^ p.compLog ∨ Config.hostTook s.tick p.posted = true) → s.pend = [] →
        ∃ t, exec (.completionPost i q) s = .next t ∧
          homeBytes t 1 (p.comp + 16 * (p.posted % 2 ^ p.compLog)) 16 =
            x.take 5 ++ [if p.posted / 2 ^ p.compLog % 2 = 0 then 1 else 0] ++ leBytes 2 (p.read % 2 ^ p.subLog) ++ x.drop 8 ∧
          ∃ y, (fn t i).queues.find? (·.num == q) = some y ∧ y.held = rest ∧ y.posted = p.posted + 1) ∧
      ∀ x rest, f.events = x :: rest → x.length = 128 →
        let size := 2 ^ (f.sizes.extractLsb' 8 4).toNat
        (f.evPosted < size ∨ Config.hostTook s.tick f.evPosted = true) → ∃ t, exec (.heldEventPost i) s = .next t ∧
          homeBytes t 1 (f.evRing + 128 * (f.evPosted % size)) 128 = x.take 1 ++ [if f.evPosted / size % 2 = 0 then 128 else 0] ++ x.drop 2 ∧
          (fn t i).events = rest ∧ (fn t i).evPosted = f.evPosted + 1) ∧
    ∀ (port c : Nat) (p : Port), s.ports[port]? = some p → p.up = true → ∃ t x, exec (.peerBindingMatch port c) s = .next t ∧
      t = { s with ports := t.ports } ∧ t.ports[port]? = some x ∧
      x.bindings = p.bindings.map fun b => if b.1 = c then (b.1, b.2.1, true) else b

/-- R157, R158, R160, R389, R391 to R393, R395, R396, R399 to R403, R376: a command of its queue, function and format that uses
only its own operands has the effect of its opcode and completes with status 0, SUBMIT_GRAPH when its graph does and a slot
command at a boundary; what is malformed completes with status 1, exhausted resources with 3, a malformed graph with 4, a
permission it lacks with 6. -/
def Obligations.CommandsAct : Prop :=
  ∀ (s : State) (c : Cmd),
    let t := takeCmd s c
    let right (i : Cmd → Instr) (used : List (Nat × Nat)) : Prop := cmdTrouble s c used = none ∧ cmdInstr c = some (i c)
    let ends (i : Cmd → Instr) (u : State) (st res : Nat) : Prop := exec (i c) s = .next (complete u c st res)
    let own : Prop := ∃ x, ctx? t c.ctx = some x ∧ x.fn = c.fn
    -- status of what is not right, of every command
    (∀ i used st, (i, used) ∈ [(Instr.createContext, [(8, 8), (16, 8)]), (Instr.destroyContext, []), (Instr.createQueue, [(8, 8), (16, 8), (24, 8), (32, 1)]),
        (Instr.submitGraph, [(8, 8)]), (Instr.cancelGraph, [(8, 4)]), (Instr.addSlot, [(8, 4), (12, 2), (14, 2)]), (Instr.removeSlot, [(8, 4), (12, 2), (14, 2)]),
        (Instr.createRange, [(8, 1), (12, 4), (16, 32)]), (Instr.mapRange, [(8, 1), (16, 8), (24, 8)]), (Instr.bindPeer, [(8, 1), (12, 2)]),
        (Instr.setQuantum, [(8, 1), (9, 1), (16, 8)]), (Instr.assignFunction, [(8, 1), (9, 1)]), (Instr.resume, [(8, 8)]), (Instr.pageReady, [(8, 8), (16, 8)])] →
      c.queue ≠ 64 → cmdTrouble s c used = some st → ends i t st 0) ∧
    (right .createContext [(8, 8), (16, 8)] → c.ctx = 0 →
      (cmdArg c 8 8 % 4096 ≠ 0 ∨ cmdArg c 16 8 % 64 ≠ 0 → ends .createContext t 1 0) ∧
      (cmdArg c 8 8 % 4096 = 0 → cmdArg c 16 8 % 64 = 0 → t.mgmt.linkUp = true → (∀ n, 1 ≤ n → n ≤ 4095 → (ctx? t n).isSome = true) → ends .createContext t 3 0) ∧
      ∀ n, cmdArg c 8 8 % 4096 = 0 → cmdArg c 16 8 % 64 = 0 → t.mgmt.linkUp = true → 1 ≤ n → n ≤ 4095 → ctx? t n = none →
        (∀ m, 1 ≤ m → m < n → (ctx? t m).isSome = true) →
        ends .createContext { t with ctxs := sput t.ctxs n (imageCtx n c.fn (cmdArg c 8 8) (homeBytes t 1 (cmdArg c 16 8) 64)) } 0 n) ∧
    (right .destroyContext [] → (own → ends .destroyContext (discardCtx t c.ctx 6) 0 0) ∧ (¬ own → ends .destroyContext t 1 0)) ∧
    (right .createQueue [(8, 8), (16, 8), (24, 8), (32, 1)] → c.ctx = 0 → cmdArg c 8 8 % 64 = 0 → cmdArg c 16 8 % 16 = 0 → cmdArg c 24 8 % 64 = 0 →
      4 ≤ cmdArg c 32 1 % 16 → 4 ≤ cmdArg c 32 1 / 16 → ∀ n, freeQueue (fn t c.fn) = some n → ∃ x : QPair,
        ends .createQueue (modFn t c.fn fun f => { f with queues := f.queues ++ [x] }) 0 n ∧ x.num = n ∧ x.sub = cmdArg c 8 8 ∧ x.comp = cmdArg c 16 8 ∧
        x.tail = cmdArg c 24 8 ∧ x.subLog = cmdArg c 32 1 % 16 ∧ x.compLog = cmdArg c 32 1 / 16 ∧ x.read = 0 ∧ x.posted = 0) ∧
    (right .submitGraph [(8, 8)] → (¬ own → ends .submitGraph t 1 0) ∧
      (own → ∀ r, checkGraph t c.ctx ((fn t c.fn).chosen[1]?.getD 0) (BitVec.ofNat 64 (cmdArg c 8 8)) = .ok r →
        (∀ n, r = .error n → ∃ u, exec (.submitGraph c) s = .next u ∧ SameMemory s u ∧ ∃ g, u.graphs = s.graphs ++ [g] ∧ g.ended = true ∧ g.nodes = [] ∧
          ∀ p f, fn t c.fn = f → c.fn < s.fns.length → f.queues.find? (·.num == c.queue) = some p → ∃ y,
            (fn u c.fn).queues.find? (·.num == c.queue) = some y ∧ y.held = p.held ++ [completionEntry c.id 4 (n + 65536)]) ∧
        ∀ g, r = .ok g → ∃ u x, exec (.submitGraph c) s = .next u ∧ SameMemory s u ∧ u.graphs = s.graphs ++ [x] ∧ x.cmd = c ∧ x.ctx = c.ctx ∧
          x.queues = g.2.1 ∧ x.nodes.length = g.1.length ∧ x.ended = false ∧ x.failed = none)) ∧
    (right .cancelGraph [(8, 4)] → c.ctx = 0 → (∀ g, liveGraph t c.fn (cmdArg c 8 4) = some g → ends .cancelGraph (failGraph (modGraph t g.id fun x => { x with cancelled := true }) g 6) 0 0) ∧
      (liveGraph t c.fn (cmdArg c 8 4) = none → ends .cancelGraph t 0 0)) ∧
    (∀ add, right (if add = true then .addSlot else .removeSlot) [(8, 4), (12, 2), (14, 2)] → c.ctx = 0 → ∀ g n k,
      liveGraph t c.fn (cmdArg c 8 4) = some g → g.nodes[cmdArg c 12 2]? = some n →
      let i : Cmd → Instr := if add = true then .addSlot else .removeSlot
      (n.kind ≠ 3 ∨ n.k56 = 0 → ends i t 1 0) ∧
      (n.kind = 3 → n.k56 ≠ 0 → slotCount t g (cmdArg c 12 2) n.k56 = .ok k → k ≤ cmdArg c 14 2 → ends i t 1 0) ∧
      (n.kind = 3 → n.k56 ≠ 0 → slotCount t g (cmdArg c 12 2) n.k56 = .ok k → cmdArg c 14 2 < k → exec (i c) s = .next (modGraph t g.id fun x =>
        { x with slotCmds := x.slotCmds ++ [{ cmd := c, node := cmdArg c 12 2, slot := cmdArg c 14 2, add := add, applied := false }] }))) ∧
    (right .createRange [(8, 1), (12, 4), (16, 32)] → c.ctx = 0 → ∀ r : VRange, r.num = cmdArg c 8 1 → r.fn = c.fn → r.size = cmdArg c 12 4 →
      r.bases = (List.range 4).map (fun k => cmdArg c (16 + 8 * k) 8) → r.slots = [(.staging, 0), (.free, 0), (.free, 0), (.free, 0)] → r.last = none →
      (r.num ≤ 63 → range? t r.num = none → r.size ≠ 0 → r.size % 65536 = 0 → (∀ b ∈ r.bases, b % 65536 = 0 ∧ b + r.size ≤ 768 * 2 ^ 30) →
        ends .createRange { t with ranges := t.ranges ++ [r] } 0 0) ∧
      (63 < r.num ∨ (range? t r.num).isSome = true ∨ r.size = 0 ∨ r.size % 65536 ≠ 0 → ends .createRange t 1 0)) ∧
    (right .mapRange [(8, 1), (16, 8), (24, 8)] → own → ∀ r, range? t (cmdArg c 8 1) = some r → (r.fn ≠ c.fn → ends .mapRange t 6 0) ∧
      (r.fn = c.fn → cmdArg c 16 8 % 65536 = 0 → cmdArg c 24 8 % 65536 = 0 → ends .mapRange (modCtx t c.ctx fun x =>
        { x with maps := (x.maps.filter fun m => m.1 != cmdArg c 8 1) ++ [(cmdArg c 8 1, cmdArg c 16 8, cmdArg c 24 8)] }) 0 0)) ∧
    (right .bindPeer [(8, 1), (12, 2)] → own → ∀ q : Port, t.ports[cmdArg c 8 1]? = some q → 1 ≤ cmdArg c 12 2 → cmdArg c 12 2 ≤ 4095 →
      let here := (partAt t (partOfCtx t c.ctx)).ports.getLsbD (cmdArg c 8 1)
      let others := q.bindings.filter fun b => b.1 != c.ctx
      (here = false → ends .bindPeer t 6 0) ∧ (here = true → 16 ≤ others.length → ends .bindPeer t 3 0) ∧
      (here = true → others.length < 16 → ends .bindPeer { t with ports := modAt t.ports (cmdArg c 8 1) fun x => { x with bindings := others ++ [(c.ctx, cmdArg c 12 2, false)] } } 0 0)) ∧
    (right .setQuantum [(8, 1), (9, 1), (16, 8)] → c.ctx = 0 → cmdArg c 8 1 ≤ 7 → cmdArg c 9 1 ≤ 32 → t.mgmt.linkUp = true → ∀ es,
      (List.range (cmdArg c 9 1)).map (fun i => quantumEntry (field (homeBytes t 1 (cmdArg c 16 8 + 8 * i) 8) 0 8)) = es.map some →
      ends .setQuantum (newTable t (cmdArg c 8 1) es) 0 0) ∧
    (right .repartition [(16, 8)] → c.ctx = 0 → c.args.length ≤ 56 → t.mgmt.linkUp = true → (fn t c.fn).going = [] → c.fn < s.fns.length →
      let d : Cmd := { c with args := c.args ++ homeBytes t 1 (cmdArg c 16 8) 64 }
      exec (.repartition c) s = .next (runRepartition (modFn t c.fn fun f => { f with going := f.going ++ [d] }) d)) ∧
    (right .assignFunction [(8, 1), (9, 1)] → c.ctx = 0 →
      let ok : Prop := 1 ≤ cmdArg c 8 1 ∧ cmdArg c 8 1 ≤ 32 ∧ cmdArg c 9 1 ≤ 7 ∧ (partAt t (cmdArg c 9 1)).halves ≠ 0
      (¬ ok → ends .assignFunction t 1 0) ∧
      (ok → ends .assignFunction (modFn t (cmdArg c 8 1) fun x => { x with nextPart := if x.part = cmdArg c 9 1 then none else some (cmdArg c 9 1) }) 0 0)) ∧
    (right .resume [(8, 8)] → c.queue ≠ 64 → own → (∀ x, ctx? t c.ctx = some x → x.id = c.ctx) → ends .resume { t with groups := t.groups.map fun g =>
      if g.2.ctx = c.ctx then (g.1, { g.2 with warps := g.2.warps.map (resumeWarp (cmdArg c 8 8)) }) else g } 0 0) ∧
    -- the management processor's own resumption stands in queue 64, which no function has
    (c.queue = 64 → ∀ x, ctx? s c.ctx = some x → x.fn = c.fn → x.id = c.ctx → exec (.resume c) s = .next { s with groups := s.groups.map fun g =>
      if g.2.ctx = c.ctx then (g.1, { g.2 with warps := g.2.warps.map (resumeWarp (cmdArg c 8 8)) }) else g }) ∧
    (right .pageReady [(8, 8), (16, 8)] → own → (∀ x, ctx? t c.ctx = some x → x.id = c.ctx) → cmdArg c 16 8 = 0 → ∃ u, ends .pageReady u 0 0 ∧ SameMemory s u ∧
      (∀ (k : Nat) (g : Group), group? t k = some g → g.ctx = c.ctx → g.life = .saved → g.cause = some .page → ∀ va kind,
        g.waitVa = some (va, kind, false) → va.toNat / 65536 = cmdArg c 8 8 / 65536 → group? u k = some { g with waitVa := none }) ∧
      ∀ x ∈ u.waits, ¬ (x.2.1 = c.ctx ∧ x.2.2.toNat / 65536 = cmdArg c 8 8 / 65536))

/-! ## What comes from outside: resets, links, the management port, the debugger -/

/-- R385, R396, R398, R405 to R408, R410, R414: a reset of the physical function leaves no context, group, queue or unperformed
write, the host memory, the peer ports and the clock's count as they were, and a waiting firmware image active; a reset of a
virtual function discards what is its own; power-up leaves the reset state but for host memory, the firmware and what is
free; the loss of the host link drops the writes and loads that had not been answered, its return clears every READY; a port
or die-to-die link changes likewise. -/
def Obligations.ResetsAndLinksAct : Prop :=
  ∀ (s : State),
    (∀ i, i = Instr.functionLevelReset 0 ∨ i = .hotReset → ∃ t, exec i s = .next t ∧ t.groups = [] ∧ t.ctxs = [] ∧ t.grids = [] ∧ t.graphs = [] ∧
      t.regions = [] ∧ t.ranges = [] ∧ t.copies = [] ∧ t.matops = [] ∧ t.pend = [] ∧ t.l2 = [] ∧ t.issue = [] ∧ t.timebase = s.timebase ∧
      t.mgmt.needReset = false ∧ t.mgmt.frozen = none ∧ t.mgmt.bankActive = (if s.mgmt.switch = true then s.mgmt.bankOther else s.mgmt.bankActive) ∧
      (t.ports.map (·.up)) = s.ports.map (·.up) ∧ (∀ p ∈ t.ports, p.bindings = []) ∧ (∀ f ∈ t.fns, f.queues = [] ∧ f.ready = false ∧ f.enable = false) ∧
      (∀ d ∈ t.dies, d.off = false) ∧ t.parts = State.reset.parts ∧ (s.pend = [] → t.hostMem = s.hostMem)) ∧
    (∀ f, 1 ≤ f → f ≤ 32 → ∃ t, exec (.functionLevelReset f) s = .next t ∧ (∀ c, (∃ x, ctx? s c = some x ∧ x.fn = f) → ctx? t c = none) ∧
      (∀ r ∈ t.ranges, r.fn ≠ f) ∧ (f < s.fns.length → (fn t f).queues = [] ∧ (fn t f).ready = false ∧ (fn t f).part = (fn s f).part)) ∧
    (∃ t, exec .powerUp s = .next t ∧ t.hostMem = s.hostMem ∧ t.variantC = s.variantC ∧ t.mem = [] ∧ t.timebase = 0 ∧ t.ctxs = [] ∧ t.groups = [] ∧
      t.fns = State.reset.fns ∧ t.parts = State.reset.parts ∧ t.ports = State.reset.ports ∧
      t.mgmt.limit = (if s.variantC = true then 600 else 1000) ∧ ∀ d ∈ t.dies, d.clock = if s.variantC = true then 950 else 1300) ∧
    (s.mgmt.linkUp = false → exec .hostLinkLoss s = .next s) ∧
    (s.mgmt.linkUp = true → (∀ x ∈ s.ctxs, x.2.preempt.getLsbD 0 = false) → ∃ t, exec .hostLinkLoss s = .next t ∧ t.mgmt.linkUp = false ∧
      t.mgmt.posted = s.mgmt.posted ++ [[1]] ∧ t.mem = s.mem ∧ t.hostMem = s.hostMem ∧
      (∀ p ∈ s.pend, p ∈ t.pend ↔ ¬ (p.die < 4 ∧ keySpace p.uncached p.addr = 1)) ∧
      ∀ p ∈ s.pend, p.die < 4 → keySpace p.uncached p.addr = 1 → cxl s = false → ∀ x y, warp? s p.group p.warp = some x → warp? t p.group p.warp = some y →
        ∃ r ∈ y.deferred, r.1 = 0 ∧ r.2.code = .linklost) ∧
    (s.mgmt.linkUp = true → (∀ x ∈ s.ctxs, x.2.preempt.getLsbD 0 = false) → ∃ t, exec .hostLinkLoss s = .next t ∧ ∀ a ∈ s.away, a.space = 1 →
      ∀ x y, warp? s a.group a.warp = some x → (∃ o ∈ x.outs, Away.owns a o = true) → warp? t a.group a.warp = some y →
        (∀ o ∈ y.outs, Away.owns a o = false) ∧ ∃ r ∈ y.deferred, r.1 = 0 ∧ r.2.code = .linklost) ∧
    (∀ mode, 1 ≤ mode → mode ≤ 4 → s.mgmt.linkUp = false → ∃ t, exec (.hostLinkReturn mode) s = .next t ∧ t.mgmt.linkUp = true ∧ t.mgmt.linkMode = mode ∧
      (∀ f ∈ t.fns, f.ready = false) ∧ t.fns.map (·.enable) = s.fns.map (·.enable) ∧ t.fns.map (·.queues) = s.fns.map (·.queues) ∧ t.fns.map (·.events) = s.fns.map (·.events)) ∧
    (∀ (port : Nat) (q : Port), s.ports[port]? = some q → port < 8 →
      (q.up = true → ∃ t x, exec (.peerPortDown port) s = .next t ∧ t.ports[port]? = some x ∧ x.up = false ∧ (∀ b ∈ x.bindings, b.2.2 = false) ∧
        (∀ p ∈ t.pend, ¬ (p.die < 4 ∧ keySpace p.uncached p.addr = 3 + port)) ∧ ∀ c ∈ t.copies, c.kind = 3 → field c.block 2 1 = port → c.lost = true) ∧
      (q.up = false → ∀ v, (0x10000 ≤ v → ∃ t x, exec (.peerPortTraining port v) s = .next t ∧ t.ports[port]? = some x ∧ x.up = true ∧ x.bindings = q.bindings) ∧
        (v < 0x10000 → ∃ t, exec (.peerPortTraining port v) s = .next t ∧ t.ports = s.ports ∧ t = { s with fns := t.fns }))) ∧
    ∀ a b, a ≤ 3 → b ≤ 3 → a ≠ b → s.dies.length = 4 → ∃ t, exec (.dieLinkDown a b) s = .next t ∧ t.mgmt.needReset = true ∧ (∀ c, ctx? s c ≠ none → ctx? t c = none) ∧
      b ∈ (die t a).linkDown ∧ a ∈ (die t b).linkDown ∧ t.mgmt.posted = s.mgmt.posted ++ [[6, a, b]]

/-- R2, R125, R359, R360, R410 to R412, R417: a management message of version 1.0 has its effect, one of another version is
answered with an error: monitoring and attestation post what they are asked for; a power limit holds at most the variant's;
firmware goes to the inactive bank; a freeze stops the clocks, and one that wrote nothing can be released; a halted core
issues nothing and a resumed one issues its BRKPTs again; power and thermal caps step the clocks within their bounds, and a
critical temperature powers the compute domains off. Each changes nothing else. -/
def Obligations.ManagementActs : Prop :=
  ∀ (s : State),
    let v := s.mgmt.versions.headD 0x10000
    let m : Mgmt := { s.mgmt with versions := s.mgmt.versions.tail }
    let asked (i : Instr) (u : State) : Prop := (v = 0x10000 → exec i s = .next u) ∧
      (v ≠ 0x10000 → exec i s = .next { s with mgmt := { m with posted := m.posted ++ [[8, v]] } })
    (∃ xs, asked .pldmMonitoring { s with mgmt := { m with posted := m.posted ++ [4 :: xs] } } ∧
      xs = (List.range 5).map (Config.sensor s.tick) ++ s.dies.map (·.clock) ++ s.mgmt.corrected ++ s.mgmt.uncorrected ++
        (s.cores.filter fun c => !c.2.retired.isEmpty).flatMap (fun c => c.1 :: c.2.retired.length :: c.2.retired) ++
        (if s.mgmt.linkUp = true then 1 else 0) :: s.ports.map fun p => if p.up then 1 else 0) ∧
    asked .spdmAttestation { s with mgmt := { m with posted := m.posted ++ [[5, sha256 s.mgmt.bankActive, sha256 s.mgmt.bankOther,
      sha256 Config.fuses, sha256 (tableInForce s)]] } } ∧
    (∀ n, asked (.powerLimitSet n) { s with mgmt := { m with limit := min n (if s.variantC = true then 600 else 1000) } }) ∧
    (∀ f on, asked (.reducedPrecisionSet f on) { s with mgmt := m, fns := modAt s.fns f fun x => { x with reduced := on } }) ∧
    (∀ image ok, asked (.firmwareUpdate image ok) { s with mgmt := { m with bankOther := image, switch := ok } }) ∧
    (∀ wrote, ∃ b, exec (.freezeRequest wrote) s = .next { s with mgmt := { s.mgmt with frozen := some b } } ∧
      (b = true ↔ wrote = true ∨ s.mgmt.frozen = some true)) ∧
    (s.mgmt.frozen ≠ some true → exec .freezeRelease s = .next { s with mgmt := { s.mgmt with frozen := none } }) ∧
    (s.mgmt.frozen = some true → exec .freezeRelease s = .next s) ∧
    (∀ c, ∃ t, exec (.coreHalt c) s = .next t ∧ t = { s with cores := t.cores } ∧ (∀ k, core t k = if k = c then { core s c with halted := true } else core s k) ∧
      exec (.warpIssueChoice c) t = .next t) ∧
    (∀ c, ∃ t, exec (.coreResume c) s = .next t ∧ t = { s with cores := t.cores, groups := t.groups } ∧ (core t c).halted = false ∧
      ∀ g gr, group? s g = some gr → ∃ up, group? t g = some up ∧ { up with warps := gr.warps } = gr ∧
        (gr.core = c → gr.life = .resident → ∀ w ∈ up.warps, ∀ h ∈ w.holds, h.kind ≠ .brkpt) ∧ (gr.core ≠ c → up = gr)) ∧
    (∀ watts (d : Nat) (x : Die), s.dies[d]? = some x → ∃ t y, exec (.powerCapStep watts) s = .next t ∧ t = { s with dies := t.dies } ∧ t.dies[d]? = some y ∧
      { y with clock := x.clock } = x ∧ (s.mgmt.limit < watts → y.clock = max 500 (x.clock - 25)) ∧ (watts = s.mgmt.limit → y = x) ∧
      (watts < s.mgmt.limit → y.clock = min (if s.variantC = true then 950 else 1300) (x.clock + 25))) ∧
    (∀ d, exec (.thermalCap d) s = .next { s with dies := modAt s.dies d fun x => { x with clock := max 500 (x.clock - 25) } }) ∧
    ∀ d, exec (.criticalTemperature d) s = .next { s with dies := s.dies.map (fun x => { x with off := true })
                                                          mgmt := { s.mgmt with needReset := true, posted := s.mgmt.posted ++ [[3, d]] } }
end

