-- ==== Sys2Proof/Laws/Encoding.lean ====
section
/-! SUPPORT. The fields of a word: unpacking what was packed gives the fields back, and each field of M reads as the
encoder put it together. -/

namespace Sys2Proof

theorem b2n_lt (b : Bool) : b2n b < 2 := by cases b <;> decide

theorem b2n_eq_one (b : Bool) : (b2n b == 1) = b := by cases b <;> rfl

/-- The number that `pack` turns into a word. -/
def packNat (f : Full) : Nat :=
  b2n f.mark * 2 ^ 63 + f.op.toNat * 2 ^ 54 + f.d.toNat * 2 ^ 46 + f.a.toNat * 2 ^ 38
    + f.b.toNat * 2 ^ 30 + f.c.toNat * 2 ^ 22 + f.g.toNat * 2 ^ 14 + b2n f.gn * 2 ^ 13 + b2n f.ge * 2 ^ 12 + f.m.toNat

theorem packNat_parts (f : Full) :
    packNat f < 2 ^ 64 ∧ packNat f / 2 ^ 63 % 2 ^ 1 = b2n f.mark ∧ packNat f / 2 ^ 62 % 2 ^ 1 = 0 ∧
    packNat f / 2 ^ 54 % 2 ^ 8 = f.op.toNat ∧ packNat f / 2 ^ 46 % 2 ^ 8 = f.d.toNat ∧ packNat f / 2 ^ 38 % 2 ^ 8 = f.a.toNat ∧
    packNat f / 2 ^ 30 % 2 ^ 8 = f.b.toNat ∧ packNat f / 2 ^ 22 % 2 ^ 8 = f.c.toNat ∧ packNat f / 2 ^ 14 % 2 ^ 8 = f.g.toNat ∧
    packNat f / 2 ^ 13 % 2 ^ 1 = b2n f.gn ∧ packNat f / 2 ^ 12 % 2 ^ 1 = b2n f.ge ∧ packNat f / 2 ^ 0 % 2 ^ 12 = f.m.toNat := by
  have h1 := b2n_lt f.mark
  have h2 := f.op.isLt
  have h3 := f.d.isLt
  have h4 := f.a.isLt
  have h5 := f.b.isLt
  have h6 := f.c.isLt
  have h7 := f.g.isLt
  have h8 := b2n_lt f.gn
  have h9 := b2n_lt f.ge
  have h10 := f.m.isLt
  unfold packNat
  omega

theorem wbits_pack (f : Full) (lo n : Nat) : wbits (pack f) lo n = packNat f / 2 ^ lo % 2 ^ n := by
  have : (pack f).toNat = packNat f := by
    rw [pack, BitVec.toNat_ofNat]
    exact Nat.mod_eq_of_lt (packNat_parts f).1
  rw [wbits, this]

theorem ofNat_toNat {n : Nat} (x : BitVec n) : BitVec.ofNat n x.toNat = x := by simp

theorem unpack_pack (f : Full) : unpack (pack f) = f := by
  obtain ⟨-, h1, -, h2, h3, h4, h5, h6, h7, h8, h9, h10⟩ := packNat_parts f
  obtain ⟨mark, op, d, a, b, c, g, gn, ge, m⟩ := f
  simp only [unpack, wbyte, wbits_pack, h1, h2, h3, h4, h5, h6, h7, h8, h9, h10, b2n_eq_one, ofNat_toNat]

theorem decode_pack {f : Full} (h : f.op ≠ 0) : decode (pack f) = decodeFull f := by
  obtain ⟨-, -, h0, h2, -⟩ := packNat_parts f
  have : f.op.toNat ≠ 0 := fun hc => h (BitVec.eq_of_toNat_eq (by simpa using hc))
  rw [decode, wbits_pack f 62 1, wbits_pack f 54 8, h0, h2, if_neg (by decide), if_neg this, unpack_pack]

theorem decode_of_shape {i : Instr} {f : Full} (hop : f.op ≠ 0) (hs : decodeShape f = some i)
    (hscope : (hasScope f && fld f 7 3 == 7) = false) (ha : aligned i = true) : decode (pack f) = .ok i := by
  rw [decode_pack hop, decodeFull, hs]
  simp only [hscope, ha, Bool.false_eq_true, if_false, if_true]

/-! ## What the decoder's pieces read from the encoder's -/

@[simp] theorem hdrOf_fullOf (h : Hdr) (op : Nat) (d a b c : Reg) (m : Nat) : hdrOf (fullOf h op d a b c m) = some h := by
  obtain ⟨mark, _ | ⟨neg, reg⟩⟩ := h <;> rfl

@[simp] theorem hdrOf_bareOf (mark : Bool) (op : Nat) (d a b c : Reg) (m : Nat) :
    hdrOf (bareOf mark op d a b c m) = some { mark := mark, guard := none } := rfl

@[simp] theorem noGuard_bareOf (mark : Bool) (op : Nat) (d a b c : Reg) (m : Nat) : noGuard (bareOf mark op d a b c m) = true := rfl

section
variable (h : Hdr) (mark : Bool) (op : Nat) (d a b c : Reg) (m lo n : Nat)

@[simp] theorem fullOf_op : (fullOf h op d a b c m).op = BitVec.ofNat 8 op := rfl
@[simp] theorem fullOf_d : (fullOf h op d a b c m).d = d := rfl
@[simp] theorem fullOf_a : (fullOf h op d a b c m).a = a := rfl
@[simp] theorem fullOf_b : (fullOf h op d a b c m).b = b := rfl
@[simp] theorem fullOf_c : (fullOf h op d a b c m).c = c := rfl
@[simp] theorem fullOf_m : (fullOf h op d a b c m).m = BitVec.ofNat 12 m := rfl
@[simp] theorem fullOf_mark : (fullOf h op d a b c m).mark = h.mark := rfl
@[simp] theorem bareOf_op : (bareOf mark op d a b c m).op = BitVec.ofNat 8 op := rfl
@[simp] theorem bareOf_d : (bareOf mark op d a b c m).d = d := rfl
@[simp] theorem bareOf_a : (bareOf mark op d a b c m).a = a := rfl
@[simp] theorem bareOf_b : (bareOf mark op d a b c m).b = b := rfl
@[simp] theorem bareOf_c : (bareOf mark op d a b c m).c = c := rfl
@[simp] theorem bareOf_m : (bareOf mark op d a b c m).m = BitVec.ofNat 12 m := rfl
@[simp] theorem bareOf_mark : (bareOf mark op d a b c m).mark = mark := rfl

/-- A field of M reads as those bits of the number the encoder put there. -/
@[simp] theorem fld_fullOf : fld (fullOf h op d a b c m) lo n = m % 4096 / 2 ^ lo % 2 ^ n := rfl
@[simp] theorem flg_fullOf : flg (fullOf h op d a b c m) lo = (m % 4096 / 2 ^ lo % 2 ^ 1 == 1) := rfl
@[simp] theorem fld_bareOf : fld (bareOf mark op d a b c m) lo n = m % 4096 / 2 ^ lo % 2 ^ n := rfl
@[simp] theorem flg_bareOf : flg (bareOf mark op d a b c m) lo = (m % 4096 / 2 ^ lo % 2 ^ 1 == 1) := rfl
end

@[simp] theorem need_true (x : Option Instr) : need true x = x := rfl
@[simp] theorem need_eq_some (c : Bool) (i j : Instr) : need c (some i) = some j ↔ c = true ∧ i = j := by cases c <;> simp [need]
@[simp] theorem zero_zero : zero 0#8 = true := rfl
@[simp] theorem bit_true (k : Nat) : bit true k = 2 ^ k := rfl
@[simp] theorem bit_false (k : Nat) : bit false k = 0 := rfl

theorem ofNat_fieldNat {k : Nat} (x : BitVec k) (h : k ≤ 8) : BitVec.ofNat k (fieldNat x.toNat).toNat = x := by
  have := x.isLt
  have h2 : 2 ^ k ≤ 2 ^ 8 := Nat.pow_le_pow_right (by decide) h
  rw [fieldNat, BitVec.toNat_ofNat, Nat.mod_eq_of_lt (by omega)]
  simp

theorem toNat_fieldNat {n : Nat} (h : n < 256) : (fieldNat n).toNat = n := by
  rw [fieldNat, BitVec.toNat_ofNat]; exact Nat.mod_eq_of_lt h

@[simp] theorem toNat_field3 (b : BitVec 3) : (fieldNat b.toNat).toNat = b.toNat := toNat_fieldNat (by have := b.isLt; omega)
@[simp] theorem toNat_field6 (b : BitVec 6) : (fieldNat b.toNat).toNat = b.toNat := toNat_fieldNat (by have := b.isLt; omega)

@[simp] theorem setWidth_fieldNat {k : Nat} (x : BitVec k) (h : k ≤ 8) : (fieldNat x.toNat).setWidth k = x := by
  rw [← BitVec.ofNat_toNat]
  exact ofNat_fieldNat x h

@[simp] theorem isImm_fullOf (h : Hdr) (op : Nat) (d a b c : Reg) (m : Nat) : isImm (fullOf h op d a b c m) = (b == 0xFF) := rfl

/-- The I20 immediate of R30. -/
@[simp] theorem imm20_fullOf (h : Hdr) (op : Nat) (d a b : Reg) (i : BitVec 20) :
    imm20 (fullOf h op d a b (fieldNat (i.toNat / 4096)) (i.toNat % 4096)) = i := by
  have := i.isLt
  apply BitVec.eq_of_toNat_eq
  simp only [imm20, fullOf_c, fullOf_m, fieldNat, BitVec.toNat_ofNat]
  omega

/-- The 24-bit offset of R32. -/
@[simp] theorem offset_parts (x : BitVec 24) : x.extractLsb' 16 8 ++ x.extractLsb' 8 8 ++ x.extractLsb' 0 8 = x := by
  apply BitVec.eq_of_getLsbD_eq
  intro i hi
  simp only [BitVec.getLsbD_append, BitVec.getLsbD_extractLsb']
  rcases lt_or_ge i 8 with h1 | h1
  · simp [h1]
  · rcases lt_or_ge i 16 with h2 | h2
    · simp [show ¬ i < 8 by omega, show i - 8 < 8 by omega, show 8 + (i - 8) = i by omega]
    · simp [show ¬ i < 8 by omega, show ¬ i - 8 < 8 by omega, show i - 8 - 8 < 8 by omega, show 16 + (i - 8 - 8) = i by omega]

/-- The 32-bit immediate of R31. -/
@[simp] theorem imm32_parts (x : BitVec 32) : x.extractLsb' 24 8 ++ x.extractLsb' 16 8 ++ x.extractLsb' 8 8 ++ x.extractLsb' 0 8 = x := by
  apply BitVec.eq_of_getLsbD_eq
  intro i hi
  simp only [BitVec.getLsbD_append, BitVec.getLsbD_extractLsb']
  rcases lt_or_ge i 8 with h1 | h1
  · simp [h1]
  · rcases lt_or_ge i 16 with h2 | h2
    · simp [show ¬ i < 8 by omega, show i - 8 < 8 by omega, show 8 + (i - 8) = i by omega]
    · rcases lt_or_ge i 24 with h3 | h3
      · simp [show ¬ i < 8 by omega, show ¬ i - 8 < 8 by omega, show i - 8 - 8 < 8 by omega, show 16 + (i - 8 - 8) = i by omega]
      · simp [show ¬ i < 8 by omega, show ¬ i - 8 < 8 by omega, show ¬ i - 8 - 8 < 8 by omega, show i - 8 - 8 - 8 < 8 by omega,
          show 24 + (i - 8 - 8 - 8) = i by omega]

/-! ## Codes -/

theorem Scope.code_lt (s : Scope) : s.code < 7 := by cases s <;> decide
theorem MOrd.code_lt (o : MOrd) : o.code < 4 := by cases o <;> decide
theorem MSize.code_lt (z : MSize) : z.code < 5 := by cases z <;> decide
theorem wideCode_eq (w : Bool) : wideCode w = 2 ∨ wideCode w = 3 := by cases w <;> decide
theorem Place.bit_eq (p : Place) : p.bit = 0 ∨ p.bit = 64 := by cases p <;> simp [Place.bit]
theorem optBit_lt (r : Option Reg) : optBit r < 2 := by cases r <;> simp [optBit]
theorem scopeOf_code (s : Scope) : scopeOf s.code = some s := by cases s <;> rfl
theorem ordOf_code (o : MOrd) : ordOf o.code = some o := by cases o <;> rfl
theorem sizeOf_code (z : MSize) : sizeOf' z.code = some z := by cases z <;> rfl
theorem wideOf_code (w : Bool) : wideOf (wideCode w) = some w := by cases w <;> rfl
theorem placeOf_fullOf (h : Hdr) (op : Nat) (d b c : Reg) (p : Place) (m : Nat) (hm : m % 4096 / 2 ^ 6 % 2 ^ 1 = p.bit / 64) :
    placeOf (fullOf h op d p.field b c m) = p := by
  cases p with
  | mem r =>
    have : m % 4096 / 64 % 2 = 0 := by simpa [Place.bit] using hm
    simp [placeOf, flg_fullOf, Place.field, this]
  | spm r =>
    have : m % 4096 / 64 % 2 = 1 := by simpa [Place.bit] using hm
    simp [placeOf, flg_fullOf, Place.field, this]
theorem retOf_fullOf (h : Hdr) (op : Nat) (a b c : Reg) (r : Option Reg) (m : Nat) (hm : m % 4096 / 2 ^ 0 % 2 ^ 1 = optBit r) :
    retOf (fullOf h op (optField r) a b c m) = some r := by
  cases r <;> simp only [retOf, flg_fullOf, hm] <;> rfl

/-- The modifiers of LD, ST, LDS and STS. -/
theorem memModOf_fullOf (h : Hdr) (op : Nat) (d a b c : Reg) (m : MemMod) : memModOf (fullOf h op d a b c m.code) = some m := by
  obtain ⟨ord, scope, pol, size, sx⟩ := m
  have h1 := ord.code_lt
  have h2 := scope.code_lt
  have h3 := pol.isLt
  have h4 := size.code_lt
  have h5 : bit sx 0 < 2 := by cases sx <;> decide
  have e1 : MemMod.code ⟨ord, scope, pol, size, sx⟩ % 4096 / 2 ^ 10 % 2 ^ 2 = ord.code := by simp only [MemMod.code]; omega
  have e2 : MemMod.code ⟨ord, scope, pol, size, sx⟩ % 4096 / 2 ^ 7 % 2 ^ 3 = scope.code := by simp only [MemMod.code]; omega
  have e3 : MemMod.code ⟨ord, scope, pol, size, sx⟩ % 4096 / 2 ^ 4 % 2 ^ 3 = pol.toNat := by simp only [MemMod.code]; omega
  have e4 : MemMod.code ⟨ord, scope, pol, size, sx⟩ % 4096 / 2 ^ 1 % 2 ^ 3 = size.code := by simp only [MemMod.code]; omega
  have e5 : MemMod.code ⟨ord, scope, pol, size, sx⟩ % 4096 / 2 ^ 0 % 2 ^ 1 = bit sx 0 := by simp only [MemMod.code]; omega
  have e6 : (bit sx 0 == 1) = sx := by cases sx <;> rfl
  simp only [memModOf, fld_fullOf, flg_fullOf, e1, e2, e3, e4, e5, e6, ordOf_code, scopeOf_code, sizeOf_code]
  simp

/-- M of an atomic (R209). -/
def atomicCode (m : AtMod) (sel : Nat) (p : Place) (d : Option Reg) : Nat :=
  optBit d + wideCode m.wide * 2 + sel * 16 + p.bit + m.scope.code * 128 + m.ord.code * 1024

theorem atomicOf_eq (h : Hdr) (op : Nat) (m : AtMod) (sel : Nat) (p : Place) (off : BitVec 8) (b : Reg) (d : Option Reg) :
    atomicOf h op m sel p off b d = fullOf h op (optField d) p.field b off (atomicCode m sel p d) := rfl

theorem atomicCode_parts (m : AtMod) (sel : Nat) (p : Place) (d : Option Reg) (hs : sel < 4) :
    atomicCode m sel p d % 4096 / 2 ^ 10 % 2 ^ 2 = m.ord.code ∧ atomicCode m sel p d % 4096 / 2 ^ 7 % 2 ^ 3 = m.scope.code ∧
    atomicCode m sel p d % 4096 / 2 ^ 1 % 2 ^ 3 = wideCode m.wide ∧ atomicCode m sel p d % 4096 / 2 ^ 4 % 2 ^ 2 = sel ∧
    atomicCode m sel p d % 4096 / 2 ^ 6 % 2 ^ 1 = p.bit / 64 ∧ atomicCode m sel p d % 4096 / 2 ^ 0 % 2 ^ 1 = optBit d := by
  have h1 := m.ord.code_lt
  have h2 := m.scope.code_lt
  have h4 := optBit_lt d
  unfold atomicCode
  rcases wideCode_eq m.wide with h3 | h3 <;> rcases p.bit_eq with h5 | h5 <;> rw [h3, h5] <;> omega

/-- The pieces the decoder reads from an atomic. -/
theorem atomic_reads (h : Hdr) (op : Nat) (m : AtMod) (sel : Nat) (p : Place) (off : BitVec 8) (b : Reg) (d : Option Reg) (hs : sel < 4) :
    atModOf (atomicOf h op m sel p off b d) = some m ∧ fld (atomicOf h op m sel p off b d) 4 2 = sel ∧
    placeOf (atomicOf h op m sel p off b d) = p ∧ retOf (atomicOf h op m sel p off b d) = some d ∧
    fld (atomicOf h op m sel p off b d) 7 3 = m.scope.code := by
  obtain ⟨e1, e2, e3, e4, e5, e6⟩ := atomicCode_parts m sel p d hs
  rw [atomicOf_eq]
  refine ⟨?_, e4, placeOf_fullOf _ _ _ _ _ _ _ e5, retOf_fullOf _ _ _ _ _ _ _ e6, e2⟩
  simp only [atModOf, fld_fullOf, e1, e2, e3, ordOf_code, scopeOf_code, wideOf_code]
  rfl

theorem scope_ok {n : Nat} (s : Scope) (h : n = s.code) : (n == 7) = false := by
  have := s.code_lt
  simp; omega

@[simp] theorem hdrOf_atomicOf (h : Hdr) (op : Nat) (m : AtMod) (sel : Nat) (p : Place) (off : BitVec 8) (b : Reg) (d : Option Reg) :
    hdrOf (atomicOf h op m sel p off b d) = some h := hdrOf_fullOf ..

theorem scope_fullOf (h : Hdr) (op : Nat) (d a b c : Reg) (m : MemMod) : fld (fullOf h op d a b c m.code) 7 3 = m.scope.code := by
  obtain ⟨ord, scope, pol, size, sx⟩ := m
  have h1 := ord.code_lt
  have h2 := scope.code_lt
  have h3 := pol.isLt
  have h4 := size.code_lt
  have h5 : bit sx 0 < 2 := by cases sx <;> decide
  simp only [fld_fullOf, MemMod.code]; omega

theorem ctlOf_code (r : CtlReg) : r.code < 32 ∧ ctlOf r.code = some r := by
  cases r with
  | perf n =>
    have hn : n.toNat < 8 := n.isLt
    refine ⟨by simp only [CtlReg.code]; omega, ?_⟩
    have hc : CtlReg.code (.perf n) = 16 + n.toNat := rfl
    rw [hc, ctlOf, if_pos ⟨by omega, by omega⟩, show 16 + n.toNat - 16 = n.toNat by omega, ofNat_toNat]
  | _ => exact ⟨by decide, rfl⟩

/-- The immediate field selector of R63. -/
theorem fieldOf_imm (h : Hdr) (op : Nat) (d a : Reg) (pos len : BitVec 6) (c : Reg) (sx : Nat) (hs : sx < 2)
    (hw : fieldOk (.imm pos len) = true) :
    fieldOf (fullOf h op d a (fieldNat pos.toNat) c (sx + 2 + len.toNat * 64)) = some (.imm pos len) := by
  simp only [fieldOk, Bool.and_eq_true, decide_eq_true_eq] at hw
  have h1 := len.isLt
  have e1 : (sx + 2 + len.toNat * 64) % 4096 / 2 ^ 1 % 2 ^ 1 = 1 := by omega
  have e2 : (sx + 2 + len.toNat * 64) % 4096 / 2 ^ 6 % 2 ^ 6 = len.toNat := by omega
  have e3 : (sx + 2 + len.toNat * 64) % 4096 / 2 ^ 2 % 2 ^ 4 = 0 := by omega
  simp only [fieldOf, flg_fullOf, fld_fullOf, e1, e2, e3, fullOf_b, toNat_field6]
  rw [if_pos (by rfl), if_pos ⟨hw.1, hw.2, trivial⟩]
  simp

/-! ## The paired format -/

theorem RegHalf.code_spec (o : RegHalf) : 0 < o.code ∧ o.code < 0x40 ∧ regHalfOf (o.code - 1) = some o := by
  cases o <;> exact ⟨by decide, by decide, rfl⟩

theorem ImmHalf.code_spec (o : ImmHalf) : 0x40 ≤ o.code ∧ o.code < 0x80 ∧ immHalfOf (o.code - 0x40) = some o := by
  cases o <;> simp [ImmHalf.code, immHalfOf]

/-- The fields of a half as the word holds them: code, d, a and i. -/
def halfFields : Half → Nat × Reg × Reg × BitVec 8
  | .reg op d a => (op.code, d, a, 0)
  | .imm op d a i => (op.code, d, a, i)

theorem halfBits_eq (x : Half) : halfBits x = (halfFields x).1 * 2 ^ 24 + (halfFields x).2.1.toNat * 2 ^ 16 +
    (halfFields x).2.2.1.toNat * 2 ^ 8 + (halfFields x).2.2.2.toNat := by cases x <;> simp [halfBits, halfFields]

theorem halfFields_code (x : Half) : 0 < (halfFields x).1 ∧ (halfFields x).1 < 0x80 := by
  cases x with
  | reg op d a => exact ⟨op.code_spec.1, lt_trans op.code_spec.2.1 (by decide)⟩
  | imm op d a i => exact ⟨lt_of_lt_of_le (by decide) op.code_spec.1, op.code_spec.2.1⟩

theorem halfOf_fields (x : Half) : halfOf (halfFields x).1 (halfFields x).2.1 (halfFields x).2.2.1 (halfFields x).2.2.2 = some x := by
  cases x with
  | reg op d a => obtain ⟨-, h1, h2⟩ := op.code_spec; simp [halfOf, halfFields, h1, h2]
  | imm op d a i =>
    obtain ⟨h1, -, h2⟩ := op.code_spec
    simp [halfOf, halfFields, show ¬ op.code < 0x40 by omega, h2]

theorem strayOk_fields (x : Half) (h : encodable.halfOk x = true) : strayOk (halfFields x).1 (halfFields x).2.2.1 (halfFields x).2.2.2 = true := by
  cases x with
  | reg op d a => obtain ⟨-, h1, -⟩ := op.code_spec; simp [strayOk, halfFields, h1]
  | imm op d a i =>
    obtain ⟨h1, -, -⟩ := op.code_spec
    simp only [strayOk, halfFields]
    cases op <;> simp_all [encodable.halfOk, ImmHalf.code]

/-- The number of a paired word and its fields (R36). -/
theorem pair_parts (mk xo xd xa xi yo yd ya yi N : Nat) (h0 : mk < 2) (h1 : xo < 128) (h2 : xd < 256) (h3 : xa < 256) (h4 : xi < 256)
    (h5 : yo < 128) (h6 : yd < 256) (h7 : ya < 256) (h8 : yi < 256)
    (hN : N = mk * 2 ^ 63 + 2 ^ 62 + (xo * 2 ^ 24 + xd * 2 ^ 16 + xa * 2 ^ 8 + xi) * 2 ^ 31 + (yo * 2 ^ 24 + yd * 2 ^ 16 + ya * 2 ^ 8 + yi)) :
    N < 2 ^ 64 ∧ N / 2 ^ 62 % 2 ^ 1 = 1 ∧ N / 2 ^ 63 % 2 ^ 1 = mk ∧ N / 2 ^ 55 % 2 ^ 7 = xo ∧ N / 2 ^ 47 % 2 ^ 8 = xd ∧
    N / 2 ^ 39 % 2 ^ 8 = xa ∧ N / 2 ^ 31 % 2 ^ 8 = xi ∧ N / 2 ^ 24 % 2 ^ 7 = yo ∧ N / 2 ^ 16 % 2 ^ 8 = yd ∧ N / 2 ^ 8 % 2 ^ 8 = ya ∧
    N / 2 ^ 0 % 2 ^ 8 = yi := by omega

/-- The decoder reads the two halves of a paired word that R38 allows. -/
theorem pairOf_fields (mark : Bool) (x y : Half) (hx : encodable.halfOk x = true) (hy : encodable.halfOk y = true)
    (hp : pairLegal x y = true) :
    pairOf mark (halfFields x).1 (halfFields x).2.1 (halfFields x).2.2.1 (halfFields x).2.2.2
      (halfFields y).1 (halfFields y).2.1 (halfFields y).2.2.1 (halfFields y).2.2.2 = .ok (.pairedWord mark x y) := by
  have x0 := Nat.ne_of_gt (halfFields_code x).1
  have y0 := Nat.ne_of_gt (halfFields_code y).1
  simp only [pairOf, if_neg x0, if_neg y0, halfOf_fields, strayOk_fields x hx, strayOk_fields y hy, hp]
  simp [x0, y0]

theorem decode_paired (mark : Bool) (x y : Half) (hx : encodable.halfOk x = true) (hy : encodable.halfOk y = true)
    (hp : pairLegal x y = true) : decode (encode (.pairedWord mark x y)) = .ok (.pairedWord mark x y) := by
  obtain ⟨hN, f1, f2, f3, f4, f5, f6, f7, f8, f9, f10⟩ := pair_parts (b2n mark) (halfFields x).1 (halfFields x).2.1.toNat
    (halfFields x).2.2.1.toNat (halfFields x).2.2.2.toNat (halfFields y).1 (halfFields y).2.1.toNat (halfFields y).2.2.1.toNat
    (halfFields y).2.2.2.toNat _ (b2n_lt mark) (halfFields_code x).2 (BitVec.isLt _) (BitVec.isLt _) (BitVec.isLt _)
    (halfFields_code y).2 (BitVec.isLt _) (BitVec.isLt _) (BitVec.isLt _) rfl
  rw [← halfBits_eq, ← halfBits_eq] at hN f1 f2 f3 f4 f5 f6 f7 f8 f9 f10
  have hv : (encode (.pairedWord mark x y)).toNat = b2n mark * 2 ^ 63 + 2 ^ 62 + halfBits x * 2 ^ 31 + halfBits y := by
    rw [encode, BitVec.toNat_ofNat]; exact Nat.mod_eq_of_lt hN
  rw [← hv] at f1 f2 f3 f4 f5 f6 f7 f8 f9 f10
  simp only [decode, wbyte, wbits, f1, f2, f3, f4, f5, f6, f7, f8, f9, f10, ofNat_toNat, b2n_eq_one, if_true]
  exact pairOf_fields mark x y hx hy hp

/-! ## The opcode names the family -/

theorem shape_0x01 {f : Full} (h : f.op.toNat = 0x01) : decodeShape f = decNop f := by simp [decodeShape, row0, h]
theorem shape_0x02 {f : Full} (h : f.op.toNat = 0x02) : decodeShape f = decIadd f := by simp [decodeShape, row0, h]
theorem shape_0x03 {f : Full} (h : f.op.toNat = 0x03) : decodeShape f = decImul f := by simp [decodeShape, row0, h]
theorem shape_0x04 {f : Full} (h : f.op.toNat = 0x04) : decodeShape f = decImad f := by simp [decodeShape, row0, h]
theorem shape_0x05 {f : Full} (h : f.op.toNat = 0x05) : decodeShape f = decIdiv f := by simp [decodeShape, row0, h]
theorem shape_0x06 {f : Full} (h : f.op.toNat = 0x06) : decodeShape f = decImnx f := by simp [decodeShape, row0, h]
theorem shape_0x07 {f : Full} (h : f.op.toNat = 0x07) : decodeShape f = decIabs f := by simp [decodeShape, row0, h]
theorem shape_0x08 {f : Full} (h : f.op.toNat = 0x08) : decodeShape f = decIcmp f := by simp [decodeShape, row0, h]
theorem shape_0x09 {f : Full} (h : f.op.toNat = 0x09) : decodeShape f = decSel f := by simp [decodeShape, row0, h]
theorem shape_0x0A {f : Full} (h : f.op.toNat = 0x0A) : decodeShape f = decLtab f := by simp [decodeShape, row0, h]
theorem shape_0x0B {f : Full} (h : f.op.toNat = 0x0B) : decodeShape f = decShf f := by simp [decodeShape, row0, h]
theorem shape_0x0C {f : Full} (h : f.op.toNat = 0x0C) : decodeShape f = decBfx f := by simp [decodeShape, row0, h]
theorem shape_0x0D {f : Full} (h : f.op.toNat = 0x0D) : decodeShape f = decBfi f := by simp [decodeShape, row0, h]
theorem shape_0x0E {f : Full} (h : f.op.toNat = 0x0E) : decodeShape f = decBitc f := by simp [decodeShape, row0, h]
theorem shape_0x0F {f : Full} (h : f.op.toNat = 0x0F) : decodeShape f = decBperm f := by simp [decodeShape, row0, h]
theorem shape_0x10 {f : Full} (h : f.op.toNat = 0x10) : decodeShape f = decIaddw f := by simp [decodeShape, row1, h]
theorem shape_0x11 {f : Full} (h : f.op.toNat = 0x11) : decodeShape f = decShfw f := by simp [decodeShape, row1, h]
theorem shape_0x12 {f : Full} (h : f.op.toNat = 0x12) : decodeShape f = decIcmpw f := by simp [decodeShape, row1, h]
theorem shape_0x13 {f : Full} (h : f.op.toNat = 0x13) : decodeShape f = decLea f := by simp [decodeShape, row1, h]
theorem shape_0x14 {f : Full} (h : f.op.toNat = 0x14) : decodeShape f = decMov f := by simp [decodeShape, row1, h]
theorem shape_0x15 {f : Full} (h : f.op.toNat = 0x15) : decodeShape f = decMovi f := by simp [decodeShape, row1, h]
theorem shape_0x16 {f : Full} (h : f.op.toNat = 0x16) : decodeShape f = decIdot f := by simp [decodeShape, row1, h]
theorem shape_0x17 {f : Full} (h : f.op.toNat = 0x17) : decodeShape f = decCvti f := by simp [decodeShape, row1, h]
theorem shape_0x18 {f : Full} (h : f.op.toNat = 0x18) : decodeShape f = decSread f := by simp [decodeShape, row1, h]
theorem shape_0x20 {f : Full} (h : f.op.toNat = 0x20) : decodeShape f = decFadd f := by simp [decodeShape, row2, h]
theorem shape_0x21 {f : Full} (h : f.op.toNat = 0x21) : decodeShape f = decFmul f := by simp [decodeShape, row2, h]
theorem shape_0x22 {f : Full} (h : f.op.toNat = 0x22) : decodeShape f = decFfma f := by simp [decodeShape, row2, h]
theorem shape_0x23 {f : Full} (h : f.op.toNat = 0x23) : decodeShape f = decFmnx f := by simp [decodeShape, row2, h]
theorem shape_0x24 {f : Full} (h : f.op.toNat = 0x24) : decodeShape f = decFcmp f := by simp [decodeShape, row2, h]
theorem shape_0x25 {f : Full} (h : f.op.toNat = 0x25) : decodeShape f = decFclass f := by simp [decodeShape, row2, h]
theorem shape_0x26 {f : Full} (h : f.op.toNat = 0x26) : decodeShape f = decFsfu f := by simp [decodeShape, row2, h]
theorem shape_0x27 {f : Full} (h : f.op.toNat = 0x27) : decodeShape f = decFdiv f := by simp [decodeShape, row2, h]
theorem shape_0x28 {f : Full} (h : f.op.toNat = 0x28) : decodeShape f = decFrint f := by simp [decodeShape, row2, h]
theorem shape_0x29 {f : Full} (h : f.op.toNat = 0x29) : decodeShape f = decFscale f := by simp [decodeShape, row2, h]
theorem shape_0x2A {f : Full} (h : f.op.toNat = 0x2A) : decodeShape f = decCvtf f := by simp [decodeShape, row2, h]
theorem shape_0x2B {f : Full} (h : f.op.toNat = 0x2B) : decodeShape f = decCvtfi f := by simp [decodeShape, row2, h]
theorem shape_0x2C {f : Full} (h : f.op.toNat = 0x2C) : decodeShape f = decCvtif f := by simp [decodeShape, row2, h]
theorem shape_0x2D {f : Full} (h : f.op.toNat = 0x2D) : decodeShape f = decPaddh f := by simp [decodeShape, row2, h]
theorem shape_0x2E {f : Full} (h : f.op.toNat = 0x2E) : decodeShape f = decPmulh f := by simp [decodeShape, row2, h]
theorem shape_0x2F {f : Full} (h : f.op.toNat = 0x2F) : decodeShape f = decPfmah f := by simp [decodeShape, row2, h]
theorem shape_0x30 {f : Full} (h : f.op.toNat = 0x30) : decodeShape f = decPmnxh f := by simp [decodeShape, row3, h]
theorem shape_0x31 {f : Full} (h : f.op.toNat = 0x31) : decodeShape f = decFdot2 f := by simp [decodeShape, row3, h]
theorem shape_0x32 {f : Full} (h : f.op.toNat = 0x32) : decodeShape f = decFquant f := by simp [decodeShape, row3, h]
theorem shape_0x33 {f : Full} (h : f.op.toNat = 0x33) : decodeShape f = decFdeq f := by simp [decodeShape, row3, h]
theorem shape_0x34 {f : Full} (h : f.op.toNat = 0x34) : decodeShape f = decFexpd f := by simp [decodeShape, row3, h]
theorem shape_0x35 {f : Full} (h : f.op.toNat = 0x35) : decodeShape f = decFlse f := by simp [decodeShape, row3, h]
theorem shape_0x36 {f : Full} (h : f.op.toNat = 0x36) : decodeShape f = decFtwosum f := by simp [decodeShape, row3, h]
theorem shape_0x40 {f : Full} (h : f.op.toNat = 0x40) : decodeShape f = decBra f := by simp [decodeShape, row4, h]
theorem shape_0x41 {f : Full} (h : f.op.toNat = 0x41) : decodeShape f = decBrx f := by simp [decodeShape, row4, h]
theorem shape_0x42 {f : Full} (h : f.op.toNat = 0x42) : decodeShape f = decCall f := by simp [decodeShape, row4, h]
theorem shape_0x43 {f : Full} (h : f.op.toNat = 0x43) : decodeShape f = decCallx f := by simp [decodeShape, row4, h]
theorem shape_0x44 {f : Full} (h : f.op.toNat = 0x44) : decodeShape f = decRet f := by simp [decodeShape, row4, h]
theorem shape_0x45 {f : Full} (h : f.op.toNat = 0x45) : decodeShape f = decExit f := by simp [decodeShape, row4, h]
theorem shape_0x46 {f : Full} (h : f.op.toNat = 0x46) : decodeShape f = decVote f := by simp [decodeShape, row4, h]
theorem shape_0x47 {f : Full} (h : f.op.toNat = 0x47) : decodeShape f = decShfl f := by simp [decodeShape, row4, h]
theorem shape_0x48 {f : Full} (h : f.op.toNat = 0x48) : decodeShape f = decWred f := by simp [decodeShape, row4, h]
theorem shape_0x49 {f : Full} (h : f.op.toNat = 0x49) : decodeShape f = decWscan f := by simp [decodeShape, row4, h]
theorem shape_0x4A {f : Full} (h : f.op.toNat = 0x4A) : decodeShape f = decMatch f := by simp [decodeShape, row4, h]
theorem shape_0x4B {f : Full} (h : f.op.toNat = 0x4B) : decodeShape f = decElect f := by simp [decodeShape, row4, h]
theorem shape_0x4C {f : Full} (h : f.op.toNat = 0x4C) : decodeShape f = decWsync f := by simp [decodeShape, row4, h]
theorem shape_0x4D {f : Full} (h : f.op.toNat = 0x4D) : decodeShape f = decPlain f (.yieldl f.mark) := by simp [decodeShape, row4, h]
theorem shape_0x4E {f : Full} (h : f.op.toNat = 0x4E) : decodeShape f = decBrkpt f := by simp [decodeShape, row4, h]
theorem shape_0x50 {f : Full} (h : f.op.toNat = 0x50) : decodeShape f = decFreeze f := by simp [decodeShape, row5, h]
theorem shape_0x51 {f : Full} (h : f.op.toNat = 0x51) : decodeShape f = decPlain f (.tnest f.mark) := by simp [decodeShape, row5, h]
theorem shape_0x52 {f : Full} (h : f.op.toNat = 0x52) : decodeShape f = decTsignal f := by simp [decodeShape, row5, h]
theorem shape_0x53 {f : Full} (h : f.op.toNat = 0x53) : decodeShape f = decRgrow f := by simp [decodeShape, row5, h]
theorem shape_0x54 {f : Full} (h : f.op.toNat = 0x54) : decodeShape f = decRshrink f := by simp [decodeShape, row5, h]
theorem shape_0x55 {f : Full} (h : f.op.toNat = 0x55) : decodeShape f = decGbar f := by simp [decodeShape, row5, h]
theorem shape_0x56 {f : Full} (h : f.op.toNat = 0x56) : decodeShape f = decPlain f (.gangbar f.mark) := by simp [decodeShape, row5, h]
theorem shape_0x57 {f : Full} (h : f.op.toNat = 0x57) : decodeShape f = decGarrive f := by simp [decodeShape, row5, h]
theorem shape_0x58 {f : Full} (h : f.op.toNat = 0x58) : decodeShape f = decGwait f := by simp [decodeShape, row5, h]
theorem shape_0x59 {f : Full} (h : f.op.toNat = 0x59) : decodeShape f = decLaunch f := by simp [decodeShape, row5, h]
theorem shape_0x5A {f : Full} (h : f.op.toNat = 0x5A) : decodeShape f = decPlain f (.yield f.mark) := by simp [decodeShape, row5, h]
theorem shape_0x5B {f : Full} (h : f.op.toNat = 0x5B) : decodeShape f = decSleep f := by simp [decodeShape, row5, h]
theorem shape_0x60 {f : Full} (h : f.op.toNat = 0x60) : decodeShape f = decQpush f := by simp [decodeShape, row6, h]
theorem shape_0x61 {f : Full} (h : f.op.toNat = 0x61) : decodeShape f = decQpop f := by simp [decodeShape, row6, h]
theorem shape_0x62 {f : Full} (h : f.op.toNat = 0x62) : decodeShape f = decQclose f := by simp [decodeShape, row6, h]
theorem shape_0x63 {f : Full} (h : f.op.toNat = 0x63) : decodeShape f = decNodesig f := by simp [decodeShape, row6, h]
theorem shape_0x68 {f : Full} (h : f.op.toNat = 0x68) : decodeShape f = decLd f := by simp [decodeShape, row6, h]
theorem shape_0x69 {f : Full} (h : f.op.toNat = 0x69) : decodeShape f = decSt f := by simp [decodeShape, row6, h]
theorem shape_0x6A {f : Full} (h : f.op.toNat = 0x6A) : decodeShape f = decLds f := by simp [decodeShape, row6, h]
theorem shape_0x6B {f : Full} (h : f.op.toNat = 0x6B) : decodeShape f = decSts f := by simp [decodeShape, row6, h]
theorem shape_0x6C {f : Full} (h : f.op.toNat = 0x6C) : decodeShape f = decPref f := by simp [decodeShape, row6, h]
theorem shape_0x6D {f : Full} (h : f.op.toNat = 0x6D) : decodeShape f = decZfill f := by simp [decodeShape, row6, h]
theorem shape_0x6E {f : Full} (h : f.op.toNat = 0x6E) : decodeShape f = decCflush f := by simp [decodeShape, row6, h]
theorem shape_0x6F {f : Full} (h : f.op.toNat = 0x6F) : decodeShape f = decTaddr f := by simp [decodeShape, row6, h]
theorem shape_0x70 {f : Full} (h : f.op.toNat = 0x70) : decodeShape f = decMapq f := by simp [decodeShape, row7, h]
theorem shape_0x78 {f : Full} (h : f.op.toNat = 0x78) : decodeShape f = decAadd f := by simp [decodeShape, row7, h]
theorem shape_0x79 {f : Full} (h : f.op.toNat = 0x79) : decodeShape f = decAmnx f := by simp [decodeShape, row7, h]
theorem shape_0x7A {f : Full} (h : f.op.toNat = 0x7A) : decodeShape f = decAlog f := by simp [decodeShape, row7, h]
theorem shape_0x7B {f : Full} (h : f.op.toNat = 0x7B) : decodeShape f = decAxch f := by simp [decodeShape, row7, h]
theorem shape_0x7C {f : Full} (h : f.op.toNat = 0x7C) : decodeShape f = decAcas f := by simp [decodeShape, row7, h]
theorem shape_0x7D {f : Full} (h : f.op.toNat = 0x7D) : decodeShape f = decAinc f := by simp [decodeShape, row7, h]
theorem shape_0x7E {f : Full} (h : f.op.toNat = 0x7E) : decodeShape f = decFence f := by simp [decodeShape, row7, h]
theorem shape_0x7F {f : Full} (h : f.op.toNat = 0x7F) : decodeShape f = decWaita f := by simp [decodeShape, row7, h]
theorem shape_0x80 {f : Full} (h : f.op.toNat = 0x80) : decodeShape f = decWakea f := by simp [decodeShape, row8, h]
theorem shape_0x81 {f : Full} (h : f.op.toNat = 0x81) : decodeShape f = decBcinit f := by simp [decodeShape, row8, h]
theorem shape_0x82 {f : Full} (h : f.op.toNat = 0x82) : decodeShape f = decBcadd f := by simp [decodeShape, row8, h]
theorem shape_0x88 {f : Full} (h : f.op.toNat = 0x88) : decodeShape f = decOrdecl f := by simp [decodeShape, row8, h]
theorem shape_0x89 {f : Full} (h : f.op.toNat = 0x89) : decodeShape f = decOrdrop f := by simp [decodeShape, row8, h]
theorem shape_0x8A {f : Full} (h : f.op.toNat = 0x8A) : decodeShape f = decLdrs f := by simp [decodeShape, row8, h]
theorem shape_0x8B {f : Full} (h : f.op.toNat = 0x8B) : decodeShape f = decLdrm f := by simp [decodeShape, row8, h]
theorem shape_0x8C {f : Full} (h : f.op.toNat = 0x8C) : decodeShape f = decLdpfx f := by simp [decodeShape, row8, h]
theorem shape_0x8D {f : Full} (h : f.op.toNat = 0x8D) : decodeShape f = decLdpick f := by simp [decodeShape, row8, h]
theorem shape_0x8E {f : Full} (h : f.op.toNat = 0x8E) : decodeShape f = decTfence f := by simp [decodeShape, row8, h]
theorem shape_0x8F {f : Full} (h : f.op.toNat = 0x8F) : decodeShape f = decOrbuild f := by simp [decodeShape, row8, h]
theorem shape_0x90 {f : Full} (h : f.op.toNat = 0x90) : decodeShape f = decTidset f := by simp [decodeShape, row9, h]
theorem shape_0x91 {f : Full} (h : f.op.toNat = 0x91) : decodeShape f = decTidinv f := by simp [decodeShape, row9, h]
theorem shape_0x92 {f : Full} (h : f.op.toNat = 0x92) : decodeShape f = decBlock f .mbload := by simp [decodeShape, row9, h]
theorem shape_0x93 {f : Full} (h : f.op.toNat = 0x93) : decodeShape f = decFuture f .mmul := by simp [decodeShape, row9, h]
theorem shape_0x94 {f : Full} (h : f.op.toNat = 0x94) : decodeShape f = decMaccrd f := by simp [decodeShape, row9, h]
theorem shape_0x95 {f : Full} (h : f.op.toNat = 0x95) : decodeShape f = decMaccwr f := by simp [decodeShape, row9, h]
theorem shape_0x96 {f : Full} (h : f.op.toNat = 0x96) : decodeShape f = decMaccz f := by simp [decodeShape, row9, h]
theorem shape_0x97 {f : Full} (h : f.op.toNat = 0x97) : decodeShape f = decBlock f .mtrans := by simp [decodeShape, row9, h]
theorem shape_0x98 {f : Full} (h : f.op.toNat = 0x98) : decodeShape f = decBlock f .mperm := by simp [decodeShape, row9, h]
theorem shape_0x99 {f : Full} (h : f.op.toNat = 0x99) : decodeShape f = decBlock f .mrsum := by simp [decodeShape, row9, h]
theorem shape_0x9A {f : Full} (h : f.op.toNat = 0x9A) : decodeShape f = decBlock f .mepi := by simp [decodeShape, row9, h]
theorem shape_0xA0 {f : Full} (h : f.op.toNat = 0xA0) : decodeShape f = decFuture f .bcopy := by simp [decodeShape, rowA, h]
theorem shape_0xA1 {f : Full} (h : f.op.toNat = 0xA1) : decodeShape f = decFuture f .gather := by simp [decodeShape, rowA, h]
theorem shape_0xA2 {f : Full} (h : f.op.toNat = 0xA2) : decodeShape f = decFuture f .scatter := by simp [decodeShape, rowA, h]
theorem shape_0xA3 {f : Full} (h : f.op.toNat = 0xA3) : decodeShape f = decFuture f .xcopy := by simp [decodeShape, rowA, h]
theorem shape_0xA4 {f : Full} (h : f.op.toNat = 0xA4) : decodeShape f = decHtest f := by simp [decodeShape, rowA, h]
theorem shape_0xA5 {f : Full} (h : f.op.toNat = 0xA5) : decodeShape f = decHwait f := by simp [decodeShape, rowA, h]
theorem shape_0xA6 {f : Full} (h : f.op.toNat = 0xA6) : decodeShape f = decHcancel f := by simp [decodeShape, rowA, h]
theorem shape_0xA8 {f : Full} (h : f.op.toNat = 0xA8) : decodeShape f = decVpub f := by simp [decodeShape, rowA, h]
theorem shape_0xA9 {f : Full} (h : f.op.toNat = 0xA9) : decodeShape f = decVpin f := by simp [decodeShape, rowA, h]
theorem shape_0xAA {f : Full} (h : f.op.toNat = 0xAA) : decodeShape f = decVret f := by simp [decodeShape, rowA, h]
theorem shape_0xAB {f : Full} (h : f.op.toNat = 0xAB) : decodeShape f = decTokrec f := by simp [decodeShape, rowA, h]
theorem shape_0xAC {f : Full} (h : f.op.toNat = 0xAC) : decodeShape f = decSmask f := by simp [decodeShape, rowA, h]
theorem shape_0xAD {f : Full} (h : f.op.toNat = 0xAD) : decodeShape f = decUlcall f := by simp [decodeShape, rowA, h]
theorem shape_0xAE {f : Full} (h : f.op.toNat = 0xAE) : decodeShape f = decSlotrd f := by simp [decodeShape, rowA, h]
theorem shape_0xAF {f : Full} (h : f.op.toNat = 0xAF) : decodeShape f = decSlotset f := by simp [decodeShape, rowA, h]
theorem shape_0xB0 {f : Full} (h : f.op.toNat = 0xB0) : decodeShape f = decTrap f := by simp [decodeShape, rowB, h]
theorem shape_0xB1 {f : Full} (h : f.op.toNat = 0xB1) : decodeShape f = decTret f := by simp [decodeShape, rowB, h]
theorem shape_0xB2 {f : Full} (h : f.op.toNat = 0xB2) : decodeShape f = decCread f := by simp [decodeShape, rowB, h]
theorem shape_0xB3 {f : Full} (h : f.op.toNat = 0xB3) : decodeShape f = decCwrite f := by simp [decodeShape, rowB, h]
theorem shape_0xB4 {f : Full} (h : f.op.toNat = 0xB4) : decodeShape f = decTsave f := by simp [decodeShape, rowB, h]
theorem shape_0xB5 {f : Full} (h : f.op.toNat = 0xB5) : decodeShape f = decTload f := by simp [decodeShape, rowB, h]
theorem shape_0xB6 {f : Full} (h : f.op.toNat = 0xB6) : decodeShape f = decTlbinv f := by simp [decodeShape, rowB, h]
theorem shape_0xB7 {f : Full} (h : f.op.toNat = 0xB7) : decodeShape f = decPlain f (.idle f.mark) := by simp [decodeShape, rowB, h]

end Sys2Proof
end

