-- ==== Sys2Proof/Laws/Sparse.lean ====
section
/-! SUPPORT. What the sparse maps and sets of Machine/Sparse.lean do: reading back what was put, leaving the other keys
alone, and keeping the keys rising. -/

namespace Sys2Proof.Machine

variable {α : Type}

@[simp] theorem sget?_nil (k : Nat) : sget? ([] : List (Nat × α)) k = none := rfl

@[simp] theorem sget?_sput_self (m : List (Nat × α)) (k : Nat) (v : α) : sget? (sput m k v) k = some v := by
  induction m with
  | nil => simp [sput, sget?]
  | cons p r ih =>
    obtain ⟨a, w⟩ := p
    simp only [sput]
    split
    · simp [sget?]
    · split
      · simp [sget?]
      · simp [sget?, *]

theorem sget?_sput_ne (m : List (Nat × α)) {k j : Nat} (v : α) (h : j ≠ k) : sget? (sput m k v) j = sget? m j := by
  induction m with
  | nil => simp [sput, sget?, Ne.symm h]
  | cons p r ih =>
    obtain ⟨a, w⟩ := p
    simp only [sput]
    split
    · subst_vars; simp [sget?, Ne.symm h]
    · split
      · simp [sget?, Ne.symm h]
      · simp [sget?, ih]

theorem sget?_sput (m : List (Nat × α)) (k j : Nat) (v : α) : sget? (sput m k v) j = if j = k then some v else sget? m j := by
  split
  · subst_vars; simp
  · exact sget?_sput_ne m v ‹_›

@[simp] theorem sget?_sdel_self (m : List (Nat × α)) (k : Nat) : sget? (sdel m k) k = none := by
  induction m with
  | nil => rfl
  | cons p r ih =>
    obtain ⟨a, w⟩ := p
    simp only [sdel]
    split
    · exact ih
    · simp [sget?, *]

theorem sget?_sdel_ne (m : List (Nat × α)) {k j : Nat} (h : j ≠ k) : sget? (sdel m k) j = sget? m j := by
  induction m with
  | nil => rfl
  | cons p r ih =>
    obtain ⟨a, w⟩ := p
    simp only [sdel]
    split
    · subst_vars; simp [sget?, ih, Ne.symm h]
    · simp [sget?, ih]

theorem sget?_sdel (m : List (Nat × α)) (k j : Nat) : sget? (sdel m k) j = if j = k then none else sget? m j := by
  split
  · subst_vars; simp
  · exact sget?_sdel_ne m ‹_›

/-! ## Rising keys -/

/-- Every key of a map lies above a bound. -/
def above (b : Nat) (m : List (Nat × α)) : Prop := ∀ p ∈ m, b < p.1

theorem risingKeys_cons (p : Nat × α) (r : List (Nat × α)) : risingKeys (p :: r) = true ↔ above p.1 r ∧ risingKeys r = true := by
  obtain ⟨a, w⟩ := p
  induction r generalizing a w with
  | nil => simp [risingKeys, above]
  | cons q r ih =>
    obtain ⟨b, x⟩ := q
    rw [risingKeys, Bool.and_eq_true, decide_eq_true_eq, ih b x]
    constructor
    · rintro ⟨h1, h2, h3⟩
      refine ⟨?_, h2, h3⟩
      intro p hp
      rcases List.mem_cons.mp hp with rfl | hp
      · exact h1
      · exact lt_trans h1 (h2 p hp)
    · rintro ⟨h1, h2, h3⟩
      exact ⟨h1 _ (List.mem_cons_self ..), h2, h3⟩

theorem above_sput {b k : Nat} {m : List (Nat × α)} (v : α) (h : above b m) (hb : b < k) : above b (sput m k v) := by
  induction m with
  | nil => intro p hp; simp [sput] at hp; subst hp; exact hb
  | cons q r ih =>
    obtain ⟨a, w⟩ := q
    have hr : above b r := fun p hp => h p (List.mem_cons_of_mem _ hp)
    simp only [sput]
    split
    · intro p hp
      rcases List.mem_cons.mp hp with rfl | hp
      · exact hb
      · exact hr p hp
    · split
      · intro p hp
        rcases List.mem_cons.mp hp with rfl | hp
        · exact hb
        · exact h p hp
      · intro p hp
        rcases List.mem_cons.mp hp with rfl | hp
        · exact h _ (List.mem_cons_self ..)
        · exact ih hr p hp

theorem mem_of_mem_sdel {k : Nat} {m : List (Nat × α)} {p : Nat × α} (h : p ∈ sdel m k) : p ∈ m ∧ p.1 ≠ k := by
  induction m with
  | nil => simp [sdel] at h
  | cons q r ih =>
    obtain ⟨a, w⟩ := q
    simp only [sdel] at h
    split at h
    · exact ⟨List.mem_cons_of_mem _ (ih h).1, (ih h).2⟩
    · rcases List.mem_cons.mp h with rfl | h
      · exact ⟨List.mem_cons_self .., ‹_›⟩
      · exact ⟨List.mem_cons_of_mem _ (ih h).1, (ih h).2⟩

theorem risingKeys_sput {m : List (Nat × α)} (k : Nat) (v : α) (h : risingKeys m = true) : risingKeys (sput m k v) = true := by
  induction m with
  | nil => rfl
  | cons q r ih =>
    obtain ⟨a, w⟩ := q
    rw [risingKeys_cons] at h
    simp only [sput]
    split
    · subst_vars; rw [risingKeys_cons]; exact h
    · split
      · rw [risingKeys_cons, risingKeys_cons]
        refine ⟨?_, h⟩
        intro p hp
        rcases List.mem_cons.mp hp with rfl | hp
        · assumption
        · exact lt_trans ‹k < a› (h.1 p hp)
      · rw [risingKeys_cons]
        exact ⟨above_sput v h.1 (show a < k by omega), ih h.2⟩

theorem risingKeys_sdel {m : List (Nat × α)} (k : Nat) (h : risingKeys m = true) : risingKeys (sdel m k) = true := by
  induction m with
  | nil => rfl
  | cons q r ih =>
    obtain ⟨a, w⟩ := q
    rw [risingKeys_cons] at h
    simp only [sdel]
    split
    · exact ih h.2
    · rw [risingKeys_cons]
      exact ⟨fun p hp => h.1 p (mem_of_mem_sdel hp).1, ih h.2⟩

theorem mem_of_mem_sput {k : Nat} {v : α} {m : List (Nat × α)} {p : Nat × α} (h : p ∈ sput m k v) : p = (k, v) ∨ p ∈ m := by
  induction m with
  | nil => simpa [sput] using h
  | cons q r ih =>
    obtain ⟨a, w⟩ := q
    simp only [sput] at h
    split at h
    · rcases List.mem_cons.mp h with rfl | h
      · exact .inl rfl
      · exact .inr (List.mem_cons_of_mem _ h)
    · split at h
      · rcases List.mem_cons.mp h with rfl | h
        · exact .inl rfl
        · exact .inr h
      · rcases List.mem_cons.mp h with rfl | h
        · exact .inr (List.mem_cons_self ..)
        · exact (ih h).imp id (List.mem_cons_of_mem _)

/-! ## Rising sets -/

@[simp] theorem mem_sins (m : List Nat) (k j : Nat) : j ∈ sins m k ↔ j = k ∨ j ∈ m := by
  induction m with
  | nil => simp [sins]
  | cons a r ih =>
    simp only [sins]
    split
    · subst_vars; simp
    · split
      · simp
      · simp only [List.mem_cons, ih]; tauto

@[simp] theorem mem_sinsAll (m ks : List Nat) (j : Nat) : j ∈ sinsAll m ks ↔ j ∈ ks ∨ j ∈ m := by
  unfold sinsAll
  induction ks generalizing m with
  | nil => simp
  | cons k ks ih => simp only [List.foldl_cons, ih, mem_sins, List.mem_cons]; tauto

/-! ## Lists by place -/

@[simp] theorem length_modAt (l : List α) (n : Nat) (f : α → α) : (modAt l n f).length = l.length := by
  induction l generalizing n with
  | nil => rfl
  | cons a r ih => cases n <;> simp [modAt, ih]

theorem getElem?_modAt (l : List α) (n m : Nat) (f : α → α) :
    (modAt l n f)[m]? = if m = n then l[m]?.map f else l[m]? := by
  induction l generalizing n m with
  | nil => simp [modAt]
  | cons a r ih =>
    cases n <;> cases m <;> simp [modAt, ih]

@[simp] theorem getElem?_modAt_self (l : List α) (n : Nat) (f : α → α) : (modAt l n f)[n]? = l[n]?.map f := by
  simp [getElem?_modAt]

theorem getElem?_modAt_ne (l : List α) {n m : Nat} (f : α → α) (h : m ≠ n) : (modAt l n f)[m]? = l[m]? := by
  simp [getElem?_modAt, h]

/-! ## Masks -/

/-- Bit i of a mask built from a predicate. -/
theorem bit_maskOf (p : Nat → Bool) (i : Nat) : bit (maskOf p) i = (decide (i < 32) && p i) := by
  have key : ∀ n, n ≤ 32 → ((List.range n).foldl (fun a l => if p l then a + 2 ^ l else a) 0 < 2 ^ n ∧
      ∀ j, ((List.range n).foldl (fun a l => if p l then a + 2 ^ l else a) 0).testBit j = (decide (j < n) && p j)) := by
    intro n
    induction n with
    | zero => intro _; simp
    | succ n ih =>
      intro hn
      obtain ⟨hlt, hbit⟩ := ih (by omega)
      rw [List.range_succ, List.foldl_append]
      simp only [List.foldl_cons, List.foldl_nil]
      set a := (List.range n).foldl (fun a l => if p l then a + 2 ^ l else a) 0 with ha
      split
      · rename_i hp
        refine ⟨by rw [pow_succ]; omega, fun j => ?_⟩
        rw [Nat.add_comm]
        rcases lt_trichotomy j n with h | h | h
        · rw [Nat.testBit_two_pow_add_gt h, hbit]; simp [h, Nat.lt_succ_of_lt h]
        · subst h; rw [Nat.testBit_two_pow_add_eq, hbit]; simp [hp]
        · have : (2 ^ n + a) < 2 ^ j := lt_of_lt_of_le (show 2 ^ n + a < 2 ^ (n + 1) by rw [pow_succ]; omega) (Nat.pow_le_pow_right (by norm_num) h)
          rw [Nat.testBit_lt_two_pow this]; simp; omega
      · rename_i hp
        refine ⟨lt_trans hlt (by rw [pow_succ]; have := Nat.two_pow_pos n; omega), fun j => ?_⟩
        rw [hbit]
        by_cases h : j < n
        · simp [h, Nat.lt_succ_of_lt h]
        · by_cases h2 : j = n
          · subst h2; simp [hp]
          · simp [h]; omega
  have := (key 32 (le_refl _)).2 i
  unfold bit maskOf
  rw [BitVec.getLsbD_ofNat, this]
  by_cases h : i < 32 <;> simp [h]

theorem bit_lt {m : Mask} {i : Nat} (h : bit m i = true) : i < 32 := by
  by_contra hc
  simp [bit, BitVec.getLsbD_of_ge m i (by omega)] at h

@[simp] theorem bit_and (a b : Mask) (i : Nat) : bit (a &&& b) i = (bit a i && bit b i) := by simp [bit]

@[simp] theorem bit_zero (i : Nat) : bit 0#32 i = false := by simp [bit]

@[simp] theorem mem_lanesOf (m : Mask) (l : Nat) : l ∈ lanesOf m ↔ bit m l = true := by
  simp only [lanesOf, List.mem_filter, List.mem_range]
  exact ⟨fun h => h.2, fun h => ⟨bit_lt h, h⟩⟩

theorem nodup_lanesOf (m : Mask) : (lanesOf m).Nodup := List.Nodup.filter _ List.nodup_range

end Sys2Proof.Machine
end

