-- ==== Sys2Proof/Laws/State.lean ====
section
/-! SUPPORT. What each update of the state leaves alone, field by field, and what the accessors read after it. -/

namespace Sys2Proof.Machine

/-! ## putGroup -/

@[simp] theorem putGroup_issue (s : State) (g : Group) : (putGroup s g).issue = s.issue := rfl
@[simp] theorem putGroup_cur (s : State) (g : Group) : (putGroup s g).cur = s.cur := rfl
@[simp] theorem putGroup_curWord (s : State) (g : Group) : (putGroup s g).curWord = s.curWord := rfl
@[simp] theorem putGroup_agenda (s : State) (g : Group) : (putGroup s g).agenda = s.agenda := rfl
@[simp] theorem putGroup_tick (s : State) (g : Group) : (putGroup s g).tick = s.tick := rfl
@[simp] theorem putGroup_draw (s : State) (g : Group) : (putGroup s g).draw = s.draw := rfl
@[simp] theorem putGroup_seqs (s : State) (g : Group) : (putGroup s g).seqs = s.seqs := rfl
@[simp] theorem putGroup_timebase (s : State) (g : Group) : (putGroup s g).timebase = s.timebase := rfl
@[simp] theorem putGroup_gangs (s : State) (g : Group) : (putGroup s g).gangs = s.gangs := rfl
@[simp] theorem putGroup_tmpls (s : State) (g : Group) : (putGroup s g).tmpls = s.tmpls := rfl
@[simp] theorem putGroup_grids (s : State) (g : Group) : (putGroup s g).grids = s.grids := rfl
@[simp] theorem putGroup_graphs (s : State) (g : Group) : (putGroup s g).graphs = s.graphs := rfl
@[simp] theorem putGroup_dies (s : State) (g : Group) : (putGroup s g).dies = s.dies := rfl
@[simp] theorem putGroup_lode (s : State) (g : Group) : (putGroup s g).lode = s.lode := rfl
@[simp] theorem putGroup_cores (s : State) (g : Group) : (putGroup s g).cores = s.cores := rfl
@[simp] theorem putGroup_ctxs (s : State) (g : Group) : (putGroup s g).ctxs = s.ctxs := rfl
@[simp] theorem putGroup_ranges (s : State) (g : Group) : (putGroup s g).ranges = s.ranges := rfl
@[simp] theorem putGroup_regions (s : State) (g : Group) : (putGroup s g).regions = s.regions := rfl
@[simp] theorem putGroup_copies (s : State) (g : Group) : (putGroup s g).copies = s.copies := rfl
@[simp] theorem putGroup_matops (s : State) (g : Group) : (putGroup s g).matops = s.matops := rfl
@[simp] theorem putGroup_mem (s : State) (g : Group) : (putGroup s g).mem = s.mem := rfl
@[simp] theorem putGroup_l2 (s : State) (g : Group) : (putGroup s g).l2 = s.l2 := rfl
@[simp] theorem putGroup_pend (s : State) (g : Group) : (putGroup s g).pend = s.pend := rfl
@[simp] theorem putGroup_hostMem (s : State) (g : Group) : (putGroup s g).hostMem = s.hostMem := rfl
@[simp] theorem putGroup_bad (s : State) (g : Group) : (putGroup s g).bad = s.bad := rfl
@[simp] theorem putGroup_codeOld (s : State) (g : Group) : (putGroup s g).codeOld = s.codeOld := rfl
@[simp] theorem putGroup_waits (s : State) (g : Group) : (putGroup s g).waits = s.waits := rfl
@[simp] theorem putGroup_away (s : State) (g : Group) : (putGroup s g).away = s.away := rfl
@[simp] theorem putGroup_hist (s : State) (g : Group) : (putGroup s g).hist = s.hist := rfl
@[simp] theorem putGroup_views (s : State) (g : Group) : (putGroup s g).views = s.views := rfl
@[simp] theorem putGroup_edges (s : State) (g : Group) : (putGroup s g).edges = s.edges := rfl
@[simp] theorem putGroup_late (s : State) (g : Group) : (putGroup s g).late = s.late := rfl
@[simp] theorem putGroup_caches (s : State) (g : Group) : (putGroup s g).caches = s.caches := rfl
@[simp] theorem putGroup_predictor (s : State) (g : Group) : (putGroup s g).predictor = s.predictor := rfl
@[simp] theorem putGroup_tlbs (s : State) (g : Group) : (putGroup s g).tlbs = s.tlbs := rfl
@[simp] theorem putGroup_snoops (s : State) (g : Group) : (putGroup s g).snoops = s.snoops := rfl
@[simp] theorem putGroup_entries (s : State) (g : Group) : (putGroup s g).entries = s.entries := rfl
@[simp] theorem putGroup_errs (s : State) (g : Group) : (putGroup s g).errs = s.errs := rfl
@[simp] theorem putGroup_fns (s : State) (g : Group) : (putGroup s g).fns = s.fns := rfl
@[simp] theorem putGroup_parts (s : State) (g : Group) : (putGroup s g).parts = s.parts := rfl
@[simp] theorem putGroup_ports (s : State) (g : Group) : (putGroup s g).ports = s.ports := rfl
@[simp] theorem putGroup_mgmt (s : State) (g : Group) : (putGroup s g).mgmt = s.mgmt := rfl
@[simp] theorem putGroup_variantC (s : State) (g : Group) : (putGroup s g).variantC = s.variantC := rfl

/-! ## modGroup -/

theorem modGroup_only (s : State) (g : Nat) (f : Group → Group) : modGroup s g f = { s with groups := (modGroup s g f).groups } := by unfold modGroup; split <;> rfl

@[simp] theorem modGroup_issue (s : State) (g : Nat) (f : Group → Group) : (modGroup s g f).issue = s.issue := by rw [modGroup_only]
@[simp] theorem modGroup_cur (s : State) (g : Nat) (f : Group → Group) : (modGroup s g f).cur = s.cur := by rw [modGroup_only]
@[simp] theorem modGroup_curWord (s : State) (g : Nat) (f : Group → Group) : (modGroup s g f).curWord = s.curWord := by rw [modGroup_only]
@[simp] theorem modGroup_agenda (s : State) (g : Nat) (f : Group → Group) : (modGroup s g f).agenda = s.agenda := by rw [modGroup_only]
@[simp] theorem modGroup_tick (s : State) (g : Nat) (f : Group → Group) : (modGroup s g f).tick = s.tick := by rw [modGroup_only]
@[simp] theorem modGroup_draw (s : State) (g : Nat) (f : Group → Group) : (modGroup s g f).draw = s.draw := by rw [modGroup_only]
@[simp] theorem modGroup_seqs (s : State) (g : Nat) (f : Group → Group) : (modGroup s g f).seqs = s.seqs := by rw [modGroup_only]
@[simp] theorem modGroup_timebase (s : State) (g : Nat) (f : Group → Group) : (modGroup s g f).timebase = s.timebase := by rw [modGroup_only]
@[simp] theorem modGroup_gangs (s : State) (g : Nat) (f : Group → Group) : (modGroup s g f).gangs = s.gangs := by rw [modGroup_only]
@[simp] theorem modGroup_tmpls (s : State) (g : Nat) (f : Group → Group) : (modGroup s g f).tmpls = s.tmpls := by rw [modGroup_only]
@[simp] theorem modGroup_grids (s : State) (g : Nat) (f : Group → Group) : (modGroup s g f).grids = s.grids := by rw [modGroup_only]
@[simp] theorem modGroup_graphs (s : State) (g : Nat) (f : Group → Group) : (modGroup s g f).graphs = s.graphs := by rw [modGroup_only]
@[simp] theorem modGroup_dies (s : State) (g : Nat) (f : Group → Group) : (modGroup s g f).dies = s.dies := by rw [modGroup_only]
@[simp] theorem modGroup_lode (s : State) (g : Nat) (f : Group → Group) : (modGroup s g f).lode = s.lode := by rw [modGroup_only]
@[simp] theorem modGroup_cores (s : State) (g : Nat) (f : Group → Group) : (modGroup s g f).cores = s.cores := by rw [modGroup_only]
@[simp] theorem modGroup_ctxs (s : State) (g : Nat) (f : Group → Group) : (modGroup s g f).ctxs = s.ctxs := by rw [modGroup_only]
@[simp] theorem modGroup_ranges (s : State) (g : Nat) (f : Group → Group) : (modGroup s g f).ranges = s.ranges := by rw [modGroup_only]
@[simp] theorem modGroup_regions (s : State) (g : Nat) (f : Group → Group) : (modGroup s g f).regions = s.regions := by rw [modGroup_only]
@[simp] theorem modGroup_copies (s : State) (g : Nat) (f : Group → Group) : (modGroup s g f).copies = s.copies := by rw [modGroup_only]
@[simp] theorem modGroup_matops (s : State) (g : Nat) (f : Group → Group) : (modGroup s g f).matops = s.matops := by rw [modGroup_only]
@[simp] theorem modGroup_mem (s : State) (g : Nat) (f : Group → Group) : (modGroup s g f).mem = s.mem := by rw [modGroup_only]
@[simp] theorem modGroup_l2 (s : State) (g : Nat) (f : Group → Group) : (modGroup s g f).l2 = s.l2 := by rw [modGroup_only]
@[simp] theorem modGroup_pend (s : State) (g : Nat) (f : Group → Group) : (modGroup s g f).pend = s.pend := by rw [modGroup_only]
@[simp] theorem modGroup_hostMem (s : State) (g : Nat) (f : Group → Group) : (modGroup s g f).hostMem = s.hostMem := by rw [modGroup_only]
@[simp] theorem modGroup_bad (s : State) (g : Nat) (f : Group → Group) : (modGroup s g f).bad = s.bad := by rw [modGroup_only]
@[simp] theorem modGroup_codeOld (s : State) (g : Nat) (f : Group → Group) : (modGroup s g f).codeOld = s.codeOld := by rw [modGroup_only]
@[simp] theorem modGroup_waits (s : State) (g : Nat) (f : Group → Group) : (modGroup s g f).waits = s.waits := by rw [modGroup_only]
@[simp] theorem modGroup_away (s : State) (g : Nat) (f : Group → Group) : (modGroup s g f).away = s.away := by rw [modGroup_only]
@[simp] theorem modGroup_hist (s : State) (g : Nat) (f : Group → Group) : (modGroup s g f).hist = s.hist := by rw [modGroup_only]
@[simp] theorem modGroup_views (s : State) (g : Nat) (f : Group → Group) : (modGroup s g f).views = s.views := by rw [modGroup_only]
@[simp] theorem modGroup_edges (s : State) (g : Nat) (f : Group → Group) : (modGroup s g f).edges = s.edges := by rw [modGroup_only]
@[simp] theorem modGroup_late (s : State) (g : Nat) (f : Group → Group) : (modGroup s g f).late = s.late := by rw [modGroup_only]
@[simp] theorem modGroup_caches (s : State) (g : Nat) (f : Group → Group) : (modGroup s g f).caches = s.caches := by rw [modGroup_only]
@[simp] theorem modGroup_predictor (s : State) (g : Nat) (f : Group → Group) : (modGroup s g f).predictor = s.predictor := by rw [modGroup_only]
@[simp] theorem modGroup_tlbs (s : State) (g : Nat) (f : Group → Group) : (modGroup s g f).tlbs = s.tlbs := by rw [modGroup_only]
@[simp] theorem modGroup_snoops (s : State) (g : Nat) (f : Group → Group) : (modGroup s g f).snoops = s.snoops := by rw [modGroup_only]
@[simp] theorem modGroup_entries (s : State) (g : Nat) (f : Group → Group) : (modGroup s g f).entries = s.entries := by rw [modGroup_only]
@[simp] theorem modGroup_errs (s : State) (g : Nat) (f : Group → Group) : (modGroup s g f).errs = s.errs := by rw [modGroup_only]
@[simp] theorem modGroup_fns (s : State) (g : Nat) (f : Group → Group) : (modGroup s g f).fns = s.fns := by rw [modGroup_only]
@[simp] theorem modGroup_parts (s : State) (g : Nat) (f : Group → Group) : (modGroup s g f).parts = s.parts := by rw [modGroup_only]
@[simp] theorem modGroup_ports (s : State) (g : Nat) (f : Group → Group) : (modGroup s g f).ports = s.ports := by rw [modGroup_only]
@[simp] theorem modGroup_mgmt (s : State) (g : Nat) (f : Group → Group) : (modGroup s g f).mgmt = s.mgmt := by rw [modGroup_only]
@[simp] theorem modGroup_variantC (s : State) (g : Nat) (f : Group → Group) : (modGroup s g f).variantC = s.variantC := by rw [modGroup_only]

/-! ## modWarp -/

@[simp] theorem modWarp_issue (s : State) (g w : Nat) (f : Warp → Warp) : (modWarp s g w f).issue = s.issue := modGroup_issue ..
@[simp] theorem modWarp_cur (s : State) (g w : Nat) (f : Warp → Warp) : (modWarp s g w f).cur = s.cur := modGroup_cur ..
@[simp] theorem modWarp_curWord (s : State) (g w : Nat) (f : Warp → Warp) : (modWarp s g w f).curWord = s.curWord := modGroup_curWord ..
@[simp] theorem modWarp_agenda (s : State) (g w : Nat) (f : Warp → Warp) : (modWarp s g w f).agenda = s.agenda := modGroup_agenda ..
@[simp] theorem modWarp_tick (s : State) (g w : Nat) (f : Warp → Warp) : (modWarp s g w f).tick = s.tick := modGroup_tick ..
@[simp] theorem modWarp_draw (s : State) (g w : Nat) (f : Warp → Warp) : (modWarp s g w f).draw = s.draw := modGroup_draw ..
@[simp] theorem modWarp_seqs (s : State) (g w : Nat) (f : Warp → Warp) : (modWarp s g w f).seqs = s.seqs := modGroup_seqs ..
@[simp] theorem modWarp_timebase (s : State) (g w : Nat) (f : Warp → Warp) : (modWarp s g w f).timebase = s.timebase := modGroup_timebase ..
@[simp] theorem modWarp_gangs (s : State) (g w : Nat) (f : Warp → Warp) : (modWarp s g w f).gangs = s.gangs := modGroup_gangs ..
@[simp] theorem modWarp_tmpls (s : State) (g w : Nat) (f : Warp → Warp) : (modWarp s g w f).tmpls = s.tmpls := modGroup_tmpls ..
@[simp] theorem modWarp_grids (s : State) (g w : Nat) (f : Warp → Warp) : (modWarp s g w f).grids = s.grids := modGroup_grids ..
@[simp] theorem modWarp_graphs (s : State) (g w : Nat) (f : Warp → Warp) : (modWarp s g w f).graphs = s.graphs := modGroup_graphs ..
@[simp] theorem modWarp_dies (s : State) (g w : Nat) (f : Warp → Warp) : (modWarp s g w f).dies = s.dies := modGroup_dies ..
@[simp] theorem modWarp_lode (s : State) (g w : Nat) (f : Warp → Warp) : (modWarp s g w f).lode = s.lode := modGroup_lode ..
@[simp] theorem modWarp_cores (s : State) (g w : Nat) (f : Warp → Warp) : (modWarp s g w f).cores = s.cores := modGroup_cores ..
@[simp] theorem modWarp_ctxs (s : State) (g w : Nat) (f : Warp → Warp) : (modWarp s g w f).ctxs = s.ctxs := modGroup_ctxs ..
@[simp] theorem modWarp_ranges (s : State) (g w : Nat) (f : Warp → Warp) : (modWarp s g w f).ranges = s.ranges := modGroup_ranges ..
@[simp] theorem modWarp_regions (s : State) (g w : Nat) (f : Warp → Warp) : (modWarp s g w f).regions = s.regions := modGroup_regions ..
@[simp] theorem modWarp_copies (s : State) (g w : Nat) (f : Warp → Warp) : (modWarp s g w f).copies = s.copies := modGroup_copies ..
@[simp] theorem modWarp_matops (s : State) (g w : Nat) (f : Warp → Warp) : (modWarp s g w f).matops = s.matops := modGroup_matops ..
@[simp] theorem modWarp_mem (s : State) (g w : Nat) (f : Warp → Warp) : (modWarp s g w f).mem = s.mem := modGroup_mem ..
@[simp] theorem modWarp_l2 (s : State) (g w : Nat) (f : Warp → Warp) : (modWarp s g w f).l2 = s.l2 := modGroup_l2 ..
@[simp] theorem modWarp_pend (s : State) (g w : Nat) (f : Warp → Warp) : (modWarp s g w f).pend = s.pend := modGroup_pend ..
@[simp] theorem modWarp_hostMem (s : State) (g w : Nat) (f : Warp → Warp) : (modWarp s g w f).hostMem = s.hostMem := modGroup_hostMem ..
@[simp] theorem modWarp_bad (s : State) (g w : Nat) (f : Warp → Warp) : (modWarp s g w f).bad = s.bad := modGroup_bad ..
@[simp] theorem modWarp_codeOld (s : State) (g w : Nat) (f : Warp → Warp) : (modWarp s g w f).codeOld = s.codeOld := modGroup_codeOld ..
@[simp] theorem modWarp_waits (s : State) (g w : Nat) (f : Warp → Warp) : (modWarp s g w f).waits = s.waits := modGroup_waits ..
@[simp] theorem modWarp_away (s : State) (g w : Nat) (f : Warp → Warp) : (modWarp s g w f).away = s.away := modGroup_away ..
@[simp] theorem modWarp_hist (s : State) (g w : Nat) (f : Warp → Warp) : (modWarp s g w f).hist = s.hist := modGroup_hist ..
@[simp] theorem modWarp_views (s : State) (g w : Nat) (f : Warp → Warp) : (modWarp s g w f).views = s.views := modGroup_views ..
@[simp] theorem modWarp_edges (s : State) (g w : Nat) (f : Warp → Warp) : (modWarp s g w f).edges = s.edges := modGroup_edges ..
@[simp] theorem modWarp_late (s : State) (g w : Nat) (f : Warp → Warp) : (modWarp s g w f).late = s.late := modGroup_late ..
@[simp] theorem modWarp_caches (s : State) (g w : Nat) (f : Warp → Warp) : (modWarp s g w f).caches = s.caches := modGroup_caches ..
@[simp] theorem modWarp_predictor (s : State) (g w : Nat) (f : Warp → Warp) : (modWarp s g w f).predictor = s.predictor := modGroup_predictor ..
@[simp] theorem modWarp_tlbs (s : State) (g w : Nat) (f : Warp → Warp) : (modWarp s g w f).tlbs = s.tlbs := modGroup_tlbs ..
@[simp] theorem modWarp_snoops (s : State) (g w : Nat) (f : Warp → Warp) : (modWarp s g w f).snoops = s.snoops := modGroup_snoops ..
@[simp] theorem modWarp_entries (s : State) (g w : Nat) (f : Warp → Warp) : (modWarp s g w f).entries = s.entries := modGroup_entries ..
@[simp] theorem modWarp_errs (s : State) (g w : Nat) (f : Warp → Warp) : (modWarp s g w f).errs = s.errs := modGroup_errs ..
@[simp] theorem modWarp_fns (s : State) (g w : Nat) (f : Warp → Warp) : (modWarp s g w f).fns = s.fns := modGroup_fns ..
@[simp] theorem modWarp_parts (s : State) (g w : Nat) (f : Warp → Warp) : (modWarp s g w f).parts = s.parts := modGroup_parts ..
@[simp] theorem modWarp_ports (s : State) (g w : Nat) (f : Warp → Warp) : (modWarp s g w f).ports = s.ports := modGroup_ports ..
@[simp] theorem modWarp_mgmt (s : State) (g w : Nat) (f : Warp → Warp) : (modWarp s g w f).mgmt = s.mgmt := modGroup_mgmt ..
@[simp] theorem modWarp_variantC (s : State) (g w : Nat) (f : Warp → Warp) : (modWarp s g w f).variantC = s.variantC := modGroup_variantC ..

/-! ## modCore -/

@[simp] theorem modCore_issue (s : State) (c : Nat) (f : Core → Core) : (modCore s c f).issue = s.issue := rfl
@[simp] theorem modCore_cur (s : State) (c : Nat) (f : Core → Core) : (modCore s c f).cur = s.cur := rfl
@[simp] theorem modCore_curWord (s : State) (c : Nat) (f : Core → Core) : (modCore s c f).curWord = s.curWord := rfl
@[simp] theorem modCore_agenda (s : State) (c : Nat) (f : Core → Core) : (modCore s c f).agenda = s.agenda := rfl
@[simp] theorem modCore_tick (s : State) (c : Nat) (f : Core → Core) : (modCore s c f).tick = s.tick := rfl
@[simp] theorem modCore_draw (s : State) (c : Nat) (f : Core → Core) : (modCore s c f).draw = s.draw := rfl
@[simp] theorem modCore_seqs (s : State) (c : Nat) (f : Core → Core) : (modCore s c f).seqs = s.seqs := rfl
@[simp] theorem modCore_timebase (s : State) (c : Nat) (f : Core → Core) : (modCore s c f).timebase = s.timebase := rfl
@[simp] theorem modCore_groups (s : State) (c : Nat) (f : Core → Core) : (modCore s c f).groups = s.groups := rfl
@[simp] theorem modCore_gangs (s : State) (c : Nat) (f : Core → Core) : (modCore s c f).gangs = s.gangs := rfl
@[simp] theorem modCore_tmpls (s : State) (c : Nat) (f : Core → Core) : (modCore s c f).tmpls = s.tmpls := rfl
@[simp] theorem modCore_grids (s : State) (c : Nat) (f : Core → Core) : (modCore s c f).grids = s.grids := rfl
@[simp] theorem modCore_graphs (s : State) (c : Nat) (f : Core → Core) : (modCore s c f).graphs = s.graphs := rfl
@[simp] theorem modCore_dies (s : State) (c : Nat) (f : Core → Core) : (modCore s c f).dies = s.dies := rfl
@[simp] theorem modCore_lode (s : State) (c : Nat) (f : Core → Core) : (modCore s c f).lode = s.lode := rfl
@[simp] theorem modCore_ctxs (s : State) (c : Nat) (f : Core → Core) : (modCore s c f).ctxs = s.ctxs := rfl
@[simp] theorem modCore_ranges (s : State) (c : Nat) (f : Core → Core) : (modCore s c f).ranges = s.ranges := rfl
@[simp] theorem modCore_regions (s : State) (c : Nat) (f : Core → Core) : (modCore s c f).regions = s.regions := rfl
@[simp] theorem modCore_copies (s : State) (c : Nat) (f : Core → Core) : (modCore s c f).copies = s.copies := rfl
@[simp] theorem modCore_matops (s : State) (c : Nat) (f : Core → Core) : (modCore s c f).matops = s.matops := rfl
@[simp] theorem modCore_mem (s : State) (c : Nat) (f : Core → Core) : (modCore s c f).mem = s.mem := rfl
@[simp] theorem modCore_l2 (s : State) (c : Nat) (f : Core → Core) : (modCore s c f).l2 = s.l2 := rfl
@[simp] theorem modCore_pend (s : State) (c : Nat) (f : Core → Core) : (modCore s c f).pend = s.pend := rfl
@[simp] theorem modCore_hostMem (s : State) (c : Nat) (f : Core → Core) : (modCore s c f).hostMem = s.hostMem := rfl
@[simp] theorem modCore_bad (s : State) (c : Nat) (f : Core → Core) : (modCore s c f).bad = s.bad := rfl
@[simp] theorem modCore_codeOld (s : State) (c : Nat) (f : Core → Core) : (modCore s c f).codeOld = s.codeOld := rfl
@[simp] theorem modCore_waits (s : State) (c : Nat) (f : Core → Core) : (modCore s c f).waits = s.waits := rfl
@[simp] theorem modCore_away (s : State) (c : Nat) (f : Core → Core) : (modCore s c f).away = s.away := rfl
@[simp] theorem modCore_hist (s : State) (c : Nat) (f : Core → Core) : (modCore s c f).hist = s.hist := rfl
@[simp] theorem modCore_views (s : State) (c : Nat) (f : Core → Core) : (modCore s c f).views = s.views := rfl
@[simp] theorem modCore_edges (s : State) (c : Nat) (f : Core → Core) : (modCore s c f).edges = s.edges := rfl
@[simp] theorem modCore_late (s : State) (c : Nat) (f : Core → Core) : (modCore s c f).late = s.late := rfl
@[simp] theorem modCore_caches (s : State) (c : Nat) (f : Core → Core) : (modCore s c f).caches = s.caches := rfl
@[simp] theorem modCore_predictor (s : State) (c : Nat) (f : Core → Core) : (modCore s c f).predictor = s.predictor := rfl
@[simp] theorem modCore_tlbs (s : State) (c : Nat) (f : Core → Core) : (modCore s c f).tlbs = s.tlbs := rfl
@[simp] theorem modCore_snoops (s : State) (c : Nat) (f : Core → Core) : (modCore s c f).snoops = s.snoops := rfl
@[simp] theorem modCore_entries (s : State) (c : Nat) (f : Core → Core) : (modCore s c f).entries = s.entries := rfl
@[simp] theorem modCore_errs (s : State) (c : Nat) (f : Core → Core) : (modCore s c f).errs = s.errs := rfl
@[simp] theorem modCore_fns (s : State) (c : Nat) (f : Core → Core) : (modCore s c f).fns = s.fns := rfl
@[simp] theorem modCore_parts (s : State) (c : Nat) (f : Core → Core) : (modCore s c f).parts = s.parts := rfl
@[simp] theorem modCore_ports (s : State) (c : Nat) (f : Core → Core) : (modCore s c f).ports = s.ports := rfl
@[simp] theorem modCore_mgmt (s : State) (c : Nat) (f : Core → Core) : (modCore s c f).mgmt = s.mgmt := rfl
@[simp] theorem modCore_variantC (s : State) (c : Nat) (f : Core → Core) : (modCore s c f).variantC = s.variantC := rfl

/-! ## modCtx -/

theorem modCtx_only (s : State) (c : Nat) (f : Ctx → Ctx) : modCtx s c f = { s with ctxs := (modCtx s c f).ctxs } := by unfold modCtx; split <;> rfl

@[simp] theorem modCtx_issue (s : State) (c : Nat) (f : Ctx → Ctx) : (modCtx s c f).issue = s.issue := by rw [modCtx_only]
@[simp] theorem modCtx_cur (s : State) (c : Nat) (f : Ctx → Ctx) : (modCtx s c f).cur = s.cur := by rw [modCtx_only]
@[simp] theorem modCtx_curWord (s : State) (c : Nat) (f : Ctx → Ctx) : (modCtx s c f).curWord = s.curWord := by rw [modCtx_only]
@[simp] theorem modCtx_agenda (s : State) (c : Nat) (f : Ctx → Ctx) : (modCtx s c f).agenda = s.agenda := by rw [modCtx_only]
@[simp] theorem modCtx_tick (s : State) (c : Nat) (f : Ctx → Ctx) : (modCtx s c f).tick = s.tick := by rw [modCtx_only]
@[simp] theorem modCtx_draw (s : State) (c : Nat) (f : Ctx → Ctx) : (modCtx s c f).draw = s.draw := by rw [modCtx_only]
@[simp] theorem modCtx_seqs (s : State) (c : Nat) (f : Ctx → Ctx) : (modCtx s c f).seqs = s.seqs := by rw [modCtx_only]
@[simp] theorem modCtx_timebase (s : State) (c : Nat) (f : Ctx → Ctx) : (modCtx s c f).timebase = s.timebase := by rw [modCtx_only]
@[simp] theorem modCtx_groups (s : State) (c : Nat) (f : Ctx → Ctx) : (modCtx s c f).groups = s.groups := by rw [modCtx_only]
@[simp] theorem modCtx_gangs (s : State) (c : Nat) (f : Ctx → Ctx) : (modCtx s c f).gangs = s.gangs := by rw [modCtx_only]
@[simp] theorem modCtx_tmpls (s : State) (c : Nat) (f : Ctx → Ctx) : (modCtx s c f).tmpls = s.tmpls := by rw [modCtx_only]
@[simp] theorem modCtx_grids (s : State) (c : Nat) (f : Ctx → Ctx) : (modCtx s c f).grids = s.grids := by rw [modCtx_only]
@[simp] theorem modCtx_graphs (s : State) (c : Nat) (f : Ctx → Ctx) : (modCtx s c f).graphs = s.graphs := by rw [modCtx_only]
@[simp] theorem modCtx_dies (s : State) (c : Nat) (f : Ctx → Ctx) : (modCtx s c f).dies = s.dies := by rw [modCtx_only]
@[simp] theorem modCtx_lode (s : State) (c : Nat) (f : Ctx → Ctx) : (modCtx s c f).lode = s.lode := by rw [modCtx_only]
@[simp] theorem modCtx_cores (s : State) (c : Nat) (f : Ctx → Ctx) : (modCtx s c f).cores = s.cores := by rw [modCtx_only]
@[simp] theorem modCtx_ranges (s : State) (c : Nat) (f : Ctx → Ctx) : (modCtx s c f).ranges = s.ranges := by rw [modCtx_only]
@[simp] theorem modCtx_regions (s : State) (c : Nat) (f : Ctx → Ctx) : (modCtx s c f).regions = s.regions := by rw [modCtx_only]
@[simp] theorem modCtx_copies (s : State) (c : Nat) (f : Ctx → Ctx) : (modCtx s c f).copies = s.copies := by rw [modCtx_only]
@[simp] theorem modCtx_matops (s : State) (c : Nat) (f : Ctx → Ctx) : (modCtx s c f).matops = s.matops := by rw [modCtx_only]
@[simp] theorem modCtx_mem (s : State) (c : Nat) (f : Ctx → Ctx) : (modCtx s c f).mem = s.mem := by rw [modCtx_only]
@[simp] theorem modCtx_l2 (s : State) (c : Nat) (f : Ctx → Ctx) : (modCtx s c f).l2 = s.l2 := by rw [modCtx_only]
@[simp] theorem modCtx_pend (s : State) (c : Nat) (f : Ctx → Ctx) : (modCtx s c f).pend = s.pend := by rw [modCtx_only]
@[simp] theorem modCtx_hostMem (s : State) (c : Nat) (f : Ctx → Ctx) : (modCtx s c f).hostMem = s.hostMem := by rw [modCtx_only]
@[simp] theorem modCtx_bad (s : State) (c : Nat) (f : Ctx → Ctx) : (modCtx s c f).bad = s.bad := by rw [modCtx_only]
@[simp] theorem modCtx_codeOld (s : State) (c : Nat) (f : Ctx → Ctx) : (modCtx s c f).codeOld = s.codeOld := by rw [modCtx_only]
@[simp] theorem modCtx_waits (s : State) (c : Nat) (f : Ctx → Ctx) : (modCtx s c f).waits = s.waits := by rw [modCtx_only]
@[simp] theorem modCtx_away (s : State) (c : Nat) (f : Ctx → Ctx) : (modCtx s c f).away = s.away := by rw [modCtx_only]
@[simp] theorem modCtx_hist (s : State) (c : Nat) (f : Ctx → Ctx) : (modCtx s c f).hist = s.hist := by rw [modCtx_only]
@[simp] theorem modCtx_views (s : State) (c : Nat) (f : Ctx → Ctx) : (modCtx s c f).views = s.views := by rw [modCtx_only]
@[simp] theorem modCtx_edges (s : State) (c : Nat) (f : Ctx → Ctx) : (modCtx s c f).edges = s.edges := by rw [modCtx_only]
@[simp] theorem modCtx_late (s : State) (c : Nat) (f : Ctx → Ctx) : (modCtx s c f).late = s.late := by rw [modCtx_only]
@[simp] theorem modCtx_caches (s : State) (c : Nat) (f : Ctx → Ctx) : (modCtx s c f).caches = s.caches := by rw [modCtx_only]
@[simp] theorem modCtx_predictor (s : State) (c : Nat) (f : Ctx → Ctx) : (modCtx s c f).predictor = s.predictor := by rw [modCtx_only]
@[simp] theorem modCtx_tlbs (s : State) (c : Nat) (f : Ctx → Ctx) : (modCtx s c f).tlbs = s.tlbs := by rw [modCtx_only]
@[simp] theorem modCtx_snoops (s : State) (c : Nat) (f : Ctx → Ctx) : (modCtx s c f).snoops = s.snoops := by rw [modCtx_only]
@[simp] theorem modCtx_entries (s : State) (c : Nat) (f : Ctx → Ctx) : (modCtx s c f).entries = s.entries := by rw [modCtx_only]
@[simp] theorem modCtx_errs (s : State) (c : Nat) (f : Ctx → Ctx) : (modCtx s c f).errs = s.errs := by rw [modCtx_only]
@[simp] theorem modCtx_fns (s : State) (c : Nat) (f : Ctx → Ctx) : (modCtx s c f).fns = s.fns := by rw [modCtx_only]
@[simp] theorem modCtx_parts (s : State) (c : Nat) (f : Ctx → Ctx) : (modCtx s c f).parts = s.parts := by rw [modCtx_only]
@[simp] theorem modCtx_ports (s : State) (c : Nat) (f : Ctx → Ctx) : (modCtx s c f).ports = s.ports := by rw [modCtx_only]
@[simp] theorem modCtx_mgmt (s : State) (c : Nat) (f : Ctx → Ctx) : (modCtx s c f).mgmt = s.mgmt := by rw [modCtx_only]
@[simp] theorem modCtx_variantC (s : State) (c : Nat) (f : Ctx → Ctx) : (modCtx s c f).variantC = s.variantC := by rw [modCtx_only]

/-! ## modDie -/

@[simp] theorem modDie_issue (s : State) (d : Nat) (f : Die → Die) : (modDie s d f).issue = s.issue := rfl
@[simp] theorem modDie_cur (s : State) (d : Nat) (f : Die → Die) : (modDie s d f).cur = s.cur := rfl
@[simp] theorem modDie_curWord (s : State) (d : Nat) (f : Die → Die) : (modDie s d f).curWord = s.curWord := rfl
@[simp] theorem modDie_agenda (s : State) (d : Nat) (f : Die → Die) : (modDie s d f).agenda = s.agenda := rfl
@[simp] theorem modDie_tick (s : State) (d : Nat) (f : Die → Die) : (modDie s d f).tick = s.tick := rfl
@[simp] theorem modDie_draw (s : State) (d : Nat) (f : Die → Die) : (modDie s d f).draw = s.draw := rfl
@[simp] theorem modDie_seqs (s : State) (d : Nat) (f : Die → Die) : (modDie s d f).seqs = s.seqs := rfl
@[simp] theorem modDie_timebase (s : State) (d : Nat) (f : Die → Die) : (modDie s d f).timebase = s.timebase := rfl
@[simp] theorem modDie_groups (s : State) (d : Nat) (f : Die → Die) : (modDie s d f).groups = s.groups := rfl
@[simp] theorem modDie_gangs (s : State) (d : Nat) (f : Die → Die) : (modDie s d f).gangs = s.gangs := rfl
@[simp] theorem modDie_tmpls (s : State) (d : Nat) (f : Die → Die) : (modDie s d f).tmpls = s.tmpls := rfl
@[simp] theorem modDie_grids (s : State) (d : Nat) (f : Die → Die) : (modDie s d f).grids = s.grids := rfl
@[simp] theorem modDie_graphs (s : State) (d : Nat) (f : Die → Die) : (modDie s d f).graphs = s.graphs := rfl
@[simp] theorem modDie_lode (s : State) (d : Nat) (f : Die → Die) : (modDie s d f).lode = s.lode := rfl
@[simp] theorem modDie_cores (s : State) (d : Nat) (f : Die → Die) : (modDie s d f).cores = s.cores := rfl
@[simp] theorem modDie_ctxs (s : State) (d : Nat) (f : Die → Die) : (modDie s d f).ctxs = s.ctxs := rfl
@[simp] theorem modDie_ranges (s : State) (d : Nat) (f : Die → Die) : (modDie s d f).ranges = s.ranges := rfl
@[simp] theorem modDie_regions (s : State) (d : Nat) (f : Die → Die) : (modDie s d f).regions = s.regions := rfl
@[simp] theorem modDie_copies (s : State) (d : Nat) (f : Die → Die) : (modDie s d f).copies = s.copies := rfl
@[simp] theorem modDie_matops (s : State) (d : Nat) (f : Die → Die) : (modDie s d f).matops = s.matops := rfl
@[simp] theorem modDie_mem (s : State) (d : Nat) (f : Die → Die) : (modDie s d f).mem = s.mem := rfl
@[simp] theorem modDie_l2 (s : State) (d : Nat) (f : Die → Die) : (modDie s d f).l2 = s.l2 := rfl
@[simp] theorem modDie_pend (s : State) (d : Nat) (f : Die → Die) : (modDie s d f).pend = s.pend := rfl
@[simp] theorem modDie_hostMem (s : State) (d : Nat) (f : Die → Die) : (modDie s d f).hostMem = s.hostMem := rfl
@[simp] theorem modDie_bad (s : State) (d : Nat) (f : Die → Die) : (modDie s d f).bad = s.bad := rfl
@[simp] theorem modDie_codeOld (s : State) (d : Nat) (f : Die → Die) : (modDie s d f).codeOld = s.codeOld := rfl
@[simp] theorem modDie_waits (s : State) (d : Nat) (f : Die → Die) : (modDie s d f).waits = s.waits := rfl
@[simp] theorem modDie_away (s : State) (d : Nat) (f : Die → Die) : (modDie s d f).away = s.away := rfl
@[simp] theorem modDie_hist (s : State) (d : Nat) (f : Die → Die) : (modDie s d f).hist = s.hist := rfl
@[simp] theorem modDie_views (s : State) (d : Nat) (f : Die → Die) : (modDie s d f).views = s.views := rfl
@[simp] theorem modDie_edges (s : State) (d : Nat) (f : Die → Die) : (modDie s d f).edges = s.edges := rfl
@[simp] theorem modDie_late (s : State) (d : Nat) (f : Die → Die) : (modDie s d f).late = s.late := rfl
@[simp] theorem modDie_caches (s : State) (d : Nat) (f : Die → Die) : (modDie s d f).caches = s.caches := rfl
@[simp] theorem modDie_predictor (s : State) (d : Nat) (f : Die → Die) : (modDie s d f).predictor = s.predictor := rfl
@[simp] theorem modDie_tlbs (s : State) (d : Nat) (f : Die → Die) : (modDie s d f).tlbs = s.tlbs := rfl
@[simp] theorem modDie_snoops (s : State) (d : Nat) (f : Die → Die) : (modDie s d f).snoops = s.snoops := rfl
@[simp] theorem modDie_entries (s : State) (d : Nat) (f : Die → Die) : (modDie s d f).entries = s.entries := rfl
@[simp] theorem modDie_errs (s : State) (d : Nat) (f : Die → Die) : (modDie s d f).errs = s.errs := rfl
@[simp] theorem modDie_fns (s : State) (d : Nat) (f : Die → Die) : (modDie s d f).fns = s.fns := rfl
@[simp] theorem modDie_parts (s : State) (d : Nat) (f : Die → Die) : (modDie s d f).parts = s.parts := rfl
@[simp] theorem modDie_ports (s : State) (d : Nat) (f : Die → Die) : (modDie s d f).ports = s.ports := rfl
@[simp] theorem modDie_mgmt (s : State) (d : Nat) (f : Die → Die) : (modDie s d f).mgmt = s.mgmt := rfl
@[simp] theorem modDie_variantC (s : State) (d : Nat) (f : Die → Die) : (modDie s d f).variantC = s.variantC := rfl

/-! ## modGrid -/

@[simp] theorem modGrid_issue (s : State) (g : Nat) (f : Grid → Grid) : (modGrid s g f).issue = s.issue := rfl
@[simp] theorem modGrid_cur (s : State) (g : Nat) (f : Grid → Grid) : (modGrid s g f).cur = s.cur := rfl
@[simp] theorem modGrid_curWord (s : State) (g : Nat) (f : Grid → Grid) : (modGrid s g f).curWord = s.curWord := rfl
@[simp] theorem modGrid_agenda (s : State) (g : Nat) (f : Grid → Grid) : (modGrid s g f).agenda = s.agenda := rfl
@[simp] theorem modGrid_tick (s : State) (g : Nat) (f : Grid → Grid) : (modGrid s g f).tick = s.tick := rfl
@[simp] theorem modGrid_draw (s : State) (g : Nat) (f : Grid → Grid) : (modGrid s g f).draw = s.draw := rfl
@[simp] theorem modGrid_seqs (s : State) (g : Nat) (f : Grid → Grid) : (modGrid s g f).seqs = s.seqs := rfl
@[simp] theorem modGrid_timebase (s : State) (g : Nat) (f : Grid → Grid) : (modGrid s g f).timebase = s.timebase := rfl
@[simp] theorem modGrid_groups (s : State) (g : Nat) (f : Grid → Grid) : (modGrid s g f).groups = s.groups := rfl
@[simp] theorem modGrid_gangs (s : State) (g : Nat) (f : Grid → Grid) : (modGrid s g f).gangs = s.gangs := rfl
@[simp] theorem modGrid_tmpls (s : State) (g : Nat) (f : Grid → Grid) : (modGrid s g f).tmpls = s.tmpls := rfl
@[simp] theorem modGrid_graphs (s : State) (g : Nat) (f : Grid → Grid) : (modGrid s g f).graphs = s.graphs := rfl
@[simp] theorem modGrid_dies (s : State) (g : Nat) (f : Grid → Grid) : (modGrid s g f).dies = s.dies := rfl
@[simp] theorem modGrid_lode (s : State) (g : Nat) (f : Grid → Grid) : (modGrid s g f).lode = s.lode := rfl
@[simp] theorem modGrid_cores (s : State) (g : Nat) (f : Grid → Grid) : (modGrid s g f).cores = s.cores := rfl
@[simp] theorem modGrid_ctxs (s : State) (g : Nat) (f : Grid → Grid) : (modGrid s g f).ctxs = s.ctxs := rfl
@[simp] theorem modGrid_ranges (s : State) (g : Nat) (f : Grid → Grid) : (modGrid s g f).ranges = s.ranges := rfl
@[simp] theorem modGrid_regions (s : State) (g : Nat) (f : Grid → Grid) : (modGrid s g f).regions = s.regions := rfl
@[simp] theorem modGrid_copies (s : State) (g : Nat) (f : Grid → Grid) : (modGrid s g f).copies = s.copies := rfl
@[simp] theorem modGrid_matops (s : State) (g : Nat) (f : Grid → Grid) : (modGrid s g f).matops = s.matops := rfl
@[simp] theorem modGrid_mem (s : State) (g : Nat) (f : Grid → Grid) : (modGrid s g f).mem = s.mem := rfl
@[simp] theorem modGrid_l2 (s : State) (g : Nat) (f : Grid → Grid) : (modGrid s g f).l2 = s.l2 := rfl
@[simp] theorem modGrid_pend (s : State) (g : Nat) (f : Grid → Grid) : (modGrid s g f).pend = s.pend := rfl
@[simp] theorem modGrid_hostMem (s : State) (g : Nat) (f : Grid → Grid) : (modGrid s g f).hostMem = s.hostMem := rfl
@[simp] theorem modGrid_bad (s : State) (g : Nat) (f : Grid → Grid) : (modGrid s g f).bad = s.bad := rfl
@[simp] theorem modGrid_codeOld (s : State) (g : Nat) (f : Grid → Grid) : (modGrid s g f).codeOld = s.codeOld := rfl
@[simp] theorem modGrid_waits (s : State) (g : Nat) (f : Grid → Grid) : (modGrid s g f).waits = s.waits := rfl
@[simp] theorem modGrid_away (s : State) (g : Nat) (f : Grid → Grid) : (modGrid s g f).away = s.away := rfl
@[simp] theorem modGrid_hist (s : State) (g : Nat) (f : Grid → Grid) : (modGrid s g f).hist = s.hist := rfl
@[simp] theorem modGrid_views (s : State) (g : Nat) (f : Grid → Grid) : (modGrid s g f).views = s.views := rfl
@[simp] theorem modGrid_edges (s : State) (g : Nat) (f : Grid → Grid) : (modGrid s g f).edges = s.edges := rfl
@[simp] theorem modGrid_late (s : State) (g : Nat) (f : Grid → Grid) : (modGrid s g f).late = s.late := rfl
@[simp] theorem modGrid_caches (s : State) (g : Nat) (f : Grid → Grid) : (modGrid s g f).caches = s.caches := rfl
@[simp] theorem modGrid_predictor (s : State) (g : Nat) (f : Grid → Grid) : (modGrid s g f).predictor = s.predictor := rfl
@[simp] theorem modGrid_tlbs (s : State) (g : Nat) (f : Grid → Grid) : (modGrid s g f).tlbs = s.tlbs := rfl
@[simp] theorem modGrid_snoops (s : State) (g : Nat) (f : Grid → Grid) : (modGrid s g f).snoops = s.snoops := rfl
@[simp] theorem modGrid_entries (s : State) (g : Nat) (f : Grid → Grid) : (modGrid s g f).entries = s.entries := rfl
@[simp] theorem modGrid_errs (s : State) (g : Nat) (f : Grid → Grid) : (modGrid s g f).errs = s.errs := rfl
@[simp] theorem modGrid_fns (s : State) (g : Nat) (f : Grid → Grid) : (modGrid s g f).fns = s.fns := rfl
@[simp] theorem modGrid_parts (s : State) (g : Nat) (f : Grid → Grid) : (modGrid s g f).parts = s.parts := rfl
@[simp] theorem modGrid_ports (s : State) (g : Nat) (f : Grid → Grid) : (modGrid s g f).ports = s.ports := rfl
@[simp] theorem modGrid_mgmt (s : State) (g : Nat) (f : Grid → Grid) : (modGrid s g f).mgmt = s.mgmt := rfl
@[simp] theorem modGrid_variantC (s : State) (g : Nat) (f : Grid → Grid) : (modGrid s g f).variantC = s.variantC := rfl

/-! ## modGraph -/

@[simp] theorem modGraph_issue (s : State) (g : Nat) (f : Graph → Graph) : (modGraph s g f).issue = s.issue := rfl
@[simp] theorem modGraph_cur (s : State) (g : Nat) (f : Graph → Graph) : (modGraph s g f).cur = s.cur := rfl
@[simp] theorem modGraph_curWord (s : State) (g : Nat) (f : Graph → Graph) : (modGraph s g f).curWord = s.curWord := rfl
@[simp] theorem modGraph_agenda (s : State) (g : Nat) (f : Graph → Graph) : (modGraph s g f).agenda = s.agenda := rfl
@[simp] theorem modGraph_tick (s : State) (g : Nat) (f : Graph → Graph) : (modGraph s g f).tick = s.tick := rfl
@[simp] theorem modGraph_draw (s : State) (g : Nat) (f : Graph → Graph) : (modGraph s g f).draw = s.draw := rfl
@[simp] theorem modGraph_seqs (s : State) (g : Nat) (f : Graph → Graph) : (modGraph s g f).seqs = s.seqs := rfl
@[simp] theorem modGraph_timebase (s : State) (g : Nat) (f : Graph → Graph) : (modGraph s g f).timebase = s.timebase := rfl
@[simp] theorem modGraph_groups (s : State) (g : Nat) (f : Graph → Graph) : (modGraph s g f).groups = s.groups := rfl
@[simp] theorem modGraph_gangs (s : State) (g : Nat) (f : Graph → Graph) : (modGraph s g f).gangs = s.gangs := rfl
@[simp] theorem modGraph_tmpls (s : State) (g : Nat) (f : Graph → Graph) : (modGraph s g f).tmpls = s.tmpls := rfl
@[simp] theorem modGraph_grids (s : State) (g : Nat) (f : Graph → Graph) : (modGraph s g f).grids = s.grids := rfl
@[simp] theorem modGraph_dies (s : State) (g : Nat) (f : Graph → Graph) : (modGraph s g f).dies = s.dies := rfl
@[simp] theorem modGraph_lode (s : State) (g : Nat) (f : Graph → Graph) : (modGraph s g f).lode = s.lode := rfl
@[simp] theorem modGraph_cores (s : State) (g : Nat) (f : Graph → Graph) : (modGraph s g f).cores = s.cores := rfl
@[simp] theorem modGraph_ctxs (s : State) (g : Nat) (f : Graph → Graph) : (modGraph s g f).ctxs = s.ctxs := rfl
@[simp] theorem modGraph_ranges (s : State) (g : Nat) (f : Graph → Graph) : (modGraph s g f).ranges = s.ranges := rfl
@[simp] theorem modGraph_regions (s : State) (g : Nat) (f : Graph → Graph) : (modGraph s g f).regions = s.regions := rfl
@[simp] theorem modGraph_copies (s : State) (g : Nat) (f : Graph → Graph) : (modGraph s g f).copies = s.copies := rfl
@[simp] theorem modGraph_matops (s : State) (g : Nat) (f : Graph → Graph) : (modGraph s g f).matops = s.matops := rfl
@[simp] theorem modGraph_mem (s : State) (g : Nat) (f : Graph → Graph) : (modGraph s g f).mem = s.mem := rfl
@[simp] theorem modGraph_l2 (s : State) (g : Nat) (f : Graph → Graph) : (modGraph s g f).l2 = s.l2 := rfl
@[simp] theorem modGraph_pend (s : State) (g : Nat) (f : Graph → Graph) : (modGraph s g f).pend = s.pend := rfl
@[simp] theorem modGraph_hostMem (s : State) (g : Nat) (f : Graph → Graph) : (modGraph s g f).hostMem = s.hostMem := rfl
@[simp] theorem modGraph_bad (s : State) (g : Nat) (f : Graph → Graph) : (modGraph s g f).bad = s.bad := rfl
@[simp] theorem modGraph_codeOld (s : State) (g : Nat) (f : Graph → Graph) : (modGraph s g f).codeOld = s.codeOld := rfl
@[simp] theorem modGraph_waits (s : State) (g : Nat) (f : Graph → Graph) : (modGraph s g f).waits = s.waits := rfl
@[simp] theorem modGraph_away (s : State) (g : Nat) (f : Graph → Graph) : (modGraph s g f).away = s.away := rfl
@[simp] theorem modGraph_hist (s : State) (g : Nat) (f : Graph → Graph) : (modGraph s g f).hist = s.hist := rfl
@[simp] theorem modGraph_views (s : State) (g : Nat) (f : Graph → Graph) : (modGraph s g f).views = s.views := rfl
@[simp] theorem modGraph_edges (s : State) (g : Nat) (f : Graph → Graph) : (modGraph s g f).edges = s.edges := rfl
@[simp] theorem modGraph_late (s : State) (g : Nat) (f : Graph → Graph) : (modGraph s g f).late = s.late := rfl
@[simp] theorem modGraph_caches (s : State) (g : Nat) (f : Graph → Graph) : (modGraph s g f).caches = s.caches := rfl
@[simp] theorem modGraph_predictor (s : State) (g : Nat) (f : Graph → Graph) : (modGraph s g f).predictor = s.predictor := rfl
@[simp] theorem modGraph_tlbs (s : State) (g : Nat) (f : Graph → Graph) : (modGraph s g f).tlbs = s.tlbs := rfl
@[simp] theorem modGraph_snoops (s : State) (g : Nat) (f : Graph → Graph) : (modGraph s g f).snoops = s.snoops := rfl
@[simp] theorem modGraph_entries (s : State) (g : Nat) (f : Graph → Graph) : (modGraph s g f).entries = s.entries := rfl
@[simp] theorem modGraph_errs (s : State) (g : Nat) (f : Graph → Graph) : (modGraph s g f).errs = s.errs := rfl
@[simp] theorem modGraph_fns (s : State) (g : Nat) (f : Graph → Graph) : (modGraph s g f).fns = s.fns := rfl
@[simp] theorem modGraph_parts (s : State) (g : Nat) (f : Graph → Graph) : (modGraph s g f).parts = s.parts := rfl
@[simp] theorem modGraph_ports (s : State) (g : Nat) (f : Graph → Graph) : (modGraph s g f).ports = s.ports := rfl
@[simp] theorem modGraph_mgmt (s : State) (g : Nat) (f : Graph → Graph) : (modGraph s g f).mgmt = s.mgmt := rfl
@[simp] theorem modGraph_variantC (s : State) (g : Nat) (f : Graph → Graph) : (modGraph s g f).variantC = s.variantC := rfl

/-! ## modNode -/

@[simp] theorem modNode_issue (s : State) (g n : Nat) (f : Node → Node) : (modNode s g n f).issue = s.issue := rfl
@[simp] theorem modNode_cur (s : State) (g n : Nat) (f : Node → Node) : (modNode s g n f).cur = s.cur := rfl
@[simp] theorem modNode_curWord (s : State) (g n : Nat) (f : Node → Node) : (modNode s g n f).curWord = s.curWord := rfl
@[simp] theorem modNode_agenda (s : State) (g n : Nat) (f : Node → Node) : (modNode s g n f).agenda = s.agenda := rfl
@[simp] theorem modNode_tick (s : State) (g n : Nat) (f : Node → Node) : (modNode s g n f).tick = s.tick := rfl
@[simp] theorem modNode_draw (s : State) (g n : Nat) (f : Node → Node) : (modNode s g n f).draw = s.draw := rfl
@[simp] theorem modNode_seqs (s : State) (g n : Nat) (f : Node → Node) : (modNode s g n f).seqs = s.seqs := rfl
@[simp] theorem modNode_timebase (s : State) (g n : Nat) (f : Node → Node) : (modNode s g n f).timebase = s.timebase := rfl
@[simp] theorem modNode_groups (s : State) (g n : Nat) (f : Node → Node) : (modNode s g n f).groups = s.groups := rfl
@[simp] theorem modNode_gangs (s : State) (g n : Nat) (f : Node → Node) : (modNode s g n f).gangs = s.gangs := rfl
@[simp] theorem modNode_tmpls (s : State) (g n : Nat) (f : Node → Node) : (modNode s g n f).tmpls = s.tmpls := rfl
@[simp] theorem modNode_grids (s : State) (g n : Nat) (f : Node → Node) : (modNode s g n f).grids = s.grids := rfl
@[simp] theorem modNode_dies (s : State) (g n : Nat) (f : Node → Node) : (modNode s g n f).dies = s.dies := rfl
@[simp] theorem modNode_lode (s : State) (g n : Nat) (f : Node → Node) : (modNode s g n f).lode = s.lode := rfl
@[simp] theorem modNode_cores (s : State) (g n : Nat) (f : Node → Node) : (modNode s g n f).cores = s.cores := rfl
@[simp] theorem modNode_ctxs (s : State) (g n : Nat) (f : Node → Node) : (modNode s g n f).ctxs = s.ctxs := rfl
@[simp] theorem modNode_ranges (s : State) (g n : Nat) (f : Node → Node) : (modNode s g n f).ranges = s.ranges := rfl
@[simp] theorem modNode_regions (s : State) (g n : Nat) (f : Node → Node) : (modNode s g n f).regions = s.regions := rfl
@[simp] theorem modNode_copies (s : State) (g n : Nat) (f : Node → Node) : (modNode s g n f).copies = s.copies := rfl
@[simp] theorem modNode_matops (s : State) (g n : Nat) (f : Node → Node) : (modNode s g n f).matops = s.matops := rfl
@[simp] theorem modNode_mem (s : State) (g n : Nat) (f : Node → Node) : (modNode s g n f).mem = s.mem := rfl
@[simp] theorem modNode_l2 (s : State) (g n : Nat) (f : Node → Node) : (modNode s g n f).l2 = s.l2 := rfl
@[simp] theorem modNode_pend (s : State) (g n : Nat) (f : Node → Node) : (modNode s g n f).pend = s.pend := rfl
@[simp] theorem modNode_hostMem (s : State) (g n : Nat) (f : Node → Node) : (modNode s g n f).hostMem = s.hostMem := rfl
@[simp] theorem modNode_bad (s : State) (g n : Nat) (f : Node → Node) : (modNode s g n f).bad = s.bad := rfl
@[simp] theorem modNode_codeOld (s : State) (g n : Nat) (f : Node → Node) : (modNode s g n f).codeOld = s.codeOld := rfl
@[simp] theorem modNode_waits (s : State) (g n : Nat) (f : Node → Node) : (modNode s g n f).waits = s.waits := rfl
@[simp] theorem modNode_away (s : State) (g n : Nat) (f : Node → Node) : (modNode s g n f).away = s.away := rfl
@[simp] theorem modNode_hist (s : State) (g n : Nat) (f : Node → Node) : (modNode s g n f).hist = s.hist := rfl
@[simp] theorem modNode_views (s : State) (g n : Nat) (f : Node → Node) : (modNode s g n f).views = s.views := rfl
@[simp] theorem modNode_edges (s : State) (g n : Nat) (f : Node → Node) : (modNode s g n f).edges = s.edges := rfl
@[simp] theorem modNode_late (s : State) (g n : Nat) (f : Node → Node) : (modNode s g n f).late = s.late := rfl
@[simp] theorem modNode_caches (s : State) (g n : Nat) (f : Node → Node) : (modNode s g n f).caches = s.caches := rfl
@[simp] theorem modNode_predictor (s : State) (g n : Nat) (f : Node → Node) : (modNode s g n f).predictor = s.predictor := rfl
@[simp] theorem modNode_tlbs (s : State) (g n : Nat) (f : Node → Node) : (modNode s g n f).tlbs = s.tlbs := rfl
@[simp] theorem modNode_snoops (s : State) (g n : Nat) (f : Node → Node) : (modNode s g n f).snoops = s.snoops := rfl
@[simp] theorem modNode_entries (s : State) (g n : Nat) (f : Node → Node) : (modNode s g n f).entries = s.entries := rfl
@[simp] theorem modNode_errs (s : State) (g n : Nat) (f : Node → Node) : (modNode s g n f).errs = s.errs := rfl
@[simp] theorem modNode_fns (s : State) (g n : Nat) (f : Node → Node) : (modNode s g n f).fns = s.fns := rfl
@[simp] theorem modNode_parts (s : State) (g n : Nat) (f : Node → Node) : (modNode s g n f).parts = s.parts := rfl
@[simp] theorem modNode_ports (s : State) (g n : Nat) (f : Node → Node) : (modNode s g n f).ports = s.ports := rfl
@[simp] theorem modNode_mgmt (s : State) (g n : Nat) (f : Node → Node) : (modNode s g n f).mgmt = s.mgmt := rfl
@[simp] theorem modNode_variantC (s : State) (g n : Nat) (f : Node → Node) : (modNode s g n f).variantC = s.variantC := rfl

/-! ## modTmpl -/

@[simp] theorem modTmpl_issue (s : State) (t : Nat) (f : Template → Template) : (modTmpl s t f).issue = s.issue := rfl
@[simp] theorem modTmpl_cur (s : State) (t : Nat) (f : Template → Template) : (modTmpl s t f).cur = s.cur := rfl
@[simp] theorem modTmpl_curWord (s : State) (t : Nat) (f : Template → Template) : (modTmpl s t f).curWord = s.curWord := rfl
@[simp] theorem modTmpl_agenda (s : State) (t : Nat) (f : Template → Template) : (modTmpl s t f).agenda = s.agenda := rfl
@[simp] theorem modTmpl_tick (s : State) (t : Nat) (f : Template → Template) : (modTmpl s t f).tick = s.tick := rfl
@[simp] theorem modTmpl_draw (s : State) (t : Nat) (f : Template → Template) : (modTmpl s t f).draw = s.draw := rfl
@[simp] theorem modTmpl_seqs (s : State) (t : Nat) (f : Template → Template) : (modTmpl s t f).seqs = s.seqs := rfl
@[simp] theorem modTmpl_timebase (s : State) (t : Nat) (f : Template → Template) : (modTmpl s t f).timebase = s.timebase := rfl
@[simp] theorem modTmpl_groups (s : State) (t : Nat) (f : Template → Template) : (modTmpl s t f).groups = s.groups := rfl
@[simp] theorem modTmpl_gangs (s : State) (t : Nat) (f : Template → Template) : (modTmpl s t f).gangs = s.gangs := rfl
@[simp] theorem modTmpl_grids (s : State) (t : Nat) (f : Template → Template) : (modTmpl s t f).grids = s.grids := rfl
@[simp] theorem modTmpl_graphs (s : State) (t : Nat) (f : Template → Template) : (modTmpl s t f).graphs = s.graphs := rfl
@[simp] theorem modTmpl_dies (s : State) (t : Nat) (f : Template → Template) : (modTmpl s t f).dies = s.dies := rfl
@[simp] theorem modTmpl_lode (s : State) (t : Nat) (f : Template → Template) : (modTmpl s t f).lode = s.lode := rfl
@[simp] theorem modTmpl_cores (s : State) (t : Nat) (f : Template → Template) : (modTmpl s t f).cores = s.cores := rfl
@[simp] theorem modTmpl_ctxs (s : State) (t : Nat) (f : Template → Template) : (modTmpl s t f).ctxs = s.ctxs := rfl
@[simp] theorem modTmpl_ranges (s : State) (t : Nat) (f : Template → Template) : (modTmpl s t f).ranges = s.ranges := rfl
@[simp] theorem modTmpl_regions (s : State) (t : Nat) (f : Template → Template) : (modTmpl s t f).regions = s.regions := rfl
@[simp] theorem modTmpl_copies (s : State) (t : Nat) (f : Template → Template) : (modTmpl s t f).copies = s.copies := rfl
@[simp] theorem modTmpl_matops (s : State) (t : Nat) (f : Template → Template) : (modTmpl s t f).matops = s.matops := rfl
@[simp] theorem modTmpl_mem (s : State) (t : Nat) (f : Template → Template) : (modTmpl s t f).mem = s.mem := rfl
@[simp] theorem modTmpl_l2 (s : State) (t : Nat) (f : Template → Template) : (modTmpl s t f).l2 = s.l2 := rfl
@[simp] theorem modTmpl_pend (s : State) (t : Nat) (f : Template → Template) : (modTmpl s t f).pend = s.pend := rfl
@[simp] theorem modTmpl_hostMem (s : State) (t : Nat) (f : Template → Template) : (modTmpl s t f).hostMem = s.hostMem := rfl
@[simp] theorem modTmpl_bad (s : State) (t : Nat) (f : Template → Template) : (modTmpl s t f).bad = s.bad := rfl
@[simp] theorem modTmpl_codeOld (s : State) (t : Nat) (f : Template → Template) : (modTmpl s t f).codeOld = s.codeOld := rfl
@[simp] theorem modTmpl_waits (s : State) (t : Nat) (f : Template → Template) : (modTmpl s t f).waits = s.waits := rfl
@[simp] theorem modTmpl_away (s : State) (t : Nat) (f : Template → Template) : (modTmpl s t f).away = s.away := rfl
@[simp] theorem modTmpl_hist (s : State) (t : Nat) (f : Template → Template) : (modTmpl s t f).hist = s.hist := rfl
@[simp] theorem modTmpl_views (s : State) (t : Nat) (f : Template → Template) : (modTmpl s t f).views = s.views := rfl
@[simp] theorem modTmpl_edges (s : State) (t : Nat) (f : Template → Template) : (modTmpl s t f).edges = s.edges := rfl
@[simp] theorem modTmpl_late (s : State) (t : Nat) (f : Template → Template) : (modTmpl s t f).late = s.late := rfl
@[simp] theorem modTmpl_caches (s : State) (t : Nat) (f : Template → Template) : (modTmpl s t f).caches = s.caches := rfl
@[simp] theorem modTmpl_predictor (s : State) (t : Nat) (f : Template → Template) : (modTmpl s t f).predictor = s.predictor := rfl
@[simp] theorem modTmpl_tlbs (s : State) (t : Nat) (f : Template → Template) : (modTmpl s t f).tlbs = s.tlbs := rfl
@[simp] theorem modTmpl_snoops (s : State) (t : Nat) (f : Template → Template) : (modTmpl s t f).snoops = s.snoops := rfl
@[simp] theorem modTmpl_entries (s : State) (t : Nat) (f : Template → Template) : (modTmpl s t f).entries = s.entries := rfl
@[simp] theorem modTmpl_errs (s : State) (t : Nat) (f : Template → Template) : (modTmpl s t f).errs = s.errs := rfl
@[simp] theorem modTmpl_fns (s : State) (t : Nat) (f : Template → Template) : (modTmpl s t f).fns = s.fns := rfl
@[simp] theorem modTmpl_parts (s : State) (t : Nat) (f : Template → Template) : (modTmpl s t f).parts = s.parts := rfl
@[simp] theorem modTmpl_ports (s : State) (t : Nat) (f : Template → Template) : (modTmpl s t f).ports = s.ports := rfl
@[simp] theorem modTmpl_mgmt (s : State) (t : Nat) (f : Template → Template) : (modTmpl s t f).mgmt = s.mgmt := rfl
@[simp] theorem modTmpl_variantC (s : State) (t : Nat) (f : Template → Template) : (modTmpl s t f).variantC = s.variantC := rfl

/-! ## modFn -/

@[simp] theorem modFn_issue (s : State) (i : Nat) (f : Fn → Fn) : (modFn s i f).issue = s.issue := rfl
@[simp] theorem modFn_cur (s : State) (i : Nat) (f : Fn → Fn) : (modFn s i f).cur = s.cur := rfl
@[simp] theorem modFn_curWord (s : State) (i : Nat) (f : Fn → Fn) : (modFn s i f).curWord = s.curWord := rfl
@[simp] theorem modFn_agenda (s : State) (i : Nat) (f : Fn → Fn) : (modFn s i f).agenda = s.agenda := rfl
@[simp] theorem modFn_tick (s : State) (i : Nat) (f : Fn → Fn) : (modFn s i f).tick = s.tick := rfl
@[simp] theorem modFn_draw (s : State) (i : Nat) (f : Fn → Fn) : (modFn s i f).draw = s.draw := rfl
@[simp] theorem modFn_seqs (s : State) (i : Nat) (f : Fn → Fn) : (modFn s i f).seqs = s.seqs := rfl
@[simp] theorem modFn_timebase (s : State) (i : Nat) (f : Fn → Fn) : (modFn s i f).timebase = s.timebase := rfl
@[simp] theorem modFn_groups (s : State) (i : Nat) (f : Fn → Fn) : (modFn s i f).groups = s.groups := rfl
@[simp] theorem modFn_gangs (s : State) (i : Nat) (f : Fn → Fn) : (modFn s i f).gangs = s.gangs := rfl
@[simp] theorem modFn_tmpls (s : State) (i : Nat) (f : Fn → Fn) : (modFn s i f).tmpls = s.tmpls := rfl
@[simp] theorem modFn_grids (s : State) (i : Nat) (f : Fn → Fn) : (modFn s i f).grids = s.grids := rfl
@[simp] theorem modFn_graphs (s : State) (i : Nat) (f : Fn → Fn) : (modFn s i f).graphs = s.graphs := rfl
@[simp] theorem modFn_dies (s : State) (i : Nat) (f : Fn → Fn) : (modFn s i f).dies = s.dies := rfl
@[simp] theorem modFn_lode (s : State) (i : Nat) (f : Fn → Fn) : (modFn s i f).lode = s.lode := rfl
@[simp] theorem modFn_cores (s : State) (i : Nat) (f : Fn → Fn) : (modFn s i f).cores = s.cores := rfl
@[simp] theorem modFn_ctxs (s : State) (i : Nat) (f : Fn → Fn) : (modFn s i f).ctxs = s.ctxs := rfl
@[simp] theorem modFn_ranges (s : State) (i : Nat) (f : Fn → Fn) : (modFn s i f).ranges = s.ranges := rfl
@[simp] theorem modFn_regions (s : State) (i : Nat) (f : Fn → Fn) : (modFn s i f).regions = s.regions := rfl
@[simp] theorem modFn_copies (s : State) (i : Nat) (f : Fn → Fn) : (modFn s i f).copies = s.copies := rfl
@[simp] theorem modFn_matops (s : State) (i : Nat) (f : Fn → Fn) : (modFn s i f).matops = s.matops := rfl
@[simp] theorem modFn_mem (s : State) (i : Nat) (f : Fn → Fn) : (modFn s i f).mem = s.mem := rfl
@[simp] theorem modFn_l2 (s : State) (i : Nat) (f : Fn → Fn) : (modFn s i f).l2 = s.l2 := rfl
@[simp] theorem modFn_pend (s : State) (i : Nat) (f : Fn → Fn) : (modFn s i f).pend = s.pend := rfl
@[simp] theorem modFn_hostMem (s : State) (i : Nat) (f : Fn → Fn) : (modFn s i f).hostMem = s.hostMem := rfl
@[simp] theorem modFn_bad (s : State) (i : Nat) (f : Fn → Fn) : (modFn s i f).bad = s.bad := rfl
@[simp] theorem modFn_codeOld (s : State) (i : Nat) (f : Fn → Fn) : (modFn s i f).codeOld = s.codeOld := rfl
@[simp] theorem modFn_waits (s : State) (i : Nat) (f : Fn → Fn) : (modFn s i f).waits = s.waits := rfl
@[simp] theorem modFn_away (s : State) (i : Nat) (f : Fn → Fn) : (modFn s i f).away = s.away := rfl
@[simp] theorem modFn_hist (s : State) (i : Nat) (f : Fn → Fn) : (modFn s i f).hist = s.hist := rfl
@[simp] theorem modFn_views (s : State) (i : Nat) (f : Fn → Fn) : (modFn s i f).views = s.views := rfl
@[simp] theorem modFn_edges (s : State) (i : Nat) (f : Fn → Fn) : (modFn s i f).edges = s.edges := rfl
@[simp] theorem modFn_late (s : State) (i : Nat) (f : Fn → Fn) : (modFn s i f).late = s.late := rfl
@[simp] theorem modFn_caches (s : State) (i : Nat) (f : Fn → Fn) : (modFn s i f).caches = s.caches := rfl
@[simp] theorem modFn_predictor (s : State) (i : Nat) (f : Fn → Fn) : (modFn s i f).predictor = s.predictor := rfl
@[simp] theorem modFn_tlbs (s : State) (i : Nat) (f : Fn → Fn) : (modFn s i f).tlbs = s.tlbs := rfl
@[simp] theorem modFn_snoops (s : State) (i : Nat) (f : Fn → Fn) : (modFn s i f).snoops = s.snoops := rfl
@[simp] theorem modFn_entries (s : State) (i : Nat) (f : Fn → Fn) : (modFn s i f).entries = s.entries := rfl
@[simp] theorem modFn_errs (s : State) (i : Nat) (f : Fn → Fn) : (modFn s i f).errs = s.errs := rfl
@[simp] theorem modFn_parts (s : State) (i : Nat) (f : Fn → Fn) : (modFn s i f).parts = s.parts := rfl
@[simp] theorem modFn_ports (s : State) (i : Nat) (f : Fn → Fn) : (modFn s i f).ports = s.ports := rfl
@[simp] theorem modFn_mgmt (s : State) (i : Nat) (f : Fn → Fn) : (modFn s i f).mgmt = s.mgmt := rfl
@[simp] theorem modFn_variantC (s : State) (i : Nat) (f : Fn → Fn) : (modFn s i f).variantC = s.variantC := rfl

/-! ## modPart -/

@[simp] theorem modPart_issue (s : State) (i : Nat) (f : Part → Part) : (modPart s i f).issue = s.issue := rfl
@[simp] theorem modPart_cur (s : State) (i : Nat) (f : Part → Part) : (modPart s i f).cur = s.cur := rfl
@[simp] theorem modPart_curWord (s : State) (i : Nat) (f : Part → Part) : (modPart s i f).curWord = s.curWord := rfl
@[simp] theorem modPart_agenda (s : State) (i : Nat) (f : Part → Part) : (modPart s i f).agenda = s.agenda := rfl
@[simp] theorem modPart_tick (s : State) (i : Nat) (f : Part → Part) : (modPart s i f).tick = s.tick := rfl
@[simp] theorem modPart_draw (s : State) (i : Nat) (f : Part → Part) : (modPart s i f).draw = s.draw := rfl
@[simp] theorem modPart_seqs (s : State) (i : Nat) (f : Part → Part) : (modPart s i f).seqs = s.seqs := rfl
@[simp] theorem modPart_timebase (s : State) (i : Nat) (f : Part → Part) : (modPart s i f).timebase = s.timebase := rfl
@[simp] theorem modPart_groups (s : State) (i : Nat) (f : Part → Part) : (modPart s i f).groups = s.groups := rfl
@[simp] theorem modPart_gangs (s : State) (i : Nat) (f : Part → Part) : (modPart s i f).gangs = s.gangs := rfl
@[simp] theorem modPart_tmpls (s : State) (i : Nat) (f : Part → Part) : (modPart s i f).tmpls = s.tmpls := rfl
@[simp] theorem modPart_grids (s : State) (i : Nat) (f : Part → Part) : (modPart s i f).grids = s.grids := rfl
@[simp] theorem modPart_graphs (s : State) (i : Nat) (f : Part → Part) : (modPart s i f).graphs = s.graphs := rfl
@[simp] theorem modPart_dies (s : State) (i : Nat) (f : Part → Part) : (modPart s i f).dies = s.dies := rfl
@[simp] theorem modPart_lode (s : State) (i : Nat) (f : Part → Part) : (modPart s i f).lode = s.lode := rfl
@[simp] theorem modPart_cores (s : State) (i : Nat) (f : Part → Part) : (modPart s i f).cores = s.cores := rfl
@[simp] theorem modPart_ctxs (s : State) (i : Nat) (f : Part → Part) : (modPart s i f).ctxs = s.ctxs := rfl
@[simp] theorem modPart_ranges (s : State) (i : Nat) (f : Part → Part) : (modPart s i f).ranges = s.ranges := rfl
@[simp] theorem modPart_regions (s : State) (i : Nat) (f : Part → Part) : (modPart s i f).regions = s.regions := rfl
@[simp] theorem modPart_copies (s : State) (i : Nat) (f : Part → Part) : (modPart s i f).copies = s.copies := rfl
@[simp] theorem modPart_matops (s : State) (i : Nat) (f : Part → Part) : (modPart s i f).matops = s.matops := rfl
@[simp] theorem modPart_mem (s : State) (i : Nat) (f : Part → Part) : (modPart s i f).mem = s.mem := rfl
@[simp] theorem modPart_l2 (s : State) (i : Nat) (f : Part → Part) : (modPart s i f).l2 = s.l2 := rfl
@[simp] theorem modPart_pend (s : State) (i : Nat) (f : Part → Part) : (modPart s i f).pend = s.pend := rfl
@[simp] theorem modPart_hostMem (s : State) (i : Nat) (f : Part → Part) : (modPart s i f).hostMem = s.hostMem := rfl
@[simp] theorem modPart_bad (s : State) (i : Nat) (f : Part → Part) : (modPart s i f).bad = s.bad := rfl
@[simp] theorem modPart_codeOld (s : State) (i : Nat) (f : Part → Part) : (modPart s i f).codeOld = s.codeOld := rfl
@[simp] theorem modPart_waits (s : State) (i : Nat) (f : Part → Part) : (modPart s i f).waits = s.waits := rfl
@[simp] theorem modPart_away (s : State) (i : Nat) (f : Part → Part) : (modPart s i f).away = s.away := rfl
@[simp] theorem modPart_hist (s : State) (i : Nat) (f : Part → Part) : (modPart s i f).hist = s.hist := rfl
@[simp] theorem modPart_views (s : State) (i : Nat) (f : Part → Part) : (modPart s i f).views = s.views := rfl
@[simp] theorem modPart_edges (s : State) (i : Nat) (f : Part → Part) : (modPart s i f).edges = s.edges := rfl
@[simp] theorem modPart_late (s : State) (i : Nat) (f : Part → Part) : (modPart s i f).late = s.late := rfl
@[simp] theorem modPart_caches (s : State) (i : Nat) (f : Part → Part) : (modPart s i f).caches = s.caches := rfl
@[simp] theorem modPart_predictor (s : State) (i : Nat) (f : Part → Part) : (modPart s i f).predictor = s.predictor := rfl
@[simp] theorem modPart_tlbs (s : State) (i : Nat) (f : Part → Part) : (modPart s i f).tlbs = s.tlbs := rfl
@[simp] theorem modPart_snoops (s : State) (i : Nat) (f : Part → Part) : (modPart s i f).snoops = s.snoops := rfl
@[simp] theorem modPart_entries (s : State) (i : Nat) (f : Part → Part) : (modPart s i f).entries = s.entries := rfl
@[simp] theorem modPart_errs (s : State) (i : Nat) (f : Part → Part) : (modPart s i f).errs = s.errs := rfl
@[simp] theorem modPart_fns (s : State) (i : Nat) (f : Part → Part) : (modPart s i f).fns = s.fns := rfl
@[simp] theorem modPart_ports (s : State) (i : Nat) (f : Part → Part) : (modPart s i f).ports = s.ports := rfl
@[simp] theorem modPart_mgmt (s : State) (i : Nat) (f : Part → Part) : (modPart s i f).mgmt = s.mgmt := rfl
@[simp] theorem modPart_variantC (s : State) (i : Nat) (f : Part → Part) : (modPart s i f).variantC = s.variantC := rfl

/-! ## modRegion -/

@[simp] theorem modRegion_issue (s : State) (c n : Nat) (f : Region → Region) : (modRegion s c n f).issue = s.issue := rfl
@[simp] theorem modRegion_cur (s : State) (c n : Nat) (f : Region → Region) : (modRegion s c n f).cur = s.cur := rfl
@[simp] theorem modRegion_curWord (s : State) (c n : Nat) (f : Region → Region) : (modRegion s c n f).curWord = s.curWord := rfl
@[simp] theorem modRegion_agenda (s : State) (c n : Nat) (f : Region → Region) : (modRegion s c n f).agenda = s.agenda := rfl
@[simp] theorem modRegion_tick (s : State) (c n : Nat) (f : Region → Region) : (modRegion s c n f).tick = s.tick := rfl
@[simp] theorem modRegion_draw (s : State) (c n : Nat) (f : Region → Region) : (modRegion s c n f).draw = s.draw := rfl
@[simp] theorem modRegion_seqs (s : State) (c n : Nat) (f : Region → Region) : (modRegion s c n f).seqs = s.seqs := rfl
@[simp] theorem modRegion_timebase (s : State) (c n : Nat) (f : Region → Region) : (modRegion s c n f).timebase = s.timebase := rfl
@[simp] theorem modRegion_groups (s : State) (c n : Nat) (f : Region → Region) : (modRegion s c n f).groups = s.groups := rfl
@[simp] theorem modRegion_gangs (s : State) (c n : Nat) (f : Region → Region) : (modRegion s c n f).gangs = s.gangs := rfl
@[simp] theorem modRegion_tmpls (s : State) (c n : Nat) (f : Region → Region) : (modRegion s c n f).tmpls = s.tmpls := rfl
@[simp] theorem modRegion_grids (s : State) (c n : Nat) (f : Region → Region) : (modRegion s c n f).grids = s.grids := rfl
@[simp] theorem modRegion_graphs (s : State) (c n : Nat) (f : Region → Region) : (modRegion s c n f).graphs = s.graphs := rfl
@[simp] theorem modRegion_dies (s : State) (c n : Nat) (f : Region → Region) : (modRegion s c n f).dies = s.dies := rfl
@[simp] theorem modRegion_lode (s : State) (c n : Nat) (f : Region → Region) : (modRegion s c n f).lode = s.lode := rfl
@[simp] theorem modRegion_cores (s : State) (c n : Nat) (f : Region → Region) : (modRegion s c n f).cores = s.cores := rfl
@[simp] theorem modRegion_ctxs (s : State) (c n : Nat) (f : Region → Region) : (modRegion s c n f).ctxs = s.ctxs := rfl
@[simp] theorem modRegion_ranges (s : State) (c n : Nat) (f : Region → Region) : (modRegion s c n f).ranges = s.ranges := rfl
@[simp] theorem modRegion_copies (s : State) (c n : Nat) (f : Region → Region) : (modRegion s c n f).copies = s.copies := rfl
@[simp] theorem modRegion_matops (s : State) (c n : Nat) (f : Region → Region) : (modRegion s c n f).matops = s.matops := rfl
@[simp] theorem modRegion_mem (s : State) (c n : Nat) (f : Region → Region) : (modRegion s c n f).mem = s.mem := rfl
@[simp] theorem modRegion_l2 (s : State) (c n : Nat) (f : Region → Region) : (modRegion s c n f).l2 = s.l2 := rfl
@[simp] theorem modRegion_pend (s : State) (c n : Nat) (f : Region → Region) : (modRegion s c n f).pend = s.pend := rfl
@[simp] theorem modRegion_hostMem (s : State) (c n : Nat) (f : Region → Region) : (modRegion s c n f).hostMem = s.hostMem := rfl
@[simp] theorem modRegion_bad (s : State) (c n : Nat) (f : Region → Region) : (modRegion s c n f).bad = s.bad := rfl
@[simp] theorem modRegion_codeOld (s : State) (c n : Nat) (f : Region → Region) : (modRegion s c n f).codeOld = s.codeOld := rfl
@[simp] theorem modRegion_waits (s : State) (c n : Nat) (f : Region → Region) : (modRegion s c n f).waits = s.waits := rfl
@[simp] theorem modRegion_away (s : State) (c n : Nat) (f : Region → Region) : (modRegion s c n f).away = s.away := rfl
@[simp] theorem modRegion_hist (s : State) (c n : Nat) (f : Region → Region) : (modRegion s c n f).hist = s.hist := rfl
@[simp] theorem modRegion_views (s : State) (c n : Nat) (f : Region → Region) : (modRegion s c n f).views = s.views := rfl
@[simp] theorem modRegion_edges (s : State) (c n : Nat) (f : Region → Region) : (modRegion s c n f).edges = s.edges := rfl
@[simp] theorem modRegion_late (s : State) (c n : Nat) (f : Region → Region) : (modRegion s c n f).late = s.late := rfl
@[simp] theorem modRegion_caches (s : State) (c n : Nat) (f : Region → Region) : (modRegion s c n f).caches = s.caches := rfl
@[simp] theorem modRegion_predictor (s : State) (c n : Nat) (f : Region → Region) : (modRegion s c n f).predictor = s.predictor := rfl
@[simp] theorem modRegion_tlbs (s : State) (c n : Nat) (f : Region → Region) : (modRegion s c n f).tlbs = s.tlbs := rfl
@[simp] theorem modRegion_snoops (s : State) (c n : Nat) (f : Region → Region) : (modRegion s c n f).snoops = s.snoops := rfl
@[simp] theorem modRegion_entries (s : State) (c n : Nat) (f : Region → Region) : (modRegion s c n f).entries = s.entries := rfl
@[simp] theorem modRegion_errs (s : State) (c n : Nat) (f : Region → Region) : (modRegion s c n f).errs = s.errs := rfl
@[simp] theorem modRegion_fns (s : State) (c n : Nat) (f : Region → Region) : (modRegion s c n f).fns = s.fns := rfl
@[simp] theorem modRegion_parts (s : State) (c n : Nat) (f : Region → Region) : (modRegion s c n f).parts = s.parts := rfl
@[simp] theorem modRegion_ports (s : State) (c n : Nat) (f : Region → Region) : (modRegion s c n f).ports = s.ports := rfl
@[simp] theorem modRegion_mgmt (s : State) (c n : Nat) (f : Region → Region) : (modRegion s c n f).mgmt = s.mgmt := rfl
@[simp] theorem modRegion_variantC (s : State) (c n : Nat) (f : Region → Region) : (modRegion s c n f).variantC = s.variantC := rfl

/-! ## modRange -/

@[simp] theorem modRange_issue (s : State) (n : Nat) (f : VRange → VRange) : (modRange s n f).issue = s.issue := rfl
@[simp] theorem modRange_cur (s : State) (n : Nat) (f : VRange → VRange) : (modRange s n f).cur = s.cur := rfl
@[simp] theorem modRange_curWord (s : State) (n : Nat) (f : VRange → VRange) : (modRange s n f).curWord = s.curWord := rfl
@[simp] theorem modRange_agenda (s : State) (n : Nat) (f : VRange → VRange) : (modRange s n f).agenda = s.agenda := rfl
@[simp] theorem modRange_tick (s : State) (n : Nat) (f : VRange → VRange) : (modRange s n f).tick = s.tick := rfl
@[simp] theorem modRange_draw (s : State) (n : Nat) (f : VRange → VRange) : (modRange s n f).draw = s.draw := rfl
@[simp] theorem modRange_seqs (s : State) (n : Nat) (f : VRange → VRange) : (modRange s n f).seqs = s.seqs := rfl
@[simp] theorem modRange_timebase (s : State) (n : Nat) (f : VRange → VRange) : (modRange s n f).timebase = s.timebase := rfl
@[simp] theorem modRange_groups (s : State) (n : Nat) (f : VRange → VRange) : (modRange s n f).groups = s.groups := rfl
@[simp] theorem modRange_gangs (s : State) (n : Nat) (f : VRange → VRange) : (modRange s n f).gangs = s.gangs := rfl
@[simp] theorem modRange_tmpls (s : State) (n : Nat) (f : VRange → VRange) : (modRange s n f).tmpls = s.tmpls := rfl
@[simp] theorem modRange_grids (s : State) (n : Nat) (f : VRange → VRange) : (modRange s n f).grids = s.grids := rfl
@[simp] theorem modRange_graphs (s : State) (n : Nat) (f : VRange → VRange) : (modRange s n f).graphs = s.graphs := rfl
@[simp] theorem modRange_dies (s : State) (n : Nat) (f : VRange → VRange) : (modRange s n f).dies = s.dies := rfl
@[simp] theorem modRange_lode (s : State) (n : Nat) (f : VRange → VRange) : (modRange s n f).lode = s.lode := rfl
@[simp] theorem modRange_cores (s : State) (n : Nat) (f : VRange → VRange) : (modRange s n f).cores = s.cores := rfl
@[simp] theorem modRange_ctxs (s : State) (n : Nat) (f : VRange → VRange) : (modRange s n f).ctxs = s.ctxs := rfl
@[simp] theorem modRange_regions (s : State) (n : Nat) (f : VRange → VRange) : (modRange s n f).regions = s.regions := rfl
@[simp] theorem modRange_copies (s : State) (n : Nat) (f : VRange → VRange) : (modRange s n f).copies = s.copies := rfl
@[simp] theorem modRange_matops (s : State) (n : Nat) (f : VRange → VRange) : (modRange s n f).matops = s.matops := rfl
@[simp] theorem modRange_mem (s : State) (n : Nat) (f : VRange → VRange) : (modRange s n f).mem = s.mem := rfl
@[simp] theorem modRange_l2 (s : State) (n : Nat) (f : VRange → VRange) : (modRange s n f).l2 = s.l2 := rfl
@[simp] theorem modRange_pend (s : State) (n : Nat) (f : VRange → VRange) : (modRange s n f).pend = s.pend := rfl
@[simp] theorem modRange_hostMem (s : State) (n : Nat) (f : VRange → VRange) : (modRange s n f).hostMem = s.hostMem := rfl
@[simp] theorem modRange_bad (s : State) (n : Nat) (f : VRange → VRange) : (modRange s n f).bad = s.bad := rfl
@[simp] theorem modRange_codeOld (s : State) (n : Nat) (f : VRange → VRange) : (modRange s n f).codeOld = s.codeOld := rfl
@[simp] theorem modRange_waits (s : State) (n : Nat) (f : VRange → VRange) : (modRange s n f).waits = s.waits := rfl
@[simp] theorem modRange_away (s : State) (n : Nat) (f : VRange → VRange) : (modRange s n f).away = s.away := rfl
@[simp] theorem modRange_hist (s : State) (n : Nat) (f : VRange → VRange) : (modRange s n f).hist = s.hist := rfl
@[simp] theorem modRange_views (s : State) (n : Nat) (f : VRange → VRange) : (modRange s n f).views = s.views := rfl
@[simp] theorem modRange_edges (s : State) (n : Nat) (f : VRange → VRange) : (modRange s n f).edges = s.edges := rfl
@[simp] theorem modRange_late (s : State) (n : Nat) (f : VRange → VRange) : (modRange s n f).late = s.late := rfl
@[simp] theorem modRange_caches (s : State) (n : Nat) (f : VRange → VRange) : (modRange s n f).caches = s.caches := rfl
@[simp] theorem modRange_predictor (s : State) (n : Nat) (f : VRange → VRange) : (modRange s n f).predictor = s.predictor := rfl
@[simp] theorem modRange_tlbs (s : State) (n : Nat) (f : VRange → VRange) : (modRange s n f).tlbs = s.tlbs := rfl
@[simp] theorem modRange_snoops (s : State) (n : Nat) (f : VRange → VRange) : (modRange s n f).snoops = s.snoops := rfl
@[simp] theorem modRange_entries (s : State) (n : Nat) (f : VRange → VRange) : (modRange s n f).entries = s.entries := rfl
@[simp] theorem modRange_errs (s : State) (n : Nat) (f : VRange → VRange) : (modRange s n f).errs = s.errs := rfl
@[simp] theorem modRange_fns (s : State) (n : Nat) (f : VRange → VRange) : (modRange s n f).fns = s.fns := rfl
@[simp] theorem modRange_parts (s : State) (n : Nat) (f : VRange → VRange) : (modRange s n f).parts = s.parts := rfl
@[simp] theorem modRange_ports (s : State) (n : Nat) (f : VRange → VRange) : (modRange s n f).ports = s.ports := rfl
@[simp] theorem modRange_mgmt (s : State) (n : Nat) (f : VRange → VRange) : (modRange s n f).mgmt = s.mgmt := rfl
@[simp] theorem modRange_variantC (s : State) (n : Nat) (f : VRange → VRange) : (modRange s n f).variantC = s.variantC := rfl

/-! ## modCopy -/

@[simp] theorem modCopy_issue (s : State) (i : Nat) (f : Copy → Copy) : (modCopy s i f).issue = s.issue := rfl
@[simp] theorem modCopy_cur (s : State) (i : Nat) (f : Copy → Copy) : (modCopy s i f).cur = s.cur := rfl
@[simp] theorem modCopy_curWord (s : State) (i : Nat) (f : Copy → Copy) : (modCopy s i f).curWord = s.curWord := rfl
@[simp] theorem modCopy_agenda (s : State) (i : Nat) (f : Copy → Copy) : (modCopy s i f).agenda = s.agenda := rfl
@[simp] theorem modCopy_tick (s : State) (i : Nat) (f : Copy → Copy) : (modCopy s i f).tick = s.tick := rfl
@[simp] theorem modCopy_draw (s : State) (i : Nat) (f : Copy → Copy) : (modCopy s i f).draw = s.draw := rfl
@[simp] theorem modCopy_seqs (s : State) (i : Nat) (f : Copy → Copy) : (modCopy s i f).seqs = s.seqs := rfl
@[simp] theorem modCopy_timebase (s : State) (i : Nat) (f : Copy → Copy) : (modCopy s i f).timebase = s.timebase := rfl
@[simp] theorem modCopy_groups (s : State) (i : Nat) (f : Copy → Copy) : (modCopy s i f).groups = s.groups := rfl
@[simp] theorem modCopy_gangs (s : State) (i : Nat) (f : Copy → Copy) : (modCopy s i f).gangs = s.gangs := rfl
@[simp] theorem modCopy_tmpls (s : State) (i : Nat) (f : Copy → Copy) : (modCopy s i f).tmpls = s.tmpls := rfl
@[simp] theorem modCopy_grids (s : State) (i : Nat) (f : Copy → Copy) : (modCopy s i f).grids = s.grids := rfl
@[simp] theorem modCopy_graphs (s : State) (i : Nat) (f : Copy → Copy) : (modCopy s i f).graphs = s.graphs := rfl
@[simp] theorem modCopy_dies (s : State) (i : Nat) (f : Copy → Copy) : (modCopy s i f).dies = s.dies := rfl
@[simp] theorem modCopy_lode (s : State) (i : Nat) (f : Copy → Copy) : (modCopy s i f).lode = s.lode := rfl
@[simp] theorem modCopy_cores (s : State) (i : Nat) (f : Copy → Copy) : (modCopy s i f).cores = s.cores := rfl
@[simp] theorem modCopy_ctxs (s : State) (i : Nat) (f : Copy → Copy) : (modCopy s i f).ctxs = s.ctxs := rfl
@[simp] theorem modCopy_ranges (s : State) (i : Nat) (f : Copy → Copy) : (modCopy s i f).ranges = s.ranges := rfl
@[simp] theorem modCopy_regions (s : State) (i : Nat) (f : Copy → Copy) : (modCopy s i f).regions = s.regions := rfl
@[simp] theorem modCopy_matops (s : State) (i : Nat) (f : Copy → Copy) : (modCopy s i f).matops = s.matops := rfl
@[simp] theorem modCopy_mem (s : State) (i : Nat) (f : Copy → Copy) : (modCopy s i f).mem = s.mem := rfl
@[simp] theorem modCopy_l2 (s : State) (i : Nat) (f : Copy → Copy) : (modCopy s i f).l2 = s.l2 := rfl
@[simp] theorem modCopy_pend (s : State) (i : Nat) (f : Copy → Copy) : (modCopy s i f).pend = s.pend := rfl
@[simp] theorem modCopy_hostMem (s : State) (i : Nat) (f : Copy → Copy) : (modCopy s i f).hostMem = s.hostMem := rfl
@[simp] theorem modCopy_bad (s : State) (i : Nat) (f : Copy → Copy) : (modCopy s i f).bad = s.bad := rfl
@[simp] theorem modCopy_codeOld (s : State) (i : Nat) (f : Copy → Copy) : (modCopy s i f).codeOld = s.codeOld := rfl
@[simp] theorem modCopy_waits (s : State) (i : Nat) (f : Copy → Copy) : (modCopy s i f).waits = s.waits := rfl
@[simp] theorem modCopy_away (s : State) (i : Nat) (f : Copy → Copy) : (modCopy s i f).away = s.away := rfl
@[simp] theorem modCopy_hist (s : State) (i : Nat) (f : Copy → Copy) : (modCopy s i f).hist = s.hist := rfl
@[simp] theorem modCopy_views (s : State) (i : Nat) (f : Copy → Copy) : (modCopy s i f).views = s.views := rfl
@[simp] theorem modCopy_edges (s : State) (i : Nat) (f : Copy → Copy) : (modCopy s i f).edges = s.edges := rfl
@[simp] theorem modCopy_late (s : State) (i : Nat) (f : Copy → Copy) : (modCopy s i f).late = s.late := rfl
@[simp] theorem modCopy_caches (s : State) (i : Nat) (f : Copy → Copy) : (modCopy s i f).caches = s.caches := rfl
@[simp] theorem modCopy_predictor (s : State) (i : Nat) (f : Copy → Copy) : (modCopy s i f).predictor = s.predictor := rfl
@[simp] theorem modCopy_tlbs (s : State) (i : Nat) (f : Copy → Copy) : (modCopy s i f).tlbs = s.tlbs := rfl
@[simp] theorem modCopy_snoops (s : State) (i : Nat) (f : Copy → Copy) : (modCopy s i f).snoops = s.snoops := rfl
@[simp] theorem modCopy_entries (s : State) (i : Nat) (f : Copy → Copy) : (modCopy s i f).entries = s.entries := rfl
@[simp] theorem modCopy_errs (s : State) (i : Nat) (f : Copy → Copy) : (modCopy s i f).errs = s.errs := rfl
@[simp] theorem modCopy_fns (s : State) (i : Nat) (f : Copy → Copy) : (modCopy s i f).fns = s.fns := rfl
@[simp] theorem modCopy_parts (s : State) (i : Nat) (f : Copy → Copy) : (modCopy s i f).parts = s.parts := rfl
@[simp] theorem modCopy_ports (s : State) (i : Nat) (f : Copy → Copy) : (modCopy s i f).ports = s.ports := rfl
@[simp] theorem modCopy_mgmt (s : State) (i : Nat) (f : Copy → Copy) : (modCopy s i f).mgmt = s.mgmt := rfl
@[simp] theorem modCopy_variantC (s : State) (i : Nat) (f : Copy → Copy) : (modCopy s i f).variantC = s.variantC := rfl

/-! ## modMat -/

@[simp] theorem modMat_issue (s : State) (i : Nat) (f : MatOp → MatOp) : (modMat s i f).issue = s.issue := rfl
@[simp] theorem modMat_cur (s : State) (i : Nat) (f : MatOp → MatOp) : (modMat s i f).cur = s.cur := rfl
@[simp] theorem modMat_curWord (s : State) (i : Nat) (f : MatOp → MatOp) : (modMat s i f).curWord = s.curWord := rfl
@[simp] theorem modMat_agenda (s : State) (i : Nat) (f : MatOp → MatOp) : (modMat s i f).agenda = s.agenda := rfl
@[simp] theorem modMat_tick (s : State) (i : Nat) (f : MatOp → MatOp) : (modMat s i f).tick = s.tick := rfl
@[simp] theorem modMat_draw (s : State) (i : Nat) (f : MatOp → MatOp) : (modMat s i f).draw = s.draw := rfl
@[simp] theorem modMat_seqs (s : State) (i : Nat) (f : MatOp → MatOp) : (modMat s i f).seqs = s.seqs := rfl
@[simp] theorem modMat_timebase (s : State) (i : Nat) (f : MatOp → MatOp) : (modMat s i f).timebase = s.timebase := rfl
@[simp] theorem modMat_groups (s : State) (i : Nat) (f : MatOp → MatOp) : (modMat s i f).groups = s.groups := rfl
@[simp] theorem modMat_gangs (s : State) (i : Nat) (f : MatOp → MatOp) : (modMat s i f).gangs = s.gangs := rfl
@[simp] theorem modMat_tmpls (s : State) (i : Nat) (f : MatOp → MatOp) : (modMat s i f).tmpls = s.tmpls := rfl
@[simp] theorem modMat_grids (s : State) (i : Nat) (f : MatOp → MatOp) : (modMat s i f).grids = s.grids := rfl
@[simp] theorem modMat_graphs (s : State) (i : Nat) (f : MatOp → MatOp) : (modMat s i f).graphs = s.graphs := rfl
@[simp] theorem modMat_dies (s : State) (i : Nat) (f : MatOp → MatOp) : (modMat s i f).dies = s.dies := rfl
@[simp] theorem modMat_lode (s : State) (i : Nat) (f : MatOp → MatOp) : (modMat s i f).lode = s.lode := rfl
@[simp] theorem modMat_cores (s : State) (i : Nat) (f : MatOp → MatOp) : (modMat s i f).cores = s.cores := rfl
@[simp] theorem modMat_ctxs (s : State) (i : Nat) (f : MatOp → MatOp) : (modMat s i f).ctxs = s.ctxs := rfl
@[simp] theorem modMat_ranges (s : State) (i : Nat) (f : MatOp → MatOp) : (modMat s i f).ranges = s.ranges := rfl
@[simp] theorem modMat_regions (s : State) (i : Nat) (f : MatOp → MatOp) : (modMat s i f).regions = s.regions := rfl
@[simp] theorem modMat_copies (s : State) (i : Nat) (f : MatOp → MatOp) : (modMat s i f).copies = s.copies := rfl
@[simp] theorem modMat_mem (s : State) (i : Nat) (f : MatOp → MatOp) : (modMat s i f).mem = s.mem := rfl
@[simp] theorem modMat_l2 (s : State) (i : Nat) (f : MatOp → MatOp) : (modMat s i f).l2 = s.l2 := rfl
@[simp] theorem modMat_pend (s : State) (i : Nat) (f : MatOp → MatOp) : (modMat s i f).pend = s.pend := rfl
@[simp] theorem modMat_hostMem (s : State) (i : Nat) (f : MatOp → MatOp) : (modMat s i f).hostMem = s.hostMem := rfl
@[simp] theorem modMat_bad (s : State) (i : Nat) (f : MatOp → MatOp) : (modMat s i f).bad = s.bad := rfl
@[simp] theorem modMat_codeOld (s : State) (i : Nat) (f : MatOp → MatOp) : (modMat s i f).codeOld = s.codeOld := rfl
@[simp] theorem modMat_waits (s : State) (i : Nat) (f : MatOp → MatOp) : (modMat s i f).waits = s.waits := rfl
@[simp] theorem modMat_away (s : State) (i : Nat) (f : MatOp → MatOp) : (modMat s i f).away = s.away := rfl
@[simp] theorem modMat_hist (s : State) (i : Nat) (f : MatOp → MatOp) : (modMat s i f).hist = s.hist := rfl
@[simp] theorem modMat_views (s : State) (i : Nat) (f : MatOp → MatOp) : (modMat s i f).views = s.views := rfl
@[simp] theorem modMat_edges (s : State) (i : Nat) (f : MatOp → MatOp) : (modMat s i f).edges = s.edges := rfl
@[simp] theorem modMat_late (s : State) (i : Nat) (f : MatOp → MatOp) : (modMat s i f).late = s.late := rfl
@[simp] theorem modMat_caches (s : State) (i : Nat) (f : MatOp → MatOp) : (modMat s i f).caches = s.caches := rfl
@[simp] theorem modMat_predictor (s : State) (i : Nat) (f : MatOp → MatOp) : (modMat s i f).predictor = s.predictor := rfl
@[simp] theorem modMat_tlbs (s : State) (i : Nat) (f : MatOp → MatOp) : (modMat s i f).tlbs = s.tlbs := rfl
@[simp] theorem modMat_snoops (s : State) (i : Nat) (f : MatOp → MatOp) : (modMat s i f).snoops = s.snoops := rfl
@[simp] theorem modMat_entries (s : State) (i : Nat) (f : MatOp → MatOp) : (modMat s i f).entries = s.entries := rfl
@[simp] theorem modMat_errs (s : State) (i : Nat) (f : MatOp → MatOp) : (modMat s i f).errs = s.errs := rfl
@[simp] theorem modMat_fns (s : State) (i : Nat) (f : MatOp → MatOp) : (modMat s i f).fns = s.fns := rfl
@[simp] theorem modMat_parts (s : State) (i : Nat) (f : MatOp → MatOp) : (modMat s i f).parts = s.parts := rfl
@[simp] theorem modMat_ports (s : State) (i : Nat) (f : MatOp → MatOp) : (modMat s i f).ports = s.ports := rfl
@[simp] theorem modMat_mgmt (s : State) (i : Nat) (f : MatOp → MatOp) : (modMat s i f).mgmt = s.mgmt := rfl
@[simp] theorem modMat_variantC (s : State) (i : Nat) (f : MatOp → MatOp) : (modMat s i f).variantC = s.variantC := rfl

/-! ## Reading after an update -/

@[simp] theorem group?_modGroup_self (s : State) (g : Nat) (f : Group → Group) : group? (modGroup s g f) g = (group? s g).map f := by
  unfold modGroup
  split
  · rename_i x h; rw [h]; simp [group?]
  · rename_i h; simp [h]

theorem group?_modGroup_ne (s : State) {g h : Nat} (f : Group → Group) (hn : h ≠ g) : group? (modGroup s g f) h = group? s h := by
  unfold modGroup
  split
  · simp [group?, sget?_sput_ne _ _ hn]
  · rfl

theorem group?_modWarp_self (s : State) (g w : Nat) (f : Warp → Warp) :
    group? (modWarp s g w f) g = (group? s g).map fun x => { x with warps := modAt x.warps w f } := group?_modGroup_self ..

theorem group?_modWarp_ne (s : State) {g h : Nat} (w : Nat) (f : Warp → Warp) (hn : h ≠ g) :
    group? (modWarp s g w f) h = group? s h := group?_modGroup_ne s _ hn

@[simp] theorem warp?_modWarp_self (s : State) (g w : Nat) (f : Warp → Warp) : warp? (modWarp s g w f) g w = (warp? s g w).map f := by
  unfold warp?
  rw [group?_modWarp_self]
  cases group? s g <;> simp

@[simp] theorem core_modCore_self (s : State) (c : Nat) (f : Core → Core) : core (modCore s c f) c = f (core s c) := by
  show (sget? (sput s.cores c (f (core s c))) c).getD Core.reset = _
  simp

theorem core_modCore_ne (s : State) {c d : Nat} (f : Core → Core) (h : d ≠ c) : core (modCore s c f) d = core s d := by
  show (sget? (sput s.cores c (f (core s c))) d).getD Core.reset = _
  rw [sget?_sput_ne _ _ h]; rfl

@[simp] theorem group?_modCore (s : State) (c g : Nat) (f : Core → Core) : group? (modCore s c f) g = group? s g := rfl

@[simp] theorem core_modGroup (s : State) (g c : Nat) (f : Group → Group) : core (modGroup s g f) c = core s c := by
  unfold core; rw [modGroup_cores]

@[simp] theorem core_modWarp (s : State) (g w c : Nat) (f : Warp → Warp) : core (modWarp s g w f) c = core s c := core_modGroup ..

@[simp] theorem ctx?_modCtx_self (s : State) (c : Nat) (f : Ctx → Ctx) : ctx? (modCtx s c f) c = (ctx? s c).map f := by
  unfold modCtx
  split
  · rename_i x h; rw [h]; simp [ctx?]
  · rename_i h; simp [h]

theorem ctx?_modCtx_ne (s : State) {c d : Nat} (f : Ctx → Ctx) (h : d ≠ c) : ctx? (modCtx s c f) d = ctx? s d := by
  unfold modCtx
  split
  · simp [ctx?, sget?_sput_ne _ _ h]
  · rfl

theorem fn_modFn_self (s : State) (i : Nat) (f : Fn → Fn) (h : i < s.fns.length) : fn (modFn s i f) i = f (fn s i) := by
  simp [fn, modFn, List.getElem?_eq_getElem h]

theorem die_modDie_self (s : State) (d : Nat) (f : Die → Die) (h : d < s.dies.length) : die (modDie s d f) d = f (die s d) := by
  simp [die, modDie, List.getElem?_eq_getElem h]

end Sys2Proof.Machine
end

