-- ==== Sys2Proof/Laws/Registers.lean ====
section
/-! SUPPORT. What a write of a register does: the register reads as written, every other register of the warp reads as
before, and nothing outside the warp changes but the counter of row copies. -/

namespace Sys2Proof.Machine

/-! ## Rows -/

theorem regRead_of_tmpls {s t : State} (h : t.tmpls = s.tmpls) (gr : Group) (wp : Warp) (r l : Nat) :
    regRead t gr wp r l = regRead s gr wp r l := by
  have : tmpl? t = tmpl? s := by funext k; simp [tmpl?, h]
  simp [regRead, this]

/-- A row of registers listed one lane after the other. -/
theorem sget?_row (f : Nat → Word) (base n : Nat) (m : List (Nat × Word)) (k : Nat) :
    sget? ((List.range n).foldl (fun m l => sput m (base + l) (f l)) m) k =
      if base ≤ k ∧ k < base + n then some (f (k - base)) else sget? m k := by
  induction n with
  | zero => rw [if_neg (by omega)]; rfl
  | succ n ih =>
    rw [List.range_succ, List.foldl_append]
    simp only [List.foldl_cons, List.foldl_nil, sget?_sput, ih]
    by_cases h : k = base + n
    · subst h; simp
    · by_cases h1 : base ≤ k ∧ k < base + n
      · rw [if_neg h, if_pos h1, if_pos ⟨h1.1, by omega⟩]
      · rw [if_neg h, if_neg h1, if_neg (by omega)]

theorem ownsRow_copyRow (s : State) (gr : Group) (wp : Warp) (r q : Nat) :
    ownsRow gr (copyRow s gr wp r) q = (ownsRow gr wp q || (q == r)) := by
  unfold copyRow
  split
  · rename_i h
    by_cases hq : q = r
    · subst hq; simp [h]
    · simp [hq]
  · unfold ownsRow
    have : (sins wp.priv r).contains q = (q == r || wp.priv.contains q) := by
      rw [Bool.eq_iff_iff]; simp
    simp only [this]
    cases gr.kind.tmpl?.isNone <;> cases wp.priv.contains q <;> cases (q == r) <;> simp

theorem copyRow_only (s : State) (gr : Group) (wp : Warp) (r : Nat) : ∃ rg pv, copyRow s gr wp r = { wp with regs := rg, priv := pv } := by
  unfold copyRow
  split
  · exact ⟨wp.regs, wp.priv, rfl⟩
  · exact ⟨_, _, rfl⟩

/-- Copying a row changes no reading. -/
theorem regRead_copyRow (s : State) (gr : Group) (wp : Warp) (r q l : Nat) (hl : l < 32) :
    regRead s gr (copyRow s gr wp r) q l = regRead s gr wp q l := by
  by_cases hown : ownsRow gr wp r = true
  · simp [copyRow, hown]
  have hcopy : copyRow s gr wp r = { wp with
      regs := (List.range 32).foldl (fun m l => sput m (32 * r + l) (regRead s gr wp r l)) wp.regs, priv := sins wp.priv r } := by
    simp [copyRow, hown]
  have ho := ownsRow_copyRow s gr wp r q
  by_cases hq : q = r
  · subst hq
    rw [regRead, ho]
    simp only [beq_self_eq_true, Bool.or_true, if_true]
    rw [hcopy]
    simp only [sget?_row]
    rw [if_pos ⟨by omega, by omega⟩]
    simp
  · have ho' : ownsRow gr (copyRow s gr wp r) q = ownsRow gr wp q := by rw [ho]; simp [hq]
    rw [regRead, regRead, ho', hcopy]
    simp only [sget?_row]
    have : ¬ (32 * r ≤ 32 * q + l ∧ 32 * q + l < 32 * r + 32) := by omega
    rw [if_neg this]

theorem ownsRow_setReg (gr : Group) (wp : Warp) (r l : Nat) (v : Word) (q : Nat) :
    ownsRow gr (setReg wp r l v) q = ownsRow gr wp q := rfl

theorem regRead_setReg (s : State) (gr : Group) (wp : Warp) (r l : Nat) (v : Word) (q k : Nat) (h : ownsRow gr wp r = true)
    (hl : l < 32) (hk : k < 32) :
    regRead s gr (setReg wp r l v) q k = if q = r ∧ k = l then v else regRead s gr wp q k := by
  rw [regRead, ownsRow_setReg]
  have hs : sget? (setReg wp r l v).regs (32 * q + k) = if 32 * q + k = 32 * r + l then some v else sget? wp.regs (32 * q + k) := by
    simp [setReg, sget?_sput]
  rw [hs]
  by_cases hqk : q = r ∧ k = l
  · obtain ⟨rfl, rfl⟩ := hqk
    simp [h]
  · have : ¬ (32 * q + k = 32 * r + l) := by omega
    rw [if_neg this, if_neg hqk]
    rfl

/-! ## The counters -/

@[simp] theorem countEvent_groups (s : State) (c x v n : Nat) : (countEvent s c x v n).groups = s.groups := by
  unfold countEvent; split <;> rfl

theorem countEvent_only (s : State) (c x v n : Nat) : countEvent s c x v n = { s with cores := (countEvent s c x v n).cores } := by
  unfold countEvent; split <;> rfl

@[simp] theorem group?_countEvent (s : State) (c x v n g : Nat) : group? (countEvent s c x v n) g = group? s g := by
  simp [group?]

theorem core_countEvent (s : State) (c x v n d : Nat) :
    { core (countEvent s c x v n) d with perf := (core s d).perf } = core s d := by
  unfold countEvent
  split
  · by_cases h : d = c
    · subst h; simp
    · rw [core_modCore_ne _ _ h]
  · rfl

/-! ## The relation between a state and one whose registers have been written -/

/-- The state as a word finds its warp. -/
def Here (e : Env) (s : State) : Prop := group? s e.g = some e.gr ∧ e.gr.warps[e.w]? = some e.wp

theorem here_of_env? {i : Instr} {s : State} {e : Env} (h : env? i s = some e) : Here e s := by
  unfold env? at h
  split at h
  · cases h
  split at h
  · cases h
  split at h
  · cases h
  rename_i gr hg _ wp hw
  simp only at h
  split at h
  · cases h
  · cases h; exact ⟨hg, hw⟩

/-- Registers of the warp have been written in t, and nothing else has happened to s. -/
def Wrote (e : Env) (s t : State) (res : Nat → Nat → Option Word) : Prop :=
  RegsAre e s t res ∧ OnlyWarp e s t ∧ ∃ wp, warp? t e.g e.w = some wp ∧
    { wp with regs := e.wp.regs, priv := e.wp.priv, tags := e.wp.tags, past := e.wp.past, regBad := e.wp.regBad } = e.wp ∧
    ∀ k, k ∈ wp.tags ↔ k ∈ e.wp.tags ∧ res (k / 32) (k % 32) = none

theorem onlyWarp_refl {e : Env} {s : State} (h : Here e s) : OnlyWarp e s s :=
  ⟨rfl, fun _ _ => rfl, fun _ => rfl, e.gr, h.1, rfl, rfl, fun _ _ => rfl⟩

theorem wrote_refl {e : Env} {s : State} (h : Here e s) : Wrote e s s noResult := by
  refine ⟨fun _ _ _ => rfl, onlyWarp_refl h, e.wp, ?_, rfl, fun k => ?_⟩
  · simp [warp?, h.1, h.2]
  · simp [noResult]

/-- A change of the warp alone composes. -/
theorem onlyWarp_modWarp {e : Env} {s t : State} (f : Warp → Warp) (h : OnlyWarp e s t) : OnlyWarp e s (modWarp t e.g e.w f) := by
  obtain ⟨h1, h2, h3, gr, hg, hk, hlen, hw⟩ := h
  refine ⟨?_, fun g hn => ?_, fun c => ?_, { gr with warps := modAt gr.warps e.w f }, ?_, ?_, ?_, ?_⟩
  · have := modGroup_only t e.g (fun x => { x with warps := modAt x.warps e.w f })
    rw [show modWarp t e.g e.w f = modGroup t e.g (fun x => { x with warps := modAt x.warps e.w f }) from rfl, this]
    rw [h1]
  · rw [group?_modWarp_ne _ _ _ hn]; exact h2 g hn
  · rw [core_modWarp]; exact h3 c
  · rw [group?_modWarp_self, hg]; rfl
  · exact hk
  · simpa using hlen
  · intro w hn
    show (modAt gr.warps e.w f)[w]? = _
    rw [getElem?_modAt_ne _ _ hn]; exact hw w hn

theorem onlyWarp_modCore {e : Env} {s t : State} (c : Nat) (f : Core → Core)
    (hf : ∀ x : Core, ∃ p o, f x = { x with perf := p, one := o }) (h : OnlyWarp e s t) : OnlyWarp e s (modCore t c f) := by
  obtain ⟨h1, h2, h3, h4⟩ := h
  refine ⟨?_, h2, fun d => ?_, h4⟩
  · show ({ t with cores := _ } : State) = _
    rw [h1]; rfl
  · by_cases hd : d = c
    · subst hd
      obtain ⟨p, o, hp⟩ := hf (core t d)
      rw [core_modCore_self, hp]
      exact h3 d
    · rw [core_modCore_ne _ _ hd]; exact h3 d

theorem onlyWarp_countEvent {e : Env} {s t : State} (c x v n : Nat) (h : OnlyWarp e s t) : OnlyWarp e s (countEvent t c x v n) := by
  unfold countEvent
  split
  · exact onlyWarp_modCore c _ (fun y => ⟨_, y.one, rfl⟩) h
  · exact h

/-- A change of the warp alone, in terms of the warp. -/
theorem warp?_modWarp_of {s : State} {g w : Nat} {wp : Warp} (f : Warp → Warp) (h : warp? s g w = some wp) :
    warp? (modWarp s g w f) g w = some (f wp) := by simp [h]

/-- The group and the warp a changed state holds, from what only the warp's change allows. -/
theorem onlyWarp_reads {e : Env} {s t : State} (h : OnlyWarp e s t) {wp : Warp} (hw : warp? t e.g e.w = some wp) (r l : Nat) :
    regAt t e.g e.w r l = regRead s e.gr wp r l := by
  obtain ⟨h1, -, -, gr, hg, hk, -, -⟩ := h
  have hw' : gr.warps[e.w]? = some wp := by simpa [warp?, hg] using hw
  unfold regAt
  rw [hg]; simp only [hw']
  have ht : t.tmpls = s.tmpls := by rw [h1]
  rw [regRead_of_tmpls ht]
  have hkind : gr.kind = e.gr.kind := by rw [← hk]
  have hseed : gr.seed = e.gr.seed := by rw [← hk]
  have hleft : gr.left = e.gr.left := by rw [← hk]
  simp [regRead, ownsRow, hkind, hseed, hleft]

theorem regAt_here {e : Env} {s : State} (h : Here e s) (r l : Nat) : regAt s e.g e.w r l = regRead s e.gr e.wp r l := by
  simp [regAt, h.1, h.2]

/-- One more register written. -/
def alsoIn (res : Nat → Nat → Option Word) (r l : Nat) (v : Word) : Nat → Nat → Option Word := fun q k =>
  if q = r ∧ k = l then some v else res q k

theorem wrote_ownRow {e : Env} {s t : State} {res : Nat → Nat → Option Word} (r : Nat) (h : Wrote e s t res) :
    Wrote e s (ownRow t e.g e.w r) res ∧ ∃ wp, warp? (ownRow t e.g e.w r) e.g e.w = some wp ∧ ownsRow e.gr wp r = true := by
  obtain ⟨hr, ho, wp, hw, hk, ht⟩ := h
  have hkeep := ho
  obtain ⟨h1, -, -, gr, hg, hgk, -, -⟩ := ho
  have hw' : gr.warps[e.w]? = some wp := by simpa [warp?, hg] using hw
  have hkind : gr.kind = e.gr.kind := by rw [← hgk]
  have hseed : gr.seed = e.gr.seed := by rw [← hgk]
  have hleft : gr.left = e.gr.left := by rw [← hgk]
  have hown (x : Warp) (q : Nat) : ownsRow gr x q = ownsRow e.gr x q := by simp [ownsRow, hkind]
  have hrd (x : Warp) (q l : Nat) : regRead t gr x q l = regRead s e.gr x q l := by
    rw [regRead_of_tmpls (show t.tmpls = s.tmpls by rw [h1])]; simp [regRead, ownsRow, hkind, hseed, hleft]
  unfold ownRow
  rw [hg]; simp only [hw']
  split
  · rename_i hrow
    exact ⟨⟨hr, hkeep, wp, hw, hk, ht⟩, wp, hw, by rw [← hown]; exact hrow⟩
  · rename_i hrow
    set u := countEvent t gr.core gr.ctx 3 1 with hu
    have huw : warp? u e.g e.w = some wp := by simp [hu, warp?, hg, hw']
    have hw2 : warp? (modWarp u e.g e.w fun _ => copyRow t gr wp r) e.g e.w = some (copyRow t gr wp r) := warp?_modWarp_of _ huw
    have honly : OnlyWarp e s (modWarp u e.g e.w fun _ => copyRow t gr wp r) :=
      onlyWarp_modWarp _ (onlyWarp_countEvent _ _ _ _ hkeep)
    obtain ⟨rg, pv, hcopy⟩ := copyRow_only t gr wp r
    refine ⟨⟨fun q l hl => ?_, honly, _, hw2, ?_, fun k => ?_⟩, _, hw2, ?_⟩
    · rw [onlyWarp_reads honly hw2, ← hrd, regRead_copyRow _ _ _ _ _ _ hl, hrd, ← onlyWarp_reads hkeep hw]
      exact hr q l hl
    · rw [hcopy]; exact hk
    · rw [hcopy]; exact ht k
    · rw [← hown, ownsRow_copyRow]; simp

/-- A write of one register of the warp. -/
theorem wrote_writeReg {e : Env} {s t : State} {res : Nat → Nat → Option Word} (r l : Nat) (v : Word) (hl : l < 32)
    (h : Wrote e s t res) : Wrote e s (writeReg t e.g e.w r l v) (alsoIn res r l v) := by
  obtain ⟨⟨hr, ho, wp0, hw0, hk, ht⟩, wp, hw, hrow⟩ := wrote_ownRow r h
  obtain rfl : wp0 = wp := by rw [hw0] at hw; exact Option.some.inj hw
  have hw2 : warp? (writeReg t e.g e.w r l v) e.g e.w = some (setReg wp0 r l v) := warp?_modWarp_of _ hw0
  have honly : OnlyWarp e s (writeReg t e.g e.w r l v) := onlyWarp_modWarp _ ho
  refine ⟨fun q k hk' => ?_, honly, _, hw2, hk, fun k => ?_⟩
  · rw [onlyWarp_reads honly hw2, regRead_setReg _ _ _ _ _ _ _ _ hrow hl hk']
    unfold alsoIn
    split
    · rfl
    · rw [← onlyWarp_reads ho hw0]; exact hr q k hk'
  · show k ∈ wp0.tags.filter (· != 32 * r + l) ↔ _
    simp only [List.mem_filter, bne_iff_ne, ne_eq, ht k, alsoIn]
    have : (k = 32 * r + l) ↔ (k / 32 = r ∧ k % 32 = l) := by omega
    by_cases hx : k / 32 = r ∧ k % 32 = l
    · rw [if_pos hx]; simp [this.mpr hx]
    · rw [if_neg hx]; simp [this, hx]

theorem next_word (v j : Nat) : v / 2 ^ (32 * (j + 1)) = v / 2 ^ 32 / 2 ^ (32 * j) := by
  rw [Nat.div_div_eq_div_mul, ← pow_add, Nat.mul_succ, Nat.add_comm]

/-- Writes of a run of registers in one lane. -/
theorem wrote_writeWide {e : Env} {s : State} (n : Nat) : ∀ {t : State} {res : Nat → Nat → Option Word} (r l v : Nat), l < 32 →
    Wrote e s t res → Wrote e s (writeWide t e.g e.w r l n v) (fun q k =>
      if k = l ∧ r ≤ q ∧ q < r + n then some (BitVec.ofNat 32 (v / 2 ^ (32 * (q - r)))) else res q k) := by
  induction n with
  | zero =>
    intro t res r l v hl h
    have : (fun q k => if k = l ∧ r ≤ q ∧ q < r + 0 then some (BitVec.ofNat 32 (v / 2 ^ (32 * (q - r)))) else res q k) = res := by
      funext q k; rw [if_neg (by omega)]
    rw [this]; exact h
  | succ n ih =>
    intro t res r l v hl h
    have := ih (r + 1) l (v / 2 ^ 32) hl (wrote_writeReg r l (BitVec.ofNat 32 v) hl h)
    rw [show writeWide t e.g e.w r l (n + 1) v = writeWide (writeReg t e.g e.w r l (BitVec.ofNat 32 v)) e.g e.w (r + 1) l n (v / 2 ^ 32) from rfl]
    convert this using 1
    funext q k
    unfold alsoIn
    by_cases hk : k = l
    · by_cases hq : q = r
      · subst hk hq
        rw [if_pos ⟨rfl, le_refl _, by omega⟩, if_neg (by omega), if_pos ⟨rfl, rfl⟩]; simp
      · by_cases hin : r + 1 ≤ q ∧ q < r + 1 + n
        · rw [if_pos ⟨hk, by omega, by omega⟩, if_pos ⟨hk, hin⟩]
          rw [show q - r = q - (r + 1) + 1 by omega, next_word]
        · rw [if_neg (by omega), if_neg (by omega), if_neg (by omega)]
    · rw [if_neg (by omega), if_neg (by omega), if_neg (by omega)]

/-- Writes in the live lanes. -/
theorem wrote_writeLanes {e : Env} {s t : State} (d : Reg) (n : Nat) (f : Nat → Nat) (h : Wrote e s t noResult) :
    Wrote e s (writeLanes e t d.toNat n f) (resultIn e d n f) := by
  have key : ∀ (ls : List Nat), (∀ l ∈ ls, l < 32) → ls.Nodup → ∀ (u : State) (res : Nat → Nat → Option Word), Wrote e s u res →
      Wrote e s (ls.foldl (fun t l => writeWide t e.g e.w d.toNat l n (f l)) u) (fun q k =>
        if k ∈ ls ∧ d.toNat ≤ q ∧ q < d.toNat + n then some (BitVec.ofNat 32 (f k / 2 ^ (32 * (q - d.toNat)))) else res q k) := by
    intro ls
    induction ls with
    | nil => intro _ _ u res hu; simpa using hu
    | cons l ls ih =>
      intro hlt hnd u res hu
      have hl := hlt l (List.mem_cons_self ..)
      obtain ⟨hnot, hnd⟩ := List.nodup_cons.mp hnd
      have := ih (fun x hx => hlt x (List.mem_cons_of_mem _ hx)) hnd _ _ (wrote_writeWide n d.toNat l (f l) hl hu)
      rw [List.foldl_cons]
      convert this using 1
      funext q k
      by_cases hk : k = l
      · subst hk; simp [hnot]
      · simp [hk]
  have := key (lanesOf e.live) (fun l hl => bit_lt ((mem_lanesOf ..).mp hl)) (nodup_lanesOf _) t noResult h
  simp only [mem_lanesOf] at this
  exact this

end Sys2Proof.Machine
end

