-- ==== Sys2Proof/Laws/Issue.lean ====
section
/-! SUPPORT. The issue of a word: what `runWord`, `finish` and `retire` do once the conditions of `Issues` hold, and the
shared forms of words with register results. -/

namespace Sys2Proof.Machine

/-! ## From the issue to the body -/

theorem runWord_issues {i : Instr} {s : State} {e : Env} (h : Issues i s e) (body : Env → State → WordRes) :
    runWord i s body = finish e i (body e s) s := by
  obtain ⟨h1, h2, h3, h4, -, h6⟩ := h
  simp [runWord, h1, h2, h3, h4, h6]

theorem not_short {i : Instr} {s : State} {e : Env} (h : Issues i s e) : decide (freeRows s e.gr.core < (rowsToCopy e i).length) = false := by
  have := h.2.2.2.2.1
  simpa using this

theorem finish_done {i : Instr} {s : State} {e : Env} (h : Issues i s e) (t : State) :
    finish e i (.done t) s = .next (retire s e i (modWarp t e.g e.w fun x => advance x e.atPc)) := by
  simp [finish, not_short h]

theorem finish_jump {i : Instr} {s : State} {e : Env} (h : Issues i s e) (t : State) :
    finish e i (.jump t) s = .next (retire s e i t) := by
  simp [finish, not_short h]

theorem finish_hold {i : Instr} {s : State} {e : Env} (h : Issues i s e) (t : State) (k : Hold) (lanes : Mask) :
    finish e i (.hold t k lanes) s = .next (addHold t e i k lanes) := by
  simp [finish, not_short h]

theorem finish_trap (e : Env) (i : Instr) (s t : State) (c : Code) (lanes : Mask) (d0 d1 : DWord) :
    finish e i (.trap t c lanes d0 d1) s = .next (takeFault t e.g e.w (recordOf s e c lanes d0 d1)) := rfl

theorem issuesNow_sound {i : Instr} {s : State} (h : issuesNow i s = true) : ∃ e, Issues i s e := by
  unfold issuesNow at h
  split at h
  · cases h
  · rename_i e he
    simp only [Bool.and_eq_true, Bool.not_eq_true', Option.isNone_iff_eq_none, decide_eq_true_eq] at h
    exact ⟨e, he, h.1.1.1.1, h.1.1.1.2, h.1.1.2, h.1.2, h.2⟩

theorem issues_here {i : Instr} {s : State} {e : Env} (h : Issues i s e) : Here e s := here_of_env? h.1

/-! ## Retirement -/

theorem sameMemory_of_only {s t : State} (h : t = { s with groups := t.groups, cores := t.cores }) : SameMemory s t := by
  rw [h]
  exact ⟨fun _ _ => rfl, fun _ _ _ => rfl⟩

theorem onlyWarp_logits {e : Env} {s t : State} (f : Group → Option (Nat × Nat × Nat × Nat)) (h : OnlyWarp e s t) :
    OnlyWarp e s (modGroup t e.g fun x => { x with logits := f x }) ∧
    warp? (modGroup t e.g fun x => { x with logits := f x }) e.g e.w = warp? t e.g e.w := by
  obtain ⟨h1, h2, h3, gr, hg, hk, hlen, hw⟩ := h
  refine ⟨⟨?_, fun g hn => ?_, fun c => ?_, { gr with logits := f gr }, ?_, hk, hlen, hw⟩, ?_⟩
  · rw [modGroup_only t, h1]
  · rw [group?_modGroup_ne _ _ hn]; exact h2 g hn
  · rw [core_modGroup]; exact h3 c
  · rw [group?_modGroup_self, hg]; rfl
  · unfold warp?; rw [group?_modGroup_self, hg]; rfl

theorem onlyWarp_leaveTurn {e : Env} {s t : State} (h : OnlyWarp e s t) : OnlyWarp e s (leaveTurn e t) := by
  unfold leaveTurn
  split
  · exact onlyWarp_modCore _ _ (fun x => by
      by_cases hx : x.one = some (e.g, e.w)
      · exact ⟨x.perf, none, by rw [if_pos hx]⟩
      · exact ⟨x.perf, x.one, by rw [if_neg hx]⟩) h
  · exact h

@[simp] theorem warp?_modCore (s : State) (c g w : Nat) (f : Core → Core) : warp? (modCore s c f) g w = warp? s g w := rfl

@[simp] theorem warp?_leaveTurn (e : Env) (t : State) (g w : Nat) : warp? (leaveTurn e t) g w = warp? t g w := by
  unfold leaveTurn; split <;> rfl

@[simp] theorem warp?_countEvent (s : State) (c x v n g w : Nat) : warp? (countEvent s c x v n) g w = warp? s g w := by
  simp [warp?]

theorem noteRegs_only (s : State) (e : Env) (i : Instr) (wp : Warp) :
    ∃ a r, noteRegs s e i wp = { wp with affine := a, recent := r } := by
  unfold noteRegs
  split
  · exact ⟨wp.affine, wp.recent, rfl⟩
  · exact ⟨_, _, rfl⟩

theorem countWord_spec {e : Env} {s t : State} {wp : Warp} (s0 : State) (i : Instr) (h : OnlyWarp e s t)
    (hw : warp? t e.g e.w = some wp) : OnlyWarp e s (countWord s0 e i t) ∧ warp? (countWord s0 e i t) e.g e.w = some wp := by
  have step (n k : Nat) {u : State} (hu : OnlyWarp e s u ∧ warp? u e.g e.w = some wp) :
      OnlyWarp e s (if k = 0 then u else countEvent u e.gr.core e.gr.ctx n k) ∧
      warp? (if k = 0 then u else countEvent u e.gr.core e.gr.ctx n k) e.g e.w = some wp := by
    split
    · exact hu
    · exact ⟨onlyWarp_countEvent _ _ _ _ hu.1, by rw [warp?_countEvent]; exact hu.2⟩
  obtain ⟨h1, w1⟩ := step 8 (bankReads e i) (step 7 (if affineWord s0 e i then 1 else 0) (step 2 1 ⟨h, hw⟩))
  unfold countWord
  simp only
  split
  · rename_i b st slot n _
    split
    · obtain ⟨a, c⟩ := onlyWarp_logits (fun _ => some (b, st, slot, n + 1)) h1
      exact ⟨a, by rw [c]; exact w1⟩
    · exact ⟨h1, w1⟩
  · exact ⟨h1, w1⟩

theorem noteWord_spec {e : Env} {s t : State} {wp : Warp} (s0 : State) (i : Instr) (h : OnlyWarp e s t)
    (hw : warp? t e.g e.w = some wp) :
    OnlyWarp e s (noteWord s0 e i t) ∧ warp? (noteWord s0 e i t) e.g e.w = some (noteRegs s0 e i wp) := by
  obtain ⟨h1, w1⟩ := countWord_spec s0 i h hw
  exact ⟨onlyWarp_modWarp _ h1, warp?_modWarp_of _ w1⟩

/-- What a retiring word leaves of its warp (R44, R53, R54). -/
def retiredWarp (s0 : State) (e : Env) (i : Instr) (wp : Warp) : Warp :=
  if e.mark then park e.live (noteRegs s0 e i wp) else noteRegs s0 e i wp

theorem retire_spec {e : Env} {s t : State} {wp : Warp} (s0 : State) (i : Instr) (h : OnlyWarp e s t)
    (hw : warp? t e.g e.w = some wp) :
    OnlyWarp e s (retire s0 e i t) ∧ warp? (retire s0 e i t) e.g e.w = some (retiredWarp s0 e i wp) := by
  obtain ⟨h2, w2⟩ := noteWord_spec s0 i h hw
  unfold retire retiredWarp
  simp only
  split
  · exact ⟨onlyWarp_leaveTurn (onlyWarp_modWarp _ h2), by rw [warp?_leaveTurn]; exact warp?_modWarp_of _ w2⟩
  · exact ⟨onlyWarp_leaveTurn h2, by rw [warp?_leaveTurn]; exact w2⟩

theorem warpOf_of {e : Env} {t : State} {wp : Warp} (h : warp? t e.g e.w = some wp) : warpOf e t = wp := by simp [warpOf, h]

theorem unpark_only (wp : Warp) : ∃ p q, unpark wp = { wp with pending := p, parked := q } := by
  unfold unpark
  split
  · split
    · exact ⟨_, _, rfl⟩
    · exact ⟨wp.pending, wp.parked, rfl⟩
  · exact ⟨wp.pending, wp.parked, rfl⟩

theorem park_only (m : Mask) (wp : Warp) : ∃ p q, park m wp = { wp with pending := p, parked := q } :=
  unpark_only { wp with parked := some (wp.parked.getD 0 ||| m) }

theorem park_parked (m : Mask) (wp : Warp) :
    (park m wp).parked = if wp.outs = [] then none else some (wp.parked.getD 0 ||| m) := by
  simp only [park, unpark, List.isEmpty_iff]
  split <;> rfl

theorem mem_park_pending (m : Mask) (wp : Warp) (k : Nat) :
    k ∈ (park m wp).pending ↔ k ∈ wp.pending ∧ ¬ (wp.outs = [] ∧ bit (wp.parked.getD 0 ||| m) (k % 32) = true) := by
  simp only [park, unpark, List.isEmpty_iff]
  split
  · rename_i ho; simp [ho]
  · rename_i ho; simp [ho]

theorem retiredWarp_only (s0 : State) (e : Env) (i : Instr) (wp : Warp) :
    ∃ p q a r, retiredWarp s0 e i wp = { wp with pending := p, parked := q, affine := a, recent := r } := by
  obtain ⟨a, r, h⟩ := noteRegs_only s0 e i wp
  unfold retiredWarp
  rw [h]
  split
  · obtain ⟨p, q, hp⟩ := park_only e.live { wp with affine := a, recent := r }
    exact ⟨p, q, a, r, hp⟩
  · exact ⟨wp.pending, wp.parked, a, r, rfl⟩

/-- The parking and the pending bits that a retiring word leaves, as a warp that carries that of the word finds them. -/
theorem retiredWarp_parked (s0 : State) (e : Env) (i : Instr) {wp : Warp} (hp : wp.parked = e.wp.parked) :
    (e.mark = true → (retiredWarp s0 e i wp).parked = if wp.outs = [] then none else some (marksOf e e.live)) ∧
    (e.mark = false → (retiredWarp s0 e i wp).parked = e.wp.parked) := by
  obtain ⟨a, r, h⟩ := noteRegs_only s0 e i wp
  unfold retiredWarp
  rw [h]
  refine ⟨fun hm => ?_, fun hm => ?_⟩
  · rw [if_pos hm, park_parked, marksOf, hp]
  · rw [if_neg (by simp [hm])]; exact hp

theorem mem_retiredWarp_pending (s0 : State) (e : Env) (i : Instr) {wp : Warp} (hp : wp.parked = e.wp.parked) (k : Nat) :
    k ∈ (retiredWarp s0 e i wp).pending ↔
      k ∈ wp.pending ∧ ¬ (e.mark = true ∧ wp.outs = [] ∧ bit (marksOf e e.live) (k % 32) = true) := by
  obtain ⟨a, r, h⟩ := noteRegs_only s0 e i wp
  unfold retiredWarp
  rw [h]
  split
  · rename_i hm
    rw [mem_park_pending, marksOf, hp]; simp [hm]
  · rename_i hm; simp [hm]

theorem mem_lanes_advance (wp : Warp) (m : Mask) (l : Nat) :
    (advance wp m).lanes[l]? = (wp.lanes[l]?).map fun x => if bit m l then { x with pc := x.pc + 8 } else x := by
  simp only [advance, List.getElem?_mapIdx]

/-- Readings do not depend on lanes, parking, pending bits, tags and results on their way. -/
theorem regRead_warp {s : State} {gr : Group} {a b : Warp} (hr : a.regs = b.regs) (hp : a.priv = b.priv) (hh : a.handler = b.handler)
    (hi : a.index = b.index) (r l : Nat) : regRead s gr a r l = regRead s gr b r l := by
  simp [regRead, ownsRow, hr, hp, hh, hi]

/-- The change of a warp that a retiring word makes beside its registers. -/
def onTheWay (lane : Nat → Lane → Lane) (P : List DWord → List DWord) (Y : Option (List (Nat × Nat)) → Option (List (Nat × Nat)))
    (x : Warp) : Warp := { x with lanes := x.lanes.mapIdx lane, predictor := P x.predictor, yielding := Y x.yielding }

/-- The end of a word that has written registers, its lanes, its return predictor and its yield set. -/
theorem became_of_wrote {e : Env} {s t : State} {res : Nat → Nat → Option Word} (s0 : State) (i : Instr) (h : Wrote e s t res) (lane : Nat → Lane → Lane)
    (P : List DWord → List DWord) (Y : Option (List (Nat × Nat)) → Option (List (Nat × Nat))) :
    Became e s (retire s0 e i (modWarp t e.g e.w (onTheWay lane P Y))) res lane
      fun x => { x with predictor := P x.predictor, yielding := Y x.yielding } := by
  obtain ⟨hr, ho, wp, hw, hk, ht⟩ := h
  have hw1 := warp?_modWarp_of (onTheWay lane P Y) hw
  obtain ⟨ho2, hw2⟩ := retire_spec s0 i (onlyWarp_modWarp (onTheWay lane P Y) ho) hw1
  set u := retire s0 e i (modWarp t e.g e.w (onTheWay lane P Y))
  obtain ⟨p, q, a, r, hq⟩ := retiredWarp_only s0 e i (onTheWay lane P Y wp)
  have hx : warpOf e u = { onTheWay lane P Y wp with pending := p, parked := q, affine := a, recent := r } := by rw [warpOf_of hw2, hq]
  have hl : wp.lanes = e.wp.lanes := by rw [← hk]
  have hou : wp.outs = e.wp.outs := by rw [← hk]
  have hpa : (onTheWay lane P Y wp).parked = e.wp.parked := by show wp.parked = _; rw [← hk]
  have hout : (warpOf e u).outs = e.wp.outs := by rw [hx]; exact hou
  refine ⟨fun r l hlt => ?_, ho2, sameMemory_of_only ho2.1, fun l => ?_, ?_, ⟨fun hm => ?_, fun hm => ?_⟩, hout, fun k => ?_, fun k => ?_⟩
  · rw [onlyWarp_reads ho2 hw2, hq, ← hr r l hlt, onlyWarp_reads ho hw]
    exact regRead_warp rfl rfl rfl rfl r l
  · rw [hx, ← hl]; exact List.getElem?_mapIdx
  · unfold WarpIs; rw [hx, ← hk]; rfl
  · rw [warpOf_of hw2]; exact (retiredWarp_parked s0 e i hpa).2 (by simpa using hm)
  · rw [hout, warpOf_of hw2, (retiredWarp_parked s0 e i hpa).1 hm, show (onTheWay lane P Y wp).outs = e.wp.outs from hou]
  · unfold Clears
    rw [hout, warpOf_of hw2, mem_retiredWarp_pending s0 e i hpa, show (onTheWay lane P Y wp).outs = e.wp.outs from hou,
      show (onTheWay lane P Y wp).pending = e.wp.pending by show wp.pending = _; rw [← hk]]
  · rw [hx]; exact ht k

/-- The end of a word that has written registers: it has settled. -/
theorem settled_of_wrote {e : Env} {s t : State} {res : Nat → Nat → Option Word} (s0 : State) (i : Instr) (h : Wrote e s t res) :
    Settled e s (retire s0 e i (modWarp t e.g e.w fun x => advance x e.atPc)) res := became_of_wrote s0 i h (onward e) id id

/-- A word that computes one fixed-latency result in each live lane completes. -/
theorem aluWord_settles {i : Instr} {s : State} {e : Env} (h : Issues i s e) (d : Reg) (n : Nat) (f : Env → Nat → Nat) :
    ∃ t, aluWord i s d n f = .next t ∧ Settled e s t (resultIn e d n (f e)) :=
  ⟨_, by rw [aluWord, runWord_issues h, finish_done h],
    settled_of_wrote s i (wrote_writeLanes d n (f e) (wrote_refl (issues_here h)))⟩

/-- A word without results completes. -/
theorem emptyWord_settles {i : Instr} {s : State} {e : Env} (h : Issues i s e) :
    ∃ t, runWord i s (fun _ t => .done t) = .next t ∧ Settled e s t noResult :=
  ⟨_, by rw [runWord_issues h, finish_done h], settled_of_wrote s i (wrote_refl (issues_here h))⟩

/-! ## Long-latency results -/

theorem splitWords_eq (n v : Nat) : splitWords n v = (List.range n).map fun k => BitVec.ofNat 32 (v / 2 ^ (32 * k)) := by
  induction n generalizing v with
  | zero => rfl
  | succ n ih =>
    rw [List.range_succ_eq_map, List.map_cons, List.map_map, splitWords, ih]
    congr 1
    · rw [Nat.mul_zero, pow_zero, Nat.div_one]
    · apply List.map_congr_left
      intro k _
      rw [Function.comp, next_word]

theorem wrote_ownRows {e : Env} {s : State} (rs : List Nat) (g : Nat → Nat) : ∀ {t : State}, Wrote e s t noResult →
    Wrote e s (rs.foldl (fun t k => if e.live = 0 then t else ownRow t e.g e.w (g k)) t) noResult := by
  induction rs with
  | nil => intro t h; exact h
  | cons r rs ih =>
    intro t h
    rw [List.foldl_cons]
    apply ih
    split
    · exact h
    · exact (wrote_ownRow _ h).1

/-- The keys of n registers from d on in the live lanes. -/
theorem mem_resultKeys (e : Env) (d : Reg) (n : Nat) (f : Nat → Nat) (k : Nat) :
    k ∈ (lanesOf e.live).flatMap (fun l => (List.range n).map fun j => 32 * (d.toNat + j) + l) ↔
      (resultIn e d n f (k / 32) (k % 32)).isSome = true := by
  simp only [List.mem_flatMap, mem_lanesOf, List.mem_map, List.mem_range, resultIn]
  constructor
  · rintro ⟨l, hl, j, hj, rfl⟩
    have := bit_lt hl
    rw [show (32 * (d.toNat + j) + l) / 32 = d.toNat + j by omega, show (32 * (d.toNat + j) + l) % 32 = l by omega]
    rw [if_pos ⟨hl, by omega, by omega⟩]; rfl
  · split
    · rename_i h
      intro _
      exact ⟨k % 32, h.1, k / 32 - d.toNat, by omega, by omega⟩
    · intro h; cases h

/-- The end of a word whose results are on their way. -/
theorem sentOff_laterValue {e : Env} {s t : State} (s0 : State) (i : Instr) (d : Reg) (n : Nat) (f : Nat → Nat) (h : Wrote e s t noResult) :
    SentOff e s (retire s0 e i (modWarp (laterValue e t d.toNat n f) e.g e.w fun x => advance x e.atPc)) d n f := by
  obtain ⟨hr, ho, wp, hw, hk, ht⟩ := wrote_ownRows (List.range n) (fun k => d.toNat + k) h
  set s1 := (List.range n).foldl (fun t k => if e.live = 0 then t else ownRow t e.g e.w (d.toNat + k)) t
  set keys := (lanesOf e.live).flatMap fun l => (List.range n).map fun k => 32 * (d.toNat + k) + l with hkeys
  set outs := (lanesOf e.live).flatMap fun l => (splitWords n (f l)).mapIdx fun k v => Outst.value l (d.toNat + k) v with houts
  set upd : Warp → Warp := fun x =>
    { x with pending := sinsAll x.pending keys, tags := x.tags.filter fun k => !keys.contains k, outs := x.outs ++ outs } with hupd
  have hl : laterValue e t d.toNat n f = modWarp s1 e.g e.w upd := rfl
  rw [hl]
  have hw1 := warp?_modWarp_of upd hw
  have ho1 := onlyWarp_modWarp upd ho
  have hw2 := warp?_modWarp_of (fun x => advance x e.atPc) hw1
  obtain ⟨ho3, hw3⟩ := retire_spec s0 i (onlyWarp_modWarp (fun x => advance x e.atPc) ho1) hw2
  set u := retire s0 e i (modWarp (modWarp s1 e.g e.w upd) e.g e.w fun x => advance x e.atPc)
  obtain ⟨p, q, a, r, hq⟩ := retiredWarp_only s0 e i (advance (upd wp) e.atPc)
  have hx : warpOf e u = { advance (upd wp) e.atPc with pending := p, parked := q, affine := a, recent := r } := by rw [warpOf_of hw3, hq]
  have hlanes : wp.lanes = e.wp.lanes := by rw [← hk]
  have houts2 : outs = (lanesOf e.live).flatMap (fun l => (List.range n).map fun k => .value l (d.toNat + k) (BitVec.ofNat 32 (f l / 2 ^ (32 * k)))) := by
    rw [houts]
    congr 1
    funext l
    rw [splitWords_eq]
    apply List.ext_getElem <;> simp
  have hkey (k : Nat) : k ∈ keys ↔ (resultIn e d n f (k / 32) (k % 32)).isSome = true := mem_resultKeys e d n f k
  have hpa : (advance (upd wp) e.atPc).parked = e.wp.parked := by show wp.parked = _; rw [← hk]
  refine ⟨fun r l hlt => ?_, ho3, sameMemory_of_only ho3.1, fun l => ?_, ?_, ⟨fun hm => ?_, fun hm => ?_⟩, ?_, fun k => ?_, fun k => ?_⟩
  · rw [onlyWarp_reads ho3 hw3, hq, ← hr r l hlt, onlyWarp_reads ho hw]
    exact regRead_warp rfl rfl rfl rfl r l
  · rw [hx, ← hlanes]; exact mem_lanes_advance (upd wp) e.atPc l
  · unfold WarpIs; rw [hx, ← hk]; rfl
  · rw [warpOf_of hw3]; exact (retiredWarp_parked s0 e i hpa).2 (by simpa using hm)
  · have := (retiredWarp_parked s0 e i hpa).1 hm
    rw [warpOf_of hw3, this, hq]
  · rw [hx]; show wp.outs ++ outs = _; rw [houts2, ← hk]
  · unfold Clears
    rw [warpOf_of hw3, mem_retiredWarp_pending s0 e i hpa, hq]
    show k ∈ sinsAll wp.pending keys ∧ _ ↔ _
    rw [mem_sinsAll, hkey, show wp.pending = e.wp.pending by rw [← hk]]
    refine and_congr ?_ Iff.rfl
    tauto
  · rw [hx]
    show k ∈ (wp.tags.filter fun k => !keys.contains k) ↔ _
    simp only [List.mem_filter, Bool.not_eq_true', List.contains_eq_mem, decide_eq_false_iff_not, hkey]
    rw [ht k]
    simp [noResult]

theorem slowWord_sends {i : Instr} {s : State} {e : Env} (h : Issues i s e) (d : Reg) (n : Nat) (f : Env → Nat → Nat) :
    ∃ t, slowWord i s d n f = .next t ∧ SentOff e s t d n (f e) :=
  ⟨_, by rw [slowWord, runWord_issues h, finish_done h], sentOff_laterValue s i d n (f e) (wrote_refl (issues_here h))⟩

/-! ## Holds -/

/-- A word that holds lanes (R100, R44): everything it leaves. -/
theorem held_addHold {e : Env} {s : State} (i : Instr) (k : Hold) (lanes : Mask) (h : Here e s) :
    Held i e s (addHold s e i k lanes) k lanes := by
  obtain ⟨u, x, hu, hx, a, r, hn, haddH⟩ : ∃ u x, OnlyWarp e s u ∧ warp? u e.g e.w = some x ∧ ∃ a r,
      x = { e.wp with affine := a, recent := r } ∧ addHold s e i k lanes = leaveTurn e (modWarp u e.g e.w fun x =>
        { (if e.mark && k.inPlace i && (e.live &&& ~~~lanes) != 0 then park (e.live &&& ~~~lanes) else id) (advance x (e.atPc &&& ~~~lanes)) with
          holds := x.holds ++ [{ lanes := lanes, live := lanes &&& e.live, pc := e.pc, word := e.word, instr := some i, kind := k }] }) := by
    have hw : warp? s e.g e.w = some e.wp := by simp [warp?, h.1, h.2]
    by_cases hp : k.inPlace i = true
    · obtain ⟨h1, w1⟩ := noteWord_spec s i (onlyWarp_refl h) hw
      obtain ⟨a, r, hn⟩ := noteRegs_only s e i e.wp
      exact ⟨noteWord s e i s, _, h1, w1, a, r, hn, by simp [addHold, hp]⟩
    · exact ⟨s, e.wp, onlyWarp_refl h, hw, e.wp.affine, e.wp.recent, rfl, by simp [addHold, hp]⟩
  rw [haddH]
  set marks : Prop := e.mark = true ∧ k.inPlace i = true ∧ e.live &&& ~~~lanes ≠ 0 with hmarks
  set m := e.live &&& ~~~lanes with hm
  have hb : (e.mark && k.inPlace i && m != 0) = true ↔ marks := by simp [hmarks, and_assoc]
  set H : HoldRec := { lanes := lanes, live := lanes &&& e.live, pc := e.pc, word := e.word, instr := some i, kind := k }
  set f : Warp → Warp := fun x =>
    { (if e.mark && k.inPlace i && m != 0 then park m else id) (advance x (e.atPc &&& ~~~lanes)) with holds := x.holds ++ [H] } with hf
  have ho := onlyWarp_leaveTurn (onlyWarp_modWarp f hu)
  have hw : warp? (leaveTurn e (modWarp u e.g e.w f)) e.g e.w = some (f x) := by rw [warp?_leaveTurn]; exact warp?_modWarp_of f hx
  set t := leaveTurn e (modWarp u e.g e.w f)
  have hwo : warpOf e t = f x := warpOf_of hw
  have hpq : ∃ p q, f x = { advance x (e.atPc &&& ~~~lanes) with holds := x.holds ++ [H], pending := p, parked := q } := by
    simp only [hf]
    split
    · obtain ⟨p, q, hpq⟩ := park_only m (advance x (e.atPc &&& ~~~lanes))
      exact ⟨p, q, by rw [hpq]⟩
    · exact ⟨x.pending, x.parked, rfl⟩
  obtain ⟨p, q, hpq⟩ := hpq
  have hout : (warpOf e t).outs = e.wp.outs := by rw [hwo, hpq, hn]; rfl
  refine ⟨fun r l hl => ?_, ho, sameMemory_of_only ho.1, fun l => ?_, ⟨⟨fun hmk => ?_, fun hmk => ?_⟩, fun c => ?_⟩, ?_⟩
  · rw [onlyWarp_reads ho hw, regAt_here h, hpq, hn]
    exact regRead_warp rfl rfl rfl rfl r l
  · rw [hwo, hpq, hn]
    show (advance e.wp (e.atPc &&& ~~~lanes)).lanes[l]? = _
    rw [mem_lanes_advance]
    congr 1
    funext y
    by_cases hl : l < 32
    · simp [bit, hl, Bool.and_comm]
    · have : ∀ v : Mask, bit v l = false := fun v => BitVec.getLsbD_of_ge v l (by omega)
      simp [this]
  · rw [hwo]; simp only [hf]; rw [if_neg (fun h => hmk (hb.mp h)), hn]; rfl
  · rw [hout, hwo]; simp only [hf]; rw [if_pos (hb.mpr hmk)]
    show (park m _).parked = _
    rw [park_parked, hn]; rfl
  · unfold Clears
    rw [hout, hwo]
    simp only [hf]
    by_cases hmk : marks
    · rw [if_pos (hb.mpr hmk)]
      show c ∈ (park m _).pending ↔ _
      rw [mem_park_pending, hn]
      exact and_congr Iff.rfl (not_congr ⟨fun h => ⟨hmk, h⟩, fun h => h.2⟩)
    · rw [if_neg (fun h => hmk (hb.mp h)), hn]
      exact ⟨fun h => ⟨h, fun hc => hmk hc.1⟩, fun h => h.1⟩
  · rw [hwo, hpq, hn]; rfl

end Sys2Proof.Machine
end

