-- ==== Sys2Proof/Laws/Memory.lean ====
section
/-! SUPPORT. Memory: a byte reads back as written, other bytes read as before, and every memory operation keeps the
canonical form. -/

namespace Sys2Proof.Machine

theorem memory_wf_iff (m : List Host.Cell) : Memory.wf m = true ↔ risingKeys m = true ∧ ∀ c ∈ m, c.2 ≠ 0 := by
  simp [Memory.wf, List.all_eq_true]

theorem memory_wf_nil : Memory.wf [] = true := rfl

theorem reset_mem_wf : Memory.wf State.reset.mem = true := rfl

theorem reset_hostMem_wf : Memory.wf State.reset.hostMem = true := rfl

theorem memPut_wf (m : List Host.Cell) (a : Nat) (b : Byte) (h : Memory.wf m = true) : Memory.wf (memPut m a b) = true := by
  rw [memory_wf_iff] at h ⊢
  unfold memPut
  split
  · exact ⟨risingKeys_sdel a h.1, fun c hc => h.2 c (mem_of_mem_sdel hc).1⟩
  · rename_i hb
    refine ⟨risingKeys_sput a b h.1, fun c hc => ?_⟩
    rcases mem_of_mem_sput hc with rfl | hc
    · exact hb
    · exact h.2 c hc

theorem memByte_memPut (m : List Host.Cell) (a x : Nat) (b : Byte) : memByte (memPut m a b) x = if x = a then b else memByte m x := by
  unfold memByte memPut
  split
  · subst_vars; rw [sget?_sdel]; split <;> rfl
  · rw [sget?_sput]; split <;> rfl

theorem memByte_memPut_self (m : List Host.Cell) (a : Nat) (b : Byte) : memByte (memPut m a b) a = b := by
  simp [memByte_memPut]

theorem memByte_memPut_ne (m : List Host.Cell) {a x : Nat} (b : Byte) (h : x ≠ a) : memByte (memPut m a b) x = memByte m x := by
  simp [memByte_memPut, h]

/-! ## One byte at its home -/

/-- A byte of device or host memory reads back as written at its home, and every other byte as before. -/
theorem homeByte_putHomeByte (s : State) (sp a : Nat) (b : Byte) (x : Nat) (h : sp = 0 ∨ sp = 1) :
    homeByte (putHomeByte s sp a b) sp x = if x = a then b else homeByte s sp x := by
  rcases h with rfl | rfl
  · show (sget? (sput s.l2 a b) x).getD (memByte s.mem x) = _
    rw [sget?_sput]; split <;> rfl
  · exact memByte_memPut ..

/-- An uncached write reads back as written, whatever the caches held (R192, R194). -/
theorem homeByte_putHomeByte_uncached (s : State) (a : Nat) (b : Byte) : homeByte (putHomeByte s 11 a b) 11 a = b := by
  show (match sget? (sdel s.l2 a) a with
    | some c => if cachedAlias (putHomeByte s 11 a b) a then c else memByte (memPut s.mem a b) a
    | none => memByte (memPut s.mem a b) a) = b
  simp [sget?_sdel, memByte_memPut_self]

theorem putHomeByte_mem_wf (s : State) (sp a : Nat) (b : Byte) (h : Memory.wf s.mem = true) :
    Memory.wf (putHomeByte s sp a b).mem = true := by
  unfold putHomeByte
  split
  · exact h
  · split
    · exact memPut_wf _ _ _ h
    · split <;> exact h

theorem putHomeByte_hostMem_wf (s : State) (sp a : Nat) (b : Byte) (h : Memory.wf s.hostMem = true) :
    Memory.wf (putHomeByte s sp a b).hostMem = true := by
  unfold putHomeByte
  split
  · exact h
  · split
    · exact h
    · split
      · exact memPut_wf _ _ _ h
      · exact h

theorem putHomeByte_l2_rising (s : State) (sp a : Nat) (b : Byte) (h : risingKeys s.l2 = true) :
    risingKeys (putHomeByte s sp a b).l2 = true := by
  unfold putHomeByte
  split
  · exact risingKeys_sput _ _ h
  · split
    · exact risingKeys_sdel _ h
    · split <;> exact h

theorem putHomeBytes_mem_wf (s : State) (sp a : Nat) (bs : List Byte) (h : Memory.wf s.mem = true) :
    Memory.wf (putHomeBytes s sp a bs).mem = true := by
  induction bs generalizing s a with
  | nil => exact h
  | cons b r ih => exact ih _ _ (putHomeByte_mem_wf _ _ _ _ h)

theorem putHomeBytes_hostMem_wf (s : State) (sp a : Nat) (bs : List Byte) (h : Memory.wf s.hostMem = true) :
    Memory.wf (putHomeBytes s sp a bs).hostMem = true := by
  induction bs generalizing s a with
  | nil => exact h
  | cons b r ih => exact ih _ _ (putHomeByte_hostMem_wf _ _ _ _ h)

theorem putHomeBytes_l2_rising (s : State) (sp a : Nat) (bs : List Byte) (h : risingKeys s.l2 = true) :
    risingKeys (putHomeBytes s sp a bs).l2 = true := by
  induction bs generalizing s a with
  | nil => exact h
  | cons b r ih => exact ih _ _ (putHomeByte_l2_rising _ _ _ _ h)

end Sys2Proof.Machine
end

