-- ==== Sys2Proof/Laws/PerInstr.lean ====
section
/-! SUPPORT. The per-instruction lemmas of family RoundTrip: the decoder reads back every word the encoder writes. -/

namespace Sys2Proof.Laws.RoundTrip

open Sys2Proof

set_option Elab.async false

/-- Decoding the word of a well-formed instruction gives the instruction back. -/
def Statement (i : Instr) : Prop := isWord i = true → wellFormed i = true → decode (encode i) = .ok i

theorem of_shape {i : Instr} {f : Full} (he : encode i = pack f) (hop : f.op ≠ 0)
    (hs : encodable i = true → decodeShape f = some i)
    (hc : encodable i = true → (hasScope f && fld f 7 3 == 7) = false) : Statement i := by
  intro _ hw
  simp only [wellFormed, Bool.and_eq_true] at hw
  rw [he]
  exact decode_of_shape hop (hs hw.1.1) (hc hw.1.1) hw.1.2

theorem illegal (raw : BitVec 54) (mark : Bool) : Statement (.illegal raw mark) := by
  intro _ _
  have h1 := raw.isLt
  have h2 := b2n_lt mark
  have hv : (encode (.illegal raw mark)).toNat = b2n mark * 2 ^ 63 + raw.toNat := by
    rw [encode, BitVec.toNat_ofNat]; omega
  have e0 : wbits (encode (.illegal raw mark)) 62 1 = 0 := by rw [wbits, hv]; omega
  have e1 : wbits (encode (.illegal raw mark)) 54 8 = 0 := by rw [wbits, hv]; omega
  have e2 : wbits (encode (.illegal raw mark)) 0 54 = raw.toNat := by rw [wbits, hv]; omega
  have e3 : wbits (encode (.illegal raw mark)) 63 1 = b2n mark := by rw [wbits, hv]; omega
  rw [decode, e0, e1, e2, e3, if_neg (by decide), if_pos rfl, b2n_eq_one, ofNat_toNat]

theorem nop (h : Hdr) : Statement (.nop h) := by
  refine of_shape (f := encodeFull (.nop h)) rfl (by simp [encodeFull]) (fun hw => ?_) (fun _ => rfl)
  rw [encodeFull, shape_0x01 rfl]
  simp [decNop]

theorem pairedWord (mark : Bool) (x y : Half) : Statement (.pairedWord mark x y) := by
  intro _ hw
  simp only [wellFormed, encodable, Bool.and_eq_true] at hw
  exact decode_paired mark x y hw.1.1.1 hw.1.1.2 hw.2

theorem iadd (h : Hdr) (op : AddOp) (d a : Reg) (b : Src) (c : Reg) : Statement (.iadd h op d a b c) := by
  cases b with
  | reg r =>
    refine of_shape (f := fullOf h 0x02 d a r c op.code) rfl (by simp) (fun hw => ?_) (fun _ => rfl)
    rw [shape_0x02 rfl]
    have hr : (r == 0xFF) = false := by
      simp only [encodable, srcOk] at hw
      cases hr : (r == 0xFF) <;> simp_all
    cases op <;> simp_all [decIadd, AddOp.code, addOpOf, encodable, zero, encodable.carryIn]
  | imm i =>
    refine of_shape (f := fullOf h 0x02 d a 0xFF (fieldNat (i.toNat / 4096)) (i.toNat % 4096)) rfl (by simp) (fun hw => ?_) (fun _ => rfl)
    rw [shape_0x02 rfl]
    cases op <;> simp_all [decIadd, encodable, srcOk, encodable.carryIn]

theorem imul (h : Hdr) (op : MulOp) (d a : Reg) (b : Src) : Statement (.imul h op d a b) := by
  cases b with
  | reg r =>
    refine of_shape (f := fullOf h 0x03 d a r 0 op.code) rfl (by simp) (fun hw => ?_) (fun _ => rfl)
    rw [shape_0x03 rfl]
    have hr : (r == 0xFF) = false := by
      simp only [encodable, srcOk] at hw
      cases hr : (r == 0xFF) <;> simp_all
    cases op <;> simp_all [decImul, MulOp.code, mulOpOf, encodable, zero]
  | imm i =>
    refine of_shape (f := fullOf h 0x03 d a 0xFF (fieldNat (i.toNat / 4096)) (i.toNat % 4096)) rfl (by simp) (fun hw => ?_) (fun _ => rfl)
    rw [shape_0x03 rfl]
    cases op <;> simp_all [decImul, encodable, srcOk]

theorem imad (h : Hdr) (op : MadOp) (d : Reg) (a : Reg) (b : Reg) (c : Reg) : Statement (.imad h op d a b c) := by
  refine of_shape (f := encodeFull (.imad h op d a b c)) rfl (by simp [encodeFull]) (fun hw => ?_) (fun _ => rfl)
  rw [encodeFull, shape_0x04 rfl]
  cases op <;> simp [decImad, MadOp.code, madOpOf]

theorem idiv (h : Hdr) (op : DivOp) (d : Reg) (a : Reg) (b : Reg) : Statement (.idiv h op d a b) := by
  refine of_shape (f := encodeFull (.idiv h op d a b)) rfl (by simp [encodeFull]) (fun hw => ?_) (fun _ => rfl)
  rw [encodeFull, shape_0x05 rfl]
  cases op <;> simp [decIdiv, DivOp.code, divOpOf]

theorem imnx (h : Hdr) (op : MnxOp) (d a : Reg) (b : Src) : Statement (.imnx h op d a b) := by
  cases b with
  | reg r =>
    refine of_shape (f := fullOf h 0x06 d a r 0 op.code) rfl (by simp) (fun hw => ?_) (fun _ => rfl)
    rw [shape_0x06 rfl]
    have hr : (r == 0xFF) = false := by
      simp only [encodable, srcOk] at hw
      cases hr : (r == 0xFF) <;> simp_all
    cases op <;> simp_all [decImnx, MnxOp.code, mnxOpOf, encodable, zero]
  | imm i =>
    refine of_shape (f := fullOf h 0x06 d a 0xFF (fieldNat (i.toNat / 4096)) (i.toNat % 4096)) rfl (by simp) (fun hw => ?_) (fun _ => rfl)
    rw [shape_0x06 rfl]
    cases op <;> simp_all [decImnx, encodable, srcOk]

theorem iabs (h : Hdr) (op : AbsOp) (d : Reg) (a : Reg) : Statement (.iabs h op d a) := by
  refine of_shape (f := encodeFull (.iabs h op d a)) rfl (by simp [encodeFull]) (fun hw => ?_) (fun _ => rfl)
  rw [encodeFull, shape_0x07 rfl]
  cases op <;> simp [decIabs, AbsOp.code, absOpOf]

theorem icmp (h : Hdr) (rel : Rel) (uns : Bool) (d a : Reg) (b : Cmp2) : Statement (.icmp h rel uns d a b) := by
  cases b with
  | reg r =>
    refine of_shape (f := fullOf h 0x08 d a r 0 (rel.code + bit uns 3)) rfl (by simp) (fun hw => ?_) (fun _ => rfl)
    rw [shape_0x08 rfl]
    cases rel <;> cases uns <;> simp_all [decIcmp, Rel.code, relOf, cmp2Of, cmpOk, encodable, relOk]
  | imm i =>
    refine of_shape (f := fullOf h 0x08 d a 0 i (rel.code + bit uns 3 + 16)) rfl (by simp) (fun hw => ?_) (fun _ => rfl)
    rw [shape_0x08 rfl]
    cases rel <;> cases uns <;> simp_all [decIcmp, Rel.code, relOf, cmp2Of, cmpOk, encodable, relOk]

theorem sel (h : Hdr) (wide : Bool) (d : Reg) (a : Reg) (b : Reg) (c : Reg) : Statement (.sel h wide d a b c) := by
  refine of_shape (f := encodeFull (.sel h wide d a b c)) rfl (by simp [encodeFull]) (fun hw => ?_) (fun _ => rfl)
  rw [encodeFull, shape_0x09 rfl]
  cases wide <;> simp [decSel]

theorem ltab (h : Hdr) (tt : BitVec 8) (d a b c : Reg) : Statement (.ltab h tt d a b c) := by
  refine of_shape (f := fullOf h 0x0A d a b c tt.toNat) rfl (by simp) (fun hw => ?_) (fun _ => rfl)
  rw [shape_0x0A rfl]
  have := tt.isLt
  have e1 : fld (fullOf h 0x0A d a b c tt.toNat) 8 4 = 0 := by rw [fld_fullOf]; omega
  have e2 : fld (fullOf h 0x0A d a b c tt.toNat) 0 8 = tt.toNat := by rw [fld_fullOf]; omega
  simp only [decLtab, e1, e2]
  simp

theorem shf (h : Hdr) (op : ShfOp) (clamp : Bool) (d a : Reg) (n : Count) (c : Reg) : Statement (.shf h op clamp d a n c) := by
  cases n with
  | reg r =>
    refine of_shape (f := fullOf h 0x0B d a r c (op.code + bit clamp 3)) rfl (by simp) (fun hw => ?_) (fun _ => rfl)
    rw [shape_0x0B rfl]
    cases op <;> cases clamp <;> simp_all [decShf, ShfOp.code, shfOpOf, funnel, encodable, countOk, zero]
  | imm n =>
    cases op with
    | fl | fr =>
      refine of_shape (f := fullOf h 0x0B d a n c _) rfl (by simp) (fun hw => ?_) (fun _ => rfl)
      rw [shape_0x0B rfl]
      cases clamp <;> simp_all [decShf, ShfOp.code, shfOpOf, funnel, encodable, countOk, zero]
    | l | r | a | rotl =>
      refine of_shape (f := fullOf h 0x0B d a 0 n _) rfl (by simp) (fun hw => ?_) (fun _ => rfl)
      rw [shape_0x0B rfl]
      cases clamp <;> simp_all [decShf, ShfOp.code, shfOpOf, funnel, encodable, countOk, zero]

theorem bfx (h : Hdr) (sx : Bool) (d a : Reg) (f : Field) : Statement (.bfx h sx d a f) := by
  cases f with
  | reg r =>
    refine of_shape (f := fullOf h 0x0C d a r 0 (bit sx 0)) rfl (by simp) (fun hw => ?_) (fun _ => rfl)
    rw [shape_0x0C rfl]
    cases sx <;> simp [decBfx, fieldOf]
  | imm pos len =>
    refine of_shape (f := fullOf h 0x0C d a (fieldNat pos.toNat) 0 (bit sx 0 + 2 + len.toNat * 64)) rfl (by simp) (fun hw => ?_) (fun _ => rfl)
    rw [shape_0x0C rfl, decBfx, hdrOf_fullOf, fieldOf_imm h _ d a pos len 0 (bit sx 0) (by cases sx <;> decide) hw]
    have : flg (fullOf h 0x0C d a (fieldNat pos.toNat) 0 (bit sx 0 + 2 + len.toNat * 64)) 0 = sx := by
      have := len.isLt
      cases sx <;> simp <;> omega
    simp only [this]
    simp

theorem bfi (h : Hdr) (d a : Reg) (f : Field) (c : Reg) : Statement (.bfi h d a f c) := by
  cases f with
  | reg r =>
    refine of_shape (f := fullOf h 0x0D d a r c 0) rfl (by simp) (fun hw => ?_) (fun _ => rfl)
    rw [shape_0x0D rfl]
    simp [decBfi, fieldOf]
  | imm pos len =>
    refine of_shape (f := fullOf h 0x0D d a (fieldNat pos.toNat) c (0 + 2 + len.toNat * 64)) rfl (by simp) (fun hw => ?_) (fun _ => rfl)
    rw [shape_0x0D rfl, decBfi, hdrOf_fullOf, fieldOf_imm h _ d a pos len c 0 (by decide) hw]
    have : flg (fullOf h 0x0D d a (fieldNat pos.toNat) c (0 + 2 + len.toNat * 64)) 0 = false := by
      have := len.isLt
      simp; omega
    simp only [this]
    simp

theorem bitc (h : Hdr) (op : BitOp) (d : Reg) (a : Reg) : Statement (.bitc h op d a) := by
  refine of_shape (f := encodeFull (.bitc h op d a)) rfl (by simp [encodeFull]) (fun hw => ?_) (fun _ => rfl)
  rw [encodeFull, shape_0x0E rfl]
  cases op <;> simp [decBitc, BitOp.code, bitOpOf]

theorem bperm (h : Hdr) (d : Reg) (a : Reg) (b : Reg) (c : Reg) : Statement (.bperm h d a b c) := by
  refine of_shape (f := encodeFull (.bperm h d a b c)) rfl (by simp [encodeFull]) (fun hw => ?_) (fun _ => rfl)
  rw [encodeFull, shape_0x0F rfl]
  simp [decBperm]

theorem iaddw (h : Hdr) (op : AdwOp) (d a : Reg) (b : Src) : Statement (.iaddw h op d a b) := by
  cases b with
  | reg r =>
    refine of_shape (f := fullOf h 0x10 d a r 0 op.code) rfl (by simp) (fun hw => ?_) (fun _ => rfl)
    rw [shape_0x10 rfl]
    have hr : (r == 0xFF) = false := by
      simp only [encodable, srcOk] at hw
      cases hr : (r == 0xFF) <;> simp_all
    cases op <;> simp_all [decIaddw, AdwOp.code, adwOpOf, encodable, zero]
  | imm i =>
    refine of_shape (f := fullOf h 0x10 d a 0xFF (fieldNat (i.toNat / 4096)) (i.toNat % 4096)) rfl (by simp) (fun hw => ?_) (fun _ => rfl)
    rw [shape_0x10 rfl]
    cases op <;> simp_all [decIaddw, encodable, srcOk]

theorem shfw (h : Hdr) (op : ShwOp) (clamp : Bool) (d a : Reg) (n : Count) : Statement (.shfw h op clamp d a n) := by
  cases n with
  | reg r =>
    refine of_shape (f := fullOf h 0x11 d a r 0 (op.code + bit clamp 3)) rfl (by simp) (fun hw => ?_) (fun _ => rfl)
    rw [shape_0x11 rfl]
    cases op <;> cases clamp <;> simp [decShfw, ShwOp.code, shwOpOf]
  | imm n =>
    refine of_shape (f := fullOf h 0x11 d a 0 n (op.code + 16)) rfl (by simp) (fun hw => ?_) (fun _ => rfl)
    rw [shape_0x11 rfl]
    cases op <;> cases clamp <;> simp_all [decShfw, ShwOp.code, shwOpOf, encodable, countOk]

theorem icmpw (h : Hdr) (rel : Rel) (uns : Bool) (d a : Reg) (b : Cmp2) : Statement (.icmpw h rel uns d a b) := by
  cases b with
  | reg r =>
    refine of_shape (f := fullOf h 0x12 d a r 0 (rel.code + bit uns 3)) rfl (by simp) (fun hw => ?_) (fun _ => rfl)
    rw [shape_0x12 rfl]
    cases rel <;> cases uns <;> simp_all [decIcmpw, Rel.code, relOf, cmp2Of, cmpOk, encodable, relOk]
  | imm i =>
    refine of_shape (f := fullOf h 0x12 d a 0 i (rel.code + bit uns 3 + 16)) rfl (by simp) (fun hw => ?_) (fun _ => rfl)
    rw [shape_0x12 rfl]
    cases rel <;> cases uns <;> simp_all [decIcmpw, Rel.code, relOf, cmp2Of, cmpOk, encodable, relOk]

theorem lea (h : Hdr) (sx : Bool) (sh : BitVec 3) (d a b : Reg) : Statement (.lea h sx sh d a b) := by
  refine of_shape (f := fullOf h 0x13 d a b 0 (sh.toNat + bit sx 3)) rfl (by simp) (fun hw => ?_) (fun _ => rfl)
  rw [shape_0x13 rfl]
  have := sh.isLt
  have e1 : fld (fullOf h 0x13 d a b 0 (sh.toNat + bit sx 3)) 4 8 = 0 := by rw [fld_fullOf]; cases sx <;> simp <;> omega
  have e2 : fld (fullOf h 0x13 d a b 0 (sh.toNat + bit sx 3)) 0 3 = sh.toNat := by rw [fld_fullOf]; cases sx <;> simp <;> omega
  have e3 : flg (fullOf h 0x13 d a b 0 (sh.toNat + bit sx 3)) 3 = sx := by rw [flg_fullOf]; cases sx <;> simp <;> omega
  simp only [decLea, e1, e2, e3]
  simp

theorem mov (h : Hdr) (w : MovW) (d : Reg) (a : Reg) : Statement (.mov h w d a) := by
  refine of_shape (f := encodeFull (.mov h w d a)) rfl (by simp [encodeFull]) (fun hw => ?_) (fun _ => rfl)
  rw [encodeFull, shape_0x14 rfl]
  cases w <;> simp [decMov, MovW.code, movWOf]

theorem movi (mark : Bool) (d : Reg) (imm : Word) : Statement (.movi mark d imm) := by
  refine of_shape (f := encodeFull (.movi mark d imm)) rfl (by simp [encodeFull]) (fun hw => ?_) (fun _ => rfl)
  rw [shape_0x15 rfl]
  show need true (some (.movi mark d (imm.extractLsb' 24 8 ++ imm.extractLsb' 16 8 ++ imm.extractLsb' 8 8 ++ imm.extractLsb' 0 8))) = _
  rw [imm32_parts]; rfl

theorem idot (h : Hdr) (half : Bool) (sa : Bool) (sb : Bool) (sat : Bool) (d : Reg) (a : Reg) (b : Reg) (c : Reg) : Statement (.idot h half sa sb sat d a b c) := by
  refine of_shape (f := encodeFull (.idot h half sa sb sat d a b c)) rfl (by simp [encodeFull]) (fun hw => ?_) (fun _ => rfl)
  rw [encodeFull, shape_0x16 rfl]
  cases half <;> cases sa <;> cases sb <;> cases sat <;> simp [decIdot]

theorem cvti (h : Hdr) (op : CvtI) (d : Reg) (a : Reg) : Statement (.cvti h op d a) := by
  refine of_shape (f := encodeFull (.cvti h op d a)) rfl (by simp [encodeFull]) (fun hw => ?_) (fun _ => rfl)
  rw [encodeFull, shape_0x17 rfl]
  cases op <;> simp [decCvti, CvtI.code, cvtIOf]

theorem sread (h : Hdr) (v : SysVal) (d : Reg) : Statement (.sread h v d) := by
  refine of_shape (f := encodeFull (.sread h v d)) rfl (by simp [encodeFull]) (fun hw => ?_) (fun _ => rfl)
  rw [encodeFull, shape_0x18 rfl]
  cases v <;> simp [decSread, SysVal.code, sysValOf]

theorem fadd (h : Hdr) (sub : Bool) (r : Rnd) (ftz : Bool) (d : Reg) (a : Reg) (b : Reg) : Statement (.fadd h sub r ftz d a b) := by
  refine of_shape (f := encodeFull (.fadd h sub r ftz d a b)) rfl (by simp [encodeFull]) (fun hw => ?_) (fun _ => rfl)
  rw [encodeFull, shape_0x20 rfl]
  cases sub <;> cases r <;> cases ftz <;> simp [decFadd, Rnd.code, rndOf, fp]

theorem fmul (h : Hdr) (r : Rnd) (ftz : Bool) (d : Reg) (a : Reg) (b : Reg) : Statement (.fmul h r ftz d a b) := by
  refine of_shape (f := encodeFull (.fmul h r ftz d a b)) rfl (by simp [encodeFull]) (fun hw => ?_) (fun _ => rfl)
  rw [encodeFull, shape_0x21 rfl]
  cases r <;> cases ftz <;> simp [decFmul, Rnd.code, rndOf, fp]

theorem ffma (h : Hdr) (np : Bool) (nc : Bool) (r : Rnd) (ftz : Bool) (d : Reg) (a : Reg) (b : Reg) (c : Reg) : Statement (.ffma h np nc r ftz d a b c) := by
  refine of_shape (f := encodeFull (.ffma h np nc r ftz d a b c)) rfl (by simp [encodeFull]) (fun hw => ?_) (fun _ => rfl)
  rw [encodeFull, shape_0x22 rfl]
  cases np <;> cases nc <;> cases r <;> cases ftz <;> simp [decFfma, Rnd.code, rndOf, fp]

theorem fmnx (h : Hdr) (max : Bool) (d : Reg) (a : Reg) (b : Reg) : Statement (.fmnx h max d a b) := by
  refine of_shape (f := encodeFull (.fmnx h max d a b)) rfl (by simp [encodeFull]) (fun hw => ?_) (fun _ => rfl)
  rw [encodeFull, shape_0x23 rfl]
  cases max <;> simp [decFmnx]

theorem fcmp (h : Hdr) (rel : FRel) (ftz : Bool) (d : Reg) (a : Reg) (b : Reg) : Statement (.fcmp h rel ftz d a b) := by
  refine of_shape (f := encodeFull (.fcmp h rel ftz d a b)) rfl (by simp [encodeFull]) (fun hw => ?_) (fun _ => rfl)
  rw [encodeFull, shape_0x24 rfl]
  cases rel <;> cases ftz <;> simp [decFcmp, FRel.code, fRelOf]

theorem fclass (h : Hdr) (f : Fmt) (d : Reg) (a : Reg) : Statement (.fclass h f d a) := by
  refine of_shape (f := encodeFull (.fclass h f d a)) rfl (by simp [encodeFull]) (fun hw => ?_) (fun _ => rfl)
  rw [encodeFull, shape_0x25 rfl]
  cases f <;> simp [decFclass, Fmt.code, fmtOf]

theorem fsfu (h : Hdr) (op : SfuOp) (ftz : Bool) (d : Reg) (a : Reg) : Statement (.fsfu h op ftz d a) := by
  refine of_shape (f := encodeFull (.fsfu h op ftz d a)) rfl (by simp [encodeFull]) (fun hw => ?_) (fun _ => rfl)
  rw [encodeFull, shape_0x26 rfl]
  cases op <;> cases ftz <;> simp [decFsfu, SfuOp.code, sfuOpOf]

theorem fdiv (h : Hdr) (r : Rnd) (ftz : Bool) (d : Reg) (a : Reg) (b : Reg) : Statement (.fdiv h r ftz d a b) := by
  refine of_shape (f := encodeFull (.fdiv h r ftz d a b)) rfl (by simp [encodeFull]) (fun hw => ?_) (fun _ => rfl)
  rw [encodeFull, shape_0x27 rfl]
  cases r <;> cases ftz <;> simp [decFdiv, Rnd.code, rndOf, fp]

theorem frint (h : Hdr) (r : Rnd) (ftz : Bool) (d : Reg) (a : Reg) : Statement (.frint h r ftz d a) := by
  refine of_shape (f := encodeFull (.frint h r ftz d a)) rfl (by simp [encodeFull]) (fun hw => ?_) (fun _ => rfl)
  rw [encodeFull, shape_0x28 rfl]
  cases r <;> cases ftz <;> simp [decFrint, Rnd.code, rndOf, fp]

theorem fscale (h : Hdr) (r : Rnd) (ftz : Bool) (d : Reg) (a : Reg) (b : Reg) : Statement (.fscale h r ftz d a b) := by
  refine of_shape (f := encodeFull (.fscale h r ftz d a b)) rfl (by simp [encodeFull]) (fun hw => ?_) (fun _ => rfl)
  rw [encodeFull, shape_0x29 rfl]
  cases r <;> cases ftz <;> simp [decFscale, Rnd.code, rndOf, fp]

theorem cvtf (h : Hdr) (op : CvtF) (r : Rnd) (ftz : Bool) (d : Reg) (a : Reg) : Statement (.cvtf h op r ftz d a) := by
  refine of_shape (f := encodeFull (.cvtf h op r ftz d a)) rfl (by simp [encodeFull]) (fun hw => ?_) (fun _ => rfl)
  rw [encodeFull, shape_0x2A rfl]
  cases op <;> cases r <;> cases ftz <;> simp_all [decCvtf, cvtFRnd, cvtFFtz, encodable.cvtRounds, encodable.cvtFlushes, CvtF.code, cvtFOf, Rnd.code, rndOf, fp, encodable]

theorem cvtfi (h : Hdr) (ty : IntTy) (f : Fmt) (r : Rnd) (ftz : Bool) (d : Reg) (a : Reg) : Statement (.cvtfi h ty f r ftz d a) := by
  refine of_shape (f := encodeFull (.cvtfi h ty f r ftz d a)) rfl (by simp [encodeFull]) (fun hw => ?_) (fun _ => rfl)
  rw [encodeFull, shape_0x2B rfl]
  cases ty <;> cases f <;> cases r <;> cases ftz <;> simp [decCvtfi, IntTy.code, intTyOf, Fmt.code, fmtOf, Rnd.code, rndOf, fp]

theorem cvtif (h : Hdr) (ty : IntTy) (f : Fmt) (r : Rnd) (d : Reg) (a : Reg) : Statement (.cvtif h ty f r d a) := by
  refine of_shape (f := encodeFull (.cvtif h ty f r d a)) rfl (by simp [encodeFull]) (fun hw => ?_) (fun _ => rfl)
  rw [encodeFull, shape_0x2C rfl]
  cases ty <;> cases f <;> cases r <;> simp [decCvtif, IntTy.code, intTyOf, Fmt.code, fmtOf, Rnd.code, rndOf]

theorem paddh (h : Hdr) (bf : Bool) (r : Rnd) (ftz : Bool) (d : Reg) (a : Reg) (b : Reg) : Statement (.paddh h bf r ftz d a b) := by
  refine of_shape (f := encodeFull (.paddh h bf r ftz d a b)) rfl (by simp [encodeFull]) (fun hw => ?_) (fun _ => rfl)
  rw [encodeFull, shape_0x2D rfl]
  cases bf <;> cases r <;> cases ftz <;> simp [decPaddh, Rnd.code, rndOf, fp]

theorem pmulh (h : Hdr) (bf : Bool) (r : Rnd) (ftz : Bool) (d : Reg) (a : Reg) (b : Reg) : Statement (.pmulh h bf r ftz d a b) := by
  refine of_shape (f := encodeFull (.pmulh h bf r ftz d a b)) rfl (by simp [encodeFull]) (fun hw => ?_) (fun _ => rfl)
  rw [encodeFull, shape_0x2E rfl]
  cases bf <;> cases r <;> cases ftz <;> simp [decPmulh, Rnd.code, rndOf, fp]

theorem pfmah (h : Hdr) (bf : Bool) (r : Rnd) (ftz : Bool) (d : Reg) (a : Reg) (b : Reg) (c : Reg) : Statement (.pfmah h bf r ftz d a b c) := by
  refine of_shape (f := encodeFull (.pfmah h bf r ftz d a b c)) rfl (by simp [encodeFull]) (fun hw => ?_) (fun _ => rfl)
  rw [encodeFull, shape_0x2F rfl]
  cases bf <;> cases r <;> cases ftz <;> simp [decPfmah, Rnd.code, rndOf, fp]

theorem pmnxh (h : Hdr) (bf : Bool) (max : Bool) (d : Reg) (a : Reg) (b : Reg) : Statement (.pmnxh h bf max d a b) := by
  refine of_shape (f := encodeFull (.pmnxh h bf max d a b)) rfl (by simp [encodeFull]) (fun hw => ?_) (fun _ => rfl)
  rw [encodeFull, shape_0x30 rfl]
  cases bf <;> cases max <;> simp [decPmnxh]

theorem fdot2 (h : Hdr) (bf : Bool) (r : Rnd) (ftz : Bool) (d : Reg) (a : Reg) (b : Reg) (c : Reg) : Statement (.fdot2 h bf r ftz d a b c) := by
  refine of_shape (f := encodeFull (.fdot2 h bf r ftz d a b c)) rfl (by simp [encodeFull]) (fun hw => ?_) (fun _ => rfl)
  rw [encodeFull, shape_0x31 rfl]
  cases bf <;> cases r <;> cases ftz <;> simp [decFdot2, Rnd.code, rndOf, fp]

theorem fquant (h : Hdr) (f : QFmt) (k : BitVec 3) (nf : Bool) (d a b c : Reg) : Statement (.fquant h f k nf d a b c) := by
  refine of_shape (f := fullOf h 0x32 d a b c (f.code * 16 + k.toNat * 64 + bit nf 9)) rfl (by simp) (fun hw => ?_) (fun _ => rfl)
  rw [shape_0x32 rfl]
  have hk := k.isLt
  have hf : f.code < 4 := by cases f <;> decide
  have ho : qFmtOf f.code = some f := by cases f <;> rfl
  set m := f.code * 16 + k.toNat * 64 + bit nf 9 with hm
  have e : m % 4096 / 2 ^ 4 % 2 ^ 2 = f.code ∧ m % 4096 / 2 ^ 6 % 2 ^ 3 = k.toNat ∧ m % 4096 / 2 ^ 0 % 2 ^ 4 = 0 ∧
      m % 4096 / 2 ^ 10 % 2 ^ 2 = 0 ∧ (m % 4096 / 2 ^ 9 % 2 ^ 1 == 1) = nf := by
    rw [hm]; cases nf <;> simp <;> omega
  obtain ⟨e1, e2, e3, e4, e5⟩ := e
  simp only [decFquant, hdrOf_fullOf, fld_fullOf, flg_fullOf, e1, e2, e3, e4, e5, ho]
  simp_all [kOk, encodable]

theorem fdeq (h : Hdr) (f : QFmt) (k : BitVec 3) (r : Rnd) (ftz : Bool) (d a b : Reg) : Statement (.fdeq h f k r ftz d a b) := by
  refine of_shape (f := fullOf h 0x33 d a b 0 (fp r ftz + f.code * 16 + k.toNat * 64)) rfl (by simp) (fun hw => ?_) (fun _ => rfl)
  rw [shape_0x33 rfl]
  have hk := k.isLt
  have hf : f.code < 4 := by cases f <;> decide
  have hr : r.code < 4 := by cases r <;> decide
  have ho : qFmtOf f.code = some f := by cases f <;> rfl
  have hor : rndOf r.code = some r := by cases r <;> rfl
  set m := fp r ftz + f.code * 16 + k.toNat * 64 with hm
  have e : m % 4096 / 2 ^ 4 % 2 ^ 2 = f.code ∧ m % 4096 / 2 ^ 6 % 2 ^ 3 = k.toNat ∧ m % 4096 / 2 ^ 0 % 2 ^ 2 = r.code ∧
      m % 4096 / 2 ^ 3 % 2 ^ 1 = 0 ∧ m % 4096 / 2 ^ 9 % 2 ^ 3 = 0 ∧ (m % 4096 / 2 ^ 2 % 2 ^ 1 == 1) = ftz := by
    rw [hm, fp]; cases ftz <;> simp <;> omega
  obtain ⟨e1, e2, e3, e4, e5, e6⟩ := e
  simp only [decFdeq, hdrOf_fullOf, fld_fullOf, flg_fullOf, e1, e2, e3, e4, e5, e6, ho, hor]
  simp_all [kOk, encodable]

theorem fexpd (h : Hdr) (ftz : Bool) (d : Reg) (a : Reg) (b : Reg) : Statement (.fexpd h ftz d a b) := by
  refine of_shape (f := encodeFull (.fexpd h ftz d a b)) rfl (by simp [encodeFull]) (fun hw => ?_) (fun _ => rfl)
  rw [encodeFull, shape_0x34 rfl]
  cases ftz <;> simp [decFexpd]

theorem flse (h : Hdr) (d : Reg) (a : Reg) (b : Reg) : Statement (.flse h d a b) := by
  refine of_shape (f := encodeFull (.flse h d a b)) rfl (by simp [encodeFull]) (fun hw => ?_) (fun _ => rfl)
  rw [encodeFull, shape_0x35 rfl]
  simp [decFlse]

theorem ftwosum (h : Hdr) (d : Reg) (a : Reg) (b : Reg) : Statement (.ftwosum h d a b) := by
  refine of_shape (f := encodeFull (.ftwosum h d a b)) rfl (by simp [encodeFull]) (fun hw => ?_) (fun _ => rfl)
  rw [encodeFull, shape_0x36 rfl]
  simp [decFtwosum]

theorem bra (h : Hdr) (off : BitVec 24) : Statement (.bra h off) := by
  refine of_shape (f := fullOf h 0x40 0 (off.extractLsb' 16 8) (off.extractLsb' 8 8) (off.extractLsb' 0 8) 0) rfl (by simp) (fun hw => ?_) (fun _ => rfl)
  rw [shape_0x40 rfl]
  simp only [decBra, hdrOf_fullOf, fullOf_d, fullOf_a, fullOf_b, fullOf_c, offset_parts]
  rfl

theorem brx (h : Hdr) (a : Reg) : Statement (.brx h a) := by
  refine of_shape (f := encodeFull (.brx h a)) rfl (by simp [encodeFull]) (fun hw => ?_) (fun _ => rfl)
  rw [encodeFull, shape_0x41 rfl]
  simp [decBrx]

theorem call (h : Hdr) (d : Reg) (off : BitVec 24) : Statement (.call h d off) := by
  refine of_shape (f := fullOf h 0x42 d (off.extractLsb' 16 8) (off.extractLsb' 8 8) (off.extractLsb' 0 8) 0) rfl (by simp) (fun hw => ?_) (fun _ => rfl)
  rw [shape_0x42 rfl]
  simp only [decCall, hdrOf_fullOf, fullOf_d, fullOf_a, fullOf_b, fullOf_c, offset_parts]
  rfl

theorem callx (h : Hdr) (d : Reg) (a : Reg) : Statement (.callx h d a) := by
  refine of_shape (f := encodeFull (.callx h d a)) rfl (by simp [encodeFull]) (fun hw => ?_) (fun _ => rfl)
  rw [encodeFull, shape_0x43 rfl]
  simp [decCallx]

theorem ret (h : Hdr) (a : Reg) : Statement (.ret h a) := by
  refine of_shape (f := encodeFull (.ret h a)) rfl (by simp [encodeFull]) (fun hw => ?_) (fun _ => rfl)
  rw [encodeFull, shape_0x44 rfl]
  simp [decRet]

theorem exit (h : Hdr) : Statement (.exit h) := by
  refine of_shape (f := encodeFull (.exit h)) rfl (by simp [encodeFull]) (fun hw => ?_) (fun _ => rfl)
  rw [encodeFull, shape_0x45 rfl]
  simp [decExit]

theorem vote (h : Hdr) (op : VoteOp) (d a : Reg) (m : Option Reg) : Statement (.vote h op d a m) := by
  cases m with
  | some c =>
    refine of_shape (f := fullOf h 0x46 d a 0 c (op.code + 2048)) rfl (by simp) (fun hw => ?_) (fun _ => rfl)
    rw [shape_0x46 rfl]
    cases op <;> simp [decVote, maskOf, VoteOp.code, voteOf]
  | none =>
    refine of_shape (f := fullOf h 0x46 d a 0 0 op.code) rfl (by simp) (fun hw => ?_) (fun _ => rfl)
    rw [shape_0x46 rfl]
    cases op <;> simp [decVote, maskOf, VoteOp.code, voteOf]

theorem shfl (h : Hdr) (op : ShflOp) (wrap wide : Bool) (d a : Reg) (n : Count) (m : Option Reg) : Statement (.shfl h op wrap wide d a n m) := by
  cases n with
  | reg r =>
    cases m with
    | some c =>
      refine of_shape (f := fullOf h 0x47 d a r c (op.code + bit wide 3 + bit wrap 4 + 2048)) rfl (by simp) (fun hw => ?_) (fun _ => rfl)
      rw [shape_0x47 rfl]
      cases op <;> cases wrap <;> cases wide <;> simp_all [decShfl, maskOf, ShflOp.code, shflOf, encodable, countOk]
    | none =>
      refine of_shape (f := fullOf h 0x47 d a r 0 (op.code + bit wide 3 + bit wrap 4)) rfl (by simp) (fun hw => ?_) (fun _ => rfl)
      rw [shape_0x47 rfl]
      cases op <;> cases wrap <;> cases wide <;> simp_all [decShfl, maskOf, ShflOp.code, shflOf, encodable, countOk]
  | imm n =>
    cases m with
    | some c =>
      refine of_shape (f := fullOf h 0x47 d a n c (op.code + 4 + bit wide 3 + bit wrap 4 + 2048)) rfl (by simp) (fun hw => ?_) (fun _ => rfl)
      rw [shape_0x47 rfl]
      cases op <;> cases wrap <;> cases wide <;> simp_all [decShfl, maskOf, ShflOp.code, shflOf, encodable, countOk] <;>
        exact decide_eq_false (by omega)
    | none =>
      refine of_shape (f := fullOf h 0x47 d a n 0 (op.code + 4 + bit wide 3 + bit wrap 4)) rfl (by simp) (fun hw => ?_) (fun _ => rfl)
      rw [shape_0x47 rfl]
      cases op <;> cases wrap <;> cases wide <;> simp_all [decShfl, maskOf, ShflOp.code, shflOf, encodable, countOk] <;>
        exact decide_eq_false (by omega)

theorem wred (h : Hdr) (op : RedOp) (d a : Reg) (m : Option Reg) : Statement (.wred h op d a m) := by
  cases m with
  | some c =>
    refine of_shape (f := fullOf h 0x48 d a 0 c (op.code + 2048)) rfl (by simp) (fun hw => ?_) (fun _ => rfl)
    rw [shape_0x48 rfl]
    cases op <;> simp [decWred, maskOf, RedOp.code, redOf]
  | none =>
    refine of_shape (f := fullOf h 0x48 d a 0 0 op.code) rfl (by simp) (fun hw => ?_) (fun _ => rfl)
    rw [shape_0x48 rfl]
    cases op <;> simp [decWred, maskOf, RedOp.code, redOf]

theorem wscan (h : Hdr) (op : RedOp) (excl : Bool) (d a : Reg) (m : Option Reg) : Statement (.wscan h op excl d a m) := by
  cases m with
  | some c =>
    refine of_shape (f := fullOf h 0x49 d a 0 c ((op.code + bit excl 4) + 2048)) rfl (by simp) (fun hw => ?_) (fun _ => rfl)
    rw [shape_0x49 rfl]
    cases op <;> cases excl <;> simp [decWscan, maskOf, RedOp.code, redOf]
  | none =>
    refine of_shape (f := fullOf h 0x49 d a 0 0 (op.code + bit excl 4)) rfl (by simp) (fun hw => ?_) (fun _ => rfl)
    rw [shape_0x49 rfl]
    cases op <;> cases excl <;> simp [decWscan, maskOf, RedOp.code, redOf]

theorem matchw (h : Hdr) (op : MatchOp) (wide : Bool) (d a : Reg) (m : Option Reg) : Statement (.matchw h op wide d a m) := by
  cases m with
  | some c =>
    refine of_shape (f := fullOf h 0x4A d a 0 c ((op.code + bit wide 0) + 2048)) rfl (by simp) (fun hw => ?_) (fun _ => rfl)
    rw [shape_0x4A rfl]
    cases op <;> cases wide <;> simp [decMatch, maskOf, MatchOp.code]
  | none =>
    refine of_shape (f := fullOf h 0x4A d a 0 0 (op.code + bit wide 0)) rfl (by simp) (fun hw => ?_) (fun _ => rfl)
    rw [shape_0x4A rfl]
    cases op <;> cases wide <;> simp [decMatch, maskOf, MatchOp.code]

theorem elect (h : Hdr) (d : Reg) (m : Option Reg) : Statement (.elect h d m) := by
  cases m with
  | some c =>
    refine of_shape (f := fullOf h 0x4B d 0 0 c (0 + 2048)) rfl (by simp) (fun hw => ?_) (fun _ => rfl)
    rw [shape_0x4B rfl]
    simp [decElect, maskOf]
  | none =>
    refine of_shape (f := fullOf h 0x4B d 0 0 0 0) rfl (by simp) (fun hw => ?_) (fun _ => rfl)
    rw [shape_0x4B rfl]
    simp [decElect, maskOf]

theorem wsync (h : Hdr)  (m : Option Reg) : Statement (.wsync h  m) := by
  cases m with
  | some c =>
    refine of_shape (f := fullOf h 0x4C 0 0 0 c (0 + 2048)) rfl (by simp) (fun hw => ?_) (fun _ => rfl)
    rw [shape_0x4C rfl]
    simp [decWsync, maskOf]
  | none =>
    refine of_shape (f := fullOf h 0x4C 0 0 0 0 0) rfl (by simp) (fun hw => ?_) (fun _ => rfl)
    rw [shape_0x4C rfl]
    simp [decWsync, maskOf]

theorem yieldl (mark : Bool) : Statement (.yieldl mark) := by
  refine of_shape (f := encodeFull (.yieldl mark)) rfl (by simp [encodeFull]) (fun hw => ?_) (fun _ => rfl)
  rw [encodeFull, shape_0x4D rfl]
  simp [decPlain]

theorem brkpt (h : Hdr) (k : BitVec 8) : Statement (.brkpt h k) := by
  refine of_shape (f := fullOf h 0x4E 0 0 0 0 k.toNat) rfl (by simp) (fun hw => ?_) (fun _ => rfl)
  rw [shape_0x4E rfl]
  have := k.isLt
  have e1 : fld (fullOf h 0x4E 0 0 0 0 k.toNat) 8 4 = 0 := by rw [fld_fullOf]; omega
  have e2 : fld (fullOf h 0x4E 0 0 0 0 k.toNat) 0 8 = k.toNat := by rw [fld_fullOf]; omega
  simp only [decBrkpt, e1, e2]
  simp

theorem freeze (mark : Bool) (a : Reg) : Statement (.freeze mark a) := by
  refine of_shape (f := encodeFull (.freeze mark a)) rfl (by simp [encodeFull]) (fun hw => ?_) (fun _ => rfl)
  rw [encodeFull, shape_0x50 rfl]
  simp [decFreeze]

theorem tnest (mark : Bool) : Statement (.tnest mark) := by
  refine of_shape (f := encodeFull (.tnest mark)) rfl (by simp [encodeFull]) (fun hw => ?_) (fun _ => rfl)
  rw [encodeFull, shape_0x51 rfl]
  simp [decPlain]

theorem tsignal (mark : Bool) (a : Reg) : Statement (.tsignal mark a) := by
  refine of_shape (f := encodeFull (.tsignal mark a)) rfl (by simp [encodeFull]) (fun hw => ?_) (fun _ => rfl)
  rw [encodeFull, shape_0x52 rfl]
  simp [decTsignal]

theorem rgrow (mark : Bool) (n : BitVec 6) : Statement (.rgrow mark n) := by
  refine of_shape (f := bareOf mark 0x53 0 0 (fieldNat n.toNat) 0 0) rfl (by simp) (fun hw => ?_) (fun _ => rfl)
  rw [shape_0x53 rfl]
  simp_all [decRgrow, encodable]

theorem rshrink (mark : Bool) (n : BitVec 6) : Statement (.rshrink mark n) := by
  refine of_shape (f := bareOf mark 0x54 0 0 (fieldNat n.toNat) 0 0) rfl (by simp) (fun hw => ?_) (fun _ => rfl)
  rw [shape_0x54 rfl]
  simp_all [decRshrink, encodable]

theorem gbar (mark : Bool) (b : BitVec 3) : Statement (.gbar mark b) := by
  refine of_shape (f := bareOf mark 0x55 0 0 (fieldNat b.toNat) 0 0) rfl (by simp) (fun hw => ?_) (fun _ => rfl)
  rw [shape_0x55 rfl]
  have : b.toNat < 8 := b.isLt
  simp [decGbar, this]

theorem gangbar (mark : Bool) : Statement (.gangbar mark) := by
  refine of_shape (f := encodeFull (.gangbar mark)) rfl (by simp [encodeFull]) (fun hw => ?_) (fun _ => rfl)
  rw [encodeFull, shape_0x56 rfl]
  simp [decPlain]

theorem garrive (mark : Bool) (d : Reg) (b : BitVec 3) : Statement (.garrive mark d b) := by
  refine of_shape (f := bareOf mark 0x57 d 0 (fieldNat b.toNat) 0 0) rfl (by simp) (fun hw => ?_) (fun _ => rfl)
  rw [shape_0x57 rfl]
  have : b.toNat < 8 := b.isLt
  simp [decGarrive, this]

theorem gwait (h : Hdr) (a : Reg) (b : BitVec 3) : Statement (.gwait h a b) := by
  refine of_shape (f := fullOf h 0x58 0 a (fieldNat b.toNat) 0 0) rfl (by simp) (fun hw => ?_) (fun _ => rfl)
  rw [shape_0x58 rfl]
  have : b.toNat < 8 := b.isLt
  simp [decGwait, this]

theorem launch (h : Hdr) (d : Reg) (a : Reg) : Statement (.launch h d a) := by
  refine of_shape (f := encodeFull (.launch h d a)) rfl (by simp [encodeFull]) (fun hw => ?_) (fun _ => rfl)
  rw [encodeFull, shape_0x59 rfl]
  simp [decLaunch]

theorem yield (mark : Bool) : Statement (.yield mark) := by
  refine of_shape (f := encodeFull (.yield mark)) rfl (by simp [encodeFull]) (fun hw => ?_) (fun _ => rfl)
  rw [encodeFull, shape_0x5A rfl]
  simp [decPlain]

theorem sleep (h : Hdr) (a : Reg) : Statement (.sleep h a) := by
  refine of_shape (f := encodeFull (.sleep h a)) rfl (by simp [encodeFull]) (fun hw => ?_) (fun _ => rfl)
  rw [encodeFull, shape_0x5B rfl]
  simp [decSleep]

theorem qpush (h : Hdr) (w : MovW) (q : BitVec 8) (a : Reg) : Statement (.qpush h w q a) := by
  refine of_shape (f := encodeFull (.qpush h w q a)) rfl (by simp [encodeFull]) (fun hw => ?_) (fun _ => rfl)
  rw [encodeFull, shape_0x60 rfl]
  cases w <;> simp [decQpush, MovW.code, movWOf]

theorem qpop (h : Hdr) (w : MovW) (q : BitVec 8) (d c : Reg) : Statement (.qpop h w q d c) := by
  refine of_shape (f := fullOf h 0x61 d 0 q c w.code) rfl (by simp) (fun hw => ?_) (fun _ => rfl)
  rw [shape_0x61 rfl]
  have hc : popClash w d c = false := by
    unfold popClash
    simp only [encodable] at hw
    cases h1 : decide (d.toNat ≤ c.toNat) <;> simp_all
  cases w <;> simp [decQpop, MovW.code, movWOf, hc]

theorem qclose (h : Hdr) (q : BitVec 8) : Statement (.qclose h q) := by
  refine of_shape (f := encodeFull (.qclose h q)) rfl (by simp [encodeFull]) (fun hw => ?_) (fun _ => rfl)
  rw [encodeFull, shape_0x62 rfl]
  simp [decQclose]

theorem nodesig (h : Hdr) (e : BitVec 3) : Statement (.nodesig h e) := by
  refine of_shape (f := fullOf h 0x63 0 0 (fieldNat e.toNat) 0 0) rfl (by simp) (fun hw => ?_) (fun _ => rfl)
  rw [shape_0x63 rfl]
  have : e.toNat < 8 := e.isLt
  simp [decNodesig, this]

theorem ld (h : Hdr) (m : MemMod) (d a : Reg) (off : BitVec 8) : Statement (.ld h m d a off) := by
  refine of_shape (f := fullOf h 0x68 d a 0 off m.code) rfl (by simp) (fun hw => ?_) (fun _ => ?_)
  · rw [shape_0x68 rfl]
    simp_all [decLd, memModOf_fullOf, loadOk, encodable, ldMod]
  · rw [scope_ok m.scope (scope_fullOf ..)]; simp

theorem st (h : Hdr) (m : MemMod) (d a : Reg) (off : BitVec 8) : Statement (.st h m d a off) := by
  refine of_shape (f := fullOf h 0x69 d a 0 off m.code) rfl (by simp) (fun hw => ?_) (fun _ => ?_)
  · rw [shape_0x69 rfl]
    simp_all [decSt, memModOf_fullOf, storeOk, polSt, encodable, stMod]
  · rw [scope_ok m.scope (scope_fullOf ..)]; simp

theorem lds (h : Hdr) (m : MemMod) (d a : Reg) (off : BitVec 8) : Statement (.lds h m d a off) := by
  refine of_shape (f := fullOf h 0x6A d a 0 off m.code) rfl (by simp) (fun hw => ?_) (fun _ => ?_)
  · rw [shape_0x6A rfl]
    simp_all [decLds, memModOf_fullOf, loadOk, polSpm, encodable, ldMod]
  · rw [scope_ok m.scope (scope_fullOf ..)]; simp

theorem sts (h : Hdr) (m : MemMod) (d a : Reg) (off : BitVec 8) : Statement (.sts h m d a off) := by
  refine of_shape (f := fullOf h 0x6B d a 0 off m.code) rfl (by simp) (fun hw => ?_) (fun _ => ?_)
  · rw [shape_0x6B rfl]
    simp_all [decSts, memModOf_fullOf, storeOk, polSpm, encodable, stMod]
  · rw [scope_ok m.scope (scope_fullOf ..)]; simp

theorem pref (h : Hdr) (pol : BitVec 3) (l2 : Bool) (a : Reg) (off : BitVec 8) : Statement (.pref h pol l2 a off) := by
  refine of_shape (f := fullOf h 0x6C 0 a 0 off (bit l2 0 + pol.toNat * 16)) rfl (by simp) (fun hw => ?_) (fun _ => rfl)
  rw [shape_0x6C rfl]
  have := pol.isLt
  have e1 : fld (fullOf h 0x6C 0 a 0 off (bit l2 0 + pol.toNat * 16)) 4 3 = pol.toNat := by rw [fld_fullOf]; cases l2 <;> simp <;> omega
  have e2 : fld (fullOf h 0x6C 0 a 0 off (bit l2 0 + pol.toNat * 16)) 1 3 = 0 := by rw [fld_fullOf]; cases l2 <;> simp <;> omega
  have e3 : fld (fullOf h 0x6C 0 a 0 off (bit l2 0 + pol.toNat * 16)) 7 5 = 0 := by rw [fld_fullOf]; cases l2 <;> simp <;> omega
  have e4 : flg (fullOf h 0x6C 0 a 0 off (bit l2 0 + pol.toNat * 16)) 0 = l2 := by rw [flg_fullOf]; cases l2 <;> simp <;> omega
  simp_all [decPref, polPref, encodable]

theorem zfill (h : Hdr) (rel : Bool) (scope : Scope) (a : Reg) (off : BitVec 8) : Statement (.zfill h rel scope a off) := by
  refine of_shape (f := fullOf h 0x6D 0 a 0 off (scope.code * 128 + relCode rel)) rfl (by simp) (fun hw => ?_) (fun _ => ?_)
  · rw [shape_0x6D rfl]
    cases rel <;> cases scope <;> simp [decZfill, relOrd, relCode, Scope.code, scopeOf]
  · cases rel <;> cases scope <;> simp [relCode, Scope.code]

theorem cflush (h : Hdr) (op : FlushOp) (mem : Bool) (a : Reg) (off : BitVec 8) : Statement (.cflush h op mem a off) := by
  refine of_shape (f := encodeFull (.cflush h op mem a off)) rfl (by simp [encodeFull]) (fun hw => ?_) (fun _ => rfl)
  rw [encodeFull, shape_0x6E rfl]
  cases op <;> cases mem <;> simp [decCflush, FlushOp.code, flushOf]

theorem taddr (h : Hdr) (chk : Bool) (d : Reg) (a : Reg) (b : Reg) : Statement (.taddr h chk d a b) := by
  refine of_shape (f := encodeFull (.taddr h chk d a b)) rfl (by simp [encodeFull]) (fun hw => ?_) (fun _ => rfl)
  rw [encodeFull, shape_0x6F rfl]
  cases chk <;> simp [decTaddr]

theorem mapq (h : Hdr) (fill : Bool) (d : Reg) (a : Reg) : Statement (.mapq h fill d a) := by
  refine of_shape (f := encodeFull (.mapq h fill d a)) rfl (by simp [encodeFull]) (fun hw => ?_) (fun _ => rfl)
  rw [encodeFull, shape_0x70 rfl]
  cases fill <;> simp [decMapq]

theorem aadd (h : Hdr) (m : AtMod) (op : AaddOp) (p : Place) (off : BitVec 8) (b : Reg) (d : Option Reg) : Statement (.aadd h m op p off b d) := by
  obtain ⟨e1, e2, e3, e4, e5⟩ := atomic_reads h 0x78 m op.code p off b d (by cases op <;> decide)
  refine of_shape (f := atomicOf h 0x78 m op.code p off b d) rfl (by simp [atomicOf_eq]) (fun hw => ?_) (fun _ => ?_)
  · rw [shape_0x78 rfl]
    have ho : aaddOf op.code = some op := by cases op <;> rfl
    simp only [decAadd, hdrOf_atomicOf, e1, e2, e3, e4, ho]
    simp_all [encodable, atomicOf_eq]
  · rw [scope_ok m.scope e5]; simp

theorem amnx (h : Hdr) (m : AtMod) (op : MnxOp) (p : Place) (off : BitVec 8) (b : Reg) (d : Option Reg) : Statement (.amnx h m op p off b d) := by
  obtain ⟨e1, e2, e3, e4, e5⟩ := atomic_reads h 0x79 m op.code p off b d (by cases op <;> decide)
  refine of_shape (f := atomicOf h 0x79 m op.code p off b d) rfl (by simp [atomicOf_eq]) (fun hw => ?_) (fun _ => ?_)
  · rw [shape_0x79 rfl]
    have ho : mnxOpOf op.code = some op := by cases op <;> rfl
    simp only [decAmnx, hdrOf_atomicOf, e1, e2, e3, e4, ho]
    rfl
  · rw [scope_ok m.scope e5]; simp

theorem alog (h : Hdr) (m : AtMod) (op : LogOp) (p : Place) (off : BitVec 8) (b : Reg) (d : Option Reg) : Statement (.alog h m op p off b d) := by
  obtain ⟨e1, e2, e3, e4, e5⟩ := atomic_reads h 0x7A m op.code p off b d (by cases op <;> decide)
  refine of_shape (f := atomicOf h 0x7A m op.code p off b d) rfl (by simp [atomicOf_eq]) (fun hw => ?_) (fun _ => ?_)
  · rw [shape_0x7A rfl]
    have ho : logOf op.code = some op := by cases op <;> rfl
    simp only [decAlog, hdrOf_atomicOf, e1, e2, e3, e4, ho]
    rfl
  · rw [scope_ok m.scope e5]; simp

theorem axch (h : Hdr) (m : AtMod) (p : Place) (off : BitVec 8) (b : Reg) (d : Option Reg) : Statement (.axch h m p off b d) := by
  obtain ⟨e1, e2, e3, e4, e5⟩ := atomic_reads h 0x7B m 0 p off b d (by decide)
  refine of_shape (f := atomicOf h 0x7B m 0 p off b d) rfl (by simp [atomicOf_eq]) (fun hw => ?_) (fun _ => ?_)
  · rw [shape_0x7B rfl]
    simp only [decAxch, hdrOf_atomicOf, e1, e2, e3, e4]
    rfl
  · rw [scope_ok m.scope e5]; simp

theorem acas (h : Hdr) (m : AtMod) (p : Place) (off : BitVec 8) (b : Reg) (d : Option Reg) : Statement (.acas h m p off b d) := by
  obtain ⟨e1, e2, e3, e4, e5⟩ := atomic_reads h 0x7C m 0 p off b d (by decide)
  refine of_shape (f := atomicOf h 0x7C m 0 p off b d) rfl (by simp [atomicOf_eq]) (fun hw => ?_) (fun _ => ?_)
  · rw [shape_0x7C rfl]
    simp only [decAcas, hdrOf_atomicOf, e1, e2, e3, e4]
    rfl
  · rw [scope_ok m.scope e5]; simp

theorem ainc (h : Hdr) (m : AtMod) (dec : Bool) (p : Place) (off : BitVec 8) (b : Reg) (d : Option Reg) : Statement (.ainc h m dec p off b d) := by
  obtain ⟨e1, e2, e3, e4, e5⟩ := atomic_reads h 0x7D m (bit dec 0) p off b d (by cases dec <;> decide)
  refine of_shape (f := atomicOf h 0x7D m (bit dec 0) p off b d) rfl (by simp [atomicOf_eq]) (fun hw => ?_) (fun _ => ?_)
  · rw [shape_0x7D rfl]
    have ha : flg (atomicOf h 0x7D m (bit dec 0) p off b d) 4 = dec ∧ fld (atomicOf h 0x7D m (bit dec 0) p off b d) 5 1 = 0 := by
      rw [atomicOf_eq, fld_fullOf] at e2
      rw [atomicOf_eq, flg_fullOf, fld_fullOf]
      cases dec <;> simp at e2 ⊢ <;> omega
    simp only [decAinc, hdrOf_atomicOf, e1, e3, e4, ha.1, ha.2]
    rfl
  · rw [scope_ok m.scope e5]; simp

theorem fence (h : Hdr) (ord : FenceOrd) (scope : Scope) : Statement (.fence h ord scope) := by
  refine of_shape (f := fullOf h 0x7E 0 0 0 0 (scope.code * 128 + ord.code * 1024)) rfl (by simp) (fun hw => ?_) (fun _ => ?_)
  · rw [shape_0x7E rfl]
    cases ord <;> cases scope <;> simp [decFence, fenceOf, FenceOrd.code, Scope.code, scopeOf]
  · cases ord <;> cases scope <;> simp [FenceOrd.code, Scope.code]

theorem waita (h : Hdr) (acq : Bool) (scope : Scope) (cond : WaitCond) (wide : Bool) (p : Place) (d b : Reg) (tmo : Option Reg) :
    Statement (.waita h acq scope cond wide p d b tmo) := by
  have h2 := scope.code_lt
  have h4 := optBit_lt tmo
  have h6 : cond.code < 4 := by cases cond <;> decide
  obtain ⟨q, hq, hq2⟩ : ∃ q, acqCode acq = q * 1024 ∧ q < 2 := by cases acq; exacts [⟨0, rfl, by decide⟩, ⟨1, rfl, by decide⟩]
  have hqa : acqOrd q = some acq := by cases acq <;> simp [acqCode] at hq <;> subst hq <;> rfl
  set m := optBit tmo + wideCode wide * 2 + cond.code * 16 + p.bit + scope.code * 128 + acqCode acq with hm
  have parts : m % 4096 / 2 ^ 10 % 2 ^ 2 = q ∧ m % 4096 / 2 ^ 7 % 2 ^ 3 = scope.code ∧ m % 4096 / 2 ^ 1 % 2 ^ 3 = wideCode wide ∧
      m % 4096 / 2 ^ 4 % 2 ^ 2 = cond.code ∧ m % 4096 / 2 ^ 6 % 2 ^ 1 = p.bit / 64 ∧ m % 4096 / 2 ^ 0 % 2 ^ 1 = optBit tmo := by
    rw [hm, hq]
    rcases wideCode_eq wide with h3 | h3 <;> rcases p.bit_eq with h5 | h5 <;> rw [h3, h5] <;> omega
  obtain ⟨e1, e2, e3, e4, e5, e6⟩ := parts
  refine of_shape (f := fullOf h 0x7F d p.field b (optField tmo) m) rfl (by simp) (fun hw => ?_) (fun _ => ?_)
  · rw [shape_0x7F rfl]
    have ht : tmoOf (fullOf h 0x7F d p.field b (optField tmo) m) = some tmo := by
      cases tmo <;> simp only [tmoOf, flg_fullOf, e6] <;> rfl
    have hc : condOf cond.code = some cond := by cases cond <;> rfl
    simp only [decWaita, hdrOf_fullOf, fld_fullOf, e1, e2, e3, e4, hqa, scopeOf_code, wideOf_code, hc, ht, placeOf_fullOf _ _ _ _ _ _ _ e5]
    rfl
  · rw [fld_fullOf, scope_ok scope e2]; simp

theorem wakea (h : Hdr) (rel : Bool) (scope : Scope) (wide : Bool) (p : Place) (b : Reg) : Statement (.wakea h rel scope wide p b) := by
  refine of_shape (f := fullOf h 0x80 0 p.field b 0 (wideCode wide * 2 + p.bit + scope.code * 128 + relCode rel)) rfl (by simp)
    (fun hw => ?_) (fun _ => ?_)
  · rw [shape_0x80 rfl]
    cases rel <;> cases scope <;> cases wide <;> cases p <;>
      simp [decWakea, relOrd, relCode, Scope.code, scopeOf, wideCode, wideOf, Place.field, Place.bit, placeOf]
  · cases rel <;> cases scope <;> cases wide <;> cases p <;> simp [relCode, Scope.code, wideCode, Place.bit]

theorem bcinit (h : Hdr) (rel : Bool) (scope : Scope) (wide : Bool) (a b : Reg) (off : BitVec 8) : Statement (.bcinit h rel scope wide a b off) := by
  refine of_shape (f := fullOf h 0x81 0 a b off (wideCode wide * 2 + scope.code * 128 + relCode rel)) rfl (by simp) (fun hw => ?_) (fun _ => ?_)
  · rw [shape_0x81 rfl]
    cases rel <;> cases scope <;> cases wide <;> simp [decBcinit, relOrd, relCode, Scope.code, scopeOf, wideCode, wideOf]
  · cases rel <;> cases scope <;> cases wide <;> simp [relCode, Scope.code, wideCode]

theorem bcadd (h : Hdr) (rel : Bool) (scope : Scope) (wide : Bool) (a b : Reg) (off : BitVec 8) : Statement (.bcadd h rel scope wide a b off) := by
  refine of_shape (f := fullOf h 0x82 0 a b off (wideCode wide * 2 + scope.code * 128 + relCode rel)) rfl (by simp) (fun hw => ?_) (fun _ => ?_)
  · rw [shape_0x82 rfl]
    cases rel <;> cases scope <;> cases wide <;> simp [decBcadd, relOrd, relCode, Scope.code, scopeOf, wideCode, wideOf]
  · cases rel <;> cases scope <;> cases wide <;> simp [relCode, Scope.code, wideCode]

theorem ordecl (h : Hdr) (a : Reg) : Statement (.ordecl h a) := by
  refine of_shape (f := encodeFull (.ordecl h a)) rfl (by simp [encodeFull]) (fun hw => ?_) (fun _ => rfl)
  rw [encodeFull, shape_0x88 rfl]
  simp [decOrdecl]

theorem ordrop (h : Hdr) (a : Reg) : Statement (.ordrop h a) := by
  refine of_shape (f := encodeFull (.ordrop h a)) rfl (by simp [encodeFull]) (fun hw => ?_) (fun _ => rfl)
  rw [encodeFull, shape_0x89 rfl]
  simp [decOrdrop]

theorem ldrs (h : Hdr) (ty : OrTy) (d : Reg) (a : Reg) (b : Reg) : Statement (.ldrs h ty d a b) := by
  refine of_shape (f := encodeFull (.ldrs h ty d a b)) rfl (by simp [encodeFull]) (fun hw => ?_) (fun _ => rfl)
  rw [encodeFull, shape_0x8A rfl]
  cases ty <;> simp [decLdrs, OrTy.code, orTyOf]

theorem ldrm (h : Hdr) (ty : OrTy) (idx : Bool) (d : Reg) (a : Reg) (b : Reg) : Statement (.ldrm h ty idx d a b) := by
  refine of_shape (f := encodeFull (.ldrm h ty idx d a b)) rfl (by simp [encodeFull]) (fun hw => ?_) (fun _ => rfl)
  rw [encodeFull, shape_0x8B rfl]
  cases ty <;> cases idx <;> simp [decLdrm, OrTy.code, orTyOf]

theorem ldpfx (h : Hdr) (ty : OrTy) (d : Reg) (a : Reg) (b : Reg) (c : Reg) : Statement (.ldpfx h ty d a b c) := by
  refine of_shape (f := encodeFull (.ldpfx h ty d a b c)) rfl (by simp [encodeFull]) (fun hw => ?_) (fun _ => rfl)
  rw [encodeFull, shape_0x8C rfl]
  cases ty <;> simp [decLdpfx, OrTy.code, orTyOf]

theorem ldpick (h : Hdr) (ty : OrTy) (d : Reg) (a : Reg) (b : Reg) (c : Reg) : Statement (.ldpick h ty d a b c) := by
  refine of_shape (f := encodeFull (.ldpick h ty d a b c)) rfl (by simp [encodeFull]) (fun hw => ?_) (fun _ => rfl)
  rw [encodeFull, shape_0x8D rfl]
  cases ty <;> simp [decLdpick, OrTy.code, orTyOf]

theorem tfence (h : Hdr) (a : Option Reg) : Statement (.tfence h a) := by
  refine of_shape (f := encodeFull (.tfence h a)) rfl (by simp [encodeFull]) (fun hw => ?_) (fun _ => rfl)
  rw [encodeFull, shape_0x8E rfl]
  cases a <;> simp [decTfence, optField, optBit]

theorem orbuild (h : Hdr) (a : Reg) : Statement (.orbuild h a) := by
  refine of_shape (f := encodeFull (.orbuild h a)) rfl (by simp [encodeFull]) (fun hw => ?_) (fun _ => rfl)
  rw [encodeFull, shape_0x8F rfl]
  simp [decOrbuild]

theorem tidset (h : Hdr) (p : Place) (b : Reg) : Statement (.tidset h p b) := by
  refine of_shape (f := encodeFull (.tidset h p b)) rfl (by simp [encodeFull]) (fun hw => ?_) (fun _ => rfl)
  rw [encodeFull, shape_0x90 rfl]
  cases p <;> simp [decTidset, Place.field, Place.bit, placeOf, spmOnly]

theorem tidinv (h : Hdr) (b : Option Reg) : Statement (.tidinv h b) := by
  refine of_shape (f := encodeFull (.tidinv h b)) rfl (by simp [encodeFull]) (fun hw => ?_) (fun _ => rfl)
  rw [encodeFull, shape_0x91 rfl]
  cases b <;> simp [decTidinv, optField, optBit]

theorem mbload (h : Hdr) (p : Place) : Statement (.mbload h p) := by
  refine of_shape (f := encodeFull (.mbload h p)) rfl (by simp [encodeFull]) (fun hw => ?_) (fun _ => rfl)
  rw [encodeFull, shape_0x92 rfl]
  cases p <;> simp [decBlock, Place.field, Place.bit, placeOf, spmOnly]

theorem mmul (h : Hdr) (d : Reg) (p : Place) : Statement (.mmul h d p) := by
  refine of_shape (f := encodeFull (.mmul h d p)) rfl (by simp [encodeFull]) (fun hw => ?_) (fun _ => rfl)
  rw [encodeFull, shape_0x93 rfl]
  cases p <;> simp [decFuture, Place.field, Place.bit, placeOf, spmOnly]

theorem maccrd (h : Hdr) (w8 pair : Bool) (d : Reg) (slot : BitVec 3) (col : BitVec 6) : Statement (.maccrd h w8 pair d slot col) := by
  refine of_shape (f := fullOf h 0x94 d 0 (fieldNat slot.toNat) (fieldNat col.toNat) (bit w8 0 + bit pair 1)) rfl (by simp)
    (fun hw => ?_) (fun _ => rfl)
  rw [shape_0x94 rfl]
  have h1 : slot.toNat < 8 := slot.isLt
  have h2 : col.toNat < 64 := col.isLt
  cases w8 <;> cases pair <;> simp_all [decMaccrd, fragOk, encodable]

theorem maccwr (h : Hdr) (w8 pair : Bool) (a : Reg) (slot : BitVec 3) (col : BitVec 6) : Statement (.maccwr h w8 pair a slot col) := by
  refine of_shape (f := fullOf h 0x95 0 a (fieldNat slot.toNat) (fieldNat col.toNat) (bit w8 0 + bit pair 1)) rfl (by simp)
    (fun hw => ?_) (fun _ => rfl)
  rw [shape_0x95 rfl]
  have h1 : slot.toNat < 8 := slot.isLt
  have h2 : col.toNat < 64 := col.isLt
  cases w8 <;> cases pair <;> simp_all [decMaccwr, fragOk, encodable]

theorem maccz (h : Hdr) (free : Bool) (slots : BitVec 8) : Statement (.maccz h free slots) := by
  refine of_shape (f := encodeFull (.maccz h free slots)) rfl (by simp [encodeFull]) (fun hw => ?_) (fun _ => rfl)
  rw [encodeFull, shape_0x96 rfl]
  cases free <;> simp [decMaccz]

theorem mtrans (h : Hdr) (p : Place) : Statement (.mtrans h p) := by
  refine of_shape (f := encodeFull (.mtrans h p)) rfl (by simp [encodeFull]) (fun hw => ?_) (fun _ => rfl)
  rw [encodeFull, shape_0x97 rfl]
  cases p <;> simp [decBlock, Place.field, Place.bit, placeOf, spmOnly]

theorem mperm (h : Hdr) (p : Place) : Statement (.mperm h p) := by
  refine of_shape (f := encodeFull (.mperm h p)) rfl (by simp [encodeFull]) (fun hw => ?_) (fun _ => rfl)
  rw [encodeFull, shape_0x98 rfl]
  cases p <;> simp [decBlock, Place.field, Place.bit, placeOf, spmOnly]

theorem mrsum (h : Hdr) (p : Place) : Statement (.mrsum h p) := by
  refine of_shape (f := encodeFull (.mrsum h p)) rfl (by simp [encodeFull]) (fun hw => ?_) (fun _ => rfl)
  rw [encodeFull, shape_0x99 rfl]
  cases p <;> simp [decBlock, Place.field, Place.bit, placeOf, spmOnly]

theorem mepi (h : Hdr) (p : Place) : Statement (.mepi h p) := by
  refine of_shape (f := encodeFull (.mepi h p)) rfl (by simp [encodeFull]) (fun hw => ?_) (fun _ => rfl)
  rw [encodeFull, shape_0x9A rfl]
  cases p <;> simp [decBlock, Place.field, Place.bit, placeOf, spmOnly]

theorem bcopy (h : Hdr) (d : Reg) (p : Place) : Statement (.bcopy h d p) := by
  refine of_shape (f := encodeFull (.bcopy h d p)) rfl (by simp [encodeFull]) (fun hw => ?_) (fun _ => rfl)
  rw [encodeFull, shape_0xA0 rfl]
  cases p <;> simp [decFuture, Place.field, Place.bit, placeOf, spmOnly]

theorem gather (h : Hdr) (d : Reg) (p : Place) : Statement (.gather h d p) := by
  refine of_shape (f := encodeFull (.gather h d p)) rfl (by simp [encodeFull]) (fun hw => ?_) (fun _ => rfl)
  rw [encodeFull, shape_0xA1 rfl]
  cases p <;> simp [decFuture, Place.field, Place.bit, placeOf, spmOnly]

theorem scatter (h : Hdr) (d : Reg) (p : Place) : Statement (.scatter h d p) := by
  refine of_shape (f := encodeFull (.scatter h d p)) rfl (by simp [encodeFull]) (fun hw => ?_) (fun _ => rfl)
  rw [encodeFull, shape_0xA2 rfl]
  cases p <;> simp [decFuture, Place.field, Place.bit, placeOf, spmOnly]

theorem xcopy (h : Hdr) (d : Reg) (p : Place) : Statement (.xcopy h d p) := by
  refine of_shape (f := encodeFull (.xcopy h d p)) rfl (by simp [encodeFull]) (fun hw => ?_) (fun _ => rfl)
  rw [encodeFull, shape_0xA3 rfl]
  cases p <;> simp [decFuture, Place.field, Place.bit, placeOf, spmOnly]

theorem htest (h : Hdr) (d : Reg) (a : Reg) : Statement (.htest h d a) := by
  refine of_shape (f := encodeFull (.htest h d a)) rfl (by simp [encodeFull]) (fun hw => ?_) (fun _ => rfl)
  rw [encodeFull, shape_0xA4 rfl]
  simp [decHtest]

theorem hwait (h : Hdr) (d : Reg) (a : Reg) : Statement (.hwait h d a) := by
  refine of_shape (f := encodeFull (.hwait h d a)) rfl (by simp [encodeFull]) (fun hw => ?_) (fun _ => rfl)
  rw [encodeFull, shape_0xA5 rfl]
  simp [decHwait]

theorem hcancel (h : Hdr) (a : Reg) : Statement (.hcancel h a) := by
  refine of_shape (f := encodeFull (.hcancel h a)) rfl (by simp [encodeFull]) (fun hw => ?_) (fun _ => rfl)
  rw [encodeFull, shape_0xA6 rfl]
  simp [decHcancel]

theorem vpub (h : Hdr) (d : Reg) (a : Reg) : Statement (.vpub h d a) := by
  refine of_shape (f := encodeFull (.vpub h d a)) rfl (by simp [encodeFull]) (fun hw => ?_) (fun _ => rfl)
  rw [encodeFull, shape_0xA8 rfl]
  simp [decVpub]

theorem vpin (h : Hdr) (a : Reg) (b : Reg) : Statement (.vpin h a b) := by
  refine of_shape (f := encodeFull (.vpin h a b)) rfl (by simp [encodeFull]) (fun hw => ?_) (fun _ => rfl)
  rw [encodeFull, shape_0xA9 rfl]
  simp [decVpin]

theorem vret (h : Hdr) (a : Reg) : Statement (.vret h a) := by
  refine of_shape (f := encodeFull (.vret h a)) rfl (by simp [encodeFull]) (fun hw => ?_) (fun _ => rfl)
  rw [encodeFull, shape_0xAA rfl]
  simp [decVret]

theorem tokrec (h : Hdr) (a : Reg) (b : Reg) (c : Reg) : Statement (.tokrec h a b c) := by
  refine of_shape (f := encodeFull (.tokrec h a b c)) rfl (by simp [encodeFull]) (fun hw => ?_) (fun _ => rfl)
  rw [encodeFull, shape_0xAB rfl]
  simp [decTokrec]

theorem smask (h : Hdr) (d : Reg) (a : Reg) (b : Reg) (c : Reg) : Statement (.smask h d a b c) := by
  refine of_shape (f := encodeFull (.smask h d a b c)) rfl (by simp [encodeFull]) (fun hw => ?_) (fun _ => rfl)
  rw [encodeFull, shape_0xAC rfl]
  simp [decSmask]

theorem ulcall (h : Hdr) (d : Reg) (a : Reg) (b : Reg) : Statement (.ulcall h d a b) := by
  refine of_shape (f := encodeFull (.ulcall h d a b)) rfl (by simp [encodeFull]) (fun hw => ?_) (fun _ => rfl)
  rw [encodeFull, shape_0xAD rfl]
  simp [decUlcall]

theorem slotrd (h : Hdr) (act : Bool) (d a : Reg) (n : BitVec 3) : Statement (.slotrd h act d a n) := by
  refine of_shape (f := fullOf h 0xAE d a (fieldNat n.toNat) 0 (bit act 0)) rfl (by simp) (fun hw => ?_) (fun _ => rfl)
  rw [shape_0xAE rfl]
  cases act <;> simp_all [decSlotrd, encodable]

theorem slotset (h : Hdr) (a : Reg) (b : Reg) : Statement (.slotset h a b) := by
  refine of_shape (f := encodeFull (.slotset h a b)) rfl (by simp [encodeFull]) (fun hw => ?_) (fun _ => rfl)
  rw [encodeFull, shape_0xAF rfl]
  simp [decSlotset]

theorem trap (h : Hdr) (k : BitVec 8) : Statement (.trap h k) := by
  refine of_shape (f := fullOf h 0xB0 0 0 0 0 k.toNat) rfl (by simp) (fun hw => ?_) (fun _ => rfl)
  rw [shape_0xB0 rfl]
  have := k.isLt
  have e1 : fld (fullOf h 0xB0 0 0 0 0 k.toNat) 8 4 = 0 := by rw [fld_fullOf]; omega
  have e2 : fld (fullOf h 0xB0 0 0 0 0 k.toNat) 0 8 = k.toNat := by rw [fld_fullOf]; omega
  simp only [decTrap, e1, e2]
  simp

theorem tret (mark : Bool) (next : Bool) : Statement (.tret mark next) := by
  refine of_shape (f := encodeFull (.tret mark next)) rfl (by simp [encodeFull]) (fun hw => ?_) (fun _ => rfl)
  rw [encodeFull, shape_0xB1 rfl]
  cases next <;> simp [decTret]

theorem cread (h : Hdr) (d : Reg) (r : CtlReg) : Statement (.cread h d r) := by
  refine of_shape (f := fullOf h 0xB2 d 0 0 0 r.code) rfl (by simp) (fun hw => ?_) (fun _ => rfl)
  rw [shape_0xB2 rfl]
  obtain ⟨hlt, hof⟩ := ctlOf_code r
  have e1 : fld (fullOf h 0xB2 d 0 0 0 r.code) 0 5 = r.code := by rw [fld_fullOf]; omega
  have e2 : fld (fullOf h 0xB2 d 0 0 0 r.code) 5 7 = 0 := by rw [fld_fullOf]; omega
  simp only [decCread, hdrOf_fullOf, e1, e2, hof]
  rfl

theorem cwrite (h : Hdr) (a : Reg) (r : CtlReg) : Statement (.cwrite h a r) := by
  refine of_shape (f := fullOf h 0xB3 0 a 0 0 r.code) rfl (by simp) (fun hw => ?_) (fun _ => rfl)
  rw [shape_0xB3 rfl]
  obtain ⟨hlt, hof⟩ := ctlOf_code r
  have e1 : fld (fullOf h 0xB3 0 a 0 0 r.code) 0 5 = r.code := by rw [fld_fullOf]; omega
  have e2 : fld (fullOf h 0xB3 0 a 0 0 r.code) 5 7 = 0 := by rw [fld_fullOf]; omega
  simp only [decCwrite, hdrOf_fullOf, e1, e2, hof]
  rfl

theorem tsave (mark : Bool) (d : Reg) (a : Reg) : Statement (.tsave mark d a) := by
  refine of_shape (f := encodeFull (.tsave mark d a)) rfl (by simp [encodeFull]) (fun hw => ?_) (fun _ => rfl)
  rw [encodeFull, shape_0xB4 rfl]
  simp [decTsave]

theorem tload (mark : Bool) (a : Reg) : Statement (.tload mark a) := by
  refine of_shape (f := encodeFull (.tload mark a)) rfl (by simp [encodeFull]) (fun hw => ?_) (fun _ => rfl)
  rw [encodeFull, shape_0xB5 rfl]
  simp [decTload]

theorem tlbinv (h : Hdr) (a : Option Reg) : Statement (.tlbinv h a) := by
  refine of_shape (f := encodeFull (.tlbinv h a)) rfl (by simp [encodeFull]) (fun hw => ?_) (fun _ => rfl)
  rw [encodeFull, shape_0xB6 rfl]
  cases a <;> simp [decTlbinv, optField, optBit]

theorem idle (mark : Bool) : Statement (.idle mark) := by
  refine of_shape (f := encodeFull (.idle mark)) rfl (by simp [encodeFull]) (fun hw => ?_) (fun _ => rfl)
  rw [encodeFull, shape_0xB7 rfl]
  simp [decPlain]

theorem warpIssueChoice (core : Nat) : Statement (.warpIssueChoice core) := by intro h; cases h
theorem longLatencyReturn (group : Nat) (warp : Nat) (idx : Nat) : Statement (.longLatencyReturn group warp idx) := by intro h; cases h
theorem trapEntry (group : Nat) (warp : Nat) : Statement (.trapEntry group warp) := by intro h; cases h
theorem barrierPhaseComplete (group : Nat) (bar : Nat) : Statement (.barrierPhaseComplete group bar) := by intro h; cases h
theorem gangBarrierComplete (gang : Nat) : Statement (.gangBarrierComplete gang) := by intro h; cases h
theorem templateCapture (group : Nat) : Statement (.templateCapture group) := by intro h; cases h
theorem registerPoolGrant (core : Nat) : Statement (.registerPoolGrant core) := by intro h; cases h
theorem registerDeadlockSave (core : Nat) : Statement (.registerDeadlockSave core) := by intro h; cases h
theorem warpEnd (group : Nat) (warp : Nat) : Statement (.warpEnd group warp) := by intro h; cases h
theorem groupEnd (group : Nat) : Statement (.groupEnd group) := by intro h; cases h
theorem launchBlockRead (core : Nat) : Statement (.launchBlockRead core) := by intro h; cases h
theorem nodeStart : Statement (.nodeStart) := by intro h; cases h
theorem nodeCompletion (graph : Nat) (node : Nat) : Statement (.nodeCompletion graph node) := by intro h; cases h
theorem hostWaitWatch (graph : Nat) (node : Nat) : Statement (.hostWaitWatch graph node) := by intro h; cases h
theorem priorityAgeing (grid : Nat) : Statement (.priorityAgeing grid) := by intro h; cases h
theorem freeCountReport (die : Nat) : Statement (.freeCountReport die) := by intro h; cases h
theorem lodestarBatch : Statement (.lodestarBatch) := by intro h; cases h
theorem groupPlacement (die : Nat) : Statement (.groupPlacement die) := by intro h; cases h
theorem gangReservation (die : Nat) : Statement (.gangReservation die) := by intro h; cases h
theorem splitConversion (die : Nat) : Statement (.splitConversion die) := by intro h; cases h
theorem splitForce (core : Nat) : Statement (.splitForce core) := by intro h; cases h
theorem splitReassign (core : Nat) : Statement (.splitReassign core) := by intro h; cases h
theorem stageReevaluation (graph : Nat) (node : Nat) : Statement (.stageReevaluation graph node) := by intro h; cases h
theorem queuePushReserve (group : Nat) (warp : Nat) (hold : Nat) : Statement (.queuePushReserve group warp hold) := by intro h; cases h
theorem queuePopReserve (group : Nat) (warp : Nat) (hold : Nat) : Statement (.queuePopReserve group warp hold) := by intro h; cases h
theorem stageCompletion (graph : Nat) (node : Nat) (stage : Nat) : Statement (.stageCompletion graph node stage) := by intro h; cases h
theorem loopBoundary (graph : Nat) (node : Nat) : Statement (.loopBoundary graph node) := by intro h; cases h
theorem preemptionRequest (partition : Nat) : Statement (.preemptionRequest partition) := by intro h; cases h
theorem framePoolSave (group : Nat) : Statement (.framePoolSave group) := by intro h; cases h
theorem groupRestore (group : Nat) (core : Nat) : Statement (.groupRestore group core) := by intro h; cases h
theorem quantumSliceEnd (partition : Nat) : Statement (.quantumSliceEnd partition) := by intro h; cases h
theorem hostWrite (addr : Nat) (data : List Byte) : Statement (.hostWrite addr data) := by intro h; cases h
theorem peerWrite (port : Nat) (ctx : Nat) (va : DWord) (data : List Byte) : Statement (.peerWrite port ctx va data) := by intro h; cases h
theorem updateRecordApply (region : Nat) : Statement (.updateRecordApply region) := by intro h; cases h
theorem rangeLoadAnswer (group : Nat) (warp : Nat) (idx : Nat) : Statement (.rangeLoadAnswer group warp idx) := by intro h; cases h
theorem regionBuildComplete (group : Nat) (warp : Nat) (hold : Nat) : Statement (.regionBuildComplete group warp hold) := by intro h; cases h
theorem tfenceRelease (group : Nat) (warp : Nat) (hold : Nat) : Statement (.tfenceRelease group warp hold) := by intro h; cases h
theorem fenceRelease (group : Nat) (warp : Nat) (hold : Nat) : Statement (.fenceRelease group warp hold) := by intro h; cases h
theorem chunkIssue (op : Nat) : Statement (.chunkIssue op) := by intro h; cases h
theorem chunkLanding (op : Nat) (chunk : Nat) : Statement (.chunkLanding op chunk) := by intro h; cases h
theorem chunkCredit (op : Nat) (chunk : Nat) : Statement (.chunkCredit op chunk) := by intro h; cases h
theorem cancelArrival (op : Nat) : Statement (.cancelArrival op) := by intro h; cases h
theorem matrixOpTurn (op : Nat) : Statement (.matrixOpTurn op) := by intro h; cases h
theorem matrixOpComplete (op : Nat) : Statement (.matrixOpComplete op) := by intro h; cases h
theorem macroSelfCheck (core : Nat) (unit : Nat) : Statement (.macroSelfCheck core unit) := by intro h; cases h
theorem waitaReread (group : Nat) (warp : Nat) (hold : Nat) : Statement (.waitaReread group warp hold) := by intro h; cases h
theorem waitaPoll (group : Nat) (warp : Nat) (hold : Nat) : Statement (.waitaPoll group warp hold) := by intro h; cases h
theorem waitaTimeout (group : Nat) (warp : Nat) (hold : Nat) : Statement (.waitaTimeout group warp hold) := by intro h; cases h
theorem sleepExpiry (group : Nat) (warp : Nat) (hold : Nat) : Statement (.sleepExpiry group warp hold) := by intro h; cases h
theorem yieldReturn (group : Nat) (warp : Nat) : Statement (.yieldReturn group warp) := by intro h; cases h
theorem ulcallBudgetExpiry (group : Nat) : Statement (.ulcallBudgetExpiry group) := by intro h; cases h
theorem tailReread (fn : Nat) (queue : Nat) : Statement (.tailReread fn queue) := by intro h; cases h
theorem tailPoll (fn : Nat) (queue : Nat) : Statement (.tailPoll fn queue) := by intro h; cases h
theorem completionPost (fn : Nat) (queue : Nat) : Statement (.completionPost fn queue) := by intro h; cases h
theorem createContext (c : Cmd) : Statement (.createContext c) := by intro h; cases h
theorem destroyContext (c : Cmd) : Statement (.destroyContext c) := by intro h; cases h
theorem createQueue (c : Cmd) : Statement (.createQueue c) := by intro h; cases h
theorem submitGraph (c : Cmd) : Statement (.submitGraph c) := by intro h; cases h
theorem cancelGraph (c : Cmd) : Statement (.cancelGraph c) := by intro h; cases h
theorem addSlot (c : Cmd) : Statement (.addSlot c) := by intro h; cases h
theorem removeSlot (c : Cmd) : Statement (.removeSlot c) := by intro h; cases h
theorem createRange (c : Cmd) : Statement (.createRange c) := by intro h; cases h
theorem mapRange (c : Cmd) : Statement (.mapRange c) := by intro h; cases h
theorem bindPeer (c : Cmd) : Statement (.bindPeer c) := by intro h; cases h
theorem peerBindingMatch (port : Nat) (ctx : Nat) : Statement (.peerBindingMatch port ctx) := by intro h; cases h
theorem setQuantum (c : Cmd) : Statement (.setQuantum c) := by intro h; cases h
theorem repartition (c : Cmd) : Statement (.repartition c) := by intro h; cases h
theorem assignFunction (c : Cmd) : Statement (.assignFunction c) := by intro h; cases h
theorem resume (c : Cmd) : Statement (.resume c) := by intro h; cases h
theorem pageReady (c : Cmd) : Statement (.pageReady c) := by intro h; cases h
theorem functionEnable (fn : Nat) : Statement (.functionEnable fn) := by intro h; cases h
theorem functionDisable (fn : Nat) : Statement (.functionDisable fn) := by intro h; cases h
theorem functionRegisterWrite (fn : Nat) (off : Nat) (data : List Byte) : Statement (.functionRegisterWrite fn off data) := by intro h; cases h
theorem functionLevelReset (fn : Nat) : Statement (.functionLevelReset fn) := by intro h; cases h
theorem hotReset : Statement (.hotReset) := by intro h; cases h
theorem hostLinkLoss : Statement (.hostLinkLoss) := by intro h; cases h
theorem hostLinkReturn (mode : Nat) : Statement (.hostLinkReturn mode) := by intro h; cases h
theorem peerPortDown (port : Nat) : Statement (.peerPortDown port) := by intro h; cases h
theorem peerPortTraining (port : Nat) (version : Nat) : Statement (.peerPortTraining port version) := by intro h; cases h
theorem dieLinkDown (a : Nat) (b : Nat) : Statement (.dieLinkDown a b) := by intro h; cases h
theorem pldmMonitoring : Statement (.pldmMonitoring) := by intro h; cases h
theorem powerLimitSet (watts : Nat) : Statement (.powerLimitSet watts) := by intro h; cases h
theorem reducedPrecisionSet (fn : Nat) (on : Bool) : Statement (.reducedPrecisionSet fn on) := by intro h; cases h
theorem firmwareUpdate (image : List Byte) (valid : Bool) : Statement (.firmwareUpdate image valid) := by intro h; cases h
theorem spdmAttestation : Statement (.spdmAttestation) := by intro h; cases h
theorem freezeRequest (wrote : Bool) : Statement (.freezeRequest wrote) := by intro h; cases h
theorem freezeRelease : Statement (.freezeRelease) := by intro h; cases h
theorem coreHalt (core : Nat) : Statement (.coreHalt core) := by intro h; cases h
theorem coreResume (core : Nat) : Statement (.coreResume core) := by intro h; cases h
theorem powerCapStep (watts : Nat) : Statement (.powerCapStep watts) := by intro h; cases h
theorem thermalCap (die : Nat) : Statement (.thermalCap die) := by intro h; cases h
theorem criticalTemperature (die : Nat) : Statement (.criticalTemperature die) := by intro h; cases h
theorem writePerformed (idx : Nat) : Statement (.writePerformed idx) := by intro h; cases h
theorem heldEventPost (fn : Nat) : Statement (.heldEventPost fn) := by intro h; cases h
theorem powerUp : Statement (.powerUp) := by intro h; cases h
end Sys2Proof.Laws.RoundTrip
end

