-- ==== Sys2Proof/Laws/Rounding.lean ====
section
/-! SUPPORT. Rounding: the one rounding of exact fractions that every floating-point operation uses is the rounding of
R71 to R73, and decoding gives the value of R71. -/

namespace Sys2Proof.Machine

theorem qmin_eq (f : Fmt) : Fmt.qmin f = 1 - (Fmt.bias f : ℤ) - Fmt.frac f := rfl

/-- Number k in terms of a quantum: j units of 2^q. -/
theorem magValue_at (f : Fmt) (q : ℤ) (j : ℕ) (hq : Fmt.qmin f ≤ q) (hj : j ≤ 2 ^ (Fmt.frac f + 1))
    (hn : Fmt.qmin f < q → 2 ^ Fmt.frac f ≤ j) :
    magValue f ((q - Fmt.qmin f).toNat * 2 ^ Fmt.frac f + j) = j * 2 ^ q := by
  obtain ⟨t, rfl⟩ : ∃ t : ℕ, q = Fmt.qmin f + t := ⟨(q - Fmt.qmin f).toNat, by omega⟩
  have ht : (Fmt.qmin f + (t : ℤ) - Fmt.qmin f).toNat = t := by omega
  rw [ht]
  set P := 2 ^ Fmt.frac f with hP
  have hPpos : 0 < P := by positivity
  have hj2 : j ≤ 2 * P := by rw [hP, ← pow_succ']; exact hj
  unfold magValue
  rw [← qmin_eq]
  by_cases h : t * P + j < P
  · have ht0 : t = 0 := by
      by_contra h0
      have : P ≤ t * P := Nat.le_mul_of_pos_left _ (Nat.pos_of_ne_zero h0)
      omega
    subst ht0
    rw [if_pos h]; simp
  · rw [if_neg h]
    have e1 : ((((t * P + j) / P : ℕ) : ℤ)) - (Fmt.bias f : ℤ) - Fmt.frac f = Fmt.qmin f + (((t * P + j) / P : ℕ) : ℤ) - 1 := by
      rw [qmin_eq]; ring
    rw [e1]
    have hdiv : (t * P + j) / P = t + j / P := by rw [Nat.add_comm, Nat.add_mul_div_right _ _ hPpos, Nat.add_comm]
    have hmod : (t * P + j) % P = j % P := by rw [Nat.add_comm, Nat.add_mul_mod_self_right]
    rw [hdiv, hmod]
    by_cases hjP : j < P
    · have ht0 : t = 0 := by
        by_contra h0
        have := hn (by omega)
        omega
      subst ht0; omega
    · by_cases hj3 : j < 2 * P
      · have hd1 : j / P = 1 := Nat.div_eq_of_lt_le (by omega) (by omega)
        have hm1 : P + j % P = j := by have := Nat.div_add_mod j P; rw [hd1] at this; omega
        rw [hm1, hd1]
        congr 2; push_cast; ring
      · have hje : j = 2 * P := by omega
        subst hje
        rw [Nat.mul_div_cancel _ hPpos, Nat.mul_mod_left, Nat.add_zero]
        have hPq : (P : ℚ) = 2 ^ Fmt.frac f := by rw [hP]; push_cast; rfl
        push_cast
        rw [hPq, show Fmt.qmin f + ((t : ℤ) + 2) - 1 = Fmt.qmin f + t + 1 by ring, zpow_add_one₀ (by norm_num)]
        ring

theorem magValue_step (f : Fmt) (k : ℕ) : magValue f k < magValue f (k + 1) := by
  set P := 2 ^ Fmt.frac f with hP
  have hPpos : 0 < P := by positivity
  have key (t : ℕ) (j : ℕ) (hj : j < 2 * P) (hn : 0 < t → P ≤ j) :
      magValue f (t * P + j) < magValue f (t * P + j + 1) := by
    have h1 := magValue_at f (Fmt.qmin f + t) j (by omega) (by rw [pow_succ']; omega) (fun h => hn (by omega))
    have h2 := magValue_at f (Fmt.qmin f + t) (j + 1) (by omega) (by rw [pow_succ']; omega) (fun h => by have := hn (by omega); omega)
    rw [show (Fmt.qmin f + (t : ℤ) - Fmt.qmin f).toNat = t by omega] at h1 h2
    rw [h1, Nat.add_assoc, h2]
    have : (0 : ℚ) < 2 ^ (Fmt.qmin f + (t : ℤ)) := by positivity
    push_cast; linarith
  by_cases h : k < P
  · have := key 0 k (by omega) (by omega); simpa using this
  · have hd := Nat.div_add_mod k P
    have hm := Nat.mod_lt k hPpos
    have hk : 1 ≤ k / P := (Nat.one_le_div_iff hPpos).mpr (by omega)
    have := key (k / P - 1) (P + k % P) (by omega) (by omega)
    have e : (k / P - 1) * P + (P + k % P) = k := by
      have : (k / P - 1) * P + P = k / P * P := by rw [← Nat.succ_mul]; congr 1; omega
      rw [← Nat.add_assoc, this, Nat.mul_comm]; exact hd
    rwa [e] at this

theorem magValue_strictMono (f : Fmt) : StrictMono (magValue f) := strictMono_nat_of_lt_succ (magValue_step f)

/-! ## The exponent of a fraction -/

theorem pow2_eq (e : ℤ) : ((pow2Num e : ℕ) : ℚ) / (pow2Den e : ℕ) = 2 ^ e := by
  unfold pow2Num pow2Den
  rcases le_total 0 e with h | h
  · obtain ⟨n, rfl⟩ := Int.eq_ofNat_of_zero_le h
    simp
  · obtain ⟨n, hn⟩ := Int.eq_ofNat_of_zero_le (show 0 ≤ -e by omega)
    obtain rfl : e = -(n : ℤ) := by omega
    simp

theorem pow2Num_pos (e : ℤ) : 0 < pow2Num e := by unfold pow2Num; positivity
theorem pow2Den_pos (e : ℤ) : 0 < pow2Den e := by unfold pow2Den; positivity

theorem pow2Num_eq (e : ℤ) : ((pow2Num e : ℕ) : ℚ) = 2 ^ e * (pow2Den e : ℕ) := by
  rw [← pow2_eq]; field_simp [(pow2Den_pos e).ne']

theorem log2_bounds {n : ℕ} (h : 0 < n) : (2 : ℚ) ^ (Nat.log2 n : ℤ) ≤ n ∧ (n : ℚ) < 2 ^ ((Nat.log2 n : ℤ) + 1) := by
  have h1 := Nat.log2_self_le h.ne'
  have h2 : n < 2 ^ (Nat.log2 n + 1) := (Nat.log2_lt h.ne').mp (Nat.lt_succ_self _)
  constructor
  · rw [zpow_natCast]; exact_mod_cast h1
  · rw [show ((Nat.log2 n : ℤ) + 1) = ((Nat.log2 n + 1 : ℕ) : ℤ) by push_cast; rfl, zpow_natCast]; exact_mod_cast h2

theorem ilog2_spec {num den : ℕ} (hn : 0 < num) (hd : 0 < den) :
    (2 : ℚ) ^ ilog2 num den ≤ (num : ℚ) / den ∧ (num : ℚ) / den < 2 ^ (ilog2 num den + 1) := by
  obtain ⟨a1, a2⟩ := log2_bounds hn
  obtain ⟨b1, b2⟩ := log2_bounds hd
  have hdq : (0 : ℚ) < den := by exact_mod_cast hd
  set A : ℤ := ((Nat.log2 num : ℕ) : ℤ)
  set B : ℤ := ((Nat.log2 den : ℕ) : ℤ)
  have up : (num : ℚ) / den < 2 ^ (A - B + 1) := by
    rw [div_lt_iff₀ hdq]
    have : (2 : ℚ) ^ (A + 1) = 2 ^ (A - B + 1) * 2 ^ B := by rw [← zpow_add₀ (by norm_num)]; congr 1; ring
    have h2 : (2 : ℚ) ^ (A - B + 1) * 2 ^ B ≤ 2 ^ (A - B + 1) * den := by
      apply mul_le_mul_of_nonneg_left b1; positivity
    linarith
  have low : (2 : ℚ) ^ (A - B - 1) < (num : ℚ) / den := by
    rw [lt_div_iff₀ hdq]
    have : (2 : ℚ) ^ A = 2 ^ (A - B - 1) * 2 ^ (B + 1) := by rw [← zpow_add₀ (by norm_num)]; congr 1; ring
    have h2 : (2 : ℚ) ^ (A - B - 1) * den < 2 ^ (A - B - 1) * 2 ^ (B + 1) := by
      apply mul_lt_mul_of_pos_left b2; positivity
    linarith
  have cond : num * pow2Den (A - B) < den * pow2Num (A - B) ↔ (num : ℚ) / den < 2 ^ (A - B) := by
    rw [div_lt_iff₀ hdq, ← Nat.cast_lt (α := ℚ)]
    push_cast
    rw [pow2Num_eq]
    have hp : (0 : ℚ) < (pow2Den (A - B) : ℕ) := by exact_mod_cast pow2Den_pos _
    rw [show (den : ℚ) * (2 ^ (A - B) * (pow2Den (A - B) : ℕ)) = 2 ^ (A - B) * den * (pow2Den (A - B) : ℕ) by ring]
    exact mul_lt_mul_iff_left₀ hp
  unfold ilog2
  simp only
  split
  · rename_i h
    have := cond.mp h
    exact ⟨low.le, by rwa [show A - B - 1 + 1 = A - B by ring]⟩
  · rename_i h
    have := not_lt.mp (fun hx => h (cond.mpr hx))
    exact ⟨this, up⟩

/-! ## The rounding -/

theorem nearest_between {f : Fmt} {x : ℚ} {k : ℕ} (h1 : magValue f k ≤ x) (h2 : x < magValue f (k + 1)) (r : Rnd) (neg : Bool)
    (n : ℕ) (hn : match r with
      | .rn => (n = k ∧ (x - magValue f k < magValue f (k + 1) - x ∨ (x - magValue f k = magValue f (k + 1) - x ∧ k % 2 = 0))) ∨
          (n = k + 1 ∧ (magValue f (k + 1) - x < x - magValue f k ∨ (x - magValue f k = magValue f (k + 1) - x ∧ (k + 1) % 2 = 0)))
      | .rz => n = k
      | .ru => if neg then n = k else n = if x = magValue f k then k else k + 1
      | .rd => if neg then n = if x = magValue f k then k else k + 1 else n = k) : Nearest f r neg x n := by
  have mono := magValue_strictMono f
  have up : (if x = magValue f k then n = k else n = k + 1) → x ≤ magValue f n ∧ ∀ j < n, magValue f j < x := by
    intro h
    split at h
    · rename_i hx
      subst h
      exact ⟨hx.le, fun j hj => by rw [hx]; exact mono hj⟩
    · rename_i hx
      subst h
      exact ⟨h2.le, fun j hj => lt_of_le_of_lt (mono.monotone (Nat.lt_succ_iff.mp hj)) (lt_of_le_of_ne h1 (Ne.symm hx))⟩
  cases r
  · intro j hj
    have hlow : j ≤ k → magValue f j ≤ magValue f k := fun h => mono.monotone h
    have hhigh : k + 1 ≤ j → magValue f (k + 1) ≤ magValue f j := fun h => mono.monotone h
    have a0 : |magValue f k - x| = x - magValue f k := by rw [abs_sub_comm, abs_of_nonneg]; linarith
    have a1 : |magValue f (k + 1) - x| = magValue f (k + 1) - x := by rw [abs_of_pos]; linarith
    rcases hn with ⟨rfl, hn⟩ | ⟨rfl, hn⟩
    · rw [a0]
      rcases Nat.lt_or_ge j n with h | h
      · have := mono h
        left
        rw [abs_sub_comm, abs_of_nonneg (by linarith)]; linarith
      · have := hhigh (by omega)
        rw [abs_of_nonneg (by linarith)]
        rcases hn with hn | ⟨hn, he⟩
        · left; linarith
        · rcases eq_or_lt_of_le this with heq | hlt
          · right; exact ⟨by rw [← heq]; exact hn, he⟩
          · left; linarith
    · rw [a1]
      rcases Nat.lt_or_ge k j with h | h
      · have := mono (show k + 1 < j by omega)
        left
        rw [abs_of_nonneg (by linarith)]; linarith
      · have := hlow h
        rw [abs_sub_comm (magValue f j), abs_of_nonneg (show (0 : ℚ) ≤ x - magValue f j by linarith)]
        rcases hn with hn | ⟨hn, he⟩
        · left; linarith
        · rcases eq_or_lt_of_le this with heq | hlt
          · right; exact ⟨by rw [heq]; exact hn.symm, he⟩
          · left; linarith
  · subst hn; exact ⟨h1, h2⟩
  · cases neg
    · exact up (by simp only [Bool.false_eq_true, if_false] at hn; split at hn <;> simp_all)
    · simp only [if_true] at hn; subst hn; exact ⟨h1, h2⟩
  · cases neg
    · simp only [Bool.false_eq_true, if_false] at hn; subst hn; exact ⟨h1, h2⟩
    · exact up (by simp only [if_true] at hn; split at hn <;> simp_all)

/-- The rounding of a positive fraction. -/
theorem fround_rounds (f : Fmt) (r : Rnd) (neg : Bool) {num den : ℕ} (hn : 0 < num) (hd : 0 < den) :
    RoundsTo f r neg ((num : ℚ) / den) (fround f r neg num den) := by
  obtain ⟨l1, l2⟩ := ilog2_spec hn hd
  set L := ilog2 num den
  set F := Fmt.frac f
  set q := max (L - F) (Fmt.qmin f) with hq
  set a := num * pow2Den q with ha
  set b := den * pow2Num q with hb
  have hbpos : 0 < b := Nat.mul_pos hd (pow2Num_pos q)
  have hqpos : (0 : ℚ) < 2 ^ q := by positivity
  have hdq : (0 : ℚ) < den := by exact_mod_cast hd
  have hbq : (0 : ℚ) < b := by exact_mod_cast hbpos
  set x := (num : ℚ) / den with hx
  have hab : (a : ℚ) / b = x / 2 ^ q := by
    have hp : (0 : ℚ) < (pow2Den q : ℕ) := by exact_mod_cast pow2Den_pos _
    rw [ha, hb, hx]
    push_cast
    rw [pow2Num_eq]
    field_simp
  have xeq : x = (a : ℚ) / b * 2 ^ q := by rw [hab]; field_simp
  set n0 := a / b with hn0
  set m := a % b with hm
  have hmod : b * n0 + m = a := Nat.div_add_mod a b
  have hmlt : m < b := Nat.mod_lt _ hbpos
  have aq : (a : ℚ) / b = n0 + (m : ℚ) / b := by
    rw [← hmod]; push_cast; field_simp
  have hm0 : (0 : ℚ) ≤ (m : ℚ) / b := by positivity
  have hm1 : (m : ℚ) / b < 1 := by rw [div_lt_one hbq]; exact_mod_cast hmlt
  -- the quotient stands below 2^(frac + 1), and from 2^frac up where the quantum is above the smallest
  have hupq : (a : ℚ) / b < 2 ^ (F + 1) := by
    rw [hab, div_lt_iff₀ hqpos]
    refine lt_of_lt_of_le l2 ?_
    rw [← zpow_natCast, ← zpow_add₀ (by norm_num)]
    apply zpow_le_zpow_right₀ (by norm_num)
    have : L - F ≤ q := le_max_left ..
    push_cast; omega
  have hn0up : n0 < 2 ^ (F + 1) := by
    have : (n0 : ℚ) < 2 ^ (F + 1) := by linarith
    exact_mod_cast this
  have hlowq : Fmt.qmin f < q → 2 ^ F ≤ n0 := by
    intro h
    have hqe : q = L - F := by rcases max_choice (L - F) (Fmt.qmin f) with h1 | h1 <;> omega
    have : (2 : ℚ) ^ F ≤ (a : ℚ) / b := by
      rw [hab, le_div_iff₀ hqpos, hqe, ← zpow_natCast, ← zpow_add₀ (by norm_num)]
      rw [show (F : ℤ) + (L - F) = L by ring]; exact l1
    have h3 : ((2 ^ F : ℕ) : ℚ) < n0 + 1 := by push_cast; linarith
    have : 2 ^ F < n0 + 1 := by exact_mod_cast h3
    omega
  have hqmin : Fmt.qmin f ≤ q := le_max_right ..
  set base := (q - Fmt.qmin f).toNat * 2 ^ F with hbase
  have v0 : magValue f (base + n0) = n0 * 2 ^ q := magValue_at f q n0 hqmin (show n0 ≤ 2 ^ (F + 1) by omega) hlowq
  have v1 : magValue f (base + n0 + 1) = (n0 + 1) * 2 ^ q := by
    have := magValue_at f q (n0 + 1) hqmin (show n0 + 1 ≤ 2 ^ (F + 1) by omega) (fun h => show 2 ^ F ≤ n0 + 1 by have := hlowq h; omega)
    push_cast at this
    exact this
  have h1 : magValue f (base + n0) ≤ x := by rw [v0, xeq, aq]; nlinarith
  have h2 : x < magValue f (base + n0 + 1) := by rw [v1, xeq, aq]; nlinarith
  have hpar : base % 2 = 0 := by
    have : 2 ∣ 2 ^ F := dvd_pow_self 2 (by cases f <;> decide)
    exact Nat.mod_eq_zero_of_dvd (Dvd.dvd.mul_left this _)
  have d0 : x - magValue f (base + n0) = (m : ℚ) / b * 2 ^ q := by rw [v0, xeq, aq]; ring
  have d1 : magValue f (base + n0 + 1) - x = (1 - (m : ℚ) / b) * 2 ^ q := by rw [v1, xeq, aq]; ring
  have zero_iff : x = magValue f (base + n0) ↔ m = 0 := by
    rw [← sub_eq_zero, d0]
    constructor
    · intro h
      rcases mul_eq_zero.mp h with h | h
      · rcases div_eq_zero_iff.mp h with h | h
        · exact_mod_cast h
        · linarith
      · linarith
    · intro h; simp [h]
  have cmp1 : (m : ℚ) / b < 1 - (m : ℚ) / b ↔ 2 * m < b := by
    rw [← Nat.cast_lt (α := ℚ), lt_sub_iff_add_lt, ← add_div, div_lt_one hbq]; push_cast; constructor <;> intro h <;> linarith
  have cmp2 : (m : ℚ) / b = 1 - (m : ℚ) / b ↔ 2 * m = b := by
    rw [← Nat.cast_inj (R := ℚ), eq_sub_iff_add_eq, ← add_div, div_eq_one_iff_eq hbq.ne']; push_cast; constructor <;> intro h <;> linarith
  have cmp3 : 1 - (m : ℚ) / b < (m : ℚ) / b ↔ b < 2 * m := by
    rw [← Nat.cast_lt (α := ℚ), sub_lt_iff_lt_add, ← add_div, lt_div_iff₀ hbq, one_mul]; push_cast; constructor <;> intro h <;> linarith
  have lt1 (u v : ℚ) : u * 2 ^ q < v * 2 ^ q ↔ u < v := mul_lt_mul_iff_left₀ hqpos
  have eq1 (u v : ℚ) : u * 2 ^ q = v * 2 ^ q ↔ u = v := mul_left_inj' hqpos.ne'
  have hN : Nearest f r neg x (base + roundInt r neg n0 m b) := by
    apply nearest_between h1 h2
    cases r
    · simp only [roundInt, d0, d1, lt1, eq1, cmp1, cmp2, cmp3]
      split
      · rename_i h
        right
        refine ⟨by omega, ?_⟩
        rcases h with h | ⟨h, hodd⟩
        · left; exact h
        · right; exact ⟨h, by omega⟩
      · rename_i h
        left
        refine ⟨rfl, ?_⟩
        by_cases he : 2 * m = b
        · right; exact ⟨he, by omega⟩
        · left; omega
    · rfl
    · simp only [roundInt]
      cases neg <;> simp only [Bool.false_eq_true, if_false, if_true, zero_iff]
      · by_cases h : m = 0
        · simp [h]
        · simp [h, Nat.pos_of_ne_zero h, Nat.add_assoc]
      · simp
    · simp only [roundInt]
      cases neg <;> simp only [Bool.false_eq_true, if_false, if_true, zero_iff]
      · simp
      · by_cases h : m = 0
        · simp [h]
        · simp [h, Nat.pos_of_ne_zero h, Nat.add_assoc]
  refine ⟨_, hN, ?_⟩
  unfold fround
  rw [if_neg (by omega)]
  simp only
  change (if Fmt.infBits f ≤ base + roundInt r neg n0 m b then _ else _) = _
  by_cases h : base + roundInt r neg n0 m b < Fmt.infBits f
  · rw [if_pos h, if_neg (by omega)]
  · rw [if_neg h, if_pos (by omega)]
    all_goals (cases r <;> rfl)

/-! ## Decoded values -/

/-- The number of a decoded value. -/
def FVal.num : FVal → FNum
  | .nan => .nan
  | .inf s => .inf s
  | .fin s m e => .fin s (((sgnInt s m : ℤ) : ℚ) * 2 ^ e)

theorem mul_pow2 (m : ℚ) (e : ℤ) : m * (pow2Num e : ℕ) / (pow2Den e : ℕ) = m * 2 ^ e := by rw [mul_div_assoc, pow2_eq]

theorem sgnInt_cast (s : Bool) (m : ℕ) : ((sgnInt s m : ℤ) : ℚ) = if s then -(m : ℚ) else m := by cases s <;> simp [sgnInt]

theorem numOf_eq (f : Fmt) (x : Nat) : numOf f x = (fdecode f x).num := by
  unfold numOf fdecode
  simp only
  set mag := x % Fmt.signBit f
  by_cases h1 : Fmt.infBits f < mag
  · rw [if_pos h1, if_pos h1]; rfl
  rw [if_neg h1, if_neg h1]
  by_cases h2 : mag = Fmt.infBits f
  · rw [if_pos h2, if_pos h2]; rfl
  rw [if_neg h2, if_neg h2]
  set P := 2 ^ Fmt.frac f with hP
  have hPpos : 0 < P := by positivity
  set neg := decide (x / Fmt.signBit f % 2 = 1)
  have hd := Nat.div_add_mod mag P
  have hm := Nat.mod_lt mag hPpos
  have hs : ∀ v : ℚ, (if neg = true then -v else v) = (if neg then -1 else 1) * v := fun v => by cases neg <;> simp
  have hf : ∀ (k : ℕ) (e : ℤ), FVal.num (.fin neg k e) = .fin neg ((if neg then -1 else 1) * ((k : ℚ) * 2 ^ e)) := fun k e => by
    cases neg <;> simp [FVal.num, sgnInt]
  rw [hs]
  generalize hE : mag / P = E at *
  generalize hR : mag % P = R at *
  by_cases h3 : E = 0
  · rw [if_pos h3, hf]
    subst h3
    have := magValue_at f (Fmt.qmin f) R (le_refl _) (by rw [pow_succ']; omega) (fun h => by omega)
    simp only [sub_self, Int.toNat_zero, zero_mul, zero_add] at this
    rw [← this]
    congr 3; omega
  · rw [if_neg h3, hf]
    have := magValue_at f (Fmt.qmin f + (E : ℤ) - 1) (P + R) (by omega) (by rw [pow_succ']; omega) (fun _ => by omega)
    rw [show (Fmt.qmin f + (E : ℤ) - 1 - Fmt.qmin f).toNat = E - 1 by omega] at this
    rw [← this]
    congr 3
    have : (E - 1) * P + P = P * E := by rw [← Nat.succ_mul, Nat.mul_comm]; congr 1; omega
    show mag = (E - 1) * P + (P + R)
    omega

theorem numIn_eq (f : Fmt) (ftz : Bool) (x : Nat) : numIn f ftz x = (fdecode f (flush f ftz x)).num := numOf_eq f _

theorem neg_num (v : FVal) : (fneg v).num = v.num.neg := by
  cases v with
  | nan => rfl
  | inf s => rfl
  | fin s m e => cases s <;> simp [fneg, FVal.num, FNum.neg, sgnInt]

theorem num_zero_iff (m : ℕ) (s : Bool) (e : ℤ) : ((sgnInt s m : ℤ) : ℚ) * 2 ^ e = 0 ↔ m = 0 := by
  have : (0 : ℚ) < 2 ^ e := by positivity
  rw [sgnInt_cast]
  cases s <;> simp [this.ne']

theorem mul_num (x y : FVal) : (mulExact x y).num = x.num.mul y.num := by
  cases x with
  | nan => cases y <;> rfl
  | inf s =>
    cases y with
    | nan => rfl
    | inf t => rfl
    | fin t m e =>
      simp only [mulExact, FVal.num, FNum.mul, num_zero_iff]
      by_cases h : m = 0
      · rw [if_pos h, if_pos h]
      · rw [if_neg h, if_neg h]
  | fin s m e =>
    cases y with
    | nan => rfl
    | inf t =>
      simp only [mulExact, FVal.num, FNum.mul, num_zero_iff]
      by_cases h : m = 0
      · rw [if_pos h, if_pos h]
      · rw [if_neg h, if_neg h]; cases s <;> cases t <;> rfl
    | fin t n e' =>
      simp only [mulExact, FVal.num, FNum.mul, sgnInt_cast]
      rw [zpow_add₀ (by norm_num)]
      cases s <;> cases t <;> simp <;> ring

/-- A rounded fraction of a sign. -/
theorem rounded_fround (f : Fmt) (r : Rnd) (ftz s : Bool) (num den : ℕ) (hd : 0 < den) (x : ℚ)
    (hx : x = if s then -((num : ℚ) / den) else (num : ℚ) / den) : Rounded f r ftz s x (flush f ftz (fround f r s num den)) := by
  have hdq : (0 : ℚ) < den := by exact_mod_cast hd
  refine ⟨_, rfl, fun h0 => ?_, fun h0 => ?_⟩
  · have : num = 0 := by
      rw [hx] at h0
      have : (num : ℚ) / den = 0 := by cases s <;> simpa using h0
      rcases div_eq_zero_iff.mp this with h | h
      · exact_mod_cast h
      · linarith
    simp [fround, this]
  · have hn : 0 < num := by
      rcases Nat.eq_zero_or_pos num with h | h
      · subst h; exfalso; apply h0; rw [hx]; cases s <;> simp
      · exact h
    have hp : (0 : ℚ) < (num : ℚ) / den := by
      have : (0 : ℚ) < num := by exact_mod_cast hn
      positivity
    have e1 : decide (x < 0) = s := by
      rw [hx]
      cases s
      · simp only [Bool.false_eq_true, if_false, decide_eq_false_iff_not, not_lt]; exact hp.le
      · simp only [if_true, decide_eq_true_eq]; linarith
    have e2 : |x| = (num : ℚ) / den := by rw [hx]; cases s <;> simp [abs_of_pos, hp]
    rw [e1, e2]
    exact fround_rounds f r s hn hd

theorem rounded_dy (f : Fmt) (r : Rnd) (ftz z : Bool) (x e : ℤ) : Rounded f r ftz z ((x : ℚ) * 2 ^ e) (flush f ftz (froundDy f r x e z)) := by
  by_cases hx : x = 0
  · subst hx
    exact ⟨_, rfl, fun _ => by simp [froundDy], fun h => absurd (by simp) h⟩
  · rw [froundDy, if_neg hx]
    have hq : (x : ℚ) * 2 ^ e = if decide (x < 0) = true then -(((x.natAbs * pow2Num e : ℕ) : ℚ) / (pow2Den e : ℕ)) else ((x.natAbs * pow2Num e : ℕ) : ℚ) / (pow2Den e : ℕ) := by
      push_cast
      rw [mul_pow2, Nat.cast_natAbs]
      by_cases h : x < 0
      · simp [h, abs_of_neg h]
      · simp [h, abs_of_nonneg (not_lt.mp h)]
    obtain ⟨m, h1, -, h3⟩ := rounded_fround f r ftz (decide (x < 0)) (x.natAbs * pow2Num e) (pow2Den e) (pow2Den_pos e) _ hq
    have hne : (x : ℚ) * 2 ^ e ≠ 0 := by
      have : (0 : ℚ) < 2 ^ e := by positivity
      exact mul_ne_zero (by exact_mod_cast hx) this.ne'
    exact ⟨m, h1, fun h => absurd h hne, h3⟩

theorem dyAdd_eq (x ex y ey : ℤ) : (((dyAdd x ex y ey).1 : ℤ) : ℚ) * 2 ^ (dyAdd x ex y ey).2 = x * 2 ^ ex + y * 2 ^ ey := by
  have key (e k : ℤ) (h : k ≤ e) : ((2 : ℚ) ^ (e - k).toNat) * 2 ^ k = 2 ^ e := by
    rw [← zpow_natCast, ← zpow_add₀ (by norm_num)]; congr 1; omega
  unfold dyAdd
  push_cast
  rw [add_mul, mul_assoc, mul_assoc, key _ _ (min_le_left ..), key _ _ (min_le_right ..)]

/-! ## The operations -/

theorem addVal_rule (f : Fmt) (r : Rnd) (ftz : Bool) (x y : FVal) (hf : ∀ s, flush f ftz (signed f s (Fmt.infBits f)) = signed f s (Fmt.infBits f))
    (hn : flush f ftz (Fmt.nan f) = Fmt.nan f) : FNum.AddTo f r ftz x.num y.num (flush f ftz (addVal f r x y)) := by
  cases x with
  | nan => cases y <;> exact hn
  | inf s =>
    cases y with
    | nan => exact hn
    | inf t =>
      show _ = _
      simp only [addVal]
      split
      · exact hf s
      · exact hn
    | fin t m e => exact hf s
  | fin s m e =>
    cases y with
    | nan => exact hn
    | inf t => exact hf t
    | fin t n e' =>
      simp only [FVal.num, FNum.AddTo, addVal]
      rw [← dyAdd_eq]
      have := rounded_dy f r ftz (if m = 0 ∧ n = 0 then zeroSign r s t else zeroSign r false true)
        (dyAdd (sgnInt s m) e (sgnInt t n) e').1 (dyAdd (sgnInt s m) e (sgnInt t n) e').2
      by_cases hz : m = 0 ∧ n = 0
      · rw [if_pos hz] at this ⊢
        have : (if s = t then s else r == .rd) = zeroSign r s t := by unfold zeroSign; cases r <;> rfl
        rw [this]; assumption
      · rw [if_neg hz] at this ⊢
        by_cases hst : s = t
        · obtain ⟨k, h1, -, h3⟩ := this
          refine ⟨k, h1, fun h0 => ?_, h3⟩
          exfalso
          rw [dyAdd_eq, sgnInt_cast, sgnInt_cast, hst] at h0
          have p1 : (0 : ℚ) ≤ (m : ℚ) * 2 ^ e := by positivity
          have p2 : (0 : ℚ) ≤ (n : ℚ) * 2 ^ e' := by positivity
          have z1 : (m : ℚ) * 2 ^ e = 0 := by cases t <;> simp at h0 <;> linarith
          have z2 : (n : ℚ) * 2 ^ e' = 0 := by cases t <;> simp at h0 <;> linarith
          have q1 : (0 : ℚ) < 2 ^ e := by positivity
          have q2 : (0 : ℚ) < 2 ^ e' := by positivity
          apply hz
          constructor
          · exact_mod_cast (mul_eq_zero.mp z1).resolve_right q1.ne'
          · exact_mod_cast (mul_eq_zero.mp z2).resolve_right q2.ne'
        · rw [if_neg hst]
          have : zeroSign r false true = (r == .rd) := by cases r <;> rfl
          rw [← this]; assumption

theorem flush_inf (f : Fmt) (ftz s : Bool) : flush f ftz (signed f s (Fmt.infBits f)) = signed f s (Fmt.infBits f) := by
  cases f <;> cases ftz <;> cases s <;> decide

theorem flush_nan (f : Fmt) (ftz : Bool) : flush f ftz (Fmt.nan f) = Fmt.nan f := by cases f <;> cases ftz <;> decide

theorem flush_zero (f : Fmt) (ftz s : Bool) : flush f ftz (signed f s 0) = signed f s 0 := by
  cases f <;> cases ftz <;> cases s <;> decide

theorem fadd_rule (f : Fmt) (r : Rnd) (ftz : Bool) (a b : Nat) :
    FNum.AddTo f r ftz (numIn f ftz a) (numIn f ftz b) (fadd f r ftz a b) := by
  rw [numIn_eq, numIn_eq]
  exact addVal_rule f r ftz _ _ (flush_inf f ftz) (flush_nan f ftz)

theorem fsub_rule (f : Fmt) (r : Rnd) (ftz : Bool) (a b : Nat) :
    FNum.AddTo f r ftz (numIn f ftz a) (numIn f ftz b).neg (fsub f r ftz a b) := by
  rw [numIn_eq, numIn_eq, ← neg_num]
  exact addVal_rule f r ftz _ _ (flush_inf f ftz) (flush_nan f ftz)

theorem froundVal_rule (f : Fmt) (r : Rnd) (ftz : Bool) (x : FVal) : FNum.To f r ftz x.num (flush f ftz (froundVal f r x)) := by
  cases x with
  | nan => exact flush_nan f ftz
  | inf s => exact flush_inf f ftz s
  | fin s m e =>
    refine rounded_fround f r ftz s (m * pow2Num e) (pow2Den e) (pow2Den_pos e) _ ?_
    push_cast
    rw [mul_pow2, sgnInt_cast]
    cases s <;> simp

theorem fmul_rule (f : Fmt) (r : Rnd) (ftz : Bool) (a b : Nat) :
    FNum.To f r ftz ((numIn f ftz a).mul (numIn f ftz b)) (fmul f r ftz a b) := by
  rw [numIn_eq, numIn_eq, ← mul_num]
  exact froundVal_rule f r ftz _

theorem ffma_rule (f : Fmt) (r : Rnd) (ftz np nc : Bool) (a b c : Nat) :
    FNum.AddTo f r ftz (if np then ((numIn f ftz a).mul (numIn f ftz b)).neg else (numIn f ftz a).mul (numIn f ftz b))
      (if nc then (numIn f ftz c).neg else numIn f ftz c) (ffma f r ftz np nc a b c) := by
  rw [numIn_eq, numIn_eq, numIn_eq, ← mul_num, ← neg_num, ← neg_num]
  have e1 (p : Bool) (v : FVal) : (if p then (fneg v).num else v.num) = (if p then fneg v else v).num := by cases p <;> rfl
  rw [e1, e1]
  exact addVal_rule f r ftz _ _ (flush_inf f ftz) (flush_nan f ftz)

theorem divVal_rule (f : Fmt) (r : Rnd) (ftz : Bool) (x y : FVal) : FNum.DivTo f r ftz x.num y.num (flush f ftz (divVal f r x y)) := by
  cases x with
  | nan => cases y <;> exact flush_nan f ftz
  | inf s =>
    cases y with
    | nan => exact flush_nan f ftz
    | inf t => exact flush_nan f ftz
    | fin t m e => exact flush_inf f ftz _
  | fin s m e =>
    cases y with
    | nan => exact flush_nan f ftz
    | inf t => exact flush_zero f ftz _
    | fin t n e' =>
      simp only [FVal.num, FNum.DivTo, divVal, num_zero_iff]
      by_cases hn : n = 0
      · rw [if_pos hn, if_pos hn]
        by_cases hm : m = 0
        · rw [if_pos hm, if_pos hm]; exact flush_nan f ftz
        · rw [if_neg hm, if_neg hm]; exact flush_inf f ftz _
      · rw [if_neg hn, if_neg hn]
        refine rounded_fround f r ftz (s != t) _ _ (Nat.mul_pos (Nat.pos_of_ne_zero hn) (pow2Den_pos _)) _ ?_
        have hnq : (n : ℚ) ≠ 0 := by exact_mod_cast hn
        have hp : ((pow2Den (e - e') : ℕ) : ℚ) ≠ 0 := by exact_mod_cast (pow2Den_pos (e - e')).ne'
        have h2 : (2 : ℚ) ^ e' ≠ 0 := by positivity
        have hq : (((m * pow2Num (e - e') : ℕ) : ℚ) / ((n * pow2Den (e - e') : ℕ) : ℚ)) = (m : ℚ) * 2 ^ e / ((n : ℚ) * 2 ^ e') := by
          push_cast
          rw [pow2Num_eq, zpow_sub₀ (by norm_num)]
          field_simp
        rw [hq, sgnInt_cast, sgnInt_cast]
        cases s <;> cases t <;> simp [neg_div, div_neg]

theorem fdiv_rule (f : Fmt) (r : Rnd) (ftz : Bool) (a b : Nat) :
    FNum.DivTo f r ftz (numIn f ftz a) (numIn f ftz b) (fdiv f r ftz a b) := by
  rw [numIn_eq, numIn_eq]
  exact divVal_rule f r ftz _ _

theorem fconv_rule (src dst : Fmt) (r : Rnd) (ftz : Bool) (a : Nat) : FNum.To dst r ftz (numIn src ftz a) (fconv src dst r ftz a) := by
  rw [numIn_eq]
  exact froundVal_rule dst r ftz _

end Sys2Proof.Machine
end

