-- ==== Sys2Proof/Tests/Slice0.lean ====
section
/-! SUPPORT. Tests: ill-formed terms the checks refuse, words of the spec decoded, the result of words on small states (the
expected values stand in the spec's rules and examples or follow from them by hand), and states that meet the hypotheses of
the statements. -/

namespace Sys2Proof.Tests
open Sys2Proof.Machine

set_option Elab.async false
set_option maxRecDepth 100000

/-! ## Well-formedness: a term for each check, which the check refuses -/

/-- An unguarded, a marked and a guarded header. -/
def u : Hdr := { guard := none, mark := false }
def k : Hdr := { guard := none, mark := true }
def g (n : Reg) : Hdr := { guard := some { neg := false, reg := n }, mark := false }
def ng (n : Reg) : Hdr := { guard := some { neg := true, reg := n }, mark := false }
def m32 : MemMod := { ord := .plain, scope := .dev, pol := 0, size := .b32, sx := false }

theorem test_aligned_refuses_odd_pair : aligned (.iaddw u .add 1 2 (.reg 4)) = false := by decide
theorem test_aligned_refuses_odd_quad : aligned (.mov u .w128 4 6) = false := by decide
theorem test_shiftOk_refuses : shiftOk (.imm .shl 1 2 32) = false := by decide
theorem test_banksOk_refuses : banksOk [(1, 1), (5, 1)] = false := by decide
theorem test_pairLegal_refuses : pairLegal (.imm .iadd 1 1 4) (.reg .fmul 1 6) = false ∧ pairLegal (.imm .iadd 1 1 4) (.reg .fmul 5 6) = false := by decide
theorem test_srcOk_refuses : srcOk true (.reg 255) = false ∧ srcOk false (.imm 1) = false := by decide
theorem test_relOk_refuses : relOk .eq true = false := by decide
theorem test_countOk_refuses : countOk 32 false (.imm 32) = false ∧ countOk 64 true (.imm 1) = false := by decide
theorem test_fieldOk_refuses : fieldOk (.imm 32 1) = false ∧ fieldOk (.imm 0 33) = false := by decide
theorem test_ldMod_refuses : ldMod { m32 with ord := .rel } = false ∧ ldMod { m32 with sx := true } = false := by decide
theorem test_stMod_refuses : stMod { m32 with ord := .acq } = false := by decide
/-- The operand fields of words and the ranges of happenings. -/
theorem test_encodable_refuses : [
    Instr.pairedWord false (.imm .shl 1 1 3) (.imm .movi8 2 1 1), .iadd u .co 1 2 (.reg 3) 4, .iadd u .co 1 2 (.imm 4) 0, .imul u .hiS 1 2 (.imm 3),
    .imnx u .maxS 1 2 (.imm 3), .icmp u .ne true 1 2 (.imm 3), .shf u .rotl true 1 2 (.reg 3) 0, .shf u .l false 1 2 (.reg 3) 4,
    .bfx u false 1 2 (.imm 32 1), .bfi u 1 2 (.imm 0 33) 3, .iaddw u .sub 2 4 (.imm 6), .shfw u .l false 2 4 (.imm 64), .icmpw u .eq true 1 2 (.imm 3),
    .cvtf u .f32f16 .rz false 1 2, .fquant u .st6 4 false 1 2 3 4, .fdeq u .hs8 4 .rn false 1 2 3, .shfl u .xor true false 1 2 (.imm 3) none,
    .rgrow false 0, .rshrink false 33, .qpop u .w64 1 2 3, .ld u { m32 with ord := .rel } 1 2 0, .st u { m32 with pol := 4 } 1 2 0,
    .lds u { m32 with pol := 1 } 1 2 0, .sts u { m32 with sx := true } 1 2 0, .pref u 1 false 2 0,
    .aadd u { ord := .plain, scope := .dev, wide := true } .f32 (.mem 2) 0 3 none, .maccrd u true false 4 0 4, .maccwr u false false 4 0 2,
    .slotrd u false 4 1 5, .warpIssueChoice 768, .longLatencyReturn 0 32 0, .trapEntry 0 32, .barrierPhaseComplete 0 8, .freeCountReport 4,
    .groupRestore 0 768, .hostWrite (2 ^ 64) [0], .macroSelfCheck 768 0].all (fun i => !encodable i) = true ∧ encodable (.shfw u .l false 2 4 (.imm 63)) = true := by decide
theorem test_wellFormed_refuses : wellFormed (.iaddw u .add 2 3 (.reg 4)) = false ∧ wellFormed (.nop u) = true := by decide

/-! ## Decoding: words that the spec works out -/

theorem test_decodes_basic_and_integer :
    decode 0x0040000000000000 = .ok (.nop u) ∧
    decode 0x6000808214060700 = .ok (.pairedWord false (.imm .iadd 1 1 4) (.reg .fmul 6 7)) ∧
    decode 0x00814181C0000002 = .ok (.iadd u .satS 5 6 (.reg 7) 0) ∧
    decode 0x0402823FFFC00FF0 = .ok (.iaddw u .add 10 8 (.imm 0xFFFF0)) := by decide
theorem test_decodes_float :
    decode 0x08814181C2000001 = .ok (.ffma u false false .rz false 5 6 7 8) ∧
    decode 0x0887880847800008 = .ok (.ffma u true false .rn false 30 32 33 30) := by decide
theorem test_decodes_control :
    decode 0x10003FFFFF400000 = .ok (.bra u 0xFFFFFD) ∧
    decode 0x1181418002400803 = .ok (.vote u .mask 5 6 (some 9)) ∧
    decode 0x1000000004467000 = .ok (.bra (ng 25) 17) := by decide
theorem test_decodes_work :
    decode 0x1400028000000000 = .ok (.freeze false 10) ∧
    decode 0x1540000040000000 = .ok (.gbar false 1) ∧
    decode 0x1400078000000000 = .ok (.freeze false 30) := by decide
theorem test_decodes_scheduler :
    decode 0x18000280C0000000 = .ok (.qpush u .w32 3 10) ∧
    decode 0x18430000C3400000 = .ok (.qpop u .w32 3 12 13) := by decide
theorem test_decodes_memory :
    decode 0x9A01020001000284 = .ok (.ld k ⟨.plain, .dev, 0, .b32, false⟩ 4 8 4) ∧
    decode 0x1A45C50000000284 = .ok (.st u ⟨.plain, .dev, 0, .b32, false⟩ 23 20 0) ∧
    decode 0x9A08490000000684 = .ok (.ld k ⟨.acq, .dev, 0, .b32, false⟩ 33 36 0) ∧
    decode 0x1A43C48000000A84 = .ok (.st u ⟨.rel, .dev, 0, .b32, false⟩ 15 18 0) := by decide
theorem test_decodes_atomics :
    decode 0x1F41420180000285 = .ok (.ainc u ⟨.plain, .dev, false⟩ false (.mem 8) 0 6 (some 5)) ∧
    decode 0x1F80000000000A80 = .ok (.fence u .rel .dev) ∧
    decode 0x1E000A86C0000284 = .ok (.aadd u ⟨.plain, .dev, false⟩ .int (.mem 42) 0 27 none) ∧
    decode 0x9F4C458E00069285 = .ok (.ainc ⟨true, some ⟨false, 26⟩⟩ ⟨.plain, .dev, false⟩ false (.mem 22) 0 56 (some 49)) ∧
    decode 0x20400401C0045284 = .ok (.bcinit (g 17) false .dev false 16 7 0) ∧
    decode 0x2805850000019000 = .ok (.bcopy (g 6) 22 (.mem 20)) ∧
    decode 0x1FC5C40480000566 = .ok (.waita u true .grp .leS true (.spm 16) 23 18 none) := by decide
theorem test_decodes_orrery :
    decode 0x2345028303800000 = .ok (.ldpick u .f32 20 10 12 14) ∧
    decode 0x2380028000000000 = .ok (.tfence u (some 10)) ∧
    decode 0x220002800001B000 = .ok (.ordecl (ng 6) 10) ∧
    decode 0xA286028300000000 = .ok (.ldrs k .f32 24 10 12) ∧
    decode 0xA30A034B86800001 = .ok (.ldpfx k .s32 40 13 46 26) := by decide
theorem test_decodes_matrix :
    decode 0x24C3020000000000 = .ok (.mmul u 12 (.mem 8)) ∧
    decode 0xA504000082000001 = .ok (.maccrd k true false 16 2 8) ∧
    decode 0x2580000140000000 = .ok (.maccz u false 5) := by decide
theorem test_decodes_engines :
    decode 0x2803020000000000 = .ok (.bcopy u 12 (.mem 8)) ∧
    decode 0x2803050000000040 = .ok (.bcopy u 12 (.spm 20)) ∧
    decode 0x2903830000000000 = .ok (.htest u 14 12) ∧
    decode 0x2980030000000000 = .ok (.hcancel u 12) := by decide
theorem test_decodes_generation :
    decode 0x2AC0014181C00000 = .ok (.tokrec u 5 6 7) ∧
    decode 0x2A0A83C000089000 = .ok (.vpub (g 34) 42 15) ∧
    decode 0x2B06868405000000 = .ok (.smask u 26 26 16 20) ∧
    decode 0x2AC0050A4B0B9000 = .ok (.tokrec (g 46) 20 41 44) := by decide
theorem test_decodes_system :
    decode 0x2C0000000003D005 = .ok (.trap (g 15) 5) ∧
    decode 0x2C40000000000001 = .ok (.tret false true) ∧
    decode 0x2C85000000000001 = .ok (.cread u 20 .trapvec) := by decide
/-- Fates of R47: a stray field, an unassigned opcode, a reserved scope, a reserved size, a misaligned pair, an illegal pair. -/
theorem test_decode_rejects :
    decode 0x0040000000000001 = .error .rsvd ∧ decode 0x0640000000000000 = .error .rsvd ∧ decode 0x9A01020001000384 = .error .scope ∧
    decode 0x9A0102000100028A = .error .rsvd ∧ decode 0x9A01024001000284 = .error .notAlignedPair ∧ decode 0x4000000000000000 = .error .illpair ∧
    decode 0x6000808214050600 = .error .illpair := by decide
theorem test_decode_illegal : decode 0 = .ok (.illegal 0 false) := by decide
theorem test_decodeTableWord : decodeTableWord 64 0x00814181C0000002 = some (.iadd u .satS 5 6 (.reg 7) 0) := by decide

/-! ## Words on small states -/

/-- A resident group of one warp at 0x10000 with a page table, and nothing in issue. -/
def placed : State := { State.reset.withFetchWord 64 0 with issue := [] }

/-- Register values by register, lane and value. -/
def setRegs (rs : List (Nat × Nat × Word)) (wp : Warp) : Warp :=
  { wp with regs := rs.foldl (fun m x => sput m (32 * x.1 + x.2.1) x.2.2) wp.regs }

/-- Word i in issue in the lanes m of that warp, as the state s has it. -/
def inIssue (i : Instr) (m : Mask) (s : State) : State := { s with cur := some { placedGroup with lanes := m }, curWord := encode i }

/-- The same with these registers. -/
def running (i : Instr) (m : Mask) (rs : List (Nat × Nat × Word)) : State := inIssue i m (modWarp placed 0 0 (setRegs rs))

/-- Every word of a list is well formed and issues in lane 0 with its own effect. -/
def allIssue (l : List Instr) : Bool := l.all fun i => wellFormed i && issuesNow i (running i 1 [])

theorem issues_of_allIssue {l : List Instr} (h : allIssue l = true) {i : Instr} (hi : i ∈ l) : ∃ s e, Issues i s e := by
  simp only [allIssue, List.all_eq_true, Bool.and_eq_true] at h
  exact ⟨_, issuesNow_sound (h i hi).2⟩

def after (i : Instr) (s : State) : Option State := match exec i s with | .next t => some t | _ => none
/-- The warp after an instruction. -/
def warpAfter (i : Instr) (s : State) : Option Warp := (after i s).bind fun t => warp? t 0 0
/-- Register r of lane l after word i with the registers rs in the lanes m. -/
def reg (i : Instr) (m : Mask) (rs : List (Nat × Nat × Word)) (r l : Nat) : Option Word := (after i (running i m rs)).map fun t => regAt t 0 0 r l
/-- Registers r and r + 1 of lane 0 as one number. -/
def pair (i : Instr) (rs : List (Nat × Nat × Word)) (r : Nat) : Option Nat :=
  (after i (running i 1 rs)).map fun t => (regAt t 0 0 r 0).toNat + 2 ^ 32 * (regAt t 0 0 (r + 1) 0).toNat
/-- The results on their way. -/
def outs (i : Instr) (m : Mask) (rs : List (Nat × Nat × Word)) : Option (List Outst) := (warpAfter i (running i m rs)).map (·.outs)
def value (i : Instr) (rs : List (Nat × Nat × Word)) : Option (List Word) :=
  (outs i 1 rs).map fun l => l.filterMap fun o => match o with | .value _ _ v => some v | _ => none
/-- The fault taken: code, lanes, first detail. -/
def faultIn (i : Instr) (s : State) : Option (Code × Mask × Nat) := (warpAfter i s).bind fun w => w.fault.map fun r => (r.code, r.lanes, r.d0.toNat)
def fault (i : Instr) (m : Mask) (rs : List (Nat × Nat × Word)) : Option (Code × Mask × Nat) := faultIn i (running i m rs)
def holdsIn (i : Instr) (s : State) : Option (List (Hold × Mask)) := (warpAfter i s).map fun w => w.holds.map fun h => (h.kind, h.lanes)
/-- The program counter of lane l. -/
def pcIn (i : Instr) (s : State) (l : Nat) : Option Nat := (warpAfter i s).bind fun w => (w.lanes[l]?).map (·.pc.toNat)
def pc (i : Instr) (m : Mask) (rs : List (Nat × Nat × Word)) (l : Nat) : Option Nat := pcIn i (running i m rs) l

/-! ### The integer class. Words that meet the hypotheses of their statements, then results -/

theorem test_meets_ArithmeticWordsComplete : allIssue [.iadd u .satS 5 6 (.reg 7) 0, .imul u .wideS 4 6 (.reg 7), .imad u .wideZ 4 6 7 8, .imnx u .minS 5 6 (.imm 3),
  .iabs u .neg 5 6, .lea u true 2 4 6 8, .movi false 5 7] = true := by decide
theorem test_meets_CompareSelectAndWideWordsComplete : allIssue [.icmp u .lt true 5 6 (.imm 3), .icmpw u .ge false 5 6 (.reg 8), .sel u true 4 6 8 9,
  .mov u .w128 4 8, .iaddw u .sub 4 6 (.reg 8), .idot u false true false true 5 6 7 8, .cvti u .s64s32 4 6] = true := by decide
theorem test_meets_BitWordsComplete : allIssue [.ltab u 0xE8 5 6 7 8, .shf u .fl true 5 6 (.reg 7) 8, .shfw u .a false 4 6 (.imm 63), .bfx u true 5 6 (.imm 31 32),
  .bfi u 5 6 (.reg 7) 8, .bitc u .brev 5 6, .bperm u 5 6 7 8] = true := by decide
theorem test_meets_DivideSendsQuotientOrRemainder : allIssue [.idiv u .quoS 5 6 7, .idiv u .remZ 5 6 7] = true := by decide
theorem test_meets_SystemValuesNopAndPairsComplete : allIssue [.sread u .clock 4, .sread u .lane 5, .nop k,
  .pairedWord false (.imm .iadd 1 1 4) (.reg .fmul 6 7)] = true := by decide

/-- The carry chain of R55's example: v20 = 1, then v17 takes the carry in. -/
theorem test_iadd_carry : reg (.iadd u .co 20 10 (.reg 13) 0) 1 [(10, 0, 0xFFFFFFFF), (13, 0, 1)] 20 0 = some 1 := by decide
theorem test_iadd_carry_in : reg (.iadd u .ci 17 11 (.reg 14) 20) 1 [(11, 0, 0xFFFFFFFF), (14, 0, 0), (20, 0, 1)] 17 0 = some 0 := by decide
theorem test_imul_high : reg (.imul u .hiS 5 6 (.reg 7)) 1 [(6, 0, 0x80000000), (7, 0, 2)] 5 0 = some 0xFFFFFFFF := by decide
theorem test_imul_wide : pair (.imul u .wideZ 4 6 (.reg 7)) [(6, 0, 0xFFFFFFFF), (7, 0, 0xFFFFFFFF)] 4 = some 0xFFFFFFFE00000001 := by decide
theorem test_imad_wraps : reg (.imad u .lo 5 6 7 8) 1 [(6, 0, 0x10000), (7, 0, 0x10000), (8, 0, 7)] 5 0 = some 7 := by decide
/-- R57: −2^31 / −1 and a division by zero. -/
theorem test_idiv_corner : value (.idiv u .quoS 5 6 7) [(6, 0, 0x80000000), (7, 0, 0xFFFFFFFF)] = some [0x80000000] := by decide
theorem test_idiv_zero : value (.idiv u .remS 5 6 7) [(6, 0, 0xFFFFFFF9), (7, 0, 0)] = some [0xFFFFFFF9] := by decide
theorem test_imnx_signed : reg (.imnx u .minS 5 6 (.imm 0xFFFFF)) 1 [(6, 0, 1)] 5 0 = some 0xFFFFFFFF := by decide
theorem test_iabs_saturates : reg (.iabs u .absSat 5 6) 1 [(6, 0, 0x80000000)] 5 0 = some 0x7FFFFFFF := by decide
theorem test_icmp_unsigned : reg (.icmp u .lt true 5 6 (.reg 7)) 1 [(6, 0, 1), (7, 0, 0xFFFFFFFF)] 5 0 = some 1 := by decide
theorem test_icmp_signed : reg (.icmp u .lt false 5 6 (.reg 7)) 1 [(6, 0, 1), (7, 0, 0xFFFFFFFF)] 5 0 = some 0 := by decide
theorem test_sel_takes_a : reg (.sel u false 5 6 7 8) 1 [(6, 0, 1), (7, 0, 2), (8, 0, 3)] 5 0 = some 1 := by decide
theorem test_sel_takes_b : reg (.sel u false 5 6 7 8) 1 [(6, 0, 1), (7, 0, 2), (8, 0, 2)] 5 0 = some 2 := by decide
/-- R61: the majority of three inputs is 0xE8; A AND (B OR C) is 0xA8. -/
theorem test_ltab_majority : reg (.ltab u 0xE8 5 6 7 8) 1 [(6, 0, 0xAA), (7, 0, 0xCC), (8, 0, 0xF0)] 5 0 = some 0xE8 := by decide
theorem test_ltab_and_or : reg (.ltab u 0xA8 5 6 7 8) 1 [(6, 0, 0xAA), (7, 0, 0xCC), (8, 0, 0xF0)] 5 0 = some 0xA8 := by decide
/-- R62: a clamped count of the width gives the sign fill; a funnel takes v[C] as the low word. -/
theorem test_shf_clamp : reg (.shf u .a true 5 6 (.reg 7) 0) 1 [(6, 0, 0x80000000), (7, 0, 99)] 5 0 = some 0xFFFFFFFF := by decide
theorem test_shf_funnel : reg (.shf u .fl false 5 6 (.imm 8) 8) 1 [(6, 0, 0x12345678), (8, 0, 0x9ABCDEF0)] 5 0 = some 0x3456789A := by decide
theorem test_bfx_sign : reg (.bfx u true 5 6 (.imm 4 4)) 1 [(6, 0, 0x80)] 5 0 = some 0xFFFFFFF8 := by decide
theorem test_bfi_inserts : reg (.bfi u 5 6 (.imm 8 8) 8) 1 [(6, 0, 0xAB), (8, 0, 0xFFFFFFFF)] 5 0 = some 0xFFFFABFF := by decide
theorem test_bitc_zero : reg (.bitc u .clz 5 6) 1 [] 5 0 = some 32 := by decide
theorem test_bitc_reverse : reg (.bitc u .brev 5 6) 1 [(6, 0, 1)] 5 0 = some 0x80000000 := by decide
theorem test_bperm_order : reg (.bperm u 5 6 7 8) 1 [(6, 0, 0x33221100), (7, 0, 0x77665544), (8, 0, 0x0123)] 5 0 = some 0x00112233 := by decide
theorem test_iaddw_carries : pair (.iaddw u .z32 4 6 (.reg 8)) [(6, 0, 0xFFFFFFFF), (8, 0, 1)] 4 = some 0x100000000 := by decide
theorem test_shfw_crosses : pair (.shfw u .l false 4 6 (.imm 32)) [(6, 0, 5)] 4 = some 0x500000000 := by decide
theorem test_icmpw_high : reg (.icmpw u .lt false 5 6 (.reg 8)) 1 [(7, 0, 0xFFFFFFFF)] 5 0 = some 1 := by decide
theorem test_lea_scales : pair (.lea u true 2 4 6 8) [(6, 0, 0x1000), (8, 0, 0xFFFFFFFF)] 4 = some 0xFFC := by decide
theorem test_mov_quad : reg (.mov u .w128 4 8) 1 [(11, 0, 9)] 7 0 = some 9 := by decide
theorem test_movi_all_bits : reg (.movi false 5 0xDEADBEEF) 1 [] 5 0 = some 0xDEADBEEF := by decide
theorem test_idot_signed : reg (.idot u false true true false 5 6 7 8) 1 [(6, 0, 0xFF020304), (7, 0, 0x01010101), (8, 0, 10)] 5 0 = some 18 := by decide
theorem test_cvti_extends : pair (.cvti u .s64s32 4 6) [(6, 0, 0x80000000)] 4 = some 0xFFFFFFFF80000000 := by decide
theorem test_sread_lane : reg (.sread u .lane 5) 8 [] 5 3 = some 3 := by decide
theorem test_sread_clock_is_late : (outs (.sread u .clock 4) 1 []).map (·.length) = some 2 := by decide
theorem test_nop_goes_on : pc (.nop u) 1 [] 0 = some 0x10008 ∧ pc (.nop u) 1 [] 1 = some 0x10000 := by decide
/-- R37: both halves read before either writes. -/
theorem test_pair_reads_first : reg (.pairedWord false (.reg .mov 1 2) (.reg .mov 2 1)) 1 [(1, 0, 11), (2, 0, 22)] 1 0 = some 22 ∧
    reg (.pairedWord false (.reg .mov 1 2) (.reg .mov 2 1)) 1 [(1, 0, 11), (2, 0, 22)] 2 0 = some 11 := by decide
theorem test_illegal_faults : fault (.illegal 0 false) 3 [] = some (.illegal, 3, 0) := by decide
/-- A guarded-off lane writes nothing (R28). -/
theorem test_guard : reg (.movi false 5 7) 1 [(5, 1, 4)] 5 1 = some 4 ∧ reg (.mov (g 9) .w32 5 6) 3 [(6, 0, 1), (6, 1, 1), (9, 1, 1)] 5 0 = some 0 ∧
    reg (.mov (g 9) .w32 5 6) 3 [(6, 0, 1), (6, 1, 1), (9, 1, 1)] 5 1 = some 1 := by decide

/-! ### The floating-point class -/

theorem test_meets_FloatArithmeticComplete : allIssue [.fadd u true .rd true 5 6 7, .fmul u .rz false 5 6 7, .ffma u true true .ru true 5 6 7 8, .fdiv u .rn false 5 6 7] = true := by decide
theorem test_meets_FloatComparesAndCodesComplete : allIssue [.fmnx u true 5 6 7, .fcmp u .un true 5 6 7, .fclass u .bf16 5 6, .fquant u .hs4 7 true 5 6 7 8,
  .fdeq u .st6 3 .ru true 5 6 7] = true := by decide
theorem test_meets_FloatConversionsComplete : allIssue [.frint u .ru true 5 6, .fscale u .rd true 5 6 7, .cvtf u .f16f32 .rz true 5 6, .cvtfi u .z64 .f16 .rn true 4 6,
  .cvtif u .s64 .bf16 .rd 5 6] = true := by decide
theorem test_meets_PackedFloatComplete : allIssue [.paddh u true .rn true 5 6 7, .pmulh u false .rz false 5 6 7, .pfmah u false .rn false 5 6 7 8,
  .pmnxh u true true 5 6 7, .fdot2 u true .rn false 5 6 7 8] = true := by decide
theorem test_meets_SpecialFunctionsAndHelpersComplete : allIssue [.fsfu u .tanh true 5 6, .fexpd u true 5 6 7, .flse u 4 6 8, .ftwosum u 4 6 7] = true := by decide

theorem test_fadd : reg (.fadd u false .rn false 5 6 7) 1 [(6, 0, 0x3F800000), (7, 0, 0x40000000)] 5 0 = some 0x40400000 := by decide
/-- R83: an exact zero sum of unlike signs is −0 under .RD. -/
theorem test_fadd_zero_sign : reg (.fadd u true .rd false 5 6 7) 1 [(6, 0, 0x3F800000), (7, 0, 0x3F800000)] 5 0 = some 0x80000000 := by decide
theorem test_fmul_overflow_rz : reg (.fmul u .rz false 5 6 7) 1 [(6, 0, 0x7F7FFFFF), (7, 0, 0x40000000)] 5 0 = some 0x7F7FFFFF := by decide
theorem test_fmul_zero_inf : reg (.fmul u .rn false 5 6 7) 1 [(6, 0, 0), (7, 0, 0x7F800000)] 5 0 = some 0x7FC00000 := by decide
/-- (1 + 2^−23)² − (1 + 2^−22) is 2^−46: the product is not rounded before the sum. -/
theorem test_ffma_exact : reg (.ffma u false true .rn false 5 6 7 8) 1 [(6, 0, 0x3F800001), (7, 0, 0x3F800001), (8, 0, 0x3F800002)] 5 0 = some 0x28800000 := by decide
theorem test_fdiv_third : value (.fdiv u .rn false 5 6 7) [(6, 0, 0x3F800000), (7, 0, 0x40400000)] = some [0x3EAAAAAB] := by decide
theorem test_fmnx_zeros : reg (.fmnx u true 5 6 7) 1 [(6, 0, 0x80000000), (7, 0, 0)] 5 0 = some 0 := by decide
theorem test_fmnx_nan : reg (.fmnx u false 5 6 7) 1 [(6, 0, 0x7FC00000), (7, 0, 0x3F800000)] 5 0 = some 0x3F800000 := by decide
theorem test_fcmp_nan : reg (.fcmp u .ne false 5 6 7) 1 [(6, 0, 0x7FC00000)] 5 0 = some 1 ∧ reg (.fcmp u .ge false 5 6 7) 1 [(6, 0, 0x7FC00000)] 5 0 = some 0 := by decide
theorem test_fclass_subnormal : reg (.fclass u .f32 5 6) 1 [(6, 0, 1)] 5 0 = some 0x20 := by decide
theorem test_frint_even : reg (.frint u .rn false 5 6) 1 [(6, 0, 0x40200000)] 5 0 = some 0x40000000 := by decide
theorem test_fscale : reg (.fscale u .rn false 5 6 7) 1 [(6, 0, 0x3FC00000), (7, 0, 0xFFFFFFFF)] 5 0 = some 0x3F400000 := by decide
theorem test_cvtf_narrows : reg (.cvtf u .f16f32 .rn false 5 6) 1 [(6, 0, 0x3F800000)] 5 0 = some 0x3C00 := by decide
/-- R75: 1.0 in ST8 lies in the middle of the positive codes. -/
theorem test_cvtf_tapered : reg (.cvtf u .st8f32 .rn false 5 6) 1 [(6, 0, 0x3F800000)] 5 0 = some 0x40 := by decide
theorem test_cvtfi_saturates : reg (.cvtfi u .s32 .f32 .rz false 5 6) 1 [(6, 0, 0x4F000000)] 5 0 = some 0x7FFFFFFF := by decide
theorem test_cvtif_even : reg (.cvtif u .z32 .f32 .rn 5 6) 1 [(6, 0, 16777217)] 5 0 = some 0x4B800000 := by decide
theorem test_paddh : reg (.paddh u false .rn false 5 6 7) 1 [(6, 0, 0x3C003C00), (7, 0, 0x40003C00)] 5 0 = some 0x42004000 := by decide
theorem test_pmulh : reg (.pmulh u false .rn false 5 6 7) 1 [(6, 0, 0x40003C00), (7, 0, 0x4000C000)] 5 0 = some 0x4400C000 := by decide
theorem test_pfmah : reg (.pfmah u false .rn false 5 6 7 8) 1 [(6, 0, 0x4000), (7, 0, 0x4000), (8, 0, 0x3C00)] 5 0 = some 0x4500 := by decide
theorem test_pmnxh : reg (.pmnxh u false true 5 6 7) 1 [(6, 0, 0x3C00C000), (7, 0, 0x4000BC00)] 5 0 = some 0x4000BC00 := by decide
theorem test_fdot2 : reg (.fdot2 u false .rn false 5 6 7 8) 1 [(6, 0, 0x40003C00), (7, 0, 0x40003C00), (8, 0, 0x3F800000)] 5 0 = some 0x40C00000 := by decide
/-- R77: 0.75 in half-steps of 1 is the code 0, which stands for 0.5. -/
theorem test_fquant_half_step : reg (.fquant u .hs8 1 false 5 6 7 8) 1 [(6, 0, 0x3F400000), (7, 0, 0x3F800000), (8, 0, 0xFFFFFFFF)] 5 0 = some 0xFFFF00FF := by decide
theorem test_fquant_traps : fault (.fquant u .hs8 1 true 5 6 7 8) 3 [(6, 0, 0x7FC00000), (6, 1, 0), (7, 0, 0x3F800000), (7, 1, 0x3F800000)] =
    some (.mfmt, 1, 0xFF) := by decide
theorem test_fdeq_half_step : reg (.fdeq u .hs8 0 .rn false 5 6 7) 1 [(6, 0, 0xFF), (7, 0, 0x40000000)] 5 0 = some 0xBF800000 := by decide
/-- R87: the reciprocal of 3 and 2^3. -/
theorem test_fsfu_rcp : value (.fsfu u .rcp false 5 6) [(6, 0, 0x40400000)] = some [0x3EAAAAAB] := by decide
theorem test_fsfu_ex2 : value (.fsfu u .ex2 false 5 6) [(6, 0, 0x40400000)] = some [0x41000000] := by decide
/-- The examples of R97, R98 and R99. -/
theorem test_fexpd : reg (.fexpd u false 5 6 7) 1 [(6, 0, 0x40400000), (7, 0, 0x40A00000)] 5 0 = some 0x3E800000 := by decide
theorem test_flse : pair (.flse u 4 6 8) [(6, 0, 0x40800000), (7, 0, 0x40400000), (8, 0, 0x40C00000), (9, 0, 0x3F800000)] 4 = some 0x3FE0000040C00000 := by decide
theorem test_ftwosum : pair (.ftwosum u 4 6 7) [(6, 0, 0x4CBEBC20), (7, 0, 0x3F800000)] 4 = some 0x3F8000004CBEBC20 := by decide

/-! ### Control -/

theorem test_meets_ControlTransfersComplete : allIssue [.bra u 5, .brx u 6, .call u 4 5, .callx u 4 6, .ret u 6, .exit u, .yieldl false] = true := by decide
theorem test_meets_LaneWordsComplete : allIssue [.vote u .mask 5 6 none, .shfl u .lane false true 4 6 (.reg 8) none, .wred u .fadd 5 6 none, .wscan u .add true 5 6 none,
    .matchw u .peers true 5 6 none, .elect u 5 none, .wsync u none] = true := by decide
/-- A right mask and a wrong one (R116). -/
theorem test_meets_mask : (let s := running (.elect u 5 (some 9)) 3 [(9, 0, 3)]
    ∃ e, Issues (.elect u 5 (some 9)) s e ∧ leader e.live = some 0 ∧ e.v s 9 0 = 3) :=
  ⟨_, ⟨rfl, by decide, by decide, by decide, by decide⟩, by decide, by decide⟩
/-- R32's offsets: −3 goes back three words from the branch itself. -/
theorem test_bra_back : pc (.bra u 0xFFFFFD) 1 [] 0 = some 0xFFE8 ∧ pc (.bra u 0xFFFFFD) 1 [] 1 = some 0x10000 := by decide
theorem test_bra_guarded_off_goes_on : pc (.bra (g 7) 5) 1 [] 0 = some 0x10008 := by decide
theorem test_brx : pc (.brx u 6) 1 [(6, 0, 0x20000)] 0 = some 0x20000 := by decide
theorem test_call_links : pair (.call u 4 2) [] 4 = some 0x10008 ∧ pc (.call u 4 2) 1 [] 0 = some 0x10010 := by decide
/-- The target is read before the link is written, to the same pair. -/
theorem test_callx_same_pair : pc (.callx u 6 6) 1 [(6, 0, 0x20000)] 0 = some 0x20000 ∧ pair (.callx u 6 6) [(6, 0, 0x20000)] 6 = some 0x10008 := by decide
theorem test_ret : pc (.ret u 6) 1 [(6, 0, 0x30000)] 0 = some 0x30000 := by decide
theorem test_exit : ((warpAfter (.exit u) (running (.exit u) 5 [])).map fun w => w.lanes.map (·.exited)) =
    some ([true, false, true] ++ List.replicate 29 false) := by decide
theorem test_yieldl : ((warpAfter (.yieldl false) (running (.yieldl false) 1 [])).bind fun w => (w.lanes[0]?).map (·.yields)) = some 64 := by decide
theorem test_vote_mask : outs (.vote u .mask 5 6 none) 3 [(6, 1, 1)] = some [.value 0 5 2, .value 1 5 2] := by decide
/-- The case of R116: members 0 to 3 of lanes 0 to 7; lane 4 receives its own value. -/
theorem test_vote_members : (outs (.vote u .some 5 6 (some 9)) 0xFF [(9, 0, 0xF), (6, 3, 1), (6, 4, 8)]).map (fun l => l.drop 3 |>.take 2) =
    some [.value 3 5 1, .value 4 5 8] := by decide
theorem test_shfl_above : outs (.shfl u .above false false 5 6 (.imm 1) none) 3 [(6, 0, 10), (6, 1, 11)] = some [.value 0 5 11, .value 1 5 11] := by decide
theorem test_wred_add : outs (.wred u .add 5 6 none) 7 [(6, 0, 1), (6, 1, 2), (6, 2, 4)] = some [.value 0 5 7, .value 1 5 7, .value 2 5 7] := by decide
theorem test_wscan_exclusive : outs (.wscan u .add true 5 6 none) 7 [(6, 0, 1), (6, 1, 2), (6, 2, 4)] = some [.value 0 5 0, .value 1 5 1, .value 2 5 3] := by decide
theorem test_match_peers : outs (.matchw u .peers false 5 6 none) 7 [(6, 0, 4), (6, 1, 2), (6, 2, 4)] = some [.value 0 5 5, .value 1 5 2, .value 2 5 5] := by decide
theorem test_elect : reg (.elect u 5 none) 6 [] 5 1 = some 1 ∧ reg (.elect u 5 none) 6 [(5, 2, 9)] 5 2 = some 0 := by decide
theorem test_elect_bad_mask : fault (.elect u 5 (some 9)) 3 [(9, 0, 3)] = none ∧ fault (.elect u 5 (some 9)) 3 [(9, 0, 6)] = some (.wmask, 3, 6) := by decide
theorem test_wsync : pc (.wsync u none) 1 [] 0 = some 0x10008 := by decide
theorem test_brkpt_faults : fault (.brkpt u 7) 1 [] = some (.swtrap, 1, 7) := by decide

/-! ### The work class -/

/-- The placed state with its group changed. -/
def withGroup (f : Group → Group) : State := modGroup placed 0 f
def withWarp (f : Warp → Warp) : State := modWarp placed 0 0 f
def all32 : Mask := 0xFFFFFFFF

theorem test_meets_TemplateAndGrowthWordsComplete : allIssue [.freeze false 6, .tnest false, .tsignal false 6, .rgrow false 32, .rshrink false 31] = true := by decide
theorem test_meets_BarrierWordsComplete : allIssue [.gbar false 1, .garrive false 5 1, .gangbar false, .gwait u 6 1] = true := by decide
theorem test_meets_LaunchYieldSleepComplete : allIssue [.launch u 5 6, .yield false, .sleep u 6] = true := by decide

theorem test_freeze_plain : fault (.freeze false 6) all32 [] = some (.template, all32, 0) := by decide
theorem test_freeze_holds : holdsIn (.freeze false 6) (inIssue (.freeze false 6) all32 (modWarp (withGroup fun x => { x with kind := .prologue }) 0 0 (setRegs [(6, 0, 5)]))) =
    some [(.freeze 5, all32)] := by decide
theorem test_tnest_needs_instance : fault (.tnest false) all32 [] = some (.template, all32, 0) := by decide
theorem test_tnest_depth : faultIn (.tnest false) (inIssue (.tnest false) all32 (withGroup fun x => { x with kind := .instance_ 3, depth := 3 })) =
    some (.depth, all32, 0) := by decide
theorem test_tsignal_align : fault (.tsignal false 6) 1 [(6, 0, 2)] = some (.align, 1, 2) := by decide
theorem test_tsignal_records : ((after (.tsignal false 6) (inIssue (.tsignal false 6) 1 (modWarp (withGroup fun x => { x with kind := .nested 3 }) 0 0
    (setRegs [(6, 0, 0x40)])))).bind fun t => (group? t 0).bind (·.tsignal)) = some 0x40 := by decide
def granted (i : Instr) (s : State) : Option Nat := (after i s).bind fun t => (group? t 0).map (·.granted)
theorem test_rgrow_grows : granted (.rgrow false 32) (inIssue (.rgrow false 32) 1 (withGroup fun x => { x with granted := 64 })) = some 256 := by decide
theorem test_rgrow_below : granted (.rgrow false 4) (running (.rgrow false 4) 1 []) = some 256 := by decide
theorem test_rshrink_shrinks : granted (.rshrink false 4) (running (.rshrink false 4) 1 []) = some 32 := by decide
theorem test_rshrink_pending : faultIn (.rshrink false 4) (inIssue (.rshrink false 4) 1 (withWarp fun w => { w with pending := [32 * 40 + 7] })) =
    some (.hazard, 1, 40) := by decide
theorem test_gbar_holds : holdsIn (.gbar false 1) (running (.gbar false 1) all32 []) = some [(.barrier 1 0, all32)] := by decide
theorem test_gbar_apart : fault (.gbar false 1) 1 [] = some (.bardiv, 1, 1) := by decide
theorem test_garrive_phase : ((after (.garrive false 5 1) (inIssue (.garrive false 5 1) all32 (withGroup fun x =>
    { x with bars := modAt x.bars 1 fun b => { b with phase := 9 } }))).map fun t => (regAt t 0 0 5 31, ((group? t 0).map fun x => (bar x 1).arrived))) =
    some (9, some [0]) := by decide
theorem test_gangbar_holds : holdsIn (.gangbar false) (running (.gangbar false) all32 []) = some [(.gang 0, all32)] := by decide
theorem test_gwait_waits : holdsIn (.gwait u 6 1) (running (.gwait u 6 1) 3 []) = some [(.rearrive 1 0, 3)] := by decide
theorem test_gwait_past : pc (.gwait u 6 1) 1 [(6, 0, 0xFFFFFFFF)] 0 = some 0x10008 := by decide
theorem test_launch_credits : ((after (.launch u 5 6) (running (.launch u 5 6) 0x3F [])).map fun t => ((Machine.core t 0).launches.length, regAt t 0 0 5 3, regAt t 0 0 5 4)) =
    some (4, 1, 0) := by decide
theorem test_launch_align : fault (.launch u 5 6) 3 [(6, 1, 0x20)] = some (.align, 2, 0x20) := by decide
theorem test_yield : ((warpAfter (.yield false) (running (.yield false) 1 [])).map (·.yielding)) = some none := by decide
theorem test_sleep_holds : holdsIn (.sleep u 6) (running (.sleep u 6) 3 []) = some [(.sleep, 3)] := by decide

/-! ### Traps -/

theorem test_meets_SoftwareTrapsComplete : allIssue [.trap u 5, .brkpt u 7] = true ∧ (env? (.illegal 0 false) (running (.illegal 0 false) 1 [])).isSome = true := by decide
theorem test_trap : fault (.trap (g 7) 5) 3 [(7, 1, 1)] = some (.swtrap, 2, 5) := by decide
theorem test_brkpt_halts : holdsIn (.brkpt u 7) (inIssue (.brkpt u 7) 1 { placed with ctxs := sput placed.ctxs 1 { placedCtx with dbg := 1 } }) =
    some [(.brkpt, 1)] := by decide

/-! ### Scheduler words -/

/-- A graph of a stage set with one queue and a node after it. -/
def aCmd : Cmd := { fn := 0, queue := 0, slot := 0, op := 4, ordered := false, ctx := 1, id := 9, args := [] }
def aNode : Node := { kind := 0, prio := 0, warps := 1, gangN := 1, count := 1, code := 0x10000, args := 0, split := 0x3004, regs := 8, feat := 1, spm := 0, deps := 0
                      k40 := 0, k48 := 0, k52 := 0, k56 := 0, k64 := 0, succ := [0x8001, 0xFFFF, 1], word := 0, life := .running, sat := [], sent := [], gens := []
                      iter := 0, adopted := none, active := [], looping := false, grid := some 7 }
def aStage : Stage := { code := 0x10000, args := 0, min := 1, max := 1, split := 0x3004, regs := 8, warps := 1, spm := 0, qin := 0xFFFF, qout := 0, feat := 1, grid := some 7, done := false }
def aGraph (q : List Queue) : Graph :=
  { id := 3, cmd := aCmd, ctx := 1, fixed := false, nodes := [{ aNode with kind := 2 }, { aNode with life := .waiting, deps := 1, succ := [], grid := none }]
    queues := q, stages := [(0, [aStage])], slotCmds := [], recorded := [], failed := none, cancelled := false, ended := false }
/-- The placed state where the group runs a stage of that graph. -/
def staged (q : List Queue) : State := { placed with graphs := [aGraph q], grids := [{ nodeGrid (aGraph q) 0 aNode 0 with stage := some 0 }] }
def aQueue : Queue := { ring := 0x20000, cap := 4, head := 1, tail := 2, closed := false }
def pushing (q : Queue) (m : Mask) : State := inIssue (.qpush u .w32 0 6) m (modWarp (staged [q]) 0 0 (setRegs [(6, 0, 0xAB), (6, 1, 0xCD)]))
def popping (q : Queue) (m : Mask) : State := inIssue (.qpop u .w32 0 4 5) m (staged [q])
def queueAfter (i : Instr) (s : State) : Option (Nat × Nat × Bool) :=
  (after i s).bind fun t => (graph? t 3).bind fun x => (x.queues[0]?).map fun q => (q.head, q.tail, q.closed)

theorem test_meets_SchedulerWordsComplete : issuesNow (.qpush u .w32 0 6) (pushing aQueue 3) = true ∧ issuesNow (.qpop u .w32 0 4 5) (popping aQueue 1) = true ∧
    issuesNow (.qclose u 0) (inIssue (.qclose u 0) 1 (staged [aQueue])) = true ∧ issuesNow (.nodesig u 0) (inIssue (.nodesig u 0) 1 (staged [aQueue])) = true ∧
    ((group? placed 0).bind fun x => queue? (staged [aQueue]) x 0) = some (3, aQueue) := by decide
theorem test_qpush_reserves : queueAfter (.qpush u .w32 0 6) (pushing aQueue 3) = some (1, 4, false) := by decide
/-- The entry after the tail, at 16 bytes an entry: the second lane's word and zeros. -/
theorem test_qpush_stores : ((after (.qpush u .w32 0 6) (pushing aQueue 3)).map fun t => leNat (viewBytes t 0 0 0x20030 16)) = some 0xCD := by decide
theorem test_qpush_waits : holdsIn (.qpush u .w32 0 6) (pushing { aQueue with tail := 5 } 1) = some [(.qpush, 1)] := by decide
theorem test_qpush_closed : faultIn (.qpush u .w32 0 6) (pushing { aQueue with closed := true } 1) = some (.qclosed, 1, 0) := by decide
theorem test_qpop_takes : queueAfter (.qpop u .w32 0 4 5) (popping aQueue 1) = some (2, 2, false) ∧
    ((after (.qpop u .w32 0 4 5) (popping aQueue 1)).map fun t => regAt t 0 0 5 0) = some 1 := by decide
theorem test_qpop_empty_closed : ((after (.qpop u .w32 0 4 5) (popping { aQueue with closed := true, head := 2 } 1)).map fun t => regAt t 0 0 5 0) = some 0 := by decide
theorem test_qclose : queueAfter (.qclose u 0) (inIssue (.qclose u 0) 1 (staged [aQueue])) = some (1, 2, true) := by decide
theorem test_queue_missing : faultIn (.qclose u 1) (inIssue (.qclose u 1) 1 (staged [aQueue])) = some (.prot, 1, 0) := by decide
theorem test_nodesig_makes_ready : ((after (.nodesig u 0) (inIssue (.nodesig u 0) 1 (staged [aQueue]))).bind fun t => (node? t 3 1).map fun n => (n.life, n.sat)) =
    some (.ready, [0]) := by decide

/-! ### The memory class -/

/-- A byte of memory as die 0 sees it, and words of it. -/
def seen (i : Instr) (s : State) (a n : Nat) : Option Nat := (after i s).map fun t => leNat (viewBytes t 0 0 a n)
/-- The registers with memory that holds bytes at 0x20000 and a scratchpad of 64 bytes. -/
def withData (i : Instr) (m : Mask) (rs : List (Nat × Nat × Word)) (bs : List Byte) : State :=
  inIssue i m (modGroup (modWarp { placed with mem := (bs.zipIdx.foldl (fun v b => memPut v (0x20000 + b.2) b.1) placed.mem) } 0 0 (setRegs rs)) 0
    fun x => { x with spmSize := 64, spm := bs.zipIdx.map fun b => (b.2, b.1) })
def loaded (i : Instr) (rs : List (Nat × Nat × Word)) (bs : List Byte) : Option (List Word) :=
  (warpAfter i (withData i 1 rs bs)).map fun w => w.outs.filterMap fun o => match o with | .value _ _ v => some v | _ => none
def m8 : MemMod := { m32 with size := .b8, sx := true }

theorem test_meets_LoadsComplete : (let s := withData (.ld u m32 4 6 0) 1 [(6, 0, 0x20000)] [1, 2, 3, 4]
    issuesNow (.ld u m32 4 6 0) s = true ∧ issuesNow (.lds u m32 4 6 0) s = true ∧
    ((env? (.ld u m32 4 6 0) s).bind fun e => match memLeaf s e 0x20000 4 0 1 with | .ok x => some (x.space, x.addr, eccHit s 0 x.space x.addr 4) | .error _ => none) =
      some (0, 0x20000, false)) := by decide
theorem test_ld_word : loaded (.ld u m32 4 6 0) [(6, 0, 0x20000)] [1, 2, 3, 4] = some [0x04030201] := by decide
theorem test_ld_sign : loaded (.ld u m8 4 6 0xFF) [(6, 0, 0x20003)] [1, 2, 0x83, 4] = some [0xFFFFFF83] := by decide
theorem test_ld_pending : ((warpAfter (.ld u m32 4 6 0) (withData (.ld u m32 4 6 0) 1 [(6, 0, 0x20000)] [])).map (·.pending)) = some [128] := by decide
theorem test_ld_misaligned : fault (.ld u m32 4 6 0) 1 [(6, 0, 0x20002)] = some (.align, 1, 0x20002) := by decide
/-- Nothing is mapped at the second GiB: a PAGE fault halts the group to be saved (R191). -/
theorem test_ld_page : ((after (.ld u m32 4 6 0) (modGroup (running (.ld u m32 4 6 0) 1 [(6, 0, 0x40000000)]) 0 fun x => { x with granted := 8 })).bind fun t =>
     (group? t 0).map fun x => (x.life, x.cause, x.waitVa)) =
    some (.halted, some .page, some (0x40000000, 0, false)) := by decide +kernel
theorem test_lds_quad : loaded (.lds u { m32 with size := .b64 } 4 6 1) [(6, 0, 0)] [0, 0, 0, 0, 0, 0, 0, 0, 5, 0, 0, 0, 6] = some [5, 6] := by decide
theorem test_lds_bounds : faultIn (.lds u m32 4 6 0) (withData (.lds u m32 4 6 0) 1 [(6, 0, 64)] []) = some (.prot, 1, 64) := by decide

theorem test_meets_StoreWordsComplete : (let s := running (.st u m32 7 4 0) 1 [(4, 0, 0x20000)]
    issuesNow (.st u m32 7 4 0) s = true ∧ issuesNow (.sts u m32 7 6 0) (withData (.sts u m32 7 6 0) 1 [] []) = true ∧
    ((env? (.st u m32 7 4 0) s).map fun e => (match eachLane (storeLane e s m32 7 4 0) (lanesOf e.live) s with | ([], _, p) => p | _ => [])) = some [(0, (0, 0x20000))]) := by decide
theorem test_st_bytes : seen (.st u m32 7 4 1) (running (.st u m32 7 4 1) 1 [(4, 0, 0x20000), (7, 0, 0xAABBCCDD)]) 0x20003 6 = some 0x00AABBCCDD00 := by decide
/-- Two lanes store to one word: the higher lane prevails (R9). -/
theorem test_st_last_lane : seen (.st u m32 7 4 0) (running (.st u m32 7 4 0) 3 [(4, 0, 0x20000), (4, 1, 0x20000), (7, 0, 1), (7, 1, 2)]) 0x20000 4 = some 2 := by decide
theorem test_sts : ((after (.sts u m32 7 6 0) (withData (.sts u m32 7 6 0) 1 [(6, 0, 60), (7, 0, 0x11223344)] [])).map fun t => spmAt t 0 63) = some 0x11 := by decide

theorem test_meets_LinesAndAddressesComplete : issuesNow (.taddr u false 4 6 8) (running (.taddr u false 4 6 8) 1 []) = true ∧
    allIssue [.pref u 0 true 6 0, .zfill u false .dev 6 0, .cflush u .disc true 6 0, .mapq u false 4 8] = true := by decide
theorem test_pref_nothing : pc (.pref u 0 true 6 0) 1 [(6, 0, 0x20000)] 0 = some 0x10008 := by decide
theorem test_zfill_line : seen (.zfill u false .dev 6 0) (withData (.zfill u false .dev 6 0) 1 [(6, 0, 0x20000)] [1, 2, 3]) 0x20000 4 = some 0 := by decide
theorem test_zfill_needs_line : fault (.zfill u false .dev 6 0) 1 [(6, 0, 0x20010)] = some (.align, 1, 0x20010) := by decide
/-- R204: a cleaned line is in memory, a dropped one as memory had it. -/
def cached : State := modWarp { placed with l2 := [(0x20000, 7)] } 0 0 (setRegs [(6, 0, 0x20000)])
theorem test_cflush_cleans : ((after (.cflush u .wb true 6 0) (inIssue (.cflush u .wb true 6 0) 1 cached)).map fun t => (memByte t.mem 0x20000, t.l2)) = some (7, []) := by decide
theorem test_cflush_invalidates : ((after (.cflush u .inv true 6 0) (inIssue (.cflush u .inv true 6 0) 1 cached)).map fun t => homeByte t 0 0x20000) = some 7 := by decide
theorem test_mapq : loaded (.mapq u false 4 8) [(8, 0, 0x20000)] [] = some [0x6F, 0, 0, 0] := by decide
theorem test_mapq_missing : loaded (.mapq u false 4 8) [(8, 0, 0x40000000)] [] = some [0, 0, 0, 0] := by decide

/-! ### Atomics and waiting -/

def at32 : AtMod := { ord := .plain, scope := .dev, wide := false }
def d0 (n : Nat) : Nat × Nat × Word := (6, n, 0x20000)

theorem test_meets_AtomicsComplete : (let s := withData (.aadd u at32 .int (.mem 6) 0 8 (some 4)) 3 [d0 0, d0 1] [5]
    issuesNow (.aadd u at32 .int (.mem 6) 0 8 (some 4)) s = true ∧ issuesNow (.amnx u at32 .maxZ (.mem 6) 0 8 none) s = true ∧
    issuesNow (.alog u at32 .xor (.spm 9) 0 8 (some 4)) s = true ∧ issuesNow (.axch u at32 (.mem 6) 0 8 (some 4)) s = true ∧
    issuesNow (.acas u at32 (.mem 6) 0 8 (some 4)) s = true ∧ issuesNow (.ainc u at32 true (.mem 6) 0 8 none) s = true ∧
    ((env? (.aadd u at32 .int (.mem 6) 0 8 (some 4)) s).map fun e => match eachLane (fun t l => rmwPlace t e (.mem 6) 0 4 l) (lanesOf e.live) s with
      | ([], t, p) => (rmwRun e at32 4 false (fun _ => 1) (fun old x => old + x) p t).2 | _ => ([], none)) = some ([(0, 5), (1, 6)], none)) := by decide
/-- Lanes run in increasing order: each returns the value the one before it left. -/
theorem test_aadd_returns : ((warpAfter (.aadd u at32 .int (.mem 6) 0 8 (some 4)) (withData (.aadd u at32 .int (.mem 6) 0 8 (some 4)) 3 [d0 0, d0 1, (8, 0, 10), (8, 1, 100)] [5])).map
    (·.outs)) = some [.value 0 4 5, .value 1 4 15] := by decide
theorem test_aadd_stores : seen (.aadd u at32 .int (.mem 6) 0 8 none) (withData (.aadd u at32 .int (.mem 6) 0 8 none) 3 [d0 0, d0 1, (8, 0, 10), (8, 1, 100)] [5]) 0x20000 4 =
    some 115 := by decide
theorem test_amnx_signed : seen (.amnx u at32 .minS (.mem 6) 0 8 none) (withData (.amnx u at32 .minS (.mem 6) 0 8 none) 1 [d0 0, (8, 0, 0xFFFFFFFF)] [5]) 0x20000 4 = some 0xFFFFFFFF := by decide
theorem test_alog_xor : ((after (.alog u at32 .xor (.spm 9) 0 8 none) (withData (.alog u at32 .xor (.spm 9) 0 8 none) 1 [(9, 0, 4), (8, 0, 0xFF)] [0, 0, 0, 0, 0x0F])).map
    fun t => spmAt t 0 4) = some 0xF0 := by decide
theorem test_axch : seen (.axch u at32 (.mem 6) 0 8 none) (withData (.axch u at32 (.mem 6) 0 8 none) 1 [d0 0, (8, 0, 9)] [5]) 0x20000 4 = some 9 := by decide
/-- R210: the comparand is the low half of the operand pair, the new value the high half. -/
theorem test_acas_swaps : seen (.acas u at32 (.mem 6) 0 8 none) (withData (.acas u at32 (.mem 6) 0 8 none) 1 [d0 0, (8, 0, 5), (9, 0, 77)] [5]) 0x20000 4 = some 77 := by decide
theorem test_acas_keeps : seen (.acas u at32 (.mem 6) 0 8 none) (withData (.acas u at32 (.mem 6) 0 8 none) 1 [d0 0, (8, 0, 6), (9, 0, 77)] [5]) 0x20000 4 = some 5 := by decide
theorem test_ainc_wraps : seen (.ainc u at32 false (.mem 6) 0 8 none) (withData (.ainc u at32 false (.mem 6) 0 8 none) 3 [d0 0, d0 1, (8, 0, 6), (8, 1, 6)] [5]) 0x20000 4 = some 0 := by decide
theorem test_meets_ReadModifyWriteActs : (group? placed 0).isSome = true ∧
    ((env? (.nop u) (running (.nop u) 1 [])).map fun e => (rmwRun e at32 4 false (fun _ => 7) (fun old x => old + x) [(0, 0, 0x20000, 0x20000)] placed).2) = some ([(0, 0)], none) := by decide

theorem test_meets_FencesAndWaitsComplete : allIssue [.fence u .seq .sys, .waita u true .dev .geZ false (.mem 6) 5 8 (some 10), .wakea u true .dev false (.mem 6) 8] = true ∧
    issuesNow (.waita u false .grp .eq false (.spm 6) 5 8 none) (withData (.waita u false .grp .eq false (.spm 6) 5 8 none) 1 [] [1]) = true := by decide
/-- A pending write of lane 0. -/
def aWrite (l1 : Bool) : PendWrite := { die := 0, group := 0, warp := 0, lane := 0, addr := 0x20000, data := [7, 8], atL1 := l1, uncached := false
                                        level := 2, store := 0, half := 0, release := false, rel := none }
/-- A write of the warp that has not reached the L1: a fence of group scope waits, one at device scope performs it. -/
def storing (i : Instr) : State := inIssue i 1 { placed with pend := [{ aWrite false with data := [1] }] }
theorem test_fence_waits : holdsIn (.fence u .rel .grp) (storing (.fence u .rel .grp)) = some [(.fence .rel .grp, 1)] := by decide
theorem test_fence_device : pcIn (.fence u .rel .dev) (storing (.fence u .rel .dev)) 0 = some 0x10008 ∧
    ((after (.fence u .rel .dev) (storing (.fence u .rel .dev))).map fun t => homeByte t 0 0x20000) = some 1 := by decide
theorem test_wsync_waits : holdsIn (.wsync u none) (storing (.wsync u none)) = some [(.wsync 1, 1)] := by decide
theorem test_waita_met : ((after (.waita u false .grp .eq false (.spm 6) 5 8 none) (withData (.waita u false .grp .eq false (.spm 6) 5 8 none) 1 [(8, 0, 3)] [3])).map
    fun t => regAt t 0 0 5 0) = some 1 := by decide
theorem test_waita_holds : ((holdsIn (.waita u false .grp .eq false (.spm 6) 5 8 none) (withData (.waita u false .grp .eq false (.spm 6) 5 8 none) 1 [(8, 0, 4)] [3])).map
    (·.map (·.2))) = some [1] := by decide
theorem test_wakea_nobody : pc (.wakea u false .dev false (.mem 6) 8) 1 [d0 0] 0 = some 0x10008 := by decide

theorem test_meets_ByteCountWordsComplete : (let s := withData (.bcinit u false .dev false 6 7 0) 3 [(6, 1, 8)] []
    issuesNow (.bcinit u false .dev false 6 7 0) s = true ∧ issuesNow (.bcadd u false .dev false 6 7 0) s = true) := by decide
def barrierAfter (i : Instr) (rs : List (Nat × Nat × Word)) (bs : List Byte) : Option Nat :=
  (after i (withData i 1 rs bs)).map fun t => leNat ((List.range 8).map fun j => spmAt t 0 (8 + j))
theorem test_bcinit_zero_extends : barrierAfter (.bcinit u false .dev false 6 7 1) [(7, 0, 0xFFFFFFFF)] [] = some 0xFFFFFFFF := by decide
theorem test_bcadd_sign_extends : barrierAfter (.bcadd u false .dev false 6 7 1) [(7, 0, 0xFFFFFFFF)] [0, 0, 0, 0, 0, 0, 0, 0, 5] = some 4 := by decide

/-! ### The Orrery class -/

def leaf (v : Int) (i : Nat) : NodeVal := { v := v, i := i }
/-- A region of five integer leaves 3, 1, 4, 1, 5 with the sum as its aggregate. -/
def bare : Region := { ctx := 1, num := 7, die := 0, unit := 0, base := 0x20000, n := 5, ty := 1, agg := 0, delta := false, nonneg := true, backing := 0x28000, bsize := 0
                       leafPa := [(0x2, 0x20000)], backPa := [], applied := 0, leaves := [leaf 3 0, leaf 1 1, leaf 4 2, leaf 1 3, leaf 5 4], levels := [], recs := []
                       accs := [], building := false, began := 0, bound := true }
def region : Region := { bare with levels := buildLevels bare 14 bare.leaves }
def withRegion (i : Instr) (m : Mask) (rs : List (Nat × Nat × Word)) : State := inIssue i m { modWarp placed 0 0 (setRegs rs) with regions := [region] }

theorem test_meets_RangeLoadsComplete : (let s := withRegion (.ldrs u .s32 4 10 12) 1 [(10, 0, 7), (12, 0, 1), (13, 0, 4)]
    issuesNow (.ldrs u .s32 4 10 12) s = true ∧ issuesNow (.ldpfx u .s32 5 10 12 14) s = true ∧ issuesNow (.ldpick u .s32 5 10 12 14) s = true ∧
    issuesNow (.ldrm u .s32 false 4 10 12) s = true ∧ declared? s 1 7 = some region) := by decide
theorem test_meets_TreesAggregateAndAreKept : region.levels = buildLevels region 14 region.leaves ∧ region.leaves.length = region.n ∧ (region.leaves[1]?).map (·.v) = some 1 := by decide
theorem test_region_tree : (nodeAt region 1 0).v = 9 ∧ (nodeAt region 1 1).v = 5 ∧ (nodeAt region 2 0).v = 14 := by decide
/-- The sum of the leaves 1 to 3, and the first index at which the running sum from 0 exceeds 3. -/
theorem test_ldrs : answer region { region := 7, op := 0, ty := .s32, lo := 1, hi := 4, x := 0, time := 0 } = [6, 0] := by decide
theorem test_ldpfx : answer region { region := 7, op := 3, ty := .s32, lo := 0, hi := 5, x := 3, time := 0 } = [1] := by decide
theorem test_ldrs_undeclared : faultIn (.ldrs u .s32 4 10 12) (withRegion (.ldrs u .s32 4 10 12) 1 [(10, 0, 8)]) = some (.orreg, 1, 8) := by decide
theorem test_ldrs_range : faultIn (.ldrs u .s32 4 10 12) (withRegion (.ldrs u .s32 4 10 12) 1 [(10, 0, 7), (13, 0, 6)]) = some (.orrange, 1, 0) := by decide
theorem test_ldrm_needs_aggregate : faultIn (.ldrm u .s32 false 4 10 12) (withRegion (.ldrm u .s32 false 4 10 12) 1 [(10, 0, 7), (13, 0, 5)]) = some (.orreg, 1, 7) := by decide
theorem test_ldpick_draw : faultIn (.ldpick u .s32 5 10 12 14) (withRegion (.ldpick u .s32 5 10 12 14) 1 [(10, 0, 7), (13, 0, 5), (14, 0, 0x3F800000)]) =
    some (.orrange, 1, 0) := by decide
theorem test_meets_RegionAndTfenceWordsComplete : allIssue [.ordecl u 10, .orbuild u 10, .ordrop u 10, .tfence u (some 10), .tfence u none] = true := by decide
theorem test_orbuild_undeclared : fault (.orbuild u 10) 1 [(10, 0, 9)] = some (.orreg, 1, 9) := by decide
theorem test_ordrop_waits : holdsIn (.ordrop u 10) (withRegion (.ordrop u 10) 1 [(10, 0, 7)]) = some [(.region 7 2, 1)] := by decide
theorem test_orbuild_builds : ((after (.orbuild u 10) (withRegion (.orbuild u 10) 1 [(10, 0, 7)])).map fun t => t.regions.map (·.building)) = some [true] := by decide
theorem test_ordecl_bad_descriptor : fault (.ordecl u 10) 1 [(10, 0, 3)] = some (.prot, 1, 192) ∨ fault (.ordecl u 10) 1 [(10, 0, 3)] = some (.orreg, 1, 3) := by decide
theorem test_tfence_clear : pcIn (.tfence u (some 10)) (withRegion (.tfence u (some 10)) 1 [(10, 0, 7)]) 0 = some 0x10008 := by decide


/-! ### The tensor and matrix classes -/

/-- A dense F16 tensor of 96 × 64 elements at 0x30000, its columns 192 bytes apart (R274, R277). -/
def halves : Tensor := { base := 0x30000, format := 1, dims := 2, flags := 0x80, block := 0, tiles := [0, 0], sizes := [96, 64, 0, 0], strides := [12, 0, 0], rsv := 0, scale := 0, posns := 0 }
/-- Word i where the context's table at 0x20000 has the tensor as entry 3, and a scratchpad of 64 bytes holds the block. -/
def tabled (t : Tensor) (i : Instr) (m : Mask) (rs : List (Nat × Nat × Word)) (block : List Byte) : State :=
  inIssue i m (modGroup (modWarp { placed with ctxs := sput placed.ctxs 1 { placedCtx with tidbase := 0x20000 }
                                               mem := (tensorBytes t).zipIdx.foldl (fun v b => memPut v (0x200C0 + b.2) b.1) placed.mem } 0 0 (setRegs rs)) 0
    fun x => { x with spmSize := 64, spm := block.zipIdx.map fun b => (b.2, b.1) })
def withBlock (i : Instr) (block : List Byte) : State := tabled halves i 1 [] block

/-- R205: with the entry in the core's cache the address is there at once; without it the lane group waits for it. -/
def taddring : State := tabled halves (.taddr u false 4 6 8) 1 [(6, 0, 3), (8, 0, 5), (9, 0, 2)] []
def taddrHit : State := { taddring with entries := [(entryKey 0 1 3, tensorBytes halves)] }
theorem test_taddr_offset : ((after (.taddr u false 4 6 8) taddrHit).map fun t => (regAt t 0 0 4 0, regAt t 0 0 5 0)) =
    some (0x30000 + 2 * 5 + 192 * 2, 0) := by decide +kernel
theorem test_taddr_miss : ((warpAfter (.taddr u false 4 6 8) taddring).map fun w => (w.outs, w.holds.map (·.kind))) = some ([.entry 3], [.entry]) := by decide +kernel
theorem test_meets_TensorTableWordsComplete : (let s := tabled halves (.tidset u (.spm 6) 7) 1 [(7, 0, 5)] (tensorBytes halves)
    issuesNow (.tidset u (.spm 6) 7) s = true ∧ issuesNow (.tidinv u (some 7)) s = true ∧
    ((env? (.tidset u (.spm 6) 7) s).map fun e => match eachLane (tidsetLane e s (.spm 6) 7) (lanesOf e.live) s with | ([], u, _) => u.pend.map (·.addr) | _ => []) =
      some [0x20140] ∧ Tensor.malformed (tensorOf (zeros 64)) = true) := by decide +kernel
theorem test_tidset_stores : seen (.tidset u (.spm 6) 7) (tabled halves (.tidset u (.spm 6) 7) 1 [(7, 0, 5)] (tensorBytes halves)) 0x20140 11 = some 0x800201_0000000000030000 ∧
    faultIn (.tidset u (.spm 6) 7) (tabled halves (.tidset u (.spm 6) 7) 1 [(7, 0, 5)] []) = some (.tidbad, 1, 5) := by decide +kernel
theorem test_tidinv_clears_valid : seen (.tidinv u (some 7)) (tabled halves (.tidinv u (some 7)) 1 [(7, 0, 3)] []) 0x200CA 1 = some 0 := by decide +kernel

/-- Blocks of R293, R295 and R297: entry 3 into macro 2 with no barrier; two rows of entry 3 with the pair of slot 1 and macro 2; macro 2,
slot 1, two rows, to which the row selectors of an MPERM are added. -/
def loadBlock : List Byte := [3, 2, 0, 0] ++ zeros 16 ++ [255, 255, 255, 255] ++ zeros 40
def mulBlock : List Byte := [3, 1, 2, 0] ++ zeros 12 ++ [0x0A] ++ zeros 47
def streamBlock : List Byte := [2, 1, 1, 0] ++ zeros 60
def epiBlock : List Byte := [3, 1, 1, 1] ++ zeros 48 ++ [255, 255, 255, 255] ++ zeros 8
def tagged : TagRec := { tag := { ctx := 1, tid := 3, count := 0, k0 := 0, n0 := 0, i2 := 0, i3 := 0, gen := none }, entry := halves }
/-- The state with that tag recorded for macro 2. -/
def withTag (i : Instr) (block : List Byte) : State := modGroup (withBlock i block) 0 fun x => { x with tagRecs := [(2, tagged)] }
def kinds (i : Instr) (s : State) : Option (List MatKind) := (after i s).map fun t => t.matops.map (·.kind)

theorem test_meets_MatrixQueueWordsComplete : issuesNow (.mbload u (.spm 6)) (withBlock (.mbload u (.spm 6)) loadBlock) = true ∧
    allIssue [.mmul u 12 (.mem 8), .mtrans u (.mem 8), .mperm u (.mem 8), .mrsum u (.mem 8), .mepi u (.mem 8),
      .maccrd u true false 16 2 8, .maccwr u true false 16 2 8, .maccz u false 5] = true := by decide
theorem test_mbload_joins : kinds (.mbload u (.spm 6)) (withBlock (.mbload u (.spm 6)) loadBlock) = some [.load 2 false tagged.tag halves] := by decide +kernel
theorem test_meets_MatrixBlocksMean : faultIn (.mbload u (.spm 6)) (withBlock (.mbload u (.spm 6)) [3, 8]) = some (.mshape, 1, 0) ∧
    faultIn (.mmul u 12 (.spm 6)) (withBlock (.mmul u 12 (.spm 6)) [3]) = some (.mshape, 1, 0) ∧ faultIn (.mepi u (.spm 6)) (withBlock (.mepi u (.spm 6)) [3]) = some (.mshape, 1, 0) := by
  decide +kernel
/-- R306, R307: the first future of a group, of kind 4: entry 0 in generation 1. -/
theorem test_mmul_joins : kinds (.mmul u 12 (.spm 6)) (withTag (.mmul u 12 (.spm 6)) mulBlock) = some [.mul halves 2 0 0 0 [(2, 0, 0)] 0x04000080 16] ∧
    ((after (.mmul u 12 (.spm 6)) (withTag (.mmul u 12 (.spm 6)) mulBlock)).map fun t => regAt t 0 0 12 0) = some 0x04000080 := by decide +kernel
theorem test_mmul_needs_tag : faultIn (.mmul u 12 (.spm 6)) (withBlock (.mmul u 12 (.spm 6)) mulBlock) = some (.mshape, 1, 0) := by decide +kernel
theorem test_mtrans_joins : kinds (.mtrans u (.spm 6)) (withTag (.mtrans u (.spm 6)) streamBlock) = some [.stream 0 2 0 1 0 0 []] := by decide +kernel
theorem test_mperm_bad_selectors : faultIn (.mperm u (.spm 6)) (withTag (.mperm u (.spm 6)) (streamBlock.take 8 ++ [1])) = some (.mshape, 1, 0) := by decide +kernel
theorem test_mrsum_joins : kinds (.mrsum u (.spm 6)) (withTag (.mrsum u (.spm 6)) streamBlock) = some [.stream 2 2 0 1 0 0 []] := by decide +kernel
theorem test_mepi_slot_is_claimed : ((after (.mepi u (.spm 6)) (withBlock (.mepi u (.spm 6)) epiBlock)).map fun t => (t.matops.length, (group? t 0).map (·.slots))) =
    some (1, some [(1, 0)]) := by decide +kernel
theorem test_maccrd_pends : ((warpAfter (.maccrd u true false 16 2 8) (running (.maccrd u true false 16 2 8) 1 [])).map (·.pending)) =
    some ((List.range 8).map fun i => 32 * (16 + i)) := by decide
theorem test_maccwr_takes_registers : kinds (.maccwr u false true 16 2 8) (running (.maccwr u false true 16 2 8) 1 [(16, 0, 1), (19, 0, 4), (20, 0, 5)]) =
    some [.write 0 8 [(0, [(1, 5), (0, 0), (0, 0), (4, 0)])]] := by decide
theorem test_maccz_frees : ((after (.maccz u true 5) (inIssue (.maccz u true 5) 1 (withGroup fun x => { x with slots := [(0, 3), (1, 4), (2, 5)] }))).map
    fun t => ((group? t 0).map fun x => x.slots.filter fun p => p.1 < 8, t.matops.map (·.kind))) = some (some [(1, 4)], [.clear [3, 5] [3, 5]]) := by decide
/-- 3 × 5 + 2 × 7 over one block at the scale 2 × 2^−1, rounded once. -/
theorem test_row_product : rowProduct [([some 3, some 2], some (2, -1))] [([some 5, some 7], some (1, 0))] = 0x41E80000 := by decide +kernel
theorem test_fold_keeps_the_error : foldPair (0x4B800000, 0) 0x3F800000 = (0x4B800000, 0x3F800000) := by decide +kernel
theorem test_meets_ExactProducts : (2 : Nat) < 2 ^ 32 ∧ alignBlock [some (3, 0), some (1, -4)] 4 = some ([6, 0], -1) := by decide +kernel

/-! ### The engine class -/

/-- Two rows of four bytes from scratchpad offset 32, 8 bytes apart, into rows 1 and 2 of tensor 3 (R309). -/
def bytes8 : Tensor := { halves with format := 4, sizes := [64, 64, 0, 0], strides := [4, 0, 0] }
def copyBlock : List Byte := [0, 3, 1, 0, 4, 0, 0, 0, 2, 0, 0, 0, 255, 255, 255, 255, 32, 0, 0, 0, 8] ++ zeros 7 ++ [0, 0, 0, 0, 1] ++ zeros 31
def copying (i : Instr) : State := tabled bytes8 i 1 [] copyBlock
def plans (i : Instr) (s : State) : Option (List (Nat × List (List Nat × Nat))) := (after i s).map fun t => t.copies.map fun c => (c.kind, c.chunks)

theorem test_meets_EngineWordsCompleteAndMean : issuesNow (.bcopy u 12 (.spm 6)) (copying (.bcopy u 12 (.spm 6))) = true ∧
    allIssue [.gather u 12 (.mem 8), .scatter u 12 (.mem 8), .xcopy u 12 (.mem 8)] = true := by decide
/-- One chunk of eight bytes: both rows lie in one aligned 256-byte block of destinations. -/
theorem test_bcopy_plans : plans (.bcopy u 12 (.spm 6)) (copying (.bcopy u 12 (.spm 6))) = some [(0, [(List.range 8, 8)])] := by decide +kernel
theorem test_bcopy_handle : ((after (.bcopy u 12 (.spm 6)) (copying (.bcopy u 12 (.spm 6)))).map fun t => (regAt t 0 0 12 0, (warp? t 0 0).map (·.tags))) =
    some (0x00000080, some [32 * 12]) := by decide +kernel
theorem test_copybad : faultIn (.bcopy u 12 (.spm 6)) (tabled bytes8 (.bcopy u 12 (.spm 6)) 1 [] []) = some (.copybad, 1, 0) ∧
    faultIn (.gather u 12 (.spm 6)) (tabled bytes8 (.gather u 12 (.spm 6)) 1 [] [0, 0, 1]) = some (.copybad, 1, 0) ∧
    faultIn (.scatter u 12 (.spm 6)) (tabled bytes8 (.scatter u 12 (.spm 6)) 1 [] [0, 0, 2]) = some (.copybad, 1, 0) ∧
    faultIn (.xcopy u 12 (.spm 6)) (tabled bytes8 (.xcopy u 12 (.spm 6)) 1 [] [0, 0, 8]) = some (.copybad, 1, 0) := by decide +kernel
theorem test_gather_lists : plans (.gather u 12 (.spm 6)) (tabled bytes8 (.gather u 12 (.spm 6)) 1 []
    ([3, 0, 2, 0, 2, 0, 0, 0, 1, 0, 0, 0, 255, 255, 255, 255] ++ zeros 16 ++ [4] ++ zeros 7 ++ [16] ++ zeros 23)) = some [(1, [([0, 1], 2)])] := by decide +kernel
theorem test_scatter_lists : plans (.scatter u 12 (.spm 6)) (tabled bytes8 (.scatter u 12 (.spm 6)) 1 []
    ([0, 3, 1, 0, 2, 0, 0, 0, 1, 0, 0, 0, 255, 255, 255, 255, 0, 0, 0, 0, 4] ++ zeros 19 ++ [16] ++ zeros 23)) = some [(2, [([0, 1], 2)])] := by decide +kernel
theorem test_xcopy_needs_link : faultIn (.xcopy u 12 (.spm 6)) (tabled bytes8 (.xcopy u 12 (.spm 6)) 1 []
    ([0, 2, 0, 0, 2, 0, 0, 0, 1, 0, 0, 0, 255, 255, 255, 255, 0, 0, 0, 0, 4] ++ zeros 43)) = some (.linklost, 1, 0) := by decide +kernel

/-- A future of entry 0 in generation 1, resolved with status 2 or not, 8 bytes landed; its handle is 0x80. -/
def future (res : Bool) : Future := { gen := 1, live := !res, res := res, stat := if res then 2 else 0, kind := 0, landed := 8, op := 5 }
def withFuture (res : Bool) (i : Instr) (rs : List (Nat × Nat × Word)) : State :=
  inIssue i 1 (modGroup (modWarp placed 0 0 (setRegs rs)) 0 fun x => { x with futures := [(0, future res)] })
theorem test_meets_FutureWordsComplete : issuesNow (.htest u 14 12) (withFuture true (.htest u 14 12) [(12, 0, 0x80)]) = true ∧
    issuesNow (.hwait u 14 12) (withFuture true (.hwait u 14 12) [(12, 0, 0x80)]) = true ∧ issuesNow (.hcancel u 12) (withFuture false (.hcancel u 12) [(12, 0, 0x80)]) = true ∧
    (future true).stat < 8 ∧ (future true).landed < 2 ^ 32 := by decide
def both (i : Instr) (s : State) : Option (Word × Word) := (after i s).map fun t => (regAt t 0 0 14 0, regAt t 0 0 15 0)
theorem test_htest_resolved : both (.htest u 14 12) (withFuture true (.htest u 14 12) [(12, 0, 0x80)]) = some (0xA0000080, 8) := by decide
theorem test_htest_gone : both (.htest u 14 12) (withFuture true (.htest u 14 12) [(12, 0, 0x100)]) = some (0xF0000100, 0xFFFFFFFF) := by decide
theorem test_hwait_goes_on : ((after (.hwait u 14 12) (withFuture true (.hwait u 14 12) [(12, 0, 0x80)])).map fun t => regAt t 0 0 14 0) = some 0xA0000080 := by decide
theorem test_hwait_waits : holdsIn (.hwait u 14 12) (withFuture false (.hwait u 14 12) [(12, 0, 0x80)]) = some [(.hwait, 1)] := by decide
def aCopy : Copy := { id := 5, core := 0, group := 0, warp := 0, handle := 0x80, kind := 0, block := copyBlock, src := none, dst := none, idx := [], elems := [], chunks := [], next := 0
                      flying := [], landing := [], cancel := 0, lost := false, status := 0, err := none, barrier := none, part := [], skip := [], entries := [], pins := [], reserve := [], parked := false }
theorem test_hcancel_asks : ((after (.hcancel u 12) { withFuture false (.hcancel u 12) [(12, 0, 0x80)] with copies := [aCopy] }).map fun t => t.copies.map (·.cancel)) =
    some [1] := by decide
theorem test_hcancel_resolved : ((after (.hcancel u 12) { withFuture true (.hcancel u 12) [(12, 0, 0x80)] with copies := [aCopy] }).map fun t => t.copies.map (·.cancel)) =
    some [0] := by decide

/-! ### The generation class -/

def aRange : VRange := { num := 5, fn := 0, size := 0x10000, bases := [0x100000, 0x110000, 0x120000, 0x130000]
                         slots := [(.newest, 7), (.staging, 0), (.free, 0), (.free, 0)], last := some 7 }
/-- The context bound to range 5. -/
def ranged (i : Instr) (rs : List (Nat × Nat × Word)) : State :=
  inIssue i 1 { modWarp placed 0 0 (setRegs rs) with ranges := [aRange], ctxs := sput placed.ctxs 1 { placedCtx with maps := [(5, 0x80000000, 0x90000000)], pins := [(5, 7)] } }
def slotsAfter (i : Instr) (s : State) : Option (List (VState × Nat)) := (after i s).bind fun t => (range? t 5).map (·.slots)

theorem test_meets_VersionWordsComplete : issuesNow (.vpub u 42 15) (ranged (.vpub u 42 15) [(15, 0, 5)]) = true ∧
    issuesNow (.vpin u 15 16) (ranged (.vpin u 15 16) [(15, 0, 5), (16, 0, 7)]) = true ∧ issuesNow (.vret u 15) (ranged (.vret u 15) [(15, 0, 5)]) = true ∧
    allIssue [.vpub u 42 15, .vpin u 15 16, .vret u 15] = true ∧ range? (ranged (.vret u 15) []) 5 = some aRange ∧ slotOf aRange 7 = some 0 ∧ slotOf aRange 9 = none ∧
    genTaken (ranged (.vpub u 42 15) []) aRange 8 = false := by decide
/-- R334, R338: the staging slot is the newest generation 8, the pin of generation 7 keeps its slot, and the lowest free slot is staging. -/
theorem test_vpub : slotsAfter (.vpub u 42 15) (ranged (.vpub u 42 15) [(15, 0, 5)]) = some [(.live, 7), (.newest, 8), (.staging, 0), (.free, 0)] := by decide
theorem test_vpub_number : ((after (.vpub u 42 15) (ranged (.vpub u 42 15) [(15, 0, 5)])).map fun t => regAt t 0 0 42 0) = some 8 := by decide
theorem test_vpub_unbound : fault (.vpub u 42 15) 1 [(15, 0, 5)] = some (.version, 1, 5) := by decide
theorem test_vpin_pins : ((after (.vpin u 15 16) (ranged (.vpin u 15 16) [(15, 0, 5), (16, 0, 7)])).bind fun t => (ctx? t 1).map (·.pins)) = some [(5, 7)] := by decide
theorem test_vpin_unknown : faultIn (.vpin u 15 16) (ranged (.vpin u 15 16) [(15, 0, 5), (16, 0, 9)]) = some (.version, 1, 5) := by decide
theorem test_vret : ((after (.vret u 15) (ranged (.vret u 15) [(15, 0, 5)])).bind fun t => (ctx? t 1).map (·.pins)) = some [] := by decide

/-- A loop node over node 1 with a batching table of two slots at 0x20000; the group is of node 1 (R325). Slot 1 decodes: a mask of 16 bits
at 0x20100, tokens at 0x20200, 4 of them at most, end of sequence 2. -/
def tableBytes : List Byte := [2, 0] ++ zeros 126 ++ [2] ++ zeros 15 ++ leBytes 8 0x20100 ++ leBytes 4 16 ++ zeros 16 ++ leBytes 4 2 ++ leBytes 8 0x20200 ++ leBytes 2 4
def batch (i : Instr) (rs : List (Nat × Nat × Word)) : State :=
  let g := { aGraph [] with nodes := [{ aNode with kind := 3, k48 := 0x00010001, k52 := 0xFFFF, k56 := 0x20000, active := [1] }, aNode] }
  inIssue i 1 { modWarp placed 0 0 (setRegs rs) with
    graphs := [g], grids := [{ nodeGrid g 1 aNode 0 with id := 0 }]
    mem := (tableBytes ++ zeros 70 ++ [0x05]).zipIdx.foldl (fun v (b : Byte × Nat) => memPut v (0x20000 + b.2) b.1) placed.mem }

theorem test_meets_BatchAndLogitWordsComplete : issuesNow (.tokrec u 5 6 7) (batch (.tokrec u 5 6 7) [(5, 0, 1), (6, 0, 9)]) = true ∧
    issuesNow (.smask u 26 6 16 5) (batch (.smask u 26 6 16 5) []) = true ∧ issuesNow (.slotrd u false 8 5 3) (batch (.slotrd u false 8 5 3) []) = true ∧
    issuesNow (.slotset u 5 6) (batch (.slotset u 5 6) []) = true ∧ issuesNow (.ulcall u 8 5 6) (batch (.ulcall u 8 5 6) []) = true ∧
    allIssue [.tokrec u 5 6 7, .smask u 26 6 16 5, .slotrd u true 8 5 4, .slotset u 5 6] = true := by decide +kernel
/-- R340: the record goes to the buffer, its flag bit 1 for a slot's first token, and the count rises. -/
theorem test_tokrec : seen (.tokrec u 5 6 7) (batch (.tokrec u 5 6 7) [(5, 0, 1), (6, 0, 9)]) 0x20200 8 = some 0x0002FFFF_00000009 ∧
    ((after (.tokrec u 5 6 7) (batch (.tokrec u 5 6 7) [(5, 0, 1), (6, 0, 9)])).map fun t => leNat (homeBytes t 0 0x200BC 4)) = some 1 := by decide +kernel
theorem test_tokrec_pauses : ((after (.tokrec u 5 6 7) (batch (.tokrec u 5 6 7) [(5, 0, 1), (6, 0, 0xFFFFFFFF)])).map fun t => leNat (homeBytes t 0 0x20082 2)) = some 0x4083 := by
  decide +kernel
theorem test_tokrec_no_table : fault (.tokrec u 5 6 7) 1 [] = some (.prot, 1, 0) := by decide
/-- Bits 0 and 2 of the mask are set; index 16 lies past it. -/
theorem test_smask : ((after (.smask u 26 6 16 5) (batch (.smask u 26 6 16 5) [(5, 0, 1), (6, 0, 7), (16, 0, 2)])).map fun t => regAt t 0 0 26 0) = some 7 ∧
    ((after (.smask u 26 6 16 5) (batch (.smask u 26 6 16 5) [(5, 0, 1), (6, 0, 7), (16, 0, 16)])).map fun t => regAt t 0 0 26 0) = some 0xFF800000 := by decide +kernel
theorem test_slotrd : ((warpAfter (.slotrd u true 8 5 3) (batch (.slotrd u true 8 5 3) [])).map fun w => w.outs) =
    some [.value 0 8 0x20200, .value 0 9 0, .value 0 10 4, .value 0 11 0] := by decide +kernel
theorem test_slotset : ((after (.slotset u 5 6) (batch (.slotset u 5 6) [(5, 0, 1), (6, 0, 0x1203)])).map fun t => leNat (homeBytes t 0 0x20082 2)) = some 0x1283 := by decide +kernel
theorem test_slotset_past : faultIn (.slotset u 5 6) (batch (.slotset u 5 6) [(5, 0, 2), (6, 0, 0x1203)]) = some (.prot, 1, 2) := by decide +kernel
theorem test_ulcall_none : ((after (.ulcall u 8 5 6) (batch (.ulcall u 8 5 6) [(5, 0, 1), (8, 0, 3)])).map fun t => regAt t 0 0 8 0) = some 0 := by decide +kernel

/-! ### The system class -/

/-- The placed warp in handler mode, its frame at 0x40000. -/
def aFault : FaultRec := { code := .swtrap, handler := false, deferred := false, lanes := 1, live := 1, atPc := all32, pc := 0x800, word := 0, d0 := 5, d1 := 0, clock := 0, warp := 0 }
def aHandler : Handler := { frame := 0x40000, temps := [], cause := aFault, tagged := [] }
/-- The frame holds the program counter 0x800 for lane 0 and for the interrupted word, and 9 in v240 of lane 1. -/
def handling (i : Instr) (rs : List (Nat × Nat × Word)) : State :=
  inIssue i all32 { modWarp (withWarp fun w => { w with handler := some aHandler }) 0 0 (setRegs rs) with
    mem := ([(0x11, 8), (0x81, 8), (0x1004, 9)] : List (Nat × Byte)).foldl (fun v b => memPut v (0x40000 + b.1) b.2) placed.mem }

theorem test_meets_HandlerWordsComplete : issuesNow (.tret false true) (handling (.tret false true) []) = true ∧ issuesNow (.idle false) (handling (.idle false) []) = true ∧
    issuesNow (.tret false false) (running (.tret false false) all32 []) = true ∧ allIssue [.tlbinv u none, .tlbinv u (some 6), .idle false] = true ∧
    (∀ k ∈ aHandler.temps, 240 ≤ k) := by decide
theorem test_tret_next : pcIn (.tret false true) (handling (.tret false true) []) 0 = some 0x808 ∧
    ((after (.tret false true) (handling (.tret false true) [])).map fun t => (regAt t 0 0 240 1, (warp? t 0 0).map (·.handler))) = some (9, some none) := by decide +kernel
theorem test_tret_priv : fault (.tret false false) all32 [] = some (.priv, all32, 0xFF) := by decide
theorem test_idle_priv : fault (.idle false) all32 [] = some (.priv, all32, 0xFF) := by decide
theorem test_idle_posts : holdsIn (.idle false) (handling (.idle false) []) = some [(.idle, all32)] := by decide +kernel
theorem test_tlbinv : pc (.tlbinv u none) 1 [] 0 = some 0x10008 := by decide

theorem test_meets_ControlRegistersReadAndWrite : allIssue [.cread u 20 .trapvec, .cwrite u 6 .trapvec, .cwrite u 6 .preempt, .cwrite u 6 (.perf 2)] = true ∧
    ctx? placed 1 = some placedCtx := by decide
/-- R367: bits 2 to 0 of K_TRAPVEC are reserved; K_FEATURE reads 1; K_PREEMPT is written in handler mode alone. -/
theorem test_cwrite_reserved : ((after (.cwrite u 6 .trapvec) (running (.cwrite u 6 .trapvec) 1 [(6, 0, 0x1237), (7, 0, 1)])).bind fun t => (ctx? t 1).map (·.trapvec)) =
    some 0x100001230 := by decide
theorem test_cwrite_priv : fault (.cwrite u 6 .preempt) 1 [] = some (.priv, 1, 11) ∧
    ((after (.cwrite u 6 .preempt) (handling (.cwrite u 6 .preempt) [(6, 0, 0xFF), (7, 0, 0xFFFFFFFF)])).bind fun t => (ctx? t 1).map (·.preempt)) = some 0x01FFFFFF000000C1 := by
  decide +kernel
theorem test_cread_feature : pair (.cread u 20 .feature) [] 20 = some 1 := by decide
theorem test_cread_vpin : pair (.cread u 20 .vpin) [] 20 = some 0xFFFF := by decide

theorem test_meets_GroupSavesAndLoads : issuesNow (.tsave false 12 14) (running (.tsave false 12 14) all32 []) = true ∧
    issuesNow (.tload false 14) (running (.tload false 14) all32 []) = true := by decide
theorem test_tsave_align : fault (.tsave false 12 14) all32 [(14, 0, 8)] = some (.align, all32, 8) := by decide
theorem test_tsave_apart : fault (.tsave false 12 14) 1 [] = some (.bardiv, 1, 1) := by decide
/-- The placed group with 16 registers. -/
def saving (i : Instr) (rs : List (Nat × Nat × Word)) : State := inIssue i all32 (modGroup (modWarp placed 0 0 (setRegs rs)) 0 fun x => { x with granted := 16 })
def saved : Option State := after (.tsave false 12 14) (saving (.tsave false 12 14) [(14, 0, 0x50000), (3, 4, 77)])
/-- R364: the frame's first fields are the layout 1.0 and its length; v[D] is 1 after the word. -/
theorem test_tsave_frame : (saved.map fun t => (leNat (viewBytes t 0 0 0x50000 4), leNat (viewBytes t 0 0 0x50004 4) % 256, regAt t 0 0 12 31)) = some (0x10000, 0, 1) := by
  decide +kernel
/-- The sections of a frame bring the registers back, with 0 in v[D], past the TSAVE; a header of zeros is refused. -/
def savedAs : Option Group := (env? (.tsave false 12 14) (saving (.tsave false 12 14) [(3, 4, 77)])).bind fun e => (warp? placed 0 0).map fun w =>
  { e.gr with granted := 16, warps := [savedWarp placed e.gr 12 all32 (setRegs [(3, 4, 77)] w)] }
theorem test_tload_sections : (savedAs.bind fun x => (sectionsOf 1 (warpSection placed x (x.warps[0]?.getD (newWarp 0 0 0 [])))).map fun secs =>
    (warpSectionOk 16 ((bodiesOf secs 1)[0]?.getD []), ((loadGroup x false secs []).warps[0]?).map fun w => (sget? w.regs (32 * 3 + 4), (w.lanes[0]?).map (·.pc)))) =
    some (true, some (some 77, some 0x10008)) := by decide +kernel
theorem test_tload_bad_frame : headerOk placedGr (zeros 64) = false := by decide

/-! ## The machine, and what it does of itself: states that meet the hypotheses, with some of the effects -/

def stepped (s : State) : Option State := match step s with | .next t => some t | _ => none

theorem test_meets_StepKeepsInvariant : Inv placed ∧ (stepped (State.reset.withFetchWord 64 0x0040000000000000)).isSome = true := by
  refine ⟨⟨by decide, by decide, ?_⟩, by decide +kernel⟩
  intro x hx
  have : placed.ctxs = [(1, placedCtx)] := by decide
  simp only [this, List.mem_singleton] at hx
  subst hx
  decide

/-- NOP, stored and fetched: the lanes go on and the step counter rises. -/
theorem test_meets_StepRunsDecodedWord : (let s := State.reset.withFetchWord 64 0x0040000000000000
    s.mgmt.frozen = none ∧ s.mgmt.needReset = false ∧ s.issue = [placedGroup] ∧ ((group? s 0).map (·.life)) = some .resident ∧
    ((warp? s 0 0).map fun w => chosenLanes w placedGroup) = some all32 ∧
    ((group? s 0).map fun x => match fetchWord { s with issue := [] } x 0x10000 with | .ok w => w | .error _ => 0) = some 0x0040000000000000) := by decide +kernel
theorem test_step_nop : ((stepped (State.reset.withFetchWord 64 0x0040000000000000)).map fun t =>
    (t.tick, (warp? t 0 0).bind fun w => (w.lanes[9]?).map (·.pc))) = some (1, some 0x10008) := by decide +kernel
theorem test_meets_DecodeReadsEncode : isWord (.nop u) = true ∧ wellFormed (.nop u) = true ∧ decode (encode (.nop u)) = .ok (.nop u) := by decide

theorem test_meets_EncodeWritesDecoded : decode 0x0040000000000000 = .ok (.nop u) := by decide

/-- A register above the granted count, one with a result on its way, a handle that no operation writes, a tagged source. -/
theorem test_meets_IssueChecks : fault (.mov u .w32 5 6) 1 [] = none ∧
    faultIn (.mov u .w32 5 16) (inIssue (.mov u .w32 5 16) 1 (withGroup fun x => { x with granted := 16 })) = some (.prot, all32, 16) ∨
    faultIn (.mov u .w32 5 16) (inIssue (.mov u .w32 5 16) 1 (withGroup fun x => { x with granted := 16 })) = some (.prot, 1, 16) := by decide
theorem test_hazard : faultIn (.mov u .w32 5 6) (inIssue (.mov u .w32 5 6) 3 (withWarp fun w => { w with pending := [32 * 6 + 1] })) = some (.hazard, 2, 6) ∧
    faultIn (.mov (g 9) .w32 5 6) (inIssue (.mov (g 9) .w32 5 6) 3 (withWarp fun w => { w with pending := [32 * 9 + 1] })) = some (.hazard, 2, 9) := by decide
theorem test_futbad : fault (.hwait u 14 12) 3 [(12, 1, 0x00800000)] = some (.futbad, 2, 0x00800000) := by decide
theorem test_tagged_source_holds : holdsIn (.mov u .w32 5 6) (inIssue (.mov u .w32 5 6) 3 (withWarp fun w => { w with tags := [32 * 6 + 1] })) = some [(.future, 3)] := by decide
theorem test_deferred_is_taken : faultIn (.nop u) (inIssue (.nop u) 1 (withWarp fun w => { w with deferred := [(0, { aFault with code := .linklost, d0 := 9 })] })) =
    some (.linklost, 1, 9) := by decide

/-- A fault waits in a warp; the context's handler is at 0x900, its frames from 0x100000 on. -/
def trapping (c : Ctx) : State := { withWarp fun w => { w with fault := some aFault } with ctxs := sput placed.ctxs 1 c }
theorem test_meets_FaultsAreTaken : (group? (trapping placedCtx) 0).map (·.life) = some .resident ∧
    (warp? (trapping placedCtx) 0 0).map (fun w => (w.fault, w.outs, busyHold w, w.lanes.length)) = some (some aFault, [], false, 32) := by decide
/-- A user logit kernel of group 0 as group 1. -/
def withKernel : State := match group? placed 0 with
  | some gr => putGroup placed { gr with id := 1, kind := .subgroup 0 0 0, logits := some (100, 0, 0, 0) }
  | none => placed
def kernelPaged : State := takeFault withKernel 1 0 { aFault with code := .page, d0 := 0x5000, d1 := 1 }
theorem test_kernel_page : ((group? kernelPaged 0).map fun x => (x.life, x.cause, x.waitVa)) = some (.halted, some .page, some (0x5000, 1, false)) := by
  decide +kernel
theorem test_kernel_halts : ((group? kernelPaged 1).map fun x => x.life) = some .halted := by decide +kernel
theorem test_no_handler_ends_group : ((after (.trapEntry 0 0) (trapping placedCtx)).bind fun t => (warp? t 0 0).map (·.ended)) = some true := by decide +kernel
theorem test_trap_entry : ((after (.trapEntry 0 0) (trapping { placedCtx with trapvec := 0x900, trapframe := 0x100000 })).map fun t =>
    ((warp? t 0 0).bind fun w => (w.lanes[7]?).map (·.pc), regAt t 0 0 240 3, homeByte t 0 0x100000)) = some (some 0x900, 0x100000, 0x1F) := by decide +kernel

/-! ### Cores -/

def held (i : Instr) (m : Mask) (k : Hold) : HoldRec := { lanes := m, live := m, pc := 0x10000, word := encode i, instr := some i, kind := k }
def heldIn (i : Instr) (m : Mask) (k : Hold) : State := withWarp fun w => { w with holds := [held i m k] }

theorem test_meets_CoreHappeningsAct : (Machine.core placed 0).halted = false ∧ placed.issue = [] ∧ mayChoose placed 0 0 = true ∧
    (residentOn placed 0).map (·.id) = [0] := by decide +kernel
theorem test_result_returns : ((after (.longLatencyReturn 0 0 0) (withWarp fun w => { w with outs := [.value 3 40 7], pending := [32 * 40 + 3], parked := some 8 })).map fun t =>
    (regAt t 0 0 40 3, (warp? t 0 0).map fun w => (w.pending, w.parked))) = some (7, some ([], none)) := by decide
theorem test_warp_ends : ((after (.warpEnd 0 0) (withWarp fun w => { w with lanes := w.lanes.map fun x => { x with exited := true } })).bind fun t => (warp? t 0 0).map (·.ended)) =
    some true := by decide
theorem test_yield_returns : ((after (.yieldReturn 0 0) (withWarp fun w => { w with yielding := some [] })).bind fun t => (warp? t 0 0).map (·.yielding)) = some none := by decide
theorem test_sleep_ends : ((after (.sleepExpiry 0 0 0) (heldIn (.sleep u 6) 3 .sleep)).bind fun t => (warp? t 0 0).map fun w => (w.holds, w.lanes.map (·.pc.toNat) |>.take 3)) =
    some ([], [0x10008, 0x10008, 0x10000]) := by decide

/-! ### Groups -/

def atBarrier : State := modGroup (heldIn (.gbar false 1) all32 (.barrier 1 4)) 0 fun x => { x with bars := modAt x.bars 1 fun _ => { phase := 4, arrived := [0] } }
theorem test_meets_GroupHappeningsAct : (group? atBarrier 0).map (fun x => (x.id, x.life, (bar x 1).arrived, decide (1 < x.bars.length))) = some (0, .resident, [0], true) := by decide
theorem test_barrier_ends : ((after (.barrierPhaseComplete 0 1) atBarrier).bind fun t => (group? t 0).map fun x => ((bar x 1).phase, x.warps.map (·.holds.length))) =
    some (5, [0]) := by decide
def atGang : State := { modGroup (heldIn (.gangbar false) all32 (.gang 0)) 0 fun x => { x with gangWarps := [0], gangIn := true } with
  gangs := [{ id := 4, grid := 0, groups := [0], phase := 0 }] }
theorem test_gang_barrier_ends : ((after (.gangBarrierComplete 4) atGang).map fun t => (t.gangs.map (·.phase), (group? t 0).map (·.gangWarps))) = some ([1], some []) := by decide
/-- A prologue of 8 registers frozen with a count of 5, of a node whose template area is 0x60000 of 64 KiB (R129, R130). -/
def frozenAt (size : Nat) : State :=
  { modGroup (heldIn (.freeze false 6) all32 (.freeze 5)) 0 fun x => { x with kind := .prologue, granted := 8 } with
    graphs := [aGraph []], grids := [{ nodeGrid (aGraph []) 0 { aNode with kind := 1 } 0 with area := 0x60000, areaSize := size }] }
theorem test_meets_capture : (group? (frozenAt 65536) 0).map (captureReady (frozenAt 65536)) = some (some 5) ∧ imageBytes 1 8 0 = 256 + 512 + 8 * 128 ∧
    fitsCore 0x3004 1 9 0 = true := by decide +kernel
theorem test_capture : ((after (.templateCapture 0) (frozenAt 65536)).map fun t => (t.tmpls.map fun m => (m.count, m.depth, m.granted), (group? t 0).isSome)) =
    some ([(5, 1, 8)], false) := by decide +kernel
theorem test_capture_too_small : ((after (.templateCapture 0) (frozenAt 256)).map fun t => (t.tmpls.length, (graph? t 3).map fun x => x.failed.isSome)) = some (0, some true) := by
  decide +kernel
def finished : State := { withWarp fun w => { w with ended := true } with graphs := [aGraph []], grids := [{ nodeGrid (aGraph []) 0 aNode 0 with next := 1 }] }
theorem test_group_ends : (group? finished 0).map (groupOver finished) = some true ∧
    ((after (.groupEnd 0) finished).map fun t => ((group? t 0).isSome, (grid? t 0).map (·.ended))) = some (false, some 1) := by decide +kernel

/-! ### The register pool -/

def growing (n : Nat) : State := modGroup (heldIn (.rgrow false 32) all32 (.rgrow n)) 0 fun x => { x with granted := 64 }
theorem test_meets_RegisterPoolServes : ((firstRequest (growing 256) 0).map fun x => (x.group, x.warp, x.need)) = some (0, 0, 192) ∧
    (firstRequest (growing 4096) 0).isNone = true ∧ (inLogical (growing 4096) 0).map (blocked (growing 4096)) = [true] := by decide +kernel
theorem test_pool_grants : ((after (.registerPoolGrant 0) (growing 256)).bind fun t => (group? t 0).map fun x => (x.granted, x.warps.map (·.holds.length))) = some (256, [0]) := by
  decide +kernel
theorem test_pool_never : ((after (.registerDeadlockSave 0) (growing 4096)).bind fun t => (warp? t 0 0).bind fun w => w.fault.map fun r => (r.code, r.d1)) = some (.growx, 4096) := by
  decide +kernel
def sub : State := { heldIn (.ulcall u 4 6 8) 8 (.ulcall 4 [(3, 5)]) with groups := sput (heldIn (.ulcall u 4 6 8) 8 (.ulcall 4 [(3, 5)])).groups 5 { placedGr with id := 5, life := .queued, logits := some (10, 0, 1, 0), kind := .subgroup 0 0 3 } }
theorem test_pool_places_logits : ((after (.registerPoolGrant 0) sub).bind fun t => (group? t 5).map fun x => (x.life, x.warps.map (·.slot))) = some (.resident, [1]) := by decide +kernel
theorem test_budget : ((after (.ulcallBudgetExpiry 5) (modGroup sub 5 fun x => { x with life := .resident })).bind fun t => (group? t 5).map fun x => x.logits) =
    some (some (10, 30, 1, 0)) := by decide

/-! ### Launches and queues -/

/-- A launch block of one group with 8 registers (R151). -/
def launchBlock (regs : Nat) : List Byte := leBytes 8 0x10000 ++ zeros 8 ++ [1, 0, 0, 0, 1, 1, 0, 0] ++ zeros 8 ++ [0x04, 0x30] ++ leBytes 1 regs ++ [1] ++ zeros 28
def launching (regs : Nat) : State :=
  { modCore placed 0 fun k => { k with launches := [(0, 0, 0x20000, none)] } with
    graphs := [aGraph []], grids := [{ nodeGrid (aGraph []) 0 aNode 0 with next := 1 }]
    mem := (launchBlock regs).zipIdx.foldl (fun v (b : Byte × Nat) => memPut v (0x20000 + b.2) b.1) placed.mem }
theorem test_meets_LaunchesAndQueuesProceed : (Machine.core (launching 1) 0).launches = [(0, 0, 0x20000, none)] ∧ blockOk (launchBlock 1) = true ∧ blockOk (launchBlock 0) = false ∧
    fitsDie 0x3004 1 8 0 1 = true := by decide +kernel
theorem test_launch_adds_grid : ((after (.launchBlockRead 0) (launching 1)).map fun t => (t.grids.map (·.parent), (Machine.core t 0).launches.length)) = some ([none, some 0], 0) := by
  decide +kernel
theorem test_launch_malformed : ((after (.launchBlockRead 0) (launching 0)).map fun t => (t.grids.length, (Machine.fn t 0).events.map fun e => field e 0 1)) = some (1, [1]) := by
  decide +kernel
def pushHeldIn (q : Queue) : State :=
  { modWarp (staged [q]) 0 0 (setRegs [(6, 0, 0xAB)]) with
    groups := (modWarp (modWarp placed 0 0 (setRegs [(6, 0, 0xAB)])) 0 0 fun w => { w with holds := [held (.qpush u .w32 0 6) 1 .qpush] }).groups }
theorem test_push_goes_on : ((after (.queuePushReserve 0 0 0) (pushHeldIn aQueue)).map fun t => ((graph? t 3).map fun x => x.queues.map (·.tail), (warp? t 0 0).map (·.holds.length))) =
    some (some [3], some 0) := by decide +kernel
theorem test_push_of_closed_issues_again : ((after (.queuePushReserve 0 0 0) (pushHeldIn { aQueue with closed := true })).map fun t =>
    ((graph? t 3).map fun x => x.queues.map (·.tail), (warp? t 0 0).map fun w => (w.holds.length, w.lanes.map (·.pc.toNat) |>.take 1))) = some (some [2], some (0, [0x10000])) := by
  decide +kernel
def popHeldIn (q : Queue) : State := { staged [q] with groups := (heldIn (.qpop u .w32 0 4 5) 1 .qpop).groups }
theorem test_pop_goes_on : ((after (.queuePopReserve 0 0 0) (popHeldIn aQueue)).map fun t => ((graph? t 3).map fun x => x.queues.map (·.head), regAt t 0 0 5 0)) =
    some (some [2], 1) := by decide +kernel

/-! ### Units and fences -/

/-- The region with an update record: leaf 2 takes the value 10 (R251). -/
def aRec : URec := { elem := 2, old := 4, new := 10, four := [3, 1, 10, 1], src := none }
def recorded : State := { placed with regions := [{ region with recs := [aRec] }] }
theorem test_meets_UnitsAndFencesProceed : region? recorded 1 7 = some { region with recs := [aRec] } ∧
    (warp? (withWarp fun w => { w with outs := [.query 0 4 { region := 7, op := 0, ty := .s32, lo := 1, hi := 4, x := 0, time := 0 }] }) 0 0).map (·.outs.length) = some 1 ∧
    fenceReady (heldIn (.fence u .seq .sys) 1 (.fence .seq .sys)) 0 0 0 .seq .sys = true := by decide +kernel
theorem test_record_applies : ((after (.updateRecordApply 0) recorded).map fun t => t.regions.map fun r => (r.recs.length, (nodeAt r 2 0).v, r.applied)) = some [(0, 20, 1)] := by
  decide +kernel
theorem test_range_load_returns : ((after (.rangeLoadAnswer 0 0 0) { withWarp (fun w => { w with outs := [.query 0 4 { region := 7, op := 0, ty := .s32, lo := 1, hi := 4, x := 0, time := 0 }] }) with
    regions := [region] }).bind fun t => (warp? t 0 0).map (·.outs)) = some [.value 0 4 6, .value 0 5 0] := by decide +kernel
theorem test_drop_ends : ((after (.regionBuildComplete 0 0 0) { heldIn (.ordrop u 10) 1 (.region 7 2) with regions := [region] }).map fun t => t.regions.length) = some 0 := by
  decide +kernel
theorem test_tfence_ends : ((after (.tfenceRelease 0 0 0) (heldIn (.tfence u none) 1 (.tfence none))).bind fun t => (warp? t 0 0).map (·.holds.length)) = some 0 := by decide +kernel
theorem test_fence_ends : ((after (.fenceRelease 0 0 0) (heldIn (.fence u .seq .sys) 1 (.fence .seq .sys))).bind fun t => (warp? t 0 0).map (·.holds.length)) = some 0 := by
  decide +kernel

/-! ### Operations -/

/-- A copy of eight bytes from scratchpad offset 0 to 0x20000 in two chunks, with a barrier at offset 16 and future 0. -/
def flying (fl la : List Nat) (next : Nat) : State :=
  { modGroup placed 0 fun x => { x with spmSize := 64, spm := (List.range 8).map fun i => (i, BitVec.ofNat 8 (i + 1)), futures := [(0, future false)] } with
    copies := [{ aCopy with elems := (List.range 8).map fun i => (some (2, i), some (0, 0x20000 + i), 8), chunks := [(List.range 4, 4), ([4, 5, 6, 7], 4)]
                            next := next, flying := fl, landing := la, barrier := some 16 }] }
theorem test_meets_OperationsProceed : (copy? (flying [] [] 0) 5).isSome = true ∧ hasChunk (flying [] [] 0) { aCopy with chunks := [([], 4)] } = true ∧
    (∀ gr, group? (flying [0, 1] [] 2) 0 = some gr → fixedOf (flying [0, 1] [] 2) gr.grid = false) := by
  refine ⟨by decide, by decide, fun gr h => ?_⟩
  have : (group? (flying [0, 1] [] 2) 0).map (fun x => fixedOf (flying [0, 1] [] 2) x.grid) = some false := by decide
  rw [h] at this
  simpa using this
theorem test_chunk_issues : ((after (.chunkIssue 5) (flying [] [] 0)).map fun t => t.copies.map fun c => (c.next, c.flying)) = some [(1, [0])] := by decide +kernel
theorem test_chunk_lands : ((after (.chunkLanding 5 0) (flying [0, 1] [] 2)).map fun t => (leNat (viewBytes t 0 0 0x20000 8), (group? t 0).map fun x => x.futures.map fun f => f.2.landed)) =
    some (0x04030201, some [12]) := by decide +kernel
theorem test_chunk_credits : ((after (.chunkCredit 5 0) (flying [1] [0] 2)).map fun t => (leNat ((List.range 8).map fun j => spmAt t 0 (16 + j)), t.copies.map (·.landing))) =
    some (2 ^ 64 - 4, [[]]) := by decide +kernel
theorem test_cancel_arrives : ((after (.cancelArrival 5) { flying [] [] 0 with copies := [{ aCopy with cancel := 1, flying := [0], chunks := [([], 4), ([], 4)], next := 1 }] }).map
    fun t => t.copies.map (·.cancel)) = some [2] := by decide
/-- A clear of slot 3 in the queue of core 0, and the end of it. -/
def clearing (done : Nat) : State :=
  { placed with matops := [{ id := 9, core := 0, group := 0, warp := 0, kind := .clear [3] [], barrier := none, block := [], started := false, done := done, stop := false, bytes := 0
                             stat := 0, err := none, tags := [], refused := none, entries := [], pages := [], pins := [], parked := false }] }
theorem test_matrix_turn : ((after (.matrixOpTurn 9) (clearing 0)).map fun t => t.matops.map fun m => (m.started, m.done)) = some [(true, 1)] := by decide +kernel
theorem test_matrix_ends : ((after (.matrixOpComplete 9) (clearing 1)).map fun t => t.matops.length) = some 0 := by decide +kernel

/-! ### Writes and waits -/

theorem test_meets_WritesArriveAndWaitsEnd : stuckWrite { placed with pend := [aWrite true] } (aWrite true) = false ∧ placed.tmpls = [] ∧ pinnedLines placed = [] ∧
    keySpace false 0x20000 = 0 := by decide
theorem test_write_reaches_l1 : ((after (.writePerformed 0) { placed with pend := [aWrite false] }).map fun t => (t.pend.map (·.atL1), homeByte t 0 0x20001)) = some ([true], 0) := by decide
theorem test_write_performed : ((after (.writePerformed 0) { placed with pend := [aWrite true] }).map fun t => (t.pend.length, homeByte t 0 0x20001)) = some (0, 8) := by decide
def linked (s : State) : State := { s with mgmt := { s.mgmt with linkUp := true, linkMode := 1 } }
theorem test_host_write : ((after (.hostWrite 0x20000 [5, 6]) (linked placed)).map fun t => leNat (homeBytes t 0 0x20000 3)) = some 0x0605 := by decide
theorem test_host_memory_write : ((after (.hostWrite (2 ^ 58 + 64) [5, 6]) (linked placed)).map fun t => leNat (homeBytes t 1 64 3)) = some 0x0605 := by decide
def port (up : Bool) (bs : List (Nat × Nat × Bool)) : State := { placed with ports := setAt placed.ports 2 { (placed.ports[2]?.getD (Port.reset)) with up := up, bindings := bs } }
theorem test_peer_write : ((after (.peerWrite 2 1 0x20000 [9]) (port true [(1, 4, true)])).map fun t => homeByte t 0 0x20000) = some 9 ∧
    ((after (.peerWrite 2 1 0x20000 [9]) (port true [])).map fun t => (homeByte t 0 0x20000, (Machine.fn t 0).events.map fun e => field e 0 1)) = some (0, [8]) := by decide +kernel
def polling (v : Nat) (timed : Bool) : State := modGroup (heldIn (.waita u false .grp .eq false (.spm 6) 5 8 none) 1
    (.waita true false .eq 5 timed true 0 [{ lane := 0, addr := 0, cmp := 3, met := false, done := false }])) 0 fun x => { x with spmSize := 64, spm := [(0, BitVec.ofNat 8 v)] }
theorem test_wait_met : ((after (.waitaReread 0 0 0) (polling 3 false)).map fun t => (regAt t 0 0 5 0, (warp? t 0 0).map (·.holds.length))) = some (1, some 0) := by decide +kernel
theorem test_wait_stays : ((after (.waitaReread 0 0 0) (polling 2 false)).bind fun t => (warp? t 0 0).map (·.holds.length)) = some 1 := by decide +kernel
theorem test_wait_limit : ((after (.waitaTimeout 0 0 0) (polling 2 true)).map fun t => (regAt t 0 0 5 0, (warp? t 0 0).map (·.holds.length))) = some (0, some 0) := by decide +kernel

/-! ### Work -/

def waitingGraph (n : Node) : State := { placed with graphs := [{ aGraph [] with nodes := [n, { aNode with kind := 0, life := .waiting, deps := 1, grid := none }] }], grids := [], groups := [] }
def readyNode : Node := { aNode with life := .ready, grid := none, count := 5 }
theorem test_meets_WorkProceeds : firstServed (waitingGraph readyNode) (readyNodes (waitingGraph readyNode)) = some (0, 1, 4096 * 3, 0) ∧
    startTrouble (aGraph []) 0 readyNode = none ∧ startTrouble (aGraph []) 0 { readyNode with gangN := 16, regs := 32, warps := 32 } = some 3 := by decide +kernel
theorem test_node_starts : ((after .nodeStart (waitingGraph readyNode)).map fun t => (t.grids.map (·.count), (node? t 3 0).map (·.life))) = some ([5], some .running) := by decide +kernel
theorem test_node_needs_feature : ((after .nodeStart (waitingGraph { readyNode with feat := 2 })).bind fun t => (graph? t 3).bind (·.failed)).isSome = true := by decide +kernel
/-- A host-wait node whose word has reached its value, then its completion with the edge to node 1. -/
def hostWait (life : NodeLife) : State := waitingGraph { aNode with kind := 4, life := life, k40 := 0x20000, k48 := 0, word := 0, succ := [1, 0xFFFF] }
theorem test_host_wait : ((after (.hostWaitWatch 3 0) (hostWait .running)).bind fun t => (node? t 3 0).map (·.life)) = some .ending := by decide +kernel
theorem test_node_completes : ((after (.nodeCompletion 3 0) (hostWait .ending)).map fun t => ((node? t 3 0).map (·.life), (node? t 3 1).map fun n => (n.life, n.sat))) =
    some (some .done, some (.ready, [0])) := by decide +kernel
/-- A loop over node 1 whose word at 0x20000 is 1. -/
def looping (w : Byte) : State := { waitingGraph { aNode with kind := 3, k40 := 0x20000, k48 := 0x00010001, k52 := 0xFFFF, k56 := 0 } with mem := memPut placed.mem 0x20000 w }
theorem test_loop_goes_round : ((after (.loopBoundary 3 0) (looping 1)).map fun t => ((node? t 3 0).map fun n => (n.looping, n.iter, n.life))) = some (some (true, 0, .running)) := by
  decide +kernel
theorem test_loop_ends : ((after (.loopBoundary 3 0) (looping 0)).bind fun t => (node? t 3 0).map (·.life)) = some .ending := by decide +kernel
def openGrid (n : Nat) : Grid := { nodeGrid (aGraph []) 0 readyNode 7 with count := n }
def batching : State := { waitingGraph aNode with grids := [openGrid 3] }
theorem test_meets_batches : gridOpen batching (openGrid 3) = true ∧ firstServed batching (openGrids batching 0) = some (0, 1, 7, 7) ∧ batchDie batching (openGrid 3) = some 0 ∧
    batchSize batching (openGrid 3) 0 = 3 := by decide +kernel
theorem test_batch : ((after .lodestarBatch batching).map fun t => (t.grids.map (·.next), (Machine.die t 0).queue.length)) = some ([3], 3) := by decide +kernel
theorem test_ageing : ((after (.priorityAgeing 7) batching).map fun t => t.grids.map (·.boost)) = some [1] := by decide +kernel
def converted : State := { modCore { placed with groups := [] } 5 fun k => { k with convert := some 0x3004 } with groups := [] }
theorem test_split_reassigns : ((after (.splitReassign 5) converted).map fun t => ((Machine.core t 5).split, (Machine.core t 5).convert)) = some (0x3004, none) := by decide +kernel
/-- The second stage's input queue is closed and empty and its groups have ended: it is done, and its output queue closes (R169). -/
def stageDone : State := { waitingGraph { aNode with kind := 2 } with
  grids := [{ openGrid 1 with next := 1, ended := 1, stage := some 1, node := 0 }]
  graphs := [{ aGraph [{ aQueue with closed := true, head := 2 }, aQueue] with stages := [(0, [{ aStage with done := true }, { aStage with qin := 0, qout := 1 }])] }] }
theorem test_stage_closes : ((after (.stageCompletion 3 0 1) stageDone).bind fun t => (graph? t 3).map fun x => x.queues.map (·.closed)) = some [true, true] := by decide +kernel

/-! ### Saves, restores and slices -/

/-- A halted group of 8 registers with no frame pool page missing: the pool structure at 0x21000 names 64 KiB at 0x70000 (R363). -/
def halted : State := { modGroup placed 0 fun x => { x with life := .halted, cause := some .preempt, granted := 8 } with
  ctxs := sput placed.ctxs 1 { placedCtx with preempt := 0x21000 }
  mem := (leBytes 8 0x70000 ++ leBytes 8 0x10000).zipIdx.foldl (fun v (b : Byte × Nat) => memPut v (0x21000 + b.2) b.1) placed.mem }
theorem test_meets_SavesRestoresAndSlices : (group? halted 0).map (quiesced halted) = some true ∧
    (match framePool halted 1 with | .ok x => some x | _ => none) = some (0x70000, 0x10000) ∧ sliceMayEnd placed 0 = false ∧
    sliceMayEnd (modFn placed 3 fun f => { f with nextPart := some 2 }) 0 = true := by decide +kernel
def outAt : State := modGroup placed 0 fun x => { x with life := .saved, cause := some .preempt, frame := some (0x70000, 4096), granted := 8 }
theorem test_restore : (group? outAt 0).map (fun x => canRestore outAt x 0) = some true ∧
    ((after (.groupRestore 0 0) outAt).bind fun t => (group? t 0).map fun x => (x.life, x.core, x.cause)) = some (.resident, 0, none) := by decide +kernel
theorem test_preemption : ((after (.preemptionRequest 0) (modGroup placed 0 fun x => { x with granted := 8 })).bind fun t => (group? t 0).map fun x => (x.life, x.cause)) = some (.halted, some .preempt) := by decide +kernel

/-! ### The host -/

theorem test_meets_RingsAndRegistersAct : (linked placed).mgmt.linkUp = true ∧ (Machine.fn placed 0).offered.length = 3 ∧ 0 < placed.fns.length ∧ hostWritable 0x50 = true ∧
    hostWritable 0x0 = false := by decide
theorem test_enable : ((after (.functionEnable 0) (linked placed)).map fun t => ((Machine.fn t 0).enable, (Machine.fn t 0).ready)) = some (true, true) := by decide +kernel
theorem test_register_write : ((after (.functionRegisterWrite 0 0x50 (leBytes 8 0x123400)) (linked placed)).map fun t => leNat ((fnPage t 0).drop 0x50 |>.take 8)) = some 0x123400 := by
  decide +kernel
/-- A queue with its rings in host memory; one entry of the unknown opcode 0xEE of identifier 9, the tail at 1. -/
def ringQ : QPair := { num := 2, sub := 0x1000, comp := 0x2000, tail := 0x3000, subLog := 4, compLog := 4, read := 0, posted := 0, busy := [], cmds := [], held := [] }
def ringed (q : QPair) : State := { modFn (linked placed) 0 fun f => { f with enable := true, ready := true, chosen := [0x00010002, 0x00010001, 0x00010000], queues := [q] } with
  hostMem := [(0x1000, 0xEE), (0x1004, 9), (0x3000, 1)] }
theorem test_tail : ((after (.tailPoll 0 2) (ringed ringQ)).bind fun t => ((Machine.fn t 0).queues.find? (·.num == 2)).map fun q => (q.read, q.held.map fun e => (leNat (e.take 4), (e.drop 4).take 1))) =
    some (1, [(9, [2])]) := by decide +kernel
theorem test_completion_posts : ((after (.completionPost 0 2) (ringed { ringQ with read := 1, held := [completionEntry 9 2 0] })).map fun t => (homeBytes t 1 0x2000 6)) =
    some [9, 0, 0, 0, 2, 1] := by decide +kernel
theorem test_event_posts : ((after (.heldEventPost 0) (modFn (ringed ringQ) 0 fun f => { f with evRing := 0x5000, sizes := 0x600, events := [[8] ++ zeros 127] })).map fun t =>
    (homeBytes t 1 0x5000 2)) = some [8, 128] := by decide +kernel

/-- Commands of function 0 on its admin queue. -/
def cmd (op ctx : Nat) (args : List Byte) : Cmd := { fn := 0, queue := 0, slot := 0, op := op, ordered := false, ctx := ctx, id := 9, args := args ++ zeros (56 - args.length) }
def ringed0 : State := ringed { ringQ with num := 0 }
/-- Identifier, status and result of the completion entry that the command leaves. -/
def ends (i : Instr) : Option (List (Nat × Nat × Nat)) := (after i ringed0).bind fun t => ((Machine.fn t 0).queues.find? (·.num == 0)).map fun q =>
  q.held.map fun e => (field e 0 4, field e 4 1, field e 8 8)
theorem test_meets_CommandsAct : cmdTrouble ringed0 (cmd 1 0 []) [(8, 8), (16, 8)] = none ∧ cmdInstr (cmd 1 0 []) = some (.createContext (cmd 1 0 [])) ∧
    (ctx? ringed0 1).map (·.fn) = some 0 := by decide +kernel
theorem test_create_context : ends (.createContext (cmd 1 0 (leBytes 8 0x4000))) = some [(9, 0, 2)] := by decide +kernel
theorem test_create_context_misaligned : ends (.createContext (cmd 1 0 (leBytes 8 0x4008))) = some [(9, 1, 0)] := by decide +kernel
theorem test_reserved_operand : ends (.destroyContext (cmd 2 1 [1])) = some [(9, 1, 0)] := by decide +kernel
theorem test_destroy_context : ends (.destroyContext (cmd 2 1 [])) = some [(9, 0, 0)] := by decide +kernel
theorem test_create_range : ends (.createRange (cmd 8 0 ([5, 0, 0, 0] ++ leBytes 4 0x10000 ++ leBytes 8 0x100000 ++ leBytes 8 0x110000 ++ leBytes 8 0x120000 ++ leBytes 8 0x130000))) =
    some [(9, 0, 0)] := by decide +kernel
theorem test_map_range_missing : (ends (.mapRange (cmd 9 1 [5]))).map (·.map fun x => x.2.1) = some [1] := by decide +kernel
theorem test_bind_peer : ends (.bindPeer (cmd 10 1 [2, 0, 0, 0, 4])) = some [(9, 0, 0)] := by decide +kernel
theorem test_cancel_nothing : ends (.cancelGraph (cmd 5 0 [3])) = some [(9, 0, 0)] := by decide +kernel

/-! ### Resets, links and management -/

theorem test_meets_ResetsAndLinksAct : (linked placed).mgmt.linkUp = true ∧ placed.mgmt.linkUp = false ∧ (∀ x ∈ placed.ctxs, x.2.preempt.getLsbD 0 = false) ∧ placed.dies.length = 4 ∧
    ((port true []).ports[2]?).map (·.up) = some true ∧ ((port false []).ports[2]?).map (·.up) = some false := by decide
theorem test_meets_ManagementActs : placed.mgmt.frozen ≠ some true ∧ (placed.dies[3]?).isSome = true ∧ placed.mgmt.limit = 1000 := by decide
theorem test_reset_clears : ((after (.functionLevelReset 0) (ringed ringQ)).map fun t => (t.groups.length, t.ctxs.length, (Machine.fn t 0).queues.length, t.hostMem.length)) = some (0, 0, 0, 3) := by
  decide +kernel
theorem test_power_up : ((after .powerUp (ringed ringQ)).map fun t => (t.mem, t.timebase, t.hostMem.length, t.ctxs.length)) = some ([], 0, 3, 0) := by decide +kernel
theorem test_link_loss : ((after .hostLinkLoss (linked placed)).map fun t => (t.mgmt.linkUp, t.mgmt.posted)) = some (false, [[1]]) := by decide +kernel
/-- A load of host memory whose result is on its way. -/
def loading : State := { linked (withWarp fun w => { w with outs := [.value 3 40 7] }) with
  away := [{ group := 0, warp := 0, lane := 3, reg := 40, n := 1, space := 1, addr := 0x8000 }] }
theorem test_link_loss_load : ((after .hostLinkLoss loading).bind fun t => (warp? t 0 0).map fun w =>
    (w.outs, w.deferred.map fun d => (d.1, d.2.code), t.away.length)) = some ([], [(0, .linklost)], 0) := by decide +kernel
theorem test_link_returns : ((after (.hostLinkReturn 2) placed).map fun t => (t.mgmt.linkUp, t.mgmt.linkMode, (Machine.fn t 0).ready)) = some (true, 2, false) := by decide +kernel
theorem test_port_down : ((after (.peerPortDown 2) (port true [(1, 4, true)])).map fun t => (t.ports[2]?).map fun p => (p.up, p.bindings)) = some (some (false, [(1, 4, false)])) := by
  decide +kernel
theorem test_port_trains : ((after (.peerPortTraining 2 0x10000) (port false [])).map fun t => (t.ports[2]?).map (·.up)) = some (some true) := by decide +kernel
theorem test_die_link : ((after (.dieLinkDown 0 1) placed).map fun t => (t.mgmt.needReset, t.ctxs.length, (Machine.die t 0).linkDown)) = some (true, 0, [1]) := by decide +kernel
theorem test_freeze : ((after (.freezeRequest true) placed).map fun t => t.mgmt.frozen) = some (some true) ∧
    ((after .freezeRelease { placed with mgmt := { placed.mgmt with frozen := some true } }).map fun t => t.mgmt.frozen) = some (some true) := by decide
theorem test_core_halts : ((after (.coreHalt 0) placed).map fun t => (Machine.core t 0).halted) = some true := by decide
theorem test_power_cap : ((after (.powerCapStep 1100) placed).map fun t => t.dies.map (·.clock)) = some [1275, 1275, 1275, 1275] := by decide
theorem test_critical : ((after (.criticalTemperature 1) placed).map fun t => (t.dies.map (·.off), t.mgmt.posted)) = some ([true, true, true, true], [[3, 1]]) := by decide
/-- A line with a written byte in a granule that holds an error, in a page of the one context. -/
def dirtyLine : State := { placed with bad := [0x2000], l2 := [(0x10001, 0xAB)] }
theorem test_write_back_error (h : Config.errorAbove 0x2000 = true) : dirtyBad dirtyLine 0x2000 = true := by
  simp only [dirtyBad, h, Bool.true_and]; decide
theorem test_line_owner : ownersOf dirtyLine 0x10000 = [1] := by decide +kernel
theorem test_failed_line : ((fun t : State => (t.mem.length, t.l2, t.ctxs.length, t.mgmt.posted)) (failLine dirtyLine 0x10000)) =
    (dirtyLine.mem.length, [], 0, [[7, 0x10000]]) := by decide +kernel

/-! ## Clauses over the state and the operands alone: states that meet each -/

theorem plain_of {s : State} (ht : s.tmpls = []) (hr : s.regions = []) (sp a n : Nat) : Plain s sp a n := by
  intro _; simp [areaHit, heapHit, backingOf, ht, hr]

/-! ### Matrix and engine blocks -/

def loadSt : State := withBlock (.mbload u (.spm 6)) loadBlock
def loadEnv : Env := (env? (.mbload u (.spm 6)) loadSt).get (by decide)
/-- The 64 KiB page of the tensor and the page-table lines that lead to it. -/
def halvesPages : Pages := ([(3, 0, 3)], [64, 128, 192])
theorem test_meets_LoadOk : LoadOk loadSt loadEnv (.spm 6) 0 halvesPages [] :=
  ⟨0, loadBlock, none, halves, by decide +kernel, by decide, by decide, by decide, by decide, by decide, by decide, by decide +kernel, by decide, by decide,
    by decide, ⟨by decide +kernel, by decide +kernel⟩, rfl⟩
theorem test_meets_matrix_room : queueUsed loadSt 0 + 1 ≤ 16 ∧ walkTurn loadSt loadEnv = true ∧ pinsIn loadSt 0 + halvesPages.1.length ≤ 1024 ∧
    SlotRoom loadSt loadEnv [1] := ⟨by decide, by decide, by decide, by unfold SlotRoom; decide⟩

def mulSt : State := withTag (.mmul u 12 (.spm 6)) mulBlock
def mulEnv : Env := (env? (.mmul u 12 (.spm 6)) mulSt).get (by decide)
theorem test_meets_MulOk : MulOk mulSt mulEnv (.spm 6) 0 halvesPages [1] :=
  ⟨0, mulBlock, halves, [(2, tagged)], halvesPages, by decide +kernel, by decide, by decide, by decide, by decide, by decide, by decide, by decide, by decide,
    by decide +kernel, by decide, by decide, by decide +kernel, by decide +kernel,
    fun i j hi hj => absurd hj (by have : field mulBlock 1 1 = 1 := by decide
                                   omega),
    by decide +kernel, by decide +kernel, by decide +kernel, by decide +kernel, by decide⟩

def streamSt : State := withTag (.mtrans u (.spm 6)) streamBlock
def streamEnv : Env := (env? (.mtrans u (.spm 6)) streamSt).get (by decide)
theorem test_meets_StreamOk : StreamOk streamSt streamEnv 0 (.spm 6) 0 halvesPages [1] ∧ StreamOk streamSt streamEnv 2 (.spm 6) 0 halvesPages [1] := by
  refine ⟨⟨0, streamBlock, tagged, ([], []), ?_⟩, ⟨0, streamBlock, tagged, ([], []), ?_⟩⟩
  all_goals exact ⟨by decide +kernel, by decide, by decide, by decide, by decide, by decide, by decide, by decide, by decide, by decide, by decide, by decide +kernel,
    by decide +kernel, by decide +kernel, fun h => absurd h (by decide), by decide⟩
/-- A row selector of 0 at 0x20800 for one row of an MPERM. -/
def permBlock : List Byte := [2, 1, 1, 0] ++ zeros 4 ++ leBytes 8 0x20800 ++ zeros 48
def permSt : State := withTag (.mperm u (.spm 6)) permBlock
def permEnv : Env := (env? (.mperm u (.spm 6)) permSt).get (by decide)
def permPages : Pages := ([(2, 0, 2)], [64, 128, 192])
theorem test_meets_StreamOk_perm : StreamOk permSt permEnv 1 (.spm 6) 0 halvesPages [1] :=
  ⟨0, permBlock, tagged, permPages, by decide +kernel, by decide, by decide, by decide, by decide, by decide, by decide, by decide, by decide, by decide, by decide,
    by decide +kernel, by decide +kernel, by decide +kernel, fun _ => ⟨by decide +kernel, fun i h => by
      have : i = 0 := by have hf : field permBlock 2 1 = 1 := by decide
                         omega
      exact ⟨[0, 0], by subst this; decide +kernel, by decide⟩⟩, by decide⟩

def epiSt : State := withBlock (.mepi u (.spm 6)) epiBlock
def epiEnv : Env := (env? (.mepi u (.spm 6)) epiSt).get (by decide)
theorem test_meets_EpiOk : EpiOk epiSt epiEnv (.spm 6) 0 halvesPages [1] :=
  ⟨0, epiBlock, none, halves, by decide +kernel, by decide, by decide, by decide, by decide, by decide, by decide, by decide, by decide, by decide,
    by decide, by decide, by decide, by decide, by decide, by decide +kernel, by decide, by decide, by decide, by decide +kernel, by decide +kernel,
    fun x _ _ _ _ _ _ _ => plain_of rfl rfl _ _ _, fun h => absurd (by decide) h, by decide⟩

def copySt : State := copying (.bcopy u 12 (.spm 6))
def copyEnv : Env := (env? (.bcopy u 12 (.spm 6)) copySt).get (by decide)
theorem test_meets_CopyOk : CopyOk copySt copyEnv 0 (.spm 6) 0 [17592186044418] :=
  ⟨0, copyBlock, none, some bytes8, halvesPages, by decide +kernel, by decide, by decide +kernel, by decide +kernel, nofun, nofun, nofun, by decide +kernel,
    by decide +kernel, by decide +kernel, fun x _ _ _ _ => plain_of rfl rfl _ _ _, by decide, by decide +kernel, by decide, nofun⟩
theorem test_meets_copy_room : inFlight copySt 0 + 1 ≤ 96 ∧ 1 ≤ (freeFutures copyEnv.gr).length ∧ walkTurn copySt copyEnv = true ∧ pinsIn copySt 0 + 1 ≤ 1024 := by decide
def gatherBlock : List Byte := [3, 0, 2, 0, 2, 0, 0, 0, 1, 0, 0, 0, 255, 255, 255, 255] ++ zeros 16 ++ [4] ++ zeros 7 ++ [16] ++ zeros 23
def scatterBlock : List Byte := [0, 3, 1, 0, 2, 0, 0, 0, 1, 0, 0, 0, 255, 255, 255, 255, 0, 0, 0, 0, 4] ++ zeros 19 ++ [16] ++ zeros 23
def gatherSt : State := tabled bytes8 (.gather u 12 (.spm 6)) 1 [] gatherBlock
def scatterSt : State := tabled bytes8 (.scatter u 12 (.spm 6)) 1 [] scatterBlock
def gatherEnv : Env := (env? (.gather u 12 (.spm 6)) gatherSt).get (by decide)
def scatterEnv : Env := (env? (.scatter u 12 (.spm 6)) scatterSt).get (by decide)
theorem test_meets_CopyOk_gather : CopyOk gatherSt gatherEnv 1 (.spm 6) 0 [17592186044418] :=
  ⟨0, gatherBlock, some bytes8, none, halvesPages, by decide +kernel, by decide, by decide +kernel, by decide +kernel, nofun, nofun, nofun, by decide +kernel,
    by decide +kernel, by decide +kernel, fun x _ _ _ _ => plain_of rfl rfl _ _ _, by decide, by decide +kernel, by decide, nofun⟩
theorem test_meets_CopyOk_scatter : CopyOk scatterSt scatterEnv 2 (.spm 6) 0 [17592186044418] :=
  ⟨0, scatterBlock, none, some bytes8, halvesPages, by decide +kernel, by decide, by decide +kernel, by decide +kernel, nofun, nofun, nofun, by decide +kernel,
    by decide +kernel, by decide +kernel, fun x _ _ _ _ => plain_of rfl rfl _ _ _, by decide, by decide +kernel, by decide, by decide⟩
/-- A put of two bytes of the scratchpad to the address 0x4000 of the peer at port 2. -/
def xcopyBlock : List Byte := [0, 2, 2, 0, 2, 0, 0, 0, 1, 0, 0, 0, 255, 255, 255, 255, 0, 0, 0, 0, 4] ++ zeros 7 ++ zeros 4 ++ leBytes 8 0x4000 ++ zeros 24
def xcopySt : State := { tabled bytes8 (.xcopy u 12 (.spm 6)) 1 [] xcopyBlock with ports := (port true [(1, 4, true)]).ports }
def xcopyEnv : Env := (env? (.xcopy u 12 (.spm 6)) xcopySt).get (by decide)
theorem test_meets_CopyOk_xcopy : CopyOk xcopySt xcopyEnv 3 (.spm 6) 0 [] :=
  ⟨0, xcopyBlock, none, none, ([], []), by decide +kernel, by decide, by decide +kernel, rfl, by decide, nofun, fun _ => ⟨_, by rfl, by decide⟩, by decide +kernel,
    by decide +kernel, by decide +kernel, fun x _ _ _ _ => plain_of rfl rfl _ _ _, by decide, by decide +kernel, by decide, nofun⟩

/-! ### Memory, atomics, tables and waits -/

/-- The state of a test and its environment. -/
def at1 (i : Instr) (s : State) : Option (State × Env) := (env? i s).map fun e => (s, e)
def leafAt (i : Instr) (s : State) (va : DWord) (n kind need : Nat) : Option (Nat × Nat) :=
  (env? i s).bind fun e => (memLeaf s e va n kind need).toOption.map fun x => (x.space, x.addr)
theorem test_meets_writes : (∀ r ∈ placed.regions, r.nonneg = false) ∧ (∀ sp a n, Plain placed sp a n) ∧ NoHeaps placed :=
  ⟨by decide, fun sp a n => plain_of rfl rfl sp a n, by unfold NoHeaps; decide⟩
theorem test_meets_store_leaves : leafAt (.st u m32 7 4 0) (running (.st u m32 7 4 0) 1 [(4, 0, 0x20000)]) 0x20000 4 1 2 = some (0, 0x20000) ∧
    leafAt (.zfill u false .dev 6 0) (running (.zfill u false .dev 6 0) 1 [(6, 0, 0x20000)]) 0x20000 256 1 2 = some (0, 0x20000) := by decide

def addI : Instr := .aadd u at32 .int (.mem 6) 0 8 (some 4)
def addSt : State := withData addI 1 [d0 0] [5]
def addEnv : Env := (env? addI addSt).get (by decide)
def addLeaf : Leaf := (memLeaf addSt addEnv 0x20000 4 2 2).toOption.get (by decide)
theorem test_meets_PlaceOk : PlaceOk addSt addEnv (.mem 6) 0 4 0 (0, 0x20000, 0x20000) ∧ PlaceOk addSt addEnv (.spm 9) 0 4 0 (2, 0, 0) ∧ NoFloors addSt := by
  refine ⟨⟨addLeaf, by decide, by decide, by decide, plain_of rfl rfl _ _ _, by decide, by decide, by decide⟩, ?_, by unfold NoFloors; decide⟩
  exact ⟨by decide, by decide, by decide, by decide, by decide⟩
theorem test_rmw_meets_error : faultIn addI { addSt with bad := [0x20000 / 8] } = some (.eccu, 1, 0x20000) := by decide

/-- An uncorrectable error in the scratchpad's first granule (R414). -/
def spoiled (i : Instr) (rs : List (Nat × Nat × Word)) : State := modGroup (withData i 1 rs [3]) 0 fun x => { x with spmBad := [0] }
theorem test_scratchpad_errors : faultIn (.lds u m32 4 6 0) (spoiled (.lds u m32 4 6 0) []) = some (.eccu, 1, 0) ∧
    faultIn (.bcadd u false .dev false 6 7 0) (spoiled (.bcadd u false .dev false 6 7 0) []) = some (.eccu, 1, 0) ∧
    faultIn (.waita u false .grp .eq false (.spm 6) 5 8 none) (spoiled (.waita u false .grp .eq false (.spm 6) 5 8 none) []) = some (.eccu, 1, 0) := by decide
theorem test_memory_error : faultIn (.ld u m32 4 6 0) { withData (.ld u m32 4 6 0) 1 [(6, 0, 0x20000)] [] with bad := [0x20000 / 8] } = some (.eccu, 1, 0x20000) := by decide

def waitI : Instr := .waita u false .grp .eq false (.spm 6) 5 8 none
theorem test_meets_watches : ((at1 waitI (withData waitI 1 [] [3])).map fun (s, e) => ((watchPlace s e (.spm 6) 4 0 1 0).toOption, (watchRead s e.gr true false 0 0).toOption)) =
    some (some 0, some 3) ∧
    ((at1 (.wakea u false .dev false (.mem 6) 8) (running (.wakea u false .dev false (.mem 6) 8) 1 [d0 0])).map fun (s, e) => (watchPlace s e (.mem 6) 4 0 0 0).toOption) =
      some (some 0x20000) := by decide

/-- The slots that two lanes push to, and the one that a lane pops. -/
theorem test_meets_queue_slots : leafAt (.qpush u .w32 0 6) (pushing aQueue 3) 0x20020 16 1 2 = some (0, 0x20020) ∧
    leafAt (.qpush u .w32 0 6) (pushing aQueue 3) 0x20030 16 1 2 = some (0, 0x20030) ∧
    ((at1 (.qpop u .w32 0 4 5) (popping aQueue 1)).map fun (s, e) => match memLeaf s e 0x20010 16 0 1 with
      | .ok x => (readMem s e x 16 false 0).toOption | .error _ => none) = some (some (zeros 16)) := by decide

def setI : Instr := .tidset u (.spm 6) 7
theorem test_meets_tidset : ((at1 setI (tabled halves setI 1 [(7, 0, 5)] (tensorBytes halves))).map fun (s, e) => (imageOf s e (.spm 6) 0).toOption) = some (some (tensorBytes halves)) ∧
    Tensor.malformed (tensorOf (tensorBytes halves)) = false ∧ leafAt setI (tabled halves setI 1 [(7, 0, 5)] []) 0x20140 64 1 2 = some (0, 0x20140) := by decide +kernel
theorem test_meets_tidinv : ((at1 (.tidinv u none) (tabled halves (.tidinv u none) 1 [] [])).map fun (s, e) => (List.range 256).all fun k =>
    match memLeaf s e (0x20000 + BitVec.ofNat 64 (64 * k)) 64 1 2 with | .ok x => (readMem s e x 64 false 0).toOption.isSome | .error _ => false) = some true := by decide +kernel

/-! ### The batching table -/

def recI : Instr := .tokrec u 5 6 7
def recSt : State := batch recI [(5, 0, 1), (6, 0, 9)]
def recEnv : Env := (env? recI recSt).get (by decide)
theorem test_meets_table : (tableLoop recSt recEnv.gr).map (fun x => (x.1, x.2.1, x.2.2.k56)) = some (3, 0, 0x20000) ∧ (tabRead recSt recEnv 0x20000 2).toOption = some (leBytes 2 2) ∧
    (tabRead recSt recEnv (recordVa 0x20000 1) 1).toOption = some [2] ∧ (graph? recSt 3).map (·.recorded) = some [] ∧
    ((tabRead recSt recEnv (recordVa 0x20000 1) 64).toOption.map fun r => (field r 44 4, field r 56 2, field r 60 4, field r 48 8)) = some (2, 4, 0, 0x20200) ∧
    (memLeaf recSt recEnv 0x20200 16 1 2).toOption.map (·.addr) = some 0x20200 ∧ recEnv.die < 4 ∧ recEnv.live = 1#32 <<< 0 := by decide +kernel
theorem test_meets_table_writes : DevWritable recSt recEnv (recordVa 0x20000 1 + 60) 4 [(0, 0x200BC, 4)] ∧ DevWritable recSt recEnv (recordVa 0x20000 1 + 2) 2 [(0, 0x20082, 2)] :=
  ⟨⟨by decide +kernel, by decide +kernel⟩, ⟨by decide +kernel, by decide +kernel⟩⟩
theorem test_meets_logit_mask : ((at1 (.smask u 26 6 16 5) (batch (.smask u 26 6 16 5) [(5, 0, 1), (16, 0, 2)])).map fun (s, e) => match memLeaf s e 0x20100 1 0 1 with
    | .ok x => (readMem s e x 1 false 0).toOption | .error _ => none) = some (some [5]) := by decide +kernel
theorem test_meets_quarters : (tabRead recSt recEnv (recordVa 0x20000 1 + 48) 16).toOption.map (·.length) = some 16 ∧ (tabRead recSt recEnv 0x20000 16).toOption.map (·.length) = some 16 := by
  decide +kernel
/-- The same table with a user logit kernel at 0x10000 of 100 words in slot 1. -/
def kernelSt : State := let s := batch (.ulcall u 8 5 6) [(5, 0, 1), (5, 1, 0)]
  { s with cur := some { placedGroup with lanes := 3 }, mem := memPut s.mem (0x20080 + 34) 1 }
theorem test_ulcall_starts : ((after (.ulcall u 8 5 6) kernelSt).map fun t => ((warp? t 0 0).map fun w => w.holds.map fun h => (match h.kind with | .ulcall r xs => (r, xs.length) | _ => (0, 0), h.lanes),
    t.groups.length, regAt t 0 0 8 1)) = some (some [((8, 1), 3)], 2, 0) := by decide +kernel

/-! ### Waits, operations, caches and the management port -/

/-- Two lanes with handles of a resolved and an unresolved future: one lane goes on, the other is held (R320). -/
def twoFutures : State := inIssue (.hwait u 14 12) 3 (modGroup (modWarp placed 0 0 (setRegs [(12, 0, 0x80), (12, 1, 0x81)])) 0 fun x =>
  { x with futures := [(0, future true), (1, future false)] })
theorem test_hwait_partial : ((after (.hwait u 14 12) twoFutures).map fun t => (regAt t 0 0 14 0, (warp? t 0 0).map fun w =>
    (w.holds.map fun h => (h.kind, h.lanes), (w.lanes.take 2).map (·.pc.toNat)))) = some (0xA0000080, some ([(.hwait, 2)], [0x10008, 0x10000])) := by decide
theorem test_engine_full : holdsIn (.bcopy u 12 (.spm 6)) { copying (.bcopy u 12 (.spm 6)) with copies := List.replicate 96 aCopy } = some [(.accept, 1)] := by decide +kernel
theorem test_meets_fence_ready : fenceReady (fenceDrain (ranged (.vpub u 42 15) []) 0 .rel .dev) 0 0 0 .rel .dev = true ∧
    fenceReady (fenceDrain (withRegion (.orbuild u 10) 1 [(10, 0, 7)]) 0 .seq .dev) 0 0 0 .seq .dev = true ∧
    declared? (withRegion (.orbuild u 10) 1 [(10, 0, 7)]) 1 7 = some region := by decide +kernel
theorem test_meets_chunk : (Machine.core (flying [] [] 0) 0).ceLast ≠ 0 ∧
    ((group? (flying [0, 1] [] 2) 0).map fun x => (copy? (flying [0, 1] [] 2) 5).map fun c => (landingNow (flying [0, 1] [] 2) c x (List.range 4),
      (chunkTrouble (flying [0, 1] [] 2) c x (List.range 4) (c.elems.take 4)).isNone, (chunkDests (flying [0, 1] [] 2) x (c.elems.take 4)).all fun d =>
        !heldAtSlice (flying [0, 1] [] 2) d.1 d.2.1 d.2.2)) = some (some (List.range 4, true, true)) := by decide +kernel
/-- The other core of the cluster has its turn first (R317). -/
theorem test_chunk_waits_its_turn : ((after (.chunkIssue 5) { modCore (flying [] [] 0) 0 fun k => { k with ceLast := 0 } with
    copies := [((flying [] [] 0).copies[0]?).getD aCopy, { aCopy with id := 6, core := 1, chunks := [([], 4)] }] }).map fun t => t.copies.map (·.next)) = some [0, 0] := by decide +kernel
/-- A load of which 300 bytes have been read, with a barrier at offset 16: its credit and its end (R294). -/
def crediting : State := { (clearing 1) with
  matops := (clearing 1).matops.map fun m => { m with barrier := some 16, bytes := 300 }
  groups := (modGroup placed 0 fun x => { x with spmSize := 64 }).groups }
theorem test_matrix_credit : ((after (.matrixOpComplete 9) crediting).map fun t => (leNat ((List.range 8).map fun j => spmAt t 0 (16 + j)), t.matops.length)) =
    some (2 ^ 64 - 300, 0) := by decide +kernel
theorem test_wsync_ends : ((after (.fenceRelease 0 0 0) (heldIn (.wsync u none) 1 (.wsync 1))).bind fun t => (warp? t 0 0).map (·.holds.length)) = some 0 := by decide +kernel
theorem test_meets_units : nextRec recorded { region with recs := [aRec] } = some 0 ∧ queueUsed placed 0 = 0 := by decide +kernel
/-- A range load from before the rebuild is answered while the region is under build (R259). -/
theorem test_range_load_under_build : ((after (.rangeLoadAnswer 0 0 0) { withWarp (fun w => { w with outs := [.query 0 4 { region := 7, op := 0, ty := .s32, lo := 1, hi := 4, x := 0, time := 3 }] }) with
    regions := [{ region with building := true, began := 5 }] }).bind fun t => (warp? t 0 0).map (·.outs)) = some [.value 0 4 6, .value 0 5 0] := by decide +kernel

def aLine : CLine := { line := 5, secs := 15, count := 1, zero := 0, low := false, own := false }
/-- A counted line goes with its last read; one that counts no reads may be supplied by a peer (R195, R196). -/
def holding (n : Nat) : State := { placed with caches := [(3, [{ aLine with count := n }])], predictor := [(peerIndex 0 5, 3)] }
theorem test_counted_line : lineIn (readLine (holding 1) 3 5 1 0).1 3 5 = none ∧ (lineIn (readLine (holding 2) 3 5 1 0).1 3 5).map (·.count) = some 1 ∧
    lineDirty (holding 1) 5 = false := by decide +kernel
theorem test_peer_line : peerHit (holding 0) 0 5 1 = true ∧ peerHit (holding 1) 0 5 1 = false := by
  simp [peerHit, peerOf, holding, sget?, lineIn, linesIn, aLine]
theorem test_counted_fill : ((fun s => lineIn s 3 6) (readLine (holding 0) 3 6 1 6).1).map (·.count) = some 4 := by decide +kernel
def anEntry : Tlb := { ctx := 1, page := 2, size := 0, slot := none, lines := [] }
theorem test_tlbinv_drops : ((after (.tlbinv u (some 6)) { running (.tlbinv u (some 6)) 1 [(6, 0, 0x20000)] with tlbs := [(0, [anEntry, { anEntry with page := 3 }])] }).map fun t =>
    (sget? t.tlbs 0).map (·.map (·.page))) = some (some [3]) := by decide +kernel

/-- A copying word that waits for a row of register 4 (R139): it issues again and owns the row. -/
def rowless : State := modGroup (heldIn (.mov u .w32 4 5) 1 (.copyWait 4)) 0 fun x => { x with granted := 8 }
theorem test_meets_copy_row : ((firstRequest rowless 0).map fun r => (r.need, r.asked)) = some (1, 4) ∧
    ((after (.registerPoolGrant 0) rowless).bind fun t => (warp? t 0 0).map (·.holds.length)) = some 0 := by decide +kernel
theorem test_management_version : ((after .spdmAttestation { placed with mgmt := { placed.mgmt with versions := [0x20000] } }).map fun t => (t.mgmt.posted, t.mgmt.versions)) =
    some ([[8, 0x20000]], []) := by decide
/-- The management processor's own resumption of a warp in IDLE (R376). -/
def idling : State := withWarp fun w => { w with handler := some aHandler, holds := [held (.idle false) all32 .idle] }
theorem test_management_resumes : ((after (.resume { cmd 13 1 (leBytes 8 0x40000) with queue := 64 }) idling).bind fun t => (warp? t 0 0).map (·.holds.length)) = some 0 := by decide +kernel
/-- A cancelled graph (R160): its node fails and its group, which might never end, may be ended. -/
theorem test_cancel : ((after (.cancelGraph (cmd 5 0 [3])) { ringed0 with graphs := [{ aGraph [] with cmd := { aCmd with id := 3 } }] }).bind fun t => (graph? t 3).map fun x =>
    (x.cancelled, x.failed.isSome)) = some (true, true) := by decide +kernel
/-- A halted group is saved into its pool (R363). -/
theorem test_save : (group? halted 0).map (recordsWait halted) = some false ∧ frameHome halted 1 0x70000 4096 = true ∧
    ((after (.framePoolSave 0) halted).bind fun t => (group? t 0).map fun x => (x.life, x.frame.map (·.1))) = some (.saved, some 0x70000) := by decide +kernel
/-- Under HALTTRAP the core halts before the handler is entered (R359). -/
theorem test_halttrap : ((after (.trapEntry 0 0) (trapping { placedCtx with trapvec := 0x900, trapframe := 0x100000, dbg := 2 })).map fun t =>
    ((Machine.core t 0).halted, (warp? t 0 0).map fun w => (w.trapHalt, w.handler.isSome))) = some (true, some (true, false)) := by decide +kernel
/-- The second of two groups of a core, both in want of registers, is saved for the first (R139). -/
def twoGrowing : State := let s := growing 4096
  match group? s 0 with
  | some x => putGroup s { x with id := 1, index := 1 }
  | none => s
theorem test_deadlock_save : (residentOn twoGrowing 0).map (blocked twoGrowing) = [true, true] ∧
    ((after (.registerDeadlockSave 0) twoGrowing).map fun t => ((group? t 0).map (·.life), (group? t 1).map fun x => (x.life, x.cause))) =
      some (some .resident, some (.halted, some .deadlock)) := by decide +kernel
theorem test_illegal_first : faultIn (.illegal 0 false) (inIssue (.illegal 0 false) 1 (withWarp fun w => { w with deferred := [(0, { aFault with code := .linklost, d0 := 9 })] })) =
    some (.illegal, 1, 0) := by decide

/-! ### Uncorrectable errors in the other arrays (R414 to R416, R430) -/

/-- Register 6 holds an error in lane 1. -/
def badReg (i : Instr) (m : Mask) : State := inIssue i m (withWarp fun w => { w with regBad := [32 * 6 + 1] })
theorem test_register_error : faultIn (.mov u .w32 5 6) (badReg (.mov u .w32 5 6) 3) = some (.eccu, 2, 6) ∧
    faultIn (.mov u .w32 5 6) (badReg (.mov u .w32 5 6) 1) = none ∧ faultIn (.mov (g 6) .w32 5 7) (badReg (.mov (g 6) .w32 5 7) 1) = none := by decide
theorem test_register_error_written : (warpAfter (.movi false 6 7) (badReg (.movi false 6 7) 3)).map (·.regBad) = some [] := by decide
/-- The translation of the placed pages, in the TLB of core 0 and in error. -/
def badTlb : Tlb := { ctx := 1, page := 0, size := 2, slot := none, lines := [0x40, 0x80, 0xC0] }
theorem test_tlb_error : faultIn (.ld u m32 4 6 0) { running (.ld u m32 4 6 0) 1 [(6, 0, 0x20000)] with tlbs := [(0, [badTlb])], errs := [.tlb 0 badTlb] } =
    some (.eccu, 1, 0x20000) := by decide +kernel
/-- Pages that an L1 may hold, and a line of it in error. -/
def badL1 (s : State) : State := { s with mem := memPut s.mem 0x3000 0x7D, caches := [(0, [{ aLine with line := 0x200, count := 0 }])], errs := [.line 0 0x8000] }
theorem test_l1_error : faultIn (.ld u m32 4 6 0) (badL1 (running (.ld u m32 4 6 0) 1 [(6, 0, 0x20000)])) = some (.eccu, 1, 0x20000) ∧
    (faultIn (.ld u m32 4 6 4) (badL1 (running (.ld u m32 4 6 4) 1 [(6, 0, 0x20000)]))) = none := by decide +kernel
/-- The write-back of a line of an L1 with an error in written bytes: nothing is written, and the context ends. -/
theorem test_l1_line_lost : l1Spoiled { badL1 placed with pend := [aWrite true] } (aWrite true) = true ∧
    ((after (.writePerformed 0) { badL1 placed with pend := [aWrite true] }).map fun t => (t.pend.length, homeByte t 0 0x20000, t.mgmt.posted, t.errs, (ctx? t 1).isSome)) =
      some (0, 0, [[7, 0x20000]], [], false) := by decide +kernel
theorem test_error_gone : (settleErrs { badL1 placed with pend := [{ aWrite true with data := [1, 2, 3, 4] }] }).errs = [] ∧
    (settleErrs { badL1 placed with pend := [aWrite true] }).errs = [.line 0 0x8000] := by decide +kernel
/-- A read of the accumulator store that meets an error, and a clear that writes over it. -/
def badPair (k : MatKind) : State := { clearing 0 with matops := (clearing 0).matops.map fun m => { m with kind := k }, errs := [.pair 0 3 7] }
theorem test_pair_error : ((after (.matrixOpTurn 9) (badPair (.read 3 4 2 4 true 1))).map fun t => (t.matops.map fun m => (m.done, m.stat), t.matops.map (·.err), t.errs)) =
    some ([(1, 3)], [some (.eccu, 0xC01C)], [.pair 0 3 7]) := by decide +kernel
theorem test_pair_written : ((after (.matrixOpTurn 9) (badPair (.clear [3] []))).map fun t => (t.matops.map (·.err), t.errs)) = some ([none], []) := by decide +kernel
/-- A macro whose columns are in error is retired as a row streams against its tile, and the row fails. -/
def badMacro : State := { clearing 0 with matops := (clearing 0).matops.map fun m => { m with kind := .stream 0 2 3 32 0 0 [] }, errs := [.column 0 2] }
theorem test_macro_parity : ((after (.matrixOpTurn 9) badMacro).map fun t => (t.matops.map (·.stat), (Machine.core t 0).retired, t.mgmt.posted, t.errs)) =
    some ([3], [2], [[2, 0, 2]], []) := by decide +kernel
theorem test_macro_check_fails : ((after (.macroSelfCheck 0 2) { placed with errs := [.column 0 2] }).map fun t => (Machine.core t 0).retired) = some [2] := by decide +kernel
/-- A range load that reads a leaf in error returns nothing; its warp takes ECCU at its next word. -/
theorem test_node_error : answerError { placed with bad := [leafPa region 2 / 8] } region { region := 7, op := 0, ty := .s32, lo := 1, hi := 4, x := 0, time := 0 } =
      some (leafPa region 2) ∧
    ((after (.rangeLoadAnswer 0 0 0) { withWarp (fun w => { w with outs := [.query 0 4 { region := 7, op := 0, ty := .s32, lo := 1, hi := 4, x := 0, time := 0 }] }) with
      regions := [region], bad := [leafPa region 2 / 8] }).bind fun t => (warp? t 0 0).map fun w => (w.outs, w.deferred.map fun d => (d.1, d.2.code))) = some ([], [(0, .eccu)]) := by
  decide +kernel

/-! ### Digests, ENABLE after a loss, and writes held by a REPARTITION -/

/-- FIPS 180-4's example "abc". -/
theorem test_sha256 : sha256 [0x61, 0x62, 0x63] = 0xba7816bf8f01cfea414140de5dae2223b00361a396177a9cb410ff61f20015ad := by decide +kernel
/-- READY clears at the link's return, and setting ENABLE again sets it (R408). -/
theorem test_enable_again : (((after (.hostLinkReturn 1) { modFn placed 0 enableFn with mgmt := { placed.mgmt with linkUp := false } }).bind (after (.functionEnable 0))).map fun t =>
    ((Machine.fn t 0).enable, (Machine.fn t 0).ready)) = some (true, true) := by decide +kernel
/-- A host write to a page of an affected partition waits (R401). -/
theorem test_repartition_holds : ((after (.hostWrite 0x20000 [5, 6]) (modPart (linked placed) 0 fun p => { p with stopped := true })).map fun t => (t.pend.length, homeByte t 0 0x20000)) =
    some (1, 0) := by decide +kernel
end Sys2Proof.Tests
end

section
/-! PROOFS. The state after reset, and the acts of the management port, the debugger and the power limits. -/

namespace Sys2Proof.Machine

/-! ## Reset -/

/-- Every function of the list of power-up is `Fn.reset`, and so is every number past it. -/
theorem fn_reset (i : Nat) : fn State.reset i = Fn.reset i := by
  show (((List.range 33).map Fn.reset)[i]?).getD (Fn.reset i) = Fn.reset i
  by_cases h : i < 33 <;> simp [h]

theorem partAt_reset {p : Nat} (h : p < 8) : partAt State.reset p = Part.reset p := by
  show (((List.range 8).map Part.reset)[p]?).getD (Part.reset 8) = Part.reset p
  simp [h]

theorem die_reset (d : Nat) : die State.reset d = Die.reset := by
  show ((List.replicate 4 Die.reset)[d]?).getD Die.reset = Die.reset
  rw [List.getElem?_replicate]; split <;> rfl

theorem inv_reset : Inv State.reset := ⟨reset_mem_wf, reset_hostMem_wf, fun _ h => by cases h⟩

/-- Memory that nothing has written reads as zero at its home (log entry 2). -/
theorem homeByte_reset {sp : Nat} (a : Nat) (h : sp ≤ 1 ∨ sp = 11) : homeByte State.reset sp a = 0 := by
  obtain rfl | rfl | rfl : sp = 0 ∨ sp = 1 ∨ sp = 11 := by omega
  all_goals rfl

/-- Settles O1: each list of power-up read at its places. -/
theorem resetState : Obligations.ResetState := by
  refine ⟨inv_reset, rfl, rfl, rfl, rfl, fun i _ => ?_, fun p hp => ?_, fun _ => rfl, fun d _ => ?_, fun _ a h => homeByte_reset a h⟩
  · rw [fn_reset]; exact ⟨rfl, rfl, rfl, rfl, rfl, rfl⟩
  · rw [partAt_reset hp]; exact ⟨rfl, rfl, rfl⟩
  · rw [die_reset]; exact ⟨rfl, rfl⟩

/-! ## Requests on the management port (R2, R410 to R412) -/

/-- A message of version 1.0 has its effect once its version is taken off the port. -/
theorem manage_current {s : State} (effect : State → State) (h : s.mgmt.versions.headD 0x10000 = 0x10000) :
    manage s effect = .next (effect { s with mgmt := { s.mgmt with versions := s.mgmt.versions.tail } }) := by
  rw [manage, portVersion, if_pos h]

/-- A message of another version is answered with the error of R2, whatever it asks for. -/
theorem manage_other {s : State} (effect : State → State) (h : s.mgmt.versions.headD 0x10000 ≠ 0x10000) :
    manage s effect = .next { s with mgmt := { s.mgmt with
      versions := s.mgmt.versions.tail, posted := s.mgmt.posted ++ [[8, s.mgmt.versions.headD 0x10000]] } } := by
  rw [manage, portVersion, if_neg h]; rfl

/-- A request whose effect on the state without the message's version is u. -/
theorem asked_of_effect {i : Instr} {s u : State} (effect : State → State) (hi : exec i s = manage s effect)
    (hu : effect { s with mgmt := { s.mgmt with versions := s.mgmt.versions.tail } } = u) :
    (s.mgmt.versions.headD 0x10000 = 0x10000 → exec i s = .next u) ∧
    (s.mgmt.versions.headD 0x10000 ≠ 0x10000 → exec i s = .next { s with mgmt := { s.mgmt with
      versions := s.mgmt.versions.tail, posted := s.mgmt.posted ++ [[8, s.mgmt.versions.headD 0x10000]] } }) :=
  ⟨fun h => by rw [hi, manage_current effect h, hu], fun h => by rw [hi, manage_other effect h]⟩

/-- What a monitoring message reports of a state (R411). -/
def sensorReadings (s : State) : List Nat :=
  (List.range 5).map (Config.sensor s.tick) ++ s.dies.map (·.clock) ++ s.mgmt.corrected ++ s.mgmt.uncorrected ++
    (s.cores.filter fun c => !c.2.retired.isEmpty).flatMap (fun c => c.1 :: c.2.retired.length :: c.2.retired) ++
    (if s.mgmt.linkUp = true then 1 else 0) :: s.ports.map fun p => if p.up then 1 else 0

theorem execPldmMonitoring_eq (s : State) : execPldmMonitoring s = manage s fun u => postMgmt u (4 :: sensorReadings u) := by
  simp only [execPldmMonitoring, sensorReadings, List.append_assoc, List.cons_append, List.nil_append]

/-! ## Freeze, halt and resume (R125, R359, R360, R412) -/

theorem freezeRequest_frozen (s : State) (wrote : Bool) : ∃ b, exec (.freezeRequest wrote) s = .next { s with mgmt := { s.mgmt with frozen := some b } } ∧
    (b = true ↔ wrote = true ∨ s.mgmt.frozen = some true) :=
  ⟨_, rfl, by simp⟩

theorem freezeRelease_thaws {s : State} (h : s.mgmt.frozen ≠ some true) :
    exec .freezeRelease s = .next { s with mgmt := { s.mgmt with frozen := none } } := by
  show execFreezeRelease s = _
  unfold execFreezeRelease
  obtain hf | hf | hf : s.mgmt.frozen = none ∨ s.mgmt.frozen = some true ∨ s.mgmt.frozen = some false := by
    rcases s.mgmt.frozen with _ | _ | _ <;> simp
  · simp [hf]
  · exact absurd hf h
  · simp [hf]

theorem freezeRelease_stays {s : State} (h : s.mgmt.frozen = some true) : exec .freezeRelease s = .next s := by
  show execFreezeRelease s = _
  rw [execFreezeRelease, if_neg (by simp [h])]

/-- A halted core issues nothing (R360). -/
theorem warpIssueChoice_of_halted {s : State} {c : Nat} (h : (core s c).halted = true) : exec (.warpIssueChoice c) s = .next s := by
  show execWarpIssueChoice c s = _
  simp [execWarpIssueChoice, h]

theorem core_modCore (s : State) (c k : Nat) (f : Core → Core) : core (modCore s c f) k = if k = c then f (core s c) else core s k := by
  split
  · subst_vars; exact core_modCore_self ..
  · exact core_modCore_ne _ _ ‹_›

theorem coreHalt_halts (s : State) (c : Nat) : ∃ t, exec (.coreHalt c) s = .next t ∧ t = { s with cores := t.cores } ∧
    (∀ k, core t k = if k = c then { core s c with halted := true } else core s k) ∧ exec (.warpIssueChoice c) t = .next t :=
  ⟨modCore s c fun x => { x with halted := true }, rfl, rfl, fun k => core_modCore s c k _,
    warpIssueChoice_of_halted (by rw [core_modCore_self])⟩

/-- A map over the values of a sparse map keeps its keys. -/
theorem sget?_map_values {α : Type} (m : List (Nat × α)) (f : α → α) (k : Nat) :
    sget? (m.map fun p => (p.1, f p.2)) k = (sget? m k).map f := by
  induction m with
  | nil => rfl
  | cons p r ih =>
    obtain ⟨a, v⟩ := p
    simp only [List.map_cons, sget?]
    split
    · rfl
    · exact ih

/-- A group as CORE_RESUME leaves it: on its core and resident, no lane group of it is halted at a BRKPT any more. -/
def resumedOn (c : Nat) (gr : Group) : Group :=
  if gr.core = c ∧ gr.life = .resident then { gr with warps := gr.warps.map fun w => dropHolds? w fun h => h.kind == .brkpt } else gr

theorem execCoreResume_eq (s : State) (c : Nat) : execCoreResume c s =
    .next { modCore s c (fun x => { x with halted := false }) with groups := s.groups.map fun p => (p.1, resumedOn c p.2) } := by
  have hmap : (s.groups.map fun g => if g.2.core = c ∧ g.2.life = .resident then
      (g.1, { g.2 with warps := g.2.warps.map fun w => dropHolds? w fun h => h.kind == .brkpt }) else g) =
      s.groups.map fun p => (p.1, resumedOn c p.2) := by
    refine List.map_congr_left fun p _ => ?_
    unfold resumedOn
    split <;> rfl
  exact congrArg (fun gs => Host.Outcome.next { modCore s c (fun x => { x with halted := false }) with groups := gs }) hmap

theorem resumedOn_warps_only (c : Nat) (gr : Group) : { resumedOn c gr with warps := gr.warps } = gr := by
  unfold resumedOn; split <;> rfl

theorem resumedOn_elsewhere {c : Nat} {gr : Group} (h : gr.core ≠ c) : resumedOn c gr = gr := if_neg fun hc => h hc.1

theorem resumedOn_no_brkpt {c : Nat} {gr : Group} (hc : gr.core = c) (hl : gr.life = .resident) :
    ∀ w ∈ (resumedOn c gr).warps, ∀ h ∈ w.holds, h.kind ≠ .brkpt := by
  rw [resumedOn, if_pos ⟨hc, hl⟩]
  intro w hw h hh
  obtain ⟨x, -, rfl⟩ := List.mem_map.mp hw
  simpa using (List.mem_filter.mp hh).2

theorem coreResume_resumes (s : State) (c : Nat) : ∃ t, exec (.coreResume c) s = .next t ∧ t = { s with cores := t.cores, groups := t.groups } ∧
    (core t c).halted = false ∧ ∀ g gr, group? s g = some gr → ∃ up, group? t g = some up ∧ { up with warps := gr.warps } = gr ∧
      (gr.core = c → gr.life = .resident → ∀ w ∈ up.warps, ∀ h ∈ w.holds, h.kind ≠ .brkpt) ∧ (gr.core ≠ c → up = gr) := by
  refine ⟨_, execCoreResume_eq s c, rfl, ?_, fun g gr hg => ⟨resumedOn c gr, ?_, resumedOn_warps_only c gr, resumedOn_no_brkpt, resumedOn_elsewhere⟩⟩
  · exact congrArg Core.halted (core_modCore_self s c fun x => { x with halted := false })
  · show sget? (s.groups.map fun p => (p.1, resumedOn c p.2)) g = _
    rw [sget?_map_values, show sget? s.groups g = some gr from hg]; rfl

/-! ## Power (R417) -/

/-- A die's clock after a POWER_CAP_STEP: down while power exceeds the limit, up again below it. -/
def cappedDie (s : State) (watts : Nat) (d : Die) : Die :=
  if watts > s.mgmt.limit then { d with clock := max 500 (d.clock - 25) }
  else if watts < s.mgmt.limit then { d with clock := min (nominalClock s) (d.clock + 25) } else d

theorem powerCapStep_steps (s : State) (watts : Nat) {d : Nat} {x : Die} (h : s.dies[d]? = some x) :
    ∃ t y, exec (.powerCapStep watts) s = .next t ∧ t = { s with dies := t.dies } ∧ t.dies[d]? = some y ∧
      { y with clock := x.clock } = x ∧ (s.mgmt.limit < watts → y.clock = max 500 (x.clock - 25)) ∧ (watts = s.mgmt.limit → y = x) ∧
      (watts < s.mgmt.limit → y.clock = min (if s.variantC = true then 950 else 1300) (x.clock + 25)) := by
  refine ⟨{ s with dies := s.dies.map (cappedDie s watts) }, cappedDie s watts x, rfl, rfl, ?_, ?_, fun hw => ?_, fun hw => ?_, fun hw => ?_⟩
  · show (s.dies.map (cappedDie s watts))[d]? = _
    rw [List.getElem?_map, h]; rfl
  · unfold cappedDie; split
    · rfl
    · split <;> rfl
  · rw [cappedDie, if_pos hw]
  · rw [cappedDie, if_neg (by omega), if_neg (by omega)]
  · rw [cappedDie, if_neg (by omega), if_pos hw]; rfl

/-- Settles O60: each request through `asked_of_effect`, every other act by its own lemma. -/
theorem managementActs : Obligations.ManagementActs := by
  unfold Obligations.ManagementActs
  intro s
  refine ⟨⟨_, asked_of_effect (fun u => postMgmt u (4 :: sensorReadings u)) ?_ rfl, rfl⟩,
    asked_of_effect (fun u => postMgmt u [5, sha256 u.mgmt.bankActive, sha256 u.mgmt.bankOther, sha256 Config.fuses, sha256 (tableInForce u)]) rfl rfl,
    fun n => asked_of_effect (fun u => { u with mgmt := { u.mgmt with limit := min n (boardLimit u.variantC) } }) rfl rfl,
    fun f on => asked_of_effect (fun u => modFn u f fun x => { x with reduced := on }) rfl rfl,
    fun image ok => asked_of_effect (fun u => { u with mgmt := { u.mgmt with bankOther := image, switch := ok } }) rfl rfl,
    freezeRequest_frozen s, freezeRelease_thaws, freezeRelease_stays, coreHalt_halts s, coreResume_resumes s,
    fun watts d x h => powerCapStep_steps s watts h, fun d => rfl, fun d => rfl⟩
  exact execPldmMonitoring_eq s

end Sys2Proof.Machine
end

section
/-! PROOFS. Words that change more than their warp: what the release of a die leaves alone, and how a word ends on a state that
it has changed. -/

namespace Sys2Proof.Machine

/-! ## Writes performed leave the groups alone -/

@[simp] theorem mendL1_groups (s : State) (p : PendWrite) : (mendL1 s p).groups = s.groups := by
  unfold mendL1; split <;> rfl

@[simp] theorem postCtx_groups (s : State) (c kind addr b16 b17 : Nat) (r : Option FaultRec) :
    (postCtx s c kind addr b16 b17 r).groups = s.groups := rfl

@[simp] theorem putHomeByte_groups (s : State) (sp a : Nat) (b : Byte) : (putHomeByte s sp a b).groups = s.groups := by
  unfold putHomeByte
  split
  · rfl
  · split
    · rfl
    · split <;> rfl

@[simp] theorem putHomeBytes_groups (s : State) (sp a : Nat) (bs : List Byte) : (putHomeBytes s sp a bs).groups = s.groups := by
  induction bs generalizing s a with
  | nil => rfl
  | cons b r ih => rw [putHomeBytes, ih, putHomeByte_groups]

@[simp] theorem countRecords_groups (s : State) (src : Option (Nat × Nat)) (n : Nat) : (countRecords s src n).groups = s.groups := by
  unfold countRecords
  split
  · split
    · split
      · rfl
      · exact countEvent_groups ..
    · rfl
  · rfl

@[simp] theorem sendRecords_groups (s0 s1 : State) (a n : Nat) (src : Option (Nat × Nat)) (keep : Bool) (s : State) :
    (sendRecords s0 s1 a n src keep s).groups = s.groups := by
  unfold sendRecords
  generalize s0.regions.filter _ = rs
  induction rs generalizing s with
  | nil => rfl
  | cons r rs ih => rw [List.foldl_cons, ih, modRegion_groups, countRecords_groups]

@[simp] theorem dropOnWrite_groups (agent sp a n : Nat) (t : State) : (dropOnWrite agent sp a n t).groups = t.groups := by
  unfold dropOnWrite; split <;> rfl

@[simp] theorem keepOld_groups (s t : State) (a n : Nat) : (keepOld s t a n).groups = t.groups := by
  unfold keepOld; split <;> rfl

@[simp] theorem homeWrite_groups (s : State) (agent : Nat) (rel : Option View) (sp a : Nat) (data : List Byte) (src : Option (Nat × Nat)) (keep : Bool) :
    (homeWrite s agent rel sp a data src keep).groups = s.groups := by
  have h1 : (dropOnWrite agent sp a data.length (addVer s agent rel sp a data.length (putHomeBytes s sp a data))).groups = s.groups := by
    rw [dropOnWrite_groups]; exact putHomeBytes_groups s sp a data
  unfold homeWrite
  split
  · show (sendRecords _ _ _ _ _ _ _).groups = _
    rw [sendRecords_groups, keepOld_groups]; exact h1
  · exact h1

@[simp] theorem outsideWrite_groups (s : State) (agent a : Nat) (data : List Byte) : (outsideWrite s agent a data).groups = s.groups := by
  unfold outsideWrite
  simp only
  split
  · exact postCtx_groups ..
  · split <;> split <;> simp only [postCtx_groups, homeWrite_groups]

@[simp] theorem sendPeer_groups (s : State) (port c a : Nat) (data : List Byte) : (sendPeer s port c a data).groups = s.groups := by
  unfold sendPeer; split <;> rfl

@[simp] theorem performWrite_groups (s : State) (p : PendWrite) : (performWrite s p).groups = s.groups := by
  unfold performWrite
  simp only
  split
  · rw [outsideWrite_groups, mendL1_groups]
  · split
    · rw [sendPeer_groups, mendL1_groups]
    · rw [homeWrite_groups, mendL1_groups]

@[simp] theorem drainIf_groups (s : State) (q : PendWrite → Bool) : (drainIf s q).groups = s.groups := by
  have key : ∀ (ps : List PendWrite) (acc : State × List PendWrite), (ps.foldl (fun (acc : State × List PendWrite) p =>
      if q p && !(acc.2.any fun r => precedes s r p) then (performWrite acc.1 p, acc.2) else (acc.1, acc.2 ++ [p])) acc).1.groups = acc.1.groups := by
    intro ps
    induction ps with
    | nil => intro acc; rfl
    | cons p ps ih =>
      intro acc
      rw [List.foldl_cons, ih]
      split
      · exact performWrite_groups ..
      · rfl
  exact key s.pend (s, [])

@[simp] theorem drainDie_groups (s : State) (d : Nat) : (drainDie s d).groups = s.groups := drainIf_groups ..

/-! ## The end of a word on a state that it has changed -/

/-- A word that has left the groups as they were finds its group and warp as before. -/
theorem here_of_groups {e : Env} {s u : State} (h : Here e s) (hg : u.groups = s.groups) : Here e u :=
  ⟨by rw [group?, hg]; exact h.1, h.2⟩

theorem on_of_here {e : Env} {u : State} (h : Here e u) : e.on u = e := by
  have hw : warp? u e.g e.w = some e.wp := by simp [warp?, h.1, h.2]
  simp [Env.on, groupOf, warpOf, h.1, hw]

theorem on_of_reads {e : Env} {u : State} {gr : Group} {wp : Warp} (hg : group? u e.g = some gr) (hw : gr.warps[e.w]? = some wp) :
    e.on u = { e with gr := gr, wp := wp } := by
  have hw' : warp? u e.g e.w = some wp := by simp [warp?, hg, hw]
  simp [Env.on, groupOf, warpOf, hg, hw']

/-- What retiring notes of a word reads of its group no more than core, context and budget. -/
theorem retire_congr (s0 t : State) (i : Instr) (e : Env) {gr : Group} {wp : Warp} (hc : gr.core = e.gr.core) (hx : gr.ctx = e.gr.ctx)
    (hl : gr.logits = e.gr.logits) (ha : affineWord s0 { e with gr := gr, wp := wp } i = affineWord s0 e i)
    (hb : bankReads { e with gr := gr, wp := wp } i = bankReads e i) : retire s0 { e with gr := gr, wp := wp } i t = retire s0 e i t := by
  have hn : noteRegs s0 { e with gr := gr, wp := wp } i = noteRegs s0 e i := by
    funext x; simp only [noteRegs, ha, hc]
  simp only [retire, noteWord, countWord, leaveTurn, hn, ha, hb, hc, hx, hl]

/-- A word that has brought about u and has no results ends settled on u. -/
theorem settled_on {i : Instr} {s u : State} {e : Env} {gr : Group} {wp : Warp} (h : Issues i s e) (hg : group? u e.g = some gr)
    (hw : gr.warps[e.w]? = some wp) (hc : gr.core = e.gr.core) (hx : gr.ctx = e.gr.ctx) (hl : gr.logits = e.gr.logits)
    (ha : affineWord s { e with gr := gr, wp := wp } i = affineWord s e i) (hb : bankReads { e with gr := gr, wp := wp } i = bankReads e i) :
    ∃ t, finish e i (.done u) s = .next t ∧ Settled (e.on u) u t noResult := by
  refine ⟨_, finish_done h u, ?_⟩
  rw [on_of_reads hg hw, ← retire_congr s (modWarp u e.g e.w fun x => advance x e.atPc) i e hc hx hl ha hb]
  exact settled_of_wrote (e := { e with gr := gr, wp := wp }) s i (wrote_refl ⟨hg, hw⟩)

/-! ## The lanes of a word in issue -/

theorem mask_ext {a b : Mask} (h : ∀ l, l < 32 → bit a l = bit b l) : a = b := BitVec.eq_of_getLsbD_eq h

theorem bit_not {m : Mask} {l : Nat} (hl : l < 32) : bit (~~~m) l = !bit m l := by simp [bit, hl]

theorem bit_foldl_or (hs : List HoldRec) (m : Mask) (l : Nat) :
    bit (hs.foldl (fun m h => m ||| h.lanes) m) l = true ↔ bit m l = true ∨ ∃ h ∈ hs, bit h.lanes l = true := by
  induction hs generalizing m with
  | nil => simp
  | cons h hs ih =>
    rw [List.foldl_cons, ih]
    have : bit (m ||| h.lanes) l = (bit m l || bit h.lanes l) := by simp [bit]
    simp [this, or_assoc]

theorem bit_heldLanes (wp : Warp) (l : Nat) : bit (heldLanes wp) l = true ↔ ∃ h ∈ wp.holds, bit h.lanes l = true := by
  simp [heldLanes, bit_foldl_or]

/-- The lanes of the word in issue are those its selection chose, as far as they still stand there (R100). -/
theorem atPc_of_env? {i : Instr} {s : State} {e : Env} (h : env? i s = some e) : ∃ lg : LaneGroup, e.atPc = chosenLanes e.wp lg ∧ e.pc = lg.pc := by
  unfold env? at h
  split at h
  · cases h
  rename_i lg _
  split at h
  · cases h
  split at h
  · cases h
  simp only at h
  split at h
  · cases h
  · cases h; exact ⟨lg, rfl, rfl⟩

/-- A lane of the word in issue stands at the word, has not exited and is not held. -/
theorem lane_of_atPc {i : Instr} {s : State} {e : Env} (h : env? i s = some e) {l : Nat} (hl : bit e.atPc l = true) :
    (∃ x, e.wp.lanes[l]? = some x ∧ x.exited = false ∧ x.pc = e.pc) ∧ ∀ q ∈ e.wp.holds, bit q.lanes l = false := by
  obtain ⟨lg, hat, hpc⟩ := atPc_of_env? h
  have hlt := bit_lt hl
  rw [hat, chosenLanes, bit_and, bit_and, bit_not hlt, standing, bit_maskOf] at hl
  simp only [Bool.and_eq_true, Bool.not_eq_true', decide_eq_true_eq] at hl
  obtain ⟨⟨-, -, hst⟩, hheld⟩ := hl
  refine ⟨?_, fun q hq => ?_⟩
  · split at hst
    · rename_i x hx
      simp only [Bool.and_eq_true, Bool.not_eq_true', beq_iff_eq] at hst
      exact ⟨x, hx, hst.1, by rw [hpc]; exact hst.2⟩
    · cases hst
  · by_contra hc
    rw [(bit_heldLanes ..).mpr ⟨q, hq, by simpa using hc⟩] at hheld
    cases hheld

/-- The check of R142 says what it names. -/
theorem converged_iff {i : Instr} {s : State} {e : Env} (h : Issues i s e) : converged e = true ↔ Together e := by
  have halive (l : Nat) (hl : l < 32) : bit (aliveLanes e.wp) l = true ↔ ∃ x, e.wp.lanes[l]? = some x ∧ x.exited = false := by
    rw [aliveLanes, bit_maskOf]
    simp only [hl, decide_true, Bool.true_and]
    cases e.wp.lanes[l]? <;> simp
  rw [converged, beq_iff_eq]
  constructor
  · intro heq l x hl hx hex
    rw [heq]; exact (halive l hl).mpr ⟨x, hx, hex⟩
  · intro ht
    refine mask_ext fun l hl => ?_
    rw [Bool.eq_iff_iff, halive l hl]
    constructor
    · intro hb
      obtain ⟨⟨x, hx, hex, -⟩, -⟩ := lane_of_atPc h.1 hb
      exact ⟨x, hx, hex⟩
    · rintro ⟨x, hx, hex⟩
      exact ht l x hl hx hex

end Sys2Proof.Machine
end

section
/-! PROOFS. The work class: templates (R129, R146 to R148) and register growth (R149). -/

namespace Sys2Proof.Machine

/-! ## The end of holds -/

theorem park_holds (m : Mask) (wp : Warp) : (park m wp).holds = wp.holds := by
  obtain ⟨p, q, h⟩ := park_only m wp; rw [h]

theorem park_lanes (m : Mask) (wp : Warp) : (park m wp).lanes = wp.lanes := by
  obtain ⟨p, q, h⟩ := park_only m wp; rw [h]

theorem endHold_holds (h : HoldRec) (wp : Warp) : (endHold h wp).holds = wp.holds.erase h := by
  unfold endHold
  simp only
  split
  · split
    · exact park_holds ..
    · rfl
  · rfl

theorem endHold_lanes (h : HoldRec) (wp : Warp) : (endHold h wp).lanes = (advance wp h.lanes).lanes := by
  unfold endHold
  simp only
  split
  · split
    · exact park_lanes ..
    · rfl
  · rfl

theorem foldl_endHold_holds (hs : List HoldRec) (wp : Warp) : (hs.foldl (fun x h => endHold h x) wp).holds = wp.holds.diff hs := by
  induction hs generalizing wp with
  | nil => simp
  | cons h hs ih => rw [List.foldl_cons, ih, endHold_holds, List.diff_cons]

/-- Every hold that is ended is gone. -/
theorem endHolds_none (wp : Warp) (q : HoldRec → Bool) : ∀ h ∈ (endHolds wp q).holds, q h = false := by
  intro h hm
  rw [endHolds, foldl_endHold_holds] at hm
  by_contra hq
  have hpos := List.count_pos_iff.mpr hm
  rw [List.count_diff, List.count_filter (by simpa using hq)] at hpos
  omega

/-- A lane that no hold has stays where it is. -/
theorem foldl_endHold_lane {hs : List HoldRec} {l : Nat} (h : ∀ q ∈ hs, bit q.lanes l = false) (wp : Warp) :
    (hs.foldl (fun x h => endHold h x) wp).lanes[l]? = wp.lanes[l]? := by
  induction hs generalizing wp with
  | nil => rfl
  | cons a hs ih =>
    rw [List.foldl_cons, ih (fun q hq => h q (List.mem_cons_of_mem _ hq)), endHold_lanes, mem_lanes_advance, h a (List.mem_cons_self ..)]
    simp

theorem endHolds_lane {wp : Warp} {l : Nat} (q : HoldRec → Bool) (h : ∀ r ∈ wp.holds, bit r.lanes l = false) :
    (endHolds wp q).lanes[l]? = wp.lanes[l]? := foldl_endHold_lane (fun r hr => h r (List.mem_of_mem_filter hr)) wp

/-! ## FREEZE, TNEST and TSIGNAL -/

/-- The other warps of a word's group that have not ended. -/
def othersOf (e : Env) : List Warp := e.gr.warps.filter fun w => w.index != e.wp.index && !w.ended

theorem forall_othersOf (e : Env) (p : Warp → Prop) : (∀ w ∈ othersOf e, p w) ↔ ∀ w ∈ e.gr.warps, w.index ≠ e.wp.index → w.ended = false → p w := by
  simp only [othersOf, List.mem_filter, Bool.and_eq_true, bne_iff_ne, ne_eq, Bool.not_eq_true', and_imp]

/-- What FREEZE asks of its warp and group (R129, R146). -/
def FreezeOk (e : Env) (n : Nat) : Prop :=
  Together e ∧ (e.gr.kind = .prologue ∨ ∃ t, e.gr.kind = .nested t) ∧ n ≤ 16777215 ∧
    ((∀ w ∈ e.gr.warps, w.index ≠ e.wp.index → w.ended = false → (freezeCount w).isSome = true) →
      ∀ w ∈ e.gr.warps, w.index ≠ e.wp.index → w.ended = false → freezeCount w = some n)

/-- The check of FREEZE, as its body makes it. -/
def freezeFails (e : Env) (n : Nat) : Bool :=
  !converged e || !(match e.gr.kind with | .prologue => true | .nested _ => true | _ => false) || decide (n > 16777215) ||
    ((othersOf e).all (fun w => (freezeCount w).isSome) && (othersOf e).any (fun w => freezeCount w != some n))

theorem freezeFails_iff {i : Instr} {s : State} {e : Env} (h : Issues i s e) (n : Nat) : freezeFails e n = false ↔ FreezeOk e n := by
  have hkind : (match e.gr.kind with | .prologue => true | .nested _ => true | _ => false) = true ↔ e.gr.kind = .prologue ∨ ∃ t, e.gr.kind = .nested t := by
    cases e.gr.kind <;> simp
  have hcounts : ((othersOf e).all (fun w => (freezeCount w).isSome) && (othersOf e).any (fun w => freezeCount w != some n)) = false ↔
      ((∀ w ∈ othersOf e, (freezeCount w).isSome = true) → ∀ w ∈ othersOf e, freezeCount w = some n) := by
    rw [Bool.and_eq_false_imp, List.all_eq_true, List.any_eq_false]
    simp only [bne_iff_ne, ne_eq, not_not]
  rw [freezeFails, FreezeOk, ← forall_othersOf, ← forall_othersOf, Bool.or_eq_false_iff, Bool.or_eq_false_iff, Bool.or_eq_false_iff, hcounts,
    Bool.not_eq_false', Bool.not_eq_false', converged_iff h, hkind, decide_eq_false_iff_not, Nat.not_lt, and_assoc, and_assoc]

theorem exec_freeze {m : Bool} {a : Reg} {s : State} {e : Env} {l : Nat} (h : Issues (.freeze m a) s e) (hl : leader e.live = some l) :
    exec (.freeze m a) s = finish e (.freeze m a) (if freezeFails e (e.v s a l).toNat then .trap s .template e.live 0 0
      else .hold (drainDie s e.die) (.freeze (e.v s a l).toNat) e.atPc) s := by
  show execFreeze m a s = _
  rw [execFreeze, runWord_issues h, hl]; rfl

theorem freeze_holds {m : Bool} {a : Reg} {s : State} {e : Env} {l : Nat} (h : Issues (.freeze m a) s e) (hl : leader e.live = some l)
    (hok : FreezeOk e (e.v s a l).toNat) : ∃ t, exec (.freeze m a) s = .next t ∧
      Held (.freeze m a) (e.on (drainDie s e.die)) (drainDie s e.die) t (.freeze (e.v s a l).toNat) e.atPc := by
  have hu : Here e (drainDie s e.die) := here_of_groups (issues_here h) (drainDie_groups ..)
  refine ⟨_, by rw [exec_freeze h hl, if_neg (by simp [(freezeFails_iff h _).mpr hok]), finish_hold h], ?_⟩
  rw [on_of_here hu]
  exact held_addHold _ _ _ hu

theorem freeze_faults {m : Bool} {a : Reg} {s : State} {e : Env} {l : Nat} (h : Issues (.freeze m a) s e) (hl : leader e.live = some l)
    (hok : ¬ FreezeOk e (e.v s a l).toNat) : Faults (.freeze m a) s e .template e.live 0 0 := by
  have hf : freezeFails e (e.v s a l).toNat = true := by
    rw [← Bool.not_eq_false, freezeFails_iff h]; exact hok
  rw [Faults, exec_freeze h hl, if_pos hf, finish_trap]

/-- Every other warp of the group that has not ended is held at a TNEST. -/
def OthersNest (e : Env) : Prop := ∀ w ∈ e.gr.warps, w.index ≠ e.wp.index → w.ended = false → ∃ h ∈ w.holds, h.kind = .tnest

/-- A group that a TNEST makes a nested prologue (R147). -/
def nestedGroup (tm : Nat) (gr : Group) : Group :=
  { gr with kind := .nested tm, warps := gr.warps.map fun w => endHolds w fun h => h.kind == .tnest }

/-- The body of TNEST in a group that a template has made. -/
def tnestBody (tm : Nat) (e : Env) (t : State) : WordRes :=
  if !converged e then .trap t .template e.live 0 0
  else if e.gr.depth ≥ 3 then .trap t .depth e.live 0 0
  else if poolOf t e.gr = 0 then .trap t .template e.live 0 0
  else if (othersOf e).all fun w => w.holds.any fun h => h.kind == .tnest then .done (modGroup t e.g (nestedGroup tm))
  else .hold t .tnest e.atPc

theorem exec_tnest_instance {m : Bool} {s : State} {e : Env} {tm : Nat} (h : Issues (.tnest m) s e) (hk : e.gr.kind = .instance_ tm) :
    exec (.tnest m) s = finish e (.tnest m) (tnestBody tm e s) s := by
  show execTnest m s = _
  rw [execTnest, runWord_issues h]; simp only [hk]; rfl

theorem exec_tnest_other {m : Bool} {s : State} {e : Env} (h : Issues (.tnest m) s e) (hk : ∀ tm, e.gr.kind ≠ .instance_ tm) :
    exec (.tnest m) s = finish e (.tnest m) (.trap s .template e.live 0 0) s := by
  show execTnest m s = _
  rw [execTnest, runWord_issues h]
  cases hg : e.gr.kind with
  | instance_ tm => exact absurd hg (hk tm)
  | plain | prologue | nested | subgroup => rfl

theorem allNest_iff (e : Env) : ((othersOf e).all fun w => w.holds.any fun h => h.kind == .tnest) = true ↔ OthersNest e := by
  rw [OthersNest, ← forall_othersOf, List.all_eq_true]
  simp only [List.any_eq_true, beq_iff_eq]

theorem tnestBody_allowed {i : Instr} {s : State} {e : Env} {tm : Nat} (h : Issues i s e) (ht : Together e) (hd : e.gr.depth < 3) (hp : poolOf s e.gr ≠ 0) :
    (OthersNest e → tnestBody tm e s = .done (modGroup s e.g (nestedGroup tm))) ∧ (¬ OthersNest e → tnestBody tm e s = .hold s .tnest e.atPc) := by
  have hc := (converged_iff h).mpr ht
  constructor
  · intro ha
    rw [tnestBody, if_neg (by simp [hc]), if_neg (by omega), if_neg hp, if_pos ((allNest_iff e).mpr ha)]
  · intro ha
    rw [tnestBody, if_neg (by simp [hc]), if_neg (by omega), if_neg hp, if_neg (mt (allNest_iff e).mp ha)]

/-- The last warp's TNEST: the group is a nested prologue, and every warp goes on (R147). -/
theorem tnest_nests {m : Bool} {s : State} {e : Env} {tm : Nat} (h : Issues (.tnest m) s e) (hk : e.gr.kind = .instance_ tm) (ht : Together e)
    (hd : e.gr.depth < 3) (hp : poolOf s e.gr ≠ 0) (ha : OthersNest e) :
    ∃ t, exec (.tnest m) s = .next t ∧ (groupOf e t).kind = .nested tm ∧ (∀ wp ∈ (groupOf e t).warps, ∀ h ∈ wp.holds, h.kind ≠ .tnest) ∧
      ∀ l x, (warpOf e t).lanes[l]? = some x → bit e.atPc l = true → x.pc = e.pc + 8 := by
  obtain ⟨hg, hw⟩ := issues_here h
  set u := modGroup s e.g (nestedGroup tm) with hu
  set wp := endHolds e.wp (fun h => h.kind == .tnest) with hwp
  have hug : group? u e.g = some (nestedGroup tm e.gr) := by rw [hu, group?_modGroup_self, hg]; rfl
  have huw : (nestedGroup tm e.gr).warps[e.w]? = some wp := by simp [nestedGroup, hw, hwp]
  obtain ⟨t, hf, hset⟩ := settled_on h hug huw rfl rfl rfl rfl rfl
  rw [on_of_reads hug huw] at hset
  obtain ⟨-, ⟨-, -, -, gr, hgr, hkeep, hlen, hothers⟩, -, hlanes, hwarp, -, -, -, -⟩ := hset
  have hgt : groupOf e t = gr := by simp only [groupOf, show group? t e.g = some gr from hgr]; rfl
  have hwt : ∃ x, gr.warps[e.w]? = some x := by
    have : e.w < gr.warps.length := by rw [hlen]; exact (List.getElem?_eq_some_iff.mp huw).1
    exact ⟨_, List.getElem?_eq_getElem this⟩
  obtain ⟨x, hx⟩ := hwt
  have hxw : warp? t e.g e.w = some x := by simp [warp?, show group? t e.g = some gr from hgr, hx]
  have hwo : ∀ d : Warp, (warp? t e.g e.w).getD d = x := fun d => by rw [hxw]; rfl
  simp only [WarpIs, LanesAre, warpOf, hwo] at hwarp hlanes
  refine ⟨t, ?_, ?_, ?_, ?_⟩
  · rw [exec_tnest_instance h hk, (tnestBody_allowed h ht hd hp).1 ha, hf]
  · rw [hgt]; have := congrArg Group.kind hkeep; exact this
  · rw [hgt]
    intro y hy q hq
    obtain ⟨w, hyw⟩ := List.mem_iff_getElem?.mp hy
    by_cases hwe : w = e.w
    · subst hwe
      obtain rfl : x = y := by rw [hx] at hyw; exact Option.some.inj hyw
      have hholds := congrArg (fun y : Warp => y.holds) hwarp
      replace hholds : x.holds = wp.holds := hholds
      rw [hholds] at hq
      simpa using endHolds_none _ _ q hq
    · rw [hothers w hwe] at hyw
      obtain ⟨y0, -, rfl⟩ := Option.map_eq_some_iff.mp (by simpa [nestedGroup] using hyw)
      simpa using endHolds_none _ _ q hq
  · intro l y hy hl
    obtain ⟨⟨z, hz, -, hpc⟩, hfree⟩ := lane_of_atPc h.1 hl
    simp only [warpOf, hwo] at hy
    rw [hlanes l, endHolds_lane _ hfree, hz] at hy
    obtain rfl := Option.some.inj hy
    simp [onward, hl, hpc]

theorem tnest_waits {m : Bool} {s : State} {e : Env} {tm : Nat} (h : Issues (.tnest m) s e) (hk : e.gr.kind = .instance_ tm) (ht : Together e)
    (hd : e.gr.depth < 3) (hp : poolOf s e.gr ≠ 0) (ha : ¬ OthersNest e) :
    ∃ t, exec (.tnest m) s = .next t ∧ Held (.tnest m) e s t .tnest e.atPc :=
  ⟨_, by rw [exec_tnest_instance h hk, (tnestBody_allowed h ht hd hp).2 ha, finish_hold h], held_addHold _ _ _ (issues_here h)⟩

theorem tnest_too_deep {m : Bool} {s : State} {e : Env} {tm : Nat} (h : Issues (.tnest m) s e) (hk : e.gr.kind = .instance_ tm) (ht : Together e)
    (hd : 3 ≤ e.gr.depth) : Faults (.tnest m) s e .depth e.live 0 0 := by
  have hb : tnestBody tm e s = .trap s .depth e.live 0 0 := by
    rw [tnestBody, if_neg (by simp [(converged_iff h).mpr ht]), if_pos hd]
  rw [Faults, exec_tnest_instance h hk, hb, finish_trap]

/-- TNEST in a group that no template has made, with lanes of its warp elsewhere, or without a backing pool faults TEMPLATE (R130, R147). -/
theorem tnest_refused {m : Bool} {s : State} {e : Env} (h : Issues (.tnest m) s e)
    (hc : (∀ tm, e.gr.kind ≠ .instance_ tm) ∨ ¬ Together e ∨ (e.gr.depth < 3 ∧ poolOf s e.gr = 0)) :
    Faults (.tnest m) s e .template e.live 0 0 := by
  by_cases hk : ∃ tm, e.gr.kind = .instance_ tm
  · obtain ⟨tm, hk⟩ := hk
    have hb : tnestBody tm e s = .trap s .template e.live 0 0 := by
      rcases hc with hno | ht | ⟨hd, hp⟩
      · exact absurd hk (hno tm)
      · rw [tnestBody, if_pos (by simpa using mt (converged_iff h).mp ht)]
      · by_cases ht : converged e = true
        · rw [tnestBody, if_neg (by simp [ht]), if_neg (by omega), if_pos hp]
        · rw [tnestBody, if_pos (by simpa using ht)]
    rw [Faults, exec_tnest_instance h hk, hb, finish_trap]
  · rw [Faults, exec_tnest_other h fun tm htm => hk ⟨tm, htm⟩, finish_trap]

/-- The body of TSIGNAL, by the address read in the leader. -/
def tsignalBody (va : DWord) (e : Env) (s : State) : WordRes :=
  if va.toNat % 4 ≠ 0 then .trap s .align e.live va 0
  else match e.gr.kind with
    | .nested _ => .done (modGroup s e.g fun x => { x with tsignal := some va })
    | _ => .trap s .template e.live 0 0

theorem exec_tsignal {m : Bool} {a : Reg} {s : State} {e : Env} {l : Nat} (h : Issues (.tsignal m a) s e) (hl : leader e.live = some l) :
    exec (.tsignal m a) s = finish e (.tsignal m a) (tsignalBody (e.d s a l) e s) s := by
  show execTsignal m a s = _
  rw [execTsignal, runWord_issues h, hl]; rfl

theorem tsignal_records {m : Bool} {a : Reg} {s : State} {e : Env} {l tm : Nat} (h : Issues (.tsignal m a) s e) (hl : leader e.live = some l)
    (ha : (e.d s a l).toNat % 4 = 0) (hk : e.gr.kind = .nested tm) :
    ∃ t u, u = modGroup s e.g (fun x => { x with tsignal := some (e.d s a l) }) ∧ exec (.tsignal m a) s = .next t ∧ Settled (e.on u) u t noResult := by
  obtain ⟨hg, hw⟩ := issues_here h
  have hug : group? (modGroup s e.g fun x => { x with tsignal := some (e.d s a l) }) e.g = some { e.gr with tsignal := some (e.d s a l) } := by
    rw [group?_modGroup_self, hg]; rfl
  obtain ⟨t, hf, hset⟩ := settled_on h hug hw rfl rfl rfl rfl rfl
  refine ⟨t, _, rfl, ?_, hset⟩
  rw [exec_tsignal h hl, tsignalBody, if_neg (by omega), hk]; exact hf

theorem tsignal_refused {m : Bool} {a : Reg} {s : State} {e : Env} {l : Nat} (h : Issues (.tsignal m a) s e) (hl : leader e.live = some l)
    (ha : (e.d s a l).toNat % 4 = 0) (hk : ∀ tm, e.gr.kind ≠ .nested tm) : Faults (.tsignal m a) s e .template e.live 0 0 := by
  have hb : tsignalBody (e.d s a l) e s = .trap s .template e.live 0 0 := by
    rw [tsignalBody, if_neg (by omega)]
    cases hg : e.gr.kind with
    | nested tm => exact absurd hg (hk tm)
    | plain | prologue | instance_ | subgroup => rfl
  rw [Faults, exec_tsignal h hl, hb, finish_trap]

theorem tsignal_misaligned {m : Bool} {a : Reg} {s : State} {e : Env} {l : Nat} (h : Issues (.tsignal m a) s e) (hl : leader e.live = some l)
    (ha : (e.d s a l).toNat % 4 ≠ 0) : Faults (.tsignal m a) s e .align e.live (e.d s a l) 0 := by
  rw [Faults, exec_tsignal h hl, tsignalBody, if_pos ha, finish_trap]

/-! ## Rows given and given back (R149) -/

/-- A sparse map cut down to keys: what is kept reads as before, the rest is gone. -/
theorem sget?_filter_keys {α : Type} (m : List (Nat × α)) (q : Nat → Bool) (k : Nat) :
    sget? (m.filter fun p => q p.1) k = if q k = true then sget? m k else none := by
  induction m with
  | nil => simp
  | cons p r ih =>
    obtain ⟨a, v⟩ := p
    rw [List.filter_cons]
    by_cases hk : a = k
    · subst hk
      by_cases ha : q a = true <;> simp [sget?, ha, ih]
    · by_cases ha : q a = true <;> simp [sget?, ha, hk, ih]

/-- The temporary rows of a warp's handler (R353). -/
def tempsOf (wp : Warp) : List Nat := match wp.handler with | some h => h.temps | none => []

theorem ownsRow_eq (gr : Group) (wp : Warp) (r : Nat) : ownsRow gr wp r = (gr.kind.tmpl?.isNone || wp.priv.contains r || (tempsOf wp).contains r) := by
  unfold ownsRow tempsOf; cases wp.handler <;> rfl

theorem mem_tempsOf {e : Env} {w r : Nat} {wp : Warp} (hw : e.gr.warps[w]? = some wp) :
    (∃ y h, e.gr.warps[w]? = some y ∧ y.handler = some h ∧ r ∈ h.temps) ↔ r ∈ tempsOf wp := by
  unfold tempsOf
  constructor
  · rintro ⟨y, h, hy, hh, hr⟩
    obtain rfl : y = wp := by rw [hw] at hy; exact (Option.some.inj hy).symm
    rw [hh]; exact hr
  · intro hr
    cases hh : wp.handler with
    | none => rw [hh] at hr; cases hr
    | some h => rw [hh] at hr; exact ⟨wp, h, hw, hh, hr⟩

/-- A reading depends on the warp's own value of the register, on whether the row is its own, and on what is left where nothing is written. -/
theorem regRead_congr {s u : State} {gr gr' : Group} {wp wp' : Warp} {r l : Nat} (ht : u.tmpls = s.tmpls) (hk : gr'.kind = gr.kind)
    (hi : wp'.index = wp.index) (hown : ownsRow gr' wp' r = ownsRow gr wp r)
    (hv : (sget? wp'.regs (32 * r + l)).getD (staleReg gr'.seed gr'.left wp.index (32 * r + l)) =
      (sget? wp.regs (32 * r + l)).getD (staleReg gr.seed gr.left wp.index (32 * r + l))) :
    regRead u gr' wp' r l = regRead s gr wp r l := by
  have htm : tmpl? u = tmpl? s := by funext k; simp [tmpl?, ht]
  simp only [regRead, hown, hi, hv, hk, htm]

/-- A row that a warp owns reads as its own value. -/
theorem regRead_own {s : State} {gr : Group} {wp : Warp} {r : Nat} (h : ownsRow gr wp r = true) (l : Nat) :
    regRead s gr wp r l = (sget? wp.regs (32 * r + l)).getD (staleReg gr.seed gr.left wp.index (32 * r + l)) := by
  rw [regRead, if_pos h]

theorem pickFrom_mem {n : Nat} (l : List (BitVec n)) (k : Nat) : pickFrom l k = 0 ∨ pickFrom l k ∈ l := by
  cases l with
  | nil => exact .inl rfl
  | cons a r =>
    show (0 :: a :: r)[k % ((a :: r).length + 1)]?.getD 0 = 0 ∨ (0 :: a :: r)[k % ((a :: r).length + 1)]?.getD 0 ∈ a :: r
    have hlt : k % ((a :: r).length + 1) < (0 :: a :: r).length := Nat.mod_lt _ (Nat.succ_pos _)
    rw [List.getElem?_eq_getElem hlt]
    exact List.mem_cons.mp (List.getElem_mem hlt)

/-- A warp of a group that RGROW has grown to n. -/
def grownWarp (gr : Group) (n : Nat) (w : Warp) : Warp :=
  { w with
    regs := w.regs.filter fun p => decide (p.1 / 32 < gr.granted) || decide (n ≤ p.1 / 32) || (tempsOf w).contains (p.1 / 32)
    affine := w.affine.filter fun r => decide (r < gr.granted)
    priv := if gr.kind.tmpl?.isSome then sinsAll w.priv ((List.range n).filter (gr.granted ≤ ·)) else w.priv }

theorem growRegs_eq (past : List Word) (gr : Group) (n : Nat) : growRegs past gr n =
    { gr with granted := n, left := (gr.granted, past) :: gr.left.filter (fun p => decide (p.1 < gr.granted)), warps := gr.warps.map (grownWarp gr n) } := rfl

/-- Below the old count nothing is left otherwise than before. -/
theorem leftAt_growRegs_below (past : List Word) (gr : Group) (n : Nat) {r : Nat} (h : r < gr.granted) :
    leftAt (growRegs past gr n).left r = leftAt gr.left r := by
  have hp : (fun p : Nat × List Word => decide (decide (p.1 < gr.granted) = true ∧ decide (p.1 ≤ r) = true)) = fun p => decide (p.1 ≤ r) := by
    funext p
    by_cases hp : p.1 ≤ r
    · simp [hp, show p.1 < gr.granted by omega]
    · simp [hp]
  rw [growRegs_eq, leftAt, leftAt, List.find?_cons_of_neg (by simpa using h), List.find?_filter, hp]

theorem leftAt_growRegs_above (past : List Word) (gr : Group) (n : Nat) {r : Nat} (h : gr.granted ≤ r) :
    leftAt (growRegs past gr n).left r = past := by
  rw [growRegs_eq, leftAt, List.find?_cons_of_pos (by simpa using h)]; rfl

theorem sget?_grownWarp (gr : Group) (n : Nat) (w : Warp) (r : Nat) {l : Nat} (hl : l < 32) : sget? (grownWarp gr n w).regs (32 * r + l) =
    if r < gr.granted ∨ n ≤ r ∨ r ∈ tempsOf w then sget? w.regs (32 * r + l) else none := by
  have hr : (32 * r + l) / 32 = r := by omega
  have hf := sget?_filter_keys w.regs (fun k => decide (k / 32 < gr.granted) || decide (n ≤ k / 32) || (tempsOf w).contains (k / 32)) (32 * r + l)
  refine hf.trans ?_
  simp only [hr, Bool.or_eq_true, decide_eq_true_eq, List.contains_iff_mem, or_assoc]

theorem tempsOf_grownWarp (gr : Group) (n : Nat) (w : Warp) : tempsOf (grownWarp gr n w) = tempsOf w := rfl

theorem ownsRow_grownWarp_below (past : List Word) (gr : Group) (n : Nat) (w : Warp) {r : Nat} (h : r < gr.granted) :
    ownsRow (growRegs past gr n) (grownWarp gr n w) r = ownsRow gr w r := by
  have hp : (grownWarp gr n w).priv.contains r = w.priv.contains r := by
    unfold grownWarp
    simp only
    split
    · rw [Bool.eq_iff_iff, List.contains_iff_mem, List.contains_iff_mem, mem_sinsAll, List.mem_filter]
      simp [show ¬ gr.granted ≤ r by omega]
    · rfl
  rw [ownsRow_eq, ownsRow_eq, hp, tempsOf_grownWarp]; rfl

theorem ownsRow_grownWarp_new (past : List Word) (gr : Group) {n : Nat} (w : Warp) {r : Nat} (h : gr.granted ≤ r) (hn : r < n) :
    ownsRow (growRegs past gr n) (grownWarp gr n w) r = true := by
  rw [ownsRow_eq, growRegs_eq]
  cases hk : gr.kind.tmpl? with
  | none => simp
  | some t =>
    have hp : (grownWarp gr n w).priv.contains r = true := by
      rw [List.contains_iff_mem, grownWarp]; simp [hk, h, hn]
    rw [hp]; simp

/-- Registers below the old count, and temporary rows with a value, read as before. -/
theorem regRead_growRegs_old {s u : State} (past : List Word) (gr : Group) (n : Nat) (w : Warp) {r l : Nat} (hl : l < 32) (ht : u.tmpls = s.tmpls)
    (h : r < gr.granted ∨ (r ∈ tempsOf w ∧ (sget? w.regs (32 * r + l)).isSome = true)) :
    regRead u (growRegs past gr n) (grownWarp gr n w) r l = regRead s gr w r l := by
  by_cases hr : r < gr.granted
  · refine regRead_congr ht rfl rfl (ownsRow_grownWarp_below past gr n w hr) ?_
    rw [sget?_grownWarp _ _ _ _ hl, if_pos (.inl hr)]
    have hr32 : (32 * r + l) / 32 = r := by omega
    have hstale : staleReg (growRegs past gr n).seed (growRegs past gr n).left w.index (32 * r + l) = staleReg gr.seed gr.left w.index (32 * r + l) := by
      unfold staleReg; rw [hr32, leftAt_growRegs_below past gr n hr]; rfl
    rw [hstale]
  · obtain ⟨htemp, hsome⟩ := h.resolve_left hr
    obtain ⟨v, hv⟩ := Option.isSome_iff_exists.mp hsome
    have howns (g : Group) (x : Warp) (hx : tempsOf x = tempsOf w) : ownsRow g x r = true := by
      rw [ownsRow_eq, hx, List.contains_iff_mem.mpr htemp]; simp
    rw [regRead_own (howns _ _ (tempsOf_grownWarp gr n w)), regRead_own (howns gr w rfl), sget?_grownWarp _ _ _ _ hl, if_pos (.inr (.inr htemp)), hv]; rfl

/-- New registers read as zero or as a value of `past` (R6, R149), and zero in fixed-star mode (R22). -/
theorem regRead_growRegs_new (u : State) (past : List Word) (gr : Group) {n : Nat} (w : Warp) {r l : Nat} (hl : l < 32) (h : gr.granted ≤ r)
    (hn : r < n) (htemp : r ∉ tempsOf w) :
    (regRead u (growRegs past gr n) (grownWarp gr n w) r l = 0 ∨ regRead u (growRegs past gr n) (grownWarp gr n w) r l ∈ past) ∧
    (gr.seed = none → regRead u (growRegs past gr n) (grownWarp gr n w) r l = 0) := by
  have hr32 : (32 * r + l) / 32 = r := by omega
  have hread : regRead u (growRegs past gr n) (grownWarp gr n w) r l = staleReg gr.seed (growRegs past gr n).left w.index (32 * r + l) := by
    rw [regRead_own (ownsRow_grownWarp_new past gr w h hn), sget?_grownWarp _ _ _ _ hl,
      if_neg (by simp only [htemp, or_false]; omega)]; rfl
  rw [hread]
  unfold staleReg
  cases gr.seed with
  | none => exact ⟨.inl rfl, fun _ => rfl⟩
  | some k =>
    simp only [hr32, leftAt_growRegs_above past gr n h]
    exact ⟨pickFrom_mem _ _, fun hc => by cases hc⟩

/-- A warp of a group that RSHRINK has cut down to k registers. -/
def shrunkWarp (k : Nat) (w : Warp) : Warp :=
  { w with
    regs := w.regs.filter fun p => decide (p.1 / 32 < k) || (tempsOf w).contains (p.1 / 32)
    priv := w.priv.filter fun r => decide (r < k) || (tempsOf w).contains r
    tags := w.tags.filter fun p => decide (p / 32 < k) || (tempsOf w).contains (p / 32) }

/-- A group that RSHRINK has cut down to k registers (R149). -/
def shrunkGroup (k : Nat) (gr : Group) : Group := { gr with granted := k, warps := gr.warps.map (shrunkWarp k) }

/-- Registers below the new count, and temporary rows, read as before. -/
theorem regRead_shrunkGroup {s u : State} (k : Nat) (gr : Group) (w : Warp) {r l : Nat} (hl : l < 32) (ht : u.tmpls = s.tmpls)
    (h : r < k ∨ r ∈ tempsOf w) : regRead u (shrunkGroup k gr) (shrunkWarp k w) r l = regRead s gr w r l := by
  have hkeep : (decide (r < k) || (tempsOf w).contains r) = true := by simpa using h
  refine regRead_congr ht rfl rfl ?_ ?_
  · have hp : (shrunkWarp k w).priv.contains r = w.priv.contains r := by
      rw [Bool.eq_iff_iff, List.contains_iff_mem, List.contains_iff_mem, shrunkWarp, List.mem_filter, and_iff_left hkeep]
    rw [ownsRow_eq, ownsRow_eq, hp]; rfl
  · have hf := sget?_filter_keys w.regs (fun q => decide (q / 32 < k) || (tempsOf w).contains (q / 32)) (32 * r + l)
    rw [show (32 * r + l) / 32 = r by omega, if_pos hkeep] at hf
    exact congrArg (fun v : Option Word => v.getD (staleReg gr.seed gr.left w.index (32 * r + l))) hf

/-! ## RGROW and RSHRINK -/

theorem exec_rgrow {m : Bool} {q : BitVec 6} {s : State} {e : Env} (h : Issues (.rgrow m q) s e) :
    exec (.rgrow m q) s = finish e (.rgrow m q) (if 8 * q.toNat ≤ e.gr.granted then .done s
      else if growNeed e.gr (8 * q.toNat) ≤ freeRows s e.gr.core ∧ rowWaiter s e.gr.core = false then
        .done (modGroup s e.g fun x => growRegs (domainPast s e.gr.ctx) x (8 * q.toNat))
      else .hold s (.rgrow (8 * q.toNat)) e.atPc) s := by
  show execRgrow m q s = _
  rw [execRgrow, runWord_issues h]

theorem exec_rshrink {m : Bool} {q : BitVec 6} {s : State} {e : Env} (h : Issues (.rshrink m q) s e) :
    exec (.rshrink m q) s = finish e (.rshrink m q) (if 8 * q.toNat ≥ e.gr.granted then .done s
      else match (e.gr.warps.flatMap fun w => w.pending.filter fun p => 8 * q.toNat ≤ p / 32).head? with
        | some p => .trap s .hazard e.live (BitVec.ofNat 64 (p / 32)) 0
        | none => .done (modGroup s e.g (shrunkGroup (8 * q.toNat)))) s := by
  show execRshrink m q s = _
  rw [execRshrink, runWord_issues h]; rfl

/-- A word that leaves the state as it is completes. -/
theorem finish_done_completes {i : Instr} {s : State} {e : Env} (h : Issues i s e) : ∃ t, finish e i (.done s) s = .next t ∧ Settled e s t noResult :=
  ⟨_, finish_done h s, settled_of_wrote s i (wrote_refl (issues_here h))⟩

theorem regAt_of {s : State} {g w : Nat} {gr : Group} {wp : Warp} (hg : group? s g = some gr) (hw : gr.warps[w]? = some wp) (r l : Nat) :
    regAt s g w r l = regRead s gr wp r l := by
  simp [regAt, hg, hw]

theorem rgrow_no_effect {m : Bool} {q : BitVec 6} {s : State} {e : Env} (h : Issues (.rgrow m q) s e) (hn : 8 * q.toNat ≤ e.gr.granted) :
    Completes (.rgrow m q) s e noResult := by
  rw [Completes, exec_rgrow h, if_pos hn]
  exact finish_done_completes h

/-- RGROW takes its rows (R149): what the new registers read, and that the old ones read as before. -/
theorem rgrow_takes {m : Bool} {q : BitVec 6} {s : State} {e : Env} (h : Issues (.rgrow m q) s e) (hn : e.gr.granted < 8 * q.toNat)
    (hfree : (8 * q.toNat - e.gr.granted) * e.gr.warpsN ≤ freeRows s e.gr.core) (hwait : rowWaiter s e.gr.core = false) :
    ∃ t u, exec (.rgrow m q) s = .next t ∧ Settled (e.on u) u t noResult ∧
      groupOf e u = { e.gr with granted := 8 * q.toNat, left := (groupOf e u).left, warps := (groupOf e u).warps } ∧
      ∀ w wp r l, e.gr.warps[w]? = some wp → l < 32 →
        (r < e.gr.granted ∨ (r ∈ tempsOf wp ∧ (sget? wp.regs (32 * r + l)).isSome = true) → regAt u e.g w r l = regAt s e.g w r l) ∧
        (e.gr.granted ≤ r → r < 8 * q.toNat → r ∉ tempsOf wp → (regAt u e.g w r l = 0 ∨ regAt u e.g w r l ∈ domainPast s e.gr.ctx) ∧
          (e.gr.seed = none → regAt u e.g w r l = 0)) := by
  obtain ⟨hg, hw⟩ := issues_here h
  set n := 8 * q.toNat
  set past := domainPast s e.gr.ctx
  set u := modGroup s e.g fun x => growRegs past x n with hu
  have hug : group? u e.g = some (growRegs past e.gr n) := by rw [hu, group?_modGroup_self, hg]; rfl
  have hmap {w : Nat} {wp : Warp} (hwp : e.gr.warps[w]? = some wp) : (growRegs past e.gr n).warps[w]? = some (grownWarp e.gr n wp) := by
    rw [growRegs_eq, List.getElem?_map, hwp]; rfl
  obtain ⟨t, hf, hset⟩ := settled_on h hug (hmap hw) rfl rfl rfl rfl rfl
  have hgo : groupOf e u = growRegs past e.gr n := by rw [groupOf, hug]; rfl
  refine ⟨t, u, ?_, hset, by rw [hgo]; rfl, fun w wp r l hwp hl => ?_⟩
  · rw [exec_rgrow h, if_neg (by omega), if_pos ⟨hfree, hwait⟩, hf]
  · rw [regAt_of hug (hmap hwp), regAt_of hg hwp]
    exact ⟨regRead_growRegs_old past e.gr n wp hl (modGroup_tmpls ..), fun h1 h2 h3 => regRead_growRegs_new u past e.gr wp hl h1 h2 h3⟩

theorem rgrow_waits {m : Bool} {q : BitVec 6} {s : State} {e : Env} (h : Issues (.rgrow m q) s e) (hn : e.gr.granted < 8 * q.toNat)
    (hno : freeRows s e.gr.core < (8 * q.toNat - e.gr.granted) * e.gr.warpsN ∨ rowWaiter s e.gr.core = true) :
    ∃ t, exec (.rgrow m q) s = .next t ∧ Held (.rgrow m q) e s t (.rgrow (8 * q.toNat)) e.atPc := by
  have hc : ¬ (growNeed e.gr (8 * q.toNat) ≤ freeRows s e.gr.core ∧ rowWaiter s e.gr.core = false) := by
    rintro ⟨h1, h2⟩
    rcases hno with h3 | h3
    · exact absurd h1 (Nat.not_le.mpr h3)
    · rw [h2] at h3; cases h3
  exact ⟨_, by rw [exec_rgrow h, if_neg (by omega), if_neg hc, finish_hold h], held_addHold _ _ _ (issues_here h)⟩

theorem rshrink_no_effect {m : Bool} {q : BitVec 6} {s : State} {e : Env} (h : Issues (.rshrink m q) s e) (hn : e.gr.granted ≤ 8 * q.toNat) :
    Completes (.rshrink m q) s e noResult := by
  rw [Completes, exec_rshrink h, if_pos hn]
  exact finish_done_completes h

/-- The pending bits of registers from k on, over the warps of a group. -/
theorem mem_pendingFrom (gr : Group) (k p : Nat) :
    p ∈ (gr.warps.flatMap fun w => w.pending.filter fun p => k ≤ p / 32) ↔ (∃ w ∈ gr.warps, p ∈ w.pending) ∧ k ≤ p / 32 := by
  simp only [List.mem_flatMap, List.mem_filter, decide_eq_true_eq]
  exact ⟨fun ⟨w, hw, hp, hk⟩ => ⟨⟨w, hw, hp⟩, hk⟩, fun ⟨⟨w, hw, hp⟩, hk⟩ => ⟨w, hw, hp, hk⟩⟩

/-- RSHRINK gives the registers from n on back (R149). -/
theorem rshrink_gives {m : Bool} {q : BitVec 6} {s : State} {e : Env} (h : Issues (.rshrink m q) s e) (hn : 8 * q.toNat < e.gr.granted)
    (hp : ∀ w ∈ e.gr.warps, ∀ k ∈ w.pending, k / 32 < 8 * q.toNat) :
    ∃ t u, exec (.rshrink m q) s = .next t ∧ Settled (e.on u) u t noResult ∧
      groupOf e u = { e.gr with granted := 8 * q.toNat, warps := (groupOf e u).warps } ∧
      ∀ w wp, e.gr.warps[w]? = some wp → (∀ r l, l < 32 → r < 8 * q.toNat ∨ r ∈ tempsOf wp → regAt u e.g w r l = regAt s e.g w r l) ∧
        ∀ up, (groupOf e u).warps[w]? = some up → ∀ k ∈ up.tags, k / 32 < 8 * q.toNat ∨ k / 32 ∈ tempsOf wp := by
  obtain ⟨hg, hw⟩ := issues_here h
  set n := 8 * q.toNat
  set u := modGroup s e.g (shrunkGroup n) with hu
  have hug : group? u e.g = some (shrunkGroup n e.gr) := by rw [hu, group?_modGroup_self, hg]; rfl
  have hmap {w : Nat} {wp : Warp} (hwp : e.gr.warps[w]? = some wp) : (shrunkGroup n e.gr).warps[w]? = some (shrunkWarp n wp) := by
    rw [shrunkGroup, List.getElem?_map, hwp]; rfl
  have hnone : (e.gr.warps.flatMap fun w => w.pending.filter fun p => n ≤ p / 32).head? = none := by
    rw [List.head?_eq_none_iff, List.eq_nil_iff_forall_not_mem]
    intro p hmem
    obtain ⟨⟨w, hw, hpw⟩, hk⟩ := (mem_pendingFrom ..).mp hmem
    exact absurd (hp w hw p hpw) (Nat.not_lt.mpr hk)
  obtain ⟨t, hf, hset⟩ := settled_on h hug (hmap hw) rfl rfl rfl rfl rfl
  have hgo : groupOf e u = shrunkGroup n e.gr := by rw [groupOf, hug]; rfl
  refine ⟨t, u, ?_, hset, by rw [hgo]; rfl, fun w wp hwp => ⟨fun r l hl hr => ?_, fun up hup k hk => ?_⟩⟩
  · rw [exec_rshrink h, if_neg (by omega), hnone]; exact hf
  · rw [regAt_of hug (hmap hwp), regAt_of hg hwp]
    exact regRead_shrunkGroup n e.gr wp hl (modGroup_tmpls ..) hr
  · rw [hgo, hmap hwp] at hup
    obtain rfl := Option.some.inj hup
    simpa using (List.mem_filter.mp hk).2

theorem rshrink_hazard {m : Bool} {q : BitVec 6} {s : State} {e : Env} (h : Issues (.rshrink m q) s e) (hn : 8 * q.toNat < e.gr.granted)
    (hp : ∃ w ∈ e.gr.warps, ∃ k ∈ w.pending, 8 * q.toNat ≤ k / 32) :
    ∃ r, 8 * q.toNat ≤ r ∧ Faults (.rshrink m q) s e .hazard e.live (BitVec.ofNat 64 r) 0 := by
  obtain ⟨w, hw, k, hk, hkn⟩ := hp
  cases hhead : (e.gr.warps.flatMap fun w => w.pending.filter fun p => 8 * q.toNat ≤ p / 32).head? with
  | none =>
    rw [List.head?_eq_none_iff] at hhead
    have := (mem_pendingFrom e.gr (8 * q.toNat) k).mpr ⟨⟨w, hw, hk⟩, hkn⟩
    rw [hhead] at this; cases this
  | some p =>
    refine ⟨p / 32, ((mem_pendingFrom ..).mp (List.mem_of_mem_head? hhead)).2, ?_⟩
    rw [Faults, exec_rshrink h, if_neg (by omega), hhead]; rfl

/-- Settles O22: one lemma for each branch of each word. -/
theorem templateAndGrowthWordsComplete : Obligations.TemplateAndGrowthWordsComplete := by
  unfold Obligations.TemplateAndGrowthWordsComplete
  refine ⟨fun s e m a => ⟨fun l h hl => ⟨freeze_holds h hl, freeze_faults h hl⟩, fun h => ⟨fun tm hk ht hd hp => ⟨tnest_waits h hk ht hd hp, tnest_nests h hk ht hd hp⟩,
    fun tm hk ht hd => tnest_too_deep h hk ht hd, tnest_refused h⟩, fun l h hl => ⟨fun tm ha hk => tsignal_records h hl ha hk, tsignal_refused h hl, tsignal_misaligned h hl⟩⟩,
    fun s e m q => ⟨fun h => ⟨rgrow_no_effect h, fun hn hf hw => ?_, rgrow_waits h⟩, fun h => ⟨rshrink_no_effect h, fun hn hp => ?_, rshrink_hazard h⟩⟩⟩
  · obtain ⟨t, u, hexec, hset, hgroup, hregs⟩ := rgrow_takes h hn hf hw
    refine ⟨t, u, hexec, hset, hgroup, fun w wp r l hwp hl => ?_⟩
    simp only [mem_tempsOf hwp]
    exact hregs w wp r l hwp hl
  · obtain ⟨t, u, hexec, hset, hgroup, hregs⟩ := rshrink_gives h hn hp
    refine ⟨t, u, hexec, hset, hgroup, fun w wp hwp => ?_⟩
    simp only [mem_tempsOf hwp]
    exact hregs w wp hwp

end Sys2Proof.Machine
end

section
/-! PROOFS. The stores: why the statement about them fails as it stands. -/

namespace Sys2Proof.Machine

/-! ## A store from a core past the dies

The statement quantifies over every state, and a state may put a group on a core number past the 768 cores of the device. From
core 960 on `dieOf` gives a number that the writes of hosts and peers carry (5 and up), so `performWrite` takes the store for one of
theirs: a sequential store to host memory goes to device memory instead, and its bytes are not at their home. -/

/-- ST.SEQ.DEV of register 2 to the address in registers 0 and 1. -/
def strayStore : Instr := .st { mark := false, guard := none } { ord := .seq, scope := .dev, pol := 0, size := .b32, sx := false } 2 0 0

/-- The warp of a placed word, with 1 in register 2 of lane 0; its other registers read as zero. -/
def strayWarp : Warp := setReg (newWarp 0 0 0x10000 []) 2 0 1

/-- Its group, on core 960. -/
def strayGroup : Group := { placedGr with core := 960, warps := [strayWarp] }

/-- The store in issue in lane 0. The one page of its context lies in host memory, from address 0 on, and the link is up. -/
def strayState : State :=
  { placeWord State.reset 0 with
    issue := [], cur := some { placedGroup with lanes := 1 }, curWord := encode strayStore, groups := [(0, strayGroup)]
    mem := [(0x1000, 0x03), (0x1001, 0x20), (0x2000, 0x03), (0x2001, 0x30), (0x3000, 0x8D)]
    mgmt := { State.reset.mgmt with linkUp := true } }

def strayEnv : Env :=
  { g := 0, w := 0, pc := 0x10000, word := encode strayStore, mark := false, atPc := 1, live := 1, gr := strayGroup, wp := strayWarp
    die := 5, fixed := false }

theorem strayStore_issues : Issues strayStore strayState strayEnv := by
  obtain ⟨e, he⟩ := issuesNow_sound (show issuesNow strayStore strayState = true by decide)
  obtain rfl : strayEnv = e := Option.some.inj ((show env? strayStore strayState = some strayEnv by decide).symm.trans he.1)
  exact he

/-- The state after the release that the store is: nothing waits to be performed. -/
def strayReleased : State := drainDie strayState 5

theorem strayStore_released : Released strayEnv strayState (MOrd.rel .seq) .dev strayReleased := ⟨by decide, rfl⟩

theorem strayReleased_empty : strayReleased.tmpls = [] ∧ strayReleased.pend = [] ∧ strayReleased.regions = [] := ⟨rfl, rfl, rfl⟩

/-- The one lane of the store, and what it leaves. -/
def strayLanes : List (Nat × LaneFault) × State × List (Nat × (Nat × Nat)) :=
  eachLane (storeLane strayEnv strayReleased { ord := .seq, scope := .dev, pol := 0, size := .b32, sx := false } 2 0 0) (lanesOf 1) strayReleased

theorem strayLanes_places : strayLanes.1 = [] ∧ strayLanes.2.2 = [(0, (1, 0))] := by decide

/-- The byte that the store should have left at host address 0 is not there. -/
theorem strayLanes_homeByte : homeByte strayLanes.2.1 1 0 = 0 := by decide

/-- Refutes O28: the clause that a sequential store's bytes are at their homes fails for a group whose core number lies past the
dies (`strayState`), which the statement does not exclude. -/
theorem not_storeWordsComplete : ¬ Obligations.StoreWordsComplete := by
  unfold Obligations.StoreWordsComplete
  rintro ⟨hst, -⟩
  obtain ⟨-, -, hgive, -⟩ := hst strayState strayEnv _ _ 2 0 0 strayReleased strayStore_issues strayStore_released
  obtain ⟨hnofault, hplaces⟩ := strayLanes_places
  obtain ⟨-, -, -, hhome⟩ := hgive strayLanes.2.1 [(0, (1, 0))] (Prod.ext hnofault (Prod.ext rfl hplaces))
  obtain ⟨htmpls, hpend, hregions⟩ := strayReleased_empty
  obtain ⟨-, hlast⟩ := hhome rfl (by simp [NoHeaps, htmpls]) (by simp [hpend]) hregions
  have hbyte := hlast 0 (1, 0) [] [] rfl 1 0 (by decide) (by decide) ⟨by decide, by decide⟩ (by simp)
  rw [strayLanes_homeByte] at hbyte
  exact absurd hbyte (by decide)

end Sys2Proof.Machine
end

section
/-! PROOFS. No instruction is refused: a word is issued, and a happening goes on to a next state. -/

namespace Sys2Proof.Machine

/-! ## What the issue of a word answers -/

/-- An answer that is no refusal: a next state, or the stop at an address past the device's memory (R12, R188). -/
def Runs (o : Host.Outcome State Fault Refusal) : Prop := (∃ t, o = .next t) ∨ o = .fault .noSuchMemory

theorem runs_next (t : State) : Runs (.next t) := .inl ⟨t, rfl⟩

theorem runs_ite {p : Prop} [Decidable p] {a b : Host.Outcome State Fault Refusal} (ha : Runs a) (hb : Runs b) : Runs (if p then a else b) := by
  split
  · exact ha
  · exact hb

/-- Whatever a body answers becomes a next state, but a stop. -/
theorem finish_runs (e : Env) (i : Instr) (r : WordRes) (s : State) : Runs (finish e i r s) := by
  cases r with
  | done t => exact runs_ite (runs_next _) (runs_next _)
  | jump t => exact runs_ite (runs_next _) (runs_next _)
  | hold t k lanes => exact runs_ite (runs_next _) (runs_next _)
  | trap t c lanes d0 d1 => exact runs_next _
  | stop f => cases f; exact .inr rfl

/-- The checks at issue (R45, R48, R414) end in a next state; past them the body answers. -/
theorem runWord_runs (i : Instr) (s : State) (body : Env → State → WordRes) : Runs (runWord i s body) := by
  unfold runWord
  split
  · exact runs_next s
  · split
    · exact runs_next _
    · refine runs_ite (runs_next _) ?_
      split
      · exact runs_next _
      · split
        · exact runs_next _
        · exact finish_runs ..

/-! ## Words -/

/-- An answer is the issue of a word, whatever the word's body is. -/
def IssuedAs (i : Instr) (s : State) (o : Host.Outcome State Fault Refusal) : Prop := ∃ body, o = runWord i s body

theorem IssuedAs.runs {i : Instr} {s : State} {o : Host.Outcome State Fault Refusal} : IssuedAs i s o → Runs o := by
  rintro ⟨body, rfl⟩
  exact runWord_runs i s body

/-! The shared forms of words are issued as the word that they are given. -/

theorem runWord_issued (i : Instr) (s : State) (body : Env → State → WordRes) : IssuedAs i s (runWord i s body) := ⟨_, rfl⟩

theorem aluWord_issued (i : Instr) (s : State) (d : Reg) (n : Nat) (f : Env → Nat → Nat) : IssuedAs i s (aluWord i s d n f) := ⟨_, rfl⟩

theorem slowWord_issued (i : Instr) (s : State) (d : Reg) (n : Nat) (f : Env → Nat → Nat) : IssuedAs i s (slowWord i s d n f) := ⟨_, rfl⟩

theorem exchange_issued (i : Instr) (s : State) (d : Reg) (n : Nat) (m : Option Reg) (own : Env → Nat → Nat) (f : Env → Mask → Nat → Nat) :
    IssuedAs i s (exchange i s d n m own f) := ⟨_, rfl⟩

theorem rmwWord_issued (i : Instr) (s : State) (m : AtMod) (p : Place) (off : BitVec 8) (b : Reg) (n : Nat) (d : Option Reg) (fl : AaddOp)
    (f : Nat → Nat → Nat) : IssuedAs i s (rmwWord i s m p off b n d fl f) := ⟨_, rfl⟩

theorem bcWord_issued (i : Instr) (s : State) (w add : Bool) (a b : Reg) (off : BitVec 8) : IssuedAs i s (bcWord i s w add a b off) := ⟨_, rfl⟩

theorem rangeWord_issued (i : Instr) (s : State) (op : Nat) (ty : OrTy) (d a b : Reg) (n : Nat) (x : Env → State → Nat → DWord) :
    IssuedAs i s (rangeWord i s op ty d a b n x) := ⟨_, rfl⟩

theorem matWord_issued (i : Instr) (s : State) (f : Env → State → Nat → Except LaneFault (State × Option Hold)) :
    IssuedAs i s (matWord i s f) := ⟨_, rfl⟩

theorem slotWord_issued (i : Instr) (s : State) (slot : BitVec 3) (f : Env → State → Nat → State) : IssuedAs i s (slotWord i s slot f) := ⟨_, rfl⟩

theorem copyWord_issued (i : Instr) (kind : Nat) (d : Reg) (p : Place) (s : State) : IssuedAs i s (copyWord i kind d p s) := ⟨_, rfl⟩

/-- SREAD takes the latency of the value that it reads. -/
theorem execSread_issued (h : Hdr) (v : SysVal) (d : Reg) (s : State) : IssuedAs (.sread h v d) s (execSread h v d s) := by
  unfold execSread
  split
  · exact slowWord_issued ..
  · exact aluWord_issued ..

/-! ## Happenings -/

theorem execUpdateRecordApply_next (region : Nat) (s : State) : ∃ t, execUpdateRecordApply region s = .next t := by
  unfold execUpdateRecordApply
  split
  · exact ⟨_, rfl⟩
  · exact ⟨_, rfl⟩

/-- A REPARTITION goes on, or is a command. -/
theorem execRepartition_next (c : Cmd) (s : State) : ∃ t, execRepartition c s = .next t := by
  unfold execRepartition
  split
  · exact ⟨_, rfl⟩
  · exact ⟨_, rfl⟩

/-- A RESUME comes from the management processor, or is a command. -/
theorem execResume_next (c : Cmd) (s : State) : ∃ t, execResume c s = .next t := by
  unfold execResume
  split
  · exact ⟨_, rfl⟩
  · exact ⟨_, rfl⟩

/-! ## Every instruction is one or the other -/

/-- An instruction is a word, which is issued as itself, or a happening, which has a next state in every state. -/
theorem exec_word_or_happening (i : Instr) (s : State) :
    (isWord i = true ∧ IssuedAs i s (exec i s)) ∨ (isWord i = false ∧ ∃ t, exec i s = .next t) := by
  unfold exec
  cases i with
  | sread h v d => exact .inl ⟨rfl, execSread_issued h v d s⟩
  | iadd | imul | imad | imnx | iabs | icmp | sel | ltab | shf | bfx | bfi | bitc | bperm | iaddw | shfw | icmpw | lea | mov | movi | idot
  | cvti | fadd | fmul | ffma | fmnx | fcmp | fclass | frint | fscale | cvtf | cvtfi | cvtif | paddh | pmulh | pfmah | pmnxh | fdot2 | fdeq
  | fexpd | flse | ftwosum => exact .inl ⟨rfl, aluWord_issued ..⟩
  | idiv | fsfu | fdiv => exact .inl ⟨rfl, slowWord_issued ..⟩
  | vote | shfl | wred | wscan | matchw => exact .inl ⟨rfl, exchange_issued ..⟩
  | aadd | amnx | alog | axch | acas | ainc => exact .inl ⟨rfl, rmwWord_issued ..⟩
  | bcinit | bcadd => exact .inl ⟨rfl, bcWord_issued ..⟩
  | ldrs | ldrm | ldpfx | ldpick => exact .inl ⟨rfl, rangeWord_issued ..⟩
  | mbload | mmul | mtrans | mperm | mrsum | mepi => exact .inl ⟨rfl, matWord_issued ..⟩
  | maccrd | maccwr => exact .inl ⟨rfl, slotWord_issued ..⟩
  | bcopy | gather | scatter | xcopy => exact .inl ⟨rfl, copyWord_issued ..⟩
  | updateRecordApply region => exact .inr ⟨rfl, execUpdateRecordApply_next region s⟩
  | repartition c => exact .inr ⟨rfl, execRepartition_next c s⟩
  | resume c => exact .inr ⟨rfl, execResume_next c s⟩
  | warpIssueChoice | longLatencyReturn | trapEntry | barrierPhaseComplete | gangBarrierComplete | templateCapture | registerPoolGrant
  | registerDeadlockSave | warpEnd | groupEnd | launchBlockRead
  | nodeStart | nodeCompletion | hostWaitWatch | priorityAgeing | freeCountReport | lodestarBatch | groupPlacement | gangReservation
  | splitConversion | splitForce | splitReassign | stageReevaluation | queuePushReserve | queuePopReserve | stageCompletion
  | loopBoundary | preemptionRequest | framePoolSave | groupRestore | quantumSliceEnd
  | hostWrite | peerWrite | rangeLoadAnswer | regionBuildComplete | tfenceRelease | fenceRelease
  | chunkIssue | chunkLanding | chunkCredit | cancelArrival | matrixOpTurn | matrixOpComplete | macroSelfCheck
  | waitaReread | waitaPoll | waitaTimeout | sleepExpiry | yieldReturn | ulcallBudgetExpiry
  | tailReread | tailPoll | completionPost | createContext | destroyContext | createQueue | submitGraph | cancelGraph | addSlot
  | removeSlot | createRange | mapRange | bindPeer | peerBindingMatch | setQuantum | assignFunction | pageReady
  | functionEnable | functionDisable | functionRegisterWrite
  | functionLevelReset | hotReset | hostLinkLoss | hostLinkReturn | peerPortDown | peerPortTraining | dieLinkDown
  | pldmMonitoring | powerLimitSet | reducedPrecisionSet | firmwareUpdate | spdmAttestation | freezeRequest | freezeRelease
  | coreHalt | coreResume | powerCapStep | thermalCap | criticalTemperature | writePerformed | heldEventPost | powerUp =>
    exact .inr ⟨rfl, _, rfl⟩
  | _ => exact .inl ⟨rfl, runWord_issued ..⟩

theorem exec_runs (i : Instr) (s : State) : Runs (exec i s) := by
  obtain ⟨-, h⟩ | ⟨-, h⟩ := exec_word_or_happening i s
  · exact h.runs
  · exact .inl h

theorem exec_happening_next {i : Instr} (hi : isWord i = false) (s : State) : ∃ t, exec i s = .next t := by
  obtain ⟨hw, -⟩ | ⟨-, h⟩ := exec_word_or_happening i s
  · rw [hw] at hi; cases hi
  · exact h

/-- Settles O7: a word is issued, and its issue answers a next state or the stop; a happening answers a next state. -/
theorem everyInstructionRuns : Obligations.EveryInstructionRuns := by
  unfold Obligations.EveryInstructionRuns
  exact fun i s => ⟨exec_runs i s, fun hi => exec_happening_next hi s⟩

end Sys2Proof.Machine
end

section
/-! PROOFS. The arithmetic words of the integer class. -/

namespace Sys2Proof.Machine

/-! ## The operations of the integer class over the exact integers -/

theorem toNat_wrap (n : Nat) (x : Int) : (wrap n x).toNat = (x % 2 ^ n).toNat := by
  simp [wrap, BitVec.toNat_ofInt]

theorem oneIf_bit0 (c : Word) : ((oneIf (c.getLsbD 0) : Nat) : Int) = (c.toNat : Int) % 2 := by
  rw [BitVec.getLsbD, Nat.testBit_zero, oneIf]
  have := Nat.mod_two_eq_zero_or_one c.toNat
  split <;> simp_all <;> omega

theorem oneIf_mod (p : Prop) [Decidable p] : ((oneIf (decide p) : Nat) : Int) % 2 ^ 32 = if p then 1 else 0 := by
  unfold oneIf; split <;> simp_all

/-- R55: sums and differences with the carry in bit 0 of source C. -/
theorem AddOp.toNat_eval (op : AddOp) (a b c : Word) :
    (AddOp.eval op a b c).toNat = Int.toNat (match op with
      | .add => ((a.toNat : Int) + b.toNat) % 2 ^ 32
      | .sub => ((a.toNat : Int) - b.toNat) % 2 ^ 32
      | .satS => max (-(2 ^ 31)) (min (2 ^ 31 - 1) (a.toInt + b.toInt)) % 2 ^ 32
      | .subSatS => max (-(2 ^ 31)) (min (2 ^ 31 - 1) (a.toInt - b.toInt)) % 2 ^ 32
      | .satZ => min ((a.toNat : Int) + b.toNat) (2 ^ 32 - 1)
      | .subSatZ => max ((a.toNat : Int) - b.toNat) 0
      | .co => if (a.toNat : Int) + b.toNat ≥ 2 ^ 32 then 1 else 0
      | .subBo => if (a.toNat : Int) < b.toNat then 1 else 0
      | .ci => ((a.toNat : Int) + b.toNat + (c.toNat : Int) % 2) % 2 ^ 32
      | .cico => if (a.toNat : Int) + b.toNat + (c.toNat : Int) % 2 ≥ 2 ^ 32 then 1 else 0
      | .subBi => ((a.toNat : Int) - b.toNat - (c.toNat : Int) % 2) % 2 ^ 32
      | .subBibo => if (a.toNat : Int) - b.toNat - (c.toNat : Int) % 2 < 0 then 1 else 0) := by
  have ha := a.isLt
  have hb := b.isLt
  cases op <;> simp only [AddOp.eval, toNat_wrap, oneIf_bit0, clampS, clampZ, clampInt]
  case satZ | subSatZ => omega
  case co | subBo | cico | subBibo => rw [oneIf_mod]

/-- R56: products; the high half of a signed one is the floor of its quotient by 2^32. -/
theorem MulOp.toNat_eval (op : MulOp) (a b : Word) :
    MulOp.eval op a b = Int.toNat (match op with
      | .lo => (a.toNat : Int) * b.toNat % 2 ^ 32
      | .hiS => a.toInt * b.toInt / 2 ^ 32 % 2 ^ 32
      | .hiZ => (a.toNat : Int) * b.toNat / 2 ^ 32
      | .wideS => a.toInt * b.toInt % 2 ^ 64
      | .wideZ => (a.toNat : Int) * b.toNat) := by
  cases op <;> simp only [MulOp.eval, toNat_wrap]
  case hiS => generalize a.toInt * b.toInt = p; omega
  case lo => exact_mod_cast (Int.toNat_natCast _).symm
  case hiZ => exact_mod_cast (Int.toNat_natCast _).symm
  case wideZ => exact_mod_cast (Int.toNat_natCast _).symm

/-- R58: minima and maxima. -/
theorem MnxOp.toNat_eval (op : MnxOp) (a b : Word) :
    (MnxOp.eval op a b).toNat = Int.toNat (match op with
      | .minS => min a.toInt b.toInt % 2 ^ 32
      | .maxS => max a.toInt b.toInt % 2 ^ 32
      | .minZ => min (a.toNat : Int) b.toNat
      | .maxZ => max (a.toNat : Int) b.toNat) := by
  have h (x : Word) : (x.toInt % 2 ^ 32).toNat = x.toNat := by
    have := x.isLt
    rw [BitVec.toInt_eq_toNat_cond]; split <;> omega
  cases op <;> simp only [MnxOp.eval] <;> split
  · rw [min_eq_left ‹_›, h]
  · rw [min_eq_right (by omega), h]
  · rw [max_eq_right ‹_›, h]
  · rw [max_eq_left (by omega), h]
  all_goals omega

/-- R58: absolute values and negations. -/
theorem AbsOp.toNat_eval (op : AbsOp) (a : Word) :
    (AbsOp.eval op a).toNat = Int.toNat (match op with
      | .abs => |a.toInt|
      | .absSat => min |a.toInt| (2 ^ 31 - 1)
      | .neg => -a.toInt % 2 ^ 32
      | .negSat => min (-a.toInt) (2 ^ 31 - 1) % 2 ^ 32) := by
  have hlo : -2 ^ 31 ≤ a.toInt := BitVec.le_toInt a
  have hhi : a.toInt < 2 ^ 31 := BitVec.toInt_lt
  cases op <;> simp only [AbsOp.eval, toNat_wrap, clampS, clampInt, Int.natCast_natAbs]
  case abs | absSat => rw [abs]; omega
  case negSat => omega

/-- R66: a sum with a shifted index. -/
theorem toNat_add_shift (a : DWord) (k : Int) (n : Nat) :
    (a + BitVec.ofInt 64 k <<< n).toNat = (((a.toNat : Int) + k * 2 ^ n) % 2 ^ 64).toNat := by
  have hs : BitVec.ofInt 64 k <<< n = BitVec.ofInt 64 (k * 2 ^ n) := by
    rw [BitVec.shiftLeft_eq_mul_twoPow, BitVec.ofInt_mul]
    congr 1
    apply BitVec.eq_of_toNat_eq
    rw [BitVec.toNat_twoPow, BitVec.toNat_ofInt]
    exact_mod_cast (Int.toNat_natCast _).symm
  have ha : a = BitVec.ofInt 64 a.toNat := by simp
  conv_lhs => rw [hs, ha, ← BitVec.ofInt_add]
  exact toNat_wrap 64 _

/-! ## Words of the class complete -/

theorem aluWord_completes {i : Instr} {s : State} {e : Env} {d : Reg} {n : Nat} {f : Env → Nat → Nat} {g : Nat → Nat} (h : Issues i s e)
    (hx : exec i s = aluWord i s d n f) (hf : ∀ l, f e l = g l) : Completes i s e (resultIn e d n g) := by
  obtain ⟨t, ht, hs⟩ := aluWord_settles h d n f
  rw [funext hf] at hs
  exact ⟨t, hx.trans ht, hs⟩

/-- Settles O10: every word is one computed result in each live lane, its operation read over the exact integers. -/
theorem arithmeticWordsComplete : Obligations.ArithmeticWordsComplete := by
  unfold Obligations.ArithmeticWordsComplete
  intro s e h d a c b
  refine ⟨fun op hi => ?_, fun op hi => ?_, fun op r hi => ?_, fun op hi => ?_, fun op hi => ?_, fun sg sh r hi => ?_, fun m i hi => ?_⟩
  · exact aluWord_completes hi rfl fun l => (AddOp.toNat_eval ..).trans (by cases op <;> rfl)
  · cases op <;> exact aluWord_completes hi rfl fun l => MulOp.toNat_eval ..
  · cases op
    case wideS => exact aluWord_completes hi rfl fun l => toNat_wrap ..
    all_goals exact aluWord_completes hi rfl fun l => rfl
  · exact aluWord_completes hi rfl fun l => (MnxOp.toNat_eval ..).trans (by cases op <;> rfl)
  · exact aluWord_completes hi rfl fun l => (AbsOp.toNat_eval ..).trans (by cases op <;> rfl)
  · refine aluWord_completes hi rfl fun l => ?_
    cases sg
    · have hz : (e.v s r l).setWidth 64 = BitVec.ofInt 64 (e.v s r l).toNat := by simp
      show (_ + (e.v s r l).setWidth 64 <<< sh.toNat).toNat = _
      rw [hz]
      exact toNat_add_shift ..
    · exact toNat_add_shift ..
  · exact aluWord_completes hi rfl fun l => rfl

end Sys2Proof.Machine
end

section
/-! PROOFS. The system values, NOP and the paired words. -/

namespace Sys2Proof.Machine

/-! ## A paired word -/

/-- A write of two registers in each lane of a list. -/
theorem wrote_pairLanes {e : Env} {s : State} (p q : Nat) (x y : Nat → Word) (ls : List Nat) : (∀ l ∈ ls, l < 32) →
    ∀ {t : State} {res : Nat → Nat → Option Word}, Wrote e s t res →
    Wrote e s (ls.foldl (fun u l => writeReg (writeReg u e.g e.w p l (x l)) e.g e.w q l (y l)) t) fun r k =>
      if k ∈ ls then (if r = q then some (y k) else if r = p then some (x k) else res r k) else res r k := by
  induction ls with
  | nil => intro _ t res h; simpa using h
  | cons l ls ih =>
    intro hlt t res h
    have hl := hlt l (List.mem_cons_self ..)
    have := ih (fun k hk => hlt k (List.mem_cons_of_mem _ hk)) (wrote_writeReg q l (y l) hl (wrote_writeReg p l (x l) hl h))
    rw [List.foldl_cons]
    convert this using 1
    funext r k
    unfold alsoIn
    by_cases hk : k = l
    · subst hk; by_cases hq : r = q <;> by_cases hp : r = p <;> simp [hq, hp]
    · simp [hk]

theorem pairedWord_completes {s : State} {e : Env} {m : Bool} {x y : Half} (h : Issues (.pairedWord m x y) s e)
    (hne : (Half.dst x).toNat ≠ (Half.dst y).toNat) : Completes (.pairedWord m x y) s e fun r l =>
      if bit e.live l = false then none
      else if r = (Half.dst x).toNat then some (Half.eval x e s l)
      else if r = (Half.dst y).toNat then some (Half.eval y e s l) else none := by
  refine ⟨_, by rw [show exec (.pairedWord m x y) s = execPairedWord m x y s from rfl, execPairedWord, runWord_issues h, finish_done h], ?_⟩
  have hw := wrote_pairLanes (Half.dst x).toNat (Half.dst y).toNat (Half.eval x e s) (Half.eval y e s) (lanesOf e.live)
    (fun l hl => bit_lt ((mem_lanesOf ..).mp hl)) (wrote_refl (issues_here h))
  convert settled_of_wrote s _ hw using 1
  funext r l
  cases hb : bit e.live l
  · simp [mem_lanesOf, hb, noResult]
  · by_cases hx : r = (Half.dst x).toNat
    · simp [mem_lanesOf, hb, hx, hne]
    · simp [mem_lanesOf, hb, hx, noResult]

/-- Settles O14: a system value is one computed result, %clock one that is sent off, and a paired word two writes in each lane of
values that the state at its issue gives. -/
theorem systemValuesNopAndPairsComplete : Obligations.SystemValuesNopAndPairsComplete := by
  unfold Obligations.SystemValuesNopAndPairsComplete
  refine ⟨fun s e h d => ⟨fun hi => slowWord_sends hi d 2 _, fun v hv hi => ⟨SysVal.eval v e s, fun l => ?_, ?_⟩⟩,
    fun s e => ⟨fun h hi => emptyWord_settles hi, fun m x y hi hne => pairedWord_completes hi hne⟩⟩
  · cases v
    case inst =>
      refine ⟨fun t ht => ?_, fun ht => ?_⟩
      · simp [SysVal.eval, ht]
      · rcases ht with ht | ht <;> simp [SysVal.eval, ht]
    case node => intro g n hn; simp [SysVal.eval, hn]
    case iter =>
      refine ⟨fun g n x i y hn hx hl hy => ?_, fun g n x hn hx hl => ?_⟩
      · simp [SysVal.eval, hn, hx, hl, hy]
      · simp [SysVal.eval, hn, hx, hl]
    case slot => exact ⟨fun k hk => by simp [SysVal.eval, hk], fun hk => by simp [SysVal.eval, hk]⟩
    case version =>
      refine ⟨fun hn => by simp [SysVal.eval, hn], fun n g q r i hn hg hq hr hi => ?_⟩
      simp [SysVal.eval, hn, hg, hq, hr, hi]
    case clock => exact absurd rfl hv
    all_goals rfl
  · cases v
    case clock => exact absurd rfl hv
    all_goals exact aluWord_completes hi rfl fun l => rfl

end Sys2Proof.Machine
end

section
/-! PROOFS. The worked words of the spec: why the statement about them fails as it stands. -/

namespace Sys2Proof.Machine

/-- A load whose SCOPE subfield is 7 faults SCOPE (R33, R47), whatever its cache policy. -/
theorem decode_scope_seven : decode 0x9A010200010003C4 = .error .scope := by decide

/-- Refutes O6: of the words listed one is said to fault RSVD whose subfields are in order but for SCOPE = 7: it faults SCOPE (R33, R47). -/
theorem not_decodesWords : ¬ Obligations.DecodesWords := by
  unfold Obligations.DecodesWords
  intro h
  obtain ⟨-, -, -, -, -, -, -, -, -, -, -, -, -, -, -, -, -, -, -, -, -, -, -, -, -, -, -, -, -, -, -, -, -, -, -, -, -, -, -, -, -, -, -, -, -,
    -, hword, -⟩ := h
  rw [decode_scope_seven] at hword
  exact absurd hword (by decide)

end Sys2Proof.Machine
end

section
/-! PROOFS. The checks of a word at issue. -/

namespace Sys2Proof.Machine

/-! ## The registers of a word, and what its checks ask of them -/

/-- The guard register of a word, as the list that its checks search. -/
def guardRegs (i : Instr) : List Nat := match (uses i).guard with | some r => [r] | none => []

/-- The operand registers of a word. -/
def operandRegs (i : Instr) : List Nat := spread (uses i).reads ++ spread (uses i).writes

/-- Register r has a key of the list in a lane of the mask. -/
def HasKey (ks : List Nat) (r : Nat) (m : Mask) : Prop := ∃ l, l < 32 ∧ bit m l = true ∧ 32 * r + l ∈ ks

theorem mask_ne_zero_iff (m : Mask) : m ≠ 0 ↔ ∃ l, bit m l = true := by
  constructor
  · intro h
    by_contra hn
    exact h (BitVec.eq_of_getLsbD_eq fun l _ => by simpa [bit] using fun hl => hn ⟨l, hl⟩)
  · rintro ⟨l, hl⟩ rfl
    simp at hl

theorem bit_keyLanes (ks : List Nat) (r : Nat) (m : Mask) (l : Nat) :
    bit (keyLanes ks r m) l = true ↔ l < 32 ∧ bit m l = true ∧ 32 * r + l ∈ ks := by
  simp [keyLanes, bit_maskOf]; tauto

theorem keyLanes_ne_zero (ks : List Nat) (r : Nat) (m : Mask) : (keyLanes ks r m != 0) = true ↔ HasKey ks r m := by
  rw [bne_iff_ne, ne_eq, ← ne_eq, mask_ne_zero_iff]
  exact exists_congr fun l => bit_keyLanes ks r m l

theorem allowed_iff (e : Env) (r : Nat) : allowed e r = true ↔ r < e.gr.granted ∨ (e.wp.handler ≠ none ∧ 240 ≤ r ∧ r < 256) := by
  simp [allowed, Option.isSome_iff_ne_none, and_assoc]

theorem find?_of_exists {α : Type} {p : α → Bool} {l : List α} (h : ∃ x ∈ l, p x = true) : ∃ x ∈ l, p x = true ∧ l.find? p = some x := by
  obtain ⟨x, hx⟩ := Option.isSome_iff_exists.mp (List.find?_isSome.mpr h)
  exact ⟨x, List.mem_of_find?_eq_some hx, List.find?_some hx, hx⟩

theorem isIllegal_iff (i : Instr) : isIllegal i = true ↔ ∃ raw m, i = .illegal raw m := by
  cases i <;> simp [isIllegal]

/-! ## The order of the checks -/

/-- The checks before the handle's, in the terms above (R48). -/
theorem decodeFault_eq (s : State) (e : Env) (i : Instr) : decodeFault s e i =
    if isIllegal i then some (.illegal, e.atPc, 0) else
    match (guardRegs i ++ operandRegs i).find? fun r => !allowed e r with
    | some r => some (.prot, e.atPc, r)
    | none => match (guardRegs i).find? fun r => keyLanes e.wp.pending r e.atPc != 0 with
      | some r => some (.hazard, keyLanes e.wp.pending r e.atPc, r)
      | none => match (operandRegs i).find? fun r => keyLanes e.wp.pending r e.live != 0 with
        | some r => some (.hazard, keyLanes e.wp.pending r e.live, r)
        | none => badFuture s e i := rfl

section
variable {i : Instr} {s : State} {e : Env}

/-- An unassigned opcode names no register. -/
theorem not_illegal_of_register {r : Nat} (h : r ∈ guardRegs i ++ operandRegs i) : isIllegal i = false := by
  rw [Bool.eq_false_iff]
  intro hi
  obtain ⟨raw, m, rfl⟩ := (isIllegal_iff i).mp hi
  simp [guardRegs, operandRegs, uses, bare, spread] at h

theorem decodeFault_prot (h : ∃ r ∈ guardRegs i ++ operandRegs i, ¬ allowed e r = true) :
    ∃ r ∈ guardRegs i ++ operandRegs i, ¬ allowed e r = true ∧ decodeFault s e i = some (.prot, e.atPc, r) := by
  obtain ⟨r, hr, hp, hf⟩ := find?_of_exists (p := fun r => !allowed e r) (l := guardRegs i ++ operandRegs i) (by simpa using h)
  exact ⟨r, hr, by simpa using hp, by rw [decodeFault_eq, not_illegal_of_register hr, hf]; rfl⟩

theorem decodeFault_guard_hazard (hok : ∀ r ∈ guardRegs i ++ operandRegs i, allowed e r = true) (h : ∃ r ∈ guardRegs i, HasKey e.wp.pending r e.atPc) :
    ∃ r ∈ guardRegs i, HasKey e.wp.pending r e.atPc ∧ decodeFault s e i = some (.hazard, keyLanes e.wp.pending r e.atPc, r) := by
  simp only [← keyLanes_ne_zero] at h ⊢
  obtain ⟨r, hr, hp, hf⟩ := find?_of_exists h
  have hnone : (guardRegs i ++ operandRegs i).find? (fun r => !allowed e r) = none := List.find?_eq_none.mpr fun r hr => by simp [hok r hr]
  exact ⟨r, hr, hp, by rw [decodeFault_eq, not_illegal_of_register (List.mem_append_left _ hr), hnone, hf]; rfl⟩

theorem decodeFault_operand_hazard (hok : ∀ r ∈ guardRegs i ++ operandRegs i, allowed e r = true)
    (hg : ∀ r ∈ guardRegs i, ¬ HasKey e.wp.pending r e.atPc) (h : ∃ r ∈ operandRegs i, HasKey e.wp.pending r e.live) :
    ∃ r ∈ operandRegs i, HasKey e.wp.pending r e.live ∧ decodeFault s e i = some (.hazard, keyLanes e.wp.pending r e.live, r) := by
  simp only [← keyLanes_ne_zero] at h hg ⊢
  obtain ⟨r, hr, hp, hf⟩ := find?_of_exists h
  have hnone : (guardRegs i ++ operandRegs i).find? (fun r => !allowed e r) = none := List.find?_eq_none.mpr fun r hr => by simp [hok r hr]
  have hguard : (guardRegs i).find? (fun r => keyLanes e.wp.pending r e.atPc != 0) = none := List.find?_eq_none.mpr hg
  exact ⟨r, hr, hp, by rw [decodeFault_eq, not_illegal_of_register (List.mem_append_right _ hr), hnone, hguard, hf]; rfl⟩

/-- Registers in order, and only the handle left to check. -/
theorem decodeFault_handle (hi : isIllegal i = false) (hok : ∀ r ∈ guardRegs i ++ operandRegs i, allowed e r = true)
    (hg : ∀ r ∈ guardRegs i, ¬ HasKey e.wp.pending r e.atPc) (hr : ∀ r ∈ operandRegs i, ¬ HasKey e.wp.pending r e.live) :
    decodeFault s e i = badFuture s e i := by
  simp only [← keyLanes_ne_zero] at hg hr
  have hnone : (guardRegs i ++ operandRegs i).find? (fun r => !allowed e r) = none := List.find?_eq_none.mpr fun r hr => by simp [hok r hr]
  rw [decodeFault_eq, hi, hnone, List.find?_eq_none.mpr hg, List.find?_eq_none.mpr hr]
  rfl

/-- FUTBAD names the lowest live lane whose handle no operation writes (R308). -/
theorem badFuture_of_lowest {a : Reg} {l : Nat} (ha : handleReg i = some a) (hl : bit e.live l = true) (hb : badHandle (e.v s a l) = true)
    (hlow : ∀ k, k < l → bit e.live k = true → badHandle (e.v s a k) = false) :
    badFuture s e i = some (.futbad, e.live &&& maskOf (fun x => badHandle (e.v s a x)), (e.v s a l).toNat) := by
  have hhead : ((lanesOf e.live).filter fun l => badHandle (e.v s a l)).head? = some l := by
    rw [List.head?_filter, lanesOf, List.find?_filter, List.find?_range_eq_some]
    exact ⟨by simp [hl, hb], List.mem_range.mpr (bit_lt hl), fun k hk => by by_cases hkl : bit e.live k = true <;> simp_all⟩
  unfold badFuture
  simp only [ha]
  show Option.map _ (((lanesOf e.live).filter fun l => badHandle (e.v s a l)).head?) = _
  rw [hhead]
  rfl

/-! ## What each check makes of the word -/

theorem faults_of_decodeFault {c : Code} {lanes : Mask} {r : Nat} (hx : IssuedAs i s (exec i s)) (he : env? i s = some e)
    (h : decodeFault s e i = some (c, lanes, r)) : Faults i s e c lanes (BitVec.ofNat 64 r) 0 := by
  obtain ⟨body, hx⟩ := hx
  simp [Faults, hx, runWord, he, h]

theorem holds_of_futureHold (hx : IssuedAs i s (exec i s)) (he : env? i s = some e) (hd : decodeFault s e i = none)
    (hf : futureHold e i = true) : exec i s = .next (addHold s e i .future e.atPc) := by
  obtain ⟨body, hx⟩ := hx
  simp [hx, runWord, he, hd, hf]

theorem takes_of_deferred {r : Nat × FaultRec} (hx : IssuedAs i s (exec i s)) (he : env? i s = some e) (hd : decodeFault s e i = none)
    (hf : futureHold e i = false) (hr : (e.wp.deferred.find? fun x => dueAt x i) = some r) :
    exec i s = .next (takeFault (modWarp s e.g e.w fun x => { x with deferred := x.deferred.erase r }) e.g e.w
      { recordOf s e r.2.code e.live r.2.d0 r.2.d1 with deferred := true }) := by
  obtain ⟨body, hx⟩ := hx
  simp [hx, runWord, he, hd, hf, hr]

theorem faults_of_regError {lanes : Mask} {r : Nat} (hx : IssuedAs i s (exec i s)) (he : env? i s = some e) (hd : decodeFault s e i = none)
    (hf : futureHold e i = false) (hn : (e.wp.deferred.find? fun x => dueAt x i) = none) (hr : regError e i = some (lanes, r)) :
    Faults i s e .eccu lanes (BitVec.ofNat 64 r) 0 := by
  obtain ⟨body, hx⟩ := hx
  simp [Faults, hx, runWord, he, hd, hf, hn, hr]

/-! ## Errors in registers -/

/-- The lanes of a mask in which a register is in error, with the register. -/
def errorIn (e : Env) (m : Mask) (r : Nat) : Option (Mask × Nat) :=
  if keyLanes e.wp.regBad r m = 0 then none else some (keyLanes e.wp.regBad r m, r)

theorem errorIn_of_key {m : Mask} {r : Nat} (h : HasKey e.wp.regBad r m) : errorIn e m r = some (keyLanes e.wp.regBad r m, r) :=
  if_neg (bne_iff_ne.mp ((keyLanes_ne_zero ..).mpr h))

theorem errorIn_of_no_key {m : Mask} {r : Nat} (h : ¬ HasKey e.wp.regBad r m) : errorIn e m r = none := by
  rw [← keyLanes_ne_zero, bne_iff_ne, not_not] at h
  exact if_pos h

/-- The guard is looked at first, then the sources in their order (R414). -/
theorem regError_eq (hb : e.wp.regBad ≠ []) : regError e i =
    match (guardRegs i).findSome? (errorIn e e.atPc) with
    | some x => some x
    | none => (spread (uses i).reads).findSome? (errorIn e e.live) := by
  unfold regError guardRegs
  rw [if_neg (by simpa using hb)]
  rcases hg : (uses i).guard with _ | r
  · simp only [hg]; rfl
  · simp only [hg, List.findSome?_singleton]; rfl

theorem findSome?_errorIn {m : Mask} {rs : List Nat} (h : ∃ r ∈ rs, HasKey e.wp.regBad r m) :
    ∃ r ∈ rs, HasKey e.wp.regBad r m ∧ rs.findSome? (errorIn e m) = some (keyLanes e.wp.regBad r m, r) := by
  induction rs with
  | nil => obtain ⟨r, hr, -⟩ := h; cases hr
  | cons a rs ih =>
    by_cases ha : HasKey e.wp.regBad a m
    · exact ⟨a, List.mem_cons_self .., ha, by rw [List.findSome?_cons, errorIn_of_key ha]⟩
    · obtain ⟨r, hr, hk⟩ := h
      obtain rfl | hr := List.mem_cons.mp hr
      · exact absurd hk ha
      · obtain ⟨q, hq, hqk, hf⟩ := ih ⟨r, hr, hk⟩
        exact ⟨q, List.mem_cons_of_mem _ hq, hqk, by rw [List.findSome?_cons, errorIn_of_no_key ha]; exact hf⟩

theorem regError_guard (h : ∃ r ∈ guardRegs i, HasKey e.wp.regBad r e.atPc) :
    ∃ r ∈ guardRegs i, regError e i = some (keyLanes e.wp.regBad r e.atPc, r) := by
  obtain ⟨r, hr, ⟨l, -, -, hmem⟩, hf⟩ := findSome?_errorIn h
  exact ⟨r, hr, by rw [regError_eq (List.ne_nil_of_mem hmem), hf]⟩

theorem regError_source (hg : ∀ r ∈ guardRegs i, ¬ HasKey e.wp.regBad r e.atPc) (h : ∃ r ∈ spread (uses i).reads, HasKey e.wp.regBad r e.live) :
    ∃ r ∈ spread (uses i).reads, HasKey e.wp.regBad r e.live ∧ regError e i = some (keyLanes e.wp.regBad r e.live, r) := by
  obtain ⟨r, hr, hk, hf⟩ := findSome?_errorIn h
  obtain ⟨l, -, -, hmem⟩ := id hk
  have hnone : (guardRegs i).findSome? (errorIn e e.atPc) = none := List.findSome?_eq_none_iff.mpr fun r hr => errorIn_of_no_key (hg r hr)
  exact ⟨r, hr, hk, by rw [regError_eq (List.ne_nil_of_mem hmem), hnone, hf]⟩

end

/-- The lanes of a warp whose lane group is held whole stay where they are. -/
theorem lanes_of_held_whole {i : Instr} {s t : State} {e : Env} {k : Hold} (h : Held i e s t k e.atPc) : (warpOf e t).lanes = e.wp.lanes := by
  obtain ⟨-, -, -, hlanes, -, -⟩ := h
  apply List.ext_getElem?
  intro l
  rw [hlanes l]
  simp

/-- Settles O8: each check by the branch of `decodeFault`, `runWord` or `regError` that makes it. -/
theorem issueChecks : Obligations.IssueChecks := by
  unfold Obligations.IssueChecks
  intro i s e hw he
  have hx : IssuedAs i s (exec i s) := by
    obtain ⟨-, hx⟩ | ⟨hn, -⟩ := exec_word_or_happening i s
    · exact hx
    · rw [hw] at hn; cases hn
  simp only [← allowed_iff]
  refine ⟨?_, fun h => ?_, fun hok h => ?_, fun hok hg h => ?_, ?_, fun hd hf => ?_, fun r hd hf hr => ⟨_, takes_of_deferred hx he hd hf hr, rfl⟩,
    fun hd hf hn => ⟨fun h => ?_, fun hg h => ?_⟩⟩
  · rintro raw m rfl
    exact faults_of_decodeFault hx he rfl
  · obtain ⟨r, hr, hp, hf⟩ := decodeFault_prot (s := s) h
    exact ⟨r, hr, hp, faults_of_decodeFault hx he hf⟩
  · obtain ⟨r, hr, hp, hf⟩ := decodeFault_guard_hazard (s := s) hok h
    exact ⟨r, hr, hp, faults_of_decodeFault hx he hf⟩
  · obtain ⟨r, hr, hp, hf⟩ := decodeFault_operand_hazard (s := s) hok hg h
    exact ⟨r, hr, hp, faults_of_decodeFault hx he hf⟩
  · rintro ⟨hok, hg, hrs⟩ hill a l ha hl hb hlow
    have hi : isIllegal i = false := by
      rw [Bool.eq_false_iff, ne_eq, isIllegal_iff]
      rintro ⟨raw, m, h⟩
      exact hill raw m h
    have hf := (decodeFault_handle (s := s) hi hok hg hrs).trans (badFuture_of_lowest ha hl hb hlow)
    refine ⟨_, ?_, by simpa using faults_of_decodeFault hx he hf⟩
    rw [bit_and, bit_maskOf]
    simp [hl, hb, bit_lt hl]
  · have hheld := held_addHold i .future e.atPc (here_of_env? he)
    obtain ⟨hregs, -, hmem, -, -, hwarp⟩ := id hheld
    exact ⟨_, holds_of_futureHold hx he hd hf, hregs, hmem, lanes_of_held_whole hheld, by rw [hwarp]⟩
  · obtain ⟨r, hr, hf'⟩ := regError_guard h
    exact ⟨r, hr, faults_of_regError hx he hd hf hn hf'⟩
  · obtain ⟨r, hr, hk, hf'⟩ := regError_source hg h
    exact ⟨r, hr, hk, faults_of_regError hx he hd hf hn hf'⟩

end Sys2Proof.Machine
end

section
/-! PROOFS. A step runs the decoded word: why the statement fails as it stands. -/

namespace Sys2Proof.Machine

/-! ## An error in an array at the end of a step

The last clause says that a step of draw 0 without memory in error changes nothing at its end but the counters. It leaves out the
errors of the other arrays (`State.errs`): the end of a step drops those whose array holds nothing there any more (`settleErrs`,
R430). -/

/-- The state after reset with one more error, in a node store that holds no such node: no region is declared. -/
def strayNodeError : State := { State.reset with errs := [.node 0 0 0 0] }

theorem endStep_strayNodeError_errs : (endStep strayNodeError).errs = [] := by decide

/-- Refutes O3: the error of `strayNodeError` is gone at the end of a step, whatever the word in issue, here a word placed after reset. -/
theorem not_stepRunsDecodedWord : ¬ Obligations.StepRunsDecodedWord := by
  unfold Obligations.StepRunsDecodedWord
  intro h
  have hplaced := h (placeWord State.reset 0) placedGroup [] placedGr (newWarp 0 0 0x10000 []) rfl rfl rfl (by decide) rfl rfl (by decide)
  obtain ⟨-, -, -, -, -, -, hend⟩ := hplaced
  obtain ⟨-, -, -, -, -, -, hsame⟩ := hend strayNodeError
  have herrs := congrArg State.errs (hsame (.inr ⟨rfl, rfl⟩))
  rw [endStep_strayNodeError_errs] at herrs
  exact absurd herrs (by decide)

end Sys2Proof.Machine
end

section
/-! PROOFS. What a core does of itself: lists, updates of one warp and what they leave. -/

namespace Sys2Proof.Machine

/-! ## Lists in order -/

@[simp] theorem mem_insertOn {α : Type} (key : α → Nat) (x y : α) (l : List α) : y ∈ insertOn key x l ↔ y = x ∨ y ∈ l := by
  induction l with
  | nil => simp [insertOn]
  | cons z r ih =>
    rw [insertOn]
    split
    · simp
    · simp only [List.mem_cons, ih]; tauto

@[simp] theorem mem_sortOn {α : Type} (key : α → Nat) (y : α) (l : List α) : y ∈ sortOn key l ↔ y ∈ l := by
  induction l with
  | nil => simp [sortOn]
  | cons z r ih =>
    rw [show sortOn key (z :: r) = insertOn key z (sortOn key r) from rfl, mem_insertOn, ih, List.mem_cons]

theorem sortOn_eq_nil {α : Type} (key : α → Nat) {l : List α} (h : sortOn key l = []) : l = [] :=
  List.eq_nil_iff_forall_not_mem.mpr fun x hx => by
    have := (mem_sortOn key x l).mpr hx
    rw [h] at this; cases this

theorem dropAt_eq_eraseIdx {α : Type} (l : List α) (i : Nat) : dropAt l i = l.eraseIdx i := by
  induction l generalizing i with
  | nil => rfl
  | cons a r ih => cases i <;> simp [dropAt, ih]

theorem mem_of_sget? {α : Type} {m : List (Nat × α)} {k : Nat} {x : α} (h : sget? m k = some x) : (k, x) ∈ m := by
  induction m with
  | nil => cases h
  | cons p r ih =>
    obtain ⟨a, w⟩ := p
    rw [sget?] at h
    split at h
    · rename_i ha; cases h; subst ha; exact List.mem_cons_self ..
    · exact List.mem_cons_of_mem _ (ih h)

/-- Replacing a value at a listed key by another of the same answer changes no answer. -/
theorem any_sput {α : Type} (p : α → Bool) {m : List (Nat × α)} {k : Nat} {x v : α} (h : sget? m k = some x) (hv : p v = p x) :
    (sput m k v).any (fun q => p q.2) = m.any (fun q => p q.2) := by
  induction m with
  | nil => cases h
  | cons q r ih =>
    obtain ⟨a, w⟩ := q
    rw [sput]
    by_cases ha : a = k
    · rw [sget?, if_pos ha] at h; cases h
      simp [ha, hv]
    · rw [sget?, if_neg ha] at h
      split
      · contradiction
      · split
        · have hx : p v = true → ((a, w) :: r).any (fun q => p q.2) = true := fun hp =>
            List.any_eq_true.mpr ⟨(k, x), List.mem_cons_of_mem _ (mem_of_sget? h), by rw [← hv]; exact hp⟩
          rw [List.any_cons]
          cases hp : p v
          · rfl
          · rw [hx hp]; rfl
        · rw [List.any_cons, List.any_cons, ih h]

/-! ## Warps by group and index -/

theorem warp?_modWarp_ne (s : State) {g w g' w' : Nat} (f : Warp → Warp) (h : (g', w') ≠ (g, w)) : warp? (modWarp s g w f) g' w' = warp? s g' w' := by
  unfold warp?
  by_cases hg : g' = g
  · subst hg
    rw [group?_modWarp_self]
    cases hgr : group? s g' with
    | none => rfl
    | some gr => exact getElem?_modAt_ne _ _ fun hw => h (by rw [hw])
  · rw [group?_modWarp_ne _ _ _ hg]

theorem warp?_of {s : State} {g w : Nat} {gr : Group} {wp : Warp} (hg : group? s g = some gr) (hw : gr.warps[w]? = some wp) :
    warp? s g w = some wp := by simp [warp?, hg, hw]

theorem group_of_warp? {s : State} {g w : Nat} {wp : Warp} (h : warp? s g w = some wp) : ∃ gr, group? s g = some gr ∧ gr.warps[w]? = some wp :=
  Option.bind_eq_some_iff.mp h

/-! ## What the active set may change before a choice -/

/-- A warp, and a group, without register caches (R54). -/
def Warp.uncached (wp : Warp) : Warp := { wp with recent := [] }
def Group.uncached (gr : Group) : Group := { gr with warps := gr.warps.map Warp.uncached }

/-- Some group on a core is of a graph in fixed-star mode. -/
def fixedOn (s : State) (c : Nat) : Bool := (residentOn s c).any fun g => fixedOf s g.grid

/-- From s to t warps have joined and left active sets, and register caches have been written back (R54, R104). -/
structure SetsMoved (s t : State) : Prop where
  only : t = { s with groups := t.groups, cores := t.cores }
  halted : ∀ c, (core t c).halted = (core s c).halted
  groups : ∀ g, (group? t g).map Group.uncached = (group? s g).map Group.uncached
  fixed : ∀ c, fixedOn t c = fixedOn s c

theorem SetsMoved.refl (s : State) : SetsMoved s s := ⟨rfl, fun _ => rfl, fun _ => rfl, fun _ => rfl⟩

theorem SetsMoved.trans {s t u : State} (h : SetsMoved s t) (k : SetsMoved t u) : SetsMoved s u := by
  refine ⟨?_, fun c => (k.halted c).trans (h.halted c), fun g => (k.groups g).trans (h.groups g), fun c => (k.fixed c).trans (h.fixed c)⟩
  have hk := k.only
  rw [h.only] at hk
  exact hk

theorem setsMoved_modCore (s : State) (c : Nat) (f : Core → Core) (hf : ∀ k, (f k).halted = k.halted) : SetsMoved s (modCore s c f) := by
  refine ⟨rfl, fun d => ?_, fun _ => rfl, fun _ => rfl⟩
  rw [core_modCore]
  split
  · rename_i hd; rw [hf, hd]
  · rfl

theorem map_modAt_of_eq {α β : Type} (l : List α) (n : Nat) (f : α → α) (u : α → β) (h : ∀ x, u (f x) = u x) : (modAt l n f).map u = l.map u := by
  induction l generalizing n with
  | nil => rfl
  | cons a r ih => cases n <;> simp [modAt, h, ih]

theorem modWarp_only (s : State) (g w : Nat) (f : Warp → Warp) : modWarp s g w f = { s with groups := (modWarp s g w f).groups } :=
  modGroup_only ..

theorem setsMoved_writeBack (s : State) (g w : Nat) : SetsMoved s (modWarp s g w Warp.uncached) := by
  refine ⟨by rw [modWarp_cores]; exact modWarp_only .., fun c => by rw [core_modWarp], fun k => ?_, fun c => ?_⟩
  · by_cases hk : k = g
    · subst hk
      rw [group?_modWarp_self, Option.map_map]
      congr 1
      funext x
      exact congrArg (fun ws => { x with warps := ws }) (map_modAt_of_eq x.warps w Warp.uncached Warp.uncached fun _ => rfl)
    · rw [group?_modWarp_ne _ _ _ hk]
  · have hfix (t : State) (ht : t = { s with groups := t.groups }) : fixedOn t c =
        t.groups.any fun q => (q.2.core == c && (q.2.life == .resident || q.2.life == .halted)) && fixedOf s q.2.grid := by
      rw [fixedOn, residentOn, List.any_filter, List.any_map, ht]; rfl
    rw [hfix _ (modWarp_only ..), hfix s rfl, modWarp, modGroup]
    split
    · rename_i x hx
      exact any_sput (fun q : Group => (q.core == c && (q.life == .resident || q.life == .halted)) && fixedOf s q.grid) hx rfl
    · rfl

/-- Whether a warp may be chosen does not depend on register caches, nor on active sets. -/
theorem SetsMoved.mayChoose {s t : State} (h : SetsMoved s t) (g w : Nat) : mayChoose t g w = mayChoose s g w := by
  have hone (gr : Group) (u : State) : (!spent u gr && (match gr.warps[w]? with | some wp => eligible u gr wp | none => false)) =
      (!spent u gr.uncached && (match gr.uncached.warps[w]? with | some wp => eligible u gr.uncached wp | none => false)) := by
    rw [Group.uncached, List.getElem?_map]
    cases gr.warps[w]? <;> rfl
  have htwo (gr : Group) : (!spent t gr && (match gr.warps[w]? with | some wp => eligible t gr wp | none => false)) =
      (!spent s gr && (match gr.warps[w]? with | some wp => eligible s gr wp | none => false)) := by
    have hh := h.halted gr.core
    rw [h.only] at hh ⊢
    cases gr.warps[w]? with
    | none => rfl
    | some wp =>
      show (!spent s gr && (gr.life == .resident && !_ && _ && _ && _)) = (!spent s gr && (gr.life == .resident && !_ && _ && _ && _))
      rw [hh]; rfl
  have hg := h.groups g
  unfold Machine.mayChoose
  cases ht : group? t g with
  | none => rw [ht] at hg; cases hs : group? s g with
    | none => rfl
    | some gr => rw [hs] at hg; cases hg
  | some gr' => rw [ht] at hg; cases hs : group? s g with
    | none => rw [hs] at hg; cases hg
    | some gr =>
      rw [hs] at hg
      have hu : gr'.uncached = gr.uncached := Option.some.inj hg
      show _ = (!spent s gr && (match gr.warps[w]? with | some wp => eligible s gr wp | none => false))
      rw [hone gr, ← hu, ← hone gr']
      exact htwo gr'

theorem SetsMoved.warp? {s t : State} (h : SetsMoved s t) (g w : Nat) : (warp? t g w).map Warp.uncached = (warp? s g w).map Warp.uncached := by
  have hg := h.groups g
  have key (u : State) : (Machine.warp? u g w).map Warp.uncached = ((group? u g).map Group.uncached).bind fun x => x.warps[w]? := by
    unfold Machine.warp?
    cases group? u g with
    | none => rfl
    | some gr => exact (List.getElem?_map ..).symm
  rw [key, key, hg]

theorem setsMoved_joinSet (c : Nat) (out : List (Nat × Nat)) (s : State) :
    SetsMoved s (joinSet c out s) ∧ ∀ p ∈ (core s c).active, p ∈ (core (joinSet c out s) c).active := by
  induction out generalizing s with
  | nil => exact ⟨.refl s, fun p hp => hp⟩
  | cons x xs ih =>
    obtain ⟨hm, ha⟩ := ih (modCore s c fun k => if k.active.length < 16 then { k with active := k.active ++ [x] } else k)
    refine ⟨(setsMoved_modCore s c _ fun k => by split <;> rfl).trans hm, fun p hp => ha p ?_⟩
    rw [core_modCore_self]
    split
    · exact List.mem_append_left _ hp
    · exact hp

theorem setsMoved_displaceOne (c : Nat) (s : State) (x : Nat × Nat) :
    SetsMoved s (displaceOne c s x) ∧ x ∈ (core (displaceOne c s x) c).active := by
  unfold displaceOne
  refine ⟨SetsMoved.trans ?_ (setsMoved_modCore _ c _ fun _ => rfl), ?_⟩
  · split
    · exact setsMoved_writeBack ..
    · exact .refl s
  · rw [core_modCore_self]
    exact List.mem_append_right _ (List.mem_singleton_self x)

/-- A run of displacements leaves a member that satisfies p where there was one, for every newcomer satisfies p. -/
theorem setsMoved_displacements (c : Nat) (p : Nat × Nat → Prop) {xs : List (Nat × Nat)} (hx : ∀ x ∈ xs, p x) (s : State) :
    SetsMoved s (xs.foldl (displaceOne c) s) ∧
    ((∃ q ∈ (core s c).active, p q) → ∃ q ∈ (core (xs.foldl (displaceOne c) s) c).active, p q) := by
  induction xs generalizing s with
  | nil => exact ⟨.refl s, id⟩
  | cons x xs ih =>
    obtain ⟨hm, ha⟩ := setsMoved_displaceOne c s x
    obtain ⟨hm', hk⟩ := ih (fun y hy => hx y (List.mem_cons_of_mem _ hy)) (displaceOne c s x)
    exact ⟨hm.trans hm', fun _ => hk ⟨x, ha, hx x (List.mem_cons_self ..)⟩⟩

/-- What joins and leaves the active set of a core before its choice (R104). -/
theorem setsMoved_choice (s : State) (c : Nat) : SetsMoved s (displace (joinActive s c) c) ∧
    ((∃ q ∈ (core s c).active, mayChoose s q.1 q.2 = true) →
      ∃ q ∈ (core (displace (joinActive s c) c) c).active, mayChoose s q.1 q.2 = true) := by
  obtain ⟨hj, ha⟩ := setsMoved_joinSet c (outsiders s c fun x => mayChoose s x.1 x.2) s
  obtain ⟨hd, hk⟩ := setsMoved_displacements c (fun q => mayChoose s q.1 q.2 = true) (xs := outsiders (joinActive s c) c fun x =>
      mayChoose (joinActive s c) x.1 x.2 && (match Machine.warp? (joinActive s c) x.1 x.2 with | some wp => decide (256 ≤ wp.wage) | none => false))
    (fun x hx => by
      simp only [outsiders, List.mem_filter, Bool.and_eq_true] at hx
      rw [← hj.mayChoose]
      exact hx.2.2.1) (joinActive s c)
  exact ⟨hj.trans hd, fun ⟨q, hq, hc⟩ => hk ⟨q, ha q hq, hc⟩⟩

end Sys2Proof.Machine
end

section
/-! PROOFS. What a core does of itself: the choice of warps. -/

namespace Sys2Proof.Machine

/-! ## Which warps a core chooses -/

theorem chooseWarp_mem {s : State} {last : Nat} {cands : List (Nat × Nat)} {p : Nat × Nat} (h : chooseWarp s last cands = some p) : p ∈ cands := by
  unfold chooseWarp at h
  simp only at h
  split at h
  · rename_i q r hq
    cases h
    have : p ∈ sortOn (fun p => (slotAge s p).1) (cands.filter fun p => decide (256 ≤ (slotAge s p).2)) := hq ▸ List.mem_cons_self ..
    rw [mem_sortOn] at this
    exact List.mem_of_mem_filter this
  · exact (mem_sortOn _ _ _).mp (List.mem_of_mem_head? h)

theorem chooseWarp_none {s : State} {last : Nat} {cands : List (Nat × Nat)} (h : chooseWarp s last cands = none) : cands = [] := by
  unfold chooseWarp at h
  simp only at h
  split at h
  · cases h
  · exact sortOn_eq_nil _ (List.head?_eq_none_iff.mp h)

/-- R104, R174: at most two warps, each of which may be chosen; one in fixed-star mode, and elsewhere one where a member of the active
set may be chosen. -/
theorem chosenWarps_spec (s : State) (c : Nat) :
    (chosenWarps s c).1.length ≤ 2 ∧ (chosenWarps s c).1.Nodup ∧ (∀ p ∈ (chosenWarps s c).1, mayChoose s p.1 p.2 = true) ∧
    (fixedOn s c = true → (chosenWarps s c).1.length ≤ 1) ∧
    (fixedOn s c = false → (∃ p ∈ (core s c).active, mayChoose s p.1 p.2 = true) → (chosenWarps s c).1 ≠ []) := by
  unfold chosenWarps
  simp only
  split
  · rename_i hfix
    have hfix : fixedOn s c = true := hfix
    simp only [hfix, Bool.true_eq_false, false_imp_iff, and_true, true_imp_iff]
    split
    · split <;> simp_all
    · split
      · rename_i p hp
        have := List.find?_some hp
        simp_all
      · simp
  · rename_i hfix
    have hfix : fixedOn s c = false := Bool.eq_false_iff.mpr hfix
    simp only [hfix, Bool.false_eq_true, false_imp_iff, true_and, true_imp_iff]
    have hmay {p : Nat × Nat} {l : List (Nat × Nat)} (h : p ∈ l.filter fun p => mayChoose s p.1 p.2) : mayChoose s p.1 p.2 = true :=
      (List.mem_filter.mp h).2
    split
    · rename_i hnone
      refine ⟨by simp, by simp, by simp, fun ⟨p, hp, hm⟩ _ => ?_⟩
      have : p ∈ (core s c).active.filter fun p => mayChoose s p.1 p.2 := List.mem_filter.mpr ⟨hp, hm⟩
      rw [chooseWarp_none hnone] at this
      cases this
    · rename_i a ha
      have ha := chooseWarp_mem ha
      split
      · exact ⟨by simp, by simp, by simpa using hmay ha, by simp⟩
      · rename_i b hb
        obtain ⟨hb, hne⟩ := List.mem_filter.mp (chooseWarp_mem hb)
        exact ⟨by simp, by simpa using Ne.symm (by simpa using hne), by simpa using ⟨hmay ha, hmay hb⟩, by simp⟩

/-! ## The lane groups they hand on -/

/-- The lanes of a lane group stand at its address and are not held. -/
def Stands (x : LaneGroup) (y : Warp) : Prop :=
  ∀ l, bit x.lanes l = true → bit (heldLanes y) l = false ∧ ∃ z, y.lanes[l]? = some z ∧ z.pc = x.pc ∧ z.exited = false

theorem stands_groupAt (g w pc : Nat) (y : Warp) : Stands { group := g, warp := w, pc := BitVec.ofNat 64 pc, lanes := groupAt y pc } y := by
  intro l hl
  have hl : bit (lanesAt y (BitVec.ofNat 64 pc)) l = true := hl
  unfold lanesAt at hl
  simp only at hl
  split at hl
  · rename_i hz
    refine ⟨?_, ?_⟩
    · by_contra hh
      have : bit (standing y (BitVec.ofNat 64 pc) &&& heldLanes y) l = true := by simp [hl, Bool.not_eq_false _ ▸ hh]
      rw [hz] at this
      simp at this
    · rw [standing, bit_maskOf] at hl
      simp only [Bool.and_eq_true] at hl
      obtain ⟨-, hl⟩ := hl
      split at hl
      · rename_i z hz
        simp only [Bool.and_eq_true, Bool.not_eq_true', beq_iff_eq] at hl
        exact ⟨z, hz, hl.2, hl.1⟩
      · cases hl
  · simp at hl

/-- From s to t nothing has changed but groups, cores and the issue list. -/
def OnlyIssue (s t : State) : Prop := t = { s with groups := t.groups, cores := t.cores, issue := t.issue }

theorem OnlyIssue.trans {s t u : State} (h : OnlyIssue s t) (k : OnlyIssue t u) : OnlyIssue s u := by
  unfold OnlyIssue at *
  rw [h] at k
  exact k

theorem onlyIssue_of_groups {s t : State} (h : t = { s with groups := t.groups }) : OnlyIssue s t := by
  unfold OnlyIssue
  rw [h]

theorem SetsMoved.onlyIssue {s t : State} (h : SetsMoved s t) : OnlyIssue s t := by
  unfold OnlyIssue
  rw [h.only]

theorem onlyIssue_modCore (s : State) (c : Nat) (f : Core → Core) : OnlyIssue s (modCore s c f) := rfl

theorem OnlyIssue.sameMemory {s t : State} (h : OnlyIssue s t) : SameMemory s t := by
  rw [h]
  exact ⟨fun _ _ => rfl, fun _ _ _ => rfl⟩

/-- One warp's selection: its warp starts to wait afresh, its lane groups stand behind the others in the issue list, and no other warp
changes. -/
theorem selectWarp_spec (s : State) (p : Nat × Nat) :
    OnlyIssue s (selectWarp s p) ∧
    (∀ q, q ≠ p → warp? (selectWarp s p) q.1 q.2 = warp? s q.1 q.2) ∧
    (∀ y, warp? s p.1 p.2 = some y → ∃ x, warp? (selectWarp s p) p.1 p.2 = some x ∧ x.wage = 0) ∧
    ∀ x ∈ (selectWarp s p).issue, x ∈ s.issue ∨ ((x.group, x.warp) = p ∧ ∀ y, warp? s p.1 p.2 = some y → Stands x y) := by
  unfold selectWarp
  split
  · rename_i hg
    exact ⟨rfl, fun _ _ => rfl, fun y hy => by simp [warp?, hg] at hy, fun x hx => .inl hx⟩
  · rename_i gr hg
    split
    · rename_i hw
      exact ⟨rfl, fun _ _ => rfl, fun y hy => by simp [warp?, hg, hw] at hy, fun x hx => .inl hx⟩
    · rename_i wp hw
      simp only
      set f : Warp → Warp := fun x => { tally s gr x (selection s gr wp).1 with wage := 0, line := (selection s gr wp).2 }
      refine ⟨?_, fun q hq => warp?_modWarp_ne s f hq, fun y hy => ⟨f y, warp?_modWarp_of f hy, rfl⟩, fun x hx => ?_⟩
      · obtain ⟨gs, hu⟩ : ∃ gs, modWarp s p.1 p.2 f = { s with groups := gs } := ⟨_, modWarp_only ..⟩
        rw [hu]; rfl
      · rw [modWarp_issue] at hx
        obtain hx | hx := List.mem_append.mp hx
        · exact .inl hx
        · obtain ⟨pc, -, rfl⟩ := List.mem_map.mp hx
          refine .inr ⟨rfl, fun y hy => ?_⟩
          rw [warp?_of hg hw] at hy
          cases hy
          exact stands_groupAt p.1 p.2 pc _

theorem selectWarps_spec {ps : List (Nat × Nat)} (hnd : ps.Nodup) (s : State) :
    OnlyIssue s (ps.foldl selectWarp s) ∧
    (∀ q, q ∉ ps → warp? (ps.foldl selectWarp s) q.1 q.2 = warp? s q.1 q.2) ∧
    (∀ p ∈ ps, ∀ y, warp? s p.1 p.2 = some y → ∃ x, warp? (ps.foldl selectWarp s) p.1 p.2 = some x ∧ x.wage = 0) ∧
    ∀ x ∈ (ps.foldl selectWarp s).issue, x ∈ s.issue ∨ ((x.group, x.warp) ∈ ps ∧ ∀ y, warp? s x.group x.warp = some y → Stands x y) := by
  induction ps generalizing s with
  | nil => exact ⟨rfl, fun _ _ => rfl, fun p hp => absurd hp List.not_mem_nil, fun x hx => .inl hx⟩
  | cons p ps ih =>
    obtain ⟨hp, hnd⟩ := List.nodup_cons.mp hnd
    obtain ⟨h1, h2, h3, h4⟩ := selectWarp_spec s p
    obtain ⟨k1, k2, k3, k4⟩ := ih hnd (selectWarp s p)
    rw [List.foldl_cons]
    refine ⟨?_, fun q hq => ?_, fun q hq y hy => ?_, fun x hx => ?_⟩
    · exact h1.trans k1
    · rw [List.mem_cons, not_or] at hq
      rw [k2 q hq.2, h2 q hq.1]
    · obtain rfl | hq := List.mem_cons.mp hq
      · rw [k2 q hp]; exact h3 y hy
      · exact k3 q hq y (by rw [h2 q fun h => hp (h ▸ hq)]; exact hy)
    · obtain hx | ⟨hx, hs⟩ := k4 x hx
      · obtain hx | ⟨hx, hs⟩ := h4 x hx
        · exact .inl hx
        · subst hx
          exact .inr ⟨List.mem_cons_self .., hs⟩
      · refine .inr ⟨List.mem_cons_of_mem _ hx, fun y hy => hs y ?_⟩
        rw [h2 (x.group, x.warp) fun h => hp (h ▸ hx)]
        exact hy

/-- After a choice the chosen warps have waited for nothing (R104). -/
theorem afterChoice_spec (s0 s : State) (c : Nat) (chosen : List (Nat × Nat)) :
    OnlyIssue s (afterChoice s0 s c chosen) ∧ (afterChoice s0 s c chosen).issue = s.issue ∧
    ∀ p ∈ chosen, (∃ x, warp? s p.1 p.2 = some x ∧ x.wage = 0) → ∃ x, warp? (afterChoice s0 s c chosen) p.1 p.2 = some x ∧ x.wage = 0 := by
  unfold afterChoice
  induction warpsOn s c generalizing s with
  | nil => exact ⟨rfl, rfl, fun p _ h => h⟩
  | cons q qs ih =>
    rw [List.foldl_cons]
    simp only
    set f : Warp → Warp := _
    obtain ⟨k1, k2, k3⟩ := ih (modWarp s q.2.1 q.2.2 f)
    refine ⟨(onlyIssue_of_groups (modWarp_only ..)).trans k1, k2.trans (modWarp_issue ..), fun p hp hx => k3 p hp ?_⟩
    · by_cases hq : p = (q.2.1, q.2.2)
      · obtain ⟨x, hx, -⟩ := hx
        subst hq
        exact ⟨f x, warp?_modWarp_of f hx, if_pos (List.contains_iff_mem.mpr hp)⟩
      · rw [warp?_modWarp_ne s f hq]; exact hx

/-! ## The choice -/

/-- Words that have been chosen issue before anything else happens (R104): a core that is not halted chooses with an empty issue list. -/
theorem execWarpIssueChoice_of_ready {s : State} {c : Nat} (hh : (core s c).halted = false) (hi : s.issue = []) :
    ∃ f : Core → Core, execWarpIssueChoice c s = .next (
      let s1 := displace (joinActive s c) c
      afterChoice s1 (modCore ((chosenWarps s1 c).1.foldl selectWarp s1) c f) c (chosenWarps s1 c).1) :=
  ⟨_, by rw [execWarpIssueChoice, if_neg (by simp [hh, hi])]⟩

/-- The lanes and the holds of a warp do not depend on its register cache. -/
theorem stands_of_uncached {x : LaneGroup} {y z : Warp} (h : y.uncached = z.uncached) (hs : Stands x y) : Stands x z := by
  have hl : y.lanes = z.lanes := by show y.uncached.lanes = z.uncached.lanes; rw [h]
  have hh : heldLanes y = heldLanes z := by show heldLanes y.uncached = heldLanes z.uncached; rw [h]
  unfold Stands at hs ⊢
  rw [← hl, ← hh]
  exact hs

theorem warp_of_mayChoose {s : State} {g w : Nat} (h : mayChoose s g w = true) : ∃ y, warp? s g w = some y := by
  unfold mayChoose at h
  split at h
  · rename_i gr hg
    split at h
    · rename_i y hy; exact ⟨y, warp?_of hg hy⟩
    · simp at h
  · cases h

theorem warpIssueChoice_chooses {s : State} {c : Nat} (hh : (core s c).halted = false) (hi : s.issue = []) :
    ∃ t ps, exec (.warpIssueChoice c) s = .next t ∧ OnlyIssue s t ∧ ps.length ≤ 2 ∧
      (∀ p ∈ ps, mayChoose s p.1 p.2 = true ∧ ∃ x, warp? t p.1 p.2 = some x ∧ x.wage = 0) ∧
      (∀ x ∈ t.issue, (x.group, x.warp) ∈ ps ∧ ∀ y, warp? s x.group x.warp = some y → Stands x y) ∧
      (fixedOn s c = true → ps.length ≤ 1) ∧
      (fixedOn s c = false → (∃ p ∈ (core s c).active, mayChoose s p.1 p.2 = true) → ps ≠ []) := by
  obtain ⟨f, ht⟩ := execWarpIssueChoice_of_ready hh hi
  obtain ⟨hm, hact⟩ := setsMoved_choice s c
  simp only at ht
  set s1 := displace (joinActive s c) c
  obtain ⟨hlen, hnd, hmay, hone, hsome⟩ := chosenWarps_spec s1 c
  set ps := (chosenWarps s1 c).1
  obtain ⟨ho2, -, hw2, hi2⟩ := selectWarps_spec hnd s1
  obtain ⟨ho4, hi4, hw4⟩ := afterChoice_spec s1 (modCore (ps.foldl selectWarp s1) c f) c ps
  have hi1 : s1.issue = [] := by rw [hm.only]; exact hi
  simp only [hm.mayChoose, hm.fixed] at hmay hone hsome
  refine ⟨_, ps, ht, (hm.onlyIssue.trans ho2).trans ((onlyIssue_modCore ..).trans ho4), hlen, fun p hp => ⟨hmay p hp, hw4 p hp ?_⟩, fun x hx => ?_, hone,
    fun hf hp => hsome hf (hact hp)⟩
  · obtain ⟨y, hy⟩ := warp_of_mayChoose ((hm.mayChoose p.1 p.2).trans (hmay p hp))
    rw [warp?_modCore]
    exact hw2 p hp y hy
  · rw [hi4, modCore_issue] at hx
    obtain hx | ⟨hx, hs⟩ := hi2 x hx
    · rw [hi1] at hx; cases hx
    · refine ⟨hx, fun y hy => ?_⟩
      have hu := hm.warp? x.group x.warp
      rw [hy, Option.map_some, Option.map_eq_some_iff] at hu
      obtain ⟨y1, hy1, hu⟩ := hu
      exact stands_of_uncached hu (hs y1 hy1)

end Sys2Proof.Machine
end

section
/-! PROOFS. What a core does of itself: results and the end of a hold. -/

namespace Sys2Proof.Machine

/-! ## Registers of a warp of which other things change -/

/-- Two warps hold the same register rows. -/
def SameRows (x y : Warp) : Prop := x.regs = y.regs ∧ x.priv = y.priv ∧ x.handler = y.handler ∧ x.index = y.index

theorem regAt_of_sameRows {s t : State} {g w : Nat} {gr gr' : Group} {wp wp' : Warp} (hg : group? s g = some gr) (hw : gr.warps[w]? = some wp)
    (hg' : group? t g = some gr') (hw' : gr'.warps[w]? = some wp') (ht : t.tmpls = s.tmpls) (hgr : { gr' with warps := gr.warps } = gr)
    (h : SameRows wp' wp) (r l : Nat) : regAt t g w r l = regAt s g w r l := by
  obtain ⟨hr, hp, hh, hi⟩ := h
  rw [regAt_of hg hw, regAt_of hg' hw', regRead_of_tmpls ht]
  rw [← hgr]
  exact regRead_warp hr hp hh hi r l

/-- A change of one warp that keeps its rows, as the registers and the warp read after it. -/
theorem modWarp_keeps_rows {s : State} {g w : Nat} {gr : Group} {wp : Warp} (f : Warp → Warp) (hg : group? s g = some gr) (hw : gr.warps[w]? = some wp)
    (h : SameRows (f wp) wp) (r l : Nat) : regAt (modWarp s g w f) g w r l = regAt s g w r l :=
  regAt_of_sameRows hg hw (gr' := { gr with warps := modAt gr.warps w f }) (by rw [group?_modWarp_self, hg]; rfl) (by simp [hw]) (modWarp_tmpls ..)
    rfl h r l

/-! ## Results return -/

/-- A warp of a group in no issue, for what the writes of its registers leave. -/
def standIn (g w : Nat) (gr : Group) (wp : Warp) : Env :=
  { g := g, w := w, pc := 0, word := 0, mark := false, atPc := 0, live := 0, gr := gr, wp := wp, die := 0, fixed := false }

/-- A result that has returned is on its way no more. -/
def returned (i : Nat) (wp : Warp) : Warp := { wp with outs := dropAt wp.outs i }

/-- The state in which result i of a warp has reached register r in lane l, or has been discarded, before its warp looks whether it was
the last. -/
def landed (s : State) (g w i l r : Nat) (v : Word) (alive : Bool) : State :=
  let s1 := modWarp (bindReg s g w r l) g w (returned i)
  if alive then writeReg s1 g w r l v else s1

theorem longLatencyReturn_eq {s : State} {g w i l r : Nat} {v : Word} {gr : Group} {wp : Warp} (hg : group? s g = some gr)
    (hw : gr.warps[w]? = some wp) (hl : gr.life = .resident) (ho : wp.outs[i]? = some (.value l r v)) :
    exec (.longLatencyReturn g w i) s =
      .next (stillAway (modGroup (modWarp (landed s g w i l r v (bit (aliveLanes wp) l)) g w unpark) g afterReturns) g w) := by
  show execLongLatencyReturn g w i s = _
  simp only [execLongLatencyReturn, hg, warp?_of hg hw, ho]
  rw [if_neg (not_not.mpr hl)]
  rfl

theorem landed_spec {s : State} {g w i l r : Nat} {v : Word} {gr : Group} {wp : Warp} {alive : Bool} (hg : group? s g = some gr)
    (hw : gr.warps[w]? = some wp) (hl : l < 32) :
    ∃ gr' wp', group? (landed s g w i l r v alive) g = some gr' ∧ gr'.warps[w]? = some wp' ∧ SameMemory s (landed s g w i l r v alive) ∧
      { wp' with regs := wp.regs, priv := wp.priv, tags := wp.tags, past := wp.past, regBad := wp.regBad } = returned i wp ∧
      ∀ q k, k < 32 → regAt (landed s g w i l r v alive) g w q k = if q = r ∧ k = l ∧ alive = true then v else regAt s g w q k := by
  set s0 := bindReg s g w r l
  set s1 := modWarp s0 g w (returned i)
  have hg0 : group? s0 g = some gr := hg
  have hg1 : group? s1 g = some { gr with warps := modAt gr.warps w (returned i) } := by rw [group?_modWarp_self, hg0]; rfl
  have hw1 : (modAt gr.warps w (returned i))[w]? = some (returned i wp) := by simp [hw]
  have hreg (q k : Nat) : regAt s1 g w q k = regAt s g w q k := by
    rw [modWarp_keeps_rows (returned i) hg0 hw ⟨rfl, rfl, rfl, rfl⟩]
    exact regAt_of_sameRows hg hw hg0 hw rfl rfl ⟨rfl, rfl, rfl, rfl⟩ q k
  set e := standIn g w _ (returned i wp)
  have hwrote : Wrote e s1 (landed s g w i l r v alive) (if alive then alsoIn noResult r l v else noResult) := by
    unfold landed
    cases alive
    · exact wrote_refl ⟨hg1, hw1⟩
    · exact wrote_writeReg r l v hl (wrote_refl ⟨hg1, hw1⟩)
  obtain ⟨hr, ho, wp', hwp, hk, -⟩ := hwrote
  obtain ⟨gr', hg', hw'⟩ := group_of_warp? hwp
  refine ⟨gr', wp', hg', hw', ?_, hk, fun q k hk' => ?_⟩
  · obtain ⟨h1, h2⟩ := sameMemory_of_only ho.1
    have hs1 : s1 = { s with groups := s1.groups, late := s1.late } := by
      obtain ⟨gs, hu⟩ : ∃ gs, s1 = { s0 with groups := gs } := ⟨_, modWarp_only ..⟩
      rw [hu]; rfl
    rw [hs1] at h1 h2
    exact ⟨h1, h2⟩
  · rw [show regAt (landed s g w i l r v alive) g w q k = _ from hr q k hk', show regAt s1 e.g e.w q k = _ from hreg q k]
    cases alive
    · simp [noResult]
    · simp only [alsoIn, if_true, noResult, and_true]
      split <;> rfl

theorem unpark_sameRows (wp : Warp) : SameRows (unpark wp) wp := by
  obtain ⟨p, q, h⟩ := unpark_only wp
  rw [h]
  exact ⟨rfl, rfl, rfl, rfl⟩

/-- What the last result of a warp leaves of its park (R44). -/
theorem unpark_spec (wp : Warp) : (unpark wp).outs = wp.outs ∧ (unpark wp).lanes = wp.lanes ∧
    (∀ m, wp.parked = some m → wp.outs = [] → (unpark wp).parked = none ∧ ∀ k, k ∈ (unpark wp).pending ↔ k ∈ wp.pending ∧ bit m (k % 32) = false) ∧
    (wp.parked = none ∨ wp.outs ≠ [] → (unpark wp).parked = wp.parked ∧ (unpark wp).pending = wp.pending) := by
  obtain ⟨p, q, h⟩ := unpark_only wp
  refine ⟨by rw [h], by rw [h], fun m hm ho => ?_, fun hk => ?_⟩
  · simp [unpark, hm, ho]
  · unfold unpark
    split
    · rename_i m hm
      obtain hk | hk := hk
      · rw [hk] at hm; cases hm
      · rw [if_neg (by simpa using hk)]; exact ⟨rfl, rfl⟩
    · exact ⟨rfl, rfl⟩

/-- What a warp holds of its own is not changed by the words of its group that wait for results. -/
theorem afterReturns_warp {gr : Group} {w : Nat} {wp : Warp} (hw : gr.warps[w]? = some wp) :
    ∃ hs, (afterReturns gr).warps[w]? = some { wp with holds := hs } := by
  simp only [afterReturns, List.getElem?_map, hw, Option.map_some, Option.some.injEq]
  split
  · exact ⟨_, rfl⟩
  · exact ⟨wp.holds, rfl⟩

theorem longLatencyReturn_lands {s : State} {g w i l r : Nat} {v : Word} {gr : Group} {wp : Warp} (hg : group? s g = some gr)
    (hw : gr.warps[w]? = some wp) (hlife : gr.life = .resident) (ho : wp.outs[i]? = some (.value l r v)) (hl : l < 32) :
    ∃ t x, exec (.longLatencyReturn g w i) s = .next t ∧ SameMemory s t ∧ warp? t g w = some x ∧ x.outs = wp.outs.eraseIdx i ∧ x.lanes = wp.lanes ∧
      (∀ q k, k < 32 → regAt t g w q k = if q = r ∧ k = l ∧ bit (aliveLanes wp) l = true then v else regAt s g w q k) ∧
      (∀ m, wp.parked = some m → x.outs = [] → x.parked = none ∧ ∀ k, k ∈ x.pending ↔ k ∈ wp.pending ∧ bit m (k % 32) = false) ∧
      (wp.parked = none ∨ x.outs ≠ [] → x.parked = wp.parked ∧ x.pending = wp.pending) := by
  have hx := longLatencyReturn_eq hg hw hlife ho
  set alive := bit (aliveLanes wp) l
  obtain ⟨gr1, wp1, hg1, hw1, hmem, hwp, hreg⟩ := landed_spec (i := i) (r := r) (v := v) (alive := alive) hg hw hl
  set s1 := landed s g w i l r v alive
  have hg2 : group? (modWarp s1 g w unpark) g = some { gr1 with warps := modAt gr1.warps w unpark } := by rw [group?_modWarp_self, hg1]; rfl
  have hw2 : (modAt gr1.warps w unpark)[w]? = some (unpark wp1) := by simp [hw1]
  obtain ⟨hs, hw3⟩ := afterReturns_warp (gr := { gr1 with warps := modAt gr1.warps w unpark }) hw2
  have hg3 : group? (modGroup (modWarp s1 g w unpark) g afterReturns) g = some (afterReturns { gr1 with warps := modAt gr1.warps w unpark }) := by
    rw [group?_modGroup_self, hg2]; rfl
  obtain ⟨hou, hla, hlast, hmore⟩ := unpark_spec wp1
  have houts : wp1.outs = wp.outs.eraseIdx i := by rw [← dropAt_eq_eraseIdx]; exact congrArg (fun x => x.outs) hwp
  have hlanes : wp1.lanes = wp.lanes := congrArg (fun x => x.lanes) hwp
  have hpark : wp1.parked = wp.parked := congrArg (fun x => x.parked) hwp
  have hpend : wp1.pending = wp.pending := congrArg (fun x => x.pending) hwp
  refine ⟨_, _, hx, ?_, warp?_of hg3 hw3, hou.trans houts, hla.trans hlanes, fun q k hk => ?_, fun m hm hn => ?_, fun hk => ?_⟩
  · obtain ⟨gs, hu⟩ : ∃ gs, modGroup (modWarp s1 g w unpark) g afterReturns = { s1 with groups := gs } :=
      ⟨_, by rw [modGroup_only, modWarp_only]⟩
    rw [hu]
    exact hmem
  · rw [← hreg q k hk, ← modWarp_keeps_rows unpark hg1 hw1 (unpark_sameRows wp1)]
    exact regAt_of_sameRows hg2 hw2 hg3 hw3 (modGroup_tmpls ..) rfl ⟨rfl, rfl, rfl, rfl⟩ q k
  · rw [← hpend]
    exact hlast m (hpark.trans hm) (hou.symm.trans hn)
  · rw [← hpark, ← hpend]
    exact hmore (hk.imp (hpark.trans ·) fun hn he => hn (hou.trans he))

end Sys2Proof.Machine
end

section
/-! PROOFS. What a core does of itself: ends of warps and waits, and the statement. -/

namespace Sys2Proof.Machine

/-! ## A warp ends -/

/-- A warp that has ended. -/
def endedWarp (wp : Warp) : Warp := { wp with ended := true, handler := none, parked := none, holds := [], predictor := [], yielding := none }

/-- The warps of a group that wait for the others lose holds at most. -/
theorem retryWhole_warp {gr : Group} {w : Nat} {wp : Warp} (hw : gr.warps[w]? = some wp) :
    ∃ q, (retryWhole gr).warps[w]? = some { wp with holds := wp.holds.filter q } := by
  have hsame : gr.warps[w]? = some { wp with holds := wp.holds.filter fun _ => true } := by rw [hw, List.filter_true]
  unfold retryWhole
  simp only
  split
  · split
    · rename_i x _
      simp only [List.getElem?_map, hw, Option.map_some]
      split
      · exact ⟨_, rfl⟩
      · exact ⟨fun _ => true, by rw [List.filter_true]⟩
    · exact ⟨_, hsame⟩
  · exact ⟨_, hsame⟩

theorem warpEnd_ends {s : State} {g w : Nat} {gr : Group} {wp : Warp} (hg : group? s g = some gr) (hw : gr.warps[w]? = some wp)
    (hl : gr.life = .resident) (he : wp.ended = false) (hx : ∀ x ∈ wp.lanes, x.exited = true) (ho : wp.outs = []) :
    ∃ t x, exec (.warpEnd g w) s = .next t ∧ SameMemory s t ∧ warp? t g w = some x ∧ x.ended = true ∧ x.holds = [] ∧ x.regs = wp.regs ∧
      (g, w) ∉ (core t gr.core).active := by
  set s1 := modWarp s g w endedWarp
  set s2 := modCore s1 gr.core fun c => { c with active := c.active.filter (· != (g, w)) }
  have hexec : exec (.warpEnd g w) s = .next (modGroup s2 g retryWhole) := by
    show execWarpEnd g w s = _
    simp only [execWarpEnd, hg, warp?_of hg hw]
    rw [if_neg (by simpa [he, ho, hl] using hx)]
    rfl
  have hg1 : group? s2 g = some { gr with warps := modAt gr.warps w endedWarp } := by
    rw [group?_modCore, group?_modWarp_self, hg]; rfl
  have hw1 : (modAt gr.warps w endedWarp)[w]? = some (endedWarp wp) := by simp [hw]
  obtain ⟨q, hw2⟩ := retryWhole_warp (gr := { gr with warps := modAt gr.warps w endedWarp }) hw1
  have hg2 : group? (modGroup s2 g retryWhole) g = some (retryWhole { gr with warps := modAt gr.warps w endedWarp }) := by
    rw [group?_modGroup_self, hg1]; rfl
  refine ⟨_, _, hexec, ?_, warp?_of hg2 hw2, rfl, rfl, rfl, ?_⟩
  · exact (((onlyIssue_of_groups (modWarp_only ..)).trans (onlyIssue_modCore ..)).trans (onlyIssue_of_groups (modGroup_only ..))).sameMemory
  · rw [core_modGroup, core_modCore_self]
    simp

/-! ## Waits end -/

theorem yieldReturn_returns {s : State} {g w : Nat} {gr : Group} {wp : Warp} {l : List (Nat × Nat)} (hg : group? s g = some gr)
    (hw : gr.warps[w]? = some wp) (hy : wp.yielding = some l) (h : fixedOf s gr.grid = false ∨ l = []) :
    exec (.yieldReturn g w) s = .next (modWarp s g w fun x => { x with yielding := none }) := by
  show execYieldReturn g w s = _
  simp only [execYieldReturn, hg, warp?_of hg hw, hy]
  rw [if_neg (by rcases h with h | h <;> simp [h])]

theorem sleepExpiry_ends {s : State} {g w i : Nat} {gr : Group} {wp : Warp} {h : HoldRec} (hg : group? s g = some gr)
    (hw : gr.warps[w]? = some wp) (hh : wp.holds[i]? = some h) (hk : h.kind = .sleep) :
    exec (.sleepExpiry g w i) s = .next (modWarp s g w (endHold h)) := by
  show execSleepExpiry g w i s = _
  have : hold? s g w i = some h := by simp [hold?, warp?_of hg hw, hh]
  simp only [execSleepExpiry, this, hk, if_true]

/-- Parking is all that the end of a hold does beside the hold and its lanes. -/
theorem endHold_only (h : HoldRec) (wp : Warp) : ∃ p q, endHold h wp = { advance wp h.lanes with holds := wp.holds.erase h, pending := p, parked := q } := by
  unfold endHold
  simp only
  split
  · split
    · obtain ⟨p, q, hp⟩ := park_only h.live { advance wp h.lanes with holds := wp.holds.erase h }
      exact ⟨p, q, by rw [hp]⟩
    · exact ⟨wp.pending, wp.parked, rfl⟩
  · exact ⟨wp.pending, wp.parked, rfl⟩

/-- Settles O48: the choice of warps, a result's return, a warp's end and the ends of waits, each by its lemma. -/
theorem coreHappeningsAct : Obligations.CoreHappeningsAct := by
  unfold Obligations.CoreHappeningsAct
  intro s g w gr wp hg hw
  refine ⟨fun c hh hi => ?_, fun i l r v hlife ho hl => longLatencyReturn_lands hg hw hlife ho hl, fun hlife he hx ho => warpEnd_ends hg hw hlife he hx ho,
    fun l hy h => yieldReturn_returns hg hw hy h, fun i h hh hk => sleepExpiry_ends hg hw hh hk, fun h => ?_⟩
  · obtain ⟨t, ps, ht, ho, hlen, hps, hiss, hfix, hrot⟩ := warpIssueChoice_chooses hh hi
    refine ⟨t, ps, ht, ho.sameMemory, ho, hlen, hps, fun x hx => ?_, fun hf => hfix (List.any_eq_true.mpr hf),
      fun hf => hrot (List.any_eq_false.mpr fun x hx => by simp [hf x hx])⟩
    obtain ⟨hp, hs⟩ := hiss x hx
    exact ⟨hp, fun l y hb hy => hs y hy l hb⟩
  · obtain ⟨p, q, hq⟩ := endHold_only h wp
    refine ⟨endHold_holds h wp, by rw [hq]; rfl, by rw [hq]; rfl, fun l => ?_⟩
    rw [endHold_lanes, mem_lanes_advance]

end Sys2Proof.Machine
end

section
/-! PROOFS. Words lane by lane, and views that grow. -/

namespace Sys2Proof.Machine

/-! ## Lane by lane -/

/-- Every lane takes its step: what holds of the state is kept, and each lane gives what it may give. -/
theorem eachLane_ok {α : Type} {f : State → Nat → Except LaneFault (State × α)} {P : State → Prop} {Q : Nat → α → Prop} :
    ∀ (ls : List Nat) {s : State}, (∀ l ∈ ls, ∀ u, P u → ∃ v a, f u l = .ok (v, a) ∧ P v ∧ Q l a) → P s →
    ∃ u as, eachLane f ls s = ([], u, as) ∧ P u ∧ as.map (·.1) = ls ∧ ∀ p ∈ as, Q p.1 p.2
  | [], s, _, hs => ⟨s, [], rfl, hs, rfl, fun _ h => by cases h⟩
  | l :: ls, s, h, hs => by
    obtain ⟨v, a, hf, hv, ha⟩ := h l (List.mem_cons_self ..) s hs
    obtain ⟨u, as, hu, hP, hk, hQ⟩ := eachLane_ok ls (fun k hk => h k (List.mem_cons_of_mem _ hk)) hv
    refine ⟨u, (l, a) :: as, by simp only [eachLane, hf, hu], hP, by simp [hk], fun p hp => ?_⟩
    obtain rfl | hp := List.mem_cons.mp hp
    · exact ha
    · exact hQ p hp

theorem eachLane_faults_mem {α : Type} (f : State → Nat → Except LaneFault (State × α)) :
    ∀ (ls : List Nat) (s : State), ∀ p ∈ (eachLane f ls s).1, p.1 ∈ ls
  | [], _, p, hp => by cases hp
  | l :: ls, s, p, hp => by
    rw [eachLane] at hp
    split at hp
    · exact List.mem_cons_of_mem _ (eachLane_faults_mem f ls _ p hp)
    · obtain rfl | hp := List.mem_cons.mp hp
      · exact List.mem_cons_self ..
      · exact List.mem_cons_of_mem _ (eachLane_faults_mem f ls s p hp)

theorem lanesThen_ok {α : Type} {e : Env} {s u : State} {f : State → Nat → Except LaneFault (State × α)} {as : List (Nat × α)}
    (h : eachLane f (lanesOf e.live) s = ([], u, as)) (k : State → List (Nat × α) → WordRes) : lanesThen e s f k = k u as := by
  simp [lanesThen, h, laneFault]

theorem lanesOf_of_leader {m : Mask} {l : Nat} (h : leader m = some l) : ∃ ls, lanesOf m = l :: ls := by
  unfold leader at h
  cases hm : lanesOf m with
  | nil => rw [hm] at h; cases h
  | cons a r => rw [hm] at h; cases h; exact ⟨r, rfl⟩

/-- The lowest lane's fault is the word's, with the lanes that reach its code (R9). -/
theorem lanesThen_fault {α : Type} {e : Env} {s : State} {f : State → Nat → Except LaneFault (State × α)} {l : Nat} {c : Code} {d0 d1 : DWord}
    (hl : leader e.live = some l) (hf : f s l = .error (some (c, d0, d1))) (k : State → List (Nat × α) → WordRes) :
    ∃ lanes, bit lanes l = true ∧ lanes &&& e.live = lanes ∧ lanesThen e s f k = .trap s c lanes d0 d1 := by
  obtain ⟨ls, hls⟩ := lanesOf_of_leader hl
  have hlive : bit e.live l = true := (mem_lanesOf ..).mp (hls ▸ List.mem_cons_self ..)
  set fs := (eachLane f ls s).1 with hfs
  have hx : (eachLane f (lanesOf e.live) s).1 = (l, some (c, d0, d1)) :: fs := by rw [hls, eachLane, hf]
  refine ⟨maskOf fun j => ((l, some (c, d0, d1)) :: fs).any fun x => x.1 == j && (match x.2 with | some y => y.1 == c | none => false), ?_, ?_, ?_⟩
  · simp [bit_maskOf, bit_lt hlive]
  · refine mask_ext fun j hj => ?_
    rw [bit_and]
    cases hb : bit (maskOf _) j with
    | false => rfl
    | true =>
      simp only [bit_maskOf, Bool.and_eq_true, decide_eq_true_eq, List.any_eq_true, beq_iff_eq] at hb
      obtain ⟨-, p, hp, rfl, -⟩ := hb
      have hmem : p.1 ∈ lanesOf e.live := eachLane_faults_mem f (lanesOf e.live) s p (hx ▸ hp)
      simpa using (mem_lanesOf ..).mp hmem
  · rw [lanesThen, hx]; rfl

/-- So the word takes it. -/
theorem faultsFirst_of_lane {α : Type} {i : Instr} {e : Env} {s : State} {f : State → Nat → Except LaneFault (State × α)}
    {k : State → List (Nat × α) → WordRes} {l : Nat} {c : Code} {d0 d1 : DWord} (hx : exec i s = finish e i (lanesThen e s f k) s)
    (hl : leader e.live = some l) (hf : f s l = .error (some (c, d0, d1))) : FaultsFirst i s e s c d0 d1 := by
  obtain ⟨lanes, hb, ha, ht⟩ := lanesThen_fault hl hf k
  exact ⟨l, lanes, hl, hb, ha, by rw [hx, ht, finish_trap]⟩

/-- What a list of results by lane says of each lane. -/
theorem laneNat_of {as : List (Nat × Nat)} {ls : List Nat} {Q : Nat → Nat → Prop} (hk : as.map (·.1) = ls) (hQ : ∀ p ∈ as, Q p.1 p.2) {l : Nat}
    (hl : l ∈ ls) : Q l (laneNat as l) := by
  subst hk
  obtain ⟨p, hp, rfl⟩ := List.mem_map.mp hl
  obtain ⟨q, hq⟩ : ∃ q, as.find? (fun x => x.1 == p.1) = some q := by
    rw [← Option.isSome_iff_exists, List.find?_isSome]; exact ⟨p, hp, by simp⟩
  have hk : q.1 = p.1 := by simpa using List.find?_some hq
  rw [laneNat, hq, ← hk]
  exact hQ q (List.mem_of_find?_eq_some hq)

/-! ## What a die must see grows -/

theorem sget?_raise_le (m : List (Nat × Nat)) (k v j : Nat) : (sget? m j).getD 0 ≤ (sget? (raise m k v) j).getD 0 := by
  unfold raise
  split
  · exact le_rfl
  · rw [sget?_sput]
    split
    · subst_vars; simp only [Option.getD_some]; omega
    · exact le_rfl

theorem sget?_foldl_raise_le (xs : List (Nat × Nat)) (m : List (Nat × Nat)) (j : Nat) :
    (sget? m j).getD 0 ≤ (sget? (xs.foldl (fun m p => raise m p.1 p.2) m) j).getD 0 := by
  induction xs generalizing m with
  | nil => exact le_rfl
  | cons p xs ih => exact (sget?_raise_le m p.1 p.2 j).trans (ih _)

/-- A view covers at least what another covers. -/
def View.Covers (v w : View) : Prop :=
  (∀ j, (sget? w.clock j).getD 0 ≤ (sget? v.clock j).getD 0) ∧ ∀ j, (sget? w.seen j).getD 0 ≤ (sget? v.seen j).getD 0

theorem View.covers_refl (v : View) : v.Covers v := ⟨fun _ => le_rfl, fun _ => le_rfl⟩

theorem View.Covers.trans {u v w : View} (h : u.Covers v) (h' : v.Covers w) : u.Covers w :=
  ⟨fun j => (h'.1 j).trans (h.1 j), fun j => (h'.2 j).trans (h.2 j)⟩

theorem View.join_covers (v w : View) : (v.join w).Covers v :=
  ⟨sget?_foldl_raise_le w.clock v.clock, sget?_foldl_raise_le w.seen v.seen⟩

theorem mustSee_of_covers {v w : View} (h : v.Covers w) {d : Nat} {x : Ver} (hx : mustSee w d x = true) : mustSee v d x = true := by
  obtain ⟨hc, hs⟩ := h
  simp only [mustSee, Bool.or_eq_true, Bool.and_eq_true, decide_eq_true_eq, List.any_eq_true] at hx ⊢
  obtain ((h | h) | ⟨h, h'⟩) | ⟨i, hi, h⟩ := hx
  · exact .inl (.inl (.inl h))
  · exact .inl (.inl (.inr (h.trans (hc _))))
  · exact .inl (.inr ⟨h, h'.trans (hc _)⟩)
  · exact .inr ⟨i, hi, h.trans (hs _)⟩

theorem viewOf_learn_covers (s : State) (k : Nat) (v : View) (d : Nat) : (viewOf (learn s k v) d).Covers (viewOf s d) := by
  show ((modAt s.views k (View.join · v))[d]?.getD View.empty).Covers _
  rw [getElem?_modAt]
  split
  · rw [viewOf]
    cases s.views[d]? with
    | none => exact View.covers_refl _
    | some x => exact View.join_covers x v
  · exact View.covers_refl _

end Sys2Proof.Machine
end

section
/-! PROOFS. What a read tells, and what it leaves as it was. -/

namespace Sys2Proof.Machine

/-! ## What a read tells -/

theorem modAt_modAt_const {α : Type} (l : List α) (n : Nat) (a : α) (f : α → α) : modAt (modAt l n fun _ => a) n f = modAt l n fun _ => f a := by
  induction l generalizing n with
  | nil => rfl
  | cons b r ih => cases n <;> simp [modAt, ih]

/-- From s to u the warp in issue has heard something, dies have learned of writes and loads under way are bound, and nothing else has
changed. -/
def HeardOnly (e : Env) (s u : State) : Prop :=
  u = { s with groups := u.groups, views := u.views, late := u.late } ∧ (∀ g, g ≠ e.g → group? u g = group? s g) ∧
  (∃ hs, group? u e.g = some { e.gr with warps := modAt e.gr.warps e.w fun _ => { e.wp with heard := hs } }) ∧
  ∀ d, (viewOf u d).Covers (viewOf s d)

theorem modAt_same {α : Type} {l : List α} {n : Nat} {a : α} (h : l[n]? = some a) : (modAt l n fun _ => a) = l := by
  refine List.ext_getElem? fun m => ?_
  rw [getElem?_modAt]
  split
  · subst_vars; rw [h]; rfl
  · rfl

theorem heardOnly_refl {e : Env} {s : State} (h : Here e s) : HeardOnly e s s :=
  ⟨rfl, fun _ _ => rfl, ⟨e.wp.heard, by rw [h.1, modAt_same h.2]⟩, fun _ => View.covers_refl _⟩

theorem heardOnly_learn {e : Env} {s u : State} (h : HeardOnly e s u) (d : Nat) (v : View) : HeardOnly e s (learn u d v) := by
  obtain ⟨hu, hg, hs, hv⟩ := h
  exact ⟨by rw [hu]; rfl, hg, hs, fun k => (viewOf_learn_covers u d v k).trans (hv k)⟩

theorem heardOnly_late {e : Env} {s u : State} (h : HeardOnly e s u) (ls : List Late) : HeardOnly e s { u with late := ls } := by
  obtain ⟨hu, hg, hs, hv⟩ := h
  exact ⟨by rw [hu], hg, hs, hv⟩

theorem hear_only (l : Nat) (sys : Bool) (v : View) (wp : Warp) : ∃ hs, hear l sys v wp = { wp with heard := hs } := by
  unfold hear
  split
  · exact ⟨wp.heard, rfl⟩
  · exact ⟨_, rfl⟩

theorem heardOnly_modWarp {e : Env} {s u : State} (h : HeardOnly e s u) {f : Warp → Warp} (hf : ∀ x, ∃ hs, f x = { x with heard := hs }) :
    HeardOnly e s (modWarp u e.g e.w f) := by
  obtain ⟨hu, hg, ⟨hs, he⟩, hv⟩ := h
  obtain ⟨gs, hm⟩ : ∃ gs, modWarp u e.g e.w f = { u with groups := gs } := ⟨_, modGroup_only ..⟩
  refine ⟨by rw [hm, hu], fun g hn => by rw [group?_modWarp_ne _ _ _ hn, hg g hn], ?_, fun d => by rw [hm]; exact hv d⟩
  obtain ⟨hs', hf'⟩ := hf { e.wp with heard := hs }
  exact ⟨hs', by rw [group?_modWarp_self, he]; simp only [Option.map_some, modAt_modAt_const, hf']⟩

theorem heardOnly_sawBytes {e : Env} {s u : State} (h : HeardOnly e s u) (d k n : Nat) (skip : List Ver) :
    HeardOnly e s (sawBytes u d k n skip) := heardOnly_learn (heardOnly_late h _) ..

theorem heardOnly_afterRead {e : Env} {s u : State} (h : HeardOnly e s u) (acq : Bool) (sc : Scope) (sp a n : Nat) (skip : List Ver) (l : Nat) :
    HeardOnly e s (afterRead u e acq sc sp a n skip l) := by
  have hsaw := heardOnly_sawBytes h e.die (memKey sp a) n skip
  unfold afterRead
  simp only
  split
  · exact hsaw
  · have hheard := heardOnly_modWarp hsaw (f := fun x => hear l true (heardView true (sources u (memKey sp a) n skip))
      (hear l false (heardView false (sources u (memKey sp a) n skip)) x)) fun x => by
        obtain ⟨p, hp⟩ := hear_only l false (heardView false (sources u (memKey sp a) n skip)) x
        obtain ⟨q, hq⟩ := hear_only l true (heardView true (sources u (memKey sp a) n skip)) { x with heard := p }
        exact ⟨q, by rw [hp, hq]⟩
    split <;> split
    · exact heardOnly_learn (heardOnly_learn hheard ..) ..
    · exact heardOnly_learn hheard ..
    · exact heardOnly_learn hheard ..
    · exact hheard

theorem heardOnly_mayBindLate {e : Env} {s u : State} (h : HeardOnly e s u) (m : MemMod) (d : Reg) (sp a l : Nat) :
    HeardOnly e s (mayBindLate u e m d sp a l) := by
  unfold mayBindLate
  split
  · exact h
  · exact heardOnly_late h _

theorem heardOnly_readCredit {e : Env} {s u : State} (h : HeardOnly e s u) (acq : Bool) (l a : Nat) : HeardOnly e s (readCredit e acq u l a) := by
  unfold readCredit
  split
  · exact h
  · have hheard := heardOnly_modWarp h fun x => hear_only l false ‹View› x
    simp only
    split
    · exact heardOnly_learn hheard ..
    · exact hheard

/-! ## What a later lane finds as it was -/

/-- Kind and heap of a group, all that the look-up of a line of its own reads. -/
def kindHeap (x : Group) : GroupKind × List (Nat × Nat) := (x.kind, x.heap)

/-- Group by group, heap and kind are the same. -/
theorem heardOnly_group {e : Env} {s u : State} (hh : Here e s) (h : HeardOnly e s u) (g : Nat) :
    (group? u g).map kindHeap = (group? s g).map kindHeap := by
  obtain ⟨-, hg, ⟨hs, he⟩, -⟩ := h
  by_cases hn : g = e.g
  · subst hn; rw [he, hh.1]; rfl
  · rw [hg g hn]

theorem heapLine_congr {s u : State} {gr gr' : Group} (ht : u.tmpls = s.tmpls) (hk : kindHeap gr' = kindHeap gr)
    (h : ∀ g, (group? u g).map kindHeap = (group? s g).map kindHeap) (line : Nat) : heapLine u gr' line = heapLine s gr line := by
  have htm : tmpl? u = tmpl? s := by funext k; simp only [tmpl?, ht]
  have howner (o : Option Nat) : (o.bind (group? u)).map kindHeap = (o.bind (group? s)).map kindHeap := by
    cases o with
    | none => rfl
    | some g => exact h g
  have hlast (o : Option Nat) : ((o.bind (group? u)).bind fun x => sget? x.heap line) = (o.bind (group? s)).bind fun x => sget? x.heap line := by
    have := congrArg (Option.bind · fun p => sget? p.2 line) (howner o)
    simpa only [Option.bind_map, Function.comp_def, kindHeap] using this
  obtain ⟨hkind, hheap⟩ : gr'.kind = gr.kind ∧ gr'.heap = gr.heap := by simpa [kindHeap] using hk
  rw [heapLine, heapLine, hkind, hheap, htm]
  cases sget? gr.heap line with
  | some p => rfl
  | none =>
  cases gr.kind.tmpl?.bind (tmpl? s) with
  | none => rfl
  | some t =>
  have hown := howner t.owner
  simp only
  generalize t.owner.bind (group? u) = a at hown ⊢
  generalize t.owner.bind (group? s) = b at hown ⊢
  cases a with
  | none =>
    cases b with
    | none => rfl
    | some b => cases hown
  | some a =>
    cases b with
    | none => cases hown
    | some b =>
      obtain ⟨hka, hpa⟩ : a.kind = b.kind ∧ a.heap = b.heap := by simpa [kindHeap] using hown
      simp only [hka, hpa, hlast]

theorem heardOnly_seenAt {e : Env} {s u : State} (hh : Here e s) (h : HeardOnly e s u) (x : Leaf) : seenAt u e x = seenAt s e x := by
  have hg := heardOnly_group hh h
  obtain ⟨hu, -, ⟨hs, he⟩, -⟩ := h
  have hl := heapLine_congr (u := u) (s := s) (gr' := e.now u) (gr := e.now s) (by rw [hu]) (by simp [Env.now, he, hh.1, kindHeap]) hg
  simp only [seenAt, viewAddr, hl]

theorem heardOnly_eccHit {e : Env} {s u : State} (h : HeardOnly e s u) (d sp a n : Nat) : eccHit u d sp a n = eccHit s d sp a n := by
  rw [h.1]; rfl

theorem heardOnly_l1Error {e : Env} {s u : State} (h : HeardOnly e s u) (x : Leaf) (k n : Nat) : l1Error u e x k n = l1Error s e x k n := by
  rw [h.1]; rfl

theorem heardOnly_boundTo {e : Env} {s u : State} (h : HeardOnly e s u) (p c : Nat) : boundTo u p c = boundTo s p c := by
  rw [h.1]; rfl

theorem heardOnly_readBytes {e : Env} {s u : State} (h : HeardOnly e s u) (d sp a n : Nat) (skip : List Ver) :
    readBytes u d sp a n skip = readBytes s d sp a n skip := by
  rw [h.1]; rfl

/-- The writes that a load may leave unread (R231): none where the step has no free choice, and none that its die must see. -/
def MaySkip (s : State) (d : Nat) (skip : List Ver) : Prop :=
  (s.draw = 0 → skip = []) ∧ ∀ y ∈ skip, y ∈ s.hist ∧ mustSee (viewOf s d) d y = false

theorem maySkip_nil (s : State) (d : Nat) : MaySkip s d [] := ⟨fun _ => rfl, fun _ h => by cases h⟩

theorem maySkip_skipped (s : State) (d k n i : Nat) : MaySkip s d (skipped s d k n i) := by
  unfold skipped
  split
  · exact maySkip_nil s d
  · rename_i h
    refine ⟨fun h0 => absurd h0 h, fun y hy => ?_⟩
    have hy := List.mem_of_mem_take hy
    unfold unseen at hy
    have hm := List.mem_takeWhile_imp hy
    exact ⟨List.mem_of_mem_filter (List.takeWhile_subset _ hy), by simpa using hm⟩

theorem heardOnly_maySkip {e : Env} {s u : State} (h : HeardOnly e s u) {d : Nat} {skip : List Ver} (hk : MaySkip u d skip) : MaySkip s d skip := by
  obtain ⟨hu, -, -, hv⟩ := h
  obtain ⟨h0, h1⟩ := hk
  have hd : u.draw = s.draw := by rw [hu]
  have hh : u.hist = s.hist := by rw [hu]
  refine ⟨fun h => h0 (hd.trans h), fun y hy => ⟨hh ▸ (h1 y hy).1, ?_⟩⟩
  by_contra hc
  exact absurd (mustSee_of_covers (hv d) (by simpa using hc)) (by simp [(h1 y hy).2])

end Sys2Proof.Machine
end

section
/-! PROOFS. Reads noted, and results on their way after them. -/

namespace Sys2Proof.Machine

/-! ## What a read leaves -/

theorem tagged_countEvent (s : State) (c x v n : Nat) : Tagged s (countEvent s c x v n) :=
  ⟨by rw [countEvent_only], fun d => core_countEvent s c x v n d⟩

theorem Tagged.trans {s t u : State} (h : Tagged s t) (h' : Tagged t u) : Tagged s u := by
  obtain ⟨ht, hc⟩ := h
  obtain ⟨hu, hd⟩ := h'
  exact ⟨by rw [hu, ht], fun c => by rw [← hc c, ← hd c]⟩

theorem tagged_withTags (u t : State) : Tagged u (withTags u t) := ⟨rfl, fun _ => rfl⟩

theorem tagged_noteAccess (b : State) (e : Env) (k : Using) (pol : Nat) (vas : List DWord) (n : Nat) (u : State) : Tagged u (noteAccess b e k pol vas n u) := by
  unfold noteAccess
  split
  · exact ⟨rfl, fun _ => rfl⟩
  · exact ((tagged_withTags ..).trans (tagged_countEvent ..)).trans (tagged_countEvent ..)

/-- Counting before, hearing, and the tags after: a read has been noted. -/
theorem readNoted_of {e : Env} {s b u v : State} (hh : Here e s) (hb : Tagged s b) (hu : HeardOnly e b u) (hv : Tagged u v) : ReadNoted e s v := by
  have hbg : b.groups = s.groups := by rw [hb.1]
  obtain ⟨hueq, hg, ⟨hs, he⟩, -⟩ := hu
  have hvg (g : Nat) : group? v g = group? u g := by rw [group?, hv.1]; rfl
  have hbu : ∀ c, core u c = core b c := fun c => by rw [hueq]; rfl
  refine ⟨⟨by rw [hv.1, hueq, hb.1], fun c => ?_⟩, fun g hn => by rw [hvg, hg g hn, group?, hbg]; rfl, _, (hvg _).trans he, rfl, by simp, ?_, ?_⟩
  · show { core v c with perf := (core s c).perf } = core s c
    rw [← hb.2 c, ← hbu c, ← hv.2 c]
  · exact fun w hw => getElem?_modAt_ne _ _ hw
  · rw [warpOf_of (wp := { e.wp with heard := hs }) (by simp [warp?, hvg, he, hh.2])]

/-! ## Results on their way after more than the warp has changed -/

theorem laterValue_congr {e : Env} (s : State) (d n : Nat) {f g : Nat → Nat} (h : ∀ l, bit e.live l = true → f l = g l) :
    laterValue e s d n f = laterValue e s d n g := by
  have : (lanesOf e.live).flatMap (fun l => (splitWords n (f l)).mapIdx fun k v => Outst.value l (d + k) v) =
      (lanesOf e.live).flatMap fun l => (splitWords n (g l)).mapIdx fun k v => Outst.value l (d + k) v :=
    List.flatMap_congr fun l hl => by rw [h l ((mem_lanesOf ..).mp hl)]
  simp only [laterValue, laterLanes, this]

/-- A read that has told its warp and the caches what it met, whatever it has noted of its links, and has sent its registers off. -/
theorem completesLaterOn_of {i : Instr} {s v : State} {e : Env} {aw : List Away} (h : Issues i s e) (hv : ReadNoted e s { v with away := aw }) (d : Reg) (n : Nat) {f g : Nat → Nat}
    (hfg : ∀ l, bit e.live l = true → f l = g l) (hx : exec i s = finish e i (.done (laterValue e v d.toNat n f)) s)
    (ha : ∀ gr wp, { wp with heard := e.wp.heard } = e.wp → affineWord s { e with gr := gr, wp := wp } i = affineWord s e i) :
    CompletesLaterOn i s e v d n g := by
  obtain ⟨-, -, gr, hg, hgr, hlen, -, hwp⟩ := hv
  replace hg : group? v e.g = some gr := hg
  replace hwp : { warpOf e v with heard := e.wp.heard } = e.wp := hwp
  have hw : gr.warps[e.w]? = some (warpOf e v) := by
    have hlt : e.w < gr.warps.length := by
      rw [hlen]; exact (List.getElem?_eq_some_iff.mp (issues_here h).2).1
    simp [warpOf, warp?, hg, List.getElem?_eq_getElem hlt]
  have hb : bankReads { e with gr := gr, wp := warpOf e v } i = bankReads e i := by
    have h1 : (warpOf e v).affine = e.wp.affine := by have := congrArg Warp.affine hwp; exact this
    have h2 : (warpOf e v).recent = e.wp.recent := by have := congrArg Warp.recent hwp; exact this
    simp only [bankReads, h1, h2]
  refine ⟨_, by rw [hx, finish_done h, laterValue_congr v d.toNat n hfg], ?_⟩
  rw [on_of_reads hg hw, ← retire_congr s _ i e (congrArg Group.core hgr) (congrArg Group.ctx hgr) (congrArg Group.logits hgr) (ha gr _ hwp) hb]
  exact sentOff_laterValue (e := { e with gr := gr, wp := warpOf e v }) s i d n g (wrote_refl ⟨hg, hw⟩)

end Sys2Proof.Machine
end

section
/-! PROOFS. Loads of memory and of the scratchpad. -/

namespace Sys2Proof.Machine

/-! ## Values of a load -/

/-- A loaded value, extended from 8 and 16 bits (R201). -/
theorem loadValue_eq (sx : Bool) (n : Nat) (b : List Byte) : loadValue sx n b =
    if sx = true ∧ n = 1 then ((BitVec.ofNat 8 (leNat b)).signExtend 32).toNat
    else if sx = true ∧ n = 2 then ((BitVec.ofNat 16 (leNat b)).signExtend 32).toNat else leNat b := by
  simp [loadValue]

theorem leNat_zeros (n : Nat) : leNat (zeros n) = 0 := by
  induction n with
  | zero => rfl
  | succ n ih => rw [zeros, List.replicate_succ, leNat, ← zeros, ih]; rfl

theorem loadValue_zeros (sx : Bool) (n : Nat) : loadValue sx n (zeros n) = 0 := by
  simp [loadValue_eq, leNat_zeros]

/-! ## LD -/

/-- What a load of the leaf x gives where it leaves some writes unread (R201, R230, R397). -/
def leafValue (s : State) (e : Env) (sx : Bool) (n : Nat) (x : Leaf) (skip : List Ver) : Nat :=
  if 3 ≤ x.space ∧ x.space ≤ 10 ∧ boundTo s (x.space - 3) e.gr.ctx = none then 0
  else loadValue sx n (readBytes s e.die x.space (seenAt s e x) n skip)

/-- No uncorrectable error stands in what an access to a leaf reads. -/
def ReadsClean (s : State) (e : Env) (n : Nat) (x : Leaf) : Prop :=
  eccHit s e.die x.space (seenAt s e x) n = false ∧ l1Error s e x (memKey x.space (seenAt s e x)) n = false

/-- The writes that lane l of a load leaves unread. -/
def laneSkip (u : State) (e : Env) (m : MemMod) (x : Leaf) (l : Nat) : List Ver :=
  if seqHome m.ord m.scope then [] else skipped u e.die (memKey x.space (seenAt u e x)) (MSize.bytes m.size) l

/-- A lane of a load, by what its leaf and its bytes are. -/
theorem loadLane_eq {s u : State} {e : Env} {m : MemMod} {d a : Reg} {off : BitVec 8} {l : Nat} {x : Leaf}
    (hx : memLeaf s e (memVa e s a off (MSize.bytes m.size) l) (MSize.bytes m.size) 0 1 = .ok x) :
    loadLane e s m d a off u l = (readMem u e x (MSize.bytes m.size) (seqHome m.ord m.scope) l).map fun b =>
      (mayBindLate (afterRead u e (MOrd.isAcq m.ord) m.scope x.space (seenAt u e x) (MSize.bytes m.size) (laneSkip u e m x l) l) e m d x.space
        (seenAt u e x) l, loadValue m.sx (MSize.bytes m.size) b) := by
  unfold loadLane
  simp only [hx]
  show (readMem u e x (MSize.bytes m.size) (seqHome m.ord m.scope) l).bind _ = _
  cases readMem u e x (MSize.bytes m.size) (seqHome m.ord m.scope) l <;> rfl

theorem loadLane_leaf_error {s u : State} {e : Env} {m : MemMod} {d a : Reg} {off : BitVec 8} {l : Nat} {y : LaneFault}
    (hx : memLeaf s e (memVa e s a off (MSize.bytes m.size) l) (MSize.bytes m.size) 0 1 = .error y) : loadLane e s m d a off u l = .error y := by
  unfold loadLane
  simp only [hx]
  rfl

/-- A lane may load a value of the leaf x (R230, R231, R235). -/
def LaneLoads (s : State) (e : Env) (m : MemMod) (x : Leaf) (val : Nat) : Prop :=
  ∃ skip, (seqHome m.ord m.scope = true → skip = []) ∧ MaySkip s e.die skip ∧ val = leafValue s e m.sx (MSize.bytes m.size) x skip

theorem loadLane_reads {s u : State} {e : Env} {m : MemMod} {d a : Reg} {off : BitVec 8} {l : Nat} {x : Leaf} (hh : Here e s) (hu : HeardOnly e s u)
    (hx : memLeaf s e (memVa e s a off (MSize.bytes m.size) l) (MSize.bytes m.size) 0 1 = .ok x) (hc : ReadsClean s e (MSize.bytes m.size) x) :
    ∃ v val, loadLane e s m d a off u l = .ok (v, val) ∧ HeardOnly e s v ∧ LaneLoads s e m x val := by
  set n := MSize.bytes m.size
  obtain ⟨hecc, hl1⟩ := hc
  have hseen := heardOnly_seenAt hh hu x
  have hmay : MaySkip s e.die (laneSkip u e m x l) := by
    unfold laneSkip
    split
    · exact maySkip_nil ..
    · exact heardOnly_maySkip hu (maySkip_skipped ..)
  have hread : readMem u e x n (seqHome m.ord m.scope) l = .ok (if 3 ≤ x.space ∧ x.space ≤ 10 ∧ boundTo s (x.space - 3) e.gr.ctx = none then zeros n
      else readBytes s e.die x.space (seenAt s e x) n (laneSkip u e m x l)) := by
    have hseenl : laneSkip u e m x l = if seqHome m.ord m.scope then [] else skipped u e.die (memKey x.space (seenAt s e x)) n l := by
      rw [← hseen]; rfl
    simp only [readMem, heardOnly_eccHit hu, heardOnly_l1Error hu, heardOnly_boundTo hu, heardOnly_readBytes hu, hseenl, hseen, hecc, hl1,
      Bool.and_false, Bool.or_false, Bool.false_eq_true, if_false]
    split <;> rfl
  refine ⟨_, _, by rw [loadLane_eq hx, hread]; rfl, heardOnly_mayBindLate (heardOnly_afterRead hu ..) .., laneSkip u e m x l,
    fun hq => if_pos hq, hmay, ?_⟩
  rw [leafValue]
  split
  · exact loadValue_zeros ..
  · rfl

theorem exec_ld {h : Hdr} {m : MemMod} {d a : Reg} {off : BitVec 8} {s : State} {e : Env} (hi : Issues (.ld h m d a off) s e) :
    exec (.ld h m d a off) s = finish e (.ld h m d a off) (lanesThen e s (loadLane e s m d a off) fun u vals =>
      .done (laterValue e (noteAccess s e .load (polNum m.pol) ((lanesOf e.live).map fun l => memVa e s a off (MSize.bytes m.size) l)
        (MSize.bytes m.size) { u with away := u.away ++ awayLoads e s m d a off }) d.toNat (MSize.regs m.size) (laneNat vals))) s := by
  show execLd h m d a off s = _
  rw [execLd, runWord_issues hi]

/-- A load that goes over a link. -/
def awayLoad (e : Env) (m : MemMod) (d : Reg) (l : Nat) (x : Leaf) (va : DWord) : Away :=
  { group := e.g, warp := e.w, lane := l, reg := d.toNat, n := MSize.regs m.size, space := x.space, addr := va }

theorem mem_awayLoads {s : State} {e : Env} {m : MemMod} {d a : Reg} {off : BitVec 8} {x : Nat → Leaf}
    (hx : ∀ l, bit e.live l = true → memLeaf s e (memVa e s a off (MSize.bytes m.size) l) (MSize.bytes m.size) 0 1 = .ok (x l)) (y : Away) :
    y ∈ awayLoads e s m d a off ↔ ∃ l, bit e.live l = true ∧ (x l).space ≠ 0 ∧ (x l).space ≠ 2 ∧ (x l).space ≤ 10 ∧
      y = awayLoad e m d l (x l) (memVa e s a off (MSize.bytes m.size) l) := by
  simp only [awayLoads, List.mem_filterMap, mem_lanesOf]
  refine exists_congr fun l => and_congr_right fun hl => ?_
  simp only [hx l hl]
  split
  · rw [Option.some_inj]
    exact ⟨fun h => ⟨by omega, by omega, by omega, h.symm⟩, fun h => h.2.2.2.symm⟩
  · exact ⟨fun h => (by cases h), fun h => absurd h (by omega)⟩

theorem ld_completes {h : Hdr} {m : MemMod} {d a : Reg} {off : BitVec 8} {s : State} {e : Env} (hi : Issues (.ld h m d a off) s e) {x : Nat → Leaf}
    (hx : ∀ l, bit e.live l = true → memLeaf s e (memVa e s a off (MSize.bytes m.size) l) (MSize.bytes m.size) 0 1 = .ok (x l) ∧
      ReadsClean s e (MSize.bytes m.size) (x l)) :
    ∃ (v : State) (skip : Nat → List Ver), ReadNoted e s { v with away := s.away } ∧
      CompletesLaterOn (.ld h m d a off) s e v d (MSize.regs m.size) (fun l => leafValue s e m.sx (MSize.bytes m.size) (x l) (skip l)) ∧
      (∀ l, (seqHome m.ord m.scope = true → skip l = []) ∧ MaySkip s e.die (skip l)) ∧
      ∀ y, y ∈ v.away ↔ y ∈ s.away ∨ ∃ l, bit e.live l = true ∧ (x l).space ≠ 0 ∧ (x l).space ≠ 2 ∧ (x l).space ≤ 10 ∧
        y = awayLoad e m d l (x l) (memVa e s a off (MSize.bytes m.size) l) := by
  set n := MSize.bytes m.size with hn
  have hh := issues_here hi
  obtain ⟨u, vals, hlanes, hu, hkeys, hvals⟩ := eachLane_ok (f := loadLane e s m d a off) (P := HeardOnly e s) (Q := fun l => LaneLoads s e m (x l))
    (lanesOf e.live) (fun l hl t ht => loadLane_reads hh ht (hx l ((mem_lanesOf ..).mp hl)).1 (hx l ((mem_lanesOf ..).mp hl)).2) (heardOnly_refl hh)
  have hskips (l : Nat) : ∃ skip, (seqHome m.ord m.scope = true → skip = []) ∧ MaySkip s e.die skip ∧
      (bit e.live l = true → laneNat vals l = leafValue s e m.sx n (x l) skip) := by
    by_cases hl : bit e.live l = true
    · obtain ⟨skip, h1, h2, h3⟩ := laneNat_of (Q := fun l => LaneLoads s e m (x l)) hkeys hvals ((mem_lanesOf ..).mpr hl)
      exact ⟨skip, h1, h2, fun _ => h3⟩
    · exact ⟨[], fun _ => rfl, maySkip_nil .., fun h => absurd h hl⟩
  choose skip hseq hmay hval using hskips
  set v := noteAccess s e .load (polNum m.pol) ((lanesOf e.live).map fun l => memVa e s a off n l) n { u with away := u.away ++ awayLoads e s m d a off } with hv
  have htag : Tagged { u with away := u.away ++ awayLoads e s m d a off } v := tagged_noteAccess ..
  have hnoted : ReadNoted e s { v with away := s.away } := by
    refine readNoted_of hh ⟨rfl, fun _ => rfl⟩ hu ⟨?_, htag.2⟩
    rw [htag.1, hu.1]
  have haway : v.away = s.away ++ awayLoads e s m d a off := by rw [htag.1]; show u.away ++ _ = _; rw [hu.1]
  refine ⟨v, skip, hnoted, completesLaterOn_of hi hnoted d _ hval (by rw [exec_ld hi, lanesThen_ok hlanes]) fun gr wp _ => rfl,
    fun l => ⟨hseq l, hmay l⟩, fun y => ?_⟩
  rw [haway, List.mem_append, mem_awayLoads fun l hl => (hx l hl).1]

theorem memLeaf_fault {s : State} {e : Env} {va : DWord} {n kind need : Nat} {c : Code} {d0 d1 : DWord} (h : AccessFault s e va n kind need c d0 d1) :
    memLeaf s e va n kind need = .error (some (c, d0, d1)) := by
  obtain ⟨hv, rfl, rfl, rfl⟩ | ⟨hv, ha, rfl, rfl, rfl⟩ | ⟨hv, ha, ht⟩ | ⟨hv, ha, x, ht, hx⟩ := h
  · rw [memLeaf, if_pos hv]; rfl
  · rw [memLeaf, if_neg (by omega), if_pos ha]; rfl
  · rw [memLeaf, if_neg (by omega), if_neg (by omega), ht]; rfl
  · rw [memLeaf, if_neg (by omega), if_neg (by omega), ht]
    obtain ⟨hl, rfl, rfl, rfl⟩ | ⟨hl, htlb, rfl, rfl, rfl⟩ := hx
    · simp only [hl, if_true]; rfl
    · simp only [hl, htlb, if_true, Bool.false_eq_true, if_false]; rfl

theorem readMem_error {s : State} {e : Env} {x : Leaf} {n : Nat} {home : Bool} (l : Nat)
    (h : eccHit s e.die x.space (seenAt s e x) n = true ∨ (home = false ∧ l1Error s e x (memKey x.space (seenAt s e x)) n = true)) :
    readMem s e x n home l = .error (some (.eccu, BitVec.ofNat 64 (seenAt s e x), 0)) := by
  have : (eccHit s e.die x.space (seenAt s e x) n || (!home && l1Error s e x (memKey x.space (seenAt s e x)) n)) = true := by
    obtain h | ⟨h, h'⟩ := h <;> simp [*]
  simp only [readMem, this, if_true]
  rfl

/-! ## LDS -/

/-- The offset of a lane's scratchpad access (R201). -/
def spmOff (s : State) (e : Env) (a : Reg) (off : BitVec 8) (n l : Nat) : Int := (e.v s a l).toNat + off.toInt * n

/-- It lies in the scratchpad. -/
def SpmFits (s : State) (e : Env) (a : Reg) (off : BitVec 8) (n l : Nat) : Prop :=
  0 ≤ spmOff s e a off n l ∧ spmOff s e a off n l + n ≤ e.gr.spmSize

theorem spmAddr_outside {s : State} {e : Env} {a : Reg} {off : BitVec 8} {n l : Nat} (h : ¬ SpmFits s e a off n l) :
    spmAddr e s a off n l = .error (some (.prot, BitVec.ofInt 64 (spmOff s e a off n l), 0)) := by
  unfold SpmFits at h
  exact if_pos (by rw [spmOff] at h; omega)

theorem spmAddr_fits {s : State} {e : Env} {a : Reg} {off : BitVec 8} {n l : Nat} (h : SpmFits s e a off n l) : spmAddr e s a off n l =
    if spmOff s e a off n l % n ≠ 0 then .error (some (.align, BitVec.ofInt 64 (spmOff s e a off n l), 0)) else .ok (spmOff s e a off n l).toNat := by
  obtain ⟨h0, h1⟩ := h
  exact if_neg (by rw [spmOff] at h0 h1; omega)

theorem spmRead_aligned {s : State} {e : Env} {a : Reg} {off : BitVec 8} {n l : Nat} (h : SpmFits s e a off n l) (ha : spmOff s e a off n l % n = 0) :
    spmRead e s a off n l = match spmError e.gr (spmOff s e a off n l).toNat n with
      | some x => .error (some (.eccu, BitVec.ofNat 64 x, 0))
      | none => .ok (spmOff s e a off n l).toNat := by
  unfold spmRead
  rw [spmAddr_fits h, if_neg (by simpa using ha)]
  rfl

theorem spmRead_addr_error {s : State} {e : Env} {a : Reg} {off : BitVec 8} {n l : Nat} {y : LaneFault} (h : spmAddr e s a off n l = .error y) :
    spmRead e s a off n l = .error y := by
  unfold spmRead; rw [h]; rfl

theorem exec_lds {h : Hdr} {m : MemMod} {d a : Reg} {off : BitVec 8} {s : State} {e : Env} (hi : Issues (.lds h m d a off) s e) :
    exec (.lds h m d a off) s = finish e (.lds h m d a off) (lanesThen e s (fun u l => pureLane u (spmRead e s a off (MSize.bytes m.size) l)) fun u at_ =>
      .done (laterValue e (at_.foldl (fun x p => readCredit e false x p.1 p.2) (countBanks e u (MSize.bytes m.size) at_)) d.toNat
        (MSize.regs m.size) fun l => loadValue m.sx (MSize.bytes m.size) (spmBytes u e.gr (laneNat at_ l) (MSize.bytes m.size)))) s := by
  show execLds h m d a off s = _
  rw [execLds, runWord_issues hi]

theorem heardOnly_readCredits {e : Env} {s : State} (at_ : List (Nat × Nat)) {u : State} (h : HeardOnly e s u) :
    HeardOnly e s (at_.foldl (fun x p => readCredit e false x p.1 p.2) u) := by
  induction at_ generalizing u with
  | nil => exact h
  | cons p r ih => exact ih (heardOnly_readCredit h ..)

theorem here_of_tagged {e : Env} {s u : State} (h : Here e s) (ht : Tagged s u) : Here e u := here_of_groups h (by rw [ht.1])

theorem lds_completes {h : Hdr} {m : MemMod} {d a : Reg} {off : BitVec 8} {s : State} {e : Env} (hi : Issues (.lds h m d a off) s e)
    (hok : ∀ l, bit e.live l = true → SpmFits s e a off (MSize.bytes m.size) l ∧ spmOff s e a off (MSize.bytes m.size) l % MSize.bytes m.size = 0 ∧
      spmError e.gr (spmOff s e a off (MSize.bytes m.size) l).toNat (MSize.bytes m.size) = none) :
    ∃ v, ReadNoted e s v ∧ CompletesLaterOn (.lds h m d a off) s e v d (MSize.regs m.size) fun l =>
      loadValue m.sx (MSize.bytes m.size) ((List.range (MSize.bytes m.size)).map fun k =>
        spmAt s e.g ((spmOff s e a off (MSize.bytes m.size) l).toNat + k)) := by
  set n := MSize.bytes m.size with hn
  have hh := issues_here hi
  obtain ⟨u, at_, hlanes, rfl, hkeys, hvals⟩ := eachLane_ok (f := fun u l => pureLane u (spmRead e s a off n l)) (P := fun u => u = s)
    (Q := fun l o => o = (spmOff s e a off n l).toNat) (lanesOf e.live) (s := s) (fun l hl u hu => by
      obtain ⟨hf, ha, he⟩ := hok l ((mem_lanesOf ..).mp hl)
      exact ⟨u, _, by rw [spmRead_aligned hf ha, he]; rfl, hu, rfl⟩) rfl
  set v := at_.foldl (fun x p => readCredit e false x p.1 p.2) (countBanks e u n at_)
  have hcount : Tagged u (countBanks e u n at_) := tagged_countEvent ..
  have hnoted : ReadNoted e u v := readNoted_of hh hcount (heardOnly_readCredits at_ (heardOnly_refl (here_of_tagged hh hcount))) ⟨rfl, fun _ => rfl⟩
  refine ⟨v, hnoted, completesLaterOn_of (aw := v.away) hi hnoted d _ (fun l hl => ?_) (by rw [exec_lds hi, lanesThen_ok hlanes]) fun gr wp _ => rfl⟩
  have ho : laneNat at_ l = (spmOff u e a off n l).toNat := laneNat_of (Q := fun l o => o = (spmOff u e a off n l).toNat) hkeys hvals ((mem_lanesOf ..).mpr hl)
  have hspm (k : Nat) : spmAt u e.g k = spmByte u e.gr k := by rw [spmAt, hh.1]
  simp only [ho, spmBytes, hspm]
  rfl

/-! ## The statement -/

theorem ld_leaf_faults {h : Hdr} {m : MemMod} {d a : Reg} {off : BitVec 8} {s : State} {e : Env} (hi : Issues (.ld h m d a off) s e) {l : Nat}
    {c : Code} {d0 d1 : DWord} (hl : leader e.live = some l)
    (hf : AccessFault s e (memVa e s a off (MSize.bytes m.size) l) (MSize.bytes m.size) 0 1 c d0 d1) : FaultsFirst (.ld h m d a off) s e s c d0 d1 :=
  faultsFirst_of_lane (exec_ld hi) hl (loadLane_leaf_error (memLeaf_fault hf))

theorem ld_eccu_faults {h : Hdr} {m : MemMod} {d a : Reg} {off : BitVec 8} {s : State} {e : Env} (hi : Issues (.ld h m d a off) s e) {l : Nat} {x : Leaf}
    (hl : leader e.live = some l) (hx : memLeaf s e (memVa e s a off (MSize.bytes m.size) l) (MSize.bytes m.size) 0 1 = .ok x)
    (hb : eccHit s e.die x.space (seenAt s e x) (MSize.bytes m.size) = true ∨
      (seqHome m.ord m.scope = false ∧ l1Error s e x (memKey x.space (seenAt s e x)) (MSize.bytes m.size) = true)) :
    FaultsFirst (.ld h m d a off) s e s .eccu (BitVec.ofNat 64 (seenAt s e x)) 0 :=
  faultsFirst_of_lane (exec_ld hi) hl (by rw [loadLane_eq hx, readMem_error l hb]; rfl)

theorem lds_faults {h : Hdr} {m : MemMod} {d a : Reg} {off : BitVec 8} {s : State} {e : Env} (hi : Issues (.lds h m d a off) s e) {l : Nat} {c : Code}
    {d0 : DWord} (hl : leader e.live = some l) (hf : spmRead e s a off (MSize.bytes m.size) l = .error (some (c, d0, 0))) :
    FaultsFirst (.lds h m d a off) s e s c d0 0 :=
  faultsFirst_of_lane (exec_lds hi) hl (by rw [hf]; rfl)

theorem spmError_eq {gr : Group} {o n : Nat} (h : (spmError gr o n).isSome = true) : spmError gr o n = some o := by
  unfold spmError at h ⊢
  cases hf : gr.spmBad.find? fun q => overlaps (4 * q) 4 o n with
  | none => rw [hf] at h; cases h
  | some q => rfl

/-- The faults of LDS in the lowest lane: the scratchpad's end, alignment, an error in a check granule (R184, R201, R414). -/
theorem lds_lane_faults {h : Hdr} {m : MemMod} {d a : Reg} {off : BitVec 8} {s : State} {e : Env} (hi : Issues (.lds h m d a off) s e) {l : Nat}
    (hl : leader e.live = some l) :
    let n := MSize.bytes m.size
    let o := spmOff s e a off n l
    (o < 0 ∨ (e.gr.spmSize : Int) < o + n → FaultsFirst (.lds h m d a off) s e s .prot (BitVec.ofInt 64 o) 0) ∧
    (0 ≤ o → o + n ≤ e.gr.spmSize → o % n ≠ 0 → FaultsFirst (.lds h m d a off) s e s .align (BitVec.ofInt 64 o) 0) ∧
    (0 ≤ o → o + n ≤ e.gr.spmSize → o % n = 0 → (spmError e.gr o.toNat n).isSome = true →
      FaultsFirst (.lds h m d a off) s e s .eccu (BitVec.ofInt 64 o) 0) := by
  intro n o
  refine ⟨fun ho => ?_, fun h0 h1 ha => ?_, fun h0 h1 ha he => ?_⟩
  · exact lds_faults hi hl (spmRead_addr_error (spmAddr_outside fun hf =>
      ho.elim (fun h => absurd hf.1 (not_le.mpr h)) fun h => absurd hf.2 (not_le.mpr h)))
  · exact lds_faults hi hl (spmRead_addr_error (by rw [spmAddr_fits ⟨h0, h1⟩, if_pos ha]))
  · have hcast : BitVec.ofNat 64 o.toNat = BitVec.ofInt 64 o := by rw [← BitVec.ofInt_natCast, Int.toNat_of_nonneg h0]
    exact lds_faults hi hl (by rw [spmRead_aligned ⟨h0, h1⟩ ha, spmError_eq he, ← hcast])

/-- Settles O27: lane by lane what a read tells (`HeardOnly`) leaves the later lanes what they find, and the word ends as one that sends
its registers off. -/
theorem loadsComplete : Obligations.LoadsComplete := by
  unfold Obligations.LoadsComplete
  intro s e h m d a off
  refine ⟨fun hi => ⟨fun x hx => ?_, fun l c d0 d1 hl hf => ld_leaf_faults hi hl hf, fun l x hl hx hb => ld_eccu_faults hi hl hx hb⟩,
    fun hi => ⟨fun hok => ?_, fun l hl => lds_lane_faults hi hl⟩⟩
  · obtain ⟨v, skip, hnoted, hc, hskip, haway⟩ := ld_completes hi hx
    refine ⟨v, skip, hnoted, ?_, fun l => ⟨fun hq => ?_, (hskip l).2.2⟩, haway⟩
    · convert hc using 2
      rw [leafValue, loadValue_eq]
    · exact hq.elim (hskip l).2.1 (hskip l).1
  · obtain ⟨v, hnoted, hc⟩ := lds_completes hi fun l hl => ⟨⟨(hok l hl).1, (hok l hl).2.1⟩, (hok l hl).2.2⟩
    refine ⟨v, hnoted, ?_⟩
    convert hc using 2
    exact (loadValue_eq ..).symm

end Sys2Proof.Machine
end

section
/-! PROOFS. Units and their update records. -/

namespace Sys2Proof.Machine

/-! ## What a unit's writes of its backing leave alone -/

/-- Nothing but bytes of the slices has changed. -/
def OnlySlices (s t : State) : Prop := t = { s with l2 := t.l2 }

theorem onlySlices_refl (s : State) : OnlySlices s s := rfl

theorem OnlySlices.trans {s t u : State} (h : OnlySlices s t) (h' : OnlySlices t u) : OnlySlices s u := by
  unfold OnlySlices at *
  rw [h', h]

theorem onlySlices_foldl {α : Type} {f : State → α → State} (hf : ∀ s x, OnlySlices s (f s x)) (xs : List α) (s : State) :
    OnlySlices s (xs.foldl f s) := by
  induction xs generalizing s with
  | nil => exact onlySlices_refl s
  | cons x xs ih => exact (hf s x).trans (ih _)

theorem onlySlices_putHomeBytes (s : State) (a : Nat) (bs : List Byte) : OnlySlices s (putHomeBytes s 0 a bs) := by
  induction bs generalizing s a with
  | nil => exact onlySlices_refl s
  | cons b bs ih => exact OnlySlices.trans (t := putHomeByte s 0 a b) rfl (ih ..)

theorem onlySlices_putNode (s : State) (r : Region) (k j : Nat) : OnlySlices s (putNode s r k j) := onlySlices_putHomeBytes ..

theorem onlySlices_putLevels (s : State) (r : Region) (ks : List Nat) : OnlySlices s (putLevels s r ks) :=
  onlySlices_foldl (fun t k => onlySlices_foldl (fun u j => onlySlices_putNode u r k j) _ t) ks s

theorem OnlySlices.regions {s t : State} (h : OnlySlices s t) : t.regions = s.regions := by rw [h]

theorem OnlySlices.pend {s t : State} (h : OnlySlices s t) : t.pend = s.pend := by rw [h]

/-! ## Regions by number -/

theorem region?_of_regions {s t : State} (h : t.regions = s.regions) (c n : Nat) : region? t c n = region? s c n := by rw [region?, h]; rfl

theorem region?_key {s : State} {c n : Nat} {r : Region} (h : region? s c n = some r) : r.ctx = c ∧ r.num = n := by
  simpa using List.find?_some h

theorem region?_modRegion {s : State} {c n : Nat} {r x : Region} (h : region? s c n = some r) (hc : x.ctx = c) (hn : x.num = n) :
    region? (modRegion s c n fun _ => x) c n = some x := by
  have hkey : ∀ y : Region, ((if y.ctx = c ∧ y.num = n then x else y).ctx == c && (if y.ctx = c ∧ y.num = n then x else y).num == n) =
      (y.ctx == c && y.num == n) := by
    intro y
    split
    · simp [*]
    · rfl
  show (s.regions.map _).find? _ = _
  rw [List.find?_map]
  have : ((fun y : Region => y.ctx == c && y.num == n) ∘ fun y => if y.ctx = c ∧ y.num = n then x else y) = fun y => y.ctx == c && y.num == n := funext hkey
  rw [this, show s.regions.find? _ = some r from h]
  simp [region?_key h]

theorem region?_dropped (rs : List Region) (c n : Nat) : (rs.filter fun x => !(x.ctx == c && x.num == n)).find? (fun r => r.ctx == c && r.num == n) = none := by
  rw [List.find?_eq_none]
  intro x hx
  have h := (List.mem_filter.mp hx).2
  rw [Bool.not_eq_true'] at h
  rw [h]
  exact Bool.false_ne_true

@[simp] theorem region?_modWarp (s : State) (g w : Nat) (f : Warp → Warp) (c n : Nat) : region? (modWarp s g w f) c n = region? s c n :=
  region?_of_regions (by rw [modWarp_only]) c n

@[simp] theorem region?_retryAccept (s : State) (c n : Nat) : region? (retryAccept s) c n = region? s c n := rfl

/-! ## An update record -/

theorem recomputeUp_only (r : Region) (e f k : Nat) : ∃ ls, recomputeUp r e f k = { r with levels := ls } := by
  induction f generalizing r k with
  | zero => exact ⟨r.levels, rfl⟩
  | succ f ih =>
    rw [recomputeUp]
    split
    · exact ⟨r.levels, rfl⟩
    · exact ih ..

/-- A record changes leaves, levels and the count of records alone (R252). -/
theorem applyRec_only (r : Region) (q : URec) : ∃ ls vs n, applyRec r q = { r with leaves := ls, levels := vs, applied := n } := by
  unfold applyRec
  simp only
  split
  · exact ⟨_, _, _, rfl⟩
  · split
    · exact ⟨_, r.levels, _, rfl⟩
    · obtain ⟨vs, h⟩ := recomputeUp_only { r with
        leaves := setAt r.leaves q.elem { v := q.new, i := q.elem }, applied := r.applied + 1
        levels := modAt r.levels 0 fun l => setAt l (q.elem / 4) (comb r (q.four.mapIdx fun i v => { v := v, i := 4 * (q.elem / 4) + i })) } q.elem 14 2
      exact ⟨_, vs, _, h⟩

/-- The region after record j of it. -/
def afterRec (r : Region) (q : URec) (j : Nat) : Region := { applyRec r q with recs := r.recs.eraseIdx j }

theorem afterRec_key (r : Region) (q : URec) (j : Nat) : (afterRec r q j).ctx = r.ctx ∧ (afterRec r q j).num = r.num := by
  obtain ⟨ls, vs, n, h⟩ := applyRec_only r q
  unfold afterRec
  rw [h]
  exact ⟨rfl, rfl⟩

theorem recReady_src {s : State} {r : Region} {q : URec} (h : recReady s r q = true) : ∀ src, q.src = some src → queryDue s src.1 src.2 r = false := by
  intro src hs
  simpa [recReady, hs] using h

theorem recReady_of_src {s : State} {r : Region} {q : URec} (h : ∀ src, q.src = some src → queryDue s src.1 src.2 r = false) : recReady s r q = true := by
  unfold recReady
  split
  · rename_i g w hs
    simp [h _ hs]
  · rfl

/-- The record that is next may be applied, and no earlier one is of its slice (R252, R254). -/
theorem nextRec_spec {s : State} {r : Region} {j : Nat} {q : URec} (hj : nextRec s r = some j) (hq : r.recs[j]? = some q) :
    recReady s r q = true ∧ ∀ m p, m < j → r.recs[m]? = some p → homeSliceOf s r.ctx (leafPa r p.elem / 256) ≠ homeSliceOf s r.ctx (leafPa r q.elem / 256) := by
  unfold nextRec at hj
  split at hj
  · split at hj
    · rename_i q0 rest hrecs
      split at hj
      · rename_i hr
        cases hj
        rw [hrecs] at hq
        cases hq
        exact ⟨hr, fun m p hm => by omega⟩
      · cases hj
    · cases hj
  · have hm := List.mem_of_getElem? hj
    simp only [frontRecs, List.mem_filter, hq, Bool.and_eq_true, Bool.not_eq_true'] at hm
    obtain ⟨-, hr, hfirst⟩ := hm
    refine ⟨hr, fun m p hlt hp heq => ?_⟩
    have hmem : p ∈ r.recs.take j := List.mem_iff_getElem?.mpr ⟨m, by rw [List.getElem?_take_of_lt hlt, hp]⟩
    have := List.any_eq_false.mp hfirst p hmem
    simp [heq] at this

theorem applyAt_spec {s : State} {r : Region} {j : Nat} {q : URec} (hq : r.recs[j]? = some q) (hr : region? s r.ctx r.num = some r) :
    region? (applyAt s r j) r.ctx r.num = some (afterRec r q j) ∧ (applyAt s r j).pend = s.pend := by
  have hx : ∃ s0, (s0 = s ∨ ∃ p, s0 = mend s p) ∧ applyAt s r j =
      retryAccept ((backingLevels r).foldl (fun t k => putNode t (afterRec r q j) k (q.elem / 4 ^ k)) (modRegion s0 r.ctx r.num fun _ => afterRec r q j)) := by
    refine ⟨_, ?_, by rw [applyAt, hq]; rfl⟩
    split
    · exact .inl rfl
    · exact .inr ⟨_, rfl⟩
  obtain ⟨s0, hs0, heq⟩ := hx
  have hslices := onlySlices_foldl (fun t k => onlySlices_putNode t (afterRec r q j) k (q.elem / 4 ^ k)) (backingLevels r)
    (modRegion s0 r.ctx r.num fun _ => afterRec r q j)
  obtain ⟨hc, hn⟩ := afterRec_key r q j
  have hr0 : region? s0 r.ctx r.num = some r := by obtain rfl | ⟨p, rfl⟩ := hs0 <;> exact hr
  have hp0 : s0.pend = s.pend := by obtain rfl | ⟨p, rfl⟩ := hs0 <;> rfl
  rw [heq]
  refine ⟨?_, hslices.pend.trans hp0⟩
  rw [region?_retryAccept, region?_of_regions hslices.regions]
  exact region?_modRegion hr0 hc hn

theorem updateRecordApply_applies {s : State} {k : Nat} {r : Region} {j : Nat} {q : URec} (hk : s.regions[k]? = some r) (hb : r.bound = true)
    (hbuild : r.building = true → r.leaves ≠ []) (hr : region? s r.ctx r.num = some r) (hj : nextRec s r = some j) (hq : r.recs[j]? = some q) :
    ∃ t, exec (.updateRecordApply k) s = .next t ∧ region? t r.ctx r.num = some (afterRec r q j) ∧ t.pend = s.pend := by
  have hready : recordReady s r = true := by
    cases hbb : r.building
    · simp [recordReady, hb, hj, hbb]
    · simp [recordReady, hb, hj, hbuild hbb]
  refine ⟨applyAt s r j, ?_, applyAt_spec hq hr⟩
  show execUpdateRecordApply k s = _
  simp only [execUpdateRecordApply, hk, hready, hj, if_true]

theorem nextRec_first {s : State} {r : Region} {q : URec} {rest : List URec} (hd : s.draw = 0) (hrecs : r.recs = q :: rest)
    (hq : ∀ src, q.src = some src → queryDue s src.1 src.2 r = false) : nextRec s r = some 0 := by
  rw [nextRec, if_pos hd, hrecs]
  exact if_pos (recReady_of_src hq)

end Sys2Proof.Machine
end

section
/-! PROOFS. Range loads answered, region operations and fences that end. -/

namespace Sys2Proof.Machine

/-! ## The answer of a range load -/

/-- The error of a result on its way that is a range load of a unit into the registers from reg on. -/
def loadError (s : State) (r : Region) (reg num : Nat) (o : Outst) : Option Nat :=
  match o with
  | .query _ _ y => if sameLoad reg num o then answerError s r y else none
  | _ => none

/-- A result as the answer of the range loads into registers from reg on leaves it. -/
def answered (r : Region) (reg num : Nat) (o : Outst) : List Outst :=
  match o with
  | .query l k y => if k = reg ∧ y.region = num then (answer r y).mapIdx fun j v => .value l (k + j) v else [o]
  | _ => [o]

theorem sameLoad_iff (reg num : Nat) (o : Outst) : sameLoad reg num o = true ↔ ∃ l y, o = .query l reg y ∧ y.region = num := by
  unfold sameLoad
  split
  · rename_i l k y
    simp only [Bool.and_eq_true, beq_iff_eq, Outst.query.injEq]
    constructor
    · rintro ⟨rfl, rfl⟩; exact ⟨l, y, ⟨rfl, rfl, rfl⟩, rfl⟩
    · rintro ⟨l', y', ⟨rfl, rfl, rfl⟩, rfl⟩; exact ⟨rfl, rfl⟩
  · rename_i h
    simp only [Bool.false_eq_true, false_iff]
    rintro ⟨l, y, rfl, -⟩
    exact h l reg y rfl

theorem loadError_eq_some {s : State} {r : Region} {reg num a : Nat} {o : Outst} (h : loadError s r reg num o = some a) :
    ∃ l y, o = .query l reg y ∧ y.region = num ∧ answerError s r y = some a := by
  unfold loadError at h
  split at h
  · split at h
    · rename_i hs
      obtain ⟨l, y, ho, hy⟩ := (sameLoad_iff ..).mp hs
      cases ho
      exact ⟨_, _, rfl, hy, h⟩
    · cases h
  · cases h

theorem loadError_query (s : State) (r : Region) (reg l : Nat) (y : Query) : loadError s r reg y.region (.query l reg y) = answerError s r y := by
  simp [loadError, sameLoad]

theorem answered_same (r : Region) (reg l : Nat) (y : Query) :
    answered r reg y.region (.query l reg y) = (answer r y).mapIdx fun j v => .value l (reg + j) v := by simp [answered]

theorem answered_other {r : Region} {reg num : Nat} {o : Outst} (h : ∀ m y, o = .query m reg y → y.region ≠ num) : answered r reg num o = [o] := by
  unfold answered
  split
  · rename_i l k y
    refine if_neg ?_
    rintro ⟨rfl, hy⟩
    exact h l y rfl hy
  · rfl

/-- No query into the same registers comes out of an answer. -/
theorem query_mem_answered {r : Region} {reg num m : Nat} {y : Query} {o : Outst} (h : .query m reg y ∈ answered r reg num o) : y.region ≠ num := by
  intro hy
  unfold answered at h
  split at h
  · split at h
    · obtain ⟨j, hj, he⟩ := List.mem_iff_getElem.mp h
      simp at he
    · rename_i hn
      cases List.mem_singleton.mp h
      exact hn ⟨rfl, hy⟩
  · rename_i hn
    cases List.mem_singleton.mp h
    exact hn _ _ _ rfl

/-- A warp whose range loads into the registers from reg on have returned nothing. -/
def withoutLoads (reg num : Nat) (x : Warp) : Warp := unpark { x with outs := x.outs.filter fun o => !sameLoad reg num o }

theorem withoutLoads_regs (reg num : Nat) (x : Warp) : (withoutLoads reg num x).regs = x.regs := by
  obtain ⟨p, q, h⟩ := unpark_only { x with outs := x.outs.filter fun o => !sameLoad reg num o }
  rw [withoutLoads, h]

theorem withoutLoads_outs (reg num : Nat) (x : Warp) : (withoutLoads reg num x).outs = x.outs.filter fun o => !sameLoad reg num o := by
  rw [withoutLoads]; exact (unpark_spec _).1

theorem query_mem_withoutLoads {reg num m : Nat} {y : Query} {x : Warp} (h : .query m reg y ∈ (withoutLoads reg num x).outs) : y.region ≠ num := by
  intro hy
  rw [withoutLoads_outs] at h
  have hs := (List.mem_filter.mp h).2
  rw [(sameLoad_iff ..).mpr ⟨m, y, rfl, hy⟩] at hs
  cases hs

theorem sameMemory_trans {s t u : State} (h : SameMemory s t) (h' : SameMemory t u) : SameMemory s u :=
  ⟨fun sp a => (h'.1 sp a).trans (h.1 sp a), fun d sp a => (h'.2 d sp a).trans (h.2 d sp a)⟩

theorem sameMemory_deferTo_eccu (s : State) (g w cls : Nat) (d0 d1 : DWord) : SameMemory s (deferTo s g w cls .eccu d0 d1) := by
  obtain ⟨gs, h⟩ : ∃ gs, deferTo s g w cls .eccu d0 d1 = { countEcc s (eccKind s d0.toNat) with groups := gs } := ⟨_, modWarp_only ..⟩
  rw [h]
  exact ⟨fun _ _ => rfl, fun _ _ _ => rfl⟩

theorem exec_rangeLoadAnswer {s : State} {g w k l reg : Nat} {gr : Group} {wp : Warp} {q : Query} {r : Region} (hg : group? s g = some gr)
    (hw : gr.warps[w]? = some wp) (ho : wp.outs[k]? = some (.query l reg q)) (hd : declared? s gr.ctx q.region = some r)
    (hbuild : r.building = true → q.time < r.began) (hb : r.bound = true) : exec (.rangeLoadAnswer g w k) s = .next
      (match wp.outs.findSome? (loadError s r reg q.region) with
      | some a => deferTo (modGroup (modWarp s g w (withoutLoads reg q.region)) g afterReturns) g w 0 .eccu (BitVec.ofNat 64 a) 0
      | none => modWarp s g w fun x => { x with outs := x.outs.flatMap (answered r reg q.region) }) := by
  have hwarp := warp?_of hg hw
  have hgo : ¬ ((r.building && decide (r.began ≤ q.time)) || !r.bound) = true := by
    cases hbb : r.building
    · simp [hb]
    · have := hbuild hbb; simp [hb]; omega
  show execRangeLoadAnswer g w k s = _
  simp only [execRangeLoadAnswer, hg, hwarp, Option.bind_some, ho, hd, hgo, Option.map_some, Option.getD_some] <;> rfl

theorem rangeLoadAnswer_answers {s : State} {g w k l reg : Nat} {gr : Group} {wp : Warp} {q : Query} {r : Region} (hg : group? s g = some gr)
    (hw : gr.warps[w]? = some wp) (ho : wp.outs[k]? = some (.query l reg q)) (hd : declared? s gr.ctx q.region = some r)
    (hbuild : r.building = true → q.time < r.began) (hb : r.bound = true)
    (hok : ∀ m y, .query m reg y ∈ wp.outs → y.region = q.region → answerError s r y = none) :
    ∃ t x, exec (.rangeLoadAnswer g w k) s = .next t ∧ SameMemory s t ∧ warp? t g w = some x ∧ x.regs = wp.regs ∧ x.pending = wp.pending ∧
      (∀ o ∈ x.outs, ∀ m y, o = .query m reg y → y.region ≠ q.region) ∧ (∀ j v, (answer r q)[j]? = some v → .value l (reg + j) v ∈ x.outs) ∧
      ∀ o ∈ wp.outs, (∀ m y, o = .query m reg y → y.region ≠ q.region) → o ∈ x.outs := by
  have hnone : wp.outs.findSome? (loadError s r reg q.region) = none := by
    rw [List.findSome?_eq_none_iff]
    intro o hmem
    by_contra hc
    obtain ⟨a, ha⟩ := Option.ne_none_iff_exists'.mp hc
    obtain ⟨m, y, rfl, hy, he⟩ := loadError_eq_some ha
    rw [hok m y hmem hy] at he
    cases he
  have hx := exec_rangeLoadAnswer hg hw ho hd hbuild hb
  rw [hnone] at hx
  refine ⟨_, { wp with outs := wp.outs.flatMap (answered r reg q.region) }, hx, ?_, warp?_modWarp_of _ (warp?_of hg hw), rfl, rfl, ?_, ?_, ?_⟩
  · exact sameMemory_of_only (by rw [modWarp_cores]; exact modWarp_only ..)
  · rintro o hmem m y rfl
    obtain ⟨o', -, h'⟩ := List.mem_flatMap.mp hmem
    exact query_mem_answered h'
  · intro j v hv
    refine List.mem_flatMap.mpr ⟨_, List.mem_of_getElem? ho, ?_⟩
    rw [answered_same]
    exact List.mem_iff_getElem?.mpr ⟨j, by simp [hv]⟩
  · intro o hmem hne
    exact List.mem_flatMap.mpr ⟨o, hmem, by rw [answered_other hne]; exact List.mem_singleton.mpr rfl⟩

theorem rangeLoadAnswer_fails {s : State} {g w k l reg : Nat} {gr : Group} {wp : Warp} {q : Query} {r : Region} (hg : group? s g = some gr)
    (hw : gr.warps[w]? = some wp) (ho : wp.outs[k]? = some (.query l reg q)) (hd : declared? s gr.ctx q.region = some r)
    (hbuild : r.building = true → q.time < r.began) (hb : r.bound = true)
    (hbad : ∃ m y a, .query m reg y ∈ wp.outs ∧ y.region = q.region ∧ answerError s r y = some a) :
    ∃ t x, exec (.rangeLoadAnswer g w k) s = .next t ∧ SameMemory s t ∧ warp? t g w = some x ∧ x.regs = wp.regs ∧
      (∀ o ∈ x.outs, ∀ m y, o = .query m reg y → y.region ≠ q.region) ∧ (∀ m v, .value m reg v ∈ x.outs → .value m reg v ∈ wp.outs) ∧
      ∃ d ∈ x.deferred, d.1 = 0 ∧ d.2.code = .eccu := by
  obtain ⟨a, ha⟩ : ∃ a, wp.outs.findSome? (loadError s r reg q.region) = some a := by
    obtain ⟨m, y, a, hmem, hy, he⟩ := hbad
    rw [← Option.isSome_iff_exists, List.findSome?_isSome_iff]
    exact ⟨_, hmem, by rw [← hy, loadError_query, he]; rfl⟩
  have hx := exec_rangeLoadAnswer hg hw ho hd hbuild hb
  rw [ha] at hx
  have hg1 : group? (modWarp s g w (withoutLoads reg q.region)) g = some { gr with warps := modAt gr.warps w (withoutLoads reg q.region) } := by
    rw [group?_modWarp_self, hg]; rfl
  obtain ⟨hs, hw2⟩ := afterReturns_warp (gr := { gr with warps := modAt gr.warps w (withoutLoads reg q.region) }) (w := w)
    (wp := withoutLoads reg q.region wp) (by simp [hw])
  set s2 := modGroup (modWarp s g w (withoutLoads reg q.region)) g afterReturns
  have hg2 : group? s2 g = some (afterReturns { gr with warps := modAt gr.warps w (withoutLoads reg q.region) }) := by
    rw [group?_modGroup_self, hg1]; rfl
  have hmem2 : SameMemory s s2 := by
    obtain ⟨gs, h1⟩ : ∃ gs, modWarp s g w (withoutLoads reg q.region) = { s with groups := gs } := ⟨_, modWarp_only ..⟩
    obtain ⟨gs', h2⟩ : ∃ gs, s2 = { modWarp s g w (withoutLoads reg q.region) with groups := gs } := ⟨_, modGroup_only ..⟩
    exact sameMemory_of_only (by rw [h2, h1])
  have hwarp2 : warp? (countEcc s2 (eccKind s2 (BitVec.ofNat 64 a).toNat)) g w = some { withoutLoads reg q.region wp with holds := hs } := warp?_of hg2 hw2
  refine ⟨_, _, hx, sameMemory_trans hmem2 (sameMemory_deferTo_eccu ..), warp?_modWarp_of _ hwarp2, withoutLoads_regs .., ?_, fun m v hmem => ?_,
    _, List.mem_append_right _ (List.mem_singleton.mpr rfl), rfl, rfl⟩
  · rintro o hmem m y rfl
    exact query_mem_withoutLoads (x := wp) hmem
  · have hmem : Outst.value m reg v ∈ (withoutLoads reg q.region wp).outs := hmem
    rw [withoutLoads_outs] at hmem
    exact List.mem_of_mem_filter hmem

/-! ## The end of a region operation -/

theorem comb_congr {r r' : Region} (ha : r'.agg = r.agg) (ht : r'.ty = r.ty) : comb r' = comb r := by
  have h2 : comb2 r' = comb2 r := by funext a b; simp only [comb2, ha, ht]
  funext cs
  simp only [comb, ha, ht, h2]

theorem levelUp_congr {r r' : Region} (ha : r'.agg = r.agg) (ht : r'.ty = r.ty) (xs : List NodeVal) : levelUp r' xs = levelUp r xs := by
  have hc := comb_congr ha ht
  fun_induction levelUp r' xs with
  | case1 a b c d rest ih => rw [levelUp, ih, hc]
  | case2 => rfl
  | case3 l h1 h2 => rw [levelUp.eq_3 _ _ h1 h2, hc]

/-- The levels of a tree depend on its region's type and aggregate alone. -/
theorem buildLevels_congr {r r' : Region} (ha : r'.agg = r.agg) (ht : r'.ty = r.ty) (f : Nat) (xs : List NodeVal) :
    buildLevels r' f xs = buildLevels r f xs := by
  induction f generalizing xs with
  | zero => rfl
  | succ f ih => simp only [buildLevels, levelUp_congr ha ht, ih]

/-- The region that a declaration or a rebuild ends with. -/
def rebuilt (s : State) (r : Region) (first : Bool) : Region :=
  { r with leaves := readLeaves s r, building := false, applied := if first then 0 else r.applied + 1, levels := buildLevels r 14 (readLeaves s r) }

theorem getElem?_readLeaves {s : State} {r : Region} {j : Nat} (h : j < r.n) : (readLeaves s r)[j]? = some { v := leafVal s r j, i := j } := by
  simp [readLeaves, h]

theorem region?_rebuild {s : State} {r : Region} {c n : Nat} (h : region? s c n = some r) (first : Bool) :
    region? (rebuild s r first) c n = some (rebuilt s r first) := by
  obtain ⟨hc, hn⟩ := region?_key h
  have hlv : buildLevels { r with leaves := readLeaves s r, building := false, applied := if first then 0 else r.applied + 1 } 14 (readLeaves s r) =
      buildLevels r 14 (readLeaves s r) := by apply buildLevels_congr <;> rfl
  have hput : rebuild s r first = putLevels (modRegion s r.ctx r.num fun _ => rebuilt s r first) (rebuilt s r first) (backingLevels (rebuilt s r first)) := by
    simp only [rebuild, hlv]
    rfl
  rw [hput, region?_of_regions (onlySlices_putLevels ..).regions, hc, hn]
  exact region?_modRegion h hc hn

/-- The first leaf that is negative, as the end of a declaration looks for it (R248). -/
theorem find?_readLeaves {s : State} {r : Region} {j : Nat} (hj : j < r.n) (hneg : negLeaf r (leafVal s r j) = true)
    (hfirst : ∀ k, k < j → negLeaf r (leafVal s r k) = false) :
    (readLeaves s r).find? (fun x => negLeaf r x.v) = some { v := leafVal s r j, i := j } := by
  rw [List.find?_eq_some_iff_getElem]
  refine ⟨hneg, j, by simpa [readLeaves] using hj, by simp [readLeaves], fun k hk => ?_⟩
  simp [readLeaves, hfirst k hk]

theorem find?_readLeaves_none {s : State} {r : Region} (h : ∀ j, j < r.n → negLeaf r (leafVal s r j) = false) :
    (readLeaves s r).find? (fun x => negLeaf r x.v) = none := by
  rw [List.find?_eq_none]
  intro x hx
  obtain ⟨j, hj, rfl⟩ := List.mem_map.mp hx
  simp [h j (List.mem_range.mp hj)]

section
variable {s : State} {g w i : Nat} {gr : Group} {wp : Warp} {h : HoldRec}

theorem hold?_of (hg : group? s g = some gr) (hw : gr.warps[w]? = some wp) (hh : wp.holds[i]? = some h) : hold? s g w i = some h := by
  simp [hold?, warp?_of hg hw, hh]

theorem regionOpReady_of {c num op : Nat} {r : Region} (hr : region? s c num = some r) (hop : op ≠ 0 → r.bound = true ∧ r.recs = []) :
    regionOpReady s c num op = (op == 0 || op == 1 || !anyQuery s r) := by
  by_cases h0 : op = 0
  · simp [regionOpReady, hr, h0]
  · obtain ⟨hb, hrec⟩ := hop h0
    simp [regionOpReady, hr, hb, hrec, Bool.or_assoc]

/-- The end of a region operation that may end. -/
theorem exec_regionBuildComplete {num op : Nat} {r : Region} (hg : group? s g = some gr) (hw : gr.warps[w]? = some wp) (hh : wp.holds[i]? = some h)
    (hk : h.kind = .region num op) (hr : region? s gr.ctx num = some r) (hready : regionOpReady s gr.ctx num op = true) :
    exec (.regionBuildComplete g w i) s = .next (
      if op = 2 then
        let s1 := putLevels s r (slotLevels r)
        modWarp { s1 with regions := s1.regions.filter fun x => !(x.ctx == r.ctx && x.num == r.num) } g w (endHold h)
      else match (if op = 0 ∧ r.nonneg then (readLeaves s r).find? (fun x => negLeaf r x.v) else none), heldEnv s g w h with
        | some x, some e =>
          let s1 := dropHold { s with regions := s.regions.filter fun y => !(y.ctx == r.ctx && y.num == r.num) } g w h
          takeFault (retryAccept s1) g w (recordOf s e .orneg e.live (BitVec.ofNat 64 (r.base + x.i * Region.leaf r)) 0)
        | _, _ => modWarp (retryAccept (rebuild s r (op == 0))) g w (endHold h)) := by
  show execRegionBuildComplete g w i s = _
  simp only [execRegionBuildComplete, hg, hold?_of hg hw hh, hk, hready, hr, Bool.not_true, Bool.false_eq_true, if_false] <;> rfl

theorem regionDrop_drops {num : Nat} {r : Region} (hg : group? s g = some gr) (hw : gr.warps[w]? = some wp) (hh : wp.holds[i]? = some h)
    (hk : h.kind = .region num 2) (hr : region? s gr.ctx num = some r) (hop : r.bound = true ∧ r.recs = []) (hq : anyQuery s r = false) :
    ∃ t, exec (.regionBuildComplete g w i) s = .next t ∧ region? t gr.ctx num = none := by
  refine ⟨_, exec_regionBuildComplete hg hw hh hk hr (by rw [regionOpReady_of hr fun _ => hop, hq]; rfl), ?_⟩
  obtain ⟨hc, hn⟩ := region?_key hr
  rw [if_pos rfl, region?_modWarp, hc, hn]
  exact region?_dropped ..

theorem regionDrop_waits {num : Nat} {r : Region} (hg : group? s g = some gr) (hw : gr.warps[w]? = some wp) (hh : wp.holds[i]? = some h)
    (hk : h.kind = .region num 2) (hr : region? s gr.ctx num = some r) (hop : r.bound = true ∧ r.recs = []) (hq : anyQuery s r = true) :
    exec (.regionBuildComplete g w i) s = .next s := by
  have hready : regionOpReady s gr.ctx num 2 = false := by rw [regionOpReady_of hr fun _ => hop, hq]; rfl
  show execRegionBuildComplete g w i s = _
  simp only [execRegionBuildComplete, hg, hold?_of hg hw hh, hk, hready, Bool.not_false, if_true]

theorem regionBuild_builds {num op : Nat} {r : Region} (hg : group? s g = some gr) (hw : gr.warps[w]? = some wp) (hh : wp.holds[i]? = some h)
    (hk : h.kind = .region num op) (hr : region? s gr.ctx num = some r) (hop : op ≠ 0 → r.bound = true ∧ r.recs = []) (h2 : op < 2)
    (hpos : op = 1 ∨ r.nonneg = false ∨ ∀ j, j < r.n → negLeaf r (leafVal s r j) = false) :
    ∃ t x, exec (.regionBuildComplete g w i) s = .next t ∧ region? t gr.ctx num = some x ∧ x.building = false ∧ x.recs = r.recs ∧
      (∀ j, j < r.n → x.leaves[j]? = some { v := leafVal s r j, i := j }) ∧ x.levels = buildLevels x 14 x.leaves ∧
      x.applied = if op = 0 then 0 else r.applied + 1 := by
  have hnone : (if op = 0 ∧ r.nonneg then (readLeaves s r).find? (fun x => negLeaf r x.v) else none) = none := by
    split
    · rename_i hc
      obtain ⟨rfl, hc⟩ := hc
      obtain h1 | h1 | h1 := hpos
      · omega
      · rw [h1] at hc; cases hc
      · exact find?_readLeaves_none h1
    · rfl
  have hready : regionOpReady s gr.ctx num op = true := by
    rw [regionOpReady_of hr hop]
    obtain rfl | rfl : op = 0 ∨ op = 1 := by omega
    · rfl
    · rfl
  have hx := exec_regionBuildComplete hg hw hh hk hr hready
  rw [if_neg (by omega), hnone] at hx
  refine ⟨_, rebuilt s r (op == 0), hx, ?_, rfl, rfl, fun j hj => getElem?_readLeaves hj, by symm; apply buildLevels_congr <;> rfl, ?_⟩
  · rw [region?_modWarp, region?_retryAccept]
    exact region?_rebuild hr _
  · simp [rebuilt]

theorem regionBuild_negative {num j : Nat} {r : Region} {e : Env} (hg : group? s g = some gr) (hw : gr.warps[w]? = some wp) (hh : wp.holds[i]? = some h)
    (hk : h.kind = .region num 0) (hr : region? s gr.ctx num = some r) (hnn : r.nonneg = true) (he : heldEnv s g w h = some e) (hj : j < r.n)
    (hneg : negLeaf r (leafVal s r j) = true) (hfirst : ∀ k, k < j → negLeaf r (leafVal s r k) = false) :
    ∃ u, exec (.regionBuildComplete g w i) s = .next (takeFault u g w (recordOf s e .orneg e.live (BitVec.ofNat 64 (r.base + j * Region.leaf r)) 0)) ∧
      region? u gr.ctx num = none := by
  have hx := exec_regionBuildComplete hg hw hh hk hr (by rw [regionOpReady_of hr fun h0 => absurd rfl h0]; rfl)
  obtain ⟨hc, hn⟩ := region?_key hr
  rw [if_neg (by decide), if_pos ⟨rfl, hnn⟩, find?_readLeaves hj hneg hfirst, he] at hx
  refine ⟨_, hx, ?_⟩
  rw [region?_retryAccept, dropHold, region?_modWarp, hc, hn]
  exact region?_dropped ..

/-! ## Waits that end -/

theorem tfenceRelease_goesOn {r : Option Nat} (hg : group? s g = some gr) (hw : gr.warps[w]? = some wp) (hh : wp.holds[i]? = some h)
    (hk : h.kind = .tfence r) (hdue : ∀ x ∈ s.regions, (∀ n, r = some n → x.ctx = gr.ctx ∧ x.num = n) → recordsDue s g w x = false) :
    exec (.tfenceRelease g w i) s = .next (modWarp s g w (endHold h)) := by
  have hready : tfenceReady s g w gr.ctx r = true := by
    rw [tfenceReady, Bool.not_eq_true', List.any_eq_false]
    intro x hx hc
    obtain ⟨hmatch, hd⟩ := (Bool.and_eq_true ..).mp hc
    rw [hdue x hx fun n hn => by subst hn; simpa using hmatch] at hd
    cases hd
  show execTfenceRelease g w i s = _
  simp only [execTfenceRelease, hg, hold?_of hg hw hh, hk, hready, if_true]

theorem wsyncRelease_goesOn {m : Mask} (hg : group? s g = some gr) (hw : gr.warps[w]? = some wp) (hh : wp.holds[i]? = some h)
    (hk : h.kind = .wsync m) (hdone : l1Pending s g w m = false) : exec (.fenceRelease g w i) s = .next (modWarp s g w (endHold h)) := by
  show execFenceRelease g w i s = _
  simp only [execFenceRelease, hg, hold?_of hg hw hh, hk, hdone, Bool.false_eq_true, if_false]

theorem exec_fenceRelease {ord : FenceOrd} {sc : Scope} (hg : group? s g = some gr) (hw : gr.warps[w]? = some wp) (hh : wp.holds[i]? = some h)
    (hk : h.kind = .fence ord sc) (hready : fenceReady s (dieOf gr.core) g w ord sc = true) : exec (.fenceRelease g w i) s = .next
      (match h.instr with
      | some (.fence ..) => modWarp (fenceEdges s (dieOf gr.core) g w h.live ord sc) g w (endHold h)
      | _ => dropHold s g w h) := by
  show execFenceRelease g w i s = _
  simp only [execFenceRelease, hg, hold?_of hg hw hh, hk, hready, if_true] <;> rfl

theorem fenceRelease_goesOn {ord : FenceOrd} {sc : Scope} (hg : group? s g = some gr) (hw : gr.warps[w]? = some wp) (hh : wp.holds[i]? = some h)
    (hk : h.kind = .fence ord sc) (hready : fenceReady s (dieOf gr.core) g w ord sc = true) :
    (∀ hd o c, h.instr = some (.fence hd o c) →
      exec (.fenceRelease g w i) s = .next (modWarp (fenceEdges s (dieOf gr.core) g w h.live ord sc) g w (endHold h))) ∧
    ((∀ hd o c, h.instr ≠ some (.fence hd o c)) → exec (.fenceRelease g w i) s = .next (dropHold s g w h)) := by
  refine ⟨fun hd o c hi => ?_, fun hi => ?_⟩
  · rw [exec_fenceRelease hg hw hh hk hready, hi]
  · rw [exec_fenceRelease hg hw hh hk hready]
    split
    · rename_i hd o c hx
      exact absurd hx (hi _ _ _)
    · rfl

end

/-- Settles O52, clause by clause: records, answers, the ends of region operations, the waits. -/
theorem unitsAndFencesProceed : Obligations.UnitsAndFencesProceed := by
  unfold Obligations.UnitsAndFencesProceed
  intro s g w i gr wp h hg hw
  refine ⟨fun k r j q hk hb hbuild hr hj hq => ?_, fun r q rest hd hrecs hq => nextRec_first hd hrecs hq, fun k l reg q r ho hd hbuild hb =>
    ⟨rangeLoadAnswer_answers hg hw ho hd hbuild hb, rangeLoadAnswer_fails hg hw ho hd hbuild hb⟩, fun hh => ⟨fun num op r hk h2 hr hop => ?_,
    fun r hk hdue => tfenceRelease_goesOn hg hw hh hk hdue, fun m hk hdone => wsyncRelease_goesOn hg hw hh hk hdone,
    fun ord sc hk hready => fenceRelease_goesOn hg hw hh hk hready⟩⟩
  · obtain ⟨hready, hfirst⟩ := nextRec_spec hj hq
    exact ⟨recReady_src hready, hfirst, updateRecordApply_applies hk hb hbuild hr hj hq⟩
  · refine ⟨fun h2 hq => ?_, fun h2 hq => ?_, fun hlt hpos => regionBuild_builds hg hw hh hk hr hop hlt hpos,
      fun e j h0 hnn he hj hneg hfirst => ?_⟩
    · subst h2
      exact regionDrop_drops hg hw hh hk hr (hop (by decide)) hq
    · subst h2
      exact regionDrop_waits hg hw hh hk hr (hop (by decide)) hq
    · subst h0
      exact regionBuild_negative hg hw hh hk hr hnn he hj hneg hfirst

end Sys2Proof.Machine
end

section
/-! PROOFS. The division, the compares, selects, moves and wide words, and the bit words of the integer class. -/

namespace Sys2Proof.Machine

/-! ## Division (R57) -/

theorem DivOp.toNat_eval (op : DivOp) (a b : Word) :
    (DivOp.eval op a b).toNat = if b = 0 then (match op with | .quoS | .quoZ => 0xFFFFFFFF | .remS | .remZ => a.toNat)
      else match op with
        | .quoS => Int.toNat (a.toInt.tdiv b.toInt % 2 ^ 32)
        | .remS => Int.toNat ((a.toInt - a.toInt.tdiv b.toInt * b.toInt) % 2 ^ 32)
        | .quoZ => a.toNat / b.toNat
        | .remZ => a.toNat - a.toNat / b.toNat * b.toNat := by
  have hquo : a.toNat / b.toNat < 2 ^ 32 := (Nat.div_le_self ..).trans_lt a.isLt
  have hrem : a.toNat % b.toNat < 2 ^ 32 := (Nat.mod_le ..).trans_lt a.isLt
  by_cases hb : b = 0
  · cases op <;> simp [DivOp.eval, hb]
  · rw [if_neg hb]
    cases op <;> simp only [DivOp.eval, if_neg hb, toNat_wrap, BitVec.toNat_ofNat]
    case quoZ => exact Nat.mod_eq_of_lt hquo
    case remZ => rw [Nat.mod_eq_of_lt hrem, Nat.mod_eq_sub_div_mul]

theorem slowWord_completesLater {i : Instr} {s : State} {e : Env} {d : Reg} {n : Nat} {f : Env → Nat → Nat} {g : Nat → Nat} (h : Issues i s e)
    (hx : exec i s = slowWord i s d n f) (hf : ∀ l, f e l = g l) : CompletesLater i s e d n g := by
  obtain ⟨t, ht, hs⟩ := slowWord_sends h d n f
  rw [funext hf] at hs
  exact ⟨t, hx.trans ht, hs⟩

/-- Settles O13: a division is one result sent off, read over the integers. -/
theorem divideSendsQuotientOrRemainder : Obligations.DivideSendsQuotientOrRemainder := by
  unfold Obligations.DivideSendsQuotientOrRemainder
  exact fun s e h op d a b hi => slowWord_completesLater hi rfl fun l => DivOp.toNat_eval ..

/-! ## Relations (R59) -/

theorem oneIf_decides (b : Bool) : (oneIf b = 1 ∨ oneIf b = 0) ∧ (oneIf b = 1 ↔ b = true) := by cases b <;> simp [oneIf]

theorem Rel.holds_iff (r : Rel) (x y : Int) : Rel.holds r x y = true ↔
    match r with | .eq => x = y | .ne => x ≠ y | .lt => x < y | .le => x ≤ y | .gt => y < x | .ge => y ≤ x := by
  cases r <;> exact decide_eq_true_iff

/-- A compare writes 1 where its relation holds, between the unsigned or the signed readings, and 0 elsewhere. -/
theorem oneIf_relBits {n : Nat} (r : Rel) (uns : Bool) (a b : BitVec n) :
    let holds (x y : Int) : Prop := match r with | .eq => x = y | .ne => x ≠ y | .lt => x < y | .le => x ≤ y | .gt => y < x | .ge => y ≤ x
    (oneIf (relBits r uns a b) = 1 ∨ oneIf (relBits r uns a b) = 0) ∧
      (oneIf (relBits r uns a b) = 1 ↔ if uns then holds a.toNat b.toNat else holds a.toInt b.toInt) := by
  obtain ⟨hflag, hone⟩ := oneIf_decides (relBits r uns a b)
  refine ⟨hflag, hone.trans ?_⟩
  cases uns <;> exact Rel.holds_iff ..

/-! ## Registers read as one number -/

theorem wideRead_one (s : State) (gr : Group) (wp : Warp) (r l : Nat) : wideRead s gr wp r l 1 = (regRead s gr wp r l).toNat := rfl

theorem wideRead_two (s : State) (gr : Group) (wp : Warp) (r l : Nat) : BitVec.ofNat 64 (wideRead s gr wp r l 2) = pairRead s gr wp r l := rfl

/-- Each register of a run is one word of the number that the run reads as. -/
theorem wideRead_word (s : State) (gr : Group) (wp : Warp) (l : Nat) {n k : Nat} (hk : k < n) (r : Nat) :
    BitVec.ofNat 32 (wideRead s gr wp r l n / 2 ^ (32 * k)) = regRead s gr wp (r + k) l := by
  induction n generalizing r k with
  | zero => omega
  | succ n ih =>
    have hlow := (regRead s gr wp r l).isLt
    rw [wideRead]
    cases k with
    | zero =>
      apply BitVec.eq_of_toNat_eq
      simp only [BitVec.toNat_ofNat, Nat.mul_zero, pow_zero, Nat.div_one, Nat.add_zero]
      omega
    | succ k =>
      have hhigh : ((regRead s gr wp r l).toNat + 2 ^ 32 * wideRead s gr wp (r + 1) l n) / 2 ^ 32 = wideRead s gr wp (r + 1) l n := by omega
      rw [next_word, hhigh, ih (by omega), show r + 1 + k = r + (k + 1) by omega]

/-- A result that is a run of registers copies the run. -/
theorem resultIn_wideRead {e : Env} {s : State} (h : Here e s) (d : Reg) (n : Nat) (src : Nat → Nat) :
    resultIn e d n (fun l => wideRead s e.gr e.wp (src l) l n) = fun r l =>
      if bit e.live l = true ∧ d.toNat ≤ r ∧ r < d.toNat + n then some (regAt s e.g e.w (src l + (r - d.toNat)) l) else none := by
  funext r l
  unfold resultIn
  split
  · rename_i hr
    rw [wideRead_word s e.gr e.wp l (by omega), regAt_here h]
  · rfl

/-! ## Fields of a packed word -/

/-- The field M is the low 12 bits of a word. -/
theorem pack_low (f : Full) : (pack f).toNat % 2 ^ 12 = f.m.toNat := by
  obtain ⟨-, -, -, -, -, -, -, -, -, -, -, hm⟩ := packNat_parts f
  rw [← hm, ← wbits_pack, wbits, pow_zero, Nat.div_one]

theorem sel_mod (h : Hdr) (w : Bool) (d a b c : Reg) : (encode (.sel h w d a b c)).toNat % 2 ^ 12 = if w then 1 else 0 := by
  rw [show encode (.sel h w d a b c) = pack (fullOf h 0x09 d a b c (Sys2Proof.bit w 0)) from rfl, pack_low]
  cases w <;> rfl

/-! ## Sums, dot products and conversions over the exact integers -/

theorem toNat_add_wrap (a : DWord) (k : Int) : (a + wrap 64 k).toNat = (((a.toNat : Int) + k) % 2 ^ 64).toNat := by
  rw [← toNat_wrap, wrap, wrap, BitVec.ofInt_add, BitVec.ofInt_natCast, ofNat_toNat]

/-- R65: sums and differences of pairs. -/
theorem AdwOp.toNat_eval (op : AdwOp) (a y : DWord) (w : Word) :
    (AdwOp.eval op a y w).toNat = Int.toNat ((match op with
      | .add => (a.toNat : Int) + y.toNat
      | .sub => (a.toNat : Int) - y.toNat
      | .z32 => (a.toNat : Int) + w.toNat
      | .s32 => (a.toNat : Int) + w.toInt) % 2 ^ 64) := by
  cases op <;> simp only [AdwOp.eval]
  case add => rw [BitVec.toNat_add]; omega
  case sub => rw [BitVec.toNat_sub]; omega
  case z32 => rw [BitVec.toNat_add, BitVec.toNat_setWidth]; omega
  case s32 => exact toNat_add_wrap a w.toInt

theorem foldl_add (l : List Nat) (f : Nat → Int) (z : Int) : l.foldl (fun t k => t + f k) z = z + (l.map f).sum := by
  induction l generalizing z with
  | nil => simp
  | cons k l ih => rw [List.foldl_cons, ih, List.map_cons, List.sum_cons, add_assoc]

/-- R68: element k of a source, of 8 or 16 bits. -/
def dotPart (w : Nat) (sg : Bool) (x : Word) (k : Nat) : Int :=
  let p := x.toNat / 2 ^ (w * k) % 2 ^ w
  if sg = true ∧ 2 ^ (w - 1) ≤ p then p - 2 ^ w else p

theorem toNat_idotBits (half sa sb sat : Bool) (a b c : Word) : (idotBits half sa sb sat a b c).toNat =
    (let w := if half then 16 else 8
     let sum : Int := c.toInt + ((List.range (32 / w)).map fun k => dotPart w sa a k * dotPart w sb b k).sum
     Int.toNat ((if sat then max (-(2 ^ 31)) (min (2 ^ 31 - 1) sum) else sum) % 2 ^ 32)) := by
  simp only [idotBits, toNat_wrap, foldl_add, dotPart, clampS, clampInt, Bool.and_eq_true, decide_eq_true_eq, ge_iff_le]

/-- R69: conversions, saturated to the range of the destination. -/
theorem CvtI.eval_read (op : CvtI) (e : Env) (s : State) (a : Reg) (l : Nat) :
    CvtI.eval op (BitVec.ofNat 64 (wideRead s e.gr e.wp a.toNat l (CvtI.src op))) =
      let x := e.v s a l
      match op with
      | .s32s8 => ((x.setWidth 8).signExtend 32).toNat
      | .z32z8 => x.toNat % 2 ^ 8
      | .s32s16 => ((x.setWidth 16).signExtend 32).toNat
      | .z32z16 => x.toNat % 2 ^ 16
      | .s8s32 => Int.toNat (clampInt (-128) 127 x.toInt % 2 ^ 32)
      | .z8s32 => Int.toNat (clampInt 0 255 x.toInt)
      | .s16s32 => Int.toNat (clampInt (-32768) 32767 x.toInt % 2 ^ 32)
      | .z16s32 => Int.toNat (clampInt 0 65535 x.toInt)
      | .z8z32 => min x.toNat 255
      | .z16z32 => min x.toNat 65535
      | .s64s32 => Int.toNat (x.toInt % 2 ^ 64)
      | .z64z32 => x.toNat
      | .s32s64 => Int.toNat (clampS (e.d s a l).toInt % 2 ^ 32)
      | .z32s64 => Int.toNat (clampZ (e.d s a l).toInt)
      | .z32z64 => min (e.d s a l).toNat (2 ^ 32 - 1)
      | .s32z32 => min x.toNat (2 ^ 31 - 1)
      | .z32s32 => Int.toNat (max x.toInt 0) := by
  have hword : (BitVec.ofNat 64 (wideRead s e.gr e.wp a.toNat l 1)).setWidth 32 = e.v s a l := by
    rw [wideRead_one]
    apply BitVec.eq_of_toNat_eq
    simp [Env.v]
  have hpair : BitVec.ofNat 64 (wideRead s e.gr e.wp a.toNat l 2) = e.d s a l := wideRead_two ..
  cases op <;> simp only [CvtI.src, CvtI.eval, hword, hpair, toNat_wrap, clampZ]
  case z32z8 | z32z16 => rfl
  case z8s32 | z16s32 | z32s64 => unfold clampInt; omega
  case s64s32 => exact toNat_wrap 64 _

/-- Settles O11: compares, sums, dot products and conversions are computed results, selects and moves copied runs of registers. -/
theorem compareSelectAndWideWordsComplete : Obligations.CompareSelectAndWideWordsComplete := by
  unfold Obligations.CompareSelectAndWideWordsComplete
  refine ⟨fun s e h d a => ⟨fun rel uns b hi => ⟨_, fun l => oneIf_relBits .., aluWord_completes hi rfl fun _ => rfl⟩,
      fun rel uns b hi => ⟨_, fun l => oneIf_relBits .., aluWord_completes hi rfl fun _ => rfl⟩,
      fun w b c => sel_mod h w d a b c, fun w b c hi => ?_, fun w hi => ?_⟩,
    fun s e h d a => ⟨fun op b hi => aluWord_completes hi rfl fun l => AdwOp.toNat_eval ..,
      fun half sa sb sat b c hi => aluWord_completes hi rfl fun l => toNat_idotBits ..,
      fun op hi => aluWord_completes hi rfl fun l => CvtI.eval_read ..⟩⟩
  · have := aluWord_completes (g := fun l => wideRead s e.gr e.wp (if (e.v s c l).getLsbD 0 then a else b).toNat l (wide w)) hi rfl fun _ => rfl
    rwa [resultIn_wideRead (issues_here hi)] at this
  · have := aluWord_completes (g := fun l => wideRead s e.gr e.wp a.toNat l (MovW.regs w)) hi rfl fun _ => rfl
    rw [resultIn_wideRead (issues_here hi)] at this
    cases w <;> exact this

/-! ## Table, shifts and fields bit by bit -/

/-- R61: bit k of the result is the table's bit for its three inputs. -/
theorem getLsbD_ltabBits (tt : BitVec 8) (a b c : Word) {k : Nat} (hk : k < 32) : (ltabBits tt a b c).getLsbD k =
    tt.getLsbD ((a.getLsbD k).toNat + 2 * (b.getLsbD k).toNat + 4 * (c.getLsbD k).toNat) := by
  have hone (x : Bool) : oneIf x = x.toNat := by cases x <;> rfl
  rw [ltabBits, ← bit, bit_maskOf, decide_eq_true hk, Bool.true_and, hone, hone, hone]

/-- R62: shifts of one register, and of two as one number. -/
theorem ShfOp.eval_eq (op : ShfOp) (a c : Word) (n : Nat) : ShfOp.eval op a c n = match op with
    | .l => a.toNat * 2 ^ n % 2 ^ 32
    | .r => a.toNat / 2 ^ n
    | .a => Int.toNat (a.toInt / 2 ^ n % 2 ^ 32)
    | .rotl => (a.toNat * 2 ^ n + a.toNat / 2 ^ (32 - n)) % 2 ^ 32
    | .fl => (a.toNat * 2 ^ 32 + c.toNat) * 2 ^ n / 2 ^ 32 % 2 ^ 32
    | .fr => (a.toNat * 2 ^ 32 + c.toNat) / 2 ^ n % 2 ^ 32 := by
  cases op
  case a => exact toNat_wrap ..
  all_goals rfl

/-- R62: shifts of a pair. -/
theorem ShwOp.eval_eq (op : ShwOp) (x : DWord) (n : Nat) : ShwOp.eval op x n = match op with
    | .l => x.toNat * 2 ^ n % 2 ^ 64
    | .r => x.toNat / 2 ^ n
    | .a => Int.toNat (x.toInt / 2 ^ n % 2 ^ 64) := by
  cases op
  case a => exact toNat_wrap ..
  all_goals rfl

/-- R63: a field read out, sign-extended where it is to be and is not empty. -/
theorem toNat_bfxBits (sx : Bool) (a : Word) (pos len : Nat) : (bfxBits sx a pos len).toNat =
    (let wd := fieldWidth pos len
     let f := a.toNat / 2 ^ pos % 2 ^ wd
     if sx = true ∧ 0 < wd ∧ 2 ^ (wd - 1) ≤ f then Int.toNat (((f : Int) - 2 ^ wd) % 2 ^ 32) else f) := by
  have hf : a.toNat / 2 ^ pos % 2 ^ fieldWidth pos len < 2 ^ 32 :=
    ((Nat.mod_le ..).trans (Nat.div_le_self ..)).trans_lt a.isLt
  simp only [bfxBits, Bool.and_eq_true, decide_eq_true_eq, ge_iff_le, gt_iff_lt, and_assoc]
  split
  · exact toNat_wrap ..
  · rw [BitVec.toNat_ofNat, Nat.mod_eq_of_lt hf]

/-- R63: a field written in takes its bits from source A, and the others stay. -/
theorem getLsbD_bfiBits (a c : Word) (pos len : Nat) {k : Nat} (hk : k < 32) : (bfiBits a c pos len).getLsbD k =
    if pos ≤ k ∧ k < pos + fieldWidth pos len then a.getLsbD (k - pos) else c.getLsbD k := by
  unfold bfiBits
  generalize fieldWidth pos len = w
  by_cases hw : w = 0
  · rw [if_pos hw, if_neg (by omega)]
  · have hin : (k - pos < w ∧ pos ≤ k) ↔ (pos ≤ k ∧ k < pos + w) := by omega
    simp only [if_neg hw, BitVec.getLsbD_or, BitVec.getLsbD_and, BitVec.getLsbD_not, BitVec.getLsbD_ofNat, Nat.testBit_mul_two_pow,
      Nat.testBit_two_pow_sub_one, Nat.testBit_mod_two_pow, BitVec.testBit_toNat, decide_eq_true hk, Bool.true_and]
    by_cases hk2 : pos ≤ k ∧ k < pos + w
    · simp [hk2, hin.mpr hk2]
    · by_cases hp : pos ≤ k
      · simp [hp, show ¬ k - pos < w by omega, show ¬ k < pos + w by omega]
      · simp [hp]

/-! ## Bit counts (R64) -/

theorem head?_lanesOf {m : Mask} {k : Nat} (h : (lanesOf m).head? = some k) : k < 32 ∧ bit m k = true ∧ ∀ j, j < k → bit m j = false := by
  rw [lanesOf, List.head?_filter, List.find?_range_eq_some] at h
  obtain ⟨hb, hk, hlow⟩ := h
  exact ⟨List.mem_range.mp hk, hb, fun j hj => by simpa using hlow j hj⟩

theorem getLast?_lanesOf {m : Mask} {k : Nat} (h : (lanesOf m).getLast? = some k) : k < 32 ∧ bit m k = true ∧ ∀ j, k < j → bit m j = false := by
  obtain ⟨init, hl⟩ := List.getLast?_eq_some_iff.mp h
  have hk : bit m k = true := (mem_lanesOf m k).mp (by simp [hl])
  refine ⟨bit_lt hk, hk, fun j hj => ?_⟩
  have hsorted : (lanesOf m).Pairwise (· < ·) := List.pairwise_lt_range.filter _
  rw [hl, List.pairwise_append] at hsorted
  by_contra hb
  have hmem : j ∈ lanesOf m := (mem_lanesOf m j).mpr (by simpa using hb)
  rw [hl, List.mem_append, List.mem_singleton] at hmem
  rcases hmem with hin | rfl
  · have := hsorted.2.2 j hin k (List.mem_singleton_self k)
    omega
  · omega

theorem bit_of_lanesOf_nil {m : Mask} (h : lanesOf m = []) (j : Nat) : bit m j = false := by
  have := (mem_lanesOf m j).not
  rw [h] at this
  simpa using this

theorem BitOp.eval_clz (x : Word) : BitOp.eval .clz x ≤ 32 ∧ (∀ k, 32 - BitOp.eval .clz x ≤ k → x.getLsbD k = false) ∧
    (BitOp.eval .clz x < 32 → x.getLsbD (31 - BitOp.eval .clz x) = true) := by
  unfold BitOp.eval
  simp only
  split
  · rename_i k hl
    obtain ⟨hk, hb, hhigh⟩ := getLast?_lanesOf hl
    refine ⟨by omega, fun j hj => hhigh j (by omega), fun _ => ?_⟩
    rw [show 31 - (31 - k) = k by omega]
    exact hb
  · rename_i hl
    exact ⟨le_refl _, fun j _ => bit_of_lanesOf_nil (List.getLast?_eq_none_iff.mp hl) j, fun h => absurd h (by omega)⟩

theorem BitOp.eval_ctz (x : Word) : BitOp.eval .ctz x ≤ 32 ∧ (∀ k, k < BitOp.eval .ctz x → x.getLsbD k = false) ∧
    (BitOp.eval .ctz x < 32 → x.getLsbD (BitOp.eval .ctz x) = true) := by
  unfold BitOp.eval
  simp only
  split
  · rename_i k hl
    obtain ⟨hk, hb, hlow⟩ := head?_lanesOf hl
    exact ⟨by omega, hlow, fun _ => hb⟩
  · rename_i hl
    exact ⟨le_refl _, fun j _ => bit_of_lanesOf_nil (List.head?_eq_none_iff.mp hl) j, fun h => absurd h (by omega)⟩

theorem BitOp.eval_brev (x : Word) {k : Nat} (hk : k < 32) : (BitVec.ofNat 32 (BitOp.eval .brev x)).getLsbD (31 - k) = x.getLsbD k := by
  rw [BitOp.eval, ofNat_toNat, ← bit, bit_maskOf, decide_eq_true (by omega), Bool.true_and, show 31 - (31 - k) = k by omega]

/-! ## Bytes (R64) -/

theorem leNat_byte (bs : List Byte) {k : Nat} (hk : k < bs.length) : leNat bs / 2 ^ (8 * k) % 256 = (bs[k]).toNat := by
  induction bs generalizing k with
  | nil => simp at hk
  | cons b bs ih =>
    have hb := b.isLt
    rw [leNat]
    cases k with
    | zero => simp; omega
    | succ k =>
      have hrest : (b.toNat + 256 * leNat bs) / 2 ^ 8 = leNat bs := by omega
      have hpow : 2 ^ (8 * (k + 1)) = 2 ^ 8 * 2 ^ (8 * k) := by rw [← pow_add, Nat.mul_succ, Nat.add_comm]
      rw [hpow, ← Nat.div_div_eq_div_mul, hrest, ih (by simpa using hk), List.getElem_cons_succ]

theorem bpermBits_byte (a b c : Word) {k : Nat} (hk : k < 4) : bpermBits a b c / 2 ^ (8 * k) % 256 =
    (let sel := c.toNat / 2 ^ (4 * k)
     let byte := (a.toNat + b.toNat * 2 ^ 32) / 2 ^ (8 * (sel % 8)) % 256
     if sel / 8 % 2 = 1 then (if byte / 128 = 1 then 255 else 0) else byte) := by
  simp only [bpermBits]
  rw [leNat_byte _ (by simpa using hk), List.getElem_map, List.getElem_range]
  generalize c.toNat / 2 ^ (4 * k) = sel
  have hsel : sel % 16 % 8 = sel % 8 := by omega
  rw [hsel]
  have hbyte : (a.toNat + b.toNat * 2 ^ 32) / 2 ^ (8 * (sel % 8)) % 256 < 256 := Nat.mod_lt _ (by decide)
  generalize (a.toNat + b.toNat * 2 ^ 32) / 2 ^ (8 * (sel % 8)) % 256 = byte at hbyte
  have hhigh : sel % 16 ≥ 8 ↔ sel / 8 % 2 = 1 := by omega
  have hsign : byte ≥ 128 ↔ byte / 128 = 1 := by omega
  simp only [hhigh, hsign]
  split
  · split <;> rfl
  · rw [BitVec.toNat_ofNat]; omega

/-- Settles O12: each word is one computed result, its operation read bit by bit or over the integers. -/
theorem bitWordsComplete : Obligations.BitWordsComplete := by
  unfold Obligations.BitWordsComplete
  intro s e h d a c
  refine ⟨fun tt b hi => ⟨_, fun l k hk => getLsbD_ltabBits tt _ _ _ hk, aluWord_completes hi rfl fun _ => rfl⟩, fun op cl n hi => ?_,
    fun op cl n hi => ?_, fun sx p hi => aluWord_completes hi rfl fun l => toNat_bfxBits ..,
    fun p hi => ⟨_, fun l k hk => getLsbD_bfiBits _ _ _ _ hk, aluWord_completes hi rfl fun _ => rfl⟩,
    fun op hi => ⟨_, fun l => ?_, aluWord_completes hi rfl fun _ => rfl⟩,
    fun b hi => ⟨_, fun l k hk => bpermBits_byte _ _ _ hk, aluWord_completes hi rfl fun _ => rfl⟩⟩
  · exact aluWord_completes hi rfl fun l => (ShfOp.eval_eq ..).trans (by cases n <;> rfl)
  · exact aluWord_completes hi rfl fun l => (ShwOp.eval_eq ..).trans (by cases n <;> rfl)
  · cases op
    case popc => rfl
    case clz => exact BitOp.eval_clz _
    case ctz => exact BitOp.eval_ctz _
    case brev => exact fun k hk => BitOp.eval_brev _ hk

end Sys2Proof.Machine
end

section
/-! PROOFS. The arithmetic words of the floating-point class. -/

namespace Sys2Proof.Machine

/-- Settles O15: each word is one computed result, by the rule of its operation. -/
theorem floatArithmeticComplete : Obligations.FloatArithmeticComplete := by
  unfold Obligations.FloatArithmeticComplete
  intro s e h r ftz d a b c
  refine ⟨fun sub hi => ?_, fun hi => ⟨_, fun l => fmul_rule .., aluWord_completes hi rfl fun _ => rfl⟩,
    fun np nc hi => ⟨_, fun l => ffma_rule .., aluWord_completes hi rfl fun _ => rfl⟩,
    fun hi => ⟨_, fun l => fdiv_rule .., slowWord_completesLater hi rfl fun _ => rfl⟩⟩
  cases sub
  · exact ⟨_, fun l => fadd_rule .., aluWord_completes hi rfl fun _ => rfl⟩
  · exact ⟨_, fun l => fsub_rule .., aluWord_completes hi rfl fun _ => rfl⟩

end Sys2Proof.Machine
end

section
/-! PROOFS. What a rounding is: it is monotone, it keeps the numbers of the format, and beyond the format mode and sign decide. -/

namespace Sys2Proof.Machine

/-! ## The rounding that is nearest -/

variable {f : Fmt} {r : Rnd} {neg : Bool} {x y : ℚ}

theorem magValue_zero (f : Fmt) : magValue f 0 = 0 := by simp [magValue]

/-- Where a value just above zero goes in a mode, for a value of the given sign: to zero or to the smallest number. -/
def Rnd.tiny (r : Rnd) (neg : Bool) : ℕ :=
  match r, neg with
  | .ru, false | .rd, true => 1
  | _, _ => 0

/-- A rounding is the nearest number, the last one below or the first one above. -/
theorem Nearest.split {k : ℕ} (h : Nearest f r neg x k) :
    (Rnd.tiny r neg = 0 ∧ ∀ j, j ≠ k → |magValue f k - x| ≤ |magValue f j - x|) ∨
    (Rnd.tiny r neg = 0 ∧ magValue f k ≤ x ∧ x < magValue f (k + 1)) ∨
    (Rnd.tiny r neg = 1 ∧ x ≤ magValue f k ∧ ∀ j < k, magValue f j < x) := by
  cases r
  case rn => exact .inl ⟨rfl, fun j hj => (h j hj).elim le_of_lt fun heq => heq.1.le⟩
  case rz => exact .inr (.inl ⟨rfl, h⟩)
  case ru =>
    cases neg
    · exact .inr (.inr ⟨rfl, h⟩)
    · exact .inr (.inl ⟨rfl, h⟩)
  case rd =>
    cases neg
    · exact .inr (.inl ⟨rfl, h⟩)
    · exact .inr (.inr ⟨rfl, h⟩)

/-- A rounding does not fall below a number of the format that its value reaches. -/
theorem Nearest.ge {j k : ℕ} (h : Nearest f r neg x k) (hj : magValue f j ≤ x) : j ≤ k := by
  have mono := magValue_strictMono f
  rcases h.split with ⟨-, hnear⟩ | ⟨-, -, hlt⟩ | ⟨-, hle, -⟩
  · by_contra hlt
    have hkj := mono (not_le.mp hlt)
    have hdist := hnear j (by omega)
    rw [abs_of_nonpos (by linarith), abs_of_nonpos (by linarith)] at hdist
    linarith
  · exact Nat.lt_succ_iff.mp (mono.lt_iff_lt.mp (hj.trans_lt hlt))
  · exact mono.le_iff_le.mp (hj.trans hle)

/-- Nor does it rise above one that its value does not pass. -/
theorem Nearest.le {j k : ℕ} (h : Nearest f r neg x k) (hj : x ≤ magValue f j) : k ≤ j := by
  have mono := magValue_strictMono f
  rcases h.split with ⟨-, hnear⟩ | ⟨-, hle, -⟩ | ⟨-, -, hlow⟩
  · by_contra hlt
    have hjk := mono (not_le.mp hlt)
    have hdist := hnear j (by omega)
    rw [abs_of_nonneg (by linarith), abs_of_nonneg (by linarith)] at hdist
    linarith
  · exact mono.le_iff_le.mp (hle.trans hj)
  · exact not_lt.mp fun hlt => absurd (hlow j hlt) (not_lt.mpr hj)

/-- A value less than half the smallest number rounds by mode and sign alone. -/
theorem Nearest.of_tiny {k : ℕ} (h : Nearest f r neg x k) (h0 : 0 < x) (h1 : 2 * x < magValue f 1) : k = Rnd.tiny r neg := by
  have mono := magValue_strictMono f
  have hle : k ≤ 1 := h.le (by linarith)
  rcases h.split with ⟨hr, hnear⟩ | ⟨hr, hbelow, -⟩ | ⟨hr, habove, -⟩ <;> rw [hr]
  · by_contra hk
    obtain rfl : k = 1 := by omega
    have hdist := hnear 0 (by decide)
    rw [magValue_zero, abs_of_nonneg (by linarith), zero_sub, abs_neg, abs_of_pos h0] at hdist
    linarith
  · exact Nat.lt_one_iff.mp (mono.lt_iff_lt.mp (hbelow.trans_lt (by linarith)))
  · have : 0 < k := mono.lt_iff_lt.mp ((magValue_zero f).symm ▸ h0.trans_le habove)
    omega

theorem RoundsTo.eq_of_tiny {m n : ℕ} (hm : RoundsTo f r neg x m) (hn : RoundsTo f r neg y n) (hx : 0 < x ∧ 2 * x < magValue f 1)
    (hy : 0 < y ∧ 2 * y < magValue f 1) : m = n := by
  obtain ⟨j, hj, rfl⟩ := hm
  obtain ⟨k, hk, rfl⟩ := hn
  rw [hj.of_tiny hx.1 hx.2, hk.of_tiny hy.1 hy.2]

/-- Past the largest finite number the mode and the sign alone decide. -/
theorem RoundsTo.eq_of_huge {m n : ℕ} (hm : RoundsTo f r neg x m) (hn : RoundsTo f r neg y n) (hx : magValue f (Fmt.infBits f) ≤ x)
    (hy : magValue f (Fmt.infBits f) ≤ y) : m = n := by
  obtain ⟨j, hj, rfl⟩ := hm
  obtain ⟨k, hk, rfl⟩ := hn
  rw [if_neg (not_lt.mpr (hj.ge hx)), if_neg (not_lt.mpr (hk.ge hy))]

theorem exists_roundsTo (f : Fmt) (r : Rnd) (neg : Bool) (hx : 0 < x) : ∃ n, RoundsTo f r neg x n := by
  have hnum : 0 < x.num.toNat := by have := Rat.num_pos.mpr hx; omega
  have hcast : ((x.num.toNat : ℕ) : ℚ) = x.num := by exact_mod_cast Int.toNat_of_nonneg (Rat.num_pos.mpr hx).le
  have := fround_rounds f r neg hnum x.den_pos
  rw [hcast, Rat.num_div_den] at this
  exact ⟨_, this⟩

/-! ## Numbers that a format has -/

/-- A whole multiple of a quantum, of no more digits than the format has, is a number of the format. -/
theorem exists_magValue_eq (f : Fmt) (j : ℕ) {q : ℤ} (hj : j ≤ 2 ^ (Fmt.frac f + 1)) (hq : Fmt.qmin f ≤ q) : ∃ k, magValue f k = j * 2 ^ q := by
  obtain ⟨t, rfl⟩ : ∃ t : ℕ, q = Fmt.qmin f + t := ⟨(q - Fmt.qmin f).toNat, by omega⟩
  clear hq
  induction t generalizing j with
  | zero => exact ⟨_, magValue_at f _ j (by simp) hj (by simp)⟩
  | succ t ih =>
    by_cases hsmall : 2 ^ Fmt.frac f ≤ j
    · exact ⟨_, magValue_at f _ j (by omega) hj fun _ => hsmall⟩
    · obtain ⟨k, hk⟩ := ih (2 * j) (by rw [pow_succ]; omega)
      refine ⟨k, hk.trans ?_⟩
      push_cast
      rw [← add_assoc, zpow_add_one₀ (by norm_num)]
      ring

theorem infBits_pos (f : Fmt) : 0 < Fmt.infBits f := by cases f <;> decide

theorem infBits_lt_signBit (f : Fmt) : Fmt.infBits f < Fmt.signBit f := by cases f <;> decide

theorem signed_parts (f : Fmt) (s : Bool) {k : ℕ} (hk : k < Fmt.signBit f) :
    signed f s k % Fmt.signBit f = k ∧ decide (signed f s k / Fmt.signBit f % 2 = 1) = s := by
  cases s
  · simp [signed, Nat.mod_eq_of_lt hk, Nat.div_eq_of_lt hk]
  · simp [signed, Nat.mod_eq_of_lt hk, Nat.add_div_left _ (Nat.zero_lt_of_lt hk), Nat.div_eq_of_lt hk]

theorem numOf_signed (s : Bool) {k : ℕ} (hk : k < Fmt.infBits f) :
    numOf f (signed f s k) = .fin s (if s then -magValue f k else magValue f k) := by
  obtain ⟨hmag, hneg⟩ := signed_parts f s (hk.trans (infBits_lt_signBit f))
  simp only [numOf, hmag, hneg, if_neg (not_lt.mpr hk.le), if_neg hk.ne]

/-- A number of the format is its own rounding. -/
theorem numOf_fround {num den k : ℕ} (s : Bool) (hd : 0 < den) (hk : (num : ℚ) / den = magValue f k) (hfin : k < Fmt.infBits f) :
    numOf f (fround f r s num den) = .fin s (if s then -((num : ℚ) / den) else (num : ℚ) / den) := by
  rw [hk]
  have hself : fround f r s num den = signed f s k := by
    rcases Nat.eq_zero_or_pos num with rfl | hn
    · have : k = 0 := (magValue_strictMono f).injective (by rw [← hk, magValue_zero]; simp)
      rw [this]; exact if_pos rfl
    · obtain ⟨j, hj, he⟩ := fround_rounds f r s hn hd
      obtain rfl : j = k := le_antisymm (hj.le hk.le) (hj.ge hk.ge)
      rw [he, if_pos hfin]
  rw [hself, numOf_signed s hfin]

/-- What a decoded finite number is. -/
theorem fdecode_fin {v m : ℕ} {s : Bool} {e : ℤ} (h : fdecode f v = .fin s m e) :
    m < 2 ^ (Fmt.frac f + 1) ∧ Fmt.qmin f ≤ e ∧ ∃ k < Fmt.infBits f, (m : ℚ) * 2 ^ e = magValue f k := by
  have hval := numOf_eq f v
  have hlow : v % Fmt.signBit f % 2 ^ Fmt.frac f < 2 ^ Fmt.frac f := Nat.mod_lt _ (by positivity)
  have hpow : 2 ^ (Fmt.frac f + 1) = 2 ^ Fmt.frac f + 2 ^ Fmt.frac f := by rw [pow_succ]; omega
  have hfin : v % Fmt.signBit f < Fmt.infBits f := by
    simp only [fdecode] at h
    split at h
    · cases h
    split at h
    · cases h
    omega
  refine ⟨?_, ?_, v % Fmt.signBit f, hfin, ?_⟩
  · simp only [fdecode, if_neg (not_lt.mpr hfin.le), if_neg hfin.ne] at h
    split at h <;> (cases h; omega)
  · simp only [fdecode, if_neg (not_lt.mpr hfin.le), if_neg hfin.ne] at h
    split at h
    · cases h; exact le_refl _
    · rename_i hex
      have := Nat.pos_of_ne_zero hex
      cases h; omega
  · rw [h] at hval
    simp only [numOf, if_neg (not_lt.mpr hfin.le), if_neg hfin.ne, FVal.num, FNum.fin.injEq, sgnInt_cast] at hval
    obtain ⟨hs, hv⟩ := hval
    rw [hs] at hv
    cases s <;> simp at hv <;> linarith

end Sys2Proof.Machine
end

section
/-! PROOFS. Rounding to an integer and scaling by a power of two. -/

namespace Sys2Proof.Machine

/-! ## Integers near a number (R89, R91) -/

/-- Rounding a quotient to an integer, for a value of the given sign. -/
theorem roundInt_near (r : Rnd) (neg : Bool) (a : ℕ) {b : ℕ} (hb : 0 < b) :
    IntNear r neg ((a : ℚ) / b) (roundInt r neg (a / b) (a % b) b) := by
  have hbq : (0 : ℚ) < b := by exact_mod_cast hb
  have hquo : (a : ℚ) / b = (a / b : ℕ) + ((a % b : ℕ) : ℚ) / b := by
    conv_lhs => rw [← Nat.div_add_mod a b]
    push_cast
    field_simp
  have hlt : ((a % b : ℕ) : ℚ) / b < 1 := by rw [div_lt_one hbq]; exact_mod_cast Nat.mod_lt a hb
  have hnonneg : 0 ≤ ((a % b : ℕ) : ℚ) / b := by positivity
  have hrem : 0 < a % b → 0 < ((a % b : ℕ) : ℚ) / b := fun h => by
    have : (0 : ℚ) < (a % b : ℕ) := by exact_mod_cast h
    positivity
  have hhalf : ((a % b : ℕ) : ℚ) / b ≤ 1 / 2 ↔ 2 * (a % b) ≤ b := by
    rw [div_le_iff₀ hbq, ← Nat.cast_le (α := ℚ)]; push_cast; constructor <;> intro h <;> linarith
  have hhalf' : 1 / 2 ≤ ((a % b : ℕ) : ℚ) / b ↔ b ≤ 2 * (a % b) := by
    rw [le_div_iff₀ hbq, ← Nat.cast_le (α := ℚ)]; push_cast; constructor <;> intro h <;> linarith
  rw [hquo]
  generalize a / b = n
  generalize hfrac : ((a % b : ℕ) : ℚ) / b = t at *
  generalize a % b = m at *
  have hbelow : (n : ℚ) ≤ n + t ∧ (n : ℚ) + t < n + 1 := ⟨by linarith, by linarith⟩
  have habove : ((n : ℚ) + t ≤ (if m > 0 then n + 1 else n : ℕ)) ∧ ((if m > 0 then n + 1 else n : ℕ) : ℚ) < n + t + 1 := by
    split
    · have := hrem ‹_›
      push_cast
      exact ⟨by linarith, by linarith⟩
    · have : t = 0 := by
        rw [← hfrac, show m = 0 by omega]; simp
      exact ⟨by linarith, by linarith⟩
  cases r
  case rn =>
    simp only [IntNear, roundInt]
    split
    · have ht : 1 / 2 ≤ t := hhalf'.mpr (by omega)
      push_cast
      rw [show (n : ℚ) + 1 - (n + t) = 1 - t by ring, abs_of_nonneg (by linarith)]
      refine ⟨by linarith, fun h => ?_⟩
      have := hhalf.mp (by linarith)
      omega
    · have ht : t ≤ 1 / 2 := hhalf.mpr (by omega)
      rw [show (n : ℚ) - (n + t) = -t by ring, abs_neg, abs_of_nonneg hnonneg]
      refine ⟨ht, fun h => ?_⟩
      have := hhalf'.mp h.ge
      omega
  case rz => exact hbelow
  case ru =>
    cases neg
    · simpa [IntNear, roundInt] using habove
    · simpa [IntNear, roundInt] using hbelow
  case rd =>
    cases neg
    · simpa [IntNear, roundInt] using hbelow
    · simpa [IntNear, roundInt] using habove

theorem roundInt_le (r : Rnd) (neg : Bool) (n rem d : ℕ) : roundInt r neg n rem d ≤ n + 1 := by
  cases r
  case rz => exact Nat.le_succ n
  all_goals simp only [roundInt]; split <;> omega

theorem abs_sgnInt (s : Bool) (m : ℕ) (e : ℤ) : |((sgnInt s m : ℤ) : ℚ) * 2 ^ e| = m * 2 ^ e := by
  have : (0 : ℚ) ≤ m * 2 ^ e := by positivity
  rw [sgnInt_cast]
  cases s <;> simp [abs_of_nonneg this]

theorem toIntegral_near (r : Rnd) (s : Bool) (m : ℕ) (e : ℤ) : IntNear r s |((sgnInt s m : ℤ) : ℚ) * 2 ^ e| (toIntegral r s m e) := by
  have := roundInt_near r s (m * pow2Num e) (pow2Den_pos e)
  push_cast at this
  rwa [mul_pow2, ← abs_sgnInt s] at this

/-- An F32 number rounded to an integer is an F32 number. -/
theorem exists_magValue_toIntegral (r : Rnd) (s : Bool) {v m : ℕ} {t : Bool} {e : ℤ} (h : fdecode .f32 v = .fin t m e) :
    ∃ k < Fmt.infBits .f32, (toIntegral r s m e : ℚ) = magValue .f32 k := by
  obtain ⟨hm, -, k, hk, hval⟩ := fdecode_fin h
  rcases le_total 0 e with he | he
  · refine ⟨k, hk, ?_⟩
    have hden : pow2Den e = 1 := by rw [pow2Den, show (-e).toNat = 0 by omega, pow_zero]
    have hwhole : toIntegral r s m e = m * pow2Num e := by cases r <;> simp [toIntegral, roundInt, hden, Nat.mod_one]
    have := mul_pow2 m e
    rw [hden, Nat.cast_one, div_one] at this
    rw [hwhole, ← hval, ← this]
    push_cast
    rfl
  · have hnum : pow2Num e = 1 := by rw [pow2Num, show e.toNat = 0 by omega, pow_zero]
    have hle : toIntegral r s m e ≤ m + 1 := by
      rw [toIntegral, hnum, Nat.mul_one]
      exact (roundInt_le ..).trans (Nat.succ_le_succ (Nat.div_le_self ..))
    obtain ⟨j, hj⟩ := exists_magValue_eq .f32 (toIntegral r s m e) (q := 0) (by simp only [Fmt.frac] at hm ⊢; omega) (by decide)
    rw [zpow_zero, mul_one] at hj
    refine ⟨j, (magValue_strictMono .f32).lt_iff_lt.mp ?_, hj.symm⟩
    have hbig : (2 : ℚ) ^ 24 < magValue .f32 (Fmt.infBits .f32) := by
      rw [show magValue .f32 (Fmt.infBits .f32) = (2 : ℚ) ^ 23 * 2 ^ 105 by norm_num [magValue, Fmt.infBits, Fmt.frac, Fmt.expo, Fmt.bias]]; norm_num
    rw [hj]
    refine lt_of_le_of_lt ?_ hbig
    have : toIntegral r s m e ≤ 2 ^ 24 := by simp only [Fmt.frac] at hm; omega
    exact_mod_cast this

/-- R89: rounding to an integral F32 number. -/
theorem frint_rule (r : Rnd) (ftz : Bool) (a : ℕ) : match numIn .f32 ftz a with
    | .nan => frint .f32 r ftz a = Fmt.nan .f32
    | .inf n => frint .f32 r ftz a = signed .f32 n (Fmt.infBits .f32)
    | .fin n x => ∃ k : ℕ, IntNear r n |x| k ∧ numOf .f32 (frint .f32 r ftz a) = .fin n (if n then -(k : ℚ) else k) := by
  rw [numIn_eq, frint]
  cases hv : fdecode .f32 (flush .f32 ftz a) with
  | nan => rfl
  | inf s => rfl
  | fin s m e =>
    obtain ⟨k, hk, hval⟩ := exists_magValue_toIntegral r s hv
    refine ⟨_, toIntegral_near r s m e, ?_⟩
    have := numOf_fround (r := r) s (num := toIntegral r s m e) (den := 1) (by decide) (by rw [← hval]; simp) hk
    simpa using this

/-! ## Scaling (R89) -/

theorem magValue_one_f32 : magValue .f32 1 = 2 ^ (-149 : ℤ) := by simp [magValue, Fmt.frac, Fmt.bias, Fmt.expo]

theorem magValue_infBits_f32 : magValue .f32 (Fmt.infBits .f32) = 2 ^ (128 : ℤ) := by
  have := magValue_at .f32 105 (2 ^ 23) (by decide) (by decide) fun _ => le_refl _
  rw [show (105 - Fmt.qmin .f32).toNat * 2 ^ Fmt.frac .f32 + 2 ^ 23 = Fmt.infBits .f32 from rfl] at this
  rw [this]; norm_num

/-- The magnitude of an F32 number other than zero. -/
theorem f32_range {v m : ℕ} {s : Bool} {e : ℤ} (h : fdecode .f32 v = .fin s m e) (hm : m ≠ 0) :
    (2 : ℚ) ^ (-149 : ℤ) ≤ m * 2 ^ e ∧ (m : ℚ) * 2 ^ e < 2 ^ (128 : ℤ) := by
  obtain ⟨-, he, k, hk, hval⟩ := fdecode_fin h
  constructor
  · have hone : (1 : ℚ) ≤ m := by exact_mod_cast Nat.one_le_iff_ne_zero.mpr hm
    calc (2 : ℚ) ^ (-149 : ℤ) ≤ 2 ^ e := zpow_le_zpow_right₀ (by norm_num) he
      _ ≤ m * 2 ^ e := le_mul_of_one_le_left (by positivity) hone
  · rw [hval, ← magValue_infBits_f32]
    exact magValue_strictMono .f32 hk

/-- Scaling by 2^1000 overflows as any greater scaling does, and scaling by 2^-1000 underflows as any smaller one does. -/
theorem roundsTo_clamped {r : Rnd} {s : Bool} {y : ℚ} (hlow : 2 ^ (-149 : ℤ) ≤ y) (hhigh : y < 2 ^ (128 : ℤ)) {n : ℤ} {v : ℕ}
    (h : RoundsTo .f32 r s (y * 2 ^ max (min n 1000) (-1000)) v) : RoundsTo .f32 r s (y * 2 ^ n) v := by
  have hy : 0 < y := lt_of_lt_of_le (by positivity) hlow
  obtain ⟨w, hw⟩ := exists_roundsTo .f32 r s (x := y * 2 ^ n) (by positivity)
  have huge {k : ℤ} (hk : 1000 ≤ k) : magValue .f32 (Fmt.infBits .f32) ≤ y * 2 ^ k := by
    rw [magValue_infBits_f32]
    calc (2 : ℚ) ^ (128 : ℤ) ≤ 2 ^ (-149 + k : ℤ) := zpow_le_zpow_right₀ (by norm_num) (by omega)
      _ = 2 ^ (-149 : ℤ) * 2 ^ k := zpow_add₀ (by norm_num) _ _
      _ ≤ y * 2 ^ k := mul_le_mul_of_nonneg_right hlow (by positivity)
  have tiny {k : ℤ} (hk : k ≤ -1000) : 0 < y * 2 ^ k ∧ 2 * (y * 2 ^ k) < magValue .f32 1 := by
    refine ⟨by positivity, ?_⟩
    rw [magValue_one_f32]
    calc 2 * (y * 2 ^ k) < 2 * (2 ^ (128 : ℤ) * 2 ^ k) := by
          have := mul_lt_mul_of_pos_right hhigh (show (0 : ℚ) < 2 ^ k by positivity)
          linarith
      _ = 2 ^ (128 + k + 1 : ℤ) := by rw [zpow_add_one₀ (by norm_num), zpow_add₀ (by norm_num)]; ring
      _ ≤ 2 ^ (-149 : ℤ) := zpow_le_zpow_right₀ (by norm_num) (by omega)
  rcases lt_or_ge 1000 n with hn | hn
  · rw [show max (min n 1000) (-1000) = 1000 by omega] at h
    rwa [h.eq_of_huge hw (huge le_rfl) (huge hn.le)]
  rcases lt_or_ge n (-1000) with hn' | hn'
  · rw [show max (min n 1000) (-1000) = -1000 by omega] at h
    rwa [h.eq_of_tiny hw (tiny le_rfl) (tiny hn'.le)]
  · rwa [show max (min n 1000) (-1000) = n by omega] at h

theorem rounded_of_ne_zero {f : Fmt} {r : Rnd} {ftz z : Bool} {x : ℚ} {n : ℕ} (hx : x ≠ 0) :
    Rounded f r ftz z x n ↔ ∃ m, n = flush f ftz m ∧ RoundsTo f r (decide (x < 0)) |x| m :=
  exists_congr fun _ => and_congr_right fun _ => ⟨fun h => h.2 hx, fun h => ⟨fun h0 => absurd h0 hx, fun _ => h⟩⟩

theorem mul_two_zpow_neg_iff (x : ℚ) (k : ℤ) : x * 2 ^ k < 0 ↔ x < 0 := by
  have hk : (0 : ℚ) < 2 ^ k := by positivity
  exact ⟨fun h => not_le.mp fun h0 => absurd (mul_nonneg h0 hk.le) (not_le.mpr h), fun h => mul_neg_of_neg_of_pos h hk⟩

/-- R89: scaling, its exponent clamped where the result no longer changes. -/
theorem fscale_rule (r : Rnd) (ftz : Bool) (a : ℕ) (n : ℤ) : match numIn .f32 ftz a with
    | .nan => fscale .f32 r ftz a n = Fmt.nan .f32
    | .inf s => fscale .f32 r ftz a n = signed .f32 s (Fmt.infBits .f32)
    | .fin s x => Rounded .f32 r ftz s (x * 2 ^ n) (fscale .f32 r ftz a n) := by
  rw [numIn_eq, fscale]
  cases hv : fdecode .f32 (flush .f32 ftz a) with
  | nan => rfl
  | inf s => rfl
  | fin s m e =>
    have hround := froundVal_rule .f32 r ftz (.fin s m (e + max (min n 1000) (-1000)))
    simp only [FVal.num, FNum.To, zpow_add₀ (show (2 : ℚ) ≠ 0 by norm_num), ← mul_assoc] at hround
    simp only [FVal.num]
    by_cases hm : m = 0
    · have hz : ((sgnInt s m : ℤ) : ℚ) = 0 := by rw [sgnInt_cast, hm]; simp
      rw [hz, zero_mul, zero_mul] at hround ⊢
      exact hround
    · set x := ((sgnInt s m : ℤ) : ℚ) * 2 ^ e with hx
      have hx0 : x ≠ 0 := (num_zero_iff m s e).not.mpr hm
      obtain ⟨hlow, hhigh⟩ := f32_range hv hm
      rw [← abs_sgnInt s, ← hx] at hlow hhigh
      have scaled (k : ℤ) : x * 2 ^ k ≠ 0 ∧ (x * 2 ^ k < 0 ↔ x < 0) ∧ |x * 2 ^ k| = |x| * 2 ^ k := by
        have hk : (0 : ℚ) < 2 ^ k := by positivity
        exact ⟨mul_ne_zero hx0 hk.ne', mul_two_zpow_neg_iff x k, by rw [abs_mul, abs_of_pos hk]⟩
      obtain ⟨hne, hsign, habs⟩ := scaled n
      obtain ⟨hne', hsign', habs'⟩ := scaled (max (min n 1000) (-1000))
      rw [rounded_of_ne_zero hne'] at hround
      rw [rounded_of_ne_zero hne]
      obtain ⟨v, hv, hr⟩ := hround
      refine ⟨v, hv, ?_⟩
      simp only [hsign, hsign', habs, habs'] at hr ⊢
      exact roundsTo_clamped hlow hhigh hr

end Sys2Proof.Machine
end

section
/-! PROOFS. The tapered codes: their order, and the code of a number. -/

namespace Sys2Proof.Machine

/-! ## Tapered codes (R74, R75) -/

/-- The value of a magnitude code of n bits, in units of 2^-40. -/
def stUnits (c n : ℕ) : ℕ := (stMag c n).1 * pow2Num ((stMag c n).2 + 40)

theorem runLen_le (m b i : ℕ) : runLen m b i ≤ i + 1 := by
  induction i with
  | zero => rw [runLen]; split <;> omega
  | succ i ih => rw [runLen]; split <;> omega

/-- A magnitude code has few digits and a small exponent. -/
theorem stMag_bounds (m : ℕ) {n : ℕ} (hn : 3 ≤ n) :
    (stMag m n).1 < 2 ^ (n - 2) ∧ -(3 * n : ℤ) ≤ (stMag m n).2 ∧ (stMag m n).2 ≤ 2 * n := by
  have hpos : 0 < 2 ^ (n - 2) := by positivity
  unfold stMag
  split
  · exact ⟨hpos, by omega, by omega⟩
  · have hrun := runLen_le m (m / 2 ^ (n - 2) % 2) (n - 2)
    simp only
    generalize runLen m (m / 2 ^ (n - 2) % 2) (n - 2) = k at hrun ⊢
    generalize hp : (n : ℤ) - 2 - k - 1 = p
    have hw : p.toNat ≤ n - 3 := by omega
    have hfrac : (if p.toNat > 0 then m % 2 ^ p.toNat else 0) < 2 ^ p.toNat := by
      have : 0 < 2 ^ p.toNat := by positivity
      split
      · exact Nat.mod_lt _ this
      · exact this
    have hmant : 2 ^ (p.toNat + 1) ≤ 2 ^ (n - 2) := Nat.pow_le_pow_right (by norm_num) (by omega)
    have hexp := Nat.mod_lt (m / 2 ^ p.toNat) (show 0 < 2 by norm_num)
    rw [pow_succ] at hmant
    refine ⟨by omega, ?_, ?_⟩ <;> split_ifs <;> omega

theorem stUnits_lt_eight : ∀ c < 127, stUnits c 8 < stUnits (c + 1) 8 := by decide
theorem stUnits_lt_six : ∀ c < 31, stUnits c 6 < stUnits (c + 1) 6 := by decide


theorem stUnits_strictMonoOn {n : ℕ} (hn : n = 8 ∨ n = 6) : StrictMonoOn (fun c => stUnits c n) (Set.Iio (2 ^ (n - 1))) := by
  have hstep : ∀ c < 2 ^ (n - 1) - 1, stUnits c n < stUnits (c + 1) n := by
    rcases hn with rfl | rfl
    · exact stUnits_lt_eight
    · exact stUnits_lt_six
  refine strictMonoOn_of_lt_add_one Set.ordConnected_Iio fun c _ _ hc => hstep c ?_
  have : c + 1 < 2 ^ (n - 1) := hc
  omega

theorem stUnits_cast (c : ℕ) {n : ℕ} (hn : n = 8 ∨ n = 6) : (stUnits c n : ℚ) = ((stMag c n).1 : ℚ) * 2 ^ (stMag c n).2 * 2 ^ 40 := by
  obtain ⟨-, hlow, -⟩ := stMag_bounds c (n := n) (by omega)
  have hden : pow2Den ((stMag c n).2 + 40) = 1 := by rw [pow2Den, show (-((stMag c n).2 + 40)).toNat = 0 by omega, pow_zero]
  have hnum := pow2Num_eq ((stMag c n).2 + 40)
  rw [hden, Nat.cast_one, mul_one, zpow_add₀ (by norm_num)] at hnum
  rw [stUnits, Nat.cast_mul, hnum]
  norm_cast
  ring

theorem stValue_mag {c n : ℕ} (hc : c < 2 ^ (n - 1)) : stValue c n = ((stMag c n).1 : ℚ) * 2 ^ (stMag c n).2 := by
  rw [stValue, decodeST]
  split
  next x e h =>
    split at h
    · rename_i hz
      cases h
      simp [hz, stMag]
    · rw [if_neg hc.ne, if_neg (by rw [Nat.div_eq_of_lt hc]; decide)] at h
      cases h
      rw [Int.cast_natCast]
  next h =>
    split at h
    · cases h
    · rw [if_neg hc.ne, if_neg (by rw [Nat.div_eq_of_lt hc]; decide)] at h
      cases h

theorem stValue_strictMonoOn {n : ℕ} (hn : n = 8 ∨ n = 6) : StrictMonoOn (fun c => stValue c n) (Set.Iio (2 ^ (n - 1))) := by
  intro c hc d hd hlt
  have : (stUnits c n : ℚ) < stUnits d n := by exact_mod_cast stUnits_strictMonoOn hn hc hd hlt
  simp only [stValue_mag hc, stValue_mag hd]
  rw [stUnits_cast c hn, stUnits_cast d hn] at this
  exact lt_of_mul_lt_mul_right this (by positivity)

theorem stCmp_cast (num : ℕ) {den : ℕ} (hd : 0 < den) (v : ℕ × ℤ) :
    (stCmp num den v : ℚ) = ((num : ℚ) / den - v.1 * 2 ^ v.2) * (den * pow2Den v.2) := by
  have : (den : ℚ) ≠ 0 := by exact_mod_cast hd.ne'
  rw [stCmp]
  push_cast
  rw [pow2Num_eq]
  field_simp

theorem stCmp_nonneg (num : ℕ) {den : ℕ} (hd : 0 < den) (v : ℕ × ℤ) : stCmp num den v ≥ 0 ↔ (v.1 : ℚ) * 2 ^ v.2 ≤ (num : ℚ) / den := by
  have hpos : (0 : ℚ) < den * pow2Den v.2 := by exact_mod_cast Nat.mul_pos hd (pow2Den_pos v.2)
  rw [ge_iff_le, ← Int.cast_nonneg_iff (R := ℚ), stCmp_cast num hd, mul_nonneg_iff_of_pos_right hpos, sub_nonneg]

theorem stCmp_nonpos (num : ℕ) {den : ℕ} (hd : 0 < den) (v : ℕ × ℤ) : stCmp num den v ≤ 0 ↔ (num : ℚ) / den ≤ (v.1 : ℚ) * 2 ^ v.2 := by
  have hpos : (0 : ℚ) < den * pow2Den v.2 := by exact_mod_cast Nat.mul_pos hd (pow2Den_pos v.2)
  rw [← Int.cast_nonpos (R := ℚ), stCmp_cast num hd, ← sub_nonpos (a := (num : ℚ) / den)]
  exact ⟨fun h => nonpos_of_mul_nonpos_left h hpos, fun h => mul_nonpos_of_nonpos_of_nonneg h hpos.le⟩

/-- The search downward from a code stops at the last code whose value is not above the number. -/
theorem stBelow_spec (num : ℕ) {den n : ℕ} (hd : 0 < den) {t : ℕ} (ht : t < 2 ^ (n - 1)) :
    stBelow num den n t ≤ t ∧ (0 < stBelow num den n t → stValue (stBelow num den n t) n ≤ (num : ℚ) / den) ∧
      ∀ j, stBelow num den n t < j → j ≤ t → (num : ℚ) / den < stValue j n := by
  induction t with
  | zero => exact ⟨le_refl _, fun h => absurd h (lt_irrefl _), fun j h1 h2 => absurd h2 (by omega)⟩
  | succ t ih =>
    rw [stBelow]
    have hcmp := stCmp_nonneg num hd (stMag (t + 1) n)
    rw [← stValue_mag ht] at hcmp
    split
    · exact ⟨le_refl _, fun _ => hcmp.mp ‹_›, fun j h1 h2 => absurd h2 (by omega)⟩
    · obtain ⟨hle, hval, habove⟩ := ih (by omega)
      refine ⟨by omega, hval, fun j h1 h2 => ?_⟩
      rcases Nat.lt_or_eq_of_le h2 with h | rfl
      · exact habove j h1 (by omega)
      · exact not_le.mp fun h => ‹¬ _› (hcmp.mpr h)

/-- Of two neighbouring codes around a number the nearer one, the even one at a tie, is the nearest of all. -/
theorem stNearest_of_between {n c m : ℕ} (hn : n = 8 ∨ n = 6) (hc : c + 1 < 2 ^ (n - 1)) {x : ℚ} (hlow : stValue c n ≤ x)
    (hhigh : x < stValue (c + 1) n)
    (hm : m = c ∧ x - stValue c n ≤ stValue (c + 1) n - x ∧ (x - stValue c n = stValue (c + 1) n - x → m % 2 = 0) ∨
      m = c + 1 ∧ stValue (c + 1) n - x ≤ x - stValue c n ∧ (x - stValue c n = stValue (c + 1) n - x → m % 2 = 0))
    {j : ℕ} (hj : j < 2 ^ (n - 1)) (hne : j ≠ m) :
    |stValue m n - x| < |stValue j n - x| ∨ (|stValue m n - x| = |stValue j n - x| ∧ m % 2 = 0) := by
  have mono := stValue_strictMonoOn hn
  have hjc : j ∈ Set.Iio (2 ^ (n - 1)) := hj
  have hlowIn : c ∈ Set.Iio (2 ^ (n - 1)) := Nat.lt_of_succ_lt hc
  have hhighIn : c + 1 ∈ Set.Iio (2 ^ (n - 1)) := hc
  have hlowAbs : |stValue c n - x| = x - stValue c n := by rw [abs_sub_comm, abs_of_nonneg (by linarith)]
  have hhighAbs : |stValue (c + 1) n - x| = stValue (c + 1) n - x := abs_of_pos (by linarith)
  rcases Nat.lt_or_ge c j with hcj | hcj
  · have hfar : stValue (c + 1) n ≤ stValue j n := mono.monotoneOn hhighIn hjc hcj
    rw [abs_of_pos (show 0 < stValue j n - x by linarith)]
    rcases hm with ⟨rfl, hle, htie⟩ | ⟨rfl, hle, htie⟩
    · rw [hlowAbs]
      exact (hle.trans (sub_le_sub_right hfar x)).lt_or_eq.imp_right fun h => ⟨h, htie (by linarith)⟩
    · have : stValue (c + 1) n < stValue j n := mono hhighIn hjc (by omega)
      exact .inl (by rw [hhighAbs]; linarith)
  · have hfar : stValue j n ≤ stValue c n := mono.monotoneOn hjc hlowIn hcj
    rw [abs_sub_comm (stValue j n), abs_of_nonneg (show 0 ≤ x - stValue j n by linarith)]
    rcases hm with ⟨rfl, hle, htie⟩ | ⟨rfl, hle, htie⟩
    · have : stValue j n < stValue m n := mono hjc hlowIn (by omega)
      exact .inl (by rw [hlowAbs]; linarith)
    · rw [hhighAbs]
      exact (hle.trans (sub_le_sub_left hfar x)).lt_or_eq.imp_right fun h => ⟨h, htie (by linarith)⟩

/-- R75: the magnitude code of a positive fraction. -/
theorem encodeSTMag_rule {num den n : ℕ} (hn : n = 8 ∨ n = 6) (hd : 0 < den) : StTo n ((num : ℚ) / den) (encodeSTMag num den n) := by
  have mono := stValue_strictMonoOn hn
  have hsize : 3 < 2 ^ (n - 1) := by rcases hn with rfl | rfl <;> decide
  have htop : 2 ^ (n - 1) - 1 < 2 ^ (n - 1) := by omega
  have hone : stValue 1 n < stValue (2 ^ (n - 1) - 1) n := mono (show 1 < 2 ^ (n - 1) by omega) htop (by omega)
  have hmax := stCmp_nonneg num hd (stMag (2 ^ (n - 1) - 1) n)
  have hmin := stCmp_nonpos num hd (stMag 1 n)
  rw [← stValue_mag htop] at hmax
  rw [← stValue_mag (by omega)] at hmin
  simp only [encodeSTMag]
  split
  · have hx := hmax.mp ‹_›
    exact ⟨by omega, htop, fun _ => rfl, fun h => by linarith, fun _ h => by linarith⟩
  have hx1 : (num : ℚ) / den < stValue (2 ^ (n - 1) - 1) n := not_le.mp fun h => ‹¬ _› (hmax.mpr h)
  split
  · have hx := hmin.mp ‹_›
    exact ⟨by omega, by omega, fun h => by linarith, fun _ => rfl, fun h _ => by linarith⟩
  have hx0 : stValue 1 n < (num : ℚ) / den := not_le.mp fun h => ‹¬ _› (hmin.mpr h)
  obtain ⟨hle, hbelow, habove⟩ := stBelow_spec num hd htop
  generalize stBelow num den n (2 ^ (n - 1) - 1) = c at *
  have hcpos : 0 < c := Nat.pos_of_ne_zero fun h => by
    have := habove 1 (by omega) (by omega)
    linarith
  have hlow := hbelow hcpos
  have hcne : c ≠ 2 ^ (n - 1) - 1 := fun h => by rw [h] at hlow; linarith
  have hhigh := habove (c + 1) (by omega) (by omega)
  have hdiff : ((2 * num * 2 ^ 40 : ℕ) : ℚ) - ((stUnits c n + stUnits (c + 1) n) * den : ℕ) =
      ((num : ℚ) / den - stValue c n - (stValue (c + 1) n - num / den)) * (2 ^ 40 * den) := by
    have : (den : ℚ) ≠ 0 := by exact_mod_cast hd.ne'
    push_cast
    rw [stUnits_cast c hn, stUnits_cast (c + 1) hn, ← stValue_mag (by omega), ← stValue_mag (by omega)]
    field_simp
    ring
  have hscale : (0 : ℚ) < 2 ^ 40 * den := by positivity
  have hnearLow : 2 * num * 2 ^ 40 < (stUnits c n + stUnits (c + 1) n) * den ↔ (num : ℚ) / den - stValue c n < stValue (c + 1) n - num / den := by
    rw [← Nat.cast_lt (α := ℚ), ← sub_pos, ← neg_sub, hdiff, ← neg_mul, mul_pos_iff_of_pos_right hscale, neg_sub, sub_pos]
  have hnearHigh : (stUnits c n + stUnits (c + 1) n) * den < 2 * num * 2 ^ 40 ↔ stValue (c + 1) n - num / den < (num : ℚ) / den - stValue c n := by
    rw [← Nat.cast_lt (α := ℚ), ← sub_pos, hdiff, mul_pos_iff_of_pos_right hscale, sub_pos]
  rw [show (stMag c n).1 * pow2Num ((stMag c n).2 + 40) + (stMag (c + 1) n).1 * pow2Num ((stMag (c + 1) n).2 + 40) =
    stUnits c n + stUnits (c + 1) n from rfl]
  have near {m : ℕ} (hm : m = c ∨ m = c + 1) (h) : StTo n ((num : ℚ) / den) m :=
    ⟨by omega, by omega, fun h => by linarith, fun h => by linarith, fun _ _ j _ hj hne => stNearest_of_between hn (by omega) hlow hhigh h hj hne⟩
  split
  · have := hnearLow.mp ‹_›
    exact near (.inl rfl) (.inl ⟨rfl, this.le, fun h => by linarith⟩)
  have hge := not_lt.mp (hnearLow.not.mp ‹_›)
  split
  · have := hnearHigh.mp ‹_›
    exact near (.inr rfl) (.inr ⟨rfl, this.le, fun h => by linarith⟩)
  have hle := not_lt.mp (hnearHigh.not.mp ‹_›)
  split
  · exact near (.inl rfl) (.inl ⟨rfl, hle, fun _ => ‹_›⟩)
  · exact near (.inr rfl) (.inr ⟨rfl, hge, fun _ => by omega⟩)

/-- R75: the code of a signed fraction, whose zero has no sign. -/
theorem encodeST_rule {n : ℕ} (hn : n = 8 ∨ n = 6) (s t : Bool) (num : ℕ) {den : ℕ} (hd : 0 < den) :
    FNum.StCode n (.fin t (if s then -((num : ℚ) / den) else (num : ℚ) / den)) (encodeST s num den n) := by
  have hdq : (0 : ℚ) < den := by exact_mod_cast hd
  rw [encodeST]
  rcases Nat.eq_zero_or_pos num with rfl | hnum
  · exact ⟨fun _ => rfl, fun h => absurd (by simp) h⟩
  have hpos : (0 : ℚ) < (num : ℚ) / den := by positivity
  rw [if_neg hnum.ne']
  have hmag := encodeSTMag_rule (num := num) hn hd
  cases s
  · exact ⟨fun h => absurd h hpos.ne', fun _ => ⟨_, by simpa [abs_of_pos hpos] using hmag, by simp [hpos.not_gt]⟩⟩
  · exact ⟨fun h => absurd h (neg_ne_zero.mpr hpos.ne'), fun _ => ⟨_, by simpa [abs_of_pos hpos] using hmag, by simp [hpos]⟩⟩

theorem encodeSTVal_rule {n : ℕ} (hn : n = 8 ∨ n = 6) (v : FVal) : FNum.StCode n v.num (encodeSTVal v n) := by
  cases v with
  | nan => rfl
  | inf s => rfl
  | fin s m e =>
    have := encodeST_rule hn s s (m * pow2Num e) (pow2Den_pos e)
    push_cast at this
    rwa [mul_pow2, ← neg_mul, ← ite_mul, ← sgnInt_cast] at this

/-- R74: a code that is a number decodes to few digits and a small exponent. -/
theorem decodeST_bounds {c n : ℕ} (hn : 3 ≤ n) {x e : ℤ} (h : decodeST c n = some (x, e)) :
    x.natAbs < 2 ^ (n - 2) ∧ -(3 * n : ℤ) ≤ e ∧ e ≤ 2 * n := by
  have hpos : 0 < 2 ^ (n - 2) := by positivity
  rw [decodeST] at h
  split_ifs at h
  · cases h
    exact ⟨hpos, by omega, by omega⟩
  · have := stMag_bounds (2 ^ n - c) hn
    cases h
    rwa [Int.natAbs_neg]
  · have := stMag_bounds c hn
    cases h
    rwa [Int.natAbs_natCast]

/-- A dyadic of few digits and a small exponent is exact in F32. -/
theorem numOf_froundVal_dy {r : Rnd} {x e : ℤ} (hx : x.natAbs < 2 ^ 24) (he : -149 ≤ e) (he' : e ≤ 100) :
    numOf .f32 (froundVal .f32 r (dyVal x e)) = .fin (decide (x < 0)) ((x : ℚ) * 2 ^ e) := by
  obtain ⟨k, hk⟩ := exists_magValue_eq .f32 x.natAbs (q := e) hx.le he
  have hfin : k < Fmt.infBits .f32 := (magValue_strictMono .f32).lt_iff_lt.mp (by
    rw [hk, magValue_infBits_f32]
    calc (x.natAbs : ℚ) * 2 ^ e < 2 ^ 24 * 2 ^ e := mul_lt_mul_of_pos_right (by exact_mod_cast hx) (by positivity)
      _ = 2 ^ (24 + e : ℤ) := by rw [zpow_add₀ (by norm_num)]; rfl
      _ ≤ 2 ^ (128 : ℤ) := zpow_le_zpow_right₀ (by norm_num) (by omega))
  have hquo := mul_pow2 x.natAbs e
  rw [← Nat.cast_mul] at hquo
  refine (numOf_fround (decide (x < 0)) (pow2Den_pos e) (hquo.trans hk.symm) hfin).trans ?_
  rw [hquo, Nat.cast_natAbs]
  by_cases hneg : x < 0
  · simp [hneg, abs_of_neg hneg]
  · simp [hneg, abs_of_nonneg (not_lt.mp hneg)]

/-- R90: a tapered code is exact in F32. -/
theorem numOf_decodeST {c n : ℕ} (hn : n = 8 ∨ n = 6) {v : ℤ × ℤ} (h : decodeST c n = some v) :
    numOf .f32 (froundVal .f32 .rn (dyVal v.1 v.2)) = .fin (decide (v.1 < 0)) (stValue c n) := by
  obtain ⟨hx, he, he'⟩ := decodeST_bounds (by omega) h
  have hsmall : 2 ^ (n - 2) ≤ 2 ^ 24 := Nat.pow_le_pow_right (by norm_num) (by omega)
  rw [numOf_froundVal_dy (by omega) (by omega) (by omega), stValue, h]

theorem decodeST_none_iff (c n : ℕ) : decodeST c n = none ↔ c = 2 ^ (n - 1) := by
  have hpos : 0 < 2 ^ (n - 1) := by positivity
  rw [decodeST]
  split
  · exact ⟨fun h => (nomatch h), fun h => by omega⟩
  · split
    · exact iff_of_true rfl ‹_›
    · exact ⟨fun h => (by split at h <;> cases h), fun h => absurd h ‹_›⟩

end Sys2Proof.Machine
end

section
/-! PROOFS. The conversions among number formats and to and from integers (R90 to R92). -/

namespace Sys2Proof.Machine

/-- R90: each conversion among formats. -/
theorem CvtF.eval_rule (op : CvtF) (r : Rnd) (ftz : Bool) (x : ℕ) : match op with
    | .f16f32 => FNum.To .f16 r ftz (numIn .f32 ftz x) (CvtF.eval op r ftz x)
    | .bf16f32 => FNum.To .bf16 r ftz (numIn .f32 ftz x) (CvtF.eval op r ftz x)
    | .f32f16 => FNum.To .f32 .rn ftz (numIn .f16 ftz (x % 2 ^ 16)) (CvtF.eval op r ftz x)
    | .f32bf16 => FNum.To .f32 .rn ftz (numIn .bf16 ftz (x % 2 ^ 16)) (CvtF.eval op r ftz x)
    | .bf16f16 => FNum.To .bf16 r ftz (numIn .f16 ftz (x % 2 ^ 16)) (CvtF.eval op r ftz x)
    | .f16bf16 => FNum.To .f16 r ftz (numIn .bf16 ftz (x % 2 ^ 16)) (CvtF.eval op r ftz x)
    | .st8f32 => FNum.StCode 8 (numOf .f32 x) (CvtF.eval op r ftz x)
    | .st6f32 => FNum.StCode 6 (numOf .f32 x) (CvtF.eval op r ftz x)
    | .f32st8 => if x % 2 ^ 8 = 0x80 then CvtF.eval op r ftz x = Fmt.nan .f32
        else ∃ n, numOf .f32 (CvtF.eval op r ftz x) = .fin n (stValue (x % 2 ^ 8) 8)
    | .f32st6 => if x % 2 ^ 6 = 0x20 then CvtF.eval op r ftz x = Fmt.nan .f32
        else ∃ n, numOf .f32 (CvtF.eval op r ftz x) = .fin n (stValue (x % 2 ^ 6) 6) := by
  have widen {n : ℕ} (hn : n = 8 ∨ n = 6) (c : ℕ) :
      let y := match decodeST c n with | some v => froundVal .f32 .rn (dyVal v.1 v.2) | none => Fmt.nan .f32
      if c = 2 ^ (n - 1) then y = Fmt.nan .f32 else ∃ s, numOf .f32 y = .fin s (stValue c n) := by
    intro y
    split
    · have := (decodeST_none_iff c n).mpr ‹_›
      simp only [y, this]
    · obtain ⟨v, hv⟩ := Option.ne_none_iff_exists'.mp ((decodeST_none_iff c n).not.mpr ‹_›)
      simp only [y, hv]
      exact ⟨_, numOf_decodeST hn hv⟩
  cases op
  case st8f32 => exact numOf_eq .f32 x ▸ encodeSTVal_rule (.inl rfl) _
  case st6f32 => exact numOf_eq .f32 x ▸ encodeSTVal_rule (.inr rfl) _
  case f32st8 => exact widen (.inl rfl) (x % 2 ^ 8)
  case f32st6 => exact widen (.inr rfl) (x % 2 ^ 6)
  all_goals exact fconv_rule ..

/-- R91: a number rounded to an integer and held to the range of its type. -/
theorem fToInt_rule (f : Fmt) (ty : IntTy) (r : Rnd) (ftz : Bool) (a : ℕ) : match numIn f ftz a with
    | .nan => fToInt f ty r ftz a = 0
    | .inf n => fToInt f ty r ftz a = if n then IntTy.lo ty else IntTy.hi ty
    | .fin n x => ∃ k : ℕ, IntNear r n |x| k ∧ fToInt f ty r ftz a = max (IntTy.lo ty) (min (IntTy.hi ty) (if n then -(k : ℤ) else k)) := by
  rw [numIn_eq, fToInt]
  cases fdecode f (flush f ftz a) with
  | nan => rfl
  | inf s => rfl
  | fin s m e => exact ⟨_, toIntegral_near r s m e, rfl⟩

/-- R92: an integer rounded into a format. -/
theorem intToF_rule (f : Fmt) (r : Rnd) (x : ℤ) : Rounded f r false false x (intToF f r x) := by
  have := rounded_dy f r false false x 0
  rw [zpow_zero, mul_one] at this
  convert this using 1
  rw [intToF, froundDy, flush]
  split
  · rename_i h
    rw [h]; rfl
  · simp [pow2Num, pow2Den]

/-- R92: the integer that the source of a CVTIF holds. -/
theorem IntTy.val_read (ty : IntTy) (e : Env) (s : State) (a : Reg) (l : ℕ) :
    IntTy.val ty (BitVec.ofNat 64 (wideRead s e.gr e.wp a.toNat l (IntTy.regs ty))) = match ty with
      | .s32 => (e.v s a l).toInt
      | .z32 => (e.v s a l).toNat
      | .s64 => (e.d s a l).toInt
      | .z64 => (e.d s a l).toNat := by
  have hword : (BitVec.ofNat 64 (wideRead s e.gr e.wp a.toNat l 1)).setWidth 32 = e.v s a l := by
    rw [wideRead_one]
    apply BitVec.eq_of_toNat_eq
    simp [Env.v]
  cases ty
  case s32 | z32 => rw [IntTy.regs, IntTy.val, hword]
  case s64 | z64 => rfl

/-- Settles O17: each word is one computed result, by the rule of its conversion. -/
theorem floatConversionsComplete : Obligations.FloatConversionsComplete := by
  unfold Obligations.FloatConversionsComplete
  intro s e h r ftz d a b
  refine ⟨fun hi => ⟨_, fun l => frint_rule .., aluWord_completes hi rfl fun _ => rfl⟩,
    fun hi => ⟨_, fun l => fscale_rule .., aluWord_completes hi rfl fun _ => rfl⟩,
    fun op hi => ⟨_, fun l => CvtF.eval_rule .., aluWord_completes hi rfl fun _ => rfl⟩,
    fun ty fm hi => ⟨_, fun l => fToInt_rule .., ?_⟩,
    fun ty fm hi => ⟨_, fun l => ?_, aluWord_completes hi rfl fun _ => rfl⟩⟩
  · cases ty <;> exact aluWord_completes hi rfl fun l => toNat_wrap 64 _
  · rw [IntTy.val_read]
    cases ty <;> exact intToF_rule fm r _

end Sys2Proof.Machine
end

section
/-! PROOFS. Minima and maxima, compares and classes. -/

namespace Sys2Proof.Machine

/-! ## The order of encodings (R84, R85) -/

/-- The numbers of a format on both sides of zero, in rising order. -/
def signedValue (f : Fmt) (k : ℤ) : ℚ := if k < 0 then -magValue f k.natAbs else magValue f k.natAbs

theorem signedValue_strictMono (f : Fmt) : StrictMono (signedValue f) := by
  have mono := magValue_strictMono f
  have hpos (k : ℕ) : 0 ≤ magValue f k := magValue_zero f ▸ mono.monotone (Nat.zero_le k)
  intro j k hlt
  unfold signedValue
  split <;> split
  · exact neg_lt_neg (mono (by omega))
  · have : 0 < magValue f j.natAbs := magValue_zero f ▸ mono (show 0 < j.natAbs by omega)
    exact (neg_lt_zero.mpr this).trans_le (hpos _)
  · omega
  · exact mono (by omega)

theorem isNan_iff (f : Fmt) (x : ℕ) : isNan f x = true ↔ numOf f x = .nan := by
  rw [isNan, numOf, decide_eq_true_iff]
  by_cases h : Fmt.infBits f < x % Fmt.signBit f
  · exact iff_of_true h (if_pos h)
  · refine iff_of_false h ?_
    simp only [if_neg h]
    split <;> exact fun h => nomatch h

theorem fcmpKey_eq (f : Fmt) (x : ℕ) :
    fcmpKey f x = if decide (x / Fmt.signBit f % 2 = 1) then -((x % Fmt.signBit f : ℕ) : ℤ) else ((x % Fmt.signBit f : ℕ) : ℤ) := by
  simp only [fcmpKey, decide_eq_true_eq]
  split
  · rename_i h
    simp [h]
  · rfl

theorem fkey_eq (f : Fmt) (x : ℕ) :
    fkey f x = if decide (x / Fmt.signBit f % 2 = 1) then -((x % Fmt.signBit f : ℕ) : ℤ) - 1 else ((x % Fmt.signBit f : ℕ) : ℤ) := by
  simp only [fkey, decide_eq_true_eq]

theorem signedValue_neg (f : Fmt) (k : ℕ) : signedValue f (-(k : ℤ)) = -magValue f k := by
  rcases Nat.eq_zero_or_pos k with rfl | hk
  · simp [signedValue, magValue_zero]
  · rw [signedValue, if_pos (by omega), Int.natAbs_neg, Int.natAbs_natCast]

theorem signedValue_natCast (f : Fmt) (k : ℕ) : signedValue f k = magValue f k := by
  rw [signedValue, if_neg (by omega), Int.natAbs_natCast]

/-- An encoding that is a number, by its sign and the keys that compares and minima order it by. -/
theorem numOf_of_not_nan {f : Fmt} {x : ℕ} (hx : isNan f x = false) : ∃ s : Bool,
    numOf f x = (if (fcmpKey f x).natAbs = Fmt.infBits f then .inf s else .fin s (signedValue f (fcmpKey f x))) ∧
    (fcmpKey f x).natAbs ≤ Fmt.infBits f ∧ (s = true → fcmpKey f x ≤ 0 ∧ fkey f x = fcmpKey f x - 1) ∧
    (s = false → 0 ≤ fcmpKey f x ∧ fkey f x = fcmpKey f x) := by
  have hle : x % Fmt.signBit f ≤ Fmt.infBits f := not_lt.mp (decide_eq_false_iff_not.mp hx)
  refine ⟨decide (x / Fmt.signBit f % 2 = 1), ?_⟩
  rw [fcmpKey_eq, fkey_eq, numOf]
  simp only [if_neg (not_lt.mpr hle)]
  generalize x % Fmt.signBit f = mag at hle ⊢
  cases decide (x / Fmt.signBit f % 2 = 1)
  · simp [signedValue_natCast, hle]
  · simp [signedValue_neg, hle]

/-- The numbers ordered with minus zero and zero equal. -/
def FNum.less : FNum → FNum → Prop
  | .inf s, .inf t => s = true ∧ t = false
  | .inf s, .fin _ _ => s = true
  | .fin _ _, .inf t => t = false
  | .fin _ x, .fin _ y => x < y
  | _, _ => False

/-- The equality of numbers, with minus zero and zero equal. -/
def FNum.same : FNum → FNum → Prop
  | .inf s, .inf t => s = t
  | .fin _ x, .fin _ y => x = y
  | _, _ => False

theorem FNum.not_less_of_nan {a b : FNum} (h : a = .nan ∨ b = .nan) : ¬ a.less b := by
  rcases h with rfl | rfl
  · exact id
  · cases a <;> exact id

theorem FNum.not_same_of_nan {a b : FNum} (h : a = .nan ∨ b = .nan) : ¬ a.same b := by
  rcases h with rfl | rfl
  · exact id
  · cases a <;> exact id

theorem FNum.rel_iff (rel : FRel) (a b : FNum) : FNum.Rel rel a b ↔ match rel with
    | .eq => a.same b
    | .ne => ¬ a.same b
    | .lt => a.less b
    | .le => a.less b ∨ a.same b
    | .gt => b.less a
    | .ge => b.less a ∨ a.same b
    | .un => a = .nan ∨ b = .nan := by
  cases rel <;> cases a <;> cases b <;> rfl

section
variable {f : Fmt} {a b : ℕ} (ha : isNan f a = false) (hb : isNan f b = false)
include ha hb

theorem less_iff_key : (numOf f a).less (numOf f b) ↔ fcmpKey f a < fcmpKey f b := by
  obtain ⟨s, hna, hale, hsneg, hspos⟩ := numOf_of_not_nan ha
  obtain ⟨t, hnb, hble, htneg, htpos⟩ := numOf_of_not_nan hb
  have hinf := infBits_pos f
  rw [hna, hnb]
  split <;> split
  · cases s <;> cases t <;> simp [FNum.less] at * <;> omega
  · cases s <;> simp [FNum.less] at * <;> omega
  · cases t <;> simp [FNum.less] at * <;> omega
  · exact (signedValue_strictMono f).lt_iff_lt

theorem same_iff_key : (numOf f a).same (numOf f b) ↔ fcmpKey f a = fcmpKey f b := by
  obtain ⟨s, hna, hale, hsneg, hspos⟩ := numOf_of_not_nan ha
  obtain ⟨t, hnb, hble, htneg, htpos⟩ := numOf_of_not_nan hb
  have hinf := infBits_pos f
  rw [hna, hnb]
  split <;> split
  · cases s <;> cases t <;> simp [FNum.same] at * <;> omega
  · simp only [FNum.same, false_iff]; omega
  · simp only [FNum.same, false_iff]; omega
  · exact (signedValue_strictMono f).injective.eq_iff

theorem below_iff_key : (numOf f a).below (numOf f b) ↔ fkey f a < fkey f b := by
  obtain ⟨s, hna, hale, hsneg, hspos⟩ := numOf_of_not_nan ha
  obtain ⟨t, hnb, hble, htneg, htpos⟩ := numOf_of_not_nan hb
  have hinf := infBits_pos f
  have hmono := (signedValue_strictMono f).lt_iff_lt (a := fcmpKey f a) (b := fcmpKey f b)
  have hinj := (signedValue_strictMono f).injective.eq_iff (a := fcmpKey f a) (b := fcmpKey f b)
  rw [hna, hnb]
  split <;> split
  · cases s <;> cases t <;> simp [FNum.below] at * <;> omega
  · cases s <;> cases t <;> simp [FNum.below] at * <;> omega
  · cases s <;> cases t <;> simp [FNum.below] at * <;> omega
  · simp only [FNum.below, hmono, hinj]
    cases s <;> cases t <;> simp at * <;> omega

end

/-- R84: minima and maxima. -/
theorem fmnx_rule (f : Fmt) (mx : Bool) (a b : ℕ) : MinMaxTo f mx a b (fmnx f mx a b) := by
  rw [MinMaxTo, fmnx]
  simp only [← isNan_iff]
  cases ha : isNan f a <;> cases hb : isNan f b
  · have hab := below_iff_key ha hb
    have hba := below_iff_key hb ha
    simp only [Bool.false_eq_true, if_false, Bool.and_false, hab, hba]
    cases mx
    · simp only [Bool.false_eq_true, if_false]
      refine ⟨fun h => if_neg h.not_gt, fun h => if_pos h, ?_⟩
      split
      · exact .inr rfl
      · exact .inl rfl
    · simp only [if_true]
      refine ⟨fun h => if_pos h, fun h => if_neg h.not_gt, ?_⟩
      split
      · exact .inr rfl
      · exact .inl rfl
  all_goals simp

/-- R85: compares. -/
theorem fcmp_rule (f : Fmt) (rel : FRel) (a b : ℕ) : fcmp f rel a b = true ↔ FNum.Rel rel (numOf f a) (numOf f b) := by
  rw [FNum.rel_iff]
  by_cases hnan : isNan f a = true ∨ isNan f b = true
  · have hno : numOf f a = .nan ∨ numOf f b = .nan := hnan.imp (isNan_iff f a).mp (isNan_iff f b).mp
    have hor : (isNan f a || isNan f b) = true := by simpa using hnan
    have hless := FNum.not_less_of_nan hno
    have hmore := FNum.not_less_of_nan hno.symm
    have hsame := FNum.not_same_of_nan hno
    unfold fcmp
    rw [if_pos hor]
    cases rel <;> simp [hno, hless, hmore, hsame]
  · obtain ⟨ha, hb⟩ : isNan f a = false ∧ isNan f b = false := by simpa using hnan
    have hno : ¬ (numOf f a = .nan ∨ numOf f b = .nan) := by rwa [← isNan_iff, ← isNan_iff]
    unfold fcmp
    simp only [ha, hb, less_iff_key ha hb, less_iff_key hb ha, same_iff_key ha hb]
    cases rel
    case un => exact iff_of_false Bool.false_ne_true hno
    case le => exact decide_eq_true_iff.trans le_iff_lt_or_eq
    case ge => exact decide_eq_true_iff.trans (le_iff_lt_or_eq.trans (or_congr_right eq_comm))
    all_goals exact decide_eq_true_iff

/-- R86: the class by exponent and fraction fields. -/
theorem fclass_eq (f : Fmt) (v : ℕ) : fclass f (v % 2 ^ Fmt.width f) =
    (let x := v % 2 ^ Fmt.width f
     let minus := x / 2 ^ (Fmt.width f - 1) = 1
     let ex := x / 2 ^ Fmt.frac f % 2 ^ Fmt.expo f
     let fr := x % 2 ^ Fmt.frac f
     if ex = 2 ^ Fmt.expo f - 1 then
        (if fr = 0 then (if minus then 2 ^ 0 else 2 ^ 7) else if fr / 2 ^ (Fmt.frac f - 1) = 0 then 2 ^ 8 else 2 ^ 9)
      else if ex = 0 then (if fr = 0 then (if minus then 2 ^ 3 else 2 ^ 4) else if minus then 2 ^ 2 else 2 ^ 5)
      else if minus then 2 ^ 1 else 2 ^ 6) := by
  have hlt : v % 2 ^ Fmt.width f < 2 ^ Fmt.width f := Nat.mod_lt _ (by positivity)
  simp only [fclass]
  generalize v % 2 ^ Fmt.width f = x at hlt ⊢
  have hminus : decide (x / Fmt.signBit f % 2 = 1) = true ↔ x / 2 ^ (Fmt.width f - 1) = 1 := by
    rw [decide_eq_true_iff]
    cases f <;> simp only [Fmt.signBit, Fmt.width, Fmt.frac, Fmt.expo] at hlt ⊢ <;> omega
  have hex : x / 2 ^ Fmt.frac f % 2 ^ Fmt.expo f = x % Fmt.signBit f / 2 ^ Fmt.frac f := by
    cases f <;> simp only [Fmt.signBit, Fmt.width, Fmt.frac, Fmt.expo] at hlt ⊢ <;> omega
  have hfr : x % 2 ^ Fmt.frac f = x % Fmt.signBit f % 2 ^ Fmt.frac f := by
    cases f <;> simp only [Fmt.signBit, Fmt.width, Fmt.frac, Fmt.expo] at hlt ⊢ <;> omega
  have hmag : x % Fmt.signBit f < (2 ^ Fmt.expo f - 1) * 2 ^ Fmt.frac f + 2 ^ Fmt.frac f := by
    cases f <;> simp only [Fmt.signBit, Fmt.width, Fmt.frac, Fmt.expo] at hlt ⊢ <;> omega
  have htop : 2 ^ Fmt.expo f - 1 ≠ 0 := by cases f <;> decide
  simp only [hminus, hex, hfr, Fmt.infBits]
  generalize x % Fmt.signBit f = mag at hmag ⊢
  have hparts := Nat.div_add_mod' mag (2 ^ Fmt.frac f)
  have hlow : mag % 2 ^ Fmt.frac f < 2 ^ Fmt.frac f := Nat.mod_lt _ (by positivity)
  generalize mag / 2 ^ Fmt.frac f = ex at hparts ⊢
  generalize mag % 2 ^ Fmt.frac f = fr at hparts hlow ⊢
  generalize 2 ^ Fmt.expo f - 1 = top at hmag htop ⊢
  generalize 2 ^ Fmt.frac f = P at hparts hlow hmag ⊢
  have hle : ex ≤ top := by by_contra h; nlinarith
  rcases hle.lt_or_eq with hlt | rfl
  · have : (ex + 1) * P ≤ top * P := Nat.mul_le_mul_right P hlt
    rw [if_neg (by nlinarith), if_neg (by nlinarith), if_neg hlt.ne]
    rcases Nat.eq_zero_or_pos ex with rfl | hpos
    · rw [if_neg (by omega), if_pos rfl]
      by_cases hz : fr = 0
      · rw [if_neg (by omega), if_pos hz]
      · rw [if_pos (by omega), if_neg hz]
    · rw [if_pos (by nlinarith), if_neg hpos.ne']
  · rw [if_pos rfl]
    by_cases hz : fr = 0
    · rw [if_neg (by omega), if_pos (by omega), if_pos hz]
    · rw [if_pos (by omega), if_neg hz]

end Sys2Proof.Machine
end

section
/-! PROOFS. Quantised codes (R77, R95, R96). -/

namespace Sys2Proof.Machine

/-! ## Half-step codes (R77) -/

/-- The quotient of two dyadics as a fraction. -/
theorem dyQuotient (m n : ℕ) (e e' : ℤ) :
    ((m * pow2Num (e - e') : ℕ) : ℚ) / ((n * pow2Den (e - e') : ℕ) : ℚ) = (m : ℚ) * 2 ^ e / ((n : ℚ) * 2 ^ e') := by
  have hden : ((pow2Den (e - e') : ℕ) : ℚ) ≠ 0 := by exact_mod_cast (pow2Den_pos (e - e')).ne'
  rw [Nat.cast_mul, Nat.cast_mul, pow2Num_eq, zpow_sub₀ (by norm_num)]
  field_simp

/-- R77: the half-step code of an exact quotient. -/
theorem quantHS_rule {w : ℕ} (s t : Bool) (num : ℕ) {den : ℕ} (hd : 0 < den) {x scale : ℚ}
    (hx : x / scale = if s then -((num : ℚ) / den) else (num : ℚ) / den) : FNum.HsCode w scale (.fin t x) (quantHS s num den w) := by
  have hdq : (0 : ℚ) < den := by exact_mod_cast hd
  have hdz : (den : ℤ) ≠ 0 := by exact_mod_cast hd.ne'
  obtain ⟨q, hq⟩ : ∃ q : ℤ, (if s then -(num : ℤ) else num) = q := ⟨_, rfl⟩
  have hquo : x / scale = q / den := by
    rw [hx, ← hq]
    cases s <;> simp [neg_div]
  have hcast (k : ℤ) : (((clampInt (-(2 ^ (w - 1))) (2 ^ (w - 1) - 1) k) % 2 ^ w).toNat : ℤ) =
      max (-(2 ^ (w - 1))) (min (2 ^ (w - 1) - 1) k) % 2 ^ w := Int.toNat_of_nonneg (Int.emod_nonneg _ (by positivity))
  have hparts : (q : ℚ) = den * (q / (den : ℤ) : ℤ) + (q % (den : ℤ) : ℤ) := by exact_mod_cast (Int.mul_ediv_add_emod q den).symm
  simp only [quantHS, hq]
  refine ⟨_, hcast _, ?_⟩
  rw [hquo]
  generalize q / (den : ℤ) = fl at hparts ⊢
  have hrem : 0 ≤ q % (den : ℤ) := Int.emod_nonneg _ hdz
  have hrem' : q % (den : ℤ) < den := Int.emod_lt_of_pos _ (by exact_mod_cast hd)
  generalize q % (den : ℤ) = rem at hparts hrem hrem' ⊢
  split
  · have hint : (q : ℚ) / den = fl := by
      rw [hparts, ‹rem = 0›]
      field_simp
      simp
    split
    · exact .inr (.inl ⟨hint, ‹_›⟩)
    · exact .inr (.inr ⟨by rw [hint]; push_cast; ring, by omega⟩)
  · have h0 : (0 : ℚ) < rem := by exact_mod_cast (show 0 < rem by omega)
    have h1 : (rem : ℚ) < den := by exact_mod_cast hrem'
    refine .inl ⟨?_, ?_⟩
    · rw [lt_div_iff₀ hdq]; linarith
    · rw [div_lt_iff₀ hdq]; linarith

theorem FNum.HsCode.lt {w : ℕ} (hw : 0 < w) {sc : ℚ} {x : FNum} {c : ℕ} (h : FNum.HsCode w sc x c) : c < 2 ^ w := by
  have hpow : 2 ^ w = 2 ^ (w - 1) + 2 ^ (w - 1) := by rw [← Nat.two_pow_succ, Nat.sub_add_cancel hw]
  have hpos : 0 < 2 ^ (w - 1) := by positivity
  cases x with
  | nan => rw [show c = 2 ^ (w - 1) from h]; omega
  | inf s => rw [show c = if s then 2 ^ (w - 1) else 2 ^ (w - 1) - 1 from h]; split <;> omega
  | fin s x =>
    obtain ⟨k, hk, -⟩ := h
    have : (c : ℤ) < 2 ^ w := hk ▸ Int.emod_lt_of_pos _ (by positivity)
    exact_mod_cast this

theorem FNum.StCode.lt {n : ℕ} (hn : 1 < n) {x : FNum} {c : ℕ} (h : FNum.StCode n x c) : c < 2 ^ n := by
  have hpow : 2 ^ n = 2 ^ (n - 1) + 2 ^ (n - 1) := by rw [← Nat.two_pow_succ, Nat.sub_add_cancel (by omega)]
  have hpos : 1 < 2 ^ (n - 1) := Nat.one_lt_two_pow (by omega)
  cases x with
  | nan => rw [show c = 2 ^ (n - 1) from h]; omega
  | inf s => rw [show c = if s then 2 ^ (n - 1) + 1 else 2 ^ (n - 1) - 1 from h]; split <;> omega
  | fin s x =>
    by_cases hx : x = 0
    · rw [h.1 hx]; omega
    · obtain ⟨m, ⟨hm, hlt, -⟩, rfl⟩ := h.2 hx
      split <;> omega

/-! ## Scales and FQUANT (R95) -/

/-- An F32 encoding is a valid scale. -/
def ValidScale (b : ℕ) (sc : ℚ) : Prop := ∃ n, numOf .f32 b = .fin n sc ∧ 0 < sc

theorem scaleOk_cases (v : FVal) : (scaleOk v = true ∧ ∃ m e, v = .fin false m e ∧ 0 < m) ∨
    (scaleOk v = false ∧ ∀ n sc, v.num = .fin n sc → ¬ 0 < sc) := by
  cases v with
  | nan => exact .inr ⟨rfl, fun n sc h => nomatch h⟩
  | inf s => exact .inr ⟨rfl, fun n sc h => nomatch h⟩
  | fin s m e =>
    have h2 : (0 : ℚ) < 2 ^ e := by positivity
    rcases Nat.eq_zero_or_pos m with rfl | hm
    · refine .inr ⟨by simp [scaleOk], fun n sc h => ?_⟩
      cases h
      cases s <;> simp [sgnInt]
    cases s
    · exact .inl ⟨by simp [scaleOk, hm.ne'], m, e, rfl, hm⟩
    · refine .inr ⟨rfl, fun n sc h => ?_⟩
      cases h
      have : (0 : ℚ) ≤ m * 2 ^ e := by positivity
      simpa [sgnInt] using this

theorem scaleOk_iff (b : ℕ) : scaleOk (fdecode .f32 b) = false ↔ ∀ sc, ¬ ValidScale b sc := by
  unfold ValidScale
  rw [numOf_eq]
  rcases scaleOk_cases (fdecode .f32 b) with ⟨hok, m, e, hv, hm⟩ | ⟨hok, hbad⟩
  · rw [hok, hv]
    refine iff_of_false (by decide) fun h => h (m * 2 ^ e) ⟨false, rfl, ?_⟩
    positivity
  · exact iff_of_true hok fun sc ⟨n, h, hpos⟩ => hbad n sc h hpos

theorem fquant_faults (q : QFmt) (a b : ℕ) : (fquant q a b).2 = true ↔ numOf .f32 a = .nan ∨ ∀ sc, ¬ ValidScale b sc := by
  rw [← scaleOk_iff, numOf_eq]
  have hnan (v : FVal) : v = .nan ↔ v.num = .nan := by cases v <;> simp [FVal.num]
  rw [← hnan]
  by_cases h : fdecode .f32 a = .nan ∨ scaleOk (fdecode .f32 b) = false
  · exact iff_of_true (by simp only [fquant, if_pos h]) h
  · refine iff_of_false ?_ h
    simp only [fquant, if_neg h]
    split <;> exact Bool.false_ne_true

theorem fquant_invalid (q : QFmt) (a : ℕ) {b : ℕ} (h : ∀ sc, ¬ ValidScale b sc) : (fquant q a b).1 = 2 ^ (QFmt.width q - 1) := by
  simp only [fquant, (scaleOk_iff b).mpr h, or_true, if_true]

theorem quantCode_rule (q : QFmt) (v : FVal) {sm : ℕ} (se : ℤ) (hm : 0 < sm) :
    (QFmt.half q = true → FNum.HsCode (QFmt.width q) (sm * 2 ^ se) v.num (quantCode q v sm se)) ∧
    (QFmt.half q = false → FNum.StCode (QFmt.width q) (v.num.mul (.fin false (1 / (sm * 2 ^ se)))) (quantCode q v sm se)) := by
  have hwidth : QFmt.half q = false → QFmt.width q = 8 ∨ QFmt.width q = 6 := by cases q <;> decide
  have hsm : (0 : ℚ) < sm := by exact_mod_cast hm
  have hinv : 1 / ((sm : ℚ) * 2 ^ se) ≠ 0 := by positivity
  cases v with
  | nan => exact ⟨fun _ => rfl, fun _ => rfl⟩
  | inf s =>
    refine ⟨fun hq => if_pos hq, fun hq => ?_⟩
    rw [show quantCode q (.inf s) sm se = encodeSTVal (.inf s) (QFmt.width q) from if_neg (by simp [hq]), FVal.num, FNum.mul, if_neg hinv,
      Bool.bne_false]
    exact encodeSTVal_rule (hwidth hq) (.inf s)
  | fin s m e =>
    have hden : 0 < sm * pow2Den (e - se) := Nat.mul_pos hm (pow2Den_pos _)
    have hquo := dyQuotient m sm e se
    refine ⟨fun hq => ?_, fun hq => ?_⟩
    · rw [show quantCode q (.fin s m e) sm se = quantHS s (m * pow2Num (e - se)) (sm * pow2Den (e - se)) (QFmt.width q) from if_pos hq]
      refine quantHS_rule s s _ hden ?_
      rw [hquo, sgnInt_cast]
      cases s <;> simp [neg_div]
    · rw [show quantCode q (.fin s m e) sm se = encodeST s (m * pow2Num (e - se)) (sm * pow2Den (e - se)) (QFmt.width q) from
        if_neg (by simp [hq]), FVal.num, FNum.mul, Bool.bne_false]
      have := encodeST_rule (hwidth hq) s s (m * pow2Num (e - se)) hden
      rw [hquo] at this
      convert this using 2
      rw [sgnInt_cast]
      cases s <;> simp [div_eq_mul_inv]

/-- The code of a number at a valid scale. -/
theorem fquant_code (q : QFmt) (a : ℕ) {b : ℕ} {sc : ℚ} (h : ValidScale b sc) :
    (QFmt.half q = true → FNum.HsCode (QFmt.width q) sc (numOf .f32 a) (fquant q a b).1) ∧
    (QFmt.half q = false → FNum.StCode (QFmt.width q) ((numOf .f32 a).mul (.fin false (1 / sc))) (fquant q a b).1) := by
  obtain ⟨n, hn, hpos⟩ := h
  rw [numOf_eq] at hn
  rcases scaleOk_cases (fdecode .f32 b) with ⟨hok, sm, se, hv, hm⟩ | ⟨-, hbad⟩
  · have hsc : sc = sm * 2 ^ se := by
      rw [hv] at hn
      cases hn
      simp [sgnInt]
    have hcode : (fquant q a b).1 = quantCode q (fdecode .f32 a) sm se := by
      rw [hv] at hok
      simp only [fquant, hv, hok, Bool.true_eq_false, or_false]
      split
      · rw [‹fdecode .f32 a = .nan›]; rfl
      · rfl
    rw [hcode, hsc, numOf_eq]
    exact quantCode_rule q _ se hm
  · exact absurd hpos (hbad n sc hn)

theorem fquant_lt (q : QFmt) (a b : ℕ) : (fquant q a b).1 < 2 ^ QFmt.width q := by
  have hwidth : 1 < QFmt.width q := by cases q <;> decide
  by_cases h : ∃ sc, ValidScale b sc
  · obtain ⟨sc, h⟩ := h
    obtain ⟨hhalf, htapered⟩ := fquant_code q a h
    cases hq : QFmt.half q
    · exact (htapered hq).lt hwidth
    · exact (hhalf hq).lt (by omega)
  · rw [fquant_invalid q a (not_exists.mp h)]
    exact Nat.pow_lt_pow_right (by norm_num) (by omega)

/-- A code put into its field, and the other bits as they were. -/
theorem getLsbD_putField (q : QFmt) (k : ℕ) {c : ℕ} (hc : c < 2 ^ QFmt.step q) (x : Word) {i : ℕ} (hi : i < 32) :
    (putField q k c x).getLsbD i =
      if QFmt.step q * k ≤ i ∧ i < QFmt.step q * k + QFmt.step q then c.testBit (i - QFmt.step q * k) else x.getLsbD i := by
  generalize hat : QFmt.step q * k = p
  simp only [putField, hat, BitVec.getLsbD_or, BitVec.getLsbD_and, BitVec.getLsbD_not, BitVec.getLsbD_ofNat, Nat.testBit_mul_two_pow,
    Nat.testBit_two_pow_sub_one, decide_eq_true hi, Bool.true_and]
  by_cases hp : p ≤ i
  · by_cases hs : i - p < QFmt.step q
    · simp [hp, hs, show i < p + QFmt.step q by omega]
    · have : c.testBit (i - p) = false := Nat.testBit_lt_two_pow (hc.trans_le (Nat.pow_le_pow_right (by norm_num) (by omega)))
      simp [hp, hs, this, show ¬ i < p + QFmt.step q by omega]
  · simp [hp]

/-! ## FDEQ (R96) -/

theorem dyVal_num (x e : ℤ) : (dyVal x e).num = .fin (decide ((x : ℚ) * 2 ^ e < 0)) ((x : ℚ) * 2 ^ e) := by
  have hsign : (x : ℚ) * 2 ^ e < 0 ↔ x < 0 := (mul_two_zpow_neg_iff _ e).trans Int.cast_lt_zero
  have habs : (sgnInt (decide (x < 0)) x.natAbs : ℤ) = x := by
    by_cases h : x < 0
    · simp [sgnInt, h, abs_of_neg h]
    · simp [sgnInt, h, abs_of_nonneg (not_lt.mp h)]
  rw [dyVal, FVal.num, habs]
  simp only [hsign]

/-- A code of a value times a scale. -/
theorem fdeq_rule {q : QFmt} (r : Rnd) (ftz : Bool) {c : ℕ} (sc : ℕ) {v : ℤ × ℤ} {y : ℚ}
    (hv : codeVal q c = some v) (hy : y = (v.1 : ℚ) * 2 ^ v.2) :
    FNum.To .f32 r ftz ((FNum.fin (decide (y < 0)) y).mul (numIn .f32 ftz sc)) (fdeq q r ftz c sc) := by
  rw [hy, ← dyVal_num, numIn_eq, ← mul_num, fdeq, hv]
  exact froundVal_rule .f32 r ftz _

theorem fdeq_half {q : QFmt} (hq : QFmt.half q = true) (r : Rnd) (ftz : Bool) (c sc : ℕ) :
    let y : ℚ := (if 2 ^ (QFmt.width q - 1) ≤ c then (c : ℚ) - 2 ^ QFmt.width q else c) + 1 / 2
    FNum.To .f32 r ftz ((FNum.fin (decide (y < 0)) y).mul (numIn .f32 ftz sc)) (fdeq q r ftz c sc) := by
  refine fdeq_rule r ftz sc (if_pos hq) ?_
  simp only [codeInt, ge_iff_le]
  split <;> push_cast <;> ring

theorem fdeq_tapered {q : QFmt} (hq : QFmt.half q = false) (r : Rnd) (ftz : Bool) (c sc : ℕ) :
    if c = 2 ^ (QFmt.width q - 1) then fdeq q r ftz c sc = Fmt.nan .f32
    else FNum.To .f32 r ftz ((FNum.fin (decide (stValue c (QFmt.width q) < 0)) (stValue c (QFmt.width q))).mul (numIn .f32 ftz sc))
      (fdeq q r ftz c sc) := by
  have hcode : codeVal q c = decodeST c (QFmt.width q) := if_neg (by simp [hq])
  have hnone := decodeST_none_iff c (QFmt.width q)
  split
  · rw [fdeq, hcode, hnone.mpr ‹_›]
  · obtain ⟨v, hv⟩ := Option.ne_none_iff_exists'.mp (hnone.not.mpr ‹_›)
    exact fdeq_rule r ftz sc (hcode.trans hv) (by rw [stValue, hv])

/-! ## The words -/

/-- The lanes in which FQUANT finds no number or no valid scale. -/
def quantBad (q : QFmt) (a b : Reg) (s : State) (e : Env) : Mask :=
  e.live &&& maskOf fun l => (fquant q (e.v s a l).toNat (e.v s b l).toNat).2

theorem bit_quantBad (q : QFmt) (a b : Reg) (s : State) (e : Env) (l : ℕ) : bit (quantBad q a b s e) l = true ↔
    bit e.live l = true ∧ (numOf .f32 (e.v s a l).toNat = .nan ∨ ∀ sc, ¬ ValidScale (e.v s b l).toNat sc) := by
  rw [quantBad, bit_and, bit_maskOf, Bool.and_eq_true, Bool.and_eq_true, decide_eq_true_iff, fquant_faults]
  exact and_congr_right fun hl => and_iff_right (bit_lt hl)

theorem mask_eq_zero_iff (m : Mask) : m = 0 ↔ ∀ l, ¬ bit m l = true := by
  constructor
  · rintro rfl l
    exact (bit_zero l).symm ▸ Bool.false_ne_true
  · intro h
    exact BitVec.eq_of_getLsbD_eq fun l _ => by simpa [bit] using h l

theorem exec_fquant {h : Hdr} {q : QFmt} {k : BitVec 3} {nf : Bool} {d a b c : Reg} {s : State} {e : Env}
    (hi : Issues (.fquant h q k nf d a b c) s e) :
    exec (.fquant h q k nf d a b c) s = finish e (.fquant h q k nf d a b c)
      (if nf && quantBad q a b s e != 0 then .trap s .mfmt (quantBad q a b s e) 0xFF 0
      else .done (writeLanes e s d.toNat 1 fun l =>
        (putField q k.toNat (fquant q (e.v s a l).toNat (e.v s b l).toNat).1 (e.v s c l)).toNat)) s := by
  show execFquant h q k nf d a b c s = _
  rw [execFquant, runWord_issues hi]
  rfl

theorem fquant_traps {h : Hdr} {q : QFmt} {k : BitVec 3} {d a b c : Reg} {s : State} {e : Env} (hi : Issues (.fquant h q k true d a b c) s e)
    (hbad : ∃ l, bit (quantBad q a b s e) l = true) : Faults (.fquant h q k true d a b c) s e .mfmt (quantBad q a b s e) 0xFF 0 := by
  have hne : quantBad q a b s e ≠ 0 := fun h0 => by
    obtain ⟨l, hl⟩ := hbad
    exact (mask_eq_zero_iff _).mp h0 l hl
  rw [Faults, exec_fquant hi, if_pos (by simpa using hne), finish_trap]

theorem fquant_completes {h : Hdr} {q : QFmt} {k : BitVec 3} {nf : Bool} {d a b c : Reg} {s : State} {e : Env}
    (hi : Issues (.fquant h q k nf d a b c) s e) (hok : nf = true → ∀ l, ¬ bit (quantBad q a b s e) l = true) :
    Completes (.fquant h q k nf d a b c) s e (resultIn e d 1 fun l =>
      (putField q k.toNat (fquant q (e.v s a l).toNat (e.v s b l).toNat).1 (e.v s c l)).toNat) := by
  have hgo : ¬ (nf && quantBad q a b s e != 0) = true := by
    rw [Bool.and_eq_true, bne_iff_ne, not_and_not_right]
    exact fun hnf => (mask_eq_zero_iff _).mpr (hok hnf)
  refine aluWord_completes (f := fun e l => (putField q k.toNat (fquant q (e.v s a l).toNat (e.v s b l).toNat).1 (e.v s c l)).toNat) hi ?_
    fun _ => rfl
  rw [exec_fquant hi, if_neg hgo, aluWord, runWord_issues hi]

/-- Settles O16: minima, compares and classes are computed results; FQUANT faults where its code is none, and else puts the code of
its number into its field; FDEQ is a code's value times the scale. -/
theorem floatComparesAndCodesComplete : Obligations.FloatComparesAndCodesComplete := by
  unfold Obligations.FloatComparesAndCodesComplete
  refine ⟨fun s e h d a b => ⟨fun mx hi => ⟨_, fun l => fmnx_rule .., aluWord_completes hi rfl fun _ => rfl⟩,
      fun rel ftz hi => ⟨_, fun l => ⟨(oneIf_decides _).1, (oneIf_decides _).2.trans (fcmp_rule ..)⟩, aluWord_completes hi rfl fun _ => rfl⟩,
      fun fm hi => ⟨_, fun l => fclass_eq .., aluWord_completes hi rfl fun _ => rfl⟩⟩,
    fun s e h q k d a b c => ?_⟩
  intro w half at_ span x valid
  have hw : w = QFmt.width q := by cases q <;> rfl
  have hat : at_ = QFmt.step q * k.toNat := by cases q <;> rfl
  have hspan : span = QFmt.step q := by cases q <;> rfl
  have hhalf : half ↔ QFmt.half q = true := by cases q <;> simp [half, QFmt.half]
  refine ⟨fun hi ⟨l, hl, hbad⟩ => ⟨_, bit_quantBad q a b s e, fquant_traps hi ⟨l, (bit_quantBad q a b s e l).mpr ⟨hl, hbad⟩⟩⟩,
    fun nf hi hok => ⟨fun l => (fquant q (e.v s a l).toNat (e.v s b l).toNat).1, _, fun l => ?_, fquant_completes hi fun hnf l hbad => ?_⟩,
    fun r ftz hi => ⟨_, fun l => ?_, aluWord_completes hi rfl fun _ => rfl⟩⟩
  · have hlt := fquant_lt q (e.v s a l).toNat (e.v s b l).toNat
    have hfits : 2 ^ QFmt.width q ≤ 2 ^ QFmt.step q := by cases q <;> decide
    rw [hw, hat, hspan]
    refine ⟨hlt, fun sc hsc => ?_, fun hsc => fquant_invalid q _ hsc, fun i hi => getLsbD_putField q k.toNat (hlt.trans_le hfits) _ hi⟩
    obtain ⟨hhs, hst⟩ := fquant_code q (e.v s a l).toNat hsc
    exact ⟨fun hq => hhs (hhalf.mp hq), fun hq => hst (by simpa using hhalf.not.mp hq)⟩
  · obtain ⟨hl, hbad⟩ := (bit_quantBad q a b s e l).mp hbad
    obtain ⟨hx, sc, hsc⟩ := hok hnf l hl
    exact hbad.elim hx fun h => h sc hsc
  · rw [hw, hat]
    intro cd sc times
    split
    · exact fdeq_half (hhalf.mp ‹_›) r ftz _ _
    · exact fdeq_tapered (by simpa using hhalf.not.mp ‹_›) r ftz _ _

end Sys2Proof.Machine
end

section
/-! PROOFS. The packed floating-point words (R93, R94). -/

namespace Sys2Proof.Machine

/-! ## Results fit their format -/

theorem two_signBit (f : Fmt) : 2 ^ Fmt.width f = Fmt.signBit f + Fmt.signBit f := by cases f <;> rfl

theorem signed_lt {f : Fmt} (s : Bool) {k : ℕ} (hk : k ≤ Fmt.infBits f) : signed f s k < 2 ^ Fmt.width f := by
  have hinf := infBits_lt_signBit f
  rw [two_signBit, signed]
  split <;> omega

theorem nan_lt (f : Fmt) : Fmt.nan f < 2 ^ Fmt.width f := by cases f <;> decide

theorem flush_le (f : Fmt) (ftz : Bool) (n : ℕ) : flush f ftz n ≤ n := by
  rw [flush]
  split
  · exact (Nat.mul_le_mul_right _ (Nat.mod_le ..)).trans (Nat.div_mul_le_self ..)
  · exact le_refl n

section
variable {f : Fmt} {r : Rnd} {ftz : Bool} {n : ℕ}

theorem RoundsTo.lt {s : Bool} {x : ℚ} (h : RoundsTo f r s x n) : n < 2 ^ Fmt.width f := by
  obtain ⟨k, -, rfl⟩ := h
  have hover (b : Bool) : (if b then Fmt.infBits f else Fmt.infBits f - 1) ≤ Fmt.infBits f := by split <;> omega
  refine signed_lt s ?_
  split
  · exact le_of_lt ‹_›
  · exact hover _

theorem Rounded.lt {z : Bool} {x : ℚ} (h : Rounded f r ftz z x n) : n < 2 ^ Fmt.width f := by
  obtain ⟨m, rfl, hzero, hround⟩ := h
  refine (flush_le ..).trans_lt ?_
  by_cases hx : x = 0
  · rw [hzero hx]
    exact signed_lt z (Nat.zero_le _)
  · exact (hround hx).lt

theorem FNum.To.lt {x : FNum} (h : FNum.To f r ftz x n) : n < 2 ^ Fmt.width f := by
  cases x with
  | nan => exact h ▸ nan_lt f
  | inf s => exact h ▸ signed_lt s le_rfl
  | fin s x => exact Rounded.lt h

theorem FNum.AddTo.lt {x y : FNum} (h : FNum.AddTo f r ftz x y n) : n < 2 ^ Fmt.width f := by
  cases x with
  | nan => cases y <;> exact h ▸ nan_lt f
  | inf s =>
    cases y with
    | nan => exact h ▸ nan_lt f
    | inf t =>
      rw [show n = if s = t then signed f s (Fmt.infBits f) else Fmt.nan f from h]
      split
      · exact signed_lt s le_rfl
      · exact nan_lt f
    | fin t y => exact h ▸ signed_lt s le_rfl
  | fin s x =>
    cases y with
    | nan => exact h ▸ nan_lt f
    | inf t => exact h ▸ signed_lt t le_rfl
    | fin t y => exact Rounded.lt h

end

theorem fmnx_lt {f : Fmt} (mx : Bool) {a b : ℕ} (ha : a < 2 ^ Fmt.width f) (hb : b < 2 ^ Fmt.width f) : fmnx f mx a b < 2 ^ Fmt.width f := by
  have hnan := nan_lt f
  rw [fmnx]
  split_ifs <;> assumption

/-! ## The halves of a register -/

theorem width_halfFmt (bf : Bool) : Fmt.width (halfFmt bf) = 16 := by cases bf <;> rfl

theorem toNat_packed {g : ℕ → ℕ → ℕ} (a b : Word) (hg : ∀ x y, x < 2 ^ 16 → y < 2 ^ 16 → g x y < 2 ^ 16) :
    (packed g a b).toNat = g (a.toNat % 2 ^ 16) (b.toNat % 2 ^ 16) + 2 ^ 16 * g (a.toNat / 2 ^ 16) (b.toNat / 2 ^ 16) := by
  have ha := a.isLt
  have hb := b.isLt
  have hlow := hg (a.toNat % 2 ^ 16) (b.toNat % 2 ^ 16) (Nat.mod_lt _ (by decide)) (Nat.mod_lt _ (by decide))
  have hhigh := hg (a.toNat / 2 ^ 16) (b.toNat / 2 ^ 16) (by omega) (by omega)
  rw [packed, BitVec.toNat_ofNat]
  norm_num at *
  omega

theorem toNat_packed3 {g : ℕ → ℕ → ℕ → ℕ} (a b c : Word) (hg : ∀ x y z, g x y z < 2 ^ 16) :
    (packed3 g a b c).toNat = g (a.toNat % 2 ^ 16) (b.toNat % 2 ^ 16) (c.toNat % 2 ^ 16) +
      2 ^ 16 * g (a.toNat / 2 ^ 16) (b.toNat / 2 ^ 16) (c.toNat / 2 ^ 16) := by
  have hlow := hg (a.toNat % 2 ^ 16) (b.toNat % 2 ^ 16) (c.toNat % 2 ^ 16)
  have hhigh := hg (a.toNat / 2 ^ 16) (b.toNat / 2 ^ 16) (c.toNat / 2 ^ 16)
  rw [packed3, BitVec.toNat_ofNat]
  norm_num at *
  omega

/-! ## Sums of three (R94) -/

/-- The sign of a zero matters only to a zero. -/
theorem Rounded.of_sign {f : Fmt} {r : Rnd} {ftz z z' : Bool} {x : ℚ} {n : ℕ} (h : Rounded f r ftz z x n) (hz : x = 0 → z = z') :
    Rounded f r ftz z' x n := by
  obtain ⟨m, hm, hzero, hround⟩ := h
  exact ⟨m, hm, fun hx => hz hx ▸ hzero hx, hround⟩

/-- Three numbers of one sign whose sum is zero are zero. -/
theorem zero_of_sum_zero {s : Bool} {m1 m2 m3 : ℕ} {e1 e2 e3 : ℤ}
    (h : ((sgnInt s m1 : ℤ) : ℚ) * 2 ^ e1 + (sgnInt s m2 : ℤ) * 2 ^ e2 + (sgnInt s m3 : ℤ) * 2 ^ e3 = 0) : m1 = 0 ∧ m2 = 0 ∧ m3 = 0 := by
  have hnonneg (m : ℕ) (e : ℤ) : (0 : ℚ) ≤ m * 2 ^ e := by positivity
  have hzero {m : ℕ} (e : ℤ) (h : (m : ℚ) * 2 ^ e ≤ 0) : m = 0 := by
    have := (mul_eq_zero.mp (le_antisymm h (hnonneg m e))).resolve_right (by positivity)
    exact_mod_cast this
  have h1 := hnonneg m1 e1
  have h2 := hnonneg m2 e2
  have h3 := hnonneg m3 e3
  have hsum : (m1 : ℚ) * 2 ^ e1 + m2 * 2 ^ e2 + m3 * 2 ^ e3 = 0 := by
    simp only [sgnInt_cast] at h
    cases s <;> simp at h <;> linarith
  exact ⟨hzero e1 (by linarith), hzero e2 (by linarith), hzero e3 (by linarith)⟩

/-- The exact sum of three finite numbers, rounded once. -/
theorem sumThree_rounded (r : Rnd) (ftz : Bool) (n1 n2 n3 : Bool) (m1 m2 m3 : ℕ) (e1 e2 e3 : ℤ) :
    let s := dyAdd (sgnInt n1 m1) e1 (sgnInt n2 m2) e2
    let t := dyAdd s.1 s.2 (sgnInt n3 m3) e3
    Rounded .f32 r ftz (if n1 = n2 ∧ n2 = n3 then n1 else r == .rd)
      (((sgnInt n1 m1 : ℤ) : ℚ) * 2 ^ e1 + (sgnInt n2 m2 : ℤ) * 2 ^ e2 + (sgnInt n3 m3 : ℤ) * 2 ^ e3)
      (flush .f32 ftz (froundDy .f32 r t.1 t.2 (if m1 = 0 ∧ m2 = 0 ∧ m3 = 0 then (if n1 = n2 ∧ n2 = n3 then n1 else zeroSign r false true)
        else zeroSign r false true))) := by
  intro s t
  have hsum : (t.1 : ℚ) * 2 ^ t.2 = ((sgnInt n1 m1 : ℤ) : ℚ) * 2 ^ e1 + (sgnInt n2 m2 : ℤ) * 2 ^ e2 + (sgnInt n3 m3 : ℤ) * 2 ^ e3 := by
    rw [dyAdd_eq, dyAdd_eq]
  have hsign : zeroSign r false true = (r == .rd) := by cases r <;> rfl
  rw [← hsum, hsign]
  refine (rounded_dy ..).of_sign fun hzero => ?_
  split
  · rfl
  · rename_i hm
    refine (if_neg ?_).symm
    rintro ⟨rfl, rfl⟩
    exact hm (zero_of_sum_zero (hsum.symm.trans hzero))

/-- R94: the dot product, by what each of its three terms is. -/
theorem fdot2_rule (h : Fmt) (r : Rnd) (ftz : Bool) (a0 b0 a1 b1 c : ℕ) :
    FNum.Add3To .f32 r ftz ((numIn h ftz a0).mul (numIn h ftz b0)) ((numIn h ftz a1).mul (numIn h ftz b1)) (numIn .f32 ftz c)
      (fdot2 h r ftz a0 b0 a1 b1 c) := by
  simp only [numIn_eq, ← mul_num, fdot2]
  generalize mulExact (fdecode h (flush h ftz a0)) (fdecode h (flush h ftz b0)) = p
  generalize mulExact (fdecode h (flush h ftz a1)) (fdecode h (flush h ftz b1)) = q
  generalize fdecode .f32 (flush .f32 ftz c) = z
  have hnan := flush_nan .f32 ftz
  have hminus := flush_inf .f32 ftz true
  have hplus : flush .f32 ftz (Fmt.infBits .f32) = Fmt.infBits .f32 := flush_inf .f32 ftz false
  have hplain : signed .f32 false (Fmt.infBits .f32) = Fmt.infBits .f32 := rfl
  cases p with
  | nan => cases q <;> cases z <;> exact hnan
  | inf s =>
    cases q with
    | nan => cases z <;> exact hnan
    | inf t =>
      cases z with
      | nan => exact hnan
      | inf u => cases s <;> cases t <;> cases u <;> simp [FNum.Add3To, FVal.num, hnan, hminus, hplus, hplain]
      | fin => cases s <;> cases t <;> simp [FNum.Add3To, FVal.num, hnan, hminus, hplus, hplain]
    | fin =>
      cases z with
      | nan => exact hnan
      | inf u => cases s <;> cases u <;> simp [FNum.Add3To, FVal.num, hnan, hminus, hplus, hplain]
      | fin => cases s <;> simp [FNum.Add3To, FVal.num, hminus, hplus, hplain]
  | fin =>
    cases q with
    | nan => cases z <;> exact hnan
    | inf t =>
      cases z with
      | nan => exact hnan
      | inf u => cases t <;> cases u <;> simp [FNum.Add3To, FVal.num, hnan, hminus, hplus, hplain]
      | fin => cases t <;> simp [FNum.Add3To, FVal.num, hminus, hplus, hplain]
    | fin =>
      cases z with
      | nan => exact hnan
      | inf u => cases u <;> simp [FNum.Add3To, FVal.num, hminus, hplus, hplain]
      | fin => exact sumThree_rounded ..

/-! ## The words -/

/-- A word that applies one operation to the halves of two registers. -/
theorem packedWord_completes {i : Instr} {s : State} {e : Env} {d a b : Reg} {g : ℕ → ℕ → ℕ} (hi : Issues i s e)
    (hx : exec i s = aluWord i s d 1 fun e l => (packed g (e.v s a l) (e.v s b l)).toNat)
    (hg : ∀ x y, x < 2 ^ 16 → y < 2 ^ 16 → g x y < 2 ^ 16) :
    Completes i s e (resultIn e d 1 fun l => g ((e.v s a l).toNat % 2 ^ 16) ((e.v s b l).toNat % 2 ^ 16) +
      2 ^ 16 * g ((e.v s a l).toNat / 2 ^ 16) ((e.v s b l).toNat / 2 ^ 16)) :=
  aluWord_completes hi hx fun _ => toNat_packed _ _ hg

/-- Settles O18: each packed word is one computed result of two halves, each by the rule of the single-value word. -/
theorem packedFloatComplete : Obligations.PackedFloatComplete := by
  unfold Obligations.PackedFloatComplete
  intro s e h bf r ftz d a b c
  have hw := width_halfFmt bf
  refine ⟨fun hi => ⟨_, _, fun l => ⟨fadd_rule .., fadd_rule ..⟩, packedWord_completes hi rfl fun x y _ _ => ?_⟩,
    fun hi => ⟨_, _, fun l => ⟨fmul_rule .., fmul_rule ..⟩, packedWord_completes hi rfl fun x y _ _ => ?_⟩,
    fun hi => ⟨_, _, fun l => ⟨ffma_rule (halfFmt bf) r ftz false false .., ffma_rule (halfFmt bf) r ftz false false ..⟩,
      aluWord_completes hi rfl fun l => toNat_packed3 _ _ _ fun x y z => ?_⟩,
    fun mx hi => ⟨_, _, fun l => ⟨fmnx_rule .., fmnx_rule ..⟩, packedWord_completes hi rfl fun x y hx hy => ?_⟩,
    fun hi => ⟨_, fun l => fdot2_rule .., aluWord_completes hi rfl fun _ => rfl⟩⟩
  · exact hw ▸ (fadd_rule (halfFmt bf) r ftz x y).lt
  · exact hw ▸ (fmul_rule (halfFmt bf) r ftz x y).lt
  · exact hw ▸ (ffma_rule (halfFmt bf) r ftz false false x y z).lt
  · exact hw ▸ fmnx_lt mx (hw.symm ▸ hx) (hw.symm ▸ hy)

end Sys2Proof.Machine
end

section
/-! PROOFS. Words that transfer control: branches, calls, returns, EXIT and YIELDL. -/

namespace Sys2Proof.Machine

/-! ## Two changes of one warp are one change -/

theorem sput_sput_self {α : Type} (m : List (Nat × α)) (k : Nat) (v w : α) : sput (sput m k v) k w = sput m k w := by
  induction m with
  | nil => simp [sput]
  | cons p r ih =>
    obtain ⟨a, x⟩ := p
    rcases lt_trichotomy a k with h | rfl | h
    · simp [sput, h.ne, h.not_gt, ih]
    · simp [sput]
    · simp [sput, h.ne', h]

theorem modAt_modAt {α : Type} (l : List α) (n : Nat) (f f' : α → α) : modAt (modAt l n f) n f' = modAt l n fun x => f' (f x) := by
  induction l generalizing n with
  | nil => rfl
  | cons a r ih => cases n <;> simp [modAt, ih]

theorem modGroup_modGroup (s : State) (g : Nat) (f f' : Group → Group) : modGroup (modGroup s g f) g f' = modGroup s g fun x => f' (f x) := by
  cases hg : group? s g with
  | none => simp [modGroup, hg]
  | some x =>
    have hf : group? (modGroup s g f) g = some (f x) := by simp [hg]
    rw [modGroup, hf]
    simp [modGroup, hg, sput_sput_self]

theorem modWarp_modWarp (s : State) (g w : Nat) (f f' : Warp → Warp) : modWarp (modWarp s g w f) g w f' = modWarp s g w fun x => f' (f x) := by
  simp only [modWarp, modGroup_modGroup, modAt_modAt]

/-! ## Transfers -/

/-- The two moves of a transfer put each lane where the rule says (R111). -/
theorem transfer_eq (e : Env) (s : State) (target : Nat → DWord) :
    transfer e s target = modWarp s e.g e.w (onTheWay (atTargets e target) id id) := by
  unfold transfer
  congr 1
  funext x
  simp only [setPcs, advance, onTheWay, List.mapIdx_mapIdx]
  congr 2
  funext l y
  cases hl : bit e.live l
  · by_cases h : l < 32
    · simp [atTargets, hl, bit_not h]
    · have hp : bit e.atPc l = false := BitVec.getLsbD_of_ge _ l (by omega)
      simp [atTargets, hl, hp]
  · simp only [atTargets, hl, if_true]
    split <;> rfl

/-- What the return predictor holds after a call (R114). -/
def pushed (e : Env) (p : List DWord) : List DWord := if e.live = 0 then p else (linkOf e.pc :: p).take 8

/-- What it holds after a return. -/
def popped (e : Env) (p : List DWord) : List DWord := if e.live = 0 then p else p.drop 1

theorem pushLink_transfer (e : Env) (s : State) (target : Nat → DWord) :
    pushLink e (transfer e s target) = modWarp s e.g e.w (onTheWay (atTargets e target) (pushed e) id) := by
  rw [transfer_eq, pushLink]
  by_cases h : e.live = 0
  · rw [if_pos h, show pushed e = id from funext fun p => if_pos h]
  · rw [if_neg h, modWarp_modWarp, show pushed e = fun p => (linkOf e.pc :: p).take 8 from funext fun p => if_neg h]
    rfl

theorem popLink_transfer (e : Env) (s : State) (target : Nat → DWord) :
    popLink e (transfer e s target) = modWarp s e.g e.w (onTheWay (atTargets e target) (popped e) id) := by
  rw [transfer_eq, popLink]
  by_cases h : e.live = 0
  · rw [if_pos h, show popped e = id from funext fun p => if_pos h]
  · rw [if_neg h, modWarp_modWarp, show popped e = fun p => p.drop 1 from funext fun p => if_neg h]
    rfl

/-- The target of a relative transfer, over the integers (R32). -/
theorem relTarget_eq (pc : DWord) (off : BitVec 24) : relTarget pc off = pc + BitVec.ofInt 64 (8 * off.toInt) := by
  have hshift := toNat_add_shift pc off.toInt 3
  have hplain := toNat_add_shift pc (8 * off.toInt) 0
  rw [BitVec.shiftLeft_zero, pow_zero, mul_one] at hplain
  rw [mul_comm] at hshift
  exact BitVec.eq_of_toNat_eq (hshift.trans hplain.symm)

/-- The link over the numbers (R112). -/
theorem linkOf_toNat (pc : DWord) : (linkOf pc).toNat = (pc.toNat + 8) % 2 ^ 57 := by
  have hmask : (0x1FFFFFFFFFFFFFF : DWord).toNat = 2 ^ 57 - 1 := rfl
  rw [linkOf, BitVec.toNat_and, hmask, Nat.and_two_pow_sub_one_eq_mod, BitVec.toNat_add, Nat.mod_mod_of_dvd _ (Nat.pow_dvd_pow 2 (by decide))]
  rfl

/-! ## The ends of the words -/

/-- A word that has written registers and put its lanes and its return predictor where they go. -/
theorem jump_became {i : Instr} {s t : State} {e : Env} {res : Nat → Nat → Option Word} {body : Env → State → WordRes} {lane : Nat → Lane → Lane}
    {P : List DWord → List DWord} (h : Issues i s e) (hx : exec i s = runWord i s body)
    (hb : body e s = .jump (modWarp t e.g e.w (onTheWay lane P id))) (ht : Wrote e s t res) :
    ∃ u, exec i s = .next u ∧ Became e s u res lane fun x => { x with predictor := P x.predictor } :=
  ⟨_, by rw [hx, runWord_issues h, hb, finish_jump h], became_of_wrote s i ht lane P id⟩

/-- A word that changes its lanes and then goes on (R25). -/
theorem lanes_became {i : Instr} {s : State} {e : Env} (f : Env → Nat → Lane → Lane) (h : Issues i s e)
    (hx : exec i s = runWord i s fun e t => .done (modWarp t e.g e.w fun x => { x with lanes := x.lanes.mapIdx (f e) })) :
    ∃ u, exec i s = .next u ∧ Became e s u noResult (fun l x => onward e l (f e l x)) id := by
  refine ⟨_, by rw [hx, runWord_issues h, finish_done h, modWarp_modWarp], ?_⟩
  have hw : (fun x : Warp => advance { x with lanes := x.lanes.mapIdx (f e) } e.atPc) = onTheWay (fun l x => onward e l (f e l x)) id id := by
    funext x
    simp only [advance, List.mapIdx_mapIdx]
    rfl
  rw [hw]
  exact became_of_wrote s i (wrote_refl (issues_here h)) _ id id

/-- The live lanes are among those of the lane group (R28). -/
theorem atPc_of_live {i : Instr} {s : State} {e : Env} (h : Issues i s e) {l : Nat} (hl : bit e.live l = true) : bit e.atPc l = true := by
  obtain ⟨henv, -⟩ := h
  unfold env? at henv
  split at henv
  · cases henv
  split at henv
  · cases henv
  split at henv
  · cases henv
  simp only at henv
  split at henv
  · cases henv
  cases henv
  revert hl
  cases guardOf i with
  | none => exact id
  | some g => simp only [bit_and, Bool.and_eq_true]; exact And.left

theorem wrote_link {i : Instr} {s : State} {e : Env} (h : Issues i s e) (d : Reg) :
    Wrote e s (writeLanes e s d.toNat 2 fun _ => (linkOf e.pc).toNat) (resultIn e d 2 fun _ => (e.pc.toNat + 8) % 2 ^ 57) := by
  rw [← linkOf_toNat]
  exact wrote_writeLanes d 2 _ (wrote_refl (issues_here h))

/-- The change of the warp that a call makes, as the statement has it. -/
theorem pushed_update (e : Env) : (fun x : Warp => { x with predictor := pushed e x.predictor }) = fun x =>
    if e.live = 0 then x else { x with predictor := (BitVec.ofNat 64 ((e.pc.toNat + 8) % 2 ^ 57) :: x.predictor).take 8 } := by
  funext x
  rw [← linkOf_toNat, BitVec.ofNat_toNat, BitVec.setWidth_eq]
  unfold pushed
  split <;> rfl

theorem popped_update (e : Env) : (fun x : Warp => { x with predictor := popped e x.predictor }) = fun x =>
    if e.live = 0 then x else { x with predictor := x.predictor.drop 1 } := by
  funext x
  unfold popped
  split <;> rfl

/-- Settles O20: a transfer is one change of its warp's lanes and return predictor after a write of the link, EXIT and YIELDL one
change of the lanes that go on. -/
theorem controlTransfersComplete : Obligations.ControlTransfersComplete := by
  unfold Obligations.ControlTransfersComplete
  intro s e h d a off
  simp only [← relTarget_eq, ← pushed_update, ← popped_update]
  refine ⟨fun hi => ?_, fun hi => ?_, fun hi => ?_, fun hi => ?_, fun hi => ?_, fun hi => ?_, fun m hi => ?_⟩
  · refine jump_became (P := id) hi (show _ = execBra h off s from rfl) ?_ (wrote_refl (issues_here hi))
    exact congrArg WordRes.jump (transfer_eq ..)
  · refine jump_became (P := id) hi (show _ = execBrx h a s from rfl) ?_ (wrote_refl (issues_here hi))
    exact congrArg WordRes.jump (transfer_eq ..)
  · refine jump_became hi (show _ = execCall h d off s from rfl) ?_ (wrote_link hi d)
    exact congrArg WordRes.jump (pushLink_transfer ..)
  · refine jump_became hi (show _ = execCallx h d a s from rfl) ?_ (wrote_link hi d)
    exact congrArg WordRes.jump (pushLink_transfer ..)
  · refine jump_became hi (show _ = execRet h a s from rfl) ?_ (wrote_refl (issues_here hi))
    exact congrArg WordRes.jump (popLink_transfer ..)
  · obtain ⟨t, ht, hb⟩ := lanes_became (fun e l y => if bit e.live l then { y with exited := true } else y) hi rfl
    refine ⟨t, ht, ?_⟩
    convert hb using 1
    funext l y
    cases hl : bit e.live l
    · rfl
    · simp [onward, atPc_of_live hi hl]
  · obtain ⟨t, ht, hb⟩ := lanes_became (fun e l y => if bit e.atPc l then { y with yields := 64 } else y) hi rfl
    refine ⟨t, ht, ?_⟩
    convert hb using 1
    funext l y
    cases hl : bit e.atPc l <;> simp [onward, hl]

end Sys2Proof.Machine
end

section
/-! PROOFS. Writes from outside: why the statement about them fails as it stands. -/

namespace Sys2Proof.Machine

/-! ## A host write during a REPARTITION

A host write to a page of an affected partition is held at the home until the new table is in force (R401), and the model holds it
so (`heldByTable`). The statement asks for its bytes at their home after the step, and does not exclude such a state. -/

/-- A host write that waits joins the pending writes, and nothing else happens. -/
theorem hostWrite_waits {s : State} {a : Nat} {data : List Byte} (ha : a + data.length ≤ physTop) (hlink : s.mgmt.linkUp = true)
    (hw : hostWaits s (pendOutside s 5 a data) = true) :
    exec (.hostWrite a data) s = .next { s with pend := s.pend ++ [pendOutside s 5 a data] } := by
  have htop : ¬ 2 ^ 58 ≤ a := by unfold physTop at ha; omega
  show execHostWrite a data s = _
  rw [execHostWrite, if_neg htop, if_neg (by simp [hlink]), if_neg (Nat.not_lt.mpr ha), arriveOutside, if_pos hw]

/-- One to a page that a context of a stopped partition maps waits. -/
theorem hostWaits_of_heldByTable {s : State} {p : PendWrite} (h : heldByTable s p = true) : hostWaits s p = true := by
  simp [hostWaits, stuckWrite, h]

/-- The context of a placed word maps the first 1 GiB; the host link is up, and a REPARTITION has stopped partition 0, which is that
context's. -/
def repartitioned : State :=
  modPart { placeWord State.reset 0 with mgmt := { State.reset.mgmt with linkUp := true } } 0 fun p => { p with stopped := true }

theorem repartitioned_holds : heldByTable repartitioned (pendOutside repartitioned 5 0x20000 [5]) = true := by decide +kernel

theorem repartitioned_homeByte : homeByte repartitioned 0 0x20000 = 0 := by decide

/-- Refutes O54: a host write of 5 to 0x20000 in `repartitioned` waits, so the byte at its home is still 0. -/
theorem not_writesArriveAndWaitsEnd : ¬ Obligations.WritesArriveAndWaitsEnd := by
  unfold Obligations.WritesArriveAndWaitsEnd
  intro h
  obtain ⟨-, hhost, -⟩ := h repartitioned 0 0 0
  obtain ⟨harrives, -⟩ := hhost 0x20000 [5] (by decide) (by decide) rfl rfl rfl rfl
  obtain ⟨t, ht, hbyte⟩ := harrives rfl
  rw [hostWrite_waits (by decide) rfl (hostWaits_of_heldByTable repartitioned_holds)] at ht
  cases ht
  have hsame : homeByte repartitioned 0 0x20000 = 5 := hbyte 0x20000
  rw [repartitioned_homeByte] at hsame
  exact absurd hsame (by decide)

end Sys2Proof.Machine
end

section
/-! PROOFS. States whose memory reads the same: what holds the bytes is as it was, and every context maps the same pages. -/

namespace Sys2Proof.Machine

/-! ## What a byte of memory is read from -/

/-- Nothing that a byte of memory is read from differs: caches, memories, pending writes, and, for uncached aliases, the roots of
the contexts' page tables and the places of the versioned ranges (R186, R192, R194). -/
structure KeepsMemory (s t : State) : Prop where
  mem : t.mem = s.mem
  l2 : t.l2 = s.l2
  hostMem : t.hostMem = s.hostMem
  pend : t.pend = s.pend
  tick : t.tick = s.tick
  roots : ∀ p : Nat → Bool, (t.ctxs.any fun c => p c.2.root) = s.ctxs.any fun c => p c.2.root
  ranges : ∀ n, (range? t n).map (fun r => (r.bases, r.size)) = (range? s n).map fun r => (r.bases, r.size)

theorem KeepsMemory.refl (s : State) : KeepsMemory s s := ⟨rfl, rfl, rfl, rfl, rfl, fun _ => rfl, fun _ => rfl⟩

theorem KeepsMemory.trans {s t u : State} (h : KeepsMemory s t) (k : KeepsMemory t u) : KeepsMemory s u :=
  ⟨k.mem.trans h.mem, k.l2.trans h.l2, k.hostMem.trans h.hostMem, k.pend.trans h.pend, k.tick.trans h.tick, fun p => (k.roots p).trans (h.roots p),
    fun n => (k.ranges n).trans (h.ranges n)⟩

theorem cachedBy_congr {s t : State} (h : KeepsMemory s t) (pa : Nat) (ls : List (Nat × Nat × Nat)) (table : Nat) :
    cachedBy t pa ls table = cachedBy s pa ls table := by
  have hbyte : sliceByte t = sliceByte s := by funext a; rw [sliceByte, sliceByte, h.mem, h.l2]
  have hrange (n : Nat) : ((range? t n).any fun r => r.bases.any fun b => decide (b ≤ pa) && decide (pa < b + r.size)) =
      (range? s n).any fun r => r.bases.any fun b => decide (b ≤ pa) && decide (pa < b + r.size) := by
    have hn := congrArg (fun x : Option (List Nat × Nat) => x.any fun r => r.1.any fun b => decide (b ≤ pa) && decide (pa < b + r.2)) (h.ranges n)
    simpa only [Option.any_map, Function.comp_def] using hn
  induction ls generalizing table with
  | nil => rfl
  | cons l ls ih =>
    obtain ⟨level, hi, lo⟩ := l
    simp only [cachedBy, hbyte, hrange, ih]

theorem KeepsMemory.homeByte {s t : State} (h : KeepsMemory s t) (sp a : Nat) : homeByte t sp a = homeByte s sp a := by
  have halias : cachedAlias t a = cachedAlias s a := by
    simp only [cachedAlias, cachedBy_congr h]
    exact h.roots (cachedBy s a levels)
  simp only [Machine.homeByte, sliceByte, halias, h.mem, h.l2, h.hostMem, h.tick]

theorem KeepsMemory.sameMemory {s t : State} (h : KeepsMemory s t) : SameMemory s t :=
  ⟨h.homeByte, fun d sp a => by rw [viewByte, viewByte, h.pend, h.homeByte]⟩

/-! ## Updates that keep memory -/

theorem keepsMemory_of_groups {s t : State} (h : t = { s with groups := t.groups }) : KeepsMemory s t := by
  rw [h]; exact ⟨rfl, rfl, rfl, rfl, rfl, fun _ => rfl, fun _ => rfl⟩

theorem keepsMemory_modCore (s : State) (c : Nat) (f : Core → Core) : KeepsMemory s (modCore s c f) :=
  ⟨rfl, rfl, rfl, rfl, rfl, fun _ => rfl, fun _ => rfl⟩

/-- A context that keeps its page tables. -/
theorem keepsMemory_modCtx (s : State) (c : Nat) {f : Ctx → Ctx} (hf : ∀ x, (f x).root = x.root) : KeepsMemory s (modCtx s c f) := by
  unfold modCtx
  split
  · rename_i x hx
    exact ⟨rfl, rfl, rfl, rfl, rfl, fun p => any_sput (fun y => p y.root) hx (by rw [hf]), fun _ => rfl⟩
  · exact .refl s

theorem keepsMemory_sendAlong (e : Edge) (v : View) (s : State) : KeepsMemory s (sendAlong e v s) := ⟨rfl, rfl, rfl, rfl, rfl, fun _ => rfl, fun _ => rfl⟩

end Sys2Proof.Machine
end

section
/-! PROOFS. The words of the work class that wait: barriers (R140 to R142, R150), launches, YIELD and SLEEP (R151 to R153). -/

namespace Sys2Proof.Machine

/-! ## Words that have changed their group and then hold or write -/

/-- What a hold notes of its word reads of the group no more than core, context and budget. -/
theorem addHold_congr (t : State) (i : Instr) (e : Env) {gr : Group} {wp : Warp} (hc : gr.core = e.gr.core) (hx : gr.ctx = e.gr.ctx)
    (hl : gr.logits = e.gr.logits) (ha : affineWord t { e with gr := gr, wp := wp } i = affineWord t e i)
    (hb : bankReads { e with gr := gr, wp := wp } i = bankReads e i) (k : Hold) (lanes : Mask) :
    addHold t { e with gr := gr, wp := wp } i k lanes = addHold t e i k lanes := by
  have hn : noteRegs t { e with gr := gr, wp := wp } i = noteRegs t e i := by
    funext x; simp only [noteRegs, ha, hc]
  simp only [addHold, noteWord, countWord, leaveTurn, hn, ha, hb, hc, hx, hl]

section
variable {i : Instr} {s u : State} {e : Env} {gr : Group} {wp : Warp} (h : Issues i s e) (hg : group? u e.g = some gr)
  (hw : gr.warps[e.w]? = some wp) (hc : gr.core = e.gr.core) (hx : gr.ctx = e.gr.ctx) (hl : gr.logits = e.gr.logits)
  (hb : bankReads { e with gr := gr, wp := wp } i = bankReads e i)
include h hg hw hc hx hl hb

/-- A word that has brought about u and then holds lanes. -/
theorem held_on (ha : affineWord u { e with gr := gr, wp := wp } i = affineWord u e i) (k : Hold) (lanes : Mask) :
    ∃ t, finish e i (.hold u k lanes) s = .next t ∧ Held i (e.on u) u t k lanes := by
  refine ⟨_, finish_hold h u k lanes, ?_⟩
  rw [on_of_reads hg hw, ← addHold_congr u i e hc hx hl ha hb]
  exact held_addHold (e := { e with gr := gr, wp := wp }) i k lanes ⟨hg, hw⟩

/-- A word that has brought about u and then writes registers. -/
theorem wrote_on {v : State} {res : Nat → Nat → Option Word} (ha : affineWord s { e with gr := gr, wp := wp } i = affineWord s e i)
    (hv : Wrote { e with gr := gr, wp := wp } u v res) : ∃ t, finish e i (.done v) s = .next t ∧ Settled (e.on u) u t res := by
  refine ⟨_, finish_done h v, ?_⟩
  rw [on_of_reads hg hw, ← retire_congr s (modWarp v e.g e.w fun x => advance x e.atPc) i e hc hx hl ha hb]
  exact settled_of_wrote (e := { e with gr := gr, wp := wp }) s i hv

end

/-- A word that holds lanes and has changed nothing. -/
theorem held_here {i : Instr} {s : State} {e : Env} (h : Issues i s e) (k : Hold) (lanes : Mask) :
    ∃ t, finish e i (.hold s k lanes) s = .next t ∧ Held i e s t k lanes :=
  ⟨_, finish_hold h s k lanes, held_addHold i k lanes (issues_here h)⟩

/-! ## Barriers -/

/-- A group one of whose warps has arrived at barrier b. -/
def arrivedGroup (index b : Nat) (gr : Group) : Group :=
  { gr with bars := modAt gr.bars b fun y => { y with arrived := sins y.arrived index } }

section
variable {i : Instr} {s : State} {e : Env}

theorem group?_arrive (h : Here e s) (b : Nat) : group? (arrive s e b) e.g = some (arrivedGroup e.wp.index b e.gr) := by
  rw [arrive, group?_modGroup_self, h.1]; rfl

/-- A word of the whole warp faults BARDIV where a lane of its warp stands elsewhere (R142). -/
theorem faults_apart {r : WordRes} (hi : Issues i s e) (hx : exec i s = finish e i (if !converged e then .trap s .bardiv e.live (atPcDetail e) 0 else r) s)
    (ht : ¬ Together e) : Faults i s e .bardiv e.live (e.atPc.setWidth 64) 0 := by
  rw [Faults, hx, if_pos (by simpa using mt (converged_iff hi).mp ht), finish_trap]; rfl

theorem exec_together {r : WordRes} (hi : Issues i s e) (hx : exec i s = finish e i (if !converged e then .trap s .bardiv e.live (atPcDetail e) 0 else r) s)
    (ht : Together e) : exec i s = finish e i r s := by
  rw [hx, if_neg (by simp [(converged_iff hi).mpr ht])]

/-- A word that arrives at a barrier: it goes on with `r` the first time in a phase, and waits the second (R150). -/
def arriveBody (e : Env) (b : Nat) (s : State) (r : WordRes) : WordRes :=
  if (bar e.gr b).arrived.contains e.wp.index then .hold s (.rearrive b (bar e.gr b).phase) e.atPc else r

theorem arriveBody_here {b : Nat} (h : e.wp.index ∈ (bar e.gr b).arrived) (r : WordRes) :
    arriveBody e b s r = .hold s (.rearrive b (bar e.gr b).phase) e.atPc := if_pos (List.contains_iff_mem.mpr h)

theorem arriveBody_first {b : Nat} (h : e.wp.index ∉ (bar e.gr b).arrived) (r : WordRes) : arriveBody e b s r = r :=
  if_neg fun hc => h (List.contains_iff_mem.mp hc)

theorem exec_gbar {m : Bool} {b : BitVec 3} (h : Issues (.gbar m b) s e) : exec (.gbar m b) s = finish e (.gbar m b)
    (if !converged e then .trap s .bardiv e.live (atPcDetail e) 0
      else arriveBody e b.toNat s (.hold (arrive s e b.toNat) (.barrier b.toNat (bar e.gr b.toNat).phase) e.atPc)) s := by
  show execGbar m b s = _
  rw [execGbar, runWord_issues h]; rfl

theorem exec_garrive {m : Bool} {d : Reg} {b : BitVec 3} (h : Issues (.garrive m d b) s e) : exec (.garrive m d b) s = finish e (.garrive m d b)
    (if !converged e then .trap s .bardiv e.live (atPcDetail e) 0
      else arriveBody e b.toNat s (.done (writeLanes e (arrive s e b.toNat) d.toNat 1 fun _ => (bar e.gr b.toNat).phase))) s := by
  show execGarrive m d b s = _
  rw [execGarrive, runWord_issues h]; rfl

/-- A group one of whose warps has arrived at the barrier of its gang (R141). -/
def gangArrived (index : Nat) (gr : Group) : Group :=
  { gr with
    gangWarps := sins gr.gangWarps index
    gangIn := gr.gangIn || gr.warps.all fun w => w.ended || (sins gr.gangWarps index).contains w.index }

theorem exec_gangbar {m : Bool} (h : Issues (.gangbar m) s e) : exec (.gangbar m) s = finish e (.gangbar m)
    (if !converged e then .trap s .bardiv e.live (atPcDetail e) 0
      else .hold (modGroup s e.g fun x => { x with
        gangWarps := (gangArrived e.wp.index e.gr).gangWarps
        gangIn := x.gangIn || e.gr.warps.all fun w => w.ended || (sins e.gr.gangWarps e.wp.index).contains w.index }) (.gang (gangPhase s e.gr)) e.atPc) s := by
  show execGangbar m s = _
  rw [execGangbar, runWord_issues h]; rfl

theorem exec_gwait {h : Hdr} {a : Reg} {b : BitVec 3} (hi : Issues (.gwait h a b) s e) : exec (.gwait h a b) s = finish e (.gwait h a b)
    (if (lanesOf e.live).all fun l => phasePast (bar e.gr b.toNat).phase (e.v s a l) then .done s
      else .hold s (.rearrive b.toNat (bar e.gr b.toNat).phase) e.live) s := by
  show execGwait h a b s = _
  rw [execGwait, runWord_issues hi]

theorem gbar_arrives {m : Bool} {b : BitVec 3} (h : Issues (.gbar m b) s e) (ht : Together e) (hn : e.wp.index ∉ (bar e.gr b.toNat).arrived) :
    ∃ t, exec (.gbar m b) s = .next t ∧
      Held (.gbar m b) (e.on (arrive s e b.toNat)) (arrive s e b.toNat) t (.barrier b.toNat (bar e.gr b.toNat).phase) e.atPc := by
  rw [exec_together h (exec_gbar h) ht, arriveBody_first hn]
  exact held_on h (group?_arrive (issues_here h) _) (issues_here h).2 rfl rfl rfl rfl rfl _ _

theorem garrive_arrives {m : Bool} {d : Reg} {b : BitVec 3} (h : Issues (.garrive m d b) s e) (ht : Together e)
    (hn : e.wp.index ∉ (bar e.gr b.toNat).arrived) :
    ∃ t, exec (.garrive m d b) s = .next t ∧
      Settled (e.on (arrive s e b.toNat)) (arrive s e b.toNat) t (resultIn e d 1 fun _ => (bar e.gr b.toNat).phase) := by
  rw [exec_together h (exec_garrive h) ht, arriveBody_first hn]
  have hg := group?_arrive (issues_here h) b.toNat
  exact wrote_on h hg (issues_here h).2 rfl rfl rfl rfl rfl
    (wrote_writeLanes (e := { e with gr := arrivedGroup e.wp.index b.toNat e.gr }) d 1 _ (wrote_refl ⟨hg, (issues_here h).2⟩))

/-- GANGBAR: the warp arrives, and with the last of its warps the group does (R141, R150). -/
theorem gangbar_arrives {m : Bool} (h : Issues (.gangbar m) s e) (ht : Together e) :
    ∃ t v, group? v e.g = some (gangArrived e.wp.index e.gr) ∧ v = { s with groups := v.groups } ∧ exec (.gangbar m) s = .next t ∧
      Held (.gangbar m) (e.on v) v t (.gang (gangPhase s e.gr)) e.atPc := by
  obtain ⟨hg, hw⟩ := issues_here h
  set v := modGroup s e.g fun x => { x with
    gangWarps := (gangArrived e.wp.index e.gr).gangWarps
    gangIn := x.gangIn || e.gr.warps.all fun w => w.ended || (sins e.gr.gangWarps e.wp.index).contains w.index } with hv
  have hgv : group? v e.g = some (gangArrived e.wp.index e.gr) := by rw [hv, group?_modGroup_self, hg]; rfl
  obtain ⟨t, hf, hheld⟩ := held_on h hgv hw rfl rfl rfl rfl rfl (.gang (gangPhase s e.gr)) e.atPc
  exact ⟨t, v, hgv, modGroup_only .., by rw [exec_together h (exec_gangbar h) ht, hf], hheld⟩

theorem gangArrived_gangIn (e : Env) : (gangArrived e.wp.index e.gr).gangIn = true ↔
    e.gr.gangIn = true ∨ ∀ w ∈ e.gr.warps, w.ended = true ∨ w.index ∈ sins e.gr.gangWarps e.wp.index := by
  simp [gangArrived]

theorem phasePast_all (e : Env) (phase : Nat) (v : Nat → Word) : ((lanesOf e.live).all fun l => phasePast phase (v l)) = true ↔
    ∀ l, bit e.live l = true → 0 < (BitVec.ofNat 32 phase - v l).toInt := by
  simp [phasePast]

theorem gwait_goes_on {h : Hdr} {a : Reg} {b : BitVec 3} (hi : Issues (.gwait h a b) s e)
    (hp : ∀ l, bit e.live l = true → 0 < (BitVec.ofNat 32 (bar e.gr b.toNat).phase - e.v s a l).toInt) :
    Completes (.gwait h a b) s e noResult := by
  rw [Completes, exec_gwait hi, if_pos ((phasePast_all ..).mpr hp)]
  exact finish_done_completes hi

theorem gwait_waits {h : Hdr} {a : Reg} {b : BitVec 3} (hi : Issues (.gwait h a b) s e)
    (hp : ∃ l, bit e.live l = true ∧ ¬ 0 < (BitVec.ofNat 32 (bar e.gr b.toNat).phase - e.v s a l).toInt) :
    ∃ t, exec (.gwait h a b) s = .next t ∧ Held (.gwait h a b) e s t (.rearrive b.toNat (bar e.gr b.toNat).phase) e.live := by
  obtain ⟨l, hl, hn⟩ := hp
  rw [exec_gwait hi, if_neg fun hc => hn ((phasePast_all ..).mp hc l hl)]
  exact held_here hi _ _

end

/-- Settles O23: each word apart, at its first arrival, and at a second one. -/
theorem barrierWordsComplete : Obligations.BarrierWordsComplete := by
  unfold Obligations.BarrierWordsComplete
  intro s e m h d a b
  refine ⟨fun hi => ⟨faults_apart hi (exec_gbar hi), gbar_arrives hi, fun ht hh => ?_⟩,
    fun hi => ⟨faults_apart hi (exec_garrive hi), garrive_arrives hi, fun ht hh => ?_⟩,
    fun hi => ⟨faults_apart hi (exec_gangbar hi), fun ht => ?_⟩, fun hi => ⟨gwait_goes_on hi, gwait_waits hi⟩⟩
  · rw [exec_together hi (exec_gbar hi) ht, arriveBody_here hh]; exact held_here hi _ _
  · rw [exec_together hi (exec_garrive hi) ht, arriveBody_here hh]; exact held_here hi _ _
  · obtain ⟨t, v, hg, hv, hx, hheld⟩ := gangbar_arrives hi ht
    refine ⟨t, v, ?_, hv, hx, hheld⟩
    exact hg.trans (congrArg (fun x => some { e.gr with gangWarps := sins e.gr.gangWarps e.wp.index, gangIn := x })
      (Bool.eq_iff_iff.mpr ((gangArrived_gangIn e).trans decide_eq_true_iff.symm)))

end Sys2Proof.Machine
end

section
/-! PROOFS. LAUNCH, YIELD and SLEEP (R151 to R153). -/

namespace Sys2Proof.Machine

section
variable {s : State} {e : Env}

/-! ## LAUNCH -/

/-- A release that has been made lets its word go on (R232, R233). -/
theorem afterRelease_released {rel : Bool} {sc : Scope} {b : State} (h : Released e s rel sc b) (k : State → WordRes) : afterRelease e s rel sc k = k b := by
  rw [afterRelease]
  unfold Released at h
  by_cases hc : rel = true ∧ devScope sc = true ∧ e.live ≠ 0
  · rw [if_pos hc] at h
    rw [if_pos (by simpa [and_assoc] using hc), h.1, h.2]; rfl
  · rw [if_neg hc] at h
    rw [if_neg (by simpa [and_assoc] using hc), h]

/-- A release leaves the groups as they were. -/
theorem released_groups {rel : Bool} {sc : Scope} {b : State} (h : Released e s rel sc b) : b.groups = s.groups := by
  unfold Released at h
  split at h
  · rw [h.2, drainDie_groups]
  · rw [h]

/-- The lanes whose launch block is not aligned. -/
def unalignedBlocks (s : State) (e : Env) (a : Reg) : Mask := e.live &&& maskOf fun l => (e.d s a l).toNat % 64 != 0

theorem bit_unalignedBlocks (s : State) (e : Env) (a : Reg) (l : Nat) :
    bit (unalignedBlocks s e a) l = true ↔ bit e.live l = true ∧ (e.d s a l).toNat % 64 ≠ 0 := by
  rw [unalignedBlocks, bit_and, Bool.and_eq_true, bit_maskOf]
  exact and_congr_right fun hl => by simp [bit_lt hl]

/-- The lanes that take a launch credit of their core, of which it has four. -/
def launchLanes (s : State) (e : Env) : List Nat := (lanesOf e.live).take (4 - (core s e.gr.core).launches.length)

/-- A core with launch blocks of the lanes behind those it has. -/
def launched (e : Env) (va : Nat → DWord) (taken : List Nat) (c : Core) : Core :=
  { c with launches := c.launches ++ taken.map fun l => (e.g, e.w, va l, none) }

theorem exec_launch {h : Hdr} {d a : Reg} (hi : Issues (.launch h d a) s e) : exec (.launch h d a) s = finish e (.launch h d a)
    (match leader (unalignedBlocks s e a) with
      | some l => .trap s .align (unalignedBlocks s e a) (e.d s a l) 0
      | none => afterRelease e s (!(launchLanes s e).isEmpty) .dev fun b =>
          .done (writeLanes e (modCore b e.gr.core (launched e (e.d s a) (launchLanes s e))) d.toNat 1 fun l => oneIf ((launchLanes s e).contains l))) s := by
  show execLaunch h d a s = _
  rw [execLaunch, runWord_issues hi]; rfl

theorem leader_zero : leader 0 = none := by decide

theorem launch_launches {h : Hdr} {d a : Reg} (hi : Issues (.launch h d a) s e) (ha : ∀ l, bit e.live l = true → (e.d s a l).toNat % 64 = 0)
    {b : State} (hb : Released e s (!(launchLanes s e).isEmpty) .dev b) :
    ∃ t u, u = modCore b e.gr.core (launched e (e.d s a) (launchLanes s e)) ∧ exec (.launch h d a) s = .next t ∧
      Settled (e.on u) u t (resultIn e d 1 fun l => if l ∈ launchLanes s e then 1 else 0) := by
  have hoff : unalignedBlocks s e a = 0 := (mask_eq_zero_iff _).mpr fun l hl => by
    obtain ⟨hlive, hne⟩ := (bit_unalignedBlocks ..).mp hl
    exact hne (ha l hlive)
  have hgroups : b.groups = s.groups := released_groups hb
  have hu : Here e (modCore b e.gr.core (launched e (e.d s a) (launchLanes s e))) := here_of_groups (issues_here hi) hgroups
  have hone : (fun l => oneIf ((launchLanes s e).contains l)) = fun l => if l ∈ launchLanes s e then 1 else 0 := by
    funext l; simp [oneIf]
  rw [exec_launch hi, hoff, leader_zero, hone]
  simp only [afterRelease_released hb, finish_done hi]
  refine ⟨_, _, rfl, rfl, ?_⟩
  rw [on_of_here hu]
  exact settled_of_wrote s _ (wrote_writeLanes d 1 _ (wrote_refl hu))

theorem launch_misaligned {h : Hdr} {d a : Reg} (hi : Issues (.launch h d a) s e) {l : Nat} {off : Mask}
    (hoff : ∀ k, bit off k = true ↔ bit e.live k = true ∧ (e.d s a k).toNat % 64 ≠ 0) (hl : leader off = some l) :
    Faults (.launch h d a) s e .align off (e.d s a l) 0 := by
  obtain rfl : off = unalignedBlocks s e a := mask_ext fun k _ => by rw [Bool.eq_iff_iff, hoff, bit_unalignedBlocks]
  rw [Faults, exec_launch hi, hl]
  exact finish_trap ..

/-! ## YIELD and SLEEP -/

/-- What a YIELD records in its warp (R152): the warps that it gives way to, if there are any. -/
def gaveWay (others : List (Nat × Nat)) (x : Warp) : Warp := { x with yielding := if others = [] then none else some others }

theorem modCore_modWarp (s : State) (c g w : Nat) (f : Core → Core) (f' : Warp → Warp) :
    modCore (modWarp s g w f') c f = modWarp (modCore s c f) g w f' := by
  unfold modWarp modGroup
  rw [group?_modCore]
  cases group? s g <;> rfl

/-- A YIELD that completes: the warp gives way and goes on at its next word. -/
theorem giveWay_became {i : Instr} (hi : Issues i s e) :
    ∃ t, finish e i (.done (giveWay e s)) s = .next t ∧ Became e s t noResult (onward e) (gaveWay (yieldSet s e)) := by
  set c : State := if e.fixed then modCore s e.gr.core (fun c => { c with one := c.one.filter (· != (e.g, e.w)) }) else s with hc
  have hwrote : Wrote e s c noResult := by
    obtain ⟨hregs, honly, wp, hwp⟩ := wrote_refl (issues_here hi)
    rw [hc]
    split
    · exact ⟨fun r l hl => hregs r l hl, onlyWarp_modCore _ _ (fun x => ⟨x.perf, _, rfl⟩) honly, wp, hwp⟩
    · exact ⟨hregs, honly, wp, hwp⟩
  have hway : giveWay e s = modWarp c e.g e.w (gaveWay (yieldSet s e)) := by
    rw [hc, giveWay]
    simp only [List.isEmpty_iff]
    split
    · exact modCore_modWarp ..
    · rfl
  refine ⟨_, finish_done hi _, ?_⟩
  rw [hway, modWarp_modWarp]
  exact became_of_wrote s i hwrote (onward e) id fun _ => if yieldSet s e = [] then none else some (yieldSet s e)

theorem exec_yield {m : Bool} (hi : Issues (.yield m) s e) : exec (.yield m) s = finish e (.yield m) (.done (giveWay e s)) s := by
  show execYield m s = _
  rw [execYield, runWord_issues hi]

theorem exec_sleep {h : Hdr} {a : Reg} (hi : Issues (.sleep h a) s e) : exec (.sleep h a) s = finish e (.sleep h a)
    (if e.live = 0 then .done s else if e.fixed then .done (giveWay e s) else .hold s .sleep e.live) s := by
  show execSleep h a s = _
  rw [execSleep, runWord_issues hi]

end

/-- The warps that a YIELD gives way to, read warp by warp. -/
theorem yieldSet_eq (s : State) (e : Env) : yieldSet s e = (core s e.gr.core).active.filter fun p =>
    p != (e.g, e.w) && (match group? s p.1, warp? s p.1 p.2 with
      | some gr, some wp => eligible s gr wp
      | _, _ => false) := by
  rw [yieldSet]
  congr 1
  funext p
  cases hg : group? s p.1 with
  | none => rfl
  | some gr =>
    cases hw : gr.warps[p.2]? with
    | none => simp [warp?, hg, hw]
    | some wp => simp [warp?, hg, hw]

/-- Settles O24: each word by its branches. -/
theorem launchYieldSleepComplete : Obligations.LaunchYieldSleepComplete := by
  unfold Obligations.LaunchYieldSleepComplete
  intro s e m h d a taken others yields
  have hway : yields = gaveWay (yieldSet s e) := congrArg gaveWay (yieldSet_eq s e).symm
  refine ⟨fun hi => ⟨fun ha b hb => launch_launches hi ha hb, fun l off hoff hl => launch_misaligned hi hoff hl⟩, fun hi => ?_, fun hi => ⟨fun h0 => ?_, fun h0 hf => ?_, fun h0 hf => ?_⟩⟩
  · rw [exec_yield hi, hway]; exact giveWay_became hi
  · rw [Completes, exec_sleep hi, if_pos h0]; exact finish_done_completes hi
  · rw [exec_sleep hi, if_neg h0, if_pos hf, hway]; exact giveWay_became hi
  · rw [exec_sleep hi, if_neg h0, if_neg (by simp [hf])]; exact held_here hi _ _

end Sys2Proof.Machine
end

section
/-! PROOFS. The register pool: its requests (R139, R149, R342) and its deadlocks (R139, R272). -/

namespace Sys2Proof.Machine

/-! ## Requests -/

theorem firstRequest_spec {s : State} {c : Nat} {r : RowReq} (h : firstRequest s c = some r) :
    (∃ rest, (inLogical s c).flatMap (rowRequests s) = r :: rest) ∧ r.need ≤ freeRows s c ∧ (r.sub = none ∨ freeSlotsOf s c ≠ []) := by
  unfold firstRequest at h
  split at h
  · rename_i q rest hq
    split at h
    · rename_i hserve
      cases h
      rw [canServe, Bool.and_eq_true, decide_eq_true_eq, Bool.or_eq_true, Option.isNone_iff_eq_none] at hserve
      exact ⟨⟨rest, hq⟩, hserve.1, hserve.2.imp_right fun hf => by simpa using hf⟩
    · cases h
  · cases h

theorem exec_registerPoolGrant {s : State} {c : Nat} {r : RowReq} (h : firstRequest s c = some r) :
    exec (.registerPoolGrant c) s = .next (serveRows s c r) := by
  show execRegisterPoolGrant c s = _
  rw [execRegisterPoolGrant, h]

/-! ## Requests served -/

/-- An RGROW that is granted goes on with its rows (R149). -/
theorem serveRows_rgrow {s : State} {c n : Nat} {r : RowReq} {gr : Group} (hs : r.sub = none) (hk : r.hold.kind = .rgrow n)
    (hg : group? s r.group = some gr) : serveRows s c r =
      modWarp (if gr.granted < n then modGroup s r.group fun x => growRegs (domainPast s gr.ctx) x n else s) r.group r.warp (endHold r.hold) := by
  simp only [serveRows, hs, hk, hg, Option.bind_none]

/-- A word that copies a row issues again with it (R139, R349). -/
theorem serveRows_copyWait {s : State} {c reg : Nat} {r : RowReq} (hs : r.sub = none) (hk : r.hold.kind = .copyWait reg) :
    serveRows s c r = dropHold (ownRow s r.group r.warp reg) r.group r.warp r.hold := by
  simp only [serveRows, hs, hk, Option.bind_none]

theorem serveRows_sub {s : State} {c x : Nat} {r : RowReq} {gr : Group} (hs : r.sub = some x) (hg : group? s x = some gr) :
    serveRows s c r = startSub s c gr := by
  simp only [serveRows, hs, Option.bind_some, hg]

theorem growRegs_granted (past : List Word) (gr : Group) (n : Nat) : (growRegs past gr n).granted = n := rfl

theorem growRegs_holds {past : List Word} {gr : Group} {n w : Nat} {x : Warp} (hx : (growRegs past gr n).warps[w]? = some x) :
    ∃ y, gr.warps[w]? = some y ∧ x.holds = y.holds := by
  rw [growRegs_eq, List.getElem?_map] at hx
  obtain ⟨y, hy, rfl⟩ := Option.map_eq_some_iff.mp hx
  exact ⟨y, hy, rfl⟩

/-- The group with the rows that an RGROW to n asks for. -/
def grownTo (past : List Word) (n : Nat) (gr : Group) : Group := if gr.granted < n then growRegs past gr n else gr

theorem grownTo_granted (past : List Word) (n : Nat) (gr : Group) : (grownTo past n gr).granted = max gr.granted n := by
  unfold grownTo
  split
  · rw [growRegs_granted, max_eq_right (by omega)]
  · rw [max_eq_left (by omega)]

theorem grownTo_holds {past : List Word} {n w : Nat} {gr : Group} {x : Warp} (hx : (grownTo past n gr).warps[w]? = some x) :
    ∃ y, gr.warps[w]? = some y ∧ x.holds = y.holds := by
  unfold grownTo at hx
  split at hx
  · exact growRegs_holds hx
  · exact ⟨x, hx, rfl⟩

theorem rgrow_granted {s : State} {c n : Nat} {r : RowReq} {gr : Group} (hf : firstRequest s c = some r) (hs : r.sub = none)
    (hk : r.hold.kind = .rgrow n) (hg : group? s r.group = some gr) :
    ∃ t up, exec (.registerPoolGrant c) s = .next t ∧ SameMemory s t ∧ group? t r.group = some up ∧ up.granted = max gr.granted n ∧
      ∀ x, up.warps[r.warp]? = some x → ∀ y, gr.warps[r.warp]? = some y → x.holds = y.holds.erase r.hold := by
  set u := if gr.granted < n then modGroup s r.group (fun x => growRegs (domainPast s gr.ctx) x n) else s with hu
  have hug : group? u r.group = some (grownTo (domainPast s gr.ctx) n gr) := by
    rw [hu, grownTo]
    split
    · rw [group?_modGroup_self, hg]; rfl
    · exact hg
  have honly : OnlyIssue s u := by
    rw [hu]
    split
    · exact onlyIssue_of_groups (modGroup_only ..)
    · exact onlyIssue_of_groups rfl
  refine ⟨_, _, by rw [exec_registerPoolGrant hf, serveRows_rgrow hs hk hg], (honly.trans (onlyIssue_of_groups (modWarp_only ..))).sameMemory,
    (group?_modWarp_self ..).trans (congrArg _ hug), grownTo_granted (domainPast s gr.ctx) n gr, fun x hx y hy => ?_⟩
  replace hx : (modAt (grownTo (domainPast s gr.ctx) n gr).warps r.warp (endHold r.hold))[r.warp]? = some x := hx
  rw [getElem?_modAt_self] at hx
  obtain ⟨z, hz, rfl⟩ := Option.map_eq_some_iff.mp hx
  obtain ⟨y', hy', hholds⟩ := grownTo_holds hz
  rw [hy] at hy'
  cases hy'
  rw [endHold_holds, hholds]

/-- What `ownRow` leaves of its warp: the row is its own, its holds are as before, and every register reads as before. -/
theorem ownRow_spec {s : State} {g w : Nat} {gr : Group} {wp : Warp} (hg : group? s g = some gr) (hw : gr.warps[w]? = some wp) (r : Nat) :
    OnlyIssue s (ownRow s g w r) ∧ ∃ up x, group? (ownRow s g w r) g = some up ∧ up.warps[w]? = some x ∧ x.holds = wp.holds ∧ ownsRow up x r = true ∧
      ∀ k l, l < 32 → regRead (ownRow s g w r) up x k l = regRead s gr wp k l := by
  by_cases hown : ownsRow gr wp r = true
  · have hsame : ownRow s g w r = s := by simp [ownRow, hg, hw, hown]
    rw [hsame]
    exact ⟨onlyIssue_of_groups rfl, gr, wp, hg, hw, rfl, hown, fun _ _ _ => rfl⟩
  · have hcopy : ownRow s g w r = modWarp (countEvent s gr.core gr.ctx 3 1) g w fun _ => copyRow s gr wp r := by simp [ownRow, hg, hw, hown]
    obtain ⟨rg, pv, honly⟩ := copyRow_only s gr wp r
    have htmpls : (modWarp (countEvent s gr.core gr.ctx 3 1) g w fun _ => copyRow s gr wp r).tmpls = s.tmpls := by
      rw [modWarp_tmpls, countEvent_only]
    rw [hcopy]
    refine ⟨?_, { gr with warps := modAt gr.warps w fun _ => copyRow s gr wp r }, copyRow s gr wp r, ?_, ?_, by rw [honly], ?_, fun k l hl => ?_⟩
    · refine OnlyIssue.trans ?_ (onlyIssue_of_groups (modWarp_only ..))
      rw [OnlyIssue, countEvent_only]
    · rw [group?_modWarp_self, group?_countEvent, hg]; rfl
    · simp [hw]
    · rw [show ownsRow { gr with warps := modAt gr.warps w fun _ => copyRow s gr wp r } (copyRow s gr wp r) r = ownsRow gr (copyRow s gr wp r) r from rfl,
        ownsRow_copyRow]; simp
    · rw [regRead_of_tmpls htmpls]; exact regRead_copyRow s gr wp r k l hl

theorem copyWait_issues_again {s : State} {c reg : Nat} {r : RowReq} {gr : Group} (hf : firstRequest s c = some r) (hs : r.sub = none)
    (hk : r.hold.kind = .copyWait reg) (hg : group? s r.group = some gr) :
    ∃ t up, exec (.registerPoolGrant c) s = .next t ∧ SameMemory s t ∧ group? t r.group = some up ∧
      ∀ x, up.warps[r.warp]? = some x → ∀ y, gr.warps[r.warp]? = some y → x.holds = y.holds.erase r.hold ∧ ownsRow up x reg = true ∧
        ∀ k l, k < 512 → l < 32 → regAt t r.group r.warp k l = regAt s r.group r.warp k l := by
  rw [exec_registerPoolGrant hf, serveRows_copyWait hs hk]
  cases hw : gr.warps[r.warp]? with
  | none =>
    have hsame : ownRow s r.group r.warp reg = s := by simp [ownRow, hg, hw]
    rw [hsame]
    refine ⟨_, _, rfl, (onlyIssue_of_groups (modWarp_only ..)).sameMemory, by rw [dropHold, group?_modWarp_self, hg]; rfl, fun x hx y hy => ?_⟩
    cases hy
  | some wp =>
    obtain ⟨honly, up, x0, hup, hx0, hholds, hown, hread⟩ := ownRow_spec hg hw reg
    have hgt : group? (dropHold (ownRow s r.group r.warp reg) r.group r.warp r.hold) r.group =
        some { up with warps := modAt up.warps r.warp fun x => { x with holds := x.holds.erase r.hold } } := by
      rw [dropHold, group?_modWarp_self, hup]; rfl
    refine ⟨_, _, rfl, (honly.trans (onlyIssue_of_groups (modWarp_only ..))).sameMemory, hgt, fun x hx y hy => ?_⟩
    cases hy
    rw [getElem?_modAt_self, hx0] at hx
    cases hx
    refine ⟨by rw [← hholds], hown, fun k l _ hl => ?_⟩
    rw [regAt_of hgt (by rw [getElem?_modAt_self, hx0]; rfl), regAt_of hg hw, ← hread k l hl]
    exact (regRead_of_tmpls (modWarp_tmpls ..) ..).trans rfl

theorem joinSet_cores (c : Nat) (out : List (Nat × Nat)) (s : State) : joinSet c out s = { s with cores := (joinSet c out s).cores } := by
  unfold joinSet
  induction out generalizing s with
  | nil => rfl
  | cons x out ih => rw [List.foldl_cons, ih]; rfl

/-- A sub-group of a ULCALL as it starts in a warp slot (R342). -/
def startedSub (s : State) (slot : Nat) (x : Group) : Group :=
  { withLeft s x with life := .resident, warps := x.warps.map fun w => { w with slot := slot } }

theorem sub_starts {s : State} {c x slot : Nat} {rest : List Nat} {r : RowReq} {gr : Group} (hf : firstRequest s c = some r) (hs : r.sub = some x)
    (hg : group? s x = some gr) (hid : gr.id = x) (hslots : freeSlotsOf s c = slot :: rest) :
    ∃ t up, exec (.registerPoolGrant c) s = .next t ∧ SameMemory s t ∧ group? t x = some up ∧ up.life = .resident ∧ ∀ y ∈ up.warps, y.slot = slot := by
  have hstart : startSub s c gr = joinAdmitted (modGroup s x (startedSub s slot)) c x := by
    rw [startSub, hslots]; simp only [hid]; rfl
  have hjoin := joinSet_cores c (outsiders (modGroup s x (startedSub s slot)) c fun y => y.1 == x) (modGroup s x (startedSub s slot))
  refine ⟨_, startedSub s slot gr, by rw [exec_registerPoolGrant hf, serveRows_sub hs hg, hstart], ?_, ?_, rfl, fun y hy => ?_⟩
  · refine OnlyIssue.sameMemory ((onlyIssue_of_groups (modGroup_only s x (startedSub s slot))).trans ?_)
    rw [joinAdmitted, OnlyIssue, hjoin]
  · rw [joinAdmitted, hjoin]
    exact (group?_modGroup_self ..).trans (by rw [hg]; rfl)
  · obtain ⟨z, -, rfl⟩ := List.mem_map.mp hy
    rfl

/-! ## Deadlocks -/

/-- A group whose gang has another member on its core's device: it is not saved for rows (R139). -/
def mateResident (s : State) (g : Group) : Bool :=
  match gang? s g.id with
  | some x => x.groups.any fun h => h != g.id && (match group? s h with | some y => y.life == .resident | none => false)
  | none => false

theorem execRegisterDeadlockSave_eq (s : State) (c : Nat) : execRegisterDeadlockSave c s = .next (
    if (inLogical s c).isEmpty || !(inLogical s c).all (blocked s) || (firstRequest s c).isSome then s else
    match ((inLogical s c).reverse.filter fun g => !mateResident s g && g.logits.isNone), inLogical s c with
    | v :: _, _ :: _ :: _ => serveAfter (haltAndSave s v.id .deadlock) v.id
    | _, low :: _ => growFault s low
    | _, [] => s) := by
  rfl

section
variable {s : State} {c : Nat} (hb : ∀ x ∈ residentOn s c, blocked s x = true) (hn : firstRequest s c = none)
include hb hn

theorem exec_registerDeadlockSave {a : Group} {rest : List Group} (hl : inLogical s c = a :: rest) :
    exec (.registerDeadlockSave c) s = .next (
      match ((a :: rest).reverse.filter fun g => !mateResident s g && g.logits.isNone), a :: rest with
      | v :: _, _ :: _ :: _ => serveAfter (haltAndSave s v.id .deadlock) v.id
      | _, low :: _ => growFault s low
      | _, [] => s) := by
  have hall : (inLogical s c).all (blocked s) = true := List.all_eq_true.mpr fun x hx => hb x ((mem_sortOn ..).mp hx)
  show execRegisterDeadlockSave c s = _
  rw [execRegisterDeadlockSave_eq, hall, hn, hl]; rfl

/-- The last of several groups is saved for the others (R139). -/
theorem deadlock_saves_last {a v : Group} {rest : List Group} (hl : inLogical s c = a :: rest) (hv : rest.getLast? = some v) (hlog : v.logits = none)
    (hgang : ∀ x, gang? s v.id = some x → ∀ m ∈ x.groups, m ≠ v.id → ∀ y, group? s m = some y → y.life ≠ .resident) :
    exec (.registerDeadlockSave c) s = .next (serveAfter (haltAndSave s v.id .deadlock) v.id) := by
  have hmate : mateResident s v = false := by
    unfold mateResident
    split
    · rename_i x hx
      refine List.any_eq_false.mpr fun m hm hc => ?_
      rw [Bool.and_eq_true, bne_iff_ne] at hc
      obtain ⟨hne, hres⟩ := hc
      split at hres
      · rename_i y hy
        exact hgang x hx m hm hne y hy (by simpa using hres)
      · cases hres
    · rfl
  obtain ⟨init, rfl⟩ := List.getLast?_eq_some_iff.mp hv
  have hrev : (a :: (init ++ [v])).reverse.filter (fun g => !mateResident s g && g.logits.isNone) =
      v :: (a :: init).reverse.filter (fun g => !mateResident s g && g.logits.isNone) := by
    rw [show a :: (init ++ [v]) = (a :: init) ++ [v] from rfl, List.reverse_append]
    exact List.filter_cons_of_pos (by simp [hmate, hlog])
  rw [exec_registerDeadlockSave hb hn hl, hrev]
  cases init <;> rfl

theorem deadlock_alone {a : Group} (hl : inLogical s c = [a]) : exec (.registerDeadlockSave c) s = .next (growFault s a) := by
  rw [exec_registerDeadlockSave hb hn hl]
  cases ([a].reverse.filter fun g => !mateResident s g && g.logits.isNone) <;> rfl

end

/-- A lone group whose request cannot be met faults GROWX (R139). -/
theorem growFault_request {s : State} {a : Group} {r : RowReq} {rest : List RowReq} {e : Env} (hr : rowRequests s a = r :: rest)
    (hsub : ∀ q ∈ r :: rest, q.sub = none) (he : heldEnv s a.id r.warp r.hold = some e) :
    growFault s a = takeFault (dropHold s a.id r.warp r.hold) a.id r.warp
      (recordOf s e .growx e.live (BitVec.ofNat 64 r.need) (BitVec.ofNat 64 r.asked)) := by
  have hnone : ((r :: rest).filterMap fun x => if x.warp = r.warp ∧ x.hold = r.hold then x.sub else none) = [] :=
    List.filterMap_eq_nil_iff.mpr fun q hq => by rw [hsub q hq, ite_self]
  simp only [growFault, hr, he, hnone, List.foldl_nil]

/-- In a trap entry a lone group's context ends (R358). -/
theorem growFault_trapEntry {s : State} {a : Group} {x : FaultRec} (hr : rowRequests s a = []) (hx : a.warps.findSome? (·.fault) = some x) :
    growFault s a = contextEnd s a.ctx (some x) { x with
      code := .growx, handler := true, d0 := BitVec.ofNat 64 (tempRegs a.granted).length
      d1 := BitVec.ofNat 64 ((tempRegs a.granted).head?.getD 0) } := by
  simp only [growFault, hr, hx]

/-- Settles O50: the request that is served, by its kind, and a deadlock of one group or of several. -/
theorem registerPoolServes : Obligations.RegisterPoolServes := by
  unfold Obligations.RegisterPoolServes
  intro s c
  refine ⟨fun r hr => firstRequest_spec hr, fun r g hf hs hg => ⟨fun n hk => rgrow_granted hf hs hk hg, fun reg hk => copyWait_issues_again hf hs hk hg⟩,
    fun r x g slot rest hf hs hg hid hslots => sub_starts hf hs hg hid hslots, fun hb hn => ⟨fun a rest v hl hv hlog hgang => deadlock_saves_last hb hn hl hv hlog hgang,
      fun a r e rest hl hr hsub he => ?_, fun a x hl hr hx => ?_⟩⟩
  · rw [deadlock_alone hb hn hl, growFault_request hr hsub he]
  · rw [deadlock_alone hb hn hl, growFault_trapEntry hr hx]

end Sys2Proof.Machine
end

section
/-! PROOFS. Launch blocks (R151, R160), queue words that wait (R179, R180) and the budget of a user logit kernel (R342). -/

namespace Sys2Proof.Machine

/-! ## Fields of a block -/

theorem leNat_lt (bs : List Byte) : leNat bs < 256 ^ bs.length := by
  induction bs with
  | nil => exact Nat.one_pos
  | cons b r ih =>
    have hb : b.toNat < 256 := b.isLt
    rw [leNat, List.length_cons, pow_succ]
    omega

theorem field_lt (b : List Byte) (o n : Nat) : field b o n < 256 ^ n :=
  (leNat_lt _).trans_le (Nat.pow_le_pow_right (by norm_num) (List.length_take_le ..))

/-- A field of eight bytes is a double word. -/
theorem toNat_field (b : List Byte) (o : Nat) : (BitVec.ofNat 64 (field b o 8)).toNat = field b o 8 := by
  rw [BitVec.toNat_ofNat]; exact Nat.mod_eq_of_lt ((field_lt b o 8).trans_eq (by norm_num))

/-! ## Launch blocks -/

section
variable {s : State} {g w c : Nat} {gr : Group} {gd : Grid} {va : DWord} {b : List Byte} {rest : List (Nat × Nat × DWord × Option DWord)}

/-- The core once its first launch block has been read: its credit has returned. -/
def creditBack (s : State) (c : Nat) (rest : List (Nat × Nat × DWord × Option DWord)) : State := modCore s c fun k => { k with launches := rest }

/-- The first block of a core, of a group that still stands, is read (R151). -/
theorem exec_launchBlockRead (hg : group? s g = some gr) (hl : (core s c).launches = (g, w, va, none) :: rest) (hgd : grid? s gr.grid = some gd)
    (hb : devRead s gr.ctx (gens s gr) va 64 64 = .ok b) (ht : field b 23 1 = 0) :
    exec (.launchBlockRead c) s = .next (submitChild (creditBack s c rest) (dieOf c) gr.ctx gd va b (zeros 32)) := by
  have hpop : (modCore s c fun q => { q with launches := dropAt q.launches 0 }) = creditBack s c rest := by
    show ({ s with cores := sput s.cores c { core s c with launches := dropAt (core s c).launches 0 } } : State) = _
    rw [hl]; rfl
  have hfirst : indexWhere (fun x => !blockWaits s c x) ((g, w, va, none) :: rest) = some 0 := rfl
  show execLaunchBlockRead c s = _
  simp only [execLaunchBlockRead, hl, hfirst, List.getElem?_cons_zero, hg, hgd, hb, ht, hpop, Nat.zero_ne_one, false_and, if_false]

/-- What becomes of a block that asks for no template (R151, R160). -/
theorem submitChild_plain (s : State) (d ctx : Nat) (gd : Grid) (va : DWord) {b : List Byte} (r : List Byte) (ht : field b 23 1 = 0) :
    submitChild s d ctx gd va b r =
      if blockOk b = false then postCtx s ctx 1 va.toNat 0 0 (some (deviceFault s .prot va))
      else if Config.featureLevel < field b 35 1 then failNode s gd.graph gd.node 2
      else if fitsDie (BitVec.ofNat 16 (field b 32 2)) (field b 20 1) (field b 20 1 * (8 * field b 34 1)) (roundSpm (field b 36 4)) (field b 21 1) = false
        then failNode s gd.graph gd.node 3
      else if gd.stopped then s
      else sendAlong (.grid s.seqs) (relView s d) { (fresh s).2 with grids := s.grids ++ [childGrid gd s.seqs b r] } := by
  have htmpl : (field b 23 1 == 1) = false := by rw [ht]; rfl
  simp only [submitChild, htmpl, Bool.false_and, Bool.or_false, Bool.false_eq_true, if_false, max_self, Bool.not_eq_true', gt_iff_lt]
  rfl

theorem sameMemory_submitted (s : State) (c d : Nat) (rest : List (Nat × Nat × DWord × Option DWord)) (x : Grid) :
    SameMemory s (sendAlong (.grid s.seqs) (relView (creditBack s c rest) d) { (fresh (creditBack s c rest)).2 with grids := s.grids ++ [x] }) :=
  KeepsMemory.sameMemory ⟨rfl, rfl, rfl, rfl, rfl, fun _ => rfl, fun _ => rfl⟩

end

/-! ## Queue words -/

section
variable {s x : State} {g w i q : Nat} {h : HoldRec} {e : Env} {n : Nat × Queue} {hd : Hdr} {m : MovW} {k : BitVec 8} {a d c : Reg}
  (hh : hold? s g w i = some h) (he : heldEnv s g w h = some e) (hn : queue? s e.gr q = some n) (hq : k.toNat = q)
include hh he hn hq

theorem exec_queuePushReserve (hk : h.kind = .qpush) (hi : h.instr = some (.qpush hd m k a)) :
    exec (.queuePushReserve g w i) s = .next (if n.2.closed then dropHold s g w h
      else if Queue.held n.2 + (lanesOf e.live).length ≤ n.2.cap then finishHeld s g w h (pushLanes e s n.1 q n.2 m a fun x => .done x)
      else s) := by
  subst hq
  show execQueuePushReserve g w i s = _
  simp only [execQueuePushReserve, hh, hk, hi, he, hn]

theorem exec_queuePopReserve (hk : h.kind = .qpop) (hi : h.instr = some (.qpop hd m k d c)) :
    exec (.queuePopReserve g w i) s = .next (if n.2.closed ∨ (lanesOf e.live).length ≤ Queue.held n.2
      then finishHeld s g w h (popLanes e s n.1 q n.2 m d c fun x => .done x) else s) := by
  subst hq
  show execQueuePopReserve g w i s = _
  simp only [execQueuePopReserve, hh, hk, hi, he, hn]

/-- A push that has room reserves and stores its entries, and goes on (R179). -/
theorem queuePush_goes_on (hk : h.kind = .qpush) (hi : h.instr = some (.qpush hd m k a)) (hc : n.2.closed = false)
    (hroom : n.2.tail - n.2.head + (lanesOf e.live).length ≤ n.2.cap) {at_ : List (Nat × (Nat × Nat))} (hx : LanesGive e (pushLane e s n.2 m a) s x at_) :
    exec (.queuePushReserve g w i) s =
      .next (modWarp (modQueueOf x n.1 q fun y => { y with tail := y.tail + (lanesOf e.live).length }) g w (endHold h)) := by
  rw [exec_queuePushReserve hh he hn hq hk hi, hc, if_neg (by simp), if_pos (show Queue.held n.2 + _ ≤ _ from hroom), pushLanes, lanesThen_ok hx]; rfl

omit hh he hn hq in
/-- Lanes that only read give their values and leave the state. -/
theorem eachLane_pure (f : Nat → Except LaneFault Nat) {v : Nat → Nat} : ∀ {ls : List Nat}, (∀ l ∈ ls, f l = .ok (v l)) →
    eachLane (fun x l => pureLane x (f l)) ls s = ([], s, ls.map fun l => (l, v l))
  | [], _ => rfl
  | l :: ls, hf => by
    have ih := eachLane_pure f (v := v) fun j hj => hf j (List.mem_cons_of_mem _ hj)
    have hl : pureLane s (f l) = .ok (s, v l) := by rw [hf l (List.mem_cons_self ..)]; rfl
    simp only [eachLane, hl, ih, List.map_cons]

omit hh he hn hq in
theorem writeLanes_congr (e : Env) (s : State) (d n : Nat) {f f' : Nat → Nat} (hf : ∀ l, bit e.live l = true → f l = f' l) :
    writeLanes e s d n f = writeLanes e s d n f' :=
  List.foldl_ext _ _ _ fun _ l hl => by rw [hf l ((mem_lanesOf ..).mp hl)]

/-- A pop that finds its entries, or the end of a closed queue, takes them and goes on (R180). -/
theorem queuePop_goes_on (hk : h.kind = .qpop) (hi : h.instr = some (.qpop hd m k d c))
    (hready : n.2.closed = true ∨ (lanesOf e.live).length ≤ n.2.tail - n.2.head) {f : Nat → Nat}
    (hf : ∀ l, bit e.live l = true → popLane e s n.2 m l = .ok (f l)) :
    exec (.queuePopReserve g w i) s = .next (modWarp (modQueueOf
      (writeLanes e (writeLanes e s d.toNat (MovW.regs m) f) c.toNat 1 fun l => if rankIn e.live l < n.2.tail - n.2.head then 1 else 0) n.1 q
      fun y => { y with head := y.head + min (n.2.tail - n.2.head) (lanesOf e.live).length }) g w (endHold h)) := by
  have hlanes := eachLane_pure (s := s) (popLane e s n.2 m) (v := f) (ls := lanesOf e.live) fun l hl => hf l ((mem_lanesOf ..).mp hl)
  have hval (l : Nat) (hl : bit e.live l = true) : laneNat ((lanesOf e.live).map fun l => (l, f l)) l = f l :=
    laneNat_of (Q := fun l y => y = f l) (ls := lanesOf e.live) (by simp [Function.comp_def]) (by simp) ((mem_lanesOf ..).mpr hl)
  have hone : (fun l => oneIf (decide (rankIn e.live l < Queue.held n.2))) = fun l => if rankIn e.live l < n.2.tail - n.2.head then 1 else 0 := by
    funext l
    by_cases hr : rankIn e.live l < n.2.tail - n.2.head <;> simp [oneIf, Queue.held, hr]
  rw [exec_queuePopReserve hh he hn hq hk hi, if_pos (show _ ∨ _ ≤ Queue.held n.2 from hready), popLanes, lanesThen_ok hlanes]
  simp only [finishHeld, hone, writeLanes_congr e s d.toNat (MovW.regs m) hval]; rfl

end

/-! ## The budget of a user logit kernel -/

theorem ulcallBudget_ends {s : State} {g b slot n : Nat} {gr : Group} (hg : group? s g = some gr) (hl : gr.life = .resident)
    (hlog : gr.logits = some (b, 0, slot, n)) (hf : fixedOf s gr.grid = true → b ≤ n) :
    ∃ t up, exec (.ulcallBudgetExpiry g) s = .next t ∧ SameMemory s t ∧ group? t g = some up ∧ up.logits = some (b, 30, slot, n) ∧
      ∀ x ∈ up.warps, x.ended = true ∧ x.holds = [] ∧ ∀ l ∈ x.lanes, l.exited = true := by
  have hgo : ¬ (gr.life ≠ .resident ∨ (fixedOf s gr.grid = true ∧ spent s gr = false)) := by
    rintro (h | ⟨hfix, hs⟩)
    · exact h hl
    · simp [spent, hlog, hfix, hf hfix] at hs
  refine ⟨_, { stopWarps gr with logits := some (b, 30, slot, n) }, ?_, (onlyIssue_of_groups (modGroup_only s g fun x =>
    { stopWarps x with logits := some (b, Code.num .budget, slot, n) })).sameMemory, by rw [group?_modGroup_self, hg]; rfl, rfl, fun x hx => ?_⟩
  · show execUlcallBudgetExpiry g s = _
    simp only [execUlcallBudgetExpiry, hg, hlog, if_neg hgo]
  · obtain ⟨y, -, rfl⟩ := List.mem_map.mp hx
    refine ⟨rfl, rfl, fun l hl' => ?_⟩
    obtain ⟨z, -, rfl⟩ := List.mem_map.mp hl'
    rfl

/-- Settles O51: a block by what it asks for, each queue word by its queue, and the budget. -/
theorem launchesAndQueuesProceed : Obligations.LaunchesAndQueuesProceed := by
  unfold Obligations.LaunchesAndQueuesProceed
  intro s g w gr hg
  refine ⟨fun c va gd b rest hl hgd hb ht => ?_, fun i h e q n hh he hn => ⟨fun hd m k a hk hi hq => ⟨fun hc => ?_, fun hc hroom x at_ hx => ?_⟩,
    fun hd m k d c hk hi hq hready f hf => ?_⟩, fun b slot n hl hlog hf => ulcallBudget_ends hg hl hlog hf⟩
  · have hexec := exec_launchBlockRead hg hl hgd hb ht
    rw [submitChild_plain _ _ _ _ _ _ ht] at hexec
    refine ⟨fun hbad => ?_, fun hok hlevel => ?_, fun hok hlevel hgo hfit => ?_⟩
    · rw [hexec, if_pos hbad]; rfl
    · rw [hexec, if_neg (by simp [hok]), if_pos hlevel]; rfl
    · rw [hexec, if_neg (by simp [hok]), if_neg (by omega), if_neg (by simp [hfit]), if_neg (by simp [hgo])]
      exact ⟨_, childGrid gd s.seqs b (zeros 32), rfl, sameMemory_submitted s c _ rest _, congrArg Core.launches (core_modCore_self s c fun k => { k with launches := rest }), rfl, rfl, rfl, rfl, rfl, rfl, rfl, rfl,
        rfl, rfl, rfl, rfl, toNat_field b 0, toNat_field b 8, toNat_field b 24⟩
  · rw [exec_queuePushReserve hh he hn hq hk hi, if_pos hc]
  · exact queuePush_goes_on hh he hn hq hk hi hc hroom hx
  · exact queuePop_goes_on hh he hn hq hk hi hready hf

end Sys2Proof.Machine
end

section
/-! PROOFS. What the retiring of a word leaves of its group, and the loading of a frame. -/

namespace Sys2Proof.Machine

/-! ## The group of a word that retires -/

theorem group?_leaveTurn (e : Env) (t : State) (g : Nat) : group? (leaveTurn e t) g = group? t g := by
  unfold leaveTurn; split <;> rfl

theorem group?_countWord {t : State} {e : Env} {gr : Group} (s0 : State) (i : Instr) (hg : group? t e.g = some gr) :
    ∃ lg, group? (countWord s0 e i t) e.g = some { gr with logits := lg } := by
  have count (n k : Nat) {u : State} (hu : group? u e.g = some gr) :
      group? (if k = 0 then u else countEvent u e.gr.core e.gr.ctx n k) e.g = some gr := by
    split
    · exact hu
    · rw [group?_countEvent, hu]
  have h1 := count 8 (bankReads e i) (count 7 (if affineWord s0 e i then 1 else 0) (count 2 1 hg))
  unfold countWord
  simp only
  split
  · split
    · exact ⟨_, by rw [group?_modGroup_self, h1]; rfl⟩
    · exact ⟨gr.logits, h1⟩
  · exact ⟨gr.logits, h1⟩

/-- A word that retires changes its warp, as `retiredWarp` says, and no other warp of its group. -/
theorem group?_retire {t : State} {e : Env} {gr : Group} (s0 : State) (i : Instr) (hg : group? t e.g = some gr) :
    ∃ lg, group? (retire s0 e i t) e.g = some { gr with logits := lg, warps := modAt gr.warps e.w (retiredWarp s0 e i) } := by
  obtain ⟨lg, hlg⟩ := group?_countWord s0 i hg
  have hnote : group? (noteWord s0 e i t) e.g = some { gr with logits := lg, warps := modAt gr.warps e.w (noteRegs s0 e i) } := by
    rw [noteWord, group?_modWarp_self, hlg]; rfl
  refine ⟨lg, ?_⟩
  rw [retire, group?_leaveTurn]
  cases hm : e.mark with
  | false =>
    have hret : retiredWarp s0 e i = noteRegs s0 e i := by funext x; rw [retiredWarp, hm]; rfl
    rw [hret]; exact hnote
  | true =>
    have hret : retiredWarp s0 e i = fun x => park e.live (noteRegs s0 e i x) := by funext x; rw [retiredWarp, hm]; rfl
    rw [hret, if_pos rfl, group?_modWarp_self, hnote, Option.map_some, modAt_modAt]

/-! ## Pages of a frame -/

theorem drainAt_groups (s : State) (d k n : Nat) : (drainAt s d k n).groups = s.groups := by
  unfold drainAt
  generalize chainAt s d k n = c
  obtain ⟨ps, rest⟩ := c
  show (ps.foldl performWrite { s with pend := rest }).groups = s.groups
  suffices h : ∀ u : State, (ps.foldl performWrite u).groups = u.groups from h _
  induction ps with
  | nil => intro u; rfl
  | cons p ps ih => intro u; rw [List.foldl_cons, ih, performWrite_groups]

theorem putPiece_groups (s : State) (rel : Option View) (sp a : Nat) (data : List Byte) : (putPiece s rel sp a data).groups = s.groups := by
  unfold putPiece
  split
  · rfl
  · rw [storeHome, performWrite_groups, drainAt_groups]; rfl

theorem putPieces_groups (s : State) (ps : List (Nat × Nat × Nat)) (data : List Byte) : (putPieces s ps data).groups = s.groups := by
  induction ps generalizing s data with
  | nil => rfl
  | cons p ps ih => rw [putPieces, ih, putPiece_groups]

/-! ## The group as a frame has it -/

theorem sget?_putSpm (m : List (Nat × Byte)) (a : Nat) (bs : List Byte) (k : Nat) :
    sget? (putSpm m a bs) k = if a ≤ k ∧ k < a + bs.length then bs[k - a]? else sget? m k := by
  induction bs generalizing m a with
  | nil => rw [if_neg (by simp)]; rfl
  | cons b r ih =>
    rw [putSpm, ih, sget?_sput, List.length_cons]
    by_cases hk : k = a
    · subst hk; simp
    · by_cases hin : a + 1 ≤ k ∧ k < a + 1 + r.length
      · rw [if_pos hin, if_pos (by omega), show k - a = k - (a + 1) + 1 by omega, List.getElem?_cons_succ]
      · rw [if_neg hin, if_neg hk, if_neg (by omega)]

theorem loadSpm_warps (gr : Group) (tmpl : Bool) (b : List Byte) : (loadSpm gr tmpl b).warps = gr.warps := by
  unfold loadSpm; split <;> rfl

theorem loadSpm_kind (gr : Group) (tmpl : Bool) (b : List Byte) : (loadSpm gr tmpl b).kind = gr.kind := by
  unfold loadSpm; split <;> rfl

section
variable {gr : Group} {tmpl : Bool} {secs : List (Nat × List Byte)} {hs : List (Option Handler)} {x : List Byte}

theorem loadGroup_warp {i : Nat} {w : Warp} (hx : (bodiesOf secs 1)[i]? = some x) (hw : gr.warps[i]? = some w) :
    (loadGroup gr tmpl secs hs).warps[i]? = some (loadWarp gr gr.kind.tmpl?.isSome x (hs[i]?.getD none) w) := by
  have hmap : (gr.warps.mapIdx fun i w => match (bodiesOf secs 1)[i]? with
      | some b => loadWarp gr gr.kind.tmpl?.isSome b (hs[i]?.getD none) w
      | none => w)[i]? = some (loadWarp gr gr.kind.tmpl?.isSome x (hs[i]?.getD none) w) := by
    rw [List.getElem?_mapIdx, hw, Option.map_some, hx]
  unfold loadGroup
  cases bodiesOf secs 2 <;> cases bodiesOf secs 3 <;> cases bodiesOf secs 4 <;> cases bodiesOf secs 5 <;>
    simp only [loadSpm_warps] <;> exact hmap

theorem loadGroup_bars (hx : bodiesOf secs 3 = [x]) : (loadGroup gr tmpl secs hs).bars =
    (List.range 8).map fun k => { phase := field x (4 * k) 4, arrived := lanesOf (BitVec.ofNat 32 (field x (32 + 4 * k) 4)) } := by
  unfold loadGroup
  rw [hx]
  cases bodiesOf secs 4 <;> cases bodiesOf secs 5 <;> rfl

theorem loadGroup_spm (hx : bodiesOf secs 2 = [x]) : (loadGroup gr false secs hs).spm = putSpm [] 0 x := by
  unfold loadGroup
  rw [hx]
  cases bodiesOf secs 3 <;> cases bodiesOf secs 4 <;> cases bodiesOf secs 5 <;> rfl

theorem loadGroup_kind : (loadGroup gr tmpl secs hs).kind = gr.kind := by
  unfold loadGroup
  cases bodiesOf secs 2 <;> cases bodiesOf secs 3 <;> cases bodiesOf secs 4 <;> cases bodiesOf secs 5 <;>
    simp only [loadSpm_kind]

end

/-- The scratchpad section of a frame that keeps the layout is as long as the scratchpad (R364, R374). -/
theorem sectionsOk_spm {gr : Group} {secs : List (Nat × List Byte)} {x : List Byte} (h : sectionsOk gr false secs = true)
    (hx : bodiesOf secs 2 = [x]) (hn : gr.spmSize ≠ 0) : x.length = gr.spmSize := by
  unfold sectionsOk at h
  simp only [hx, hn, if_false, Bool.and_eq_true, Bool.false_eq_true, beq_iff_eq] at h
  tauto

theorem placeSlots_nil (s : State) (g c : Nat) : placeSlots s g c [] =
    some (modGroup (modCore s c fun k => { k with slots := k.slots }) g fun x => { x with slots := [] }) := by
  simp [placeSlots]

end Sys2Proof.Machine
end

section
/-! PROOFS. TSAVE and TLOAD (R142, R364, R374, R379). -/

namespace Sys2Proof.Machine

/-! ## A word of the whole group -/

/-- A prologue, of a node or nested: a warp that stands apart in it faults TEMPLATE (R142). -/
def isPrologue (gr : Group) : Bool := match gr.kind with | .prologue => true | .nested _ => true | _ => false

theorem isPrologue_iff (gr : Group) : isPrologue gr = true ↔ gr.kind = .prologue ∨ ∃ t, gr.kind = .nested t := by
  unfold isPrologue
  cases gr.kind <;> simp

/-- The holds of the other warps at the word: the first of each. -/
def othersHeld (e : Env) (mine : Hold → Bool) : List HoldRec := (othersOf e).filterMap fun w => (w.holds.filter fun h => mine h.kind).head?

section
variable {i : Instr} {s : State} {e : Env} {a : Reg} {mine : Hold → Bool} {addr : Hold → DWord} {k : Hold → WordRes} {own : DWord → Hold}
  {act : DWord → State → WordRes}

theorem wholeGroup_eq (e : Env) (s : State) (a : Reg) (mine : Hold → Bool) (addr : Hold → DWord) (k : Hold → WordRes) (own : DWord → Hold)
    (act : DWord → State → WordRes) : wholeGroup e s a mine addr k own act =
    (let va := match leader e.live with | some l => e.d s a l | none => 0
     let first := (othersOf e).all fun w => decide (e.wp.index < w.index)
     if !converged e then .trap s (if isPrologue e.gr then .template else .bardiv) e.live (if isPrologue e.gr then 0 else atPcDetail e) 0
     else if first && va.toNat % 256 != 0 then .trap s .align e.live va 0
     else if (othersHeld e mine).length < (othersOf e).length then k (own va)
     else if e.gr.warps.any fun w => !w.outs.isEmpty then k .ret
     else if !groupIdle s e.g then k .accept
     else afterRelease e s true .dev (act (if first then va else ((othersHeld e mine).head?.map fun h => addr h.kind).getD va))) := rfl

theorem wholeGroup_apart (hc : converged e = false) : wholeGroup e s a mine addr k own act =
    .trap s (if isPrologue e.gr then .template else .bardiv) e.live (if isPrologue e.gr then 0 else atPcDetail e) 0 := by
  simp only [wholeGroup_eq, hc, Bool.not_false, if_true]

section
variable {l : Nat} (hc : converged e = true) (hl : leader e.live = some l)
include hc hl

theorem wholeGroup_misaligned (hfirst : ∀ w ∈ othersOf e, e.wp.index < w.index) (ha : (e.d s a l).toNat % 256 ≠ 0) :
    wholeGroup e s a mine addr k own act = .trap s .align e.live (e.d s a l) 0 := by
  have hall : (othersOf e).all (fun w => decide (e.wp.index < w.index)) = true := by simpa using hfirst
  have hbad : ((e.d s a l).toNat % 256 != 0) = true := by simpa using ha
  simp only [wholeGroup_eq, hc, hl, hall, hbad, Bool.not_true, Bool.false_eq_true, if_false, Bool.and_self, if_true]

/-- While another warp has not come to the word, the warp is held at it. -/
theorem wholeGroup_early (ha : (e.d s a l).toNat % 256 = 0) {w : Warp} (hw : w ∈ othersOf e) (hh : ∀ h ∈ w.holds, mine h.kind = false) :
    wholeGroup e s a mine addr k own act = k (own (e.d s a l)) := by
  have hnone : (w.holds.filter fun h => mine h.kind).head? = none := by
    rw [List.head?_eq_none_iff, List.filter_eq_nil_iff]
    exact fun h hm => by simp [hh h hm]
  have hlt : (othersHeld e mine).length < (othersOf e).length := List.length_filterMap_lt_length_iff_exists.mpr ⟨w, hw, hnone⟩
  simp only [wholeGroup_eq, hc, hl, ha, hlt, bne_self_eq_false, Bool.and_false, Bool.not_true, Bool.false_eq_true, if_false, if_true]

/-- The last warp waits for results, then for operations, and acts. -/
theorem wholeGroup_last (ha : (e.d s a l).toNat % 256 = 0) (ho : othersOf e = []) : wholeGroup e s a mine addr k own act =
    if e.gr.warps.any fun w => !w.outs.isEmpty then k .ret
    else if !groupIdle s e.g then k .accept
    else afterRelease e s true .dev (act (e.d s a l)) := by
  simp only [wholeGroup_eq, hc, hl, ha, othersHeld, ho, List.all_nil, List.filterMap_nil, List.length_nil, Nat.lt_irrefl, bne_self_eq_false, Bool.and_false,
    Bool.not_true, Bool.false_eq_true, if_false, if_true]

end
end

end Sys2Proof.Machine
end

section
/-! PROOFS. TSAVE and TLOAD save and load the calling group (R142, R364, R374, R379). -/

namespace Sys2Proof.Machine

/-! ## What the two words have in common -/

theorem mem_othersOf (e : Env) (w : Warp) : w ∈ othersOf e ↔ w ∈ e.gr.warps ∧ w.index ≠ e.wp.index ∧ w.ended = false := by
  simp only [othersOf, List.mem_filter, Bool.and_eq_true, bne_iff_ne, ne_eq, Bool.not_eq_true']

theorem groupIdle_iff (s : State) (g : Nat) : groupIdle s g = true ↔ (∀ c ∈ s.copies, c.group ≠ g) ∧ ∀ o ∈ s.matops, o.group ≠ g := by
  simp [groupIdle]

theorem outsOnWay_iff (gr : Group) : (gr.warps.any fun w => !w.outs.isEmpty) = false ↔ ∀ w ∈ gr.warps, w.outs = [] := by
  simp

theorem holdsOn_here {i : Instr} {s : State} {e : Env} (h : Issues i s e) (k : Hold) (lanes : Mask)
    (hx : exec i s = finish e i (.hold s k lanes) s) : HoldsOn i s e s k lanes := by
  rw [HoldsOn, hx, on_of_here (issues_here h)]
  exact held_here h k lanes

/-- A word of the whole group faults where a warp stands elsewhere, or its address is not aligned, and holds each warp but the last,
which waits for results and operations (R142, R374, log entry 55). -/
def ActsLast (i : Instr) (s : State) (e : Env) (a : Reg) (kind : DWord → Hold) : Prop :=
  let pro : Prop := e.gr.kind = .prologue ∨ ∃ t, e.gr.kind = .nested t
  let other (w : Warp) : Prop := w ∈ e.gr.warps ∧ w.index ≠ e.wp.index ∧ w.ended = false
  let idle : Prop := (∀ c ∈ s.copies, c.group ≠ e.g) ∧ ∀ o ∈ s.matops, o.group ≠ e.g
  let quiet : Prop := ∀ w ∈ e.gr.warps, w.outs = []
  (¬ Together e → pro → Faults i s e .template e.live 0 0) ∧
  (¬ Together e → ¬ pro → Faults i s e .bardiv e.live (e.atPc.setWidth 64) 0) ∧
  ∀ l, Together e → leader e.live = some l →
    ((∀ w, other w → e.wp.index < w.index) → (e.d s a l).toNat % 256 ≠ 0 → Faults i s e .align e.live (e.d s a l) 0) ∧
    ((∃ w, other w ∧ ∀ h ∈ w.holds, ∀ v, h.kind ≠ kind v ∧ ∀ k, h.kind ≠ .tsave v k) → (e.d s a l).toNat % 256 = 0 →
      HoldsOn i s e s (kind (e.d s a l)) e.atPc) ∧
    ((∀ w, ¬ other w) → (e.d s a l).toNat % 256 = 0 →
      (¬ quiet → HoldsOn i s e s .ret e.atPc) ∧ (quiet → ¬ idle → HoldsOn i s e s .accept e.atPc))

section
variable {i : Instr} {s : State} {e : Env} {a : Reg} {mine : Hold → Bool} {addr : Hold → DWord} {kind : DWord → Hold} {act : DWord → State → WordRes}
  (hi : Issues i s e) (hx : exec i s = finish e i (wholeGroup e s a mine addr (fun k => .hold s k e.atPc) kind act) s)
include hi hx

theorem actsLast_of_wholeGroup (hmine : ∀ k, mine k = true → ∃ v, k = kind v ∨ ∃ j, k = .tsave v j) : ActsLast i s e a kind := by
  have happart (ht : ¬ Together e) : converged e = false := by simpa using mt (converged_iff hi).mp ht
  refine ⟨fun ht hp => ?_, fun ht hp => ?_, fun l ht hl => ⟨fun hfirst ha => ?_, fun ⟨w, hw, hh⟩ ha => ?_, fun hno ha => ⟨fun hq => ?_, fun hq hidle => ?_⟩⟩⟩
  · rw [Faults, hx, wholeGroup_apart (happart ht), (isPrologue_iff _).mpr hp, finish_trap]; rfl
  · rw [Faults, hx, wholeGroup_apart (happart ht), Bool.eq_false_iff.mpr (mt (isPrologue_iff _).mp hp), finish_trap]; rfl
  · rw [Faults, hx, wholeGroup_misaligned ((converged_iff hi).mpr ht) hl (fun w hw => hfirst w ((mem_othersOf ..).mp hw)) ha, finish_trap]
  · refine holdsOn_here hi _ _ ?_
    rw [hx, wholeGroup_early ((converged_iff hi).mpr ht) hl ha ((mem_othersOf ..).mpr hw) fun h hm => ?_]
    refine Bool.eq_false_iff.mpr fun hc => ?_
    obtain ⟨v, hv | ⟨j, hj⟩⟩ := hmine _ hc
    · exact (hh h hm v).1 hv
    · exact (hh h hm v).2 j hj
  · refine holdsOn_here hi _ _ ?_
    have hnone : othersOf e = [] := List.eq_nil_iff_forall_not_mem.mpr fun w hw => hno w ((mem_othersOf ..).mp hw)
    rw [hx, wholeGroup_last ((converged_iff hi).mpr ht) hl ha hnone, if_pos (by simpa using mt (outsOnWay_iff _).mp hq)]
  · refine holdsOn_here hi _ _ ?_
    have hnone : othersOf e = [] := List.eq_nil_iff_forall_not_mem.mpr fun w hw => hno w ((mem_othersOf ..).mp hw)
    rw [hx, wholeGroup_last ((converged_iff hi).mpr ht) hl ha hnone, (outsOnWay_iff _).mpr hq, if_neg (by simp),
      if_pos (by simpa using mt (groupIdle_iff ..).mp hidle)]

/-- The last warp acts, once every result has returned and every operation has ended. -/
theorem exec_last {l : Nat} {b : State} (ht : Together e) (hl : leader e.live = some l) (hno : ∀ w, ¬ (w ∈ e.gr.warps ∧ w.index ≠ e.wp.index ∧ w.ended = false))
    (ha : (e.d s a l).toNat % 256 = 0) (hq : ∀ w ∈ e.gr.warps, w.outs = []) (hidle : (∀ c ∈ s.copies, c.group ≠ e.g) ∧ ∀ o ∈ s.matops, o.group ≠ e.g)
    (hb : Released e s true .dev b) : exec i s = finish e i (act (e.d s a l) b) s := by
  have hnone : othersOf e = [] := List.eq_nil_iff_forall_not_mem.mpr fun w hw => hno w ((mem_othersOf ..).mp hw)
  rw [hx, wholeGroup_last ((converged_iff hi).mpr ht) hl ha hnone, (outsOnWay_iff _).mpr hq, if_neg (by simp),
    (groupIdle_iff ..).mpr hidle, if_neg (by simp), afterRelease_released hb]

end

/-! ## TSAVE -/

def isSave : Hold → Bool
  | .tsave _ _ => true
  | _ => false

theorem resumeSaved_of_no_holds (s : State) (g w : Nat) {wp : Warp} (h : wp.holds = []) : resumeSaved s g w wp = s := by
  rw [resumeSaved, h]; rfl

def saveAddr : Hold → DWord
  | .tsave v _ => v
  | _ => 0

/-- Each warp of the group but the executing one goes on from the TSAVE that holds it. -/
def resumeOthers (e : Env) (t : State) : State :=
  (List.range e.gr.warps.length).foldl (fun u w => match e.gr.warps[w]? with
    | some wp => if w = e.w then u else resumeSaved u e.g w wp
    | none => u) t

theorem resumeOthers_of_no_holds {e : Env} (h : ∀ (w : Nat) (wp : Warp), e.gr.warps[w]? = some wp → w ≠ e.w → wp.holds = []) (t : State) :
    resumeOthers e t = t := by
  refine List.foldl_fixed' (fun w => ?_) _
  cases hw : e.gr.warps[w]? with
  | none => rfl
  | some wp =>
    simp only
    split
    · rfl
    · exact resumeSaved_of_no_holds _ _ _ (h w wp hw ‹_›)

/-- What the last warp of a TSAVE does once nothing is on its way: it writes the frame, and each warp that it held goes on (R374). -/
def saveAct (e : Env) (d : Reg) (base : DWord) (t : State) : WordRes :=
  let f := frameBytes t (savedGroup t e d.toNat) .tsave
  match framePieces t e base f.length with
  | .error none => .stop .noSuchMemory
  | .error (some (c, d0, d1)) => .trap t c e.live d0 d1
  | .ok ps => .done (writeLanes e (resumeOthers e (putPieces t ps f)) d.toNat 1 fun _ => 1)

theorem exec_tsave {m : Bool} {d a : Reg} {s : State} {e : Env} (hi : Issues (.tsave m d a) s e) :
    exec (.tsave m d a) s = finish e (.tsave m d a)
      (wholeGroup e s a isSave saveAddr (fun k => .hold s k e.atPc) (fun v => .tsave v d.toNat) (saveAct e d)) s := by
  show execTsave m d a s = _
  rw [execTsave, runWord_issues hi]
  refine congrArg (fun act => finish e _ (wholeGroup e s a isSave saveAddr _ _ act) s) (funext fun base => funext fun t => ?_)
  simp only [saveAct]
  cases framePieces t e base (frameBytes t (savedGroup t e d.toNat) .tsave).length with
  | error x => cases x <;> rfl
  | ok ps => rfl

theorem saveAct_saves {e : Env} {d : Reg} {base : DWord} {t : State} {ps : List (Nat × Nat × Nat)}
    (hps : framePieces t e base (frameBytes t (savedGroup t e d.toNat) .tsave).length = .ok ps)
    (hholds : ∀ (w : Nat) (wp : Warp), e.gr.warps[w]? = some wp → w ≠ e.w → wp.holds = []) :
    saveAct e d base t = .done (writeLanes e (putPieces t ps (frameBytes t (savedGroup t e d.toNat) .tsave)) d.toNat 1 fun _ => 1) := by
  simp only [saveAct, hps, resumeOthers_of_no_holds hholds]

theorem tsave_saves {m : Bool} {d a : Reg} {s b : State} {e : Env} (hi : Issues (.tsave m d a) s e) {va : DWord}
    (hx : exec (.tsave m d a) s = finish e (.tsave m d a) (saveAct e d va b) s) (hb : b.groups = s.groups) {ps : List (Nat × Nat × Nat)}
    (hps : framePieces b e va (frameBytes b (savedGroup b e d.toNat) .tsave).length = .ok ps)
    (hholds : ∀ (w : Nat) (wp : Warp), e.gr.warps[w]? = some wp → w ≠ e.w → wp.holds = []) :
    CompletesOn (.tsave m d a) s e (putPieces b ps (frameBytes b (savedGroup b e d.toNat) .tsave)) (resultIn e d 1 fun _ => 1) := by
  have hu : Here e (putPieces b ps (frameBytes b (savedGroup b e d.toNat) .tsave)) := here_of_groups (issues_here hi) ((putPieces_groups ..).trans hb)
  rw [CompletesOn, on_of_here hu, hx, saveAct_saves hps hholds]
  exact ⟨_, finish_done hi _, settled_of_wrote s _ (wrote_writeLanes d 1 _ (wrote_refl hu))⟩

/-! ## TLOAD -/

def isLoad : Hold → Bool
  | .tload _ => true
  | _ => false

def loadAddr : Hold → DWord
  | .tload v => v
  | _ => 0

/-- What the last warp of a TLOAD does once nothing is on its way: it reads the frame and loads it where it is one of this group (R374). -/
def loadAct (e : Env) (base : DWord) (t : State) : WordRes :=
  let read (n : Nat) : Except LaneFault (List Byte) := match devRead t e.gr.ctx (gens t e.gr) base 1 n with
    | .ok b => .ok b
    | .wait x => bad .page x 0
    | .bad c x => bad c x 0
    | .hole => .error none
  let got : Except LaneFault (List Byte × List Byte) := do
    let hd ← read 64
    if !headerOk e.gr hd then bad .prot base 0 else pure (hd, ← read (field hd 4 4))
  match got with
  | .error none => .stop .noSuchMemory
  | .error (some (c, d0, d1)) => .trap t c e.live d0 d1
  | .ok (hd, b) =>
    let area := field hd 24 8
    match sectionsOf (field hd 44 2) (b.drop 64) with
    | none => .trap t .prot e.live base 0
    | some secs =>
      if !sectionsOk e.gr (area != 0) secs then .trap t .prot e.live base 0
      else if area != 0 && ((e.gr.kind.tmpl?.bind (tmpl? t)).map (·.area)) != some area then .trap t .template e.live 0 0
      else loadFrame e t (area != 0) secs

theorem exec_tload {m : Bool} {a : Reg} {s : State} {e : Env} (hi : Issues (.tload m a) s e) :
    exec (.tload m a) s = finish e (.tload m a) (wholeGroup e s a isLoad loadAddr (fun k => .hold s k e.atPc) .tload (loadAct e)) s := by
  show execTload m a s = _
  rw [execTload, runWord_issues hi]
  rfl

section
variable {e : Env} {base : DWord} {t : State} {hd : List Byte} (hhd : devRead t e.gr.ctx (gens t e.gr) base 1 64 = .ok hd)
include hhd

theorem loadAct_bad (hbad : headerOk e.gr hd = false) : loadAct e base t = .trap t .prot e.live base 0 := by
  simp only [loadAct, hhd, hbad, bind, Except.bind, Bool.not_false, if_true, bad]

theorem loadAct_loads {f : List Byte} {secs : List (Nat × List Byte)} (hok : headerOk e.gr hd = true)
    (hf : devRead t e.gr.ctx (gens t e.gr) base 1 (field hd 4 4) = .ok f) (harea : field hd 24 8 = 0)
    (hsecs : sectionsOf (field hd 44 2) (f.drop 64) = some secs) (hsecsOk : sectionsOk e.gr false secs = true) :
    loadAct e base t = loadFrame e t false secs := by
  have hgot : (do
      let hd ← (.ok hd : Except LaneFault (List Byte))
      if !headerOk e.gr hd then bad .prot base 0
        else pure (hd, ← (match devRead t e.gr.ctx (gens t e.gr) base 1 (field hd 4 4) with
          | .ok b => .ok b
          | .wait x => bad .page x 0
          | .bad c x => bad c x 0
          | .hole => .error none : Except LaneFault (List Byte)))) = .ok (hd, f) := by
    simp only [bind, Except.bind, hok, hf]
    rfl
  simp only [loadAct, hhd, hok, hf, bind, Except.bind, Bool.not_true, Bool.false_eq_true, if_false, pure, Except.pure, harea, hsecs, bne_self_eq_false, hsecsOk,
    Bool.false_and]

end

/-- The group that a frame of the section list `secs` makes of one, its accumulator slots apart. -/
def loadedGroup (secs : List (Nat × List Byte)) (hs : List (Option Handler)) (gr : Group) : Group :=
  { loadGroup { gr with slots := [] } false secs hs with slots := [] }

theorem group?_freeSlots (s : State) (gr : Group) (g : Nat) : group? (freeSlots s gr) g = group? s g := by
  unfold freeSlots; split <;> rfl

/-- The state after a frame without handlers and accumulator slots has been loaded. -/
def loadedState (t : State) (e : Env) (secs : List (Nat × List Byte)) : State :=
  modGroup (modCore (modGroup (freeSlots t e.gr) e.g fun x => loadGroup { x with slots := [] } false secs ((List.range e.gr.warpsN).map fun _ => none))
    e.gr.core fun k => { k with slots := k.slots }) e.g fun x => { x with slots := [] }

theorem loadFrame_loads {t : State} {e : Env} {secs : List (Nat × List Byte)} (hh : Here e t) (hno : ∀ x ∈ bodiesOf secs 1, sectionHandler x = false)
    (hslots : loadSlots secs = []) : loadFrame e t false secs = .jump (loadedState t e secs) := by
  have hnow : e.now t = e.gr := by rw [Env.now, hh.1]; rfl
  have hnone : (bodiesOf secs 1).filter sectionHandler = [] := List.filter_eq_nil_iff.mpr fun x hx => by simp [hno x hx]
  simp only [loadFrame, hnow, hnone, List.map_nil, List.zip_nil_left, putTraps, hslots, placeSlots_nil]
  rfl

theorem group?_loadedState {t : State} {e : Env} (hh : Here e t) (secs : List (Nat × List Byte)) :
    group? (loadedState t e secs) e.g = some (loadedGroup secs ((List.range e.gr.warpsN).map fun _ => none) e.gr) := by
  rw [loadedState, group?_modGroup_self, group?_modCore, group?_modGroup_self, group?_freeSlots, hh.1]
  rfl

/-- The warps of a group that a TLOAD has replaced, as the word retires. -/
theorem tload_loads {m : Bool} {a : Reg} {s b : State} {e : Env} (hi : Issues (.tload m a) s e) {secs : List (Nat × List Byte)}
    (hx : exec (.tload m a) s = finish e (.tload m a) (loadFrame e b false secs) s) (hb : b.groups = s.groups)
    (hno : ∀ x ∈ bodiesOf secs 1, sectionHandler x = false) (hslots : loadSlots secs = []) :
    ∃ t hs lg, exec (.tload m a) s = .next t ∧ group? t e.g = some { loadedGroup secs hs e.gr with
      logits := lg, warps := modAt (loadedGroup secs hs e.gr).warps e.w (retiredWarp s e (.tload m a)) } := by
  have hh := here_of_groups (issues_here hi) hb
  obtain ⟨lg, hlg⟩ := group?_retire s (.tload m a) (group?_loadedState hh secs)
  exact ⟨_, _, lg, by rw [hx, loadFrame_loads hh hno hslots, finish_jump hi], hlg⟩

/-- A warp of the frame, whether or not it is the warp of the word that loads it. -/
theorem loadedWarp_lanes {s : State} {i : Instr} {e : Env} {secs : List (Nat × List Byte)} {hs : List (Option Handler)} {gr : Group} {x : List Byte} {n : Nat}
    (hx : (bodiesOf secs 1)[n]? = some x) (hn : n < gr.warps.length) :
    ∃ wp, (modAt (loadedGroup secs hs gr).warps e.w (retiredWarp s e i))[n]? = some wp ∧ wp.holds = [] ∧
      ∀ k, k < 32 → ∃ y, wp.lanes[k]? = some y ∧ y.pc = BitVec.ofNat 64 (field x (16 + 8 * k) 8) ∧ y.exited = bit (BitVec.ofNat 32 (field x 4 4)) k := by
  have hload := loadGroup_warp (gr := { gr with slots := [] }) (tmpl := false) (hs := hs) hx (List.getElem?_eq_getElem hn)
  set wp := loadWarp { gr with slots := [] } gr.kind.tmpl?.isSome x (hs[n]?.getD none) gr.warps[n] with hwp
  replace hload : (loadedGroup secs hs gr).warps[n]? = some wp := hload
  have hlanes (k : Nat) (hk : k < 32) : ∃ y, wp.lanes[k]? = some y ∧ y.pc = BitVec.ofNat 64 (field x (16 + 8 * k) 8) ∧
      y.exited = bit (BitVec.ofNat 32 (field x 4 4)) k := by
    refine ⟨{ pc := BitVec.ofNat 64 (field x (16 + 8 * k) 8), exited := bit (BitVec.ofNat 32 (field x 4 4)) k, yields := 0, age := 0 }, ?_, rfl, rfl⟩
    simp only [hwp, loadWarp, List.getElem?_map, List.getElem?_range hk]
    rfl
  rw [getElem?_modAt, hload]
  by_cases hw : n = e.w
  · obtain ⟨p, q, f, r, hret⟩ := retiredWarp_only s e i wp
    rw [if_pos hw]
    exact ⟨_, rfl, by rw [hret]; rfl, fun k hk => by rw [hret]; exact hlanes k hk⟩
  · rw [if_neg hw]
    exact ⟨wp, rfl, rfl, hlanes⟩

theorem spmByte_of_plain (s : State) {gr : Group} (h : gr.kind = .plain) (k : Nat) :
    spmByte s gr k = (sget? gr.spm k).getD (staleSpm gr.seed gr.leftSpm k) := by
  simp [spmByte, h, GroupKind.tmpl?]

theorem loadedGroup_phase {secs : List (Nat × List Byte)} {x : List Byte} (hx : bodiesOf secs 3 = [x]) (hs : List (Option Handler)) (gr : Group)
    {k : Nat} (hk : k < 8) : ((loadedGroup secs hs gr).bars[k]?).map (·.phase) = some (field x (4 * k) 4) := by
  rw [show (loadedGroup secs hs gr).bars = (loadGroup { gr with slots := [] } false secs hs).bars from rfl, loadGroup_bars hx, List.getElem?_map,
    List.getElem?_range hk]
  rfl

theorem loadedGroup_spm {secs : List (Nat × List Byte)} {x : List Byte} (hx : bodiesOf secs 2 = [x]) (hs : List (Option Handler)) (gr : Group)
    {k : Nat} (hk : k < x.length) : sget? (loadedGroup secs hs gr).spm k = some x[k] := by
  rw [show (loadedGroup secs hs gr).spm = (loadGroup { gr with slots := [] } false secs hs).spm from rfl, loadGroup_spm hx, sget?_putSpm,
    if_pos ⟨Nat.zero_le _, by omega⟩, Nat.sub_zero, List.getElem?_eq_getElem hk]

theorem loadedGroup_kind (secs : List (Nat × List Byte)) (hs : List (Option Handler)) (gr : Group) : (loadedGroup secs hs gr).kind = gr.kind :=
  loadGroup_kind (gr := { gr with slots := [] })

/-- What a group that holds a frame reads: its warps' lanes, its barriers' phases and its scratchpad (R374). -/
theorem loaded_reads {t s : State} {e : Env} {i : Instr} {secs : List (Nat × List Byte)} {hs : List (Option Handler)} {lg : Option (Nat × Nat × Nat × Nat)}
    (hgt : group? t e.g = some { loadedGroup secs hs e.gr with
      logits := lg, warps := modAt (loadedGroup secs hs e.gr).warps e.w (retiredWarp s e i) }) (hok : sectionsOk e.gr false secs = true) :
    (∀ n x, (bodiesOf secs 1)[n]? = some x → n < e.gr.warps.length → ∃ wp, warp? t e.g n = some wp ∧ wp.holds = [] ∧
      ∀ k, k < 32 → ∃ y, wp.lanes[k]? = some y ∧ y.pc = BitVec.ofNat 64 (field x (16 + 8 * k) 8) ∧ y.exited = bit (BitVec.ofNat 32 (field x 4 4)) k) ∧
    (∀ x, bodiesOf secs 3 = [x] → ∀ k, k < 8 → ((groupOf e t).bars[k]?).map (·.phase) = some (field x (4 * k) 4)) ∧
    (e.gr.kind = .plain → ∀ x, bodiesOf secs 2 = [x] → ∀ k, k < e.gr.spmSize → spmAt t e.g k = x[k]?.getD 0) := by
  refine ⟨fun n x hx hn => ?_, fun x hx k hk => ?_, fun hkind x hx k hk => ?_⟩
  · obtain ⟨wp, hwp, hrest⟩ := loadedWarp_lanes (s := s) (i := i) (e := e) (hs := hs) hx hn
    exact ⟨wp, warp?_of hgt hwp, hrest⟩
  · rw [groupOf, hgt]
    exact loadedGroup_phase hx hs e.gr hk
  · have hlen := sectionsOk_spm hok hx (by omega)
    rw [spmAt, hgt]
    refine (spmByte_of_plain t ((loadedGroup_kind ..).trans hkind) k).trans ?_
    rw [loadedGroup_spm hx hs e.gr (by omega),
      List.getElem?_eq_getElem (by omega)]
    rfl

/-- Settles O47: what the two words have in common, and what the last warp does. -/
theorem groupSavesAndLoads : Obligations.GroupSavesAndLoads := by
  unfold Obligations.GroupSavesAndLoads
  intro s e m d a
  refine ⟨fun hi => ?_, fun hi => ?_, fun l b ht hl hno ha hq hidle hb => ⟨fun hi hholds ps hps => ?_, fun hi hd hhd => ⟨fun hheader => ?_, ?_⟩⟩⟩
  · refine actsLast_of_wholeGroup hi (exec_tsave hi) fun k hk => ?_
    cases k <;> cases hk
    exact ⟨_, .inr ⟨_, rfl⟩⟩
  · refine actsLast_of_wholeGroup hi (exec_tload hi) fun k hk => ?_
    cases k <;> cases hk
    exact ⟨_, .inl rfl⟩
  · exact tsave_saves hi (exec_last hi (exec_tsave hi) ht hl hno ha hq hidle hb) (released_groups hb) hps hholds
  · rw [exec_last hi (exec_tload hi) ht hl hno ha hq hidle hb, loadAct_bad hhd hheader, finish_trap]
  · intro f secs ls hheader hf harea hsecs hok hhandlers hls hnil
    have hlast := exec_last hi (exec_tload hi) ht hl hno ha hq hidle hb
    rw [loadAct_loads hhd hheader hf harea hsecs hok] at hlast
    obtain ⟨t, hs, lg, hexec, hgt⟩ := tload_loads hi hlast (released_groups hb) hhandlers (hls.trans hnil)
    exact ⟨t, hexec, loaded_reads hgt hok⟩

end Sys2Proof.Machine
end

section
/-! PROOFS. Barrier phases and gang phases that end (R140, R141, R150). -/

namespace Sys2Proof.Machine

/-! ## A warp whose holds end -/

/-- One hold is all a warp has, and it ends. -/
theorem endHolds_single {wp : Warp} {h : HoldRec} {q : HoldRec → Bool} (hone : wp.holds = [h]) (hq : q h = true) : endHolds wp q = endHold h wp := by
  rw [endHolds, hone, List.filter_cons_of_pos hq, List.filter_nil, List.foldl_cons, List.foldl_nil]

theorem dropHolds?_of_no_holds {wp : Warp} (h : wp.holds = []) (q : HoldRec → Bool) : dropHolds? wp q = wp := by
  rw [dropHolds?, h, List.filter_nil, ← h]

/-! ## Barrier phases -/

/-- A word held for a phase of barrier b issues again once that phase ends (R150). -/
def rearrives (b : Nat) (h : HoldRec) : Bool :=
  match h.kind with
  | .rearrive c _ => c == b
  | _ => false

/-- A group one of whose barrier's phases ends. -/
def phaseEnded (b : Nat) (gr : Group) : Group :=
  { gr with
    bars := modAt gr.bars b fun y => { phase := (y.phase + 1) % 2 ^ 32, arrived := [] }
    phases := gr.phases + 1
    warps := gr.warps.map fun w => dropHolds? (endHolds w fun h => h.kind == .barrier b (bar gr b).phase) (rearrives b) }

theorem barDone_iff (gr : Group) (b : Nat) :
    barDone gr b = true ↔ (bar gr b).arrived ≠ [] ∧ ∀ x ∈ gr.warps, x.ended = true ∨ x.index ∈ (bar gr b).arrived := by
  simp [barDone]

theorem execBarrierPhaseComplete_done {s : State} {g b : Nat} {gr : Group} (hg : group? s g = some gr) (hlife : gr.life = .resident)
    (hdone : barDone gr b = true) : ∃ t, exec (.barrierPhaseComplete g b) s = .next t ∧ SameMemory s t ∧ group? t g = some (phaseEnded b gr) := by
  refine ⟨modGroup s g fun _ => phaseEnded b gr, ?_, (onlyIssue_of_groups (modGroup_only ..)).sameMemory, by rw [group?_modGroup_self, hg]; rfl⟩
  have hgo : ¬ (gr.life ≠ .resident ∨ barDone gr b = false) := by simp [hlife, hdone]
  show execBarrierPhaseComplete g b s = _
  simp only [execBarrierPhaseComplete, hg, if_neg hgo, modGroup]
  rfl

theorem bar_phaseEnded {gr : Group} {b : Nat} (h : b < gr.bars.length) :
    bar (phaseEnded b gr) b = { phase := ((bar gr b).phase + 1) % 2 ^ 32, arrived := [] } := by
  simp only [bar, phaseEnded, getElem?_modAt_self, List.getElem?_eq_getElem h]
  rfl

theorem bar_phaseEnded_ne (gr : Group) {b c : Nat} (h : c ≠ b) : bar (phaseEnded b gr) c = bar gr c := by
  rw [bar, phaseEnded, getElem?_modAt_ne _ _ h, bar]

theorem phaseEnded_holds {gr : Group} {b w : Nat} {x : Warp} (hx : (phaseEnded b gr).warps[w]? = some x) :
    ∀ h ∈ x.holds, h.kind ≠ .barrier b (bar gr b).phase ∧ ∀ p, h.kind ≠ .rearrive b p := by
  simp only [phaseEnded, List.getElem?_map, Option.map_eq_some_iff] at hx
  obtain ⟨y, -, rfl⟩ := hx
  intro h hm
  obtain ⟨hmem, hstay⟩ := List.mem_filter.mp hm
  refine ⟨by simpa using endHolds_none _ _ h hmem, fun p hp => ?_⟩
  simp [rearrives, hp] at hstay

theorem phaseEnded_warp {gr : Group} {b w : Nat} {x : Warp} {h : HoldRec} (hx : gr.warps[w]? = some x) (hone : x.holds = [h])
    (hk : h.kind = .barrier b (bar gr b).phase) : (phaseEnded b gr).warps[w]? = some (endHold h x) := by
  have hend := endHolds_single (q := fun h => h.kind == .barrier b (bar gr b).phase) hone (by simp [hk])
  have hnone : (endHold h x).holds = [] := by rw [endHold_holds, hone]; simp
  simp only [phaseEnded, List.getElem?_map, hx, Option.map_some, hend, dropHolds?_of_no_holds hnone]

/-! ## Gang phases -/

def waitsGang (h : HoldRec) : Bool :=
  match h.kind with
  | .gang _ => true
  | _ => false

/-- A group of a gang whose phase ends. -/
def gangEnded (gr : Group) : Group :=
  { gr with gangIn := false, gangWarps := [], phases := gr.phases + 1, warps := gr.warps.map fun w => endHolds w waitsGang }

/-- Nothing of the group has arrived at its gang's barrier, and no lane group of it waits there. -/
def GangOpen (gr : Group) : Prop := gr.gangWarps = [] ∧ gr.gangIn = false ∧ ∀ z ∈ gr.warps, ∀ h ∈ z.holds, ∀ p, h.kind ≠ .gang p

theorem gangOpen_gangEnded (gr : Group) : GangOpen (gangEnded gr) := by
  refine ⟨rfl, rfl, fun z hz h hh p hp => ?_⟩
  obtain ⟨w, -, rfl⟩ := List.mem_map.mp hz
  have hno := endHolds_none w waitsGang h hh
  simp [waitsGang, hp] at hno

/-- Every group of the list is open once the phase has ended in each of them. -/
theorem gangOpen_foldl (ms : List Nat) (t : State) {m : Nat} {y : Group} (h : m ∈ ms ∨ ∀ z, group? t m = some z → GangOpen z)
    (hy : group? (ms.foldl (fun u g => modGroup u g gangEnded) t) m = some y) : GangOpen y := by
  induction ms generalizing t with
  | nil => exact (h.resolve_left (by simp)) y hy
  | cons g r ih =>
    refine ih (modGroup t g gangEnded) ?_ hy
    by_cases hm : m = g
    · refine .inr fun z hz => ?_
      subst hm
      rw [group?_modGroup_self, Option.map_eq_some_iff] at hz
      obtain ⟨x, -, rfl⟩ := hz
      exact gangOpen_gangEnded x
    · rw [group?_modGroup_ne _ _ hm]
      exact h.imp_left fun hmem => (List.mem_cons.mp hmem).resolve_left hm

theorem foldl_modGroup_only (ms : List Nat) (f : Group → Group) (t : State) :
    ms.foldl (fun u g => modGroup u g f) t = { t with groups := (ms.foldl (fun u g => modGroup u g f) t).groups } := by
  induction ms generalizing t with
  | nil => rfl
  | cons g r ih => rw [List.foldl_cons, ih, modGroup_only]

/-- An entry of a list of gangs is found by its number after it has changed. -/
theorem find?_map_gang {gs : List Gang} {n : Nat} {x : Gang} (f : Gang → Gang) (hf : ∀ y, (f y).id = y.id) (h : gs.find? (·.id == n) = some x) :
    (gs.map fun y => if y.id = n then f y else y).find? (·.id == n) = some (f x) := by
  have hcomp : (fun y : Gang => y.id == n) ∘ (fun y => if y.id = n then f y else y) = fun y => y.id == n := by
    funext y
    simp only [Function.comp_apply]
    split <;> simp [hf]
  have hid : x.id = n := by simpa using List.find?_some h
  rw [List.find?_map, hcomp, h, Option.map_some, if_pos hid]

theorem execGangBarrierComplete_done {s : State} {x : Gang} (hx : s.gangs.find? (·.id == x.id) = some x)
    (hsome : ∃ m y, m ∈ x.groups ∧ group? s m = some y ∧ y.gangWarps ≠ [])
    (hall : ∀ m y, m ∈ x.groups → group? s m = some y → ∀ z ∈ y.warps, z.ended = true ∨ z.index ∈ y.gangWarps) :
    ∃ t, exec (.gangBarrierComplete x.id) s = .next t ∧ SameMemory s t ∧
      t.gangs.find? (·.id == x.id) = some { x with phase := (x.phase + 1) % 2 ^ 32 } ∧
      ∀ m y, m ∈ x.groups → group? t m = some y → GangOpen y := by
  have hany : ((x.groups.filterMap (group? s)).any fun g => !g.gangWarps.isEmpty) = true := by
    obtain ⟨m, y, hm, hy, hne⟩ := hsome
    exact List.any_eq_true.mpr ⟨y, List.mem_filterMap.mpr ⟨m, hm, hy⟩, by simpa using hne⟩
  have hhere : (x.groups.filterMap (group? s)).all gangHere = true := by
    refine List.all_eq_true.mpr fun y hy => ?_
    obtain ⟨m, hm, hy⟩ := List.mem_filterMap.mp hy
    simpa [gangHere] using hall m y hm hy
  refine ⟨x.groups.foldl (fun t g => modGroup t g gangEnded)
    { s with gangs := s.gangs.map fun y => if y.id = x.id then { y with phase := (y.phase + 1) % 2 ^ 32 } else y }, ?_, ?_, ?_, ?_⟩
  · show execGangBarrierComplete x.id s = _
    simp only [execGangBarrierComplete, hx, hany, hhere]
    rfl
  · rw [foldl_modGroup_only]
    exact KeepsMemory.sameMemory ⟨rfl, rfl, rfl, rfl, rfl, fun _ => rfl, fun _ => rfl⟩
  · rw [foldl_modGroup_only]
    exact find?_map_gang (fun y => { y with phase := (y.phase + 1) % 2 ^ 32 }) (fun _ => rfl) hx
  · exact fun m y hm hy => gangOpen_foldl _ _ (.inl hm) hy

end Sys2Proof.Machine
end

section
/-! PROOFS. What a group that leaves the device, and a write of the device, leave alone: memory, the grids and the graphs. -/

namespace Sys2Proof.Machine

/-! ## Updates of the work that keep memory -/

theorem keepsMemory_freeSlots (s : State) (gr : Group) : KeepsMemory s (freeSlots s gr) := by
  unfold freeSlots
  split
  · exact .refl s
  · exact keepsMemory_modCore ..

theorem keepsMemory_retryAccept (s : State) : KeepsMemory s (retryAccept s) := keepsMemory_of_groups rfl

theorem keepsMemory_removeGroup (s : State) (g : Nat) : KeepsMemory s (removeGroup s g) := by
  unfold removeGroup
  split
  · exact .refl s
  · rename_i gr _
    have hleft : KeepsMemory s (leaveValues (freeSlots s gr) gr) := (keepsMemory_freeSlots s gr).trans (keepsMemory_modCtx _ _ fun _ => rfl)
    dsimp only
    refine .trans ?_ (keepsMemory_retryAccept _)
    refine .trans ?_ (keepsMemory_modCore ..)
    refine .trans ?_ (keepsMemory_modCtx _ _ fun _ => rfl)
    exact hleft.trans ⟨rfl, rfl, rfl, rfl, rfl, fun _ => rfl, fun _ => rfl⟩

theorem keepsMemory_modGrid (s : State) (g : Nat) (f : Grid → Grid) : KeepsMemory s (modGrid s g f) := ⟨rfl, rfl, rfl, rfl, rfl, fun _ => rfl, fun _ => rfl⟩

theorem keepsMemory_modDie (s : State) (d : Nat) (f : Die → Die) : KeepsMemory s (modDie s d f) := ⟨rfl, rfl, rfl, rfl, rfl, fun _ => rfl, fun _ => rfl⟩

theorem keepsMemory_modGraph (s : State) (g : Nat) (f : Graph → Graph) : KeepsMemory s (modGraph s g f) :=
  ⟨rfl, rfl, rfl, rfl, rfl, fun _ => rfl, fun _ => rfl⟩

theorem keepsMemory_complete (s : State) (c : Cmd) (status result : Nat) : KeepsMemory s (complete s c status result) :=
  ⟨rfl, rfl, rfl, rfl, rfl, fun _ => rfl, fun _ => rfl⟩

theorem keepsMemory_of_tmpls (s : State) (ts : List Template) : KeepsMemory s { s with tmpls := ts } := ⟨rfl, rfl, rfl, rfl, rfl, fun _ => rfl, fun _ => rfl⟩

theorem keepsMemory_dropTemplates (s : State) (grid : Nat) : KeepsMemory s (dropTemplates s grid) := by
  unfold dropTemplates
  split
  · split
    · exact keepsMemory_of_tmpls ..
    · exact .refl s
  · exact .refl s

theorem keepsMemory_closeSlotCmds (s : State) (g : Graph) (status : Nat) (res : SlotCmd → Nat) : KeepsMemory s (closeSlotCmds s g status res) := by
  unfold closeSlotCmds
  suffices h : ∀ (cs : List SlotCmd) (t : State), KeepsMemory t (cs.foldl (fun u c => complete u c.cmd status (res c)) t) from
    (keepsMemory_modGraph ..).trans (h _ _)
  intro cs
  induction cs with
  | nil => exact .refl
  | cons c r ih => exact fun t => (keepsMemory_complete ..).trans (ih _)

theorem keepsMemory_graphEndCheck (s : State) (g : Nat) : KeepsMemory s (graphEndCheck s g) := by
  unfold graphEndCheck
  split
  · exact .refl s
  split
  · exact .refl s
  simp only
  split
  · exact .refl s
  refine .trans ?_ (keepsMemory_complete ..)
  exact (keepsMemory_closeSlotCmds ..).trans ⟨rfl, rfl, rfl, rfl, rfl, fun _ => rfl, fun _ => rfl⟩

/-- The slots of a versioned range settle in place. -/
theorem keepsMemory_settleRanges (s : State) : KeepsMemory s (settleRanges s) := by
  refine ⟨rfl, rfl, rfl, rfl, rfl, fun _ => rfl, fun n => ?_⟩
  have hnum : (fun r : VRange => r.num == n) ∘ settleRange s = fun r => r.num == n := rfl
  simp only [range?, settleRanges, List.find?_map, hnum, Option.map_map]
  rfl

/-! ## Groups, grids and graphs that an update leaves alone -/

/-- The group itself is gone. -/
theorem group?_removeGroup_self (s : State) (g : Nat) : group? (removeGroup s g) g = none := by
  unfold removeGroup
  split
  · assumption
  · rw [group?, retryAccept, sget?_map_values]
    simp only [freeImages, modCore_groups, modCtx_groups, sget?_sdel_self, Option.map_none]

theorem group?_congr {s t : State} (h : t.groups = s.groups) (g : Nat) : group? t g = group? s g := by rw [group?, h, group?]

theorem dropTemplates_groups (s : State) (grid : Nat) : (dropTemplates s grid).groups = s.groups := by
  unfold dropTemplates
  split
  · split <;> rfl
  · rfl

theorem closeSlotCmds_groups (s : State) (g : Graph) (status : Nat) (res : SlotCmd → Nat) : (closeSlotCmds s g status res).groups = s.groups := by
  unfold closeSlotCmds
  suffices h : ∀ (cs : List SlotCmd) (t : State), (cs.foldl (fun u c => complete u c.cmd status (res c)) t).groups = t.groups from h _ _
  intro cs
  induction cs with
  | nil => exact fun _ => rfl
  | cons c r ih => exact fun t => ih _

theorem graphEndCheck_groups (s : State) (g : Nat) : (graphEndCheck s g).groups = s.groups := by
  unfold graphEndCheck
  split
  · rfl
  split
  · rfl
  simp only
  split
  · rfl
  · exact closeSlotCmds_groups ..

/-- The grids and the graphs are as they were. -/
structure KeepsWork (s t : State) : Prop where
  grids : t.grids = s.grids
  graphs : t.graphs = s.graphs

theorem KeepsWork.refl (s : State) : KeepsWork s s := ⟨rfl, rfl⟩

theorem KeepsWork.trans {s t u : State} (h : KeepsWork s t) (k : KeepsWork t u) : KeepsWork s u := ⟨k.grids.trans h.grids, k.graphs.trans h.graphs⟩

theorem KeepsWork.grid? {s t : State} (h : KeepsWork s t) (g : Nat) : Machine.grid? t g = Machine.grid? s g := by rw [Machine.grid?, h.grids, Machine.grid?]

theorem KeepsWork.graph? {s t : State} (h : KeepsWork s t) (g : Nat) : Machine.graph? t g = Machine.graph? s g := by
  rw [Machine.graph?, h.graphs, Machine.graph?]

theorem keepsWork_modCtx (s : State) (c : Nat) (f : Ctx → Ctx) : KeepsWork s (modCtx s c f) := by rw [modCtx_only]; exact ⟨rfl, rfl⟩

theorem keepsWork_freeSlots (s : State) (gr : Group) : KeepsWork s (freeSlots s gr) := by
  unfold freeSlots
  split
  · exact .refl s
  · exact ⟨rfl, rfl⟩

theorem keepsWork_removeGroup (s : State) (g : Nat) : KeepsWork s (removeGroup s g) := by
  unfold removeGroup
  split
  · exact .refl s
  · rename_i gr _
    have hleft : KeepsWork s (leaveValues (freeSlots s gr) gr) := (keepsWork_freeSlots s gr).trans (keepsWork_modCtx ..)
    dsimp only
    refine .trans (.trans ?_ (keepsWork_modCtx ..)) ⟨rfl, rfl⟩
    exact hleft.trans ⟨rfl, rfl⟩

theorem keepsWork_dropTemplates (s : State) (grid : Nat) : KeepsWork s (dropTemplates s grid) := by
  unfold dropTemplates
  split
  · split <;> exact ⟨rfl, rfl⟩
  · exact .refl s

/-! ## Writes performed leave the grids and the graphs alone -/

theorem keepsWork_putHomeByte (s : State) (sp a : Nat) (b : Byte) : KeepsWork s (putHomeByte s sp a b) := by
  unfold putHomeByte
  split
  · exact ⟨rfl, rfl⟩
  split
  · exact ⟨rfl, rfl⟩
  split <;> exact ⟨rfl, rfl⟩

theorem keepsWork_putHomeBytes (s : State) (sp a : Nat) (bs : List Byte) : KeepsWork s (putHomeBytes s sp a bs) := by
  induction bs generalizing s a with
  | nil => exact .refl s
  | cons b r ih => exact (keepsWork_putHomeByte s sp a b).trans (ih ..)

theorem keepsWork_countRecords (s : State) (src : Option (Nat × Nat)) (n : Nat) : KeepsWork s (countRecords s src n) := by
  unfold countRecords
  split
  · split
    · split
      · exact .refl s
      · rw [countEvent_only]; exact ⟨rfl, rfl⟩
    · exact .refl s
  · exact .refl s

theorem keepsWork_sendRecords (s0 s1 : State) (a n : Nat) (src : Option (Nat × Nat)) (keep : Bool) (s : State) :
    KeepsWork s (sendRecords s0 s1 a n src keep s) := by
  unfold sendRecords
  generalize s0.regions.filter _ = rs
  induction rs generalizing s with
  | nil => exact .refl s
  | cons r rs ih =>
    refine KeepsWork.trans ?_ (ih _)
    exact (keepsWork_countRecords s src (recordsOf s0 s1 r a n src).length).trans ⟨rfl, rfl⟩

theorem keepsWork_dropOnWrite (agent sp a n : Nat) (t : State) : KeepsWork t (dropOnWrite agent sp a n t) := by
  unfold dropOnWrite; split <;> exact ⟨rfl, rfl⟩

theorem keepsWork_keepOld (s t : State) (a n : Nat) : KeepsWork t (keepOld s t a n) := by
  unfold keepOld; split <;> exact ⟨rfl, rfl⟩

theorem keepsWork_homeWrite (s : State) (agent : Nat) (rel : Option View) (sp a : Nat) (data : List Byte) (src : Option (Nat × Nat)) (keep : Bool) :
    KeepsWork s (homeWrite s agent rel sp a data src keep) := by
  have hput : KeepsWork s (addVer s agent rel sp a data.length (putHomeBytes s sp a data)) := (keepsWork_putHomeBytes s sp a data).trans ⟨rfl, rfl⟩
  have hdrop := hput.trans (keepsWork_dropOnWrite agent sp a data.length _)
  unfold homeWrite
  simp only
  split
  · refine KeepsWork.trans (KeepsWork.trans (KeepsWork.trans hdrop ?_) (keepsWork_sendRecords s _ a data.length src keep _)) ⟨rfl, rfl⟩
    have hclear (t : State) : KeepsWork t (clearEcc t a data.length) := ⟨rfl, rfl⟩
    exact (hclear _).trans (keepsWork_keepOld s _ a data.length)
  · exact hdrop

theorem keepsWork_outsideWrite (s : State) (agent a : Nat) (data : List Byte) : KeepsWork s (outsideWrite s agent a data) := by
  unfold outsideWrite
  simp only
  split
  · exact ⟨rfl, rfl⟩
  · have hhome := keepsWork_homeWrite s agent none 11 a (keepLeaves s a data (keptLeaves s a data)) none false
    split <;> split <;> exact hhome.trans ⟨rfl, rfl⟩

theorem keepsWork_mendL1 (s : State) (p : PendWrite) : KeepsWork s (mendL1 s p) := by
  unfold mendL1; split <;> exact ⟨rfl, rfl⟩

theorem keepsWork_sendPeer (s : State) (port c a : Nat) (data : List Byte) : KeepsWork s (sendPeer s port c a data) := by
  unfold sendPeer; split <;> exact ⟨rfl, rfl⟩

theorem keepsWork_performWrite (s : State) (p : PendWrite) : KeepsWork s (performWrite s p) := by
  unfold performWrite
  simp only
  split
  · exact (keepsWork_mendL1 s p).trans (keepsWork_outsideWrite ..)
  split
  · exact (keepsWork_mendL1 s p).trans (keepsWork_sendPeer ..)
  · exact (keepsWork_mendL1 s p).trans (keepsWork_homeWrite ..)

theorem keepsWork_performWrites (ps : List PendWrite) (s : State) : KeepsWork s (ps.foldl performWrite s) := by
  induction ps generalizing s with
  | nil => exact .refl s
  | cons p ps ih => exact (keepsWork_performWrite s p).trans (ih _)

theorem keepsWork_drainIf (s : State) (q : PendWrite → Bool) : KeepsWork s (drainIf s q) := by
  suffices h : ∀ (ps : List PendWrite) (acc : State × List PendWrite), KeepsWork acc.1 (ps.foldl (fun (acc : State × List PendWrite) p =>
      if q p && !(acc.2.any fun r => precedes s r p) then (performWrite acc.1 p, acc.2) else (acc.1, acc.2 ++ [p])) acc).1 from
    (h s.pend (s, [])).trans ⟨rfl, rfl⟩
  intro ps
  induction ps with
  | nil => exact fun acc => .refl _
  | cons p ps ih =>
    intro acc
    refine KeepsWork.trans ?_ (ih _)
    dsimp only
    split
    · exact keepsWork_performWrite ..
    · exact .refl _

theorem keepsWork_drainDie (s : State) (d : Nat) : KeepsWork s (drainDie s d) := by
  have hbind : KeepsWork s (bindDie s d) := ⟨rfl, rfl⟩
  exact hbind.trans (keepsWork_drainIf ..)

theorem keepsWork_drainAt (s : State) (d k n : Nat) : KeepsWork s (drainAt s d k n) := by
  have hpend : KeepsWork s { s with pend := (chainAt s d k n).2 } := ⟨rfl, rfl⟩
  exact hpend.trans (keepsWork_performWrites ..)

theorem keepsWork_putPiece (s : State) (rel : Option View) (sp a : Nat) (data : List Byte) : KeepsWork s (putPiece s rel sp a data) := by
  have hbind : KeepsWork s (bindOver s 4 (memKey sp a) data.length) := ⟨rfl, rfl⟩
  unfold putPiece
  split
  · exact ⟨rfl, rfl⟩
  · exact (hbind.trans (keepsWork_drainAt ..)).trans (keepsWork_performWrite ..)

theorem keepsWork_putPieces (s : State) (ps : List (Nat × Nat × Nat)) (data : List Byte) : KeepsWork s (putPieces s ps data) := by
  induction ps generalizing s data with
  | nil => exact .refl s
  | cons p ps ih => exact (keepsWork_putPiece s none p.1 p.2.1 (data.take p.2.2)).trans (ih ..)

theorem keepsWork_devWrite {s u : State} {c : Nat} {gen : Nat → Option Nat} {va : DWord} {align : Nat} {data : List Byte}
    (h : devWrite s c gen va align data = .ok u) : KeepsWork s u := by
  unfold devWrite at h
  split at h
  · split at h
    · cases h
    · cases h; exact keepsWork_putPieces ..
  · cases h
  · cases h
  · cases h

end Sys2Proof.Machine
end

section
/-! PROOFS. A prologue is captured (R128, R129, R130, R160), and a group whose warps have ended leaves the device (R128, R148, R159). -/

namespace Sys2Proof.Machine

/-! ## Grids -/

theorem grid?_modGrid_self (s : State) (g : Nat) (f : Grid → Grid) (hf : ∀ x, (f x).id = x.id) : grid? (modGrid s g f) g = (grid? s g).map f := by
  have hcomp : (fun x : Grid => x.id == g) ∘ (fun x => if x.id = g then f x else x) = fun x => x.id == g := by
    funext x
    simp only [Function.comp_apply]
    split <;> simp [hf]
  simp only [grid?, modGrid, List.find?_map, hcomp]
  cases hx : s.grids.find? fun x => x.id == g with
  | none => rfl
  | some x => rw [Option.map_some, Option.map_some, if_pos (by simpa using List.find?_some hx)]

/-- The templates of a grid that has groups to come stay. -/
theorem dropTemplates_of_not_over {s : State} {grid : Nat} {g : Grid} (hg : grid? s grid = some g) (hover : gridOver g = false) :
    dropTemplates s grid = s := by
  rw [dropTemplates, hg]
  simp [hover]

theorem nestOf_of_no_template {gr : Group} (h : gr.kind.tmpl? = none) (s : State) : nestOf s gr = none := by
  rw [nestOf, h]; rfl

theorem tmpl?_eq_none {k : GroupKind} (h : k = .plain ∨ k = .prologue) : k.tmpl? = none := by
  obtain rfl | rfl := h <;> rfl

/-! ## The template of a capture -/

theorem sget?_tabulate {α : Type} (f : Nat → α) (n k : Nat) : sget? ((List.range n).map fun i => (i, f i)) k = if k < n then some (f k) else none := by
  suffices h : ∀ a, sget? ((List.range' a n).map fun i => (i, f i)) k = if a ≤ k ∧ k < a + n then some (f k) else none by
    simpa [List.range_eq_range'] using h 0
  induction n with
  | zero => intro a; rw [if_neg (by omega)]; rfl
  | succ n ih =>
    intro a
    rw [List.range'_succ, List.map_cons, sget?]
    by_cases hk : a = k
    · rw [if_pos hk, if_pos (by omega), hk]
    · rw [if_neg hk, ih]
      exact if_congr (by omega) rfl rfl

/-- A warp of a list is found by its index where indices differ. -/
theorem find?_by_index {β : Type} {ws : List Warp} (hnd : (ws.map (·.index)).Nodup) {x : Warp} (hx : x ∈ ws) (f : Warp → β) :
    (ws.map fun w => (w.index, f w)).find? (·.1 == x.index) = some (x.index, f x) := by
  rw [List.find?_map]
  have hfind : ws.find? ((fun p : Nat × β => p.1 == x.index) ∘ fun w => (w.index, f w)) = some x := by
    refine List.find?_eq_some_iff_append.mpr ⟨by simp, ?_⟩
    obtain ⟨as, bs, rfl⟩ := List.append_of_mem hx
    refine ⟨as, bs, rfl, fun y hy => ?_⟩
    simp only [List.map_append, List.nodup_append, List.map_cons] at hnd
    have hne := hnd.2.2 y.index (List.mem_map_of_mem hy) x.index List.mem_cons_self
    simpa using hne
  rw [hfind]; rfl

theorem sget?_frozenRegs (s : State) (gr : Group) (wp : Warp) {r l : Nat} (hr : r < gr.granted) (hl : l < 32) :
    sget? (frozenRegs s gr wp) (32 * r + l) = some (regRead s gr wp r l) := by
  rw [frozenRegs, sget?_tabulate, if_pos (by omega), show (32 * r + l) / 32 = r by omega, show (32 * r + l) % 32 = l by omega]

/-- The registers of a captured warp read as the warp's did. -/
theorem tmplReg_newTemplate {s : State} {gr : Group} {id grid depth count area : Nat} {owner : Option Nat} {pages : List Nat} {areaVa heapVa : Nat × Nat}
    (hnd : (gr.warps.map (·.index)).Nodup) {x : Warp} (hx : x ∈ frozenWarps gr) {r l : Nat} (hr : r < gr.granted) (hl : l < 32) :
    tmplReg (newTemplate s gr id grid depth count area owner pages areaVa heapVa) x.index (32 * r + l) = regRead s gr x r l := by
  have hsub : ((frozenWarps gr).map (·.index)).Nodup := hnd.sublist (List.filter_sublist.map _)
  have hfind := find?_by_index hsub hx (frozenRegs s gr)
  simp only [tmplReg, newTemplate, hfind, Option.bind_some, sget?_frozenRegs s gr x hr hl]

/-! ## A capture -/

section
variable {s : State} {gr : Group} {gd : Grid} {n : Nat} (hg : group? s gr.id = some gr) (hkind : gr.kind = .prologue)
  (hready : captureReady s gr = some n) (hgd : grid? s gr.grid = some gd) (hwait : waiting s (.templateCapture gr.id) = false)
include hg hkind hready hgd hwait

/-- A prologue that is ready is captured where the area and a core hold the template; else its node fails (R160). -/
theorem exec_templateCapture : exec (.templateCapture gr.id) s = .next (
    if gd.areaSize < imageBytes (frozenWarps gr).length gr.granted gr.spmSize then failNode (removeGroup s gr.id) gd.graph gd.node 4
    else if !fitsCore gr.split (frozenWarps gr).length ((frozenWarps gr).length * gr.granted + (frozenWarps gr).length) (2 * gr.spmSize) then
      failNode (removeGroup s gr.id) gd.graph gd.node 3
    else captureTop s gr gd n) := by
  show execTemplateCapture gr.id s = _
  simp only [execTemplateCapture, hwait, hg, hready, hgd, hkind]
  rfl

end

/-- The template that a capture makes of a node's prologue. -/
def capturedTemplate (s u : State) (gr : Group) (gd : Grid) (n : Nat) : Template :=
  newTemplate s gr u.seqs gr.grid 1 n gd.area none [] (gd.area, gd.areaSize) (gd.heapBase, gd.heapSize)

/-- A grid that starts over with the instances of a template (R129). -/
def stampedGrid (t : Template) (gd : Grid) : Grid :=
  { gd with tmpl := some t.id, count := t.count, next := 0, ended := 0, regs := t.granted, warps := t.warps.length, spm := t.spmSize }

theorem grid?_stampGrid {s : State} {gr : Group} {gd : Grid} (hgd : grid? s gr.grid = some gd) (t : Template) :
    grid? (stampGrid s gr t) gr.grid = some (stampedGrid t gd) := by
  refine (grid?_modGrid_self _ _ (stampedGrid t) fun _ => rfl).trans ?_
  rw [(keepsWork_removeGroup ..).grid?]
  show (grid? s gr.grid).map _ = _
  rw [hgd, Option.map_some]

theorem keepsMemory_stampGrid (s : State) (gr : Group) (t : Template) : KeepsMemory s (stampGrid s gr t) :=
  (((keepsMemory_of_tmpls s (s.tmpls ++ [t])).trans (keepsMemory_sendAlong ..)).trans (keepsMemory_removeGroup ..)).trans (keepsMemory_modGrid ..)

theorem group?_stampGrid (s : State) (gr : Group) (t : Template) : group? (stampGrid s gr t) gr.id = none :=
  (group?_congr (modGrid_groups ..) _).trans (group?_removeGroup_self ..)

theorem removeGroup_tmpls (s : State) (g : Nat) : (removeGroup s g).tmpls = s.tmpls := by
  have hctx (u : State) (c : Nat) (f : Ctx → Ctx) : (modCtx u c f).tmpls = u.tmpls := by rw [modCtx_only]
  unfold removeGroup
  split
  · rfl
  · simp only [retryAccept, freeImages, modCore, hctx, leaveValues, freeSlots]
    split <;> rfl

theorem mem_stampGrid (s : State) (gr : Group) (t : Template) : t ∈ (stampGrid s gr t).tmpls := by
  show t ∈ (removeGroup _ gr.id).tmpls
  rw [removeGroup_tmpls]
  exact List.mem_append_right _ (List.mem_singleton_self t)

/-- Where the image is written, the capture leaves the stamped grid (R129). -/
theorem captureTop_captures {s u : State} {gr : Group} {gd : Grid} {n : Nat} (hgd : grid? s gr.grid = some gd) (hn : 0 < n)
    (hw : devWrite s gr.ctx (gens s gr) (BitVec.ofNat 64 gd.area) 256 (templateImage s gr 1 n) = .ok u) :
    captureTop s gr gd n = stampGrid (fresh u).2 gr (capturedTemplate s u gr gd n) := by
  have hgu : grid? (fresh u).2 gr.grid = some gd := ((keepsWork_devWrite hw).grid? _).trans hgd
  have hid : gd.id = gr.grid := by simpa using List.find?_some hgd
  have hdrop := dropTemplates_of_not_over (grid?_stampGrid hgu (capturedTemplate s u gr gd n)) (by simp [gridOver, stampedGrid, capturedTemplate, newTemplate]; omega)
  simp only [captureTop, hw, hn.ne', false_and, if_false, hid]
  exact hdrop

/-! ## The end of a group -/

theorem reportDeferred_of_none {gr : Group} (h : ∀ x ∈ gr.warps, x.deferred = []) (s : State) : reportDeferred s gr = s := by
  have hnil : (gr.warps.flatMap fun w => w.deferred.map (·.2)) = [] := List.flatMap_eq_nil_iff.mpr fun x hx => by rw [h x hx]; rfl
  rw [reportDeferred, hnil]

section
variable {s : State} {gr : Group} (hg : group? s gr.id = some gr) (hover : groupOver s gr = true) (hwait : waiting s (.groupEnd gr.id) = false)
  (hdef : ∀ x ∈ gr.warps, x.deferred = []) (hkind : gr.kind = .plain ∨ gr.kind = .prologue)
include hg hover hwait hdef hkind

theorem exec_groupEnd_uncounted (hword : endWord (drainDie s (dieOf gr.core)) gr = none) :
    exec (.groupEnd gr.id) s = .next (countGroup (drainDie s (dieOf gr.core)) gr) := by
  show execGroupEnd gr.id s = _
  obtain h | h := hkind <;> simp [execGroupEnd, hwait, hg, hover, h, reportDeferred_of_none hdef, hword]

theorem exec_groupEnd_counted {va : DWord} {v : State} (hword : endWord (drainDie s (dieOf gr.core)) gr = some va)
    (hinc : devIncrement (drainDie s (dieOf gr.core)) (endView (drainDie s (dieOf gr.core)) gr) gr.ctx (gens (drainDie s (dieOf gr.core)) gr) va = .ok v) :
    exec (.groupEnd gr.id) s = .next (countGroup v gr) := by
  show execGroupEnd gr.id s = _
  obtain h | h := hkind <;> simp [execGroupEnd, hwait, hg, hover, h, reportDeferred_of_none hdef, hword, hinc]

end

/-- The end of a group as its grid counts it: a prologue leaves a grid of no groups. -/
def countedGrid (gr : Group) : Grid → Grid :=
  match gr.kind with
  | .prologue => fun gd => { gd with count := 0, next := 0 }
  | _ => fun gd => { gd with ended := gd.ended + 1 }

theorem countedGrid_id (gr : Group) (gd : Grid) : (countedGrid gr gd).id = gd.id := by
  unfold countedGrid; cases gr.kind <;> rfl

/-- What the threads of a group did happens-before the end of its node (R159). -/
def sentToNode (s : State) (gr : Group) : State :=
  match nodeOf s gr with
  | some (g, n) => sendAlong (.node g n) (relView s (dieOf gr.core)) s
  | none => s

/-- The state of a group of no template that its grid has counted, and that has left the device. -/
def leftDevice (s : State) (gr : Group) : State :=
  let counted := modGrid (sentToNode s gr) gr.grid (countedGrid gr)
  dropTemplates (removeGroup { counted with tmpls := counted.tmpls.filter fun t => t.owner != some gr.id } gr.id) gr.grid

/-- The free count of its die is reported, and a failed graph may end with the group. -/
def diesGraph (s : State) (gr : Group) (t : State) : State :=
  let freed := modDie t (dieOf gr.core) fun x => { x with free := freeCount t (dieOf gr.core) }
  match nodeOf s gr with
  | some (g, _) => settleRanges (graphEndCheck freed g)
  | none => freed

theorem countGroup_eq {s : State} {gr : Group} (h : gr.kind = .plain ∨ gr.kind = .prologue) : countGroup s gr = diesGraph s gr (leftDevice s gr) := by
  have hnest := nestOf_of_no_template (tmpl?_eq_none h) s
  obtain h | h := h <;> simp only [countGroup, hnest, leftDevice, diesGraph, countedGrid, h] <;> rfl

theorem keepsMemory_leftDevice (s : State) (gr : Group) : KeepsMemory s (leftDevice s gr) := by
  have hsent : KeepsMemory s (sentToNode s gr) := by
    unfold sentToNode
    split
    · exact keepsMemory_sendAlong ..
    · exact .refl s
  unfold leftDevice
  dsimp only
  refine .trans ?_ (keepsMemory_dropTemplates ..)
  refine .trans ?_ (keepsMemory_removeGroup ..)
  exact (hsent.trans (keepsMemory_modGrid ..)).trans (keepsMemory_of_tmpls ..)

theorem keepsMemory_diesGraph (s : State) (gr : Group) (t : State) : KeepsMemory t (diesGraph s gr t) := by
  unfold diesGraph
  dsimp only
  split
  · exact ((keepsMemory_modDie ..).trans (keepsMemory_graphEndCheck ..)).trans (keepsMemory_settleRanges _)
  · exact keepsMemory_modDie ..

theorem group?_leftDevice (s : State) (gr : Group) : group? (leftDevice s gr) gr.id = none := by
  unfold leftDevice
  exact (group?_congr (dropTemplates_groups ..) _).trans (group?_removeGroup_self ..)

theorem diesGraph_groups (s : State) (gr : Group) (t : State) : (diesGraph s gr t).groups = t.groups := by
  unfold diesGraph
  dsimp only
  split
  · exact graphEndCheck_groups ..
  · rfl

theorem leftDevice_graphs (s : State) (gr : Group) : (leftDevice s gr).graphs = s.graphs := by
  have hsent : (sentToNode s gr).graphs = s.graphs := by
    unfold sentToNode
    split <;> rfl
  unfold leftDevice
  dsimp only
  rw [(keepsWork_dropTemplates ..).graphs, (keepsWork_removeGroup ..).graphs]
  exact hsent

section
variable {s : State} {gr : Group} {gd : Grid} (hgd : grid? s gr.grid = some gd)
include hgd

/-- The grid has counted the group that left. -/
theorem grid?_leftDevice : grid? (leftDevice s gr) gr.grid = some (countedGrid gr gd) := by
  have hsent : grid? (sentToNode s gr) gr.grid = some gd := by
    unfold sentToNode
    split <;> exact hgd
  unfold leftDevice
  dsimp only
  rw [(keepsWork_dropTemplates ..).grid?, (keepsWork_removeGroup ..).grid?]
  refine (grid?_modGrid_self _ _ _ (countedGrid_id gr)).trans ?_
  rw [hsent, Option.map_some]

/-- A graph that has not failed goes on. -/
theorem grid?_diesGraph {x : Graph} {t : State} (hgraph : graph? t gd.graph = some x) (hfailed : x.failed = none) (g : Nat) :
    grid? (diesGraph s gr t) g = grid? t g := by
  have hnode : nodeOf s gr = some (gd.graph, gd.node) := by rw [nodeOf, hgd]; rfl
  have hcheck (f : Die → Die) : graphEndCheck (modDie t (dieOf gr.core) f) gd.graph = modDie t (dieOf gr.core) f := by
    have hsame : graph? (modDie t (dieOf gr.core) f) gd.graph = some x := hgraph
    rw [graphEndCheck, hsame]
    simp only [hfailed]
  simp only [diesGraph, hnode, hcheck]
  rfl

end

/-- Where no completion word counts it, a group leaves the device and its grid counts it (R128). -/
theorem countGroup_leaves {s : State} {gr : Group} (hkind : gr.kind = .plain ∨ gr.kind = .prologue) :
    SameMemory s (countGroup s gr) ∧ group? (countGroup s gr) gr.id = none ∧
      ∀ gd x, gr.kind = .plain → grid? s gr.grid = some gd → graph? s gd.graph = some x → x.failed = none →
        grid? (countGroup s gr) gr.grid = some { gd with ended := gd.ended + 1 } := by
  rw [countGroup_eq hkind]
  refine ⟨((keepsMemory_leftDevice s gr).trans (keepsMemory_diesGraph ..)).sameMemory,
    (group?_congr (diesGraph_groups ..) _).trans (group?_leftDevice s gr), fun gd x hplain hgd hgraph hfailed => ?_⟩
  have hgraph' : graph? (leftDevice s gr) gd.graph = some x := by rw [graph?, leftDevice_graphs]; exact hgraph
  rw [grid?_diesGraph hgd hgraph' hfailed, grid?_leftDevice hgd, countedGrid, hplain]

end Sys2Proof.Machine
end

section
/-! PROOFS. What the device does of itself to a group (R128, R129, R140, R141, R150, R160). -/

namespace Sys2Proof.Machine

/-- Settles O49: what ends and what is captured, one clause after the other. -/
theorem groupHappeningsAct : Obligations.GroupHappeningsAct := by
  unfold Obligations.GroupHappeningsAct
  rintro s _ gr hg rfl hlife
  refine ⟨fun b harrived hall hb => ?_, fun x hx hsome hall => ?_, fun n gd hkind hready hgd hwait => ?_, fun hover hwait hdef hkind => ?_⟩
  · obtain ⟨t, hexec, hmem, hgt⟩ := execBarrierPhaseComplete_done hg hlife ((barDone_iff gr b).mpr ⟨harrived, hall⟩)
    exact ⟨t, _, hexec, hmem, hgt, bar_phaseEnded hb, fun c hc => bar_phaseEnded_ne gr hc, fun w x => phaseEnded_holds, fun w x h => phaseEnded_warp⟩
  · exact execGangBarrierComplete_done hx hsome hall
  · have hexec := exec_templateCapture hg hkind hready hgd hwait
    refine ⟨fun hsmall => ?_, fun harea hfits => ?_, fun u harea hfits hn hnd hw => ?_⟩
    · rw [hexec, if_pos hsmall]
    · rw [hexec, if_neg (by omega), hfits]; rfl
    · have hgu : grid? (fresh u).2 gr.grid = some gd := ((keepsWork_devWrite hw).grid? _).trans hgd
      refine ⟨stampGrid (fresh u).2 gr (capturedTemplate s u gr gd n), capturedTemplate s u gr gd n, ?_, ?_, group?_stampGrid .., mem_stampGrid ..,
        rfl, rfl, rfl, rfl, rfl, fun x hx => ⟨List.mem_map_of_mem hx, fun r l hr hl => tmplReg_newTemplate hnd hx hr hl⟩, ?_⟩
      · rw [hexec, if_neg (by omega), hfits, captureTop_captures hgd hn hw]; rfl
      · exact (keepsMemory_stampGrid (fresh u).2 gr _).sameMemory
      · rw [grid?_stampGrid hgu, stampedGrid, capturedTemplate]
        simp [newTemplate]
  · refine ⟨fun hword => ?_, fun va v hword hinc => exec_groupEnd_counted hg hover hwait hdef hkind hword hinc⟩
    obtain ⟨hmem, hgone, hgrid⟩ := countGroup_leaves (s := drainDie s (dieOf gr.core)) hkind
    refine ⟨_, exec_groupEnd_uncounted hg hover hwait hdef hkind hword, hmem, hgone, fun gd x hplain hgd hgraph hfailed => ?_⟩
    have hwork := keepsWork_drainDie s (dieOf gr.core)
    exact hgrid gd x hplain ((hwork.grid? _).trans hgd) ((hwork.graph? _).trans hgraph) hfailed

end Sys2Proof.Machine
end

section
/-! PROOFS. What the stores of a word's lanes come to (R132, R185, R201). -/

namespace Sys2Proof.Machine

/-! ## What one lane's store leaves -/

/-- What a die has of a byte once a pending write has been added. -/
def newer (d k : Nat) (v : Option Byte) (p : PendWrite) : Option Byte :=
  if p.die = d then (match p.byte? k with | some b => some b | none => v) else v

theorem viewByte_eq (s : State) (d sp a : Nat) : viewByte s d sp a = (s.pend.foldl (newer d (memKey sp a)) none).getD (homeByte s sp a) := rfl

theorem newer_other {d k : Nat} {p : PendWrite} (h : p.die ≠ d) (v : Option Byte) : newer d k v p = v := if_neg h

theorem newer_own {d k : Nat} {p : PendWrite} (h : p.die = d) (v : Option Byte) :
    newer d k v p = if p.addr ≤ k ∧ k < p.addr + p.data.length then some (p.data[k - p.addr]?.getD 0) else v := by
  rw [newer, if_pos h, PendWrite.byte?]
  by_cases hin : p.addr ≤ k ∧ k < p.addr + p.data.length
  · rw [if_pos hin, if_pos hin, List.getElem?_eq_getElem (by omega)]; rfl
  · rw [if_neg hin, if_neg hin]

theorem newer_pendOf (s : State) (d g w : Nat) (t : StoreTag) (sp a : Nat) (data : List Byte) (k : Nat) (v : Option Byte) :
    newer d k v (pendOf s d g w t sp a data) =
      if memKey sp a ≤ k ∧ k < memKey sp a + data.length then some (data[k - memKey sp a]?.getD 0) else v := newer_own rfl v

/-- Pending writes of the die carry n bytes to a place, and no others. -/
def Carries (d : Nat) (ps : List PendWrite) (place : Nat × Nat) (n : Nat) (data : List Byte) : Prop :=
  (∀ p ∈ ps, p.die = d) ∧
  (∀ sp a v, within place n sp a → ps.foldl (newer d (memKey sp a)) v = some (data[memKey sp a - memKey place.1 place.2]?.getD 0)) ∧
  ∀ sp a v, ¬ within place n sp a → ps.foldl (newer d (memKey sp a)) v = v

theorem foldl_newer_other {d k : Nat} {ps : List PendWrite} (h : ∀ p ∈ ps, p.die ≠ d) (v : Option Byte) : ps.foldl (newer d k) v = v := by
  induction ps generalizing v with
  | nil => rfl
  | cons p ps ih => rw [List.foldl_cons, newer_other (h p (List.mem_cons_self ..)), ih fun q hq => h q (List.mem_cons_of_mem _ hq)]

/-- Writes that join those not yet performed are a lane's store (R201, R231). -/
theorem stored_of_carries {e : Env} {b : State} {ps : List PendWrite} {place : Nat × Nat} {n l : Nat} {data : Nat → List Byte} {ls : List Late}
    (hls : ∀ x ∈ ls, x ∈ b.late) (hps : Carries e.die ps place n (data l)) :
    Stored e b { b with pend := b.pend ++ ps, late := ls } [(l, place)] n data := by
  obtain ⟨hdie, hin, hout⟩ := hps
  have hview (d sp a : Nat) : viewByte { b with pend := b.pend ++ ps, late := ls } d sp a =
      (ps.foldl (newer d (memKey sp a)) (b.pend.foldl (newer d (memKey sp a)) none)).getD (homeByte b sp a) := by
    rw [viewByte_eq]
    exact congrArg (Option.getD · (homeByte b sp a)) List.foldl_append
  refine ⟨rfl, hls, fun _ _ => rfl, fun d hd sp a => ?_, fun sp a hn => ?_, fun l' place' before after heq sp a hw _ => ?_⟩
  · rw [hview, foldl_newer_other fun p hp => by rw [hdie p hp]; exact Ne.symm hd]; rfl
  · rw [hview, hout sp a _ (hn _ (List.mem_singleton_self _))]; rfl
  · obtain ⟨rfl, hone⟩ : before = [] ∧ (l, place) = (l', place') := by
      cases before with
      | nil => exact ⟨rfl, (List.cons.inj heq).1⟩
      | cons x xs => cases xs <;> simp at heq
    obtain ⟨rfl, rfl⟩ := Prod.mk.inj hone
    rw [hview, hin sp a _ hw]; rfl

theorem stored_nil (e : Env) (b : State) (n : Nat) (data : Nat → List Byte) : Stored e b b [] n data :=
  ⟨rfl, fun _ h => h, fun _ _ => rfl, fun _ _ _ _ => rfl, fun _ _ _ => rfl, fun _ _ before _ h => by cases before <;> cases h⟩

/-- A lane's store, and those of the lanes after it. -/
theorem Stored.cons {e : Env} {b v u : State} {x : Nat × (Nat × Nat)} {as : List (Nat × (Nat × Nat))} {n : Nat} {data : Nat → List Byte}
    (h : Stored e b v [x] n data) (k : Stored e v u as n data) : Stored e b u (x :: as) n data := by
  obtain ⟨hv, hvl, hvh, hvd, hvn, hvb⟩ := h
  obtain ⟨hu, hul, huh, hud, hun, hub⟩ := k
  refine ⟨by rw [hu, hv], fun y hy => hvl y (hul y hy), fun sp a => (huh sp a).trans (hvh sp a), fun d hd sp a => (hud d hd sp a).trans (hvd d hd sp a),
    fun sp a hn => ?_, fun l place before after heq sp a hin hafter => ?_⟩
  · rw [hun sp a fun p hp => hn p (List.mem_cons_of_mem _ hp), hvn sp a fun p hp => hn p (List.mem_singleton.mp hp ▸ List.mem_cons_self ..)]
  · cases before with
    | nil =>
      obtain ⟨rfl, rfl⟩ := List.cons.inj heq
      rw [hun sp a hafter]
      exact hvb l place [] [] rfl sp a hin fun p hp => by cases hp
    | cons y ys => exact hub l place ys after (List.cons.inj heq).2 sp a hin hafter

/-- Lanes each of which stores have stored, the highest prevailing. -/
theorem stored_of_eachLane {e : Env} {f : State → Nat → Except LaneFault (State × (Nat × Nat))} {n : Nat} {data : Nat → List Byte}
    (hf : ∀ v l v' p, f v l = .ok (v', p) → Stored e v v' [(l, p)] n data) :
    ∀ {ls : List Nat} {b u : State} {as : List (Nat × (Nat × Nat))}, eachLane f ls b = ([], u, as) → Stored e b u as n data
  | [], b, u, as, h => by
    obtain ⟨rfl, rfl⟩ : b = u ∧ [] = as := by simpa [eachLane] using h
    exact stored_nil ..
  | l :: ls, b, u, as, h => by
    rw [eachLane] at h
    split at h
    · rename_i t a hl
      obtain ⟨h1, h2⟩ := Prod.mk.inj h
      obtain ⟨h3, rfl⟩ := Prod.mk.inj h2
      exact (hf b l t a hl).cons (stored_of_eachLane hf (Prod.ext h1 (Prod.ext h3 rfl)))
    · cases h

/-- What holds of a state and is kept by every lane's step holds at the end. -/
theorem eachLane_keeps {α : Type} {f : State → Nat → Except LaneFault (State × α)} {P : State → Prop}
    (hf : ∀ v l v' a, P v → f v l = .ok (v', a) → P v') :
    ∀ {ls : List Nat} {s u : State} {as : List (Nat × α)}, eachLane f ls s = ([], u, as) → P s → P u
  | [], s, u, as, h, hs => by
    obtain ⟨rfl, -⟩ : s = u ∧ [] = as := by simpa [eachLane] using h
    exact hs
  | l :: ls, s, u, as, h, hs => by
    rw [eachLane] at h
    split at h
    · rename_i t a hl
      obtain ⟨h1, h2⟩ := Prod.mk.inj h
      exact eachLane_keeps hf (Prod.ext h1 (Prod.ext (Prod.mk.inj h2).1 rfl)) (hf s l t a hs hl)
    · cases h

/-- A plain store of n bytes joins the writes of its die not yet performed, those of 16 bytes to host memory in two halves (R185). -/
theorem putStore_carries (s : State) (e : Env) (t : StoreTag) (sp a : Nat) (data : List Byte) :
    ∃ ps ls, putStore s e t sp a data false = { s with pend := s.pend ++ ps, late := ls } ∧ (∀ x ∈ ls, x ∈ s.late) ∧
      Carries e.die ps (sp, a) data.length data := by
  have hone (u : State) (t : StoreTag) (x : Nat) (b : List Byte) : storeView u e.die e.g e.w t sp x b =
      { u with pend := u.pend ++ [pendOf (bindOver u e.die (memKey sp x) b.length) e.die e.g e.w t sp x b], late := (bindOver u e.die (memKey sp x) b.length).late } := rfl
  have hlate (u : State) (k n : Nat) : ∀ x ∈ (bindOver u e.die k n).late, x ∈ u.late := fun x hx => (List.mem_filter.mp hx).1
  unfold putStore
  by_cases h : sp = 1 ∧ data.length = 16
  · obtain ⟨rfl, hlen⟩ := h
    simp only [hlen, and_self, if_true, Bool.false_eq_true, if_false]
    rw [hone, hone]
    have hkey : memKey 1 (a + 8) = memKey 1 a + 8 := by rw [memKey, memKey, if_neg (by decide), if_neg (by decide), Nat.add_assoc]
    refine ⟨[_, _], _, by rw [List.append_assoc]; rfl, fun x hx => hlate _ _ _ x (hlate _ _ _ x hx), by simp [pendOf], fun sp' a' v hin => ?_,
      fun sp' a' v hout => ?_⟩ <;> rw [List.foldl_cons, List.foldl_cons, List.foldl_nil, newer_pendOf, newer_pendOf]
    · obtain ⟨hlo, hhi⟩ : memKey 1 a ≤ memKey sp' a' ∧ memKey sp' a' < memKey 1 a + 16 := hin
      simp only [hkey, List.length_take, List.length_drop, hlen, List.getElem?_drop, List.getElem?_take]
      by_cases hup : memKey 1 a + 8 ≤ memKey sp' a'
      · rw [if_pos (by omega), show 8 + (memKey sp' a' - (memKey 1 a + 8)) = memKey sp' a' - memKey 1 a by omega]
      · rw [if_neg (by omega), if_pos (by omega), if_pos (by omega)]
    · replace hout : ¬ (memKey 1 a ≤ memKey sp' a' ∧ memKey sp' a' < memKey 1 a + 16) := hout
      simp only [hkey, List.length_take, List.length_drop, hlen]
      rw [if_neg (by omega), if_neg (by omega)]
  · simp only [if_neg h, Bool.false_eq_true, if_false]
    rw [hone]
    refine ⟨[_], _, rfl, hlate _ _ _, by simp [pendOf], fun sp' a' v hin => ?_, fun sp' a' v hout => ?_⟩ <;>
      rw [List.foldl_cons, List.foldl_nil, newer_pendOf]
    · exact if_pos hin
    · exact if_neg hout

/-! ## What stores may do to the group of their word -/

/-- The group of a word as its stores may leave it: with private heap lines, and with another backing page in use (R134, R135). -/
def TookLines (e : Env) (v : State) : Prop := ∃ lines page, group? v e.g = some { e.gr with heap := lines, heapPage := page }

theorem tookLines_of_here {e : Env} {s : State} (h : Here e s) : TookLines e s := ⟨e.gr.heap, e.gr.heapPage, h.1⟩

theorem TookLines.of_groups {e : Env} {v u : State} (h : TookLines e v) (hg : u.groups = v.groups) : TookLines e u := by
  obtain ⟨lines, page, hv⟩ := h
  exact ⟨lines, page, (group?_congr hg _).trans hv⟩

/-- A change of lines and page of any group. -/
theorem TookLines.modGroup {e : Env} {v : State} (h : TookLines e v) (g : Nat) {f : Group → Group}
    (hf : ∀ x, ∃ lines page, f x = { x with heap := lines, heapPage := page }) : TookLines e (modGroup v g f) := by
  obtain ⟨lines, page, hv⟩ := h
  by_cases hg : e.g = g
  · subst hg
    obtain ⟨lines', page', hx⟩ := hf { e.gr with heap := lines, heapPage := page }
    exact ⟨lines', page', by rw [group?_modGroup_self, hv, Option.map_some, hx]⟩
  · exact ⟨lines, page, by rw [group?_modGroup_ne _ _ hg, hv]⟩

theorem devWrite_groups {s u : State} {c : Nat} {gen : Nat → Option Nat} {va : DWord} {align : Nat} {data : List Byte}
    (h : devWrite s c gen va align data = .ok u) : u.groups = s.groups := by
  unfold devWrite at h
  split at h
  · split at h
    · cases h
    · cases h; exact putPieces_groups ..
  all_goals cases h

theorem TookLines.backingLine {e : Env} {s t : State} (h : TookLines e s) {gr : Group} {va : DWord} {kind p : Nat}
    (hb : backingLine s gr va kind = .ok (t, p)) : TookLines e t := by
  unfold Machine.backingLine at hb
  extract_lets fresh at hb
  have hfresh (hb : fresh = .ok (t, p)) : TookLines e t := by
    simp only [fresh] at hb
    split at hb
    · cases hb
    · cases hb
    split at hb
    · cases hb
    · cases hb
    · cases hb
    split at hb
    · cases hb
    split at hb
    · cases hb
    split at hb
    · cases hb
    · cases hb
    · cases hb
    split at hb
    · cases hb
    split at hb
    · rename_i u hu
      cases hb
      exact (h.of_groups (devWrite_groups hu)).modGroup _ fun x => ⟨x.heap, _, rfl⟩
    all_goals cases hb
  split at hb
  · split at hb
    · cases hb; exact h.modGroup _ fun x => ⟨x.heap, _, rfl⟩
    · exact hfresh hb
  · exact hfresh hb

theorem TookLines.privateLine {e : Env} {s t : State} (h : TookLines e s) {va : DWord} {sp a kind p : Nat}
    (hb : privateLine s e va sp a kind = .ok (t, p)) : TookLines e t := by
  unfold Machine.privateLine at hb
  simp only at hb
  split at hb
  · cases hb; exact h
  split at hb
  · cases hb
  split at hb
  · cases hb
  · rename_i u q hq
    cases hb
    exact ((h.backingLine hq).of_groups (putHomeBytes_groups ..)).modGroup _ fun x => ⟨_, x.heapPage, rfl⟩

theorem TookLines.writeTarget {b u t : State} {e : Env} (h : TookLines e u) {va : DWord} {l : Leaf} {n kind p : Nat}
    (hb : writeTarget b u e va l n kind = .ok (t, p)) : TookLines e t := by
  unfold Machine.writeTarget at hb
  split at hb
  · cases hb; exact h
  split at hb
  · cases hb
  split at hb
  · split at hb
    · exact h.privateLine hb
    · cases hb
  split at hb
  · cases hb
  · cases hb; exact h

/-- What a store that finds nothing wrong comes to (R201). -/
theorem storeThrough_ok {b u t : State} {e : Env} {va : DWord} {lf : Leaf} {data : List Byte} {tag : State → StoreTag} {seq : Bool} {p : Nat × Nat}
    (h : storeThrough b u e va lf data tag seq = .ok (t, p)) :
    ∃ v a, writeTarget b u e va lf data.length 1 = .ok (v, a) ∧ t = putStore v e (tag v) lf.space a data seq ∧ p = (lf.space, a) := by
  unfold storeThrough at h
  cases hw : writeTarget b u e va lf data.length 1 with
  | error x => rw [hw] at h; cases h
  | ok x =>
    rw [hw] at h
    simp only [bind, Except.bind, pure, Except.pure] at h
    split at h
    · cases h
    · cases h; exact ⟨x.1, x.2, rfl, rfl, rfl⟩

/-- Without template heaps a store lands where its address says, and its state is the one before (R132). -/
theorem writeTarget_of_noHeaps {b u v : State} (hb : NoHeaps b) {e : Env} {va : DWord} {l : Leaf} {n kind a : Nat}
    (h : writeTarget b u e va l n kind = .ok (v, a)) : v = u ∧ a = l.addr := by
  have hnone (x k : Nat) : heapHit b x k = none := List.find?_eq_none.mpr fun t ht => by simp [heapSegs, rangeSegs, hb t ht, inSegs]
  unfold writeTarget at h
  rw [hnone] at h
  split at h
  · cases h; exact ⟨rfl, rfl⟩
  split at h
  · cases h
  simp only at h
  split at h
  · cases h
  · cases h; exact ⟨rfl, rfl⟩

/-- A plain place can be written (R132, R136, R250). -/
theorem writeTarget_of_writable {b u : State} {e : Env} {va : DWord} {l : Leaf} {n : Nat} (h : Writable b l n) (kind : Nat) :
    writeTarget b u e va l n kind = .ok (u, l.addr) := by
  unfold writeTarget
  split
  · rfl
  · obtain ⟨harea, hheap, hback⟩ := h (by omega)
    rw [harea, hheap, hback]; rfl

theorem negWrite_of_noFloors {s : State} (h : NoFloors s) (d sp a : Nat) (data : List Byte) : negWrite s d sp a data = none := by
  have hnil : s.regions.filter (·.nonneg) = [] := List.filter_eq_nil_iff.mpr fun r hr => by simp [h r hr]
  rw [negWrite, hnil]
  split <;> rfl

/-! ## QPUSH in one lane -/

section
variable {s : State} {e : Env} {u : Queue} {w : MovW} {a : Reg}

/-- What lane l pushes (R179): its registers, low first, and zeros up to 16 bytes. -/
def pushed16 (s : State) (e : Env) (w : MovW) (a : Reg) (l : Nat) : List Byte :=
  (leBytes (4 * MovW.regs w) (wideRead s e.gr e.wp a.toNat l (MovW.regs w)) ++ zeros 16).take 16

theorem length_pushed16 (l : Nat) : (pushed16 s e w a l).length = 16 := by simp [pushed16, zeros]

theorem pushLane_ok {v t : State} {l : Nat} {p : Nat × Nat} (h : pushLane e s u w a v l = .ok (t, p)) :
    ∃ lf, memLeaf s e (slotVa u (u.tail + rankIn e.live l)) 16 1 2 = .ok lf ∧
      storeThrough s v e (slotVa u (u.tail + rankIn e.live l)) lf (pushed16 s e w a l) (fun x => plainTag x e lf l) false = .ok (t, p) := by
  rw [pushLane] at h
  cases hl : memLeaf s e (slotVa u (u.tail + rankIn e.live l)) 16 1 2 with
  | error x => rw [hl] at h; cases h
  | ok lf => rw [hl] at h; exact ⟨lf, rfl, h⟩

theorem putStore_groups (s : State) (e : Env) (t : StoreTag) (sp a : Nat) (data : List Byte) : (putStore s e t sp a data false).groups = s.groups := by
  obtain ⟨ps, ls, h, -⟩ := putStore_carries s e t sp a data
  rw [h]

theorem pushLane_tookLines {v t : State} {l : Nat} {p : Nat × Nat} (hv : TookLines e v) (h : pushLane e s u w a v l = .ok (t, p)) : TookLines e t := by
  obtain ⟨lf, -, hs⟩ := pushLane_ok h
  obtain ⟨x, b, hx, rfl, -⟩ := storeThrough_ok hs
  exact (hv.writeTarget hx).of_groups (putStore_groups ..)

theorem pushLane_stores (hs : NoHeaps s) {v t : State} {l : Nat} {p : Nat × Nat} (h : pushLane e s u w a v l = .ok (t, p)) :
    Stored e v t [(l, p)] 16 (pushed16 s e w a) := by
  obtain ⟨lf, -, hst⟩ := pushLane_ok h
  obtain ⟨x, b, hx, rfl, rfl⟩ := storeThrough_ok hst
  obtain ⟨rfl, -⟩ := writeTarget_of_noHeaps hs hx
  obtain ⟨ps, ls, hput, hls, hps⟩ := putStore_carries x e (plainTag x e lf l) lf.space b (pushed16 s e w a l)
  rw [hput]
  rw [length_pushed16] at hps
  exact stored_of_carries hls hps

/-- A lane whose slot can be written pushes its entry there. -/
theorem pushLane_writable {v : State} (hv : NoFloors v) {l : Nat} {lf : Leaf} (hw : Writable s lf 16)
    (hlf : memLeaf s e (slotVa u (u.tail + rankIn e.live l)) 16 1 2 = .ok lf) :
    ∃ t, pushLane e s u w a v l = .ok (t, (lf.space, lf.addr)) ∧ NoFloors t := by
  obtain ⟨ps, ls, hput, -⟩ := putStore_carries v e (plainTag v e lf l) lf.space lf.addr (pushed16 s e w a l)
  refine ⟨putStore v e (plainTag v e lf l) lf.space lf.addr (pushed16 s e w a l) false, ?_, by rw [hput]; exact hv⟩
  have hstore : storeThrough s v e (slotVa u (u.tail + rankIn e.live l)) lf (pushed16 s e w a l) (fun x => plainTag x e lf l) false =
      .ok (putStore v e (plainTag v e lf l) lf.space lf.addr (pushed16 s e w a l) false, (lf.space, lf.addr)) := by
    rw [storeThrough, writeTarget_of_writable (by rw [length_pushed16]; exact hw)]
    show (match negWrite v e.die lf.space lf.addr (pushed16 s e w a l) with | some x => bad .orneg x 0 | none => _) = _
    rw [negWrite_of_noFloors hv]; rfl
  rw [pushLane, hlf]
  exact hstore

end

end Sys2Proof.Machine
end

section
/-! PROOFS. Graphs and nodes after a change (R154 to R156). -/

namespace Sys2Proof.Machine

/-! ## Graphs and nodes after a change -/

theorem find?_map_keyed {α : Type} {key : α → Nat} (k : Nat) {f : α → α} (hf : ∀ x, key (f x) = key x) (l : List α) :
    (l.map f).find? (key · == k) = (l.find? (key · == k)).map f := by
  have hcomp : (fun x => key x == k) ∘ f = fun x => key x == k := funext fun x => by simp [hf]
  rw [List.find?_map, hcomp]

section
variable (s : State) (g : Nat) {f : Graph → Graph} (hf : ∀ x, (f x).id = x.id)
include hf

theorem graph?_modGraph (k : Nat) : graph? (modGraph s g f) k = (graph? s k).map fun x => if x.id = g then f x else x :=
  find?_map_keyed (key := Graph.id) k (f := fun x => if x.id = g then f x else x) (fun x => by split <;> simp [hf]) s.graphs

theorem graph?_modGraph_self : graph? (modGraph s g f) g = (graph? s g).map f := by
  rw [graph?_modGraph s g hf]
  cases hx : graph? s g with
  | none => rfl
  | some x => rw [Option.map_some, Option.map_some, if_pos (by simpa using List.find?_some hx)]

end

theorem graph?_modNode_self (s : State) (g n : Nat) (f : Node → Node) :
    graph? (modNode s g n f) g = (graph? s g).map fun x => { x with nodes := modAt x.nodes n f } :=
  graph?_modGraph_self s g fun _ => rfl

theorem graph?_modGraph_of {s : State} {g : Nat} {x : Graph} (h : graph? s g = some x) (f : Graph → Graph) (hf : ∀ x, (f x).id = x.id) :
    graph? (modGraph s g f) g = some (f x) := by
  rw [graph?_modGraph_self s g hf, h]; rfl

theorem graph?_modNode_of {s : State} {g : Nat} {x : Graph} (h : graph? s g = some x) (n : Nat) (f : Node → Node) :
    graph? (modNode s g n f) g = some { x with nodes := modAt x.nodes n f } := by
  rw [graph?_modNode_self, h]; rfl

theorem node?_of_graph {s : State} {g : Nat} {x : Graph} (h : graph? s g = some x) (n : Nat) : node? s g n = x.nodes[n]? := by rw [node?, h]; rfl

theorem node?_modNode (s : State) (g n m : Nat) (f : Node → Node) : node? (modNode s g n f) g m = (node? s g m).map fun x => if m = n then f x else x := by
  rw [node?, graph?_modNode_self, node?]
  cases graph? s g with
  | none => rfl
  | some x =>
    show (modAt x.nodes n f)[m]? = (x.nodes[m]?).map _
    by_cases h : m = n
    · subst h; simp
    · rw [getElem?_modAt_ne _ _ h]; simp [h]

theorem node?_modNode_self (s : State) (g n : Nat) (f : Node → Node) : node? (modNode s g n f) g n = (node? s g n).map f := by
  simp [node?_modNode]

theorem node?_modNode_ne (s : State) (g : Nat) {n m : Nat} (f : Node → Node) (h : m ≠ n) : node? (modNode s g n f) g m = node? s g m := by
  simp [node?_modNode, h]

end Sys2Proof.Machine
end

section
/-! PROOFS. The scheduler words: queues of stage sets (R169, R178 to R181) and signal edges (R158, R182). -/

namespace Sys2Proof.Machine

/-! ## Queue words in common -/

/-- A word of queue q (R178): nothing without a live lane, PROT for a wrong queue or group, else what `act` does with it. -/
def onQueue (e : Env) (s : State) (q : Nat) (act : Nat → Queue → WordRes) : WordRes :=
  if e.live = 0 then .done s else match queue? s e.gr q with
  | none => noQueue e s
  | some (g, u) => act g u

section
variable {i : Instr} {s : State} {e : Env} {q : Nat} {act : Nat → Queue → WordRes}

theorem onQueue_some (hl : e.live ≠ 0) {g : Nat} {u : Queue} (hq : queue? s e.gr q = some (g, u)) : onQueue e s q act = act g u := by
  rw [onQueue, if_neg hl, hq]

/-- No live lane, or no such queue (R178). -/
theorem onQueue_idle (hi : Issues i s e) (hx : exec i s = finish e i (onQueue e s q act) s) :
    (e.live = 0 → Completes i s e noResult) ∧ (e.live ≠ 0 → queue? s e.gr q = none → Faults i s e .prot e.live 0 0) := by
  refine ⟨fun h0 => ?_, fun hl hq => ?_⟩
  · rw [Completes, hx, onQueue, if_pos h0]; exact finish_done_completes hi
  · rw [Faults, hx, onQueue, if_neg hl, hq]; rfl

/-- A word that waits and has changed nothing. -/
theorem holdsOn_unchanged {k : Hold} {lanes : Mask} (hi : Issues i s e) (hx : exec i s = finish e i (.hold s k lanes) s) : HoldsOn i s e s k lanes := by
  rw [HoldsOn, hx, on_of_here (issues_here hi)]; exact held_here hi k lanes

/-- A word that has changed no group and has no results completes. -/
theorem completesOn_of_groups {u : State} (hi : Issues i s e) (hu : u.groups = s.groups) (hx : exec i s = finish e i (.done u) s) :
    CompletesOn i s e u noResult := by
  have hhere := here_of_groups (issues_here hi) hu
  rw [CompletesOn, hx]
  exact settled_on hi hhere.1 hhere.2 rfl rfl rfl rfl rfl

end

/-! ## QPUSH -/

section
variable {h : Hdr} {w : MovW} {q : BitVec 8} {a d c : Reg} {s : State} {e : Env} {g : Nat} {u : Queue}

/-- What a QPUSH does with its queue (R179). -/
def pushAct (e : Env) (s : State) (w : MovW) (q : BitVec 8) (a : Reg) (g : Nat) (u : Queue) : WordRes :=
  if u.closed then .trap s .qclosed e.live (q.setWidth 64) 0
  else if Queue.held u + (lanesOf e.live).length ≤ u.cap then pushLanes e s g q.toNat u w a fun t => .done t
  else .hold s .qpush e.atPc

theorem exec_qpush (hi : Issues (.qpush h w q a) s e) :
    exec (.qpush h w q a) s = finish e (.qpush h w q a) (onQueue e s q.toNat (pushAct e s w q a)) s := by
  show execQpush h w q a s = _
  rw [execQpush, runWord_issues hi]
  simp only [onQueue, pushAct] <;> rfl

/-- What a QPUSH that completes is counted for reads neither heap lines nor pages of its group. -/
theorem qpush_completesOn {v : State} (hi : Issues (.qpush h w q a) s e) (hv : TookLines e v)
    (hx : exec (.qpush h w q a) s = finish e (.qpush h w q a) (.done v) s) : CompletesOn (.qpush h w q a) s e v noResult := by
  obtain ⟨lines, page, hg⟩ := hv
  rw [CompletesOn, hx]
  exact settled_on hi hg (issues_here hi).2 rfl rfl rfl rfl rfl

section
variable (hi : Issues (.qpush h w q a) s e) (hl : e.live ≠ 0) (hq : queue? s e.gr q.toNat = some (g, u))
include hi hl hq

theorem qpush_closed (hc : u.closed = true) : Faults (.qpush h w q a) s e .qclosed e.live (q.setWidth 64) 0 := by
  rw [Faults, exec_qpush hi, onQueue_some hl hq, pushAct, if_pos hc]; rfl

theorem qpush_waits (hc : u.closed = false) (hfull : u.cap < u.tail - u.head + (lanesOf e.live).length) :
    HoldsOn (.qpush h w q a) s e s .qpush e.atPc := by
  refine holdsOn_unchanged hi ?_
  rw [exec_qpush hi, onQueue_some hl hq, pushAct, Queue.held, if_neg (by simp [hc]), if_neg (by omega)]

/-- The queue once the entries of a push are in it. -/
theorem qpush_pushes (hc : u.closed = false) (hroom : u.tail - u.head + (lanesOf e.live).length ≤ u.cap) {x : State} {at_ : List (Nat × (Nat × Nat))}
    (hx : LanesGive e (pushLane e s u w a) s x at_) :
    CompletesOn (.qpush h w q a) s e (modQueueOf x g q.toNat fun y => { y with tail := y.tail + (lanesOf e.live).length }) noResult := by
  have htook : TookLines e x := eachLane_keeps (fun _ _ _ _ hv hp => pushLane_tookLines hv hp) hx (tookLines_of_here (issues_here hi))
  refine qpush_completesOn hi (htook.of_groups (modGraph_groups ..)) ?_
  rw [exec_qpush hi, onQueue_some hl hq, pushAct, Queue.held, if_neg (by simp [hc]), if_pos hroom, pushLanes, lanesThen_ok hx]

end

/-- Every lane of a push whose slot can be written stores its entry there. -/
theorem qpush_lanes (hs : NoFloors s) {lf : Nat → Leaf} (hlf : ∀ l, bit e.live l = true → Writable s (lf l) 16 ∧
      memLeaf s e (slotVa u (u.tail + rankIn e.live l)) 16 1 2 = .ok (lf l)) :
    ∃ x at_, LanesGive e (pushLane e s u w a) s x at_ ∧ at_.map (·.2) = (lanesOf e.live).map fun l => ((lf l).space, (lf l).addr) := by
  obtain ⟨x, at_, hx, -, hkeys, hplace⟩ := eachLane_ok (f := pushLane e s u w a) (P := NoFloors) (Q := fun l p => p = ((lf l).space, (lf l).addr))
    (lanesOf e.live) (fun l hl v hv => by
      obtain ⟨hw, hm⟩ := hlf l ((mem_lanesOf ..).mp hl)
      obtain ⟨t, ht, hfl⟩ := pushLane_writable (w := w) (a := a) hv hw hm
      exact ⟨t, _, ht, hfl, rfl⟩) hs
  refine ⟨x, at_, hx, ?_⟩
  rw [← hkeys, List.map_map]
  exact List.map_congr_left fun p hp => hplace p hp

/-! ## QPOP -/

/-- Registers written over others that have been written. -/
theorem wrote_over {t : State} {res : Nat → Nat → Option Word} (d : Reg) (n : Nat) (f : Nat → Nat) (hw : Wrote e s t res) :
    Wrote e s (writeLanes e t d.toNat n f) fun r l => (resultIn e d n f r l).orElse fun _ => res r l := by
  suffices key : ∀ (ls : List Nat), (∀ l ∈ ls, l < 32) → ∀ (v : State) (old : Nat → Nat → Option Word), Wrote e s v old →
      Wrote e s (ls.foldl (fun t l => writeWide t e.g e.w d.toNat l n (f l)) v) fun q k =>
        if k ∈ ls ∧ d.toNat ≤ q ∧ q < d.toNat + n then some (BitVec.ofNat 32 (f k / 2 ^ (32 * (q - d.toNat)))) else old q k by
    show Wrote e s ((lanesOf e.live).foldl _ t) _
    convert key (lanesOf e.live) (fun l hl => bit_lt ((mem_lanesOf ..).mp hl)) t res hw using 1
    funext r l
    simp only [resultIn, mem_lanesOf]
    split <;> rfl
  intro ls
  induction ls with
  | nil => intro _ v old hv; simpa using hv
  | cons l ls ih =>
    intro hlt v old hv
    show Wrote e s (ls.foldl _ (writeWide v e.g e.w d.toNat l n (f l))) _
    convert ih (fun k hk => hlt k (List.mem_cons_of_mem _ hk)) _ _ (wrote_writeWide n d.toNat l (f l) (hlt l (List.mem_cons_self ..)) hv) using 1
    funext q k
    by_cases hk : k = l
    · subst hk
      by_cases hm : k ∈ ls
      · simp only [hm, List.mem_cons_self, true_and]
        split <;> rfl
      · simp [hm]
    · simp [hk]

/-- A change of the graphs beside registers written. -/
theorem Wrote.modGraph {t : State} {res : Nat → Nat → Option Word} (hw : Wrote e s t res) (g : Nat) (f : Graph → Graph) :
    Wrote e (modGraph s g f) (modGraph t g f) res := by
  obtain ⟨hregs, ⟨hrest, hgroups, hcores, hgroup⟩, hwarp⟩ := hw
  refine ⟨fun r l hl => hregs r l hl, ⟨?_, hgroups, hcores, hgroup⟩, hwarp⟩
  rw [hrest]; rfl

/-- What a QPOP does with its queue (R180). -/
def popAct (e : Env) (s : State) (w : MovW) (q : BitVec 8) (d c : Reg) (g : Nat) (u : Queue) : WordRes :=
  if u.closed ∨ (lanesOf e.live).length ≤ Queue.held u then popLanes e s g q.toNat u w d c fun t => .done t
  else .hold s .qpop e.atPc

theorem exec_qpop (hi : Issues (.qpop h w q d c) s e) :
    exec (.qpop h w q d c) s = finish e (.qpop h w q d c) (onQueue e s q.toNat (popAct e s w q d c)) s := by
  show execQpop h w q d c s = _
  rw [execQpop, runWord_issues hi]
  simp only [onQueue, popAct] <;> rfl

/-- A lane past the entries of its queue reads nothing. -/
theorem popLane_past {l : Nat} (hr : u.tail - u.head ≤ rankIn e.live l) : popLane e s u w l = .ok 0 := by
  rw [popLane, Queue.held, if_neg (by omega)]

theorem popLane_entry {l : Nat} (hr : rankIn e.live l < u.tail - u.head) {lf : Leaf} {b : List Byte} (hb : readMem s e lf 16 false l = .ok b)
    (hlf : memLeaf s e (slotVa u (u.head + rankIn e.live l)) 16 0 1 = .ok lf) : popLane e s u w l = .ok (field b 0 (4 * MovW.regs w)) := by
  rw [popLane, Queue.held, if_pos hr, hlf]
  show (readMem s e lf 16 false l).bind _ = _
  rw [hb]; rfl

/-- What the registers of a QPOP take: the entries, and whether there was one. -/
def popResults (e : Env) (u : Queue) (w : MovW) (d c : Reg) (f : Nat → Nat) : Nat → Nat → Option Word := fun r l =>
  (resultIn e d (MovW.regs w) f r l).orElse fun _ => resultIn e c 1 (fun k => if rankIn e.live k < u.tail - u.head then 1 else 0) r l

/-- Registers of two results that do not meet may be written in either order. -/
theorem resultIn_orElse_comm {n m : Nat} {f f' : Nat → Nat} (hd : c.toNat + m ≤ d.toNat ∨ d.toNat + n ≤ c.toNat) (r l : Nat) :
    ((resultIn e c m f' r l).orElse fun _ => resultIn e d n f r l) = (resultIn e d n f r l).orElse fun _ => resultIn e c m f' r l := by
  unfold resultIn
  by_cases h1 : bit e.live l = true ∧ d.toNat ≤ r ∧ r < d.toNat + n
  · rw [if_pos h1, if_neg (by omega)]; rfl
  · rw [if_neg h1]; cases (if bit e.live l = true ∧ c.toNat ≤ r ∧ r < c.toNat + m then _ else none : Option Word) <;> rfl

section
variable (hi : Issues (.qpop h w q d c) s e) (hl : e.live ≠ 0) (hq : queue? s e.gr q.toNat = some (g, u))
include hi hl hq

theorem qpop_waits (hc : u.closed = false) (hfew : u.tail - u.head < (lanesOf e.live).length) : HoldsOn (.qpop h w q d c) s e s .qpop e.atPc := by
  refine holdsOn_unchanged hi ?_
  rw [exec_qpop hi, onQueue_some hl hq, popAct, Queue.held, if_neg (by simp [hc]; omega)]

theorem qpop_pops (hready : u.closed = true ∨ (lanesOf e.live).length ≤ u.tail - u.head)
    (hapart : c.toNat < d.toNat ∨ d.toNat + MovW.regs w ≤ c.toNat) {f : Nat → Nat} (hf : ∀ l, bit e.live l = true → popLane e s u w l = .ok (f l)) :
    CompletesOn (.qpop h w q d c) s e (modQueueOf s g q.toNat fun y => { y with head := y.head + min (u.tail - u.head) (lanesOf e.live).length })
      (popResults e u w d c f) := by
  have hlanes := eachLane_pure (s := s) (popLane e s u w) (v := f) (ls := lanesOf e.live) fun l hl => hf l ((mem_lanesOf ..).mp hl)
  have hval (l : Nat) (hl : bit e.live l = true) : laneNat ((lanesOf e.live).map fun l => (l, f l)) l = f l :=
    laneNat_of (Q := fun l y => y = f l) (ls := lanesOf e.live) (by simp [Function.comp_def]) (by simp) ((mem_lanesOf ..).mpr hl)
  have hone : (fun l => oneIf (decide (rankIn e.live l < Queue.held u))) = fun l => if rankIn e.live l < u.tail - u.head then 1 else 0 := by
    funext l
    by_cases hr : rankIn e.live l < u.tail - u.head <;> simp [oneIf, Queue.held, hr]
  have hregs := wrote_over c 1 (fun l => if rankIn e.live l < u.tail - u.head then 1 else 0) (wrote_writeLanes d (MovW.regs w) f (wrote_refl (issues_here hi)))
  have hres : (fun r l => (resultIn e c 1 (fun k => if rankIn e.live k < u.tail - u.head then 1 else 0) r l).orElse fun _ => resultIn e d (MovW.regs w) f r l) =
      popResults e u w d c f := funext fun r => funext fun l => resultIn_orElse_comm (by omega) r l
  rw [hres] at hregs
  have hhere : Here e (modQueueOf s g q.toNat fun y => { y with head := y.head + min (u.tail - u.head) (lanesOf e.live).length }) :=
    here_of_groups (issues_here hi) (modGraph_groups ..)
  rw [CompletesOn, exec_qpop hi, onQueue_some hl hq, popAct, Queue.held, if_pos hready, popLanes, lanesThen_ok hlanes]
  simp only [hone, writeLanes_congr e s d.toNat (MovW.regs w) hval]
  exact wrote_on hi hhere.1 hhere.2 rfl rfl rfl rfl rfl (hregs.modGraph ..)

end

/-! ## QCLOSE -/

theorem exec_qclose (hi : Issues (.qclose h q) s e) : exec (.qclose h q) s = finish e (.qclose h q)
    (onQueue e s q.toNat fun g _ => .done (modQueueOf s g q.toNat fun y => { y with closed := true })) s := by
  show execQclose h q s = _
  rw [execQclose, runWord_issues hi]
  simp only [onQueue] <;> rfl

theorem qclose_closes (hi : Issues (.qclose h q) s e) (hl : e.live ≠ 0) (hq : queue? s e.gr q.toNat = some (g, u)) :
    CompletesOn (.qclose h q) s e (modQueueOf s g q.toNat fun y => { y with closed := true }) noResult :=
  completesOn_of_groups hi (modGraph_groups ..) (by rw [exec_qclose hi, onQueue_some hl hq])

end

/-! ## NODESIG -/

/-- A node one of whose edges has been satisfied (R158). -/
def reached (bit : Nat) (x : Node) : Node :=
  { x with sat := sins x.sat bit, life := if x.life = .waiting ∧ x.deps ≤ (sins x.sat bit).length then .ready else x.life }

theorem satisfyEdge_none {s : State} {g n k : Nat} (h : ((node? s g n).bind fun x => x.succ[k]?) = none) : satisfyEdge s g n k = s := by
  rw [satisfyEdge, h]

theorem satisfyEdge_some {s : State} {g n k v : Nat} (h : ((node? s g n).bind fun x => x.succ[k]?) = some v) :
    satisfyEdge s g n k = if v = 0xFFFF then s else modNode s g (v % 4096) (reached (8 * n + k)) := by
  rw [satisfyEdge, h]
  simp only [Bool.and_eq_true, beq_iff_eq, decide_eq_true_eq]
  rfl

/-- A node that has sent an edge. -/
def sentEdge (k : Nat) (y : Node) : Node := { y with sent := sins y.sent k }

/-- What a NODESIG does once its release is made (R182). -/
def signalAct (e : Env) (k : Nat) (t : State) : WordRes := match nodeOf t e.gr with
  | none => .done t
  | some (g, n) => match node? t g n with
    | none => .done t
    | some x => match x.succ[k]? with
      | none => .done t
      | some v => if e.live = 0 ∨ v = 0xFFFF ∨ v / 32768 = 0 ∨ x.sent.contains k then .done t else .done (satisfyEdge (modNode t g n (sentEdge k)) g n k)

section
variable {h : Hdr} {k : BitVec 3} {s b : State} {e : Env}

theorem exec_nodesig (hi : Issues (.nodesig h k) s e) (hb : Released e s true .dev b) :
    exec (.nodesig h k) s = finish e (.nodesig h k) (signalAct e k.toNat b) s := by
  show execNodesig h k s = _
  rw [execNodesig, runWord_issues hi]
  exact congrArg (finish e _ · s) (afterRelease_released hb _)

/-- The successor slot that a group's node has at k (R155). -/
def signalSlot (b : State) (gr : Group) (k : Nat) : Option Nat := (nodeOf b gr).bind fun x => (node? b x.1 x.2).bind fun y => y.succ[k]?

theorem nodesig_signals (hi : Issues (.nodesig h k) s e) (hb : Released e s true .dev b) {g n : Nat} {x : Node} {v : Nat} (hl : e.live ≠ 0)
    (hn : nodeOf b e.gr = some (g, n)) (hx : node? b g n = some x) (hv : x.succ[k.toNat]? = some v) (hne : v ≠ 0xFFFF) (hsig : 32768 ≤ v)
    (hnew : k.toNat ∉ x.sent) :
    CompletesOn (.nodesig h k) s e (modNode (modNode b g n (sentEdge k.toNat)) g (v % 4096) (reached (8 * n + k.toNat))) noResult := by
  have hslot : ((node? (modNode b g n (sentEdge k.toNat)) g n).bind fun x => x.succ[k.toNat]?) = some v := by
    rw [node?_modNode_self, hx]; exact hv
  refine completesOn_of_groups hi ((modGraph_groups ..).trans ((modGraph_groups ..).trans (released_groups hb))) ?_
  rw [exec_nodesig hi hb, signalAct, hn]
  simp only [hx, hv]
  rw [if_neg, satisfyEdge_some hslot, if_neg hne]
  rintro (h0 | hempty | hord | hsent)
  · exact hl h0
  · exact hne hempty
  · omega
  · exact hnew (by simpa using hsent)

/-- No live lane, an empty or ordinary slot, or an edge sent before: nothing more (R182). -/
theorem nodesig_nothing (hi : Issues (.nodesig h k) s e) (hb : Released e s true .dev b)
    (hno : e.live = 0 ∨ signalSlot b e.gr k.toNat = none ∨ signalSlot b e.gr k.toNat = some 0xFFFF ∨ (∃ v, signalSlot b e.gr k.toNat = some v ∧ v < 32768) ∨
      ∃ g n x, nodeOf b e.gr = some (g, n) ∧ node? b g n = some x ∧ k.toNat ∈ x.sent) : CompletesOn (.nodesig h k) s e b noResult := by
  refine completesOn_of_groups hi (released_groups hb) ?_
  rw [exec_nodesig hi hb]
  suffices hact : signalAct e k.toNat b = .done b by rw [hact]
  rw [signalAct]
  cases hn : nodeOf b e.gr with
  | none => rfl
  | some gn =>
    obtain ⟨g, n⟩ := gn
    cases hx : node? b g n with
    | none => simp only [hx]
    | some x =>
      cases hv : x.succ[k.toNat]? with
      | none => simp only [hx, hv]
      | some v =>
        have hslot : signalSlot b e.gr k.toNat = some v := by rw [signalSlot, hn]; simp [hx, hv]
        simp only [hx, hv]
        refine if_pos ?_
        rcases hno with h0 | hnone | hempty | ⟨v', hv', hlt⟩ | ⟨g', n', x', hn', hx', hsent⟩
        · exact .inl h0
        · rw [hslot] at hnone; cases hnone
        · rw [hslot] at hempty; exact .inr (.inl (Option.some.inj hempty))
        · rw [hslot] at hv'
          obtain rfl := Option.some.inj hv'
          exact .inr (.inr (.inl (by omega)))
        · rw [hn] at hn'
          obtain ⟨rfl, rfl⟩ := Prod.mk.inj (Option.some.inj hn')
          rw [hx] at hx'
          obtain rfl := Option.some.inj hx'
          exact .inr (.inr (.inr (by simpa using hsent)))

end

/-- Settles O26: a queue word acts on the queue its group's node holds and a NODESIG on its node's edge, once, after the release;
a push stores one entry per live lane, so its lanes' stores add up to those of the word. -/
theorem schedulerWordsComplete : Obligations.SchedulerWordsComplete := by
  unfold Obligations.SchedulerWordsComplete
  refine ⟨fun s e h w q a d c => ⟨fun hi => onQueue_idle hi (exec_qpush hi), fun hi => onQueue_idle hi (exec_qpop hi),
    fun hi => onQueue_idle hi (exec_qclose hi), fun g u hl hq => ⟨fun hi => ⟨qpush_closed hi hl hq, qpush_waits hi hl hq,
      fun hc hroom x at_ hx => ⟨qpush_pushes hi hl hq hc hroom hx, fun hs => stored_of_eachLane (fun _ _ _ _ hp => pushLane_stores hs hp) hx⟩,
      fun hc hroom hs lf hlf => ?_⟩,
    fun hi => ⟨qpop_waits hi hl hq, fun hready hapart f hf => ⟨fun l hr hb => ?_, qpop_pops hi hl hq hready hapart hf⟩,
      fun hready hapart lf b hlf => qpop_pops hi hl hq hready hapart fun l hb => ?_⟩,
    fun hi => qclose_closes hi hl hq⟩⟩, fun s e h k b hi hb => ⟨fun g n x v hl hn hx hslot hne hsig _ hnew => ?_, nodesig_nothing hi hb⟩⟩
  · obtain ⟨x, at_, hx, hplaces⟩ := qpush_lanes hs hlf
    exact ⟨x, at_, hx, hplaces, qpush_pushes hi hl hq hc hroom hx⟩
  · exact Except.ok.inj ((hf l hb).symm.trans (popLane_past hr))
  · by_cases hr : rankIn e.live l < u.tail - u.head
    · obtain ⟨hread, hleaf⟩ := hlf l hb hr
      rw [popLane_entry hr hread hleaf, if_pos hr]
    · rw [popLane_past (by omega), if_neg hr]
  · have hv : x.succ[k.toNat]? = some v := by simpa [hn, hx] using hslot
    refine ⟨_, nodesig_signals hi hb hl hn hx hv hne hsig hnew, rfl, fun hother y hy => ?_, fun hother => ?_⟩
    · rw [node?_modNode_self, node?_modNode_ne _ _ _ hother, hy]; rfl
    · rw [node?_modNode_ne _ _ _ (Ne.symm hother), node?_modNode_self, hx]; rfl

end Sys2Proof.Machine
end

section
/-! PROOFS. The start of nodes (R158 to R161, R168). -/

namespace Sys2Proof.Machine

/-! ## Starting a node (R158, R160, R161) -/

theorem graph?_congr {s t : State} (h : t.graphs = s.graphs) (g : Nat) : graph? t g = graph? s g := by rw [graph?, h, graph?]

theorem node?_congr {s t : State} (h : t.graphs = s.graphs) (g n : Nat) : node? t g n = node? s g n := by rw [node?, graph?_congr h, node?]

theorem graph?_id {s : State} {k : Nat} {g : Graph} (h : graph? s k = some g) : g.id = k := by simpa using List.find?_some h

/-- A node as it starts, with the generations in effect (R333). -/
def startedNode (gens : List (Nat × Nat)) (x : Node) : Node :=
  { x with life := .running, gens := gens, looping := false, iter := 0, adopted := none, active := [] }

/-- A state in which node i of a graph has started and has no grid yet. -/
def nodeStarted (s : State) (g : Graph) (i : Nat) : State := modNode (forgetOld s) g.id i (startedNode (gensAtStart s g.ctx))

/-- A node that has started has heard of what goes before it (R159). -/
def nodeEntered (s : State) (g : Graph) (i : Nat) (n : Node) : State := sendAlong (.node g.id i) (startView s g i n) (nodeStarted s g i)

theorem forgetOld_only (s : State) : ∃ c, forgetOld s = { s with codeOld := c } := by
  rw [forgetOld]
  split
  · exact ⟨s.codeOld, rfl⟩
  · exact ⟨[], rfl⟩

section
variable {s : State} {g : Graph} {i : Nat} {n : Node}

theorem nodeStarted_only : ∃ gs c, nodeStarted s g i = { s with graphs := gs, codeOld := c } := by
  obtain ⟨c, hc⟩ := forgetOld_only s
  exact ⟨_, c, by rw [nodeStarted, hc]; rfl⟩

theorem nodeEntered_only : ∃ gs c es, nodeEntered s g i n = { s with graphs := gs, codeOld := c, edges := es } := by
  obtain ⟨gs, c, h⟩ := nodeStarted_only (s := s) (g := g) (i := i)
  exact ⟨gs, c, _, by rw [nodeEntered, h]; rfl⟩

theorem keepsMemory_nodeEntered : KeepsMemory s (nodeEntered s g i n) := by
  obtain ⟨gs, c, es, h⟩ := nodeEntered_only (s := s) (g := g) (i := i) (n := n)
  rw [h]; exact ⟨rfl, rfl, rfl, rfl, rfl, fun _ => rfl, fun _ => rfl⟩

theorem node?_nodeEntered (h : node? s g.id i = some n) : node? (nodeEntered s g i n) g.id i = some (startedNode (gensAtStart s g.ctx) n) := by
  obtain ⟨c, hc⟩ := forgetOld_only s
  have hold : node? (forgetOld s) g.id i = some n := by rw [hc]; exact h
  show node? (nodeStarted s g i) g.id i = _
  rw [nodeStarted, node?_modNode_self, hold]; rfl

theorem exec_nodeStart {l c k : Nat} (hf : firstServed s (readyNodes s) = some (l, c, k, i)) (hg : graph? s (k / 4096) = some g)
    (hn : node? s (k / 4096) i = some n) : exec .nodeStart s = .next (match startTrouble g i n with
      | some r => failNode (nodeStarted s g i) g.id i r
      | none => startGrids (nodeEntered s g i n) g i n) := by
  show execNodeStart s = _
  rw [execNodeStart, hf]
  simp only [hg, hn]
  rfl

/-- A grid node starts its grid (R158). -/
theorem startGrids_grid (t : State) (g : Graph) {i : Nat} {n y : Node} (hk : n.kind ≤ 1) (hy : node? t g.id i = some y) :
    KeepsMemory t (startGrids t g i n) ∧ (startGrids t g i n).grids = t.grids ++ [nodeGrid g i n t.seqs] ∧
      node? (startGrids t g i n) g.id i = some { y with grid := some t.seqs } := by
  have hstart : startGrids t g i n = modNode (sendAlong (.grid t.seqs) (edgeView t (.node g.id i))
      { t with seqs := t.seqs + 1, grids := t.grids ++ [nodeGrid g i n t.seqs] }) g.id i fun x => { x with grid := some t.seqs } := by
    obtain h | h : n.kind = 0 ∨ n.kind = 1 := by omega
    all_goals simp only [startGrids, h]; rfl
  rw [hstart]
  refine ⟨⟨rfl, rfl, rfl, rfl, rfl, fun _ => rfl, fun _ => rfl⟩, rfl, ?_⟩
  rw [node?_modNode_self]
  exact congrArg (Option.map _) hy

/-- Other nodes start no grid. -/
theorem startGrids_other (t : State) (g : Graph) (i : Nat) {n : Node} (hk : 3 ≤ n.kind) : startGrids t g i n = t := by
  obtain ⟨m, hm⟩ : ∃ m, n.kind = m + 3 := ⟨n.kind - 3, by omega⟩
  simp only [startGrids, hm]

/-- One stage starts its grid (R168). -/
def startStage (v : View) (g : Graph) (i : Nat) (n : Node) (t : State) (k : Nat) : State := match (stagesOf g i)[k]? with
  | some x => modStage (sendAlong (.grid t.seqs) v { t with seqs := t.seqs + 1, grids := t.grids ++ [stageGrid g i n k x t.seqs] }) g.id i k
      fun y => { y with grid := some t.seqs, done := false }
  | none => t

/-- The queues that a stage set starts with are empty and open (R168). -/
def queuesCleared (t : State) (g : Graph) (i : Nat) : State := modGraph t g.id fun x => { x with queues := x.queues.mapIdx fun q u =>
  if ((stagesOf g i).any fun y => y.qin == q || y.qout == q) then { u with head := 0, tail := 0, closed := false } else u }

theorem startGrids_stages (t : State) (g : Graph) (i : Nat) {n : Node} (hk : n.kind = 2) :
    startGrids t g i n = (List.range (stagesOf g i).length).foldl (startStage (edgeView t (.node g.id i)) g i n) (queuesCleared t g i) := by
  simp only [startGrids, hk]
  rfl

/-- The grids of some stages of a set, each with the minimum groups. -/
def AreStageGrids (g : Graph) (i : Nat) (ks : List Nat) (xs : List Grid) : Prop :=
  xs.map (·.stage) = ks.map some ∧ xs.map (fun x => some x.count) = ks.map (fun k => (stagesOf g i)[k]?.map (·.min)) ∧
    ∀ x ∈ xs, x.graph = g.id ∧ x.node = i ∧ x.gangN = 1 ∧ x.next = 0

theorem startStage_grid (v : View) {t : State} {k : Nat} (hk : k < (stagesOf g i).length) : KeepsMemory t (startStage v g i n t k) ∧
    ∃ x, (startStage v g i n t k).grids = t.grids ++ [x] ∧ AreStageGrids g i [k] [x] := by
  rw [startStage, List.getElem?_eq_getElem hk]
  exact ⟨⟨rfl, rfl, rfl, rfl, rfl, fun _ => rfl, fun _ => rfl⟩, _, rfl, rfl, by simp [hk, stageGrid],
    fun x hx => by obtain rfl := List.mem_singleton.mp hx; exact ⟨rfl, rfl, rfl, rfl⟩⟩

theorem AreStageGrids.append {ks ks' : List Nat} {xs xs' : List Grid} (h : AreStageGrids g i ks xs) (h' : AreStageGrids g i ks' xs') :
    AreStageGrids g i (ks ++ ks') (xs ++ xs') := by
  obtain ⟨hstage, hcount, hall⟩ := h
  obtain ⟨hstage', hcount', hall'⟩ := h'
  refine ⟨by simp [hstage, hstage'], by simp [hcount, hcount'], fun x hx => ?_⟩
  rcases List.mem_append.mp hx with h | h
  · exact hall x h
  · exact hall' x h

theorem startStages_grids (v : View) (ks : List Nat) (hks : ∀ k ∈ ks, k < (stagesOf g i).length) (t : State) :
    KeepsMemory t (ks.foldl (startStage v g i n) t) ∧ ∃ xs, (ks.foldl (startStage v g i n) t).grids = t.grids ++ xs ∧ AreStageGrids g i ks xs := by
  induction ks generalizing t with
  | nil => exact ⟨.refl t, [], by simp, rfl, rfl, by simp⟩
  | cons k ks ih =>
    obtain ⟨hmem, x, hgrids, hx⟩ := startStage_grid (n := n) v (t := t) (hks k (List.mem_cons_self ..))
    obtain ⟨hmem', xs, hgrids', hxs⟩ := ih (fun j hj => hks j (List.mem_cons_of_mem _ hj)) (startStage v g i n t k)
    exact ⟨hmem.trans hmem', x :: xs, by rw [List.foldl_cons, hgrids', hgrids]; simp, hx.append hxs⟩

end

/-- The counts of all stages of a set, in order. -/
theorem counts_of_stages {xs : List Grid} {ys : List Stage} (h : xs.map (fun x => some x.count) = (List.range ys.length).map fun k => ys[k]?.map (·.min)) :
    xs.map (·.count) = ys.map (·.min) := by
  refine List.map_injective_iff.mpr (Option.some_injective _) ?_
  rw [List.map_map, List.map_map]
  refine h.trans (List.ext_getElem (by simp) fun k _ hk => ?_)
  have hlt : k < ys.length := by simpa using hk
  simp [hlt]

/-- What the start of the first ready node comes to. -/
theorem nodeStart_starts {s : State} {l c k i : Nat} {g : Graph} {n : Node} (hf : firstServed s (readyNodes s) = some (l, c, k, i))
    (hg : graph? s (k / 4096) = some g) (hn : node? s (k / 4096) i = some n) :
      (∀ r, startTrouble g i n = some r → ∃ u, exec .nodeStart s = .next (failNode u g.id i r) ∧ u = { s with graphs := u.graphs, codeOld := u.codeOld }) ∧
      (startTrouble g i n = none → n.kind ≤ 1 → ∃ t x y, exec .nodeStart s = .next t ∧ SameMemory s t ∧ t.grids = s.grids ++ [x] ∧
        x = nodeGrid g i n s.seqs ∧ node? t g.id i = some y ∧ y.life = .running ∧ y.grid = some s.seqs ∧ y.gens = gensAtStart s g.ctx) ∧
      (startTrouble g i n = none → n.kind = 2 → ∃ t xs, exec .nodeStart s = .next t ∧ SameMemory s t ∧ t.grids = s.grids ++ xs ∧
        xs.map (·.stage) = (List.range (stagesOf g i).length).map some ∧ xs.map (·.count) = (stagesOf g i).map (·.min) ∧
        ∀ x ∈ xs, x.graph = g.id ∧ x.node = i ∧ x.gangN = 1 ∧ x.next = 0) ∧
      (startTrouble g i n = none → 3 ≤ n.kind → ∃ t y, exec .nodeStart s = .next t ∧ SameMemory s t ∧ t.grids = s.grids ∧
        node? t g.id i = some y ∧ y.life = .running ∧ y.looping = false) := by
  have hexec := exec_nodeStart hf hg hn
  rw [← graph?_id hg] at hn
  have hmem := keepsMemory_nodeEntered (s := s) (g := g) (i := i) (n := n)
  have hnode := node?_nodeEntered hn
  obtain ⟨gs, co, es, honly⟩ := nodeEntered_only (s := s) (g := g) (i := i) (n := n)
  have hseqs : (nodeEntered s g i n).seqs = s.seqs := by rw [honly]
  have hgrids : (nodeEntered s g i n).grids = s.grids := by rw [honly]
  refine ⟨fun r hr => ⟨nodeStarted s g i, by rw [hexec, hr], ?_⟩, fun h hk => ?_, fun h hk => ?_, fun h hk => ?_⟩
  · obtain ⟨gs, co, hs⟩ := nodeStarted_only (s := s) (g := g) (i := i)
    rw [hs]
  · obtain ⟨hkeep, hgrid, hy⟩ := startGrids_grid (nodeEntered s g i n) g hk hnode
    rw [hseqs] at hgrid hy
    exact ⟨_, _, _, by rw [hexec, h], (hmem.trans hkeep).sameMemory, by rw [hgrid, hgrids], rfl, hy, rfl, rfl, rfl⟩
  · obtain ⟨hkeep, xs, hxs, hst, hcount, hall⟩ := startStages_grids (n := n) (edgeView (nodeEntered s g i n) (.node g.id i)) (List.range (stagesOf g i).length)
      (fun j hj => List.mem_range.mp hj) (queuesCleared (nodeEntered s g i n) g i)
    rw [← startGrids_stages _ g i hk] at hkeep hxs
    exact ⟨_, xs, by rw [hexec, h], ((hmem.trans (keepsMemory_modGraph ..)).trans hkeep).sameMemory, by rw [hxs, ← hgrids]; rfl, hst,
      counts_of_stages hcount, hall⟩
  · exact ⟨_, _, by rw [hexec, h]; exact congrArg _ (startGrids_other _ g i hk), hmem.sameMemory, hgrids, hnode, rfl, rfl⟩

end Sys2Proof.Machine
end

section
/-! PROOFS. The completion of nodes (R155, R158). -/

namespace Sys2Proof.Machine

/-! ## Loops of a graph whose nodes keep their kind and body (R170) -/

/-- What the place of a node in loops depends on: its kind and, of a loop node, the body. -/
def loopShape (n : Node) : Nat × DWord := (n.kind, n.k48)

/-- A change of one node that is not one of its kind or body. -/
theorem loopShape_modAt (l : List Node) (n : Nat) {f : Node → Node} (hf : ∀ x, loopShape (f x) = loopShape x) :
    (modAt l n f).map loopShape = l.map loopShape := by
  refine List.ext_getElem? fun k => ?_
  rw [List.getElem?_map, List.getElem?_map, getElem?_modAt]
  split
  · rw [Option.map_map]; exact congrArg (Option.map · l[k]?) (funext hf)
  · rfl

/-- The body of a loop node holds a node. -/
def shapeAround (n : Nat) (p : Nat × DWord) : Bool := p.1 == 3 && decide (p.2.toNat % 65536 ≤ n) && decide (n ≤ p.2.toNat / 65536 % 65536)

theorem insertLoop_cons (g : Graph) (a b : Nat) (r : List Nat) : insertLoop g a (b :: r) =
    match g.nodes[a]?.map Node.span, g.nodes[b]?.map Node.span with
    | some x, some y => if x ≤ y then a :: b :: r else b :: insertLoop g a r
    | _, _ => a :: b :: r := by
  rw [insertLoop]
  cases g.nodes[a]? <;> cases g.nodes[b]? <;> rfl

theorem loopsAround_eq (g : Graph) (n : Nat) : loopsAround g n =
    ((List.range g.nodes.length).filter fun i => (g.nodes[i]?.map loopShape).any (shapeAround n)).foldr (insertLoop g) [] := by
  rw [loopsAround]
  refine congrArg (fun p => (List.filter p (List.range g.nodes.length)).foldr (insertLoop g) []) (funext fun i => ?_)
  cases g.nodes[i]? <;> rfl

section
variable {g h : Graph} (hs : h.nodes.map loopShape = g.nodes.map loopShape)
include hs

theorem loopShape_getElem? (i : Nat) : h.nodes[i]?.map loopShape = g.nodes[i]?.map loopShape := by
  rw [← List.getElem?_map, hs, List.getElem?_map]

theorem insertLoop_congr (a : Nat) (l : List Nat) : insertLoop h a l = insertLoop g a l := by
  have hspan (i : Nat) : h.nodes[i]?.map Node.span = g.nodes[i]?.map Node.span := by
    have := congrArg (Option.map fun p : Nat × DWord => p.2.toNat / 65536 % 65536 - p.2.toNat % 65536) (loopShape_getElem? hs i)
    rwa [Option.map_map, Option.map_map] at this
  induction l with
  | nil => rfl
  | cons b r ih => rw [insertLoop_cons, insertLoop_cons, hspan, hspan, ih]

theorem loopsAround_congr (n : Nat) : loopsAround h n = loopsAround g n := by
  have hlen : h.nodes.length = g.nodes.length := by simpa using congrArg List.length hs
  simp only [loopsAround_eq, loopShape_getElem? hs, hlen]
  rw [funext fun a => funext fun l => insertLoop_congr hs a l]

theorem topNodes_congr : topNodes h = topNodes g := by
  have hlen : h.nodes.length = g.nodes.length := by simpa using congrArg List.length hs
  simp only [topNodes, loopsAround_congr hs, hlen]

theorem ownBody_congr (i : Nat) (n : Node) : ownBody h i n = ownBody g i n := by simp only [ownBody, loopsAround_congr hs]

end

/-! ## Edges that are satisfied (R158) -/

/-- A node some of whose edges may have been satisfied since. -/
structure Node.Later (x y : Node) : Prop where
  shape : loopShape y = loopShape x
  succ : y.succ = x.succ
  done : y.life = .done ↔ x.life = .done
  sat : ∀ b ∈ x.sat, b ∈ y.sat

theorem Node.Later.refl (x : Node) : x.Later x := ⟨rfl, rfl, .rfl, fun _ h => h⟩

theorem Node.Later.trans {x y z : Node} (h : x.Later y) (k : y.Later z) : x.Later z :=
  ⟨k.shape.trans h.shape, k.succ.trans h.succ, k.done.trans h.done, fun b hb => k.sat b (h.sat b hb)⟩

theorem later_reached (b : Nat) (x : Node) : x.Later (reached b x) := by
  refine ⟨rfl, rfl, ?_, fun c hc => (mem_sins ..).mpr (.inr hc)⟩
  rw [reached]
  by_cases h : x.life = .waiting
  · rw [h]; simp only; split <;> simp
  · simp [h]

/-- The nodes of a graph, each as it was or later. -/
structure LaterNodes (xs ys : List Node) : Prop where
  length : ys.length = xs.length
  node : ∀ (i : Nat) (x y : Node), xs[i]? = some x → ys[i]? = some y → x.Later y

theorem LaterNodes.refl (xs : List Node) : LaterNodes xs xs := ⟨rfl, fun i x y hx hy => by rw [hx] at hy; cases hy; exact .refl x⟩

theorem LaterNodes.exists_node {xs ys : List Node} (h : LaterNodes xs ys) {i : Nat} {x : Node} (hx : xs[i]? = some x) : ∃ y, ys[i]? = some y ∧ x.Later y := by
  have hi : i < ys.length := h.length ▸ (List.getElem?_eq_some_iff.mp hx).1
  exact ⟨ys[i], List.getElem?_eq_getElem hi, h.node i x _ hx (List.getElem?_eq_getElem hi)⟩

theorem LaterNodes.trans {xs ys zs : List Node} (h : LaterNodes xs ys) (k : LaterNodes ys zs) : LaterNodes xs zs :=
  ⟨k.length.trans h.length, fun i x z hx hz => by
    obtain ⟨y, hy, hxy⟩ := h.exists_node hx
    exact hxy.trans (k.node i y z hy hz)⟩

theorem laterNodes_modAt (xs : List Node) (n : Nat) {f : Node → Node} (hf : ∀ x : Node, x.Later (f x)) : LaterNodes xs (modAt xs n f) := by
  refine ⟨length_modAt .., fun i x y hx hy => ?_⟩
  rw [getElem?_modAt, hx] at hy
  split at hy
  · obtain rfl := Option.some.inj hy; exact hf x
  · obtain rfl := Option.some.inj hy; exact .refl x

theorem LaterNodes.shape {xs ys : List Node} (h : LaterNodes xs ys) : ys.map loopShape = xs.map loopShape :=
  List.ext_getElem (by simp [h.length]) fun i hi _ => by
    have hx : i < xs.length := by simpa [h.length] using hi
    simpa using (h.node i xs[i] _ (List.getElem?_eq_getElem hx) (List.getElem?_eq_getElem (by simpa using hi))).shape

/-- Some edges of a node have been satisfied: they are among the satisfied edges of the nodes they lead to. -/
theorem satisfyEdges_reach {g i : Nat} {n : Node} (ks : List Nat) {t : State} {z : Graph} (hz : graph? t g = some z) {m : Node}
    (hm : z.nodes[i]? = some m) (hsucc : m.succ = n.succ) :
    ∃ z', graph? (ks.foldl (fun t k => satisfyEdge t g i k) t) g = some z' ∧ LaterNodes z.nodes z'.nodes ∧
      ∀ k ∈ ks, ∀ v, n.succ[k]? = some v → v ≠ 0xFFFF → ∀ y, z'.nodes[v % 4096]? = some y → 8 * i + k ∈ y.sat := by
  induction ks generalizing t z m with
  | nil => exact ⟨z, hz, .refl _, by simp⟩
  | cons k ks ih =>
    have hstep : ∃ w, graph? (satisfyEdge t g i k) g = some w ∧ LaterNodes z.nodes w.nodes ∧
        ∀ v, n.succ[k]? = some v → v ≠ 0xFFFF → ∀ y, w.nodes[v % 4096]? = some y → 8 * i + k ∈ y.sat := by
      have hslot : ((node? t g i).bind fun x => x.succ[k]?) = n.succ[k]? := by rw [node?_of_graph hz, hm, ← hsucc]; rfl
      cases hv : n.succ[k]? with
      | none => exact ⟨z, by rw [satisfyEdge_none (hslot.trans hv)]; exact hz, .refl _, by simp⟩
      | some v =>
        rw [satisfyEdge_some (hslot.trans hv)]
        by_cases he : v = 0xFFFF
        · rw [if_pos he]; exact ⟨z, hz, .refl _, fun v' hv' hne => by simp_all⟩
        · rw [if_neg he, graph?_modNode_self, hz]
          refine ⟨_, rfl, laterNodes_modAt _ _ (later_reached _), fun v' hv' _ y hy => ?_⟩
          obtain rfl := Option.some.inj hv'
          rw [getElem?_modAt_self] at hy
          obtain ⟨x, -, rfl⟩ := Option.map_eq_some_iff.mp hy
          exact (mem_sins ..).mpr (.inl rfl)
    obtain ⟨w, hw, hlater, hsat⟩ := hstep
    obtain ⟨m', hm', hmm'⟩ := hlater.exists_node hm
    obtain ⟨z', hz', hlater', hsat'⟩ := ih hw hm' (hmm'.succ.trans hsucc)
    refine ⟨z', hz', hlater.trans hlater', fun j hj v hv hne y hy => ?_⟩
    rcases List.mem_cons.mp hj with rfl | hj
    · have hlt : v % 4096 < w.nodes.length := hlater'.length ▸ (List.getElem?_eq_some_iff.mp hy).1
      have hat := List.getElem?_eq_getElem hlt
      exact (hlater'.node _ _ _ hat hy).sat _ (hsat v hv hne _ hat)
    · exact hsat' j hj v hv hne y hy

theorem satisfyAll_reach {g i : Nat} {t : State} {z : Graph} (hz : graph? t g = some z) {m : Node} (hm : z.nodes[i]? = some m) :
    ∃ z', graph? (satisfyAll t g i) g = some z' ∧ LaterNodes z.nodes z'.nodes ∧
      ∀ k < 8, ∀ v, m.succ[k]? = some v → v ≠ 0xFFFF → ∀ y, z'.nodes[v % 4096]? = some y → 8 * i + k ∈ y.sat := by
  obtain ⟨z', hz', hlater, hsat⟩ := satisfyEdges_reach (List.range 8) hz hm rfl
  exact ⟨z', hz', hlater, fun k hk => hsat k (List.mem_range.mpr hk)⟩

theorem graph?_settleRanges (s : State) (g : Nat) : graph? (settleRanges s) g = graph? s g := rfl

theorem node?_settleRanges (s : State) (g n : Nat) : node? (settleRanges s) g n = node? s g n := rfl

theorem keepsMemory_satisfyEdge (s : State) (g n k : Nat) : KeepsMemory s (satisfyEdge s g n k) := by
  cases h : (node? s g n).bind fun x => x.succ[k]? with
  | none => rw [satisfyEdge_none h]; exact .refl s
  | some v =>
    rw [satisfyEdge_some h]
    split
    · exact .refl s
    · exact keepsMemory_modGraph ..

theorem keepsMemory_satisfyAll (s : State) (g i : Nat) : KeepsMemory s (satisfyAll s g i) := by
  suffices h : ∀ (ks : List Nat) (t : State), KeepsMemory t (ks.foldl (fun t k => satisfyEdge t g i k) t) from h _ s
  intro ks
  induction ks with
  | nil => exact .refl
  | cons k ks ih => exact fun t => (keepsMemory_satisfyEdge ..).trans (ih _)

/-! ## NODE_COMPLETION -/

theorem keepsWork_drainDies (s : State) (ds : List Nat) : KeepsWork s (ds.foldl drainDie s) := by
  induction ds generalizing s with
  | nil => exact .refl s
  | cons d ds ih => exact (keepsWork_drainDie s d).trans (ih _)

/-- A node as it is done. -/
def doneNode (x : Node) : Node := { x with life := .done }

/-- The node is done and its templates are freed (R134, R158). -/
def nodeClosed (s : State) (g : Graph) (i : Nat) : State :=
  modNode { s with tmpls := s.tmpls.filter fun t => !((gridsOf s g.id i).map (·.id)).contains t.grid } g.id i doneNode

/-- The graph of a node that is done ends with its last top node (R158). -/
def afterNode (s : State) (g : Nat) (res : List (SlotCmd × Nat)) : State := match graph? s g with
  | some x => if (topNodes x).all (nodeDone x) then graphDone s x res else s
  | none => s

theorem nodeDone_iff {g : Graph} {i : Nat} : nodeDone g i = true ↔ ∃ n, g.nodes[i]? = some n ∧ n.life = .done := by
  rw [nodeDone]
  cases g.nodes[i]? <;> simp

section
variable {s : State} {g i : Nat} {x : Graph} {n : Node}

/-- A graph goes on while a top node of it is not done. -/
theorem finishNode_open (hfail : x.failed = none) {z : Graph} (hz : graph? (settleRanges (satisfyAll (nodeClosed s x i) x.id i)) x.id = some z)
    (hlast : (topNodes z).all (nodeDone z) = false) (res : List (SlotCmd × Nat)) :
    finishNode s x i res = settleRanges (satisfyAll (nodeClosed s x i) x.id i) := by
  have hfin : finishNode s x i res = afterNode (settleRanges (satisfyAll (nodeClosed s x i) x.id i)) x.id res := by
    unfold finishNode
    rw [hfail]
    rfl
  rw [hfin, afterNode, hz]
  simp only [hlast, Bool.false_eq_true, if_false]

/-- A top node that is not done keeps a graph going when another is done. -/
theorem not_all_done {z : Graph} (hlater : LaterNodes (modAt x.nodes i doneNode) z.nodes) (hother : ∃ j ∈ topNodes x, j ≠ i ∧ nodeDone x j = false) :
    (topNodes z).all (nodeDone z) = false := by
  have hshape : z.nodes.map loopShape = x.nodes.map loopShape := hlater.shape.trans (loopShape_modAt _ _ fun _ => rfl)
  obtain ⟨j, hj, hji, hjd⟩ := hother
  refine List.all_eq_false.mpr ⟨j, (topNodes_congr hshape).symm ▸ hj, fun hzj => ?_⟩
  obtain ⟨b, hb, hbd⟩ := nodeDone_iff.mp hzj
  have hlt : j < (modAt x.nodes i doneNode).length := hlater.length ▸ (List.getElem?_eq_some_iff.mp hb).1
  have ha := List.getElem?_eq_getElem hlt
  have had := (hlater.node j _ b ha hb).done.mp hbd
  rw [getElem?_modAt_ne _ _ hji] at ha
  exact Bool.false_ne_true (hjd.symm.trans (nodeDone_iff.mpr ⟨_, ha, had⟩))

/-- A node done in a graph that goes on has satisfied its edges (R158). -/
theorem finishNode_goes_on (hx : graph? s g = some x) (hn : x.nodes[i]? = some n) (hfail : x.failed = none)
    (hother : ∃ j ∈ topNodes x, j ≠ i ∧ nodeDone x j = false) (res : List (SlotCmd × Nat)) :
    finishNode s x i res = settleRanges (satisfyAll (nodeClosed s x i) g i) ∧ ∃ z y, graph? (finishNode s x i res) g = some z ∧
      z.nodes[i]? = some y ∧ y.life = .done ∧
      ∀ k < 8, ∀ v, n.succ[k]? = some v → v ≠ 0xFFFF → ∀ y, z.nodes[v % 4096]? = some y → 8 * i + k ∈ y.sat := by
  obtain rfl := graph?_id hx
  have hclosed : graph? (nodeClosed s x i) x.id = some { x with nodes := modAt x.nodes i doneNode } := graph?_modNode_of ((graph?_congr rfl _).trans hx) ..
  have hself : (modAt x.nodes i doneNode)[i]? = some (doneNode n) := by rw [getElem?_modAt_self, hn]; rfl
  obtain ⟨z, hz, hlater, hsat⟩ := satisfyAll_reach hclosed hself
  have hz' : graph? (settleRanges (satisfyAll (nodeClosed s x i) x.id i)) x.id = some z := (graph?_settleRanges ..).trans hz
  obtain ⟨y, hy, hdone⟩ := hlater.exists_node hself
  have hlast := not_all_done hlater hother
  have hfin := finishNode_open hfail hz' hlast res
  exact ⟨hfin, z, y, by rw [hfin]; exact hz', hy, hdone.done.mpr rfl, hsat⟩

theorem keepsMemory_nodeClosed (s : State) (x : Graph) (i : Nat) : KeepsMemory s (nodeClosed s x i) :=
  (keepsMemory_of_tmpls ..).trans (keepsMemory_modGraph ..)

/-- A node whose work is over completes (R158). -/
theorem exec_nodeCompletion (hx : graph? s g = some x) (hn : node? s g i = some n) (hend : x.ended = false)
    (hwait : waiting s (.nodeCompletion g i) = false) (hover : nodeOver s x i n = true) (hword : n.word = 0)
    (hother : ∃ j ∈ topNodes x, j ≠ i ∧ nodeDone x j = false) :
    exec (.nodeCompletion g i) s = .next (finishNode ((List.range 4).foldl drainDie s) x i []) := by
  have hlast : ((topNodes x).all fun j => j == i || nodeDone x j) = false := by
    obtain ⟨j, hj, hji, hjd⟩ := hother
    exact List.all_eq_false.mpr ⟨j, hj, by simp [hji, hjd]⟩
  show execNodeCompletion g i s = _
  rw [execNodeCompletion, hwait]
  simp only [hx, hn, hend, hover, hlast, hword, Bool.false_eq_true, if_false, Bool.not_true, Bool.or_self, if_true]

theorem nodeCompletion_completes (hx : graph? s g = some x) (hn : node? s g i = some n) (hend : x.ended = false) (hfail : x.failed = none)
    (hwait : waiting s (.nodeCompletion g i) = false) (hover : nodeOver s x i n = true) (hword : n.word = 0)
    (hother : ∃ j ∈ topNodes x, j ≠ i ∧ nodeDone x j = false) : ∃ t y, exec (.nodeCompletion g i) s = .next t ∧
      SameMemory ((List.range 4).foldl drainDie s) t ∧ node? t g i = some y ∧ y.life = .done ∧
      ∀ (k v : Nat) (z : Node), n.succ[k]? = some v → v ≠ 0xFFFF → v % 4096 ≠ i → k < 8 → node? t g (v % 4096) = some z → 8 * i + k ∈ z.sat := by
  have hu := ((keepsWork_drainDies s (List.range 4)).graph? g).trans hx
  obtain ⟨hfin, z, y, hz, hy, hlife, hsat⟩ := finishNode_goes_on hu ((node?_of_graph hx i).symm.trans hn) hfail hother []
  refine ⟨_, y, exec_nodeCompletion hx hn hend hwait hover hword hother, ?_, by rw [node?_of_graph hz, hy], hlife, fun k v b hv hne _ hk hb => ?_⟩
  · rw [hfin]
    exact ((keepsMemory_nodeClosed ..).trans ((keepsMemory_satisfyAll ..).trans (keepsMemory_settleRanges _))).sameMemory
  · exact hsat k hk v hv hne b ((node?_of_graph hz _).symm.trans hb)

end

end Sys2Proof.Machine
end

section
/-! PROOFS. Host waits, stages and loops that go on (R158, R168, R169, R171, R172). -/

namespace Sys2Proof.Machine

/-! ## HOST_WAIT_WATCH (R158) -/

section
variable {s : State} {g i : Nat} {x : Graph} {n : Node} (hx : graph? s g = some x) (hn : node? s g i = some n)
include hx hn

theorem exec_hostWaitWatch (hend : x.ended = false) (hwait : waiting s (.hostWaitWatch g i) = false) (hkind : n.kind = 4) (hlife : n.life = .running)
    (hlink : devLinkDown s x.ctx (nodeGen s g i) n.k40 = false) {b : List Byte} (hb : devRead s x.ctx (nodeGen s g i) n.k40 8 8 = .ok b) :
    exec (.hostWaitWatch g i) s = .next (if n.k48.toNat ≤ leNat b then
      modNode (sendAlong (.node g i) (watchView s x.ctx (nodeGen s g i) n.k40) s) g i fun y => { y with life := .ending } else s) := by
  show execHostWaitWatch g i s = _
  rw [execHostWaitWatch, hwait]
  simp only [hx, hn, hend, hkind, hlife, hlink, hb, Bool.false_eq_true, if_false, ne_eq, not_true_eq_false, or_self]

theorem hostWaitWatch_ends (hend : x.ended = false) (hwait : waiting s (.hostWaitWatch g i) = false) (hkind : n.kind = 4) (hlife : n.life = .running)
    (hlink : devLinkDown s x.ctx (nodeGen s g i) n.k40 = false) {b : List Byte} (hb : devRead s x.ctx (nodeGen s g i) n.k40 8 8 = .ok b) :
    (leNat b < n.k48.toNat → exec (.hostWaitWatch g i) s = .next s) ∧
    (n.k48.toNat ≤ leNat b → ∃ v, exec (.hostWaitWatch g i) s = .next (modNode { s with edges := v } g i fun y => { y with life := .ending })) := by
  have hexec := exec_hostWaitWatch hx hn hend hwait hkind hlife hlink hb
  refine ⟨fun hlt => ?_, fun hle => ⟨(sendAlong (.node g i) (watchView s x.ctx (nodeGen s g i) n.k40) s).edges, ?_⟩⟩
  · rw [hexec, if_neg (by omega)]
  · rw [hexec, if_pos hle]; rfl

/-! ## STAGE_REEVALUATION and STAGE_COMPLETION (R168, R169) -/

theorem exec_stageReevaluation (hlife : n.life = .running) :
    exec (.stageReevaluation g i) s = .next (((stagesOf x i).drop 1).foldl (fun t y => match wantsGroup s x y with
      | some z => modGrid t z fun q => { q with count := q.count + 1 }
      | none => t) s) := by
  show execStageReevaluation g i s = _
  rw [execStageReevaluation]
  simp only [hx, hn, hlife, ne_eq, not_true_eq_false, if_false] <;> rfl

end

/-- The stages of a node, one of which has changed. -/
def stageChanged (i k : Nat) (f : Stage → Stage) (x : Graph) : Graph :=
  { x with stages := x.stages.map fun p => if p.1 = i then (i, modAt p.2 k f) else p }

theorem stagesOf_changed (i k : Nat) (f : Stage → Stage) (x : Graph) : stagesOf (stageChanged i k f x) i = modAt (stagesOf x i) k f := by
  have hfind := find?_map_keyed (key := Prod.fst) i (f := fun p : Nat × List Stage => if p.1 = i then (i, modAt p.2 k f) else p)
    (fun p => by split <;> simp_all) x.stages
  rw [stagesOf, stagesOf, stageChanged, hfind]
  cases hp : x.stages.find? (·.1 == i) with
  | none => rfl
  | some p => rw [Option.map_some, if_pos (by simpa using List.find?_some hp)]; rfl

/-- A graph one of whose queues has been closed (R169). -/
def queueClosed (q : Nat) (x : Graph) : Graph := { x with queues := modAt x.queues q fun u => { u with closed := true } }

/-- A stage is done, and its grid with it (R169). -/
def stageDone (s : State) (g i k : Nat) (y : Stage) : State :=
  match y.grid with
  | some gd => modGrid (modStage s g i k fun y => { y with done := true }) gd fun z => { z with count := z.next, done := true }
  | none => modStage s g i k fun y => { y with done := true }

section
variable {s : State} {g i k : Nat} {x : Graph} {n : Node} {y : Stage}

theorem keepsMemory_stageDone : KeepsMemory s (stageDone s g i k y) := by
  unfold stageDone
  split
  · exact (keepsMemory_modGraph ..).trans (keepsMemory_modGrid ..)
  · exact keepsMemory_modGraph ..

theorem graph?_stageDone (hx : graph? s g = some x) : graph? (stageDone s g i k y) g = some (stageChanged i k (fun y => { y with done := true }) x) := by
  have hgraph : graph? (modStage s g i k fun y => { y with done := true }) g = some (stageChanged i k (fun y => { y with done := true }) x) :=
    graph?_modGraph_of hx (stageChanged i k _) fun _ => rfl
  unfold stageDone
  split
  · exact (graph?_congr rfl _).trans hgraph
  · exact hgraph

theorem exec_stageCompletion (hx : graph? s g = some x) (hn : node? s g i = some n) (hlife : n.life = .running) (hy : (stagesOf x i)[k]? = some y)
    (hover : stageOver s x y = true) : exec (.stageCompletion g i k) s = .next (if y.qout = 0xFFFF then stageDone s g i k y else
      modQueueOf (stageDone s g i k y) g y.qout fun q => { q with closed := true }) := by
  show execStageCompletion g i k s = _
  rw [execStageCompletion]
  simp only [hx, hn, hy, hlife, hover, ne_eq, not_true_eq_false, false_and, Bool.true_eq_false, or_self, if_false]
  rfl

/-- A stage that is over is done and closes its output queue. -/
theorem stageCompletion_closes (hx : graph? s g = some x) (hn : node? s g i = some n) (hlife : n.life = .running) (hy : (stagesOf x i)[k]? = some y)
    (hover : stageOver s x y = true) : ∃ t z, exec (.stageCompletion g i k) s = .next t ∧ SameMemory s t ∧ graph? t g = some z ∧
      (∀ q, (stagesOf z i)[k]? = some q → q.done = true) ∧ (y.qout ≠ 0xFFFF → ∀ q, z.queues[y.qout]? = some q → q.closed = true) := by
  have hexec := exec_stageCompletion hx hn hlife hy hover
  have hgraph := graph?_stageDone (i := i) (k := k) (y := y) hx
  have hdone : ∀ q, (stagesOf (stageChanged i k (fun y => { y with done := true }) x) i)[k]? = some q → q.done = true := by
    intro q hq
    rw [stagesOf_changed, getElem?_modAt_self, hy] at hq
    obtain rfl := Option.some.inj hq
    rfl
  by_cases hq : y.qout = 0xFFFF
  · rw [if_pos hq] at hexec
    exact ⟨_, _, hexec, keepsMemory_stageDone.sameMemory, hgraph, hdone, fun h => absurd hq h⟩
  · rw [if_neg hq] at hexec
    refine ⟨_, _, hexec, (keepsMemory_stageDone.trans (keepsMemory_modGraph ..)).sameMemory,
      graph?_modGraph_of hgraph (queueClosed y.qout) fun _ => rfl, hdone, fun _ q hq => ?_⟩
    rw [queueClosed, getElem?_modAt_self] at hq
    obtain ⟨u, -, rfl⟩ := Option.map_eq_some_iff.mp hq
    rfl

end

/-! ## LOOP_BOUNDARY (R171, R172) -/

/-- A loop node after a boundary: what it has adopted, and its iteration (R171). -/
def turnedNode (adopted : Option Nat) (iter : Nat) (x : Node) : Node := { x with adopted := adopted, iter := iter, active := [], looping := true }

/-- The generations that a loop's own accesses use from step 2 on (R171). -/
def loopGen (s : State) (g i : Nat) (n : Node) (r : Nat) : Option Nat := if n.subscription = some r then adoption s n else nodeGen s g i r

/-- A loop without a batching table has passed its boundary. -/
def loopTurned (u s : State) (g i : Nat) (n : Node) : State :=
  modNode (sendAlong (.node g i) (bodyView u g n) u) g i (turnedNode (adoption s n) (if n.looping then n.iter + 1 else 0))

/-- A graph in which no slot of a loop holds a record (R340). -/
def recordsCleared (i : Nat) (x : Graph) : Graph := { x with recorded := x.recorded.filter fun p => p.1 != i }

/-- The word of a loop is 0: it ends (R171). -/
def loopEnded (s : State) (g i : Nat) : State :=
  modNode (modGraph s g (recordsCleared i)) g i fun x => { x with life := .ending }

section
variable {s : State} {g i : Nat} {x : Graph} {n : Node}

theorem exec_loopBoundary (hx : graph? s g = some x) (hn : node? s g i = some n) (hwait : waiting s (.loopBoundary g i) = false)
    (hdue : boundaryDue x i n = true) (hplain : n.k56 = 0) {b : List Byte}
    (hb : devRead ((List.range 4).foldl drainDie s) x.ctx (loopGen s g i n) n.k40 4 4 = .ok b) :
    exec (.loopBoundary g i) s = .next (settleRanges (if leNat b = 0 then loopEnded (loopTurned ((List.range 4).foldl drainDie s) s g i n) g i
      else resetBody (loopTurned ((List.range 4).foldl drainDie s) s g i n) g i n)) := by
  unfold loopGen at hb
  show execLoopBoundary g i s = _
  rw [execLoopBoundary, hwait]
  simp only [hx, hn, hdue, hplain, hb, devThen, Bool.false_eq_true, if_false, Bool.not_true, if_true]
  rfl

theorem keepsMemory_loopTurned (u s : State) (g i : Nat) (n : Node) : KeepsMemory u (loopTurned u s g i n) :=
  (keepsMemory_sendAlong ..).trans (keepsMemory_modGraph ..)

theorem keepsMemory_loopEnded (s : State) (g i : Nat) : KeepsMemory s (loopEnded s g i) := (keepsMemory_modGraph ..).trans (keepsMemory_modGraph ..)

theorem keepsMemory_resetBody (s : State) (g i : Nat) (n : Node) : KeepsMemory s (resetBody s g i n) := by
  unfold resetBody
  split
  · exact .refl s
  · exact ⟨rfl, rfl, rfl, rfl, rfl, fun _ => rfl, fun _ => rfl⟩

/-- The graph of a loop that has passed its boundary. -/
theorem graph?_loopTurned {u : State} (hx : graph? u g = some x) : graph? (loopTurned u s g i n) g =
    some { x with nodes := modAt x.nodes i (turnedNode (adoption s n) (if n.looping then n.iter + 1 else 0)) } :=
  graph?_modNode_of ((graph?_congr rfl _).trans hx) ..

theorem node?_loopEnded {y : Node} (hy : node? s g i = some y) : node? (loopEnded s g i) g i = some { y with life := .ending } := by
  obtain ⟨x, hx, hxy⟩ := Option.bind_eq_some_iff.mp hy
  rw [loopEnded, node?_modNode_self, node?_of_graph (graph?_modGraph_of hx (recordsCleared i) fun _ => rfl)]
  exact congrArg (Option.map _) hxy

/-- A body node as an iteration starts (R170, R171). -/
def bodyReset (own : List Nat) (j : Nat) (z : Node) : Node :=
  { z with life := if own.contains j ∧ z.deps = 0 then .ready else .waiting, sat := [], sent := [], looping := false, active := [], adopted := none, grid := none }

theorem node?_resetBody (hx : graph? s g = some x) (j : Nat) : node? (resetBody s g i n) g j =
    x.nodes[j]?.map fun z => if (bodyNodes n).contains j then bodyReset (ownBody x i n) j z else z := by
  have hreset : ∃ gs f, resetBody s g i n = { modGraph s g f with grids := gs } ∧ (∀ y, (f y).id = y.id) ∧
      ∀ y, (f y).nodes = y.nodes.mapIdx fun j z => if (bodyNodes n).contains j then bodyReset (ownBody x i n) j z else z := by
    unfold resetBody
    rw [hx]
    exact ⟨_, _, rfl, fun _ => rfl, fun _ => rfl⟩
  obtain ⟨gs, f, hr, hid, hnodes⟩ := hreset
  rw [hr]
  have hgraph : graph? (modGraph s g f) g = some (f x) := by rw [graph?_modGraph_self s g hid, hx]; rfl
  refine (node?_congr rfl g j).trans ((node?_of_graph hgraph j).trans ?_)
  rw [hnodes, List.getElem?_mapIdx]

theorem mem_bodyNodes_of_ownBody {j : Nat} (h : j ∈ ownBody x i n) : j ∈ bodyNodes n := (List.mem_filter.mp h).1

/-- A loop without a batching table at its boundary: it ends where its word is 0, and goes on otherwise. -/
theorem loopBoundary_turns (hx : graph? s g = some x) (hn : node? s g i = some n) (hwait : waiting s (.loopBoundary g i) = false)
    (hdue : boundaryDue x i n = true) (hplain : n.k56 = 0) (hout : i ∉ bodyNodes n) {b : List Byte}
    (hb : devRead ((List.range 4).foldl drainDie s) x.ctx (loopGen s g i n) n.k40 4 4 = .ok b) :
    ∃ t y, exec (.loopBoundary g i) s = .next t ∧ SameMemory ((List.range 4).foldl drainDie s) t ∧ node? t g i = some y ∧ y.looping = true ∧
      y.adopted = adoption s n ∧ y.iter = (if n.looping = true then n.iter + 1 else 0) ∧ (leNat b = 0 → y.life = .ending) ∧
      (leNat b ≠ 0 → y.life = .running ∧ ∀ (j : Nat) (z : Node), j ∈ ownBody x i n → node? t g j = some z →
        z.sat = [] ∧ z.life = if z.deps = 0 then .ready else .waiting) := by
  generalize hu : (List.range 4).foldl drainDie s = u at hb ⊢
  have hexec := exec_loopBoundary hx hn hwait hdue hplain (hu ▸ hb)
  rw [hu] at hexec
  have hxu : graph? u g = some x := hu ▸ ((keepsWork_drainDies s (List.range 4)).graph? g).trans hx
  have hturn := graph?_loopTurned (s := s) (i := i) (n := n) hxu
  have hni : x.nodes[i]? = some n := (node?_of_graph hx i).symm.trans hn
  have hself : node? (loopTurned u s g i n) g i = some (turnedNode (adoption s n) (if n.looping then n.iter + 1 else 0) n) := by
    rw [node?_of_graph hturn]
    exact (getElem?_modAt_self ..).trans (by rw [hni]; rfl)
  by_cases hw : leNat b = 0
  · rw [if_pos hw] at hexec
    exact ⟨_, _, hexec, ((keepsMemory_loopTurned ..).trans ((keepsMemory_loopEnded ..).trans (keepsMemory_settleRanges _))).sameMemory,
      (node?_settleRanges ..).trans (node?_loopEnded hself), rfl, rfl, rfl, fun _ => rfl, fun h => absurd hw h⟩
  · rw [if_neg hw] at hexec
    have hshape := loopShape_modAt x.nodes i (f := turnedNode (adoption s n) (if n.looping then n.iter + 1 else 0)) fun _ => rfl
    refine ⟨_, turnedNode (adoption s n) (if n.looping then n.iter + 1 else 0) n, hexec,
      ((keepsMemory_loopTurned ..).trans ((keepsMemory_resetBody ..).trans (keepsMemory_settleRanges _))).sameMemory,
      (node?_settleRanges ..).trans ?_, rfl, rfl, rfl, fun h => absurd h hw, fun _ => ⟨?_, fun j z hj hz => ?_⟩⟩
    · rw [node?_resetBody hturn, ← node?_of_graph hturn, hself, Option.map_some, if_neg (by simpa using hout)]
    · have hrun : n.life = .running := by
        simp only [boundaryDue, Bool.and_eq_true, beq_iff_eq] at hdue
        exact hdue.1.1.1.2
      exact hrun
    · rw [node?_settleRanges, node?_resetBody hturn, ownBody_congr hshape] at hz
      obtain ⟨y, -, rfl⟩ := Option.map_eq_some_iff.mp hz
      rw [if_pos (by simpa using mem_bodyNodes_of_ownBody hj)]
      exact ⟨rfl, by simp [bodyReset, hj]⟩

end

end Sys2Proof.Machine
end

section
/-! PROOFS. Batches, placement and splits (R161 to R163, R166), and the work that proceeds. -/

namespace Sys2Proof.Machine

/-! ## The first of a sorted list -/

/-- An item that comes before the others with its key, and before which none with a smaller key comes, is the first of those sorted. -/
theorem sortOn_filterMap_first {α : Type} {key : α → Nat} {f : Nat → Option α} {p : Nat} {x : α} (hx : f p = some x) (ks : List Nat) (hks : ks.Pairwise (· < ·))
    (hp : p ∈ ks) (hfirst : ∀ q ∈ ks, q ≠ p → ∀ y, f q = some y → key x < key y ∨ (key x = key y ∧ p < q)) :
    ∃ r, sortOn key (ks.filterMap f) = x :: r := by
  induction ks with
  | nil => cases hp
  | cons k ks ih =>
    obtain ⟨hk, hks⟩ := List.pairwise_cons.mp hks
    by_cases hkp : k = p
    · subst hkp
      have hall : ∀ y ∈ sortOn key (ks.filterMap f), key x ≤ key y := by
        intro y hy
        obtain ⟨q, hq, hfq⟩ := List.mem_filterMap.mp ((mem_sortOn ..).mp hy)
        rcases hfirst q (List.mem_cons_of_mem _ hq) (Nat.ne_of_gt (hk q hq)) y hfq with h | h <;> omega
      rw [List.filterMap_cons_some hx]
      show ∃ r, insertOn key x (sortOn key (ks.filterMap f)) = x :: r
      cases hr : sortOn key (ks.filterMap f) with
      | nil => exact ⟨[], rfl⟩
      | cons y r => exact ⟨y :: r, if_pos (hall y (hr ▸ List.mem_cons_self ..))⟩
    · have hpk : p ∈ ks := (List.mem_cons.mp hp).resolve_left (Ne.symm hkp)
      obtain ⟨r, hr⟩ := ih hks hpk fun q hq => hfirst q (List.mem_cons_of_mem _ hq)
      cases hf : f k with
      | none => rw [List.filterMap_cons_none hf]; exact ⟨r, hr⟩
      | some y =>
        have hlt : key x < key y := (hfirst k (List.mem_cons_self ..) hkp y hf).resolve_right fun h => absurd (hk p hpk) (by omega)
        rw [List.filterMap_cons_some hf]
        show ∃ r, insertOn key y (sortOn key (ks.filterMap f)) = x :: r
        rw [hr, insertOn, if_neg (by omega)]
        exact ⟨_, rfl⟩

theorem firstServed_mem {s : State} {l : List Served} {x : Served} (h : firstServed s l = some x) : x ∈ l := by
  unfold firstServed at h
  dsimp only at h
  split at h
  · have hx := (mem_sortOn ..).mp (List.mem_of_head? h)
    exact (List.mem_filter.mp (List.mem_filter.mp hx).1).1
  · cases h

/-- A grid's level is at most 3 (R161). -/
theorem openGrids_level {s : State} {p : Nat} {x : Served} (h : x ∈ openGrids s p) : x.1 ≤ 3 := by
  obtain ⟨g, -, rfl⟩ := List.mem_map.mp h
  exact Nat.min_le_left ..

/-! ## A batch (R161, R162) -/

section
variable {s : State} {g : Grid} {d : Nat}

theorem joinGang_only (s : State) (g : Grid) (i id : Nat) : ∃ n gs, joinGang s g i id = { s with seqs := n, gangs := gs } := by
  unfold joinGang
  split
  · exact ⟨s.seqs, _, rfl⟩
  · exact ⟨_, _, rfl⟩

/-- A die that has been sent one group more. -/
def sentTo (id : Nat) (x : Die) : Die := { x with queue := x.queue ++ [id], free := x.free - 1 }

theorem sendGroup_only (g : Grid) (d : Nat) (s : State) (i : Nat) : ∃ n gs ms,
    sendGroup g d s i = { s with seqs := n, gangs := gs, groups := ms, dies := modAt s.dies d (sentTo s.seqs) } := by
  unfold sendGroup
  dsimp only
  obtain ⟨n, gs, h⟩ := joinGang_only (putGroup (fresh s).2 (makeGroup s g (fresh s).1 i (if fixedOf s g.id then fixedCore s g i else 192 * d))) g i (fresh s).1
  rw [h]
  exact ⟨n, gs, _, rfl⟩

/-- What groups sent to a die leave alone, and how its queue grows. -/
theorem sendGroups_only (g : Grid) (d : Nat) (is : List Nat) (s : State) : ∃ n gs ms ds,
    is.foldl (sendGroup g d) s = { s with seqs := n, gangs := gs, groups := ms, dies := ds } ∧
    (d < s.dies.length → (ds[d]?.getD Die.reset).queue.length = (die s d).queue.length + is.length) := by
  induction is generalizing s with
  | nil => exact ⟨s.seqs, s.gangs, s.groups, s.dies, rfl, fun _ => rfl⟩
  | cons i is ih =>
    obtain ⟨n, gs, ms, hs⟩ := sendGroup_only g d s i
    obtain ⟨n', gs', ms', ds, hfold, hqueue⟩ := ih (sendGroup g d s i)
    rw [hs] at hfold hqueue
    refine ⟨n', gs', ms', ds, by rw [List.foldl_cons, hs, hfold], fun hd => ?_⟩
    rw [hqueue (by simpa using hd), die, die, getElem?_modAt_self, List.getElem?_eq_getElem hd]
    simp only [Option.map_some, Option.getD_some, sentTo, List.length_append, List.length_cons, List.length_nil]
    omega

/-- A grid as a batch of it leaves it (R162). -/
def batchSent (g : Grid) (d n : Nat) (x : Grid) : Grid := { x with next := x.next + n, boost := 0, die := if g.stage.isSome then some d else x.die }

theorem sendBatch_sends (hg : grid? s g.id = some g) (hd : d < s.dies.length) (n : Nat) : KeepsMemory s (sendBatch s g d n) ∧
    grid? (sendBatch s g d n) g.id = some (batchSent g d n g) ∧ (die (sendBatch s g d n) d).queue.length = (die s d).queue.length + n := by
  obtain ⟨m, gs, ms, ds, hsent, hqueue⟩ := sendGroups_only g d ((List.range n).map (g.next + ·)) s
  have hmem : KeepsMemory s (((List.range n).map (g.next + ·)).foldl (sendGroup g d) s) := by
    rw [hsent]; exact ⟨rfl, rfl, rfl, rfl, rfl, fun _ => rfl, fun _ => rfl⟩
  have hgrid : grid? (((List.range n).map (g.next + ·)).foldl (sendGroup g d) s) g.id = some g := by rw [hsent]; exact hg
  have hdie : (die (((List.range n).map (g.next + ·)).foldl (sendGroup g d) s) d).queue.length = (die s d).queue.length + n := by
    rw [hsent]
    exact (hqueue hd).trans (by simp)
  unfold sendBatch
  generalize ((List.range n).map (g.next + ·)).foldl (sendGroup g d) s = u at hmem hgrid hdie
  refine ⟨hmem.trans ⟨rfl, rfl, rfl, rfl, rfl, fun _ => rfl, fun _ => rfl⟩, ?_, hdie⟩
  refine (find?_map_keyed (key := Grid.id) g.id (fun x => ?_) u.grids).trans ?_
  · split
    · rfl
    · split <;> rfl
  · rw [show u.grids.find? (·.id == g.id) = some g from hgrid, Option.map_some, if_pos rfl]; rfl

/-- A batch is of whole gangs, unless it is the rest of its grid (R162), and no larger than that. -/
theorem batchSize_gangs (s : State) (g : Grid) (d : Nat) :
    batchSize s g d ≤ g.count - g.next ∧ (1 ≤ g.gangN → batchSize s g d ≠ g.count - g.next → batchSize s g d % g.gangN = 0) := by
  unfold batchSize
  extract_lets left room n
  have hroom : room ≤ left := (Nat.min_le_left ..).trans (Nat.min_le_right ..)
  have hn : n ≤ left := by
    simp only [n]
    split
    · exact (Nat.min_le_left ..).trans hroom
    · exact hroom
  split
  · rename_i h
    exact ⟨hn, fun _ hne => absurd h hne⟩
  · exact ⟨(Nat.div_mul_le_self ..).trans hn, fun hg _ => by rw [Nat.max_eq_right hg]; exact Nat.mul_mod_left ..⟩

/-- The first grid of the partition with the highest level is served (R161). -/
theorem exec_lodestarBatch {p : Nat} {x : Served} (hp : p < 8) (hx : firstServed s (openGrids s p) = some x)
    (hfirst : ∀ q y, q < 8 → q ≠ p → firstServed s (openGrids s q) = some y → y.1 < x.1 ∨ (y.1 = x.1 ∧ p < q)) (hg : grid? s x.2.2.2 = some g)
    (hd : batchDie s g = some d) (hn : 0 < batchSize s g d) : exec .lodestarBatch s = .next (sendBatch s g d (batchSize s g d)) := by
  have hlevel := openGrids_level (firstServed_mem hx)
  obtain ⟨r, hr⟩ := sortOn_filterMap_first (key := fun x : Served => 3 - x.1) (f := fun p => firstServed s (openGrids s p)) hx (List.range 8)
    List.pairwise_lt_range (List.mem_range.mpr hp) fun q hq hqp y hy => by
      have := hfirst q y (List.mem_range.mp hq) hqp hy
      omega
  have hserve : serveGrid s x = some (sendBatch s g d (batchSize s g d)) := by
    rw [serveGrid, hg]
    simp only [hd]
    exact if_neg (by omega)
  show execLodestarBatch s = _
  rw [execLodestarBatch, hr, List.findSome?_cons, hserve]
  rfl

theorem lodestarBatch_sends {p : Nat} {x : Served} (hp : p < 8) (hx : firstServed s (openGrids s p) = some x)
    (hfirst : ∀ q y, q < 8 → q ≠ p → firstServed s (openGrids s q) = some y → y.1 < x.1 ∨ (y.1 = x.1 ∧ p < q)) (hg : grid? s x.2.2.2 = some g)
    (hd : batchDie s g = some d) (hn : 0 < batchSize s g d) (hlt : d < s.dies.length) (hgang : 1 ≤ g.gangN) :
    ∃ t y, exec .lodestarBatch s = .next t ∧ SameMemory s t ∧ grid? t g.id = some y ∧ y.next = g.next + batchSize s g d ∧ y.next ≤ g.count ∧
      y.boost = 0 ∧ (die t d).queue.length = (die s d).queue.length + batchSize s g d ∧
      (batchSize s g d ≠ g.count - g.next → batchSize s g d % g.gangN = 0) := by
  have hself : grid? s g.id = some g := by
    have hid : g.id = x.2.2.2 := by simpa using List.find?_some hg
    rw [hid, hg]
  obtain ⟨hmem, hgrid, hqueue⟩ := sendBatch_sends hself hlt (batchSize s g d)
  obtain ⟨hsize, hgangs⟩ := batchSize_gangs s g d
  refine ⟨_, _, exec_lodestarBatch hp hx hfirst hg hd hn, hmem.sameMemory, hgrid, rfl, ?_, rfl, hqueue, hgangs hgang⟩
  show g.next + batchSize s g d ≤ g.count
  omega

theorem exec_priorityAgeing (hg : grid? s g.id = some g) (hwaits : gridWaits s g = true) : exec (.priorityAgeing g.id) s =
    .next (if effPrio g < 3 then modGrid s g.id fun x => { x with boost := x.boost + 1 } else s) := by
  show execPriorityAgeing g.id s = _
  rw [execPriorityAgeing]
  simp only [hg, hwaits, Bool.true_and, decide_eq_true_eq]

end

/-! ## Placement (R128, R163) -/

theorem findSome?_of_find? {α β : Type} {f : α → Option β} {p : α → Bool} (h : ∀ x, (f x).isSome = p x) (l : List α) {a : α} (ha : l.find? p = some a) :
    l.findSome? f = f a := by
  induction l with
  | nil => cases ha
  | cons x l ih =>
    rw [List.find?_cons] at ha
    rw [List.findSome?_cons]
    have hx := h x
    cases hp : p x with
    | true =>
      rw [hp] at ha hx
      obtain rfl := Option.some.inj ha
      obtain ⟨b, hb⟩ := Option.isSome_iff_exists.mp hx
      rw [hb]
    | false =>
      rw [hp] at ha hx
      rw [Option.isSome_eq_false_iff.mp hx |> Option.isNone_iff_eq_none.mp]
      exact ih ha

theorem keepsMemory_modGroup (s : State) (g : Nat) (f : Group → Group) : KeepsMemory s (modGroup s g f) := keepsMemory_of_groups (modGroup_only s g f)

theorem keepsMemory_passDomain (s : State) (c ctx : Nat) : KeepsMemory s (passDomain s c ctx) := by
  unfold passDomain
  split
  · exact .refl s
  · exact keepsMemory_modCore ..

theorem keepsMemory_learn (s : State) (d : Nat) (v : View) : KeepsMemory s (learn s d v) := ⟨rfl, rfl, rfl, rfl, rfl, fun _ => rfl, fun _ => rfl⟩

theorem keepsMemory_joinAdmitted (s : State) (c g : Nat) : KeepsMemory s (joinAdmitted s c g) := by
  rw [joinAdmitted, joinSet_cores]
  exact ⟨rfl, rfl, rfl, rfl, rfl, fun _ => rfl, fun _ => rfl⟩

theorem keepsMemory_takeIn (s : State) (c : Nat) (gr : Group) : KeepsMemory s (takeIn s c gr) := by
  unfold takeIn
  extract_lets s1 slots ws s2 s3
  have h1 : KeepsMemory s s1 := (keepsMemory_passDomain ..).trans (keepsMemory_learn ..)
  have h2 : KeepsMemory s s2 := h1.trans (keepsMemory_modGroup ..)
  exact (h2.trans (keepsMemory_modCore ..)).trans (keepsMemory_joinAdmitted ..)

theorem placeGang_keepsMemory (d : Nat) (gs : List Nat) {s u : State} (h : placeGang d gs s = some u) : KeepsMemory s u := by
  induction gs generalizing s with
  | nil => obtain rfl := Option.some.inj h; exact .refl s
  | cons g gs ih =>
    rw [placeGang] at h
    split at h
    · exact ih h
    · split at h
      · exact ((keepsMemory_modDie ..).trans (keepsMemory_takeIn ..)).trans (ih h)
      · cases h

/-- A reservation ends as its group leaves the queue (R163). -/
def unreserved (x : Die) : Die := { x with reserved := match x.reserved with | some r => if x.queue.contains r then some r else none | none => none }

section
variable {s : State} {d : Nat}

/-- The first head that is not kept back and fits is placed. -/
theorem groupPlacement_places {g : Nat} (hfind : (queueHeads s d).find? (fun h => !(keptBack s d h || restoreFirst s d (groupPrio s h)) &&
    (placeGang d (unitOfGroup s d h) s).isSome) = some g) :
    ∃ t u, exec (.groupPlacement d) s = .next t ∧ placeGang d (unitOfGroup s d g) s = some u ∧ SameMemory s t ∧ t = { u with dies := t.dies } ∧
      (die t d).queue = (die u d).queue := by
  obtain ⟨hfree, hfits⟩ := by simpa only [Bool.and_eq_true, Bool.not_eq_true'] using List.find?_some hfind
  obtain ⟨u, hu⟩ := Option.isSome_iff_exists.mp hfits
  have hexec : exec (.groupPlacement d) s = .next (modDie u d unreserved) := by
    show execGroupPlacement d s = _
    rw [execGroupPlacement, findSome?_of_find? (fun h => ?_) _ hfind, hfree, hu]
    · rfl
    · cases keptBack s d h || restoreFirst s d (groupPrio s h) <;> simp
  refine ⟨_, u, hexec, hu, ((placeGang_keepsMemory d _ hu).trans (keepsMemory_modDie ..)).sameMemory, rfl, ?_⟩
  rw [die, modDie, getElem?_modAt_self, die]
  cases u.dies[d]? <;> rfl

/-- A group that is the head of its level and does not fit has the die reserved, if none of a higher level is in this position (R163). -/
theorem gangReservation_reserves {g l : Nat} (hl : l = 3 ∨ l = 2 ∨ l = 1 ∨ l = 0) (hhead : levelHead s d l = some g) (hstuck : stuckHead s d g = true)
    (hhigher : ∀ m h, l < m → m ≤ 3 → levelHead s d m = some h → stuckHead s d h = false) :
    exec (.gangReservation d) s = .next (modDie s d fun x => { x with reserved := some g }) := by
  have hnone (m : Nat) (hm : l < m) (h3 : m ≤ 3) : (levelHead s d m).filter (stuckHead s d) = none := by
    cases h : levelHead s d m with
    | none => rfl
    | some y => rw [Option.filter_some, if_neg (by simp [hhigher m y hm h3 h])]
  have hsome : (levelHead s d l).filter (stuckHead s d) = some g := by rw [hhead, Option.filter_some, if_pos hstuck]
  have hfind : [3, 2, 1, 0].findSome? (fun l => (levelHead s d l).filter (stuckHead s d)) = some g := by
    rcases hl with rfl | rfl | rfl | rfl
    · simp only [List.findSome?_cons, hsome]
    · simp only [List.findSome?_cons, hnone 3, hsome, Nat.lt_add_one, Nat.le_refl]
    · simp [hnone 3, hnone 2, hsome]
    · simp [hnone 3, hnone 2, hnone 1, hsome]
  show execGangReservation d s = _
  rw [execGangReservation, hfind]

/-! ## Split transitions (R166) -/

theorem splitConversion_converts {c : Nat} {gr : Group} (hw : wantsSplit s d = some c) (hh : splitHead s d = some gr) :
    exec (.splitConversion d) s = .next (modCore s c fun k => { k with convert := some gr.split }) := by
  show execSplitConversion d s = _
  rw [execSplitConversion, hw, hh]

theorem splitForce_saves {c : Nat} (h : mayForce s c = true) : exec (.splitForce c) s =
    .next ((((residentOn s c).filter (·.logits.isNone)).flatMap fun g => gangOf s g.id).foldl (fun t g => haltAndSave t g .split) s) := by
  show execSplitForce c s = _
  rw [execSplitForce, if_pos h]

theorem splitReassign_reassigns {c : Nat} {sp : BitVec 16} (hconv : (core s c).convert = some sp) (hempty : residentOn s c = []) :
    exec (.splitReassign c) s = .next (modCore s c fun k => { k with split := sp, convert := none }) := by
  show execSplitReassign c s = _
  rw [execSplitReassign, hconv, hempty]
  rfl

end

/-- Settles O55: each device step by what its function does in the case named; a node's edges and a loop's body by what stays
of the graph's nodes, a batch by the place of its grid among those of all partitions, sorted by level. -/
theorem workProceeds : Obligations.WorkProceeds := by
  unfold Obligations.WorkProceeds
  intro s
  refine ⟨fun l c k i g n hf hg hn _ => nodeStart_starts hf hg hn, fun g i x n hx hn hend hfail hwc hwh hwl => ⟨?_, ?_, ?_, ?_, ?_⟩,
    fun gd hgd hwaits => ⟨fun hlt => ?_, fun hge => ?_⟩, fun p x gd d hp hx hfirst hg hd hn hlt hgang => lodestarBatch_sends hp hx hfirst hg hd hn hlt hgang,
    fun d => rfl, fun d g => groupPlacement_places, fun d g l hl hhead hstuck hhigher => gangReservation_reserves hl hhead hstuck hhigher,
    fun d c gr => splitConversion_converts, fun c => ⟨splitForce_saves, fun sp => splitReassign_reassigns⟩⟩
  · exact fun hover hword hother => nodeCompletion_completes hx hn hend hfail hwc hover hword hother
  · exact fun hkind hlife hlink b hb => hostWaitWatch_ends hx hn hend hwh hkind hlife hlink hb
  · exact fun hdue hplain hout b hb => loopBoundary_turns hx hn hwl hdue hplain hout hb
  · exact fun hlife => exec_stageReevaluation hx hn hlife
  · exact fun k y hlife hy hover => stageCompletion_closes hx hn hlife hy hover
  · rw [exec_priorityAgeing hgd hwaits, if_pos hlt]
  · rw [exec_priorityAgeing hgd hwaits, if_neg (by omega)]

end Sys2Proof.Machine
end

section
/-! PROOFS. What writes that are performed can change at all: memory and what accompanies a write to it. Everything else, the groups
and the templates among it, is as it was. -/

namespace Sys2Proof.Machine

/-- Writes have been performed or have joined those under way, and nothing else has happened (R192, R230, R239, R250, R394, R397,
R430). -/
def WritesOnly (s t : State) : Prop :=
  t = { s with
    cores := t.cores, regions := t.regions, mem := t.mem, l2 := t.l2, pend := t.pend, hostMem := t.hostMem, bad := t.bad, errs := t.errs
    codeOld := t.codeOld, hist := t.hist, late := t.late, caches := t.caches, tlbs := t.tlbs, fns := t.fns, ports := t.ports }

theorem WritesOnly.refl (s : State) : WritesOnly s s := rfl

theorem WritesOnly.trans {s t u : State} (h : WritesOnly s t) (h' : WritesOnly t u) : WritesOnly s u := by
  unfold WritesOnly at *
  rw [h', h]

theorem WritesOnly.groups {s t : State} (h : WritesOnly s t) : t.groups = s.groups := by rw [h]

theorem WritesOnly.tmpls {s t : State} (h : WritesOnly s t) : t.tmpls = s.tmpls := by rw [h]

theorem writesOnly_foldl {α : Type} {f : State → α → State} (hf : ∀ s x, WritesOnly s (f s x)) (xs : List α) (s : State) :
    WritesOnly s (xs.foldl f s) := by
  induction xs generalizing s with
  | nil => exact .refl s
  | cons x xs ih => exact (hf s x).trans (ih _)

theorem writesOnly_putHomeByte (s : State) (sp a : Nat) (b : Byte) : WritesOnly s (putHomeByte s sp a b) := by
  unfold putHomeByte
  split
  · rfl
  split
  · rfl
  split <;> rfl

theorem writesOnly_putHomeBytes (s : State) (sp a : Nat) (bs : List Byte) : WritesOnly s (putHomeBytes s sp a bs) := by
  induction bs generalizing s a with
  | nil => exact .refl s
  | cons b r ih => exact (writesOnly_putHomeByte s sp a b).trans (ih ..)

theorem writesOnly_countRecords (s : State) (src : Option (Nat × Nat)) (n : Nat) : WritesOnly s (countRecords s src n) := by
  unfold countRecords
  split
  · split
    · split
      · exact .refl s
      · rw [countEvent_only]; rfl
    · exact .refl s
  · exact .refl s

theorem writesOnly_sendRecords (s0 s1 : State) (a n : Nat) (src : Option (Nat × Nat)) (keep : Bool) (s : State) :
    WritesOnly s (sendRecords s0 s1 a n src keep s) :=
  writesOnly_foldl (fun t r => by
    have hcount := writesOnly_countRecords t src (recordsOf s0 s1 r a n src).length
    exact hcount.trans rfl) _ s

theorem writesOnly_dropOnWrite (agent sp a n : Nat) (t : State) : WritesOnly t (dropOnWrite agent sp a n t) := by
  unfold dropOnWrite; split <;> rfl

theorem writesOnly_keepOld (s t : State) (a n : Nat) : WritesOnly t (keepOld s t a n) := by
  unfold keepOld; split <;> rfl

theorem writesOnly_homeWrite (s : State) (agent : Nat) (rel : Option View) (sp a : Nat) (data : List Byte) (src : Option (Nat × Nat)) (keep : Bool) :
    WritesOnly s (homeWrite s agent rel sp a data src keep) := by
  have hput : WritesOnly s (addVer s agent rel sp a data.length (putHomeBytes s sp a data)) := (writesOnly_putHomeBytes s sp a data).trans rfl
  have hdrop := hput.trans (writesOnly_dropOnWrite agent sp a data.length _)
  unfold homeWrite
  simp only
  split
  · have hclear (t : State) : WritesOnly t (clearEcc t a data.length) := rfl
    have hkeep := (hdrop.trans (hclear _)).trans (writesOnly_keepOld s _ a data.length)
    exact (hkeep.trans (writesOnly_sendRecords s _ a data.length src keep _)).trans rfl
  · exact hdrop

theorem writesOnly_outsideWrite (s : State) (agent a : Nat) (data : List Byte) : WritesOnly s (outsideWrite s agent a data) := by
  unfold outsideWrite
  simp only
  split
  · rfl
  · have hhome := writesOnly_homeWrite s agent none 11 a (keepLeaves s a data (keptLeaves s a data)) none false
    split <;> split <;> exact hhome.trans rfl

theorem writesOnly_mendL1 (s : State) (p : PendWrite) : WritesOnly s (mendL1 s p) := by
  unfold mendL1; split <;> rfl

theorem writesOnly_sendPeer (s : State) (port c a : Nat) (data : List Byte) : WritesOnly s (sendPeer s port c a data) := by
  unfold sendPeer; split <;> rfl

theorem writesOnly_performWrite (s : State) (p : PendWrite) : WritesOnly s (performWrite s p) := by
  unfold performWrite
  simp only
  split
  · exact (writesOnly_mendL1 s p).trans (writesOnly_outsideWrite ..)
  split
  · exact (writesOnly_mendL1 s p).trans (writesOnly_sendPeer ..)
  · exact (writesOnly_mendL1 s p).trans (writesOnly_homeWrite ..)

theorem writesOnly_drainIf (s : State) (q : PendWrite → Bool) : WritesOnly s (drainIf s q) := by
  suffices h : ∀ (ps : List PendWrite) (acc : State × List PendWrite), WritesOnly acc.1 (ps.foldl (fun (acc : State × List PendWrite) p =>
      if q p && !(acc.2.any fun r => precedes s r p) then (performWrite acc.1 p, acc.2) else (acc.1, acc.2 ++ [p])) acc).1 from
    (h s.pend (s, [])).trans rfl
  intro ps
  induction ps with
  | nil => exact fun acc => .refl _
  | cons p ps ih =>
    intro acc
    refine WritesOnly.trans ?_ (ih _)
    dsimp only
    split
    · exact writesOnly_performWrite ..
    · exact .refl _

theorem writesOnly_drainDie (s : State) (d : Nat) : WritesOnly s (drainDie s d) := by
  have hbind : WritesOnly s (bindDie s d) := rfl
  exact hbind.trans (writesOnly_drainIf ..)

theorem writesOnly_drainAt (s : State) (d k n : Nat) : WritesOnly s (drainAt s d k n) := by
  have hpend : WritesOnly s { s with pend := (chainAt s d k n).2 } := rfl
  exact hpend.trans (writesOnly_foldl writesOnly_performWrite ..)

theorem writesOnly_putPiece (s : State) (rel : Option View) (sp a : Nat) (data : List Byte) : WritesOnly s (putPiece s rel sp a data) := by
  have hbind : WritesOnly s (bindOver s 4 (memKey sp a) data.length) := rfl
  unfold putPiece
  split
  · rfl
  · exact (hbind.trans (writesOnly_drainAt ..)).trans (writesOnly_performWrite ..)

theorem writesOnly_putPieces (s : State) (ps : List (Nat × Nat × Nat)) (data : List Byte) : WritesOnly s (putPieces s ps data) := by
  induction ps generalizing s data with
  | nil => exact .refl s
  | cons p ps ih => exact (writesOnly_putPiece s none p.1 p.2.1 (data.take p.2.2)).trans (ih ..)

/-- A device write that succeeds (R431). -/
theorem writesOnly_devWrite {s u : State} {c : Nat} {gen : Nat → Option Nat} {va : DWord} {align : Nat} {data : List Byte}
    (h : devWrite s c gen va align data = .ok u) : WritesOnly s u := by
  unfold devWrite at h
  split at h
  · split at h
    · cases h
    · cases h; exact writesOnly_putPieces ..
  · cases h
  · cases h
  · cases h

/-- A word whose writes have been performed finds its group and warp as before. -/
theorem WritesOnly.here {e : Env} {s u : State} (h : WritesOnly s u) (hh : Here e s) : Here e u := here_of_groups hh h.groups

theorem WritesOnly.regAt {s u : State} (h : WritesOnly s u) (g w r l : Nat) : regAt u g w r l = regAt s g w r l := by
  simp only [Machine.regAt, group?, h.groups, regRead_of_tmpls h.tmpls]

end Sys2Proof.Machine
end

section
/-! PROOFS. Whole rows of a warp's registers written at once: what trap entry and TRET do to v240 to v255 (R353, R372). -/

namespace Sys2Proof.Machine

/-- Rows ks of a register file hold the values of f, one row after the other. -/
def putRows (f : Nat → Nat → Word) (ks : List Nat) (m : List (Nat × Word)) : List (Nat × Word) :=
  ks.foldl (fun m k => (List.range 32).foldl (fun m l => sput m (32 * k + l) (f k l)) m) m

theorem putRows_cons (f : Nat → Nat → Word) (k : Nat) (ks : List Nat) (m : List (Nat × Word)) :
    putRows f (k :: ks) m = putRows f ks ((List.range 32).foldl (fun m l => sput m (32 * k + l) (f k l)) m) := by
  simp only [putRows, List.foldl_cons]

theorem sget?_putRows (f : Nat → Nat → Word) (ks : List Nat) (m : List (Nat × Word)) (r : Nat) {l : Nat} (hl : l < 32) :
    sget? (putRows f ks m) (32 * r + l) = if r ∈ ks then some (f r l) else sget? m (32 * r + l) := by
  induction ks generalizing m with
  | nil => simp [putRows]
  | cons k ks ih =>
    rw [putRows_cons, ih, sget?_row]
    by_cases hr : r ∈ ks
    · simp [hr]
    by_cases hk : r = k
    · subst hk
      rw [if_neg hr, if_pos (by omega), if_pos (List.mem_cons_self ..), Nat.add_sub_cancel_left]
    · rw [if_neg hr, if_neg (by omega), if_neg (by simp [hr, hk])]

end Sys2Proof.Machine
end

section
/-! PROOFS. TRET (R372). -/

namespace Sys2Proof.Machine

/-! ## The warp that has left its handler -/

/-- The register rows that TRET loads: v240 to v255 but for the temporary ones. -/
def ownTop (temps : List Nat) : List Nat := ((List.range 16).filter fun j => !temps.contains (240 + j)).map (240 + ·)

theorem mem_ownTop {temps : List Nat} {r : Nat} : r ∈ ownTop temps ↔ 240 ≤ r ∧ r < 256 ∧ r ∉ temps := by
  simp only [ownTop, List.mem_map, List.mem_filter, List.mem_range, Bool.not_eq_true', List.contains_eq_mem, decide_eq_false_iff_not]
  constructor
  · rintro ⟨j, ⟨hj, ht⟩, rfl⟩
    exact ⟨by omega, by omega, ht⟩
  · rintro ⟨h1, h2, ht⟩
    exact ⟨r - 240, ⟨by omega, by rwa [Nat.add_sub_cancel' h1]⟩, Nat.add_sub_cancel' h1⟩

/-- Register r of lane l as a trap frame has it (R354). -/
def frameReg (frame : List Byte) (r l : Nat) : Word := BitVec.ofNat 32 (field frame (4096 + 128 * (r - 240) + 4 * l) 4)

/-- The program counter of a lane after TRET: the frame's, past the interrupted word under .NEXT (R372). -/
def framePc (frame : List Byte) (next : Bool) (l : Nat) : DWord :=
  let pc := BitVec.ofNat 64 (field frame (128 + 8 * l) 8)
  if next && pc == BitVec.ofNat 64 (field frame 16 8) then pc + 8 else pc

/-- The pending bits of a trap frame (R354). -/
def framePending (frame : List Byte) : List Nat :=
  (List.range 256).flatMap fun r => (lanesOf (BitVec.ofNat 32 (field frame (512 + 4 * r) 4))).map (32 * r + ·)

theorem mem_framePending (frame : List Byte) {r l : Nat} (hr : r < 256) (hl : l < 32) :
    32 * r + l ∈ framePending frame ↔ bit (BitVec.ofNat 32 (field frame (512 + 4 * r) 4)) l = true := by
  simp only [framePending, List.mem_flatMap, List.mem_range, List.mem_map, mem_lanesOf]
  constructor
  · rintro ⟨q, -, k, hk, h⟩
    have := bit_lt hk
    obtain rfl : q = r := by omega
    obtain rfl : k = l := by omega
    exact hk
  · exact fun h => ⟨r, hr, l, h, rfl⟩

/-- The rows of a frame put into a warp, row by row and lane by lane. -/
theorem frameRows_eq (frame : List Byte) (js : List Nat) (wp : Warp) :
    ∃ ps, js.foldl (fun w j => (List.range 32).foldl (fun w l =>
        { w with regs := sput w.regs (32 * (240 + j) + l) (BitVec.ofNat 32 (field frame (4096 + 128 * j + 4 * l) 4))
                 past := addNew w.past (BitVec.ofNat 32 (field frame (4096 + 128 * j + 4 * l) 4)) }) w) wp =
      { wp with regs := putRows (frameReg frame) (js.map (240 + ·)) wp.regs, past := ps } := by
  have row (j : Nat) (ls : List Nat) (x : Warp) : ∃ ps, ls.foldl (fun (w : Warp) l =>
      { w with regs := sput w.regs (32 * (240 + j) + l) (BitVec.ofNat 32 (field frame (4096 + 128 * j + 4 * l) 4))
               past := addNew w.past (BitVec.ofNat 32 (field frame (4096 + 128 * j + 4 * l) 4)) }) x =
      { x with regs := ls.foldl (fun m l => sput m (32 * (240 + j) + l) (frameReg frame (240 + j) l)) x.regs, past := ps } := by
    induction ls generalizing x with
    | nil => exact ⟨x.past, rfl⟩
    | cons l ls ih =>
      obtain ⟨ps, h⟩ := ih { x with
        regs := sput x.regs (32 * (240 + j) + l) (BitVec.ofNat 32 (field frame (4096 + 128 * j + 4 * l) 4))
        past := addNew x.past (BitVec.ofNat 32 (field frame (4096 + 128 * j + 4 * l) 4)) }
      refine ⟨ps, ?_⟩
      rw [List.foldl_cons, h, List.foldl_cons, frameReg, Nat.add_sub_cancel_left]
  induction js generalizing wp with
  | nil => exact ⟨wp.past, rfl⟩
  | cons j js ih =>
    obtain ⟨ps, h⟩ := row j (List.range 32) wp
    obtain ⟨qs, h'⟩ := ih { wp with
      regs := (List.range 32).foldl (fun m l => sput m (32 * (240 + j) + l) (frameReg frame (240 + j) l)) wp.regs, past := ps }
    refine ⟨qs, ?_⟩
    rw [List.foldl_cons, h, h', List.map_cons, putRows_cons]

/-- The warp that TRET leaves, but for its registers (R372): program counters and pending bits are the frame's. -/
def leftWarp (frame : List Byte) (next : Bool) (h : Handler) (wp : Warp) : Warp :=
  { wp with
    lanes := wp.lanes.mapIdx fun l x => { x with pc := framePc frame next l, yields := 0, age := 0 }
    pending := sinsAll [] (framePending frame)
    tags := (wp.tags.filter fun k => decide (k / 32 < 240)) ++ ((h.tagged.map fun (x : Nat × Word) => x.1).filter fun k =>
      bit (BitVec.ofNat 32 (field frame (1536 + 4 * (k / 32)) 4)) (k % 32))
    predictor := [], handler := none, affine := wp.affine.filter fun r => decide (r < 240) }

/-- The registers that TRET leaves: v240 to v255 are the frame's, and the temporary rows are given back (R372). -/
def leftRegs (frame : List Byte) (h : Handler) (m : List (Nat × Word)) : List (Nat × Word) :=
  (putRows (frameReg frame) (ownTop h.temps) m).filter fun p => !h.temps.contains (p.1 / 32)

theorem leaveWarp_eq (frame : List Byte) (next : Bool) {wp : Warp} {h : Handler} (hh : wp.handler = some h) :
    ∃ ps, leaveWarp frame next wp = { leftWarp frame next h wp with regs := leftRegs frame h wp.regs, past := ps } := by
  obtain ⟨ps, hps⟩ := frameRows_eq frame ((List.range 16).filter fun j => !h.temps.contains (240 + j)) (leftWarp frame next h wp)
  refine ⟨ps, ?_⟩
  have hregs : ∀ x y : Warp, x = y → ({ x with regs := x.regs.filter fun p => !h.temps.contains (p.1 / 32) } : Warp) =
      { y with regs := y.regs.filter fun p => !h.temps.contains (p.1 / 32) } := fun x y hxy => by rw [hxy]
  refine Eq.trans ?_ (hregs _ _ hps)
  unfold leaveWarp
  rw [hh]
  rfl

theorem sget?_leftRegs (frame : List Byte) (h : Handler) (m : List (Nat × Word)) (r : Nat) {l : Nat} (hl : l < 32) :
    sget? (leftRegs frame h m) (32 * r + l) = if r ∈ h.temps then none else if 240 ≤ r ∧ r < 256 then some (frameReg frame r l) else
      sget? m (32 * r + l) := by
  have hr : (32 * r + l) / 32 = r := by omega
  rw [leftRegs, sget?_filter_keys _ fun k => !h.temps.contains (k / 32), hr, sget?_putRows _ _ _ _ hl]
  by_cases ht : r ∈ h.temps
  · simp [ht]
  · simp [ht, mem_ownTop]

theorem framePc_eq (frame : List Byte) (next : Bool) (l : Nat) : framePc frame next l = BitVec.ofNat 64 (field frame (128 + 8 * l) 8) +
    (if next = true ∧ BitVec.ofNat 64 (field frame (128 + 8 * l) 8) = BitVec.ofNat 64 (field frame 16 8) then 8 else 0) := by
  simp only [framePc, Bool.and_eq_true, beq_iff_eq]
  split
  · rfl
  · exact (BitVec.add_zero _).symm

/-! ## The rows that TRET makes the warp's own -/

/-- A row made a warp's own, and no row of it lost. -/
theorem ownsRow_ownRow {e : Env} {s t : State} {res : Nat → Nat → Option Word} {x : Warp} (h : Wrote e s t res) (hx : warp? t e.g e.w = some x)
    (r : Nat) : ∃ y, warp? (ownRow t e.g e.w r) e.g e.w = some y ∧ ∀ q, ownsRow e.gr y q = (ownsRow e.gr x q || (q == r)) := by
  obtain ⟨-, ⟨-, -, -, gr, hg, hk, -, -⟩, -⟩ := h
  have hw : gr.warps[e.w]? = some x := by simpa [warp?, hg] using hx
  have hkind : gr.kind = e.gr.kind := by rw [← hk]
  have hown (y : Warp) (q : Nat) : ownsRow gr y q = ownsRow e.gr y q := by simp [ownsRow, hkind]
  have hcopy : warp? (ownRow t e.g e.w r) e.g e.w = some (copyRow t gr x r) := by
    by_cases hr : ownsRow gr x r = true
    · simp [ownRow, hg, hw, hr, hx, copyRow]
    · simp [ownRow, hg, hw, hr, hx]
  exact ⟨_, hcopy, fun q => by rw [← hown, ownsRow_copyRow, hown]⟩

/-- Rows made a warp's own, one after the other. -/
theorem wrote_ownRowsOf {e : Env} {s : State} (ks : List Nat) : ∀ {t : State} {x : Warp}, Wrote e s t noResult → warp? t e.g e.w = some x →
    Wrote e s (ks.foldl (fun t k => ownRow t e.g e.w k) t) noResult ∧
    ∃ y, warp? (ks.foldl (fun t k => ownRow t e.g e.w k) t) e.g e.w = some y ∧ ∀ q, ownsRow e.gr x q = true ∨ q ∈ ks → ownsRow e.gr y q = true := by
  induction ks with
  | nil => exact fun {t x} h hx => ⟨h, x, hx, fun q hq => by simpa using hq⟩
  | cons k ks ih =>
    intro t x h hx
    obtain ⟨z, hz, hrow⟩ := ownsRow_ownRow h hx k
    obtain ⟨h', y, hy, hrows⟩ := ih (wrote_ownRow k h).1 hz
    refine ⟨h', y, hy, fun q hq => hrows q ?_⟩
    rw [hrow]
    rcases hq with hq | hq
    · exact .inl (by rw [hq, Bool.true_or])
    · rcases List.mem_cons.mp hq with rfl | hq
      · exact .inl (by simp)
      · exact .inr hq

/-! ## The word -/

theorem mark_of_env? {i : Instr} {s : State} {e : Env} (h : env? i s = some e) : e.mark = marked i := by
  unfold env? at h
  split at h
  · cases h
  split at h
  · cases h
  split at h
  · cases h
  simp only at h
  split at h
  · cases h
  · cases h; rfl

/-- A word without a marker leaves the pending bits (R44). -/
theorem retiredWarp_unmarked {e : Env} (hm : e.mark = false) (s0 : State) (i : Instr) (wp : Warp) :
    (retiredWarp s0 e i wp).pending = wp.pending := by
  obtain ⟨a, r, h⟩ := noteRegs_only s0 e i wp
  rw [retiredWarp, hm, h]; rfl

section
variable {m next : Bool} {s : State} {e : Env}

theorem exec_tret (h : Issues (.tret m next) s e) {q : Handler} (hq : e.wp.handler = some q) : exec (.tret m next) s =
    finish e (.tret m next) (if !converged e then .trap s .bardiv e.live (atPcDetail e) 0
      else if !e.wp.outs.isEmpty then .hold s .ret e.atPc else returnFromHandler s e next) s := by
  show execTret m next s = _
  rw [execTret, runWord_issues h, hq]
  rfl

theorem tret_outside (h : Issues (.tret m next) s e) (hq : e.wp.handler = none) : Faults (.tret m next) s e .priv e.live 0xFF 0 := by
  show execTret m next s = _
  rw [execTret, runWord_issues h, hq]
  rfl

theorem tret_waits (h : Issues (.tret m next) s e) {q : Handler} (hq : e.wp.handler = some q) (ht : Together e) (ho : e.wp.outs ≠ []) :
    HoldsOn (.tret m next) s e s .ret e.atPc := by
  refine holdsOn_here h .ret e.atPc ?_
  rw [exec_together h (exec_tret h hq) ht, if_pos (by simpa using ho)]

/-- The state in which TRET has its frame read, has noted there which lanes have exited since, and owns the rows it loads (R372). -/
def returning (e : Env) (q : Handler) (s2 : State) : State := (ownTop q.temps).foldl (fun t k => ownRow t e.g e.w k) s2

/-- The state that TRET leaves. -/
def handlerLeft (m next : Bool) (s : State) (e : Env) (q : Handler) (frame : List Byte) (s2 : State) : State :=
  retire s e (.tret m next) (modWarp (returning e q s2) e.g e.w (leaveWarp frame next))

theorem exec_tret_returns (h : Issues (.tret m next) s e) {q : Handler} (hq : e.wp.handler = some q) (ht : Together e) (ho : e.wp.outs = [])
    {frame : List Byte} (hread : devRead (drainDie s e.die) e.gr.ctx (gens s e.gr) q.frame 1 6144 = .ok frame) {s2 : State}
    (hwrite : devWrite (drainDie s e.die) e.gr.ctx (gens s e.gr) (q.frame + 68) 1
      (leBytes 4 (~~~(aliveLanes e.wp) &&& ~~~(BitVec.ofNat 32 (field frame 64 4))).toNat) = .ok s2) :
    exec (.tret m next) s = .next (handlerLeft m next s e q frame s2) := by
  rw [exec_together h (exec_tret h hq) ht, if_neg (by simp [ho]), returnFromHandler, hq]
  simp only [hread, hwrite]
  rw [finish_jump h, handlerLeft, returning, ownTop, List.foldl_map]

/-- A row of the warp that TRET leaves: it is the warp's own as before, or as TRET has made it (R132, R372). -/
theorem ownsRow_left {gr : Group} {q : Handler} {wp wp' : Warp} (hq : wp.handler = some q) (hp : wp'.priv = wp.priv) (hh : wp'.handler = none)
    {r : Nat} (hr : r ∉ q.temps) : ownsRow gr wp' r = ownsRow gr wp r := by
  simp [ownsRow, hq, hp, hh, hr]

/-- What the warp holds once TRET has left the handler (R352, R372). -/
theorem tret_leaves (h : Issues (.tret m next) s e) {q : Handler} (hq : e.wp.handler = some q) (hlow : ∀ k ∈ q.temps, 240 ≤ k) (frame : List Byte)
    {s2 : State} (hs : WritesOnly s s2) :
    ∃ wp, warp? (handlerLeft m next s e q frame s2) e.g e.w = some wp ∧ wp.handler = none ∧
      wp.lanes = e.wp.lanes.mapIdx (fun l x => { x with pc := framePc frame next l, yields := 0, age := 0 }) ∧
      (m = false → wp.pending = sinsAll [] (framePending frame)) ∧
      (∀ r l, r < 240 → l < 32 → regAt (handlerLeft m next s e q frame s2) e.g e.w r l = regAt s e.g e.w r l) ∧
      ∀ r l, 240 ≤ r → r < 256 → r ∉ q.temps → l < 32 → regAt (handlerLeft m next s e q frame s2) e.g e.w r l = frameReg frame r l := by
  have hh := hs.here (issues_here h)
  obtain ⟨⟨hregs, honly, y, hy, hkeep, -⟩, y', hy', hrows⟩ := wrote_ownRowsOf (ownTop q.temps) (wrote_refl hh) (warp?_of hh.1 hh.2)
  obtain rfl : y = y' := Option.some.inj (hy.symm.trans hy')
  have hyq : y.handler = some q := by rw [← hq, ← hkeep]
  obtain ⟨ps, hleave⟩ := leaveWarp_eq frame next hyq
  obtain ⟨hleft, hw⟩ := retire_spec s (.tret m next) (onlyWarp_modWarp (leaveWarp frame next) honly) (warp?_modWarp_of (leaveWarp frame next) hy)
  obtain ⟨p, k, a, rc, hret⟩ := retiredWarp_only s e (.tret m next) (leaveWarp frame next y)
  have hread (r : Nat) {l : Nat} (hl : l < 32) : regAt s e.g e.w r l = regRead s2 e.gr y r l := by
    rw [← onlyWarp_reads honly hy, hregs r l hl, ← hs.regAt]; rfl
  set wp := retiredWarp s e (.tret m next) (leaveWarp frame next y)
  have hnone : wp.handler = none := by rw [hret, hleave]; rfl
  have hpriv : wp.priv = y.priv := by rw [hret, hleave]; rfl
  have hindex : wp.index = y.index := by rw [hret, hleave]; rfl
  have hrg : wp.regs = leftRegs frame q y.regs := by rw [hret, hleave]
  refine ⟨wp, hw, hnone, ?_, fun hm => ?_, fun r l hr hl => ?_, fun r l h1 h2 ht hl => ?_⟩
  · have hlanes : y.lanes = e.wp.lanes := by rw [← hkeep]
    rw [hret, hleave, ← hlanes]; rfl
  · have hmark : e.mark = false := by rw [mark_of_env? h.1]; exact hm
    rw [retiredWarp_unmarked hmark, hleave]; rfl
  · have ht : r ∉ q.temps := fun hr' => by have := hlow r hr'; omega
    rw [handlerLeft, returning, onlyWarp_reads hleft hw, hread r hl]
    refine regRead_congr rfl rfl hindex (ownsRow_left hyq hpriv hnone ht) ?_
    rw [hrg, sget?_leftRegs _ _ _ _ hl, if_neg ht, if_neg (by omega)]
  · rw [handlerLeft, returning, onlyWarp_reads hleft hw, regRead_own (by rw [ownsRow_left hyq hpriv hnone ht]; exact hrows r (.inr (mem_ownTop.mpr ⟨h1, h2, ht⟩))),
      hrg, sget?_leftRegs _ _ _ _ hl, if_neg ht, if_pos ⟨h1, h2⟩]
    rfl

/-- TRET leaves the handler (R352, R372). -/
theorem tret_returns (h : Issues (.tret m next) s e) {q : Handler} (hq : e.wp.handler = some q) (hlow : ∀ k ∈ q.temps, 240 ≤ k) (ht : Together e)
    (ho : e.wp.outs = []) {frame : List Byte} (hread : devRead (drainDie s e.die) e.gr.ctx (gens s e.gr) q.frame 1 6144 = .ok frame) {s2 : State}
    (hwrite : devWrite (drainDie s e.die) e.gr.ctx (gens s e.gr) (q.frame + 68) 1
      (leBytes 4 (~~~(aliveLanes e.wp) &&& ~~~(BitVec.ofNat 32 (field frame 64 4))).toNat) = .ok s2) :
    ∃ t wp, exec (.tret m next) s = .next t ∧ warp? t e.g e.w = some wp ∧ wp.handler = none ∧
      (∀ (l : Nat) (x : Lane), e.wp.lanes[l]? = some x → wp.lanes[l]? = some { x with
        pc := BitVec.ofNat 64 (field frame (128 + 8 * l) 8) +
          (if next = true ∧ BitVec.ofNat 64 (field frame (128 + 8 * l) 8) = BitVec.ofNat 64 (field frame 16 8) then 8 else 0)
        yields := 0, age := 0 }) ∧
      (m = false → ∀ r l, r < 256 → l < 32 → (32 * r + l ∈ wp.pending ↔ bit (BitVec.ofNat 32 (field frame (512 + 4 * r) 4)) l = true)) ∧
      (∀ r l, r < 240 → l < 32 → regAt t e.g e.w r l = regAt s e.g e.w r l) ∧
      (∀ j l, j < 16 → l < 32 → 240 + j ∉ q.temps → regAt t e.g e.w (240 + j) l = BitVec.ofNat 32 (field frame (4096 + 128 * j + 4 * l) 4)) := by
  have hs : WritesOnly s s2 := (writesOnly_drainDie s e.die).trans (writesOnly_devWrite hwrite)
  obtain ⟨wp, hw, hhand, hlanes, hpend, hlowRegs, htop⟩ := tret_leaves h hq hlow frame hs
  refine ⟨_, wp, exec_tret_returns h hq ht ho hread hwrite, hw, hhand, fun l x hx => ?_, fun hm r l hr hl => ?_, hlowRegs, fun j l hj hl hjt => ?_⟩
  · rw [hlanes, List.getElem?_mapIdx, hx, ← framePc_eq]; rfl
  · rw [hpend hm, mem_sinsAll, mem_framePending frame hr hl]; simp
  · rw [htop (240 + j) l (by omega) (by omega) hjt hl, frameReg, Nat.add_sub_cancel_left]

end

end Sys2Proof.Machine
end

section
/-! PROOFS. TLBINV and IDLE (R190, R375, R376). -/

namespace Sys2Proof.Machine

/-! ## TLBINV -/

/-- An operation of its context pins a translation that TLBINV drops (R375). -/
def tlbinvPinned (b : State) (e : Env) (r : Option Reg) : Bool :=
  match r with
  | none => e.live != 0 && pinsPage b e none
  | some x => (lanesOf e.live).any fun l => pinsPage b e (some (e.d b x l))

/-- The state in which TLBINV has dropped its translations. -/
def tlbinvDropped (b : State) (e : Env) (r : Option Reg) : State :=
  match r with
  | none => if e.live = 0 then b else dropTlbOf b e.gr.ctx none
  | some x => dropTlbOf b e.gr.ctx (some ((lanesOf e.live).map fun l => e.d b x l))

section
variable {h : Hdr} {r : Option Reg} {s b : State} {e : Env}

theorem exec_tlbinv (hi : Issues (.tlbinv h r) s e) (hb : Released e s true .dev b) : exec (.tlbinv h r) s =
    finish e (.tlbinv h r) (if tlbinvPinned b e r then .hold b .accept e.atPc else .done (tlbinvDropped b e r)) s := by
  show execTlbinv h r s = _
  rw [execTlbinv, runWord_issues hi, afterRelease_released hb]
  cases r <;> rfl

/-- Of the translations that TLBs hold, those that are named go and the others stay (R375). -/
theorem mem_dropTlbOf (s : State) (c : Nat) (vas : Option (List DWord)) (k : Nat) (x : Tlb) : x ∈ (sget? (dropTlbOf s c vas).tlbs k).getD [] ↔
    x ∈ (sget? s.tlbs k).getD [] ∧ ¬ (x.ctx = c ∧ ∀ l, vas = some l → ∃ va ∈ l, pageOf va x.size = x.page) := by
  rw [dropTlbOf, sget?_map_values]
  cases sget? s.tlbs k with
  | none => simp
  | some xs => cases vas <;> simp [imp_iff_not_or]

theorem mem_tlbinvDropped (k : Nat) (x : Tlb) : x ∈ (sget? (tlbinvDropped b e r).tlbs k).getD [] ↔ x ∈ (sget? b.tlbs k).getD [] ∧
    ¬ (e.live ≠ 0 ∧ x.ctx = e.gr.ctx ∧ ∀ q, r = some q → ∃ l, bit e.live l = true ∧ pageOf (e.d b q l) x.size = x.page) := by
  cases r with
  | none =>
    by_cases hl : e.live = 0
    · simp [tlbinvDropped, hl]
    · have hdrop : tlbinvDropped b e none = dropTlbOf b e.gr.ctx none := if_neg hl
      simp only [hdrop, mem_dropTlbOf, hl, reduceCtorEq, false_imp_iff, implies_true, and_true, ne_eq, not_false_eq_true, true_and]
  | some q =>
    have hlive (l : Nat) (hl : bit e.live l = true) : e.live ≠ 0 := (mask_ne_zero_iff _).mpr ⟨l, hl⟩
    simp only [tlbinvDropped, mem_dropTlbOf, Option.some.injEq, forall_eq', List.mem_map, mem_lanesOf]
    refine and_congr Iff.rfl (not_congr ⟨?_, ?_⟩)
    · rintro ⟨hc, -, ⟨l, hl, rfl⟩, hp⟩
      exact ⟨hlive l hl, hc, l, hl, hp⟩
    · rintro ⟨-, hc, l, hl, hp⟩
      exact ⟨hc, _, ⟨l, hl, rfl⟩, hp⟩

theorem tlbinv_drops (hi : Issues (.tlbinv h r) s e) (hb : Released e s true .dev b) (hw : tlbinvPinned b e r = false) :
    ∃ ts, CompletesOn (.tlbinv h r) s e { b with tlbs := ts } noResult ∧ ∀ k x, x ∈ (sget? ts k).getD [] ↔ x ∈ (sget? b.tlbs k).getD [] ∧
      ¬ (e.live ≠ 0 ∧ x.ctx = e.gr.ctx ∧ ∀ q, r = some q → ∃ l, bit e.live l = true ∧ pageOf (e.d b q l) x.size = x.page) := by
  have honly : tlbinvDropped b e r = { b with tlbs := (tlbinvDropped b e r).tlbs } := by
    unfold tlbinvDropped
    split
    · split <;> rfl
    · rfl
  have hh := here_of_groups (issues_here hi) (released_groups hb)
  refine ⟨_, ?_, mem_tlbinvDropped⟩
  rw [CompletesOn, exec_tlbinv hi hb, hw, ← honly]
  have hg : group? (tlbinvDropped b e r) e.g = some e.gr := by rw [honly]; exact hh.1
  exact settled_on hi hg hh.2 rfl rfl rfl rfl rfl

theorem tlbinv_waits (hi : Issues (.tlbinv h r) s e) (hb : Released e s true .dev b) (hw : tlbinvPinned b e r = true) :
    HoldsOn (.tlbinv h r) s e b .accept e.atPc := by
  have hh := here_of_groups (issues_here hi) (released_groups hb)
  rw [HoldsOn, exec_tlbinv hi hb, if_pos hw]
  exact held_on hi hh.1 hh.2 rfl rfl rfl rfl rfl .accept e.atPc

end

/-! ## IDLE -/

section
variable {m : Bool} {s : State} {e : Env}

theorem idle_outside (h : Issues (.idle m) s e) (hq : e.wp.handler = none) : Faults (.idle m) s e .priv e.live 0xFF 0 := by
  show execIdle m s = _
  rw [execIdle, runWord_issues h, hq]
  rfl

theorem idle_holds (h : Issues (.idle m) s e) {q : Handler} (hq : e.wp.handler = some q) :
    HoldsOn (.idle m) s e (postCtx s e.gr.ctx 4 q.frame.toNat 0 0 (some q.cause)) .idle e.atPc := by
  have hx : exec (.idle m) s = finish e (.idle m) (.hold (postCtx s e.gr.ctx 4 q.frame.toNat 0 0 (some q.cause)) .idle e.atPc) s := by
    show execIdle m s = _
    rw [execIdle, runWord_issues h, hq]
  have hh := here_of_groups (issues_here h) (postCtx_groups s e.gr.ctx 4 q.frame.toNat 0 0 (some q.cause))
  rw [HoldsOn, hx]
  exact held_on h hh.1 hh.2 rfl rfl rfl rfl rfl .idle e.atPc

end

/-- Settles O45: TRET by what it makes of its warp (`leaveWarp_eq`) and of its rows, TLBINV by the entries that `dropTlbOf` leaves,
IDLE by the event it posts. -/
theorem handlerWordsComplete : Obligations.HandlerWordsComplete := by
  unfold Obligations.HandlerWordsComplete
  refine ⟨fun s e m next h => ⟨tret_outside h, fun q hq hlow => ⟨?_, tret_waits h hq, fun frame s2 ht ho hread hwrite => tret_returns h hq hlow ht ho hread hwrite⟩⟩,
    fun s e h r m => ⟨fun b hi hb => ?_, fun h => ⟨idle_outside h, fun q => idle_holds h⟩⟩⟩
  · exact faults_apart h (exec_tret h hq)
  · cases r with
    | none =>
      have hpin : (e.live ≠ 0 ∧ pinsPage b e none = true) ↔ tlbinvPinned b e none = true := by simp [tlbinvPinned]
      exact ⟨fun hw => tlbinv_drops hi hb (by simpa using mt hpin.mpr hw), fun hw => tlbinv_waits hi hb (hpin.mp hw)⟩
    | some x =>
      have hpin : (∃ l, bit e.live l = true ∧ pinsPage b e (some (e.d b x l)) = true) ↔ tlbinvPinned b e (some x) = true := by simp [tlbinvPinned]
      exact ⟨fun hw => tlbinv_drops hi hb (by simpa using mt hpin.mpr hw), fun hw => tlbinv_waits hi hb (hpin.mp hw)⟩

end Sys2Proof.Machine
end

section
/-! PROOFS. Byte strings made of parts: what their fields read (R3), and what a trap frame holds (R354, R355). -/

namespace Sys2Proof.Machine

/-! ## Little-endian fields -/

@[simp] theorem length_leBytes (n x : Nat) : (leBytes n x).length = n := by
  induction n generalizing x with
  | zero => rfl
  | succ n ih => simp [leBytes, ih]

theorem leNat_leBytes (n x : Nat) : leNat (leBytes n x) = x % 256 ^ n := by
  induction n generalizing x with
  | zero => simp [leBytes, leNat, Nat.mod_one]
  | succ n ih =>
    rw [leBytes, leNat, ih, BitVec.toNat_ofNat]
    exact (by rw [pow_succ', Nat.mod_mul] : x % 256 ^ (n + 1) = x % 256 + 256 * (x / 256 % 256 ^ n)).symm

@[simp] theorem length_zeros (n : Nat) : (zeros n).length = n := List.length_replicate

/-- A number of n bytes reads back, as far as it fits them. -/
theorem field_leBytes (n x : Nat) : field (leBytes n x) 0 n = x % 256 ^ n := by
  rw [field, List.drop_zero, List.take_of_length_le (length_leBytes n x).le, leNat_leBytes]

theorem field_leBytes_of_lt {n x : Nat} (h : x < 256 ^ n) : field (leBytes n x) 0 n = x := by
  rw [field_leBytes, Nat.mod_eq_of_lt h]

/-- The four bytes of a word. -/
theorem field_leBytes_word (x : Word) : field (leBytes 4 x.toNat) 0 4 = x.toNat := field_leBytes_of_lt x.isLt

/-- The eight bytes of a double word. -/
theorem field_leBytes_dword (x : DWord) : field (leBytes 8 x.toNat) 0 8 = x.toNat := field_leBytes_of_lt x.isLt

/-- A field that lies in part i of a byte string: the parts before it take o bytes. -/
theorem field_flatten {parts : List (List Byte)} {i o n : Nat} {b : List Byte} (k : Nat) (hb : parts[i]? = some b)
    (ho : ((parts.take i).map List.length).sum = o) (hk : k + n ≤ b.length) : field parts.flatten (o + k) n = field b k n := by
  obtain ⟨hi, rfl⟩ := List.getElem?_eq_some_iff.mp hb
  have hsplit : parts.flatten = (parts.take i).flatten ++ (parts[i] ++ (parts.drop (i + 1)).flatten) := by
    rw [← List.flatten_cons, ← List.flatten_append, ← List.drop_eq_getElem_cons hi, List.take_append_drop]
  have hlen : (parts.take i).flatten.length = o := by rw [List.length_flatten, ho]
  rw [field, hsplit, ← hlen, List.drop_length_add_append, List.drop_append_of_le_length (by omega), List.take_append_of_le_length (by simp; omega), field]

/-- A field of record i in a row of records of w bytes each. -/
theorem field_flatMap {α : Type} {f : α → List Byte} {xs : List α} {i w n : Nat} {x : α} (k : Nat) (hx : xs[i]? = some x)
    (hw : ∀ y ∈ xs, (f y).length = w) (hk : k + n ≤ w) : field (xs.flatMap f) (w * i + k) n = field (f x) k n := by
  obtain ⟨hi, rfl⟩ := List.getElem?_eq_some_iff.mp hx
  have hlen : (((xs.map f).take i).map List.length).sum = w * i := by
    have hall : ((xs.map f).take i).map List.length = List.replicate i w := by
      rw [List.eq_replicate_iff]
      refine ⟨by simp; omega, fun b hb => ?_⟩
      obtain ⟨ys, hys, rfl⟩ := List.mem_map.mp hb
      obtain ⟨y, hy, rfl⟩ := List.mem_map.mp (List.mem_of_mem_take hys)
      exact hw y hy
    rw [hall, List.sum_replicate, smul_eq_mul, mul_comm]
  rw [List.flatMap_def]
  exact field_flatten k (by simp [hi]) hlen (by rwa [hw _ (List.getElem_mem hi)])

theorem length_flatMap_const {α : Type} {f : α → List Byte} {xs : List α} {w : Nat} (hw : ∀ y ∈ xs, (f y).length = w) :
    (xs.flatMap f).length = xs.length * w := by
  rw [List.length_flatMap, List.map_congr_left hw, List.map_const', List.sum_replicate, smul_eq_mul]

/-! ## Fault records (R355) -/

/-- The fields of a fault record, in order. -/
def faultParts (r : FaultRec) : List (List Byte) :=
  [leBytes 1 (Code.num r.code), leBytes 1 ((if r.handler then 1 else 0) + (if r.deferred then 2 else 0)), zeros 2, leBytes 4 r.lanes.toNat,
    leBytes 4 r.live.toNat, leBytes 4 r.atPc.toNat, leBytes 8 r.pc.toNat, leBytes 8 r.word.toNat, leBytes 8 r.d0.toNat, leBytes 8 r.d1.toNat,
    leBytes 8 r.clock.toNat, leBytes 1 r.warp, zeros 7]

theorem faultBytes_eq (r : FaultRec) : faultBytes r = (faultParts r).flatten := by
  simp only [faultBytes, faultParts, List.flatten_cons, List.flatten_nil, List.append_nil, List.append_assoc]

@[simp] theorem length_faultBytes (r : FaultRec) : (faultBytes r).length = 64 := by
  simp [faultBytes]

theorem Code.num_lt (c : Code) : Code.num c < 256 := by cases c <;> decide

/-- What the fields of a fault record read. -/
theorem field_faultBytes (r : FaultRec) : field (faultBytes r) 0 1 = Code.num r.code ∧ field (faultBytes r) 4 4 = r.lanes.toNat ∧
    field (faultBytes r) 16 8 = r.pc.toNat ∧ field (faultBytes r) 24 8 = r.word.toNat ∧ field (faultBytes r) 32 8 = r.d0.toNat ∧
    field (faultBytes r) 40 8 = r.d1.toNat := by
  have part {i n : Nat} {b : List Byte} (o : Nat) (hb : (faultParts r)[i]? = some b) (ho : (((faultParts r).take i).map List.length).sum = o)
      (hn : n = b.length) : field (faultBytes r) o n = field b 0 n := by
    rw [faultBytes_eq]; exact field_flatten 0 hb ho (by omega)
  refine ⟨?_, ?_, ?_, ?_, ?_, ?_⟩
  · rw [part (i := 0) 0 rfl (by simp) (by simp), field_leBytes_of_lt (Code.num_lt r.code)]
  · rw [part (i := 3) 4 rfl (by simp [faultParts]) (by simp), field_leBytes_word]
  · rw [part (i := 6) 16 rfl (by simp [faultParts]) (by simp), field_leBytes_dword]
  · rw [part (i := 7) 24 rfl (by simp [faultParts]) (by simp), field_leBytes_dword]
  · rw [part (i := 8) 32 rfl (by simp [faultParts]) (by simp), field_leBytes_dword]
  · rw [part (i := 9) 40 rfl (by simp [faultParts]) (by simp), field_leBytes_dword]

/-! ## Trap frames (R354) -/

section
variable (s : State) (gr : Group) (wp : Warp) (r : FaultRec) (temps : List Nat)

/-- v240 to v255 as a trap frame has them, a temporary row as zeros. -/
def frameTop : List Byte := (List.range 16).flatMap fun j => (List.range 32).flatMap fun l =>
  leBytes 4 (if temps.contains (240 + j) then 0 else (regRead s gr wp (240 + j) l).toNat)

/-- The sections of a trap frame, in order. -/
def frameParts : List (List Byte) :=
  [faultBytes r, leBytes 4 (~~~(aliveLanes wp)).toNat, zeros 4, leBytes 1 (gr.granted / 8), zeros 55, wp.lanes.flatMap fun l => leBytes 8 l.pc.toNat,
    zeros 128, (List.range 256).flatMap fun k => leBytes 4 (keyMask wp.pending k), (List.range 256).flatMap fun k => leBytes 4 (keyMask wp.tags k),
    zeros 1536, frameTop s gr wp temps]

theorem trapFrame_eq : trapFrame s gr wp r temps = (frameParts s gr wp r temps).flatten := by
  simp only [trapFrame, frameParts, frameTop, List.flatten_cons, List.flatten_nil, List.append_nil, List.append_assoc]

theorem length_keyMasks (ks : List Nat) : ((List.range 256).flatMap fun k => leBytes 4 (keyMask ks k)).length = 1024 := by
  rw [length_flatMap_const (w := 4) fun k _ => length_leBytes .., List.length_range]

theorem length_frameTop : (frameTop s gr wp temps).length = 2048 := by
  rw [frameTop, length_flatMap_const (w := 128) fun j _ => ?_, List.length_range]
  rw [length_flatMap_const (w := 4) fun l _ => length_leBytes .., List.length_range]

variable {wp}

theorem length_lanePcs (hl : wp.lanes.length = 32) : (wp.lanes.flatMap fun l => leBytes 8 l.pc.toNat).length = 256 := by
  rw [length_flatMap_const (w := 8) fun l _ => length_leBytes .., hl]

/-- The lengths of the sections of a trap frame. -/
theorem frameParts_lengths (hl : wp.lanes.length = 32) :
    (frameParts s gr wp r temps).map List.length = [64, 4, 4, 1, 55, 256, 128, 1024, 1024, 1536, 2048] := by
  simp only [frameParts, List.map_cons, List.map_nil, length_faultBytes, length_leBytes, length_zeros, length_lanePcs hl, length_keyMasks, length_frameTop]

theorem length_trapFrame (hl : wp.lanes.length = 32) : (trapFrame s gr wp r temps).length = 6144 := by
  rw [trapFrame_eq, List.length_flatten, frameParts_lengths s gr r temps hl]; rfl

theorem take_trapFrame : (trapFrame s gr wp r temps).take 64 = faultBytes r := by
  rw [trapFrame_eq, frameParts, List.flatten_cons, List.take_left' (length_faultBytes r)]

/-- A field of a trap frame, by the section i that it lies in and the section's offset o. -/
theorem field_trapFrame (hl : wp.lanes.length = 32) {i n : Nat} {b : List Byte} (o k : Nat) (hb : (frameParts s gr wp r temps)[i]? = some b)
    (ho : ([64, 4, 4, 1, 55, 256, 128, 1024, 1024, 1536, 2048].take i).sum = o) (hk : k + n ≤ b.length) :
    field (trapFrame s gr wp r temps) (o + k) n = field b k n := by
  rw [trapFrame_eq]
  exact field_flatten k hb (by rw [List.map_take, frameParts_lengths s gr r temps hl, ho]) hk

theorem bit_keyMask (ks : List Nat) (q : Nat) {l : Nat} (hl : l < 32) : (BitVec.ofNat 32 (keyMask ks q)).getLsbD l = true ↔ 32 * q + l ∈ ks := by
  rw [keyMask, BitVec.ofNat_toNat, BitVec.setWidth_eq]
  exact (congrArg (· = true) (bit_maskOf ..)).to_iff.trans (by simp [hl])

/-- A row of the masks that a frame has of a warp's pending bits or tags. -/
theorem field_keyMasks (ks : List Nat) {q : Nat} (hq : q < 256) :
    field ((List.range 256).flatMap fun k => leBytes 4 (keyMask ks k)) (4 * q) 4 = keyMask ks q := by
  have h := field_flatMap (f := fun k => leBytes 4 (keyMask ks k)) (n := 4) 0 (List.getElem?_range hq) (fun k _ => length_leBytes ..) le_rfl
  exact h.trans (field_leBytes_word _)

theorem field_frameTop {j l : Nat} (hj : j < 16) (hl : l < 32) : field (frameTop s gr wp temps) (128 * j + 4 * l) 4 =
    if 240 + j ∈ temps then 0 else (regRead s gr wp (240 + j) l).toNat := by
  have hrow (j : Nat) : ((List.range 32).flatMap fun l =>
      leBytes 4 (if temps.contains (240 + j) then 0 else (regRead s gr wp (240 + j) l).toNat)).length = 128 := by
    rw [length_flatMap_const (w := 4) fun l _ => length_leBytes .., List.length_range]
  rw [frameTop, field_flatMap (4 * l) (List.getElem?_range hj) (fun j _ => hrow j) (by omega)]
  have h := field_flatMap (f := fun l => leBytes 4 (if temps.contains (240 + j) then 0 else (regRead s gr wp (240 + j) l).toNat)) (n := 4) 0
    (List.getElem?_range hl) (fun k _ => length_leBytes ..) le_rfl
  refine h.trans ?_
  by_cases ht : 240 + j ∈ temps
  · simp [ht, field_leBytes]
  · simp [ht, field_leBytes_word]

/-- What the fields of a trap frame read. -/
theorem trapFrame_fields (hl : wp.lanes.length = 32) :
    field (trapFrame s gr wp r temps) 64 4 = (~~~(aliveLanes wp)).toNat ∧ field (trapFrame s gr wp r temps) 72 1 = gr.granted / 8 % 256 ∧
    (∀ (l : Nat) (y : Lane), wp.lanes[l]? = some y → field (trapFrame s gr wp r temps) (128 + 8 * l) 8 = y.pc.toNat) ∧
    (∀ q, q < 256 → field (trapFrame s gr wp r temps) (512 + 4 * q) 4 = keyMask wp.pending q ∧
      field (trapFrame s gr wp r temps) (1536 + 4 * q) 4 = keyMask wp.tags q) ∧
    ∀ j l, j < 16 → l < 32 → field (trapFrame s gr wp r temps) (4096 + 128 * j + 4 * l) 4 =
      if 240 + j ∈ temps then 0 else (regRead s gr wp (240 + j) l).toNat := by
  refine ⟨?_, ?_, fun l y hy => ?_, fun q hq => ⟨?_, ?_⟩, fun j l hj hl' => ?_⟩
  · rw [field_trapFrame s gr r temps hl (i := 1) 64 0 rfl rfl (by simp), field_leBytes_word]
  · rw [field_trapFrame s gr r temps hl (i := 3) 72 0 rfl rfl (by simp), field_leBytes, pow_one]
  · have hlt := (List.getElem?_eq_some_iff.mp hy).1
    rw [field_trapFrame s gr r temps hl (i := 5) 128 (8 * l) rfl rfl (by rw [length_lanePcs hl]; omega)]
    have h := field_flatMap (f := fun l : Lane => leBytes 8 l.pc.toNat) (n := 8) 0 hy (fun k _ => length_leBytes ..) le_rfl
    exact h.trans (field_leBytes_dword _)
  · rw [field_trapFrame s gr r temps hl (i := 7) 512 (4 * q) rfl rfl (by rw [length_keyMasks]; omega), field_keyMasks _ hq]
  · rw [field_trapFrame s gr r temps hl (i := 8) 1536 (4 * q) rfl rfl (by rw [length_keyMasks]; omega), field_keyMasks _ hq]
  · rw [Nat.add_assoc, field_trapFrame s gr r temps hl (i := 10) 4096 (128 * j + 4 * l) rfl rfl (by rw [length_frameTop]; omega),
      field_frameTop s gr temps hj hl']

end

end Sys2Proof.Machine
end

section
/-! PROOFS. Faults taken and trap entry (R191, R349 to R351, R353, R357 to R359). -/

namespace Sys2Proof.Machine

/-! ## Taking a fault -/

section
variable {s : State} {g w : Nat} {gr : Group} {wp : Warp} {r : FaultRec}

/-- Of two faults of one selection the first is the one recorded (R351). -/
theorem takeFault_second (hg : group? s g = some gr) (hw : gr.warps[w]? = some wp) (he : r.code = .eccu → r.deferred = true)
    (hf : wp.fault ≠ none) : takeFault s g w r = s := by
  have hnew : ¬ (r.code = .eccu ∧ r.deferred = false) := fun ⟨hc, hd⟩ => by rw [he hc] at hd; cases hd
  simp only [takeFault, if_neg hnew, hg, hw, Option.bind_some, Option.isSome_iff_ne_none.mpr hf, if_true]

/-- The first fault is recorded in its warp (R349, R350). -/
theorem takeFault_records (hg : group? s g = some gr) (hw : gr.warps[w]? = some wp) (hp : r.code ≠ .page) (hl : gr.logits = none)
    (he : r.code = .eccu → r.deferred = true) (hf : wp.fault = none) : takeFault s g w r = modWarp s g w fun x => { x with fault := some r } := by
  have hnew : ¬ (r.code = .eccu ∧ r.deferred = false) := fun ⟨hc, hd⟩ => by rw [he hc] at hd; cases hd
  simp only [takeFault, if_neg hnew, hg, hw, Option.bind_some, hf, Option.isSome_none, Bool.false_eq_true, if_false, if_neg hp, hl]
  cases gr.kind <;> rfl

theorem takeFault_page (hg : group? s g = some gr) (hw : gr.warps[w]? = some wp) (hp : r.code = .page) (hf : wp.fault = none) :
    takeFault s g w r = if otherWord s g w then modWarp s g w fun x => { x with fault := some r } else savePaged s gr r := by
  have hnew : ¬ (r.code = .eccu ∧ r.deferred = false) := fun ⟨hc, _⟩ => by rw [hp] at hc; cases hc
  simp only [takeFault, if_neg hnew, hg, hw, Option.bind_some, hf, Option.isSome_none, Bool.false_eq_true, if_false, if_pos hp]

theorem otherWord_iff (s : State) (g w : Nat) : otherWord s g w = true ↔ ∃ x ∈ s.issue, x.group = g ∧ x.warp = w := by
  simp [otherWord]

/-- A PAGE waits for the other word of its selection (R101, R191). -/
theorem takeFault_page_waits (hg : group? s g = some gr) (hw : gr.warps[w]? = some wp) (hp : r.code = .page) (hf : wp.fault = none)
    (ho : ∃ x ∈ s.issue, x.group = g ∧ x.warp = w) : takeFault s g w r = modWarp s g w fun x => { x with fault := some r } := by
  rw [takeFault_page hg hw hp hf, if_pos ((otherWord_iff s g w).mpr ho)]

/-- A PAGE saves its group, that of a user logit kernel its issuing group (R191, R362). -/
theorem takeFault_page_saves (hg : group? s g = some gr) (hid : gr.id = g) (hw : gr.warps[w]? = some wp) (hp : r.code = .page)
    (hf : wp.fault = none) (hno : ∀ x ∈ s.issue, ¬ (x.group = g ∧ x.warp = w)) {o : Nat} {x : Group}
    (ho : (∀ p q l, gr.kind ≠ .subgroup p q l) ∧ o = g ∨ ∃ q l, gr.kind = .subgroup o q l) (hx : group? s o = some x) (hlife : x.life = .resident) :
    takeFault s g w r = haltAndSave (modGroup s o fun y =>
      { y with waitVa := some (r.d0, r.d1.toNat % 256, decide (r.d1.toNat / 256 = 1)) }) o .page := by
  have hother : otherWord s g w = false := by
    rw [Bool.eq_false_iff]
    intro h
    obtain ⟨x, hx, hc⟩ := (otherWord_iff s g w).mp h
    exact hno x hx hc
  have hpaged : pagedGroup gr = o := by
    rcases ho with ⟨hk, rfl⟩ | ⟨q, l, hk⟩
    · unfold pagedGroup
      split
      · rename_i p q l hsub; exact absurd hsub (hk p q l)
      · exact hid
    · simp only [pagedGroup, hk]
  rw [takeFault_page hg hw hp hf, hother, if_neg (by simp), savePaged, hpaged]
  simp only [modGroup, hx, hlife, ne_eq, not_true_eq_false, if_false]
  rfl

end

/-! ## The warp that trap entry leaves (R353) -/

/-- Temporary rows are zero. -/
theorem tempRows_eq (temps : List Nat) (wp : Warp) :
    temps.foldl (fun w k => { w with regs := (List.range 32).foldl (fun m l => sput m (32 * k + l) 0) w.regs }) wp =
      { wp with regs := putRows (fun _ _ => 0) temps wp.regs } := by
  induction temps generalizing wp with
  | nil => rfl
  | cons k ks ih => rw [List.foldl_cons, ih, putRows_cons]

section
variable (vec va : DWord) (temps : List Nat) (r : FaultRec) (tagged : List (Nat × Word)) (wp : Warp)

/-- The warp of trap entry (R353): steps 5 and 6, and the temporary rows. -/
theorem enterWarp_eq : enterWarp vec va temps r tagged wp =
    { wp with
      regs := putRows (fun _ _ => 0) temps wp.regs
      lanes := wp.lanes.map fun l => { l with pc := if l.exited then l.pc else vec, yields := 0, age := 0 }
      pending := [], tags := wp.tags.filter fun k => k / 32 < 240, predictor := [], holds := [], fault := none, yielding := none
      trapHalt := false, affine := wp.affine.filter fun q => decide (q < 240)
      handler := some { frame := va, temps := temps, cause := r, tagged := tagged } } := by
  rw [enterWarp, tempRows_eq]

theorem mem_enterWarp_tags {k : Nat} (h : k ∈ (enterWarp vec va temps r tagged wp).tags) : k / 32 < 240 := by
  rw [enterWarp_eq] at h
  simpa using (List.mem_filter.mp h).2

end

end Sys2Proof.Machine
end

section
/-! PROOFS. Trap entry (R353, R357 to R359). -/

namespace Sys2Proof.Machine

/-! ## The state in which the frame is written -/

/-- The state that trap entry starts from: where the core's walkers are busy, words that wait to be accepted issue again. -/
def trapStart (s : State) (gr : Group) : State := if (core s (2 * (gr.core / 2))).walkers.isEmpty then s else retryAccept s

/-- The registers of the warp with a future's tag on them, as the handler keeps them (R372). -/
def taggedTop (s : State) (gr : Group) (wp : Warp) : List (Nat × Word) :=
  (wp.tags.filter fun k => 7680 ≤ k).map fun k => (k, regRead s gr wp (k / 32) (k % 32))

/-- The warp of trap entry in its handler, in a state u in which the frame at va has been written. -/
def handlerEntered (s u : State) (g w : Nat) (gr : Group) (wp : Warp) (r : FaultRec) (vec va : DWord) : State :=
  (List.range 32).foldl (fun t l => writeWide t g w 240 l 2 va.toNat)
    (modWarp u g w (enterWarp vec va (tempRegs gr.granted) r (taggedTop s gr wp)))

section
variable {s : State} {g w : Nat} {gr : Group} {wp : Warp}

theorem retryAccept_finds (hg : group? s g = some gr) (hw : gr.warps[w]? = some wp) :
    ∃ ws hs, group? (retryAccept s) g = some { gr with warps := ws } ∧ ws[w]? = some { wp with holds := hs } := by
  have hgroup : group? (retryAccept s) g = some (retryGroup gr) := by
    simp only [group?, retryAccept, sget?_map_values]
    rw [show sget? s.groups g = some gr from hg]; rfl
  exact ⟨_, _, hgroup, by rw [List.getElem?_map, hw]; rfl⟩

/-- The frame's writes leave the warp as it was, but for what it waits for. -/
theorem trapStart_finds {u : State} (hg : group? s g = some gr) (hw : gr.warps[w]? = some wp) (hu : WritesOnly (trapStart s gr) u) :
    u.tmpls = s.tmpls ∧ ∃ ws hs, group? u g = some { gr with warps := ws } ∧ ws[w]? = some { wp with holds := hs } := by
  have hgroup : group? u g = group? (trapStart s gr) g := by rw [group?, hu.groups, group?]
  rw [hu.tmpls, hgroup, trapStart]
  split
  · exact ⟨rfl, gr.warps, wp.holds, hg, hw⟩
  · exact ⟨rfl, retryAccept_finds hg hw⟩

end

theorem lanesOf_allOnes : lanesOf (BitVec.allOnes 32) = List.range 32 := by decide

theorem mem_tempRegs {n q : Nat} (h : q ∈ tempRegs n) : 240 ≤ q := by
  simp only [tempRegs, List.mem_filter, List.mem_map, List.mem_range] at h
  omega

section
variable (vec va : DWord) (temps : List Nat) (r : FaultRec) (tagged : List (Nat × Word)) {s u : State} {g w : Nat} {gr : Group} {wp : Warp}
  {ws : List Warp} {hs : List HoldRec}

/-- A warp's registers in its handler: temporary rows are zero, the others as they were (R353). -/
theorem regAt_enterWarp (hg : group? s g = some gr) (hw : gr.warps[w]? = some wp) (hh : wp.handler = none) (ht : u.tmpls = s.tmpls)
    (hu : group? u g = some { gr with warps := ws }) (huw : ws[w]? = some { wp with holds := hs }) (q : Nat) {l : Nat} (hl : l < 32) :
    regAt (modWarp u g w (enterWarp vec va temps r tagged)) g w q l = if q ∈ temps then 0 else regAt s g w q l := by
  have hg' : group? (modWarp u g w (enterWarp vec va temps r tagged)) g =
      some { gr with warps := modAt ws w (enterWarp vec va temps r tagged) } := by rw [group?_modWarp_self, hu]; rfl
  have hw' : (modAt ws w (enterWarp vec va temps r tagged))[w]? = some (enterWarp vec va temps r tagged { wp with holds := hs }) := by simp [huw]
  rw [regAt_of hg' hw', enterWarp_eq]
  by_cases hq : q ∈ temps
  · rw [if_pos hq, regRead_own (by simp [ownsRow, hq]), sget?_putRows _ _ _ _ hl, if_pos hq]; rfl
  · rw [if_neg hq, regAt_of hg hw]
    refine regRead_congr (by rw [modWarp_tmpls, ht]) rfl rfl (by simp [ownsRow, hh, hq]) ?_
    rw [sget?_putRows _ _ _ _ hl, if_neg hq]

end

/-! ## The frame's address in d240 -/

/-- A warp of a group in no issue, with every lane live. -/
def standInAll (g w : Nat) (gr : Group) (wp : Warp) : Env := { standIn g w gr wp with live := BitVec.allOnes 32 }

theorem wrote_allLanes {s : State} {g w : Nat} {gr : Group} {wp : Warp} (hg : group? s g = some gr) (hw : gr.warps[w]? = some wp) (v : Nat) :
    Wrote (standInAll g w gr wp) s ((List.range 32).foldl (fun t l => writeWide t g w 240 l 2 v) s)
      (resultIn (standInAll g w gr wp) 240 2 fun _ => v) := by
  rw [← lanesOf_allOnes]
  exact wrote_writeLanes (240 : Reg) 2 (fun _ => v) (wrote_refl ⟨hg, hw⟩)

theorem resultIn_allLanes (g w : Nat) (gr : Group) (wp : Warp) (va : DWord) (x : Word) (q : Nat) {l : Nat} (hl : l < 32) :
    (resultIn (standInAll g w gr wp) 240 2 (fun _ => va.toNat) q l).getD x =
      if q = 240 then va.setWidth 32 else if q = 241 then (va >>> 32).setWidth 32 else x := by
  have hlive : bit (standInAll g w gr wp).live l = true := by
    refine (mem_lanesOf ..).mp ?_
    rw [show (standInAll g w gr wp).live = BitVec.allOnes 32 from rfl, lanesOf_allOnes]
    exact List.mem_range.mpr hl
  have hd : (240 : Reg).toNat = 240 := rfl
  rw [resultIn, hd]
  by_cases h0 : q = 240
  · subst h0
    rw [if_pos ⟨hlive, by omega, by omega⟩, if_pos rfl]
    simp [BitVec.ofNat_toNat]
  by_cases h1 : q = 241
  · subst h1
    rw [if_pos ⟨hlive, by omega, by omega⟩, if_neg h0, if_pos rfl]
    apply BitVec.eq_of_toNat_eq
    simp [Nat.shiftRight_eq_div_pow]
  · rw [if_neg (by omega), if_neg h0, if_neg h1]; rfl

section
variable {s u : State} {g w : Nat} {gr : Group} {wp : Warp} (r : FaultRec) (vec va : DWord)

/-- What trap entry leaves (R353): the handler's warp, its other registers, and memory as the frame's write has left it. -/
theorem handlerEntered_spec (hg : group? s g = some gr) (hw : gr.warps[w]? = some wp) (hh : wp.handler = none) (hu : WritesOnly (trapStart s gr) u) :
    SameMemory u (handlerEntered s u g w gr wp r vec va) ∧ ∃ x, warp? (handlerEntered s u g w gr wp r vec va) g w = some x ∧
      x.pending = [] ∧ x.fault = none ∧ x.holds = [] ∧ x.predictor = [] ∧ (∀ k ∈ x.tags, k / 32 < 240) ∧
      x.lanes = (wp.lanes.map fun l => { l with pc := if l.exited then l.pc else vec, yields := 0, age := 0 }) ∧
      x.handler = some { frame := va, temps := tempRegs gr.granted, cause := r, tagged := taggedTop s gr wp } ∧
      ∀ q l, l < 32 → regAt (handlerEntered s u g w gr wp r vec va) g w q l = if q = 240 then va.setWidth 32 else if q = 241 then (va >>> 32).setWidth 32
        else if q ∈ tempRegs gr.granted then 0 else regAt s g w q l := by
  obtain ⟨ht, ws, hs, hu, huw⟩ := trapStart_finds hg hw hu
  set enter := enterWarp vec va (tempRegs gr.granted) r (taggedTop s gr wp) with henter
  have hgroup : group? (modWarp u g w enter) g = some { gr with warps := modAt ws w enter } := by rw [group?_modWarp_self, hu]; rfl
  have hwarp : (modAt ws w enter)[w]? = some (enter { wp with holds := hs }) := by simp [huw]
  obtain ⟨hregs, honly, x, hx, hkeep, htags⟩ := wrote_allLanes hgroup hwarp va.toNat
  have hmod : modWarp u g w enter = { u with groups := (modWarp u g w enter).groups } := modWarp_only ..
  have htag : ∀ k ∈ x.tags, k / 32 < 240 := fun k hk => mem_enterWarp_tags _ _ _ _ _ _ ((htags k).mp hk).1
  simp only [standInAll, standIn, henter, enterWarp_eq] at hkeep
  refine ⟨sameMemory_trans (sameMemory_of_only (by rw [hmod])) (sameMemory_of_only honly.1), x, hx, congrArg (·.pending) hkeep,
    congrArg (·.fault) hkeep, congrArg (·.holds) hkeep, congrArg (·.predictor) hkeep, htag, congrArg (·.lanes) hkeep, congrArg (·.handler) hkeep,
    fun q l hl => ?_⟩
  rw [← regAt_enterWarp vec va (tempRegs gr.granted) r (taggedTop s gr wp) hg hw hh ht hu huw q hl]
  exact (hregs q l hl).trans (resultIn_allLanes g w _ _ va _ q hl)

end

/-! ## The branches of trap entry -/

section
variable {s : State} {g w : Nat} {gr : Group} {wp : Warp} {r : FaultRec}

theorem trapEntry_waits (hg : group? s g = some gr) (hw : gr.warps[w]? = some wp)
    (h : wp.fault = none ∨ wp.outs ≠ [] ∧ ∀ x, wp.fault = some x → x.code ≠ .page) : exec (.trapEntry g w) s = .next s := by
  show Host.Outcome.next (enterHandler s g w) = _
  cases hf : wp.fault with
  | none => simp only [enterHandler, hg, hw, hf]
  | some x =>
    obtain ⟨ho, hp⟩ := h.resolve_left (by simp [hf])
    simp only [enterHandler, hg, hw, hf, if_neg (hp x hf), ho, ne_eq, not_false_eq_true, true_or, if_true, ite_self]

variable (hg : group? s g = some gr) (hw : gr.warps[w]? = some wp) (hl : gr.life = .resident) (hf : wp.fault = some r) (hp : r.code ≠ .page)
  (hgo : ¬ (wp.outs ≠ [] ∨ busyHold wp = true ∨ wp.trapHalt = true ∧ (core s gr.core).halted = true))

include hg hw hl hf hp hgo

/-- A fault in the handler ends the context (R358). -/
theorem trapEntry_nested {h : Handler} (hn : wp.handler = some h) :
    exec (.trapEntry g w) s = .next (contextEnd s gr.ctx (some h.cause) { r with handler := true }) := by
  show Host.Outcome.next (enterHandler s g w) = _
  simp only [enterHandler, hg, hw, hf, if_neg (not_not.mpr hl), if_neg hp, if_neg hgo, hn]

variable (hn : wp.handler = none) {c : Ctx} (hc : ctx? s gr.ctx = some c)

include hn hc

/-- Without a handler the group ends (R357). -/
theorem trapEntry_unhandled (h0 : c.trapvec = 0 ∨ c.trapframe = 0) : exec (.trapEntry g w) s = .next (endFaultedGroup s gr r) := by
  show Host.Outcome.next (enterHandler s g w) = _
  simp only [enterHandler, hg, hw, hf, if_neg (not_not.mpr hl), if_neg hp, if_neg hgo, hn, hc, Option.map_some, if_pos h0]

/-- Trap entry waits for temporary rows (R353). -/
theorem trapEntry_lacksRows (h0 : ¬ (c.trapvec = 0 ∨ c.trapframe = 0)) (hr : freeRows s gr.core < (tempRegs gr.granted).length) :
    exec (.trapEntry g w) s = .next s := by
  show Host.Outcome.next (enterHandler s g w) = _
  simp only [enterHandler, hg, hw, hf, if_neg (not_not.mpr hl), if_neg hp, if_neg hgo, hn, hc, Option.map_some, if_neg h0, if_pos hr]

/-- Once the frame is written the core halts under HALTTRAP, and the warp enters its handler otherwise (R353, R359). -/
theorem trapEntry_written (h0 : ¬ (c.trapvec = 0 ∨ c.trapframe = 0)) (hr : ¬ freeRows s gr.core < (tempRegs gr.granted).length) {u : State}
    (hu : devWrite (drainDie (trapStart s gr) (dieOf gr.core)) gr.ctx (gens s gr) (trapFrameVa s gr wp) 1
      (trapFrame s gr wp r (tempRegs gr.granted)) = .ok u) :
    exec (.trapEntry g w) s = .next (if c.dbg.getLsbD 1 && !wp.trapHalt then
      modWarp (modCore u gr.core fun k => { k with halted := true }) g w fun x => { x with trapHalt := true }
      else handlerEntered s u g w gr wp r c.trapvec (trapFrameVa s gr wp)) := by
  rw [trapStart] at hu
  show Host.Outcome.next (enterHandler s g w) = _
  simp only [enterHandler, hg, hw, hf, if_neg (not_not.mpr hl), if_neg hp, if_neg hgo, hn, hc, Option.map_some, if_neg h0, if_neg hr, hu]
  rfl

end

section
variable {s : State} {g w : Nat} {gr : Group} {wp : Warp} {r : FaultRec}

/-- What the frame of trap entry holds (R354, R355). -/
theorem trapFrame_holds (hg : group? s g = some gr) (hw : gr.warps[w]? = some wp) (temps : List Nat) (hl : wp.lanes.length = 32) :
    let f := trapFrame s gr wp r temps
    f.length = 6144 ∧ f.take 64 = faultBytes r ∧ field f 0 1 = Code.num r.code ∧ field f 4 4 = r.lanes.toNat ∧
      field f 16 8 = r.pc.toNat ∧ field f 24 8 = r.word.toNat ∧ field f 32 8 = r.d0.toNat ∧ field f 40 8 = r.d1.toNat ∧
      field f 64 4 = (~~~(aliveLanes wp)).toNat ∧ field f 72 1 = gr.granted / 8 % 256 ∧
      (∀ (l : Nat) (y : Lane), wp.lanes[l]? = some y → field f (128 + 8 * l) 8 = y.pc.toNat) ∧
      (∀ q l, q < 256 → l < 32 → ((BitVec.ofNat 32 (field f (512 + 4 * q) 4)).getLsbD l = true ↔ 32 * q + l ∈ wp.pending) ∧
        ((BitVec.ofNat 32 (field f (1536 + 4 * q) 4)).getLsbD l = true ↔ 32 * q + l ∈ wp.tags)) ∧
      ∀ j l, j < 16 → l < 32 → field f (4096 + 128 * j + 4 * l) 4 = if 240 + j ∈ temps then 0 else (regAt s g w (240 + j) l).toNat := by
  have head (o : Nat) {n : Nat} (h : o + n ≤ 64) : field (trapFrame s gr wp r temps) o n = field (faultBytes r) o n := by
    have h' := field_trapFrame s gr r temps hl (i := 0) (n := n) 0 o rfl rfl (by rwa [length_faultBytes])
    rwa [Nat.zero_add] at h'
  obtain ⟨hcode, hlanes, hpc, hword, h0, h1⟩ := field_faultBytes r
  obtain ⟨halive, hgranted, hpcs, hmasks, htop⟩ := trapFrame_fields s gr r temps hl
  refine ⟨length_trapFrame s gr r temps hl, take_trapFrame s gr r temps, (head 0 (by omega)).trans hcode, (head 4 (by omega)).trans hlanes,
    (head 16 (by omega)).trans hpc, (head 24 (by omega)).trans hword, (head 32 (by omega)).trans h0, (head 40 (by omega)).trans h1,
    halive, hgranted, hpcs, fun q l hq hl' => ?_, fun j l hj hl' => ?_⟩
  · obtain ⟨hpend, htags⟩ := hmasks q hq
    rw [hpend, htags]
    exact ⟨bit_keyMask _ _ hl', bit_keyMask _ _ hl'⟩
  · rw [htop j l hj hl', regAt_of hg hw]

/-- The lanes of a warp that enters its handler (R353). -/
theorem entered_lane {vec : DWord} {lanes : List Lane} {l : Nat} {y z : Lane} (hy : lanes[l]? = some y)
    (hz : (lanes.map fun l => { l with pc := if l.exited then l.pc else vec, yields := 0, age := 0 })[l]? = some z) :
    z.pc = (if y.exited then y.pc else vec) ∧ z.yields = 0 ∧ z.age = 0 := by
  rw [List.getElem?_map, hy] at hz
  obtain rfl := Option.some.inj hz
  exact ⟨rfl, rfl, rfl⟩

end

/-- Settles O9: a fault by `takeFault`'s branches, trap entry by those of `enterHandler` and by the warp that it leaves
(`handlerEntered_spec`), the frame section by section (`trapFrame_holds`). -/
theorem faultsAreTaken : Obligations.FaultsAreTaken := by
  unfold Obligations.FaultsAreTaken
  intro s g w gr wp r hg hid hw
  refine ⟨takeFault_second hg hw, takeFault_records hg hw, takeFault_page_waits hg hw,
    fun hp hf hno o x ho hx hlife => takeFault_page_saves hg hid hw hp hf hno ho hx hlife, trapEntry_waits hg hw,
    fun hl hf hp ho hb hh => ?_, trapFrame_holds hg hw _⟩
  have hgo : ¬ (wp.outs ≠ [] ∨ busyHold wp = true ∨ wp.trapHalt = true ∧ (core s gr.core).halted = true) := by
    rcases hh with hh | hh <;> simp [ho, hb, hh]
  refine ⟨fun h => trapEntry_nested hg hw hl hf hp hgo, fun c hn hc => ⟨trapEntry_unhandled hg hw hl hf hp hgo hn hc,
    fun hv hb => trapEntry_lacksRows hg hw hl hf hp hgo hn hc (not_or.mpr ⟨hv, hb⟩), fun hv hb hr u hu => ?_⟩⟩
  have hva : trapFrameVa s gr wp = c.trapframe + BitVec.ofNat 64 (8192 * (12288 * dieOf gr.core + 64 * (gr.core % 192) + wp.slot)) := by
    rw [trapFrameVa, hc]; rfl
  rw [← hva] at hu ⊢
  have hx := trapEntry_written hg hw hl hf hp hgo hn hc (not_or.mpr ⟨hv, hb⟩) (not_lt.mpr hr) hu
  refine ⟨fun hd ht => by rw [hx, hd, ht]; rfl, fun hd => ?_⟩
  have hgoes : ¬ (c.dbg.getLsbD 1 && !wp.trapHalt) = true := by rcases hd with hd | hd <;> rw [hd] <;> simp
  obtain ⟨hmem, x, hwarp, hpend, hfault, hholds, hpred, htags, hlanes, hhand, hregs⟩ := handlerEntered_spec r c.trapvec (trapFrameVa s gr wp) hg hw hn
    ((writesOnly_drainDie _ _).trans (writesOnly_devWrite hu))
  exact ⟨_, x, by rw [hx, if_neg hgoes], hmem, hwarp, hpend, hfault, hholds, hpred, htags,
    fun l y z hy hz => entered_lane hy (hlanes ▸ hz), ⟨_, hhand, rfl, rfl⟩, hregs⟩

end Sys2Proof.Machine
end

section
/-! PROOFS. How a word ends that has changed its group or what its warp has heard, where what retiring notes of them is as it was. -/

namespace Sys2Proof.Machine

/-- A state holds the word's group and warp with all that retiring and holding note of them as it was: core, context and budget, and the
registers held compressed and cached (R53, R54, R342, R368). -/
def KeepsPlace (e : Env) (u : State) : Prop :=
  ∃ gr wp, group? u e.g = some gr ∧ gr.warps[e.w]? = some wp ∧ gr.core = e.gr.core ∧ gr.ctx = e.gr.ctx ∧ gr.logits = e.gr.logits ∧
    wp.affine = e.wp.affine ∧ wp.recent = e.wp.recent

theorem keepsPlace_of_here {e : Env} {s : State} (h : Here e s) : KeepsPlace e s := ⟨e.gr, e.wp, h.1, h.2, rfl, rfl, rfl, rfl, rfl⟩

theorem keepsPlace_of_tookLines {e : Env} {s v : State} (h : Here e s) (hv : TookLines e v) : KeepsPlace e v := by
  obtain ⟨lines, page, hg⟩ := hv
  exact ⟨_, e.wp, hg, h.2, rfl, rfl, rfl, rfl, rfl⟩

theorem KeepsPlace.of_groups {e : Env} {v u : State} (h : KeepsPlace e v) (hg : u.groups = v.groups) : KeepsPlace e u := by
  obtain ⟨gr, wp, hgr, hrest⟩ := h
  exact ⟨gr, wp, (group?_congr hg _).trans hgr, hrest⟩

/-- A change of the word's warp that leaves its compressed and cached registers. -/
theorem KeepsPlace.modWarp {e : Env} {v : State} (h : KeepsPlace e v) {f : Warp → Warp}
    (hf : ∀ x, (f x).affine = x.affine ∧ (f x).recent = x.recent) : KeepsPlace e (modWarp v e.g e.w f) := by
  obtain ⟨gr, wp, hgr, hwp, hc, hx, hl, ha, hr⟩ := h
  obtain ⟨ha', hr'⟩ := hf wp
  exact ⟨{ gr with warps := modAt gr.warps e.w f }, f wp, by rw [group?_modWarp_self, hgr]; rfl, by simp [hwp], hc, hx, hl, ha'.trans ha, hr'.trans hr⟩

theorem keepsPlace_foldl {α : Type} {e : Env} {f : State → α → State} (hf : ∀ v x, KeepsPlace e v → KeepsPlace e (f v x)) (xs : List α) {v : State}
    (h : KeepsPlace e v) : KeepsPlace e (xs.foldl f v) := by
  induction xs generalizing v with
  | nil => exact h
  | cons x xs ih => exact ih (hf v x h)

/-- A read leaves them (R230 to R232). -/
theorem keepsPlace_of_readNoted {e : Env} {s v : State} (hh : Here e s) (h : ReadNoted e s v) : KeepsPlace e v := by
  obtain ⟨-, -, gr, hg, hgr, hlen, -, hwp⟩ := h
  have hlt : e.w < gr.warps.length := hlen ▸ (List.getElem?_eq_some_iff.mp hh.2).1
  have hw : gr.warps[e.w]? = some (warpOf e v) := by simp [warpOf, warp?, hg, List.getElem?_eq_getElem hlt]
  exact ⟨gr, warpOf e v, hg, hw, by rw [← hgr], by rw [← hgr], by rw [← hgr], by rw [← hwp], by rw [← hwp]⟩

section
variable {i : Instr} {s u : State} {e : Env} (hi : Issues i s e) (hk : KeepsPlace e u)
  (ha : ∀ x gr wp, affineWord x { e with gr := gr, wp := wp } i = affineWord x e i)
include hi hk ha

/-- A word without results that has brought about u. -/
theorem completesOn_kept (hx : exec i s = finish e i (.done u) s) : CompletesOn i s e u noResult := by
  obtain ⟨gr, wp, hg, hw, hc, hcx, hl, haf, hr⟩ := hk
  rw [CompletesOn, hx]
  exact settled_on hi hg hw hc hcx hl (ha ..) (by simp only [bankReads, haf, hr])

/-- A word that has brought about u and then writes one result in each live lane. -/
theorem completesOn_kept_writes (d : Reg) (n : Nat) (f : Nat → Nat) (hx : exec i s = finish e i (.done (writeLanes e u d.toNat n f)) s) :
    CompletesOn i s e u (resultIn e d n f) := by
  obtain ⟨gr, wp, hg, hw, hc, hcx, hl, haf, hr⟩ := hk
  rw [CompletesOn, hx]
  exact wrote_on hi hg hw hc hcx hl (by simp only [bankReads, haf, hr]) (ha ..)
    (wrote_writeLanes (e := { e with gr := gr, wp := wp }) d n f (wrote_refl ⟨hg, hw⟩))

/-- A word that has brought about u and sends its results off. -/
theorem completesLaterOn_kept (d : Reg) (n : Nat) (f : Nat → Nat) (hx : exec i s = finish e i (.done (laterValue e u d.toNat n f)) s) :
    CompletesLaterOn i s e u d n f := by
  obtain ⟨gr, wp, hg, hw, hc, hcx, hl, haf, hr⟩ := hk
  have hb : bankReads { e with gr := gr, wp := wp } i = bankReads e i := by simp only [bankReads, haf, hr]
  refine ⟨_, by rw [hx, finish_done hi], ?_⟩
  rw [on_of_reads hg hw, ← retire_congr s _ i e hc hcx hl (ha ..) hb]
  exact sentOff_laterValue (e := { e with gr := gr, wp := wp }) s i d n f (wrote_refl ⟨hg, hw⟩)

/-- A word that has brought about u and then holds lanes. -/
theorem holdsOn_kept (k : Hold) (lanes : Mask) (hx : exec i s = finish e i (.hold u k lanes) s) : HoldsOn i s e u k lanes := by
  obtain ⟨gr, wp, hg, hw, hc, hcx, hl, haf, hr⟩ := hk
  rw [HoldsOn, hx]
  exact held_on hi hg hw hc hcx hl (by simp only [bankReads, haf, hr]) (ha ..) k lanes

end

end Sys2Proof.Machine
end

section
/-! PROOFS. FENCE (R218, R219, R232, R233, R235). -/

namespace Sys2Proof.Machine

section
variable {h : Hdr} {ord : FenceOrd} {sc : Scope} {s : State} {e : Env}

theorem exec_fence (hi : Issues (.fence h ord sc) s e) :
    exec (.fence h ord sc) s = finish e (.fence h ord sc) (fenceThen e s ord sc fun u => .done u) s := by
  show execFence h ord sc s = _
  rw [execFence, runWord_issues hi]

theorem fenceDrain_groups (d : Nat) : (fenceDrain s d ord sc).groups = s.groups := by
  unfold fenceDrain
  split
  · exact drainIf_groups ..
  · rfl

/-- A part of what FENCE waits for that its order may leave out. -/
theorem unless_order_iff {o : FenceOrd} {c : Bool} {P : Prop} (hc : c = true ↔ P) : (ord == o || c) = true ↔ (ord ≠ o → P) := by
  rw [Bool.or_eq_true, beq_iff_eq, hc, Decidable.or_iff_not_imp_left]

/-- The writes that FENCE waits for have been acknowledged at the point of its scope (R219). -/
theorem acked_iff (d g w : Nat) : (if devScope sc then !(s.pend.any fun p => p.die == d) else !l1Pending s g w 0xFFFFFFFF) = true ↔
    if devScope sc = true then ∀ p ∈ s.pend, p.die ≠ d else ∀ p ∈ s.pend, p.group = g ∧ p.warp = w ∧ p.lane < 32 → p.atL1 = true := by
  have hall (l : Nat) : bit 0xFFFFFFFF#32 l = decide (l < 32) := by
    rw [bit, show (0xFFFFFFFF#32) = BitVec.allOnes 32 from rfl, BitVec.getLsbD_allOnes]
  cases devScope sc
  · simp [l1Pending, hall]
  · simp

/-- Of the results of a warp only those of matrix words are on their way (R219). -/
theorem loaded_iff (wp : Warp) : (wp.outs.all fun o => match o with | .matrix _ => true | _ => false) = true ↔ ∀ o ∈ wp.outs, ∃ n, o = .matrix n := by
  rw [List.all_eq_true]
  refine forall₂_congr fun o _ => ?_
  cases o <;> simp

/-- From die scope on the warp's update records are applied (R219). -/
theorem applied_iff (g w : Nat) :
    ((match sc with | .die => false | .dev => false | .sys => false | _ => true) || !(s.regions.any (recordsDue s g w))) = true ↔
      (sc = .die ∨ sc = .dev ∨ sc = .sys → ∀ r ∈ s.regions, recordsDue s g w r = false) := by
  cases sc <;> simp

/-- What FENCE waits for (R219): its writes unless it only acquires, its loads unless it only releases, its update records. -/
theorem fenceReady_iff {wp : Warp} {d g w : Nat} (hw : warp? s g w = some wp) : fenceReady s d g w ord sc = true ↔
    (ord ≠ .acq → if devScope sc = true then ∀ p ∈ s.pend, p.die ≠ d else ∀ p ∈ s.pend, p.group = g ∧ p.warp = w ∧ p.lane < 32 → p.atL1 = true) ∧
    (ord ≠ .rel → ∀ o ∈ wp.outs, ∃ n, o = .matrix n) ∧ (sc = .die ∨ sc = .dev ∨ sc = .sys → ∀ r ∈ s.regions, recordsDue s g w r = false) := by
  unfold fenceReady
  rw [hw, Bool.and_eq_true, Bool.and_eq_true, and_assoc]
  exact and_congr (unless_order_iff (acked_iff d g w)) (and_congr (unless_order_iff (loaded_iff wp)) (applied_iff g w))

/-- A fence that goes on leaves its warp but for what its lanes' fences cover (R232, R235). -/
theorem keepsPlace_fenceEdges {u : State} (hu : KeepsPlace e u) (d : Nat) (live : Mask) : KeepsPlace e (fenceEdges u d e.g e.w live ord sc) := by
  have hlearn (v : State) (x : View) (hv : KeepsPlace e v) : KeepsPlace e (learn v d x) := hv.of_groups rfl
  unfold fenceEdges
  split
  · exact hu
  extract_lets s1 s2 v
  have h1 : KeepsPlace e s1 := by
    simp only [s1]
    split
    · exact hu
    split
    · exact hu
    · refine keepsPlace_foldl (fun v l hv => ?_) _ hu
      split
      · exact hlearn _ _ (hlearn _ _ hv)
      · exact hlearn _ _ hv
  have h2 : KeepsPlace e s2 := by
    simp only [s2]
    split
    · exact hlearn _ _ (h1.of_groups rfl)
    · exact h1
  split
  · exact h2
  · exact h2.modWarp fun _ => ⟨rfl, rfl⟩

theorem fence_idle (hi : Issues (.fence h ord sc) s e) (hl : e.live = 0) : Completes (.fence h ord sc) s e noResult := by
  rw [Completes, exec_fence hi, fenceThen, if_pos hl]
  exact finish_done_completes hi

theorem fence_goes_on (hi : Issues (.fence h ord sc) s e) (hl : e.live ≠ 0) (hr : fenceReady (fenceDrain s e.die ord sc) e.die e.g e.w ord sc = true) :
    CompletesOn (.fence h ord sc) s e (fenceEdges (fenceDrain s e.die ord sc) e.die e.g e.w e.live ord sc) noResult :=
  completesOn_kept hi (keepsPlace_fenceEdges ((keepsPlace_of_here (issues_here hi)).of_groups (fenceDrain_groups _)) _ _) (fun _ _ _ => rfl)
    (by rw [exec_fence hi, fenceThen, if_neg hl]; simp only [hr, if_true])

theorem fence_waits (hi : Issues (.fence h ord sc) s e) (hl : e.live ≠ 0) (hr : ¬ fenceReady (fenceDrain s e.die ord sc) e.die e.g e.w ord sc = true) :
    HoldsOn (.fence h ord sc) s e (fenceDrain s e.die ord sc) (.fence ord sc) e.atPc :=
  holdsOn_kept hi ((keepsPlace_of_here (issues_here hi)).of_groups (fenceDrain_groups _)) (fun _ _ _ => rfl) _ _
    (by rw [exec_fence hi, fenceThen, if_neg hl]; simp only [hr, Bool.false_eq_true, if_false])

end

end Sys2Proof.Machine
end

section
/-! PROOFS. Bytes of a scratchpad written (R131, R132, R185, R430). -/

namespace Sys2Proof.Machine

/-! ## A granule copied, and bytes put -/

theorem sget?_run (f : Nat → Byte) (base n : Nat) (m : List (Nat × Byte)) (k : Nat) :
    sget? ((List.range n).foldl (fun m i => sput m (base + i) (f i)) m) k = if base ≤ k ∧ k < base + n then some (f (k - base)) else sget? m k := by
  induction n with
  | zero => rw [if_neg (by omega)]; rfl
  | succ n ih =>
    rw [List.range_succ, List.foldl_append]
    simp only [List.foldl_cons, List.foldl_nil, sget?_sput, ih]
    by_cases h : k = base + n
    · subst h; simp
    · by_cases h1 : base ≤ k ∧ k < base + n
      · rw [if_neg h, if_pos h1, if_pos ⟨h1.1, by omega⟩]
      · rw [if_neg h, if_neg h1, if_neg (by omega)]

/-- A group has granule q of its scratchpad for its own (R132). -/
def ownsGranule (gr : Group) (q : Nat) : Prop := gr.kind.tmpl? = none ∨ q ∈ gr.spmPriv

/-- What a granule's bytes are where the group has it for its own. -/
def ownSpm (gr : Group) (k : Nat) : Byte := (sget? gr.spm k).getD (staleSpm gr.seed gr.leftSpm k)

theorem spmByte_own {s : State} {gr : Group} {k : Nat} (h : ownsGranule gr (k / 256)) : spmByte s gr k = ownSpm gr k := by
  unfold spmByte
  obtain h | h := h
  · rw [h]; rfl
  · simp only [List.contains_iff_mem, h, if_true]
    split <;> rfl

theorem ownsGranule_copyGranule (s : State) (gr : Group) (q : Nat) : ownsGranule (copyGranule s gr q) q := by
  unfold copyGranule
  split
  · rename_i h
    simpa [ownsGranule] using h
  · exact .inr ((mem_sins ..).mpr (.inl rfl))

/-- A copied granule reads as before (R132). -/
theorem spmByte_copyGranule (s t : State) (ht : t.tmpls = s.tmpls) (gr : Group) (q k : Nat) : spmByte t (copyGranule s gr q) k = spmByte s gr k := by
  have htm : tmpl? t = tmpl? s := by funext n; simp only [tmpl?, ht]
  by_cases hown : (gr.kind.tmpl?.isNone || gr.spmPriv.contains q) = true
  · rw [copyGranule, if_pos hown, spmByte, spmByte, htm]
  by_cases hk : k / 256 = q
  · rw [spmByte_own (hk ▸ ownsGranule_copyGranule s gr q), ownSpm, copyGranule, if_neg hown]
    simp only [sget?_run]
    rw [if_pos (by omega), Option.getD_some, show 256 * q + (k - 256 * q) = k by omega]
  · rw [copyGranule, if_neg hown]
    have hpriv : (sins gr.spmPriv q).contains (k / 256) = gr.spmPriv.contains (k / 256) := by
      rw [Bool.eq_iff_iff]; simp [hk]
    have hnot : ¬ (256 * q ≤ k ∧ k < 256 * q + 256) := by omega
    simp only [spmByte, htm, sget?_run, hnot, if_false, hpriv]

theorem copyGranule_only (s : State) (gr : Group) (q : Nat) : ∃ m ps, copyGranule s gr q = { gr with spm := m, spmPriv := ps } := by
  unfold copyGranule
  split
  · exact ⟨gr.spm, gr.spmPriv, rfl⟩
  · exact ⟨_, _, rfl⟩

/-- The group that has written bytes of its scratchpad. -/
def wroteSpm (s : State) (gr : Group) (off : Nat) (data : List Byte) : Group :=
  { copyGranule s gr (off / 256) with
    spm := putSpm (copyGranule s gr (off / 256)).spm off data
    spmBad := (copyGranule s gr (off / 256)).spmBad.filter fun q => !(decide (off ≤ 4 * q) && decide (4 * q + 4 ≤ off + data.length))
    pastSpm := data.foldl addNew (copyGranule s gr (off / 256)).pastSpm }

theorem writeSpm_eq {s : State} {g : Nat} {gr : Group} (h : group? s g = some gr) (off : Nat) (data : List Byte) :
    writeSpm s g off data = modGroup s g fun _ => wroteSpm s gr off data := by
  rw [writeSpm, h]; rfl

theorem wroteSpm_only (s : State) (gr : Group) (off : Nat) (data : List Byte) : ∃ m ps bad past,
    wroteSpm s gr off data = { gr with spm := m, spmPriv := ps, spmBad := bad, pastSpm := past } ∧ ∀ q ∈ bad, q ∈ gr.spmBad := by
  obtain ⟨m, ps, h⟩ := copyGranule_only s gr (off / 256)
  exact ⟨_, _, _, _, by rw [wroteSpm, h], fun q hq => (List.mem_filter.mp hq).1⟩

/-- Bytes put within one granule read back, and every other byte reads as before. -/
theorem spmByte_wroteSpm {s t : State} (ht : t.tmpls = s.tmpls) (gr : Group) {off : Nat} {data : List Byte} (hin : off % 256 + data.length ≤ 256) (k : Nat) :
    spmByte t (wroteSpm s gr off data) k = if off ≤ k ∧ k < off + data.length then data[k - off]?.getD 0 else spmByte s gr k := by
  have hget : sget? (wroteSpm s gr off data).spm k =
      if off ≤ k ∧ k < off + data.length then data[k - off]? else sget? (copyGranule s gr (off / 256)).spm k := sget?_putSpm ..
  by_cases hk : off ≤ k ∧ k < off + data.length
  · have hown : ownsGranule (wroteSpm s gr off data) (k / 256) := by
      rw [show k / 256 = off / 256 by omega]
      exact ownsGranule_copyGranule s gr (off / 256)
    rw [spmByte_own hown, ownSpm, hget, if_pos hk, if_pos hk, List.getElem?_eq_getElem (by omega)]
    rfl
  · rw [if_neg hk, ← spmByte_copyGranule s t ht gr (off / 256) k]
    rw [if_neg hk] at hget
    simp only [spmByte, hget]
    rfl

theorem group?_writeSpm {s : State} {g : Nat} {gr : Group} (h : group? s g = some gr) (off : Nat) (data : List Byte) :
    group? (writeSpm s g off data) g = some (wroteSpm s gr off data) := by
  rw [writeSpm_eq h, group?_modGroup_self, h]; rfl

theorem spmAt_writeSpm {s : State} {g : Nat} {gr : Group} (h : group? s g = some gr) {off : Nat} {data : List Byte} (hin : off % 256 + data.length ≤ 256)
    (k : Nat) : spmAt (writeSpm s g off data) g k = if off ≤ k ∧ k < off + data.length then data[k - off]?.getD 0 else spmAt s g k := by
  have ht : (writeSpm s g off data).tmpls = s.tmpls := by rw [writeSpm_eq h, modGroup_tmpls]
  rw [spmAt, group?_writeSpm h, spmAt, h]
  exact spmByte_wroteSpm ht gr hin k

theorem spmBytes_eq {s : State} {g : Nat} {gr : Group} (h : group? s g = some gr) (off n : Nat) :
    spmBytes s gr off n = (List.range n).map fun k => spmAt s g (off + k) := by
  simp only [spmBytes, spmAt, h]

theorem KeepsPlace.writeSpm {e : Env} {v : State} (h : KeepsPlace e v) (off : Nat) (data : List Byte) : KeepsPlace e (writeSpm v e.g off data) := by
  obtain ⟨gr, wp, hg, hrest⟩ := h
  obtain ⟨m, ps, bad, past, hw, -⟩ := wroteSpm_only v gr off data
  exact ⟨_, wp, group?_writeSpm hg off data, by rw [hw]; exact hrest⟩

/-! ## The lanes of a word write -/

section
variable {e : Env} {s u : State} {n : Nat} {data : Nat → List Byte} {as : List (Nat × Nat)}

theorem scratchWritten_nil (h : group? s e.g = some e.gr) : ScratchWritten e s s [] n data :=
  ⟨rfl, fun _ _ => rfl, fun _ => rfl, ⟨e.gr, h, rfl, fun _ hq => hq⟩, fun _ _ => rfl, fun _ _ before _ h => by cases before <;> cases h⟩

/-- One lane more has written. -/
theorem ScratchWritten.snoc (h : ScratchWritten e s u as n data) (x : Nat × Nat) (hn : (data x.1).length = n) (hin : x.2 % 256 + n ≤ 256) :
    ScratchWritten e s (writeSpm u e.g x.2 (data x.1)) (as ++ [x]) n data := by
  obtain ⟨hu, hg, hc, ⟨gr, hgr, hkeep, hbad⟩, hout, hlast⟩ := h
  have hat := spmAt_writeSpm hgr (off := x.2) (data := data x.1) (by rw [hn]; exact hin)
  rw [hn] at hat
  have hmod := writeSpm_eq hgr x.2 (data x.1)
  refine ⟨?_, fun g hne => ?_, fun c => ?_, ⟨_, group?_writeSpm hgr x.2 (data x.1), ?_⟩, fun k hk => ?_, fun l o before after heq k h1 h2 hafter => ?_⟩
  · rw [hmod, modGroup_only, hu]
  · rw [hmod, group?_modGroup_ne _ _ hne, hg g hne]
  · rw [hmod, core_modGroup, hc c]
  · obtain ⟨m, ps, bad, past, hw, hsub⟩ := wroteSpm_only u gr x.2 (data x.1)
    rw [hw]
    have := congrArg (fun y : Group => { y with spmBad := bad }) hkeep
    exact ⟨this, fun q hq => hbad q (hsub q hq)⟩
  · have hx := hk x (by simp)
    rw [hat, if_neg (by omega)]
    exact hout k fun p hp => hk p (List.mem_append_left _ hp)
  · obtain rfl | ⟨after', y, rfl⟩ := after.eq_nil_or_concat'
    · obtain ⟨-, hx⟩ := List.append_inj' heq rfl
      obtain rfl : x = (l, o) := by simpa using hx
      rw [hat, if_pos ⟨h1, h2⟩]
    · rw [← List.cons_append, ← List.append_assoc] at heq
      obtain ⟨has, hxy⟩ := List.append_inj' heq rfl
      obtain rfl : x = y := by simpa using hxy
      have hx := hafter x (by simp)
      rw [hat, if_neg (by omega)]
      exact hlast l o before after' has k h1 h2 fun p hp => hafter p (List.mem_append_left _ hp)

/-- The lanes of a word write one after the other, each what it may read off the state that the lanes before it leave. -/
theorem scratchWritten_foldl {put : State → Nat × Nat → List Byte} (hs : group? s e.g = some e.gr) (hn : ∀ l, (data l).length = n)
    (hin : ∀ x ∈ as, x.2 % 256 + n ≤ 256)
    (hput : ∀ before x after v, as = before ++ x :: after → ScratchWritten e s v before n data → put v x = data x.1) :
    ScratchWritten e s (as.foldl (fun v x => writeSpm v e.g x.2 (put v x)) s) as n data := by
  suffices key : ∀ (after before : List (Nat × Nat)) (v : State), as = before ++ after → ScratchWritten e s v before n data →
      ScratchWritten e s (after.foldl (fun v x => writeSpm v e.g x.2 (put v x)) v) as n data from
    key as [] s rfl (scratchWritten_nil hs)
  intro after
  induction after with
  | nil => intro before v heq hv; rw [heq, List.append_nil]; exact hv
  | cons x after ih =>
    intro before v heq hv
    rw [List.foldl_cons, hput before x after v heq hv]
    exact ih (before ++ [x]) _ (by rw [heq, List.append_assoc]; rfl) (hv.snoc x (hn _) (hin x (by rw [heq]; simp)))

/-- The counters of the banks are no part of it (R198, R368). -/
theorem ScratchWritten.countBanks (h : ScratchWritten e s u as n data) (m : Nat) (at_ : List (Nat × Nat)) :
    ScratchWritten e s (countBanks e u m at_) as n data := by
  obtain ⟨hu, hg, hc, hgr, hout, hlast⟩ := h
  obtain ⟨htag, hperf⟩ : Tagged u (Machine.countBanks e u m at_) := tagged_countEvent ..
  have hgroups : (Machine.countBanks e u m at_).groups = u.groups := countEvent_groups ..
  have hat (k : Nat) : spmAt (Machine.countBanks e u m at_) e.g k = spmAt u e.g k := by
    rw [spmAt, spmAt, group?_congr hgroups, htag]; rfl
  refine ⟨?_, fun g hne => (group?_congr hgroups g).trans (hg g hne), fun c => ?_, ?_, fun k hk => (hat k).trans (hout k hk),
    fun l o before after heq k h1 h2 ha => (hat k).trans (hlast l o before after heq k h1 h2 ha)⟩
  · rw [Machine.countBanks, countEvent_only, hu]
  · show { core (Machine.countBanks e u m at_) c with perf := (core s c).perf } = core s c
    rw [← hc c, ← hperf c]
  · rw [group?_congr hgroups]; exact hgr

end

end Sys2Proof.Machine
end

section
/-! PROOFS. The byte-count words (R225, R226, R414). -/

namespace Sys2Proof.Machine

section
variable {i : Instr} {s : State} {e : Env} {rel w add : Bool} {sc : Scope} {h : Hdr} {a b : Reg} {off : BitVec 8}

/-- What a lane of a byte-count word puts into its barrier, as the state v has it (R225). -/
def bcPut (e : Env) (s : State) (w add : Bool) (b : Reg) (v : State) (x : Nat × Nat) : List Byte :=
  leBytes 8 (if add then leNat (spmBytes v (e.now v) x.2 8) + (bcCount e s w add b x.1).toNat else (bcCount e s w add b x.1).toNat)

/-- A byte-count word checks its lanes and then puts their barriers one after the other. -/
theorem bcWord_eq (hi : Issues i s e) : bcWord i s w add a b off =
    finish e i (lanesThen e s (fun u l => pureLane u (if add then spmRead e s a off 8 l else spmAddr e s a off 8 l)) fun u at_ =>
      .done (countBanks e (at_.foldl (fun v x => writeSpm v e.g x.2 (bcPut e s w add b v x)) u) 8 at_)) s := by
  rw [bcWord, runWord_issues hi]; rfl

/-- A lane's barrier is where its word may go on with it (R184, R201, R414). -/
def BarrierOk (s : State) (e : Env) (add : Bool) (a : Reg) (off : BitVec 8) (l : Nat) : Prop :=
  SpmFits s e a off 8 l ∧ spmOff s e a off 8 l % 8 = 0 ∧ (add = true → spmError e.gr (spmOff s e a off 8 l).toNat 8 = none)

/-- The offsets of the barriers by lane. -/
def barriers (s : State) (e : Env) (a : Reg) (off : BitVec 8) : List (Nat × Nat) := (lanesOf e.live).map fun l => (l, (spmOff s e a off 8 l).toNat)

theorem bcWord_lanes (hi : Issues i s e) (hok : ∀ l, bit e.live l = true → BarrierOk s e add a off l) : bcWord i s w add a b off =
    finish e i (.done (countBanks e ((barriers s e a off).foldl (fun v x => writeSpm v e.g x.2 (bcPut e s w add b v x)) s) 8 (barriers s e a off))) s := by
  rw [bcWord_eq hi, lanesThen_ok (eachLane_pure _ fun l hl => ?_)]
  · rfl
  · obtain ⟨hf, ha, he⟩ := hok l ((mem_lanesOf ..).mp hl)
    have haddr : spmAddr e s a off 8 l = .ok (spmOff s e a off 8 l).toNat := by rw [spmAddr_fits hf, if_neg (by simpa using ha)]
    cases add with
    | false => exact haddr
    | true => rw [if_pos rfl, spmRead_aligned hf ha, he rfl]

/-- An aligned barrier lies in one granule. -/
theorem barriers_in_granule (hok : ∀ l, bit e.live l = true → BarrierOk s e add a off l) : ∀ x ∈ barriers s e a off, x.2 % 256 + 8 ≤ 256 := by
  intro x hx
  obtain ⟨l, hl, rfl⟩ := List.mem_map.mp hx
  obtain ⟨⟨h0, -⟩, ha, -⟩ := hok l ((mem_lanesOf ..).mp hl)
  dsimp only
  omega

/-- Barriers of lanes that keep apart have no byte in common. -/
theorem barriers_apart (hok : ∀ l, bit e.live l = true → BarrierOk s e add a off l)
    (hapart : ∀ l k, bit e.live l = true → bit e.live k = true → spmOff s e a off 8 l = spmOff s e a off 8 k → l = k) {before after : List (Nat × Nat)}
    {x : Nat × Nat} (heq : barriers s e a off = before ++ x :: after) : ∀ p ∈ before, x.2 + 8 ≤ p.2 ∨ p.2 + 8 ≤ x.2 := by
  intro p hp
  have hkeys : (lanesOf e.live) = before.map (·.1) ++ x.1 :: after.map (·.1) := by
    have := congrArg (List.map (·.1)) heq
    simpa [barriers, Function.comp_def] using this
  have hne : p.1 ≠ x.1 := by
    have hnd := hkeys ▸ nodup_lanesOf e.live
    exact fun hpx => (List.nodup_append.mp hnd).2.2 p.1 (List.mem_map_of_mem hp) x.1 (List.mem_cons_self ..) hpx
  have hof (q : Nat × Nat) (hq : q ∈ barriers s e a off) : bit e.live q.1 = true ∧ q.2 = (spmOff s e a off 8 q.1).toNat := by
    obtain ⟨l, hl, rfl⟩ := List.mem_map.mp hq
    exact ⟨(mem_lanesOf ..).mp hl, rfl⟩
  obtain ⟨hpl, hpo⟩ := hof p (by rw [heq]; exact List.mem_append_left _ hp)
  obtain ⟨hxl, hxo⟩ := hof x (by rw [heq]; simp)
  obtain ⟨⟨hp0, -⟩, hpa, -⟩ := hok p.1 hpl
  obtain ⟨⟨hx0, -⟩, hxa, -⟩ := hok x.1 hxl
  have hoff : spmOff s e a off 8 p.1 ≠ spmOff s e a off 8 x.1 := fun ho => hne (hapart _ _ hpl hxl ho)
  omega

/-- The barrier of a lane, as the word finds it. -/
def barrierAt (s : State) (e : Env) (a : Reg) (off : BitVec 8) (l : Nat) : Nat :=
  leNat ((List.range 8).map fun k => spmAt s e.g ((spmOff s e a off 8 l).toNat + k))

/-- A barrier that the lanes before have not written reads as at the start. -/
theorem bcPut_unwritten {v : State} {before : List (Nat × Nat)} {data : Nat → List Byte} {l : Nat} (hv : ScratchWritten e s v before 8 data)
    (hfree : ∀ p ∈ before, (spmOff s e a off 8 l).toNat + 8 ≤ p.2 ∨ p.2 + 8 ≤ (spmOff s e a off 8 l).toNat) :
    bcPut e s w true b v (l, (spmOff s e a off 8 l).toNat) = leBytes 8 (barrierAt s e a off l + (bcCount e s w true b l).toNat) := by
  obtain ⟨-, -, -, ⟨gr, hgr, -⟩, hout, -⟩ := hv
  have hread : spmBytes v (e.now v) (spmOff s e a off 8 l).toNat 8 = (List.range 8).map fun k => spmAt s e.g ((spmOff s e a off 8 l).toNat + k) := by
    rw [show e.now v = gr by rw [Env.now, hgr]; rfl, spmBytes_eq hgr]
    refine List.map_congr_left fun k hk => hout _ fun p hp => ?_
    have := List.mem_range.mp hk
    have := hfree p hp
    omega
  rw [bcPut, if_pos rfl, hread]; rfl

theorem bcCount_init (l : Nat) : (bcCount e s w false b l).toNat = if w then (e.d s b l).toNat else (e.v s b l).toNat := by
  cases w
  · exact (BitVec.toNat_setWidth ..).trans (Nat.mod_eq_of_lt ((e.v s b l).isLt.trans (by decide)))
  · rfl

theorem bcPut_count (v : State) (x : Nat × Nat) : bcPut e s w false b v x = leBytes 8 (bcCount e s w false b x.1).toNat := rfl

theorem keepsPlace_barriers (hi : Issues i s e) : KeepsPlace e
    (countBanks e ((barriers s e a off).foldl (fun v x => writeSpm v e.g x.2 (bcPut e s w add b v x)) s) 8 (barriers s e a off)) :=
  (keepsPlace_foldl (fun _ _ hv => hv.writeSpm ..) _ (keepsPlace_of_here (issues_here hi))).of_groups (countEvent_groups ..)

theorem bcinit_puts (hi : Issues (.bcinit h rel sc w a b off) s e) (hok : ∀ l, bit e.live l = true → BarrierOk s e false a off l) :
    ∃ u, CompletesOn (.bcinit h rel sc w a b off) s e u noResult ∧
      ScratchWritten e s u (barriers s e a off) 8 fun l => leBytes 8 (bcCount e s w false b l).toNat :=
  ⟨_, completesOn_kept hi (keepsPlace_barriers (w := w) (add := false) (b := b) hi) (fun _ _ _ => rfl) (bcWord_lanes hi hok),
    (scratchWritten_foldl (issues_here hi).1 (fun _ => length_leBytes ..) (barriers_in_granule hok) fun _ x _ v _ _ => bcPut_count v x).countBanks ..⟩

theorem bcadd_adds (hi : Issues (.bcadd h rel sc w a b off) s e) (hok : ∀ l, bit e.live l = true → BarrierOk s e true a off l) :
    ∃ u, CompletesOn (.bcadd h rel sc w a b off) s e u noResult ∧
      ((∀ l k, bit e.live l = true → bit e.live k = true → spmOff s e a off 8 l = spmOff s e a off 8 k → l = k) →
        ScratchWritten e s u (barriers s e a off) 8 fun l => leBytes 8 (barrierAt s e a off l + (bcCount e s w true b l).toNat)) := by
  refine ⟨_, completesOn_kept hi (keepsPlace_barriers (w := w) (add := true) (b := b) hi) (fun _ _ _ => rfl) (bcWord_lanes hi hok), fun hapart => ?_⟩
  refine (scratchWritten_foldl (issues_here hi).1 (fun _ => length_leBytes ..) (barriers_in_granule hok) fun before x after v heq hv => ?_).countBanks ..
  have hx : x ∈ barriers s e a off := by rw [heq]; simp
  obtain ⟨l, -, rfl⟩ := List.mem_map.mp hx
  exact bcPut_unwritten hv fun p hp => barriers_apart hok hapart heq p hp

/-- The faults of the lowest lane's barrier: alignment, and for BCADD an error in it (R184, R414). -/
theorem bcWord_faults (hi : Issues i s e) (hx : exec i s = bcWord i s w add a b off) {l : Nat} (hl : leader e.live = some l) (hf : SpmFits s e a off 8 l) :
    (spmOff s e a off 8 l % 8 ≠ 0 → FaultsFirst i s e s .align (BitVec.ofInt 64 (spmOff s e a off 8 l)) 0) ∧
    (add = true → spmOff s e a off 8 l % 8 = 0 → (spmError e.gr (spmOff s e a off 8 l).toNat 8).isSome = true →
      FaultsFirst i s e s .eccu (BitVec.ofInt 64 (spmOff s e a off 8 l)) 0) := by
  refine ⟨fun ha => ?_, fun hadd ha he => ?_⟩
  · have haddr : spmAddr e s a off 8 l = .error (some (.align, BitVec.ofInt 64 (spmOff s e a off 8 l), 0)) := by
      rw [spmAddr_fits hf, if_pos (by simpa using ha)]
    refine faultsFirst_of_lane (hx.trans (bcWord_eq hi)) hl ?_
    cases add with
    | false => rw [if_neg (by decide), haddr]; rfl
    | true => rw [if_pos rfl, spmRead_addr_error haddr]; rfl
  · subst hadd
    have hcast : BitVec.ofNat 64 (spmOff s e a off 8 l).toNat = BitVec.ofInt 64 (spmOff s e a off 8 l) := by
      rw [← BitVec.ofInt_natCast, Int.toNat_of_nonneg hf.1]
    exact faultsFirst_of_lane (hx.trans (bcWord_eq hi)) hl (by rw [if_pos rfl, spmRead_aligned hf ha, spmError_eq he, ← hcast]; rfl)

end

/-- Settles O33: the lanes' barriers are put one after the other, and those of lanes that keep apart read as the word finds them. -/
theorem byteCountWordsComplete : Obligations.ByteCountWordsComplete := by
  unfold Obligations.ByteCountWordsComplete
  intro s e h rel sc w a b off at_ ok sound apart places
  refine ⟨fun hi hok => ?_, fun hi hok hsound => ?_, fun l hl h0 h1 => ⟨fun hi => ?_, fun hi => ?_, fun hi => ?_⟩⟩
  · obtain ⟨u, hc, hw⟩ := bcinit_puts hi fun l hl => ⟨⟨(hok l hl).1, (hok l hl).2.1⟩, (hok l hl).2.2, fun hn => by cases hn⟩
    refine ⟨u, hc, ?_⟩
    simp only [bcCount_init] at hw
    exact hw
  · exact bcadd_adds hi fun l hl => ⟨⟨(hok l hl).1, (hok l hl).2.1⟩, (hok l hl).2.2, fun _ => hsound l hl⟩
  · exact (bcWord_faults (add := false) hi rfl hl ⟨h0, h1⟩).1
  · exact (bcWord_faults (add := true) hi rfl hl ⟨h0, h1⟩).1
  · exact (bcWord_faults (add := true) hi rfl hl ⟨h0, h1⟩).2 rfl

end Sys2Proof.Machine
end

section
/-! PROOFS. WAITA and WAKEA (R220 to R223, R414). -/

namespace Sys2Proof.Machine

/-! ## The condition of a WAITA -/

/-- The condition of a WAITA over numbers of 32 or 64 bits (R221). -/
def WaitCond.Meets (cond : WaitCond) (w : Bool) (x y : Nat) : Prop := match cond with
  | .eq => x = y
  | .ne => x ≠ y
  | .leS => (BitVec.ofNat (8 * if w then 8 else 4) x).toInt ≤ (BitVec.ofNat (8 * if w then 8 else 4) y).toInt
  | .geZ => y ≤ x

theorem WaitCond.holds_iff (cond : WaitCond) (w : Bool) {x y : Nat} (hx : x < 2 ^ (8 * if w then 8 else 4)) (hy : y < 2 ^ (8 * if w then 8 else 4)) :
    WaitCond.holds cond w (BitVec.ofNat 64 x) (BitVec.ofNat 64 y) = true ↔ WaitCond.Meets cond w x y := by
  have hle : 2 ^ (8 * if w then 8 else 4) ≤ 2 ^ 64 := by cases w <;> decide
  have hnum {z : Nat} (hz : z < 2 ^ (8 * if w then 8 else 4)) : (BitVec.ofNat 64 z).toNat = z :=
    (BitVec.toNat_ofNat ..).trans (Nat.mod_eq_of_lt (hz.trans_le hle))
  have heq : BitVec.ofNat 64 x = BitVec.ofNat 64 y ↔ x = y := by rw [← BitVec.toNat_inj, hnum hx, hnum hy]
  cases cond with
  | eq => exact beq_iff_eq.trans heq
  | ne => exact bne_iff_ne.trans (not_congr heq)
  | leS =>
    unfold WaitCond.holds WaitCond.Meets
    cases w <;> simp only [hnum hx, hnum hy, decide_eq_true_eq] <;> rfl
  | geZ =>
    unfold WaitCond.holds WaitCond.Meets
    simp only [hnum hx, hnum hy, decide_eq_true_eq]

theorem wideRead_lt (s : State) (gr : Group) (wp : Warp) (l : Nat) : ∀ (n r : Nat), wideRead s gr wp r l n < 2 ^ (32 * n)
  | 0, _ => Nat.one_pos
  | n + 1, r => by
    have hlow := (regRead s gr wp r l).isLt
    have hhigh := wideRead_lt s gr wp l n (r + 1)
    rw [wideRead, show 2 ^ (32 * (n + 1)) = 2 ^ 32 * 2 ^ (32 * n) from by rw [Nat.mul_succ, Nat.add_comm, pow_add]]
    nlinarith

/-! ## Locations read -/

/-- A location as a WAITA starts to watch it, with its comparand (R221). -/
def startWatch (s : State) (e : Env) (b : Reg) (w : Bool) (l k : Nat) : Watch :=
  { lane := l, addr := k, cmp := BitVec.ofNat 64 (wideRead s e.gr e.wp b.toNat l (wide w)), done := false, met := false }

/-- A location as a read leaves it that finds the value x. -/
def sawValue (cond : WaitCond) (w : Bool) (x : DWord) (y : Watch) : Watch :=
  { y with met := WaitCond.holds cond w x y.cmp, done := WaitCond.holds cond w x y.cmp }

theorem rewatch_ok {s : State} {gr : Group} {spm w : Bool} {cond : WaitCond} {val : Nat → DWord} : ∀ {locs : List Watch},
    (∀ x ∈ locs, x.done = false ∧ watchRead s gr spm w x.addr x.lane = .ok (val x.lane)) →
    rewatch s gr spm w cond false (fun _ => true) locs = .ok (locs.map fun x => sawValue cond w (val x.lane) x)
  | [], _ => rfl
  | x :: r, h => by
    obtain ⟨hdone, hread⟩ := h x (List.mem_cons_self ..)
    rw [rewatch, rewatch_ok fun y hy => h y (List.mem_cons_of_mem _ hy)]
    simp only [hdone, hread, Bool.not_true, Bool.or_false, Bool.false_eq_true, if_false]
    rfl

theorem heardOnly_foldl {α : Type} {e : Env} {s : State} {f : State → α → State} (hf : ∀ u x, HeardOnly e s u → HeardOnly e s (f u x)) (xs : List α)
    {u : State} (h : HeardOnly e s u) : HeardOnly e s (xs.foldl f u) := by
  induction xs generalizing u with
  | nil => exact h
  | cons x xs ih => exact ih (hf u x h)

theorem heardOnly_watchLearn {e : Env} {s u : State} (h : HeardOnly e s u) (b : State) (acq : Bool) (sc : Scope) (spm w : Bool) (ls : List Watch) :
    HeardOnly e s (watchLearn b e acq sc spm w ls u) := by
  refine heardOnly_foldl (fun v x hv => ?_) ls h
  dsimp only
  split
  · exact heardOnly_readCredit hv ..
  · exact heardOnly_afterRead hv ..

/-- Lanes that only read, whatever the state they read, leave it to the lanes after them. -/
theorem eachLane_still {s : State} (f : State → Nat → Except LaneFault Nat) {v : Nat → Nat} : ∀ {ls : List Nat}, (∀ l ∈ ls, f s l = .ok (v l)) →
    eachLane (fun u l => pureLane u (f u l)) ls s = ([], s, ls.map fun l => (l, v l))
  | [], _ => rfl
  | l :: ls, hf => by
    have ih := eachLane_still f (v := v) fun j hj => hf j (List.mem_cons_of_mem _ hj)
    have hl : pureLane s (f s l) = .ok (s, v l) := by rw [hf l (List.mem_cons_self ..)]; rfl
    simp only [eachLane, hl, ih, List.map_cons]

/-! ## WAITA -/

/-- The place of a location is in the scratchpad. -/
def Place.inSpm : Place → Bool
  | .spm _ => true
  | .mem _ => false

/-- What the lanes that meet their condition tell, after the tags of the accesses (R230 to R232). -/
def waitaLearns (e : Env) (t u : State) (acq : Bool) (sc : Scope) (w : Bool) (p : Place) (ls : List Watch) : State :=
  watchLearn u e acq sc (Place.inSpm p) w (newlyMet [] ls) (if Place.inSpm p then u else noteAccess t e .load 0 ((lanesOf e.live).map fun l => match p with
    | .mem r => e.d t r l
    | .spm _ => 0) (if w then 8 else 4) u)

/-- The core has watch entries for the locations, and their homes take them (R222). -/
def waitaRoom (e : Env) (u : State) (p : Place) (ls : List Watch) : Bool :=
  decide (watchesOn u e.gr.core + ls.length ≤ 64) && !(ls.any fun x => !(Place.inSpm p) &&
    ((decide (3 ≤ x.addr / 2 ^ 58) && decide (x.addr / 2 ^ 58 ≤ 10)) || (x.addr / 2 ^ 58 == 1 && !cxl u)))

/-- A WAITA whose locations have been read goes on, or waits with them (R221). -/
def waitaEnds (e : Env) (v : State) (cond : WaitCond) (w : Bool) (p : Place) (d : Reg) (tmo : Option Reg) (ls : List Watch) : WordRes :=
  if ls.all (·.done) then .done (writeLanes e v d.toNat 1 fun _ => 1)
  else .hold { v with seqs := v.seqs + 1 } (.waita (Place.inSpm p) w cond d.toNat tmo.isSome (waitaRoom e v p ls) v.seqs ls) e.atPc

/-- What a WAITA does at the places of its lanes (R220, R221). -/
def waitaAct (e : Env) (t : State) (acq : Bool) (sc : Scope) (cond : WaitCond) (w : Bool) (p : Place) (d b : Reg) (tmo : Option Reg) (u : State)
    (at_ : List (Nat × Nat)) : WordRes :=
  match rewatch u e.gr (Place.inSpm p) w cond false (fun _ => true) (at_.map fun x => startWatch t e b w x.1 x.2) with
  | .error (lane, a) => .trap t .eccu (maskOf (· == lane)) a 0
  | .ok ls => waitaEnds e (waitaLearns e t u acq sc w p ls) cond w p d tmo ls

section
variable {h : Hdr} {acq : Bool} {sc : Scope} {cond : WaitCond} {w : Bool} {p : Place} {d b : Reg} {tmo : Option Reg} {s : State} {e : Env}

theorem exec_waita (hi : Issues (.waita h acq sc cond w p d b tmo) s e) : exec (.waita h acq sc cond w p d b tmo) s =
    finish e (.waita h acq sc cond w p d b tmo) (if e.live = 0 then .done s else if e.fixed && tmo.isSome then .trap s .ndet e.live 0 0
      else lanesThen e s (fun u l => pureLane u (watchChecked u e p w l)) (waitaAct e s acq sc cond w p d b tmo)) s := by
  show execWaita h acq sc cond w p d b tmo s = _
  unfold execWaita
  rw [runWord_issues hi]
  rfl

theorem waita_idle (hi : Issues (.waita h acq sc cond w p d b tmo) s e) (hl : e.live = 0) :
    Completes (.waita h acq sc cond w p d b tmo) s e noResult := by
  rw [Completes, exec_waita hi, if_pos hl]
  exact finish_done_completes hi

theorem waita_limit_faults (hi : Issues (.waita h acq sc cond w p d b tmo) s e) (hl : e.live ≠ 0) (hf : e.fixed = true) (ht : tmo.isSome = true) :
    Faults (.waita h acq sc cond w p d b tmo) s e .ndet e.live 0 0 := by
  rw [Faults, exec_waita hi, if_neg hl, if_pos (by rw [hf, ht]; rfl)]
  rfl

/-- A WAITA that may run reads its lanes' locations. -/
theorem exec_waita_lanes (hi : Issues (.waita h acq sc cond w p d b tmo) s e) (hl : e.live ≠ 0) (hn : e.fixed = false ∨ tmo = none) :
    exec (.waita h acq sc cond w p d b tmo) s = finish e (.waita h acq sc cond w p d b tmo)
      (lanesThen e s (fun u l => pureLane u (watchChecked u e p w l)) (waitaAct e s acq sc cond w p d b tmo)) s := by
  rw [exec_waita hi, if_neg hl, if_neg (by obtain hn | rfl := hn <;> simp [*])]

theorem watchChecked_eq (hh : Here e s) {l k : Nat} (hp : watchPlace s e p (if w then 8 else 4) 0 1 l = .ok k) : watchChecked s e p w l =
    match watchRead s e.gr (Place.inSpm p) w k l with
    | .error a => bad .eccu a 0
    | .ok _ => .ok k := by
  have hnow : e.now s = e.gr := by rw [Env.now, hh.1]; rfl
  unfold watchChecked
  rw [hp, hnow]
  rfl

/-- An uncorrectable error in the location of the lowest lane faults WAITA (R221, R414). -/
theorem waita_eccu_faults (hi : Issues (.waita h acq sc cond w p d b tmo) s e) {l k : Nat} {x : DWord} (hl : leader e.live = some l)
    (hn : e.fixed = false ∨ tmo = none) (hp : watchPlace s e p (if w then 8 else 4) 0 1 l = .ok k)
    (hr : watchRead s e.gr (Place.inSpm p) w k l = .error x) : FaultsFirst (.waita h acq sc cond w p d b tmo) s e s .eccu x 0 := by
  have hlive : e.live ≠ 0 := by
    intro h0
    have hno : leader (0 : Mask) = none := by decide
    rw [h0, hno] at hl
    cases hl
  refine faultsFirst_of_lane (exec_waita_lanes hi hlive hn) hl ?_
  rw [watchChecked_eq (issues_here hi) hp, hr]
  rfl

/-- The locations as a WAITA has read them. -/
def waitaRead (s : State) (e : Env) (cond : WaitCond) (w : Bool) (b : Reg) (key : Nat → Nat) (val : Nat → DWord) : List Watch :=
  (lanesOf e.live).map fun l => sawValue cond w (val l) (startWatch s e b w l (key l))

/-- A WAITA whose locations can be read goes on or waits with what it has read. -/
theorem waita_reads (hi : Issues (.waita h acq sc cond w p d b tmo) s e) (hl : e.live ≠ 0) (hn : e.fixed = false ∨ tmo = none) {key : Nat → Nat}
    {val : Nat → DWord} (hr : ∀ l, bit e.live l = true → watchPlace s e p (if w then 8 else 4) 0 1 l = .ok (key l) ∧
      watchRead s e.gr (Place.inSpm p) w (key l) l = .ok (val l)) :
    exec (.waita h acq sc cond w p d b tmo) s = finish e (.waita h acq sc cond w p d b tmo)
      (waitaEnds e (waitaLearns e s s acq sc w p (waitaRead s e cond w b key val)) cond w p d tmo (waitaRead s e cond w b key val)) s := by
  have hlanes : eachLane (fun u l => pureLane u (watchChecked u e p w l)) (lanesOf e.live) s = ([], s, (lanesOf e.live).map fun l => (l, key l)) := by
    refine eachLane_still (fun u => watchChecked u e p w) fun l hl => ?_
    obtain ⟨hp, hv⟩ := hr l ((mem_lanesOf ..).mp hl)
    rw [watchChecked_eq (issues_here hi) hp, hv]
  have hlocs : rewatch s e.gr (Place.inSpm p) w cond false (fun _ => true)
      (((lanesOf e.live).map fun l => (l, key l)).map fun x => startWatch s e b w x.1 x.2) = .ok (waitaRead s e cond w b key val) := by
    rw [List.map_map, rewatch_ok (val := val), List.map_map]
    · rfl
    · intro x hx
      obtain ⟨l, hl, rfl⟩ := List.mem_map.mp hx
      exact ⟨rfl, (hr l ((mem_lanesOf ..).mp hl)).2⟩
  rw [exec_waita_lanes hi hl hn, lanesThen_ok hlanes, waitaAct, hlocs]

theorem readNoted_waitaLearns (hh : Here e s) (ls : List Watch) : ReadNoted e s (waitaLearns e s s acq sc w p ls) := by
  unfold waitaLearns
  set t := if Place.inSpm p then s else _ with ht
  have htag : Tagged s t := by
    rw [ht]
    split
    · exact ⟨rfl, fun _ => rfl⟩
    · exact tagged_noteAccess ..
  exact readNoted_of hh htag (heardOnly_watchLearn (heardOnly_refl (here_of_tagged hh htag)) ..) ⟨rfl, fun _ => rfl⟩

/-- Every lane has met its condition: WAITA goes on with 1 (R221). -/
theorem waita_goes_on (hi : Issues (.waita h acq sc cond w p d b tmo) s e) {ls : List Watch} (hdone : ls.all (·.done) = true)
    (hx : exec (.waita h acq sc cond w p d b tmo) s = finish e (.waita h acq sc cond w p d b tmo)
      (waitaEnds e (waitaLearns e s s acq sc w p ls) cond w p d tmo ls) s) :
    ∃ v, ReadNoted e s v ∧ CompletesOn (.waita h acq sc cond w p d b tmo) s e v (resultIn e d 1 fun _ => 1) := by
  have hv := readNoted_waitaLearns (acq := acq) (sc := sc) (w := w) (p := p) (issues_here hi) ls
  refine ⟨_, hv, completesOn_kept_writes hi (keepsPlace_of_readNoted (issues_here hi) hv) (fun _ _ _ => rfl) d 1 _ ?_⟩
  rw [hx, waitaEnds, if_pos hdone]

/-- Some lane has not: WAITA waits with the locations as it has read them (R221). -/
theorem waita_waits (hi : Issues (.waita h acq sc cond w p d b tmo) s e) {ls : List Watch} (hdone : ¬ ls.all (·.done) = true)
    (hx : exec (.waita h acq sc cond w p d b tmo) s = finish e (.waita h acq sc cond w p d b tmo)
      (waitaEnds e (waitaLearns e s s acq sc w p ls) cond w p d tmo ls) s) :
    ∃ v room, ReadNoted e s v ∧ HoldsOn (.waita h acq sc cond w p d b tmo) s e { v with seqs := s.seqs + 1 }
      (.waita (Place.inSpm p) w cond d.toNat tmo.isSome room s.seqs ls) e.atPc := by
  have hv := readNoted_waitaLearns (acq := acq) (sc := sc) (w := w) (p := p) (issues_here hi) ls
  have hseqs : (waitaLearns e s s acq sc w p ls).seqs = s.seqs := by rw [hv.1.1]
  have hkeep : KeepsPlace e { waitaLearns e s s acq sc w p ls with seqs := s.seqs + 1 } :=
    (keepsPlace_of_readNoted (issues_here hi) hv).of_groups rfl
  refine ⟨waitaLearns e s s acq sc w p ls, waitaRoom e (waitaLearns e s s acq sc w p ls) p ls, hv, holdsOn_kept hi hkeep (fun _ _ _ => rfl) _ _ ?_⟩
  rw [hx, waitaEnds, if_neg hdone, hseqs]

end

/-! ## WAKEA -/

section
variable {h : Hdr} {rel w : Bool} {sc : Scope} {p : Place} {b : Reg} {s z : State} {e : Env}

theorem wakea_faults (hi : Issues (.wakea h rel sc w p b) s e) (hl : e.live ≠ 0) (hf : e.fixed = true) :
    Faults (.wakea h rel sc w p b) s e .ndet e.live 0 0 := by
  show execWakea h rel sc w p b s = _
  unfold execWakea
  rw [runWord_issues hi, if_pos (by rw [hf, Bool.and_true, bne_iff_ne]; exact hl)]
  rfl

/-- What one lane of a WAKEA reaches: the lane groups that wait at its place, the first n of them or, where n is 0, all (R223). -/
def wakeLane (e : Env) (z : State) (spm : Bool) (bytes : Nat) (key n : Nat) (x : State) : State :=
  let at_ := watchKey z e.gr spm key
  let ws := waiters x e spm at_ bytes
  (if n = 0 then ws else ws.take n).foldl (fun q y => wakeOne q at_ bytes y) x

theorem wakea_wakes (hi : Issues (.wakea h rel sc w p b) s e) (hb : Released e s rel sc z) (hn : e.fixed = false ∨ e.live = 0) {key : Nat → Nat}
    (hp : ∀ l, bit e.live l = true → watchPlace z e p (if w then 8 else 4) 0 0 l = .ok (key l)) :
    exec (.wakea h rel sc w p b) s = .next (retire s e (.wakea h rel sc w p b) (modWarp ((lanesOf e.live).foldl (fun x l =>
      wakeLane e z (Place.inSpm p) (if w then 8 else 4) (key l) (e.v z b l).toNat x) z) e.g e.w fun x => advance x e.atPc)) := by
  have hno : ¬ (e.live != 0 && e.fixed) = true := by obtain hn | hn := hn <;> simp [hn]
  have hlanes : eachLane (fun u l => pureLane u (watchPlace u e p (if w then 8 else 4) 0 0 l)) (lanesOf e.live) z =
      ([], z, (lanesOf e.live).map fun l => (l, key l)) :=
    eachLane_still (fun u => watchPlace u e p (if w then 8 else 4) 0 0) fun l hl => hp l ((mem_lanesOf ..).mp hl)
  show execWakea h rel sc w p b s = _
  unfold execWakea
  rw [runWord_issues hi, if_neg hno, afterRelease_released hb]
  dsimp only
  rw [lanesThen_ok hlanes, finish_done hi, List.foldl_map]
  rfl

end

end Sys2Proof.Machine
end

section
/-! PROOFS. FENCE, WAITA and WAKEA go on or wait (R218 to R223, R232, R233, R235, R414). -/

namespace Sys2Proof.Machine

section
variable {h : Hdr} {ord : FenceOrd} {sc : Scope} {s : State} {e : Env}

/-- What a fence waits for, in the state that its drain leaves (R219). -/
theorem fenceReady_drained (hh : Here e s) : fenceReady (fenceDrain s e.die ord sc) e.die e.g e.w ord sc = true ↔
    (ord ≠ .acq → if devScope sc = true then ∀ p ∈ (fenceDrain s e.die ord sc).pend, p.die ≠ e.die
      else ∀ p ∈ (fenceDrain s e.die ord sc).pend, p.group = e.g ∧ p.warp = e.w ∧ p.lane < 32 → p.atL1 = true) ∧
    (ord ≠ .rel → ∀ o ∈ (warpOf e (fenceDrain s e.die ord sc)).outs, ∃ n, o = .matrix n) ∧
    (sc = .die ∨ sc = .dev ∨ sc = .sys → ∀ r ∈ (fenceDrain s e.die ord sc).regions, recordsDue (fenceDrain s e.die ord sc) e.g e.w r = false) := by
  have hw : warp? (fenceDrain s e.die ord sc) e.g e.w = some e.wp := by
    obtain ⟨hg, hwp⟩ := hh
    rw [warp?, group?_congr (fenceDrain_groups e.die), hg]
    exact hwp
  rw [warpOf, hw]
  exact fenceReady_iff hw

end

section
variable {s : State} {e : Env} {cond : WaitCond} {w : Bool} {b : Reg} {key : Nat → Nat} {val : Nat → Nat}

/-- A lane's location meets its condition against the comparand that the word names (R221). -/
def LaneMeets (s : State) (e : Env) (cond : WaitCond) (w : Bool) (b : Reg) (val : Nat → Nat) (l : Nat) : Prop :=
  WaitCond.Meets cond w (val l) (wideRead s e.gr e.wp b.toNat l (wide w))

theorem sawValue_met {l : Nat} (hv : val l < 2 ^ (8 * if w then 8 else 4)) :
    (sawValue cond w (BitVec.ofNat 64 (val l)) (startWatch s e b w l (key l))).met = true ↔ LaneMeets s e cond w b val l :=
  WaitCond.holds_iff cond w hv (by
    have := wideRead_lt s e.gr e.wp l (wide w) b.toNat
    cases w <;> exact this)

theorem waitaRead_lanes : (waitaRead s e cond w b key fun l => BitVec.ofNat 64 (val l)).map (·.lane) = lanesOf e.live := by
  rw [waitaRead, List.map_map]
  exact List.map_id _

/-- The locations that a WAITA has read are done where they meet their condition. -/
theorem mem_waitaRead (hv : ∀ l, bit e.live l = true → val l < 2 ^ (8 * if w then 8 else 4)) {x : Watch}
    (hx : x ∈ waitaRead s e cond w b key fun l => BitVec.ofNat 64 (val l)) :
    x.addr = key x.lane ∧ (x.met = true ↔ LaneMeets s e cond w b val x.lane) ∧ x.done = x.met := by
  obtain ⟨l, hl, rfl⟩ := List.mem_map.mp hx
  exact ⟨rfl, sawValue_met (hv l ((mem_lanesOf ..).mp hl)), rfl⟩

theorem waitaRead_all_done (hv : ∀ l, bit e.live l = true → val l < 2 ^ (8 * if w then 8 else 4)) :
    (waitaRead s e cond w b key fun l => BitVec.ofNat 64 (val l)).all (·.done) = true ↔ ∀ l, bit e.live l = true → LaneMeets s e cond w b val l := by
  rw [waitaRead, List.all_map, List.all_eq_true]
  exact forall_congr' fun l => ⟨fun h hl => (sawValue_met (hv l hl)).mp (h ((mem_lanesOf ..).mpr hl)),
    fun h hl => (sawValue_met (hv l ((mem_lanesOf ..).mp hl))).mpr (h ((mem_lanesOf ..).mp hl))⟩

end

/-- Settles O32: a fence and a WAITA go on exactly where what they wait for has happened, and WAKEA folds over its lanes. -/
theorem fencesAndWaitsComplete : Obligations.FencesAndWaitsComplete := by
  unfold Obligations.FencesAndWaitsComplete
  refine ⟨fun s e h ord sc hi => ?_, fun s e h w p b d => ⟨fun acq sc cond tmo hi => ⟨waita_idle hi, waita_limit_faults hi, ?_, ?_⟩,
    fun rel sc z hi hb => ⟨wakea_faults hi, ?_⟩⟩⟩
  · have hready := fenceReady_drained (ord := ord) (sc := sc) (issues_here hi)
    exact ⟨fence_idle hi, fun hl hdone => fence_goes_on hi hl (hready.mpr hdone), fun hl hdone => fence_waits hi hl (mt hready.mp hdone)⟩
  · intro hl hn key val hr met hv
    have hreads := waita_reads hi hl hn (val := fun l => BitVec.ofNat 64 (val l)) hr
    have hall := waitaRead_all_done (s := s) (cond := cond) (b := b) (key := key) hv
    refine ⟨fun hmet => waita_goes_on hi (hall.mpr hmet) hreads, fun ⟨l, hlive, hmet⟩ => ?_⟩
    obtain ⟨v, room, hnoted, hholds⟩ := waita_waits hi (fun hdone => hmet (hall.mp hdone l hlive)) hreads
    exact ⟨v, room, _, hnoted, hholds, waitaRead_lanes, fun x hx => mem_waitaRead hv hx⟩
  · exact fun l k x hl hn hp hr => waita_eccu_faults hi hl hn hp hr
  · intro hn key hp
    refine ⟨_, wakea_wakes hi hb hn hp, ?_⟩
    have hzero (l : Nat) : (e.v z b l).toNat = 0 ↔ e.v z b l = 0 := by rw [← BitVec.toNat_inj]; rfl
    simp only [wakeLane, hzero]
    rfl

end Sys2Proof.Machine
end

section
/-! PROOFS. What writes that are performed leave of the regions' floors (R251), and bytes at their homes after a write there (R192, R194). -/

namespace Sys2Proof.Machine

/-! ## Floors -/

/-- The same regions are declared non-negative (R251). -/
def SameFloors (s t : State) : Prop := t.regions.map (·.nonneg) = s.regions.map (·.nonneg)

theorem SameFloors.trans {s t u : State} (h : SameFloors s t) (h' : SameFloors t u) : SameFloors s u := Eq.trans h' h

theorem sameFloors_of_regions {s t : State} (h : t.regions = s.regions) : SameFloors s t := congrArg _ h

theorem SameFloors.noFloors {s t : State} (h : SameFloors s t) (hs : NoFloors s) : NoFloors t := by
  intro r hr
  have hmem : r.nonneg ∈ s.regions.map (·.nonneg) := h ▸ List.mem_map_of_mem hr
  obtain ⟨q, hq, hqr⟩ := List.mem_map.mp hmem
  exact hqr.symm.trans (hs q hq)

theorem sameFloors_foldl {α : Type} {f : State → α → State} (hf : ∀ s x, SameFloors s (f s x)) (xs : List α) (s : State) : SameFloors s (xs.foldl f s) := by
  induction xs generalizing s with
  | nil => rfl
  | cons x xs ih => exact (hf s x).trans (ih _)

theorem sameFloors_modRegion (s : State) (c n : Nat) {f : Region → Region} (hf : ∀ r, (f r).nonneg = r.nonneg) : SameFloors s (modRegion s c n f) := by
  show (s.regions.map _).map _ = _
  rw [List.map_map]
  refine List.map_congr_left fun r _ => ?_
  dsimp only [Function.comp]
  split
  · exact hf r
  · rfl

theorem putHomeBytes_regions (s : State) (sp a : Nat) (bs : List Byte) : (putHomeBytes s sp a bs).regions = s.regions := by
  induction bs generalizing s a with
  | nil => rfl
  | cons b r ih =>
    rw [putHomeBytes, ih]
    unfold putHomeByte
    split
    · rfl
    split
    · rfl
    split <;> rfl

theorem countRecords_regions (s : State) (src : Option (Nat × Nat)) (n : Nat) : (countRecords s src n).regions = s.regions := by
  unfold countRecords
  split
  · split
    · split
      · rfl
      · rw [countEvent_only]
    · rfl
  · rfl

theorem sameFloors_sendRecords (s0 s1 : State) (a n : Nat) (src : Option (Nat × Nat)) (keep : Bool) (s : State) :
    SameFloors s (sendRecords s0 s1 a n src keep s) := by
  unfold sendRecords
  refine sameFloors_foldl (fun t r => ?_) _ s
  exact (sameFloors_of_regions (countRecords_regions ..)).trans (sameFloors_modRegion _ _ _ fun _ => rfl)

theorem sameFloors_homeWrite (s : State) (agent : Nat) (rel : Option View) (sp a : Nat) (data : List Byte) (src : Option (Nat × Nat)) (keep : Bool) :
    SameFloors s (homeWrite s agent rel sp a data src keep) := by
  have hdrop (t : State) : (dropOnWrite agent sp a data.length t).regions = t.regions := by unfold dropOnWrite; split <;> rfl
  have hput : SameFloors s (dropOnWrite agent sp a data.length (addVer s agent rel sp a data.length (putHomeBytes s sp a data))) :=
    sameFloors_of_regions ((hdrop _).trans (putHomeBytes_regions s sp a data))
  have hkeep (t : State) : (keepOld s (clearEcc t a data.length) a data.length).regions = t.regions := by unfold keepOld; split <;> rfl
  unfold homeWrite
  simp only
  split
  · exact (hput.trans (sameFloors_of_regions (hkeep _))).trans (sameFloors_sendRecords ..)
  · exact hput

theorem sameFloors_outsideWrite (s : State) (agent a : Nat) (data : List Byte) : SameFloors s (outsideWrite s agent a data) := by
  have hhome := sameFloors_homeWrite s agent none 11 a (keepLeaves s a data (keptLeaves s a data)) none false
  unfold outsideWrite
  simp only
  split
  · rfl
  · split <;> split <;> exact hhome

theorem sameFloors_performWrite (s : State) (p : PendWrite) : SameFloors s (performWrite s p) := by
  have hmend : SameFloors s (mendL1 s p) := by unfold mendL1; split <;> rfl
  unfold performWrite
  simp only
  split
  · exact hmend.trans (sameFloors_outsideWrite ..)
  split
  · refine hmend.trans ?_
    unfold sendPeer
    split <;> rfl
  · exact hmend.trans (sameFloors_homeWrite ..)

theorem sameFloors_drainAt (s : State) (d k n : Nat) : SameFloors s (drainAt s d k n) :=
  SameFloors.trans (t := { s with pend := (chainAt s d k n).2 }) rfl (sameFloors_foldl sameFloors_performWrite ..)

/-! ## Bytes at their homes -/

theorem homeByte_putHomeBytes {sp : Nat} (h : sp = 0 ∨ sp = 1) (bs : List Byte) (s : State) (a x : Nat) :
    homeByte (putHomeBytes s sp a bs) sp x = if a ≤ x ∧ x < a + bs.length then bs[x - a]?.getD 0 else homeByte s sp x := by
  induction bs generalizing s a with
  | nil => rw [if_neg (by simp)]; rfl
  | cons b r ih =>
    rw [putHomeBytes, ih, homeByte_putHomeByte _ _ _ _ _ h, List.length_cons]
    by_cases hx : x = a
    · subst hx; simp
    · by_cases hin : a + 1 ≤ x ∧ x < a + 1 + r.length
      · rw [if_pos hin, if_pos (by omega), show x - a = x - (a + 1) + 1 by omega, List.getElem?_cons_succ]
      · rw [if_neg hin, if_neg hx, if_neg (by omega)]

/-- Memory alone holds a byte, and no cache (R194). -/
def AtMemory (s : State) (x : Nat) (b : Byte) : Prop := sget? s.l2 x = none ∧ memByte s.mem x = b

theorem AtMemory.homeByte {s : State} {x : Nat} {b : Byte} (h : AtMemory s x b) : homeByte s 11 x = b := by
  obtain ⟨hl, hm⟩ := h
  simp [Machine.homeByte, hl, hm]

theorem atMemory_putHomeByte (s : State) (a : Nat) (b : Byte) : AtMemory (putHomeByte s 11 a b) a b :=
  ⟨sget?_sdel_self .., memByte_memPut_self ..⟩

theorem AtMemory.putHomeByte {s : State} {x : Nat} {c : Byte} (h : AtMemory s x c) {a : Nat} (hx : x ≠ a) (b : Byte) : AtMemory (putHomeByte s 11 a b) x c :=
  ⟨(sget?_sdel_ne _ hx).trans h.1, (memByte_memPut_ne _ _ hx).trans h.2⟩

theorem AtMemory.putHomeBytes {x : Nat} {c : Byte} (bs : List Byte) : ∀ {s : State} {a : Nat}, AtMemory s x c → x < a →
    AtMemory (putHomeBytes s 11 a bs) x c := by
  induction bs with
  | nil => exact fun h _ => h
  | cons b r ih => exact fun h hx => ih (h.putHomeByte (by omega) b) (by omega)

/-- An uncached write leaves its bytes in memory alone. -/
theorem atMemory_putHomeBytes (bs : List Byte) (s : State) (a : Nat) {k : Nat} (hk : k < bs.length) :
    AtMemory (putHomeBytes s 11 a bs) (a + k) (bs[k]?.getD 0) := by
  induction bs generalizing s a k with
  | nil => exact absurd hk (Nat.not_lt_zero k)
  | cons b r ih =>
    cases k with
    | zero => exact (atMemory_putHomeByte s a b).putHomeBytes r (by omega)
    | succ k =>
      have := ih (putHomeByte s 11 a b) (a + 1) (Nat.lt_of_succ_lt_succ hk)
      rwa [show a + (k + 1) = a + 1 + k by omega, List.getElem?_cons_succ]

/-- The bytes of caches and memories are the same. -/
def SameBytes (s t : State) : Prop := t.l2 = s.l2 ∧ t.mem = s.mem ∧ t.hostMem = s.hostMem

theorem SameBytes.trans {s t u : State} (h : SameBytes s t) (h' : SameBytes t u) : SameBytes s u :=
  ⟨h'.1.trans h.1, h'.2.1.trans h.2.1, h'.2.2.trans h.2.2⟩

theorem SameBytes.homeByte {s t : State} (h : SameBytes s t) {sp : Nat} (hsp : sp = 0 ∨ sp = 1) (x : Nat) : homeByte t sp x = homeByte s sp x := by
  obtain ⟨hl, hm, hh⟩ := h
  obtain rfl | rfl := hsp
  · show (sget? t.l2 x).getD (memByte t.mem x) = (sget? s.l2 x).getD (memByte s.mem x)
    rw [hl, hm]
  · show memByte t.hostMem x = memByte s.hostMem x
    rw [hh]

theorem SameBytes.atMemory {s t : State} (h : SameBytes s t) {x : Nat} {b : Byte} (hs : AtMemory s x b) : AtMemory t x b := by
  obtain ⟨hl, hm, -⟩ := h
  rwa [AtMemory, hl, hm]

theorem sameBytes_modWarp (s : State) (g w : Nat) (f : Warp → Warp) : SameBytes s (modWarp s g w f) :=
  ⟨modWarp_l2 .., modWarp_mem .., modWarp_hostMem ..⟩

theorem sameBytes_sendRecords (s0 s1 : State) (a n : Nat) (src : Option (Nat × Nat)) (keep : Bool) (s : State) :
    SameBytes s (sendRecords s0 s1 a n src keep s) := by
  have hcount (t : State) (k : Nat) : SameBytes t (countRecords t src k) := by
    unfold countRecords
    split
    · split
      · split
        · exact ⟨rfl, rfl, rfl⟩
        · rw [countEvent_only]; exact ⟨rfl, rfl, rfl⟩
      · exact ⟨rfl, rfl, rfl⟩
    · exact ⟨rfl, rfl, rfl⟩
  unfold sendRecords
  generalize s0.regions.filter _ = rs
  induction rs generalizing s with
  | nil => exact ⟨rfl, rfl, rfl⟩
  | cons r rs ih => exact ((hcount s _).trans ⟨rfl, rfl, rfl⟩).trans (ih _)

/-- A write performed at its home leaves the bytes as it puts them (R192). -/
theorem sameBytes_homeWrite (s : State) (agent : Nat) (rel : Option View) (sp a : Nat) (data : List Byte) (src : Option (Nat × Nat)) (keep : Bool) :
    SameBytes (putHomeBytes s sp a data) (homeWrite s agent rel sp a data src keep) := by
  have hdrop (t : State) : SameBytes t (dropOnWrite agent sp a data.length t) := by unfold dropOnWrite; split <;> exact ⟨rfl, rfl, rfl⟩
  have hput : SameBytes (putHomeBytes s sp a data)
      (dropOnWrite agent sp a data.length (addVer s agent rel sp a data.length (putHomeBytes s sp a data))) := SameBytes.trans ⟨rfl, rfl, rfl⟩ (hdrop _)
  have hkeep (t : State) : SameBytes t (keepOld s (clearEcc t a data.length) a data.length) := by unfold keepOld; split <;> exact ⟨rfl, rfl, rfl⟩
  unfold homeWrite
  simp only
  split
  · exact ((hput.trans (hkeep _)).trans (sameBytes_sendRecords ..)).trans ⟨rfl, rfl, rfl⟩
  · exact hput

end Sys2Proof.Machine
end

section
/-! PROOFS. One lane's read-modify-write (R212, R213, R216). -/

namespace Sys2Proof.Machine

/-! ## The die's own writes come first -/

/-- A die without pending writes has none to perform before an access. -/
theorem chainAt_none {s : State} {d : Nat} (h : ∀ p ∈ s.pend, p.die ≠ d) (k n : Nat) : chainAt s d k n = ([], s.pend) := by
  unfold chainAt chain
  generalize hl : s.pend = l
  rw [hl] at h
  clear hl
  induction l with
  | nil => rfl
  | cons p l ih =>
    rw [List.foldr_cons, ih fun q hq => h q (List.mem_cons_of_mem _ hq)]
    simp [h p (List.mem_cons_self ..)]

/-- A read-modify-write without own writes before it finds its bytes as they are (R212). -/
theorem rmwFirst_none {s : State} {e : Env} (h : ∀ p ∈ s.pend, p.die ≠ e.die) (sp a n : Nat) :
    rmwFirst s e sp a n = if sp = 2 then s else bindOver s e.die (memKey sp a) n := by
  rw [rmwFirst, drainAt, chainAt_none (s := bindOver s e.die (memKey sp a) n) h]
  rfl

theorem rmwFirst_groups (s : State) (e : Env) (sp a n : Nat) : (rmwFirst s e sp a n).groups = s.groups := by
  unfold rmwFirst
  split
  · rfl
  · exact drainAt_groups ..

theorem sameFloors_rmwFirst (s : State) (e : Env) (sp a n : Nat) : SameFloors s (rmwFirst s e sp a n) := by
  unfold rmwFirst
  split
  · rfl
  · exact sameFloors_drainAt (bindOver s e.die (memKey sp a) n) ..

theorem homeByte_rmwFirst {s : State} {e : Env} (h : ∀ p ∈ s.pend, p.die ≠ e.die) (sp a n k : Nat) :
    homeByte (rmwFirst s e sp a n) sp k = homeByte s sp k := by
  rw [rmwFirst_none h]; split <;> rfl

/-! ## What a lane answers and leaves -/

/-- The value that a lane's read-modify-write answers, as the die sees it (R212). -/
def seenValue (s : State) (e : Env) (sp a n : Nat) : Nat :=
  leNat ((List.range n).map fun k => if sp = 2 then spmAt s e.g (a + k) else viewByte s e.die sp (a + k))

theorem rmwOld_eq {s : State} {e : Env} {gr : Group} (hg : group? s e.g = some gr) (sp a n : Nat) : rmwOld s e sp a n = seenValue s e sp a n := by
  rw [rmwOld, seenValue]
  split
  · simp only [show e.now s = gr by rw [Env.now, hg]; rfl, spmBytes_eq hg]
  · rfl

theorem seenValue_rmwFirst {s : State} {e : Env} {sp : Nat} (h : sp = 2 ∨ ∀ p ∈ s.pend, p.die ≠ e.die) (a n : Nat) :
    seenValue (rmwFirst s e sp a n) e sp a n = seenValue s e sp a n := by
  obtain rfl | h := h
  · rfl
  · rw [rmwFirst_none h]; split <;> rfl

/-- The accumulator that a lane's exact addition leaves, with its region (R216). -/
def rmwAcc (z : State) (e : Env) (exact : Bool) (sp a n x : Nat) : Option (Region × ExactAcc) :=
  if exact && sp != 2 then (exactHit z sp a).map fun y => (y.1, accAdd (accOf y.1 y.2 (rmwOld z e sp a n)) x) else none

/-- The value that a lane leaves (R210, R216). -/
def rmwNew (z : State) (e : Env) (exact : Bool) (f : Nat → Nat → Nat) (sp a n x : Nat) : Nat :=
  match rmwAcc z e exact sp a n x with
  | some y => accValue y.2
  | none => f (rmwOld z e sp a n) x

/-- The leaf of a non-negative region that a lane would leave negative (R212). -/
def rmwFloor (z : State) (e : Env) (sp a n new : Nat) : Option DWord := if sp = 2 then none else negWrite z e.die sp a (leBytes n new)

section
variable {e : Env} {m : AtMod} {n : Nat} {exact : Bool} {operand : Nat → Nat} {f : Nat → Nat → Nat} {l sp a : Nat} {va : DWord}
  {r : List (Nat × (Nat × Nat × DWord))} {s : State}

/-- What a lane that performs leaves. -/
def rmwNext (e : Env) (m : AtMod) (n : Nat) (exact : Bool) (x : Nat) (f : Nat → Nat → Nat) (l sp a : Nat) (s : State) : State :=
  let z := rmwFirst s e sp a n
  rmwPut z e m l sp a n (rmwNew z e exact f sp a n x) (rmwAcc z e exact sp a n x)

/-- The lanes of a word run in order, each until one would leave a leaf negative (R212). -/
theorem rmwRun_cons : rmwRun e m n exact operand f ((l, sp, a, va) :: r) s =
    match rmwFloor (rmwFirst s e sp a n) e sp a n (rmwNew (rmwFirst s e sp a n) e exact f sp a n (operand l)) with
    | some leaf => (s, [], some (l, leaf))
    | none =>
      let rest := rmwRun e m n exact operand f r (rmwNext e m n exact (operand l) f l sp a s)
      (rest.1, (l, rmwOld (rmwFirst s e sp a n) e sp a n) :: rest.2.1, rest.2.2) := by
  rfl

/-- A lane that would leave a leaf negative stops its word. -/
theorem rmwRun_stops {leaf : DWord}
    (h : rmwFloor (rmwFirst s e sp a n) e sp a n (rmwNew (rmwFirst s e sp a n) e exact f sp a n (operand l)) = some leaf) :
    rmwRun e m n exact operand f ((l, sp, a, va) :: r) s = (s, [], some (l, leaf)) := by
  rw [rmwRun_cons, h]

theorem rmwRun_performs (h : rmwFloor (rmwFirst s e sp a n) e sp a n (rmwNew (rmwFirst s e sp a n) e exact f sp a n (operand l)) = none) :
    rmwRun e m n exact operand f ((l, sp, a, va) :: r) s =
      ((rmwRun e m n exact operand f r (rmwNext e m n exact (operand l) f l sp a s)).1,
        (l, rmwOld (rmwFirst s e sp a n) e sp a n) :: (rmwRun e m n exact operand f r (rmwNext e m n exact (operand l) f l sp a s)).2.1,
        (rmwRun e m n exact operand f r (rmwNext e m n exact (operand l) f l sp a s)).2.2) := by
  rw [rmwRun_cons, h]

end

/-! ## The scratchpad after one lane -/

theorem spmAt_modWarp (s : State) (g w : Nat) (f : Warp → Warp) (h k : Nat) : spmAt (modWarp s g w f) h k = spmAt s h k := by
  have ht : tmpl? (modWarp s g w f) = tmpl? s := by funext n; simp only [tmpl?, modWarp_tmpls]
  unfold spmAt
  by_cases hg : h = g
  · subst hg
    rw [group?_modWarp_self]
    cases group? s h with
    | none => rfl
    | some gr => simp only [Option.map_some, spmByte, ht]
  · rw [group?_modWarp_ne _ _ _ hg]
    cases group? s h with
    | none => rfl
    | some gr => simp only [spmByte, ht]

theorem spmAt_readCredit (s : State) (e : Env) (acq : Bool) (l a g k : Nat) : spmAt (readCredit e acq s l a) g k = spmAt s g k := by
  unfold readCredit
  split
  · rfl
  · dsimp only
    split
    · exact spmAt_modWarp ..
    · exact spmAt_modWarp ..

theorem group?_readCredit {s : State} {e : Env} {gr : Group} (hg : group? s e.g = some gr) (acq : Bool) (l a : Nat) :
    ∃ gr', group? (readCredit e acq s l a) e.g = some gr' := by
  unfold readCredit
  split
  · exact ⟨gr, hg⟩
  · have hmod (f : Warp → Warp) : ∃ gr', group? (modWarp s e.g e.w f) e.g = some gr' := ⟨_, by rw [group?_modWarp_self, hg]; rfl⟩
    dsimp only
    split
    · exact hmod _
    · exact hmod _

/-- A lane's scratchpad read-modify-write puts its bytes and leaves every other (R212). -/
theorem spmAt_rmwPut {s : State} {e : Env} {gr : Group} (hg : group? s e.g = some gr) (m : AtMod) {a n : Nat} (hin : a % 256 + n ≤ 256) (l new : Nat)
    (acc : Option (Region × ExactAcc)) (k : Nat) :
    spmAt (rmwPut s e m l 2 a n new acc) e.g k = if a ≤ k ∧ k < a + n then (leBytes n new)[k - a]?.getD 0 else spmAt s e.g k := by
  obtain ⟨gr', hg'⟩ := group?_readCredit hg (MOrd.isAcq m.ord) l a
  rw [rmwPut, if_pos rfl, spmAt_writeSpm hg' (by rw [length_leBytes]; exact hin), length_leBytes, spmAt_readCredit]

/-! ## Memory after one lane -/

theorem sameBytes_afterRead (s : State) (e : Env) (acq : Bool) (sc : Scope) (sp a n : Nat) (skip : List Ver) (l : Nat) :
    SameBytes s (afterRead s e acq sc sp a n skip l) := by
  have hlearn (t : State) (d : Nat) (v : View) (h : SameBytes s t) : SameBytes s (learn t d v) := h
  have hsaw : SameBytes s (sawBytes s e.die (memKey sp a) n skip) := ⟨rfl, rfl, rfl⟩
  have hheard (f : Warp → Warp) : SameBytes s (modWarp (sawBytes s e.die (memKey sp a) n skip) e.g e.w f) := hsaw.trans (sameBytes_modWarp ..)
  unfold afterRead
  simp only
  split
  · exact hsaw
  · split <;> split
    · exact hlearn _ _ _ (hlearn _ _ _ (hheard _))
    · exact hlearn _ _ _ (hheard _)
    · exact hlearn _ _ _ (hheard _)
    · exact hheard _

/-- A lane's read-modify-write of memory is a write performed at its home, whatever it tells and accumulates (R212, R213). -/
theorem sameBytes_rmwPut (s : State) (e : Env) (m : AtMod) {sp : Nat} (hsp : sp ≠ 2) (l a n new : Nat) (acc : Option (Region × ExactAcc)) :
    SameBytes (putHomeBytes (afterRead s e (MOrd.isAcq m.ord) m.scope sp a n [] l) sp a (leBytes n new)) (rmwPut s e m l sp a n new acc) := by
  have hwrite := sameBytes_homeWrite (afterRead s e (MOrd.isAcq m.ord) m.scope sp a n [] l) e.die
  rw [rmwPut, if_neg hsp]
  dsimp only
  cases acc with
  | none => exact hwrite ..
  | some x => exact (hwrite ..).trans ⟨rfl, rfl, rfl⟩

theorem homeByte_rmwPut (s : State) (e : Env) (m : AtMod) {sp : Nat} (hsp : sp = 0 ∨ sp = 1) (l a n new : Nat) (acc : Option (Region × ExactAcc)) (k : Nat) :
    homeByte (rmwPut s e m l sp a n new acc) sp k = if a ≤ k ∧ k < a + n then (leBytes n new)[k - a]?.getD 0 else homeByte s sp k := by
  rw [(sameBytes_rmwPut s e m (by omega) l a n new acc).homeByte hsp, homeByte_putHomeBytes hsp, length_leBytes, (sameBytes_afterRead ..).homeByte hsp]

/-- The bytes that a lane writes, through an uncached page as well (R192, R194). -/
theorem homeByte_rmwPut_written (s : State) (e : Env) (m : AtMod) {sp : Nat} (hsp : sp = 0 ∨ sp = 11) (l a n new : Nat) (acc : Option (Region × ExactAcc))
    {k : Nat} (hk : k < n) : homeByte (rmwPut s e m l sp a n new acc) sp (a + k) = (leBytes n new)[k]?.getD 0 := by
  obtain rfl | rfl := hsp
  · rw [homeByte_rmwPut s e m (.inl rfl), if_pos (by omega), Nat.add_sub_cancel_left]
  · exact ((sameBytes_rmwPut s e m (by decide) l a n new acc).atMemory
      (atMemory_putHomeBytes _ _ a (by rw [length_leBytes]; exact hk))).homeByte

/-! ## Exact additions -/

theorem exactHit_space {s : State} {sp a : Nat} {x : Region × Nat} (h : exactHit s sp a = some x) : sp = 0 ∨ sp = 11 := by
  by_contra hsp
  rw [exactHit, leafHit, if_neg hsp] at h
  cases h

/-- An accumulator of a finite sum that takes a finite operand holds the exact sum, and its leaf that sum rounded once (R216). -/
theorem accValue_accAdd {acc : ExactAcc} (hn : acc.nan = false) (hp : acc.pinf = false) (hm : acc.ninf = false) {b : Nat} {neg : Bool} {mant : Nat}
    {ex : Int} (hb : fdecode .f32 b = .fin neg mant ex) : accValue (accAdd acc b) =
      froundDy .f32 .rn (acc.fix + (if neg then -1 else 1) * mant * 2 ^ (ex + 149).toNat) (-149) false := by
  have hsgn : sgnInt neg mant = (if neg then -1 else 1) * mant := by cases neg <;> simp [sgnInt]
  simp only [accAdd, hb, accValue, hn, hp, hm, hsgn, Bool.false_and, Bool.or_self, Bool.false_eq_true, if_false]

/-- A lane's exact addition into an accumulator that the region holds (R216). -/
theorem rmwNew_exact {z : State} {e : Env} {f : Nat → Nat → Nat} {sp a n x j : Nat} {r : Region} {acc : ExactAcc} (hsp : sp ≠ 2)
    (hhit : exactHit z sp a = some (r, j)) (hacc : (r.accs.find? fun y => y.leaf == j) = some acc) :
    rmwNew z e true f sp a n x = accValue (accAdd acc x) := by
  have hof : accOf r j (rmwOld z e sp a n) = acc := by rw [accOf, hacc]; rfl
  rw [rmwNew, rmwAcc, if_pos (by simpa using hsp), hhit]
  simp only [Option.map_some, hof]

/-! ## The statement -/

section
variable {s : State} {e : Env} {m : AtMod} {n l sp a : Nat} {va : DWord} {operand : Nat → Nat} {f : Nat → Nat → Nat}

theorem rmwNew_inexact (z : State) (x : Nat) : rmwNew z e false f sp a n x = f (rmwOld z e sp a n) x := rfl

/-- A lane that performs alone: what it answers and leaves. -/
theorem rmwRun_one {exact : Bool} (h : rmwFloor (rmwFirst s e sp a n) e sp a n (rmwNew (rmwFirst s e sp a n) e exact f sp a n (operand l)) = none) :
    rmwRun e m n exact operand f [(l, sp, a, va)] s =
      (rmwNext e m n exact (operand l) f l sp a s, [(l, rmwOld (rmwFirst s e sp a n) e sp a n)], none) := by
  rw [rmwRun_performs h]; rfl

theorem rmwRun_one_inv {t : State} {olds : List (Nat × Nat)} {exact : Bool} (h : rmwRun e m n exact operand f [(l, sp, a, va)] s = (t, olds, none)) :
    t = rmwNext e m n exact (operand l) f l sp a s ∧ olds = [(l, rmwOld (rmwFirst s e sp a n) e sp a n)] := by
  cases hf : rmwFloor (rmwFirst s e sp a n) e sp a n (rmwNew (rmwFirst s e sp a n) e exact f sp a n (operand l)) with
  | some leaf => rw [rmwRun_stops hf] at h; cases h
  | none => rw [rmwRun_one hf] at h; cases h; exact ⟨rfl, rfl⟩

end

/-- Settles O31: what a lane leaves is the one write at the home of its bytes or in its granule. -/
theorem readModifyWriteActs : Obligations.ReadModifyWriteActs := by
  unfold Obligations.ReadModifyWriteActs
  intro s e m n l sp a va operand f hg hn ha z seenIn seen
  have hgz : group? z e.g = some e.gr := (group?_congr (rmwFirst_groups s e sp a n) _).trans hg
  have hold : rmwOld z e sp a n = seen := rmwOld_eq hgz sp a n
  have hin : a % 256 + n ≤ 256 := by obtain rfl | rfl := hn <;> omega
  refine ⟨fun h => seenValue_rmwFirst h a n, fun t olds hrun => ?_, fun leaf hsp hneg => ?_,
    fun r j acc hhit hacc hnan hpinf hninf neg mant ex hop => ?_⟩
  · obtain ⟨rfl, rfl⟩ := rmwRun_one_inv hrun
    refine ⟨by rw [← hold], fun hsp k => ?_, fun hsp hown _ k => ?_⟩
    · subst hsp
      rw [← hold]
      exact spmAt_rmwPut hgz m hin l _ (rmwAcc z e false 2 a n (operand l)) k
    · rw [← hold, ← homeByte_rmwFirst hown sp a n k]
      exact homeByte_rmwPut _ _ _ (by omega) ..
  · exact rmwRun_stops (by rw [rmwFloor, if_neg hsp, rmwNew_inexact, hold, hneg])
  · intro sum new hsp hn4 hneg
    subst hn4
    have hnew : rmwNew z e true f sp a 4 (operand l) = new := by
      rw [rmwNew_exact hsp hhit hacc, accValue_accAdd hnan hpinf hninf hop]
    refine ⟨_, by rw [rmwRun_one (by rw [rmwFloor, if_neg hsp, hnew, hneg]), hold], fun _ _ k hk => ?_⟩
    rw [rmwNext, hnew]
    exact homeByte_rmwPut_written _ _ _ (exactHit_space hhit) _ _ _ _ _ hk

end Sys2Proof.Machine
end

section
/-! PROOFS. The atomics (R208 to R213, R216, R217, R251). -/

namespace Sys2Proof.Machine

/-! ## The lanes of an atomic perform in order -/

theorem KeepsPlace.readCredit {e : Env} {v : State} (h : KeepsPlace e v) (acq : Bool) (l a : Nat) : KeepsPlace e (readCredit e acq v l a) := by
  have hheard (x : View) : KeepsPlace e (Machine.modWarp v e.g e.w (hear l false x)) := h.modWarp fun y => by
    obtain ⟨hs, hy⟩ := hear_only l false x y
    rw [hy]; exact ⟨rfl, rfl⟩
  unfold Machine.readCredit
  split
  · exact h
  · dsimp only
    split
    · exact (hheard _).of_groups rfl
    · exact hheard _

theorem KeepsPlace.afterRead {e : Env} {v : State} (h : KeepsPlace e v) (acq : Bool) (sc : Scope) (sp a n : Nat) (skip : List Ver) (l : Nat) :
    KeepsPlace e (afterRead v e acq sc sp a n skip l) := by
  have hsaw : KeepsPlace e (sawBytes v e.die (memKey sp a) n skip) := h.of_groups rfl
  have hlearn (t : State) (d : Nat) (x : View) (ht : KeepsPlace e t) : KeepsPlace e (learn t d x) := ht.of_groups rfl
  have hheard (x y : View) : KeepsPlace e (Machine.modWarp (sawBytes v e.die (memKey sp a) n skip) e.g e.w fun z => hear l true x (hear l false y z)) :=
    hsaw.modWarp fun z => by
      obtain ⟨p, hp⟩ := hear_only l false y z
      obtain ⟨q, hq⟩ := hear_only l true x { z with heard := p }
      rw [hp, hq]; exact ⟨rfl, rfl⟩
  unfold Machine.afterRead
  simp only
  split
  · exact hsaw
  · split <;> split
    · exact hlearn _ _ _ (hlearn _ _ _ (hheard _ _))
    · exact hlearn _ _ _ (hheard _ _)
    · exact hlearn _ _ _ (hheard _ _)
    · exact hheard _ _

theorem KeepsPlace.rmwPut {e : Env} {v : State} (h : KeepsPlace e v) (m : AtMod) (l sp a n new : Nat) (acc : Option (Region × ExactAcc)) :
    KeepsPlace e (rmwPut v e m l sp a n new acc) := by
  unfold Machine.rmwPut
  split
  · exact (h.readCredit ..).writeSpm ..
  · dsimp only
    have hwrite (rel : Option View) (b : Bool) : KeepsPlace e (homeWrite (Machine.afterRead v e (MOrd.isAcq m.ord) m.scope sp a n [] l) e.die rel sp a
        (leBytes n new) (some (e.g, e.w)) b) := (h.afterRead ..).of_groups (homeWrite_groups ..)
    cases acc with
    | none => exact hwrite ..
    | some x => exact (hwrite ..).of_groups rfl

theorem KeepsPlace.rmwNext {e : Env} {v : State} (h : KeepsPlace e v) (m : AtMod) (n : Nat) (exact : Bool) (x : Nat) (f : Nat → Nat → Nat) (l sp a : Nat) :
    KeepsPlace e (rmwNext e m n exact x f l sp a v) := (h.of_groups (rmwFirst_groups ..)).rmwPut ..

section
variable {e : Env} {m : AtMod} {n : Nat} {exact : Bool} {operand : Nat → Nat} {f : Nat → Nat → Nat}

/-- The lanes of an atomic that none stops answer by lane, and leave the word its place. -/
theorem rmwRun_done : ∀ {at_ : List (Nat × (Nat × Nat × DWord))} {u v : State} {olds : List (Nat × Nat)},
    rmwRun e m n exact operand f at_ u = (v, olds, none) → KeepsPlace e u → KeepsPlace e v ∧ olds.map (·.1) = at_.map (·.1)
  | [], u, v, olds, h, hu => by cases h; exact ⟨hu, rfl⟩
  | (l, sp, a, va) :: r, u, v, olds, h, hu => by
    cases hf : rmwFloor (rmwFirst u e sp a n) e sp a n (rmwNew (rmwFirst u e sp a n) e exact f sp a n (operand l)) with
    | some leaf => rw [rmwRun_stops hf] at h; cases h
    | none =>
      rw [rmwRun_performs hf] at h
      obtain ⟨hv, h2⟩ := Prod.mk.inj h
      obtain ⟨rfl, hnone⟩ := Prod.mk.inj h2
      obtain ⟨hkeep, hkeys⟩ := rmwRun_done (Prod.ext hv (Prod.ext rfl hnone)) (hu.rmwNext m n exact (operand l) f l sp a)
      exact ⟨hkeep, by simp [hkeys]⟩

theorem sameFloors_afterRead (s : State) (acq : Bool) (sc : Scope) (sp a k : Nat) (skip : List Ver) (l : Nat) :
    SameFloors s (afterRead s e acq sc sp a k skip l) := by
  have hheard (f : Warp → Warp) : SameFloors s (modWarp (sawBytes s e.die (memKey sp a) k skip) e.g e.w f) := sameFloors_of_regions (modWarp_regions ..)
  unfold afterRead
  simp only
  split
  · rfl
  · split <;> split <;> exact hheard _

theorem sameFloors_rmwPut (s : State) (l sp a new : Nat) (acc : Option (Region × ExactAcc)) : SameFloors s (rmwPut s e m l sp a n new acc) := by
  unfold rmwPut
  split
  · have hcredit : (readCredit e (MOrd.isAcq m.ord) s l a).regions = s.regions := by
      unfold readCredit
      split
      · rfl
      · dsimp only
        split <;> exact modWarp_regions ..
    refine sameFloors_of_regions (Eq.trans ?_ hcredit)
    unfold writeSpm
    split
    · rfl
    · exact modGroup_regions ..
  · dsimp only
    have hwrite (rel : Option View) (b : Bool) := (sameFloors_afterRead s (MOrd.isAcq m.ord) m.scope sp a n [] l).trans (sameFloors_homeWrite
      (afterRead s e (MOrd.isAcq m.ord) m.scope sp a n [] l) e.die rel sp a (leBytes n new) (some (e.g, e.w)) b)
    cases acc with
    | none => exact hwrite ..
    | some x => exact (hwrite ..).trans (sameFloors_modRegion _ _ _ fun _ => rfl)

/-- Where no region is non-negative no lane stops its word (R212, R251). -/
theorem rmwRun_noFloors (at_ : List (Nat × (Nat × Nat × DWord))) {u : State} (hu : NoFloors u) :
    ∃ v olds, rmwRun e m n exact operand f at_ u = (v, olds, none) := by
  induction at_ generalizing u with
  | nil => exact ⟨u, [], rfl⟩
  | cons x r ih =>
    obtain ⟨l, sp, a, va⟩ := x
    have hz := (sameFloors_rmwFirst u e sp a n).noFloors hu
    have hfloor (new : Nat) : rmwFloor (rmwFirst u e sp a n) e sp a n new = none := by
      rw [rmwFloor, negWrite_of_noFloors hz]; split <;> rfl
    have hnext : NoFloors (rmwNext e m n exact (operand l) f l sp a u) := (sameFloors_rmwPut ..).noFloors hz
    obtain ⟨v, olds, hv⟩ := ih hnext
    exact ⟨v, _, by rw [rmwRun_performs (hfloor _)]; exact Prod.ext (congrArg (·.1) hv) (Prod.ext rfl (congrArg (·.2.2) hv))⟩

end

/-! ## The places of an atomic -/

/-- The place of an atomic is in memory. -/
def Place.inMem : Place → Bool
  | .mem _ => true
  | .spm _ => false

section
variable {z : State} {e : Env} {p : Place} {off : BitVec 8} {n : Nat}

/-- A lane whose place is right goes there and changes nothing before it performs. -/
theorem rmwPlace_ok {l : Nat} {x : Nat × Nat × DWord} (h : PlaceOk z e p off n l x) : rmwPlace z e p off n l = .ok (z, x) := by
  cases p with
  | spm v =>
    obtain ⟨h0, h1, ha, herr, rfl⟩ := h
    have hread : spmRead e z v off n l = .ok (spmOff z e v off n l).toNat := by
      rw [spmRead_aligned ⟨h0, h1⟩ ha]
      exact (congrArg (fun y : Option Nat => (match y with | some x => bad .eccu (BitVec.ofNat 64 x) 0 | none => pure _ : Except LaneFault Nat)) herr)
    rw [rmwPlace, hread]; rfl
  | mem a =>
    obtain ⟨lf, hlf, hsp, hcxl, hw, hecc, -, rfl⟩ := h
    have hlf' : memLeaf z e (memVa e z a off n l) n 2 2 = .ok lf := hlf
    have hok : ¬ ((3 ≤ lf.space ∧ lf.space ≤ 10) ∨ (lf.space = 1 ∧ cxl z = false)) := by
      rintro (h | ⟨h1, hc⟩)
      · omega
      · rw [hcxl h1] at hc; cases hc
    simp only [rmwPlace, hlf', bind, Except.bind, if_neg hok, writeTarget_of_writable hw, hecc, Bool.false_eq_true, if_false]
    rfl

theorem rmwPlace_homeStuck {l : Nat} {x : Nat × Nat × DWord} (h : PlaceOk z e p off n l x) : x.1 ≠ 2 → homeStuck z e.die x.1 x.2.1 n = false := by
  cases p with
  | spm v =>
    obtain ⟨-, -, -, -, rfl⟩ := h
    exact fun h2 => absurd rfl h2
  | mem a =>
    obtain ⟨lf, -, -, -, -, -, hstuck, rfl⟩ := h
    exact fun _ => hstuck

theorem rmwPlace_tookLines {u t : State} {l : Nat} {x : Nat × Nat × DWord} (hu : TookLines e u) (h : rmwPlace u e p off n l = .ok (t, x)) :
    TookLines e t := by
  cases p with
  | spm v =>
    rw [rmwPlace] at h
    split at h
    · cases h; exact hu
    · cases h
  | mem a =>
    simp only [rmwPlace, bind, Except.bind] at h
    split at h
    · cases h
    split at h
    · cases h
    split at h
    · cases h
    · rename_i y hy
      split at h
      · cases h
      · cases h; exact hu.writeTarget hy

/-- Where each lane's place is right the lanes go there. -/
theorem lanesGive_places {x : Nat → Nat × Nat × DWord} (h : ∀ l, bit e.live l = true → PlaceOk z e p off n l (x l)) :
    LanesGive e (fun t l => rmwPlace t e p off n l) z z ((lanesOf e.live).map fun l => (l, x l)) := by
  have hplace : ∀ l ∈ lanesOf e.live, rmwPlace z e p off n l = .ok (z, x l) := fun l hl => rmwPlace_ok (h l ((mem_lanesOf ..).mp hl))
  unfold LanesGive
  generalize lanesOf e.live = ls at hplace
  induction ls with
  | nil => rfl
  | cons l ls ih =>
    simp only [eachLane, hplace l (List.mem_cons_self ..), ih fun k hk => hplace k (List.mem_cons_of_mem _ hk), List.map_cons]

end

theorem eachLane_keys {α : Type} {f : State → Nat → Except LaneFault (State × α)} :
    ∀ {ls : List Nat} {s u : State} {as : List (Nat × α)}, eachLane f ls s = ([], u, as) → as.map (·.1) = ls
  | [], _, _, _, h => by cases h; rfl
  | l :: ls, s, u, as, h => by
    rw [eachLane] at h
    split at h
    · rename_i t a hl
      obtain ⟨h1, h2⟩ := Prod.mk.inj h
      obtain ⟨h3, rfl⟩ := Prod.mk.inj h2
      rw [List.map_cons, eachLane_keys (Prod.ext h1 (Prod.ext h3 rfl))]
    · cases h

/-- A lane that takes its step and then passes a check. -/
def checkedLane {α : Type} (f : State → Nat → Except LaneFault (State × α)) (fails : State × α → Bool) (c : Code) (t : State) (l : Nat) :
    Except LaneFault (State × α) := do
  let x ← f t l
  if fails x then bad c 0 0 else pure x

/-- One check more of each lane changes nothing where no lane fails it. -/
theorem eachLane_checked {α : Type} {f : State → Nat → Except LaneFault (State × α)} {fails : State × α → Bool} {c : Code} :
    ∀ {ls : List Nat} {s u : State} {as : List (Nat × α)}, eachLane f ls s = ([], u, as) → (∀ t, ∀ x ∈ as, fails (t, x.2) = false) →
    eachLane (checkedLane f fails c) ls s = ([], u, as)
  | [], _, _, _, h, _ => h
  | l :: ls, s, u, as, h, hok => by
    rw [eachLane] at h
    split at h
    · rename_i t a hl
      obtain ⟨h1, h2⟩ := Prod.mk.inj h
      obtain ⟨h3, rfl⟩ := Prod.mk.inj h2
      have hstep : checkedLane f fails c s l = .ok (t, a) := by
        have hpass := hok t (l, a) (List.mem_cons_self ..)
        simp only [checkedLane, hl, bind, Except.bind, hpass, Bool.false_eq_true, if_false]
        rfl
      have ih := eachLane_checked (fails := fails) (c := c) (Prod.ext h1 (Prod.ext h3 rfl)) fun t x hx => hok t x (List.mem_cons_of_mem _ hx)
      rw [eachLane, hstep]
      simp only [ih]
    · cases h

/-! ## What an atomic does -/

section
variable {i : Instr} {s z u v : State} {e : Env} {m : AtMod} {p : Place} {off : BitVec 8} {b : Reg} {k : Nat} {d : Option Reg} {fl : AaddOp}
  {f : Nat → Nat → Nat} {exact : Bool} {at_ : List (Nat × (Nat × Nat × DWord))} {olds : List (Nat × Nat)}

/-- No lane of an exact word lies outside the regions that add exactly, and their unit has room (R216). -/
def ExactOk (z : State) (exact : Bool) (at_ : List (Nat × (Nat × Nat × DWord))) : Prop :=
  exact = true → (∀ x ∈ at_, (exactHit z x.2.1 x.2.2.1).isSome = true) ∧ accLimit z at_ = false

/-- What an atomic's accesses note beside its effect (R190, R192, R198, R368). -/
def rmwNoted (e : Env) (z : State) (m : AtMod) (p : Place) (at_ : List (Nat × (Nat × Nat × DWord))) (v : State) : State :=
  if Place.inMem p then noteAccess z e .atomic 0 (at_.map (·.2.2.2)) (AtMod.bytes m) v
  else countBanks e v (AtMod.bytes m) (at_.map fun x => (x.1, x.2.2.1))

theorem rmwNoted_groups : (rmwNoted e z m p at_ v).groups = v.groups := by
  unfold rmwNoted
  split
  · obtain ⟨h, -⟩ := tagged_noteAccess z e .atomic 0 (at_.map (·.2.2.2)) (AtMod.bytes m) v
    rw [h]
  · exact countEvent_groups ..

/-- An atomic that has performed, with the old values of the lanes that did on their way (R208). -/
def rmwSent (e : Env) (z : State) (m : AtMod) (p : Place) (d : Option Reg) (at_ : List (Nat × (Nat × Nat × DWord))) (v : State) (olds : List (Nat × Nat)) :
    State :=
  match d with
  | some r => laterValue { e with live := maskOf fun l => olds.any fun x => x.1 == l } (rmwNoted e z m p at_ v) r.toNat (AtMod.regs m) (laneNat olds)
  | none => rmwNoted e z m p at_ v

/-- What an atomic does at the places of its lanes (R208, R212, R216). -/
def rmwAct (e : Env) (z : State) (m : AtMod) (p : Place) (b : Reg) (k : Nat) (d : Option Reg) (exact : Bool) (f : Nat → Nat → Nat) (u : State)
    (at_ : List (Nat × (Nat × Nat × DWord))) : WordRes :=
  if exact && accLimit z at_ then .trap z .ndet e.live 0 0
  else if at_.any fun x => x.2.1 != 2 && homeStuck z e.die x.2.1 x.2.2.1 (AtMod.bytes m) then .hold z .accept e.atPc
  else
    let r := rmwRun e m (AtMod.bytes m) exact (fun l => wideRead z e.gr e.wp b.toNat l k) f at_ u
    match r.2.2 with
    | none => .done (rmwSent e z m p d at_ r.1 r.2.1)
    | some (l, leaf) => .trap (rmwSent e z m p d at_ r.1 r.2.1) .orneg (maskOf (· == l)) leaf
        (BitVec.ofNat 64 (maskOf fun k => r.2.1.any fun x => x.1 == k).toNat)

/-- The lanes of an atomic go to their places, an exact one's to regions that add exactly, and perform there. -/
theorem rmwWord_eq (hi : Issues i s e) (hb : Released e s (MOrd.rel m.ord && Place.inMem p) m.scope z)
    (hexact : (e.fixed && Place.inMem p && fl != .int) = exact) : rmwWord i s m p off b k d fl f = finish e i
      (if exact && fl != .f32 && e.live != 0 then .trap z .ndet e.live 0 0 else
        lanesThen e z (checkedLane (fun t l => rmwPlace t e p off (AtMod.bytes m) l) (fun x => exact && (exactHit z x.2.1 x.2.2.1).isNone) .ndet)
          (rmwAct e z m p b k d exact f)) s := by
  subst hexact
  unfold rmwWord
  rw [runWord_issues hi]
  cases p <;> exact congrArg (finish e i · s) (afterRelease_released hb _)

/-- A mask of the lanes that answer. -/
theorem maskOf_answers (h : olds.map (·.1) = lanesOf e.live) : (maskOf fun l => olds.any fun x => x.1 == l) = e.live := by
  refine mask_ext fun l hl => ?_
  have hmem : l ∈ olds.map (·.1) ↔ bit e.live l = true := by rw [h, mem_lanesOf]
  rw [bit_maskOf, Bool.eq_iff_iff, ← hmem]
  simp [hl]

/-- Lanes that have gone to their places leave the word its own. -/
theorem keepsPlace_places (hi : Issues i s e) (hb : Released e s (MOrd.rel m.ord && Place.inMem p) m.scope z)
    (hg : LanesGive e (fun t l => rmwPlace t e p off (AtMod.bytes m) l) z u at_) : KeepsPlace e u := by
  have hz : Here e z := here_of_groups (issues_here hi) (released_groups hb)
  exact keepsPlace_of_tookLines hz (eachLane_keeps (fun _ _ _ _ ht hx => rmwPlace_tookLines ht hx) hg (tookLines_of_here hz))

/-- An atomic whose lanes find their places and perform. -/
theorem rmwWord_done (hi : Issues i s e) (hb : Released e s (MOrd.rel m.ord && Place.inMem p) m.scope z)
    (hexact : (e.fixed && Place.inMem p && fl != .int) = exact) (hfl : exact = true → fl = .f32)
    (hg : LanesGive e (fun t l => rmwPlace t e p off (AtMod.bytes m) l) z u at_) (hok : ExactOk z exact at_)
    (hstuck : ∀ x ∈ at_, x.2.1 ≠ 2 → homeStuck z e.die x.2.1 x.2.2.1 (AtMod.bytes m) = false)
    (hrun : rmwRun e m (AtMod.bytes m) exact (fun l => wideRead z e.gr e.wp b.toNat l k) f at_ u = (v, olds, none)) :
    rmwWord i s m p off b k d fl f = finish e i (.done (match d with
      | some r => laterValue e (rmwNoted e z m p at_ v) r.toNat (AtMod.regs m) (laneNat olds)
      | none => rmwNoted e z m p at_ v)) s := by
  have hg' : eachLane (fun t l => rmwPlace t e p off (AtMod.bytes m) l) (lanesOf e.live) z = ([], u, at_) := hg
  have hplaces : eachLane (checkedLane (fun t l => rmwPlace t e p off (AtMod.bytes m) l)
      (fun x => exact && (exactHit z x.2.1 x.2.2.1).isNone) .ndet) (lanesOf e.live) z = ([], u, at_) := by
    refine eachLane_checked hg' fun t x hx => ?_
    cases exact with
    | false => rfl
    | true =>
      obtain ⟨hhit, -⟩ := hok rfl
      have hx' := hhit x hx
      dsimp only
      rw [Bool.true_and, ← Option.not_isSome, hx']; rfl
  obtain ⟨-, hkeys⟩ := rmwRun_done hrun (keepsPlace_places hi hb hg)
  have hmask := maskOf_answers (hkeys.trans (eachLane_keys hg'))
  have hdrop : ¬ (exact && fl != .f32 && e.live != 0) = true := by
    cases exact with
    | false => simp
    | true => simp [hfl rfl]
  have hroom : ¬ (exact && accLimit z at_) = true := by
    cases exact with
    | false => simp
    | true => simp [(hok rfl).2]
  have hhome : ¬ (at_.any fun x => x.2.1 != 2 && homeStuck z e.die x.2.1 x.2.2.1 (AtMod.bytes m)) = true := by
    simpa using hstuck
  rw [rmwWord_eq hi hb hexact, if_neg hdrop, lanesThen_ok hplaces, rmwAct, if_neg hroom, if_neg hhome]
  simp only [hrun, rmwSent, hmask]

end

end Sys2Proof.Machine
end

section
/-! PROOFS. What an atomic answers (R208, R216), the new values of its operations (R210), and the statement. -/

namespace Sys2Proof.Machine

section
variable {i : Instr} {s z : State} {e : Env} {m : AtMod} {p : Place} {off : BitVec 8} {b : Reg} {k : Nat} {d : Option Reg} {fl : AaddOp}
  {f f' : Nat → Nat → Nat} {exact : Bool}

/-- An atomic goes on in what it has performed and noted, with the old values on their way where it has a destination (R208). -/
def RmwAnswers (i : Instr) (s : State) (e : Env) (z : State) (m : AtMod) (p : Place) (d : Option Reg) (at_ : List (Nat × (Nat × Nat × DWord))) (v : State)
    (olds : List (Nat × Nat)) : Prop :=
  (d = none → CompletesOn i s e (rmwNoted e z m p at_ v) noResult) ∧
  ∀ r, d = some r → CompletesLaterOn i s e (rmwNoted e z m p at_ v) r (AtMod.regs m) (laneNat olds)

/-- A word of the family whose lanes find their places and of which no lane is stopped answers. -/
theorem rmwWord_answers (hi : Issues i s e) (ha : ∀ x gr wp, affineWord x { e with gr := gr, wp := wp } i = affineWord x e i)
    (hx : exec i s = rmwWord i s m p off b k d fl f) (hb : Released e s (MOrd.rel m.ord && Place.inMem p) m.scope z)
    (hexact : (e.fixed && Place.inMem p && fl != .int) = exact) (hfl : exact = true → fl = .f32) {u v : State}
    {at_ : List (Nat × (Nat × Nat × DWord))} {olds : List (Nat × Nat)}
    (hg : LanesGive e (fun t l => rmwPlace t e p off (AtMod.bytes m) l) z u at_) (hok : ExactOk z exact at_)
    (hstuck : ∀ x ∈ at_, x.2.1 ≠ 2 → homeStuck z e.die x.2.1 x.2.2.1 (AtMod.bytes m) = false)
    (hrun : rmwRun e m (AtMod.bytes m) exact (fun l => wideRead z e.gr e.wp b.toNat l k) f at_ u = (v, olds, none)) :
    RmwAnswers i s e z m p d at_ v olds := by
  have hdone := hx.trans (rmwWord_done hi hb hexact hfl hg hok hstuck hrun)
  obtain ⟨hkeep, -⟩ := rmwRun_done hrun (keepsPlace_places hi hb hg)
  have hnoted : KeepsPlace e (rmwNoted e z m p at_ v) := hkeep.of_groups rmwNoted_groups
  constructor
  · rintro rfl
    exact completesOn_kept hi hnoted ha hdone
  · rintro r rfl
    exact completesLaterOn_kept hi hnoted ha r _ _ hdone

/-- The same where each lane's place is right and no region is non-negative. -/
theorem rmwWord_answers_places (hi : Issues i s e) (ha : ∀ x gr wp, affineWord x { e with gr := gr, wp := wp } i = affineWord x e i)
    (hx : exec i s = rmwWord i s m p off b k d fl f) (hb : Released e s (MOrd.rel m.ord && Place.inMem p) m.scope z)
    (hexact : (e.fixed && Place.inMem p && fl != .int) = exact) (hfl : exact = true → fl = .f32) {x : Nat → Nat × Nat × DWord}
    (hplace : ∀ l, bit e.live l = true → PlaceOk z e p off (AtMod.bytes m) l (x l)) (hfloor : NoFloors z)
    (hok : ExactOk z exact ((lanesOf e.live).map fun l => (l, x l))) :
    ∃ v olds, rmwRun e m (AtMod.bytes m) exact (fun l => wideRead z e.gr e.wp b.toNat l k) f ((lanesOf e.live).map fun l => (l, x l)) z = (v, olds, none) ∧
      RmwAnswers i s e z m p d ((lanesOf e.live).map fun l => (l, x l)) v olds := by
  obtain ⟨v, olds, hrun⟩ := rmwRun_noFloors (e := e) (m := m) (n := AtMod.bytes m) (exact := exact)
    (operand := fun l => wideRead z e.gr e.wp b.toNat l k) (f := f) ((lanesOf e.live).map fun l => (l, x l)) hfloor
  refine ⟨v, olds, hrun, rmwWord_answers hi ha hx hb hexact hfl (lanesGive_places hplace) hok (fun y hy => ?_) hrun⟩
  obtain ⟨l, hl, rfl⟩ := List.mem_map.mp hy
  exact rmwPlace_homeStuck (hplace l ((mem_lanesOf ..).mp hl))

/-- What a word of the family does whose new values are those of f. -/
def RmwRuns (i : Instr) (s : State) (e : Env) (z : State) (m : AtMod) (p : Place) (off : BitVec 8) (b : Reg) (k : Nat) (d : Option Reg) (exact : Bool)
    (f : Nat → Nat → Nat) : Prop :=
  (∀ x : Nat → Nat × Nat × DWord, (∀ l, bit e.live l = true → PlaceOk z e p off (AtMod.bytes m) l (x l)) → NoFloors z →
    ExactOk z exact ((lanesOf e.live).map fun l => (l, x l)) →
    ∃ v olds, rmwRun e m (AtMod.bytes m) exact (fun l => wideRead z e.gr e.wp b.toNat l k) f ((lanesOf e.live).map fun l => (l, x l)) z = (v, olds, none) ∧
      RmwAnswers i s e z m p d ((lanesOf e.live).map fun l => (l, x l)) v olds) ∧
  ∀ u at_, LanesGive e (fun t l => rmwPlace t e p off (AtMod.bytes m) l) z u at_ → ExactOk z exact at_ →
    (∀ x ∈ at_, x.2.1 ≠ 2 → homeStuck z e.die x.2.1 x.2.2.1 (AtMod.bytes m) = false) →
    ∀ v olds, rmwRun e m (AtMod.bytes m) exact (fun l => wideRead z e.gr e.wp b.toNat l k) f at_ u = (v, olds, none) → RmwAnswers i s e z m p d at_ v olds

theorem rmwWord_runs (hi : Issues i s e) (ha : ∀ x gr wp, affineWord x { e with gr := gr, wp := wp } i = affineWord x e i)
    (hx : exec i s = rmwWord i s m p off b k d fl f') (hf : ∀ old x, f' old x = f old x) (hb : Released e s (MOrd.rel m.ord && Place.inMem p) m.scope z)
    (hexact : (e.fixed && Place.inMem p && fl != .int) = exact) (hfl : exact = true → fl = .f32) : RmwRuns i s e z m p off b k d exact f := by
  obtain rfl : f' = f := funext fun old => funext (hf old)
  exact ⟨fun _ hplace hfloor hok => rmwWord_answers_places hi ha hx hb hexact hfl hplace hfloor hok,
    fun _ _ hg hok hstuck _ _ hrun => rmwWord_answers hi ha hx hb hexact hfl hg hok hstuck hrun⟩

/-- A word that adds no floats. -/
theorem rmwWord_runs_int (hi : Issues i s e) (ha : ∀ x gr wp, affineWord x { e with gr := gr, wp := wp } i = affineWord x e i)
    (hx : exec i s = rmwWord i s m p off b k d .int f') (hf : ∀ old x, f' old x = f old x)
    (hb : Released e s (MOrd.rel m.ord && Place.inMem p) m.scope z) : RmwRuns i s e z m p off b k d false f :=
  rmwWord_runs hi ha hx hf hb (Bool.and_false _) fun h => by cases h

/-- Paired floats cannot be added exactly (R216). -/
theorem rmwWord_ndet (hi : Issues i s e) (hx : exec i s = rmwWord i s m p off b k d fl f) (hb : Released e s (MOrd.rel m.ord && Place.inMem p) m.scope z)
    (hfixed : (e.fixed && Place.inMem p) = true) (hfl : fl = .f16x2 ∨ fl = .bf16x2) (hl : e.live ≠ 0) :
    exec i s = .next (takeFault z e.g e.w (recordOf s e .ndet e.live 0 0)) := by
  have hfloat : (fl != .int) = true ∧ (fl != .f32) = true := by obtain rfl | rfl := hfl <;> decide
  obtain ⟨hint, hsingle⟩ := hfloat
  rw [hx, rmwWord_eq hi hb rfl, hfixed, hint, hsingle, if_pos (by simpa using hl)]
  rfl

end

/-! ## New values -/

section
variable (old x : Nat)

theorem toNat_packed_mod (g : Nat → Nat → Nat) : (packed g (BitVec.ofNat 32 old) (BitVec.ofNat 32 x)).toNat =
    g (old % 2 ^ 16) (x % 2 ^ 16) % 2 ^ 16 + 2 ^ 16 * (g (old / 2 ^ 16 % 2 ^ 16) (x / 2 ^ 16 % 2 ^ 16) % 2 ^ 16) := by
  have hlow (y : Nat) : (BitVec.ofNat 32 y).toNat % 65536 = y % 65536 := by rw [BitVec.toNat_ofNat]; omega
  have hhigh (y : Nat) : (BitVec.ofNat 32 y).toNat / 65536 = y / 65536 % 65536 := by rw [BitVec.toNat_ofNat]; omega
  rw [packed, hlow, hlow, hhigh, hhigh, BitVec.toNat_ofNat]
  norm_num
  omega

variable (w : Nat)

theorem toNat_minS : (MnxOp.eval .minS (BitVec.ofNat w old) (BitVec.ofNat w x)).toNat =
    if (BitVec.ofNat w old).toInt ≤ (BitVec.ofNat w x).toInt then old % 2 ^ w else x % 2 ^ w := by
  rw [MnxOp.eval, apply_ite BitVec.toNat, BitVec.toNat_ofNat, BitVec.toNat_ofNat]

theorem toNat_maxS : (MnxOp.eval .maxS (BitVec.ofNat w old) (BitVec.ofNat w x)).toNat =
    if (BitVec.ofNat w x).toInt ≤ (BitVec.ofNat w old).toInt then old % 2 ^ w else x % 2 ^ w := by
  rw [MnxOp.eval, apply_ite BitVec.toNat, BitVec.toNat_ofNat, BitVec.toNat_ofNat]
  by_cases hle : (BitVec.ofNat w old).toInt ≤ (BitVec.ofNat w x).toInt
  · by_cases hge : (BitVec.ofNat w x).toInt ≤ (BitVec.ofNat w old).toInt
    · have heq := congrArg BitVec.toNat (BitVec.eq_of_toInt_eq (le_antisymm hle hge))
      rw [BitVec.toNat_ofNat, BitVec.toNat_ofNat] at heq
      rw [if_pos hle, if_pos hge, heq]
    · rw [if_pos hle, if_neg hge]
  · rw [if_neg hle, if_pos (le_of_not_ge hle)]

theorem toNat_minZ : (MnxOp.eval .minZ (BitVec.ofNat w old) (BitVec.ofNat w x)).toNat = min (old % 2 ^ w) (x % 2 ^ w) := by
  rw [MnxOp.eval, apply_ite BitVec.toNat, BitVec.toNat_ofNat, BitVec.toNat_ofNat, min_def]

theorem toNat_maxZ : (MnxOp.eval .maxZ (BitVec.ofNat w old) (BitVec.ofNat w x)).toNat = max (old % 2 ^ w) (x % 2 ^ w) := by
  rw [MnxOp.eval, apply_ite BitVec.toNat, BitVec.toNat_ofNat, BitVec.toNat_ofNat, max_def]

end

/-- Settles O30: the lanes are shown to keep the word's place and to answer in order, once for all words of the family. -/
theorem atomicsComplete : Obligations.AtomicsComplete := by
  unfold Obligations.AtomicsComplete
  intro s e h m p off b d z n w global sx runs fixed
  have hglobal : global = Place.inMem p := by cases p <;> rfl
  have hruns {i : Instr} {k : Nat} {exact : Bool} {f : Nat → Nat → Nat}
      (hr : Issues i s e → Released e s (MOrd.rel m.ord && Place.inMem p) m.scope z → RmwRuns i s e z m p off b k d exact f) : runs i k exact f := by
    cases p <;> exact hr
  refine ⟨fun op hop => hruns fun hi hb => ?_, fun op hfixed hop hi hb hl => ?_, fun op => hruns fun hi hb => ?_, fun op => hruns fun hi hb => ?_,
    hruns fun hi hb => ?_, hruns fun hi hb => ?_, fun dec => hruns fun hi hb => ?_⟩
  · have hexact : (e.fixed && Place.inMem p && op != .int) = (fixed && op == .f32) := by
      rw [← hglobal]
      obtain hop | rfl | rfl := hop
      · rw [show (e.fixed && global) = false from hop, hop]; rfl
      · rfl
      · rfl
    refine rmwWord_runs hi (fun _ _ _ => rfl) rfl (fun old x => ?_) hb hexact fun hx => by simpa using (Bool.and_eq_true_iff.mp hx).2
    cases op with
    | int | f32 => rfl
    | f16x2 | bf16x2 => exact toNat_packed_mod ..
  · have hg : Place.inMem p = true := hglobal ▸ (Bool.and_eq_true_iff.mp hfixed).2
    exact rmwWord_ndet hi rfl (by rwa [hg, Bool.and_true]) (hglobal ▸ hfixed) hop hl
  · refine rmwWord_runs_int hi (fun _ _ _ => rfl) rfl (fun old x => ?_) hb
    cases op with
    | minS => exact toNat_minS ..
    | maxS => exact toNat_maxS ..
    | minZ => exact toNat_minZ ..
    | maxZ => exact toNat_maxZ ..
  · refine rmwWord_runs_int hi (fun _ _ _ => rfl) rfl (fun old x => ?_) hb
    cases op with
    | and => exact (BitVec.toNat_and ..).trans (by simp only [BitVec.toNat_ofNat]; rfl)
    | or => exact (BitVec.toNat_or ..).trans (by simp only [BitVec.toNat_ofNat]; rfl)
    | xor => exact (BitVec.toNat_xor ..).trans (by simp only [BitVec.toNat_ofNat]; rfl)
  · exact rmwWord_runs_int hi (fun _ _ _ => rfl) rfl (fun _ _ => rfl) hb
  · exact rmwWord_runs_int hi (fun _ _ _ => rfl) rfl (fun _ _ => rfl) hb
  · exact rmwWord_runs_int hi (fun _ _ _ => rfl) rfl (fun _ _ => rfl) hb

end Sys2Proof.Machine
end

section
/-! PROOFS. A word that writes registers leaves what retiring and holding note of its warp. -/

namespace Sys2Proof.Machine

section
variable {e : Env} {v : State} (h : KeepsPlace e v)
include h

theorem KeepsPlace.ownRow (r : Nat) : KeepsPlace e (ownRow v e.g e.w r) := by
  have hkeep := h
  obtain ⟨gr, wp, hg, hw, hc, hx, hl, ha, hr⟩ := h
  simp only [Machine.ownRow, hg, hw]
  split
  · exact hkeep
  · obtain ⟨rg, pv, hcopy⟩ := copyRow_only v gr wp r
    exact ⟨{ gr with warps := modAt gr.warps e.w fun _ => copyRow v gr wp r }, copyRow v gr wp r,
      by rw [group?_modWarp_self, group?_countEvent, hg]; rfl, by simp [hw], hc, hx, hl, by rw [hcopy]; exact ha, by rw [hcopy]; exact hr⟩

theorem KeepsPlace.writeReg (r l : Nat) (x : Word) : KeepsPlace e (writeReg v e.g e.w r l x) :=
  (h.ownRow r).modWarp fun _ => ⟨rfl, rfl⟩

theorem KeepsPlace.writeWide (n : Nat) (r l x : Nat) : KeepsPlace e (writeWide v e.g e.w r l n x) := by
  induction n generalizing v r x with
  | zero => exact h
  | succ n ih => exact ih (h.writeReg ..) ..

/-- Whichever lanes of the warp are written. -/
theorem KeepsPlace.writeLanes (lanes : Mask) (d n : Nat) (f : Nat → Nat) : KeepsPlace e (writeLanes { e with live := lanes } v d n f) :=
  keepsPlace_foldl (fun _ l hu => hu.writeWide n d l (f l)) _ h

end

end Sys2Proof.Machine
end

section
/-! PROOFS. HTEST, HWAIT and HCANCEL (R236, R306, R308, R319 to R321, R323). -/

namespace Sys2Proof.Machine

/-! ## What a handle word reads -/

/-- The fields INDEX and GEN of R306 name the entry (R307). -/
theorem futureOf?_eq_filter (gr : Group) (w : Word) :
    futureOf? gr w = (sget? gr.futures (w.toNat % 2 ^ 7)).filter fun f => f.gen == w.toNat / 2 ^ 7 % 2 ^ 16 := by
  rw [futureOf?, show handleIndex w = w.toNat % 2 ^ 7 from rfl, show handleGen w = w.toNat / 2 ^ 7 % 2 ^ 16 from rfl]
  cases sget? gr.futures (w.toNat % 2 ^ 7) with
  | none => rfl
  | some f => simp only [Option.filter_some, beq_iff_eq]

/-- STAT has three bits (R306). -/
theorem toNat_statusWord (w : Word) (res : Bool) {stat : Nat} (hs : stat < 8) :
    (statusWord w res stat).toNat = w.toNat % 2 ^ 28 + 2 ^ 28 * stat + if res then 2 ^ 31 else 0 := by
  rw [statusWord, BitVec.toNat_ofNat]
  cases res
  · simp only [Bool.false_eq_true, if_false]; omega
  · simp only [if_true]; omega

theorem queryFuture_some {gr : Group} {w : Word} {f : Future} (h : futureOf? gr w = some f) (hs : f.stat < 8) (hl : f.landed < 2 ^ 32) :
    (queryFuture gr w).1.toNat = w.toNat % 2 ^ 28 + 2 ^ 28 * f.stat + (if f.res then 2 ^ 31 else 0) ∧ (queryFuture gr w).2.toNat = f.landed := by
  rw [queryFuture, h]
  exact ⟨toNat_statusWord w f.res hs, by rw [BitVec.toNat_ofNat, Nat.mod_eq_of_lt hl]⟩

theorem queryFuture_none {gr : Group} {w : Word} (h : futureOf? gr w = none) :
    (queryFuture gr w).1.toNat = (if w.getLsbD 31 then w.toNat else w.toNat % 2 ^ 28 + 7 * 2 ^ 28 + 2 ^ 31) ∧
      (queryFuture gr w).2.toNat = 0xFFFFFFFF := by
  rw [queryFuture, h]
  refine ⟨?_, rfl⟩
  show (if w.getLsbD 31 then w else statusWord w true 7).toNat = _
  split
  · rfl
  · exact toNat_statusWord w true (by decide)

/-- RES is bit 31 of a handle word (R306). -/
theorem getLsbD_31_iff (w : Word) : w.getLsbD 31 = true ↔ 2 ^ 31 ≤ w.toNat := by
  rw [← BitVec.msb_eq_getLsbD_last w, BitVec.msb_eq_decide, decide_eq_true_eq]

theorem now_of_here {e : Env} {s : State} (h : Here e s) : e.now s = e.gr := by
  rw [Env.now, h.1]; rfl

/-! ## What a word learns of resolved futures -/

/-- Joining operations changes only what dies have seen (R236). -/
theorem joinOps_only (s : State) (e : Env) (a : Reg) (lanes : Mask) : ∃ vs, joinOps s e a lanes = { s with views := vs } := by
  refine List.foldlRecOn _ _ (motive := fun t : State => ∃ vs : List View, t = { s with views := vs }) ⟨s.views, rfl⟩ ?_
  rintro _ ⟨vs, rfl⟩ l -
  split
  · split
    · exact ⟨_, rfl⟩
    · exact ⟨vs, rfl⟩
  · exact ⟨vs, rfl⟩

theorem keepsPlace_views {s : State} {e : Env} (hh : Here e s) (vs : List View) : KeepsPlace e { s with views := vs } :=
  (keepsPlace_of_here hh).of_groups rfl

section
variable {h : Hdr} {d a : Reg} {s : State} {e : Env}

/-! ## HTEST -/

theorem htest_completes (hi : Issues (.htest h d a) s e) : ∃ vs, CompletesOn (.htest h d a) s e { s with views := vs }
    (resultIn e d 2 fun l => (queryFuture e.gr (e.v s a l)).1.toNat + 2 ^ 32 * (queryFuture e.gr (e.v s a l)).2.toNat) := by
  obtain ⟨vs, hvs⟩ := joinOps_only s e a e.live
  refine ⟨vs, completesOn_kept_writes hi (keepsPlace_views (issues_here hi) vs) (fun _ _ _ => rfl) d 2 _ ?_⟩
  show execHtest h d a s = _
  rw [execHtest, runWord_issues hi, hvs]

/-! ## HWAIT -/

/-- The lanes that go on are those whose word is resolved or reads so (R320). -/
theorem hwaitDone_eq (hh : Here e s) {done : Mask} (hd : ∀ l, bit done l = true ↔
      bit e.live l = true ∧ ((e.v s a l).getLsbD 31 = true ∨ 2 ^ 31 ≤ (queryFuture e.gr (e.v s a l)).1.toNat)) :
    hwaitDone s e a = done := by
  refine mask_ext fun l hl => ?_
  rw [Bool.eq_iff_iff, hd, hwaitDone, bit_and, bit_maskOf, now_of_here hh, ← getLsbD_31_iff]
  simp only [hl, decide_true, Bool.true_and, Bool.and_eq_true, Bool.or_eq_true]

theorem exec_hwait (hi : Issues (.hwait h d a) s e) : exec (.hwait h d a) s = finish e (.hwait h d a)
    (if hwaitDone s e a = e.live then .done (hwaitLanes s e d a (hwaitDone s e a))
      else .hold (hwaitLanes s e d a (hwaitDone s e a)) .hwait (e.live &&& ~~~hwaitDone s e a)) s := by
  show execHwait h d a s = _
  rw [execHwait, runWord_issues hi]

/-- The lanes that go on take what HTEST reads, and nothing else changes but what their die has seen (R236, R320). -/
theorem hwaitLanes_eq (hh : Here e s) (done : Mask) : ∃ vs, hwaitLanes s e d a done =
    writeLanes { e with live := done } { s with views := vs } d.toNat 1 fun l => (queryFuture e.gr (e.v s a l)).1.toNat := by
  obtain ⟨vs, hvs⟩ := joinOps_only s e a done
  exact ⟨vs, by rw [hwaitLanes, hvs, now_of_here hh]⟩

theorem hwait_goes_on (hi : Issues (.hwait h d a) s e) (hd : hwaitDone s e a = e.live) : ∃ vs,
    CompletesOn (.hwait h d a) s e { s with views := vs } (resultIn e d 1 fun l => (queryFuture e.gr (e.v s a l)).1.toNat) := by
  obtain ⟨vs, hvs⟩ := hwaitLanes_eq (d := d) (a := a) (issues_here hi) e.live
  refine ⟨vs, completesOn_kept_writes hi (keepsPlace_views (issues_here hi) vs) (fun _ _ _ => rfl) d 1 _ ?_⟩
  rw [exec_hwait hi, if_pos hd, hd, hvs]

theorem hwait_holds (hi : Issues (.hwait h d a) s e) (hd : hwaitDone s e a ≠ e.live) : ∃ u,
    HoldsOn (.hwait h d a) s e u .hwait (e.live &&& ~~~hwaitDone s e a) ∧
    RegsAre e s u (resultIn { e with live := hwaitDone s e a } d 1 fun l => (queryFuture e.gr (e.v s a l)).1.toNat) ∧
    OnlyWarp e { s with views := u.views } u ∧ SameMemory s u := by
  have hh := issues_here hi
  obtain ⟨vs, hvs⟩ := hwaitLanes_eq (d := d) (a := a) hh (hwaitDone s e a)
  have hhere : Here { e with live := hwaitDone s e a } { s with views := vs } := hh
  obtain ⟨hregs, honly, -⟩ := wrote_writeLanes d 1 (fun l => (queryFuture e.gr (e.v s a l)).1.toNat) (wrote_refl hhere)
  rw [← hvs] at hregs honly
  have hmem : SameMemory { s with views := vs } (hwaitLanes s e d a (hwaitDone s e a)) := sameMemory_of_only honly.1
  have hviews : (hwaitLanes s e d a (hwaitDone s e a)).views = vs := by rw [honly.1]
  refine ⟨hwaitLanes s e d a (hwaitDone s e a), holdsOn_kept hi ?_ (fun _ _ _ => rfl) _ _ ?_, hregs, ?_, hmem⟩
  · rw [hvs]; exact (keepsPlace_views hh vs).writeLanes ..
  · rw [exec_hwait hi, if_neg hd]
  · rw [hviews]; exact honly

end

/-! ## HCANCEL -/

/-- HCANCEL of a handle word names copy c: the word's future is unresolved, and the copy is its operation (R321). -/
def namesCopy (e : Env) (c : Copy) (w : Word) : Bool :=
  ((futureOf? e.gr w).any fun f => !f.res) && !w.getLsbD 31 && (c.group == e.g && handleIndex c.handle == handleIndex w && handleGen c.handle == handleGen w)

/-- The end of a copy is asked for where one of the handle words names it (R321). -/
def askCopy (e : Env) (ws : List Word) (c : Copy) : Copy := if ws.any (namesCopy e c) && c.cancel == 0 then { c with cancel := 1 } else c

theorem askCopy_asked {e : Env} {ws : List Word} {c : Copy} (hn : ws.any (namesCopy e c) = true) (h0 : c.cancel = 0) :
    askCopy e ws c = { c with cancel := 1 } := by
  rw [askCopy, if_pos (by simp [hn, h0])]

theorem askCopy_unasked {e : Env} {ws : List Word} {c : Copy} (hno : ¬ (c.cancel = 0 ∧ ws.any (namesCopy e c) = true)) : askCopy e ws c = c := by
  rw [askCopy, if_neg fun h => hno ?_]
  simp only [Bool.and_eq_true, beq_iff_eq] at h
  exact ⟨h.2, h.1⟩

/-- A copy whose end the first word has asked for stays as it is. -/
theorem askCopy_cons (e : Env) (w : Word) (ws : List Word) (c : Copy) : askCopy e ws (askCopy e [w] c) = askCopy e (w :: ws) c := by
  by_cases h0 : c.cancel = 0
  · by_cases hw : namesCopy e c w = true
    · rw [askCopy_asked (ws := [w]) (by simp [hw]) h0, askCopy_asked (ws := w :: ws) (by simp [hw]) h0, askCopy_unasked (by simp)]
    · rw [askCopy_unasked (ws := [w]) (by simp [hw]), askCopy, askCopy, List.any_cons, Bool.eq_false_iff.mpr hw, Bool.false_or]
  · have hstays (xs : List Word) : askCopy e xs c = c := askCopy_unasked fun h => h0 h.1
    rw [hstays [w], hstays ws, hstays (w :: ws)]

/-- INDEX and GEN are the low 23 bits of a handle word (R306). -/
theorem sameHandle_iff (w v : Word) : handleIndex w = handleIndex v ∧ handleGen w = handleGen v ↔ w.toNat % 2 ^ 23 = v.toNat % 2 ^ 23 := by
  simp only [handleIndex, handleGen]; omega

theorem namesCopy_some {e : Env} {w : Word} {f : Future} (hf : futureOf? e.gr w = some f) (c : Copy) : namesCopy e c w =
    (!(f.res || w.getLsbD 31) && (c.group == e.g && handleIndex c.handle == handleIndex w && handleGen c.handle == handleGen w)) := by
  rw [namesCopy, hf, Bool.not_or]; rfl

theorem namesCopy_none {e : Env} {w : Word} (hf : futureOf? e.gr w = none) (c : Copy) : namesCopy e c w = false := by
  rw [namesCopy, hf]; rfl

theorem namesCopy_iff (e : Env) (c : Copy) (w : Word) : namesCopy e c w = true ↔ c.group = e.g ∧
    ∃ f, futureOf? e.gr w = some f ∧ f.res = false ∧ w.getLsbD 31 = false ∧ c.handle.toNat % 2 ^ 23 = w.toNat % 2 ^ 23 := by
  rw [← sameHandle_iff]
  cases hf : futureOf? e.gr w with
  | none => simp only [namesCopy_none hf, Bool.false_eq_true, reduceCtorEq, false_and, exists_false, and_false]
  | some f =>
    simp only [namesCopy_some hf, Bool.and_eq_true, Bool.not_or, Bool.not_eq_true', beq_iff_eq, Option.some.injEq, exists_eq_left']
    tauto

theorem cancelOne_only {e : Env} {u : State} (hh : Here e u) (w : Word) :
    ∃ ms, cancelOne u e w = { u with copies := u.copies.map (askCopy e [w]), matops := ms } := by
  have hnone (hno : ∀ c, namesCopy e c w = false) : u = { u with copies := u.copies.map (askCopy e [w]), matops := u.matops } := by
    have : askCopy e [w] = id := by funext c; simp [askCopy, hno]
    rw [this, List.map_id]
  rw [cancelOne, now_of_here hh]
  cases hf : futureOf? e.gr w with
  | none => exact ⟨_, hnone (namesCopy_none hf)⟩
  | some f =>
    simp only
    split
    next hres => exact ⟨_, hnone fun c => by rw [namesCopy_some hf, hres]; rfl⟩
    next hres =>
      refine ⟨_, congrArg (fun cs => ({ u with copies := cs, matops := _ } : State)) (List.map_congr_left fun c _ => ?_)⟩
      have hno : namesCopy e c w = (c.group == e.g && handleIndex c.handle == handleIndex w && handleGen c.handle == handleGen w) := by
        rw [namesCopy_some hf, Bool.eq_false_iff.mpr hres]; rfl
      rw [askCopy, List.any_cons, List.any_nil, Bool.or_false, hno]

theorem foldl_cancelOne_only {e : Env} (ws : List Word) {u : State} (hh : Here e u) :
    ∃ ms, ws.foldl (fun t w => cancelOne t e w) u = { u with copies := u.copies.map (askCopy e ws), matops := ms } := by
  induction ws generalizing u with
  | nil =>
    have : askCopy e [] = id := by funext c; simp [askCopy]
    exact ⟨u.matops, by rw [this, List.map_id]; rfl⟩
  | cons w ws ih =>
    obtain ⟨ms, hms⟩ := cancelOne_only hh w
    obtain ⟨ms', hms'⟩ := ih (here_of_groups hh (show (cancelOne u e w).groups = u.groups by rw [hms]))
    refine ⟨ms', ?_⟩
    rw [List.foldl_cons, hms', hms, List.map_map]
    exact congrArg (fun cs => ({ u with copies := cs, matops := ms' } : State)) (List.map_congr_left fun c _ => askCopy_cons e w ws c)

section
variable {h : Hdr} {a : Reg} {s : State} {e : Env} (hi : Issues (.hcancel h a) s e)
include hi

theorem exec_hcancel : exec (.hcancel h a) s = finish e (.hcancel h a) (if e.live = 0 then .done s else if e.fixed then .trap s .ndet e.live 0 0
    else .done (((lanesOf e.live).map (e.v s a)).foldl (fun t w => cancelOne t e w) s)) s := by
  show execHcancel h a s = _
  rw [execHcancel, runWord_issues hi, List.foldl_map]

theorem hcancel_idle (hl : e.live = 0) : Completes (.hcancel h a) s e noResult := by
  rw [Completes, exec_hcancel hi, if_pos hl]; exact finish_done_completes hi

theorem hcancel_ndet (hl : e.live ≠ 0) (hf : e.fixed = true) : Faults (.hcancel h a) s e .ndet e.live 0 0 := by
  rw [Faults, exec_hcancel hi, if_neg hl, if_pos hf, finish_trap]

theorem hcancel_asks (hl : e.live ≠ 0) (hf : e.fixed = false) : ∃ ms, CompletesOn (.hcancel h a) s e
    { s with copies := s.copies.map (askCopy e ((lanesOf e.live).map (e.v s a))), matops := ms } noResult := by
  obtain ⟨ms, hms⟩ := foldl_cancelOne_only ((lanesOf e.live).map (e.v s a)) (issues_here hi)
  refine ⟨ms, completesOn_of_groups hi rfl ?_⟩
  rw [exec_hcancel hi, if_neg hl, if_neg (by simp [hf]), hms]

end

/-- The copies whose end is asked for (R321). -/
theorem any_namesCopy_iff (e : Env) (s : State) (a : Reg) (c : Copy) : ((lanesOf e.live).map (e.v s a)).any (namesCopy e c) = true ↔
    c.group = e.g ∧ ∃ l f, bit e.live l = true ∧ futureOf? e.gr (e.v s a l) = some f ∧ f.res = false ∧ (e.v s a l).getLsbD 31 = false ∧
      c.handle.toNat % 2 ^ 23 = (e.v s a l).toNat % 2 ^ 23 := by
  simp only [List.any_map, List.any_eq_true, mem_lanesOf, Function.comp, namesCopy_iff]
  exact ⟨fun ⟨l, hl, hg, f, hf⟩ => ⟨hg, l, f, hl, hf⟩, fun ⟨hg, l, f, hl, hf⟩ => ⟨l, hl, hg, f, hf⟩⟩

/-! ## The statement -/

/-- Settles O42: each lane reads the entry that its handle word matches, and HCANCEL marks the copies one handle word at a time. -/
theorem futureWordsComplete : Obligations.FutureWordsComplete := by
  unfold Obligations.FutureWordsComplete
  intro s e h d a w entry word landed hok
  have hentry (l : Nat) : entry l = futureOf? e.gr (w l) := (futureOf?_eq_filter ..).symm
  have hread (l : Nat) : word l = (queryFuture e.gr (w l)).1.toNat ∧ landed l = (queryFuture e.gr (w l)).2.toNat := by
    cases hf : entry l with
    | none =>
      obtain ⟨h1, h2⟩ := queryFuture_none ((hentry l).symm.trans hf)
      simp only [word, landed, hf, h1, h2, and_self]
    | some f =>
      obtain ⟨hs, hl⟩ := hok l f hf
      obtain ⟨h1, h2⟩ := queryFuture_some ((hentry l).symm.trans hf) hs hl
      simp only [word, landed, hf, h1, h2, and_self]
  have hword : word = fun l => (queryFuture e.gr (w l)).1.toNat := funext fun l => (hread l).1
  have hlanded : landed = fun l => (queryFuture e.gr (w l)).2.toNat := funext fun l => (hread l).2
  rw [hword, hlanded]
  refine ⟨htest_completes, fun hi done hd => ?_, fun hi => ⟨hcancel_idle hi, hcancel_ndet hi, fun hl hf => ?_⟩⟩
  · obtain rfl := hwaitDone_eq (issues_here hi) hd
    exact ⟨hwait_goes_on hi, hwait_holds hi⟩
  · obtain ⟨ms, hdone⟩ := hcancel_asks hi hl hf
    refine ⟨_, hdone, rfl, List.length_map .., fun i c hc => ?_⟩
    have hasked := any_namesCopy_iff e s a c
    simp only [← show ∀ l, entry l = futureOf? e.gr (e.v s a l) from hentry] at hasked
    have hget : (s.copies.map (askCopy e ((lanesOf e.live).map (e.v s a))))[i]? = some (askCopy e ((lanesOf e.live).map (e.v s a)) c) := by
      rw [List.getElem?_map, hc]; rfl
    refine ⟨fun ⟨h0, hn⟩ => ?_, fun hno => ?_⟩
    · rw [← askCopy_asked (hasked.mpr hn) h0]; exact hget
    · rw [hget, askCopy_unasked fun ⟨h0, hn⟩ => hno ⟨h0, hasked.mp hn⟩]

end Sys2Proof.Machine
end

section
/-! PROOFS. The round trip of words: the decoder reads back what the encoder writes. -/

namespace Sys2Proof.Laws.RoundTrip

set_option Elab.async false

/-- The lemma of each word, by its name; a happening is no word. -/
theorem statement_of_instr (i : Instr) : Statement i := by
  cases i with
  | illegal => exact illegal _ _
  | nop => exact nop _
  | pairedWord => exact pairedWord _ _ _
  | iadd => exact iadd _ _ _ _ _ _
  | imul => exact imul _ _ _ _ _
  | imad => exact imad _ _ _ _ _ _
  | idiv => exact idiv _ _ _ _ _
  | imnx => exact imnx _ _ _ _ _
  | iabs => exact iabs _ _ _ _
  | icmp => exact icmp _ _ _ _ _ _
  | sel => exact sel _ _ _ _ _ _
  | ltab => exact ltab _ _ _ _ _ _
  | shf => exact shf _ _ _ _ _ _ _
  | bfx => exact bfx _ _ _ _ _
  | bfi => exact bfi _ _ _ _ _
  | bitc => exact bitc _ _ _ _
  | bperm => exact bperm _ _ _ _ _
  | iaddw => exact iaddw _ _ _ _ _
  | shfw => exact shfw _ _ _ _ _ _
  | icmpw => exact icmpw _ _ _ _ _ _
  | lea => exact lea _ _ _ _ _ _
  | mov => exact mov _ _ _ _
  | movi => exact movi _ _ _
  | idot => exact idot _ _ _ _ _ _ _ _ _
  | cvti => exact cvti _ _ _ _
  | sread => exact sread _ _ _
  | fadd => exact fadd _ _ _ _ _ _ _
  | fmul => exact fmul _ _ _ _ _ _
  | ffma => exact ffma _ _ _ _ _ _ _ _ _
  | fmnx => exact fmnx _ _ _ _ _
  | fcmp => exact fcmp _ _ _ _ _ _
  | fclass => exact fclass _ _ _ _
  | fsfu => exact fsfu _ _ _ _ _
  | fdiv => exact fdiv _ _ _ _ _ _
  | frint => exact frint _ _ _ _ _
  | fscale => exact fscale _ _ _ _ _ _
  | cvtf => exact cvtf _ _ _ _ _ _
  | cvtfi => exact cvtfi _ _ _ _ _ _ _
  | cvtif => exact cvtif _ _ _ _ _ _
  | paddh => exact paddh _ _ _ _ _ _ _
  | pmulh => exact pmulh _ _ _ _ _ _ _
  | pfmah => exact pfmah _ _ _ _ _ _ _ _
  | pmnxh => exact pmnxh _ _ _ _ _ _
  | fdot2 => exact fdot2 _ _ _ _ _ _ _ _
  | fquant => exact fquant _ _ _ _ _ _ _ _
  | fdeq => exact fdeq _ _ _ _ _ _ _ _
  | fexpd => exact fexpd _ _ _ _ _
  | flse => exact flse _ _ _ _
  | ftwosum => exact ftwosum _ _ _ _
  | bra => exact bra _ _
  | brx => exact brx _ _
  | call => exact call _ _ _
  | callx => exact callx _ _ _
  | ret => exact ret _ _
  | exit => exact exit _
  | vote => exact vote _ _ _ _ _
  | shfl => exact shfl _ _ _ _ _ _ _ _
  | wred => exact wred _ _ _ _ _
  | wscan => exact wscan _ _ _ _ _ _
  | matchw => exact matchw _ _ _ _ _ _
  | elect => exact elect _ _ _
  | wsync => exact wsync _ _
  | yieldl => exact yieldl _
  | brkpt => exact brkpt _ _
  | freeze => exact freeze _ _
  | tnest => exact tnest _
  | tsignal => exact tsignal _ _
  | rgrow => exact rgrow _ _
  | rshrink => exact rshrink _ _
  | gbar => exact gbar _ _
  | gangbar => exact gangbar _
  | garrive => exact garrive _ _ _
  | gwait => exact gwait _ _ _
  | launch => exact launch _ _ _
  | yield => exact yield _
  | sleep => exact sleep _ _
  | qpush => exact qpush _ _ _ _
  | qpop => exact qpop _ _ _ _ _
  | qclose => exact qclose _ _
  | nodesig => exact nodesig _ _
  | ld => exact ld _ _ _ _ _
  | st => exact st _ _ _ _ _
  | lds => exact lds _ _ _ _ _
  | sts => exact sts _ _ _ _ _
  | pref => exact pref _ _ _ _ _
  | zfill => exact zfill _ _ _ _ _
  | cflush => exact cflush _ _ _ _ _
  | taddr => exact taddr _ _ _ _ _
  | mapq => exact mapq _ _ _ _
  | aadd => exact aadd _ _ _ _ _ _ _
  | amnx => exact amnx _ _ _ _ _ _ _
  | alog => exact alog _ _ _ _ _ _ _
  | axch => exact axch _ _ _ _ _ _
  | acas => exact acas _ _ _ _ _ _
  | ainc => exact ainc _ _ _ _ _ _ _
  | fence => exact fence _ _ _
  | waita => exact waita _ _ _ _ _ _ _ _ _
  | wakea => exact wakea _ _ _ _ _ _
  | bcinit => exact bcinit _ _ _ _ _ _ _
  | bcadd => exact bcadd _ _ _ _ _ _ _
  | ordecl => exact ordecl _ _
  | ordrop => exact ordrop _ _
  | ldrs => exact ldrs _ _ _ _ _
  | ldrm => exact ldrm _ _ _ _ _ _
  | ldpfx => exact ldpfx _ _ _ _ _ _
  | ldpick => exact ldpick _ _ _ _ _ _
  | tfence => exact tfence _ _
  | orbuild => exact orbuild _ _
  | tidset => exact tidset _ _ _
  | tidinv => exact tidinv _ _
  | mbload => exact mbload _ _
  | mmul => exact mmul _ _ _
  | maccrd => exact maccrd _ _ _ _ _ _
  | maccwr => exact maccwr _ _ _ _ _ _
  | maccz => exact maccz _ _ _
  | mtrans => exact mtrans _ _
  | mperm => exact mperm _ _
  | mrsum => exact mrsum _ _
  | mepi => exact mepi _ _
  | bcopy => exact bcopy _ _ _
  | gather => exact gather _ _ _
  | scatter => exact scatter _ _ _
  | xcopy => exact xcopy _ _ _
  | htest => exact htest _ _ _
  | hwait => exact hwait _ _ _
  | hcancel => exact hcancel _ _
  | vpub => exact vpub _ _ _
  | vpin => exact vpin _ _ _
  | vret => exact vret _ _
  | tokrec => exact tokrec _ _ _ _
  | smask => exact smask _ _ _ _ _
  | ulcall => exact ulcall _ _ _ _
  | slotrd => exact slotrd _ _ _ _ _
  | slotset => exact slotset _ _ _
  | trap => exact trap _ _
  | tret => exact tret _ _
  | cread => exact cread _ _ _
  | cwrite => exact cwrite _ _ _
  | tsave => exact tsave _ _ _
  | tload => exact tload _ _
  | tlbinv => exact tlbinv _ _
  | idle => exact idle _
  | _ => intro h; cases h

/-- Settles O4: the round trip, instruction by instruction. -/
theorem decodeReadsEncode : Obligations.DecodeReadsEncode := statement_of_instr

end Sys2Proof.Laws.RoundTrip
end

section
/-! PROOFS. The other round trip: a word that the decoder accepts is the word the encoder writes for what it answers. First, what
each piece that the decoder reads says of the fields it reads it from. -/

namespace Sys2Proof

set_option Elab.async false

/-! ## Codes read back -/

/-- A code that is the place in a list of names is the number that was looked up. -/
theorem code_of_getElem? {α : Type} {l : List α} {code : α → Nat} {n : Nat} {x : α} (h : l[n]? = some x)
    (hl : l.map code = List.range l.length) : code x = n := by
  have hn : n < l.length := (List.getElem?_eq_some_iff.mp h).1
  have hx : (l.map code)[n]? = some (code x) := by rw [List.getElem?_map, h]; rfl
  rw [hl, List.getElem?_range hn] at hx
  exact (Option.some.inj hx).symm

/-- A code in a list with gaps. -/
theorem code_of_join {α : Type} {l : List (Option α)} {code : α → Nat} {n : Nat} {x : α} (h : l[n]?.join = some x)
    (hl : ∀ k < l.length, ∀ y, l[k]? = some (some y) → code y = k) : code x = n := by
  have hx : l[n]? = some (some x) := by simpa [Option.join_eq_some_iff] using h
  exact hl n (List.getElem?_eq_some_iff.mp hx).1 x hx

section
variable {n : Nat}
theorem AddOp.code_eq {x : AddOp} (h : addOpOf n = some x) : x.code = n := code_of_getElem? h rfl
theorem MulOp.code_eq {x : MulOp} (h : mulOpOf n = some x) : x.code = n := code_of_getElem? h rfl
theorem MadOp.code_eq {x : MadOp} (h : madOpOf n = some x) : x.code = n := code_of_getElem? h rfl
theorem DivOp.code_eq {x : DivOp} (h : divOpOf n = some x) : x.code = n := code_of_getElem? h rfl
theorem MnxOp.code_eq {x : MnxOp} (h : mnxOpOf n = some x) : x.code = n := code_of_getElem? h rfl
theorem AbsOp.code_eq {x : AbsOp} (h : absOpOf n = some x) : x.code = n := code_of_getElem? h rfl
theorem Rel.code_eq {x : Rel} (h : relOf n = some x) : x.code = n := code_of_getElem? h rfl
theorem ShfOp.code_eq {x : ShfOp} (h : shfOpOf n = some x) : x.code = n := code_of_getElem? h rfl
theorem ShwOp.code_eq {x : ShwOp} (h : shwOpOf n = some x) : x.code = n := code_of_getElem? h rfl
theorem BitOp.code_eq {x : BitOp} (h : bitOpOf n = some x) : x.code = n := code_of_getElem? h rfl
theorem AdwOp.code_eq {x : AdwOp} (h : adwOpOf n = some x) : x.code = n := code_of_getElem? h rfl
theorem MovW.code_eq {x : MovW} (h : movWOf n = some x) : x.code = n := code_of_getElem? h rfl
theorem CvtI.code_eq {x : CvtI} (h : cvtIOf n = some x) : x.code = n := code_of_getElem? h rfl
theorem SysVal.code_eq {x : SysVal} (h : sysValOf n = some x) : x.code = n := code_of_getElem? h rfl
theorem Rnd.code_eq {x : Rnd} (h : rndOf n = some x) : x.code = n := code_of_getElem? h rfl
theorem FRel.code_eq {x : FRel} (h : fRelOf n = some x) : x.code = n := code_of_getElem? h rfl
theorem Fmt.code_eq {x : Fmt} (h : fmtOf n = some x) : x.code = n := code_of_getElem? h rfl
theorem SfuOp.code_eq {x : SfuOp} (h : sfuOpOf n = some x) : x.code = n := code_of_getElem? h rfl
theorem CvtF.code_eq {x : CvtF} (h : cvtFOf n = some x) : x.code = n := code_of_getElem? h rfl
theorem IntTy.code_eq {x : IntTy} (h : intTyOf n = some x) : x.code = n := code_of_getElem? h rfl
theorem QFmt.code_eq {x : QFmt} (h : qFmtOf n = some x) : x.code = n := code_of_getElem? h rfl
theorem VoteOp.code_eq {x : VoteOp} (h : voteOf n = Option.some x) : x.code = n := code_of_getElem? h rfl
theorem ShflOp.code_eq {x : ShflOp} (h : shflOf n = some x) : x.code = n := code_of_getElem? h rfl
theorem RedOp.code_eq {x : RedOp} (h : redOf n = some x) : x.code = n := code_of_getElem? h rfl
theorem MOrd.code_eq {x : MOrd} (h : ordOf n = some x) : x.code = n := code_of_getElem? h rfl
theorem MSize.code_eq {x : MSize} (h : sizeOf' n = some x) : x.code = n := code_of_getElem? h rfl
theorem FlushOp.code_eq {x : FlushOp} (h : flushOf n = some x) : x.code = n := code_of_getElem? h rfl
theorem AaddOp.code_eq {x : AaddOp} (h : aaddOf n = some x) : x.code = n := code_of_getElem? h rfl
theorem LogOp.code_eq {x : LogOp} (h : logOf n = some x) : x.code = n := code_of_getElem? h rfl
theorem WaitCond.code_eq {x : WaitCond} (h : condOf n = some x) : x.code = n := code_of_getElem? h rfl
theorem OrTy.code_eq {x : OrTy} (h : orTyOf n = some x) : x.code = n := code_of_getElem? h rfl
theorem FenceOrd.code_eq {x : FenceOrd} (h : fenceOf n = some x) : x.code = n := code_of_join h fun k hk y hy => by simp at hk; interval_cases k <;> cases hy <;> rfl
theorem wideCode_of {x : Bool} (h : wideOf n = some x) : wideCode x = n := code_of_join h fun k hk y hy => by simp at hk; interval_cases k <;> cases hy <;> rfl
theorem relCode_of {x : Bool} (h : relOrd n = some x) : relCode x = n * 1024 := by
  obtain rfl | ⟨rfl, rfl⟩ | ⟨rfl, rfl⟩ : n = 1 ∨ (n = 0 ∧ x = false) ∨ (n = 2 ∧ x = true) := by
    rcases n with _ | _ | _ | n <;> simp_all [relOrd]
  · simp [relOrd] at h
  · rfl
  · rfl
theorem acqCode_of {x : Bool} (h : acqOrd n = some x) : acqCode x = n * 1024 := by
  rcases n with _ | _ | n <;> simp_all [acqOrd, acqCode]

/-- SCOPE = 7 apart, which is refused by name (R48). -/
theorem Scope.code_eq {x : Scope} (h : scopeOf n = some x) (h7 : n ≠ 7) : x.code = n := by
  have hn : n < 7 := by
    have := (List.getElem?_eq_some_iff.mp h).1
    simp at this; omega
  refine code_of_getElem? (l := [.thr, .wrp, .grp, .clu, .die, .dev, .sys]) ?_ rfl
  rw [← h, scopeOf]
  interval_cases n <;> rfl

theorem CtlReg.code_eq {x : CtlReg} (h : ctlOf n = some x) : x.code = n := by
  unfold ctlOf at h
  split at h
  · cases h
    simp only [CtlReg.code, BitVec.toNat_ofNat]
    omega
  · have := (List.getElem?_eq_some_iff.mp h).1
    simp at this
    interval_cases n <;> cases h <;> rfl
end

/-! ## Fields -/

@[simp] theorem zero_eq_true (r : Reg) : zero r = true ↔ r = 0 := by simp [zero]

theorem m_lt (f : Full) : f.m.toNat < 4096 := f.m.isLt

theorem bit_flg (f : Full) (k : Nat) : bit (flg f k) k = fld f k 1 * 2 ^ k := by
  have : fld f k 1 < 2 := Nat.mod_lt _ (by decide)
  unfold flg
  interval_cases h : fld f k 1 <;> simp

/-- A number that a narrow field takes from a register field. -/
theorem fieldNat_ofNat {k : Nat} {r : Reg} (h : r.toNat < 2 ^ k) : fieldNat (BitVec.ofNat k r.toNat).toNat = r := by
  rw [BitVec.toNat_ofNat, Nat.mod_eq_of_lt h, fieldNat, ofNat_toNat]

theorem placeOf_field (f : Full) : (placeOf f).field = f.a := by unfold placeOf; split <;> rfl

theorem placeOf_bit (f : Full) : (placeOf f).bit = fld f 6 1 * 64 := by
  rw [show fld f 6 1 * 64 = bit (flg f 6) 6 from (bit_flg f 6).symm]
  unfold placeOf
  split <;> simp_all [Place.bit]

/-- The optional register of a field with its presence bit. -/
theorem optReg_of {f : Full} {k : Nat} {r : Reg} {x : Option Reg} (h : (if flg f k then some (some r) else if zero r then some none else none) = some x) :
    optField x = r ∧ optBit x = fld f k 1 := by
  have hk : fld f k 1 < 2 := Nat.mod_lt _ (by decide)
  split at h
  · next hf => cases h; exact ⟨rfl, (beq_iff_eq.mp hf).symm⟩
  · next hf =>
    split at h
    · next hz =>
      cases h
      have : fld f k 1 ≠ 1 := fun hc => hf (beq_iff_eq.mpr hc)
      exact ⟨((zero_eq_true r).mp hz).symm, by simp only [optBit, Option.isSome_none, Bool.false_eq_true, if_false]; omega⟩
    · cases h

theorem retOf_eq {f : Full} {x : Option Reg} (h : retOf f = some x) : optField x = f.d ∧ optBit x = fld f 0 1 := optReg_of h

theorem tmoOf_eq {f : Full} {x : Option Reg} (h : tmoOf f = some x) : optField x = f.c ∧ optBit x = fld f 0 1 := optReg_of h

theorem laneOf_eq {f : Full} {x : Option Reg} (hx : maskOf f = some x) (h : Hdr) (op : Nat) (d a b : Reg) (m : Nat) :
    laneOf h op d a b x m = fullOf h op d a b f.c (m + fld f 11 1 * 2048) := by
  obtain ⟨hf, hb⟩ := optReg_of hx
  cases x <;> simp [laneOf, ← hf, ← hb, optField, optBit]

theorem imm20_toNat (f : Full) : (imm20 f).toNat = f.c.toNat * 4096 + f.m.toNat := by
  have := f.c.isLt
  have := f.m.isLt
  rw [imm20, BitVec.toNat_ofNat]
  omega

theorem imm20_high (f : Full) : fieldNat ((imm20 f).toNat / 4096) = f.c := by
  have := f.m.isLt
  rw [imm20_toNat, show (f.c.toNat * 4096 + f.m.toNat) / 4096 = f.c.toNat by omega, fieldNat, ofNat_toNat]

theorem imm20_low (f : Full) : (imm20 f).toNat % 4096 = f.m.toNat := by
  have := f.m.isLt
  rw [imm20_toNat]
  omega

theorem cmpOf_eq {f : Full} {b : Cmp2} (hb : cmp2Of f = some b) (h : Hdr) (op : Nat) (rel : Rel) (u : Bool) (d a : Reg) :
    cmpOf h op rel u d a b = fullOf h op d a f.b f.c (rel.code + bit u 3 + fld f 4 1 * 16) := by
  have hk := bit_flg f 4
  unfold cmp2Of at hb
  split at hb <;> split at hb <;> simp_all [cmpOf]
  all_goals subst hb; simp [← hk]

/-- The field selector: bit 0 of M apart, which it does not read, its immediates stand in B and in M. -/
theorem bitFieldOf_eq {f : Full} {x : Field} (hx : fieldOf f = some x) (h : Hdr) (op : Nat) (d a c : Reg) (sx : Nat) :
    fieldOk x = true ∧ bitFieldOf h op d a x c sx = fullOf h op d a f.b c (sx + f.m.toNat / 2 * 2) := by
  have hm := m_lt f
  unfold fieldOf at hx
  split at hx
  · next h1 =>
    split at hx
    · next hc =>
      obtain ⟨hp, hl, h2⟩ := hc
      cases hx
      have e1 : (BitVec.ofNat 6 f.b.toNat).toNat = f.b.toNat := by rw [BitVec.toNat_ofNat]; omega
      have e2 : (BitVec.ofNat 6 (fld f 6 6)).toNat = fld f 6 6 := by rw [BitVec.toNat_ofNat]; exact Nat.mod_mod _ _
      refine ⟨by simp only [fieldOk, e1, e2, hp, hl, decide_true, Bool.and_self], ?_⟩
      have hs : sx + 2 + fld f 6 6 * 64 = sx + f.m.toNat / 2 * 2 := by
        simp only [flg, beq_iff_eq, fld] at h1 h2 ⊢
        omega
      simp only [bitFieldOf, fieldNat_ofNat (show f.b.toNat < 2 ^ 6 by omega), e2, hs]
    · cases hx
  · next h1 =>
    split at hx
    · next h2 =>
      cases hx
      have hs : sx = sx + f.m.toNat / 2 * 2 := by
        simp only [flg, beq_iff_eq, fld] at h1 h2
        omega
      exact ⟨rfl, by rw [← hs]; rfl⟩
    · cases hx

/-- M of LD, ST, LDS and STS. -/
theorem memModOf_code {f : Full} {m : MemMod} (h : memModOf f = some m) (h7 : fld f 7 3 ≠ 7) : m.code = f.m.toNat := by
  simp [memModOf, Option.bind_eq_some_iff] at h
  obtain ⟨o, ho, s, hs, z, hz, rfl⟩ := h
  have := m_lt f
  simp only [MemMod.code, MOrd.code_eq ho, Scope.code_eq hs h7, MSize.code_eq hz, bit_flg, BitVec.toNat_ofNat, fld]
  omega

/-- M of an atomic, its selector and its presence bits apart. -/
theorem atModOf_code {f : Full} {m : AtMod} (h : atModOf f = some m) (h7 : fld f 7 3 ≠ 7) :
    m.ord.code = fld f 10 2 ∧ m.scope.code = fld f 7 3 ∧ wideCode m.wide = fld f 1 3 := by
  simp only [atModOf, Option.bind_eq_bind, Option.bind_eq_some_iff, Option.some.injEq] at h
  obtain ⟨o, ho, s, hs, w, hw, rfl⟩ := h
  exact ⟨MOrd.code_eq ho, Scope.code_eq hs h7, wideCode_of hw⟩

/-- The fields of an atomic. -/
theorem atomicOf_fields {f : Full} {m : AtMod} {d : Option Reg} {sel : Nat} (hm : atModOf f = some m) (h7 : fld f 7 3 ≠ 7) (hd : retOf f = some d)
    (hs : sel = fld f 4 2) (h : Hdr) (op : Nat) :
    atomicOf h op m sel (placeOf f) f.c f.b d = fullOf h op f.d f.a f.b f.c f.m.toNat := by
  obtain ⟨ho, hsc, hw⟩ := atModOf_code hm h7
  obtain ⟨hdf, hdb⟩ := retOf_eq hd
  have := m_lt f
  rw [atomicOf, hdf, hdb, placeOf_field, placeOf_bit, ho, hsc, hw, hs]
  congr 1
  simp only [fld]
  omega

/-- The fields of a word that has header `h`. -/
theorem fullOf_of_hdrOf {f : Full} {h : Hdr} {op m : Nat} {d a b c : Reg} (hh : hdrOf f = some h) (ho : f.op.toNat = op) (hd : f.d = d)
    (ha : f.a = a) (hb : f.b = b) (hc : f.c = c) (hm : f.m.toNat = m) : fullOf h op d a b c m = f := by
  obtain ⟨mark, fop, fd, fa, fb, fc, g, gn, ge, fm⟩ := f
  subst ho hd ha hb hc hm
  cases ge with
  | true => simp only [hdrOf, if_true, Option.some.injEq] at hh; subst hh; simp [fullOf]
  | false =>
    simp only [hdrOf, Bool.false_eq_true, if_false] at hh
    split at hh
    · next hg => cases hh; simp_all [fullOf]
    · cases hh

theorem hdrOf_of_noGuard {f : Full} (h : noGuard f = true) : hdrOf f = some { mark := f.mark, guard := none } := by
  simp_all [noGuard, hdrOf]

/-! ## What the decoder's answer is of its word -/

/-- `i` is a word of the full format, its fields are in order, and the encoder gives it the fields `f`. -/
def Written (f : Full) (i : Instr) : Prop :=
  encode i = pack f ∧ encodable i = true ∧ ((Machine.hdr? i).isSome || isWord.isBare i) = true

/-- A word with a header. -/
theorem written_of_hdr {f : Full} {i : Instr} {h : Hdr} {op m : Nat} {d a b c : Reg} (hh : hdrOf f = some h) (ho : f.op.toNat = op)
    (hd : f.d = d) (ha : f.a = a) (hb : f.b = b) (hc : f.c = c) (hi : encode i = pack (fullOf h op d a b c m)) (hm : f.m.toNat = m)
    (he : encodable i = true := by rfl) (hw : ((Machine.hdr? i).isSome || isWord.isBare i) = true := by rfl) : Written f i :=
  ⟨hi.trans (congrArg pack (fullOf_of_hdrOf hh ho hd ha hb hc hm)), he, hw⟩

theorem Written.isWord {f : Full} {i : Instr} (h : Written f i) : isWord i = true := by
  obtain ⟨-, -, hw⟩ := h
  cases i with
  | illegal raw mark => rfl
  | pairedWord mark x y => rfl
  | _ => exact hw

theorem Written.wellFormed {f : Full} {i : Instr} (h : Written f i) (ha : aligned i = true) : wellFormed i = true := by
  obtain ⟨-, he, hw⟩ := h
  cases i with
  | pairedWord mark x y => cases hw
  | _ => simp only [Sys2Proof.wellFormed, he, ha, Bool.and_self]

end Sys2Proof
end

section
/-! PROOFS. The other round trip: words whose fields are read one by one. -/

namespace Sys2Proof

set_option Elab.async false
section
variable {f : Full} {i : Instr}

theorem decNop_written (ho : f.op.toNat = 0x01) (h : decNop f = some i) : Written f i := by
  simp [decNop, Option.bind_eq_some_iff] at h
  obtain ⟨h, hh, ⟨⟨⟨⟨hd, ha⟩, hb⟩, hc⟩, hm⟩, rfl⟩ := h
  exact written_of_hdr hh ho hd ha hb hc rfl (by simp [hm])

theorem decImad_written (ho : f.op.toNat = 0x04) (h : decImad f = some i) : Written f i := by
  simp [decImad, Option.bind_eq_some_iff] at h
  obtain ⟨h, hh, op, hop, rfl⟩ := h
  exact written_of_hdr hh ho rfl rfl rfl rfl rfl (op.code_eq hop).symm

theorem decIdiv_written (ho : f.op.toNat = 0x05) (h : decIdiv f = some i) : Written f i := by
  simp [decIdiv, Option.bind_eq_some_iff] at h
  obtain ⟨h, hh, op, hop, hc, rfl⟩ := h
  exact written_of_hdr hh ho rfl rfl rfl hc rfl (op.code_eq hop).symm

theorem decIabs_written (ho : f.op.toNat = 0x07) (h : decIabs f = some i) : Written f i := by
  simp [decIabs, Option.bind_eq_some_iff] at h
  obtain ⟨h, hh, op, hop, ⟨hb, hc⟩, rfl⟩ := h
  exact written_of_hdr hh ho rfl rfl hb hc rfl (op.code_eq hop).symm

theorem decSel_written (ho : f.op.toNat = 0x09) (h : decSel f = some i) : Written f i := by
  simp [decSel, Option.bind_eq_some_iff] at h
  obtain ⟨h, hh, h1, rfl⟩ := h
  refine written_of_hdr hh ho rfl rfl rfl rfl rfl ?_
  simp only [bit_flg, fld] at h1 ⊢
  have := m_lt f
  omega

theorem decLtab_written (ho : f.op.toNat = 0x0A) (h : decLtab f = some i) : Written f i := by
  simp [decLtab, Option.bind_eq_some_iff] at h
  obtain ⟨h, hh, h8, rfl⟩ := h
  refine written_of_hdr hh ho rfl rfl rfl rfl rfl ?_
  simp only [BitVec.toNat_ofNat, fld] at h8 ⊢
  have := m_lt f
  omega

theorem decBitc_written (ho : f.op.toNat = 0x0E) (h : decBitc f = some i) : Written f i := by
  simp [decBitc, Option.bind_eq_some_iff] at h
  obtain ⟨h, hh, op, hop, ⟨hb, hc⟩, rfl⟩ := h
  exact written_of_hdr hh ho rfl rfl hb hc rfl (op.code_eq hop).symm

theorem decBperm_written (ho : f.op.toNat = 0x0F) (h : decBperm f = some i) : Written f i := by
  simp [decBperm, Option.bind_eq_some_iff] at h
  obtain ⟨h, hh, hm, rfl⟩ := h
  exact written_of_hdr hh ho rfl rfl rfl rfl rfl (by simp [hm])

theorem decLea_written (ho : f.op.toNat = 0x13) (h : decLea f = some i) : Written f i := by
  simp [decLea, Option.bind_eq_some_iff] at h
  obtain ⟨h, hh, ⟨h4, hc⟩, rfl⟩ := h
  refine written_of_hdr hh ho rfl rfl rfl hc rfl ?_
  simp only [bit_flg, BitVec.toNat_ofNat, fld] at h4 ⊢
  have := m_lt f
  omega

theorem decMov_written (ho : f.op.toNat = 0x14) (h : decMov f = some i) : Written f i := by
  simp [decMov, Option.bind_eq_some_iff] at h
  obtain ⟨h, hh, w, hw, ⟨hb, hc⟩, rfl⟩ := h
  exact written_of_hdr hh ho rfl rfl hb hc rfl (w.code_eq hw).symm

theorem decIdot_written (ho : f.op.toNat = 0x16) (h : decIdot f = some i) : Written f i := by
  simp [decIdot, Option.bind_eq_some_iff] at h
  obtain ⟨h, hh, ⟨h1, h5⟩, rfl⟩ := h
  refine written_of_hdr hh ho rfl rfl rfl rfl rfl ?_
  simp only [bit_flg, fld] at h1 h5 ⊢
  have := m_lt f
  omega

theorem decCvti_written (ho : f.op.toNat = 0x17) (h : decCvti f = some i) : Written f i := by
  simp [decCvti, Option.bind_eq_some_iff] at h
  obtain ⟨h, hh, op, hop, ⟨hb, hc⟩, rfl⟩ := h
  exact written_of_hdr hh ho rfl rfl hb hc rfl (op.code_eq hop).symm

theorem decSread_written (ho : f.op.toNat = 0x18) (h : decSread f = some i) : Written f i := by
  simp [decSread, Option.bind_eq_some_iff] at h
  obtain ⟨h, hh, v, hv, ⟨⟨ha, hb⟩, hc⟩, rfl⟩ := h
  exact written_of_hdr hh ho rfl ha hb hc rfl (v.code_eq hv).symm

theorem decFadd_written (ho : f.op.toNat = 0x20) (h : decFadd f = some i) : Written f i := by
  simp [decFadd, Option.bind_eq_some_iff] at h
  obtain ⟨h, hh, r, hr, ⟨h4, hc⟩, rfl⟩ := h
  refine written_of_hdr hh ho rfl rfl rfl hc rfl ?_
  simp only [fp, r.code_eq hr, bit_flg, fld] at h4 ⊢
  have := m_lt f
  omega

theorem decFmul_written (ho : f.op.toNat = 0x21) (h : decFmul f = some i) : Written f i := by
  simp [decFmul, Option.bind_eq_some_iff] at h
  obtain ⟨h, hh, r, hr, ⟨h3, hc⟩, rfl⟩ := h
  refine written_of_hdr hh ho rfl rfl rfl hc rfl ?_
  simp only [fp, r.code_eq hr, bit_flg, fld] at h3 ⊢
  have := m_lt f
  omega

theorem decFfma_written (ho : f.op.toNat = 0x22) (h : decFfma f = some i) : Written f i := by
  simp [decFfma, Option.bind_eq_some_iff] at h
  obtain ⟨h, hh, r, hr, h5, rfl⟩ := h
  refine written_of_hdr hh ho rfl rfl rfl rfl rfl ?_
  simp only [fp, r.code_eq hr, bit_flg, fld] at h5 ⊢
  have := m_lt f
  omega

theorem decFmnx_written (ho : f.op.toNat = 0x23) (h : decFmnx f = some i) : Written f i := by
  simp [decFmnx, Option.bind_eq_some_iff] at h
  obtain ⟨h, hh, ⟨⟨h0, h4⟩, hc⟩, rfl⟩ := h
  refine written_of_hdr hh ho rfl rfl rfl hc rfl ?_
  simp only [bit_flg, fld] at h0 h4 ⊢
  have := m_lt f
  omega

theorem decFcmp_written (ho : f.op.toNat = 0x24) (h : decFcmp f = some i) : Written f i := by
  simp [decFcmp, Option.bind_eq_some_iff] at h
  obtain ⟨h, hh, rel, hrel, ⟨⟨h0, h6⟩, hc⟩, rfl⟩ := h
  refine written_of_hdr hh ho rfl rfl rfl hc rfl ?_
  simp only [rel.code_eq hrel, bit_flg, fld] at h0 h6 ⊢
  have := m_lt f
  omega

theorem decFclass_written (ho : f.op.toNat = 0x25) (h : decFclass f = some i) : Written f i := by
  simp [decFclass, Option.bind_eq_some_iff] at h
  obtain ⟨h, hh, t, ht, ⟨⟨⟨h0, h5⟩, hb⟩, hc⟩, rfl⟩ := h
  refine written_of_hdr hh ho rfl rfl hb hc rfl ?_
  simp only [t.code_eq ht, fld] at h0 h5 ⊢
  have := m_lt f
  omega

theorem decFsfu_written (ho : f.op.toNat = 0x26) (h : decFsfu f = some i) : Written f i := by
  simp [decFsfu, Option.bind_eq_some_iff] at h
  obtain ⟨h, hh, op, hop, ⟨⟨⟨h0, h6⟩, hb⟩, hc⟩, rfl⟩ := h
  refine written_of_hdr hh ho rfl rfl hb hc rfl ?_
  simp only [op.code_eq hop, bit_flg, fld] at h0 h6 ⊢
  have := m_lt f
  omega

theorem decFdiv_written (ho : f.op.toNat = 0x27) (h : decFdiv f = some i) : Written f i := by
  simp [decFdiv, Option.bind_eq_some_iff] at h
  obtain ⟨h, hh, r, hr, ⟨h3, hc⟩, rfl⟩ := h
  refine written_of_hdr hh ho rfl rfl rfl hc rfl ?_
  simp only [fp, r.code_eq hr, bit_flg, fld] at h3 ⊢
  have := m_lt f
  omega

theorem decFrint_written (ho : f.op.toNat = 0x28) (h : decFrint f = some i) : Written f i := by
  simp [decFrint, Option.bind_eq_some_iff] at h
  obtain ⟨h, hh, r, hr, ⟨⟨h3, hb⟩, hc⟩, rfl⟩ := h
  refine written_of_hdr hh ho rfl rfl hb hc rfl ?_
  simp only [fp, r.code_eq hr, bit_flg, fld] at h3 ⊢
  have := m_lt f
  omega

theorem decFscale_written (ho : f.op.toNat = 0x29) (h : decFscale f = some i) : Written f i := by
  simp [decFscale, Option.bind_eq_some_iff] at h
  obtain ⟨h, hh, r, hr, ⟨h3, hc⟩, rfl⟩ := h
  refine written_of_hdr hh ho rfl rfl rfl hc rfl ?_
  simp only [fp, r.code_eq hr, bit_flg, fld] at h3 ⊢
  have := m_lt f
  omega

theorem decCvtfi_written (ho : f.op.toNat = 0x2B) (h : decCvtfi f = some i) : Written f i := by
  simp [decCvtfi, Option.bind_eq_some_iff] at h
  obtain ⟨h, hh, ty, hty, t, ht, r, hr, ⟨⟨⟨h3, h8⟩, hb⟩, hc⟩, rfl⟩ := h
  refine written_of_hdr hh ho rfl rfl hb hc rfl ?_
  simp only [fp, ty.code_eq hty, t.code_eq ht, r.code_eq hr, bit_flg, fld] at h3 h8 ⊢
  have := m_lt f
  omega

theorem decCvtif_written (ho : f.op.toNat = 0x2C) (h : decCvtif f = some i) : Written f i := by
  simp [decCvtif, Option.bind_eq_some_iff] at h
  obtain ⟨h, hh, ty, hty, t, ht, r, hr, ⟨⟨⟨h2, h8⟩, hb⟩, hc⟩, rfl⟩ := h
  refine written_of_hdr hh ho rfl rfl hb hc rfl ?_
  simp only [ty.code_eq hty, t.code_eq ht, r.code_eq hr, fld] at h2 h8 ⊢
  have := m_lt f
  omega

theorem decPaddh_written (ho : f.op.toNat = 0x2D) (h : decPaddh f = some i) : Written f i := by
  simp [decPaddh, Option.bind_eq_some_iff] at h
  obtain ⟨h, hh, r, hr, ⟨h4, hc⟩, rfl⟩ := h
  refine written_of_hdr hh ho rfl rfl rfl hc rfl ?_
  simp only [fp, r.code_eq hr, bit_flg, fld] at h4 ⊢
  have := m_lt f
  omega

theorem decPmulh_written (ho : f.op.toNat = 0x2E) (h : decPmulh f = some i) : Written f i := by
  simp [decPmulh, Option.bind_eq_some_iff] at h
  obtain ⟨h, hh, r, hr, ⟨h4, hc⟩, rfl⟩ := h
  refine written_of_hdr hh ho rfl rfl rfl hc rfl ?_
  simp only [fp, r.code_eq hr, bit_flg, fld] at h4 ⊢
  have := m_lt f
  omega

theorem decPfmah_written (ho : f.op.toNat = 0x2F) (h : decPfmah f = some i) : Written f i := by
  simp [decPfmah, Option.bind_eq_some_iff] at h
  obtain ⟨h, hh, r, hr, h4, rfl⟩ := h
  refine written_of_hdr hh ho rfl rfl rfl rfl rfl ?_
  simp only [fp, r.code_eq hr, bit_flg, fld] at h4 ⊢
  have := m_lt f
  omega

theorem decPmnxh_written (ho : f.op.toNat = 0x30) (h : decPmnxh f = some i) : Written f i := by
  simp [decPmnxh, Option.bind_eq_some_iff] at h
  obtain ⟨h, hh, ⟨⟨h0, h5⟩, hc⟩, rfl⟩ := h
  refine written_of_hdr hh ho rfl rfl rfl hc rfl ?_
  simp only [bit_flg, fld] at h0 h5 ⊢
  have := m_lt f
  omega

theorem decFdot2_written (ho : f.op.toNat = 0x31) (h : decFdot2 f = some i) : Written f i := by
  simp [decFdot2, Option.bind_eq_some_iff] at h
  obtain ⟨h, hh, r, hr, h4, rfl⟩ := h
  refine written_of_hdr hh ho rfl rfl rfl rfl rfl ?_
  simp only [fp, r.code_eq hr, bit_flg, fld] at h4 ⊢
  have := m_lt f
  omega

theorem decFexpd_written (ho : f.op.toNat = 0x34) (h : decFexpd f = some i) : Written f i := by
  simp [decFexpd, Option.bind_eq_some_iff] at h
  obtain ⟨h, hh, ⟨⟨h0, h3⟩, hc⟩, rfl⟩ := h
  refine written_of_hdr hh ho rfl rfl rfl hc rfl ?_
  simp only [bit_flg, fld] at h0 h3 ⊢
  have := m_lt f
  omega

theorem decFlse_written (ho : f.op.toNat = 0x35) (h : decFlse f = some i) : Written f i := by
  simp [decFlse, Option.bind_eq_some_iff] at h
  obtain ⟨h, hh, ⟨hm, hc⟩, rfl⟩ := h
  exact written_of_hdr hh ho rfl rfl rfl hc rfl (by simp [hm])

theorem decFtwosum_written (ho : f.op.toNat = 0x36) (h : decFtwosum f = some i) : Written f i := by
  simp [decFtwosum, Option.bind_eq_some_iff] at h
  obtain ⟨h, hh, ⟨hm, hc⟩, rfl⟩ := h
  exact written_of_hdr hh ho rfl rfl rfl hc rfl (by simp [hm])

theorem decBrx_written (ho : f.op.toNat = 0x41) (h : decBrx f = some i) : Written f i := by
  simp [decBrx, Option.bind_eq_some_iff] at h
  obtain ⟨h, hh, ⟨⟨⟨hm, hd⟩, hb⟩, hc⟩, rfl⟩ := h
  exact written_of_hdr hh ho hd rfl hb hc rfl (by simp [hm])

theorem decCallx_written (ho : f.op.toNat = 0x43) (h : decCallx f = some i) : Written f i := by
  simp [decCallx, Option.bind_eq_some_iff] at h
  obtain ⟨h, hh, ⟨⟨hm, hb⟩, hc⟩, rfl⟩ := h
  exact written_of_hdr hh ho rfl rfl hb hc rfl (by simp [hm])

theorem decRet_written (ho : f.op.toNat = 0x44) (h : decRet f = some i) : Written f i := by
  simp [decRet, Option.bind_eq_some_iff] at h
  obtain ⟨h, hh, ⟨⟨⟨hm, hd⟩, hb⟩, hc⟩, rfl⟩ := h
  exact written_of_hdr hh ho hd rfl hb hc rfl (by simp [hm])

theorem decExit_written (ho : f.op.toNat = 0x45) (h : decExit f = some i) : Written f i := by
  simp [decExit, Option.bind_eq_some_iff] at h
  obtain ⟨h, hh, ⟨⟨⟨⟨hm, hd⟩, ha⟩, hb⟩, hc⟩, rfl⟩ := h
  exact written_of_hdr hh ho hd ha hb hc rfl (by simp [hm])

theorem decBrkpt_written (ho : f.op.toNat = 0x4E) (h : decBrkpt f = some i) : Written f i := by
  simp [decBrkpt, Option.bind_eq_some_iff] at h
  obtain ⟨h, hh, ⟨⟨⟨⟨h8, hd⟩, ha⟩, hb⟩, hc⟩, rfl⟩ := h
  refine written_of_hdr hh ho hd ha hb hc rfl ?_
  simp only [BitVec.toNat_ofNat, fld] at h8 ⊢
  have := m_lt f
  omega

theorem decLaunch_written (ho : f.op.toNat = 0x59) (h : decLaunch f = some i) : Written f i := by
  simp [decLaunch, Option.bind_eq_some_iff] at h
  obtain ⟨h, hh, ⟨⟨hm, hb⟩, hc⟩, rfl⟩ := h
  exact written_of_hdr hh ho rfl rfl hb hc rfl (by simp [hm])

theorem decSleep_written (ho : f.op.toNat = 0x5B) (h : decSleep f = some i) : Written f i := by
  simp [decSleep, Option.bind_eq_some_iff] at h
  obtain ⟨h, hh, ⟨⟨⟨hm, hd⟩, hb⟩, hc⟩, rfl⟩ := h
  exact written_of_hdr hh ho hd rfl hb hc rfl (by simp [hm])

theorem decQpush_written (ho : f.op.toNat = 0x60) (h : decQpush f = some i) : Written f i := by
  simp [decQpush, Option.bind_eq_some_iff] at h
  obtain ⟨h, hh, w, hw, ⟨hd, hc⟩, rfl⟩ := h
  exact written_of_hdr hh ho hd rfl rfl hc rfl (w.code_eq hw).symm

theorem decQclose_written (ho : f.op.toNat = 0x62) (h : decQclose f = some i) : Written f i := by
  simp [decQclose, Option.bind_eq_some_iff] at h
  obtain ⟨h, hh, ⟨⟨⟨hm, hd⟩, ha⟩, hc⟩, rfl⟩ := h
  exact written_of_hdr hh ho hd ha rfl hc rfl (by simp [hm])

theorem decCflush_written (ho : f.op.toNat = 0x6E) (h : decCflush f = some i) : Written f i := by
  simp [decCflush, Option.bind_eq_some_iff] at h
  obtain ⟨h, hh, op, hop, ⟨⟨h3, hd⟩, hb⟩, rfl⟩ := h
  refine written_of_hdr hh ho hd rfl hb rfl rfl ?_
  simp only [op.code_eq hop, bit_flg, fld] at h3 ⊢
  have := m_lt f
  omega

theorem decTaddr_written (ho : f.op.toNat = 0x6F) (h : decTaddr f = some i) : Written f i := by
  simp [decTaddr, Option.bind_eq_some_iff] at h
  obtain ⟨h, hh, ⟨h1, hc⟩, rfl⟩ := h
  refine written_of_hdr hh ho rfl rfl rfl hc rfl ?_
  simp only [bit_flg, fld] at h1 ⊢
  have := m_lt f
  omega

theorem decMapq_written (ho : f.op.toNat = 0x70) (h : decMapq f = some i) : Written f i := by
  simp [decMapq, Option.bind_eq_some_iff] at h
  obtain ⟨h, hh, ⟨⟨h1, hb⟩, hc⟩, rfl⟩ := h
  refine written_of_hdr hh ho rfl rfl hb hc rfl ?_
  simp only [bit_flg, fld] at h1 ⊢
  have := m_lt f
  omega

theorem decOrdecl_written (ho : f.op.toNat = 0x88) (h : decOrdecl f = some i) : Written f i := by
  simp [decOrdecl, Option.bind_eq_some_iff] at h
  obtain ⟨h, hh, ⟨⟨⟨hm, hd⟩, hb⟩, hc⟩, rfl⟩ := h
  exact written_of_hdr hh ho hd rfl hb hc rfl (by simp [hm])

theorem decOrdrop_written (ho : f.op.toNat = 0x89) (h : decOrdrop f = some i) : Written f i := by
  simp [decOrdrop, Option.bind_eq_some_iff] at h
  obtain ⟨h, hh, ⟨⟨⟨hm, hd⟩, hb⟩, hc⟩, rfl⟩ := h
  exact written_of_hdr hh ho hd rfl hb hc rfl (by simp [hm])

theorem decOrbuild_written (ho : f.op.toNat = 0x8F) (h : decOrbuild f = some i) : Written f i := by
  simp [decOrbuild, Option.bind_eq_some_iff] at h
  obtain ⟨h, hh, ⟨⟨⟨hm, hd⟩, hb⟩, hc⟩, rfl⟩ := h
  exact written_of_hdr hh ho hd rfl hb hc rfl (by simp [hm])

theorem decLdrs_written (ho : f.op.toNat = 0x8A) (h : decLdrs f = some i) : Written f i := by
  simp [decLdrs, Option.bind_eq_some_iff] at h
  obtain ⟨h, hh, ty, hty, ⟨h2, hc⟩, rfl⟩ := h
  refine written_of_hdr hh ho rfl rfl rfl hc rfl ?_
  simp only [ty.code_eq hty, fld] at h2 ⊢
  have := m_lt f
  omega

theorem decLdrm_written (ho : f.op.toNat = 0x8B) (h : decLdrm f = some i) : Written f i := by
  simp [decLdrm, Option.bind_eq_some_iff] at h
  obtain ⟨h, hh, ty, hty, ⟨h3, hc⟩, rfl⟩ := h
  refine written_of_hdr hh ho rfl rfl rfl hc rfl ?_
  simp only [ty.code_eq hty, bit_flg, fld] at h3 ⊢
  have := m_lt f
  omega

theorem decLdpfx_written (ho : f.op.toNat = 0x8C) (h : decLdpfx f = some i) : Written f i := by
  simp [decLdpfx, Option.bind_eq_some_iff] at h
  obtain ⟨h, hh, ty, hty, h2, rfl⟩ := h
  refine written_of_hdr hh ho rfl rfl rfl rfl rfl ?_
  simp only [ty.code_eq hty, fld] at h2 ⊢
  have := m_lt f
  omega

theorem decLdpick_written (ho : f.op.toNat = 0x8D) (h : decLdpick f = some i) : Written f i := by
  simp [decLdpick, Option.bind_eq_some_iff] at h
  obtain ⟨h, hh, ty, hty, h2, rfl⟩ := h
  refine written_of_hdr hh ho rfl rfl rfl rfl rfl ?_
  simp only [ty.code_eq hty, fld] at h2 ⊢
  have := m_lt f
  omega

theorem decMaccz_written (ho : f.op.toNat = 0x96) (h : decMaccz f = some i) : Written f i := by
  simp [decMaccz, Option.bind_eq_some_iff] at h
  obtain ⟨h, hh, ⟨⟨⟨h1, hd⟩, ha⟩, hc⟩, rfl⟩ := h
  refine written_of_hdr hh ho hd ha rfl hc rfl ?_
  simp only [bit_flg, fld] at h1 ⊢
  have := m_lt f
  omega

theorem decHtest_written (ho : f.op.toNat = 0xA4) (h : decHtest f = some i) : Written f i := by
  simp [decHtest, Option.bind_eq_some_iff] at h
  obtain ⟨h, hh, ⟨⟨hm, hb⟩, hc⟩, rfl⟩ := h
  exact written_of_hdr hh ho rfl rfl hb hc rfl (by simp [hm])

theorem decHwait_written (ho : f.op.toNat = 0xA5) (h : decHwait f = some i) : Written f i := by
  simp [decHwait, Option.bind_eq_some_iff] at h
  obtain ⟨h, hh, ⟨⟨hm, hb⟩, hc⟩, rfl⟩ := h
  exact written_of_hdr hh ho rfl rfl hb hc rfl (by simp [hm])

theorem decHcancel_written (ho : f.op.toNat = 0xA6) (h : decHcancel f = some i) : Written f i := by
  simp [decHcancel, Option.bind_eq_some_iff] at h
  obtain ⟨h, hh, ⟨⟨⟨hm, hd⟩, hb⟩, hc⟩, rfl⟩ := h
  exact written_of_hdr hh ho hd rfl hb hc rfl (by simp [hm])

theorem decVpub_written (ho : f.op.toNat = 0xA8) (h : decVpub f = some i) : Written f i := by
  simp [decVpub, Option.bind_eq_some_iff] at h
  obtain ⟨h, hh, ⟨⟨hm, hb⟩, hc⟩, rfl⟩ := h
  exact written_of_hdr hh ho rfl rfl hb hc rfl (by simp [hm])

theorem decVpin_written (ho : f.op.toNat = 0xA9) (h : decVpin f = some i) : Written f i := by
  simp [decVpin, Option.bind_eq_some_iff] at h
  obtain ⟨h, hh, ⟨⟨hm, hd⟩, hc⟩, rfl⟩ := h
  exact written_of_hdr hh ho hd rfl rfl hc rfl (by simp [hm])

theorem decVret_written (ho : f.op.toNat = 0xAA) (h : decVret f = some i) : Written f i := by
  simp [decVret, Option.bind_eq_some_iff] at h
  obtain ⟨h, hh, ⟨⟨⟨hm, hd⟩, hb⟩, hc⟩, rfl⟩ := h
  exact written_of_hdr hh ho hd rfl hb hc rfl (by simp [hm])

theorem decTokrec_written (ho : f.op.toNat = 0xAB) (h : decTokrec f = some i) : Written f i := by
  simp [decTokrec, Option.bind_eq_some_iff] at h
  obtain ⟨h, hh, ⟨hm, hd⟩, rfl⟩ := h
  exact written_of_hdr hh ho hd rfl rfl rfl rfl (by simp [hm])

theorem decSmask_written (ho : f.op.toNat = 0xAC) (h : decSmask f = some i) : Written f i := by
  simp [decSmask, Option.bind_eq_some_iff] at h
  obtain ⟨h, hh, hm, rfl⟩ := h
  exact written_of_hdr hh ho rfl rfl rfl rfl rfl (by simp [hm])

theorem decUlcall_written (ho : f.op.toNat = 0xAD) (h : decUlcall f = some i) : Written f i := by
  simp [decUlcall, Option.bind_eq_some_iff] at h
  obtain ⟨h, hh, ⟨hm, hc⟩, rfl⟩ := h
  exact written_of_hdr hh ho rfl rfl rfl hc rfl (by simp [hm])

theorem decSlotset_written (ho : f.op.toNat = 0xAF) (h : decSlotset f = some i) : Written f i := by
  simp [decSlotset, Option.bind_eq_some_iff] at h
  obtain ⟨h, hh, ⟨⟨hm, hd⟩, hc⟩, rfl⟩ := h
  exact written_of_hdr hh ho hd rfl rfl hc rfl (by simp [hm])

theorem decTrap_written (ho : f.op.toNat = 0xB0) (h : decTrap f = some i) : Written f i := by
  simp [decTrap, Option.bind_eq_some_iff] at h
  obtain ⟨h, hh, ⟨⟨⟨⟨h8, hd⟩, ha⟩, hb⟩, hc⟩, rfl⟩ := h
  refine written_of_hdr hh ho hd ha hb hc rfl ?_
  simp only [BitVec.toNat_ofNat, fld] at h8 ⊢
  have := m_lt f
  omega

theorem decCread_written (ho : f.op.toNat = 0xB2) (h : decCread f = some i) : Written f i := by
  simp [decCread, Option.bind_eq_some_iff] at h
  obtain ⟨h, hh, r, hr, ⟨⟨⟨h5, ha⟩, hb⟩, hc⟩, rfl⟩ := h
  refine written_of_hdr hh ho rfl ha hb hc rfl ?_
  simp only [r.code_eq hr, fld] at h5 ⊢
  have := m_lt f
  omega

theorem decCwrite_written (ho : f.op.toNat = 0xB3) (h : decCwrite f = some i) : Written f i := by
  simp [decCwrite, Option.bind_eq_some_iff] at h
  obtain ⟨h, hh, r, hr, ⟨⟨⟨h5, hd⟩, hb⟩, hc⟩, rfl⟩ := h
  refine written_of_hdr hh ho hd rfl hb hc rfl ?_
  simp only [r.code_eq hr, fld] at h5 ⊢
  have := m_lt f
  omega

end
end Sys2Proof
end

section
/-! PROOFS. The other round trip: immediates, compares, shifts, conversions, relative words and lane words. -/

namespace Sys2Proof

set_option Elab.async false
section
variable {f : Full} {i : Instr}

theorem need_eq_some_iff (c : Bool) (x : Option Instr) (j : Instr) : need c x = some j ↔ c = true ∧ x = some j := by cases c <;> simp [need]

/-- The bytes of a field made of bytes. -/
theorem append_high {k : Nat} (x : BitVec k) (y : BitVec 8) (lo : Nat) : (x ++ y).extractLsb' (lo + 8) 8 = x.extractLsb' lo 8 := by
  apply BitVec.eq_of_getLsbD_eq
  intro j hj
  simp only [BitVec.getLsbD_extractLsb', BitVec.getLsbD_append, show ¬ lo + 8 + j < 8 by omega, show lo + 8 + j - 8 = lo + j by omega]
  simp

theorem append_low {k : Nat} (x : BitVec k) (y : BitVec 8) : (x ++ y).extractLsb' 0 8 = y := by
  apply BitVec.eq_of_getLsbD_eq
  intro j hj
  simp [BitVec.getLsbD_append, hj]

/-! ### Words with an I20 form, compares, shifts and bit fields -/

theorem srcOk_reg {f : Full} (hb : isImm f = false) (immOp : Bool) : srcOk immOp (.reg f.b) = true := by
  simp_all [isImm, srcOk, bne]

theorem decIadd_written (ho : f.op.toNat = 0x02) (h : decIadd f = some i) : Written f i := by
  simp [decIadd, Option.bind_eq_some_iff] at h
  obtain ⟨h, hh, hi⟩ := h
  split at hi
  · next hb =>
    cases hi
    exact written_of_hdr hh ho rfl rfl (beq_iff_eq.mp hb) (imm20_high f).symm rfl (imm20_low f).symm
  · next hb =>
    simp only [Option.bind_eq_some_iff, need_eq_some, Bool.or_eq_true, decide_eq_true_eq, zero_eq_true] at hi
    obtain ⟨op, hop, hc, rfl⟩ := hi
    refine written_of_hdr hh ho rfl rfl rfl rfl rfl (op.code_eq hop).symm ?_
    rw [← op.code_eq hop] at hc
    have hcarry : (encodable.carryIn op || f.c == 0) = true := by
      rcases hc with hc | hc
      · have : encodable.carryIn op = true := by revert hc; cases op <;> decide
        rw [this, Bool.true_or]
      · simp [hc]
    simp only [encodable, srcOk_reg (Bool.eq_false_iff.mpr hb), hcarry, Bool.and_self]

theorem decImul_written (ho : f.op.toNat = 0x03) (h : decImul f = some i) : Written f i := by
  simp [decImul, Option.bind_eq_some_iff] at h
  obtain ⟨h, hh, hi⟩ := h
  split at hi
  · next hb =>
    cases hi
    exact written_of_hdr hh ho rfl rfl (beq_iff_eq.mp hb) (imm20_high f).symm rfl (imm20_low f).symm
  · next hb =>
    simp only [Option.bind_eq_some_iff, need_eq_some, zero_eq_true] at hi
    obtain ⟨op, hop, hc, rfl⟩ := hi
    exact written_of_hdr hh ho rfl rfl rfl hc rfl (op.code_eq hop).symm (srcOk_reg (Bool.eq_false_iff.mpr hb) (op == .lo))

theorem decImnx_written (ho : f.op.toNat = 0x06) (h : decImnx f = some i) : Written f i := by
  simp [decImnx, Option.bind_eq_some_iff] at h
  obtain ⟨h, hh, hi⟩ := h
  split at hi
  · next hb =>
    cases hi
    exact written_of_hdr hh ho rfl rfl (beq_iff_eq.mp hb) (imm20_high f).symm rfl (imm20_low f).symm
  · next hb =>
    simp only [Option.bind_eq_some_iff, need_eq_some, zero_eq_true] at hi
    obtain ⟨op, hop, hc, rfl⟩ := hi
    exact written_of_hdr hh ho rfl rfl rfl hc rfl (op.code_eq hop).symm (srcOk_reg (Bool.eq_false_iff.mpr hb) (op == .minS))

theorem decIaddw_written (ho : f.op.toNat = 0x10) (h : decIaddw f = some i) : Written f i := by
  simp [decIaddw, Option.bind_eq_some_iff] at h
  obtain ⟨h, hh, hi⟩ := h
  split at hi
  · next hb =>
    cases hi
    exact written_of_hdr hh ho rfl rfl (beq_iff_eq.mp hb) (imm20_high f).symm rfl (imm20_low f).symm
  · next hb =>
    simp only [Option.bind_eq_some_iff, need_eq_some, zero_eq_true] at hi
    obtain ⟨op, hop, hc, rfl⟩ := hi
    exact written_of_hdr hh ho rfl rfl rfl hc rfl (op.code_eq hop).symm (srcOk_reg (Bool.eq_false_iff.mpr hb) (op == .add))

/-- M of a compare, and that EQ and NE have no signedness. -/
theorem cmpOk_eq {rel : Rel} (hr : relOf (fld f 0 3) = some rel) (h : cmpOk f rel = true) :
    f.m.toNat = rel.code + bit (flg f 3) 3 + fld f 4 1 * 16 ∧ relOk rel (flg f 3) = true := by
  simp only [cmpOk, Bool.and_eq_true, beq_iff_eq] at h
  obtain ⟨h5, hs⟩ := h
  refine ⟨?_, hs⟩
  simp only [rel.code_eq hr, bit_flg, fld] at h5 ⊢
  have := m_lt f
  omega

theorem decIcmp_written (ho : f.op.toNat = 0x08) (h : decIcmp f = some i) : Written f i := by
  simp [decIcmp, Option.bind_eq_some_iff] at h
  obtain ⟨h, hh, rel, hr, b, hb, hc, rfl⟩ := h
  obtain ⟨hm, hs⟩ := cmpOk_eq hr hc
  exact written_of_hdr hh ho rfl rfl rfl rfl (congrArg pack (cmpOf_eq hb ..)) hm hs

theorem decIcmpw_written (ho : f.op.toNat = 0x12) (h : decIcmpw f = some i) : Written f i := by
  simp [decIcmpw, Option.bind_eq_some_iff] at h
  obtain ⟨h, hh, rel, hr, b, hb, hc, rfl⟩ := h
  obtain ⟨hm, hs⟩ := cmpOk_eq hr hc
  exact written_of_hdr hh ho rfl rfl rfl rfl (congrArg pack (cmpOf_eq hb ..)) hm hs

/-- M of a shift with an immediate count, and with a register. -/
theorem shift_m {n : Nat} (h5 : fld f 5 7 = 0) (hn : n = fld f 0 3) :
    f.m.toNat = n + bit (flg f 3) 3 + bit (flg f 4) 4 := by
  simp only [hn, bit_flg, fld] at h5 ⊢
  have := m_lt f
  omega

theorem decShf_written (ho : f.op.toNat = 0x0B) (h : decShf f = some i) : Written f i := by
  simp only [decShf, Option.bind_eq_bind, Option.bind_eq_some_iff, need_eq_some_iff, beq_iff_eq] at h
  obtain ⟨h, hh, op, hop, h5, hi⟩ := h
  have hm := shift_m h5 (op.code_eq hop)
  split at hi
  · next h4 =>
    split at hi <;> simp only [need_eq_some, Bool.and_eq_true, Bool.not_eq_true', decide_eq_true_eq, zero_eq_true] at hi
    · next hf =>
      obtain ⟨⟨h3, hb⟩, rfl⟩ := hi
      rw [h3, h4] at hm
      obtain rfl | rfl : op = .fl ∨ op = .fr := by revert hf; cases op <;> decide
      all_goals exact written_of_hdr hh ho rfl rfl rfl rfl rfl hm (by simp [encodable, countOk, hb])
    · next hf =>
      obtain ⟨⟨⟨h3, hb⟩, hc⟩, rfl⟩ := hi
      rw [h3, h4] at hm
      obtain rfl | rfl | rfl | rfl : op = .l ∨ op = .r ∨ op = .a ∨ op = .rotl := by revert hf; cases op <;> decide
      all_goals exact written_of_hdr hh ho rfl rfl hb rfl rfl hm (by simp [encodable, countOk, hc])
  · next h4 =>
    simp only [need_eq_some, Bool.and_eq_true, Bool.or_eq_true, zero_eq_true] at hi
    obtain ⟨⟨h3, hc⟩, rfl⟩ := hi
    rw [Bool.eq_false_iff.mpr h4] at hm
    refine written_of_hdr hh ho rfl rfl rfl rfl rfl hm ?_
    rw [encodable, h3]
    cases op <;> simp_all [countOk, funnel]

theorem decShfw_written (ho : f.op.toNat = 0x11) (h : decShfw f = some i) : Written f i := by
  simp only [decShfw, Option.bind_eq_bind, Option.bind_eq_some_iff, need_eq_some_iff, beq_iff_eq] at h
  obtain ⟨h, hh, op, hop, h5, hi⟩ := h
  have hm := shift_m h5 (op.code_eq hop)
  split at hi
  · next h4 =>
    simp only [need_eq_some, Bool.and_eq_true, Bool.not_eq_true', decide_eq_true_eq, zero_eq_true] at hi
    obtain ⟨⟨⟨h3, hb⟩, hc⟩, rfl⟩ := hi
    rw [h3, h4] at hm
    exact written_of_hdr hh ho rfl rfl hb rfl rfl hm (by simp [encodable, countOk, hc])
  · next h4 =>
    simp only [need_eq_some, zero_eq_true] at hi
    obtain ⟨hc, rfl⟩ := hi
    rw [Bool.eq_false_iff.mpr h4] at hm
    exact written_of_hdr hh ho rfl rfl rfl hc rfl hm

theorem decBfx_written (ho : f.op.toNat = 0x0C) (h : decBfx f = some i) : Written f i := by
  simp [decBfx, Option.bind_eq_some_iff] at h
  obtain ⟨h, hh, x, hx, hc, rfl⟩ := h
  obtain ⟨hk, he⟩ := bitFieldOf_eq hx h 0x0C f.d f.a 0 (bit (flg f 0) 0)
  refine written_of_hdr hh ho rfl rfl rfl hc (congrArg pack he) ?_ hk
  simp only [bit_flg, fld]
  omega

theorem decBfi_written (ho : f.op.toNat = 0x0D) (h : decBfi f = some i) : Written f i := by
  simp [decBfi, Option.bind_eq_some_iff] at h
  obtain ⟨h, hh, x, hx, h0, rfl⟩ := h
  obtain ⟨hk, he⟩ := bitFieldOf_eq hx h 0x0D f.d f.a f.c 0
  refine written_of_hdr hh ho rfl rfl rfl rfl (congrArg pack he) ?_ hk
  simp only [flg, beq_eq_false_iff_ne, fld] at h0
  omega

theorem decMovi_written (ho : f.op.toNat = 0x15) (h : decMovi f = some i) : Written f i := by
  simp [decMovi] at h
  obtain ⟨⟨⟨hn, hg⟩, hm⟩, rfl⟩ := h
  refine ⟨congrArg pack ?_, rfl, rfl⟩
  obtain ⟨mark, op, d, a, b, c, g, gn, ge, m⟩ := f
  subst hn hg hm
  have hop : op = 0x15#8 := BitVec.eq_of_toNat_eq ho
  have ha : (a ++ b ++ c ++ g).extractLsb' 24 8 = a := by
    rw [append_high _ _ 16, append_high _ _ 8, append_high _ _ 0, BitVec.extractLsb'_eq_self]
  have hb : (a ++ b ++ c ++ g).extractLsb' 16 8 = b := by rw [append_high _ _ 8, append_high _ _ 0, append_low]
  have hc : (a ++ b ++ c ++ g).extractLsb' 8 8 = c := by rw [append_high _ _ 0, append_low]
  have hg : (a ++ b ++ c ++ g).extractLsb' 0 8 = g := append_low ..
  simp only [encodeFull, ha, hb, hc, hg, hop]
  rfl

/-! ### Conversions and codes -/

theorem decCvtf_written (ho : f.op.toNat = 0x2A) (h : decCvtf f = some i) : Written f i := by
  simp only [decCvtf, Option.bind_eq_bind, Option.bind_eq_some_iff, need_eq_some, Bool.and_eq_true, beq_iff_eq, zero_eq_true] at h
  obtain ⟨h, hh, op, hop, r, hr, ⟨⟨⟨⟨⟨h3, h8⟩, hrn⟩, hz⟩, hb⟩, hc⟩, rfl⟩ := h
  refine written_of_hdr hh ho rfl rfl hb hc rfl ?_ ?_
  · simp only [fp, op.code_eq hop, r.code_eq hr, bit_flg, fld] at h3 h8 ⊢
    have := m_lt f
    omega
  · have hrn' : (encodable.cvtRounds op || r == .rn) = true := by
      rw [← r.code_eq hr] at hrn
      revert hrn
      cases op <;> cases r <;> decide
    have hz' : (encodable.cvtFlushes op || !flg f 2) = true := by
      rw [← hz]; cases op <;> rfl
    rw [encodable, hrn', hz', Bool.and_self]

theorem decFquant_written (ho : f.op.toNat = 0x32) (h : decFquant f = some i) : Written f i := by
  simp only [decFquant, Option.bind_eq_bind, Option.bind_eq_some_iff, need_eq_some, Bool.and_eq_true, beq_iff_eq] at h
  obtain ⟨h, hh, t, ht, ⟨⟨h0, h10⟩, hk⟩, rfl⟩ := h
  refine written_of_hdr hh ho rfl rfl rfl rfl rfl ?_ hk
  simp only [t.code_eq ht, bit_flg, BitVec.toNat_ofNat, fld] at h0 h10 ⊢
  have := m_lt f
  omega

theorem decFdeq_written (ho : f.op.toNat = 0x33) (h : decFdeq f = some i) : Written f i := by
  simp only [decFdeq, Option.bind_eq_bind, Option.bind_eq_some_iff, need_eq_some, Bool.and_eq_true, beq_iff_eq, zero_eq_true] at h
  obtain ⟨h, hh, t, ht, r, hr, ⟨⟨⟨h3, h9⟩, hk⟩, hc⟩, rfl⟩ := h
  refine written_of_hdr hh ho rfl rfl rfl hc rfl ?_ hk
  simp only [fp, t.code_eq ht, r.code_eq hr, bit_flg, BitVec.toNat_ofNat, fld] at h3 h9 ⊢
  have := m_lt f
  omega

/-! ### Relative words and lane words -/

/-- The fields of a relative word. -/
theorem relativeOf_eq (f : Full) (h : Hdr) (op : Nat) (d : Reg) : relativeOf h op d (f.a ++ f.b ++ f.c) = fullOf h op d f.a f.b f.c 0 := by
  have ha : (f.a ++ f.b ++ f.c).extractLsb' 16 8 = f.a := by rw [append_high _ _ 8, append_high _ _ 0, BitVec.extractLsb'_eq_self]
  have hb : (f.a ++ f.b ++ f.c).extractLsb' 8 8 = f.b := by rw [append_high _ _ 0, append_low]
  have hc : (f.a ++ f.b ++ f.c).extractLsb' 0 8 = f.c := append_low ..
  rw [relativeOf, ha, hb, hc]

theorem decBra_written (ho : f.op.toNat = 0x40) (h : decBra f = some i) : Written f i := by
  simp [decBra, Option.bind_eq_some_iff] at h
  obtain ⟨h, hh, ⟨hm, hd⟩, rfl⟩ := h
  exact written_of_hdr hh ho hd rfl rfl rfl (congrArg pack (relativeOf_eq ..)) (by simp [hm])

theorem decCall_written (ho : f.op.toNat = 0x42) (h : decCall f = some i) : Written f i := by
  simp [decCall, Option.bind_eq_some_iff] at h
  obtain ⟨h, hh, hm, rfl⟩ := h
  exact written_of_hdr hh ho rfl rfl rfl rfl (congrArg pack (relativeOf_eq ..)) (by simp [hm])

theorem decVote_written (ho : f.op.toNat = 0x46) (h : decVote f = some i) : Written f i := by
  simp [decVote, Option.bind_eq_some_iff] at h
  obtain ⟨h, hh, op, hop, m, hx, ⟨h3, hb⟩, rfl⟩ := h
  refine written_of_hdr hh ho rfl rfl hb rfl (congrArg pack (laneOf_eq hx ..)) ?_
  simp only [op.code_eq hop, fld] at h3 ⊢
  have := m_lt f
  omega

theorem decShfl_written (ho : f.op.toNat = 0x47) (h : decShfl f = some i) : Written f i := by
  simp only [decShfl, Option.bind_eq_bind, Option.bind_eq_some_iff, need_eq_some, Bool.and_eq_true, beq_iff_eq] at h
  obtain ⟨h, hh, op, hop, m, hx, ⟨⟨h5, hw⟩, hn⟩, rfl⟩ := h
  have hm : f.m.toNat = op.code + bit (flg f 2) 2 + bit (flg f 3) 3 + bit (flg f 4) 4 + fld f 11 1 * 2048 := by
    simp only [op.code_eq hop, bit_flg, fld] at h5 ⊢
    have := m_lt f
    omega
  cases h2 : flg f 2 <;> rw [h2] at hm hn
  · exact written_of_hdr hh ho rfl rfl rfl rfl (congrArg pack (laneOf_eq hx ..)) hm hw
  · refine written_of_hdr hh ho rfl rfl rfl rfl (congrArg pack (laneOf_eq hx ..)) hm ?_
    have hb : f.b.toNat < 32 := by simpa using hn
    simp only [encodable, if_true, countOk, hw, hb, decide_true, Bool.not_false, Bool.and_self]

theorem decWred_written (ho : f.op.toNat = 0x48) (h : decWred f = some i) : Written f i := by
  simp [decWred, Option.bind_eq_some_iff] at h
  obtain ⟨h, hh, op, hop, m, hx, ⟨h4, hb⟩, rfl⟩ := h
  refine written_of_hdr hh ho rfl rfl hb rfl (congrArg pack (laneOf_eq hx ..)) ?_
  simp only [op.code_eq hop, fld] at h4 ⊢
  have := m_lt f
  omega

theorem decWscan_written (ho : f.op.toNat = 0x49) (h : decWscan f = some i) : Written f i := by
  simp [decWscan, Option.bind_eq_some_iff] at h
  obtain ⟨h, hh, op, hop, m, hx, ⟨h5, hb⟩, rfl⟩ := h
  refine written_of_hdr hh ho rfl rfl hb rfl (congrArg pack (laneOf_eq hx ..)) ?_
  simp only [op.code_eq hop, bit_flg, fld] at h5 ⊢
  have := m_lt f
  omega

theorem decMatch_written (ho : f.op.toNat = 0x4A) (h : decMatch f = some i) : Written f i := by
  simp only [decMatch, Option.bind_eq_bind, Option.bind_eq_some_iff, need_eq_some, Bool.and_eq_true, beq_iff_eq, zero_eq_true] at h
  obtain ⟨h, hh, m, hx, ⟨⟨h3, h12⟩, hb⟩, rfl⟩ := h
  refine written_of_hdr hh ho rfl rfl hb rfl (congrArg pack (laneOf_eq hx ..)) ?_
  have hop : MatchOp.code (if flg f 1 then .uniform else if flg f 2 then .lead else .peers) = bit (flg f 1) 1 + bit (flg f 2) 2 := by
    cases h1 : flg f 1 <;> cases h2 : flg f 2 <;> simp_all [MatchOp.code]
  rw [hop]
  simp only [bit_flg, fld] at h3 ⊢
  have := m_lt f
  omega

theorem decElect_written (ho : f.op.toNat = 0x4B) (h : decElect f = some i) : Written f i := by
  simp [decElect, Option.bind_eq_some_iff] at h
  obtain ⟨h, hh, m, hx, ⟨⟨h0, ha⟩, hb⟩, rfl⟩ := h
  refine written_of_hdr hh ho rfl ha hb rfl (congrArg pack (laneOf_eq hx ..)) ?_
  simp only [fld] at h0 ⊢
  have := m_lt f
  omega

theorem decWsync_written (ho : f.op.toNat = 0x4C) (h : decWsync f = some i) : Written f i := by
  simp [decWsync, Option.bind_eq_some_iff] at h
  obtain ⟨h, hh, m, hx, ⟨⟨⟨h0, hd⟩, ha⟩, hb⟩, rfl⟩ := h
  refine written_of_hdr hh ho hd ha hb rfl (congrArg pack (laneOf_eq hx ..)) ?_
  simp only [fld] at h0 ⊢
  have := m_lt f
  omega

end
end Sys2Proof
end

section
/-! PROOFS. The other round trip: unguardable words, memory, atomics, blocks and fragments. -/

namespace Sys2Proof

set_option Elab.async false
section
variable {f : Full} {i : Instr}

/-! ### Words without a guard, and numbers in register fields -/

theorem decPlain_written {j : Instr} {op : Nat} (ho : f.op.toNat = op) (h : decPlain f j = some i)
    (hj : encode j = pack (bareOf f.mark op 0 0 0 0 0)) (he : encodable j = true := by rfl)
    (hw : ((Machine.hdr? j).isSome || isWord.isBare j) = true := by rfl) : Written f i := by
  simp [decPlain] at h
  obtain ⟨⟨⟨⟨⟨⟨hg, hm⟩, hd⟩, ha⟩, hb⟩, hc⟩, rfl⟩ := h
  exact written_of_hdr (hdrOf_of_noGuard hg) ho hd ha hb hc hj (by simp [hm]) he hw

theorem decFreeze_written (ho : f.op.toNat = 0x50) (h : decFreeze f = some i) : Written f i := by
  simp [decFreeze] at h
  obtain ⟨⟨⟨⟨⟨hg, hm⟩, hd⟩, hb⟩, hc⟩, rfl⟩ := h
  exact written_of_hdr (hdrOf_of_noGuard hg) ho hd rfl hb hc rfl (by simp [hm])

theorem decTsignal_written (ho : f.op.toNat = 0x52) (h : decTsignal f = some i) : Written f i := by
  simp [decTsignal] at h
  obtain ⟨⟨⟨⟨⟨hg, hm⟩, hd⟩, hb⟩, hc⟩, rfl⟩ := h
  exact written_of_hdr (hdrOf_of_noGuard hg) ho hd rfl hb hc rfl (by simp [hm])

theorem decTsave_written (ho : f.op.toNat = 0xB4) (h : decTsave f = some i) : Written f i := by
  simp [decTsave] at h
  obtain ⟨⟨⟨⟨hg, hm⟩, hb⟩, hc⟩, rfl⟩ := h
  exact written_of_hdr (hdrOf_of_noGuard hg) ho rfl rfl hb hc rfl (by simp [hm])

theorem decTload_written (ho : f.op.toNat = 0xB5) (h : decTload f = some i) : Written f i := by
  simp [decTload] at h
  obtain ⟨⟨⟨⟨⟨hg, hm⟩, hd⟩, hb⟩, hc⟩, rfl⟩ := h
  exact written_of_hdr (hdrOf_of_noGuard hg) ho hd rfl hb hc rfl (by simp [hm])

theorem decTret_written (ho : f.op.toNat = 0xB1) (h : decTret f = some i) : Written f i := by
  simp [decTret] at h
  obtain ⟨⟨⟨⟨⟨⟨hg, h1⟩, hd⟩, ha⟩, hb⟩, hc⟩, rfl⟩ := h
  refine written_of_hdr (hdrOf_of_noGuard hg) ho hd ha hb hc rfl ?_
  simp only [bit_flg, fld] at h1 ⊢
  have := m_lt f
  omega

/-- The register counts of RGROW and RSHRINK. -/
theorem grow_ok {r : Reg} (h1 : 1 ≤ r.toNat) (h32 : r.toNat ≤ 32) :
    (decide (1 ≤ (BitVec.ofNat 6 r.toNat).toNat) && decide ((BitVec.ofNat 6 r.toNat).toNat ≤ 32)) = true := by
  rw [BitVec.toNat_ofNat, Nat.mod_eq_of_lt (by omega), decide_eq_true h1, decide_eq_true h32, Bool.and_self]

theorem decRgrow_written (ho : f.op.toNat = 0x53) (h : decRgrow f = some i) : Written f i := by
  simp only [decRgrow, need_eq_some, Bool.and_eq_true, beq_iff_eq, zero_eq_true, decide_eq_true_eq] at h
  obtain ⟨⟨⟨⟨⟨⟨⟨hg, hm⟩, hd⟩, ha⟩, hc⟩, h1⟩, h32⟩, rfl⟩ := h
  exact written_of_hdr (hdrOf_of_noGuard hg) ho hd ha (fieldNat_ofNat (by omega)).symm hc rfl (by simp [hm]) (grow_ok h1 h32)

theorem decRshrink_written (ho : f.op.toNat = 0x54) (h : decRshrink f = some i) : Written f i := by
  simp only [decRshrink, need_eq_some, Bool.and_eq_true, beq_iff_eq, zero_eq_true, decide_eq_true_eq] at h
  obtain ⟨⟨⟨⟨⟨⟨⟨hg, hm⟩, hd⟩, ha⟩, hc⟩, h1⟩, h32⟩, rfl⟩ := h
  exact written_of_hdr (hdrOf_of_noGuard hg) ho hd ha (fieldNat_ofNat (by omega)).symm hc rfl (by simp [hm]) (grow_ok h1 h32)

theorem decGbar_written (ho : f.op.toNat = 0x55) (h : decGbar f = some i) : Written f i := by
  simp [decGbar] at h
  obtain ⟨⟨⟨⟨⟨⟨hg, hm⟩, hd⟩, ha⟩, hc⟩, h8⟩, rfl⟩ := h
  exact written_of_hdr (hdrOf_of_noGuard hg) ho hd ha (fieldNat_ofNat h8).symm hc rfl (by simp [hm])

theorem decGarrive_written (ho : f.op.toNat = 0x57) (h : decGarrive f = some i) : Written f i := by
  simp [decGarrive] at h
  obtain ⟨⟨⟨⟨⟨hg, hm⟩, ha⟩, hc⟩, h8⟩, rfl⟩ := h
  exact written_of_hdr (hdrOf_of_noGuard hg) ho rfl ha (fieldNat_ofNat h8).symm hc rfl (by simp [hm])

theorem decGwait_written (ho : f.op.toNat = 0x58) (h : decGwait f = some i) : Written f i := by
  simp [decGwait, Option.bind_eq_some_iff] at h
  obtain ⟨h, hh, ⟨⟨⟨hm, hd⟩, hc⟩, h8⟩, rfl⟩ := h
  exact written_of_hdr hh ho hd rfl (fieldNat_ofNat h8).symm hc rfl (by simp [hm])

theorem decNodesig_written (ho : f.op.toNat = 0x63) (h : decNodesig f = some i) : Written f i := by
  simp [decNodesig, Option.bind_eq_some_iff] at h
  obtain ⟨h, hh, ⟨⟨⟨⟨hm, hd⟩, ha⟩, hc⟩, h8⟩, rfl⟩ := h
  exact written_of_hdr hh ho hd ha (fieldNat_ofNat h8).symm hc rfl (by simp [hm])

theorem decSlotrd_written (ho : f.op.toNat = 0xAE) (h : decSlotrd f = some i) : Written f i := by
  simp only [decSlotrd, Option.bind_eq_bind, Option.bind_eq_some_iff, need_eq_some, Bool.and_eq_true, beq_iff_eq, zero_eq_true, decide_eq_true_eq] at h
  obtain ⟨h, hh, ⟨⟨h1, hc⟩, h4⟩, rfl⟩ := h
  refine written_of_hdr hh ho rfl rfl (fieldNat_ofNat (by omega)).symm hc rfl ?_ ?_
  · simp only [bit_flg, fld] at h1 ⊢
    have := m_lt f
    omega
  · rw [encodable, BitVec.toNat_ofNat, Nat.mod_eq_of_lt (by omega), decide_eq_true h4]

theorem decQpop_written (ho : f.op.toNat = 0x61) (h : decQpop f = some i) : Written f i := by
  simp only [decQpop, Option.bind_eq_bind, Option.bind_eq_some_iff, need_eq_some, Bool.and_eq_true, zero_eq_true] at h
  obtain ⟨h, hh, w, hw, ⟨ha, hp⟩, rfl⟩ := h
  exact written_of_hdr hh ho rfl ha rfl rfl rfl (w.code_eq hw).symm hp

/-! ### Memory and atomics -/

theorem decLd_written (h7 : fld f 7 3 ≠ 7) (ho : f.op.toNat = 0x68) (h : decLd f = some i) : Written f i := by
  simp only [decLd, Option.bind_eq_bind, Option.bind_eq_some_iff, need_eq_some, Bool.and_eq_true, zero_eq_true] at h
  obtain ⟨h, hh, m, hm, ⟨hl, hb⟩, rfl⟩ := h
  exact written_of_hdr hh ho rfl rfl hb rfl rfl (memModOf_code hm h7).symm hl

theorem decSt_written (h7 : fld f 7 3 ≠ 7) (ho : f.op.toNat = 0x69) (h : decSt f = some i) : Written f i := by
  simp only [decSt, Option.bind_eq_bind, Option.bind_eq_some_iff, need_eq_some, Bool.and_eq_true, zero_eq_true] at h
  obtain ⟨h, hh, m, hm, ⟨⟨hl, hp⟩, hb⟩, rfl⟩ := h
  exact written_of_hdr hh ho rfl rfl hb rfl rfl (memModOf_code hm h7).symm ((Bool.and_eq_true _ _).mpr ⟨hl, hp⟩)

theorem decLds_written (h7 : fld f 7 3 ≠ 7) (ho : f.op.toNat = 0x6A) (h : decLds f = some i) : Written f i := by
  simp only [decLds, Option.bind_eq_bind, Option.bind_eq_some_iff, need_eq_some, Bool.and_eq_true, zero_eq_true] at h
  obtain ⟨h, hh, m, hm, ⟨⟨hl, hp⟩, hb⟩, rfl⟩ := h
  exact written_of_hdr hh ho rfl rfl hb rfl rfl (memModOf_code hm h7).symm ((Bool.and_eq_true _ _).mpr ⟨hl, hp⟩)

theorem decSts_written (h7 : fld f 7 3 ≠ 7) (ho : f.op.toNat = 0x6B) (h : decSts f = some i) : Written f i := by
  simp only [decSts, Option.bind_eq_bind, Option.bind_eq_some_iff, need_eq_some, Bool.and_eq_true, zero_eq_true] at h
  obtain ⟨h, hh, m, hm, ⟨⟨hl, hp⟩, hb⟩, rfl⟩ := h
  exact written_of_hdr hh ho rfl rfl hb rfl rfl (memModOf_code hm h7).symm ((Bool.and_eq_true _ _).mpr ⟨hl, hp⟩)

theorem decPref_written (ho : f.op.toNat = 0x6C) (h : decPref f = some i) : Written f i := by
  simp only [decPref, Option.bind_eq_bind, Option.bind_eq_some_iff, need_eq_some, Bool.and_eq_true, beq_iff_eq, zero_eq_true] at h
  obtain ⟨h, hh, ⟨⟨⟨⟨h1, h7⟩, hp⟩, hd⟩, hb⟩, rfl⟩ := h
  refine written_of_hdr hh ho hd rfl hb rfl rfl ?_ hp
  simp only [bit_flg, BitVec.toNat_ofNat, fld] at h1 h7 ⊢
  have := m_lt f
  omega

theorem decZfill_written (h7 : fld f 7 3 ≠ 7) (ho : f.op.toNat = 0x6D) (h : decZfill f = some i) : Written f i := by
  simp only [decZfill, Option.bind_eq_bind, Option.bind_eq_some_iff, need_eq_some, Bool.and_eq_true, beq_iff_eq, zero_eq_true] at h
  obtain ⟨h, hh, r, hr, s, hs, ⟨⟨h0, hd⟩, hb⟩, rfl⟩ := h
  refine written_of_hdr hh ho hd rfl hb rfl rfl ?_
  simp only [relCode_of hr, Scope.code_eq hs h7, fld] at h0 ⊢
  have := m_lt f
  omega

theorem decFence_written (h7 : fld f 7 3 ≠ 7) (ho : f.op.toNat = 0x7E) (h : decFence f = some i) : Written f i := by
  simp [decFence, Option.bind_eq_some_iff] at h
  obtain ⟨h, hh, o, hor, s, hs, ⟨⟨⟨⟨h0, hd⟩, ha⟩, hb⟩, hc⟩, rfl⟩ := h
  refine written_of_hdr hh ho hd ha hb hc rfl ?_
  simp only [o.code_eq hor, Scope.code_eq hs h7, fld] at h0 ⊢
  have := m_lt f
  omega

theorem decAadd_written (h7 : fld f 7 3 ≠ 7) (ho : f.op.toNat = 0x78) (h : decAadd f = some i) : Written f i := by
  simp only [decAadd, Option.bind_eq_bind, Option.bind_eq_some_iff, need_eq_some] at h
  obtain ⟨h, hh, m, hm, op, hop, d, hd, hw, rfl⟩ := h
  exact written_of_hdr hh ho rfl rfl rfl rfl (congrArg pack (atomicOf_fields hm h7 hd (op.code_eq hop) ..)) rfl hw

theorem decAmnx_written (h7 : fld f 7 3 ≠ 7) (ho : f.op.toNat = 0x79) (h : decAmnx f = some i) : Written f i := by
  simp [decAmnx, Option.bind_eq_some_iff] at h
  obtain ⟨h, hh, m, hm, op, hop, d, hd, rfl⟩ := h
  exact written_of_hdr hh ho rfl rfl rfl rfl (congrArg pack (atomicOf_fields hm h7 hd (op.code_eq hop) ..)) rfl

theorem decAlog_written (h7 : fld f 7 3 ≠ 7) (ho : f.op.toNat = 0x7A) (h : decAlog f = some i) : Written f i := by
  simp [decAlog, Option.bind_eq_some_iff] at h
  obtain ⟨h, hh, m, hm, op, hop, d, hd, rfl⟩ := h
  exact written_of_hdr hh ho rfl rfl rfl rfl (congrArg pack (atomicOf_fields hm h7 hd (op.code_eq hop) ..)) rfl

theorem decAxch_written (h7 : fld f 7 3 ≠ 7) (ho : f.op.toNat = 0x7B) (h : decAxch f = some i) : Written f i := by
  simp [decAxch, Option.bind_eq_some_iff] at h
  obtain ⟨h, hh, m, hm, d, hd, h4, rfl⟩ := h
  exact written_of_hdr hh ho rfl rfl rfl rfl (congrArg pack (atomicOf_fields hm h7 hd h4.symm ..)) rfl

theorem decAcas_written (h7 : fld f 7 3 ≠ 7) (ho : f.op.toNat = 0x7C) (h : decAcas f = some i) : Written f i := by
  simp [decAcas, Option.bind_eq_some_iff] at h
  obtain ⟨h, hh, m, hm, d, hd, h4, rfl⟩ := h
  exact written_of_hdr hh ho rfl rfl rfl rfl (congrArg pack (atomicOf_fields hm h7 hd h4.symm ..)) rfl

theorem decAinc_written (h7 : fld f 7 3 ≠ 7) (ho : f.op.toNat = 0x7D) (h : decAinc f = some i) : Written f i := by
  simp [decAinc, Option.bind_eq_some_iff] at h
  obtain ⟨h, hh, m, hm, d, hd, h5, rfl⟩ := h
  have hsel : bit (flg f 4) 0 = fld f 4 2 := by
    have hb := bit_flg f 4
    simp only [fld] at h5 hb ⊢
    cases hf : flg f 4 <;> simp only [hf, bit_true, bit_false] at hb ⊢ <;> omega
  exact written_of_hdr hh ho rfl rfl rfl rfl (congrArg pack (atomicOf_fields hm h7 hd hsel ..)) rfl

theorem decWaita_written (h7 : fld f 7 3 ≠ 7) (ho : f.op.toNat = 0x7F) (h : decWaita f = some i) : Written f i := by
  simp only [decWaita, Option.bind_eq_bind, Option.bind_eq_some_iff, Option.some.injEq] at h
  obtain ⟨h, hh, q, hq, s, hs, c, hc, w, hw, t, ht, rfl⟩ := h
  obtain ⟨htf, htb⟩ := tmoOf_eq ht
  refine written_of_hdr hh ho rfl (placeOf_field f).symm rfl htf.symm rfl ?_
  simp only [htb, wideCode_of hw, c.code_eq hc, placeOf_bit, Scope.code_eq hs h7, acqCode_of hq, fld]
  have := m_lt f
  omega

theorem decWakea_written (h7 : fld f 7 3 ≠ 7) (ho : f.op.toNat = 0x80) (h : decWakea f = some i) : Written f i := by
  simp only [decWakea, Option.bind_eq_bind, Option.bind_eq_some_iff, need_eq_some, Bool.and_eq_true, beq_iff_eq, zero_eq_true] at h
  obtain ⟨h, hh, r, hr, s, hs, w, hw, ⟨⟨⟨h4, h0⟩, hd⟩, hc⟩, rfl⟩ := h
  refine written_of_hdr hh ho hd (placeOf_field f).symm rfl hc rfl ?_
  simp only [wideCode_of hw, placeOf_bit, Scope.code_eq hs h7, relCode_of hr, Bool.not_eq_true', flg, beq_eq_false_iff_ne, fld] at h0 h4 ⊢
  have := m_lt f
  omega

theorem decBcinit_written (h7 : fld f 7 3 ≠ 7) (ho : f.op.toNat = 0x81) (h : decBcinit f = some i) : Written f i := by
  simp only [decBcinit, Option.bind_eq_bind, Option.bind_eq_some_iff, need_eq_some, Bool.and_eq_true, beq_iff_eq, zero_eq_true] at h
  obtain ⟨h, hh, r, hr, s, hs, w, hw, ⟨⟨h4, h0⟩, hd⟩, rfl⟩ := h
  refine written_of_hdr hh ho hd rfl rfl rfl rfl ?_
  simp only [wideCode_of hw, Scope.code_eq hs h7, relCode_of hr, Bool.not_eq_true', flg, beq_eq_false_iff_ne, fld] at h0 h4 ⊢
  have := m_lt f
  omega

theorem decBcadd_written (h7 : fld f 7 3 ≠ 7) (ho : f.op.toNat = 0x82) (h : decBcadd f = some i) : Written f i := by
  simp only [decBcadd, Option.bind_eq_bind, Option.bind_eq_some_iff, need_eq_some, Bool.and_eq_true, beq_iff_eq, zero_eq_true] at h
  obtain ⟨h, hh, r, hr, s, hs, w, hw, ⟨⟨h4, h0⟩, hd⟩, rfl⟩ := h
  refine written_of_hdr hh ho hd rfl rfl rfl rfl ?_
  simp only [wideCode_of hw, Scope.code_eq hs h7, relCode_of hr, Bool.not_eq_true', flg, beq_eq_false_iff_ne, fld] at h0 h4 ⊢
  have := m_lt f
  omega

/-! ### Optional operands, blocks and fragments -/

/-- A register that stands unless bit 0 of M is set (TFENCE, TIDINV, TLBINV). -/
theorem unless_flg {r : Reg} (h : (!(flg f 0 && !zero r)) = true) (h1 : fld f 1 11 = 0) :
    optField (if flg f 0 then none else some r) = r ∧ 1 - optBit (if flg f 0 then none else some r) = f.m.toNat := by
  have hb := bit_flg f 0
  have := m_lt f
  simp only [fld] at h1 hb
  cases hf : flg f 0 with
  | true =>
    have hz : r = 0 := by simpa [hf] using h
    rw [hf, bit_true] at hb
    refine ⟨hz.symm, ?_⟩
    simp only [if_true, optBit, Option.isSome_none, Bool.false_eq_true, if_false]
    omega
  | false =>
    rw [hf, bit_false] at hb
    refine ⟨rfl, ?_⟩
    simp only [Bool.false_eq_true, if_false, optBit, Option.isSome_some, if_true]
    omega

theorem decTfence_written (ho : f.op.toNat = 0x8E) (h : decTfence f = some i) : Written f i := by
  simp only [decTfence, Option.bind_eq_bind, Option.bind_eq_some_iff, need_eq_some, Bool.and_eq_true, beq_iff_eq, zero_eq_true] at h
  obtain ⟨h, hh, ⟨⟨⟨⟨h1, hd⟩, hb⟩, hc⟩, hz⟩, rfl⟩ := h
  obtain ⟨hr, hm⟩ := unless_flg hz h1
  exact written_of_hdr hh ho hd hr.symm hb hc rfl hm.symm

theorem decTidinv_written (ho : f.op.toNat = 0x91) (h : decTidinv f = some i) : Written f i := by
  simp only [decTidinv, Option.bind_eq_bind, Option.bind_eq_some_iff, need_eq_some, Bool.and_eq_true, beq_iff_eq, zero_eq_true] at h
  obtain ⟨h, hh, ⟨⟨⟨⟨h1, hd⟩, ha⟩, hc⟩, hz⟩, rfl⟩ := h
  obtain ⟨hr, hm⟩ := unless_flg hz h1
  exact written_of_hdr hh ho hd ha hr.symm hc rfl hm.symm

theorem decTlbinv_written (ho : f.op.toNat = 0xB6) (h : decTlbinv f = some i) : Written f i := by
  simp only [decTlbinv, Option.bind_eq_bind, Option.bind_eq_some_iff, need_eq_some, Bool.and_eq_true, beq_iff_eq, zero_eq_true] at h
  obtain ⟨h, hh, ⟨⟨⟨⟨h1, hd⟩, hb⟩, hc⟩, hz⟩, rfl⟩ := h
  obtain ⟨hr, hm⟩ := unless_flg hz h1
  exact written_of_hdr hh ho hd hr.symm hb hc rfl hm.symm

theorem spmOnly_m (h : spmOnly f = true) : f.m.toNat = (placeOf f).bit := by
  simp only [spmOnly, Bool.and_eq_true, beq_iff_eq] at h
  obtain ⟨h0, h7⟩ := h
  rw [placeOf_bit]
  simp only [fld] at h0 h7 ⊢
  have := m_lt f
  omega

theorem decTidset_written (ho : f.op.toNat = 0x90) (h : decTidset f = some i) : Written f i := by
  simp [decTidset, Option.bind_eq_some_iff] at h
  obtain ⟨h, hh, ⟨⟨hs, hd⟩, hc⟩, rfl⟩ := h
  exact written_of_hdr hh ho hd (placeOf_field f).symm rfl hc rfl (spmOnly_m hs)

theorem decBlock_written {k : Hdr → Place → Instr} {op : Nat} (ho : f.op.toNat = op) (h : decBlock f k = some i)
    (hk : ∀ h p, encode (k h p) = pack (fullOf h op 0 p.field 0 0 p.bit)) (he : ∀ h p, encodable (k h p) = true := by intros; rfl)
    (hw : ∀ h p, ((Machine.hdr? (k h p)).isSome || isWord.isBare (k h p)) = true := by intros; rfl) : Written f i := by
  simp [decBlock, Option.bind_eq_some_iff] at h
  obtain ⟨h, hh, ⟨⟨⟨hs, hd⟩, hb⟩, hc⟩, rfl⟩ := h
  exact written_of_hdr hh ho hd (placeOf_field f).symm hb hc (hk ..) (spmOnly_m hs) (he ..) (hw ..)

theorem decFuture_written {k : Hdr → Reg → Place → Instr} {op : Nat} (ho : f.op.toNat = op) (h : decFuture f k = some i)
    (hk : ∀ h d p, encode (k h d p) = pack (fullOf h op d p.field 0 0 p.bit)) (he : ∀ h d p, encodable (k h d p) = true := by intros; rfl)
    (hw : ∀ h d p, ((Machine.hdr? (k h d p)).isSome || isWord.isBare (k h d p)) = true := by intros; rfl) : Written f i := by
  simp [decFuture, Option.bind_eq_some_iff] at h
  obtain ⟨h, hh, ⟨⟨hs, hb⟩, hc⟩, rfl⟩ := h
  exact written_of_hdr hh ho rfl (placeOf_field f).symm hb hc (hk ..) (spmOnly_m hs) (he ..) (hw ..)

/-- The slot and the first column of a fragment stand in B and C. -/
theorem fragOk_eq {w : Bool} {b c : Reg} (h : fragOk w b c = true) : fieldNat (BitVec.ofNat 3 b.toNat).toNat = b ∧
    fieldNat (BitVec.ofNat 6 c.toNat).toNat = c ∧ ((BitVec.ofNat 6 c.toNat).toNat % (if w then 8 else 4) == 0) = true := by
  simp only [fragOk, Bool.and_eq_true, decide_eq_true_eq] at h
  obtain ⟨⟨hb, hc⟩, hm⟩ := h
  exact ⟨fieldNat_ofNat hb, fieldNat_ofNat hc, by rw [BitVec.toNat_ofNat, Nat.mod_eq_of_lt hc]; exact hm⟩

theorem decMaccrd_written (ho : f.op.toNat = 0x94) (h : decMaccrd f = some i) : Written f i := by
  simp only [decMaccrd, Option.bind_eq_bind, Option.bind_eq_some_iff, need_eq_some, Bool.and_eq_true, beq_iff_eq, zero_eq_true] at h
  obtain ⟨h, hh, ⟨⟨h2, ha⟩, hf⟩, rfl⟩ := h
  obtain ⟨hb, hc, hcol⟩ := fragOk_eq hf
  refine written_of_hdr hh ho rfl ha hb.symm hc.symm rfl ?_ hcol
  simp only [bit_flg, fld] at h2 ⊢
  have := m_lt f
  omega

theorem decMaccwr_written (ho : f.op.toNat = 0x95) (h : decMaccwr f = some i) : Written f i := by
  simp only [decMaccwr, Option.bind_eq_bind, Option.bind_eq_some_iff, need_eq_some, Bool.and_eq_true, beq_iff_eq, zero_eq_true] at h
  obtain ⟨h, hh, ⟨⟨h2, hd⟩, hf⟩, rfl⟩ := h
  obtain ⟨hb, hc, hcol⟩ := fragOk_eq hf
  refine written_of_hdr hh ho hd rfl hb.symm hc.symm rfl ?_ hcol
  simp only [bit_flg, fld] at h2 ⊢
  have := m_lt f
  omega

end
end Sys2Proof
end

section
/-! PROOFS. The other round trip: the rows of the opcode grid, the paired format, and the decoder. -/

namespace Sys2Proof

set_option Elab.async false
open Machine (uses)
section
variable {f : Full} {i : Instr}

/-! ## The rows of the opcode grid, and the decoder -/

theorem row0_written (h : row0 f = some i) : Written f i := by
  unfold row0 at h
  split at h
  · next ho => exact decNop_written ho h
  · next ho => exact decIadd_written ho h
  · next ho => exact decImul_written ho h
  · next ho => exact decImad_written ho h
  · next ho => exact decIdiv_written ho h
  · next ho => exact decImnx_written ho h
  · next ho => exact decIabs_written ho h
  · next ho => exact decIcmp_written ho h
  · next ho => exact decSel_written ho h
  · next ho => exact decLtab_written ho h
  · next ho => exact decShf_written ho h
  · next ho => exact decBfx_written ho h
  · next ho => exact decBfi_written ho h
  · next ho => exact decBitc_written ho h
  · next ho => exact decBperm_written ho h
  · cases h

theorem row1_written (h : row1 f = some i) : Written f i := by
  unfold row1 at h
  split at h
  · next ho => exact decIaddw_written ho h
  · next ho => exact decShfw_written ho h
  · next ho => exact decIcmpw_written ho h
  · next ho => exact decLea_written ho h
  · next ho => exact decMov_written ho h
  · next ho => exact decMovi_written ho h
  · next ho => exact decIdot_written ho h
  · next ho => exact decCvti_written ho h
  · next ho => exact decSread_written ho h
  · cases h

theorem row2_written (h : row2 f = some i) : Written f i := by
  unfold row2 at h
  split at h
  · next ho => exact decFadd_written ho h
  · next ho => exact decFmul_written ho h
  · next ho => exact decFfma_written ho h
  · next ho => exact decFmnx_written ho h
  · next ho => exact decFcmp_written ho h
  · next ho => exact decFclass_written ho h
  · next ho => exact decFsfu_written ho h
  · next ho => exact decFdiv_written ho h
  · next ho => exact decFrint_written ho h
  · next ho => exact decFscale_written ho h
  · next ho => exact decCvtf_written ho h
  · next ho => exact decCvtfi_written ho h
  · next ho => exact decCvtif_written ho h
  · next ho => exact decPaddh_written ho h
  · next ho => exact decPmulh_written ho h
  · next ho => exact decPfmah_written ho h
  · cases h

theorem row3_written (h : row3 f = some i) : Written f i := by
  unfold row3 at h
  split at h
  · next ho => exact decPmnxh_written ho h
  · next ho => exact decFdot2_written ho h
  · next ho => exact decFquant_written ho h
  · next ho => exact decFdeq_written ho h
  · next ho => exact decFexpd_written ho h
  · next ho => exact decFlse_written ho h
  · next ho => exact decFtwosum_written ho h
  · cases h

theorem row4_written (h : row4 f = some i) : Written f i := by
  unfold row4 at h
  split at h
  · next ho => exact decBra_written ho h
  · next ho => exact decBrx_written ho h
  · next ho => exact decCall_written ho h
  · next ho => exact decCallx_written ho h
  · next ho => exact decRet_written ho h
  · next ho => exact decExit_written ho h
  · next ho => exact decVote_written ho h
  · next ho => exact decShfl_written ho h
  · next ho => exact decWred_written ho h
  · next ho => exact decWscan_written ho h
  · next ho => exact decMatch_written ho h
  · next ho => exact decElect_written ho h
  · next ho => exact decWsync_written ho h
  · next ho => exact decPlain_written ho h rfl
  · next ho => exact decBrkpt_written ho h
  · cases h

theorem row5_written (h : row5 f = some i) : Written f i := by
  unfold row5 at h
  split at h
  · next ho => exact decFreeze_written ho h
  · next ho => exact decPlain_written ho h rfl
  · next ho => exact decTsignal_written ho h
  · next ho => exact decRgrow_written ho h
  · next ho => exact decRshrink_written ho h
  · next ho => exact decGbar_written ho h
  · next ho => exact decPlain_written ho h rfl
  · next ho => exact decGarrive_written ho h
  · next ho => exact decGwait_written ho h
  · next ho => exact decLaunch_written ho h
  · next ho => exact decPlain_written ho h rfl
  · next ho => exact decSleep_written ho h
  · cases h

theorem row6_written (hs : hasScope f = true → fld f 7 3 ≠ 7) (h : row6 f = some i) : Written f i := by
  unfold row6 at h
  split at h
  · next ho => exact decQpush_written ho h
  · next ho => exact decQpop_written ho h
  · next ho => exact decQclose_written ho h
  · next ho => exact decNodesig_written ho h
  · next ho => exact decLd_written (hs (by simp [hasScope, ho])) ho h
  · next ho => exact decSt_written (hs (by simp [hasScope, ho])) ho h
  · next ho => exact decLds_written (hs (by simp [hasScope, ho])) ho h
  · next ho => exact decSts_written (hs (by simp [hasScope, ho])) ho h
  · next ho => exact decPref_written ho h
  · next ho => exact decZfill_written (hs (by simp [hasScope, ho])) ho h
  · next ho => exact decCflush_written ho h
  · next ho => exact decTaddr_written ho h
  · cases h

theorem row7_written (hs : hasScope f = true → fld f 7 3 ≠ 7) (h : row7 f = some i) : Written f i := by
  unfold row7 at h
  split at h
  · next ho => exact decMapq_written ho h
  · next ho => exact decAadd_written (hs (by simp [hasScope, ho])) ho h
  · next ho => exact decAmnx_written (hs (by simp [hasScope, ho])) ho h
  · next ho => exact decAlog_written (hs (by simp [hasScope, ho])) ho h
  · next ho => exact decAxch_written (hs (by simp [hasScope, ho])) ho h
  · next ho => exact decAcas_written (hs (by simp [hasScope, ho])) ho h
  · next ho => exact decAinc_written (hs (by simp [hasScope, ho])) ho h
  · next ho => exact decFence_written (hs (by simp [hasScope, ho])) ho h
  · next ho => exact decWaita_written (hs (by simp [hasScope, ho])) ho h
  · cases h

theorem row8_written (hs : hasScope f = true → fld f 7 3 ≠ 7) (h : row8 f = some i) : Written f i := by
  unfold row8 at h
  split at h
  · next ho => exact decWakea_written (hs (by simp [hasScope, ho])) ho h
  · next ho => exact decBcinit_written (hs (by simp [hasScope, ho])) ho h
  · next ho => exact decBcadd_written (hs (by simp [hasScope, ho])) ho h
  · next ho => exact decOrdecl_written ho h
  · next ho => exact decOrdrop_written ho h
  · next ho => exact decLdrs_written ho h
  · next ho => exact decLdrm_written ho h
  · next ho => exact decLdpfx_written ho h
  · next ho => exact decLdpick_written ho h
  · next ho => exact decTfence_written ho h
  · next ho => exact decOrbuild_written ho h
  · cases h

theorem row9_written (h : row9 f = some i) : Written f i := by
  unfold row9 at h
  split at h
  · next ho => exact decTidset_written ho h
  · next ho => exact decTidinv_written ho h
  · next ho => exact decBlock_written ho h (by intros; rfl)
  · next ho => exact decFuture_written ho h (by intros; rfl)
  · next ho => exact decMaccrd_written ho h
  · next ho => exact decMaccwr_written ho h
  · next ho => exact decMaccz_written ho h
  · next ho => exact decBlock_written ho h (by intros; rfl)
  · next ho => exact decBlock_written ho h (by intros; rfl)
  · next ho => exact decBlock_written ho h (by intros; rfl)
  · next ho => exact decBlock_written ho h (by intros; rfl)
  · cases h

theorem rowA_written (h : rowA f = some i) : Written f i := by
  unfold rowA at h
  split at h
  · next ho => exact decFuture_written ho h (by intros; rfl)
  · next ho => exact decFuture_written ho h (by intros; rfl)
  · next ho => exact decFuture_written ho h (by intros; rfl)
  · next ho => exact decFuture_written ho h (by intros; rfl)
  · next ho => exact decHtest_written ho h
  · next ho => exact decHwait_written ho h
  · next ho => exact decHcancel_written ho h
  · next ho => exact decVpub_written ho h
  · next ho => exact decVpin_written ho h
  · next ho => exact decVret_written ho h
  · next ho => exact decTokrec_written ho h
  · next ho => exact decSmask_written ho h
  · next ho => exact decUlcall_written ho h
  · next ho => exact decSlotrd_written ho h
  · next ho => exact decSlotset_written ho h
  · cases h

theorem rowB_written (h : rowB f = some i) : Written f i := by
  unfold rowB at h
  split at h
  · next ho => exact decTrap_written ho h
  · next ho => exact decTret_written ho h
  · next ho => exact decCread_written ho h
  · next ho => exact decCwrite_written ho h
  · next ho => exact decTsave_written ho h
  · next ho => exact decTload_written ho h
  · next ho => exact decTlbinv_written ho h
  · next ho => exact decPlain_written ho h rfl
  · cases h

theorem decodeShape_written (hs : hasScope f = true → fld f 7 3 ≠ 7) (h : decodeShape f = some i) : Written f i := by
  unfold decodeShape at h
  split at h
  · exact row0_written h
  · exact row1_written h
  · exact row2_written h
  · exact row3_written h
  · exact row4_written h
  · exact row5_written h
  · exact row6_written hs h
  · exact row7_written hs h
  · exact row8_written hs h
  · exact row9_written h
  · exact rowA_written h
  · exact rowB_written h
  · cases h

theorem decodeFull_written (h : decodeFull f = .ok i) : Written f i ∧ aligned i = true := by
  unfold decodeFull at h
  split at h
  · cases h
  · next j hj =>
    split at h
    · cases h
    · next hs =>
      split at h
      · next ha =>
        cases h
        refine ⟨decodeShape_written (fun h1 h7 => hs ?_) hj, ha⟩
        rw [h1, h7]; rfl
      · cases h
end

/-! ### The fields of a word -/

theorem wbits_lt (w : DWord) (lo n : Nat) : wbits w lo n < 2 ^ n := Nat.mod_lt _ (by positivity)

theorem wbyte_toNat (w : DWord) (lo : Nat) : (wbyte w lo).toNat = wbits w lo 8 := by
  rw [wbyte, BitVec.toNat_ofNat]
  exact Nat.mod_eq_of_lt (wbits_lt w lo 8)

theorem b2n_wbits (w : DWord) (lo : Nat) : b2n (wbits w lo 1 == 1) = wbits w lo 1 := by
  have := wbits_lt w lo 1
  interval_cases wbits w lo 1 <;> rfl

/-- The bits of a word up to one field and with it. -/
theorem low_wbits (w : DWord) (lo n : Nat) : w.toNat % 2 ^ (lo + n) = w.toNat % 2 ^ lo + wbits w lo n * 2 ^ lo := by
  rw [wbits, pow_add, Nat.mod_mul, Nat.mul_comm]

theorem pack_unpack {w : DWord} (h : wbits w 62 1 = 0) : pack (unpack w) = w := by
  have h64 : w.toNat % 2 ^ (63 + 1) = w.toNat := Nat.mod_eq_of_lt w.isLt
  have h0 : w.toNat % 2 ^ 0 = 0 := Nat.mod_one _
  rw [low_wbits, low_wbits w 62 1, h, low_wbits w 54 8, low_wbits w 46 8, low_wbits w 38 8, low_wbits w 30 8, low_wbits w 22 8,
    low_wbits w 14 8, low_wbits w 13 1, low_wbits w 12 1, low_wbits w 0 12, h0] at h64
  have hm : (BitVec.ofNat 12 (wbits w 0 12)).toNat = wbits w 0 12 := by
    rw [BitVec.toNat_ofNat]
    exact Nat.mod_eq_of_lt (wbits_lt w 0 12)
  refine Eq.trans ?_ (ofNat_toNat w)
  simp only [pack, unpack, wbyte_toNat, b2n_wbits, hm]
  exact congrArg _ (by linarith)

/-! ### The paired format -/

theorem regHalf_code {n : Nat} {o : RegHalf} (h : regHalfOf n = some o) : o.code = n + 1 := by
  have : o.code - 1 = n := code_of_getElem? (code := fun o => RegHalf.code o - 1) h rfl
  have := o.code_spec.1
  omega

theorem immHalf_code {n : Nat} {o : ImmHalf} (h : immHalfOf n = some o) : o.code = n + 0x40 := by
  have : o.code - 0x40 = n := code_of_getElem? (code := fun o => ImmHalf.code o - 0x40) h rfl
  have := o.code_spec.1
  omega

/-- The fields of a half from which it was read, and that MOVI8 has no source. -/
theorem halfFields_of {op : Nat} {d a i : BitVec 8} {x : Half} (h0 : op ≠ 0) (h : halfOf op d a i = some x) (hs : strayOk op a i = true) :
    halfFields x = (op, d, a, i) ∧ encodable.halfOk x = true := by
  unfold halfOf at h
  unfold strayOk at hs
  split at h
  · next hop =>
    rw [if_pos hop] at hs
    obtain ⟨o, ho, rfl⟩ := Option.map_eq_some_iff.mp h
    have hc : o.code = op := by have := regHalf_code ho; omega
    exact ⟨by rw [halfFields, hc, beq_iff_eq.mp hs], rfl⟩
  · next hop =>
    rw [if_neg hop] at hs
    obtain ⟨o, ho, rfl⟩ := Option.map_eq_some_iff.mp h
    have hc : o.code = op := by have := immHalf_code ho; omega
    refine ⟨by rw [halfFields, hc], ?_⟩
    rw [← hc] at hs
    cases o <;> simp_all [encodable.halfOk, ImmHalf.code]

/-- The operands of a paired word are single registers, which have no alignment. -/
theorem aligned_paired (mark : Bool) (x y : Half) : aligned (.pairedWord mark x y) = true := by
  have hr (z : Half) : ∀ p ∈ Machine.Half.reads z, p.2 = 1 := by
    rcases z with ⟨op, d, a⟩ | ⟨op, d, a, i⟩ <;> cases op <;> simp [Machine.Half.reads, Machine.v1]
  have h1 (p : Nat × Nat) (hp : p.2 = 1) : (p.1 % (if p.2 < 4 then p.2 else 4) == 0) = true := by
    rw [hp, if_pos (by decide), Nat.mod_one, beq_self_eq_true]
  refine List.all_eq_true.mpr fun p hp => h1 p ?_
  simp only [uses, Machine.bare, List.mem_append, List.mem_cons, List.not_mem_nil, or_false] at hp
  obtain (hp | hp) | rfl | rfl := hp
  · exact hr x p hp
  · exact hr y p hp
  · rfl
  · rfl

theorem pairOf_written {mark : Bool} {xo yo : Nat} {xd xa xi yd ya yi : BitVec 8} {i : Instr}
    (h : pairOf mark xo xd xa xi yo yd ya yi = .ok i) : ∃ x y, i = .pairedWord mark x y ∧ wellFormed i = true ∧
      halfFields x = (xo, xd, xa, xi) ∧ halfFields y = (yo, yd, ya, yi) := by
  cases hx : (if xo = 0 then some (Half.imm .movi8 xd 0 0) else halfOf xo xd xa xi) with
  | none => simp only [pairOf, hx, reduceCtorEq] at h
  | some x =>
    cases hy : (if yo = 0 then some (Half.imm .movi8 yd 0 0) else halfOf yo yd ya yi) with
    | none => simp only [pairOf, hx, hy, reduceCtorEq] at h
    | some y =>
      simp only [pairOf, hx, hy] at h
      split at h
      · cases h
      · next hc =>
        cases h
        simp only [Bool.or_eq_true, beq_iff_eq, Bool.not_eq_true', not_or, Bool.not_eq_false] at hc
        obtain ⟨⟨⟨⟨x0, y0⟩, sx⟩, sy⟩, hp⟩ := hc
        rw [if_neg x0] at hx
        rw [if_neg y0] at hy
        obtain ⟨fx, ex⟩ := halfFields_of x0 hx sx
        obtain ⟨fy, ey⟩ := halfFields_of y0 hy sy
        exact ⟨x, y, rfl, by simp only [wellFormed, encodable, ex, ey, aligned_paired, hp, Bool.and_self], fx, fy⟩

/-- Settles O5: a paired word by its halves, ILLEGAL by its bits, and every other word by the family that its opcode names. -/
theorem encodeWritesDecoded : Obligations.EncodeWritesDecoded := by
  unfold Obligations.EncodeWritesDecoded
  intro w i h
  have hw := w.isLt
  unfold decode at h
  split at h
  · next h62 =>
    obtain ⟨x, y, rfl, hwf, hx, hy⟩ := pairOf_written h
    refine ⟨rfl, hwf, BitVec.eq_of_toNat_eq ?_⟩
    simp only [encode, halfBits_eq, hx, hy, wbyte_toNat, b2n_wbits, BitVec.toNat_ofNat]
    simp only [wbits] at h62 ⊢
    omega
  · next h62 =>
    have hz : wbits w 62 1 = 0 := by have := wbits_lt w 62 1; omega
    split at h
    · next hop =>
      cases h
      refine ⟨rfl, rfl, BitVec.eq_of_toNat_eq ?_⟩
      simp only [encode, b2n_wbits, BitVec.toNat_ofNat]
      simp only [wbits] at hz hop ⊢
      omega
    · obtain ⟨hwr, ha⟩ := decodeFull_written h
      exact ⟨hwr.isWord, hwr.wellFormed ha, hwr.1.trans (pack_unpack hz)⟩

end Sys2Proof
end

section
/-! PROOFS. The range loads (R253, R258, R260 to R264). -/

namespace Sys2Proof.Machine

/-! ## Lanes that only compute, and results of any kind on their way -/

/-- Lanes whose step changes nothing and finds no fault. -/
theorem eachLane_pureLane {α : Type} (s : State) (f : State → Nat → Except LaneFault α) (g : Nat → α) :
    ∀ ls : List Nat, (∀ l ∈ ls, f s l = .ok (g l)) → eachLane (fun u l => pureLane u (f u l)) ls s = ([], s, ls.map fun l => (l, g l))
  | [], _ => rfl
  | l :: r, h => by
    have hl : pureLane s (f s l) = .ok (s, g l) := by rw [h l (List.mem_cons_self ..)]; rfl
    simp only [eachLane, hl, List.map_cons, eachLane_pureLane s f g r fun k hk => h k (List.mem_cons_of_mem _ hk)]

theorem filter_beq_of_nodup {ls : List Nat} (hn : ls.Nodup) {l : Nat} (hl : l ∈ ls) : ls.filter (· == l) = [l] := by
  induction ls with
  | nil => cases hl
  | cons a r ih =>
    obtain ⟨ha, hr⟩ := List.nodup_cons.mp hn
    rcases List.mem_cons.mp hl with rfl | hl
    · have : r.filter (· == l) = [] := List.filter_eq_nil_iff.mpr fun x hx h => ha (beq_iff_eq.mp h ▸ hx)
      simp [this]
    · have hne : (a == l) = false := by
        rw [beq_eq_false_iff_ne]; rintro rfl; exact ha hl
      simp [hne, ih hr hl]

/-- The answer of lane l among those of all lanes. -/
theorem lane_answer {α : Type} {ls : List Nat} (hn : ls.Nodup) (g : Nat → α) {l : Nat} (hl : l ∈ ls) :
    (ls.map fun k => (k, g k)).filter (·.1 == l) = [(l, g l)] := by
  rw [List.filter_map, show ((fun p : Nat × α => p.1 == l) ∘ fun k => (k, g k)) = (· == l) from rfl, filter_beq_of_nodup hn hl]
  rfl

/-- The end of a word that has sent for what `outs` says of each live lane (R42). -/
theorem laterLanes_leaves {e : Env} {s t : State} (s0 : State) (i : Instr) (d n : Nat) (outs : Nat → List Outst) (h : Wrote e s t noResult) :
    let u := retire s0 e i (modWarp (laterLanes e t d n outs) e.g e.w fun x => advance x e.atPc)
    RegsAre e s u noResult ∧ OnlyWarp e s u ∧ LanesAre e u (onward e) ∧ (warpOf e u).outs = e.wp.outs ++ (lanesOf e.live).flatMap outs ∧
      ((warpOf e u).outs ≠ [] → ∀ k, k ∈ (warpOf e u).pending ↔ k ∈ e.wp.pending ∨ (bit e.live (k % 32) = true ∧ d ≤ k / 32 ∧ k / 32 < d + n)) := by
  obtain ⟨hr, ho, wp, hw, hk, -⟩ := wrote_ownRows (List.range n) (fun k => d + k) h
  set s1 := (List.range n).foldl (fun t k => if e.live = 0 then t else ownRow t e.g e.w (d + k)) t
  set keys := (lanesOf e.live).flatMap fun l => (List.range n).map fun k => 32 * (d + k) + l with hkeys
  set upd : Warp → Warp := fun x =>
    { x with pending := sinsAll x.pending keys, tags := x.tags.filter fun k => !keys.contains k, outs := x.outs ++ (lanesOf e.live).flatMap outs }
  rw [show laterLanes e t d n outs = modWarp s1 e.g e.w upd from rfl]
  have hw2 := warp?_modWarp_of (fun x => advance x e.atPc) (warp?_modWarp_of upd hw)
  obtain ⟨ho3, hw3⟩ := retire_spec s0 i (onlyWarp_modWarp (fun x => advance x e.atPc) (onlyWarp_modWarp upd ho)) hw2
  intro u
  obtain ⟨p, q, a, r, hq⟩ := retiredWarp_only s0 e i (advance (upd wp) e.atPc)
  have hx : warpOf e u = { advance (upd wp) e.atPc with pending := p, parked := q, affine := a, recent := r } := by rw [warpOf_of hw3, hq]
  have hpa : (advance (upd wp) e.atPc).parked = e.wp.parked := by show wp.parked = _; rw [← hk]
  refine ⟨fun r l hlt => ?_, ho3, fun l => ?_, ?_, fun hne k => ?_⟩
  · rw [onlyWarp_reads ho3 hw3, hq, ← hr r l hlt, onlyWarp_reads ho hw]
    exact regRead_warp rfl rfl rfl rfl r l
  · rw [hx, ← show wp.lanes = e.wp.lanes by rw [← hk]]; exact mem_lanes_advance (upd wp) e.atPc l
  · rw [hx]; show wp.outs ++ _ = _; rw [← hk]
  · rw [hx] at hne
    rw [warpOf_of hw3, mem_retiredWarp_pending s0 e i hpa]
    have hmem : k ∈ keys ↔ bit e.live (k % 32) = true ∧ d ≤ k / 32 ∧ k / 32 < d + n := by
      simp only [hkeys, List.mem_flatMap, mem_lanesOf, List.mem_map, List.mem_range]
      constructor
      · rintro ⟨l, hl, j, hj, rfl⟩
        have hlt := bit_lt hl
        rw [show (32 * (d + j) + l) / 32 = d + j by omega, show (32 * (d + j) + l) % 32 = l by omega]
        exact ⟨hl, by omega, by omega⟩
      · rintro ⟨hl, h1, h2⟩
        exact ⟨k % 32, hl, k / 32 - d, by omega, by omega⟩
    show (k ∈ sinsAll wp.pending keys ∧ _) ↔ _
    rw [mem_sinsAll, hmem, show wp.pending = e.wp.pending by rw [← hk]]
    refine ⟨fun hc => hc.1.symm, fun hc => ⟨hc.symm, fun hno => hne hno.2.1⟩⟩

/-! ## The checks of a range load -/

/-- The region's type and aggregate are those of the load (R258). -/
def Fits (op : Nat) (ty : OrTy) (r : Region) : Prop :=
  r.ty = (match ty with | .f32 => 0 | .s32 => 1 | .s64 => 2) ∧
    (match op with | 0 => r.agg = 0 | 1 => r.agg ≠ 0 | 2 => r.agg = 3 | _ => r.agg = 0 ∧ r.nonneg = true)

/-- A draw that LDPICK takes (R264). -/
def GoodDraw (u : Nat) : Prop := isNan .f32 u = false ∧ (u < 0x3F800000 ∨ u = 0x80000000)

theorem badDraw_iff (u : Nat) : badDraw u = true ↔ ¬ GoodDraw u := by
  simp only [badDraw, GoodDraw, Bool.or_eq_true, Bool.and_eq_true, decide_eq_true_eq, bne_iff_ne]
  cases isNan .f32 u <;> simp
  omega

section
variable {s : State} {e : Env} {op : Nat} {ty : OrTy} {num lo hi : Nat}

theorem queryCheck_none (h : declared? s e.gr.ctx num = none) : queryCheck s e op ty num lo hi = bad .orreg (BitVec.ofNat 64 num) 0 := by
  simp only [queryCheck, h]

theorem queryCheck_some {r : Region} (h : declared? s e.gr.ctx num = some r) :
    (¬ Fits op ty r → queryCheck s e op ty num lo hi = bad .orreg (BitVec.ofNat 64 num) 0) ∧
    (Fits op ty r → (hi < lo ∨ r.n < hi) → queryCheck s e op ty num lo hi = bad .orrange (BitVec.ofNat 64 lo) (BitVec.ofNat 64 hi)) ∧
    (Fits op ty r → lo ≤ hi → hi ≤ r.n → queryCheck s e op ty num lo hi = .ok r) := by
  cases ty <;> rcases op with _ | _ | _ | op <;> simp only [queryCheck, h, Fits] <;> grind
end

/-! ## The words -/

/-- The query of lane l. -/
def queryOf (e : Env) (s : State) (op : Nat) (ty : OrTy) (a b : Reg) (x : Nat → DWord) (l : Nat) : Query :=
  { region := (e.v s a l).toNat % 256, op := op, ty := ty, lo := (e.d s b l).toNat % 2 ^ 32, hi := (e.d s b l).toNat / 2 ^ 32, x := x l, time := s.tick }

/-- What a range load answers in lane l. -/
def queryLane (e : Env) (s : State) (op : Nat) (ty : OrTy) (a b : Reg) (x : Nat → DWord) (u : State) (l : Nat) : Except LaneFault Query := do
  let _ ← queryCheck u e op ty ((e.v s a l).toNat % 256) ((e.d s b l).toNat % 2 ^ 32) ((e.d s b l).toNat / 2 ^ 32)
  if op = 4 ∧ badDraw (x l).toNat then bad .orrange (BitVec.ofNat 64 ((e.d s b l).toNat % 2 ^ 32)) (BitVec.ofNat 64 ((e.d s b l).toNat / 2 ^ 32))
  else pure (queryOf e s op ty a b x l)

section
variable {i : Instr} {s : State} {e : Env} {op n : Nat} {ty : OrTy} {d a b : Reg} {x : Env → State → Nat → DWord} (hi : Issues i s e)
include hi

theorem exec_rangeWord : rangeWord i s op ty d a b n x = finish e i (lanesThen e s (fun u l => pureLane u (queryLane e s op ty a b (x e s) u l))
    fun u qs => .done (laterLanes e u d.toNat n fun l => (qs.filter (·.1 == l)).map fun q => .query l d.toNat q.2)) s := by
  rw [rangeWord, runWord_issues hi]; rfl

/-- The queries of lanes that find nothing wrong are sent off. -/
theorem rangeWord_sends (hx : exec i s = rangeWord i s op ty d a b n x)
    (h : ∀ l, bit e.live l = true → ∃ r, declared? s e.gr.ctx ((e.v s a l).toNat % 256) = some r ∧ Fits op ty r ∧
      (e.d s b l).toNat % 2 ^ 32 ≤ (e.d s b l).toNat / 2 ^ 32 ∧ (e.d s b l).toNat / 2 ^ 32 ≤ r.n ∧ (op = 4 → GoodDraw (x e s l).toNat)) :
    ∃ u, exec i s = .next u ∧ RegsAre e s u noResult ∧ OnlyWarp e s u ∧ SameMemory s u ∧ LanesAre e u (onward e) ∧
      (warpOf e u).outs = e.wp.outs ++ (lanesOf e.live).map (fun l => .query l d.toNat (queryOf e s op ty a b (x e s) l)) ∧
      ∀ l k, bit e.live l = true → k < n → 32 * (d.toNat + k) + l ∈ (warpOf e u).pending := by
  have hlane (l : Nat) (hl : l ∈ lanesOf e.live) : queryLane e s op ty a b (x e s) s l = .ok (queryOf e s op ty a b (x e s) l) := by
    obtain ⟨r, hr, hf, h1, h2, hd⟩ := h l ((mem_lanesOf ..).mp hl)
    have hb : ¬ (op = 4 ∧ badDraw (x e s l).toNat = true) := fun hc => (badDraw_iff _).mp hc.2 (hd hc.1)
    rw [queryLane, ((queryCheck_some hr).2.2 hf h1 h2)]
    exact if_neg hb
  rw [hx, exec_rangeWord hi, lanesThen_ok (eachLane_pureLane s _ _ _ hlane), finish_done hi]
  obtain ⟨hreg, honly, hlanes, houts, hpend⟩ := laterLanes_leaves s i d.toNat n
    (fun l => (((lanesOf e.live).map fun l => (l, queryOf e s op ty a b (x e s) l)).filter (·.1 == l)).map fun q => Outst.query l d.toNat q.2) (wrote_refl (issues_here hi))
  have houts' := houts.trans (congrArg (e.wp.outs ++ ·) (List.flatMap_congr fun l hl => congrArg (List.map _) (lane_answer (nodup_lanesOf _) _ hl)))
  refine ⟨_, rfl, hreg, honly, sameMemory_of_only honly.1, hlanes, ?_, fun l k hl hk => (hpend ?_ _).mpr (.inr ?_)⟩
  · rw [houts', List.map_eq_flatMap]; rfl
  · rw [houts']
    have : l ∈ lanesOf e.live := (mem_lanesOf ..).mpr hl
    intro hc
    have hc := (List.append_eq_nil_iff.mp hc).2
    rw [List.flatMap_eq_nil_iff] at hc
    exact absurd (hc l this) (by simp)
  · have hlt := bit_lt hl
    rw [show (32 * (d.toNat + k) + l) / 32 = d.toNat + k by omega, show (32 * (d.toNat + k) + l) % 32 = l by omega]
    exact ⟨hl, by omega, by omega⟩

/-- The lowest lane's region is not one that the load takes. -/
theorem rangeWord_orreg (hx : exec i s = rangeWord i s op ty d a b n x) {l : Nat} (hl : leader e.live = some l)
    (h : ∀ r, declared? s e.gr.ctx ((e.v s a l).toNat % 256) = some r → ¬ Fits op ty r) :
    FaultsFirst i s e s .orreg (BitVec.ofNat 64 ((e.v s a l).toNat % 256)) 0 := by
  refine faultsFirst_of_lane (hx.trans (exec_rangeWord hi)) hl ?_
  have : queryCheck s e op ty ((e.v s a l).toNat % 256) ((e.d s b l).toNat % 2 ^ 32) ((e.d s b l).toNat / 2 ^ 32) = bad .orreg (BitVec.ofNat 64 ((e.v s a l).toNat % 256)) 0 := by
    cases hr : declared? s e.gr.ctx ((e.v s a l).toNat % 256) with
    | none => exact queryCheck_none hr
    | some r => exact (queryCheck_some hr).1 (h r hr)
  rw [queryLane, this]; rfl

/-- The lowest lane's range or draw is wrong. -/
theorem rangeWord_orrange (hx : exec i s = rangeWord i s op ty d a b n x) {l : Nat} {r : Region} (hl : leader e.live = some l)
    (hr : declared? s e.gr.ctx ((e.v s a l).toNat % 256) = some r) (hf : Fits op ty r)
    (h : (e.d s b l).toNat / 2 ^ 32 < (e.d s b l).toNat % 2 ^ 32 ∨ r.n < (e.d s b l).toNat / 2 ^ 32 ∨ (op = 4 ∧ ¬ GoodDraw (x e s l).toNat)) :
    FaultsFirst i s e s .orrange (BitVec.ofNat 64 ((e.d s b l).toNat % 2 ^ 32)) (BitVec.ofNat 64 ((e.d s b l).toNat / 2 ^ 32)) := by
  refine faultsFirst_of_lane (hx.trans (exec_rangeWord hi)) hl ?_
  by_cases hrange : (e.d s b l).toNat / 2 ^ 32 < (e.d s b l).toNat % 2 ^ 32 ∨ r.n < (e.d s b l).toNat / 2 ^ 32
  · rw [queryLane, (queryCheck_some hr).2.1 hf hrange]; rfl
  · obtain ⟨hop, hd⟩ : op = 4 ∧ ¬ GoodDraw (x e s l).toNat := by tauto
    rw [queryLane, (queryCheck_some hr).2.2 hf (by omega) (by omega)]
    show pureLane s (if _ then _ else _) = _
    rw [if_pos ⟨hop, (badDraw_iff _).mpr hd⟩]; rfl
end

/-- Settles O34: each word is one range load, whose lanes send their queries or fault by its checks. -/
theorem rangeLoadsComplete : Obligations.RangeLoadsComplete := by
  unfold Obligations.RangeLoadsComplete
  intro s e h ty d a b c
  have hs : exec (.ldrs h ty d a b) s = rangeWord (.ldrs h ty d a b) s 0 ty d a b (match (generalizing := false) ty with | .f32 => 1 | _ => 2) fun _ _ _ => 0 := rfl
  have hm : exec (.ldrm h ty false d a b) s = rangeWord (.ldrm h ty false d a b) s 1 ty d a b (match (generalizing := false) ty with | .s64 => 2 | _ => 1) fun _ _ _ => 0 := by
    cases ty <;> rfl
  have hmi : exec (.ldrm h ty true d a b) s = rangeWord (.ldrm h ty true d a b) s 2 ty d a b (match (generalizing := false) ty with | .s64 => 4 | _ => 2) fun _ _ _ => 0 := by
    cases ty <;> rfl
  have hp : exec (.ldpfx h ty d a b c) s = rangeWord (.ldpfx h ty d a b c) s 3 ty d a b 1 fun e t l => match (generalizing := false) ty with
      | .f32 => (e.v t c l).setWidth 64
      | .s32 => (e.v t c l).signExtend 64
      | .s64 => e.d t c l := rfl
  have hk : exec (.ldpick h ty d a b c) s = rangeWord (.ldpick h ty d a b c) s 4 ty d a b 1 fun e t l => (e.v t c l).setWidth 64 := rfl
  refine ⟨fun hi => ?_, fun hi => ?_, fun hi => ?_, fun hi => ?_, fun hi => ?_⟩
  · exact ⟨rangeWord_sends hi hs, fun l => rangeWord_orreg hi hs, fun l r => rangeWord_orrange hi hs⟩
  · exact ⟨rangeWord_sends hi hm, fun l => rangeWord_orreg hi hm, fun l r => rangeWord_orrange hi hm⟩
  · exact ⟨rangeWord_sends hi hmi, fun l => rangeWord_orreg hi hmi, fun l r => rangeWord_orrange hi hmi⟩
  · exact ⟨rangeWord_sends hi hp, fun l => rangeWord_orreg hi hp, fun l r => rangeWord_orrange hi hp⟩
  · exact ⟨rangeWord_sends hi hk, fun l => rangeWord_orreg hi hk, fun l r => rangeWord_orrange hi hk⟩

end Sys2Proof.Machine
end

section
/-! PROOFS. The region words ORDECL, ORBUILD and ORDROP, and TFENCE (R248, R249, R259, R267). -/

namespace Sys2Proof.Machine

/-! ## Words that wait as FENCE.SEQ.DEV does -/

theorem tick_foldl {α : Type} {f : State → α → State} (hf : ∀ s x, (f s x).tick = s.tick) (xs : List α) (s : State) :
    (xs.foldl f s).tick = s.tick := by
  induction xs generalizing s with
  | nil => rfl
  | cons x xs ih => rw [List.foldl_cons, ih, hf]

theorem WritesOnly.tick {s t : State} (h : WritesOnly s t) : t.tick = s.tick := by rw [h]

@[simp] theorem fenceDrain_tick (s : State) (d : Nat) (ord : FenceOrd) (sc : Scope) : (fenceDrain s d ord sc).tick = s.tick := by
  unfold fenceDrain
  split
  · exact (writesOnly_drainIf (bindDie s d) _).tick
  · rfl

@[simp] theorem fenceEdges_tick (s : State) (d g w : Nat) (live : Mask) (ord : FenceOrd) (sc : Scope) : (fenceEdges s d g w live ord sc).tick = s.tick := by
  unfold fenceEdges
  split
  · rfl
  extract_lets s1 s2 v
  have h1 : s1.tick = s.tick := by
    simp only [s1]
    split
    · rfl
    split
    · rfl
    · refine tick_foldl (fun v l => ?_) _ _
      split <;> rfl
  have h2 : s2.tick = s.tick := by
    simp only [s2]
    split
    · exact h1
    · exact h1
  split
  · exact h2
  · rw [modWarp_tick]; exact h2

section
variable {i : Instr} {s : State} {e : Env} {ord : FenceOrd} {sc : Scope} {k : State → WordRes} (hi : Issues i s e)
  (hx : exec i s = finish e i (fenceThen e s ord sc k) s)
include hi hx

theorem fenceWord_idle (hl : e.live = 0) : Completes i s e noResult := by
  rw [Completes, hx, fenceThen, if_pos hl]
  exact finish_done_completes hi

theorem fenceWord_waits (ha : ∀ x gr wp, affineWord x { e with gr := gr, wp := wp } i = affineWord x e i) (hl : e.live ≠ 0)
    (hr : fenceReady (fenceDrain s e.die ord sc) e.die e.g e.w ord sc = false) : HoldsOn i s e (fenceDrain s e.die ord sc) (.fence ord sc) e.atPc :=
  holdsOn_kept hi ((keepsPlace_of_here (issues_here hi)).of_groups (fenceDrain_groups _)) ha _ _
    (by rw [hx, fenceThen, if_neg hl]; simp only [hr, Bool.false_eq_true, if_false])

omit hi in
theorem fenceWord_goes_on (hl : e.live ≠ 0) (hr : fenceReady (fenceDrain s e.die ord sc) e.die e.g e.w ord sc = true) :
    exec i s = finish e i (k (fenceEdges (fenceDrain s e.die ord sc) e.die e.g e.w e.live ord sc)) s := by
  rw [hx, fenceThen, if_neg hl]
  simp only [hr, if_true]
end

/-- The state in which a word that waited as a fence goes on has its warp where the word left it. -/
theorem keepsPlace_fenced {i : Instr} {s : State} {e : Env} (hi : Issues i s e) (ord : FenceOrd) (sc : Scope) :
    KeepsPlace e (fenceEdges (fenceDrain s e.die ord sc) e.die e.g e.w e.live ord sc) :=
  keepsPlace_fenceEdges ((keepsPlace_of_here (issues_here hi)).of_groups (fenceDrain_groups _)) _ _

/-! ## The region that a descriptor declares -/

/-- A unit is one of the eight. -/
theorem chooseUnit_lt {s : State} {d u : Nat} (h : chooseUnit s d = some u) : u < 8 := by
  have key (us : List Nat) (hus : ∀ x ∈ us, x < 8) : ∀ a : Option (Nat × Nat), (∀ p, a = some p → p.1 < 8) →
      ∀ p, us.foldl (fun (a : Option (Nat × Nat)) u =>
        let f := unitFree s d u
        match a with
        | some (_, m) => if f > m then some (u, f) else a
        | none => if f > 0 then some (u, f) else none) a = some p → p.1 < 8 := by
    induction us with
    | nil => exact fun a ha => ha
    | cons x xs ih =>
      intro a ha
      refine ih (fun y hy => hus y (List.mem_cons_of_mem _ hy)) _ fun p hp => ?_
      have hx := hus x (List.mem_cons_self ..)
      dsimp only at hp
      split at hp
      · split at hp
        · cases hp; exact hx
        · exact ha _ hp
      · split at hp
        · cases hp; exact hx
        · cases hp
  obtain ⟨p, hp, rfl⟩ := Option.map_eq_some_iff.mp h
  exact key (List.range 8) (fun x hx => List.mem_range.mp hx) none (fun p hp => by cases hp) p hp

theorem newRegion_fields {s : State} {e : Env} {num : Nat} {b : List Byte} {r : Region} (h : newRegion s e num b = some r) :
    r.ctx = e.gr.ctx ∧ r.num = num ∧ r.building = true ∧ r.bound = true ∧ r.unit < 8 ∧ r.n = field b 8 4 ∧ r.base = field b 0 8 := by
  unfold newRegion at h
  split at h
  · cases h
  extract_lets n ty leafBytes at h
  split at h
  · extract_lets ls bs inTemplate meets d at h
    split at h
    · cases h
    · obtain ⟨u, hu, rfl⟩ := Option.map_eq_some_iff.mp h
      exact ⟨rfl, rfl, rfl, rfl, chooseUnit_lt hu, rfl, rfl⟩
  · cases h

/-! ## The words -/

section
variable {h : Hdr} {a : Reg} {s : State} {e : Env}

/-- What ORDECL does once its fence has drained. -/
def ordeclThen (e : Env) (a : Reg) (t : State) : WordRes :=
  match memLeaf t e (((ctx? t e.gr.ctx).map (·.ordesc)).getD 0 + BitVec.ofNat 64 (64 * leaderRegion e t a)) 64 0 1 with
  | .error none => .stop .noSuchMemory
  | .error (some (c, d0, d1)) => .trap t c e.live d0 d1
  | .ok lf => match readMem t e lf 64 false 32 with
    | .error none => .stop .noSuchMemory
    | .error (some (c, d0, d1)) => .trap t c e.live d0 d1
    | .ok b => match newRegion t e (leaderRegion e t a) b with
      | none => .trap t .orreg e.live (BitVec.ofNat 64 (leaderRegion e t a)) 0
      | some r => if e.fixed && r.delta then .trap t .ndet e.live 0 0
        else .hold { t with regions := t.regions ++ [r] } (.region (leaderRegion e t a) 0) e.atPc

theorem exec_ordecl (hi : Issues (.ordecl h a) s e) :
    exec (.ordecl h a) s = finish e (.ordecl h a) (fenceThen e s .seq .dev (ordeclThen e a)) s := by
  rw [show exec (.ordecl h a) s = execOrdecl h a s from rfl, execOrdecl, runWord_issues hi] <;> rfl

section
variable {t : State} {lf : Leaf} {b : List Byte}

theorem ordeclThen_unmapped {c : Code} {d0 d1 : DWord}
    (hm : memLeaf t e (((ctx? t e.gr.ctx).map (·.ordesc)).getD 0 + BitVec.ofNat 64 (64 * leaderRegion e t a)) 64 0 1 = .error (some (c, d0, d1))) :
    ordeclThen e a t = .trap t c e.live d0 d1 := by rw [ordeclThen, hm]

variable (hm : memLeaf t e (((ctx? t e.gr.ctx).map (·.ordesc)).getD 0 + BitVec.ofNat 64 (64 * leaderRegion e t a)) 64 0 1 = .ok lf)
  (hb : readMem t e lf 64 false 32 = .ok b)
include hm hb

theorem ordeclThen_malformed (hn : newRegion t e (leaderRegion e t a) b = none) :
    ordeclThen e a t = .trap t .orreg e.live (BitVec.ofNat 64 (leaderRegion e t a)) 0 := by
  rw [ordeclThen, hm]; simp only [hb, hn]

theorem ordeclThen_declares {r : Region} (hn : newRegion t e (leaderRegion e t a) b = some r) :
    ordeclThen e a t = if e.fixed && r.delta then .trap t .ndet e.live 0 0
      else .hold { t with regions := t.regions ++ [r] } (.region (leaderRegion e t a) 0) e.atPc := by
  rw [ordeclThen, hm]; simp only [hb, hn]
end

/-- What ORBUILD does once its fence has drained. -/
def orbuildThen (e : Env) (a : Reg) (t : State) : WordRes :=
  match declared? t e.gr.ctx (leaderRegion e t a) with
  | none => .trap t .orreg e.live (BitVec.ofNat 64 (leaderRegion e t a)) 0
  | some r => if r.building then .hold t .accept e.atPc
    else .hold (modRegion t e.gr.ctx (leaderRegion e t a) fun x => { x with building := true, began := t.tick }) (.region (leaderRegion e t a) 1) e.atPc

/-- What ORDROP does once its fence has drained. -/
def ordropThen (e : Env) (a : Reg) (t : State) : WordRes :=
  match declared? t e.gr.ctx (leaderRegion e t a) with
  | none => .trap t .orreg e.live (BitVec.ofNat 64 (leaderRegion e t a)) 0
  | some r => if r.building then .trap t .orreg e.live (BitVec.ofNat 64 (leaderRegion e t a)) 0 else .hold t (.region (leaderRegion e t a) 2) e.atPc

theorem exec_orbuild (hi : Issues (.orbuild h a) s e) :
    exec (.orbuild h a) s = finish e (.orbuild h a) (fenceThen e s .seq .dev (orbuildThen e a)) s := by
  rw [show exec (.orbuild h a) s = execOrbuild h a s from rfl, execOrbuild, runWord_issues hi] <;> rfl

theorem exec_ordrop (hi : Issues (.ordrop h a) s e) :
    exec (.ordrop h a) s = finish e (.ordrop h a) (fenceThen e s .seq .dev (ordropThen e a)) s := by
  rw [show exec (.ordrop h a) s = execOrdrop h a s from rfl, execOrdrop, runWord_issues hi] <;> rfl

section
variable {t : State} {r : Region}

theorem orbuildThen_undeclared (hd : declared? t e.gr.ctx (leaderRegion e t a) = none) :
    orbuildThen e a t = .trap t .orreg e.live (BitVec.ofNat 64 (leaderRegion e t a)) 0 := by rw [orbuildThen, hd]

theorem ordropThen_undeclared (hd : declared? t e.gr.ctx (leaderRegion e t a) = none) :
    ordropThen e a t = .trap t .orreg e.live (BitVec.ofNat 64 (leaderRegion e t a)) 0 := by rw [ordropThen, hd]

variable (hd : declared? t e.gr.ctx (leaderRegion e t a) = some r)
include hd

theorem orbuildThen_building (hb : r.building = true) : orbuildThen e a t = .hold t .accept e.atPc := by
  rw [orbuildThen, hd]; simp only [hb, if_true]

theorem orbuildThen_idle (hb : r.building = false) : orbuildThen e a t =
    .hold (modRegion t e.gr.ctx (leaderRegion e t a) fun x => { x with building := true, began := t.tick }) (.region (leaderRegion e t a) 1) e.atPc := by
  rw [orbuildThen, hd]; simp only [hb, Bool.false_eq_true, if_false]

theorem ordropThen_idle (hb : r.building = false) : ordropThen e a t = .hold t (.region (leaderRegion e t a) 2) e.atPc := by
  rw [ordropThen, hd]; simp only [hb, Bool.false_eq_true, if_false]
end

end

/-! ## TFENCE -/

theorem tfenceReady_iff (s : State) (g w c : Nat) (num : Option Nat) : tfenceReady s g w c num = true ↔
    ∀ r ∈ s.regions, (∀ n, num = some n → r.ctx = c ∧ r.num = n) → recordsDue s g w r = false := by
  cases num <;> simp [tfenceReady]

section
variable {h : Hdr} {a : Option Reg} {s : State} {e : Env}

theorem exec_tfence (hi : Issues (.tfence h a) s e) : exec (.tfence h a) s = finish e (.tfence h a) (if e.live = 0 then .done s else
    match a.map (leaderRegion e s) with
    | some n => if (declared? s e.gr.ctx n).isNone then .trap s .orreg e.live (BitVec.ofNat 64 n) 0
      else if tfenceReady s e.g e.w e.gr.ctx (a.map (leaderRegion e s)) then .done s else .hold s (.tfence (a.map (leaderRegion e s))) e.atPc
    | none => if tfenceReady s e.g e.w e.gr.ctx none then .done s else .hold s (.tfence none) e.atPc) s :=
  by rw [show exec (.tfence h a) s = execTfence h a s from rfl, execTfence, runWord_issues hi] <;> rfl

/-- A TFENCE whose region, if it names one, is declared. -/
theorem exec_tfence_declared (hi : Issues (.tfence h a) s e) (hl : e.live ≠ 0) {num : Option Nat} (hn : a.map (leaderRegion e s) = num)
    (hd : ∀ n, num = some n → (declared? s e.gr.ctx n).isSome = true) : exec (.tfence h a) s = finish e (.tfence h a)
      (if tfenceReady s e.g e.w e.gr.ctx num then .done s else .hold s (.tfence num) e.atPc) s := by
  rw [exec_tfence hi, if_neg hl, hn]
  cases num with
  | none => rfl
  | some n =>
    have : (declared? s e.gr.ctx n).isNone = false := by
      rw [Option.isNone_eq_false_iff]; exact hd n rfl
    simp only [this, Bool.false_eq_true, if_false]
end

/-- Settles O36: the three region words as words that wait as a fence and then go by the region, and TFENCE by the records due. -/
theorem regionAndTfenceWordsComplete : Obligations.RegionAndTfenceWordsComplete := by
  unfold Obligations.RegionAndTfenceWordsComplete
  refine ⟨fun s e h a => ?_, fun s e h a hi => ?_⟩
  · intro drained u clear waits faults num desc
    have hwaits {i : Instr} {k : State → WordRes} (hx : Issues i s e → exec i s = finish e i (fenceThen e s .seq .dev k) s)
        (ha : ∀ x gr wp, affineWord x { e with gr := gr, wp := wp } i = affineWord x e i) : waits i := fun hi =>
      ⟨fenceWord_idle hi (hx hi), fenceWord_waits hi (hx hi) ha⟩
    refine ⟨hwaits exec_ordecl fun _ _ _ => rfl, hwaits exec_orbuild fun _ _ _ => rfl, hwaits exec_ordrop fun _ _ _ => rfl,
      fun hi ⟨hl, hr⟩ => ?_, fun ⟨hl, hr⟩ hn => ⟨fun hi => ?_, fun hi => ?_⟩, fun r ⟨hl, hr⟩ hd => ⟨fun hb hi => ?_, fun hb => ⟨fun hi => ?_, fun hi => ?_⟩⟩⟩
    · have hx := fenceWord_goes_on (exec_ordecl hi) hl hr
      refine ⟨fun c d0 d1 hm => ?_, fun lf b hm hb => ⟨fun hn => ?_, fun r hn => ⟨newRegion_fields hn, fun hf hd => ?_, fun hfd => ?_⟩⟩⟩
      · exact hx.trans (congrArg (finish e _ · s) (ordeclThen_unmapped hm))
      · exact hx.trans (congrArg (finish e _ · s) (ordeclThen_malformed hm hb hn))
      · refine hx.trans (congrArg (finish e _ · s) ((ordeclThen_declares hm hb hn).trans (if_pos ?_)))
        rw [hf, hd]; rfl
      · have hk : KeepsPlace e { u with regions := u.regions ++ [r] } := (keepsPlace_fenced hi .seq .dev).of_groups rfl
        refine holdsOn_kept hi hk (fun _ _ _ => rfl) _ _
          (hx.trans (congrArg (finish e _ · s) ((ordeclThen_declares hm hb hn).trans (if_neg ?_))))
        rcases hfd with h | h <;> simp [h]
    · exact (fenceWord_goes_on (exec_orbuild hi) hl hr).trans (congrArg (finish e _ · s) (orbuildThen_undeclared hn))
    · exact (fenceWord_goes_on (exec_ordrop hi) hl hr).trans (congrArg (finish e _ · s) (ordropThen_undeclared hn))
    · exact holdsOn_kept hi (keepsPlace_fenced hi .seq .dev) (fun _ _ _ => rfl) _ _
        ((fenceWord_goes_on (exec_orbuild hi) hl hr).trans (congrArg (finish e _ · s) (orbuildThen_building hd hb)))
    · have htick : u.tick = s.tick := by simp only [u, drained, fenceEdges_tick, fenceDrain_tick]
      have hk : KeepsPlace e (modRegion u e.gr.ctx num fun x => { x with building := true, began := s.tick }) :=
        (keepsPlace_fenced hi .seq .dev).of_groups rfl
      refine holdsOn_kept hi hk (fun _ _ _ => rfl) _ _ ((fenceWord_goes_on (exec_orbuild hi) hl hr).trans ?_)
      rw [← htick]
      exact congrArg (finish e _ · s) (orbuildThen_idle hd hb)
    · exact holdsOn_kept hi (keepsPlace_fenced hi .seq .dev) (fun _ _ _ => rfl) _ _
        ((fenceWord_goes_on (exec_ordrop hi) hl hr).trans (congrArg (finish e _ · s) (ordropThen_idle hd hb)))
  · intro num clear
    have hclear : tfenceReady s e.g e.w e.gr.ctx num = true ↔ clear := tfenceReady_iff ..
    refine ⟨fun hl => ?_, fun hl n hn hd => ?_, fun hl hd => ⟨fun hc => ?_, fun hc => ?_⟩⟩
    · rw [Completes, exec_tfence hi, if_pos hl]; exact finish_done_completes hi
    · rw [Faults, exec_tfence hi, if_neg hl, show a.map (leaderRegion e s) = some n from hn]
      simp only [hd, Option.isNone_none, if_true]; rfl
    · have hx := (exec_tfence_declared hi hl (num := num) rfl hd).trans (congrArg (finish e _ · s) (if_pos (hclear.mpr hc)))
      rw [Completes, hx]
      exact finish_done_completes hi
    · refine holdsOn_kept hi (keepsPlace_of_here (issues_here hi)) (fun _ _ _ => rfl) _ _
        ((exec_tfence_declared hi hl (num := num) rfl hd).trans (congrArg (finish e _ · s) (if_neg fun h => hc (hclear.mp h))))

end Sys2Proof.Machine
end

section
/-! PROOFS. TRAP, BRKPT and the ILLEGAL word (R40, R125, R358, R371). -/

namespace Sys2Proof.Machine

section
variable {h : Hdr} {k : BitVec 8} {s : State} {e : Env}

/-! ## TRAP -/

theorem exec_trap (hi : Issues (.trap h k) s e) : exec (.trap h k) s = finish e (.trap h k)
    (if e.live = 0 then .done s else .trap s .swtrap e.live (k.setWidth 64) 0) s := by
  rw [show exec (.trap h k) s = execTrap h k s from rfl, execTrap, runWord_issues hi]

theorem trap_faults (hi : Issues (.trap h k) s e) (hl : e.live ≠ 0) : Faults (.trap h k) s e .swtrap e.live (k.setWidth 64) 0 := by
  rw [Faults, exec_trap hi, if_neg hl, finish_trap]

/-- A TRAP of a handler: the trap entry that follows ends the context (R358). -/
theorem trap_in_handler (hi : Issues (.trap h k) s e) (hl : e.live ≠ 0) {x : Handler} (hx : e.wp.handler = some x) (hlife : e.gr.life = .resident)
    (hlog : e.gr.logits = none) (hf : e.wp.fault = none) (ho : e.wp.outs = []) (hb : busyHold e.wp = false)
    (hh : e.wp.trapHalt = true → (core s e.gr.core).halted = false) :
    ∃ t, exec (.trap h k) s = .next t ∧
      exec (.trapEntry e.g e.w) t = .next (contextEnd t e.gr.ctx (some x.cause) (recordOf s e .swtrap e.live (k.setWidth 64) 0)) := by
  let r := recordOf s e .swtrap e.live (k.setWidth 64) 0
  obtain ⟨hg, hw⟩ := issues_here hi
  have htake : takeFault s e.g e.w r = modWarp s e.g e.w fun y => { y with fault := some r } :=
    takeFault_records hg hw (fun hc => nomatch hc) hlog (fun hc => nomatch hc) hf
  refine ⟨_, (trap_faults hi hl).trans (congrArg _ htake), ?_⟩
  have hgroup : group? (modWarp s e.g e.w fun y => { y with fault := some r }) e.g =
      some { e.gr with warps := modAt e.gr.warps e.w fun y => { y with fault := some r } } := by rw [group?_modWarp_self, hg]; rfl
  have hwarp : (modAt e.gr.warps e.w fun y => { y with fault := some r })[e.w]? = some { e.wp with fault := some r } := by simp [hw]
  have hgo : ¬ (e.wp.outs ≠ [] ∨ busyHold e.wp = true ∨ e.wp.trapHalt = true ∧ (core (modWarp s e.g e.w fun y => { y with fault := some r }) e.gr.core).halted = true) := by
    rw [core_modWarp]
    rintro (h | h | ⟨h, h'⟩)
    · exact h ho
    · rw [hb] at h; cases h
    · rw [hh h] at h'; cases h'
  have hrec : { r with handler := true } = r := by simp only [r, recordOf, hx, Option.isSome_some]
  have hend := trapEntry_nested (r := r) hgroup hwarp hlife rfl (fun hc => nomatch hc) hgo hx
  rwa [hrec] at hend

/-! ## BRKPT -/

theorem exec_brkpt (hi : Issues (.brkpt h k) s e) : exec (.brkpt h k) s = finish e (.brkpt h k)
    (if e.live = 0 then .done s
     else if ((ctx? s e.gr.ctx).map (·.dbg.getLsbD 0)).getD false then .hold (modCore s e.gr.core fun c => { c with halted := true }) .brkpt e.live
     else .trap s .swtrap e.live (k.setWidth 64) 0) s := by
  rw [show exec (.brkpt h k) s = execBrkpt h k s from rfl, execBrkpt, runWord_issues hi]

/-- BRK of the word's context, as BRKPT reads it. -/
theorem brk_iff (s : State) (n : Nat) : ((ctx? s n).map (·.dbg.getLsbD 0)).getD false = true ↔ ∃ c, ctx? s n = some c ∧ c.dbg.getLsbD 0 = true := by
  cases ctx? s n <;> simp

/-! ## ILLEGAL -/

/-- An unassigned word faults in the decode checks, before anything that a word waits for. -/
theorem illegal_faults {raw : BitVec 54} {m : Bool} (he : env? (.illegal raw m) s = some e) : Faults (.illegal raw m) s e .illegal e.atPc 0 0 := by
  have hd : decodeFault s e (.illegal raw m) = some (.illegal, e.atPc, 0) := rfl
  rw [Faults, show exec (.illegal raw m) s = execIllegal raw m s from rfl, execIllegal, runWord, he]
  simp only [hd]
  rfl

end

/-- Settles O25: the branches of TRAP and BRKPT, and the trap entry after a TRAP of a handler (`trap_in_handler`). -/
theorem softwareTrapsComplete : Obligations.SoftwareTrapsComplete := by
  unfold Obligations.SoftwareTrapsComplete
  intro s e h k brk
  refine ⟨fun hi => ⟨fun hl => ?_, fun hl => ⟨trap_faults hi hl, fun x hx hlife hlog hf ho hb hh => trap_in_handler hi hl hx hlife hlog hf ho hb hh⟩⟩,
    fun hi => ⟨fun hl => ?_, fun hl hb => ?_, fun hl hb => ?_⟩, fun raw m he => illegal_faults he⟩
  · rw [Completes, exec_trap hi, if_pos hl]
    exact finish_done_completes hi
  · rw [Completes, exec_brkpt hi, if_pos hl]
    exact finish_done_completes hi
  · rw [Faults, exec_brkpt hi, if_neg hl, if_neg fun h => hb ((brk_iff s e.gr.ctx).mp h), finish_trap]
  · have hk : KeepsPlace e (modCore s e.gr.core fun c => { c with halted := true }) := (keepsPlace_of_here (issues_here hi)).of_groups rfl
    refine holdsOn_kept hi hk (fun _ _ _ => rfl) _ _ ?_
    rw [exec_brkpt hi, if_neg hl, if_pos ((brk_iff s e.gr.ctx).mpr hb)]

end Sys2Proof.Machine
end

section
/-! PROOFS. CREAD and CWRITE (R367, R369, R373). -/

namespace Sys2Proof.Machine

section
variable {h : Hdr} {a d : Reg} {r : CtlReg} {s : State} {e : Env} {c : Ctx}

/-! ## CREAD -/

theorem cread_completes (hi : Issues (.cread h d r) s e) : Completes (.cread h d r) s e (resultIn e d 2 fun _ => ctlRead s e r) := by
  refine ⟨_, ?_, settled_of_wrote s (.cread h d r) (wrote_writeLanes d 2 (fun _ => ctlRead s e r) (wrote_refl (issues_here hi)))⟩
  rw [show exec (.cread h d r) s = execCread h d r s from rfl, execCread, runWord_issues hi, finish_done hi]

/-- A counter of anything but cycles reads as it stands; one of cycles keeps its event (R368). -/
theorem perfRead_spec {k n : Nat} {p : Nat × DWord} (hp : (core s k).perf[n]? = some p) :
    perfRead s k n / 2 ^ 56 = p.1 / 2 ^ 56 ∧ (p.1 / 2 ^ 56 ≠ 1 → perfRead s k n = p.1) := by
  simp only [perfRead, hp, Option.getD_some]
  split
  · next h1 => exact ⟨by omega, fun h => absurd h1 h⟩
  · exact ⟨rfl, fun _ => rfl⟩

/-! ## CWRITE -/

theorem exec_cwrite (hi : Issues (.cwrite h a r) s e) : exec (.cwrite h a r) s = finish e (.cwrite h a r) (match leader e.live with
    | none => .done s
    | some l => if ctlWritable e.wp.handler.isSome r then .done (ctlWrite s e r (e.d s a l))
      else .trap s .priv e.live (BitVec.ofNat 64 (CtlReg.num r)) 0) s := by
  rw [show exec (.cwrite h a r) s = execCwrite h a r s from rfl, execCwrite, runWord_issues hi] <;> rfl

theorem exec_cwrite_leader (hi : Issues (.cwrite h a r) s e) {l : Nat} (hl : leader e.live = some l) : exec (.cwrite h a r) s =
    finish e (.cwrite h a r) (if ctlWritable e.wp.handler.isSome r then .done (ctlWrite s e r (e.d s a l))
      else .trap s .priv e.live (BitVec.ofNat 64 (CtlReg.num r)) 0) s := by
  rw [exec_cwrite hi, hl]

theorem ctlWritable_iff (b : Bool) (r : CtlReg) : ctlWritable b r = true ↔
    (r = .trapvec ∨ r = .tidbase ∨ r = .ordesc ∨ ∃ n, r = .perf n) ∨
    ((r = .trapframe ∨ r = .fixed ∨ r = .clockdiv ∨ r = .preempt ∨ r = .dbg) ∧ b = true) := by
  cases r <;> simp [ctlWritable]

theorem ctlWrite_groups (s : State) (e : Env) (r : CtlReg) (v : DWord) : (ctlWrite s e r v).groups = s.groups := by
  cases r <;> simp only [ctlWrite, modCtx_groups, modCore_groups]

theorem leader_eq_none (h : e.live = 0) : leader e.live = none := by rw [h]; decide

/-- The control registers of a context after a CWRITE of v to r (R367). -/
def afterCwrite (c : Ctx) (r : CtlReg) (v : DWord) : Ctx :=
  { c with
    trapvec := if r = .trapvec then v &&& ~~~7 else c.trapvec
    trapframe := if r = .trapframe then v &&& ~~~0xFFFF else c.trapframe
    fixed := if r = .fixed then v.getLsbD 0 else c.fixed
    clockdiv := if r = .clockdiv then v.setWidth 4 else c.clockdiv
    tidbase := if r = .tidbase then v else c.tidbase
    ordesc := if r = .ordesc then v else c.ordesc
    preempt := if r = .preempt then v &&& 0x01FFFFFFFFFFFFC1 else c.preempt
    dbg := if r = .dbg then v.setWidth 3 else c.dbg }

/-- A write of a register of the context changes that context alone. -/
theorem ctlWrite_ctx (v : DWord) (hw : ∃ b, ctlWritable b r = true) (hp : ∀ n, r ≠ .perf n) :
    ctlWrite s e r v = modCtx s e.gr.ctx fun c => afterCwrite c r v := by
  obtain ⟨b, hw⟩ := hw
  cases r with
  | feature | ctxid | split | version | vpin => simp [ctlWritable] at hw
  | perf n => exact absurd rfl (hp n)
  | trapvec | trapframe | fixed | clockdiv | tidbase | ordesc | preempt | dbg => rfl

theorem modCtx_only_ctxs (s : State) (c : Nat) (f : Ctx → Ctx) : modCtx s c f = { s with ctxs := (modCtx s c f).ctxs } := by
  unfold modCtx
  split <;> rfl

end

/-- Settles O46: what CREAD writes register by register, and CWRITE by `ctlWritable` and `ctlWrite`. -/
theorem controlRegistersReadAndWrite : Obligations.ControlRegistersReadAndWrite := by
  unfold Obligations.ControlRegistersReadAndWrite
  intro s e h a d r c hc
  refine ⟨fun hi => ⟨_, cread_completes hi, ?_⟩, fun hi h0 => ?_, fun l hi hl => ?_⟩
  · cases r with
    | feature | ctxid | split => rfl
    | trapvec | trapframe | fixed | clockdiv | tidbase | ordesc | preempt | dbg => simp only [ctlRead, hc, Option.map_some, Option.getD_some]
    | version => intro hs; simp only [ctlRead, SysVal.eval, hs]
    | vpin => exact ⟨fun n g hs hn => by simp only [ctlRead, hs, hn, hc, Option.bind_some, Option.map_some, Option.getD_some],
        fun hs => by simp only [ctlRead, hs, Option.bind_none]⟩
    | perf n => exact fun p hp => perfRead_spec hp
  · rw [Completes, exec_cwrite hi, leader_eq_none h0]
    exact finish_done_completes hi
  · intro v always handler allowed_
    have hx := exec_cwrite_leader hi hl
    have hallowed : ctlWritable e.wp.handler.isSome r = true ↔ allowed_ := ctlWritable_iff ..
    have hdone (ha : allowed_) : CompletesOn (.cwrite h a r) s e (ctlWrite s e r v) noResult :=
      completesOn_of_groups hi (ctlWrite_groups ..) (by rw [hx, if_pos (hallowed.mpr ha)])
    refine ⟨fun hn => ?_, fun ha hp => ?_, fun n hn => ⟨_, rfl, ?_⟩⟩
    · rw [Faults, hx, if_neg fun h => hn (hallowed.mp h), finish_trap]
    · have hctx := ctlWrite_ctx (s := s) (e := e) v ⟨_, hallowed.mpr ha⟩ hp
      have hdone' := hdone ha
      rw [hctx] at hdone'
      refine ⟨_, _, hdone', modCtx_only_ctxs .., fun k hk => ctx?_modCtx_ne _ _ hk, ?_, rfl⟩
      rw [ctx?_modCtx_self, hc]; rfl
    · subst hn
      exact hdone (.inl (.inr (.inr (.inr ⟨n, rfl⟩))))

end Sys2Proof.Machine
end

section
/-! PROOFS. TIDSET and TIDINV (R276, R278, R292). -/

namespace Sys2Proof.Machine

/-! ## Stores in common -/

/-- A store of plain lines lands at its address where nothing is non-negative (R132, R136, R250, R251). -/
theorem storeThrough_writable {b u : State} {e : Env} {va : DWord} {lf : Leaf} {data : List Byte} {tag : State → StoreTag} {seq : Bool}
    (hu : NoFloors u) (hw : Writable b lf data.length) :
    storeThrough b u e va lf data tag seq = .ok (putStore u e (tag u) lf.space lf.addr data seq, (lf.space, lf.addr)) := by
  rw [storeThrough, writeTarget_of_writable hw]
  show (match negWrite u e.die lf.space lf.addr data with | some x => bad .orneg x 0 | none => _) = _
  rw [negWrite_of_noFloors hu]; rfl

/-- What one lane's store of plain order leaves where no heap is laid over memory (R201). -/
theorem stored_storeThrough {b u t : State} {e : Env} {va : DWord} {lf : Leaf} {data : List Byte} {tag : State → StoreTag} {p : Nat × Nat} {n l : Nat}
    (hb : NoHeaps b) (hn : data.length = n) (h : storeThrough b u e va lf data tag false = .ok (t, p)) :
    Stored e u t [(l, (lf.space, lf.addr))] n fun _ => data := by
  obtain ⟨v, a, hx, rfl, -⟩ := storeThrough_ok h
  obtain ⟨rfl, rfl⟩ := writeTarget_of_noHeaps hb hx
  obtain ⟨ps, ls, hput, hls, hps⟩ := putStore_carries v e (tag v) lf.space lf.addr data
  rw [hput]
  rw [hn] at hps
  exact stored_of_carries hls hps

/-- Stores leave the group of their word where it was. -/
theorem TookLines.storeThrough {b u t : State} {e : Env} {va : DWord} {lf : Leaf} {data : List Byte} {tag : State → StoreTag} {p : Nat × Nat}
    (hu : TookLines e u) (h : storeThrough b u e va lf data tag false = .ok (t, p)) : TookLines e t := by
  obtain ⟨v, a, hx, rfl, -⟩ := storeThrough_ok h
  exact (hu.writeTarget hx).of_groups (putStore_groups ..)

theorem NoFloors.putStore {u : State} (hu : NoFloors u) (e : Env) (t : StoreTag) (sp a : Nat) (data : List Byte) :
    NoFloors (putStore u e t sp a data false) := by
  obtain ⟨ps, ls, hput, -⟩ := putStore_carries u e t sp a data
  rw [hput]; exact hu

@[simp] theorem length_readBytes (s : State) (d sp a n : Nat) (skip : List Ver) : (readBytes s d sp a n skip).length = n := by
  have hfold {α : Type} (f : List Byte → α → List Byte) (hf : ∀ v x, (f v x).length = v.length) (xs : List α) (v : List Byte) :
      (xs.foldl f v).length = v.length := by
    induction xs generalizing v with
    | nil => rfl
    | cons x xs ih => rw [List.foldl_cons, ih, hf]
  unfold readBytes
  split
  · simp [viewBytes]
  · simp only
    rw [hfold _ fun v p => by split <;> simp [overlay], hfold _ fun v x => by simp [overlay]]
    simp [homeBytes]

theorem length_readMem {s : State} {e : Env} {lf : Leaf} {n l : Nat} {home : Bool} {b : List Byte} (h : readMem s e lf n home l = .ok b) : b.length = n := by
  unfold readMem at h
  dsimp only at h
  split at h
  · cases h
  split at h
  · cases h; exact List.length_replicate
  · cases h; exact length_readBytes ..

theorem length_imageOf {s : State} {e : Env} {p : Place} {l : Nat} {img : List Byte} (h : imageOf s e p l = .ok img) : img.length = 64 := by
  cases p with
  | spm v =>
    simp only [imageOf] at h
    split at h
    · cases h
    split at h
    · cases h
    split at h
    · cases h
    · cases h; simp [spmBytes]
  | mem d =>
    simp only [imageOf, bind, Except.bind] at h
    split at h
    · cases h
    · exact length_readMem h

/-! ## The store of an entry -/

/-- The state in which the identifier's set has been counted and no core holds a copy of its entry (R278). -/
def entryCounted (t : State) (c tid : Nat) : State :=
  dropEntries (modCtx t c fun x => { x with tidCount := sput x.tidCount tid (setCount t c tid + 1) }) c tid

theorem entryCounted_groups (t : State) (c tid : Nat) : (entryCounted t c tid).groups = t.groups := by simp [entryCounted, dropEntries]

theorem entryCounted_regions (t : State) (c tid : Nat) : (entryCounted t c tid).regions = t.regions := by simp [entryCounted, dropEntries]

theorem entryCounted_eq (t : State) (c tid : Nat) : entryCounted t c tid = { t with ctxs := (entryCounted t c tid).ctxs, entries := (entryCounted t c tid).entries } := by
  unfold entryCounted dropEntries modCtx
  split <;> rfl

theorem keepsMemory_dropEntries (t : State) (c tid : Nat) : KeepsMemory t (dropEntries t c tid) :=
  ⟨rfl, rfl, rfl, rfl, rfl, fun _ => rfl, fun _ => rfl⟩

theorem keepsMemory_entryCounted (t : State) (c tid : Nat) : KeepsMemory t (entryCounted t c tid) :=
  (keepsMemory_modCtx (f := fun x => { x with tidCount := sput x.tidCount tid (setCount t c tid + 1) }) t c fun _ => rfl).trans (keepsMemory_dropEntries ..)

/-- The set is counted, in this entry alone (R278). -/
theorem setCount_entryCounted {t : State} {c : Nat} (hc : (ctx? t c).isSome = true) (tid k : Nat) :
    setCount (entryCounted t c tid) c k = setCount t c k + if k = tid then 1 else 0 := by
  obtain ⟨x, hx⟩ := Option.isSome_iff_exists.mp hc
  have hctx : ctx? (entryCounted t c tid) c = some { x with tidCount := sput x.tidCount tid (setCount t c tid + 1) } := by
    show ctx? (modCtx t c _) c = _
    rw [ctx?_modCtx_self, hx]; rfl
  by_cases hk : k = tid
  · subst hk
    simp [setCount, hctx, hx]
  · simp [setCount, hctx, hx, hk, sget?_sput_ne _ _ hk]

/-- No core holds a copy of the entry any more (R278, R292). -/
theorem entries_entryCounted (t : State) {c tid : Nat} (hc : c < 4096) (ht : tid < 256) (k : Nat) :
    sget? (entryCounted t c tid).entries (entryKey k c tid) = none := by
  have hkey : entryKey k c tid % 2 ^ 20 = 256 * c + tid := by unfold entryKey; omega
  show sget? (List.filter _ _) _ = none
  rw [sget?_filter_keys _ fun q => q % 2 ^ 20 != 256 * c + tid, if_neg (by rw [hkey]; simp)]

section
variable {b u t : State} {e : Env} {l tid off : Nat} {data : List Byte} {lf : Leaf}

theorem storeEntry_ok (h : storeEntry b u e l tid off data = .ok t) : ∃ lf v p, memLeaf b e (entryVa b e.gr.ctx tid) 64 1 2 = .ok lf ∧
    storeThrough b u e (entryVa b e.gr.ctx tid + BitVec.ofNat 64 off) { lf with addr := lf.addr + off } data (fun u1 => plainTag u1 e lf l) false = .ok (v, p) ∧
    t = entryCounted v e.gr.ctx tid := by
  unfold storeEntry at h
  cases hl : memLeaf b e (entryVa b e.gr.ctx tid) 64 1 2 with
  | error x => simp only [hl, bind, Except.bind] at h; cases h
  | ok lf =>
    simp only [hl, bind, Except.bind] at h
    split at h
    · cases h
    · next x hs => cases h; exact ⟨lf, x.1, x.2, rfl, hs, rfl⟩

theorem storeEntry_tookLines (hu : TookLines e u) (h : storeEntry b u e l tid off data = .ok t) : TookLines e t := by
  obtain ⟨lf, v, p, -, hs, rfl⟩ := storeEntry_ok h
  exact (hu.storeThrough hs).of_groups (entryCounted_groups ..)

theorem storeEntry_writable (hu : NoFloors u) (hl : memLeaf b e (entryVa b e.gr.ctx tid) 64 1 2 = .ok lf)
    (hw : Writable b { lf with addr := lf.addr + off } data.length) : ∃ t, storeEntry b u e l tid off data = .ok t ∧ NoFloors t := by
  refine ⟨entryCounted (putStore u e (plainTag u e lf l) lf.space (lf.addr + off) data false) e.gr.ctx tid, ?_, ?_⟩
  · unfold storeEntry
    simp only [hl, bind, Except.bind]
    rw [storeThrough_writable hu hw]; rfl
  · have hput := hu.putStore e (plainTag u e lf l) lf.space (lf.addr + off) data
    exact fun r hr => hput r (by rwa [entryCounted_regions] at hr)

/-- A thread's store to the table, as a store of its warp (R292). -/
theorem storeEntry_stored (hb : NoHeaps b) {n : Nat} (hn : data.length = n) (hl : memLeaf b e (entryVa b e.gr.ctx tid) 64 1 2 = .ok lf)
    (h : storeEntry b u e l tid off data = .ok t) :
    Stored e { u with ctxs := t.ctxs, entries := t.entries } t [(l, (lf.space, lf.addr + off))] n (fun _ => data) ∧
    ∃ v, t = entryCounted v e.gr.ctx tid ∧ v.ctxs = u.ctxs := by
  obtain ⟨lf', v, p, hl', hs, rfl⟩ := storeEntry_ok h
  obtain rfl := Except.ok.inj (hl'.symm.trans hl)
  have hst : Stored e u v [(l, (lf'.space, lf'.addr + off))] n fun _ => data := stored_storeThrough hb hn hs
  obtain ⟨hv, hlate, hhome, hother, hout, hin⟩ := hst
  have hvctx : v.ctxs = u.ctxs := by rw [hv]
  have hkeep := keepsMemory_entryCounted v e.gr.ctx tid
  have hbase : KeepsMemory u { u with ctxs := (entryCounted v e.gr.ctx tid).ctxs, entries := (entryCounted v e.gr.ctx tid).entries } :=
    ⟨rfl, rfl, rfl, rfl, rfl, fun q => (hkeep.roots q).trans (by rw [hvctx]), fun _ => rfl⟩
  obtain ⟨hkh, hkv⟩ := hkeep.sameMemory
  obtain ⟨hbh, hbv⟩ := hbase.sameMemory
  refine ⟨⟨?_, ?_, fun sp a => ?_, fun d hd sp a => ?_, fun sp a hn => ?_, fun l' place before after heq sp a hw hafter => ?_⟩, v, rfl, hvctx⟩
  · rw [entryCounted_eq v]; rw [hv]
  · rw [entryCounted_eq v]; exact hlate
  · rw [hkh, hbh, hhome]
  · rw [hkv, hbv, hother d hd]
  · rw [hkv, hbv, hout sp a hn]
  · rw [hkv, hin l' place before after heq sp a hw hafter]

end

/-! ## TIDSET -/

section
variable {s u : State} {e : Env} {h : Hdr} {p : Place} {r : Reg} {l : Nat} {img : List Byte} {lf : Leaf}

theorem exec_tidset (hi : Issues (.tidset h p r) s e) : exec (.tidset h p r) s =
    finish e (.tidset h p r) (lanesThen e s (tidsetLane e s p r) fun u _ => .done u) s := by
  rw [show exec (.tidset h p r) s = execTidset h p r s from rfl, execTidset, runWord_issues hi]

theorem tidsetLane_eq (hm : imageOf s e p l = .ok img) : tidsetLane e s p r u l =
    if Tensor.malformed (tensorOf img) then bad .tidbad (BitVec.ofNat 64 ((e.v s r l).toNat % 256)) 0
    else (storeEntry s u e l ((e.v s r l).toNat % 256) 0 img).map fun t => (t, ()) := by
  unfold tidsetLane
  simp only [hm, bind, Except.bind]
  split
  · rfl
  · cases storeEntry s u e l ((e.v s r l).toNat % 256) 0 img <;> rfl

theorem tidsetLane_ok {x : State × Unit} (hx : tidsetLane e s p r u l = .ok x) : ∃ img, imageOf s e p l = .ok img ∧
    storeEntry s u e l ((e.v s r l).toNat % 256) 0 img = .ok x.1 := by
  cases hm : imageOf s e p l with
  | error y => unfold tidsetLane at hx; simp only [hm, bind, Except.bind] at hx; cases hx
  | ok img =>
    rw [tidsetLane_eq hm] at hx
    split at hx
    · cases hx
    · cases hs : storeEntry s u e l ((e.v s r l).toNat % 256) 0 img with
      | error y => rw [hs] at hx; cases hx
      | ok t => rw [hs] at hx; cases hx; exact ⟨img, rfl, hs⟩

/-- The lanes store their images one after the other. -/
theorem tidset_lanes (hs : NoFloors s) {img : Nat → List Byte} {lf : Nat → Leaf} (hl : ∀ l, bit e.live l = true → imageOf s e p l = .ok (img l) ∧
      Tensor.malformed (tensorOf (img l)) = false ∧ memLeaf s e (entryVa s e.gr.ctx ((e.v s r l).toNat % 256)) 64 1 2 = .ok (lf l) ∧ Writable s (lf l) 64) :
    ∃ u as, LanesGive e (tidsetLane e s p r) s u as := by
  have hlane (l : Nat) (hmem : l ∈ lanesOf e.live) (u : State) (hu : NoFloors u) :
      ∃ v a, tidsetLane e s p r u l = .ok (v, a) ∧ NoFloors v ∧ True := by
    obtain ⟨himg, hgood, hleaf, hw⟩ := hl l ((mem_lanesOf ..).mp hmem)
    rw [← length_imageOf himg] at hw
    obtain ⟨t, ht, hfloors⟩ := storeEntry_writable (l := l) (off := 0) hu hleaf hw
    refine ⟨t, (), ?_, hfloors, trivial⟩
    rw [tidsetLane_eq himg, hgood, ht]; rfl
  obtain ⟨u, as, hgive, -⟩ := eachLane_ok (Q := fun _ _ => True) (lanesOf e.live) hlane hs
  exact ⟨u, as, hgive⟩

theorem tidset_completes (hi : Issues (.tidset h p r) s e) {as : List (Nat × Unit)} (hgive : LanesGive e (tidsetLane e s p r) s u as) :
    CompletesOn (.tidset h p r) s e u noResult := by
  have hlines : TookLines e u := eachLane_keeps (P := TookLines e) (fun v l v' a hv hx => by
    obtain ⟨img, -, ht⟩ := tidsetLane_ok hx
    exact storeEntry_tookLines hv ht) hgive (tookLines_of_here (issues_here hi))
  exact completesOn_kept hi (keepsPlace_of_tookLines (issues_here hi) hlines) (fun _ _ _ => rfl) (by rw [exec_tidset hi, lanesThen_ok hgive])

end

theorem lanesOf_single {l : Nat} (hl : l < 32) : lanesOf (1#32 <<< l) = [l] := by
  have h : ∀ l < 32, lanesOf (1#32 <<< l) = [l] := by decide
  exact h l hl

/-- A word of one lane takes that lane's step. -/
theorem lanesGive_single {α : Type} {e : Env} {f : State → Nat → Except LaneFault (State × α)} {s u : State} {as : List (Nat × α)} {l : Nat}
    (hl : l < 32) (hlive : e.live = 1#32 <<< l) (h : LanesGive e f s u as) : ∃ a, f s l = .ok (u, a) ∧ as = [(l, a)] := by
  rw [LanesGive, hlive, lanesOf_single hl, eachLane] at h
  cases hf : f s l with
  | error y => rw [hf] at h; cases h
  | ok x => rw [hf] at h; cases h; exact ⟨x.2, rfl, rfl⟩

/-! ## TIDINV -/

section
variable {s u v : State} {e : Env} {h : Hdr} {r : Option Reg} {l tid : Nat} {old : List Byte} {lf : Leaf}

theorem exec_tidinv (hi : Issues (.tidinv h r) s e) : exec (.tidinv h r) s =
    finish e (.tidinv h r) (lanesThen e s (tidinvLane e s r) fun u _ => .done u) s := by
  rw [show exec (.tidinv h r) s = execTidinv h r s from rfl, execTidinv, runWord_issues hi]

theorem clearEntry_eq (hl : memLeaf s e (entryVa s e.gr.ctx tid) 64 1 2 = .ok lf) (ho : readMem s e lf 64 false l = .ok old) :
    clearEntry s u e l tid = storeEntry s u e l tid 10 (leBytes 1 (field old 10 1 % 128)) := by
  simp only [clearEntry, hl, ho, bind, Except.bind]

theorem clearEntry_ok (hx : clearEntry s u e l tid = .ok v) : ∃ data, storeEntry s u e l tid 10 data = .ok v := by
  simp only [clearEntry, bind, Except.bind] at hx
  split at hx
  · cases hx
  split at hx
  · cases hx
  · exact ⟨_, hx⟩

theorem clearEntry_writable (hu : NoFloors u) (hl : memLeaf s e (entryVa s e.gr.ctx tid) 64 1 2 = .ok lf) (ho : readMem s e lf 64 false l = .ok old)
    (hw : Writable s { lf with addr := lf.addr + 10 } 1) : ∃ t, clearEntry s u e l tid = .ok t ∧ NoFloors t := by
  rw [clearEntry_eq hl ho]
  exact storeEntry_writable hu hl (by rwa [length_leBytes])

theorem clearEntries_tookLines : ∀ {ks : List Nat} {u v : State}, TookLines e u → ks.foldlM (fun x k => clearEntry s x e l k) u = .ok v → TookLines e v
  | [], u, v, hu, h => by cases h; exact hu
  | k :: ks, u, v, hu, h => by
    rw [List.foldlM_cons] at h
    cases hk : clearEntry s u e l k with
    | error x => rw [hk] at h; cases h
    | ok t =>
      rw [hk] at h
      obtain ⟨data, ht⟩ := clearEntry_ok hk
      exact clearEntries_tookLines (storeEntry_tookLines hu ht) h

theorem clearEntries_writable : ∀ {ks : List Nat} {u : State}, NoFloors u → (∀ k ∈ ks, ∀ x, NoFloors x → ∃ t, clearEntry s x e l k = .ok t ∧ NoFloors t) →
    ∃ v, ks.foldlM (fun x k => clearEntry s x e l k) u = .ok v ∧ NoFloors v
  | [], u, hu, _ => ⟨u, rfl, hu⟩
  | k :: ks, u, hu, h => by
    obtain ⟨t, ht, hfloors⟩ := h k (List.mem_cons_self ..) u hu
    obtain ⟨v, hv, hvf⟩ := clearEntries_writable hfloors fun j hj => h j (List.mem_cons_of_mem _ hj)
    exact ⟨v, by rw [List.foldlM_cons, ht]; exact hv, hvf⟩

theorem tidinvLane_some (x : Reg) (u : State) (l : Nat) :
    tidinvLane e s (some x) u l = (clearEntry s u e l ((e.v s x l).toNat % 256)).map fun t => (t, ()) := by
  show (clearEntry s u e l ((e.v s x l).toNat % 256) >>= fun t => pure (t, ())) = _
  cases clearEntry s u e l ((e.v s x l).toNat % 256) <;> rfl

theorem tidinvLane_none (u : State) (l : Nat) : tidinvLane e s none u l = if leader e.live = some l then
    ((List.range 256).foldlM (fun x k => clearEntry s x e l k) u).map fun t => (t, ()) else .ok (u, ()) := by
  unfold tidinvLane
  by_cases hl : leader e.live = some l
  · simp only [hl, beq_self_eq_true, if_true]
    cases (List.range 256).foldlM (fun x k => clearEntry s x e l k) u <;> rfl
  · simp only [beq_eq_false_iff_ne.mpr hl, if_neg hl, Bool.false_eq_true, if_false]

theorem map_unit_ok {x : Except LaneFault State} {y : State × Unit} (h : x.map (fun t => (t, ())) = .ok y) : x = .ok y.1 := by
  cases x with
  | error z => cases h
  | ok t => cases h; rfl

theorem tidinvLane_tookLines {y : State × Unit} (hu : TookLines e u) (hx : tidinvLane e s r u l = .ok y) : TookLines e y.1 := by
  cases r with
  | some x =>
    rw [tidinvLane_some] at hx
    obtain ⟨data, ht⟩ := clearEntry_ok (map_unit_ok hx)
    exact storeEntry_tookLines hu ht
  | none =>
    rw [tidinvLane_none] at hx
    split at hx
    · exact clearEntries_tookLines hu (map_unit_ok hx)
    · cases hx; exact hu

theorem tidinv_completes (hi : Issues (.tidinv h r) s e) {as : List (Nat × Unit)} (hgive : LanesGive e (tidinvLane e s r) s u as) :
    CompletesOn (.tidinv h r) s e u noResult := by
  have hlines : TookLines e u := eachLane_keeps (P := TookLines e) (fun v l v' a hv hx => tidinvLane_tookLines hv hx) hgive
    (tookLines_of_here (issues_here hi))
  exact completesOn_kept hi (keepsPlace_of_tookLines (issues_here hi) hlines) (fun _ _ _ => rfl) (by rw [exec_tidinv hi, lanesThen_ok hgive])

/-- Lanes each of which can clear clear one after the other. -/
theorem tidinv_lanes (hs : NoFloors s) (h : ∀ l, bit e.live l = true → ∀ u, NoFloors u → ∃ t, tidinvLane e s r u l = .ok (t, ()) ∧ NoFloors t) :
    ∃ u as, LanesGive e (tidinvLane e s r) s u as := by
  have hlane (l : Nat) (hmem : l ∈ lanesOf e.live) (u : State) (hu : NoFloors u) :
      ∃ v a, tidinvLane e s r u l = .ok (v, a) ∧ NoFloors v ∧ True := by
    obtain ⟨t, ht, hf⟩ := h l ((mem_lanesOf ..).mp hmem) u hu
    exact ⟨t, (), ht, hf, trivial⟩
  obtain ⟨u, as, hgive, -⟩ := eachLane_ok (Q := fun _ _ => True) (lanesOf e.live) hlane hs
  exact ⟨u, as, hgive⟩

end

/-- Settles O37: each lane's store of an entry by `storeEntry_writable` and `storeEntry_stored`, and what a set counts by
`setCount_entryCounted` and `entries_entryCounted`. -/
theorem tensorTableWordsComplete : Obligations.TensorTableWordsComplete := by
  unfold Obligations.TensorTableWordsComplete
  intro s e h p b entry id dev
  refine ⟨fun hi => ⟨fun img lf hs hl => ?_, fun u as hgive => ⟨tidset_completes hi hgive, fun l img lf hlive hl hh himg hctx hleaf _ => ?_⟩,
    fun l img hl himg hbad => ?_⟩, fun r hi => ⟨fun x lf old hr hs hl => ?_, fun lf old hr hs hl => ?_, fun u as hgive =>
      ⟨tidinv_completes hi hgive, fun x l lf old hr hlive hl hh hleaf _ hold => ?_⟩⟩⟩
  · obtain ⟨u, as, hgive⟩ := tidset_lanes hs hl
    exact ⟨u, as, hgive, tidset_completes hi hgive⟩
  · obtain ⟨a, hlane, -⟩ := lanesGive_single hl hlive hgive
    obtain ⟨img', himg', hst⟩ := tidsetLane_ok hlane
    obtain rfl := Except.ok.inj (himg'.symm.trans himg)
    obtain ⟨hstored, v, hv, hvctx⟩ := storeEntry_stored hh (length_imageOf himg) hleaf hst
    dsimp only at hv
    have hcount : setCount v e.gr.ctx = setCount s e.gr.ctx := by funext k; rw [setCount, setCount, ctx?, hvctx]; rfl
    have hctx' : (ctx? v e.gr.ctx).isSome = true := by rw [ctx?, hvctx]; exact hctx
    refine ⟨hstored, fun k => ?_, fun hc k => ?_⟩
    · rw [hv, setCount_entryCounted hctx', hcount]
    · rw [hv]; exact entries_entryCounted v hc (Nat.mod_lt _ (by decide)) k
  · refine faultsFirst_of_lane (exec_tidset hi) hl ?_
    rw [tidsetLane_eq himg, hbad]; rfl
  · subst hr
    obtain ⟨u, as, hgive⟩ := tidinv_lanes (r := some x) hs fun l hlive u hu => by
      obtain ⟨hleaf, hold, hw⟩ := hl l hlive
      obtain ⟨t, ht, hf⟩ := clearEntry_writable hu hleaf hold hw
      exact ⟨t, by rw [tidinvLane_some, ht]; rfl, hf⟩
    exact ⟨u, as, hgive, tidinv_completes hi hgive⟩
  · subst hr
    obtain ⟨u, as, hgive⟩ := tidinv_lanes (r := none) hs fun l hlive u hu => by
      rw [tidinvLane_none]
      split
      · next hlead =>
        obtain ⟨t, ht, hf⟩ := clearEntries_writable (s := s) (e := e) (l := l) (ks := List.range 256) hu fun k hk x hx => by
          obtain ⟨hleaf, hold, hw⟩ := hl l k hlead (List.mem_range.mp hk)
          exact clearEntry_writable hx hleaf hold hw
        exact ⟨t, by rw [ht]; rfl, hf⟩
      · exact ⟨u, rfl, hu⟩
    exact ⟨u, as, hgive, tidinv_completes hi hgive⟩
  · subst hr
    obtain ⟨a, hlane, -⟩ := lanesGive_single hl hlive hgive
    rw [tidinvLane_some] at hlane
    have hst := map_unit_ok hlane
    rw [clearEntry_eq hleaf hold] at hst
    exact (storeEntry_stored hh (length_leBytes ..) hleaf hst).1

end Sys2Proof.Machine
end

section
/-! PROOFS. Exact products, folds and aligned blocks (R279 to R282). -/

namespace Sys2Proof.Machine

/-! ## Folds -/

theorem fadd_lt (r : Rnd) (ftz : Bool) (a b : Nat) : fadd .f32 r ftz a b < 2 ^ 32 := (fadd_rule .f32 r ftz a b).lt

theorem ftwosum_fst (a b : Nat) : (ftwosum a b).1 = fadd .f32 .rn false a b := by
  unfold ftwosum
  dsimp only
  split <;> rfl

theorem toNat_foldPair (x : Word × Word) (p : Nat) : (foldPair x p).1.toNat = fadd .f32 .rn false x.1.toNat p := by
  rw [foldPair, ftwosum_fst, BitVec.toNat_ofNat, Nat.mod_eq_of_lt (fadd_lt ..)]

/-! ## Products of rows -/

/-- What a sum of dyadics comes to. -/
theorem foldl_dyAdd {α : Type} (g : α → Int × Int) (xs : List α) (acc : Int × Int) :
    (((xs.foldl (fun a x => dyAdd a.1 a.2 (g x).1 (g x).2) acc).1 : ℤ) : ℚ) * 2 ^ (xs.foldl (fun a x => dyAdd a.1 a.2 (g x).1 (g x).2) acc).2 =
      acc.1 * 2 ^ acc.2 + (xs.map fun x => ((g x).1 : ℚ) * 2 ^ (g x).2).sum := by
  induction xs generalizing acc with
  | nil => simp
  | cons x xs ih => rw [List.foldl_cons, ih, dyAdd_eq, List.map_cons, List.sum_cons, add_assoc]

theorem dotInts_map_some : ∀ xs ys : List Int, dotInts (xs.map some) (ys.map some) = (List.zipWith (fun x y => x * y) xs ys).sum
  | [], _ => by simp [dotInts]
  | _ :: _, [] => by simp [dotInts]
  | x :: xs, y :: ys => by
    rw [List.map_cons, List.map_cons, dotInts, dotInts_map_some xs ys, List.zipWith_cons_cons, List.sum_cons]

/-- The value of one block of a row's product, as a dyadic (R281). -/
def blockDy (q : (List Int × Int × Int) × List Int × Int × Int) : Int × Int :=
  ((List.zipWith (fun x y => x * y) q.1.1 q.2.1).sum * q.1.2.1 * q.2.2.1, q.1.2.2 + q.2.2.2)

theorem flush_off (f : Fmt) (x : Nat) : flush f false x = x := by simp [flush]

theorem rounded_dy_unflushed (x e : ℤ) : Rounded .f32 .rn false false ((x : ℚ) * 2 ^ e) (froundDy .f32 .rn x e false) := by
  have h := rounded_dy .f32 .rn false false x e
  rwa [flush_off] at h

/-- A product of valid blocks is the sum of their values, rounded once. -/
theorem rowProduct_valid (ps : List ((List Int × Int × Int) × List Int × Int × Int)) :
    rowProduct (ps.map fun q => (q.1.1.map some, some q.1.2)) (ps.map fun q => (q.2.1.map some, some q.2.2)) =
      froundDy .f32 .rn (ps.foldl (fun a q => dyAdd a.1 a.2 (blockDy q).1 (blockDy q).2) (0, 0)).1
        (ps.foldl (fun a q => dyAdd a.1 a.2 (blockDy q).1 (blockDy q).2) (0, 0)).2 false := by
  have hvalid : ((ps.map fun q => (q.1.1.map some, some q.1.2)).zip (ps.map fun q => (q.2.1.map some, some q.2.2))).any
      (fun p => p.1.2.isNone || p.2.2.isNone) = false := by
    rw [List.zip_map', List.any_map]
    exact List.any_eq_false.mpr fun q _ => by simp
  rw [rowProduct]
  simp only [hvalid, Bool.false_eq_true, if_false]
  simp only [List.zip_map', List.foldl_map, dotInts_map_some, blockDy]

/-- A product with an invalid block (R280, R281). -/
theorem rowProduct_invalid {ps : List ((List (Option Int) × Option (Int × Int)) × List (Option Int) × Option (Int × Int))}
    (h : ∃ q ∈ ps, q.1.2 = none ∨ q.2.2 = none) : rowProduct (ps.map (·.1)) (ps.map (·.2)) = Fmt.nan .f32 := by
  obtain ⟨q, hq, hn⟩ := h
  have hbad : ((ps.map (·.1)).zip (ps.map (·.2))).any (fun p => p.1.2.isNone || p.2.2.isNone) = true := by
    rw [List.zip_map', List.any_map]
    exact List.any_eq_true.mpr ⟨q, hq, by rcases hn with hn | hn <;> simp [hn]⟩
  rw [rowProduct]
  simp only [hbad, if_true]

/-! ## Aligned blocks -/

/-- The place of a value's leading bit. -/
def topBit (x : Int × Int) : Int := (Nat.log2 x.1.natAbs : Int) + x.2

/-- A value over the quantum, to the nearest integer (R279). -/
def alignedInt (q : Int) (x : Int × Int) : Int :=
  if x.1 < 0 then -(toIntegral .rn (decide (x.1 < 0)) x.1.natAbs (x.2 - q) : Int) else toIntegral .rn (decide (x.1 < 0)) x.1.natAbs (x.2 - q)

theorem foldl_max_topBit (xs : List (Int × Int)) (k : Int) :
    (xs.foldl (fun m x => max m (topBit x)) k = k ∨ ∃ x ∈ xs, xs.foldl (fun m x => max m (topBit x)) k = topBit x) ∧
    k ≤ xs.foldl (fun m x => max m (topBit x)) k ∧ ∀ x ∈ xs, topBit x ≤ xs.foldl (fun m x => max m (topBit x)) k := by
  induction xs generalizing k with
  | nil => exact ⟨.inl rfl, le_rfl, fun x hx => nomatch hx⟩
  | cons y ys ih =>
    obtain ⟨hmem, hge, hall⟩ := ih (max k (topBit y))
    rw [List.foldl_cons]
    refine ⟨?_, (le_max_left ..).trans hge, fun x hx => ?_⟩
    · rcases hmem with h | ⟨x, hx, h⟩
      · rcases max_choice k (topBit y) with hk | hk
        · exact .inl (h.trans hk)
        · exact .inr ⟨y, List.mem_cons_self .., h.trans hk⟩
      · exact .inr ⟨x, List.mem_cons_of_mem _ hx, h⟩
    · rcases List.mem_cons.mp hx with rfl | hx
      · exact (le_max_right ..).trans hge
      · exact hall x hx

/-- What an aligned block is: zeros, or every value over the quantum that its largest value sets (R279). -/
theorem alignBlock_some {xs : List (Int × Int)} {planes : Nat} {ms : List Int} {q : Int} (h : alignBlock (xs.map some) planes = some (ms, q)) :
    ((∀ x ∈ xs, x.1 = 0) ∧ ms = xs.map fun _ => 0) ∨
    ((∃ x ∈ xs, x.1 ≠ 0 ∧ q = topBit x + 2 - planes ∧ ∀ y ∈ xs, y.1 ≠ 0 → topBit y ≤ topBit x) ∧ ms = xs.map (alignedInt q)) := by
  have hsome : (xs.map some).any (·.isNone) = false := by simp
  have hid : (xs.map some).filterMap id = xs := by simp [List.filterMap_map]
  simp only [alignBlock, hsome, hid, Bool.false_eq_true, if_false] at h
  split at h
  · next hnz =>
    cases h
    exact .inl ⟨fun x hx => by simpa using List.filter_eq_nil_iff.mp hnz x hx, rfl⟩
  · next v r hnz =>
    have hmemb (y : Int × Int) : y ∈ v :: r ↔ y ∈ xs ∧ y.1 ≠ 0 := by rw [← hnz, List.mem_filter]; simp
    cases h
    refine .inr ⟨?_, rfl⟩
    obtain ⟨hmem, hge, hall⟩ := foldl_max_topBit r (topBit v)
    obtain ⟨x, hx, htop⟩ : ∃ x ∈ v :: r, r.foldl (fun m x => max m (topBit x)) (topBit v) = topBit x := by
      rcases hmem with h | ⟨x, hx, h⟩
      · exact ⟨v, List.mem_cons_self .., h⟩
      · exact ⟨x, List.mem_cons_of_mem _ hx, h⟩
    refine ⟨x, ((hmemb x).mp hx).1, ((hmemb x).mp hx).2, congrArg (· + 2 - (planes : Int)) htop, fun y hy hy0 => htop ▸ ?_⟩
    rcases List.mem_cons.mp ((hmemb y).mpr ⟨hy, hy0⟩) with rfl | h
    · exact hge
    · exact hall y h

theorem sgnInt_natAbs (x : Int) : sgnInt (decide (x < 0)) x.natAbs = x := by
  unfold sgnInt
  by_cases hx : x < 0
  · rw [if_pos (decide_eq_true hx)]; omega
  · rw [if_neg (by simpa using hx)]; omega

theorem natAbs_alignedInt (q : Int) (x : Int × Int) : (alignedInt q x).natAbs = toIntegral .rn (decide (x.1 < 0)) x.1.natAbs (x.2 - q) := by
  unfold alignedInt
  split <;> omega

/-- A value over the quantum is the nearest integer, of its sign (R279). -/
theorem alignedInt_near (q : Int) (x : Int × Int) : (x.1 ≤ 0 → alignedInt q x ≤ 0) ∧ (0 ≤ x.1 → 0 ≤ alignedInt q x) ∧
    IntNear .rn (decide (x.1 < 0)) |(x.1 : ℚ) * 2 ^ (x.2 - q)| (alignedInt q x).natAbs := by
  have hnear := toIntegral_near .rn (decide (x.1 < 0)) x.1.natAbs (x.2 - q)
  rw [sgnInt_natAbs, ← natAbs_alignedInt] at hnear
  refine ⟨fun h => ?_, fun h => ?_, hnear⟩
  · rcases h.lt_or_eq with h0 | h0
    · rw [alignedInt, if_pos h0]; omega
    · have hz : IntNear .rn (decide (x.1 < 0)) 0 (alignedInt q x).natAbs := by rwa [h0, Int.cast_zero, zero_mul, abs_zero] at hnear
      obtain ⟨hhalf, -⟩ := hz
      rw [sub_zero, Nat.abs_cast] at hhalf
      have : (alignedInt q x).natAbs = 0 := by
        by_contra hne
        have h1 : (1 : ℚ) ≤ (alignedInt q x).natAbs := by exact_mod_cast Nat.one_le_iff_ne_zero.mpr hne
        linarith
      omega
  · rw [alignedInt, if_neg (by omega)]; omega

/-- Settles O40: folds by `ftwosum_fst`, row products by `rowProduct_valid` and the value of a sum of dyadics, aligned blocks by
`alignBlock_some` and `alignedInt_near`. -/
theorem exactProducts : Obligations.ExactProducts := by
  unfold Obligations.ExactProducts
  refine ⟨fun x p _ => ⟨toNat_foldPair x p, rfl⟩, fun ps h => rowProduct_invalid h, fun ps _ => ?_, fun xs planes ms q h => ?_⟩
  · intro value
    have hvalue := foldl_dyAdd blockDy ps (0, 0)
    rw [Int.cast_zero, zero_mul, zero_add] at hvalue
    have hsum : value = (ps.map fun q => ((blockDy q).1 : ℚ) * 2 ^ (blockDy q).2).sum := by simp only [value, blockDy]
    rw [rowProduct_valid, hsum, ← hvalue]
    exact rounded_dy_unflushed ..
  · rcases alignBlock_some h with ⟨hzero, rfl⟩ | ⟨hq, rfl⟩
    · refine ⟨by simp, fun ⟨x, hx, hne⟩ => absurd (hzero x hx) hne, fun i x m hx hm => ?_⟩
      rw [List.getElem?_map, hx] at hm
      obtain rfl := Option.some.inj hm
      rw [hzero x (List.mem_of_getElem? hx)]
      simp [IntNear]
    · refine ⟨by simp, fun _ => hq, fun i x m hx hm => ?_⟩
      rw [List.getElem?_map, hx] at hm
      obtain rfl := Option.some.inj hm
      exact alignedInt_near q x

end Sys2Proof.Machine
end

section
/-! PROOFS. VPUB, VPIN and VRET (R334, R336 to R339). -/

namespace Sys2Proof.Machine

/-! ## Bound ranges -/

theorem boundRange_iff (s : State) (c n : Nat) :
    (∃ r, boundRange s c n = some r) ↔ (∃ x, ctx? s c = some x ∧ ∃ y ∈ x.maps, y.1 = n) ∧ (range? s n).isSome = true := by
  unfold boundRange
  cases hc : ctx? s c with
  | none => exact ⟨fun ⟨_, h⟩ => (nomatch h), fun ⟨⟨_, h, _⟩, _⟩ => (nomatch h)⟩
  | some x =>
    simp only [Option.map_some, Option.getD_some]
    split
    · next hm =>
      obtain ⟨y, hy, he⟩ := List.any_eq_true.mp hm
      exact ⟨fun ⟨r, hr⟩ => ⟨⟨x, rfl, y, hy, by simpa using he⟩, Option.isSome_iff_exists.mpr ⟨r, hr⟩⟩, fun h => Option.isSome_iff_exists.mp h.2⟩
    · next hm =>
      refine ⟨fun ⟨_, h⟩ => (nomatch h), fun ⟨⟨x', hx', y, hy, he⟩, _⟩ => absurd (List.any_eq_true.mpr ⟨y, ?_, by simpa using he⟩) hm⟩
      rwa [Option.some.inj hx']

theorem boundRange_some {s : State} {c n : Nat} {r : VRange} (h : boundRange s c n = some r) : range? s n = some r := by
  unfold boundRange at h
  split at h
  · exact h
  · cases h

theorem publish_eq (x : VRange) (gen : Nat) : publish x gen = { x with
    last := some gen, slots := x.slots.map fun y => if y.1 = .newest then (.live, y.2) else if y.1 = .staging then (.newest, gen) else y } := by
  simp only [publish, beq_iff_eq]

section
variable {h : Hdr} {d a b : Reg} {s : State} {e : Env}

/-! ## VPUB -/

/-- What VPUB does once its fence has drained. -/
def vpubThen (e : Env) (d : Reg) (n : Nat) (u : State) : WordRes :=
  match range? u n with
  | none => versionTrap e u n 0xFFFF
  | some r => if !(r.slots.any fun x => x.1 == .staging) || genTaken u r (nextGen r.last) then versionTrap e u n (nextGen r.last)
    else .done (writeLanes e (settleRanges (modRange u n fun x => publish x (nextGen r.last))) d.toNat 1 fun _ => nextGen r.last)

theorem exec_vpub (hi : Issues (.vpub h d a) s e) : exec (.vpub h d a) s = finish e (.vpub h d a) (if e.live = 0 then .done s else
    match boundRange s e.gr.ctx (leaderRange e s a) with
    | none => versionTrap e s (leaderRange e s a) 0xFFFF
    | some _ => fenceThen e s .rel .dev (vpubThen e d (leaderRange e s a))) s := by
  rw [show exec (.vpub h d a) s = execVpub h d a s from rfl, execVpub, runWord_issues hi] <;> rfl

theorem exec_vpub_bound (hi : Issues (.vpub h d a) s e) (hl : e.live ≠ 0) {r : VRange} (hr : boundRange s e.gr.ctx (leaderRange e s a) = some r) :
    exec (.vpub h d a) s = finish e (.vpub h d a) (fenceThen e s .rel .dev (vpubThen e d (leaderRange e s a))) s := by
  rw [exec_vpub hi, if_neg hl, hr]

section
variable {u : State} {n : Nat} {r : VRange} (hr : range? u n = some r)
include hr

theorem vpubThen_refuses (hn : ¬ ((∃ x ∈ r.slots, x.1 = .staging) ∧ genTaken u r (nextGen r.last) = false)) :
    vpubThen e d n u = versionTrap e u n (nextGen r.last) := by
  have hc : (!(r.slots.any fun x => x.1 == .staging) || genTaken u r (nextGen r.last)) = true := by
    by_cases hst : ∃ x ∈ r.slots, x.1 = .staging
    · have htaken : genTaken u r (nextGen r.last) = true := by
        by_contra hne
        exact hn ⟨hst, Bool.eq_false_iff.mpr hne⟩
      rw [htaken, Bool.or_true]
    · have hnone : (r.slots.any fun x => x.1 == .staging) = false := List.any_eq_false.mpr fun x hx => by
        simpa using fun he => hst ⟨x, hx, he⟩
      rw [hnone]; rfl
  rw [vpubThen, hr]
  simp only [hc, if_true]

theorem vpubThen_publishes (hst : ∃ x ∈ r.slots, x.1 = .staging) (ht : genTaken u r (nextGen r.last) = false) : vpubThen e d n u =
    .done (writeLanes e (settleRanges (modRange u n fun x => publish x (nextGen r.last))) d.toNat 1 fun _ => nextGen r.last) := by
  have hany : (r.slots.any fun x => x.1 == .staging) = true := by
    obtain ⟨x, hx, he⟩ := hst
    exact List.any_eq_true.mpr ⟨x, hx, by simpa using he⟩
  rw [vpubThen, hr]
  simp only [hany, ht, Bool.not_true, Bool.or_self, Bool.false_eq_true, if_false]

end

/-! ## VPIN and VRET -/

theorem exec_vpin (hi : Issues (.vpin h a b) s e) {l : Nat} (hl : leader e.live = some l) : exec (.vpin h a b) s = finish e (.vpin h a b)
    (match boundRange s e.gr.ctx (leaderRange e s a) with
    | none => versionTrap e s (leaderRange e s a) ((e.v s b l).toNat % 65536)
    | some r => if (slotOf r ((e.v s b l).toNat % 65536)).isNone then versionTrap e s (leaderRange e s a) ((e.v s b l).toNat % 65536)
      else .done (settleRanges (modCtx s e.gr.ctx fun c => { c with pins := sput c.pins (leaderRange e s a) ((e.v s b l).toNat % 65536) }))) s := by
  rw [show exec (.vpin h a b) s = execVpin h a b s from rfl, execVpin, runWord_issues hi]
  simp only [hl] <;> rfl

theorem exec_vret (hi : Issues (.vret h a) s e) : exec (.vret h a) s = finish e (.vret h a) (if e.live = 0 then .done s else
    match boundRange s e.gr.ctx (leaderRange e s a) with
    | none => versionTrap e s (leaderRange e s a) 0xFFFF
    | some _ => .done (settleRanges (modCtx s e.gr.ctx fun c => { c with pins := sdel c.pins (leaderRange e s a) }))) s := by
  rw [show exec (.vret h a) s = execVret h a s from rfl, execVret, runWord_issues hi] <;> rfl

end

/-- Settles O43: each word by whether its range is bound (`boundRange_iff`), VPUB by what it finds once its release is done
(`vpubThen_refuses`, `vpubThen_publishes`). -/
theorem versionWordsComplete : Obligations.VersionWordsComplete := by
  unfold Obligations.VersionWordsComplete
  intro s e h d a b n boundTo drained u next version off
  have hbound : (∃ r, boundRange s e.gr.ctx n = some r) ↔ boundTo := boundRange_iff ..
  have hfree (h : ¬ boundTo) : boundRange s e.gr.ctx n = none := Option.eq_none_iff_forall_not_mem.mpr fun r hr => h (hbound.mp ⟨r, hr⟩)
  have hn : leaderRange e s a = n := rfl
  refine ⟨⟨fun hi => ⟨fun hl => ?_, fun hl hb => ?_⟩, fun hi => ⟨fun hl => ?_, fun hl hb => ?_⟩, fun l hlead hi => ⟨fun hl => ?_, fun hl hb => ?_⟩⟩,
    fun hi hl hb => ?_, fun l r hlead hb hr hi => ⟨fun hs => ?_, fun hs => ?_⟩, fun hi hl hb => ?_⟩
  · rw [Completes, exec_vpub hi, if_pos hl]
    exact finish_done_completes hi
  · show exec _ s = _
    rw [exec_vpub hi, if_neg hl, hn, hfree hb]; rfl
  · rw [Completes, exec_vret hi, if_pos hl]
    exact finish_done_completes hi
  · show exec _ s = _
    rw [exec_vret hi, if_neg hl, hn, hfree hb]; rfl
  · rw [leader_eq_none hl] at hlead; cases hlead
  · show exec _ s = _
    rw [exec_vpin hi hlead, hn, hfree hb]; rfl
  · obtain ⟨r0, hr0⟩ := hbound.mpr hb
    have hx := exec_vpub_bound hi hl hr0
    refine ⟨fenceWord_waits hi hx (fun _ _ _ => rfl) hl, fun r hready hr => ?_⟩
    have hgo := fenceWord_goes_on hx hl hready
    refine ⟨fun hok => ?_, fun ⟨hst, ht⟩ => ?_⟩
    · exact hgo.trans (congrArg (finish e _ · s) (vpubThen_refuses hr hok))
    · have hk : KeepsPlace e (settleRanges (modRange u n fun x => publish x (nextGen r.last))) := (keepsPlace_fenced hi .rel .dev).of_groups rfl
      have hdone := completesOn_kept_writes hi hk (fun _ _ _ => rfl) d 1 _ (hgo.trans (congrArg (finish e _ · s) (vpubThen_publishes hr hst ht)))
      simp only [publish_eq] at hdone
      exact hdone
  · obtain ⟨r', hr'⟩ := hbound.mpr hb
    obtain rfl := Option.some.inj ((boundRange_some hr').symm.trans hr)
    show exec _ s = _
    rw [exec_vpin hi hlead, hn, hr']
    simp only [hs, Option.isNone_none, if_true]; rfl
  · obtain ⟨r', hr'⟩ := hbound.mpr hb
    obtain rfl := Option.some.inj ((boundRange_some hr').symm.trans hr)
    have hs' : ¬ (slotOf r' ((e.v s b l).toNat % 65536)).isNone = true := by
      rw [Option.isNone_iff_eq_none]
      exact Option.isSome_iff_ne_none.mp hs
    refine completesOn_of_groups hi ?_ ?_
    · exact modCtx_groups ..
    · rw [exec_vpin hi hlead, hn, hr']
      simp only [if_neg hs']
  · obtain ⟨r, hr⟩ := hbound.mpr hb
    refine completesOn_of_groups hi ?_ ?_
    · exact modCtx_groups ..
    · rw [exec_vret hi, if_neg hl, hn, hr]

end Sys2Proof.Machine
end

section
/-! PROOFS. States in which a walk of the page tables, and so every access of the device, finds the same (R184, R187, R431). -/

namespace Sys2Proof.Machine

/-- A die's walks find the same in both states: page tables as the homes hold them and as the die sees them, contexts, ranges, and
the state of the host link. -/
structure SameWalks (d : Nat) (s t : State) : Prop where
  home : ∀ sp a, homeByte t sp a = homeByte s sp a
  view : ∀ sp a, viewByte t d sp a = viewByte s d sp a
  ctxs : t.ctxs = s.ctxs
  ranges : t.ranges = s.ranges
  mgmt : t.mgmt = s.mgmt
  tick : t.tick = s.tick

theorem SameWalks.refl (d : Nat) (s : State) : SameWalks d s s := ⟨fun _ _ => rfl, fun _ _ => rfl, rfl, rfl, rfl, rfl⟩

theorem SameWalks.trans {d : Nat} {s t u : State} (h : SameWalks d s t) (k : SameWalks d t u) : SameWalks d s u :=
  ⟨fun sp a => (k.home sp a).trans (h.home sp a), fun sp a => (k.view sp a).trans (h.view sp a), k.ctxs.trans h.ctxs, k.ranges.trans h.ranges,
    k.mgmt.trans h.mgmt, k.tick.trans h.tick⟩

/-- Memory as it was, with the same contexts, ranges and link. -/
theorem SameMemory.sameWalks {s t : State} (h : SameMemory s t) (hc : t.ctxs = s.ctxs) (hr : t.ranges = s.ranges) (hm : t.mgmt = s.mgmt)
    (ht : t.tick = s.tick) (d : Nat) : SameWalks d s t := ⟨h.1, h.2 d, hc, hr, hm, ht⟩

section
variable {d : Nat} {s t : State} (h : SameWalks d s t)
include h

theorem SameWalks.ctx? (c : Nat) : ctx? t c = ctx? s c := by rw [Machine.ctx?, Machine.ctx?, h.ctxs]

theorem SameWalks.range? (n : Nat) : range? t n = range? s n := by rw [Machine.range?, Machine.range?, h.ranges]

theorem SameWalks.cxl : cxl t = cxl s := by rw [Machine.cxl, Machine.cxl, h.mgmt]

theorem SameWalks.pte (va a : Nat) : pte t d va a = pte s d va a := by simp only [Machine.pte, walkByte, h.home, h.view, h.tick]

theorem SameWalks.pteMalformed (e level : Nat) : pteMalformed t e level = pteMalformed s e level := by simp only [Machine.pteMalformed, h.range?]

theorem SameWalks.walk (va : Nat) (ls : List (Nat × Nat × Nat)) (table : Nat) (lines : List Nat) :
    walk t d va ls table lines = walk s d va ls table lines := by
  induction ls generalizing table lines with
  | nil => rfl
  | cons l ls ih =>
    obtain ⟨level, hi, lo⟩ := l
    simp only [Machine.walk, h.pte, h.pteMalformed, ih]

theorem SameWalks.vsSlot (c : Nat) (gen : Nat → Option Nat) (rng va : Nat) (write : Bool) : vsSlot t c gen rng va write = vsSlot s c gen rng va write := by
  simp only [Machine.vsSlot, h.range?, h.ctx?]

/-- A translation finds the same (R184). -/
theorem SameWalks.translate (c : Nat) (gen : Nat → Option Nat) (va : DWord) (acc : Access) : translate t d c gen va acc = translate s d c gen va acc := by
  simp only [Machine.translate, h.walk, h.vsSlot, h.range?, h.ctx?, h.cxl]

end

section
variable {s t : State} (h : SameWalks 4 s t)
include h

theorem SameWalks.devXlat (c : Nat) (gen : Nat → Option Nat) (va : DWord) (align need : Nat) : devXlat t c gen va align need = devXlat s c gen va align need := by
  simp only [Machine.devXlat, h.translate]

/-- A device read finds the same bytes (R431). -/
theorem SameWalks.devRead (c : Nat) (gen : Nat → Option Nat) (va : DWord) (align n : Nat) : devRead t c gen va align n = devRead s c gen va align n := by
  have hgo (fuel : Nat) : ∀ va align n, devReadGo t c gen fuel va align n = devReadGo s c gen fuel va align n := by
    induction fuel with
    | zero => exact fun _ _ _ => rfl
    | succ fuel ih => intro va align n; simp only [devReadGo, h.devXlat, ih, homeBytes, h.home]
  exact hgo ..

/-- A device write has the same pieces (R431). -/
theorem SameWalks.devPieces (c : Nat) (gen : Nat → Option Nat) (need fuel : Nat) (va : DWord) (align n : Nat) :
    devPieces t c gen need fuel va align n = devPieces s c gen need fuel va align n := by
  induction fuel generalizing va align n with
  | zero => rfl
  | succ fuel ih => simp only [Machine.devPieces, h.devXlat, ih]

theorem SameWalks.genOfCtx (c : Nat) : genOfCtx t c = genOfCtx s c := by
  funext n; rw [Machine.genOfCtx, Machine.genOfCtx, h.ctx?, h.range?]

theorem SameWalks.rangeSegs (c base size : Nat) : rangeSegs t c base size = rangeSegs s c base size := by
  simp only [Machine.rangeSegs, h.translate, h.genOfCtx]

/-- The templates lie where they lay (R130, R136). -/
theorem SameWalks.piecesHit (hm : t.tmpls = s.tmpls) (ps : List (Nat × Nat × Nat)) : piecesHit t ps = piecesHit s ps := by
  have harea (a n : Nat) : areaHit t a n = areaHit s a n := by simp only [areaHit, areaSegs, hm, h.rangeSegs]
  have hheap (a n : Nat) : heapHit t a n = heapHit s a n := by simp only [heapHit, heapSegs, hm, h.rangeSegs]
  simp only [Machine.piecesHit, harea, hheap]

end

/-- A write whose pieces are all good is performed there (R136, R431). -/
theorem devWrite_of_pieces {s : State} {c : Nat} {gen : Nat → Option Nat} {va : DWord} {align : Nat} {data : List Byte} {ps : List (Nat × Nat × Nat)}
    (h : devPieces s c gen 2 (data.length / 65536 + 2) va align data.length = .ok ps) (hp : piecesHit s ps = false) :
    devWrite s c gen va align data = .ok (putPieces s ps data) := by
  rw [devWrite, h]
  simp only [hp, Bool.false_eq_true, if_false]

/-- The generations in effect for a group depend on its grid and graph alone (R333). -/
theorem gens_congr {s t : State} (hg : t.grids = s.grids) (hx : t.graphs = s.graphs) (gr : Group) : gens t gr = gens s gr := by
  funext n
  simp only [gens, genFor, nodeGen, grid?, graph?, node?, hg, hx]

/-- What a walk finds does not depend on the writes of another die. -/
theorem sameWalks_of_pend {s : State} {d : Nat} {ps : List PendWrite} (h : ∀ p ∈ ps, p.die ≠ d) (ls : List Late) :
    SameWalks d s { s with pend := s.pend ++ ps, late := ls } := by
  refine ⟨fun _ _ => rfl, fun sp a => ?_, rfl, rfl, rfl, rfl⟩
  rw [viewByte_eq, viewByte_eq]
  show ((s.pend ++ ps).foldl _ none).getD _ = _
  rw [List.foldl_append, foldl_newer_other h]
  rfl

end Sys2Proof.Machine
end

section
/-! PROOFS. TOKREC, SMASK, SLOTRD, SLOTSET (R329, R337, R340, R341, R343). -/

namespace Sys2Proof.Machine

/-! ## Steps of a lane in common -/

theorem laneBind_ok {α β : Type} {x : Except LaneFault α} {f : α → Except LaneFault β} {r : β} (h : x >>= f = .ok r) : ∃ a, x = .ok a ∧ f a = .ok r := by
  cases x with
  | error y => cases h
  | ok a => exact ⟨a, rfl, h⟩

theorem exists_leader {m : Mask} (h : m ≠ 0) : ∃ l, leader m = some l := by
  by_contra hn
  refine h (BitVec.eq_of_getLsbD_eq fun l hl => ?_)
  have hnone : leader m = none := Option.eq_none_iff_forall_not_mem.mpr fun l hl => hn ⟨l, hl⟩
  have hmem : l ∉ lanesOf m := by
    intro hl
    rw [leader] at hnone
    rw [List.head?_eq_none_iff.mp hnone] at hl
    cases hl
  rw [mem_lanesOf] at hmem
  simpa [bit] using hmem

section
variable {s t : State} {e : Env} {va : DWord} {n : Nat} {ps : List (Nat × Nat × Nat)} {data : List Byte}

/-- A write of the table that finds its pages right is performed (R326). -/
theorem tabWrite_of_devWritable (h : DevWritable s e va data.length ps) (kind : DWord) : tabWrite s e va kind data = .ok (putPieces s ps data) := by
  rw [tabWrite, devWrite_of_pieces h.1 h.2]

theorem tabWrite_groups {kind : DWord} (h : tabWrite s e va kind data = .ok t) : t.groups = s.groups := by
  unfold tabWrite at h
  split at h
  · cases h; exact devWrite_groups ‹_›
  · cases h
  · cases h
  · cases h

theorem putRequest_of_devWritable {table : DWord} {st reason : Nat} {old : List Byte} (ho : tabRead s e (recordVa table n + 2) 2 = .ok old)
    (h : DevWritable s e (recordVa table n + 2) 2 ps) :
    putRequest s e table n st reason = .ok (putPieces s ps (leBytes 2 (requestWord (leNat old) st reason))) := by
  unfold putRequest
  simp only [ho, bind, Except.bind]
  exact tabWrite_of_devWritable (by rwa [length_leBytes]) 2

theorem putRequest_groups {table : DWord} {st reason : Nat} (h : putRequest s e table n st reason = .ok t) : t.groups = s.groups := by
  obtain ⟨old, -, hw⟩ := laneBind_ok h
  exact tabWrite_groups hw

theorem tableFor_some {x : Nat × Nat × Node} (h : tableLoop s e.gr = some x) : tableFor s e = .ok x := by rw [tableFor, h]

theorem tableFor_none (h : tableLoop s e.gr = none) : tableFor s e = bad .prot 0 0 := by rw [tableFor, h]

theorem slotFor_below {table : DWord} {v : Word} {hd : List Byte} (hh : tabRead s e table 2 = .ok hd) (hlt : v.toNat % 8192 < leNat hd) :
    slotFor s e table v = .ok (v.toNat % 8192) := by
  simp only [slotFor, hh, bind, Except.bind]
  rw [if_neg (Nat.not_le.mpr hlt)]
  rfl

/-- The order of requests (R329). -/
theorem requestWord_eq (old st reason : Nat) (h2 : 2 ≤ st) (h4 : st ≤ 4) :
    requestWord old st reason = if old / 128 % 2 = 1 ∧ ((old % 8 = 4 ∧ st ≠ 4) ∨ (old % 8 = 3 ∧ st = 2)) then old else 128 + st + 256 * reason := by
  have hrank : requestRank st < requestRank (old % 8) ↔ (old % 8 = 4 ∧ st ≠ 4) ∨ (old % 8 = 3 ∧ st = 2) := by
    simp only [requestRank]
    split_ifs <;> omega
  simp only [requestWord, hrank]

end

/-! ## TOKREC -/

section
variable {h : Hdr} {a b c : Reg} {s : State} {e : Env} {l g i : Nat} {n : Node} {hd : List Byte}

theorem exec_tokrec (hi : Issues (.tokrec h a b c) s e) : exec (.tokrec h a b c) s = finish e (.tokrec h a b c)
    (lanesThen e s (fun u l => pureLane u (tokCheck e a u l)) fun u _ => lanesThen e u (tokAct e a b c) fun x _ => .done x) s := by
  rw [show exec (.tokrec h a b c) s = execTokrec h a b c s from rfl, execTokrec, runWord_issues hi]

theorem tokCheck_ok {st : List Byte} (ht : tableLoop s e.gr = some (g, i, n)) (hh : tabRead s e n.k56 2 = .ok hd)
    (hlt : (e.v s a l).toNat % 8192 < leNat hd) (hst : tabRead s e (recordVa n.k56 ((e.v s a l).toNat % 8192)) 1 = .ok st)
    (h12 : leNat st = 1 ∨ leNat st = 2) (hone : lanesOf e.live = [l])
    (hrec : ∀ x, graph? s g = some x → (i, (e.v s a l).toNat % 8192) ∉ x.recorded) : tokCheck e a s l = .ok ((e.v s a l).toNat % 8192) := by
  have hheld : (((graph? s g).map fun x => x.recorded.contains (i, (e.v s a l).toNat % 8192)).getD false) = false := by
    cases hg : graph? s g with
    | none => rfl
    | some x => simpa using hrec x hg
  have hstate : ((leNat st != 1 && leNat st != 2)) = false := by rcases h12 with h | h <;> simp [h]
  simp only [tokCheck, tableFor_some ht, slotFor_below hh hlt, hst, hone, hheld, hstate, bind, Except.bind]
  simp
  rfl

/-- A lane with no token asks for a pause (R340). -/
theorem tokAct_empty (ht : tableLoop s e.gr = some (g, i, n)) (hb : e.v s b l = 0xFFFFFFFF) {u : State}
    (hp : putRequest s e n.k56 ((e.v s a l).toNat % 8192) 3 reasonEmpty = .ok u) : tokAct e a b c s l = .ok (u, ()) := by
  have htok : (e.v s b l).toNat = 0xFFFFFFFF := by rw [hb]; rfl
  simp only [tokAct, tableFor_some ht, htok, if_true, hp, bind, Except.bind]
  rfl

/-- The record that a lane appends to the buffer of slot record r (R340). -/
def laneRecord (e : Env) (b c : Reg) (s : State) (l : Nat) (r : List Byte) : List Byte :=
  tokenRecord (e.v s b l).toNat (SysVal.eval .version e s l % 65536)
    ((if (e.v s b l).toNat == field r 44 4 then 1 else 0) + (if field r 60 4 = 0 then 2 else 0) + (if field r 60 4 + 1 == field r 56 2 then 4 else 0))
    (e.v s c l).toNat (SysVal.eval .iter e s l)

theorem length_laneRecord (s : State) (r : List Byte) : (laneRecord e b c s l r).length = 16 := by simp [laneRecord, tokenRecord]

/-- The state in which a lane's token record is on its way. -/
def recordStored (e : Env) (b c : Reg) (s : State) (l : Nat) (r : List Byte) (lf : Leaf) : State :=
  putStore s e (plainTag s e lf l) lf.space lf.addr (laneRecord e b c s l r) false

/-- The device's pages are as they were after a store of a die (R431). -/
theorem devWritable_recordStored {r : List Byte} {lf : Leaf} {va : DWord} {k : Nat} {ps : List (Nat × Nat × Nat)} (hd : e.die < 4)
    (h : DevWritable s e va k ps) : DevWritable (recordStored e b c s l r lf) e va k ps := by
  obtain ⟨qs, ls, hq, -, hdie, -⟩ := putStore_carries s e (plainTag s e lf l) lf.space lf.addr (laneRecord e b c s l r)
  have hw : SameWalks 4 s { s with pend := s.pend ++ qs, late := ls } := sameWalks_of_pend (fun p hp => by rw [hdie p hp]; omega) ls
  rw [recordStored, hq]
  obtain ⟨hpieces, hhit⟩ := h
  refine ⟨?_, ?_⟩
  · rw [hw.devPieces, gens_congr rfl rfl]; exact hpieces
  · rw [hw.piecesHit rfl]; exact hhit

/-- A lane with a token that neither ends nor fills its buffer appends its record and counts it (R340). -/
theorem tokAct_appends {r : List Byte} {lf : Leaf} {ps : List (Nat × Nat × Nat)} (ht : tableLoop s e.gr = some (g, i, n)) (hb : e.v s b l ≠ 0xFFFFFFFF)
    (hr : tabRead s e (recordVa n.k56 ((e.v s a l).toNat % 8192)) 64 = .ok r) (heos : (e.v s b l).toNat ≠ field r 44 4)
    (hfull : field r 60 4 + 1 ≠ field r 56 2) (hlf : memLeaf s e (BitVec.ofNat 64 (field r 48 8 + 16 * field r 60 4)) 16 1 2 = .ok lf)
    (hw : Writable s lf 16) (hs : NoFloors s) (hd : e.die < 4) (hp : DevWritable s e (recordVa n.k56 ((e.v s a l).toNat % 8192) + 60) 4 ps) :
    ∃ u, tokAct e a b c s l = .ok (u, ()) := by
  have htok : (e.v s b l).toNat ≠ 0xFFFFFFFF := fun hc => hb (BitVec.eq_of_toNat_eq hc)
  have hwrite := tabWrite_of_devWritable (data := leBytes 4 (field r 60 4 + 1))
    (by rw [length_leBytes]; exact devWritable_recordStored (b := b) (c := c) (l := l) (r := r) (lf := lf) hd hp) 1
  have hstore : storeThrough s s e (BitVec.ofNat 64 (field r 48 8 + 16 * field r 60 4)) lf (laneRecord e b c s l r) (fun u1 => plainTag u1 e lf l) false =
      .ok (recordStored e b c s l r lf, (lf.space, lf.addr)) := storeThrough_writable hs (by rwa [length_laneRecord])
  refine ⟨modGraph (putPieces (recordStored e b c s l r lf) ps (leBytes 4 (field r 60 4 + 1))) g
      fun x => { x with recorded := (i, (e.v s a l).toNat % 8192) :: x.recorded }, ?_⟩
  simp only [tokAct, tableFor_some ht, if_neg htok, hr, hlf, bind, Except.bind]
  rw [laneRecord] at hstore
  rw [hstore]
  simp only [hwrite, beq_eq_false_iff_ne.mpr heos, beq_eq_false_iff_ne.mpr hfull, Bool.false_eq_true, if_false]
  rfl

theorem tokAct_tookLines {u : State} {x : State × Unit} (hu : TookLines e u) (hx : tokAct e a b c u l = .ok x) : TookLines e x.1 := by
  obtain ⟨⟨g, i, n⟩, -, hx⟩ := laneBind_ok hx
  simp only at hx
  split at hx
  · obtain ⟨v, hv, hx⟩ := laneBind_ok hx
    cases hx
    exact hu.of_groups (putRequest_groups hv)
  · obtain ⟨r, -, hx⟩ := laneBind_ok hx
    obtain ⟨lf, -, hx⟩ := laneBind_ok hx
    obtain ⟨⟨u2, p⟩, hst, hx⟩ := laneBind_ok hx
    obtain ⟨u3, hw, hx⟩ := laneBind_ok hx
    have hu3 : TookLines e u3 := (hu.storeThrough hst).of_groups (tabWrite_groups hw)
    have hu4 (f : Graph → Graph) : TookLines e (modGraph u3 g f) := hu3.of_groups rfl
    split at hx
    · obtain ⟨v, hv, hx⟩ := laneBind_ok hx
      cases hx
      exact (hu4 _).of_groups (putRequest_groups hv)
    split at hx
    · obtain ⟨v, hv, hx⟩ := laneBind_ok hx
      cases hx
      exact (hu4 _).of_groups (putRequest_groups hv)
    · cases hx
      exact hu4 _

/-- TOKREC whose lanes' slots are right acts lane by lane (R340). -/
theorem tokrec_completes (hi : Issues (.tokrec h a b c) s e) (hok : ∀ l, bit e.live l = true → ∃ x, tokCheck e a s l = .ok x) {u : State}
    {as : List (Nat × Unit)} (hgive : LanesGive e (tokAct e a b c) s u as) : CompletesOn (.tokrec h a b c) s e u noResult := by
  have hlines : TookLines e u := eachLane_keeps (P := TookLines e) (fun v l v' a hv hx => tokAct_tookLines hv hx) hgive (tookLines_of_here (issues_here hi))
  obtain ⟨x, hx⟩ : ∃ x : Nat → Nat, ∀ l, bit e.live l = true → tokCheck e a s l = .ok (x l) := by
    refine ⟨fun l => (tokCheck e a s l).toOption.getD 0, fun l hl => ?_⟩
    obtain ⟨x, hx⟩ := hok l hl
    simp only [hx, Except.toOption, Option.getD_some]
  have hcheck := eachLane_still (s := s) (tokCheck e a) (v := x) (ls := lanesOf e.live) fun l hl => hx l ((mem_lanesOf ..).mp hl)
  refine completesOn_kept hi (keepsPlace_of_tookLines (issues_here hi) hlines) (fun _ _ _ => rfl) ?_
  rw [exec_tokrec hi, lanesThen_ok hcheck, lanesThen_ok hgive]

/-- The one lane of a TOKREC whose slot is right acts (R340). -/
theorem tokrec_single (hi : Issues (.tokrec h a b c) s e) (hl : l < 32) (hlive : e.live = 1#32 <<< l) {st : List Byte}
    (ht : tableLoop s e.gr = some (g, i, n)) (hh : tabRead s e n.k56 2 = .ok hd) (hlt : (e.v s a l).toNat % 8192 < leNat hd)
    (hst : tabRead s e (recordVa n.k56 ((e.v s a l).toNat % 8192)) 1 = .ok st) (h12 : leNat st = 1 ∨ leNat st = 2)
    (hrec : ∀ x, graph? s g = some x → (i, (e.v s a l).toNat % 8192) ∉ x.recorded) {u : State} (hact : tokAct e a b c s l = .ok (u, ())) :
    LanesGive e (tokAct e a b c) s u [(l, ())] ∧ CompletesOn (.tokrec h a b c) s e u noResult := by
  have hone : lanesOf e.live = [l] := by rw [hlive, lanesOf_single hl]
  have hgive : LanesGive e (tokAct e a b c) s u [(l, ())] := by
    rw [LanesGive, hone]
    simp only [eachLane, hact]
  refine ⟨hgive, tokrec_completes hi (fun k hk => ?_) hgive⟩
  have hk' : k = l := by simpa [hone] using (mem_lanesOf ..).mpr hk
  subst hk'
  exact ⟨_, tokCheck_ok ht hh hlt hst h12 hone hrec⟩

end

/-! ## SMASK -/

section
variable {h : Hdr} {d a b c : Reg} {s : State} {e : Env} {l g i : Nat} {n : Node} {hd : List Byte}

theorem exec_smask (hi : Issues (.smask h d a b c) s e) : exec (.smask h d a b c) s = finish e (.smask h d a b c)
    (lanesThen e s (fun u l => pureLane u (maskedLogit e a b c u l)) fun u vals => .done (writeLanes e u d.toNat 1 (laneNat vals))) s := by
  rw [show exec (.smask h d a b c) s = execSmask h d a b c s from rfl, execSmask, runWord_issues hi]

theorem laneNat_map {ls : List Nat} (f : Nat → Nat) {l : Nat} (hl : l ∈ ls) : laneNat (ls.map fun l => (l, f l)) l = f l :=
  laneNat_of (Q := fun l x => x = f l) (by simp [Function.comp_def]) (fun p hp => by
    obtain ⟨k, -, rfl⟩ := List.mem_map.mp hp
    rfl) hl

/-- SMASK writes what its lanes find (R341). -/
theorem smask_completes (hi : Issues (.smask h d a b c) s e) {f : Nat → Nat} (hf : ∀ l, bit e.live l = true → maskedLogit e a b c s l = .ok (f l)) :
    Completes (.smask h d a b c) s e (resultIn e d 1 f) := by
  have hlanes := eachLane_still (s := s) (maskedLogit e a b c) (v := f) (ls := lanesOf e.live) fun l hl => hf l ((mem_lanesOf ..).mp hl)
  have hvals := writeLanes_congr e s d.toNat 1 (f := laneNat ((lanesOf e.live).map fun l => (l, f l))) (f' := f) fun l hl =>
    laneNat_map f ((mem_lanesOf ..).mpr hl)
  refine ⟨_, ?_, settled_of_wrote s (.smask h d a b c) (wrote_writeLanes d 1 f (wrote_refl (issues_here hi)))⟩
  rw [exec_smask hi, lanesThen_ok hlanes, finish_done hi, hvals]

/-- The logit of a lane whose slot's record and mask byte can be read (R341). -/
theorem maskedLogit_ok {r m : List Byte} {lf : Leaf} (ht : tableLoop s e.gr = some (g, i, n)) (hh : tabRead s e n.k56 2 = .ok hd)
    (hlt : (e.v s c l).toNat % 8192 < leNat hd) (hr : tabRead s e (recordVa n.k56 ((e.v s c l).toNat % 8192)) 64 = .ok r)
    (hm : field r 16 8 ≠ 0 → (e.v s b l).toNat < field r 24 4 →
      memLeaf s e (BitVec.ofNat 64 (field r 16 8 + (e.v s b l).toNat / 8)) 1 0 1 = .ok lf ∧ readMem s e lf 1 false l = .ok m) :
    maskedLogit e a b c s l = .ok (if field r 16 8 = 0 ∨ ((e.v s b l).toNat < field r 24 4 ∧ leNat m / 2 ^ ((e.v s b l).toNat % 8) % 2 = 1)
      then (e.v s a l).toNat else 0xFF800000) := by
  simp only [maskedLogit, tableFor_some ht, slotFor_below hh hlt, hr, bind, Except.bind]
  by_cases h0 : field r 16 8 = 0
  · simp only [h0, true_or, if_true]; rfl
  by_cases hin : (e.v s b l).toNat < field r 24 4
  · obtain ⟨hlf, hb⟩ := hm h0 hin
    simp only [if_neg (Nat.not_le.mpr hin), hlf, hb, h0, hin, false_or, true_and]; rfl
  · simp only [if_pos (Nat.not_lt.mp hin), h0, hin, false_or, false_and, if_false]; rfl

theorem maskedLogit_values {v : Nat} (hv : maskedLogit e a b c s l = .ok v) : v = (e.v s a l).toNat ∨ v = 0xFF800000 := by
  obtain ⟨x, -, hv⟩ := laneBind_ok hv
  obtain ⟨sl, -, hv⟩ := laneBind_ok hv
  obtain ⟨r, -, hv⟩ := laneBind_ok hv
  simp only at hv
  split at hv
  · cases hv; exact .inl rfl
  split at hv
  · cases hv; exact .inr rfl
  · obtain ⟨lf, -, hv⟩ := laneBind_ok hv
    obtain ⟨m, -, hv⟩ := laneBind_ok hv
    cases hv
    split
    · exact .inl rfl
    · exact .inr rfl

end

/-! ## SLOTRD and SLOTSET -/

section
variable {h : Hdr} {act : Bool} {d a b : Reg} {k : BitVec 3} {s : State} {e : Env} {l g i : Nat} {n : Node} {hd : List Byte}

theorem exec_slotrd (hi : Issues (.slotrd h act d a k) s e) : exec (.slotrd h act d a k) s = finish e (.slotrd h act d a k)
    (lanesThen e s (fun u l => pureLane u (slotQuarter e act a k u l)) fun u vals => .done (laterValue e u d.toNat 4 (laneNat vals))) s := by
  rw [show exec (.slotrd h act d a k) s = execSlotrd h act d a k s from rfl, execSlotrd, runWord_issues hi]

theorem slotrd_completes (hi : Issues (.slotrd h act d a k) s e) {f : Nat → Nat} (hf : ∀ l, bit e.live l = true → slotQuarter e act a k s l = .ok (f l)) :
    CompletesLater (.slotrd h act d a k) s e d 4 f := by
  have hlanes := eachLane_still (s := s) (slotQuarter e act a k) (v := f) (ls := lanesOf e.live) fun l hl => hf l ((mem_lanesOf ..).mp hl)
  have hvals := laterValue_congr (e := e) s d.toNat 4 (f := laneNat ((lanesOf e.live).map fun l => (l, f l))) (g := f) fun l hl =>
    laneNat_map f ((mem_lanesOf ..).mpr hl)
  refine ⟨_, ?_, sentOff_laterValue s (.slotrd h act d a k) d 4 f (wrote_refl (issues_here hi))⟩
  rw [exec_slotrd hi, lanesThen_ok hlanes, finish_done hi, hvals]

/-- The 16 bytes that a lane names, or zeros past the active slots (R343). -/
theorem slotQuarter_ok {x : List Byte} (ht : tableLoop s e.gr = some (g, i, n)) (hh : tabRead s e n.k56 2 = .ok hd)
    (hlt : act = false → (e.v s a l).toNat % 8192 < leNat hd)
    (hx : ∀ sl, (if act then n.active[(e.v s a l).toNat]? else some ((e.v s a l).toNat % 8192)) = some sl →
      tabRead s e (if k = 4 then n.k56 else recordVa n.k56 sl + BitVec.ofNat 64 (16 * k.toNat)) 16 = .ok x) :
    slotQuarter e act a k s l =
      .ok (if (if act then n.active[(e.v s a l).toNat]? else some ((e.v s a l).toNat % 8192)) = none then 0 else leNat x) := by
  cases act with
  | true =>
    simp only [slotQuarter, tableFor_some ht, bind, Except.bind, pure, Except.pure, if_true] at hx ⊢
    cases hsl : n.active[(e.v s a l).toNat]? with
    | none => rfl
    | some sl => simp only [hx sl hsl]; rfl
  | false =>
    have hslot := slotFor_below hh (hlt rfl)
    simp only [slotQuarter, tableFor_some ht, hslot, Except.map, bind, Except.bind, Bool.false_eq_true, if_false] at hx ⊢
    simp only [hx _ rfl]; rfl

theorem exec_slotset (hi : Issues (.slotset h a b) s e) : exec (.slotset h a b) s = finish e (.slotset h a b)
    (lanesThen e s (slotsetLane e s a b) fun u _ => .done u) s := by
  rw [show exec (.slotset h a b) s = execSlotset h a b s from rfl, execSlotset, runWord_issues hi]

theorem slotsetLane_groups {u : State} {x : State × Unit} (hx : slotsetLane e s a b u l = .ok x) : x.1.groups = u.groups := by
  obtain ⟨y, -, hx⟩ := laneBind_ok hx
  obtain ⟨sl, -, hx⟩ := laneBind_ok hx
  simp only at hx
  split at hx
  · cases hx
  · obtain ⟨v, hv, hx⟩ := laneBind_ok hx
    cases hx
    exact putRequest_groups hv

theorem slotset_completes (hi : Issues (.slotset h a b) s e) {u : State} {as : List (Nat × Unit)} (hgive : LanesGive e (slotsetLane e s a b) s u as) :
    CompletesOn (.slotset h a b) s e u noResult := by
  have hgroups : u.groups = s.groups := eachLane_keeps (P := fun v => v.groups = s.groups) (fun v l v' a hv hx => (slotsetLane_groups hx).trans hv) hgive rfl
  exact completesOn_of_groups hi hgroups (by rw [exec_slotset hi, lanesThen_ok hgive])

/-- One lane's request (R343). -/
theorem slotsetLane_ok {old : List Byte} {ps : List (Nat × Nat × Nat)} (ht : tableLoop s e.gr = some (g, i, n)) (hh : tabRead s e n.k56 2 = .ok hd)
    (hlt : (e.v s a l).toNat % 8192 < leNat hd) (h2 : 2 ≤ (e.v s b l).toNat % 8) (h4 : (e.v s b l).toNat % 8 ≤ 4)
    (ho : tabRead s e (recordVa n.k56 ((e.v s a l).toNat % 8192) + 2) 2 = .ok old)
    (hp : DevWritable s e (recordVa n.k56 ((e.v s a l).toNat % 8192) + 2) 2 ps) : slotsetLane e s a b s l =
      .ok (putPieces s ps (leBytes 2 (requestWord (leNat old) ((e.v s b l).toNat % 8) ((e.v s b l).toNat / 256 % 256))), ()) := by
  simp only [slotsetLane, tableFor_some ht, slotFor_below hh hlt, bind, Except.bind]
  rw [if_neg (by omega), putRequest_of_devWritable ho hp]
  rfl

end

end Sys2Proof.Machine
end

section
/-! PROOFS. ULCALL (R342). -/

namespace Sys2Proof.Machine

/-! ## The sub-group of a lane -/

/-- The sub-group of a user logit kernel that lane l starts (R342). -/
def logitGroup (e : Env) (l id sl budget : Nat) (code args : DWord) : Group :=
  { newGroup id e.gr.ctx e.gr.grid e.gr.index (.subgroup e.g e.w l) e.gr.depth e.gr.core e.gr.gang 1 32 0 e.gr.split code args
      e.fixed [startWarp 0 code (startRegs 0 sl 0 args)] with logits := some (budget, 0, sl, 0) }

theorem sget?_foldl_sput_of_not_mem {α : Type} {k : Nat} (ps : List (Nat × α)) (m : List (Nat × α)) (h : k ∉ ps.map (·.1)) :
    sget? (ps.foldl (fun m p => sput m p.1 p.2) m) k = sget? m k := by
  induction ps generalizing m with
  | nil => rfl
  | cons p ps ih =>
    obtain ⟨hp, hps⟩ := not_or.mp (fun hc => h (List.mem_cons.mpr hc))
    rw [List.foldl_cons, ih _ hps, sget?_sput_ne _ _ hp]

/-- What is put once is found. -/
theorem sget?_foldl_sput_of_mem {α : Type} {k : Nat} {v : α} (ps : List (Nat × α)) (m : List (Nat × α)) (hn : (ps.map (·.1)).Nodup) (h : (k, v) ∈ ps) :
    sget? (ps.foldl (fun m p => sput m p.1 p.2) m) k = some v := by
  induction ps generalizing m with
  | nil => cases h
  | cons p ps ih =>
    obtain ⟨hp, hps⟩ := List.nodup_cons.mp hn
    rw [List.foldl_cons]
    rcases List.mem_cons.mp h with rfl | h
    · rw [sget?_foldl_sput_of_not_mem _ _ hp, sget?_sput_self]
    · exact ih _ hps h

theorem startWarp_regs (index : Nat) (code : DWord) (regs : List (Nat × Word)) :
    (startWarp index code regs).regs = regs.foldl (fun m p => sput m p.1 p.2) [] := rfl

/-- The registers that a sub-group's warp starts with (R23). -/
theorem startWarp_reg (index : Nat) (code : DWord) (w v1 v2 : Nat) (args : DWord) {k : Nat} {v : Word} (h : (k, v) ∈ startRegs w v1 v2 args) :
    sget? (startWarp index code (startRegs w v1 v2 args)).regs k = some v := by
  have hkeys : (startRegs w v1 v2 args).map (·.1) = (List.range 32).flatMap fun l => [l, 32 + l, 64 + l, 96 + l, 128 + l] := by
    simp [startRegs, List.map_flatMap]
  rw [startWarp_regs]
  exact sget?_foldl_sput_of_mem _ _ (by rw [hkeys]; decide +kernel) h

theorem logitGroup_warp (e : Env) (l id sl budget : Nat) (code args : DWord) : ∃ wp, (logitGroup e l id sl budget code args).warps = [wp] ∧
    (∀ x ∈ wp.lanes, x.pc = code ∧ x.exited = false) ∧
    ∀ k, k < 32 → sget? wp.regs k = some (BitVec.ofNat 32 k) ∧ sget? wp.regs (96 + k) = some (args.setWidth 32) := by
  refine ⟨_, rfl, fun x hx => ?_, fun k hk => ⟨startWarp_reg 0 code 0 sl 0 args ?_, startWarp_reg 0 code 0 sl 0 args ?_⟩⟩
  · obtain rfl := (List.mem_replicate.mp hx).2
    exact ⟨rfl, rfl⟩
  · exact List.mem_flatMap.mpr ⟨k, List.mem_range.mpr hk, by simp⟩
  · exact List.mem_flatMap.mpr ⟨k, List.mem_range.mpr hk, by simp⟩

/-! ## Starting the lanes' kernels -/

/-- Nothing but groups and the count of names differs: what ULCALL's lanes have changed. -/
def OnlyStarts (s u : State) : Prop := u = { s with groups := u.groups, seqs := u.seqs }

section
variable {a b d : Reg} {s u v : State} {e : Env} {l : Nat}

theorem OnlyStarts.regs (h : OnlyStarts s u) (r : Reg) (l : Nat) : e.v u r l = e.v s r l := regRead_of_tmpls (by rw [h]) ..

theorem OnlyStarts.pair (h : OnlyStarts s u) (r : Reg) (l : Nat) : e.d u r l = e.d s r l := by
  have ht : u.tmpls = s.tmpls := by rw [h]
  simp only [Env.d, pairRead, regRead_of_tmpls ht]

theorem OnlyStarts.tableLoop (h : OnlyStarts s u) : tableLoop u e.gr = tableLoop s e.gr := by rw [h]; rfl

theorem OnlyStarts.tabRead (h : OnlyStarts s u) (va : DWord) (n : Nat) : tabRead u e va n = tabRead s e va n := by
  have hw : SameWalks 4 s { s with groups := u.groups, seqs := u.seqs } := ⟨fun _ _ => rfl, fun _ _ => rfl, rfl, rfl, rfl, rfl⟩
  rw [h]
  simp only [Machine.tabRead, hw.devRead]
  rfl

/-- What a lane that starts a kernel leaves, or one without one (R342). -/
theorem startLogits_ok {x : Option Nat} (h : startLogits e a b u l = .ok (v, x)) : (x = none ∧ v = u) ∨
    ∃ sl budget code, x = some u.seqs ∧ v = putGroup { u with seqs := u.seqs + 1 } (logitGroup e l u.seqs sl budget code (e.d u b l)) := by
  obtain ⟨y, -, h⟩ := laneBind_ok h
  obtain ⟨sl, -, h⟩ := laneBind_ok h
  obtain ⟨r, -, h⟩ := laneBind_ok h
  simp only at h
  split at h
  · cases h; exact .inl ⟨rfl, rfl⟩
  · cases h; exact .inr ⟨_, _, _, rfl, rfl⟩

/-- A lane whose slot's record can be read starts its kernel where it has one (R342). -/
theorem startLogits_reads {g i : Nat} {n : Node} {hd r : List Byte} (hs : OnlyStarts s u) (ht : tableLoop s e.gr = some (g, i, n))
    (hh : tabRead s e n.k56 2 = .ok hd) (hlt : (e.v s a l).toNat % 8192 < leNat hd)
    (hr : tabRead s e (recordVa n.k56 ((e.v s a l).toNat % 8192)) 64 = .ok r) :
    ∃ v x, startLogits e a b u l = .ok (v, x) ∧ OnlyStarts s v ∧ (x = none ↔ field r 32 8 = 0) := by
  have hslot : slotFor u e n.k56 (e.v u a l) = .ok ((e.v s a l).toNat % 8192) := by
    rw [hs.regs]; exact slotFor_below (by rw [hs.tabRead]; exact hh) hlt
  simp only [startLogits, tableFor_some (hs.tableLoop.trans ht), hslot, hs.tabRead, hr, bind, Except.bind]
  by_cases h0 : field r 32 8 = 0
  · rw [if_pos h0]; exact ⟨_, _, rfl, hs, by simp [h0]⟩
  · rw [if_neg h0]
    refine ⟨_, _, rfl, ?_, by simp [h0]⟩
    unfold OnlyStarts putGroup fresh
    rw [hs]

/-- What the lanes have started: sub-groups of new names, the other groups as they were (R342). -/
theorem startLogits_lanes : ∀ {ls : List Nat} {u v : State} {subs : List (Nat × Option Nat)}, eachLane (startLogits e a b) ls u = ([], v, subs) →
    OnlyStarts s u → OnlyStarts s v ∧ u.seqs ≤ v.seqs ∧ (∀ g, g < u.seqs → group? v g = group? u g) ∧
    ((∀ x ∈ subs, x.2 = none) → v = u) ∧
    ∀ l g, (l, some g) ∈ subs → u.seqs ≤ g ∧ g < v.seqs ∧ ∃ sl budget code, group? v g = some (logitGroup e l g sl budget code (e.d s b l))
  | [], u, v, subs, h, hs => by
    cases h
    exact ⟨hs, le_rfl, fun _ _ => rfl, fun _ => rfl, fun _ _ hx => nomatch hx⟩
  | l :: ls, u, v, subs, h, hs => by
    rw [eachLane] at h
    cases hl : startLogits e a b u l with
    | error y => rw [hl] at h; cases h
    | ok y =>
      obtain ⟨t, x⟩ := y
      rw [hl] at h
      have hrest : eachLane (startLogits e a b) ls t = ([], v, (eachLane (startLogits e a b) ls t).2.2) := by
        obtain ⟨h1, h2⟩ := Prod.mk.inj h
        obtain ⟨h2, -⟩ := Prod.mk.inj h2
        exact Prod.ext h1 (Prod.ext h2 rfl)
      obtain rfl : (l, x) :: (eachLane (startLogits e a b) ls t).2.2 = subs := (Prod.mk.inj (Prod.mk.inj h).2).2
      rcases startLogits_ok hl with ⟨rfl, rfl⟩ | ⟨sl, budget, code, rfl, ht⟩
      · obtain ⟨ho, hle, hkeep, hnone, hsub⟩ := startLogits_lanes hrest hs
        refine ⟨ho, hle, hkeep, fun hall => hnone fun y hy => hall y (List.mem_cons_of_mem _ hy), fun k g hk => hsub k g ?_⟩
        rcases List.mem_cons.mp hk with hk | hk
        · cases hk
        · exact hk
      · have hot : OnlyStarts s t := by rw [ht]; unfold OnlyStarts putGroup; rw [hs]
        have hseq : t.seqs = u.seqs + 1 := by rw [ht]; rfl
        obtain ⟨ho, hle, hkeep, -, hsub⟩ := startLogits_lanes hrest hot
        refine ⟨ho, by omega, fun g hg => ?_, fun hall => ?_, fun k g hk => ?_⟩
        · rw [hkeep g (by omega), ht]
          exact sget?_sput_ne _ _ (by show g ≠ u.seqs; omega)
        · exact absurd (hall _ (List.mem_cons_self ..)) (by simp)
        · rcases List.mem_cons.mp hk with hk | hk
          · cases hk
            refine ⟨le_rfl, by omega, sl, budget, code, ?_⟩
            rw [hkeep u.seqs (by omega), ht, ← hs.pair b l]
            exact sget?_sput_self ..
          · obtain ⟨h1, h2⟩ := hsub k g hk
            exact ⟨by omega, h2⟩

end

/-! ## ULCALL -/

section
variable {h : Hdr} {d a b : Reg} {s u : State} {e : Env} {subs : List (Nat × Option Nat)}

/-- The lanes that have started a kernel, with their sub-groups. -/
def started (subs : List (Nat × Option Nat)) : List (Nat × Nat) := subs.filterMap fun x => x.2.map fun g => (x.1, g)

/-- The live lanes that have not. -/
def idleLanes (e : Env) (subs : List (Nat × Option Nat)) : Mask := maskOf fun l => bit e.live l && !((started subs).any (·.1 == l))

theorem exec_ulcall (hi : Issues (.ulcall h d a b) s e) : exec (.ulcall h d a b) s = finish e (.ulcall h d a b)
    (lanesThen e s (startLogits e a b) fun u subs => if (started subs).isEmpty then .done (writeLanes e u d.toNat 1 fun _ => 0)
      else .hold (writeLanes { e with live := idleLanes e subs } u d.toNat 1 fun _ => 0) (.ulcall d.toNat (started subs)) e.live) s := by
  rw [show exec (.ulcall h d a b) s = execUlcall h d a b s from rfl, execUlcall, runWord_issues hi] <;> rfl

theorem mem_started {l g : Nat} : (l, g) ∈ started subs ↔ (l, some g) ∈ subs := by
  simp [started, and_comm]

theorem started_isEmpty : (started subs).isEmpty = true ↔ ∀ x ∈ subs, x.2 = none := by
  rw [List.isEmpty_iff, List.eq_nil_iff_forall_not_mem]
  refine ⟨fun hn x hx => ?_, fun hn p hp => ?_⟩
  · obtain ⟨l, o⟩ := x
    cases o with
    | none => rfl
    | some g => exact absurd (mem_started.mpr hx) (hn (l, g))
  · have := hn _ (mem_started (l := p.1) (g := p.2).mp hp)
    cases this

theorem ulcall_none (hi : Issues (.ulcall h d a b) s e) (hgive : LanesGive e (startLogits e a b) s u subs) (hn : ∀ x ∈ subs, x.2 = none) :
    u = s ∧ exec (.ulcall h d a b) s = finish e (.ulcall h d a b) (.done (writeLanes e s d.toNat 1 fun _ => 0)) s := by
  obtain ⟨-, -, -, hsame, -⟩ := startLogits_lanes (s := s) hgive rfl
  obtain rfl := hsame hn
  refine ⟨rfl, ?_⟩
  rw [exec_ulcall hi, lanesThen_ok hgive, if_pos (started_isEmpty.mpr hn)]

/-- A lane is idle where its answer says so. -/
theorem bit_idleLanes (hgive : LanesGive e (startLogits e a b) s u subs) (l : Nat) : bit (idleLanes e subs) l = true ↔ (l, none) ∈ subs := by
  have hkeys : subs.map (·.1) = lanesOf e.live := eachLane_keys hgive
  have hmem : (∃ x, (l, x) ∈ subs) ↔ bit e.live l = true := by
    rw [← mem_lanesOf, ← hkeys]; simp
  have hone {x y : Option Nat} (hx : (l, x) ∈ subs) (hy : (l, y) ∈ subs) : x = y := by
    have hnd : (subs.map (·.1)).Nodup := hkeys ▸ nodup_lanesOf _
    exact congrArg Prod.snd (List.inj_on_of_nodup_map hnd hx hy rfl)
  have hstart : (started subs).any (·.1 == l) = true ↔ ∃ g, (l, some g) ∈ subs := by
    simp only [List.any_eq_true, beq_iff_eq]
    exact ⟨fun ⟨p, hp, hl⟩ => ⟨p.2, hl ▸ mem_started.mp hp⟩, fun ⟨g, hg⟩ => ⟨(l, g), mem_started.mpr hg, rfl⟩⟩
  rw [idleLanes, bit_maskOf, Bool.and_eq_true, Bool.and_eq_true, Bool.not_eq_true', decide_eq_true_eq, ← Bool.not_eq_true, hstart]
  refine ⟨fun ⟨_, hb, hno⟩ => ?_, fun hnone => ?_⟩
  · obtain ⟨x, hx⟩ := hmem.mpr hb
    cases x with
    | none => exact hx
    | some g => exact absurd ⟨g, hx⟩ hno
  · have hb := hmem.mp ⟨none, hnone⟩
    refine ⟨?_, hb, fun ⟨g, hg⟩ => nomatch hone hnone hg⟩
    by_contra hge
    rw [bit, BitVec.getLsbD_of_ge _ _ (by omega)] at hb
    cases hb

/-- ULCALL with a kernel started is held, its idle lanes' zeros written (R342). -/
theorem ulcall_holds (hi : Issues (.ulcall h d a b) s e) (hgive : LanesGive e (startLogits e a b) s u subs) (hsome : ∃ x ∈ subs, x.2 ≠ none)
    (hids : ∀ q ∈ s.groups, q.1 < s.seqs) : ∃ y, HoldsOn (.ulcall h d a b) s e y (.ulcall d.toNat (started subs)) e.live ∧
      RegsAre e u y fun r l => if r = d.toNat ∧ (l, none) ∈ subs then some 0 else none := by
  obtain ⟨-, -, hkeep, -, -⟩ := startLogits_lanes (s := s) hgive rfl
  obtain ⟨hg, hw⟩ := issues_here hi
  have hhere : Here e u := ⟨(hkeep e.g (hids _ (mem_of_sget? hg))).trans hg, hw⟩
  refine ⟨writeLanes { e with live := idleLanes e subs } u d.toNat 1 fun _ => 0, ?_, ?_⟩
  · refine holdsOn_kept hi ((keepsPlace_of_here hhere).writeLanes (idleLanes e subs) d.toNat 1 fun _ => 0) (fun _ _ _ => rfl) _ _ ?_
    rw [exec_ulcall hi, lanesThen_ok hgive, if_neg]
    intro hempty
    obtain ⟨x, hx, hne⟩ := hsome
    exact hne (started_isEmpty.mp hempty x hx)
  · have hhere' : Here { e with live := idleLanes e subs } u := hhere
    obtain ⟨hregs, -, -⟩ := wrote_writeLanes d 1 (fun _ => 0) (wrote_refl hhere')
    have hres : resultIn { e with live := idleLanes e subs } d 1 (fun _ => 0) = fun r l => if r = d.toNat ∧ (l, none) ∈ subs then some 0 else none := by
      funext r l
      simp only [resultIn, bit_idleLanes hgive, Nat.zero_div]
      refine if_congr ⟨fun ⟨h1, h2, h3⟩ => ⟨by omega, h1⟩, fun ⟨h1, h2⟩ => ⟨h2, by omega, by omega⟩⟩ rfl rfl
    rw [← hres]
    exact hregs

end

/-- Settles O44: each word by what its lanes find of their slots, ULCALL by the sub-groups that its lanes start
(`startLogits_lanes`). -/
theorem batchAndLogitWordsComplete : Obligations.BatchAndLogitWordsComplete := by
  unfold Obligations.BatchAndLogitWordsComplete
  refine ⟨fun s e h d a b c => ?_, fun s e h d a b hi => ⟨fun g i n hd r ht hh hr => ⟨?_, fun h0 => ?_⟩,
    fun u subs hgive => ⟨fun hn => ?_, fun hsome hids => ulcall_holds hi hgive hsome hids, fun l g hsub _ _ => ?_⟩⟩⟩
  · intro none_ slot
    have hnone {i : Instr} {α : Type} {f : State → Nat → Except LaneFault (State × α)} {k : State → List (Nat × α) → WordRes}
        (hx : Issues i s e → exec i s = finish e i (lanesThen e s f k) s)
        (hf : tableLoop s e.gr = none → ∀ l, f s l = .error (some (.prot, 0, 0))) : none_ i := fun hi hl ht => by
      obtain ⟨l, hl⟩ := exists_leader hl
      exact faultsFirst_of_lane (hx hi) hl (hf ht l)
    have hpure {f : Nat → Except LaneFault Nat} {l : Nat} (hf : f l = bad .prot 0 0) : pureLane s (f l) = .error (some (.prot, 0, 0)) := by rw [hf]; rfl
    refine ⟨hnone exec_tokrec fun ht l => ?_, hnone exec_smask fun ht l => ?_, fun act n => hnone exec_slotrd fun ht l => ?_,
      hnone exec_slotset fun ht l => ?_, fun g i n hd ht hh => ⟨fun hi l st hlive hl hlt hst h12 hrec => ⟨fun old ps hb ho hp => ?_,
        fun r lf ps hb hr heos hfull hlf hw hs hdie hp => ?_⟩, fun hi r m lf => ?_, fun act k hi x => ?_,
        fun hi l old ps hlive hl hlt => ?_⟩,
      fun hi hok u as hgive => tokrec_completes hi hok hgive, fun hi f hf => ⟨smask_completes hi hf, fun l hl => maskedLogit_values (hf l hl)⟩,
      fun act n hi f hf => slotrd_completes hi hf, fun hi u as hgive => slotset_completes hi hgive, fun old st reason _ h2 h4 _ => requestWord_eq old st reason h2 h4⟩
    · exact hpure (f := tokCheck e a s) (by simp only [tokCheck, tableFor_none ht]; rfl)
    · exact hpure (f := maskedLogit e a b c s) (by simp only [maskedLogit, tableFor_none ht]; rfl)
    · exact hpure (f := slotQuarter e act a n s) (by simp only [slotQuarter, tableFor_none ht]; rfl)
    · simp only [slotsetLane, tableFor_none ht]; rfl
    · have hact := tokAct_empty (c := c) ht hb (putRequest_of_devWritable (st := 3) (reason := reasonEmpty) ho hp)
      exact (tokrec_single hi hl hlive ht hh hlt hst h12 hrec hact).2
    · obtain ⟨u, hact⟩ := tokAct_appends (c := c) ht hb hr heos hfull hlf hw hs hdie hp
      exact ⟨u, _, tokrec_single hi hl hlive ht hh hlt hst h12 hrec hact⟩
    · intro at_ hlanes
      refine smask_completes hi fun l hl => ?_
      obtain ⟨hlt, hr, hm⟩ := hlanes l hl
      exact maskedLogit_ok ht hh hlt hr hm
    · intro from_ named hlanes
      refine slotrd_completes hi fun l hl => ?_
      obtain ⟨hlt, hx⟩ := hlanes l hl
      exact slotQuarter_ok ht hh hlt hx
    · intro q h2 h4 ho hp
      have hlane := slotsetLane_ok ht hh hlt h2 h4 ho hp
      refine slotset_completes (as := [(l, ())]) hi ?_
      rw [LanesGive, hlive, lanesOf_single hl]
      simp only [eachLane, hlane]
      rfl
  · have hlane (l : Nat) (hmem : l ∈ lanesOf e.live) (u : State) (hu : OnlyStarts s u) :
        ∃ v x, startLogits e a b u l = .ok (v, x) ∧ OnlyStarts s v ∧ (x = none ↔ field (r l) 32 8 = 0) := by
      obtain ⟨hlt, hrec⟩ := hr l ((mem_lanesOf ..).mp hmem)
      exact startLogits_reads hu ht hh hlt hrec
    obtain ⟨u, subs, hgive, -, -, hq⟩ := eachLane_ok (Q := fun l x => x = none ↔ field (r l) 32 8 = 0) (lanesOf e.live) hlane (show OnlyStarts s s from rfl)
    exact ⟨u, subs, hgive, hq⟩
  · have hlane (l : Nat) (hmem : l ∈ lanesOf e.live) (u : State) (hu : OnlyStarts s u) :
        ∃ v x, startLogits e a b u l = .ok (v, x) ∧ OnlyStarts s v ∧ x = none := by
      obtain ⟨hlt, hrec⟩ := hr l ((mem_lanesOf ..).mp hmem)
      obtain ⟨v, x, hx, hv, hiff⟩ := startLogits_reads (b := b) hu ht hh hlt hrec
      exact ⟨v, x, hx, hv, hiff.mpr (h0 l ((mem_lanesOf ..).mp hmem))⟩
    obtain ⟨u, subs, hgive, -, -, hq⟩ := eachLane_ok (Q := fun _ x => x = none) (lanesOf e.live) hlane (show OnlyStarts s s from rfl)
    obtain ⟨-, hx⟩ := ulcall_none hi hgive hq
    refine ⟨_, ?_, settled_of_wrote s (.ulcall h d a b) (wrote_writeLanes d 1 (fun _ => 0) (wrote_refl (issues_here hi)))⟩
    rw [hx, finish_done hi]
  · obtain ⟨rfl, hx⟩ := ulcall_none hi hgive hn
    exact completesOn_kept_writes hi (keepsPlace_of_here (issues_here hi)) (fun _ _ _ => rfl) d 1 _ hx
  · obtain ⟨-, -, -, -, hsubs⟩ := startLogits_lanes (s := s) hgive rfl
    obtain ⟨-, -, sl, budget, code, hgroup⟩ := hsubs l g hsub
    obtain ⟨wp, hw, hlanes, hregs⟩ := logitGroup_warp e l g sl budget code (e.d s b l)
    exact ⟨_, wp, hgroup, rfl, rfl, rfl, rfl, rfl, hw, hlanes, hregs⟩

end Sys2Proof.Machine
end

section
/-! PROOFS. The levels of a region's tree: their lengths, and each node as what its leaves combine to (R244, R245, R259). -/

namespace Sys2Proof.Machine

theorem getElem?_setAt {α : Type} (l : List α) (n m : Nat) (x : α) : (setAt l n x)[m]? = if m = n then l[m]?.map fun _ => x else l[m]? := by
  induction l generalizing n m with
  | nil => simp [setAt]
  | cons a r ih => cases n <;> cases m <;> simp [setAt, ih]

@[simp] theorem length_setAt {α : Type} (l : List α) (n : Nat) (x : α) : (setAt l n x).length = l.length := by
  induction l generalizing n with
  | nil => rfl
  | cons a r ih => cases n <;> simp [setAt, ih]

/-! ## Levels as lists -/

/-- The children of node j in the level below it. -/
def chunk (xs : List NodeVal) (j : Nat) : List NodeVal := (xs.drop (4 * j)).take 4

theorem levelUp_of_ne_nil {r : Region} {xs : List NodeVal} (h : xs ≠ []) : levelUp r xs = comb r (xs.take 4) :: levelUp r (xs.drop 4) := by
  fun_cases levelUp r xs with
  | case1 a b c d rest => rfl
  | case2 => exact absurd rfl h
  | case3 h0 h4 =>
    have hlen : xs.length ≤ 4 := by
      rcases xs with _ | ⟨a, _ | ⟨b, _ | ⟨c, _ | ⟨d, rest⟩⟩⟩⟩
      · simp
      · simp
      · simp
      · simp
      · exact absurd rfl (h4 a b c d rest)
    rw [List.take_of_length_le hlen, List.drop_eq_nil_of_le hlen]
    rfl

theorem getElem?_levelUp (r : Region) (xs : List NodeVal) (j : Nat) : (levelUp r xs)[j]? = if 4 * j < xs.length then some (comb r (chunk xs j)) else none := by
  induction j generalizing xs with
  | zero =>
    by_cases h : xs = []
    · subst h; rfl
    · rw [levelUp_of_ne_nil h, if_pos (by simpa using List.length_pos_iff.mpr h)]; rfl
  | succ j ih =>
    by_cases h : xs = []
    · subst h; rfl
    · rw [levelUp_of_ne_nil h, List.getElem?_cons_succ, ih]
      have hchunk : chunk (xs.drop 4) j = chunk xs (j + 1) := by simp only [chunk, List.drop_drop]; congr 2; omega
      rw [hchunk]
      exact if_congr (by rw [List.length_drop]; omega) rfl rfl

theorem length_levelUp (r : Region) (xs : List NodeVal) : (levelUp r xs).length = (xs.length + 3) / 4 := by
  refine Nat.le_antisymm (Nat.not_lt.mp fun h => ?_) (Nat.not_lt.mp fun h => ?_)
  · have hs := List.getElem?_eq_getElem h
    rw [getElem?_levelUp, if_neg (by omega)] at hs
    cases hs
  · have hn := List.getElem?_eq_none (Nat.le_refl (levelUp r xs).length)
    rw [getElem?_levelUp, if_pos (by omega)] at hn
    cases hn

/-- Level k of the tree over some leaves. -/
def levelAt (r : Region) (xs : List NodeVal) : Nat → List NodeVal
  | 0 => xs
  | k + 1 => levelUp r (levelAt r xs k)

/-- The number of nodes of level k over n leaves (R245). -/
def nodesAt (n : Nat) : Nat → Nat
  | 0 => n
  | k + 1 => (nodesAt n k + 3) / 4

theorem length_levelAt (r : Region) (xs : List NodeVal) (k : Nat) : (levelAt r xs k).length = nodesAt xs.length k := by
  induction k with
  | zero => rfl
  | succ k ih => rw [levelAt, length_levelUp, ih]; rfl

theorem levelAt_shift (r : Region) (xs : List NodeVal) (k : Nat) : levelAt r (levelUp r xs) k = levelAt r xs (k + 1) := by
  induction k with
  | zero => rfl
  | succ k ih => rw [levelAt, ih]; rfl

theorem nodesAt_shift (n k : Nat) : nodesAt ((n + 3) / 4) k = nodesAt n (k + 1) := by
  induction k with
  | zero => rfl
  | succ k ih => rw [nodesAt, ih]; rfl

/-- A node of level k exists where some leaf is below it. -/
theorem lt_nodesAt {n k j : Nat} : j < nodesAt n k ↔ j * 4 ^ k < n := by
  induction k generalizing j with
  | zero => simp [nodesAt]
  | succ k ih =>
    have h4 : j < (nodesAt n k + 3) / 4 ↔ 4 * j < nodesAt n k := by omega
    rw [nodesAt, h4, ih, show 4 * j * 4 ^ k = j * 4 ^ (k + 1) by rw [pow_succ]; ring]

theorem getElem?_levelCounts (f n i : Nat) : (levelCounts f n)[i]? = if i < (levelCounts f n).length then some (nodesAt n (i + 1)) else none := by
  induction f generalizing n i with
  | zero => rfl
  | succ f ih =>
    by_cases hn : n ≤ 1
    · simp [levelCounts, hn]
    · cases i with
      | zero => simp [levelCounts, hn, nodesAt]
      | succ i => simp [levelCounts, hn, ih, nodesAt_shift]

theorem buildLevels_eq (r : Region) (f : Nat) (xs : List NodeVal) :
    buildLevels r f xs = (List.range (levelCounts f xs.length).length).map fun k => levelAt r xs (k + 1) := by
  induction f generalizing xs with
  | zero => rfl
  | succ f ih =>
    by_cases hx : xs.length ≤ 1
    · simp [buildLevels, levelCounts, hx]
    · rw [buildLevels, if_neg hx, ih, length_levelUp, levelCounts, if_neg hx, List.length_cons, List.range_succ_eq_map, List.map_cons, List.map_map]
      simp only [levelAt_shift]
      rfl

/-- The top level holds all leaves (R245). -/
theorem le_pow_levelCounts {f n : Nat} (h : n ≤ 4 ^ f) : n ≤ 4 ^ (levelCounts f n).length := by
  induction f generalizing n with
  | zero => exact h
  | succ f ih =>
    by_cases hn : n ≤ 1
    · simp [levelCounts, hn]
    · rw [levelCounts, if_neg hn, List.length_cons]
      have := ih (n := (n + 3) / 4) (by rw [pow_succ] at h; omega)
      rw [pow_succ]; omega

theorem length_levelCounts_le {f n m : Nat} (h : n ≤ 4 ^ m) : (levelCounts f n).length ≤ m := by
  induction f generalizing n m with
  | zero => exact Nat.zero_le _
  | succ f ih =>
    by_cases hn : n ≤ 1
    · simp [levelCounts, hn]
    · rw [levelCounts, if_neg hn, List.length_cons]
      cases m with
      | zero => simp at h; omega
      | succ m => exact Nat.succ_le_succ (ih (by rw [pow_succ] at h; omega))

/-! ## Trees in order -/

/-- A region of integers whose levels are those of its leaves (R259). -/
structure Built (r : Region) : Prop where
  small : r.n ≤ 2 ^ 26
  leaves : r.leaves.length = r.n
  levels : r.levels = buildLevels r 14 r.leaves

theorem Built.le_top {r : Region} (h : Built r) : r.n ≤ 4 ^ Region.top r :=
  le_pow_levelCounts (h.small.trans (by norm_num))

theorem Built.top_le {r : Region} (h : Built r) : Region.top r ≤ 13 :=
  length_levelCounts_le (h.small.trans (by norm_num))

theorem Built.level {r : Region} (h : Built r) {k : Nat} (hk : k < Region.top r) : r.levels[k]? = some (levelAt r r.leaves (k + 1)) := by
  have hk' : k < (levelCounts 14 r.leaves.length).length := by rw [h.leaves]; exact hk
  rw [h.levels, buildLevels_eq, List.getElem?_map, List.getElem?_range hk']
  rfl

/-- The value of node j of level k over some leaves, 0 where there is none. -/
def nodeVal (r : Region) (xs : List NodeVal) (k j : Nat) : Int := (((levelAt r xs k)[j]?).map (·.v)).getD 0

theorem Built.nodeAt_v {r : Region} (h : Built r) {k : Nat} (hk : k ≤ Region.top r) (j : Nat) : (nodeAt r k j).v = nodeVal r r.leaves k j := by
  have hlevel : (if k = 0 then r.leaves else (r.levels[k - 1]?).getD []) = levelAt r r.leaves k := by
    cases k with
    | zero => rfl
    | succ k => rw [if_neg (Nat.succ_ne_zero k), Nat.add_sub_cancel, h.level hk]; rfl
  rw [nodeAt, hlevel, nodeVal]
  cases (levelAt r r.leaves k)[j]? <;> rfl

/-- The number of children's nodes that a walk down may take. -/
theorem counts_below {r : Region} (k : Nat) (hk : k < Region.top r) : (if k = 0 then r.n else (Region.counts r)[k - 1]?.getD 0) = nodesAt r.n k := by
  cases k with
  | zero => rfl
  | succ k =>
    rw [if_neg (Nat.succ_ne_zero k), Nat.add_sub_cancel, Region.counts, getElem?_levelCounts, if_pos (by simp only [Region.top, Region.counts] at hk; omega)]
    rfl

theorem getElem?_chunk (xs : List NodeVal) (j c : Nat) : (chunk xs j)[c]? = if c < 4 then xs[4 * j + c]? else none := by
  rw [chunk, List.getElem?_take, List.getElem?_drop]

theorem mem_chunk {xs : List NodeVal} {j : Nat} {x : NodeVal} : x ∈ chunk xs j ↔ ∃ c < 4, xs[4 * j + c]? = some x := by
  simp only [List.mem_iff_getElem?, getElem?_chunk]
  refine ⟨fun ⟨c, hc⟩ => ?_, fun ⟨c, h4, hc⟩ => ⟨c, by rw [if_pos h4, hc]⟩⟩
  split at hc
  · exact ⟨c, ‹_›, hc⟩
  · cases hc

/-! ## Sums -/

section
variable {r : Region} (hty : r.ty ≠ 0)
include hty

theorem comb_sum (hagg : r.agg = 0) (cs : List NodeVal) : (comb r cs).v = (cs.map (·.v)).sum := by
  simp only [comb, hagg, hty, if_true, if_false]

omit hty in
theorem sum_chunk (xs : List NodeVal) (j : Nat) : ((chunk xs j).map (·.v)).sum =
    ∑ c ∈ Finset.range 4, ((xs[4 * j + c]?).map (·.v)).getD 0 := by
  have hd : ∀ c, xs[4 * j + c]? = (xs.drop (4 * j))[c]? := fun c => (List.getElem?_drop ..).symm
  simp only [hd, chunk, Finset.sum_range_succ, Finset.sum_range_zero]
  rcases xs.drop (4 * j) with _ | ⟨a, _ | ⟨b, _ | ⟨c, _ | ⟨d, rest⟩⟩⟩⟩ <;> simp [add_assoc]

/-- A node's value is the sum of its children's (R244). -/
theorem nodeVal_succ_sum (hagg : r.agg = 0) (xs : List NodeVal) (k j : Nat) :
    nodeVal r xs (k + 1) j = ∑ c ∈ Finset.range 4, nodeVal r xs k (4 * j + c) := by
  rw [nodeVal, levelAt, getElem?_levelUp]
  by_cases hj : 4 * j < (levelAt r xs k).length
  · rw [if_pos hj]
    exact (comb_sum hty hagg _).trans (sum_chunk _ _)
  · rw [if_neg hj]
    refine (Finset.sum_eq_zero fun c _ => ?_).symm
    rw [nodeVal, List.getElem?_eq_none (by omega)]; rfl

/-- The leaf values as a function, 0 past the end. -/
theorem nodeVal_eq_sum (hagg : r.agg = 0) (xs : List NodeVal) (k j : Nat) :
    nodeVal r xs k j = ∑ i ∈ Finset.Ico (j * 4 ^ k) ((j + 1) * 4 ^ k), nodeVal r xs 0 i := by
  induction k generalizing j with
  | zero => simp
  | succ k ih =>
    have hpow (c : Nat) : (4 * j + c) * 4 ^ k = j * 4 ^ (k + 1) + c * 4 ^ k := by rw [pow_succ]; ring
    rw [nodeVal_succ_sum hty hagg]
    simp only [Finset.sum_range_succ, Finset.sum_range_zero, zero_add, ih, add_assoc, Nat.reduceAdd]
    have hend : (j + 1) * 4 ^ (k + 1) = (4 * j + 4) * 4 ^ k := by rw [pow_succ]; ring
    have hstart : j * 4 ^ (k + 1) = (4 * j + 0) * 4 ^ k := by rw [pow_succ]; ring
    have hmono (a b : Nat) (h : a ≤ b) : (4 * j + a) * 4 ^ k ≤ (4 * j + b) * 4 ^ k := Nat.mul_le_mul_right _ (by omega)
    rw [hend, hstart, ← Finset.sum_Ico_consecutive _ (hmono 0 1 (by omega)) (hmono 1 4 (by omega)),
      ← Finset.sum_Ico_consecutive _ (hmono 1 2 (by omega)) (hmono 2 4 (by omega)),
      ← Finset.sum_Ico_consecutive _ (hmono 2 3 (by omega)) (hmono 3 4 (by omega))]

end

/-! ## Extremes -/

section
variable {r : Region} (hty : r.ty ≠ 0) (hagg : r.agg = 1)
include hty hagg

theorem comb_max {cs : List NodeVal} (h : cs ≠ []) : (∀ x ∈ cs, x.v ≤ (comb r cs).v) ∧ ∃ x ∈ cs, x.v = (comb r cs).v := by
  have h0 : ¬ r.agg = 0 := by omega
  have h3 : ¬ r.agg = 3 := by omega
  have hfold (xs : List NodeVal) (a : NodeVal) : ((∀ x ∈ a :: xs, x.v ≤ (xs.foldl (comb2 r) a).v) ∧ ∃ x ∈ a :: xs, x.v = (xs.foldl (comb2 r) a).v) := by
    induction xs generalizing a with
    | nil => simp
    | cons b xs ih =>
      obtain ⟨hall, x, hx, hv⟩ := ih (comb2 r a b)
      have hmax : (comb2 r a b).v = max a.v b.v := by rw [comb2, if_neg h3, if_neg hty, hagg]; rfl
      rw [List.foldl_cons]
      have hhead := hall _ (List.mem_cons_self ..)
      rw [hmax] at hhead
      refine ⟨fun y hy => ?_, ?_⟩
      · rcases List.mem_cons.mp hy with rfl | hy
        · exact (le_max_left ..).trans hhead
        rcases List.mem_cons.mp hy with rfl | hy
        · exact (le_max_right ..).trans hhead
        · exact hall y (List.mem_cons_of_mem _ hy)
      · rcases List.mem_cons.mp hx with rfl | hx
        · rcases max_choice a.v b.v with hc | hc
          · exact ⟨a, List.mem_cons_self .., by rw [← hv, hmax, hc]⟩
          · exact ⟨b, by simp, by rw [← hv, hmax, hc]⟩
        · exact ⟨x, by simp [hx], hv⟩
  rcases cs with _ | ⟨a, _ | ⟨b, rest⟩⟩
  · exact absurd rfl h
  · simp [comb, h0, h3]
  · have : comb r (a :: b :: rest) = (b :: rest).foldl (comb2 r) a := by simp [comb, h0]
    rw [this]
    exact hfold (b :: rest) a

/-- A node holds the greatest of the leaves below it (R244). -/
theorem nodeVal_max (xs : List NodeVal) (k : Nat) : ∀ j, j * 4 ^ k < xs.length →
    (∀ i, j * 4 ^ k ≤ i → i < min ((j + 1) * 4 ^ k) xs.length → nodeVal r xs 0 i ≤ nodeVal r xs k j) ∧
    ∃ i, j * 4 ^ k ≤ i ∧ i < min ((j + 1) * 4 ^ k) xs.length ∧ nodeVal r xs 0 i = nodeVal r xs k j := by
  induction k with
  | zero =>
    intro j hj
    refine ⟨fun i h1 h2 => ?_, j, by omega, by omega, rfl⟩
    obtain rfl : i = j := by omega
    exact le_rfl
  | succ k ih =>
    intro j hj
    have hpow (c : Nat) : (4 * j + c) * 4 ^ k = j * 4 ^ (k + 1) + c * 4 ^ k := by rw [pow_succ]; ring
    have hend : (j + 1) * 4 ^ (k + 1) = j * 4 ^ (k + 1) + 4 * 4 ^ k := by rw [pow_succ]; ring
    have hpos : 0 < 4 ^ k := Nat.pow_pos (by norm_num)
    have hlen : 4 * j < (levelAt r xs k).length := by
      rw [length_levelAt, lt_nodesAt]
      have h0 := hpow 0
      rw [Nat.add_zero, zero_mul, Nat.add_zero] at h0
      omega
    have hne : chunk (levelAt r xs k) j ≠ [] := by
      intro he
      have hin : 4 * j + 0 < (levelAt r xs k).length := hlen
      have h0 := getElem?_chunk (levelAt r xs k) j 0
      rw [he, if_pos (by norm_num), List.getElem?_eq_getElem hin] at h0
      cases h0
    have hval : nodeVal r xs (k + 1) j = (comb r (chunk (levelAt r xs k) j)).v := by rw [nodeVal, levelAt, getElem?_levelUp, if_pos hlen]; rfl
    obtain ⟨hall, x, hx, hxv⟩ := comb_max hty hagg hne
    have hchild {c : Nat} {x : NodeVal} (hc : (levelAt r xs k)[4 * j + c]? = some x) : x.v = nodeVal r xs k (4 * j + c) ∧ (4 * j + c) * 4 ^ k < xs.length := by
      refine ⟨by rw [nodeVal, hc]; rfl, ?_⟩
      have hlt := (List.getElem?_eq_some_iff.mp hc).1
      rwa [length_levelAt, lt_nodesAt] at hlt
    rw [hval]
    constructor
    · intro i h1 h2
      obtain ⟨c, hc4, hc1, hc2⟩ : ∃ c < 4, (4 * j + c) * 4 ^ k ≤ i ∧ i < (4 * j + c + 1) * 4 ^ k := by
        refine ⟨(i - j * 4 ^ (k + 1)) / 4 ^ k, ?_, ?_, ?_⟩
        · rw [Nat.div_lt_iff_lt_mul hpos]; omega
        · rw [hpow]
          have := Nat.div_mul_le_self (i - j * 4 ^ (k + 1)) (4 ^ k)
          omega
        · have := Nat.lt_div_mul_add hpos (a := i - j * 4 ^ (k + 1))
          have := hpow ((i - j * 4 ^ (k + 1)) / 4 ^ k)
          rw [add_mul]
          omega
      have hlt : (4 * j + c) * 4 ^ k < xs.length := by omega
      have hin : 4 * j + c < (levelAt r xs k).length := by rw [length_levelAt, lt_nodesAt]; exact hlt
      have hsome := List.getElem?_eq_getElem hin
      exact ((ih _ hlt).1 i hc1 (by omega)).trans ((hchild hsome).1 ▸ hall _ (mem_chunk.mpr ⟨c, hc4, hsome⟩))
    · obtain ⟨c, hc4, hc⟩ := mem_chunk.mp hx
      obtain ⟨hv, hlt⟩ := hchild hc
      obtain ⟨-, i, h1, h2, h3⟩ := ih _ hlt
      have hle : (4 * j + c + 1) * 4 ^ k ≤ (j + 1) * 4 ^ (k + 1) := by
        have := Nat.mul_le_mul_right (4 ^ k) (show c + 1 ≤ 4 by omega)
        rw [show 4 * j + c + 1 = 4 * j + (c + 1) by omega, hpow, hend]; omega
      have := hpow c
      exact ⟨i, by omega, by omega, by rw [h3, ← hv, hxv]⟩

end

end Sys2Proof.Machine
end

section
/-! PROOFS. The cover of a range, its sum, and the walk of LDPFX (R260, R262, R263). -/

namespace Sys2Proof.Machine

/-! ## The cover tiles the range -/

/-- Nodes that lie one after the other from i to hi (R260). -/
def Tiles (n top hi : Nat) : Nat → List (Nat × Nat) → Prop
  | i, [] => hi ≤ i
  | i, p :: ps => i < hi ∧ p.1 ≤ top ∧ p.2 * 4 ^ p.1 = i ∧ min (i + 4 ^ p.1) n ≤ hi ∧ Tiles n top hi (min (i + 4 ^ p.1) n) ps

theorem coverLevel_spec {n hi i : Nat} (hin : i < hi) (k : Nat) : coverLevel n hi i k ≤ k ∧ 4 ^ coverLevel n hi i k ∣ i ∧
    min (i + 4 ^ coverLevel n hi i k) n ≤ hi ∧ ∀ m ≤ k, 4 ^ m ∣ i → min (i + 4 ^ m) n ≤ hi → m ≤ coverLevel n hi i k := by
  induction k with
  | zero => exact ⟨le_rfl, by simp [coverLevel], by simp [coverLevel]; omega, fun m hm _ _ => hm⟩
  | succ k ih =>
    rw [coverLevel]
    split
    · next h => exact ⟨le_rfl, Nat.dvd_of_mod_eq_zero h.1, h.2, fun m hm _ _ => hm⟩
    · next h =>
      obtain ⟨h1, h2, h3, h4⟩ := ih
      refine ⟨by omega, h2, h3, fun m hm hd hf => ?_⟩
      rcases Nat.lt_or_eq_of_le hm with hlt | rfl
      · exact h4 m (by omega) hd hf
      · exact absurd ⟨Nat.mod_eq_zero_of_dvd hd, hf⟩ h

section
variable {n top hi : Nat} (hn : hi ≤ n)
include hn

omit hn in
theorem tiles_done {f i : Nat} (h : hi ≤ i) : Tiles n top hi i (coverGo n top hi f i) := by
  cases f with
  | zero => exact h
  | succ f => rw [coverGo, if_neg (by omega)]; exact h

/-- One more node of the cover: at least as high as any that is aligned and fits. -/
theorem tiles_step {f i K : Nat} (hin : i < hi) (hK : K ≤ top) (hd : 4 ^ K ∣ i) (hfit : i + 4 ^ K ≤ hi)
    (hnext : ∀ k, K ≤ k → 4 ^ k ∣ i → i + 4 ^ k ≤ hi → Tiles n top hi (i + 4 ^ k) (coverGo n top hi f (i + 4 ^ k))) :
    Tiles n top hi i (coverGo n top hi (f + 1) i) := by
  obtain ⟨h1, h2, h3, h4⟩ := coverLevel_spec (n := n) hin top
  have hge := h4 K hK hd ((Nat.min_le_left ..).trans hfit)
  rw [coverGo, if_pos hin]
  refine ⟨hin, h1, Nat.div_mul_cancel h2, h3, ?_⟩
  by_cases hlt : i + 4 ^ coverLevel n hi i top < n
  · rw [Nat.min_eq_left hlt.le] at h3 ⊢
    exact hnext _ hge h2 h3
  · exact tiles_done ((hn).trans (Nat.min_eq_right (not_lt.mp hlt)).ge)

/-- Where less than four nodes of the level are left, each level gives at most three. -/
theorem tiles_down (K : Nat) : ∀ c f i, K ≤ top → 4 ^ K ∣ i → hi < i + (c + 1) * 4 ^ K → c ≤ 3 → c + 3 * K ≤ f →
    Tiles n top hi i (coverGo n top hi f i) := by
  induction K with
  | zero =>
    intro c
    induction c with
    | zero => exact fun f i _ _ hlt _ _ => tiles_done (by simpa using hlt)
    | succ c ihc =>
      intro f i hK hd hlt hc hf
      by_cases hin : i < hi
      · obtain ⟨f, rfl⟩ : ∃ m, f = m + 1 := ⟨f - 1, by omega⟩
        refine tiles_step hn hin hK hd (by simpa using hin) fun k _ hdk hfit => ?_
        have hk : 4 ^ k < 4 ^ 1 := by simp only [pow_zero, mul_one] at hlt; omega
        obtain rfl : k = 0 := by have := (Nat.pow_lt_pow_iff_right (by norm_num)).mp hk; omega
        exact ihc f _ hK (by simp) (by simp only [pow_zero, mul_one] at hlt ⊢; omega) (by omega) (by omega)
      · exact tiles_done (by omega)
  | succ K ihK =>
    intro c
    induction c with
    | zero =>
      intro f i hK hd hlt _ hf
      refine ihK 3 f i (by omega) ((pow_dvd_pow 4 (Nat.le_succ K)).trans hd) ?_ le_rfl (by omega)
      rw [pow_succ] at hlt; omega
    | succ c ihc =>
      intro f i hK hd hlt hc hf
      by_cases hfit : i + 4 ^ (K + 1) ≤ hi
      · obtain ⟨f, rfl⟩ : ∃ m, f = m + 1 := ⟨f - 1, by omega⟩
        have hpos : 0 < 4 ^ (K + 1) := Nat.pow_pos (by norm_num)
        refine tiles_step hn (by omega) hK hd hfit fun k hge hdk hfk => ?_
        have hk : 4 ^ k < 4 ^ (K + 2) := by
          have : (c + 1 + 1) * 4 ^ (K + 1) ≤ 4 * 4 ^ (K + 1) := Nat.mul_le_mul_right _ (by omega)
          rw [pow_succ 4 (K + 1)]; omega
        obtain rfl : k = K + 1 := by have := (Nat.pow_lt_pow_iff_right (by norm_num)).mp hk; omega
        refine ihc f _ hK (Dvd.dvd.add hd (dvd_refl _)) ?_ (by omega) (by omega)
        rw [Nat.add_mul (c + 1) 1] at hlt; omega
      · refine ihK 3 f i (by omega) ((pow_dvd_pow 4 (Nat.le_succ K)).trans hd) ?_ le_rfl (by omega)
        rw [pow_succ] at hfit; omega

/-- Until the index is aligned to a higher level, each level gives at most three. -/
theorem tiles_up (htop : hi ≤ 4 ^ top) (d : Nat) : ∀ K c f i m, K + d = top → i + c * 4 ^ K = m * 4 ^ (K + 1) → c ≤ 3 →
    c + 3 * d + 3 * top + 3 ≤ f → Tiles n top hi i (coverGo n top hi f i) := by
  have hdvd {K c i m : Nat} (h : i + c * 4 ^ K = m * 4 ^ (K + 1)) : 4 ^ K ∣ i :=
    (Nat.dvd_add_left (Dvd.intro_left c rfl)).mp (h ▸ ((pow_dvd_pow 4 (Nat.le_succ K)).trans (Dvd.intro_left m rfl)))
  induction d with
  | zero =>
    intro K c f i m hK hm hc hf
    obtain rfl : K = top := by omega
    exact tiles_down hn K 3 f i le_rfl (hdvd hm) (by have : 0 < 4 ^ K := Nat.pow_pos (by norm_num); omega) le_rfl (by omega)
  | succ d ihd =>
    intro K c
    induction c with
    | zero =>
      intro f i m hK hm _ hf
      rw [zero_mul, Nat.add_zero] at hm
      refine ihd (K + 1) ((4 - m % 4) % 4) f i ((m + (4 - m % 4) % 4) / 4) (by omega) ?_ (by omega) (by omega)
      rw [hm, ← add_mul, pow_succ 4 (K + 1), mul_comm (4 ^ (K + 1)) 4, ← mul_assoc]
      congr 1
      omega
    | succ c ihc =>
      intro f i m hK hm hc hf
      by_cases hin : i < hi
      · by_cases hlast : hi < i + (3 + 1) * 4 ^ K
        · exact tiles_down hn K 3 f i (by omega) (hdvd hm) hlast le_rfl (by omega)
        · obtain ⟨f, rfl⟩ : ∃ m, f = m + 1 := ⟨f - 1, by omega⟩
          have hpos : 0 < 4 ^ K := Nat.pow_pos (by norm_num)
          refine tiles_step hn hin (by omega) (hdvd hm) (by omega) fun k hge hdk hfk => ?_
          obtain rfl : k = K := by
            by_contra hne
            have h1 : 4 ^ (K + 1) ∣ i := (pow_dvd_pow 4 (by omega)).trans hdk
            have h2 : 4 ^ (K + 1) ∣ (c + 1) * 4 ^ K := (Nat.dvd_add_right h1).mp (hm ▸ Dvd.intro_left m rfl)
            rw [pow_succ, mul_comm (c + 1)] at h2
            have h3 := Nat.dvd_of_mul_dvd_mul_left hpos h2
            omega
          refine ihc f _ m hK ?_ (by omega) (by omega)
          rw [← hm]; ring
      · exact tiles_done (by omega)

end

/-- The cover of a range tiles it (R260). -/
theorem Built.tiles {r : Region} (h : Built r) {lo hi : Nat} (hhi : hi ≤ r.n) : Tiles r.n (Region.top r) hi lo (cover r lo hi) := by
  have htop := h.top_le
  exact tiles_up hhi (hhi.trans h.le_top) (Region.top r) 0 ((4 - lo % 4) % 4) 128 lo ((lo + (4 - lo % 4) % 4) / 4) (Nat.zero_add _)
    (by simp only [pow_zero, mul_one, Nat.zero_add, pow_one]; omega) (by omega) (by omega)

/-! ## Sums of ranges -/

/-- Leaf values from lo on, up to t. -/
def leafSum (r : Region) (lo t : Nat) : Int := ∑ i ∈ Finset.Ico lo t, nodeVal r r.leaves 0 i

section
variable {r : Region} (h : Built r) (hty : r.ty ≠ 0) (hagg : r.agg = 0)
include h hty hagg

omit hty hagg in
theorem leafSum_min (lo t : Nat) : leafSum r lo (min t r.n) = leafSum r lo t := by
  by_cases hle : t ≤ r.n
  · rw [Nat.min_eq_left hle]
  · rw [Nat.min_eq_right (by omega)]
    refine Finset.sum_subset (Finset.Ico_subset_Ico_right (by omega)) fun i hi hni => ?_
    have hge : r.leaves.length ≤ i := by
      rw [h.leaves]
      simp only [Finset.mem_Ico] at hi hni
      omega
    simp [nodeVal, levelAt, List.getElem?_eq_none hge]

omit h in
theorem leafSum_node {lo k j : Nat} (hlo : lo ≤ j * 4 ^ k) : leafSum r lo (j * 4 ^ k) + nodeVal r r.leaves k j = leafSum r lo ((j + 1) * 4 ^ k) := by
  rw [nodeVal_eq_sum hty hagg]
  exact Finset.sum_Ico_consecutive _ hlo (Nat.mul_le_mul_right _ (Nat.le_succ j))

omit h hty hagg in
theorem tile_end {i k j : Nat} (hj : j * 4 ^ k = i) : (j + 1) * 4 ^ k = i + 4 ^ k := by rw [add_mul, one_mul, hj]

/-- The running sum over nodes in order (R260). -/
theorem foldl_sumAdd {lo hi : Nat} (hhi : hi ≤ r.n) : ∀ {ps : List (Nat × Nat)} {i : Nat}, lo ≤ i → i ≤ hi → Tiles r.n (Region.top r) hi i ps →
    ps.foldl (fun a q => sumAdd r a (nodeAt r q.1 q.2).v) (leafSum r lo i) = leafSum r lo hi
  | [], i, _, hle, ht => by
    obtain rfl : i = hi := Nat.le_antisymm hle ht
    rfl
  | p :: ps, i, hlo, hle, ht => by
    obtain ⟨hin, htop, hj, hend, hrest⟩ := ht
    rw [List.foldl_cons, sumAdd, if_neg hty, h.nodeAt_v htop]
    have hsum : leafSum r lo i + nodeVal r r.leaves p.1 p.2 = leafSum r lo (min (i + 4 ^ p.1) r.n) := by
      rw [leafSum_min h, ← tile_end hj, ← leafSum_node hty hagg (by omega), hj]
    rw [hsum]
    exact foldl_sumAdd hhi (le_min (hlo.trans (Nat.le_add_right ..)) (by omega)) hend hrest

theorem rangeSum_eq {lo hi : Nat} (hle : lo ≤ hi) (hhi : hi ≤ r.n) : rangeSum r lo hi = leafSum r lo hi := by
  have ht := h.tiles (lo := lo) hhi
  have hfold := foldl_sumAdd h hty hagg hhi le_rfl hle ht
  rw [rangeSum]
  cases hc : cover r lo hi with
  | nil =>
    rw [hc] at hfold
    rw [← hfold]
    simp [leafSum]
  | cons p ps =>
    rw [hc] at hfold
    rw [← hfold, List.foldl_cons]
    simp [leafSum, sumAdd, hty]

/-! ## The walk of LDPFX -/

omit h hty hagg in
/-- The children of a node that exist, in order. -/
theorem children_eq (N j : Nat) : (((List.range 4).map (4 * j + ·)).filter fun c => decide (c < N)) = List.range' (4 * j) (min 4 (N - 4 * j)) := by
  obtain hm | hm | hm | hm | hm : N ≤ 4 * j ∨ N = 4 * j + 1 ∨ N = 4 * j + 2 ∨ N = 4 * j + 3 ∨ 4 * j + 4 ≤ N := by omega
  · rw [show min 4 (N - 4 * j) = 0 by omega]
    have h0 : ¬ 4 * j < N := by omega
    have h1 : ¬ 4 * j + 1 < N := by omega
    have h2 : ¬ 4 * j + 2 < N := by omega
    have h3 : ¬ 4 * j + 3 < N := by omega
    simp [List.range_succ, h0, h1, h2, h3]
  · subst hm; simp [List.range_succ]
  · subst hm; simp [List.range_succ, List.range']
  · subst hm; simp [List.range_succ, List.range']
  · rw [show min 4 (N - 4 * j) = 4 by omega]
    have h0 : 4 * j < N := by omega
    have h1 : 4 * j + 1 < N := by omega
    have h2 : 4 * j + 2 < N := by omega
    have h3 : 4 * j + 3 < N := by omega
    simp [List.range_succ, List.range', h0, h1, h2, h3]

theorem firstOver_spec {x : Int} {lo k : Nat} (hk : k ≤ Region.top r) : ∀ m s, lo ≤ s * 4 ^ k → leafSum r lo (s * 4 ^ k) ≤ x →
    match firstOver r k x (List.range' s m) (leafSum r lo (s * 4 ^ k)) with
    | none => leafSum r lo ((s + m) * 4 ^ k) ≤ x
    | some (c, b) => s ≤ c ∧ c < s + m ∧ b = leafSum r lo (c * 4 ^ k) ∧ b ≤ x ∧ x < leafSum r lo ((c + 1) * 4 ^ k)
  | 0, s, _, hx => hx
  | m + 1, s, hlo, hx => by
    have hadd : sumAdd r (leafSum r lo (s * 4 ^ k)) (nodeAt r k s).v = leafSum r lo ((s + 1) * 4 ^ k) := by
      rw [sumAdd, if_neg hty, h.nodeAt_v hk, leafSum_node hty hagg hlo]
    rw [List.range'_succ, firstOver, hadd]
    have hgt : sumGt r (leafSum r lo ((s + 1) * 4 ^ k)) x = true ↔ x < leafSum r lo ((s + 1) * 4 ^ k) := by simp [sumGt, hty]
    by_cases hover : x < leafSum r lo ((s + 1) * 4 ^ k)
    · rw [if_pos (hgt.mpr hover)]
      exact ⟨le_rfl, by omega, rfl, hx, hover⟩
    · rw [if_neg fun hc => hover (hgt.mp hc)]
      have hrest := firstOver_spec hk m (s + 1) (hlo.trans (Nat.mul_le_mul_right _ (Nat.le_succ s))) (not_lt.mp hover)
      split
      · next heq => rw [heq] at hrest; rw [show s + (m + 1) = s + 1 + m by omega]; exact hrest
      · next c b heq =>
        rw [heq] at hrest
        obtain ⟨h1, h2, h3⟩ := hrest
        exact ⟨by omega, by omega, h3⟩

/-- The walk into a node finds the least index at which the running sum exceeds the bound (R262). -/
theorem intoNode_spec {x : Int} {lo : Nat} : ∀ k j, k ≤ Region.top r → lo ≤ j * 4 ^ k → leafSum r lo (j * 4 ^ k) ≤ x →
    x < leafSum r lo ((j + 1) * 4 ^ k) → ∃ q, intoNode r x k j (leafSum r lo (j * 4 ^ k)) = some q ∧ j * 4 ^ k ≤ q ∧ q < (j + 1) * 4 ^ k ∧
      leafSum r lo q ≤ x ∧ x < leafSum r lo (q + 1)
  | 0, j, _, hlo, h1, h2 => ⟨j, rfl, by simp, by simp, by simpa using h1, by simpa using h2⟩
  | k + 1, j, hk, hlo, h1, h2 => by
    have hpow (t : Nat) : t * 4 ^ (k + 1) = 4 * t * 4 ^ k := by rw [pow_succ]; ring
    have hbelow := counts_below k hk
    have hspec := firstOver_spec h hty hagg (x := x) (lo := lo) (k := k) (by omega) (min 4 (nodesAt r.n k - 4 * j)) (4 * j) (by rw [← hpow]; exact hlo)
      (by rw [← hpow]; exact h1)
    rw [intoNode, hbelow, children_eq, hpow]
    split
    · next c b heq =>
      rw [heq] at hspec
      obtain ⟨hs, hlt, rfl, hb, hover⟩ := hspec
      obtain ⟨q, hq, hq1, hq2, hq3⟩ := intoNode_spec k c (by omega) (((hpow j ▸ hlo)).trans (Nat.mul_le_mul_right _ hs)) hb hover
      refine ⟨q, hq, (Nat.mul_le_mul_right _ hs).trans hq1, hq2.trans_le ?_, hq3⟩
      rw [hpow]
      exact Nat.mul_le_mul_right _ (by omega)
    · next heq =>
      rw [heq] at hspec
      refine absurd h2 (not_lt.mpr ?_)
      have hall : leafSum r lo ((4 * j + min 4 (nodesAt r.n k - 4 * j)) * 4 ^ k) = leafSum r lo ((j + 1) * 4 ^ (k + 1)) := by
        by_cases hfull : 4 * j + 4 ≤ nodesAt r.n k
        · rw [show 4 * j + min 4 (nodesAt r.n k - 4 * j) = 4 * (j + 1) by omega, hpow]
        · have hn : r.n ≤ (4 * j + min 4 (nodesAt r.n k - 4 * j)) * 4 ^ k := by
            rw [← Nat.not_lt, ← lt_nodesAt]; omega
          have hle : (4 * j + min 4 (nodesAt r.n k - 4 * j)) * 4 ^ k ≤ (j + 1) * 4 ^ (k + 1) := by
            rw [hpow]; exact Nat.mul_le_mul_right _ (by omega)
          have hlo' : lo ≤ (4 * j + min 4 (nodesAt r.n k - 4 * j)) * 4 ^ k := by
            rw [hpow] at hlo; exact hlo.trans (Nat.mul_le_mul_right _ (by omega))
          rw [← leafSum_min h lo ((4 * j + _) * _), ← leafSum_min h lo ((j + 1) * _), Nat.min_eq_right hn, Nat.min_eq_right (hn.trans hle)]
      rw [← hall]; exact hspec

/-- The walk over a cover (R262). -/
theorem descendGo_spec {x : Int} {lo hi : Nat} (hhi : hi ≤ r.n) : ∀ {ps : List (Nat × Nat)} {i : Nat}, lo ≤ i → i ≤ hi →
    Tiles r.n (Region.top r) hi i ps → leafSum r lo i ≤ x →
    match descendGo r x ps (leafSum r lo i) with
    | none => leafSum r lo hi ≤ x
    | some q => lo ≤ q ∧ q < hi ∧ leafSum r lo q ≤ x ∧ x < leafSum r lo (q + 1)
  | [], i, _, hle, ht, hx => by
    obtain rfl : i = hi := Nat.le_antisymm hle ht
    exact hx
  | p :: ps, i, hlo, hle, ht, hx => by
    obtain ⟨hin, htop, hj, hend, hrest⟩ := ht
    have hnode : leafSum r lo i + nodeVal r r.leaves p.1 p.2 = leafSum r lo ((p.2 + 1) * 4 ^ p.1) := by
      rw [← leafSum_node hty hagg (by omega), hj]
    have hmin : leafSum r lo (min (i + 4 ^ p.1) r.n) = leafSum r lo ((p.2 + 1) * 4 ^ p.1) := by rw [leafSum_min h, ← tile_end hj]
    have hadd : sumAdd r (leafSum r lo i) (nodeAt r p.1 p.2).v = leafSum r lo ((p.2 + 1) * 4 ^ p.1) := by
      rw [sumAdd, if_neg hty, h.nodeAt_v htop, hnode]
    have hgt : sumGt r (leafSum r lo ((p.2 + 1) * 4 ^ p.1)) x = true ↔ x < leafSum r lo ((p.2 + 1) * 4 ^ p.1) := by simp [sumGt, hty]
    rw [descendGo]
    simp only [hadd]
    by_cases hover : x < leafSum r lo ((p.2 + 1) * 4 ^ p.1)
    · rw [if_pos (hgt.mpr hover)]
      obtain ⟨q, hq, hq1, hq2, hq3, hq4⟩ := intoNode_spec h hty hagg (x := x) (lo := lo) p.1 p.2 htop (by omega) (by rw [hj]; exact hx) hover
      rw [hj] at hq
      rw [hq]
      refine ⟨by omega, ?_, hq3, hq4⟩
      by_contra hge
      have hqn : leafSum r lo (q + 1) = leafSum r lo q := by
        have hqend : r.n ≤ q := by
          rw [tile_end hj] at hq2
          omega
        rw [← leafSum_min h lo (q + 1), ← leafSum_min h lo q, Nat.min_eq_right hqend, Nat.min_eq_right (by omega)]
      omega
    · rw [if_neg fun hc => hover (hgt.mp hc), ← hmin]
      exact descendGo_spec hhi (le_min (hlo.trans (Nat.le_add_right ..)) (by omega)) hend hrest (hmin ▸ not_lt.mp hover)

/-- LDPFX answers the least index at which the running sum exceeds its bound, or the end of the range (R263). -/
theorem descend_spec (hpos : ∀ j, 0 ≤ nodeVal r r.leaves 0 j) {lo hi : Nat} {x : Int} (hle : lo ≤ hi) (hhi : hi ≤ r.n) (hx : 0 ≤ x) :
    (x < leafSum r lo hi → lo ≤ (descend r lo hi x).getD hi ∧ (descend r lo hi x).getD hi < hi ∧ leafSum r lo ((descend r lo hi x).getD hi) ≤ x ∧
      x < leafSum r lo ((descend r lo hi x).getD hi + 1)) ∧ (leafSum r lo hi ≤ x → (descend r lo hi x).getD hi = hi) := by
  have hzero : leafSum r lo lo = 0 := by simp [leafSum]
  have hspec := descendGo_spec h hty hagg hhi le_rfl hle (h.tiles hhi) (hzero ▸ hx)
  rw [hzero] at hspec
  rw [descend]
  cases hd : descendGo r x (cover r lo hi) 0 with
  | none =>
    rw [hd] at hspec
    exact ⟨fun hc => absurd hspec (not_le.mpr hc), fun _ => rfl⟩
  | some q =>
    rw [hd] at hspec
    obtain ⟨h1, h2, h3, h4⟩ := hspec
    refine ⟨fun _ => ⟨h1, h2, h3, h4⟩, fun hc => ?_⟩
    have hmono : leafSum r lo (q + 1) ≤ leafSum r lo hi :=
      Finset.sum_le_sum_of_subset_of_nonneg (Finset.Ico_subset_Ico_right h2) fun i _ _ => hpos i
    omega

end

end Sys2Proof.Machine
end

section
/-! PROOFS. One record applied to a tree of integers (R252). -/

namespace Sys2Proof.Machine

/-- The values of some nodes. -/
def vals (l : List NodeVal) : List Int := l.map (·.v)

theorem getElem?_vals (l : List NodeVal) (j : Nat) : (vals l)[j]? = (l[j]?).map (·.v) := List.getElem?_map ..

@[simp] theorem length_vals (l : List NodeVal) : (vals l).length = l.length := List.length_map ..

theorem levelAt_succ (r : Region) (xs : List NodeVal) (k : Nat) : levelAt r xs (k + 1) = levelUp r (levelAt r xs k) := rfl

theorem vals_chunk (xs : List NodeVal) (j : Nat) : vals (chunk xs j) = ((vals xs).drop (4 * j)).take 4 := by
  rw [vals, vals, chunk, List.map_take, List.map_drop]

section
variable {r : Region} (hty : r.ty ≠ 0) (hagg : r.agg ≠ 3)
include hty hagg

theorem foldl_comb2_v {xs : List NodeVal} : ∀ {ys : List NodeVal} {a b : NodeVal}, a.v = b.v → vals xs = vals ys →
    (xs.foldl (comb2 r) a).v = (ys.foldl (comb2 r) b).v := by
  induction xs with
  | nil =>
    intro ys a b hab hxy
    obtain rfl : ys = [] := List.map_eq_nil_iff.mp hxy.symm
    exact hab
  | cons x xs ih =>
    intro ys a b hab hxy
    obtain ⟨y, ys, rfl⟩ := List.exists_cons_of_ne_nil (l := ys) fun hnil => by rw [hnil] at hxy; cases hxy
    obtain ⟨hx, hxs⟩ := List.cons.inj hxy
    have hv : x.v = y.v := hx
    have hcomb : (comb2 r a x).v = (comb2 r b y).v := by simp only [comb2, if_neg hty, if_neg hagg, hab, hv]
    rw [List.foldl_cons, List.foldl_cons]
    exact ih hcomb hxs

omit hty in
theorem comb_v_cons (h0 : r.agg ≠ 0) (a : NodeVal) (cs : List NodeVal) : (comb r (a :: cs)).v = (cs.foldl (comb2 r) a).v := by
  cases cs <;> simp [comb, h0, hagg]

/-- What children combine to depends on their values alone. -/
theorem comb_v_congr {cs ds : List NodeVal} (h : vals cs = vals ds) : (comb r cs).v = (comb r ds).v := by
  by_cases h0 : r.agg = 0
  · rw [comb_sum hty h0, comb_sum hty h0]
    exact congrArg List.sum h
  · cases cs with
    | nil =>
      obtain rfl : ds = [] := List.map_eq_nil_iff.mp h.symm
      rfl
    | cons a cs =>
      obtain ⟨b, ds, rfl⟩ := List.exists_cons_of_ne_nil (l := ds) fun hnil => by rw [hnil] at h; cases h
      obtain ⟨hab, hrest⟩ := List.cons.inj h
      rw [comb_v_cons hagg h0, comb_v_cons hagg h0]
      exact foldl_comb2_v hty hagg hab hrest

variable {xs : List NodeVal} {e : Nat} {x : NodeVal}

/-- A record's leaf changes the nodes of its path alone. -/
theorem vals_off_path (k : Nat) : ∀ j, j ≠ e / 4 ^ k → (vals (levelAt r (setAt xs e x) k))[j]? = (vals (levelAt r xs k))[j]? := by
  induction k with
  | zero =>
    intro j hj
    rw [pow_zero, Nat.div_one] at hj
    rw [getElem?_vals, getElem?_vals, levelAt, levelAt, getElem?_setAt, if_neg hj]
  | succ k ih =>
    intro j hj
    have hchild : ∀ c, c < 4 → 4 * j + c ≠ e / 4 ^ k := by
      rintro c hc he
      rw [pow_succ, ← Nat.div_div_eq_div_mul, ← he] at hj
      omega
    have hlen : (levelAt r (setAt xs e x) k).length = (levelAt r xs k).length := by rw [length_levelAt, length_levelAt, length_setAt]
    have hchunk : vals (chunk (levelAt r (setAt xs e x) k) j) = vals (chunk (levelAt r xs k) j) := by
      rw [vals_chunk, vals_chunk]
      refine List.ext_getElem? fun c => ?_
      rw [List.getElem?_take, List.getElem?_take]
      refine ite_congr rfl (fun hc => ?_) fun _ => rfl
      rw [List.getElem?_drop, List.getElem?_drop, ih _ (hchild c hc)]
    rw [getElem?_vals, getElem?_vals, levelAt, levelAt, getElem?_levelUp, getElem?_levelUp, hlen]
    split
    · exact congrArg some (comb_v_congr hty hagg hchunk)
    · rfl

/-- One recomputed node makes its level that of the new leaves. -/
theorem vals_recomputed {k : Nat} {l cs : List NodeVal} (hl : vals l = vals (levelAt r xs (k + 1)))
    (hcs : vals cs = vals (chunk (levelAt r (setAt xs e x) k) (e / 4 ^ (k + 1)))) :
    vals (setAt l (e / 4 ^ (k + 1)) (comb r cs)) = vals (levelAt r (setAt xs e x) (k + 1)) := by
  have hlen : l.length = (levelAt r (setAt xs e x) (k + 1)).length := by
    rw [length_levelAt, length_setAt, ← length_levelAt r, ← length_vals, hl, length_vals]
  refine List.ext_getElem? fun j => ?_
  by_cases hj : j = e / 4 ^ (k + 1)
  · rw [getElem?_vals, getElem?_setAt, if_pos hj, getElem?_vals, Option.map_map]
    by_cases hin : j < l.length
    · have hup := List.getElem?_eq_getElem (hlen ▸ hin)
      have hlt : 4 * j < (levelAt r (setAt xs e x) k).length := by
        by_contra hge
        rw [levelAt_succ, length_levelUp] at hlen
        omega
      rw [List.getElem?_eq_getElem hin, levelAt_succ, getElem?_levelUp, if_pos hlt]
      exact congrArg some (comb_v_congr hty hagg (hj ▸ hcs))
    · rw [List.getElem?_eq_none (by omega), List.getElem?_eq_none (by omega)]; rfl
  · rw [vals_off_path hty hagg _ _ hj, ← hl, getElem?_vals, getElem?_vals, getElem?_setAt, if_neg hj]

end

/-- A tree whose lowest m levels are those of some leaves, and the others those of the leaves before. -/
structure Recomputed (r : Region) (xs ys : List NodeVal) (m : Nat) (ls : List (List NodeVal)) : Prop where
  count : ls.length = Region.top r
  level : ∀ i l, ls[i]? = some l → vals l = vals (levelAt r (if i < m then ys else xs) (i + 1))

theorem levelAt_congr {r r' : Region} (ha : r'.agg = r.agg) (ht : r'.ty = r.ty) (xs : List NodeVal) (k : Nat) : levelAt r' xs k = levelAt r xs k := by
  induction k with
  | zero => rfl
  | succ k ih => rw [levelAt, ih, levelUp_congr ha ht]; rfl

theorem Recomputed.congr {r r' : Region} {xs ys : List NodeVal} {m : Nat} {ls : List (List NodeVal)} (h : Recomputed r xs ys m ls)
    (ha : r'.agg = r.agg) (ht : r'.ty = r.ty) (hn : r'.n = r.n) : Recomputed r' xs ys m ls where
  count := by rw [h.count, Region.top, Region.top, Region.counts, Region.counts, hn]
  level i l hl := by rw [levelAt_congr ha ht]; exact h.level i l hl

theorem getElem?_modAt_of {α : Type} {l : List α} {n i : Nat} {f : α → α} {y : α} (h : (modAt l n f)[i]? = some y) :
    (i = n ∧ ∃ x, l[n]? = some x ∧ y = f x) ∨ (i ≠ n ∧ l[i]? = some y) := by
  by_cases hi : i = n
  · subst hi
    rw [getElem?_modAt_self] at h
    obtain ⟨x, hx, rfl⟩ := Option.map_eq_some_iff.mp h
    exact .inl ⟨rfl, x, hx, rfl⟩
  · rw [getElem?_modAt_ne _ _ hi] at h
    exact .inr ⟨hi, h⟩

section
variable {r : Region} (hty : r.ty ≠ 0) (hagg : r.agg ≠ 3) {xs : List NodeVal} {e : Nat} {x : NodeVal}
include hty hagg

/-- The path's node of one more level is recomputed. -/
theorem Recomputed.next {k : Nat} {ls : List (List NodeVal)} {cs : List NodeVal} (h : Recomputed r xs (setAt xs e x) k ls)
    (hcs : vals cs = vals (chunk (levelAt r (setAt xs e x) k) (e / 4 ^ (k + 1)))) :
    Recomputed r xs (setAt xs e x) (k + 1) (modAt ls k fun l => setAt l (e / 4 ^ (k + 1)) (comb r cs)) where
  count := by rw [length_modAt]; exact h.count
  level i l hl := by
    rcases getElem?_modAt_of hl with ⟨rfl, l0, hl0, rfl⟩ | ⟨hne, hl0⟩
    · have hold := h.level i l0 hl0
      rw [if_neg (Nat.lt_irrefl i)] at hold
      rw [if_pos (Nat.lt_succ_self i)]
      exact vals_recomputed hty hagg hold hcs
    · rw [h.level i l hl0]
      congr 2
      exact if_congr (by omega) rfl rfl

/-- The nodes of the path are recomputed one after the other (R252). -/
theorem recomputeUp_spec (f : Nat) : ∀ (k : Nat) (ls : List (List NodeVal)), Region.top r + 1 ≤ f + (k + 2) → Recomputed r xs (setAt xs e x) (k + 1) ls →
    ∃ ls', recomputeUp { r with levels := ls } e f (k + 2) = { r with levels := ls' } ∧ Recomputed r xs (setAt xs e x) (Region.top r) ls' := by
  have hdone (k : Nat) (ls : List (List NodeVal)) (hk : Region.top r < k + 2) (h : Recomputed r xs (setAt xs e x) (k + 1) ls) :
      Recomputed r xs (setAt xs e x) (Region.top r) ls := by
    refine ⟨h.count, fun i l hl => ?_⟩
    have hi := (List.getElem?_eq_some_iff.mp hl).1
    rw [h.count] at hi
    rw [h.level i l hl, if_pos (by omega), if_pos hi]
  induction f with
  | zero => exact fun k ls hf h => ⟨ls, rfl, hdone k ls (by omega) h⟩
  | succ f ih =>
    intro k ls hf h
    by_cases htop : Region.top r < k + 2
    · exact ⟨ls, by rw [recomputeUp]; exact if_pos htop, hdone k ls htop h⟩
    · have hk : k < ls.length := by rw [h.count]; omega
      have hbelow := h.level k ls[k] (List.getElem?_eq_getElem hk)
      rw [if_pos (Nat.lt_succ_self k)] at hbelow
      have hstep : recomputeUp { r with levels := ls } e (f + 1) (k + 2) =
          recomputeUp { r with levels := modAt ls (k + 1) fun l => setAt l (e / 4 ^ (k + 2)) (comb r (chunk ls[k] (e / 4 ^ (k + 2)))) } e f (k + 3) := by
        have hchild : childVals { r with levels := ls } (k + 2) (e / 4 ^ (k + 2)) = chunk ls[k] (e / 4 ^ (k + 2)) := by
          have hlevel : (if k + 2 ≤ 1 then r.leaves else ((ls[k + 2 - 2]?).getD [])) = ls[k] := by
            rw [if_neg (by omega), Nat.add_sub_cancel, List.getElem?_eq_getElem hk]; rfl
          rw [childVals]
          simp only [hlevel, chunk]
          have hd : ∀ c, ls[k][4 * (e / 4 ^ (k + 2)) + c]? = (ls[k].drop (4 * (e / 4 ^ (k + 2))))[c]? := fun c => (List.getElem?_drop ..).symm
          simp only [hd]
          rcases ls[k].drop (4 * (e / 4 ^ (k + 2))) with _ | ⟨a, _ | ⟨b, _ | ⟨c, _ | ⟨d, rest⟩⟩⟩⟩ <;> rfl
        rw [recomputeUp]
        refine (if_neg htop).trans ?_
        simp only [hchild]
        rw [comb_congr (r := r) rfl rfl]
        rfl
      rw [hstep]
      refine ih (k + 1) _ (by omega) (h.next hty hagg ?_)
      rw [vals_chunk, vals_chunk, hbelow]

end

/-- The levels of a tree, as their values. -/
theorem map_vals_buildLevels {r : Region} {ys : List NodeVal} {ls : List (List NodeVal)} (hn : ys.length = r.n)
    (hcount : ls.length = Region.top r) (hlevel : ∀ i l, ls[i]? = some l → vals l = vals (levelAt r ys (i + 1))) :
    (ls.map fun l => l.map (·.v)) = (buildLevels r 14 ys).map fun l => l.map (·.v) := by
  have htop : (levelCounts 14 ys.length).length = Region.top r := by rw [hn]; rfl
  refine List.ext_getElem? fun i => ?_
  rw [buildLevels_eq, htop, List.getElem?_map, List.getElem?_map, List.getElem?_map]
  by_cases hi : i < Region.top r
  · have hl := List.getElem?_eq_getElem (hcount ▸ hi)
    rw [hl, List.getElem?_range hi]
    exact congrArg some (hlevel i _ hl)
  · rw [List.getElem?_eq_none (by omega), List.getElem?_eq_none (by rw [List.length_range]; omega)]
    rfl

section
variable {r : Region} (h : Built r) (hty : r.ty ≠ 0)
include hty

/-- The sums of the path grow by the difference of a leaf. -/
theorem nodeVal_on_path (hagg : r.agg = 0) {e k : Nat} {x : NodeVal} {old : Int} (hold : (r.leaves[e]?).map (·.v) = some old) :
    nodeVal r (setAt r.leaves e x) k (e / 4 ^ k) = nodeVal r r.leaves k (e / 4 ^ k) + (x.v - old) := by
  have hpos : 0 < 4 ^ k := Nat.pow_pos (by norm_num)
  have hmem : e ∈ Finset.Ico (e / 4 ^ k * 4 ^ k) ((e / 4 ^ k + 1) * 4 ^ k) :=
    Finset.mem_Ico.mpr ⟨Nat.div_mul_le_self .., by rw [add_mul, one_mul]; exact Nat.lt_div_mul_add hpos⟩
  have hat : nodeVal r (setAt r.leaves e x) 0 e = nodeVal r r.leaves 0 e + (x.v - old) := by
    obtain ⟨y, hy, rfl⟩ := Option.map_eq_some_iff.mp hold
    simp only [nodeVal, levelAt, getElem?_setAt, if_true, hy, Option.map_some, Option.getD_some]
    omega
  have hoff : ∀ i, i ≠ e → nodeVal r (setAt r.leaves e x) 0 i = nodeVal r r.leaves 0 i := fun i hi => by
    simp only [nodeVal, levelAt, getElem?_setAt, if_neg hi]
  rw [nodeVal_eq_sum hty hagg, nodeVal_eq_sum hty hagg, ← Finset.add_sum_erase _ _ hmem, ← Finset.add_sum_erase _ (nodeVal r r.leaves 0) hmem, hat,
    Finset.sum_congr rfl fun i hi => hoff i (Finset.ne_of_mem_erase hi)]
  ring

include h

/-- A delta tree adds the difference along the path (R252). -/
theorem deltaUp_levels (hagg : r.agg = 0) {e : Nat} {x : NodeVal} {old : Int} (hold : (r.leaves[e]?).map (·.v) = some old) :
    ((deltaUp r e (x.v - old)).levels.map fun l => l.map (·.v)) = (buildLevels r 14 (setAt r.leaves e x)).map fun l => l.map (·.v) := by
  have hcount : r.levels.length = Region.top r := by
    rw [h.levels, buildLevels_eq, List.length_map, List.length_range, h.leaves]; rfl
  refine map_vals_buildLevels (by rw [length_setAt, h.leaves]) (by rw [deltaUp, List.length_mapIdx, hcount]) fun i l hl => ?_
  rw [deltaUp, List.getElem?_mapIdx] at hl
  obtain ⟨l0, hl0, rfl⟩ := Option.map_eq_some_iff.mp hl
  have hi := (List.getElem?_eq_some_iff.mp hl0).1
  rw [h.level (hcount ▸ hi), Option.some.injEq] at hl0
  subst hl0
  refine List.ext_getElem? fun j => ?_
  by_cases hj : j = e / 4 ^ (i + 1)
  · subst hj
    have hlen : (levelAt r (setAt r.leaves e x) (i + 1)).length = (levelAt r r.leaves (i + 1)).length := by rw [length_levelAt, length_levelAt, length_setAt]
    have hval := nodeVal_on_path hty hagg (k := i + 1) (x := x) hold
    rw [getElem?_vals, getElem?_vals, getElem?_modAt_self, Option.map_map]
    by_cases hin : e / 4 ^ (i + 1) < (levelAt r r.leaves (i + 1)).length
    · rw [nodeVal, nodeVal, List.getElem?_eq_getElem hin, List.getElem?_eq_getElem (hlen ▸ hin)] at hval
      rw [List.getElem?_eq_getElem hin, List.getElem?_eq_getElem (hlen ▸ hin)]
      simpa [hty] using hval.symm
    · rw [List.getElem?_eq_none (by omega), List.getElem?_eq_none (by omega)]; rfl
  · rw [vals_off_path hty (by omega) _ _ hj, getElem?_vals, getElem?_vals, getElem?_modAt_ne _ _ hj]

end

theorem vals_four {four : List Int} {ys : List NodeVal} {b : Nat}
    (h : ∀ i, four[i]? = (ys[4 * b + i]?).map (·.v) ∨ 4 ≤ i) (hlen : four.length ≤ 4) :
    vals (four.mapIdx fun i v => { v := v, i := 4 * b + i }) = vals (chunk ys b) := by
  refine List.ext_getElem? fun i => ?_
  rw [getElem?_vals, List.getElem?_mapIdx, Option.map_map, getElem?_vals, getElem?_chunk]
  by_cases hi : i < 4
  · rw [if_pos hi, ← (h i).resolve_right (by omega)]
    cases four[i]? <;> rfl
  · rw [if_neg hi, List.getElem?_eq_none (by omega)]
    rfl

/-- One record leaves the tree of the leaves with its element replaced (R252). -/
theorem applyRec_spec {r : Region} (h : Built r) (hty : r.ty ≠ 0) (hagg : r.agg ≠ 3) {q : URec} (hold : (r.leaves[q.elem]?).map (·.v) = some q.old)
    (hfour : ∀ i, q.four[i]? = ((setAt r.leaves q.elem { v := q.new, i := q.elem })[4 * (q.elem / 4) + i]?).map (·.v) ∨ 4 ≤ i) (hlen : q.four.length ≤ 4) :
    (applyRec r q).leaves = setAt r.leaves q.elem { v := q.new, i := q.elem } ∧ (applyRec r q).applied = r.applied + 1 ∧
    ((applyRec r q).levels.map fun l => l.map (·.v)) = (buildLevels r 14 (setAt r.leaves q.elem { v := q.new, i := q.elem })).map fun l => l.map (·.v) := by
  have hcount : r.levels.length = Region.top r := by
    rw [h.levels, buildLevels_eq, List.length_map, List.length_range, h.leaves]; rfl
  have hn : (setAt r.leaves q.elem { v := q.new, i := q.elem }).length = r.n := by rw [length_setAt, h.leaves]
  by_cases hdelta : r.agg = 0 ∧ r.delta = true
  · rw [applyRec, if_pos hdelta, if_neg hty]
    exact ⟨rfl, rfl, deltaUp_levels h hty hdelta.1 (x := { v := q.new, i := q.elem }) hold⟩
  · by_cases htop : Region.top r = 0
    · rw [applyRec, if_neg hdelta, if_pos htop]
      refine ⟨rfl, rfl, map_vals_buildLevels hn hcount fun i l hl => ?_⟩
      have hi := (List.getElem?_eq_some_iff.mp hl).1
      have hz : r.levels.length = 0 := hcount.trans htop
      exact absurd hi (by simp only [hz]; omega)
    · have hstart : Recomputed r r.leaves (setAt r.leaves q.elem { v := q.new, i := q.elem }) 0 r.levels :=
        ⟨hcount, fun i l hl => by
          have hi := (List.getElem?_eq_some_iff.mp hl).1
          rw [h.level (hcount ▸ hi), Option.some.injEq] at hl
          rw [if_neg (Nat.not_lt_zero i), hl]⟩
      have hpow : q.elem / 4 ^ (0 + 1) = q.elem / 4 := by rw [Nat.zero_add, pow_one]
      have hfirst := hstart.next hty hagg (hpow.symm ▸ vals_four hfour hlen)
      rw [hpow] at hfirst
      obtain ⟨ls, hls, hfinal⟩ := recomputeUp_spec (r := { r with leaves := setAt r.leaves q.elem { v := q.new, i := q.elem }, applied := r.applied + 1 })
        hty hagg 14 0 _ (by have := h.top_le; show Region.top r + 1 ≤ 14 + (0 + 2); omega) (hfirst.congr rfl rfl rfl)
      rw [applyRec, if_neg hdelta, if_neg htop]
      refine (congrArg (fun t : Region => t.leaves = _ ∧ t.applied = _ ∧ (t.levels.map fun l => l.map (·.v)) = _) hls).mpr ⟨rfl, rfl, ?_⟩
      refine map_vals_buildLevels hn hfinal.count fun i l hl => ?_
      have hi := (List.getElem?_eq_some_iff.mp hl).1
      rw [hfinal.count] at hi
      have hv := hfinal.level i l hl
      rw [if_pos hi] at hv
      exact hv.trans (congrArg vals (by apply levelAt_congr <;> rfl))

/-! ## The statement -/

/-- A sum over a range of leaves as a list's sum. -/
theorem sum_leaves (r : Region) (lo hi : Nat) :
    ((List.range (hi - lo)).map fun i => ((r.leaves[lo + i]?).map (·.v)).getD 0).sum = leafSum r lo hi := by
  rw [leafSum, Finset.sum_Ico_eq_sum_range]
  rfl

/-- Settles O35: each node is what its leaves combine to, a cover tiles its range, and a record changes the nodes of its path alone. -/
theorem treesAggregateAndAreKept : Obligations.TreesAggregateAndAreKept := by
  unfold Obligations.TreesAggregateAndAreKept
  refine ⟨fun r _ hsmall hty hleaves hlevels => ?_, fun r q _ hsmall hty hagg hleaves _ hlevels hold => ?_⟩
  · have h : Built r := ⟨hsmall, hleaves, hlevels⟩
    intro leaf sum
    have hsum (lo hi : Nat) : sum lo hi = leafSum r lo hi := sum_leaves r lo hi
    refine ⟨fun hagg k j hk _ => ?_, fun hagg k j _ hk hj => ?_, fun hagg lo hi hle hhi => ?_, fun hagg hpos lo hi x hle hhi hx q hq => ?_⟩
    · rw [h.nodeAt_v hk, hsum, leafSum_min h]
      exact nodeVal_eq_sum hty hagg ..
    · rw [h.nodeAt_v hk, ← hleaves]
      exact nodeVal_max hty hagg r.leaves k j (hleaves.symm ▸ hj)
    · rw [hsum]
      exact rangeSum_eq h hty hagg hle hhi
    · subst hq
      simp only [hsum]
      exact descend_spec h hty hagg hpos hle hhi hx
  · intro after hfour hlen
    exact applyRec_spec ⟨hsmall, hleaves, hlevels⟩ hty hagg hold hfour hlen

end Sys2Proof.Machine
end

section
/-! PROOFS. What the lanes of a matrix word leave each other as it was: memory, translations, entries and blocks (R9, R285). -/

namespace Sys2Proof.Machine

/-- A state that accepted matrix words may have come to from another: nothing that reads through the device may tell them apart. -/
structure Accepting (s u : State) : Prop where
  only : ∃ gs cs ms n, u = { s with groups := gs, cores := cs, matops := ms, seqs := n }
  lines : ∀ g, (group? u g).map (fun x => (x.heap, x.kind)) = (group? s g).map fun x => (x.heap, x.kind)
  split : ∀ c, (core u c).split = (core s c).split

theorem Accepting.refl (s : State) : Accepting s s := ⟨⟨_, _, _, _, rfl⟩, fun _ => rfl, fun _ => rfl⟩

theorem Accepting.trans {s t u : State} (h : Accepting s t) (k : Accepting t u) : Accepting s u := by
  obtain ⟨gs, cs, ms, n, rfl⟩ := h.only
  obtain ⟨gs', cs', ms', n', rfl⟩ := k.only
  exact ⟨⟨gs', cs', ms', n', rfl⟩, fun g => (k.lines g).trans (h.lines g), fun c => (k.split c).trans (h.split c)⟩

/-- A change of groups that leaves heap lines and kinds. -/
theorem Accepting.modGroup {s u : State} (h : Accepting s u) (g : Nat) {f : Group → Group} (hf : ∀ x, (f x).heap = x.heap ∧ (f x).kind = x.kind) :
    Accepting s (modGroup u g f) := by
  refine h.trans ⟨⟨(Machine.modGroup u g f).groups, u.cores, u.matops, u.seqs, modGroup_only u g f⟩, fun k => ?_, fun c => by rw [core_modGroup]⟩
  by_cases hk : k = g
  · subst hk
    rw [group?_modGroup_self, Option.map_map]
    exact congrArg (fun q => Option.map q _) (funext fun x => by simp [hf x])
  · rw [group?_modGroup_ne _ _ hk]

theorem Accepting.modWarp {s u : State} (h : Accepting s u) (g w : Nat) (f : Warp → Warp) : Accepting s (modWarp u g w f) :=
  h.modGroup g fun _ => ⟨rfl, rfl⟩

/-- A change of a core's slots. -/
theorem Accepting.modCore {s u : State} (h : Accepting s u) (c : Nat) {f : Core → Core} (hf : ∀ x, (f x).split = x.split) :
    Accepting s (modCore u c f) := by
  refine h.trans ⟨⟨_, _, _, _, rfl⟩, fun _ => rfl, fun k => ?_⟩
  rw [core_modCore]
  split
  · next hk => rw [hf, hk]
  · rfl

theorem Accepting.modSlot {s u : State} (h : Accepting s u) (c p : Nat) (f : AccSlot → AccSlot) : Accepting s (modSlot u c p f) :=
  h.modCore c fun _ => rfl

theorem Accepting.addMat {s u : State} (h : Accepting s u) (e : Env) (k : MatKind) (block : List Byte) (barrier : Option Nat)
    (tags : List (Nat × TagRec)) (ps : Pages) : Accepting s (addMat u e k block barrier tags ps).1 :=
  h.trans ⟨⟨_, _, _, _, rfl⟩, fun _ => rfl, fun _ => rfl⟩

section
variable {s u : State} (h : Accepting s u)
include h

theorem Accepting.sameWalks (d : Nat) : SameWalks d s u := by
  obtain ⟨gs, cs, ms, n, rfl⟩ := h.only
  exact ⟨fun _ _ => rfl, fun _ _ => rfl, rfl, rfl, rfl, rfl⟩

theorem Accepting.gens (gr : Group) : gens u gr = gens s gr := by
  obtain ⟨gs, cs, ms, n, rfl⟩ := h.only
  rfl

theorem Accepting.translate (d c : Nat) (gr : Group) (va : DWord) (acc : Access) :
    translate u d c (Machine.gens u gr) va acc = translate s d c (Machine.gens s gr) va acc := by
  rw [h.gens, (h.sameWalks d).translate]

theorem Accepting.memLeaf (e : Env) (va : DWord) (k a b : Nat) : memLeaf u e va k a b = memLeaf s e va k a b := by
  have hlink : linkLost u = linkLost s := by obtain ⟨gs, cs, ms, n, rfl⟩ := h.only; rfl
  have htlb : tlbError u = tlbError s := by obtain ⟨gs, cs, ms, n, rfl⟩ := h.only; rfl
  simp only [Machine.memLeaf, h.translate, hlink, htlb]

theorem Accepting.group_cases (g : Nat) : (group? u g = none ∧ group? s g = none) ∨
    ∃ x y, group? u g = some x ∧ group? s g = some y ∧ x.heap = y.heap ∧ x.kind = y.kind := by
  have hg := h.lines g
  cases hu : group? u g <;> cases hs : group? s g <;> rw [hu, hs] at hg
  · exact .inl ⟨rfl, rfl⟩
  · cases hg
  · cases hg
  · next x y =>
    obtain ⟨hheap, hkind⟩ := Prod.mk.inj (Option.some.inj hg)
    exact .inr ⟨x, y, rfl, rfl, hheap, hkind⟩

/-- A group's own view of memory (R134). -/
theorem Accepting.heapLine {x y : Group} (hh : x.heap = y.heap) (hk : x.kind = y.kind) (line : Nat) : heapLine u x line = heapLine s y line := by
  have htmpl : tmpl? u = tmpl? s := by obtain ⟨gs, cs, ms, n, rfl⟩ := h.only; rfl
  rw [Machine.heapLine, Machine.heapLine, hh, hk, htmpl]
  cases sget? y.heap line with
  | some p => rfl
  | none =>
    cases y.kind.tmpl?.bind (tmpl? s) with
    | none => rfl
    | some t =>
      dsimp only
      cases t.owner with
      | none => rfl
      | some o =>
        rw [Option.bind_some, Option.bind_some]
        rcases h.group_cases o with ⟨hu, hs⟩ | ⟨ox, oy, hu, hs, hoh, hok⟩
        · rw [hu, hs]
        · rw [hu, hs]
          dsimp only
          rw [hoh, hok]
          cases sget? oy.heap line with
          | some p => rfl
          | none =>
            cases oy.kind.tmpl?.bind (tmpl? s) with
            | none => rfl
            | some t2 =>
              dsimp only
              cases t2.owner with
              | none => rfl
              | some o2 =>
                rw [Option.bind_some, Option.bind_some]
                rcases h.group_cases o2 with ⟨hu2, hs2⟩ | ⟨ox2, oy2, hu2, hs2, hoh2, -⟩
                · rw [hu2, hs2]
                · rw [hu2, hs2, Option.bind_some, Option.bind_some, hoh2]

theorem Accepting.now (e : Env) : (e.now u).heap = (e.now s).heap ∧ (e.now u).kind = (e.now s).kind := by
  rcases h.group_cases e.g with ⟨hu, hs⟩ | ⟨x, y, hu, hs, hheap, hkind⟩
  · rw [Env.now, Env.now, hu, hs]
    exact ⟨rfl, rfl⟩
  · rw [Env.now, Env.now, hu, hs]
    exact ⟨hheap, hkind⟩

theorem Accepting.viewAddr (e : Env) (a : Nat) : viewAddr u (e.now u) a = viewAddr s (e.now s) a := by
  obtain ⟨hheap, hkind⟩ := h.now e
  simp only [Machine.viewAddr, h.heapLine hheap hkind]

theorem Accepting.eccHit (d sp a n : Nat) : eccHit u d sp a n = eccHit s d sp a n := by
  obtain ⟨gs, cs, ms, n, rfl⟩ := h.only
  rfl

theorem Accepting.viewBytes (d sp a n : Nat) : viewBytes u d sp a n = viewBytes s d sp a n := by
  obtain ⟨gs, cs, ms, n, rfl⟩ := h.only
  rfl

theorem Accepting.readMem (e : Env) (lf : Leaf) (n : Nat) (home : Bool) (l : Nat) : readMem u e lf n home l = readMem s e lf n home l := by
  have hseen : seenAt u e lf = seenAt s e lf := by simp only [seenAt, h.viewAddr]
  have hl1 : hasL1 u = hasL1 s := by funext c; simp only [hasL1, h.split]
  have hline (k n : Nat) : l1Error u e lf k n = l1Error s e lf k n := by
    rw [l1Error, hl1]
    obtain ⟨gs, cs, ms, n, rfl⟩ := h.only
    rfl
  have hbound (p c : Nat) : boundTo u p c = boundTo s p c := by obtain ⟨gs, cs, ms, n, rfl⟩ := h.only; rfl
  have hread (skip : List Ver) (a : Nat) : readBytes u e.die lf.space a n skip = readBytes s e.die lf.space a n skip := by
    obtain ⟨gs, cs, ms, n, rfl⟩ := h.only; rfl
  have hskip (k : Nat) : skipped u e.die k n l = skipped s e.die k n l := by obtain ⟨gs, cs, ms, n, rfl⟩ := h.only; rfl
  simp only [Machine.readMem, hseen, h.eccHit, hline, hbound, hread, hskip]

/-! ## Blocks, entries and pages -/

theorem Accepting.v (e : Env) (r : Reg) (l : Nat) : e.v u r l = e.v s r l := by
  obtain ⟨gs, cs, ms, n, rfl⟩ := h.only
  rfl

theorem Accepting.d (e : Env) (r : Reg) (l : Nat) : e.d u r l = e.d s r l := by
  obtain ⟨gs, cs, ms, n, rfl⟩ := h.only
  rfl

theorem Accepting.spmBytes (gr : Group) (a n : Nat) : spmBytes u gr a n = spmBytes s gr a n := by
  obtain ⟨gs, cs, ms, n, rfl⟩ := h.only
  rfl

theorem Accepting.blockOf (e : Env) (p : Place) (l : Nat) : blockOf u e p l = blockOf s e p l := by
  cases p with
  | spm v => simp only [Machine.blockOf, h.v, h.spmBytes]
  | mem d => simp only [Machine.blockOf, h.d, h.memLeaf, h.readMem]

theorem Accepting.tensorEntry (e : Env) (tid kind : Nat) : tensorEntry u e tid kind = tensorEntry s e tid kind := by
  have hva : entryVa u = entryVa s := by obtain ⟨gs, cs, ms, n, rfl⟩ := h.only; rfl
  have hmix : mixBytes u = mixBytes s := by obtain ⟨gs, cs, ms, n, rfl⟩ := h.only; rfl
  have hent : u.entries = s.entries := by obtain ⟨gs, cs, ms, n, rfl⟩ := h.only; rfl
  simp only [Machine.tensorEntry, rawEntry, tableEntry, hva, hmix, hent, h.memLeaf, h.readMem]

theorem Accepting.setCount (c tid : Nat) : setCount u c tid = setCount s c tid := by
  obtain ⟨gs, cs, ms, n, rfl⟩ := h.only
  rfl

theorem Accepting.accPage (e : Env) (tid : Option (Nat × Bool)) (need : Nat) : accPage u e tid need = accPage s e tid need := by
  funext ps va
  simp only [Machine.accPage, h.translate]

theorem Accepting.accRange (e : Env) (tid : Option (Nat × Bool)) (need : Nat) : accRange u e tid need = accRange s e tid need := by
  funext ps va len
  simp only [Machine.accRange, h.accPage]

theorem Accepting.accRanges (e : Env) (tid : Option (Nat × Bool)) (need : Nat) : accRanges u e tid need = accRanges s e tid need := by
  funext ps rs
  simp only [Machine.accRanges, h.accRange]

theorem Accepting.pinnedRead (e : Env) (pages : List (Nat × (Nat × Nat))) (hcore : (e.now u).core = (e.now s).core) (va n : Nat) :
    pinnedRead u (e.now u) pages va n = pinnedRead s (e.now s) pages va n := by
  simp only [Machine.pinnedRead, h.viewAddr, h.eccHit, h.viewBytes, hcore]

theorem Accepting.checkRun (e : Env) (hcore : (e.now u).core = (e.now s).core) (ps : Pages) (tid : Nat) (t : Tensor) (k len i1 i2 i3 : Nat) :
    checkRun u e ps tid t k len i1 i2 i3 = checkRun s e ps tid t k len i1 i2 i3 := by
  simp only [Machine.checkRun, h.pinnedRead e _ hcore]

theorem Accepting.recordedTag (e : Env) (htags : (e.now u).tagRecs = (e.now s).tagRecs) (va : DWord) (m : Nat) :
    recordedTag u e va m = recordedTag s e va m := by
  simp only [Machine.recordedTag, htags, h.gens]

end

end Sys2Proof.Machine
end

section
/-! PROOFS. Claims of accumulator slots and of future entries (R272, R304, R307). -/

namespace Sys2Proof.Machine

/-! ## Rising sets -/

theorem sins_pairwise {m : List Nat} (h : m.Pairwise (· < ·)) (k : Nat) : (sins m k).Pairwise (· < ·) := by
  induction m with
  | nil => simp [sins]
  | cons a r ih =>
    obtain ⟨ha, hr⟩ := List.pairwise_cons.mp h
    simp only [sins]
    split
    · exact h
    · split
      · next hlt =>
        refine List.pairwise_cons.mpr ⟨fun x hx => ?_, h⟩
        rcases List.mem_cons.mp hx with rfl | hx
        · exact hlt
        · exact hlt.trans (ha x hx)
      · refine List.pairwise_cons.mpr ⟨fun x hx => ?_, ih hr⟩
        rcases (mem_sins ..).mp hx with rfl | hx
        · omega
        · exact ha x hx

theorem foldl_sins_pairwise (ls : List Nat) {m : List Nat} (h : m.Pairwise (· < ·)) : (ls.foldl sins m).Pairwise (· < ·) := by
  induction ls generalizing m with
  | nil => exact h
  | cons k ls ih => exact ih (sins_pairwise h k)

theorem sins_length_le (m : List Nat) (k : Nat) : (sins m k).length ≤ m.length + 1 := by
  induction m with
  | nil => simp [sins]
  | cons a r ih =>
    simp only [sins]
    split
    · simp
    · split <;> simp only [List.length_cons] <;> omega

theorem foldl_sins_length_le (ks m : List Nat) : (ks.foldl sins m).length ≤ m.length + ks.length := by
  induction ks generalizing m with
  | nil => simp
  | cons k ks ih =>
    have h1 := ih (sins m k)
    have h2 := sins_length_le m k
    rw [List.foldl_cons, List.length_cons]
    omega

/-! ## Claims -/

/-- A word has claimed slots for its group, and nothing else has changed. -/
structure Claimed (e : Env) (s u : State) : Prop where
  accepting : Accepting s u
  only : u = { s with groups := u.groups, cores := u.cores }
  others : ∀ g, g ≠ e.g → group? u g = group? s g
  mine : ∀ gr, group? s e.g = some gr → ∃ sl, group? u e.g = some { gr with slots := sl } ∧
    ∀ l, (sget? gr.slots l).isSome = true → (sget? sl l).isSome = true

theorem Claimed.refl (e : Env) (s : State) : Claimed e s s :=
  ⟨.refl s, rfl, fun _ _ => rfl, fun gr hg => ⟨gr.slots, hg, fun _ => id⟩⟩

theorem Claimed.trans {e : Env} {s t u : State} (h : Claimed e s t) (k : Claimed e t u) : Claimed e s u where
  accepting := h.accepting.trans k.accepting
  only := by
    rw [k.only, h.only]
  others g hg := (k.others g hg).trans (h.others g hg)
  mine gr hg := by
    obtain ⟨sl, h1, h2⟩ := h.mine gr hg
    obtain ⟨sl', k1, k2⟩ := k.mine _ h1
    exact ⟨sl', k1, fun l hl => k2 l (h2 l hl)⟩

/-- One logical slot is bound to a physical slot (R272). -/
def bindSlot (s : State) (e : Env) (l p : Nat) : State :=
  modGroup (modSlot s e.gr.core p fun _ => { used := true, pairs := [] }) e.g fun x => { x with slots := sput x.slots l p }

theorem claimed_bindSlot (s : State) (e : Env) (l p : Nat) : Claimed e s (bindSlot s e l p) where
  accepting := ((Accepting.refl s).modSlot ..).modGroup _ fun _ => ⟨rfl, rfl⟩
  only := by rw [bindSlot, modGroup_only]; rfl
  others g hg := by rw [bindSlot, group?_modGroup_ne _ _ hg]; rfl
  mine gr hg := by
    refine ⟨sput gr.slots l p, ?_, fun k hk => ?_⟩
    · rw [bindSlot, group?_modGroup_self, show group? (modSlot s _ _ _) e.g = some gr from hg]; rfl
    · rw [sget?_sput]
      split
      · rfl
      · exact hk

theorem claimSlots_cons (s : State) (e : Env) (l : Nat) (r : List Nat) : claimSlots s e (l :: r) =
    if (sget? (e.now s).slots l).isSome = true then claimSlots s e r
    else (indexWhere (fun (a : AccSlot) => !a.used) (core s e.gr.core).slots).bind fun p => claimSlots (bindSlot s e l p) e r := by
  rw [claimSlots]
  split
  · rfl
  · cases indexWhere (fun (a : AccSlot) => !a.used) (core s e.gr.core).slots <;> rfl

theorem claimSlots_claimed {e : Env} {ls : List Nat} : ∀ {s u : State}, claimSlots s e ls = some u → Claimed e s u := by
  induction ls with
  | nil => intro s u h; cases h; exact .refl e s
  | cons l r ih =>
    intro s u h
    rw [claimSlots_cons] at h
    split at h
    · exact ih h
    · obtain ⟨p, -, hp⟩ := Option.bind_eq_some_iff.mp h
      exact (claimed_bindSlot s e l p).trans (ih hp)

theorem now_of {e : Env} {s : State} {gr : Group} (h : group? s e.g = some gr) : e.now s = gr := by rw [Env.now, h]; rfl

/-- What has been claimed is held. -/
theorem claimSlots_holds {e : Env} {ls : List Nat} : ∀ {s u : State} {gr : Group}, claimSlots s e ls = some u → group? s e.g = some gr →
    ∀ l ∈ ls, (sget? (e.now u).slots l).isSome = true := by
  induction ls with
  | nil => intro s u gr _ _ l hl; cases hl
  | cons k r ih =>
    intro s u gr h hg l hl
    have hkeep {t : State} {x : Group} (ht : claimSlots t e r = some u) (hx : group? t e.g = some x) (hk : (sget? x.slots k).isSome = true) :
        (sget? (e.now u).slots l).isSome = true := by
      rcases List.mem_cons.mp hl with rfl | hl
      · obtain ⟨sl, hu, hsl⟩ := (claimSlots_claimed ht).mine x hx
        rw [now_of hu]
        exact hsl l hk
      · exact ih ht hx l hl
    rw [claimSlots_cons, now_of hg] at h
    split at h
    · next hk => exact hkeep h hg hk
    · obtain ⟨p, -, hp⟩ := Option.bind_eq_some_iff.mp h
      have hb : group? (bindSlot s e k p) e.g = some { gr with slots := sput gr.slots k p } := by
        rw [bindSlot, group?_modGroup_self, show group? (modSlot s _ _ _) e.g = some gr from hg]; rfl
      exact hkeep hp hb (by simp)

/-! ## Room for claims -/

/-- The slots that are still to be claimed. -/
def slotsMissing (slots : List (Nat × Nat)) (ls : List Nat) : Nat := (ls.toFinset.filter fun l => (sget? slots l).isNone = true).card

/-- The free slots of a core. -/
def slotsFree (s : State) (c : Nat) : Nat := ((core s c).slots.filter fun a => !a.used).length

theorem slotRoom_iff (s : State) (e : Env) (ls : List Nat) : SlotRoom s e ls ↔ slotsMissing e.gr.slots ls ≤ slotsFree s e.gr.core := by
  have hnodup : ((ls.foldl sins []).filter fun l => (sget? e.gr.slots l).isNone).Nodup :=
    ((foldl_sins_pairwise ls List.Pairwise.nil).imp fun h => Nat.ne_of_lt h).filter _
  have hset : ((ls.foldl sins []).filter fun l => (sget? e.gr.slots l).isNone).toFinset = ls.toFinset.filter fun l => (sget? e.gr.slots l).isNone = true := by
    ext l
    have hmem : l ∈ ls.foldl sins [] ↔ l ∈ ls := by
      have := mem_sinsAll [] ls l
      simpa [sinsAll] using this
    simp [hmem]
  rw [SlotRoom, slotsMissing, slotsFree, ← hset, List.toFinset_card_of_nodup hnodup]

theorem slotsMissing_mono {slots : List (Nat × Nat)} {ls ks : List Nat} (h : ∀ l ∈ ls, l ∈ ks) : slotsMissing slots ls ≤ slotsMissing slots ks :=
  Finset.card_le_card (Finset.filter_subset_filter _ fun l hl => by simpa using h l (by simpa using hl))

theorem slotsMissing_sput {slots : List (Nat × Nat)} {l p : Nat} (ls : List Nat) (h : ¬ (sget? slots l).isSome = true) :
    slotsMissing (sput slots l p) ls + 1 ≤ slotsMissing slots (l :: ls) := by
  have hin : l ∈ (l :: ls).toFinset.filter fun k => (sget? slots k).isNone = true := by simpa using h
  rw [slotsMissing, slotsMissing, ← Finset.card_erase_add_one hin]
  refine Nat.succ_le_succ (Finset.card_le_card fun k hk => ?_)
  simp only [Finset.mem_filter, List.mem_toFinset, sget?_sput] at hk
  obtain ⟨hmem, hnone⟩ := hk
  split at hnone
  · cases hnone
  · next hne => exact Finset.mem_erase.mpr ⟨hne, Finset.mem_filter.mpr ⟨by simp [hmem], hnone⟩⟩

theorem indexWhere_isSome {α : Type} (q : α → Bool) (l : List α) : (indexWhere q l).isSome = l.any q := by
  induction l with
  | nil => rfl
  | cons a r ih =>
    rw [indexWhere, List.any_cons]
    cases q a <;> simp [ih]

theorem length_filter_modAt {α : Type} (q : α → Bool) (f : α → α) (l : List α) (p : Nat) : (l.filter q).length ≤ ((modAt l p f).filter q).length + 1 := by
  simp only [← List.countP_eq_length_filter]
  induction l generalizing p with
  | nil => simp [modAt]
  | cons a r ih =>
    cases p with
    | zero =>
      rw [modAt, List.countP_cons, List.countP_cons]
      split <;> split <;> omega
    | succ p =>
      have := ih p
      rw [modAt, List.countP_cons, List.countP_cons]
      omega

theorem slotsFree_bindSlot (s : State) (e : Env) (l p : Nat) : slotsFree s e.gr.core ≤ slotsFree (bindSlot s e l p) e.gr.core + 1 := by
  rw [slotsFree, slotsFree, bindSlot, core_modGroup, modSlot, core_modCore_self]
  exact length_filter_modAt ..

/-- Where there is room for all claims, some can be made and there is room for the others. -/
theorem claimSlots_room {e : Env} {rest : List Nat} (ls : List Nat) : ∀ {s : State} {gr : Group}, group? s e.g = some gr →
    slotsMissing gr.slots (ls ++ rest) ≤ slotsFree s e.gr.core → ∃ u, claimSlots s e ls = some u ∧ slotsMissing (e.now u).slots rest ≤ slotsFree u e.gr.core := by
  induction ls with
  | nil =>
    intro s gr hg h
    exact ⟨s, rfl, by rw [now_of hg]; exact h⟩
  | cons l r ih =>
    intro s gr hg h
    rw [claimSlots_cons, now_of hg]
    by_cases hl : (sget? gr.slots l).isSome = true
    · rw [if_pos hl]
      exact ih hg ((slotsMissing_mono fun k hk => List.mem_cons_of_mem _ hk).trans h)
    · have hless := slotsMissing_sput (p := 0) (r ++ rest) hl
      have hfree : 0 < slotsFree s e.gr.core := by
        have := hless.trans h
        omega
      obtain ⟨p, hp⟩ : ∃ p, indexWhere (fun (a : AccSlot) => !a.used) (core s e.gr.core).slots = some p := by
        rw [← Option.isSome_iff_exists, indexWhere_isSome, List.any_eq_true]
        obtain ⟨a, ha⟩ := List.exists_mem_of_length_pos hfree
        obtain ⟨hmem, hused⟩ := List.mem_filter.mp ha
        exact ⟨a, hmem, hused⟩
      have hb : group? (bindSlot s e l p) e.g = some { gr with slots := sput gr.slots l p } := by
        rw [bindSlot, group?_modGroup_self, show group? (modSlot s _ _ _) e.g = some gr from hg]; rfl
      rw [if_neg hl, hp]
      refine ih hb ?_
      have h1 := slotsMissing_sput (p := p) (r ++ rest) hl
      have h2 := slotsFree_bindSlot s e l p
      have h3 : slotsMissing gr.slots (l :: (r ++ rest)) ≤ slotsFree s e.gr.core := h
      show slotsMissing (sput gr.slots l p) (r ++ rest) ≤ _
      omega

/-! ## Future entries -/

theorem freeFutures_head {gr : Group} {idx : Nat} (h : (freeFutures gr).head? = some idx) : idx < 128 := by
  have hmem : idx ∈ freeFutures gr := List.mem_of_head? h
  exact List.mem_range.mp (List.mem_filter.mp hmem).1

/-- The group of a word that has taken an entry of its future table (R307). -/
def withFuture (gr : Group) (idx kind op gen : Nat) : Group :=
  { gr with futures := sput gr.futures idx { gen := gen, live := true, res := false, stat := 0, kind := kind, landed := 0, op := op } }

/-- The generation that the next future of an entry has (R307). -/
def genAfter (gr : Group) (idx : Nat) : Nat := match sget? gr.futures idx with | some f => (f.gen + 1) % 2 ^ 16 | none => 1

theorem genAfter_lt (gr : Group) (idx : Nat) : genAfter gr idx < 2 ^ 16 := by
  unfold genAfter
  split
  · exact Nat.mod_lt _ (by norm_num)
  · norm_num

theorem allocFuture_eq {s : State} {g : Nat} {gr : Group} (hg : group? s g = some gr) (idx kind op : Nat) :
    (allocFuture s g idx kind op).1 = modGroup s g (fun x => withFuture x idx kind op (genAfter gr idx)) ∧
    (allocFuture s g idx kind op).2 = BitVec.ofNat 32 (kind * 2 ^ 24 + genAfter gr idx * 2 ^ 7 + idx) := by
  rw [allocFuture, hg]
  exact ⟨rfl, rfl⟩

/-- A handle has the fields of R306. -/
theorem handle_fields {kind gen idx : Nat} (hk : kind < 16) (hg : gen < 2 ^ 16) (hi : idx < 128) :
    (BitVec.ofNat 32 (kind * 2 ^ 24 + gen * 2 ^ 7 + idx)).toNat % 2 ^ 7 = idx ∧ (BitVec.ofNat 32 (kind * 2 ^ 24 + gen * 2 ^ 7 + idx)).toNat / 2 ^ 24 = kind ∧
    (BitVec.ofNat 32 (kind * 2 ^ 24 + gen * 2 ^ 7 + idx)).toNat / 2 ^ 7 % 2 ^ 16 = gen := by
  rw [BitVec.toNat_ofNat]
  omega

/-- The entries that stay free. -/
theorem freeFutures_withFuture {gr : Group} {idx : Nat} (h : (freeFutures gr).head? = some idx) (kind op gen : Nat) :
    freeFutures (withFuture gr idx kind op gen) = (freeFutures gr).tail := by
  have hnodup : (freeFutures gr).Nodup := List.nodup_range.filter _
  obtain ⟨t, ht⟩ : ∃ t, freeFutures gr = idx :: t := by
    cases hf : freeFutures gr with
    | nil => rw [hf] at h; cases h
    | cons a t => rw [hf] at h; cases h; exact ⟨t, rfl⟩
  have hfilter : freeFutures (withFuture gr idx kind op gen) = (freeFutures gr).filter (· != idx) := by
    rw [freeFutures, freeFutures, List.filter_filter]
    refine List.filter_congr fun i _ => ?_
    simp only [withFuture, sget?_sput]
    by_cases hi : i = idx
    · simp [hi]
    · simp [hi]
  rw [hfilter, ht]
  rw [ht, List.nodup_cons] at hnodup
  rw [List.filter_cons, if_neg (by simp), List.tail_cons]
  exact List.filter_eq_self.mpr fun x hx => bne_iff_ne.mpr fun heq => hnodup.1 (heq ▸ hx)

end Sys2Proof.Machine
end

section
/-! PROOFS. What acceptance of a matrix word in one lane leaves (R285, R293 to R300). -/

namespace Sys2Proof.Machine

/-! ## Checks one after the other -/

theorem bind_ok_iff {ε α β : Type} {x : Except ε α} {f : α → Except ε β} {b : β} : (x >>= f) = .ok b ↔ ∃ a, x = .ok a ∧ f a = .ok b := by
  cases x with
  | error y => exact ⟨fun h => (by cases h), fun ⟨_, h, _⟩ => (by cases h)⟩
  | ok a => exact ⟨fun h => ⟨a, rfl, h⟩, fun ⟨a', h, hf⟩ => by cases h; exact hf⟩

theorem pure_ok_iff {ε α : Type} {a b : α} : (pure a : Except ε α) = .ok b ↔ a = b := ⟨fun h => by cases h; rfl, fun h => by rw [h]; rfl⟩

theorem guardE_ok_iff {c : Bool} {x : LaneFault} {a : Unit} : guardE c x = .ok a ↔ c = false := by
  cases c <;> simp [guardE]

/-! ## The group of the word -/

/-- A change of the word's group that leaves what retiring notes of it. -/
theorem KeepsPlace.modGroup {e : Env} {v : State} (h : KeepsPlace e v) {f : Group → Group}
    (hf : ∀ x, (f x).warps = x.warps ∧ (f x).core = x.core ∧ (f x).ctx = x.ctx ∧ (f x).logits = x.logits) : KeepsPlace e (modGroup v e.g f) := by
  obtain ⟨gr, wp, hg, hw, hc, hx, hl, ha, hr⟩ := h
  obtain ⟨fw, fc, fx, fl⟩ := hf gr
  exact ⟨f gr, wp, by rw [group?_modGroup_self, hg]; rfl, by rw [fw]; exact hw, fc.trans hc, fx.trans hx, fl.trans hl, ha, hr⟩

theorem Claimed.keepsPlace {e : Env} {s u : State} (h : Claimed e s u) (hk : KeepsPlace e s) : KeepsPlace e u := by
  obtain ⟨gr, wp, hg, hw, hc, hx, hl, ha, hr⟩ := hk
  obtain ⟨sl, hu, -⟩ := h.mine gr hg
  exact ⟨_, wp, hu, hw, hc, hx, hl, ha, hr⟩

/-! ## Private lines -/

/-- A write has been performed, or lines have been taken for the copies that are a group's own (R132, R135). -/
structure TookBacking (g : Nat) (s u : State) : Prop where
  only : ∃ gs, WritesOnly { s with groups := gs } u
  mine : ∀ gr, group? s g = some gr → ∃ lines page, group? u g = some { gr with heap := lines, heapPage := page }

theorem TookBacking.refl (g : Nat) (s : State) : TookBacking g s s := ⟨⟨s.groups, .refl s⟩, fun gr hg => ⟨gr.heap, gr.heapPage, hg⟩⟩

theorem TookBacking.trans {g : Nat} {s t u : State} (h : TookBacking g s t) (k : TookBacking g t u) : TookBacking g s u where
  only := by
    obtain ⟨gs, hgs⟩ := h.only
    obtain ⟨gs', hgs'⟩ := k.only
    refine ⟨gs', ?_⟩
    unfold WritesOnly at *
    rw [hgs', hgs]
  mine gr hg := by
    obtain ⟨lines, page, hx⟩ := h.mine gr hg
    obtain ⟨lines', page', hy⟩ := k.mine _ hx
    exact ⟨lines', page', hy⟩

theorem WritesOnly.tookBacking {s u : State} (h : WritesOnly s u) (g : Nat) : TookBacking g s u :=
  ⟨⟨s.groups, h⟩, fun gr hg => ⟨gr.heap, gr.heapPage, (group?_congr h.groups g).trans hg⟩⟩

/-- A change of lines and page of any group. -/
theorem tookBacking_modGroup (g k : Nat) (s : State) {f : Group → Group} (hf : ∀ x, ∃ lines page, f x = { x with heap := lines, heapPage := page }) :
    TookBacking g s (modGroup s k f) where
  only := ⟨(modGroup s k f).groups, by rw [WritesOnly, ← modGroup_only]⟩
  mine gr hg := by
    by_cases hk : g = k
    · subst hk
      obtain ⟨lines, page, hx⟩ := hf gr
      exact ⟨lines, page, by rw [group?_modGroup_self, hg, Option.map_some, hx]⟩
    · exact ⟨gr.heap, gr.heapPage, by rw [group?_modGroup_ne _ _ hk, hg]⟩

theorem tookBacking_backingLine (g : Nat) {s t : State} {gr : Group} {va : DWord} {kind p : Nat} (hb : backingLine s gr va kind = .ok (t, p)) :
    TookBacking g s t := by
  have hpage (u : State) (x : Nat × Nat) : TookBacking g u (modGroup u gr.id fun y => { y with heapPage := some x }) :=
    tookBacking_modGroup g gr.id u fun y => ⟨y.heap, _, rfl⟩
  unfold backingLine at hb
  extract_lets fresh at hb
  have hfresh (hb : fresh = .ok (t, p)) : TookBacking g s t := by
    simp only [fresh] at hb
    split at hb
    · cases hb
    · cases hb
    split at hb
    · cases hb
    · cases hb
    · cases hb
    split at hb
    · cases hb
    split at hb
    · cases hb
    split at hb
    · cases hb
    · cases hb
    · cases hb
    split at hb
    · cases hb
    split at hb
    · next u hu => cases hb; exact ((writesOnly_devWrite hu).tookBacking g).trans (hpage u _)
    all_goals cases hb
  split at hb
  · split at hb
    · cases hb; exact hpage s _
    · exact hfresh hb
  · exact hfresh hb

theorem tookBacking_privateLine {e : Env} {s t : State} {va : DWord} {sp a kind p : Nat} (hb : privateLine s e va sp a kind = .ok (t, p)) :
    TookBacking e.g s t := by
  unfold privateLine at hb
  simp only at hb
  split at hb
  · cases hb; exact .refl e.g s
  split at hb
  · cases hb
  split at hb
  · cases hb
  · next u q hq =>
    cases hb
    exact ((tookBacking_backingLine e.g hq).trans ((writesOnly_putHomeBytes ..).tookBacking e.g)).trans
      (tookBacking_modGroup e.g e.g _ fun x => ⟨_, x.heapPage, rfl⟩)

theorem TookBacking.keepsPlace {e : Env} {s u : State} (h : TookBacking e.g s u) (hk : KeepsPlace e s) : KeepsPlace e u := by
  obtain ⟨gr, wp, hg, hw, hc, hx, hl, ha, hr⟩ := hk
  obtain ⟨lines, page, hu⟩ := h.mine gr hg
  exact ⟨_, wp, hu, hw, hc, hx, hl, ha, hr⟩

theorem TookBacking.matops {g : Nat} {s u : State} (h : TookBacking g s u) : u.matops = s.matops := by
  obtain ⟨gs, hgs⟩ := h.only
  rw [hgs]

theorem tookBacking_foldlM {α : Type} {g : Nat} {f : State → α → Except LaneFault State} (hf : ∀ s x t, f s x = .ok t → TookBacking g s t) :
    ∀ {xs : List α} {s t : State}, xs.foldlM f s = .ok t → TookBacking g s t
  | [], s, t, h => by cases h; exact .refl g s
  | x :: xs, s, t, h => by
    rw [List.foldlM_cons, bind_ok_iff] at h
    obtain ⟨u, hu, ht⟩ := h
    exact (hf s x u hu).trans (tookBacking_foldlM hf ht)

theorem tookBacking_accWrites {e : Env} {ps : Pages} {u t : State} {va len : Nat} (h : accWrites e ps u va len = .ok t) : TookBacking e.g u t := by
  unfold accWrites at h
  split at h
  · cases h; exact .refl e.g u
  · refine tookBacking_foldlM (fun s a t ht => ?_) h
    simp only at ht
    split at ht
    · cases ht; exact .refl e.g s
    split at ht
    · cases ht
    split at ht
    · split at ht
      · cases hp : privateLine s e (BitVec.ofNat 64 a) (pinnedAt ps.1 a).1 (pinnedAt ps.1 a).2 4 with
        | error x => rw [hp] at ht; cases ht
        | ok x => rw [hp] at ht; cases ht; exact tookBacking_privateLine hp
      · cases ht
    split at ht
    · cases ht
    · cases ht; exact .refl e.g s

/-- Where the destinations lie where their addresses say, none are taken. -/
theorem accWrites_plain {e : Env} {ps : Pages} {s u : State} {va len : Nat} (ha : Accepting s u) (h : len ≠ 0 → PlainRange s ps va len) :
    accWrites e ps u va len = .ok u := by
  unfold accWrites
  split
  · rfl
  · next hlen =>
    have hplain := h hlen
    have hstep : ∀ a ∈ (List.range ((va + len - 1) / 256 + 1 - va / 256)).map fun i => max va (256 * (va / 256 + i)),
        Plain s (pinnedAt ps.1 a).1 (pinnedAt ps.1 a).2 (min (va + len) (256 * (a / 256 + 1)) - a) := by
      intro a hmem
      obtain ⟨i, hi, rfl⟩ := List.mem_map.mp hmem
      rw [List.mem_range] at hi
      exact hplain _ _ (by omega) (by omega) (by omega) (by omega)
    have harea : areaHit u = areaHit s := by
      have htm : u.tmpls = s.tmpls := by obtain ⟨gs, cs, ms, n, rfl⟩ := ha.only; rfl
      funext a n
      simp only [areaHit, areaSegs, htm, (ha.sameWalks 4).rangeSegs]
    have hheap : heapHit u = heapHit s := by
      have htm : u.tmpls = s.tmpls := by obtain ⟨gs, cs, ms, n, rfl⟩ := ha.only; rfl
      funext a n
      simp only [heapHit, heapSegs, htm, (ha.sameWalks 4).rangeSegs]
    have hback : backingOf u = backingOf s := by obtain ⟨gs, cs, ms, n, rfl⟩ := ha.only; rfl
    revert hstep
    generalize (List.range ((va + len - 1) / 256 + 1 - va / 256)).map (fun i => max va (256 * (va / 256 + i))) = as
    intro hstep
    induction as with
    | nil => rfl
    | cons a as ih =>
      rw [List.foldlM_cons, bind_ok_iff]
      refine ⟨u, ?_, ih fun b hb => hstep b (List.mem_cons_of_mem _ hb)⟩
      simp only
      split
      · rfl
      · next hsp =>
        obtain ⟨h1, h2, h3⟩ := hstep a (List.mem_cons_self ..) (by tauto)
        simp only [harea, hheap, hback, h1, h2, h3, Bool.false_eq_true, if_false]

end Sys2Proof.Machine
end

section
/-! PROOFS. Acceptance of each matrix word in one lane, taken apart (R285, R293 to R300). -/

namespace Sys2Proof.Machine

/-- The entries of an MMUL's block (R295). -/
def mulEntries (b : List Byte) : List Nat := (List.range (field b 1 1)).map fun i => field b (16 + i) 1

/-- A tag has the fields of an MBLOAD's block (R294). -/
def TagOf (u : State) (e : Env) (b : List Byte) (tag : Tag) : Prop :=
  tag.ctx = e.gr.ctx ∧ tag.tid = field b 0 1 ∧ tag.count = setCount u e.gr.ctx (field b 0 1) ∧ tag.k0 = field b 4 4 ∧ tag.n0 = field b 8 4 ∧
    tag.i2 = field b 12 4 ∧ tag.i3 = field b 16 4

/-- The group has recorded the tag of a matrix number (R294). -/
def recordTag (u : State) (e : Env) (m : Nat) (t : TagRec) : State := modGroup u e.g fun x => { x with tagRecs := sput x.tagRecs m t }

/-- An accepted MBLOAD has joined the queue. -/
def loadJoined (u : State) (e : Env) (b : List Byte) (bar : Option Nat) (tag : Tag) (t : Tensor) (ps : Pages) : State :=
  (addMat (recordTag u e (field b 1 1) { tag := tag, entry := t }) e (.load (field b 1 1) (field b 2 1 == 1) tag t) b bar [] ps).1

/-- An accepted MMUL has joined the queue, with the entry of its future and with its slots, its handle not yet written. -/
def mulQueued (u : State) (e : Env) (idx : Nat) (a : Tensor) (b : List Byte) (pairs : List (Nat × Nat × Nat)) (planes : Nat) (tags : List (Nat × TagRec))
    (ps : Pages) : State :=
  (addMat (allocFuture u e.g idx 4 u.seqs).1 e
    (.mul a (field b 2 1) (field b 4 4) (field b 8 4) (field b 12 4) pairs (allocFuture u e.g idx 4 u.seqs).2 planes) b none tags ps).1

/-- A handle stands in a register of a lane, tagged (R307). -/
def handleWritten (u : State) (e : Env) (d : Reg) (l : Nat) (w : Word) : State :=
  modWarp (writeReg u e.g e.w d.toNat l w) e.g e.w fun x => { x with tags := sins x.tags (32 * d.toNat + l) }

section
variable {e : Env} {p : Place} {u v : State} {l : Nat} {k : Option Hold}

theorem acceptLoad_ok (h : acceptLoad e p u l = .ok (v, k)) : ∃ va b bar t tag ps, blockOf u e p l = .ok (va, b) ∧ checkBarrier e va b 20 = .ok bar ∧
    tensorEntry u e (field b 0 1) 4 = .ok t ∧ TagOf u e b tag ∧ k = none ∧ v = loadJoined u e b bar tag t ps := by
  simp only [acceptLoad, bind_ok_iff, guardE_ok_iff, pure_ok_iff, Prod.exists, exists_const] at h
  obtain ⟨va, b, hblock, -, bar, hbar, t, hentry, -, -, ps, ls, -, -, -, hv⟩ := h
  obtain ⟨rfl, rfl⟩ := Prod.mk.inj hv
  exact ⟨va, b, bar, t, _, (ps, ls), hblock, hbar, hentry, ⟨rfl, rfl, rfl, rfl, rfl, rfl, rfl⟩, rfl, rfl⟩

theorem acceptMul_ok {d : Reg} (h : acceptMul e d p u l = .ok (v, k)) : (k ≠ none ∧ v = u) ∨ ∃ va b a tags ps idx u1 pairs planes,
    blockOf u e p l = .ok (va, b) ∧ tensorEntry u e (field b 0 1) 4 = .ok a ∧ (freeFutures (e.now u)).head? = some idx ∧
    claimSlots u e ((mulEntries b).map (· / 8)) = some u1 ∧ pairs.map (·.1) = (mulEntries b).map (· % 8) ∧ k = none ∧
    v = handleWritten (mulQueued u1 e idx a b pairs planes tags ps) e d l (allocFuture u1 e.g idx 4 u1.seqs).2 := by
  simp only [acceptMul, bind_ok_iff, guardE_ok_iff, Prod.exists, exists_const] at h
  obtain ⟨va, b, hblock, -, a, hentry, -, tags, -, -, -, -, ps1, ls1, -, ps, ls, -, -, -, hv⟩ := h
  split at hv
  · obtain ⟨rfl, rfl⟩ := Prod.mk.inj (pure_ok_iff.mp hv)
    exact .inl ⟨by simp, rfl⟩
  · obtain ⟨rfl, rfl⟩ := Prod.mk.inj (pure_ok_iff.mp hv)
    exact .inl ⟨by simp, rfl⟩
  · next idx u1 hidx hclaim =>
    obtain ⟨rfl, rfl⟩ := Prod.mk.inj (pure_ok_iff.mp hv)
    exact .inr ⟨va, b, a, tags, (ps, ls), idx, u1, _, _, hblock, hentry, hidx, hclaim, by rw [List.map_map]; rfl, rfl, rfl⟩

theorem acceptStream_ok {op : Nat} (h : acceptStream e op p u l = .ok (v, k)) : (k ≠ none ∧ v = u) ∨ ∃ va b t ps u1 sel,
    blockOf u e p l = .ok (va, b) ∧ claimSlots u e [field b 1 1] = some u1 ∧ k = none ∧
    v = (addMat u1 e (.stream op (field b 0 1) (physSlot u1 e (field b 1 1)) (field b 2 1) (field b 3 1) (field b 4 4) sel) b none [(field b 0 1, t)] ps).1 := by
  simp only [acceptStream, bind_ok_iff, guardE_ok_iff, Prod.exists, exists_const] at h
  obtain ⟨va, b, hblock, -, t, -, -, ps, ls, -, hv⟩ := h
  have hend (ks : List Nat) (hx : (match claimSlots u e [field b 1 1] with
      | none => pure (u, some Hold.slotWait)
      | some u1 => pure ((addMat u1 e (.stream op (field b 0 1) (physSlot u1 e (field b 1 1)) (field b 2 1) (field b 3 1) (field b 4 4) ks) b none
          [(field b 0 1, t)] (ps, ls)).1, none) : Except LaneFault (State × Option Hold)) = .ok (v, k)) :
      (k ≠ none ∧ v = u) ∨ ∃ va b t ps u1 sel, blockOf u e p l = .ok (va, b) ∧ claimSlots u e [field b 1 1] = some u1 ∧ k = none ∧
        v = (addMat u1 e (.stream op (field b 0 1) (physSlot u1 e (field b 1 1)) (field b 2 1) (field b 3 1) (field b 4 4) sel) b none
          [(field b 0 1, t)] ps).1 := by
    split at hx
    · obtain ⟨rfl, rfl⟩ := Prod.mk.inj (pure_ok_iff.mp hx)
      exact .inl ⟨by simp, rfl⟩
    · next u1 hclaim =>
      obtain ⟨rfl, rfl⟩ := Prod.mk.inj (pure_ok_iff.mp hx)
      exact .inr ⟨va, b, t, (ps, ls), u1, ks, hblock, hclaim, rfl, rfl⟩
  split at hv <;> simp only [bind_ok_iff, guardE_ok_iff, exists_const] at hv <;> obtain ⟨_, -, ks, -, -, hx⟩ := hv <;> exact hend ks hx

/-- The kind of an accepted MEPI's operation (R300). -/
def epiKind (b : List Byte) (t : Tensor) (slot : Nat) : MatKind :=
  .epi t slot (field b 2 1) (field b 3 1) (field b 4 4) (field b 8 4) (field b 12 2) (field b 14 2) (field b 16 8) (field b 24 8) (field b 32 8)
    (field b 40 8) (field b 48 1) (field b 49 1 % 2 == 1) (field b 49 1 / 2 % 2 == 1) (field b 49 1 / 4 == 1)

theorem acceptEpi_ok (h : acceptEpi e p u l = .ok (v, k)) : (k ≠ none ∧ v = u) ∨ ∃ va b bar t ps u2 u3,
    blockOf u e p l = .ok (va, b) ∧ checkBarrier e va b 52 = .ok bar ∧ tensorEntry u e (field b 0 1) 4 = .ok t ∧ TookBacking e.g u u2 ∧
    claimSlots u2 e [field b 1 1] = some u3 ∧ k = none ∧ v = (addMat u3 e (epiKind b t (physSlot u3 e (field b 1 1))) b bar [] ps).1 := by
  simp only [acceptEpi, bind_ok_iff, guardE_ok_iff, Prod.exists, exists_const] at h
  obtain ⟨va, b, hblock, -, bar, hbar, -, -, -, -, t, hentry, -, -, -, ps1, ls1, -, ps2, ls2, -, ps3, ls3, -, ps4, ls4, -, ps5, ls5, -, ps, ls, -, hv⟩ := h
  have hend (u1 u2 : State) (rs : List (Nat × Nat)) (h1 : rs.foldlM (fun x r => accWrites e (ps, ls) x r.1 r.2) u = .ok u1)
      (h2 : accWrites e (ps, ls) u1 (field b 40 8) (if field b 40 8 = 0 then 0 else 8 * field b 2 1) = .ok u2)
      (hx : (match claimSlots u2 e [field b 1 1] with
        | none => pure (u, some Hold.slotWait)
        | some u3 => pure ((addMat u3 e (epiKind b t (physSlot u3 e (field b 1 1))) b bar [] (ps, ls)).1, none) :
          Except LaneFault (State × Option Hold)) = .ok (v, k)) :
      (k ≠ none ∧ v = u) ∨ ∃ va b bar t ps u2 u3, blockOf u e p l = .ok (va, b) ∧ checkBarrier e va b 52 = .ok bar ∧
        tensorEntry u e (field b 0 1) 4 = .ok t ∧ TookBacking e.g u u2 ∧ claimSlots u2 e [field b 1 1] = some u3 ∧ k = none ∧
        v = (addMat u3 e (epiKind b t (physSlot u3 e (field b 1 1))) b bar [] ps).1 := by
    have htook : TookBacking e.g u u2 := (tookBacking_foldlM (fun _ _ _ ht => tookBacking_accWrites ht) h1).trans (tookBacking_accWrites h2)
    split at hx
    · obtain ⟨rfl, rfl⟩ := Prod.mk.inj (pure_ok_iff.mp hx)
      exact .inl ⟨by simp, rfl⟩
    · next u3 hclaim =>
      obtain ⟨rfl, rfl⟩ := Prod.mk.inj (pure_ok_iff.mp hx)
      exact .inr ⟨va, b, bar, t, (ps, ls), u2, u3, hblock, hbar, hentry, htook, hclaim, rfl, rfl⟩
  split at hv
  · simp only [bind_ok_iff] at hv
    obtain ⟨u1, h1, u2, h2, hx⟩ := hv
    exact hend u1 u2 _ h1 h2 hx
  · simp only [bind_ok_iff] at hv
    obtain ⟨-, -, u1, h1, u2, h2, hx⟩ := hv
    exact hend u1 u2 _ h1 h2 hx

/-! ## The place of the word is kept -/

theorem KeepsPlace.addMat (hk : KeepsPlace e u) (m : MatKind) (block : List Byte) (bar : Option Nat) (tags : List (Nat × TagRec)) (ps : Pages) :
    KeepsPlace e (addMat u e m block bar tags ps).1 := hk.of_groups rfl

theorem KeepsPlace.recordTag (hk : KeepsPlace e u) (m : Nat) (t : TagRec) : KeepsPlace e (recordTag u e m t) :=
  hk.modGroup fun _ => ⟨rfl, rfl, rfl, rfl⟩

theorem acceptLoad_keepsPlace (h : acceptLoad e p u l = .ok (v, k)) (hk : KeepsPlace e u) : KeepsPlace e v := by
  obtain ⟨va, b, bar, t, tag, ps, -, -, -, -, -, rfl⟩ := acceptLoad_ok h
  exact (hk.recordTag ..).addMat ..

theorem KeepsPlace.allocFuture (hk : KeepsPlace e u) (idx kind op : Nat) : KeepsPlace e (allocFuture u e.g idx kind op).1 :=
  hk.modGroup fun _ => ⟨rfl, rfl, rfl, rfl⟩

theorem acceptMul_keepsPlace {d : Reg} (h : acceptMul e d p u l = .ok (v, k)) (hk : KeepsPlace e u) : KeepsPlace e v := by
  rcases acceptMul_ok h with ⟨-, rfl⟩ | ⟨va, b, a, tags, ps, idx, u1, pairs, planes, -, -, -, hclaim, -, -, rfl⟩
  · exact hk
  · exact (((((claimSlots_claimed hclaim).keepsPlace hk).allocFuture idx 4 _).addMat ..).writeReg ..).modWarp fun _ => ⟨rfl, rfl⟩

theorem acceptStream_keepsPlace {op : Nat} (h : acceptStream e op p u l = .ok (v, k)) (hk : KeepsPlace e u) : KeepsPlace e v := by
  rcases acceptStream_ok h with ⟨-, rfl⟩ | ⟨va, b, t, ps, u1, sel, -, hclaim, -, rfl⟩
  · exact hk
  · exact ((claimSlots_claimed hclaim).keepsPlace hk).addMat ..

theorem acceptEpi_keepsPlace (h : acceptEpi e p u l = .ok (v, k)) (hk : KeepsPlace e u) : KeepsPlace e v := by
  rcases acceptEpi_ok h with ⟨-, rfl⟩ | ⟨va, b, bar, t, ps, u2, u3, -, -, -, htook, hclaim, -, rfl⟩
  · exact hk
  · exact ((claimSlots_claimed hclaim).keepsPlace (htook.keepsPlace hk)).addMat ..

end

end Sys2Proof.Machine
end

section
/-! PROOFS. Lanes whose blocks are all right join the queue one after the other (R273, R285). -/

namespace Sys2Proof.Machine

/-- Every lane takes its step: what holds before the lanes that are left, holds in the end before none. -/
theorem eachLane_steps {α : Type} {f : State → Nat → Except LaneFault (State × α)} {R : List Nat → State → Prop} {Q : α → Prop}
    (hf : ∀ l ls u, R (l :: ls) u → ∃ v a, f u l = .ok (v, a) ∧ R ls v ∧ Q a) : ∀ {ls : List Nat} {s : State}, R ls s →
    ∃ u as, eachLane f ls s = ([], u, as) ∧ R [] u ∧ ∀ x ∈ as, Q x.2
  | [], s, h => ⟨s, [], rfl, h, fun _ hx => by cases hx⟩
  | l :: ls, s, h => by
    obtain ⟨v, a, hv, hr, ha⟩ := hf l ls s h
    obtain ⟨u, as, hu, hend, has⟩ := eachLane_steps hf hr
    refine ⟨u, (l, a) :: as, by simp only [eachLane, hv, hu], hend, fun x hx => ?_⟩
    rcases List.mem_cons.mp hx with rfl | hx
    · exact ha
    · exact has x hx

/-! ## Entries of the walk-ahead -/

theorem length_pinKeys_le (u : State) (e : Env) (vps : List Nat) : (pinKeys u e vps).length ≤ vps.length := by
  unfold pinKeys
  have := foldl_sins_length_le (vps.map fun vp => match translate u e.die e.gr.ctx (gens u e.gr) (BitVec.ofNat 64 (65536 * vp)) { kind := 4, need := 0 } with
    | .ok l => (if l.size = 0 then 4 * vp else if l.size = 1 then 4 * (vp / 32) + 1 else 4 * (vp / 16384) + 2) +
        2 ^ 44 * (e.gr.ctx + 4096 * (match l.vs with | some (r, i) => 1 + 4 * r + i | none => 0))
    | _ => 4 * vp + 2 ^ 44 * e.gr.ctx) []
  rw [List.length_map, List.length_nil, Nat.zero_add] at this
  exact this

theorem pinsIn_congr {s u : State} (hc : u.copies = s.copies) (hm : u.matops = s.matops) (c : Nat) : pinsIn u c = pinsIn s c := by
  simp only [pinsIn, hc, hm]

theorem pinsIn_addMat (u : State) (e : Env) (k : MatKind) (block : List Byte) (bar : Option Nat) (tags : List (Nat × TagRec)) (ps : Pages) (c : Nat) :
    pinsIn (addMat u e k block bar tags ps).1 c ≤ pinsIn u c + ps.1.length := by
  have hkeys : (pinKeys u e (ps.1.map (·.1))).length ≤ ps.1.length := (length_pinKeys_le ..).trans (by rw [List.length_map])
  simp only [pinsIn, addMat, List.filter_append, List.flatMap_append, sinsAll, List.foldl_append]
  refine (foldl_sins_length_le ..).trans (Nat.add_le_add_left ?_ _)
  rw [List.filter_cons]
  split
  · simpa using hkeys
  · simp

/-! ## What is left to the lanes that follow -/

/-- A state on the way, before the lanes that are left: `ps` and `ls` are the pages and slots of the lanes; tags are kept for words that
read them, future entries are left for words that take them. -/
structure Ready (e : Env) (s : State) (ps : Nat → Pages) (ls : Nat → List Nat) (reads takes : Prop) (rem : List Nat) (u : State) : Prop where
  accepting : Accepting s u
  place : KeepsPlace e u
  tags : reads → (e.now u).tagRecs = (e.now s).tagRecs
  slots : slotsMissing (e.now u).slots (rem.flatMap ls) ≤ slotsFree u e.gr.core
  futures : takes → rem.length ≤ (freeFutures (e.now u)).length
  count : u.matops.length + rem.length = s.matops.length + (lanesOf e.live).length
  pins : pinsIn u (e.gr.core / 2) + (rem.map fun l => (ps l).1.length).sum ≤ 1024
  live : ∀ l ∈ rem, bit e.live l = true

section
variable {e : Env} {s u v : State} {ps : Nat → Pages} {ls : Nat → List Nat} {reads takes : Prop} {rem : List Nat} {l : Nat}

theorem KeepsPlace.now (h : KeepsPlace e u) : group? u e.g = some (e.now u) ∧ (e.now u).core = e.gr.core := by
  obtain ⟨gr, wp, hg, -, hc, -⟩ := h
  rw [now_of hg]
  exact ⟨hg, hc⟩

theorem ready_start (hh : Here e s) (hslots : SlotRoom s e ((lanesOf e.live).flatMap ls)) (hfut : takes → (lanesOf e.live).length ≤ (freeFutures e.gr).length)
    (hpins : pinsIn s (e.gr.core / 2) + ((lanesOf e.live).map fun l => (ps l).1.length).sum ≤ 1024) :
    Ready e s ps ls reads takes (lanesOf e.live) s := by
  have hnow : e.now s = e.gr := now_of hh.1
  exact ⟨.refl s, keepsPlace_of_here hh, fun _ => rfl, by rw [hnow]; exact (slotRoom_iff ..).mp hslots, by rw [hnow]; exact hfut, rfl, hpins,
    fun l hl => (mem_lanesOf ..).mp hl⟩

theorem Ready.core (h : Ready e s ps ls reads takes rem u) (hs : KeepsPlace e s) : (e.now u).core = (e.now s).core :=
  h.place.now.2.trans hs.now.2.symm

/-- One more operation has joined the queue. -/
theorem Ready.joined (h : Ready e s ps ls reads takes (l :: rem) u) {t : State} (hacc : Accepting u t) (hplace : KeepsPlace e t)
    (hops : t.matops = u.matops) (hcopies : t.copies = u.copies) (htags : reads → (e.now t).tagRecs = (e.now u).tagRecs)
    (hslots : slotsMissing (e.now t).slots (rem.flatMap ls) ≤ slotsFree t e.gr.core) (hfut : takes → rem.length ≤ (freeFutures (e.now t)).length)
    (k : MatKind) (block : List Byte) (bar : Option Nat) (tags : List (Nat × TagRec)) :
    Ready e s ps ls reads takes rem (addMat t e k block bar tags (ps l)).1 where
  accepting := (h.accepting.trans hacc).addMat ..
  place := hplace.addMat ..
  tags hr := (htags hr).trans (h.tags hr)
  slots := hslots
  futures := hfut
  count := by
    have hc := h.count
    rw [List.length_cons] at hc
    simp only [addMat, List.length_append, List.length_singleton, hops]
    omega
  pins := by
    have hp := h.pins
    have hadd := pinsIn_addMat t e k block bar tags (ps l) (e.gr.core / 2)
    rw [pinsIn_congr hcopies hops] at hadd
    rw [List.map_cons, List.sum_cons] at hp
    omega
  live j hj := h.live j (List.mem_cons_of_mem _ hj)

/-- The word's warp alone has changed. -/
theorem Ready.of_warp (h : Ready e s ps ls reads takes rem u) (ho : OnlyWarp (e.on u) u v) (hk : KeepsPlace e v) : Ready e s ps ls reads takes rem v := by
  obtain ⟨honly, hothers, hcores, gr', hg', hrest, -⟩ := ho
  obtain ⟨hg, -⟩ := h.place.now
  have hgr : (e.on u).gr = e.now u := rfl
  have hmine : group? v e.g = some gr' := hg'
  have hnow : e.now v = gr' := now_of hmine
  have hslots : (e.now v).slots = (e.now u).slots := by rw [hnow, ← hgr, ← hrest]
  have hfutures : (e.now v).futures = (e.now u).futures := by rw [hnow, ← hgr, ← hrest]
  have htags : (e.now v).tagRecs = (e.now u).tagRecs := by rw [hnow, ← hgr, ← hrest]
  have hheap : gr'.heap = (e.now u).heap := by rw [← hgr, ← hrest]
  have hkind : gr'.kind = (e.now u).kind := by rw [← hgr, ← hrest]
  have hfree : freeFutures (e.now v) = freeFutures (e.now u) := by rw [freeFutures, freeFutures, hfutures]
  have hslot : slotsFree v e.gr.core = slotsFree u e.gr.core := by
    rw [slotsFree, slotsFree, ← hcores e.gr.core]
  have hops : v.matops = u.matops := by rw [honly]
  have hcopies : v.copies = u.copies := by rw [honly]
  refine ⟨h.accepting.trans ⟨⟨v.groups, v.cores, u.matops, u.seqs, honly⟩, fun g => ?_, fun c => by rw [← hcores c]⟩, hk, fun hr => htags.trans (h.tags hr),
    by rw [hslots, hslot]; exact h.slots, by rw [hfree]; exact h.futures, by rw [hops]; exact h.count, by rw [pinsIn_congr hcopies hops]; exact h.pins, h.live⟩
  by_cases hgg : g = e.g
  · rw [hgg, hmine, hg]
    exact congrArg some (Prod.ext hheap hkind)
  · rw [hothers g hgg]

end

end Sys2Proof.Machine
end

section
/-! PROOFS. A right block in one lane is accepted (R285, R293 to R300). -/

namespace Sys2Proof.Machine

theorem forM_ok {ε α : Type} {f : α → Except ε Unit} : ∀ {xs : List α}, (∀ x ∈ xs, f x = .ok ()) → xs.forM f = .ok ()
  | [], _ => rfl
  | x :: xs, h => by
    exact bind_ok_iff.mpr ⟨(), h x (List.mem_cons_self ..), forM_ok fun y hy => h y (List.mem_cons_of_mem _ hy)⟩

theorem mapM_ok {ε α β : Type} {f : α → Except ε β} {Q : β → Prop} : ∀ {xs : List α}, (∀ x ∈ xs, ∃ y, f x = .ok y ∧ Q y) →
    ∃ ys, xs.mapM f = .ok ys ∧ ∀ y ∈ ys, Q y
  | [], _ => ⟨[], rfl, fun _ hy => by cases hy⟩
  | x :: xs, h => by
    obtain ⟨y, hy, hq⟩ := h x (List.mem_cons_self ..)
    obtain ⟨ys, hys, hqs⟩ := mapM_ok (f := f) fun z hz => h z (List.mem_cons_of_mem _ hz)
    refine ⟨y :: ys, by rw [List.mapM_cons]; exact bind_ok_iff.mpr ⟨y, hy, bind_ok_iff.mpr ⟨ys, hys, rfl⟩⟩, fun z hz => ?_⟩
    rcases List.mem_cons.mp hz with rfl | hz
    · exact hq
    · exact hqs z hz

section
variable {e : Env} {s u : State} {ps : Nat → Pages} {ls : Nat → List Nat} {reads takes : Prop} {rem : List Nat} {l : Nat} {p : Place}

theorem Ready.slots_rest (h : Ready e s ps ls reads takes (l :: rem) u) : slotsMissing (e.now u).slots (rem.flatMap ls) ≤ slotsFree u e.gr.core :=
  (slotsMissing_mono fun k hk => by rw [List.flatMap_cons]; exact List.mem_append_right _ hk).trans h.slots

theorem Ready.futures_rest (h : Ready e s ps ls reads takes (l :: rem) u) (ht : takes) : rem.length ≤ (freeFutures (e.now u)).length :=
  (Nat.le_succ _).trans (h.futures ht)

/-! ### MBLOAD -/

theorem Ready.loadJoined (h : Ready e s ps ls reads takes (l :: rem) u) (hr : ¬ reads) (b : List Byte) (bar : Option Nat) (tag : Tag) (t : Tensor) :
    Ready e s ps ls reads takes rem (loadJoined u e b bar tag t (ps l)) := by
  have hnow : e.now (recordTag u e (field b 1 1) { tag := tag, entry := t }) =
      { e.now u with tagRecs := sput (e.now u).tagRecs (field b 1 1) { tag := tag, entry := t } } :=
    now_of (by rw [recordTag, group?_modGroup_self, h.place.now.1]; rfl)
  have hacc : Accepting u (recordTag u e (field b 1 1) { tag := tag, entry := t }) := (Accepting.refl u).modGroup _ fun _ => ⟨rfl, rfl⟩
  refine h.joined hacc (h.place.recordTag ..) (modGroup_matops ..) (modGroup_copies ..) (fun hx => absurd hx hr) ?_ ?_ ..
  · rw [hnow, slotsFree, recordTag, core_modGroup]
    exact h.slots_rest
  · rw [hnow]
    exact h.futures_rest

/-- The tag of an MBLOAD's block, its generation apart (R294). -/
def loadTag (u : State) (e : Env) (b : List Byte) : Tag :=
  { ctx := e.gr.ctx, tid := field b 0 1, count := setCount u e.gr.ctx (field b 0 1), k0 := field b 4 4, n0 := field b 8 4, i2 := field b 12 4
    i3 := field b 16 4, gen := none }

theorem Ready.load (h : Ready e s ps ls reads takes (l :: rem) u) (hs : KeepsPlace e s) (hok : LoadOk s e p l (ps l) (ls l)) :
    ∃ b bar tag t, acceptLoad e p u l = .ok (Machine.loadJoined u e b bar tag t (ps l), none) := by
  obtain ⟨va, b, bar, t, hblock, h1, h2, h3, h4, h5, hbar, hentry, h6, h7, h8, ⟨hpages, hrun⟩, -⟩ := hok
  have ha := h.accepting
  rw [← ha.blockOf] at hblock
  rw [← ha.tensorEntry] at hentry
  simp only [← ha.accRanges, ← ha.checkRun e (h.core hs), ← ha.setCount] at hpages hrun
  refine ⟨b, bar, { loadTag u e b with gen := ((tileRanges t (loadTag u e b)).head?).bind fun r => tileGen u e t r.1 }, t, ?_⟩
  simp only [acceptLoad, bind_ok_iff, guardE_ok_iff, pure_ok_iff, Prod.exists, exists_const]
  exact ⟨va, b, hblock, by rw [h5]; simp [h1, h2, h3, h4], bar, hbar, t, hentry, by grind, by simpa using h8, (ps l).1, (ps l).2, hpages, (),
    forM_ok fun c hc => hrun c (List.mem_range.mp hc), rfl⟩

/-! ### MMUL -/

theorem Ready.mulJoined (h : Ready e s ps ls reads takes (l :: rem) u) {u1 : State} {idx : Nat} (hclaim : claimSlots u e (ls l) = some u1)
    (hidx : (freeFutures (e.now u)).head? = some idx) (hslots : slotsMissing (e.now u1).slots (rem.flatMap ls) ≤ slotsFree u1 e.gr.core)
    (a : Tensor) (b : List Byte) (pairs : List (Nat × Nat × Nat)) (planes : Nat) (tags : List (Nat × TagRec)) (d : Reg) :
    Ready e s ps ls reads takes rem (handleWritten (mulQueued u1 e idx a b pairs planes tags (ps l)) e d l (allocFuture u1 e.g idx 4 u1.seqs).2) := by
  have hcl := claimSlots_claimed hclaim
  have hk1 := hcl.keepsPlace h.place
  obtain ⟨sl, hu1, -⟩ := hcl.mine _ h.place.now.1
  have hnow1 : e.now u1 = { e.now u with slots := sl } := now_of hu1
  have halloc := (allocFuture_eq hu1 idx 4 u1.seqs).1
  have hnow2 : e.now (allocFuture u1 e.g idx 4 u1.seqs).1 = withFuture { e.now u with slots := sl } idx 4 u1.seqs (genAfter { e.now u with slots := sl } idx) :=
    now_of (by rw [halloc, group?_modGroup_self, hu1]; rfl)
  have hqueued : Ready e s ps ls reads takes rem (mulQueued u1 e idx a b pairs planes tags (ps l)) := by
    have hacc : Accepting u (allocFuture u1 e.g idx 4 u1.seqs).1 := halloc ▸ hcl.accepting.modGroup e.g fun _ => ⟨rfl, rfl⟩
    refine h.joined hacc (hk1.allocFuture ..) ?_ ?_ (fun _ => by rw [hnow2]; rfl) ?_ (fun ht => ?_) ..
    · rw [halloc, modGroup_matops, hcl.only]
    · rw [halloc, modGroup_copies, hcl.only]
    · rw [hnow2, slotsFree, halloc, core_modGroup]
      rw [hnow1] at hslots
      exact hslots
    · have hfree : (freeFutures { e.now u with slots := sl }).head? = some idx := hidx
      rw [hnow2, freeFutures_withFuture hfree, List.length_tail]
      have := h.futures ht
      rw [List.length_cons] at this
      have heq : freeFutures { e.now u with slots := sl } = freeFutures (e.now u) := rfl
      rw [heq]; omega
  obtain ⟨gr, wp, hg, hw, -⟩ := hqueued.place
  have hhere : Here (e.on (mulQueued u1 e idx a b pairs planes tags (ps l))) (mulQueued u1 e idx a b pairs planes tags (ps l)) := by
    rw [on_of_reads hg hw]; exact ⟨hg, hw⟩
  have hwrite := wrote_writeReg (e := e.on (mulQueued u1 e idx a b pairs planes tags (ps l))) d.toNat l (allocFuture u1 e.g idx 4 u1.seqs).2
    (bit_lt (h.live l (List.mem_cons_self ..))) (wrote_refl hhere)
  exact hqueued.of_warp (onlyWarp_modWarp _ hwrite.2.1) ((hqueued.place.writeReg ..).modWarp fun _ => ⟨rfl, rfl⟩)

theorem Ready.mul (h : Ready e s ps ls reads takes (l :: rem) u) (hs : KeepsPlace e s) (hr : reads) (ht : takes) {d : Reg}
    (hok : MulOk s e p l (ps l) (ls l)) : ∃ v, acceptMul e d p u l = .ok (v, none) ∧ Ready e s ps ls reads takes rem v := by
  obtain ⟨va, b, a, tags, ps1, hblock, hn0, hn8, hr0, hr32, h3, hes, hz1, hz2, hentry, hfmt, hsparse, htags, hmay, hdistinct, hk0, hpages1, hpages, hrun, hls⟩ := hok
  have ha := h.accepting
  rw [← ha.blockOf] at hblock
  rw [← ha.tensorEntry] at hentry
  simp only [← ha.recordedTag e (h.tags hr), ← ha.accRanges, ← ha.checkRun e (h.core hs)] at htags hpages1 hpages hrun
  obtain ⟨u1, hclaim, hslots⟩ := claimSlots_room (ls l) (rest := rem.flatMap ls) h.place.now.1 (by simpa using h.slots)
  obtain ⟨idx, hidx⟩ : ∃ idx, (freeFutures (e.now u)).head? = some idx := by
    have hlen := h.futures ht
    rw [List.length_cons] at hlen
    cases hf : freeFutures (e.now u) with
    | nil => rw [hf] at hlen; simp at hlen
    | cons x xs => exact ⟨x, rfl⟩
  refine ⟨_, ?_, h.mulJoined hclaim hidx hslots a b ((mulEntries b).map fun x => (x % 8, physSlot u1 e (x / 8),
    ((((tagIn tags (x % 8)).map fun t => t.tag.k0).getD 0 : Nat) + (BitVec.ofNat 32 (field b 24 4)).toInt).toNat)) (planesOf u e a.format) tags d⟩
  have hclaim' : claimSlots u e (((List.range (field b 1 1)).map fun i => field b (16 + i) 1).map (· / 8)) = some u1 := hls ▸ hclaim
  simp only [acceptMul, bind_ok_iff, guardE_ok_iff, Prod.exists, exists_const]
  refine ⟨va, b, hblock, ?_, a, hentry, ?_, tags, htags, ?_, ?_, ?_, ps1.1, ps1.2, hpages1, (ps l).1, (ps l).2, hpages, (),
    forM_ok fun x hx => forM_ok fun r hr => hrun x hx r hr, ?_⟩
  · rw [hz1, hz2]
    simp only [Bool.or_eq_false_iff, Bool.not_true, and_true, List.any_eq_false, decide_eq_false_iff_not, decide_eq_true_eq, beq_eq_false_iff_ne, bne_eq_false_iff_eq]
    exact ⟨⟨⟨⟨⟨by omega, by omega⟩, by omega⟩, by omega⟩, h3⟩, fun x hx => by have := hes x hx; omega⟩
  · simp [hfmt, hsparse]
  · rw [List.any_eq_false]
    intro x hx
    cases htag : tagIn tags (x % 8) with
    | none => simp
    | some t => simp [hmay x hx t htag]
  · rw [List.any_eq_false]
    intro i hi hany
    obtain ⟨j, hj, hsame⟩ := List.any_eq_true.mp hany
    rw [Bool.and_eq_true, beq_iff_eq, beq_iff_eq] at hsame
    exact hdistinct i j (List.mem_range.mp hi) (List.mem_range.mp hj) hsame.1 hsame.2
  · rw [List.any_eq_false]
    intro x hx hbad
    obtain ⟨h1, h2⟩ := hk0 x hx
    rw [Bool.or_eq_true, decide_eq_true_eq, decide_eq_true_eq] at hbad
    rcases hbad with hbad | hbad
    · exact absurd h1 (not_le.mpr hbad)
    · exact hbad h2
  · rw [hidx, hclaim']
    rfl

/-! ### Words of one slot -/

/-- A word that has claimed its slots has joined the queue. -/
theorem Ready.claimJoined (h : Ready e s ps ls reads takes (l :: rem) u) {u1 : State} (hclaim : claimSlots u e (ls l) = some u1)
    (hslots : slotsMissing (e.now u1).slots (rem.flatMap ls) ≤ slotsFree u1 e.gr.core) (k : MatKind) (block : List Byte) (bar : Option Nat)
    (tags : List (Nat × TagRec)) : Ready e s ps ls reads takes rem (addMat u1 e k block bar tags (ps l)).1 := by
  have hcl := claimSlots_claimed hclaim
  obtain ⟨sl, hu1, -⟩ := hcl.mine _ h.place.now.1
  have hnow1 : e.now u1 = { e.now u with slots := sl } := now_of hu1
  refine h.joined hcl.accepting (hcl.keepsPlace h.place) (by rw [hcl.only]) (by rw [hcl.only]) (fun _ => by rw [hnow1]) hslots (fun ht => ?_) ..
  rw [hnow1]
  exact h.futures_rest ht

theorem Ready.stream (h : Ready e s ps ls reads takes (l :: rem) u) (hh : Here e s) (hr : reads) {op : Nat}
    (hok : StreamOk s e op p l (ps l) (ls l)) : ∃ v, acceptStream e op p u l = .ok (v, none) ∧ Ready e s ps ls reads takes rem v := by
  obtain ⟨va, b, t, sps, hblock, h1, h2, h3, h4, h5, h6, h7, h8, h9, hz, htag, hkt, hpages, hsel, hls⟩ := hok
  have ha := h.accepting
  have hcore := h.core (keepsPlace_of_here hh)
  have hnow : e.gr = e.now s := (now_of hh.1).symm
  rw [← ha.blockOf] at hblock
  rw [hnow] at hsel
  simp only [← ha.recordedTag e (h.tags hr), ← ha.accRanges, ← ha.accRange, ← ha.pinnedRead e _ hcore] at htag hpages hsel
  obtain ⟨u1, hclaim, hslots⟩ := claimSlots_room (ls l) (rest := rem.flatMap ls) h.place.now.1 (by simpa using h.slots)
  have hjoin (ks : List Nat) := h.claimJoined hclaim hslots
    (.stream op (field b 0 1) (physSlot u1 e (field b 1 1)) (field b 2 1) (field b 3 1) (field b 4 4) ks) b none [(field b 0 1, t)]
  have hclaim' : claimSlots u e [field b 1 1] = some u1 := hls ▸ hclaim
  have hfields : (decide (field b 0 1 > 7) || decide (field b 1 1 > 7) || field b 2 1 == 0 || decide (field b 2 1 > 32) || (op == 2 && field b 2 1 != 1) ||
      decide (field b 3 1 + field b 2 1 > 32) || (op != 0 && field b 4 4 != 0) || (op != 1 && field b 8 8 != 0) || (op == 1 && field b 8 8 % 2 != 0) ||
      !((b.drop 16).all (· == 0))) = false := by
    rw [hz]
    simp only [Bool.or_eq_false_iff, Bool.and_eq_false_imp, Bool.not_true, and_true, decide_eq_false_iff_not, beq_eq_false_iff_ne, bne_eq_false_iff_eq,
      beq_iff_eq, bne_iff_ne]
    exact ⟨⟨⟨⟨⟨⟨⟨⟨by omega, by omega⟩, by omega⟩, by omega⟩, h5⟩, by omega⟩, h7⟩, h8⟩, h9⟩
  have hkt' : (op == 0 && decide (field b 4 4 + field b 2 1 > tileK t.entry)) = false := by
    rw [Bool.and_eq_false_imp, beq_iff_eq]
    exact fun h0 => decide_eq_false (by have := hkt h0; omega)
  by_cases hop : op = 1
  · obtain ⟨hrange, hread⟩ := hsel hop
    obtain ⟨ks, hks, hlt⟩ := mapM_ok (f := fun i => match pinnedRead u (e.now u) sps.1 (field b 8 8 + 2 * i) 2 with
      | .ok x => (.ok (leNat x) : Except LaneFault Nat) | .error a => bad .eccu a 0) (Q := (· < tileK t.entry)) (xs := List.range (field b 2 1)) fun i hi => by
        obtain ⟨x, hx, hlt⟩ := hread i (List.mem_range.mp hi)
        exact ⟨leNat x, by rw [hx], hlt⟩
    refine ⟨_, ?_, hjoin ks⟩
    simp only [acceptStream, bind_ok_iff, guardE_ok_iff, Prod.exists, exists_const]
    refine ⟨va, b, hblock, hfields, t, htag, hkt', (ps l).1, (ps l).2, hpages, ?_⟩
    rw [if_pos hop, bind_ok_iff]
    refine ⟨sps, hrange, bind_ok_iff.mpr ⟨ks, ?_, bind_ok_iff.mpr ⟨(), guardE_ok_iff.mpr ?_, ?_⟩⟩⟩
    · rw [if_neg (not_not.mpr hop)]; exact hks
    · exact List.any_eq_false.mpr fun k hk => by simpa using hlt k hk
    · rw [hclaim']; rfl
  · refine ⟨_, ?_, hjoin []⟩
    simp only [acceptStream, bind_ok_iff, guardE_ok_iff, Prod.exists, exists_const]
    refine ⟨va, b, hblock, hfields, t, htag, hkt', (ps l).1, (ps l).2, hpages, ?_⟩
    rw [if_neg hop, bind_ok_iff]
    refine ⟨([], []), rfl, bind_ok_iff.mpr ⟨[], ?_, bind_ok_iff.mpr ⟨(), rfl, ?_⟩⟩⟩
    · rw [if_pos hop]; rfl
    · rw [hclaim']; rfl

/-! ### MEPI -/

theorem Ready.epi (h : Ready e s ps ls reads takes (l :: rem) u) (hs : KeepsPlace e s) (hok : EpiOk s e p l (ps l) (ls l)) :
    ∃ v, acceptEpi e p u l = .ok (v, none) ∧ Ready e s ps ls reads takes rem v := by
  obtain ⟨va, b, bar, t, hblock, h1, h2, h3, h4, h5, h6, h7, h8, hz, hbar, h9, h10, h11, h12, hentry, h13, h14, h15, hpages, hrun, hplain, hstats, hls⟩ := hok
  have ha := h.accepting
  rw [← ha.blockOf] at hblock
  rw [← ha.tensorEntry] at hentry
  simp only [← ha.accRanges, ← ha.accRange, ← ha.checkRun e (h.core hs)] at hpages hrun
  simp only [bind_ok_iff] at hpages
  obtain ⟨q1, hq1, q2, hq2, q3, hq3, q4, hq4, q5, hq5, hq6⟩ := hpages
  obtain ⟨u1, hclaim, hslots⟩ := claimSlots_room (ls l) (rest := rem.flatMap ls) h.place.now.1 (by simpa using h.slots)
  have hclaim' : claimSlots u e [field b 1 1] = some u1 := hls ▸ hclaim
  refine ⟨_, ?_, h.claimJoined hclaim hslots (epiKind b t (physSlot u1 e (field b 1 1))) b bar []⟩
  have hfields : (decide (field b 1 1 > 7) || field b 2 1 == 0 || decide (field b 2 1 > 32) || field b 3 1 == 0 || decide (field b 3 1 > 64) ||
      decide (field b 48 1 > 2) || decide (field b 49 1 > 7) || field b 50 2 != 0 || !((b.drop 56).all (· == 0))) = false := by
    rw [hz]
    simp only [Bool.or_eq_false_iff, Bool.not_true, and_true, decide_eq_false_iff_not, beq_eq_false_iff_ne, bne_eq_false_iff_eq]
    omega
  have hdest : (if (field b 49 1 / 4 == 1) = true then (([], []) : List (Nat × Nat) × List (Nat × Nat)) else
      epiRanges t (field b 2 1) (field b 3 1) (field b 4 4) (field b 8 4) (field b 12 2) (field b 14 2)) =
      if field b 49 1 / 4 = 1 then ([], []) else epiRanges t (field b 2 1) (field b 3 1) (field b 4 4) (field b 8 4) (field b 12 2) (field b 14 2) :=
    if_congr (by rw [beq_iff_eq]) rfl rfl
  rw [← hdest] at hq1 hq2 hplain
  have hwrites : (if (field b 49 1 / 4 == 1) = true then (([], []) : List (Nat × Nat) × List (Nat × Nat)) else
      epiRanges t (field b 2 1) (field b 3 1) (field b 4 4) (field b 8 4) (field b 12 2) (field b 14 2)).1.foldlM
        (fun x r => accWrites e (ps l) x r.1 r.2) u = .ok u := by
    revert hplain
    generalize (if (field b 49 1 / 4 == 1) = true then (([], []) : List (Nat × Nat) × List (Nat × Nat)) else
      epiRanges t (field b 2 1) (field b 3 1) (field b 4 4) (field b 8 4) (field b 12 2) (field b 14 2)).1 = rs
    intro hplain
    induction rs with
    | nil => rfl
    | cons r rs ih =>
      rw [List.foldlM_cons, bind_ok_iff]
      exact ⟨u, accWrites_plain ha fun _ => hplain r (List.mem_cons_self ..), ih fun x hx => hplain x (List.mem_cons_of_mem _ hx)⟩
  have hpair : accWrites e (ps l) u (field b 40 8) (if field b 40 8 = 0 then 0 else 8 * field b 2 1) = .ok u := by
    refine accWrites_plain ha fun hne => ?_
    split at hne
    · exact absurd rfl hne
    · next hst => rw [if_neg hst]; exact hstats hst
  simp only [acceptEpi, bind_ok_iff, guardE_ok_iff, Prod.exists, exists_const]
  refine ⟨va, b, hblock, hfields, bar, hbar, by simp [h9], by simp [h10], by simp [h11], by simp [h12], t, hentry, by simp [h13], ?_, ?_, q1.1, q1.2, hq1,
    q2.1, q2.2, hq2, q3.1, q3.2, hq3, q4.1, q4.2, hq4, q5.1, q5.2, hq5, (ps l).1, (ps l).2, hq6, ?_⟩
  · simp only [Bool.and_eq_false_imp, Bool.or_eq_false_iff, beq_iff_eq, bne_eq_false_iff_eq]
    exact h14
  · simp only [Bool.and_eq_false_imp, beq_eq_false_iff_ne]
    exact fun hf => by have := h15 hf; omega
  · by_cases hstore : (field b 49 1 / 4 == 1) = true
    · refine (if_pos hstore).trans (bind_ok_iff.mpr ⟨u, hwrites, bind_ok_iff.mpr ⟨u, hpair, ?_⟩⟩)
      rw [hclaim']; rfl
    · refine (if_neg hstore).trans ?_
      refine bind_ok_iff.mpr ⟨(), forM_ok fun r hr => hrun (by simpa using hstore) r (List.mem_range.mp hr), bind_ok_iff.mpr ⟨u, hwrites,
        bind_ok_iff.mpr ⟨u, hpair, ?_⟩⟩⟩
      rw [hclaim']; rfl

end

end Sys2Proof.Machine
end

section
/-! PROOFS. The words of the matrix class join the queue of their core, wait or fault (R272, R273, R285, R293 to R300, R305). -/

namespace Sys2Proof.Machine

section
variable {e : Env} {s u v : State}

theorem KeepsPlace.retryAccept (h : KeepsPlace e u) : KeepsPlace e (retryAccept u) := by
  obtain ⟨gr, wp, hg, hw, hc, hx, hl, ha, hr⟩ := h
  obtain ⟨ws, hs, hg', hw'⟩ := retryAccept_finds hg hw
  exact ⟨_, _, hg', hw', hc, hx, hl, ha, hr⟩

theorem KeepsPlace.leaveWalkers (h : KeepsPlace e u) : KeepsPlace e (leaveWalkers u e) := by
  unfold Machine.leaveWalkers
  split
  · exact h
  · exact KeepsPlace.retryAccept (h.of_groups rfl)

theorem leaveWalkers_matops (u : State) (e : Env) : (leaveWalkers u e).matops = u.matops := by
  unfold leaveWalkers
  split <;> rfl

theorem keepsPlace_joinWalkers (hh : Here e s) : KeepsPlace e (joinWalkers s e) := (keepsPlace_of_here hh).of_groups rfl

end

/-! ## Words with a block -/

/-- A matrix word joins the queue, waits or faults: `f` takes one lane's step, `ok` says that its block is right. -/
def MatRuns (s : State) (e : Env) (i : Instr) (f : State → Nat → Except LaneFault (State × Option Hold)) (ok : Nat → Pages → List Nat → Prop)
    (room : Prop) : Prop :=
  (e.live = 0 → Completes i s e noResult) ∧
  (e.live ≠ 0 → 16 < queueUsed s e.gr.core + (lanesOf e.live).length → HoldsOn i s e s .accept e.live) ∧
  (∀ (ps : Nat → Pages) (ls : Nat → List Nat), e.live ≠ 0 → queueUsed s e.gr.core + (lanesOf e.live).length ≤ 16 →
    (∀ l, bit e.live l = true → ok l (ps l) (ls l)) → SlotRoom s e ((lanesOf e.live).flatMap ls) → room → walkTurn s e = true →
    pinsIn s (e.gr.core / 2) + ((lanesOf e.live).map fun l => (ps l).1.length).sum ≤ 1024 →
    ∃ u, u.matops.length = s.matops.length + (lanesOf e.live).length ∧ CompletesOn i s e u noResult) ∧
  (e.live ≠ 0 → queueUsed s e.gr.core + (lanesOf e.live).length ≤ 16 → ∀ u as, LanesGive e f s u as →
    ((∀ x ∈ as, x.2 = none) → walkTurn s e = true → pinsIn u (e.gr.core / 2) ≤ 1024 → CompletesOn i s e (leaveWalkers u e) noResult) ∧
    ((∀ x ∈ as, x.2 = none) → walkTurn s e = false ∨ 1024 < pinsIn u (e.gr.core / 2) → HoldsOn i s e (joinWalkers s e) .accept e.live) ∧
    ∀ k, as.findSome? (·.2) = some k → HoldsOn i s e s k e.live) ∧
  ∀ l c d0 d1, leader e.live = some l → queueUsed s e.gr.core + (lanesOf e.live).length ≤ 16 → f s l = .error (some (c, d0, d1)) →
    FaultsFirst i s e s c d0 d1

section
variable {e : Env} {s : State} {i : Instr} {f : Env → State → Nat → Except LaneFault (State × Option Hold)}

/-- What a matrix word comes to past the checks of its queue. -/
def matBody (e : Env) (s : State) (f : State → Nat → Except LaneFault (State × Option Hold)) : WordRes :=
  lanesThen e s f fun u as => match as.findSome? (·.2) with
    | some k => .hold s k e.live
    | none => reserveThen e s u e.live

theorem matWord_idle (hi : Issues i s e) (hlive : e.live = 0) : matWord i s f = finish e i (.done s) s := by
  rw [matWord, runWord_issues hi, if_pos hlive]

theorem matWord_full (hi : Issues i s e) (hlive : e.live ≠ 0) (hq : 16 < queueUsed s e.gr.core + (lanesOf e.live).length) :
    matWord i s f = finish e i (.hold s .accept e.live) s := by
  rw [matWord, runWord_issues hi, if_neg hlive, if_pos hq]

theorem matWord_fits (hi : Issues i s e) (hlive : e.live ≠ 0) (hq : queueUsed s e.gr.core + (lanesOf e.live).length ≤ 16) :
    matWord i s f = finish e i (matBody e s (f e)) s := by
  rw [matWord, runWord_issues hi, if_neg hlive, if_neg (not_lt.mpr hq)]
  rfl

theorem findSome?_none_of {as : List (Nat × Option Hold)} (h : ∀ x ∈ as, x.2 = none) : as.findSome? (·.2) = none :=
  List.findSome?_eq_none_iff.mpr h

theorem matRuns (hi : Issues i s e) (hx : exec i s = matWord i s f) (ha : ∀ x gr wp, affineWord x { e with gr := gr, wp := wp } i = affineWord x e i)
    (hkeep : ∀ u l v k, KeepsPlace e u → f e u l = .ok (v, k) → KeepsPlace e v) {ok : Nat → Pages → List Nat → Prop} {room reads takes : Prop}
    (hroom : takes → room → (lanesOf e.live).length ≤ (freeFutures e.gr).length)
    (hlane : ∀ ps ls l rem u, Ready e s ps ls reads takes (l :: rem) u → ok l (ps l) (ls l) → ∃ v, f e u l = .ok (v, none) ∧ Ready e s ps ls reads takes rem v) :
    MatRuns s e i (f e) ok room := by
  have hh := issues_here hi
  have hplace {u : State} {as : List (Nat × Option Hold)} (hgive : LanesGive e (f e) s u as) : KeepsPlace e u :=
    eachLane_keeps (P := KeepsPlace e) (fun u l v k hu hv => hkeep u l v k hu hv) hgive (keepsPlace_of_here hh)
  have hbody (hlive : e.live ≠ 0) (hq : queueUsed s e.gr.core + (lanesOf e.live).length ≤ 16) {u : State} {as : List (Nat × Option Hold)}
      (hgive : LanesGive e (f e) s u as) (hnone : ∀ x ∈ as, x.2 = none) : exec i s = finish e i (reserveThen e s u e.live) s := by
    rw [hx, matWord_fits hi hlive hq, matBody, lanesThen_ok hgive]
    simp only [findSome?_none_of hnone]
  have hdone (hlive : e.live ≠ 0) (hq : queueUsed s e.gr.core + (lanesOf e.live).length ≤ 16) {u : State} {as : List (Nat × Option Hold)}
      (hgive : LanesGive e (f e) s u as) (hnone : ∀ x ∈ as, x.2 = none) (hturn : walkTurn s e = true) (hpins : pinsIn u (e.gr.core / 2) ≤ 1024) :
      CompletesOn i s e (leaveWalkers u e) noResult := by
    refine completesOn_kept hi (hplace hgive).leaveWalkers ha ?_
    rw [hbody hlive hq hgive hnone, reserveThen, if_neg (by simpa [hturn] using hpins)]
  refine ⟨fun hlive => ?_, fun hlive hq => holdsOn_unchanged hi (by rw [hx, matWord_full hi hlive hq]), fun ps ls hlive hq hok hslots hrm hturn hpins => ?_,
    fun hlive hq u as hgive => ⟨hdone hlive hq hgive, fun hnone hwait => ?_, fun k hk => ?_⟩, fun l c d0 d1 hl hq hf => ?_⟩
  · rw [Completes, hx, matWord_idle hi hlive]
    exact finish_done_completes hi
  · obtain ⟨u, as, hgive, hend, hnone⟩ := eachLane_steps (f := f e) (R := fun rem u => Ready e s ps ls reads takes rem u) (Q := (· = none))
      (fun l rem u hr => by
        obtain ⟨v, hv, hready⟩ := hlane ps ls l rem u hr (hok l (hr.live l (List.mem_cons_self ..)))
        exact ⟨v, none, hv, hready, rfl⟩) (ready_start hh hslots (fun ht => hroom ht hrm) hpins)
    exact ⟨leaveWalkers u e, by rw [leaveWalkers_matops]; exact hend.count, hdone hlive hq hgive hnone hturn hend.pins⟩
  · refine holdsOn_kept hi (keepsPlace_joinWalkers hh) ha _ _ ?_
    rw [hbody hlive hq hgive hnone, reserveThen, if_pos (by
      rcases hwait with hwait | hwait
      · simp [hwait]
      · simp [hwait])]
  · refine holdsOn_unchanged hi ?_
    rw [hx, matWord_fits hi hlive hq, matBody, lanesThen_ok hgive]
    simp only [hk]
  · have hlive : e.live ≠ 0 := fun h0 => by rw [h0] at hl; cases hl
    exact faultsFirst_of_lane (by rw [hx, matWord_fits hi hlive hq, matBody]) hl hf

end

end Sys2Proof.Machine
end

section
/-! PROOFS. MACCRD, MACCWR and MACCZ (R272, R273, R298, R299). -/

namespace Sys2Proof.Machine

theorem regAt_of_here {e : Env} {s : State} (hh : Here e s) (r l : Nat) : regAt s e.g e.w r l = regRead s e.gr e.wp r l := by
  simp only [regAt, hh.1, hh.2]

/-! ## Words of one slot -/

section
variable {i : Instr} {s : State} {e : Env} {slot : BitVec 3} {f : Env → State → Nat → State}

theorem slotWord_idle (hi : Issues i s e) (hlive : e.live = 0) : slotWord i s slot f = finish e i (.done s) s := by
  rw [slotWord, runWord_issues hi, if_pos hlive]

theorem slotWord_full (hi : Issues i s e) (hlive : e.live ≠ 0) (hq : 16 < queueUsed s e.gr.core + 1) :
    slotWord i s slot f = finish e i (.hold s .accept e.live) s := by
  rw [slotWord, runWord_issues hi, if_neg hlive, if_pos hq]

theorem slotWord_waits (hi : Issues i s e) (hlive : e.live ≠ 0) (hq : ¬ 16 < queueUsed s e.gr.core + 1) (hc : claimSlots s e [slot.toNat] = none) :
    slotWord i s slot f = finish e i (.hold s .slotWait e.live) s := by
  rw [slotWord, runWord_issues hi, if_neg hlive, if_neg hq, hc]

theorem slotWord_claims (hi : Issues i s e) (hlive : e.live ≠ 0) (hq : ¬ 16 < queueUsed s e.gr.core + 1) {u : State} {p : Nat}
    (hc : claimSlots s e [slot.toNat] = some u) (hp : sget? (groupOf e u).slots slot.toNat = some p) :
    slotWord i s slot f = finish e i (.done (f e u p)) s := by
  have hphys : physSlot u e slot.toNat = p := by rw [physSlot, show e.now u = groupOf e u from rfl, hp]; rfl
  rw [slotWord, runWord_issues hi, if_neg hlive, if_neg hq, hc]
  exact congrArg (fun q => finish e i (.done (f e u q)) s) hphys

/-- What such a word does before it claims its slot. -/
theorem slotWord_joins (hi : Issues i s e) (hx : exec i s = slotWord i s slot f) {yes : State → Nat → Prop}
    (hyes : e.live ≠ 0 → ∀ u p, claimSlots s e [slot.toNat] = some u → exec i s = finish e i (.done (f e u p)) s → yes u p) :
    (e.live = 0 → Completes i s e noResult) ∧ (e.live ≠ 0 → 16 < queueUsed s e.gr.core + 1 → HoldsOn i s e s .accept e.live) ∧
    (e.live ≠ 0 → ¬ 16 < queueUsed s e.gr.core + 1 → (claimSlots s e [slot.toNat] = none → HoldsOn i s e s .slotWait e.live) ∧
      ∀ u p, claimSlots s e [slot.toNat] = some u → sget? (groupOf e u).slots slot.toNat = some p → yes u p) := by
  refine ⟨fun hlive => ?_, fun hlive hq => holdsOn_unchanged hi (by rw [hx, slotWord_full hi hlive hq]), fun hlive hq =>
    ⟨fun hc => holdsOn_unchanged hi (by rw [hx, slotWord_waits hi hlive hq hc]), fun u p hc hp => hyes hlive u p hc (by rw [hx, slotWord_claims hi hlive hq hc hp])⟩⟩
  rw [Completes, hx, slotWord_idle hi hlive]
  exact finish_done_completes hi

end

/-! ## MACCRD -/

theorem lanesOf_ne_nil {m : Mask} (h : m ≠ 0) : ∃ l ls, leader m = some l ∧ lanesOf m = l :: ls ∧ ∀ k ∈ ls, k ≠ l := by
  obtain ⟨l, hl⟩ := exists_leader h
  obtain ⟨ls, hls⟩ := lanesOf_of_leader hl
  have hn := nodup_lanesOf m
  rw [hls, List.nodup_cons] at hn
  exact ⟨l, ls, hl, hls, fun k hk he => hn.1 (he ▸ hk)⟩

/-- A result given to the leader is the one result. -/
theorem flatMap_leader {live : Mask} (hlive : live ≠ 0) (o : Outst) :
    ((lanesOf live).flatMap fun k => if leader live = some k then [o] else []) = [o] := by
  obtain ⟨l, ls, hl, hls, hne⟩ := lanesOf_ne_nil hlive
  rw [hls, List.flatMap_cons, if_pos hl, List.flatMap_eq_nil_iff.mpr fun k hk => if_neg fun hc => hne k hk (Option.some.inj (hc.symm.trans hl))]
  rfl

/-- The one result of a MACCRD is as good as its leader's. -/
theorem laterLanes_one {e : Env} (u : State) (d n : Nat) (o : Outst) (hlive : e.live ≠ 0) :
    modWarp (laterLanes e u d n fun _ => []) e.g e.w (fun y => { y with outs := y.outs ++ [o] }) =
      laterLanes e u d n fun l => if leader e.live = some l then [o] else [] := by
  have hnil : ((lanesOf e.live).flatMap fun _ => ([] : List Outst)) = [] := List.flatMap_eq_nil_iff.mpr fun _ _ => rfl
  simp only [laterLanes, modWarp_modWarp, flatMap_leader hlive, hnil, List.append_nil]

section
variable {h : Hdr} {w8 pair : Bool} {d : Reg} {slot : BitVec 3} {col : BitVec 6} {s : State} {e : Env}

/-- The registers of a MACCRD are pending until its turn (R298). -/
theorem maccrd_sends (hi : Issues (.maccrd h w8 pair d slot col) s e) (hlive : e.live ≠ 0) {v : State} (hk : KeepsPlace e v) (hw : warpOf e v = e.wp) (n : Nat)
    (o : Outst) (hx : exec (.maccrd h w8 pair d slot col) s = finish e (.maccrd h w8 pair d slot col)
      (.done (modWarp (laterLanes e v d.toNat n fun _ => []) e.g e.w fun y => { y with outs := y.outs ++ [o] })) s) :
    ∃ t, exec (.maccrd h w8 pair d slot col) s = .next t ∧ RegsAre (e.on v) v t noResult ∧ OnlyWarp (e.on v) v t ∧ SameMemory v t ∧
      LanesAre (e.on v) t (onward e) ∧ (warpOf e t).outs = e.wp.outs ++ [o] ∧
      ∀ k, k ∈ (warpOf e t).pending ↔ k ∈ e.wp.pending ∨ (bit e.live (k % 32) = true ∧ d.toNat ≤ k / 32 ∧ k / 32 < d.toNat + n) := by
  obtain ⟨gr, wp, hg, hwp, hc, hcx, hl, haf, hr⟩ := hk
  obtain rfl : e.wp = wp := by
    rw [← hw, warpOf, warp?, hg]
    show ((gr.warps[e.w]?).getD e.wp) = wp
    rw [hwp]; rfl
  have hon := on_of_reads hg hwp
  have hbank : bankReads { e with gr := gr, wp := e.wp } (.maccrd h w8 pair d slot col) = bankReads e (.maccrd h w8 pair d slot col) := by
    simp only [bankReads]
  obtain ⟨hregs, honly, hlanes, houts, hpend⟩ := laterLanes_leaves (e := { e with gr := gr, wp := e.wp }) s (.maccrd h w8 pair d slot col) d.toNat n
    (fun l => if leader e.live = some l then [o] else []) (wrote_refl ⟨hg, hwp⟩)
  have houts' := houts.trans (congrArg (e.wp.outs ++ ·) (flatMap_leader hlive o))
  refine ⟨_, by rw [hx, finish_done hi, laterLanes_one _ _ _ _ hlive, ← retire_congr s _ _ e hc hcx hl rfl hbank], ?_⟩
  rw [hon]
  refine ⟨hregs, honly, sameMemory_of_only honly.1, hlanes, houts', hpend ?_⟩
  rw [houts']
  simp

end

section
variable {h : Hdr} {w8 pair : Bool} {d : Reg} {slot : BitVec 3} {col : BitVec 6} {s : State} {e : Env}

/-- A MACCRD has joined the queue: its state and its number (R298). -/
def readJoined (u : State) (e : Env) (p : Nat) (d : Reg) (col : BitVec 6) (w8 pair : Bool) : State × Nat :=
  addMat u e (.read p d.toNat col.toNat (if w8 then 8 else 4) pair e.live) [] none [] ([], [])

/-- What a MACCRD leaves that has claimed its slot. -/
def readSent (e : Env) (u : State) (p : Nat) (d : Reg) (col : BitVec 6) (w8 pair : Bool) : State :=
  modWarp (laterLanes e (readJoined u e p d col w8 pair).1 d.toNat (fragRegs w8 pair) fun _ => []) e.g e.w fun y =>
    { y with outs := y.outs ++ [.matrix (readJoined u e p d col w8 pair).2] }

theorem exec_maccrd : exec (.maccrd h w8 pair d slot col) s =
    slotWord (.maccrd h w8 pair d slot col) s slot fun e u p => readSent e u p d col w8 pair := rfl

/-- A MACCWR has joined the queue with the values of its registers (R298). -/
def writeJoined (e : Env) (s u : State) (p : Nat) (d : Reg) (col : BitVec 6) (w : Nat) (pair : Bool) : State :=
  (addMat u e (.write p col.toNat ((lanesOf e.live).map fun l => (l, (List.range w).map fun i =>
    (regRead s e.gr e.wp (d.toNat + i) l, if pair then regRead s e.gr e.wp (d.toNat + w + i) l else (0 : Word))))) [] none [] ([], [])).1

theorem exec_maccwr : exec (.maccwr h w8 pair d slot col) s =
    slotWord (.maccwr h w8 pair d slot col) s slot fun e u p => writeJoined e s u p d col (if w8 then 8 else 4) pair := rfl

theorem claimed_warpOf {u : State} (hh : Here e s) (hcl : Claimed e s u) : warpOf e u = e.wp := by
  obtain ⟨sl, hu, -⟩ := hcl.mine e.gr hh.1
  rw [warpOf, warp?, hu]
  show ((e.gr.warps[e.w]?).getD e.wp) = e.wp
  rw [hh.2]; rfl

end

/-! ## MACCZ -/

theorem sget?_foldl_sput_ne {α β : Type} (key : β → Nat) (val : β → α) (k : Nat) : ∀ {xs : List β} {m : List (Nat × α)}, (∀ x ∈ xs, key x ≠ k) →
    sget? (xs.foldl (fun l x => sput l (key x) (val x)) m) k = sget? m k
  | [], _, _ => rfl
  | x :: xs, m, h => by
    rw [List.foldl_cons, sget?_foldl_sput_ne key val k fun y hy => h y (List.mem_cons_of_mem _ hy),
      sget?_sput_ne _ _ (Ne.symm (h x (List.mem_cons_self ..)))]

/-- The named slots are held no longer (R272, R299). -/
theorem sget?_freedKeys (slots : List (Nat × Nat)) (mask : BitVec 8) {k : Nat} (hk : k < 8) :
    sget? (freedKeys slots mask) k = if mask.getLsbD k then none else sget? slots k := by
  unfold freedKeys
  rw [sget?_foldl_sput_ne (fun x : (Nat × Nat) × Nat => x.2) (fun x => x.1.2) k fun x hx => ?_]
  · rw [sget?_filter_keys slots fun k => !mask.getLsbD k]
    cases mask.getLsbD k <;> rfl
  · have hmem := (List.of_mem_zip hx).2
    obtain ⟨hin, -⟩ := List.mem_filter.mp hmem
    obtain ⟨j, -, hj⟩ := List.mem_map.mp hin
    omega

section
variable {h : Hdr} {free : Bool} {slots : BitVec 8} {s : State} {e : Env}

/-- The named slots that a group holds. -/
def heldSlots (gr : Group) (slots : BitVec 8) : List Nat := (gr.slots.filter fun p => slots.getLsbD p.1).map (·.2)

/-- A MACCZ has joined the queue (R299). -/
def clearJoined (s : State) (e : Env) (free : Bool) (slots : BitVec 8) : State :=
  if free then modGroup (addMat s e (.clear (heldSlots e.gr slots) (heldSlots e.gr slots)) [] none [] ([], [])).1 e.g fun x =>
    { x with slots := freedKeys x.slots slots }
  else (addMat s e (.clear (heldSlots e.gr slots) []) [] none [] ([], [])).1

theorem exec_maccz (hi : Issues (.maccz h free slots) s e) : exec (.maccz h free slots) s = finish e (.maccz h free slots)
    (if e.live = 0 then .done s else if 16 < queueUsed s e.gr.core + 1 then .hold s .accept e.live else .done (clearJoined s e free slots)) s := by
  rw [show exec (.maccz h free slots) s = execMaccz h free slots s from rfl, execMaccz, runWord_issues hi]
  cases free <;> rfl

theorem clearJoined_keepsPlace (hh : Here e s) : KeepsPlace e (clearJoined s e free slots) := by
  have hk := keepsPlace_of_here hh
  cases free with
  | false => exact hk.addMat ..
  | true => exact (hk.addMat ..).modGroup fun _ => ⟨rfl, rfl, rfl, rfl⟩

theorem maccz_joins (hi : Issues (.maccz h free slots) s e) (hlive : e.live ≠ 0) (hq : ¬ 16 < queueUsed s e.gr.core + 1) :
    ∃ u op, CompletesOn (.maccz h free slots) s e u noResult ∧ u.matops = s.matops ++ [op] ∧
      op.kind = .clear (heldSlots e.gr slots) (if free then heldSlots e.gr slots else []) ∧
      u = { s with groups := u.groups, matops := u.matops, seqs := s.seqs + 1 } ∧
      groupOf e u = { e.gr with slots := (groupOf e u).slots } ∧ (free = false → (groupOf e u).slots = e.gr.slots) ∧
      (free = true → ∀ k, k < 8 → sget? (groupOf e u).slots k = if slots.getLsbD k then none else sget? e.gr.slots k) := by
  have hh := issues_here hi
  have hdone : CompletesOn (.maccz h free slots) s e (clearJoined s e free slots) noResult :=
    completesOn_kept hi (clearJoined_keepsPlace hh) (fun _ _ _ => rfl) (by rw [exec_maccz hi, if_neg hlive, if_neg hq])
  cases free with
  | false =>
    have hgroup : groupOf e (clearJoined s e false slots) = e.gr := by rw [groupOf, show group? (clearJoined s e false slots) e.g = some e.gr from hh.1]; rfl
    exact ⟨_, _, hdone, rfl, rfl, rfl, by rw [hgroup], fun _ => by rw [hgroup], fun hf => by cases hf⟩
  | true =>
    have hgroup : groupOf e (clearJoined s e true slots) = { e.gr with slots := freedKeys e.gr.slots slots } := by
      rw [groupOf, clearJoined, if_pos rfl, group?_modGroup_self, show group? (addMat s e _ _ _ _ _).1 e.g = some e.gr from hh.1]
      rfl
    refine ⟨_, _, hdone, by rw [clearJoined, if_pos rfl, modGroup_matops]; rfl, rfl, ?_, by rw [hgroup], fun hf => (by cases hf), fun _ k hk => ?_⟩
    · rw [clearJoined, if_pos rfl, modGroup_only]; rfl
    · rw [hgroup]; exact sget?_freedKeys _ _ hk

end

/-! ## The statement -/

/-- Settles O38: each lane's acceptance by `Ready.load`, `Ready.mul`, `Ready.stream` and `Ready.epi`, and the words of one slot by `slotWord_joins`. -/
theorem matrixQueueWordsComplete : Obligations.MatrixQueueWordsComplete := by
  unfold Obligations.MatrixQueueWordsComplete
  refine ⟨?_, ?_⟩
  · intro s e h d p n cluster runs
    refine ⟨fun hi => ?_, fun hi => ?_, fun hi => ?_, fun hi => ?_, fun hi => ?_, fun hi => ?_⟩
    · exact matRuns (f := fun e u l => acceptLoad e p u l) (reads := False) (takes := False) hi rfl (fun _ _ _ => rfl)
        (fun u l v k hk hv => acceptLoad_keepsPlace hv hk) (fun ht => ht.elim) fun ps ls l rem u hr hok => by
          obtain ⟨b, bar, tag, t, hx⟩ := hr.load (keepsPlace_of_here (issues_here hi)) hok
          exact ⟨_, hx, hr.loadJoined id ..⟩
    · exact matRuns (f := fun e u l => acceptMul e d p u l) (reads := True) (takes := True) hi rfl (fun _ _ _ => rfl)
        (fun u l v k hk hv => acceptMul_keepsPlace hv hk) (fun _ hroom => hroom) fun ps ls l rem u hr hok =>
          hr.mul (keepsPlace_of_here (issues_here hi)) trivial trivial hok
    · exact matRuns (f := fun e u l => acceptStream e 0 p u l) (reads := True) (takes := False) hi rfl (fun _ _ _ => rfl)
        (fun u l v k hk hv => acceptStream_keepsPlace hv hk) (fun ht => ht.elim) fun ps ls l rem u hr hok => hr.stream (issues_here hi) trivial hok
    · exact matRuns (f := fun e u l => acceptStream e 1 p u l) (reads := True) (takes := False) hi rfl (fun _ _ _ => rfl)
        (fun u l v k hk hv => acceptStream_keepsPlace hv hk) (fun ht => ht.elim) fun ps ls l rem u hr hok => hr.stream (issues_here hi) trivial hok
    · exact matRuns (f := fun e u l => acceptStream e 2 p u l) (reads := True) (takes := False) hi rfl (fun _ _ _ => rfl)
        (fun u l v k hk hv => acceptStream_keepsPlace hv hk) (fun ht => ht.elim) fun ps ls l rem u hr hok => hr.stream (issues_here hi) trivial hok
    · exact matRuns (f := fun e u l => acceptEpi e p u l) (reads := True) (takes := False) hi rfl (fun _ _ _ => rfl)
        (fun u l v k hk hv => acceptEpi_keepsPlace hv hk) (fun ht => ht.elim) fun ps ls l rem u hr hok =>
          hr.epi (keepsPlace_of_here (issues_here hi)) hok
  · intro s e h w8 pair d slot col w full joins
    have hclaimed {i : Instr} {u : State} (hi : Issues i s e) (hc : claimSlots s e [slot.toNat] = some u) : Claimed e s u ∧ KeepsPlace e u :=
      ⟨claimSlots_claimed hc, (claimSlots_claimed hc).keepsPlace (keepsPlace_of_here (issues_here hi))⟩
    refine ⟨fun hi => slotWord_joins hi exec_maccrd ?_, fun hi => slotWord_joins hi exec_maccwr ?_, fun free slots hi =>
      ⟨fun hlive => ?_, fun hlive hq => holdsOn_unchanged hi (by rw [exec_maccz hi, if_neg hlive, if_pos hq]), fun hlive hq => maccz_joins hi hlive hq⟩⟩
    · intro hlive u p hc hx
      obtain ⟨hcl, hk⟩ := hclaimed hi hc
      have hk' : KeepsPlace e (readJoined u e p d col w8 pair).1 := hk.addMat ..
      have hwarp : warpOf e (readJoined u e p d col w8 pair).1 = e.wp := claimed_warpOf (u := u) (issues_here hi) hcl
      exact maccrd_sends hi hlive hk' hwarp (fragRegs w8 pair) (.matrix (readJoined u e p d col w8 pair).2) hx
    · intro hlive u p hc hx
      obtain ⟨-, hk⟩ := hclaimed hi hc
      have hread := regAt_of_here (issues_here hi)
      have hk' : KeepsPlace e (writeJoined e s u p d col w pair) := hk.addMat ..
      have hdone := completesOn_kept hi hk' (fun _ _ _ => rfl) hx
      simp only [hread]
      exact hdone
    · rw [Completes, exec_maccz hi, if_pos hlive]
      exact finish_done_completes hi

end Sys2Proof.Machine
end

section
/-! PROOFS. What the fields of an accepted matrix block mean (R271, R285, R293 to R297, R300, R306, R318). -/

namespace Sys2Proof.Machine

theorem Accepting.sameMemory {s u : State} (h : Accepting s u) : SameMemory s u := by
  obtain ⟨gs, cs, ms, n, rfl⟩ := h.only
  exact ⟨fun _ _ => rfl, fun _ _ _ => rfl⟩

theorem checkBarrier_ok {e : Env} {va : DWord} {b : List Byte} {o : Nat} {bar : Option Nat} (h : checkBarrier e va b o = .ok bar) :
    bar = if field b o 4 = 0xFFFFFFFF then none else some (field b o 4) := by
  rw [← barrierField]
  unfold checkBarrier at h
  split at h
  · next hb => cases h; exact hb.symm
  · next x hb =>
    split at h
    · cases h
    · split at h
      · cases h
      · cases h; exact hb.symm

/-- An operation has joined the queue as accepted, with nothing done (R273). -/
def MatAdded (s u : State) (e : Env) (k : MatKind) (bar : Option Nat) : Prop :=
  ∃ op, u.matops = s.matops ++ [op] ∧ op.kind = k ∧ op.barrier = bar ∧ op.core = e.gr.core ∧ op.group = e.g ∧ op.warp = e.w ∧ op.started = false ∧
    op.done = 0 ∧ op.bytes = 0 ∧ op.stat = 0

theorem matAdded_addMat {s t : State} (e : Env) (k : MatKind) (block : List Byte) (bar : Option Nat) (tags : List (Nat × TagRec)) (ps : Pages)
    (h : t.matops = s.matops) : MatAdded s (addMat t e k block bar tags ps).1 e k bar :=
  ⟨_, by rw [← h]; rfl, rfl, rfl, rfl, rfl, rfl, rfl, rfl, rfl, rfl⟩

/-! ## Registers and tags of a handle -/

section
variable {e : Env} {v : State} {d : Reg} {l : Nat} (w : Word)

/-- The handle stands in the register, tagged (R307). -/
theorem handleWritten_reads (hk : KeepsPlace e v) (hl : l < 32) : regAt (handleWritten v e d l w) e.g e.w d.toNat l = w ∧
    32 * d.toNat + l ∈ (warpOf e (handleWritten v e d l w)).tags ∧ OnlyWarp (e.on v) v (handleWritten v e d l w) := by
  obtain ⟨gr, wp, hg, hw, -⟩ := hk
  have hhere : Here (e.on v) v := by rw [on_of_reads hg hw]; exact ⟨hg, hw⟩
  obtain ⟨hregs, honly, wp', hw', -, -⟩ := wrote_writeReg (e := e.on v) d.toNat l w hl (wrote_refl hhere)
  refine ⟨?_, ?_, onlyWarp_modWarp _ honly⟩
  · obtain ⟨gr', hg', hw'⟩ := Option.bind_eq_some_iff.mp hw'
    exact (modWarp_keeps_rows _ hg' hw' ⟨rfl, rfl, rfl, rfl⟩ ..).trans ((hregs d.toNat l hl).trans (by simp [alsoIn]))
  · have hw2 : warp? (handleWritten v e d l w) e.g e.w = some { wp' with tags := sins wp'.tags (32 * d.toNat + l) } := warp?_modWarp_of _ hw'
    rw [warpOf, hw2]
    simp

end

/-! ## Each word -/

section
variable {s u : State} {e : Env} {p : Place} {l : Nat} {va : DWord} {b : List Byte} (hblock : blockOf s e p l = .ok (va, b)) (hh : Here e s)
include hblock hh

theorem acceptLoad_means (h : acceptLoad e p s l = .ok (u, none)) : ∃ t tag, tensorEntry s e (field b 0 1) 4 = .ok t ∧ TagOf s e b tag ∧
    MatAdded s u e (.load (field b 1 1) (field b 2 1 == 1) tag t) (if field b 20 4 = 0xFFFFFFFF then none else some (field b 20 4)) ∧
    (groupOf e u).tagRecs = sput e.gr.tagRecs (field b 1 1) { tag := tag, entry := t } ∧ SameMemory s u := by
  obtain ⟨va', b', bar, t, tag, ps, hb, hbar, hentry, htag, -, rfl⟩ := acceptLoad_ok h
  obtain ⟨rfl, rfl⟩ := Prod.mk.inj (Except.ok.inj (hb.symm.trans hblock))
  have hacc : Accepting s (recordTag s e (field b' 1 1) { tag := tag, entry := t }) := (Accepting.refl s).modGroup _ fun _ => ⟨rfl, rfl⟩
  refine ⟨t, tag, hentry, htag, ?_, ?_, (hacc.addMat ..).sameMemory⟩
  · rw [← checkBarrier_ok hbar]
    exact matAdded_addMat e _ _ _ _ _ (modGroup_matops ..)
  · have hgroup : group? (loadJoined s e b' bar tag t ps) e.g = some { e.gr with tagRecs := sput e.gr.tagRecs (field b' 1 1) { tag := tag, entry := t } } := by
      show group? (recordTag s e _ _) e.g = _
      rw [recordTag, group?_modGroup_self, hh.1]
      rfl
    rw [groupOf, hgroup]
    rfl

theorem acceptMul_means (hl : l < 32) {d : Reg} (h : acceptMul e d p s l = .ok (u, none)) : ∃ a pairs w planes idx, tensorEntry s e (field b 0 1) 4 = .ok a ∧
    MatAdded s u e (.mul a (field b 2 1) (field b 4 4) (field b 8 4) (field b 12 4) pairs w planes) none ∧
    pairs.map (·.1) = (List.range (field b 1 1)).map (fun i => field b (16 + i) 1 % 8) ∧
    (freeFutures e.gr).head? = some idx ∧ w.toNat % 2 ^ 7 = idx ∧ w.toNat / 2 ^ 24 = 4 ∧
    regAt u e.g e.w d.toNat l = w ∧ 32 * d.toNat + l ∈ (warpOf e u).tags ∧ SameMemory s u := by
  rcases acceptMul_ok h with ⟨hk, -⟩ | ⟨va', b', a, tags, ps, idx, u1, pairs, planes, hb, hentry, hidx, hclaim, hpairs, -, rfl⟩
  · exact absurd rfl hk
  obtain ⟨rfl, rfl⟩ := Prod.mk.inj (Except.ok.inj (hb.symm.trans hblock))
  have hcl := claimSlots_claimed hclaim
  have hk := ((hcl.keepsPlace (keepsPlace_of_here hh)).allocFuture idx 4 u1.seqs)
  obtain ⟨sl, hu1, -⟩ := hcl.mine _ hh.1
  obtain ⟨halloc, hword⟩ := allocFuture_eq hu1 idx 4 u1.seqs
  rw [now_of hh.1] at hidx
  obtain ⟨h1, h2, -⟩ := handle_fields (kind := 4) (by norm_num) (genAfter_lt { e.gr with slots := sl } idx) (freeFutures_head hidx)
  rw [← hword] at h1 h2
  have hq : KeepsPlace e (mulQueued u1 e idx a b' pairs planes tags ps) := hk.addMat ..
  obtain ⟨hreg, htag, honly⟩ := handleWritten_reads (d := d) (allocFuture u1 e.g idx 4 u1.seqs).2 hq hl
  have hacc : Accepting s (mulQueued u1 e idx a b' pairs planes tags ps) := by
    have hx : Accepting s (allocFuture u1 e.g idx 4 u1.seqs).1 := halloc ▸ hcl.accepting.modGroup e.g fun _ => ⟨rfl, rfl⟩
    exact hx.addMat ..
  refine ⟨a, pairs, _, planes, idx, hentry, ?_, by rw [hpairs, mulEntries, List.map_map]; rfl, hidx, h1, h2, hreg, htag,
    sameMemory_trans hacc.sameMemory (sameMemory_of_only honly.1)⟩
  have hops : (allocFuture u1 e.g idx 4 u1.seqs).1.matops = s.matops := by rw [halloc, modGroup_matops, hcl.only]
  have hadded := matAdded_addMat e (.mul a (field b' 2 1) (field b' 4 4) (field b' 8 4) (field b' 12 4) pairs (allocFuture u1 e.g idx 4 u1.seqs).2 planes) b' none
    tags ps hops
  have hsame : (handleWritten (mulQueued u1 e idx a b' pairs planes tags ps) e d l (allocFuture u1 e.g idx 4 u1.seqs).2).matops =
      (mulQueued u1 e idx a b' pairs planes tags ps).matops := by rw [honly.1]
  obtain ⟨op, hop, hrest⟩ := hadded
  exact ⟨op, hsame.trans hop, hrest⟩

omit hblock hh in
/-- The slot that a word of one slot names is the group's. -/
theorem physSlot_of_claim {t u1 : State} {k : Nat} (ht : KeepsPlace e t) (hclaim : claimSlots t e [k] = some u1) :
    sget? (groupOf e u1).slots k = some (physSlot u1 e k) := by
  have hheld := claimSlots_holds hclaim ht.now.1 k (List.mem_singleton.mpr rfl)
  obtain ⟨q, hq⟩ := Option.isSome_iff_exists.mp hheld
  have hq' : sget? (groupOf e u1).slots k = some q := hq
  rw [hq', physSlot, hq]
  rfl

theorem acceptStream_means {op : Nat} (h : acceptStream e op p s l = .ok (u, none)) : ∃ slot sel, sget? (groupOf e u).slots (field b 1 1) = some slot ∧
    MatAdded s u e (.stream op (field b 0 1) slot (field b 2 1) (field b 3 1) (field b 4 4) sel) none ∧ SameMemory s u := by
  rcases acceptStream_ok h with ⟨hk, -⟩ | ⟨va', b', t, ps, u1, sel, hb, hclaim, -, rfl⟩
  · exact absurd rfl hk
  obtain ⟨rfl, rfl⟩ := Prod.mk.inj (Except.ok.inj (hb.symm.trans hblock))
  have hcl := claimSlots_claimed hclaim
  exact ⟨physSlot u1 e (field b' 1 1), sel, show sget? (groupOf e u1).slots _ = _ from physSlot_of_claim (keepsPlace_of_here hh) hclaim,
    matAdded_addMat e _ _ _ _ _ (by rw [hcl.only]), (hcl.accepting.addMat ..).sameMemory⟩

theorem acceptEpi_means (h : acceptEpi e p s l = .ok (u, none)) : ∃ t slot, tensorEntry s e (field b 0 1) 4 = .ok t ∧
    sget? (groupOf e u).slots (field b 1 1) = some slot ∧
    MatAdded s u e (epiKind b t slot) (if field b 52 4 = 0xFFFFFFFF then none else some (field b 52 4)) := by
  rcases acceptEpi_ok h with ⟨hk, -⟩ | ⟨va', b', bar, t, ps, u2, u3, hb, hbar, hentry, htook, hclaim, -, rfl⟩
  · exact absurd rfl hk
  obtain ⟨rfl, rfl⟩ := Prod.mk.inj (Except.ok.inj (hb.symm.trans hblock))
  have hk2 := htook.keepsPlace (keepsPlace_of_here hh)
  refine ⟨t, physSlot u3 e (field b' 1 1), hentry, show sget? (groupOf e u3).slots _ = _ from physSlot_of_claim hk2 hclaim, ?_⟩
  rw [← checkBarrier_ok hbar]
  exact matAdded_addMat e _ _ _ _ _ (by rw [(claimSlots_claimed hclaim).only]; exact htook.matops)

end

/-! ## Blocks that break their layout -/

theorem bind_error {ε α β : Type} {x : Except ε α} {f : α → Except ε β} {y : ε} (h : x = .error y) : (x >>= f) = .error y := by rw [h]; rfl

theorem bind_ok {ε α β : Type} {x : Except ε α} {f : α → Except ε β} {a : α} (h : x = .ok a) : (x >>= f) = f a := by rw [h]; rfl

theorem guardE_error {c : Bool} {x : LaneFault} (h : c = true) : guardE c x = .error x := by rw [h]; rfl

section
variable {s : State} {e : Env} {p : Place} {l : Nat} {va : DWord} {b : List Byte} (hblock : blockOf s e p l = .ok (va, b))
include hblock

theorem acceptLoad_misshapen (h : 7 < field b 1 1 ∨ 1 < field b 2 1 ∨ field b 3 1 ≠ 0 ∨ field b 4 4 % 32 ≠ 0) :
    acceptLoad e p s l = .error (some (.mshape, va, 0)) := by
  refine (bind_ok hblock).trans (bind_error (guardE_error ?_))
  simp only [Bool.or_eq_true, decide_eq_true_eq, bne_iff_ne]
  tauto

theorem acceptMul_misshapen {d : Reg} (h : field b 1 1 = 0 ∨ 8 < field b 1 1 ∨ field b 2 1 = 0 ∨ 32 < field b 2 1 ∨ field b 3 1 ≠ 0) :
    acceptMul e d p s l = .error (some (.mshape, va, 0)) := by
  refine (bind_ok hblock).trans (bind_error (guardE_error ?_))
  simp only [Bool.or_eq_true, decide_eq_true_eq, bne_iff_ne, beq_iff_eq]
  tauto

theorem acceptStream_misshapen {op : Nat} (h : field b 2 1 = 0 ∨ 32 < field b 2 1 ∨ 32 < field b 3 1 + field b 2 1) :
    acceptStream e op p s l = .error (some (.mshape, va, 0)) := by
  refine (bind_ok hblock).trans (bind_error (guardE_error ?_))
  simp only [Bool.or_eq_true, decide_eq_true_eq, beq_iff_eq]
  tauto

theorem acceptEpi_misshapen (h : field b 2 1 = 0 ∨ 32 < field b 2 1 ∨ field b 3 1 = 0 ∨ 64 < field b 3 1 ∨ 2 < field b 48 1 ∨ 7 < field b 49 1) :
    acceptEpi e p s l = .error (some (.mshape, va, 0)) := by
  refine (bind_ok hblock).trans (bind_error (guardE_error ?_))
  simp only [Bool.or_eq_true, decide_eq_true_eq, beq_iff_eq]
  tauto

end

/-- Settles O39: each word's acceptance taken apart, and the first check of its block where it breaks its layout. -/
theorem matrixBlocksMean : Obligations.MatrixBlocksMean := by
  unfold Obligations.MatrixBlocksMean
  intro s u e p l va b hblock hg hw hl adds bar
  have hh : Here e s := by
    refine ⟨hg, ?_⟩
    rw [warp?, hg] at hw
    exact hw
  refine ⟨fun h => ?_, acceptLoad_misshapen hblock, fun d h => acceptMul_means hblock hh hl h, fun d h => acceptMul_misshapen hblock h,
    fun op _ h => acceptStream_means hblock hh h, fun op _ h => acceptStream_misshapen hblock h, acceptEpi_means hblock hh, acceptEpi_misshapen hblock⟩
  obtain ⟨t, tag, hentry, ⟨h1, h2, h3, h4, h5, h6, h7⟩, hadded, htags, hmem⟩ := acceptLoad_means hblock hh h
  exact ⟨t, tag, hentry, h1, h2, h3, h4, h5, h6, h7, hadded, htags, hmem⟩

end Sys2Proof.Machine
end

section
/-! PROOFS. Acceptance of an engine copy in one lane (R304 to R313). -/

namespace Sys2Proof.Machine

/-! ## Elements and chunks -/

/-- One more element joins the run of its block, or begins one (R313). -/
def addRun (acc : List (Nat × List Nat)) (x : Nat × Nat) : List (Nat × List Nat) := match acc with
  | (k, is) :: r => if k = x.2 then (k, is ++ [x.1]) :: r else (x.2, [x.1]) :: acc
  | [] => [(x.2, [x.1])]

theorem flatMap_addRun (acc : List (Nat × List Nat)) (x : Nat × Nat) :
    (addRun acc x).reverse.flatMap (·.2) = acc.reverse.flatMap (·.2) ++ [x.1] := by
  unfold addRun
  split
  · split <;> simp
  · simp

theorem flatMap_foldl_addRun (xs : List (Nat × Nat)) (acc : List (Nat × List Nat)) :
    (xs.foldl addRun acc).reverse.flatMap (·.2) = acc.reverse.flatMap (·.2) ++ xs.map (·.1) := by
  induction xs generalizing acc with
  | nil => simp
  | cons x xs ih => rw [List.foldl_cons, ih, flatMap_addRun, List.map_cons, List.append_assoc, List.singleton_append]

theorem copyChunks_eq (bits : Nat) (ds : List Nat) : copyChunks bits ds =
    ((ds.mapIdx fun i a => (i, if bits = 4 then a / 512 else a / 256)).foldl addRun []).reverse.map fun x => (x.2, x.2.length * bits / 8) := rfl

/-- The chunks are the elements in their order (R313). -/
theorem copyChunks_flatMap (bits : Nat) (ds : List Nat) : (copyChunks bits ds).flatMap (·.1) = List.range ds.length := by
  rw [copyChunks_eq, List.flatMap_map]
  refine (flatMap_foldl_addRun _ []).trans ?_
  simp [List.mapIdx_eq_zipIdx_map, List.range_eq_range', Function.comp_def]

theorem copyElems_length (kind : Nat) (b : List Byte) (src dst : Option Tensor) (idx : List Nat) :
    (copyElems kind b src dst idx).length = field b 4 4 * field b 8 4 := by
  simp [copyElems, List.length_flatMap, Nat.mul_comm]


/-! ## Acceptance in stages -/

/-- The index list of a GATHER or SCATTER (R311). -/
def planIndex (u : State) (e : Env) (kind : Nat) (b : List Byte) : List Nat :=
  if kind = 1 ∨ kind = 2 then (List.range (field b 8 4)).map fun r => leNat (spmBytes u e.gr (field b 40 4 + 4 * r) 4) else []

/-- The pages of the elements, pinned in their order (R311). -/
def planPages (u : State) (e : Env) (kind : Nat) (b : List Byte) (src dst : Option Tensor) (els : List ((Nat × Bool × Nat) × (Nat × Bool × Nat))) :
    Except LaneFault Pages :=
  let bits := copyBits src dst
  let page (t : Option Tensor) (n need : Nat) (ps : Pages) (x : Nat × Bool × Nat) : Except LaneFault Pages :=
    if x.1 = 0 ∧ x.2.1 then accPage u e (t.map fun y => (n, Tensor.versioned y)) need ps (elemByte bits x.2.2) else .ok ps
  els.foldlM (fun (q : Pages) x => do page dst (field b (if kind = 3 then 0 else 1) 1) 2 (← page src (field b 0 1) 1 q x.1) x.2) ([], [])

/-- The device bytes that an operation writes: virtual address, space and address. -/
def planDests (bits : Nat) (ps : Pages) (els : List ((Nat × Bool × Nat) × (Nat × Bool × Nat))) : List (Nat × Nat × Nat) :=
  els.filterMap fun x => match placeElem ps.1 bits x.2 with
    | some (sp, a) => if sp = 0 ∨ sp = 11 then some (elemByte bits x.2.2.2, sp, elemByte bits a) else none
    | none => none

/-- The lines reserved for the destinations in a heap (R132, R135). -/
def planReserve (e : Env) (u : State) (bits : Nat) (dests : List (Nat × Nat × Nat)) : Except LaneFault (State × List (Nat × Nat)) :=
  dests.foldlM (fun (t : State × List (Nat × Nat)) d =>
    let line := d.2.2 / 256
    if (heapHit u d.2.2 (elemLen bits)).isSome && (sget? (e.now u).heap line).isNone && (sget? t.2 line).isNone then do
      let x ← backingLine t.1 (e.now t.1) (BitVec.ofNat 64 d.1) 4
      pure (x.1, sput t.2 line x.2)
    else pure t) (u, [])

/-- The operation of an accepted block, without its number and handle. -/
def planned (e : Env) (kind : Nat) (b : List Byte) (src dst : Option Tensor) (idx : List Nat) (els : List ((Nat × Bool × Nat) × (Nat × Bool × Nat)))
    (ps : Pages) (entries : List Nat) (reserve : List (Nat × Nat)) : Copy :=
  let bits := copyBits src dst
  { id := 0, core := e.gr.core, group := e.g, warp := e.w, handle := 0, kind := kind, block := b, src := src, dst := dst
    idx := idx, elems := els.map fun x => (placeElem ps.1 bits x.1, placeElem ps.1 bits x.2, bits)
    chunks := copyChunks bits (els.map fun x => x.2.2.2), next := 0, flying := [], landing := []
    cancel := 0, lost := false, status := 0, err := none, barrier := barrierField b 12, part := [], skip := []
    entries := entries, pins := ps.2, reserve := reserve, parked := false }

/-- A destination in an image, or in a heap that is not the group's own. -/
def planForeign (e : Env) (u : State) (bits : Nat) (d : Nat × Nat × Nat) : Bool :=
  areaHit u d.2.2 (elemLen bits) || (match heapHit u d.2.2 (elemLen bits) with | some t => !ownHeap u (e.now u) t | none => false)

/-- The region of the lowest destination that backs one. -/
def planRegion (u : State) (bits : Nat) (dests : List (Nat × Nat × Nat)) : Option Region :=
  (dests.filter fun d => (backingOf u d.2.2 (elemLen bits)).isSome).foldl (fun (m : Option (Nat × Nat × Nat)) d => match m with
    | some x => if d.1 < x.1 then some d else m
    | none => some d) none |>.bind fun d => backingOf u d.2.2 (elemLen bits)

section
variable (e : Env) (kind : Nat) (u : State) (va : DWord) (b : List Byte) (src dst : Option Tensor) (idx : List Nat)
  (els : List ((Nat × Bool × Nat) × (Nat × Bool × Nat))) (ps : Pages)

def planLast : Except LaneFault (State × Copy) := do
  let entries := pinKeys u e (ps.1.map (·.1))
  guardE (decide (field b 4 4 * copyBits src dst / 8 * field b 8 4 > 2 ^ 24) || decide (entries.length > 1024)) (some (.copybad, va, 0))
  guardE (e.fixed && kind == 2 && repeats ((dst.map fun t => if t.dims < 2 then 1 else Tensor.size t 1).getD 0) idx) (some (.ndet, 0, 0))
  let u1 ← planReserve e u (copyBits src dst) (planDests (copyBits src dst) ps els)
  pure (u1.1, planned e kind b src dst idx els ps entries u1.2)

def planLand : Except LaneFault (State × Copy) := do
  match (planDests (copyBits src dst) ps els).find? (planForeign e u (copyBits src dst)) with
  | some d => bad .template (BitVec.ofNat 64 d.1) 0
  | none => pure ()
  match planRegion u (copyBits src dst) (planDests (copyBits src dst) ps els) with
  | some r => bad .orreg (regionDetail e r) 0
  | none => pure ()
  planLast e kind u va b src dst idx els ps

def planSpm : Except LaneFault (State × Copy) := do
  match copyAlign kind b src dst with
  | some x => bad .align (BitVec.ofNat 64 x) 0
  | none => pure ()
  match (copySpm kind b (copyBits src dst)).find? fun r => decide (r.1 + r.2 > e.gr.spmSize) with
  | some r => bad .prot (BitVec.ofNat 64 r.1) 0
  | none => pure ()
  let ps ← planPages u e kind b src dst (copyElems kind b src dst (planIndex u e kind b))
  planLand e kind u va b src dst (planIndex u e kind b) (copyElems kind b src dst (planIndex u e kind b)) ps

/-- The source and the destination tensor of a block's sides (R309, R310). -/
def planEnds (first second : Option Tensor) : Option Tensor × Option Tensor :=
  let get := kind == 3 && field b (if kind = 3 then 1 else 2) 1 % 2 == 1
  (if get then none else first, if get then first else second)

def planSides (first second : Option Tensor) : Except LaneFault (State × Copy) := do
  guardE (first.isNone && second.isNone && !pitchesOk kind b 8) (some (.copybad, va, 0))
  guardE (match first, second with | some x, some y => fmtBits x.format != fmtBits y.format | _, _ => false) (some (.copybad, va, 0))
  guardE (kind == 3 && !((u.ports[field b 2 1]?.map (·.up)).getD false)) (some (.linklost, va, 0))
  planSpm e kind u va b (planEnds kind b first second).1 (planEnds kind b first second).2

end

theorem acceptPlan_eq (e : Env) (kind : Nat) (p : Place) (u : State) (l : Nat) : acceptPlan e kind p u l = (do
    let (va, b) ← blockOf u e p l
    guardE (!copyFieldsOk kind b) (some (.copybad, va, 0))
    let fl := field b (if kind = 3 then 1 else 2) 1
    let first ← sideEntry u e kind va b (if kind = 3 then decide (2 ≤ fl) else fl % 2 == 1) (field b 0 1)
    let second ← if kind = 3 then (pure none : Except LaneFault (Option Tensor)) else sideEntry u e kind va b (decide (2 ≤ fl)) (field b 1 1)
    planSides e kind u va b first second) := rfl

/-! ## What acceptance comes to -/

section
variable {e : Env} {kind : Nat} {u v : State} {va : DWord} {b : List Byte} {src dst : Option Tensor} {idx : List Nat}
  {els : List ((Nat × Bool × Nat) × (Nat × Bool × Nat))} {ps : Pages} {c : Copy}

theorem planLast_ok_iff : planLast e kind u va b src dst idx els ps = .ok (v, c) ↔
    field b 4 4 * copyBits src dst / 8 * field b 8 4 ≤ 2 ^ 24 ∧ (pinKeys u e (ps.1.map (·.1))).length ≤ 1024 ∧
    (e.fixed = true → kind = 2 → repeats ((dst.map fun t => if t.dims < 2 then 1 else Tensor.size t 1).getD 0) idx = false) ∧
    ∃ r, planReserve e u (copyBits src dst) (planDests (copyBits src dst) ps els) = .ok (v, r) ∧
      c = planned e kind b src dst idx els ps (pinKeys u e (ps.1.map (·.1))) r := by
  simp only [planLast, bind_ok_iff, guardE_ok_iff, pure_ok_iff, exists_const, Bool.or_eq_false_iff, decide_eq_false_iff_not, not_lt, gt_iff_lt, and_assoc,
    Bool.and_eq_false_imp, Bool.and_eq_true, beq_iff_eq, Prod.exists, Prod.mk.injEq, and_imp]
  constructor
  · rintro ⟨h1, h2, h3, w, r, h4, rfl, rfl⟩
    exact ⟨h1, h2, h3, r, h4, rfl⟩
  · rintro ⟨h1, h2, h3, r, h4, rfl⟩
    exact ⟨h1, h2, h3, v, r, h4, rfl, rfl⟩

theorem planLand_ok_iff : planLand e kind u va b src dst idx els ps = .ok (v, c) ↔
    (planDests (copyBits src dst) ps els).find? (planForeign e u (copyBits src dst)) = none ∧
    planRegion u (copyBits src dst) (planDests (copyBits src dst) ps els) = none ∧ planLast e kind u va b src dst idx els ps = .ok (v, c) := by
  unfold planLand
  cases (planDests (copyBits src dst) ps els).find? (planForeign e u (copyBits src dst)) with
  | some d => exact ⟨fun h => (by cases h), fun h => (by cases h.1)⟩
  | none =>
    cases planRegion u (copyBits src dst) (planDests (copyBits src dst) ps els) with
    | some r => exact ⟨fun h => (by cases h), fun h => (by cases h.2.1)⟩
    | none => exact ⟨fun h => ⟨rfl, rfl, h⟩, fun h => h.2.2⟩

theorem planSpm_ok_iff : planSpm e kind u va b src dst = .ok (v, c) ↔
    copyAlign kind b src dst = none ∧ ((copySpm kind b (copyBits src dst)).find? fun r => decide (r.1 + r.2 > e.gr.spmSize)) = none ∧
    ∃ ps, planPages u e kind b src dst (copyElems kind b src dst (planIndex u e kind b)) = .ok ps ∧
      planLand e kind u va b src dst (planIndex u e kind b) (copyElems kind b src dst (planIndex u e kind b)) ps = .ok (v, c) := by
  unfold planSpm
  cases copyAlign kind b src dst with
  | some x => exact ⟨fun h => (by cases h), fun h => (by cases h.1)⟩
  | none =>
    cases (copySpm kind b (copyBits src dst)).find? fun r => decide (r.1 + r.2 > e.gr.spmSize) with
    | some r => exact ⟨fun h => (by cases h), fun h => (by cases h.2.1)⟩
    | none => exact ⟨fun h => ⟨rfl, rfl, bind_ok_iff.mp h⟩, fun h => bind_ok_iff.mpr h.2.2⟩

/-- What an accepted block has become (R311): the lines reserved and the operation. -/
theorem acceptPlan_ok {p : Place} {l : Nat} (h : acceptPlan e kind p u l = .ok (v, c)) : ∃ va b src dst ps r, blockOf u e p l = .ok (va, b) ∧
    planReserve e u (copyBits src dst) (planDests (copyBits src dst) ps (copyElems kind b src dst (planIndex u e kind b))) = .ok (v, r) ∧
    c = planned e kind b src dst (planIndex u e kind b) (copyElems kind b src dst (planIndex u e kind b)) ps (pinKeys u e (ps.1.map (·.1))) r := by
  rw [acceptPlan_eq] at h
  simp only [bind_ok_iff, guardE_ok_iff, Prod.exists, exists_const] at h
  obtain ⟨va, b, hblock, -, first, -, h⟩ := h
  obtain ⟨second, hsides⟩ : ∃ second, planSides e kind u va b first second = .ok (v, c) := by
    split at h
    · exact ⟨none, h⟩
    · obtain ⟨second, -, h⟩ := bind_ok_iff.mp h
      exact ⟨second, h⟩
  simp only [planSides, bind_ok_iff, guardE_ok_iff, exists_const] at hsides
  obtain ⟨-, -, -, hspm⟩ := hsides
  obtain ⟨-, -, ps, -, hland⟩ := planSpm_ok_iff.mp hspm
  obtain ⟨-, -, hlast⟩ := planLand_ok_iff.mp hland
  obtain ⟨-, -, -, r, hr, hc⟩ := planLast_ok_iff.mp hlast
  exact ⟨va, b, _, _, ps, r, hblock, hr, hc⟩

end

/-! ## Lines reserved -/

section
variable {e : Env} {u v : State} {bits : Nat} {r : List (Nat × Nat)}

/-- Where no destination lies in a heap, none is reserved. -/
theorem planReserve_plain {dests : List (Nat × Nat × Nat)} (h : ∀ d ∈ dests, heapHit u d.2.2 (elemLen bits) = none) :
    planReserve e u bits dests = .ok (u, []) := by
  unfold planReserve
  induction dests with
  | nil => rfl
  | cons d dests ih =>
    rw [List.foldlM_cons, h d (List.mem_cons_self ..)]
    exact ih fun x hx => h x (List.mem_cons_of_mem _ hx)

theorem tookBacking_planReserve {g : Nat} {dests : List (Nat × Nat × Nat)} (h : planReserve e u bits dests = .ok (v, r)) : TookBacking g u v := by
  unfold planReserve at h
  suffices hall : ∀ (ds : List (Nat × Nat × Nat)) (t : State × List (Nat × Nat)), TookBacking g u t.1 → ds.foldlM (fun (t : State × List (Nat × Nat)) d =>
      let line := d.2.2 / 256
      if (heapHit u d.2.2 (elemLen bits)).isSome && (sget? (e.now u).heap line).isNone && (sget? t.2 line).isNone then do
        let x ← backingLine t.1 (e.now t.1) (BitVec.ofNat 64 d.1) 4
        pure (x.1, sput t.2 line x.2)
      else pure t) t = .ok (v, r) → TookBacking g u v from hall _ (u, []) (.refl g u) h
  intro ds
  induction ds with
  | nil => intro t ht hx; cases hx; exact ht
  | cons d ds ih =>
    intro t ht hx
    obtain ⟨t1, h1, hx⟩ := bind_ok_iff.mp ((List.foldlM_cons ..).symm.trans hx)
    refine ih t1 ?_ hx
    dsimp only at h1
    split at h1
    · obtain ⟨x, hb, hp⟩ := bind_ok_iff.mp h1
      rw [← pure_ok_iff.mp hp]
      exact ht.trans (tookBacking_backingLine g hb)
    · rw [← pure_ok_iff.mp h1]; exact ht

end

theorem acceptPlan_keepsPlace {e : Env} {kind : Nat} {p : Place} {u v : State} {l : Nat} {c : Copy} (h : acceptPlan e kind p u l = .ok (v, c))
    (hk : KeepsPlace e u) : KeepsPlace e v := by
  obtain ⟨va, b, src, dst, ps, r, -, hr, -⟩ := acceptPlan_ok h
  exact (tookBacking_planReserve hr).keepsPlace hk

end Sys2Proof.Machine
end

section
/-! PROOFS. Accepted copies are put in flight (R304, R305, R307). -/

namespace Sys2Proof.Machine

/-! ## Entries of the walk-ahead -/

theorem length_foldl_sins (ks : List Nat) : (ks.foldl sins []).length = ks.toFinset.card := by
  have hnodup : (ks.foldl sins []).Nodup := (foldl_sins_pairwise ks List.Pairwise.nil).imp fun h => Nat.ne_of_lt h
  rw [← List.toFinset_card_of_nodup hnodup]
  congr 1
  ext k
  rw [List.mem_toFinset, List.mem_toFinset]
  exact (mem_sinsAll [] ks k).trans (by simp)

/-- The walk-ahead entries of the copies and of the matrix operations of a cluster. -/
def pinned (s : State) (c : Nat) : List Nat :=
  (s.copies.filter fun x => x.core / 2 == c && !x.parked).flatMap (·.entries) ++ (s.matops.filter fun m => m.core / 2 == c && !m.parked).flatMap (·.entries)

theorem pinsIn_eq (s : State) (c : Nat) : pinsIn s c = (pinned s c).toFinset.card := by
  rw [pinned, ← length_foldl_sins, List.foldl_append]
  rfl

/-- One more copy takes its own entries at most. -/
theorem pinsIn_startCopy {s u : State} {x : Copy} (hc : u.copies = s.copies ++ [x]) (hm : u.matops = s.matops) (c : Nat) :
    pinsIn u c ≤ pinsIn s c + x.entries.length := by
  rw [pinsIn_eq, pinsIn_eq]
  have hsub : (pinned u c).toFinset ⊆ (pinned s c).toFinset ∪ x.entries.toFinset := by
    intro k hk
    simp only [pinned, hc, hm, List.filter_append, List.flatMap_append, List.mem_toFinset, List.mem_append, Finset.mem_union] at hk ⊢
    rcases hk with (hk | hk) | hk
    · exact .inl (.inl hk)
    · refine .inr ?_
      obtain ⟨y, hy, hk⟩ := List.mem_flatMap.mp hk
      rw [List.mem_singleton.mp (List.mem_filter.mp hy).1] at hk
      exact hk
    · exact .inl (.inr hk)
  exact (Finset.card_le_card hsub).trans ((Finset.card_union_le ..).trans (Nat.add_le_add_left (List.toFinset_card_le _) _))

/-! ## An operation in flight -/

/-- The number and handle that a copy has once it is in flight. -/
def copyHandle (u : State) (e : Env) (i : Nat) (c : Copy) : Word := (allocFuture (fresh u).2 e.g i c.kind (fresh u).1).2

/-- A copy in flight, its handle not yet written. -/
def copyFlown (u : State) (e : Env) (i : Nat) (c : Copy) : State :=
  let f := allocFuture (fresh u).2 e.g i c.kind (fresh u).1
  { f.1 with copies := f.1.copies ++ [{ c with id := (fresh u).1, handle := f.2 }] }

section
variable {e : Env} {u : State} {i : Nat}

theorem startCopy_eq (h : (freeFutures (e.now u)).head? = some i) (d : Reg) (l : Nat) (c : Copy) :
    startCopy e d u l c = handleWritten (copyFlown u e i c) e d l (copyHandle u e i c) := by
  rw [startCopy, h]
  rfl

theorem copyFlown_keepsPlace (hk : KeepsPlace e u) (c : Copy) : KeepsPlace e (copyFlown u e i c) := by
  have h1 : KeepsPlace e (allocFuture (fresh u).2 e.g i c.kind (fresh u).1).1 := (hk.of_groups (u := (fresh u).2) rfl).allocFuture ..
  exact h1.of_groups rfl

theorem handleWritten_keepsPlace (hk : KeepsPlace e u) (d : Reg) (l : Nat) (w : Word) : KeepsPlace e (handleWritten u e d l w) :=
  (hk.writeReg ..).modWarp fun _ => ⟨rfl, rfl⟩

theorem startCopy_keepsPlace (hk : KeepsPlace e u) (d : Reg) (l : Nat) (c : Copy) : KeepsPlace e (startCopy e d u l c) := by
  cases h : (freeFutures (e.now u)).head? with
  | none => rw [startCopy, h]; exact hk
  | some i => rw [startCopy_eq h]; exact handleWritten_keepsPlace (copyFlown_keepsPlace hk c) ..

/-- The entry of the copy's future is its group's. -/
theorem copyFlown_group (hk : KeepsPlace e u) (c : Copy) :
    group? (copyFlown u e i c) e.g = some (withFuture (e.now u) i c.kind (fresh u).1 (genAfter (e.now u) i)) ∧
    copyHandle u e i c = BitVec.ofNat 32 (c.kind * 2 ^ 24 + genAfter (e.now u) i * 2 ^ 7 + i) ∧ (copyFlown u e i c).matops = u.matops ∧
    (copyFlown u e i c).copies = u.copies ++ [{ c with id := (fresh u).1, handle := copyHandle u e i c }] := by
  have hg : group? (fresh u).2 e.g = some (e.now u) := hk.now.1
  obtain ⟨halloc, hword⟩ := allocFuture_eq hg i c.kind (fresh u).1
  have hgroup : group? (allocFuture (fresh u).2 e.g i c.kind (fresh u).1).1 e.g =
      some (withFuture (e.now u) i c.kind (fresh u).1 (genAfter (e.now u) i)) := by
    rw [halloc, group?_modGroup_self, hg]
    rfl
  refine ⟨hgroup, hword, ?_, ?_⟩
  · show (allocFuture (fresh u).2 e.g i c.kind (fresh u).1).1.matops = _
    rw [halloc, modGroup_matops]
    rfl
  · show (allocFuture (fresh u).2 e.g i c.kind (fresh u).1).1.copies ++ _ = _
    rw [halloc, modGroup_copies]
    rfl

/-- The word's group keeps its futures when a handle is written. -/
theorem handleWritten_futures (hk : KeepsPlace e u) (d : Reg) {l : Nat} (w : Word) (hl : l < 32) :
    (groupOf e (handleWritten u e d l w)).futures = (e.now u).futures := by
  obtain ⟨-, -, -, -, -, gr', hg', hrest, -⟩ := handleWritten_reads (d := d) w hk hl
  have hmine : group? (handleWritten u e d l w) e.g = some gr' := hg'
  have hgr : (e.on u).gr = e.now u := rfl
  rw [groupOf, hmine, Option.getD_some, ← hgr, ← hrest]

/-- What a copy in flight adds: itself, its entries, and the entry of its future (R304, R305, R307). -/
theorem startCopy_adds (hk : KeepsPlace e u) (h : (freeFutures (e.now u)).head? = some i) (d : Reg) {l : Nat} (hl : l < 32) (c : Copy) :
    (startCopy e d u l c).copies = u.copies ++ [{ c with id := (fresh u).1, handle := copyHandle u e i c }] ∧
    (startCopy e d u l c).matops = u.matops ∧
    freeFutures (e.now (startCopy e d u l c)) = (freeFutures (e.now u)).tail := by
  have hflown := copyFlown_keepsPlace (i := i) hk c
  obtain ⟨hgroup, -, hops, hcopies⟩ := copyFlown_group (i := i) hk c
  obtain ⟨-, -, honly, -⟩ := handleWritten_reads (d := d) (copyHandle u e i c) hflown hl
  have hfut := handleWritten_futures hflown d (copyHandle u e i c) hl
  rw [now_of hgroup] at hfut
  rw [startCopy_eq h]
  refine ⟨by rw [honly]; exact hcopies, by rw [honly]; exact hops, ?_⟩
  rw [← freeFutures_withFuture h c.kind (fresh u).1 (genAfter (e.now u) i), freeFutures, freeFutures]
  exact congrArg (fun fs => (List.range 128).filter fun k => match sget? fs k with | some f => !f.live | none => true) hfut

end

/-- Copies are put in flight one after the other. -/
theorem startCopies {e : Env} (d : Reg) {cs : List (Nat × Copy)} : ∀ {u : State}, KeepsPlace e u → (∀ x ∈ cs, x.1 < 32) →
    cs.length ≤ (freeFutures (e.now u)).length →
    (cs.foldl (fun x c => startCopy e d x c.1 c.2) u).copies.length = u.copies.length + cs.length ∧
    ∀ c, pinsIn (cs.foldl (fun x c => startCopy e d x c.1 c.2) u) c ≤ pinsIn u c + (cs.map fun x => x.2.entries.length).sum := by
  induction cs with
  | nil => exact fun _ _ _ => ⟨rfl, fun _ => le_rfl⟩
  | cons x cs ih =>
    intro u hk hlt hfree
    obtain ⟨i, hi⟩ : ∃ i, (freeFutures (e.now u)).head? = some i := by
      cases hf : freeFutures (e.now u) with
      | nil => rw [hf] at hfree; simp at hfree
      | cons i r => exact ⟨i, rfl⟩
    obtain ⟨hcopies, hops, htail⟩ := startCopy_adds hk hi d (hlt x (List.mem_cons_self ..)) x.2
    have hrest : cs.length ≤ (freeFutures (e.now (startCopy e d u x.1 x.2))).length := by
      rw [htail, List.length_tail]
      rw [List.length_cons] at hfree
      omega
    obtain ⟨hlen, hpins⟩ := ih (startCopy_keepsPlace hk d x.1 x.2) (fun y hy => hlt y (List.mem_cons_of_mem _ hy)) hrest
    refine ⟨?_, fun c => ?_⟩
    · rw [List.foldl_cons, hlen, hcopies, List.length_append, List.length_singleton, List.length_cons]
      omega
    · have hmine : pinsIn (startCopy e d u x.1 x.2) c ≤ pinsIn u c + x.2.entries.length := pinsIn_startCopy hcopies hops c
      have hothers := hpins c
      rw [List.foldl_cons, List.map_cons, List.sum_cons]
      omega

end Sys2Proof.Machine
end

section
/-! PROOFS. The engine copy words put operations in flight, wait or fault, and what an accepted copy is (R304 to R318). -/

namespace Sys2Proof.Machine

/-! ## A right block -/

section
variable {s : State} {e : Env} {kind : Nat} {p : Place} {l : Nat} {keys : List Nat}

theorem planDests_plain {u : State} {bits : Nat} {ps : Pages} {els : List ((Nat × Bool × Nat) × (Nat × Bool × Nat))}
    (h : ∀ x ∈ els, ∀ sp a, placeElem ps.1 bits x.2 = some (sp, a) → Plain u sp (elemByte bits a) (elemLen bits)) {d : Nat × Nat × Nat}
    (hd : d ∈ planDests bits ps els) :
    areaHit u d.2.2 (elemLen bits) = false ∧ heapHit u d.2.2 (elemLen bits) = none ∧ backingOf u d.2.2 (elemLen bits) = none := by
  obtain ⟨x, hx, hd⟩ := List.mem_filterMap.mp hd
  split at hd
  · next sp a hplace =>
    split at hd
    · next hsp =>
      cases hd
      exact h x hx sp a hplace hsp
    · cases hd
  · cases hd

theorem planRegion_plain {u : State} {bits : Nat} {dests : List (Nat × Nat × Nat)} (h : ∀ d ∈ dests, backingOf u d.2.2 (elemLen bits) = none) :
    planRegion u bits dests = none := by
  have hnil : dests.filter (fun d => (backingOf u d.2.2 (elemLen bits)).isSome) = [] := List.filter_eq_nil_iff.mpr fun d hd => by simp [h d hd]
  rw [planRegion, hnil]
  rfl

/-- Past its tensors' own checks, a block whose destinations lie where their addresses say reserves nothing. -/
theorem planSpm_plain {va : DWord} {b : List Byte} {src dst : Option Tensor} {ps : Pages} (halign : copyAlign kind b src dst = none)
    (hspm : ∀ r ∈ copySpm kind b (copyBits src dst), r.1 + r.2 ≤ e.gr.spmSize)
    (hpages : planPages s e kind b src dst (copyElems kind b src dst (planIndex s e kind b)) = .ok ps)
    (hplain : ∀ x ∈ copyElems kind b src dst (planIndex s e kind b), ∀ sp a, placeElem ps.1 (copyBits src dst) x.2 = some (sp, a) →
      Plain s sp (elemByte (copyBits src dst) a) (elemLen (copyBits src dst)))
    (hsize : field b 4 4 * copyBits src dst / 8 * field b 8 4 ≤ 2 ^ 24) (hlen : (pinKeys s e (ps.1.map (·.1))).length ≤ 1024)
    (hrep : e.fixed = true → kind = 2 → repeats ((dst.map fun t => if t.dims < 2 then 1 else Tensor.size t 1).getD 0) (planIndex s e kind b) = false) :
    planSpm e kind s va b src dst = .ok (s, planned e kind b src dst (planIndex s e kind b) (copyElems kind b src dst (planIndex s e kind b)) ps
      (pinKeys s e (ps.1.map (·.1))) []) := by
  refine planSpm_ok_iff.mpr ⟨halign, List.find?_eq_none.mpr fun r hr => by simpa using hspm r hr, ps, hpages, planLand_ok_iff.mpr
    ⟨List.find?_eq_none.mpr fun d hd => ?_, planRegion_plain fun d hd => (planDests_plain hplain hd).2.2, planLast_ok_iff.mpr ⟨hsize, hlen, hrep, [],
      planReserve_plain fun d hd => (planDests_plain hplain hd).2.1, rfl⟩⟩⟩
  obtain ⟨harea, hheap, -⟩ := planDests_plain hplain hd
  simp [planForeign, harea, hheap]

/-- A right block is accepted, and no line is reserved (R311). -/
theorem copyOk_plan (h : CopyOk s e kind p l keys) : ∃ c, acceptPlan e kind p s l = .ok (s, c) ∧ c.entries = keys := by
  obtain ⟨va, b, first, second, ps, hblock, hfields, hfirst, hsecond, hpitch, hsame, hport, halign, hspm, hpages, hplain, hsize, hkeys, hlen, hrep⟩ := h
  have hspm' := planSpm_plain (va := va) (src := (planEnds kind b first second).1) (dst := (planEnds kind b first second).2) halign hspm hpages hplain hsize
    (hkeys ▸ hlen) hrep
  have hsides : planSides e kind s va b first second = planSpm e kind s va b (planEnds kind b first second).1 (planEnds kind b first second).2 := by
    refine (bind_ok (a := ()) (guardE_ok_iff.mpr ?_)).trans ((bind_ok (a := ()) (guardE_ok_iff.mpr ?_)).trans (bind_ok (a := ()) (guardE_ok_iff.mpr ?_)))
    · cases first with
      | some x => rfl
      | none => cases second with
        | some y => rfl
        | none => rw [hpitch rfl rfl]; rfl
    · cases first with
      | none => rfl
      | some x => cases second with
        | none => rfl
        | some y => exact bne_eq_false_iff_eq.mpr (hsame x y rfl rfl)
    · rw [Bool.and_eq_false_imp, beq_iff_eq]
      intro hk
      obtain ⟨q, hq, hup⟩ := hport hk
      simp [hq, hup]
  refine ⟨_, (?_ : _ = Except.ok (s, planned e kind b (planEnds kind b first second).1 (planEnds kind b first second).2 (planIndex s e kind b)
    (copyElems kind b (planEnds kind b first second).1 (planEnds kind b first second).2 (planIndex s e kind b)) ps (pinKeys s e (ps.1.map (·.1))) [])), hkeys.symm⟩
  rw [acceptPlan_eq]
  refine bind_ok_iff.mpr ⟨(va, b), hblock, bind_ok_iff.mpr ⟨(), guardE_ok_iff.mpr (by rw [hfields]; rfl), bind_ok_iff.mpr ⟨first, hfirst, ?_⟩⟩⟩
  by_cases hk : kind = 3
  · rw [if_pos hk] at hsecond
    rw [if_pos hk, ← hsecond]
    exact hsides.trans hspm'
  · rw [if_neg hk] at hsecond
    rw [if_neg hk]
    exact bind_ok_iff.mpr ⟨second, hsecond, hsides.trans hspm'⟩

end

end Sys2Proof.Machine
end

section
/-! PROOFS. The engine copy words put operations in flight, wait or fault, and what an accepted copy is (R304 to R318). -/

namespace Sys2Proof.Machine

/-! ## The word -/

/-- What a copy word comes to where there is room for its operations. -/
def copyBody (e : Env) (kind : Nat) (d : Reg) (p : Place) (s : State) : WordRes :=
  lanesThen e s (acceptPlan e kind p) fun u cs => reserveThen e s (cs.foldl (fun x c => startCopy e d x c.1 c.2) u) e.live

/-- There is room in flight and in the future table for an operation of each live lane (R304, R307). -/
def CopyRoom (s : State) (e : Env) : Prop := inFlight s e.gr.core + (lanesOf e.live).length ≤ 96 ∧ (lanesOf e.live).length ≤ (freeFutures e.gr).length

/-- An engine copy word puts its operations in flight, waits or faults. -/
def CopyRuns (s : State) (e : Env) (i : Instr) (kind : Nat) (d : Reg) (p : Place) : Prop :=
  (e.live = 0 → Completes i s e noResult) ∧
  (e.live ≠ 0 → ¬ CopyRoom s e → HoldsOn i s e s .accept e.live) ∧
  (∀ keys : Nat → List Nat, e.live ≠ 0 → CopyRoom s e → walkTurn s e = true → (∀ l, bit e.live l = true → CopyOk s e kind p l (keys l)) →
    pinsIn s (e.gr.core / 2) + ((lanesOf e.live).map fun l => (keys l).length).sum ≤ 1024 →
    ∃ u, u.copies.length = s.copies.length + (lanesOf e.live).length ∧ CompletesOn i s e u noResult) ∧
  (e.live ≠ 0 → CopyRoom s e → ∀ u cs, LanesGive e (acceptPlan e kind p) s u cs →
    (walkTurn s e = true → pinsIn (cs.foldl (fun x c => startCopy e d x c.1 c.2) u) (e.gr.core / 2) ≤ 1024 →
      CompletesOn i s e (leaveWalkers (cs.foldl (fun x c => startCopy e d x c.1 c.2) u) e) noResult) ∧
    (walkTurn s e = false ∨ 1024 < pinsIn (cs.foldl (fun x c => startCopy e d x c.1 c.2) u) (e.gr.core / 2) →
      HoldsOn i s e (joinWalkers s e) .accept e.live)) ∧
  (∀ l c d0 d1, leader e.live = some l → CopyRoom s e → acceptPlan e kind p s l = .error (some (c, d0, d1)) → FaultsFirst i s e s c d0 d1) ∧
  ∀ l va b, leader e.live = some l → CopyRoom s e → blockOf s e p l = .ok (va, b) → copyFieldsOk kind b = false → FaultsFirst i s e s .copybad va 0

theorem leaveWalkers_copies (u : State) (e : Env) : (leaveWalkers u e).copies = u.copies := by
  unfold leaveWalkers
  split <;> rfl

section
variable {s : State} {e : Env} {i : Instr} {kind : Nat} {d : Reg} {p : Place}

theorem copyWord_idle (hi : Issues i s e) (hlive : e.live = 0) : copyWord i kind d p s = finish e i (.done s) s := by
  rw [copyWord, runWord_issues hi, if_pos hlive]

theorem copyWord_full (hi : Issues i s e) (hlive : e.live ≠ 0) (hroom : ¬ CopyRoom s e) : copyWord i kind d p s = finish e i (.hold s .accept e.live) s := by
  rw [copyWord, runWord_issues hi, if_neg hlive, if_pos]
  rw [now_of (issues_here hi).1]
  unfold CopyRoom at hroom
  omega

theorem copyWord_fits (hi : Issues i s e) (hlive : e.live ≠ 0) (hroom : CopyRoom s e) : copyWord i kind d p s = finish e i (copyBody e kind d p s) s := by
  rw [copyWord, runWord_issues hi, if_neg hlive, if_neg]
  · rfl
  · rw [now_of (issues_here hi).1]
    obtain ⟨hfly, hfree⟩ := hroom
    omega

/-- Lanes whose blocks are all right give their operations, and leave the state as it was. -/
theorem copies_given {keys : Nat → List Nat} (hok : ∀ l, bit e.live l = true → CopyOk s e kind p l (keys l)) : ∃ cs, LanesGive e (acceptPlan e kind p) s s cs ∧
    cs.map (·.1) = lanesOf e.live ∧ ∀ x ∈ cs, x.2.entries = keys x.1 := by
  obtain ⟨u, cs, hgive, rfl, hkeys, hents⟩ := eachLane_ok (f := acceptPlan e kind p) (P := fun u => u = s) (Q := fun l c => c.entries = keys l) (lanesOf e.live)
    (fun l hl u hu => by
      obtain ⟨c, hc, hent⟩ := copyOk_plan (hok l ((mem_lanesOf ..).mp hl))
      exact ⟨s, c, hu ▸ hc, rfl, hent⟩) rfl
  exact ⟨cs, hgive, hkeys, hents⟩

theorem copyRuns (hi : Issues i s e) (hx : exec i s = copyWord i kind d p s)
    (ha : ∀ x gr wp, affineWord x { e with gr := gr, wp := wp } i = affineWord x e i) : CopyRuns s e i kind d p := by
  have hh := issues_here hi
  have hplace {u : State} {cs : List (Nat × Copy)} (hgive : LanesGive e (acceptPlan e kind p) s u cs) :
      KeepsPlace e (cs.foldl (fun x c => startCopy e d x c.1 c.2) u) :=
    keepsPlace_foldl (fun v x hv => startCopy_keepsPlace hv d x.1 x.2) cs
      (eachLane_keeps (P := KeepsPlace e) (fun u l v k hu hv => acceptPlan_keepsPlace hv hu) hgive (keepsPlace_of_here hh))
  have hbody (hlive : e.live ≠ 0) (hroom : CopyRoom s e) {u : State} {cs : List (Nat × Copy)} (hgive : LanesGive e (acceptPlan e kind p) s u cs) :
      exec i s = finish e i (reserveThen e s (cs.foldl (fun x c => startCopy e d x c.1 c.2) u) e.live) s := by
    rw [hx, copyWord_fits hi hlive hroom, copyBody, lanesThen_ok hgive]
  have hdone (hlive : e.live ≠ 0) (hroom : CopyRoom s e) {u : State} {cs : List (Nat × Copy)} (hgive : LanesGive e (acceptPlan e kind p) s u cs)
      (hturn : walkTurn s e = true) (hpins : pinsIn (cs.foldl (fun x c => startCopy e d x c.1 c.2) u) (e.gr.core / 2) ≤ 1024) :
      CompletesOn i s e (leaveWalkers (cs.foldl (fun x c => startCopy e d x c.1 c.2) u) e) noResult := by
    refine completesOn_kept hi (hplace hgive).leaveWalkers ha ?_
    rw [hbody hlive hroom hgive, reserveThen, if_neg (by simpa [hturn] using hpins)]
  have hfault {l : Nat} {c : Code} {d0 d1 : DWord} (hl : leader e.live = some l) (hroom : CopyRoom s e)
      (hf : acceptPlan e kind p s l = .error (some (c, d0, d1))) : FaultsFirst i s e s c d0 d1 := by
    have hlive : e.live ≠ 0 := fun h0 => by rw [h0] at hl; cases hl
    exact faultsFirst_of_lane (by rw [hx, copyWord_fits hi hlive hroom, copyBody]) hl hf
  refine ⟨fun hlive => ?_, fun hlive hroom => holdsOn_unchanged hi (by rw [hx, copyWord_full hi hlive hroom]), fun keys hlive hroom hturn hok hpins => ?_,
    fun hlive hroom u cs hgive => ⟨hdone hlive hroom hgive, fun hwait => ?_⟩, fun l c d0 d1 => hfault, fun l va b hl hroom hblock hbad => hfault hl hroom ?_⟩
  · rw [Completes, hx, copyWord_idle hi hlive]
    exact finish_done_completes hi
  · obtain ⟨cs, hgive, hkeys, hents⟩ := copies_given hok
    have hlen : cs.length = (lanesOf e.live).length := by rw [← hkeys, List.length_map]
    have hlt : ∀ x ∈ cs, x.1 < 32 := fun x hx => bit_lt ((mem_lanesOf ..).mp (hkeys ▸ List.mem_map_of_mem hx))
    have hsum : (cs.map fun x => x.2.entries.length).sum = ((lanesOf e.live).map fun l => (keys l).length).sum := by
      rw [← hkeys, List.map_map]
      exact congrArg List.sum (List.map_congr_left fun x hx => congrArg List.length (hents x hx))
    obtain ⟨hcount, hpinned⟩ := startCopies d (keepsPlace_of_here hh) hlt (by rw [now_of hh.1, hlen]; exact hroom.2)
    have hle := hpinned (e.gr.core / 2)
    rw [hsum] at hle
    exact ⟨_, by rw [leaveWalkers_copies, hcount, hlen], hdone hlive hroom hgive hturn (hle.trans hpins)⟩
  · refine holdsOn_kept hi (keepsPlace_joinWalkers hh) ha _ _ ?_
    rw [hbody hlive hroom hgive, reserveThen, if_pos (by
      rcases hwait with hwait | hwait
      · simp [hwait]
      · simp [hwait])]
  · rw [acceptPlan_eq]
    exact (bind_ok hblock).trans (bind_error (guardE_error (by rw [hbad]; rfl)))

end

/-! ## What an accepted copy is -/

section
variable {s u : State} {e : Env} {kind l : Nat} {p : Place} {c : Copy}

theorem heapHit_noHeaps (hs : NoHeaps s) (a n : Nat) : heapHit s a n = none :=
  List.find?_eq_none.mpr fun t ht => by simp [heapSegs, rangeSegs, hs t ht, inSegs]

/-- A copy in flight has its own future, and its handle stands in the register, tagged (R304, R307). -/
theorem startCopy_means (hk : KeepsPlace e u) (hl : l < 32) (hkind : c.kind < 16) (d : Reg) {i : Nat} (hi : (freeFutures (groupOf e u)).head? = some i) :
    ∃ w op, (startCopy e d u l c).copies = u.copies ++ [op] ∧ op = { c with id := op.id, handle := w } ∧ w.toNat % 2 ^ 7 = i ∧ w.toNat / 2 ^ 24 = c.kind ∧
      regAt (startCopy e d u l c) e.g e.w d.toNat l = w ∧ 32 * d.toNat + l ∈ (warpOf e (startCopy e d u l c)).tags ∧
      ∃ f, sget? (groupOf e (startCopy e d u l c)).futures i = some f ∧ f.live = true ∧ f.res = false ∧ f.kind = c.kind ∧ f.landed = 0 ∧
        f.gen = w.toNat / 2 ^ 7 % 2 ^ 16 := by
  have hnow : (freeFutures (e.now u)).head? = some i := hi
  have hflown := copyFlown_keepsPlace (i := i) hk c
  obtain ⟨hgroup, hword, -⟩ := copyFlown_group (i := i) hk c
  obtain ⟨hidx, hkind', hgen⟩ := handle_fields hkind (genAfter_lt (e.now u) i) (freeFutures_head hnow)
  rw [← hword] at hidx hkind' hgen
  obtain ⟨hreg, htag, -⟩ := handleWritten_reads (d := d) (copyHandle u e i c) hflown hl
  have hfut := handleWritten_futures hflown d (copyHandle u e i c) hl
  rw [now_of hgroup] at hfut
  obtain ⟨hcopies, -⟩ := startCopy_adds hk hnow d hl c
  refine ⟨copyHandle u e i c, _, hcopies, rfl, hidx, hkind', by rw [startCopy_eq hnow]; exact hreg, by rw [startCopy_eq hnow]; exact htag,
    { gen := genAfter (e.now u) i, live := true, res := false, stat := 0, kind := c.kind, landed := 0, op := (fresh u).1 }, ?_, rfl, rfl, rfl, rfl, hgen.symm⟩
  rw [startCopy_eq hnow, hfut, withFuture, sget?_sput_self]

end

/-- Settles O41: a copy word's operations are planned lane by lane and then put in flight; the fields are those of the plan. -/
theorem engineWordsCompleteAndMean : Obligations.EngineWordsCompleteAndMean := by
  unfold Obligations.EngineWordsCompleteAndMean
  refine ⟨fun s e h d p => ?_, fun s u e kind l p c va b hkind hl hg hw hblock hplan => ?_⟩
  · intro n cluster room runs
    exact ⟨fun hi => copyRuns hi rfl fun _ _ _ => rfl, fun hi => copyRuns hi rfl fun _ _ _ => rfl, fun hi => copyRuns hi rfl fun _ _ _ => rfl,
      fun hi => copyRuns hi rfl fun _ _ _ => rfl⟩
  · have hh : Here e s := by
      refine ⟨hg, ?_⟩
      rw [warp?, hg] at hw
      exact hw
    have hk := acceptPlan_keepsPlace hplan (keepsPlace_of_here hh)
    obtain ⟨va', b', src, dst, ps, r, hb, hr, rfl⟩ := acceptPlan_ok hplan
    obtain ⟨rfl, rfl⟩ := Prod.mk.inj (Except.ok.inj (hb.symm.trans hblock))
    refine ⟨rfl, rfl, rfl, rfl, rfl, rfl, rfl, rfl, rfl, ?_, fun hno => ?_, ?_, fun d i hi => startCopy_means hk hl (Nat.lt_of_le_of_lt hkind (by norm_num)) d hi⟩
    · exact (List.length_map ..).trans (copyElems_length ..)
    · have hnone := planReserve_plain (e := e) (u := s) (bits := copyBits src dst)
        (dests := planDests (copyBits src dst) ps (copyElems kind b' src dst (planIndex s e kind b'))) fun d _ => heapHit_noHeaps hno _ _
      exact (Prod.mk.inj (Except.ok.inj (hr.symm.trans hnone))).1
    · refine (copyChunks_flatMap ..).trans ?_
      rw [List.length_map]
      exact congrArg List.range (List.length_map ..).symm

end Sys2Proof.Machine
end

section
/-! PROOFS. Function registers, queue tails, completions and events (R387 to R394). -/

namespace Sys2Proof.Machine

/-! ## Versions and ENABLE -/

/-- The device answers an offer unless it is below the oldest version (R388). -/
theorem chooseVersion_eq {k : Nat} {v : Nat × Nat} (hv : recordVersions[k]? = some v) (o : Nat) :
    chooseVersion k o = if o < v.2 then none else some (min o v.1) := by
  rw [chooseVersion, hv]
  rfl

theorem chooseVersion_none {k o : Nat} : chooseVersion k o = none ↔ ∃ v, recordVersions[k]? = some v ∧ o < v.2 := by
  cases hv : recordVersions[k]? with
  | none => simp [chooseVersion, hv]
  | some v => simp [chooseVersion_eq hv]

theorem enableFn_enable (f : Fn) : (enableFn f).enable = true := by
  unfold enableFn
  dsimp only
  split <;> rfl

theorem enableFn_chosen (f : Fn) : (enableFn f).chosen = (f.offered.mapIdx chooseVersion).map fun a => a.getD 0 := by
  unfold enableFn
  dsimp only
  split <;> rfl

/-- The function is ready unless an offer is refused (R388). -/
theorem enableFn_ready (f : Fn) : (enableFn f).ready = true ↔ ∀ k : Nat, (f.offered.mapIdx chooseVersion)[k]? ≠ some none := by
  have hempty : ((List.range (f.offered.mapIdx chooseVersion).length).filter fun i => (f.offered.mapIdx chooseVersion)[i]? == some none).isEmpty = true ↔
      ∀ k : Nat, (f.offered.mapIdx chooseVersion)[k]? ≠ some none := by
    rw [List.isEmpty_iff, List.filter_eq_nil_iff]
    constructor
    · intro h k hk
      obtain ⟨hlt, -⟩ := List.getElem?_eq_some_iff.mp hk
      exact h k (List.mem_range.mpr hlt) (by rw [hk]; rfl)
    · exact fun h k _ hk => h k (eq_of_beq hk)
  rw [← hempty]
  unfold enableFn
  dsimp only
  split
  · next hr => exact ⟨fun _ => hr, fun _ => rfl⟩
  · next hr => exact ⟨fun h => (by cases h), fun h => absurd h hr⟩

theorem sameMemory_modFn (s : State) (i : Nat) (f : Fn → Fn) : SameMemory s (modFn s i f) := ⟨fun _ _ => rfl, fun _ _ _ => rfl⟩

section
variable {s : State} {i : Nat} {f : Fn} (hi : i < s.fns.length) (hf : fn s i = f) (hup : s.mgmt.linkUp = true)
include hi hf hup

theorem functionEnable_acts (hoff : f.enable = false ∨ f.ready = false) : ∃ t, exec (.functionEnable i) s = .next t ∧ SameMemory s t ∧
    t = { s with fns := t.fns } ∧ (fn t i).enable = true ∧
    (∀ (k o : Nat) (v : Nat × Nat), f.offered[k]? = some o → recordVersions[k]? = some v → (fn t i).chosen[k]? = some (if o < v.2 then 0 else min o v.1)) ∧
    ((fn t i).ready = true ↔ ∀ (k o : Nat) (v : Nat × Nat), f.offered[k]? = some o → recordVersions[k]? = some v → v.2 ≤ o) := by
  have hwrite : fn (modFn s i (writeEnable true)) i = enableFn f := by
    rw [fn_modFn_self s i _ hi, hf]
    rcases hoff with h | h <;> simp [writeEnable, h]
  refine ⟨modFn s i (writeEnable true), ?_, sameMemory_modFn .., rfl, ?_, fun k o v ho hv => ?_, ?_⟩
  · exact congrArg Host.Outcome.next (if_pos hup)
  · rw [hwrite, enableFn_enable]
  · rw [hwrite, enableFn_chosen, List.getElem?_map, List.getElem?_mapIdx, ho, Option.map_some, Option.map_some, chooseVersion_eq hv]
    split <;> rfl
  · rw [hwrite, enableFn_ready]
    constructor
    · intro h k o v ho hv
      refine not_lt.mp fun hlt => h k ?_
      rw [List.getElem?_mapIdx, ho, Option.map_some, chooseVersion_none.mpr ⟨v, hv, hlt⟩]
    · intro h k hk
      rw [List.getElem?_mapIdx, Option.map_eq_some_iff] at hk
      obtain ⟨o, ho, hnone⟩ := hk
      obtain ⟨v, hv, hlt⟩ := chooseVersion_none.mp hnone
      exact absurd (h k o v ho hv) (not_le.mpr hlt)

theorem functionDisable_acts (hon : f.enable = true) : ∃ t, exec (.functionDisable i) s = .next t ∧ SameMemory s t ∧ t = { s with fns := t.fns } ∧
    (fn t i).enable = false ∧ (fn t i).overflow = false ∧ ((∀ x ∈ f.queues, x.cmds = [] ∧ x.busy = [] ∧ x.held = []) → (fn t i).ready = false) := by
  have hwrite : fn (modFn s i (writeEnable false)) i = disableFn f := by
    rw [fn_modFn_self s i _ hi, hf]
    simp [writeEnable, hon]
  refine ⟨modFn s i (writeEnable false), congrArg Host.Outcome.next (if_pos hup), sameMemory_modFn .., rfl, ?_, ?_, fun hidle => ?_⟩
  · rw [hwrite, disableFn, settleReady]
    split <;> rfl
  · rw [hwrite, disableFn, settleReady]
    split <;> rfl
  · rw [hwrite, disableFn, settleReady, if_pos]
    rw [Bool.and_eq_true]
    refine ⟨rfl, List.all_eq_true.mpr fun x hx => ?_⟩
    obtain ⟨h1, h2, h3⟩ := hidle x hx
    simp [h1, h2, h3]

end

/-! ## Register writes -/

section
variable {s : State} {i : Nat} (hup : s.mgmt.linkUp = true)
include hup

/-- A write that leaves ENABLE alone puts its bytes into the page (R387). -/
theorem functionRegisterWrite_apart {o : Nat} {data : List Byte} (h : ¬ (o ≤ 0x68 ∧ 0x68 < o + data.length)) :
    exec (.functionRegisterWrite i o data) s = .next (modFn s i fun x =>
      putRegisters ((fnPage s i).mapIdx fun k b => if decide (o ≤ k) && hostWritable k then data[k - o]?.getD b else b) x) := by
  show execFunctionRegisterWrite i o data s = _
  rw [execFunctionRegisterWrite, hup, if_neg (by decide)]
  refine congrArg (fun g => Host.Outcome.next (modFn s i g)) ?_
  funext x
  exact if_neg h

theorem functionRegisterWrite_eventRing (a : Nat) : exec (.functionRegisterWrite i 0x50 (leBytes 8 a)) s = .next (modFn s i fun x =>
    putRegisters ((fnPage s i).mapIdx fun o b => if 0x50 ≤ o ∧ o < 0x58 then (leBytes 8 a)[o - 0x50]?.getD 0 else b) x) := by
  have hlen : (leBytes 8 a).length = 8 := by simp [leBytes]
  rw [functionRegisterWrite_apart hup (by rw [hlen]; omega)]
  refine congrArg (fun b => Host.Outcome.next (modFn s i fun x => putRegisters b x)) ?_
  refine congrArg (fun g => List.mapIdx g (fnPage s i)) (funext fun o => funext fun b => ?_)
  by_cases hin : 0x50 ≤ o ∧ o < 0x58
  · have hw : hostWritable o = true := by simp only [hostWritable, Bool.or_eq_true, Bool.and_eq_true, decide_eq_true_eq]; omega
    rw [if_pos hin, if_pos (by rw [hw]; simpa using hin.1), List.getElem?_eq_getElem (by omega)]
    rfl
  · rw [if_neg hin]
    split
    · next hc =>
      rw [Bool.and_eq_true, decide_eq_true_eq] at hc
      rw [List.getElem?_eq_none (by omega)]
      rfl
    · rfl

/-- Bytes that the host may not write are ignored (R387). -/
theorem functionRegisterWrite_ignored {o : Nat} {data : List Byte} (h : ∀ k, k < data.length → hostWritable (o + k) = false) :
    exec (.functionRegisterWrite i o data) s = .next (modFn s i fun x => putRegisters (fnPage s i) x) := by
  have hen : ¬ (o ≤ 0x68 ∧ 0x68 < o + data.length) := by
    rintro ⟨hle, hlt⟩
    have := h (0x68 - o) (by omega)
    rw [Nat.add_sub_cancel' hle] at this
    cases this
  rw [functionRegisterWrite_apart hup hen]
  refine congrArg (fun b => Host.Outcome.next (modFn s i fun x => putRegisters b x)) ?_
  refine List.ext_getElem (List.length_mapIdx ..) fun k hk _ => ?_
  rw [List.getElem_mapIdx]
  split
  · next hc =>
    rw [Bool.and_eq_true, decide_eq_true_eq] at hc
    rw [List.getElem?_eq_none (not_lt.mp fun hlt => by
      have hno := h (k - o) hlt
      rw [Nat.add_sub_cancel' hc.1, hc.2] at hno
      cases hno)]
    rfl
  · rfl

end

/-! ## Entries -/

section
variable {s : State} {i q : Nat} {p : QPair} (hq : (fn s i).queues.find? (·.num == q) = some p)
include hq

/-- The entry that a queue reads next (R391). -/
def entryAt (s : State) (p : QPair) : List Byte := homeBytes s 1 (p.sub + 64 * (p.read % 2 ^ p.subLog)) 64

theorem takeEntry_unknown (hb : field (entryAt s p) 1 1 < 2) (hn : cmdInstr (cmdOf i q p.read (entryAt s p)) = none) : takeEntry i q s =
    complete (modQueue s i q fun x => { x with read := x.read + 1, busy := x.busy ++ [p.read] }) (cmdOf i q p.read (entryAt s p)) 2 0 := by
  unfold entryAt at *
  rw [takeEntry, hq]
  refine (if_neg (not_le.mpr hb)).trans ?_
  rw [hn]
  rfl

theorem takeEntry_known (hb : field (entryAt s p) 1 1 < 2) {j : Instr} (hj : cmdInstr (cmdOf i q p.read (entryAt s p)) = some j) : takeEntry i q s =
    if ((cmdOf i q p.read (entryAt s p)).ordered && !(p.busy.isEmpty && p.cmds.isEmpty)) = true then
      modQueue s i q fun x => { x with read := x.read + 1, cmds := x.cmds ++ [cmdOf i q p.read (entryAt s p)] }
    else { modQueue s i q (fun x => { x with read := x.read + 1, busy := x.busy ++ [p.read] }) with agenda := s.agenda ++ [j] } := by
  unfold entryAt at *
  rw [takeEntry, hq]
  refine (if_neg (not_le.mpr hb)).trans ?_
  rw [hj]
  rfl

end

theorem readTail_reads {s : State} {i q : Nat} {f : Fn} {p : QPair} (hf : fn s i = f) (hup : s.mgmt.linkUp = true) (hen : f.enable = true) (hr : f.ready = true)
    (hp : f.queues.find? (·.num == q) = some p) : readTail i q s =
    (List.range ((field (homeBytes s 1 p.tail 8) 0 4 + 2 ^ 32 - p.read % 2 ^ 32) % 2 ^ 32)).foldl (fun t _ => takeEntry i q t) s := by
  rw [readTail, hf, hup, hen, hr, if_neg (by decide), hp]

/-! ## Rings -/

theorem putHomeBytes_fns (s : State) (sp a : Nat) (bs : List Byte) : (putHomeBytes s sp a bs).fns = s.fns := by
  induction bs generalizing s a with
  | nil => rfl
  | cons b r ih =>
    rw [putHomeBytes, ih, putHomeByte]
    split
    · rfl
    · split
      · rfl
      · split <;> rfl

/-- A write of the device to host memory stands there (R393, R394). -/
theorem homeWrite_host (s : State) (a : Nat) (data : List Byte) : homeBytes (homeWrite s 4 none 1 a data none false) 1 a data.length = data ∧
    (homeWrite s 4 none 1 a data none false).fns = s.fns := by
  have hput : homeWrite s 4 none 1 a data none false = addVer s 4 none 1 a data.length (putHomeBytes s 1 a data) := by
    rw [homeWrite, if_neg (by decide), dropOnWrite, if_pos (by decide)]
  rw [hput]
  refine ⟨?_, putHomeBytes_fns ..⟩
  refine List.ext_getElem (by simp [homeBytes]) fun k hk _ => ?_
  have hlt : k < data.length := by simpa [homeBytes] using hk
  have hbyte : homeByte (addVer s 4 none 1 a data.length (putHomeBytes s 1 a data)) 1 (a + k) = homeByte (putHomeBytes s 1 a data) 1 (a + k) := rfl
  simp only [homeBytes, List.getElem_map, List.getElem_range]
  rw [hbyte, homeByte_putHomeBytes (.inr rfl), if_pos ⟨by omega, by omega⟩, Nat.add_sub_cancel_left, List.getElem?_eq_getElem hlt]
  rfl

/-- Where no write is pending, a release performs none (R393). -/
theorem releaseAll_idle {s : State} (hp : s.pend = []) : (releaseAll s).fns = s.fns ∧ ∀ d, stuck s d = false := by
  refine ⟨?_, fun d => by rw [stuck, hp]; rfl⟩
  simp [releaseAll, List.range_succ, drainDie, drainIf, bindDie, hp]

theorem homeBytes_modFn (s : State) (i : Nat) (f : Fn → Fn) (sp a n : Nat) : homeBytes (modFn s i f) sp a n = homeBytes s sp a n := rfl

theorem leBytes_phase (c : Prop) [Decidable c] (x y : Nat) : leBytes 1 (if c then x else y) = [if c then BitVec.ofNat 8 x else BitVec.ofNat 8 y] := by
  split <;> rfl

/-- A completion as it stands in its slot of the ring, with the phase of the pass and the read position (R393). -/
def completionBytes (p : QPair) (e : List Byte) : List Byte :=
  e.take 5 ++ leBytes 1 (if p.posted / 2 ^ p.compLog % 2 = 0 then 1 else 0) ++ leBytes 2 (p.read % 2 ^ p.subLog) ++ e.drop 8

/-- Host memory once the oldest completion of a queue has been written. -/
def completionWritten (s : State) (p : QPair) (e : List Byte) : State :=
  homeWrite (releaseAll s) 4 none 1 (p.comp + 16 * (p.posted % 2 ^ p.compLog)) (completionBytes p e) none false

/-- An event as it stands in its slot of the ring, with the phase of the pass (R394). -/
def eventBytes (f : Fn) (e : List Byte) : List Byte :=
  e.take 1 ++ leBytes 1 (if f.evPosted / 2 ^ (f.sizes.extractLsb' 8 4).toNat % 2 = 0 then 128 else 0) ++ e.drop 2

/-- Host memory once the oldest event of a function has been written. -/
def eventWritten (s : State) (f : Fn) (e : List Byte) : State :=
  homeWrite s 4 none 1 (f.evRing + 128 * (f.evPosted % 2 ^ (f.sizes.extractLsb' 8 4).toNat)) (eventBytes f e) none false

theorem settleReady_queues (f : Fn) : (settleReady f).queues = f.queues := by
  unfold settleReady
  split <;> rfl

/-- The queue of a number after a change of the queues of that number. -/
theorem find?_modQueues {qs : List QPair} {q : Nat} {p : QPair} (hq : qs.find? (·.num == q) = some p) (g : QPair → QPair) (hg : ∀ x, (g x).num = x.num) :
    (qs.map fun x => if x.num = q then g x else x).find? (·.num == q) = some (g p) := by
  have hnum : ∀ x : QPair, ((if x.num = q then g x else x).num == q) = (x.num == q) := fun x => by
    split
    · rw [hg]
    · rfl
  rw [List.find?_map]
  have hfun : ((fun x : QPair => x.num == q) ∘ fun x => if x.num = q then g x else x) = fun x => x.num == q := funext hnum
  rw [hfun, hq, Option.map_some, if_pos (eq_of_beq (List.find?_some (p := fun x : QPair => x.num == q) hq))]

section
variable {s : State} {i q : Nat} {f : Fn} (hi : i < s.fns.length) (hf : fn s i = f) (hup : s.mgmt.linkUp = true) (hr : f.ready = true)
include hi hf hup hr

theorem completionPost_posts {p : QPair} {x : List Byte} {rest : List (List Byte)} (hq : f.queues.find? (·.num == q) = some p) (hheld : p.held = x :: rest)
    (hlen : x.length = 16) (hfree : p.posted < 2 ^ p.compLog ∨ Config.hostTook s.tick p.posted = true) (hp : s.pend = []) :
    ∃ t, exec (.completionPost i q) s = .next t ∧ homeBytes t 1 (p.comp + 16 * (p.posted % 2 ^ p.compLog)) 16 =
        x.take 5 ++ [if p.posted / 2 ^ p.compLog % 2 = 0 then 1 else 0] ++ leBytes 2 (p.read % 2 ^ p.subLog) ++ x.drop 8 ∧
      ∃ y, (fn t i).queues.find? (·.num == q) = some y ∧ y.held = rest ∧ y.posted = p.posted + 1 := by
  obtain ⟨hfns, hstuck⟩ := releaseAll_idle hp
  have hentry : (completionBytes p x).length = 16 := by simp [completionBytes, leBytes, hlen]
  obtain ⟨hbytes, hkept⟩ := homeWrite_host (releaseAll s) (p.comp + 16 * (p.posted % 2 ^ p.compLog)) (completionBytes p x)
  rw [hentry] at hbytes
  have hwritten : (completionWritten s p x).fns = s.fns := hkept.trans hfns
  refine ⟨modFn (modQueue (completionWritten s p x) i q fun y => { y with held := rest, posted := y.posted + 1 }) i settleReady, ?_, ?_, ?_⟩
  · have hgo : (!(decide (p.posted < 2 ^ p.compLog) || Config.hostTook s.tick p.posted) || (List.range 4).any fun d => stuck s d) = false := by
      rw [Bool.or_eq_false_iff]
      exact ⟨by rw [Bool.not_eq_false', Bool.or_eq_true, decide_eq_true_eq]; exact hfree, List.any_eq_false.mpr fun d _ => by simp [hstuck d]⟩
    show execCompletionPost i q s = _
    simp only [execCompletionPost, hf, hup, hr, hq, hheld, hgo]
    rfl
  · rw [homeBytes_modFn, modQueue, homeBytes_modFn, completionWritten, hbytes, completionBytes, leBytes_phase]
    rfl
  · have hfn : fn (modQueue (completionWritten s p x) i q fun y => { y with held := rest, posted := y.posted + 1 }) i =
        { f with queues := f.queues.map fun y => if y.num = q then { y with held := rest, posted := y.posted + 1 } else y } := by
      rw [modQueue, fn_modFn_self _ _ _ (by rw [hwritten]; exact hi), fn, hwritten]
      exact congrArg (fun f : Fn => { f with queues := f.queues.map fun y : QPair => if y.num = q then { y with held := rest, posted := y.posted + 1 } else y }) hf
    refine ⟨{ p with held := rest, posted := p.posted + 1 }, ?_, rfl, rfl⟩
    rw [fn_modFn_self _ _ _ (by rw [modQueue, modFn, length_modAt, hwritten]; exact hi), settleReady_queues, hfn]
    exact find?_modQueues hq (fun y => { y with held := rest, posted := y.posted + 1 }) fun _ => rfl

theorem heldEventPost_posts {x : List Byte} {rest : List (List Byte)} (hev : f.events = x :: rest) (hlen : x.length = 128)
    (hfree : f.evPosted < 2 ^ (f.sizes.extractLsb' 8 4).toNat ∨ Config.hostTook s.tick f.evPosted = true) :
    ∃ t, exec (.heldEventPost i) s = .next t ∧ homeBytes t 1 (f.evRing + 128 * (f.evPosted % 2 ^ (f.sizes.extractLsb' 8 4).toNat)) 128 =
        x.take 1 ++ [if f.evPosted / 2 ^ (f.sizes.extractLsb' 8 4).toNat % 2 = 0 then 128 else 0] ++ x.drop 2 ∧
      (fn t i).events = rest ∧ (fn t i).evPosted = f.evPosted + 1 := by
  have hentry : (eventBytes f x).length = 128 := by simp [eventBytes, leBytes, hlen]
  obtain ⟨hbytes, hkept⟩ := homeWrite_host s (f.evRing + 128 * (f.evPosted % 2 ^ (f.sizes.extractLsb' 8 4).toNat)) (eventBytes f x)
  rw [hentry] at hbytes
  have hwritten : (eventWritten s f x).fns = s.fns := hkept
  have hfn : fn (modFn (eventWritten s f x) i fun y => { y with events := rest, evPosted := y.evPosted + 1 }) i =
      { f with events := rest, evPosted := f.evPosted + 1 } := by
    rw [fn_modFn_self _ _ _ (by rw [hwritten]; exact hi), fn, hwritten]
    exact congrArg (fun f : Fn => { f with events := rest, evPosted := f.evPosted + 1 }) hf
  refine ⟨modFn (eventWritten s f x) i fun y => { y with events := rest, evPosted := y.evPosted + 1 }, ?_, ?_, by rw [hfn], by rw [hfn]⟩
  · have hgo : (!(decide (f.evPosted < 2 ^ (f.sizes.extractLsb' 8 4).toNat) || Config.hostTook s.tick f.evPosted)) = false := by
      rw [Bool.not_eq_false', Bool.or_eq_true, decide_eq_true_eq]
      exact hfree
    show execHeldEventPost i s = _
    simp only [execHeldEventPost, hf, hup, hr, hev, hgo]
    rfl
  · rw [homeBytes_modFn, eventWritten, hbytes, eventBytes, leBytes_phase]
    rfl

end

/-! ## Peers -/

/-- A port that is up marks the binding of a context as matched (R385). -/
theorem peerBindingMatch_acts {s : State} {port c : Nat} {p : Port} (hport : s.ports[port]? = some p) (hup : p.up = true) :
    ∃ t x, exec (.peerBindingMatch port c) s = .next t ∧ t = { s with ports := t.ports } ∧ t.ports[port]? = some x ∧
      x.bindings = p.bindings.map fun b => if b.1 = c then (b.1, b.2.1, true) else b := by
  refine ⟨_, _, rfl, rfl, (getElem?_modAt_self ..).trans (congrArg (Option.map _) hport), ?_⟩
  exact congrArg Port.bindings (if_pos hup)

/-- Settles O57: registers, tails, completions and events, each by its word. -/
theorem ringsAndRegistersAct : Obligations.RingsAndRegistersAct := by
  unfold Obligations.RingsAndRegistersAct
  intro s i q f hi hf
  refine ⟨fun hup => ⟨fun hoff _ => functionEnable_acts hi hf hup hoff, functionDisable_acts hi hf hup, functionRegisterWrite_eventRing hup,
    fun o data => functionRegisterWrite_ignored hup⟩, fun hup hen hr p hp => ?_, fun hup hr => ⟨fun p x rest hq hheld hlen hfree hpend =>
    completionPost_posts hi hf hup hr hq hheld hlen hfree hpend, fun x rest hev hlen => ?_⟩, fun port c p hport hpup => ?_⟩
  · intro tail n all
    have hall : readTail i q s = all := readTail_reads hf hup hen hr hp
    have hq : (fn s i).queues.find? (·.num == q) = some p := by rw [hf]; exact hp
    refine ⟨fun hc => ⟨?_, ?_⟩, fun hc => ⟨?_, ?_⟩, ?_⟩
    · exact congrArg Host.Outcome.next ((if_pos hc).trans hall)
    · exact congrArg Host.Outcome.next (if_pos hc)
    · exact congrArg Host.Outcome.next ((if_neg (by rw [hc]; decide)).trans hall)
    · exact congrArg Host.Outcome.next (if_neg (by rw [hc]; decide))
    · intro b c
      refine ⟨takeEntry_unknown hq, fun j hb hj => ⟨fun hc => ⟨_, takeEntry_known hq hb hj, ?_⟩, fun hc hbusy => ?_⟩⟩
      · rw [if_neg]
        rcases hc with hc | ⟨h1, h2⟩
        · exact fun h => by rw [Bool.and_eq_true] at h; exact absurd (hc.symm.trans h.1) (by decide)
        · simp [h1, h2]
      · have hord : ((cmdOf i q p.read (entryAt s p)).ordered && !(p.busy.isEmpty && p.cmds.isEmpty)) = true := by
          rw [show (cmdOf i q p.read (entryAt s p)).ordered = true from hc]
          simp [hbusy]
        rw [takeEntry_known hq hb hj, if_pos hord]
        exact ⟨rfl, sameMemory_modFn ..⟩
  · intro size hfree
    exact heldEventPost_posts hi hf hup hr hev hlen hfree
  · exact peerBindingMatch_acts hport hpup

end Sys2Proof.Machine
end

section
/-! PROOFS. What the end of a context and the performance of a write leave of links, partitions and the board (R358, R398, R406). -/

namespace Sys2Proof.Machine

/-- The board, the links of dies and ports and the partitions of the functions are as they were, and no context has been added. -/
structure KeepsBoard (s t : State) : Prop where
  mgmt : t.mgmt = s.mgmt
  links : t.dies.map (·.linkDown) = s.dies.map (·.linkDown)
  parts : t.fns.map (·.part) = s.fns.map (·.part)
  ports : t.ports.map (·.up) = s.ports.map (·.up)
  ctxs : ∀ c, ctx? s c = none → ctx? t c = none

theorem KeepsBoard.refl (s : State) : KeepsBoard s s := ⟨rfl, rfl, rfl, rfl, fun _ h => h⟩

theorem KeepsBoard.trans {s t u : State} (h : KeepsBoard s t) (k : KeepsBoard t u) : KeepsBoard s u :=
  ⟨k.mgmt.trans h.mgmt, k.links.trans h.links, k.parts.trans h.parts, k.ports.trans h.ports, fun c hc => k.ctxs c (h.ctxs c hc)⟩

theorem keepsBoard_foldl {α : Type} {f : State → α → State} (hf : ∀ s x, KeepsBoard s (f s x)) (xs : List α) (s : State) : KeepsBoard s (xs.foldl f s) := by
  induction xs generalizing s with
  | nil => exact .refl s
  | cons x xs ih => exact (hf s x).trans (ih _)

/-- A state in which only other things have changed. -/
theorem keepsBoard_of_same {s t : State} (hm : t.mgmt = s.mgmt) (hd : t.dies = s.dies) (hf : t.fns = s.fns) (hp : t.ports = s.ports) (hc : t.ctxs = s.ctxs) :
    KeepsBoard s t := ⟨hm, by rw [hd], by rw [hf], by rw [hp], fun c h => by rw [ctx?, hc]; exact h⟩

theorem map_modAt_same {α β : Type} {g : α → β} {f : α → α} (hf : ∀ x, g (f x) = g x) (l : List α) (n : Nat) : (modAt l n f).map g = l.map g := by
  refine List.ext_getElem? fun k => ?_
  rw [List.getElem?_map, List.getElem?_map]
  by_cases hk : k = n
  · subst hk
    rw [getElem?_modAt_self]
    cases l[k]? <;> simp [hf]
  · rw [getElem?_modAt_ne _ _ hk]

section
variable (s : State)

theorem keepsBoard_modFn (i : Nat) {f : Fn → Fn} (hf : ∀ x, (f x).part = x.part) : KeepsBoard s (modFn s i f) :=
  ⟨rfl, rfl, map_modAt_same hf .., rfl, fun _ h => h⟩

theorem keepsBoard_modCtx (c : Nat) (f : Ctx → Ctx) : KeepsBoard s (modCtx s c f) := by
  refine ⟨by rw [modCtx_only], by rw [modCtx_only], by rw [modCtx_only], by rw [modCtx_only], fun k hk => ?_⟩
  by_cases hkc : k = c
  · subst hkc; rw [modCtx, hk]; exact hk
  · rw [ctx?_modCtx_ne _ _ hkc]; exact hk

theorem keepsBoard_complete (c : Cmd) (status result : Nat) : KeepsBoard s (complete s c status result) := keepsBoard_modFn s _ fun _ => rfl

theorem keepsBoard_postEvent (f : Nat) (e : List Byte) : KeepsBoard s (postEvent s f e) :=
  keepsBoard_modFn s f fun x => by split <;> rfl

theorem keepsBoard_freeSlots (gr : Group) : KeepsBoard s (freeSlots s gr) := by
  unfold freeSlots
  split
  · exact .refl s
  · exact keepsBoard_of_same rfl rfl rfl rfl rfl

theorem keepsBoard_removeGroup (g : Nat) : KeepsBoard s (removeGroup s g) := by
  unfold removeGroup
  split
  · exact .refl s
  · next gr _ =>
    have hleft : KeepsBoard s (leaveValues (freeSlots s gr) gr) := (keepsBoard_freeSlots s gr).trans (keepsBoard_modCtx ..)
    dsimp only
    refine .trans (.trans ?_ (keepsBoard_modCtx ..)) (keepsBoard_of_same rfl rfl rfl rfl rfl)
    exact hleft.trans ⟨rfl, by rw [modCore, List.map_map]; rfl, rfl, rfl, fun _ h => h⟩

theorem keepsBoard_settleRanges : KeepsBoard s (settleRanges s) := keepsBoard_of_same rfl rfl rfl rfl rfl

theorem keepsBoard_closeSlotCmds (g : Graph) (status : Nat) (res : SlotCmd → Nat) : KeepsBoard s (closeSlotCmds s g status res) :=
  KeepsBoard.trans (t := modGraph s g.id fun x => { x with slotCmds := [] }) (keepsBoard_of_same rfl rfl rfl rfl rfl)
    (keepsBoard_foldl (fun t c => keepsBoard_complete t c.cmd status (res c)) ..)

theorem keepsBoard_graphEndCheck (g : Nat) : KeepsBoard s (graphEndCheck s g) := by
  unfold graphEndCheck
  split
  · exact .refl s
  split
  · exact .refl s
  dsimp only
  split
  · exact .refl s
  · refine .trans ?_ (keepsBoard_complete ..)
    exact (keepsBoard_closeSlotCmds ..).trans (keepsBoard_of_same rfl rfl rfl rfl rfl)

theorem keepsBoard_stopGrids (g n : Nat) : KeepsBoard s (stopGrids s g n) := by
  unfold stopGrids
  dsimp only
  refine .trans ?_ (keepsBoard_foldl keepsBoard_removeGroup ..)
  exact keepsBoard_of_same rfl rfl rfl rfl rfl

theorem keepsBoard_failNode (g n reason : Nat) : KeepsBoard s (failNode s g n reason) := by
  unfold failNode
  split
  · exact .refl s
  split
  · exact .refl s
  dsimp only
  refine .trans (.trans ?_ (keepsBoard_graphEndCheck ..)) (keepsBoard_settleRanges _)
  refine .trans ?_ (keepsBoard_foldl (fun t i => keepsBoard_stopGrids t g i) ..)
  exact keepsBoard_of_same rfl rfl rfl rfl rfl

theorem keepsBoard_failGraph (g : Graph) (reason : Nat) : KeepsBoard s (failGraph s g reason) :=
  keepsBoard_foldl (fun t i => keepsBoard_failNode t g.id i reason) _ s

/-- The state before a context that ends is taken off the list. -/
def beforeGone (s : State) (c reason : Nat) : State :=
  let s1 := ((s.groups.filter fun x => x.2.ctx == c).map (·.1)).foldl removeGroup s
  let s2 := { s1 with regions := s1.regions.filter (·.ctx != c) }
  (s2.graphs.filter fun g => g.ctx == c && !g.ended).foldl (fun t g => failGraph t g reason) s2

theorem keepsBoard_beforeGone (c reason : Nat) : KeepsBoard s (beforeGone s c reason) := by
  unfold beforeGone
  refine .trans ?_ (keepsBoard_foldl (fun t g => keepsBoard_failGraph t g reason) ..)
  exact (keepsBoard_foldl keepsBoard_removeGroup ..).trans (keepsBoard_of_same rfl rfl rfl rfl rfl)

theorem discardCtx_ctxs (c reason : Nat) : (discardCtx s c reason).ctxs = sdel (beforeGone s c reason).ctxs c := rfl

/-- The context itself is gone (R358). -/
theorem ctx?_discardCtx_self (c reason : Nat) : ctx? (discardCtx s c reason) c = none := by
  rw [ctx?, discardCtx_ctxs, sget?_sdel_self]

theorem keepsBoard_discardCtx (c reason : Nat) : KeepsBoard s (discardCtx s c reason) := by
  have hbefore := keepsBoard_beforeGone s c reason
  refine ⟨hbefore.mgmt, hbefore.links, hbefore.parts, ?_, fun k hk => ?_⟩
  · refine Eq.trans ?_ hbefore.ports
    show ((beforeGone s c reason).ports.map fun p => { p with bindings := p.bindings.filter fun b => b.1 != c }).map (·.up) = _
    rw [List.map_map]
    rfl
  · by_cases hkc : k = c
    · rw [hkc]; exact ctx?_discardCtx_self ..
    · rw [ctx?, discardCtx_ctxs, sget?_sdel_ne _ hkc]
      exact hbefore.ctxs k hk

theorem contextEnd_none (c : Nat) (cause : FaultRec) : contextEnd s c none cause =
    postEvent (discardCtx s c 5) (fnOfCtx s c) (eventEntry 2 c cause.pc.toNat 0 0 (some cause)) := rfl

theorem keepsBoard_contextEnd (c : Nat) (cause : FaultRec) : KeepsBoard s (contextEnd s c none cause) := by
  rw [contextEnd_none]
  exact (keepsBoard_discardCtx ..).trans (keepsBoard_postEvent ..)

theorem ctx?_contextEnd_self (c : Nat) (cause : FaultRec) : ctx? (contextEnd s c none cause) c = none := ctx?_discardCtx_self s c 5

/-! ## Writes -/

theorem keepsBoard_putHomeByte (sp a : Nat) (b : Byte) : KeepsBoard s (putHomeByte s sp a b) := by
  unfold putHomeByte
  split
  · exact keepsBoard_of_same rfl rfl rfl rfl rfl
  split
  · exact keepsBoard_of_same rfl rfl rfl rfl rfl
  split
  · exact keepsBoard_of_same rfl rfl rfl rfl rfl
  · exact .refl s

theorem keepsBoard_putHomeBytes (sp a : Nat) (bs : List Byte) : KeepsBoard s (putHomeBytes s sp a bs) := by
  induction bs generalizing s a with
  | nil => exact .refl s
  | cons b r ih => exact (keepsBoard_putHomeByte s sp a b).trans (ih ..)

theorem keepsBoard_countRecords (src : Option (Nat × Nat)) (n : Nat) : KeepsBoard s (countRecords s src n) := by
  unfold countRecords
  split
  · split
    · split
      · exact .refl s
      · rw [countEvent_only]
        exact keepsBoard_of_same rfl rfl rfl rfl rfl
    · exact .refl s
  · exact .refl s

theorem keepsBoard_sendRecords (s0 s1 : State) (a n : Nat) (src : Option (Nat × Nat)) (keep : Bool) : KeepsBoard s (sendRecords s0 s1 a n src keep s) :=
  keepsBoard_foldl (fun t r => by
    have hcount := keepsBoard_countRecords t src (recordsOf s0 s1 r a n src).length
    exact hcount.trans (keepsBoard_of_same rfl rfl rfl rfl rfl)) _ s

theorem keepsBoard_homeWrite (agent : Nat) (rel : Option View) (sp a : Nat) (data : List Byte) (src : Option (Nat × Nat)) (keep : Bool) :
    KeepsBoard s (homeWrite s agent rel sp a data src keep) := by
  have hput : KeepsBoard s (addVer s agent rel sp a data.length (putHomeBytes s sp a data)) :=
    (keepsBoard_putHomeBytes s sp a data).trans (keepsBoard_of_same rfl rfl rfl rfl rfl)
  have hdrop : KeepsBoard s (dropOnWrite agent sp a data.length (addVer s agent rel sp a data.length (putHomeBytes s sp a data))) := by
    refine hput.trans ?_
    unfold dropOnWrite
    split
    · exact .refl _
    · exact keepsBoard_of_same rfl rfl rfl rfl rfl
  unfold homeWrite
  dsimp only
  split
  · have hclear := hdrop.trans (keepsBoard_of_same (t := clearEcc _ a data.length) rfl rfl rfl rfl rfl)
    have hold (t : State) : KeepsBoard t (keepOld s t a data.length) := by
      unfold keepOld
      split
      · exact keepsBoard_of_same rfl rfl rfl rfl rfl
      · exact .refl _
    exact ((hclear.trans (hold _)).trans (keepsBoard_sendRecords ..)).trans (keepsBoard_of_same rfl rfl rfl rfl rfl)
  · exact hdrop

theorem keepsBoard_postCtx (c kind addr x y : Nat) (r : Option FaultRec) : KeepsBoard s (postCtx s c kind addr x y r) := keepsBoard_postEvent ..

theorem keepsBoard_outsideWrite (agent a : Nat) (data : List Byte) : KeepsBoard s (outsideWrite s agent a data) := by
  unfold outsideWrite
  dsimp only
  split
  · exact keepsBoard_postCtx ..
  · have hhome := keepsBoard_homeWrite s agent none 11 a (keepLeaves s a data (keptLeaves s a data)) none false
    split <;> split
    · exact hhome.trans (keepsBoard_postCtx ..)
    · exact hhome
    · exact (hhome.trans (keepsBoard_postCtx ..)).trans (keepsBoard_postCtx ..)
    · exact hhome.trans (keepsBoard_postCtx ..)

theorem keepsBoard_sendPeer (port c a : Nat) (data : List Byte) : KeepsBoard s (sendPeer s port c a data) := by
  unfold sendPeer
  split
  · next remote _ =>
    exact ⟨rfl, rfl, rfl, map_modAt_same (f := fun p : Port => { p with sent := p.sent ++ [(remote, a, data)] }) (fun _ => rfl) .., fun _ h => h⟩
  · exact .refl s

theorem keepsBoard_performWrite (p : PendWrite) : KeepsBoard s (performWrite s p) := by
  have hmend : KeepsBoard s (mendL1 s p) := by
    unfold mendL1
    split
    · exact .refl s
    · exact keepsBoard_of_same rfl rfl rfl rfl rfl
  unfold performWrite
  dsimp only
  split
  · exact hmend.trans (keepsBoard_outsideWrite ..)
  split
  · exact hmend.trans (keepsBoard_sendPeer ..)
  · exact hmend.trans (keepsBoard_homeWrite ..)

theorem keepsBoard_drainIf (q : PendWrite → Bool) : KeepsBoard s (drainIf s q) := by
  suffices h : ∀ (ps : List PendWrite) (acc : State × List PendWrite), KeepsBoard acc.1 (ps.foldl (fun (acc : State × List PendWrite) p =>
      if q p && !(acc.2.any fun r => precedes s r p) then (performWrite acc.1 p, acc.2) else (acc.1, acc.2 ++ [p])) acc).1 from
    (h s.pend (s, [])).trans (keepsBoard_of_same rfl rfl rfl rfl rfl)
  intro ps
  induction ps with
  | nil => exact fun acc => .refl _
  | cons p ps ih =>
    intro acc
    refine KeepsBoard.trans ?_ (ih _)
    dsimp only
    split
    · exact keepsBoard_performWrite ..
    · exact .refl _

end

end Sys2Proof.Machine
end

section
/-! PROOFS. What is lost with a link (R398, R407). -/

namespace Sys2Proof.Machine

/-! ## Warps that lose writes and loads -/

/-- A warp has a deferred LINKLOST of its word's own class. -/
def Bereft (y : Warp) : Prop := ∃ r ∈ y.deferred, r.1 = 0 ∧ r.2.code = .linklost

/-- A warp has kept its deferred faults and lost results at most; where it has lost some, a deferred LINKLOST tells it. -/
def Loses (x y : Warp) : Prop := (∀ r ∈ x.deferred, r ∈ y.deferred) ∧ (∀ o ∈ y.outs, o ∈ x.outs) ∧ (y.outs = x.outs ∨ Bereft y)

theorem Loses.refl (x : Warp) : Loses x x := ⟨fun _ h => h, fun _ h => h, .inl rfl⟩

theorem Loses.bereft {x y : Warp} (h : Loses x y) (hx : Bereft x) : Bereft y := by
  obtain ⟨r, hr, hrest⟩ := hx
  exact ⟨r, h.1 r hr, hrest⟩

theorem Loses.trans {x y z : Warp} (h : Loses x y) (k : Loses y z) : Loses x z := by
  refine ⟨fun r hr => k.1 r (h.1 r hr), fun o ho => h.2.1 o (k.2.1 o ho), ?_⟩
  rcases k.2.2 with hz | hz
  · rcases h.2.2 with hy | hy
    · exact .inl (hz.trans hy)
    · exact .inr (k.bereft hy)
  · exact .inr hz

/-- Of a state only groups and loads on their way have changed, and its warps have lost results at most. -/
structure LosesOnly (s t : State) : Prop where
  only : t = { s with groups := t.groups, away := t.away }
  warps : ∀ g w x, warp? s g w = some x → ∃ y, warp? t g w = some y ∧ Loses x y

theorem LosesOnly.refl (s : State) : LosesOnly s s := ⟨rfl, fun _ _ x h => ⟨x, h, .refl x⟩⟩

theorem LosesOnly.trans {s t u : State} (h : LosesOnly s t) (k : LosesOnly t u) : LosesOnly s u := by
  refine ⟨by rw [k.only, h.only], fun g w x hx => ?_⟩
  obtain ⟨y, hy, hxy⟩ := h.warps g w x hx
  obtain ⟨z, hz, hyz⟩ := k.warps g w y hy
  exact ⟨z, hz, hxy.trans hyz⟩

theorem losesOnly_foldl {α : Type} {f : State → α → State} (hf : ∀ s x, LosesOnly s (f s x)) : ∀ (xs : List α) (s : State), LosesOnly s (xs.foldl f s)
  | [], s => .refl s
  | x :: xs, s => (hf s x).trans (losesOnly_foldl hf xs _)

/-- One step among others of its kind. -/
theorem losesOnly_foldl_mem {α : Type} {f : State → α → State} (hf : ∀ s x, LosesOnly s (f s x)) {x : α} : ∀ {xs : List α} (s : State), x ∈ xs →
    ∃ u, LosesOnly s u ∧ LosesOnly (f u x) (xs.foldl f s)
  | [], _, h => by cases h
  | y :: ys, s, h => by
    rcases List.mem_cons.mp h with rfl | h
    · exact ⟨s, .refl s, losesOnly_foldl hf ys _⟩
    · obtain ⟨u, hu, hend⟩ := losesOnly_foldl_mem hf (f s y) h
      exact ⟨u, (hf s y).trans hu, hend⟩

/-- A change of one warp. -/
theorem losesOnly_modWarp (s : State) (g w : Nat) {f : Warp → Warp} (hf : ∀ x, Loses x (f x)) : LosesOnly s (modWarp s g w f) := by
  refine ⟨by rw [modWarp_only], fun g' w' x hx => ?_⟩
  by_cases heq : (g', w') = (g, w)
  · obtain ⟨rfl, rfl⟩ := Prod.mk.inj heq
    exact ⟨f x, by rw [warp?_modWarp_self, hx]; rfl, hf x⟩
  · exact ⟨x, (warp?_modWarp_ne s f heq).trans hx, .refl x⟩

/-- A change of every warp of one group. -/
theorem losesOnly_modGroup (s : State) (g : Nat) {f : Group → Group} {k : Warp → Warp} (hf : ∀ x, (f x).warps = x.warps.map k) (hk : ∀ x, Loses x (k x)) :
    LosesOnly s (modGroup s g f) := by
  refine ⟨by rw [modGroup_only], fun g' w' x hx => ?_⟩
  by_cases heq : g' = g
  · subst heq
    obtain ⟨gr, hg, hw⟩ := group_of_warp? hx
    refine ⟨k x, ?_, hk x⟩
    rw [warp?, group?_modGroup_self, hg]
    show (f gr).warps[w']? = _
    rw [hf, List.getElem?_map, hw]
    rfl
  · exact ⟨x, by rw [warp?, group?_modGroup_ne s f heq]; exact hx, .refl x⟩

/-! ## One write, one load -/

theorem loses_dropHolds (x : Warp) (q : HoldRec → Bool) : Loses x (dropHolds? x q) := .refl x

theorem loses_unpark (x : Warp) : Loses x (unpark x) := by
  unfold unpark
  split
  · split <;> exact .refl x
  · exact .refl x

/-- What a warp becomes that loses a write or a load. -/
def bereave (r : FaultRec) (x : Warp) : Warp :=
  dropHolds? { x with deferred := x.deferred ++ [(0, { r with deferred := true, d1 := 0, warp := x.index })] } fun h =>
    match h.kind with | .fence .. => true | _ => false

theorem loseTo_eq (s : State) (g w : Nat) (addr : DWord) : loseTo s g w addr = modWarp s g w (bereave (deviceFault s .linklost addr)) := by
  rw [loseTo, deferTo, if_neg (by decide), modWarp_modWarp]
  rfl

theorem loses_bereave {r : FaultRec} (hr : r.code = .linklost) (x : Warp) : Loses x (bereave r x) ∧ Bereft (bereave r x) :=
  ⟨⟨fun _ h => List.mem_append_left _ h, fun _ h => h, .inl rfl⟩, _, List.mem_append_right _ (List.mem_singleton.mpr rfl), rfl, hr⟩

theorem losesOnly_loseTo (s : State) (g w : Nat) (addr : DWord) : LosesOnly s (loseTo s g w addr) := by
  rw [loseTo_eq]
  exact losesOnly_modWarp s g w fun x => (loses_bereave rfl x).1

theorem loseTo_bereft {s : State} {g w : Nat} {x : Warp} (h : warp? s g w = some x) (addr : DWord) :
    ∃ y, warp? (loseTo s g w addr) g w = some y ∧ Bereft y :=
  ⟨_, by rw [loseTo_eq, warp?_modWarp_self, h]; rfl, (loses_bereave rfl x).2⟩

theorem losesOnly_stillAway (s : State) (g w : Nat) : LosesOnly s (stillAway s g w) := ⟨rfl, fun _ _ x h => ⟨x, h, .refl x⟩⟩

theorem losesOnly_afterReturns (s : State) (g : Nat) : LosesOnly s (modGroup s g afterReturns) :=
  losesOnly_modGroup s g (fun _ => rfl) fun x => by split <;> exact .refl x

/-- A warp without the results of a load over a lost link. -/
def withoutLoad (a : Away) (x : Warp) : Warp := unpark { x with outs := x.outs.filter fun o => !(Away.owns a o) }

theorem withoutLoad_outs (a : Away) (x : Warp) : (withoutLoad a x).outs = x.outs.filter fun o => !(Away.owns a o) := by
  unfold withoutLoad unpark
  split
  · split <;> rfl
  · rfl

theorem withoutLoad_deferred (a : Away) (x : Warp) : (withoutLoad a x).deferred = x.deferred := by
  unfold withoutLoad unpark
  split
  · split <;> rfl
  · rfl

/-- The warp of a lost load. -/
def loadLost (s : State) (a : Away) : State := modWarp s a.group a.warp fun x => bereave (deviceFault s .linklost a.addr) (withoutLoad a x)

theorem loadLost_loses (s : State) (a : Away) (x : Warp) : Loses x (bereave (deviceFault s .linklost a.addr) (withoutLoad a x)) := by
  obtain ⟨⟨hdef, -⟩, hbereft⟩ := loses_bereave (r := deviceFault s .linklost a.addr) rfl (withoutLoad a x)
  refine ⟨fun r hr => hdef r (by rw [withoutLoad_deferred]; exact hr), fun o ho => ?_, .inr hbereft⟩
  have ho' : o ∈ (withoutLoad a x).outs := ho
  rw [withoutLoad_outs] at ho'
  exact (List.mem_filter.mp ho').1

theorem loseLoad_eq {s : State} {a : Away} {x : Warp} (hx : warp? s a.group a.warp = some x) (hany : x.outs.any (Away.owns a) = true) :
    loseLoad s a = stillAway (modGroup (loadLost s a) a.group afterReturns) a.group a.warp := by
  have hfault : deviceFault (modWarp s a.group a.warp (withoutLoad a)) .linklost a.addr = deviceFault s .linklost a.addr := by
    rw [modWarp_only]
    rfl
  have hlost : loseTo (modWarp s a.group a.warp (withoutLoad a)) a.group a.warp a.addr = loadLost s a := by
    rw [loseTo_eq, hfault, modWarp_modWarp, loadLost]
  rw [← hlost, loseLoad, hx]
  exact if_pos hany

/-- A lost load returns nothing, and LINKLOST tells its warp (R398, R407). -/
theorem losesOnly_loseLoad (s : State) (a : Away) : LosesOnly s (loseLoad s a) := by
  cases hx : warp? s a.group a.warp with
  | none => rw [loseLoad, hx]; exact .refl s
  | some x =>
    by_cases hany : x.outs.any (Away.owns a) = true
    · rw [loseLoad_eq hx hany]
      exact ((losesOnly_modWarp s _ _ (loadLost_loses s a)).trans (losesOnly_afterReturns ..)).trans (losesOnly_stillAway ..)
    · rw [loseLoad, hx]
      exact (show LosesOnly s (if x.outs.any (Away.owns a) = true then _ else s) by rw [if_neg hany]; exact .refl s)

/-- Of a lost load no result is on its way any more. -/
theorem loseLoad_returns_none {s : State} {a : Away} {x : Warp} (hx : warp? s a.group a.warp = some x) :
    ∃ y, warp? (loseLoad s a) a.group a.warp = some y ∧ (∀ o ∈ y.outs, Away.owns a o = false) ∧ (x.outs.any (Away.owns a) = true → Bereft y) := by
  by_cases hany : x.outs.any (Away.owns a) = true
  · have hlost : warp? (loadLost s a) a.group a.warp = some (bereave (deviceFault s .linklost a.addr) (withoutLoad a x)) := by
      rw [loadLost, warp?_modWarp_self, hx]
      rfl
    obtain ⟨y, hy, hloses⟩ := ((losesOnly_afterReturns (loadLost s a) a.group).trans (losesOnly_stillAway _ a.group a.warp)).warps _ _ _ hlost
    refine ⟨y, by rw [loseLoad_eq hx hany]; exact hy, fun o ho => ?_, fun _ => hloses.bereft (loses_bereave rfl _).2⟩
    have ho' : o ∈ (withoutLoad a x).outs := hloses.2.1 o ho
    rw [withoutLoad_outs, List.mem_filter] at ho'
    simpa using ho'.2
  · refine ⟨x, ?_, fun o ho => ?_, fun h => absurd h hany⟩
    · rw [loseLoad, hx]
      exact (congrArg (fun t => warp? t a.group a.warp) (if_neg hany)).trans hx
    · simpa using fun hown => hany (List.any_eq_true.mpr ⟨o, ho, hown⟩)

theorem losesOnly_loseLoads (s : State) (space : Nat) : LosesOnly s (loseLoads s space) := losesOnly_foldl losesOnly_loseLoad _ s

/-- Every load of the space is lost. -/
theorem loseLoads_returns_none {s : State} {space : Nat} {a : Away} (ha : a ∈ s.away) (hs : a.space = space) {x : Warp}
    (hx : warp? s a.group a.warp = some x) (hown : ∃ o ∈ x.outs, Away.owns a o = true) :
    ∃ y, warp? (loseLoads s space) a.group a.warp = some y ∧ (∀ o ∈ y.outs, Away.owns a o = false) ∧ Bereft y := by
  obtain ⟨u, hu, hend⟩ := losesOnly_foldl_mem losesOnly_loseLoad (x := a) s
    (List.mem_filter.mpr ⟨ha, beq_iff_eq.mpr hs⟩ : a ∈ s.away.filter (·.space == space))
  obtain ⟨x1, hx1, hbefore⟩ := hu.warps _ _ _ hx
  obtain ⟨x2, hx2, hnone, hbereft⟩ := loseLoad_returns_none hx1
  obtain ⟨y, hy, hafter⟩ := hend.warps _ _ _ hx2
  refine ⟨y, hy, fun o ho => hnone o (hafter.2.1 o ho), hafter.bereft ?_⟩
  obtain ⟨o, ho, hmine⟩ := hown
  rcases hbefore.2.2 with hsame | hlost
  · exact hbereft (List.any_eq_true.mpr ⟨o, hsame ▸ ho, hmine⟩)
  · obtain ⟨x2', hx2', hloses⟩ := (losesOnly_loseLoad u a).warps _ _ _ hx1
    obtain rfl : x2' = x2 := Option.some.inj (hx2'.symm.trans hx2)
    exact hloses.bereft hlost

end Sys2Proof.Machine
end

section
/-! PROOFS. Resets and the links of host, peers and dies (R385, R396, R398, R405 to R408, R410, R414). -/

namespace Sys2Proof.Machine

/-! ## The host link -/

/-- A pending write of a die to host memory. -/
def toHost (p : PendWrite) : Bool := decide (p.die < 4) && keySpace p.uncached p.addr == 1

/-- The host link is down, and the writes to host memory are dropped (R407). -/
def hostDropped (s : State) : State := { s with pend := s.pend.filter (fun p => !(toHost p)), mgmt := { s.mgmt with linkUp := false } }

/-- The warps that a lost write to host memory concerns (R407). -/
def loseHostWrite (s : State) (t : State) (p : PendWrite) : State :=
  match group? s p.group with
  | none => t
  | some gr =>
    let at_ := BitVec.ofNat 64 (p.addr % 2 ^ 58)
    if !cxl s then loseTo t p.group p.warp at_ else
    let line := BitVec.ofNat 64 (p.addr % 2 ^ 58 / 64 * 64)
    (s.groups.filter fun g => g.2.ctx == gr.ctx && g.2.life == .resident).foldl (fun u g =>
      (g.2.warps.filter fun w => !w.ended).foldl (fun v w => loseTo v g.1 w.index line) u) t

/-- The warps once the host link is lost. -/
def hostBereft (s : State) : State := (s.pend.filter toHost).foldl (loseHostWrite s) (loseLoads (hostDropped s) 1)

/-- The groups that LLHALT halts (R407). -/
def hostHalts (t : State) : List Nat :=
  (t.groups.filter fun g => g.2.life == .resident && g.2.logits.isNone && ((ctx? t g.2.ctx).map fun c => c.preempt.getLsbD 0).getD false).map (·.1)

theorem losesOnly_loseHostWrite (s t : State) (p : PendWrite) : LosesOnly t (loseHostWrite s t p) := by
  unfold loseHostWrite
  split
  · exact .refl t
  · dsimp only
    split
    · exact losesOnly_loseTo ..
    · exact losesOnly_foldl (fun u g => losesOnly_foldl (fun v w => losesOnly_loseTo ..) _ u) _ t

theorem losesOnly_hostBereft (s : State) : LosesOnly (hostDropped s) (hostBereft s) :=
  (losesOnly_loseLoads ..).trans (losesOnly_foldl (losesOnly_loseHostWrite s) ..)

section
variable {s : State} (hup : s.mgmt.linkUp = true) (hhalt : ∀ x ∈ s.ctxs, x.2.preempt.getLsbD 0 = false)
include hup hhalt

theorem hostLinkLoss_eq : exec .hostLinkLoss s = .next (postMgmt (hostBereft s) [1]) := by
  have hctxs : (hostBereft s).ctxs = s.ctxs := by rw [(losesOnly_hostBereft s).only]; rfl
  have hnone : hostHalts (hostBereft s) = [] := by
    rw [hostHalts, List.map_eq_nil_iff, List.filter_eq_nil_iff]
    intro g _
    cases hc : ctx? (hostBereft s) g.2.ctx with
    | none => simp
    | some c =>
      have hmem := mem_of_sget? hc
      rw [hctxs] at hmem
      have hbit : c.preempt.getLsbD 0 = false := hhalt _ hmem
      rw [Option.map_some, Option.getD_some, hbit, Bool.and_false]
      decide
  show execHostLinkLoss s = _
  rw [execHostLinkLoss, hup]
  exact congrArg (fun gs : List Nat => Host.Outcome.next (postMgmt (gs.foldl (fun t g => haltAndSave t g .preempt) (hostBereft s)) [1])) hnone

theorem hostLinkLoss_drops : ∃ t, exec .hostLinkLoss s = .next t ∧ t.mgmt.linkUp = false ∧ t.mgmt.posted = s.mgmt.posted ++ [[1]] ∧ t.mem = s.mem ∧
    t.hostMem = s.hostMem ∧ (∀ p ∈ s.pend, p ∈ t.pend ↔ ¬ (p.die < 4 ∧ keySpace p.uncached p.addr = 1)) ∧
    ∀ p ∈ s.pend, p.die < 4 → keySpace p.uncached p.addr = 1 → cxl s = false → ∀ x y, warp? s p.group p.warp = some x → warp? t p.group p.warp = some y →
      ∃ r ∈ y.deferred, r.1 = 0 ∧ r.2.code = .linklost := by
  have hlost := losesOnly_hostBereft s
  refine ⟨postMgmt (hostBereft s) [1], hostLinkLoss_eq hup hhalt, ?_, ?_, ?_, ?_, fun p hp => ?_, fun p hp hdie hspace hcxl x y hx hy => ?_⟩
  · rw [postMgmt, hlost.only]; rfl
  · rw [postMgmt, hlost.only]; rfl
  · rw [postMgmt, hlost.only]; rfl
  · rw [postMgmt, hlost.only]; rfl
  · have hpend : (postMgmt (hostBereft s) [1]).pend = s.pend.filter fun p => !(toHost p) := by rw [postMgmt, hlost.only]; rfl
    rw [hpend, List.mem_filter]
    simp only [hp, true_and, toHost, Bool.not_eq_true', Bool.and_eq_false_imp, decide_eq_true_eq, beq_eq_false_iff_ne, not_and, ne_eq]
  · have hmine : toHost p = true := by simp [toHost, hdie, hspace]
    obtain ⟨u, hu, hend⟩ := losesOnly_foldl_mem (losesOnly_loseHostWrite s) (x := p) (loseLoads (hostDropped s) 1) (List.mem_filter.mpr ⟨hp, hmine⟩)
    obtain ⟨x1, hx1, -⟩ := ((losesOnly_loseLoads (hostDropped s) 1).trans hu).warps p.group p.warp x hx
    obtain ⟨gr, hgr, -⟩ := group_of_warp? hx
    have hstep : loseHostWrite s u p = loseTo u p.group p.warp (BitVec.ofNat 64 (p.addr % 2 ^ 58)) := by
      rw [loseHostWrite, hgr]
      exact if_pos (by rw [hcxl]; rfl)
    obtain ⟨x2, hx2, hbereft⟩ := loseTo_bereft hx1 (BitVec.ofNat 64 (p.addr % 2 ^ 58))
    obtain ⟨y', hy', hloses⟩ := hend.warps p.group p.warp x2 (hstep ▸ hx2)
    obtain rfl : y' = y := Option.some.inj (hy'.symm.trans hy)
    exact hloses.bereft hbereft

theorem hostLinkLoss_loses_loads : ∃ t, exec .hostLinkLoss s = .next t ∧ ∀ a ∈ s.away, a.space = 1 →
    ∀ x y, warp? s a.group a.warp = some x → (∃ o ∈ x.outs, Away.owns a o = true) → warp? t a.group a.warp = some y →
      (∀ o ∈ y.outs, Away.owns a o = false) ∧ ∃ r ∈ y.deferred, r.1 = 0 ∧ r.2.code = .linklost := by
  refine ⟨_, hostLinkLoss_eq hup hhalt, fun a ha hspace x y hx hown hy => ?_⟩
  obtain ⟨x1, hx1, hnone, hbereft⟩ := loseLoads_returns_none (s := hostDropped s) (x := x) ha hspace hx hown
  obtain ⟨y', hy', hloses⟩ := (losesOnly_foldl (losesOnly_loseHostWrite s) (s.pend.filter toHost) (loseLoads (hostDropped s) 1)).warps _ _ _ hx1
  obtain rfl : y' = y := Option.some.inj (hy'.symm.trans hy)
  exact ⟨fun o ho => hnone o (hloses.2.1 o ho), hloses.bereft hbereft⟩

end

theorem hostLinkReturn_acts {s : State} {mode : Nat} (h1 : 1 ≤ mode) (h4 : mode ≤ 4) (hdown : s.mgmt.linkUp = false) :
    ∃ t, exec (.hostLinkReturn mode) s = .next t ∧ t.mgmt.linkUp = true ∧ t.mgmt.linkMode = mode ∧ (∀ f ∈ t.fns, f.ready = false) ∧
      t.fns.map (·.enable) = s.fns.map (·.enable) ∧ t.fns.map (·.queues) = s.fns.map (·.queues) ∧ t.fns.map (·.events) = s.fns.map (·.events) := by
  have hgo : ¬ (s.mgmt.linkUp = true ∨ mode = 0 ∨ mode > 4) := by rw [hdown]; simp; omega
  refine ⟨_, congrArg Host.Outcome.next (if_neg hgo), rfl, rfl, fun f hf => ?_, ?_, ?_, ?_⟩
  · obtain ⟨g, -, rfl⟩ := List.mem_map.mp hf
    rfl
  · exact List.map_map ..
  · exact List.map_map ..
  · exact List.map_map ..

/-! ## The ports of peers -/

theorem postPort_only (s : State) (port kind : Nat) : postPort s port kind = { s with fns := (postPort s port kind).fns } := by
  suffices h : ∀ (fs : List Nat) (t : State) (e : List Byte), fs.foldl (fun t f => postEvent t f e) t =
      { t with fns := (fs.foldl (fun t f => postEvent t f e) t).fns } from h ..
  intro fs
  induction fs with
  | nil => exact fun _ _ => rfl
  | cons f fs ih =>
    intro t e
    rw [List.foldl_cons, ih]
    rfl

/-- A pending write of a die to the peer at a port. -/
def toPeer (port : Nat) (p : PendWrite) : Bool := decide (p.die < 4) && keySpace p.uncached p.addr == 3 + port

/-- The port is down, the writes through it are dropped and its copies stay unwritten (R314, R398). -/
def portDropped (s : State) (port : Nat) : State := { s with
  pend := s.pend.filter fun p => !(toPeer port p)
  copies := s.copies.map fun c => if c.kind = 3 ∧ field c.block 2 1 = port then { c with lost := true } else c
  ports := modAt s.ports port fun x => { x with up := false, bindings := x.bindings.map fun b => (b.1, b.2.1, false) } }

/-- The warps once a port is down. -/
def portBereft (s : State) (port : Nat) : State :=
  (s.pend.filter (toPeer port)).foldl (fun t p => loseTo t p.group p.warp (BitVec.ofNat 64 (p.addr % 2 ^ 58))) (loseLoads (portDropped s port) (3 + port))

section
variable {s : State} {port : Nat} {q : Port} (hq : s.ports[port]? = some q)
include hq

theorem peerPortDown_acts (hup : q.up = true) : ∃ t x, exec (.peerPortDown port) s = .next t ∧ t.ports[port]? = some x ∧ x.up = false ∧
    (∀ b ∈ x.bindings, b.2.2 = false) ∧ (∀ p ∈ t.pend, ¬ (p.die < 4 ∧ keySpace p.uncached p.addr = 3 + port)) ∧
    ∀ c ∈ t.copies, c.kind = 3 → field c.block 2 1 = port → c.lost = true := by
  have hlost : LosesOnly (portDropped s port) (portBereft s port) :=
    (losesOnly_loseLoads ..).trans (losesOnly_foldl (fun t p => losesOnly_loseTo ..) ..)
  have hx : exec (.peerPortDown port) s = .next (postPort (portBereft s port) port 6) := by
    show execPeerPortDown port s = _
    rw [execPeerPortDown, hq]
    exact congrArg Host.Outcome.next (if_neg (by rw [hup]; decide))
  have hports : (postPort (portBereft s port) port 6).ports = (portDropped s port).ports := by rw [postPort_only, hlost.only]
  refine ⟨_, _, hx, by rw [hports]; exact (getElem?_modAt_self ..).trans (congrArg (Option.map _) hq), rfl, fun b hb => ?_, fun p hp => ?_, fun c hc hk hf => ?_⟩
  · obtain ⟨b', -, rfl⟩ := List.mem_map.mp hb
    rfl
  · have hpend : (postPort (portBereft s port) port 6).pend = s.pend.filter fun p => !(toPeer port p) := by rw [postPort_only, hlost.only]; rfl
    rw [hpend, List.mem_filter] at hp
    simpa only [toPeer, Bool.not_eq_true', Bool.and_eq_false_imp, decide_eq_true_eq, beq_eq_false_iff_ne, not_and] using hp.2
  · have hcopies : (postPort (portBereft s port) port 6).copies = (portDropped s port).copies := by rw [postPort_only, hlost.only]
    rw [hcopies] at hc
    obtain ⟨c', -, rfl⟩ := List.mem_map.mp hc
    split at hk
    · next h => rw [if_pos h]
    · next h => rw [if_neg h] at hf; exact absurd ⟨hk, hf⟩ h

theorem peerPortTraining_acts (hdown : q.up = false) (v : Nat) :
    (0x10000 ≤ v → ∃ t x, exec (.peerPortTraining port v) s = .next t ∧ t.ports[port]? = some x ∧ x.up = true ∧ x.bindings = q.bindings) ∧
    (v < 0x10000 → ∃ t, exec (.peerPortTraining port v) s = .next t ∧ t.ports = s.ports ∧ t = { s with fns := t.fns }) := by
  have hx : exec (.peerPortTraining port v) s = .next (if v < 0x00010000 then postPort s port 6
      else postPort { s with ports := modAt s.ports port fun x => { x with up := true } } port 7) := by
    show execPeerPortTraining port v s = _
    rw [execPeerPortTraining, hq]
    exact congrArg Host.Outcome.next (if_neg (by rw [hdown]; decide))
  refine ⟨fun hv => ?_, fun hv => ?_⟩
  · rw [if_neg (not_lt.mpr hv)] at hx
    exact ⟨_, { q with up := true }, hx, by rw [postPort_only]; exact (getElem?_modAt_self ..).trans (congrArg (Option.map _) hq), rfl, rfl⟩
  · rw [if_pos hv] at hx
    exact ⟨_, hx, by rw [postPort_only], postPort_only ..⟩

end

/-! ## The links between dies -/

/-- Two dies have lost the link between them (R414). -/
def linkCut (s : State) (a b : Nat) : State :=
  modDie (modDie s a fun d => { d with linkDown := sins d.linkDown b }) b fun d => { d with linkDown := sins d.linkDown a }

/-- Every context has ended with LINKLOST. -/
def allEnded (s : State) : State := (s.ctxs.map (·.1)).foldl (fun t c => contextEnd t c none (deviceFault t .linklost 0)) s

theorem keepsBoard_allEnded (s : State) : KeepsBoard s (allEnded s) := keepsBoard_foldl (fun t c => keepsBoard_contextEnd t c _) ..

theorem ctx?_allEnded (s : State) (c : Nat) : ctx? (allEnded s) c = none := by
  have hgone : ∀ (cs : List Nat) (t : State), c ∈ cs → ctx? (cs.foldl (fun t c => contextEnd t c none (deviceFault t .linklost 0)) t) c = none := by
    intro cs
    induction cs with
    | nil => exact fun _ h => by cases h
    | cons k cs ih =>
      intro t h
      rcases List.mem_cons.mp h with rfl | h
      · exact (keepsBoard_foldl (fun t c => keepsBoard_contextEnd t c _) cs _).ctxs _ (ctx?_contextEnd_self ..)
      · exact ih _ h
  cases hc : ctx? s c with
  | none => exact (keepsBoard_allEnded s).ctxs c hc
  | some x => exact hgone _ s (List.mem_map.mpr ⟨(c, x), mem_of_sget? hc, rfl⟩)

theorem die_linkDown {s t : State} (h : t.dies.map (·.linkDown) = s.dies.map (·.linkDown)) (d : Nat) : (die t d).linkDown = (die s d).linkDown := by
  have hd : (t.dies[d]?).map (·.linkDown) = (s.dies[d]?).map (·.linkDown) := by rw [← List.getElem?_map, ← List.getElem?_map, h]
  rw [die, die]
  cases ht : t.dies[d]? <;> cases hs : s.dies[d]? <;> simp_all

theorem dieLinkDown_acts {s : State} {a b : Nat} (ha : a ≤ 3) (hb : b ≤ 3) (hab : a ≠ b) (hdies : s.dies.length = 4) :
    ∃ t, exec (.dieLinkDown a b) s = .next t ∧ t.mgmt.needReset = true ∧ (∀ c, ctx? s c ≠ none → ctx? t c = none) ∧
      b ∈ (die t a).linkDown ∧ a ∈ (die t b).linkDown ∧ t.mgmt.posted = s.mgmt.posted ++ [[6, a, b]] := by
  have hkeep := keepsBoard_allEnded (linkCut s a b)
  have hx : exec (.dieLinkDown a b) s = .next (postMgmt (countEcc { allEnded (linkCut s a b) with mgmt :=
      { (allEnded (linkCut s a b)).mgmt with needReset := true } } 3) [6, a, b]) :=
    congrArg Host.Outcome.next (if_neg (by omega))
  have hfirst : die (modDie s a fun d => { d with linkDown := sins d.linkDown b }) a = { die s a with linkDown := sins (die s a).linkDown b } :=
    die_modDie_self s a _ (by omega)
  have hlen : b < (modDie s a fun d => { d with linkDown := sins d.linkDown b }).dies.length := by
    rw [modDie, length_modAt]
    omega
  refine ⟨_, hx, rfl, fun c _ => ctx?_allEnded (linkCut s a b) c, ?_, ?_, ?_⟩
  · refine (die_linkDown hkeep.links a).symm ▸ ?_
    rw [linkCut, die, modDie, getElem?_modAt_ne _ _ hab, ← die, hfirst]
    exact (mem_sins ..).mpr (.inl rfl)
  · refine (die_linkDown hkeep.links b).symm ▸ ?_
    rw [linkCut, die_modDie_self _ b _ hlen]
    exact (mem_sins ..).mpr (.inl rfl)
  · show (allEnded (linkCut s a b)).mgmt.posted ++ _ = _
    rw [hkeep.mgmt]
    rfl

/-! ## Resets -/

theorem drainIf_idle {s : State} (hp : s.pend = []) (q : PendWrite → Bool) : (drainIf s q).hostMem = s.hostMem := by
  rw [drainIf, hp]
  rfl

/-- The state once a reset has drained what it performs (R406). -/
def resetDrained (s : State) : State :=
  hostWritesHome (drainForReset { s with pend := s.pend.filter fun p => p.die != 5 } fun _ => true) (s.pend.filter fun p => p.die == 5)

theorem hostWritesHome_keeps (s : State) (ps : List PendWrite) : (hostWritesHome s ps).ports = s.ports ∧ (hostWritesHome s ps).hostMem = s.hostMem := by
  unfold hostWritesHome
  induction ps generalizing s with
  | nil => exact ⟨rfl, rfl⟩
  | cons p ps ih =>
    have hstep : ∀ (is : List Nat) (t : State),
        (is.foldl (fun u i => { u with mem := memPut u.mem (p.addr + i) (p.data[i]?.getD 0), l2 := sdel u.l2 (p.addr + i) }) t).ports = t.ports ∧
        (is.foldl (fun u i => { u with mem := memPut u.mem (p.addr + i) (p.data[i]?.getD 0), l2 := sdel u.l2 (p.addr + i) }) t).hostMem = t.hostMem := by
      intro is
      induction is with
      | nil => exact fun _ => ⟨rfl, rfl⟩
      | cons i is ih => exact fun t => ih _
    obtain ⟨h1, h2⟩ := hstep (List.range p.data.length) (clearEcc s p.addr p.data.length)
    obtain ⟨h3, h4⟩ := ih ((List.range p.data.length).foldl (fun u i =>
      { u with mem := memPut u.mem (p.addr + i) (p.data[i]?.getD 0), l2 := sdel u.l2 (p.addr + i) }) (clearEcc s p.addr p.data.length))
    exact ⟨h3.trans h1, h4.trans h2⟩

theorem keepsBoard_drainForReset (s : State) (reach : PendWrite → Bool) : KeepsBoard s (drainForReset s reach) := by
  unfold drainForReset
  refine .trans ?_ (keepsBoard_drainIf ..)
  exact keepsBoard_of_same rfl rfl rfl rfl rfl

theorem resetDrained_ports (s : State) : (resetDrained s).ports.map (·.up) = s.ports.map (·.up) := by
  rw [resetDrained, (hostWritesHome_keeps ..).1]
  exact (keepsBoard_drainForReset { s with pend := s.pend.filter fun p => p.die != 5 } fun _ => true).ports

theorem resetDrained_hostMem {s : State} (hp : s.pend = []) : (resetDrained s).hostMem = s.hostMem := by
  rw [resetDrained, (hostWritesHome_keeps ..).2, drainForReset, drainIf_idle]
  simp [hp]

/-- What a reset of the physical function leaves, whatever becomes of the link (R405, R406). -/
theorem physicalReset_leaves (s : State) {i : Instr} (hi : i = .functionLevelReset 0 ∨ i = .hotReset) : ∃ t, exec i s = .next t ∧ t.groups = [] ∧ t.ctxs = [] ∧
    t.grids = [] ∧ t.graphs = [] ∧ t.regions = [] ∧ t.ranges = [] ∧ t.copies = [] ∧ t.matops = [] ∧ t.pend = [] ∧ t.l2 = [] ∧ t.issue = [] ∧
    t.timebase = s.timebase ∧ t.mgmt.needReset = false ∧ t.mgmt.frozen = none ∧
    t.mgmt.bankActive = (if s.mgmt.switch = true then s.mgmt.bankOther else s.mgmt.bankActive) ∧
    (t.ports.map (·.up)) = s.ports.map (·.up) ∧ (∀ p ∈ t.ports, p.bindings = []) ∧ (∀ f ∈ t.fns, f.queues = [] ∧ f.ready = false ∧ f.enable = false) ∧
    (∀ d ∈ t.dies, d.off = false) ∧ t.parts = State.reset.parts ∧ (s.pend = [] → t.hostMem = s.hostMem) := by
  have hports : (resetPhysical s).ports.map (·.up) = s.ports.map (·.up) := by
    refine Eq.trans ?_ (resetDrained_ports s)
    show ((resetDrained s).ports.map fun p => { p with bindings := [] }).map (·.up) = _
    rw [List.map_map]
    rfl
  have hbind : ∀ p ∈ (resetPhysical s).ports, p.bindings = [] := fun p hp => by
    obtain ⟨p', -, rfl⟩ := List.mem_map.mp hp
    rfl
  have hfns : ∀ f ∈ (resetPhysical s).fns, f.queues = [] ∧ f.ready = false ∧ f.enable = false := fun f hf => by
    obtain ⟨f', -, rfl⟩ := List.mem_map.mp hf
    exact ⟨rfl, rfl, rfl⟩
  have hdies : ∀ d ∈ (resetPhysical s).dies, d.off = false := fun d hd => by
    obtain ⟨d', -, rfl⟩ := List.mem_map.mp hd
    rfl
  have hhost : s.pend = [] → (resetPhysical s).hostMem = s.hostMem := resetDrained_hostMem
  rcases hi with rfl | rfl
  · exact ⟨resetPhysical s, rfl, rfl, rfl, rfl, rfl, rfl, rfl, rfl, rfl, rfl, rfl, rfl, rfl, rfl, rfl, rfl, hports, hbind, hfns, hdies, rfl, hhost⟩
  · exact ⟨{ resetPhysical s with mgmt := { (resetPhysical s).mgmt with linkUp := decide ((resetPhysical s).mgmt.linkMode ≠ 0) } }, rfl, rfl, rfl, rfl, rfl, rfl,
      rfl, rfl, rfl, rfl, rfl, rfl, rfl, rfl, rfl, rfl, hports, hbind, hfns, hdies, rfl, hhost⟩

/-- The state of a virtual function's reset before its own is cleared (R406). -/
def virtualDrained (s : State) (f : Nat) : State :=
  drainForReset s fun p => decide (p.die < 4) && ((group? s p.group).map fun g => fnOfCtx s g.ctx) == some f

/-- The graphs of a virtual function are gone, its contexts not yet. -/
def graphsCleared (s : State) (f : Nat) : State :=
  let gs := (s.graphs.filter fun g => ((s.ctxs.filter fun c => c.2.fn == f).map (·.1)).contains g.ctx || g.cmd.fn == f).map (·.id)
  let ids := (s.grids.filter fun g => gs.contains g.graph).map (·.id)
  { s with
    graphs := s.graphs.filter fun g => !(gs.contains g.id)
    grids := s.grids.filter fun g => !(gs.contains g.graph)
    tmpls := s.tmpls.filter fun t => !(ids.contains t.grid) }

/-- The contexts of a virtual function are gone (R406). -/
def ctxsCleared (s : State) (f : Nat) : State := ((s.ctxs.filter fun c => c.2.fn == f).map (·.1)).foldl (fun t c => discardCtx t c 6) (graphsCleared s f)

theorem keepsBoard_ctxsCleared (s : State) (f : Nat) : KeepsBoard s (ctxsCleared s f) := by
  refine KeepsBoard.trans (t := graphsCleared s f) (keepsBoard_of_same rfl rfl rfl rfl rfl) ?_
  exact keepsBoard_foldl (fun t c => keepsBoard_discardCtx t c 6) ..

theorem ctx?_ctxsCleared {s : State} {f c : Nat} {x : Ctx} (hc : ctx? s c = some x) (hf : x.fn = f) : ctx? (ctxsCleared s f) c = none := by
  have hgone : ∀ (cs : List Nat) (t : State), c ∈ cs → ctx? (cs.foldl (fun t c => discardCtx t c 6) t) c = none := by
    intro cs
    induction cs with
    | nil => exact fun _ h => by cases h
    | cons k cs ih =>
      intro t h
      rcases List.mem_cons.mp h with rfl | h
      · exact (keepsBoard_foldl (fun t c => keepsBoard_discardCtx t c 6) cs _).ctxs _ (ctx?_discardCtx_self ..)
      · exact ih _ h
  exact hgone _ _ (List.mem_map.mpr ⟨(c, x), List.mem_filter.mpr ⟨mem_of_sget? hc, beq_iff_eq.mpr hf⟩, rfl⟩)

theorem virtualReset_clears (s : State) {f : Nat} (h1 : 1 ≤ f) (h32 : f ≤ 32) : ∃ t, exec (.functionLevelReset f) s = .next t ∧
    (∀ c, (∃ x, ctx? s c = some x ∧ x.fn = f) → ctx? t c = none) ∧ (∀ r ∈ t.ranges, r.fn ≠ f) ∧
    (f < s.fns.length → (fn t f).queues = [] ∧ (fn t f).ready = false ∧ (fn t f).part = (fn s f).part) := by
  have hx : exec (.functionLevelReset f) s = .next (resetVirtual s f) := by
    refine congrArg Host.Outcome.next ((if_neg ?_).trans (if_pos h32))
    omega
  have hdrain : KeepsBoard s (virtualDrained s f) := keepsBoard_drainForReset ..
  have hctxs : (virtualDrained s f).ctxs = s.ctxs := by
    have hw : WritesOnly s (virtualDrained s f) := WritesOnly.trans (t := { s with pend := _ }) rfl (writesOnly_drainIf ..)
    rw [hw]
  have hclear := keepsBoard_ctxsCleared (virtualDrained s f) f
  refine ⟨resetVirtual s f, hx, ?_, fun r hr => ?_, fun hlt => ?_⟩
  · rintro c ⟨x, hc, hf⟩
    have hc' : ctx? (virtualDrained s f) c = some x := by rw [ctx?, hctxs]; exact hc
    exact ctx?_ctxsCleared hc' hf
  · obtain ⟨r', hr', rfl⟩ := List.mem_map.mp hr
    have hne := (List.mem_filter.mp hr').2
    exact bne_iff_ne.mp hne
  · have hparts : (ctxsCleared (virtualDrained s f) f).fns.map (·.part) = s.fns.map (·.part) := hclear.parts.trans hdrain.parts
    have hlen : f < (ctxsCleared (virtualDrained s f) f).fns.length := by
      have := congrArg List.length hparts
      rw [List.length_map, List.length_map] at this
      omega
    have hfn : fn (resetVirtual s f) f = resetFn (fn (ctxsCleared (virtualDrained s f) f) f) := fn_modFn_self (ctxsCleared (virtualDrained s f) f) f resetFn hlen
    rw [hfn]
    refine ⟨rfl, rfl, ?_⟩
    show (fn (ctxsCleared (virtualDrained s f) f) f).part = _
    have hat : ((ctxsCleared (virtualDrained s f) f).fns[f]?).map (·.part) = (s.fns[f]?).map (·.part) := by rw [← List.getElem?_map, ← List.getElem?_map, hparts]
    rw [fn, fn]
    rw [List.getElem?_eq_getElem hlen, List.getElem?_eq_getElem hlt] at hat ⊢
    exact Option.some.inj hat

/-- Settles O59: resets by what they leave, links by what is lost with them. -/
theorem resetsAndLinksAct : Obligations.ResetsAndLinksAct := by
  unfold Obligations.ResetsAndLinksAct
  intro s
  refine ⟨fun i hi => physicalReset_leaves s hi, fun f h1 h32 => virtualReset_clears s h1 h32, ⟨_, rfl, rfl, rfl, rfl, rfl, rfl, rfl, rfl, rfl, rfl, rfl,
    fun d hd => by rw [List.eq_of_mem_replicate hd]; rfl⟩, fun hdown => congrArg Host.Outcome.next (if_pos (by rw [hdown]; rfl)), hostLinkLoss_drops, hostLinkLoss_loses_loads,
    fun mode h1 h4 hdown => hostLinkReturn_acts h1 h4 hdown, fun port q hq _ => ⟨peerPortDown_acts hq, peerPortTraining_acts hq⟩,
    fun a b ha hb hab hdies => dieLinkDown_acts ha hb hab hdies⟩

end Sys2Proof.Machine
end

section
/-! PROOFS. The restore of a saved group without operations on their way (R365). -/

namespace Sys2Proof.Machine

/-! ## A group takes its place on a core -/

/-- One warp takes the next free slot, unless it has ended. -/
def takeSlot (a : List Warp × List Nat) (w : Warp) : List Warp × List Nat :=
  if w.ended then (a.1 ++ [w], a.2) else (a.1 ++ [{ w with slot := a.2.head?.getD 0 }], a.2.tail)

/-- The warps that have taken slots are as they were but for those. -/
theorem foldl_takeSlot (ws : List Warp) (a : List Warp × List Nat) : ∃ zs, (ws.foldl takeSlot a).1 = a.1 ++ zs ∧
    ∀ (k : Nat) (y : Warp), ws[k]? = some y → ∃ n, zs[k]? = some { y with slot := n } := by
  induction ws generalizing a with
  | nil => exact ⟨[], by simp, fun k y h => by simp at h⟩
  | cons w ws ih =>
    obtain ⟨zs, hzs, hall⟩ := ih (takeSlot a w)
    obtain ⟨n, hn⟩ : ∃ n, (takeSlot a w).1 = a.1 ++ [{ w with slot := n }] := by
      unfold takeSlot
      split
      · exact ⟨w.slot, rfl⟩
      · exact ⟨_, rfl⟩
    refine ⟨{ w with slot := n } :: zs, by rw [List.foldl_cons, hzs, hn, List.append_assoc, List.singleton_append], fun k y hk => ?_⟩
    cases k with
    | zero => exact ⟨n, by rw [List.getElem?_cons_zero] at hk ⊢; rw [Option.some.inj hk]⟩
    | succ k => exact hall k y hk

section
variable {s : State} {g c : Nat} {gr : Group} (hg : group? s g = some gr) (hid : gr.id = g) (hlife : gr.life = .saved)
include hg hid hlife

/-- A saved group takes its place: it is resident there, its warps as they were but for their slots (R365). -/
theorem takeIn_saved : ∃ ws, group? (takeIn s c gr) g = some { gr with life := .resident, core := c, warps := ws } ∧
    ∀ (k : Nat) (y : Warp), gr.warps[k]? = some y → ∃ n, ws[k]? = some { y with slot := n } := by
  subst hid
  have hpass : ∀ d v, group? (learn (passDomain s c gr.ctx) d v) gr.id = some gr := fun d v => by
    rw [← hg]
    unfold passDomain
    split <;> rfl
  obtain ⟨ws, hws, hall⟩ := foldl_takeSlot gr.warps ([], (sortOn (fun x => x) (freeSlotsOf (learn (passDomain s c gr.ctx) (dieOf c)
    (if gr.life = .queued then edgeView s (.grid gr.grid) else gr.view)) c)).take (liveWarps gr))
  refine ⟨ws, ?_, hall⟩
  unfold takeIn
  rw [joinAdmitted, joinSet_cores]
  refine (group?_modGroup_self ..).trans ?_
  rw [hpass, Option.map_some]
  have hnq : ¬ gr.life = .queued := by rw [hlife]; decide
  rw [List.nil_append] at hws
  rw [if_neg hnq, ← hws]
  rfl

end

theorem takeIn_ops (s : State) (c : Nat) (gr : Group) : (takeIn s c gr).copies = s.copies ∧ (takeIn s c gr).matops = s.matops := by
  have hpass : (passDomain s c gr.ctx).copies = s.copies ∧ (passDomain s c gr.ctx).matops = s.matops := by
    unfold passDomain
    split <;> exact ⟨rfl, rfl⟩
  unfold takeIn
  rw [joinAdmitted, joinSet_cores]
  exact ⟨(modGroup_copies ..).trans hpass.1, (modGroup_matops ..).trans hpass.2⟩

/-! ## Nothing on its way -/

theorem moveOps_none (s : State) (gr : Group) (c : Nat) : moveOps s gr c [] [] = s := by
  simp [moveOps]

section
variable {s : State} {g c : Nat} {gr : Group} (hid : gr.id = g)
include hid

theorem againAll_none (hcopies : ∀ x ∈ s.copies, x.group ≠ g) (hops : ∀ x ∈ s.matops, x.group ≠ g) : againAll s gr c = .ok ([], []) := by
  have h1 : copiesOf s gr.id = [] := by
    rw [copiesOf, hid, List.filter_eq_nil_iff.mpr fun x hx => by simpa using hcopies x hx]
    exact List.flatMap_eq_nil_iff.mpr fun _ _ => rfl
  have h2 : s.matops.filter (·.group == gr.id) = [] := by
    rw [hid]
    exact List.filter_eq_nil_iff.mpr fun x hx => by simpa using hops x hx
  rw [againAll, h1, h2]
  rfl

omit hid in
theorem savedTraps_none (hno : ∀ x ∈ gr.warps, x.handler = none) : savedTraps s gr = .ok [] := by
  have hnil : (gr.warps.mapIdx fun i w => (i, w)).filter (fun p => p.2.handler.isSome) = [] := List.filter_eq_nil_iff.mpr fun p hp => by
    obtain ⟨i, hi, rfl⟩ := List.mem_mapIdx.mp hp
    simp [hno _ (List.getElem_mem hi)]
  rw [savedTraps, hnil]
  rfl

end

/-- A user logit kernel of a restored group waits for a slot on its core (R342, R363). -/
def requeueSub (owner c : Nat) (x : Group) : Group := match x.kind with
  | .subgroup o _ _ => if o = owner then { x with life := .queued, core := c } else x
  | _ => x

theorem requeueSub_other {owner c : Nat} {x : Group} (h : ∀ o w l, x.kind ≠ .subgroup o w l) : requeueSub owner c x = x := by
  unfold requeueSub
  split
  · next o w l hk => exact absurd hk (h o w l)
  · rfl

/-- A restored group without what its save noted. -/
def unsaved (x : Group) : Group := { x with cause := none, waitVa := none, frame := none, short := false, savedSlots := [] }

theorem settleRestored_groups (s : State) (gr : Group) (c : Nat) : (settleRestored s gr c).groups =
    (modGroup (modCtx s gr.ctx fun x => { x with frames := x.frames.filter fun f => f.2.2 != gr.id }) gr.id unsaved).groups.map
      fun p => (p.1, requeueSub gr.id c p.2) := by
  have hmap : ∀ ps : List (Nat × Group), (ps.map fun p => match p.2.kind with
      | .subgroup o _ _ => if o = gr.id then (p.1, { p.2 with life := .queued, core := c }) else p
      | _ => p) = ps.map fun p => (p.1, requeueSub gr.id c p.2) := fun ps => List.map_congr_left fun p _ => by
    unfold requeueSub
    split <;> simp only
    split <;> rfl
  unfold settleRestored
  dsimp only
  split <;> exact hmap _

/-- The group of a restore that settles stands as it was placed, its save forgotten (R365). -/
theorem settleRestored_group {s : State} {g c : Nat} {gr x : Group} (hid : gr.id = g) (hg : group? s g = some x) (hk : ∀ o w l, x.kind ≠ .subgroup o w l) :
    group? (settleRestored s gr c) g = some (unsaved x) := by
  subst hid
  rw [group?, settleRestored_groups, sget?_map_values, ← group?, group?_modGroup_self, group?, modCtx_groups, ← group?, hg]
  exact congrArg some (requeueSub_other hk)

theorem keepsMemory_settleRestored (s : State) (gr : Group) (c : Nat) : KeepsMemory s (settleRestored s gr c) := by
  unfold settleRestored
  extract_lets s1 s2 s3
  have h1 : KeepsMemory s s1 := keepsMemory_modCtx (f := fun x : Ctx => { x with frames := x.frames.filter fun f => f.2.2 != gr.id }) s gr.ctx fun _ => rfl
  have h2 : KeepsMemory s s2 := h1.trans (keepsMemory_modGroup ..)
  have h3 : KeepsMemory s s3 := h2.trans (keepsMemory_of_groups rfl)
  split
  · exact h3.trans (keepsMemory_modCore ..)
  · exact h3

/-- A saved group has taken its place on a core, with no accumulator slots to refill. -/
def restorePlaced (s : State) (c g : Nat) (gr : Group) : State :=
  modGroup (modCore (takeIn s c gr) c fun k => { k with slots := k.slots }) g fun x => { x with slots := [] }

theorem keepsMemory_restorePlaced (s : State) (c g : Nat) (gr : Group) : KeepsMemory s (restorePlaced s c g gr) := by
  unfold restorePlaced
  exact ((keepsMemory_takeIn s c gr).trans (keepsMemory_modCore (takeIn s c gr) c fun k => { k with slots := k.slots })).trans (keepsMemory_modGroup ..)

theorem restorePlaced_pins (s : State) (c g : Nat) (gr : Group) (k : Nat) : pinsIn (restorePlaced s c g gr) k = pinsIn s k := by
  obtain ⟨hcopies, hops⟩ := takeIn_ops s c gr
  unfold restorePlaced
  refine pinsIn_congr ?_ ?_ k
  · rw [modGroup_copies, modCore_copies]; exact hcopies
  · rw [modGroup_matops, modCore_matops]; exact hops

theorem groupRestore_acts {s : State} {g c : Nat} {gr : Group} (hg : group? s g = some gr) (hid : gr.id = g) (hk : ∀ o w l, gr.kind ≠ .subgroup o w l)
    (hcan : canRestore s gr c = true) (hcopies : ∀ x ∈ s.copies, x.group ≠ g) (hops : ∀ x ∈ s.matops, x.group ≠ g) (hslots : gr.savedSlots = [])
    (hno : ∀ x ∈ gr.warps, x.handler = none) (hpins : pinsIn s (c / 2) ≤ 1024) :
    ∃ t x, exec (.groupRestore g c) s = .next t ∧ SameMemory s t ∧ group? t g = some x ∧ x.life = .resident ∧ x.core = c ∧ x.cause = none ∧
      x.frame = none ∧ ∀ (w : Nat) (y : Warp), gr.warps[w]? = some y → ∃ z, x.warps[w]? = some z ∧ z.regs = y.regs ∧ z.lanes = y.lanes ∧
        z.pending = y.pending ∧ z.holds = y.holds := by
  have hlife : gr.life = .saved := by
    simp only [canRestore, Bool.and_eq_true, beq_iff_eq] at hcan
    tauto
  obtain ⟨ws, htaken, hws⟩ := takeIn_saved (c := c) hg hid hlife
  have hplaced : group? (restorePlaced s c g gr) g = some { gr with life := .resident, core := c, warps := ws, slots := [] } := by
    rw [restorePlaced, group?_modGroup_self]
    exact congrArg (Option.map _) htaken
  have hx : exec (.groupRestore g c) s = .next (settleRestored (restorePlaced s c g gr) gr c) := by
    show execGroupRestore g c s = _
    rw [execGroupRestore, hg]
    dsimp only
    rw [hcan, if_neg (by decide), againAll_none hid hcopies hops, savedTraps_none hno, hslots, placeSlots_nil]
    show Host.Outcome.next (if pinsIn (moveOps (restorePlaced s c g gr) gr c [] []) (c / 2) > 1024 then s
      else settleRestored (moveOps (restorePlaced s c g gr) gr c [] []) gr c) = _
    rw [moveOps_none, restorePlaced_pins, if_neg (not_lt.mpr hpins)]
  refine ⟨_, _, hx, ((keepsMemory_restorePlaced s c g gr).trans (keepsMemory_settleRestored ..)).sameMemory, settleRestored_group hid hplaced hk, rfl, rfl, rfl, rfl, fun w y hy => ?_⟩
  obtain ⟨n, hn⟩ := hws w y hy
  exact ⟨_, hn, rfl, rfl, rfl, rfl⟩

end Sys2Proof.Machine
end

section
/-! PROOFS. The save of a quiesced group, and the end of a slice (R266, R361 to R364, R402, R403). -/

namespace Sys2Proof.Machine

/-! ## The cause of a halt -/

/-- Every group keeps the cause of its halt. -/
structure KeepsCause (s t : State) : Prop where
  causes : ∀ g, (group? t g).map (·.cause) = (group? s g).map (·.cause)

theorem KeepsCause.refl (s : State) : KeepsCause s s := ⟨fun _ => rfl⟩

theorem KeepsCause.trans {s t u : State} (h : KeepsCause s t) (k : KeepsCause t u) : KeepsCause s u := ⟨fun g => (k.causes g).trans (h.causes g)⟩

theorem keepsCause_of_groups {s t : State} (h : t.groups = s.groups) : KeepsCause s t := ⟨fun g => by rw [group?, h, group?]⟩

theorem keepsCause_foldl {α : Type} {f : State → α → State} (hf : ∀ s x, KeepsCause s (f s x)) : ∀ (xs : List α) (s : State), KeepsCause s (xs.foldl f s)
  | [], s => .refl s
  | x :: xs, s => (hf s x).trans (keepsCause_foldl hf xs _)

theorem keepsCause_modWarp (s : State) (g w : Nat) (f : Warp → Warp) : KeepsCause s (modWarp s g w f) := by
  refine ⟨fun h => ?_⟩
  by_cases hg : h = g
  · subst hg
    rw [group?_modWarp_self, Option.map_map]
    rfl
  · rw [group?_modWarp_ne _ _ _ hg]

theorem keepsCause_ownRow (s : State) (g w r : Nat) : KeepsCause s (ownRow s g w r) := by
  unfold ownRow
  split
  · exact .refl s
  · split
    · exact .refl s
    · split
      · exact .refl s
      · exact KeepsCause.trans ⟨fun h => by rw [group?_countEvent]⟩ (keepsCause_modWarp ..)

theorem keepsCause_writeReg (s : State) (g w r l : Nat) (v : Word) : KeepsCause s (writeReg s g w r l v) :=
  (keepsCause_ownRow s g w r).trans (keepsCause_modWarp ..)

theorem keepsCause_returnOuts (s : State) (g w : Nat) : KeepsCause s (returnOuts s g w) := by
  unfold returnOuts
  split
  · exact .refl s
  · next wp _ =>
    extract_lets s1 s2
    have h1 : KeepsCause s s1 := KeepsCause.trans (keepsCause_of_groups (t := bindWarp s g w) rfl) (keepsCause_modWarp ..)
    have h2 : KeepsCause s s2 := h1.trans (keepsCause_foldl (fun t o => by
      cases o with
      | value l r v =>
        dsimp only
        split
        · exact keepsCause_writeReg ..
        · exact .refl t
      | _ => exact .refl t) ..)
    exact (h2.trans (keepsCause_modWarp ..)).trans (keepsCause_of_groups rfl)

/-- The state in which a group that has quiesced is written to its frame: its results have returned and its writes are performed. -/
def saveReady (s : State) (g : Nat) (gr : Group) : State :=
  (gr :: subsOf s g).foldl (fun t x => (List.range x.warps.length).foldl (fun v w => returnOuts v x.id w) t) (drainDie s (dieOf gr.core))

theorem keepsCause_saveReady (s : State) (g : Nat) (gr : Group) : KeepsCause s (saveReady s g gr) :=
  KeepsCause.trans (keepsCause_of_groups (drainDie_groups ..)) (keepsCause_foldl (fun _ _ => keepsCause_foldl (fun _ _ => keepsCause_returnOuts ..) ..) ..)

/-! ## Saved warps -/

/-- A warp as its save leaves it (R362, R364): its registers and tags, its pending bits unless a sleep ended, and the holds that stay. -/
def SavedWarp (y z : Warp) : Prop := z.regs = y.regs ∧ z.tags = y.tags ∧
  ((∀ h ∈ y.holds, h.kind ≠ .sleep) → z.pending = y.pending ∧ z.parked = y.parked) ∧ ∀ h ∈ z.holds, h.kind.stays = true

theorem unpark_rows (wp : Warp) : (unpark wp).regs = wp.regs ∧ (unpark wp).tags = wp.tags := by
  unfold unpark
  split
  · split <;> exact ⟨rfl, rfl⟩
  · exact ⟨rfl, rfl⟩

theorem endHold_rows (h : HoldRec) (wp : Warp) : (endHold h wp).regs = wp.regs ∧ (endHold h wp).tags = wp.tags := by
  unfold endHold
  dsimp only
  split
  · split
    · exact unpark_rows _
    · exact ⟨rfl, rfl⟩
  · exact ⟨rfl, rfl⟩

theorem foldl_endHold_rows (hs : List HoldRec) (wp : Warp) : (hs.foldl (fun x h => endHold h x) wp).regs = wp.regs ∧
    (hs.foldl (fun x h => endHold h x) wp).tags = wp.tags := by
  induction hs generalizing wp with
  | nil => exact ⟨rfl, rfl⟩
  | cons h hs ih =>
    obtain ⟨h1, h2⟩ := ih (endHold h wp)
    obtain ⟨h3, h4⟩ := endHold_rows h wp
    exact ⟨h1.trans h3, h2.trans h4⟩

theorem dropHolds_awake {y : Warp} (h : ∀ x ∈ y.holds, x.kind ≠ .sleep) : (dropHolds y).pending = y.pending ∧ (dropHolds y).parked = y.parked := by
  have hnone : y.holds.filter (fun x => x.kind == .sleep) = [] := List.filter_eq_nil_iff.mpr fun x hx => by simpa using h x hx
  rw [dropHolds, hnone]
  exact ⟨rfl, rfl⟩

theorem dropHolds_stays (y : Warp) : ∀ h ∈ (dropHolds y).holds, h.kind.stays = true := fun _ h => (List.mem_filter.mp h).2

theorem savedWarp_dropHolds (y : Warp) : SavedWarp y (dropHolds y) := by
  obtain ⟨hregs, htags⟩ := foldl_endHold_rows (y.holds.filter fun h => h.kind == .sleep) y
  exact ⟨hregs, htags, dropHolds_awake, dropHolds_stays y⟩

theorem SavedWarp.dropHolds {y z : Warp} (h : SavedWarp y z) : SavedWarp y (dropHolds z) := by
  obtain ⟨hregs, htags, hpend, hstays⟩ := h
  obtain ⟨hregs', htags', -, hstays'⟩ := savedWarp_dropHolds z
  have hawake : ∀ x ∈ z.holds, x.kind ≠ .sleep := fun x hx hk => by
    have := hstays x hx
    rw [hk] at this
    cases this
  obtain ⟨hp, hk⟩ := dropHolds_awake hawake
  exact ⟨hregs'.trans hregs, htags'.trans htags, fun hy => ⟨hp.trans (hpend hy).1, hk.trans (hpend hy).2⟩, hstays'⟩

theorem SavedWarp.fewer {y z : Warp} (h : SavedWarp y z) (q : HoldRec → Bool) : SavedWarp y (dropHolds? z q) := by
  obtain ⟨hregs, htags, hpend, hstays⟩ := h
  exact ⟨hregs, htags, hpend, fun x hx => hstays x (List.mem_filter.mp hx).1⟩

/-! ## Saved groups -/

/-- A group as its save leaves it. -/
def SavedGroup (gr : Group) (cause : Cause) (frame : Nat × Nat) (x : Group) : Prop :=
  x.life = .saved ∧ x.frame = some frame ∧ x.cause = some cause ∧ ∀ (w : Nat) (y : Warp), gr.warps[w]? = some y → ∃ z, x.warps[w]? = some z ∧ SavedWarp y z

section
variable {gr x : Group} {cause : Cause} {frame : Nat × Nat} (h : SavedGroup gr cause frame x)
include h

theorem SavedGroup.mapWarps {k : Warp → Warp} (hk : ∀ y z, SavedWarp y z → SavedWarp y (k z)) (life : GroupLife) (hl : life = .saved) :
    SavedGroup gr cause frame { x with life := life, warps := x.warps.map k } := by
  obtain ⟨-, hframe, hcause, hwarps⟩ := h
  refine ⟨hl, hframe, hcause, fun w y hy => ?_⟩
  obtain ⟨z, hz, hs⟩ := hwarps w y hy
  exact ⟨k z, by rw [List.getElem?_map, hz]; rfl, hk y z hs⟩

theorem SavedGroup.retryGroup : SavedGroup gr cause frame (retryGroup x) := by
  have hlife := h.1
  have := h.mapWarps (k := fun w => dropHolds? w fun h => h.kind == .accept || h.kind == .slotWait) (fun y z hs => hs.fewer _) x.life hlife
  exact this

/-- A user logit kernel of a group that is saved with it (R362). -/
def saveSub (owner : Nat) (x : Group) : Group := match x.kind with
  | .subgroup o _ _ => if o = owner then { x with life := .saved, warps := x.warps.map dropHolds } else x
  | _ => x

theorem SavedGroup.saveSub (owner : Nat) : SavedGroup gr cause frame (saveSub owner x) := by
  unfold Machine.saveSub
  split
  · split
    · exact h.mapWarps (fun y z hs => hs.dropHolds) .saved rfl
    · exact h
  · exact h

end

/-- The group g of a state is saved. -/
def SavedIn (gr : Group) (cause : Cause) (frame : Nat × Nat) (g : Nat) (t : State) : Prop := ∃ x, group? t g = some x ∧ SavedGroup gr cause frame x

theorem SavedIn.of_groups {gr : Group} {cause : Cause} {frame : Nat × Nat} {g : Nat} {t u : State} (h : SavedIn gr cause frame g t) (hg : u.groups = t.groups) :
    SavedIn gr cause frame g u := by
  obtain ⟨x, hx, hs⟩ := h
  exact ⟨x, by rw [group?, hg]; exact hx, hs⟩

theorem SavedIn.retryAccept {gr : Group} {cause : Cause} {frame : Nat × Nat} {g : Nat} {t : State} (h : SavedIn gr cause frame g t) :
    SavedIn gr cause frame g (retryAccept t) := by
  obtain ⟨x, hx, hs⟩ := h
  refine ⟨Machine.retryGroup x, ?_, hs.retryGroup⟩
  rw [group?, Machine.retryAccept, sget?_map_values, ← group?, hx]
  rfl

/-- The group of a save, off its core. -/
def takenOff (s : State) (gr : Group) (frame : Nat × Nat) (x : Group) : Group :=
  { x with life := .saved, frame := some frame, savedSlots := slotContents s gr, view := relView s (dieOf gr.core), warps := x.warps.map dropHolds }

theorem takeOff_groups (s : State) (gr : Group) (frame : Nat × Nat) : (takeOff s gr frame).groups =
    ((modGroup (freeSlots s gr) gr.id (takenOff s gr frame)).groups.map fun p => (p.1, saveSub gr.id p.2)).map fun p => (p.1, retryGroup p.2) := by
  have hmap : ∀ ps : List (Nat × Group), (ps.map fun p => match p.2.kind with
      | .subgroup o _ _ => if o = gr.id then (p.1, { p.2 with life := .saved, warps := p.2.warps.map dropHolds }) else p
      | _ => p) = ps.map fun p => (p.1, saveSub gr.id p.2) := fun ps => List.map_congr_left fun p _ => by
    unfold saveSub
    split <;> simp only
    split <;> rfl
  exact congrArg (List.map fun p => (p.1, retryGroup p.2)) (hmap _)

/-- A group taken off its core is saved (R361 to R364). -/
theorem takeOff_saves {s : State} {gr : Group} {g : Nat} {cause : Cause} (hg : group? s g = some gr) (hid : gr.id = g) (hc : gr.cause = some cause)
    (frame : Nat × Nat) : SavedIn gr cause frame g (takeOff s gr frame) := by
  subst hid
  have hfree : group? (freeSlots s gr) gr.id = some gr := by
    rw [← hg]
    unfold freeSlots
    split <;> rfl
  have hsaved : SavedGroup gr cause frame (takenOff s gr frame gr) := ⟨rfl, rfl, hc, fun w y hy =>
    ⟨dropHolds y, by rw [takenOff, List.getElem?_map, hy]; rfl, savedWarp_dropHolds y⟩⟩
  refine ⟨retryGroup (saveSub gr.id (takenOff s gr frame gr)), ?_, (hsaved.saveSub gr.id).retryGroup⟩
  rw [group?, takeOff_groups, sget?_map_values, sget?_map_values, ← group?, group?_modGroup_self, hfree]
  rfl

theorem takeOff_keepsMemory (s : State) (gr : Group) (frame : Nat × Nat) : KeepsMemory s (takeOff s gr frame) := by
  unfold takeOff
  extract_lets s1 s2 s3 gone
  have h2 : KeepsMemory s s2 := (keepsMemory_freeSlots s gr).trans (keepsMemory_modGroup ..)
  have h3 : KeepsMemory s s3 := h2.trans ⟨rfl, rfl, rfl, rfl, rfl, fun _ => rfl, fun _ => rfl⟩
  exact ((h3.trans (keepsMemory_modCore ..)).trans (keepsMemory_modCore ..)).trans (keepsMemory_retryAccept _)

theorem takeOff_regions (s : State) (gr : Group) (frame : Nat × Nat) : (takeOff s gr frame).regions = s.regions := by
  unfold takeOff
  extract_lets s1 s2 s3 gone
  have h1 : s1.regions = s.regions := by
    unfold s1 freeSlots
    split <;> rfl
  have h2 : s2.regions = s1.regions := modGroup_regions ..
  exact h2.trans h1

end Sys2Proof.Machine
end

section
/-! PROOFS. The save of a group, and the end of a slice (R361 to R364, R402, R403). -/

namespace Sys2Proof.Machine

/-! ## Regions settle without touching a saved group -/

section
variable {gr : Group} {cause : Cause} {frame : Nat × Nat} {g : Nat}

theorem SavedIn.foldl {α : Type} {f : State → α → State} (hf : ∀ t x, SavedIn gr cause frame g t → SavedIn gr cause frame g (f t x)) (xs : List α)
    {t : State} (h : SavedIn gr cause frame g t) : SavedIn gr cause frame g (xs.foldl f t) := by
  induction xs generalizing t with
  | nil => exact h
  | cons x xs ih => exact ih (hf t x h)

theorem OnlySlices.groups {s t : State} (h : OnlySlices s t) : t.groups = s.groups := by rw [h]

theorem SavedIn.applyAt {t : State} (h : SavedIn gr cause frame g t) (r : Region) (i : Nat) : SavedIn gr cause frame g (applyAt t r i) := by
  unfold Machine.applyAt
  split
  · exact h
  · refine SavedIn.retryAccept (h.of_groups ((onlySlices_foldl (fun t k => onlySlices_putNode t _ k _) _ _).groups.trans ?_))
    unfold modRegion mend
    split <;> rfl

theorem SavedIn.unbindIdle {t : State} (h : SavedIn gr cause frame g t) : SavedIn gr cause frame g (unbindIdle t) := by
  refine SavedIn.foldl (fun t r ht => ?_) _ h
  have hone : ∀ (u : State) (n : Nat), SavedIn gr cause frame g u → SavedIn gr cause frame g (match region? u r.ctx r.num with
      | some x => Machine.applyAt u x 0
      | none => u) := fun u n hu => by
    split
    · exact hu.applyAt ..
    · exact hu
  extract_lets t1
  have h1 : SavedIn gr cause frame g t1 := SavedIn.foldl hone _ ht
  split
  · exact h1.of_groups (onlySlices_putLevels ..).groups
  · exact h1

theorem SavedIn.settleRegions {t : State} (h : SavedIn gr cause frame g t) : SavedIn gr cause frame g (settleRegions t) := by
  refine SavedIn.foldl (fun t r ht => ?_) _ h.unbindIdle
  split
  · exact ht.of_groups rfl
  · exact ht

end

theorem settleRegions_none {t : State} (h : t.regions = []) : settleRegions t = t := by
  have hu : unbindIdle t = t := by rw [unbindIdle, h]; rfl
  rw [settleRegions, hu, bindRegions, h]
  rfl

/-! ## The save of a group -/

section
variable {s : State} {g : Nat} {gr : Group} (hg : group? s g = some gr) (hlife : gr.life = .halted)
include hg hlife

/-- A group that has not quiesced stays halted (R361). -/
theorem framePoolSave_unquiet {cause : Cause} (hq : quiesced s gr = false) (hc : gr.cause = some cause) :
    exec (.framePoolSave g) s = .next (settleRegions s) := by
  have hsave : saveGroup s g = s := by
    rw [saveGroup, hg]
    dsimp only
    rw [hlife, hc]
    dsimp only
    rw [hq]
    rfl
  have hserve : serveAfter s g = s := by
    rw [serveAfter, hg]
    dsimp only
    rw [hlife]
    rfl
  show Host.Outcome.next (settleRegions (serveAfter (saveGroup s g) g)) = _
  rw [hsave, hserve]

end

theorem serveAfter_saved {t : State} {g : Nat} {gr : Group} {cause : Cause} {frame : Nat × Nat} (h : SavedIn gr cause frame g t) (hc : cause ≠ .deadlock) :
    serveAfter t g = t := by
  obtain ⟨x, hx, -, -, hcause, -⟩ := h
  have hne : (x.cause == some Cause.deadlock) = false := by
    rw [hcause]
    exact beq_eq_false_iff_ne.mpr fun h => hc (Option.some.inj h)
  rw [serveAfter, hx]
  dsimp only
  rw [hne, Bool.and_false]
  rfl

/-- The frame of a group stands in its context's pool, and the group is off its core. -/
def frameTaken (v : State) (gr : Group) (base o size g : Nat) : State :=
  takeOff (modCtx v gr.ctx fun c => { c with frames := c.frames ++ [(o, (size + 65535) / 65536 * 65536, g)] }) gr (base + o, size)

/-- A save that waits for a page tells it (R191). -/
def saveTold (t : State) (gr : Group) : State := match gr.waitVa with
  | some (va, kind, pool) => postCtx t gr.ctx 9 va.toNat kind (if pool then 1 else 0) none
  | none => t

theorem keepsMemory_saveTold (t : State) (gr : Group) : KeepsMemory t (saveTold t gr) := by
  unfold saveTold
  split
  · exact ⟨rfl, rfl, rfl, rfl, rfl, fun _ => rfl, fun _ => rfl⟩
  · exact .refl t

theorem saveTold_groups (t : State) (gr : Group) : (saveTold t gr).groups = t.groups := by
  unfold saveTold
  split <;> rfl

theorem saveTold_regions (t : State) (gr : Group) : (saveTold t gr).regions = t.regions := by
  unfold saveTold
  split <;> rfl

section
variable {v : State} {gr : Group} {base o size g : Nat}

theorem keepsMemory_frameTaken : KeepsMemory v (frameTaken v gr base o size g) :=
  (keepsMemory_modCtx (f := fun c : Ctx => { c with frames := c.frames ++ [(o, (size + 65535) / 65536 * 65536, g)] }) v gr.ctx fun _ => rfl).trans
    (takeOff_keepsMemory ..)

theorem frameTaken_regions : (frameTaken v gr base o size g).regions = v.regions := by
  rw [frameTaken, takeOff_regions, modCtx_regions]

theorem frameTaken_saves {cause : Cause} (hg : group? v g = some gr) (hid : gr.id = g) (hc : gr.cause = some cause) :
    SavedIn gr cause (base + o, size) g (frameTaken v gr base o size g) :=
  takeOff_saves (by rw [group?, modCtx_groups]; exact hg) hid hc _

end

section
variable {s v : State} {g base size o : Nat} {gr gr1 : Group} {cause : Cause} (hg : group? s g = some gr) (hlife : gr.life = .halted)
  (hc : gr.cause = some cause) (hq : quiesced s gr = true) (hg1 : group? (saveReady s g gr) g = some gr1)
  (hrec : recordsWait (saveReady s g gr) gr1 = false) (hpool : framePool (saveReady s g gr) gr1.ctx = .ok (base, size))
  (hfit : poolFit (((ctx? (saveReady s g gr) gr1.ctx).map (·.frames)).getD []) size
    (((frameBytes (saveReady s g gr) gr1 cause).length + 65535) / 65536 * 65536) = some o)
  (hhome : frameHome (saveReady s g gr) gr1.ctx (base + o) (frameBytes (saveReady s g gr) gr1 cause).length = true)
  (hwrite : devWrite (saveReady s g gr) gr1.ctx (genOfCtx (saveReady s g gr) gr1.ctx) (BitVec.ofNat 64 (base + o)) 1
    (frameBytes (saveReady s g gr) gr1 cause) = .ok v)
include hg hlife hc hq hg1 hrec hpool hfit hhome hwrite

/-- The save of a group whose frame its pool takes (R361 to R364). -/
theorem saveGroup_saves : saveGroup s g = saveTold (frameTaken v gr1 base o (frameBytes (saveReady s g gr) gr1 cause).length g) gr1 := by
  rw [saveGroup, hg]
  dsimp only
  rw [hlife, hc]
  dsimp only
  rw [if_pos hq, ← saveReady, hg1]
  dsimp only
  rw [hrec, if_neg Bool.false_ne_true, hpool]
  dsimp only
  rw [hfit]
  dsimp only
  rw [hhome, hwrite]
  rfl

theorem framePoolSave_acts (hne : cause ≠ .deadlock) (hid : gr1.id = g) : ∃ t x, exec (.framePoolSave g) s = .next t ∧ group? t g = some x ∧ x.life = .saved ∧
    x.frame = some (base + o, (frameBytes (saveReady s g gr) gr1 cause).length) ∧
    (∀ (w : Nat) (y : Warp), gr1.warps[w]? = some y → ∃ z, x.warps[w]? = some z ∧ SavedWarp y z) ∧ (v.regions = [] → SameMemory v t) := by
  have hcause : gr1.cause = some cause := by
    have := (keepsCause_saveReady s g gr).causes g
    rw [hg1, hg, Option.map_some, Option.map_some, hc] at this
    exact Option.some.inj this
  have hgv : group? v g = some gr1 := by rw [group?, (writesOnly_devWrite hwrite).groups]; exact hg1
  set n := (frameBytes (saveReady s g gr) gr1 cause).length with hn
  have hsaved : SavedIn gr1 cause (base + o, n) g (saveTold (frameTaken v gr1 base o n g) gr1) :=
    (frameTaken_saves hgv hid hcause).of_groups (saveTold_groups ..)
  have hx : exec (.framePoolSave g) s = .next (settleRegions (saveTold (frameTaken v gr1 base o n g) gr1)) := by
    show Host.Outcome.next (settleRegions (serveAfter (saveGroup s g) g)) = _
    rw [saveGroup_saves hg hlife hc hq hg1 hrec hpool hfit hhome hwrite, ← hn, serveAfter_saved hsaved hne]
  obtain ⟨x, hxg, hxl, hxf, -, hxw⟩ := hsaved.settleRegions
  refine ⟨_, x, hx, hxg, hxl, hxf, hxw, fun hr => ?_⟩
  rw [settleRegions_none (by rw [saveTold_regions, frameTaken_regions, hr])]
  exact (keepsMemory_frameTaken.trans (keepsMemory_saveTold ..)).sameMemory

end

/-! ## The end of a slice -/

theorem quantumSliceEnd_stays {s : State} {p : Nat} (h : sliceMayEnd s p = false) : exec (.quantumSliceEnd p) s = .next s := by
  show execQuantumSliceEnd p s = _
  rw [execQuantumSliceEnd, h]
  rfl

theorem moveFns_part (s : State) (p k : Nat) {f : Fn} (hf : s.fns[k]? = some f) :
    ∃ y, (moveFns s p).fns[k]? = some y ∧ y.part = if f.part = p then f.nextPart.getD p else f.part := by
  refine ⟨_, by rw [moveFns, List.getElem?_map, hf]; rfl, ?_⟩
  dsimp only
  split
  · next h =>
    cases hn : f.nextPart with
    | some q => rfl
    | none => exact h
  · rfl

section
variable {s : State} {p i : Nat} (hi : nextEntry s p = some i) (hne : ((sliceEntries s p)[i]?).map (fun x => x.2.2) ≠ sliceFn s p) (hr : s.regions = [])
include hi hne hr

theorem quantumSliceEnd_ends : exec (.quantumSliceEnd p) s = .next (settleRegions (moveFns (modPart
    ((groupsOfFn s p (sliceFn s p)).foldl (fun t g => haltAndSave t g .slice) s) p fun x => { x with current := i }) p)) := by
  have hmay : sliceMayEnd s p = true := by
    rw [sliceMayEnd, hi]
    dsimp only
    rw [decide_eq_true hne]
    rfl
  have harrived : applyArrived s p = s := by rw [applyArrived, hr]; rfl
  show execQuantumSliceEnd p s = _
  rw [execQuantumSliceEnd, hmay]
  dsimp only
  rw [hi, harrived]
  dsimp only
  rw [decide_eq_false hne]
  rfl

/-- A slice that ends with none of its function's groups on a core moves the functions and begins the next (R402, R403). -/
theorem quantumSliceEnd_idle (hp : p < s.parts.length) (hidle : groupsOfFn s p (sliceFn s p) = []) :
    ∃ t, exec (.quantumSliceEnd p) s = .next t ∧ SameMemory s t ∧ (partAt t p).current = i ∧
      ∀ (k : Nat) (f : Fn), s.fns[k]? = some f → ∃ y, t.fns[k]? = some y ∧ y.part = if f.part = p then f.nextPart.getD p else f.part := by
  have hx := quantumSliceEnd_ends hi hne hr
  rw [hidle, List.foldl_nil, settleRegions_none (t := moveFns (modPart s p fun x => { x with current := i }) p) hr] at hx
  refine ⟨_, hx, ⟨fun _ _ => rfl, fun _ _ _ => rfl⟩, ?_, fun k f hf => moveFns_part _ p k hf⟩
  have hpart : (modPart s p fun x => { x with current := i }).parts[p]? = (s.parts[p]?).map fun x => { x with current := i } := getElem?_modAt_self ..
  rw [partAt]
  show (((modPart s p fun x => { x with current := i }).parts[p]?).getD (Part.reset 8)).current = i
  rw [hpart, List.getElem?_eq_getElem hp]
  rfl

end

/-- Settles O56: a group that has quiesced goes to its context's pool, a saved one takes its place, and a slice ends. -/
theorem savesRestoresAndSlices : Obligations.SavesRestoresAndSlices := by
  unfold Obligations.SavesRestoresAndSlices
  intro s
  refine ⟨fun p => rfl, fun g gr hg hlife => ⟨framePoolSave_unquiet hg hlife, fun cause base size o gr1 hc hne hq hg1 hid hrec hpool hfit hhome v hwrite => ?_⟩,
    fun g c gr hg hid hk hcan hcopies hops hslots hno hpins => groupRestore_acts hg hid hk hcan hcopies hops hslots hno hpins,
    fun p => ⟨quantumSliceEnd_stays, fun i hp hi hne hr => ⟨quantumSliceEnd_ends hi hne hr, quantumSliceEnd_idle hi hne hr hp⟩⟩⟩
  exact framePoolSave_acts hg hlife hc hq hg1 hrec hpool hfit hhome hwrite hne hid

end Sys2Proof.Machine
end

section
/-! PROOFS. Two copies of one number: the issue of a chunk (R313) as the obligation on operations has it. -/

namespace Sys2Proof.Machine

/-- A copy of two chunks of one byte each, the first n of them issued. -/
def twinCopy (n : Nat) : Copy :=
  { id := 7, core := 0, group := 0, warp := 0, handle := 0, kind := 0, block := [], src := none, dst := none, idx := []
    elems := [(none, none, 8), (none, none, 8)], chunks := [([0], 1), ([1], 1)], next := n, flying := [], landing := [], cancel := 0, lost := false
    status := 0, err := none, barrier := none, part := [], skip := [], entries := [], pins := [], reserve := [], parked := false }

/-- Two copies stand under number 7, the second with its first chunk issued; the statement does not say that numbers differ. -/
def twinState : State := { State.reset with groups := [(0, placedGr)], copies := [twinCopy 0, twinCopy 1] }

theorem twinState_first : copy? twinState 7 = some (twinCopy 0) := rfl

theorem twinState_runs : ∃ gr, group? twinState (twinCopy 0).group = some gr ∧ gr.life = .resident := ⟨placedGr, rfl, rfl⟩

/-- Both copies are in one core and of one number: neither is older, and the cluster's other core has none. -/
theorem twinState_turn : (∀ x ∈ twinState.copies, x.core = (twinCopy 0).core → x.id < (twinCopy 0).id → hasChunk twinState x = false) ∧
    ∀ x ∈ twinState.copies, x.core / 2 = (twinCopy 0).core / 2 → x.core ≠ (twinCopy 0).core → hasChunk twinState x = false := by
  refine ⟨fun x hx _ hlt => ?_, fun x hx _ hne => ?_⟩ <;> obtain rfl | rfl : x = twinCopy 0 ∨ x = twinCopy 1 := by simpa [twinState] using hx
  · exact absurd hlt (by decide)
  · exact absurd hlt (by decide)
  · exact absurd rfl hne
  · exact absurd rfl hne

/-- The step sends off chunk 0, the first copy's next one, under the number of both. -/
theorem twinState_issues : ∃ t, exec (.chunkIssue 7) twinState = .next t ∧ t.copies.map (·.flying) = [[0], [0]] := ⟨_, rfl, by decide⟩

/-- Refutes O53: where two copies stand under one number (`twinState`), each would send off its own next chunk by the statement, but the
step sends off the first one's. -/
theorem not_operationsProceed : ¬ Obligations.OperationsProceed := by
  unfold Obligations.OperationsProceed
  intro h
  obtain ⟨hissue, -⟩ := h twinState 7 0
  obtain ⟨hold, hother⟩ := twinState_turn
  obtain ⟨n, -, -, -, -, hx⟩ := hissue (twinCopy 0) twinState_first rfl twinState_runs (by decide) (by decide) hold (.inr hother)
  obtain ⟨t, ht, hflying⟩ := twinState_issues
  obtain rfl := Host.Outcome.next.inj (ht.symm.trans hx)
  have htwins : [[0], [1]] = [[0], [0]] := hflying
  exact absurd htwins (by decide)

end Sys2Proof.Machine
end

section
/-! PROOFS. The effects and statuses of the host's commands (R389, R391 to R403). -/

namespace Sys2Proof.Machine

/-! ## A command starts -/

/-- A command in trouble completes with its status (R392, R393). -/
theorem command_troubled {s : State} {c : Cmd} {used : List (Nat × Nat)} {st : Nat} (h : cmdTrouble s c used = some st) (body : State → State) :
    command s c used body = .next (complete (takeCmd s c) c st 0) := by
  rw [command, h]

/-- A command of its queue, function and format runs its body. -/
theorem command_runs {s : State} {c : Cmd} {used : List (Nat × Nat)} (h : cmdTrouble s c used = none) (body : State → State) :
    command s c used body = .next (body (takeCmd s c)) := by
  rw [command, h]

theorem withoutCtx_zero {c : Cmd} (h : c.ctx = 0) (s k : State) : withoutCtx s c k = k := if_pos h

section
variable {s : State} {c : Cmd}

/-- The command's context is one of its function's. -/
theorem ownCtx_some {x : Ctx} (hx : ctx? s c.ctx = some x) (hf : x.fn = c.fn) : ownCtx s c = some x := by
  rw [ownCtx, hx, Option.filter_some, hf, beq_self_eq_true, if_pos rfl]

theorem ownCtx_none (h : ¬ ∃ x, ctx? s c.ctx = some x ∧ x.fn = c.fn) : ownCtx s c = none := by
  rw [ownCtx]
  cases hx : ctx? s c.ctx with
  | none => rfl
  | some x =>
    have hne : (x.fn == c.fn) = false := beq_eq_false_iff_ne.mpr fun hf => h ⟨x, hx, hf⟩
    rw [Option.filter_some, hne, if_neg Bool.false_ne_true]

theorem withCtx_own {x : Ctx} (hx : ctx? s c.ctx = some x) (hf : x.fn = c.fn) (k : Ctx → State) : withCtx s c k = k x := by
  rw [withCtx, ownCtx_some hx hf]

theorem withCtx_foreign (h : ¬ ∃ x, ctx? s c.ctx = some x ∧ x.fn = c.fn) (k : Ctx → State) : withCtx s c k = complete s c 1 0 := by
  rw [withCtx, ownCtx_none h]

end

theorem keepsMemory_modFn (s : State) (i : Nat) (f : Fn → Fn) : KeepsMemory s (modFn s i f) := ⟨rfl, rfl, rfl, rfl, rfl, fun _ => rfl, fun _ => rfl⟩

theorem keepsMemory_takeCmd (s : State) (c : Cmd) : KeepsMemory s (takeCmd s c) := keepsMemory_modFn ..

section
variable {s : State} {c : Cmd}

/-! ## Contexts and queues -/

theorem find?_numbered {n m : Nat} {p : Nat → Bool} (h1 : 1 ≤ n) (hm : n ≤ m) (hp : p n = true) (hbelow : ∀ k, 1 ≤ k → k < n → p k = false) :
    ((List.range m).map (· + 1)).find? p = some n := by
  obtain ⟨k, rfl⟩ : ∃ k, n = k + 1 := ⟨n - 1, by omega⟩
  have hfirst : (List.range m).find? (p ∘ fun x => x + 1) = some k := List.find?_range_eq_some.mpr ⟨hp, List.mem_range.mpr (by omega), fun j hj => by
    simpa using hbelow (j + 1) (by omega) (by omega)⟩
  rw [List.find?_map, hfirst]
  rfl

theorem freeCtx_least {n : Nat} (h1 : 1 ≤ n) (hm : n ≤ 4095) (hfree : ctx? s n = none) (hbelow : ∀ m, 1 ≤ m → m < n → (ctx? s m).isSome = true) :
    freeCtx s = some n := by
  refine find?_numbered h1 hm (by rw [hfree]; rfl) fun k hk hkn => ?_
  obtain ⟨x, hx⟩ := Option.isSome_iff_exists.mp (hbelow k hk hkn)
  rw [hx]
  rfl

theorem freeCtx_full (h : ∀ n, 1 ≤ n → n ≤ 4095 → (ctx? s n).isSome = true) : freeCtx s = none := by
  refine List.find?_eq_none.mpr fun k hk => ?_
  obtain ⟨j, hj, rfl⟩ := List.mem_map.mp hk
  have hlt := List.mem_range.mp hj
  obtain ⟨x, hx⟩ := Option.isSome_iff_exists.mp (h (j + 1) (by omega) (by omega))
  simp [hx]

section
variable (hc : c.ctx = 0) (ht : cmdTrouble s c [(8, 8), (16, 8)] = none)
include hc ht

theorem createContext_malformed (h : cmdArg c 8 8 % 4096 ≠ 0 ∨ cmdArg c 16 8 % 64 ≠ 0) :
    exec (.createContext c) s = .next (complete (takeCmd s c) c 1 0) := by
  show execCreateContext c s = _
  rw [execCreateContext, command_runs ht, withoutCtx_zero hc, if_pos h]

variable (h1 : cmdArg c 8 8 % 4096 = 0) (h2 : cmdArg c 16 8 % 64 = 0) (hup : (takeCmd s c).mgmt.linkUp = true)
include h1 h2 hup

theorem createContext_full (hfull : freeCtx (takeCmd s c) = none) : exec (.createContext c) s = .next (complete (takeCmd s c) c 3 0) := by
  have hok : ¬ (cmdArg c 8 8 % 4096 ≠ 0 ∨ cmdArg c 16 8 % 64 ≠ 0) := by simp [h1, h2]
  show execCreateContext c s = _
  rw [execCreateContext, command_runs ht, withoutCtx_zero hc, if_neg hok, hup, Bool.not_true, if_neg Bool.false_ne_true, hfull]

/-- A context of the lowest free number starts from its image (R392, R402). -/
theorem createContext_creates {n : Nat} (hfree : freeCtx (takeCmd s c) = some n) : exec (.createContext c) s = .next (complete
    { takeCmd s c with ctxs := sput (takeCmd s c).ctxs n (imageCtx n c.fn (cmdArg c 8 8) (homeBytes (takeCmd s c) 1 (cmdArg c 16 8) 64)) } c 0 n) := by
  have hok : ¬ (cmdArg c 8 8 % 4096 ≠ 0 ∨ cmdArg c 16 8 % 64 ≠ 0) := by simp [h1, h2]
  show execCreateContext c s = _
  rw [execCreateContext, command_runs ht, withoutCtx_zero hc, if_neg hok, hup, Bool.not_true, if_neg Bool.false_ne_true, hfree]

end

/-- The queue pair of a CREATE_QUEUE (R389). -/
def newQueue (c : Cmd) (n : Nat) : QPair :=
  { num := n, sub := cmdArg c 8 8, comp := cmdArg c 16 8, tail := cmdArg c 24 8, subLog := cmdArg c 32 1 % 16, compLog := cmdArg c 32 1 / 16, read := 0
    posted := 0, cmds := [], busy := [], held := [] }

theorem createQueue_right (hc : c.ctx = 0) (ht : cmdTrouble s c [(8, 8), (16, 8), (24, 8), (32, 1)] = none) (h1 : cmdArg c 8 8 % 64 = 0)
    (h2 : cmdArg c 16 8 % 16 = 0) (h3 : cmdArg c 24 8 % 64 = 0) (h4 : 4 ≤ cmdArg c 32 1 % 16) (h5 : 4 ≤ cmdArg c 32 1 / 16) {n : Nat}
    (hn : freeQueue (fn (takeCmd s c) c.fn) = some n) : ∃ x : QPair,
      exec (.createQueue c) s = .next (complete (modFn (takeCmd s c) c.fn fun f => { f with queues := f.queues ++ [x] }) c 0 n) ∧ x.num = n ∧
        x.sub = cmdArg c 8 8 ∧ x.comp = cmdArg c 16 8 ∧ x.tail = cmdArg c 24 8 ∧ x.subLog = cmdArg c 32 1 % 16 ∧ x.compLog = cmdArg c 32 1 / 16 ∧
        x.read = 0 ∧ x.posted = 0 := by
  have hok : ¬ (cmdArg c 8 8 % 64 ≠ 0 ∨ cmdArg c 16 8 % 16 ≠ 0 ∨ cmdArg c 24 8 % 64 ≠ 0 ∨ cmdArg c 32 1 % 16 < 4 ∨ cmdArg c 32 1 / 16 < 4) := by omega
  refine ⟨newQueue c n, ?_, rfl, rfl, rfl, rfl, rfl, rfl, rfl, rfl⟩
  show execCreateQueue c s = _
  rw [execCreateQueue, command_runs ht, withoutCtx_zero hc]
  dsimp only
  rw [if_neg hok, hn]
  rfl

/-! ## Graphs and slots -/

/-- Slot commands that are read now leave everything but the agenda and the list they stood in. -/
theorem releaseSlots_only (s : State) (f id : Nat) : releaseSlots s f id =
    { (modFn s f fun x => { x with waitSlots := x.waitSlots.filter fun y => cmdArg y 8 4 != id }) with agenda := (releaseSlots s f id).agenda } := rfl

theorem keepsMemory_releaseSlots (s : State) (f id : Nat) : KeepsMemory s (releaseSlots s f id) := ⟨rfl, rfl, rfl, rfl, rfl, fun _ => rfl, fun _ => rfl⟩

/-- The graph of a malformed submission: without nodes, and ended (R157, R160). -/
def refusedGraph (s : State) (c : Cmd) (node : Nat) : Graph :=
  { newGraph (fresh s).1 c c.ctx false ([], [], []) with ended := true, failed := some (node, 1) }

/-- A function in whose queue a command's entry waits for its ring (R393). -/
def heldEntry (c : Cmd) (status result : Nat) (x : Fn) : Fn := { x with queues := x.queues.map fun p =>
  if p.num = c.queue then { p with held := p.held ++ [completionEntry c.id status result], busy := p.busy.erase c.slot } else p }

theorem fn_complete (s : State) (c : Cmd) (status result : Nat) (h : c.fn < s.fns.length) :
    fn (complete s c status result) c.fn = heldEntry c status result (fn s c.fn) := fn_modFn_self s c.fn _ h

theorem releaseSlots_queues (s : State) (f id : Nat) (h : f < s.fns.length) : (fn (releaseSlots s f id) f).queues = (fn s f).queues := by
  have hfn := fn_modFn_self s f (fun x => { x with waitSlots := x.waitSlots.filter fun y => cmdArg y 8 4 != id }) h
  exact (congrArg Fn.queues hfn : _)

/-- The state with the graph of a malformed submission. -/
def graphRefused (s : State) (c : Cmd) (node : Nat) : State := { (fresh s).2 with graphs := (fresh s).2.graphs ++ [refusedGraph s c node] }

/-- A malformed submission leaves a graph that has ended, and completes with status 4 (R157, R160). -/
theorem refuseGraph_spec (s : State) (c : Cmd) (node : Nat) : KeepsMemory s (refuseGraph s c node) ∧
    (refuseGraph s c node).graphs = s.graphs ++ [refusedGraph s c node] ∧
    ∀ p, c.fn < s.fns.length → (fn s c.fn).queues.find? (·.num == c.queue) = some p → ∃ y, (fn (refuseGraph s c node) c.fn).queues.find? (·.num == c.queue) = some y ∧
      y.held = p.held ++ [completionEntry c.id 4 (node + 65536)] := by
  refine ⟨⟨rfl, rfl, rfl, rfl, rfl, fun _ => rfl, fun _ => rfl⟩, rfl, fun p hlt hp => ?_⟩
  have hlt' : c.fn < (complete (graphRefused s c node) c 4 (node + 65536)).fns.length := by
    rw [complete, modQueue, modFn, length_modAt]
    exact hlt
  have hqueues : (fn (refuseGraph s c node) c.fn).queues = (heldEntry c 4 (node + 65536) (fn s c.fn)).queues := by
    refine (releaseSlots_queues _ c.fn c.id hlt').trans ?_
    exact congrArg Fn.queues (fn_complete (graphRefused s c node) c 4 (node + 65536) hlt)
  refine ⟨{ p with held := p.held ++ [completionEntry c.id 4 (node + 65536)], busy := p.busy.erase c.slot }, ?_, rfl⟩
  rw [hqueues]
  exact find?_modQueues hp (fun p => { p with held := p.held ++ [completionEntry c.id 4 (node + 65536)], busy := p.busy.erase c.slot }) fun _ => rfl

/-- The graph of a right submission stands among the others, what the host has written before its first nodes (R157 to R159). -/
def graphTaken (s : State) (c : Cmd) (x : Ctx) (g : List Node × List Queue × List (Nat × List Stage)) : State :=
  sendAlong (.node (fresh s).1 65536) { clock := [(5, lastStamp (fresh s).2)], seen := [] }
    { (fresh s).2 with graphs := (fresh s).2.graphs ++ [newGraph (fresh s).1 c c.ctx x.fixed g] }

theorem keepsMemory_graphTaken (s : State) (x : Ctx) (g : List Node × List Queue × List (Nat × List Stage)) : KeepsMemory s (graphTaken s c x g) :=
  ⟨rfl, rfl, rfl, rfl, rfl, fun _ => rfl, fun _ => rfl⟩

section
variable {x : Ctx} (ht : cmdTrouble s c [(8, 8)] = none) (hx : ctx? (takeCmd s c) c.ctx = some x) (hf : x.fn = c.fn)
include ht hx hf

theorem submitGraph_malformed {n : Nat} (h : checkGraph (takeCmd s c) c.ctx ((fn (takeCmd s c) c.fn).chosen[1]?.getD 0) (BitVec.ofNat 64 (cmdArg c 8 8)) =
    .ok (.error n)) : exec (.submitGraph c) s = .next (refuseGraph (takeCmd s c) c n) := by
  show execSubmitGraph c s = _
  rw [execSubmitGraph, command_runs ht, withCtx_own hx hf, h]

theorem submitGraph_right {g : List Node × List Queue × List (Nat × List Stage)}
    (h : checkGraph (takeCmd s c) c.ctx ((fn (takeCmd s c) c.fn).chosen[1]?.getD 0) (BitVec.ofNat 64 (cmdArg c 8 8)) = .ok (.ok g)) :
    exec (.submitGraph c) s = .next (releaseSlots (graphTaken (takeCmd s c) c x g) c.fn c.id) := by
  show execSubmitGraph c s = _
  rw [execSubmitGraph, command_runs ht, withCtx_own hx hf, h]
  rfl

end

theorem submitGraph_submits {x : Ctx} (ht : cmdTrouble s c [(8, 8)] = none) (hx : ctx? (takeCmd s c) c.ctx = some x) (hf : x.fn = c.fn) {r : Checked}
    (hr : checkGraph (takeCmd s c) c.ctx ((fn (takeCmd s c) c.fn).chosen[1]?.getD 0) (BitVec.ofNat 64 (cmdArg c 8 8)) = .ok r) :
    (∀ n, r = .error n → ∃ u, exec (.submitGraph c) s = .next u ∧ SameMemory s u ∧ ∃ g, u.graphs = s.graphs ++ [g] ∧ g.ended = true ∧ g.nodes = [] ∧
      ∀ p f, fn (takeCmd s c) c.fn = f → c.fn < s.fns.length → f.queues.find? (·.num == c.queue) = some p → ∃ y,
        (fn u c.fn).queues.find? (·.num == c.queue) = some y ∧ y.held = p.held ++ [completionEntry c.id 4 (n + 65536)]) ∧
    ∀ g, r = .ok g → ∃ u x, exec (.submitGraph c) s = .next u ∧ SameMemory s u ∧ u.graphs = s.graphs ++ [x] ∧ x.cmd = c ∧ x.ctx = c.ctx ∧
      x.queues = g.2.1 ∧ x.nodes.length = g.1.length ∧ x.ended = false ∧ x.failed = none := by
  constructor
  · rintro n rfl
    obtain ⟨hmem, hgraphs, hheld⟩ := refuseGraph_spec (takeCmd s c) c n
    refine ⟨_, submitGraph_malformed ht hx hf hr, ((keepsMemory_takeCmd s c).trans hmem).sameMemory, _, hgraphs, rfl, rfl, fun p f hfn hlt hp => ?_⟩
    subst hfn
    refine hheld p ?_ hp
    rw [takeCmd, modQueue, modFn, length_modAt]
    exact hlt
  · rintro g rfl
    exact ⟨_, newGraph (fresh (takeCmd s c)).1 c c.ctx x.fixed g, submitGraph_right ht hx hf hr,
      (((keepsMemory_takeCmd s c).trans (keepsMemory_graphTaken ..)).trans (keepsMemory_releaseSlots ..)).sameMemory, rfl, rfl, rfl, rfl,
      List.length_mapIdx, rfl, rfl⟩

theorem cancelGraph_right (hc : c.ctx = 0) (ht : cmdTrouble s c [(8, 4)] = none) : exec (.cancelGraph c) s = .next (match liveGraph (takeCmd s c) c.fn (cmdArg c 8 4) with
    | some g => complete (failGraph (modGraph (takeCmd s c) g.id fun x => { x with cancelled := true }) g 6) c 0 0
    | none => complete (takeCmd s c) c 0 0) := by
  show execCancelGraph c s = _
  rw [execCancelGraph, command_runs ht, withoutCtx_zero hc] <;> rfl

section
variable {add : Bool} {i : Instr} {g : Graph} {n : Node} {k : Nat} (hc : c.ctx = 0) (ht : cmdTrouble s c [(8, 4), (12, 2), (14, 2)] = none)
  (hg : liveGraph (takeCmd s c) c.fn (cmdArg c 8 4) = some g) (hn : g.nodes[cmdArg c 12 2]? = some n)
include hc ht hg hn

/-- A slot command on a node that is no loop with a batching table is malformed (R392). -/
theorem slotCommand_loopless (h : n.kind ≠ 3 ∨ n.k56 = 0) : slotCommand add i c s = .next (complete (takeCmd s c) c 1 0) := by
  rw [slotCommand, command_runs ht, withoutCtx_zero hc, hg]
  dsimp only
  rw [hn]
  dsimp only
  rw [if_pos h]

variable (h3 : n.kind = 3) (h56 : n.k56 ≠ 0) (hk : slotCount (takeCmd s c) g (cmdArg c 12 2) n.k56 = .ok k)
include h3 h56 hk

theorem slotCommand_past (hle : k ≤ cmdArg c 14 2) : slotCommand add i c s = .next (complete (takeCmd s c) c 1 0) := by
  rw [slotCommand, command_runs ht, withoutCtx_zero hc, hg]
  dsimp only
  rw [hn]
  dsimp only
  rw [if_neg (not_or.mpr ⟨not_not.mpr h3, h56⟩), hk]
  dsimp only
  rw [if_pos hle]

theorem slotCommand_waits (hlt : cmdArg c 14 2 < k) : slotCommand add i c s = .next (modGraph (takeCmd s c) g.id fun x =>
    { x with slotCmds := x.slotCmds ++ [{ cmd := c, node := cmdArg c 12 2, slot := cmdArg c 14 2, add := add, applied := false }] }) := by
  rw [slotCommand, command_runs ht, withoutCtx_zero hc, hg]
  dsimp only
  rw [hn]
  dsimp only
  rw [if_neg (not_or.mpr ⟨not_not.mpr h3, h56⟩), hk]
  dsimp only
  rw [if_neg (not_le.mpr hlt)]

end

/-! ## Ranges and peers -/

section
variable {r : VRange} (hc : c.ctx = 0) (ht : cmdTrouble s c [(8, 1), (12, 4), (16, 32)] = none) (hnum : r.num = cmdArg c 8 1) (hfn : r.fn = c.fn)
  (hsize : r.size = cmdArg c 12 4) (hbases : r.bases = (List.range 4).map (fun k => cmdArg c (16 + 8 * k) 8))
  (hslots : r.slots = [(.staging, 0), (.free, 0), (.free, 0), (.free, 0)]) (hlast : r.last = none)
include hc ht hnum hfn hsize hbases hslots hlast

theorem createRange_creates (h63 : r.num ≤ 63) (hnew : range? (takeCmd s c) r.num = none) (hpos : r.size ≠ 0) (hwhole : r.size % 65536 = 0)
    (hplaces : ∀ b ∈ r.bases, b % 65536 = 0 ∧ b + r.size ≤ 768 * 2 ^ 30) :
    exec (.createRange c) s = .next (complete { takeCmd s c with ranges := (takeCmd s c).ranges ++ [r] } c 0 0) := by
  obtain ⟨num, f, size, bases, slots, last⟩ := r
  dsimp only at *
  subst hnum hfn hsize hbases hslots hlast
  have hbad : (((List.range 4).map fun k => cmdArg c (16 + 8 * k) 8).any fun b => decide (b % 65536 ≠ 0) || decide (b + cmdArg c 12 4 > physTop)) = false :=
    List.any_eq_false.mpr fun b hb => by
      obtain ⟨h1, h2⟩ := hplaces b hb
      have htop : ¬ b + cmdArg c 12 4 > physTop := not_lt.mpr h2
      simp [h1, htop]
  show execCreateRange c s = _
  rw [execCreateRange, command_runs ht, withoutCtx_zero hc]
  dsimp only
  rw [if_neg (by rw [hnew, hbad]; simp; omega)]
  rfl

omit hfn hbases hslots hlast in
theorem createRange_malformed (h : 63 < r.num ∨ (range? (takeCmd s c) r.num).isSome = true ∨ r.size = 0 ∨ r.size % 65536 ≠ 0) :
    exec (.createRange c) s = .next (complete (takeCmd s c) c 1 0) := by
  rw [hnum, hsize] at h
  show execCreateRange c s = _
  rw [execCreateRange, command_runs ht, withoutCtx_zero hc]
  dsimp only
  rw [if_pos (by tauto)]

end

section
variable {x : Ctx} (hx : ctx? (takeCmd s c) c.ctx = some x) (hf : x.fn = c.fn)
include hx hf

section
variable {r : VRange} (ht : cmdTrouble s c [(8, 1), (16, 8), (24, 8)] = none) (hr : range? (takeCmd s c) (cmdArg c 8 1) = some r)
include ht hr

theorem mapRange_foreign (h : r.fn ≠ c.fn) : exec (.mapRange c) s = .next (complete (takeCmd s c) c 6 0) := by
  show execMapRange c s = _
  rw [execMapRange, command_runs ht, withCtx_own hx hf]
  dsimp only
  rw [hr]
  dsimp only
  rw [if_pos h]

theorem mapRange_maps (h : r.fn = c.fn) (h1 : cmdArg c 16 8 % 65536 = 0) (h2 : cmdArg c 24 8 % 65536 = 0) :
    exec (.mapRange c) s = .next (complete (modCtx (takeCmd s c) c.ctx fun x =>
      { x with maps := (x.maps.filter fun m => m.1 != cmdArg c 8 1) ++ [(cmdArg c 8 1, cmdArg c 16 8, cmdArg c 24 8)] }) c 0 0) := by
  show execMapRange c s = _
  rw [execMapRange, command_runs ht, withCtx_own hx hf]
  dsimp only
  rw [hr]
  dsimp only
  rw [if_neg (not_not.mpr h), if_neg (by simp [h1, h2])]

end

section
variable {q : Port} (ht : cmdTrouble s c [(8, 1), (12, 2)] = none) (hq : (takeCmd s c).ports[cmdArg c 8 1]? = some q) (h1 : 1 ≤ cmdArg c 12 2)
  (h2 : cmdArg c 12 2 ≤ 4095)
include ht hq h1 h2

/-- BIND_PEER binds the context at a port of its partition that has room (R396, R399). -/
theorem bindPeer_right : exec (.bindPeer c) s = .next (
    if !((partAt (takeCmd s c) (partOfCtx (takeCmd s c) c.ctx)).ports.getLsbD (cmdArg c 8 1)) then complete (takeCmd s c) c 6 0
    else if (q.bindings.filter fun b => b.1 != c.ctx).length ≥ 16 then complete (takeCmd s c) c 3 0
    else complete { takeCmd s c with ports := modAt (takeCmd s c).ports (cmdArg c 8 1) fun x =>
      { x with bindings := (q.bindings.filter fun b => b.1 != c.ctx) ++ [(c.ctx, cmdArg c 12 2, false)] } } c 0 0) := by
  show execBindPeer c s = _
  rw [execBindPeer, command_runs ht, withCtx_own hx hf]
  dsimp only
  rw [hq]
  dsimp only
  rw [if_neg (by omega)]

end

end

/-! ## Partitions, handlers and pages -/

theorem filterMap_some (es : List (Nat × Nat × Nat)) : (es.map some).filterMap id = es := by
  rw [List.filterMap_map]
  exact List.filterMap_some ..

theorem setQuantum_sets (hc : c.ctx = 0) (ht : cmdTrouble s c [(8, 1), (9, 1), (16, 8)] = none) (h1 : cmdArg c 8 1 ≤ 7) (h2 : cmdArg c 9 1 ≤ 32)
    (hup : (takeCmd s c).mgmt.linkUp = true) {es : List (Nat × Nat × Nat)}
    (hes : (List.range (cmdArg c 9 1)).map (fun i => quantumEntry (field (homeBytes (takeCmd s c) 1 (cmdArg c 16 8 + 8 * i) 8) 0 8)) = es.map some) :
    exec (.setQuantum c) s = .next (complete (newTable (takeCmd s c) (cmdArg c 8 1) es) c 0 0) := by
  have hwhole : ((es.map some).any fun x : Option (Nat × Nat × Nat) => x.isNone) = false := List.any_eq_false.mpr fun x hx => by
    obtain ⟨y, -, rfl⟩ := List.mem_map.mp hx
    exact Bool.false_ne_true
  show execSetQuantum c s = _
  rw [execSetQuantum, command_runs ht, withoutCtx_zero hc]
  dsimp only
  rw [hes, if_neg (by omega), hup, Bool.not_true, if_neg Bool.false_ne_true, hwhole, if_neg Bool.false_ne_true, filterMap_some]

theorem repartition_starts (hc : c.ctx = 0) (ht : cmdTrouble s c [(16, 8)] = none) (hlen : c.args.length ≤ 56) (hup : (takeCmd s c).mgmt.linkUp = true)
    (hgo : (fn (takeCmd s c) c.fn).going = []) :
    exec (.repartition c) s = .next (runRepartition (modFn (takeCmd s c) c.fn fun f =>
      { f with going := f.going ++ [{ c with args := c.args ++ homeBytes (takeCmd s c) 1 (cmdArg c 16 8) 64 }] })
        { c with args := c.args ++ homeBytes (takeCmd s c) 1 (cmdArg c 16 8) 64 }) := by
  show execRepartition c s = _
  rw [execRepartition, if_neg (not_lt.mpr hlen), command_runs ht, withoutCtx_zero hc, hup, hgo]
  rfl

/-- A function and a partition that ASSIGN_FUNCTION may name (R402). -/
def assignable (t : State) (c : Cmd) : Prop := 1 ≤ cmdArg c 8 1 ∧ cmdArg c 8 1 ≤ 32 ∧ cmdArg c 9 1 ≤ 7 ∧ (partAt t (cmdArg c 9 1)).halves ≠ 0

theorem assignable_iff (t : State) (c : Cmd) : assignable t c ↔
    ¬ (cmdArg c 8 1 = 0 ∨ cmdArg c 8 1 > 32 ∨ cmdArg c 9 1 > 7 ∨ (partAt t (cmdArg c 9 1)).halves = 0) := by
  simp only [assignable, not_or, not_lt, gt_iff_lt, Nat.one_le_iff_ne_zero, ne_eq]

section
variable (hc : c.ctx = 0) (ht : cmdTrouble s c [(8, 1), (9, 1)] = none)
include hc ht

theorem assignFunction_malformed (h : ¬ assignable (takeCmd s c) c) : exec (.assignFunction c) s = .next (complete (takeCmd s c) c 1 0) := by
  rw [assignable_iff, not_not] at h
  show execAssignFunction c s = _
  rw [execAssignFunction, command_runs ht, withoutCtx_zero hc]
  dsimp only
  rw [if_pos h]

theorem assignFunction_assigns (h : assignable (takeCmd s c) c) : exec (.assignFunction c) s = .next (complete (modFn (takeCmd s c) (cmdArg c 8 1) fun x =>
    { x with nextPart := if x.part = cmdArg c 9 1 then none else some (cmdArg c 9 1) }) c 0 0) := by
  rw [assignable_iff] at h
  show execAssignFunction c s = _
  rw [execAssignFunction, command_runs ht, withoutCtx_zero hc]
  dsimp only
  rw [if_neg h]

end

/-- The warps of a context that a resumption names go on (R376). -/
theorem resumeNamed_own {t : State} {x : Ctx} (hx : ctx? t c.ctx = some x) (hf : x.fn = c.fn) (hid : x.id = c.ctx) : resumeNamed t c = { t with
    groups := t.groups.map fun g => if g.2.ctx = c.ctx then (g.1, { g.2 with warps := g.2.warps.map (resumeWarp (cmdArg c 8 8)) }) else g } := by
  rw [resumeNamed, ownCtx_some hx hf]
  dsimp only
  rw [hid]

theorem resume_resumes {x : Ctx} (ht : cmdTrouble s c [(8, 8)] = none) (hq : c.queue ≠ 64) (hx : ctx? (takeCmd s c) c.ctx = some x) (hf : x.fn = c.fn)
    (hid : x.id = c.ctx) : exec (.resume c) s = .next (complete { takeCmd s c with groups := (takeCmd s c).groups.map fun g =>
      if g.2.ctx = c.ctx then (g.1, { g.2 with warps := g.2.warps.map (resumeWarp (cmdArg c 8 8)) }) else g } c 0 0) := by
  show execResume c s = _
  rw [execResume, if_neg hq, command_runs ht, resumeNamed_own hx hf hid]

theorem resume_managed {x : Ctx} (hq : c.queue = 64) (hx : ctx? s c.ctx = some x) (hf : x.fn = c.fn) (hid : x.id = c.ctx) :
    exec (.resume c) s = .next { s with groups := s.groups.map fun g =>
      if g.2.ctx = c.ctx then (g.1, { g.2 with warps := g.2.warps.map (resumeWarp (cmdArg c 8 8)) }) else g } := by
  show execResume c s = _
  rw [execResume, if_pos hq, resumeNamed_own hx hf hid]

/-- A page has come for what waited for it (R395). -/
def pageCame (t : State) (ctx va : Nat) : State := { t with
  groups := t.groups.map fun g => (g.1, if pageMatch ctx va false g.2 then { g.2 with waitVa := none } else g.2)
  waits := t.waits.filter fun w => !stepMatch ctx va false w
  agenda := t.agenda ++ ((t.waits.filter (stepMatch ctx va false)).map (·.1)).filter isCommand }

theorem pageCame_group {t : State} {ctx va k : Nat} {g : Group} (hg : group? t k = some g) (hctx : g.ctx = ctx) (hlife : g.life = .saved)
    (hcause : g.cause = some .page) {w : DWord} {kind : Nat} (hwait : g.waitVa = some (w, kind, false)) (hpage : w.toNat / 65536 = va / 65536) :
    group? (pageCame t ctx va) k = some { g with waitVa := none } := by
  have hmatch : pageMatch ctx va false g = true := by
    rw [pageMatch, hctx, hlife, hcause, hwait]
    simp [hpage]
  refine (sget?_map_values t.groups (fun g => if pageMatch ctx va false g then { g with waitVa := none } else g) k).trans ?_
  rw [← group?, hg, Option.map_some, hmatch, if_pos rfl]

theorem pageCame_waits {t : State} {ctx va : Nat} {x : Instr × Nat × DWord} (hx : x ∈ (pageCame t ctx va).waits) :
    ¬ (x.2.1 = ctx ∧ x.2.2.toNat / 65536 = va / 65536) := by
  rintro ⟨h1, h2⟩
  have hno := (List.mem_filter.mp hx).2
  simp [stepMatch, h1, h2] at hno

theorem pageReady_comes {x : Ctx} (ht : cmdTrouble s c [(8, 8), (16, 8)] = none) (hx : ctx? (takeCmd s c) c.ctx = some x) (hf : x.fn = c.fn)
    (hid : x.id = c.ctx) (h0 : cmdArg c 16 8 = 0) :
    exec (.pageReady c) s = .next (complete (pageCame (takeCmd s c) c.ctx (cmdArg c 8 8)) c 0 0) := by
  have hgroups : ∀ gs : List (Nat × Group), (gs.map fun g => if pageMatch c.ctx (cmdArg c 8 8) false g.2 then (g.1, { g.2 with waitVa := none }) else g) =
      gs.map fun g => (g.1, if pageMatch c.ctx (cmdArg c 8 8) false g.2 then { g.2 with waitVa := none } else g.2) := fun gs =>
    List.map_congr_left fun g _ => by split <;> rfl
  show execPageReady c s = _
  rw [execPageReady, command_runs ht, h0]
  dsimp only
  rw [if_neg (by decide), ownCtx_some hx hf]
  dsimp only
  rw [hid, pageCame, ← hgroups]
  rfl

end

/-! ## Every command -/

/-- The commands that the status rule of R392 and R393 names, each with the operand bytes it uses. -/
theorem command_ends {s : State} {c : Cmd} {i : Cmd → Instr} {used : List (Nat × Nat)} {st : Nat}
    (hi : (i, used) ∈ [(Instr.createContext, [(8, 8), (16, 8)]), (Instr.destroyContext, []), (Instr.createQueue, [(8, 8), (16, 8), (24, 8), (32, 1)]),
      (Instr.submitGraph, [(8, 8)]), (Instr.cancelGraph, [(8, 4)]), (Instr.addSlot, [(8, 4), (12, 2), (14, 2)]), (Instr.removeSlot, [(8, 4), (12, 2), (14, 2)]),
      (Instr.createRange, [(8, 1), (12, 4), (16, 32)]), (Instr.mapRange, [(8, 1), (16, 8), (24, 8)]), (Instr.bindPeer, [(8, 1), (12, 2)]),
      (Instr.setQuantum, [(8, 1), (9, 1), (16, 8)]), (Instr.assignFunction, [(8, 1), (9, 1)]), (Instr.resume, [(8, 8)]), (Instr.pageReady, [(8, 8), (16, 8)])])
    (hq : c.queue ≠ 64) (ht : cmdTrouble s c used = some st) : exec (i c) s = .next (complete (takeCmd s c) c st 0) := by
  simp only [List.mem_cons, Prod.mk.injEq, List.not_mem_nil, or_false] at hi
  obtain ⟨rfl, rfl⟩ | ⟨rfl, rfl⟩ | ⟨rfl, rfl⟩ | ⟨rfl, rfl⟩ | ⟨rfl, rfl⟩ | ⟨rfl, rfl⟩ | ⟨rfl, rfl⟩ | ⟨rfl, rfl⟩ | ⟨rfl, rfl⟩ | ⟨rfl, rfl⟩ | ⟨rfl, rfl⟩ |
    ⟨rfl, rfl⟩ | ⟨rfl, rfl⟩ | ⟨rfl, rfl⟩ := hi
  · exact (command_troubled ht _ : execCreateContext c s = _)
  · exact (command_troubled ht _ : execDestroyContext c s = _)
  · exact (command_troubled ht _ : execCreateQueue c s = _)
  · exact (command_troubled ht _ : execSubmitGraph c s = _)
  · exact (command_troubled ht _ : execCancelGraph c s = _)
  · exact (command_troubled ht _ : slotCommand true (.addSlot c) c s = _)
  · exact (command_troubled ht _ : slotCommand false (.removeSlot c) c s = _)
  · exact (command_troubled ht _ : execCreateRange c s = _)
  · exact (command_troubled ht _ : execMapRange c s = _)
  · exact (command_troubled ht _ : execBindPeer c s = _)
  · exact (command_troubled ht _ : execSetQuantum c s = _)
  · exact (command_troubled ht _ : execAssignFunction c s = _)
  · show execResume c s = _
    rw [execResume, if_neg hq, command_troubled ht]
  · exact (command_troubled ht _ : execPageReady c s = _)

/-- Settles O58: each command of the host has its effect and its status. -/
theorem commandsAct : Obligations.CommandsAct := by
  unfold Obligations.CommandsAct
  intro s c
  refine ⟨fun i used st hi hq ht => command_ends hi hq ht, fun ⟨ht, _⟩ hc => ⟨createContext_malformed hc ht, fun h1 h2 hup hall =>
      createContext_full hc ht h1 h2 hup (freeCtx_full hall), fun n h1 h2 hup hn hm hfree hbelow => createContext_creates hc ht h1 h2 hup
        (freeCtx_least hn hm hfree hbelow)⟩, ?destroy, fun ⟨ht, _⟩ hc h1 h2 h3 h4 h5 n hn => createQueue_right hc ht h1 h2 h3 h4 h5 hn, ?submit, ?cancel, ?slots,
    fun ⟨ht, _⟩ hc r hnum hfn hsize hbases hslots hlast => ⟨createRange_creates hc ht hnum hfn hsize hbases hslots hlast, createRange_malformed hc ht hnum hsize⟩,
    fun ⟨ht, _⟩ ⟨x, hx, hf⟩ r hr => ⟨mapRange_foreign hx hf ht hr, mapRange_maps hx hf ht hr⟩, ?bind,
    fun ⟨ht, _⟩ hc h1 h2 hup es hes => setQuantum_sets hc ht h1 h2 hup hes, fun ⟨ht, _⟩ hc hlen hup hgo _ => repartition_starts hc ht hlen hup hgo,
    fun ⟨ht, _⟩ hc => ⟨assignFunction_malformed hc ht, assignFunction_assigns hc ht⟩,
    fun ⟨ht, _⟩ hq ⟨x, hx, hf⟩ hid => resume_resumes ht hq hx hf (hid x hx), fun hq x hx hf hid => resume_managed hq hx hf hid, ?page⟩
  case destroy =>
    rintro ⟨ht, -⟩
    refine ⟨fun ⟨x, hx, hf⟩ => ?_, fun hno => ?_⟩
    · exact (command_runs ht _ : execDestroyContext c s = _).trans (congrArg Host.Outcome.next (withCtx_own hx hf _))
    · exact (command_runs ht _ : execDestroyContext c s = _).trans (congrArg Host.Outcome.next (withCtx_foreign hno _))
  case submit =>
    rintro ⟨ht, -⟩
    refine ⟨fun hno => ?_, fun ⟨x, hx, hf⟩ r hr => submitGraph_submits ht hx hf hr⟩
    exact (command_runs ht _ : execSubmitGraph c s = _).trans (congrArg Host.Outcome.next (withCtx_foreign hno _))
  case cancel =>
    rintro ⟨ht, -⟩ hc
    exact ⟨fun g hg => (cancelGraph_right hc ht).trans (by rw [hg]), fun hno => (cancelGraph_right hc ht).trans (by rw [hno])⟩
  case slots =>
    rintro add ⟨ht, -⟩ hc g n k hg hn
    cases add with
    | true => exact ⟨slotCommand_loopless (add := true) (i := .addSlot c) hc ht hg hn, slotCommand_past (add := true) (i := .addSlot c) hc ht hg hn,
        slotCommand_waits (add := true) (i := .addSlot c) hc ht hg hn⟩
    | false => exact ⟨slotCommand_loopless (add := false) (i := .removeSlot c) hc ht hg hn, slotCommand_past (add := false) (i := .removeSlot c) hc ht hg hn,
        slotCommand_waits (add := false) (i := .removeSlot c) hc ht hg hn⟩
  case bind =>
    rintro ⟨ht, -⟩ ⟨x, hx, hf⟩ q hq h1 h2
    have hright := bindPeer_right hx hf ht hq h1 h2
    refine ⟨fun h => hright.trans ?_, fun h hfull => hright.trans ?_, fun h hroom => hright.trans ?_⟩ <;> rw [h]
    · rfl
    · exact congrArg Host.Outcome.next (if_pos hfull)
    · exact congrArg Host.Outcome.next (if_neg (not_le.mpr hroom))
  case page =>
    rintro ⟨ht, -⟩ ⟨x, hx, hf⟩ hid h0
    refine ⟨_, pageReady_comes ht hx hf (hid x hx) h0, (keepsMemory_takeCmd s c).sameMemory, fun k g hg hctx hlife hcause va kind hwait hpage =>
      pageCame_group hg hctx hlife hcause hwait hpage, fun x hx => pageCame_waits hx⟩

end Sys2Proof.Machine
end

section
/-! PROOFS. What every step keeps (R367 and the canonical form of memory): the rules of the state's operations, of memory and of the
ends of groups, graphs and contexts. -/

namespace Sys2Proof.Machine

/-- The reserved bits of a context's control registers read as zero (R367). -/
def CtxClean (x : Ctx) : Prop := x.trapvec &&& 7 = 0 ∧ x.trapframe &&& 0xFFFF = 0 ∧ x.preempt &&& 0xFE0000000000003E = 0

section
variable {s t : State} (h : Inv s)
include h

theorem Inv.mem : Memory.wf s.mem = true := h.1

theorem Inv.hostMem : Memory.wf s.hostMem = true := h.2.1

theorem Inv.ctxs : ∀ x ∈ s.ctxs, CtxClean x.2 := h.2.2

theorem Inv.ctx {c : Nat} {x : Ctx} (hx : ctx? s c = some x) : CtxClean x := h.ctxs (c, x) (mem_of_sget? hx)

/-- Whatever leaves memory and the contexts as they were keeps the invariant. -/
theorem Inv.of_eq (hm : t.mem = s.mem) (hh : t.hostMem = s.hostMem) (hc : t.ctxs = s.ctxs) : Inv t := by
  rw [Inv, hm, hh, hc]
  exact h

theorem Inv.foldl {α : Type} {f : State → α → State} (hf : ∀ t x, Inv t → Inv (f t x)) (xs : List α) : Inv (xs.foldl f s) := by
  induction xs generalizing s with
  | nil => exact h
  | cons x xs ih => exact ih (hf s x h)

/-! ## The state's operations -/

theorem Inv.modGroup {g : Nat} {f : Group → Group} : Inv (Machine.modGroup s g f) := h.of_eq (modGroup_mem ..) (modGroup_hostMem ..) (modGroup_ctxs ..)

theorem Inv.modWarp {g w : Nat} {f : Warp → Warp} : Inv (Machine.modWarp s g w f) := h.modGroup

theorem Inv.modCore {c : Nat} {f : Core → Core} : Inv (Machine.modCore s c f) := h.of_eq rfl rfl rfl

theorem Inv.modDie {d : Nat} {f : Die → Die} : Inv (Machine.modDie s d f) := h.of_eq rfl rfl rfl

theorem Inv.modGrid {g : Nat} {f : Grid → Grid} : Inv (Machine.modGrid s g f) := h.of_eq rfl rfl rfl

theorem Inv.modGraph {g : Nat} {f : Graph → Graph} : Inv (Machine.modGraph s g f) := h.of_eq rfl rfl rfl

theorem Inv.modNode {g n : Nat} {f : Node → Node} : Inv (Machine.modNode s g n f) := h.modGraph

theorem Inv.modFn {i : Nat} {f : Fn → Fn} : Inv (Machine.modFn s i f) := h.of_eq rfl rfl rfl

theorem Inv.modPart {i : Nat} {f : Part → Part} : Inv (Machine.modPart s i f) := h.of_eq rfl rfl rfl

theorem Inv.modRegion {c n : Nat} {f : Region → Region} : Inv (Machine.modRegion s c n f) := h.of_eq rfl rfl rfl

theorem Inv.modCopy {i : Nat} {f : Copy → Copy} : Inv (Machine.modCopy s i f) := h.of_eq rfl rfl rfl

theorem Inv.modMat {i : Nat} {f : MatOp → MatOp} : Inv (Machine.modMat s i f) := h.of_eq rfl rfl rfl

theorem Inv.sputCtx {c : Nat} {x : Ctx} (hx : CtxClean x) : Inv { s with ctxs := sput s.ctxs c x } := by
  refine ⟨h.mem, h.hostMem, fun p hp => ?_⟩
  obtain rfl | hp := mem_of_mem_sput hp
  · exact hx
  · exact h.ctxs p hp

/-- A change of a context that leaves the reserved bits at zero. -/
theorem Inv.modCtx {c : Nat} {f : Ctx → Ctx} (hf : ∀ x, CtxClean x → CtxClean (f x)) : Inv (Machine.modCtx s c f) := by
  unfold Machine.modCtx
  split
  · next x hx => exact h.sputCtx (hf x (h.ctx hx))
  · exact h

theorem Inv.mend {p : Err → Bool} : Inv (Machine.mend s p) := h.of_eq rfl rfl rfl

theorem Inv.postEvent {f : Nat} {e : List Byte} : Inv (Machine.postEvent s f e) := h.modFn

theorem Inv.postCtx {c kind addr b16 b17 : Nat} {r : Option FaultRec} : Inv (Machine.postCtx s c kind addr b16 b17 r) := h.postEvent

theorem Inv.postMgmt {m : List Nat} : Inv (Machine.postMgmt s m) := h.of_eq rfl rfl rfl

theorem Inv.lossOfCore {c : Nat} : Inv (Machine.lossOfCore s c) := h.foldl (fun _ _ ht => ht.postCtx) _

theorem Inv.retireMacro {c u : Nat} : Inv (Machine.retireMacro s c u) := by
  unfold Machine.retireMacro
  split
  · exact h.modCore.mend.postMgmt.lossOfCore
  · exact h.modCore.mend.postMgmt

theorem Inv.learn {d : Nat} {v : View} : Inv (Machine.learn s d v) := h.of_eq rfl rfl rfl

theorem Inv.sendAlong {e : Edge} {v : View} : Inv (Machine.sendAlong e v s) := h.of_eq rfl rfl rfl

theorem Inv.bindOver {d k n : Nat} : Inv (Machine.bindOver s d k n) := h.of_eq rfl rfl rfl

theorem Inv.bindDie {d : Nat} : Inv (Machine.bindDie s d) := h.of_eq rfl rfl rfl

theorem Inv.sawBytes {d k n : Nat} {skip : List Ver} : Inv (Machine.sawBytes s d k n skip) := h.bindOver.learn

/-! ## Memory -/

theorem Inv.memPut {a : Nat} {b : Byte} {l2 : List (Nat × Byte)} : Inv { s with mem := Machine.memPut s.mem a b, l2 := l2 } :=
  ⟨memPut_wf _ _ _ h.mem, h.hostMem, h.ctxs⟩

theorem Inv.putHomeByte {sp a : Nat} {b : Byte} : Inv (Machine.putHomeByte s sp a b) := by
  unfold Machine.putHomeByte
  split
  · exact h.of_eq rfl rfl rfl
  · split
    · exact h.memPut
    · split
      · exact ⟨h.mem, memPut_wf _ _ _ h.hostMem, h.ctxs⟩
      · exact h

theorem Inv.putHomeBytes {sp a : Nat} {bs : List Byte} : Inv (Machine.putHomeBytes s sp a bs) := by
  induction bs generalizing s a with
  | nil => exact h
  | cons b r ih => exact ih h.putHomeByte

theorem Inv.clearEcc {a n : Nat} : Inv (Machine.clearEcc s a n) := h.of_eq rfl rfl rfl

theorem Inv.countEvent {c x v n : Nat} : Inv (Machine.countEvent s c x v n) := by
  rw [countEvent_only]
  exact h.of_eq rfl rfl rfl

theorem Inv.countRecords {src : Option (Nat × Nat)} {n : Nat} : Inv (Machine.countRecords s src n) := by
  unfold Machine.countRecords
  split
  · split
    · split
      · exact h
      · exact h.countEvent
    · exact h
  · exact h

theorem Inv.keepOld {u : State} {a n : Nat} : Inv (Machine.keepOld u s a n) := by
  unfold Machine.keepOld
  split
  · exact h.of_eq rfl rfl rfl
  · exact h

theorem Inv.addVer {u : State} {agent : Nat} {rel : Option View} {sp a n : Nat} : Inv (Machine.addVer u agent rel sp a n s) := h.of_eq rfl rfl rfl

theorem Inv.sendRecords {s0 s1 : State} {a n : Nat} {src : Option (Nat × Nat)} {keep : Bool} : Inv (Machine.sendRecords s0 s1 a n src keep s) :=
  h.foldl (fun _ _ ht => ht.countRecords.modRegion) _

theorem Inv.dropTlbs {u : State} {a n : Nat} : Inv (Machine.dropTlbs u a n s) := h.of_eq rfl rfl rfl

theorem Inv.dropCopies {q : Nat → Bool} {k n : Nat} : Inv (Machine.dropCopies q k n s) := h.of_eq rfl rfl rfl

theorem Inv.dropOnWrite {agent sp a n : Nat} : Inv (Machine.dropOnWrite agent sp a n s) := by
  unfold Machine.dropOnWrite
  split
  · exact h
  · exact h.dropCopies

theorem Inv.homeWrite {agent : Nat} {rel : Option View} {sp a : Nat} {data : List Byte} {src : Option (Nat × Nat)} {keep : Bool} :
    Inv (Machine.homeWrite s agent rel sp a data src keep) := by
  unfold Machine.homeWrite
  extract_lets s1
  have h1 : Inv s1 := h.putHomeBytes.addVer.dropOnWrite
  split
  · exact h1.clearEcc.keepOld.sendRecords.dropTlbs
  · exact h1

theorem Inv.outsideWrite {agent a : Nat} {data : List Byte} : Inv (Machine.outsideWrite s agent a data) := by
  unfold Machine.outsideWrite
  extract_lets n own ks s0 s1
  have h0 : Inv s0 := h.homeWrite
  have h1 : Inv s1 := by
    unfold s1
    split
    · exact h0.postCtx
    · exact h0
  clear_value own ks s1
  split
  · exact h.postCtx
  · split
    · exact h1
    · exact h1.postCtx

theorem Inv.sendPeer {port c a : Nat} {data : List Byte} : Inv (Machine.sendPeer s port c a data) := by
  unfold Machine.sendPeer
  split
  · exact h.of_eq rfl rfl rfl
  · exact h

theorem Inv.mendL1 {p : PendWrite} : Inv (Machine.mendL1 s p) := by
  unfold Machine.mendL1
  split
  · exact h
  · exact h.mend

theorem Inv.performWrite {p : PendWrite} : Inv (Machine.performWrite s p) := by
  unfold Machine.performWrite
  extract_lets u sp a
  have hu : Inv u := h.mendL1
  split
  · exact hu.outsideWrite
  · split
    · exact hu.sendPeer
    · exact hu.homeWrite

theorem Inv.drainIf {q : PendWrite → Bool} : Inv (Machine.drainIf s q) := by
  suffices hall : ∀ (ps : List PendWrite) (acc : State × List PendWrite), Inv acc.1 → Inv (ps.foldl (fun (acc : State × List PendWrite) p =>
      if q p && !(acc.2.any fun r => precedes s r p) then (Machine.performWrite acc.1 p, acc.2) else (acc.1, acc.2 ++ [p])) acc).1 from
    (hall s.pend (s, []) h).of_eq rfl rfl rfl
  intro ps
  induction ps with
  | nil => exact fun acc ha => ha
  | cons p ps ih =>
    intro acc ha
    refine ih _ ?_
    dsimp only
    split
    · exact ha.performWrite
    · exact ha

theorem Inv.drainDie {d : Nat} : Inv (Machine.drainDie s d) := h.bindDie.drainIf

theorem Inv.drainAt {d k n : Nat} : Inv (Machine.drainAt s d k n) :=
  Inv.foldl (h.of_eq rfl rfl rfl : Inv { s with pend := (chainAt s d k n).2 }) (fun _ _ ht => ht.performWrite) _

theorem Inv.storeView {d g w : Nat} {x : StoreTag} {sp a : Nat} {data : List Byte} : Inv (Machine.storeView s d g w x sp a data) := h.of_eq rfl rfl rfl

theorem Inv.storeHome {d g w : Nat} {x : StoreTag} {sp a : Nat} {data : List Byte} : Inv (Machine.storeHome s d g w x sp a data) :=
  h.bindOver.drainAt.performWrite

theorem Inv.putPiece {rel : Option View} {sp a : Nat} {data : List Byte} : Inv (Machine.putPiece s rel sp a data) := by
  unfold Machine.putPiece
  split
  · exact h.storeView
  · exact h.storeHome

theorem Inv.putPieces {ps : List (Nat × Nat × Nat)} {data : List Byte} : Inv (Machine.putPieces s ps data) := by
  induction ps generalizing s data with
  | nil => exact h
  | cons p ps ih => exact ih h.putPiece

theorem Inv.devWrite {c : Nat} {gen : Nat → Option Nat} {va : DWord} {align : Nat} {data : List Byte} (hw : Machine.devWrite s c gen va align data = .ok t) : Inv t := by
  unfold Machine.devWrite at hw
  split at hw
  · split at hw
    · cases hw
    · cases hw; exact h.putPieces
  · cases hw
  · cases hw
  · cases hw

theorem Inv.devIncrement {rel : View} {c : Nat} {gen : Nat → Option Nat} {va : DWord} (hw : Machine.devIncrement s rel c gen va = .ok t) : Inv t := by
  unfold Machine.devIncrement at hw
  split at hw
  · split at hw
    · cases hw
    · split at hw
      · cases hw
      · cases hw; exact h.putPiece
  · cases hw
  · cases hw
  · cases hw

/-! ## Registers and scratchpads -/

theorem Inv.ownRow {g w r : Nat} : Inv (Machine.ownRow s g w r) := by
  unfold Machine.ownRow
  split
  · exact h
  · split
    · exact h
    · split
      · exact h
      · exact h.countEvent.modWarp

theorem Inv.writeReg {g w r l : Nat} {v : Word} : Inv (Machine.writeReg s g w r l v) := h.ownRow.modWarp

theorem Inv.writeWide {n g w r l x : Nat} : Inv (Machine.writeWide s g w r l n x) := by
  induction n generalizing s r x with
  | zero => exact h
  | succ n ih => exact ih h.writeReg

theorem Inv.writeLanes {e : Env} {d n : Nat} {f : Nat → Nat} : Inv (Machine.writeLanes e s d n f) := h.foldl (fun _ _ ht => ht.writeWide) _

theorem Inv.writeSpm {g off : Nat} {data : List Byte} : Inv (Machine.writeSpm s g off data) := by
  unfold Machine.writeSpm
  split
  · exact h
  · exact h.modGroup

theorem Inv.leaveValues {gr : Group} : Inv (Machine.leaveValues s gr) := h.modCtx fun _ hx => hx

theorem Inv.retryAccept : Inv (Machine.retryAccept s) := h.of_eq rfl rfl rfl

theorem Inv.bindReg {g w r l : Nat} : Inv (Machine.bindReg s g w r l) := h.of_eq rfl rfl rfl

theorem Inv.bindWarp {g w : Nat} : Inv (Machine.bindWarp s g w) := h.of_eq rfl rfl rfl

theorem Inv.stillAway {g w : Nat} : Inv (Machine.stillAway s g w) := h.of_eq rfl rfl rfl

/-! ## The ends of groups, graphs and contexts -/

theorem Inv.modQueue {f q : Nat} {k : QPair → QPair} : Inv (Machine.modQueue s f q k) := h.modFn

theorem Inv.complete {c : Cmd} {status result : Nat} : Inv (Machine.complete s c status result) := h.modQueue

theorem Inv.freeSlots {gr : Group} : Inv (Machine.freeSlots s gr) := by
  unfold Machine.freeSlots
  split
  · exact h
  · exact h.modCore

theorem Inv.freeImages {c : Nat} : Inv (Machine.freeImages s c) := h.modCore

theorem Inv.removeGroup {g : Nat} : Inv (Machine.removeGroup s g) := by
  unfold Machine.removeGroup
  split
  · exact h
  · extract_lets s1 s2 s3 s4
    have h1 : Inv s1 := h.freeSlots.leaveValues
    have h3 : Inv s3 := (h1.of_eq rfl rfl rfl : Inv s2).modCore
    have h4 : Inv s4 := h3.modCtx fun _ hx => hx
    exact h4.freeImages.retryAccept

theorem Inv.settleRanges : Inv (Machine.settleRanges s) := h.of_eq rfl rfl rfl

theorem Inv.countEcc {k : Nat} : Inv (Machine.countEcc s k) := h.of_eq rfl rfl rfl

theorem Inv.stopGrids {g n : Nat} : Inv (Machine.stopGrids s g n) := by
  unfold Machine.stopGrids
  refine Inv.foldl ?_ (fun _ _ ht => ht.removeGroup) _
  exact h.of_eq rfl rfl rfl

theorem Inv.closeSlotCmds {g : Graph} {status : Nat} {res : SlotCmd → Nat} : Inv (Machine.closeSlotCmds s g status res) :=
  h.modGraph.foldl (fun _ _ ht => ht.complete) _

theorem Inv.dropEdges {g : Nat} : Inv (Machine.dropEdges s g) := h.of_eq rfl rfl rfl

theorem Inv.graphEndCheck {g : Nat} : Inv (Machine.graphEndCheck s g) := by
  unfold Machine.graphEndCheck
  split
  · exact h
  · split
    · exact h
    · extract_lets busy s1 s2
      split
      · exact h
      · have h2 : Inv s2 := h.closeSlotCmds.modGraph
        refine Inv.complete ?_
        exact (h2.dropEdges (g := g)).of_eq rfl rfl rfl

theorem Inv.failNode {g n reason : Nat} : Inv (Machine.failNode s g n reason) := by
  unfold Machine.failNode
  split
  · exact h
  · split
    · exact h
    · exact ((h.modGraph.foldl (fun _ _ ht => ht.stopGrids) _).graphEndCheck).settleRanges

theorem Inv.failGroupNode {gr : Group} {reason : Nat} : Inv (Machine.failGroupNode s gr reason) := by
  unfold Machine.failGroupNode
  split
  · exact h.failNode
  · exact h

theorem Inv.deferTo {g w cls : Nat} {c : Code} {d0 d1 : DWord} : Inv (Machine.deferTo s g w cls c d0 d1) := by
  refine Inv.modWarp ?_
  split
  · exact h.countEcc
  · exact h

theorem Inv.devRefused {c g n : Nat} {code : Code} {va : DWord} : Inv (Machine.devRefused s c g n code va) := h.postCtx.failNode

theorem Inv.devWait {i : Instr} {c : Nat} {va : DWord} : Inv (Machine.devWait s i c va) := by
  unfold Machine.devWait
  refine Inv.postCtx ?_
  exact h.of_eq rfl rfl rfl

theorem Inv.failGraph {g : Graph} {reason : Nat} : Inv (Machine.failGraph s g reason) := h.foldl (fun _ _ ht => ht.failNode) _

theorem Inv.discardCtx {c reason : Nat} : Inv (Machine.discardCtx s c reason) := by
  unfold Machine.discardCtx
  extract_lets s1 s2 s3 commands
  have h1 : Inv s1 := h.foldl (fun _ _ ht => ht.removeGroup) _
  have h2 : Inv s2 := h1.of_eq rfl rfl rfl
  have h3 : Inv s3 := h2.foldl (fun _ _ ht => ht.failGraph) _
  exact Inv.settleRanges ⟨h3.mem, h3.hostMem, fun x hx => h3.ctxs x (mem_of_mem_sdel hx).1⟩

theorem Inv.contextEnd {c : Nat} {handled : Option FaultRec} {cause : FaultRec} : Inv (Machine.contextEnd s c handled cause) := by
  unfold Machine.contextEnd
  refine Inv.postEvent ?_
  split
  · exact h.discardCtx.postEvent
  · exact h.discardCtx

theorem Inv.writeBackError {line kind : Nat} : Inv (Machine.writeBackError s line kind) :=
  h.postMgmt.countEcc.foldl (fun _ _ ht => ht.contextEnd) _

theorem Inv.failLine {a : Nat} : Inv (Machine.failLine s a) := by
  unfold Machine.failLine
  refine Inv.writeBackError ?_
  exact h.of_eq rfl rfl rfl

theorem Inv.failL1 {p : PendWrite} : Inv (Machine.failL1 s p) := by
  unfold Machine.failL1
  extract_lets line mine s1
  have h1 : Inv s1 := h.mend
  refine Inv.retryAccept (Inv.writeBackError (Inv.dropCopies ?_))
  exact h1.of_eq rfl rfl rfl

theorem Inv.evictErrors : Inv (Machine.evictErrors s) := by
  unfold Machine.evictErrors
  split
  · exact h.failLine
  · exact h

/-! ## Saves and faults -/

theorem Inv.returnOuts {g w : Nat} : Inv (Machine.returnOuts s g w) := by
  unfold Machine.returnOuts
  split
  · exact h
  · refine Inv.stillAway (Inv.modWarp (h.bindWarp.modWarp.foldl (fun t o ht => ?_) _))
    split
    · split
      · exact ht.writeReg
      · exact ht
    · exact ht

theorem Inv.takeOff {gr : Group} {frame : Nat × Nat} : Inv (Machine.takeOff s gr frame) := by
  unfold Machine.takeOff
  extract_lets s1 s2 s3 gone
  have h2 : Inv s2 := h.freeSlots.modGroup
  have h3 : Inv s3 := h2.of_eq rfl rfl rfl
  exact h3.modCore.freeImages.retryAccept

theorem Inv.frameTaken {gr : Group} {base o size g : Nat} : Inv (Machine.frameTaken s gr base o size g) := by
  unfold Machine.frameTaken
  refine Inv.takeOff (h.modCtx ?_)
  exact fun _ hx => hx

theorem Inv.saveTold {gr : Group} : Inv (Machine.saveTold s gr) := by
  unfold Machine.saveTold
  split
  · exact h.postCtx
  · exact h

theorem Inv.saveGroup {g : Nat} : Inv (Machine.saveGroup s g) := by
  unfold Machine.saveGroup
  split
  · exact h
  next gr0 _ =>
  split
  case h_2 => exact h
  split
  case isFalse => exact h
  extract_lets s1
  have h1 : Inv s1 := h.drainDie.foldl (fun _ _ ht => ht.foldl (fun _ _ hu => hu.returnOuts) _) _
  split
  · exact h1
  split
  · exact h1
  split
  · extract_lets f need
    split
    · split
      · exact h1.contextEnd
      · split
        · next hw =>
          exact (h1.devWrite hw).frameTaken.saveTold
        · exact h1.contextEnd
        · exact h1.contextEnd
        · exact h1.contextEnd
    · split
      · exact h1
      · exact h1.modGroup.postCtx
  · exact h1.contextEnd
  · exact h1.contextEnd
  · exact h1.contextEnd

theorem Inv.haltAndSave {g : Nat} {cause : Cause} : Inv (Machine.haltAndSave s g cause) := by
  unfold Machine.haltAndSave
  split
  · exact h
  · split
    · exact (h.modGroup.foldl (fun _ _ ht => ht.modGroup) _).saveGroup
    · exact h

theorem Inv.endFaultedGroup {gr : Group} {r : FaultRec} : Inv (Machine.endFaultedGroup s gr r) := h.modGroup.postCtx.failGroupNode

theorem Inv.savePaged {gr : Group} {r : FaultRec} : Inv (Machine.savePaged s gr r) := h.modGroup.haltAndSave

theorem Inv.takeFault {g w : Nat} {r : FaultRec} : Inv (Machine.takeFault s g w r) := by
  unfold Machine.takeFault
  extract_lets u
  have hu : Inv u := by
    unfold u
    split
    · exact h.countEcc
    · exact h
  split
  · exact hu
  · split
    · exact hu
    · split
      · split
        · exact hu.modWarp
        · exact hu.savePaged
      · split
        · exact hu.modGroup
        · exact hu.modWarp

theorem Inv.enterHandler {g w : Nat} : Inv (Machine.enterHandler s g w) := by
  unfold Machine.enterHandler
  split
  · exact h
  split
  · exact h
  split
  · exact h
  split
  · exact h
  split
  · exact h.modWarp.savePaged
  split
  · exact h
  split
  · exact h.contextEnd
  extract_lets cx temps va s1 src tagged
  clear_value cx
  split
  · exact h.endFaultedGroup
  split
  · exact h.endFaultedGroup
  have h1 : Inv s1 := by
    unfold s1
    refine Inv.drainDie ?_
    split
    · exact h
    · exact h.retryAccept
  split
  · exact h
  split
  · exact h.modGroup.haltAndSave
  · exact h.contextEnd
  · exact h.contextEnd
  · next hw =>
    have h2 := h1.devWrite hw
    split
    · exact h2.modCore.modWarp
    · exact h2.modWarp.foldl (fun _ _ ht => ht.writeWide) _

end
end Sys2Proof.Machine
end

section
/-! PROOFS. What every step keeps: the issue of a word, its lanes, and the lines an image copies. -/

namespace Sys2Proof.Machine

/-! ## Answers -/

/-- The next state, where there is one, keeps the invariant. -/
def GoesOn (o : Host.Outcome State Fault Refusal) : Prop := ∀ t, o = .next t → Inv t

theorem goesOn_next {t : State} (h : Inv t) : GoesOn (.next t) := fun _ ht => Host.Outcome.next.inj ht ▸ h

theorem goesOn_fault (f : Fault) : GoesOn (.fault f) := fun _ ht => (by cases ht)

theorem goesOn_ite {p : Prop} [Decidable p] {a b : Host.Outcome State Fault Refusal} (ha : GoesOn a) (hb : GoesOn b) : GoesOn (if p then a else b) := by
  split
  · exact ha
  · exact hb

/-- The state that a word's body leaves keeps the invariant. -/
def WordRes.Safe : WordRes → Prop
  | .done t | .jump t | .trap t _ _ _ _ | .hold t _ _ => Inv t
  | .stop _ => True

theorem safe_ite {p : Prop} [Decidable p] {a b : WordRes} (ha : a.Safe) (hb : b.Safe) : (if p then a else b).Safe := by
  split
  · exact ha
  · exact hb

theorem inv_ite {p : Prop} [Decidable p] {a b : State} (ha : Inv a) (hb : Inv b) : Inv (if p then a else b) := by
  split
  · exact ha
  · exact hb

/-- Whatever a computation answers has a property. -/
def Gives {ε α : Type} (P : α → Prop) (r : Except ε α) : Prop := ∀ a, r = .ok a → P a

section
variable {ε α β : Type} {P : α → Prop} {Q : β → Prop} {r : Except ε α}

theorem gives_ok {a : α} (h : P a) : Gives (ε := ε) P (.ok a) := fun _ hb => Except.ok.inj hb ▸ h

theorem gives_pure {a : α} (h : P a) : Gives P (pure a : Except ε α) := gives_ok h

theorem gives_error (y : ε) : Gives P (.error y) := fun _ h => (by cases h)

theorem Gives.bind {f : α → Except ε β} (hr : Gives P r) (hf : ∀ a, P a → Gives Q (f a)) : Gives Q (r >>= f) := fun b hb => by
  obtain ⟨a, ha, hfa⟩ := bind_ok_iff.mp hb
  exact hf a (hr a ha) b hfa

/-- What a step of a computation answers may be anything. -/
theorem gives_seq {f : α → Except ε β} (hf : ∀ a, Gives Q (f a)) : Gives Q (r >>= f) := fun b hb => by
  obtain ⟨a, -, hfa⟩ := bind_ok_iff.mp hb
  exact hf a b hfa

theorem Gives.map {f : α → β} (hr : Gives P r) (hf : ∀ a, P a → Q (f a)) : Gives Q (r.map f) := fun b hb => by
  cases r with
  | error y => cases hb
  | ok a => exact Except.ok.inj hb ▸ hf a (hr a rfl)

theorem gives_ite {p : Prop} [Decidable p] {x y : Except ε α} (hx : Gives P x) (hy : Gives P y) : Gives P (if p then x else y) := by
  split
  · exact hx
  · exact hy

theorem gives_foldlM {γ : Type} {f : α → γ → Except ε α} (hf : ∀ a x, P a → Gives P (f a x)) : ∀ (xs : List γ) {a : α}, P a → Gives P (xs.foldlM f a)
  | [], _, ha => gives_ok ha
  | x :: xs, a, ha => (hf a x ha).bind fun _ hb => gives_foldlM hf xs hb

end

/-- A computation that leaves a state beside what it answers, and keeps the invariant. -/
abbrev Keeps {ε α : Type} (r : Except ε (State × α)) : Prop := Gives (fun p => Inv p.1) r

section
variable {s : State} (h : Inv s)
include h

/-! ## The issue of a word -/

theorem Inv.leaveTurn {e : Env} : Inv (Machine.leaveTurn e s) := inv_ite h.modCore h

theorem Inv.countWord {u : State} {e : Env} {i : Instr} : Inv (Machine.countWord u e i s) := by
  have hcount : ∀ {t : State} (n k : Nat), Inv t → Inv (if k = 0 then t else Machine.countEvent t e.gr.core e.gr.ctx n k) := fun n k ht =>
    inv_ite ht ht.countEvent
  unfold Machine.countWord
  extract_lets count s1
  have h1 : Inv s1 := hcount _ _ (hcount _ _ (hcount _ _ h))
  split
  · exact inv_ite h1.modGroup h1
  · exact h1

theorem Inv.noteWord {u : State} {e : Env} {i : Instr} : Inv (Machine.noteWord u e i s) := h.countWord.modWarp

theorem Inv.addHold {e : Env} {i : Instr} {k : Hold} {lanes : Mask} : Inv (Machine.addHold s e i k lanes) :=
  Inv.leaveTurn (Inv.modWarp (inv_ite h.noteWord h))

theorem Inv.retire {u : State} {e : Env} {i : Instr} : Inv (Machine.retire u e i s) := Inv.leaveTurn (inv_ite h.noteWord.modWarp h.noteWord)

theorem Inv.finish {e : Env} {i : Instr} {r : WordRes} (hr : r.Safe) : GoesOn (Machine.finish e i r s) := by
  cases r with
  | done t => exact goesOn_ite (goesOn_next h.addHold) (goesOn_next (Inv.retire (Inv.modWarp hr)))
  | jump t => exact goesOn_ite (goesOn_next h.addHold) (goesOn_next (Inv.retire hr))
  | hold t k lanes => exact goesOn_ite (goesOn_next h.addHold) (goesOn_next (Inv.addHold hr))
  | trap t c lanes d0 d1 => exact goesOn_next (Inv.takeFault hr)
  | stop f => exact goesOn_fault f

/-- A word whose body keeps the invariant goes on to a state that does. -/
theorem Inv.runWord {i : Instr} {body : Env → State → WordRes} (hbody : ∀ e, (body e s).Safe) : GoesOn (Machine.runWord i s body) := by
  unfold Machine.runWord
  split
  · exact goesOn_next h
  · next e _ =>
    split
    · exact goesOn_next h.takeFault
    · refine goesOn_ite (goesOn_next h.addHold) ?_
      split
      · exact goesOn_next h.modWarp.takeFault
      · split
        · exact goesOn_next h.takeFault
        · exact h.finish (hbody e)

theorem Inv.dropHold {g w : Nat} {x : HoldRec} : Inv (Machine.dropHold s g w x) := h.modWarp

theorem Inv.laterLanes {e : Env} {d n : Nat} {outs : Nat → List Outst} : Inv (Machine.laterLanes e s d n outs) :=
  Inv.modWarp (h.foldl (fun _ _ ht => inv_ite ht ht.ownRow) _)

theorem Inv.laterValue {e : Env} {d n : Nat} {f : Nat → Nat} : Inv (Machine.laterValue e s d n f) := h.laterLanes

theorem Inv.aluWord {i : Instr} {d : Reg} {n : Nat} {f : Env → Nat → Nat} : GoesOn (Machine.aluWord i s d n f) := h.runWord fun _ => h.writeLanes

theorem Inv.slowWord {i : Instr} {d : Reg} {n : Nat} {f : Env → Nat → Nat} : GoesOn (Machine.slowWord i s d n f) := h.runWord fun _ => h.laterValue

theorem Inv.execIllegal {raw : BitVec 54} {mark : Bool} : GoesOn (Machine.execIllegal raw mark s) := h.runWord fun _ => h

theorem Inv.execNop {hd : Hdr} : GoesOn (Machine.execNop hd s) := h.runWord fun _ => h

theorem Inv.execPairedWord {mark : Bool} {x y : Half} : GoesOn (Machine.execPairedWord mark x y s) :=
  h.runWord fun _ => h.foldl (fun _ _ ht => ht.writeReg.writeReg) _

theorem Inv.execSread {hd : Hdr} {v : SysVal} {d : Reg} : GoesOn (Machine.execSread hd v d s) := by
  unfold Machine.execSread
  split
  · exact h.slowWord
  · exact h.aluWord

theorem Inv.execFquant {hd : Hdr} {f : QFmt} {k : BitVec 3} {nf : Bool} {d a b c : Reg} : GoesOn (Machine.execFquant hd f k nf d a b c s) :=
  h.runWord fun _ => safe_ite h h.writeLanes

/-! ## Control flow and exchanges -/

theorem Inv.transfer {e : Env} {target : Nat → DWord} : Inv (Machine.transfer e s target) := h.modWarp

theorem Inv.pushLink {e : Env} : Inv (Machine.pushLink e s) := inv_ite h h.modWarp

theorem Inv.popLink {e : Env} : Inv (Machine.popLink e s) := inv_ite h h.modWarp

theorem Inv.execBra {hd : Hdr} {off : BitVec 24} : GoesOn (Machine.execBra hd off s) := h.runWord fun _ => h.transfer

theorem Inv.execBrx {hd : Hdr} {a : Reg} : GoesOn (Machine.execBrx hd a s) := h.runWord fun _ => h.transfer

theorem Inv.execCall {hd : Hdr} {d : Reg} {off : BitVec 24} : GoesOn (Machine.execCall hd d off s) := h.runWord fun _ => h.writeLanes.transfer.pushLink

theorem Inv.execCallx {hd : Hdr} {d a : Reg} : GoesOn (Machine.execCallx hd d a s) := h.runWord fun _ => h.writeLanes.transfer.pushLink

theorem Inv.execRet {hd : Hdr} {a : Reg} : GoesOn (Machine.execRet hd a s) := h.runWord fun _ => h.transfer.popLink

theorem Inv.execExit {hd : Hdr} : GoesOn (Machine.execExit hd s) := h.runWord fun _ => h.modWarp

theorem Inv.exchange {i : Instr} {d : Reg} {n : Nat} {m : Option Reg} {own : Env → Nat → Nat} {f : Env → Mask → Nat → Nat} :
    GoesOn (Machine.exchange i s d n m own f) := h.runWord fun _ => by
  split
  · exact h
  · exact h.laterValue

theorem Inv.execElect {hd : Hdr} {d : Reg} {m : Option Reg} : GoesOn (Machine.execElect hd d m s) := h.runWord fun _ => by
  split
  · exact h
  · exact h.writeLanes

theorem Inv.execWsync {hd : Hdr} {m : Option Reg} : GoesOn (Machine.execWsync hd m s) := h.runWord fun _ => by
  split
  · exact h
  · exact safe_ite h h

theorem Inv.execYieldl {mark : Bool} : GoesOn (Machine.execYieldl mark s) := h.runWord fun _ => h.modWarp

theorem Inv.execBrkpt {hd : Hdr} {k : BitVec 8} : GoesOn (Machine.execBrkpt hd k s) := h.runWord fun _ => safe_ite h (safe_ite h.modCore h)

/-! ## Lanes that may fault -/

theorem Inv.eachLane {α : Type} {f : State → Nat → Except LaneFault (State × α)} (hf : ∀ t l, Inv t → Keeps (f t l)) (ls : List Nat) :
    Inv (Machine.eachLane f ls s).2.1 := by
  induction ls generalizing s with
  | nil => exact h
  | cons l ls ih =>
    rw [Machine.eachLane]
    split
    · next t a hfa => exact ih (hf s l h _ hfa)
    · exact ih h

omit h in
theorem laneFault_safe {t : State} (ht : Inv t) {fs : List (Nat × LaneFault)} {r : WordRes} (hr : laneFault t fs = some r) : r.Safe := by
  unfold laneFault at hr
  split at hr
  · cases hr
  · cases hr; trivial
  · cases hr; exact ht

theorem Inv.lanesThen {α : Type} {e : Env} {f : State → Nat → Except LaneFault (State × α)} {k : State → List (Nat × α) → WordRes}
    (hf : ∀ t l, Inv t → Keeps (f t l)) (hk : ∀ t as, Inv t → (k t as).Safe) : (Machine.lanesThen e s f k).Safe := by
  unfold Machine.lanesThen
  extract_lets x
  split
  · next hr => exact laneFault_safe h hr
  · exact hk _ _ (h.eachLane hf _)

theorem Inv.pureLane {α : Type} {r : Except LaneFault α} : Keeps (Machine.pureLane s r) := by
  cases r with
  | ok a => exact gives_ok h
  | error y => exact gives_error y

theorem Inv.afterRead {e : Env} {acq : Bool} {sc : Scope} {sp a n : Nat} {skip : List Ver} {l : Nat} : Inv (Machine.afterRead s e acq sc sp a n skip l) := by
  unfold Machine.afterRead
  extract_lets k xs s1 s2 host s3
  have h1 : Inv s1 := h.sawBytes
  have h3 : Inv s3 := inv_ite h1.modWarp.learn h1.modWarp
  exact inv_ite h1 (inv_ite h3.learn h3)

theorem Inv.readCredit {e : Env} {acq : Bool} {l a : Nat} : Inv (Machine.readCredit e acq s l a) := by
  unfold Machine.readCredit
  split
  · exact h
  · exact inv_ite h.modWarp.learn h.modWarp

/-! ## Lines copied from an image -/

theorem Inv.backingLine {gr : Group} {va : DWord} {kind : Nat} : Keeps (Machine.backingLine s gr va kind) := by
  unfold Machine.backingLine
  extract_lets fresh
  have hfresh : Keeps fresh := by
    unfold fresh
    split
    · exact gives_error _
    · exact gives_error _
    split
    · exact gives_error _
    · exact gives_error _
    · exact gives_error _
    extract_lets count next
    refine gives_ite (gives_error _) (gives_ite (gives_error _) ?_)
    split
    · exact gives_error _
    · exact gives_error _
    · exact gives_error _
    extract_lets page
    refine gives_ite (gives_error _) ?_
    split
    · next hw => exact gives_ok (h.devWrite hw).modGroup
    · exact gives_error _
    · exact gives_error _
    · exact gives_error _
  clear_value fresh
  split
  · exact gives_ite (gives_ok h.modGroup) hfresh
  · exact hfresh

theorem Inv.privateLine {e : Env} {va : DWord} {sp a kind : Nat} : Keeps (Machine.privateLine s e va sp a kind) := by
  unfold Machine.privateLine
  extract_lets src
  split
  · exact gives_ok h
  · refine gives_ite (gives_error _) ?_
    split
    · exact gives_error _
    · next t p hb =>
      have ht : Inv t := h.backingLine _ hb
      exact gives_ok ht.putHomeBytes.modGroup

theorem Inv.writeTarget {b : State} {e : Env} {va : DWord} {l : Leaf} {n kind : Nat} : Keeps (Machine.writeTarget b s e va l n kind) := by
  unfold Machine.writeTarget
  refine gives_ite (gives_ok h) (gives_ite (gives_error _) ?_)
  split
  · exact gives_ite h.privateLine (gives_error _)
  · split
    · exact gives_error _
    · exact gives_ok h

theorem Inv.putStore {e : Env} {x : StoreTag} {sp a : Nat} {data : List Byte} {seq : Bool} : Inv (Machine.putStore s e x sp a data seq) :=
  inv_ite (inv_ite (inv_ite h.storeHome h.storeView).storeHome (inv_ite h.storeHome h.storeView).storeView) (inv_ite h.storeHome h.storeView)

theorem Inv.storeThrough {b : State} {e : Env} {va : DWord} {lf : Leaf} {data : List Byte} {tag : State → StoreTag} {seq : Bool} :
    Keeps (Machine.storeThrough b s e va lf data tag seq) := by
  unfold Machine.storeThrough
  refine h.writeTarget.bind fun ⟨u1, pa⟩ h1 => ?_
  dsimp only
  split
  · exact gives_error _
  · exact gives_pure h1.putStore

theorem Inv.afterRelease {e : Env} {rel : Bool} {sc : Scope} {k : State → WordRes} (hk : ∀ t, Inv t → (k t).Safe) : (Machine.afterRelease e s rel sc k).Safe :=
  safe_ite (safe_ite h (hk _ h.drainDie)) (hk _ h)

end
end Sys2Proof.Machine
end

section
/-! PROOFS. What every step keeps: caches, barriers, loads and stores, queues, atomics and fences. -/

namespace Sys2Proof.Machine

section
variable {s : State} (h : Inv s)
include h

/-! ## Caches -/

theorem Inv.countBanks {e : Env} {n : Nat} {at_ : List (Nat × Nat)} : Inv (Machine.countBanks e s n at_) := h.countEvent

theorem Inv.withTags {t : State} : Inv (Machine.withTags s t) := h.of_eq rfl rfl rfl

theorem Inv.noteAccess {b : State} {e : Env} {k : Using} {pol : Nat} {vas : List DWord} {n : Nat} : Inv (Machine.noteAccess b e k pol vas n s) := by
  obtain ⟨htags, -⟩ := tagged_noteAccess b e k pol vas n s
  rw [htags]
  exact h.of_eq rfl rfl rfl

theorem Inv.prefLine {e : Env} {pol : Nat} {onlyL2 : Bool} {va : DWord} : Inv (Machine.prefLine e pol onlyL2 s va) := h.withTags

theorem Inv.flushTag {cluster : Nat} {mem wb : Bool} {line : Nat} : Inv (Machine.flushTag s cluster mem wb line) := h.of_eq rfl rfl rfl

theorem Inv.dropTlbOf {c : Nat} {vas : Option (List DWord)} : Inv (Machine.dropTlbOf s c vas) := h.of_eq rfl rfl rfl

/-! ## Templates, registers and barriers -/

theorem Inv.execFreeze {mark : Bool} {a : Reg} : GoesOn (Machine.execFreeze mark a s) := h.runWord fun _ => safe_ite h h.drainDie

theorem Inv.execTnest {mark : Bool} : GoesOn (Machine.execTnest mark s) := h.runWord fun _ => by
  split
  · exact safe_ite h (safe_ite h (safe_ite h (safe_ite h.modGroup h)))
  · exact h

theorem Inv.execTsignal {mark : Bool} {a : Reg} : GoesOn (Machine.execTsignal mark a s) := h.runWord fun _ => safe_ite h (by
  split
  · exact h.modGroup
  · exact h)

theorem Inv.execRgrow {mark : Bool} {n : BitVec 6} : GoesOn (Machine.execRgrow mark n s) := h.runWord fun _ => safe_ite h (safe_ite h.modGroup h)

theorem Inv.execRshrink {mark : Bool} {n : BitVec 6} : GoesOn (Machine.execRshrink mark n s) := h.runWord fun _ => safe_ite h (by
  split
  · exact h
  · exact h.modGroup)

theorem Inv.arrive {e : Env} {b : Nat} : Inv (Machine.arrive s e b) := h.modGroup

theorem Inv.execGbar {mark : Bool} {b : BitVec 3} : GoesOn (Machine.execGbar mark b s) := h.runWord fun _ => safe_ite h (safe_ite h h.arrive)

theorem Inv.execGangbar {mark : Bool} : GoesOn (Machine.execGangbar mark s) := h.runWord fun _ => safe_ite h h.modGroup

theorem Inv.execGarrive {mark : Bool} {d : Reg} {b : BitVec 3} : GoesOn (Machine.execGarrive mark d b s) :=
  h.runWord fun _ => safe_ite h (safe_ite h h.arrive.writeLanes)

theorem Inv.execGwait {hd : Hdr} {a : Reg} {b : BitVec 3} : GoesOn (Machine.execGwait hd a b s) := h.runWord fun _ => safe_ite h h

theorem Inv.execLaunch {hd : Hdr} {d a : Reg} : GoesOn (Machine.execLaunch hd d a s) := h.runWord fun _ => by
  dsimp only
  split
  · exact h
  · exact h.afterRelease fun _ ht => ht.modCore.writeLanes

theorem Inv.giveWay {e : Env} : Inv (Machine.giveWay e s) := inv_ite h.modWarp.modCore h.modWarp

theorem Inv.execYield {mark : Bool} : GoesOn (Machine.execYield mark s) := h.runWord fun _ => h.giveWay

theorem Inv.execSleep {hd : Hdr} {a : Reg} : GoesOn (Machine.execSleep hd a s) := h.runWord fun _ => safe_ite h (safe_ite h.giveWay h)

/-! ## Loads and stores -/

theorem Inv.mayBindLate {e : Env} {m : MemMod} {d : Reg} {sp a l : Nat} : Inv (Machine.mayBindLate s e m d sp a l) := inv_ite h (h.of_eq rfl rfl rfl)

theorem Inv.loadLane {e : Env} {b : State} {m : MemMod} {d a : Reg} {off : BitVec 8} {l : Nat} : Keeps (Machine.loadLane e b m d a off s l) :=
  gives_seq fun _ => gives_seq fun _ => gives_pure h.afterRead.mayBindLate

theorem Inv.execLd {hd : Hdr} {m : MemMod} {d a : Reg} {off : BitVec 8} : GoesOn (Machine.execLd hd m d a off s) :=
  h.runWord fun _ => h.lanesThen (fun _ _ ht => ht.loadLane) fun _ u ht => by
    refine Inv.laterValue (Inv.noteAccess ?_)
    exact ht.of_eq rfl rfl rfl

theorem Inv.storeLane {e : Env} {b : State} {m : MemMod} {d a : Reg} {off : BitVec 8} {l : Nat} : Keeps (Machine.storeLane e b m d a off s l) :=
  gives_seq fun _ => h.storeThrough

theorem Inv.execSt {hd : Hdr} {m : MemMod} {d a : Reg} {off : BitVec 8} : GoesOn (Machine.execSt hd m d a off s) :=
  h.runWord fun _ => h.afterRelease fun _ ht => ht.lanesThen (fun _ _ hu => hu.storeLane) fun _ _ hu => safe_ite ht hu.noteAccess

theorem Inv.execLds {hd : Hdr} {m : MemMod} {d a : Reg} {off : BitVec 8} : GoesOn (Machine.execLds hd m d a off s) :=
  h.runWord fun _ => h.lanesThen (fun _ _ ht => ht.pureLane) fun _ _ ht => Inv.laterValue (ht.countBanks.foldl (fun _ _ hu => hu.readCredit) _)

theorem Inv.execSts {hd : Hdr} {m : MemMod} {d a : Reg} {off : BitVec 8} : GoesOn (Machine.execSts hd m d a off s) :=
  h.runWord fun _ => h.lanesThen (fun _ _ ht => ht.pureLane) fun _ _ ht => Inv.countBanks (ht.foldl (fun _ _ hu => hu.writeSpm) _)

theorem Inv.execPref {hd : Hdr} {pol : BitVec 3} {l2 : Bool} {a : Reg} {off : BitVec 8} : GoesOn (Machine.execPref hd pol l2 a off s) :=
  h.runWord fun _ => h.foldl (fun _ _ ht => ht.prefLine) _

theorem Inv.zfillLane {e : Env} {b : State} {a : Reg} {off : BitVec 8} {l : Nat} : Keeps (Machine.zfillLane e b a off s l) :=
  gives_seq fun _ => h.writeTarget.bind fun _ ht => gives_pure ht

theorem Inv.execZfill {hd : Hdr} {rel : Bool} {scope : Scope} {a : Reg} {off : BitVec 8} : GoesOn (Machine.execZfill hd rel scope a off s) :=
  h.runWord fun _ => h.afterRelease fun _ ht => ht.lanesThen (fun _ _ hu => hu.zfillLane) fun _ _ hu =>
    Inv.noteAccess (hu.foldl (fun _ _ hv => hv.storeView) _)

/-! ## Flushes -/

theorem Inv.lineToMem {a : Nat} : Inv (Machine.lineToMem s a) := by
  unfold Machine.lineToMem
  refine inv_ite h.failLine (h.foldl (fun t i ht => ?_) _)
  split
  · exact ht.memPut
  · exact ht

theorem Inv.dropWrite {p : PendWrite} : Inv (Machine.dropWrite s p) := h.foldl (fun _ _ ht => inv_ite ht.putHomeByte ht) _

theorem Inv.discLine {cluster : Nat} {mem : Bool} {sp a : Nat} : Inv (Machine.discLine s cluster mem sp a) := by
  unfold Machine.discLine
  extract_lets hit s1
  have h1 : Inv s1 := Inv.foldl (h.of_eq rfl rfl rfl : Inv { s with pend := s.pend.filter fun p => !hit p }) (fun _ _ ht => ht.dropWrite) _
  refine inv_ite (h1.foldl (fun t i ht => ?_) _) h1
  split
  · split
    · exact ht.memPut
    · exact ht.of_eq rfl rfl rfl
  · exact ht

theorem Inv.cleanLine {die : Nat} {mem : Bool} {sp a : Nat} : Inv (Machine.cleanLine s die mem sp a) := inv_ite h.drainIf.lineToMem h.drainIf

theorem Inv.execCflush {hd : Hdr} {op : FlushOp} {mem : Bool} {a : Reg} {off : BitVec 8} : GoesOn (Machine.execCflush hd op mem a off s) :=
  h.runWord fun _ => h.lanesThen (fun _ _ ht => ht.pureLane) fun _ _ ht =>
    ht.foldl (fun _ _ hu => Inv.flushTag (inv_ite (inv_ite hu.modGroup hu.discLine) hu.cleanLine)) _

theorem Inv.execMapq {hd : Hdr} {fill : Bool} {d a : Reg} : GoesOn (Machine.execMapq hd fill d a s) :=
  h.runWord fun _ => h.lanesThen (fun _ _ ht => ht.pureLane) fun _ _ ht => ht.laterValue

/-! ## Queues and edges -/

theorem Inv.modQueueOf {graph q : Nat} {f : Queue → Queue} : Inv (Machine.modQueueOf s graph q f) := h.modGraph

theorem Inv.pushLane {e : Env} {b : State} {q : Queue} {w : MovW} {a : Reg} {l : Nat} : Keeps (Machine.pushLane e b q w a s l) :=
  gives_seq fun _ => h.storeThrough

theorem Inv.pushLanes {e : Env} {graph q : Nat} {u : Queue} {w : MovW} {a : Reg} {k : State → WordRes} (hk : ∀ t, Inv t → (k t).Safe) :
    (Machine.pushLanes e s graph q u w a k).Safe := h.lanesThen (fun _ _ ht => ht.pushLane) fun _ _ ht => hk _ ht.modQueueOf

theorem Inv.popLanes {e : Env} {graph q : Nat} {u : Queue} {w : MovW} {d c : Reg} {k : State → WordRes} (hk : ∀ t, Inv t → (k t).Safe) :
    (Machine.popLanes e s graph q u w d c k).Safe := h.lanesThen (fun _ _ ht => ht.pureLane) fun _ _ ht => hk _ ht.writeLanes.writeLanes.modQueueOf

theorem Inv.execQpush {hd : Hdr} {w : MovW} {q : BitVec 8} {a : Reg} : GoesOn (Machine.execQpush hd w q a s) := h.runWord fun _ => safe_ite h (by
  split
  · exact h
  · exact safe_ite h (safe_ite (h.pushLanes fun _ ht => ht) h))

theorem Inv.execQpop {hd : Hdr} {w : MovW} {q : BitVec 8} {d c : Reg} : GoesOn (Machine.execQpop hd w q d c s) := h.runWord fun _ => safe_ite h (by
  split
  · exact h
  · exact safe_ite (h.popLanes fun _ ht => ht) h)

theorem Inv.execQclose {hd : Hdr} {q : BitVec 8} : GoesOn (Machine.execQclose hd q s) := h.runWord fun _ => safe_ite h (by
  split
  · exact h
  · exact h.modQueueOf)

theorem Inv.satisfyEdge {g n k : Nat} : Inv (Machine.satisfyEdge s g n k) := by
  unfold Machine.satisfyEdge
  split
  · exact h
  · exact inv_ite h h.modNode

theorem Inv.execNodesig {hd : Hdr} {k : BitVec 3} : GoesOn (Machine.execNodesig hd k s) := h.runWord fun _ => h.afterRelease fun t ht => by
  split
  · exact ht
  · split
    · exact ht
    · split
      · exact ht
      · exact safe_ite ht ht.modNode.satisfyEdge

/-! ## Atomics -/

theorem Inv.rmwPlace {e : Env} {p : Place} {off : BitVec 8} {n l : Nat} : Keeps (Machine.rmwPlace s e p off n l) := by
  unfold Machine.rmwPlace
  split
  · split
    · exact gives_ok h
    · exact gives_error _
  · refine gives_seq fun lf => gives_ite (gives_error _) (h.writeTarget.bind fun ⟨t, pa⟩ ht => gives_ite (gives_error _) (gives_pure ht))

theorem Inv.rmwFirst {e : Env} {sp a n : Nat} : Inv (Machine.rmwFirst s e sp a n) := inv_ite h h.bindOver.drainAt

theorem Inv.rmwPut {e : Env} {m : AtMod} {l sp a n new : Nat} {acc : Option (Region × ExactAcc)} : Inv (Machine.rmwPut s e m l sp a n new acc) := by
  unfold Machine.rmwPut
  refine inv_ite h.readCredit.writeSpm ?_
  extract_lets s0 rels rel s1
  have h1 : Inv s1 := h.afterRead.homeWrite
  split
  · exact h1.modRegion
  · exact h1

theorem Inv.rmwRun {e : Env} {m : AtMod} {n : Nat} {exact_ : Bool} {operand : Nat → Nat} {f : Nat → Nat → Nat} (at_ : List (Nat × (Nat × Nat × DWord))) :
    Inv (Machine.rmwRun e m n exact_ operand f at_ s).1 := by
  induction at_ generalizing s with
  | nil => exact h
  | cons x r ih =>
    obtain ⟨l, sp, a, va⟩ := x
    rw [Machine.rmwRun]
    extract_lets rest
    have hrest : Inv rest.1 := ih h.rmwFirst.rmwPut
    clear_value rest
    split
    · exact h
    · exact hrest

theorem Inv.rmwWord {i : Instr} {m : AtMod} {p : Place} {off : BitVec 8} {b : Reg} {n : Nat} {d : Option Reg} {fl : AaddOp} {f : Nat → Nat → Nat} :
    GoesOn (Machine.rmwWord i s m p off b n d fl f) := h.runWord fun e => h.afterRelease fun t ht => by
  refine safe_ite ht (ht.lanesThen (fun u l hu => hu.rmwPlace.bind fun x hx => gives_ite (gives_error _) (gives_pure hx)) fun u at_ hu => ?_)
  refine safe_ite ht (safe_ite ht ?_)
  extract_lets r mask done cnt
  have hcnt : Inv cnt := inv_ite (hu.rmwRun at_).noteAccess (hu.rmwRun at_).countBanks
  have hdone : Inv (done cnt) := by
    unfold done
    split
    · exact hcnt.laterValue
    · exact hcnt
  split
  · exact hdone
  · exact hdone

/-! ## Fences -/

theorem Inv.fenceDrain {die : Nat} {ord : FenceOrd} {sc : Scope} : Inv (Machine.fenceDrain s die ord sc) := inv_ite h.bindDie.drainIf h

theorem Inv.fenceEdges {die g w : Nat} {live : Mask} {ord : FenceOrd} {sc : Scope} : Inv (Machine.fenceEdges s die g w live ord sc) := by
  unfold Machine.fenceEdges
  refine inv_ite h ?_
  extract_lets s1 s2 v
  have h1 : Inv s1 := by
    refine inv_ite h ?_
    split
    · exact h
    · exact h.foldl (fun _ _ ht => inv_ite ht.learn.learn ht.learn) _
  have h2 : Inv s2 := inv_ite h1.sendAlong.learn h1
  exact inv_ite h2 h2.modWarp

theorem Inv.fenceThen {e : Env} {ord : FenceOrd} {sc : Scope} {k : State → WordRes} (hk : ∀ t, Inv t → (k t).Safe) : (Machine.fenceThen e s ord sc k).Safe :=
  safe_ite h (safe_ite (hk _ h.fenceDrain.fenceEdges) h.fenceDrain)

theorem Inv.execFence {hd : Hdr} {ord : FenceOrd} {sc : Scope} : GoesOn (Machine.execFence hd ord sc s) := h.runWord fun _ => h.fenceThen fun _ ht => ht

end
end Sys2Proof.Machine
end

section
/-! PROOFS. What every step keeps: waits on memory, and regions. -/

namespace Sys2Proof.Machine

section
variable {s : State} (h : Inv s)
include h

/-! ## The return from a handler -/

theorem Inv.returnFromHandler {e : Env} {next : Bool} : (Machine.returnFromHandler s e next).Safe := by
  unfold Machine.returnFromHandler
  split
  · exact h
  extract_lets s1
  have h1 : Inv s1 := h.drainDie
  clear_value s1
  split
  · exact h
  · exact h
  · trivial
  extract_lets entry out
  split
  · next s2 hw =>
    have h2 : Inv s2 := h1.devWrite hw
    exact Inv.modWarp (h2.foldl (fun _ _ ht => ht.ownRow) _)
  · exact h
  · exact h
  · trivial

/-! ## Waits on memory -/

theorem Inv.watchLearn {b : State} {e : Env} {acq : Bool} {sc : Scope} {spm wide : Bool} {ls : List Watch} :
    Inv (Machine.watchLearn b e acq sc spm wide ls s) := h.foldl (fun _ _ ht => inv_ite ht.readCredit ht.afterRead) _

theorem Inv.writeStatus {g w d : Nat} {locs : List Watch} : Inv (Machine.writeStatus s g w d locs) := h.foldl (fun _ _ ht => ht.writeReg) _

theorem Inv.settleWait {g w : Nat} {x : HoldRec} {locs : Except (Nat × DWord) (List Watch)} {stop : Bool} : Inv (Machine.settleWait s g w x locs stop) := by
  unfold Machine.settleWait
  split
  · split
    · split
      · exact h.dropHold.takeFault
      · exact h
    · extract_lets s1
      have h1 : Inv s1 := by
        unfold s1
        split
        · exact h.watchLearn
        · exact h
      exact inv_ite h1.writeStatus.modWarp h1.modWarp
  · exact h

theorem Inv.execWaita {hd : Hdr} {acq : Bool} {scope : Scope} {cond : WaitCond} {w : Bool} {p : Place} {d b : Reg} {tmo : Option Reg} :
    GoesOn (Machine.execWaita hd acq scope cond w p d b tmo s) := h.runWord fun e => safe_ite h (safe_ite h (by
  extract_lets n spm
  refine h.lanesThen (fun _ _ ht => ht.pureLane) fun u0 at_ h0 => ?_
  extract_lets locs
  split
  · exact h
  · extract_lets u room
    have hu : Inv u := Inv.watchLearn (inv_ite h0 h0.noteAccess)
    exact safe_ite hu.writeLanes (hu.of_eq rfl rfl rfl)))

theorem Inv.wakeOne {key n : Nat} {x : Nat × Nat × HoldRec} : Inv (Machine.wakeOne s key n x) := by
  unfold Machine.wakeOne
  split
  · exact h.settleWait
  · exact h

theorem Inv.execWakea {hd : Hdr} {rel : Bool} {scope : Scope} {w : Bool} {p : Place} {b : Reg} : GoesOn (Machine.execWakea hd rel scope w p b s) :=
  h.runWord fun _ => safe_ite h (h.afterRelease fun _ ht => ht.lanesThen (fun _ _ hu => hu.pureLane) fun _ _ hu =>
    hu.foldl (fun _ _ hx => hx.foldl (fun _ _ hz => hz.wakeOne) _) _)

theorem Inv.bcWord {i : Instr} {w add : Bool} {a b : Reg} {off : BitVec 8} : GoesOn (Machine.bcWord i s w add a b off) :=
  h.runWord fun _ => h.lanesThen (fun _ _ ht => ht.pureLane) fun _ _ ht => Inv.countBanks (ht.foldl (fun _ _ hu => hu.writeSpm) _)

theorem Inv.execBcinit {hd : Hdr} {rel : Bool} {scope : Scope} {w : Bool} {a b : Reg} {off : BitVec 8} :
    GoesOn (Machine.execBcinit hd rel scope w a b off s) := h.bcWord

theorem Inv.execBcadd {hd : Hdr} {rel : Bool} {scope : Scope} {w : Bool} {a b : Reg} {off : BitVec 8} :
    GoesOn (Machine.execBcadd hd rel scope w a b off s) := h.bcWord

/-! ## Regions -/

theorem Inv.putNode {r : Region} {k j : Nat} : Inv (Machine.putNode s r k j) := h.putHomeBytes

theorem Inv.putLevels {r : Region} {ks : List Nat} : Inv (Machine.putLevels s r ks) :=
  h.foldl (fun _ _ ht => ht.foldl (fun _ _ hu => hu.putNode) _) _

theorem Inv.applyAt {r : Region} {i : Nat} : Inv (Machine.applyAt s r i) := by
  unfold Machine.applyAt
  split
  · exact h
  · exact Inv.retryAccept (Inv.foldl (Inv.modRegion (inv_ite h h.mend)) (fun _ _ ht => ht.putNode) _)

theorem Inv.execUpdateRecordApply {region : Nat} : GoesOn (Machine.execUpdateRecordApply region s) := by
  unfold Machine.execUpdateRecordApply
  split
  · refine goesOn_next ?_
    split
    · exact h.applyAt
    · exact h
  · exact goesOn_next h

theorem Inv.rangeWord {i : Instr} {op : Nat} {ty : OrTy} {d a b : Reg} {n : Nat} {x : Env → State → Nat → DWord} :
    GoesOn (Machine.rangeWord i s op ty d a b n x) := h.runWord fun _ => h.lanesThen (fun _ _ ht => ht.pureLane) fun _ _ ht => ht.laterLanes

theorem Inv.execLdrs {hd : Hdr} {ty : OrTy} {d a b : Reg} : GoesOn (Machine.execLdrs hd ty d a b s) := h.rangeWord

theorem Inv.execLdrm {hd : Hdr} {ty : OrTy} {idx : Bool} {d a b : Reg} : GoesOn (Machine.execLdrm hd ty idx d a b s) := h.rangeWord

theorem Inv.execLdpfx {hd : Hdr} {ty : OrTy} {d a b c : Reg} : GoesOn (Machine.execLdpfx hd ty d a b c s) := h.rangeWord

theorem Inv.execLdpick {hd : Hdr} {ty : OrTy} {d a b c : Reg} : GoesOn (Machine.execLdpick hd ty d a b c s) := h.rangeWord

theorem Inv.execRangeLoadAnswer {group warp idx : Nat} : GoesOn (Machine.execRangeLoadAnswer group warp idx s) := by
  refine goesOn_next ?_
  split
  · split
    · exact h
    · refine inv_ite h ?_
      split
      · exact h.modWarp.modGroup.deferTo
      · exact h.modWarp
  · exact h

theorem Inv.execOrdecl {hd : Hdr} {a : Reg} : GoesOn (Machine.execOrdecl hd a s) := h.runWord fun _ => h.fenceThen fun t ht => by
  extract_lets num va
  split
  · trivial
  · exact ht
  · split
    · trivial
    · exact ht
    · split
      · exact ht
      · exact safe_ite ht (ht.of_eq rfl rfl rfl)

theorem Inv.execOrbuild {hd : Hdr} {a : Reg} : GoesOn (Machine.execOrbuild hd a s) := h.runWord fun _ => h.fenceThen fun t ht => by
  dsimp only
  split
  · exact ht
  · exact safe_ite ht ht.modRegion

theorem Inv.execOrdrop {hd : Hdr} {a : Reg} : GoesOn (Machine.execOrdrop hd a s) := h.runWord fun _ => h.fenceThen fun t ht => by
  dsimp only
  split
  · exact ht
  · exact safe_ite ht ht

theorem Inv.rebuild {r : Region} {first : Bool} : Inv (Machine.rebuild s r first) := h.modRegion.putLevels

theorem Inv.execRegionBuildComplete {group warp hold : Nat} : GoesOn (Machine.execRegionBuildComplete group warp hold s) := by
  refine goesOn_next ?_
  split
  · split
    · refine inv_ite h ?_
      split
      · exact h.modWarp
      · refine inv_ite ?_ ?_
        · refine Inv.modWarp ?_
          exact h.putLevels.of_eq rfl rfl rfl
        · split
          · refine Inv.takeFault (Inv.retryAccept (Inv.dropHold ?_))
            exact h.of_eq rfl rfl rfl
          · exact h.rebuild.retryAccept.modWarp
    · exact h
  · exact h

theorem Inv.execTfence {hd : Hdr} {a : Option Reg} : GoesOn (Machine.execTfence hd a s) := h.runWord fun _ => safe_ite h (by
  dsimp only
  split
  · exact safe_ite h (safe_ite h h)
  · exact safe_ite h h)

theorem Inv.execTfenceRelease {group warp hold : Nat} : GoesOn (Machine.execTfenceRelease group warp hold s) := by
  refine goesOn_next ?_
  split
  · split
    · exact inv_ite h.modWarp h
    · exact h
  · exact h

theorem Inv.execFenceRelease {group warp hold : Nat} : GoesOn (Machine.execFenceRelease group warp hold s) := by
  refine goesOn_next ?_
  split
  · split
    · refine inv_ite ?_ h
      split
      · exact h.fenceEdges.modWarp
      · exact h.dropHold
    · exact inv_ite h h.modWarp
    · exact h
  · exact h

end
end Sys2Proof.Machine
end

section
/-! PROOFS. What every step keeps: tensor entries, futures and the matrix queue. -/

namespace Sys2Proof.Machine

section
variable {s : State} (h : Inv s)
include h

/-! ## Tensor entries -/

theorem Inv.dropEntries {ctx tid : Nat} : Inv (Machine.dropEntries s ctx tid) := h.of_eq rfl rfl rfl

theorem Inv.execTaddr {hd : Hdr} {chk : Bool} {d a b : Reg} : GoesOn (Machine.execTaddr hd chk d a b s) := h.runWord fun _ =>
  h.lanesThen (fun _ _ ht => ht.pureLane) fun _ _ ht => safe_ite ht.writeLanes ht.modWarp

theorem Inv.entryArrives {gr : Group} {w idx tid : Nat} : Inv (Machine.entryArrives s gr w idx tid) := by
  unfold Machine.entryArrives
  extract_lets s1 va
  have h1 : Inv s1 := h.modWarp
  clear_value s1
  split
  · exact inv_ite h1 (h1.of_eq rfl rfl rfl)
  · exact h1

theorem Inv.storeEntry {b : State} {e : Env} {l tid off : Nat} {data : List Byte} : Gives Inv (Machine.storeEntry b s e l tid off data) := by
  unfold Machine.storeEntry
  refine gives_seq fun lf => h.storeThrough.bind fun ⟨t, _⟩ ht => gives_pure ?_
  refine Inv.dropEntries (Inv.modCtx ht ?_)
  exact fun _ hx => hx

theorem Inv.tidsetLane {e : Env} {b : State} {p : Place} {r : Reg} {l : Nat} : Keeps (Machine.tidsetLane e b p r s l) := by
  unfold Machine.tidsetLane
  exact gives_seq fun _ => gives_ite (gives_error _) (h.storeEntry.bind fun _ ht => gives_pure ht)

theorem Inv.execTidset {hd : Hdr} {p : Place} {b : Reg} : GoesOn (Machine.execTidset hd p b s) := h.runWord fun _ =>
  h.lanesThen (fun _ _ ht => ht.tidsetLane) fun _ _ ht => ht

theorem Inv.clearEntry {b : State} {e : Env} {l tid : Nat} : Gives Inv (Machine.clearEntry b s e l tid) := gives_seq fun _ => gives_seq fun _ => h.storeEntry

theorem Inv.tidinvLane {e : Env} {b : State} {r : Option Reg} {l : Nat} : Keeps (Machine.tidinvLane e b r s l) := by
  cases r with
  | some r => exact h.clearEntry.bind fun _ ht => gives_pure ht
  | none => exact gives_ite ((gives_foldlM (fun _ _ ht => ht.clearEntry) _ h).bind fun _ ht => gives_pure ht) (gives_ok h)

theorem Inv.execTidinv {hd : Hdr} {b : Option Reg} : GoesOn (Machine.execTidinv hd b s) := h.runWord fun _ =>
  h.lanesThen (fun _ _ ht => ht.tidinvLane) fun _ _ ht => ht

/-! ## Futures -/

theorem Inv.allocFuture {g idx kind op : Nat} : Inv (Machine.allocFuture s g idx kind op).1 := h.modGroup

/-- A write to a frame that is tried and dropped where it is refused. -/
theorem Inv.devWriteTried {c : Nat} {gen : Nat → Option Nat} {va : DWord} {align : Nat} {data : List Byte} :
    Inv (match Machine.devWrite s c gen va align data with | .ok x => x | _ => s) := by
  split
  · next hw => exact h.devWrite hw
  · exact h

theorem Inv.resolveFrame {gr : Group} {w v : Word} {i : Nat} {wp : Warp} : Inv (Machine.resolveFrame s gr w v i wp) := by
  unfold Machine.resolveFrame
  split
  · exact h
  · refine h.foldl (fun t p ht => ?_) _
    dsimp only
    refine Inv.modWarp ?_
    split
    · exact ht.devWriteTried.devWriteTried
    · exact ht.devWriteTried

theorem Inv.joinOps {e : Env} {a : Reg} {lanes : Mask} : Inv (Machine.joinOps s e a lanes) := h.foldl (fun t l ht => by
  split
  · exact inv_ite ht.learn ht
  · exact ht) _

theorem Inv.hwaitLanes {e : Env} {d a : Reg} {lanes : Mask} : Inv (Machine.hwaitLanes s e d a lanes) := h.joinOps.writeLanes

theorem Inv.settleHwait {g i : Nat} {x : HoldRec} : Inv (Machine.settleHwait s g i x) := by
  unfold Machine.settleHwait
  split
  · exact inv_ite h (inv_ite h.hwaitLanes.modWarp h.hwaitLanes.modWarp)
  · exact h

theorem Inv.settleHwaits {g : Nat} : Inv (Machine.settleHwaits s g) := by
  unfold Machine.settleHwaits
  split
  · exact h
  · refine h.foldl (fun t i ht => ?_) _
    split
    · exact ht.foldl (fun _ _ hu => hu.settleHwait) _
    · exact ht

theorem Inv.resolveFuture {g w : Nat} {handle : Word} {stat cls : Nat} {err : Option (Code × DWord × DWord)} :
    Inv (Machine.resolveFuture s g w handle stat cls err) := by
  unfold Machine.resolveFuture
  split
  · exact h
  extract_lets v waiting s1 s2 joined op s3
  have h2 : Inv s2 := h.modGroup.foldl (fun t i ht => by
    split
    · exact ht.resolveFrame
    · exact ht) _
  have h3 : Inv s3 := by
    unfold s3
    clear_value s2 op
    split
    · exact (inv_ite h2.learn h2).settleHwaits
    · exact h2.settleHwaits
  split
  · exact h3
  · split
    · split
      · exact h3.takeFault
      · exact h3
    · exact h3.deferTo

theorem Inv.engineWrite {op die sp a : Nat} {data : List Byte} : Inv (Machine.engineWrite s op die sp a data).1 := by
  unfold Machine.engineWrite
  split
  · exact h
  · exact h.drainAt.homeWrite

theorem Inv.joinWalkers {e : Env} : Inv (Machine.joinWalkers s e) := h.modCore

theorem Inv.leaveWalkers {e : Env} : Inv (Machine.leaveWalkers s e) := inv_ite h h.modCore.retryAccept

theorem Inv.reserveThen {e : Env} {u : State} {lanes : Mask} (hu : Inv u) : (Machine.reserveThen e s u lanes).Safe := safe_ite h.joinWalkers hu.leaveWalkers

theorem Inv.creditBarrier {op g off n : Nat} : Inv (Machine.creditBarrier s op g off n) := by
  unfold Machine.creditBarrier
  split
  · exact h
  · exact h.writeSpm.modGroup

/-! ## The matrix queue -/

theorem Inv.modSlot {c p : Nat} {f : AccSlot → AccSlot} : Inv (Machine.modSlot s c p f) := h.modCore

theorem Inv.setMacro {c m : Nat} {x : Macro} : Inv (Machine.setMacro s c m x) := h.mend.modCore

theorem Inv.claimSlots {t : State} {e : Env} {ls : List Nat} (hc : Machine.claimSlots s e ls = some t) : Inv t := by
  induction ls generalizing s with
  | nil => exact Option.some.inj hc ▸ h
  | cons l r ih =>
    rw [Machine.claimSlots] at hc
    split at hc
    · exact ih h hc
    · split at hc
      · cases hc
      · exact ih h.modSlot.modGroup hc

theorem Inv.addMat {e : Env} {k : MatKind} {block : List Byte} {barrier : Option Nat} {tags : List (Nat × TagRec)} {ps : Pages} :
    Inv (Machine.addMat s e k block barrier tags ps).1 := h.of_eq rfl rfl rfl

theorem Inv.matWord {i : Instr} {f : Env → State → Nat → Except LaneFault (State × Option Hold)} (hf : ∀ e t l, Inv t → Keeps (f e t l)) :
    GoesOn (Machine.matWord i s f) := h.runWord fun e => safe_ite h (safe_ite h (h.lanesThen (hf e) fun u as hu => by
  split
  · exact h
  · exact h.reserveThen hu))

theorem Inv.acceptLoad {e : Env} {p : Place} {l : Nat} : Keeps (Machine.acceptLoad e p s l) := fun ⟨v, k⟩ hx => by
  obtain ⟨va, b, bar, t, tag, ps, -, -, -, -, -, rfl⟩ := acceptLoad_ok hx
  exact h.modGroup.addMat

theorem Inv.execMbload {hd : Hdr} {p : Place} : GoesOn (Machine.execMbload hd p s) := h.matWord fun _ _ _ ht => ht.acceptLoad

theorem Inv.acceptMul {e : Env} {d : Reg} {p : Place} {l : Nat} : Keeps (Machine.acceptMul e d p s l) := fun ⟨v, k⟩ hx => by
  obtain ⟨-, rfl⟩ | ⟨va, b, a, tags, ps, idx, u1, pairs, planes, -, -, -, hclaim, -, -, rfl⟩ := acceptMul_ok hx
  · exact h
  · exact (h.claimSlots hclaim).allocFuture.addMat.writeReg.modWarp

theorem Inv.execMmul {hd : Hdr} {d : Reg} {p : Place} : GoesOn (Machine.execMmul hd d p s) := h.matWord fun _ _ _ ht => ht.acceptMul

theorem Inv.acceptStream {e : Env} {op : Nat} {p : Place} {l : Nat} : Keeps (Machine.acceptStream e op p s l) := fun ⟨v, k⟩ hx => by
  obtain ⟨-, rfl⟩ | ⟨va, b, t, ps, u1, sel, -, hclaim, -, rfl⟩ := acceptStream_ok hx
  · exact h
  · exact (h.claimSlots hclaim).addMat

theorem Inv.execMtrans {hd : Hdr} {p : Place} : GoesOn (Machine.execMtrans hd p s) := h.matWord fun _ _ _ ht => ht.acceptStream

theorem Inv.execMperm {hd : Hdr} {p : Place} : GoesOn (Machine.execMperm hd p s) := h.matWord fun _ _ _ ht => ht.acceptStream

theorem Inv.execMrsum {hd : Hdr} {p : Place} : GoesOn (Machine.execMrsum hd p s) := h.matWord fun _ _ _ ht => ht.acceptStream

theorem Inv.slotWord {i : Instr} {slot : BitVec 3} {f : Env → State → Nat → State} (hf : ∀ e t p, Inv t → Inv (f e t p)) :
    GoesOn (Machine.slotWord i s slot f) := h.runWord fun e => safe_ite h (safe_ite h (by
  split
  · exact h
  · next u hclaim => exact hf e u _ (h.claimSlots hclaim)))

theorem Inv.execMaccrd {hd : Hdr} {w8 pair : Bool} {d : Reg} {slot : BitVec 3} {col : BitVec 6} : GoesOn (Machine.execMaccrd hd w8 pair d slot col s) :=
  h.slotWord fun _ _ _ ht => ht.addMat.laterLanes.modWarp

theorem Inv.execMaccwr {hd : Hdr} {w8 pair : Bool} {a : Reg} {slot : BitVec 3} {col : BitVec 6} : GoesOn (Machine.execMaccwr hd w8 pair a slot col s) :=
  h.slotWord fun _ _ _ ht => ht.addMat

theorem Inv.execMaccz {hd : Hdr} {free : Bool} {slots : BitVec 8} : GoesOn (Machine.execMaccz hd free slots s) := h.runWord fun _ =>
  safe_ite h (safe_ite h (inv_ite h.addMat.modGroup h.addMat))

theorem Inv.accWrites {e : Env} {ps : Pages} {va len : Nat} : Gives Inv (Machine.accWrites e ps s va len) :=
  gives_ite (gives_ok h) (gives_foldlM (fun t a ht => by
    refine gives_ite (gives_ok ht) (gives_ite (gives_error _) ?_)
    split
    · exact gives_ite (ht.privateLine.map fun _ hp => hp) (gives_error _)
    · split
      · exact gives_error _
      · exact gives_ok ht) _ h)

theorem Inv.acceptEpi {e : Env} {p : Place} {l : Nat} : Keeps (Machine.acceptEpi e p s l) := by
  unfold Machine.acceptEpi
  refine gives_seq fun _ => gives_seq fun _ => gives_seq fun _ => gives_seq fun _ => gives_seq fun _ => gives_seq fun _ => gives_seq fun _ =>
    gives_seq fun _ => gives_seq fun _ => gives_seq fun _ => gives_seq fun _ => gives_seq fun _ => gives_seq fun _ => gives_seq fun _ =>
    gives_seq fun _ => gives_seq fun _ => gives_seq fun ps => ?_
  extract_lets goOn
  have hgoOn : ∀ x, Keeps (goOn x) := fun x => (gives_foldlM (fun _ _ ht => ht.accWrites) _ h).bind fun _ h1 => h1.accWrites.bind fun u2 h2 => by
    split
    · exact gives_pure h
    · next hclaim => exact gives_pure (h2.claimSlots hclaim).addMat
  exact gives_ite (hgoOn ()) (gives_seq (Q := fun p : State × Option Hold => Inv p.1) fun x => hgoOn x)

theorem Inv.execMepi {hd : Hdr} {p : Place} : GoesOn (Machine.execMepi hd p s) := h.matWord fun _ _ _ ht => ht.acceptEpi

/-! ## The turns of the operations -/

theorem Inv.ensureTile {gr : Group} {m : MatOp} {no : Nat} : Keeps (Machine.ensureTile s gr m no) := by
  unfold Machine.ensureTile
  split
  · exact gives_ok h
  · extract_lets x
    split
    · exact gives_ok h
    · exact gives_seq fun _ => gives_pure h.setMacro

theorem Inv.mulRow {gr : Group} {m : MatOp} {a : Tensor} {planes r m0 i2 i3 : Nat} {pairs : List (Nat × Nat × Nat)} :
    Gives Inv (Machine.mulRow s gr m a planes r m0 i2 i3 pairs) :=
  gives_ite (gives_ok h) (gives_foldlM (fun _ _ ht => ht.ensureTile.bind fun ⟨_, _⟩ hu => gives_seq fun _ => gives_pure hu.modSlot) _ h)

theorem Inv.streamRow {gr : Group} {m : MatOp} {op no slot first kstart : Nat} {sel : List Nat} {i : Nat} :
    Gives Inv (Machine.streamRow s gr m op no slot first kstart sel i) := h.ensureTile.bind fun ⟨_, _⟩ ht => gives_pure ht.modSlot

theorem Inv.opWrite {gr : Group} {m : MatOp} {va : Nat} {data : List Byte} : Inv (Machine.opWrite s gr m va data) := h.engineWrite

theorem Inv.epiStores {gr : Group} {m : MatOp} {t : Tensor} {xs : List Nat} {row col0 i2 i3 : Nat} : Keeps (Machine.epiStores s gr m t xs row col0 i2 i3) := by
  unfold Machine.epiStores
  extract_lets code
  refine gives_foldlM (P := fun p : State × Nat => Inv p.1) (fun a c ha => gives_ite (gives_pure ha) (gives_seq fun x => ?_)) _ h
  split
  · exact gives_seq fun _ => gives_pure ha.opWrite
  · exact gives_seq fun _ => gives_pure ha.opWrite

theorem Inv.epiTurn {gr : Group} {m : MatOp} {t : Tensor} {slot r cols row0 col0 i2 i3 rs cs bias stats act : Nat} {smerge clear nostore : Bool} :
    Keeps (Machine.epiTurn s gr m t slot r cols row0 col0 i2 i3 rs cs bias stats act smerge clear nostore) := by
  unfold Machine.epiTurn
  refine gives_seq fun xs => ?_
  extract_lets rowIn z goOn
  have hgoOn : ∀ p : State × Nat, Inv p.1 → Keeps (goOn p) := fun (s1, n) h1 => by
    unfold goOn
    dsimp -zeta only
    extract_lets clearing storing
    have hclearing : ∀ p : State × Nat, Inv p.1 → Keeps (clearing p) := fun _ h2 => gives_pure (inv_ite h2.modSlot h2)
    clear_value clearing
    have hstoring : ∀ p, Keeps (storing p) := fun _ => (gives_pure (P := fun p : State × Nat => Inv p.1) h1.opWrite).bind hclearing
    clear_value storing
    exact gives_ite ((gives_pure (P := fun p : State × Nat => Inv p.1) (a := (s1, 0)) h1).bind hclearing)
      (gives_ite (gives_seq fun _ => gives_seq fun _ => hstoring _) (gives_seq fun _ => hstoring _))
  clear_value goOn
  exact gives_ite ((gives_pure (P := fun p : State × Nat => Inv p.1) (a := (s, 0)) h).bind hgoOn) (h.epiStores.bind hgoOn)

theorem Inv.turnOf {gr : Group} {m : MatOp} : Keeps (Machine.turnOf s gr m) := by
  unfold Machine.turnOf
  split
  · refine gives_ite (gives_ok h) ?_
    split
    · exact gives_ok h.setMacro
    · exact gives_error _
  · exact h.mulRow.map fun _ ht => ht
  · exact h.streamRow.map fun _ ht => ht
  · exact gives_ok h.modWarp
  · exact gives_ok h.modSlot
  · exact gives_ok (Inv.modGroup (h.foldl (fun _ _ ht => ht.modSlot) _))
  · exact h.epiTurn

theorem Inv.mendPairs {m : MatOp} : Inv (Machine.mendPairs s m) := h.mend

theorem Inv.failTurn {op stat : Nat} {c : Code} {a : DWord} : Inv (Machine.failTurn s op stat c a) := h.modMat

theorem Inv.execMatrixOpTurn {op : Nat} : GoesOn (Machine.execMatrixOpTurn op s) := by
  refine goesOn_next ?_
  split
  · exact h
  refine inv_ite h ?_
  split
  · exact h
  split
  · exact h.failTurn
  split
  · exact h.failTurn
  · exact h.retireMacro.failTurn
  · split
    · next hturn =>
      have ht := h.turnOf _ hturn
      exact ht.mendPairs.modMat.retryAccept
    · exact h.failTurn

theorem Inv.execMatrixOpComplete {op : Nat} : GoesOn (Machine.execMatrixOpComplete op s) := by
  refine goesOn_next ?_
  split
  · exact h
  · next m _ =>
    refine inv_ite h (inv_ite h.creditBarrier.modMat ?_)
    extract_lets s1 s2
    have h1 : Inv s1 := Inv.retryAccept (h.of_eq rfl rfl rfl : Inv { s with matops := s.matops.filter (·.id != op) })
    have h2 : Inv s2 := by
      unfold s2
      split
      · exact h1.creditBarrier
      · exact h1
    split
    · exact h2.resolveFuture
    · split
      · exact h2.deferTo
      · exact h2

end
end Sys2Proof.Machine
end

section
/-! PROOFS. What every step keeps: copy engines, versions, batching, control registers, and whole groups saved and loaded. -/

namespace Sys2Proof.Machine

section
variable {s : State} (h : Inv s)
include h

/-! ## Copy engines -/

theorem Inv.planReserve {e : Env} {bits : Nat} {dests : List (Nat × Nat × Nat)} : Keeps (Machine.planReserve e s bits dests) := by
  unfold Machine.planReserve
  refine gives_foldlM (P := fun p : State × List (Nat × Nat) => Inv p.1) (fun t d ht => ?_) _ h
  exact gives_ite ((Inv.backingLine ht).bind fun _ hx => gives_pure hx) (gives_pure ht)

theorem Inv.acceptPlan {e : Env} {kind : Nat} {p : Place} {l : Nat} : Keeps (Machine.acceptPlan e kind p s l) := fun ⟨v, c⟩ hx => by
  obtain ⟨va, b, src, dst, ps, r, -, hres, -⟩ := acceptPlan_ok hx
  exact h.planReserve _ hres

theorem Inv.startCopy {e : Env} {d : Reg} {l : Nat} {c : Copy} : Inv (Machine.startCopy e d s l c) := by
  unfold Machine.startCopy
  split
  · exact h
  · extract_lets n f c1 u1
    have hn : Inv n.2 := h.of_eq rfl rfl rfl
    have hf : Inv f.1 := hn.allocFuture
    have h1 : Inv u1 := hf.of_eq rfl rfl rfl
    exact h1.writeReg.modWarp

theorem Inv.copyWord {i : Instr} {kind : Nat} {d : Reg} {p : Place} : GoesOn (Machine.copyWord i kind d p s) := h.runWord fun _ =>
  safe_ite h (safe_ite h (h.lanesThen (fun _ _ ht => ht.acceptPlan) fun _ _ hu => h.reserveThen (hu.foldl (fun _ _ hx => hx.startCopy) _)))

theorem Inv.execBcopy {hd : Hdr} {d : Reg} {p : Place} : GoesOn (Machine.execBcopy hd d p s) := h.copyWord

theorem Inv.execGather {hd : Hdr} {d : Reg} {p : Place} : GoesOn (Machine.execGather hd d p s) := h.copyWord

theorem Inv.execScatter {hd : Hdr} {d : Reg} {p : Place} : GoesOn (Machine.execScatter hd d p s) := h.copyWord

theorem Inv.execXcopy {hd : Hdr} {d : Reg} {p : Place} : GoesOn (Machine.execXcopy hd d p s) := h.copyWord

theorem Inv.execChunkIssue {op : Nat} : GoesOn (Machine.execChunkIssue op s) := by
  refine goesOn_next ?_
  split
  · exact h
  · exact inv_ite h.modCopy.modCore h

theorem Inv.copyHeapLine {c : Copy} {gr : Group} {sp a : Nat} : Inv (Machine.copyHeapLine s c gr sp a) := by
  unfold Machine.copyHeapLine
  split
  · exact inv_ite h h.putHomeBytes.modGroup
  · exact h

/-- An element's place and the number of its bits (R312). -/
abbrev CopyElem := Option (Nat × Nat) × Option (Nat × Nat) × Nat

theorem Inv.putElem {c : Copy} {x : CopyElem} {low v : List Byte} : Inv (Machine.putElem s c x low v).1 := by
  unfold Machine.putElem
  split
  · extract_lets a1 s1 gr a merge w
    have h1 : Inv s1 := h.copyHeapLine
    clear_value s1
    split
    · exact h1.writeSpm
    · split
      · split
        · exact h1
        · exact h1.drainAt.sendPeer
      · exact h1.engineWrite
  · exact h

theorem Inv.putElems {c : Copy} {es : List CopyElem} : Inv (Machine.putElems s c es).1 := by
  unfold Machine.putElems
  refine List.foldlRecOn es _ (motive := fun y : State × Bool × List Byte => Inv y.1) h fun y hy x _ => ?_
  split
  · exact hy.putElem
  · exact hy

theorem Inv.endCopy {op : Nat} : Inv (Machine.endCopy s op) := by
  unfold Machine.endCopy
  split
  · exact h
  · refine inv_ite h (Inv.retryAccept (Inv.resolveFuture ?_))
    exact h.of_eq rfl rfl rfl

theorem Inv.countLanded {g : Nat} {handle : Word} {n : Nat} : Inv (Machine.countLanded s g handle n) := h.modGroup

theorem Inv.execChunkLanding {op chunk : Nat} : GoesOn (Machine.execChunkLanding op chunk s) := by
  refine goesOn_next ?_
  split
  · exact h
  split
  · refine inv_ite h ?_
    extract_lets es now y c1 x whole c2 t
    refine inv_ite h ?_
    have hx : Inv x.1 := by
      unfold x
      split
      · exact h
      · exact h.putElems
    have ht : Inv t := hx.modCopy
    exact inv_ite ht.countLanded.endCopy ht
  · exact h

theorem Inv.execChunkCredit {op chunk : Nat} : GoesOn (Machine.execChunkCredit op chunk s) := by
  refine goesOn_next ?_
  split
  · exact h
  split
  · exact inv_ite h h.creditBarrier.modCopy.endCopy
  · exact h

theorem Inv.execCancelArrival {op : Nat} : GoesOn (Machine.execCancelArrival op s) := by
  refine goesOn_next ?_
  split
  · exact h
  · exact inv_ite h h.modCopy.endCopy

theorem Inv.execHtest {hd : Hdr} {d a : Reg} : GoesOn (Machine.execHtest hd d a s) := h.runWord fun _ => h.joinOps.writeLanes

theorem Inv.execHwait {hd : Hdr} {d a : Reg} : GoesOn (Machine.execHwait hd d a s) := h.runWord fun _ => safe_ite h.hwaitLanes h.hwaitLanes

theorem Inv.cancelOne {e : Env} {w : Word} : Inv (Machine.cancelOne s e w) := by
  unfold Machine.cancelOne
  split
  · exact inv_ite h (h.of_eq rfl rfl rfl)
  · exact h

theorem Inv.execHcancel {hd : Hdr} {a : Reg} : GoesOn (Machine.execHcancel hd a s) := h.runWord fun _ =>
  safe_ite h (safe_ite h (h.foldl (fun _ _ ht => ht.cancelOne) _))

/-! ## Policy versions -/

theorem Inv.modRange {n : Nat} {f : VRange → VRange} : Inv (Machine.modRange s n f) := h.of_eq rfl rfl rfl

theorem Inv.modCtxSame {c : Nat} {f : Ctx → Ctx} (hf : ∀ x, (f x).trapvec = x.trapvec ∧ (f x).trapframe = x.trapframe ∧ (f x).preempt = x.preempt) :
    Inv (Machine.modCtx s c f) := h.modCtx fun x hx => by
  obtain ⟨hv, hfr, hp⟩ := hf x
  rw [CtxClean, hv, hfr, hp]
  exact hx

theorem Inv.versionTrap {e : Env} {rng gen : Nat} : (Machine.versionTrap e s rng gen).Safe := h

theorem Inv.execVpub {hd : Hdr} {d a : Reg} : GoesOn (Machine.execVpub hd d a s) := h.runWord fun _ => safe_ite h (by
  extract_lets n
  split
  · exact h.versionTrap
  · refine h.fenceThen fun u hu => ?_
    split
    · exact hu.versionTrap
    · exact safe_ite hu.versionTrap hu.modRange.settleRanges.writeLanes)

theorem Inv.execVpin {hd : Hdr} {a b : Reg} : GoesOn (Machine.execVpin hd a b s) := h.runWord fun _ => by
  split
  · exact h
  · extract_lets n gen
    split
    · exact h.versionTrap
    · refine safe_ite h.versionTrap (Inv.settleRanges (h.modCtxSame ?_))
      exact fun _ => ⟨rfl, rfl, rfl⟩

theorem Inv.execVret {hd : Hdr} {a : Reg} : GoesOn (Machine.execVret hd a s) := h.runWord fun _ => safe_ite h (by
  extract_lets n
  split
  · exact h.versionTrap
  · refine Inv.settleRanges (h.modCtxSame ?_)
    exact fun _ => ⟨rfl, rfl, rfl⟩)

/-! ## Batching tables -/

theorem Inv.tabWrite {e : Env} {va kind : DWord} {data : List Byte} : Gives Inv (Machine.tabWrite s e va kind data) := by
  unfold Machine.tabWrite
  split
  · next hw => exact gives_ok (h.devWrite hw)
  · exact gives_error _
  · exact gives_error _
  · exact gives_error _

theorem Inv.putRequest {e : Env} {table : DWord} {n st reason : Nat} : Gives Inv (Machine.putRequest s e table n st reason) := gives_seq fun _ => h.tabWrite

theorem Inv.putRequestUnit {e : Env} {table : DWord} {n st reason : Nat} :
    Keeps (Machine.putRequest s e table n st reason >>= fun t => (pure (t, ()) : Except LaneFault (State × Unit))) := h.putRequest.bind fun _ ht => gives_pure ht

theorem Inv.tokAct {e : Env} {a b c : Reg} {l : Nat} : Keeps (Machine.tokAct e a b c s l) := by
  unfold Machine.tokAct
  refine gives_seq fun x => gives_ite h.putRequestUnit (gives_seq fun r => gives_seq fun lf => h.storeThrough.bind fun y hy => hy.tabWrite.bind fun u3 h3 => ?_)
  exact gives_ite h3.modGraph.putRequestUnit (gives_ite h3.modGraph.putRequestUnit (gives_pure h3.modGraph))

theorem Inv.execTokrec {hd : Hdr} {a b c : Reg} : GoesOn (Machine.execTokrec hd a b c s) := h.runWord fun _ =>
  h.lanesThen (fun _ _ ht => ht.pureLane) fun _ _ hu => hu.lanesThen (fun _ _ ht => ht.tokAct) fun _ _ hx => hx

theorem Inv.execSmask {hd : Hdr} {d a b c : Reg} : GoesOn (Machine.execSmask hd d a b c s) := h.runWord fun _ =>
  h.lanesThen (fun _ _ ht => ht.pureLane) fun _ _ hu => hu.writeLanes

theorem Inv.putGroup {g : Group} : Inv (Machine.putGroup s g) := h.of_eq rfl rfl rfl

theorem Inv.fresh : Inv (Machine.fresh s).2 := h.of_eq rfl rfl rfl

theorem Inv.startLogits {e : Env} {a b : Reg} {l : Nat} : Keeps (Machine.startLogits e a b s l) :=
  gives_seq fun _ => gives_seq fun _ => gives_seq fun _ => gives_ite (gives_pure h) (gives_pure h.fresh.putGroup)

theorem Inv.execUlcall {hd : Hdr} {d a b : Reg} : GoesOn (Machine.execUlcall hd d a b s) := h.runWord fun _ =>
  h.lanesThen (fun _ _ ht => ht.startLogits) fun _ _ hu => safe_ite hu.writeLanes hu.writeLanes

theorem Inv.execSlotrd {hd : Hdr} {act : Bool} {d a : Reg} {n : BitVec 3} : GoesOn (Machine.execSlotrd hd act d a n s) := h.runWord fun _ =>
  h.lanesThen (fun _ _ ht => ht.pureLane) fun _ _ hu => hu.laterValue

theorem Inv.slotsetLane {b : State} {e : Env} {a r : Reg} {l : Nat} : Keeps (Machine.slotsetLane e b a r s l) :=
  gives_seq fun _ => gives_seq fun _ => gives_ite (gives_error _) h.putRequestUnit

theorem Inv.execSlotset {hd : Hdr} {a b : Reg} : GoesOn (Machine.execSlotset hd a b s) := h.runWord fun _ =>
  h.lanesThen (fun _ _ ht => ht.slotsetLane) fun _ _ hu => hu

/-! ## Traps and control registers -/

theorem Inv.execTrap {hd : Hdr} {k : BitVec 8} : GoesOn (Machine.execTrap hd k s) := h.runWord fun _ => safe_ite h h

theorem Inv.execTret {mark next : Bool} : GoesOn (Machine.execTret mark next s) := h.runWord fun _ =>
  safe_ite h (safe_ite h (safe_ite h h.returnFromHandler))

theorem Inv.execCread {hd : Hdr} {d : Reg} {r : CtlReg} : GoesOn (Machine.execCread hd d r s) := h.runWord fun _ => h.writeLanes

omit h in
theorem masked_clear {v m k : DWord} (hmk : m &&& k = 0) : v &&& m &&& k = 0 := by
  rw [BitVec.and_assoc, hmk]
  exact BitVec.and_zero

theorem Inv.ctlWrite {e : Env} {r : CtlReg} {v : DWord} : Inv (Machine.ctlWrite s e r v) := by
  unfold Machine.ctlWrite
  cases r with
  | trapvec =>
    refine Inv.modCtx h ?_
    exact fun _ ⟨_, hfr, hp⟩ => ⟨masked_clear (by decide), hfr, hp⟩
  | trapframe =>
    refine Inv.modCtx h ?_
    exact fun _ ⟨hv, _, hp⟩ => ⟨hv, masked_clear (by decide), hp⟩
  | preempt =>
    refine Inv.modCtx h ?_
    exact fun _ ⟨hv, hfr, _⟩ => ⟨hv, hfr, masked_clear (by decide)⟩
  | fixed | clockdiv | tidbase | ordesc | dbg => exact h.modCtxSame fun _ => ⟨rfl, rfl, rfl⟩
  | perf n => exact h.modCore
  | feature | ctxid | split | version | vpin => exact h

theorem Inv.execCwrite {hd : Hdr} {a : Reg} {r : CtlReg} : GoesOn (Machine.execCwrite hd a r s) := h.runWord fun _ => by
  split
  · exact h
  · exact safe_ite h.ctlWrite h

/-! ## Whole groups -/

theorem Inv.wholeGroup {e : Env} {a : Reg} {mine : Hold → Bool} {addr : Hold → DWord} {k : Hold → WordRes} {own : DWord → Hold}
    {act : DWord → State → WordRes} (hk : ∀ x, (k x).Safe) (hact : ∀ va t, Inv t → (act va t).Safe) :
    (Machine.wholeGroup e s a mine addr k own act).Safe :=
  safe_ite h (safe_ite h (safe_ite (hk _) (safe_ite (hk _) (safe_ite (hk _) (h.afterRelease (hact _))))))

theorem Inv.resumeSaved {g w : Nat} {wp : Warp} : Inv (Machine.resumeSaved s g w wp) := h.foldl (fun t x ht => by
  split
  · exact Inv.modWarp (ht.foldl (fun _ _ hu => hu.writeReg) _)
  · exact ht) _

theorem Inv.execTsave {mark : Bool} {d a : Reg} : GoesOn (Machine.execTsave mark d a s) := h.runWord fun e => h.wholeGroup (fun _ => h) fun base t ht => by
  dsimp only
  split
  · trivial
  · exact ht
  · refine Inv.writeLanes (ht.putPieces.foldl (fun u w hu => ?_) _)
    split
    · exact inv_ite hu hu.resumeSaved
    · exact hu

theorem Inv.placeSlots {t : State} {g c : Nat} {ls : List (Nat × AccSlot)} (hp : Machine.placeSlots s g c ls = some t) : Inv t := by
  unfold Machine.placeSlots at hp
  dsimp only at hp
  split at hp
  · cases hp
  · exact Option.some.inj hp ▸ h.modCore.modGroup

theorem Inv.putTraps {e : Env} {gr : Group} (fs : List (Nat × List Byte)) : Keeps (Machine.putTraps e gr fs s) := by
  induction fs generalizing s with
  | nil => exact gives_ok h
  | cons x r ih =>
    obtain ⟨w, f⟩ := x
    rw [Machine.putTraps]
    split
    · exact ih h
    dsimp only
    split
    · exact gives_error _
    · exact gives_error _
    · exact gives_error _
    · next t hw =>
      split
      · next u vs hr => exact gives_ok (ih (h.devWrite hw) (u, vs) hr : Inv u)
      · exact gives_error _

theorem Inv.loadFrame {e : Env} {tmpl : Bool} {secs : List (Nat × List Byte)} : (Machine.loadFrame e s tmpl secs).Safe := by
  unfold Machine.loadFrame
  extract_lets gr hw
  split
  · trivial
  · exact h
  · next t1 vas hput =>
    have h1 : Inv t1 := h.putTraps _ _ hput
    dsimp only
    split
    · next t3 hplace => exact h1.freeSlots.modGroup.placeSlots hplace
    · exact h

theorem Inv.execTload {mark : Bool} {a : Reg} : GoesOn (Machine.execTload mark a s) := h.runWord fun e => h.wholeGroup (fun _ => h) fun base t ht => by
  extract_lets read got
  clear_value got
  split
  · trivial
  · exact ht
  · dsimp only
    split
    · exact ht
    · exact safe_ite ht (safe_ite ht ht.loadFrame)

theorem Inv.execTlbinv {hd : Hdr} {a : Option Reg} : GoesOn (Machine.execTlbinv hd a s) := h.runWord fun e => h.afterRelease fun t ht => by
  refine safe_ite ht ?_
  cases a with
  | none => exact inv_ite ht ht.dropTlbOf
  | some r => exact ht.dropTlbOf

theorem Inv.execIdle {mark : Bool} : GoesOn (Machine.execIdle mark s) := h.runWord fun _ => by
  split
  · exact h
  · exact h.postCtx

end
end Sys2Proof.Machine
end

section
/-! PROOFS. What every step keeps: cores, barriers, templates, register pools, ends of groups, writes from outside, nodes and batches. -/

namespace Sys2Proof.Machine

section
variable {s : State} (h : Inv s)
include h

/-! ## Cores -/

theorem Inv.joinSet {c : Nat} {out : List (Nat × Nat)} : Inv (Machine.joinSet c out s) := h.foldl (fun _ _ ht => ht.modCore) _

theorem Inv.joinActive {c : Nat} : Inv (Machine.joinActive s c) := h.joinSet

theorem Inv.joinAdmitted {c g : Nat} : Inv (Machine.joinAdmitted s c g) := h.joinSet

theorem Inv.displaceOne {c : Nat} {x : Nat × Nat} : Inv (Machine.displaceOne c s x) := by
  unfold Machine.displaceOne
  extract_lets s1
  have h1 : Inv s1 := by
    unfold s1
    split
    · exact h.modWarp
    · exact h
  exact h1.modCore

theorem Inv.displace {c : Nat} : Inv (Machine.displace s c) := h.foldl (fun _ _ ht => ht.displaceOne) _

theorem Inv.selectWarp {p : Nat × Nat} : Inv (Machine.selectWarp s p) := by
  unfold Machine.selectWarp
  split
  · exact h
  split
  · exact h
  · extract_lets sel s1
    have h1 : Inv s1 := h.modWarp
    exact h1.of_eq rfl rfl rfl

theorem Inv.afterChoice {u : State} {c : Nat} {chosen : List (Nat × Nat)} : Inv (Machine.afterChoice u s c chosen) := h.foldl (fun _ _ ht => ht.modWarp) _

theorem Inv.execWarpIssueChoice {c : Nat} : GoesOn (Machine.execWarpIssueChoice c s) :=
  goesOn_next (inv_ite h (Inv.afterChoice (Inv.modCore (h.joinActive.displace.foldl (fun _ _ ht => ht.selectWarp) _))))

theorem Inv.execLongLatencyReturn {group warp idx : Nat} : GoesOn (Machine.execLongLatencyReturn group warp idx s) := by
  refine goesOn_next ?_
  split
  · split
    · refine inv_ite h ?_
      extract_lets s1 s2
      have h1 : Inv s1 := h.bindReg.modWarp
      have h2 : Inv s2 := inv_ite h1.writeReg h1
      exact h2.modWarp.modGroup.stillAway
    · exact inv_ite h h.entryArrives.modWarp.modGroup
    · exact h
  · exact h

theorem Inv.execTrapEntry {group warp : Nat} : GoesOn (Machine.execTrapEntry group warp s) := goesOn_next h.enterHandler

theorem Inv.execBarrierPhaseComplete {group b : Nat} : GoesOn (Machine.execBarrierPhaseComplete group b s) := by
  refine goesOn_next ?_
  split
  · exact h
  · exact inv_ite h h.modGroup

theorem Inv.execGangBarrierComplete {gang : Nat} : GoesOn (Machine.execGangBarrierComplete gang s) := by
  refine goesOn_next ?_
  split
  · exact h
  · refine inv_ite h (Inv.foldl ?_ (fun _ _ ht => ht.modGroup) _)
    exact h.of_eq rfl rfl rfl

/-! ## Templates -/

theorem Inv.leaveCore {gr : Group} : Inv (Machine.leaveCore s gr) := by
  unfold Machine.leaveCore
  extract_lets s1 s2 s3
  have h2 : Inv s2 := h.freeSlots.leaveValues.modCore
  have h3 : Inv s3 := Inv.modGroup (h2.of_eq rfl rfl rfl : Inv { s2 with issue := s2.issue.filter (·.group != gr.id) })
  exact h3.freeImages

theorem Inv.dropTemplates {grid : Nat} : Inv (Machine.dropTemplates s grid) := by
  unfold Machine.dropTemplates
  split
  · exact inv_ite (h.of_eq rfl rfl rfl) h
  · exact h

theorem Inv.withTmpls {ts : List Template} : Inv { s with tmpls := ts } := h.of_eq rfl rfl rfl

theorem Inv.withTmplsGrids {ts : List Template} {gs : List Grid} : Inv { s with tmpls := ts, grids := gs } := h.of_eq rfl rfl rfl

theorem Inv.withGrids {gs : List Grid} : Inv { s with grids := gs } := h.of_eq rfl rfl rfl

theorem Inv.stampGrid {gr : Group} {t : Template} : Inv (Machine.stampGrid s gr t) := h.withTmpls.sendAlong.removeGroup.modGrid

theorem Inv.stampNest {gr : Group} {g : Grid} {t : Template} {grid : Nat} : Inv (Machine.stampNest s gr g t grid) :=
  h.withTmplsGrids.sendAlong.leaveCore.modGroup

theorem Inv.takePages {c pool n : Nat} {gen : Nat → Option Nat} {ps qs : List Nat} {t : State}
    (ht : Machine.takePages s c gen pool n ps = .ok (t, qs)) : Inv t := by
  induction n generalizing s ps with
  | zero => exact (Prod.mk.inj (DevRes.ok.inj ht)).1 ▸ h
  | succ n ih =>
    rw [Machine.takePages] at ht
    split at ht
    · dsimp only at ht
      split at ht
      · cases ht
      split at ht
      · cases ht
      split at ht
      · split at ht
        · cases ht
        · split at ht
          · next hw => exact ih (h.devWrite hw) ht
          · cases ht
          · cases ht
          · cases ht
      · cases ht
      · cases ht
      · cases ht
    · cases ht
    · cases ht
    · cases ht

theorem Inv.countWordOf {gr : Group} {next : State → State} {wait : DWord → State} (hnext : ∀ t, Inv t → Inv (next t)) (hwait : ∀ va, Inv (wait va)) :
    Inv (Machine.countWordOf s gr next wait) := by
  unfold Machine.countWordOf
  split
  · exact hnext _ h
  split
  · next hw => exact hnext _ (h.devIncrement hw)
  · exact hwait _
  · split
    · exact hnext _ h.devRefused
    · exact hnext _ h
  · exact hnext _ h

theorem Inv.putPages {ps : List Nat} {data : List Byte} : Inv (Machine.putPages s ps data) := by
  induction ps generalizing s data with
  | nil => exact h
  | cons p r ih => exact ih h.putHomeBytes

theorem Inv.captureNested {gr : Group} {g : Grid} {count bytes : Nat} : Inv (Machine.captureNested s gr g count bytes) := by
  unfold Machine.captureNested
  extract_lets again
  have hagain : ∀ va, Inv (again va) := fun _ => h.devWait
  clear_value again
  split
  · next htake => exact (h.takePages htake).countWordOf (fun _ h2 => h2.fresh.fresh.putPages.stampNest) hagain
  · exact hagain _
  · exact h.removeGroup.devRefused
  · exact h.removeGroup.devRefused

theorem Inv.captureTop {gr : Group} {g : Grid} {count : Nat} : Inv (Machine.captureTop s gr g count) := by
  unfold Machine.captureTop
  extract_lets again
  have hagain : ∀ va, Inv (again va) := fun _ => h.devWait
  clear_value again
  split
  · next s1 hw =>
    extract_lets f s2
    have h2 : Inv s2 := (h.devWrite hw).fresh.stampGrid
    clear_value s2
    split
    · split
      · next hinc => exact (h2.devIncrement hinc).dropTemplates
      · exact hagain _
      · exact h2.devRefused
      · exact h2
    · exact h2.dropTemplates
  · exact hagain _
  · exact h.removeGroup.devRefused
  · exact h.removeGroup.devRefused

theorem Inv.execTemplateCapture {group : Nat} : GoesOn (Machine.execTemplateCapture group s) := by
  refine goesOn_next (inv_ite h ?_)
  split
  · exact h
  split
  · dsimp only
    split
    · exact inv_ite h.removeGroup.failNode h.captureNested
    · exact inv_ite h.removeGroup.failNode (inv_ite h.removeGroup.failNode h.captureTop)
  · exact h

/-! ## Register pools -/

theorem Inv.startSub {c : Nat} {g : Group} : Inv (Machine.startSub s c g) := by
  unfold Machine.startSub
  split
  · exact h.modGroup.joinAdmitted
  · exact h

theorem Inv.serveRows {c : Nat} {r : RowReq} : Inv (Machine.serveRows s c r) := by
  unfold Machine.serveRows
  split
  · exact h.startSub
  · split
    · exact Inv.modWarp (inv_ite h.modGroup h)
    · exact h
  · exact h.ownRow.dropHold
  · exact h

theorem Inv.execRegisterPoolGrant {c : Nat} : GoesOn (Machine.execRegisterPoolGrant c s) := by
  refine goesOn_next ?_
  split
  · exact h.serveRows
  · exact h

theorem Inv.growFault {gr : Group} : Inv (Machine.growFault s gr) := by
  unfold Machine.growFault
  split
  · split
    · exact Inv.takeFault (Inv.dropHold (h.foldl (fun _ _ ht => ht.removeGroup) _))
    · exact h
  · split
    · exact h.contextEnd
    · exact h

theorem Inv.serveAfter {g : Nat} : Inv (Machine.serveAfter s g) := by
  unfold Machine.serveAfter
  split
  · refine inv_ite ?_ h
    dsimp only
    split
    · exact h.retryAccept.serveRows
    · exact h.retryAccept
  · exact h

theorem Inv.execRegisterDeadlockSave {c : Nat} : GoesOn (Machine.execRegisterDeadlockSave c s) := by
  refine goesOn_next ?_
  dsimp only
  refine inv_ite h ?_
  split
  · exact h.haltAndSave.serveAfter
  · exact h.growFault
  · exact h

/-! ## Ends of warps and groups -/

theorem Inv.execWarpEnd {group warp : Nat} : GoesOn (Machine.execWarpEnd group warp s) := by
  refine goesOn_next ?_
  split
  · exact inv_ite h h.modWarp.modCore.modGroup
  · exact h

theorem Inv.settleSub {gr : Group} : Inv (Machine.settleSub s gr) := by
  unfold Machine.settleSub
  split
  · split
    · split
      · extract_lets rest s1 s2 h2 s3
        have h1 : Inv s1 := by
          refine inv_ite h ?_
          split
          · split
            · next hput => exact h.putRequest _ hput
            · exact h
          · exact h
        exact inv_ite h1.writeReg.modWarp.modWarp h1.writeReg.modWarp
      · exact h
    · exact h
  · exact h

theorem Inv.reportDeferred {gr : Group} : Inv (Machine.reportDeferred s gr) := by
  unfold Machine.reportDeferred
  split
  · exact h
  · exact Inv.failGroupNode (h.foldl (fun _ _ ht => ht.postCtx) _)

theorem Inv.countGroup {gr : Group} : Inv (Machine.countGroup s gr) := by
  unfold Machine.countGroup
  extract_lets s0 s1 s2 s3 d s4 s5
  have h0 : Inv s0 := by
    unfold s0
    split
    · exact h.sendAlong
    · exact h
  clear_value s0
  have h1 : Inv s1 := by
    unfold s1
    split
    · exact h0.modGrid
    · exact h0.modGrid
  clear_value s1
  have h2 : Inv s2 := by
    unfold s2
    split
    · exact h1.modGroup
    · exact h1
  clear_value s2
  have h5 : Inv s5 := h2.withTmpls.removeGroup.dropTemplates.modDie
  clear_value s5
  split
  · exact h5.graphEndCheck.settleRanges
  · exact h5

theorem Inv.endCancelled {gr : Group} : Inv (Machine.endCancelled s gr) := Inv.countGroup (h.drainDie.foldl (fun _ _ ht => ht.removeGroup) _)

theorem Inv.execGroupEnd {group : Nat} : GoesOn (Machine.execGroupEnd group s) := by
  refine goesOn_next (inv_ite h ?_)
  split
  · exact h
  refine inv_ite (inv_ite h.endCancelled h) ?_
  split
  · exact h.settleSub.removeGroup
  · extract_lets s1
    have h1 : Inv s1 := h.drainDie.reportDeferred
    clear_value s1
    split
    · split
      · next hw => exact (h1.devIncrement hw).countGroup
      · exact h1.devWait
      · split
        · exact h1.devRefused.countGroup
        · exact h1.countGroup
      · exact h1.countGroup
    · exact h1.countGroup

theorem Inv.submitChild {d ctx : Nat} {g : Grid} {va : DWord} {b r : List Byte} : Inv (Machine.submitChild s d ctx g va b r) :=
  inv_ite h.postCtx (inv_ite h.failNode (inv_ite h.failNode (inv_ite h h.fresh.withGrids.sendAlong)))

theorem Inv.execLaunchBlockRead {c : Nat} : GoesOn (Machine.execLaunchBlockRead c s) := by
  refine goesOn_next ?_
  split
  · exact h
  split
  · exact h
  · extract_lets pop await
    have hpop : Inv (pop s) := h.modCore
    have hawait : ∀ gr x, Inv (await gr x) := fun _ _ => h.modCore.devWait
    clear_value pop await
    split
    · exact hpop
    split
    · exact hpop
    split
    · exact hawait _ _
    · exact hpop.devRefused
    · exact hpop
    · split
      · split
        · exact hawait _ _
        · exact hpop.devRefused
        · exact hpop
        · exact hpop.submitChild
      · exact hpop.submitChild

/-! ## Writes and waits -/

theorem Inv.withPend {ps : List PendWrite} : Inv { s with pend := ps } := h.of_eq rfl rfl rfl

theorem Inv.execWritePerformed {idx : Nat} : GoesOn (Machine.execWritePerformed idx s) := by
  refine goesOn_next ?_
  split
  · exact h
  · refine inv_ite h.withPend ?_
    split
    · exact inv_ite h.failL1 (inv_ite h h.withPend.performWrite)
    · exact h

theorem Inv.arriveOutside {agent addr : Nat} {data : List Byte} : Inv (Machine.arriveOutside s agent addr data) := inv_ite h.withPend h.outsideWrite

theorem Inv.execHostWrite {addr : Nat} {data : List Byte} : GoesOn (Machine.execHostWrite addr data s) :=
  goesOn_next (inv_ite h.homeWrite (inv_ite h (inv_ite h h.arriveOutside)))

theorem Inv.execPeerWrite {port ctx : Nat} {va : DWord} {data : List Byte} : GoesOn (Machine.execPeerWrite port ctx va data s) := by
  refine goesOn_next ?_
  dsimp only
  split
  · exact h
  · refine inv_ite h (inv_ite h.postCtx ?_)
    split
    · exact inv_ite h.postCtx h.arriveOutside
    · exact h.postCtx

theorem Inv.againWait {group warp hold : Nat} {stop : Bool} : Inv (Machine.againWait group warp hold stop s) := by
  unfold Machine.againWait
  split
  · split
    · exact inv_ite h h.settleWait
    · exact h
  · exact h

theorem Inv.execWaitaReread {group warp hold : Nat} : GoesOn (Machine.execWaitaReread group warp hold s) := goesOn_next h.againWait

theorem Inv.execWaitaPoll {group warp hold : Nat} : GoesOn (Machine.execWaitaPoll group warp hold s) := goesOn_next h.againWait

theorem Inv.execWaitaTimeout {group warp hold : Nat} : GoesOn (Machine.execWaitaTimeout group warp hold s) := goesOn_next h.againWait

theorem Inv.execSleepExpiry {group warp hold : Nat} : GoesOn (Machine.execSleepExpiry group warp hold s) := by
  refine goesOn_next ?_
  split
  · exact inv_ite h.modWarp h
  · exact h

theorem Inv.execYieldReturn {group warp : Nat} : GoesOn (Machine.execYieldReturn group warp s) := by
  refine goesOn_next ?_
  split
  · split
    · exact inv_ite h h.modWarp
    · exact h
  · exact h

theorem Inv.execUlcallBudgetExpiry {group : Nat} : GoesOn (Machine.execUlcallBudgetExpiry group s) := by
  refine goesOn_next ?_
  split
  · split
    · exact inv_ite h h.modGroup
    · exact h
  · exact h

theorem Inv.finishHeld {g w : Nat} {x : HoldRec} {r : WordRes} (hr : r.Safe) : Inv (Machine.finishHeld s g w x r) := by
  cases r with
  | done t => exact Inv.modWarp hr
  | jump t => exact Inv.modWarp hr
  | hold | trap | stop => exact h.dropHold

theorem Inv.execQueuePushReserve {group warp hold : Nat} : GoesOn (Machine.execQueuePushReserve group warp hold s) := by
  refine goesOn_next ?_
  split
  · split
    · split
      · exact inv_ite h.dropHold (inv_ite (h.finishHeld (h.pushLanes fun _ hx => hx)) h)
      · exact h.dropHold
    · exact h
  · exact h

theorem Inv.execQueuePopReserve {group warp hold : Nat} : GoesOn (Machine.execQueuePopReserve group warp hold s) := by
  refine goesOn_next ?_
  split
  · split
    · split
      · exact inv_ite (h.finishHeld (h.popLanes fun _ hx => hx)) h
      · exact h.dropHold
    · exact h
  · exact h

/-! ## Nodes and batches -/

theorem Inv.handBatch {level c : Nat} : Inv (Machine.handBatch s level c) := h.of_eq rfl rfl rfl

theorem Inv.modStage {g i k : Nat} {f : Stage → Stage} : Inv (Machine.modStage s g i k f) := h.modGraph

theorem Inv.startGrids {g : Graph} {i : Nat} {n : Node} : Inv (Machine.startGrids s g i n) := by
  unfold Machine.startGrids
  split
  · exact h.fresh.withGrids.sendAlong.modNode
  · exact h.fresh.withGrids.sendAlong.modNode
  · refine h.modGraph.foldl (fun t k ht => ?_) _
    split
    · exact ht.fresh.withGrids.sendAlong.modStage
    · exact ht
  · exact h

theorem Inv.forgetOld : Inv (Machine.forgetOld s) := inv_ite h (h.of_eq rfl rfl rfl)

theorem Inv.execNodeStart : GoesOn (Machine.execNodeStart s) := by
  refine goesOn_next ?_
  split
  · exact h
  split
  · dsimp only
    split
    · exact h.forgetOld.modNode.failNode
    · exact h.forgetOld.modNode.sendAlong.startGrids
  · exact h

theorem Inv.satisfyAll {g i : Nat} : Inv (Machine.satisfyAll s g i) := h.foldl (fun _ _ ht => ht.satisfyEdge) _

theorem Inv.graphDone {g : Graph} {res : List (SlotCmd × Nat)} : Inv (Machine.graphDone s g res) := by
  unfold Machine.graphDone
  extract_lets s1 live s2
  have h2 : Inv s2 := h.closeSlotCmds.modGraph
  exact Inv.complete (h2.dropEdges.withGrids)

theorem Inv.finishNode {g : Graph} {i : Nat} {res : List (SlotCmd × Nat)} : Inv (Machine.finishNode s g i res) := by
  unfold Machine.finishNode
  extract_lets ids s1 s2
  have h1 : Inv s1 := h.withTmpls.modNode
  have h2 : Inv s2 := h1.satisfyAll.settleRanges
  refine inv_ite h1.graphEndCheck.settleRanges ?_
  clear_value s2
  split
  · exact inv_ite h2.graphDone h2
  · exact h2

theorem Inv.execNodeCompletion {graph node : Nat} : GoesOn (Machine.execNodeCompletion graph node s) := by
  refine goesOn_next (inv_ite h ?_)
  split
  · refine inv_ite h ?_
    extract_lets s1 last
    have h1 : Inv s1 := h.foldl (fun _ _ ht => ht.drainDie) _
    clear_value s1
    split
    · exact h.devWait
    · exact h1.devRefused
    · exact h1.devRefused
    · refine inv_ite h1.finishNode ?_
      split
      · next hw => exact (h1.devIncrement hw).finishNode
      · exact h.devWait
      · exact h1.devRefused
      · exact h1.devRefused
  · exact h

theorem Inv.execHostWaitWatch {graph node : Nat} : GoesOn (Machine.execHostWaitWatch graph node s) := by
  refine goesOn_next (inv_ite h ?_)
  split
  · refine inv_ite h ?_
    split
    · exact inv_ite h.sendAlong.modNode h
    · exact h.devWait
    · exact h.devRefused
    · exact h.devRefused
  · exact h

theorem Inv.joinGang {g : Grid} {i id : Nat} : Inv (Machine.joinGang s g i id) := by
  unfold Machine.joinGang
  split
  · exact h.of_eq rfl rfl rfl
  · exact h.of_eq rfl rfl rfl

theorem Inv.sendGroup {g : Grid} {d i : Nat} : Inv (Machine.sendGroup g d s i) := h.fresh.putGroup.joinGang.modDie

theorem Inv.sendBatch {g : Grid} {d n : Nat} : Inv (Machine.sendBatch s g d n) := by
  unfold Machine.sendBatch
  extract_lets s1 whole s2
  have h1 : Inv s1 := h.foldl (fun _ _ ht => ht.sendGroup) _
  have h2 : Inv s2 := h1.withGrids
  exact h2.handBatch

theorem Inv.serveGrid {x : Served} {t : State} (hx : Machine.serveGrid s x = some t) : Inv t := by
  unfold Machine.serveGrid at hx
  split at hx
  · split at hx
    · split at hx
      · cases hx
      · exact Option.some.inj hx ▸ h.sendBatch
    · cases hx
  · cases hx

theorem Inv.execLodestarBatch : GoesOn (Machine.execLodestarBatch s) := by
  refine goesOn_next ?_
  cases hserve : ((sortOn (fun x => 3 - x.1) ((List.range 8).filterMap fun p => firstServed s (openGrids s p))).findSome? (Machine.serveGrid s)) with
  | none => exact h
  | some t =>
    obtain ⟨x, -, hx⟩ := List.exists_of_findSome?_eq_some hserve
    exact h.serveGrid hx

end
end Sys2Proof.Machine
end

section
/-! PROOFS. What every step keeps: placement, stages, loop boundaries, saves and restores, slices, and queue entries. -/

namespace Sys2Proof.Machine

/-- Whatever an access to a device page answers has a property. -/
def Hands {α : Type} (P : α → Prop) (r : DevRes α) : Prop := ∀ a, r = .ok a → P a

section
variable {α β : Type} {P : α → Prop} {Q : β → Prop} {r : DevRes α}

theorem hands_ok {a : α} (h : P a) : Hands P (.ok a) := fun _ hb => DevRes.ok.inj hb ▸ h

theorem Hands.devThen {k : α → DevRes β} (hr : Hands P r) (hk : ∀ a, P a → Hands Q (k a)) : Hands Q (devThen r k) := by
  cases r with
  | ok a => exact hk a (hr a rfl)
  | wait x => exact fun _ h => (by cases h)
  | bad c x => exact fun _ h => (by cases h)
  | hole => exact fun _ h => (by cases h)

/-- What is read on the way may be anything. -/
theorem hands_then {k : α → DevRes β} (hk : ∀ a, Hands Q (k a)) : Hands Q (devThen r k) :=
  Hands.devThen (P := fun _ => True) (fun _ _ => trivial) fun a _ => hk a

theorem hands_ite {p : Prop} [Decidable p] {x y : DevRes α} (hx : Hands P x) (hy : Hands P y) : Hands P (if p then x else y) := by
  split
  · exact hx
  · exact hy

end

/-- An access that hands a state on beside what it answers, and keeps the invariant. -/
abbrev HandsOn {α : Type} (r : DevRes (State × α)) : Prop := Hands (fun p => Inv p.1) r

section
variable {s : State} (h : Inv s)
include h

theorem Inv.devWritten {c : Nat} {gen : Nat → Option Nat} {va : DWord} {align : Nat} {data : List Byte} : Hands Inv (Machine.devWrite s c gen va align data) :=
  fun _ hw => h.devWrite hw

/-! ## Placement -/

theorem Inv.execPriorityAgeing {grid : Nat} : GoesOn (Machine.execPriorityAgeing grid s) := by
  refine goesOn_next ?_
  split
  · exact inv_ite h.modGrid h
  · exact h

theorem Inv.execFreeCountReport {die : Nat} : GoesOn (Machine.execFreeCountReport die s) := goesOn_next h.modDie

theorem Inv.passDomain {c ctx : Nat} : Inv (Machine.passDomain s c ctx) := inv_ite h h.modCore

theorem Inv.takeIn {c : Nat} {gr : Group} : Inv (Machine.takeIn s c gr) := h.passDomain.learn.modGroup.modCore.joinAdmitted

theorem Inv.placeGang {d : Nat} {gs : List Nat} {t : State} (hp : Machine.placeGang d gs s = some t) : Inv t := by
  induction gs generalizing s with
  | nil => exact Option.some.inj hp ▸ h
  | cons g rest ih =>
    rw [Machine.placeGang] at hp
    split at hp
    · exact ih h hp
    · split at hp
      · exact ih h.modDie.takeIn hp
      · cases hp

/-- The state that the first of several attempts leaves, or none does. -/
theorem Inv.firstOf {α : Type} {f : α → Option State} (hf : ∀ x t, f x = some t → Inv t) (xs : List α) : Inv ((xs.findSome? f).getD s) := by
  cases hfirst : xs.findSome? f with
  | none => exact h
  | some t =>
    obtain ⟨x, -, hx⟩ := List.exists_of_findSome?_eq_some hfirst
    exact hf x t hx

theorem Inv.execGroupPlacement {die : Nat} : GoesOn (Machine.execGroupPlacement die s) := by
  refine goesOn_next (h.firstOf (fun g t hg => ?_) _)
  split at hg
  · cases hg
  · obtain ⟨u, hu, rfl⟩ := Option.map_eq_some_iff.mp hg
    exact (h.placeGang hu).modDie

theorem Inv.execGangReservation {die : Nat} : GoesOn (Machine.execGangReservation die s) := by
  refine goesOn_next ?_
  split
  · exact h.modDie
  · exact h

theorem Inv.execSplitConversion {die : Nat} : GoesOn (Machine.execSplitConversion die s) := by
  refine goesOn_next ?_
  split
  · exact h.modCore
  · exact h

theorem Inv.execSplitForce {c : Nat} : GoesOn (Machine.execSplitForce c s) := goesOn_next (inv_ite (h.foldl (fun _ _ ht => ht.haltAndSave) _) h)

theorem Inv.execSplitReassign {c : Nat} : GoesOn (Machine.execSplitReassign c s) := by
  refine goesOn_next ?_
  split
  · exact inv_ite h.modCore h
  · exact h

/-! ## Stages and loops -/

theorem Inv.execStageReevaluation {graph node : Nat} : GoesOn (Machine.execStageReevaluation graph node s) := by
  refine goesOn_next ?_
  split
  · refine inv_ite h (h.foldl (fun t x ht => ?_) _)
    split
    · exact ht.modGrid
    · exact ht
  · exact h

theorem Inv.execStageCompletion {graph node stage : Nat} : GoesOn (Machine.execStageCompletion graph node stage s) := by
  refine goesOn_next ?_
  split
  · split
    · refine inv_ite h ?_
      extract_lets s1 s2
      have h1 : Inv s1 := h.modStage
      have h2 : Inv s2 := by
        unfold s2
        split
        · exact h1.modGrid
        · exact h1
      exact inv_ite h2 h2.modQueueOf
    · exact h
  · exact h

omit h in
theorem slotTransition_handsOn {g i c : Nat} {gen : Nat → Option Nat} {table : DWord} {slot : Nat} {acc : State × List (Cmd × Nat × Nat)} (h : Inv acc.1) :
    HandsOn (slotTransition g i c gen table slot acc) := by
  unfold slotTransition
  refine hands_then fun r => ?_
  extract_lets st x cs mine out s1
  have h1 : Inv s1 := h.modGraph
  clear_value s1
  split
  · exact h1.devWritten.devThen fun s2 h2 => hands_ite (h2.devWritten.devThen fun _ h3 => hands_ok h3) (hands_ok h2)
  · exact hands_ite (h1.devWritten.devThen fun _ h2 => hands_ok h2) (hands_ok h1)

omit h in
theorem stepOne_handsOn {g i c : Nat} {gen : Nat → Option Nat} {table : DWord} (slots : List Nat) {acc : State × List (Cmd × Nat × Nat)} (h : Inv acc.1) :
    HandsOn (stepOne g i c gen table slots acc) := by
  induction slots generalizing acc with
  | nil => exact hands_ok h
  | cons k r ih => exact (slotTransition_handsOn h).devThen fun _ hx => ih hx

theorem Inv.stepTwo {c : Nat} {gen : Nat → Option Nat} {table : DWord} {adopted : Option Nat} {subscribed : Bool} (slots : List Nat) {active : List Nat} :
    HandsOn (Machine.stepTwo c gen table adopted subscribed slots (s, active)) := by
  induction slots generalizing s active with
  | nil => exact hands_ok h
  | cons k r ih => exact hands_then fun b => hands_ite (ih h) (hands_ite (h.devWritten.devThen fun _ ht => ih ht) (ih h))

theorem Inv.tableSteps {g i c : Nat} {n : Node} {gen gen2 : Nat → Option Nat} {adopted : Option Nat} {iter : Nat} :
    HandsOn (Machine.tableSteps s g i c n gen gen2 adopted iter) :=
  hands_then fun _ => (stepOne_handsOn _ h).devThen fun _ ha => (ha.stepTwo _).devThen fun _ hb => hb.devWritten.devThen fun _ ht => hands_ok ht

theorem Inv.resetBody {g i : Nat} {n : Node} : Inv (Machine.resetBody s g i n) := by
  unfold Machine.resetBody
  split
  · exact h
  · extract_lets body own s1
    have h1 : Inv s1 := h.modGraph
    exact h1.withGrids

theorem Inv.execLoopBoundary {graph node : Nat} : GoesOn (Machine.execLoopBoundary graph node s) := by
  refine goesOn_next (inv_ite h ?_)
  split
  · refine inv_ite h ?_
    extract_lets adopted iter gen gen2 s0 run
    have h0 : Inv s0 := h.foldl (fun _ _ ht => ht.drainDie) _
    clear_value s0
    have hrun : Hands (fun p => Inv p.1.1) run :=
      Hands.devThen (hands_ite (hands_ok h0) h0.tableSteps) fun a (ha : Inv a.1) => hands_then fun _ => hands_ok ha
    clear_value run
    split
    · exact h.devWait
    · exact h.devRefused
    · exact h.devRefused
    · next a w =>
      have ha : Inv a.1 := hrun (a, w) rfl
      extract_lets s1 s2 s3
      have h1 : Inv s1 := ha.foldl (fun _ _ ht => ht.complete) _
      have h2 : Inv s2 := h1.sendAlong.modNode
      have h3 : Inv s3 := inv_ite h2.modGraph.modNode h2.resetBody
      exact h3.settleRanges
  · exact h

/-! ## Saves, restores and slices -/

theorem Inv.applyOne {r : Region} : Inv (Machine.applyOne s r) := by
  unfold Machine.applyOne
  split
  · split
    · exact h.applyAt
    · exact h
  · exact h

theorem Inv.applyArrived {p : Nat} : Inv (Machine.applyArrived s p) := h.foldl (fun _ _ ht => ht.foldl (fun _ _ hu => hu.applyOne) _) _

theorem Inv.unbindIdle : Inv (Machine.unbindIdle s) := h.foldl (fun t r ht => by
  extract_lets t1
  have h1 : Inv t1 := ht.foldl (fun u i hu => by
    split
    · exact hu.applyAt
    · exact hu) _
  clear_value t1
  split
  · exact h1.putLevels.modRegion
  · exact h1) _

theorem Inv.bindRegions : Inv (Machine.bindRegions s) := h.foldl (fun t r ht => by
  split
  · exact ht.modRegion
  · exact ht) _

theorem Inv.settleRegions : Inv (Machine.settleRegions s) := h.unbindIdle.bindRegions

theorem Inv.execPreemptionRequest {p : Nat} : GoesOn (Machine.execPreemptionRequest p s) := goesOn_next (h.applyArrived.foldl (fun _ _ ht => ht.haltAndSave) _)

theorem Inv.execFramePoolSave {group : Nat} : GoesOn (Machine.execFramePoolSave group s) := goesOn_next h.saveGroup.serveAfter.settleRegions

theorem Inv.resavePage {gr : Group} {va : DWord} {kind : Nat} : Inv (Machine.resavePage s gr va kind) := by
  unfold Machine.resavePage
  extract_lets g2 s1 f units s2
  have h1 : Inv s1 := h.modGroup
  have h2 : Inv s2 := by
    unfold s2
    clear_value s1 units
    split
    · refine inv_ite ?_ h1
      split
      · next hw => exact (h1.devWrite hw).modGroup
      · exact h1
    · exact h1
  exact h2.postCtx

/-- The operations of a group that is restored: their numbers, pages and refused chunks. -/
abbrev AgainOps := List (Nat × Pages × List (Nat × (Code × DWord)))

theorem Inv.moveOps {gr : Group} {c : Nat} {cs ms : AgainOps} : Inv (Machine.moveOps s gr c cs ms) := h.of_eq rfl rfl rfl

theorem Inv.resumeOps {gr : Group} {c : Nat} {cs ms : AgainOps} : Inv (Machine.resumeOps s gr c cs ms) := h.moveOps.foldl (fun t r ht => by
  split
  · exact Inv.endCopy (ht.foldl (fun _ _ hu => hu.countLanded) _)
  · exact ht) _

theorem Inv.settleRestored {gr : Group} {c : Nat} : Inv (Machine.settleRestored s gr c) := by
  unfold Machine.settleRestored
  extract_lets s1 s2 s3
  have h1 : Inv s1 := h.modCtxSame fun _ => ⟨rfl, rfl, rfl⟩
  have h2 : Inv s2 := h1.modGroup
  have h3 : Inv s3 := h2.of_eq rfl rfl rfl
  exact inv_ite h3.modCore h3

theorem Inv.moveTraps {g : Nat} (fs : List (Nat × List Byte)) : Hands Inv (Machine.moveTraps g fs s) := by
  induction fs generalizing s with
  | nil => exact hands_ok h
  | cons x rest ih =>
    obtain ⟨w, f⟩ := x
    rw [Machine.moveTraps]
    split
    · exact h.devWritten.devThen fun _ ht => ih (ht.modWarp.foldl (fun _ _ hu => hu.writeWide) _)
    · exact ih h

theorem Inv.execGroupRestore {group c : Nat} : GoesOn (Machine.execGroupRestore group c s) := by
  refine goesOn_next ?_
  split
  · exact h
  refine inv_ite h ?_
  split
  · exact h.resavePage
  split
  · exact h.contextEnd
  · exact h.contextEnd
  · exact h.contextEnd
  · extract_lets s1
    have h1 : Inv s1 := h.takeIn
    clear_value s1
    split
    · exact h
    · next s2 hplace =>
      have h2 : Inv s2 := h1.placeSlots hplace
      split
      · exact h.resavePage
      · exact h.contextEnd
      · exact h.contextEnd
      · next s3 hmove =>
        have h3 : Inv s3 := h2.moveTraps _ _ hmove
        exact inv_ite h h3.resumeOps.settleRestored

theorem Inv.moveFns {p : Nat} : Inv (Machine.moveFns s p) := h.of_eq rfl rfl rfl

theorem Inv.execQuantumSliceEnd {p : Nat} : GoesOn (Machine.execQuantumSliceEnd p s) :=
  goesOn_next (inv_ite h (Inv.settleRegions (Inv.moveFns (Inv.modPart
    (inv_ite h.applyArrived (h.applyArrived.foldl (fun _ _ ht => ht.haltAndSave) _))))))

/-! ## Function registers and queue entries -/

theorem Inv.execFunctionEnable {f : Nat} : GoesOn (Machine.execFunctionEnable f s) := goesOn_next (inv_ite h.modFn h)

theorem Inv.execFunctionDisable {f : Nat} : GoesOn (Machine.execFunctionDisable f s) := goesOn_next (inv_ite h.modFn h)

theorem Inv.execFunctionRegisterWrite {f off : Nat} {data : List Byte} : GoesOn (Machine.execFunctionRegisterWrite f off data s) :=
  goesOn_next (inv_ite h h.modFn)

theorem Inv.takeEntry {f q : Nat} : Inv (Machine.takeEntry f q s) := by
  unfold Machine.takeEntry
  split
  · exact h
  · extract_lets b c s1
    have h1 : Inv s1 := h.modQueue
    refine inv_ite h1.complete ?_
    split
    · exact h1.complete
    · exact inv_ite h.modQueue (h1.of_eq rfl rfl rfl)

theorem Inv.readTail {f q : Nat} : Inv (Machine.readTail f q s) := by
  unfold Machine.readTail
  refine inv_ite h ?_
  split
  · exact h
  · exact h.foldl (fun _ _ ht => ht.takeEntry) _

theorem Inv.execTailReread {f q : Nat} : GoesOn (Machine.execTailReread f q s) := goesOn_next (inv_ite h.readTail h)

theorem Inv.execTailPoll {f q : Nat} : GoesOn (Machine.execTailPoll f q s) := goesOn_next (inv_ite h h.readTail)

end
end Sys2Proof.Machine
end

section
/-! PROOFS. What every step keeps: completions, events, and the host's commands. -/

namespace Sys2Proof.Machine

section
variable {s : State} (h : Inv s)
include h

/-! ## Completions and events -/

theorem Inv.releaseAll : Inv (Machine.releaseAll s) := h.foldl (fun _ _ ht => ht.drainDie) _

theorem Inv.execCompletionPost {f queue : Nat} : GoesOn (Machine.execCompletionPost f queue s) := by
  refine goesOn_next (inv_ite h ?_)
  split
  · exact h
  split
  · exact h
  · exact inv_ite h h.releaseAll.homeWrite.modQueue.modFn

theorem Inv.execHeldEventPost {f : Nat} : GoesOn (Machine.execHeldEventPost f s) := by
  refine goesOn_next (inv_ite h ?_)
  split
  · exact h
  · exact inv_ite h h.homeWrite.modFn

/-! ## Commands -/

theorem Inv.takeCmd {c : Cmd} : Inv (Machine.takeCmd s c) := h.modQueue

theorem Inv.command {c : Cmd} {used : List (Nat × Nat)} {body : State → State} (hbody : ∀ t, Inv t → Inv (body t)) :
    GoesOn (Machine.command s c used body) := by
  refine goesOn_next ?_
  split
  · exact h.takeCmd.complete
  · exact hbody _ h.takeCmd

theorem Inv.withCtx {c : Cmd} {k : Ctx → State} (hk : ∀ x, Inv (k x)) : Inv (Machine.withCtx s c k) := by
  unfold Machine.withCtx
  split
  · exact hk _
  · exact h.complete

theorem Inv.withoutCtx {c : Cmd} {k : State} (hk : Inv k) : Inv (Machine.withoutCtx s c k) := inv_ite hk h.complete

omit h in
theorem imageCtx_clean (id f root : Nat) (b : List Byte) : CtxClean (imageCtx id f root b) :=
  ⟨masked_clear (by decide), masked_clear (by decide), masked_clear (by decide)⟩

theorem Inv.execCreateContext {c : Cmd} : GoesOn (Machine.execCreateContext c s) := h.command fun _ ht => ht.withoutCtx (inv_ite ht.complete (inv_ite ht.complete (by
  split
  · exact ht.complete
  · exact (ht.sputCtx (imageCtx_clean ..)).complete)))

theorem Inv.execDestroyContext {c : Cmd} : GoesOn (Machine.execDestroyContext c s) := h.command fun _ ht => ht.withCtx fun _ => ht.discardCtx.complete

theorem Inv.execCreateQueue {c : Cmd} : GoesOn (Machine.execCreateQueue c s) := h.command fun _ ht => ht.withoutCtx (inv_ite ht.complete (by
  split
  · exact ht.complete
  · exact ht.modFn.complete))

theorem Inv.releaseSlots {f id : Nat} : Inv (Machine.releaseSlots s f id) := h.of_eq rfl rfl rfl

theorem Inv.withGraphs {gs : List Graph} : Inv { s with graphs := gs } := h.of_eq rfl rfl rfl

theorem Inv.refuseGraph {c : Cmd} {node : Nat} : Inv (Machine.refuseGraph s c node) := h.fresh.withGraphs.complete.releaseSlots

theorem Inv.execSubmitGraph {c : Cmd} : GoesOn (Machine.execSubmitGraph c s) := h.command fun _ ht => ht.withCtx fun _ => by
  split
  · exact inv_ite ht ht.devWait
  · exact ht.fresh.withGraphs.sendAlong.releaseSlots
  · exact ht.refuseGraph
  · exact ht.refuseGraph
  · exact ht.refuseGraph

theorem Inv.execCancelGraph {c : Cmd} : GoesOn (Machine.execCancelGraph c s) := h.command fun _ ht => ht.withoutCtx (by
  split
  · exact ht.modGraph.failGraph.complete
  · exact ht.complete)

theorem Inv.slotCommand {add : Bool} {i : Instr} {c : Cmd} : GoesOn (Machine.slotCommand add i c s) := h.command fun _ ht => ht.withoutCtx (by
  split
  · exact inv_ite ht.complete (inv_ite ht.complete ht.modFn)
  · split
    · exact ht.complete
    · refine inv_ite ht.complete ?_
      split
      · exact inv_ite ht.complete ht.modGraph
      · exact inv_ite ht ht.devWait
      · exact ht.complete)

theorem Inv.execAddSlot {c : Cmd} : GoesOn (Machine.execAddSlot c s) := h.slotCommand

theorem Inv.execRemoveSlot {c : Cmd} : GoesOn (Machine.execRemoveSlot c s) := h.slotCommand

theorem Inv.withRanges {rs : List VRange} : Inv { s with ranges := rs } := h.of_eq rfl rfl rfl

theorem Inv.execCreateRange {c : Cmd} : GoesOn (Machine.execCreateRange c s) := h.command fun _ ht =>
  ht.withoutCtx (inv_ite ht.complete ht.withRanges.complete)

theorem Inv.execMapRange {c : Cmd} : GoesOn (Machine.execMapRange c s) := h.command fun _ ht => ht.withCtx fun _ => by
  dsimp only
  split
  · exact ht.complete
  · refine inv_ite ht.complete (inv_ite ht.complete (Inv.complete (ht.modCtxSame ?_)))
    exact fun _ => ⟨rfl, rfl, rfl⟩

theorem Inv.withPorts {ps : List Port} : Inv { s with ports := ps } := h.of_eq rfl rfl rfl

theorem Inv.execBindPeer {c : Cmd} : GoesOn (Machine.execBindPeer c s) := h.command fun _ ht => ht.withCtx fun _ => by
  dsimp only
  split
  · exact ht.complete
  · exact inv_ite ht.complete (inv_ite ht.complete (inv_ite ht.complete ht.withPorts.complete))

theorem Inv.execPeerBindingMatch {port ctx : Nat} : GoesOn (Machine.execPeerBindingMatch port ctx s) := goesOn_next h.withPorts

theorem Inv.newTable {p : Nat} {es : List (Nat × Nat × Nat)} : Inv (Machine.newTable s p es) := by
  unfold Machine.newTable
  extract_lets out s1
  have h1 : Inv s1 := h.modPart
  clear_value s1
  split
  · exact h1.modPart
  · exact Inv.settleRegions (h1.applyArrived.foldl (fun _ _ ht => ht.haltAndSave) _)

theorem Inv.execSetQuantum {c : Cmd} : GoesOn (Machine.execSetQuantum c s) := h.command fun _ ht =>
  ht.withoutCtx (inv_ite ht.complete (inv_ite ht.complete (inv_ite ht.complete ht.newTable.complete)))

/-! ## Partitions -/

omit h in
/-- The bytes of cache lines that go to memory, or some of them, leave it canonical. -/
theorem memory_wf_writeBack (some? : Nat × Byte → Bool) (ls : List (Nat × Byte)) : ∀ {m : List Host.Cell}, Memory.wf m = true →
    Memory.wf (ls.foldl (fun m p => if some? p then memPut m p.1 p.2 else m) m) = true := by
  induction ls with
  | nil => exact fun hm => hm
  | cons p r ih =>
    intro m hm
    rw [List.foldl_cons]
    refine ih ?_
    split
    · exact memPut_wf _ _ _ hm
    · exact hm

theorem Inv.flushCaches {halves : List Nat} : Inv (Machine.flushCaches halves s) := by
  unfold Machine.flushCaches
  extract_lets t left
  have ht : Inv t := h.foldl (fun _ _ hu => inv_ite hu.failLine hu) _
  exact ⟨memory_wf_writeBack (fun _ => true) t.l2 ht.mem, ht.hostMem, ht.ctxs⟩

theorem Inv.rehome {p : Nat} : Inv (Machine.rehome s p) := by
  unfold Machine.rehome
  split
  · exact h
  · extract_lets mine away moved s1 s2
    have h1 : Inv s1 := h.of_eq rfl rfl rfl
    have h2 : Inv s2 := h1.modDie
    exact h2.of_eq rfl rfl rfl

theorem Inv.applyParts {ps : List (Nat × Nat × Bool)} : Inv (Machine.applyParts s ps) := by
  unfold Machine.applyParts
  extract_lets ch sized halves s1 s2 s3
  have h1 : Inv s1 := h.releaseAll.unbindIdle.flushCaches
  have h2 : Inv s2 := h1.of_eq rfl rfl rfl
  have h3 : Inv s3 := Inv.bindRegions (h2.foldl (fun _ _ ht => ht.rehome) _)
  exact h3.foldl (fun _ _ ht => ht.postCtx) _

theorem Inv.runRepartition {c : Cmd} : Inv (Machine.runRepartition s c) := by
  unfold Machine.runRepartition
  extract_lets ends
  have hends : ∀ t st, Inv t → Inv (ends t st) := fun _ _ ht => ht.modFn.complete
  clear_value ends
  split
  · exact hends _ _ h
  · extract_lets ch s1 s2
    have h1 : Inv s1 := h.foldl (fun _ _ ht => ht.applyArrived.modPart) _
    have h2 : Inv s2 := h1.foldl (fun _ _ ht => ht.haltAndSave) _
    exact inv_ite (hends _ _ h2.applyParts) h2

theorem Inv.execRepartition {c : Cmd} : GoesOn (Machine.execRepartition c s) :=
  goesOn_ite (goesOn_next (inv_ite h.runRepartition h)) (h.command fun _ ht =>
    ht.withoutCtx (inv_ite ht.complete (inv_ite ht.modFn.runRepartition ht.modFn)))

theorem Inv.execAssignFunction {c : Cmd} : GoesOn (Machine.execAssignFunction c s) := h.command fun _ ht =>
  ht.withoutCtx (inv_ite ht.complete ht.modFn.complete)

theorem Inv.withGroups {gs : List (Nat × Group)} : Inv { s with groups := gs } := h.of_eq rfl rfl rfl

theorem Inv.resumeNamed {c : Cmd} : Inv (Machine.resumeNamed s c) := by
  unfold Machine.resumeNamed
  split
  · exact h
  · exact h.withGroups

theorem Inv.execResume {c : Cmd} : GoesOn (Machine.execResume c s) :=
  goesOn_ite (goesOn_next h.resumeNamed) (h.command fun _ ht => ht.resumeNamed.complete)

theorem Inv.execPageReady {c : Cmd} : GoesOn (Machine.execPageReady c s) := h.command fun t ht => inv_ite ht.complete (by
  split
  · exact ht.complete
  · refine Inv.complete ?_
    exact ht.of_eq rfl rfl rfl)

end
end Sys2Proof.Machine
end

section
/-! PROOFS. What every step keeps: the board, links and resets, and the step itself. -/

namespace Sys2Proof.Machine

section
variable {s : State} (h : Inv s)
include h

/-! ## Management -/

theorem Inv.withMgmt {m : Mgmt} : Inv { s with mgmt := m } := h.of_eq rfl rfl rfl

theorem Inv.withDies {ds : List Die} : Inv { s with dies := ds } := h.of_eq rfl rfl rfl

theorem Inv.manage {effect : State → State} (heffect : ∀ t, Inv t → Inv (effect t)) : GoesOn (Machine.manage s effect) :=
  goesOn_next (inv_ite (heffect _ h.withMgmt) h.withMgmt.postMgmt)

theorem Inv.execPldmMonitoring : GoesOn (Machine.execPldmMonitoring s) := h.manage fun _ ht => ht.postMgmt

theorem Inv.execPowerLimitSet {watts : Nat} : GoesOn (Machine.execPowerLimitSet watts s) := h.manage fun _ ht => ht.withMgmt

theorem Inv.execReducedPrecisionSet {f : Nat} {on : Bool} : GoesOn (Machine.execReducedPrecisionSet f on s) := h.manage fun _ ht => ht.modFn

theorem Inv.execFirmwareUpdate {image : List Byte} {valid : Bool} : GoesOn (Machine.execFirmwareUpdate image valid s) := h.manage fun _ ht => ht.withMgmt

theorem Inv.execSpdmAttestation : GoesOn (Machine.execSpdmAttestation s) := h.manage fun _ ht => ht.postMgmt

theorem Inv.execFreezeRequest {wrote : Bool} : GoesOn (Machine.execFreezeRequest wrote s) := goesOn_next h.withMgmt

theorem Inv.execFreezeRelease : GoesOn (Machine.execFreezeRelease s) := goesOn_next h.withMgmt

theorem Inv.execCoreHalt {c : Nat} : GoesOn (Machine.execCoreHalt c s) := goesOn_next h.modCore

theorem Inv.execCoreResume {c : Nat} : GoesOn (Machine.execCoreResume c s) := goesOn_next h.modCore.withGroups

theorem Inv.execPowerCapStep {watts : Nat} : GoesOn (Machine.execPowerCapStep watts s) := goesOn_next h.withDies

theorem Inv.execThermalCap {die : Nat} : GoesOn (Machine.execThermalCap die s) := goesOn_next h.modDie

theorem Inv.execCriticalTemperature {die : Nat} : GoesOn (Machine.execCriticalTemperature die s) := by
  refine goesOn_next (Inv.postMgmt ?_)
  exact h.of_eq rfl rfl rfl

theorem Inv.execMacroSelfCheck {c unit : Nat} : GoesOn (Machine.execMacroSelfCheck c unit s) := goesOn_next (inv_ite h (inv_ite h h.retireMacro))

/-! ## Links -/

theorem Inv.loseTo {g w : Nat} {addr : DWord} : Inv (Machine.loseTo s g w addr) := h.deferTo.modWarp

theorem Inv.loseLoad {x : Away} : Inv (Machine.loseLoad s x) := by
  unfold Machine.loseLoad
  split
  · exact inv_ite h.modWarp.loseTo.modGroup.stillAway h
  · exact h

theorem Inv.loseLoads {space : Nat} : Inv (Machine.loseLoads s space) := h.foldl (fun _ _ ht => ht.loseLoad) _

theorem Inv.execHostLinkLoss : GoesOn (Machine.execHostLinkLoss s) := by
  refine goesOn_next (inv_ite h ?_)
  extract_lets lost m s1 s2 halt
  have h1 : Inv s1 := h.of_eq rfl rfl rfl
  have h2 : Inv s2 := h1.loseLoads.foldl (fun t p ht => by
    split
    · exact ht
    · exact inv_ite ht.loseTo (ht.foldl (fun _ _ hu => hu.foldl (fun _ _ hv => hv.loseTo) _) _)) _
  exact Inv.postMgmt (h2.foldl (fun _ _ ht => ht.haltAndSave) _)

theorem Inv.execHostLinkReturn {mode : Nat} : GoesOn (Machine.execHostLinkReturn mode s) := goesOn_next (inv_ite h (h.of_eq rfl rfl rfl))

theorem Inv.postPort {port kind : Nat} : Inv (Machine.postPort s port kind) := h.foldl (fun _ _ ht => ht.postEvent) _

theorem Inv.execPeerPortDown {port : Nat} : GoesOn (Machine.execPeerPortDown port s) := by
  refine goesOn_next ?_
  split
  · exact h
  · refine inv_ite h ?_
    extract_lets hit s1
    have h1 : Inv s1 := h.of_eq rfl rfl rfl
    exact Inv.postPort (h1.loseLoads.foldl (fun _ _ ht => ht.loseTo) _)

theorem Inv.execPeerPortTraining {port version : Nat} : GoesOn (Machine.execPeerPortTraining port version s) := by
  refine goesOn_next ?_
  split
  · exact h
  · exact inv_ite h (inv_ite h.postPort h.withPorts.postPort)

theorem Inv.execDieLinkDown {a b : Nat} : GoesOn (Machine.execDieLinkDown a b s) :=
  goesOn_next (inv_ite h (Inv.postMgmt (Inv.countEcc (Inv.withMgmt (h.modDie.modDie.foldl (fun _ _ ht => ht.contextEnd) _)))))

/-! ## Resets -/

theorem Inv.drainForReset {reach : PendWrite → Bool} : Inv (Machine.drainForReset s reach) := h.withPend.drainIf

theorem Inv.clearFn {f : Nat} : Inv (Machine.clearFn s f) := by
  unfold Machine.clearFn
  extract_lets cs gs ids s1 s2 mine
  have h1 : Inv s1 := h.of_eq rfl rfl rfl
  have h2 : Inv s2 := h1.foldl (fun _ _ ht => ht.discardCtx) _
  refine Inv.settleRanges (Inv.modFn ?_)
  exact h2.of_eq rfl rfl rfl

theorem Inv.resetVirtual {f : Nat} : Inv (Machine.resetVirtual s f) := h.drainForReset.clearFn

theorem Inv.memoryAfterReset : Memory.wf (Machine.memoryAfterReset s) = true := memory_wf_writeBack (fun p => Config.evicted s.tick p.1) s.l2 h.mem

theorem Inv.hostWritesHome {ps : List PendWrite} : Inv (Machine.hostWritesHome s ps) :=
  h.foldl (fun _ _ ht => ht.clearEcc.foldl (fun _ _ hu => hu.memPut) _) _

theorem Inv.resetPhysical : Inv (Machine.resetPhysical s) := by
  unfold Machine.resetPhysical
  extract_lets s1 s2
  have h2 : Inv s2 := h.withPend.drainForReset.hostWritesHome
  exact ⟨h2.memoryAfterReset, h2.hostMem, fun _ hx => (by cases hx)⟩

theorem Inv.execFunctionLevelReset {f : Nat} : GoesOn (Machine.execFunctionLevelReset f s) := goesOn_next (inv_ite h.resetPhysical (inv_ite h.resetVirtual h))

theorem Inv.execHotReset : GoesOn (Machine.execHotReset s) := goesOn_next h.resetPhysical.withMgmt

theorem Inv.execPowerUp : GoesOn (Machine.execPowerUp s) := goesOn_next ⟨reset_mem_wf, h.hostMem, fun _ hx => (by cases hx)⟩

/-! ## Every instruction -/

theorem Inv.exec {i : Instr} : GoesOn (Machine.exec i s) := by
  unfold Machine.exec
  cases i with
  | iadd | imul | imad | imnx | iabs | icmp | sel | ltab | shf | bfx | bfi | bitc | bperm | iaddw | shfw | icmpw | lea | mov | movi | idot
  | cvti | fadd | fmul | ffma | fmnx | fcmp | fclass | frint | fscale | cvtf | cvtfi | cvtif | paddh | pmulh | pfmah | pmnxh | fdot2 | fdeq
  | fexpd | flse | ftwosum => exact h.aluWord
  | idiv | fsfu | fdiv => exact h.slowWord
  | vote | shfl | wred | wscan | matchw => exact h.exchange
  | aadd | amnx | alog | axch | acas | ainc => exact h.rmwWord
  | illegal => exact h.execIllegal
  | nop => exact h.execNop
  | pairedWord => exact h.execPairedWord
  | sread => exact h.execSread
  | fquant => exact h.execFquant
  | bra => exact h.execBra
  | brx => exact h.execBrx
  | call => exact h.execCall
  | callx => exact h.execCallx
  | ret => exact h.execRet
  | exit => exact h.execExit
  | elect => exact h.execElect
  | wsync => exact h.execWsync
  | yieldl => exact h.execYieldl
  | brkpt => exact h.execBrkpt
  | freeze => exact h.execFreeze
  | tnest => exact h.execTnest
  | tsignal => exact h.execTsignal
  | rgrow => exact h.execRgrow
  | rshrink => exact h.execRshrink
  | gbar => exact h.execGbar
  | gangbar => exact h.execGangbar
  | garrive => exact h.execGarrive
  | gwait => exact h.execGwait
  | launch => exact h.execLaunch
  | yield => exact h.execYield
  | sleep => exact h.execSleep
  | qpush => exact h.execQpush
  | qpop => exact h.execQpop
  | qclose => exact h.execQclose
  | nodesig => exact h.execNodesig
  | ld => exact h.execLd
  | st => exact h.execSt
  | lds => exact h.execLds
  | sts => exact h.execSts
  | pref => exact h.execPref
  | zfill => exact h.execZfill
  | cflush => exact h.execCflush
  | taddr => exact h.execTaddr
  | mapq => exact h.execMapq
  | fence => exact h.execFence
  | waita => exact h.execWaita
  | wakea => exact h.execWakea
  | bcinit => exact h.execBcinit
  | bcadd => exact h.execBcadd
  | ordecl => exact h.execOrdecl
  | ordrop => exact h.execOrdrop
  | ldrs => exact h.execLdrs
  | ldrm => exact h.execLdrm
  | ldpfx => exact h.execLdpfx
  | ldpick => exact h.execLdpick
  | tfence => exact h.execTfence
  | orbuild => exact h.execOrbuild
  | tidset => exact h.execTidset
  | tidinv => exact h.execTidinv
  | mbload => exact h.execMbload
  | mmul => exact h.execMmul
  | maccrd => exact h.execMaccrd
  | maccwr => exact h.execMaccwr
  | maccz => exact h.execMaccz
  | mtrans => exact h.execMtrans
  | mperm => exact h.execMperm
  | mrsum => exact h.execMrsum
  | mepi => exact h.execMepi
  | bcopy => exact h.execBcopy
  | gather => exact h.execGather
  | scatter => exact h.execScatter
  | xcopy => exact h.execXcopy
  | htest => exact h.execHtest
  | hwait => exact h.execHwait
  | hcancel => exact h.execHcancel
  | vpub => exact h.execVpub
  | vpin => exact h.execVpin
  | vret => exact h.execVret
  | tokrec => exact h.execTokrec
  | smask => exact h.execSmask
  | ulcall => exact h.execUlcall
  | slotrd => exact h.execSlotrd
  | slotset => exact h.execSlotset
  | trap => exact h.execTrap
  | tret => exact h.execTret
  | cread => exact h.execCread
  | cwrite => exact h.execCwrite
  | tsave => exact h.execTsave
  | tload => exact h.execTload
  | tlbinv => exact h.execTlbinv
  | idle => exact h.execIdle
  | warpIssueChoice => exact h.execWarpIssueChoice
  | longLatencyReturn => exact h.execLongLatencyReturn
  | trapEntry => exact h.execTrapEntry
  | barrierPhaseComplete => exact h.execBarrierPhaseComplete
  | gangBarrierComplete => exact h.execGangBarrierComplete
  | templateCapture => exact h.execTemplateCapture
  | registerPoolGrant => exact h.execRegisterPoolGrant
  | registerDeadlockSave => exact h.execRegisterDeadlockSave
  | warpEnd => exact h.execWarpEnd
  | groupEnd => exact h.execGroupEnd
  | launchBlockRead => exact h.execLaunchBlockRead
  | nodeStart => exact h.execNodeStart
  | nodeCompletion => exact h.execNodeCompletion
  | hostWaitWatch => exact h.execHostWaitWatch
  | priorityAgeing => exact h.execPriorityAgeing
  | freeCountReport => exact h.execFreeCountReport
  | lodestarBatch => exact h.execLodestarBatch
  | groupPlacement => exact h.execGroupPlacement
  | gangReservation => exact h.execGangReservation
  | splitConversion => exact h.execSplitConversion
  | splitForce => exact h.execSplitForce
  | splitReassign => exact h.execSplitReassign
  | stageReevaluation => exact h.execStageReevaluation
  | queuePushReserve => exact h.execQueuePushReserve
  | queuePopReserve => exact h.execQueuePopReserve
  | stageCompletion => exact h.execStageCompletion
  | loopBoundary => exact h.execLoopBoundary
  | preemptionRequest => exact h.execPreemptionRequest
  | framePoolSave => exact h.execFramePoolSave
  | groupRestore => exact h.execGroupRestore
  | quantumSliceEnd => exact h.execQuantumSliceEnd
  | hostWrite => exact h.execHostWrite
  | peerWrite => exact h.execPeerWrite
  | updateRecordApply => exact h.execUpdateRecordApply
  | rangeLoadAnswer => exact h.execRangeLoadAnswer
  | regionBuildComplete => exact h.execRegionBuildComplete
  | tfenceRelease => exact h.execTfenceRelease
  | fenceRelease => exact h.execFenceRelease
  | chunkIssue => exact h.execChunkIssue
  | chunkLanding => exact h.execChunkLanding
  | chunkCredit => exact h.execChunkCredit
  | cancelArrival => exact h.execCancelArrival
  | matrixOpTurn => exact h.execMatrixOpTurn
  | matrixOpComplete => exact h.execMatrixOpComplete
  | macroSelfCheck => exact h.execMacroSelfCheck
  | waitaReread => exact h.execWaitaReread
  | waitaPoll => exact h.execWaitaPoll
  | waitaTimeout => exact h.execWaitaTimeout
  | sleepExpiry => exact h.execSleepExpiry
  | yieldReturn => exact h.execYieldReturn
  | ulcallBudgetExpiry => exact h.execUlcallBudgetExpiry
  | tailReread => exact h.execTailReread
  | tailPoll => exact h.execTailPoll
  | completionPost => exact h.execCompletionPost
  | createContext => exact h.execCreateContext
  | destroyContext => exact h.execDestroyContext
  | createQueue => exact h.execCreateQueue
  | submitGraph => exact h.execSubmitGraph
  | cancelGraph => exact h.execCancelGraph
  | addSlot => exact h.execAddSlot
  | removeSlot => exact h.execRemoveSlot
  | createRange => exact h.execCreateRange
  | mapRange => exact h.execMapRange
  | bindPeer => exact h.execBindPeer
  | peerBindingMatch => exact h.execPeerBindingMatch
  | setQuantum => exact h.execSetQuantum
  | repartition => exact h.execRepartition
  | assignFunction => exact h.execAssignFunction
  | resume => exact h.execResume
  | pageReady => exact h.execPageReady
  | functionEnable => exact h.execFunctionEnable
  | functionDisable => exact h.execFunctionDisable
  | functionRegisterWrite => exact h.execFunctionRegisterWrite
  | functionLevelReset => exact h.execFunctionLevelReset
  | hotReset => exact h.execHotReset
  | hostLinkLoss => exact h.execHostLinkLoss
  | hostLinkReturn => exact h.execHostLinkReturn
  | peerPortDown => exact h.execPeerPortDown
  | peerPortTraining => exact h.execPeerPortTraining
  | dieLinkDown => exact h.execDieLinkDown
  | pldmMonitoring => exact h.execPldmMonitoring
  | powerLimitSet => exact h.execPowerLimitSet
  | reducedPrecisionSet => exact h.execReducedPrecisionSet
  | firmwareUpdate => exact h.execFirmwareUpdate
  | spdmAttestation => exact h.execSpdmAttestation
  | freezeRequest => exact h.execFreezeRequest
  | freezeRelease => exact h.execFreezeRelease
  | coreHalt => exact h.execCoreHalt
  | coreResume => exact h.execCoreResume
  | powerCapStep => exact h.execPowerCapStep
  | thermalCap => exact h.execThermalCap
  | criticalTemperature => exact h.execCriticalTemperature
  | writePerformed => exact h.execWritePerformed
  | heldEventPost => exact h.execHeldEventPost
  | powerUp => exact h.execPowerUp

/-! ## The step -/

theorem Inv.issueWord {lg : LaneGroup} {t : State} {i : Option Instr} (hw : Machine.issueWord s lg = .next (t, i)) : Inv t := by
  unfold Machine.issueWord at hw
  split at hw
  · cases hw; exact h
  split at hw
  · cases hw; exact h
  split at hw
  · cases hw; exact h
  split at hw
  · cases hw
  · cases hw; exact h.takeFault
  · split at hw
    · cases hw; exact h.takeFault
    · cases hw; exact h.of_eq rfl rfl rfl

theorem Inv.withIssue {ls : List LaneGroup} : Inv { s with issue := ls } := h.of_eq rfl rfl rfl

theorem Inv.withAgenda {is : List Instr} : Inv { s with agenda := is } := h.of_eq rfl rfl rfl

theorem Inv.nextInstr {t : State} {i : Option Instr} (hw : Machine.nextInstr s = .next (t, i)) : Inv t := by
  unfold Machine.nextInstr at hw
  split at hw
  · split at hw
    · cases hw; exact h.withAgenda
    · cases hw; exact h
  split at hw
  · split at hw
    · cases hw; exact h.withIssue
    · exact h.withIssue.issueWord hw
  split at hw
  · cases hw; exact h.withAgenda
  · cases hw; exact h

theorem Inv.evictSome : Inv (Machine.evictSome s) := by
  unfold Machine.evictSome
  refine inv_ite h ?_
  split
  · exact h.lineToMem
  · exact h

theorem Inv.rebindSome : Inv (Machine.rebindSome s) := by
  unfold Machine.rebindSome
  refine inv_ite h ?_
  split
  · exact h
  · exact h.sawBytes.modWarp

theorem Inv.settleErrs : Inv (Machine.settleErrs s) := inv_ite h h.mend

theorem Inv.settleMemory : Inv (Machine.settleMemory s) := h.rebindSome.evictSome.evictErrors.settleErrs

theorem Inv.endStep : Inv (Machine.endStep s) := by
  unfold Machine.endStep
  extract_lets t
  have ht : Inv t := inv_ite h h.settleMemory
  exact ht.of_eq rfl rfl rfl

theorem Inv.step {t : State} (hs : Machine.step s = .next t) : Inv t := by
  unfold Machine.step at hs
  split at hs
  · next u i hnext =>
    split at hs
    · next v hexec => cases hs; exact ((h.nextInstr hnext).exec _ hexec).endStep
    · cases hs
    · cases hs
  · next u hnext => cases hs; exact (h.nextInstr hnext).endStep
  · cases hs
  · cases hs

end

/-- Settles O2: each function of the model that changes a state writes memory by `memPut`, and control registers masked. -/
theorem stepKeepsInvariant : Obligations.StepKeepsInvariant := by
  unfold Obligations.StepKeepsInvariant
  exact fun _ _ h hs => h.step hs

end Sys2Proof.Machine
end
